-- ==== Sys2Proof/Word.lean ====
section
/-! DEFINITION. The word types of the Fjarxel architecture, the sparse maps that hold its state,
and the small closed sets of names that instruction encodings choose from (R47, R73, R94 to R103). -/

namespace Sys2Proof

/-- A byte of memory. -/
abbrev Byte := BitVec 8
/-- A 16-bit halfword. -/
abbrev W16 := BitVec 16
/-- A 32-bit register or instruction word. -/
abbrev W32 := BitVec 32
/-- A 64-bit register pair, address or control register. -/
abbrev W64 := BitVec 64
/-- A 7-bit register field (R70). -/
abbrev Reg := BitVec 7
/-- A set of lanes of one wave: bit `L` set when lane `L` is a member. -/
abbrev LaneMask := BitVec 32

/-- A sparse map from numbers to values: pairs of a key and a value, keys strictly rising. -/
abbrev FMap (α : Type) := List (Nat × α)

/-- The value at key `k`, or `d` where the map lists none. -/
def fget {α : Type} (d : α) : FMap α → Nat → α
  | [], _ => d
  | (k, v) :: m, n => if k = n then v else fget d m n

/-- The value at key `k`, if the map lists one. -/
def flook {α : Type} : FMap α → Nat → Option α
  | [], _ => none
  | (k, v) :: m, n => if k = n then some v else flook m n

/-- Write key `k`, keeping the keys in rising order. -/
def fput {α : Type} : FMap α → Nat → α → FMap α
  | [], k, v => [(k, v)]
  | (k', v') :: m, k, v =>
    if k < k' then (k, v) :: (k', v') :: m
    else if k = k' then (k, v) :: m
    else (k', v') :: fput m k v

/-- Remove key `k`. -/
def fdel {α : Type} (m : FMap α) (k : Nat) : FMap α := m.filter (fun e => e.1 != k)

/-- Write key `k` of a map whose unlisted keys read `d`: writing `d` removes the entry. -/
def fset {α : Type} [DecidableEq α] (d : α) (m : FMap α) (k : Nat) (v : α) : FMap α :=
  if v = d then fdel m k else fput m k v

/-- Change the entry at `k`, if the map lists one. -/
def fmod {α : Type} (m : FMap α) (k : Nat) (f : α → α) : FMap α :=
  m.map (fun e => if e.1 = k then (e.1, f e.2) else e)

/-- Change every entry. -/
def fall {α : Type} (m : FMap α) (f : Nat → α → α) : FMap α := m.map (fun e => (e.1, f e.1 e.2))

/-- Keep the entries that satisfy a test. -/
def fkeep {α : Type} (m : FMap α) (f : Nat → α → Bool) : FMap α := m.filter (fun e => f e.1 e.2)

/-- Insertion sort by a key; equal keys keep their order. -/
def sortIns {α : Type} (f : α → Nat) (x : α) : List α → List α
  | [] => [x]
  | y :: ys => if f x ≤ f y then x :: y :: ys else y :: sortIns f x ys
def sortBy {α : Type} (f : α → Nat) (l : List α) : List α := l.foldr (sortIns f) []

/-- The canonical form: keys strictly rising, no entry equal to the default. -/
def FWf {α : Type} (d : α) (m : FMap α) : Prop :=
  m.Pairwise (fun x y => x.1 < y.1) ∧ ∀ e ∈ m, e.2 ≠ d

/-- The low and high words of a 64-bit value (R15). -/
def lo32 (x : W64) : W32 := x.setWidth 32
def hi32 (x : W64) : W32 := (x >>> 32).setWidth 32
/-- The 64-bit value of a pair, low word first (R15). -/
def pair (lo hi : W32) : W64 := hi ++ lo

/-- Bits `[hi:lo]` of a natural number. -/
def nbits (x hi lo : Nat) : Nat := (x >>> lo) % 2 ^ (hi + 1 - lo)

/-- A number from bytes, lowest first (R8), and back. -/
def leNat : List Byte → Nat
  | [] => 0
  | b :: bs => b.toNat + 256 * leNat bs
def leBytes : Nat → Nat → List Byte
  | 0, _ => []
  | n + 1, x => BitVec.ofNat 8 x :: leBytes n (x / 256)

/-- Integer operand types of INTB and XL functions (R94). -/
inductive IType | s32 | z32 | s64 | z64
  deriving DecidableEq, Repr
/-- Types of `dp4` (R128). -/
inductive DpType | s8 | z8 | sz
  deriving DecidableEq, Repr
/-- Operations of the SHI group (R94). -/
inductive ShOp | shl | shr | sar | rotl
  deriving DecidableEq, Repr
/-- Floating-point formats of the FPA and FPB groups (R96). -/
inductive FFmt | f32 | f64 | f16 | bf16 | f16x2 | bf16x2
  deriving DecidableEq, Repr
/-- Types of `cvt` (R97). -/
inductive CvtType | f32 | f64 | f16 | bf16 | s32 | z32 | s64 | z64
  deriving DecidableEq, Repr
/-- The packing forms of `cvt` (R97). -/
inductive PackKind | toF16x2 | toBf16x2 | ofF16x2 | ofBf16x2
  deriving DecidableEq, Repr
/-- Operations of `lred` (R98). -/
inductive RedOp | add | min | max | and | or | xor | minIdx | maxIdx
  deriving DecidableEq, Repr
/-- Element types of `lred` and `lscan` (R98). -/
inductive RedType | s32 | z32 | f32 | f64
  deriving DecidableEq, Repr
/-- Operations of `lscan` (R98). -/
inductive ScanOp | add | min | max
  deriving DecidableEq, Repr
/-- Kinds of `vote` (R98). -/
inductive VoteKind | all | any | same
  deriving DecidableEq, Repr
/-- Modes of `shfl` (R98). -/
inductive ShflMode | idx | up | down | xor
  deriving DecidableEq, Repr
/-- Load/store spaces (R99). -/
inductive Space | g | s | b
  deriving DecidableEq, Repr
/-- Access types of MEM loads and stores (R99). -/
inductive MemType | s8 | z8 | s16 | z16 | b32 | b64 | b128
  deriving DecidableEq, Repr
/-- Atomic operations (R188); `cas` is a constructor of its own in the syntax. -/
inductive AtomOp | add | minS | minZ | maxS | maxZ | and | or | xor | xch | inc | fadd
  deriving DecidableEq, Repr
/-- Memory orders of atomics (R187). -/
inductive MemOrd | rlx | acq | rel | ar
  deriving DecidableEq, Repr
/-- Scopes (R246). -/
inductive Scope | core | clu | pkg | pod
  deriving DecidableEq, Repr
/-- Rounding modes (R49). -/
inductive RMode | rne | rtz | rdn | rup | rna
  deriving DecidableEq, Repr
/-- The causes of a refusal to decode, in the order of R91. -/
inductive DecCause | opcode | pfx | dict | rsvd | range | pair | chain | group
  deriving DecidableEq, Repr

/-- An option word before a base word (R73). -/
structure Opt where
  sat : Bool
  een : Bool
  e : BitVec 7
  z : Bool
  rnd : BitVec 3
  ge : Bool
  gn : Bool
  gp : BitVec 7
  deriving DecidableEq, Repr

/-- What an instruction carries besides its operands: its option word and its literal payload
(R73 to R77), its stall class and its chain bit (R68, R69). -/
structure Mods where
  opt : Option Opt
  lit : Option (BitVec 29)
  s : BitVec 2
  c : Bool
  deriving DecidableEq, Repr

/-- The arguments of a host command (R430). -/
structure HArgs where
  ctx : W32
  a0 : W64
  a1 : W64
  a2 : W64
  a3 : W64
  a4 : W64
  a5 : W64
  deriving DecidableEq, Repr

/-- A host read through BAR2: how many bytes it asks for, and whether the CRC-32C values match where the data leaves (R416,
R425). -/
structure HostRead where
  len : Nat
  ok : Bool
  deriving DecidableEq, Repr

/-- Where a corrected error is: the class of the unit, and in a core the number of the store (R422, R424; log 56). -/
structure ErrStore where
  cls : Byte
  store : Nat
  deriving DecidableEq, Repr

/-- What a self-test has tested: the class of the unit, and in a memory an address in the row (R426; log 119). -/
structure TestRow where
  cls : Byte
  row : W64
  deriving DecidableEq, Repr

/-- What boot firmware brings when it runs (R3, R266, R279, R358, R417, R419): the image's header and
digest, the bank-store split `V` of each die, the free 64 KiB frames of each stack, and the values the
information block reports. -/
structure BootImage where
  sigGood : Bool
  secver : BitVec 6
  digest : BitVec 256
  cfgDigest : BitVec 256
  raise : Bool
  fwver : W32
  bankV : List Nat
  pool : List (List Nat)
  podsize : Nat
  deriving DecidableEq, Repr

end Sys2Proof
end

