-- ==== Sys2Proof/Syntax.lean ====
section
/-! DEFINITION. The instructions and events of the Verosh V9: one constructor for each row of the
operation table. A word row carries its option and literal words, stall class and chain bit in `m` and its operand
fields under the names of R70 and of the function tables; an event row carries what names the agent it befalls:
`k` a package, `w` a wave, `t` a troupe, `n` an index within them. -/

namespace Sys2Proof

/-- An instruction, or one of the steps the part takes by itself (one constructor per row of the table). -/
inductive Instr where
  /-- IADD: Each active lane adds two 32-bit registers, optionally saturating, with an optional literal B (R123) -/
  | iadd (m : Mods) (d : Reg) (a : Reg) (b : Reg)
  /-- ISUB: Each active lane subtracts B from A modulo 2^32, optionally saturating (R123) -/
  | isub (m : Mods) (d : Reg) (a : Reg) (b : Reg)
  /-- IMUL: Each active lane writes the low 32 bits of A times B (R125) -/
  | imul (m : Mods) (d : Reg) (a : Reg) (b : Reg)
  /-- IMAD: Each active lane writes A times B plus C, with C in E or D, optionally saturating (R125) -/
  | imad (m : Mods) (d : Reg) (a : Reg) (b : Reg)
  /-- AND: Bitwise AND of two 32-bit registers (R131) -/
  | andB32 (m : Mods) (d : Reg) (a : Reg) (b : Reg)
  /-- OR: Bitwise OR of two 32-bit registers (R131) -/
  | orB32 (m : Mods) (d : Reg) (a : Reg) (b : Reg)
  /-- XOR: Bitwise XOR of two 32-bit registers (R131) -/
  | xorB32 (m : Mods) (d : Reg) (a : Reg) (b : Reg)
  /-- SHL: Shift left by a register or literal count, zero when the count reaches 32 (R129) -/
  | shl (m : Mods) (d : Reg) (a : Reg) (b : Reg)
  /-- SHR: Logical shift right by a register or literal count (R129) -/
  | shr (m : Mods) (d : Reg) (a : Reg) (b : Reg)
  /-- SAR: Arithmetic shift right by a register or literal count (R129) -/
  | sar (m : Mods) (d : Reg) (a : Reg) (b : Reg)
  /-- LEA: Adds an extended, shifted 32-bit index to a 64-bit base pair (R137) -/
  | lea (m : Mods) (d : Reg) (a : Reg) (b : Reg)
  /-- SEL: Each active lane selects A or B by the predicate named in E (R136) -/
  | sel (m : Mods) (d : Reg) (a : Reg) (b : Reg)
  /-- BFX: Extracts a bit field under a control word, zero- or sign-filled (R134) -/
  | bfx (m : Mods) (d : Reg) (a : Reg) (b : Reg)
  /-- BFI: Inserts the low bits of A into C at the controlled position (R134) -/
  | bfi (m : Mods) (d : Reg) (a : Reg) (b : Reg)
  /-- PRMT: Builds each result byte from an eight-byte pool under per-byte controls (R135) -/
  | prmt (m : Mods) (d : Reg) (a : Reg) (b : Reg)
  /-- SHF: Takes a 32-bit window from the 64-bit ring of B above A (R130) -/
  | shf (m : Mods) (d : Reg) (a : Reg) (b : Reg)
  /-- LOP3: Applies a three-input truth table bitwise, with C and table in the required literal (R132) -/
  | lop3 (m : Mods) (d : Reg) (a : Reg) (b : Reg)
  /-- IADDI: Adds a signed 7-bit immediate to A (R123) -/
  | iaddi (m : Mods) (d : Reg) (a : Reg) (i : BitVec 7)
  /-- SHI: Shift or rotate of a 32-bit register by an immediate amount (R129) -/
  | shi (m : Mods) (o : ShOp) (n : BitVec 5) (d : Reg) (a : Reg)
  /-- MOVI: Writes a sign-extended 14-bit immediate (R136) -/
  | movi (m : Mods) (d : Reg) (i : BitVec 14)
  /-- MOVL: Writes a full 32-bit constant from a literal and imm14 (R136) -/
  | movl (m : Mods) (d : Reg) (i : BitVec 14)
  /-- MOVH: Writes imm14 shifted left by 18 (R136) -/
  | movh (m : Mods) (d : Reg) (i : BitVec 14)
  /-- MOV: Copies a register or pair (R133) -/
  | mov (m : Mods) (w : Bool) (d : Reg) (a : Reg)
  /-- POPC: Counts the one bits of a register or pair (R133) -/
  | popc (m : Mods) (w : Bool) (d : Reg) (a : Reg)
  /-- CLZ: Counts leading zeros (R133) -/
  | clz (m : Mods) (w : Bool) (d : Reg) (a : Reg)
  /-- CTZ: Counts trailing zeros (R133) -/
  | ctz (m : Mods) (w : Bool) (d : Reg) (a : Reg)
  /-- BREV: Reverses the bits of a register or pair (R133) -/
  | brev (m : Mods) (w : Bool) (d : Reg) (a : Reg)
  /-- IABS: Writes the absolute value of a signed operand (R127) -/
  | iabs (m : Mods) (w : Bool) (d : Reg) (a : Reg)
  /-- INEG: Writes the two's-complement negation (R127) -/
  | ineg (m : Mods) (w : Bool) (d : Reg) (a : Reg)
  /-- IADD_B64: Two-address 64-bit add of pairs (R123) -/
  | iaddB64 (m : Mods) (d : Reg) (a : Reg)
  /-- ISUB_B64: Two-address 64-bit subtract of pairs (R123) -/
  | isubB64 (m : Mods) (d : Reg) (a : Reg)
  /-- IMUL_B64: Two-address low 64 bits of a pair product (R125) -/
  | imulB64 (m : Mods) (d : Reg) (a : Reg)
  /-- IADDC_B32: 32-bit add with carry in and out through the carry word (R124) -/
  | iaddcB32 (m : Mods) (d : Reg) (a : Reg)
  /-- ISUBB_B32: 32-bit subtract with borrow through the carry word (R124) -/
  | isubbB32 (m : Mods) (d : Reg) (a : Reg)
  /-- IADDC_B64: 64-bit add with carry held in a quad (R124) -/
  | iaddcB64 (m : Mods) (d : Reg) (a : Reg)
  /-- ISUBB_B64: 64-bit subtract with borrow held in a quad (R124) -/
  | isubbB64 (m : Mods) (d : Reg) (a : Reg)
  /-- IMULH: High half of a signed or unsigned product (R125) -/
  | imulh (m : Mods) (t : IType) (d : Reg) (a : Reg)
  /-- IMADW: Widening multiply-add into a 64-bit pair, E required (R125) -/
  | imadw (m : Mods) (sg : Bool) (d : Reg) (a : Reg)
  /-- IDIV: Scoreboarded truncating division with fixed divide-by-zero and overflow results (R126) -/
  | idiv (m : Mods) (t : IType) (d : Reg) (a : Reg)
  /-- IREM: Scoreboarded remainder with the dividend's sign (R126) -/
  | irem (m : Mods) (t : IType) (d : Reg) (a : Reg)
  /-- IMIN: Two-address signed or unsigned minimum (R127) -/
  | imin (m : Mods) (t : IType) (d : Reg) (a : Reg)
  /-- IMAX: Two-address signed or unsigned maximum (R127) -/
  | imax (m : Mods) (t : IType) (d : Reg) (a : Reg)
  /-- ICLAMP: Clamps D between A and E (R127) -/
  | iclamp (m : Mods) (t : IType) (d : Reg) (a : Reg)
  /-- DP4: Adds the four-byte dot product of A and E to D, optionally saturating (R128) -/
  | dp4 (m : Mods) (t : DpType) (d : Reg) (a : Reg)
  /-- SHL_B64: 64-bit shift left of a pair by a register count (R129) -/
  | shlB64 (m : Mods) (d : Reg) (a : Reg)
  /-- SHR_B64: 64-bit logical shift right of a pair (R129) -/
  | shrB64 (m : Mods) (d : Reg) (a : Reg)
  /-- SAR_B64: 64-bit arithmetic shift right of a pair (R129) -/
  | sarB64 (m : Mods) (d : Reg) (a : Reg)
  /-- ROTL_B32: Rotate left of a 32-bit register by a register count (R129) -/
  | rotlB32 (m : Mods) (d : Reg) (a : Reg)
  /-- ROTL_B64: Rotate left of a pair by a register count (R129) -/
  | rotlB64 (m : Mods) (d : Reg) (a : Reg)
  /-- AND_B64: Two-address 64-bit AND (R131) -/
  | andB64 (m : Mods) (d : Reg) (a : Reg)
  /-- OR_B64: Two-address 64-bit OR (R131) -/
  | orB64 (m : Mods) (d : Reg) (a : Reg)
  /-- XOR_B64: Two-address 64-bit XOR (R131) -/
  | xorB64 (m : Mods) (d : Reg) (a : Reg)
  /-- PMOV: Copies one predicate to another (R139) -/
  | pmov (m : Mods) (d : Reg) (a : Reg)
  /-- PSET: Sets a predicate to an immediate 0 or 1 (R139) -/
  | pset (m : Mods) (d : Reg) (v : Bool)
  /-- P2G: Packs predicate group k into a register (R139) -/
  | p2g (m : Mods) (d : Reg) (k : BitVec 2)
  /-- G2P: Unpacks a register into predicate group k (R139) -/
  | g2p (m : Mods) (k : BitVec 2) (a : Reg)
  /-- PLOP3: Three-input truth table over predicates, literal required (R139) -/
  | plop3 (m : Mods) (d : Reg) (a : Reg)
  /-- ICMP_EQ: Writes a predicate from A equal to B, 32 or 64 bits (R138) -/
  | icmpEq (m : Mods) (w : Bool) (p : BitVec 6) (a : Reg) (b : Reg)
  /-- ICMP_NE: Writes a predicate from A not equal to B (R138) -/
  | icmpNe (m : Mods) (w : Bool) (p : BitVec 6) (a : Reg) (b : Reg)
  /-- ICMP_LT_S: Writes a predicate from signed A less than B (R138) -/
  | icmpLtS (m : Mods) (w : Bool) (p : BitVec 6) (a : Reg) (b : Reg)
  /-- ICMP_LT_Z: Writes a predicate from unsigned A less than B (R138) -/
  | icmpLtZ (m : Mods) (w : Bool) (p : BitVec 6) (a : Reg) (b : Reg)
  /-- FADD_F32: FP32 addition rounded under the mode, flags ORed into LFLAGS (R143) -/
  | faddF32 (m : Mods) (d : Reg) (a : Reg) (b : Reg)
  /-- FSUB_F32: FP32 subtraction (R143) -/
  | fsubF32 (m : Mods) (d : Reg) (a : Reg) (b : Reg)
  /-- FMUL_F32: FP32 multiplication (R143) -/
  | fmulF32 (m : Mods) (d : Reg) (a : Reg) (b : Reg)
  /-- FFMA_F32: FP32 fused multiply-add rounded once (R143) -/
  | ffmaF32 (m : Mods) (d : Reg) (a : Reg) (b : Reg)
  /-- FADD_F64: FP64 addition on pairs (R143) -/
  | faddF64 (m : Mods) (d : Reg) (a : Reg) (b : Reg)
  /-- FMUL_F64: FP64 multiplication on pairs (R143) -/
  | fmulF64 (m : Mods) (d : Reg) (a : Reg) (b : Reg)
  /-- FFMA_F64: FP64 fused multiply-add on pairs (R143) -/
  | ffmaF64 (m : Mods) (d : Reg) (a : Reg) (b : Reg)
  /-- FCMP_EQ: Writes a predicate from floating A equal to B (R147) -/
  | fcmpEq (m : Mods) (w : Bool) (p : BitVec 6) (a : Reg) (b : Reg)
  /-- FCMP_LT: Writes a predicate from A less than B, signalling on any NaN (R147) -/
  | fcmpLt (m : Mods) (w : Bool) (p : BitVec 6) (a : Reg) (b : Reg)
  /-- FCMP_LE: Writes a predicate from A less than or equal to B (R147) -/
  | fcmpLe (m : Mods) (w : Bool) (p : BitVec 6) (a : Reg) (b : Reg)
  /-- FCMP_UN: Writes a predicate true when either operand is a NaN (R147) -/
  | fcmpUn (m : Mods) (w : Bool) (p : BitVec 6) (a : Reg) (b : Reg)
  /-- FABS: Clears the sign bit as a bit operation (R145) -/
  | fabs (m : Mods) (f : FFmt) (d : Reg) (a : Reg)
  /-- FNEG: Inverts the sign bit as a bit operation (R145) -/
  | fneg (m : Mods) (f : FFmt) (d : Reg) (a : Reg)
  /-- FSQRT: Correctly rounded square root, scoreboarded (R149) -/
  | fsqrt (m : Mods) (f : FFmt) (d : Reg) (a : Reg)
  /-- FRCP: Correctly rounded reciprocal (R149) -/
  | frcp (m : Mods) (f : FFmt) (d : Reg) (a : Reg)
  /-- FRSQRT: Correctly rounded reciprocal square root (R149) -/
  | frsqrt (m : Mods) (f : FFmt) (d : Reg) (a : Reg)
  /-- FEXP2: Correctly rounded base-2 exponential (R149) -/
  | fexp2 (m : Mods) (f : FFmt) (d : Reg) (a : Reg)
  /-- FLOG2: Correctly rounded base-2 logarithm (R149) -/
  | flog2 (m : Mods) (f : FFmt) (d : Reg) (a : Reg)
  /-- FSINPI: Correctly rounded sin(pi x) (R149) -/
  | fsinpi (m : Mods) (f : FFmt) (d : Reg) (a : Reg)
  /-- FCOSPI: Correctly rounded cos(pi x) (R149) -/
  | fcospi (m : Mods) (f : FFmt) (d : Reg) (a : Reg)
  /-- FTANH: Correctly rounded hyperbolic tangent (R149) -/
  | ftanh (m : Mods) (f : FFmt) (d : Reg) (a : Reg)
  /-- FCLASS: Writes a one-hot class mask of the operand (R148) -/
  | fclass (m : Mods) (f : FFmt) (d : Reg) (a : Reg)
  /-- FGETEXP: Writes floor(log2|A|) exactly (R146) -/
  | fgetexp (m : Mods) (f : FFmt) (d : Reg) (a : Reg)
  /-- FGETMAN: Writes the significand scaled into [1,2) (R146) -/
  | fgetman (m : Mods) (f : FFmt) (d : Reg) (a : Reg)
  /-- FRINT: Rounds to an integral value under the mode (R146) -/
  | frint (m : Mods) (f : FFmt) (d : Reg) (a : Reg)
  /-- FADD: Two-address floating add in any format (R143) -/
  | fadd (m : Mods) (f : FFmt) (d : Reg) (a : Reg)
  /-- FSUB: Two-address floating subtract (R143) -/
  | fsub (m : Mods) (f : FFmt) (d : Reg) (a : Reg)
  /-- FMUL: Two-address floating multiply (R143) -/
  | fmul (m : Mods) (f : FFmt) (d : Reg) (a : Reg)
  /-- FFMA: Fused multiply-add into D with B in the required E (R143) -/
  | ffma (m : Mods) (f : FFmt) (d : Reg) (a : Reg)
  /-- FMIN: minimumNumber of D and A (R52) -/
  | fmin (m : Mods) (f : FFmt) (d : Reg) (a : Reg)
  /-- FMAX: maximumNumber of D and A (R52) -/
  | fmax (m : Mods) (f : FFmt) (d : Reg) (a : Reg)
  /-- FCOPYSIGN: Gives D the sign bit of A (R145) -/
  | fcopysign (m : Mods) (f : FFmt) (d : Reg) (a : Reg)
  /-- FDIV: Correctly rounded two-address division, scoreboarded (R143) -/
  | fdiv (m : Mods) (f : FFmt) (d : Reg) (a : Reg)
  /-- FSCALE: Multiplies D by 2^n rounded once (R146) -/
  | fscale (m : Mods) (f : FFmt) (d : Reg) (a : Reg)
  /-- FDOT2: Adds a packed two-element dot product to an FP32 accumulator, rounded once (R150) -/
  | fdot2 (m : Mods) (f : FFmt) (d : Reg) (a : Reg)
  /-- CVT: Converts a value between two numeric types under the mode, optionally saturating (R152) -/
  | cvt (m : Mods) (x : CvtType) (y : CvtType) (d : Reg) (a : Reg)
  /-- CVT_PACK: Packs or unpacks two FP32 values to or from a packed 16-bit pair (R151) -/
  | cvtPack (m : Mods) (k : PackKind) (d : Reg) (a : Reg)
  /-- LRED: Reduces over the wave in fixed tree order, every active lane receiving the result (R155) -/
  | lred (m : Mods) (o : RedOp) (t : RedType) (d : Reg) (a : Reg)
  /-- LSCAN: Inclusive or exclusive prefix fold in ascending lid (R156) -/
  | lscan (m : Mods) (e : Bool) (o : ScanOp) (t : RedType) (d : Reg) (a : Reg)
  /-- VOTE: Writes all, any or same of a predicate over the active lanes (R157) -/
  | vote (m : Mods) (v : VoteKind) (d : Reg) (a : Reg)
  /-- BALLOT: Writes the lane mask of a predicate (R157) -/
  | ballot (m : Mods) (d : Reg) (a : Reg)
  /-- MATCH: Writes each lane's leader lid and mask of lanes holding the same value (R157) -/
  | matchLanes (m : Mods) (w : Bool) (d : Reg) (a : Reg)
  /-- SHFL: Each active lane reads A of a source lane chosen by mode, or its fill (R154) -/
  | shfl (m : Mods) (k : ShflMode) (d : Reg) (a : Reg)
  /-- BRA: Each lane branches to a packet when its predicate condition holds (R158) -/
  | bra (m : Mods) (o : BitVec 13) (n : Bool) (p : Reg)
  /-- CALL: Conditional branch that writes the link to g0:1 in taking lanes (R158) -/
  | call (m : Mods) (o : BitVec 13) (n : Bool) (p : Reg)
  /-- JMP: Each active lane jumps to its register-pair target, TARGET on misalignment (R159) -/
  | jmp (m : Mods) (a : Reg)
  /-- CALLR: Register-target call writing the link to the D pair (R159) -/
  | callr (m : Mods) (d : Reg) (a : Reg)
  /-- RET: Register-target jump hinted as a return (R159) -/
  | ret (m : Mods) (a : Reg)
  /-- BRX: Jumps into the packet table after the brx by an index (R160) -/
  | brx (m : Mods) (a : Reg)
  /-- EXIT: Ends the active lanes, removing them from every rejoin set (R161) -/
  | exit (m : Mods)
  /-- TRAP: Raises TRAP with a code in the active lanes and stops the wave (R162) -/
  | trap (m : Mods) (n : Reg)
  /-- BRK: Raises BRK in the active lanes (R162) -/
  | brk (m : Mods)
  /-- NOP: Does nothing (R163) -/
  | nop (m : Mods)
  /-- YIELD: Holds the wave back from selection until others have been selected or time passes (R163) -/
  | yield (m : Mods)
  /-- PAUSE: Makes the path not ready for 64 core cycles (R163) -/
  | pause (m : Mods)
  /-- WSB: Holds the path until every owed result is written (R163) -/
  | wsb (m : Mods)
  /-- RJ_ENTER: Adds the active lanes to a rejoin set's mask (R164) -/
  | rjEnter (m : Mods) (n : BitVec 4)
  /-- RJ_QUIT: Removes the active lanes from a rejoin set, then checks release (R164) -/
  | rjQuit (m : Mods) (n : BitVec 4)
  /-- RJ_WAIT: Parks member lanes in JOIN(N) and checks release (R164) -/
  | rjWait (m : Mods) (n : BitVec 4)
  /-- RJ_GET: Writes a rejoin set's MASK to each active lane (R164) -/
  | rjGet (m : Mods) (d : Reg) (n : BitVec 4)
  /-- RJ_SET: Sets a rejoin set's MASK from the lowest lane, JBUSY if lanes are parked (R164) -/
  | rjSet (m : Mods) (d : Reg) (n : BitVec 4)
  /-- RJ_CLR: Clears a rejoin set's MASK, JBUSY if lanes are parked (R164) -/
  | rjClr (m : Mods) (n : BitVec 4)
  /-- LD_G_B32: Relaxed 32-bit global load with scaled offset (R178) -/
  | ldGB32 (m : Mods) (o : BitVec 7) (d : Reg) (a : Reg)
  /-- ST_G_B32: Relaxed 32-bit global store (R178) -/
  | stGB32 (m : Mods) (o : BitVec 7) (d : Reg) (a : Reg)
  /-- LD_G_B64: Relaxed 64-bit global load into a pair (R178) -/
  | ldGB64 (m : Mods) (o : BitVec 7) (d : Reg) (a : Reg)
  /-- ST_G_B64: Relaxed 64-bit global store from a pair (R178) -/
  | stGB64 (m : Mods) (o : BitVec 7) (d : Reg) (a : Reg)
  /-- LD_G_B128: Relaxed 128-bit global load into a quad (R178) -/
  | ldGB128 (m : Mods) (o : BitVec 7) (d : Reg) (a : Reg)
  /-- ST_G_B128: Relaxed 128-bit global store from a quad (R178) -/
  | stGB128 (m : Mods) (o : BitVec 7) (d : Reg) (a : Reg)
  /-- LD_S_B32: Relaxed 32-bit scratchpad load (R178) -/
  | ldSB32 (m : Mods) (o : BitVec 7) (d : Reg) (a : Reg)
  /-- ST_S_B32: Relaxed 32-bit scratchpad store (R178) -/
  | stSB32 (m : Mods) (o : BitVec 7) (d : Reg) (a : Reg)
  /-- LD: Load of any space, type and order, relaxed or acquire (R179) -/
  | ld (m : Mods) (u : Space) (t : MemType) (r : Bool) (d : Reg) (a : Reg)
  /-- ST: Store of any space, type and order, relaxed or release (R179) -/
  | st (m : Mods) (u : Space) (t : MemType) (r : Bool) (d : Reg) (a : Reg)
  /-- LDK_LOW: Reads constant word k0-k127 named by the A field (R185) -/
  | ldkLow (m : Mods) (d : Reg) (n : Reg)
  /-- LDK_HIGH: Reads constant word k128-k255 (R185) -/
  | ldkHigh (m : Mods) (d : Reg) (n : Reg)
  /-- LDK_REG: Reads the constant word indexed by a register (R185) -/
  | ldkReg (m : Mods) (d : Reg) (a : Reg)
  /-- PREF_G: Asks for each lane's line in the line cache and memory-side cache, never faulting (R186) -/
  | prefG (m : Mods) (a : Reg)
  /-- ATOM: Atomic read-modify-write returning the prior value per lane (R188) -/
  | atom (m : Mods) (o : AtomOp) (w : Bool) (d : Reg) (a : Reg)
  /-- CAS: Compare-and-swap with the new value in the required E (R188) -/
  | cas (m : Mods) (w : Bool) (d : Reg) (a : Reg)
  /-- RED: Atomic reduction with no result, buffered in deterministic launches (R188) -/
  | redOp (m : Mods) (o : AtomOp) (w : Bool) (d : Reg) (a : Reg)
  /-- FNC_ISS: Issues a split-phase fence as a release and returns its token (R194) -/
  | fncIss (m : Mods) (d : Reg) (n : Scope)
  /-- FNC_WT: Waits until a fence's covered accesses have performed, then acquires (R194) -/
  | fncWt (m : Mods) (a : Reg)
  /-- OWN_GIVE: Flips named tiles to engine-owned as a core-scope release (R195) -/
  | ownGive (m : Mods) (a : Reg)
  /-- OWN_TAKE: Waits for engine commands on the tile to finish, then flips it to thread-owned (R195) -/
  | ownTake (m : Mods) (a : Reg)
  /-- OWN_TEST: Reports a tile's owner bit and whether a command names it (R195) -/
  | ownTest (m : Mods) (d : Reg) (a : Reg)
  /-- RNG_WAIT: Waits for a filled ring slot, claims it and returns its address (R198) -/
  | rngWait (m : Mods) (d : Reg) (a : Reg)
  /-- RNG_REL: Releases the oldest claimed slot of a plain ring to the engines (R198) -/
  | rngRel (m : Mods) (a : Reg)
  /-- MRG_FREE: Frees a consumer's oldest slot of a multicast ring and updates PEND at home (R198) -/
  | mrgFree (m : Mods) (a : Reg)
  /-- BB_INIT: Initialises a byte barrier and its overrun trap enable (R200) -/
  | bbInit (m : Mods) (d : Reg) (a : Reg)
  /-- BB_EXP: Posts the expected byte count and runs the completion check (R200) -/
  | bbExp (m : Mods) (d : Reg) (a : Reg)
  /-- BB_ARV: Adds bytes to ARR as a release and runs the completion check (R200) -/
  | bbArv (m : Mods) (d : Reg) (a : Reg)
  /-- BB_WT: Waits while a byte barrier is posted (R200) -/
  | bbWt (m : Mods) (a : Reg)
  /-- BOP: Starts a fill, scale, axpy or vadd range operation on the bank ALUs (R191) -/
  | bop (m : Mods) (d : Reg) (a : Reg)
  /-- HALLOC: Allocates a heap block per active lane, or zero (R202) -/
  | halloc (m : Mods) (d : Reg) (a : Reg)
  /-- HFREE: Returns a block to the head of its class list as a package-scope release (R202) -/
  | hfree (m : Mods) (a : Reg)
  /-- OB_RSV: Reserves an operand-buffer window from a reservation record (R208) -/
  | obRsv (m : Mods) (a : Reg)
  /-- OB_REL: Releases a window after its fills and readers finish (R209) -/
  | obRel (m : Mods) (a : Reg)
  /-- TC_COPY: Queues a tile copy on a copy engine (R210) -/
  | tcCopy (m : Mods) (a : Reg)
  /-- TC_OB: Queues a fill of a window, converted or raw (R211) -/
  | tcOb (m : Mods) (a : Reg)
  /-- TC_MCAST: Queues a fill of one multicast ring slot into consumer cores (R213) -/
  | tcMcast (m : Mods) (a : Reg)
  /-- PERM_LOAD: Loads and validates a permutation table slot (R214) -/
  | permLoad (m : Mods) (d : Reg) (a : Reg)
  /-- MX_CFG: Sets the array's fusion shape and format and invalidates both planes (R216) -/
  | mxCfg (m : Mods) (a : Reg)
  /-- MX_STAT: Loads the shadow plane from a weight window (R219) -/
  | mxStat (m : Mods) (a : Reg)
  /-- MX_SWAP: Makes valid shadow planes active (R220) -/
  | mxSwap (m : Mods)
  /-- MX_STRM: Streams activation rows past the active plane into accumulator tiles (R221) -/
  | mxStrm (m : Mods) (a : Reg)
  /-- MX_DRAIN: Closes open triples and copies scaled accumulator values to registers or scratchpad (R222) -/
  | mxDrain (m : Mods) (d : Reg) (a : Reg)
  /-- MX_ZERO: Zeroes accumulator tiles, their triples and flags (R223) -/
  | mxZero (m : Mods) (a : Reg)
  /-- MX_WAIT: Holds the path until earlier array and fill commands finish (R223) -/
  | mxWait (m : Mods)
  /-- MX_SAVE: Saves tiles and optionally array state to an image (R224) -/
  | mxSave (m : Mods) (a : Reg)
  /-- MX_REST: Restores tiles and optionally array state from an image (R224) -/
  | mxRest (m : Mods) (a : Reg)
  /-- RST: Remote 4-byte store returning its token (R226) -/
  | rst (m : Mods) (dep : Bool) (spr : Bool) (d : Reg) (a : Reg)
  /-- RLD: Remote load of 4 or 8 bytes with a scoreboarded reply (R227) -/
  | rld (m : Mods) (dep : Bool) (spr : Bool) (d : Reg) (a : Reg)
  /-- RATOM: Runs an atomic handler at the destination's memory controller (R228) -/
  | ratom (m : Mods) (tok : Bool) (dep : Bool) (spr : Bool) (d : Reg) (a : Reg)
  /-- RCOPY: Copies a range to another package (R229) -/
  | rcopy (m : Mods) (tok : Bool) (dep : Bool) (spr : Bool) (d : Reg) (a : Reg)
  /-- TOK_JOIN: Forms a token that lands when both inputs have landed (R231) -/
  | tokJoin (m : Mods) (d : Reg) (a : Reg)
  /-- TOK_TEST: Reports whether a token has landed (R231) -/
  | tokTest (m : Mods) (d : Reg) (a : Reg)
  /-- TOK_WAIT: Waits until a token has landed, then acquires at pod scope (R231) -/
  | tokWait (m : Mods) (a : Reg)
  /-- COLL_RUN: Starts one run of a loaded collective plan and returns a handle (R232) -/
  | collRun (m : Mods) (d : Reg) (a : Reg)
  /-- COLL_WT: Waits for a collective run and returns its status (R232) -/
  | collWt (m : Mods) (d : Reg) (a : Reg)
  /-- REEL_GO: Starts the reel sequencer on a range of entries if idle (R233) -/
  | reelGo (m : Mods) (d : Reg) (a : Reg)
  /-- REEL_STAT: Returns the state and cause of a reel entry (R233) -/
  | reelStat (m : Mods) (d : Reg) (a : Reg)
  /-- EVT_SIG: Adds to a 64-bit event word as a package-scope release (R234) -/
  | evtSig (m : Mods) (a : Reg)
  /-- EVT_WT: Waits until an event word reaches a threshold, then acquires (R234) -/
  | evtWt (m : Mods) (a : Reg)
  /-- REG_GROW: Requests a larger register allotment through the grant queue (R31) -/
  | regGrow (m : Mods) (n : Reg)
  /-- REG_SHRINK: Releases register granules above the target at once (R31) -/
  | regShrink (m : Mods) (n : Reg)
  /-- QPUSH: Partner lanes push values into their compute lanes' queues (R170) -/
  | qpush (m : Mods) (d : Reg)
  /-- QPOP: Compute lanes pop their queue's oldest entries (R170) -/
  | qpop (m : Mods) (d : Reg)
  /-- SPAWN: Enqueues a child launch record from device code and returns a status (R171) -/
  | spawn (m : Mods) (d : Reg) (a : Reg)
  /-- TRET: Ends trap handling, returning held-aside lanes to their prior states (R172) -/
  | tret (m : Mods)
  /-- CTX_PARK: Ends a save routine and parks the wave during eviction (R173) -/
  | ctxPark (m : Mods)
  /-- SYSC: Raises TRAP 0x100+n for the system handler (R240) -/
  | sysc (m : Mods) (n : Reg)
  /-- VM_COMMIT: Commits a sparse page from the pool against the quota (R237) -/
  | vmCommit (m : Mods) (d : Reg) (a : Reg)
  /-- VM_FREE: Frees a committed or read-duplicated page after drain and invalidation (R237) -/
  | vmFree (m : Mods) (d : Reg) (a : Reg)
  /-- VM_PROT: Sets permissions of whole pages in system mode (R238) -/
  | vmProt (m : Mods) (d : Reg) (a : Reg)
  /-- VM_DUP: Read-duplicates, reshapes, collapses or moves a page by package mask (R238) -/
  | vmDup (m : Mods) (d : Reg) (a : Reg)
  /-- VM_SPLIT: Splits a 2 MiB page into 32 pages of 64 KiB (R238) -/
  | vmSplit (m : Mods) (d : Reg) (a : Reg)
  /-- TLB_INV: Removes cached translations of a range within a scope (R238) -/
  | tlbInv (m : Mods) (a : Reg)
  /-- DET_RNG: Declares a write range slot for the troupe before its first write (R239) -/
  | detRng (m : Mods) (a : Reg)
  /-- DET_FLUSH: Applies or defers the troupe's buffered red entries in key order (R239) -/
  | detFlush (m : Mods)
  /-- REC_MARK: Appends or checks a marker in the record log (R239) -/
  | recMark (m : Mods) (a : Reg)
  /-- TBAR: Arrives at the troupe barrier and parks until the phase completes (R167) -/
  | tbar (m : Mods)
  /-- TBAR_ARV: Arrives at the troupe barrier and returns the phase (R167) -/
  | tbarArv (m : Mods) (d : Reg)
  /-- TBAR_WT: Waits for the troupe-barrier phase named by a register (R167) -/
  | tbarWt (m : Mods) (a : Reg)
  /-- CBAR: Arrives at the corps barrier and parks (R168) -/
  | cbar (m : Mods)
  /-- CBAR_ARV: Arrives at the corps barrier and returns the phase (R168) -/
  | cbarArv (m : Mods) (d : Reg)
  /-- CBAR_WT: Waits for a corps-barrier phase (R168) -/
  | cbarWt (m : Mods) (a : Reg)
  /-- CSRR: Reads a control register into each active lane (R235) -/
  | csrr (m : Mods) (r : BitVec 12) (d : Reg)
  /-- CSRW: Writes a control register, with WCTL and flag ordering behaviour (R235) -/
  | csrw (m : Mods) (r : BitVec 12) (d : Reg)
  /-- CSRX: Exchanges a register with a control register in one step (R235) -/
  | csrx (m : Mods) (r : BitVec 12) (d : Reg)
  /-- HANDLER_ENTRY: Once owed local results are written, the stopped wave enters its handler in system mode (R312) -/
  | handlerEntry (w : Nat)
  /-- REG_GRANT: Freed granules are granted to the head of the core's grant queue (R32) -/
  | regGrant (n : Nat)
  /-- YIELD_RELEASE: A yielding wave becomes selectable again after other selections or 64 cycles (R163) -/
  | yieldRelease (w : Nat)
  /-- PAUSE_EXPIRY: A paused path becomes ready after 64 core cycles (R163) -/
  | pauseExpiry (w : Nat)
  /-- SCOREBOARD_WRITE: A scoreboarded result arrives and clears the lane's pending register (R88) -/
  | scoreboardWrite (w : Nat) (l : Nat) (g : Nat)
  /-- QUEUE_PUSH_DONE: A waiting qpush finds room in every lane and pushes (R170) -/
  | queuePushDone (w : Nat)
  /-- QUEUE_POP_DONE: A waiting qpop finds an entry in every lane and pops (R170) -/
  | queuePopDone (w : Nat)
  /-- OWN_TAKE_DONE: A waiting own.take completes once no command accesses the tile (R195) -/
  | ownTakeDone (w : Nat)
  /-- RING_WAIT_DONE: A waiting rng.wait claims a slot that has been filled (R198) -/
  | ringWaitDone (w : Nat)
  /-- FENCE_PERFORMED: A fence's covered accesses have performed, releasing its waiters (R194) -/
  | fencePerformed (w : Nat) (q : BitVec 24)
  /-- ACCESS_PERFORM: A write performs at a scope and becomes visible to its agents (R248) -/
  | accessPerform (n : Nat)
  /-- PAGE_WALK_COMPLETE: A walk finishes and answers every miss that joined it (R275) -/
  | pageWalkComplete (k : Nat) (e : Nat) (x : W32) (v : W64)
  /-- BANK_ALU_APPLY: A bank ALU applies one atomic, red or bop step in arrival order (R345) -/
  | bankAluApply (k : Nat) (n : Nat)
  /-- BOP_COMPLETE: The last bank finishes a bop and the status is written (R192) -/
  | bopComplete (k : Nat) (n : Nat)
  /-- VM_CHANGE_COMPLETE: A page change completes after pod-wide invalidation and drain, writing its status (R238) -/
  | vmChangeComplete (k : Nat) (n : Nat)
  /-- EVT_WAIT_RECHECK: A waiting evt.wt is re-checked at least every 1 us (R234) -/
  | evtWaitRecheck (w : Nat)
  /-- COMMAND_ACCEPT: An engine or remote command is accepted after room, translation and owner checks (R206) -/
  | commandAccept (w : Nat)
  /-- ENGINE_UNIT_READ: An engine reads a 256-byte unit and checks its CRC, rereading or abandoning on mismatch (R343) -/
  | engineUnitRead (k : Nat) (n : Nat) (bad : Nat)
  /-- ENGINE_UNIT_WRITE: A unit of at most 1,024 bytes performs at its destination and is counted to the byte barrier (R342) -/
  | engineUnitWrite (k : Nat) (n : Nat)
  /-- RING_SLOT_FILL: An engine fills a ring slot and updates the header counters (R344) -/
  | ringSlotFill (k : Nat) (n : Nat)
  /-- PLANE_FILL_DONE: The shadow plane finishes loading (R332) -/
  | planeFillDone (t : Nat)
  /-- STREAM_RESULTS: A stream's last row results reach the accumulator tiles (R333) -/
  | streamResults (t : Nat)
  /-- DRAIN_WRITE: A drain writes its values to registers or scratchpad (R337) -/
  | drainWrite (t : Nat)
  /-- MX_WAIT_DONE: A waiting mx.wait completes when earlier array work finishes (R223) -/
  | mxWaitDone (w : Nat)
  /-- OB_REL_DONE: A waiting ob.rel releases its window when its users finish (R209) -/
  | obRelDone (w : Nat)
  /-- BUDGET_PERIOD_START: Every 10 us each activity class's credit is reset to its budget less overdraft (R348) -/
  | budgetPeriodStart (k : Nat)
  /-- LAUNCH_DOORBELL: A host write of a launch queue's TAIL is taken or refused (R288) -/
  | launchDoorbell (k : Nat) (q : Nat) (v : W32)
  /-- FRONT_END_TAKE: The front end copies a record into its launch table and advances HEAD (R289) -/
  | frontEndTake (k : Nat) (q : Nat)
  /-- LAUNCH_READY: A waiting launch's WEVT word reaches WVAL, or carries bit 63 and is refused (R293) -/
  | launchReady (k : Nat) (n : Nat)
  /-- LAUNCH_RECHECK_TIMER: A waiting launch is re-checked at least every 1 us (R293) -/
  | launchRecheckTimer (k : Nat) (n : Nat)
  /-- LAUNCH_AGING: Each full 1 ms of waiting lowers a launch's effective level (R297) -/
  | launchAging (k : Nat) (n : Nat)
  /-- CALLER_HANDOVER: A ready launch is handed to a free caller in level order (R297) -/
  | callerHandover (k : Nat)
  /-- CORPS_PLACEMENT: A caller places a corps whose gates are open on fitting cores, or makes it wait (R299) -/
  | corpsPlacement (k : Nat) (n : Nat)
  /-- TROUPE_PUBLISH: A finished troupe sets its DONEMAP bit and adds 1 to EVT as a release (R295) -/
  | troupePublish (t : Nat)
  /-- GRAPH_NODE_START: A caller starts a graph node whose count has reached zero (R298) -/
  | graphNodeStart (k : Nat) (n : Nat) (i : Nat)
  /-- GRAPH_NODE_DONE: A node finishes, lowering successor counts and choosing branches of conditional and while nodes (R298) -/
  | graphNodeDone (k : Nat) (n : Nat) (i : Nat)
  /-- DEFERRED_APPLY: After every troupe has ended, deferred inc and fadd entries are applied in key order (R404) -/
  | deferredApply (k : Nat) (n : Nat)
  /-- DRAIN_DEADLINE: The drain deadline expires and every resident troupe of the context takes PREEMPT (R315) -/
  | drainDeadline (k : Nat) (x : W32)
  /-- EVICTION_DEADLINE: The eviction deadline expires and the context stops by forced reset (R315) -/
  | evictionDeadline (k : Nat) (x : W32)
  /-- PREEMPT_SAVE_IMAGE: The device writes save images and enters SAVEH once local results are written (R322) -/
  | preemptSaveImage (t : Nat)
  /-- TROUPE_LEAVES_CORE: All waves parked and engine commands complete, the troupe leaves its core (R173) -/
  | troupeLeavesCore (t : Nat)
  /-- RESTORE_PLACEMENT: A saved troupe is rebuilt on a core and enters RESTH (R323) -/
  | restorePlacement (k : Nat) (n : Nat)
  /-- STEER_REPLY: A remote load reply for an evicted lane lands in its steer slot (R321) -/
  | steerReply (k : Nat)
  /-- ECCU: An uncorrectable core error stops every resident troupe without a handler (R324) -/
  | eccu (k : Nat) (n : Nat) (u : Byte)
  /-- SLOT_START: At each slot's data window each port engine fills its frame for the facing peer (R360) -/
  | slotStart (k : Nat)
  /-- FRAME_RECEIVE: A frame is checked, acks processed and the calendar time disciplined (R362) -/
  | frameReceive (k : Nat) (n : Nat) (bad : Nat)
  /-- MASTER_LOSS: Four rounds without the master's frames move the package to the next listed master (R355) -/
  | masterLoss (k : Nat)
  /-- FREE_RUN_EXPIRY: Sixteen rounds of free running enter CALSYNC (R355) -/
  | freeRunExpiry (k : Nat)
  /-- LANE_FAILURE: A lane losing lock or with two bad codewords is declared failed and the width changes (R351) -/
  | laneFailure (k : Nat) (n : Nat) (l : Nat)
  /-- LANE_REJOIN: A lane locked and clean for 64 slots rejoins its port (R351) -/
  | laneRejoin (k : Nat) (n : Nat) (l : Nat)
  /-- STORE_PACKET: A store packet is applied at its home, or discarded on a fault (R366) -/
  | storePacket (k : Nat)
  /-- LOAD_PACKET: A load packet reads at its home and returns a reply or fault reply (R366) -/
  | loadPacket (k : Nat)
  /-- REPLY_PACKET: A reply writes its tagged registers or steer slot (R367) -/
  | replyPacket (k : Nat)
  /-- FAULT_REPLY_PACKET: A fault reply stops the issuing lane's wave with SUB REMOTE (R366) -/
  | faultReplyPacket (k : Nat)
  /-- ATOMIC_PACKET: An atomic packet runs its handler at the micro-engine (R369) -/
  | atomicPacket (k : Nat)
  /-- COPY_SEGMENT_PACKET: A copy segment or collective chunk is applied in order at the destination (R368) -/
  | copySegmentPacket (k : Nat)
  /-- VECTOR_STORE_PART: Each lane entry of a vector store part is applied in ascending lid (R365) -/
  | vectorStorePart (k : Nat)
  /-- VECTOR_LOAD_PART: Each lane entry of a vector load part is read and replied (R365) -/
  | vectorLoadPart (k : Nat)
  /-- VECTOR_ATOMIC_PART: Each lane entry of a vector atomic part is applied by its handler (R365) -/
  | vectorAtomicPart (k : Nat)
  /-- LANDED_NOTICE: A landed notice lands the source's token entry (R372) -/
  | landedNotice (k : Nat)
  /-- RELEASE_NOTICE: A release notice frees held packets or records a MEMO entry (R373) -/
  | releaseNotice (k : Nat)
  /-- APPLIED_COUNT_NOTICE: An applied count returns direct credit and advances pod-release waits (R364) -/
  | appliedCountNotice (k : Nat)
  /-- FORWARDED_COUNT_NOTICE: A forwarded count returns relay credit (R364) -/
  | forwardedCountNotice (k : Nat)
  /-- RELAYED_APPLIED_COUNT_NOTICE: A relayed applied count records relayed operations landed via an intermediate (R364) -/
  | relayedAppliedCountNotice (k : Nat)
  /-- HOLD_FREE_NOTICE: A hold free notice restores hold credit (R364) -/
  | holdFreeNotice (k : Nat)
  /-- EXPIRY_NOTICE: An expiry notice stops the issuing context with TOKEXPIRE (R375) -/
  | expiryNotice (k : Nat)
  /-- INVALIDATE_NOTICE: An invalidate notice removes translations of a page on the receiver (R277) -/
  | invalidateNotice (k : Nat)
  /-- HOLD_EXPIRY: A held entry four rounds old is discarded and an expiry notice sent (R375) -/
  | holdExpiry (k : Nat) (n : Nat)
  /-- COLL_ENTRY_START: A plan entry starts when its counter and chunk are ready (R381) -/
  | collEntryStart (k : Nat) (n : Nat) (i : Nat)
  /-- COLL_ENTRY_COMPLETE: A plan entry completes and signals its counters (R381) -/
  | collEntryComplete (k : Nat) (n : Nat) (i : Nat)
  /-- REDUCER_FOLD: A base-die reducer folds a segment into its destination row (R386) -/
  | reducerFold (k : Nat) (n : Nat)
  /-- REEL_WAIT: The sequencer's input, room and stash checks pass for an entry (R391) -/
  | reelWait (k : Nat)
  /-- REEL_GATHER: The sequencer reserves slots, writes arguments and awaits the gather run (R391) -/
  | reelGather (k : Nat)
  /-- REEL_RUN: The sequencer submits the entry's launch and waits for completion (R391) -/
  | reelRun (k : Nat)
  /-- REEL_HANDOFF: After remote writes land the sequencer notifies neighbours and advances (R391) -/
  | reelHandoff (k : Nat)
  /-- BOOT: Reset runs the boot ROM, verifying firmware or entering recovery (R419) -/
  | bootRom (k : Nat) (im : BootImage)
  /-- RECOVERY_IMAGE: The mailbox accepts a new firmware image for verification in recovery (R419) -/
  | recoveryImage (k : Nat) (im : BootImage)
  /-- MR_EXTEND: The host extends a measurement register through the mailbox (R420) -/
  | mrExtend (k : Nat) (n : Nat) (v : BitVec 256)
  /-- ATTESTATION_REQUEST: The security engine answers a nonce with a signed report (R421) -/
  | attestationRequest (k : Nat) (v : BitVec 256) (u : Byte)
  /-- FEATURE_GO: Writing GO checks and fixes the accepted features, or sets REJ (R418) -/
  | featureGo (k : Nat)
  /-- APERTURE_READ: A host read through BAR2 is translated and performed at package scope (R416) -/
  | apertureRead (k : Nat) (v : W64) (r : HostRead)
  /-- APERTURE_WRITE: A host write through BAR2 is translated, CRC-checked and performed (R416) -/
  | apertureWrite (k : Nat) (v : W64) (bs : List Byte) (bad : Nat)
  /-- APERTURE_CONTROL_WRITE: A write of APCTX or APVA retargets later aperture accesses (R416) -/
  | apertureControlWrite (k : Nat) (r : Nat) (v : W64)
  /-- CORRECTED_ERROR: A corrected error is reported and its unit tested (R424) -/
  | correctedError (k : Nat) (u : ErrStore) (n : Nat) (v : W64)
  /-- UNCORRECTABLE_ERROR: An uncorrectable memory error poisons its unit or stops affected contexts (R424) -/
  | uncorrectableError (k : Nat) (u : Byte) (n : Nat) (v : W64)
  /-- SELF_TEST_END: A unit's self-test ends, marking the error transient or retiring the unit (R426) -/
  | selfTestEnd (k : Nat) (u : TestRow) (n : Nat) (ok : Bool)
  /-- BUDGET_WRITE: A budget register write takes effect from the next period (R427) -/
  | budgetWrite (k : Nat) (r : Nat) (v : W32)
  /-- PCAP_WRITE: A power cap write adjusts clock control (R428) -/
  | pcapWrite (k : Nat) (v : W32)
  /-- PSTATE_WRITE: A run, idle or standby request changes power state when allowed (R428) -/
  | pstateWrite (k : Nat) (v : W32)
  /-- TEMPERATURE_EVENT: Junction temperature throttles the clock, or above 115 C powers down (R428) -/
  | temperatureEvent (k : Nat) (n : Nat)
  /-- HOST_COMMAND_DOORBELL: A TAIL write to the host command queue is taken or refused (R429) -/
  | hostCommandDoorbell (k : Nat) (v : W32)
  /-- CTXNEW: Creates a context on this package (R431) -/
  | ctxnew (k : Nat) (h : HArgs)
  /-- CTXENTRY: Sets the context's SYSH, SAVEH and RESTH (R431) -/
  | ctxentry (k : Nat) (h : HArgs)
  /-- CTXSTOP: Stops the context on this package (R431) -/
  | ctxstop (k : Nat) (h : HArgs)
  /-- CTXFREE: Removes a stopped context (R431) -/
  | ctxfree (k : Nat) (h : HArgs)
  /-- CTXEVT: Sets or removes the context's event area (R431) -/
  | ctxevt (k : Nat) (h : HArgs)
  /-- PREEMPT: Begins pre-emption of a context on a set of clusters (R315) -/
  | preempt (k : Nat) (h : HArgs)
  /-- PREEND: Ends a pre-emption request on clusters (R315) -/
  | preend (k : Nat) (h : HArgs)
  /-- RESUME: Resumes a wave suspended after its brk group (R431) -/
  | resume (k : Nat) (h : HArgs)
  /-- PLANLOAD: Loads a collective plan slot, waiting for outstanding runs (R379) -/
  | planload (k : Nat) (h : HArgs)
  /-- REELLOAD: Writes the reel memory and names its owning context (R389) -/
  | reelload (k : Nat) (h : HArgs)
  /-- HNDLOAD: Loads a micro-engine handler image into a slot (R370) -/
  | hndload (k : Nat) (h : HArgs)
  /-- FCTLSET: Writes FCTL for operations queued afterwards (R357) -/
  | fctlset (k : Nat) (h : HArgs)
  /-- MASTERS: Sets the timing master list (R355) -/
  | masters (k : Nat) (h : HArgs)
  /-- VMDUP: Performs vm.dup for the context from the host (R238) -/
  | vmdup (k : Nat) (h : HArgs)
  /-- VMSPLIT: Performs vm.split from the host (R238) -/
  | vmsplit (k : Nat) (h : HArgs)
  /-- VMPROT: Performs vm.prot from the host (R238) -/
  | vmprot (k : Nat) (h : HArgs)
  /-- TLBINV: Performs tlb.inv from the host (R277) -/
  | tlbinv (k : Nat) (h : HArgs)
  /-- REGISTER_WRITE: A write to a control-window register with no behaviour of its own stores the value (R415) -/
  | registerWrite (k : Nat) (r : Nat) (n : Nat) (v : W64)
  /-- FIXED_LATENCY_RESULT: A fixed-latency result is written to its register L cycles after its producer issued, after which reads see it (R89) -/
  | fixedLatencyResult (w : Nat)
  /-- STALL_WAIT_EXPIRY: A path's 1 + S stall cycles pass in core-clock cycles and its lanes may issue again (R86) -/
  | stallWaitExpiry (w : Nat)
  /-- POWER_CAP_REACHED: Measured power reaches PCAP, clock control lowers FCLK in 25 MHz steps and management event 0x4B is recorded (R428) -/
  | powerCapReached (k : Nat)
  deriving DecidableEq, Repr

end Sys2Proof
end

