-- ==== Sys2Proof/WellFormed.lean ====
section
/-! DEFINITION. Which option and literal fields each instruction accepts (R75, R76), and the check that an
instruction is one of the architecture: every test here has an ill-formed term in Tests/Slice0.lean that it refuses. -/

namespace Sys2Proof

/-- Whether a row takes a fourth operand E (R75). -/
inductive EUse | none | optional | required
  deriving DecidableEq, Repr

/-- How a row reads a literal payload (R76). -/
inductive LitUse
  | none
  | b (field : Reg) | f32 (field : Reg) | f64 (field : Reg)
  | lea | lop3 | plop3 | movl
  | fm (off7 : BitVec 7)
  | mem (ordered : Bool)
  | sync (red : Bool)
  deriving DecidableEq, Repr

/-- What an instruction accepts of the fields of R73. -/
structure Acc where
  guard : Bool
  z : Bool
  rnd : Bool
  sat : Bool
  e : EUse
  lit : LitUse
  deriving DecidableEq, Repr

def accNone : Acc := ⟨false, false, false, false, .none, .none⟩
def accG : Acc := ⟨true, false, false, false, .none, .none⟩
def accZ : Acc := ⟨true, true, false, false, .none, .none⟩
def Acc.withSat (a : Acc) : Acc := { a with sat := true }
def Acc.withRnd (a : Acc) : Acc := { a with rnd := true }
def Acc.withE (a : Acc) (e : EUse) : Acc := { a with e := e }
def Acc.withLit (a : Acc) (l : LitUse) : Acc := { a with lit := l }

/-- The fields that each word row accepts (R75, R76, R141, R142, R159, R204); an event accepts none. -/
def Instr.acc : Instr → Acc
  | .iadd _ _ _ b => accZ.withSat.withLit (.b b)
  | .isub _ _ _ b => accZ.withSat.withLit (.b b)
  | .imul _ _ _ b => accZ.withLit (.b b)
  | .imad _ _ _ b => accZ.withSat.withE .optional |>.withLit (.b b)
  | .andB32 _ _ _ b => accZ.withLit (.b b)
  | .orB32 _ _ _ b => accZ.withLit (.b b)
  | .xorB32 _ _ _ b => accZ.withLit (.b b)
  | .shl _ _ _ b => accZ.withLit (.b b)
  | .shr _ _ _ b => accZ.withLit (.b b)
  | .sar _ _ _ b => accZ.withLit (.b b)
  | .lea _ _ _ _ => accZ.withLit .lea
  | .sel _ _ _ b => accZ.withE .required |>.withLit (.b b)
  | .bfx _ _ _ b => accZ.withLit (.b b)
  | .bfi _ _ _ b => accZ.withE .optional |>.withLit (.b b)
  | .prmt _ _ _ b => accZ.withE .optional |>.withLit (.b b)
  | .shf _ _ _ b => accZ.withE .optional |>.withLit (.b b)
  | .lop3 _ _ _ _ => accZ.withLit .lop3
  | .iaddi _ _ _ _ => accZ.withSat
  | .shi _ _ _ _ _ => accZ
  | .movi _ _ _ => accZ
  | .movl _ _ _ => accZ.withLit .movl
  | .movh _ _ _ => accZ
  | .mov _ _ _ _ => accZ
  | .popc _ _ _ _ => accZ
  | .clz _ _ _ _ => accZ
  | .ctz _ _ _ _ => accZ
  | .brev _ _ _ _ => accZ
  | .iabs _ _ _ _ => accZ
  | .ineg _ _ _ _ => accZ
  | .iaddB64 _ _ _ => accZ
  | .isubB64 _ _ _ => accZ
  | .imulB64 _ _ _ => accZ
  | .iaddcB32 _ _ _ => accZ
  | .isubbB32 _ _ _ => accZ
  | .iaddcB64 _ _ _ => accZ
  | .isubbB64 _ _ _ => accZ
  | .imulh _ _ _ _ => accZ
  | .imadw _ _ _ _ => accZ.withE .required
  | .idiv _ _ _ _ => accZ
  | .irem _ _ _ _ => accZ
  | .imin _ _ _ _ => accZ
  | .imax _ _ _ _ => accZ
  | .iclamp _ _ _ _ => accZ.withE .required
  | .dp4 _ _ _ _ => accZ.withSat.withE .required
  | .shlB64 _ _ _ => accZ
  | .shrB64 _ _ _ => accZ
  | .sarB64 _ _ _ => accZ
  | .rotlB32 _ _ _ => accZ
  | .rotlB64 _ _ _ => accZ
  | .andB64 _ _ _ => accZ
  | .orB64 _ _ _ => accZ
  | .xorB64 _ _ _ => accZ
  | .pmov _ _ _ => accZ
  | .pset _ _ _ => accZ
  | .p2g _ _ _ => accZ
  | .g2p _ _ _ => accZ
  | .plop3 _ _ _ => accZ.withLit .plop3
  | .icmpEq _ _ _ _ b => accZ.withLit (.b b)
  | .icmpNe _ _ _ _ b => accZ.withLit (.b b)
  | .icmpLtS _ _ _ _ b => accZ.withLit (.b b)
  | .icmpLtZ _ _ _ _ b => accZ.withLit (.b b)
  | .faddF32 _ _ _ b => accZ.withRnd.withLit (.f32 b)
  | .fsubF32 _ _ _ b => accZ.withRnd.withLit (.f32 b)
  | .fmulF32 _ _ _ b => accZ.withRnd.withLit (.f32 b)
  | .ffmaF32 _ _ _ b => accZ.withRnd.withE .optional |>.withLit (.f32 b)
  | .faddF64 _ _ _ b => accZ.withRnd.withLit (.f64 b)
  | .fmulF64 _ _ _ b => accZ.withRnd.withLit (.f64 b)
  | .ffmaF64 _ _ _ b => accZ.withRnd.withE .optional |>.withLit (.f64 b)
  | .fcmpEq _ w _ _ b => accZ.withLit (if w then .f64 b else .f32 b)
  | .fcmpLt _ w _ _ b => accZ.withLit (if w then .f64 b else .f32 b)
  | .fcmpLe _ w _ _ b => accZ.withLit (if w then .f64 b else .f32 b)
  | .fcmpUn _ w _ _ b => accZ.withLit (if w then .f64 b else .f32 b)
  | .fabs _ _ _ _ => accZ
  | .fneg _ _ _ _ => accZ
  | .fsqrt _ _ _ _ => accZ.withRnd
  | .frcp _ _ _ _ => accZ.withRnd
  | .frsqrt _ _ _ _ => accZ.withRnd
  | .fexp2 _ _ _ _ => accZ.withRnd
  | .flog2 _ _ _ _ => accZ.withRnd
  | .fsinpi _ _ _ _ => accZ.withRnd
  | .fcospi _ _ _ _ => accZ.withRnd
  | .ftanh _ _ _ _ => accZ.withRnd
  | .fclass _ _ _ _ => accZ
  | .fgetexp _ _ _ _ => accZ
  | .fgetman _ _ _ _ => accZ
  | .frint _ _ _ _ => accZ.withRnd
  | .fadd _ _ _ _ => accZ.withRnd
  | .fsub _ _ _ _ => accZ.withRnd
  | .fmul _ _ _ _ => accZ.withRnd
  | .ffma _ _ _ _ => accZ.withRnd.withE .required
  | .fmin _ _ _ _ => accZ
  | .fmax _ _ _ _ => accZ
  | .fcopysign _ _ _ _ => accZ
  | .fdiv _ _ _ _ => accZ.withRnd
  | .fscale _ _ _ _ => accZ.withRnd
  | .fdot2 _ _ _ _ => accZ.withRnd.withE .required
  | .cvt _ _ _ _ _ => accZ.withSat.withRnd
  | .cvtPack _ _ _ _ => accZ.withSat.withRnd
  | .lred _ o t _ _ => if o = .add ∧ (t = .f32 ∨ t = .f64) then accZ.withRnd else accZ
  | .lscan _ _ o t _ _ => if o = .add ∧ (t = .f32 ∨ t = .f64) then accZ.withRnd else accZ
  | .vote _ _ _ _ => accZ
  | .ballot _ _ _ => accZ
  | .matchLanes _ _ _ _ => accZ
  | .shfl _ _ _ _ => accZ.withE .optional
  | .bra _ _ _ _ => accNone
  | .call _ _ _ _ => accNone
  | .jmp _ _ => accG
  | .callr _ _ _ => accG
  | .ret _ _ => accG
  | .brx _ _ => accG
  | .exit _ => accG
  | .trap _ _ => accG
  | .brk _ => accG
  | .nop _ => accG
  | .yield _ => accG
  | .pause _ => accG
  | .wsb _ => accG
  | .rjEnter _ _ => accG
  | .rjQuit _ _ => accG
  | .rjWait _ _ => accG
  | .rjGet _ _ _ => accZ
  | .rjSet _ _ _ => accG
  | .rjClr _ _ => accG
  | .ldGB32 _ o _ _ => accZ.withLit (.fm o)
  | .stGB32 _ o _ _ => accG.withLit (.fm o)
  | .ldGB64 _ o _ _ => accZ.withLit (.fm o)
  | .stGB64 _ o _ _ => accG.withLit (.fm o)
  | .ldGB128 _ o _ _ => accZ.withLit (.fm o)
  | .stGB128 _ o _ _ => accG.withLit (.fm o)
  | .ldSB32 _ o _ _ => accZ.withLit (.fm o)
  | .stSB32 _ o _ _ => accG.withLit (.fm o)
  | .ld _ _ _ r _ _ => accZ.withLit (.mem r)
  | .st _ _ _ r _ _ => accG.withLit (.mem r)
  | .ldkLow _ _ _ => accZ
  | .ldkHigh _ _ _ => accZ
  | .ldkReg _ _ _ => accZ
  | .prefG _ _ => accG.withLit (.mem false)
  | .atom _ _ _ _ _ => accZ.withLit (.sync false)
  | .cas _ _ _ _ => accZ.withE .required |>.withLit (.sync false)
  | .redOp _ _ _ _ _ => accG.withLit (.sync true)
  | .fncIss _ _ _ => accZ
  | .fncWt _ _ => accG
  | .ownGive _ _ => accG
  | .ownTake _ _ => accG
  | .ownTest _ _ _ => accZ
  | .rngWait _ _ _ => accZ
  | .rngRel _ _ => accG
  | .mrgFree _ _ => accG
  | .bbInit _ _ _ => accG
  | .bbExp _ _ _ => accG
  | .bbArv _ _ _ => accG
  | .bbWt _ _ => accG
  | .bop _ _ _ => accZ
  | .halloc _ _ _ => accZ
  | .hfree _ _ => accG
  | .obRsv _ _ => accG
  | .obRel _ _ => accG
  | .tcCopy _ _ => accG
  | .tcOb _ _ => accG
  | .tcMcast _ _ => accG
  | .permLoad _ _ _ => accZ
  | .mxCfg _ _ => accG
  | .mxStat _ _ => accG
  | .mxSwap _ => accG
  | .mxStrm _ _ => accG
  | .mxDrain _ _ _ => accZ
  | .mxZero _ _ => accG
  | .mxWait _ => accG
  | .mxSave _ _ => accG
  | .mxRest _ _ => accG
  | .rst _ _ _ _ _ => accZ
  | .rld _ _ _ _ _ => accZ
  | .ratom _ _ _ _ _ _ => accZ
  | .rcopy _ tok _ _ _ _ => if tok then accZ else accG
  | .tokJoin _ _ _ => accZ
  | .tokTest _ _ _ => accZ
  | .tokWait _ _ => accG
  | .collRun _ _ _ => accZ
  | .collWt _ _ _ => accZ
  | .reelGo _ _ _ => accZ
  | .reelStat _ _ _ => accZ
  | .evtSig _ _ => accG
  | .evtWt _ _ => accG
  | .regGrow _ _ => accG
  | .regShrink _ _ => accG
  | .qpush _ _ => accG
  | .qpop _ _ => accZ
  | .spawn _ _ _ => accZ
  | .tret _ => accG
  | .ctxPark _ => accG
  | .sysc _ _ => accG
  | .vmCommit _ _ _ => accZ
  | .vmFree _ _ _ => accZ
  | .vmProt _ _ _ => accZ
  | .vmDup _ _ _ => accZ
  | .vmSplit _ _ _ => accZ
  | .tlbInv _ _ => accG
  | .detRng _ _ => accG
  | .detFlush _ => accG
  | .recMark _ _ => accG
  | .tbar _ => accG
  | .tbarArv _ _ => accZ
  | .tbarWt _ _ => accG
  | .cbar _ => accG
  | .cbarArv _ _ => accZ
  | .cbarWt _ _ => accG
  | .csrr _ _ _ => accZ
  | .csrw _ _ _ => accG
  | .csrx _ _ _ => accZ
  | .handlerEntry _ => accNone
  | .regGrant _ => accNone
  | .yieldRelease _ => accNone
  | .pauseExpiry _ => accNone
  | .scoreboardWrite _ _ _ => accNone
  | .queuePushDone _ => accNone
  | .queuePopDone _ => accNone
  | .ownTakeDone _ => accNone
  | .ringWaitDone _ => accNone
  | .fencePerformed _ _ => accNone
  | .accessPerform _ => accNone
  | .pageWalkComplete _ _ _ _ => accNone
  | .bankAluApply _ _ => accNone
  | .bopComplete _ _ => accNone
  | .vmChangeComplete _ _ => accNone
  | .evtWaitRecheck _ => accNone
  | .commandAccept _ => accNone
  | .engineUnitRead _ _ _ => accNone
  | .engineUnitWrite _ _ => accNone
  | .ringSlotFill _ _ => accNone
  | .planeFillDone _ => accNone
  | .streamResults _ => accNone
  | .drainWrite _ => accNone
  | .mxWaitDone _ => accNone
  | .obRelDone _ => accNone
  | .budgetPeriodStart _ => accNone
  | .launchDoorbell _ _ _ => accNone
  | .frontEndTake _ _ => accNone
  | .launchReady _ _ => accNone
  | .launchRecheckTimer _ _ => accNone
  | .launchAging _ _ => accNone
  | .callerHandover _ => accNone
  | .corpsPlacement _ _ => accNone
  | .troupePublish _ => accNone
  | .graphNodeStart _ _ _ => accNone
  | .graphNodeDone _ _ _ => accNone
  | .deferredApply _ _ => accNone
  | .drainDeadline _ _ => accNone
  | .evictionDeadline _ _ => accNone
  | .preemptSaveImage _ => accNone
  | .troupeLeavesCore _ => accNone
  | .restorePlacement _ _ => accNone
  | .steerReply _ => accNone
  | .eccu _ _ _ => accNone
  | .slotStart _ => accNone
  | .frameReceive _ _ _ => accNone
  | .masterLoss _ => accNone
  | .freeRunExpiry _ => accNone
  | .laneFailure _ _ _ => accNone
  | .laneRejoin _ _ _ => accNone
  | .storePacket _ => accNone
  | .loadPacket _ => accNone
  | .replyPacket _ => accNone
  | .faultReplyPacket _ => accNone
  | .atomicPacket _ => accNone
  | .copySegmentPacket _ => accNone
  | .vectorStorePart _ => accNone
  | .vectorLoadPart _ => accNone
  | .vectorAtomicPart _ => accNone
  | .landedNotice _ => accNone
  | .releaseNotice _ => accNone
  | .appliedCountNotice _ => accNone
  | .forwardedCountNotice _ => accNone
  | .relayedAppliedCountNotice _ => accNone
  | .holdFreeNotice _ => accNone
  | .expiryNotice _ => accNone
  | .invalidateNotice _ => accNone
  | .holdExpiry _ _ => accNone
  | .collEntryStart _ _ _ => accNone
  | .collEntryComplete _ _ _ => accNone
  | .reducerFold _ _ => accNone
  | .reelWait _ => accNone
  | .reelGather _ => accNone
  | .reelRun _ => accNone
  | .reelHandoff _ => accNone
  | .bootRom _ _ => accNone
  | .recoveryImage _ _ => accNone
  | .mrExtend _ _ _ => accNone
  | .attestationRequest _ _ _ => accNone
  | .featureGo _ => accNone
  | .apertureRead _ _ _ => accNone
  | .apertureWrite _ _ _ _ => accNone
  | .apertureControlWrite _ _ _ => accNone
  | .correctedError _ _ _ _ => accNone
  | .uncorrectableError _ _ _ _ => accNone
  | .selfTestEnd _ _ _ _ => accNone
  | .budgetWrite _ _ _ => accNone
  | .pcapWrite _ _ => accNone
  | .pstateWrite _ _ => accNone
  | .temperatureEvent _ _ => accNone
  | .hostCommandDoorbell _ _ => accNone
  | .ctxnew _ _ => accNone
  | .ctxentry _ _ => accNone
  | .ctxstop _ _ => accNone
  | .ctxfree _ _ => accNone
  | .ctxevt _ _ => accNone
  | .preempt _ _ => accNone
  | .preend _ _ => accNone
  | .resume _ _ => accNone
  | .planload _ _ => accNone
  | .reelload _ _ => accNone
  | .hndload _ _ => accNone
  | .fctlset _ _ => accNone
  | .masters _ _ => accNone
  | .vmdup _ _ => accNone
  | .vmsplit _ _ => accNone
  | .vmprot _ _ => accNone
  | .tlbinv _ _ => accNone
  | .registerWrite _ _ _ _ => accNone
  | .fixedLatencyResult _ => accNone
  | .stallWaitExpiry _ => accNone
  | .powerCapReached _ => accNone

/-- The option, literal, stall and chain fields of a word row. -/
def Instr.mods : Instr → Option Mods
  | .iadd m _ _ _ => some m
  | .isub m _ _ _ => some m
  | .imul m _ _ _ => some m
  | .imad m _ _ _ => some m
  | .andB32 m _ _ _ => some m
  | .orB32 m _ _ _ => some m
  | .xorB32 m _ _ _ => some m
  | .shl m _ _ _ => some m
  | .shr m _ _ _ => some m
  | .sar m _ _ _ => some m
  | .lea m _ _ _ => some m
  | .sel m _ _ _ => some m
  | .bfx m _ _ _ => some m
  | .bfi m _ _ _ => some m
  | .prmt m _ _ _ => some m
  | .shf m _ _ _ => some m
  | .lop3 m _ _ _ => some m
  | .iaddi m _ _ _ => some m
  | .shi m _ _ _ _ => some m
  | .movi m _ _ => some m
  | .movl m _ _ => some m
  | .movh m _ _ => some m
  | .mov m _ _ _ => some m
  | .popc m _ _ _ => some m
  | .clz m _ _ _ => some m
  | .ctz m _ _ _ => some m
  | .brev m _ _ _ => some m
  | .iabs m _ _ _ => some m
  | .ineg m _ _ _ => some m
  | .iaddB64 m _ _ => some m
  | .isubB64 m _ _ => some m
  | .imulB64 m _ _ => some m
  | .iaddcB32 m _ _ => some m
  | .isubbB32 m _ _ => some m
  | .iaddcB64 m _ _ => some m
  | .isubbB64 m _ _ => some m
  | .imulh m _ _ _ => some m
  | .imadw m _ _ _ => some m
  | .idiv m _ _ _ => some m
  | .irem m _ _ _ => some m
  | .imin m _ _ _ => some m
  | .imax m _ _ _ => some m
  | .iclamp m _ _ _ => some m
  | .dp4 m _ _ _ => some m
  | .shlB64 m _ _ => some m
  | .shrB64 m _ _ => some m
  | .sarB64 m _ _ => some m
  | .rotlB32 m _ _ => some m
  | .rotlB64 m _ _ => some m
  | .andB64 m _ _ => some m
  | .orB64 m _ _ => some m
  | .xorB64 m _ _ => some m
  | .pmov m _ _ => some m
  | .pset m _ _ => some m
  | .p2g m _ _ => some m
  | .g2p m _ _ => some m
  | .plop3 m _ _ => some m
  | .icmpEq m _ _ _ _ => some m
  | .icmpNe m _ _ _ _ => some m
  | .icmpLtS m _ _ _ _ => some m
  | .icmpLtZ m _ _ _ _ => some m
  | .faddF32 m _ _ _ => some m
  | .fsubF32 m _ _ _ => some m
  | .fmulF32 m _ _ _ => some m
  | .ffmaF32 m _ _ _ => some m
  | .faddF64 m _ _ _ => some m
  | .fmulF64 m _ _ _ => some m
  | .ffmaF64 m _ _ _ => some m
  | .fcmpEq m _ _ _ _ => some m
  | .fcmpLt m _ _ _ _ => some m
  | .fcmpLe m _ _ _ _ => some m
  | .fcmpUn m _ _ _ _ => some m
  | .fabs m _ _ _ => some m
  | .fneg m _ _ _ => some m
  | .fsqrt m _ _ _ => some m
  | .frcp m _ _ _ => some m
  | .frsqrt m _ _ _ => some m
  | .fexp2 m _ _ _ => some m
  | .flog2 m _ _ _ => some m
  | .fsinpi m _ _ _ => some m
  | .fcospi m _ _ _ => some m
  | .ftanh m _ _ _ => some m
  | .fclass m _ _ _ => some m
  | .fgetexp m _ _ _ => some m
  | .fgetman m _ _ _ => some m
  | .frint m _ _ _ => some m
  | .fadd m _ _ _ => some m
  | .fsub m _ _ _ => some m
  | .fmul m _ _ _ => some m
  | .ffma m _ _ _ => some m
  | .fmin m _ _ _ => some m
  | .fmax m _ _ _ => some m
  | .fcopysign m _ _ _ => some m
  | .fdiv m _ _ _ => some m
  | .fscale m _ _ _ => some m
  | .fdot2 m _ _ _ => some m
  | .cvt m _ _ _ _ => some m
  | .cvtPack m _ _ _ => some m
  | .lred m _ _ _ _ => some m
  | .lscan m _ _ _ _ _ => some m
  | .vote m _ _ _ => some m
  | .ballot m _ _ => some m
  | .matchLanes m _ _ _ => some m
  | .shfl m _ _ _ => some m
  | .bra m _ _ _ => some m
  | .call m _ _ _ => some m
  | .jmp m _ => some m
  | .callr m _ _ => some m
  | .ret m _ => some m
  | .brx m _ => some m
  | .exit m => some m
  | .trap m _ => some m
  | .brk m => some m
  | .nop m => some m
  | .yield m => some m
  | .pause m => some m
  | .wsb m => some m
  | .rjEnter m _ => some m
  | .rjQuit m _ => some m
  | .rjWait m _ => some m
  | .rjGet m _ _ => some m
  | .rjSet m _ _ => some m
  | .rjClr m _ => some m
  | .ldGB32 m _ _ _ => some m
  | .stGB32 m _ _ _ => some m
  | .ldGB64 m _ _ _ => some m
  | .stGB64 m _ _ _ => some m
  | .ldGB128 m _ _ _ => some m
  | .stGB128 m _ _ _ => some m
  | .ldSB32 m _ _ _ => some m
  | .stSB32 m _ _ _ => some m
  | .ld m _ _ _ _ _ => some m
  | .st m _ _ _ _ _ => some m
  | .ldkLow m _ _ => some m
  | .ldkHigh m _ _ => some m
  | .ldkReg m _ _ => some m
  | .prefG m _ => some m
  | .atom m _ _ _ _ => some m
  | .cas m _ _ _ => some m
  | .redOp m _ _ _ _ => some m
  | .fncIss m _ _ => some m
  | .fncWt m _ => some m
  | .ownGive m _ => some m
  | .ownTake m _ => some m
  | .ownTest m _ _ => some m
  | .rngWait m _ _ => some m
  | .rngRel m _ => some m
  | .mrgFree m _ => some m
  | .bbInit m _ _ => some m
  | .bbExp m _ _ => some m
  | .bbArv m _ _ => some m
  | .bbWt m _ => some m
  | .bop m _ _ => some m
  | .halloc m _ _ => some m
  | .hfree m _ => some m
  | .obRsv m _ => some m
  | .obRel m _ => some m
  | .tcCopy m _ => some m
  | .tcOb m _ => some m
  | .tcMcast m _ => some m
  | .permLoad m _ _ => some m
  | .mxCfg m _ => some m
  | .mxStat m _ => some m
  | .mxSwap m => some m
  | .mxStrm m _ => some m
  | .mxDrain m _ _ => some m
  | .mxZero m _ => some m
  | .mxWait m => some m
  | .mxSave m _ => some m
  | .mxRest m _ => some m
  | .rst m _ _ _ _ => some m
  | .rld m _ _ _ _ => some m
  | .ratom m _ _ _ _ _ => some m
  | .rcopy m _ _ _ _ _ => some m
  | .tokJoin m _ _ => some m
  | .tokTest m _ _ => some m
  | .tokWait m _ => some m
  | .collRun m _ _ => some m
  | .collWt m _ _ => some m
  | .reelGo m _ _ => some m
  | .reelStat m _ _ => some m
  | .evtSig m _ => some m
  | .evtWt m _ => some m
  | .regGrow m _ => some m
  | .regShrink m _ => some m
  | .qpush m _ => some m
  | .qpop m _ => some m
  | .spawn m _ _ => some m
  | .tret m => some m
  | .ctxPark m => some m
  | .sysc m _ => some m
  | .vmCommit m _ _ => some m
  | .vmFree m _ _ => some m
  | .vmProt m _ _ => some m
  | .vmDup m _ _ => some m
  | .vmSplit m _ _ => some m
  | .tlbInv m _ => some m
  | .detRng m _ => some m
  | .detFlush m => some m
  | .recMark m _ => some m
  | .tbar m => some m
  | .tbarArv m _ => some m
  | .tbarWt m _ => some m
  | .cbar m => some m
  | .cbarArv m _ => some m
  | .cbarWt m _ => some m
  | .csrr m _ _ => some m
  | .csrw m _ _ => some m
  | .csrx m _ _ => some m
  | .handlerEntry _ => Option.none
  | .regGrant _ => Option.none
  | .yieldRelease _ => Option.none
  | .pauseExpiry _ => Option.none
  | .scoreboardWrite _ _ _ => Option.none
  | .queuePushDone _ => Option.none
  | .queuePopDone _ => Option.none
  | .ownTakeDone _ => Option.none
  | .ringWaitDone _ => Option.none
  | .fencePerformed _ _ => Option.none
  | .accessPerform _ => Option.none
  | .pageWalkComplete _ _ _ _ => Option.none
  | .bankAluApply _ _ => Option.none
  | .bopComplete _ _ => Option.none
  | .vmChangeComplete _ _ => Option.none
  | .evtWaitRecheck _ => Option.none
  | .commandAccept _ => Option.none
  | .engineUnitRead _ _ _ => Option.none
  | .engineUnitWrite _ _ => Option.none
  | .ringSlotFill _ _ => Option.none
  | .planeFillDone _ => Option.none
  | .streamResults _ => Option.none
  | .drainWrite _ => Option.none
  | .mxWaitDone _ => Option.none
  | .obRelDone _ => Option.none
  | .budgetPeriodStart _ => Option.none
  | .launchDoorbell _ _ _ => Option.none
  | .frontEndTake _ _ => Option.none
  | .launchReady _ _ => Option.none
  | .launchRecheckTimer _ _ => Option.none
  | .launchAging _ _ => Option.none
  | .callerHandover _ => Option.none
  | .corpsPlacement _ _ => Option.none
  | .troupePublish _ => Option.none
  | .graphNodeStart _ _ _ => Option.none
  | .graphNodeDone _ _ _ => Option.none
  | .deferredApply _ _ => Option.none
  | .drainDeadline _ _ => Option.none
  | .evictionDeadline _ _ => Option.none
  | .preemptSaveImage _ => Option.none
  | .troupeLeavesCore _ => Option.none
  | .restorePlacement _ _ => Option.none
  | .steerReply _ => Option.none
  | .eccu _ _ _ => Option.none
  | .slotStart _ => Option.none
  | .frameReceive _ _ _ => Option.none
  | .masterLoss _ => Option.none
  | .freeRunExpiry _ => Option.none
  | .laneFailure _ _ _ => Option.none
  | .laneRejoin _ _ _ => Option.none
  | .storePacket _ => Option.none
  | .loadPacket _ => Option.none
  | .replyPacket _ => Option.none
  | .faultReplyPacket _ => Option.none
  | .atomicPacket _ => Option.none
  | .copySegmentPacket _ => Option.none
  | .vectorStorePart _ => Option.none
  | .vectorLoadPart _ => Option.none
  | .vectorAtomicPart _ => Option.none
  | .landedNotice _ => Option.none
  | .releaseNotice _ => Option.none
  | .appliedCountNotice _ => Option.none
  | .forwardedCountNotice _ => Option.none
  | .relayedAppliedCountNotice _ => Option.none
  | .holdFreeNotice _ => Option.none
  | .expiryNotice _ => Option.none
  | .invalidateNotice _ => Option.none
  | .holdExpiry _ _ => Option.none
  | .collEntryStart _ _ _ => Option.none
  | .collEntryComplete _ _ _ => Option.none
  | .reducerFold _ _ => Option.none
  | .reelWait _ => Option.none
  | .reelGather _ => Option.none
  | .reelRun _ => Option.none
  | .reelHandoff _ => Option.none
  | .bootRom _ _ => Option.none
  | .recoveryImage _ _ => Option.none
  | .mrExtend _ _ _ => Option.none
  | .attestationRequest _ _ _ => Option.none
  | .featureGo _ => Option.none
  | .apertureRead _ _ _ => Option.none
  | .apertureWrite _ _ _ _ => Option.none
  | .apertureControlWrite _ _ _ => Option.none
  | .correctedError _ _ _ _ => Option.none
  | .uncorrectableError _ _ _ _ => Option.none
  | .selfTestEnd _ _ _ _ => Option.none
  | .budgetWrite _ _ _ => Option.none
  | .pcapWrite _ _ => Option.none
  | .pstateWrite _ _ => Option.none
  | .temperatureEvent _ _ => Option.none
  | .hostCommandDoorbell _ _ => Option.none
  | .ctxnew _ _ => Option.none
  | .ctxentry _ _ => Option.none
  | .ctxstop _ _ => Option.none
  | .ctxfree _ _ => Option.none
  | .ctxevt _ _ => Option.none
  | .preempt _ _ => Option.none
  | .preend _ _ => Option.none
  | .resume _ _ => Option.none
  | .planload _ _ => Option.none
  | .reelload _ _ => Option.none
  | .hndload _ _ => Option.none
  | .fctlset _ _ => Option.none
  | .masters _ _ => Option.none
  | .vmdup _ _ => Option.none
  | .vmsplit _ _ => Option.none
  | .vmprot _ _ => Option.none
  | .tlbinv _ _ => Option.none
  | .registerWrite _ _ _ _ => Option.none
  | .fixedLatencyResult _ => Option.none
  | .stallWaitExpiry _ => Option.none
  | .powerCapReached _ => Option.none

/-- The cause PREFIX of R91: a field that the instruction does not accept, or a required one that is absent. -/
def pfxOk (a : Acc) (m : Mods) : Bool :=
  (match m.opt with
    | Option.none => a.e != .required
    | some o => a.guard && (a.z || !o.z) && (a.sat || !o.sat) &&
      (match a.e with
        | .none => !o.een
        | .optional => true
        | .required => o.een)) &&
  (match m.lit, a.lit with
    | Option.none, .lop3 => false
    | Option.none, .plop3 => false
    | Option.none, .movl => false
    | Option.none, _ => true
    | some _, .none => false
    | some _, _ => true)

/-- The conditions of R76 on a literal payload: fields that must be zero, and reserved values. -/
def litOk (l : BitVec 29) : LitUse → Bool
  | .lea => l >>> 4 == 0
  | .lop3 => l >>> 15 == 0
  | .plop3 => l >>> 22 == 0
  | .movl => l >>> 18 == 0
  | .fm off7 => off7 == 0
  | .mem ordered => ordered || (l.setWidth 2 == 0#2)
  | .b r => r == 0
  | .f32 r => r == 0
  | .f64 r => r == 0
  | .sync red => ((l >>> 4).setWidth 2 != 3#2) && (!red || ((l >>> 2).setWidth 1 == 0#1))
  | .none => true

/-- The cause RSVD of R91, as far as the option and literal words go. -/
def modsRsvdOk (a : Acc) (m : Mods) : Bool :=
  (match m.opt with
    | Option.none => true
    | some o => (o.ge || (!o.gn && o.gp == 0)) && (o.een || o.e == 0) && o.rnd != 7#3 && (a.rnd || o.rnd == 0)) &&
  (match m.lit with
    | Option.none => true
    | some l => litOk l a.lit)

/-- The combinations of operation, type and format that exist as function codes (R96 to R101); for an event,
the ranges of the numbers that name its agent. -/
def Instr.formOk : Instr → Bool
  | .iadd _ _ _ _ => true
  | .isub _ _ _ _ => true
  | .imul _ _ _ _ => true
  | .imad _ _ _ _ => true
  | .andB32 _ _ _ _ => true
  | .orB32 _ _ _ _ => true
  | .xorB32 _ _ _ _ => true
  | .shl _ _ _ _ => true
  | .shr _ _ _ _ => true
  | .sar _ _ _ _ => true
  | .lea _ _ _ _ => true
  | .sel _ _ _ _ => true
  | .bfx _ _ _ _ => true
  | .bfi _ _ _ _ => true
  | .prmt _ _ _ _ => true
  | .shf _ _ _ _ => true
  | .lop3 _ _ _ _ => true
  | .iaddi _ _ _ _ => true
  | .shi _ _ _ _ _ => true
  | .movi _ _ _ => true
  | .movl _ _ _ => true
  | .movh _ _ _ => true
  | .mov _ _ _ _ => true
  | .popc _ _ _ _ => true
  | .clz _ _ _ _ => true
  | .ctz _ _ _ _ => true
  | .brev _ _ _ _ => true
  | .iabs _ _ _ _ => true
  | .ineg _ _ _ _ => true
  | .iaddB64 _ _ _ => true
  | .isubB64 _ _ _ => true
  | .imulB64 _ _ _ => true
  | .iaddcB32 _ _ _ => true
  | .isubbB32 _ _ _ => true
  | .iaddcB64 _ _ _ => true
  | .isubbB64 _ _ _ => true
  | .imulh _ _ _ _ => true
  | .imadw _ _ _ _ => true
  | .idiv _ _ _ _ => true
  | .irem _ _ _ _ => true
  | .imin _ _ _ _ => true
  | .imax _ _ _ _ => true
  | .iclamp _ _ _ _ => true
  | .dp4 _ _ _ _ => true
  | .shlB64 _ _ _ => true
  | .shrB64 _ _ _ => true
  | .sarB64 _ _ _ => true
  | .rotlB32 _ _ _ => true
  | .rotlB64 _ _ _ => true
  | .andB64 _ _ _ => true
  | .orB64 _ _ _ => true
  | .xorB64 _ _ _ => true
  | .pmov _ _ _ => true
  | .pset _ _ _ => true
  | .p2g _ _ _ => true
  | .g2p _ _ _ => true
  | .plop3 _ _ _ => true
  | .icmpEq _ _ _ _ _ => true
  | .icmpNe _ _ _ _ _ => true
  | .icmpLtS _ _ _ _ _ => true
  | .icmpLtZ _ _ _ _ _ => true
  | .faddF32 _ _ _ _ => true
  | .fsubF32 _ _ _ _ => true
  | .fmulF32 _ _ _ _ => true
  | .ffmaF32 _ _ _ _ => true
  | .faddF64 _ _ _ _ => true
  | .fmulF64 _ _ _ _ => true
  | .ffmaF64 _ _ _ _ => true
  | .fcmpEq _ _ _ _ _ => true
  | .fcmpLt _ _ _ _ _ => true
  | .fcmpLe _ _ _ _ _ => true
  | .fcmpUn _ _ _ _ _ => true
  | .fabs _ _ _ _ => true
  | .fneg _ _ _ _ => true
  | .fsqrt _ _ _ _ => true
  | .frcp _ f _ _ => decide (f ≠ .f64)
  | .frsqrt _ f _ _ => decide (f ≠ .f64)
  | .fexp2 _ f _ _ => decide (f ≠ .f64)
  | .flog2 _ f _ _ => decide (f ≠ .f64)
  | .fsinpi _ f _ _ => decide (f ≠ .f64)
  | .fcospi _ f _ _ => decide (f ≠ .f64)
  | .ftanh _ f _ _ => decide (f ≠ .f64)
  | .fclass _ f _ _ => decide (f ≠ .f16x2 ∧ f ≠ .bf16x2)
  | .fgetexp _ f _ _ => decide (f ≠ .f16x2 ∧ f ≠ .bf16x2)
  | .fgetman _ f _ _ => decide (f ≠ .f16x2 ∧ f ≠ .bf16x2)
  | .frint _ _ _ _ => true
  | .fadd _ _ _ _ => true
  | .fsub _ _ _ _ => true
  | .fmul _ _ _ _ => true
  | .ffma _ _ _ _ => true
  | .fmin _ _ _ _ => true
  | .fmax _ _ _ _ => true
  | .fcopysign _ _ _ _ => true
  | .fdiv _ _ _ _ => true
  | .fscale _ _ _ _ => true
  | .fdot2 _ f _ _ => decide (f = .f16x2 ∨ f = .bf16x2)
  | .cvt _ x y _ _ => decide (x ≠ y)
  | .cvtPack _ _ _ _ => true
  | .lred _ o t _ _ => (match o, t with | .and, .s32 => true | .or, .s32 => true | .xor, .s32 => true | .and, _ => false | .or, _ => false | .xor, _ => false | .minIdx, .f64 => false | .maxIdx, .f64 => false | _, _ => true)
  | .lscan _ _ _ _ _ _ => true
  | .vote _ _ _ _ => true
  | .ballot _ _ _ => true
  | .matchLanes _ _ _ _ => true
  | .shfl _ _ _ _ => true
  | .bra _ _ _ _ => true
  | .call _ _ _ _ => true
  | .jmp _ _ => true
  | .callr _ _ _ => true
  | .ret _ _ => true
  | .brx _ _ => true
  | .exit _ => true
  | .trap _ _ => true
  | .brk _ => true
  | .nop _ => true
  | .yield _ => true
  | .pause _ => true
  | .wsb _ => true
  | .rjEnter _ _ => true
  | .rjQuit _ _ => true
  | .rjWait _ _ => true
  | .rjGet _ _ _ => true
  | .rjSet _ _ _ => true
  | .rjClr _ _ => true
  | .ldGB32 _ _ _ _ => true
  | .stGB32 _ _ _ _ => true
  | .ldGB64 _ _ _ _ => true
  | .stGB64 _ _ _ _ => true
  | .ldGB128 _ _ _ _ => true
  | .stGB128 _ _ _ _ => true
  | .ldSB32 _ _ _ _ => true
  | .stSB32 _ _ _ _ => true
  | .ld _ _ _ _ _ _ => true
  | .st _ _ t _ _ _ => decide (t ≠ .s8 ∧ t ≠ .s16)
  | .ldkLow _ _ _ => true
  | .ldkHigh _ _ _ => true
  | .ldkReg _ _ _ => true
  | .prefG _ _ => true
  | .atom _ _ _ _ _ => true
  | .cas _ _ _ _ => true
  | .redOp _ o _ _ _ => decide (o ≠ .xch)
  | .fncIss _ _ _ => true
  | .fncWt _ _ => true
  | .ownGive _ _ => true
  | .ownTake _ _ => true
  | .ownTest _ _ _ => true
  | .rngWait _ _ _ => true
  | .rngRel _ _ => true
  | .mrgFree _ _ => true
  | .bbInit _ _ _ => true
  | .bbExp _ _ _ => true
  | .bbArv _ _ _ => true
  | .bbWt _ _ => true
  | .bop _ _ _ => true
  | .halloc _ _ _ => true
  | .hfree _ _ => true
  | .obRsv _ _ => true
  | .obRel _ _ => true
  | .tcCopy _ _ => true
  | .tcOb _ _ => true
  | .tcMcast _ _ => true
  | .permLoad _ _ _ => true
  | .mxCfg _ _ => true
  | .mxStat _ _ => true
  | .mxSwap _ => true
  | .mxStrm _ _ => true
  | .mxDrain _ _ _ => true
  | .mxZero _ _ => true
  | .mxWait _ => true
  | .mxSave _ _ => true
  | .mxRest _ _ => true
  | .rst _ _ _ _ _ => true
  | .rld _ _ _ _ _ => true
  | .ratom _ _ _ _ _ _ => true
  | .rcopy _ _ _ _ _ _ => true
  | .tokJoin _ _ _ => true
  | .tokTest _ _ _ => true
  | .tokWait _ _ => true
  | .collRun _ _ _ => true
  | .collWt _ _ _ => true
  | .reelGo _ _ _ => true
  | .reelStat _ _ _ => true
  | .evtSig _ _ => true
  | .evtWt _ _ => true
  | .regGrow _ _ => true
  | .regShrink _ _ => true
  | .qpush _ _ => true
  | .qpop _ _ => true
  | .spawn _ _ _ => true
  | .tret _ => true
  | .ctxPark _ => true
  | .sysc _ _ => true
  | .vmCommit _ _ _ => true
  | .vmFree _ _ _ => true
  | .vmProt _ _ _ => true
  | .vmDup _ _ _ => true
  | .vmSplit _ _ _ => true
  | .tlbInv _ _ => true
  | .detRng _ _ => true
  | .detFlush _ => true
  | .recMark _ _ => true
  | .tbar _ => true
  | .tbarArv _ _ => true
  | .tbarWt _ _ => true
  | .cbar _ => true
  | .cbarArv _ _ => true
  | .cbarWt _ _ => true
  | .csrr _ _ _ => true
  | .csrw _ _ _ => true
  | .csrx _ _ _ => true
  | .handlerEntry _ => true
  | .regGrant _ => true
  | .yieldRelease _ => true
  | .pauseExpiry _ => true
  | .scoreboardWrite _ l _ => decide (l < 32)
  | .queuePushDone _ => true
  | .queuePopDone _ => true
  | .ownTakeDone _ => true
  | .ringWaitDone _ => true
  | .fencePerformed _ _ => true
  | .accessPerform _ => true
  | .pageWalkComplete _ e _ _ => decide (e < 1024)
  | .bankAluApply _ _ => true
  | .bopComplete _ _ => true
  | .vmChangeComplete _ _ => true
  | .evtWaitRecheck _ => true
  | .commandAccept _ => true
  | .engineUnitRead _ _ _ => true
  | .engineUnitWrite _ _ => true
  | .ringSlotFill _ _ => true
  | .planeFillDone _ => true
  | .streamResults _ => true
  | .drainWrite _ => true
  | .mxWaitDone _ => true
  | .obRelDone _ => true
  | .budgetPeriodStart _ => true
  | .launchDoorbell _ q _ => decide (q < 64)
  | .frontEndTake _ q => decide (q < 64)
  | .launchReady _ _ => true
  | .launchRecheckTimer _ _ => true
  | .launchAging _ _ => true
  | .callerHandover _ => true
  | .corpsPlacement _ _ => true
  | .troupePublish _ => true
  | .graphNodeStart _ _ _ => true
  | .graphNodeDone _ _ _ => true
  | .deferredApply _ _ => true
  | .drainDeadline _ _ => true
  | .evictionDeadline _ _ => true
  | .preemptSaveImage _ => true
  | .troupeLeavesCore _ => true
  | .restorePlacement _ _ => true
  | .steerReply _ => true
  | .eccu _ _ _ => true
  | .slotStart _ => true
  | .frameReceive _ _ _ => true
  | .masterLoss _ => true
  | .freeRunExpiry _ => true
  | .laneFailure _ n l => decide (n < 16 ∧ l < 9)
  | .laneRejoin _ n l => decide (n < 16 ∧ l < 9)
  | .storePacket _ => true
  | .loadPacket _ => true
  | .replyPacket _ => true
  | .faultReplyPacket _ => true
  | .atomicPacket _ => true
  | .copySegmentPacket _ => true
  | .vectorStorePart _ => true
  | .vectorLoadPart _ => true
  | .vectorAtomicPart _ => true
  | .landedNotice _ => true
  | .releaseNotice _ => true
  | .appliedCountNotice _ => true
  | .forwardedCountNotice _ => true
  | .relayedAppliedCountNotice _ => true
  | .holdFreeNotice _ => true
  | .expiryNotice _ => true
  | .invalidateNotice _ => true
  | .holdExpiry _ _ => true
  | .collEntryStart _ _ _ => true
  | .collEntryComplete _ _ _ => true
  | .reducerFold _ _ => true
  | .reelWait _ => true
  | .reelGather _ => true
  | .reelRun _ => true
  | .reelHandoff _ => true
  | .bootRom _ _ => true
  | .recoveryImage _ _ => true
  | .mrExtend _ n _ => decide (2 ≤ n ∧ n ≤ 7)
  | .attestationRequest _ _ _ => true
  | .featureGo _ => true
  | .apertureRead _ _ _ => true
  | .apertureWrite _ _ _ _ => true
  | .apertureControlWrite _ _ _ => true
  | .correctedError _ _ _ _ => true
  | .uncorrectableError _ _ _ _ => true
  | .selfTestEnd _ _ _ _ => true
  | .budgetWrite _ _ _ => true
  | .pcapWrite _ _ => true
  | .pstateWrite _ _ => true
  | .temperatureEvent _ _ => true
  | .hostCommandDoorbell _ _ => true
  | .ctxnew _ _ => true
  | .ctxentry _ _ => true
  | .ctxstop _ _ => true
  | .ctxfree _ _ => true
  | .ctxevt _ _ => true
  | .preempt _ _ => true
  | .preend _ _ => true
  | .resume _ _ => true
  | .planload _ _ => true
  | .reelload _ _ => true
  | .hndload _ _ => true
  | .fctlset _ _ => true
  | .masters _ _ => true
  | .vmdup _ _ => true
  | .vmsplit _ _ => true
  | .vmprot _ _ => true
  | .tlbinv _ _ => true
  | .registerWrite _ _ n _ => decide (n = 4 ∨ n = 8)
  | .fixedLatencyResult _ => true
  | .stallWaitExpiry _ => true
  | .powerCapReached _ => true

/-- Well-formed: the form exists, and its option and literal words are ones it accepts. The literal form of
`movi` is the row MOVL, so MOVI itself has none. -/
def Instr.wf (i : Instr) : Bool :=
  i.formOk &&
  match i.mods with
  | Option.none => true
  | some m => pfxOk i.acc m && modsRsvdOk i.acc m

end Sys2Proof
end

