-- ==== Sys2Proof/Decode.lean ====
section
/-! DEFINITION. From words to instructions and back (R67 to R103): the fields of a word, one table of function codes
per major, the option and literal words, and after them the encoder. Decoding is total; what is no instruction is
refused with the cause of R91. Register ranges and alignment need the wave's allotment and stand in Machine/Operands. -/

namespace Sys2Proof

/-- The fields of a 32-bit word, lowest first: kind, C, S, MAJ and the three 7-bit operand fields (R68, R70). -/
structure Fields where
  kind : BitVec 2
  c : Bool
  s : BitVec 2
  maj : BitVec 6
  d : Reg
  a : Reg
  b : Reg
  deriving DecidableEq, Repr

def Fields.ofWord (w : W32) : Fields :=
  { kind := w.extractLsb' 0 2, c := w.getLsbD 2, s := w.extractLsb' 3 2, maj := w.extractLsb' 5 6,
    d := w.extractLsb' 11 7, a := w.extractLsb' 18 7, b := w.extractLsb' 25 7 }

def Fields.toWord (f : Fields) : W32 :=
  f.b ++ f.a ++ f.d ++ f.maj ++ f.s ++ BitVec.ofBool f.c ++ f.kind

/-- What a base word names: the instruction, and whether its must-be-zero fields and immediates are in range. -/
abbrev Named := Option (Instr × Bool)

def iTypeOf (n : Nat) : IType := match n with | 0 => .s32 | 1 => .z32 | 2 => .s64 | _ => .z64
def IType.code : IType → Nat | .s32 => 0 | .z32 => 1 | .s64 => 2 | .z64 => 3
def shOpOf (n : Nat) : ShOp := match n with | 0 => .shl | 1 => .shr | 2 => .sar | _ => .rotl
def ShOp.code : ShOp → Nat | .shl => 0 | .shr => 1 | .sar => 2 | .rotl => 3
def fFmtOf (n : Nat) : Option FFmt :=
  match n with | 0 => some .f32 | 1 => some .f64 | 2 => some .f16 | 3 => some .bf16 | 4 => some .f16x2 | 5 => some .bf16x2 | _ => none
def FFmt.code : FFmt → Nat | .f32 => 0 | .f64 => 1 | .f16 => 2 | .bf16 => 3 | .f16x2 => 4 | .bf16x2 => 5
def cvtTypeOf (n : Nat) : CvtType :=
  match n with | 0 => .f32 | 1 => .f64 | 2 => .f16 | 3 => .bf16 | 4 => .s32 | 5 => .z32 | 6 => .s64 | _ => .z64
def CvtType.code : CvtType → Nat
  | .f32 => 0 | .f64 => 1 | .f16 => 2 | .bf16 => 3 | .s32 => 4 | .z32 => 5 | .s64 => 6 | .z64 => 7
def redOpOf (n : Nat) : RedOp :=
  match n with | 0 => .add | 1 => .min | 2 => .max | 3 => .and | 4 => .or | 5 => .xor | 6 => .minIdx | _ => .maxIdx
def RedOp.code : RedOp → Nat
  | .add => 0 | .min => 1 | .max => 2 | .and => 3 | .or => 4 | .xor => 5 | .minIdx => 6 | .maxIdx => 7
def redTypeOf (n : Nat) : RedType := match n with | 0 => .s32 | 1 => .z32 | 2 => .f32 | _ => .f64
def RedType.code : RedType → Nat | .s32 => 0 | .z32 => 1 | .f32 => 2 | .f64 => 3
def scanOpOf (n : Nat) : Option ScanOp := match n with | 0 => some .add | 1 => some .min | 2 => some .max | _ => none
def ScanOp.code : ScanOp → Nat | .add => 0 | .min => 1 | .max => 2
def spaceOf (n : Nat) : Option Space := match n with | 0 => some .g | 1 => some .s | 2 => some .b | _ => none
def Space.code : Space → Nat | .g => 0 | .s => 1 | .b => 2
def memTypeOf (n : Nat) : Option MemType :=
  match n with
  | 0 => some .s8 | 1 => some .z8 | 2 => some .s16 | 3 => some .z16 | 4 => some .b32 | 5 => some .b64 | 6 => some .b128
  | _ => none
def MemType.code : MemType → Nat | .s8 => 0 | .z8 => 1 | .s16 => 2 | .z16 => 3 | .b32 => 4 | .b64 => 5 | .b128 => 6
def atomOpOf (n : Nat) : Option AtomOp :=
  match n with
  | 0 => some .add | 1 => some .minS | 2 => some .minZ | 3 => some .maxS | 4 => some .maxZ | 5 => some .and
  | 6 => some .or | 7 => some .xor | 8 => some .xch | 9 => some .inc | 10 => some .fadd | _ => none
def AtomOp.code : AtomOp → Nat
  | .add => 0 | .minS => 1 | .minZ => 2 | .maxS => 3 | .maxZ => 4 | .and => 5 | .or => 6 | .xor => 7 | .xch => 8
  | .inc => 9 | .fadd => 10
def scopeOf (n : Nat) : Scope := match n with | 0 => .core | 1 => .clu | 2 => .pkg | _ => .pod
def Scope.code : Scope → Nat | .core => 0 | .clu => 1 | .pkg => 2 | .pod => 3
def memOrdOf (n : Nat) : MemOrd := match n with | 0 => .rlx | 1 => .acq | 2 => .rel | _ => .ar
def MemOrd.code : MemOrd → Nat | .rlx => 0 | .acq => 1 | .rel => 2 | .ar => 3
def dpTypeOf (n : Nat) : DpType := match n with | 0 => .s8 | 1 => .z8 | _ => .sz
def DpType.code : DpType → Nat | .s8 => 0 | .z8 => 1 | .sz => 2
def voteOf (n : Nat) : VoteKind := match n with | 0 => .all | 1 => .any | _ => .same
def VoteKind.code : VoteKind → Nat | .all => 0 | .any => 1 | .same => 2
def shflOf (n : Nat) : ShflMode := match n with | 0 => .idx | 1 => .up | 2 => .down | _ => .xor
def ShflMode.code : ShflMode → Nat | .idx => 0 | .up => 1 | .down => 2 | .xor => 3
def packOf (n : Nat) : PackKind := match n with | 0 => .toF16x2 | 1 => .toBf16x2 | 2 => .ofF16x2 | _ => .ofBf16x2
def PackKind.code : PackKind → Nat | .toF16x2 => 0 | .toBf16x2 => 1 | .ofF16x2 => 2 | .ofBf16x2 => 3

def yes (i : Instr) : Named := some (i, true)
/-- With D, or A, or both required to be zero (R95, R100 to R102). -/
def zd (f : Fields) (i : Instr) : Named := some (i, f.d == 0)
def zda (f : Fields) (i : Instr) : Named := some (i, f.d == 0 && f.a == 0)
def za (f : Fields) (i : Instr) : Named := some (i, f.a == 0)

/-- SHI (R94): all 128 codes are valid. -/
def decShi (m : Mods) (f : Fields) : Named :=
  yes (.shi m (shOpOf (f.b.toNat / 32)) (BitVec.ofNat 5 f.b.toNat) f.d f.a)

/-- INTA (R94): [0] is the width. -/
def decInta (m : Mods) (f : Fields) : Named :=
  match f.b.toNat / 2, decide (f.b.toNat % 2 = 1) with
  | 0, w => yes (.mov m w f.d f.a)
  | 1, w => yes (.popc m w f.d f.a)
  | 2, w => yes (.clz m w f.d f.a)
  | 3, w => yes (.ctz m w f.d f.a)
  | 4, w => yes (.brev m w f.d f.a)
  | 5, w => yes (.iabs m w f.d f.a)
  | 6, w => yes (.ineg m w f.d f.a)
  | _, _ => none

/-- INTB (R94). -/
def decIntb (m : Mods) (f : Fields) : Named :=
  match f.b.toNat with
  | 0x00 => yes (.iaddB64 m f.d f.a)
  | 0x01 => yes (.isubB64 m f.d f.a)
  | 0x02 => yes (.imulB64 m f.d f.a)
  | 0x03 => yes (.iaddcB32 m f.d f.a)
  | 0x04 => yes (.isubbB32 m f.d f.a)
  | 0x05 => yes (.iaddcB64 m f.d f.a)
  | 0x06 => yes (.isubbB64 m f.d f.a)
  | 0x0C => yes (.imadw m true f.d f.a)
  | 0x0D => yes (.imadw m false f.d f.a)
  | 0x24 => yes (.dp4 m .s8 f.d f.a)
  | 0x25 => yes (.dp4 m .z8 f.d f.a)
  | 0x26 => yes (.dp4 m .sz f.d f.a)
  | 0x28 => yes (.shlB64 m f.d f.a)
  | 0x29 => yes (.shrB64 m f.d f.a)
  | 0x2A => yes (.sarB64 m f.d f.a)
  | 0x2B => yes (.rotlB32 m f.d f.a)
  | 0x2C => yes (.rotlB64 m f.d f.a)
  | 0x30 => yes (.andB64 m f.d f.a)
  | 0x31 => yes (.orB64 m f.d f.a)
  | 0x32 => yes (.xorB64 m f.d f.a)
  | n =>
    match n / 4, iTypeOf (n % 4) with
    | 2, t => yes (.imulh m t f.d f.a)
    | 4, t => yes (.idiv m t f.d f.a)
    | 5, t => yes (.irem m t f.d f.a)
    | 6, t => yes (.imin m t f.d f.a)
    | 7, t => yes (.imax m t f.d f.a)
    | 8, t => yes (.iclamp m t f.d f.a)
    | _, _ => none

/-- PRED (R95). -/
def decPred (m : Mods) (f : Fields) : Named :=
  match f.b.toNat with
  | 0 => yes (.pmov m f.d f.a)
  | 1 => some (.pset m f.d (f.a.getLsbD 0), f.a.toNat < 2)
  | 2 => some (.p2g m f.d (f.a.setWidth 2), f.a.toNat < 4)
  | 3 => some (.g2p m (f.d.setWidth 2) f.a, f.d.toNat < 4)
  | 4 => yes (.plop3 m f.d f.a)
  | _ => none

/-- FPA and FPB (R96): operation in [6:3], format in [2:0]. -/
def decFpa (m : Mods) (f : Fields) : Named :=
  match f.b.toNat / 8, fFmtOf (f.b.toNat % 8) with
  | 0, some t => yes (.fabs m t f.d f.a)
  | 1, some t => yes (.fneg m t f.d f.a)
  | 2, some t => yes (.fsqrt m t f.d f.a)
  | 3, some t => yes (.frcp m t f.d f.a)
  | 4, some t => yes (.frsqrt m t f.d f.a)
  | 5, some t => yes (.fexp2 m t f.d f.a)
  | 6, some t => yes (.flog2 m t f.d f.a)
  | 7, some t => yes (.fsinpi m t f.d f.a)
  | 8, some t => yes (.fcospi m t f.d f.a)
  | 9, some t => yes (.ftanh m t f.d f.a)
  | 10, some t => yes (.fclass m t f.d f.a)
  | 11, some t => yes (.fgetexp m t f.d f.a)
  | 12, some t => yes (.fgetman m t f.d f.a)
  | 13, some t => yes (.frint m t f.d f.a)
  | _, _ => none
def decFpb (m : Mods) (f : Fields) : Named :=
  match f.b.toNat / 8, fFmtOf (f.b.toNat % 8) with
  | 0, some t => yes (.fadd m t f.d f.a)
  | 1, some t => yes (.fsub m t f.d f.a)
  | 2, some t => yes (.fmul m t f.d f.a)
  | 3, some t => yes (.ffma m t f.d f.a)
  | 4, some t => yes (.fmin m t f.d f.a)
  | 5, some t => yes (.fmax m t f.d f.a)
  | 6, some t => yes (.fcopysign m t f.d f.a)
  | 7, some t => yes (.fdiv m t f.d f.a)
  | 8, some t => yes (.fscale m t f.d f.a)
  | 9, some t => yes (.fdot2 m t f.d f.a)
  | _, _ => none

/-- CVT (R97). -/
def decCvt (m : Mods) (f : Fields) : Named :=
  if f.b.toNat < 64 then yes (.cvt m (cvtTypeOf (f.b.toNat / 8)) (cvtTypeOf (f.b.toNat % 8)) f.d f.a)
  else if f.b.toNat < 68 then yes (.cvtPack m (packOf (f.b.toNat % 4)) f.d f.a)
  else none

/-- XL (R98). -/
def decXl (m : Mods) (f : Fields) : Named :=
  if f.b.toNat < 32 then yes (.lred m (redOpOf (f.b.toNat / 4)) (redTypeOf (f.b.toNat % 4)) f.d f.a)
  else if f.b.toNat < 64 then
    match scanOpOf (f.b.toNat / 4 % 4) with
    | some o => yes (.lscan m (decide (f.b.toNat / 16 % 2 = 1)) o (redTypeOf (f.b.toNat % 4)) f.d f.a)
    | none => none
  else
    match f.b.toNat with
    | 0x40 => yes (.vote m .all f.d f.a)
    | 0x41 => yes (.vote m .any f.d f.a)
    | 0x42 => yes (.vote m .same f.d f.a)
    | 0x44 => yes (.ballot m f.d f.a)
    | 0x48 => yes (.matchLanes m false f.d f.a)
    | 0x49 => yes (.matchLanes m true f.d f.a)
    | 0x50 => yes (.shfl m .idx f.d f.a)
    | 0x51 => yes (.shfl m .up f.d f.a)
    | 0x52 => yes (.shfl m .down f.d f.a)
    | 0x53 => yes (.shfl m .xor f.d f.a)
    | _ => none

/-- CTL (R95). -/
def decCtl (m : Mods) (f : Fields) : Named :=
  match f.b.toNat with
  | 0x00 => zd f (.jmp m f.a)
  | 0x01 => yes (.callr m f.d f.a)
  | 0x02 => zd f (.ret m f.a)
  | 0x03 => zd f (.brx m f.a)
  | 0x04 => zda f (.exit m)
  | 0x05 => zd f (.trap m f.a)
  | 0x06 => zda f (.brk m)
  | 0x07 => zda f (.nop m)
  | 0x08 => zda f (.yield m)
  | 0x09 => zda f (.pause m)
  | 0x0A => zda f (.wsb m)
  | 0x10 => some (.rjEnter m (f.a.setWidth 4), f.d == 0 && decide (f.a.toNat < 16))
  | 0x11 => some (.rjQuit m (f.a.setWidth 4), f.d == 0 && decide (f.a.toNat < 16))
  | 0x12 => some (.rjWait m (f.a.setWidth 4), f.d == 0 && decide (f.a.toNat < 16))
  | 0x13 => some (.rjGet m f.d (f.a.setWidth 4), decide (f.a.toNat < 16))
  | 0x14 => some (.rjSet m f.d (f.a.setWidth 4), decide (f.a.toNat < 16))
  | 0x15 => some (.rjClr m (f.a.setWidth 4), f.d == 0 && decide (f.a.toNat < 16))
  | _ => none

/-- MEM (R99): direction, space, type and order. -/
def decMem (m : Mods) (f : Fields) : Named :=
  match f.b.toNat with
  | 0x30 => yes (.ldkLow m f.d f.a)
  | 0x31 => yes (.ldkHigh m f.d f.a)
  | 0x32 => yes (.ldkReg m f.d f.a)
  | 0x38 => zd f (.prefG m f.a)
  | n =>
    match spaceOf (n / 16 % 4), memTypeOf (n / 2 % 8), decide (n / 64 = 1) with
    | some u, some t, false => yes (.ld m u t (decide (n % 2 = 1)) f.d f.a)
    | some u, some t, true => yes (.st m u t (decide (n % 2 = 1)) f.d f.a)
    | _, _, _ => none

/-- SYNC (R100, R187). -/
def decSync (m : Mods) (f : Fields) : Named :=
  match f.b.toNat with
  | 0x16 => yes (.cas m false f.d f.a)
  | 0x17 => yes (.cas m true f.d f.a)
  | 0x40 => some (.fncIss m f.d (scopeOf f.a.toNat), decide (f.a.toNat < 4))
  | 0x41 => zd f (.fncWt m f.a)
  | 0x44 => zd f (.ownGive m f.a)
  | 0x45 => zd f (.ownTake m f.a)
  | 0x46 => yes (.ownTest m f.d f.a)
  | 0x48 => yes (.rngWait m f.d f.a)
  | 0x49 => zd f (.rngRel m f.a)
  | 0x4A => zd f (.mrgFree m f.a)
  | 0x4C => yes (.bbInit m f.d f.a)
  | 0x4D => yes (.bbExp m f.d f.a)
  | 0x4E => yes (.bbArv m f.d f.a)
  | 0x4F => zd f (.bbWt m f.a)
  | 0x50 => yes (.bop m f.d f.a)
  | 0x54 => yes (.halloc m f.d f.a)
  | 0x55 => zd f (.hfree m f.a)
  | n =>
    match atomOpOf (n / 2 % 16), n / 32 with
    | some o, 0 => yes (.atom m o (decide (n % 2 = 1)) f.d f.a)
    | some o, 1 => yes (.redOp m o (decide (n % 2 = 1)) f.d f.a)
    | _, _ => none

/-- ENG (R101). -/
def decEng (m : Mods) (f : Fields) : Named :=
  match f.b.toNat with
  | 0x00 => zd f (.obRsv m f.a)
  | 0x01 => zd f (.obRel m f.a)
  | 0x04 => zd f (.tcCopy m f.a)
  | 0x05 => zd f (.tcOb m f.a)
  | 0x06 => zd f (.tcMcast m f.a)
  | 0x07 => yes (.permLoad m f.d f.a)
  | 0x10 => zd f (.mxCfg m f.a)
  | 0x11 => zd f (.mxStat m f.a)
  | 0x12 => zda f (.mxSwap m)
  | 0x13 => zd f (.mxStrm m f.a)
  | 0x14 => yes (.mxDrain m f.d f.a)
  | 0x15 => zd f (.mxZero m f.a)
  | 0x16 => zda f (.mxWait m)
  | 0x17 => zd f (.mxSave m f.a)
  | 0x18 => zd f (.mxRest m f.a)
  | 0x40 => yes (.tokJoin m f.d f.a)
  | 0x41 => yes (.tokTest m f.d f.a)
  | 0x42 => zd f (.tokWait m f.a)
  | 0x44 => yes (.collRun m f.d f.a)
  | 0x45 => yes (.collWt m f.d f.a)
  | 0x48 => yes (.reelGo m f.d f.a)
  | 0x49 => yes (.reelStat m f.d f.a)
  | 0x4C => zd f (.evtSig m f.a)
  | 0x4D => zd f (.evtWt m f.a)
  | n =>
    match n / 8, decide (n / 4 % 2 = 1), decide (n / 2 % 2 = 1), decide (n % 2 = 1) with
    | 4, false, dep, spr => yes (.rst m dep spr f.d f.a)
    | 5, false, dep, spr => yes (.rld m dep spr f.d f.a)
    | 6, tok, dep, spr => yes (.ratom m tok dep spr f.d f.a)
    | 7, tok, dep, spr => yes (.rcopy m tok dep spr f.d f.a)
    | _, _, _, _ => none

/-- SYS (R102). -/
def decSys (m : Mods) (f : Fields) : Named :=
  match f.b.toNat with
  | 0x00 => zd f (.regGrow m f.a)
  | 0x01 => zd f (.regShrink m f.a)
  | 0x04 => za f (.qpush m f.d)
  | 0x05 => za f (.qpop m f.d)
  | 0x08 => yes (.spawn m f.d f.a)
  | 0x0C => zda f (.tret m)
  | 0x0D => zda f (.ctxPark m)
  | 0x0E => zd f (.sysc m f.a)
  | 0x10 => yes (.vmCommit m f.d f.a)
  | 0x11 => yes (.vmFree m f.d f.a)
  | 0x12 => yes (.vmProt m f.d f.a)
  | 0x13 => yes (.vmDup m f.d f.a)
  | 0x14 => yes (.vmSplit m f.d f.a)
  | 0x15 => zd f (.tlbInv m f.a)
  | 0x18 => zd f (.detRng m f.a)
  | 0x19 => zda f (.detFlush m)
  | 0x1A => zd f (.recMark m f.a)
  | 0x20 => zda f (.tbar m)
  | 0x21 => za f (.tbarArv m f.d)
  | 0x22 => zd f (.tbarWt m f.a)
  | 0x24 => zda f (.cbar m)
  | 0x25 => za f (.cbarArv m f.d)
  | 0x26 => zd f (.cbarWt m f.a)
  | _ => none

/-- The operand fields read by the formats FL, FB, FQ and FC (R70). -/
def Fields.imm14 (f : Fields) : BitVec 14 := f.b ++ f.a
def Fields.off13 (f : Fields) : BitVec 13 := f.b ++ f.a.extractLsb' 1 6
def Fields.fnegB (f : Fields) : Bool := f.a.getLsbD 0
def Fields.fqW (f : Fields) : Bool := f.d.getLsbD 6
def Fields.fqP (f : Fields) : BitVec 6 := f.d.setWidth 6
def Fields.csr (f : Fields) : BitVec 12 := f.b.setWidth 5 ++ f.a

/-- CSR (R103). -/
def decCsr (m : Mods) (f : Fields) : Named :=
  match f.b.toNat / 32 with
  | 0 => yes (.csrr m f.csr f.d)
  | 1 => yes (.csrw m f.csr f.d)
  | 2 => yes (.csrx m f.csr f.d)
  | _ => none

/-- The instruction that a base word names (R93 to R103); `none` is the cause OPCODE. -/
def nameBase (m : Mods) (f : Fields) : Named :=
  match f.maj.toNat with
  | 1 => yes (.iadd m f.d f.a f.b)
  | 2 => yes (.isub m f.d f.a f.b)
  | 3 => yes (.imul m f.d f.a f.b)
  | 4 => yes (.imad m f.d f.a f.b)
  | 5 => yes (.andB32 m f.d f.a f.b)
  | 6 => yes (.orB32 m f.d f.a f.b)
  | 7 => yes (.xorB32 m f.d f.a f.b)
  | 8 => yes (.shl m f.d f.a f.b)
  | 9 => yes (.shr m f.d f.a f.b)
  | 10 => yes (.sar m f.d f.a f.b)
  | 11 => yes (.lea m f.d f.a f.b)
  | 12 => yes (.sel m f.d f.a f.b)
  | 13 => yes (.bfx m f.d f.a f.b)
  | 14 => yes (.bfi m f.d f.a f.b)
  | 15 => yes (.prmt m f.d f.a f.b)
  | 16 => yes (.shf m f.d f.a f.b)
  | 17 => yes (.lop3 m f.d f.a f.b)
  | 18 => yes (.iaddi m f.d f.a f.b)
  | 19 => decShi m f
  | 20 => if m.lit.isSome then yes (.movl m f.d f.imm14) else yes (.movi m f.d f.imm14)
  | 21 => yes (.movh m f.d f.imm14)
  | 22 => decInta m f
  | 23 => decIntb m f
  | 24 => decPred m f
  | 25 => yes (.icmpEq m f.fqW f.fqP f.a f.b)
  | 26 => yes (.icmpNe m f.fqW f.fqP f.a f.b)
  | 27 => yes (.icmpLtS m f.fqW f.fqP f.a f.b)
  | 28 => yes (.icmpLtZ m f.fqW f.fqP f.a f.b)
  | 29 => yes (.faddF32 m f.d f.a f.b)
  | 30 => yes (.fsubF32 m f.d f.a f.b)
  | 31 => yes (.fmulF32 m f.d f.a f.b)
  | 32 => yes (.ffmaF32 m f.d f.a f.b)
  | 33 => yes (.faddF64 m f.d f.a f.b)
  | 34 => yes (.fmulF64 m f.d f.a f.b)
  | 35 => yes (.ffmaF64 m f.d f.a f.b)
  | 36 => yes (.fcmpEq m f.fqW f.fqP f.a f.b)
  | 37 => yes (.fcmpLt m f.fqW f.fqP f.a f.b)
  | 38 => yes (.fcmpLe m f.fqW f.fqP f.a f.b)
  | 39 => yes (.fcmpUn m f.fqW f.fqP f.a f.b)
  | 40 => decFpa m f
  | 41 => decFpb m f
  | 42 => decCvt m f
  | 43 => decXl m f
  | 47 => yes (.bra m f.off13 f.fnegB f.d)
  | 48 => yes (.call m f.off13 f.fnegB f.d)
  | 49 => decCtl m f
  | 50 => yes (.ldGB32 m f.b f.d f.a)
  | 51 => yes (.stGB32 m f.b f.d f.a)
  | 52 => yes (.ldGB64 m f.b f.d f.a)
  | 53 => yes (.stGB64 m f.b f.d f.a)
  | 54 => yes (.ldGB128 m f.b f.d f.a)
  | 55 => yes (.stGB128 m f.b f.d f.a)
  | 56 => yes (.ldSB32 m f.b f.d f.a)
  | 57 => yes (.stSB32 m f.b f.d f.a)
  | 58 => decMem m f
  | 59 => decSync m f
  | 60 => decEng m f
  | 61 => decSys m f
  | 62 => decCsr m f
  | _ => none

/-- The outcome of decoding: an instruction, or the cause that R91 gives. -/
inductive Decoded
  | ok (i : Instr)
  | bad (c : DecCause)
  deriving DecidableEq, Repr

/-- A base word under its option and literal words. `rz` tells whether the option word's reserved bits are zero.
The first cause of the R91 table that applies is the one reported (R92). -/
def decodeWord (opt : Option Opt) (rz : Bool) (lit : Option (BitVec 29)) (w : W32) : Decoded :=
  let f := Fields.ofWord w
  let m : Mods := ⟨opt, lit, f.s, f.c⟩
  match nameBase m f with
  | none => .bad .opcode
  | some (i, zok) =>
    if !i.formOk then .bad .opcode
    else if !pfxOk i.acc m then .bad .pfx
    else if !(zok && rz && modsRsvdOk i.acc m) then .bad .rsvd
    else .ok i

/-- An option word (R73): its fields, and whether [31:25] are zero. -/
def optOf (w : W32) : Opt × Bool :=
  ({ sat := w.getLsbD 24, een := w.getLsbD 23, e := w.extractLsb' 16 7, z := w.getLsbD 15, rnd := w.extractLsb' 12 3,
     ge := w.getLsbD 11, gn := w.getLsbD 10, gp := w.extractLsb' 3 7 }, w.extractLsb' 25 7 == 0)
def Opt.toWord (o : Opt) : W32 :=
  0#7 ++ BitVec.ofBool o.sat ++ BitVec.ofBool o.een ++ o.e ++ BitVec.ofBool o.z ++ o.rnd ++ BitVec.ofBool o.ge ++
    BitVec.ofBool o.gn ++ o.gp ++ 1#3
def litOf (w : W32) : BitVec 29 := w.extractLsb' 3 29
def litWord (l : BitVec 29) : W32 := l ++ 5#3

/-- The kind of a word (R67), with the two kinds of word that stand before a base word told apart. -/
inductive WordKind | base | optW | litW | pairW | bad
  deriving DecidableEq, Repr
def kindOf (w : W32) : WordKind :=
  match w.toNat % 4 with
  | 0 => .base
  | 1 => if w.getLsbD 2 then .litW else .optW
  | 2 => .pairW
  | _ => .bad

/-- The majors that take no words before them (R75): `bra` and `call`. -/
def isFB (w : W32) : Bool := (w.extractLsb' 5 6).toNat == 47 || (w.extractLsb' 5 6).toNat == 48

/-- A second option or literal word, or the two out of order: PREFIX, unless the base word after them is no instruction. -/
def afterTwo (ws : List W32) : Decoded × Nat :=
  match ws with
  | [] => (.bad .pfx, 2)
  | c :: _ => (if kindOf c = .base ∧ decodeWord none true none c = .bad .opcode then .bad .opcode else .bad .pfx, 3)
/-- One instruction from the words that remain of its packet, and the number of words it takes (R77, R91). An
option word stands before a literal word, and both before a base word that is no FB major. -/
def decodeInsn (ws : List W32) : Decoded × Nat :=
  match ws with
  | [] => (.bad .opcode, 0)
  | w :: r =>
    match kindOf w with
    | .bad => (.bad .opcode, 1)
    | .pairW => (.bad .dict, 1)
    | .base => (decodeWord none true none w, 1)
    | .litW =>
      match r with
      | b :: _ =>
        if kindOf b = .base then
          (if (nameBase ⟨none, some (litOf w), (Fields.ofWord b).s, (Fields.ofWord b).c⟩ (Fields.ofWord b)).isNone then .bad .opcode
           else if isFB b then .bad .pfx else decodeWord none true (some (litOf w)) b, 2)
        else if kindOf b = .litW ∨ kindOf b = .optW then afterTwo r.tail
        else (.bad .pfx, 1)
      | [] => (.bad .pfx, 1)
    | .optW =>
      match r with
      | [] => (.bad .pfx, 1)
      | b :: r' =>
        match kindOf b with
        | .base => (if isFB b then .bad .pfx else decodeWord (some (optOf w).1) (optOf w).2 none b, 2)
        | .litW =>
          match r' with
          | c :: _ =>
            if kindOf c = .base then
              (if isFB c then .bad .pfx else decodeWord (some (optOf w).1) (optOf w).2 (some (litOf b)) c, 3)
            else (.bad .pfx, 2)
          | [] => (.bad .pfx, 2)
        | .optW => afterTwo r'
        | _ => (.bad .pfx, 1)

/-- A dictionary code (R78). -/
structure Code where
  rsv : Bool
  v : Bool
  s : BitVec 2
  c : Bool
  idx : BitVec 10
  deriving DecidableEq, Repr
def codeOf (x : BitVec 15) : Code :=
  ⟨x.getLsbD 14, x.getLsbD 13, x.extractLsb' 11 2, x.getLsbD 10, x.extractLsb' 0 10⟩
def codeA (w : W32) : BitVec 15 := w.extractLsb' 2 15
def codeB (w : W32) : BitVec 15 := w.extractLsb' 17 15

/-- The word a code executes: its entry with the code's C and S in place of bits [4:2] (R79). -/
def entryWord (e : W32) (k : Code) : W32 :=
  e.extractLsb' 5 27 ++ k.s ++ BitVec.ofBool k.c ++ e.extractLsb' 0 2

/-- A code of a pair word against the kernel's dictionary (R78, R79, R91). An empty code is zero in all its bits, and
names no entry (log 50). -/
def decodeCode (dict : Option (List W32)) (x : BitVec 15) : Decoded :=
  match dict with
  | none => .bad .dict
  | some ws =>
    let k := codeOf x
    if !k.v then .bad .rsvd
    else match ws[k.idx.toNat]? with
    | none => .bad .dict
    | some e =>
      if kindOf e ≠ .base then .bad .dict
      else match decodeWord none true none (entryWord e k) with
      | .bad .opcode => .bad .opcode
      | .bad .pfx => .bad .pfx
      | d => if k.rsv then .bad .rsvd else d

/-! ### The encoder -/

/-- The operand fields and major of an instruction, from the same tables (R70, R93 to R103). -/
def Instr.fields : Instr → Option (Nat × Reg × Reg × Reg)
  | .iadd _ d a b => some (1, d, a, b)
  | .isub _ d a b => some (2, d, a, b)
  | .imul _ d a b => some (3, d, a, b)
  | .imad _ d a b => some (4, d, a, b)
  | .andB32 _ d a b => some (5, d, a, b)
  | .orB32 _ d a b => some (6, d, a, b)
  | .xorB32 _ d a b => some (7, d, a, b)
  | .shl _ d a b => some (8, d, a, b)
  | .shr _ d a b => some (9, d, a, b)
  | .sar _ d a b => some (10, d, a, b)
  | .lea _ d a b => some (11, d, a, b)
  | .sel _ d a b => some (12, d, a, b)
  | .bfx _ d a b => some (13, d, a, b)
  | .bfi _ d a b => some (14, d, a, b)
  | .prmt _ d a b => some (15, d, a, b)
  | .shf _ d a b => some (16, d, a, b)
  | .lop3 _ d a b => some (17, d, a, b)
  | .iaddi _ d a i => some (18, d, a, i)
  | .shi _ o n d a => some (19, d, a, BitVec.ofNat 2 o.code ++ n)
  | .movi _ d i => some (20, d, i.extractLsb' 0 7, i.extractLsb' 7 7)
  | .movl _ d i => some (20, d, i.extractLsb' 0 7, i.extractLsb' 7 7)
  | .movh _ d i => some (21, d, i.extractLsb' 0 7, i.extractLsb' 7 7)
  | .mov _ w d a => some (22, d, a, BitVec.ofNat 7 (0 + w.toNat))
  | .popc _ w d a => some (22, d, a, BitVec.ofNat 7 (2 + w.toNat))
  | .clz _ w d a => some (22, d, a, BitVec.ofNat 7 (4 + w.toNat))
  | .ctz _ w d a => some (22, d, a, BitVec.ofNat 7 (6 + w.toNat))
  | .brev _ w d a => some (22, d, a, BitVec.ofNat 7 (8 + w.toNat))
  | .iabs _ w d a => some (22, d, a, BitVec.ofNat 7 (10 + w.toNat))
  | .ineg _ w d a => some (22, d, a, BitVec.ofNat 7 (12 + w.toNat))
  | .iaddB64 _ d a => some (23, d, a, 0x00#7)
  | .isubB64 _ d a => some (23, d, a, 0x01#7)
  | .imulB64 _ d a => some (23, d, a, 0x02#7)
  | .iaddcB32 _ d a => some (23, d, a, 0x03#7)
  | .isubbB32 _ d a => some (23, d, a, 0x04#7)
  | .iaddcB64 _ d a => some (23, d, a, 0x05#7)
  | .isubbB64 _ d a => some (23, d, a, 0x06#7)
  | .imulh _ t d a => some (23, d, a, BitVec.ofNat 7 (8 + t.code))
  | .imadw _ sg d a => some (23, d, a, BitVec.ofNat 7 (if sg then 12 else 13))
  | .idiv _ t d a => some (23, d, a, BitVec.ofNat 7 (16 + t.code))
  | .irem _ t d a => some (23, d, a, BitVec.ofNat 7 (20 + t.code))
  | .imin _ t d a => some (23, d, a, BitVec.ofNat 7 (24 + t.code))
  | .imax _ t d a => some (23, d, a, BitVec.ofNat 7 (28 + t.code))
  | .iclamp _ t d a => some (23, d, a, BitVec.ofNat 7 (32 + t.code))
  | .dp4 _ t d a => some (23, d, a, BitVec.ofNat 7 (0x24 + t.code))
  | .shlB64 _ d a => some (23, d, a, 0x28#7)
  | .shrB64 _ d a => some (23, d, a, 0x29#7)
  | .sarB64 _ d a => some (23, d, a, 0x2A#7)
  | .rotlB32 _ d a => some (23, d, a, 0x2B#7)
  | .rotlB64 _ d a => some (23, d, a, 0x2C#7)
  | .andB64 _ d a => some (23, d, a, 0x30#7)
  | .orB64 _ d a => some (23, d, a, 0x31#7)
  | .xorB64 _ d a => some (23, d, a, 0x32#7)
  | .pmov _ d a => some (24, d, a, 0x00#7)
  | .pset _ d v => some (24, d, BitVec.ofNat 7 v.toNat, 0x01#7)
  | .p2g _ d k => some (24, d, k.setWidth 7, 0x02#7)
  | .g2p _ k a => some (24, k.setWidth 7, a, 0x03#7)
  | .plop3 _ d a => some (24, d, a, 0x04#7)
  | .icmpEq _ w p a b => some (25, BitVec.ofBool w ++ p, a, b)
  | .icmpNe _ w p a b => some (26, BitVec.ofBool w ++ p, a, b)
  | .icmpLtS _ w p a b => some (27, BitVec.ofBool w ++ p, a, b)
  | .icmpLtZ _ w p a b => some (28, BitVec.ofBool w ++ p, a, b)
  | .faddF32 _ d a b => some (29, d, a, b)
  | .fsubF32 _ d a b => some (30, d, a, b)
  | .fmulF32 _ d a b => some (31, d, a, b)
  | .ffmaF32 _ d a b => some (32, d, a, b)
  | .faddF64 _ d a b => some (33, d, a, b)
  | .fmulF64 _ d a b => some (34, d, a, b)
  | .ffmaF64 _ d a b => some (35, d, a, b)
  | .fcmpEq _ w p a b => some (36, BitVec.ofBool w ++ p, a, b)
  | .fcmpLt _ w p a b => some (37, BitVec.ofBool w ++ p, a, b)
  | .fcmpLe _ w p a b => some (38, BitVec.ofBool w ++ p, a, b)
  | .fcmpUn _ w p a b => some (39, BitVec.ofBool w ++ p, a, b)
  | .fabs _ f d a => some (40, d, a, BitVec.ofNat 7 (0 + f.code))
  | .fneg _ f d a => some (40, d, a, BitVec.ofNat 7 (8 + f.code))
  | .fsqrt _ f d a => some (40, d, a, BitVec.ofNat 7 (16 + f.code))
  | .frcp _ f d a => some (40, d, a, BitVec.ofNat 7 (24 + f.code))
  | .frsqrt _ f d a => some (40, d, a, BitVec.ofNat 7 (32 + f.code))
  | .fexp2 _ f d a => some (40, d, a, BitVec.ofNat 7 (40 + f.code))
  | .flog2 _ f d a => some (40, d, a, BitVec.ofNat 7 (48 + f.code))
  | .fsinpi _ f d a => some (40, d, a, BitVec.ofNat 7 (56 + f.code))
  | .fcospi _ f d a => some (40, d, a, BitVec.ofNat 7 (64 + f.code))
  | .ftanh _ f d a => some (40, d, a, BitVec.ofNat 7 (72 + f.code))
  | .fclass _ f d a => some (40, d, a, BitVec.ofNat 7 (80 + f.code))
  | .fgetexp _ f d a => some (40, d, a, BitVec.ofNat 7 (88 + f.code))
  | .fgetman _ f d a => some (40, d, a, BitVec.ofNat 7 (96 + f.code))
  | .frint _ f d a => some (40, d, a, BitVec.ofNat 7 (104 + f.code))
  | .fadd _ f d a => some (41, d, a, BitVec.ofNat 7 (0 + f.code))
  | .fsub _ f d a => some (41, d, a, BitVec.ofNat 7 (8 + f.code))
  | .fmul _ f d a => some (41, d, a, BitVec.ofNat 7 (16 + f.code))
  | .ffma _ f d a => some (41, d, a, BitVec.ofNat 7 (24 + f.code))
  | .fmin _ f d a => some (41, d, a, BitVec.ofNat 7 (32 + f.code))
  | .fmax _ f d a => some (41, d, a, BitVec.ofNat 7 (40 + f.code))
  | .fcopysign _ f d a => some (41, d, a, BitVec.ofNat 7 (48 + f.code))
  | .fdiv _ f d a => some (41, d, a, BitVec.ofNat 7 (56 + f.code))
  | .fscale _ f d a => some (41, d, a, BitVec.ofNat 7 (64 + f.code))
  | .fdot2 _ f d a => some (41, d, a, BitVec.ofNat 7 (72 + f.code))
  | .cvt _ x y d a => some (42, d, a, BitVec.ofNat 7 (8 * x.code + y.code))
  | .cvtPack _ k d a => some (42, d, a, BitVec.ofNat 7 (64 + k.code))
  | .lred _ o t d a => some (43, d, a, BitVec.ofNat 7 (4 * o.code + t.code))
  | .lscan _ e o t d a => some (43, d, a, BitVec.ofNat 7 (32 + 16 * e.toNat + 4 * o.code + t.code))
  | .vote _ v d a => some (43, d, a, BitVec.ofNat 7 (0x40 + v.code))
  | .ballot _ d a => some (43, d, a, 0x44#7)
  | .matchLanes _ w d a => some (43, d, a, BitVec.ofNat 7 (0x48 + w.toNat))
  | .shfl _ k d a => some (43, d, a, BitVec.ofNat 7 (0x50 + k.code))
  | .bra _ o n p => some (47, p, o.extractLsb' 0 6 ++ BitVec.ofBool n, o.extractLsb' 6 7)
  | .call _ o n p => some (48, p, o.extractLsb' 0 6 ++ BitVec.ofBool n, o.extractLsb' 6 7)
  | .jmp _ a => some (49, 0#7, a, 0x00#7)
  | .callr _ d a => some (49, d, a, 0x01#7)
  | .ret _ a => some (49, 0#7, a, 0x02#7)
  | .brx _ a => some (49, 0#7, a, 0x03#7)
  | .exit _ => some (49, 0#7, 0#7, 0x04#7)
  | .trap _ n => some (49, 0#7, n, 0x05#7)
  | .brk _ => some (49, 0#7, 0#7, 0x06#7)
  | .nop _ => some (49, 0#7, 0#7, 0x07#7)
  | .yield _ => some (49, 0#7, 0#7, 0x08#7)
  | .pause _ => some (49, 0#7, 0#7, 0x09#7)
  | .wsb _ => some (49, 0#7, 0#7, 0x0A#7)
  | .rjEnter _ n => some (49, 0#7, n.setWidth 7, 0x10#7)
  | .rjQuit _ n => some (49, 0#7, n.setWidth 7, 0x11#7)
  | .rjWait _ n => some (49, 0#7, n.setWidth 7, 0x12#7)
  | .rjGet _ d n => some (49, d, n.setWidth 7, 0x13#7)
  | .rjSet _ d n => some (49, d, n.setWidth 7, 0x14#7)
  | .rjClr _ n => some (49, 0#7, n.setWidth 7, 0x15#7)
  | .ldGB32 _ o d a => some (50, d, a, o)
  | .stGB32 _ o d a => some (51, d, a, o)
  | .ldGB64 _ o d a => some (52, d, a, o)
  | .stGB64 _ o d a => some (53, d, a, o)
  | .ldGB128 _ o d a => some (54, d, a, o)
  | .stGB128 _ o d a => some (55, d, a, o)
  | .ldSB32 _ o d a => some (56, d, a, o)
  | .stSB32 _ o d a => some (57, d, a, o)
  | .ld _ u t r d a => some (58, d, a, BitVec.ofNat 7 (16 * u.code + 2 * t.code + r.toNat))
  | .st _ u t r d a => some (58, d, a, BitVec.ofNat 7 (64 + 16 * u.code + 2 * t.code + r.toNat))
  | .ldkLow _ d n => some (58, d, n, 0x30#7)
  | .ldkHigh _ d n => some (58, d, n, 0x31#7)
  | .ldkReg _ d a => some (58, d, a, 0x32#7)
  | .prefG _ a => some (58, 0#7, a, 0x38#7)
  | .atom _ o w d a => some (59, d, a, BitVec.ofNat 7 (2 * o.code + w.toNat))
  | .cas _ w d a => some (59, d, a, BitVec.ofNat 7 (22 + w.toNat))
  | .redOp _ o w d a => some (59, d, a, BitVec.ofNat 7 (32 + 2 * o.code + w.toNat))
  | .fncIss _ d n => some (59, d, BitVec.ofNat 7 n.code, 0x40#7)
  | .fncWt _ a => some (59, 0#7, a, 0x41#7)
  | .ownGive _ a => some (59, 0#7, a, 0x44#7)
  | .ownTake _ a => some (59, 0#7, a, 0x45#7)
  | .ownTest _ d a => some (59, d, a, 0x46#7)
  | .rngWait _ d a => some (59, d, a, 0x48#7)
  | .rngRel _ a => some (59, 0#7, a, 0x49#7)
  | .mrgFree _ a => some (59, 0#7, a, 0x4A#7)
  | .bbInit _ d a => some (59, d, a, 0x4C#7)
  | .bbExp _ d a => some (59, d, a, 0x4D#7)
  | .bbArv _ d a => some (59, d, a, 0x4E#7)
  | .bbWt _ a => some (59, 0#7, a, 0x4F#7)
  | .bop _ d a => some (59, d, a, 0x50#7)
  | .halloc _ d a => some (59, d, a, 0x54#7)
  | .hfree _ a => some (59, 0#7, a, 0x55#7)
  | .obRsv _ a => some (60, 0#7, a, 0x00#7)
  | .obRel _ a => some (60, 0#7, a, 0x01#7)
  | .tcCopy _ a => some (60, 0#7, a, 0x04#7)
  | .tcOb _ a => some (60, 0#7, a, 0x05#7)
  | .tcMcast _ a => some (60, 0#7, a, 0x06#7)
  | .permLoad _ d a => some (60, d, a, 0x07#7)
  | .mxCfg _ a => some (60, 0#7, a, 0x10#7)
  | .mxStat _ a => some (60, 0#7, a, 0x11#7)
  | .mxSwap _ => some (60, 0#7, 0#7, 0x12#7)
  | .mxStrm _ a => some (60, 0#7, a, 0x13#7)
  | .mxDrain _ d a => some (60, d, a, 0x14#7)
  | .mxZero _ a => some (60, 0#7, a, 0x15#7)
  | .mxWait _ => some (60, 0#7, 0#7, 0x16#7)
  | .mxSave _ a => some (60, 0#7, a, 0x17#7)
  | .mxRest _ a => some (60, 0#7, a, 0x18#7)
  | .rst _ dep spr d a => some (60, d, a, BitVec.ofNat 7 (0x20 + 2 * dep.toNat + spr.toNat))
  | .rld _ dep spr d a => some (60, d, a, BitVec.ofNat 7 (0x28 + 2 * dep.toNat + spr.toNat))
  | .ratom _ tok dep spr d a => some (60, d, a, BitVec.ofNat 7 (0x30 + 4 * tok.toNat + 2 * dep.toNat + spr.toNat))
  | .rcopy _ tok dep spr d a => some (60, d, a, BitVec.ofNat 7 (0x38 + 4 * tok.toNat + 2 * dep.toNat + spr.toNat))
  | .tokJoin _ d a => some (60, d, a, 0x40#7)
  | .tokTest _ d a => some (60, d, a, 0x41#7)
  | .tokWait _ a => some (60, 0#7, a, 0x42#7)
  | .collRun _ d a => some (60, d, a, 0x44#7)
  | .collWt _ d a => some (60, d, a, 0x45#7)
  | .reelGo _ d a => some (60, d, a, 0x48#7)
  | .reelStat _ d a => some (60, d, a, 0x49#7)
  | .evtSig _ a => some (60, 0#7, a, 0x4C#7)
  | .evtWt _ a => some (60, 0#7, a, 0x4D#7)
  | .regGrow _ n => some (61, 0#7, n, 0x00#7)
  | .regShrink _ n => some (61, 0#7, n, 0x01#7)
  | .qpush _ d => some (61, d, 0#7, 0x04#7)
  | .qpop _ d => some (61, d, 0#7, 0x05#7)
  | .spawn _ d a => some (61, d, a, 0x08#7)
  | .tret _ => some (61, 0#7, 0#7, 0x0C#7)
  | .ctxPark _ => some (61, 0#7, 0#7, 0x0D#7)
  | .sysc _ n => some (61, 0#7, n, 0x0E#7)
  | .vmCommit _ d a => some (61, d, a, 0x10#7)
  | .vmFree _ d a => some (61, d, a, 0x11#7)
  | .vmProt _ d a => some (61, d, a, 0x12#7)
  | .vmDup _ d a => some (61, d, a, 0x13#7)
  | .vmSplit _ d a => some (61, d, a, 0x14#7)
  | .tlbInv _ a => some (61, 0#7, a, 0x15#7)
  | .detRng _ a => some (61, 0#7, a, 0x18#7)
  | .detFlush _ => some (61, 0#7, 0#7, 0x19#7)
  | .recMark _ a => some (61, 0#7, a, 0x1A#7)
  | .tbar _ => some (61, 0#7, 0#7, 0x20#7)
  | .tbarArv _ d => some (61, d, 0#7, 0x21#7)
  | .tbarWt _ a => some (61, 0#7, a, 0x22#7)
  | .cbar _ => some (61, 0#7, 0#7, 0x24#7)
  | .cbarArv _ d => some (61, d, 0#7, 0x25#7)
  | .cbarWt _ a => some (61, 0#7, a, 0x26#7)
  | .csrr _ r d => some (62, d, r.extractLsb' 0 7, 0#2 ++ r.extractLsb' 7 5)
  | .csrw _ r d => some (62, d, r.extractLsb' 0 7, 1#2 ++ r.extractLsb' 7 5)
  | .csrx _ r d => some (62, d, r.extractLsb' 0 7, 2#2 ++ r.extractLsb' 7 5)
  | .handlerEntry _ => none
  | .regGrant _ => none
  | .yieldRelease _ => none
  | .pauseExpiry _ => none
  | .scoreboardWrite _ _ _ => none
  | .queuePushDone _ => none
  | .queuePopDone _ => none
  | .ownTakeDone _ => none
  | .ringWaitDone _ => none
  | .fencePerformed _ _ => none
  | .accessPerform _ => none
  | .pageWalkComplete _ _ _ _ => none
  | .bankAluApply _ _ => none
  | .bopComplete _ _ => none
  | .vmChangeComplete _ _ => none
  | .evtWaitRecheck _ => none
  | .commandAccept _ => none
  | .engineUnitRead _ _ _ => none
  | .engineUnitWrite _ _ => none
  | .ringSlotFill _ _ => none
  | .planeFillDone _ => none
  | .streamResults _ => none
  | .drainWrite _ => none
  | .mxWaitDone _ => none
  | .obRelDone _ => none
  | .budgetPeriodStart _ => none
  | .launchDoorbell _ _ _ => none
  | .frontEndTake _ _ => none
  | .launchReady _ _ => none
  | .launchRecheckTimer _ _ => none
  | .launchAging _ _ => none
  | .callerHandover _ => none
  | .corpsPlacement _ _ => none
  | .troupePublish _ => none
  | .graphNodeStart _ _ _ => none
  | .graphNodeDone _ _ _ => none
  | .deferredApply _ _ => none
  | .drainDeadline _ _ => none
  | .evictionDeadline _ _ => none
  | .preemptSaveImage _ => none
  | .troupeLeavesCore _ => none
  | .restorePlacement _ _ => none
  | .steerReply _ => none
  | .eccu _ _ _ => none
  | .slotStart _ => none
  | .frameReceive _ _ _ => none
  | .masterLoss _ => none
  | .freeRunExpiry _ => none
  | .laneFailure _ _ _ => none
  | .laneRejoin _ _ _ => none
  | .storePacket _ => none
  | .loadPacket _ => none
  | .replyPacket _ => none
  | .faultReplyPacket _ => none
  | .atomicPacket _ => none
  | .copySegmentPacket _ => none
  | .vectorStorePart _ => none
  | .vectorLoadPart _ => none
  | .vectorAtomicPart _ => none
  | .landedNotice _ => none
  | .releaseNotice _ => none
  | .appliedCountNotice _ => none
  | .forwardedCountNotice _ => none
  | .relayedAppliedCountNotice _ => none
  | .holdFreeNotice _ => none
  | .expiryNotice _ => none
  | .invalidateNotice _ => none
  | .holdExpiry _ _ => none
  | .collEntryStart _ _ _ => none
  | .collEntryComplete _ _ _ => none
  | .reducerFold _ _ => none
  | .reelWait _ => none
  | .reelGather _ => none
  | .reelRun _ => none
  | .reelHandoff _ => none
  | .bootRom _ _ => none
  | .recoveryImage _ _ => none
  | .mrExtend _ _ _ => none
  | .attestationRequest _ _ _ => none
  | .featureGo _ => none
  | .apertureRead _ _ _ => none
  | .apertureWrite _ _ _ _ => none
  | .apertureControlWrite _ _ _ => none
  | .correctedError _ _ _ _ => none
  | .uncorrectableError _ _ _ _ => none
  | .selfTestEnd _ _ _ _ => none
  | .budgetWrite _ _ _ => none
  | .pcapWrite _ _ => none
  | .pstateWrite _ _ => none
  | .temperatureEvent _ _ => none
  | .hostCommandDoorbell _ _ => none
  | .ctxnew _ _ => none
  | .ctxentry _ _ => none
  | .ctxstop _ _ => none
  | .ctxfree _ _ => none
  | .ctxevt _ _ => none
  | .preempt _ _ => none
  | .preend _ _ => none
  | .resume _ _ => none
  | .planload _ _ => none
  | .reelload _ _ => none
  | .hndload _ _ => none
  | .fctlset _ _ => none
  | .masters _ _ => none
  | .vmdup _ _ => none
  | .vmsplit _ _ => none
  | .vmprot _ _ => none
  | .tlbinv _ _ => none
  | .registerWrite _ _ _ _ => none
  | .fixedLatencyResult _ => none
  | .stallWaitExpiry _ => none
  | .powerCapReached _ => none

/-- The words of an instruction, in address order (R77); an event has none. -/
def encode (i : Instr) : List W32 :=
  match i.fields, i.mods with
  | some (maj, d, a, b), some m =>
    (match m.opt with | none => [] | some o => [o.toWord]) ++
    (match m.lit with | none => [] | some l => [litWord l]) ++
    [Fields.toWord ⟨0#2, m.c, m.s, BitVec.ofNat 6 maj, d, a, b⟩]
  | _, _ => []

/-- The words of a table row: bit 0 of `w` is bit 0 of the first word, bit 32 is bit 0 of the second. -/
def tableWords : Nat → Nat → List W32
  | 0, _ => []
  | n + 1, w => BitVec.ofNat 32 w :: tableWords n (w / 2 ^ 32)

/-- The instruction that the decoder reads from the words of a packet that begins with the bits `w`, the rest zero. -/
def decodeTableWord (nbits w : Nat) : Option Instr :=
  match decodeInsn (tableWords 3 (w % 2 ^ nbits)) with
  | (.ok i, _) => some i
  | _ => none

end Sys2Proof
end

