-- ==== Sys2Proof/Config.lean ====
section
/-! DEFINITION. What an implementation fixes and what the spec leaves open: constants with no body, so that nothing
proved here can rest on a value of theirs. Each is named in the assumption log. -/

namespace Sys2Proof

/-- A value the spec leaves open, drawn afresh for each value of the counter `State.fresh` (log 1). -/
opaque Config.freeValue : Nat → W64
/-- A byte the spec leaves open, for a counter value and an offset: window bytes before a fill (R209), blocks of
the heap (R202), the opaque image of `mx.save` (R224), mixed launch records (log 1). -/
opaque Config.freeByte : Nat → Nat → Byte
/-- A choice between two outcomes that the spec leaves open (log 1). -/
opaque Config.freeBit : Nat → Bool
/-- The set of a line cache that holds a line; the spec gives 256 sets and no index function (R264, log 20). -/
opaque Config.lineSet : Nat → Nat
/-- The set of a cluster's translation cache that holds a page of a context; the spec gives 8 ways and no index function (R274,
log 9). -/
opaque Config.tlbSet : W32 → W64 → Nat → Nat
/-- The features this part offers, FEATOFF (R418, log 21): bit 0, which is required, and others; bits 14 to 127 are offered as zero. -/
opaque Config.featOffRaw : BitVec 128
def Config.featOff : BitVec 128 := Config.featOffRaw &&& 0x3FFE#128 ||| 1#128
/-- Silicon revision, serial number and fused rollback counter at manufacture (R417, R419, log 21). -/
opaque Config.rev : W16
opaque Config.serial : W32
opaque Config.rollback0 : BitVec 6
/-- BAR2 is 1 GiB times two to this power: the size to which the link's set-up has resized it (R414, log 117). -/
opaque Config.bar2Log : Fin 7
/-- The public identity key and its Clehus certificate, as the mailbox gives them (R421, log 117). -/
opaque Config.identityKey : BitVec 512
opaque Config.certificate : Nat → Byte
opaque Config.certificateLen : Nat
/-- Bits of the entropy source, by draw (R359, log 22). -/
opaque Config.entropy : Nat → W32
/-- An SM2 signature of a digest with the fused identity key; the standard's random number is the second argument
(R421, log 23). -/
opaque Config.sm2Sign : BitVec 256 → Nat → BitVec 512

/-- Bytes that a byte of memory reads as before anything writes it (R9 gives reserved fields only; log 2). -/
def Config.memDefault : Byte := 0#8

end Sys2Proof
end

