-- ==== Sys2Proof/Machine/State.lean ====
section
/-! DEFINITION. The state of a pod of Verosh V9 packages, as plain data: every register, table, queue and record the
spec gives the part, the reasons a step can stop, and the state right after reset. -/

namespace Sys2Proof.Machine

/-- The causes of a stop (R308). -/
inductive Cause
  | none | page | prot | align | wpdup | own | detrange | illegal | priv | stallchk | orphan | regdead | brk | trap
  | preempt | tokexpire | eccu | rpdiv
  deriving DecidableEq, Repr

/-- The sub-causes of ILLEGAL (R309). -/
inductive Sub
  | opcode | pfx | dict | rsvd | range | pair | chain | group | partial_ | partner | jbusy | csrnum | csrval | target
  | barseq | state | param | token | detmode | ring | bbseq
  deriving DecidableEq, Repr

/-- The state of a lane (R19); the number of a JOIN is its rejoin set. -/
inductive LaneSt
  | run | join (n : BitVec 4) | barT | barC | trap | exit
  deriving DecidableEq, Repr

/-- A register or predicate of a lane. -/
inductive Dst
  | g (r : Reg) | p (q : Reg)
  deriving DecidableEq, Repr

/-- A result that has not reached its register (R87 to R89): a fixed-latency result has the cycle at which it lands,
a scoreboarded one has none. `got` tells whether the value is known; `tag` names the producer. -/
structure Pend where
  dst : Dst
  val : W32
  due : Option Nat
  got : Bool
  remote : Bool
  tag : Nat
  deriving DecidableEq, Repr

/-- A steer slot of a lane (R321). -/
structure Steer where
  pend : Bool
  valid : Bool
  wid : BitVec 2
  reg : Reg
  val : BitVec 128
  tag : Nat
  deriving DecidableEq, Repr

/-- A lane (R13 to R19, R44, R306, R307, R320). -/
structure Lane where
  pc : W64
  /-- the instruction after the one at which a parked lane stands (R25, R167) -/
  nextPc : W64
  /-- the same of a park that a stop holds aside (R312) -/
  heldNext : W64
  st : LaneSt
  g : FMap W32
  p : BitVec 128
  lflags : BitVec 5
  pend : List Pend
  /-- the lane may issue again at this cycle (R86) -/
  readyAt : Nat
  /-- the lane waits at its instruction (R206, R35): RUN and not ready -/
  waiting : Bool
  /-- a `wsb` holds the lane back until nothing is owed to it (R163) -/
  wsb : Bool
  /-- selections in which the lane's ready path was passed over (R22) -/
  skips : Nat
  trapPc : W64
  trapVa : W64
  trapCause : W32
  memb : BitVec 2
  /-- where `tret` resumes the lane, and the state the stop holds aside (R306, R312) -/
  resume : W64
  prior : LaneSt
  /-- the handler has written TRAPPC (R312) -/
  movedPc : Bool
  steer : List Steer
  /-- buffered and recorded events of the lane, counted from 0 (R403, R410) -/
  lseq : Nat
  rseq : Nat
  deriving DecidableEq, Repr

/-- A stop found in one lane, with the TRAPPC it records; `after` marks the causes that leave the lane's group completed
(R306). The cause is NONE for a lane that stops with the electing lane of its instruction (R206, R310). -/
structure StopRec where
  lane : Nat
  cause : Cause
  sub : Byte
  code : W16
  va : W64
  after : Bool
  memb : BitVec 2
  pc : W64
  deriving DecidableEq, Repr

/-- A fence that has issued and not performed (R193, R194): its scope and what it covers. -/
structure Fence where
  seq : BitVec 24
  scope : Scope
  writeId : Nat
  bankId : Nat
  remote : List (Nat × Nat × Nat)
  toks : List Nat
  deriving DecidableEq, Repr

/-- Lanes that wait at an instruction: the lanes, the instruction, the program counters it issues with, its place in its
group and the group's stall class (R86). -/
structure WaitRec where
  lanes : LaneMask
  instr : Instr
  pc : W64
  npc : W64
  memb : BitVec 2
  stall : Nat
  grouped : Bool
  /-- the remote operations a `.pod` release waits for: destination, intermediate, count (R255, R364) -/
  remote : List (Nat × Nat × Nat)
  /-- what it waits for has come, though its chained group has still to act -/
  isOver : Bool
  deriving DecidableEq, Repr

/-- A yield in effect (R163): the cycle at which it ends, selections of other waves since, waves yet to be selected. -/
structure Yield where
  till : Nat
  sels : Nat
  todo : List Nat
  deriving DecidableEq, Repr

/-- A wave (R10, R24, R30 to R37, R45, R167, R172, R193, R302, R312, R313). -/
structure Wave where
  tid : Nat
  wix : Nat
  part : Bool
  lanes : FMap Lane
  allot : Nat
  rm : BitVec 3
  chk : Bool
  sets : FMap LaneMask
  tarv : Bool
  carv : Bool
  trapLanes : LaneMask
  sys : Bool
  handler : Bool
  /-- in the context's RESTH, or in its SAVEH (R322, R323) -/
  resting : Bool
  saving : Bool
  susp : Bool
  parked : Bool
  stopped : Bool
  preempt : Bool
  ended : Bool
  fseq : BitVec 24
  fences : List Fence
  queue : FMap (List W32)
  waits : List WaitRec
  quad : Nat
  /-- its slot on the quad (R302), and the fused group it issued in last, 0 for none (R304) -/
  slot : Nat
  fuse : Nat
  lastSel : Nat
  yield : Option Yield
  /-- remote accesses and acquires that hold back the wave's later accesses (R180, R231) -/
  holdMem : List Nat
  /-- remote operations discarded at their home and not yet reported: their addresses and SUB cause (R366) -/
  discarded : List (Cause × W64 × Nat)
  /-- `.core` releases whose promotion holds back the wave's later accesses (R253) -/
  relHold : List (Nat × Nat × Scope)
  /-- faults of remote loads that came while the troupe was saved: taken after its restore (R366) -/
  late : List StopRec
  deriving DecidableEq, Repr

/-- The fields of a kernel header (R291). -/
structure KHdr where
  addr : W64
  entry : W64
  pentry : W64
  dict : W64
  recpol : Bool
  rcd : Bool
  idem : Bool
  det : Bool
  dictn : Nat
  corps : Nat
  waves : Nat
  acc : Nat
  obuf : Nat
  scratch : Nat
  pregs : Nat
  regs : Nat
  traph : W64
  logbase : W64
  loglen : Nat
  detr : W64
  deriving DecidableEq, Repr

/-- A write range of a deterministic launch (R402, R406). -/
structure DRange where
  space : Space
  base : W64
  len : Nat
  deriving DecidableEq, Repr

/-- An operand-buffer window (R208): its reservation record and its bytes, unlisted where nothing has filled them. -/
structure Window where
  size : Nat
  pen : Bool
  ptid : Nat
  sp : Bool
  blk : Nat
  fmt : Nat
  xext : Nat
  kext : Nat
  sstr : Nat
  soff : Nat
  moff : Nat
  gen : Nat
  data : FMap Byte
  deriving DecidableEq, Repr

/-- Where a troupe stands: on its core, leaving it, saved in its save area, or over (R11, R295, R315, R323). -/
inductive TroupeSt | resident | saved | ended | published
  deriving DecidableEq, Repr

/-- A troupe (R38 to R40, R214, R262, R290, R299, R359, R406, R408). -/
structure Troupe where
  pkg : Nat
  core : Nat
  ctx : W32
  launch : Nat
  tidx : Nat
  corps : Nat
  crk : Nat
  st : TroupeSt
  hdr : KHdr
  kbank : List W32
  dict : Option (List W32)
  arvcnt : Nat
  waitmask : BitVec 16
  phase : Bool
  savearea : W64
  traphnd : W64
  tiles : List Nat
  accs : List Nat
  windows : FMap Window
  perms : FMap (List Nat)
  salt : W32
  ranges : FMap DRange
  lock : Bool
  /-- remote operations that it had sent and that had not landed when it left its core (R316) -/
  remote : List (Nat × Nat × Nat)
  deriving DecidableEq, Repr

/-- The corps record held by the cluster (R41, R168). -/
structure Corps where
  pkg : Nat
  clus : Nat
  launch : Nat
  idx : Nat
  troupes : List Nat
  carr : Nat
  clive : Nat
  cphase : Bool
  deriving DecidableEq, Repr

/-- A plane of one sub-array or of a fused array (R216, R219, R335): K origin, extents and where the weights stand. -/
structure Plane where
  valid : Bool
  koff : Nat
  noff : Nat
  win : Window
  deriving DecidableEq, Repr

/-- Work that the array has accepted and not finished, in order (R215). -/
inductive MxWork
  | fill (win : Nat) (cmd : Nat)
  | cfg (fuse fmt : Nat) (sp : Bool)
  | stat (sub win koff noff : Nat)
  | swap
  | strm (acc m sub win moff koff : Nat)
  | drain (wid : Nat) (lanes : LaneMask) (ofmt : Nat) (scr : Bool) (nt tile : Nat) (wh : W32) (sc : W32) (d : Reg) (tag : Nat)
  | zero (tile count : Nat)
  | save (va : W64) (tile count : Nat) (arr : Bool)
  | rest (va : W64) (tile count : Nat) (arr : Bool)
  /-- an `mx.wait` of lanes that waits for what stands before it (R223) -/
  | mark (wid : Nat) (lanes : LaneMask)
  deriving DecidableEq, Repr

/-- A piece of array work in flight: the wave that issued it and its place in the order. -/
structure MxItem where
  id : Nat
  tid : Nat
  wid : Nat
  work : MxWork
  /-- the scratchpad tiles that a drain writes, by the key of their first byte (R195) -/
  tiles : List Nat
  deriving DecidableEq, Repr

/-- The matrix array of a core (R215 to R224, R332, R335). `undef` marks an array restored from an image that no
`mx.save` wrote (R224): the scale products it keeps for open triples are free values. -/
structure ArrayCfg where
  fuse : Nat
  fmt : Nat
  sp : Bool
  active : FMap Plane
  shadow : FMap Plane
  flags : FMap (BitVec 5)
  kept : FMap W32
  undef : Bool
  deriving DecidableEq, Repr

/-- A line of a line cache (R264). -/
structure Line where
  tag : Nat
  bytes : List Byte
  deriving DecidableEq, Repr

/-- A cached translation (R274): the context, the page and the leaf's bits. -/
structure TlbEntry where
  ctx : W32
  base : W64
  size : Nat
  leaf : W64
  deriving DecidableEq, Repr

/-- An entry of a level 4 to 2 that points to a table, in a die's walker (R274). -/
structure WalkEnt where
  ctx : W32
  level : Nat
  base : Nat
  pte : W64
  deriving DecidableEq, Repr
/-- A miss of the translation caches (R275): its die, its context and its 64 KiB page, the cores and the waves that have joined
it; a miss that has not started waits in the cluster's miss queue; one that is done is kept until its waves have used the answer. -/
structure Walk where
  pkg : Nat
  die : Nat
  ctx : W32
  page : Nat
  cores : List Nat
  wids : List Nat
  started : Bool
  done : Bool
  deriving DecidableEq, Repr

/-- A buffered `red` of a deterministic launch (R403). -/
structure DetEntry where
  tid : Nat
  tidx : Nat
  wix : Nat
  lid : Nat
  lseq : Nat
  op : AtomOp
  w : Bool
  addr : Nat
  /-- the home package and the address there of an entry whose page is homed elsewhere -/
  far : Option (Nat × W64)
  d : W64
  /-- the scope of a `.rel`, which takes effect at the flush point (R403) -/
  rel : Option Scope
  /-- the model's count of ids at its issue; for a part that a flush has sent, its place in the direct stream to its home (R364) -/
  id : Nat
  sent : Option Nat
  held : Bool
  deriving DecidableEq, Repr

/-- A core (R2, R30, R32, R195, R263, R264, R274, R403). -/
structure Core where
  lines : List Line
  ownEng : FMap Bool
  tileCtx : FMap W32
  accCtx : FMap W32
  grantQ : List (Nat × Nat)
  arr : ArrayCfg
  mxq : List MxItem
  detBuf : List DetEntry
  tlb : List TlbEntry
  fenced : Bool
  testing : Bool
  /-- granules that were free when its cluster began to hold for a corps, and have not been granted since (R300) -/
  spare : Nat
  deriving DecidableEq, Repr

/-- A context (R270, R271, R278, R282, R311, R325, R326, R431). -/
structure Ctx where
  root : W64
  regions : W64
  dups : W64
  ptPool : W64
  ptBytes : W64
  ptNext : Nat
  heap : Nat
  sysh : W64
  saveh : W64
  resth : W64
  evBase : W64
  evBytes : W64
  stopped : Bool
  /-- free blocks of the heap by size class, and the class of each heap page (R201) -/
  heapFree : FMap (List W64)
  heapTag : FMap Nat
  deriving DecidableEq, Repr

/-- The stage of a pre-emption (R315); when it has ended, its clusters stay closed until PREEND. -/
inductive PreStage | drain | evict | over_
  deriving DecidableEq, Repr

/-- A pre-emption request on a context (R315). -/
structure Preempt where
  mask : BitVec 4
  openMask : BitVec 4
  stage : PreStage
  drainAt : Nat
  evictNs : Nat
  evictAt : Nat
  /-- the troupes that stage 2 evicts -/
  troupes : List Nat
  deriving DecidableEq, Repr

/-- A launch queue descriptor (R288). -/
structure LQueue where
  base : W64
  ctl : W32
  tail : W32
  head : W32
  ctx : W32
  resv : W64
  err : Bool
  /-- the nesting depths of the records that `spawn` has written and the front end has not taken (R171, R297) -/
  depths : List Nat
  deriving DecidableEq, Repr

/-- The fields of a launch record (R290). -/
structure LRec where
  addr : W64
  khdr : W64
  argn : Nat
  ntrp : Nat
  args : W64
  evt : W64
  donemap : W64
  savebase : W64
  graph : Bool
  clmask : BitVec 4
  nsave : Nat
  savesz : Nat
  wevt : W64
  wval : W64
  gmap : W64
  gw : Nat
  gshift : Int
  gpt : Nat
  deriving DecidableEq, Repr

/-- Where a launch stands (R289, R293, R297). -/
inductive LaunchSt | waiting | ready | held | done
  deriving DecidableEq, Repr

/-- The state of a node of a graph (R298). -/
inductive NodeSt | idle | ready | running
  deriving DecidableEq, Repr

/-- A graph node as the caller walks it (R298). -/
structure GNode where
  count : Nat
  st : NodeSt
  sub : Nat
  /-- a while node tells an arrival from its body from an outer one -/
  body : Bool
  deriving DecidableEq, Repr

/-- A waiting corps: its cluster, its age among those that wait, the bypasses counted against it (R300). -/
structure CorpsWait where
  clus : Nat
  seq : Nat
  bypass : Nat
  deriving DecidableEq, Repr

/-- A launch in the table (R289 to R298, R316, R401, R404, R410). -/
structure Launch where
  queue : Nat
  ctx : W32
  depth : Nat
  prio : Nat
  since : Nat
  readySeq : Nat
  rcd : LRec
  hdr : KHdr
  st : LaunchSt
  caller : Option Nat
  nextCorps : Nat
  /-- how its next corps waits, and how its next saved corps does (R300, R316) -/
  wait : Option CorpsWait
  waitSaved : Option CorpsWait
  saved : List Nat
  published : Nat
  pubMap : List Nat
  nodes : FMap GNode
  gdesc : W64
  gcount : Nat
  parent : Option (Nat × Nat)
  reel : Bool
  detc : Nat
  defBase : W64
  defLen : Nat
  ranges : FMap DRange
  deferred : List DetEntry
  logMode : Nat
  /-- corps to be placed again from their start, and the core to keep away from (R324) -/
  redo : List (Nat × Nat)
  /-- troupes among them that have published already, and do not publish again -/
  quiet : List Nat
  /-- entries of the log that a replay has consumed past RD (R412) -/
  used : List Nat
  deriving DecidableEq, Repr

/-- An engine command that has been accepted (R206, R210 to R214, R229, R341 to R344). -/
inductive Cmd
  | copy (ssp dsp : Space) (ring : Bool) (src dst : W64) (len : Nat) (bb : W32)
  | ob (win : Nat) (raw : Bool) (woff trn : Nat) (ssp : Space) (src : W64) (str : Nat)
  | mcast (src : W64) (home : W32) (choff rbase : Nat)
  | perm (ptid len : Nat) (src : W64) (lanes : LaneMask) (d : Reg) (tag : Nat)
  | rcopy (ssp : Space) (src dst : W64) (home : Nat) (len : Nat) (bb : W32) (tok : W32) (dept : W32) (spray : Option Nat)
  deriving DecidableEq, Repr

/-- An accepted command at work: who issued it, its engine, how far it has been read and written, the data read and
not yet written, whether it is set aside on a full ring (R341 to R344). -/
structure CmdRec where
  id : Nat
  tid : Nat
  wid : Nat
  core : Nat
  ctx : W32
  engine : Nat
  cmd : Cmd
  total : Nat
  read : Nat
  written : Nat
  /-- bytes in ring slots that have been handed over (R344) -/
  filled : Nat
  buf : List Byte
  aside : Bool
  /-- the 256-byte units of the read in hand that have failed their CRC once, a bit for each (R343) -/
  retried : Nat
  srcs : List Nat
  dsts : List Nat
  graph : Option (Nat × Nat)
  deriving DecidableEq, Repr

/-- A write that a lane has issued and that has not performed at package scope (R180, R248). `level` is 0 issued,
1 performed at the core, 2 at the cluster. A release waits for what precedes it at its scope. -/
structure PWrite where
  id : Nat
  wid : Nat
  lane : Nat
  core : Nat
  pkg : Nat
  addr : Nat
  bytes : List Byte
  level : Nat
  rel : Option Scope
  deriving DecidableEq, Repr

/-- An operation waiting at the bank ALUs (R189, R192, R345). -/
inductive BankWork
  | rmw (op : AtomOp) (w : Bool) (d : W64)
  | cas (w : Bool) (d e : W64)
  /-- an element of a `bop`; `step` marks the first of each 16-byte step, which the budget counts (R345, R347) -/
  | elem (op ty : Nat) (bop : Nat) (x : Nat) (s : W64) (step : Bool)
  deriving DecidableEq, Repr
structure BankOp where
  id : Nat
  wid : Nat
  lane : Nat
  core : Nat
  ctx : W32
  launch : Nat
  addr : Nat
  work : BankWork
  ret : Bool
  tag : Nat
  rel : Option Scope
  acq : Option Scope
  lseq : Nat
  rcd : Bool
  /-- in a replay, the place of its entry in the log (R412) -/
  ent : Option Nat
  deriving DecidableEq, Repr

/-- A `bop` whose elements are not all applied (R192). -/
structure BopRec where
  id : Nat
  wid : Nat
  lanes : LaneMask
  d : Reg
  left : Nat
  tag : Nat
  deriving DecidableEq, Repr

/-- A change of a page's mapping between its first and last steps (R238, R277, R281): who waits for it and the status to
write; the bytes whose accesses must drain, and the homes whose parts must; the pages whose notices are on their way; what
its last step does: leaves by package, copies, frames that return to pools, a duplicate-set entry given up. -/
structure VmChange where
  id : Nat
  ctx : W32
  va : W64
  size : Nat
  wid : Option Nat
  lanes : LaneMask
  d : Option Reg
  status : W32
  tag : Nat
  watch : List (Nat × Nat)
  parts : List Nat
  pod : List (W64 × Nat)
  /-- the leaves before the change, by package and page: accesses accepted before it complete with them (R206, R277) -/
  old : List (Nat × W64 × Nat × W64)
  /-- stores that arrive take WPDUP: the page is being duplicated (R280) -/
  wp : Bool
  leaves : List (Nat × W64)
  copies : List (Nat × Nat × Nat)
  frees : List (Nat × Nat × Nat)
  dset : Option Nat
  deriving DecidableEq, Repr

/-- Kinds of packet (R365). -/
inductive PKind | store | load | reply | atomic | copySeg | vStore | vLoad | faultReply | vAtomic
  deriving DecidableEq, Repr

/-- One lane's entry of a vector part (R365). -/
structure VEntry where
  lane : Nat
  addr : W64
  d : BitVec 128
  e : W64
  deriving DecidableEq, Repr

/-- A packet (R365). `ctx` is the context whose tables translate it (log 30). -/
structure Packet where
  seq : W16
  src : Nat
  dst : Nat
  via : Nat
  kind : PKind
  last : Bool
  dep : Bool
  tok : Bool
  ret : Bool
  addr : W64
  dept : W32
  ownt : W32
  tag : W32
  lmask : LaneMask
  data : BitVec 128
  vw : Nat
  w : Bool
  hnd : Nat
  ents : List VEntry
  bytes : List Byte
  ctx : W32
  sysm : Bool
  /-- `.core` releases that the packet carries or has observed (R253) -/
  rels : List (Nat × Nat)
  /-- the issuing wave, and whether the packet has been sent before -/
  wid : Nat
  again : Bool
  /-- the remote copy that a segment belongs to, 0 for none (R368); the model's count of ids when it was issued -/
  copy : Nat
  born : Nat
  /-- at its destination, how many packets of its source by its route came before it (R364) -/
  ord : Nat
  deriving DecidableEq, Repr

/-- Kinds of notice (R364). -/
inductive NKind | landed | release | applied | forwarded | holdFree | expiry | invalidate | relayed
  deriving DecidableEq, Repr
structure Notice where
  kind : NKind
  via : Nat
  token : W32
  arg : W64
  deriving DecidableEq, Repr

/-- A frame on its way (R363). -/
structure Frame where
  src : Nat
  dst : Nat
  port : Nat
  stamp : W64
  slotn : W32
  ackd : W16
  acks : W16
  ackf : W16
  mstr : Nat
  /-- the cycle at its first flit; whether it is the part of a frame that follows what was there at its start (R360) -/
  at_ : Nat
  cont : Bool
  notices : List Notice
  packets : List Packet
  deriving DecidableEq, Repr

/-- One end of the three streams to and from a peer (R361, R362, R364). -/
structure Peer where
  vq : List Packet
  relay : List Packet
  unackD : List Packet
  unackS : List Packet
  unackF : List Packet
  txD : W16
  txS : W16
  txF : W16
  rxD : W16
  rxS : W16
  rxF : W16
  sentD : Nat
  appliedD : Nat
  sentS : Nat
  fwdS : Nat
  recvApplied : Nat
  recvFwd : Nat
  recvRelayed : FMap Nat
  sentVia : FMap Nat
  doneVia : FMap Nat
  holdUsed : Nat
  notices : List Notice
  /-- CRC failures in a row by stream: 0 direct, 1 spray leg, 2 relay leg (R365) -/
  crcFails : FMap Nat
  lastHeard : Nat
  dirtyA : Bool
  dirtyF : Bool
  dirtyR : List Nat
  /-- flits of packets sent and not yet reported applied, or forwarded (R361) -/
  flightD : List Nat
  flightS : List Nat
  deriving DecidableEq, Repr

/-- State of a token-table entry (R371). -/
inductive TokSt | free | pend | join | landed
  deriving DecidableEq, Repr
structure Tok where
  st : TokSt
  gen : BitVec 19
  ins : List Nat
  deps : List (Nat × Nat)
  joins : Nat
  ctx : W32
  sent : Bool
  deriving DecidableEq, Repr

/-- A hold-queue entry (R373): a held packet, or a MEMO of a release that came first. -/
structure Hold where
  src : Nat
  token : W32
  pkt : Option Packet
  due : Nat
  round : Nat
  behind : List Packet
  deriving DecidableEq, Repr

/-- What a reply tag names (R321, R367): the wave, its lanes, the first destination register, the width. -/
structure TagRec where
  wid : Nat
  lanes : LaneMask
  d : Reg
  bytes : Nat
  sext : Bool
  tag : Nat
  hold : Bool
  acq : Option Scope
  deriving DecidableEq, Repr

/-- An operation of the package's local stream (R225). -/
structure LocalOp where
  kind : PKind
  pkt : Packet
  deriving DecidableEq, Repr

/-- A plan entry (R380). -/
structure PEntry where
  op : Nat
  sbase : Nat
  dbase : Nat
  red : Bool
  peer : Nat
  pidx : Nat
  waitc : Nat
  waitn : Nat
  sig0 : Option Nat
  sig1 : Option Nat
  soff : Nat
  doff : Nat
  nel : Nat
  deriving DecidableEq, Repr
/-- A loaded plan (R379). -/
structure Plan where
  stg : Bool
  ofmt : Nat
  afmt : Nat
  ifmt : Nat
  ents : List PEntry
  runs : Nat
  deriving DecidableEq, Repr
/-- Where an entry of a run stands (R381). -/
inductive EntSt | idle | started | done
  deriving DecidableEq, Repr
structure EntRec where
  st : EntSt
  /-- the whole chunk has arrived; its bytes by segment, and how many have come -/
  got : Bool
  segs : FMap (List Byte)
  have_ : Nat
  /-- segments handed to a reducer, those it has not finished, segments sent on -/
  next : Nat
  folds : Nat
  sent : Nat
  deriving DecidableEq, Repr
/-- A run of a plan (R232, R381, R385). -/
structure CollRun where
  seq : W16
  rseq : Nat
  plan : Nat
  ctx : W32
  base0 : W64
  base1 : W64
  base2 : W64
  active : Bool
  done : Bool
  /-- the run has been abandoned (R381, R385) -/
  ab : Bool
  fail : Bool
  nv : Bool
  ovf : Bool
  ctrs : FMap Nat
  ents : FMap EntRec
  pages : List Nat
  /-- the model's count of ids when it was issued -/
  born : Nat
  deriving DecidableEq, Repr
/-- A segment waiting at a base-die reducer (R386). -/
structure FoldSeg where
  stack : Nat
  run : W16
  ent : Nat
  /-- its segment of the chunk, and its place there in bytes -/
  seg : Nat
  off : Nat
  /-- the bytes of its destination: one range, or the two parts of an element that lies on two pages -/
  at_ : List (Nat × Nat)
  fold : Bool
  vals : List W64
  deriving DecidableEq, Repr

/-- A ring descriptor of the reel (R389). -/
structure RingDesc where
  slotb : W64
  slotsz : Nat
  peer : Nat
  dir : Bool
  nslot : Nat
  fillw : W64
  mirw : W64
  resv : Bool
  deriving DecidableEq, Repr
/-- A reel entry (R390). -/
structure REnt where
  resv : Bool
  gpv : Bool
  gplan : Nat
  mb : Nat
  stage : Nat
  outr : Option Nat
  inr : Option Nat
  stash : Nat
  kind : Nat
  lrec : W64
  argw : W64
  gbase0 : W64
  deriving DecidableEq, Repr
/-- States of the sequencer (R391). -/
inductive ReelSt | idle | wait | gather | run | handoff
  deriving DecidableEq, Repr
/-- The reel sequencer and its memory (R389 to R395). -/
structure Reel where
  owner : W32
  stbase : W64
  stsz : Nat
  stn : Nat
  gbuf0 : W64
  gbuf1 : W64
  cfgResv : Bool
  rings : FMap RingDesc
  ents : FMap REnt
  st : ReelSt
  err : Bool
  govf : Bool
  cause : Nat
  cur : Nat
  remain : Nat
  first : Nat
  count : Nat
  cons : FMap Nat
  prod : FMap Nat
  stash : FMap Nat
  idleIn : Nat
  idleRoom : Nat
  idleStash : Nat
  launch : Option Nat
  grun : Option Nat
  gnum : Nat
  retired : Nat
  /-- what a HANDOFF waits for: remote operations that had not landed when its launch completed -/
  need : List (Nat × Nat × Nat)
  fresh : Bool
  deriving DecidableEq, Repr

/-- A port (R350, R351): its failed lanes and how long each has stayed clean. -/
structure Port where
  bad : BitVec 9
  clean : FMap Nat
  newBad : BitVec 9
  /-- the flit times of its frame that have been used, while the data window is open (R360) -/
  used : Option Nat
  deriving DecidableEq, Repr

/-- Credits and budgets of the activity classes (R347, R348, R427). -/
structure Pace where
  budget : Nat
  next : Nat
  credit : Int
  deriving DecidableEq, Repr

/-- A report of the security engine, or a completed host read, as the host receives it (R416, R421). -/
inductive HostReply
  | report (bytes : List Byte)
  | data (bytes : List Byte)
  | unsupported
  | poisoned
  deriving DecidableEq, Repr

/-- A self-test in progress (R426): the unit's class and number, the address of a row under test, whether an uncorrectable
error has come meanwhile. -/
structure Test where
  cls : Byte
  unit : Nat
  row : Nat
  ue : Bool
  deriving DecidableEq, Repr

/-- Trust (R419, R420): boot state, fuses, measurements and what the security engine has answered. -/
structure Sec where
  booted : Bool
  recovery : Bool
  secver : BitVec 6
  rollback : BitVec 6
  fwver : W32
  mr : FMap (BitVec 256)
  signs : Nat
  deriving DecidableEq, Repr

/-- The memories of a package and what guards them (R3, R201, R266, R279, R347, R425 to R428): the bank-store split, the free
frames of each stack, poisoned 64-byte units, self-tests, budgets, power. -/
structure Phys where
  bankV : FMap Nat
  pool : FMap (List Nat)
  poolTurn : FMap Nat
  /-- frames withdrawn from their pools (R426) -/
  withdrawn : List Nat
  hbmIn : BitVec 8
  poison : List Nat
  tests : List Test
  /-- when each unit's errors proved transient (R426) -/
  transients : FMap (List Nat)
  engBad : List Nat
  redBad : List Nat
  pace : FMap Pace
  pcap : W32
  fclk : W32
  /-- core clock cycles since reset (R44), and how far the next one has come, in units of FCLK by 2,000 MHz (R428) -/
  cycles : Nat
  phase : Nat
  pstate : W32
  powered : Bool
  deriving DecidableEq, Repr

/-- Whether the core clock ticks in the next 0.5 ns (R428). -/
def Phys.ticks (p : Phys) : Bool := 2000 ≤ p.phase + p.fclk.toNat

/-- The host's side (R415 to R418, R423, R429): features, aperture, event queue, command queue, host memory. -/
structure HostIf where
  featReq : BitVec 128
  featAcc : BitVec 128
  featDone : Bool
  featRej : Bool
  apctx : W32
  apva : W64
  eqBase : W64
  eqLog : W32
  eqTail : W32
  eqHead : W32
  eqLost : W32
  cqBase : W64
  cqLog : W32
  cqTail : W32
  cqHead : W32
  msix : FMap Nat
  hostMem : List Host.Cell
  replies : List HostReply
  deriving DecidableEq, Repr

/-- Launching (R288 to R300, R315). -/
structure Sched where
  lqs : FMap LQueue
  lqTurn : Nat
  launches : FMap Launch
  lastClus : FMap Nat
  /-- the pre-emption requests on each context, oldest first -/
  preempts : FMap (List Preempt)
  deriving DecidableEq, Repr

/-- The fabric of a package (R350 to R376): clocks, ports, queues, streams, arrivals, tokens, holds, reply tags, handlers. -/
structure Fab where
  caltime : W64
  /-- nanoseconds that the counter has still to withhold (R354) -/
  slow : Nat
  offset : Int
  csync : Bool
  masters : List Nat
  master : Nat
  freeRun : Option Nat
  /-- the round in which the master list was set (R355) -/
  since : Nat
  fctl : W32
  ports : FMap Port
  peers : FMap Peer
  spray : List Packet
  locals : List LocalOp
  arrivals : List (Nat × Packet)
  inNotices : List (Nat × Notice)
  early : List (Nat × Packet)
  toks : FMap Tok
  tokTurn : Nat
  holds : List Hold
  /-- the contexts whose `.dep` operations have been sent on a token to a destination (R375) -/
  depCtx : List (W32 × Nat × W32)
  tags : FMap TagRec
  hnds : FMap (List W16)
  deriving DecidableEq, Repr

/-- Collectives (R379 to R388). -/
structure Coll where
  plans : FMap Plan
  runs : List CollRun
  runSeq : W16
  folds : List FoldSeg
  /-- slots whose load waits for their runs (R379) -/
  loading : List Nat
  deriving DecidableEq, Repr

/-- A package (R1). -/
structure Pkg where
  pkgid : Nat
  podsize : Nat
  cores : FMap Core
  tlb2 : FMap (List TlbEntry)
  /-- the entries that each die's walker caches (R274) -/
  wcache : FMap (List WalkEnt)
  ctxs : FMap Ctx
  cmds : List CmdRec
  bankQ : List BankOp
  bops : List BopRec
  vmch : List VmChange
  sec : Sec
  phys : Phys
  host : HostIf
  sched : Sched
  fab : Fab
  coll : Coll
  reel : Reel
  deriving DecidableEq, Repr

/-- The issue in progress: the wave and lanes of its path, the counters it issues with (R80 to R85, R92). -/
structure Cur where
  wid : Nat
  lanes : LaneMask
  pc : W64
  gpc : W64
  npc : W64
  memb : BitVec 2
  grouped : Bool
  /-- every lane of the path, those that the group stops among them (R310) -/
  path : LaneMask
  /-- what a `.pod` release waited for has landed -/
  past : Bool
  moved : LaneMask
  stops : List StopRec
  /-- the stall class of the group (R86) -/
  stall : Nat
  /-- another path issues with this one: stops are taken when both have acted (R327) -/
  defer : Bool
  deriving DecidableEq, Repr

/-- Why a run ends with a fault. -/
inductive Fault
  /-- An access outside the memories of R1. No meaning raises it: lanes, engines and packets take the causes of their rules. Safe. -/
  | noSuchMemory
  deriving DecidableEq, Repr

/-- Why a step has no meaning. -/
inductive Refusal
  /-- The instruction has no meaning in this model yet; raised by the dispatch arm of its mnemonic. Safe. -/
  | notModelled (mnemonic : String)
  deriving DecidableEq, Repr

/-- The state of the pod. -/
structure State where
  /-- time since reset in units of 0.5 ns, the core cycles of a package whose clock runs at 2,000 MHz (R428) -/
  cycle : Nat
  /-- what has been placed to happen next: inputs from outside and choices of timing that the spec leaves open -/
  agenda : List Instr
  cur : Cur
  mem : List Host.Cell
  writes : List PWrite
  /-- the `.core` releases that a read of each byte observes: their cores, numbered over the pod, and numbers (R253) -/
  relAt : FMap (List (Nat × Nat))
  pkgs : FMap Pkg
  troupes : FMap Troupe
  waves : FMap Wave
  corps : FMap Corps
  wires : List Frame
  /-- the misses of the translation caches, oldest first (R275) -/
  walks : List Walk
  arrImages : FMap ArrayCfg
  nextId : Nat
  /-- the model's own counter of free values (log 1) -/
  fresh : Nat
  deriving DecidableEq, Repr

/-! ### What unlisted entries hold -/

/-- A lane that no wave has started: the state of R18 with PC 0. -/
def Lane.init : Lane :=
  { pc := 0, nextPc := 0, heldNext := 0, st := .run, g := [], p := 0, lflags := 0, pend := [], readyAt := 0, waiting := false, wsb := false, skips := 0,
    trapPc := 0, trapVa := 0, trapCause := 0, memb := 0, resume := 0, prior := .run, movedPc := false, steer := [],
    lseq := 0, rseq := 0 }

/-- A wave before its placement (R18, R24, R45, R167, R193). -/
def Wave.init : Wave :=
  { tid := 0, wix := 0, part := false, lanes := [], allot := 8, rm := 1, chk := false, sets := [], tarv := false,
    carv := false, trapLanes := 0, sys := false, handler := false, resting := false, saving := false, susp := false, parked := false,
    stopped := false, preempt := false, ended := false, fseq := 0, fences := [], queue := [], waits := [], quad := 0, slot := 0, fuse := 0,
    lastSel := 0, yield := none, holdMem := [], discarded := [], relHold := [], late := [] }

def KHdr.init : KHdr :=
  { addr := 0, entry := 0, pentry := 0, dict := 0, recpol := false, rcd := false, idem := false, det := false,
    dictn := 0, corps := 1, waves := 1, acc := 0, obuf := 0, scratch := 0, pregs := 0, regs := 1, traph := 0,
    logbase := 0, loglen := 0, detr := 0 }

def Troupe.init : Troupe :=
  { pkg := 0, core := 0, ctx := 0, launch := 0, tidx := 0, corps := 0, crk := 0, st := .published, hdr := KHdr.init,
    kbank := [], dict := none, arvcnt := 0, waitmask := 0, phase := false, savearea := 0, traphnd := 0, tiles := [],
    accs := [], windows := [], perms := [], salt := 0, ranges := [], lock := false, remote := [] }

def Window.init : Window :=
  { size := 0, pen := false, ptid := 0, sp := false, blk := 0, fmt := 0, xext := 0, kext := 0, sstr := 0, soff := 0,
    moff := 0, gen := 0, data := [] }

def Plane.init : Plane := { valid := false, koff := 0, noff := 0, win := Window.init }

/-- The array of a troupe newly placed (R218). -/
def ArrayCfg.init : ArrayCfg :=
  { fuse := 0, fmt := 0, sp := false, active := [], shadow := [], flags := [], kept := [], undef := false }

def Core.init : Core :=
  { lines := [], ownEng := [], tileCtx := [], accCtx := [], grantQ := [], arr := ArrayCfg.init, mxq := [],
    detBuf := [], tlb := [], fenced := false, testing := false, spare := 0 }

def Peer.init : Peer :=
  { vq := [], relay := [], unackD := [], unackS := [], unackF := [], txD := 0, txS := 0, txF := 0, rxD := 0, rxS := 0,
    rxF := 0, sentD := 0, appliedD := 0, sentS := 0, fwdS := 0, recvApplied := 0, recvFwd := 0, recvRelayed := [],
    sentVia := [], doneVia := [], holdUsed := 0, notices := [], crcFails := [], lastHeard := 0, dirtyA := false,
    dirtyF := false, dirtyR := [], flightD := [], flightS := [] }

def Tok.init : Tok := { st := .free, gen := 0, ins := [], deps := [], joins := 0, ctx := 0, sent := false }
def Port.init : Port := { bad := 0, clean := [], newBad := 0, used := none }
def Pace.init : Pace := { budget := 0, next := 0, credit := 0 }
def LQueue.init : LQueue := { base := 0, ctl := 0, tail := 0, head := 0, ctx := 0, resv := 0, err := false, depths := [] }

def Reel.init : Reel :=
  { owner := 0xFFFFFFFF, stbase := 0, stsz := 0, stn := 0, gbuf0 := 0, gbuf1 := 0, cfgResv := false, rings := [], ents := [],
    st := .idle, err := false, govf := false, cause := 0, cur := 0, remain := 0, first := 0, count := 0, cons := [],
    prod := [], stash := [], idleIn := 0, idleRoom := 0, idleStash := 0, launch := none, grun := none, gnum := 0,
    retired := 0, need := [], fresh := true }

/-- A package right after reset, before its boot ROM has run: the reset values of R357, R394, R395, R418, R420, R423,
R427, R428 and R429, nothing resident, no context, no frame in a pool. -/
def Pkg.init : Pkg :=
  { pkgid := 0, podsize := 1, cores := [], tlb2 := [], wcache := [], ctxs := [], cmds := [], bankQ := [], bops := [], vmch := [],
    sec := { booted := false, recovery := false, secver := 0, rollback := Config.rollback0, fwver := 0, mr := [], signs := 0 },
    phys := { bankV := [], pool := [], poolTurn := [], withdrawn := [], hbmIn := 0xFF, poison := [], tests := [], transients := [],
              engBad := [], redBad := [], pace := [], pcap := 3000, fclk := 2000, cycles := 0, phase := 0, pstate := 0, powered := true },
    host := { featReq := 0, featAcc := 0, featDone := false, featRej := false, apctx := 0, apva := 0, eqBase := 0, eqLog := 0,
              eqTail := 0, eqHead := 0, eqLost := 0, cqBase := 0, cqLog := 0, cqTail := 0, cqHead := 0, msix := [],
              hostMem := [], replies := [] },
    sched := { lqs := [], lqTurn := 0, launches := [], lastClus := [], preempts := [] },
    fab := { caltime := 0, slow := 0, offset := 0, csync := false, masters := [0], master := 0, freeRun := none, since := 0, fctl := 0, ports := [],
             peers := [], spray := [], locals := [], arrivals := [], inNotices := [], early := [], toks := [], tokTurn := 0,
             holds := [], depCtx := [], tags := [], hnds := [] },
    coll := { plans := [], runs := [], runSeq := 0, folds := [], loading := [] },
    reel := Reel.init }

def Cur.init : Cur :=
  { wid := 0, lanes := 0, pc := 0, gpc := 0, npc := 0, memb := 0, grouped := false, path := 0, past := false, moved := 0, stops := [],
    stall := 0, defer := false }

/-- The machine right after reset: one module, not yet booted, nothing resident, memory with nothing written. -/
def State.reset : State :=
  { cycle := 0, agenda := [], cur := Cur.init, mem := [], writes := [], relAt := [], pkgs := [(0, Pkg.init)], troupes := [],
    waves := [], corps := [], wires := [], walks := [], arrImages := [], nextId := 1, fresh := 0 }

end Sys2Proof.Machine
end

