-- ==== Sys2Proof/Machine/Ops.lean ====
section
/-! DEFINITION. The named operations every meaning is built from: accessors of the state, results on their way to a
register, the end of an instruction, taking a stop and returning from one, stopping a context, host event records,
bytes of memory. -/

namespace Sys2Proof.Machine

/-! ### Accessors -/

def State.pkg (s : State) (k : Nat) : Pkg := fget Pkg.init s.pkgs k
def State.setPkg (s : State) (k : Nat) (p : Pkg) : State := { s with pkgs := fput s.pkgs k p }
def State.modPkg (s : State) (k : Nat) (f : Pkg → Pkg) : State := s.setPkg k (f (s.pkg k))
def State.wave (s : State) (w : Nat) : Wave := fget Wave.init s.waves w
def State.setWave (s : State) (w : Nat) (v : Wave) : State := { s with waves := fput s.waves w v }
def State.modWave (s : State) (w : Nat) (f : Wave → Wave) : State := s.setWave w (f (s.wave w))
def State.troupe (s : State) (t : Nat) : Troupe := fget Troupe.init s.troupes t
def State.setTroupe (s : State) (t : Nat) (v : Troupe) : State := { s with troupes := fput s.troupes t v }
def State.modTroupe (s : State) (t : Nat) (f : Troupe → Troupe) : State := s.setTroupe t (f (s.troupe t))
def Wave.lane (w : Wave) (l : Nat) : Lane := fget Lane.init w.lanes l
def Wave.setLane (w : Wave) (l : Nat) (v : Lane) : Wave := { w with lanes := fput w.lanes l v }
def State.lane (s : State) (w l : Nat) : Lane := (s.wave w).lane l
def Pkg.core (p : Pkg) (c : Nat) : Core := fget Core.init p.cores c
def Pkg.setCore (p : Pkg) (c : Nat) (v : Core) : Pkg := { p with cores := fput p.cores c v }
def State.core (s : State) (k c : Nat) : Core := (s.pkg k).core c
def State.modCore (s : State) (k c : Nat) (f : Core → Core) : State := s.modPkg k (fun p => p.setCore c (f (p.core c)))
def Pkg.peer (p : Pkg) (q : Nat) : Peer := fget Peer.init p.fab.peers q
def Pkg.modPeer (p : Pkg) (q : Nat) (f : Peer → Peer) : Pkg :=
  { p with fab := { p.fab with peers := fput p.fab.peers q (f (p.peer q)) } }

/-- Whether a feature has been accepted (R418). -/
def Pkg.feat (p : Pkg) (i : Nat) : Bool := p.host.featDone && p.host.featAcc.getLsbD i
/-- The issuing wave, its troupe and its package. -/
def State.curWave (s : State) : Wave := s.wave s.cur.wid
def State.curTid (s : State) : Nat := s.curWave.tid
def State.curTroupe (s : State) : Troupe := s.troupe s.curTid
def State.curPkg (s : State) : Nat := s.curTroupe.pkg
def State.curCtx (s : State) : W32 := s.curTroupe.ctx
/-- The core clock of a wave's package (R44, R428), in which latencies, stalls and timed waits count; that of the issuing wave. -/
def State.clockOf (s : State) (w : Nat) : Nat := (s.pkg (s.troupe (s.wave w).tid).pkg).phys.cycles
def State.clock (s : State) : Nat := s.clockOf s.cur.wid

/-- A wave's number: its troupe's, and its place among the troupe's compute and partner waves. -/
def widOf (tid wix : Nat) (part : Bool) : Nat := tid * 32 + (if part then 16 else 0) + wix
def partnerOf (w : Nat) : Nat := if w % 32 < 16 then w + 16 else w - 16

/-- A number that no record of the model has used. -/
def State.draw (s : State) : Nat × State := (s.nextId, { s with nextId := s.nextId + 1 })
/-- A value of the counter of free values (log 1). -/
def State.freeDraw (s : State) : Nat × State := (s.fresh, { s with fresh := s.fresh + 1 })

/-! ### Lanes and masks -/

/-- The lanes of a mask in ascending lid. -/
def lanesOf (m : LaneMask) : List Nat := (List.range 32).filter (fun i => m.getLsbD i)
def laneBit (l : Nat) : LaneMask := 1#32 <<< l
def maskOf (ls : List Nat) : LaneMask := ls.foldl (fun m l => m ||| laneBit l) 0
def popCount (m : LaneMask) : Nat := (lanesOf m).length
/-- The lowest lane of a mask (R74). -/
def lowLane (m : LaneMask) : Option Nat := (lanesOf m).head?
/-- The lanes of a wave whose state satisfies a test. -/
def Wave.lanesWhere (w : Wave) (f : Lane → Bool) : LaneMask := maskOf ((List.range 32).filter (fun l => f (w.lane l)))
/-- The live lanes: those not in EXIT (R11, R19). -/
def Wave.live (w : Wave) : LaneMask := w.lanesWhere (fun l => l.st != .exit)
/-- WCNT of set `n`: the lanes in JOIN(n) (R24, R165). -/
def Wave.wcnt (w : Wave) (n : BitVec 4) : Nat := popCount (w.lanesWhere (fun l => l.st == .join n))
def Wave.mask (w : Wave) (n : BitVec 4) : LaneMask := fget 0 w.sets n.toNat
def Wave.setMask (w : Wave) (n : BitVec 4) (v : LaneMask) : Wave := { w with sets := fset 0 w.sets n.toNat v }

/-- Change each lane of a list by a function of its number and itself. -/
def updMap (ls : List Nat) (f : Nat → Lane → Lane) (m : FMap Lane) : FMap Lane :=
  ls.foldl (fun m l => fput m l (f l (fget Lane.init m l))) m
def Wave.upd (w : Wave) (ls : List Nat) (f : Nat → Lane → Lane) : Wave := { w with lanes := updMap ls f w.lanes }
def State.updLanes (s : State) (w : Nat) (ls : List Nat) (f : Nat → Lane → Lane) : State :=
  s.modWave w (fun v => v.upd ls f)

/-! ### Registers -/

/-- A general register as it has been written (R13). -/
def Lane.reg (l : Lane) (r : Nat) : W32 := fget 0 l.g r
/-- A predicate as it has been written; p0 reads 1 (R16). -/
def Lane.pred (l : Lane) (q : Nat) : Bool := q == 0 || l.p.getLsbD q
/-- Write a register or predicate; p0 and fields 120 to 127 discard (R14, R16). -/
def Lane.write (l : Lane) (d : Dst) (v : W32) : Lane :=
  match d with
  | .g r => if r.toNat < 120 then { l with g := fset 0 l.g r.toNat v } else l
  | .p q =>
    if q = 0 then l
    else { l with p := if v.getLsbD 0 then l.p ||| (1#128 <<< q.toNat) else l.p &&& ~~~(1#128 <<< q.toNat) }

/-- A 32-bit source operand (R13, R14). -/
def State.src (s : State) (w l : Nat) (r : Reg) : W32 :=
  if r.toNat < 120 then (s.lane w l).reg r.toNat
  else if r.toNat = 121 then BitVec.ofNat 32 l
  else if r.toNat = 122 then BitVec.ofNat 32 (s.wave w).wix
  else if r.toNat = 123 then BitVec.ofNat 32 (s.troupe (s.wave w).tid).tidx
  else if r.toNat = 124 then BitVec.ofNat 32 (s.troupe (s.wave w).tid).crk
  else 0
/-- A 64-bit source operand: an even pair, or 120 for zero (R15). -/
def State.src64 (s : State) (w l : Nat) (r : Reg) : W64 :=
  if r.toNat < 120 then pair ((s.lane w l).reg r.toNat) ((s.lane w l).reg (r.toNat + 1)) else 0
/-- A 16-byte source operand (R71). -/
def State.src128 (s : State) (w l : Nat) (r : Reg) : BitVec 128 :=
  if r.toNat < 120 then
    (s.lane w l).reg (r.toNat + 3) ++ (s.lane w l).reg (r.toNat + 2) ++ (s.lane w l).reg (r.toNat + 1) ++ (s.lane w l).reg r.toNat
  else 0

/-- The registers that a destination field of `n` words covers; 120 to 127 name none (R14, R15, R71). -/
def dstRegs (r : Reg) (n : Nat) : List Dst :=
  if r.toNat < 120 then (List.range n).map (fun i => Dst.g (BitVec.ofNat 7 (r.toNat + i))) else []
/-- The words of a value, low word first, with the registers they go to. -/
def outs32 (r : Reg) (v : W32) : List (Dst × W32) := (dstRegs r 1).map (fun d => (d, v))
def outs64 (r : Reg) (v : W64) : List (Dst × W32) := (dstRegs r 2).zip [lo32 v, hi32 v]
def outs128 (r : Reg) (v : BitVec 128) : List (Dst × W32) :=
  (dstRegs r 4).zip [v.extractLsb' 0 32, v.extractLsb' 32 32, v.extractLsb' 64 32, v.extractLsb' 96 32]
def outP (q : Reg) (b : Bool) : List (Dst × W32) := [(Dst.p q, (BitVec.ofBool b).setWidth 32)]
def zeroOuts (ds : List Dst) : List (Dst × W32) := ds.map (fun d => (d, 0))

/-! ### Results in flight (R87 to R90) -/

/-- When a result reaches its register: after a fixed latency, or when the scoreboard says so. -/
inductive Lat | fixed (n : Nat) | owed
  deriving DecidableEq, Repr
def Lat.due (t : Lat) (now : Nat) : Option Nat :=
  match t with
  | .fixed n => some (now + n)
  | .owed => none

/-- Send results on their way. -/
def Lane.send (l : Lane) (due : Option Nat) (tag : Nat) (outs : List (Dst × W32)) : Lane :=
  { l with pend := l.pend ++ outs.map (fun o => ⟨o.1, o.2, due, true, false, tag⟩) }
/-- Owe results whose value is not known yet. -/
def Lane.owe (l : Lane) (remote : Bool) (tag : Nat) (ds : List Dst) : Lane :=
  { l with pend := l.pend ++ ds.map (fun d => ⟨d, 0, none, false, remote, tag⟩) }
/-- Fill in the values of owed results. -/
def Lane.fill (l : Lane) (tag : Nat) (outs : List (Dst × W32)) : Lane :=
  { l with pend := l.pend.map (fun e =>
      if e.tag = tag then
        match outs.find? (fun o => o.1 == e.dst) with
        | some o => { e with val := o.2, got := true }
        | none => e
      else e) }

/-- Write the results that satisfy `f`; a result that lands takes away the older ones owed to its register (R89). -/
def landGo (f : Pend → Bool) : List Pend → List Pend → Lane → Lane
  | [], kept, l => { l with pend := kept }
  | e :: es, kept, l =>
    if f e then landGo f es (kept.filter (fun k => k.dst != e.dst)) (l.write e.dst e.val)
    else landGo f es (kept ++ [e]) l
def Lane.land (l : Lane) (f : Pend → Bool) : Lane := landGo f l.pend [] l
/-- Fixed-latency results whose cycle has come. -/
def Pend.isDue (now : Nat) (e : Pend) : Bool :=
  match e.due with
  | some c => c ≤ now
  | none => false
/-- Every result that the wave still owes from local accesses (R306): all but remote loads outstanding. -/
def Pend.isLocal (e : Pend) : Bool := !e.remote || e.got
/-- The value a register holds once everything on its way has landed. -/
def Lane.latest (l : Lane) (d : Dst) : W32 :=
  match (l.pend.filter (fun e => e.dst == d)).getLast? with
  | some e => e.val
  | none =>
    match d with
    | .g r => l.reg r.toNat
    | .p q => (BitVec.ofBool (l.pred q.toNat)).setWidth 32

end Sys2Proof.Machine

namespace Sys2Proof

/-! ### The guard (R74) -/

def Mods.active (m : Mods) (l : Machine.Lane) : Bool :=
  match m.opt with
  | none => true
  | some o => !o.ge || (l.pred o.gp.toNat ^^ o.gn)
def Mods.zero (m : Mods) : Bool := match m.opt with | none => false | some o => o.z
def Mods.sat (m : Mods) : Bool := match m.opt with | none => false | some o => o.sat
def Mods.eReg (m : Mods) : Option Reg :=
  match m.opt with | none => none | some o => if o.een then some o.e else none
end Sys2Proof

namespace Sys2Proof.Machine

/-- The active lanes of the issuing path. -/
def State.activeLanes (s : State) (m : Mods) : List Nat :=
  (lanesOf s.cur.lanes).filter (fun l => m.active (s.lane s.cur.wid l))
/-- Whether any lane of the path is active. -/
def State.someActive (s : State) (m : Mods) : Bool := !(s.activeLanes m).isEmpty
/-- The elected lane (R74, R204). -/
def State.elected (s : State) (m : Mods) : Option Nat := (s.activeLanes m).head?

/-! ### Rejoin sets (R24 to R26) -/

/-- Release set `n` if it may be released: parked lanes go on after their `rj.wait`. -/
def Wave.releaseSet (w : Wave) (n : BitVec 4) : Wave :=
  if w.mask n ≠ 0 ∧ w.wcnt n = popCount (w.mask n) then
    w.upd (lanesOf (w.lanesWhere (fun l => l.st == .join n))) (fun _ l => { l with st := .run, pc := l.nextPc })
  else w
/-- Check the sets in ascending order (R25). -/
def Wave.releaseAll (w : Wave) : Wave := (List.range 16).foldl (fun w n => w.releaseSet (BitVec.ofNat 4 n)) w
/-- Every live lane parked in JOIN: nothing can release it any more (R26). -/
def Wave.isOrphan (w : Wave) : Bool :=
  w.live ≠ 0 && w.live == w.lanesWhere (fun l => match l.st with | .join _ => true | _ => false)

/-! ### Bytes -/

/-- Where each memory stands among the keys of `State.mem` (R1, R2, R262, R266, R269). -/
def hbmKey (k pa : Nat) : Nat := k * 2 ^ 44 + pa
def bankKey (k die x : Nat) : Nat := k * 2 ^ 44 + 2 ^ 40 + die * 2 ^ 28 + x
def scrKey (k core tile off : Nat) : Nat := k * 2 ^ 44 + 2 ^ 41 + core * 2 ^ 20 + tile * 2 ^ 12 + off
def accKey (k core tile off : Nat) : Nat := k * 2 ^ 44 + 2 ^ 42 + core * 2 ^ 18 + tile * 2 ^ 12 + off
/-- The package, and the region, of a key. -/
def keyPkg (a : Nat) : Nat := a / 2 ^ 44
def keyIsHbm (a : Nat) : Bool := a % 2 ^ 44 < 2 ^ 40
def keyIsBank (a : Nat) : Bool := 2 ^ 40 ≤ a % 2 ^ 44 && a % 2 ^ 44 < 2 ^ 41
def keyIsScr (a : Nat) : Bool := 2 ^ 41 ≤ a % 2 ^ 44 && a % 2 ^ 44 < 2 ^ 42
/-- The die beside a byte: of its stack, or of its bank store (R266, R269). -/
def keyDie (a : Nat) : Nat := if keyIsHbm a then a % 2 ^ 44 / 2 ^ 37 else (a % 2 ^ 44 - 2 ^ 40) / 2 ^ 28
/-- The bank that holds a byte (R345). -/
def keyBank (a : Nat) : Nat := if keyIsHbm a then a / 2 ^ 7 % 2 ^ 9 else a / 2 ^ 6 % 2 ^ 9

def memGet (m : List Host.Cell) (a : Nat) : Byte := fget Config.memDefault m a
def memPut (m : List Host.Cell) (a : Nat) (b : Byte) : List Host.Cell := fset Config.memDefault m a b
def memGets (m : List Host.Cell) (a : Nat) : Nat → List Byte
  | 0 => []
  | n + 1 => memGet m a :: memGets m (a + 1) n
def memPuts (m : List Host.Cell) (a : Nat) : List Byte → List Host.Cell
  | [] => m
  | b :: bs => memPuts (memPut m a b) (a + 1) bs
/-- The canonical form of a memory. -/
abbrev Memory.wf (m : List Host.Cell) : Prop := FWf Config.memDefault m

/-- A write of the whole of a poisoned 64-byte unit clears its poison; a part leaves it (R425). -/
def unpoison (p : List Nat) (a n : Nat) : List Nat := p.filter (fun u => !(a ≤ u && u + 64 ≤ a + n))
def isPoisoned (p : List Nat) (a n : Nat) : Bool := p.any (fun u => u < a + n && a < u + 64)
/-- A write that performs at its home at once: it is in memory for every agent (R246, R248, R255). -/
def State.store (s : State) (a : Nat) (bs : List Byte) : State :=
  let s1 := { s with mem := memPuts s.mem a bs, relAt := s.relAt.filter (fun e => !(a ≤ e.1 && e.1 < a + bs.length)) }
  s1.modPkg (keyPkg a) (fun p => { p with phys := { p.phys with poison := unpoison p.phys.poison a bs.length } })
def State.load (s : State) (a n : Nat) : List Byte := memGets s.mem a n

/-! ### Host event records and management events (R326, R422, R423) -/

/-- Write a 64-byte record to the event queue; a full queue drops it. -/
def writeEvent (p : Pkg) (rcd : List Byte) : Pkg :=
  let h := p.host
  let n := 2 ^ (h.eqLog.toNat % 32)
  if h.eqBase = 0 then p
  else if (h.eqTail - h.eqHead).toNat = n then { p with host := { h with eqLost := h.eqLost + 1 } }
  else { p with host := { h with
    hostMem := memPuts h.hostMem (h.eqBase.toNat + 64 * (h.eqTail.toNat % n)) rcd,
    eqTail := h.eqTail + 1,
    msix := fput h.msix 0 (fget 0 h.msix 0 + 1) } }

/-- A management event (R422). -/
def mgmtEvent (p : Pkg) (kind : Nat) (cls : Nat) (unit : Nat) (wh : W64) : Pkg :=
  writeEvent p (leBytes 8 (0xFFFFFFFF * 2 ^ 32 + unit % 2 ^ 16 * 2 ^ 16 + cls % 256 * 256 + kind % 256) ++ leBytes 8 wh.toNat ++
    leBytes 8 p.fab.caltime.toNat ++ leBytes 40 0)

def Cause.code : Cause → Byte
  | .none => 0x00 | .page => 0x01 | .prot => 0x02 | .align => 0x03 | .wpdup => 0x04 | .own => 0x05 | .detrange => 0x06
  | .illegal => 0x10 | .priv => 0x11 | .stallchk => 0x12 | .orphan => 0x13 | .regdead => 0x14 | .brk => 0x15 | .trap => 0x16
  | .preempt => 0x20 | .tokexpire => 0x21 | .eccu => 0x22 | .rpdiv => 0x23
def Sub.code : Sub → Byte
  | .opcode => 0x01 | .pfx => 0x02 | .dict => 0x03 | .rsvd => 0x04 | .range => 0x05 | .pair => 0x06 | .chain => 0x07
  | .group => 0x08 | .partial_ => 0x09 | .partner => 0x0A | .jbusy => 0x0B | .csrnum => 0x0C | .csrval => 0x0D
  | .target => 0x0E | .barseq => 0x0F | .state => 0x10 | .param => 0x11 | .token => 0x12 | .detmode => 0x13 | .ring => 0x14
  | .bbseq => 0x15

/-! ### The host command queue (R429, R430) -/

/-- The slot of command `n` in host memory. -/
def HostIf.cqSlot (h : HostIf) (n : W32) : Nat := h.cqBase.toNat + 64 * (n.toNat % 2 ^ (h.cqLog.toNat % 16))
def HostIf.cqWord (h : HostIf) (off : Nat) : W64 := BitVec.ofNat 64 (leNat (memGets h.hostMem (h.cqSlot h.cqHead + off) 8))
/-- Whether a command waits at HEAD. -/
def HostIf.cqHas (h : HostIf) : Bool := h.cqBase != 0 && h.cqHead != h.cqTail
def knownOpc (n : Nat) : Bool := (1 ≤ n && n ≤ 5) || (8 ≤ n && n ≤ 10) || (16 ≤ n && n ≤ 24)
/-- The status of a command at HEAD that is none: an unknown OPC, a reserved value. -/
def HostIf.cqBad (h : HostIf) : Option W32 :=
  if !knownOpc (nbits (h.cqWord 0).toNat 15 0) then some 4
  else if nbits (h.cqWord 0).toNat 31 16 ≠ 0 ∨ nbits (h.cqWord 8).toNat 62 32 ≠ 0 then some 2
  else none
/-- The status word is written, HEAD advances, vector 1 is signalled. -/
def HostIf.cqPut (h : HostIf) (status : W32) : HostIf :=
  { h with
    hostMem := memPuts h.hostMem (h.cqSlot h.cqHead + 8) (leBytes 8 (2 ^ 63 + status.toNat))
    cqHead := h.cqHead + 1
    msix := fput h.msix 1 (fget 0 h.msix 1 + 1) }
def cqSkip : Nat → HostIf → HostIf
  | 0, h => h
  | f + 1, h =>
    if !h.cqHas then h
    else match h.cqBad with
      | some v => cqSkip f (h.cqPut v)
      | none => h
/-- The command at HEAD is done, and those after it that are none are answered. -/
def Pkg.cmdDone (p : Pkg) (status : W32) : Pkg :=
  if p.host.cqHas then { p with host := cqSkip 4096 (p.host.cqPut status) } else p

/-! ### Stopping a context (R325, R326) -/

/-- The troupes of a context on a package that have not been published, in ascending index. -/
def State.ctxTroupes (s : State) (k : Nat) (c : W32) : List (Nat × Troupe) :=
  sortBy (fun (e : Nat × Troupe) => e.2.tidx)
    (fkeep s.troupes (fun _ t => t.pkg == k && t.ctx == c && !(t.st == .published)))

/-- The host event record of a stop (R326): the affected indices go into the event area when there are several. -/
def hostEvent (s : State) (k : Nat) (c : W32) (cause : Cause) (sub : Byte) (aff : List (Nat × Troupe)) (pc va : W64) : State :=
  let cx := flook (s.pkg k).ctxs c.toNat
  let khdr := match aff.head? with | some t => t.2.hdr.addr | none => 0
  let tidx := match aff.head? with | some t => t.2.tidx | none => 0
  let area : W64 := match cx with | some x => if aff.length > 1 then x.evBase else 0 | none => 0
  let n := match cx with | some x => x.evBytes.toNat / 8 | none => 0
  let lst := ((aff.take n).map (fun t => leBytes 8 t.2.tidx)).flatten
  let s1 := if area = 0 then s
    else s.modPkg k (fun p => { p with host := { p.host with hostMem := memPuts p.host.hostMem area.toNat lst } })
  s1.modPkg k (fun p => writeEvent p
    (leBytes 8 (c.toNat * 2 ^ 32 + sub.toNat * 256 + cause.code.toNat) ++ leBytes 8 khdr.toNat ++
     leBytes 8 (aff.length * 2 ^ 40 + tidx) ++ leBytes 8 area.toNat ++ leBytes 8 pc.toNat ++ leBytes 8 va.toNat ++ leBytes 16 0))

/-- The lane that a context reports where no one lane stopped it: the lowest live one of its first affected wave (R326). -/
def State.firstLane (s : State) (k : Nat) (ctx : W32) : W64 × W64 :=
  let ws := ((s.ctxTroupes k ctx).map (fun (e : Nat × Troupe) =>
    (s.waves.filter (fun (v : Nat × Wave) => v.2.tid == e.1 && !v.2.ended && v.2.live != 0)))).flatten
  match ws.head? with
  | none => (0, 0)
  | some v =>
    let l := v.2.lane ((lanesOf v.2.live).headD 0)
    if v.2.stopped || v.2.handler then (l.trapPc, l.trapVa) else (l.pc, 0)
/-- The reply tags of troupes that are never restored: their replies are discarded (R321). -/
def Fab.dropTags (f : Fab) (tid : Nat → Nat) (tids : List Nat) : Fab := { f with tags := fkeep f.tags (fun _ t => !tids.contains (tid t.wid)) }
/-- A context stops on a package (R325): its waves stop without a handler, its queues are disabled, its launches are
dropped, its save areas abandoned, the reel sequencer stops if it owns it (R392), and one record is written. A context
that has stopped does not stop again: no second record is written. -/
def stopContext (s : State) (k : Nat) (c : W32) (cause : Cause) (sub : Byte) (pc va : W64) : State :=
  let aff := s.ctxTroupes k c
  let tids := aff.map (fun e => e.1)
  let s1 := { s with
    waves := fall s.waves (fun _ v => if tids.contains v.tid then { v with ended := true, waits := [] } else v),
    troupes := fall s.troupes (fun n t => if tids.contains n then { t with st := .published } else t) }
  let s2 := s1.modPkg k (fun p => { p with
    ctxs := fmod p.ctxs c.toNat (fun x => { x with stopped := true }),
    sched := { p.sched with
      lqs := fall p.sched.lqs (fun _ q => if q.ctx == c then { q with err := true } else q),
      launches := fkeep p.sched.launches (fun _ x => !(x.ctx == c)),
      preempts := fdel p.sched.preempts c.toNat },
    cores := fall p.cores (fun _ x => { x with
      grantQ := x.grantQ.filter (fun g => !(tids.contains ((s.wave g.1).tid))),
      mxq := x.mxq.filter (fun y => !(tids.contains y.tid)),
      detBuf := x.detBuf.filter (fun d => !(tids.contains d.tid)) }),
    cmds := p.cmds.filter (fun x => !(tids.contains x.tid)),
    fab := p.fab.dropTags (fun w => (s.wave w).tid) tids,
    reel := if p.reel.owner == c && p.reel.st != .idle then { p.reel with st := .idle, err := true, cause := 0 } else p.reel })
  match flook (s.pkg k).ctxs c.toNat with
  | some x => if x.stopped then s2 else hostEvent s2 k c cause sub aff pc va
  | none => if aff.isEmpty then s else hostEvent s2 k c cause sub aff pc va

/-! ### The end of an instruction, and taking a stop (R306, R310) -/

/-- The lanes that an instruction's stops keep from completing their group. -/
def stopMask (st : List StopRec) : LaneMask := maskOf ((st.filter (fun r => !r.after)).map (fun r => r.lane))

/-- The lanes of the path that have not branched or parked go on at the next group. -/
def State.advance (s : State) (st : List StopRec) : State :=
  s.updLanes s.cur.wid (lanesOf (s.cur.lanes &&& ~~~ s.cur.moved &&& ~~~ stopMask st))
    (fun _ l => if l.st = .run then { l with pc := s.cur.npc } else l)

/-- Causes that find the lane where it stands and leave it so: an orphaned park, an eviction, a remote load that
faulted at its home (R306). -/
def StopRec.stays (r : StopRec) : Bool :=
  r.cause == .orphan || r.cause == .preempt || ((r.cause == .page || r.cause == .prot) && r.sub == 1)

/-- One lane as the wave's stop leaves it (R306, R307, R312): a lane with a cause records it at the PC of its record and goes
on from there, or for the causes that complete the group from where the group left it, parked where a member has parked it;
an overrun of a byte barrier (code 0x80) returns to the instruction itself; the others record NONE where they stand. -/
def Lane.stopWith (l : Lane) (r : Option StopRec) : Lane :=
  let l := { l with st := .trap, prior := l.st, heldNext := l.nextPc, movedPc := false, waiting := false, wsb := false,
                    trapPc := l.pc, resume := l.pc, trapVa := 0, memb := 0, trapCause := 0 }
  match r with
  | some r =>
    let l := { l with trapVa := r.va, memb := r.memb, trapCause := r.code ++ r.sub ++ r.cause.code }
    if r.stays then l
    else if r.after && r.code != 0x80 then { l with trapPc := r.pc }
    else { l with prior := .run, trapPc := r.pc, resume := r.pc }
  | none => l

/-- TRAPLANES: the lanes whose cause is not NONE (R307). -/
def trapMask (st : List StopRec) : LaneMask := maskOf ((st.filter (fun r => r.cause != .none)).map (fun r => r.lane))
/-- The whole wave stops (R306). A wave in system mode stops its context instead, but for BRK, which suspends it and
writes a host event record (R313). -/
def takeStop (s : State) (w : Nat) (st : List StopRec) : State :=
  match st with
  | [] => s
  | _ :: _ =>
    let v := s.wave w
    let t := s.troupe v.tid
    let low := fun (f : StopRec → Bool) => (sortBy (fun (r : StopRec) => r.lane) (st.filter f)).head?
    if v.sys then
      match low (fun r => r.cause != .brk && r.cause != .none) with
      | none => hostEvent (s.setWave w { v with susp := true }) t.pkg t.ctx .brk 0 [(v.tid, t)]
          ((low (fun r => r.cause == .brk)).elim 0 (fun r => r.pc)) 0
      | some r => stopContext s t.pkg t.ctx r.cause r.sub ((v.lane r.lane).stopWith (some r)).trapPc r.va
    else
      (s.modCore (s.troupe v.tid).pkg (s.troupe v.tid).core (fun c => { c with grantQ := c.grantQ.filter (fun g => g.1 != w) })).setWave w
        { (v.upd (lanesOf v.live) (fun l x => x.stopWith (st.find? (fun r => r.lane == l)))) with
        stopped := true, waits := [],
        trapLanes := trapMask st }

/-- Stops of the issue in progress: taken at once, but only noted while a chained group or a second path that issues in the
same cycle has still to act (R310, R327). -/
def State.raise (s : State) (st : List StopRec) : State :=
  if s.cur.grouped || s.cur.defer then { s with cur := { s.cur with stops := s.cur.stops ++ st } }
  else takeStop s s.cur.wid st
/-- The end of an instruction's meaning: the lanes it did not stop go on, and the stop is taken. -/
def finish (s : State) (st : List StopRec) : State := (s.advance st).raise st

/-- Every live lane parked in JOIN with no set to release: the wave takes ORPHAN where it stands (R26). -/
def settle (s : State) (w : Nat) : State :=
  let v := s.wave w
  if v.isOrphan && !v.stopped then
    takeStop s w ((lanesOf v.live).map (fun l => ⟨l, .orphan, 0, 0, 0, false, 0, 0⟩))
  else s

/-- A stop record of the instruction being executed: at the first instruction of its group. -/
def State.stopRec (s : State) (l : Nat) (c : Cause) (sub : Byte) (va : W64) : StopRec :=
  ⟨l, c, sub, 0, va, false, s.cur.memb, s.cur.gpc⟩
def State.ill (s : State) (l : Nat) (sub : Sub) : StopRec := s.stopRec l .illegal sub.code 0
/-- Every active lane of an instruction that the rules refuse as such, an elected one too, stops with the cause (R204, R314;
log 104). -/
def refuseWith (s : State) (m : Mods) (c : Cause) (sub : Byte) (va : W64) : State :=
  finish s ((s.activeLanes m).map (fun l => s.stopRec l c sub va))
def refuse (s : State) (m : Mods) (sub : Sub) : State := refuseWith s m .illegal sub.code 0
/-- A failed memory check of an elected instruction is a fault of its electing lane, with which the other active lanes stop
(R171, R191, R206, R310; log 112). -/
def faultElected (s : State) (m : Mods) (c : Cause) (sub : Byte) (va : W64) : State :=
  finish s ((s.activeLanes m).map (fun l => if s.elected m = some l then s.stopRec l c sub va else s.stopRec l .none 0 0))

/-- Lanes wait at their instruction, RUN and not ready (R35, R206): it acts when what it waits for has come. -/
def waitFor (s : State) (i : Instr) (remote : List (Nat × Nat × Nat)) : State :=
  s.modWave s.cur.wid (fun v =>
    { (v.upd (lanesOf s.cur.lanes) (fun _ l => { l with waiting := true })) with
      waits := v.waits.filter (fun r => r.lanes &&& s.cur.lanes == 0) ++
        [⟨s.cur.lanes, i, s.cur.pc, s.cur.npc, s.cur.memb, s.cur.stall, s.cur.grouped, remote, false⟩] })
def waitAt (s : State) (i : Instr) : State := waitFor s i []
/-- The wait of a set of lanes is over. -/
def Wave.unwait (v : Wave) (m : LaneMask) : Wave :=
  { (v.upd (lanesOf m) (fun _ l => { l with waiting := false })) with waits := v.waits.filter (fun r => r.lanes &&& m == 0) }
/-- The lanes issue nothing more for `n` cycles after their group (R86, R163). -/
def State.stall (s : State) (n : Nat) : State :=
  s.updLanes s.cur.wid (lanesOf s.cur.lanes) (fun _ l => { l with readyAt := max l.readyAt (s.clock + 1 + n) })

/-- Whether the remote operations of a list have landed: the counts that have come back reach it (R364). -/
def Pkg.landed (p : Pkg) (need : List (Nat × Nat × Nat)) : Bool :=
  need.all (fun r => if r.1 = r.2.1 then r.2.2 ≤ (p.peer r.1).appliedD
                     else r.2.2 ≤ fget 0 (p.peer r.1).doneVia r.2.1)
/-- The lanes of a wave that are in RUN at a PC. -/
def Wave.atPc (v : Wave) (pc : W64) : LaneMask := v.lanesWhere (fun l => l.st == .run && l.pc == pc)
/-- Whether the lanes of a wait are still the whole of their path: lanes that have come to stand at its PC belong to it too,
and the path then issues anew with all of them (R20, R35). -/
def Wave.waitWhole (v : Wave) (r : WaitRec) : Bool := r.lanes == v.atPc (v.lane ((lowLane r.lanes).getD 0)).pc
/-- Take up a wait: the issue it was made with, whose stall counts from now (R86). -/
def State.resumeCur (s : State) (w : Nat) (r : WaitRec) : State :=
  let past := r.isOver || (!r.remote.isEmpty && (s.pkg (s.troupe (s.wave w).tid).pkg).landed r.remote)
  { (s.modWave w (fun v => (v.unwait r.lanes).upd (lanesOf r.lanes) (fun _ l => { l with readyAt := s.clockOf w + 1 + r.stall }))) with
    cur := { Cur.init with wid := w, lanes := r.lanes, path := r.lanes, pc := r.pc, gpc := r.pc, npc := r.npc, memb := r.memb,
                           stall := r.stall, past := past } }

/-! ### Per-lane results -/

/-- The common shape of a per-lane instruction (R121, R141): each active lane sends its results and ORs in its flags,
a guarded-off lane under Z sends zeros, and the path goes on. `f` reads the state as it stood at issue. -/
def perLane (m : Mods) (t : Lat) (ds : List Dst) (f : Nat → List (Dst × W32) × BitVec 5) (s : State) : State :=
  let id := s.nextId
  let s1 := { s with nextId := s.nextId + 1 }
  finish (s1.updLanes s.cur.wid (lanesOf s.cur.lanes) (fun n l =>
    if m.active l then
      let r := f n
      { l.send (t.due s.clock) id r.1 with lflags := l.lflags ||| r.2 }
    else if m.zero then l.send (t.due s.clock) id (zeroOuts ds)
    else l)) []

/-- The same value in every active lane (R204), zeros under Z. -/
def sendAll (s : State) (m : Mods) (t : Lat) (d : Reg) (n : Nat) (outs : List (Dst × W32)) : State :=
  let id := s.nextId
  let s1 := { s with nextId := s.nextId + 1 }
  s1.updLanes s.cur.wid (lanesOf s.cur.lanes) (fun _ l =>
    if m.active l then l.send (t.due s.clock) id outs
    else if m.zero then l.send (t.due s.clock) id (zeroOuts (dstRegs d n))
    else l)
/-- Owe one result to every active lane; answers the tag it is owed under. -/
def oweAll (s : State) (m : Mods) (remote : Bool) (d : Reg) (n : Nat) : State × Nat :=
  let id := s.nextId
  let s1 := { s with nextId := s.nextId + 1 }
  (s1.updLanes s.cur.wid (lanesOf s.cur.lanes) (fun _ l =>
    if m.active l then l.owe remote id (dstRegs d n)
    else if m.zero then l.send none id (zeroOuts (dstRegs d n))
    else l), id)
/-- A result owed to lanes of a wave under a tag becomes known. -/
def fillTag (s : State) (w : Nat) (ls : LaneMask) (tag : Nat) (outs : Nat → List (Dst × W32)) : State :=
  s.updLanes w (lanesOf ls) (fun n l => l.fill tag (outs n))

end Sys2Proof.Machine
end

