-- ==== Sys2Proof/Machine/Flags.lean ====
section
/-! DEFINITION. Every flag the spec gives: the sticky floating-point flags of a lane and of a wave's WCTL (R45, R53),
the rounding mode field, the carry and borrow words of the wide additions (R124), and the saturations (R122). -/

namespace Sys2Proof.Machine

/-- The flags of R53 by their place in LFLAGS. -/
def flNone : BitVec 5 := 0
def flNV : BitVec 5 := 1
def flDZ : BitVec 5 := 2
def flOF : BitVec 5 := 4
def flUF : BitVec 5 := 8
def flNX : BitVec 5 := 16

/-- OR flags into lanes of a wave. -/
def State.raiseFlags (s : State) (w : Nat) (ls : List Nat) (f : BitVec 5) : State :=
  s.updLanes w ls (fun _ l => { l with lflags := l.lflags ||| f })

/-- WCTL[8:4]: the OR of LFLAGS over every lane of the wave, ended lanes included (R45, R53). -/
def Wave.flags (w : Wave) : BitVec 5 := (List.range 32).foldl (fun a l => a ||| (w.lane l).lflags) 0
/-- WCTL as it reads (R45). -/
def Wave.wctl (w : Wave) : W32 := 0#23 ++ w.flags ++ w.rm ++ (BitVec.ofBool w.chk)
/-- A value that WCTL refuses: a reserved bit, or a rounding mode that names none (R45). -/
def wctlBad (v : W32) : Bool :=
  let rm := (v.extractLsb' 1 3).toNat
  v >>> 9 != 0 || rm == 0 || rm == 6 || rm == 7
/-- A write of WCTL (R45): every lane of the wave receives the flags. -/
def Wave.setWctl (w : Wave) (v : W32) : Wave :=
  { (w.upd (List.range 32) (fun _ l => { l with lflags := v.extractLsb' 4 5 })) with
    rm := v.extractLsb' 1 3, chk := v.getLsbD 0 }

/-- The mode that a rounding code names (R49). -/
def rmodeOf (c : BitVec 3) : Option RMode :=
  match c.toNat with
  | 1 => some .rne | 2 => some .rtz | 3 => some .rdn | 4 => some .rup | 5 => some .rna
  | _ => none
/-- The rounding mode of an instruction as it issues (R49, R141): its own, WCTL.RM, or its default. -/
def State.rmode (s : State) (m : Mods) (dflt : RMode) : RMode :=
  match m.opt with
  | none => dflt
  | some o => if o.rnd = 0 then dflt
              else if o.rnd = 6 then (rmodeOf s.curWave.rm).getD .rne
              else (rmodeOf o.rnd).getD dflt

/-- Sum and carry out, difference and borrow out, of one digit of a wide addition (R124). -/
def addCarry (w : Nat) (a b : BitVec w) (c : Bool) : BitVec w × Bool :=
  let t := a.toNat + b.toNat + c.toNat
  (BitVec.ofNat w t, 2 ^ w ≤ t)
def subBorrow (w : Nat) (a b : BitVec w) (c : Bool) : BitVec w × Bool :=
  (BitVec.ofInt w ((a.toNat : Int) - b.toNat - c.toNat), a.toNat < b.toNat + c.toNat)

/-- Clamp an exact signed result to 32 bits (R122), or to unsigned 32 bits (R128). -/
def satS32 (x : Int) : W32 :=
  if x < -(2 ^ 31) then 0x80000000 else if 2 ^ 31 ≤ x then 0x7FFFFFFF else BitVec.ofInt 32 x
def satZ32 (x : Int) : W32 := if x < 0 then 0 else if 2 ^ 32 ≤ x then 0xFFFFFFFF else BitVec.ofInt 32 x

end Sys2Proof.Machine
end

