-- ==== Sys2Proof/Machine/Operands.lean ====
section
/-! DEFINITION. The operand forms of every instruction: which registers and predicates it reads and writes (R13 to
R16, R70 to R72), the checks of R91 on them, literals (R76), pipes (R93), and reading a parameter block (R72, R204). -/

namespace Sys2Proof

/-- Register words of a type. -/
def words (w : Bool) : Nat := if w then 2 else 1
def IType.words : IType → Nat | .s32 => 1 | .z32 => 1 | .s64 => 2 | .z64 => 2
def FFmt.words : FFmt → Nat | .f64 => 2 | _ => 1
def CvtType.words : CvtType → Nat | .f64 => 2 | .s64 => 2 | .z64 => 2 | _ => 1
def PackKind.srcWords : PackKind → Nat | .toF16x2 => 2 | .toBf16x2 => 2 | _ => 1
def PackKind.dstWords : PackKind → Nat | .ofF16x2 => 2 | .ofBf16x2 => 2 | _ => 1
def RedType.words : RedType → Nat | .f64 => 2 | _ => 1
def lredWords (o : RedOp) (t : RedType) : Nat := match o with | .minIdx => 2 | .maxIdx => 2 | _ => t.words
def Space.addrWords : Space → Nat | .g => 2 | _ => 1
def MemType.words : MemType → Nat | .b64 => 2 | .b128 => 4 | _ => 1
def MemType.bytes : MemType → Nat | .s8 => 1 | .z8 => 1 | .s16 => 2 | .z16 => 2 | .b32 => 4 | .b64 => 8 | .b128 => 16

/-! ### Literals (R76) -/

def Mods.litBits (m : Mods) : BitVec 29 := m.lit.getD 0
def litC (m : Mods) : Reg := m.litBits.setWidth 7
def litC2 (m : Mods) : Reg := m.litBits.extractLsb' 7 7
/-- Scope and byte offset of a MEM form. -/
def Mods.memScope (m : Mods) : Scope := scopeOf (m.litBits.setWidth 2).toNat
def Mods.memOff (m : Mods) : Int := (m.litBits.extractLsb' 2 27).toInt
/-- Scope, order, space and byte offset of a SYNC form. -/
def Mods.syncScope (m : Mods) : Scope := scopeOf (m.litBits.setWidth 2).toNat
def Mods.syncOrd (m : Mods) : MemOrd := memOrdOf (m.litBits.extractLsb' 2 2).toNat
def Mods.syncSpace (m : Mods) : Space := (spaceOf (m.litBits.extractLsb' 4 2).toNat).getD .g
def Mods.syncOff (m : Mods) : Int := (m.litBits.extractLsb' 6 23).toInt
/-- The byte offset of an FM form. -/
def Mods.fmOff (m : Mods) (o : BitVec 7) (size : Nat) : Int :=
  match m.lit with
  | some l => l.toInt
  | none => o.toInt * size

end Sys2Proof

namespace Sys2Proof.Machine

/-! ### The control registers (R44) -/

inductive CsrScope | lane | wave | troupe | core | package
  deriving DecidableEq, Repr
/-- The number, width and access of each control register: `sw` marks those that system mode may write. -/
structure CsrInfo where
  scope : CsrScope
  wide : Bool
  rw : Bool
  sw : Bool
  deriving DecidableEq, Repr
def csrInfo (n : Nat) : Option CsrInfo :=
  match n with
  | 0x000 => some ⟨.wave, false, true, false⟩
  | 0x001 => some ⟨.lane, false, true, false⟩
  | 0x002 => some ⟨.wave, false, false, false⟩
  | 0x003 => some ⟨.wave, false, false, true⟩
  | 0x008 => some ⟨.troupe, false, false, false⟩
  | 0x009 => some ⟨.troupe, false, false, false⟩
  | 0x00A => some ⟨.troupe, false, false, false⟩
  | 0x00B => some ⟨.core, false, false, false⟩
  | 0x00C => some ⟨.package, false, false, false⟩
  | 0x00D => some ⟨.package, false, false, false⟩
  | 0x010 => some ⟨.core, true, false, false⟩
  | 0x020 => some ⟨.lane, false, false, true⟩
  | 0x021 => some ⟨.lane, true, false, true⟩
  | 0x022 => some ⟨.lane, true, false, true⟩
  | 0x030 => some ⟨.package, false, false, true⟩
  | 0x040 => some ⟨.package, true, false, false⟩
  | 0x041 => some ⟨.package, false, false, false⟩
  | 0x042 => some ⟨.package, true, false, false⟩
  | 0x050 => some ⟨.core, true, false, false⟩
  | 0x060 => some ⟨.package, true, false, false⟩
  | 0x061 => some ⟨.package, true, false, false⟩
  | 0x070 => some ⟨.package, true, false, false⟩
  | 0x071 => some ⟨.package, true, false, false⟩
  | 0x080 => some ⟨.troupe, false, false, false⟩
  | 0x100 => some ⟨.troupe, true, false, true⟩
  | 0x101 => some ⟨.troupe, true, false, true⟩
  | _ => none
def csrWords (r : BitVec 12) : Nat :=
  match csrInfo r.toNat with
  | some i => words i.wide
  | none => 1

/-! ### Operands -/

/-- The three pipes (R93). -/
inductive Pipe | i | v | m
  deriving DecidableEq, Repr

/-- An operand field: `n` words of registers, a parameter block, a predicate, a group of 32 predicates. -/
inductive Opnd
  | reg (n : Nat) (r : Reg)
  | blk (n : Nat) (r : Reg)
  | pred (q : Reg)
  | preds (k : BitVec 2)
  deriving DecidableEq, Repr

structure Opds where
  srcs : List Opnd
  dsts : List Opnd
  deriving DecidableEq, Repr

/-- B, when no literal replaces it; E, when it is there; the third source C, which is D without E (R75, R76). -/
def bOpnd (m : Mods) (n : Nat) (b : Reg) : List Opnd := if m.lit.isSome then [] else [.reg n b]
def eOpnd (m : Mods) (n : Nat) : List Opnd := match m.eReg with | some e => [.reg n e] | none => []
def ePred (m : Mods) : List Opnd := match m.eReg with | some e => [.pred e] | none => []
def cOpnd (m : Mods) (n : Nat) (d : Reg) : Opnd := .reg n (m.eReg.getD d)

/-- The registers and predicates an operand covers (R14 to R16, R71, R139, R140). -/
def Opnd.cells : Opnd → List Dst
  | .reg n r => dstRegs r n
  | .blk n r => dstRegs r n
  | .pred q => if q = 0 then [] else [.p q]
  | .preds k => ((List.range 32).map (fun i => Dst.p (BitVec.ofNat 7 (32 * k.toNat + i)))).filter (fun d => d != .p 0)

end Sys2Proof.Machine

namespace Sys2Proof

open Machine

/-- What each instruction reads and writes besides its guard. -/
def Instr.opds : Instr → Opds
  | .iadd m d a b => ⟨.reg 1 a :: bOpnd m 1 b, [.reg 1 d]⟩
  | .isub m d a b => ⟨.reg 1 a :: bOpnd m 1 b, [.reg 1 d]⟩
  | .imul m d a b => ⟨.reg 1 a :: bOpnd m 1 b, [.reg 1 d]⟩
  | .imad m d a b => ⟨.reg 1 a :: cOpnd m 1 d :: bOpnd m 1 b, [.reg 1 d]⟩
  | .andB32 m d a b => ⟨.reg 1 a :: bOpnd m 1 b, [.reg 1 d]⟩
  | .orB32 m d a b => ⟨.reg 1 a :: bOpnd m 1 b, [.reg 1 d]⟩
  | .xorB32 m d a b => ⟨.reg 1 a :: bOpnd m 1 b, [.reg 1 d]⟩
  | .shl m d a b => ⟨.reg 1 a :: bOpnd m 1 b, [.reg 1 d]⟩
  | .shr m d a b => ⟨.reg 1 a :: bOpnd m 1 b, [.reg 1 d]⟩
  | .sar m d a b => ⟨.reg 1 a :: bOpnd m 1 b, [.reg 1 d]⟩
  | .lea _ d a b => ⟨[.reg 2 a, .reg 1 b], [.reg 2 d]⟩
  | .sel m d a b => ⟨.reg 1 a :: (ePred m ++ bOpnd m 1 b), [.reg 1 d]⟩
  | .bfx m d a b => ⟨.reg 1 a :: bOpnd m 1 b, [.reg 1 d]⟩
  | .bfi m d a b => ⟨.reg 1 a :: cOpnd m 1 d :: bOpnd m 1 b, [.reg 1 d]⟩
  | .prmt m d a b => ⟨.reg 1 a :: cOpnd m 1 d :: bOpnd m 1 b, [.reg 1 d]⟩
  | .shf m d a b => ⟨.reg 1 a :: cOpnd m 1 d :: bOpnd m 1 b, [.reg 1 d]⟩
  | .lop3 m d a b => ⟨[.reg 1 a, .reg 1 b, .reg 1 (litC m)], [.reg 1 d]⟩
  | .iaddi _ d a _ => ⟨[.reg 1 a], [.reg 1 d]⟩
  | .shi _ _ _ d a => ⟨[.reg 1 a], [.reg 1 d]⟩
  | .movi _ d _ => ⟨[], [.reg 1 d]⟩
  | .movl _ d _ => ⟨[], [.reg 1 d]⟩
  | .movh _ d _ => ⟨[], [.reg 1 d]⟩
  | .mov _ w d a => ⟨[.reg (words w) a], [.reg (words w) d]⟩
  | .popc _ w d a => ⟨[.reg (words w) a], [.reg 1 d]⟩
  | .clz _ w d a => ⟨[.reg (words w) a], [.reg 1 d]⟩
  | .ctz _ w d a => ⟨[.reg (words w) a], [.reg 1 d]⟩
  | .brev _ w d a => ⟨[.reg (words w) a], [.reg (words w) d]⟩
  | .iabs _ w d a => ⟨[.reg (words w) a], [.reg (words w) d]⟩
  | .ineg _ w d a => ⟨[.reg (words w) a], [.reg (words w) d]⟩
  | .iaddB64 _ d a => ⟨[.reg 2 d, .reg 2 a], [.reg 2 d]⟩
  | .isubB64 _ d a => ⟨[.reg 2 d, .reg 2 a], [.reg 2 d]⟩
  | .imulB64 _ d a => ⟨[.reg 2 d, .reg 2 a], [.reg 2 d]⟩
  | .iaddcB32 _ d a => ⟨[.reg 2 d, .reg 1 a], [.reg 2 d]⟩
  | .isubbB32 _ d a => ⟨[.reg 2 d, .reg 1 a], [.reg 2 d]⟩
  | .iaddcB64 _ d a => ⟨[.reg 4 d, .reg 2 a], [.reg 4 d]⟩
  | .isubbB64 _ d a => ⟨[.reg 4 d, .reg 2 a], [.reg 4 d]⟩
  | .imulh _ t d a => ⟨[.reg t.words d, .reg t.words a], [.reg t.words d]⟩
  | .imadw m _ d a => ⟨.reg 2 d :: .reg 1 a :: eOpnd m 1, [.reg 2 d]⟩
  | .idiv _ t d a => ⟨[.reg t.words d, .reg t.words a], [.reg t.words d]⟩
  | .irem _ t d a => ⟨[.reg t.words d, .reg t.words a], [.reg t.words d]⟩
  | .imin _ t d a => ⟨[.reg t.words d, .reg t.words a], [.reg t.words d]⟩
  | .imax _ t d a => ⟨[.reg t.words d, .reg t.words a], [.reg t.words d]⟩
  | .iclamp m t d a => ⟨.reg t.words d :: .reg t.words a :: eOpnd m t.words, [.reg t.words d]⟩
  | .dp4 m _ d a => ⟨.reg 1 d :: .reg 1 a :: eOpnd m 1, [.reg 1 d]⟩
  | .shlB64 _ d a => ⟨[.reg 2 d, .reg 1 a], [.reg 2 d]⟩
  | .shrB64 _ d a => ⟨[.reg 2 d, .reg 1 a], [.reg 2 d]⟩
  | .sarB64 _ d a => ⟨[.reg 2 d, .reg 1 a], [.reg 2 d]⟩
  | .rotlB32 _ d a => ⟨[.reg 1 d, .reg 1 a], [.reg 1 d]⟩
  | .rotlB64 _ d a => ⟨[.reg 2 d, .reg 1 a], [.reg 2 d]⟩
  | .andB64 _ d a => ⟨[.reg 2 d, .reg 2 a], [.reg 2 d]⟩
  | .orB64 _ d a => ⟨[.reg 2 d, .reg 2 a], [.reg 2 d]⟩
  | .xorB64 _ d a => ⟨[.reg 2 d, .reg 2 a], [.reg 2 d]⟩
  | .pmov _ d a => ⟨[.pred a], [.pred d]⟩
  | .pset _ d _ => ⟨[], [.pred d]⟩
  | .p2g _ d k => ⟨[.preds k], [.reg 1 d]⟩
  | .g2p _ k a => ⟨[.reg 1 a], [.preds k]⟩
  | .plop3 m d a => ⟨[.pred a, .pred (litC m), .pred (litC2 m)], [.pred d]⟩
  | .icmpEq m w p a b => ⟨.reg (words w) a :: bOpnd m (words w) b, [.pred (p.setWidth 7)]⟩
  | .icmpNe m w p a b => ⟨.reg (words w) a :: bOpnd m (words w) b, [.pred (p.setWidth 7)]⟩
  | .icmpLtS m w p a b => ⟨.reg (words w) a :: bOpnd m (words w) b, [.pred (p.setWidth 7)]⟩
  | .icmpLtZ m w p a b => ⟨.reg (words w) a :: bOpnd m (words w) b, [.pred (p.setWidth 7)]⟩
  | .faddF32 m d a b => ⟨.reg 1 a :: bOpnd m 1 b, [.reg 1 d]⟩
  | .fsubF32 m d a b => ⟨.reg 1 a :: bOpnd m 1 b, [.reg 1 d]⟩
  | .fmulF32 m d a b => ⟨.reg 1 a :: bOpnd m 1 b, [.reg 1 d]⟩
  | .ffmaF32 m d a b => ⟨.reg 1 a :: cOpnd m 1 d :: bOpnd m 1 b, [.reg 1 d]⟩
  | .faddF64 m d a b => ⟨.reg 2 a :: bOpnd m 2 b, [.reg 2 d]⟩
  | .fmulF64 m d a b => ⟨.reg 2 a :: bOpnd m 2 b, [.reg 2 d]⟩
  | .ffmaF64 m d a b => ⟨.reg 2 a :: cOpnd m 2 d :: bOpnd m 2 b, [.reg 2 d]⟩
  | .fcmpEq m w p a b => ⟨.reg (words w) a :: bOpnd m (words w) b, [.pred (p.setWidth 7)]⟩
  | .fcmpLt m w p a b => ⟨.reg (words w) a :: bOpnd m (words w) b, [.pred (p.setWidth 7)]⟩
  | .fcmpLe m w p a b => ⟨.reg (words w) a :: bOpnd m (words w) b, [.pred (p.setWidth 7)]⟩
  | .fcmpUn m w p a b => ⟨.reg (words w) a :: bOpnd m (words w) b, [.pred (p.setWidth 7)]⟩
  | .fabs _ f d a => ⟨[.reg f.words a], [.reg f.words d]⟩
  | .fneg _ f d a => ⟨[.reg f.words a], [.reg f.words d]⟩
  | .fsqrt _ f d a => ⟨[.reg f.words a], [.reg f.words d]⟩
  | .frcp _ f d a => ⟨[.reg f.words a], [.reg f.words d]⟩
  | .frsqrt _ f d a => ⟨[.reg f.words a], [.reg f.words d]⟩
  | .fexp2 _ f d a => ⟨[.reg f.words a], [.reg f.words d]⟩
  | .flog2 _ f d a => ⟨[.reg f.words a], [.reg f.words d]⟩
  | .fsinpi _ f d a => ⟨[.reg f.words a], [.reg f.words d]⟩
  | .fcospi _ f d a => ⟨[.reg f.words a], [.reg f.words d]⟩
  | .ftanh _ f d a => ⟨[.reg f.words a], [.reg f.words d]⟩
  | .fclass _ f d a => ⟨[.reg f.words a], [.reg 1 d]⟩
  | .fgetexp _ f d a => ⟨[.reg f.words a], [.reg f.words d]⟩
  | .fgetman _ f d a => ⟨[.reg f.words a], [.reg f.words d]⟩
  | .frint _ f d a => ⟨[.reg f.words a], [.reg f.words d]⟩
  | .fadd _ f d a => ⟨[.reg f.words d, .reg f.words a], [.reg f.words d]⟩
  | .fsub _ f d a => ⟨[.reg f.words d, .reg f.words a], [.reg f.words d]⟩
  | .fmul _ f d a => ⟨[.reg f.words d, .reg f.words a], [.reg f.words d]⟩
  | .ffma m f d a => ⟨.reg f.words d :: .reg f.words a :: eOpnd m f.words, [.reg f.words d]⟩
  | .fmin _ f d a => ⟨[.reg f.words d, .reg f.words a], [.reg f.words d]⟩
  | .fmax _ f d a => ⟨[.reg f.words d, .reg f.words a], [.reg f.words d]⟩
  | .fcopysign _ f d a => ⟨[.reg f.words d, .reg f.words a], [.reg f.words d]⟩
  | .fdiv _ f d a => ⟨[.reg f.words d, .reg f.words a], [.reg f.words d]⟩
  | .fscale _ f d a => ⟨[.reg f.words d, .reg 1 a], [.reg f.words d]⟩
  | .fdot2 m _ d a => ⟨.reg 1 d :: .reg 1 a :: eOpnd m 1, [.reg 1 d]⟩
  | .cvt _ x y d a => ⟨[.reg y.words a], [.reg x.words d]⟩
  | .cvtPack _ k d a => ⟨[.reg k.srcWords a], [.reg k.dstWords d]⟩
  | .lred _ o t d a => ⟨[.reg t.words a], [.reg (lredWords o t) d]⟩
  | .lscan _ _ _ t d a => ⟨[.reg t.words a], [.reg t.words d]⟩
  | .vote _ _ d a => ⟨[.pred a], [.pred d]⟩
  | .ballot _ d a => ⟨[.pred a], [.reg 1 d]⟩
  | .matchLanes _ w d a => ⟨[.reg (words w) a], [.reg 2 d]⟩
  | .shfl m _ d a => ⟨.reg 1 d :: .reg 1 a :: eOpnd m 1, [.reg 1 d]⟩
  | .bra _ _ _ p => ⟨[.pred p], []⟩
  | .call _ _ _ p => ⟨[.pred p], [.reg 2 0]⟩
  | .jmp _ a => ⟨[.reg 2 a], []⟩
  | .callr _ d a => ⟨[.reg 2 a], [.reg 2 d]⟩
  | .ret _ a => ⟨[.reg 2 a], []⟩
  | .brx _ a => ⟨[.reg 1 a], []⟩
  | .exit _ => ⟨[], []⟩
  | .trap _ _ => ⟨[], []⟩
  | .brk _ => ⟨[], []⟩
  | .nop _ => ⟨[], []⟩
  | .yield _ => ⟨[], []⟩
  | .pause _ => ⟨[], []⟩
  | .wsb _ => ⟨[], []⟩
  | .rjEnter _ _ => ⟨[], []⟩
  | .rjQuit _ _ => ⟨[], []⟩
  | .rjWait _ _ => ⟨[], []⟩
  | .rjGet _ d _ => ⟨[], [.reg 1 d]⟩
  | .rjSet _ d _ => ⟨[.reg 1 d], []⟩
  | .rjClr _ _ => ⟨[], []⟩
  | .ldGB32 _ _ d a => ⟨[.reg 2 a], [.reg 1 d]⟩
  | .stGB32 _ _ d a => ⟨[.reg 1 d, .reg 2 a], []⟩
  | .ldGB64 _ _ d a => ⟨[.reg 2 a], [.reg 2 d]⟩
  | .stGB64 _ _ d a => ⟨[.reg 2 d, .reg 2 a], []⟩
  | .ldGB128 _ _ d a => ⟨[.reg 2 a], [.reg 4 d]⟩
  | .stGB128 _ _ d a => ⟨[.reg 4 d, .reg 2 a], []⟩
  | .ldSB32 _ _ d a => ⟨[.reg 1 a], [.reg 1 d]⟩
  | .stSB32 _ _ d a => ⟨[.reg 1 d, .reg 1 a], []⟩
  | .ld _ u t _ d a => ⟨[.reg u.addrWords a], [.reg t.words d]⟩
  | .st _ u t _ d a => ⟨[.reg t.words d, .reg u.addrWords a], []⟩
  | .ldkLow _ d _ => ⟨[], [.reg 1 d]⟩
  | .ldkHigh _ d _ => ⟨[], [.reg 1 d]⟩
  | .ldkReg _ d a => ⟨[.reg 1 a], [.reg 1 d]⟩
  | .prefG _ a => ⟨[.reg 2 a], []⟩
  | .atom m _ w d a => ⟨[.reg (words w) d, .reg m.syncSpace.addrWords a], [.reg (words w) d]⟩
  | .cas m w d a => ⟨.reg (words w) d :: .reg m.syncSpace.addrWords a :: eOpnd m (words w), [.reg (words w) d]⟩
  | .redOp m _ w d a => ⟨[.reg (words w) d, .reg m.syncSpace.addrWords a], []⟩
  | .fncIss _ d _ => ⟨[], [.reg 1 d]⟩
  | .fncWt _ a => ⟨[.reg 1 a], []⟩
  | .ownGive _ a => ⟨[.reg 1 a], []⟩
  | .ownTake _ a => ⟨[.reg 1 a], []⟩
  | .ownTest _ d a => ⟨[.reg 1 a], [.reg 1 d]⟩
  | .rngWait _ d a => ⟨[.reg 1 a], [.reg 1 d]⟩
  | .rngRel _ a => ⟨[.reg 1 a], []⟩
  | .mrgFree _ a => ⟨[.reg 1 a], []⟩
  | .bbInit _ d a => ⟨[.reg 1 a, .reg 1 d], []⟩
  | .bbExp _ d a => ⟨[.reg 1 a, .reg 1 d], []⟩
  | .bbArv _ d a => ⟨[.reg 1 a, .reg 1 d], []⟩
  | .bbWt _ a => ⟨[.reg 1 a], []⟩
  | .bop _ d a => ⟨[.blk 8 a], [.reg 1 d]⟩
  | .halloc _ d a => ⟨[.reg 1 a], [.reg 2 d]⟩
  | .hfree _ a => ⟨[.reg 2 a], []⟩
  | .obRsv _ a => ⟨[.blk 4 a], []⟩
  | .obRel _ a => ⟨[.blk 1 a], []⟩
  | .tcCopy _ a => ⟨[.blk 6 a], []⟩
  | .tcOb _ a => ⟨[.blk 4 a], []⟩
  | .tcMcast _ a => ⟨[.blk 4 a], []⟩
  | .permLoad _ d a => ⟨[.blk 4 a], [.reg 1 d]⟩
  | .mxCfg _ a => ⟨[.blk 1 a], []⟩
  | .mxStat _ a => ⟨[.blk 2 a], []⟩
  | .mxSwap _ => ⟨[], []⟩
  | .mxStrm _ a => ⟨[.blk 2 a], []⟩
  | .mxDrain _ d a => ⟨[.blk 3 a], [.reg 1 d]⟩
  | .mxZero _ a => ⟨[.blk 1 a], []⟩
  | .mxWait _ => ⟨[], []⟩
  | .mxSave _ a => ⟨[.blk 3 a], []⟩
  | .mxRest _ a => ⟨[.blk 3 a], []⟩
  | .rst _ _ _ d a => ⟨[.blk 4 a], [.reg 1 d]⟩
  | .rld _ _ _ d a => ⟨[.blk 4 a], [.reg 1 d]⟩
  | .ratom _ _ _ _ d a => ⟨[.blk 8 a], [.reg 1 d]⟩
  | .rcopy _ tok _ _ d a => ⟨[.blk 8 a], (if tok then [.reg 1 d] else [])⟩
  | .tokJoin _ d a => ⟨[.reg 1 d, .blk 1 a], [.reg 1 d]⟩
  | .tokTest _ d a => ⟨[.blk 1 a], [.reg 1 d]⟩
  | .tokWait _ a => ⟨[.blk 1 a], []⟩
  | .collRun _ d a => ⟨[.blk 8 a], [.reg 1 d]⟩
  | .collWt _ d a => ⟨[.blk 1 a], [.reg 1 d]⟩
  | .reelGo _ d a => ⟨[.blk 2 a], [.reg 1 d]⟩
  | .reelStat _ d a => ⟨[.blk 1 a], [.reg 1 d]⟩
  | .evtSig _ a => ⟨[.blk 3 a], []⟩
  | .evtWt _ a => ⟨[.blk 4 a], []⟩
  | .regGrow _ _ => ⟨[], []⟩
  | .regShrink _ _ => ⟨[], []⟩
  | .qpush _ d => ⟨[.reg 1 d], []⟩
  | .qpop _ d => ⟨[], [.reg 1 d]⟩
  | .spawn _ d a => ⟨[.blk 4 a], [.reg 1 d]⟩
  | .tret _ => ⟨[], []⟩
  | .ctxPark _ => ⟨[], []⟩
  | .sysc _ _ => ⟨[], []⟩
  | .vmCommit _ d a => ⟨[.blk 2 a], [.reg 1 d]⟩
  | .vmFree _ d a => ⟨[.blk 2 a], [.reg 1 d]⟩
  | .vmProt _ d a => ⟨[.blk 4 a], [.reg 1 d]⟩
  | .vmDup _ d a => ⟨[.blk 6 a], [.reg 1 d]⟩
  | .vmSplit _ d a => ⟨[.blk 2 a], [.reg 1 d]⟩
  | .tlbInv _ a => ⟨[.blk 4 a], []⟩
  | .detRng _ a => ⟨[.blk 4 a], []⟩
  | .detFlush _ => ⟨[], []⟩
  | .recMark _ a => ⟨[.blk 1 a], []⟩
  | .tbar _ => ⟨[], []⟩
  | .tbarArv _ d => ⟨[], [.reg 1 d]⟩
  | .tbarWt _ a => ⟨[.reg 1 a], []⟩
  | .cbar _ => ⟨[], []⟩
  | .cbarArv _ d => ⟨[], [.reg 1 d]⟩
  | .cbarWt _ a => ⟨[.reg 1 a], []⟩
  | .csrr _ r d => ⟨[], [.reg (csrWords r) d]⟩
  | .csrw _ r d => ⟨[.reg (csrWords r) d], []⟩
  | .csrx _ r d => ⟨[.reg (csrWords r) d], [.reg (csrWords r) d]⟩
  | .handlerEntry _ => ⟨[], []⟩
  | .regGrant _ => ⟨[], []⟩
  | .yieldRelease _ => ⟨[], []⟩
  | .pauseExpiry _ => ⟨[], []⟩
  | .scoreboardWrite _ _ _ => ⟨[], []⟩
  | .queuePushDone _ => ⟨[], []⟩
  | .queuePopDone _ => ⟨[], []⟩
  | .ownTakeDone _ => ⟨[], []⟩
  | .ringWaitDone _ => ⟨[], []⟩
  | .fencePerformed _ _ => ⟨[], []⟩
  | .accessPerform _ => ⟨[], []⟩
  | .pageWalkComplete _ _ _ _ => ⟨[], []⟩
  | .bankAluApply _ _ => ⟨[], []⟩
  | .bopComplete _ _ => ⟨[], []⟩
  | .vmChangeComplete _ _ => ⟨[], []⟩
  | .evtWaitRecheck _ => ⟨[], []⟩
  | .commandAccept _ => ⟨[], []⟩
  | .engineUnitRead _ _ _ => ⟨[], []⟩
  | .engineUnitWrite _ _ => ⟨[], []⟩
  | .ringSlotFill _ _ => ⟨[], []⟩
  | .planeFillDone _ => ⟨[], []⟩
  | .streamResults _ => ⟨[], []⟩
  | .drainWrite _ => ⟨[], []⟩
  | .mxWaitDone _ => ⟨[], []⟩
  | .obRelDone _ => ⟨[], []⟩
  | .budgetPeriodStart _ => ⟨[], []⟩
  | .launchDoorbell _ _ _ => ⟨[], []⟩
  | .frontEndTake _ _ => ⟨[], []⟩
  | .launchReady _ _ => ⟨[], []⟩
  | .launchRecheckTimer _ _ => ⟨[], []⟩
  | .launchAging _ _ => ⟨[], []⟩
  | .callerHandover _ => ⟨[], []⟩
  | .corpsPlacement _ _ => ⟨[], []⟩
  | .troupePublish _ => ⟨[], []⟩
  | .graphNodeStart _ _ _ => ⟨[], []⟩
  | .graphNodeDone _ _ _ => ⟨[], []⟩
  | .deferredApply _ _ => ⟨[], []⟩
  | .drainDeadline _ _ => ⟨[], []⟩
  | .evictionDeadline _ _ => ⟨[], []⟩
  | .preemptSaveImage _ => ⟨[], []⟩
  | .troupeLeavesCore _ => ⟨[], []⟩
  | .restorePlacement _ _ => ⟨[], []⟩
  | .steerReply _ => ⟨[], []⟩
  | .eccu _ _ _ => ⟨[], []⟩
  | .slotStart _ => ⟨[], []⟩
  | .frameReceive _ _ _ => ⟨[], []⟩
  | .masterLoss _ => ⟨[], []⟩
  | .freeRunExpiry _ => ⟨[], []⟩
  | .laneFailure _ _ _ => ⟨[], []⟩
  | .laneRejoin _ _ _ => ⟨[], []⟩
  | .storePacket _ => ⟨[], []⟩
  | .loadPacket _ => ⟨[], []⟩
  | .replyPacket _ => ⟨[], []⟩
  | .faultReplyPacket _ => ⟨[], []⟩
  | .atomicPacket _ => ⟨[], []⟩
  | .copySegmentPacket _ => ⟨[], []⟩
  | .vectorStorePart _ => ⟨[], []⟩
  | .vectorLoadPart _ => ⟨[], []⟩
  | .vectorAtomicPart _ => ⟨[], []⟩
  | .landedNotice _ => ⟨[], []⟩
  | .releaseNotice _ => ⟨[], []⟩
  | .appliedCountNotice _ => ⟨[], []⟩
  | .forwardedCountNotice _ => ⟨[], []⟩
  | .relayedAppliedCountNotice _ => ⟨[], []⟩
  | .holdFreeNotice _ => ⟨[], []⟩
  | .expiryNotice _ => ⟨[], []⟩
  | .invalidateNotice _ => ⟨[], []⟩
  | .holdExpiry _ _ => ⟨[], []⟩
  | .collEntryStart _ _ _ => ⟨[], []⟩
  | .collEntryComplete _ _ _ => ⟨[], []⟩
  | .reducerFold _ _ => ⟨[], []⟩
  | .reelWait _ => ⟨[], []⟩
  | .reelGather _ => ⟨[], []⟩
  | .reelRun _ => ⟨[], []⟩
  | .reelHandoff _ => ⟨[], []⟩
  | .bootRom _ _ => ⟨[], []⟩
  | .recoveryImage _ _ => ⟨[], []⟩
  | .mrExtend _ _ _ => ⟨[], []⟩
  | .attestationRequest _ _ _ => ⟨[], []⟩
  | .featureGo _ => ⟨[], []⟩
  | .apertureRead _ _ _ => ⟨[], []⟩
  | .apertureWrite _ _ _ _ => ⟨[], []⟩
  | .apertureControlWrite _ _ _ => ⟨[], []⟩
  | .correctedError _ _ _ _ => ⟨[], []⟩
  | .uncorrectableError _ _ _ _ => ⟨[], []⟩
  | .selfTestEnd _ _ _ _ => ⟨[], []⟩
  | .budgetWrite _ _ _ => ⟨[], []⟩
  | .pcapWrite _ _ => ⟨[], []⟩
  | .pstateWrite _ _ => ⟨[], []⟩
  | .temperatureEvent _ _ => ⟨[], []⟩
  | .hostCommandDoorbell _ _ => ⟨[], []⟩
  | .ctxnew _ _ => ⟨[], []⟩
  | .ctxentry _ _ => ⟨[], []⟩
  | .ctxstop _ _ => ⟨[], []⟩
  | .ctxfree _ _ => ⟨[], []⟩
  | .ctxevt _ _ => ⟨[], []⟩
  | .preempt _ _ => ⟨[], []⟩
  | .preend _ _ => ⟨[], []⟩
  | .resume _ _ => ⟨[], []⟩
  | .planload _ _ => ⟨[], []⟩
  | .reelload _ _ => ⟨[], []⟩
  | .hndload _ _ => ⟨[], []⟩
  | .fctlset _ _ => ⟨[], []⟩
  | .masters _ _ => ⟨[], []⟩
  | .vmdup _ _ => ⟨[], []⟩
  | .vmsplit _ _ => ⟨[], []⟩
  | .vmprot _ _ => ⟨[], []⟩
  | .tlbinv _ _ => ⟨[], []⟩
  | .registerWrite _ _ _ _ => ⟨[], []⟩
  | .fixedLatencyResult _ => ⟨[], []⟩
  | .stallWaitExpiry _ => ⟨[], []⟩
  | .powerCapReached _ => ⟨[], []⟩

/-- Pipes (R93). An event has none. -/
def Instr.pipe : Instr → Option Pipe
  | .iadd _ _ _ _ => some .i
  | .isub _ _ _ _ => some .i
  | .imul _ _ _ _ => some .i
  | .imad _ _ _ _ => some .i
  | .andB32 _ _ _ _ => some .i
  | .orB32 _ _ _ _ => some .i
  | .xorB32 _ _ _ _ => some .i
  | .shl _ _ _ _ => some .i
  | .shr _ _ _ _ => some .i
  | .sar _ _ _ _ => some .i
  | .lea _ _ _ _ => some .i
  | .sel _ _ _ _ => some .i
  | .bfx _ _ _ _ => some .i
  | .bfi _ _ _ _ => some .i
  | .prmt _ _ _ _ => some .i
  | .shf _ _ _ _ => some .i
  | .lop3 _ _ _ _ => some .i
  | .iaddi _ _ _ _ => some .i
  | .shi _ _ _ _ _ => some .i
  | .movi _ _ _ => some .i
  | .movl _ _ _ => some .i
  | .movh _ _ _ => some .i
  | .mov _ _ _ _ => some .i
  | .popc _ _ _ _ => some .i
  | .clz _ _ _ _ => some .i
  | .ctz _ _ _ _ => some .i
  | .brev _ _ _ _ => some .i
  | .iabs _ _ _ _ => some .i
  | .ineg _ _ _ _ => some .i
  | .iaddB64 _ _ _ => some .i
  | .isubB64 _ _ _ => some .i
  | .imulB64 _ _ _ => some .i
  | .iaddcB32 _ _ _ => some .i
  | .isubbB32 _ _ _ => some .i
  | .iaddcB64 _ _ _ => some .i
  | .isubbB64 _ _ _ => some .i
  | .imulh _ _ _ _ => some .i
  | .imadw _ _ _ _ => some .i
  | .idiv _ _ _ _ => some .i
  | .irem _ _ _ _ => some .i
  | .imin _ _ _ _ => some .i
  | .imax _ _ _ _ => some .i
  | .iclamp _ _ _ _ => some .i
  | .dp4 _ _ _ _ => some .i
  | .shlB64 _ _ _ => some .i
  | .shrB64 _ _ _ => some .i
  | .sarB64 _ _ _ => some .i
  | .rotlB32 _ _ _ => some .i
  | .rotlB64 _ _ _ => some .i
  | .andB64 _ _ _ => some .i
  | .orB64 _ _ _ => some .i
  | .xorB64 _ _ _ => some .i
  | .pmov _ _ _ => some .i
  | .pset _ _ _ => some .i
  | .p2g _ _ _ => some .i
  | .g2p _ _ _ => some .i
  | .plop3 _ _ _ => some .i
  | .icmpEq _ _ _ _ _ => some .i
  | .icmpNe _ _ _ _ _ => some .i
  | .icmpLtS _ _ _ _ _ => some .i
  | .icmpLtZ _ _ _ _ _ => some .i
  | .faddF32 _ _ _ _ => some .v
  | .fsubF32 _ _ _ _ => some .v
  | .fmulF32 _ _ _ _ => some .v
  | .ffmaF32 _ _ _ _ => some .v
  | .faddF64 _ _ _ _ => some .v
  | .fmulF64 _ _ _ _ => some .v
  | .ffmaF64 _ _ _ _ => some .v
  | .fcmpEq _ _ _ _ _ => some .v
  | .fcmpLt _ _ _ _ _ => some .v
  | .fcmpLe _ _ _ _ _ => some .v
  | .fcmpUn _ _ _ _ _ => some .v
  | .fabs _ _ _ _ => some .v
  | .fneg _ _ _ _ => some .v
  | .fsqrt _ _ _ _ => some .v
  | .frcp _ _ _ _ => some .v
  | .frsqrt _ _ _ _ => some .v
  | .fexp2 _ _ _ _ => some .v
  | .flog2 _ _ _ _ => some .v
  | .fsinpi _ _ _ _ => some .v
  | .fcospi _ _ _ _ => some .v
  | .ftanh _ _ _ _ => some .v
  | .fclass _ _ _ _ => some .v
  | .fgetexp _ _ _ _ => some .v
  | .fgetman _ _ _ _ => some .v
  | .frint _ _ _ _ => some .v
  | .fadd _ _ _ _ => some .v
  | .fsub _ _ _ _ => some .v
  | .fmul _ _ _ _ => some .v
  | .ffma _ _ _ _ => some .v
  | .fmin _ _ _ _ => some .v
  | .fmax _ _ _ _ => some .v
  | .fcopysign _ _ _ _ => some .v
  | .fdiv _ _ _ _ => some .v
  | .fscale _ _ _ _ => some .v
  | .fdot2 _ _ _ _ => some .v
  | .cvt _ _ _ _ _ => some .v
  | .cvtPack _ _ _ _ => some .v
  | .lred _ _ _ _ _ => some .v
  | .lscan _ _ _ _ _ _ => some .v
  | .vote _ _ _ _ => some .v
  | .ballot _ _ _ => some .v
  | .matchLanes _ _ _ _ => some .v
  | .shfl _ _ _ _ => some .v
  | .bra _ _ _ _ => some .i
  | .call _ _ _ _ => some .i
  | .jmp _ _ => some .i
  | .callr _ _ _ => some .i
  | .ret _ _ => some .i
  | .brx _ _ => some .i
  | .exit _ => some .i
  | .trap _ _ => some .i
  | .brk _ => some .i
  | .nop _ => some .i
  | .yield _ => some .i
  | .pause _ => some .i
  | .wsb _ => some .i
  | .rjEnter _ _ => some .i
  | .rjQuit _ _ => some .i
  | .rjWait _ _ => some .i
  | .rjGet _ _ _ => some .i
  | .rjSet _ _ _ => some .i
  | .rjClr _ _ => some .i
  | .ldGB32 _ _ _ _ => some .m
  | .stGB32 _ _ _ _ => some .m
  | .ldGB64 _ _ _ _ => some .m
  | .stGB64 _ _ _ _ => some .m
  | .ldGB128 _ _ _ _ => some .m
  | .stGB128 _ _ _ _ => some .m
  | .ldSB32 _ _ _ _ => some .m
  | .stSB32 _ _ _ _ => some .m
  | .ld _ _ _ _ _ _ => some .m
  | .st _ _ _ _ _ _ => some .m
  | .ldkLow _ _ _ => some .m
  | .ldkHigh _ _ _ => some .m
  | .ldkReg _ _ _ => some .m
  | .prefG _ _ => some .m
  | .atom _ _ _ _ _ => some .m
  | .cas _ _ _ _ => some .m
  | .redOp _ _ _ _ _ => some .m
  | .fncIss _ _ _ => some .m
  | .fncWt _ _ => some .m
  | .ownGive _ _ => some .m
  | .ownTake _ _ => some .m
  | .ownTest _ _ _ => some .m
  | .rngWait _ _ _ => some .m
  | .rngRel _ _ => some .m
  | .mrgFree _ _ => some .m
  | .bbInit _ _ _ => some .m
  | .bbExp _ _ _ => some .m
  | .bbArv _ _ _ => some .m
  | .bbWt _ _ => some .m
  | .bop _ _ _ => some .m
  | .halloc _ _ _ => some .m
  | .hfree _ _ => some .m
  | .obRsv _ _ => some .m
  | .obRel _ _ => some .m
  | .tcCopy _ _ => some .m
  | .tcOb _ _ => some .m
  | .tcMcast _ _ => some .m
  | .permLoad _ _ _ => some .m
  | .mxCfg _ _ => some .m
  | .mxStat _ _ => some .m
  | .mxSwap _ => some .m
  | .mxStrm _ _ => some .m
  | .mxDrain _ _ _ => some .m
  | .mxZero _ _ => some .m
  | .mxWait _ => some .m
  | .mxSave _ _ => some .m
  | .mxRest _ _ => some .m
  | .rst _ _ _ _ _ => some .m
  | .rld _ _ _ _ _ => some .m
  | .ratom _ _ _ _ _ _ => some .m
  | .rcopy _ _ _ _ _ _ => some .m
  | .tokJoin _ _ _ => some .m
  | .tokTest _ _ _ => some .m
  | .tokWait _ _ => some .m
  | .collRun _ _ _ => some .m
  | .collWt _ _ _ => some .m
  | .reelGo _ _ _ => some .m
  | .reelStat _ _ _ => some .m
  | .evtSig _ _ => some .m
  | .evtWt _ _ => some .m
  | .regGrow _ _ => some .m
  | .regShrink _ _ => some .m
  | .qpush _ _ => some .m
  | .qpop _ _ => some .m
  | .spawn _ _ _ => some .m
  | .tret _ => some .m
  | .ctxPark _ => some .m
  | .sysc _ _ => some .m
  | .vmCommit _ _ _ => some .m
  | .vmFree _ _ _ => some .m
  | .vmProt _ _ _ => some .m
  | .vmDup _ _ _ => some .m
  | .vmSplit _ _ _ => some .m
  | .tlbInv _ _ => some .m
  | .detRng _ _ => some .m
  | .detFlush _ => some .m
  | .recMark _ _ => some .m
  | .tbar _ => some .m
  | .tbarArv _ _ => some .m
  | .tbarWt _ _ => some .m
  | .cbar _ => some .m
  | .cbarArv _ _ => some .m
  | .cbarWt _ _ => some .m
  | .csrr _ _ _ => some .m
  | .csrw _ _ _ => some .m
  | .csrx _ _ _ => some .m
  | .handlerEntry _ => Option.none
  | .regGrant _ => Option.none
  | .yieldRelease _ => Option.none
  | .pauseExpiry _ => Option.none
  | .scoreboardWrite _ _ _ => Option.none
  | .queuePushDone _ => Option.none
  | .queuePopDone _ => Option.none
  | .ownTakeDone _ => Option.none
  | .ringWaitDone _ => Option.none
  | .fencePerformed _ _ => Option.none
  | .accessPerform _ => Option.none
  | .pageWalkComplete _ _ _ _ => Option.none
  | .bankAluApply _ _ => Option.none
  | .bopComplete _ _ => Option.none
  | .vmChangeComplete _ _ => Option.none
  | .evtWaitRecheck _ => Option.none
  | .commandAccept _ => Option.none
  | .engineUnitRead _ _ _ => Option.none
  | .engineUnitWrite _ _ => Option.none
  | .ringSlotFill _ _ => Option.none
  | .planeFillDone _ => Option.none
  | .streamResults _ => Option.none
  | .drainWrite _ => Option.none
  | .mxWaitDone _ => Option.none
  | .obRelDone _ => Option.none
  | .budgetPeriodStart _ => Option.none
  | .launchDoorbell _ _ _ => Option.none
  | .frontEndTake _ _ => Option.none
  | .launchReady _ _ => Option.none
  | .launchRecheckTimer _ _ => Option.none
  | .launchAging _ _ => Option.none
  | .callerHandover _ => Option.none
  | .corpsPlacement _ _ => Option.none
  | .troupePublish _ => Option.none
  | .graphNodeStart _ _ _ => Option.none
  | .graphNodeDone _ _ _ => Option.none
  | .deferredApply _ _ => Option.none
  | .drainDeadline _ _ => Option.none
  | .evictionDeadline _ _ => Option.none
  | .preemptSaveImage _ => Option.none
  | .troupeLeavesCore _ => Option.none
  | .restorePlacement _ _ => Option.none
  | .steerReply _ => Option.none
  | .eccu _ _ _ => Option.none
  | .slotStart _ => Option.none
  | .frameReceive _ _ _ => Option.none
  | .masterLoss _ => Option.none
  | .freeRunExpiry _ => Option.none
  | .laneFailure _ _ _ => Option.none
  | .laneRejoin _ _ _ => Option.none
  | .storePacket _ => Option.none
  | .loadPacket _ => Option.none
  | .replyPacket _ => Option.none
  | .faultReplyPacket _ => Option.none
  | .atomicPacket _ => Option.none
  | .copySegmentPacket _ => Option.none
  | .vectorStorePart _ => Option.none
  | .vectorLoadPart _ => Option.none
  | .vectorAtomicPart _ => Option.none
  | .landedNotice _ => Option.none
  | .releaseNotice _ => Option.none
  | .appliedCountNotice _ => Option.none
  | .forwardedCountNotice _ => Option.none
  | .relayedAppliedCountNotice _ => Option.none
  | .holdFreeNotice _ => Option.none
  | .expiryNotice _ => Option.none
  | .invalidateNotice _ => Option.none
  | .holdExpiry _ _ => Option.none
  | .collEntryStart _ _ _ => Option.none
  | .collEntryComplete _ _ _ => Option.none
  | .reducerFold _ _ => Option.none
  | .reelWait _ => Option.none
  | .reelGather _ => Option.none
  | .reelRun _ => Option.none
  | .reelHandoff _ => Option.none
  | .bootRom _ _ => Option.none
  | .recoveryImage _ _ => Option.none
  | .mrExtend _ _ _ => Option.none
  | .attestationRequest _ _ _ => Option.none
  | .featureGo _ => Option.none
  | .apertureRead _ _ _ => Option.none
  | .apertureWrite _ _ _ _ => Option.none
  | .apertureControlWrite _ _ _ => Option.none
  | .correctedError _ _ _ _ => Option.none
  | .uncorrectableError _ _ _ _ => Option.none
  | .selfTestEnd _ _ _ _ => Option.none
  | .budgetWrite _ _ _ => Option.none
  | .pcapWrite _ _ => Option.none
  | .pstateWrite _ _ => Option.none
  | .temperatureEvent _ _ => Option.none
  | .hostCommandDoorbell _ _ => Option.none
  | .ctxnew _ _ => Option.none
  | .ctxentry _ _ => Option.none
  | .ctxstop _ _ => Option.none
  | .ctxfree _ _ => Option.none
  | .ctxevt _ _ => Option.none
  | .preempt _ _ => Option.none
  | .preend _ _ => Option.none
  | .resume _ _ => Option.none
  | .planload _ _ => Option.none
  | .reelload _ _ => Option.none
  | .hndload _ _ => Option.none
  | .fctlset _ _ => Option.none
  | .masters _ _ => Option.none
  | .vmdup _ _ => Option.none
  | .vmsplit _ _ => Option.none
  | .vmprot _ _ => Option.none
  | .tlbinv _ _ => Option.none
  | .registerWrite _ _ _ _ => Option.none
  | .fixedLatencyResult _ => Option.none
  | .stallWaitExpiry _ => Option.none
  | .powerCapReached _ => Option.none

/-- The accepted feature without which an instruction is no instruction (R418). -/
def Instr.feature : Instr → Option Nat
  | .reelGo _ _ _ => some 7
  | .reelStat _ _ _ => some 7
  | .collRun _ _ _ => some 8
  | .collWt _ _ _ => some 8
  | .rst _ _ spr _ _ => if spr then some 10 else Option.none
  | .rld _ _ spr _ _ => if spr then some 10 else Option.none
  | .ratom _ _ _ spr _ _ => if spr then some 10 else Option.none
  | .rcopy _ _ _ spr _ _ => if spr then some 10 else Option.none
  | .halloc _ _ _ => some 12
  | .hfree _ _ => some 12
  | .spawn _ _ _ => some 13
  | _ => Option.none

end Sys2Proof

namespace Sys2Proof.Machine

/-- A register at or above the allotment, or a value that names no source (R13, R14, R72). -/
def Opnd.badRange (allot : Nat) (src : Bool) : Opnd → Bool
  | .reg n r => if r.toNat < 120 then allot < r.toNat + n else src && n == 1 && 125 ≤ r.toNat
  | .blk n r => allot < r.toNat + n
  | _ => false
/-- A misaligned pair or quad, or a value that names no wide source (R15, R71). -/
def Opnd.badPair (src : Bool) : Opnd → Bool
  | .reg n r => if r.toNat < 120 then r.toNat % n != 0 else src && 2 ≤ n && r.toNat != 120
  | _ => false

/-- Predicates that the guard reads (R74). -/
def guardCells (m : Mods) : List Dst :=
  match m.opt with
  | some o => if o.ge then (Opnd.pred o.gp).cells else []
  | none => []

end Sys2Proof.Machine

namespace Sys2Proof

open Machine

/-- The checks of R91 that depend on the wave, in its order; the form itself was checked by `decodeInsn`. -/
def Instr.operandFault (i : Instr) (allot : Nat) : Option Sub :=
  let o := i.opds
  if o.srcs.any (·.badRange allot true) || o.dsts.any (·.badRange allot false) then some .range
  else if o.srcs.any (·.badPair true) || o.dsts.any (·.badPair false) then some .pair
  else none

def Instr.readCells (i : Instr) : List Dst :=
  (i.opds.srcs.map Opnd.cells).flatten ++ (match i.mods with | some m => guardCells m | none => [])
def Instr.writeCells (i : Instr) : List Dst := (i.opds.dsts.map Opnd.cells).flatten
/-- An instruction that branches on its own predicate field is examined in every lane of its path (R158). -/
def Instr.isFB : Instr → Bool
  | .bra _ _ _ _ => true
  | .call _ _ _ _ => true
  | _ => false

end Sys2Proof

namespace Sys2Proof.Machine

/-! ### Source values -/

/-- B: the literal sign-extended, or the register (R76). -/
def State.srcB (s : State) (w l : Nat) (m : Mods) (b : Reg) : W32 :=
  match m.lit with | some x => x.signExtend 32 | none => s.src w l b
def State.srcB64 (s : State) (w l : Nat) (m : Mods) (b : Reg) : W64 :=
  match m.lit with | some x => x.signExtend 64 | none => s.src64 w l b
/-- B of a floating-point form: the literal as an FP32 or FP64 value (R76). -/
def State.srcBF32 (s : State) (w l : Nat) (m : Mods) (b : Reg) : W32 :=
  match m.lit with | some x => x.setWidth 32 <<< 3 | none => s.src w l b
def State.srcBF64 (s : State) (w l : Nat) (m : Mods) (b : Reg) : W64 :=
  match m.lit with | some x => x.setWidth 64 <<< 35 | none => s.src64 w l b
/-- The third source C (R75). -/
def State.srcC (s : State) (w l : Nat) (m : Mods) (d : Reg) : W32 := s.src w l (m.eReg.getD d)
def State.srcC64 (s : State) (w l : Nat) (m : Mods) (d : Reg) : W64 := s.src64 w l (m.eReg.getD d)
/-- E where it is required. -/
def State.srcE (s : State) (w l : Nat) (m : Mods) : W32 := s.src w l (m.eReg.getD 120)
def State.srcE64 (s : State) (w l : Nat) (m : Mods) : W64 := s.src64 w l (m.eReg.getD 120)
/-- A source of `n` words, as 64 bits. -/
def State.srcN (s : State) (w l n : Nat) (r : Reg) : W64 := if n = 2 then s.src64 w l r else (s.src w l r).setWidth 64
/-- The words of a result of `n` registers. -/
def outsN (n : Nat) (d : Reg) (v : W64) : List (Dst × W32) := if n = 2 then outs64 d v else outs32 d (lo32 v)

/-- A parameter block, as its lane holds it (R72, R204). -/
def State.block (s : State) (l : Nat) (a : Reg) (n : Nat) : List W32 :=
  (List.range n).map (fun i => s.src s.cur.wid l (BitVec.ofNat 7 (a.toNat + i)))
/-- Word and double word of a block. -/
def bw (b : List W32) (i : Nat) : W32 := b.getD i 0
def bd (b : List W32) (i : Nat) : W64 := pair (bw b i) (bw b (i + 1))
/-- Bits `[hi:lo]` of a block word as a number. -/
def bf (b : List W32) (i hi lo : Nat) : Nat := nbits (bw b i).toNat hi lo

end Sys2Proof.Machine
end

