-- ==== Sys2Proof/Machine/Integer.lean ====
section
/-! DEFINITION. The I-pipe instructions on registers and predicates: arithmetic, shifts, logic, bit fields, moves,
comparisons and predicate functions (R121 to R140). -/

namespace Sys2Proof.Machine

/-- What a meaning answers. -/
abbrev Out := Host.Outcome State Fault Refusal

/-! ### Shapes (R121) -/

/-- Every active lane writes one register, one pair, one quad or one predicate with latency `t`. -/
def lane32 (s : State) (m : Mods) (t : Lat) (d : Reg) (f : Nat → W32) : Out :=
  .next (perLane m t (dstRegs d 1) (fun l => (outs32 d (f l), flNone)) s)
def lane64 (s : State) (m : Mods) (t : Lat) (d : Reg) (f : Nat → W64) : Out :=
  .next (perLane m t (dstRegs d 2) (fun l => (outs64 d (f l), flNone)) s)
def laneN (s : State) (m : Mods) (t : Lat) (n : Nat) (d : Reg) (f : Nat → W64) : Out :=
  .next (perLane m t (dstRegs d n) (fun l => (outsN n d (f l), flNone)) s)
def laneP (s : State) (m : Mods) (t : Lat) (q : Reg) (f : Nat → Bool) : Out :=
  .next (perLane m t [.p q] (fun l => (outP q (f l), flNone)) s)
/-- The I-pipe latency (R87). -/
def latI : Lat := .fixed 2
/-- 32-bit and 64-bit two-address forms: D op A (R72). -/
def two32 (s : State) (m : Mods) (d a : Reg) (f : W32 → W32 → W32) : Out :=
  lane32 s m latI d (fun l => f (s.src s.cur.wid l d) (s.src s.cur.wid l a))
def two64 (s : State) (m : Mods) (d a : Reg) (f : W64 → W64 → W64) : Out :=
  lane64 s m latI d (fun l => f (s.src64 s.cur.wid l d) (s.src64 s.cur.wid l a))
/-- F3 forms: A op B, B a register or a literal (R76). -/
def three32 (s : State) (m : Mods) (d a b : Reg) (f : W32 → W32 → W32) : Out :=
  lane32 s m latI d (fun l => f (s.src s.cur.wid l a) (s.srcB s.cur.wid l m b))

/-! ### Addition and subtraction (R122 to R124) -/

/-- A 32-bit result, wrapped or, with SAT, clamped from the exact signed result. -/
def wrapOrSat (m : Mods) (x : Int) : W32 := if m.sat then satS32 x else BitVec.ofInt 32 x

def execIadd (m : Mods) (d a b : Reg) (s : State) : Out :=
  three32 s m d a b (fun x y => wrapOrSat m (x.toInt + y.toInt))
def execIsub (m : Mods) (d a b : Reg) (s : State) : Out :=
  three32 s m d a b (fun x y => wrapOrSat m (x.toInt - y.toInt))
def execIaddi (m : Mods) (d a : Reg) (i : BitVec 7) (s : State) : Out :=
  lane32 s m latI d (fun l => wrapOrSat m ((s.src s.cur.wid l a).toInt + i.toInt))
def execIaddB64 (m : Mods) (d a : Reg) (s : State) : Out := two64 s m d a (fun x y => x + y)
def execIsubB64 (m : Mods) (d a : Reg) (s : State) : Out := two64 s m d a (fun x y => x - y)

/-- The 32-bit digit of a wide addition: value in the low half of D, carry word in the high half. -/
def carry32 (s : State) (m : Mods) (d a : Reg) (f : W32 → W32 → Bool → W32 × Bool) : Out :=
  lane64 s m latI d (fun l =>
    let v := s.src64 s.cur.wid l d
    let r := f (lo32 v) (s.src s.cur.wid l a) (v.getLsbD 32)
    pair r.1 ((BitVec.ofBool r.2).setWidth 32))
/-- The 64-bit digit: value in the low pair of the quad, carry in its third word, zero in its fourth. -/
def carry64 (s : State) (m : Mods) (d a : Reg) (f : W64 → W64 → Bool → W64 × Bool) : Out :=
  .next (perLane m latI (dstRegs d 4) (fun l =>
    let v := s.src128 s.cur.wid l d
    let r := f (v.setWidth 64) (s.src64 s.cur.wid l a) (v.getLsbD 64)
    (outs128 d ((BitVec.ofBool r.2).setWidth 64 ++ r.1), flNone)) s)
def execIaddcB32 (m : Mods) (d a : Reg) (s : State) : Out := carry32 s m d a (addCarry 32)
def execIsubbB32 (m : Mods) (d a : Reg) (s : State) : Out := carry32 s m d a (subBorrow 32)
def execIaddcB64 (m : Mods) (d a : Reg) (s : State) : Out := carry64 s m d a (addCarry 64)
def execIsubbB64 (m : Mods) (d a : Reg) (s : State) : Out := carry64 s m d a (subBorrow 64)

/-! ### Multiplication and division (R125, R126, R128) -/

def execImul (m : Mods) (d a b : Reg) (s : State) : Out := three32 s m d a b (fun x y => x * y)
def execImulB64 (m : Mods) (d a : Reg) (s : State) : Out := two64 s m d a (fun x y => x * y)
def execImad (m : Mods) (d a b : Reg) (s : State) : Out :=
  lane32 s m latI d (fun l => wrapOrSat m
    ((s.src s.cur.wid l a).toInt * (s.srcB s.cur.wid l m b).toInt + (s.srcC s.cur.wid l m d).toInt))
/-- An operand of type `t` as an integer (R126, R127). -/
def IType.val (t : IType) (x : W64) : Int :=
  match t with
  | .s32 => (lo32 x).toInt
  | .z32 => (lo32 x).toNat
  | .s64 => x.toInt
  | .z64 => x.toNat
def IType.bits (t : IType) : Nat := match t with | .s32 => 32 | .z32 => 32 | .s64 => 64 | .z64 => 64
def IType.isSigned (t : IType) : Bool := match t with | .s32 => true | .s64 => true | _ => false
/-- Two-address forms over a type. -/
def twoT (s : State) (m : Mods) (lat : Lat) (t : IType) (d a : Reg) (f : Int → Int → Int) : Out :=
  laneN s m lat t.words d (fun l =>
    BitVec.ofInt 64 (f (IType.val t (s.srcN s.cur.wid l t.words d)) (IType.val t (s.srcN s.cur.wid l t.words a))))
def execImulh (m : Mods) (t : IType) (d a : Reg) (s : State) : Out :=
  twoT s m latI t d a (fun x y => x * y / 2 ^ IType.bits t)
def execImadw (m : Mods) (sg : Bool) (d a : Reg) (s : State) : Out :=
  lane64 s m latI d (fun l =>
    let x := s.src s.cur.wid l a
    let y := s.srcE s.cur.wid l m
    s.src64 s.cur.wid l d +
      (if sg then x.signExtend 64 * y.signExtend 64 else x.setWidth 64 * y.setWidth 64))
/-- Quotient truncated towards zero, with its two fixed cases (R126): all ones for a zero divisor; the most negative
dividend over -1 wraps to itself. -/
def divT (x y : Int) : Int := if y = 0 then -1 else x.tdiv y
def remT (x y : Int) : Int := if y = 0 then x else x.tmod y
def execIdiv (m : Mods) (t : IType) (d a : Reg) (s : State) : Out := twoT s m .owed t d a divT
def execIrem (m : Mods) (t : IType) (d a : Reg) (s : State) : Out := twoT s m .owed t d a remT
/-- The signed or unsigned bytes of a register. -/
def byteOf (sg : Bool) (x : W32) (i : Nat) : Int :=
  if sg then (x.extractLsb' (8 * i) 8).toInt else (x.extractLsb' (8 * i) 8).toNat
def dot4 (t : DpType) (q a e : W32) : Int :=
  let sa := t != .z8
  let se := t == .s8
  (if sa then q.toInt else (q.toNat : Int)) + byteOf sa a 0 * byteOf se e 0 + byteOf sa a 1 * byteOf se e 1 +
    byteOf sa a 2 * byteOf se e 2 + byteOf sa a 3 * byteOf se e 3
def execDp4 (m : Mods) (t : DpType) (d a : Reg) (s : State) : Out :=
  lane32 s m latI d (fun l =>
    let q := dot4 t (s.src s.cur.wid l d) (s.src s.cur.wid l a) (s.srcE s.cur.wid l m)
    if m.sat then (if t = .z8 then satZ32 q else satS32 q) else BitVec.ofInt 32 q)

/-! ### Sign, minimum, maximum, clamp (R127) -/

def absT (x : Int) : Int := if x < 0 then -x else x
def one64 (s : State) (m : Mods) (w : Bool) (d a : Reg) (f : Int → Int) : Out :=
  laneN s m latI (words w) d (fun l =>
    let x := s.srcN s.cur.wid l (words w) a
    BitVec.ofInt 64 (f (if w then x.toInt else (lo32 x).toInt)))
def execIabs (m : Mods) (w : Bool) (d a : Reg) (s : State) : Out := one64 s m w d a absT
def execIneg (m : Mods) (w : Bool) (d a : Reg) (s : State) : Out := one64 s m w d a (fun x => -x)
def execImin (m : Mods) (t : IType) (d a : Reg) (s : State) : Out := twoT s m latI t d a (fun x y => min x y)
def execImax (m : Mods) (t : IType) (d a : Reg) (s : State) : Out := twoT s m latI t d a (fun x y => max x y)
def execIclamp (m : Mods) (t : IType) (d a : Reg) (s : State) : Out :=
  laneN s m latI t.words d (fun l =>
    let x := IType.val t (s.srcN s.cur.wid l t.words d)
    let lo := IType.val t (s.srcN s.cur.wid l t.words a)
    let hi := IType.val t (if t.words = 2 then s.srcE64 s.cur.wid l m else (s.srcE s.cur.wid l m).setWidth 64)
    BitVec.ofInt 64 (min (max x lo) hi))

/-! ### Shifts and rotates (R129, R130) -/

/-- The four shifts of a word of width `w` by any count. -/
def shiftOp {w : Nat} (o : ShOp) (x : BitVec w) (n : Nat) : BitVec w :=
  match o with
  | .shl => x <<< n
  | .shr => x >>> n
  | .sar => x.sshiftRight n
  | .rotl => x.rotateLeft (n % w)
def execShl (m : Mods) (d a b : Reg) (s : State) : Out := three32 s m d a b (fun x n => shiftOp .shl x n.toNat)
def execShr (m : Mods) (d a b : Reg) (s : State) : Out := three32 s m d a b (fun x n => shiftOp .shr x n.toNat)
def execSar (m : Mods) (d a b : Reg) (s : State) : Out := three32 s m d a b (fun x n => shiftOp .sar x n.toNat)
def execShi (m : Mods) (o : ShOp) (n : BitVec 5) (d a : Reg) (s : State) : Out :=
  lane32 s m latI d (fun l => shiftOp o (s.src s.cur.wid l a) n.toNat)
/-- 64-bit shifts of D by the single register A. -/
def shift64 (s : State) (m : Mods) (o : ShOp) (d a : Reg) : Out :=
  lane64 s m latI d (fun l => shiftOp o (s.src64 s.cur.wid l d) (s.src s.cur.wid l a).toNat)
def execShlB64 (m : Mods) (d a : Reg) (s : State) : Out := shift64 s m .shl d a
def execShrB64 (m : Mods) (d a : Reg) (s : State) : Out := shift64 s m .shr d a
def execSarB64 (m : Mods) (d a : Reg) (s : State) : Out := shift64 s m .sar d a
def execRotlB32 (m : Mods) (d a : Reg) (s : State) : Out := two32 s m d a (fun x n => shiftOp .rotl x n.toNat)
def execRotlB64 (m : Mods) (d a : Reg) (s : State) : Out := shift64 s m .rotl d a
/-- The 32-bit window of the ring {B, A} from bit `p` (R130). -/
def ringWindow (a b : W32) (p : Nat) : W32 := ((pair a b).rotateRight (p % 64)).setWidth 32
def execShf (m : Mods) (d a b : Reg) (s : State) : Out :=
  lane32 s m latI d (fun l =>
    ringWindow (s.src s.cur.wid l a) (s.srcB s.cur.wid l m b) ((s.srcC s.cur.wid l m d).toNat % 64))

/-! ### Logic and bits (R131 to R135) -/

def execAndB32 (m : Mods) (d a b : Reg) (s : State) : Out := three32 s m d a b (fun x y => x &&& y)
def execOrB32 (m : Mods) (d a b : Reg) (s : State) : Out := three32 s m d a b (fun x y => x ||| y)
def execXorB32 (m : Mods) (d a b : Reg) (s : State) : Out := three32 s m d a b (fun x y => x ^^^ y)
def execAndB64 (m : Mods) (d a : Reg) (s : State) : Out := two64 s m d a (fun x y => x &&& y)
def execOrB64 (m : Mods) (d a : Reg) (s : State) : Out := two64 s m d a (fun x y => x ||| y)
def execXorB64 (m : Mods) (d a : Reg) (s : State) : Out := two64 s m d a (fun x y => x ^^^ y)
/-- Entry `a + 2b + 4c` of a truth table (R132). -/
def tableBit (t : BitVec 8) (a b c : Bool) : Bool := t.getLsbD (a.toNat + 2 * b.toNat + 4 * c.toNat)
/-- A word from its bits. -/
def ofBits (n : Nat) (f : Nat → Bool) : Nat := (List.range n).foldl (fun v i => v + (f i).toNat * 2 ^ i) 0
def lop3 (t : BitVec 8) (x y z : W32) : W32 :=
  BitVec.ofNat 32 (ofBits 32 (fun i => tableBit t (x.getLsbD i) (y.getLsbD i) (z.getLsbD i)))
def execLop3 (m : Mods) (d a b : Reg) (s : State) : Out :=
  lane32 s m latI d (fun l =>
    lop3 (m.litBits.extractLsb' 7 8) (s.src s.cur.wid l a) (s.src s.cur.wid l b) (s.src s.cur.wid l (litC m)))
/-- Functions of the low `n` bits of a value (R133). -/
def popcN (n : Nat) (x : W64) : Nat := ((List.range n).filter (fun i => x.getLsbD i)).length
def ctzN (n : Nat) (x : W64) : Nat := ((List.range n).find? (fun i => x.getLsbD i)).getD n
def clzN (n : Nat) (x : W64) : Nat := ((List.range n).find? (fun i => x.getLsbD (n - 1 - i))).getD n
def brevN (n : Nat) (x : W64) : W64 := BitVec.ofNat 64 (ofBits n (fun i => x.getLsbD (n - 1 - i)))
def width (w : Bool) : Nat := if w then 64 else 32
def count32 (s : State) (m : Mods) (w : Bool) (d a : Reg) (f : W64 → Nat) : Out :=
  lane32 s m latI d (fun l => BitVec.ofNat 32 (f (s.srcN s.cur.wid l (words w) a)))
def execMov (m : Mods) (w : Bool) (d a : Reg) (s : State) : Out :=
  laneN s m latI (words w) d (fun l => s.srcN s.cur.wid l (words w) a)
def execPopc (m : Mods) (w : Bool) (d a : Reg) (s : State) : Out := count32 s m w d a (popcN (width w))
def execClz (m : Mods) (w : Bool) (d a : Reg) (s : State) : Out := count32 s m w d a (clzN (width w))
def execCtz (m : Mods) (w : Bool) (d a : Reg) (s : State) : Out := count32 s m w d a (ctzN (width w))
def execBrev (m : Mods) (w : Bool) (d a : Reg) (s : State) : Out :=
  laneN s m latI (words w) d (fun l => brevN (width w) (s.srcN s.cur.wid l (words w) a))
/-- Field controls of `bfx` and `bfi` (R134). -/
def fieldStart (c : W32) : Nat := nbits c.toNat 7 0
def fieldLen (c : W32) : Nat := min (nbits c.toNat 15 8) 32
def bfx (x c : W32) : W32 :=
  let n := fieldLen c
  let v := nbits (x.toNat >>> fieldStart c) 31 0 % 2 ^ n
  let top := n != 0 && (v >>> (n - 1)) % 2 == 1
  BitVec.ofNat 32 (if c.getLsbD 16 && top then v + (2 ^ 32 - 2 ^ n) else v)
def bfi (x c z : W32) : W32 :=
  let msk : W32 := BitVec.ofNat 32 ((2 ^ fieldLen c - 1) <<< fieldStart c)
  (z &&& ~~~msk) ||| (x <<< fieldStart c &&& msk)
def execBfx (m : Mods) (d a b : Reg) (s : State) : Out := three32 s m d a b bfx
def execBfi (m : Mods) (d a b : Reg) (s : State) : Out :=
  lane32 s m latI d (fun l => bfi (s.src s.cur.wid l a) (s.srcB s.cur.wid l m b) (s.srcC s.cur.wid l m d))
/-- One byte of `prmt` under its control byte (R135). -/
def prmtByte (pool : W64) (c : Byte) : Byte :=
  let v := pool.extractLsb' (8 * (c.toNat % 8)) 8
  match c.toNat / 8 % 4 with
  | 0 => v
  | 1 => 0x00
  | 2 => if v.msb then 0xFF else 0x00
  | _ => 0xFF
def prmt (a b c : W32) : W32 :=
  let f := fun i => prmtByte (pair a c) (b.extractLsb' (8 * i) 8)
  f 3 ++ f 2 ++ f 1 ++ f 0
def execPrmt (m : Mods) (d a b : Reg) (s : State) : Out :=
  lane32 s m latI d (fun l => prmt (s.src s.cur.wid l a) (s.srcB s.cur.wid l m b) (s.srcC s.cur.wid l m d))

/-! ### Moves, selection, addresses (R136, R137) -/

def execMovi (m : Mods) (d : Reg) (i : BitVec 14) (s : State) : Out := lane32 s m latI d (fun _ => i.signExtend 32)
def execMovl (m : Mods) (d : Reg) (i : BitVec 14) (s : State) : Out :=
  lane32 s m latI d (fun _ => m.litBits.setWidth 18 ++ i)
def execMovh (m : Mods) (d : Reg) (i : BitVec 14) (s : State) : Out := lane32 s m latI d (fun _ => i ++ 0#18)
def execSel (m : Mods) (d a b : Reg) (s : State) : Out :=
  lane32 s m latI d (fun l =>
    if (s.lane s.cur.wid l).pred (m.eReg.getD 0).toNat then s.src s.cur.wid l a else s.srcB s.cur.wid l m b)
def execLea (m : Mods) (d a b : Reg) (s : State) : Out :=
  lane64 s m latI d (fun l =>
    let x := s.src s.cur.wid l b
    s.src64 s.cur.wid l a +
      (if m.litBits.getLsbD 3 then x.setWidth 64 else x.signExtend 64) <<< (m.litBits.toNat % 8))

/-! ### Comparison and predicates (R138 to R140) -/

def icmp (s : State) (m : Mods) (w : Bool) (p : BitVec 6) (a b : Reg) (f : W64 → W64 → Bool) : Out :=
  laneP s m latI (p.setWidth 7) (fun l =>
    if w then f (s.src64 s.cur.wid l a) (s.srcB64 s.cur.wid l m b)
    else f ((s.src s.cur.wid l a).signExtend 64) ((s.srcB s.cur.wid l m b).signExtend 64))
def execIcmpEq (m : Mods) (w : Bool) (p : BitVec 6) (a b : Reg) (s : State) : Out :=
  icmp s m w p a b (fun x y => x == y)
def execIcmpNe (m : Mods) (w : Bool) (p : BitVec 6) (a b : Reg) (s : State) : Out :=
  icmp s m w p a b (fun x y => x != y)
def execIcmpLtS (m : Mods) (w : Bool) (p : BitVec 6) (a b : Reg) (s : State) : Out :=
  icmp s m w p a b (fun x y => x.slt y)
def execIcmpLtZ (m : Mods) (w : Bool) (p : BitVec 6) (a b : Reg) (s : State) : Out :=
  icmp s m w p a b (fun x y => x.ult y)
def execPmov (m : Mods) (d a : Reg) (s : State) : Out :=
  laneP s m latI d (fun l => (s.lane s.cur.wid l).pred a.toNat)
def execPset (m : Mods) (d : Reg) (v : Bool) (s : State) : Out := laneP s m latI d (fun _ => v)
/-- Predicates `32k` to `32k + 31` of a lane as a word; p0 reads 1 (R139). -/
def Lane.predWord (l : Lane) (k : Nat) : W32 := BitVec.ofNat 32 (ofBits 32 (fun i => l.pred (32 * k + i)))
def execP2g (m : Mods) (d : Reg) (k : BitVec 2) (s : State) : Out :=
  lane32 s m latI d (fun l => (s.lane s.cur.wid l).predWord k.toNat)
/-- The predicates of group `k` with the bits of a word. -/
def predOuts (k : BitVec 2) (x : W32) : List (Dst × W32) :=
  (Opnd.preds k).cells.map (fun d => match d with
    | .p q => (d, (BitVec.ofBool (x.getLsbD (q.toNat % 32))).setWidth 32)
    | .g _ => (d, 0))
def execG2p (m : Mods) (k : BitVec 2) (a : Reg) (s : State) : Out :=
  .next (perLane m latI (Opnd.preds k).cells (fun l => (predOuts k (s.src s.cur.wid l a), flNone)) s)
def execPlop3 (m : Mods) (d a : Reg) (s : State) : Out :=
  laneP s m latI d (fun l =>
    let p := fun (q : Reg) => (s.lane s.cur.wid l).pred q.toNat
    tableBit (m.litBits.extractLsb' 14 8) (p a) (p (litC m)) (p (litC2 m)))

end Sys2Proof.Machine
end

