-- ==== Sys2Proof/Machine/Translate.lean ====
section
/-! DEFINITION. Virtual addresses (R270 to R277): page-table entries, the walk, translation caches, where a page lies,
and the checks of a `.g`, `.s` or `.b` access in the order of R177. -/

namespace Sys2Proof.Machine

/-! ### Page-table entries (R271) -/

def pteV (e : W64) : Bool := e.getLsbD 0
def pteLeaf (e : W64) : Bool := e.getLsbD 1
def pteState (e : W64) : Nat := nbits e.toNat 3 2
def pteR (e : W64) : Bool := e.getLsbD 4
def pteW (e : W64) : Bool := e.getLsbD 5
def pteX (e : W64) : Bool := e.getLsbD 6
def pteSys (e : W64) : Bool := e.getLsbD 8
def pteSparse (e : W64) : Bool := e.getLsbD 9
def pteBank (e : W64) : Bool := e.getLsbD 10
def pteNc (e : W64) : Bool := e.getLsbD 11
def pteHome (e : W64) : Nat := nbits e.toNat 18 12
def pteAddr (e : W64) : Nat := nbits e.toNat 50 20
def pteDset (e : W64) : Nat := nbits e.toNat 63 52
/-- The fields that must be zero (R9, R271). -/
def pteZeroOk (e : W64) : Bool :=
  !e.getLsbD 51 && !e.getLsbD 19 && !e.getLsbD 7 && (pteState e == 3 && pteLeaf e || pteDset e == 0) &&
  (if pteLeaf e then (if pteBank e then nbits e.toNat 50 34 == 0 else nbits e.toNat 50 43 == 0) else pteState e == 0)
/-- A leaf from its fields. -/
def mkLeaf (old : W64) (state home dset frame : Nat) : W64 :=
  (old &&& 0x0000000000000F70#64) ||| BitVec.ofNat 64 (3 + state * 4 + home % 128 * 2 ^ 12 + frame % 2 ^ 23 * 2 ^ 20 + dset % 4096 * 2 ^ 52)

/-- Bytes that a level's entry maps. -/
def levelSize (lv : Nat) : Nat :=
  match lv with
  | 0 => 2 ^ 16
  | 1 => 2 ^ 21
  | 2 => 2 ^ 30
  | 3 => 2 ^ 39
  | _ => 2 ^ 48
def levelMay (lv : Nat) (leaf : Bool) : Bool := if leaf then lv ≤ 2 else 1 ≤ lv

/-- Where a walk ended: the entry's address, its level and its bits. -/
structure Walked where
  pa : Nat
  level : Nat
  pte : W64
  deriving DecidableEq, Repr
def State.read64 (s : State) (key : Nat) : W64 := BitVec.ofNat 64 (leNat (memGets s.mem key 8))
def walkFrom (s : State) (k : Nat) : List Nat → Nat → W64 → Option Walked
  | [], _, _ => none
  | lv :: rest, tbl, va =>
    let i := va.toNat / levelSize lv % (if lv = 0 then 32 else 512)
    let pa := tbl + 8 * i
    let e := s.read64 (hbmKey k (pa % 2 ^ 39))
    if pteV e && !pteLeaf e && levelMay lv false && pteZeroOk e then walkFrom s k rest (pteAddr e * 2 ^ 8) va
    else some ⟨pa % 2 ^ 39, lv, e⟩
/-- The walk of a context's tables on a package (R270). -/
def walk (s : State) (k : Nat) (ctx : W32) (va : W64) : Option Walked :=
  match flook (s.pkg k).ctxs ctx.toNat with
  | some c => walkFrom s k [4, 3, 2, 1, 0] c.root.toNat va
  | none => none
/-- A cached entry of a die's walker that leads on from a level to the tables below (R274). -/
def WalkEnt.hits (e : WalkEnt) (ctx : W32) (lv : Nat) (va : W64) : Bool :=
  e.ctx == ctx && e.level == lv && e.base == va.toNat / levelSize lv * levelSize lv
/-- The walk of a die's walker: it reads an entry of the tables where it caches none (R274, R275). -/
def walkFromVia (s : State) (k : Nat) (ctx : W32) (ca : List WalkEnt) : List Nat → Nat → W64 → Option Walked
  | [], _, _ => none
  | lv :: rest, tbl, va =>
    match ca.find? (·.hits ctx lv va) with
    | some c => walkFromVia s k ctx ca rest (pteAddr c.pte * 2 ^ 8) va
    | none =>
      let i := va.toNat / levelSize lv % (if lv = 0 then 32 else 512)
      let pa := tbl + 8 * i
      let e := s.read64 (hbmKey k (pa % 2 ^ 39))
      if pteV e && !pteLeaf e && levelMay lv false && pteZeroOk e then walkFromVia s k ctx ca rest (pteAddr e * 2 ^ 8) va
      else some ⟨pa % 2 ^ 39, lv, e⟩
def State.walkVia (s : State) (k die : Nat) (ctx : W32) (va : W64) : Option Walked :=
  match flook (s.pkg k).ctxs ctx.toNat with
  | some c => walkFromVia s k ctx (fget [] (s.pkg k).wcache die) [4, 3, 2, 1, 0] c.root.toNat va
  | none => none
/-- The entries of levels 4 to 2 that a walk reads and that lead on. -/
def walkPath (s : State) (k : Nat) (ctx : W32) (ca : List WalkEnt) : List Nat → Nat → W64 → List WalkEnt
  | [], _, _ => []
  | lv :: rest, tbl, va =>
    match ca.find? (·.hits ctx lv va) with
    | some c => walkPath s k ctx ca rest (pteAddr c.pte * 2 ^ 8) va
    | none =>
      let i := va.toNat / levelSize lv % (if lv = 0 then 32 else 512)
      let e := s.read64 (hbmKey k ((tbl + 8 * i) % 2 ^ 39))
      if pteV e && !pteLeaf e && levelMay lv false && pteZeroOk e && 2 ≤ lv then
        ⟨ctx, lv, va.toNat / levelSize lv * levelSize lv, e⟩ :: walkPath s k ctx ca rest (pteAddr e * 2 ^ 8) va
      else []
/-- Keep the newest `n` entries. -/
def keepLast {α : Type} (n : Nat) (l : List α) : List α := l.drop (l.length - n)
/-- What a walk has read stays with its die's walker: 1,024 entries (R274). -/
def State.fillWalker (s : State) (k die : Nat) (ctx : W32) (va : W64) : State :=
  match flook (s.pkg k).ctxs ctx.toNat with
  | some c => s.modPkg k (fun p =>
      let ca := fget [] p.wcache die
      { p with wcache := fput p.wcache die (keepLast 1024 (ca ++ walkPath s k ctx ca [4, 3, 2, 1, 0] c.root.toNat va)) })
  | none => s

/-- A leaf that a walk may use: valid, allowed at its level, nothing reserved. -/
def Walked.leaf? (w : Walked) : Option W64 :=
  if pteV w.pte && pteLeaf w.pte && levelMay w.level true && pteZeroOk w.pte then some w.pte else none
def Walked.size (w : Walked) : Nat := levelSize w.level

/-! ### Translation caches (R274, R275) -/

def TlbEntry.hits (e : TlbEntry) (ctx : W32) (va : W64) : Bool :=
  e.ctx == ctx && e.base.toNat ≤ va.toNat && va.toNat < e.base.toNat + e.size
/-- The cluster of a core number. -/
def clusterOf (core : Nat) : Nat := core / 256
/-- A translation, from the caches of the core and its cluster or else from the tables. -/
def State.lookup (s : State) (k core : Nat) (ctx : W32) (va : W64) : Option TlbEntry :=
  match (s.core k core).tlb.find? (·.hits ctx va) with
  | some e => some e
  | none =>
    match (fget [] (s.pkg k).tlb2 (clusterOf core)).find? (·.hits ctx va) with
    | some e => some e
    | none =>
      match s.walkVia k (clusterOf core) ctx va with
      | some w => w.leaf?.map (fun l => ⟨ctx, BitVec.ofNat 64 (va.toNat / w.size * w.size), w.size, l⟩)
      | none => none
/-- The set of the cluster's level that an entry goes to: 16,384 entries in 8 ways are 2,048 sets (R274, log 9). -/
def TlbEntry.set (e : TlbEntry) : Nat := Config.tlbSet e.ctx e.base e.size % 2048
/-- Enter a translation into the cluster's level: where its set is full, the oldest entry of the set leaves. -/
def tlb2Put (l : List TlbEntry) (e : TlbEntry) : List TlbEntry :=
  if l.length < 8 then l ++ [e]
  else if (l.filter (fun x => x.set == e.set)).length < 8 then l ++ [e]
  else (match l.find? (fun x => x.set == e.set) with
    | some x => l.erase x
    | none => l) ++ [e]
/-- A walk's answer enters the caches; only a page that holds data is kept. -/
def State.fillTlb (s : State) (k core : Nat) (ctx : W32) (va : W64) : State :=
  match s.lookup k core ctx va with
  | none => s
  | some e =>
    if pteState e.leaf < 2 then s
    else s.modPkg k (fun p =>
      let c := p.core core
      let t2 := fget [] p.tlb2 (clusterOf core)
      let p1 := if c.tlb.any (·.hits ctx va) then p else p.setCore core { c with tlb := keepLast 128 (c.tlb ++ [e]) }
      if t2.any (·.hits ctx va) then p1
      else { p1 with tlb2 := fput p1.tlb2 (clusterOf core) (tlb2Put t2 e) })
def State.fillTlbs (s : State) (k core : Nat) (ctx : W32) (vas : List W64) : State :=
  vas.foldl (fun s v => s.fillTlb k core ctx v) s
/-- Remove the translations of a range (R277). -/
def dropTlb (ctx : W32) (lo n : Nat) (l : List TlbEntry) : List TlbEntry :=
  l.filter (fun e => !(e.ctx == ctx && lo < e.base.toNat + e.size && e.base.toNat < lo + n))
def dropWalk (ctx : W32) (lo n : Nat) (l : List WalkEnt) : List WalkEnt :=
  l.filter (fun e => !(e.ctx == ctx && lo < e.base + levelSize e.level && e.base < lo + n))
def Pkg.invalidate (p : Pkg) (ctx : W32) (lo n : Nat) : Pkg :=
  { p with
    cores := fall p.cores (fun _ c => { c with tlb := dropTlb ctx lo n c.tlb }),
    tlb2 := fall p.tlb2 (fun _ t => dropTlb ctx lo n t),
    wcache := fall p.wcache (fun _ t => dropWalk ctx lo n t) }

/-! ### Where a page lies (R266, R268, R272) -/

inductive Place
  | absent
  | at_ (key : Nat) (cacheable : Bool)
  | fwd (home : Nat)
  deriving DecidableEq, Repr

/-- The package mask of a duplicate-set entry (R271). -/
def State.dsetMask (s : State) (k : Nat) (ctx : W32) (i : Nat) : BitVec 128 :=
  match flook (s.pkg k).ctxs ctx.toNat with
  | some c => BitVec.ofNat 128 (leNat (memGets s.mem (hbmKey k (c.dups.toNat + 16 * i)) 16))
  | none => 0
/-- The program-visible bank store of a die (R266). -/
def Pkg.bankBytes (p : Pkg) (die : Nat) : Nat := fget 0 p.phys.bankV die * 2 ^ 25
def State.placeOf (s : State) (k : Nat) (e : TlbEntry) (va : W64) : Place :=
  let l := e.leaf
  let off := va.toNat - e.base.toNat
  if pteState l < 2 then .absent
  else if pteHome l ≠ k ∧ !(pteState l == 3 && (s.dsetMask k e.ctx (pteDset l)).getLsbD k) then .fwd (pteHome l)
  else if pteBank l then
    let die := nbits l.toNat 33 32
    let b := nbits l.toNat 31 20 * 2 ^ 16
    if (s.pkg k).bankBytes die ≤ b then .absent else .at_ (bankKey k die (b + off)) false
  else .at_ (hbmKey k ((pteAddr l % 2 ^ 23 * 2 ^ 16 + off) % 2 ^ 39)) (!pteNc l)

/-! ### The checks of an access (R175 to R177) -/

inductive AccKind | load | store | atom | red | fetch
  deriving DecidableEq, Repr
def AccKind.writes : AccKind → Bool | .load => false | .fetch => false | _ => true
def AccKind.reads : AccKind → Bool | .load => true | .atom => true | _ => false

/-- What the checks answer: a cause with its SUB, or where the bytes are. -/
inductive Checked
  | bad (c : Cause) (sub : Byte)
  | ok (p : Place)
  deriving DecidableEq, Repr

def canonicalVa (va : W64) : Bool :=
  let h := nbits va.toNat 63 56
  h == 0 || h == 255
/-- Whether a write to a page takes WPDUP: the page is read-duplicated, here or at the home that a forwarding leaf names, or is
being duplicated (R177, R280). -/
def State.writeDup (s : State) (ctx : W32) (l va : W64) (p : Place) : Bool :=
  pteState l == 3 ||
  s.pkgs.any (fun (e : Nat × Pkg) => e.2.vmch.any (fun c => c.wp && c.ctx == ctx && c.va.toNat ≤ va.toNat && va.toNat < c.va.toNat + c.size)) ||
  (match p with
   | .fwd h => (match walk s h ctx va with
     | some w => (match w.leaf? with | some x => pteState x == 3 | none => false)
     | none => false)
   | _ => false)
/-- Translation and permissions: steps 3 and 5 of R177 with R272. -/
def State.checkPage (s : State) (k core : Nat) (ctx : W32) (sys : Bool) (kd : AccKind) (va : W64) : Checked :=
  match s.lookup k core ctx va with
  | none => .bad .page 0
  | some e =>
    let l := e.leaf
    match s.placeOf k e va with
    | .absent => .bad .page 0
    | p =>
      if pteSys l && !sys then .bad .prot 0
      else if kd.reads && !pteR l then .bad .prot 0
      else if kd == .fetch && !pteX l then .bad .prot 0
      else if kd.writes && s.writeDup ctx l va p then .bad .wpdup 0
      else if kd.writes && !pteW l then .bad .prot 0
      else .ok p
/-- A `.g` access of `n` bytes: form, alignment, translation. -/
def State.checkG (s : State) (k core : Nat) (ctx : W32) (sys : Bool) (kd : AccKind) (va : W64) (n : Nat) : Checked :=
  if !canonicalVa va then .bad .page 0
  else if va.toNat % n ≠ 0 then .bad .align 0
  else s.checkPage k core ctx sys kd va

/-- The troupe of a rank of the issuing troupe's corps (R41, R262). -/
def State.rankTroupe (s : State) (t : Nat) (rank : Nat) : Option Nat :=
  let c := fget (⟨0, 0, 0, 0, [], 0, 0, false⟩ : Corps) s.corps (s.troupe t).corps
  match c.troupes.find? (fun x => (s.troupe x).crk == rank) with
  | some x => some x
  | none => if (s.troupe t).crk = rank then some t else none
/-- The physical tile that a `.s` address names: the rank's troupe, its core and the tile there (R175, R262). -/
structure TileRef where
  tid : Nat
  core : Nat
  tile : Nat
  deriving DecidableEq, Repr
def State.tileOf (s : State) (t : Nat) (a : W32) : Option TileRef :=
  let rank := nbits a.toNat 27 20
  let lt := nbits a.toNat 19 12
  if nbits a.toNat 31 28 ≠ 0 ∨ (s.troupe t).hdr.corps ≤ rank then none
  else match s.rankTroupe t rank with
    | none => none
    | some r => match (s.troupe r).tiles[lt]? with
      | some p => some ⟨r, (s.troupe r).core, p⟩
      | none => none
def TileRef.key (r : TileRef) (k : Nat) (a : W32) : Nat := scrKey k r.core r.tile (a.toNat % 4096)
/-- The owner of a tile: true for the engines (R195). -/
def State.engOwned (s : State) (k : Nat) (r : TileRef) : Bool := fget false (s.core k r.core).ownEng r.tile
def State.setOwner (s : State) (k : Nat) (r : TileRef) (eng : Bool) : State :=
  s.modCore k r.core (fun c => { c with ownEng := fset false c.ownEng r.tile eng })
def State.checkS (s : State) (t : Nat) (a : W32) (n : Nat) : Checked :=
  match s.tileOf t a with
  | none => .bad .prot 0
  | some r =>
    if a.toNat % n ≠ 0 then .bad .align 0
    else if s.engOwned (s.troupe t).pkg r then .bad .own 0
    else .ok (.at_ (r.key (s.troupe t).pkg a) false)
/-- A `.b` access: below this cluster's visible bank store. -/
def State.checkB (s : State) (t : Nat) (a : W32) (n : Nat) : Checked :=
  let die := clusterOf (s.troupe t).core
  let k := (s.troupe t).pkg
  if (s.pkg k).bankBytes die ≤ a.toNat then .bad .prot 0
  else if a.toNat % n ≠ 0 then .bad .align 0
  else .ok (.at_ (bankKey k die a.toNat) false)

/-- Whether `n` bytes at `a` of a space lie within one write range of the troupe (R406). -/
def Troupe.inRange (t : Troupe) (sp : Space) (a : W64) (n : Nat) : Bool :=
  t.ranges.any (fun (e : Nat × DRange) =>
    e.2.space == sp && e.2.len != 0 && e.2.base.toNat ≤ a.toNat && a.toNat + n ≤ e.2.base.toNat + e.2.len)
/-- Step 6: the write ranges of a deterministic launch. -/
def State.checkDet (s : State) (t : Nat) (sp : Space) (kd : AccKind) (a : W64) (n : Nat) (c : Checked) : Checked :=
  match c with
  | .bad x y => .bad x y
  | .ok p =>
    let tr := s.troupe t
    if tr.hdr.det && kd.writes && sp != .s && !tr.inRange sp a n then .bad .detrange 1 else .ok p
/-- All the checks of a lane's access (R177). -/
def State.check (s : State) (t : Nat) (sys : Bool) (sp : Space) (kd : AccKind) (a : W64) (n : Nat) : Checked :=
  let tr := s.troupe t
  s.checkDet t sp kd a n (match sp with
    | .g => s.checkG tr.pkg tr.core tr.ctx sys kd a n
    | .s => s.checkS t (lo32 a) n
    | .b => s.checkB t (lo32 a) n)

/-- The effective address of a lane (R175): `off` is the offset in bytes. -/
def State.effAddr (s : State) (l : Nat) (sp : Space) (a : Reg) (off : Int) : W64 :=
  match sp with
  | .g => s.src64 s.cur.wid l a + BitVec.ofInt 64 off
  | _ => (s.src s.cur.wid l a + BitVec.ofInt 32 off).setWidth 64

end Sys2Proof.Machine
end

