-- ==== Sys2Proof/Machine/Access.lean ====
section
/-! DEFINITION. Writes in flight and what each agent reads (R180, R181, R246 to R253, R264): a write is issued, performs
at its core, at its cluster and at its package; the line cache; what a release waits for; what an acquire promotes. -/

namespace Sys2Proof.Machine

/-- Who reads: a lane of a wave on a core of a package. -/
structure Viewer where
  pkg : Nat
  core : Nat
  wid : Nat
  lane : Nat
  deriving DecidableEq, Repr
def State.viewer (s : State) (w l : Nat) : Viewer :=
  let t := s.troupe (s.wave w).tid
  ⟨t.pkg, t.core, w, l⟩

/-- A core's number over the whole pod. -/
def podCore (k core : Nat) : Nat := k * 1024 + core
def PWrite.gcore (w : PWrite) : Nat := podCore w.pkg w.core
def overlaps (a n b m : Nat) : Bool := a < b + m && b < a + n
def PWrite.meets (w : PWrite) (a n : Nat) : Bool := overlaps w.addr w.bytes.length a n
/-- The aligned 8 bytes that hold a write: an aligned write of at most 8 bytes never leaves them (R176). -/
def PWrite.unit (w : PWrite) : Nat := w.addr / 8
/-- A write to scratchpad or bank store has one place and no levels in between (R189, R262, R268). -/
def PWrite.isDirect (w : PWrite) : Bool := !keyIsHbm w.addr

/-- Whether a write in flight has performed for an agent of a core (R246, R248). -/
def PWrite.seenBy (w : PWrite) (k core : Nat) : Bool :=
  w.pkg == k && ((1 ≤ w.level && w.core == core) || (2 ≤ w.level && clusterOf w.core == clusterOf core))
/-- A lane's own write that has not yet performed anywhere (R180). -/
def PWrite.ownedBy (w : PWrite) (v : Viewer) : Bool := w.level == 0 && w.wid == v.wid && w.lane == v.lane

/-- The bytes at `a`, with those that a write covers replaced. -/
def overlayFrom (w : PWrite) : Nat → List Byte → List Byte
  | _, [] => []
  | a, b :: bs => (if w.addr ≤ a && a < w.addr + w.bytes.length then w.bytes.getD (a - w.addr) b else b) :: overlayFrom w (a + 1) bs
def overlay (a : Nat) (bs : List Byte) (ws : List PWrite) : List Byte := ws.foldl (fun bs w => overlayFrom w a bs) bs
/-- What an agent of a core reads past its line cache. -/
def State.coreView (s : State) (k core a n : Nat) : List Byte :=
  overlay a (s.load a n) (s.writes.filter (fun w => w.meets a n && w.seenBy k core))
/-- A lane reads its own latest store besides (R180). -/
def State.ownView (s : State) (v : Viewer) (a : Nat) (bs : List Byte) : List Byte :=
  overlay a bs (s.writes.filter (fun w => w.meets a bs.length && w.ownedBy v))
/-- What a lane reads past the line cache. -/
def State.laneView (s : State) (v : Viewer) (a n : Nat) : List Byte := s.ownView v a (s.coreView v.pkg v.core a n)

/-! ### The line cache (R264) -/

def lineOf (a : Nat) : Nat := a / 128
/-- A line moves to the end of the list, the most recently used; a ninth of its set drives out the oldest. -/
def touchLine (ls : List Line) (x : Line) : List Line :=
  let rest := ls.filter (fun y => y.tag != x.tag)
  let same := rest.filter (fun y => Config.lineSet y.tag % 256 == Config.lineSet x.tag % 256)
  let keep := if same.length < 8 then rest
    else match same.head? with
      | some o => rest.filter (fun y => y.tag != o.tag)
      | none => rest
  keep ++ [x]
/-- The line that holds an address, from the cache or filled whole. -/
def State.lineFor (s : State) (k core a : Nat) : Line :=
  match (s.core k core).lines.find? (fun y => y.tag == lineOf a) with
  | some y => y
  | none => ⟨lineOf a, s.coreView k core (lineOf a * 128) 128⟩
def State.useLine (s : State) (k core a : Nat) : State :=
  let y := s.lineFor k core a
  s.modCore k core (fun c => { c with lines := touchLine c.lines y })
/-- What a relaxed `ld.g` of a cacheable line reads (R181). -/
def State.cachedView (s : State) (v : Viewer) (a n : Nat) : List Byte :=
  s.ownView v a (((s.lineFor v.pkg v.core a).bytes.drop (a % 128)).take n)
/-- A read past the cache at `.core` leaves a held line in place, with the bytes read as they were read: no later read of the
lane finds an older value (R181, R252, R264). -/
def State.freshLine (s : State) (k core a n : Nat) : State :=
  let bs := s.coreView k core a n
  s.modCore k core (fun c => { c with lines := c.lines.map (fun y =>
    if overlaps (y.tag * 128) 128 a n then { y with bytes := overlayFrom ⟨0, 0, 0, core, k, a, bs, 1, none⟩ (y.tag * 128) y.bytes } else y) })
/-- Lines leave a core's cache: those that touch a range, or all. -/
def dropLines (ls : List Line) (a n : Nat) : List Line := ls.filter (fun y => !overlaps (y.tag * 128) 128 a n)
def State.dropCoreLines (s : State) (k core a n : Nat) : State :=
  s.modCore k core (fun c => { c with lines := dropLines c.lines a n })
def State.emptyLines (s : State) (k core : Nat) : State := s.modCore k core (fun c => { c with lines := [] })
/-- Lines leave every core's cache of a package (R264: a change of a mapping). -/
def Pkg.dropAllLines (p : Pkg) (a n : Nat) : Pkg := { p with cores := fall p.cores (fun _ c => { c with lines := dropLines c.lines a n }) }
/-- A store from this core updates any line that holds its bytes (R181). -/
def writeLines (ls : List Line) (w : PWrite) : List Line :=
  ls.map (fun y => if overlaps (y.tag * 128) 128 w.addr w.bytes.length then { y with bytes := overlayFrom w (y.tag * 128) y.bytes } else y)

/-! ### Performing (R248) -/

/-- Record the `.core` releases that a read of these bytes observes. -/
def markRel (m : FMap (List (Nat × Nat))) (a n : Nat) (r : List (Nat × Nat)) : FMap (List (Nat × Nat)) :=
  (List.range n).foldl (fun m i => fset [] m (a + i) r) m
/-- A write performs at package scope: it is in memory. -/
def State.landWrite (s : State) (w : PWrite) : State :=
  let s1 := s.store w.addr w.bytes
  if w.rel = some .core then { s1 with relAt := markRel s1.relAt w.addr w.bytes.length [(w.gcore, w.id)] } else s1
/-- All writes to an aligned 8 bytes that have performed at a core go to memory, in order (R248: coherence). -/
def State.settleUnit (s : State) (u : Nat) : State :=
  let f := fun (w : PWrite) => 1 ≤ w.level && w.unit == u
  (s.writes.filter f).foldl (fun s w => s.landWrite w) { s with writes := s.writes.filter (fun w => !f w) }
/-- A write by an agent that works at package scope: it follows what has performed anywhere before it. -/
def State.settleRange (s : State) (a n : Nat) : State :=
  if n = 0 then s else (List.range ((a + n - 1) / 8 - a / 8 + 1)).foldl (fun s i => s.settleUnit (a / 8 + i)) s
/-- Bytes written at package scope at once, the earlier writes of any core to them first. -/
def State.storeAt (s : State) (a : Nat) (bs : List Byte) : State := (s.settleRange a bs.length).store a bs
/-- What an agent at package scope reads (R207). -/
def State.loadAt (s : State) (a n : Nat) : List Byte := s.load a n


end Sys2Proof.Machine

namespace Sys2Proof
/-- The level of a write that has performed at a scope; 3 is memory (R246). -/
def Scope.lvl (c : Scope) : Nat := match c with | .core => 1 | .clu => 2 | .pkg => 3 | .pod => 3
end Sys2Proof

namespace Sys2Proof.Machine

/-- What stands before a release at a level: the wave's earlier writes, and the writes that others have made visible to
it, that have not performed there; its earlier atomics, `red`s and `bop`s that have not been applied (R180, R250). -/
def State.behind (s : State) (w id lvl : Nat) : Bool :=
  let t := s.troupe (s.wave w).tid
  s.writes.any (fun x => x.id < id && x.level < lvl &&
    (x.wid == w || (x.pkg == t.pkg && 1 ≤ x.level && (x.core == t.core || (2 ≤ x.level && clusterOf x.core == clusterOf t.core))))) ||
  (s.pkg t.pkg).bankQ.any (fun b => b.wid == w && b.id < id) ||
  (s.pkg t.pkg).bops.any (fun b => b.wid == w && b.id < id)
/-- Whether the issuing wave's earlier accesses have yet to perform at a scope. -/
def State.relWait (s : State) (sc : Scope) : Bool := s.behind s.cur.wid s.nextId sc.lvl

/-- Bank and die of a byte of bank store. -/
def sameBank (a b : Nat) : Bool := keyIsBank a && keyIsBank b && keyPkg a == keyPkg b && keyDie a == keyDie b && keyBank a == keyBank b
/-- Whether a write must follow another that stands before it in the list. -/
def PWrite.after (w x : PWrite) : Bool :=
  if w.level = 0 then
    x.level == 0 && x.id ≤ w.id &&
      ((x.meets w.addr w.bytes.length && ((x.wid == w.wid && x.lane == w.lane) || x.id == w.id)) ||
       (x.wid == w.wid && sameBank x.addr w.addr))
  else w.level == 2 && 1 ≤ x.level && x.meets w.addr w.bytes.length
/-- The write at place `n` may perform at its next level now: nothing that must precede it is still behind. -/
def State.mayPerform (s : State) (n : Nat) : Bool :=
  match s.writes[n]? with
  | none => false
  | some w =>
    !(s.writes.take n).any (fun x => w.after x) &&
    (w.level != 0 ||
      ((match w.rel with | some sc => !s.behind w.wid w.id sc.lvl | none => true) &&
       !(s.pkg w.pkg).bankQ.any (fun b => b.wid == w.wid && b.id < w.id &&
          ((b.lane == w.lane && w.meets b.addr 8) || sameBank b.addr w.addr))))
/-- A write performs at the next wider level (R248). -/
def State.performNext (s : State) (n : Nat) : State :=
  if !s.mayPerform n then s
  else match s.writes[n]? with
    | none => s
    | some w =>
      let s1 := { s with writes := s.writes.eraseIdx n }
      if w.level = 0 then
        if w.isDirect then s1.landWrite w
        else
          let s2 := s1.modCore w.pkg w.core (fun c => { c with lines := writeLines c.lines w })
          { s2 with writes := s2.writes ++ [{ w with level := 1 }] }
      else if w.level = 1 then { s with writes := s.writes.set n { w with level := 2 } }
      else s1.landWrite w

/-! ### Promotion (R253) -/

/-- The `.core` releases that a read of bytes observes, beside those of the reader's own core. -/
def State.relsAt (s : State) (k core a n : Nat) : List (Nat × Nat) :=
  let inMem := ((List.range n).map (fun i => fget [] s.relAt (a + i))).flatten
  let vis := (s.writes.filter (fun w => w.meets a n && w.seenBy k core && w.rel == some .core)).map (fun w => (w.gcore, w.id))
  ((inMem ++ vis).dedup).filter (fun r => r.1 != podCore k core)
/-- Whether nothing that a package has sent is still on its way. -/
def Pkg.quiet (p : Pkg) : Bool :=
  p.fab.locals.isEmpty &&
  p.fab.peers.all (fun (e : Nat × Peer) => e.2.sentD == e.2.appliedD && e.2.sentVia.all (fun (x : Nat × Nat) => x.2 == fget 0 e.2.doneVia x.1))
/-- Whether the releases of another core up to one, and what they order, have performed at an acquirer's scope. -/
def State.promoted (s : State) (k core : Nat) (r : Nat × Nat × Scope) : Bool :=
  let k2 := r.1 / 1024
  let c2 := r.1 % 1024
  let need := if r.2.2 = .clu ∧ k2 = k ∧ clusterOf c2 = clusterOf core then 2 else 3
  !s.writes.any (fun x => x.id ≤ r.2.1 && x.pkg == k2 && x.level < need &&
    (x.core == c2 || (2 ≤ x.level && clusterOf x.core == clusterOf c2))) &&
  !(s.pkg k2).bankQ.any (fun b => b.core == c2 && b.id ≤ r.2.1) &&
  (r.2.2 != .pod || (s.pkg k2).quiet)
/-- An acquire has observed releases: the wave's later accesses wait until they are promoted. -/
def State.observe (s : State) (w : Nat) (sc : Scope) (rels : List (Nat × Nat)) : State :=
  if sc = .core then s
  else s.modWave w (fun v => { v with relHold := v.relHold ++ rels.map (fun r => (r.1, r.2, sc)) })
/-- Whether a wave's accesses are held back (R180, R231, R253). -/
def State.memHeld (s : State) (w : Nat) : Bool :=
  let v := s.wave w
  let t := s.troupe v.tid
  !v.holdMem.isEmpty || v.relHold.any (fun r => !s.promoted t.pkg t.core r)
/-- Holds that are over are forgotten: the acquire is complete, and what the core's cache has filled since its issue goes
(R181, R253). -/
def State.clearHolds (s : State) (w : Nat) : State :=
  let t := s.troupe (s.wave w).tid
  (s.modWave w (fun v => { v with relHold := v.relHold.filter (fun r => !s.promoted t.pkg t.core r) })).emptyLines t.pkg t.core

/-- The core's lines leave it at an acquire at `.clu` or wider (R181). -/
def State.acquireLines (s : State) (sc : Scope) : State :=
  if sc = .core then s else s.emptyLines s.curPkg s.curTroupe.core

/-! ### Issuing a store -/

def splitBytes (a : Nat) (bs : List Byte) : List (Nat × List Byte) :=
  if bs.length = 16 then [(a, bs.take 8), (a + 8, bs.drop 8)] else [(a, bs)]
/-- A lane's store is issued (R179): it performs later. A 16-byte store is two halves (R176). -/
def State.issueStore (s : State) (id l a : Nat) (bs : List Byte) (rel : Option Scope) : State :=
  let t := s.curTroupe
  { s with writes := s.writes ++ (splitBytes a bs).map (fun e =>
      ⟨id, s.cur.wid, l, t.core, t.pkg, e.1, e.2, 0, rel⟩) }

/-- Whether a lane's access must wait for the wave's own earlier operations: one it has at a bank on the same bytes, or
anything of the wave's for the same bank of the bank store (R180, R268). -/
def State.ownBehind (s : State) (l a n : Nat) : Bool :=
  (s.pkg s.curPkg).bankQ.any (fun b => b.wid == s.cur.wid && ((b.lane == l && overlaps b.addr 8 a n) || sameBank b.addr a)) ||
  s.writes.any (fun x => x.wid == s.cur.wid && x.level == 0 && sameBank x.addr a)
/-- Two lanes of one load that name one address where one has a store of its own in flight (R182). -/
def State.splitRead (s : State) (ls : List (Nat × Nat)) (n : Nat) : Bool :=
  s.writes.any (fun x => x.level == 0 && x.wid == s.cur.wid &&
    ls.any (fun e => e.1 == x.lane && x.meets e.2 n) && ls.any (fun e => e.1 != x.lane && x.meets e.2 n))

end Sys2Proof.Machine
end

