-- ==== Sys2Proof/Machine/Fp.lean ====
section
/-! DEFINITION. Floating-point arithmetic to the bit (R47 to R55): formats, one rounding of an exact value, sums and
products of exact values, division, roots, comparison and classification. -/

namespace Sys2Proof.Machine

/-- A format: exponent and fraction widths (R47). -/
structure Fmt where
  eb : Nat
  fb : Nat
  deriving DecidableEq, Repr
def fmt32 : Fmt := ⟨8, 23⟩
def fmt64 : Fmt := ⟨11, 52⟩
def fmt16 : Fmt := ⟨5, 10⟩
def fmtB16 : Fmt := ⟨8, 7⟩
def Fmt.bits (f : Fmt) : Nat := f.eb + f.fb + 1
def Fmt.expMax (f : Fmt) : Nat := 2 ^ f.eb - 1
def Fmt.bias (f : Fmt) : Int := 2 ^ (f.eb - 1) - 1
/-- Exponent of the unit in the last place of a subnormal. -/
def Fmt.qmin (f : Fmt) : Int := 1 - f.bias - f.fb
def Fmt.infBits (f : Fmt) : Nat := f.expMax * 2 ^ f.fb
def Fmt.maxBits (f : Fmt) : Nat := f.infBits - 1
/-- The canonical NaN (R47, R51). -/
def Fmt.nan (f : Fmt) : Nat := f.infBits + 2 ^ (f.fb - 1)
def Fmt.sign (f : Fmt) (neg : Bool) : Nat := if neg then 2 ^ (f.eb + f.fb) else 0

/-- What the bits of a format mean (R47): a finite value is `(-1)^neg * m * 2^e`, a zero keeping its sign. -/
inductive FVal
  | nan (sig : Bool)
  | inf (neg : Bool)
  | fin (neg : Bool) (m : Nat) (e : Int)
  deriving DecidableEq, Repr

def Fmt.val (f : Fmt) (x : Nat) : FVal :=
  let neg := x / 2 ^ (f.eb + f.fb) % 2 == 1
  let ex := x / 2 ^ f.fb % 2 ^ f.eb
  let fr := x % 2 ^ f.fb
  if ex = f.expMax then (if fr = 0 then .inf neg else .nan (fr / 2 ^ (f.fb - 1) == 0))
  else if ex = 0 then .fin neg fr f.qmin
  else .fin neg (2 ^ f.fb + fr) (f.qmin + (ex : Int) - 1)

def FVal.isNan : FVal → Bool | .nan _ => true | _ => false
def FVal.isSig : FVal → Bool | .nan s => s | _ => false
def FVal.isInf : FVal → Bool | .inf _ => true | _ => false
def FVal.isZero : FVal → Bool | .fin _ m _ => m == 0 | _ => false
def FVal.neg : FVal → Bool | .nan _ => false | .inf n => n | .fin n _ _ => n
/-- NV where an operand signals (R51). -/
def sigFlag (xs : List FVal) : BitVec 5 := if xs.any (·.isSig) then flNV else flNone

/-- Bits of a number, leading zeros apart. -/
def bitLen (m : Nat) : Nat := if m = 0 then 0 else Nat.log2 m + 1

/-- Whether a mode rounds away from zero, given what is cut off: `q` the kept part, `r` the part below a unit `u`. -/
def roundsUp (md : RMode) (neg : Bool) (q r u : Nat) : Bool :=
  match md with
  | .rne => u < 2 * r || (2 * r == u && q % 2 == 1)
  | .rtz => false
  | .rdn => neg && r != 0
  | .rup => !neg && r != 0
  | .rna => u ≤ 2 * r
/-- `m * 2^e` as a multiple of `2^q` under a mode, and whether anything was cut off. -/
def roundAt (md : RMode) (neg : Bool) (m : Nat) (e q : Int) : Nat × Bool :=
  if q ≤ e then (m * 2 ^ (e - q).toNat, false)
  else if (bitLen m : Int) + 2 ≤ q - e then (if roundsUp md neg 0 (min m 1) 4 then 1 else 0, m != 0)
  else
    let u := 2 ^ (q - e).toNat
    let k := m / u
    let r := m % u
    (if roundsUp md neg k r u then k + 1 else k, r != 0)

/-- The result of an overflow (R50). -/
def overflowBits (f : Fmt) (md : RMode) (neg : Bool) : Nat :=
  f.sign neg + (match md with
    | .rne => f.infBits
    | .rna => f.infBits
    | .rtz => f.maxBits
    | .rdn => if neg then f.infBits else f.maxBits
    | .rup => if neg then f.maxBits else f.infBits)

/-- One rounding of an exact value to a format, with its flags (R49, R50). -/
def roundFin (f : Fmt) (md : RMode) (neg : Bool) (m : Nat) (e : Int) : Nat × BitVec 5 :=
  if m = 0 then (f.sign neg, flNone)
  else
    let top := e + bitLen m - 1
    let q0 := top - f.fb
    let q := max q0 f.qmin
    let r := roundAt md neg m e q
    let b := (q - f.qmin).toNat * 2 ^ f.fb + r.1
    if f.infBits ≤ b then (overflowBits f md neg, flOF ||| flNX)
    else
      let tiny := q0 < f.qmin &&
        !(q0 + 1 == f.qmin && (roundAt md neg m e q0).1 == 2 ^ (f.fb + 1))
      (f.sign neg + b, if r.2 then (if tiny then flUF ||| flNX else flNX) else flNone)
/-- Round a value of any kind; a NaN is the canonical one (R51). -/
def roundVal (f : Fmt) (md : RMode) (v : FVal) : Nat × BitVec 5 :=
  match v with
  | .nan _ => (f.nan, flNone)
  | .inf n => (f.sign n + f.infBits, flNone)
  | .fin n m e => roundFin f md n m e

/-! ### Exact sums and products (R50, R144) -/

/-- A finite value as an integer multiple of `2^e`. -/
def scaledTo (e : Int) : FVal → Int
  | .fin n m x => (if n then -1 else 1) * ((m * 2 ^ (x - e).toNat : Nat) : Int)
  | _ => 0
/-- The exact sum of two values; a zero sum of opposite signs is +0, or -0 under RDN. -/
def addVal (md : RMode) (x y : FVal) : FVal × BitVec 5 :=
  match x, y with
  | .nan _, _ => (.nan false, sigFlag [x, y])
  | _, .nan _ => (.nan false, sigFlag [x, y])
  | .inf a, .inf b => if a = b then (.inf a, flNone) else (.nan false, flNV)
  | .inf a, _ => (.inf a, flNone)
  | _, .inf b => (.inf b, flNone)
  | .fin a m e, .fin b n g =>
    let q := min e g
    let t := scaledTo q x + scaledTo q y
    if t = 0 then (.fin (if m = 0 ∧ n = 0 ∧ a = b then a else md == .rdn) 0 q, flNone)
    else (.fin (t < 0) t.natAbs q, flNone)
/-- The exact product of two values. -/
def mulVal (x y : FVal) : FVal × BitVec 5 :=
  match x, y with
  | .nan _, _ => (.nan false, sigFlag [x, y])
  | _, .nan _ => (.nan false, sigFlag [x, y])
  | .inf a, _ => if y.isZero then (.nan false, flNV) else (.inf (a ^^ y.neg), flNone)
  | _, .inf b => if x.isZero then (.nan false, flNV) else (.inf (x.neg ^^ b), flNone)
  | .fin a m e, .fin b n g => (.fin (a ^^ b) (m * n) (e + g), flNone)
def FVal.negate : FVal → FVal
  | .nan s => .nan s
  | .inf n => .inf (!n)
  | .fin n m e => .fin (!n) m e

/-- An operation on bits of one format, with flags. -/
abbrev FRes := Nat × BitVec 5
def finishF (f : Fmt) (md : RMode) (r : FVal × BitVec 5) : FRes :=
  let t := roundVal f md r.1
  (t.1, r.2 ||| t.2)
def fAdd (f : Fmt) (md : RMode) (x y : Nat) : FRes := finishF f md (addVal md (f.val x) (f.val y))
def fSub (f : Fmt) (md : RMode) (x y : Nat) : FRes := finishF f md (addVal md (f.val x) (f.val y).negate)
def fMul (f : Fmt) (md : RMode) (x y : Nat) : FRes := finishF f md (mulVal (f.val x) (f.val y))
/-- `x * y + z`, rounded once; 0 times infinity is invalid whatever `z` is (R144). -/
def fFma (f : Fmt) (md : RMode) (x y z : Nat) : FRes :=
  let p := mulVal (f.val x) (f.val y)
  let r := addVal md p.1 (f.val z)
  finishF f md (r.1, p.2 ||| r.2 ||| sigFlag [f.val z])

/-! ### Division and roots (R54) -/

/-- A quotient of positive numbers with at least `p` bits, the last one set where the division does not end. -/
def quotJam (p m n : Nat) : Nat × Int :=
  let k := p + bitLen n
  let a := m * 2 ^ k
  (2 * (a / n) + (if a % n = 0 then 0 else 1), -(k : Int) - 1)
def divVal (f : Fmt) (x y : FVal) : FVal × BitVec 5 :=
  match x, y with
  | .nan _, _ => (.nan false, sigFlag [x, y])
  | _, .nan _ => (.nan false, sigFlag [x, y])
  | .inf _, .inf _ => (.nan false, flNV)
  | .inf a, .fin b _ _ => (.inf (a ^^ b), flNone)
  | .fin a _ _, .inf b => (.fin (a ^^ b) 0 0, flNone)
  | .fin a m e, .fin b n g =>
    if n = 0 then (if m = 0 then (.nan false, flNV) else (.inf (a ^^ b), flDZ))
    else if m = 0 then (.fin (a ^^ b) 0 0, flNone)
    else
      let q := quotJam (f.fb + 4) m n
      (.fin (a ^^ b) q.1 (e - g + q.2), flNone)
def fDiv (f : Fmt) (md : RMode) (x y : Nat) : FRes := finishF f md (divVal f (f.val x) (f.val y))

/-- The integer square root of `n`, built from bit `k - 1` down. -/
def isqrtGo (n : Nat) : Nat → Nat → Nat
  | 0, r => r
  | k + 1, r => isqrtGo n k (if (r + 2 ^ k) * (r + 2 ^ k) ≤ n then r + 2 ^ k else r)
def isqrt (n : Nat) : Nat := isqrtGo n (bitLen n / 2 + 1) 0
/-- The square root of `m * 2^e`. -/
def sqrtVal (f : Fmt) (x : FVal) : FVal × BitVec 5 :=
  match x with
  | .nan _ => (.nan false, sigFlag [x])
  | .inf n => if n then (.nan false, flNV) else (.inf false, flNone)
  | .fin n m e =>
    if m = 0 then (.fin n 0 0, flNone)
    else if n then (.nan false, flNV)
    else
      let k : Nat := 2 * (f.fb + 4) + (e % 2).toNat
      let a := m * 2 ^ k
      let r := isqrt a
      (.fin false (2 * r + (if r * r = a then 0 else 1)) ((e - k) / 2 - 1), flNone)
def fSqrt (f : Fmt) (md : RMode) (x : Nat) : FRes := finishF f md (sqrtVal f (f.val x))
def fRcp (f : Fmt) (md : RMode) (x : Nat) : FRes := finishF f md (divVal f (.fin false 1 0) (f.val x))
def rsqrtVal (f : Fmt) (x : FVal) : FVal × BitVec 5 :=
  match x with
  | .nan _ => (.nan false, sigFlag [x])
  | .inf n => if n then (.nan false, flNV) else (.fin false 0 0, flNone)
  | .fin n m e =>
    if m = 0 then (.inf n, flDZ)
    else if n then (.nan false, flNV)
    else
      let m1 := if e % 2 = 0 then m else 2 * m
      let e1 := if e % 2 = 0 then e else e - 1
      let k := f.fb + 4 + bitLen m1
      let a := 2 ^ (2 * k)
      let r := isqrt (a / m1)
      (.fin false (2 * r + (if r * r * m1 = a then 0 else 1)) (-(k : Int) - e1 / 2 - 1), flNone)
def fRsqrt (f : Fmt) (md : RMode) (x : Nat) : FRes := finishF f md (rsqrtVal f (f.val x))

/-! ### Minimum, maximum, comparison, class (R52, R147, R148) -/

/-- Order of two numbers, -0 below +0 when `z`, equal otherwise. -/
def ltVal (z : Bool) (x y : FVal) : Bool :=
  match x, y with
  | .nan _, _ => false
  | _, .nan _ => false
  | .inf a, .inf b => a && !b
  | .inf a, _ => a
  | _, .inf b => !b
  | .fin a m e, .fin b n g =>
    let q := min e g
    let s := scaledTo q x
    let t := scaledTo q y
    s < t || (z && m == 0 && n == 0 && a && !b)
def eqVal (x y : FVal) : Bool := !x.isNan && !y.isNan && !ltVal false x y && !ltVal false y x
def fMinMax (f : Fmt) (mx : Bool) (x y : Nat) : FRes :=
  let a := f.val x
  let b := f.val y
  let r := if a.isNan then (if b.isNan then f.nan else y)
    else if b.isNan then x
    else if mx then (if ltVal true a b then y else x)
    else (if ltVal true b a then y else x)
  (r, sigFlag [a, b])
def fClass (f : Fmt) (x : Nat) : Nat :=
  match f.val x with
  | .nan s => if s then 8 else 9
  | .inf n => if n then 0 else 7
  | .fin n m _ =>
    if m = 0 then (if n then 3 else 4)
    else if m < 2 ^ f.fb then (if n then 2 else 5)
    else (if n then 1 else 6)

/-! ### Exponent and integral value (R146) -/

def fScale (f : Fmt) (md : RMode) (x : Nat) (n : Int) : FRes :=
  let v := f.val x
  finishF f md (match v with | .fin s m e => .fin s m (e + n) | v => v, sigFlag [v])
/-- An integer as a value. -/
def intVal (i : Int) : FVal := .fin (i < 0) i.natAbs 0
def fGetExp (f : Fmt) (x : Nat) : FRes :=
  match f.val x with
  | .nan s => (f.nan, sigFlag [.nan s])
  | .inf _ => (f.infBits, flNone)
  | .fin _ m e => if m = 0 then (f.sign true + f.infBits, flDZ) else (roundVal f .rne (intVal (e + bitLen m - 1))).1 |> fun b => (b, flNone)
def fGetMan (f : Fmt) (x : Nat) : FRes :=
  match f.val x with
  | .nan s => (f.nan, sigFlag [.nan s])
  | .inf n => (f.sign n + f.infBits, flNone)
  | .fin n m _ => ((roundFin f .rne n m (1 - (bitLen m : Int))).1, flNone)
/-- A value rounded to an integer: magnitude and inexactness. -/
def roundInt (md : RMode) (n : Bool) (m : Nat) (e : Int) : Nat × Bool := roundAt md n m e 0
def fRint (f : Fmt) (md : RMode) (x : Nat) : FRes :=
  match f.val x with
  | .nan s => (f.nan, sigFlag [.nan s])
  | .inf n => (f.sign n + f.infBits, flNone)
  | .fin n m e =>
    let r := roundInt md n m e
    ((roundFin f .rne n r.1 0).1, if r.2 then flNX else flNone)

/-! ### Sums of several terms (R63, R150) -/

/-- The exact sum of a list of terms: a NaN term wins, infinities of both signs are invalid, an exact zero is -0 only
when every term is -0 and, under RDN, unless every term is +0. -/
def sumVals (md : RMode) (xs : List FVal) : FVal × BitVec 5 :=
  if xs.any (·.isNan) then (.nan false, flNone)
  else if xs.any (fun x => x.isInf && x.neg) && xs.any (fun x => x.isInf && !x.neg) then (.nan false, flNV)
  else match xs.find? (·.isInf) with
    | some v => (v, flNone)
    | none =>
      let q := xs.foldl (fun q x => match x with | .fin _ _ e => min q e | _ => q) 0
      let t := xs.foldl (fun t x => t + scaledTo q x) 0
      if t = 0 then
        let allZero := xs.all (·.isZero)
        let n := if allZero && xs.all (·.neg) then true else if allZero && xs.all (fun x => !x.neg) then false else md == .rdn
        (.fin n 0 0, flNone)
      else (.fin (t < 0) t.natAbs q, flNone)
/-- Products of pairs, their flags, and the sum (R63). -/
def sumProducts (md : RMode) (extra : List FVal) (ps : List (FVal × FVal)) : FVal × BitVec 5 :=
  let qs := ps.map (fun p => mulVal p.1 p.2)
  let r := sumVals md (extra ++ qs.map (·.1))
  (r.1, qs.foldl (fun a q => a ||| q.2) (r.2 ||| sigFlag extra))

end Sys2Proof.Machine
end

