-- ==== Sys2Proof/Machine/Bank.lean ====
section
/-! DEFINITION. The bank ALUs (R188, R192, R345, R346): what an atomic leaves, elements of a range operation, the order in
which operations at one bank are applied; activity budgets (R347, R348); the device's own accesses by virtual address;
the record log (R410 to R412). -/

namespace Sys2Proof.Machine

/-! ### Budgets (R347, R348) -/

def paceCopy (die : Nat) : Nat := die
def paceBank (die : Nat) : Nat := 8 + die
def paceWalk (die : Nat) : Nat := 16 + die
def pacePort : Nat := 32
def paceReduce : Nat := 33
/-- A unit of work of a class may start. -/
def Pkg.mayStart (p : Pkg) (c : Nat) : Bool :=
  let x := fget Pace.init p.phys.pace c
  x.budget == 0 || 0 < x.credit
def Pkg.spend (p : Pkg) (c n : Nat) : Pkg :=
  { p with phys := { p.phys with pace := fmod p.phys.pace c (fun x => if x.budget = 0 then x else { x with credit := x.credit - n }) } }

/-! ### The device's own accesses -/

/-- Where a virtual address of a context lies on a package, by the package's own tables. -/
def State.devPlace (s : State) (k : Nat) (ctx : W32) (va : W64) : Place :=
  if !canonicalVa va then .absent
  else match walk s k ctx va with
    | none => .absent
    | some w => match w.leaf? with
      | none => .absent
      | some l => s.placeOf k ⟨ctx, BitVec.ofNat 64 (va.toNat / w.size * w.size), w.size, l⟩ va
/-- The leaf that maps an address, if the tables hold one. -/
def State.devLeaf (s : State) (k : Nat) (ctx : W32) (va : W64) : Option W64 :=
  match walk s k ctx va with | none => none | some w => w.leaf?
def State.devKey (s : State) (k : Nat) (ctx : W32) (va : W64) : Option Nat :=
  match s.devPlace k ctx va with
  | .at_ key _ => some key
  | _ => none
/-- The translation that a change of a page under way has replaced: what was accepted before it completes with it (R206, R277).
`born` tells what had been accepted. -/
def State.oldEntry (s : State) (k : Nat) (ctx : W32) (born : Nat) (va : W64) : Option TlbEntry :=
  s.pkgs.findSome? (fun (e : Nat × Pkg) => e.2.vmch.findSome? (fun c =>
    if c.ctx == ctx && born ≤ c.id then
      (c.old.find? (fun x => x.1 == k && x.2.1.toNat ≤ va.toNat && va.toNat < x.2.1.toNat + x.2.2.1)).map (fun x => ⟨ctx, x.2.1, x.2.2.1, x.2.2.2⟩)
    else none))
def State.heldPlace (s : State) (k : Nat) (ctx : W32) (born : Nat) (va : W64) : Place :=
  match s.oldEntry k ctx born va with
  | some e => s.placeOf k e va
  | none => s.devPlace k ctx va
def State.heldKey (s : State) (k : Nat) (ctx : W32) (born : Nat) (va : W64) : Option Nat :=
  match s.heldPlace k ctx born va with
  | .at_ key _ => some key
  | _ => none
/-- Read or write `n` bytes at a virtual address; none where a byte of them is not on this package. -/
def State.devLoad (s : State) (k : Nat) (ctx : W32) (va : W64) (n : Nat) : Option (List Byte) :=
  (List.range n).mapM (fun i => (s.devKey k ctx (va + BitVec.ofNat 64 i)).map (fun a => memGet s.mem a))
def State.devStore (s : State) (k : Nat) (ctx : W32) (va : W64) (bs : List Byte) : State :=
  match s.devKey k ctx va with
  | some a => s.storeAt a bs
  | none => s
def State.devRead (s : State) (k : Nat) (ctx : W32) (va : W64) (n : Nat) : Nat := leNat ((s.devLoad k ctx va n).getD [])

/-! ### Atomics (R188) -/

/-- The signed or unsigned smaller or larger of two values. -/
def pickMin (sg : Bool) (x y : BitVec n) : BitVec n := if (if sg then x.sle y else x.ule y) then x else y
def pickMax (sg : Bool) (x y : BitVec n) : BitVec n := if (if sg then x.sle y else x.ule y) then y else x
/-- The new value an operation leaves, of `n` bits. -/
def atomVal {n : Nat} (o : AtomOp) (m d : BitVec n) : BitVec n :=
  match o with
  | .add => m + d
  | .minS => pickMin true m d
  | .minZ => pickMin false m d
  | .maxS => pickMax true m d
  | .maxZ => pickMax false m d
  | .and => m &&& d
  | .or => m ||| d
  | .xor => m ^^^ d
  | .xch => d
  | .inc => if d.toNat ≤ m.toNat then 0 else m + 1
  | .fadd => BitVec.ofNat n (fAdd (if n = 64 then fmt64 else fmt32) .rne m.toNat d.toNat).1
def atomNew (o : AtomOp) (w : Bool) (m d : W64) : W64 :=
  if w then atomVal o m d else (atomVal o (lo32 m) (lo32 d)).setWidth 64
def casNew (m d e : W64) : W64 := if m = d then e else m
def atomBytes (w : Bool) : Nat := if w then 8 else 4
/-- Values of an atomic's width. -/
def atomTrim (w : Bool) (x : W64) : W64 := if w then x else (lo32 x).setWidth 64

/-- One indivisible update of a location: what it held, and the state after. A release at `.core` joins the ones that a
read of the location observes already (R250, R253). -/
def State.update (s : State) (a n : Nat) (f : W64 → W64) (rel : Option (Nat × Nat)) : W64 × State :=
  let s1 := s.settleRange a n
  let m := BitVec.ofNat 64 (leNat (s1.load a n))
  let before := fget [] s1.relAt a
  let s2 := s1.store a (leBytes n (f m).toNat)
  let rels := before ++ rel.toList
  (m, if rels.isEmpty then s2 else { s2 with relAt := markRel s2.relAt a n rels })

/-! ### Elements of a `bop` (R192) -/

def bopBytes (ty : Nat) : Nat := if ty = 1 then 8 else 4
def bopVal (op ty : Nat) (y x a : W64) : W64 :=
  let fl := fun (f : Fmt) =>
    match op with
    | 0 => a.toNat
    | 1 => (fMul f .rne a.toNat y.toNat).1
    | 2 => (fFma f .rne a.toNat x.toNat y.toNat).1
    | _ => (fAdd f .rne x.toNat y.toNat).1
  if ty = 0 then BitVec.ofNat 64 (fl fmt32)
  else if ty = 1 then BitVec.ofNat 64 (fl fmt64)
  else
    let r := match op with
      | 0 => lo32 a
      | 1 => lo32 a * lo32 y
      | 2 => lo32 a * lo32 x + lo32 y
      | _ => lo32 x + lo32 y
    r.setWidth 64

/-! ### The record log (R410 to R412) -/

def lnInit : LRec :=
  { addr := 0, khdr := 0, argn := 0, ntrp := 0, args := 0, evt := 0, donemap := 0, savebase := 0, graph := false, clmask := 0,
    nsave := 0, savesz := 0, wevt := 0, wval := 0, gmap := 0, gw := 0, gshift := 0, gpt := 0 }
def Launch.init : Launch :=
  { queue := 64, ctx := 0, depth := 0, prio := 3, since := 0, readySeq := 0, rcd := lnInit, hdr := KHdr.init, st := .done,
    caller := none, nextCorps := 0, wait := none, waitSaved := none, saved := [], published := 0, pubMap := [],
    nodes := [], gdesc := 0, gcount := 0, parent := none, reel := false, detc := 1, defBase := 0, defLen := 0, ranges := [],
    deferred := [], logMode := 0, redo := [], quiet := [], used := [] }
def State.launch (s : State) (k n : Nat) : Launch := fget Launch.init (s.pkg k).sched.launches n
def Pkg.modLaunch (p : Pkg) (n : Nat) (f : Launch → Launch) : Pkg :=
  { p with sched := { p.sched with launches := fmod p.sched.launches n f } }
/-- Entries of a launch's log. -/
def Launch.logLen (x : Launch) : Nat := (x.hdr.loglen - 64) / 16
def State.logWord (s : State) (k n off : Nat) : Nat :=
  let x := s.launch k n
  s.devRead k x.ctx (x.hdr.logbase + BitVec.ofNat 64 off) 4
def State.setLogWord (s : State) (k n off v : Nat) : State :=
  let x := s.launch k n
  s.devStore k x.ctx (x.hdr.logbase + BitVec.ofNat 64 off) (leBytes 4 v)
def Launch.logVa (x : Launch) (i : Nat) : W64 := x.hdr.logbase + BitVec.ofNat 64 (64 + 16 * (i % x.logLen))
/-- An entry: the first word names the lane, the bank and the kind; then LSEQ and the marker's value. -/
structure LogEnt where
  tidx : Nat
  wix : Nat
  lid : Nat
  die : Nat
  bank : Nat
  kind : Nat
  lseq : Nat
  val : Nat
  deriving DecidableEq, Repr
def LogEnt.bytes (e : LogEnt) : List Byte :=
  leBytes 8 (e.tidx * 2 ^ 24 + e.wix * 2 ^ 20 + e.lid * 2 ^ 15 + e.die * 2 ^ 13 + e.bank * 2 ^ 4 + e.kind) ++
  leBytes 8 (e.lseq * 2 ^ 32 + e.val)
def State.logEnt (s : State) (k n i : Nat) : LogEnt :=
  let x := s.launch k n
  let a := s.devRead k x.ctx (x.logVa i) 8
  let b := s.devRead k x.ctx (x.logVa i + 8) 8
  ⟨nbits a 63 24, nbits a 23 20, nbits a 19 15, nbits a 14 13, nbits a 12 4, nbits a 3 0, nbits b 63 32, nbits b 31 0⟩
/-- Append an entry (R411). -/
def State.logPut (s : State) (k n : Nat) (e : LogEnt) : State :=
  let x := s.launch k n
  let wr := s.logWord k n 0
  (s.devStore k x.ctx (x.logVa wr) e.bytes).setLogWord k n 0 (wr + 1)
/-- Free entries of a recording log. -/
def State.logRoom (s : State) (k n : Nat) : Nat :=
  (s.launch k n).logLen - ((s.logWord k n 0 + 2 ^ 32 - s.logWord k n 4) % 2 ^ 32)
/-- Recorded operations of a launch that are still at their banks. -/
def Pkg.unlogged (p : Pkg) (n : Nat) : Nat := (p.bankQ.filter (fun b => b.rcd && b.launch == n)).length
/-- In a replay, the place past RD of the entry that names a lane and its LSEQ. -/
def State.logFind (s : State) (k n tidx wix lid lseq : Nat) : Option Nat :=
  let rd := s.logWord k n 4
  let m := min 4096 ((s.logWord k n 0 + 2 ^ 32 - rd) % 2 ^ 32)
  ((List.range m).map (fun i => (rd + i) % 2 ^ 32)).find? (fun i =>
    let e := s.logEnt k n i
    e.tidx == tidx && e.wix == wix && e.lid == lid && e.lseq == lseq && !(s.launch k n).used.contains i)
/-- An entry is consumed; RD advances over those consumed in order (R412). -/
def advanceRd : Nat → Nat → List Nat → Nat × List Nat
  | 0, rd, used => (rd, used)
  | f + 1, rd, used => if used.contains rd then advanceRd f ((rd + 1) % 2 ^ 32) (used.filter (fun i => i != rd)) else (rd, used)
def State.logConsume (s : State) (k n i : Nat) : State :=
  let r := advanceRd 4096 (s.logWord k n 4) ((s.launch k n).used ++ [i])
  (s.modPkg k (fun p => p.modLaunch n (fun x => { x with used := r.2 }))).setLogWord k n 4 r.1
/-- Every earlier entry of a bank has been consumed. -/
def State.logTurn (s : State) (k n i die bank : Nat) : Bool :=
  let rd := s.logWord k n 4
  (List.range ((i + 2 ^ 32 - rd) % 2 ^ 32)).all (fun j =>
    let q := (rd + j) % 2 ^ 32
    let e := s.logEnt k n q
    (s.launch k n).used.contains q || e.die != die || e.bank != bank || e.kind == 4)

/-! ### Applying an operation (R345) -/

def BankOp.kind (b : BankOp) : Nat :=
  match b.work with
  | .rmw _ _ _ => if b.ret then 1 else 3
  | .cas _ _ _ => 2
  | .elem _ _ _ _ _ _ => 0
def BankOp.bytes (b : BankOp) : Nat :=
  match b.work with
  | .rmw _ w _ => atomBytes w
  | .cas w _ _ => atomBytes w
  | .elem _ ty _ _ _ _ => bopBytes ty
/-- What an operation costs of its die's budget (R347). -/
def BankOp.cost (b : BankOp) : Nat :=
  match b.work with
  | .elem _ _ _ _ _ step => if step then 1 else 0
  | _ => if keyIsScr b.addr then 0 else 1
/-- Whether the operation at place `n` of the banks may be applied: none that arrived before it waits at its bank, but for those
of a replay, which stand aside until their entries' turn (R412); what its order makes it follow has performed; its lane's
earlier stores to the bytes have performed; a log has room for its entry (R411); the die's budget allows it. -/
def State.mayApply (s : State) (k n : Nat) : Bool :=
  match (s.pkg k).bankQ[n]? with
  | none => false
  | some b =>
    !((s.pkg k).bankQ.take n).any (fun x => x.ent.isNone && keyDie x.addr == keyDie b.addr && keyBank x.addr == keyBank b.addr) &&
    (match b.rel with | some sc => !s.behind b.wid b.id sc.lvl | none => true) &&
    !s.writes.any (fun x => x.level == 0 && x.wid == b.wid && x.id < b.id &&
      ((x.lane == b.lane && x.meets b.addr b.bytes) || sameBank x.addr b.addr)) &&
    (match b.ent with | some i => s.logTurn k b.launch i (keyDie b.addr) (keyBank b.addr) | none => !b.rcd || 0 < s.logRoom k b.launch) &&
    (b.cost = 0 || (s.pkg k).mayStart (paceBank (keyDie b.addr)))
/-- The log's part of an application. -/
def State.logApplied (s : State) (k : Nat) (b : BankOp) : State :=
  if !b.rcd then s
  else match b.ent with
    | some i => s.logConsume k b.launch i
    | none =>
      let t := s.troupe (s.wave b.wid).tid
      s.logPut k b.launch ⟨t.tidx, (s.wave b.wid).wix, b.lane, keyDie b.addr, keyBank b.addr, b.kind, b.lseq, 0⟩
/-- The registers that a lane is owed under a tag. -/
def Lane.owedTo (l : Lane) (tag : Nat) : List Dst := (l.pend.filter (fun (e : Pend) => e.tag == tag)).map (fun (e : Pend) => e.dst)
/-- A value owed to a lane of a wave under a tag becomes known, low word first. -/
def State.fillVal (s : State) (w l tag : Nat) (v : W64) : State :=
  fillTag s w (laneBit l) tag (fun n => ((s.lane w n).owedTo tag).zip [lo32 v, hi32 v])

/-- An atomic that is an acquire has been applied: the wave observes what it has read, and when its last lane's has, the wave's
later accesses go on and the core's cache is empty (R180, R181, R189, R253). -/
def State.acquired (s : State) (k : Nat) (b : BankOp) (sc : Scope) (rels : List (Nat × Nat)) : State :=
  let s1 := s.observe b.wid sc rels
  let s2 := if sc = .core then s1 else s1.emptyLines k b.core
  if (s2.pkg k).bankQ.any (fun x => x.id == b.id && x.lane != b.lane) then s2
  else s2.modWave b.wid (fun v => { v with holdMem := v.holdMem.filter (fun n => n != b.id) })
/-- A bank ALU applies one operation: the location changes, the value goes on its way to its lane, the entry is logged. -/
def State.applyOp (s : State) (k : Nat) (b : BankOp) : State :=
  let rel := if b.rel = some .core then some (podCore k b.core, b.id) else none
  let s1 := match b.work with
    | .rmw o w d =>
      let r := s.update b.addr (atomBytes w) (fun m => atomNew o w m d) rel
      if b.ret then r.2.fillVal b.wid b.lane b.tag r.1 else r.2
    | .cas w d e =>
      let r := s.update b.addr (atomBytes w) (fun m => casNew m (atomTrim w d) (atomTrim w e)) rel
      r.2.fillVal b.wid b.lane b.tag r.1
    | .elem op ty bop x a _ =>
      let n := bopBytes ty
      let s0 := if op < 2 then s else s.settleRange x n
      let xv := if op < 2 then 0 else BitVec.ofNat 64 (leNat (s0.load x n))
      let r := s0.update b.addr n (fun y => bopVal op ty y xv a) none
      r.2.modPkg k (fun p => { p with bops := p.bops.map (fun (q : BopRec) => if q.id = bop then { q with left := q.left - 1 } else q) })
  let s2 := s1.dropCoreLines k b.core b.addr b.bytes
  let s3 := match b.acq with
    | some sc => s2.acquired k b sc (s.relsAt k b.core b.addr b.bytes)
    | none => s2
  (s3.logApplied k b).modPkg k (fun p => p.spend (paceBank (keyDie b.addr)) b.cost)
def execBankAluApply (k n : Nat) (s : State) : Host.Outcome State Fault Refusal :=
  if !s.mayApply k n then .next s
  else match (s.pkg k).bankQ[n]? with
    | none => .next s
    | some b => .next ((s.modPkg k (fun p => { p with bankQ := p.bankQ.eraseIdx n })).applyOp k b)
/-- Every element of a `bop` has performed: its status reaches its lanes (R192). -/
def execBopComplete (k n : Nat) (s : State) : Host.Outcome State Fault Refusal :=
  match (s.pkg k).bops.find? (fun (b : BopRec) => b.id == n) with
  | none => .next s
  | some b =>
    if b.left ≠ 0 then .next s
    else .next (fillTag (s.modPkg k (fun p => { p with bops := p.bops.filter (fun (x : BopRec) => x.id != n) })) b.wid b.lanes b.tag
      (fun _ => outs32 b.d 0))

/-- A write performs at its next level (R248). -/
def execAccessPerform (n : Nat) (s : State) : Host.Outcome State Fault Refusal := .next (s.performNext n)

end Sys2Proof.Machine
end

