-- ==== Sys2Proof/Machine/Fail.lean ====
section
/-! DEFINITION. What befalls a troupe that uncorrectable data or logic reaches (R324, R425). -/

namespace Sys2Proof.Machine

/-- Troupes leave their core: their waves are over and nothing of theirs is left at work (R324). -/
def State.dropTroupes (s : State) (k : Nat) (tids : List Nat) : State :=
  let s1 := { s with
    waves := fall s.waves (fun _ v => if tids.contains v.tid then { v with ended := true, waits := [] } else v),
    troupes := fall s.troupes (fun n t => if tids.contains n then { t with st := .published } else t) }
  s1.modPkg k (fun p => { p with
    cores := fall p.cores (fun _ x => { x with
      grantQ := x.grantQ.filter (fun (g : Nat × Nat) => !(tids.contains (s.wave g.1).tid)),
      mxq := x.mxq.filter (fun (y : MxItem) => !(tids.contains y.tid)),
      detBuf := x.detBuf.filter (fun (d : DetEntry) => !(tids.contains d.tid)) }),
    cmds := p.cmds.filter (fun (x : CmdRec) => !(tids.contains x.tid))
    fab := p.fab.dropTags (fun w => (s.wave w).tid) tids })
/-- An affected troupe whose kernel is idempotent is placed again from its start, with its whole corps and away from the
failed core; otherwise its context stops (R324, R325). -/
def State.eccTroupe (s : State) (tid : Nat) (sub : Byte) : State :=
  let t := s.troupe tid
  if !(t.st == .resident || t.st == .ended) then s
  else if t.hdr.idem then
    let c := fget (⟨t.pkg, clusterOf t.core, t.launch, t.tidx, [tid], 0, 0, false⟩ : Corps) s.corps t.corps
    let tix := c.troupes.map (fun n => (s.troupe n).tidx)
    (s.dropTroupes t.pkg c.troupes).modPkg t.pkg (fun p => p.modLaunch t.launch (fun x => { x with
      redo := x.redo ++ [(c.idx, t.core)],
      quiet := x.quiet ++ ((c.troupes.filter (fun n => (s.troupe n).st == .published)).map (fun n => (s.troupe n).tidx)).filter (fun i => !x.quiet.contains i),
      saved := x.saved.filter (fun n => !c.troupes.contains n),
      deferred := x.deferred.filter (fun (d : DetEntry) => !tix.contains d.tidx) }))
  else
    let f := s.firstLane t.pkg t.ctx
    stopContext s t.pkg t.ctx .eccu sub f.1 f.2
/-- Whether a read meets a poisoned unit (R425). -/
def State.poisoned (s : State) (a n : Nat) : Bool := isPoisoned (s.pkg (keyPkg a)).phys.poison a n

end Sys2Proof.Machine
end

