-- ==== Sys2Proof/Machine/Packet.lean ====
section
/-! DEFINITION. Packets and the queues they wait in (R358, R364, R365): entering a queue, room in it, what a `.pod` release
waits for, and the parts of a vector access whose pages are homed elsewhere (R183, R184). -/

namespace Sys2Proof.Machine

def Packet.init : Packet :=
  { seq := 0, src := 0, dst := 0, via := 0, kind := .store, last := false, dep := false, tok := false, ret := false, addr := 0,
    dept := 0, ownt := 0, tag := 0, lmask := 0, data := 0, vw := 0, w := false, hnd := 0, ents := [], bytes := [], ctx := 0,
    sysm := false, rels := [], wid := 0, again := false, copy := 0, born := 0,
    ord := 0 }
/-- Payload bytes: 32 for each entry of a vector part, 16 for each of a reply to one, or the bytes of a segment (R365, R367). -/
def Packet.payload (p : Packet) : Nat :=
  match p.kind with
  | .reply => 16 * p.ents.length
  | _ => 32 * p.ents.length + p.bytes.length
/-- Flits of a packet: its header, its payload and, with payload, a check flit. -/
def Packet.flits (p : Packet) : Nat :=
  let n := (p.payload + 63) / 64
  if n = 0 then 1 else n + 2
def flitsOf (ps : List Packet) : Nat := (ps.map Packet.flits).sum

/-- Capacities of the queues (R358), in flits. -/
def vqFlits : Nat := 2 ^ 16
def relayFlits : Nat := 2 ^ 15
def sprayFlits : Nat := 2 ^ 18
/-- A packet keeps its space until the next hop has acknowledged it. -/
def Pkg.vqUsed (p : Pkg) (q : Nat) : Nat := flitsOf (p.peer q).vq + flitsOf (p.peer q).unackD
def Pkg.sprayUsed (p : Pkg) : Nat := flitsOf p.fab.spray + (p.fab.peers.map (fun (e : Nat × Peer) => flitsOf e.2.unackS)).sum
/-- A copy on the direct path to a package whose segments have not all entered its queue: what is issued after it waits, so
that the queue keeps issue order (R255, R358). -/
def CmdRec.opens (c : CmdRec) (q : Nat) : Bool :=
  match c.cmd with | .rcopy _ _ _ home _ _ _ _ none => home == q | _ => false
def Pkg.vqRoom (p : Pkg) (q : Nat) (n : Nat) : Bool := p.vqUsed q + n ≤ vqFlits && !p.cmds.any (fun c => c.opens q)

/-- A packet enters the direct queue of its destination; it counts as sent (R364). -/
def Pkg.sendDirect (p : Pkg) (x : Packet) : Pkg :=
  p.modPeer x.dst (fun q => { q with vq := q.vq ++ [{ x with via := x.dst }], sentD := q.sentD + 1 })
/-- A packet enters the spray pool, for one intermediate. -/
def Pkg.sendSpray (p : Pkg) (x : Packet) (via : Nat) : Pkg :=
  let p1 := { p with fab := { p.fab with spray := p.fab.spray ++ [{ x with via := via }] } }
  p1.modPeer x.dst (fun q => { q with sentVia := fput q.sentVia via (fget 0 q.sentVia via + 1) })

/-! ### Relayed packets at their destination (R364, R373) -/

/-- The packets of a source by one route that have arrived and not been applied. -/
def Pkg.waiting (p : Pkg) (src via : Nat) : List Packet :=
  ((p.fab.arrivals.map (fun e => e.2)) ++ (p.fab.holds.map (fun h => h.pkt.toList ++ h.behind)).flatten).filter (fun x => x.src == src && x.via == via)
/-- The relayed-applied count: the operations by one route up to the first that has not been applied, so that it names
exactly which have landed though a held one holds back nothing. -/
def Pkg.relayedCount (p : Pkg) (src via : Nat) : Nat :=
  (p.waiting src via).foldl (fun n x => min n x.ord) (fget 0 (p.peer src).recvRelayed via)
/-- A relayed packet has been applied or discarded; its source is told when the count changes by it. -/
def Pkg.landRelayed (p : Pkg) (x : Packet) : Pkg :=
  let p1 := p.modPeer x.src (fun r => { r with recvRelayed := fput r.recvRelayed x.via (fget 0 r.recvRelayed x.via + 1) })
  if x.ord < p1.relayedCount x.src x.via then p1.modPeer x.src (fun r => { r with dirtyR := (r.dirtyR ++ [x.via]).dedup }) else p1

/-! ### `.pod` releases (R255, R364) -/

/-- What of the package's remote operations has not landed yet, by stream and route. The package's own local stream counts
under its own number. -/
def Pkg.outstanding (p : Pkg) : List (Nat × Nat × Nat) :=
  (p.fab.peers.map (fun (e : Nat × Peer) =>
    (if e.2.appliedD < e.2.sentD then [(e.1, e.1, e.2.sentD)] else []) ++
    (e.2.sentVia.filter (fun (x : Nat × Nat) => fget 0 e.2.doneVia x.1 < x.2)).map (fun (x : Nat × Nat) => (e.1, x.1, x.2)))).flatten
def Cmd.isRcopy : Cmd → Bool | .rcopy _ _ _ _ _ _ _ _ _ => true | _ => false
/-- The wave's copies that have not all been sent. -/
def Pkg.copying (p : Pkg) (w : Nat) : Bool := p.cmds.any (fun (c : CmdRec) => c.wid == w && c.cmd.isRcopy)

/-- The wave takes PAGE for what was discarded, at the release or fence: each lane of the instruction with an address
discarded for it, or the first one (R366). -/
def reportDiscarded (s : State) (m : Mods) : State :=
  let ds := s.curWave.discarded
  let recs := (s.activeLanes m).filterMap (fun l =>
    ((ds.find? (fun d => d.2.2 == l)).or ds.head?).map (fun d => s.stopRec l d.1 2 d.2.1))
  finish (s.modWave s.cur.wid (fun v => { v with discarded := [] })) recs
/-- A release at a scope: at `.pod` it waits for what the wave has sent, and reports what was discarded; at every scope the
wave's earlier accesses have performed there first. -/
def afterRelease (s : State) (m : Mods) (i : Instr) (sc : Scope) (wait : Bool) (go : State → State) : State :=
  if (s.activeLanes m).isEmpty then go s
  else if wait && s.relWait sc then waitAt s i
  else if sc != .pod then go s
  else if (s.pkg s.curPkg).copying s.cur.wid then waitAt s i
  else
    let need := if s.cur.past then [] else (s.pkg s.curPkg).outstanding
    if !need.isEmpty then waitFor s i need
    else if !s.curWave.discarded.isEmpty then reportDiscarded s m
    else go s

/-! ### Parts of vector accesses (R184) -/

/-- The homes that a list of lanes needs, in ascending order. -/
def homesOf (ls : List (Nat × Nat × W64)) : List Nat := sortBy (fun (n : Nat) => n) ((ls.map (fun e => e.2.1)).dedup)
/-- Send one part for each home. `ent` gives a lane's operands. -/
def State.sendParts (s : State) (kind : PKind) (ls : List (Nat × Nat × W64)) (base : Packet) (ent : Nat → BitVec 128 × W64)
    (tagOf : Option TagRec) : State :=
  (homesOf ls).foldl (fun s h =>
    let mine := ls.filter (fun e => e.2.1 == h)
    let mask := maskOf (mine.map (fun e => e.1))
    let key := s.nextId
    let s1 := { s with nextId := s.nextId + 1 }
    let pk := { base with src := s.curPkg, dst := h, kind := kind, lmask := mask, tag := BitVec.ofNat 32 key, ctx := s.curCtx,
                          sysm := s.curWave.sys, wid := s.cur.wid, born := s.nextId,
                          ents := mine.map (fun e => ⟨e.1, e.2.2, (ent e.1).1, (ent e.1).2⟩) }
    let s2 := s1.modPkg s.curPkg (fun p =>
      let p1 := match tagOf with
        | some t => { p with fab := { p.fab with tags := fput p.fab.tags (key % 2 ^ 32) { t with lanes := mask } } }
        | none => p
      p1.sendDirect pk)
    match tagOf with
    | some t => if t.hold then s2.modWave s.cur.wid (fun v => { v with holdMem := v.holdMem ++ [key % 2 ^ 32] }) else s2
    | none => s2) s
/-- Room for the parts: 66 flits hold the largest. -/
def State.partsRoom (s : State) (ls : List (Nat × Nat × W64)) : Bool :=
  (homesOf ls).all (fun h => (s.pkg s.curPkg).vqRoom h ((32 * (ls.filter (fun e => e.2.1 == h)).length + 63) / 64 + 2))
/-- Remote loads that a lane is owed: at most eight (R321). -/
def Lane.owedRemote (l : Lane) : Nat := (((l.pend.filter (fun (e : Pend) => e.remote && !e.got)).map (fun (e : Pend) => e.tag)).dedup).length
def State.steerRoom (s : State) (ls : List Nat) : Bool := ls.all (fun l => (s.lane s.cur.wid l).owedRemote < 8)

end Sys2Proof.Machine
end

