-- ==== Sys2Proof/Machine/MemI.lean ====
section
/-! DEFINITION. Loads, stores, constants and prefetch (R175 to R186). -/

namespace Sys2Proof.Machine

/-- One lane's access as checked (R177). -/
structure LaneAcc where
  lane : Nat
  va : W64
  chk : Checked
  deriving DecidableEq, Repr
def State.laneAccs (s : State) (m : Mods) (sp : Space) (kd : AccKind) (a : Reg) (off : Int) (n : Nat) : List LaneAcc :=
  (s.activeLanes m).map (fun l =>
    let va := s.effAddr l sp a off
    ⟨l, va, s.check s.curTid s.curWave.sys sp kd va n⟩)
/-- The lanes that fault, those whose bytes are on this package, and those homed elsewhere. -/
def accStops (s : State) (xs : List LaneAcc) : List StopRec :=
  xs.filterMap (fun x => match x.chk with | .bad c sub => some (s.stopRec x.lane c sub x.va) | _ => none)
def accHere (xs : List LaneAcc) : List (Nat × Nat) :=
  xs.filterMap (fun x => match x.chk with | .ok (.at_ key _) => some (x.lane, key) | _ => none)
def accLines (xs : List LaneAcc) : List (Nat × Nat) :=
  xs.filterMap (fun x => match x.chk with | .ok (.at_ key true) => some (x.lane, key) | _ => none)
def accFar (xs : List LaneAcc) : List (Nat × Nat × W64) :=
  xs.filterMap (fun x => match x.chk with | .ok (.fwd h) => some (x.lane, h, x.va) | _ => none)

/-- The addresses at which a range is checked: its start, then every page or tile that it enters. -/
def stepsOf (sz : Nat) (va : W64) (n : Nat) : List W64 :=
  va :: (List.range ((va.toNat % sz + n - 1) / sz)).map (fun i => BitVec.ofNat 64 ((va.toNat / sz + 1 + i) * sz))
def pageNo (v : W64) : Nat := v.toNat / 2 ^ 16
/-- A walk for a page, from the die of a core. -/
def Walk.is (r : Walk) (k die : Nat) (ctx : W32) (page : Nat) : Bool := r.pkg == k && r.die == die && r.ctx == ctx && r.page == page
/-- Whether a walk of the issuing wave has answered for a page. -/
def State.answered (s : State) (page : Nat) : Bool :=
  let t := s.curTroupe
  s.walks.any (fun r => r.done && r.wids.contains s.cur.wid && r.is t.pkg (clusterOf t.core) t.ctx page)
/-- Pages of an access that no translation cache holds and that no walk has answered for: its misses (R274, R275). -/
def State.missing (s : State) (vas : List W64) : List Nat :=
  let t := s.curTroupe
  ((vas.filter (fun v => canonicalVa v && !(s.core t.pkg t.core).tlb.any (·.hits t.ctx v) &&
    !(fget [] (s.pkg t.pkg).tlb2 (clusterOf t.core)).any (·.hits t.ctx v) && !s.answered (pageNo v))).map pageNo).dedup
/-- An access waits while a page of it misses. -/
def State.walkWait (s : State) (sp : Space) (vas : List W64) : Bool := sp == .g && !(s.missing vas).isEmpty
def addNew (n : Nat) (l : List Nat) : List Nat := if l.contains n then l else l ++ [n]
/-- A miss of a wave on a core joins the walk or the miss of its page, from any core of the die, or else is the newest miss of
the cluster (R275). -/
def joinWalk (l : List Walk) (k core w : Nat) (ctx : W32) (page : Nat) : List Walk :=
  if l.any (fun r => !r.done && r.is k (clusterOf core) ctx page) then
    l.map (fun r => if !r.done && r.is k (clusterOf core) ctx page then { r with cores := addNew core r.cores, wids := addNew w r.wids } else r)
  else l ++ [⟨k, clusterOf core, ctx, page, [core], [w], false, false⟩]
/-- The misses of an access go to the walker. -/
def State.missed (s : State) (sp : Space) (vas : List W64) : State :=
  if sp = .g then
    { s with walks := (s.missing vas).foldl (fun l n => joinWalk l s.curPkg s.curTroupe.core s.cur.wid s.curCtx n) s.walks }
  else s
/-- The answers that a wave has used for pages, given up. -/
def usedWalks (l : List Walk) (w : Nat) (pages : List Nat) : List Walk :=
  (l.map (fun r => if r.done && pages.contains r.page then { r with wids := r.wids.filter (fun x => x != w) } else r)).filter
    (fun r => !r.done || !r.wids.isEmpty)
/-- The translations an access has used enter the caches. -/
def State.walked (s : State) (sp : Space) (vas : List W64) : State :=
  if sp = .g then
    let s1 := s.fillTlbs s.curPkg s.curTroupe.core s.curCtx vas
    { s1 with walks := usedWalks s.walks s.cur.wid (vas.map pageNo) }
  else s

/-! ### Loads (R179) -/

/-- The destination words of a loaded value. -/
def loadOuts (ty : MemType) (d : Reg) (bs : List Byte) : List (Dst × W32) :=
  let x := leNat bs
  match ty with
  | .s8 => outs32 d ((BitVec.ofNat 8 x).signExtend 32)
  | .z8 => outs32 d (BitVec.ofNat 32 (x % 2 ^ 8))
  | .s16 => outs32 d ((BitVec.ofNat 16 x).signExtend 32)
  | .z16 => outs32 d (BitVec.ofNat 32 (x % 2 ^ 16))
  | .b32 => outs32 d (BitVec.ofNat 32 x)
  | .b64 => outs64 d (BitVec.ofNat 64 x)
  | .b128 => outs128 d (BitVec.ofNat 128 x)
def MemType.isSigned : MemType → Bool | .s8 => true | .s16 => true | _ => false
def vwOf (n : Nat) : Nat := if n = 1 then 0 else if n = 2 then 1 else if n = 4 then 2 else if n = 8 then 3 else 4

/-- What the issuing lane reads of bytes on this package. -/
def State.readHere (s : State) (acq : Option Scope) (cached : Bool) (l a n : Nat) : List Byte :=
  let v := s.viewer s.cur.wid l
  if cached && acq.isNone then s.cachedView v a n else s.laneView v a n
/-- What a load does to the line cache: fills (relaxed), or goes past it; the lines that it has read past at `.core` stay, with
the bytes it has read (R181, R252). -/
def State.loadLines (s : State) (acq : Option Scope) (xs : List LaneAcc) (n : Nat) : State :=
  let t := s.curTroupe
  match acq with
  | none => (accLines xs).foldl (fun s e => s.useLine t.pkg t.core e.2) s
  | some .core => (accHere xs).foldl (fun s e => s.freshLine t.pkg t.core e.2 n) s
  | some _ => s.emptyLines t.pkg t.core

def loadGo (i : Instr) (s : State) (m : Mods) (sp : Space) (ty : MemType) (acq : Option Scope) (d a : Reg) (off : Int) : State :=
  let n := MemType.bytes ty
  let xs := s.laneAccs m sp .load a off n
  let here := accHere xs
  let far := accFar xs
  let vas := xs.map (fun x => x.va)
  if s.walkWait sp vas || here.any (fun e => s.ownBehind e.1 e.2 n) || s.splitRead here n || !s.partsRoom far ||
      !s.steerRoom (far.map (fun e => e.1)) then waitAt (s.missed sp vas) i
  else if here.any (fun e => s.poisoned e.2 n) then s.eccTroupe s.curTid 4
  else
    let id := s.nextId
    let lines := accLines xs
    let s1 := ({ s with nextId := s.nextId + 1 }.walked sp vas).loadLines acq xs n
    let s2 := s1.updLanes s.cur.wid (lanesOf s.cur.lanes) (fun l x =>
      match here.find? (fun e => e.1 == l) with
      | some e => x.send none id (loadOuts ty d (s.readHere acq (lines.any (fun e => e.1 == l)) l e.2 n))
      | none =>
        if far.any (fun e => e.1 == l) then x.owe true id (dstRegs d (MemType.words ty))
        else if !m.active x && m.zero then x.send none id (zeroOuts (dstRegs d (MemType.words ty)))
        else x)
    let s3 := s2.sendParts .vLoad far { Packet.init with vw := vwOf n, ret := true } (fun _ => (0, 0))
      (some ⟨s.cur.wid, 0, d, n, MemType.isSigned ty, id, acq.isSome, acq⟩)
    let s4 := match acq with
      | some sc => s3.observe s.cur.wid sc ((here.map (fun e => s.relsAt s.curPkg s.curTroupe.core e.2 n)).flatten)
      | none => s3
    finish s4 (accStops s xs)

def execLdGB32 (m : Mods) (o : BitVec 7) (d a : Reg) (s : State) : Out :=
  .next (loadGo (.ldGB32 m o d a) s m .g .b32 none d a (m.fmOff o 4))
def execLdGB64 (m : Mods) (o : BitVec 7) (d a : Reg) (s : State) : Out :=
  .next (loadGo (.ldGB64 m o d a) s m .g .b64 none d a (m.fmOff o 8))
def execLdGB128 (m : Mods) (o : BitVec 7) (d a : Reg) (s : State) : Out :=
  .next (loadGo (.ldGB128 m o d a) s m .g .b128 none d a (m.fmOff o 16))
def execLdSB32 (m : Mods) (o : BitVec 7) (d a : Reg) (s : State) : Out :=
  .next (loadGo (.ldSB32 m o d a) s m .s .b32 none d a (m.fmOff o 4))
def execLd (m : Mods) (u : Space) (t : MemType) (r : Bool) (d a : Reg) (s : State) : Out :=
  .next (loadGo (.ld m u t r d a) s m u t (if r then some m.memScope else none) d a m.memOff)

/-! ### Stores -/

/-- The bytes of a lane's source. -/
def State.storeBytes (s : State) (ty : MemType) (l : Nat) (d : Reg) : List Byte :=
  match ty with
  | .b64 => leBytes 8 (s.src64 s.cur.wid l d).toNat
  | .b128 => leBytes 16 (s.src128 s.cur.wid l d).toNat
  | t => leBytes (MemType.bytes t) (s.src s.cur.wid l d).toNat

def storeGo (i : Instr) (s : State) (m : Mods) (sp : Space) (ty : MemType) (rel : Option Scope) (d a : Reg) (off : Int) : State :=
  let n := MemType.bytes ty
  let xs := s.laneAccs m sp .store a off n
  let here := accHere xs
  let far := accFar xs
  let vas := xs.map (fun x => x.va)
  if s.walkWait sp vas || !s.partsRoom far then waitAt (s.missed sp vas) i
  else
    let go := fun (s : State) =>
      let id := s.nextId
      let s1 := { s with nextId := s.nextId + 1 }.walked sp vas
      let s2 := here.foldl (fun s1 e => s1.issueStore id e.1 e.2 (s.storeBytes ty e.1 d) rel) s1
      let gc := podCore s.curPkg s.curTroupe.core
      let s3 := s2.sendParts .vStore far
        { Packet.init with vw := vwOf n, rels := if rel = some .core then [(gc, id)] else [] }
        (fun l => (BitVec.ofNat 128 (leNat (s.storeBytes ty l d)), 0)) none
      let s4 := if sp != .s && !(here.isEmpty && far.isEmpty) then s3.modTroupe s.curTid (fun t => { t with lock := true }) else s3
      finish s4 (accStops s xs)
    match rel with
    | none => go s
    | some sc => afterRelease s m i sc (!far.isEmpty) go

def execStGB32 (m : Mods) (o : BitVec 7) (d a : Reg) (s : State) : Out :=
  .next (storeGo (.stGB32 m o d a) s m .g .b32 none d a (m.fmOff o 4))
def execStGB64 (m : Mods) (o : BitVec 7) (d a : Reg) (s : State) : Out :=
  .next (storeGo (.stGB64 m o d a) s m .g .b64 none d a (m.fmOff o 8))
def execStGB128 (m : Mods) (o : BitVec 7) (d a : Reg) (s : State) : Out :=
  .next (storeGo (.stGB128 m o d a) s m .g .b128 none d a (m.fmOff o 16))
def execStSB32 (m : Mods) (o : BitVec 7) (d a : Reg) (s : State) : Out :=
  .next (storeGo (.stSB32 m o d a) s m .s .b32 none d a (m.fmOff o 4))
def execSt (m : Mods) (u : Space) (t : MemType) (r : Bool) (d a : Reg) (s : State) : Out :=
  .next (storeGo (.st m u t r d a) s m u t (if r then some m.memScope else none) d a m.memOff)

/-! ### Constants and prefetch (R185, R186) -/

def State.konst (s : State) (n : Nat) : W32 := s.curTroupe.kbank.getD n 0
def execLdkLow (m : Mods) (d n : Reg) (s : State) : Out := lane32 s m .owed d (fun _ => s.konst n.toNat)
def execLdkHigh (m : Mods) (d n : Reg) (s : State) : Out := lane32 s m .owed d (fun _ => s.konst (128 + n.toNat))
def execLdkReg (m : Mods) (d a : Reg) (s : State) : Out :=
  lane32 s m .owed d (fun l => s.konst ((s.src s.cur.wid l a).toNat % 256))
/-- The lines of the addresses that pass their checks and lie on this package are brought in. -/
def execPrefG (m : Mods) (a : Reg) (s : State) : Out :=
  let xs := s.laneAccs m .g .load a m.memOff 1
  .next (finish (s.loadLines none xs 1) [])

end Sys2Proof.Machine
end

