-- ==== Sys2Proof/Machine/Atom.lean ====
section
/-! DEFINITION. Atomics (R187 to R190), their buffering in deterministic launches (R403, R405), recording and replay (R410
to R412), and range operations at the banks (R191, R192). -/

namespace Sys2Proof.Machine

/-- The three forms: an `atom`, a `cas`, a `red`. -/
inductive AtomKind | atom | cas | red
  deriving DecidableEq, Repr
def AtomKind.acc : AtomKind → AccKind | .red => .red | _ => .atom
def AtomKind.log : AtomKind → Nat | .atom => 1 | .cas => 2 | .red => 3
def MemOrd.acq (o : MemOrd) : Bool := o == .acq || o == .ar
def MemOrd.rel (o : MemOrd) : Bool := o == .rel || o == .ar
/-- The fixed handler of an operation, for a part to another package (R365). -/
def AtomOp.hnd : AtomOp → Nat
  | .add => 0 | .fadd => 1 | .minS => 2 | .minZ => 3 | .maxS => 4 | .maxZ => 5 | .and => 8 | .or => 9 | .xor => 10
  | .xch => 11 | .inc => 13

/-- A lane's operand, and the new value of a `cas`. -/
def State.atomArg (s : State) (w : Bool) (l : Nat) (d : Reg) : W64 := s.srcN s.cur.wid l (if w then 2 else 1) d
def atomWork (kind : AtomKind) (o : AtomOp) (w : Bool) (d e : W64) : BankWork :=
  match kind with | .cas => .cas w d e | _ => .rmw o w d

/-! ### Recording (R411, R412) -/

/-- How a launch treats its atomics: plain, recording, replaying. -/
inductive LogUse | plain | record | replay
  deriving DecidableEq, Repr
def State.logUse (s : State) : LogUse :=
  if !s.curTroupe.hdr.rcd then .plain
  else if (s.launch s.curPkg s.curTroupe.launch).logMode = 1 then .replay else .record
/-- What the log says of an event of a lane. -/
inductive LogAns | go (ent : Option Nat) | wait | stop (sub : Byte)
  deriving DecidableEq, Repr
/-- `before` lanes of the same instruction have events that come first. With RECPOL = 0 an event waits while the log is full,
those that find it full only when they are applied at their banks (R411, log 116); with RECPOL = 1 it acts if an entry is left
for it after those that are not yet logged. -/
def State.logAsk (s : State) (l die bank kind val before : Nat) : LogAns :=
  let t := s.curTroupe
  match s.logUse with
  | .plain => .go none
  | .record =>
    if t.hdr.recpol then
      (if s.logRoom t.pkg t.launch ≤ (s.pkg t.pkg).unlogged t.launch + before then .stop 2 else .go none)
    else if s.logRoom t.pkg t.launch = 0 then .wait else .go none
  | .replay =>
    match s.logFind t.pkg t.launch t.tidx s.curWave.wix l (s.lane s.cur.wid l).rseq with
    | none => .wait
    | some i =>
      let e := s.logEnt t.pkg t.launch i
      if e.kind = kind ∧ e.die = die ∧ e.bank = bank ∧ (kind ≠ 4 ∨ e.val = val) then .go (some i) else .stop 1
def LogAns.ent : LogAns → Option Nat | .go e => e | _ => none

/-! ### Deterministic buffering (R403, R405) -/

def detRoom (c : Core) : Nat := 4096 - c.detBuf.length
/-- A wait of a wave's lanes is one for buffer room: a buffered `red` whose entries do not all fit. -/
def State.waitsRoom (s : State) (v : Wave) (r : WaitRec) : Bool :=
  let t := s.troupe v.tid
  match r.instr with
  | .redOp m _ _ _ _ => m.syncSpace != .s && detRoom (s.core t.pkg t.core) < ((lanesOf r.lanes).filter (fun l => m.active (v.lane l))).length
  | _ => false
/-- Every live lane of the deterministic troupes on a core waits for room or is parked, those of the issuing path waiting now. -/
def State.detStuck (s : State) (k core : Nat) : Bool :=
  s.waves.all (fun (e : Nat × Wave) =>
    let t := s.troupe e.2.tid
    !(t.pkg == k && t.core == core && t.st == .resident && t.hdr.det && !e.2.ended) ||
    (List.range 32).all (fun l =>
      let x := e.2.lane l
      x.st == .exit || x.st == .barT || x.st == .barC || (match x.st with | .join _ => true | _ => false) ||
      (e.1 == s.cur.wid && s.cur.lanes.getLsbD l) ||
      (x.waiting && e.2.waits.any (fun r => r.lanes.getLsbD l && s.waitsRoom e.2 r))))
def detRed (i : Instr) (s : State) (m : Mods) (o : AtomOp) (w : Bool) (rel : Option Scope) (xs : List LaneAcc) (d : Reg) : State :=
  let t := s.curTroupe
  let ok := xs.filter (fun x => match x.chk with | .ok _ => true | _ => false)
  if detRoom (s.core t.pkg t.core) < ok.length then
    if s.detStuck t.pkg t.core then refuseWith s m .detrange 2 0 else waitAt s i
  else
    let ents := ok.map (fun x => (⟨s.curTid, t.tidx, s.curWave.wix, x.lane, (s.lane s.cur.wid x.lane).lseq, o, w,
      (match x.chk with | .ok (.at_ key _) => key | _ => 0),
      (match x.chk with | .ok (.fwd h) => some (h, x.va) | _ => none),
      s.atomArg w x.lane d, rel, s.nextId, none, false⟩ : DetEntry))
    let s0 := (accHere xs).foldl (fun s e => s.dropCoreLines t.pkg t.core e.2 (atomBytes w)) s
    let s1 := { s0 with nextId := s.nextId + 1 }.modCore t.pkg t.core (fun c => { c with detBuf := c.detBuf ++ ents })
    let s2 := s1.updLanes s.cur.wid (ok.map (fun x => x.lane)) (fun _ x => { x with lseq := x.lseq + 1 })
    let s3 := if ok.isEmpty then s2 else s2.modTroupe s.curTid (fun t => { t with lock := true })
    finish (s3.walked m.syncSpace (xs.map (fun x => x.va))) (accStops s xs)

/-! ### Atomics -/

/-- A bank's earlier operations, which an operation applied at once must follow, and its die's budget. -/
def State.bankBusy (s : State) (a : Nat) : Bool :=
  (s.pkg (keyPkg a)).bankQ.any (fun (b : BankOp) => keyDie b.addr == keyDie a && keyBank b.addr == keyBank a) ||
  !(s.pkg (keyPkg a)).mayStart (paceBank (keyDie a))
/-- A lane's own store to the bytes is still in flight. -/
def State.ownStore (s : State) (l a n : Nat) : Bool :=
  s.writes.any (fun x => x.level == 0 && x.wid == s.cur.wid && x.lane == l && x.meets a n)

/-- The header fields of a vector atomic part (R365). -/
def atomPart (w ret : Bool) (kind : AtomKind) (o : AtomOp) (rels : List (Nat × Nat)) : Packet :=
  { Packet.init with
    vw := if w then 3 else 2
    w := w
    ret := ret
    hnd := if kind = .cas then 12 else AtomOp.hnd o
    rels := rels }

def atomGo (i : Instr) (s : State) (m : Mods) (kind : AtomKind) (o : AtomOp) (w : Bool) (d a : Reg) : State :=
  let sp := m.syncSpace
  let sc := m.syncScope
  let ord := m.syncOrd
  let t := s.curTroupe
  let n := atomBytes w
  let xs := s.laneAccs m sp (AtomKind.acc kind) a m.syncOff n
  let vas := xs.map (fun x => x.va)
  if t.hdr.det && sp != .s && kind != .red then refuse s m .detmode
  else if s.walkWait sp vas then waitAt (s.missed sp vas) i
  else if t.hdr.det && sp != .s then detRed i s m o w (if MemOrd.rel ord then some sc else none) xs d
  else
    let here := accHere xs
    let far := accFar xs
    -- events that the log concerns: those at a bank ALU of this package
    let asks := here.zipIdx.map (fun e => (e.1.1, if sp = .s then LogAns.go none
      else s.logAsk e.1.1 (keyDie e.1.2) (keyBank e.1.2) (AtomKind.log kind) 0 e.2))
    let stops := asks.filterMap (fun e => match e.2 with | .stop sub => some (s.stopRec e.1 .rpdiv sub 0) | _ => none)
    let go := here.filter (fun e => !stops.any (fun r => r.lane == e.1))
    let once := sp == .s
    if asks.any (fun e => e.2 == .wait) || !s.partsRoom far || !s.steerRoom (far.map (fun e => e.1)) then waitAt s i
    else if once && go.any (fun e => s.ownStore e.1 e.2 n || s.ownBehind e.1 e.2 n) then waitAt s i
    else if go.any (fun e => s.poisoned e.2 n) then s.eccTroupe s.curTid 4
    else
      let act := fun (s : State) =>
        let id := s.nextId
        let ret := kind != .red
        let words := if w then 2 else 1
        let logged := sp != .s && s.logUse != .plain
        let ops := go.map (fun e => (⟨id, s.cur.wid, e.1, t.core, t.ctx, t.launch, e.2,
          atomWork kind o w (s.atomArg w e.1 d) (s.atomArg w e.1 (m.eReg.getD 120)), ret, id,
          (if MemOrd.rel ord then some sc else none), (if MemOrd.acq ord && !once then some sc else none),
          (s.lane s.cur.wid e.1).rseq, logged, ((asks.find? (fun x => x.1 == e.1)).bind (fun x => LogAns.ent x.2))⟩ : BankOp))
        let rels := if MemOrd.acq ord && once then (go.map (fun e => s.relsAt t.pkg t.core e.2 n)).flatten else []
        let s1 := { s with nextId := s.nextId + 1 }.walked sp vas
        let s2 := if ret then s1.updLanes s.cur.wid (lanesOf s.cur.lanes) (fun l x =>
            if go.any (fun e => e.1 == l) then x.owe false id (dstRegs d words)
            else if far.any (fun e => e.1 == l) then x.owe true id (dstRegs d words)
            else if !m.active x && m.zero then x.send none id (zeroOuts (dstRegs d words))
            else x) else s1
        let s3 := if logged then s2.updLanes s.cur.wid (go.map (fun e => e.1)) (fun _ x => { x with rseq := x.rseq + 1 }) else s2
        let s4 := go.foldl (fun s e => s.dropCoreLines t.pkg t.core e.2 n) s3
        let s5 := if once then ops.foldl (fun s b => s.applyOp t.pkg b) s4
          else (s4.modPkg t.pkg (fun p => { p with bankQ := p.bankQ ++ ops })).modWave s.cur.wid (fun v =>
            if MemOrd.acq ord && !ops.isEmpty then { v with holdMem := v.holdMem ++ [id] } else v)
        let s6 := s5.sendParts .vAtomic far
          (atomPart w ret kind o (if MemOrd.rel ord && sc == .core then [(podCore t.pkg t.core, id)] else []))
          (fun l => ((s.atomArg w l d).setWidth 128, s.atomArg w l (m.eReg.getD 120)))
          (if ret then some ⟨s.cur.wid, 0, d, n, false, id, MemOrd.acq ord, if MemOrd.acq ord then some sc else none⟩ else none)
        let s7 := if MemOrd.acq ord then (s6.acquireLines sc).observe s.cur.wid sc rels else s6
        let s8 := if kind == .red && sp != .s && !(go.isEmpty && far.isEmpty) then s7.modTroupe s.curTid (fun t => { t with lock := true }) else s7
        finish s8 (accStops s xs ++ stops)
      if MemOrd.rel ord then afterRelease s m i sc (once || !far.isEmpty) act else act s

def execAtom (m : Mods) (o : AtomOp) (w : Bool) (d a : Reg) (s : State) : Out :=
  .next (atomGo (.atom m o w d a) s m .atom o w d a)
def execCas (m : Mods) (w : Bool) (d a : Reg) (s : State) : Out :=
  .next (atomGo (.cas m w d a) s m .cas .xch w d a)
def execRedOp (m : Mods) (o : AtomOp) (w : Bool) (d a : Reg) (s : State) : Out :=
  .next (atomGo (.redOp m o w d a) s m .red o w d a)

/-! ### `bop` (R191, R192) -/

/-- The block of a `bop`, checked: operation, type, space, count, addresses, scalar. -/
structure BopBlock where
  op : Nat
  ty : Nat
  sp : Space
  n : Nat
  y : W64
  x : W64
  a : W64
  deriving DecidableEq, Repr
def bopBlock (b : List W32) : Option BopBlock :=
  let op := bf b 0 3 0
  let ty := bf b 0 5 4
  let sp := bf b 0 9 8
  let n := (bw b 1).toNat
  if bf b 0 31 10 ≠ 0 ∨ bf b 0 7 6 ≠ 0 ∨ 3 < op ∨ ty = 3 ∨ sp = 1 ∨ sp = 3 ∨ n = 0 ∨ 2 ^ 24 < n then none
  else if sp = 2 ∧ (bw b 3 ≠ 0 ∨ bw b 5 ≠ 0) then none
  else if op < 2 ∧ bd b 4 ≠ 0 then none
  else if ty ≠ 1 ∧ bw b 7 ≠ 0 then none
  else some ⟨op, ty, if sp = 0 then .g else .b, n, bd b 2, bd b 4, bd b 6⟩
/-- One element's checks: on this package, or PROT. -/
def State.bopCheck (s : State) (sp : Space) (kd : AccKind) (a : W64) (n : Nat) : Checked :=
  match s.check s.curTid s.curWave.sys sp kd a n with
  | .ok (.fwd _) => .bad .prot 0
  | c => c
def elemVa (sp : Space) (a : W64) (i n : Nat) : W64 :=
  match sp with
  | .g => a + BitVec.ofNat 64 (i * n)
  | _ => (lo32 a + BitVec.ofNat 32 (i * n)).setWidth 64
/-- The first element that fails a check, with its address. -/
def State.bopFault (s : State) (b : BopBlock) : Option (Cause × Byte × W64) :=
  let n := bopBytes b.ty
  (List.range b.n).findSome? (fun i =>
    let va := elemVa b.sp b.y i n
    match s.bopCheck b.sp .red va n with
    | .bad c sub => some (c, sub, va)
    | .ok _ =>
      if b.op < 2 then none
      else
        let vx := elemVa b.sp b.x i n
        match s.bopCheck b.sp .load vx n with
        | .bad c sub => some (c, sub, vx)
        | .ok _ => none)
def checkedKey : Checked → Nat | .ok (.at_ key _) => key | _ => 0
def State.bopKey (s : State) (sp : Space) (kd : AccKind) (a : W64) (n : Nat) : Nat := checkedKey (s.bopCheck sp kd a n)
/-- An address in each page that a `bop` reads or writes. -/
def bopPages (b : BopBlock) : List W64 :=
  let n := b.n * bopBytes b.ty
  stepsOf (2 ^ 16) b.y n ++ (if b.op < 2 then [] else stepsOf (2 ^ 16) b.x n)
def bopGo (s : State) (m : Mods) (d : Reg) (b : BopBlock) : State :=
  let t := s.curTroupe
  let n := bopBytes b.ty
  let id := s.nextId
  let keys := (List.range b.n).map (fun i => (s.bopKey b.sp .red (elemVa b.sp b.y i n) n,
    if b.op < 2 then 0 else s.bopKey b.sp .load (elemVa b.sp b.x i n) n))
  if keys.any (fun e => (b.op != 0 && s.poisoned e.1 n) || (2 ≤ b.op && s.poisoned e.2 n)) then s.eccTroupe s.curTid 4
  else
    let ops := keys.map (fun e => (⟨id, s.cur.wid, 32, t.core, t.ctx, t.launch, e.1,
      .elem b.op b.ty id e.2 b.a (e.1 % 16 == 0 || keys.head? == some e), false, id, none, none, 0, false, none⟩ : BankOp))
    let r := oweAll ({ s with nextId := s.nextId + 1 }.walked b.sp (bopPages b)) m false d 1
    let s1 := r.1.modPkg t.pkg (fun p => { p with
      bankQ := p.bankQ ++ ops, bops := p.bops ++ [⟨id, s.cur.wid, maskOf (s.activeLanes m), d, b.n, r.2⟩] })
    finish ((s1.emptyLines t.pkg t.core).modTroupe s.curTid (fun t => { t with lock := true })) []
def execBop (m : Mods) (d a : Reg) (s : State) : Out :=
  match s.elected m with
  | none => .next (finish s [])
  | some e =>
    match bopBlock (s.block e a 8) with
    | none => .next (refuse s m .param)
    | some b =>
      match s.bopFault b with
      | some f => .next (faultElected s m f.1 f.2.1 f.2.2)
      | none =>
        .next (if s.walkWait b.sp (bopPages b) then waitAt (s.missed b.sp (bopPages b)) (.bop m d a) else bopGo s m d b)

end Sys2Proof.Machine
end

