-- ==== Sys2Proof/Machine/Sync.lean ====
section
/-! DEFINITION. Split-phase fences (R193, R194), owner bits (R195, R196), rings (R197, R198) and byte barriers (R199,
R200). -/

namespace Sys2Proof.Machine

/-! ### Fences -/

def scopeNum : Scope → Nat | .core => 0 | .clu => 1 | .pkg => 2 | .pod => 3
/-- Whether everything a fence covers has performed at its scope. -/
def State.fenceDone (s : State) (w : Nat) (f : Fence) : Bool :=
  !s.behind w f.writeId f.scope.lvl &&
  (f.scope != .pod || (f.toks.isEmpty && (s.pkg (s.troupe (s.wave w).tid).pkg).landed f.remote))
/-- `fnc.iss` (R193): a ninth outstanding fence waits for the oldest. -/
def execFncIss (m : Mods) (d : Reg) (n : Scope) (s : State) : Out :=
  if (s.activeLanes m).isEmpty then .next (finish s [])
  else if 8 ≤ s.curWave.fences.length then .next (waitAt s (.fncIss m d n))
  else
    let q := s.curWave.fseq + 1
    let f : Fence := ⟨q, n, s.nextId, 0, if n = .pod then (s.pkg s.curPkg).outstanding else [],
      if n = .pod then ((s.pkg s.curPkg).cmds.filter (fun (c : CmdRec) => c.wid == s.cur.wid && c.cmd.isRcopy)).map (fun (c : CmdRec) => c.id) else []⟩
    let s1 := s.modWave s.cur.wid (fun v => { v with fseq := q, fences := v.fences ++ [f] })
    .next (finish (sendAll s1 m .owed d 1 (outs32 d (BitVec.ofNat 32 (scopeNum n * 2 ^ 30 + q.toNat)))) [])
/-- `fnc.wt` (R194). -/
def execFncWt (m : Mods) (a : Reg) (s : State) : Out :=
  match s.elected m with
  | none => .next (finish s [])
  | some e =>
    let t := s.src s.cur.wid e a
    let q := t.setWidth 24
    let sc := scopeOf (nbits t.toNat 31 30)
    let ahead := (q - s.curWave.fseq).toNat
    if nbits t.toNat 29 24 ≠ 0 ∨ (1 ≤ ahead ∧ ahead < 2 ^ 23) then .next (refuse s m .token)
    else if s.curWave.fences.any (fun f => f.seq == q) then .next (waitAt s (.fncWt m a))
    else if sc = .pod ∧ !s.curWave.discarded.isEmpty then .next (reportDiscarded s m)
    else .next (finish (s.acquireLines sc) [])
/-- A fence has performed: it is outstanding no more. -/
def execFencePerformed (w : Nat) (q : BitVec 24) (s : State) : Out :=
  .next (s.modWave w (fun v => { v with fences := v.fences.filter (fun f => !(f.seq == q && s.fenceDone w f)) }))

/-! ### Owner bits -/

/-- The tile that an address names, of the issuing troupe on its own core. -/
def State.ownTile (s : State) (a : W32) : Option TileRef :=
  match s.tileOf s.curTid a with
  | some r => if r.tid = s.curTid then some r else none
  | none => none
def TileRef.base (k : Nat) (r : TileRef) : Nat := scrKey k r.core r.tile 0
/-- An accepted engine command names the tile (R195). -/
def State.tileNamed (s : State) (k : Nat) (r : TileRef) : Bool :=
  (s.pkg k).cmds.any (fun (c : CmdRec) => c.srcs.contains (r.base k) || c.dsts.contains (r.base k)) ||
  (s.core k r.core).mxq.any (fun (y : MxItem) => y.tiles.contains (r.base k))
/-- A store to the tile is still in flight. -/
def State.tileInFlight (s : State) (k : Nat) (r : TileRef) : Bool := s.writes.any (fun x => x.meets (r.base k) 4096)
/-- Flip the tiles that lanes name: faults of those that name none, or one that has the owner already. -/
def flipOwner (i : Instr) (s : State) (m : Mods) (a : Reg) (give : Bool) : State :=
  let k := s.curPkg
  let named := (s.activeLanes m).map (fun l => (l, s.ownTile (s.src s.cur.wid l a)))
  let stops := named.filterMap (fun e => match e.2 with
    | none => some (s.stopRec e.1 .prot 0 ((s.src s.cur.wid e.1 a).setWidth 64))
    | some r => if s.engOwned k r == give then some (s.stopRec e.1 .own 0 ((s.src s.cur.wid e.1 a).setWidth 64)) else none)
  let good := (named.filterMap (fun e => match e.2 with
    | some r => if s.engOwned k r == give then none else some r
    | none => none)).dedup
  if good.any (fun r => if give then s.tileInFlight k r else s.tileNamed k r) then waitAt s i
  else finish (good.foldl (fun s r => s.setOwner k r give) s) stops
def execOwnGive (m : Mods) (a : Reg) (s : State) : Out := .next (flipOwner (.ownGive m a) s m a true)
def execOwnTake (m : Mods) (a : Reg) (s : State) : Out := .next (flipOwner (.ownTake m a) s m a false)
def execOwnTest (m : Mods) (d a : Reg) (s : State) : Out :=
  let k := s.curPkg
  let id := s.nextId
  let stops := (s.activeLanes m).filterMap (fun l => match s.ownTile (s.src s.cur.wid l a) with
    | none => some (s.stopRec l .prot 0 ((s.src s.cur.wid l a).setWidth 64))
    | some _ => none)
  let s1 := ({ s with nextId := s.nextId + 1 }).updLanes s.cur.wid (lanesOf s.cur.lanes) (fun l x =>
    if m.active x then match s.ownTile (s.src s.cur.wid l a) with
      | some r => x.send none id (outs32 d (BitVec.ofNat 32 ((s.engOwned k r).toNat + 2 * (s.tileNamed k r).toNat)))
      | none => x
    else if m.zero then x.send none id (zeroOuts (dstRegs d 1)) else x)
  .next (finish s1 stops)

/-! ### Headers of rings and barriers (R198) -/

/-- Where the header an elected lane names stands, or the fault. -/
inductive Head
  | bad (c : Cause) (sub : Byte)
  | at_ (r : TileRef) (key : Nat)
  deriving DecidableEq, Repr
def State.head (s : State) (a : W32) : Head :=
  match s.checkS s.curTid a 16 with
  | .bad c sub => .bad c sub
  | .ok _ => match s.ownTile a with
    | some r => .at_ r (r.key s.curPkg a)
    | none => .bad .prot 0
def State.word (s : State) (key : Nat) : W32 := BitVec.ofNat 32 (leNat (s.load key 4))
def State.setWord (s : State) (key : Nat) (v : W32) : State := s.storeAt key (leBytes 4 v.toNat)

structure RingHdr where
  kind : Nat
  tps : Nat
  nslot : Nat
  base : Nat
  wr : Nat
  rd : Nat
  free : Nat
  filled : Nat
  home : W32
  cidx : Nat
  held : Nat
  deriving DecidableEq, Repr
/-- A ring header, or none where it holds a reserved value (R197). -/
def State.ring (s : State) (key : Nat) : Option RingHdr :=
  let w0 := (s.word key).toNat
  let w1 := (s.word (key + 4)).toNat
  let w2 := s.word (key + 8)
  let w3 := (s.word (key + 12)).toNat
  let kind := nbits w0 17 16
  let slott := nbits w0 15 14
  let nslot := nbits w0 13 8
  if nbits w0 31 18 ≠ 0 ∨ kind = 3 ∨ slott = 3 ∨ nslot = 0 ∨ 32 < nslot ∨ nbits w3 31 12 ≠ 0 ∨
     (kind = 1 ∧ nbits w2.toNat 31 16 ≠ 0) then none
  else some ⟨kind, 2 ^ slott, nslot, nbits w0 7 0, nbits w1 31 24, nbits w1 23 16, nbits w1 15 8, nbits w1 7 0, w2,
             nbits w3 11 8, nbits w3 7 0⟩
/-- Write the counters of a header back. -/
def State.setRing (s : State) (key : Nat) (h : RingHdr) : State :=
  (s.setWord (key + 4) (BitVec.ofNat 32 (h.wr % 256 * 2 ^ 24 + h.rd % 256 * 2 ^ 16 + h.free % 256 * 2 ^ 8 + h.filled % 256))).setWord
    (key + 12) (BitVec.ofNat 32 (h.cidx % 16 * 2 ^ 8 + h.held % 256))
/-- The tiles of a slot, of the troupe whose core holds the ring. -/
def State.slotTiles (s : State) (tid : Nat) (h : RingHdr) (slot : Nat) : List TileRef :=
  (List.range h.tps).filterMap (fun i => ((s.troupe tid).tiles[h.base + slot * h.tps + i]?).map (fun p => ⟨tid, (s.troupe tid).core, p⟩))
def slotFull (h : RingHdr) (ts : List TileRef) : Bool := ts.length == h.tps
def State.setOwners (s : State) (k : Nat) (ts : List TileRef) (eng : Bool) : State := ts.foldl (fun s r => s.setOwner k r eng) s
/-- The `.s` address of a tile of a rank. -/
def slotAddr (rank : Nat) (h : RingHdr) (slot : Nat) : W32 := BitVec.ofNat 32 (rank * 2 ^ 20 + (h.base + slot * h.tps) * 2 ^ 12)
/-- The header that a ring-filling command waits on, as its key. -/
def State.cmdRing (s : State) (c : CmdRec) : Option Nat :=
  match c.cmd with
  | .copy _ _ true _ dst _ _ => (s.tileOf c.tid (lo32 dst)).map (fun r => r.key (s.troupe c.tid).pkg (lo32 dst))
  | .mcast _ home _ _ => (s.tileOf c.tid home).map (fun r => r.key (s.troupe c.tid).pkg home)
  | _ => none
/-- Commands set aside on a full ring are checked again (R344). -/
def State.recheckRing (s : State) (k key : Nat) : State :=
  s.modPkg k (fun p => { p with cmds := p.cmds.map (fun (c : CmdRec) => if s.cmdRing c = some key then { c with aside := false } else c) })

/-- An elected ring instruction: its header is found, checked and handed on. -/
def onRing (i : Instr) (s : State) (m : Mods) (a : Reg) (kinds : List Nat) (none_ : State → State)
    (go : TileRef → Nat → RingHdr → State) : State :=
  match s.elected m with
  | none => none_ s
  | some e =>
    let va := s.src s.cur.wid e a
    match s.head va with
    | .bad c sub => faultElected s m c sub (va.setWidth 64)
    | .at_ r key =>
      if s.ownStore e key 16 then waitAt s i
      else match s.ring key with
        | none => refuse s m .ring
        | some h => if kinds.contains h.kind then go r key h else refuse s m .ring
def execRngWait (m : Mods) (d a : Reg) (s : State) : Out :=
  .next (onRing (.rngWait m d a) s m a [0, 2] (fun s => finish s []) (fun _ key h =>
    let ts := s.slotTiles s.curTid h h.rd
    if h.filled = 0 then waitAt s (.rngWait m d a)
    else if !slotFull h ts then refuse s m .ring
    else
      let s1 := s.setRing key { h with filled := h.filled - 1, rd := (h.rd + 1) % h.nslot, held := h.held + 1 }
      finish (sendAll (s1.setOwners s.curPkg ts false) m .owed d 1 (outs32 d (slotAddr s.curTroupe.crk h h.rd))) []))
/-- The slot claimed longest ago: (RD − HELD) mod NSLOT. -/
def RingHdr.oldest (h : RingHdr) : Nat := ((h.rd : Int) - h.held).emod h.nslot |>.toNat
def execRngRel (m : Mods) (a : Reg) (s : State) : Out :=
  .next (onRing (.rngRel m a) s m a [0] (fun s => finish s []) (fun _ key h =>
    let ts := s.slotTiles s.curTid h h.oldest
    if h.held = 0 ∨ !slotFull h ts then refuse s m .ring
    else if s.relWait .core || ts.any (fun r => s.tileInFlight s.curPkg r) then waitAt s (.rngRel m a)
    else
      let s1 := s.setRing key { h with held := h.held - 1, free := h.free + 1 }
      finish ((s1.setOwners s.curPkg ts true).recheckRing s.curPkg key) []))
def execMrgFree (m : Mods) (a : Reg) (s : State) : Out :=
  .next (onRing (.mrgFree m a) s m a [2] (fun s => finish s []) (fun _ key h =>
    let ts := s.slotTiles s.curTid h h.oldest
    let slot := h.oldest
    if h.held = 0 ∨ !slotFull h ts then refuse s m .ring
    else match s.checkS s.curTid h.home 16, s.tileOf s.curTid h.home with
      | .bad c sub, _ => faultElected s m c sub (h.home.setWidth 64)
      | _, none => faultElected s m .prot 0 (h.home.setWidth 64)
      | _, some hr =>
        let hk := hr.key s.curPkg h.home
        match s.ring hk with
        | none => refuse s m .ring
        | some hh =>
          if hh.kind ≠ 1 then refuse s m .ring
          else if s.relWait .clu || ts.any (fun r => s.tileInFlight s.curPkg r) then waitAt s (.mrgFree m a)
          else
            let pend := s.word (hk + 16 + 4 * slot) &&& ~~~ (1#32 <<< h.cidx)
            let s1 := (s.setRing key { h with held := h.held - 1 }).setWord (hk + 16 + 4 * slot) pend
            let s2 := if pend.setWidth 16 = 0#16 then s1.setRing hk { hh with free := hh.free + 1 } else s1
            finish ((s2.setOwners s.curPkg ts true).recheckRing s.curPkg hk) []))

/-! ### Byte barriers (R199, R200) -/

structure ByteBar where
  arr : W32
  exp : W32
  trapen : Bool
  ovr : Bool
  posted : Bool
  phase : Bool
  deriving DecidableEq, Repr
def State.byteBar (s : State) (key : Nat) : Option ByteBar :=
  let f := s.word (key + 8)
  if nbits f.toNat 31 4 ≠ 0 ∨ s.word (key + 12) ≠ 0 then none
  else some ⟨s.word key, s.word (key + 4), f.getLsbD 3, f.getLsbD 2, f.getLsbD 1, f.getLsbD 0⟩
def State.setByteBar (s : State) (key : Nat) (b : ByteBar) : State :=
  ((s.setWord key b.arr).setWord (key + 4) b.exp).setWord (key + 8)
    (BitVec.ofNat 32 (b.phase.toNat + 2 * b.posted.toNat + 4 * b.ovr.toNat + 8 * b.trapen.toNat))
/-- The completion check. -/
def ByteBar.check (b : ByteBar) : ByteBar × Bool :=
  if b.posted && b.exp.toNat ≤ b.arr.toNat then
    let excess := b.arr - b.exp
    ({ b with ovr := b.ovr || excess != 0, arr := excess, exp := 0, posted := false, phase := !b.phase }, true)
  else (b, false)
/-- An overrun that traps every post and wait on the barrier. -/
def ByteBar.overrun (b : ByteBar) : Bool := b.trapen && b.ovr
/-- The paths that wait in `bb.wt` on a barrier: their waves and what they wait with. -/
def State.barWaiters (s : State) (key : Nat) : List (Nat × WaitRec × Mods) :=
  (s.waves.map (fun (e : Nat × Wave) => e.2.waits.filterMap (fun r =>
    match r.instr with
    | .bbWt m a =>
      match ((lanesOf r.lanes).filter (fun l => m.active (e.2.lane l))).head? with
      | some l =>
        let va := s.src e.1 l a
        (match s.tileOf e.2.tid va with
         | some t => if t.key (s.troupe e.2.tid).pkg va = key then some (e.1, r, m) else none
         | none => none)
      | none => none
    | _ => none))).flatten
/-- The end of a wait whose instruction has nothing more to do: the lanes go on after it, or their chained group acts. -/
def State.releaseWait (s : State) (w : Nat) (r : WaitRec) : State :=
  if r.grouped then s.modWave w (fun v => { v with waits := v.waits.map (fun x => if x = r then { x with isOver := true } else x) })
  else s.modWave w (fun v => (v.unwait r.lanes).upd (lanesOf r.lanes) (fun _ l => { l with pc := r.npc, readyAt := s.clockOf w + 1 + r.stall }))
/-- Every path waiting on the barrier is released. -/
def State.releaseBar (s : State) (key : Nat) : State :=
  (s.barWaiters key).foldl (fun s e => s.releaseWait e.1 e.2.1) s
/-- Bytes arrive at a barrier. -/
def State.arrive (s : State) (key : Nat) (n : W32) : State :=
  match s.byteBar key with
  | none => s.setWord key (s.word key + n)
  | some b =>
    let r := ByteBar.check { b with arr := b.arr + n }
    let s1 := s.setByteBar key r.1
    if r.2 then s1.releaseBar key else s1
/-- An elected barrier instruction. -/
def onBar (i : Instr) (s : State) (m : Mods) (a : Reg) (go : Nat → Nat → State) : State :=
  match s.elected m with
  | none => finish s []
  | some e =>
    let va := s.src s.cur.wid e a
    match s.head va with
    | .bad c sub => faultElected s m c sub (va.setWidth 64)
    | .at_ _ key => if s.ownStore e key 16 then waitAt s i else go e key
/-- The overrun's trap, taken at the instruction before it acts. -/
def barTrap (s : State) (m : Mods) : State :=
  finish s ((s.activeLanes m).map (fun l => ⟨l, .trap, 0, 0x80, 0, true, s.cur.memb, s.cur.pc⟩))
def execBbInit (m : Mods) (d a : Reg) (s : State) : Out :=
  .next (onBar (.bbInit m d a) s m a (fun e key =>
    let v := s.src s.cur.wid e d
    if v >>> 1 ≠ 0 then refuse s m .param
    else finish ((s.setByteBar key ⟨0, 0, v.getLsbD 0, false, false, false⟩).setWord (key + 12) 0) []))
def execBbExp (m : Mods) (d a : Reg) (s : State) : Out :=
  .next (onBar (.bbExp m d a) s m a (fun e key =>
    match s.byteBar key with
    | none => refuse s m .param
    | some b =>
      if b.overrun then barTrap s m
      else if b.posted then refuse s m .bbseq
      else
        let r := ByteBar.check { b with exp := s.src s.cur.wid e d, posted := true }
        finish (s.setByteBar key r.1) []))
def execBbArv (m : Mods) (d a : Reg) (s : State) : Out :=
  .next (onBar (.bbArv m d a) s m a (fun e key =>
    match s.byteBar key with
    | none => refuse s m .param
    | some _ =>
      if s.relWait .core then waitAt s (.bbArv m d a)
      else finish (s.arrive key (s.src s.cur.wid e d)) []))
def execBbWt (m : Mods) (a : Reg) (s : State) : Out :=
  .next (onBar (.bbWt m a) s m a (fun _ key =>
    match s.byteBar key with
    | none => refuse s m .param
    | some b =>
      if b.overrun && !s.cur.past then barTrap s m
      else if b.posted && !s.cur.past then waitAt s (.bbWt m a)
      else finish s []))

end Sys2Proof.Machine
end

