-- ==== Sys2Proof/Machine/Vm.lean ====
section
/-! DEFINITION. Virtual memory (R237, R238, R273, R277 to R282): committing and freeing pages of sparse regions, frame pools,
permissions, read-duplication and collapse, splitting, invalidation; the device heap (R201 to R203). -/

namespace Sys2Proof.Machine

/-! ### Frames (R279) -/

/-- Zero a range of memory (R279, R263). -/
def State.zeroRange (s : State) (a n : Nat) : State :=
  let s1 := { s with mem := s.mem.filter (fun (e : Nat × Byte) => !(a ≤ e.1 && e.1 < a + n)),
                     relAt := s.relAt.filter (fun (e : Nat × List (Nat × Nat)) => !(a ≤ e.1 && e.1 < a + n)) }
  s1.modPkg (keyPkg a) (fun p => { p with phys := { p.phys with poison := unpoison p.phys.poison a n } })
/-- The stacks in the order in which a commit by a core of a die tries them. -/
def stackOrder (die turn : Nat) : List Nat :=
  [2 * die + turn % 2, 2 * die + (turn + 1) % 2] ++ (List.range 8).filter (fun k => k / 2 != die)
def Pkg.stackPool (p : Pkg) (st : Nat) : List Nat := fget [] p.phys.pool st
def Pkg.setPool (p : Pkg) (st : Nat) (l : List Nat) : Pkg := { p with phys := { p.phys with pool := fput p.phys.pool st l } }
/-- A run of 32 free frames of one stack that forms an aligned 2 MiB. -/
def runOf (l : List Nat) : Option Nat := l.find? (fun f => f % 32 == 0 && (List.range 32).all (fun i => l.contains (f + i)))
/-- Take one frame, or an aligned run of 32. -/
def Pkg.takeFrame (p : Pkg) (die n : Nat) : Option (Nat × Pkg) :=
  (stackOrder die (fget 0 p.phys.poolTurn die)).findSome? (fun st =>
    let l := p.stackPool st
    let f := if n = 1 then l.head? else runOf l
    f.map (fun f => (f, p.setPool st (l.filter (fun g => !(f ≤ g && g < f + n))))))
/-- A commit has taken a frame: the next one by the die's cores tries the other of its two stacks first. -/
def Pkg.turnPool (p : Pkg) (die f : Nat) : Pkg :=
  let st := f * 2 ^ 16 / 2 ^ 36
  if st / 2 = die then { p with phys := { p.phys with poolTurn := fput p.phys.poolTurn die (st % 2 + 1) } } else p
/-- Frames return to the list of their own stack. -/
def Pkg.giveFrames (p : Pkg) (f n : Nat) : Pkg :=
  let st := f * 2 ^ 16 / 2 ^ 36
  p.setPool st (p.stackPool st ++ ((List.range n).map (fun i => f + i)).filter (fun g => !p.phys.withdrawn.contains g))
def frameKey (k f : Nat) : Nat := hbmKey k (f * 2 ^ 16 % 2 ^ 39)
def pteFrame (e : W64) : Nat := pteAddr e % 2 ^ 23

/-! ### Regions (R278) -/

structure Region where
  idx : Nat
  base : Nat
  pages : Nat
  home : Nat
  quota : Nat
  used : Nat
  deriving DecidableEq, Repr
def State.region (s : State) (k : Nat) (ctx : W32) (i : Nat) : Region :=
  let a := match flook (s.pkg k).ctxs ctx.toNat with | some c => hbmKey k (c.regions.toNat + 32 * i) | none => 0
  let rd := fun (o n : Nat) => leNat (s.load (a + o) n)
  ⟨i, rd 0 8, rd 8 4, rd 12 4 % 128, rd 16 4, rd 20 4⟩
def Region.holds (r : Region) (va : W64) : Bool := r.base ≤ va.toNat && va.toNat < r.base + r.pages * 2 ^ 16
/-- The region homed on a package that holds an address. -/
def State.regionOf (s : State) (k : Nat) (ctx : W32) (va : W64) : Option Region :=
  if (flook (s.pkg k).ctxs ctx.toNat).isNone then none
  else ((List.range 256).map (fun i => s.region k ctx i)).find? (fun r => r.holds va && r.home == k)
def State.setUsed (s : State) (k : Nat) (ctx : W32) (i v : Nat) : State :=
  match flook (s.pkg k).ctxs ctx.toNat with
  | some c => s.storeAt (hbmKey k (c.regions.toNat + 32 * i + 20)) (leBytes 4 v)
  | none => s

/-! ### Leaves -/

/-- A leaf as the tables hold it, usable or in another state: only V, LEAF and its level are asked. -/
def State.rawLeaf (s : State) (k : Nat) (ctx : W32) (va : W64) : Option Walked :=
  if !canonicalVa va then none
  else match walk s k ctx va with
    | some w => if w.leaf?.isSome then some w else none
    | none => none
def State.setLeaf (s : State) (k : Nat) (ctx : W32) (va : W64) (v : W64) : State :=
  match s.rawLeaf k ctx va with
  | some w => s.storeAt (hbmKey k w.pa) (leBytes 8 v.toNat)
  | none => s
def pageBase (va : W64) (size : Nat) : W64 := BitVec.ofNat 64 (va.toNat / size * size)
/-- A forwarding leaf to a home, with another leaf's permissions (R272). -/
def fwdLeaf (old : W64) (home : Nat) : W64 := mkLeaf (old &&& ~~~ 0x400#64) 2 home 0 0
/-- The packages of the pod that know a context. -/
def State.ctxPkgs (s : State) (ctx : W32) : List Nat :=
  (s.pkgs.filter (fun (e : Nat × Pkg) => (flook e.2.ctxs ctx.toNat).isSome)).map (fun (e : Nat × Pkg) => e.1)

/-! ### Invalidation (R277) -/

/-- The notice that asks a package to drop a page's translations. -/
def invNotice (va : W64) (size : Nat) : Notice :=
  ⟨.invalidate, 0, 0, va &&& ~~~ 0xFFFF#64 ||| (if size = 2 ^ 16 then 0 else if size = 2 ^ 21 then 1 else 2)⟩
def invSize (n : Notice) : Nat := if n.arg.toNat % 8 = 0 then 2 ^ 16 else if n.arg.toNat % 8 = 1 then 2 ^ 21 else 2 ^ 30
/-- Invalidate a page within the package at once, and ask every other package to. -/
def State.invalidatePod (s : State) (k : Nat) (ctx : W32) (va : W64) (size : Nat) : State :=
  s.modPkg k (fun p =>
    let p1 := p.invalidate ctx va.toNat size
    ((List.range p.podsize).filter (fun q => q != k)).foldl (fun p q =>
      p.modPeer q (fun x => { x with notices := x.notices ++ [invNotice va size] })) p1)
/-- Whether any invalidate notice for an address is still on its way. -/
def State.invalidating (s : State) (va : W64) (size : Nat) : Bool :=
  let n := invNotice va size
  s.pkgs.any (fun (e : Nat × Pkg) =>
    e.2.fab.peers.any (fun (q : Nat × Peer) => q.2.notices.contains n) || e.2.fab.inNotices.any (fun x => x.2 == n)) ||
  s.wires.any (fun f => f.notices.contains n)

/-! ### Changes between their first and last steps (R238, R281) -/

def VmChange.meets (c : VmChange) (ctx : W32) (va : W64) (size : Nat) : Bool :=
  c.ctx == ctx && overlaps c.va.toNat c.size va.toNat size
/-- A page whose change has begun and not ended. -/
def State.changing (s : State) (ctx : W32) (va : W64) (size : Nat) : Bool :=
  s.pkgs.any (fun (e : Nat × Pkg) => e.2.vmch.any (fun c => c.meets ctx va size && !c.old.isEmpty))
/-- The packets of the pod that are on their way to a package. -/
def State.packetsTo (s : State) (h : Nat) : List Packet :=
  ((s.pkgs.map (fun (e : Nat × Pkg) =>
    e.2.fab.spray ++ e.2.fab.locals.map (fun o => o.pkt) ++ e.2.fab.arrivals.map (fun x => x.2) ++ e.2.fab.early.map (fun x => x.2) ++
    (e.2.fab.peers.map (fun (q : Nat × Peer) => q.2.vq ++ q.2.relay ++ q.2.unackD ++ q.2.unackS ++ q.2.unackF)).flatten)).flatten ++
    (s.wires.map (fun f => f.packets)).flatten).filter (fun x => x.dst == h)
def Packet.names (x : Packet) (ctx : W32) (va : W64) (size : Nat) : Bool :=
  x.ctx == ctx && x.kind != .reply && x.kind != .faultReply &&
  (if x.ents.isEmpty then overlaps x.addr.toNat (max 16 x.bytes.length) va.toNat size
   else x.ents.any (fun e => va.toNat ≤ e.addr.toNat && e.addr.toNat < va.toNat + size))
/-- Accesses in flight to bytes of memory: writes, operations at the banks, engine commands. -/
def State.inFlight (s : State) (a n : Nat) : Bool :=
  s.writes.any (fun w => w.meets a n) ||
  s.pkgs.any (fun (e : Nat × Pkg) =>
    e.2.bankQ.any (fun b => overlaps b.addr 8 a n) ||
    e.2.cmds.any (fun c => c.srcs.any (fun x => a ≤ x && x < a + n) || c.dsts.any (fun x => a ≤ x && x < a + n)) ||
    e.2.coll.runs.any (fun r => !r.done && r.pages.any (fun x => overlaps x (2 ^ 16) a n)) ||
    e.2.cores.any (fun (y : Nat × Core) => y.2.mxq.any (fun w => w.tiles.any (fun x => a ≤ x && x < a + n))))
/-- An operation of a local stream, accepted before a change, that names its page. -/
def State.localNames (s : State) (c : VmChange) : Bool :=
  c.old.any (fun e => (s.pkg e.1).fab.locals.any (fun o => o.pkt.born ≤ c.id && o.pkt.names c.ctx e.2.1 e.2.2.1))
/-- A change may take its last step: every package has dropped the translations, and nothing that uses the old ones is left. -/
def State.changeDone (s : State) (c : VmChange) : Bool :=
  !c.pod.any (fun p => s.invalidating p.1 p.2) && !c.watch.any (fun w => s.inFlight w.1 w.2) && !s.localNames c &&
  !c.parts.any (fun h => (s.packetsTo h).any (fun x => x.names c.ctx c.va c.size))
/-- Copy bytes within the memories of the pod. -/
def State.copyBytes (s : State) (src dst n : Nat) : State :=
  let cells := s.mem.filter (fun (e : Nat × Byte) => src ≤ e.1 && e.1 < src + n)
  cells.foldl (fun s e => { s with mem := memPut s.mem (dst + (e.1 - src)) e.2 }) (s.zeroRange dst n)
/-- Whether a leaf of a table names a duplicate-set entry. -/
def leafNames (s : State) (k i : Nat) : List Nat → Nat → Bool
  | [], _ => false
  | lv :: rest, tbl => (List.range (if lv = 0 then 32 else 512)).any (fun j =>
      let e := s.read64 (hbmKey k ((tbl + 8 * j) % 2 ^ 39))
      pteV e && (if pteLeaf e then pteState e == 3 && pteDset e == i else leafNames s k i rest (pteAddr e * 2 ^ 8)))
/-- A duplicate-set entry is freed when no leaf of the context, on any package, names it (R281, R286). -/
def State.dropDset (s : State) (ctx : W32) (i : Nat) : State :=
  let root := fun (k : Nat) => match flook (s.pkg k).ctxs ctx.toNat with | some c => c.root.toNat | none => 0
  if (s.ctxPkgs ctx).any (fun k => leafNames s k i [4, 3, 2, 1, 0] (root k)) then s
  else (s.ctxPkgs ctx).foldl (fun s k =>
    match flook (s.pkg k).ctxs ctx.toNat with
    | none => s
    | some c => s.storeAt (hbmKey k (c.dups.toNat + 16 * i)) (leBytes 16 0)) s
/-- Take a duplicate-set entry for a mask: the first that holds none. -/
def State.takeDset (s : State) (k : Nat) (ctx : W32) (mask : BitVec 128) : Option (Nat × State) :=
  ((List.range 4096).find? (fun i => s.dsetMask k ctx i == 0)).map (fun i =>
    (i, (s.ctxPkgs ctx).foldl (fun s q =>
      match flook (s.pkg q).ctxs ctx.toNat with
      | none => s
      | some c => s.storeAt (hbmKey q (c.dups.toNat + 16 * i)) (leBytes 16 mask.toNat)) s))
/-- The last step of a change: copies, leaves, frames, lines, translations, and the status to whoever waits. -/
def execVmChangeComplete (k n : Nat) (s : State) : Out :=
  match (s.pkg k).vmch.find? (fun c => c.id == n) with
  | none => .next s
  | some c =>
    if !s.changeDone c then .next s
    else
      let s1 := s.modPkg k (fun p => { p with vmch := p.vmch.filter (fun x => x.id != n) })
      let s2 := c.copies.foldl (fun s e => s.copyBytes e.1 e.2.1 e.2.2) s1
      let s3 := c.leaves.foldl (fun s e => s.setLeaf e.1 c.ctx c.va e.2) s2
      let s4 := if c.leaves.isEmpty && c.frees.isEmpty then s3
        else { s3 with pkgs := fall s3.pkgs (fun _ p => p.invalidate c.ctx c.va.toNat c.size) }
      let s5 := c.frees.foldl (fun s e => s.modPkg e.1 (fun p => p.giveFrames e.2.1 e.2.2)) (if c.leaves.isEmpty && c.frees.isEmpty then s4
        else c.watch.foldl (fun s w => s.modPkg (keyPkg w.1) (fun p => p.dropAllLines w.1 w.2)) s4)
      let s6 := match c.dset with | some i => s5.dropDset c.ctx i | none => s5
      .next (match c.wid, c.d with
        | some w, some d => fillTag s6 w c.lanes c.tag (fun _ => outs32 d c.status)
        | some w, none =>
          match (s6.wave w).waits.find? (fun r => r.lanes &&& c.lanes != 0) with
          | some r => s6.releaseWait w r
          | none => s6
        | none, _ => s6.modPkg k (fun p => p.cmdDone c.status))

/-! ### Committing and freeing (R237) -/

/-- Commit a page: its status and the state after. -/
def State.commitPage (s : State) (k die : Nat) (ctx : W32) (r : Region) (w : Walked) (va : W64) : Nat × State :=
  if 2 ≤ pteState w.pte then (1, s)
  else if r.quota ≤ r.used then (2, s)
  else match (s.pkg k).takeFrame die 1 with
    | none => (3, s)
    | some (f, p) =>
      let s1 := (s.setPkg k (p.turnPool die f)).zeroRange (frameKey k f) (2 ^ 16)
      let s2 := s1.storeAt (hbmKey k w.pa) (leBytes 8 (mkLeaf w.pte 2 k 0 f).toNat)
      (0, (s2.setUsed k ctx r.idx (r.used + 1)).modPkg k (fun p => p.dropAllLines (frameKey k f) (2 ^ 16) |>.invalidate ctx va.toNat (2 ^ 16)))
/-- A page of a sparse region homed here, or the fault. -/
def State.sparsePage (s : State) (k : Nat) (ctx : W32) (va : W64) : Option (Region × Walked) :=
  match s.regionOf k ctx va, s.rawLeaf k ctx va with
  | some r, some w => if w.level = 0 ∧ pteSparse w.pte ∧ !pteBank w.pte then some (r, w) else none
  | _, _ => none
def execVmCommit (m : Mods) (d a : Reg) (s : State) : Out :=
  match s.elected m with
  | none => .next (finish s [])
  | some e =>
    let va := s.src64 s.cur.wid e a
    let k := s.curPkg
    if va.toNat % 2 ^ 16 ≠ 0 then .next (faultElected s m .align 0 va)
    else match s.sparsePage k s.curCtx va with
      | none => .next (faultElected s m .prot 0 va)
      | some (r, w) =>
        let c := s.commitPage k (clusterOf s.curTroupe.core) s.curCtx r w va
        let s1 := if c.1 = 0 then c.2.acquireLines .pkg else c.2
        .next (finish (sendAll s1 m .owed d 1 (outs32 d (BitVec.ofNat 32 c.1))) [])
/-- The frames of a page, on every package that holds a copy: package, first frame, number. -/
def State.copiesOf (s : State) (ctx : W32) (va : W64) : List (Nat × Nat × Nat) :=
  (s.ctxPkgs ctx).filterMap (fun q =>
    match s.rawLeaf q ctx va with
    | none => none
    | some w =>
      if pteBank w.pte then none
      else if pteState w.pte = 2 ∧ pteHome w.pte = q then some (q, pteFrame w.pte, w.size / 2 ^ 16)
      else if pteState w.pte = 3 ∧ (s.dsetMask q ctx (pteDset w.pte)).getLsbD q then some (q, pteFrame w.pte, w.size / 2 ^ 16)
      else none)
/-- The leaves of a page on every package that knows the context: package, page, size, leaf. -/
def State.leavesOf (s : State) (ctx : W32) (va : W64) : List (Nat × W64 × Nat × W64) :=
  (s.ctxPkgs ctx).filterMap (fun q => (s.rawLeaf q ctx va).map (fun w => (q, pageBase va w.size, w.size, w.pte)))
/-- Where the bytes of translations lie on their packages, bank aliases included, and the homes that forwarding ones name. -/
def State.bytesOf (s : State) (l : List (Nat × TlbEntry)) : List (Nat × Nat) :=
  l.filterMap (fun e => match s.placeOf e.1 e.2 e.2.base with | .at_ key _ => some (key, e.2.size) | _ => none)
def State.homesIn (s : State) (l : List (Nat × TlbEntry)) : List Nat :=
  (l.filterMap (fun e => match s.placeOf e.1 e.2 e.2.base with | .fwd h => some h | _ => none)).dedup
def entriesOf (ctx : W32) (l : List (Nat × W64 × Nat × W64)) : List (Nat × TlbEntry) := l.map (fun e => (e.1, ⟨ctx, e.2.1, e.2.2.1, e.2.2.2⟩))
def watchOf (l : List (Nat × Nat × Nat)) : List (Nat × Nat) := l.map (fun e => (frameKey e.1 e.2.1, e.2.2 * 2 ^ 16))
/-- Begin a change whose status goes to the active lanes. -/
def State.beginChange (s : State) (m : Mods) (d : Reg) (c : VmChange) : State :=
  let r := oweAll s m false d 1
  r.1.modPkg s.curPkg (fun p => { p with vmch := p.vmch ++
    [{ c with id := r.2, wid := some s.cur.wid, lanes := maskOf (s.activeLanes m), d := some d, tag := r.2 }] })
def VmChange.blank (ctx : W32) (va : W64) (size : Nat) : VmChange :=
  { id := 0, ctx := ctx, va := va, size := size, wid := none, lanes := 0, d := none, status := 0, tag := 0, watch := [],
    parts := [], pod := [], old := [], wp := false, leaves := [], copies := [], frees := [], dset := none }
def execVmFree (m : Mods) (d a : Reg) (s : State) : Out :=
  match s.elected m with
  | none => .next (finish s [])
  | some e =>
    let va := s.src64 s.cur.wid e a
    let k := s.curPkg
    let ctx := s.curCtx
    if va.toNat % 2 ^ 16 ≠ 0 then .next (faultElected s m .align 0 va)
    else match s.sparsePage k ctx va with
      | none => .next (faultElected s m .prot 0 va)
      | some (r, w) =>
        if s.relWait .pkg || s.changing ctx va (2 ^ 16) then .next (waitAt s (.vmFree m d a))
        else if pteState w.pte < 2 then .next (finish (sendAll s m .owed d 1 (outs32 d 1)) [])
        else
          let copies := s.copiesOf ctx va
          let old := s.leavesOf ctx va
          let s1 := s.storeAt (hbmKey k w.pa) (leBytes 8 (mkLeaf w.pte 1 k 0 0).toNat)
          let s2 := ((s.ctxPkgs ctx).filter (fun q => q != k)).foldl (fun s q =>
            match s.rawLeaf q ctx va with
            | some x => s.setLeaf q ctx va (fwdLeaf x.pte k)
            | none => s) s1
          let s3 := (s2.setUsed k ctx r.idx (r.used - 1)).invalidatePod k ctx va (2 ^ 16)
          .next (finish (s3.beginChange m d { VmChange.blank ctx va (2 ^ 16) with
            watch := watchOf copies, pod := [(va, 2 ^ 16)], old := old, frees := copies, dset := if pteState w.pte = 3 then some (pteDset w.pte) else none }) [])

/-! ### Permissions, duplication, splitting (R238, R280 to R282) -/

/-- The pages of a range of 64 KiB units as a package maps them: none where it splits a page, with `absent` where a page
is missing. -/
inductive PageList
  | split
  | absent
  | pages (l : List (W64 × Nat))
  deriving DecidableEq, Repr
def pagesFrom (s : State) (k : Nat) (ctx : W32) : Nat → Nat → Nat → List (W64 × Nat) → PageList
  | 0, _, _, acc => .pages acc
  | f + 1, at_, left, acc =>
    if left = 0 then .pages acc
    else match s.rawLeaf k ctx (BitVec.ofNat 64 (at_ * 2 ^ 16)) with
      | none => .absent
      | some w =>
        let u := w.size / 2 ^ 16
        if pteState w.pte = 0 then .absent
        else if at_ % u ≠ 0 ∨ left < u then .split
        else pagesFrom s k ctx f (at_ + u) (left - u) (acc ++ [(BitVec.ofNat 64 (at_ * 2 ^ 16), w.size)])
def State.pagesOf (s : State) (k : Nat) (ctx : W32) (va : W64) (n : Nat) : PageList :=
  if va.toNat % 2 ^ 16 ≠ 0 then .split else pagesFrom s k ctx n (va.toNat / 2 ^ 16) n []
def setPerm (e : W64) (perm : Nat) : W64 := (e &&& ~~~ 0x70#64) ||| BitVec.ofNat 64 (perm % 8 * 16)

/-- What a change of a page asks to be done: refused with PARAM, waited for, answered at once, or begun. -/
inductive VmAsk
  | param
  | wait
  | now (status : Nat)
  | begin_ (s : State) (c : VmChange)
  deriving DecidableEq, Repr
def vmProt (s : State) (k : Nat) (ctx : W32) (va : W64) (n perm : Nat) : VmAsk :=
  match s.pagesOf k ctx va n with
  | .split => .param
  | .absent => .now 2
  | .pages l =>
    if s.changing ctx va (n * 2 ^ 16) then .wait
    else
      let s1 := l.foldl (fun s p => (s.ctxPkgs ctx).foldl (fun s q =>
        match s.rawLeaf q ctx p.1 with
        | some w => s.setLeaf q ctx p.1 (setPerm w.pte perm)
        | none => s) s) s
      let s2 := l.foldl (fun s p => s.invalidatePod k ctx p.1 p.2) s1
      let old := (l.map (fun p => s.leavesOf ctx p.1)).flatten
      .begin_ s2 { VmChange.blank ctx va (n * 2 ^ 16) with
        watch := s.bytesOf (entriesOf ctx old), parts := s.homesIn (entriesOf ctx old), pod := l, old := old }

def maskPkgs (m : BitVec 128) : List Nat := (List.range 128).filter (fun i => m.getLsbD i)
/-- Take a frame of a page's size on each package of a list. -/
def State.takeFrames (s : State) (die n : Nat) : List Nat → Option (List (Nat × Nat) × State)
  | [] => some ([], s)
  | q :: qs =>
    match (s.pkg q).takeFrame die n with
    | none => none
    | some (f, p) => match (s.setPkg q p).takeFrames die n qs with
      | none => none
      | some (l, s1) => some ((q, f) :: l, s1)
def vmDup (s : State) (k die : Nat) (ctx : W32) (va0 : W64) (mask : BitVec 128) : VmAsk :=
  if mask = 0 ∨ (maskPkgs mask).any (fun i => decide ((s.pkg k).podsize ≤ i)) ∨ (2 ≤ (maskPkgs mask).length ∧ !(s.pkg k).feat 11) then .param
  else match s.rawLeaf k ctx va0 with
    | none => .now 2
    | some here =>
      if here.level = 2 ∨ pteBank here.pte then .param
      else
        let va := pageBase va0 here.size
        let home := pteHome here.pte
        let n := here.size / 2 ^ 16
        match s.rawLeaf home ctx va with
        | none => .now 2
        | some w =>
          if pteState w.pte < 2 then .now 2
          else if s.changing ctx va here.size then .wait
          else
            let old := s.copiesOf ctx va
            let others := (s.ctxPkgs ctx)
            let was := if pteState w.pte = 3 then some (pteDset w.pte) else none
            let srcKey := frameKey home (pteFrame w.pte)
            match maskPkgs mask with
            | [h] =>
              if pteState w.pte = 2 ∧ h = home then .now 0
              else
                let have_ := old.find? (fun (e : Nat × Nat × Nat) => e.1 == h)
                let need := if have_.isSome then [] else [h]
                match s.takeFrames die n need with
                | none => .now 1
                | some (got, s1) =>
                  let fr := match have_, got with | some e, _ => e.2.1 | none, (_, f) :: _ => f | none, [] => 0
                  let leaves := others.map (fun q => (q, if q = h then mkLeaf w.pte 2 h 0 fr else fwdLeaf w.pte h))
                  let copies := if have_.isSome then [] else [(srcKey, frameKey h fr, here.size)]
                  .begin_ (s1.invalidatePod k ctx va here.size) { VmChange.blank ctx va here.size with
                    watch := watchOf old, parts := if h = home then [] else [home], pod := [(va, here.size)], old := s.leavesOf ctx va, leaves := leaves, copies := copies,
                    frees := old.filter (fun (e : Nat × Nat × Nat) => e.1 != h), dset := was }
            | _ =>
              let full := mask ||| (1#128 <<< home)
              let list := maskPkgs full
              let need := list.filter (fun q => !old.any (fun (e : Nat × Nat × Nat) => e.1 == q))
              match s.takeFrames die n need with
              | none => .now 1
              | some (got, s1) =>
                match s1.takeDset home ctx full with
                | none => .now 1
                | some (i, s2) =>
                  let frameOn := fun (q : Nat) => match old.find? (fun (e : Nat × Nat × Nat) => e.1 == q) with
                    | some e => e.2.1
                    | none => ((got.find? (fun (e : Nat × Nat) => e.1 == q)).map (fun (e : Nat × Nat) => e.2)).getD 0
                  let leaves := others.map (fun q => (q, if list.contains q then mkLeaf w.pte 3 home i (frameOn q) else fwdLeaf w.pte home))
                  .begin_ (s2.invalidatePod k ctx va here.size) { VmChange.blank ctx va here.size with
                    watch := watchOf old, parts := [home], pod := [(va, here.size)], old := s.leavesOf ctx va, wp := pteState w.pte == 2, leaves := leaves,
                    copies := got.map (fun (e : Nat × Nat) => (srcKey, frameKey e.1 e.2, here.size)),
                    frees := old.filter (fun (e : Nat × Nat × Nat) => !list.contains e.1), dset := was }

/-- Split the 2 MiB leaf of one package into a table of 32 leaves, from the context's page-table pool. -/
def State.splitOn (s : State) (q : Nat) (ctx : W32) (va : W64) : State :=
  match s.rawLeaf q ctx va, flook (s.pkg q).ctxs ctx.toNat with
  | some w, some c =>
    let tbl := c.ptPool.toNat + 256 * c.ptNext
    let isFwd := pteState w.pte == 2 && pteHome w.pte != q
    let leaf := fun (i : Nat) => mkLeaf w.pte (pteState w.pte) (pteHome w.pte) (pteDset w.pte) (if isFwd then 0 else pteFrame w.pte + i)
    let s1 := s.storeAt (hbmKey q tbl) (((List.range 32).map (fun i => leBytes 8 (leaf i).toNat)).flatten)
    let s2 := s1.storeAt (hbmKey q w.pa) (leBytes 8 (1 + tbl / 2 ^ 8 * 2 ^ 20))
    s2.modPkg q (fun p => { p with ctxs := fmod p.ctxs ctx.toNat (fun x => { x with ptNext := x.ptNext + 1 }) })
  | _, _ => s
def State.ptRoom (s : State) (q : Nat) (ctx : W32) : Bool :=
  match flook (s.pkg q).ctxs ctx.toNat with
  | some c => 256 * (c.ptNext + 1) ≤ c.ptBytes.toNat
  | none => false
def vmSplit (s : State) (k : Nat) (ctx : W32) (va0 : W64) : VmAsk :=
  match s.rawLeaf k ctx va0 with
  | none => .now 1
  | some w =>
    if pteBank w.pte then .param
    else if w.level ≠ 1 then .now 1
    else
      let va := pageBase va0 w.size
      let on := (s.ctxPkgs ctx).filter (fun q => match s.rawLeaf q ctx va with | some x => x.level == 1 | none => false)
      if s.changing ctx va w.size then .wait
      else if on.any (fun q => !s.ptRoom q ctx) then .now 1
      else
        let old := s.copiesOf ctx va
        let s1 := on.foldl (fun s q => s.splitOn q ctx va) s
        let s3 := old.foldl (fun s e => s.modPkg e.1 (fun p => p.dropAllLines (frameKey e.1 e.2.1) (e.2.2 * 2 ^ 16))) s1
        .begin_ (s3.invalidatePod k ctx va w.size) { VmChange.blank ctx va w.size with
          watch := watchOf old, pod := [(va, w.size)], old := s.leavesOf ctx va }

/-- A privileged `vm` instruction (R238, R314). -/
def vmInstr (i : Instr) (s : State) (m : Mods) (d : Reg) (ask : Nat → VmAsk) : State :=
  match s.elected m with
  | none => finish s []
  | some e =>
    if !s.curWave.sys then refuseWith s m .priv 0 0
    else match ask e with
      | .param => refuse s m .param
      | .wait => waitAt s i
      | .now v => finish (sendAll s m .owed d 1 (outs32 d (BitVec.ofNat 32 v))) []
      | .begin_ s1 c => finish (s1.beginChange m d c) []
def execVmProt (m : Mods) (d a : Reg) (s : State) : Out :=
  .next (vmInstr (.vmProt m d a) s m d (fun e =>
    let b := s.block e a 4
    if bf b 3 31 3 ≠ 0 then .param else vmProt s s.curPkg s.curCtx (bd b 0) (bw b 2).toNat (bf b 3 2 0)))
def execVmDup (m : Mods) (d a : Reg) (s : State) : Out :=
  .next (vmInstr (.vmDup m d a) s m d (fun e =>
    let b := s.block e a 6
    vmDup s s.curPkg (clusterOf s.curTroupe.core) s.curCtx (bd b 0) (bd b 4 ++ bd b 2)))
def execVmSplit (m : Mods) (d a : Reg) (s : State) : Out :=
  .next (vmInstr (.vmSplit m d a) s m d (fun e => vmSplit s s.curPkg s.curCtx (s.src64 s.cur.wid e a)))

/-- Remove cached translations of a range within a scope. -/
def State.tlbDrop (s : State) (k core : Nat) (ctx : W32) (va : W64) (n : Nat) (sc : Scope) : State :=
  let sz := n * 2 ^ 16
  match sc with
  | .core => s.modCore k core (fun c => { c with tlb := dropTlb ctx va.toNat sz c.tlb })
  | .clu => s.modPkg k (fun p => { p with
      cores := fall p.cores (fun c x => if clusterOf c = clusterOf core then { x with tlb := dropTlb ctx va.toNat sz x.tlb } else x),
      tlb2 := fmod p.tlb2 (clusterOf core) (dropTlb ctx va.toNat sz)
      wcache := fmod p.wcache (clusterOf core) (dropWalk ctx va.toNat sz) })
  | .pkg => s.modPkg k (fun p => p.invalidate ctx va.toNat sz)
  | .pod => (List.range n).foldl (fun s i => s.invalidatePod k ctx (va + BitVec.ofNat 64 (i * 2 ^ 16)) (2 ^ 16)) s
/-- The translations of a range that the caches of packages hold. -/
def State.cached (s : State) (ks : List Nat) (ctx : W32) (va : W64) (n : Nat) : List (Nat × TlbEntry) :=
  (ks.map (fun q => (((s.pkg q).cores.map (fun (c : Nat × Core) => c.2.tlb)).flatten ++
      ((s.pkg q).tlb2.map (fun (e : Nat × List TlbEntry) => e.2)).flatten).filterMap (fun e =>
    if e.ctx == ctx && overlaps e.base.toNat e.size va.toNat (n * 2 ^ 16) then some (q, e) else none))).flatten.dedup
/-- The change that a `tlb.inv` waits for: accesses in flight to the range drain, whether the translation that the tables hold
now or one still cached has sent them on their way. -/
def tlbChange (s : State) (k : Nat) (ctx : W32) (va : W64) (n : Nat) (sc : Scope) : VmChange :=
  let pages := (List.range n).map (fun i => va + BitVec.ofNat 64 (i * 2 ^ 16))
  let l := entriesOf ctx ((pages.map (fun a => s.leavesOf ctx a)).flatten) ++ s.cached (if sc = .pod then s.ctxPkgs ctx else [k]) ctx va n
  { VmChange.blank ctx va (n * 2 ^ 16) with
    watch := (s.bytesOf l).dedup, parts := s.homesIn l, pod := if sc = .pod then pages.map (fun a => (a, 2 ^ 16)) else [] }
def execTlbInv (m : Mods) (a : Reg) (s : State) : Out :=
  match s.elected m with
  | none => .next (finish s [])
  | some e =>
    let b := s.block e a 4
    let k := s.curPkg
    let va := bd b 0 &&& ~~~ 0xFFFF#64
    let sc := scopeOf (bf b 3 1 0)
    if !s.curWave.sys then .next (refuseWith s m .priv 0 0)
    else if bf b 3 31 2 ≠ 0 then .next (refuse s m .param)
    else if s.cur.past then .next (finish s [])
    else if (s.pkg k).vmch.any (fun c => c.wid == some s.cur.wid && c.d.isNone && c.lanes &&& s.cur.lanes != 0) then
      .next (waitAt s (.tlbInv m a))
    else
      let s1 := s.tlbDrop k s.curTroupe.core s.curCtx va (bw b 2).toNat sc
      let id := s1.nextId
      let c := { tlbChange s k s.curCtx va (bw b 2).toNat sc with id := id, wid := some s.cur.wid, lanes := s.cur.lanes }
      .next (waitAt ({ s1 with nextId := id + 1 }.modPkg k (fun p => { p with vmch := p.vmch ++ [c] })) (.tlbInv m a))
/-- Another package's change of a page reaches this one (R277). -/
def execInvalidateNotice (k : Nat) (s : State) : Out :=
  match (s.pkg k).fab.inNotices with
  | (_, n) :: rest =>
    if n.kind != .invalidate then .next s
    else .next (s.modPkg k (fun p =>
      let lo := n.arg.toNat / 2 ^ 16 * 2 ^ 16
      let drop := fun (l : List TlbEntry) => l.filter (fun e => !overlaps e.base.toNat e.size lo (invSize n))
      { p with cores := fall p.cores (fun _ c => { c with tlb := drop c.tlb }), tlb2 := fall p.tlb2 (fun _ t => drop t),
               wcache := fall p.wcache (fun _ t => t.filter (fun e => !overlaps e.base (levelSize e.level) lo (invSize n))),
               fab := { p.fab with inNotices := rest } }))
  | [] => .next s

/-! ### The heap (R201 to R203) -/

/-- The class of a size: the exponent of the smallest block that holds it; none for 0 or above 65,536. -/
def heapClass (n : Nat) : Option Nat := if n = 0 then none else (List.range 17).find? (fun c => 6 ≤ c && n ≤ 2 ^ c)
/-- Commit and carve a page for a class (R201). -/
def State.heapGrow (s : State) (k die : Nat) (ctx : W32) (c : Nat) : State :=
  match flook (s.pkg k).ctxs ctx.toNat with
  | none => s
  | some x =>
    if x.heap = 255 then s
    else
      let r := s.region k ctx x.heap
      let free := ((List.range r.pages).map (fun i => BitVec.ofNat 64 (r.base + i * 2 ^ 16))).find? (fun va =>
        match s.rawLeaf k ctx va with | some w => w.level == 0 && pteState w.pte == 1 | none => false)
      match free with
      | none => s
      | some va => match s.rawLeaf k ctx va with
        | none => s
        | some w =>
          let g := s.commitPage k die ctx r w va
          if g.1 ≠ 0 then s
          else
            let blocks := (List.range (2 ^ 16 / 2 ^ c)).map (fun i => va + BitVec.ofNat 64 (i * 2 ^ c))
            g.2.modPkg k (fun p => { p with ctxs := fmod p.ctxs ctx.toNat (fun y => { y with
              heapFree := fput y.heapFree c (fget [] y.heapFree c ++ blocks),
              heapTag := fput y.heapTag (va.toNat / 2 ^ 16) c }) })
def State.heapList (s : State) (k : Nat) (ctx : W32) (c : Nat) : List W64 :=
  match flook (s.pkg k).ctxs ctx.toNat with | some x => fget [] x.heapFree c | none => []
def State.setHeapList (s : State) (k : Nat) (ctx : W32) (c : Nat) (l : List W64) : State :=
  s.modPkg k (fun p => { p with ctxs := fmod p.ctxs ctx.toNat (fun y => { y with heapFree := fput y.heapFree c l }) })
/-- One lane's block, its contents unspecified: 0 where there is none. -/
def State.heapTake (s : State) (k die : Nat) (ctx : W32) (size : Nat) : W64 × State :=
  match heapClass size with
  | none => (0, s)
  | some c =>
    let s1 := if (s.heapList k ctx c).isEmpty then s.heapGrow k die ctx c else s
    match s1.heapList k ctx c with
    | [] => (0, s1)
    | b :: rest =>
      let s2 := s1.setHeapList k ctx c rest
      let f := s2.fresh
      (b, ({ s2 with fresh := f + 1 }).devStore k ctx b ((List.range (2 ^ c)).map (fun i => Config.freeByte f i)))
def heapLanes (k die : Nat) (ctx : W32) : List (Nat × Nat) → State → List (Nat × W64) × State
  | [], s => ([], s)
  | (l, n) :: ls, s =>
    let r := s.heapTake k die ctx n
    let t := heapLanes k die ctx ls r.2
    ((l, r.1) :: t.1, t.2)
def execHalloc (m : Mods) (d a : Reg) (s : State) : Out :=
  let r := heapLanes s.curPkg (clusterOf s.curTroupe.core) s.curCtx
    ((s.activeLanes m).map (fun l => (l, (s.src s.cur.wid l a).toNat))) s
  let s1 := if r.1.any (fun (e : Nat × W64) => e.2 != 0) then r.2.acquireLines .pkg else r.2
  let id := s1.nextId
  .next (finish (({ s1 with nextId := id + 1 }).updLanes s.cur.wid (lanesOf s.cur.lanes) (fun l x =>
    match r.1.find? (fun (e : Nat × W64) => e.1 == l) with
    | some e => x.send none id (outs64 d e.2)
    | none => if m.zero then x.send none id (zeroOuts (dstRegs d 2)) else x)) [])
/-- The class of the heap page that an address lies in, where the address is a block of it. -/
def State.heapBlock (s : State) (k : Nat) (ctx : W32) (va : W64) : Option Nat :=
  match flook (s.pkg k).ctxs ctx.toNat with
  | none => none
  | some x => match flook x.heapTag (va.toNat / 2 ^ 16) with
    | some c => if va.toNat % 2 ^ c = 0 then some c else none
    | none => none
def execHfree (m : Mods) (a : Reg) (s : State) : Out :=
  let k := s.curPkg
  let ls := (s.activeLanes m).map (fun l => (l, s.src64 s.cur.wid l a))
  if !ls.isEmpty && s.relWait .pkg then .next (waitAt s (.hfree m a))
  else
    let bad := ls.filter (fun e => e.2 != 0 && (s.heapBlock k s.curCtx e.2).isNone)
    let s1 := ls.foldl (fun s1 e => match if e.2 = 0 then none else s.heapBlock k s.curCtx e.2 with
      | some c => s1.setHeapList k s.curCtx c (e.2 :: s1.heapList k s.curCtx c)
      | none => s1) s
    .next (finish s1 (bad.map (fun e => s.stopRec e.1 .prot 0 e.2)))

end Sys2Proof.Machine
end

