-- ==== Sys2Proof/Machine/Remote.lean ====
section
/-! DEFINITION. Remote operations (R225 to R229), the route an operation takes (R359), dependency tokens (R230, R231, R371)
and event words (R234). -/

namespace Sys2Proof.Machine

/-! ### Tokens (R230, R371) -/

def tokVal (gen : BitVec 19) (idx : Nat) : W32 := 1#1 ++ gen ++ BitVec.ofNat 12 idx
def tokIdx (t : W32) : Nat := nbits t.toNat 11 0
def tokGen (t : W32) : BitVec 19 := t.extractLsb' 12 19
/-- A value that is no token and not the null token. -/
def tokBad (t : W32) : Bool := !t.getLsbD 31 && t != 0
def Pkg.tok (p : Pkg) (i : Nat) : Tok := fget Tok.init p.fab.toks i
def Pkg.modTok (p : Pkg) (i : Nat) (f : Tok → Tok) : Pkg := { p with fab := { p.fab with toks := fput p.fab.toks i (f (p.tok i)) } }
/-- The null token and retired ones have landed. -/
def Pkg.tokLanded (p : Pkg) (t : W32) : Bool :=
  t == 0 || (p.tok (tokIdx t)).gen != tokGen t || (p.tok (tokIdx t)).st == .landed || (p.tok (tokIdx t)).st == .free
/-- Allocate an entry, round-robin. -/
def Pkg.newTok (p : Pkg) (st : TokSt) (ins : List Nat) (ctx : W32) : Option (W32 × Pkg) :=
  ((List.range 4096).map (fun i => (p.fab.tokTurn + i) % 4096)).findSome? (fun i =>
    let x := p.tok i
    if x.st = .free then
      let p1 := p.modTok i (fun x => { x with st := st, ins := ins, deps := [], joins := 0, ctx := ctx, sent := false })
      some (tokVal x.gen i, { p1 with fab := { p1.fab with tokTurn := (i + 1) % 4096 } })
    else none)
/-- Entries that have landed, have no join and no release notice still to go are free again, in their next generation. -/
def Pkg.freeToks (p : Pkg) : Pkg :=
  { p with fab := { p.fab with toks := fall p.fab.toks (fun i x =>
      if x.st = .landed ∧ x.joins = 0 ∧
         !p.fab.peers.any (fun (q : Nat × Peer) => q.2.notices.any (fun n => n.kind == .release && n.token == tokVal x.gen i)) then
        { x with st := .free, gen := x.gen + 1, ins := [], deps := [] }
      else x) } }
/-- An entry lands: a release notice to every destination of its dependants, with their number (R371). -/
def Pkg.landOne (p : Pkg) (i : Nat) : Pkg :=
  let x := p.tok i
  let p1 := x.deps.foldl (fun p d => p.modPeer d.1 (fun q => { q with
    notices := q.notices ++ [⟨.release, 0, tokVal x.gen i, BitVec.ofNat 64 d.2⟩] })) p
  let p2 := p1.modTok i (fun x => { x with st := .landed, deps := [] })
  x.ins.foldl (fun p j => p.modTok j (fun y => { y with joins := y.joins - 1 })) p2
/-- Joins whose inputs have all landed land too. -/
def joinsDue (p : Pkg) : List Nat :=
  (p.fab.toks.filter (fun (e : Nat × Tok) => e.2.st == .join && e.2.ins.all (fun j => (p.tok j).st == .landed))).map (fun (e : Nat × Tok) => e.1)
def landJoins : Nat → Pkg → Pkg
  | 0, p => p
  | f + 1, p => match joinsDue p with
    | [] => p
    | i :: _ => landJoins f (p.landOne i)
/-- A token has landed at its package (R371, R372). -/
def Pkg.landTok (p : Pkg) (t : W32) : Pkg :=
  let x := p.tok (tokIdx t)
  if t ≠ 0 ∧ x.gen = tokGen t ∧ x.st = .pend then (landJoins 4096 (p.landOne (tokIdx t))).freeToks else p

/-! ### The route (R359) -/

/-- FCTL as it acts and reads: without spraying, SPRTH and DSPRAY are zero (R357, R418). -/
def Pkg.fctlNow (p : Pkg) : W32 := if p.feat 10 then p.fab.fctl else p.fab.fctl &&& 0xDFFF0000#32
/-- The salt of a troupe's spray choices. -/
def State.spraySalt (s : State) : W32 :=
  let t := s.curTroupe
  let f := (s.pkg t.pkg).fctlNow
  if t.hdr.det then 0 else if f.getLsbD 30 then (f.extractLsb' 16 8).setWidth 32 else t.salt
/-- The intermediate of a sprayed operation. -/
def State.sprayVia (s : State) (addr : W64) (dst : Nat) : Nat :=
  let t := s.curTroupe
  let k := t.pkg
  let n := (s.pkg k).podsize
  let v := (lo32 addr ^^^ (BitVec.ofNat 32 (t.tidx % 2 ^ 24) <<< 8) ^^^ (BitVec.ofNat 32 s.curWave.wix <<< 4) ^^^ s.spraySalt) * 0x9E3779B9#32
  let c := nbits v.toNat 31 16 * (n - 2) / 2 ^ 16
  (((List.range n).filter (fun q => q != k && q != dst))[c]?).getD dst
/-- Whether an operation to a package is sprayed, and through whom. -/
def State.route (s : State) (spr : Bool) (addr : W64) (dst : Nat) : Option Nat :=
  let p := s.pkg s.curPkg
  let f := p.fctlNow
  let th := nbits f.toNat 15 0
  if dst = s.curPkg ∨ p.podsize ≤ 2 then none
  else if spr || f.getLsbD 29 || (th != 0 && 64 * th < p.vqUsed dst) then some (s.sprayVia addr dst) else none
/-- The queue that an operation needs has room for `n` flits. -/
def State.routeRoom (s : State) (via : Option Nat) (dst n : Nat) : Bool :=
  let p := s.pkg s.curPkg
  match via with
  | some _ => p.sprayUsed + n ≤ sprayFlits
  | none => if dst = s.curPkg then !p.cmds.any (fun c => c.opens dst) else p.vqRoom dst n
/-- An operation enters its queue: the local stream, the direct queue or the spray pool. -/
def Pkg.enqueue (p : Pkg) (k : Nat) (via : Option Nat) (x : Packet) : Pkg :=
  match via with
  | some v => p.sendSpray x v
  | none =>
    if x.dst = k then
      let o : LocalOp := ⟨x.kind, { x with via := k }⟩
      { p with fab := { p.fab with locals := p.fab.locals ++ [o] } }.modPeer k (fun q => { q with sentD := q.sentD + 1 })
    else p.sendDirect x

/-! ### Issuing (R225 to R228) -/

/-- Where a command's target is: this package or another home. -/
inductive Target
  | bad (c : Cause) (sub : Byte)
  | home (h : Nat)
  deriving DecidableEq, Repr
def State.target (s : State) (kd : AccKind) (va : W64) (n : Nat) : Target :=
  match s.check s.curTid s.curWave.sys .g kd va n with
  | .bad c sub => .bad c sub
  | .ok (.at_ _ _) => .home s.curPkg
  | .ok (.fwd h) => .home h
  | .ok .absent => .bad .page 0
/-- What an elected remote operation asks for. -/
structure RemOp where
  kind : PKind
  acc : AccKind
  va : W64
  n : Nat
  dept : W32
  data : BitVec 128
  w : Bool
  hnd : Nat
  ret : Bool
  tok : Bool
  words : Nat
  deriving DecidableEq, Repr
def State.basePacket (s : State) (o : RemOp) (dst : Nat) (dep : Bool) : Packet :=
  { Packet.init with
    src := s.curPkg, dst := dst, kind := o.kind, dep := dep && !(s.pkg s.curPkg).tokLanded o.dept, tok := o.tok, ret := o.ret,
    addr := o.va, dept := o.dept, data := o.data, w := o.w, hnd := o.hnd, ctx := s.curCtx, sysm := s.curWave.sys, wid := s.cur.wid,
    born := s.nextId }
/-- Send a checked operation: its token or its reply is owed to the active lanes. -/
def remoteSend (i : Instr) (s : State) (m : Mods) (dep spr : Bool) (d : Reg) (o : RemOp) (dst : Nat) : State :=
  let k := s.curPkg
  let via := s.route spr o.va dst
  let lanes := s.activeLanes m
  if s.walkWait .g [o.va] || !s.routeRoom via dst 1 || (o.ret && !s.steerRoom lanes) then waitAt (s.missed .g [o.va]) i
  else
    let s0 := s.walked .g [o.va]
    let lock := fun (s : State) => if o.kind = .store then s.modTroupe s.curTid (fun t => { t with lock := true }) else s
    if o.ret then
      let r := oweAll s0 m true d o.words
      let key := r.2 % 2 ^ 32
      finish (r.1.modPkg k (fun p =>
        { p with fab := { p.fab with tags := fput p.fab.tags key ⟨s.cur.wid, maskOf lanes, d, 4 * o.words, false, r.2, false, none⟩ } }.enqueue
          k via { s.basePacket o dst dep with tag := BitVec.ofNat 32 key, lmask := maskOf lanes })) []
    else if o.tok then
      match (s0.pkg k).newTok .pend [] s.curCtx with
      | none => waitAt s i
      | some (t, p) =>
        let s1 := (s0.setPkg k (p.enqueue k via { s.basePacket o dst dep with ownt := t }))
        finish (lock (sendAll s1 m .owed d 1 (outs32 d t))) []
    else
      finish (lock (sendAll (s0.modPkg k (fun p => p.enqueue k via (s.basePacket o dst dep))) m .owed d 1 [])) []
/-- An elected remote operation: the block, its checks, its target. -/
def remoteGo (i : Instr) (s : State) (m : Mods) (dep spr : Bool) (d a : Reg) (n : Nat) (rd : List W32 → Option RemOp) : State :=
  match s.elected m with
  | none => finish s []
  | some e =>
    let b := s.block e a n
    match rd b with
    | none => refuse s m .param
    | some o =>
      if !dep && o.dept != 0 then refuse s m .param
      else if tokBad o.dept then refuse s m .token
      else if o.ret && o.words = 2 && d.toNat < 120 && d.toNat % 2 = 1 then refuse s m .pair
      else match s.target o.acc o.va o.n with
        | .bad c sub => faultElected s m c sub o.va
        | .home h => remoteSend i s m dep spr d o h
def execRst (m : Mods) (dep spr : Bool) (d a : Reg) (s : State) : Out :=
  .next (remoteGo (.rst m dep spr d a) s m dep spr d a 4 (fun b =>
    some ⟨.store, .store, bd b 0, 4, bw b 3, (bw b 2).setWidth 128, false, 0, false, true, 1⟩))
def execRld (m : Mods) (dep spr : Bool) (d a : Reg) (s : State) : Out :=
  .next (remoteGo (.rld m dep spr d a) s m dep spr d a 4 (fun b =>
    let w := bf b 2 0 0 == 1
    if bf b 2 31 1 ≠ 0 then none
    else some ⟨.load, .load, bd b 0, if w then 8 else 4, bw b 3, 0, w, 0, true, false, if w then 2 else 1⟩))
def execRatom (m : Mods) (tok dep spr : Bool) (d a : Reg) (s : State) : Out :=
  if (s.someActive m) && s.curTroupe.hdr.det then .next (refuse s m .detmode)
  else .next (remoteGo (.ratom m tok dep spr d a) s m dep spr d a 8 (fun b =>
    let w := bf b 2 8 8 == 1
    let ret := bf b 2 9 9 == 1
    if bf b 2 31 10 ≠ 0 ∨ bf b 2 7 5 ≠ 0 ∨ (tok && ret) ∨ (bf b 2 4 4 = 1 ∧ !(s.pkg s.curPkg).feat 9) then none
    else some ⟨.atomic, .atom, bd b 0, if w then 8 else 4, bw b 3, bd b 6 ++ bd b 4, w, bf b 2 4 0, ret, tok, if w && ret then 2 else 1⟩))

/-! ### `tok` instructions (R231) -/

def execTokJoin (m : Mods) (d a : Reg) (s : State) : Out :=
  match s.elected m with
  | none => .next (finish s [])
  | some e =>
    let x := s.src s.cur.wid e d
    let y := s.src s.cur.wid e a
    let k := s.curPkg
    let p := s.pkg k
    let give := fun (s : State) (t : W32) => finish (sendAll s m .owed d 1 (outs32 d t)) []
    if tokBad x || tokBad y then .next (refuse s m .token)
    else if p.tokLanded x && p.tokLanded y then .next (give s 0)
    else if p.tokLanded x then .next (give s y)
    else if p.tokLanded y then .next (give s x)
    else match p.newTok .join [tokIdx x, tokIdx y] s.curCtx with
      | none => .next (waitAt s (.tokJoin m d a))
      | some (t, p1) =>
        let p2 := [tokIdx x, tokIdx y].foldl (fun p j => p.modTok j (fun z => { z with joins := z.joins + 1 })) p1
        .next (give (s.setPkg k p2) t)
def execTokTest (m : Mods) (d a : Reg) (s : State) : Out :=
  match s.elected m with
  | none => .next (finish s [])
  | some e =>
    let t := s.src s.cur.wid e a
    if tokBad t then .next (refuse s m .token)
    else .next (finish (sendAll s m .owed d 1 (outs32 d (if (s.pkg s.curPkg).tokLanded t then 1 else 0))) [])
def execTokWait (m : Mods) (a : Reg) (s : State) : Out :=
  match s.elected m with
  | none => .next (finish s [])
  | some e =>
    let t := s.src s.cur.wid e a
    if tokBad t then .next (refuse s m .token)
    else if (s.pkg s.curPkg).tokLanded t then .next (finish (s.acquireLines .pod) [])
    else .next (waitAt s (.tokWait m a))

/-! ### Event words (R234) -/

/-- The event word an elected lane names: 8-aligned and homed on this package, which a copy of a page homed elsewhere is not. -/
def State.evtKey (s : State) (kd : AccKind) (va : W64) : Checked :=
  match s.checkG s.curPkg s.curTroupe.core s.curCtx s.curWave.sys kd va 8 with
  | .ok (.fwd _) => .bad .prot 0
  | .ok p =>
    (match s.lookup s.curPkg s.curTroupe.core s.curCtx va with
     | some e => if pteHome e.leaf = s.curPkg then .ok p else .bad .prot 0
     | none => .ok p)
  | c => c
/-- Add to an event word, as one step at package scope (R234, R295). -/
def State.addEvent (s : State) (key : Nat) (n : W64) : State := (s.update key 8 (fun x => x + n) none).2
def execEvtSig (m : Mods) (a : Reg) (s : State) : Out :=
  match s.elected m with
  | none => .next (finish s [])
  | some e =>
    let b := s.block e a 3
    match s.evtKey .red (bd b 0) with
    | .bad c sub => .next (faultElected s m c sub (bd b 0))
    | .ok p =>
      let key := checkedKey (.ok p)
      if s.walkWait .g [bd b 0] || s.relWait .pkg || s.ownStore e key 8 || s.ownBehind e key 8 then .next (waitAt (s.missed .g [bd b 0]) (.evtSig m a))
      else .next (finish ((s.walked .g [bd b 0]).addEvent key ((bw b 2).setWidth 64)) [])
def execEvtWt (m : Mods) (a : Reg) (s : State) : Out :=
  match s.elected m with
  | none => .next (finish s [])
  | some e =>
    let b := s.block e a 4
    match s.evtKey .load (bd b 0) with
    | .bad c sub => .next (faultElected s m c sub (bd b 0))
    | .ok p =>
      let key := checkedKey (.ok p)
      let v := leNat (s.laneView (s.viewer s.cur.wid e) key 8)
      if s.walkWait .g [bd b 0] || s.ownBehind e key 8 || v < (bd b 2).toNat then .next (waitAt (s.missed .g [bd b 0]) (.evtWt m a))
      else .next (finish (((s.walked .g [bd b 0]).acquireLines .pkg).observe s.cur.wid .pkg (s.relsAt s.curPkg s.curTroupe.core key 8)) [])

end Sys2Proof.Machine
end

