-- ==== Sys2Proof/Machine/Fabric.lean ====
section
/-! DEFINITION. The calendar, ports, frames and streams of the fabric (R350 to R364), the time discipline (R354 to R356) and
the notices that carry counts, tokens and holds (R364, R371 to R375). -/

namespace Sys2Proof.Machine

/-! ### The calendar (R352, R353) -/

def roundSlots (p : Nat) : Nat := if p ≤ 1 then 1 else (p - 1 + 15) / 16
def Pkg.slotNo (p : Pkg) : Nat := p.fab.caltime.toNat / 1024
def Pkg.calRound (p : Pkg) : Nat := p.slotNo / roundSlots p.podsize
def Pkg.calSlot (p : Pkg) : Nat := p.slotNo % roundSlots p.podsize
def peerTo (p a s k : Nat) : Nat := (a + 1 + (16 * s + k) % (p - 1)) % p
/-- Flit times of a port's slot by its good lanes (R351). -/
def Port.flits (x : Port) : Nat :=
  let good := 9 - ((List.range 9).filter (fun i => x.bad.getLsbD i)).length
  if 8 ≤ good then 1550 else if 5 ≤ good then 775 else 0
def Pkg.port (p : Pkg) (i : Nat) : Port := fget Port.init p.fab.ports i
/-- A package whose ports are dark: not booted, in recovery, its features not accepted, in standby or powered down (R418, R419,
R428). -/
def Pkg.silent (p : Pkg) : Bool :=
  !p.sec.booted || p.sec.recovery || !p.host.featDone || p.phys.pstate == 2 || !p.phys.powered
/-- The flit times of a port that faces a port of another package: both ends have the narrower width (R351). -/
def State.portFlits (s : State) (k i q : Nat) : Nat :=
  min ((s.pkg k).port i).flits (match flook s.pkgs q with
    | some y => if y.silent then 0 else (y.port i).flits
    | none => 1550)

/-! ### Sending (R360 to R362) -/

/-- A port at work on its frame: the package, the flit times left, what it has taken; whether the data window has begun, so that
only new entries are taken. -/
structure Tx where
  p : Pkg
  room : Nat
  out : List Packet
  late : Bool
  deriving DecidableEq, Repr
/-- A `.dep` packet about to leave: plain when its token has landed; else it takes a pair of the token's entry and one hold
credit of its destination, or stays (R371, R374). -/
def Pkg.takeDep (p : Pkg) (x : Packet) : Option (Packet × Pkg) :=
  if !x.dep then some ({ x with dept := 0 }, p)
  else if p.tokLanded x.dept then some ({ x with dep := false, dept := 0 }, p)
  else
    let i := tokIdx x.dept
    let y := p.tok i
    let has := y.deps.any (fun d => d.1 == x.dst)
    if (!has && 16 ≤ y.deps.length) || 8 ≤ (p.peer x.dst).holdUsed then none
    else
      let deps := if has then y.deps.map (fun (d : Nat × Nat) => if d.1 = x.dst then (d.1, d.2 + 1) else d) else y.deps ++ [(x.dst, 1)]
      let p1 := (p.modTok i (fun z => { z with deps := deps })).modPeer x.dst (fun q => { q with holdUsed := q.holdUsed + 1 })
      some (x, { p1 with fab := { p1.fab with depCtx :=
        (p1.fab.depCtx.filter (fun e => e.1 == x.dept || tokIdx e.1 != i) ++ [(x.dept, x.dst, x.ctx)]).dedup } })
/-- Relayed packets for the peer, oldest first. -/
def sendRelay (q : Nat) : Nat → Tx → Tx
  | 0, t => t
  | f + 1, t =>
    match (t.p.peer q).relay with
    | [] => t
    | x :: rest =>
      if t.room < x.flits || (x.again && t.late) then t
      else
        let seq := if x.again then x.seq else (t.p.peer q).txF + 1
        let y := { x with seq := seq, again := true }
        let p1 := t.p.modPeer q (fun r => { r with relay := rest, unackF := r.unackF ++ [y], txF := if x.again then r.txF else seq })
        let p2 := if x.again then p1 else p1.modPeer x.src (fun r => { r with recvFwd := r.recvFwd + 1, dirtyF := true })
        sendRelay q f { t with p := p2, room := t.room - x.flits, out := t.out ++ [y] }
/-- The package's own direct traffic to the peer. -/
def sendOwn (q : Nat) : Nat → Tx → Tx
  | 0, t => t
  | f + 1, t =>
    match (t.p.peer q).vq with
    | [] => t
    | x :: rest =>
      if t.room < x.flits || (x.again && t.late) then t
      else if x.again then
        sendOwn q f { t with p := t.p.modPeer q (fun r => { r with vq := rest, unackD := r.unackD ++ [x] }), room := t.room - x.flits, out := t.out ++ [x] }
      else if !t.p.mayStart pacePort || 16384 < (t.p.peer q).flightD.sum + x.flits then t
      else match t.p.takeDep x with
        | none => t
        | some (x1, p1) =>
          let y := { x1 with seq := (p1.peer q).txD + 1, again := true }
          let p2 := p1.modPeer q (fun r => { r with vq := rest, unackD := r.unackD ++ [y], txD := r.txD + 1, flightD := r.flightD ++ [x.flits] })
          sendOwn q f { t with p := p2.spend pacePort x.payload, room := t.room - x.flits, out := t.out ++ [y] }
/-- Spray-pool entries whose intermediate is the peer, oldest first, within the relay credit there. -/
def sendPool (q : Nat) : Nat → Tx → Tx
  | 0, t => t
  | f + 1, t =>
    match t.p.fab.spray.findIdx? (fun x => x.via == q) with
    | none => t
    | some i =>
      match t.p.fab.spray[i]? with
      | none => t
      | some x =>
        let drop := fun (p : Pkg) => { p with fab := { p.fab with spray := p.fab.spray.eraseIdx i } }
        if t.room < x.flits || (x.again && t.late) then t
        else if x.again then
          sendPool q f { t with p := (drop t.p).modPeer q (fun r => { r with unackS := r.unackS ++ [x] }), room := t.room - x.flits, out := t.out ++ [x] }
        else if !t.p.mayStart pacePort || 1024 < (t.p.peer q).flightS.sum + x.flits then t
        else match t.p.takeDep x with
          | none => t
          | some (x1, p1) =>
            let y := { x1 with seq := (p1.peer q).txS + 1, again := true }
            let p2 := (drop p1).modPeer q (fun r => { r with unackS := r.unackS ++ [y], txS := r.txS + 1, sentS := r.sentS + 1,
                                                             flightS := r.flightS ++ [x.flits] })
            sendPool q f { t with p := p2.spend pacePort x.payload, room := t.room - x.flits, out := t.out ++ [y] }
/-- Fill what is left of a frame: the relay queue, the direct queue, the spray pool. -/
def Pkg.takeFor (p : Pkg) (q room : Nat) (late : Bool) : Tx :=
  sendPool q 1550 (sendOwn q 1550 (sendRelay q 1550 ⟨p, room, [], late⟩))
/-- The counts that have changed since a peer was last told (R364). -/
def Pkg.countNotices (p : Pkg) (q : Nat) : List Notice :=
  let x := p.peer q
  (if x.dirtyA then [⟨.applied, 0, 0, BitVec.ofNat 64 x.recvApplied⟩] else []) ++
  (if x.dirtyF then [⟨.forwarded, 0, 0, BitVec.ofNat 64 x.recvFwd⟩] else []) ++
  x.dirtyR.map (fun v => ⟨.relayed, v, 0, BitVec.ofNat 64 (p.relayedCount q v)⟩)
/-- One port's frame of `fl` flit times for the peer that it faces: notices first, then what waits in the queues. -/
def Pkg.fillFrame (p : Pkg) (k port fl cycle : Nat) : Option (Frame × Pkg) :=
  let n := p.podsize
  let q := peerTo n k p.calSlot port
  if n ≤ 1 ∨ fl = 0 then none
  else
    let p1 := p.modPeer q (fun r => { r with notices := r.notices ++ p.countNotices q, dirtyA := false, dirtyF := false, dirtyR := [] })
    let ns := (p1.peer q).notices.take 256
    let p2 := p1.modPeer q (fun r => { r with notices := r.notices.drop 256 })
    let t := p2.takeFor q (fl - 1 - (ns.length + 3) / 4) false
    let x := t.p.peer q
    some ({ src := k, dst := q, port := port, stamp := p.fab.caltime, slotn := BitVec.ofNat 32 p.slotNo, ackd := x.rxD, acks := x.rxS,
            ackf := x.rxF, mstr := p.fab.master, at_ := cycle, cont := false, notices := ns, packets := t.out },
          { t.p with fab := { t.p.fab with ports := fput t.p.fab.ports port { t.p.port port with used := some (fl - t.room) } } })
/-- Flit times of the data window that have passed (R353). -/
def Pkg.passed (p : Pkg) (fl : Nat) : Nat := (p.fab.caltime.toNat % 1024 - 32) * fl / 992
/-- What a frame under way still takes, of entries that have arrived, until 64 flit times before its end (R360). -/
def Pkg.moreFrame (p : Pkg) (k port fl cycle : Nat) : Option (Frame × Pkg) :=
  match (p.port port).used with
  | none => none
  | some n =>
    let q := peerTo p.podsize k p.calSlot port
    if p.fab.caltime.toNat % 1024 < 32 ∨ fl < p.passed fl + 64 then none
    else
      let t := p.takeFor q (fl - max n (p.passed fl)) true
      if t.out.isEmpty then none
      else some ({ src := k, dst := q, port := port, stamp := p.fab.caltime, slotn := BitVec.ofNat 32 p.slotNo, ackd := 0, acks := 0, ackf := 0,
                   mstr := p.fab.master, at_ := cycle, cont := true, notices := [], packets := t.out },
                 { t.p with fab := { t.p.fab with ports := fput t.p.fab.ports port { t.p.port port with used := some (fl - t.room) } } })
/-- The time at a slot: the counter slews by at most 2 ns towards the master, and never runs backwards (R354). -/
def Pkg.slew (p : Pkg) : Pkg :=
  let o := p.fab.offset
  let d : Int := if o < -2 then 2 else if 2 < o then -2 else -o
  { p with fab := { p.fab with
    offset := o + d
    caltime := if 0 < d then p.fab.caltime + BitVec.ofInt 64 d else p.fab.caltime
    slow := if d < 0 then p.fab.slow + d.natAbs else p.fab.slow } }
/-- Width changes take effect at a slot boundary, and are reported (R351). -/
def Pkg.newWidths (p : Pkg) : Pkg :=
  p.fab.ports.foldl (fun p (e : Nat × Port) =>
    if e.2.newBad = e.2.bad then p
    else
      let x := { e.2 with bad := e.2.newBad }
      let p1 := { p with fab := { p.fab with ports := fput p.fab.ports e.1 x } }
      if x.flits = e.2.flits then p1 else mgmtEvent p1 0x44 5 e.1 0) p
/-- A package leaves CALSYNC at a slot boundary at which its offset lies within 6 ns (R356). -/
def Pkg.leaveSync (p : Pkg) : Pkg :=
  if p.fab.csync && -6 ≤ p.fab.offset && p.fab.offset ≤ 6 && p.fab.freeRun.isNone then
    mgmtEvent { p with fab := { p.fab with csync := false } } 0x46 6 0 0
  else p
/-- Each port of a package that may send does its part, in ascending number. -/
def State.eachPort (s : State) (k : Nat) (p : Pkg) (f : Pkg → Nat → Nat → Option (Frame × Pkg)) : List Frame × Pkg :=
  if p.fab.csync || p.silent then ([], p)
  else (List.range 16).foldl (fun (acc : List Frame × Pkg) i =>
    match f acc.2 i (s.portFlits k i (peerTo p.podsize k p.calSlot i)) with
    | some (x, q) => (acc.1 ++ [x], q)
    | none => acc) ([], p)
/-- The data window of a slot begins (R353, R360): what takes effect at the slot's boundary has done so in the guard before it, in
which nothing is sent. -/
def execSlotStart (k : Nat) (s : State) : Out :=
  let p0 := (s.pkg k).newWidths.slew.leaveSync
  let p1 := { p0 with fab := { p0.fab with ports := fall p0.fab.ports (fun _ x => { x with used := none }) } }
  let s1 := s.setPkg k p1
  let r := s1.eachPort k p1 (fun p i fl => p.fillFrame k i fl s.cycle)
  .next { (s.setPkg k r.2.freeToks) with wires := s.wires ++ r.1 }
/-- Frames under way take what has arrived in their queues. -/
def State.moreFrames (s : State) (k : Nat) : State :=
  let r := s.eachPort k (s.pkg k) (fun p i fl => p.moreFrame k i fl s.cycle)
  if r.1.isEmpty then s else { (s.setPkg k r.2) with wires := s.wires ++ r.1 }

/-! ### Receiving (R354 to R356, R362) -/

/-- Drop what the peer has reported from a list of unreported packets. -/
def ackDrop (ack : W16) (l : List Packet) : List Packet :=
  match l.findIdx? (fun x => x.seq == ack) with
  | some i => l.drop (i + 1)
  | none => l
def Pkg.takeAcks (p : Pkg) (f : Frame) : Pkg :=
  p.modPeer f.src (fun r => { r with unackD := ackDrop f.ackd r.unackD, unackF := ackDrop f.ackf r.unackF, unackS := ackDrop f.acks r.unackS })
/-- The stream of an arriving packet. -/
inductive Stream | direct | spray | relay
  deriving DecidableEq, Repr
def Stream.num : Stream → Nat | .direct => 0 | .spray => 1 | .relay => 2
def streamOf (k : Nat) (f : Frame) (x : Packet) : Option Stream :=
  if x.src = f.src ∧ x.dst = k then some .direct
  else if x.src = f.src ∧ x.via = k ∧ x.dst ≠ k then some .spray
  else if x.via = f.src ∧ x.dst = k ∧ x.src ≠ f.src then some .relay
  else none
/-- A sender sends a stream again, from its first unreported packet, on its next port-slot facing the receiver (R362). -/
def Pkg.resend (p : Pkg) (q : Nat) (st : Stream) : Pkg :=
  match st with
  | .direct => p.modPeer q (fun r => { r with unackD := [], vq := r.unackD ++ r.vq })
  | .spray =>
    let again := (p.peer q).unackS
    { p with fab := { p.fab with spray := again ++ p.fab.spray } }.modPeer q (fun r => { r with unackS := [] })
  | .relay => p.modPeer q (fun r => { r with unackF := [], relay := r.unackF ++ r.relay })
/-- A package discards the packets of a stream: the sender sends it again. -/
def State.loseStream (s : State) (k : Nat) (f : Frame) (st : Stream) : State := s.modPkg f.src (fun p => p.resend k st)
/-- A CRC failure on a stream; sixteen in a row are reported (R365). -/
def Pkg.crcFail (p : Pkg) (f : Frame) (st : Stream) : Pkg :=
  let n := fget 0 (p.peer f.src).crcFails st.num + 1
  let p1 := p.modPeer f.src (fun r => { r with crcFails := fput r.crcFails st.num (n % 16) })
  if n = 16 then mgmtEvent p1 0x47 5 f.port 0 else p1
def Pkg.addArrival (p : Pkg) (q : Nat) (x : Packet) : Pkg := { p with fab := { p.fab with arrivals := p.fab.arrivals ++ [(q, x)] } }
/-- Room in a relay queue, whose packets keep their space until they are reported (R358). -/
def Pkg.relayRoom (p : Pkg) (q n : Nat) : Bool := flitsOf (p.peer q).relay + flitsOf (p.peer q).unackF + n ≤ relayFlits
/-- The last packet of a stream that has been accepted, and acceptance of the next one. -/
def Peer.last (r : Peer) (st : Stream) : W16 := match st with | .direct => r.rxD | .spray => r.rxS | .relay => r.rxF
def Pkg.accept (p : Pkg) (f : Frame) (x : Packet) (st : Stream) : Pkg :=
  let clean := { x with again := false }
  let p1 := p.modPeer f.src (fun r => { r with crcFails := fdel r.crcFails st.num })
  match st with
  | .direct => (p1.modPeer f.src (fun r => { r with rxD := x.seq })).addArrival f.src clean
  | .spray => (p1.modPeer f.src (fun r => { r with rxS := x.seq })).modPeer x.dst (fun r => { r with relay := r.relay ++ [clean] })
  | .relay => (p1.modPeer f.src (fun r => { r with rxF := x.seq })).addArrival f.src
      { clean with ord := fget 0 (p.peer x.src).recvRelayed x.via + (p.waiting x.src x.via).length }
/-- A packet arrives: accepted in order, passed over when it was accepted before, or discarded with what follows it, as one that
the relay queue has no room for is (R362; log 115). One that fits no stream is lost. -/
def State.acceptPacket (s : State) (k : Nat) (f : Frame) (x : Packet) : State :=
  match streamOf k f x with
  | none => s
  | some st =>
    let last := ((s.pkg k).peer f.src).last st
    if x.seq = last + 1 then
      if st == .spray && !(s.pkg k).relayRoom x.dst x.flits then s.loseStream k f st
      else s.modPkg k (fun p => p.accept f x st)
    else if (last - x.seq).toNat < 2 ^ 15 then s
    else s.loseStream k f st
/-- A packet whose CRC has failed is lost. -/
def State.badPacket (s : State) (k : Nat) (f : Frame) (x : Packet) : State :=
  match streamOf k f x with
  | some st => (s.modPkg k (fun p => p.crcFail f st)).loseStream k f st
  | none => s
/-- A bad frame: its packets are lost, and its notices go out again with them (R362, R376). `crc` tells whether a CRC has failed. -/
def State.badFrame (s : State) (k : Nat) (f : Frame) (crc : Bool) : State :=
  let sts := (f.packets.filterMap (fun x => streamOf k f x)).dedup
  let s1 := sts.foldl (fun s st => (if crc then s.modPkg k (fun p => p.crcFail f st) else s).loseStream k f st) s
  s1.modPkg f.src (fun p => p.modPeer k (fun r => { r with notices := f.notices ++ r.notices }))

/-- Whether a package has heard another within the last 4 rounds. -/
def Pkg.heard (p : Pkg) (q : Nat) : Bool := (p.peer q).lastHeard != 0 && p.calRound + 1 ≤ (p.peer q).lastHeard + 4
/-- Whether 4 rounds have passed since the list was set, so that a package not heard since is lost. -/
def Pkg.settled (p : Pkg) : Bool := p.fab.since + 4 ≤ p.calRound
/-- The master that a package follows (R355): the first listed one that it has heard within 4 rounds; itself, once none listed
before it has been heard for 4 rounds. -/
def Pkg.pickMaster (p : Pkg) (k : Nat) : Option Nat :=
  p.fab.masters.find? (fun m => (m == k && (p.settled || p.fab.masters.head? == some k)) || (m != k && p.heard m))
def Pkg.followMaster (p : Pkg) (k : Nat) : Pkg :=
  if p.podsize ≤ 1 then p
  else match p.pickMaster k with
    | none =>
      if !p.settled then p
      else { p with fab := { p.fab with freeRun := some (p.fab.freeRun.getD p.calRound), offset := 0 } }
    | some m =>
      let p1 := { p with fab := { p.fab with freeRun := none, master := m, offset := if m = k then 0 else p.fab.offset } }
      if m = p.fab.master then p1 else mgmtEvent p1 0x4C 6 m 0
/-- The offset from the master as a frame of its shows it; beyond 8 ns the package enters CALSYNC (R354, R356). -/
def Pkg.measure (p : Pkg) (o : Int) : Pkg :=
  let p1 := { p with fab := { p.fab with offset := o } }
  if (o < -8 ∨ 8 < o) ∧ !p1.fab.csync then mgmtEvent { p1 with fab := { p1.fab with csync := true } } 0x45 6 0 0 else p1
/-- The header of a frame: what its sender is heard to follow and to have accepted, the time, the notices. The stamp is corrected
by the time that the frame has been on its way. -/
def Pkg.takeHeader (p : Pkg) (k : Nat) (f : Frame) (cycle : Nat) : Pkg :=
  let p1 := p.modPeer f.src (fun r => { r with lastHeard := p.calRound + 1 })
  let p2 := (p1.followMaster k).takeAcks f
  let p3 := if p2.fab.master = f.src ∧ f.src ≠ k then
      p2.measure ((p.fab.caltime.toNat : Int) - (f.stamp.toNat + (cycle - f.at_) / 2 : Nat)) else p2
  { p3 with fab := { p3.fab with inNotices := p3.fab.inNotices ++ f.notices.map (fun x => (f.src, x)) } }
/-- A frame arrives. `bad` tells what its CRCs find: bit 0 the frame, bit i + 1 its packet i. -/
def execFrameReceive (k n bad : Nat) (s : State) : Out :=
  match s.wires[n]? with
  | none => .next s
  | some f =>
    if f.dst ≠ k then .next s
    else
      let s1 := { s with wires := s.wires.eraseIdx n }
      let p := s1.pkg k
      if p.silent || (p.port f.port).flits == 0 || bad.testBit 0 then .next (s1.badFrame k f (bad.testBit 0))
      else
        let s2 := if f.cont then s1 else s1.setPkg k (p.takeHeader k f s.cycle)
        .next (f.packets.zipIdx.foldl (fun s x => if bad.testBit (x.2 + 1) then s.badPacket k f x.1 else s.acceptPacket k f x.1) s2)
/-- No frame of the master for 4 rounds: the next listed package that is heard, or the package itself (R355). -/
def execMasterLoss (k : Nat) (s : State) : Out := .next (s.modPkg k (fun p => p.followMaster k))
/-- A free run of 16 rounds ends in CALSYNC (R355). -/
def execFreeRunExpiry (k : Nat) (s : State) : Out :=
  .next (s.modPkg k (fun p => match p.fab.freeRun with
    | some r => if r + 16 ≤ p.calRound ∧ !p.fab.csync then mgmtEvent { p with fab := { p.fab with csync := true } } 0x45 6 0 0 else p
    | none => p))
/-- A lane is declared failed; the width changes at the next slot boundary (R351). -/
def execLaneFailure (k n l : Nat) (s : State) : Out :=
  .next (s.modPkg k (fun p =>
    if 16 ≤ n ∨ 9 ≤ l then p
    else
      let x := p.port n
      { p with fab := { p.fab with ports := fput p.fab.ports n { x with newBad := x.newBad ||| (1#9 <<< l), clean := fput x.clean l p.slotNo } } }))
/-- A lane that has stayed locked through 64 slots rejoins. -/
def execLaneRejoin (k n l : Nat) (s : State) : Out :=
  .next (s.modPkg k (fun p =>
    let x := p.port n
    if 16 ≤ n ∨ 9 ≤ l ∨ p.slotNo < fget 0 x.clean l + 64 then p
    else { p with fab := { p.fab with ports := fput p.fab.ports n { x with newBad := x.newBad &&& ~~~ (1#9 <<< l) } } }))

/-! ### Notices (R364, R371 to R375) -/

/-- The notice at the head of those that have arrived, if it is of a kind: its sender, itself, and the package without it. -/
def Pkg.nextNotice (p : Pkg) (kd : NKind) : Option (Nat × Notice × Pkg) :=
  match p.fab.inNotices with
  | (q, n) :: rest => if n.kind = kd then some (q, n, { p with fab := { p.fab with inNotices := rest } }) else none
  | [] => none
def onNotice (k : Nat) (kd : NKind) (s : State) (go : Nat → Notice → Pkg → Pkg) : Out :=
  match (s.pkg k).nextNotice kd with
  | none => .next s
  | some (q, n, p) => .next (s.setPkg k (go q n p))
def execLandedNotice (k : Nat) (s : State) : Out := onNotice k .landed s (fun _ n p => p.landTok n.token)
def execAppliedCountNotice (k : Nat) (s : State) : Out :=
  onNotice k .applied s (fun q n p => p.modPeer q (fun r =>
    { r with appliedD := n.arg.toNat, flightD := r.flightD.drop (n.arg.toNat - r.appliedD) }))
def execForwardedCountNotice (k : Nat) (s : State) : Out :=
  onNotice k .forwarded s (fun q n p => p.modPeer q (fun r =>
    { r with fwdS := n.arg.toNat, flightS := r.flightS.drop (n.arg.toNat - r.fwdS) }))
def execRelayedAppliedCountNotice (k : Nat) (s : State) : Out :=
  onNotice k .relayed s (fun q n p => p.modPeer q (fun r => { r with doneVia := fput r.doneVia n.via n.arg.toNat }))
/-- Hold credits come back (R361). -/
def execHoldFreeNotice (k : Nat) (s : State) : Out :=
  onNotice k .holdFree s (fun q n p => p.modPeer q (fun r => { r with holdUsed := r.holdUsed - n.arg.toNat }))

/-- Give hold credits back to a source: one for each of its held operations that has been released or discarded (R361, R373). -/
def Pkg.giveHolds (p : Pkg) (q n : Nat) : Pkg :=
  if n = 0 then p else p.modPeer q (fun r => { r with notices := r.notices ++ [⟨.holdFree, 0, 0, BitVec.ofNat 64 n⟩] })
/-- A release notice frees the held packets of its token, each stream in order, with what waited behind them; what is still
due is kept as a MEMO (R373). -/
def execReleaseNotice (k : Nat) (s : State) : Out :=
  onNotice k .release s (fun q n p =>
    let mine := p.fab.holds.filter (fun h => h.src == q && h.token == n.token && h.pkt.isSome)
    let rest := p.fab.holds.filter (fun h => !(h.src == q && h.token == n.token && h.pkt.isSome))
    let out := (mine.map (fun h => (match h.pkt with | some x => [(q, { x with dep := false })] | none => []) ++ h.behind.map (fun x => (q, x)))).flatten
    let due := n.arg.toNat - mine.length
    let memo : List Hold := if due = 0 then [] else [⟨q, n.token, none, due, p.calRound, []⟩]
    let p1 := { p with fab := { p.fab with holds := rest ++ memo, arrivals := out ++ p.fab.arrivals } }
    p1.giveHolds q mine.length)
/-- Collective runs that use a failed stream from, or to, a package are abandoned (R385). -/
def Pkg.streamFailed (p : Pkg) (q : Nat) (sends : Bool) : Pkg :=
  { p with coll := { p.coll with runs := p.coll.runs.map (fun r =>
      let ents := match p.coll.plans.find? (fun (e : Nat × Plan) => e.1 == r.plan) with | some e => e.2.ents | none => []
      if !r.done && ents.any (fun e => e.peer == q && (if sends then e.op == 1 || e.op == 3 else e.op == 2 || e.op == 3)) then
        { r with ab := true, fail := true }
      else r) } }
/-- An entry held for 4 rounds expires: its packet is discarded, the source is told (R375). -/
def execHoldExpiry (k n : Nat) (s : State) : Out :=
  match (s.pkg k).fab.holds[n]? with
  | none => .next s
  | some h =>
    if (s.pkg k).calRound < h.round + 4 then .next s
    else .next (s.modPkg k (fun p =>
      let p1 := { p with fab := { p.fab with holds := p.fab.holds.eraseIdx n, arrivals := h.behind.map (fun x => (h.src, x)) ++ p.fab.arrivals } }
      let p2 := p1.modPeer h.src (fun r => { r with notices := r.notices ++ [⟨.expiry, 0, h.token, 0⟩] })
      let p3 := match h.pkt with
        | some x => if x.via = k then p2.modPeer h.src (fun r => { r with recvApplied := r.recvApplied + 1, dirtyA := true })
                    else p2.landRelayed x
        | none => p2
      (p3.giveHolds h.src h.pkt.isSome.toNat).streamFailed h.src false))
/-- The source of an expired operation stops the contexts that have issued operations on its token to that destination (R375,
R325). -/
def execExpiryNotice (k : Nat) (s : State) : Out :=
  match (s.pkg k).nextNotice .expiry with
  | none => .next s
  | some (q, n, p) => .next (((p.fab.depCtx.filter (fun e => e.1 == n.token && e.2.1 == q)).map (fun e => e.2.2)).dedup.foldl (fun s c =>
      stopContext s k c .tokexpire 0 (s.firstLane k c).1 (s.firstLane k c).2) (s.setPkg k (p.streamFailed q true)))

end Sys2Proof.Machine
end

