-- ==== Sys2Proof/Machine/Apply.lean ====
section
/-! DEFINITION. Packets at their destination (R366, R367, R369, R370, R372, R373): holding a packet on its token, applying
stores, loads, atomics and vector parts at the home, replies and fault replies at the issuer. -/

namespace Sys2Proof.Machine

/-! ### Landing -/

/-- A packet has been applied, or discarded: its stream's count, and the notice or landing its token is owed. -/
def State.landed (s : State) (k : Nat) (here : Bool) (x : Packet) : State :=
  s.modPkg k (fun p =>
    if here then
      let p1 := p.modPeer k (fun r => { r with appliedD := r.appliedD + 1 })
      if x.tok then p1.landTok x.ownt else p1
    else
      let p1 := if x.via = k then p.modPeer x.src (fun r => { r with recvApplied := r.recvApplied + 1, dirtyA := true })
        else p.landRelayed x
      if x.tok then p1.modPeer x.src (fun r => { r with notices := r.notices ++ [⟨.landed, 0, x.ownt, 0⟩] }) else p1)
/-- Whether a held packet keeps another of its source back: on the direct path, or as a later segment of one copy (R368, R373). -/
def Hold.blocks (h : Hold) (k : Nat) (x : Packet) : Bool :=
  h.src == x.src && (match h.pkt with | some y => (y.via == k && x.via == k) || (x.copy != 0 && y.copy == x.copy) | none => false)
/-- A source's partition of the hold queue is full (R373). -/
def Pkg.holdsFull (p : Pkg) (q : Nat) : Bool := 8 ≤ (p.fab.holds.filter (fun h => h.src == q)).length
/-- The next packet of a kind: held on its token, kept behind a held one, or applied and landed. -/
def onPacket (k : Nat) (kind : PKind) (s : State) (go : Bool → Packet → State → State) : Out :=
  let f := (s.pkg k).fab
  let local_ := match f.locals with
    | o :: rest =>
      if o.kind = kind ∧ (!o.pkt.dep || (s.pkg k).tokLanded o.pkt.dept) then
        some ((go true o.pkt (s.modPkg k (fun p => { p with fab := { p.fab with locals := rest } }))).landed k true o.pkt)
      else none
    | [] => none
  match f.arrivals with
  | (_, x) :: rest =>
    if x.kind ≠ kind then .next (local_.getD s)
    else
      let s1 := s.modPkg k (fun p => { p with fab := { p.fab with arrivals := rest } })
      if f.holds.any (fun h => h.blocks k x) then
        .next (s1.modPkg k (fun p => { p with fab := { p.fab with holds :=
          (p.fab.holds.map (fun h => if h.blocks k x then { h with behind := h.behind ++ [x] } else h)) } }))
      else if !x.dep then .next ((go false x s1).landed k false x)
      else match f.holds.findIdx? (fun h => h.src == x.src && h.token == x.dept && h.pkt.isNone) with
        | some i =>
          -- a MEMO: the release came first
          let s2 := s1.modPkg k (fun p =>
            let hs := p.fab.holds.modify i (fun h => { h with due := h.due - 1 })
            { p with fab := { p.fab with holds := hs.filter (fun h => h.pkt.isSome || h.due != 0) } }.giveHolds x.src 1)
          .next ((go false x s2).landed k false x)
        | none =>
          let h : Hold := ⟨x.src, x.dept, some x, 0, (s.pkg k).calRound, []⟩
          if (s.pkg k).holdsFull x.src then .next s
          else .next (s1.modPkg k (fun p => { p with fab := { p.fab with holds := p.fab.holds ++ [h] } }))
  | [] => .next (local_.getD s)

/-! ### At the home (R366) -/

/-- The tables that translate a packet at its home: its own as they stand; for an operation of its local stream, as they
stood when it was issued (R206, R225). -/
def State.homeLeaf (s : State) (k : Nat) (x : Packet) (va : W64) : Option W64 :=
  if x.src = k then (match s.oldEntry k x.ctx x.born va with | some e => some e.leaf | none => s.devLeaf k x.ctx va)
  else s.devLeaf k x.ctx va
def State.homePlace (s : State) (k : Nat) (x : Packet) (va : W64) : Place :=
  if x.src = k then s.heldPlace k x.ctx x.born va else s.devPlace k x.ctx va
/-- Translation at the home, with its own tables: where the bytes are, or the fault. -/
def State.homeCheck (s : State) (k : Nat) (x : Packet) (kd : AccKind) (va : W64) : Checked :=
  match s.homeLeaf k x va, s.homePlace k x va with
  | some l, .at_ key c =>
    if pteSys l && !x.sysm then .bad .prot 0
    else if kd.reads && !pteR l then .bad .prot 0
    else if kd.writes && pteState l == 3 then .bad .wpdup 0
    else if kd.writes && !pteW l then .bad .prot 0
    else .ok (.at_ key c)
  | _, _ => .bad .page 0
/-- A discarded write is reported at its wave's next `.pod` release or fence, or stops the context of a troupe that has
completed (R366), or of a device unit that sent it for no wave. -/
def State.discard (s : State) (x : Packet) (lane : Nat) (va : W64) : State :=
  let t := s.troupe (s.wave x.wid).tid
  if x.wid = 0 then stopContext s x.src x.ctx .page 2 0 va
  else if t.st ≠ .published then
    s.modWave x.wid (fun v => { v with discarded := v.discarded ++ [(.page, va, lane)] })
  else stopContext s t.pkg t.ctx .page 2 0 va
/-- Write at the home, at every scope (R248). -/
def State.homeStore (s : State) (x : Packet) (key : Nat) (bs : List Byte) : State :=
  let s1 := s.storeAt key bs
  if x.rels.isEmpty then s1 else { s1 with relAt := markRel s1.relAt key bs.length x.rels }

/-! ### Replies (R367, R321) -/

def extReply (t : TagRec) (v : BitVec 128) : BitVec 128 :=
  if t.sext && t.bytes = 1 then ((v.setWidth 8).signExtend 32).setWidth 128
  else if t.sext && t.bytes = 2 then ((v.setWidth 16).signExtend 32).setWidth 128
  else v
def words128 (v : BitVec 128) : List W32 := [v.extractLsb' 0 32, v.extractLsb' 32 32, v.extractLsb' 64 32, v.extractLsb' 96 32]
/-- A reply's value reaches its lane: the registers it is owed to, or the steer slot its tag was rewritten to. -/
def Lane.reply (l : Lane) (tag : Nat) (v : BitVec 128) : Lane :=
  if l.steer.any (fun x => x.tag == tag && x.pend) then
    { l with steer := l.steer.map (fun x => if x.tag == tag && x.pend then { x with val := v, valid := true, pend := false } else x) }
  else l.fill tag ((l.owedTo tag).zip (words128 v))
/-- A wave's block in its troupe's save area, and a steer slot of a lane there (R317). -/
def State.blockVa (s : State) (w : Nat) : W64 :=
  let v := s.wave w
  let t := s.troupe v.tid
  t.savearea + BitVec.ofNat 64 (0x1000 + 0x8000 * (v.wix + if v.part then t.hdr.waves else 0))
def steerOff (l i : Nat) : Nat := 0x500 + 256 * l + 32 * i
def Steer.bytes (x : Steer) : List Byte :=
  leBytes 8 (x.pend.toNat * 2 ^ 31 + x.valid.toNat * 2 ^ 30 + x.wid.toNat * 2 ^ 8 + x.reg.toNat) ++ leBytes 16 x.val.toNat ++ leBytes 8 0
/-- The save area holds the steer slots of lanes as they stand. -/
def State.putSteer (s : State) (w : Nat) (ls : List Nat) : State :=
  let v := s.wave w
  let t := s.troupe v.tid
  ls.foldl (fun s l => (v.lane l).steer.zipIdx.foldl (fun s e =>
    s.devStore t.pkg t.ctx (s.blockVa w + BitVec.ofNat 64 (steerOff l e.2)) e.1.bytes) s) s
/-- The lanes of a reply no longer wait for it; its tag is free when all have it. -/
def State.closeTag (s : State) (k : Nat) (tag : Nat) (t : TagRec) (m : LaneMask) : State :=
  let left := t.lanes &&& ~~~ m
  let s1 := s.modPkg k (fun p => { p with fab := { p.fab with tags := if left = 0 then fdel p.fab.tags tag else fput p.fab.tags tag { t with lanes := left } } })
  if left = 0 ∧ t.hold then s1.modWave t.wid (fun v => { v with holdMem := v.holdMem.filter (fun n => n != tag) }) else s1
/-- A reply arrives: its lanes get their values; an acquire at `.clu` or wider is complete, and empties the core's cache
(R181). -/
def State.applyReply (s : State) (k : Nat) (x : Packet) : State :=
  match flook (s.pkg k).fab.tags x.tag.toNat with
  | none => s
  | some t =>
    let s1 := (s.updLanes t.wid (lanesOf (x.lmask &&& t.lanes)) (fun n l =>
      let v := match x.ents.find? (fun e => e.lane == n) with | some e => e.d | none => x.data
      l.reply t.tag (extReply t v))).putSteer t.wid (lanesOf (x.lmask &&& t.lanes))
    let w := s1.troupe (s1.wave t.wid).tid
    let s2 := match t.acq with
      | some .core => s1
      | some sc => (s1.observe t.wid sc x.rels).emptyLines w.pkg w.core
      | none => s1
    s2.closeTag k x.tag.toNat t x.lmask
/-- Whether a reply meets lanes of a troupe that has left its core. -/
def State.steered (s : State) (k : Nat) (x : Packet) : Bool :=
  match flook (s.pkg k).fab.tags x.tag.toNat with
  | none => false
  | some t => (lanesOf (x.lmask &&& t.lanes)).any (fun n => (s.lane t.wid n).steer.any (fun y => y.tag == t.tag && y.pend))
/-- Send a reply to the issuing package, on the direct path; a local one arrives at once. -/
def State.sendReply (s : State) (k : Nat) (x : Packet) : State :=
  if x.dst = k then s.applyReply k x else s.modPkg k (fun p => p.sendDirect x)
def replyTo (k : Nat) (x : Packet) : Packet :=
  { Packet.init with src := k, dst := x.src, kind := .reply, tag := x.tag, lmask := x.lmask, ctx := x.ctx, wid := x.wid }
/-- The fault reply for lanes that faulted at the home: each with its address and cause. -/
def faultTo (k : Nat) (x : Packet) (bad : List (Nat × W64 × Cause)) : Packet :=
  { Packet.init with src := k, dst := x.src, kind := .faultReply, tag := x.tag, lmask := maskOf (bad.map (fun e => e.1)), ctx := x.ctx,
                     wid := x.wid, ents := bad.map (fun e => ⟨e.1, e.2.1, 0, BitVec.ofNat 64 e.2.2.code.toNat⟩) }
/-- A fault reply ends what its lanes are owed. Cause 0 tells of an atomic that was discarded (R366): it stops nothing, and the
destination keeps its value (log 114). The other causes stop the issuing wave: the lanes record the fault where they stand, and are owed nothing (R306, R366).
A wave that has stopped already takes it when its stop is over; one being saved or restored, after its return. -/
def State.applyFault (s : State) (k : Nat) (x : Packet) : State :=
  match flook (s.pkg k).fab.tags x.tag.toNat with
  | none => s
  | some t =>
    let ls := lanesOf (x.lmask &&& t.lanes)
    let s1 := s.updLanes t.wid ls (fun _ l => { l with
      pend := l.pend.filter (fun e => e.tag != t.tag)
      steer := l.steer.map (fun y => if y.tag = t.tag then ⟨false, false, 0, 0, 0, 0⟩ else y) })
    let s2 := (s1.putSteer t.wid ls).closeTag k x.tag.toNat t x.lmask
    let v := s2.wave t.wid
    let recs := (x.ents.filter (fun e => ls.contains e.lane && (v.lane e.lane).st != .exit && e.e != 0)).map (fun e =>
      (⟨e.lane, if e.e.toNat = Cause.prot.code.toNat then .prot else .page, 1, 0, e.addr, false, 0, 0⟩ : StopRec))
    if v.ended && (s2.troupe v.tid).st != .saved then s2
    else if v.saving || v.resting || (s2.troupe v.tid).st = .saved then s2.modWave t.wid (fun v => { v with late := v.late ++ recs })
    else takeStop s2 t.wid recs
def State.sendFault (s : State) (k : Nat) (x : Packet) (bad : List (Nat × W64 × Cause)) : State :=
  if bad.isEmpty then s
  else if x.src = k then s.applyFault k (faultTo k x bad) else s.modPkg k (fun p => p.sendDirect (faultTo k x bad))
def execReplyPacket (k : Nat) (s : State) : Out := onPacket k .reply s (fun _ x s => s.applyReply k x)
/-- The reply at the head meets a steer slot (R321). -/
def execSteerReply (k : Nat) (s : State) : Out :=
  match (s.pkg k).fab.arrivals with
  | (_, x) :: _ => if x.kind = .reply ∧ s.steered k x then onPacket k .reply s (fun _ x s => s.applyReply k x) else .next s
  | [] => .next s
def execFaultReplyPacket (k : Nat) (s : State) : Out :=
  match (s.pkg k).fab.arrivals with
  | (_, x) :: _ =>
    match flook (s.pkg k).fab.tags x.tag.toNat with
    | some t => if (s.wave t.wid).stopped then .next s else onPacket k .faultReply s (fun _ x s => s.applyFault k x)
    | none => onPacket k .faultReply s (fun _ x s => s.applyFault k x)
  | [] => .next s

/-! ### Stores and loads -/

def vwBytes (n : Nat) : Nat := 2 ^ n
def State.storeOne (s : State) (k : Nat) (x : Packet) (lane : Nat) (va : W64) (n : Nat) (v : BitVec 128) : State :=
  match s.homeCheck k x .store va with
  | .ok (.at_ key _) => s.homeStore x key (leBytes n v.toNat)
  | _ => s.discard x lane va
def execStorePacket (k : Nat) (s : State) : Out :=
  onPacket k .store s (fun _ x s => s.storeOne k x 32 x.addr 4 x.data)
def execVectorStorePart (k : Nat) (s : State) : Out :=
  onPacket k .vStore s (fun _ x s => x.ents.foldl (fun s e => s.storeOne k x e.lane e.addr (vwBytes x.vw) e.d) s)
/-- What a load of one lane finds at the home: its value, or the fault. -/
inductive Found
  | val (v : BitVec 128) (rels : List (Nat × Nat))
  | fault (c : Cause)
  | poison
  deriving DecidableEq, Repr
def State.loadOne (s : State) (k : Nat) (x : Packet) (va : W64) (n : Nat) : Found :=
  match s.homeCheck k x .load va with
  | .ok (.at_ key _) =>
    if s.poisoned key n then .poison
    else .val (BitVec.ofNat 128 (leNat (s.load key n))) (((List.range n).map (fun i => fget [] s.relAt (key + i))).flatten.dedup)
  | .bad .prot _ => .fault .prot
  | _ => .fault .page
def execLoadPacket (k : Nat) (s : State) : Out :=
  onPacket k .load s (fun _ x s =>
    match s.loadOne k x x.addr (if x.w then 8 else 4) with
    | .val v r => s.sendReply k { replyTo k x with data := v, rels := r }
    | .fault c => s.sendFault k x ((lanesOf x.lmask).map (fun l => (l, x.addr, c)))
    | .poison => s.eccTroupe (s.wave x.wid).tid 4)
def execVectorLoadPart (k : Nat) (s : State) : Out :=
  onPacket k .vLoad s (fun _ x s =>
    let got := x.ents.map (fun e => (e, s.loadOne k x e.addr (vwBytes x.vw)))
    if got.any (fun g => g.2 == .poison) then s.eccTroupe (s.wave x.wid).tid 4
    else
      let ok := got.filterMap (fun g => match g.2 with | .val v r => some (g.1, v, r) | _ => none)
      let bad := got.filterMap (fun g => match g.2 with | .fault c => some (g.1.lane, g.1.addr, c) | _ => none)
      let rp := { replyTo k x with
        lmask := maskOf (ok.map (fun (g : VEntry × BitVec 128 × List (Nat × Nat)) => g.1.lane))
        ents := ok.map (fun (g : VEntry × BitVec 128 × List (Nat × Nat)) => ⟨g.1.lane, 0, g.2.1, 0⟩)
        rels := (ok.map (fun (g : VEntry × BitVec 128 × List (Nat × Nat)) => g.2.2)).flatten.dedup }
      (if ok.isEmpty then s else s.sendReply k rp).sendFault k x bad)

/-! ### Atomic handlers (R228, R369, R370) -/

/-- A micro-engine at work: its registers, the value to store, the value to reply with, whether it notifies. -/
structure Micro where
  regs : List W64
  store : Option W64
  reply : Option W64
  notify : Bool
  deriving DecidableEq, Repr
def Micro.get (u : Micro) (r : Nat) : W64 := if r = 7 then 0 else u.regs.getD r 0
def Micro.set (u : Micro) (r : Nat) (v : W64) : Micro := if r = 7 then u else { u with regs := u.regs.set r v }
/-- Operations at the handler's width. -/
def fmtW (w : Bool) : Fmt := if w then fmt64 else fmt32
def microStep (w : Bool) (c : W16) (u : Micro) : Micro :=
  let n := c.toNat
  let d := nbits n 10 8
  let tr := atomTrim w
  let x := tr (u.get (nbits n 7 5))
  let y := tr (u.get (nbits n 4 2))
  let i5 : W64 := (BitVec.ofNat 5 (nbits n 4 0)).signExtend 64
  let put := fun (v : W64) => u.set d (tr v)
  let op := fun (o : AtomOp) => put (atomNew o w x y)
  match nbits n 15 11 with
  | 1 => put x
  | 2 => put (x + y)
  | 3 => put (x - y)
  | 4 => put (x &&& y)
  | 5 => put (x ||| y)
  | 6 => put (x ^^^ y)
  | 7 => op .minS
  | 8 => op .minZ
  | 9 => op .maxS
  | 10 => op .maxZ
  | 11 => op .fadd
  | 12 => put (BitVec.ofNat 64 (fMinMax (fmtW w) false x.toNat y.toNat).1)
  | 13 => put (BitVec.ofNat 64 (fMinMax (fmtW w) true x.toNat y.toNat).1)
  | 14 => put (if x = y then 1 else 0)
  | 15 => put (if (if w then x.slt y else (lo32 x).slt (lo32 y)) then 1 else 0)
  | 16 => put (if x.ult y then 1 else 0)
  | 17 => put (if tr (u.get d) ≠ 0 then x else y)
  | 18 => put (x + i5)
  | 19 => put (x <<< nbits n 4 0)
  | 20 => put (x >>> nbits n 4 0)
  | 21 => { u with store := some x }
  | 22 => { u with reply := some x }
  | 23 => { u with notify := true }
  | _ => u
def microRun (w : Bool) : List W16 → Micro → Micro
  | [], u => u
  | c :: cs, u => if c.toNat / 2 ^ 11 = 0 then u else microRun w cs (microStep w c u)
/-- What a handler leaves at the address, if it writes, and what it replies. -/
def Pkg.handler (p : Pkg) (hnd : Nat) (w : Bool) (m a b : W64) : Option W64 × W64 :=
  let tr := atomTrim w
  let at_ := fun (o : AtomOp) => (some (atomNew o w m (tr a)), m)
  match hnd with
  | 0 => at_ .add
  | 1 => at_ .fadd
  | 2 => at_ .minS
  | 3 => at_ .minZ
  | 4 => at_ .maxS
  | 5 => at_ .maxZ
  | 6 => (some (BitVec.ofNat 64 (fMinMax (fmtW w) false m.toNat (tr a).toNat).1), m)
  | 7 => (some (BitVec.ofNat 64 (fMinMax (fmtW w) true m.toNat (tr a).toNat).1), m)
  | 8 => at_ .and
  | 9 => at_ .or
  | 10 => at_ .xor
  | 11 => at_ .xch
  | 12 => (some (casNew m (tr a) (tr b)), m)
  | 13 => at_ .inc
  | 14 => (some (tr (m + 1)), m)
  | 15 => at_ .add
  | h =>
    match flook p.fab.hnds h with
    | none => (none, m)
    | some img =>
      let u := microRun w img ⟨[m, tr a, tr b, 0, 0, 0, 0, 0], none, none, false⟩
      (u.store, u.reply.getD m)
/-- Run a handler on bytes at the home: the value it replies with, and the state after. -/
def State.runHandler (s : State) (k : Nat) (x : Packet) (key : Nat) (a b : W64) : W64 × State :=
  let n := if x.w then 8 else 4
  let s1 := s.settleRange key n
  let m := BitVec.ofNat 64 (leNat (s1.load key n))
  let r := (s.pkg k).handler x.hnd x.w m a b
  match r.1 with
  | none => (r.2, s1)
  | some v =>
    let before := fget [] s1.relAt key
    let s2 := s1.store key (leBytes n v.toNat)
    let rels := before ++ x.rels
    (r.2, if rels.isEmpty then s2 else { s2 with relAt := markRel s2.relAt key n rels })
def execAtomicPacket (k : Nat) (s : State) : Out :=
  onPacket k .atomic s (fun _ x s =>
    match s.homeCheck k x .atom x.addr with
    | .ok (.at_ key _) =>
      if s.poisoned key 8 then s.eccTroupe (s.wave x.wid).tid 4
      else
        let r := s.runHandler k x key (x.data.setWidth 64) (x.data.extractLsb' 64 64)
        if x.ret then r.2.sendReply k { replyTo k x with data := r.1.setWidth 128 } else r.2
    | _ => (s.discard x 32 x.addr).sendFault k x (if x.ret then (lanesOf x.lmask).map (fun l => (l, x.addr, .none)) else []))
/-- One entry of a vector atomic part. -/
structure VDone where
  s : State
  vals : List VEntry
  bad : List (Nat × W64 × Cause)
  rels : List (Nat × Nat)
def vAtomStep (k : Nat) (x : Packet) (acc : VDone) (e : VEntry) : VDone :=
  match acc.s.homeCheck k x (if x.ret then .atom else .red) e.addr with
  | .ok (.at_ key _) =>
    let rels := fget [] acc.s.relAt key
    let r := acc.s.runHandler k x key (e.d.setWidth 64) e.e
    { acc with s := r.2, vals := acc.vals ++ [⟨e.lane, 0, r.1.setWidth 128, 0⟩], rels := acc.rels ++ rels }
  | _ => { acc with s := acc.s.discard x e.lane e.addr, bad := acc.bad ++ (if x.ret then [(e.lane, e.addr, .none)] else []) }
def execVectorAtomicPart (k : Nat) (s : State) : Out :=
  onPacket k .vAtomic s (fun _ x s =>
    if x.ents.any (fun e => match s.homeCheck k x (if x.ret then .atom else .red) e.addr with | .ok (.at_ key _) => s.poisoned key (if x.w then 8 else 4) | _ => false) then
      s.eccTroupe (s.wave x.wid).tid 4
    else
    let r := x.ents.foldl (vAtomStep k x) ⟨s, [], [], []⟩
    if !x.ret then r.s
    else
      let s1 := if r.vals.isEmpty then r.s
        else r.s.sendReply k { replyTo k x with lmask := maskOf (r.vals.map (fun e => e.lane)), ents := r.vals, rels := r.rels.dedup }
      s1.sendFault k x r.bad)

end Sys2Proof.Machine
end

