-- ==== Sys2Proof/Machine/Control.lean ====
section
/-! DEFINITION. Branches and calls, traps, waits, and the rejoin sets (R158 to R165). -/

namespace Sys2Proof.Machine

/-- The packet that holds the issuing instruction (R80). -/
def State.packet (s : State) : Nat := s.cur.pc.toNat / 12 * 12

/-- Lanes take a branch to their targets; they belong to the group no longer (R85). A lane that another member of the
group has parked goes on at its target when it is released. -/
def State.branch (s : State) (ls : List Nat) (target : Nat → W64) : State :=
  let s1 := s.updLanes s.cur.wid ls (fun n l =>
    if l.st = .run then { l with pc := target n } else { l with nextPc := target n })
  { s1 with cur := { s1.cur with moved := s1.cur.moved ||| maskOf ls } }
/-- The link of a call reaches its register after the I-pipe latency (R87, R158). -/
def State.link (s : State) (ls : List Nat) (d : Reg) : State :=
  let v := BitVec.ofNat 64 (s.packet + 12)
  let id := s.nextId
  ({ s with nextId := s.nextId + 1 }).updLanes s.cur.wid ls (fun _ l => l.send (latI.due s.clock) id (outs64 d v))

/-- Lanes of the path that take an FB branch: the condition is examined in each (R82). -/
def State.takers (s : State) (neg : Bool) (p : Reg) : List Nat :=
  (lanesOf s.cur.lanes).filter (fun l => (s.lane s.cur.wid l).pred p.toNat ^^ neg)
/-- The target of an FB branch (R82). -/
def State.fbTarget (s : State) (o : BitVec 13) : W64 := BitVec.ofInt 64 (s.packet + 12 * o.toInt)

def execBra (_ : Mods) (o : BitVec 13) (n : Bool) (p : Reg) (s : State) : Out :=
  .next (finish (s.branch (s.takers n p) (fun _ => s.fbTarget o)) [])
def execCall (_ : Mods) (o : BitVec 13) (n : Bool) (p : Reg) (s : State) : Out :=
  .next (finish ((s.link (s.takers n p) 0).branch (s.takers n p) (fun _ => s.fbTarget o)) [])

/-- A register branch: each active lane goes to its own target, or stops with TARGET (R159, R160). -/
def branchTo (s : State) (m : Mods) (link : Option Reg) (target : Nat → Option W64) : Out :=
  let good := (s.activeLanes m).filter (fun l => (target l).isSome)
  let bad := (s.activeLanes m).filter (fun l => (target l).isNone)
  let s1 := match link with | some d => s.link good d | none => s
  .next (finish (s1.branch good (fun l => (target l).getD 0)) (bad.map (fun l => s.ill l .target)))
/-- The target in a pair: a packet start (R82). -/
def State.pairTarget (s : State) (a : Reg) (l : Nat) : Option W64 :=
  let t := s.src64 s.cur.wid l a
  if t.toNat % 12 = 0 then some t else none
def execJmp (m : Mods) (a : Reg) (s : State) : Out := branchTo s m none (s.pairTarget a)
def execRet (m : Mods) (a : Reg) (s : State) : Out := branchTo s m none (s.pairTarget a)
def execCallr (m : Mods) (d a : Reg) (s : State) : Out := branchTo s m (some d) (s.pairTarget a)
def execBrx (m : Mods) (a : Reg) (s : State) : Out :=
  branchTo s m none (fun l =>
    let k := (s.src s.cur.wid l a).toNat
    if 4094 < k then none else some (BitVec.ofNat 64 (s.packet + 12 * (1 + k))))

/-! ### Traps and waits (R162, R163) -/

/-- A trap of the active lanes that completes its group (R162, R240, R306). -/
def trapAll (s : State) (m : Mods) (c : Cause) (code : W16) : State :=
  finish s ((s.activeLanes m).map (fun l => ⟨l, c, 0, code, 0, true, s.cur.memb, s.cur.pc⟩))
def execTrap (m : Mods) (n : Reg) (s : State) : Out := .next (trapAll s m .trap (n.setWidth 16))
def execBrk (m : Mods) (s : State) : Out := .next (trapAll s m .brk 0)
def execNop (_ : Mods) (s : State) : Out := .next (finish s [])

/-- The waves of a core's quad other than `w` that have a lane in RUN (R163). -/
def State.quadOthers (s : State) (w : Nat) : List Nat :=
  let v := s.wave w
  let t := s.troupe v.tid
  (s.waves.filter (fun (e : Nat × Wave) =>
    let u := s.troupe e.2.tid
    e.1 != w && u.pkg == t.pkg && u.core == t.core && u.st == .resident && e.2.quad == v.quad && !e.2.ended &&
      e.2.lanesWhere (fun l => l.st == .run) != 0)).map (·.1)
def execYield (m : Mods) (s : State) : Out :=
  .next (finish (if s.someActive m then
      s.modWave s.cur.wid (fun v => { v with yield := some ⟨s.clock + 64, 0, s.quadOthers s.cur.wid⟩ })
    else s) [])
def execPause (m : Mods) (s : State) : Out :=
  .next (finish (if s.someActive m then s.stall 64 else s) [])
/-- `wsb`: the path goes on, and its lanes issue again when nothing is owed to any of them. -/
def execWsb (m : Mods) (s : State) : Out :=
  .next (finish (if s.someActive m then s.updLanes s.cur.wid (lanesOf s.cur.lanes) (fun _ l => { l with wsb := true }) else s) [])

/-- Lanes park at their instruction, to go on after their group, or at the target of a branch that they have taken in it. -/
def State.parkLanes (s : State) (ls : List Nat) (st : LaneSt) : State :=
  s.updLanes s.cur.wid ls (fun n l =>
    { l with st := st, pc := s.cur.pc, nextPc := if s.cur.moved.getLsbD n then l.pc else s.cur.npc })

/-! ### Rejoin sets (R24 to R26, R164) -/

/-- Change set `n` for the active lanes, then check every set. -/
def rejoin (s : State) (m : Mods) (f : Wave → LaneMask → Wave) : State :=
  s.modWave s.cur.wid (fun v => (f v (maskOf (s.activeLanes m))).releaseAll)
def execRjEnter (m : Mods) (n : BitVec 4) (s : State) : Out :=
  .next (finish (rejoin s m (fun v l => v.setMask n (v.mask n ||| l))) [])
def execRjQuit (m : Mods) (n : BitVec 4) (s : State) : Out :=
  .next (finish (rejoin s m (fun v l => v.setMask n (v.mask n &&& ~~~ l))) [])
/-- Members park at the `rj.wait`, to go on after its group; then the sets and ORPHAN are checked. The path has
gone on before the check, so a lane that a release frees goes on from its own wait. -/
def execRjWait (m : Mods) (n : BitVec 4) (s : State) : Out :=
  let stay := maskOf (s.activeLanes m) &&& s.curWave.mask n
  let s2 := (finish (s.parkLanes (lanesOf stay) (.join n)) []).modWave s.cur.wid (fun v => v.releaseAll)
  .next (if s.cur.grouped || !s2.cur.stops.isEmpty then s2 else settle s2 s.cur.wid)
def execRjGet (m : Mods) (d : Reg) (n : BitVec 4) (s : State) : Out :=
  if s.someActive m then lane32 s m latI d (fun _ => s.curWave.mask n) else .next (finish s [])
/-- A set's count as software sees it (R24, R312). -/
def Wave.heldCnt (v : Wave) (n : BitVec 4) : Nat := if v.handler then 0 else v.wcnt n
/-- `rj.set` and `rj.clr` refuse a set with parked lanes (R24, JBUSY), but in a handler, where every count reads 0 (R312). -/
def rejoinWrite (s : State) (m : Mods) (n : BitVec 4) (v : LaneMask) : Out :=
  match s.elected m with
  | none => .next (finish s [])
  | some _ =>
    if s.curWave.heldCnt n ≠ 0 then .next (refuse s m .jbusy)
    else .next (finish (rejoin s m (fun w _ => w.setMask n v)) [])
def execRjSet (m : Mods) (d : Reg) (n : BitVec 4) (s : State) : Out :=
  rejoinWrite s m n (s.src s.cur.wid ((s.elected m).getD 0) d &&& s.curWave.live)
def execRjClr (m : Mods) (n : BitVec 4) (s : State) : Out := rejoinWrite s m n 0

end Sys2Proof.Machine
end

