-- ==== Sys2Proof/Machine/Barrier.lean ====
section
/-! DEFINITION. The troupe and corps barriers (R166 to R169), partner queues (R34 to R37, R170), register allotment (R30 to
R33, R236), results that reach their registers (R87 to R89), and the ends of waits (R35, R163, R195, R198, R234). -/

namespace Sys2Proof.Machine

/-! ### Waves of a troupe -/

def Corps.none : Corps := ⟨0, 0, 0, 0, [], 0, 0, false⟩
def State.corpsRec (s : State) (c : Nat) : Corps := fget Corps.none s.corps c
def State.modCorps (s : State) (c : Nat) (f : Corps → Corps) : State := { s with corps := fput s.corps c (f (s.corpsRec c)) }
/-- The compute waves of a troupe that have not ended, by number. -/
def State.liveWaves (s : State) (tid : Nat) : List Nat :=
  (s.waves.filter (fun (e : Nat × Wave) => e.2.tid == tid && !e.2.part && !e.2.ended)).map (fun (e : Nat × Wave) => e.1)
/-- Whether the path holds every live lane of its wave. -/
def State.wholeWave (s : State) : Bool := s.cur.path == s.curWave.live
/-- The path's lanes park at a barrier. -/
def State.park (s : State) (st : LaneSt) : State := s.parkLanes (lanesOf s.cur.lanes) st
/-- Lanes parked at a barrier go on after it, and so will those whose park a stop holds aside: their TRAPPC moves with them
where it named the barrier and no handler has written it (R167, R312). -/
def Lane.freeFrom (st : LaneSt) (l : Lane) : Lane :=
  let l1 := if l.prior = st && l.st != .exit then
      { l with prior := .run, resume := l.heldNext, trapPc := if l.trapPc = l.resume && !l.movedPc then l.heldNext else l.trapPc }
    else l
  if l1.st = st then { l1 with st := .run, pc := l1.nextPc } else l1
def State.freeLanes (s : State) (w : Nat) (st : LaneSt) : State :=
  s.updLanes w (List.range 32) (fun _ l => l.freeFrom st)

/-! ### The troupe barrier (R167) -/

def setBit16 (m : BitVec 16) (i : Nat) (b : Bool) : BitVec 16 := if b then m ||| (1#16 <<< i) else m &&& ~~~ (1#16 <<< i)
/-- The completion check. -/
def State.checkTbar (s : State) (tid : Nat) : State :=
  let ws := s.liveWaves tid
  let t := s.troupe tid
  if ws.isEmpty ∨ t.arvcnt ≠ ws.length then s
  else
    let s1 := s.modTroupe tid (fun t => { t with phase := !t.phase, arvcnt := 0, waitmask := 0 })
    ws.foldl (fun s w => (s.modWave w (fun v => { v with tarv := false })).freeLanes w .barT) s1
def State.arriveT (s : State) : State :=
  (s.modWave s.cur.wid (fun v => { v with tarv := true })).modTroupe s.curTid (fun t => { t with arvcnt := t.arvcnt + 1 })
def State.parkT (s : State) : State :=
  (s.park .barT).modTroupe s.curTid (fun t => { t with waitmask := setBit16 t.waitmask s.curWave.wix true })
/-- The checks that all six instructions share (R166). -/
def barrierGo (s : State) (m : Mods) (go : State → State) : Out :=
  .next (if !s.someActive m then finish s []
    else if s.curWave.part then refuse s m .partner
    else if !s.wholeWave then refuse s m .partial_
    else go s)
/-- An arrival is a release at its scope, and a second one before the phase completes is refused. -/
def arrival (i : Instr) (s : State) (m : Mods) (done : Bool) (sc : Scope) (go : State → State) : State :=
  if done then refuse s m .barseq else if s.relWait sc then waitAt s i else go s
def execTbar (m : Mods) (s : State) : Out :=
  barrierGo s m (fun s => arrival (.tbar m) s m s.curWave.tarv .core (fun s =>
    (finish s.arriveT.parkT []).checkTbar s.curTid))
def phaseOuts (d : Reg) (b : Bool) : List (Dst × W32) := outs32 d ((BitVec.ofBool b).setWidth 32)
def execTbarArv (m : Mods) (d : Reg) (s : State) : Out :=
  barrierGo s m (fun s => arrival (.tbarArv m d) s m s.curWave.tarv .core (fun s =>
    (finish (sendAll s.arriveT m .owed d 1 (phaseOuts d s.curTroupe.phase)) []).checkTbar s.curTid))
/-- The phase that the lowest active lane waits on. -/
def State.phaseArg (s : State) (m : Mods) (a : Reg) : Bool := (s.src s.cur.wid ((s.elected m).getD 0) a).getLsbD 0
def execTbarWt (m : Mods) (a : Reg) (s : State) : Out :=
  barrierGo s m (fun s =>
    if s.phaseArg m a != s.curTroupe.phase then finish s []
    else if s.curWave.tarv then (finish s.parkT []).checkTbar s.curTid
    else refuse s m .barseq)

/-! ### The corps barrier (R168) -/

/-- A troupe has arrived when every one of its live waves has. -/
def State.troupeArrived (s : State) (tid : Nat) : Bool :=
  let ws := s.liveWaves tid
  !ws.isEmpty && ws.all (fun w => (s.wave w).carv)
/-- The completion check: a phase acquires at cluster scope in every core that takes part (R169). -/
def State.checkCbar (s : State) (c : Nat) : State :=
  let r := s.corpsRec c
  if r.clive = 0 ∨ r.carr ≠ r.clive then s
  else
    let s1 := s.modCorps c (fun r => { r with cphase := !r.cphase, carr := 0 })
    r.troupes.foldl (fun s tid =>
      let ws := s.liveWaves tid
      let s2 := ws.foldl (fun s w => (s.modWave w (fun v => { v with carv := false })).freeLanes w .barC) s
      if ws.isEmpty then s2 else s2.emptyLines (s.troupe tid).pkg (s.troupe tid).core) s1
/-- A wave arrives; its troupe does when it was the last. -/
def State.arriveC (s : State) : State :=
  let s1 := s.modWave s.cur.wid (fun v => { v with carv := true })
  if s1.troupeArrived s.curTid then s1.modCorps s.curTroupe.corps (fun r => { r with carr := r.carr + 1 }) else s1
def execCbar (m : Mods) (s : State) : Out :=
  barrierGo s m (fun s => arrival (.cbar m) s m s.curWave.carv .clu (fun s =>
    (finish (s.arriveC.park .barC) []).checkCbar s.curTroupe.corps))
def execCbarArv (m : Mods) (d : Reg) (s : State) : Out :=
  barrierGo s m (fun s => arrival (.cbarArv m d) s m s.curWave.carv .clu (fun s =>
    (finish (sendAll s.arriveC m .owed d 1 (phaseOuts d (s.corpsRec s.curTroupe.corps).cphase)) []).checkCbar s.curTroupe.corps))
def execCbarWt (m : Mods) (a : Reg) (s : State) : Out :=
  barrierGo s m (fun s =>
    if s.phaseArg m a != (s.corpsRec s.curTroupe.corps).cphase then finish (s.acquireLines .clu) []
    else if s.curWave.carv then (finish (s.park .barC) []).checkCbar s.curTroupe.corps
    else refuse s m .barseq)

/-! ### Partner queues (R34 to R37, R170) -/

def Wave.q (v : Wave) (l : Nat) : List W32 := fget [] v.queue l
def Wave.setQ (v : Wave) (l : Nat) (q : List W32) : Wave := { v with queue := fset [] v.queue l q }
/-- Every live lane of a compute wave waits in `qpop` on an empty queue whose partner lane has exited (R36). -/
def State.qOrphan (s : State) (w : Nat) : Bool :=
  let v := s.wave w
  let p := s.wave (partnerOf w)
  v.live != 0 && !v.stopped && (lanesOf v.live).all (fun l =>
    (v.q l).isEmpty && (p.lane l).st == .exit &&
    v.waits.any (fun r => r.lanes.getLsbD l && (match r.instr with | .qpop m _ => m.active (v.lane l) | _ => false)))
def State.checkQ (s : State) (w : Nat) : State :=
  if s.qOrphan w then takeStop s w ((lanesOf (s.wave w).live).map (fun l => ⟨l, .orphan, 0, 0, 0, false, 0, 0⟩)) else s
def execQpush (m : Mods) (d : Reg) (s : State) : Out :=
  let ls := s.activeLanes m
  let cw := partnerOf s.cur.wid
  if ls.isEmpty then .next (finish s [])
  else if !s.curWave.part then .next (refuse s m .partner)
  else
    let live := ls.filter (fun l => ((s.wave cw).lane l).st != .exit)
    if live.any (fun l => 8 ≤ ((s.wave cw).q l).length) then .next (waitAt s (.qpush m d))
    else .next (finish (s.modWave cw (fun v => live.foldl (fun v l => v.setQ l (v.q l ++ [s.src s.cur.wid l d])) v)) [])
def execQpop (m : Mods) (d : Reg) (s : State) : Out :=
  let ls := s.activeLanes m
  let v := s.curWave
  if !ls.isEmpty && (v.part || s.curTroupe.hdr.pentry == 0) then .next (refuse s m .partner)
  else if ls.any (fun l => (v.q l).isEmpty) then .next ((waitAt s (.qpop m d)).checkQ s.cur.wid)
  else
    let id := s.nextId
    let s1 := ({ s with nextId := id + 1 }).updLanes s.cur.wid (lanesOf s.cur.lanes) (fun l x =>
      if m.active x then x.send none id (outs32 d ((v.q l).headD 0))
      else if m.zero then x.send none id (zeroOuts (dstRegs d 1)) else x)
    .next (finish (s1.modWave s.cur.wid (fun v => ls.foldl (fun v l => v.setQ l (v.q l).tail) v)) [])

/-! ### Register allotment (R30 to R33, R236) -/

/-- Granules that a wave holds. -/
def State.granules (s : State) (v : Wave) : Nat :=
  v.allot / 8 + 1 + (if !v.part && (s.troupe v.tid).hdr.pentry != 0 then 1 else 0)
/-- The waves that hold granules of a core. -/
def State.holders (s : State) (k core : Nat) : List (Nat × Wave) :=
  s.waves.filter (fun (e : Nat × Wave) =>
    let t := s.troupe e.2.tid
    !e.2.ended && t.pkg == k && t.core == core && t.st == .resident)
def State.freeGranules (s : State) (k core : Nat) : Nat :=
  512 - ((s.holders k core).map (fun (e : Nat × Wave) => s.granules e.2)).sum
/-- A wave's wait for its request is over. -/
def State.growDone (s : State) (w : Nat) : State :=
  match (s.wave w).waits.find? (fun r => match r.instr with | .regGrow _ _ => true | _ => false) with
  | some r => s.releaseWait w r
  | none => s
/-- The waiting corps for which a cluster holds back every other request, by its launch: the oldest that has counted 16
bypasses (R300). -/
def Pkg.holder (p : Pkg) (clus : Nat) : Option Nat :=
  ((sortBy (fun (e : Nat × CorpsWait) => e.2.seq) ((p.sched.launches.map (fun (e : Nat × Launch) =>
    (e.2.wait.toList ++ e.2.waitSaved.toList).map (fun w => (e.1, w)))).flatten.filter (fun e =>
      e.2.clus == clus && 16 ≤ e.2.bypass))).head?).map (fun e => e.1)
/-- The granules of a core that may be granted: what is freed while its cluster holds for a corps is held for it. -/
def State.grantable (s : State) (k core : Nat) : Nat :=
  if ((s.pkg k).holder (clusterOf core)).isSome then min (s.freeGranules k core) (s.core k core).spare else s.freeGranules k core
/-- Grants in order of request; the first that does not fit holds back the rest. -/
def grantGo (k core : Nat) : Nat → State → State
  | 0, s => s
  | f + 1, s =>
    match (s.core k core).grantQ with
    | [] => s
    | (w, t) :: rest =>
      let n := t / 8 - (s.wave w).allot / 8
      if s.grantable k core < n then s
      else
        let s1 := s.modCore k core (fun c => { c with grantQ := rest, spare := c.spare - n })
        grantGo k core f ((s1.modWave w (fun v => { v with allot := max v.allot t })).growDone w)
/-- When every wave that holds granules waits for more, the youngest request is withdrawn with a fault. -/
def deadGo (k core : Nat) : Nat → State → State
  | 0, s => s
  | f + 1, s =>
    let q := (s.core k core).grantQ
    if !q.isEmpty && (s.holders k core).all (fun (e : Nat × Wave) => q.any (fun g => g.1 == e.1)) then
      match q.getLast? with
      | none => s
      | some g =>
        let memb := ((s.wave g.1).waits.findSome? (fun r => match r.instr with | .regGrow _ _ => some r.memb | _ => none)).getD 0
        deadGo k core f (takeStop s g.1 ((lanesOf (s.wave g.1).live).map (fun l => ⟨l, .regdead, 0, 0, 0, false, memb, (s.lane g.1 l).pc⟩)))
    else s
/-- Freed granules are offered to the head of the core's queue at once. -/
def State.grant (s : State) (k core : Nat) : State := deadGo k core 32 (grantGo k core 32 s)
def execRegGrant (n : Nat) (s : State) : Out := .next (s.grant (n / 1024) (n % 1024))
def allotGo (s : State) (m : Mods) (n : Reg) (go : Nat → State) : Out :=
  .next (if !s.someActive m then finish s []
    else if s.curWave.part then refuse s m .partner
    else if n.toNat % 8 ≠ 0 ∨ n.toNat < 8 ∨ 120 < n.toNat then refuse s m .range
    else if !s.wholeWave then refuse s m .partial_
    else go n.toNat)
def execRegGrow (m : Mods) (n : Reg) (s : State) : Out :=
  allotGo s m n (fun t =>
    if t ≤ s.curWave.allot then finish s []
    else
      let k := s.curPkg
      let core := s.curTroupe.core
      let s1 := waitAt s (.regGrow m n)
      if (s.core k core).grantQ.any (fun g => g.1 == s.cur.wid) then s1
      else (s1.modCore k core (fun c => { c with grantQ := c.grantQ ++ [(s.cur.wid, t)] })).grant k core)
/-- Registers above the target are lost, and what is still owed to them is discarded when it comes. -/
def Lane.cut (l : Lane) (t : Nat) : Lane :=
  { l with g := l.g.filter (fun (e : Nat × W32) => e.1 < t)
           pend := l.pend.filter (fun e => match e.dst with | .g r => r.toNat < t | .p _ => true) }
def execRegShrink (m : Mods) (n : Reg) (s : State) : Out :=
  allotGo s m n (fun t =>
    if s.curWave.allot ≤ t then finish s []
    else
      let s1 := s.modWave s.cur.wid (fun v => { (v.upd (List.range 32) (fun _ l => l.cut t)) with allot := t })
      (finish s1 []).grant s.curPkg s.curTroupe.core)

/-! ### Results reach their registers (R87 to R89) -/

def execFixedLatencyResult (w : Nat) (s : State) : Out :=
  .next (s.updLanes w (List.range 32) (fun _ l => l.land (Pend.isDue (s.clockOf w))))
def execScoreboardWrite (w l g : Nat) (s : State) : Out :=
  .next (s.updLanes w [l] (fun _ x => x.land (fun e => e.tag == g && e.due.isNone && e.got)))
/-- Stall and pause counts that have passed (R86, R163). -/
def Wave.ready (v : Wave) (now : Nat) : Wave := v.upd (List.range 32) (fun _ l => if l.readyAt ≤ now then { l with readyAt := 0 } else l)
def execStallWaitExpiry (w : Nat) (s : State) : Out := .next (s.modWave w (fun v => v.ready (s.clockOf w)))
def execPauseExpiry (w : Nat) (s : State) : Out := .next (s.modWave w (fun v => v.ready (s.clockOf w)))
/-- A yield ends (R163): after the others' selections, 8 selections, or 64 cycles. -/
def Yield.isOver (y : Yield) (now : Nat) : Bool := y.todo.isEmpty || 8 ≤ y.sels || y.till ≤ now
def execYieldRelease (w : Nat) (s : State) : Out :=
  .next (s.modWave w (fun v => match v.yield with
    | some y => if y.isOver (s.clockOf w) then { v with yield := none } else v
    | none => v))
/-- Walks in flight on a die; how many one walker keeps (R274). -/
def State.walksOf (s : State) (k die : Nat) : Nat := (s.walks.filter (fun r => r.started && !r.done && r.pkg == k && r.die == die)).length
def walkerDepth : Nat := 256
/-- A miss may start its walk: the die's walker has room and its budget credit (R275, R348). -/
def State.mayWalk (s : State) (r : Walk) : Bool :=
  !r.started && s.walksOf r.pkg r.die < walkerDepth && (s.pkg r.pkg).mayStart (paceWalk r.die)
/-- The first miss that may start its walk, and the state with it started; none where none may. -/
def startFirst (f : Walk → Bool) : List Walk → Option (Walk × List Walk)
  | [] => none
  | r :: l => if f r then some (r, { r with started := true } :: l) else (startFirst f l).map (fun e => (e.1, r :: e.2))
def State.startWalk (s : State) : Option State :=
  (startFirst s.mayWalk s.walks).map (fun e => { s with walks := e.2 }.modPkg e.1.pkg (fun p => p.spend (paceWalk e.1.die) 1))
/-- A walk completes: what it has read stays with the walker, its answer enters the caches of the die and of every core that has
joined it, and its waves need wait for it no more (R274, R275). -/
def State.walkDone (s : State) (r : Walk) : State :=
  let v := BitVec.ofNat 64 (r.page * 2 ^ 16)
  let s1 := r.cores.foldl (fun s c => s.fillTlb r.pkg c r.ctx v) s
  let live := r.wids.filter (fun w => match flook s.waves w with | some x => !x.ended | none => false)
  let rest := s.walks.erase r
  { s1.fillWalker r.pkg r.die r.ctx v with
    walks := if live.isEmpty then rest else s.walks.map (fun x => if x = r then { x with wids := live, done := true } else x) }
def execPageWalkComplete (k e : Nat) (x : W32) (v : W64) (s : State) : Out :=
  match s.walks.find? (fun r => r.started && !r.done && r.is k (clusterOf e) x (pageNo v)) with
  | some r => .next (s.walkDone r)
  | none => .next s

/-! ### The ends of waits -/

/-- Take up the first wait of a wave for which an instruction has a meaning here and whose lanes are still its whole path; a
chained group acts as a whole, at its own issue. -/
def retry (s : State) (w : Nat) (f : Instr → Option (State → Out)) : Out :=
  match (s.wave w).waits.find? (fun r => !r.grouped && (s.wave w).waitWhole r && (f r.instr).isSome) with
  | none => .next s
  | some r => match f r.instr with
    | some go => go (s.resumeCur w r)
    | none => .next s
def execQueuePushDone (w : Nat) (s : State) : Out := retry s w (fun i => match i with | .qpush m d => some (execQpush m d) | _ => none)
def execQueuePopDone (w : Nat) (s : State) : Out := retry s w (fun i => match i with | .qpop m d => some (execQpop m d) | _ => none)
def execOwnTakeDone (w : Nat) (s : State) : Out := retry s w (fun i => match i with | .ownTake m a => some (execOwnTake m a) | _ => none)
def execRingWaitDone (w : Nat) (s : State) : Out := retry s w (fun i => match i with | .rngWait m d a => some (execRngWait m d a) | _ => none)
def execEvtWaitRecheck (w : Nat) (s : State) : Out := retry s w (fun i => match i with | .evtWt m a => some (execEvtWt m a) | _ => none)

end Sys2Proof.Machine
end

