-- ==== Sys2Proof/Machine/Det.lean ====
section
/-! DEFINITION. Deterministic launches (R400 to R409): flush points, deferred entries, write ranges; markers of a record
log (R239, R411, R412). -/

namespace Sys2Proof.Machine

/-! ### Flush points (R404, R405) -/

/-- The order of entries: troupe, wave, lane, sequence number. -/
def DetEntry.key (e : DetEntry) : Nat := ((e.tidx * 16 + e.wix) * 32 + e.lid) * 2 ^ 32 + e.lseq
/-- Operations that give one result in any order; the others are deferred. -/
def AtomOp.free : AtomOp → Bool | .inc => false | .fadd => false | _ => true
def State.detEntries (s : State) (tid : Nat) : List DetEntry :=
  let t := s.troupe tid
  sortBy DetEntry.key ((s.core t.pkg t.core).detBuf.filter (fun e => e.tid == tid))
/-- The part that carries an entry to its home (R184). -/
def State.detPart (s : State) (k h : Nat) (ctx : W32) (va : W64) (e : DetEntry) : State :=
  let x : Packet := { Packet.init with
    src := k
    dst := h
    kind := .vAtomic
    vw := if e.w then 3 else 2
    w := e.w
    hnd := AtomOp.hnd e.op
    lmask := laneBit e.lid
    ents := [⟨e.lid, va, e.d.setWidth 128, 0⟩]
    ctx := ctx
    wid := widOf e.tid e.wix false
    rels := if e.rel = some .core then [(podCore k (s.troupe e.tid).core, s.nextId)] else []
    born := s.nextId }
  s.modPkg k (fun p => p.sendDirect x)
/-- An entry performs: at its bank, or as a part on its way to its home. Its release takes effect now (R403). -/
def State.applyDet (s : State) (k : Nat) (ctx : W32) (e : DetEntry) : State :=
  match e.far with
  | some (h, va) => s.detPart k h ctx va e
  | none =>
    let core := (s.troupe e.tid).core
    let rel := if e.rel = some .core then some (podCore k core, s.nextId) else none
    (((s.update e.addr (atomBytes e.w) (fun m => atomNew e.op e.w m e.d) rel).2).dropCoreLines k core e.addr (atomBytes e.w)).modPkg k (fun p =>
      p.spend (paceBank (keyDie e.addr)) 1)
/-- Whether an entry that releases must wait: its wave's accesses before it have not performed at its scope (R250, R403). -/
def State.detBehind (s : State) (k : Nat) (e : DetEntry) : Bool :=
  match e.rel with
  | none => false
  | some sc => s.behind (widOf e.tid e.wix false) e.id sc.lvl || (sc == .pod && !(s.pkg k).quiet)
/-- Whether an entry can perform now: its bank is free and its die's budget allows it, or its home's queue has room. -/
def State.detReady (s : State) (k : Nat) (e : DetEntry) : Bool :=
  (match e.far with
   | some (h, _) => (s.pkg k).vqRoom h 3
   | none => !s.bankBusy e.addr) && !s.detBehind k e
def State.detPoison (s : State) (es : List DetEntry) : Bool := es.any (fun e => e.far.isNone && s.poisoned e.addr (atomBytes e.w))
/-- A part that a flush has sent has landed at its home. -/
def Pkg.detLanded (p : Pkg) (e : DetEntry) : Bool :=
  match e.far, e.sent with
  | some (h, _), some n => n ≤ (p.peer h).appliedD
  | _, _ => false
/-- Entries perform in key order, up to the first that cannot: those of this package at once, the others as parts, kept until
they have landed. Answers the entries that are left. -/
def State.applyAll (s : State) (k : Nat) (ctx : W32) : List DetEntry → List DetEntry × State
  | [] => ([], s)
  | e :: es =>
    if !s.detReady k e then (e :: es, s)
    else
      let s1 := s.applyDet k ctx e
      let r := s1.applyAll k ctx es
      match e.far with
      | some (h, _) => ({ e with sent := some ((s1.pkg k).peer h).sentD } :: r.1, r.2)
      | none => r

/-- What a flush by a troupe comes to: the deferred area is full, a unit it needs is poisoned, entries cannot perform yet or
are on their way as parts, or it is complete. -/
inductive Flush
  | full
  | poison
  | sent (s : State)
  | done (s : State)
  deriving DecidableEq, Repr
def Launch.defRoom (x : Launch) : Nat := x.defLen / 32 - x.deferred.length
def State.flush (s : State) (tid : Nat) : Flush :=
  let t := s.troupe tid
  let es := s.detEntries tid
  let now := es.filter (fun e => AtomOp.free e.op && e.sent.isNone)
  let later := es.filter (fun e => !AtomOp.free e.op)
  let out := es.filter (fun e => e.sent.isSome && !(s.pkg t.pkg).detLanded e)
  if (s.launch t.pkg t.launch).defRoom < later.length then .full
  else if s.detPoison now then .poison
  else
    let r := s.applyAll t.pkg t.ctx now
    let left := out ++ r.1
    let s2 := r.2.modCore t.pkg t.core (fun c => { c with detBuf := c.detBuf.filter (fun e => e.tid != tid) ++ left })
    let s3 := s2.modPkg t.pkg (fun p => p.modLaunch t.launch (fun x => { x with deferred := x.deferred ++ later }))
    if left.isEmpty then .done s3 else .sent s3
/-- `det.flush`: a release at package scope that is complete when every entry it applies has performed (R249, R404). -/
def execDetFlush (m : Mods) (s : State) : Out :=
  .next (if !s.someActive m || !s.curTroupe.hdr.det then finish s []
    else if s.relWait .pkg then waitAt s (.detFlush m)
    else match s.flush s.curTid with
      | .full => refuseWith s m .detrange 2 0
      | .poison => s.eccTroupe s.curTid 4
      | .sent s1 => waitAt s1 (.detFlush m)
      | .done s1 => finish s1 [])

/-- Troupes of a launch that have ended, published or not. -/
def State.endedOf (s : State) (k n : Nat) : Nat :=
  (s.troupes.filter (fun (e : Nat × Troupe) => e.2.pkg == k && e.2.launch == n && e.2.st == .ended)).length
/-- The deferred entries of a launch are applied in key order when every troupe has ended; those homed elsewhere stay until they
have landed. -/
def execDeferredApply (k n : Nat) (s : State) : Out :=
  let x := s.launch k n
  let now := sortBy DetEntry.key (x.deferred.filter (fun e => e.sent.isNone))
  let out := x.deferred.filter (fun e => e.sent.isSome && !(s.pkg k).detLanded e)
  if (flook (s.pkg k).sched.launches n).isNone || x.published + s.endedOf k n < x.rcd.ntrp then .next s
  else if s.detPoison now then .next (stopContext s k x.ctx .eccu 4 (s.firstLane k x.ctx).1 (s.firstLane k x.ctx).2)
  else
    let r := s.applyAll k x.ctx now
    .next (r.2.modPkg k (fun p => p.modLaunch n (fun x => { x with deferred := out ++ r.1 })))

/-! ### Write ranges (R239, R406) -/

def execDetRng (m : Mods) (a : Reg) (s : State) : Out :=
  match s.elected m with
  | none => .next (finish s [])
  | some e =>
    let b := s.block e a 4
    let sp := bf b 3 4 3
    if bf b 3 31 5 ≠ 0 ∨ sp = 1 ∨ sp = 3 then .next (refuse s m .param)
    else if !s.curTroupe.hdr.det then .next (finish s [])
    else if s.curTroupe.lock then .next (refuse s m .detmode)
    else
      let r : DRange := ⟨if sp = 0 then .g else .b, bd b 0, (bw b 2).toNat⟩
      .next (finish (s.modTroupe s.curTid (fun t => { t with ranges := fput t.ranges (bf b 3 2 0) r })) [])

/-! ### Markers (R239, R410 to R412) -/

def execRecMark (m : Mods) (a : Reg) (s : State) : Out :=
  match s.elected m with
  | none => .next (finish s [])
  | some e =>
    let t := s.curTroupe
    let v := (s.src s.cur.wid e a).toNat
    if s.logUse = .plain then .next (finish s [])
    else match s.logAsk e 0 0 4 v 0 with
      | .wait => .next (waitAt s (.recMark m a))
      | .stop sub => .next (faultElected s m .rpdiv sub 0)
      | .go ent =>
        let n := (s.lane s.cur.wid e).rseq
        let s1 := s.updLanes s.cur.wid [e] (fun _ l => { l with rseq := l.rseq + 1 })
        .next (finish (match ent with
          | some i => s1.logConsume t.pkg t.launch i
          | none => s1.logPut t.pkg t.launch ⟨t.tidx, s.curWave.wix, e, 0, 0, 4, n, v⟩) [])
/-- A lane of a replay that still has an entry of its own (R412). -/
def State.unreplayed (s : State) (l : Nat) : Bool :=
  let t := s.curTroupe
  let x := s.launch t.pkg t.launch
  s.logUse == .replay &&
  (let rd := s.logWord t.pkg t.launch 4
   let m := min x.logLen ((s.logWord t.pkg t.launch 0 + 2 ^ 32 - rd) % 2 ^ 32)
   ((List.range m).map (fun i => (rd + i) % 2 ^ 32)).any (fun i =>
     let e := s.logEnt t.pkg t.launch i
     e.tidx == t.tidx && e.wix == s.curWave.wix && e.lid == l && !x.used.contains i &&
     !(s.pkg t.pkg).bankQ.any (fun b => b.ent == some i && b.launch == t.launch)))

end Sys2Proof.Machine
end

