-- ==== Sys2Proof/Machine/Ending.lean ====
section
/-! DEFINITION. Ending lanes, waves and troupes (R11, R36, R37, R161, R167, R168), with what a deterministic or replayed
launch asks of an `exit` (R405, R412). -/

namespace Sys2Proof.Machine

/-- Lanes end: they leave every rejoin set and are owed nothing. -/
def Wave.exitLanes (v : Wave) (ls : List Nat) : Wave :=
  let v1 := v.upd ls (fun _ l => { l with st := .exit, prior := .exit, pend := [], waiting := false })
  { v1 with sets := fall v1.sets (fun _ m => m &&& ~~~ maskOf ls), queue := v1.queue.filter (fun (e : Nat × List W32) => v1.part || !ls.contains e.1) }
/-- A compute wave is over: its part in the barriers is settled, its partner ends with it, and its troupe when it was
the last. -/
def State.endWave (s : State) (w : Nat) : State :=
  let v := s.wave w
  let tid := v.tid
  let t := s.troupe tid
  if v.part then s.modWave w (fun v => { v with ended := true, waits := [] })
  else
    let had := s.troupeArrived tid
    let s1 := { s with waves := fall s.waves (fun n x =>
      if n = w then { x with ended := true, waits := [], tarv := false, carv := false }
      else if n = partnerOf w ∧ t.hdr.pentry ≠ 0 then { (x.exitLanes (List.range 32)) with ended := true, waits := [] }
      else x) }
    let s2 := if v.tarv then s1.modTroupe tid (fun t => { t with arvcnt := t.arvcnt - 1 }) else s1
    let left := s2.liveWaves tid
    if left.isEmpty then
      let s3 := s2.modTroupe tid (fun t => { t with st := .ended })
      (s3.modCorps t.corps (fun c => { c with clive := c.clive - 1, carr := if had then c.carr - 1 else c.carr })).checkCbar t.corps
    else
      let s3 := if !had && s2.troupeArrived tid then s2.modCorps t.corps (fun c => { c with carr := c.carr + 1 }) else s2
      (s3.checkTbar tid).checkCbar t.corps
/-- Whether the end of these lanes ends the troupe. -/
def State.endsTroupe (s : State) (ls : List Nat) : Bool :=
  !s.curWave.part && s.curWave.live == maskOf ls && s.liveWaves s.curTid == [s.cur.wid]
/-- The lanes end, and all that follows from it. -/
def exitGo (s : State) (ls : List Nat) (stops : List StopRec) : State :=
  let w := s.cur.wid
  let s1 := s.modWave w (fun v => (v.exitLanes ls).releaseAll)
  let s2 := if (s1.wave w).live = 0 then s1.endWave w else s1
  let s3 := finish s2 stops
  let s4 := if s.curWave.part then s3.checkQ (partnerOf w) else s3.checkQ w
  let s5 := if s.cur.grouped then s4 else settle s4 w
  s5.grant s.curPkg s.curTroupe.core
def execExit (m : Mods) (s : State) : Out :=
  let ls := s.activeLanes m
  let bad := ls.filter (fun l => s.unreplayed l)
  let go := ls.filter (fun l => !bad.contains l)
  let stops := bad.map (fun l => s.stopRec l .rpdiv 1 0)
  if ls.isEmpty then .next (finish s [])
  else if s.curTroupe.hdr.det && s.endsTroupe go then
    match s.flush s.curTid with
    | .full => .next (refuseWith s m .detrange 2 0)
    | .poison => .next (s.eccTroupe s.curTid 4)
    | .sent s1 => .next (waitAt s1 (.exit m))
    | .done s1 => .next (exitGo s1 go stops)
  else .next (exitGo s go stops)

end Sys2Proof.Machine
end

