-- ==== Sys2Proof/Machine/Arrays.lean ====
section
/-! DEFINITION. Operand-buffer windows (R208), the work that a core's matrix array has accepted (R215, R339) and its
configuration, planes, accumulator tiles and images (R216, R218 to R220, R223, R224, R335). -/

namespace Sys2Proof.Machine

/-! ### Windows (R208) -/

/-- Bytes of a native element, by window format. -/
def elemBytes (fmt : Nat) : Nat := if fmt < 2 then 2 else if fmt = 3 then 8 else 4
/-- Bits of an element in memory (R47, R56). -/
def codeBits (fmt : Nat) : Nat :=
  match fmt with
  | 0 => 16 | 1 => 16 | 2 => 32 | 3 => 64 | 4 => 4 | 5 => 6 | _ => 8
def Window.kst (w : Window) : Nat := if w.sp then w.kext / 2 else w.kext
def Window.bytes (w : Window) : Nat := w.size * 1024
/-- A byte of a window: what a fill has written, or an unspecified one (R209). -/
def Window.byte (w : Window) (i : Nat) : Byte := match flook w.data i with | some b => b | none => Config.freeByte w.gen i
def Window.num (w : Window) (i n : Nat) : Nat := leNat ((List.range n).map (fun j => w.byte (i + j)))
def Window.put (w : Window) (i : Nat) (bs : List Byte) : Window :=
  { w with data := (bs.zipIdx.foldl (fun m e => fput m (i + e.2) e.1) w.data) }
def State.window? (s : State) (tid win : Nat) : Option Window := flook (s.troupe tid).windows win
def State.modWindow (s : State) (tid win : Nat) (f : Window → Window) : State :=
  s.modTroupe tid (fun t => { t with windows := fmod t.windows win f })

/-! ### Accepted work, in order (R215) -/

def Core.items (c : Core) (tid : Nat) : List MxItem := c.mxq.filter (fun y => y.tid == tid)
def Core.head (c : Core) (tid : Nat) : Option MxItem := (c.items tid).head?
def State.mxCore (s : State) (tid : Nat) : Core := s.core (s.troupe tid).pkg (s.troupe tid).core
def State.modMx (s : State) (tid : Nat) (f : Core → Core) : State := s.modCore (s.troupe tid).pkg (s.troupe tid).core f
/-- Work is accepted. -/
def State.addItem (s : State) (tid wid : Nat) (w : MxWork) (tiles : List Nat) : State :=
  let id := s.nextId
  let y : MxItem := ⟨id, tid, wid, w, tiles⟩
  ({ s with nextId := id + 1 }).modMx tid (fun c => { c with mxq := c.mxq ++ [y] })
def State.dropItem (s : State) (tid id : Nat) : State := s.modMx tid (fun c => { c with mxq := c.mxq.filter (fun y => y.id != id) })
/-- Whether work reads or fills a window. -/
def MxWork.usesWin (w : MxWork) (win : Nat) : Bool :=
  match w with
  | .fill n _ => n == win
  | .stat _ n _ _ => n == win
  | .strm _ _ _ n _ _ => n == win
  | _ => false

/-! ### Configuration and planes (R216, R219, R220) -/

def ArrayCfg.setCfg (a : ArrayCfg) (fuse fmt : Nat) (sp : Bool) : ArrayCfg :=
  { a with fuse := fuse, fmt := fmt, sp := sp, active := [], shadow := [] }
def ArrayCfg.load (a : ArrayCfg) (sub : Nat) (p : Plane) : ArrayCfg := { a with shadow := fput a.shadow sub p }
def ArrayCfg.swap (a : ArrayCfg) : ArrayCfg :=
  { a with active := a.shadow.foldl (fun m (e : Nat × Plane) => if e.2.valid then fput m e.1 e.2 else m) a.active, shadow := [] }
def ArrayCfg.canSwap (a : ArrayCfg) : Bool := a.shadow.any (fun (e : Nat × Plane) => e.2.valid)
/-- K and N of a plane. -/
def ArrayCfg.shape (a : ArrayCfg) : Nat × Nat :=
  let b := if a.fmt < 2 then (16, 16) else if a.fmt = 2 then (8, 8) else if a.fmt = 3 then (4, 4) else (32, 16)
  let m := if a.fuse = 0 then (1, 1) else if a.fuse = 1 then (1, 4) else if a.fuse = 2 then (2, 2) else (4, 1)
  ((if a.sp then 2 else 1) * b.1 * m.1, b.2 * m.2)
/-- Bytes of an accumulator element. -/
def ArrayCfg.elem (a : ArrayCfg) : Nat := if a.fmt < 3 then 4 else 8
/-- What the array will hold when the work accepted so far has finished; unknown behind an image to be restored. -/
def predictGo (t : Troupe) : List MxItem → ArrayCfg → Option ArrayCfg
  | [], a => some a
  | y :: ys, a =>
    match y.work with
    | .cfg fuse fmt sp => predictGo t ys (a.setCfg fuse fmt sp)
    | .stat sub win koff noff => predictGo t ys (a.load sub ⟨true, koff, noff, fget Window.init t.windows win⟩)
    | .swap => predictGo t ys a.swap
    | .rest _ _ _ true => none
    | _ => predictGo t ys a
def State.predict (s : State) (tid : Nat) : Option ArrayCfg := predictGo (s.troupe tid) ((s.mxCore tid).items tid) (s.mxCore tid).arr

/-- Array work that writes memory: what is accepted after it reads memory only when it has finished (R215). -/
def MxWork.writesMem : MxWork → Bool
  | .drain _ _ _ scr _ _ _ _ _ _ => scr
  | .save _ _ _ _ => true
  | _ => false

/-! ### Accumulator tiles (R39, R218, R335) -/

/-- Where a byte of a troupe's logical accumulator tiles stands. -/
def State.accAt (s : State) (tid off : Nat) : Nat :=
  let t := s.troupe tid
  accKey t.pkg t.core (t.accs.getD (off / 4096) 0) (off % 4096)
def State.accNum (s : State) (tid off n : Nat) : Nat := leNat (s.load (s.accAt tid off) n)
def State.setAcc (s : State) (tid off n v : Nat) : State := s.store (s.accAt tid off) (leBytes n v)
def State.modArr (s : State) (tid : Nat) (f : ArrayCfg → ArrayCfg) : State := s.modMx tid (fun c => { c with arr := f c.arr })
def ArrayCfg.addFlags (a : ArrayCfg) (tile : Nat) (fl : BitVec 5) : ArrayCfg :=
  { a with flags := fset 0 a.flags tile (fget 0 a.flags tile ||| fl) }
/-- Forget the kept products of tiles (R335). -/
def ArrayCfg.forget (a : ArrayCfg) (tile count : Nat) : ArrayCfg :=
  { a with kept := a.kept.filter (fun (e : Nat × W32) => !(tile * 512 ≤ e.1 && e.1 < (tile + count) * 512)) }
def State.zeroTiles (s : State) (tid tile count : Nat) : State :=
  ((List.range count).foldl (fun s i => s.zeroRange (s.accAt tid ((tile + i) * 4096)) 4096) s).modArr tid (fun a =>
    { (a.forget tile count) with flags := a.flags.filter (fun (e : Nat × BitVec 5) => !(tile ≤ e.1 && e.1 < tile + count)) })

/-! ### Images (R224) -/

/-- The opaque area of an image, represented by a number that names it and bytes that nothing constrains. -/
def imageArea (n : Nat) : List Byte := leBytes 8 n ++ (List.range 16376).map (fun i => Config.freeByte n i)
def imageOf (m : FMap ArrayCfg) (bs : List Byte) : Option ArrayCfg :=
  match flook m (leNat (bs.take 8)) with
  | some a => if bs = imageArea (leNat (bs.take 8)) then some a else none
  | none => none
/-- What an image that no `mx.save` wrote leaves: a configuration, planes, flags and kept products that nothing constrains. -/
def freeArray (f : Nat) : ArrayCfg :=
  let n := fun (i m : Nat) => (Config.freeByte f i).toNat % m
  let fmt := n 0 5
  let win := fun (i : Nat) => { Window.init with
    size := 512, gen := f + 1 + i, sp := Config.freeBit f && fmt != 2 && fmt != 3, fmt := if fmt = 4 then 4 + n i 3 else fmt, blk := 16 * 2 ^ n (i + 1) 5
    xext := 1 + n (i + 2) 256, kext := 1 + n (i + 3) 256, sstr := n (i + 4) 256, soff := n (i + 5) 256, moff := n (i + 6) 256 }
  let plane := fun (i : Nat) => (⟨n i 2 == 1, n (i + 1) 256, n (i + 2) 256, win (i + 3)⟩ : Plane)
  { fuse := n 1 4, fmt := fmt, sp := Config.freeBit f && fmt != 2 && fmt != 3
    active := (List.range 4).map (fun i => (i, plane (10 + 10 * i)))
    shadow := (List.range 4).map (fun i => (i, plane (50 + 10 * i)))
    flags := (List.range 64).map (fun i => (i, (Config.freeByte f (100 + i)).setWidth 5))
    kept := [], undef := true }
/-- The pieces of an image: 4 KiB each, none crossing a page. -/
def imagePieces (va : W64) (bs : Nat) : List W64 := (List.range (bs / 4096)).map (fun i => va + BitVec.ofNat 64 (4096 * i))
/-- Images are written and read through their pages as they were mapped when the work `id` was accepted (R206). -/
def State.putImage (s : State) (k : Nat) (ctx : W32) (id : Nat) (va : W64) (bs : List Byte) : State :=
  (imagePieces va bs.length).zipIdx.foldl (fun s e => match s.heldKey k ctx id e.1 with
    | some key => s.storeAt key ((bs.drop (4096 * e.2)).take 4096)
    | none => s) s
def State.getImage (s : State) (k : Nat) (ctx : W32) (id : Nat) (va : W64) (n : Nat) : List Byte :=
  ((imagePieces va n).map (fun a => match s.heldKey k ctx id a with | some key => s.loadAt key 4096 | none => [])).flatten
def State.imagePoisoned (s : State) (k : Nat) (ctx : W32) (id : Nat) (va : W64) (n : Nat) : Bool :=
  (imagePieces va n).any (fun a => match s.heldKey k ctx id a with | some key => s.poisoned key 4096 | none => false)
def tileVa (va : W64) : W64 := va + 16384
def State.saveArray (s : State) (tid id : Nat) (va : W64) (tile count : Nat) (arr : Bool) : State :=
  let t := s.troupe tid
  let s1 := if arr then
      let n := s.nextId
      ({ s with nextId := n + 1, arrImages := fput s.arrImages n (s.mxCore tid).arr }).putImage t.pkg t.ctx id va (imageArea n)
    else s
  s1.putImage t.pkg t.ctx id (tileVa va) (((List.range count).map (fun i => s.load (s.accAt tid ((tile + i) * 4096)) 4096)).flatten)
def State.restArray (s : State) (tid id : Nat) (va : W64) (tile count : Nat) (arr : Bool) : State :=
  let t := s.troupe tid
  if (arr && s.imagePoisoned t.pkg t.ctx id va 16384) || s.imagePoisoned t.pkg t.ctx id (tileVa va) (4096 * count) then s.eccTroupe tid 4
  else
    let s1 := if arr then
        match imageOf s.arrImages (s.getImage t.pkg t.ctx id va 16384) with
        | some a => s.modArr tid (fun _ => a)
        | none => ({ s with fresh := s.fresh + 101 }).modArr tid (fun _ => freeArray s.fresh)
      else s.modArr tid (fun a => a.forget tile count)
    let bs := s.getImage t.pkg t.ctx id (tileVa va) (4096 * count)
    (List.range count).foldl (fun s i => s.store (s.accAt tid ((tile + i) * 4096)) ((bs.drop (4096 * i)).take 4096)) s1

/-! ### Work that takes effect when its turn comes -/

/-- An `mx.wait` is over when all before it has finished (R223). -/
def State.markDone (s : State) (wid : Nat) (lanes : LaneMask) : State :=
  match (s.wave wid).waits.find? (fun r => r.lanes &&& lanes != 0 && (match r.instr with | .mxWait _ => true | _ => false)) with
  | some r => s.releaseWait wid r
  | none => s
def quickWork (s : State) (tid id : Nat) (w : MxWork) : Option State :=
  match w with
  | .cfg fuse fmt sp => some (s.modArr tid (fun a => a.setCfg fuse fmt sp))
  | .swap => some (s.modArr tid ArrayCfg.swap)
  | .zero tile count => some (s.zeroTiles tid tile count)
  | .save va tile count arr => some (s.saveArray tid id va tile count arr)
  | .rest va tile count arr => some (s.restArray tid id va tile count arr)
  | .mark wid lanes => some (s.markDone wid lanes)
  | _ => none
/-- The work at the head that needs nothing but its turn. -/
def runQuick (tid : Nat) : Nat → State → State
  | 0, s => s
  | f + 1, s =>
    match (s.mxCore tid).head tid with
    | none => s
    | some y => match quickWork (s.dropItem tid y.id) tid y.id y.work with
      | some s1 => runQuick tid f s1
      | none => s
def State.settleMx (s : State) (tid : Nat) : State := runQuick tid ((s.mxCore tid).mxq.length + 1) s
/-- A piece of work has finished. -/
def State.itemDone (s : State) (tid id : Nat) : State := (s.dropItem tid id).settleMx tid

end Sys2Proof.Machine
end

