-- ==== Sys2Proof/Machine/Engine.lean ====
section
/-! DEFINITION. Tile copy engines (R204 to R214, R229, R338 to R344, R433): windows, what is checked when a command is
accepted, the units in which it moves, rings that it fills, remote copies, activity budgets (R347, R348). -/

namespace Sys2Proof.Machine

/-! ### Checks at acceptance (R177, R206, R433) -/

/-- The first failing address of a command, with its cause. -/
abbrev Bad := Cause × Byte × W64
/-- A `.g` range: form, alignment of its start, translation; for an engine's reads and writes, on this package. -/
def State.rangeG (s : State) (kd : AccKind) (va : W64) (n al : Nat) : Option Bad :=
  let t := s.curTroupe
  (stepsOf (2 ^ 16) va n).findSome? (fun a =>
    match s.checkG t.pkg t.core t.ctx s.curWave.sys kd a (if a = va then al else 1) with
    | .bad c sub => some (c, sub, a)
    | .ok (.fwd _) => some (.prot, 0, a)
    | .ok _ => none)
/-- A `.s` range: tiles of ranks of the corps, all engine-owned. -/
def State.rangeS (s : State) (va : W32) (n al : Nat) : Option Bad :=
  let k := s.curPkg
  let at_ := (stepsOf (2 ^ 12) (va.setWidth 64) n).map (fun a => (a, s.tileOf s.curTid (lo32 a)))
  match at_.find? (fun e => e.2.isNone) with
  | some e => some (.prot, 0, e.1)
  | none =>
    if va.toNat % al ≠ 0 then some (.align, 0, va.setWidth 64)
    else at_.findSome? (fun e => match e.2 with
      | some r => if s.engOwned k r then none else some (.own, 0, e.1)
      | none => none)
def State.rangeX (s : State) (sp : Space) (kd : AccKind) (va : W64) (n al : Nat) : Option Bad :=
  match sp with
  | .s => s.rangeS (lo32 va) n al
  | _ => s.rangeG kd va n al
/-- The write-range check of a `.g` destination (R406). -/
def State.rangeDet (s : State) (va : W64) (n : Nat) : Option Bad :=
  if s.curTroupe.hdr.det && !s.curTroupe.inRange .g va n then some (.detrange, 1, va) else none
/-- A byte barrier's header, or none named. -/
def State.barBad (s : State) (bb : W32) : Option Bad :=
  if bb = 0 then none
  else match s.head bb with
    | .bad c sub => some (c, sub, bb.setWidth 64)
    | .at_ _ _ => none
/-- The frames and tiles that a range covers, by the keys of their first bytes (R195, R206). -/
def State.unitsOf (s : State) (sp : Space) (kd : AccKind) (va : W64) (n : Nat) : List Nat :=
  let t := s.curTroupe
  match sp with
  | .s => (stepsOf (2 ^ 12) va n).filterMap (fun a => (s.tileOf s.curTid (lo32 a)).map (TileRef.base t.pkg))
  | _ => (stepsOf (2 ^ 16) va n).filterMap (fun a =>
      match s.checkG t.pkg t.core t.ctx s.curWave.sys kd a 1 with
      | .ok (.at_ key _) => some (key / 2 ^ 16 * 2 ^ 16)
      | _ => none)
def vasOf (sp : Space) (va : W64) (n : Nat) : List W64 := if sp = .g then stepsOf (2 ^ 16) va n else []

/-! ### Engines and their queues (R341, R344) -/

def CmdRec.die (c : CmdRec) : Nat := clusterOf c.core
/-- Commands of an engine that are not set aside, in acceptance order. -/
def Pkg.engQueue (p : Pkg) (die e : Nat) : List CmdRec := p.cmds.filter (fun c => c.engine == e && c.die == die && !c.aside)
def Pkg.sideList (p : Pkg) (die e : Nat) : List CmdRec := p.cmds.filter (fun c => c.engine == e && c.die == die && c.aside)
def Pkg.queuedBytes (p : Pkg) (die e : Nat) : Nat :=
  ((p.cmds.filter (fun c => c.engine == e && c.die == die)).map (fun c => c.total - c.read)).sum
/-- An engine is fenced, or under test (R426). -/
def Pkg.engOut (p : Pkg) (die e : Nat) : Bool :=
  p.phys.engBad.contains (die * 6 + e) || p.phys.tests.any (fun t => t.cls == 3 && t.unit == die * 6 + e)
/-- The engine that takes a command: the fewest queued bytes among those with room, the lower number on a tie. -/
def Pkg.engineFor (p : Pkg) (die : Nat) : Option Nat :=
  (sortBy (fun e => p.queuedBytes die e)
    ((List.range 6).filter (fun e => !p.engOut die e && (p.engQueue die e).length < 64))).head?
def CmdRec.blank : CmdRec :=
  { id := 0, tid := 0, wid := 0, core := 0, ctx := 0, engine := 0, cmd := .perm 0 0 0 0 0 0, total := 0, read := 0, written := 0,
    filled := 0, buf := [], aside := false, retried := 0, srcs := [], dsts := [], graph := none }
/-- Accept a checked command of the issuing wave: pages walked, an engine found. -/
def acceptCmd (i : Instr) (s : State) (vas : List W64) (c : CmdRec) (go : State → Nat → State) : State :=
  let t := s.curTroupe
  match (s.pkg t.pkg).engineFor (clusterOf t.core) with
  | none => waitAt s i
  | some e =>
    if s.walkWait .g vas then waitAt (s.missed .g vas) i
    else
      let id := s.nextId
      let c1 := { c with id := id, tid := s.curTid, wid := s.cur.wid, core := t.core, ctx := t.ctx, engine := e }
      go (({ s with nextId := id + 1 }.walked .g vas).modPkg t.pkg (fun p => { p with cmds := p.cmds ++ [c1] })) id
/-- An elected engine command: parameters first, then the first fault. -/
def engGo (s : State) (m : Mods) (param : Bool) (bad : List (Option Bad)) (go : State) : State :=
  if param then refuse s m .param
  else match bad.findSome? (fun x => x) with
    | some f => faultElected s m f.1 f.2.1 f.2.2
    | none => go

/-! ### Windows (R208, R209) -/

/-- The record of `ob.rsv`, or none where a field is refused. -/
def windowOf (t : Troupe) (p : Pkg) (b : List W32) : Option (Nat × Window) :=
  let size := bf b 0 25 16
  let pen := bf b 0 14 14 == 1
  let sp := bf b 0 11 11 == 1
  let blk := bf b 0 10 8
  let fmt := bf b 0 7 4
  let win := bf b 0 3 0
  let xext := bf b 1 31 16
  let kext := bf b 1 15 0
  let sstr := bf b 2 31 20
  let soff := bf b 2 19 0
  let moff := bf b 3 19 0
  let narrow := decide (4 ≤ fmt)
  let bl := 16 * 2 ^ blk
  let w : Window := { Window.init with
    size := size, pen := pen, ptid := bf b 0 13 12, sp := sp, blk := if narrow then bl else 0, fmt := fmt, xext := xext, kext := kext
    sstr := sstr, soff := soff, moff := moff }
  let dataEnd := xext * w.kst * elemBytes fmt
  let scaleEnd := soff + 4 * sstr * (xext - 1) + 2 * (kext / bl)
  let metaEnd := moff + xext * (kext / 16) * 2
  let areas := [(0, dataEnd)] ++ (if narrow then [(soff, scaleEnd)] else []) ++ (if sp then [(moff, metaEnd)] else [])
  let clash := areas.zipIdx.any (fun x => areas.zipIdx.any (fun y => x.2 < y.2 && overlaps x.1.1 (x.1.2 - x.1.1) y.1.1 (y.1.2 - y.1.1)))
  let used := (t.windows.map (fun (e : Nat × Window) => e.2.size)).sum
  if bf b 0 31 26 ≠ 0 ∨ bf b 0 15 15 ≠ 0 ∨ bf b 3 31 20 ≠ 0 ∨ size = 0 ∨ 512 < size ∨ 4 < blk ∨ 6 < fmt ∨ xext = 0 ∨ kext = 0 ∨
     soff % 2 = 1 ∨ moff % 2 = 1 then none
  else if (flook t.windows win).isSome ∨ (narrow ∧ !p.feat 3) ∨ (sp ∧ !p.feat 4) then none
  else if (!narrow ∧ (blk ≠ 0 ∨ soff ≠ 0 ∨ sstr ≠ 0)) ∨ (narrow ∧ kext % bl ≠ 0) ∨ (!sp ∧ moff ≠ 0) then none
  else if sp ∧ (kext % 16 ≠ 0 ∨ fmt = 2 ∨ fmt = 3 ∨ pen) then none
  else if areas.any (fun a => w.bytes < a.2) ∨ clash ∨ 4 * t.hdr.obuf < used + size then none
  else some (win, w)
def execObRsv (m : Mods) (a : Reg) (s : State) : Out :=
  match s.elected m with
  | none => .next (finish s [])
  | some e =>
    match windowOf s.curTroupe (s.pkg s.curPkg) (s.block e a 4) with
    | none => .next (refuse s m .param)
    | some r =>
      let f := s.fresh
      .next (finish (({ s with fresh := f + 1 }).modTroupe s.curTid (fun t =>
        { t with windows := fput t.windows r.1 { r.2 with gen := f } })) [])
def execObRel (m : Mods) (a : Reg) (s : State) : Out :=
  match s.elected m with
  | none => .next (finish s [])
  | some e =>
    let w := (s.src s.cur.wid e a).toNat
    if 16 ≤ w then .next (refuse s m .param)
    else if (s.window? s.curTid w).isNone then .next (refuse s m .range)
    else if ((s.mxCore s.curTid).items s.curTid).any (fun y => y.work.usesWin w) then .next (waitAt s (.obRel m a))
    else .next (finish (s.modTroupe s.curTid (fun t => { t with windows := fdel t.windows w })) [])

/-! ### `tc.copy` (R210) -/

/-- A plain ring as a destination. -/
def State.ringBad (s : State) (va : W32) (len : Nat) : Option Bad ⊕ (Nat × RingHdr) :=
  match s.head va with
  | .bad c sub => .inl (some (c, sub, va.setWidth 64))
  | .at_ _ key =>
    match s.ring key with
    | none => .inl (some (.illegal, Sub.code .ring, 0))
    | some h =>
      if h.kind ≠ 0 then .inl (some (.illegal, Sub.code .ring, 0))
      else if len % (4096 * h.tps) ≠ 0 then .inl (some (.illegal, Sub.code .param, 0))
      else if (s.troupe s.curTid).tiles.length < h.base + h.nslot * h.tps then .inl (some (.prot, 0, va.setWidth 64))
      else .inr (key, h)
def spaceOf (n : Nat) : Space := if n = 0 then .g else .s
/-- A header that the elected lane's own store has not reached yet. -/
def State.headWait (s : State) (e : Nat) (a : W32) : Bool :=
  match s.head a with
  | .at_ _ key => s.ownStore e key 16
  | .bad _ _ => false
def execTcCopy (m : Mods) (a : Reg) (s : State) : Out :=
  match s.elected m with
  | none => .next (finish s [])
  | some e =>
    let b := s.block e a 6
    let dsp := bf b 4 27 26
    let ssp := bf b 4 25 24
    let len := bf b 4 23 0
    let src := bd b 0
    let dst := bd b 2
    let bb := bw b 5
    let param := bf b 4 31 28 != 0 || dsp == 3 || decide (2 ≤ ssp) || len < 16 || len % 16 != 0 || (ssp == 1 && bw b 1 != 0) ||
      (dsp != 0 && bw b 3 != 0)
    let sbad := s.rangeX (spaceOf ssp) .load src len 16
    let dbad := if dsp = 2 then (match s.ringBad (lo32 dst) len with | .inl x => x | .inr _ => none)
      else s.rangeX (spaceOf dsp) .store dst len 16
    if !param && dsp == 2 && s.headWait e (lo32 dst) then .next (waitAt s (.tcCopy m a))
    else .next (engGo s m param [sbad, dbad, s.barBad bb, if dsp = 0 then s.rangeDet dst len else none]
      (acceptCmd (.tcCopy m a) s (vasOf (spaceOf ssp) src len ++ vasOf (spaceOf dsp) dst len)
        { CmdRec.blank with
          cmd := .copy (spaceOf ssp) (spaceOf dsp) (dsp == 2) src dst len bb, total := len
          srcs := s.unitsOf (spaceOf ssp) .load src len
          dsts := if dsp = 2 then [] else s.unitsOf (spaceOf dsp) .store dst len }
        (fun s _ => finish (if dsp = 0 then s.modTroupe s.curTid (fun t => { t with lock := true }) else s) [])))

/-! ### `tc.ob` (R211, R212) -/

/-- Source rows of a fill: each a byte address and a length. -/
def obRows (w : Window) (trn : Nat) (src : W64) (str : Nat) : List (W64 × Nat) :=
  let rows := if trn = 0 then w.xext else w.kst
  let per := if trn = 0 then w.kst else w.xext
  let len := (per * codeBits w.fmt + 7) / 8
  (List.range rows).map (fun i => (src + BitVec.ofNat 64 (i * str), len))
/-- A permutation table is being loaded into a slot. -/
def State.permLoading (s : State) (tid ptid : Nat) : Bool :=
  (s.pkg (s.troupe tid).pkg).cmds.any (fun (c : CmdRec) => c.tid == tid && (match c.cmd with | .perm p _ _ _ _ _ => p == ptid | _ => false))
def execTcOb (m : Mods) (a : Reg) (s : State) : Out :=
  match s.elected m with
  | none => .next (finish s [])
  | some e =>
    let b := s.block e a 4
    let woff := bf b 0 27 8
    let raw := bf b 0 7 7 == 1
    let trn := bf b 0 6 5
    let ssp := bf b 0 4 4
    let win := bf b 0 3 0
    let src := bd b 1
    let str := bf b 3 19 0
    let sp := spaceOf ssp
    if bf b 0 31 28 ≠ 0 ∨ bf b 3 31 20 ≠ 0 ∨ trn = 3 ∨ (ssp = 1 ∧ bw b 2 ≠ 0) then .next (refuse s m .param)
    else match s.window? s.curTid win with
      | none => .next (refuse s m .range)
      | some w =>
        if w.pen && s.permLoading s.curTid w.ptid then .next (waitAt s (.tcOb m a))
        else
          let rows := if raw then [(src, str)] else obRows w trn src str
          let row := (rows.head?.map (fun r => r.2)).getD 0
          let table := (fget [] s.curTroupe.perms w.ptid).length
          let param := (w.pen && (table == 0 || w.kext % table != 0)) ||
            (if raw then trn != 0 || woff % 16 != 0 || str % 16 != 0 || decide (w.bytes < woff + str)
             else woff != 0 || decide (str < row) || (trn == 1 && w.fmt != 6) || (trn == 2 && decide (2 ≤ w.fmt)))
          let total := if raw then str else w.xext * w.kst * elemBytes w.fmt
          let bad := rows.findSome? (fun r => if r.2 = 0 then none else s.rangeX sp .load r.1 r.2 (if r.1 = src then 16 else 1))
          if total = 0 ∧ !param then .next (engGo s m param [bad] (finish s []))
          else .next (engGo s m param [bad]
            (acceptCmd (.tcOb m a) s ((rows.map (fun r => vasOf sp r.1 r.2)).flatten)
              { CmdRec.blank with
                cmd := .ob win raw woff trn sp src str, total := total
                srcs := ((rows.map (fun r => s.unitsOf sp .load r.1 r.2)).flatten).dedup }
              (fun s id => finish (s.addItem s.curTid s.cur.wid (.fill win id) []) [])))

/-! ### `tc.mcast` (R213) -/

/-- Consumers of a multicast home: their ranks, where CONS names them. -/
def consumers (h : RingHdr) (rbase : Nat) : List Nat := ((List.range 16).filter (fun i => h.home.getLsbD i)).map (fun i => rbase + i)
def consVa (rank choff : Nat) : W32 := BitVec.ofNat 32 (rank * 2 ^ 20 + choff)
/-- What is wrong with a consumer of a ring. -/
def State.consBad (s : State) (h : RingHdr) (choff rank : Nat) : Option Bad :=
  let va := BitVec.ofNat 64 (rank * 2 ^ 20 + choff)
  if s.curTroupe.hdr.corps ≤ rank then some (.prot, 0, va)
  else match s.checkS s.curTid (consVa rank choff) 16 with
    | .bad c sub => some (c, sub, va)
    | .ok p => match s.ring (checkedKey (.ok p)), s.rankTroupe s.curTid rank with
      | some c, some t =>
        if c.kind ≠ 2 ∨ (s.troupe t).tiles.length < h.base + h.nslot * h.tps then some (.prot, 0, va) else none
      | _, _ => some (.prot, 0, va)
def execTcMcast (m : Mods) (a : Reg) (s : State) : Out :=
  match s.elected m with
  | none => .next (finish s [])
  | some e =>
    let b := s.block e a 4
    let src := bd b 0
    let home := bw b 2
    let choff := bf b 3 27 8
    let rbase := bf b 3 7 0
    if bf b 3 31 28 ≠ 0 then .next (refuse s m .param)
    else if s.headWait e home then .next (waitAt s (.tcMcast m a))
    else match s.head home with
      | .bad c sub => .next (faultElected s m c sub (home.setWidth 64))
      | .at_ _ key =>
        match s.ring key with
        | none => .next (refuse s m .ring)
        | some h =>
          if h.kind ≠ 1 then .next (refuse s m .ring)
          else
            let len := 4096 * h.tps
            .next (engGo s m false (s.rangeG .load src len 16 :: (consumers h rbase).map (s.consBad h choff))
              (acceptCmd (.tcMcast m a) s (vasOf .g src len)
                { CmdRec.blank with cmd := .mcast src home choff rbase, total := len, srcs := s.unitsOf .g .load src len }
                (fun s _ => finish s [])))

/-! ### `perm.load` (R214, R340) -/

def execPermLoad (m : Mods) (d a : Reg) (s : State) : Out :=
  match s.elected m with
  | none => .next (finish s [])
  | some e =>
    let b := s.block e a 4
    let len := (bw b 1).toNat
    let src := bd b 2
    if bf b 0 31 2 ≠ 0 ∨ len = 0 ∨ 4096 < len then .next (refuse s m .param)
    else if s.curTroupe.hdr.acc = 0 then .next (refuse s m .range)
    else .next (engGo s m false [s.rangeG .load src (2 * len) 16]
      (match (s.pkg s.curPkg).engineFor (clusterOf s.curTroupe.core) with
       | none => waitAt s (.permLoad m d a)
       | some _ =>
         let r := oweAll s m false d 1
         if s.walkWait .g (vasOf .g src (2 * len)) then waitAt (s.missed .g (vasOf .g src (2 * len))) (.permLoad m d a)
         else acceptCmd (.permLoad m d a) r.1 (vasOf .g src (2 * len))
           { CmdRec.blank with
             cmd := .perm (bf b 0 1 0) len src (maskOf (s.activeLanes m)) d r.2, total := 2 * len
             srcs := s.unitsOf .g .load src (2 * len) }
           (fun s _ => finish s [])))

/-! ### `rcopy` (R229, R368) -/

/-- The home of a remote copy's destination: one for the whole range. -/
def State.rcopyHome (s : State) (dst : W64) (len : Nat) : Bad ⊕ Nat :=
  match s.target .store dst 64 with
  | .bad c sub => .inl (c, sub, dst)
  | .home h =>
    match (stepsOf (2 ^ 16) dst len).tail.findSome? (fun a => match s.target .store a 1 with
        | .bad c sub => if c = .detrange then none else some ((c, sub, a) : Bad)
        | .home g => if g = h then none else some (.prot, 0, a)) with
    | some f => .inl f
    | none => .inr h
def execRcopy (m : Mods) (tok dep spr : Bool) (d a : Reg) (s : State) : Out :=
  let i := Instr.rcopy m tok dep spr d a
  match s.elected m with
  | none => .next (finish s [])
  | some e =>
    let b := s.block e a 8
    let src := bd b 0
    let dst := bd b 2
    let sp := spaceOf (bf b 4 24 24)
    let len := bf b 4 23 0
    let dept := bw b 5
    let bb := bw b 6
    let k := s.curPkg
    if bf b 4 31 25 ≠ 0 ∨ len < 64 ∨ len % 64 ≠ 0 ∨ bw b 7 ≠ 0 ∨ (sp = .s ∧ bw b 1 ≠ 0) ∨ (!dep ∧ dept ≠ 0) then .next (refuse s m .param)
    else if tokBad dept then .next (refuse s m .token)
    else match s.rangeX sp .load src len 64 with
      | some f => .next (faultElected s m f.1 f.2.1 f.2.2)
      | none => match s.rcopyHome dst len with
        | .inl f => .next (faultElected s m f.1 f.2.1 f.2.2)
        | .inr h => match [s.barBad bb, s.rangeDet dst len].findSome? (fun x => x) with
          | some f => .next (faultElected s m f.1 f.2.1 f.2.2)
          | none =>
            let via := s.route spr dst h
            let vas := vasOf sp src len ++ vasOf .g dst len
            if s.walkWait .g vas || !s.routeRoom via h 66 then .next (waitAt (s.missed .g vas) i)
            else
              let own := if tok then (s.pkg k).newTok .pend [] s.curCtx else some (0, s.pkg k)
              match own with
              | none => .next (waitAt s i)
              | some (t, p) =>
                let id := s.nextId
                let c := { CmdRec.blank with
                  id := id, tid := s.curTid, wid := s.cur.wid, core := s.curTroupe.core, ctx := s.curCtx, engine := 255
                  cmd := .rcopy sp src dst h len bb t (if dep then dept else 0) via, total := len
                  srcs := s.unitsOf sp .load src len }
                let s1 := (({ s with nextId := id + 1 }.setPkg k p).walked .g vas).modPkg k (fun p => { p with cmds := p.cmds ++ [c] })
                let s2 := s1.modTroupe s.curTid (fun t => { t with lock := true })
                .next (finish (if tok then sendAll s2 m .owed d 1 (outs32 d t) else s2) [])

/-! ### Units read (R342 to R344) -/

/-- Where a range of a command lies, in pieces that cross neither page nor tile: its pages as they were mapped when it was
accepted (R206). -/
def State.spans (s : State) (k : Nat) (c : CmdRec) (sp : Space) (va : W64) (n : Nat) : List (Nat × Nat) :=
  let sz := if sp = .s then 2 ^ 12 else 2 ^ 16
  ((stepsOf sz va n).filterMap (fun a =>
    let len := min (sz - a.toNat % sz) (va.toNat + n - a.toNat)
    let key : Option Nat := match sp with
      | .s => (s.tileOf c.tid (lo32 a)).map (fun (r : TileRef) => r.key k (lo32 a))
      | _ => s.heldKey k c.ctx c.id a
    key.map (fun x => (x, len))))
def State.loadSpans (s : State) (l : List (Nat × Nat)) : List Byte := (l.map (fun e => s.loadAt e.1 e.2)).flatten
def State.spansPoisoned (s : State) (l : List (Nat × Nat)) : Bool := l.any (fun e => s.poisoned e.1 e.2)
def State.storeSpans (s : State) (l : List (Nat × Nat)) (bs : List Byte) : State :=
  (l.foldl (fun (acc : State × List Byte) e => (acc.1.storeAt e.1 (acc.2.take e.2), acc.2.drop e.2)) (s, bs)).1

/-- The residue word of a narrow code (R59). -/
def residueWord (x : Int) : Nat := (x.emod 255).toNat + 256 * (x.emod 256).toNat + 65536 * (x.emod 257).toNat
/-- One native element from its bits in memory. -/
def nativeBytes (fmt code : Nat) : List Byte :=
  if fmt < 4 then leBytes (elemBytes fmt) code
  else
    let n := codeBits fmt
    leBytes 4 (residueWord (if code < 2 ^ (n - 1) then code else (code : Int) - 2 ^ n))
/-- The place in its source row of element `j` of a window's row, and the row (R66, R212). -/
def obPlace (w : Window) (table : List Nat) (trn el : Nat) : Nat × Nat :=
  let x := el / w.kst
  let q := el % w.kst
  let k := if w.pen then q / table.length * table.length + table.getD (q % table.length) 0 else q
  if trn = 0 then (x, k) else (k, x)
/-- The address and bit of a source element, and its code. -/
def obAddr (w : Window) (table : List Nat) (trn el : Nat) (src : W64) (str : Nat) : W64 × Nat :=
  let p := obPlace w table trn el
  let bit := p.2 * codeBits w.fmt
  (src + BitVec.ofNat 64 (p.1 * str + bit / 8), bit % 8)
def State.obElem (s : State) (k : Nat) (c : CmdRec) (w : Window) (table : List Nat) (trn el : Nat) (sp : Space) (src : W64) (str : Nat) : List Byte :=
  let at_ := obAddr w table trn el src str
  let n := (at_.2 + codeBits w.fmt + 7) / 8
  nativeBytes w.fmt (leNat (s.loadSpans (s.spans k c sp at_.1 n)) / 2 ^ at_.2 % 2 ^ codeBits w.fmt)
/-- What the next unit of a command reads. -/
structure UnitRead where
  dst : Nat
  bytes : List Byte
  spans : List (Nat × Nat)
  /-- the bytes of its source (R347) -/
  cost : Nat
  deriving DecidableEq, Repr
/-- The 256-byte units of its source that a read touches outside scratchpads: each has a CRC-32C (R343). -/
def UnitRead.crcs (u : UnitRead) : List Nat :=
  ((u.spans.filter (fun e => !keyIsScr e.1)).map (fun e =>
    (List.range ((e.1 + e.2 + 255) / 256 - e.1 / 256)).map (fun i => e.1 / 256 + i))).flatten.dedup
def State.unitOf (s : State) (k : Nat) (c : CmdRec) : UnitRead :=
  let n := min 1024 (c.total - c.read)
  let plain := fun (sp : Space) (va : W64) (n : Nat) =>
    let l := s.spans k c sp (va + BitVec.ofNat 64 c.read) n
    (⟨n, s.loadSpans l, l, n⟩ : UnitRead)
  match c.cmd with
  | .copy ssp _ _ src _ _ _ => plain ssp src n
  | .mcast src _ _ _ => plain .g src n
  | .perm _ _ src _ _ _ => plain .g src n
  | .rcopy sp src _ _ _ _ _ _ _ => plain sp src (min 4096 (c.total - c.read))
  | .ob win raw _ trn sp src str =>
    if raw then plain sp src n
    else
      let w := fget Window.init (s.troupe c.tid).windows win
      let table := fget [] (s.troupe c.tid).perms w.ptid
      let e := elemBytes w.fmt
      let els := (List.range (n / e)).map (fun i => c.read / e + i)
      ⟨n, (els.map (fun el => s.obElem k c w table trn el sp src str)).flatten,
       (els.map (fun el =>
         let at_ := obAddr w table trn el src str
         s.spans k c sp at_.1 ((at_.2 + codeBits w.fmt + 7) / 8))).flatten, (els.length * codeBits w.fmt + 7) / 8⟩

/-- A ring command's header, its key and what it manages. -/
def State.cmdHdr (s : State) (c : CmdRec) : Option (Nat × RingHdr) :=
  match s.cmdRing c with
  | none => none
  | some key => (s.ring key).map (fun h => (key, h))
/-- Another command is in the middle of a slot of the same ring. -/
def State.slotTaken (s : State) (k : Nat) (c : CmdRec) (key : Nat) : Bool :=
  (s.pkg k).cmds.any (fun x => x.id != c.id && x.filled < x.read && s.cmdRing x == some key)
/-- Whether a command that would start a slot finds its ring full. -/
def State.ringFull (s : State) (c : CmdRec) : Bool :=
  c.read == c.filled && (match s.cmdHdr c with | some r => r.2.free == 0 | none => false)
/-- A command that holds its engine: its ring is full and so is the side list (R344). -/
def State.holding (s : State) (k : Nat) (c : CmdRec) : Bool :=
  s.ringFull c && 16 ≤ ((s.pkg k).sideList c.die c.engine).length
def cutAt (f : CmdRec → Bool) : List CmdRec → List CmdRec
  | [] => []
  | c :: cs => if f c then [c] else c :: cutAt f cs
/-- The commands that an engine works on: up to four, in acceptance order, none behind one that holds it. -/
def State.worked (s : State) (k : Nat) (c : CmdRec) : Bool :=
  c.engine == 255 ||
  ((cutAt (s.holding k) ((s.pkg k).engQueue c.die c.engine)).take 4).any (fun x => x.id == c.id)
def Pkg.cmd? (p : Pkg) (n : Nat) : Option CmdRec := p.cmds.find? (fun c => c.id == n)
def Pkg.modCmd (p : Pkg) (n : Nat) (f : CmdRec → CmdRec) : Pkg := { p with cmds := p.cmds.map (fun c => if c.id = n then f c else c) }
def Pkg.dropCmd (p : Pkg) (n : Nat) : Pkg := { p with cmds := p.cmds.filter (fun c => c.id != n) }
/-- Whether a command may read its next unit. -/
def State.mayRead (s : State) (k : Nat) (c : CmdRec) : Bool :=
  s.worked k c && c.read < c.total && (c.buf.isEmpty || (match c.cmd with | .perm _ _ _ _ _ _ => true | _ => false)) &&
  (c.engine == 255 || (s.pkg k).mayStart (paceCopy c.die)) &&
  (match c.cmd with
   | .rcopy _ _ _ h _ _ _ _ via =>
     (match via with
      | some _ => (s.pkg k).sprayUsed + 66 ≤ sprayFlits
      | none => h == k || (s.pkg k).vqUsed h + 66 ≤ vqFlits)
   | .ob win _ _ _ _ _ _ => !(((s.mxCore c.tid).items c.tid).takeWhile (fun y => y.work != .fill win c.id)).any (fun y => y.work.writesMem)
   | .perm ptid _ _ _ _ _ => !(s.pkg k).cmds.any (fun x => x.tid == c.tid && x.id < c.id && (match x.cmd with
       | .ob win _ _ _ _ _ _ => (fget Window.init (s.troupe c.tid).windows win).pen && (fget Window.init (s.troupe c.tid).windows win).ptid == ptid
       | _ => false))
   | _ => match s.cmdHdr c with
     | some r => c.filled < c.read && c.read - c.filled < 4096 * r.2.tps || c.read == c.filled && r.2.free != 0 && !s.slotTaken k c r.1
     | none => true)
/-- A command that finds its ring full is set aside, where the side list has room. -/
def State.mayPark (s : State) (k : Nat) (c : CmdRec) : Bool :=
  s.worked k c && c.read < c.total && s.ringFull c && ((s.pkg k).sideList c.die c.engine).length < 16
/-- Uncorrectable data stops the issuing troupe, or a graph's context. -/
def State.eccCmd (s : State) (k : Nat) (c : CmdRec) : State :=
  if c.graph.isSome then stopContext s k c.ctx .eccu 4 (s.firstLane k c.ctx).1 (s.firstLane k c.ctx).2 else s.eccTroupe c.tid 4
/-- A command is over: it is forgotten, and the array work that waits for it goes on. -/
def State.cmdOver (s : State) (k : Nat) (c : CmdRec) : State :=
  let s1 := s.modPkg k (fun p => p.dropCmd c.id)
  match c.cmd with
  | .ob win _ _ _ _ _ _ =>
    match ((s1.mxCore c.tid).items c.tid).find? (fun y => y.work == .fill win c.id) with
    | some y => s1.itemDone c.tid y.id
    | none => s1
  | _ => s1
/-- A segment of a remote copy goes to its queue. -/
def State.sendSegment (s : State) (k : Nat) (c : CmdRec) (u : UnitRead) : State :=
  match c.cmd with
  | .rcopy _ _ dst h _ bb tok dept via =>
    let first := c.read == 0
    let last := c.read + u.dst == c.total
    let x : Packet := { Packet.init with
      src := k, dst := h, kind := .copySeg, last := last
      dep := dept != 0 && (first || via.isSome) && !(s.pkg k).tokLanded dept, dept := dept
      tok := last && tok != 0, ownt := tok, addr := dst + BitVec.ofNat 64 c.read, bytes := u.bytes, ctx := c.ctx
      sysm := (s.wave c.wid).sys, wid := c.wid, copy := c.id, born := c.id }
    let s1 := s.modPkg k (fun p => (p.enqueue k via x).modCmd c.id (fun y => { y with read := y.read + u.dst, written := y.written + u.dst }))
    let s2 := if bb = 0 then s1
      else match s1.tileOf c.tid bb with
        | some r => s1.arrive (r.key k bb) (BitVec.ofNat 32 u.dst)
        | none => s1
    if !last then s2
    else
      let q := (s2.pkg k).peer h
      let need := match via with | some v => (h, v, fget 0 q.sentVia v) | none => (h, h, q.sentD)
      (s2.modPkg k (fun p => p.dropCmd c.id)).modWave c.wid (fun v => { v with fences := v.fences.map (fun f =>
        if f.toks.contains c.id then { f with toks := f.toks.filter (fun n => n != c.id), remote := f.remote ++ [need] } else f) })
  | _ => s
/-- The tiles of the slot that a ring command fills. -/
def State.slotKeys (s : State) (k : Nat) (c : CmdRec) : List Nat :=
  match c.cmd, s.cmdHdr c with
  | .copy _ _ true _ dst _ _, some r =>
    (match s.tileOf c.tid (lo32 dst) with
     | some t => (s.slotTiles t.tid r.2 r.2.wr).map (TileRef.base k)
     | none => [])
  | .mcast _ _ _ rbase, some r =>
    ((consumers r.2 rbase).map (fun rank => match s.rankTroupe c.tid rank with
      | some t => (s.slotTiles t r.2 r.2.wr).map (TileRef.base k)
      | none => [])).flatten
  | _, _ => []
/-- An engine reads a unit; bit i of `bad` says that the CRC-32C of the i-th 256-byte unit that it reads does not match. One
that fails is read again once; the engine whose second reading fails goes under test (R343, R426). -/
def execEngineUnitRead (k n bad : Nat) (s : State) : Out :=
  match (s.pkg k).cmd? n with
  | none => .next s
  | some c =>
    if s.mayPark k c then .next (s.modPkg k (fun p => p.modCmd n (fun y => { y with aside := true })))
    else if !s.mayRead k c then .next s
    else
      let u := s.unitOf k c
      let s1 := if c.engine = 255 then s else s.modPkg k (fun p => p.spend (paceCopy c.die) u.cost)
      if s.spansPoisoned u.spans then .next ((s1.cmdOver k c).eccCmd k c)
      else if c.engine = 255 then .next (s1.sendSegment k c u)
      else
        let bad := bad % 2 ^ u.crcs.length
        if bad &&& c.retried ≠ 0 then
          let e := c.die * 6 + c.engine
          .next (((s1.cmdOver k c).modPkg k (fun p =>
            if p.phys.tests.any (fun t => t.cls == 3 && t.unit == e) then p
            else { p with phys := { p.phys with tests := p.phys.tests ++ [⟨3, e, 0, false⟩] } })).eccCmd k c)
        else if bad ≠ 0 then .next (s1.modPkg k (fun p => p.modCmd n (fun y => { y with retried := y.retried ||| bad })))
        else
          .next (s1.modPkg k (fun p => p.modCmd n (fun y => { y with
            read := y.read + u.dst, buf := y.buf ++ u.bytes, retried := 0
            dsts := if (s.cmdRing c).isSome then s.slotKeys k c else y.dsts })))

/-! ### Units written (R210, R212 to R214, R342) -/

/-- A permutation of 0 to L - 1. -/
def permTable (bs : List Byte) : List Nat := (List.range (bs.length / 2)).map (fun i => leNat ((bs.drop (2 * i)).take 2))
def isPerm (t : List Nat) : Bool := t.all (fun x => x < t.length) && decide t.Nodup
/-- Whether the unit that a command has read may be written. -/
def State.mayWrite (s : State) (c : CmdRec) : Bool :=
  !c.buf.isEmpty &&
  (match c.cmd with
   | .perm _ _ _ _ _ _ => c.read == c.total
   | .ob win _ _ _ _ _ _ => (match (s.mxCore c.tid).head c.tid with | some y => y.work == .fill win c.id | none => false)
   | _ => true)
/-- Write a unit into every tile of the slot at hand. -/
def State.slotStore (s : State) (bases : List Nat) (tps off : Nat) (bs : List Byte) : State :=
  let perCore := bases.length / tps
  (List.range perCore).foldl (fun s i => s.storeAt (bases.getD (i * tps + off / 4096) 0 + off % 4096) bs) s
def execEngineUnitWrite (k n : Nat) (s : State) : Out :=
  match (s.pkg k).cmd? n with
  | none => .next s
  | some c =>
    if !s.mayWrite c then .next s
    else
      let len := c.buf.length
      let done := fun (s : State) =>
        let s1 := s.modPkg k (fun p => p.modCmd n (fun y => { y with buf := [], written := y.written + len }))
        if c.read = c.total ∧ (s.cmdRing c).isNone then s1.cmdOver k c else s1
      let count := fun (s : State) (bb : W32) =>
        if bb = 0 then s
        else match s.tileOf c.tid bb with
          | some r => s.arrive (r.key k bb) (BitVec.ofNat 32 len)
          | none => s
      match c.cmd with
      | .copy _ dsp ring _ dst _ bb =>
        match ring, s.cmdHdr c with
        | true, some r => .next (count (done (s.slotStore c.dsts r.2.tps (c.written - c.filled) c.buf)) bb)
        | _, _ => .next (count (done (s.storeSpans (s.spans k c dsp (dst + BitVec.ofNat 64 c.written) len) c.buf)) bb)
      | .mcast _ _ _ _ =>
        match s.cmdHdr c with
        | some r => .next (done (s.slotStore c.dsts r.2.tps (c.written - c.filled) c.buf))
        | none => .next (done s)
      | .ob win raw woff _ _ _ _ =>
        .next (done (s.modWindow c.tid win (fun w => w.put ((if raw then woff else 0) + c.written) c.buf)))
      | .perm ptid _ _ lanes d tag =>
        let t := permTable c.buf
        let ok := isPerm t
        let s1 := s.modTroupe c.tid (fun x => { x with perms := if ok then fput x.perms ptid t else fdel x.perms ptid })
        .next (fillTag (done s1) c.wid lanes tag (fun _ => outs32 d (if ok then 0 else 1)))
      | .rcopy _ _ _ _ _ _ _ _ _ => .next s

/-! ### Slots filled (R197, R344) -/

/-- Every byte of a slot has been written: the counters change in one step. -/
def State.slotReady (s : State) (c : CmdRec) : Bool :=
  match s.cmdHdr c with
  | some r => c.buf.isEmpty && c.filled < c.written && c.written - c.filled == 4096 * r.2.tps
  | none => false
def execRingSlotFill (k n : Nat) (s : State) : Out :=
  match (s.pkg k).cmd? n with
  | none => .next s
  | some c =>
    match s.slotReady c, s.cmdHdr c with
    | true, some r =>
      let h := r.2
      let h1 := { h with wr := (h.wr + 1) % h.nslot, free := h.free - 1 }
      let s1 := match c.cmd with
        | .mcast _ _ choff rbase =>
          let s2 := (s.setRing r.1 h1).setWord (r.1 + 16 + 4 * h.wr) ((h.home.setWidth 16).setWidth 32)
          (consumers h rbase).foldl (fun (s : State) (rank : Nat) =>
            match s.tileOf c.tid (consVa rank choff) with
            | none => s
            | some t =>
              let key := t.key k (consVa rank choff)
              (match s.ring key with
               | some y => s.setRing key { y with filled := y.filled + 1 }
               | none => s)) s2
        | _ => s.setRing r.1 { h1 with filled := h.filled + 1 }
      let s2 := s1.modPkg k (fun p => p.modCmd n (fun y => { y with filled := y.written, dsts := [] }))
      .next (if c.written = c.total then s2.cmdOver k c else s2)
    | _, _ => .next s

/-! ### Waits and periods -/

/-- A path whose command has not been accepted tries again (R206). -/
def execCommandAccept (w : Nat) (s : State) : Out :=
  retry s w (fun i => match i with
    | .tcCopy m a => some (execTcCopy m a)
    | .tcOb m a => some (execTcOb m a)
    | .tcMcast m a => some (execTcMcast m a)
    | .permLoad m d a => some (execPermLoad m d a)
    | .rcopy m tok dep spr d a => some (execRcopy m tok dep spr d a)
    | .rst m dep spr d a => some (execRst m dep spr d a)
    | .rld m dep spr d a => some (execRld m dep spr d a)
    | .ratom m tok dep spr d a => some (execRatom m tok dep spr d a)
    | _ => none)
def execObRelDone (w : Nat) (s : State) : Out := retry s w (fun i => match i with | .obRel m a => some (execObRel m a) | _ => none)
/-- A period of 10 µs begins: each class's credit is its budget less what was overdrawn in the last, in which a class that was
not paced overdrew nothing (R347, R348). -/
def execBudgetPeriodStart (k : Nat) (s : State) : Out :=
  .next (s.modPkg k (fun p => { p with phys := { p.phys with pace := fall p.phys.pace (fun _ x =>
    { x with budget := x.next, credit := (x.next : Int) + min 0 x.credit }) } }))

end Sys2Proof.Machine
end

