-- ==== Sys2Proof/Machine/Coll.lean ====
section
/-! DEFINITION. Collectives (R232, R379 to R388): plans, runs, chunks, folds at the base-die reducers; copy segments at their
destination (R366, R368). -/

namespace Sys2Proof.Machine

/-! ### Plans (R379, R380) -/

def planEntry (k podsize : Nat) (stg : Bool) (b : List Byte) : Option PEntry :=
  let w0 := leNat (b.take 8)
  let w1 := leNat ((b.drop 8).take 8)
  let w2 := leNat ((b.drop 16).take 8)
  let w3 := leNat ((b.drop 24).take 8)
  let op := nbits w0 3 0
  let sb := nbits w0 9 8
  let db := nbits w0 11 10
  let red := nbits w0 12 12 == 1
  let peer := nbits w0 19 13
  let nel := nbits w3 23 0
  let suits := match op with
    | 0 => sb != 3 && db == 2
    | 1 => sb != 3 && db == 3
    | 2 => sb == 3 && (db == 1 || db == 2)
    | 3 => sb == 3 && db != 0
    | 4 => sb == 2 && db == 1
    | _ => false
  if nbits w0 63 62 ≠ 0 ∨ nbits w0 7 4 ≠ 0 ∨ nbits w1 63 58 ≠ 0 ∨ nbits w2 63 48 ≠ 0 ∨ nbits w3 63 24 ≠ 0 then none
  else if !suits ∨ (red ∧ db = 1) ∨ nel < 64 ∨ nel % 64 ≠ 0 ∨ (!stg ∧ (sb = 2 ∨ db = 2)) then none
  else if (op = 1 ∨ op = 3) ∧ (peer = k ∨ podsize ≤ peer) then none
  else some {
    op := op, sbase := sb, dbase := db, red := red, peer := peer, pidx := nbits w0 31 20, waitc := nbits w0 41 32, waitn := nbits w0 49 42
    sig0 := if nbits w0 60 60 = 1 then some (nbits w0 59 50) else none
    sig1 := if nbits w0 61 61 = 1 then some (nbits w1 57 48) else none
    soff := nbits w1 47 0, doff := nbits w2 47 0, nel := nel }
/-- A plan from its header of 32 bytes and its entries of 32 bytes each. -/
def planOf (k podsize : Nat) (hdr ents : List Byte) : Option Plan :=
  let h := leNat (hdr.take 8)
  let stg := nbits h 25 25 == 1
  let n := nbits h 12 0
  if nbits h 63 26 ≠ 0 ∨ nbits h 16 13 ≠ 0 ∨ leNat (hdr.drop 8) ≠ 0 ∨ n = 0 ∨ 4096 < n ∨ 3 < nbits h 24 22 ∨ 1 < nbits h 21 20 ∨
     3 < nbits h 19 17 ∨ ents.length < 32 * n then none
  else ((List.range n).mapM (fun i => planEntry k podsize stg ((ents.drop (32 * i)).take 32))).map (fun l =>
    ⟨stg, nbits h 24 22, nbits h 21 20, nbits h 19 17, l, 0⟩)
/-- Plan memory holds 32,768 entries. -/
def Pkg.planFits (p : Pkg) (slot n : Nat) : Bool :=
  ((p.coll.plans.filter (fun (e : Nat × Plan) => e.1 != slot)).map (fun (e : Nat × Plan) => e.2.ents.length)).sum + n ≤ 32768

/-! ### Values (R387, R388) -/

def fmtBytes (code : Nat) : Nat := if code = 0 then 2 else if code = 2 then 8 else 4
def accFmt (afmt : Nat) : Fmt := if afmt = 0 then fmt32 else fmt64
def accBytes (afmt : Nat) : Nat := if afmt = 0 then 4 else 8
/-- A value with what it adds to the status: NV, OVF. -/
structure CVal where
  bits : Nat
  nv : Bool
  ovf : Bool
  deriving DecidableEq, Repr
/-- Round a contribution to a format: a NaN becomes the canonical one. -/
def cRound (f : Fmt) (v : FVal) : CVal :=
  let r := roundVal f .rne v
  ⟨r.1, v.isNan, r.2 &&& flOF != 0⟩
def codeVal (code x : Nat) : FVal :=
  match code with
  | 0 => fmtB16.val x
  | 1 => fmt32.val x
  | 2 => fmt64.val x
  | _ => intVal (BitVec.ofNat 32 x).toInt
def widen (code afmt x : Nat) : CVal := cRound (accFmt afmt) (codeVal code x)
/-- One addition in the accumulation format. -/
def foldVal (afmt x y : Nat) : CVal :=
  let f := accFmt afmt
  let r := fAdd f .rne x y
  ⟨r.1, (f.val y).isNan || r.2 &&& flNV != 0, r.2 &&& flOF != 0⟩
def narrow (afmt code x : Nat) : CVal :=
  let v := (accFmt afmt).val x
  match code with
  | 0 => cRound fmtB16 v
  | 1 => cRound fmt32 v
  | 2 => cRound fmt64 v
  | _ => match v with
    | .nan _ => ⟨0, true, false⟩
    | .inf n => ⟨if n then 2 ^ 31 else 2 ^ 31 - 1, false, true⟩
    | .fin n m e =>
      let r := (roundInt .rne n m e).1
      let i : Int := if n then -(r : Int) else r
      if i < -2 ^ 31 then ⟨2 ^ 31, false, true⟩
      else if 2 ^ 31 ≤ i then ⟨2 ^ 31 - 1, false, true⟩
      else ⟨(BitVec.ofInt 32 i).toNat, false, false⟩
def splitVals (n : Nat) (bs : List Byte) : List Nat := (List.range (bs.length / n)).map (fun i => leNat ((bs.drop (i * n)).take n))

/-! ### Runs -/

def EntRec.init : EntRec := { st := .idle, got := false, segs := [], have_ := 0, next := 0, folds := 0, sent := 0 }
def CollRun.init : CollRun :=
  { seq := 0, rseq := 0, plan := 0, ctx := 0, base0 := 0, base1 := 0, base2 := 0, active := false, done := false, ab := false,
    fail := false, nv := false, ovf := false, ctrs := [], ents := [], pages := [], born := 0 }
def Plan.init : Plan := ⟨false, 0, 0, 0, [], 0⟩
def Pkg.plan (p : Pkg) (n : Nat) : Plan := fget Plan.init p.coll.plans n
def Pkg.run? (p : Pkg) (n : Nat) : Option CollRun := p.coll.runs.find? (fun r => r.seq == BitVec.ofNat 16 n)
def Pkg.modRun (p : Pkg) (n : W16) (f : CollRun → CollRun) : Pkg :=
  { p with coll := { p.coll with runs := p.coll.runs.map (fun r => if r.seq = n then f r else r) } }
def CollRun.ent (r : CollRun) (i : Nat) : EntRec := fget EntRec.init r.ents i
def CollRun.modEnt (r : CollRun) (i : Nat) (f : EntRec → EntRec) : CollRun := { r with ents := fput r.ents i (f (r.ent i)) }
def CollRun.note (r : CollRun) (l : List CVal) : CollRun :=
  { r with nv := r.nv || l.any (fun v => v.nv), ovf := r.ovf || l.any (fun v => v.ovf) }
def CollRun.base (r : CollRun) (n : Nat) : W64 := if n = 0 then r.base0 else if n = 1 then r.base1 else r.base2
def Plan.fmt (p : Plan) (n : Nat) : Nat := if n = 0 then p.ifmt else if n = 1 then p.ofmt else if p.afmt = 0 then 1 else 2
def PEntry.src (e : PEntry) (p : Plan) (r : CollRun) : W64 × Nat := (r.base e.sbase + BitVec.ofNat 64 e.soff, e.nel * fmtBytes (p.fmt e.sbase))
def PEntry.dst (e : PEntry) (p : Plan) (r : CollRun) : W64 × Nat := (r.base e.dbase + BitVec.ofNat 64 e.doff, e.nel * fmtBytes (p.fmt e.dbase))
/-- Elements of a segment, and segments of a chunk. -/
def Plan.perSeg (p : Plan) : Nat := 4096 / accBytes p.afmt
def Plan.nseg (p : Plan) (e : PEntry) : Nat := (e.nel + p.perSeg - 1) / p.perSeg
def Plan.segLen (p : Plan) (e : PEntry) (i : Nat) : Nat := min p.perSeg (e.nel - i * p.perSeg)
def PEntry.receives (e : PEntry) : Bool := e.op == 2 || e.op == 3
def PEntry.sends (e : PEntry) : Bool := e.op == 1 || e.op == 3
def PEntry.writes (e : PEntry) : Bool := e.dbase != 3

/-! ### `coll.run` and `coll.wt` (R232, R383, R385) -/

/-- A range of a run: committed on this package, or a local copy of a read-duplicated source; no bank alias. -/
def State.collBad (s : State) (k core : Nat) (ctx : W32) (sys : Bool) (kd : AccKind) (dup : Bool) (va : W64) (n : Nat) : Option W64 :=
  (stepsOf (2 ^ 16) va n).find? (fun a =>
    match s.checkG k core ctx sys kd a 1 with
    | .ok (.at_ _ _) => (match s.lookup k core ctx a with
        | some e => pteBank e.leaf || (!dup && pteState e.leaf == 3)
        | none => true)
    | _ => true)
def State.collFault (s : State) (k core : Nat) (ctx : W32) (sys : Bool) (p : Plan) (r : CollRun) : Option W64 :=
  p.ents.findSome? (fun e =>
    let a := if e.sbase = 3 then none else s.collBad k core ctx sys .load (e.sbase == 0) (e.src p r).1 (e.src p r).2
    match a with
    | some x => some x
    | none => if e.dbase = 3 then none else s.collBad k core ctx sys .store false (e.dst p r).1 (e.dst p r).2)
/-- The ranges that a run names. -/
def collRanges (p : Plan) (r : CollRun) : List (W64 × Nat) :=
  (p.ents.map (fun e => (if e.sbase = 3 then [] else [e.src p r]) ++ (if e.dbase = 3 then [] else [e.dst p r]))).flatten
def State.collPages (s : State) (k : Nat) (ctx : W32) (p : Plan) (r : CollRun) : List Nat :=
  (((collRanges p r).map (fun e => stepsOf (2 ^ 16) e.1 e.2)).flatten.filterMap (fun a => (s.devKey k ctx a).map (fun x => x / 2 ^ 16 * 2 ^ 16))).dedup
/-- Runs that have been issued and have not completed. -/
def Pkg.openRuns (p : Pkg) : List CollRun := p.coll.runs.filter (fun r => !r.done)
def Pkg.runRoom (p : Pkg) (slot : Nat) : Bool := p.openRuns.length < 16 && !p.coll.loading.contains slot
/-- The tag of a chunk's packets (R384). -/
def chunkTag (rseq plan pidx seg : Nat) : W64 :=
  BitVec.ofNat 64 (0xC5 * 2 ^ 56 + rseq % 2 ^ 16 * 2 ^ 40 + plan % 2 ^ 8 * 2 ^ 32 + pidx % 2 ^ 12 * 2 ^ 20 + seg % 2 ^ 20)
def isChunk (x : Packet) : Bool := x.kind == .copySeg && nbits x.addr.toNat 63 56 == 0xC5

/-- A run is abandoned: nothing of it starts any more (R381, R385). -/
def CollRun.abandon (r : CollRun) : CollRun := { r with ab := true, fail := true }
/-- A piece of a chunk comes to its entry (R381). -/
def CollRun.deliver (p : Plan) (x : Packet) (r : CollRun) : CollRun :=
  let i := nbits x.addr.toNat 31 20
  let seg := nbits x.addr.toNat 19 0
  if r.ab then r
  else match p.ents[i]? with
    | none => { r with fail := true }
    | some e =>
      let c := r.ent i
      if !e.receives ∨ x.src ≠ e.peer ∨ c.got ∨ c.st ≠ .idle then { r with fail := true }
      else
        let n := c.have_ + x.bytes.length
        let r1 := r.modEnt i (fun c => { c with segs := fput c.segs seg x.bytes, have_ := n, got := x.last })
        if x.last ∧ n ≠ e.nel * accBytes p.afmt then
          (r1.modEnt i (fun c => { c with segs := [], got := false })).abandon
        else r1
/-- The run of a chunk on a package, and whether it is still to be issued. -/
def Pkg.chunkRun (p : Pkg) (x : Packet) : Option CollRun :=
  p.coll.runs.find? (fun r => !r.done && r.plan == nbits x.addr.toNat 39 32 && r.rseq == nbits x.addr.toNat 55 40)
def Pkg.chunkEarly (p : Pkg) (x : Packet) : Bool :=
  match p.chunkRun x with
  | some r => !r.active
  | none => (nbits x.addr.toNat 55 40 + 2 ^ 16 - (p.plan (nbits x.addr.toNat 39 32)).runs) % 2 ^ 16 < 2 ^ 15
/-- A run becomes the one at work on its plan: the chunks that came early reach it. -/
def Pkg.activate (p : Pkg) (r : CollRun) : Pkg :=
  let mine := p.fab.early.filter (fun (e : Nat × Packet) => nbits e.2.addr.toNat 39 32 == r.plan && nbits e.2.addr.toNat 55 40 == r.rseq)
  let rest := p.fab.early.filter (fun (e : Nat × Packet) => !(nbits e.2.addr.toNat 39 32 == r.plan && nbits e.2.addr.toNat 55 40 == r.rseq))
  ({ p with fab := { p.fab with early := rest } }).modRun r.seq (fun r =>
    mine.foldl (fun (r : CollRun) (e : Nat × Packet) => r.deliver (p.plan r.plan) e.2) { r with active := true })
def Pkg.activateNext (p : Pkg) (plan : Nat) : Pkg :=
  if p.openRuns.any (fun r => r.plan == plan && r.active) then p
  else match p.openRuns.find? (fun r => r.plan == plan) with
    | some r => p.activate r
    | none => p
/-- Issue a run; the answer is its number. -/
def Pkg.issueRun (p : Pkg) (plan : Nat) (r : CollRun) : W16 × Pkg :=
  let n := p.coll.runSeq
  let pl := p.plan plan
  let r1 := { r with seq := n, rseq := pl.runs % 2 ^ 16, plan := plan }
  let keep := p.coll.runs.filter (fun x => !x.done || (n + 1 - x.seq).toNat ≤ 256)
  let p1 := { p with coll := { p.coll with
    runs := keep ++ [r1], runSeq := n + 1, plans := fput p.coll.plans plan { pl with runs := (pl.runs + 1) % 2 ^ 16 } } }
  (n, p1.activateNext plan)
def execCollRun (m : Mods) (d a : Reg) (s : State) : Out :=
  match s.elected m with
  | none => .next (finish s [])
  | some e =>
    let b := s.block e a 8
    let slot := bf b 0 7 0
    let k := s.curPkg
    let p := s.pkg k
    let r := { CollRun.init with born := s.nextId, ctx := s.curCtx, base0 := bd b 2, base1 := bd b 4, base2 := bd b 6 }
    if bf b 0 31 8 ≠ 0 ∨ bw b 1 ≠ 0 then .next (refuse s m .param)
    else if p.coll.loading.contains slot then .next (waitAt s (.collRun m d a))
    else match flook p.coll.plans slot with
      | none => .next (refuse s m .param)
      | some pl =>
        if pl.stg ∧ bd b 6 = 0 then .next (refuse s m .param)
        else match s.collFault k s.curTroupe.core s.curCtx s.curWave.sys pl r with
          | some va => .next (faultElected s m .prot 0 va)
          | none =>
            let vas := ((collRanges pl r).map (fun e => stepsOf (2 ^ 16) e.1 e.2)).flatten
            if !p.runRoom slot || s.walkWait .g vas || s.relWait .pkg then .next (waitAt (s.missed .g vas) (.collRun m d a))
            else
              let s1 := s.walked .g vas
              let q := (s1.pkg k).issueRun slot { r with pages := s.collPages k s.curCtx pl r }
              .next (finish (sendAll (s1.setPkg k q.2) m .owed d 1 (outs32 d (BitVec.ofNat 32 (2 ^ 31 + q.1.toNat * 2 ^ 8 + slot)))) [])
def CollRun.status (r : CollRun) : W32 := BitVec.ofNat 32 (r.ovf.toNat + 2 * r.nv.toNat + 4 * r.fail.toNat)
def execCollWt (m : Mods) (d a : Reg) (s : State) : Out :=
  match s.elected m with
  | none => .next (finish s [])
  | some e =>
    let h := s.src s.cur.wid e a
    let seq := h.extractLsb' 8 16
    let p := s.pkg s.curPkg
    let back := (p.coll.runSeq - seq).toNat
    let give := fun (v : W32) => Host.Outcome.next (finish ((sendAll s m .owed d 1 (outs32 d v)).acquireLines .pkg) [])
    if !h.getLsbD 31 ∨ nbits h.toNat 30 24 ≠ 0 ∨ back = 0 ∨ 2 ^ 15 < back then .next (refuse s m .param)
    else match p.coll.runs.find? (fun r => r.seq == seq) with
      | none => give 8
      | some r =>
        if !r.done then .next (waitAt s (.collWt m d a))
        else if 256 < back then give 8
        else give r.status

/-! ### Entries (R381, R382) -/

/-- Whether what an entry does to its destination is done. -/
def Plan.effected (p : Plan) (r : CollRun) (i : Nat) (e : PEntry) : Bool :=
  let c := r.ent i
  c.st == .done || !e.writes || (c.st == .started && c.next == p.nseg e && c.folds == 0)
/-- A lower entry whose bytes overlap has not taken effect (R382). -/
def Plan.blocked (p : Plan) (r : CollRun) (i : Nat) (e : PEntry) : Bool :=
  e.writes && (p.ents.take i).zipIdx.any (fun x =>
    x.1.writes && overlaps (e.dst p r).1.toNat (e.dst p r).2 (x.1.dst p r).1.toNat (x.1.dst p r).2 && !p.effected r x.2 x.1)
def Plan.mayStart (p : Plan) (r : CollRun) (i : Nat) (e : PEntry) : Bool :=
  r.active && !r.done && !r.ab && (r.ent i).st == .idle && e.waitn ≤ fget 0 r.ctrs e.waitc && (!e.receives || (r.ent i).got) && !p.blocked r i e
/-- Bytes of a range of a run on this package, in pieces that do not cross pages: its pages as they were mapped when it was
issued (R383). -/
def State.devSpans (s : State) (k : Nat) (r : CollRun) (va : W64) (n : Nat) : List (Nat × Nat) :=
  (stepsOf (2 ^ 16) va n).filterMap (fun a =>
    (s.heldKey k r.ctx r.born a).map (fun key => (key, min (2 ^ 16 - a.toNat % 2 ^ 16) (va.toNat + n - a.toNat))))
/-- The values of a segment: arrived, or read and widened. -/
def State.segVals (s : State) (k : Nat) (p : Plan) (r : CollRun) (i : Nat) (e : PEntry) (seg : Nat) : List CVal :=
  let n := p.segLen e seg
  if e.receives then
    (splitVals (accBytes p.afmt) (fget [] (r.ent i).segs seg)).map (fun x => cRound (accFmt p.afmt) ((accFmt p.afmt).val x))
  else
    let z := fmtBytes (p.fmt e.sbase)
    let va := (e.src p r).1 + BitVec.ofNat 64 (seg * p.perSeg * z)
    (splitVals z (s.loadSpans (s.devSpans k r va (n * z)))).map (widen (p.fmt e.sbase) p.afmt)
def State.segPoisoned (s : State) (k : Nat) (p : Plan) (r : CollRun) (e : PEntry) (seg : Nat) : Bool :=
  let z := fmtBytes (p.fmt e.sbase)
  !e.receives && s.spansPoisoned (s.devSpans k r ((e.src p r).1 + BitVec.ofNat 64 (seg * p.perSeg * z)) (p.segLen e seg * z))
/-- Ranges of whole elements of `z` bytes: where a page ends within an element, that element is a piece of its own, in two
parts. A segment reaches two pages at most. -/
def cutElems (z : Nat) (l : List (Nat × Nat)) : List (List (Nat × Nat)) :=
  match l with
  | [(a, n), (b, m)] =>
    let x := n % z
    if x = 0 then [[(a, n)], [(b, m)]]
    else [[(a, n - x)], [(a + (n - x), x), (b, z - x)], [(b + (z - x), m - (z - x))]].filter (fun y => y.any (fun e => e.2 != 0) && !y.any (fun e => e.2 == 0))
  | l => l.map (fun e => [e])
/-- The reducer's commands for a segment, split where its destination crosses a page (R386). -/
def State.foldSegs (s : State) (k : Nat) (p : Plan) (r : CollRun) (i : Nat) (e : PEntry) (seg : Nat) (vals : List Nat) : List FoldSeg :=
  let z := fmtBytes (p.fmt e.dbase)
  let va := (e.dst p r).1 + BitVec.ofNat 64 (seg * p.perSeg * z)
  (cutElems z (s.devSpans k r va (vals.length * z))).foldl (fun (acc : List FoldSeg × Nat) x =>
    let n := (x.map (fun e => e.2)).sum / z
    (acc.1 ++ [{ stack := (x.headD (0, 0)).1 % 2 ^ 44 / 2 ^ 36, run := r.seq, ent := i, seg := seg, off := acc.2 * accBytes p.afmt, at_ := x,
                 fold := e.red, vals := ((vals.drop acc.2).take n).map (BitVec.ofNat 64) }], acc.2 + n)) ([], 0) |>.1
/-- The packet that carries a segment to an entry of a peer (R384). -/
def chunkPacket (k : Nat) (r : CollRun) (p : Plan) (e : PEntry) (seg : Nat) (bs : List Byte) : Packet :=
  { Packet.init with src := k, dst := e.peer, kind := .copySeg, last := seg + 1 == p.nseg e, addr := chunkTag r.rseq r.plan e.pidx seg, bytes := bs, ctx := r.ctx }
def valBytes (afmt : Nat) (l : List Nat) : List Byte := (l.map (fun v => leBytes (accBytes afmt) v)).flatten
/-- A reducer that takes no folds: it is fenced or under test (R426). -/
def Pkg.redDown (p : Pkg) (n : Nat) : Bool := p.phys.redBad.contains n || p.phys.tests.any (fun t => t.cls == 4 && t.unit == n)
/-- The reducer that folds for a stack: its own, or the other one of its die (R426). -/
def Pkg.reducer (p : Pkg) (stack : Nat) : Nat := if p.redDown stack && !p.redDown (stack ^^^ 1) then stack ^^^ 1 else stack
/-- A reducer's queue has room for another segment's commands. -/
def Pkg.foldRoom (p : Pkg) (l : List FoldSeg) : Bool :=
  l.all (fun f => (p.coll.folds.filter (fun g => p.reducer g.stack == p.reducer f.stack)).length + l.length ≤ 256)
/-- What an entry that has started does next. -/
inductive EntStep
  | none_
  | fold (vals : List CVal) (cmds : List FoldSeg)
  | send (vals : List CVal) (bs : List Byte)
  | poison
  deriving DecidableEq, Repr
def State.entStep (s : State) (k : Nat) (p : Plan) (r : CollRun) (i : Nat) (e : PEntry) : EntStep :=
  let c := r.ent i
  if e.writes ∧ c.next < p.nseg e then
    if s.segPoisoned k p r e c.next then .poison
    else
      let v := s.segVals k p r i e c.next
      let l := s.foldSegs k p r i e c.next (v.map (fun x => x.bits))
      if (s.pkg k).foldRoom l then .fold v l else .none_
  else if e.sends ∧ c.sent < p.nseg e ∧ (!e.writes ∨ c.folds = 0) ∧ (s.pkg k).vqRoom e.peer 66 then
    if s.segPoisoned k p r e c.sent then .poison
    else if e.op = 3 ∧ e.writes then .send [] (fget [] c.segs c.sent)
    else
      let v := s.segVals k p r i e c.sent
      .send v (valBytes p.afmt (v.map (fun x => x.bits)))
  else .none_
/-- An entry starts, or goes on by a segment. -/
def execCollEntryStart (k n i : Nat) (s : State) : Out :=
  match (s.pkg k).run? n with
  | none => .next s
  | some r =>
    let p := (s.pkg k).plan r.plan
    match p.ents[i]? with
    | none => .next s
    | some e =>
      if !(p.mayStart r i e || ((r.ent i).st == .started && !r.ab && !r.done)) then .next s
      else
        let begin_ := fun (r : CollRun) => r.modEnt i (fun c => { c with st := .started })
        match s.entStep k p r i e with
        | .none_ => .next (s.modPkg k (fun q => q.modRun r.seq begin_))
        | .poison => .next (s.modPkg k (fun q => q.modRun r.seq (fun r => (begin_ r).abandon)))
        | .fold v l => .next (s.modPkg k (fun q =>
            let q1 := q.modRun r.seq (fun r => ((begin_ r).note v).modEnt i (fun c => { c with next := c.next + 1, folds := c.folds + l.length }))
            { q1 with coll := { q1.coll with folds := q1.coll.folds ++ l } }))
        | .send v bs => .next (s.modPkg k (fun q =>
            (q.sendDirect (chunkPacket k r p e (r.ent i).sent bs)).modRun r.seq (fun r => ((begin_ r).note v).modEnt i (fun c => { c with sent := c.sent + 1 }))))

/-! ### Folding (R386 to R388) -/

/-- The values that a command leaves at its destination, and what it writes there. -/
def foldOut (p : Plan) (e : PEntry) (old : List Byte) (vals : List Nat) : List CVal × List Byte :=
  if e.dbase = 1 then
    let l := vals.map (narrow p.afmt p.ofmt)
    (l, (l.map (fun v => leBytes (fmtBytes p.ofmt) v.bits)).flatten)
  else if e.red then
    let l := ((splitVals (accBytes p.afmt) old).zip vals).map (fun x => foldVal p.afmt x.1 x.2)
    (l, valBytes p.afmt (l.map (fun v => v.bits)))
  else (vals.map (fun v => ⟨v, false, false⟩), valBytes p.afmt vals)
/-- Put a result back where a FWD entry sends it on from. -/
def EntRec.putBack (c : EntRec) (seg off : Nat) (bs : List Byte) : EntRec :=
  let x := fget [] c.segs seg
  { c with segs := fput c.segs seg (x.take off ++ bs ++ x.drop (off + bs.length)) }
/-- The elements that a reducer takes next from a command: those up to the end of a 256-byte unit (R386). -/
def FoldSeg.unit (f : FoldSeg) (z : Nat) : Nat :=
  match f.at_ with
  | [(a, _)] => min f.vals.length (max 1 ((256 - a % 256) / z))
  | _ => f.vals.length
/-- What is left of a command. -/
def FoldSeg.rest (f : FoldSeg) (n z acc : Nat) : FoldSeg :=
  { f with off := f.off + n * acc, at_ := f.at_.map (fun e => (e.1 + n * z, e.2 - n * z)), vals := f.vals.drop n }
/-- A reducer goes on with the first command in its queue, by one unit of 256 bytes, while its credit lasts. -/
def execReducerFold (k n : Nat) (s : State) : Out :=
  let q := s.pkg k
  match q.coll.folds[n]? with
  | none => .next s
  | some f =>
    if q.redDown (q.reducer f.stack) || (q.coll.folds.take n).any (fun g => q.reducer g.stack == q.reducer f.stack) ||
       (f.fold && !q.mayStart paceReduce) then .next s
    else
      let s1 := s.modPkg k (fun q => { q with coll := { q.coll with folds := q.coll.folds.eraseIdx n } })
      match q.run? f.run.toNat with
      | none => .next s1
      | some r =>
        let p := q.plan r.plan
        match p.ents[f.ent]? with
        | none => .next s1
        | some e =>
          let z := fmtBytes (p.fmt e.dbase)
          let num := f.unit z
          let at_ := match f.at_ with | [(a, _)] => [(a, num * z)] | l => l
          if f.fold ∧ s.spansPoisoned at_ then
            .next (s1.modPkg k (fun q => q.modRun r.seq (fun r => (r.modEnt f.ent (fun c => { c with folds := c.folds - 1 })).abandon)))
          else
            let o := foldOut p e (s.loadSpans at_) ((f.vals.take num).map (fun v => v.toNat))
            let last := f.vals.length ≤ num
            let s2 := (if last then s1
              else s.modPkg k (fun q => { q with coll := { q.coll with folds := q.coll.folds.set n (f.rest num z (accBytes p.afmt)) } })).storeSpans at_ o.2
            .next (s2.modPkg k (fun q => (if f.fold then q.spend paceReduce (num * accBytes p.afmt) else q).modRun r.seq (fun r =>
              (r.note o.1).modEnt f.ent (fun c =>
                let c1 := if last then { c with folds := c.folds - 1 } else c
                if e.op = 3 ∧ e.dbase = 2 then c1.putBack f.seg f.off o.2 else c1))))

/-! ### Completion -/

/-- A chunk's packets that the peer has not reported yet. -/
def Pkg.unacked (p : Pkg) (r : CollRun) (e : PEntry) : Bool :=
  let q := p.peer e.peer
  (q.vq ++ q.unackD).any (fun x => isChunk x && x.addr.toNat / 2 ^ 20 == (chunkTag r.rseq r.plan e.pidx 0).toNat / 2 ^ 20)
def Pkg.entDone (q : Pkg) (p : Plan) (r : CollRun) (i : Nat) (e : PEntry) : Bool :=
  let c := r.ent i
  c.st == .started && (!e.writes || (c.next == p.nseg e && c.folds == 0)) && (!e.sends || (c.sent == p.nseg e && !q.unacked r e))
def CollRun.signal (r : CollRun) (c : Option Nat) : CollRun :=
  match c with | some n => { r with ctrs := fput r.ctrs n (fget 0 r.ctrs n + 1) } | none => r
/-- Destinations of an abandoned run hold unspecified data. -/
def State.spoil (s : State) (k : Nat) (p : Plan) (r : CollRun) : State :=
  ((p.ents.filter (fun e => e.writes)).map (fun e => e.dst p r)).zipIdx.foldl (fun s x =>
    let f := s.fresh
    ({ s with fresh := f + 1 }).storeSpans (s.devSpans k r x.1.1 x.1.2) ((List.range x.1.2).map (fun i => Config.freeByte f i))) s
/-- A run is over: the next run of its plan goes on. -/
def State.retireRun (s : State) (k : Nat) (r : CollRun) : State :=
  let p := (s.pkg k).plan r.plan
  let s1 := if r.ab then s.spoil k p r else s
  s1.modPkg k (fun q => (q.modRun r.seq (fun r => { r with done := true, pages := [], ents := [] })).activateNext r.plan)
def execCollEntryComplete (k n i : Nat) (s : State) : Out :=
  match (s.pkg k).run? n with
  | none => .next s
  | some r =>
    let p := (s.pkg k).plan r.plan
    if r.done || !r.active then .next s
    else if r.ab then
      if (s.pkg k).coll.folds.any (fun f => f.run == r.seq) then .next s else .next (s.retireRun k r)
    else match p.ents[i]? with
      | none => .next s
      | some e =>
        if !(s.pkg k).entDone p r i e then .next s
        else
          let r1 := ((r.modEnt i (fun c => { c with st := .done, segs := [] })).signal e.sig0).signal e.sig1
          let s1 := s.modPkg k (fun q => q.modRun r.seq (fun _ => r1))
          .next (if (List.range p.ents.length).all (fun j => (r1.ent j).st == .done) then s1.retireRun k r1 else s1)

/-! ### Copy segments and chunks at their destination (R366, R368, R384) -/

def earlyBytes (p : Pkg) : Nat := (p.fab.early.map (fun (e : Nat × Packet) => e.2.bytes.length)).sum
/-- The chunk at the head of the arrivals has no room in the early-arrival area. -/
def Pkg.earlyFull (p : Pkg) : Bool :=
  match p.fab.arrivals with
  | (_, x) :: _ => isChunk x && p.chunkEarly x && decide (4 * 2 ^ 20 < earlyBytes p + x.bytes.length)
  | [] => false
def Pkg.takeChunk (p : Pkg) (x : Packet) : Pkg :=
  if p.chunkEarly x then { p with fab := { p.fab with early := p.fab.early ++ [(x.src, x)] } }
  else match p.chunkRun x with
    | some r => p.modRun r.seq (fun r => r.deliver (p.plan r.plan) x)
    | none => p
/-- A segment of a remote copy is written at its home, or discarded. -/
def State.copyIn (s : State) (k : Nat) (x : Packet) : State :=
  let as := stepsOf (2 ^ 16) x.addr x.bytes.length
  match as.find? (fun a => match s.homeCheck k x .store a with | .ok (.at_ _ _) => false | _ => true) with
  | some a => s.discard x 32 a
  | none => as.foldl (fun s a =>
      match s.homeCheck k x .store a with
      | .ok (.at_ key _) =>
        let done := a.toNat - x.addr.toNat
        s.homeStore x key ((x.bytes.drop done).take (2 ^ 16 - a.toNat % 2 ^ 16))
      | _ => s) s
def execCopySegmentPacket (k : Nat) (s : State) : Out :=
  if (s.pkg k).earlyFull then .next s
  else onPacket k .copySeg s (fun _ x s => if isChunk x then s.modPkg k (fun p => p.takeChunk x) else s.copyIn k x)

end Sys2Proof.Machine
end

