-- ==== Sys2Proof/Machine/Special.lean ====
section
/-! DEFINITION. The correctly rounded special functions `fexp2`, `flog2`, `fsinpi`, `fcospi` and `ftanh` (R54): the value
is enclosed between two numbers of growing precision until both round alike. -/

namespace Sys2Proof.Machine

/-! ### Fixed-point series: numbers scaled by `2^w`, each cut short by at most one unit a term -/

/-- `ln 2 = 2 * atanh(1/3)`. -/
def ln2Go (w : Nat) : Nat → Nat → Nat → Nat
  | 0, _, _ => 0
  | n + 1, k, p => 2 * (p / (2 * k + 1)) + ln2Go w n (k + 1) (p / 9)
def ln2Fix (w : Nat) : Nat := ln2Go w (w / 3 + 2) 0 (2 ^ w / 3)
/-- `atan(1/d)`. -/
def atanGo (d : Nat) : Nat → Nat → Int → Int
  | 0, _, _ => 0
  | n + 1, k, p => (if k % 2 = 0 then 1 else -1) * (p / (2 * (k : Int) + 1)) + atanGo d n (k + 1) (p / ((d * d : Nat) : Int))
/-- `pi = 16 atan(1/5) - 4 atan(1/239)`. -/
def piFix (w : Nat) : Int := 16 * atanGo 5 (w / 4 + 2) 0 (2 ^ w / 5) - 4 * atanGo 239 (w / 15 + 2) 0 (2 ^ w / 239)
/-- `e^t - 1` for a fixed-point `t`. -/
def expm1Go (w : Nat) (t : Int) : Nat → Nat → Int → Int
  | 0, _, _ => 0
  | n + 1, k, p => p + expm1Go w t n (k + 1) (p * t / 2 ^ w / ((k : Int) + 1))
/-- Number of series terms used at precision `w`. -/
def terms (w : Nat) : Nat := w / 4 + 24
def expm1Fix (w : Nat) (t : Int) : Int := expm1Go w t (terms w) 1 t
/-- `sin t` and `cos t - 1`: the odd and even terms of the series, `p` the power over factorial reached. -/
def sinGo (w : Nat) (t2 : Int) : Nat → Nat → Int → Int
  | 0, _, _ => 0
  | n + 1, k, p => p + sinGo w t2 n (k + 2) (-(p * t2 / 2 ^ w / (((k + 1) * (k + 2) : Nat) : Int)))
def sinFix (w : Nat) (t : Int) : Int := sinGo w (t * t / 2 ^ w) (terms w) 1 t
def cosFix (w : Nat) (t : Int) : Int := sinGo w (t * t / 2 ^ w) (terms w) 0 (2 ^ w)
/-- `atanh z`. -/
def atanhGo (w : Nat) (z2 : Int) : Nat → Nat → Int → Int
  | 0, _, _ => 0
  | n + 1, k, p => p / (2 * (k : Int) + 1) + atanhGo w z2 n (k + 1) (p * z2 / 2 ^ w)
def atanhFix (w : Nat) (z : Int) : Int := atanhGo w (z * z / 2 ^ w) (w / 2 + 4) 0 z

/-- A bound in units of `2^-w` on the error of any of the values above. -/
def slack (w : Nat) : Int := 64 * (w : Int) + 4096

/-! ### Enclosures -/

/-- An enclosure of a positive number, in units of `2^e`: the number lies strictly between. -/
structure Encl where
  lo : Int
  hi : Int
  e : Int
  deriving DecidableEq, Repr

/-- A dyadic number `m * 2^e` in units of `2^-w`, cut short. -/
def toFix (w : Nat) (m : Nat) (e : Int) : Int :=
  if 0 ≤ e + w then ((m * 2 ^ (e + w).toNat : Nat) : Int) else ((m / 2 ^ (-(e + w)).toNat : Nat) : Int)

/-- `2^(i + f)` for a fraction `f = m * 2^e` in (0, 1). -/
def encExp2 (i : Int) (m : Nat) (e : Int) (w : Nat) : Encl :=
  let t := toFix w m e * (ln2Fix w : Int) / 2 ^ w
  let v := 2 ^ w + expm1Fix w t
  ⟨v - slack w, v + slack w, i - w⟩
/-- The magnitude of `log2` of `m * 2^e`, and whether it is negative. The argument is written `z * 2^k` with `z` in [3/4, 3/2). -/
def encLog2 (m : Nat) (e : Int) (w : Nat) : Bool × Encl :=
  let k0 := e + bitLen m - 1
  let y := 2 ^ (bitLen m - 1)
  let up := decide (3 * y ≤ 2 * m)
  let den := if up then 2 * y else y
  let k := if up then k0 + 1 else k0
  let z := (((m : Int) - den) * 2 ^ w) / (((m + den : Nat) : Int))
  let l := 2 * atanhFix w z
  let v := k * 2 ^ w + l * 2 ^ w / (ln2Fix w : Int)
  let a := if v < 0 then -v else v
  (decide (v < 0), ⟨a - 8 * slack w, a + 8 * slack w, -(w : Int)⟩)
/-- `sin(pi r)` for `r = m * 2^e` in (0, 1/2). -/
def encSinPi (m : Nat) (e : Int) (w : Nat) : Encl :=
  let t := toFix w m e * piFix w / 2 ^ w
  let v := sinFix w t
  ⟨v - slack w, v + slack w, -(w : Int)⟩
/-- `cos(pi r)` for `r = m * 2^e` in (0, 1/2), taken as the sine of the complement beyond 1/4. -/
def encCosPi (m : Nat) (e : Int) (w : Nat) : Encl :=
  if 4 * m ≤ 2 ^ (-e).toNat then
    let t := toFix w m e * piFix w / 2 ^ w
    let v := cosFix w t
    ⟨v - slack w, v + slack w, -(w : Int)⟩
  else encSinPi (2 ^ (-e - 1).toNat - m) e w
/-- `tanh x` for `x = m * 2^e` in (0, 32): `(a - 1) / (a + 1)` with `a = e^(2x)`. -/
def encTanh (m : Nat) (e : Int) (w : Nat) : Encl :=
  let t := toFix w m (e + 1)
  let l := (ln2Fix w : Int)
  let k := t / l
  let r := expm1Fix w (t - k * l)
  -- a - 1 in units of 2^-w, with an error below 2^k slacks
  let a := (2 ^ w + r) * 2 ^ k.toNat - 2 ^ w
  let er := slack w * 2 ^ (k.toNat + 1)
  ⟨(a - er) * 2 ^ w / (a - er + 2 * 2 ^ w), (a + er) * 2 ^ w / (a + er + 2 * 2 ^ w) + 1, -(w : Int)⟩

/-- Round a value that no format holds exactly: raise the precision until both ends of the enclosure round alike. -/
def zivGo (f : Fmt) (md : RMode) (enc : Nat → Bool × Encl) : Nat → Nat → FRes
  | 0, _ => (f.nan, flNone)
  | n + 1, w =>
    let c := enc w
    let lo := roundFin f md c.1 (2 * c.2.lo + 1).toNat (c.2.e - 1)
    let hi := roundFin f md c.1 (2 * c.2.hi - 1).toNat (c.2.e - 1)
    if 0 < c.2.lo ∧ lo = hi then lo
    else match n with
      | 0 => lo
      | _ => zivGo f md enc n (2 * w)
def ziv (f : Fmt) (md : RMode) (enc : Nat → Bool × Encl) : FRes := zivGo f md enc 5 128

/-- A value just above or just below `m * 2^e`, too close for any format to tell apart. -/
def justAbove (f : Fmt) (md : RMode) (n : Bool) (m : Nat) (e : Int) : FRes := roundFin f md n (m * 2 ^ 64 + 1) (e - 64)
def justBelow (f : Fmt) (md : RMode) (n : Bool) (m : Nat) (e : Int) : FRes := roundFin f md n (m * 2 ^ 64 - 1) (e - 64)

/-! ### The functions -/

/-- Integer part (towards minus infinity) and fraction of a value: `(i, m, e)` with fraction `m * 2^e`. -/
def splitVal (n : Bool) (m : Nat) (e : Int) : Int × Nat × Int :=
  if 0 ≤ e then (scaledTo 0 (.fin n m e), 0, 0)
  else
    let u : Nat := 2 ^ (-e).toNat
    let x : Int := if n then -(m : Int) else m
    (x / u, (x % u).toNat, e)

def fExp2 (f : Fmt) (md : RMode) (x : Nat) : FRes :=
  match f.val x with
  | .nan s => (f.nan, sigFlag [.nan s])
  | .inf n => if n then (0, flNone) else (f.infBits, flNone)
  | .fin n m e =>
    -- beyond these magnitudes the result overflows, or lies below half the smallest subnormal
    if m = 0 then roundFin f md false 1 0
    else if (12 : Int) ≤ e + bitLen m then
      (if n then justAbove f md false 1 (f.qmin - 80) else roundFin f md false 1 (2 * f.bias + 2))
    else
      let p := splitVal n m e
      if p.2.1 = 0 then roundFin f md false 1 p.1
      else ziv f md (fun w => (false, encExp2 p.1 p.2.1 p.2.2 w))
def fLog2 (f : Fmt) (md : RMode) (x : Nat) : FRes :=
  match f.val x with
  | .nan s => (f.nan, sigFlag [.nan s])
  | .inf n => if n then (f.nan, flNV) else (f.infBits, flNone)
  | .fin n m e =>
    if m = 0 then (f.sign true + f.infBits, flDZ)
    else if n then (f.nan, flNV)
    else if m = 2 ^ (bitLen m - 1) then roundVal f md (intVal (e + bitLen m - 1))
    else ziv f md (fun w => encLog2 m e w)
/-- `r` modulo 2 as quarter turns: which half-integer it lies at or after, and what remains, for `m * 2^e`. -/
def halfTurns (m : Nat) (e : Int) : Nat × Nat × Int :=
  if (2 : Int) ≤ e + 1 then (0, 0, e)
  else if 0 ≤ e + 1 then (m * 2 ^ (e + 1).toNat % 4, 0, e)
  else
    let u : Nat := 2 ^ (-(e + 1)).toNat
    (m / u % 4, m % u, e)
def fSinPi (f : Fmt) (md : RMode) (x : Nat) : FRes :=
  match f.val x with
  | .nan s => (f.nan, sigFlag [.nan s])
  | .inf _ => (f.nan, flNV)
  | .fin n m e =>
    let h := halfTurns m e
    let neg := n ^^ (2 ≤ h.1)
    if h.2.1 = 0 then (if h.1 % 2 = 0 then roundFin f md n 0 0 else roundFin f md neg 1 0)
    else if h.1 % 2 = 0 then ziv f md (fun w => (neg, encSinPi h.2.1 h.2.2 w))
    else ziv f md (fun w => (neg, encCosPi h.2.1 h.2.2 w))
def fCosPi (f : Fmt) (md : RMode) (x : Nat) : FRes :=
  match f.val x with
  | .nan s => (f.nan, sigFlag [.nan s])
  | .inf _ => (f.nan, flNV)
  | .fin _ m e =>
    let h := halfTurns m e
    let neg := h.1 == 1 || h.1 == 2
    if h.2.1 = 0 then (if h.1 % 2 = 0 then roundFin f md neg 1 0 else roundFin f md false 0 0)
    else if h.1 % 2 = 0 then ziv f md (fun w => (neg, encCosPi h.2.1 h.2.2 w))
    else ziv f md (fun w => (neg, encSinPi h.2.1 h.2.2 w))
def fTanh (f : Fmt) (md : RMode) (x : Nat) : FRes :=
  match f.val x with
  | .nan s => (f.nan, sigFlag [.nan s])
  | .inf n => roundFin f md n 1 0
  | .fin n m e =>
    if m = 0 then roundFin f md n 0 0
    else if (5 : Int) < e + bitLen m then justBelow f md n 1 0
    else ziv f md (fun w => (n, encTanh m e w))

end Sys2Proof.Machine
end

