-- ==== Sys2Proof/Machine/FloatOps.lean ====
section
/-! DEFINITION. The V-pipe instructions on the values of one lane: arithmetic, sign bits, exponents, comparison,
special functions, dot product and conversion (R141 to R152). -/

namespace Sys2Proof.Machine

/-! ### Elements of an operand (R48, R141) -/

def FFmt.fmt : FFmt → Fmt
  | .f32 => fmt32 | .f64 => fmt64 | .f16 => fmt16 | .bf16 => fmtB16 | .f16x2 => fmt16 | .bf16x2 => fmtB16
def FFmt.packed : FFmt → Bool
  | .f16x2 => true
  | .bf16x2 => true
  | _ => false
def elems (f : FFmt) (x : W64) : List Nat :=
  if FFmt.packed f then [nbits x.toNat 15 0, nbits x.toNat 31 16] else [x.toNat % 2 ^ (FFmt.fmt f).bits]
/-- A result from its elements: a 16-bit scalar has zeros above it. -/
def joinElems (xs : List FRes) : W64 × BitVec 5 :=
  (BitVec.ofNat 64 (match xs with
    | [a] => a.1
    | [a, b] => a.1 + b.1 * 2 ^ 16
    | _ => 0),
   xs.foldl (fun f x => f ||| x.2) flNone)
def op1 (f : FFmt) (g : Fmt → Nat → FRes) (x : W64) : W64 × BitVec 5 :=
  joinElems ((elems f x).map (g (FFmt.fmt f)))
def op2 (f : FFmt) (g : Fmt → Nat → Nat → FRes) (x y : W64) : W64 × BitVec 5 :=
  joinElems (List.zipWith (g (FFmt.fmt f)) (elems f x) (elems f y))
def op3 (f : FFmt) (g : Fmt → Nat → Nat → Nat → FRes) (x y z : W64) : W64 × BitVec 5 :=
  joinElems (List.zipWith (fun h c => h c) (List.zipWith (g (FFmt.fmt f)) (elems f x) (elems f y)) (elems f z))

/-! ### Shapes (R141, R142) -/

/-- Fixed latency of a format (R87). -/
def latV (f : FFmt) : Lat := if f = .f64 then .fixed 6 else .fixed 4
/-- Every active lane writes `n` registers and ORs in flags. -/
def laneF (s : State) (m : Mods) (t : Lat) (n : Nat) (d : Reg) (g : Nat → W64 × BitVec 5) : Out :=
  .next (perLane m t (dstRegs d n) (fun l => (outsN n d (g l).1, (g l).2)) s)
/-- D ← f(A). -/
def unary (s : State) (m : Mods) (t : Lat) (f : FFmt) (d a : Reg) (g : Fmt → Nat → FRes) : Out :=
  laneF s m t f.words d (fun l => op1 f g (s.srcN s.cur.wid l f.words a))
/-- D ← D op A. -/
def binary (s : State) (m : Mods) (t : Lat) (f : FFmt) (d a : Reg) (g : Fmt → Nat → Nat → FRes) : Out :=
  laneF s m t f.words d (fun l => op2 f g (s.srcN s.cur.wid l f.words d) (s.srcN s.cur.wid l f.words a))
/-- D ← A op B of an F3 major (R143). -/
def major32 (s : State) (m : Mods) (d a b : Reg) (g : Fmt → Nat → Nat → FRes) : Out :=
  laneF s m (latV .f32) 1 d (fun l =>
    op2 .f32 g ((s.src s.cur.wid l a).setWidth 64) ((s.srcBF32 s.cur.wid l m b).setWidth 64))
def major64 (s : State) (m : Mods) (d a b : Reg) (g : Fmt → Nat → Nat → FRes) : Out :=
  laneF s m (latV .f64) 2 d (fun l => op2 .f64 g (s.src64 s.cur.wid l a) (s.srcBF64 s.cur.wid l m b))

/-! ### Arithmetic (R143, R144) -/

def execFaddF32 (m : Mods) (d a b : Reg) (s : State) : Out := major32 s m d a b (fun f => fAdd f (s.rmode m .rne))
def execFsubF32 (m : Mods) (d a b : Reg) (s : State) : Out := major32 s m d a b (fun f => fSub f (s.rmode m .rne))
def execFmulF32 (m : Mods) (d a b : Reg) (s : State) : Out := major32 s m d a b (fun f => fMul f (s.rmode m .rne))
def execFfmaF32 (m : Mods) (d a b : Reg) (s : State) : Out :=
  laneF s m (latV .f32) 1 d (fun l =>
    op3 .f32 (fun f => fFma f (s.rmode m .rne)) ((s.src s.cur.wid l a).setWidth 64)
      ((s.srcBF32 s.cur.wid l m b).setWidth 64) ((s.srcC s.cur.wid l m d).setWidth 64))
def execFaddF64 (m : Mods) (d a b : Reg) (s : State) : Out := major64 s m d a b (fun f => fAdd f (s.rmode m .rne))
def execFmulF64 (m : Mods) (d a b : Reg) (s : State) : Out := major64 s m d a b (fun f => fMul f (s.rmode m .rne))
def execFfmaF64 (m : Mods) (d a b : Reg) (s : State) : Out :=
  laneF s m (latV .f64) 2 d (fun l =>
    op3 .f64 (fun f => fFma f (s.rmode m .rne)) (s.src64 s.cur.wid l a) (s.srcBF64 s.cur.wid l m b)
      (s.srcC64 s.cur.wid l m d))
def execFadd (m : Mods) (f : FFmt) (d a : Reg) (s : State) : Out :=
  binary s m (latV f) f d a (fun t => fAdd t (s.rmode m .rne))
def execFsub (m : Mods) (f : FFmt) (d a : Reg) (s : State) : Out :=
  binary s m (latV f) f d a (fun t => fSub t (s.rmode m .rne))
def execFmul (m : Mods) (f : FFmt) (d a : Reg) (s : State) : Out :=
  binary s m (latV f) f d a (fun t => fMul t (s.rmode m .rne))
/-- E as a value of `n` words. -/
def State.srcEN (s : State) (w l : Nat) (m : Mods) (n : Nat) : W64 :=
  if n = 2 then s.srcE64 w l m else (s.srcE w l m).setWidth 64
/-- D ← A × E + D (R143). -/
def execFfma (m : Mods) (f : FFmt) (d a : Reg) (s : State) : Out :=
  laneF s m (latV f) f.words d (fun l =>
    op3 f (fun t => fFma t (s.rmode m .rne)) (s.srcN s.cur.wid l f.words a) (s.srcEN s.cur.wid l m f.words)
      (s.srcN s.cur.wid l f.words d))
def execFmin (m : Mods) (f : FFmt) (d a : Reg) (s : State) : Out := binary s m (latV f) f d a (fun t => fMinMax t false)
def execFmax (m : Mods) (f : FFmt) (d a : Reg) (s : State) : Out := binary s m (latV f) f d a (fun t => fMinMax t true)
def execFdiv (m : Mods) (f : FFmt) (d a : Reg) (s : State) : Out :=
  binary s m .owed f d a (fun t => fDiv t (s.rmode m .rne))

/-! ### Sign bits (R145) -/

def signBit (t : Fmt) (x : Nat) : Nat := x / 2 ^ (t.eb + t.fb) % 2
def withSign (t : Fmt) (x b : Nat) : Nat := x % 2 ^ (t.eb + t.fb) + b % 2 * 2 ^ (t.eb + t.fb)
def execFabs (m : Mods) (f : FFmt) (d a : Reg) (s : State) : Out :=
  unary s m (latV f) f d a (fun t x => (withSign t x 0, flNone))
def execFneg (m : Mods) (f : FFmt) (d a : Reg) (s : State) : Out :=
  unary s m (latV f) f d a (fun t x => (withSign t x (1 - signBit t x), flNone))
def execFcopysign (m : Mods) (f : FFmt) (d a : Reg) (s : State) : Out :=
  binary s m (latV f) f d a (fun t x y => (withSign t x (signBit t y), flNone))

/-! ### Exponents and integral values (R146) -/

/-- The scale counts of `fscale`, one for each element. -/
def scaleCounts (f : FFmt) (x : W32) : List Int :=
  if FFmt.packed f then [(x.setWidth 16).toInt, (x.extractLsb' 16 16).toInt] else [x.toInt]
def execFscale (m : Mods) (f : FFmt) (d a : Reg) (s : State) : Out :=
  laneF s m (latV f) f.words d (fun l => joinElems
    (List.zipWith (fScale (FFmt.fmt f) (s.rmode m .rne)) (elems f (s.srcN s.cur.wid l f.words d))
      (scaleCounts f (s.src s.cur.wid l a))))
def execFgetexp (m : Mods) (f : FFmt) (d a : Reg) (s : State) : Out := unary s m (latV f) f d a fGetExp
def execFgetman (m : Mods) (f : FFmt) (d a : Reg) (s : State) : Out := unary s m (latV f) f d a fGetMan
def execFrint (m : Mods) (f : FFmt) (d a : Reg) (s : State) : Out :=
  unary s m (latV f) f d a (fun t => fRint t (s.rmode m .rne))

/-! ### Comparison and class (R147, R148) -/

/-- One FQ comparison: `sig` marks those that a quiet NaN makes invalid. -/
def fcmp (s : State) (m : Mods) (w : Bool) (p : BitVec 6) (a b : Reg) (sig : Bool) (f : FVal → FVal → Bool) : Out :=
  .next (perLane m (if w then .fixed 6 else .fixed 4) [.p (p.setWidth 7)] (fun l =>
    let x := if w then fmt64.val (s.src64 s.cur.wid l a).toNat else fmt32.val (s.src s.cur.wid l a).toNat
    let y := if w then fmt64.val (s.srcBF64 s.cur.wid l m b).toNat else fmt32.val (s.srcBF32 s.cur.wid l m b).toNat
    (outP (p.setWidth 7) (f x y),
      if sig && (x.isNan || y.isNan) then flNV else sigFlag [x, y])) s)
def execFcmpEq (m : Mods) (w : Bool) (p : BitVec 6) (a b : Reg) (s : State) : Out := fcmp s m w p a b false eqVal
def execFcmpLt (m : Mods) (w : Bool) (p : BitVec 6) (a b : Reg) (s : State) : Out := fcmp s m w p a b true (ltVal false)
def execFcmpLe (m : Mods) (w : Bool) (p : BitVec 6) (a b : Reg) (s : State) : Out :=
  fcmp s m w p a b true (fun x y => ltVal false x y || eqVal x y)
def execFcmpUn (m : Mods) (w : Bool) (p : BitVec 6) (a b : Reg) (s : State) : Out :=
  fcmp s m w p a b false (fun x y => x.isNan || y.isNan)
def execFclass (m : Mods) (f : FFmt) (d a : Reg) (s : State) : Out :=
  laneF s m (latV f) 1 d (fun l =>
    (BitVec.ofNat 64 (2 ^ fClass (FFmt.fmt f) ((elems f (s.srcN s.cur.wid l f.words a)).headD 0)), flNone))

/-! ### Special functions (R149) -/

def execFsqrt (m : Mods) (f : FFmt) (d a : Reg) (s : State) : Out :=
  unary s m .owed f d a (fun t => fSqrt t (s.rmode m .rne))
def execFrcp (m : Mods) (f : FFmt) (d a : Reg) (s : State) : Out :=
  unary s m .owed f d a (fun t => fRcp t (s.rmode m .rne))
def execFrsqrt (m : Mods) (f : FFmt) (d a : Reg) (s : State) : Out :=
  unary s m .owed f d a (fun t => fRsqrt t (s.rmode m .rne))
def execFexp2 (m : Mods) (f : FFmt) (d a : Reg) (s : State) : Out :=
  unary s m .owed f d a (fun t => fExp2 t (s.rmode m .rne))
def execFlog2 (m : Mods) (f : FFmt) (d a : Reg) (s : State) : Out :=
  unary s m .owed f d a (fun t => fLog2 t (s.rmode m .rne))
def execFsinpi (m : Mods) (f : FFmt) (d a : Reg) (s : State) : Out :=
  unary s m .owed f d a (fun t => fSinPi t (s.rmode m .rne))
def execFcospi (m : Mods) (f : FFmt) (d a : Reg) (s : State) : Out :=
  unary s m .owed f d a (fun t => fCosPi t (s.rmode m .rne))
def execFtanh (m : Mods) (f : FFmt) (d a : Reg) (s : State) : Out :=
  unary s m .owed f d a (fun t => fTanh t (s.rmode m .rne))

/-! ### Packed dot product (R150) -/

def fDot2 (t : Fmt) (md : RMode) (q : Nat) (x y : List Nat) : FRes :=
  finishF fmt32 md (sumProducts md [fmt32.val q] (List.zipWith (fun a b => (t.val a, t.val b)) x y))
def execFdot2 (m : Mods) (f : FFmt) (d a : Reg) (s : State) : Out :=
  laneF s m (.fixed 4) 1 d (fun l =>
    let r := fDot2 (FFmt.fmt f) (s.rmode m .rne) (s.src s.cur.wid l d).toNat
      (elems f ((s.src s.cur.wid l a).setWidth 64)) (elems f ((s.srcE s.cur.wid l m).setWidth 64))
    (BitVec.ofNat 64 r.1, r.2))

/-! ### Conversion (R151, R152) -/

def CvtType.fmt? : CvtType → Option Fmt
  | .f32 => some fmt32 | .f64 => some fmt64 | .f16 => some fmt16 | .bf16 => some fmtB16 | _ => none
def CvtType.width : CvtType → Nat
  | .f32 => 32 | .f64 => 64 | .f16 => 16 | .bf16 => 16 | .s32 => 32 | .z32 => 32 | .s64 => 64 | .z64 => 64
def CvtType.isSigned : CvtType → Bool
  | .s32 => true | .s64 => true | _ => false
/-- The range of an integer type. -/
def CvtType.lo (t : CvtType) : Int := if CvtType.isSigned t then -(2 ^ (CvtType.width t - 1)) else 0
def CvtType.hi (t : CvtType) : Int :=
  if CvtType.isSigned t then 2 ^ (CvtType.width t - 1) - 1 else 2 ^ CvtType.width t - 1
def clampTo (t : CvtType) (x : Int) : Int := max (CvtType.lo t) (min x (CvtType.hi t))
/-- An integer as the bits of an integer type. -/
def intBits (t : CvtType) (x : Int) : Nat := (x % 2 ^ CvtType.width t).toNat
/-- What an integer source holds. -/
def intOf (t : CvtType) (x : Nat) : Int :=
  let v := x % 2 ^ CvtType.width t
  if CvtType.isSigned t && 2 ^ (CvtType.width t - 1) ≤ v then (v : Int) - 2 ^ CvtType.width t else v
/-- Float to a narrower float, or integer to float: with SAT an overflow or an infinity gives the largest finite. -/
def toFloat (f : Fmt) (md : RMode) (sat : Bool) (v : FVal) : FRes :=
  match v with
  | .inf n => if sat then (f.sign n + f.maxBits, flNone) else (f.sign n + f.infBits, flNone)
  | v =>
    let r := roundVal f md v
    if sat && (r.2 &&& flOF != 0) then (f.sign v.neg + f.maxBits, r.2) else (r.1, r.2 ||| sigFlag [v])
/-- Fewer exponent or significand bits (R152). -/
def narrower (dst src : Fmt) : Bool := dst.eb < src.eb || dst.fb < src.fb
def floatToInt (t : CvtType) (md : RMode) (sat : Bool) (v : FVal) : FRes :=
  let bad := if CvtType.isSigned t then 2 ^ (CvtType.width t - 1) else 2 ^ CvtType.width t - 1
  match v with
  | .nan _ => (if sat then 0 else bad, flNV)
  | .inf n => (if sat then intBits t (if n then CvtType.lo t else CvtType.hi t) else bad, flNV)
  | .fin n m e =>
    let r := roundInt md n m e
    let x : Int := if n then -(r.1 : Int) else r.1
    if x < CvtType.lo t ∨ CvtType.hi t < x then (if sat then intBits t (clampTo t x) else bad, flNV)
    else (intBits t x, if r.2 then flNX else flNone)
def cvt (dst src : CvtType) (sat : Bool) (md : RMode → RMode) (x : Nat) : FRes :=
  match CvtType.fmt? dst, CvtType.fmt? src with
  | some f, some g =>
    let v := g.val (x % 2 ^ g.bits)
    if narrower f g then toFloat f (md .rne) sat v else ((roundVal f .rne v).1, sigFlag [v])
  | some f, none => toFloat f (md .rne) sat (intVal (intOf src x))
  | none, some g => floatToInt dst (md .rtz) sat (g.val (x % 2 ^ g.bits))
  | none, none => (intBits dst (if sat then clampTo dst (intOf src x) else intOf src x), flNone)
def execCvt (m : Mods) (x y : CvtType) (d a : Reg) (s : State) : Out :=
  laneF s m (.fixed 6) x.words d (fun l =>
    let r := cvt x y m.sat (s.rmode m) (s.srcN s.cur.wid l y.words a).toNat
    (BitVec.ofNat 64 r.1, r.2))
/-- The packing forms: element 0 from the low register. -/
def cvtPack (k : PackKind) (sat : Bool) (md : RMode → RMode) (x : W64) : W64 × BitVec 5 :=
  let lo := (lo32 x).toNat
  let hi := (hi32 x).toNat
  let two := fun (a b : FRes) (n : Nat) => (BitVec.ofNat 64 (a.1 + b.1 * 2 ^ n), a.2 ||| b.2)
  match k with
  | .toF16x2 => two (cvt .f16 .f32 sat md lo) (cvt .f16 .f32 sat md hi) 16
  | .toBf16x2 => two (cvt .bf16 .f32 sat md lo) (cvt .bf16 .f32 sat md hi) 16
  | .ofF16x2 => two (cvt .f32 .f16 sat md (nbits lo 15 0)) (cvt .f32 .f16 sat md (nbits lo 31 16)) 32
  | .ofBf16x2 => two (cvt .f32 .bf16 sat md (nbits lo 15 0)) (cvt .f32 .bf16 sat md (nbits lo 31 16)) 32
def execCvtPack (m : Mods) (k : PackKind) (d a : Reg) (s : State) : Out :=
  laneF s m (.fixed 6) k.dstWords d (fun l => cvtPack k m.sat (s.rmode m) (s.srcN s.cur.wid l k.srcWords a))

end Sys2Proof.Machine
end

