-- ==== Sys2Proof/Machine/Cross.lean ====
section
/-! DEFINITION. The cross-lane instructions (R28, R153 to R157). -/

namespace Sys2Proof.Machine

/-- A value on its way through a reduction, with the lane it came from. -/
structure RedVal where
  v : Nat
  i : Nat
  deriving DecidableEq, Repr

/-- The values as integers of the type. -/
def redInt (t : RedType) (x : Nat) : Int := if t = .s32 then (BitVec.ofNat 32 x).toInt else (x : Int)
def redFmt (t : RedType) : Fmt := if t = .f64 then fmt64 else fmt32
def isFloat (t : RedType) : Bool := t == .f32 || t == .f64

/-- What stands in for a lane that takes no part (R155). -/
def redIdentity (o : RedOp) (t : RedType) : RedVal :=
  let v : Nat := match o with
    | .add => if isFloat t then (redFmt t).sign true else 0
    | .min => if isFloat t then (redFmt t).nan else if t = .s32 then 0x7FFFFFFF else 0xFFFFFFFF
    | .minIdx => if isFloat t then (redFmt t).nan else if t = .s32 then 0x7FFFFFFF else 0xFFFFFFFF
    | .max => if isFloat t then (redFmt t).nan else if t = .s32 then 0x80000000 else 0
    | .maxIdx => if isFloat t then (redFmt t).nan else if t = .s32 then 0x80000000 else 0
    | .and => 0xFFFFFFFF
    | .or => 0
    | .xor => 0
  ⟨v, 0xFFFFFFFF⟩

/-- The `.idx` choice: a strictly better value wins, equal values the lower index; a NaN loses to any number. -/
def idxStep (mx : Bool) (t : RedType) (x y : RedVal) : RedVal × BitVec 5 :=
  let low := if x.i ≤ y.i then x else y
  if isFloat t then
    let f := redFmt t
    let a := f.val x.v
    let b := f.val y.v
    let r := if a.isNan then (if b.isNan then ⟨f.nan, low.i⟩ else y)
      else if b.isNan then x
      else if (if mx then ltVal true a b else ltVal true b a) then y
      else if (if mx then ltVal true b a else ltVal true a b) then x
      else low
    (r, sigFlag [a, b])
  else
    let a := redInt t x.v
    let b := redInt t y.v
    (if (if mx then a < b else b < a) then y else if (if mx then b < a else a < b) then x else low, flNone)

/-- One step of a reduction or scan, the lower lid on the left. -/
def redStep (o : RedOp) (t : RedType) (md : RMode) (x y : RedVal) : RedVal × BitVec 5 :=
  let w : Nat → RedVal × BitVec 5 := fun v => (⟨v % 2 ^ 32, x.i⟩, flNone)
  let fl : FRes → RedVal × BitVec 5 := fun r => (⟨r.1, x.i⟩, r.2)
  match o with
  | .add => if isFloat t then fl (fAdd (redFmt t) md x.v y.v) else w (x.v + y.v)
  | .min => if isFloat t then fl (fMinMax (redFmt t) false x.v y.v) else if redInt t y.v < redInt t x.v then w y.v else w x.v
  | .max => if isFloat t then fl (fMinMax (redFmt t) true x.v y.v) else if redInt t x.v < redInt t y.v then w y.v else w x.v
  | .and => w (x.v &&& y.v)
  | .or => w (x.v ||| y.v)
  | .xor => w (x.v ^^^ y.v)
  | .minIdx => idxStep false t x y
  | .maxIdx => idxStep true t x y

/-- One level of the tree: neighbours combined pairwise. -/
def treeLevel (o : RedOp) (t : RedType) (md : RMode) : List RedVal → List RedVal × BitVec 5
  | a :: b :: r =>
    let x := redStep o t md a b
    let y := treeLevel o t md r
    (x.1 :: y.1, x.2 ||| y.2)
  | r => (r, flNone)
/-- The fixed tree of R155: five levels over 32 values. -/
def tree (o : RedOp) (t : RedType) (md : RMode) : Nat → List RedVal → BitVec 5 → List RedVal × BitVec 5
  | 0, c, f => (c, f)
  | n + 1, c, f => let r := treeLevel o t md c; tree o t md n r.1 (f ||| r.2)

/-- The values `c` of R155: the source of each active lane, the identity elsewhere. -/
def redVals (s : State) (m : Mods) (o : RedOp) (t : RedType) (a : Reg) : List RedVal :=
  (List.range 32).map (fun l =>
    if (s.activeLanes m).contains l then ⟨(s.srcN s.cur.wid l t.words a).toNat, l⟩ else redIdentity o t)
/-- The words of a result: a value, with its index for the `.idx` forms. -/
def redOuts (o : RedOp) (t : RedType) (d : Reg) (r : RedVal) : List (Dst × W32) :=
  match o with
  | .minIdx => outs64 d (BitVec.ofNat 32 r.i ++ BitVec.ofNat 32 r.v)
  | .maxIdx => outs64 d (BitVec.ofNat 32 r.i ++ BitVec.ofNat 32 r.v)
  | _ => outsN t.words d (BitVec.ofNat 64 r.v)

def execLred (m : Mods) (o : RedOp) (t : RedType) (d a : Reg) (s : State) : Out :=
  let r := tree o t (s.rmode m .rne) 5 (redVals s m o t a) flNone
  let outs := redOuts o t d (r.1.headD (redIdentity o t))
  .next (perLane m .owed (dstRegs d (lredWords o t)) (fun _ => (outs, r.2)) s)

def ScanOp.red : ScanOp → RedOp | .add => .add | .min => .min | .max => .max
/-- The fold of R156 over a prefix of the lanes. -/
def scanFold (o : RedOp) (t : RedType) (md : RMode) (c : List RedVal) : RedVal × BitVec 5 :=
  c.foldl (fun r x => let y := redStep o t md r.1 x; (y.1, r.2 ||| y.2)) (redIdentity o t, flNone)
def execLscan (m : Mods) (e : Bool) (o : ScanOp) (t : RedType) (d a : Reg) (s : State) : Out :=
  let c := redVals s m (ScanOp.red o) t a
  .next (perLane m .owed (dstRegs d t.words) (fun l =>
    let r := scanFold (ScanOp.red o) t (s.rmode m .rne) (c.take (if e then l else l + 1))
    (outsN t.words d (BitVec.ofNat 64 r.1.v), r.2)) s)

def execVote (m : Mods) (v : VoteKind) (d a : Reg) (s : State) : Out :=
  let ps := (s.activeLanes m).map (fun l => (s.lane s.cur.wid l).pred a.toNat)
  let r := match v with
    | .all => ps.all id
    | .any => ps.any id
    | .same => ps.all id || ps.all (!·)
  laneP s m .owed d (fun _ => r)
def execBallot (m : Mods) (d a : Reg) (s : State) : Out :=
  let r := maskOf ((s.activeLanes m).filter (fun l => (s.lane s.cur.wid l).pred a.toNat))
  lane32 s m .owed d (fun _ => r)
def execMatchLanes (m : Mods) (w : Bool) (d a : Reg) (s : State) : Out :=
  let v := fun l => s.srcN s.cur.wid l (words w) a
  lane64 s m .owed d (fun l =>
    let same := (s.activeLanes m).filter (fun k => v k == v l)
    maskOf same ++ BitVec.ofNat 32 (same.headD 0))
/-- The source lane of `shfl`, if it is one of 0 to 31 (R154). -/
def shflSource (k : ShflMode) (l : Nat) (sel : W32) : Option Nat :=
  let n := sel.toNat
  let r : Int := match k with
    | .idx => n
    | .up => (l : Int) - n
    | .down => (l : Int) + n
    | .xor => ((l ^^^ n : Nat) : Int)
  if 0 ≤ r ∧ r < 32 then some r.toNat else none
def execShfl (m : Mods) (k : ShflMode) (d a : Reg) (s : State) : Out :=
  lane32 s m .owed d (fun l =>
    let fill := match m.eReg with | some e => s.src s.cur.wid l e | none => 0
    match shflSource k l (s.src s.cur.wid l d) with
    | some n => if (s.activeLanes m).contains n then s.src s.cur.wid n a else fill
    | none => fill)

end Sys2Proof.Machine
end

