-- ==== Sys2Proof/Machine/Matrix.lean ====
section
/-! DEFINITION. The matrix array (R56 to R65, R215 to R224, R331 to R337): its instructions, plane fills, streams to the
bit, drains. -/

namespace Sys2Proof.Machine

/-! ### Elements of windows (R59, R65, R208, R219, R334) -/

/-- An element at a logical K position: a +0 product, a malformed 2:4 group, or the bits held. -/
inductive Elem | zero | bad | num (v : Nat)
  deriving DecidableEq, Repr
def Window.elem (w : Window) (x k : Nat) : Elem :=
  let e := elemBytes w.fmt
  if w.kext ≤ k then .zero
  else if w.xext ≤ x then .num 0
  else if !w.sp then .num (w.num ((x * w.kst + k) * e) e)
  else
    let h := w.num (w.moff + 2 * (x * (w.kext / 16) + k / 16)) 2
    let g := h / 16 ^ (k / 4 % 4) % 16
    let at_ := fun (j : Nat) => Elem.num (w.num ((x * w.kst + 2 * (k / 4) + j) * e) e)
    if g / 4 ≤ g % 4 then .bad
    else if k % 4 = g % 4 then at_ 0
    else if k % 4 = g / 4 then at_ 1
    else .zero
/-- The BF16 scale of block `j` of a row; rows of padding have a zero scale. -/
def Window.scale (w : Window) (x j : Nat) : Nat := if w.xext ≤ x then 0 else w.num (w.soff + 4 * w.sstr * x + 2 * j) 2
def fmtOf (n : Nat) : Fmt := if n = 0 then fmtB16 else if n = 1 then fmt16 else if n = 2 then fmt32 else fmt64

/-! ### Float sums (R63, R334) -/

def elemPair (f : Fmt) (p : Elem × Elem) : FVal × FVal :=
  match p with
  | (.num a, .num b) => (f.val a, f.val b)
  | (.bad, _) => (.nan false, .nan false)
  | (_, .bad) => (.nan false, .nan false)
  | _ => (.fin false 0 0, .fin false 0 0)
def Elem.isBad : Elem → Bool | .bad => true | _ => false
/-- The exact sum of a K-group, rounded once. -/
def groupSum (f acc : Fmt) (ps : List (Elem × Elem)) : FRes :=
  let r := sumProducts .rne [] (ps.map (elemPair f))
  let t := roundVal acc .rne r.1
  (t.1, r.2 ||| t.2 ||| (if ps.any (fun p => p.1.isBad || p.2.isBad) then flNV else flNone))
def kGroup (fmt : Nat) : Nat := if fmt < 2 then 16 else if fmt = 2 then 8 else 4
/-- One accumulator element of a float stream: activation row `x` against column `n` of a plane. -/
def floatElem (fmt kk : Nat) (act : Window) (x koff : Nat) (p : Plane) (n v : Nat) : FRes :=
  let g := kGroup fmt
  let acc := if fmt = 3 then fmt64 else fmt32
  (List.range (kk / g)).foldl (fun (r : FRes) i =>
    if act.kext ≤ koff + i * g ∨ p.win.kext ≤ p.koff + i * g then r
    else
      let ps := (List.range g).map (fun j => (act.elem x (koff + i * g + j), p.win.elem (p.noff + n) (p.koff + i * g + j)))
      let t := groupSum (fmtOf fmt) acc ps
      let u := fAdd acc .rne r.1 t.1
      (u.1, r.2 ||| t.2 ||| u.2)) (v, flNone)

/-! ### Residue sums (R57 to R62, R336) -/

/-- The integer that a triple stands for (R61). -/
def crt (a b c : Nat) : Int :=
  let x := (a * 8421376 + b * 16711425 + c * 8421120) % 16776960
  if 8388480 ≤ x then (x : Int) - 16776960 else x
/-- A legal scale (R58). -/
def scaleLegal (s : Nat) : Bool :=
  let e := s / 2 ^ 7 % 2 ^ 8
  (e == 0 && s % 2 ^ 7 == 0) || (64 ≤ e && e ≤ 189)
/-- The exact product of two scales in FP32, or the canonical NaN. -/
def scaleProduct (a b : Nat) : W32 :=
  if scaleLegal a && scaleLegal b then BitVec.ofNat 32 (roundVal fmt32 .rne (mulVal (fmtB16.val a) (fmtB16.val b)).1).1
  else BitVec.ofNat 32 fmt32.nan
/-- What a block contributes: its sum times the scale product, rounded once (R62). -/
def blockValue (x : Int) (sp : W32) : FRes :=
  let v := fmt32.val sp.toNat
  if v.isNan then (fmt32.nan, flNV) else finishF fmt32 .rne (mulVal (intVal x) v)
/-- A residue accumulator element while a stream passes: its value, its triple, the kept product. -/
structure ResElem where
  v : Nat
  a : Nat
  b : Nat
  c : Nat
  isOpen : Bool
  kept : Option W32
  fl : BitVec 5
  deriving DecidableEq, Repr
def Elem.part (e : Elem) (lo m : Nat) : Nat := match e with | .num v => v / 2 ^ lo % m | _ => 0
/-- Positions of a plane at which a block of the activations begins. -/
def blockStarts (kk koff b : Nat) : List Nat := (List.range kk).filter (fun p => p == 0 || (koff + p) % b == 0)
def residueElem (kk : Nat) (act : Window) (x koff : Nat) (p : Plane) (n : Nat) (r0 : ResElem) : ResElem :=
  let b := act.blk
  (blockStarts kk koff b).foldl (fun (r : ResElem) q =>
    let j := (koff + q) / b
    let jw := (p.koff + q) / b
    if act.kext ≤ j * b ∨ p.win.kext ≤ jw * b then r
    else
      let stop := min kk ((j + 1) * b - koff)
      let ps := (List.range (stop - q)).map (fun i => (act.elem x (koff + q + i), p.win.elem (p.noff + n) (p.koff + q + i)))
      let sum := fun (lo m md : Nat) => (ps.map (fun (e : Elem × Elem) => e.1.part lo m * e.2.part lo m)).sum % md
      let a := (r.a + sum 0 256 255) % 255
      let bb := (r.b + sum 8 256 256) % 256
      let c := (r.c + sum 16 512 257) % 257
      let bad := ps.any (fun (e : Elem × Elem) => e.1.isBad || e.2.isBad)
      let r1 := if bad then { r with v := (fAdd fmt32 .rne r.v fmt32.nan).1, fl := r.fl ||| flNV } else r
      let sp := scaleProduct (act.scale x j) (p.win.scale (p.noff + n) jw)
      if koff + stop = (j + 1) * b then
        let t := blockValue (crt a bb c) sp
        let u := fAdd fmt32 .rne r1.v t.1
        { v := u.1, a := 0, b := 0, c := 0, isOpen := false, kept := none, fl := r1.fl ||| t.2 ||| u.2 }
      else { r1 with a := a, b := bb, c := c, isOpen := true, kept := some sp }) r0
def tripleWord (r : ResElem) : Nat := (if r.isOpen then 2 ^ 31 else 0) + r.c * 2 ^ 16 + r.b * 2 ^ 8 + r.a
def ResElem.of (v w : Nat) (kept : Option W32) : ResElem :=
  ⟨v, w % 256, w / 2 ^ 8 % 256, w / 2 ^ 16 % 512, w / 2 ^ 31 % 2 == 1, kept, flNone⟩

/-! ### Streams (R221, R333) -/

/-- One element of a stream's tiles; `at_` is its byte offset in the troupe's accumulator tiles. -/
def State.streamElem (s : State) (tid : Nat) (a : ArrayCfg) (kk : Nat) (act : Window) (p : Plane) (x koff n at_ : Nat) : State :=
  if a.fmt < 4 then
    let v := s.accNum tid at_ a.elem
    let r := floatElem a.fmt kk act x koff p n v
    (s.setAcc tid at_ a.elem r.1).modArr tid (fun c => c.addFlags (at_ / 4096) r.2)
  else
    let r := residueElem kk act x koff p n (ResElem.of (s.accNum tid at_ 4) (s.accNum tid (at_ + 4) 4) (flook a.kept (at_ / 8)))
    ((s.setAcc tid at_ 4 r.v).setAcc tid (at_ + 4) 4 (tripleWord r)).modArr tid (fun c =>
      { (c.addFlags (at_ / 4096) r.fl) with kept := match r.kept with | some k => fput c.kept (at_ / 8) k | none => fdel c.kept (at_ / 8) })
def State.stream (s : State) (tid acc m sub win moff koff : Nat) : State :=
  let a := (s.mxCore tid).arr
  let act := fget Window.init (s.troupe tid).windows win
  let p := fget Plane.init a.active sub
  let sh := a.shape
  ((List.range m).flatMap (fun i => (List.range sh.2).map (fun n => (i, n)))).foldl (fun s e =>
    s.streamElem tid (s.mxCore tid).arr sh.1 act p (moff + e.1) koff e.2 (acc * 4096 + (e.1 * sh.2 + e.2) * a.elem)) s
/-- The work at the head of a troupe's array work, if it is of a kind. -/
def onHead (t : Nat) (s : State) (f : MxItem → Option State) : Out :=
  match (s.mxCore t).head t with
  | none => .next s
  | some y => match f y with
    | some s1 => .next (s1.itemDone t y.id)
    | none => .next s
def execStreamResults (t : Nat) (s : State) : Out :=
  onHead t s (fun y => match y.work with
    | .strm acc m sub win moff koff => some (s.stream t acc m sub win moff koff)
    | _ => none)
/-- The shadow plane is filled (R219, R332). -/
def execPlaneFillDone (t : Nat) (s : State) : Out :=
  onHead t s (fun y => match y.work with
    | .stat sub win koff noff => some (s.modArr t (fun a => a.load sub ⟨true, koff, noff, fget Window.init (s.troupe t).windows win⟩))
    | _ => none)

/-! ### Drains (R222, R337) -/

/-- Close an open triple as though its block ended there. -/
def State.closeElem (s : State) (tid f at_ : Nat) : State :=
  let a := (s.mxCore tid).arr
  let r := ResElem.of (s.accNum tid at_ 4) (s.accNum tid (at_ + 4) 4) (flook a.kept (at_ / 8))
  if !r.isOpen then s
  else
    let t := match r.kept with
      | some k => blockValue (crt r.a r.b r.c) k
      | none =>
        if a.undef then blockValue (crt r.a r.b r.c) (BitVec.ofNat 32 (leNat ((List.range 4).map (fun i => Config.freeByte f (at_ / 2 + i)))))
        else (fmt32.nan, flNV)
    let u := fAdd fmt32 .rne r.v t.1
    ((s.setAcc tid at_ 4 u.1).setAcc tid (at_ + 4) 4 0).modArr tid (fun c =>
      { (c.addFlags (at_ / 4096) (t.2 ||| u.2)) with kept := fdel c.kept (at_ / 8) })
def State.closeTiles (s : State) (tid tile nt : Nat) : State :=
  if (s.mxCore tid).arr.fmt < 4 then s
  else (List.range (nt * 512)).foldl (fun s i => s.closeElem tid s.fresh (tile * 4096 + 8 * i)) { s with fresh := s.fresh + 1 }
def outFmt (ofmt : Nat) : Fmt := if ofmt = 0 then fmt32 else if ofmt = 1 then fmtB16 else if ofmt = 2 then fmt16 else fmt64
/-- A delivered value: the element times the scale, rounded once. -/
def State.drainVal (s : State) (tid tile i ofmt : Nat) (sc : W32) : FRes :=
  let a := (s.mxCore tid).arr
  let f := if a.fmt = 3 then fmt64 else fmt32
  let v := s.accNum tid (tile * 4096 + i * a.elem) (if a.fmt = 3 then 8 else 4)
  finishF (outFmt ofmt) .rne (mulVal (f.val v) (fmt32.val sc.toNat))
/-- The tiles' flags. -/
def ArrayCfg.tileFlags (a : ArrayCfg) (tile nt : Nat) : BitVec 5 :=
  (List.range nt).foldl (fun fl i => fl ||| fget 0 a.flags (tile + i)) 0
def orFlags (l : List FRes) : BitVec 5 := l.foldl (fun fl r => fl ||| r.2) 0
/-- Write bytes into scratchpad tiles from an address on. -/
def State.scrWrite (s : State) (tid : Nat) (va : W32) (bs : List Byte) : State :=
  (stepsOf (2 ^ 12) (va.setWidth 64) bs.length).foldl (fun s a =>
    match s.tileOf tid (lo32 a) with
    | some r =>
      let done := a.toNat - va.toNat
      s.storeAt (r.key (s.troupe tid).pkg (lo32 a)) ((bs.drop done).take (4096 - a.toNat % 4096))
    | none => s) s
def State.drain (s : State) (tid wid : Nat) (lanes : LaneMask) (ofmt : Nat) (scr : Bool) (nt tile : Nat) (wh sc : W32) (d : Reg) (tag : Nat) : State :=
  let s1 := s.closeTiles tid tile nt
  let a := (s1.mxCore tid).arr
  let note := fun (s : State) (fl : BitVec 5) =>
    s.updLanes wid (lanesOf lanes |>.take 1) (fun _ l => { l with lflags := l.lflags ||| fl ||| a.tileFlags tile nt })
  if scr then
    let rs := (List.range (nt * (4096 / a.elem))).map (fun i => s1.drainVal tid tile i ofmt sc)
    note (s1.scrWrite tid wh ((rs.map (fun (r : FRes) => leBytes ((outFmt ofmt).bits / 8) r.1)).flatten)) (orFlags rs)
  else
    let val := fun (l : Nat) => s1.drainVal tid tile (wh.toNat + l) ofmt sc
    note (fillTag s1 wid lanes tag (fun l =>
      if ofmt = 3 then outs64 d (BitVec.ofNat 64 (val l).1) else outs32 d (BitVec.ofNat 32 (val l).1)))
      (orFlags ((lanesOf lanes).map val))
def execDrainWrite (t : Nat) (s : State) : Out :=
  onHead t s (fun y => match y.work with
    | .drain wid lanes ofmt scr nt tile wh sc d tag => some (s.drain t wid lanes ofmt scr nt tile wh sc d tag)
    | _ => none)

/-! ### The instructions -/

/-- An array instruction: reserved fields, then the troupe's part of the array, then what its own rules ask of the array as
it will stand when the work before it has finished. -/
def mxGo (i : Instr) (s : State) (m : Mods) (n : Nat) (a : Reg) (reserved : List W32 → Bool) (go : List W32 → ArrayCfg → State) : Out :=
  match s.elected m with
  | none => .next (finish s [])
  | some e =>
    let b := s.block e a n
    .next (if reserved b then refuse s m .param
      else if s.curTroupe.hdr.acc = 0 then refuse s m .range
      else match s.predict s.curTid with
        | none => waitAt s i
        | some c => go b c)
/-- Accept work, and let it take effect if its turn has come. -/
def State.mxAccept (s : State) (w : MxWork) (tiles : List Nat) : State :=
  finish ((s.addItem s.curTid s.cur.wid w tiles).settleMx s.curTid) []
def execMxCfg (m : Mods) (a : Reg) (s : State) : Out :=
  mxGo (.mxCfg m a) s m 1 a
    (fun b =>
      let fmt := bf b 0 4 2
      let sp := bf b 0 5 5 == 1
      bf b 0 31 6 != 0 || decide (4 < fmt) || (sp && (fmt == 2 || fmt == 3)) ||
        (fmt == 4 && !(s.pkg s.curPkg).feat 3) || (sp && !(s.pkg s.curPkg).feat 4))
    (fun b _ => s.mxAccept (.cfg (bf b 0 1 0) (bf b 0 4 2) (bf b 0 5 5 == 1)) [])
def fmtMatches (cfg win : Nat) : Bool := if cfg = 4 then decide (4 ≤ win) else win == cfg
def execMxStat (m : Mods) (a : Reg) (s : State) : Out :=
  mxGo (.mxStat m a) s m 2 a (fun b => bf b 0 31 6 != 0) (fun b c =>
    let sub := bf b 0 5 4
    let win := bf b 0 3 0
    let noff := bf b 1 31 16
    let koff := bf b 1 15 0
    match s.window? s.curTid win with
    | none => refuse s m .range
    | some w =>
      if (c.fuse ≠ 0 ∧ sub ≠ 0) ∨ koff % c.shape.1 ≠ 0 ∨ w.kext ≤ koff ∨ w.xext ≤ noff ∨ !fmtMatches c.fmt w.fmt ∨ w.sp ≠ c.sp then refuse s m .param
      else s.mxAccept (.stat sub win koff noff) [])
def execMxSwap (m : Mods) (s : State) : Out :=
  mxGo (.mxSwap m) s m 0 0 (fun _ => false) (fun _ c =>
    if c.canSwap then s.mxAccept .swap [] else refuse s m .state)
def execMxStrm (m : Mods) (a : Reg) (s : State) : Out :=
  mxGo (.mxStrm m a) s m 2 a (fun b => bf b 0 31 20 != 0) (fun b c =>
    let acc := bf b 0 19 14
    let rows := bf b 0 13 6 + 1
    let sub := bf b 0 5 4
    let win := bf b 0 3 0
    let moff := bf b 1 31 16
    let koff := bf b 1 15 0
    match s.window? s.curTid win with
    | none => refuse s m .range
    | some w =>
      let p := fget Plane.init c.active sub
      if (c.fuse ≠ 0 ∧ sub ≠ 0) ∨ w.xext < moff + rows then refuse s m .param
      else if !p.valid then refuse s m .state
      else if !fmtMatches c.fmt w.fmt ∨ w.blk ≠ p.win.blk ∨ (!p.win.sp ∧ (w.pen ≠ p.win.pen ∨ w.ptid ≠ p.win.ptid)) ∨
          (c.fmt = 4 ∧ koff % w.blk ≠ p.koff % w.blk) then refuse s m .param
      else if s.curTroupe.hdr.acc ≤ acc + (rows * c.shape.2 - 1) * c.elem / 4096 then refuse s m .range
      else s.mxAccept (.strm acc rows sub win moff koff) [])
/-- What is wrong with the scratchpad range of a drain: this core's engine-owned tiles. -/
def State.drainBad (s : State) (wh : W32) (n : Nat) : Option Bad :=
  match (stepsOf (2 ^ 12) (wh.setWidth 64) n).find? (fun a => (s.ownTile (lo32 a)).isNone) with
  | some a => some (.prot, 0, a)
  | none => s.rangeS wh n 16
def execMxDrain (m : Mods) (d a : Reg) (s : State) : Out :=
  mxGo (.mxDrain m d a) s m 3 a
    (fun b => bf b 0 31 16 != 0 || bf b 0 12 6 == 0 || decide (64 < bf b 0 12 6) || (bf b 0 13 13 == 0 && bf b 0 12 6 != 1)) (fun b c =>
    let ofmt := bf b 0 15 14
    let scr := bf b 0 13 13 == 1
    let nt := bf b 0 12 6
    let tile := bf b 0 5 0
    let wh := bw b 1
    let per := 4096 / c.elem
    let n := nt * per * ((outFmt ofmt).bits / 8)
    if (ofmt = 3 ∧ c.fmt ≠ 3) ∨ (!scr ∧ per ≤ wh.toNat + 31) then refuse s m .param
    else if s.curTroupe.hdr.acc < tile + nt then refuse s m .range
    else if !scr ∧ ofmt = 3 ∧ d.toNat < 120 ∧ d.toNat % 2 = 1 then refuse s m .pair
    else
      let lanes := maskOf (s.activeLanes m)
      let work := fun (tag : Nat) => MxWork.drain s.cur.wid lanes ofmt scr nt tile wh (bw b 2) d tag
      if scr then match s.drainBad wh n with
        | some f => faultElected s m f.1 f.2.1 f.2.2
        | none => (sendAll s m .owed d 1 []).mxAccept (work 0) (s.unitsOf .s .store (wh.setWidth 64) n)
      else
        let r := oweAll s m false d (if ofmt = 3 then 2 else 1)
        r.1.mxAccept (work r.2) [])
def execMxZero (m : Mods) (a : Reg) (s : State) : Out :=
  mxGo (.mxZero m a) s m 1 a (fun b => bf b 0 31 13 != 0 || bf b 0 12 6 == 0 || decide (64 < bf b 0 12 6)) (fun b _ =>
    if s.curTroupe.hdr.acc < bf b 0 5 0 + bf b 0 12 6 then refuse s m .range
    else s.mxAccept (.zero (bf b 0 5 0) (bf b 0 12 6)) [])
/-- `mx.wait` (R217, R223): over when all that the troupe had accepted before it has finished. -/
def execMxWait (m : Mods) (s : State) : Out :=
  if !s.someActive m || s.cur.past || ((s.mxCore s.curTid).items s.curTid).isEmpty then .next (finish s [])
  else
    let s1 := s.modMx s.curTid (fun c => { c with mxq := c.mxq.filter (fun y => match y.work with
      | .mark w ls => !(w == s.cur.wid && ls &&& s.cur.lanes != 0)
      | _ => true) })
    .next (waitAt (s1.addItem s.curTid s.cur.wid (.mark s.cur.wid s.cur.lanes) []) (.mxWait m))
def execMxWaitDone (w : Nat) (s : State) : Out := .next (s.settleMx (s.wave w).tid)

/-- The checks of an image's ranges. -/
def State.imageBad (s : State) (kd : AccKind) (va : W64) (count : Nat) (arr : Bool) : Option Bad :=
  [if !canonicalVa va then some (.page, 0, va) else if va.toNat % 4096 ≠ 0 then some (.align, 0, va) else none,
   if arr then s.rangeG kd va 16384 4096 else none,
   if count ≠ 0 then s.rangeG kd (tileVa va) (4096 * count) 4096 else none].findSome? (fun x => x)
def imageGo (i : Instr) (s : State) (m : Mods) (a : Reg) (kd : AccKind) (work : W64 → Nat → Nat → Bool → MxWork) : Out :=
  mxGo i s m 3 a (fun b => bf b 2 31 14 != 0 || decide (64 < bf b 2 12 6)) (fun b _ =>
    let va := bd b 0
    let tile := bf b 2 5 0
    let count := bf b 2 12 6
    let arr := bf b 2 13 13 == 1
    let vas := (if arr then stepsOf (2 ^ 16) va 16384 else []) ++ (if count ≠ 0 then stepsOf (2 ^ 16) (tileVa va) (4096 * count) else [])
    if count ≠ 0 ∧ s.curTroupe.hdr.acc < tile + count then refuse s m .range
    else match s.imageBad kd va count arr with
      | some f => faultElected s m f.1 f.2.1 f.2.2
      | none =>
        if s.walkWait .g vas then waitAt (s.missed .g vas) i
        else (s.walked .g vas).mxAccept (work va tile count arr)
          ((if arr then s.unitsOf .g kd va 16384 else []) ++ (if count ≠ 0 then s.unitsOf .g kd (tileVa va) (4096 * count) else [])))
def execMxSave (m : Mods) (a : Reg) (s : State) : Out := imageGo (.mxSave m a) s m a .store .save
def execMxRest (m : Mods) (a : Reg) (s : State) : Out := imageGo (.mxRest m a) s m a .load .rest

end Sys2Proof.Machine
end

