-- ==== Sys2Proof/Machine/Launch.lean ====
section
/-! DEFINITION. Launches on their way to a caller (R288 to R293, R297, R402, R410): doorbells, the front end, what a record
and a kernel header must hold, refusals, dependences, aging; `spawn` (R171). -/

namespace Sys2Proof.Machine

/-! ### What the device reads and writes by a context's tables -/

/-- Time in nanoseconds, by which deadlines run (log 40). -/
def Pkg.now (p : Pkg) : Nat := p.fab.caltime.toNat
/-- Where the device reads a byte: on this package, or at its home (R292). -/
def State.fetchAt (s : State) (k : Nat) (ctx : W32) (va : W64) : Option Nat :=
  match s.devLeaf k ctx va with
  | none => none
  | some l =>
    if pteState l < 2 || !pteR l then none
    else match s.devPlace k ctx va with
      | .at_ key _ => some key
      | .fwd h => s.devKey h ctx va
      | .absent => none
/-- Read a range, none where a translation fails. -/
def State.devFetch (s : State) (k : Nat) (ctx : W32) (va : W64) (n : Nat) : Option (List Byte) :=
  ((stepsOf (2 ^ 16) va n).mapM (fun a =>
    (s.fetchAt k ctx a).map (fun key => s.load key (min (2 ^ 16 - a.toNat % 2 ^ 16) (va.toNat + n - a.toNat))))).map List.flatten
/-- A word that the scheduler reads or writes: committed on this package with the permission, or the cause of the failure. -/
def State.wordKey (s : State) (k : Nat) (ctx : W32) (va : W64) (write : Bool) : Cause ⊕ Nat :=
  match s.devLeaf k ctx va with
  | none => .inl .page
  | some l =>
    if pteState l < 2 then .inl .page
    else if pteState l = 3 || pteHome l ≠ k || !(if write then pteW l else pteR l) then .inl .prot
    else match s.devKey k ctx va with
      | some key => .inr key
      | none => .inl .page
def State.wordOk (s : State) (k : Nat) (ctx : W32) (va : W64) (write : Bool) : Bool :=
  match s.wordKey k ctx va write with | .inr _ => true | .inl _ => false

/-! ### Records and headers (R290, R291) -/

def field (bs : List Byte) (off n : Nat) : Nat := leNat ((bs.drop off).take n)
def signed16 (n : Nat) : Int := if 2 ^ 15 ≤ n then (n : Int) - 2 ^ 16 else n
def lrecOf (addr : W64) (bs : List Byte) : LRec :=
  { addr := addr
    khdr := BitVec.ofNat 64 (field bs 0 8)
    argn := nbits (field bs 8 8) 48 40
    ntrp := nbits (field bs 8 8) 39 0
    args := BitVec.ofNat 64 (field bs 16 8)
    evt := BitVec.ofNat 64 (field bs 24 8)
    donemap := BitVec.ofNat 64 (field bs 32 8)
    savebase := BitVec.ofNat 64 (field bs 40 8)
    graph := nbits (field bs 48 8) 44 44 == 1
    clmask := BitVec.ofNat 4 (nbits (field bs 48 8) 43 40)
    nsave := nbits (field bs 48 8) 39 16
    savesz := nbits (field bs 48 8) 15 0
    wevt := BitVec.ofNat 64 (field bs 56 8)
    wval := BitVec.ofNat 64 (field bs 64 8)
    gmap := BitVec.ofNat 64 (field bs 72 8)
    gw := nbits (field bs 80 8) 58 56
    gshift := signed16 (nbits (field bs 80 8) 55 40)
    gpt := nbits (field bs 80 8) 39 0 }
/-- A record field out of range, reserved or misaligned, as far as the record alone tells. -/
def recBad (r : LRec) (bs : List Byte) : Bool :=
  nbits (field bs 8 8) 63 49 != 0 || nbits (field bs 48 8) 63 45 != 0 || nbits (field bs 80 8) 63 59 != 0 || field bs 88 40 != 0 ||
  decide (256 < r.argn) || r.args.toNat % 4 != 0 || (r.argn == 0 && r.args != 0) || r.evt.toNat % 8 != 0 ||
  r.donemap.toNat % 8 != 0 || r.savebase.toNat % 4096 != 0 || r.wevt.toNat % 8 != 0 ||
  (if r.savebase = 0 then r.nsave != 0 || r.savesz != 0 else r.nsave == 0 || r.savesz == 0) ||
  (r.gmap == 0) != (r.gpt == 0) || r.gmap.toNat % 8 != 0 ||
  (if r.graph then r.ntrp != 0 else r.ntrp == 0 || r.khdr.toNat % 64 != 0)

def khdrOf (addr : W64) (bs : List Byte) : KHdr :=
  let w := field bs 24 8
  { addr := addr
    entry := BitVec.ofNat 64 (field bs 0 8)
    pentry := BitVec.ofNat 64 (field bs 8 8)
    dict := BitVec.ofNat 64 (field bs 16 8)
    recpol := nbits w 58 58 == 1
    rcd := nbits w 57 57 == 1
    idem := nbits w 56 56 == 1
    det := nbits w 55 55 == 1
    dictn := nbits w 54 44
    corps := nbits w 43 36 + 1
    waves := nbits w 35 32 + 1
    acc := nbits w 31 25
    obuf := nbits w 24 17
    scratch := nbits w 16 8
    pregs := nbits w 7 4
    regs := nbits w 3 0
    traph := BitVec.ofNat 64 (field bs 32 8)
    logbase := BitVec.ofNat 64 (field bs 40 8)
    loglen := field bs 48 4
    detr := BitVec.ofNat 64 (field bs 56 8) }
/-- A header field out of range or reserved, or a feature that has not been accepted (R291, R292, R410, R418). -/
def hdrBad (p : Pkg) (h : KHdr) (bs : List Byte) : Bool :=
  nbits (field bs 24 8) 63 59 != 0 || field bs 52 4 != 0 || h.entry.toNat % 12 != 0 || h.pentry.toNat % 12 != 0 ||
  h.dict.toNat % 4 != 0 || h.traph.toNat % 12 != 0 || decide (1024 < h.dictn) || (h.dict == 0 && h.dictn != 0) ||
  decide (64 < h.acc) || decide (128 < h.obuf) || decide (256 < h.scratch) || h.regs == 0 ||
  (if h.pentry = 0 then h.pregs != 0 else h.pregs == 0 || !p.feat 1) || (h.dict != 0 && !p.feat 2) ||
  (h.det && (h.rcd || !p.feat 5)) ||
  (if h.rcd then !p.feat 6 || h.logbase.toNat % 64 != 0 || h.loglen % 16 != 0 || decide (h.loglen < 1088)
   else h.logbase != 0 || h.loglen != 0)
/-- Wave blocks of a save area (R317). -/
def KHdr.blocks (h : KHdr) : Nat := if h.pentry = 0 then h.waves else 2 * h.waves
/-- What a record and its header must agree in (R290, R317). -/
def recHdrBad (r : LRec) (h : KHdr) : Bool :=
  r.ntrp % h.corps != 0 || (r.savebase != 0 && decide (r.savesz * 4096 < 0x1000 + 0x8000 * h.blocks))
/-- The words that the launch needs on this package (R292, MEMERR). -/
def State.wordsBad (s : State) (k : Nat) (ctx : W32) (r : LRec) : Bool :=
  (r.evt != 0 && !s.wordOk k ctx r.evt true) || (r.donemap != 0 && !s.wordOk k ctx r.donemap true) ||
  (r.wevt != 0 && !s.wordOk k ctx r.wevt false) ||
  (r.gmap != 0 && (stepsOf (2 ^ 16) r.gmap ((r.gpt + 7) / 8)).any (fun a => !s.wordOk k ctx a false))

/-- The DETR table (R402): logical cores, the deferred area, the ranges. -/
structure Detr where
  c : Nat
  base : W64
  len : Nat
  ranges : FMap DRange
  deriving DecidableEq, Repr
def detrOf (bs : List Byte) : Option Detr :=
  let rs := (List.range 8).map (fun i => (i, field bs (32 + 16 * i) 8, field bs (40 + 16 * i) 8))
  let sp := fun (w : Nat) => nbits w 33 32
  if field bs 4 4 ≠ 0 ∨ field bs 20 4 ≠ 0 ∨ field bs 24 8 ≠ 0 ∨ field bs 0 4 = 0 ∨ 4096 < field bs 0 4 ∨ field bs 8 8 % 64 ≠ 0 ∨
     field bs 16 4 % 32 ≠ 0 ∨ rs.any (fun e => nbits e.2.2 63 34 != 0 || sp e.2.2 == 1 || sp e.2.2 == 3) then none
  else some ⟨field bs 0 4, BitVec.ofNat 64 (field bs 8 8), field bs 16 4,
    rs.map (fun e => (e.1, ⟨if sp e.2.2 = 0 then .g else .b, BitVec.ofNat 64 e.2.1, nbits e.2.2 31 0⟩))⟩

/-- Granules that a troupe of a kernel needs (R299). -/
def KHdr.granules (h : KHdr) : Nat := h.waves * (h.regs + 1) + if h.pentry = 0 then 0 else h.waves * (h.pregs + 2)
/-- The clusters that a record allows. -/
def LRec.clusters (r : LRec) : List Nat := (List.range 4).filter (fun c => r.clmask == 0 || r.clmask.getLsbD c)
/-- Cores of a cluster in service. -/
def Pkg.inService (p : Pkg) (clus : Nat) : Nat :=
  256 - (p.cores.filter (fun (e : Nat × Core) => clusterOf e.1 == clus && e.2.fenced)).length
/-- One troupe, or one corps, needs more than can ever be given (R292). -/
def Pkg.noFit (p : Pkg) (r : LRec) (h : KHdr) : Bool :=
  decide (512 < h.granules) || !r.clusters.any (fun c => h.corps ≤ p.inService c)

/-! ### Refusals (R292) -/

/-- Bit 63 is set, and the cause is added below it. -/
def refusalMark (cause : Nat) (m : W64) : W64 := BitVec.ofNat 64 (2 ^ 63 + (m.toNat + 2 ^ 40 * cause) % 2 ^ 63)
/-- A completion adds below bit 63. -/
def completionMark (m : W64) : W64 := BitVec.ofNat 64 (m.toNat / 2 ^ 63 * 2 ^ 63 + (m.toNat + 1) % 2 ^ 63)
/-- Mark a refusal. A word that was checked when the launch was taken and fails now stops the context; another leaves a
management event. -/
def State.markRefusal (s : State) (k : Nat) (unit : Nat) (ctx : W32) (r : LRec) (cause : Nat) (taken : Bool) : State :=
  if r.evt = 0 then s
  else match (if r.evt.toNat % 8 = 0 then s.wordKey k ctx r.evt true else .inl .page) with
    | .inr key => (s.update key 8 (refusalMark cause) none).2
    | .inl c =>
      if taken then stopContext s k ctx c 0 0 r.evt
      else s.modPkg k (fun p => mgmtEvent p 0x4F 6 unit r.addr)
def State.dropLaunch (s : State) (k n : Nat) : State :=
  s.modPkg k (fun p => { p with sched := { p.sched with launches := fdel p.sched.launches n } })
/-- A refusal of the launch that the reel sequencer waits for stops it (R392). -/
def Pkg.reelRefused (p : Pkg) (n : Nat) : Pkg :=
  if p.reel.launch = some n then { p with reel := { p.reel with st := .idle, err := true, launch := none } } else p
/-- A launch in the table is refused, and with a node of a graph the rest of its graph. -/
def State.refuseTaken (s : State) (k n cause : Nat) : State :=
  let x := s.launch k n
  let s1 := ((s.modPkg k (fun p => p.reelRefused n)).dropLaunch k n).markRefusal k x.queue x.ctx x.rcd cause true
  match x.parent with
  | none => s1
  | some (g, _) =>
    match flook (s1.pkg k).sched.launches g with
    | none => s1
    | some y => ((s1.modPkg k (fun p => p.reelRefused g)).dropLaunch k g).markRefusal k y.queue y.ctx y.rcd cause true

/-! ### Queues (R288) -/

def LQueue.log2n (q : LQueue) : Nat := nbits q.ctl.toNat 3 0
def LQueue.size (q : LQueue) : Nat := 2 ^ q.log2n
def LQueue.dev (q : LQueue) : Bool := q.ctl.getLsbD 7
def LQueue.prio (q : LQueue) : Nat := nbits q.ctl.toNat 5 4
def LQueue.slotVa (q : LQueue) (n : W32) : W64 := q.base + BitVec.ofNat 64 (128 * (n.toNat % q.size))
def Pkg.lq (p : Pkg) (i : Nat) : LQueue := fget LQueue.init p.sched.lqs i
def Pkg.modLq (p : Pkg) (i : Nat) (f : LQueue → LQueue) : Pkg :=
  { p with sched := { p.sched with lqs := fput p.sched.lqs i (f (p.lq i)) } }
/-- Whether a context lives on the package. -/
def Pkg.liveCtx (p : Pkg) (c : W32) : Bool :=
  match flook p.ctxs c.toNat with | some x => !x.stopped | none => false
/-- Firmware runs, and the package is in run (R419, R428). -/
def Pkg.running (p : Pkg) : Bool := p.sec.booted && !p.sec.recovery && p.phys.powered && p.phys.pstate != 2
/-- Whether the front end takes records from a queue (R288, R418). -/
def Pkg.lqOn (p : Pkg) (q : LQueue) : Bool :=
  p.running && p.host.featDone && q.ctl.getLsbD 6 && !q.err && nbits q.ctl.toNat 31 8 == 0 && 1 ≤ q.log2n && q.log2n ≤ 12 &&
  q.base.toNat % 128 == 0 && q.resv == 0 && p.liveCtx q.ctx
/-- A host write of TAIL: it moves forward by no more than the queue holds. -/
def tailOk (size : Nat) (tail head v : W32) : Bool := (v - head).toNat ≤ size && (v - tail).toNat ≤ size
/-- A host write of TAIL to a launch queue (R288). -/
def Pkg.lqTail (p : Pkg) (q : Nat) (v : W32) : Pkg :=
  let d := p.lq q
  if d.dev then p
  else if tailOk d.size d.tail d.head v then p.modLq q (fun d => { d with tail := v })
  else mgmtEvent (p.modLq q (fun d => { d with err := true })) 0x4D 6 q 0
def execLaunchDoorbell (k q : Nat) (v : W32) (s : State) : Out := .next (s.modPkg k (fun p => if p.sec.booted && !p.sec.recovery && p.phys.powered then p.lqTail q v else p))

/-! ### The front end (R289, R292) -/

/-- A graph descriptor: the number of nodes, zero standing for 4,096, and the address of the node array (R298). -/
def gdescOf (bs : List Byte) : Option (Nat × W64) :=
  let w := field bs 0 8
  if nbits w 63 12 ≠ 0 ∨ field bs 8 8 % 64 ≠ 0 then none
  else some (if nbits w 11 0 = 0 then 4096 else nbits w 11 0, BitVec.ofNat 64 (field bs 8 8))
/-- The launch that a record asks for, or the cause of its refusal. -/
def State.judge (s : State) (k : Nat) (ctx : W32) (addr : W64) (bs : List Byte) : Nat ⊕ Launch :=
  let p := s.pkg k
  let r := lrecOf addr bs
  let x := { Launch.init with ctx := ctx, since := p.now, rcd := r, st := .waiting }
  if recBad r bs then .inl 2
  else if r.graph then
    match s.devFetch k ctx r.khdr 16 with
    | none => .inl 6
    | some g =>
      if s.wordsBad k ctx r then .inl 6
      else match gdescOf g with
        | none => .inl 5
        | some d => .inr { x with gcount := d.1, gdesc := d.2 }
  else match s.devFetch k ctx r.khdr 64 with
    | none => .inl 6
    | some hb =>
      let h := khdrOf r.khdr hb
      if hdrBad p h hb then .inl 1
      else if h.rcd && !s.wordOk k ctx h.logbase true then .inl 1
      else if recHdrBad r h then .inl 2
      else if s.wordsBad k ctx r then .inl 6
      else if p.noFit r h then .inl 3
      else if (r.argn != 0 && (s.devFetch k ctx r.args (4 * r.argn)).isNone) ||
          (h.dictn != 0 && (s.devFetch k ctx h.dict (4 * h.dictn)).isNone) then .inl 6
      else
        let log := if h.rcd then (s.devFetch k ctx h.logbase 64).getD [] else []
        let mode := field log 8 4
        let x1 := { x with hdr := h, logMode := mode }
        if 1 < mode ∨ field log 12 52 ≠ 0 then .inl 1
        else if !h.det then .inr x1
        else if h.detr = 0 ∨ h.detr.toNat % 64 ≠ 0 then .inl 1
        else match s.devFetch k ctx h.detr 160 with
          | none => .inl 6
          | some db =>
            match detrOf db with
            | none => .inl 1
            | some d =>
              if d.c % h.corps ≠ 0 || (d.len != 0 && !s.wordOk k ctx d.base true) then .inl 1
              else .inr { x1 with detc := d.c, defBase := d.base, defLen := d.len, ranges := d.ranges }
/-- Launches in the table that came through a queue. -/
def Pkg.tableUsed (p : Pkg) : Nat := (p.sched.launches.filter (fun (e : Nat × Launch) => e.2.parent.isNone)).length
/-- The queue whose turn it is. -/
def Pkg.nextQueue (p : Pkg) : Option Nat :=
  if 2048 ≤ p.tableUsed then none
  else ((List.range 64).map (fun i => (p.sched.lqTurn + i) % 64)).find? (fun i => p.lqOn (p.lq i) && (p.lq i).tail != (p.lq i).head)
/-- A launch enters the table, ready at once where it waits on no word. -/
def State.addLaunch (s : State) (k : Nat) (x : Launch) : State :=
  let n := s.nextId
  let st := if x.rcd.wevt ≠ 0 then .waiting else if x.caller.isSome then .held else .ready
  { s with nextId := n + 1 }.modPkg k (fun p => { p with sched := { p.sched with
    launches := fput p.sched.launches n { x with st := st, readySeq := n } } })
def execFrontEndTake (k q : Nat) (s : State) : Out :=
  if (s.pkg k).nextQueue ≠ some q then .next s
  else
    let d := (s.pkg k).lq q
    let unit := if d.dev then 64 else q
    let va := d.slotVa d.head
    let s1 := s.modPkg k (fun p =>
      let p1 := p.modLq q (fun d => { d with head := d.head + 1, depths := d.depths.tail })
      { p1 with sched := { p1.sched with lqTurn := (q + 1) % 64 } })
    match s.devFetch k d.ctx va 128 with
    | none => .next (s1.modPkg k (fun p => mgmtEvent p 0x4F 6 unit va))
    | some bs =>
      match s.judge k d.ctx va bs with
      | .inl c => .next (s1.markRefusal k unit d.ctx (lrecOf va bs) c false)
      | .inr x => .next (s1.addLaunch k { x with
          queue := unit
          prio := d.prio
          depth := if d.dev then d.depths.headD 0 else 0 })

/-! ### Dependences, aging, the order of hand-over (R293, R297) -/

/-- A waiting launch is checked against its event word. -/
def State.recheck (s : State) (k n : Nat) : State :=
  match flook (s.pkg k).sched.launches n with
  | none => s
  | some x =>
    if x.st ≠ .waiting then s
    else match s.wordKey k x.ctx x.rcd.wevt false with
      | .inl c => stopContext s k x.ctx c 0 0 x.rcd.wevt
      | .inr key =>
        let v := leNat (s.load key 8)
        if v < x.rcd.wval.toNat then s
        else if 2 ^ 63 ≤ v then s.refuseTaken k n 4
        else
          let m := s.nextId
          { s with nextId := m + 1 }.modPkg k (fun p => p.modLaunch n (fun x => { x with
            st := if x.caller.isSome then .held else .ready
            readySeq := m }))
def execLaunchReady (k n : Nat) (s : State) : Out := .next (s.recheck k n)
def execLaunchRecheckTimer (k n : Nat) (s : State) : Out := .next (s.recheck k n)
/-- Each full millisecond of waiting lowers a launch's effective level. -/
def Launch.ages (x : Launch) (now : Nat) : Bool := (x.st == .waiting || x.st == .ready) && x.prio != 0 && x.since + 1000000 ≤ now
def execLaunchAging (k n : Nat) (s : State) : Out :=
  .next (s.modPkg k (fun p => p.modLaunch n (fun x =>
    if x.ages p.now then { x with prio := x.prio - 1, since := x.since + 1000000 } else x)))

/-- The order of R297. -/
def Launch.rank (x : Launch) : Nat := x.prio * 2 ^ 64 + x.readySeq
/-- A launch that counts as ready and has no caller: one with saved troupes, or corps to be placed again, among them. -/
def Launch.wantsCaller (x : Launch) : Bool :=
  x.caller.isNone && (x.st == .ready || (x.st == .done && (!x.saved.isEmpty || !x.redo.isEmpty)))
def Pkg.freeCaller (p : Pkg) : Option Nat :=
  (List.range 8).find? (fun c => !p.sched.launches.any (fun (e : Nat × Launch) => e.2.caller == some c && e.2.parent.isNone))
def Pkg.nextReady (p : Pkg) : Option (Nat × Launch) :=
  (sortBy (fun (e : Nat × Launch) => e.2.rank) (p.sched.launches.filter (fun (e : Nat × Launch) => e.2.wantsCaller))).head?
/-! ### `spawn` (R171) -/

/-- The record's two 64-byte halves as the electing lane reads them: through its own package's tables, and for a page homed
elsewhere through its home's too (R272). -/
def State.spawnBad (s : State) (va : W64) : Option Bad :=
  [va, va + 64].findSome? (fun a =>
    match s.checkG s.curPkg s.curTroupe.core s.curCtx s.curWave.sys .load a 8 with
    | .bad c sub => some (c, sub, a)
    | .ok _ => if (s.devFetch s.curPkg s.curCtx a 64).isNone then some (.page, 0, a) else none)
def execSpawn (m : Mods) (d a : Reg) (s : State) : Out :=
  match s.elected m with
  | none => .next (finish s [])
  | some e =>
    let b := s.block e a 4
    let k := s.curPkg
    let va := bd b 0
    let q := bf b 2 5 0
    let lq := (s.pkg k).lq q
    let depth := (s.launch k s.curTroupe.launch).depth
    let give := fun (s : State) (v : W32) => finish (sendAll s m .owed d 1 (outs32 d v)) []
    if va.toNat % 64 ≠ 0 ∨ bf b 2 31 6 ≠ 0 ∨ bw b 3 ≠ 0 ∨ !lq.dev ∨ !(s.pkg k).lqOn lq ∨ lq.ctx ≠ s.curCtx then .next (give s 3)
    else if 7 ≤ depth then .next (give s 2)
    else if (lq.tail - lq.head).toNat = lq.size then .next (give s 1)
    else match s.spawnBad va with
      | some f => .next (faultElected s m f.1 f.2.1 f.2.2)
      | none =>
        if s.walkWait .g [va, va + 64] || s.relWait .pkg then .next (waitAt (s.missed .g [va, va + 64]) (.spawn m d a))
        else
          let s1 := s.walked .g [va, va + 64]
          let bs := (s1.devFetch k s.curCtx va 128).getD []
          let slot := lq.slotVa lq.tail
          let s2 := (s1.devStore k lq.ctx slot (bs.take 64)).devStore k lq.ctx (slot + 64) (bs.drop 64)
          .next (give (s2.modPkg k (fun p => p.modLq q (fun x => { x with tail := x.tail + 1, depths := x.depths ++ [depth + 1] }))) 0)

end Sys2Proof.Machine
end

