-- ==== Sys2Proof/Machine/Place.lean ====
section
/-! DEFINITION. Placement (R290, R294, R299, R300, R401), the start of a troupe (R18, R30, R34, R38 to R41, R263), and its
publication (R295, R404). -/

namespace Sys2Proof.Machine

/-! ### What a core has free (R299) -/

/-- Troupes that stand on a core. -/
def TroupeSt.onCore (t : TroupeSt) : Bool := t == .resident || t == .ended
def State.coreTroupes (s : State) (k core : Nat) : List (Nat × Troupe) :=
  s.troupes.filter (fun (e : Nat × Troupe) => e.2.pkg == k && e.2.core == core && e.2.st.onCore)
/-- A core that may be given troupes: in service, and not under test (R426). -/
def State.coreOpen (s : State) (k core : Nat) : Bool := !(s.core k core).fenced && !(s.core k core).testing
/-- Wave slots taken on a quad: eight a quad. -/
def State.quadUsed (s : State) (k core q : Nat) : Nat :=
  ((s.holders k core).filter (fun (e : Nat × Wave) => e.2.quad == q)).length
/-- Each wave, with its partner, goes to the quad with the most free slots, ties to the lower. -/
def giveQuads : List Nat → List Nat → Option (List Nat)
  | [], _ => some []
  | n :: rest, free =>
    match (sortBy (fun (e : Nat × Nat) => 8 - e.1) (free.zipIdx)).head? with
    | none => none
    | some e => if e.1 < n then none else (giveQuads rest (free.set e.2 (e.1 - n))).map (fun l => e.2 :: l)
/-- What a troupe asks of a core: granules, slots for each of its waves, the kernel's other allotments. -/
structure Need where
  gran : Nat
  slots : List Nat
  hdr : KHdr
  deriving DecidableEq, Repr
def KHdr.need (h : KHdr) : Need := ⟨h.granules, List.replicate h.waves (if h.pentry = 0 then 1 else 2), h⟩
/-- The quads of its waves where a troupe fits on a core. -/
def State.fitsOn (s : State) (k core : Nat) (r : Need) : Option (List Nat) :=
  let ts := s.coreTroupes k core
  let sum := fun (f : KHdr → Nat) => (ts.map (fun (e : Nat × Troupe) => f e.2.hdr)).sum
  if !s.coreOpen k core || s.freeGranules k core < r.gran || 256 < sum (·.scratch) + r.hdr.scratch || 128 < sum (·.obuf) + r.hdr.obuf ||
      (r.hdr.acc != 0 && (sum (·.acc) != 0 || decide (64 < r.hdr.acc))) then none
  else giveQuads r.slots ((List.range 4).map (fun q => 8 - s.quadUsed k core q))
/-- Cores of a cluster for the troupes of a corps: the most free granules first, ties to the lower number. Each troupe may
ask for something of its own. -/
def pickGo (s : State) (k clus : Nat) : List Need → List Nat → Option (List (Nat × List Nat))
  | [], _ => some []
  | r :: rest, taken =>
    let fit := ((List.range 256).map (fun i => clus * 256 + i)).filterMap (fun c =>
      if taken.contains c then none else (s.fitsOn k c r).map (fun q => (c, q)))
    match (sortBy (fun (e : Nat × List Nat) => 512 - s.freeGranules k e.1) fit).head? with
    | none => none
    | some e => (pickGo s k clus rest (e.1 :: taken)).map (fun l => e :: l)

/-! ### Clusters (R299, R300) -/

/-- The pre-emption requests on a context. -/
def Pkg.requests (p : Pkg) (ctx : W32) : List Preempt := fget [] p.sched.preempts ctx.toNat
def Pkg.setRequests (p : Pkg) (ctx : W32) (l : List Preempt) : Pkg :=
  { p with sched := { p.sched with preempts := if l.isEmpty then fdel p.sched.preempts ctx.toNat else fput p.sched.preempts ctx.toNat l } }
/-- Clusters that pre-emption requests close to a context (R315). -/
def Pkg.closed (p : Pkg) (ctx : W32) : BitVec 4 :=
  ((p.requests ctx).map (fun r => r.mask &&& ~~~ r.openMask)).foldl (fun x y => x ||| y) 0
def Pkg.mayServe (p : Pkg) (clus n : Nat) : Bool := match p.holder clus with | none => true | some m => m == n
/-- What a placement request comes to. -/
inductive Spot
  | on (clus : Nat) (cores : List (Nat × List Nat))
  | wait (clus : Nat)
  | none_
  deriving DecidableEq, Repr
/-- Where a request goes. One that waits is served by its cluster alone, while cores enough are in service there (R432). -/
def State.spot (s : State) (k n : Nat) (x : Launch) (wait : Option CorpsWait) (needs : List Need) : Spot :=
  let p := s.pkg k
  let may := fun (c : Nat) => x.rcd.clusters.contains c && !(p.closed x.ctx).getLsbD c
  let try_ := fun (c : Nat) => if p.mayServe c n then pickGo s k c needs [] else none
  match wait.filter (fun y => needs.length ≤ p.inService y.clus) with
  | some y =>
    if !may y.clus then .none_ else (match try_ y.clus with | some l => .on y.clus l | none => .none_)
  | none =>
    let last := fget 3 p.sched.lastClus (x.caller.getD 0)
    let order := ((List.range 4).map (fun i => (last + 1 + i) % 4)).filter may
    match order.findSome? (fun c => (try_ c).map (fun l => Spot.on c l)), (order.filter (fun c => needs.length ≤ p.inService c)).head? with
    | some r, _ => r
    | none, some c => .wait c
    | none, none => .none_
/-- Whether a placed request was behind a waiting one: by the order of R297, or where both waited on the cluster, the
younger. -/
def CorpsWait.ahead (y : CorpsWait) (by_ : Option CorpsWait) (behind : Bool) : Bool :=
  match by_ with
  | some w => if w.clus = y.clus then y.seq < w.seq else behind
  | none => behind
/-- A placement on its cluster ahead of a waiting corps counts as a bypass against it. -/
def CorpsWait.passed (y : CorpsWait) (clus : Nat) (behind : Bool) (by_ : Option CorpsWait) : CorpsWait :=
  if y.clus == clus && y.ahead by_ behind then { y with bypass := y.bypass + 1 } else y
/-- A corps of launch `n`, a saved one or its next, has been placed on a cluster: bypasses are counted, and the caller
remembers the cluster. -/
def Pkg.placed (p : Pkg) (n caller clus : Nat) (saved : Bool) : Pkg :=
  match flook p.sched.launches n with
  | none => p
  | some x =>
    let by_ := if saved then x.waitSaved else x.wait
    { p with sched := { p.sched with
      lastClus := fput p.sched.lastClus caller clus
      launches := fall p.sched.launches (fun m y =>
        let pass := fun (w : CorpsWait) => w.passed clus (y.rank < x.rank) by_
        if m = n then (if saved then { y with waitSaved := none } else { y with wait := none })
        else { y with wait := y.wait.map pass, waitSaved := y.waitSaved.map pass }) } }
def State.makeWait (s : State) (k n clus : Nat) (saved : Bool) : State :=
  let w : Option CorpsWait := some ⟨clus, s.nextId, 0⟩
  { s with nextId := s.nextId + 1 }.modPkg k (fun p => p.modLaunch n (fun x => if saved then { x with waitSaved := w } else { x with wait := w }))
/-- A cluster that begins to hold for a corps: the granules free at that moment are not held (R300). -/
def State.noteHold (s : State) (k clus : Nat) (held : Bool) : State :=
  if held || ((s.pkg k).holder clus).isNone then s
  else s.modPkg k (fun p => { p with cores := fall p.cores (fun n c => if clusterOf n = clus then { c with spare := s.freeGranules k n } else c) })
/-- What a placement does to the others that wait. -/
def State.placedOn (s : State) (k n caller clus : Nat) (saved : Bool) : State :=
  (s.modPkg k (fun p => p.placed n caller clus saved)).noteHold k clus ((s.pkg k).holder clus).isSome

/-! ### The start of a troupe -/

/-- A wave at its start: every lane at the entry point, nothing written (R11, R18). -/
def Wave.start (tid wix : Nat) (part : Bool) (pc : W64) (allot quad : Nat) : Wave :=
  { Wave.init with
    tid := tid
    wix := wix
    part := part
    allot := allot
    quad := quad
    lanes := (List.range 32).map (fun l => (l, { Lane.init with pc := pc })) }
/-- New waves take the lowest free slots of their quads; `used` holds the quad and slot of each that is taken (R302). -/
def seat : List (Nat × Nat) → List (Nat × Wave) → List (Nat × Wave)
  | _, [] => []
  | used, e :: rest =>
    let n := ((List.range 8).find? (fun i => !used.contains (e.2.quad, i))).getD 0
    (e.1, { e.2 with slot := n }) :: seat ((e.2.quad, n) :: used) rest
def State.seats (s : State) (k core : Nat) : List (Nat × Nat) := (s.holders k core).map (fun (e : Nat × Wave) => (e.2.quad, e.2.slot))
/-- A tile that another context held last is zeroed (R263). -/
def scrubTile (s : State) (held : FMap W32) (ctx : W32) (key tile : Nat) : State :=
  if flook held tile = some ctx then s else s.zeroRange key 4096
/-- A troupe takes its tiles on a core: thread-owned, scrubbed where need be; with accumulators, the array starts afresh
(R39, R218, R263). -/
def State.claim (s : State) (k core tid : Nat) : State :=
  let t := s.troupe tid
  let c := s.core k core
  let s1 := t.tiles.foldl (fun (s : State) (i : Nat) => scrubTile s c.tileCtx t.ctx (scrKey k core i 0) i) s
  let s2 := t.accs.foldl (fun s i => scrubTile s c.accCtx t.ctx (accKey k core i 0) i) s1
  s2.modCore k core (fun c => { c with
    lines := []
    ownEng := c.ownEng.filter (fun (e : Nat × Bool) => !t.tiles.contains e.1)
    tileCtx := t.tiles.foldl (fun m i => fput m i t.ctx) c.tileCtx
    accCtx := t.accs.foldl (fun m i => fput m i t.ctx) c.accCtx
    arr := if t.accs.isEmpty then c.arr else ArrayCfg.init })
/-- The physical tiles that a troupe is given. -/
def State.freeTiles (s : State) (k core n : Nat) : List Nat :=
  let used := ((s.coreTroupes k core).map (fun (e : Nat × Troupe) => e.2.tiles)).flatten
  ((List.range 256).filter (fun i => !used.contains i)).take n
/-- The constant bank and the dictionary, or none where they can no longer be read (R38, R79). -/
def State.bankWords (s : State) (k : Nat) (ctx : W32) (r : LRec) : Option (List W32) :=
  if r.argn = 0 then some []
  else (s.devFetch k ctx r.args (4 * r.argn)).map (fun bs => (List.range r.argn).map (fun i => BitVec.ofNat 32 (field bs (4 * i) 4)))
def State.dictWords (s : State) (k : Nat) (ctx : W32) (h : KHdr) : Option (Option (List W32)) :=
  if h.dict = 0 then some none
  else (s.devFetch k ctx h.dict (4 * h.dictn)).map (fun bs => some ((List.range h.dictn).map (fun i => BitVec.ofNat 32 (field bs (4 * i) 4))))
def Launch.saveArea (x : Launch) (t : Nat) : W64 :=
  if x.rcd.savebase = 0 then 0 else x.rcd.savebase + BitVec.ofNat 64 (4096 * x.rcd.savesz * (t % x.rcd.nsave))
/-- A troupe of a launch starts on a core. -/
def State.startTroupe (s : State) (k n cid t crk : Nat) (bank : List W32) (dict : Option (List W32)) (place : Nat × List Nat) : State :=
  let x := s.launch k n
  let h := x.hdr
  let tid := s.nextId
  let core := place.1
  let tr : Troupe := { Troupe.init with
    pkg := k, core := core, ctx := x.ctx, launch := n, tidx := t, corps := cid, crk := crk, st := .resident, hdr := h
    kbank := bank, dict := dict, savearea := x.saveArea t, traphnd := h.traph
    tiles := s.freeTiles k core h.scratch, accs := List.range h.acc
    salt := Config.entropy s.fresh, ranges := x.ranges }
  let ws := (place.2.zipIdx.map (fun e =>
    (widOf tid e.2 false, Wave.start tid e.2 false h.entry (8 * h.regs) e.1) ::
    (if h.pentry = 0 then [] else [(widOf tid e.2 true, Wave.start tid e.2 true h.pentry (8 * h.pregs) e.1)]))).flatten
  let s1 := { s with
    nextId := tid + 1
    fresh := s.fresh + 1
    troupes := fput s.troupes tid tr
    waves := (seat (s.seats k core) ws).foldl (fun (m : FMap Wave) (e : Nat × Wave) => fput m e.1 e.2) s.waves }
  (s1.modCorps cid (fun c => { c with troupes := c.troupes ++ [tid] })).claim k core tid

/-! ### Corps (R290, R294, R299, R401) -/

/-- Whether a troupe's save area is free: no other troupe of the launch that uses it is resident or evicted. -/
def State.areaFree (s : State) (k n : Nat) (x : Launch) (t : Nat) : Bool :=
  x.rcd.savebase == 0 || !s.troupes.any (fun (e : Nat × Troupe) =>
    e.2.pkg == k && e.2.launch == n && (e.2.st.onCore || e.2.st == .saved) && e.2.tidx % x.rcd.nsave == t % x.rcd.nsave)
/-- A gate: open, closed, or a word that can no longer be read. -/
inductive Gate
  | open_ | closed
  | fault (c : Cause) (va : W64)
  deriving DecidableEq, Repr
def State.gateBit (s : State) (k : Nat) (ctx : W32) (gmap : W64) (j : Nat) : Gate :=
  let va := gmap + BitVec.ofNat 64 (j / 8)
  match s.wordKey k ctx va false with
  | .inl c => .fault c (va &&& ~~~ 7#64)
  | .inr key => if (memGet s.mem key).getLsbD (j % 8) then .open_ else .closed
def Gate.and (a b : Gate) : Gate := match a with | .open_ => b | x => x
def State.gateOf (s : State) (k : Nat) (x : Launch) (t : Nat) : Gate :=
  if x.rcd.gmap = 0 then .open_
  else
    let lo : Int := (t : Int) + x.rcd.gshift - x.rcd.gw
    let js := (List.range (2 * x.rcd.gw + 1)).filterMap (fun (i : Nat) =>
      let j := lo + i
      if 0 ≤ j ∧ j < x.rcd.gpt then some j.toNat else none)
    (js.map (s.gateBit k x.ctx x.rcd.gmap)).foldl Gate.and .open_
/-- The troupes of a corps. -/
def Launch.corpsOf (x : Launch) (i : Nat) : List Nat := (List.range x.hdr.corps).map (fun r => i * x.hdr.corps + r)
def State.corpsGate (s : State) (k n : Nat) (x : Launch) (i : Nat) : Gate :=
  let ts := x.corpsOf i
  if ts.any (fun t => !s.areaFree k n x t || (x.hdr.det && x.detc ≤ t && !x.pubMap.contains (t - x.detc))) ||
     (x.rcd.savebase != 0 && !decide (ts.map (fun t => t % x.rcd.nsave)).Nodup) then .closed
  else (ts.map (s.gateOf k x)).foldl Gate.and .open_
/-- The next corps to place: those that start again come first. -/
def Launch.nextIdx (x : Launch) : Option Nat :=
  match x.redo.head? with
  | some e => some e.1
  | none => if x.nextCorps * x.hdr.corps < x.rcd.ntrp then some x.nextCorps else none
/-- A caller that has placed the last of a launch's troupes lets it go; a node's launch stays with its graph's caller. -/
def Launch.release (x : Launch) : Launch :=
  if x.nextIdx.isNone && x.saved.isEmpty then { x with st := .done, caller := if x.parent.isNone then none else x.caller } else x
/-- A launch that its caller is placing. -/
def Launch.placing (x : Launch) : Bool :=
  x.caller.isSome && !x.rcd.graph && (x.st == .held || (x.st == .done && (!x.saved.isEmpty || !x.redo.isEmpty)))
/-- What the caller's attempt at a launch's next corps comes to, if it changes anything. -/
def State.tryCorps (s : State) (k n : Nat) : Option State :=
  match flook (s.pkg k).sched.launches n with
  | none => none
  | some x =>
    if !x.placing || !x.saved.isEmpty then none
    else match x.nextIdx with
      | none => some (s.modPkg k (fun p => p.modLaunch n Launch.release))
      | some i =>
        match s.corpsGate k n x i with
        | .closed => none
        | .fault c va => some (stopContext s k x.ctx c 0 0 va)
        | .open_ =>
          match s.spot k n x x.wait (List.replicate x.hdr.corps x.hdr.need) with
          | .none_ => if (s.pkg k).noFit x.rcd x.hdr then some (s.refuseTaken k n 3) else none
          | .wait c => some (s.makeWait k n c false)
          | .on clus cores =>
            match s.bankWords k x.ctx x.rcd, s.dictWords k x.ctx x.hdr with
            | some b, some d =>
              let cid := s.nextId
              let s1 := { s with nextId := cid + 1, corps := fput s.corps cid ⟨k, clus, n, i, [], 0, x.hdr.corps, false⟩ }
              let s2 := ((x.corpsOf i).zip cores).zipIdx.foldl (fun s e => s.startTroupe k n cid e.1.1 e.2 b d e.1.2) s1
              some ((s2.placedOn k n (x.caller.getD 0) clus false).modPkg k (fun p => p.modLaunch n (fun y =>
                Launch.release (if y.redo.isEmpty then { y with nextCorps := y.nextCorps + 1 } else { y with redo := y.redo.tail }))))
            | none, _ => some (stopContext s k x.ctx .page 0 0 x.rcd.args)
            | _, none => some (stopContext s k x.ctx .page 0 0 x.hdr.dict)
/-! ### Pre-emption that ends (R315) -/

/-- Troupes of a context on clusters of a package. -/
def State.onClusters (s : State) (k : Nat) (ctx : W32) (mask : BitVec 4) : List (Nat × Troupe) :=
  s.troupes.filter (fun (e : Nat × Troupe) => e.2.pkg == k && e.2.ctx == ctx && e.2.st.onCore && mask.getLsbD (clusterOf e.2.core))
def preemptEvent (p : Pkg) (ctx : W32) (forced : Bool) : Pkg :=
  mgmtEvent p 0x4E 6 0 (BitVec.ofNat 64 (ctx.toNat + forced.toNat * 2 ^ 32))
/-- The drain ends when no troupe is left on the clusters, the eviction when every troupe it named has left. -/
def State.preemptOver (s : State) (k : Nat) (ctx : W32) (r : Preempt) : Bool :=
  match r.stage with
  | .drain => (s.onClusters k ctx (r.mask &&& ~~~ r.openMask)).isEmpty
  | .evict => r.troupes.all (fun t => !(s.troupe t).st.onCore)
  | .over_ => false
/-- Requests that have come to their end are reported; their clusters stay closed until PREEND. -/
def State.preemptCheck (s : State) (k : Nat) (ctx : W32) : State :=
  let l := (s.pkg k).requests ctx
  let done := l.filter (fun r => s.preemptOver k ctx r)
  if done.isEmpty then s
  else s.modPkg k (fun p => done.foldl (fun p _ => preemptEvent p ctx false)
    (p.setRequests ctx (l.map (fun r => if s.preemptOver k ctx r then { r with stage := .over_, troupes := [] } else r))))

/-! ### Publication (R295) -/

/-- Everything that a troupe issued has performed, and its commands have completed. -/
def State.quietTroupe (s : State) (tid : Nat) : Bool :=
  let t := s.troupe tid
  !s.writes.any (fun x => x.wid / 32 == tid) && !(s.pkg t.pkg).bankQ.any (fun x => x.wid / 32 == tid) &&
  !(s.pkg t.pkg).bops.any (fun x => x.wid / 32 == tid) && !(s.pkg t.pkg).cmds.any (fun x => x.tid == tid && x.graph.isNone) &&
  !(s.core t.pkg t.core).mxq.any (fun x => x.tid == tid)
def State.mayPublish (s : State) (tid : Nat) : Bool :=
  let t := s.troupe tid
  let x := s.launch t.pkg t.launch
  t.st == .ended && s.quietTroupe tid && (x.published + 1 < x.rcd.ntrp || x.deferred.isEmpty)
/-- A discarded remote operation that no release has reported (R366). -/
def State.unreported (s : State) (tid : Nat) : Option W64 :=
  s.waves.findSome? (fun (e : Nat × Wave) => if e.2.tid = tid then (e.2.discarded.head?).map (fun d => d.2.1) else none)
/-- The publication itself: bit t of DONEMAP and one more in EVT, or the failure of a word. -/
def State.publishWords (s : State) (k : Nat) (x : Launch) (t : Nat) : State ⊕ (Cause × W64) :=
  let va := x.rcd.donemap + BitVec.ofNat 64 (8 * (t / 64))
  let s1 : State ⊕ (Cause × W64) :=
    if x.rcd.donemap = 0 then .inl s
    else match s.wordKey k x.ctx va true with
      | .inl c => .inr (c, va)
      | .inr key => .inl ((s.update key 8 (fun m => m ||| (1#64 <<< (t % 64))) none).2)
  match s1 with
  | .inr f => .inr f
  | .inl s1 =>
    if x.rcd.evt = 0 then .inl s1
    else match s1.wordKey k x.ctx x.rcd.evt true with
      | .inl c => .inr (c, x.rcd.evt)
      | .inr key => .inl ((s1.update key 8 completionMark none).2)
def execTroupePublish (t : Nat) (s : State) : Out :=
  let tr := s.troupe t
  let k := tr.pkg
  let x := s.launch k tr.launch
  let again := x.quiet.contains tr.tidx
  if !s.mayPublish t then .next s
  else match (if again then .inl s else s.publishWords k x tr.tidx) with
    | .inr f => .next (stopContext s k tr.ctx f.1 0 0 f.2)
    | .inl s1 =>
        let s2 := s1.modTroupe t (fun y => { y with st := .published })
        let s3 := s2.modPkg k (fun p => p.modLaunch tr.launch (fun y => if again then { y with quiet := y.quiet.erase tr.tidx } else { y with
          published := y.published + 1
          pubMap := if y.hdr.det then y.pubMap ++ [tr.tidx] else y.pubMap }))
        let s4 := if !again && x.published + 1 = x.rcd.ntrp then s3.dropLaunch k tr.launch else s3
        let s5 := (s4.preemptCheck k tr.ctx).grant k tr.core
        match s.unreported t with
        | some va => .next (stopContext s5 k tr.ctx .page 2 0 va)
        | none => .next s5

end Sys2Proof.Machine
end

