-- ==== Sys2Proof/Machine/Graph.lean ====
section
/-! DEFINITION. The hand-over to callers (R297) and the walk of a graph (R298): its nodes, how each kind starts and when it is
done, conditional and while nodes, completion and refusal. -/

namespace Sys2Proof.Machine

/-! ### Nodes -/

/-- A node as its 64 bytes say. -/
structure NodeRec where
  npred : Nat
  kind : Nat
  succ : List Nat
  bytes : List Byte
  deriving DecidableEq, Repr
def nodeOf (bs : List Byte) : NodeRec :=
  ⟨nbits (field bs 0 8) 27 16, nbits (field bs 0 8) 3 0, (List.range 4).map (fun i => field bs (8 + 2 * i) 2), bs⟩
def NodeRec.word (r : NodeRec) (off : Nat) : W64 := BitVec.ofNat 64 (field r.bytes off 8)
def succValid (v : Nat) : Bool := nbits v 15 15 == 1
def succIdx (v : Nat) : Nat := nbits v 11 0
/-- The valid successors, in order. -/
def NodeRec.next (r : NodeRec) : List Nat := (r.succ.filter succValid).map succIdx
/-- A malformed node (GRAPHERR). -/
def NodeRec.bad (r : NodeRec) (count : Nat) : Bool :=
  nbits (field r.bytes 0 8) 63 28 != 0 || nbits (field r.bytes 0 8) 15 4 != 0 || decide (7 < r.kind) ||
  r.succ.any (fun v => nbits v 14 12 != 0 || (succValid v && decide (count ≤ succIdx v))) ||
  ((r.kind == 5 || r.kind == 6) && (r.succ.map succValid != [true, true, false, false] || (r.word 16).toNat % 8 != 0)) ||
  (r.kind == 2 && field r.bytes 48 16 != 0)
def State.node? (s : State) (k : Nat) (x : Launch) (i : Nat) : Option NodeRec :=
  (s.devFetch k x.ctx (x.gdesc + BitVec.ofNat 64 (64 * i)) 64).map nodeOf
def State.nodeNext (s : State) (k : Nat) (x : Launch) (i : Nat) : List Nat := match s.node? k x i with | some r => r.next | none => []
def State.npred (s : State) (k : Nat) (x : Launch) (i : Nat) : Nat := match s.node? k x i with | some r => r.npred | none => 0
/-- The nodes reachable from a while node's first successor without passing through it. -/
def bodyGo (next : Nat → List Nat) (w : Nat) : Nat → List Nat → List Nat → List Nat
  | 0, _, seen => seen
  | f + 1, edge, seen =>
    let new := (((edge.map next).flatten).filter (fun i => i != w && !seen.contains i)).dedup
    if new.isEmpty then seen else bodyGo next w f new (seen ++ new)
def State.bodyOf (s : State) (k : Nat) (x : Launch) (w : Nat) : List Nat :=
  match s.nodeNext k x w with
  | b :: _ => if b = w then [] else bodyGo (s.nodeNext k x) w x.gcount [b] [b]
  | [] => []

def GNode.init : GNode := ⟨0, .idle, 0, false⟩
def Launch.gnode (x : Launch) (i : Nat) : GNode := fget GNode.init x.nodes i
def Launch.modNode (x : Launch) (i : Nat) (f : GNode → GNode) : Launch := { x with nodes := fput x.nodes i (f (x.gnode i)) }
/-- The graph is over: EVT receives 1 (R298). -/
def State.graphOver (s : State) (k n : Nat) : State :=
  let x := s.launch k n
  if x.nodes.any (fun (e : Nat × GNode) => e.2.st != .idle) then s
  else if x.rcd.evt = 0 then s.dropLaunch k n
  else match s.wordKey k x.ctx x.rcd.evt true with
    | .inl c => stopContext s k x.ctx c 0 0 x.rcd.evt
    | .inr key => ((s.update key 8 completionMark none).2).dropLaunch k n
/-- A caller takes a graph: every node's count, and the nodes that are ready at once. -/
def State.beginGraph (s : State) (k n : Nat) : State :=
  let x := s.launch k n
  if (List.range x.gcount).any (fun i => (s.node? k x i).isNone) then s.refuseTaken k n 6
  else
    let nodes := (List.range x.gcount).map (fun i =>
      let c := s.npred k x i
      (i, ({ GNode.init with count := c, st := if c = 0 then .ready else .idle } : GNode)))
    (s.modPkg k (fun p => p.modLaunch n (fun x => { x with nodes := nodes }))).graphOver k n
/-- Ready launches go to free callers in the order of their levels. -/
def execCallerHandover (k : Nat) (s : State) : Out :=
  match (s.pkg k).freeCaller, (s.pkg k).nextReady with
  | some c, some e =>
    let s1 := s.modPkg k (fun p => p.modLaunch e.1 (fun x => { x with caller := some c, st := .held }))
    .next (if e.2.rcd.graph then s1.beginGraph k e.1 else s1)
  | _, _ => .next s

/-! ### Starting a node -/

/-- What starting a node comes to: a refusal of the rest of the graph, a wait for room, or the state and what to watch. -/
inductive NodeGo
  | refuse (cause : Nat)
  | wait
  | go (s : State) (sub : Nat)
  deriving DecidableEq, Repr
/-- A grid node: its record is taken like any other; a record that is refused marks its own EVT too. -/
def State.startGrid (s : State) (k n i : Nat) (x : Launch) (r : NodeRec) : NodeGo × State :=
  let va := r.word 16
  if va.toNat % 64 ≠ 0 then (.refuse 5, s)
  else match s.devFetch k x.ctx va 128 with
    | none => (.refuse 6, s)
    | some bs =>
      if (lrecOf va bs).graph then (.refuse 5, s)
      else match s.judge k x.ctx va bs with
        | .inl c => (.refuse c, s.markRefusal k 64 x.ctx (lrecOf va bs) c false)
        | .inr y => (.go (s.addLaunch k { y with
            queue := 64, prio := x.prio, depth := x.depth, parent := some (n, i), caller := x.caller }) s.nextId, s)
/-- A page of a graph copy's range, by the device's own access. -/
def State.copyPage (s : State) (k : Nat) (ctx : W32) (write : Bool) (va : W64) : Option Nat :=
  match s.devLeaf k ctx va with
  | none => none
  | some l => if (if write then pteW l && pteState l == 2 else pteR l) then s.devKey k ctx va else none
/-- A copy node: a `tc.copy` between `.g` ranges of this package with no barrier, on an engine of the first die with room. -/
def State.startCopy (s : State) (k n i : Nat) (x : Launch) (r : NodeRec) : NodeGo :=
  match s.devFetch k x.ctx (r.word 16) 24 with
  | none => .refuse 6
  | some b =>
    let ctl := field b 16 4
    let src := BitVec.ofNat 64 (field b 0 8)
    let dst := BitVec.ofNat 64 (field b 8 8)
    let len := nbits ctl 23 0
    let a := stepsOf (2 ^ 16) src len
    let d := stepsOf (2 ^ 16) dst len
    if nbits ctl 31 24 ≠ 0 ∨ len < 16 ∨ len % 16 ≠ 0 ∨ src.toNat % 16 ≠ 0 ∨ dst.toNat % 16 ≠ 0 ∨ field b 20 4 ≠ 0 then .refuse 5
    else if a.any (fun v => (s.copyPage k x.ctx false v).isNone) || d.any (fun v => (s.copyPage k x.ctx true v).isNone) then .refuse 6
    else match (List.range 4).findSome? (fun die => ((s.pkg k).engineFor die).map (fun e => (die, e))) with
      | none => .wait
      | some g =>
        let id := s.nextId
        let frames := fun (l : List W64) (w : Bool) => l.filterMap (fun v => (s.copyPage k x.ctx w v).map (fun key => key / 2 ^ 16 * 2 ^ 16))
        let c : CmdRec := { CmdRec.blank with
          id := id, core := g.1 * 256, ctx := x.ctx, engine := g.2, cmd := .copy .g .g false src dst len 0, total := len
          srcs := frames a false, dsts := frames d true, graph := some (n, i) }
        .go ({ s with nextId := id + 1 }.modPkg k (fun p => { p with cmds := p.cmds ++ [c] })) id
/-- A collective node: the eight words of R232. -/
def State.startColl (s : State) (k : Nat) (x : Launch) (r : NodeRec) : NodeGo :=
  let w := fun (i : Nat) => field r.bytes (16 + 4 * i) 4
  let slot := nbits (w 0) 7 0
  let run := { CollRun.init with born := s.nextId, ctx := x.ctx, base0 := r.word 24, base1 := r.word 32, base2 := r.word 40 }
  if nbits (w 0) 31 8 ≠ 0 ∨ w 1 ≠ 0 then .refuse 5
  else match flook (s.pkg k).coll.plans slot with
    | none => .refuse 5
    | some pl =>
      if pl.stg ∧ r.word 40 = 0 then .refuse 5
      else if (s.collFault k 1024 x.ctx true pl run).isSome then .refuse 6
      else if !(s.pkg k).runRoom slot then .wait
      else
        let q := (s.pkg k).issueRun slot { run with pages := s.collPages k x.ctx pl run }
        .go (s.setPkg k q.2) q.1.toNat
/-- An event signal: as `evt.sig`, at once. -/
def State.startSig (s : State) (k : Nat) (x : Launch) (r : NodeRec) : NodeGo :=
  if (r.word 16).toNat % 8 ≠ 0 then .refuse 5
  else match s.wordKey k x.ctx (r.word 16) true with
    | .inl _ => .refuse 6
    | .inr key => .go (s.addEvent key (r.word 24)) 0
def State.startWord (s : State) (k : Nat) (x : Launch) (r : NodeRec) : NodeGo :=
  if (r.word 16).toNat % 8 ≠ 0 then .refuse 5
  else match s.wordKey k x.ctx (r.word 16) false with
    | .inl _ => .refuse 6
    | .inr _ => .go s 0
def State.startNode (s : State) (k n i : Nat) (x : Launch) (r : NodeRec) : NodeGo × State :=
  if r.bad x.gcount then (.refuse 5, s)
  else match r.kind with
    | 0 => s.startGrid k n i x r
    | 1 => (s.startCopy k n i x r, s)
    | 2 => (s.startColl k x r, s)
    | 3 => (s.startWord k x r, s)
    | 4 => (s.startSig k x r, s)
    | 5 => (s.startWord k x r, s)
    | 6 => (s.startWord k x r, s)
    | _ => (.go s 0, s)
/-- A graph that a caller walks. -/
def Launch.walking (x : Launch) : Bool := x.rcd.graph && x.caller.isSome && x.st == .held
def execGraphNodeStart (k n i : Nat) (s : State) : Out :=
  let x := s.launch k n
  if !x.walking || (x.gnode i).st != .ready then .next s
  else match s.node? k x i with
    | none => .next (s.refuseTaken k n 6)
    | some r =>
      match s.startNode k n i x r with
      | (.refuse c, s1) => .next (s1.refuseTaken k n c)
      | (.wait, _) => .next s
      | (.go s1 sub, _) => .next (s1.modPkg k (fun p => p.modLaunch n (fun x => x.modNode i (fun g => { g with st := .running, sub := sub }))))

/-! ### A node that is done -/

/-- Whether a running node is done; a word that can no longer be read stops the context. -/
inductive NodeEnd
  | no
  | yes (taken : Nat)
  | fault (c : Cause) (va : W64)
  deriving DecidableEq, Repr
def State.nodeEnd (s : State) (k : Nat) (x : Launch) (i : Nat) (r : NodeRec) : NodeEnd :=
  let sub := (x.gnode i).sub
  let word := fun (f : Nat → NodeEnd) => match s.wordKey k x.ctx (r.word 16) false with
    | .inl c => NodeEnd.fault c (r.word 16)
    | .inr key => f (leNat (s.load key 8))
  match r.kind with
  | 0 => if (flook (s.pkg k).sched.launches sub).isNone then .yes 0 else .no
  | 1 => if ((s.pkg k).cmd? sub).isNone then .yes 0 else .no
  | 2 => match (s.pkg k).run? sub with
    | some c => if c.done then .yes 0 else .no
    | none => .yes 0
  | 3 => word (fun v => if (r.word 24).toNat ≤ v then .yes 0 else .no)
  | 5 => word (fun v => .yes (if v = 0 then 1 else 0))
  | 6 => word (fun v => .yes (if v = 0 then 1 else 0))
  | _ => .yes 0
/-- A node receives an arrival: a while node tests again when it comes from its body. -/
def Launch.arrive (x : Launch) (j : Nat) (fromBody : Bool) : Launch :=
  x.modNode j (fun g =>
    if fromBody then { g with st := .ready, body := true }
    else { g with count := g.count - 1, st := if g.count = 1 then .ready else g.st, body := false })
def execGraphNodeDone (k n i : Nat) (s : State) : Out :=
  let x := s.launch k n
  if !x.walking || (x.gnode i).st != .running then .next s
  else match s.node? k x i with
    | none => .next (s.refuseTaken k n 6)
    | some r =>
      match s.nodeEnd k x i r with
      | .no => .next s
      | .fault c va => .next (stopContext s k x.ctx c 0 0 va)
      | .yes side =>
        let chosen := if r.kind = 5 ∨ r.kind = 6 then (r.next.drop side).take 1 else r.next
        let x1 := x.modNode i (fun g => { g with st := .idle })
        let x2 := if r.kind = 6 ∧ side = 0 then
            (s.bodyOf k x i).foldl (fun (x : Launch) j => x.modNode j (fun g => { g with count := s.npred k x j })) x1
          else x1
        let isWhile := fun (j : Nat) => match s.node? k x j with | some y => y.kind == 6 | none => false
        let x3 := chosen.foldl (fun (x : Launch) j => x.arrive j (isWhile j && (s.bodyOf k x j).contains i)) x2
        .next ((s.modPkg k (fun p => p.modLaunch n (fun _ => x3))).graphOver k n)

end Sys2Proof.Machine
end

