-- ==== Sys2Proof/Machine/Trap.lean ====
section
/-! DEFINITION. From a stop to its handler and back (R172, R240, R306, R311 to R315, R321): `sysc`, the entry of a handler,
PREEMPT, `tret`. -/

namespace Sys2Proof.Machine

/-! ### The way into a handler (R306, R311, R312) -/

/-- Whether a stopped wave still owes results that must be written before its handler starts (R306). -/
def Lane.owesLocal (l : Lane) : Bool := l.pend.any (fun e => !e.remote && !e.got)
def Wave.owesLocal (v : Wave) : Bool := (List.range 32).any (fun l => (v.lane l).owesLocal)
/-- The lowest stopped lane, whose cause chooses the handler. -/
def Wave.stopLane (v : Wave) : Lane := v.lane ((lanesOf v.trapLanes).headD 0)
def Lane.causeCode (l : Lane) : Nat := nbits l.trapCause.toNat 7 0
/-- Whether the wave's stop is an eviction. -/
def Wave.forPreempt (v : Wave) : Bool := v.stopped && v.stopLane.causeCode == Cause.preempt.code.toNat
/-- A page that a handler may lie on. -/
def State.sysCode (s : State) (k core : Nat) (ctx : W32) (va : W64) : Bool :=
  match s.lookup k core ctx va with
  | none => false
  | some e => pteState e.leaf ≥ 2 && pteSys e.leaf && pteX e.leaf
/-- The handler of a stop other than an eviction: the troupe's where system software has mapped it, or the context's. -/
def State.handlerOf (s : State) (w : Nat) : W64 :=
  let t := s.troupe (s.wave w).tid
  if t.traphnd ≠ 0 ∧ s.sysCode t.pkg t.core t.ctx t.traphnd then t.traphnd
  else match flook (s.pkg t.pkg).ctxs t.ctx.toNat with
    | some c => c.sysh
    | none => 0
/-- Every live lane enters a handler, its local results written and its stop held aside. -/
def Wave.enter (v : Wave) (a : W64) : Wave :=
  { (v.upd (lanesOf v.live) (fun _ l => { (l.land Pend.isLocal) with st := .run, pc := a, waiting := false })) with
    stopped := false
    sys := true
    handler := true }
/-- A cause from its code, for the record of a context that stops (R308). -/
def causeOf (n : Nat) : Cause :=
  ([Cause.page, .prot, .align, .wpdup, .own, .detrange, .illegal, .priv, .stallchk, .orphan, .regdead, .brk, .trap, .preempt,
    .tokexpire, .eccu, .rpdiv].find? (fun c => c.code.toNat == n)).getD .none
def execHandlerEntry (w : Nat) (s : State) : Out :=
  let v := s.wave w
  let t := s.troupe v.tid
  if !v.stopped || v.ended || v.forPreempt || v.owesLocal then .next s
  else
    let a := s.handlerOf w
    let l := v.stopLane
    if a = 0 then .next (stopContext s t.pkg t.ctx (causeOf l.causeCode) (BitVec.ofNat 8 (nbits l.trapCause.toNat 15 8)) l.trapPc l.trapVa)
    else .next (s.setWave w (v.enter a))

/-! ### PREEMPT (R306, R315, R327) -/

/-- A wave takes PREEMPT: every live lane records it where it stands. One in a handler, suspended, or stopped for another
cause takes it after its `tret`. -/
def State.takePreempt (s : State) (w : Nat) : State :=
  let v := s.wave w
  if v.ended || v.parked || v.saving || v.forPreempt || v.live == 0 then s
  else if v.sys || v.handler || v.susp || v.stopped then s.setWave w { v with preempt := true }
  else takeStop s w ((lanesOf v.live).map (fun l => ⟨l, .preempt, 0, 0, 0, false, 0, 0⟩))

/-! ### `sysc` (R240) -/

def execSysc (m : Mods) (n : Reg) (s : State) : Out :=
  .next (if s.curWave.sys then refuse s m .state else trapAll s m .trap (0x100#16 + n.setWidth 16))

/-! ### `tret` (R172, R312, R321) -/

/-- A lane returns to the state it held before the stop, or to the PC that the handler has written. -/
def Lane.returned (l : Lane) : Lane :=
  let l1 := { l with waiting := false, movedPc := false, readyAt := 0 }
  if l.st = .exit then l
  else if l.movedPc then { l1 with st := .run, pc := l.trapPc, prior := .run }
  else if l.prior = .run then { l1 with st := .run, pc := l.resume }
  else { l1 with st := l.prior, pc := l.resume, nextPc := l.heldNext, prior := .run }
/-- A steer slot as the save area holds it. -/
def State.slotWord (s : State) (w l i off n : Nat) : Nat :=
  let t := s.troupe (s.wave w).tid
  s.devRead t.pkg t.ctx (s.blockVa w + BitVec.ofNat 64 (steerOff l i + off)) n
/-- One slot at the restore's return: an arrived reply goes to its registers over what stands there; one on its way has its
tag steered to them (R321). -/
def State.unsteer (s : State) (w l : Nat) (x : Lane) (i : Nat) : Lane :=
  let h := s.slotWord w l i 0 4
  let old := x.steer.getD i ⟨false, false, 0, 0, 0, 0⟩
  let ds := dstRegs (BitVec.ofNat 7 (nbits h 6 0)) (2 ^ min 2 (nbits h 9 8))
  let x1 := { x with pend := x.pend.filter (fun e => !ds.contains e.dst) }
  if nbits h 30 30 = 1 then
    (ds.zip (words128 (BitVec.ofNat 128 (s.slotWord w l i 8 16)))).foldl (fun (y : Lane) (d : Dst × W32) => y.write d.1 d.2) x1
  else if nbits h 31 31 = 1 && old.pend then x1.owe true old.tag ds
  else x
def State.unsteerAll (s : State) (w : Nat) : State :=
  s.updLanes w (lanesOf (s.wave w).live) (fun n l =>
    { (((List.range 8).foldl (fun (x : Lane) i => s.unsteer w n x i) l)) with steer := [] })
/-- The return of every lane, whatever its handler path waits for, and the checks of R25 and R167. -/
def State.trapReturn (s : State) (w : Nat) : State :=
  let s1 := if (s.wave w).resting || (s.wave w).saving then s.unsteerAll w else s
  let s2 := s1.modWave w (fun v =>
    { (v.upd (List.range 32) (fun _ l => l.returned)) with waits := [], sys := false, handler := false, resting := false, saving := false }.releaseAll)
  let v := s2.wave w
  let s3 := if v.part || v.lanesWhere (fun l => l.st == .barT) != 0 then s2
    else s2.modTroupe v.tid (fun t => { t with waitmask := setBit16 t.waitmask v.wix false })
  (s3.checkTbar v.tid).checkCbar (s3.troupe v.tid).corps
/-- What waited for the return: remote loads that faulted meanwhile, then an eviction (R315, R327, R366). -/
def State.afterReturn (s : State) (w : Nat) : State :=
  let v := s.wave w
  let recs := v.late.filter (fun r => (v.lane r.lane).st != .exit)
  let s1 := s.setWave w { v with late := [] }
  if !recs.isEmpty then takeStop s1 w recs
  else if v.preempt then (s1.modWave w (fun v => { v with preempt := false })).takePreempt w
  else settle s1 w
def execTret (m : Mods) (s : State) : Out :=
  let w := s.cur.wid
  if !s.someActive m then .next (finish s [])
  else if !s.curWave.sys then .next (refuseWith s m .priv 0 0)
  else if !s.curWave.handler then .next (refuse s m .state)
  else
    let s1 := s.trapReturn w
    .next ((finish { s1 with cur := { s1.cur with moved := s.cur.path ||| s.cur.lanes } } []).afterReturn w)

end Sys2Proof.Machine
end

