-- ==== Sys2Proof/Machine/Preempt.lean ====
section
/-! DEFINITION. Pre-emption (R315, R316): its deadlines, the save area as the device writes it (R317 to R322), `ctx.park`
(R173, R409), the restore of a troupe (R323), placement as a caller makes it (R297, R316). -/

namespace Sys2Proof.Machine

/-! ### The deadlines (R315) -/

/-- Stage 3: the context stops, and its requests with it; the end of each is reported. -/
def State.forceStop (s : State) (k : Nat) (ctx : W32) : State :=
  let f := s.firstLane k ctx
  let n := ((s.pkg k).requests ctx).filter (fun r => r.stage != .over_)
  (stopContext s k ctx .preempt 0 f.1 f.2).modPkg k (fun p => n.foldl (fun p _ => preemptEvent p ctx true) p)
/-- Whether a troupe can be saved (R311, R315). -/
def State.saveable (s : State) (t : Troupe) : Bool :=
  t.savearea != 0 &&
  (match flook (s.pkg t.pkg).ctxs t.ctx.toNat with
   | some c => c.saveh != 0 && c.resth != 0
   | none => false)
/-- The troupes that an eviction reaches: those of the context on the clusters, each with its whole corps. -/
def State.evictees (s : State) (k : Nat) (ctx : W32) (mask : BitVec 4) : List Nat :=
  let here := (s.onClusters k ctx mask).map (fun (e : Nat × Troupe) => e.1)
  let whole := (here.map (fun n => (s.corpsRec (s.troupe n).corps).troupes)).flatten
  (here ++ whole.filter (fun n => (s.troupe n).st.onCore)).dedup
/-- The first request whose deadline has come. -/
def Pkg.dueRequest (p : Pkg) (ctx : W32) (st : PreStage) (at_ : Preempt → Nat) : Option (Nat × Preempt) :=
  ((p.requests ctx).zipIdx.find? (fun e => e.1.stage == st && decide (at_ e.1 ≤ p.now))).map (fun e => (e.2, e.1))
def execDrainDeadline (k : Nat) (x : W32) (s : State) : Out :=
  match (s.pkg k).dueRequest x .drain (fun r => r.drainAt) with
  | none => .next s
  | some (i, r) =>
    let ts := s.evictees k x (r.mask &&& ~~~ r.openMask)
    if ts.any (fun n => (s.troupe n).st == .resident && !s.saveable (s.troupe n)) then .next (s.forceStop k x)
    else
      let s1 := s.modPkg k (fun p => p.setRequests x
        ((p.requests x).set i { r with stage := .evict, troupes := ts, evictAt := (s.pkg k).now + r.evictNs }))
      let ws := (s1.waves.filter (fun (e : Nat × Wave) => ts.contains e.2.tid)).map (fun (e : Nat × Wave) => e.1)
      .next ((ws.foldl (fun s w => s.takePreempt w) s1).preemptCheck k x)
def execEvictionDeadline (k : Nat) (x : W32) (s : State) : Out :=
  match (s.pkg k).dueRequest x .evict (fun r => r.evictAt) with
  | none => .next s
  | some _ => .next (s.forceStop k x)

/-! ### The save area as the device writes it (R317 to R321) -/

/-- Write a range through the context's tables, page by page. -/
def State.devWrite (s : State) (k : Nat) (ctx : W32) (va : W64) (bs : List Byte) : State :=
  (stepsOf 4096 va bs.length).foldl (fun s a =>
    s.devStore k ctx a ((bs.drop (a.toNat - va.toNat)).take (4096 - a.toNat % 4096))) s
/-- The first page of a save area's device region that cannot be read or written, with its cause. -/
def State.areaBad (s : State) (t : Troupe) (write : Bool) : Option (Cause × W64) :=
  (stepsOf (2 ^ 16) t.savearea (0x1000 + 0x8000 * t.hdr.blocks)).findSome? (fun a =>
    match s.wordKey t.pkg t.ctx (a &&& ~~~ 7#64) write with
    | .inl c => some (c, a)
    | .inr _ => none)
/-- The troupe header image (R318). -/
def State.troupeImage (s : State) (t : Troupe) : List Byte :=
  let c := s.corpsRec t.corps
  leBytes 4 (t.hdr.waves * 2 ^ 22 + t.phase.toNat * 2 ^ 21 + t.arvcnt * 2 ^ 16 + t.waitmask.toNat) ++
  leBytes 4 (c.carr * 2 ^ 10 + c.clive * 2 + c.cphase.toNat) ++ leBytes 8 t.savearea.toNat ++ leBytes 8 t.traphnd.toNat ++
  leBytes 8 t.tidx ++ leBytes 32 0
/-- The wave header (R319). -/
def Wave.image (v : Wave) : List Byte :=
  if v.ended then leBytes 256 0
  else
    leBytes 4 (2 ^ 31 + v.part.toNat * 2 ^ 30 + v.tarv.toNat * 2 ^ 29 + v.carv.toNat * 2 ^ 28 + v.wix * 2 ^ 24 + v.allot * 2 ^ 8 +
      v.wctl.toNat % 16) ++
    leBytes 4 v.fseq.toNat ++ leBytes 4 v.live.toNat ++ leBytes 4 0 ++
    leBytes 16 (((List.range 32).map (fun l => (v.q l).length * 16 ^ l)).sum) ++ leBytes 224 0
/-- PSTATE and PSET of a lane (R320). -/
def Lane.pstate (l : Lane) : Nat :=
  if l.st = .exit then 4 * 2 ^ 29
  else match l.prior with
    | .join n => 1 * 2 ^ 29 + n.toNat * 2 ^ 25
    | .barT => 2 * 2 ^ 29
    | .barC => 3 * 2 ^ 29
    | _ => 0
/-- The lane record (R320). -/
def Lane.image (l : Lane) : List Byte :=
  let e := l.st = .exit
  leBytes 8 (if e then 0 else l.trapPc.toNat) ++ leBytes 8 (if e then 0 else l.trapVa.toNat) ++
  leBytes 4 (if e then 0 else l.trapCause.toNat) ++ leBytes 4 (l.pstate + if e then 0 else l.memb.toNat) ++
  leBytes 4 l.lflags.toNat ++ leBytes 4 0
/-- The loads owed by remote operations move to steer slots, in ascending order of first destination (R321). -/
def Lane.steerOut (l : Lane) : Lane :=
  let owed := l.pend.filter (fun (e : Pend) => e.remote && !e.got)
  let slots : List Steer := ((owed.map (fun (e : Pend) => e.tag)).dedup).map (fun tag =>
    let rs := l.owedTo tag
    let first := (rs.filterMap (fun d => match d with | .g r => some r.toNat | .p _ => none)).foldl min 127
    ⟨true, false, (if rs.length = 1 then 0 else if rs.length = 2 then 1 else 2), BitVec.ofNat 7 first, 0, tag⟩)
  { l with
    pend := l.pend.filter (fun (e : Pend) => !(e.remote && !e.got))
    steer := (sortBy (fun (x : Steer) => x.reg.toNat) slots).take 8 }
def Lane.steerImage (l : Lane) : List Byte := ((List.range 8).map (fun i => ((l.steer[i]?).map Steer.bytes).getD (leBytes 32 0))).flatten
/-- The device's part of a wave's block: header, lane records, steer slots, the zeros after them (R317). -/
def Wave.blockImage (v : Wave) : List Byte :=
  v.image ++ ((List.range 32).map (fun l => (v.lane l).image)).flatten ++ ((List.range 32).map (fun l => (v.lane l).steerImage)).flatten ++
  leBytes 2816 0
/-- The registers g0 to g3 of live lanes, and the queue windows (R317, R322). -/
def State.putRegs (s : State) (w : Nat) : State :=
  let v := s.wave w
  let t := s.troupe v.tid
  let put := fun (s : State) (off : Nat) (x : W32) => s.devWrite t.pkg t.ctx (s.blockVa w + BitVec.ofNat 64 off) (leBytes 4 x.toNat)
  let s1 := (lanesOf v.live).foldl (fun s l => (List.range 4).foldl (fun s r => put s (0x3000 + 128 * r + 4 * l) ((v.lane l).reg r)) s) s
  (List.range 32).foldl (fun s l => (v.q l).zipIdx.foldl (fun s e => put s (0x6C00 + 128 * e.2 + 4 * l) e.1) s) s1
/-- One wave is saved and enters SAVEH (R322). -/
def State.saveWave (s : State) (w : Nat) (saveh : W64) : State :=
  let v0 := s.wave w
  let t := s.troupe v0.tid
  let v := v0.upd (lanesOf v0.live) (fun _ l => (l.land Pend.isLocal).steerOut)
  let s1 := s.setWave w v
  let blk := s1.blockVa w
  let s2 := (s1.devWrite t.pkg t.ctx blk v.blockImage).putRegs w
  s2.setWave w { ((v.enter saveh).upd (lanesOf v.live) (fun _ l => (l.write (.g 0) (lo32 blk)).write (.g 1) (hi32 blk))) with
    saving := true }
/-- The header image and its reserved space. -/
def State.putHeader (s : State) (tid : Nat) : State :=
  let t := s.troupe tid
  s.devWrite t.pkg t.ctx t.savearea (s.troupeImage t ++ leBytes 4032 0)
/-- The waves of a troupe. -/
def State.wavesOf (s : State) (tid : Nat) : List (Nat × Wave) := s.waves.filter (fun (e : Nat × Wave) => e.2.tid == tid)
def execPreemptSaveImage (tid : Nat) (s : State) : Out :=
  let t := s.troupe tid
  let ws := (s.wavesOf tid).filter (fun (e : Nat × Wave) => e.2.forPreempt && !e.2.ended && !e.2.owesLocal)
  if ws.isEmpty || t.st != .resident then .next s
  else if !s.saveable t then .next (s.forceStop t.pkg t.ctx)
  else match s.areaBad t true with
    | some f => .next (stopContext s t.pkg t.ctx f.1 0 0 f.2)
    | none =>
      let saveh := match flook (s.pkg t.pkg).ctxs t.ctx.toNat with | some c => c.saveh | none => 0
      .next (ws.foldl (fun s e => s.saveWave e.1 saveh) (s.putHeader tid))

/-! ### `ctx.park` and leaving the core (R173, R316, R409) -/

def execCtxPark (m : Mods) (s : State) : Out :=
  .next (if !s.someActive m then finish s []
    else if !s.curWave.sys then refuseWith s m .priv 0 0
    else if !s.curWave.saving then refuse s m .state
    else if !s.wholeWave then refuse s m .partial_
    else (finish s []).modWave s.cur.wid (fun v => { v with parked := true }))
/-- A barrier that completed after a wave was saved: what its image says of parked lanes follows (R312). -/
def State.amendWave (s : State) (w : Nat) : State :=
  let v := s.wave w
  let t := s.troupe v.tid
  let at_ := fun (n : Nat) => s.blockVa w + BitVec.ofNat 64 n
  if v.ended then s.devWrite t.pkg t.ctx (at_ 0) v.image
  else
    let h := s.devRead t.pkg t.ctx (at_ 0) 4
    let h1 := h - nbits h 29 28 * 2 ^ 28 + v.tarv.toNat * 2 ^ 29 + v.carv.toNat * 2 ^ 28
    let s1 := s.devWrite t.pkg t.ctx (at_ 0) (leBytes 4 h1)
    (List.range 32).foldl (fun s l =>
      let x := v.lane l
      let o := 0x100 + 32 * l
      let ps := nbits (s.devRead t.pkg t.ctx (at_ (o + 20)) 4) 31 29
      if (ps = 2 ∨ ps = 3) ∧ x.prior = .run ∧ x.st ≠ .exit then
        (s.devWrite t.pkg t.ctx (at_ o) (leBytes 8 x.trapPc.toNat)).devWrite t.pkg t.ctx (at_ (o + 20)) (leBytes 4 (x.pstate + x.memb.toNat))
      else s) s1
/-- The images of a corps as its last troupe leaves it (R318: one corps record). -/
def State.amendCorps (s : State) (c : Nat) : State :=
  (s.corpsRec c).troupes.foldl (fun s tid =>
    if (s.troupe tid).st = .saved then ((s.wavesOf tid).foldl (fun s e => s.amendWave e.1) s).putHeader tid else s) s
/-- Whether every wave of a troupe has parked, or ended, and nothing it issued is at work. -/
def State.mayLeave (s : State) (tid : Nat) : Bool :=
  let t := s.troupe tid
  let ws := s.wavesOf tid
  t.st == .resident && ws.any (fun (e : Nat × Wave) => e.2.parked) && ws.all (fun (e : Nat × Wave) => e.2.parked || e.2.ended) &&
  s.quietTroupe tid && (s.detEntries tid).length ≤ (s.launch t.pkg t.launch).defRoom
def execTroupeLeavesCore (tid : Nat) (s : State) : Out :=
  let t := s.troupe tid
  if !s.mayLeave tid then .next s
  else
    let es := (s.detEntries tid).map (fun (e : DetEntry) => { e with held := true })
    let s1 := s.modCore t.pkg t.core (fun c => { c with detBuf := c.detBuf.filter (fun e => e.tid != tid) })
    let s2 := s1.modTroupe tid (fun t => { t with st := .saved, remote := (s.pkg t.pkg).outstanding })
    let s3 := s2.modPkg t.pkg (fun p => p.modLaunch t.launch (fun x => { x with
      saved := x.saved ++ [tid]
      deferred := x.deferred ++ es }))
    .next (((s3.amendCorps t.corps).preemptCheck t.pkg t.ctx).grant t.pkg t.core)

/-! ### The restore (R316, R323) -/

/-- A lane as its record gives it, at the start of RESTH; what the device itself keeps of it is its counters, its steer
slots' tags and where a park goes on. -/
def Lane.restored (old : Lane) (rc : List Byte) (blk resth : W64) : Lane :=
  let w := field rc 20 4
  let flags := BitVec.ofNat 5 (field rc 24 4)
  let ps := nbits w 31 29
  if ps = 4 then { Lane.init with st := .exit, prior := .exit, lflags := flags }
  else
    let pc := BitVec.ofNat 64 (field rc 0 8) &&& ~~~ 1#64
    { Lane.init with
      pc := resth
      prior := if ps = 1 then .join (BitVec.ofNat 4 (nbits w 28 25)) else if ps = 2 then .barT else if ps = 3 then .barC else .run
      trapPc := pc
      resume := pc
      heldNext := old.heldNext
      trapVa := BitVec.ofNat 64 (field rc 8 8)
      trapCause := BitVec.ofNat 32 (field rc 16 4)
      memb := BitVec.ofNat 2 w
      lflags := flags
      g := fset 0 (fset 0 [] 0 (lo32 blk)) 1 (hi32 blk)
      steer := old.steer
      lseq := old.lseq
      rseq := old.rseq }
/-- A wave rebuilt from its block on a quad. -/
def State.restoreWave (s : State) (w quad : Nat) (resth : W64) : Wave :=
  let old := s.wave w
  let t := s.troupe old.tid
  let blk := s.blockVa w
  let rd := fun (off n : Nat) => (s.devFetch t.pkg t.ctx (blk + BitVec.ofNat 64 off) n).getD []
  let h := rd 0 0x500
  let w0 := field h 0 4
  if nbits w0 31 31 = 0 then { old with ended := true, parked := false, saving := false, sys := false, handler := false }
  else
    let lanes := (List.range 32).map (fun l => (l, (old.lane l).restored ((h.drop (0x100 + 32 * l)).take 32) blk resth))
    let qs := rd 0x6C00 0x400
    let queue := (List.range 32).filterMap (fun l =>
      let n := min 8 (nbits (field h 16 16) (4 * l + 3) (4 * l))
      if n = 0 then none else some (l, (List.range n).map (fun i => BitVec.ofNat 32 (field qs (128 * i + 4 * l) 4))))
    { old with
      lanes := lanes
      allot := nbits w0 15 8
      rm := BitVec.ofNat 3 (nbits w0 3 1)
      chk := nbits w0 0 0 == 1
      sets := []
      tarv := nbits w0 29 29 == 1
      carv := nbits w0 28 28 == 1
      trapLanes := maskOf ((lanes.filter (fun (e : Nat × Lane) => e.2.st != .exit && e.2.causeCode != 0)).map (fun (e : Nat × Lane) => e.1))
      sys := true
      handler := true
      resting := true
      saving := false
      susp := false
      parked := false
      stopped := false
      preempt := false
      fseq := BitVec.ofNat 24 (field h 4 4)
      queue := queue
      waits := []
      quad := quad
      yield := none
      relHold := [] }
/-- V and ALLOT of a wave's block. -/
def State.blockAllot (s : State) (w : Nat) : Option Nat :=
  let t := s.troupe (s.wave w).tid
  let h := s.devRead t.pkg t.ctx (s.blockVa w) 4
  if nbits h 31 31 = 0 then none else some (nbits h 15 8)
/-- What a saved troupe asks of a core (R316), and the compute waves that it brings. -/
def State.savedWaves (s : State) (tid : Nat) : List Nat :=
  let t := s.troupe tid
  ((List.range t.hdr.waves).map (fun i => widOf tid i false)).filter (fun w =>
    (s.blockAllot w).isSome || (t.hdr.pentry != 0 && (s.blockAllot (partnerOf w)).isSome))
def State.savedNeed (s : State) (tid : Nat) : Need :=
  let t := s.troupe tid
  let p := t.hdr.pentry != 0
  let ws := s.savedWaves tid
  let gran := fun (w : Nat) (q : Bool) => match s.blockAllot w with | some a => a / 8 + 1 + (if q then 1 else 0) | none => 0
  ⟨(ws.map (fun w => gran w p + if p then gran (partnerOf w) false else 0)).sum,
   ws.map (fun w => (if (s.blockAllot w).isSome then 1 else 0) + (if p && (s.blockAllot (partnerOf w)).isSome then 1 else 0)), t.hdr⟩
/-- A saved troupe is rebuilt on a core. -/
def State.restoreTroupe (s : State) (tid clus : Nat) (place : Nat × List Nat) (bank : List W32) (dict : Option (List W32)) (resth : W64) : State :=
  let t0 := s.troupe tid
  let bs := (s.devFetch t0.pkg t0.ctx t0.savearea 64).getD []
  let w0 := field bs 0 4
  let w1 := field bs 4 4
  let ws := s.savedWaves tid
  let s0 := { s with fresh := s.fresh + 1 }
  let s1 := s0.modTroupe tid (fun t => { t with
    st := .resident
    core := place.1
    kbank := bank
    dict := dict
    arvcnt := nbits w0 20 16
    waitmask := BitVec.ofNat 16 w0
    phase := nbits w0 21 21 == 1
    savearea := BitVec.ofNat 64 (field bs 8 8)
    traphnd := BitVec.ofNat 64 (field bs 16 8)
    tidx := nbits (field bs 24 8) 39 0
    tiles := s.freeTiles t.pkg place.1 t.hdr.scratch
    accs := List.range t.hdr.acc
    windows := []
    perms := []
    salt := Config.entropy s.fresh
    remote := [] })
  let s2 := s1.modCorps t0.corps (fun c => { c with clus := clus, carr := nbits w1 18 10, clive := nbits w1 9 1, cphase := nbits w1 0 0 == 1 })
  let vs := ((ws.zip place.2).map (fun (e : Nat × Nat) =>
    (e.1, s0.restoreWave e.1 e.2 resth) ::
    (if t0.hdr.pentry = 0 then [] else [(partnerOf e.1, s0.restoreWave (partnerOf e.1) e.2 resth)]))).flatten
  let s3 := (seat (s0.seats t0.pkg place.1) vs).foldl (fun (s : State) (e : Nat × Wave) => s.setWave e.1 e.2) s2
  let k := t0.pkg
  let held := (s3.launch k t0.launch).deferred.filter (fun (e : DetEntry) => e.tid == tid && e.held)
  let s4 := s3.modPkg k (fun p => p.modLaunch t0.launch (fun x => { x with
    saved := x.saved.filter (fun n => n != tid)
    deferred := x.deferred.filter (fun (e : DetEntry) => !(e.tid == tid && e.held)) }))
  (s4.modCore k place.1 (fun c => { c with
    detBuf := c.detBuf ++ held.map (fun (e : DetEntry) => { e with held := false }) })).claim k place.1 tid
/-- The saved corps that a launch's caller places next: all of it has left, and what it sent has landed. -/
def State.nextSaved (s : State) (k : Nat) (x : Launch) : Option (Nat × List Nat) :=
  match x.saved.head? with
  | none => none
  | some t0 =>
    let c := (s.troupe t0).corps
    let ts := (s.corpsRec c).troupes
    let mine := x.saved.filter (fun t => ts.contains t)
    if ts.any (fun t => (s.troupe t).st == .resident) || mine.any (fun t => !(s.pkg k).landed (s.troupe t).remote) then none
    else some (c, sortBy (fun t => (s.troupe t).crk) mine)
/-- What the caller's attempt at a launch's saved troupes comes to, if it changes anything. -/
def State.tryRestore (s : State) (k n : Nat) : Option State :=
  match flook (s.pkg k).sched.launches n with
  | none => none
  | some x =>
    if !x.placing then none
    else match s.nextSaved k x with
      | none => none
      | some (_, ts) =>
        match ts.findSome? (fun t => s.areaBad (s.troupe t) false) with
        | some f => some (stopContext s k x.ctx f.1 0 0 f.2)
        | none =>
          match s.spot k n x x.waitSaved (ts.map s.savedNeed) with
          | .none_ => none
          | .wait c => some (s.makeWait k n c true)
          | .on clus cores =>
            let resth := match flook (s.pkg k).ctxs x.ctx.toNat with | some c => c.resth | none => 0
            if resth = 0 then some (stopContext s k x.ctx .preempt 0 (s.firstLane k x.ctx).1 (s.firstLane k x.ctx).2)
            else match s.bankWords k x.ctx x.rcd, s.dictWords k x.ctx x.hdr with
              | some b, some d =>
                let s1 := (ts.zip cores).foldl (fun s e => s.restoreTroupe e.1 clus e.2 b d resth) s
                some ((s1.placedOn k n (x.caller.getD 0) clus true).modPkg k (fun p => p.modLaunch n Launch.release))
              | none, _ => some (stopContext s k x.ctx .page 0 0 x.rcd.args)
              | _, none => some (stopContext s k x.ctx .page 0 0 x.hdr.dict)
/-- A caller places saved troupes before any others of its launch. -/
def State.tryPlace (s : State) (k n : Nat) : Option State :=
  if (s.launch k n).saved.isEmpty then s.tryCorps k n else s.tryRestore k n
/-- Whether a request of better standing (R297) can be served first. -/
def State.outranked (s : State) (k n : Nat) : Bool :=
  (s.pkg k).sched.launches.any (fun (e : Nat × Launch) =>
    e.1 != n && e.2.placing && e.2.rank < (s.launch k n).rank && (s.tryPlace k e.1).isSome)
def execCorpsPlacement (k n : Nat) (s : State) : Out :=
  .next (if s.outranked k n then s else (s.tryCorps k n).getD s)
def execRestorePlacement (k n : Nat) (s : State) : Out :=
  .next (if s.outranked k n then s else (s.tryRestore k n).getD s)

end Sys2Proof.Machine
end

