-- ==== Sys2Proof/Machine/Csr.lean ====
section
/-! DEFINITION. The control registers (R43 to R46, R235, R247, R357, R394, R395, R408): what each reads, what a write of each
does. -/

namespace Sys2Proof.Machine

def boolBit (b : Bool) (i : Nat) : Nat := if b then 2 ^ i else 0
/-- SCOPETAB of a core (R247). -/
def State.scopeTab (s : State) (k core : Nat) : W64 :=
  let p := s.pkg k
  let clus := ((List.range 4).map (fun c => boolBit (p.inService c != 0) c)).sum
  BitVec.ofNat 64 (p.podsize % 256 * 2 ^ 32 + p.pkgid % 128 * 2 ^ 25 + clus * 2 ^ 21 + clusterOf core % 4 * 2 ^ 19 +
    p.inService (clusterOf core) % 512 * 2 ^ 10 + core % 256)
/-- DETSTAT of a troupe (R408). -/
def State.detStat (s : State) (tid : Nat) : W32 :=
  let t := s.troupe tid
  let x := s.launch t.pkg t.launch
  let rngv := ((List.range 8).map (fun i => boolBit (match flook t.ranges i with | some r => r.len != 0 | none => false) i)).sum
  BitVec.ofNat 32 (boolBit t.hdr.det 31 + boolBit (t.hdr.rcd && x.logMode == 0) 30 + boolBit (t.hdr.rcd && x.logMode == 1) 29 +
    boolBit t.lock 28 + rngv * 2 ^ 20 + min 4096 (s.detEntries tid).length)
/-- REELSTAT (R394). -/
def ReelSt.code : ReelSt → Nat
  | .idle => 0
  | .wait => 1
  | .gather => 2
  | .run => 3
  | .handoff => 4
def Reel.ent (r : Reel) (i : Nat) : REnt :=
  fget ⟨false, false, 0, 0, 0, none, none, 0, 0, 0, 0, 0⟩ r.ents i
def Reel.stat (r : Reel) : W64 :=
  BitVec.ofNat 64 (boolBit (r.st != .idle) 63 + boolBit r.err 62 + boolBit r.govf 61 + r.st.code * 2 ^ 58 + r.cause % 8 * 2 ^ 55 +
    (r.ent r.cur).mb % 4096 * 2 ^ 43 + r.remain % 2048 * 2 ^ 32 + (r.stash.map (fun (e : Nat × Nat) => e.1)).length % 128 * 2 ^ 10 + r.cur % 1024)
/-- REELIDLE (R395): the counters hold cycles of the 2.0 GHz reference clock. -/
def Reel.idle (r : Reel) : W64 :=
  BitVec.ofNat 64 (r.idleStash / 1024 % 2 ^ 21 * 2 ^ 42 + r.idleRoom / 1024 % 2 ^ 21 * 2 ^ 21 + r.idleIn / 1024 % 2 ^ 21)

/-- What a control register reads in a lane of the issuing wave (R44). -/
def State.csrRead (s : State) (l n : Nat) : W64 :=
  let v := s.curWave
  let x := v.lane l
  let t := s.curTroupe
  let p := s.pkg t.pkg
  match n with
  | 0x000 => v.wctl.setWidth 64
  | 0x001 => x.lflags.setWidth 64
  | 0x002 => BitVec.ofNat 64 v.allot
  | 0x003 => v.trapLanes.setWidth 64
  | 0x008 => BitVec.ofNat 64 (nbits t.tidx 39 32)
  | 0x009 => BitVec.ofNat 64 t.hdr.corps
  | 0x00A => BitVec.ofNat 64 t.hdr.waves
  | 0x00B => BitVec.ofNat 64 (t.core % 1024)
  | 0x00C => BitVec.ofNat 64 p.pkgid
  | 0x00D => BitVec.ofNat 64 p.podsize
  | 0x010 => BitVec.ofNat 64 p.phys.cycles
  | 0x020 => x.trapCause.setWidth 64
  | 0x021 => x.trapVa
  | 0x022 => x.trapPc
  | 0x030 => BitVec.ofNat 64 (p.fctlNow.toNat % 2 ^ 31 + boolBit p.fab.csync 31)
  | 0x040 => p.fab.caltime
  | 0x041 => BitVec.ofNat 64 p.calSlot
  | 0x042 => BitVec.ofNat 64 p.calRound
  | 0x050 => s.scopeTab t.pkg t.core
  | 0x060 => if p.host.featDone then p.host.featAcc.setWidth 64 else 0
  | 0x061 => if p.host.featDone then p.host.featAcc.extractLsb' 64 64 else 0
  | 0x070 => p.reel.stat
  | 0x071 => p.reel.idle
  | 0x080 => (s.detStat s.curTid).setWidth 64
  | 0x100 => t.savearea
  | 0x101 => t.traphnd
  | _ => 0

/-- The writable bits of FCTL (R357). -/
def fctlMask : W32 := 0x60FFFFFF#32
/-- A write of a control register: of a lane's own copies, or once with the value of the lowest active lane (R43). -/
def State.csrWrite (s : State) (ls : List Nat) (n : Nat) (val : Nat → W64) : State :=
  let w := s.cur.wid
  let v := val (ls.headD 0)
  match n with
  | 0x000 => s.modWave w (fun x => x.setWctl (lo32 v))
  | 0x001 => s.updLanes w ls (fun l x => { x with lflags := (val l).setWidth 5 })
  | 0x003 => s.modWave w (fun x => { x with trapLanes := lo32 v })
  | 0x020 => s.updLanes w ls (fun l x => { x with trapCause := lo32 (val l) })
  | 0x021 => s.updLanes w ls (fun l x => { x with trapVa := val l })
  | 0x022 => s.updLanes w ls (fun l x => { x with trapPc := val l &&& ~~~ 1#64, movedPc := true })
  | 0x030 => s.modPkg s.curPkg (fun p => { p with fab := { p.fab with fctl := lo32 v &&& fctlMask } })
  | 0x100 => s.modTroupe s.curTid (fun t => { t with savearea := v })
  | 0x101 => s.modTroupe s.curTid (fun t => { t with traphnd := v })
  | _ => s
/-- Work of the wave that still owes flags (R46). -/
def MxWork.owesFlags (w : MxWork) (wid : Nat) : Bool :=
  match w with
  | .drain x _ _ _ _ _ _ _ _ _ => x == wid
  | _ => false
def State.flagsOwed (s : State) : Bool :=
  (s.core s.curPkg s.curTroupe.core).mxq.any (fun (x : MxItem) => x.work.owesFlags s.cur.wid)
/-- The registers that are written once for the wave, with the value of the lowest active lane (R43). -/
def csrPerWave (n : Nat) : Bool := [0x000, 0x003, 0x030, 0x100, 0x101].contains n
/-- The registers whose reads and writes wait for flags. -/
def csrFlags (n : Nat) : Bool := n == 0 || n == 1

/-- The checks of an access, in order: the register, its access, the mode, the value (R43, R45, R314). -/
def csrGo (i : Instr) (s : State) (m : Mods) (r : BitVec 12) (d : Reg) (wr : Bool) (go : State → State) : Out :=
  let n := r.toNat
  let e := (s.elected m).getD 0
  .next (if !s.someActive m then go s
    else match csrInfo n with
      | none => refuse s m .csrnum
      | some c =>
        if wr && !c.rw && !c.sw then refuse s m .csrnum
        else if wr && c.sw && !s.curWave.sys then refuseWith s m .priv 0 0
        else if wr && n == 0 && wctlBad (s.src s.cur.wid e d) then refuse s m .csrval
        else if csrFlags n && s.flagsOwed then waitAt s i
        else go s)
/-- The value that a lane writes. -/
def State.csrArg (s : State) (r : BitVec 12) (d : Reg) (l : Nat) : W64 :=
  if csrWords r = 2 then s.src64 s.cur.wid l d else (s.src s.cur.wid l d).setWidth 64
def csrOuts (r : BitVec 12) (d : Reg) (v : W64) : List (Dst × W32) := if csrWords r = 2 then outs64 d v else outs32 d (lo32 v)
/-- Each active lane receives what the register read before the instruction. -/
def sendCsr (s0 s : State) (m : Mods) (r : BitVec 12) (d : Reg) : State :=
  let id := s.nextId
  ({ s with nextId := id + 1 }).updLanes s.cur.wid (lanesOf s.cur.lanes) (fun n l =>
    if m.active l then l.send none id (csrOuts r d (s0.csrRead n r.toNat))
    else if m.zero then l.send none id (zeroOuts (dstRegs d (csrWords r)))
    else l)
def execCsrr (m : Mods) (r : BitVec 12) (d : Reg) (s : State) : Out :=
  csrGo (.csrr m r d) s m r d false (fun s => finish (sendCsr s s m r d) [])
def execCsrw (m : Mods) (r : BitVec 12) (d : Reg) (s : State) : Out :=
  csrGo (.csrw m r d) s m r d true (fun s =>
    finish (if s.someActive m then s.csrWrite (s.activeLanes m) r.toNat (s.csrArg r d) else s) [])
def execCsrx (m : Mods) (r : BitVec 12) (d : Reg) (s : State) : Out :=
  csrGo (.csrx m r d) s m r d true (fun s =>
    finish (if s.someActive m then sendCsr s (s.csrWrite (s.activeLanes m) r.toNat (s.csrArg r d)) m r d
      else sendCsr s s m r d) [])

end Sys2Proof.Machine
end

