-- ==== Sys2Proof/Machine/Reel.lean ====
section
/-! DEFINITION. The reel sequencer (R233, R389 to R393): `reel.go` and `reel.stat`, and the states that it goes through for each
entry. -/

namespace Sys2Proof.Machine

def Pkg.modReel (p : Pkg) (f : Reel → Reel) : Pkg := { p with reel := f p.reel }
def State.modReel (s : State) (k : Nat) (f : Reel → Reel) : State := s.modPkg k (fun p => p.modReel f)
def RingDesc.none : RingDesc := ⟨0, 0, 0, false, 0, 0, 0, true⟩
def Reel.ring (r : Reel) (i : Nat) : RingDesc := fget RingDesc.none r.rings i
/-- The sequencer stops with ERR (R392). -/
def Reel.fail (r : Reel) : Reel := { r with st := .idle, err := true, cause := 0 }

/-! ### `reel.go` and `reel.stat` (R233) -/

def Reel.start (r : Reel) (first count : Nat) : Reel :=
  { r with
    st := .wait
    err := false
    govf := false
    cause := 0
    cur := first
    first := first
    remain := count
    count := count
    gnum := 0
    retired := 0
    launch := none
    grun := none
    fresh := false
    cons := if r.fresh then [] else r.cons
    prod := if r.fresh then [] else r.prod
    stash := if r.fresh then [] else r.stash }
def execReelGo (m : Mods) (d a : Reg) (s : State) : Out :=
  match s.elected m with
  | none => .next (finish s [])
  | some e =>
    let b := s.block e a 2
    let k := s.curPkg
    let count := bf b 0 20 10
    let give := fun (s : State) (v : W32) => finish (sendAll s m .owed d 1 (outs32 d v)) []
    .next (if bf b 0 31 21 ≠ 0 ∨ bw b 1 ≠ 0 ∨ count = 0 ∨ 1024 < count then refuse s m .param
      else if (s.pkg k).reel.owner ≠ s.curCtx then refuse s m .state
      else if s.relWait .pkg then waitAt s (.reelGo m d a)
      else if (s.pkg k).reel.st ≠ .idle then give s 1
      else give (s.modReel k (fun r => r.start (bf b 0 9 0) count)) 0)
/-- The state of an entry since the last `reel.go`: 0 not reached, 1 waiting with its cause, 2 running, 3 retired. -/
def Reel.entStat (r : Reel) (i : Nat) : Nat :=
  let j := (i + 1024 - r.first) % 1024
  if r.count ≤ j then 0
  else if j < r.retired then 3
  else if j = r.retired ∧ (r.st ≠ .idle ∨ r.err) then (if r.st = .wait then 1 + 4 * (r.cause % 8) else 2)
  else 0
def execReelStat (m : Mods) (d a : Reg) (s : State) : Out :=
  match s.elected m with
  | none => .next (finish s [])
  | some e =>
    let b := s.block e a 1
    .next (if bf b 0 31 10 ≠ 0 then refuse s m .param
      else finish (sendAll s m .owed d 1 (outs32 d (BitVec.ofNat 32 ((s.pkg s.curPkg).reel.entStat (bf b 0 9 0))))) [])

/-! ### WAIT (R391) -/

/-- A ring field or descriptor with a reserved or mismatched value (R392). -/
def Reel.entBad (r : Reel) (e : REnt) : Bool :=
  r.cfgResv || e.resv || e.kind == 3 || e.lrec.toNat % 64 != 0 || e.argw.toNat % 8 != 0 ||
  (match e.inr with | some i => (r.ring i).resv || (r.ring i).dir | none => false) ||
  (match e.outr with | some i => (r.ring i).resv || !(r.ring i).dir | none => false) ||
  (e.stash != 0 && (r.stn == 0 || decide (64 < r.stn) || r.stsz % 2 ^ 16 != 0 || r.stbase.toNat % 2 ^ 16 != 0))
/-- A count that the sequencer reads: above what it has used, or the failure of the word. -/
def State.reelCount (s : State) (k : Nat) (va : W64) (used : Nat) : Cause ⊕ Bool :=
  match s.wordKey k (s.pkg k).reel.owner va false with
  | .inl c => .inl c
  | .inr key => .inr (used < leNat (s.load key 8))
def Reel.freeStash (r : Reel) : Option Nat := (List.range (min r.stn 64)).find? (fun i => (flook r.stash i).isNone)
def Reel.stashOf (r : Reel) (mb : Nat) : Option Nat := (r.stash.find? (fun (e : Nat × Nat) => e.2 == mb)).map (fun e => e.1)
/-- The first check that fails: 1 input, 2 room, 3 stash, 0 none. -/
def State.reelCause (s : State) (k : Nat) (e : REnt) : (Cause × W64) ⊕ Nat :=
  let r := (s.pkg k).reel
  let one := fun (va : W64) (used : Nat) => match s.reelCount k va used with
    | .inl c => (Sum.inl (c, va) : (Cause × W64) ⊕ Bool)
    | .inr b => .inr b
  let i := match e.inr with | some i => one (r.ring i).fillw (fget 0 r.cons i) | none => .inr true
  let o := match e.outr with | some i => one (r.ring i).mirw (fget 0 r.prod i) | none => .inr true
  match i, o with
  | .inl f, _ => .inl f
  | .inr false, _ => .inr 1
  | _, .inl f => .inl f
  | _, .inr false => .inr 2
  | _, _ => .inr (if e.stash = 1 ∧ r.freeStash.isNone then 3 else 0)
def execReelWait (k : Nat) (s : State) : Out :=
  let r := (s.pkg k).reel
  let e := r.ent r.cur
  .next (if r.st ≠ .wait then s
    else if r.entBad e then s.modReel k Reel.fail
    else match s.reelCause k e with
      | .inl f => stopContext s k r.owner f.1 0 0 f.2
      | .inr 0 => s.modReel k (fun r => { r with st := .gather, cause := 0 })
      | .inr c => s.modReel k (fun r => { r with cause := c }))

/-! ### GATHER -/

def RingDesc.slot (x : RingDesc) (n : Nat) : W64 := x.slotb + BitVec.ofNat 64 (x.slotsz * (n % x.nslot))
/-- The stash slot that an entry works with; none where it needs a recorded one and finds none. -/
def Reel.stashFor (r : Reel) (e : REnt) : Option (Option Nat) :=
  if e.stash = 0 then some none
  else if e.stash = 1 then r.freeStash.map some
  else (r.stashOf e.mb).map some
def Reel.gbuf (r : Reel) : W64 := if r.gnum % 2 = 0 then r.gbuf0 else r.gbuf1
/-- The argument words. -/
def Reel.argBytes (r : Reel) (e : REnt) (slot : Option Nat) : List Byte :=
  let i := match e.inr with | some i => (r.ring i).slot (fget 0 r.cons i) | none => 0
  let o := match e.outr with | some i => (r.ring i).slot (fget 0 r.prod i) | none => 0
  let t := match slot with | some n => r.stbase + BitVec.ofNat 64 (r.stsz * n) | none => 0
  leBytes 8 i.toNat ++ leBytes 8 o.toNat ++ leBytes 8 t.toNat ++ leBytes 8 (if e.gpv then r.gbuf.toNat else 0)
def execReelGather (k : Nat) (s : State) : Out :=
  let p := s.pkg k
  let r := p.reel
  let e := r.ent r.cur
  if r.st ≠ .gather then .next s
  else match r.grun with
    | some n =>
      .next (match p.coll.runs.find? (fun (x : CollRun) => x.seq.toNat == n) with
        | none => s.modReel k Reel.fail
        | some x =>
          if !x.done then s
          else if x.fail then s.modReel k Reel.fail
          else s.modReel k (fun r => { r with st := .run, grun := none, govf := r.govf || x.ovf || x.nv }))
    | none =>
      match r.stashFor e with
      | none => .next (s.modReel k Reel.fail)
      | some slot =>
        match s.wordKey k r.owner e.argw true, s.wordKey k r.owner (e.argw + 24) true with
        | .inl c, _ => .next (stopContext s k r.owner c 0 0 e.argw)
        | _, .inl c => .next (stopContext s k r.owner c 0 0 (e.argw + 24))
        | _, _ =>
          let write := fun (s : State) => (s.devWrite k r.owner e.argw (r.argBytes e slot)).modReel k (fun r => { r with
            stash := match slot with | some n => (if e.stash = 1 then fput r.stash n e.mb else r.stash) | none => r.stash })
          if !e.gpv then .next ((write s).modReel k (fun r => { r with st := .run }))
          else match flook p.coll.plans e.gplan with
            | none => .next (if p.coll.loading.contains e.gplan then s else s.modReel k Reel.fail)
            | some pl =>
              let run := { CollRun.init with born := s.nextId, ctx := r.owner, base0 := e.gbase0, base1 := r.gbuf, base2 := 0 }
              if pl.stg || (s.collFault k 1024 r.owner true pl run).isSome then .next (s.modReel k Reel.fail)
              else if !p.runRoom e.gplan then .next s
              else
                let s1 := write s
                let q := (s1.pkg k).issueRun e.gplan { run with pages := s1.collPages k r.owner pl run }
                .next ((s1.setPkg k q.2).modReel k (fun r => { r with grun := some q.1.toNat, gnum := r.gnum + 1 }))

/-! ### RUN -/

def execReelRun (k : Nat) (s : State) : Out :=
  let p := s.pkg k
  let r := p.reel
  let e := r.ent r.cur
  if r.st ≠ .run then .next s
  else match r.launch with
    | some n =>
      .next (if (flook p.sched.launches n).isSome then s
        else s.modPkg k (fun p => p.modReel (fun r => { r with st := .handoff, launch := none, need := p.outstanding })))
    | none =>
      if 2048 ≤ p.tableUsed then .next s
      else match s.devFetch k r.owner e.lrec 128 with
        | none => .next (s.modPkg k (fun p => (mgmtEvent p 0x4F 6 64 e.lrec).modReel Reel.fail))
        | some bs =>
          let rc := lrecOf e.lrec bs
          if rc.args ≠ e.argw ∨ rc.argn < 8 then .next (s.modReel k Reel.fail)
          else match s.judge k r.owner e.lrec bs with
            | .inl c => .next ((s.markRefusal k 64 r.owner rc c false).modReel k Reel.fail)
            | .inr x =>
              .next ((s.addLaunch k { x with queue := 64, prio := 0, reel := true }).modReel k (fun r => { r with launch := some s.nextId }))

/-! ### HANDOFF (R391, R393) -/

/-- The notify that a neighbour's sequencer waits for. -/
def reelNote (k : Nat) (ctx : W32) (dst : Nat) (va : W64) : Packet :=
  { Packet.init with src := k, dst := dst, kind := .atomic, addr := va, w := true, hnd := 14, ctx := ctx }
def Reel.notes (r : Reel) (k : Nat) (e : REnt) : List Packet :=
  (match e.outr with | some i => [reelNote k r.owner (r.ring i).peer (r.ring i).fillw] | none => []) ++
  (match e.inr with | some i => [reelNote k r.owner (r.ring i).peer (r.ring i).mirw] | none => [])
def bump (m : FMap Nat) (i : Option Nat) : FMap Nat :=
  match i with
  | some n => fput m n (fget 0 m n + 1)
  | none => m
def Reel.advance (r : Reel) (e : REnt) : Reel :=
  { r with
    cons := bump r.cons e.inr
    prod := bump r.prod e.outr
    stash := if e.stash = 2 then (match r.stashOf e.mb with | some n => fdel r.stash n | none => r.stash) else r.stash
    retired := r.retired + 1
    remain := r.remain - 1
    cur := if r.remain ≤ 1 then r.cur else (r.cur + 1) % 1024
    need := []
    st := if r.remain ≤ 1 then .idle else .wait }
def execReelHandoff (k : Nat) (s : State) : Out :=
  let p := s.pkg k
  let r := p.reel
  let e := r.ent r.cur
  let ns := r.notes k e
  .next (if r.st ≠ .handoff || !p.landed r.need then s
    else if ns.any (fun x => x.dst != k && !p.vqRoom x.dst (2 * x.flits)) then s
    else s.modPkg k (fun p => (ns.foldl (fun (p : Pkg) x => p.enqueue k none x) p).modReel (fun r => r.advance e)))

end Sys2Proof.Machine
end

