-- ==== Sys2Proof/Machine/Device.lean ====
section
/-! DEFINITION. The module (R414 to R428, R432): the control window, the aperture, features, boot and trust, errors and
self-tests, budgets, power. -/

namespace Sys2Proof.Machine

/-! ### SM3, the digest of R419 to R421 -/

def rotl (x : W32) (n : Nat) : W32 := x.rotateLeft n
def sm3P0 (x : W32) : W32 := x ^^^ rotl x 9 ^^^ rotl x 17
def sm3P1 (x : W32) : W32 := x ^^^ rotl x 15 ^^^ rotl x 23
def sm3T (j : Nat) : W32 := rotl (if j < 16 then 0x79CC4519#32 else 0x7A879D8A#32) (j % 32)
def sm3FF (j : Nat) (x y z : W32) : W32 := if j < 16 then x ^^^ y ^^^ z else (x &&& y) ||| (x &&& z) ||| (y &&& z)
def sm3GG (j : Nat) (x y z : W32) : W32 := if j < 16 then x ^^^ y ^^^ z else (x &&& y) ||| (~~~ x &&& z)
/-- A word of the expanded message from those before it, the newest first. -/
def sm3Next (ws : List W32) : W32 :=
  let w := fun (i : Nat) => ws.getD (i - 1) 0
  sm3P1 (w 16 ^^^ w 9 ^^^ rotl (w 3) 15) ^^^ rotl (w 13) 7 ^^^ w 6
def sm3Expand : Nat → List W32 → List W32
  | 0, ws => ws
  | n + 1, ws => sm3Expand n (sm3Next ws :: ws)
structure Sm3 where
  a : W32
  b : W32
  c : W32
  d : W32
  e : W32
  f : W32
  g : W32
  h : W32
  deriving DecidableEq, Repr
def Sm3.xor (x y : Sm3) : Sm3 :=
  ⟨x.a ^^^ y.a, x.b ^^^ y.b, x.c ^^^ y.c, x.d ^^^ y.d, x.e ^^^ y.e, x.f ^^^ y.f, x.g ^^^ y.g, x.h ^^^ y.h⟩
def Sm3.round (v : Sm3) (j : Nat) (w w4 : W32) : Sm3 :=
  let ss1 := rotl (rotl v.a 12 + v.e + sm3T j) 7
  let ss2 := ss1 ^^^ rotl v.a 12
  let t1 := sm3FF j v.a v.b v.c + v.d + ss2 + (w ^^^ w4)
  let t2 := sm3GG j v.e v.f v.g + v.h + ss1 + w
  ⟨t1, v.a, rotl v.b 9, v.c, sm3P0 t2, v.e, rotl v.f 19, v.g⟩
def sm3Rounds : Nat → Nat → List W32 → Sm3 → Sm3
  | 0, _, _, v => v
  | n + 1, j, ws, v => sm3Rounds n (j + 1) ws.tail (v.round j (ws.getD 0 0) (ws.getD 4 0))
/-- Words of a block, most significant byte first. -/
def beWord (bs : List Byte) : W32 := bs.foldl (fun (x : W32) (b : Byte) => (x <<< 8) ||| b.setWidth 32) 0
def sm3Words : Nat → List Byte → List W32
  | 0, _ => []
  | n + 1, bs => beWord (bs.take 4) :: sm3Words n (bs.drop 4)
def sm3Block (v : Sm3) (bs : List Byte) : Sm3 :=
  (sm3Rounds 64 0 (sm3Expand 52 (sm3Words 16 bs).reverse).reverse v).xor v
def sm3Blocks : Nat → List Byte → Sm3 → Sm3
  | 0, _, v => v
  | n + 1, bs, v => sm3Blocks n (bs.drop 64) (sm3Block v (bs.take 64))
def sm3Init : Sm3 :=
  ⟨0x7380166F, 0x4914B2B9, 0x172442D7, 0xDA8A0600, 0xA96F30BC, 0x163138AA, 0xE38DEE4D, 0xB0FB0E4E⟩
def beBytes (n x : Nat) : List Byte := (leBytes n x).reverse
/-- The digest of a string of bytes, as 32 bytes. -/
def sm3 (bs : List Byte) : List Byte :=
  let pad := (119 - bs.length % 64) % 64
  let m := bs ++ [0x80#8] ++ leBytes pad 0 ++ beBytes 8 (8 * bs.length)
  let v := sm3Blocks (m.length / 64) m sm3Init
  ([v.a, v.b, v.c, v.d, v.e, v.f, v.g, v.h].map (fun (x : W32) => beBytes 4 x.toNat)).flatten
/-- Digests and measurements are kept with their first byte lowest. -/
def bytes256 (x : BitVec 256) : List Byte := leBytes 32 x.toNat
def ofBytes256 (bs : List Byte) : BitVec 256 := BitVec.ofNat 256 (leNat bs)
def mrExtend (x d : BitVec 256) : BitVec 256 := ofBytes256 (sm3 (bytes256 x ++ bytes256 d))

/-! ### Boot and trust (R419 to R421) -/

def Sec.extend (x : Sec) (n : Nat) (d : BitVec 256) : Sec := { x with mr := fput x.mr n (mrExtend (fget 0 x.mr n) d) }
/-- What a verified image sets up as it runs (R3, R266, R279, R420); PODSIZE is 1 to 128 (R6). -/
def Pkg.runImage (p : Pkg) (k : Nat) (im : BootImage) : Pkg :=
  { p with
    pkgid := k
    podsize := max 1 (min 128 im.podsize)
    fab := { p.fab with since := p.calRound }
    sec := ({ p.sec with
      booted := true
      recovery := false
      secver := im.secver
      rollback := if im.raise && p.sec.rollback.ult im.secver then im.secver else p.sec.rollback
      fwver := im.fwver }.extend 0 im.digest).extend 1 im.cfgDigest
    phys := { p.phys with
      bankV := (im.bankV.zipIdx.map (fun (e : Nat × Nat) => (e.2, e.1)))
      pool := (im.pool.zipIdx.map (fun (e : List Nat × Nat) => (e.2, e.1))) } }
/-- The boot ROM's verification. -/
def Sec.verifies (x : Sec) (im : BootImage) : Bool := im.sigGood && !im.secver.ult x.rollback
def Pkg.tryImage (p : Pkg) (k : Nat) (im : BootImage) : Pkg :=
  if p.sec.verifies im then p.runImage k im else { p with sec := { p.sec with recovery := true } }
/-- A later firmware stage, once its loader has verified it: it runs beside what the first image has set up. -/
def Sec.runStage (x : Sec) (im : BootImage) : Sec :=
  { x with
    secver := im.secver
    rollback := if im.raise && x.rollback.ult im.secver then im.secver else x.rollback
    fwver := im.fwver }.extend 0 im.digest
def Pkg.tryStage (p : Pkg) (im : BootImage) : Pkg :=
  { p with sec := if p.sec.verifies im then p.sec.runStage im else { p.sec with recovery := true } }
/-- The first image after reset, or a later stage (R419, log 118). -/
def execBootRom (k : Nat) (im : BootImage) (s : State) : Out :=
  let x := (s.pkg k).sec
  .next (if x.recovery then s else s.modPkg k (fun p => if x.booted then p.tryStage im else p.tryImage k im))
def execRecoveryImage (k : Nat) (im : BootImage) (s : State) : Out :=
  .next (if (s.pkg k).sec.recovery then s.modPkg k (fun p => p.tryImage k im) else s)
/-- Whether the mailbox answers: it does in recovery too. -/
def Pkg.mailbox (p : Pkg) : Bool := p.phys.powered && (p.sec.booted || p.sec.recovery)
def execMrExtend (k n : Nat) (v : BitVec 256) (s : State) : Out :=
  .next (if (s.pkg k).mailbox ∧ 2 ≤ n ∧ n ≤ 7 then s.modPkg k (fun p => { p with sec := p.sec.extend n v }) else s)
/-- The signed part of a report (R421). -/
def Sec.report (x : Sec) (nonce : BitVec 256) (mask : Byte) : List Byte :=
  leBytes 4 1 ++ leBytes 4 Config.serial.toNat ++ leBytes 4 (x.secver.toNat * 2 ^ 24 + x.fwver.toNat % 2 ^ 24) ++ leBytes 4 mask.toNat ++
  bytes256 nonce ++ ((List.range 8).map (fun i => if mask.getLsbD i then bytes256 (fget 0 x.mr i) else leBytes 32 0)).flatten ++ leBytes 48 0
def execAttestationRequest (k : Nat) (v : BitVec 256) (u : Byte) (s : State) : Out :=
  .next (if !(s.pkg k).mailbox then s
    else s.modPkg k (fun p =>
      let r := p.sec.report v u
      let sig := Config.sm2Sign (ofBytes256 (sm3 r)) p.sec.signs
      { p with
        sec := { p.sec with signs := p.sec.signs + 1 }
        host := { p.host with replies := p.host.replies ++ [.report (r ++ leBytes 64 sig.toNat)] } }))

/-- The public identity key and its certificate, which the mailbox gives (R421). Reading them changes nothing. -/
def Pkg.identity (p : Pkg) : Option (BitVec 512 × List Byte) :=
  if p.mailbox then some (Config.identityKey, (List.range Config.certificateLen).map Config.certificate) else none

/-! ### Features (R418) -/

/-- Whether the control window's other registers answer (R419, R428). -/
def Pkg.answers (p : Pkg) : Bool := p.phys.powered && p.sec.booted && !p.sec.recovery
def Pkg.featOff (p : Pkg) : BitVec 128 := if p.sec.recovery then 0 else Config.featOff
def Pkg.featureGo (p : Pkg) : Pkg :=
  let h := p.host
  if !p.answers || h.featDone then p
  else if h.featReq &&& ~~~ p.featOff ≠ 0 || !h.featReq.getLsbD 0 then { p with host := { h with featRej := true } }
  else { p with host := { h with featAcc := h.featReq, featDone := true } }
def execFeatureGo (k : Nat) (s : State) : Out := .next (s.modPkg k Pkg.featureGo)

/-! ### The aperture (R416, R425) -/

/-- Where a host access lands: the keys of its parts, or none where it faults. -/
def State.apertureKey (s : State) (k : Nat) (va : W64) (write : Bool) : Option Nat :=
  let ctx := (s.pkg k).host.apctx
  match s.devLeaf k ctx va, s.devPlace k ctx va with
  | some l, .at_ key _ => if (if write then pteW l && pteState l != 3 else pteR l) then some key else none
  | _, _ => none
def apertureVa (p : Pkg) (o : W64) : W64 := p.host.apva + o
def apFault (p : Pkg) (va : W64) : Pkg := mgmtEvent p 0x49 6 0 va
/-- The parts of a host access, page by page: the key and the length of each. -/
def State.aperture (s : State) (k : Nat) (va : W64) (n : Nat) (write : Bool) : Option (List (Nat × Nat)) :=
  (stepsOf (2 ^ 16) va n).mapM (fun a =>
    (s.apertureKey k a write).map (fun key => (key, min (2 ^ 16 - a.toNat % 2 ^ 16) (va.toNat + n - a.toNat))))
def Pkg.reply (p : Pkg) (r : HostReply) : Pkg := { p with host := { p.host with replies := p.host.replies ++ [r] } }
/-- The bytes of BAR2 (R414). An access that reaches past them meets no BAR: it does not come to the device. -/
def bar2Bytes : Nat := 2 ^ (30 + Config.bar2Log.val)
def execApertureRead (k : Nat) (v : W64) (r : HostRead) (s : State) : Out :=
  let n := r.len
  let va := apertureVa (s.pkg k) v
  .next (if !(s.pkg k).answers || decide (bar2Bytes < v.toNat + n) then s.modPkg k (fun p => p.reply .unsupported)
    else match s.aperture k va n false with
      | none => s.modPkg k (fun p => (apFault p va).reply .unsupported)
      | some l =>
        if l.any (fun e => s.poisoned e.1 e.2) || !r.ok then s.modPkg k (fun p => p.reply .poisoned)
        else s.modPkg k (fun p => p.reply (.data ((l.map (fun e => s.load e.1 e.2)).flatten))))
/-- The parts written, in order. -/
def putParts : List (Nat × Nat) → List Byte → State → State
  | [], _, s => s
  | e :: es, bs, s => putParts es (bs.drop e.2) (s.storeAt e.1 (bs.take e.2))
/-- Parts cut at 256-byte units. -/
def units256 (l : List (Nat × Nat)) : List (Nat × Nat) :=
  (l.map (fun e => (List.range ((e.1 + e.2 + 255) / 256 - e.1 / 256)).map (fun i =>
    let lo := max e.1 ((e.1 / 256 + i) * 256)
    (lo, min (e.1 + e.2) ((e.1 / 256 + i + 1) * 256) - lo)))).flatten
/-- The units of a host write, those that arrive with a mismatch dropped and reported (R425). -/
def putUnits (k : Nat) (bad : Nat) : Nat → List (Nat × Nat) → List Byte → State → State
  | _, [], _, s => s
  | i, e :: es, bs, s => putUnits k bad (i + 1) es (bs.drop e.2) (if bad.testBit i
      then s.modPkg k (fun p => mgmtEvent p 0x48 6 0 (BitVec.ofNat 64 (e.1 % 2 ^ 44 / 256 * 256)))
      else s.storeAt e.1 (bs.take e.2))
/-- Bit i of `bad` says that the i-th 256-byte unit of the write does not match its CRC-32C. -/
def execApertureWrite (k : Nat) (v : W64) (bs : List Byte) (bad : Nat) (s : State) : Out :=
  let va := apertureVa (s.pkg k) v
  .next (if !(s.pkg k).answers || decide (bar2Bytes < v.toNat + bs.length) then s
    else match s.aperture k va bs.length true with
      | none => s.modPkg k (fun p => apFault p va)
      | some l => if bad = 0 then putParts l bs s else putUnits k bad 0 (units256 l) bs s)
def Pkg.apertureSet (p : Pkg) (r : Nat) (v : W64) : Pkg :=
  if !p.answers then p
  else if r = 0 then { p with host := { p.host with apctx := lo32 v } }
  else if r = 8 then { p with host := { p.host with apva := v &&& ~~~ 0xFFFF#64 } }
  else p
def execApertureControlWrite (k r : Nat) (v : W64) (s : State) : Out := .next (s.modPkg k (fun p => p.apertureSet r v))

/-! ### Errors (R424 to R426) -/

/-- The unit that a test concerns: a row of memory is named by the address that the error gave (log 119). -/
def Test.same (t : Test) (cls : Byte) (unit row : Nat) : Bool :=
  t.cls == cls && t.unit == unit && (t.row == row || !(cls == 1 || cls == 2))
/-- The unit concerned comes under test, if it is not already; ports retrain by themselves (R351). -/
def Pkg.startTest (p : Pkg) (cls : Byte) (unit row : Nat) (ue : Bool) : Pkg :=
  if 4 < cls.toNat then p
  else
    let p1 := if cls = 0 then p.setCore unit { p.core unit with testing := true } else p
    if p1.phys.tests.any (fun t => t.same cls unit row) then
      { p1 with phys := { p1.phys with tests := p1.phys.tests.map (fun (t : Test) =>
        if t.same cls unit row then { t with ue := t.ue || ue } else t) } }
    else { p1 with phys := { p1.phys with tests := p1.phys.tests ++ [⟨cls, unit, row, false⟩] } }
/-- Entries of a translation cache that map an address go. -/
def dropEntries (v : W64) (l : List TlbEntry) : List TlbEntry := l.filter (fun e => !(e.base.toNat ≤ v.toNat && v.toNat < e.base.toNat + e.size))
/-- A parity error takes the entry out of its store: 1 the line of a core's cache, 2 an entry of its translation cache, 3 one of
its cluster's, 4 one of its die's walker; the other stores correct the data where it stands, and an instruction is fetched from memory each time (R424). -/
def Pkg.dropParity (p : Pkg) (n : Nat) (v : W64) (c : Nat) : Pkg :=
  match c with
  | 1 => p.setCore n { p.core n with lines := dropLines (p.core n).lines v.toNat 1 }
  | 2 => p.setCore n { p.core n with tlb := dropEntries v (p.core n).tlb }
  | 3 => { p with tlb2 := fmod p.tlb2 (clusterOf n) (dropEntries v) }
  | 4 => { p with wcache := fmod p.wcache (clusterOf n) (fun l => l.filter (fun e => !(e.base ≤ v.toNat && v.toNat < e.base + levelSize e.level))) }
  | _ => p
def execCorrectedError (k : Nat) (u : ErrStore) (n : Nat) (v : W64) (s : State) : Out :=
  .next (s.modPkg k (fun p =>
    if u.cls = 0 && (p.core n).testing then p
    else
      let p1 := if u.cls = 0 then p.dropParity n v u.store else p
      (mgmtEvent p1 0x40 u.cls.toNat n v).startTest u.cls n v.toNat false))
/-- Contexts with remote, collective or reel work on a package (R424). -/
def Pkg.hasWork (p : Pkg) (c : W32) : Bool :=
  p.fab.toks.any (fun (e : Nat × Tok) => e.2.ctx == c && (e.2.st == .pend || e.2.st == .join)) ||
  p.fab.locals.any (fun o => o.pkt.ctx == c) || p.fab.spray.any (fun x => x.ctx == c) ||
  p.fab.holds.any (fun (h : Hold) => match h.pkt with | some x => x.ctx == c | none => false) ||
  p.fab.peers.any (fun (e : Nat × Peer) => (e.2.vq ++ e.2.relay ++ e.2.unackD ++ e.2.unackS ++ e.2.unackF).any (fun x => x.ctx == c)) ||
  p.cmds.any (fun (x : CmdRec) => x.ctx == c && x.cmd.isRcopy) ||
  p.coll.runs.any (fun (r : CollRun) => r.ctx == c && !r.done) || (p.reel.owner == c && p.reel.st != .idle)
def Pkg.liveCtxs (p : Pkg) : List W32 :=
  (p.ctxs.filter (fun (e : Nat × Ctx) => !e.2.stopped)).map (fun (e : Nat × Ctx) => BitVec.ofNat 32 e.1)
def State.stopAll (s : State) (k : Nat) (cs : List W32) (cause : Cause) (sub : Byte) : State :=
  cs.foldl (fun s c => let f := s.firstLane k c; stopContext s k c cause sub f.1 f.2) s
/-- The troupes of a core that has failed (R324). -/
def State.coreFailed (s : State) (k n : Nat) (sub : Byte) : State :=
  let ts := (s.coreTroupes k n).map (fun (e : Nat × Troupe) => e.1)
  let s1 := (ts.foldl (fun s t => s.eccTroupe t sub) s).grant k n
  ts.foldl (fun s t => s.preemptCheck k (s.troupe t).ctx) s1
def execEccu (k n : Nat) (u : Byte) (s : State) : Out :=
  let s1 := { s with fresh := s.fresh + 1 }.modPkg k (fun p =>
    (mgmtEvent p 0x41 0 n (Config.freeValue s.fresh)).startTest 0 n 0 true)
  .next (s1.coreFailed k n u)
/-- The key of the 64-byte unit that an error names: a bank store's by its die, an HBM stack's by physical address. -/
def errorUnit (k : Nat) (u : Byte) (n : Nat) (v : W64) : Nat :=
  if u = 1 then bankKey k (n % 4) (v.toNat % 2 ^ 28 / 64 * 64) else hbmKey k (v.toNat % 2 ^ 39 / 64 * 64)
def execUncorrectableError (k : Nat) (u : Byte) (n : Nat) (v : W64) (s : State) : Out :=
  let s1 := s.modPkg k (fun p => (mgmtEvent p 0x41 u.toNat n v).startTest u n v.toNat true)
  .next (if u = 0 then s1.coreFailed k n 4
    else if u = 1 ∨ u = 2 then s1.modPkg k (fun p => { p with phys := { p.phys with poison := (p.phys.poison ++ [errorUnit k u n v]).dedup } })
    else if u = 6 then s1.stopAll k ((s1.pkg k).liveCtxs.filter (fun c => (s1.pkg k).hasWork c)) .eccu 4
    else s1)

/-- A launch whose corps waits, and which the cores still in service can no longer take, is refused (R432); a corps that its
cluster alone can no longer take asks the others (`State.spot`). -/
def State.refuseUnfit (s : State) (k : Nat) : State :=
  let bad := (s.pkg k).sched.launches.filter (fun (e : Nat × Launch) =>
    e.2.wait.isSome && !e.2.rcd.graph && (s.pkg k).noFit e.2.rcd e.2.hdr)
  bad.foldl (fun s e => s.refuseTaken k e.1 3) s
/-- Retirement of a unit. A row goes to a spare where one is left, and otherwise the frame of an HBM row is withdrawn from its
pool; for a row of the bank store, which is in no pool, nothing more is stated (R426, log 119). -/
def State.retire (s : State) (k : Nat) (t : Test) : State :=
  if t.cls = 0 then (s.modCore k t.unit (fun c => { c with fenced := true, testing := false })).refuseUnfit k
  else if t.cls = 3 then s.modPkg k (fun p => { p with phys := { p.phys with engBad := (p.phys.engBad ++ [t.unit]).dedup } })
  else if t.cls = 4 then s.modPkg k (fun p => { p with phys := { p.phys with redBad := (p.phys.redBad ++ [t.unit]).dedup } })
  else if t.cls = 2 then
    let f := t.row % 2 ^ 39 / 2 ^ 16
    if Config.freeBit s.fresh then { s with fresh := s.fresh + 1 }
    else { s with fresh := s.fresh + 1 }.modPkg k (fun p => { p with phys := { p.phys with
      withdrawn := (p.phys.withdrawn ++ [f]).dedup
      pool := fall p.phys.pool (fun _ (l : List Nat) => l.filter (fun g => g != f)) } })
  else s
/-- Twenty-four hours in nanoseconds. -/
def dayNs : Nat := 86400000000000
def unitKey (t : Test) : Nat := (if t.cls = 1 ∨ t.cls = 2 then (t.row + 1) * 2 ^ 40 else 0) + t.cls.toNat * 2 ^ 32 + t.unit
/-- The test of a unit ends. -/
def execSelfTestEnd (k : Nat) (u : TestRow) (n : Nat) (ok : Bool) (s : State) : Out :=
  match (s.pkg k).phys.tests.find? (fun t => t.same u.cls n u.row.toNat) with
  | none => .next s
  | some t =>
    if u.cls = 0 && !(s.coreTroupes k n).isEmpty then .next s
    else
      let p := s.pkg k
      let times := (fget [] p.phys.transients (unitKey t)).filter (fun x => p.now ≤ x + dayNs)
      let lasting := !ok || t.ue || decide (2 ≤ times.length)
      let s1 := s.modPkg k (fun p =>
        let p1 := { p with phys := { p.phys with
          tests := p.phys.tests.erase t
          transients := fput p.phys.transients (unitKey t) (times ++ [p.now]) } }
        mgmtEvent p1 (if lasting then 0x43 else 0x42) u.cls.toNat n (BitVec.ofNat 64 t.row))
      .next (if lasting then s1.retire k t
        else if u.cls = 0 then s1.modCore k n (fun c => { c with testing := false }) else s1)

/-! ### Budgets, power and clocks (R427, R428) -/

/-- The class that an offset of the budget registers names. -/
def budgetClass (r : Nat) : Option Nat :=
  let d := r / 16
  if r = 0x100 then some pacePort
  else if r = 0x104 then some paceReduce
  else if d < 4 then
    (if r % 16 = 0 then some (paceCopy d) else if r % 16 = 4 then some (paceBank d) else if r % 16 = 8 then some (paceWalk d) else none)
  else none
def Pkg.budgetSet (p : Pkg) (r : Nat) (v : W32) : Pkg :=
  if !p.answers then p
  else match budgetClass r with
    | none => p
    | some c => { p with phys := { p.phys with pace := fput p.phys.pace c { fget Pace.init p.phys.pace c with next := v.toNat } } }
def execBudgetWrite (k r : Nat) (v : W32) (s : State) : Out := .next (s.modPkg k (fun p => p.budgetSet r v))
def Pkg.pcapSet (p : Pkg) (v : W32) : Pkg :=
  if p.answers && decide (1500 ≤ v.toNat) && decide (v.toNat ≤ 3000) then { p with phys := { p.phys with pcap := v } } else p
def execPcapWrite (k : Nat) (v : W32) (s : State) : Out := .next (s.modPkg k (fun p => p.pcapSet v))
/-- A power state is taken when it is one, and standby only where no context is live. -/
def Pkg.pstateSet (p : Pkg) (v : W32) : Pkg :=
  let n := v.setWidth 2
  if !p.answers || n = 3 || (n = 2 && !p.liveCtxs.isEmpty) then p
  else { p with phys := { p.phys with pstate := n.setWidth 32 } }
def execPstateWrite (k : Nat) (v : W32) (s : State) : Out := .next (s.modPkg k (fun p => p.pstateSet v))
/-- One 25 MHz step of the core clock, between 800 and 2,000 MHz. -/
def Pkg.clockDown (p : Pkg) : Pkg := { p with phys := { p.phys with fclk := if 825 ≤ p.phys.fclk.toNat then p.phys.fclk - 25 else 800 } }
def Pkg.clockUp (p : Pkg) : Pkg := { p with phys := { p.phys with fclk := if p.phys.fclk.toNat ≤ 1975 then p.phys.fclk + 25 else 2000 } }
def execPowerCapReached (k : Nat) (s : State) : Out := .next (s.modPkg k (fun p => mgmtEvent p.clockDown 0x4B 6 0 0))
/-- The junction temperature, in degrees. -/
def execTemperatureEvent (k n : Nat) (s : State) : Out :=
  .next (if 115 < n then
      (s.stopAll k (s.pkg k).liveCtxs .none 0).modPkg k (fun p => { p with phys := { p.phys with powered := false } })
    else if 105 < n then s.modPkg k (fun p => mgmtEvent p.clockDown 0x4A 6 0 0)
    else s.modPkg k Pkg.clockUp)

end Sys2Proof.Machine
end

