-- ==== Sys2Proof/Machine/HostCmd.lean ====
section
/-! DEFINITION. The host's control window (R415, R417, R418, R423, R427 to R429) and the host commands (R429 to R431). -/

namespace Sys2Proof.Machine

/-! ### Commands -/

def cmdOk (s : State) (k : Nat) (status : Nat) : State := s.modPkg k (fun p => p.cmdDone (BitVec.ofNat 32 status))
/-- A change that a host command has begun holds the commands after it (R431). -/
def Pkg.hostChange (p : Pkg) : Bool := p.vmch.any (fun c => c.wid.isNone)
def Pkg.ctx? (p : Pkg) (c : W32) : Option Ctx := if c = 0xFFFFFFFF then none else flook p.ctxs c.toNat
/-- A command that names a context: status 3 where the package has none. -/
def onCtx (s : State) (k : Nat) (h : HArgs) (go : Ctx → State) : Out :=
  .next (if (s.pkg k).hostChange then s
    else match (s.pkg k).ctx? h.ctx with
      | none => cmdOk s k 3
      | some c => go c)
def Pkg.modCtx (p : Pkg) (c : W32) (f : Ctx → Ctx) : Pkg := { p with ctxs := fmod p.ctxs c.toNat f }

/-! #### Contexts (R311, R325, R326) -/

def hbmBytes : Nat := 2 ^ 39
/-- The arguments of CTXNEW: tables within the package's HBM, aligned to their size (R270, R271, R278, R282). -/
def ctxArgsOk (h : HArgs) : Bool :=
  h.ctx != 0xFFFFFFFF && h.a0.toNat % 4096 == 0 && h.a1.toNat % 32 == 0 && h.a2.toNat % 16 == 0 && h.a3.toNat % 256 == 0 &&
  decide (h.a0.toNat < hbmBytes) && decide (h.a1.toNat < hbmBytes) && decide (h.a2.toNat < hbmBytes) &&
  decide (h.a3.toNat + h.a4.toNat ≤ hbmBytes) && decide (h.a5.toNat < 256)
def ctxOf (h : HArgs) : Ctx :=
  { root := h.a0, regions := h.a1, dups := h.a2, ptPool := h.a3, ptBytes := h.a4, ptNext := 0, heap := h.a5.toNat,
    sysh := 0, saveh := 0, resth := 0, evBase := 0, evBytes := 0, stopped := false, heapFree := [], heapTag := [] }
def execCtxnew (k : Nat) (h : HArgs) (s : State) : Out :=
  .next (if (s.pkg k).hostChange then s
    else if !ctxArgsOk h then cmdOk s k 2
    else if ((s.pkg k).ctx? h.ctx).isSome then cmdOk s k 1
    else cmdOk (s.modPkg k (fun p => { p with ctxs := fput p.ctxs h.ctx.toNat (ctxOf h) })) k 0)
/-- An entry point: none, or a packet start on a page of system code (R311). -/
def State.entryOk (s : State) (k : Nat) (ctx : W32) (a : W64) : Bool :=
  a == 0 || (a.toNat % 12 == 0 &&
    (match s.devLeaf k ctx a with | some l => decide (2 ≤ pteState l) && pteSys l && pteX l | none => false))
def execCtxentry (k : Nat) (h : HArgs) (s : State) : Out :=
  onCtx s k h (fun _ =>
    if [h.a0, h.a1, h.a2].all (s.entryOk k h.ctx) then
      cmdOk (s.modPkg k (fun p => p.modCtx h.ctx (fun c => { c with sysh := h.a0, saveh := h.a1, resth := h.a2 }))) k 0
    else cmdOk s k 2)
def execCtxstop (k : Nat) (h : HArgs) (s : State) : Out :=
  onCtx s k h (fun c =>
    if c.stopped then cmdOk s k 0
    else cmdOk (stopContext s k h.ctx .none 0 (s.firstLane k h.ctx).1 (s.firstLane k h.ctx).2) k 0)
def execCtxfree (k : Nat) (h : HArgs) (s : State) : Out :=
  onCtx s k h (fun c =>
    if !c.stopped then cmdOk s k 1
    else cmdOk (s.modPkg k (fun p =>
      let p1 := p.invalidate h.ctx 0 (2 ^ 64)
      { p1 with ctxs := fdel p1.ctxs h.ctx.toNat, sched := { p1.sched with preempts := fdel p1.sched.preempts h.ctx.toNat } })) k 0)
def execCtxevt (k : Nat) (h : HArgs) (s : State) : Out :=
  onCtx s k h (fun _ =>
    if h.a0.toNat % 8 ≠ 0 ∨ h.a1.toNat % 8 ≠ 0 then cmdOk s k 2
    else cmdOk (s.modPkg k (fun p => p.modCtx h.ctx (fun c => { c with
      evBase := h.a0
      evBytes := if h.a0 = 0 then 0 else h.a1 }))) k 0)

/-! #### Pre-emption (R315) -/

def deadline (v : W64) (dflt hi : Nat) : Option Nat :=
  if v = 0 then some dflt else if 1000 ≤ v.toNat ∧ v.toNat ≤ hi then some v.toNat else none
def execPreempt (k : Nat) (h : HArgs) (s : State) : Out :=
  onCtx s k h (fun _ =>
    match deadline h.a1 50000 10000000, deadline h.a2 20000 1000000 with
    | some d, some e =>
      if 16 ≤ h.a0.toNat then cmdOk s k 2
      else
        let r : Preempt :=
          { mask := h.a0.setWidth 4, openMask := 0, stage := .drain, drainAt := (s.pkg k).now + d, evictNs := e, evictAt := 0, troupes := [] }
        cmdOk ((s.modPkg k (fun p => p.setRequests h.ctx (p.requests h.ctx ++ [r]))).preemptCheck k h.ctx) k 0
    | _, _ => cmdOk s k 2)
/-- The clusters of a request that are still closed. -/
def Preempt.left (r : Preempt) : BitVec 4 := r.mask &&& ~~~ r.openMask
/-- PREEND opens clusters of every request on the context. A drain that is left with none ends at once; an eviction runs on. -/
def execPreend (k : Nat) (h : HArgs) (s : State) : Out :=
  onCtx s k h (fun _ =>
    if 16 ≤ h.a0.toNat then cmdOk s k 2
    else
      let l := ((s.pkg k).requests h.ctx).map (fun r => { r with openMask := r.openMask ||| h.a0.setWidth 4 })
      let out := l.filter (fun r => r.left == 0 && r.stage == .drain)
      let s1 := s.modPkg k (fun p => out.foldl (fun p _ => preemptEvent p h.ctx false)
        (p.setRequests h.ctx (l.filter (fun r => !(r.left == 0 && r.stage != .evict)))))
      cmdOk (s1.preemptCheck k h.ctx) k 0)

/-! #### RESUME (R313) -/

/-- A lane whose stop is held aside takes its record's fields; a TRAPPC that differs moves its resume point (R312). -/
def Lane.fromRecord (l : Lane) (rc : List Byte) : Lane :=
  let pc := BitVec.ofNat 64 (field rc 0 8) &&& ~~~ 1#64
  { l with
    movedPc := l.movedPc || pc != l.trapPc
    trapPc := pc
    trapVa := BitVec.ofNat 64 (field rc 8 8)
    trapCause := BitVec.ofNat 32 (field rc 16 4) }
/-- A reserved field or value of a lane record (R320). -/
def laneRecBad (rc : List Byte) : Bool :=
  nbits (field rc 20 4) 24 2 != 0 || decide (4 < nbits (field rc 20 4) 31 29) || nbits (field rc 24 4) 31 5 != 0 || field rc 28 4 != 0
def State.suspended (s : State) (k : Nat) (ctx : W32) (tidx wix : Nat) (part : Bool) : Option Nat :=
  (s.waves.find? (fun (e : Nat × Wave) =>
    let t := s.troupe e.2.tid
    e.2.susp && !e.2.ended && e.2.wix == wix && e.2.part == part && t.pkg == k && t.ctx == ctx && t.tidx == tidx && t.st == .resident)).map
    (fun (e : Nat × Wave) => e.1)
def execResume (k : Nat) (h : HArgs) (s : State) : Out :=
  onCtx s k h (fun _ =>
    if 2 ^ 40 ≤ h.a0.toNat ∨ 32 ≤ h.a1.toNat then cmdOk s k 2
    else match s.suspended k h.ctx h.a0.toNat (h.a1.toNat % 16) (h.a1.getLsbD 4) with
      | none => cmdOk s k 1
      | some w =>
        if h.a2 = 0 then cmdOk (s.modWave w (fun v => { v with susp := false })) k 0
        else match s.devFetch k h.ctx h.a2 1024 with
          | none => cmdOk s k 2
          | some bs =>
            if (List.range 32).any (fun l => laneRecBad ((bs.drop (32 * l)).take 32)) then cmdOk s k 2
            else cmdOk (s.modWave w (fun v =>
              { (v.upd (lanesOf v.live) (fun l x => x.fromRecord ((bs.drop (32 * l)).take 32))) with susp := false })) k 0)

/-! #### Plans, the reel, handlers, the fabric (R355, R357, R370, R379, R389) -/

/-- A load waits until no run of its slot is outstanding. -/
def execPlanload (k : Nat) (h : HArgs) (s : State) : Out :=
  onCtx s k h (fun _ =>
    let p := s.pkg k
    let slot := h.a0.toNat
    if 256 ≤ slot then cmdOk s k 2
    else if p.openRuns.any (fun r => r.plan == slot) then
      s.modPkg k (fun p => { p with coll := { p.coll with loading := (p.coll.loading ++ [slot]).dedup } })
    else
      let s1 := s.modPkg k (fun p => { p with coll := { p.coll with loading := p.coll.loading.filter (fun n => n != slot) } })
      match s.devFetch k h.ctx h.a1 32 with
      | none => cmdOk s1 k 2
      | some hd =>
        let n := nbits (leNat (hd.take 8)) 12 0
        match s.devFetch k h.ctx (h.a1 + 32) (32 * max n 1) with
        | none => cmdOk s1 k 2
        | some bs =>
          match planOf p.pkgid p.podsize hd bs with
          | none => cmdOk s1 k 2
          | some pl =>
            if !p.planFits slot n then cmdOk s1 k 2
            else cmdOk (s1.modPkg k (fun p => { p with coll := { p.coll with plans := fput p.coll.plans slot pl } })) k 0)

/-- The reel memory's structures (R389, R390). -/
def ringOf (bs : List Byte) : RingDesc :=
  let w := field bs 12 4
  let n := nbits w 6 0
  let sz := field bs 8 4
  { slotb := BitVec.ofNat 64 (field bs 0 8), slotsz := sz, peer := nbits w 15 9, dir := nbits w 8 8 == 1, nslot := n
    fillw := BitVec.ofNat 64 (field bs 16 8), mirw := BitVec.ofNat 64 (field bs 24 8)
    resv := nbits w 31 16 != 0 || nbits w 7 7 != 0 || n == 0 || decide (64 < n) || sz % 4096 != 0 ||
            field bs 16 8 % 8 != 0 || field bs 24 8 % 8 != 0 }
def reelEnt (bs : List Byte) : REnt :=
  let w := field bs 0 8
  { resv := nbits w 63 41 != 0 || field bs 32 32 != 0
    gpv := nbits w 40 40 == 1, gplan := nbits w 39 32, mb := nbits w 31 20, stage := nbits w 19 12
    outr := if nbits w 11 11 = 1 then some (nbits w 10 8) else none
    inr := if nbits w 7 7 = 1 then some (nbits w 6 4) else none
    stash := nbits w 3 2, kind := nbits w 1 0
    lrec := BitVec.ofNat 64 (field bs 8 8), argw := BitVec.ofNat 64 (field bs 16 8), gbase0 := BitVec.ofNat 64 (field bs 24 8) }
def Reel.load (r : Reel) (owner : W32) (first count : Nat) (bs : List Byte) : Reel :=
  { r with
    owner := owner
    stbase := BitVec.ofNat 64 (field bs 0 8)
    stsz := field bs 8 4
    stn := nbits (field bs 12 4) 6 0
    gbuf0 := BitVec.ofNat 64 (field bs 16 8)
    gbuf1 := BitVec.ofNat 64 (field bs 24 8)
    cfgResv := nbits (field bs 12 4) 31 7 != 0 || field bs 32 32 != 0
    rings := (List.range 8).map (fun i => (i, ringOf ((bs.drop (64 + 32 * i)).take 32)))
    ents := (List.range count).foldl (fun m i => fput m ((first + i) % 1024) (reelEnt ((bs.drop (320 + 64 * i)).take 64))) r.ents
    idleIn := 0
    idleRoom := 0
    idleStash := 0
    fresh := true }
def execReelload (k : Nat) (h : HArgs) (s : State) : Out :=
  onCtx s k h (fun _ =>
    let first := nbits h.a1.toNat 9 0
    let count := nbits h.a1.toNat 20 10
    if (s.pkg k).reel.st ≠ .idle then cmdOk s k 1
    else if 2 ^ 21 ≤ h.a1.toNat ∨ 1024 < count then cmdOk s k 2
    else match s.devFetch k h.ctx h.a0 (320 + 64 * count) with
      | none => cmdOk s k 2
      | some bs => cmdOk (s.modReel k (fun r => r.load h.ctx first count bs)) k 0)

/-- A micro-operation that an image may hold (R370). -/
def microOk (c : W16) : Bool :=
  let o := nbits c.toNat 15 11
  decide (o < 24) && ((o == 18 || o == 19 || o == 20) || nbits c.toNat 1 0 == 0)
def execHndload (k : Nat) (h : HArgs) (s : State) : Out :=
  onCtx s k h (fun _ =>
    if h.a0.toNat < 16 ∨ 31 < h.a0.toNat ∨ !(s.pkg k).feat 9 then cmdOk s k 2
    else match s.devFetch k h.ctx h.a1 32 with
      | none => cmdOk s k 2
      | some bs =>
        let img := (List.range 16).map (fun i => BitVec.ofNat 16 (field bs (2 * i) 2))
        if !img.all microOk then cmdOk s k 2
        else cmdOk (s.modPkg k (fun p => { p with fab := { p.fab with hnds := fput p.fab.hnds h.a0.toNat img } })) k 0)
def execFctlset (k : Nat) (h : HArgs) (s : State) : Out :=
  .next (if (s.pkg k).hostChange then s
    else if 2 ^ 32 ≤ h.a0.toNat then cmdOk s k 2
    else cmdOk (s.modPkg k (fun p => { p with fab := { p.fab with fctl := lo32 h.a0 &&& fctlMask } })) k 0)
/-- The master list that an argument gives: its valid bytes in order. -/
def mastersOf (v : W64) : List Nat :=
  (List.range 4).filterMap (fun i => if v.getLsbD (8 * i + 7) then some (nbits v.toNat (8 * i + 6) (8 * i)) else none)
def execMasters (k : Nat) (h : HArgs) (s : State) : Out :=
  let l := mastersOf h.a0
  .next (if (s.pkg k).hostChange then s
    else if 2 ^ 32 ≤ h.a0.toNat || l.isEmpty || l.any (fun q => decide ((s.pkg k).podsize ≤ q)) then cmdOk s k 2
    else cmdOk (s.modPkg k (fun p => { p with fab := { p.fab with masters := l, since := p.calRound } }.followMaster k)) k 0)

/-! #### Virtual memory (R238, R277) -/

/-- A change that the host asks for, as a handler of the context would: its status is written when it has completed. -/
def hostAsk (s : State) (k : Nat) (a : VmAsk) : State :=
  match a with
  | .param => cmdOk s k 2
  | .wait => s
  | .now v => cmdOk s k v
  | .begin_ s1 c =>
    let id := s1.nextId
    { s1 with nextId := id + 1 }.modPkg k (fun p => { p with vmch := p.vmch ++ [{ c with id := id, wid := none, d := none }] })
def execVmdup (k : Nat) (h : HArgs) (s : State) : Out :=
  onCtx s k h (fun _ => hostAsk s k (vmDup s k 0 h.ctx h.a0 (h.a2 ++ h.a1)))
def execVmsplit (k : Nat) (h : HArgs) (s : State) : Out := onCtx s k h (fun _ => hostAsk s k (vmSplit s k h.ctx h.a0))
def execVmprot (k : Nat) (h : HArgs) (s : State) : Out :=
  onCtx s k h (fun _ =>
    hostAsk s k (if 8 ≤ h.a2.toNat ∨ 2 ^ 32 ≤ h.a1.toNat then .param else vmProt s k h.ctx h.a0 h.a1.toNat h.a2.toNat))
/-- The host stands inside no core or cluster: a narrower scope reaches its whole package. -/
def execTlbinv (k : Nat) (h : HArgs) (s : State) : Out :=
  onCtx s k h (fun _ =>
    let sc := if h.a2.toNat = 3 then Scope.pod else .pkg
    let va := h.a0 &&& ~~~ 0xFFFF#64
    hostAsk s k (if 4 ≤ h.a2.toNat ∨ 2 ^ 32 ≤ h.a1.toNat then .param
      else .begin_ (s.tlbDrop k 0 h.ctx va h.a1.toNat sc) (tlbChange s k h.ctx va h.a1.toNat sc)))

/-! ### The command at the head of the queue (R429) -/

/-- The arguments of the command at HEAD. -/
def HostIf.cqArgs (h : HostIf) : HArgs :=
  { ctx := hi32 (h.cqWord 0), a0 := h.cqWord 16, a1 := h.cqWord 24, a2 := h.cqWord 32, a3 := h.cqWord 40, a4 := h.cqWord 48, a5 := h.cqWord 56 }
/-- The command at HEAD, by the meaning it has (R431). -/
def Pkg.nextCmd (p : Pkg) (k : Nat) : Option (State → Out) :=
  if !p.answers || !p.host.cqHas || p.hostChange then none
  else
    let a := p.host.cqArgs
    match nbits (p.host.cqWord 0).toNat 15 0 with
    | 1 => some (execCtxnew k a)
    | 2 => some (execCtxentry k a)
    | 3 => some (execCtxstop k a)
    | 4 => some (execCtxfree k a)
    | 5 => some (execCtxevt k a)
    | 8 => some (execPreempt k a)
    | 9 => some (execPreend k a)
    | 10 => some (execResume k a)
    | 16 => some (execPlanload k a)
    | 17 => some (execReelload k a)
    | 18 => some (execHndload k a)
    | 19 => some (execFctlset k a)
    | 20 => some (execMasters k a)
    | 21 => some (execVmdup k a)
    | 22 => some (execVmsplit k a)
    | 23 => some (execVmprot k a)
    | 24 => some (execTlbinv k a)
    | _ => none

/-! ### The control window (R415) -/

/-- Commands that are none are answered as they come to the head. -/
def Pkg.skipBad (p : Pkg) : Pkg := if p.answers && !p.hostChange then { p with host := cqSkip 4096 p.host } else p
/-- A write of the command queue's TAIL. -/
def Pkg.cqTail (p : Pkg) (v : W32) : Pkg :=
  let h := p.host
  if !p.answers then p
  else if tailOk (2 ^ (h.cqLog.toNat % 16)) h.cqTail h.cqHead v then { p with host := { h with cqTail := v } }.skipBad
  else mgmtEvent p 0x4D 6 64 0
def execHostCommandDoorbell (k : Nat) (v : W32) (s : State) : Out := .next (s.modPkg k (fun p => p.cqTail v))

/-- Write one 32-bit half of a 64-bit register. -/
def setHalf (x : W64) (hi : Bool) (v : W32) : W64 := if hi then v ++ lo32 x else hi32 x ++ v
/-- A write of a 4-byte word of a launch-queue descriptor. A write of offset 8 lets a queue that was refused be enabled again
(R288); TAIL is the doorbell, HEAD the device's. -/
def LQueue.write (q : LQueue) (off : Nat) (v : W32) : LQueue :=
  match off with
  | 0 => { q with base := setHalf q.base false v }
  | 4 => { q with base := setHalf q.base true v }
  | 8 => { q with ctl := v, err := false }
  | 20 => { q with ctx := v }
  | 24 => { q with resv := setHalf q.resv false v }
  | 28 => { q with resv := setHalf q.resv true v }
  | _ => q
/-- A write of one aligned 4-byte word of the control window. -/
def Pkg.regWord (p : Pkg) (r : Nat) (v : W32) : Pkg :=
  let h := p.host
  if !p.answers then p
  else if 0x1010 ≤ r ∧ r < 0x1020 then
    let i := 8 * (r - 0x1010)
    { p with host := { h with featReq := (h.featReq &&& ~~~ (0xFFFFFFFF#128 <<< i)) ||| (v.setWidth 128 <<< i) } }
  else if r = 0x1020 then (if v.getLsbD 0 then p.featureGo else p)
  else if r = 0x2000 then p.apertureSet 0 (v.setWidth 64)
  else if r = 0x2008 then p.apertureSet 8 (setHalf h.apva false v)
  else if r = 0x200C then p.apertureSet 8 (setHalf h.apva true v)
  else if 0x10000 ≤ r ∧ r < 0x10800 then p.modLq ((r - 0x10000) / 32) (fun q => q.write (r % 32) v)
  else if 0x20000 ≤ r ∧ r < 0x20200 then p.budgetSet (r - 0x20000) v
  else if r = 0x30000 then { p with host := { h with eqBase := setHalf h.eqBase false v } }
  else if r = 0x30004 then { p with host := { h with eqBase := setHalf h.eqBase true v } }
  else if r = 0x30008 then { p with host := { h with eqLog := v &&& 0x1F#32 } }
  else if r = 0x30010 then { p with host := { h with eqHead := v } }
  else if r = 0x40000 then p.pcapSet v
  else if r = 0x40008 then p.pstateSet v
  else if r = 0x50000 then ({ p with host := { h with cqBase := setHalf h.cqBase false v } }).skipBad
  else if r = 0x50004 then ({ p with host := { h with cqBase := setHalf h.cqBase true v } }).skipBad
  else if r = 0x50008 then ({ p with host := { h with cqLog := v &&& 0xF#32 } }).skipBad
  else if r = 0x5000C then p.cqTail v
  else p
/-- Whether a word of the window is a launch queue's TAIL. -/
def lqTailOf (r : Nat) : Option Nat := if 0x10000 ≤ r ∧ r < 0x10800 ∧ r % 32 = 12 then some ((r - 0x10000) / 32) else none
def Pkg.windowWord (p : Pkg) (r : Nat) (v : W32) : Pkg :=
  match lqTailOf r with
  | some q => if p.answers then p.lqTail q v else p
  | none => p.regWord r v
/-- A host write to the control window: 4 or 8 bytes, naturally aligned; any other is ignored. -/
def Pkg.windowWrite (p : Pkg) (r n : Nat) (v : W64) : Pkg :=
  if n = 4 ∧ r % 4 = 0 then p.windowWord r (lo32 v)
  else if n = 8 ∧ r % 8 = 0 then (p.windowWord r (lo32 v)).windowWord (r + 4) (hi32 v)
  else p
def execRegisterWrite (k r n : Nat) (v : W64) (s : State) : Out := .next (s.modPkg k (fun p => p.windowWrite r n v))

/-! ### What the window reads (R415, R417, R418, R423, R427 to R429) -/

def Pkg.infoWord (p : Pkg) (off : Nat) : W32 :=
  let cores : Nat := ((List.range 4).map (fun c => p.inService c * 2 ^ (9 * c))).sum
  let v : Nat := ((List.range 4).map (fun d => fget 0 p.phys.bankV d % 16 * 2 ^ (4 * d))).sum
  match off with
  | 0 => BitVec.ofNat 32 (Config.rev.toNat * 2 ^ 16 + 9)
  | 4 => Config.serial
  | 8 => BitVec.ofNat 32 (p.podsize % 256 * 256 + p.pkgid % 128)
  | 16 => BitVec.ofNat 32 cores
  | 20 => BitVec.ofNat 32 (cores / 2 ^ 32)
  | 24 => BitVec.ofNat 32 v
  | 28 => p.phys.hbmIn.setWidth 32
  | 32 => p.sec.fwver
  | 36 => p.sec.secver.setWidth 32
  | _ => 0
def wordOf (x : BitVec 128) (off : Nat) : W32 := x.extractLsb' (8 * off) 32
/-- A word of a launch-queue descriptor. What is reserved reads as zero; a nonzero value written there still closes the queue
(R9, R288). -/
def LQueue.word (q : LQueue) (off : Nat) : W32 :=
  match off with
  | 0 => lo32 q.base
  | 4 => hi32 q.base
  | 8 => q.ctl &&& 0xFF#32
  | 12 => q.tail
  | 16 => q.head
  | 20 => q.ctx
  | _ => 0
/-- An aligned 4-byte word of the control window. In recovery the information block alone answers, and
FEATOFF reads zero. -/
def Pkg.windowReg (p : Pkg) (r : Nat) : W32 :=
  let h := p.host
  if !p.phys.powered then 0
  else if r < 0x1000 then p.infoWord r
  else if !p.answers then 0
  else if r < 0x1010 then wordOf p.featOff (r - 0x1000)
  else if r < 0x1020 then wordOf h.featReq (r - 0x1010)
  else if r = 0x1020 then BitVec.ofNat 32 (h.featRej.toNat * 4 + h.featDone.toNat * 2)
  else if r = 0x2000 then h.apctx
  else if r = 0x2008 then lo32 h.apva
  else if r = 0x200C then hi32 h.apva
  else if 0x10000 ≤ r ∧ r < 0x10800 then (p.lq ((r - 0x10000) / 32)).word (r % 32)
  else if 0x20000 ≤ r ∧ r < 0x20200 then
    (match budgetClass (r - 0x20000) with | some c => BitVec.ofNat 32 (fget Pace.init p.phys.pace c).next | none => 0)
  else if r = 0x30000 then lo32 h.eqBase
  else if r = 0x30004 then hi32 h.eqBase
  else if r = 0x30008 then h.eqLog
  else if r = 0x3000C then h.eqTail
  else if r = 0x30010 then h.eqHead
  else if r = 0x30014 then h.eqLost
  else if r = 0x40000 then p.phys.pcap
  else if r = 0x40004 then p.phys.fclk
  else if r = 0x40008 then p.phys.pstate
  else if r = 0x50000 then lo32 h.cqBase
  else if r = 0x50004 then hi32 h.cqBase
  else if r = 0x50008 then h.cqLog
  else if r = 0x5000C then h.cqTail
  else if r = 0x50010 then h.cqHead
  else 0

/-- What a host read of the window gives: 4 or 8 bytes, naturally aligned; any other reads zero (R415). Reading changes nothing in
the machine, so no step is one (log 117). -/
def Pkg.windowRead (p : Pkg) (r n : Nat) : W64 :=
  if n = 4 ∧ r % 4 = 0 then (p.windowReg r).setWidth 64
  else if n = 8 ∧ r % 8 = 0 then p.windowReg (r + 4) ++ p.windowReg r
  else 0

end Sys2Proof.Machine
end

