-- ==== Sys2Proof/Machine/Dispatch.lean ====
section
/-! DEFINITION. The dispatch: one direct call of the meaning of each row of the operation table. -/

namespace Sys2Proof.Machine

def exec (i : Instr) (s : State) : Host.Outcome State Fault Refusal :=
  match i with
  | .iadd m d a b => Sys2Proof.Machine.execIadd m d a b s
  | .isub m d a b => Sys2Proof.Machine.execIsub m d a b s
  | .imul m d a b => Sys2Proof.Machine.execImul m d a b s
  | .imad m d a b => Sys2Proof.Machine.execImad m d a b s
  | .andB32 m d a b => Sys2Proof.Machine.execAndB32 m d a b s
  | .orB32 m d a b => Sys2Proof.Machine.execOrB32 m d a b s
  | .xorB32 m d a b => Sys2Proof.Machine.execXorB32 m d a b s
  | .shl m d a b => Sys2Proof.Machine.execShl m d a b s
  | .shr m d a b => Sys2Proof.Machine.execShr m d a b s
  | .sar m d a b => Sys2Proof.Machine.execSar m d a b s
  | .lea m d a b => Sys2Proof.Machine.execLea m d a b s
  | .sel m d a b => Sys2Proof.Machine.execSel m d a b s
  | .bfx m d a b => Sys2Proof.Machine.execBfx m d a b s
  | .bfi m d a b => Sys2Proof.Machine.execBfi m d a b s
  | .prmt m d a b => Sys2Proof.Machine.execPrmt m d a b s
  | .shf m d a b => Sys2Proof.Machine.execShf m d a b s
  | .lop3 m d a b => Sys2Proof.Machine.execLop3 m d a b s
  | .iaddi m d a j => Sys2Proof.Machine.execIaddi m d a j s
  | .shi m o n d a => Sys2Proof.Machine.execShi m o n d a s
  | .movi m d j => Sys2Proof.Machine.execMovi m d j s
  | .movl m d j => Sys2Proof.Machine.execMovl m d j s
  | .movh m d j => Sys2Proof.Machine.execMovh m d j s
  | .mov m w d a => Sys2Proof.Machine.execMov m w d a s
  | .popc m w d a => Sys2Proof.Machine.execPopc m w d a s
  | .clz m w d a => Sys2Proof.Machine.execClz m w d a s
  | .ctz m w d a => Sys2Proof.Machine.execCtz m w d a s
  | .brev m w d a => Sys2Proof.Machine.execBrev m w d a s
  | .iabs m w d a => Sys2Proof.Machine.execIabs m w d a s
  | .ineg m w d a => Sys2Proof.Machine.execIneg m w d a s
  | .iaddB64 m d a => Sys2Proof.Machine.execIaddB64 m d a s
  | .isubB64 m d a => Sys2Proof.Machine.execIsubB64 m d a s
  | .imulB64 m d a => Sys2Proof.Machine.execImulB64 m d a s
  | .iaddcB32 m d a => Sys2Proof.Machine.execIaddcB32 m d a s
  | .isubbB32 m d a => Sys2Proof.Machine.execIsubbB32 m d a s
  | .iaddcB64 m d a => Sys2Proof.Machine.execIaddcB64 m d a s
  | .isubbB64 m d a => Sys2Proof.Machine.execIsubbB64 m d a s
  | .imulh m t d a => Sys2Proof.Machine.execImulh m t d a s
  | .imadw m sg d a => Sys2Proof.Machine.execImadw m sg d a s
  | .idiv m t d a => Sys2Proof.Machine.execIdiv m t d a s
  | .irem m t d a => Sys2Proof.Machine.execIrem m t d a s
  | .imin m t d a => Sys2Proof.Machine.execImin m t d a s
  | .imax m t d a => Sys2Proof.Machine.execImax m t d a s
  | .iclamp m t d a => Sys2Proof.Machine.execIclamp m t d a s
  | .dp4 m t d a => Sys2Proof.Machine.execDp4 m t d a s
  | .shlB64 m d a => Sys2Proof.Machine.execShlB64 m d a s
  | .shrB64 m d a => Sys2Proof.Machine.execShrB64 m d a s
  | .sarB64 m d a => Sys2Proof.Machine.execSarB64 m d a s
  | .rotlB32 m d a => Sys2Proof.Machine.execRotlB32 m d a s
  | .rotlB64 m d a => Sys2Proof.Machine.execRotlB64 m d a s
  | .andB64 m d a => Sys2Proof.Machine.execAndB64 m d a s
  | .orB64 m d a => Sys2Proof.Machine.execOrB64 m d a s
  | .xorB64 m d a => Sys2Proof.Machine.execXorB64 m d a s
  | .pmov m d a => Sys2Proof.Machine.execPmov m d a s
  | .pset m d v => Sys2Proof.Machine.execPset m d v s
  | .p2g m d k => Sys2Proof.Machine.execP2g m d k s
  | .g2p m k a => Sys2Proof.Machine.execG2p m k a s
  | .plop3 m d a => Sys2Proof.Machine.execPlop3 m d a s
  | .icmpEq m w p a b => Sys2Proof.Machine.execIcmpEq m w p a b s
  | .icmpNe m w p a b => Sys2Proof.Machine.execIcmpNe m w p a b s
  | .icmpLtS m w p a b => Sys2Proof.Machine.execIcmpLtS m w p a b s
  | .icmpLtZ m w p a b => Sys2Proof.Machine.execIcmpLtZ m w p a b s
  | .faddF32 m d a b => Sys2Proof.Machine.execFaddF32 m d a b s
  | .fsubF32 m d a b => Sys2Proof.Machine.execFsubF32 m d a b s
  | .fmulF32 m d a b => Sys2Proof.Machine.execFmulF32 m d a b s
  | .ffmaF32 m d a b => Sys2Proof.Machine.execFfmaF32 m d a b s
  | .faddF64 m d a b => Sys2Proof.Machine.execFaddF64 m d a b s
  | .fmulF64 m d a b => Sys2Proof.Machine.execFmulF64 m d a b s
  | .ffmaF64 m d a b => Sys2Proof.Machine.execFfmaF64 m d a b s
  | .fcmpEq m w p a b => Sys2Proof.Machine.execFcmpEq m w p a b s
  | .fcmpLt m w p a b => Sys2Proof.Machine.execFcmpLt m w p a b s
  | .fcmpLe m w p a b => Sys2Proof.Machine.execFcmpLe m w p a b s
  | .fcmpUn m w p a b => Sys2Proof.Machine.execFcmpUn m w p a b s
  | .fabs m f d a => Sys2Proof.Machine.execFabs m f d a s
  | .fneg m f d a => Sys2Proof.Machine.execFneg m f d a s
  | .fsqrt m f d a => Sys2Proof.Machine.execFsqrt m f d a s
  | .frcp m f d a => Sys2Proof.Machine.execFrcp m f d a s
  | .frsqrt m f d a => Sys2Proof.Machine.execFrsqrt m f d a s
  | .fexp2 m f d a => Sys2Proof.Machine.execFexp2 m f d a s
  | .flog2 m f d a => Sys2Proof.Machine.execFlog2 m f d a s
  | .fsinpi m f d a => Sys2Proof.Machine.execFsinpi m f d a s
  | .fcospi m f d a => Sys2Proof.Machine.execFcospi m f d a s
  | .ftanh m f d a => Sys2Proof.Machine.execFtanh m f d a s
  | .fclass m f d a => Sys2Proof.Machine.execFclass m f d a s
  | .fgetexp m f d a => Sys2Proof.Machine.execFgetexp m f d a s
  | .fgetman m f d a => Sys2Proof.Machine.execFgetman m f d a s
  | .frint m f d a => Sys2Proof.Machine.execFrint m f d a s
  | .fadd m f d a => Sys2Proof.Machine.execFadd m f d a s
  | .fsub m f d a => Sys2Proof.Machine.execFsub m f d a s
  | .fmul m f d a => Sys2Proof.Machine.execFmul m f d a s
  | .ffma m f d a => Sys2Proof.Machine.execFfma m f d a s
  | .fmin m f d a => Sys2Proof.Machine.execFmin m f d a s
  | .fmax m f d a => Sys2Proof.Machine.execFmax m f d a s
  | .fcopysign m f d a => Sys2Proof.Machine.execFcopysign m f d a s
  | .fdiv m f d a => Sys2Proof.Machine.execFdiv m f d a s
  | .fscale m f d a => Sys2Proof.Machine.execFscale m f d a s
  | .fdot2 m f d a => Sys2Proof.Machine.execFdot2 m f d a s
  | .cvt m x y d a => Sys2Proof.Machine.execCvt m x y d a s
  | .cvtPack m k d a => Sys2Proof.Machine.execCvtPack m k d a s
  | .lred m o t d a => Sys2Proof.Machine.execLred m o t d a s
  | .lscan m e o t d a => Sys2Proof.Machine.execLscan m e o t d a s
  | .vote m v d a => Sys2Proof.Machine.execVote m v d a s
  | .ballot m d a => Sys2Proof.Machine.execBallot m d a s
  | .matchLanes m w d a => Sys2Proof.Machine.execMatchLanes m w d a s
  | .shfl m k d a => Sys2Proof.Machine.execShfl m k d a s
  | .bra m o n p => Sys2Proof.Machine.execBra m o n p s
  | .call m o n p => Sys2Proof.Machine.execCall m o n p s
  | .jmp m a => Sys2Proof.Machine.execJmp m a s
  | .callr m d a => Sys2Proof.Machine.execCallr m d a s
  | .ret m a => Sys2Proof.Machine.execRet m a s
  | .brx m a => Sys2Proof.Machine.execBrx m a s
  | .exit m => Sys2Proof.Machine.execExit m s
  | .trap m n => Sys2Proof.Machine.execTrap m n s
  | .brk m => Sys2Proof.Machine.execBrk m s
  | .nop m => Sys2Proof.Machine.execNop m s
  | .yield m => Sys2Proof.Machine.execYield m s
  | .pause m => Sys2Proof.Machine.execPause m s
  | .wsb m => Sys2Proof.Machine.execWsb m s
  | .rjEnter m n => Sys2Proof.Machine.execRjEnter m n s
  | .rjQuit m n => Sys2Proof.Machine.execRjQuit m n s
  | .rjWait m n => Sys2Proof.Machine.execRjWait m n s
  | .rjGet m d n => Sys2Proof.Machine.execRjGet m d n s
  | .rjSet m d n => Sys2Proof.Machine.execRjSet m d n s
  | .rjClr m n => Sys2Proof.Machine.execRjClr m n s
  | .ldGB32 m o d a => Sys2Proof.Machine.execLdGB32 m o d a s
  | .stGB32 m o d a => Sys2Proof.Machine.execStGB32 m o d a s
  | .ldGB64 m o d a => Sys2Proof.Machine.execLdGB64 m o d a s
  | .stGB64 m o d a => Sys2Proof.Machine.execStGB64 m o d a s
  | .ldGB128 m o d a => Sys2Proof.Machine.execLdGB128 m o d a s
  | .stGB128 m o d a => Sys2Proof.Machine.execStGB128 m o d a s
  | .ldSB32 m o d a => Sys2Proof.Machine.execLdSB32 m o d a s
  | .stSB32 m o d a => Sys2Proof.Machine.execStSB32 m o d a s
  | .ld m u t r d a => Sys2Proof.Machine.execLd m u t r d a s
  | .st m u t r d a => Sys2Proof.Machine.execSt m u t r d a s
  | .ldkLow m d n => Sys2Proof.Machine.execLdkLow m d n s
  | .ldkHigh m d n => Sys2Proof.Machine.execLdkHigh m d n s
  | .ldkReg m d a => Sys2Proof.Machine.execLdkReg m d a s
  | .prefG m a => Sys2Proof.Machine.execPrefG m a s
  | .atom m o w d a => Sys2Proof.Machine.execAtom m o w d a s
  | .cas m w d a => Sys2Proof.Machine.execCas m w d a s
  | .redOp m o w d a => Sys2Proof.Machine.execRedOp m o w d a s
  | .fncIss m d n => Sys2Proof.Machine.execFncIss m d n s
  | .fncWt m a => Sys2Proof.Machine.execFncWt m a s
  | .ownGive m a => Sys2Proof.Machine.execOwnGive m a s
  | .ownTake m a => Sys2Proof.Machine.execOwnTake m a s
  | .ownTest m d a => Sys2Proof.Machine.execOwnTest m d a s
  | .rngWait m d a => Sys2Proof.Machine.execRngWait m d a s
  | .rngRel m a => Sys2Proof.Machine.execRngRel m a s
  | .mrgFree m a => Sys2Proof.Machine.execMrgFree m a s
  | .bbInit m d a => Sys2Proof.Machine.execBbInit m d a s
  | .bbExp m d a => Sys2Proof.Machine.execBbExp m d a s
  | .bbArv m d a => Sys2Proof.Machine.execBbArv m d a s
  | .bbWt m a => Sys2Proof.Machine.execBbWt m a s
  | .bop m d a => Sys2Proof.Machine.execBop m d a s
  | .halloc m d a => Sys2Proof.Machine.execHalloc m d a s
  | .hfree m a => Sys2Proof.Machine.execHfree m a s
  | .obRsv m a => Sys2Proof.Machine.execObRsv m a s
  | .obRel m a => Sys2Proof.Machine.execObRel m a s
  | .tcCopy m a => Sys2Proof.Machine.execTcCopy m a s
  | .tcOb m a => Sys2Proof.Machine.execTcOb m a s
  | .tcMcast m a => Sys2Proof.Machine.execTcMcast m a s
  | .permLoad m d a => Sys2Proof.Machine.execPermLoad m d a s
  | .mxCfg m a => Sys2Proof.Machine.execMxCfg m a s
  | .mxStat m a => Sys2Proof.Machine.execMxStat m a s
  | .mxSwap m => Sys2Proof.Machine.execMxSwap m s
  | .mxStrm m a => Sys2Proof.Machine.execMxStrm m a s
  | .mxDrain m d a => Sys2Proof.Machine.execMxDrain m d a s
  | .mxZero m a => Sys2Proof.Machine.execMxZero m a s
  | .mxWait m => Sys2Proof.Machine.execMxWait m s
  | .mxSave m a => Sys2Proof.Machine.execMxSave m a s
  | .mxRest m a => Sys2Proof.Machine.execMxRest m a s
  | .rst m dep spr d a => Sys2Proof.Machine.execRst m dep spr d a s
  | .rld m dep spr d a => Sys2Proof.Machine.execRld m dep spr d a s
  | .ratom m tok dep spr d a => Sys2Proof.Machine.execRatom m tok dep spr d a s
  | .rcopy m tok dep spr d a => Sys2Proof.Machine.execRcopy m tok dep spr d a s
  | .tokJoin m d a => Sys2Proof.Machine.execTokJoin m d a s
  | .tokTest m d a => Sys2Proof.Machine.execTokTest m d a s
  | .tokWait m a => Sys2Proof.Machine.execTokWait m a s
  | .collRun m d a => Sys2Proof.Machine.execCollRun m d a s
  | .collWt m d a => Sys2Proof.Machine.execCollWt m d a s
  | .reelGo m d a => Sys2Proof.Machine.execReelGo m d a s
  | .reelStat m d a => Sys2Proof.Machine.execReelStat m d a s
  | .evtSig m a => Sys2Proof.Machine.execEvtSig m a s
  | .evtWt m a => Sys2Proof.Machine.execEvtWt m a s
  | .regGrow m n => Sys2Proof.Machine.execRegGrow m n s
  | .regShrink m n => Sys2Proof.Machine.execRegShrink m n s
  | .qpush m d => Sys2Proof.Machine.execQpush m d s
  | .qpop m d => Sys2Proof.Machine.execQpop m d s
  | .spawn m d a => Sys2Proof.Machine.execSpawn m d a s
  | .tret m => Sys2Proof.Machine.execTret m s
  | .ctxPark m => Sys2Proof.Machine.execCtxPark m s
  | .sysc m n => Sys2Proof.Machine.execSysc m n s
  | .vmCommit m d a => Sys2Proof.Machine.execVmCommit m d a s
  | .vmFree m d a => Sys2Proof.Machine.execVmFree m d a s
  | .vmProt m d a => Sys2Proof.Machine.execVmProt m d a s
  | .vmDup m d a => Sys2Proof.Machine.execVmDup m d a s
  | .vmSplit m d a => Sys2Proof.Machine.execVmSplit m d a s
  | .tlbInv m a => Sys2Proof.Machine.execTlbInv m a s
  | .detRng m a => Sys2Proof.Machine.execDetRng m a s
  | .detFlush m => Sys2Proof.Machine.execDetFlush m s
  | .recMark m a => Sys2Proof.Machine.execRecMark m a s
  | .tbar m => Sys2Proof.Machine.execTbar m s
  | .tbarArv m d => Sys2Proof.Machine.execTbarArv m d s
  | .tbarWt m a => Sys2Proof.Machine.execTbarWt m a s
  | .cbar m => Sys2Proof.Machine.execCbar m s
  | .cbarArv m d => Sys2Proof.Machine.execCbarArv m d s
  | .cbarWt m a => Sys2Proof.Machine.execCbarWt m a s
  | .csrr m r d => Sys2Proof.Machine.execCsrr m r d s
  | .csrw m r d => Sys2Proof.Machine.execCsrw m r d s
  | .csrx m r d => Sys2Proof.Machine.execCsrx m r d s
  | .handlerEntry w => Sys2Proof.Machine.execHandlerEntry w s
  | .regGrant n => Sys2Proof.Machine.execRegGrant n s
  | .yieldRelease w => Sys2Proof.Machine.execYieldRelease w s
  | .pauseExpiry w => Sys2Proof.Machine.execPauseExpiry w s
  | .scoreboardWrite w l g => Sys2Proof.Machine.execScoreboardWrite w l g s
  | .queuePushDone w => Sys2Proof.Machine.execQueuePushDone w s
  | .queuePopDone w => Sys2Proof.Machine.execQueuePopDone w s
  | .ownTakeDone w => Sys2Proof.Machine.execOwnTakeDone w s
  | .ringWaitDone w => Sys2Proof.Machine.execRingWaitDone w s
  | .fencePerformed w q => Sys2Proof.Machine.execFencePerformed w q s
  | .accessPerform n => Sys2Proof.Machine.execAccessPerform n s
  | .pageWalkComplete k e x v => Sys2Proof.Machine.execPageWalkComplete k e x v s
  | .bankAluApply k n => Sys2Proof.Machine.execBankAluApply k n s
  | .bopComplete k n => Sys2Proof.Machine.execBopComplete k n s
  | .vmChangeComplete k n => Sys2Proof.Machine.execVmChangeComplete k n s
  | .evtWaitRecheck w => Sys2Proof.Machine.execEvtWaitRecheck w s
  | .commandAccept w => Sys2Proof.Machine.execCommandAccept w s
  | .engineUnitRead k n bad => Sys2Proof.Machine.execEngineUnitRead k n bad s
  | .engineUnitWrite k n => Sys2Proof.Machine.execEngineUnitWrite k n s
  | .ringSlotFill k n => Sys2Proof.Machine.execRingSlotFill k n s
  | .planeFillDone t => Sys2Proof.Machine.execPlaneFillDone t s
  | .streamResults t => Sys2Proof.Machine.execStreamResults t s
  | .drainWrite t => Sys2Proof.Machine.execDrainWrite t s
  | .mxWaitDone w => Sys2Proof.Machine.execMxWaitDone w s
  | .obRelDone w => Sys2Proof.Machine.execObRelDone w s
  | .budgetPeriodStart k => Sys2Proof.Machine.execBudgetPeriodStart k s
  | .launchDoorbell k q v => Sys2Proof.Machine.execLaunchDoorbell k q v s
  | .frontEndTake k q => Sys2Proof.Machine.execFrontEndTake k q s
  | .launchReady k n => Sys2Proof.Machine.execLaunchReady k n s
  | .launchRecheckTimer k n => Sys2Proof.Machine.execLaunchRecheckTimer k n s
  | .launchAging k n => Sys2Proof.Machine.execLaunchAging k n s
  | .callerHandover k => Sys2Proof.Machine.execCallerHandover k s
  | .corpsPlacement k n => Sys2Proof.Machine.execCorpsPlacement k n s
  | .troupePublish t => Sys2Proof.Machine.execTroupePublish t s
  | .graphNodeStart k n j => Sys2Proof.Machine.execGraphNodeStart k n j s
  | .graphNodeDone k n j => Sys2Proof.Machine.execGraphNodeDone k n j s
  | .deferredApply k n => Sys2Proof.Machine.execDeferredApply k n s
  | .drainDeadline k x => Sys2Proof.Machine.execDrainDeadline k x s
  | .evictionDeadline k x => Sys2Proof.Machine.execEvictionDeadline k x s
  | .preemptSaveImage t => Sys2Proof.Machine.execPreemptSaveImage t s
  | .troupeLeavesCore t => Sys2Proof.Machine.execTroupeLeavesCore t s
  | .restorePlacement k n => Sys2Proof.Machine.execRestorePlacement k n s
  | .steerReply k => Sys2Proof.Machine.execSteerReply k s
  | .eccu k n u => Sys2Proof.Machine.execEccu k n u s
  | .slotStart k => Sys2Proof.Machine.execSlotStart k s
  | .frameReceive k n bad => Sys2Proof.Machine.execFrameReceive k n bad s
  | .masterLoss k => Sys2Proof.Machine.execMasterLoss k s
  | .freeRunExpiry k => Sys2Proof.Machine.execFreeRunExpiry k s
  | .laneFailure k n l => Sys2Proof.Machine.execLaneFailure k n l s
  | .laneRejoin k n l => Sys2Proof.Machine.execLaneRejoin k n l s
  | .storePacket k => Sys2Proof.Machine.execStorePacket k s
  | .loadPacket k => Sys2Proof.Machine.execLoadPacket k s
  | .replyPacket k => Sys2Proof.Machine.execReplyPacket k s
  | .faultReplyPacket k => Sys2Proof.Machine.execFaultReplyPacket k s
  | .atomicPacket k => Sys2Proof.Machine.execAtomicPacket k s
  | .copySegmentPacket k => Sys2Proof.Machine.execCopySegmentPacket k s
  | .vectorStorePart k => Sys2Proof.Machine.execVectorStorePart k s
  | .vectorLoadPart k => Sys2Proof.Machine.execVectorLoadPart k s
  | .vectorAtomicPart k => Sys2Proof.Machine.execVectorAtomicPart k s
  | .landedNotice k => Sys2Proof.Machine.execLandedNotice k s
  | .releaseNotice k => Sys2Proof.Machine.execReleaseNotice k s
  | .appliedCountNotice k => Sys2Proof.Machine.execAppliedCountNotice k s
  | .forwardedCountNotice k => Sys2Proof.Machine.execForwardedCountNotice k s
  | .relayedAppliedCountNotice k => Sys2Proof.Machine.execRelayedAppliedCountNotice k s
  | .holdFreeNotice k => Sys2Proof.Machine.execHoldFreeNotice k s
  | .expiryNotice k => Sys2Proof.Machine.execExpiryNotice k s
  | .invalidateNotice k => Sys2Proof.Machine.execInvalidateNotice k s
  | .holdExpiry k n => Sys2Proof.Machine.execHoldExpiry k n s
  | .collEntryStart k n j => Sys2Proof.Machine.execCollEntryStart k n j s
  | .collEntryComplete k n j => Sys2Proof.Machine.execCollEntryComplete k n j s
  | .reducerFold k n => Sys2Proof.Machine.execReducerFold k n s
  | .reelWait k => Sys2Proof.Machine.execReelWait k s
  | .reelGather k => Sys2Proof.Machine.execReelGather k s
  | .reelRun k => Sys2Proof.Machine.execReelRun k s
  | .reelHandoff k => Sys2Proof.Machine.execReelHandoff k s
  | .bootRom k im => Sys2Proof.Machine.execBootRom k im s
  | .recoveryImage k im => Sys2Proof.Machine.execRecoveryImage k im s
  | .mrExtend k n v => Sys2Proof.Machine.execMrExtend k n v s
  | .attestationRequest k v u => Sys2Proof.Machine.execAttestationRequest k v u s
  | .featureGo k => Sys2Proof.Machine.execFeatureGo k s
  | .apertureRead k v n => Sys2Proof.Machine.execApertureRead k v n s
  | .apertureWrite k v bs bad => Sys2Proof.Machine.execApertureWrite k v bs bad s
  | .apertureControlWrite k r v => Sys2Proof.Machine.execApertureControlWrite k r v s
  | .correctedError k u n v => Sys2Proof.Machine.execCorrectedError k u n v s
  | .uncorrectableError k u n v => Sys2Proof.Machine.execUncorrectableError k u n v s
  | .selfTestEnd k u n ok => Sys2Proof.Machine.execSelfTestEnd k u n ok s
  | .budgetWrite k r v => Sys2Proof.Machine.execBudgetWrite k r v s
  | .pcapWrite k v => Sys2Proof.Machine.execPcapWrite k v s
  | .pstateWrite k v => Sys2Proof.Machine.execPstateWrite k v s
  | .temperatureEvent k n => Sys2Proof.Machine.execTemperatureEvent k n s
  | .hostCommandDoorbell k v => Sys2Proof.Machine.execHostCommandDoorbell k v s
  | .ctxnew k h => Sys2Proof.Machine.execCtxnew k h s
  | .ctxentry k h => Sys2Proof.Machine.execCtxentry k h s
  | .ctxstop k h => Sys2Proof.Machine.execCtxstop k h s
  | .ctxfree k h => Sys2Proof.Machine.execCtxfree k h s
  | .ctxevt k h => Sys2Proof.Machine.execCtxevt k h s
  | .preempt k h => Sys2Proof.Machine.execPreempt k h s
  | .preend k h => Sys2Proof.Machine.execPreend k h s
  | .resume k h => Sys2Proof.Machine.execResume k h s
  | .planload k h => Sys2Proof.Machine.execPlanload k h s
  | .reelload k h => Sys2Proof.Machine.execReelload k h s
  | .hndload k h => Sys2Proof.Machine.execHndload k h s
  | .fctlset k h => Sys2Proof.Machine.execFctlset k h s
  | .masters k h => Sys2Proof.Machine.execMasters k h s
  | .vmdup k h => Sys2Proof.Machine.execVmdup k h s
  | .vmsplit k h => Sys2Proof.Machine.execVmsplit k h s
  | .vmprot k h => Sys2Proof.Machine.execVmprot k h s
  | .tlbinv k h => Sys2Proof.Machine.execTlbinv k h s
  | .registerWrite k r n v => Sys2Proof.Machine.execRegisterWrite k r n v s
  | .fixedLatencyResult w => Sys2Proof.Machine.execFixedLatencyResult w s
  | .stallWaitExpiry w => Sys2Proof.Machine.execStallWaitExpiry w s
  | .powerCapReached k => Sys2Proof.Machine.execPowerCapReached k s

end Sys2Proof.Machine
end

