-- ==== Sys2Proof/Machine/Group.lean ====
section
/-! DEFINITION. Fetch and decode of an issue group (R77 to R85, R91, R92), what makes a path ready (R86, R88), STALLCHK (R90), and
the issue of a group as a whole (R84, R85, R310). -/

namespace Sys2Proof.Machine

/-! ### Fetch -/

/-- A word as a fetch finds it. -/
inductive Fetched
  | word (x : W32)
  | fault (c : Cause)
  | poison
  deriving DecidableEq, Repr
/-- A fetch through a forwarding leaf: the home's own tables decide (R272). -/
def State.fetchHome (s : State) (home : Nat) (ctx : W32) (sys : Bool) (va : W64) : Checked :=
  match s.devLeaf home ctx va, s.devPlace home ctx va with
  | some l, .at_ key c => if (pteSys l && !sys) || !pteX l then .bad .prot 0 else .ok (.at_ key c)
  | _, _ => .bad .page 0
/-- Fetch the word at an address for a wave. -/
def State.fetchWord (s : State) (w : Nat) (va : W64) : Fetched :=
  let v := s.wave w
  let t := s.troupe v.tid
  let get := fun (key : Nat) =>
    if s.poisoned key 4 then Fetched.poison else .word (BitVec.ofNat 32 (leNat (s.load key 4)))
  match s.checkG t.pkg t.core t.ctx v.sys .fetch va 4 with
  | .bad c _ => .fault c
  | .ok (.at_ key _) => get key
  | .ok (.fwd h) =>
    (match s.fetchHome h t.ctx v.sys va with
     | .ok (.at_ key _) => get key
     | .ok _ => .fault .page
     | .bad c _ => .fault c)
  | .ok .absent => .fault .page

/-! ### One instruction (R77 to R79, R91)

A place in a packet is counted in half words: `2 * i` is word `i`, or code A of a pair word there, `2 * i + 1` is code B. -/

/-- What decode needs: the packet's address and words, the kernel's dictionary, the wave's allotment, the features. -/
structure Source where
  base : W64
  words : List Fetched
  dict : Option (List W32)
  allot : Nat
  lacks : Instr → Bool

def Source.pcAt (x : Source) (p : Nat) : W64 := x.base + BitVec.ofNat 64 (2 * p)
def Source.at (x : Source) (p : Nat) : Fetched := x.words.getD (p / 2) (.word 0)
/-- The code at a place of a pair word. -/
def codeAt (w : W32) (p : Nat) : BitVec 15 := if p % 2 = 0 then codeA w else codeB w
/-- An empty code issues nothing and takes no cycle (R78). -/
def Source.skip (x : Source) : Nat → Nat → Nat
  | 0, p => p
  | f + 1, p =>
    if 6 ≤ p then 6
    else match x.at p with
      | .word w => if kindOf w = .pairW ∧ x.dict.isSome ∧ codeAt w p = 0 then x.skip f (p + 1) else p
      | _ => p

/-- One instruction of a packet: itself, the cause that decode gives, or what became of a word's fetch. -/
inductive Item
  | ins (i : Instr)
  | bad (sub : Sub)
  | fault (c : Cause) (va : W64)
  | poison
  deriving DecidableEq, Repr
def DecCause.sub : DecCause → Sub
  | .opcode => .opcode
  | .pfx => .pfx
  | .dict => .dict
  | .rsvd => .rsvd
  | .range => .range
  | .pair => .pair
  | .chain => .chain
  | .group => .group
/-- A word that names an instruction of a feature not accepted is no instruction, whatever else is wrong with it (R418). -/
def Source.unknown (x : Source) (w : W32) : Bool :=
  match nameBase ⟨none, none, (Fields.ofWord w).s, (Fields.ofWord w).c⟩ (Fields.ofWord w) with
  | some n => x.lacks n.1
  | none => false
/-- The last checks of R91 on what decode has named; `w` is the base word. -/
def Source.judge (x : Source) (w : W32) (d : Decoded) : Item :=
  match d with
  | .bad .dict => .bad .dict
  | .bad c => if x.unknown w then .bad .opcode else .bad (DecCause.sub c)
  | .ok i =>
    if x.lacks i then .bad .opcode
    else match i.operandFault x.allot with
      | some c => .bad c
      | none => .ins i
/-- The first word of a list that could not be fetched. -/
def badFetch (base : W64) : Nat → List Fetched → Option Item
  | _, [] => none
  | _, .poison :: _ => some .poison
  | n, .fault c :: _ => some (.fault c (base + BitVec.ofNat 64 (4 * n)))
  | n, .word _ :: r => badFetch base (n + 1) r
def Fetched.get : Fetched → W32
  | .word w => w
  | _ => 0
/-- The instruction at a place, and the place after it. -/
def Source.item (x : Source) (p : Nat) : Item × Nat :=
  let rest := x.words.drop (p / 2)
  match badFetch x.base (p / 2) (rest.take 1), rest with
  | some e, _ => (e, 6)
  | none, [] => (.bad .opcode, 6)
  | none, f :: _ =>
    let w := f.get
    if kindOf w = .pairW then
      let c := codeAt w p
      let e := match x.dict with | some ws => if (codeOf c).v then ws.getD (codeOf c).idx.toNat 0 else 0 | none => 0
      (x.judge e (decodeCode x.dict c), p + 1)
    else if p % 2 = 1 then (.bad .opcode, 6)
    else
      let r := decodeInsn (rest.map Fetched.get)
      match badFetch x.base (p / 2) (rest.take r.2) with
      | some e => (e, 6)
      | none => (x.judge ((rest.map Fetched.get).getD (r.2 - 1) 0) r.1, p + 2 * r.2)

/-! ### A group (R83, R84, R92) -/

/-- An instruction of a group and its PC. -/
structure Member where
  instr : Instr
  pc : W64
  deriving DecidableEq, Repr
/-- A group: its members and where the path goes on; the fate that refuses it; a word that has no data; or a packet's rest
that holds empty codes only. -/
inductive Group
  | run (ms : List Member) (npc : W64)
  | stop (n : Nat) (pc : W64) (c : Cause) (sub : Byte) (va : W64)
  | poison
  | empty (npc : W64)
  deriving DecidableEq, Repr

/-- Whether an instruction's C chains to the next. -/
def chainsOn (i : Instr) : Bool := match i.mods with | some m => m.c | none => false
/-- The extra cycles of a stall class (R69). -/
def stallOf (i : Instr) : Nat :=
  match i.mods with
  | none => 0
  | some m => if m.s = 0 then 0 else if m.s = 1 then 1 else if m.s = 2 then 3 else 5
/-- Whether two members name one destination. -/
def clash : List (List Dst) → Bool
  | [] => false
  | d :: ds => ds.any (fun e => e.any (fun c => d.contains c)) || clash ds
/-- Decode the rest of a group from a place: its members so far, whether a chain has failed. -/
def Source.decode (x : Source) (first : W64) : Nat → Nat → List Member → Bool → Group
  | 0, _, _, _ => .stop 0 first .illegal Sub.chain.code 0
  | f + 1, p, ms, bad =>
    match x.item p with
    | (.bad c, _) => .stop ms.length (x.pcAt p) .illegal c.code 0
    | (.fault c va, _) => .stop 0 first c 0 va
    | (.poison, _) => .poison
    | (.ins i, p1) =>
      let p2 := x.skip 6 p1
      let ms1 := ms ++ [⟨i, x.pcAt p⟩]
      let bad1 := bad || ms.any (fun m => m.instr.pipe == i.pipe)
      if chainsOn i && p2 < 6 then x.decode first f p2 ms1 bad1
      else if bad1 || chainsOn i then .stop 0 first .illegal Sub.chain.code 0
      else if clash (ms1.map (fun m => m.instr.writeCells)) then .stop 0 first .illegal Sub.group.code 0
      else .run ms1 (x.pcAt p2)
/-- The words of a packet and what decodes them, for a wave. -/
def State.source (s : State) (w : Nat) (pc : W64) : Source :=
  let v := s.wave w
  let t := s.troupe v.tid
  let base := BitVec.ofNat 64 (pc.toNat / 12 * 12)
  { base := base
    words := (List.range 3).map (fun i => s.fetchWord w (base + BitVec.ofNat 64 (4 * i)))
    dict := t.dict
    allot := v.allot
    lacks := fun i => match i.feature with | some f => !(s.pkg t.pkg).feat f | none => false }
/-- The group that starts at a PC. A PC that is no place of a packet is no instruction's. -/
def State.group (s : State) (w : Nat) (pc : W64) : Group :=
  let x := s.source w pc
  if pc.toNat % 2 = 1 then .stop 0 pc .illegal Sub.opcode.code 0
  else
    let p := x.skip 6 ((pc - x.base).toNat / 2)
    if 6 ≤ p then .empty (x.pcAt 6) else x.decode (x.pcAt p) 6 p [] false

/-! ### Ready paths (R20, R86, R88) -/

/-- A path: its PC and its lanes (R20). -/
structure Path where
  pc : W64
  lanes : LaneMask
  deriving DecidableEq, Repr
/-- The paths of a wave, the most populous first, ties to the lower PC (R21). -/
def Wave.paths (v : Wave) : List Path :=
  let pcs := (((List.range 32).filter (fun l => (v.lane l).st == .run)).map (fun l => (v.lane l).pc)).dedup
  sortBy (fun (p : Path) => (32 - popCount p.lanes) * 2 ^ 64 + p.pc.toNat) (pcs.map (fun pc => ⟨pc, v.atPc pc⟩))
/-- Scoreboarded results that are pending in a lane (R88). -/
def Lane.pending (l : Lane) (d : Dst) : Bool := l.pend.any (fun e => e.dst == d && e.due.isNone)
/-- The second registers of pairs that an operand block asks for (R222, R227, R228): no field of the instruction names them. -/
def State.pairCells (s : State) (w : Nat) (lanes : LaneMask) (i : Instr) : List Dst :=
  let blk := fun (m : Mods) (a : Reg) (k : Nat) =>
    ((lanesOf lanes).find? (fun l => m.active (s.lane w l))).elim 0 (fun l => (s.src w l (BitVec.ofNat 7 (a.toNat + k))).toNat)
  let snd := fun (d : Reg) (b : Bool) => if b then (dstRegs d 2).drop 1 else []
  match i with
  | .rld m _ _ d a => snd d (nbits (blk m a 2) 0 0 == 1)
  | .ratom m _ _ _ d a => snd d (nbits (blk m a 2) 9 8 == 3)
  | .mxDrain m d a => snd d (nbits (blk m a 0) 15 13 == 6)
  | _ => []
/-- What a member writes. -/
def State.writesOf (s : State) (w : Nat) (lanes : LaneMask) (i : Instr) : List Dst := i.writeCells ++ s.pairCells w lanes i
def Group.members : Group → List Member
  | .run ms _ => ms
  | _ => []
/-- Lanes whose recorded event waits at its bank while the log is full: their path is not ready (R411). -/
def State.logFull (s : State) (w : Nat) (lanes : LaneMask) : Bool :=
  let t := s.troupe (s.wave w).tid
  t.hdr.rcd && (s.pkg t.pkg).bankQ.any (fun b => b.wid == w && b.rcd && b.ent.isNone && lanes.getLsbD b.lane && s.logRoom t.pkg b.launch == 0)
/-- The addresses that the fetch of a packet translates. -/
def fetchVas (pc : W64) : List W64 := [BitVec.ofNat 64 (pc.toNat / 12 * 12), BitVec.ofNat 64 (pc.toNat / 12 * 12 + 8)]
/-- The path is not one that waits as it stands; the stall counts of its lanes have passed, and what a `wsb` waits for has
come; no member reads or writes a pending register; the wave's accesses are not held back. -/
def State.pathReady (s : State) (w : Nat) (p : Path) (g : Group) : Bool :=
  let v := s.wave w
  let ms := g.members
  let cells := (ms.map (fun m => m.instr.readCells ++ s.writesOf w p.lanes m.instr)).flatten
  !(v.waits.any (fun r => r.lanes == p.lanes)) &&
  (lanesOf p.lanes).all (fun l =>
    let x := v.lane l
    x.readyAt ≤ s.clockOf w && !(x.wsb && !x.pend.isEmpty) && cells.all (fun d => !x.pending d)) &&
  !(ms.any (fun m => m.instr.pipe == some .m) && s.memHeld w) && !s.logFull w p.lanes &&
  !({ s with cur := { s.cur with wid := w } }).walkWait .g (fetchVas p.pc)

/-! ### STALLCHK (R90) -/

/-- An engine, array or remote command (R102). -/
def isEng (i : Instr) : Bool := match i.fields with | some f => f.1 == 60 | none => false
/-- Instructions that read their operands in the electing lane alone, and those that take one value from the lowest active
lane (R43, R164, R166, R171, R191, R198, R200, R204). -/
def electsLane : Instr → Bool
  | .spawn _ _ _ => true
  | .bop _ _ _ => true
  | .rngWait _ _ _ => true
  | .rngRel _ _ => true
  | .mrgFree _ _ => true
  | .bbInit _ _ _ => true
  | .bbExp _ _ _ => true
  | .bbArv _ _ _ => true
  | .bbWt _ _ => true
  | .fncWt _ _ => true
  | .rjSet _ _ _ => true
  | .tbarWt _ _ => true
  | .cbarWt _ _ => true
  | .csrr _ _ _ => false
  | .csrw _ _ n => csrPerWave n.toNat
  | .csrx _ _ n => csrPerWave n.toNat
  | i => isEng i || i.opds.srcs.any (fun o => match o with | .blk _ _ => true | _ => false)
/-- What an instruction reads in a lane of its path: its guard in every lane, its sources where it is active. -/
def State.readsIn (s : State) (w : Nat) (lanes : LaneMask) (i : Instr) (l : Nat) : List Dst :=
  match i.mods with
  | none => []
  | some m =>
    let act := (lanesOf lanes).filter (fun n => m.active (s.lane w n))
    let mine := if electsLane i then act.head? == some l else act.contains l
    if i.isFB || mine then i.readCells else guardCells m
/-- A fixed-latency result on its way. -/
def Lane.early (l : Lane) (now : Nat) (d : Dst) : Bool :=
  l.pend.any (fun e => e.dst == d && (match e.due with | some c => decide (now < c) | none => false))
/-- The lanes in which a member would read early, each with the first such member. -/
def State.earlyReads (s : State) (w : Nat) (lanes : LaneMask) (ms : List Member) : List (Nat × Member) :=
  (lanesOf lanes).filterMap (fun l =>
    (ms.find? (fun m =>
      let others := ((ms.filter (fun n => n.pc != m.pc)).map (fun n => s.writesOf w lanes n.instr)).flatten
      (s.readsIn w lanes m.instr l).any (fun d => others.contains d || (s.lane w l).early (s.clockOf w) d))).map (fun m => (l, m)))

/-! ### Issue -/

/-- A path has issued: what its fetch translated is kept (R274), its lanes stand at the group's first instruction, wait no
more, wait out the group's stall (R86), and count their selections anew (R22). `lanes` are those that the group acts in. -/
def State.issue (s : State) (w : Nat) (path lanes : LaneMask) (gpc npc : W64) (stall : Nat) : State :=
  let s1 := s.modWave w (fun v => (v.unwait path).upd (lanesOf path) (fun _ l =>
    { l with pc := gpc, readyAt := s.clockOf w + 1 + stall, skips := 0, wsb := false }))
  ({ s1 with cur := { Cur.init with
      wid := w, lanes := lanes, path := lanes, pc := gpc, gpc := gpc, npc := npc, stall := stall
      defer := s.cur.defer, stops := s.cur.stops } }).walked .g (fetchVas gpc)

/-- One member of a chained group acts, in the lanes that no member stops. -/
def State.member (s : State) (m : Member) (n : Nat) (lanes : LaneMask) (past : Bool) : Out :=
  exec m.instr { s with cur := { s.cur with lanes := lanes, pc := m.pc, memb := BitVec.ofNat 2 n, grouped := true, past := past } }
/-- Whether lanes of the issuing wave have a wait, and one taken out. -/
def State.waitsOf (s : State) (w : Nat) (lanes : LaneMask) : List WaitRec := (s.wave w).waits.filter (fun r => r.lanes &&& lanes != 0)
/-- A control register that holds LFLAGS or WCTL (R46). -/
def flagCsr : Instr → Bool
  | .csrr _ r _ => csrFlags r.toNat
  | .csrw _ r _ => csrFlags r.toNat
  | .csrx _ r _ => csrFlags r.toNat
  | _ => false
/-- Instructions that move or end lanes, or take registers away, whatever the rest of their group does with them. -/
def actsLast : Instr → Bool
  | .tret _ => true
  | .ctxPark _ => true
  | .exit _ => true
  | .regShrink _ _ => true
  | _ => false
/-- The order in which the members act: that of their addresses, but that all that a member reads is as it stood before the
group (R84): one that reads or writes the flags through a control register follows those that raise them (R46), and one that
ends lanes or takes registers away comes last. -/
def memberOrder (ms : List Member) : List (Nat × Member) :=
  let e := ms.zipIdx.map (fun x => (x.2, x.1))
  e.filter (fun x => !flagCsr x.2.instr && !actsLast x.2.instr) ++ e.filter (fun x => flagCsr x.2.instr) ++ e.filter (fun x => actsLast x.2.instr)
/-- The stops that acting has added to those noted before. -/
def State.newStops (s t : State) : List StopRec := t.cur.stops.drop s.cur.stops.length
/-- The stops that a member would take alone, on the state before the group. -/
def State.probe (s : State) (m : Member) (n : Nat) (past : Bool) : List StopRec :=
  match s.member m n s.cur.path past with
  | .next t => s.newStops t
  | _ => []
/-- Every member acts in turn. A member that begins to wait once others have acted waits alone, at its own PC. -/
def State.actAll (s : State) (go : LaneMask) (past : Instr → Bool) : List (Nat × Member) → Out
  | [] => .next s
  | (n, m) :: rest =>
    match s.member m n go (past m.instr) with
    | .next t =>
      let ws := t.waitsOf s.cur.wid go
      let t1 := if ws.isEmpty then t
        else (t.modWave s.cur.wid (fun v =>
          { v with waits := v.waits.map (fun r => if r.lanes &&& go != 0 then { r with grouped := false } else r) })).updLanes s.cur.wid
            ((lanesOf go).filter (fun l => ws.any (fun r => r.lanes.getLsbD l))) (fun _ l => { l with pc := m.pc })
      t1.actAll go past rest
    | .fault f => .fault f
    | .refused r => .refused r
def State.setCur (s : State) (c : Cur) : State := { s with cur := c }
/-- A chained group acts (R84, R85, R310). A member that must wait holds the whole group back: it acts with the rest when
its wait is over. `past` marks the member whose wait is. -/
def State.runGroup (s : State) (ms : List Member) (past : Instr → Bool) : Out :=
  let w := s.cur.wid
  let order := memberOrder ms
  match order.find? (fun x => match s.member x.2 x.1 s.cur.path (past x.2.instr) with
    | .next t => !(t.waitsOf w s.cur.path).isEmpty
    | _ => true) with
  | some x =>
    (match s.member x.2 x.1 s.cur.path (past x.2.instr) with
     | .next t => .next { t with cur := { t.cur with grouped := false } }
     | o => o)
  | none =>
    let byMember := sortBy (fun (r : StopRec) => r.memb.toNat)
    let found := (order.map (fun x => s.probe x.2 x.1 (past x.2.instr))).flatten.filter (fun r => !r.after)
    match s.actAll (s.cur.path &&& ~~~ stopMask found) past order with
    | .next t =>
      let u := (t.setCur { t.cur with grouped := false, stops := s.cur.stops }).raise (byMember found ++ byMember (s.newStops t))
      .next (if u.cur.stops.isEmpty then settle u w else u)
    | o => o
/-- A group issues: alone, its instruction acts as its meaning says; chained, its members act together. -/
def State.act (s : State) (ms : List Member) (past : Instr → Bool) : Out :=
  match ms with
  | [m] => exec m.instr s
  | _ => s.runGroup ms past
/-- The stall class of a group, in cycles (R86). -/
def groupStall (ms : List Member) : Nat := (ms.map (fun m => stallOf m.instr)).foldl max 0
/-- The stops that early reads raise (R90): each at the member that reads early. Where the reader is the electing lane of an
elected member, the other lanes for which that member would act stop with it (R206, R310; log 112). -/
def State.earlyStops (s : State) (w : Nat) (lanes : LaneMask) (gpc : W64) (ms : List Member) : List StopRec :=
  let early := s.earlyReads w lanes ms
  let rec_ := fun (e : Nat × Member) =>
    (⟨e.1, .stallchk, 0, 0, 0, false, BitVec.ofNat 2 (ms.findIdx (fun m => m.pc == e.2.pc)), e.2.pc⟩ : StopRec)
  let others := (early.map (fun e =>
    let act := match e.2.instr.mods with | some x => (lanesOf lanes).filter (fun l => x.active (s.lane w l)) | none => []
    if electsLane e.2.instr && act.head? == some e.1 then act.filter (fun l => early.all (fun x => x.1 != l)) else [])).flatten
  early.map rec_ ++ others.dedup.map (fun l => ⟨l, .none, 0, 0, 0, false, 0, gpc⟩)

/-- The issue of a path (R20 to R22, R83 to R92, R310): a refused group stops every lane of the path; early reads stop theirs, and
the group acts in the others. Stops are noted, for the wave to take when every path of the cycle has issued. -/
def State.issuePath (s : State) (w : Nat) (p : Path) : Out :=
  match s.group w p.pc with
  | .empty npc => .next (s.updLanes w (lanesOf p.lanes) (fun _ l => { l with pc := npc }))
  | .poison => .next (s.eccTroupe (s.wave w).tid 4)
  | .stop n pc c sub va =>
    .next ((s.modWave w (fun v => v.unwait p.lanes)).raise
      ((lanesOf p.lanes).map (fun l => ⟨l, c, sub, 0, va, false, BitVec.ofNat 2 n, pc⟩)))
  | .run ms npc =>
    let gpc := match ms.head? with | some m => m.pc | none => p.pc
    let early := if (s.wave w).chk then s.earlyStops w p.lanes gpc ms else []
    let go := p.lanes &&& ~~~ stopMask early
    let s1 := s.issue w p.lanes go gpc npc (groupStall ms)
    let s2 := s1.raise early
    if go = 0 then .next s2 else s2.act ms (fun _ => false)

end Sys2Proof.Machine
end

