-- ==== Sys2Proof/Machine/Due.lean ====
section
/-! DEFINITION. What happens of itself (log 4): the events of a pod that need no instruction and no input, in one fixed order of
which the spec leaves nearly all open. Each answer is the state after one such event, none where nothing is due. -/

namespace Sys2Proof.Machine

/-- An event that changes something. -/
def did (s : State) (o : Out) : Option State :=
  match o with
  | .next t => if t = s then none else some t
  | _ => none
def orElseOf (a : Option State) (f : Unit → Option State) : Option State :=
  match a with
  | some t => some t
  | none => f ()
/-- The first of a list of events that is due. -/
def firstOf : List (Unit → Option State) → Option State
  | [] => none
  | f :: r => orElseOf (f ()) (fun _ => firstOf r)
def onIndex (n : Nat) (ok : Nat → Bool) : Option Nat := (List.range n).find? ok

/-! ### Results and accesses -/

/-- Fixed-latency results whose cycle has come, then a scoreboarded one that is known (R87 to R89). -/
def State.dueResult (s : State) : Option State :=
  s.waves.findSome? (fun (e : Nat × Wave) =>
    if e.2.lanes.any (fun (l : Nat × Lane) => l.2.pend.any (fun p => p.isDue (s.clockOf e.1))) then did s (execFixedLatencyResult e.1 s)
    else e.2.lanes.findSome? (fun (l : Nat × Lane) =>
      match l.2.pend.find? (fun p => p.due.isNone && p.got) with
      | some p => did s (execScoreboardWrite e.1 l.1 p.tag s)
      | none => none))
/-- A write performs at its next level, a bank applies an operation, an operation on many is complete (R192, R248, R345). -/
def State.dueAccess (s : State) : Option State :=
  firstOf [
    fun _ => (onIndex s.writes.length s.mayPerform).bind (fun n => did s (execAccessPerform n s)),
    fun _ => s.pkgs.findSome? (fun (e : Nat × Pkg) =>
      (onIndex e.2.bankQ.length (s.mayApply e.1)).bind (fun n => did s (execBankAluApply e.1 n s))),
    fun _ => s.pkgs.findSome? (fun (e : Nat × Pkg) => e.2.bops.findSome? (fun b => did s (execBopComplete e.1 b.id s))),
    fun _ => s.pkgs.findSome? (fun (e : Nat × Pkg) => e.2.vmch.findSome? (fun c => did s (execVmChangeComplete e.1 c.id s)))]
/-- A fence has performed; the acquires that held a wave back are settled (R193, R253). -/
def State.dueFence (s : State) : Option State :=
  s.waves.findSome? (fun (e : Nat × Wave) =>
    match e.2.fences.find? (fun f => s.fenceDone e.1 f) with
    | some f => did s (execFencePerformed e.1 f.seq s)
    | none =>
      let t := s.troupe e.2.tid
      if e.2.relHold.any (fun r => s.promoted t.pkg t.core r) then some (s.clearHolds e.1) else none)

/-! ### Walks (R274, R275) -/

/-- A running path that has nothing else to wait for fetches: the misses of its fetch go to the walker. -/
def State.fetchMiss (s : State) (w : Nat) (v : Wave) : Option State :=
  if v.stopped || v.ended || v.parked || v.susp then none
  else
    let t := { s with cur := { s.cur with wid := w } }
    v.paths.findSome? (fun p =>
      let vas := fetchVas p.pc
      let u := t.missed .g vas
      if t.walkWait .g vas && u.walks != s.walks then some { s with walks := u.walks } else none)
/-- A walk completes, a miss starts its walk, a fetch misses. -/
def State.dueWalk (s : State) : Option State :=
  firstOf [
    fun _ => (s.walks.find? (fun r => r.started && !r.done)).bind (fun r =>
      match r.cores.head? with
      | some c => did s (execPageWalkComplete r.pkg c r.ctx (BitVec.ofNat 64 (r.page * 2 ^ 16)) s)
      | none => none),
    fun _ => s.startWalk,
    fun _ => s.waves.findSome? (fun (e : Nat × Wave) => s.fetchMiss e.1 e.2)]

/-! ### Engines, arrays, collectives -/

def State.dueEngine (s : State) : Option State :=
  s.pkgs.findSome? (fun (e : Nat × Pkg) => e.2.cmds.findSome? (fun c =>
    firstOf [
      fun _ => if s.mayWrite c then did s (execEngineUnitWrite e.1 c.id s) else none,
      fun _ => if s.slotReady c then did s (execRingSlotFill e.1 c.id s) else none,
      fun _ => if s.mayPark e.1 c || s.mayRead e.1 c then did s (execEngineUnitRead e.1 c.id 0 s) else none]))
def State.dueArray (s : State) : Option State :=
  s.troupes.findSome? (fun (e : Nat × Troupe) =>
    if e.2.st.onCore && ((s.mxCore e.1).head e.1).isSome then
      firstOf [fun _ => did s (execPlaneFillDone e.1 s), fun _ => did s (execStreamResults e.1 s), fun _ => did s (execDrainWrite e.1 s)]
    else none)
def State.dueColl (s : State) : Option State :=
  s.pkgs.findSome? (fun (e : Nat × Pkg) =>
    firstOf [
      fun _ => (List.range e.2.coll.folds.length).findSome? (fun n => did s (execReducerFold e.1 n s)),
      fun _ => e.2.coll.runs.findSome? (fun r =>
        (List.range (e.2.plan r.plan).ents.length).findSome? (fun i =>
          firstOf [fun _ => did s (execCollEntryComplete e.1 r.seq.toNat i s), fun _ => did s (execCollEntryStart e.1 r.seq.toNat i s)]))])

/-! ### The fabric -/

/-- The meaning of the next packet of a kind (R366). -/
def packetExec (kd : PKind) (k : Nat) (s : State) : Out :=
  match kd with
  | .store => execStorePacket k s
  | .load => execLoadPacket k s
  | .reply => execReplyPacket k s
  | .atomic => execAtomicPacket k s
  | .copySeg => execCopySegmentPacket k s
  | .vStore => execVectorStorePart k s
  | .vLoad => execVectorLoadPart k s
  | .faultReply => execFaultReplyPacket k s
  | .vAtomic => execVectorAtomicPart k s
def noticeExec (kd : NKind) (k : Nat) (s : State) : Out :=
  match kd with
  | .landed => execLandedNotice k s
  | .release => execReleaseNotice k s
  | .applied => execAppliedCountNotice k s
  | .forwarded => execForwardedCountNotice k s
  | .holdFree => execHoldFreeNotice k s
  | .expiry => execExpiryNotice k s
  | .invalidate => execInvalidateNotice k s
  | .relayed => execRelayedAppliedCountNotice k s
def State.dueFabric (s : State) : Option State :=
  firstOf [
    fun _ => s.wires.head?.bind (fun f => did s (execFrameReceive f.dst 0 0 s)),
    fun _ => s.pkgs.findSome? (fun (e : Nat × Pkg) =>
      firstOf [
        fun _ => e.2.fab.inNotices.head?.bind (fun n => did s (noticeExec n.2.kind e.1 s)),
        fun _ => e.2.fab.arrivals.head?.bind (fun x => did s (packetExec x.2.kind e.1 s)),
        fun _ => e.2.fab.locals.head?.bind (fun o => did s (packetExec o.kind e.1 s)),
        fun _ => (List.range e.2.fab.holds.length).findSome? (fun n => did s (execHoldExpiry e.1 n s)),
        fun _ => if e.2.podsize ≤ 1 then none else did s (execMasterLoss e.1 s),
        fun _ => if e.2.fab.freeRun.isNone then none else did s (execFreeRunExpiry e.1 s)])]

/-! ### Stops, ends and evictions -/

def State.dueStop (s : State) : Option State :=
  firstOf [
    fun _ => s.waves.findSome? (fun (e : Nat × Wave) =>
      if e.2.stopped && !e.2.ended then
        (if e.2.forPreempt then did s (execPreemptSaveImage e.2.tid s) else did s (execHandlerEntry e.1 s))
      else none),
    fun _ => s.troupes.findSome? (fun (e : Nat × Troupe) =>
      if s.mayLeave e.1 then did s (execTroupeLeavesCore e.1 s)
      else if s.mayPublish e.1 then did s (execTroupePublish e.1 s)
      else none)]
def State.dueGrant (s : State) : Option State :=
  s.pkgs.findSome? (fun (e : Nat × Pkg) => e.2.cores.findSome? (fun (c : Nat × Core) =>
    if c.2.grantQ.isEmpty then none else did s (execRegGrant (1024 * e.1 + c.1) s)))
def State.dueYield (s : State) : Option State :=
  s.waves.findSome? (fun (e : Nat × Wave) => match e.2.yield with
    | some y => if y.isOver (s.clockOf e.1) then did s (execYieldRelease e.1 s) else none
    | none => none)

/-! ### Launches -/

def State.dueLaunch (s : State) (k : Nat) (n : Nat) (x : Launch) : Option State :=
  firstOf [
    fun _ => if x.st == .waiting then did s (execLaunchReady k n s) else none,
    fun _ => if x.ages (s.pkg k).now then did s (execLaunchAging k n s) else none,
    fun _ => if x.deferred.isEmpty then none else did s (execDeferredApply k n s),
    fun _ => if x.walking then x.nodes.findSome? (fun (g : Nat × GNode) =>
        if g.2.st == .ready then did s (execGraphNodeStart k n g.1 s)
        else if g.2.st == .running then did s (execGraphNodeDone k n g.1 s) else none)
      else none,
    fun _ => if x.placing then (if x.saved.isEmpty then did s (execCorpsPlacement k n s) else did s (execRestorePlacement k n s)) else none]
def State.dueSched (s : State) : Option State :=
  s.pkgs.findSome? (fun (e : Nat × Pkg) =>
    firstOf [
      fun _ => e.2.sched.preempts.findSome? (fun (r : Nat × List Preempt) =>
        let x := BitVec.ofNat 32 r.1
        firstOf [fun _ => if r.2.any (fun q => q.stage == .drain) then did s (execDrainDeadline e.1 x s) else none,
          fun _ => if r.2.any (fun q => q.stage == .evict) then did s (execEvictionDeadline e.1 x s) else none]),
      fun _ => e.2.sched.launches.findSome? (fun (x : Nat × Launch) => s.dueLaunch e.1 x.1 x.2),
      fun _ => if e.2.freeCaller.isSome && e.2.nextReady.isSome then did s (execCallerHandover e.1 s) else none,
      fun _ => e.2.nextQueue.bind (fun q => did s (execFrontEndTake e.1 q s)),
      fun _ => match e.2.reel.st with
        | .idle => none
        | .wait => did s (execReelWait e.1 s)
        | .gather => did s (execReelGather e.1 s)
        | .run => did s (execReelRun e.1 s)
        | .handoff => did s (execReelHandoff e.1 s),
      fun _ => (e.2.nextCmd e.1).bind (fun f => did s (f s))])

/-! ### Waits whose end has come (R35, R206) -/

/-- Whether lanes of a wave still wait in a state. -/
def State.stillWaits (s : State) (w : Nat) (lanes : LaneMask) : Bool := !(s.waitsOf w lanes).isEmpty
/-- The misses of an instruction that waits on: a page that it needs has left the caches while it waited. -/
def State.newMisses (s u : State) : Option State := if u.walks = s.walks then none else some { s with walks := u.walks }
/-- A wait taken up again while its lanes are still the whole of their path: the instruction, or its whole chained group, acts
if it need wait no more. -/
def State.takeUp (s : State) (w : Nat) (r : WaitRec) : Option State :=
  let t := s.resumeCur w r
  if (r.instr.pipe == some .m && s.memHeld w) || (!r.isOver && !(s.wave w).waitWhole r) then none
  else if !r.grouped then
    match exec r.instr t with
    | .next u => if u.stillWaits w r.lanes then s.newMisses u else some u
    | _ => none
  else match s.group w (s.lane w ((lowLane r.lanes).getD 0)).pc with
    | .run ms npc =>
      let gpc := match ms.head? with | some m => m.pc | none => r.pc
      (match State.runGroup { t with cur := { t.cur with pc := gpc, gpc := gpc, npc := npc, past := false } } ms
          (fun i => i == r.instr && t.cur.past) with
       | .next u => if (u.waitsOf w r.lanes).any (fun q => q.grouped) then s.newMisses u else some u
       | _ => none)
    | _ => none
def State.dueWait (s : State) : Option State :=
  s.waves.findSome? (fun (e : Nat × Wave) =>
    if e.2.stopped || e.2.ended || e.2.parked || e.2.susp then none
    else e.2.waits.findSome? (fun r => s.takeUp e.1 r))

/-- The next event of a pod that is due of itself. -/
def State.due (s : State) : Option State :=
  firstOf [
    fun _ => s.dueResult,
    fun _ => s.dueAccess,
    fun _ => s.dueFence,
    fun _ => s.dueWalk,
    fun _ => s.dueFabric,
    fun _ => s.dueEngine,
    fun _ => s.dueArray,
    fun _ => s.dueColl,
    fun _ => s.dueStop,
    fun _ => s.dueGrant,
    fun _ => s.dueYield,
    fun _ => s.dueWait,
    fun _ => s.dueSched]

end Sys2Proof.Machine
end

