-- ==== Sys2Proof/Machine/Select.lean ====
section
/-! DEFINITION. The selection of waves and paths (R20 to R22, R163, R205, R302, R303) and the passing of a cycle (R44, R348, R352,
R354, R395). -/

namespace Sys2Proof.Machine

/-! ### Selection -/

/-- A wave that may be selected: resident, at work, and not held back by a `yield` of its own (R163). -/
def State.eligible (s : State) (v : Wave) : Bool :=
  (s.troupe v.tid).st == .resident && !v.ended && !v.stopped && !v.parked && !v.susp && v.yield.isNone &&
  (s.pkg (s.troupe v.tid).pkg).phys.ticks
/-- Whether two waves share a quad. -/
def State.sameQuad (s : State) (v u : Wave) : Bool :=
  let a := s.troupe v.tid
  let b := s.troupe u.tid
  a.pkg == b.pkg && a.core == b.core && v.quad == u.quad
/-- A quad selects once in a cycle; `lastSel` counts cycles from 1. -/
def State.quadFree (s : State) (v : Wave) : Bool :=
  !s.waves.any (fun (e : Nat × Wave) => e.2.lastSel == s.cycle + 1 && s.sameQuad v e.2)
/-- The ready paths of a wave with their groups, in the order of R21. -/
def State.readyPaths (s : State) (w : Nat) : List (Path × Group) :=
  (s.wave w).paths.filterMap (fun p =>
    let g := s.group w p.pc
    if s.pathReady w p g then some (p, g) else none)
/-- Waves in the order in which a quad takes them: the least recently selected first, ties to the lower slot (R302). -/
def byTurn (ws : List (Nat × Wave)) : List (Nat × Wave) := sortBy (fun (e : Nat × Wave) => e.2.lastSel * 16 + e.2.slot) ws
/-- The wave that is selected, with its ready paths (R302). -/
def State.select (s : State) : Option (Nat × List (Path × Group)) :=
  (byTurn (s.waves.filter (fun (e : Nat × Wave) => s.eligible e.2 && s.quadFree e.2))).findSome? (fun (e : Nat × Wave) =>
    let r := s.readyPaths e.1
    if r.isEmpty then none else some (e.1, r))

/-- Selections in which a path has been passed over. -/
def State.passedOver (s : State) (w : Nat) (p : Path) : Nat := ((lanesOf p.lanes).map (fun l => (s.lane w l).skips)).foldl max 0
/-- The pipes that a group claims; a refused one claims them all. -/
def Group.pipes : Group → List Pipe
  | .run ms _ => ms.filterMap (fun m => m.instr.pipe)
  | .empty _ => []
  | _ => [.i, .v, .m]
def disjoint (a b : List Pipe) : Bool := !a.any (fun x => b.contains x)
/-- Whether a group begins with an engine command, and the lane that it elects (R205). -/
def Group.eng (g : Group) : Bool := match g.members.head? with | some m => isEng m.instr | none => false
def State.electLid (s : State) (w : Nat) (r : Path × Group) : Nat :=
  match r.2.members.head? with
  | some m => (match m.instr.mods with
    | some x => ((lanesOf r.1.lanes).filter (fun l => x.active (s.lane w l))).headD 32
    | none => 32)
  | none => 32
/-- A group that reads or writes the flags through a control register (R46). -/
def Group.flagCsr (g : Group) : Bool := g.members.any (fun m => Machine.flagCsr m.instr)
/-- A path that R22 takes first. -/
def State.starved (s : State) (w : Nat) (ready : List (Path × Group)) : Option (Path × Group) :=
  ready.find? (fun x => decide (64 ≤ s.passedOver w x.1))
/-- The first path of a selection: one that R22 takes first, or the most populous. -/
def State.firstPath (s : State) (w : Nat) (ready : List (Path × Group)) : Option (Path × Group) :=
  match s.starved w ready with
  | some x => some x
  | none => ready.head?
/-- The paths that issue, in the order in which they do: the first, then the next where its pipes are free and R205 lets it. -/
def State.chosen (s : State) (w : Nat) (ready : List (Path × Group)) : List (Path × Group) :=
  match s.firstPath w ready with
  | none => []
  | some first =>
    match (ready.filter (fun x => x.1 != first.1)).head? with
    | none => [first]
    | some second =>
      if first.2.eng && second.2.eng then
        (if (s.starved w ready).isNone && decide (s.electLid w second < s.electLid w first) then [second] else [first])
      else if !disjoint first.2.pipes second.2.pipes then [first]
      else if first.2.flagCsr then [second, first]
      else [first, second]
/-- What a selection leaves of itself: the wave's turn, its lanes' counts of R22, the yields of the quad's other waves. -/
def State.selected (s : State) (w : Nat) (ready : List (Path × Group)) : State :=
  let v := s.wave w
  let ok := (ready.map (fun r => r.1.lanes)).foldl (fun a b => a ||| b) 0
  let s1 := { s with waves := fall s.waves (fun n u =>
    if n = w ∨ !s.sameQuad v u then u
    else match u.yield with
      | some y => { u with yield := some { y with sels := y.sels + 1, todo := y.todo.filter (fun x => x != w) } }
      | none => u) }
  s1.modWave w (fun v =>
    { (v.upd (List.range 32) (fun n l => { l with skips := if ok.getLsbD n then l.skips + 1 else 0 })) with lastSel := s.cycle + 1 })
/-- Whether the lanes of a path still stand where the selection found them. -/
def State.stands (s : State) (w : Nat) (p : Path) : Bool :=
  s.eligible (s.wave w) && (lanesOf p.lanes).all (fun l => (s.lane w l).st == .run && (s.lane w l).pc == p.pc)
/-- The chosen paths issue one after the other, a later one if it stands where it stood; the stops they raise are noted. -/
def State.issueAll (s : State) (w : Nat) : List (Path × Group) → Out
  | [] => .next s
  | r :: rest =>
    if !s.stands w r.1 then s.issueAll w rest
    else match s.issuePath w r.1 with
      | .next t => t.issueAll w rest
      | o => o
/-- The wave takes as one stop what its paths have noted, each lane with its own cause (R327). -/
def State.takeNoted (s : State) (w : Nat) : State :=
  let s1 := { s with cur := { s.cur with defer := false, stops := [] } }
  if (s.wave w).ended || (s.wave w).stopped then s1 else takeStop s1 w s.cur.stops
/-- A selected wave issues. -/
def State.issueWave (s : State) (w : Nat) (rs : List (Path × Group)) : Out :=
  match ({ s with cur := { Cur.init with wid := w, defer := true } }).issueAll w rs with
  | .next t => .next (t.takeNoted w)
  | o => o

/-! ### Fused issue (R29, R304) -/

/-- The slices that hold a path's lanes. -/
def slicesOf (m : LaneMask) : Nat := ((List.range 8).filter (fun i => nbits m.toNat (4 * i + 3) (4 * i) != 0)).length
/-- A wave's part in a selection: its number, its ready paths, the path that issues. -/
structure Chosen where
  wid : Nat
  ready : List (Path × Group)
  first : Path × Group
  deriving DecidableEq, Repr
/-- Waves join while their slices fit in the eight of a quad. -/
def joinFuse : Nat → List Chosen → List Chosen
  | _, [] => []
  | n, c :: rest =>
    let k := slicesOf c.first.1.lanes
    if k ≤ n then c :: joinFuse (n - k) rest else joinFuse n rest
/-- The other waves of the troupe on the quad whose first paths are ready at the PC at which a selected wave's is. Those that it
was fused with come first, then the others in the order of R302 (log 113). -/
def State.mates (s : State) (w : Nat) (first : Path × Group) : List Chosen :=
  let v := s.wave w
  let others := byTurn (s.waves.filter (fun (e : Nat × Wave) =>
    e.1 != w && e.2.tid == v.tid && e.2.quad == v.quad && s.eligible e.2 && s.quadFree e.2))
  let kept := others.filter (fun (e : Nat × Wave) => v.fuse != 0 && e.2.fuse == v.fuse)
  let new_ := others.filter (fun (e : Nat × Wave) => !(v.fuse != 0 && e.2.fuse == v.fuse))
  joinFuse (8 - slicesOf first.1.lanes) ((kept ++ new_).filterMap (fun (e : Nat × Wave) =>
    let r := s.readyPaths e.1
    match s.firstPath e.1 r with
    | some f => if f.1.pc = first.1.pc then some ⟨e.1, r, f⟩ else none
    | none => none))
/-- The members of a fused group are marked; those that have left it are not. -/
def State.markFuse (s : State) (w : Nat) (ws : List Nat) : State :=
  let old := (s.wave w).fuse
  { s with
    nextId := s.nextId + 1
    waves := fall s.waves (fun n v => if ws.contains n then { v with fuse := s.nextId } else if old != 0 && v.fuse == old then { v with fuse := 0 } else v) }
/-- Every member of a fused group issues its first path, and none a second. -/
def State.issueEach (s : State) : List Chosen → Out
  | [] => .next s
  | c :: rest =>
    match s.issueWave c.wid [c.first] with
    | .next t => t.issueEach rest
    | o => o
/-- A selected wave issues, alone or fused with others: a selection of each. -/
def State.issueSel (s : State) (w : Nat) (ready : List (Path × Group)) : Out :=
  match s.firstPath w ready with
  | none => .next s
  | some first =>
    match s.mates w first with
    | [] => (s.selected w ready).issueWave w (s.chosen w ready)
    | ms =>
      let cs := ⟨w, ready, first⟩ :: ms
      (cs.foldl (fun s c => s.selected c.wid c.ready) (s.markFuse w (cs.map (fun c => c.wid)))).issueEach cs
/-- Paths that stand at a packet's rest of empty codes go on at the next packet: this takes no cycle and is no issue (R78). -/
def State.passEmpty (s : State) (w : Nat) (ready : List (Path × Group)) : Option State :=
  match ready.find? (fun r => match r.2 with | .empty _ => true | _ => false) with
  | none => none
  | some r => match s.issuePath w r.1 with
    | .next t => some t
    | _ => none

/-! ### A cycle passes -/

/-- The nanoseconds that a unit of 0.5 ns adds to CALTIME, which no core clock affects (R428). -/
def cycleNs (cycle : Nat) : Nat := (cycle + 1) / 2 - cycle / 2
/-- CALTIME goes on, less what a slew withholds (R354); so does the core clock at FCLK (R44, R428); the reel's idle counters run
in cycles of 0.5 ns (R395). -/
def Pkg.pass (p : Pkg) (cycle : Nat) : Pkg :=
  let d := cycleNs cycle
  let held := min p.fab.slow d
  let r := p.reel
  let n := if r.st == .wait then 1 else 0
  { p with
    phys := { p.phys with cycles := p.phys.cycles + p.phys.ticks.toNat, phase := (p.phys.phase + p.phys.fclk.toNat) % 2000 }
    fab := { p.fab with caltime := p.fab.caltime + BitVec.ofNat 64 (d - held), slow := p.fab.slow - held }
    reel := { r with
      idleIn := if r.cause = 1 then r.idleIn + n else r.idleIn
      idleRoom := if r.cause = 2 then r.idleRoom + n else r.idleRoom
      idleStash := if r.cause = 3 then r.idleStash + n else r.idleStash } }
/-- An event at each time that lies `off` past a multiple of `len` on a package's CALTIME. -/
def atEach (len off : Nat) (f : Nat → State → Out) (old : State) (s : State) (k : Nat) : State :=
  if ((old.pkg k).fab.caltime.toNat + len - off) / len = ((s.pkg k).fab.caltime.toNat + len - off) / len then s
  else match f k s with
    | .next t => t
    | _ => s
/-- A cycle passes in which nothing more issues: the data windows of slots and budget periods begin as their times come, and frames
under way go on (R348, R353, R360). -/
def State.tick (s : State) : State :=
  let s1 := { s with cycle := s.cycle + 1, pkgs := fall s.pkgs (fun _ p => p.pass s.cycle) }
  let ks := s.pkgs.map (fun (e : Nat × Pkg) => e.1)
  let s2 := ks.foldl (fun t k => (atEach 1024 32 execSlotStart s t k).moreFrames k) s1
  ks.foldl (fun t k => atEach 10000 0 execBudgetPeriodStart s t k) s2

/-! ### What a pod does next -/

/-- With no input in hand: what is due of itself, then the selection of a wave, then the passing of the cycle (log 4). -/
def State.run (s : State) : Out :=
  match s.due with
  | some t => .next t
  | none => match s.select with
    | some e => match s.passEmpty e.1 e.2 with
      | some t => .next t
      | none => s.issueSel e.1 e.2
    | none => .next s.tick

/-! ### An instruction placed where a wave fetches next -/

/-- Where the placed code stands: its virtual address, the physical address of its page, and of the three tables that lead
there. -/
def placedVa : Nat := 0xC00000
def placedRoot : Nat := 0x10000
/-- The bytes of the tables and of the code: a leaf of 1 GiB, read and execute, committed on package 0. -/
def placedMem (m : List Host.Cell) (ws : List W32) : List Host.Cell :=
  let entry := fun (m : List Host.Cell) (a v : Nat) => memPuts m (hbmKey 0 a) (leBytes 8 v)
  let m1 := entry m placedRoot (1 + (placedRoot + 0x1000) * 2 ^ 12)
  let m2 := entry m1 (placedRoot + 0x1000) (1 + (placedRoot + 0x2000) * 2 ^ 12)
  let m3 := entry m2 (placedRoot + 0x2000) (1 + 2 + 2 * 4 + 2 ^ 4 + 2 ^ 6)
  memPuts m3 (hbmKey 0 placedVa) (ws.map (fun w => leBytes 4 w.toNat)).flatten
def Ctx.placed : Ctx :=
  { root := BitVec.ofNat 64 placedRoot, regions := 0, dups := 0, ptPool := 0, ptBytes := 0, ptNext := 0, heap := 0, sysh := 0, saveh := 0,
    resth := 0, evBase := 0, evBytes := 0, stopped := false, heapFree := [], heapTag := [] }
/-- A package that has booted with every feature accepted, context 1 alone on it. -/
def Pkg.withCode (p : Pkg) : Pkg :=
  { Pkg.init with
    pkgid := p.pkgid
    podsize := p.podsize
    sec := { p.sec with booted := true, recovery := false }
    ctxs := [(1, Ctx.placed)]
    cores := [(0, { Core.init with tlb := [⟨1, 0, 2 ^ 30, BitVec.ofNat 64 (1 + 2 + 2 * 4 + 2 ^ 4 + 2 ^ 6)⟩] })]
    phys := { Pkg.init.phys with bankV := [(0, 4), (1, 4), (2, 4), (3, 4)] }
    host := { Pkg.init.host with featReq := 0x3FFF#128, featAcc := 0x3FFF#128, featDone := true } }
/-- One troupe of context 1 with one wave on core 0, all its lanes at the placed code. -/
def Troupe.placed : Troupe :=
  { Troupe.init with
    ctx := 1, corps := 1, st := .resident
    hdr := { KHdr.init with entry := BitVec.ofNat 64 placedVa, corps := 1, waves := 1, acc := 64, obuf := 64, scratch := 16, regs := 15 }
    tiles := List.range 16, accs := List.range 64 }
def State.placed (s : State) (ws : List W32) : State :=
  { State.reset with
    cycle := s.cycle
    mem := placedMem s.mem ws
    arrImages := s.arrImages
    fresh := s.fresh
    nextId := max 2 s.nextId
    pkgs := [(0, (s.pkg 0).withCode)]
    corps := [(1, ⟨0, 0, 0, 0, [1], 0, 1, false⟩)]
    troupes := [(1, Troupe.placed)]
    waves := [(32, Wave.start 1 0 false (BitVec.ofNat 64 placedVa) 120 0)] }

end Sys2Proof.Machine
end

