-- ==== Sys2Proof/Machine/Step.lean ====
section
/-! DEFINITION. One step of a pod, and a state whose next step fetches a given instruction. -/

namespace Sys2Proof.Machine

/-- One step: what has been placed to happen next, or what the pod does of itself (log 4). -/
def step (s : State) : Host.Outcome State Fault Refusal :=
  match s.agenda with
  | i :: rest => exec i { s with agenda := rest }
  | [] => s.run

/-- The instruction whose bits are `w` as the first that the one resident wave fetches (log 7): a booted package with every
feature accepted, a context whose tables map the code, one troupe of one wave. The words after it are zero. -/
def State.withFetchWord (s : State) (nbits w : Nat) : State := s.placed (tableWords 3 (w % 2 ^ nbits))

end Sys2Proof.Machine
end

