-- ==== Sys2Proof/Effects.lean ====
section
/-! DEFINITION. The vocabulary of the statements: what an instruction does to the lanes of its path, and to nothing
else. Each predicate is an exact account of a next state, frame included. -/

namespace Sys2Proof

open Machine

/-- Where a lane that its instruction has not stopped goes on (R92): at the next group, unless it has branched or parks. -/
def goOn (s : State) (l : Nat) (x : Lane) : Lane :=
  if s.cur.moved.getLsbD l = false ∧ x.st = .run then { x with pc := s.cur.npc } else x

/-- The issuing wave changes in its lanes alone, and those of the path become `f` of what they were; no other wave
changes. -/
structure LanesBecome (s t : State) (f : Nat → Lane → Lane) : Prop where
  waves : ∀ w, w ≠ s.cur.wid → t.wave w = s.wave w
  rest : t.wave s.cur.wid = { s.wave s.cur.wid with lanes := (t.wave s.cur.wid).lanes }
  lanes : ∀ l, t.lane s.cur.wid l =
    if s.cur.lanes.getLsbD l then f l (s.lane s.cur.wid l) else s.lane s.cur.wid l

/-- Results on their way to their registers (R87, R88). -/
def inFlight (due : Option Nat) (tag : Nat) (vs : List (Dst × W32)) : List Pend :=
  vs.map (fun o => { dst := o.1, val := o.2, due := due, got := true, remote := false, tag := tag })

/-- What a lane of the path does in a per-lane instruction (R74, R121, R141): an active lane sends its results on their
way and ORs in its flags; a lane guarded off sends zeros under Z and nothing without. -/
def sends (s : State) (m : Mods) (due : Option Nat) (ds : List Dst) (val : Nat → List (Dst × W32)) (fl : Nat → BitVec 5)
    (l : Nat) (x : Lane) : Lane :=
  if m.active x then { x with pend := x.pend ++ inFlight due s.nextId (val l), lflags := x.lflags ||| fl l }
  else if m.zero then { x with pend := x.pend ++ inFlight due s.nextId (ds.map (fun d => (d, 0))) }
  else x

/-- A register-only instruction: results for registers `ds` of each active lane, flags, the path goes on; memory, every
register as it stands, every other wave and every other part of the pod are as before. -/
structure Writes (s t : State) (m : Mods) (due : Option Nat) (ds : List Dst) (val : Nat → List (Dst × W32))
    (fl : Nat → BitVec 5) : Prop where
  frame : t = { s with waves := t.waves, nextId := s.nextId + 1 }
  lanes : LanesBecome s t (fun l x => goOn s l (sends s m due ds val fl l x))

/-- `exec i s` answers a next state in which each active lane has sent `val l` to the registers `ds`. -/
def Computes (i : Instr) (s : State) (m : Mods) (due : Option Nat) (ds : List Dst) (val : Nat → List (Dst × W32)) : Prop :=
  ∃ t, exec i s = .next t ∧ Writes s t m due ds val (fun _ => 0)

/-- `exec i s` answers a next state that satisfies `p`. -/
def After (i : Instr) (s : State) (p : State → Prop) : Prop := ∃ t, exec i s = .next t ∧ p t

/-- The cycle in which a result of the integer pipe lands (R87). -/
def inTwo (s : State) : Option Nat := some (s.clock + 2)

/-- The registers of a destination field of one, two or four words; fields 120 to 127 name none (R14, R15, R71). -/
def regs1 (d : Reg) : List Dst := if d.toNat < 120 then [.g d] else []
def regs2 (d : Reg) : List Dst := if d.toNat < 120 then [.g d, .g (d + 1)] else []
def regs4 (d : Reg) : List Dst := if d.toNat < 120 then [.g d, .g (d + 1), .g (d + 2), .g (d + 3)] else []

/-- A 32-bit, a 64-bit and a 128-bit result for such a field, low word first (R15). -/
def to32 (d : Reg) (v : W32) : List (Dst × W32) := (regs1 d).zip [v]
def to64 (d : Reg) (v : W64) : List (Dst × W32) := (regs2 d).zip [v.setWidth 32, (v >>> 32).setWidth 32]
def to128 (d : Reg) (v : BitVec 128) : List (Dst × W32) :=
  (regs4 d).zip [v.setWidth 32, (v >>> 32).setWidth 32, (v >>> 64).setWidth 32, (v >>> 96).setWidth 32]
/-- A predicate result (R16). -/
def toP (q : Reg) (b : Bool) : List (Dst × W32) := [(.p q, if b then 1 else 0)]

/-- Completion with a 32-bit, 64-bit, 128-bit or predicate result of the integer pipe in every active lane. -/
def Puts32 (i : Instr) (s : State) (m : Mods) (d : Reg) (v : Nat → W32) : Prop :=
  Computes i s m (inTwo s) (regs1 d) (fun l => to32 d (v l))
def Puts64 (i : Instr) (s : State) (m : Mods) (d : Reg) (v : Nat → W64) : Prop :=
  Computes i s m (inTwo s) (regs2 d) (fun l => to64 d (v l))
def Puts128 (i : Instr) (s : State) (m : Mods) (d : Reg) (v : Nat → BitVec 128) : Prop :=
  Computes i s m (inTwo s) (regs4 d) (fun l => to128 d (v l))
def PutsP (i : Instr) (s : State) (m : Mods) (q : Reg) (v : Nat → Bool) : Prop :=
  Computes i s m (inTwo s) [.p q] (fun l => toP q (v l))

/-! ### Operands of the integer pipe -/

/-- A register operand of type `t`, as the integer it stands for (R15, R126, R127). -/
def operand (s : State) (t : IType) (l : Nat) (r : Reg) : Int :=
  match t with
  | .s32 => (s.src s.cur.wid l r).toInt
  | .z32 => (s.src s.cur.wid l r).toNat
  | .s64 => (s.src64 s.cur.wid l r).toInt
  | .z64 => (s.src64 s.cur.wid l r).toNat
/-- The least and the greatest number of a type. -/
def typeMin (t : IType) : Int := match t with | .s32 => -2 ^ 31 | .s64 => -2 ^ 63 | _ => 0
def typeMax (t : IType) : Int :=
  match t with | .s32 => 2 ^ 31 - 1 | .z32 => 2 ^ 32 - 1 | .s64 => 2 ^ 63 - 1 | .z64 => 2 ^ 64 - 1
/-- The number nearest to `x` between two bounds (R122). -/
def nearestIn (lo hi x : Int) : Int := max lo (min x hi)
/-- A result of type `t`, reduced to its width, for the register or the pair D, landing as `due` says. -/
def PutsType (i : Instr) (s : State) (m : Mods) (due : Option Nat) (t : IType) (d : Reg) (v : Nat → Int) : Prop :=
  match t with
  | .s32 | .z32 => Computes i s m due (regs1 d) (fun l => to32 d (BitVec.ofInt 32 (v l)))
  | .s64 | .z64 => Computes i s m due (regs2 d) (fun l => to64 d (BitVec.ofInt 64 (v l)))
/-- Some value of each lane whose bits are as given is the 32-bit or 64-bit result. -/
def Bits32 (i : Instr) (s : State) (m : Mods) (d : Reg) (f : Nat → Nat → Bool) : Prop :=
  ∃ v : Nat → W32, (∀ l j, j < 32 → (v l).getLsbD j = f l j) ∧ Puts32 i s m d v
def Bits64 (i : Instr) (s : State) (m : Mods) (d : Reg) (f : Nat → Nat → Bool) : Prop :=
  ∃ v : Nat → W64, (∀ l j, j < 64 → (v l).getLsbD j = f l j) ∧ Puts64 i s m d v

/-! ### Values of the floating-point pipe (R47 to R55) -/

/-- A finite value as a rational number. -/
def ratOf (v : FVal) : ℚ :=
  match v with
  | .fin n m e => (if n then -1 else 1) * m * (2 : ℚ) ^ e
  | _ => 0
/-- `r` is the one rounding of the exact number `q` (R49, R50), of sign `zneg` where it is zero. -/
def Rounds (f : Fmt) (md : RMode) (q : ℚ) (zneg : Bool) (r : Nat × BitVec 5) : Prop :=
  ∃ (m : Nat) (e : Int), |q| = m * (2 : ℚ) ^ e ∧ r = roundFin f md (if q = 0 then zneg else decide (q < 0)) m e
/-- `r` is the one rounding of a positive real `q`, of sign `neg`: `q` is kept to more places than the format has, with a
last place that tells whether anything was cut off. -/
def RoundsReal (f : Fmt) (md : RMode) (neg : Bool) (q : ℝ) (r : Nat × BitVec 5) : Prop :=
  ∃ (k : Nat) (e : Int), 2 ^ (f.fb + 2) ≤ k ∧ (k : ℝ) * 2 ^ e ≤ q ∧ q < ((k : ℝ) + 1) * 2 ^ e ∧
    (q = (k : ℝ) * 2 ^ e → r = roundFin f md neg (2 * k) (e - 1)) ∧
    (q ≠ (k : ℝ) * 2 ^ e → r = roundFin f md neg (2 * k + 1) (e - 1))
/-- An integer that the mode rounds a number to. -/
def RoundsToInt (md : RMode) (q : ℚ) (i : Int) : Prop :=
  match md with
  | .rne => |q - i| < 1 / 2 ∨ (|q - i| = 1 / 2 ∧ i % 2 = 0)
  | .rna => |q - i| < 1 / 2 ∨ (|q - i| = 1 / 2 ∧ |q| < |(i : ℚ)|)
  | .rtz => |q - i| < 1 ∧ |(i : ℚ)| ≤ |q|
  | .rdn => (i : ℚ) ≤ q ∧ q < i + 1
  | .rup => q ≤ (i : ℚ) ∧ (i : ℚ) < q + 1
/-- NaN, its quiet form alone, or NV with it where an operand signals (R51). -/
def nvIf (b : Bool) : BitVec 5 := if b then 1 else 0
def nanResult (f : Fmt) (nv : Bool) : Nat × BitVec 5 := (f.nan, nvIf nv)
/-- The bits of an infinity and of a zero of either sign. -/
def infBitsOf (f : Fmt) (neg : Bool) : Nat := f.sign neg + f.expMax * 2 ^ f.fb
/-- The sum of two values (R50, R144), `y` negated for a difference. -/
def SumIs (f : Fmt) (md : RMode) (x y : FVal) (r : Nat × BitVec 5) : Prop :=
  match x, y with
  | .fin a m _, .fin b n _ =>
    Rounds f md (ratOf x + ratOf y) (if m = 0 ∧ n = 0 ∧ a = b then a else md == .rdn) r
  | .inf a, .inf b => r = if a = b then (infBitsOf f a, 0) else nanResult f true
  | .inf a, .fin _ _ _ => r = (infBitsOf f a, 0)
  | .fin _ _ _, .inf b => r = (infBitsOf f b, 0)
  | _, _ => r = nanResult f (x.isSig || y.isSig)
/-- The product of two values (R144). -/
def ProductIs (f : Fmt) (md : RMode) (x y : FVal) (r : Nat × BitVec 5) : Prop :=
  match x, y with
  | .fin a _ _, .fin b _ _ => Rounds f md (ratOf x * ratOf y) (a ^^ b) r
  | .inf a, .inf b => r = (infBitsOf f (a ^^ b), 0)
  | .inf a, .fin b m _ => r = if m = 0 then nanResult f true else (infBitsOf f (a ^^ b), 0)
  | .fin a m _, .inf b => r = if m = 0 then nanResult f true else (infBitsOf f (a ^^ b), 0)
  | _, _ => r = nanResult f (x.isSig || y.isSig)
/-- `x * y + z` rounded once (R144). -/
def FusedIs (f : Fmt) (md : RMode) (x y z : FVal) (r : Nat × BitVec 5) : Prop :=
  if x.isNan || y.isNan then r = nanResult f (x.isSig || y.isSig || z.isSig)
  else if (x.isInf && y.isZero) || (x.isZero && y.isInf) then r = nanResult f true
  else
    let pneg := x.neg ^^ y.neg
    let pinf := x.isInf || y.isInf
    match z with
    | .nan g => r = nanResult f g
    | .inf c => r = if pinf && pneg != c then nanResult f true else (infBitsOf f c, 0)
    | .fin c n _ =>
      if pinf then r = (infBitsOf f pneg, 0)
      else Rounds f md (ratOf x * ratOf y + ratOf z)
        (if (x.isZero || y.isZero) && n = 0 && pneg = c then c else md == .rdn) r
/-- The quotient of two values (R54). -/
def QuotientIs (f : Fmt) (md : RMode) (x y : FVal) (r : Nat × BitVec 5) : Prop :=
  match x, y with
  | .fin a m _, .fin b n _ =>
    if n = 0 then r = if m = 0 then nanResult f true else (infBitsOf f (a ^^ b), 2)
    else if m = 0 then r = (f.sign (a ^^ b), 0)
    else RoundsReal f md (a ^^ b) |(ratOf x : ℝ) / (ratOf y : ℝ)| r
  | .inf _, .inf _ => r = nanResult f true
  | .inf a, .fin b _ _ => r = (infBitsOf f (a ^^ b), 0)
  | .fin a _ _, .inf b => r = (f.sign (a ^^ b), 0)
  | _, _ => r = nanResult f (x.isSig || y.isSig)
/-- The square root and its reciprocal (R54). -/
def RootIs (f : Fmt) (md : RMode) (x : FVal) (r : Nat × BitVec 5) : Prop :=
  match x with
  | .fin n m _ =>
    if m = 0 then r = (f.sign n, 0) else if n then r = nanResult f true else RoundsReal f md false (Real.sqrt (ratOf x : ℝ)) r
  | .inf n => r = if n then nanResult f true else (infBitsOf f false, 0)
  | .nan g => r = nanResult f g
def ReciprocalRootIs (f : Fmt) (md : RMode) (x : FVal) (r : Nat × BitVec 5) : Prop :=
  match x with
  | .fin n m _ =>
    if m = 0 then r = (infBitsOf f n, 2) else if n then r = nanResult f true
    else RoundsReal f md false (1 / Real.sqrt (ratOf x : ℝ)) r
  | .inf n => r = if n then nanResult f true else (0, 0)
  | .nan g => r = nanResult f g
/-- The order of numbers, -0 below +0 (R52). -/
def Below (x y : FVal) : Prop :=
  match x, y with
  | .fin a m _, .fin b n _ => ratOf x < ratOf y ∨ (m = 0 ∧ n = 0 ∧ a = true ∧ b = false)
  | .inf a, .inf b => a = true ∧ b = false
  | .inf a, .fin _ _ _ => a = true
  | .fin _ _ _, .inf b => b = false
  | _, _ => False
/-- Order and equality of numbers, the two zeros equal (R147). -/
def Less (x y : FVal) : Prop :=
  match x, y with
  | .fin _ _ _, .fin _ _ _ => ratOf x < ratOf y
  | .inf a, .inf b => a = true ∧ b = false
  | .inf a, .fin _ _ _ => a = true
  | .fin _ _ _, .inf b => b = false
  | _, _ => False
def Same (x y : FVal) : Prop := x.isNan = false ∧ y.isNan = false ∧ ¬ Less x y ∧ ¬ Less y x

/-- The format of each element of an operand, and how many it holds (R48, R96). -/
def fmtOf (f : FFmt) : Fmt :=
  match f with
  | .f32 => fmt32 | .f64 => fmt64 | .f16 | .f16x2 => fmt16 | .bf16 | .bf16x2 => fmtB16
def elemsOf (f : FFmt) : Nat := match f with | .f16x2 | .bf16x2 => 2 | _ => 1
/-- Element `j` of a register operand in one lane; a scalar of 16 bits is the low half (R141). -/
def elemOf (s : State) (f : FFmt) (l : Nat) (r : Reg) (j : Nat) : Nat :=
  if f = .f64 then (s.src64 s.cur.wid l r).toNat
  else (s.src s.cur.wid l r).toNat / 2 ^ (16 * j) % 2 ^ (fmtOf f).bits
def valOf (s : State) (f : FFmt) (l : Nat) (r : Reg) (j : Nat) : FVal := (fmtOf f).val (elemOf s f l r j)
/-- When the result of a V-pipe instruction of fixed latency lands (R87, R142). -/
def vDue (s : State) (f : FFmt) : Option Nat := some (s.clock + if f = .f64 then 6 else 4)
/-- Completion with a result of format `f` and flags in each active lane (R141): element `j` and its flags are `r l j`;
nothing stands above the elements. -/
def PutsFloat (i : Instr) (s : State) (m : Mods) (due : Option Nat) (f : FFmt) (d : Reg)
    (r : Nat → Nat → Nat × BitVec 5) : Prop :=
  ∃ t, exec i s = .next t ∧
    Writes s t m due (if f = .f64 then regs2 d else regs1 d)
      (fun l => let v := if elemsOf f = 2 then (r l 0).1 + (r l 1).1 * 2 ^ 16 else (r l 0).1
        if f = .f64 then to64 d (BitVec.ofNat 64 v) else to32 d (BitVec.ofNat 32 v))
      (fun l => if elemsOf f = 2 then (r l 0).2 ||| (r l 1).2 else (r l 0).2)
/-- The same where each element's result satisfies a property. -/
def PutsSuch (i : Instr) (s : State) (m : Mods) (due : Option Nat) (f : FFmt) (d : Reg)
    (p : Nat → Nat → Nat × BitVec 5 → Prop) : Prop :=
  ∃ r, PutsFloat i s m due f d r ∧ ∀ l j, j < elemsOf f → p l j (r l j)

/-- The fixed tree of R155: after `k` levels, place `i` holds the fold of the `2^k` leaves from `i` on. -/
def treeOf {α : Type} (op : α → α → α) (leaf : Nat → α) : Nat → Nat → α
  | 0, i => leaf i
  | k + 1, i => op (treeOf op leaf k i) (treeOf op leaf k (i + 2 ^ k))

/-! ### Waves and stops -/

/-- The issuing wave's own fields become those of `g`, its lanes of the path `f` of what they were; no other wave
changes. -/
structure WaveBecomes (s t : State) (g : Wave → Wave) (f : Nat → Lane → Lane) : Prop where
  waves : ∀ w, w ≠ s.cur.wid → t.wave w = s.wave w
  rest : t.wave s.cur.wid = { g (s.wave s.cur.wid) with lanes := (t.wave s.cur.wid).lanes }
  lanes : ∀ l, t.lane s.cur.wid l =
    if s.cur.lanes.getLsbD l then f l (s.lane s.cur.wid l) else s.lane s.cur.wid l
/-- The path goes on and nothing else of any wave changes. -/
def GoesOn (s t : State) : Prop := WaveBecomes s t id (fun l x => goOn s l x)
/-- Lane `l` is an active lane of the issuing path (R74). -/
def On (s : State) (m : Mods) (l : Nat) : Prop := s.cur.lanes.getLsbD l = true ∧ m.active (s.lane s.cur.wid l) = true
/-- `e` is the elected lane: the lowest active lane of the path (R74). -/
def Elected (s : State) (m : Mods) (e : Nat) : Prop := On s m e ∧ ∀ l, On s m l → e ≤ l
/-- The word that TRAPCAUSE holds for a cause: the code, the sub-cause, the cause (R307). -/
def causeWord (c sub : Nat) (code : Nat) : W32 := BitVec.ofNat 32 (code * 2 ^ 16 + sub * 2 ^ 8 + c)
/-- The issuing wave stops (R306): every live lane is in TRAP, its registers and what is owed to it kept; a lane with a
cause records it, the address and the PC `at_` where it stopped, the others record NONE where they stand. -/
structure StopsAs (s t : State) (who : Nat → Bool) (cause : Nat → W32) (va at_ resume stand : Nat → W64) : Prop where
  others : ∀ w, w ≠ s.cur.wid → t.wave w = s.wave w
  stopped : (t.wave s.cur.wid).stopped = true ∧ (t.wave s.cur.wid).sys = (s.wave s.cur.wid).sys ∧
    (t.wave s.cur.wid).waits = [] ∧ ∀ l, l < 32 → ((t.wave s.cur.wid).trapLanes.getLsbD l = true ↔ who l = true)
  ended : ∀ l, (s.lane s.cur.wid l).st = .exit → t.lane s.cur.wid l = s.lane s.cur.wid l
  lanes : ∀ l, l < 32 → (s.lane s.cur.wid l).st ≠ .exit →
    let x := s.lane s.cur.wid l
    let y := t.lane s.cur.wid l
    y.st = .trap ∧ y.g = x.g ∧ y.p = x.p ∧ y.lflags = x.lflags ∧ y.pend = x.pend ∧
    (who l = true → y.trapCause = cause l ∧ y.trapVa = va l ∧ y.trapPc = at_ l ∧ y.resume = resume l) ∧
    (who l = false → y.trapCause = 0 ∧ y.trapVa = 0 ∧ y.trapPc = stand l ∧ y.resume = stand l)
  memory : t.mem = s.mem ∧ t.writes = s.writes ∧ t.troupes = s.troupes ∧ t.corps = s.corps ∧ t.cur = s.cur ∧ t.cycle = s.cycle
/-- Where a lane that its instruction has not stopped stands. -/
def standsAt (s : State) (l : Nat) : W64 :=
  if s.cur.lanes.getLsbD l ∧ s.cur.moved.getLsbD l = false ∧ (s.lane s.cur.wid l).st = .run then s.cur.npc
  else (s.lane s.cur.wid l).pc
/-- The wave is in user mode and the instruction is neither a member of a chained group nor issued with another path, so
that its stops are taken at once. -/
def Alone (s : State) : Prop := (s.wave s.cur.wid).sys = false ∧ s.cur.grouped = false ∧ s.cur.defer = false
/-- Every active lane takes a stop whose group has not completed: ILLEGAL, PRIV or a fault of the memory (R306, R309). -/
def StopsActive (s t : State) (m : Mods) (c sub : Nat) (va : W64) : Prop :=
  ∃ who : Nat → Bool, (∀ l, who l = true ↔ On s m l) ∧
    StopsAs s t who (fun _ => causeWord c sub 0) (fun _ => va) (fun _ => s.cur.gpc) (fun _ => s.cur.gpc) (standsAt s)
/-- A fault of the electing lane (R306, R307): it alone records the cause; its path's other active lanes stop with it at the
group, and the cause they record is NONE (log 112). -/
def StopsElected (s t : State) (m : Mods) (c sub : Nat) (va : W64) : Prop :=
  ∃ who on : Nat → Bool, (∀ l, who l = true ↔ Elected s m l) ∧ (∀ l, on l = true ↔ On s m l) ∧
    StopsAs s t who (fun _ => causeWord c sub 0) (fun _ => va) (fun _ => s.cur.gpc) (fun _ => s.cur.gpc)
      (fun l => if on l then s.cur.gpc else standsAt s l)

/-! ### Memory (R175 to R181) -/

/-- The packages differ at most in their translation caches and line caches; of the walks, answers have been used. -/
def CachesOnly (s t : State) : Prop :=
  (∀ k, t.pkg k = { s.pkg k with cores := (t.pkg k).cores, tlb2 := (t.pkg k).tlb2 } ∧
    ∀ c, t.core k c = { s.core k c with lines := (t.core k c).lines, tlb := (t.core k c).tlb }) ∧
  ∀ r ∈ t.walks, ∃ q ∈ s.walks, r = { q with wids := r.wids } ∧ (q.done = false → r = q)
/-- The page of an address, 64 KiB of it, as the walks count them (R275). -/
def pageOf (va : W64) : Nat := va.toNat / 2 ^ 16
/-- No translation that an address may use is at hand (R274, R275): neither its core's cache nor its cluster's holds one, and no
walk of this wave has answered. -/
def Misses (s : State) (va : W64) : Prop :=
  let k := s.curPkg
  let c := s.curTroupe.core
  canonicalVa va = true ∧ (∀ e ∈ (s.core k c).tlb, e.hits s.curCtx va = false) ∧
    (∀ e ∈ fget [] (s.pkg k).tlb2 (c / 256), e.hits s.curCtx va = false) ∧
    ∀ r ∈ s.walks, r.done = true → s.cur.wid ∈ r.wids → r.pkg = k → r.die = c / 256 → r.ctx = s.curCtx → r.page ≠ pageOf va
/-- A walk for the page of an address is queued or in flight for the core and the wave (R275). -/
def WalkFor (s t : State) (va : W64) : Prop :=
  ∃ r ∈ t.walks, r.done = false ∧ r.pkg = s.curPkg ∧ r.die = s.curTroupe.core / 256 ∧ r.ctx = s.curCtx ∧ r.page = pageOf va ∧
    s.curTroupe.core ∈ r.cores ∧ s.cur.wid ∈ r.wids
/-- The address that lane `l` forms from register A and a byte offset (R175). -/
def addrOf (s : State) (sp : Space) (a : Reg) (off : Int) (l : Nat) : W64 :=
  match sp with
  | .g => s.src64 s.cur.wid l a + BitVec.ofInt 64 off
  | _ => (s.src s.cur.wid l a + BitVec.ofInt 32 off).setWidth 64
/-- What the checks of R177 answer for that lane's access of `n` bytes. -/
def checkOf (s : State) (sp : Space) (kd : AccKind) (n : Nat) (va : W64) : Checked :=
  s.check s.curTid (s.wave s.cur.wid).sys sp kd va n
def bytesIn (t : MemType) : Nat := match t with | .s8 | .z8 => 1 | .s16 | .z16 => 2 | .b32 => 4 | .b64 => 8 | .b128 => 16
def wordsIn (t : MemType) (d : Reg) : List Dst := match t with | .b64 => regs2 d | .b128 => regs4 d | _ => regs1 d
/-- The words that loaded bytes, as the number they stand for, put into a destination (R179). -/
def loadedInto (t : MemType) (d : Reg) (x : Nat) : List (Dst × W32) :=
  match t with
  | .s8 => to32 d (BitVec.ofInt 32 (if x < 2 ^ 7 then x else x - 2 ^ 8))
  | .s16 => to32 d (BitVec.ofInt 32 (if x < 2 ^ 15 then x else x - 2 ^ 16))
  | .z8 | .z16 | .b32 => to32 d (BitVec.ofNat 32 x)
  | .b64 => to64 d (BitVec.ofNat 64 x)
  | .b128 => to128 d (BitVec.ofNat 128 x)
/-- The number that a lane's source register, pair or quad holds for a store. -/
def storedFrom (s : State) (t : MemType) (d : Reg) (l : Nat) : Nat :=
  match t with
  | .b64 => (s.src64 s.cur.wid l d).toNat
  | .b128 => (s.src128 s.cur.wid l d).toNat
  | _ => (s.src s.cur.wid l d).toNat
/-- The writes that a lane's store of `n` bytes becomes: one, or two halves of 16 bytes (R176). -/
def writesOf (s : State) (l key n x : Nat) (rel : Option Scope) : List PWrite :=
  let one := fun a bs => ({ id := s.nextId, wid := s.cur.wid, lane := l, core := s.curTroupe.core, pkg := s.curPkg, addr := a,
                            bytes := bs, level := 0, rel := rel } : PWrite)
  if n = 16 then [one key (leBytes 8 x), one (key + 8) (leBytes 8 (x / 2 ^ 64))] else [one key (leBytes n x)]

/-! ### Atomics and results owed (R88, R187 to R192) -/

/-- What a lane of the path does where its results are still to come: an active lane is owed them under a tag, a lane
guarded off sends zeros under Z and nothing without. -/
def owes (m : Mods) (remote : Bool) (tag : Nat) (ds : List Dst) (x : Lane) : Lane :=
  if m.active x then { x with pend := x.pend ++ ds.map (fun d => ⟨d, 0, none, false, remote, tag⟩) }
  else if m.zero then { x with pend := x.pend ++ inFlight none tag (ds.map (fun d => (d, 0))) }
  else x
/-- What a lane is owed under a tag: registers, values, and whether they are known. -/
def owedUnder (x : Lane) (tag : Nat) : List (Dst × W32 × Bool) :=
  (x.pend.filter (fun e => e.tag == tag)).map (fun e => (e.dst, e.val, e.got))
/-- A number as a signed one of `n` bits. -/
def signedOf (n x : Nat) : Int := if x < 2 ^ (n - 1) then x else (x : Int) - 2 ^ n
/-- What an atomic leaves where `m` stood, its operand being `d` (R188), in words of 32 or 64 bits. -/
def atomLeaves (o : AtomOp) (w : Bool) (m d : Nat) : Nat :=
  let n := if w then 64 else 32
  match o with
  | .add => (m + d) % 2 ^ n
  | .minS => if signedOf n d < signedOf n m then d else m
  | .minZ => min m d
  | .maxS => if signedOf n m < signedOf n d then d else m
  | .maxZ => max m d
  | .and => m &&& d
  | .or => m ||| d
  | .xor => m ^^^ d
  | .xch => d
  | .inc => if d ≤ m then 0 else m + 1
  | .fadd => (fAdd (if w then fmt64 else fmt32) .rne m d).1
/-- What an element of a `bop` becomes (R191): fill, scale, scale and add, add; f32, f64 or z32. -/
def bopLeaves (op ty y x a : Nat) : Nat :=
  if ty ≠ 0 ∧ ty ≠ 1 then (match op with | 0 => a | 1 => a * y | 2 => a * x + y | _ => x + y) % 2 ^ 32
  else
    let f := if ty = 1 then fmt64 else fmt32
    match op with
    | 0 => a
    | 1 => (fMul f .rne a y).1
    | 2 => (fFma f .rne a x y).1
    | _ => (fAdd f .rne x y).1
/-- Only the `n` bytes from `a` on change in memory, and they hold the number `v`. -/
def MemoryTakes (s t : State) (a n v : Nat) : Prop :=
  memGets t.mem a n = leBytes n v ∧ ∀ b, (b < a ∨ a + n ≤ b) → memGet t.mem b = memGet s.mem b
/-- The number in `n` bytes of memory. -/
def numberAt (s : State) (a n : Nat) : Nat := leNat (memGets s.mem a n)
/-- No write in flight that has performed at a core lies in the aligned eight bytes of any of these. -/
def NoneAbout (s : State) (a n : Nat) : Prop := ∀ x ∈ s.writes, 1 ≤ x.level → x.addr / 8 < a / 8 ∨ (a + n - 1) / 8 < x.addr / 8

/-! ### Waits -/

/-- The path waits at its instruction (R35, R206): RUN and not ready, its instruction to be taken up again. -/
def PathWaits (i : Instr) (s t : State) : Prop :=
  WaveBecomes s t (fun v => { v with waits := v.waits.filter (fun r => r.lanes &&& s.cur.lanes == 0) ++
      [⟨s.cur.lanes, i, s.cur.pc, s.cur.npc, s.cur.memb, s.cur.stall, s.cur.grouped, [], false⟩] })
    (fun _ x => { x with waiting := true })
/-- The same, and nothing else happens. -/
def Waits (i : Instr) (s t : State) : Prop := t = { s with waves := t.waves } ∧ PathWaits i s t
/-- An access waits for translations: its misses go to the walker, and nothing else happens. -/
def WaitsForWalks (i : Instr) (s t : State) (vas : List W64) : Prop :=
  t = { s with waves := t.waves, walks := t.walks } ∧ PathWaits i s t ∧ ∀ va ∈ vas, Misses s va → WalkFor s t va
/-- The issuing wave, which is in system mode or not. -/
def Privileged (s : State) : Prop := (s.wave s.cur.wid).sys = true
/-- A translation cache entry of a context meets the `n` bytes from `va` on. -/
def covers (ctx : W32) (va n : Nat) (e : TlbEntry) : Prop :=
  e.ctx = ctx ∧ va < e.base.toNat + e.size ∧ e.base.toNat < va + n
/-- No translation of these bytes is left in the caches of a package. -/
def Untranslated (t : State) (k : Nat) (ctx : W32) (va n : Nat) : Prop :=
  (∀ c, ∀ e ∈ (t.core k c).tlb, ¬ covers ctx va n e) ∧ ∀ c, ∀ e ∈ fget [] (t.pkg k).tlb2 c, ¬ covers ctx va n e

/-! ### The fabric (R225 to R231, R358, R371) -/

/-- A packet has entered the queue of its route: the spray pool, the package's own stream, or the queue of its destination. -/
def Sent (s t : State) (k h : Nat) (via : Option Nat) (x : Packet) : Prop :=
  match via with
  | some v => (t.pkg k).fab.spray = (s.pkg k).fab.spray ++ [{ x with via := v }]
  | none =>
    if h = k then (t.pkg k).fab.locals = (s.pkg k).fab.locals ++ [⟨x.kind, { x with via := k }⟩]
    else ((t.pkg k).peer h).vq = ((s.pkg k).peer h).vq ++ [{ x with via := h }]
/-- The packet of an elected remote operation, before its token or tag. -/
def remotePacket (s : State) (kind : PKind) (h : Nat) (dep : Bool) (va : W64) (dept : W32) (data : BitVec 128) : Packet :=
  { Packet.init with
    src := s.curPkg, dst := h, kind := kind, dep := dep && !(s.pkg s.curPkg).tokLanded dept, addr := va, dept := dept, data := data,
    ctx := s.curCtx, sysm := (s.wave s.cur.wid).sys, wid := s.cur.wid, born := s.nextId }
/-- Only package `k` changes, and of it nothing but its fabric. -/
def FabricOnly (s t : State) (k : Nat) : Prop :=
  t = { s with pkgs := t.pkgs } ∧ (∀ j, j ≠ k → t.pkg j = s.pkg j) ∧ t.pkg k = { s.pkg k with fab := (t.pkg k).fab }

/-! ### Packets at their destination (R366 to R373) -/

/-- Packet `x` is the next that package `k` may apply: first of its own stream (`here`) or first of the arrivals, on no token,
and behind no held packet of its stream. -/
def Ripe (s : State) (k : Nat) (here : Bool) (x : Packet) : Prop :=
  x.dep = false ∧
  if here then (s.pkg k).fab.arrivals = [] ∧ (s.pkg k).fab.locals.head? = some ⟨x.kind, x⟩
  else (∃ q, (s.pkg k).fab.arrivals.head? = some (q, x)) ∧ ∀ h ∈ (s.pkg k).fab.holds, h.blocks k x = false
/-- It has been applied: taken from its queue and counted in its stream, and its token has landed or is owed its notice. -/
structure Applied (s t : State) (k : Nat) (here : Bool) (x : Packet) : Prop where
  taken : if here then (t.pkg k).fab.locals = (s.pkg k).fab.locals.tail else (t.pkg k).fab.arrivals = (s.pkg k).fab.arrivals.tail
  counted : if here then ((t.pkg k).peer k).appliedD = ((s.pkg k).peer k).appliedD + 1
    else if x.via = k then ((t.pkg k).peer x.src).recvApplied = ((s.pkg k).peer x.src).recvApplied + 1
    else fget 0 ((t.pkg k).peer x.src).recvRelayed x.via = fget 0 ((s.pkg k).peer x.src).recvRelayed x.via + 1
  told : x.tok = true →
    if here then ((s.pkg k).tok (tokIdx x.ownt)).st ≠ .join → (t.pkg k).tokLanded x.ownt = true
    else ⟨.landed, 0, x.ownt, 0⟩ ∈ ((t.pkg k).peer x.src).notices
/-- The bytes of an access lie at `key` of this package and the tables let it through. -/
def HomeAt (s : State) (k : Nat) (x : Packet) (kd : AccKind) (va : W64) (key : Nat) : Prop :=
  ∃ c, s.homeCheck k x kd va = .ok (.at_ key c)
/-- What stops an access at its home: PROT, or else PAGE. -/
def HomeFault (s : State) (k : Nat) (x : Packet) (kd : AccKind) (va : W64) (c : Cause) : Prop :=
  (∃ b, s.homeCheck k x kd va = .bad .prot b ∧ c = .prot) ∨ ((∀ b, s.homeCheck k x kd va ≠ .bad .prot b) ∧
    (∀ key w, s.homeCheck k x kd va ≠ .ok (.at_ key w)) ∧ c = .page)
/-- The registers of a lane that are owed a value under a tag hold it on their way, low word first. -/
def LaneGets (s t : State) (w l tag : Nat) (v : BitVec 128) : Prop :=
  (∀ y ∈ (s.lane w l).steer, y.tag = tag → y.pend = false) → ((s.lane w l).owedTo tag).Nodup →
    ((s.lane w l).owedTo tag).length ≤ 4 →
    owedUnder (t.lane w l) tag = (((s.lane w l).owedTo tag).zip [v.setWidth 32, (v >>> 32).setWidth 32, (v >>> 64).setWidth 32,
      (v >>> 96).setWidth 32]).map (fun r => (r.1, r.2, true))
/-- A reply leaves for the issuer on the direct path, or, where that is this package, its value reaches its lanes. -/
def RepliesWith (s t : State) (k : Nat) (x : Packet) (mask : LaneMask) (v : BitVec 128) (es : List VEntry) : Prop :=
  (x.src ≠ k → ∃ rels, ((t.pkg k).peer x.src).vq = ((s.pkg k).peer x.src).vq ++
    [{ replyTo k x with lmask := mask, data := v, ents := es, rels := rels, via := x.src }]) ∧
  (x.src = k → ∀ r, flook (s.pkg k).fab.tags x.tag.toNat = some r → r.sext = false → es = [] → r.acq = none →
    ∀ l, (mask &&& r.lanes).getLsbD l = true → LaneGets s t r.wid l r.tag v)
/-- A write that faults at its home is discarded: memory is as it was, and a wave still at work is told later. -/
def Discarded (s t : State) (x : Packet) (lane : Nat) (va : W64) : Prop :=
  t.mem = s.mem ∧ (x.wid ≠ 0 → (s.troupe (s.wave x.wid).tid).st = .resident →
    t.wave x.wid = { s.wave x.wid with discarded := (s.wave x.wid).discarded ++ [(.page, va, lane)] })
/-- What a fixed handler of R228 leaves at a location that held `m`, its operands `a` and `b`. -/
def handlerLeaves (h : Nat) (w : Bool) (m a b : Nat) : Nat :=
  let n := 2 ^ (if w then 64 else 32)
  let f := if w then fmt64 else fmt32
  match h with
  | 1 => (fAdd f .rne m a).1
  | 2 => atomLeaves .minS w m a
  | 3 => min m a
  | 4 => atomLeaves .maxS w m a
  | 5 => max m a
  | 6 => (fMinMax f false m a).1
  | 7 => (fMinMax f true m a).1
  | 8 => m &&& a
  | 9 => m ||| a
  | 10 => m ^^^ a
  | 11 => a
  | 12 => if m = a then b else m
  | 13 => if a ≤ m then 0 else m + 1
  | 14 => (m + 1) % n
  | _ => (m + a) % n

/-! ### Contexts that stop, events, notices -/

/-- The keys of a map rise strictly, as every operation of the model leaves them. -/
def Rising {α : Type} (m : FMap α) : Prop := m.Pairwise (fun x y => x.1 < y.1)

/-- A context stops on a package (R325): its waves are over without a handler, its troupes gone, its queues in error, its
launches dropped. -/
structure ContextStops (s t : State) (k : Nat) (c : W32) : Prop where
  waves : ∀ w v u, flook s.waves w = some v → flook s.troupes v.tid = some u → u.pkg = k → u.ctx = c → (u.st = .resident ∨ u.st = .saved) →
    (t.wave w).ended = true ∧ (t.wave w).waits = [] ∧ (t.troupe v.tid).st = .published
  others : Rising s.troupes → ∀ n u, flook s.troupes n = some u → (u.pkg ≠ k ∨ u.ctx ≠ c) → t.troupe n = u
  queues : flook (s.pkg k).ctxs c.toNat ≠ none → ∀ q x, flook (s.pkg k).sched.lqs q = some x → x.ctx = c → ∃ y, flook (t.pkg k).sched.lqs q = some y ∧ y.err = true
  launches : flook (s.pkg k).ctxs c.toNat ≠ none → ∀ n x, flook (t.pkg k).sched.launches n = some x → x.ctx ≠ c
  stopped : ∀ x, flook (s.pkg k).ctxs c.toNat = some x → ∃ y, flook (t.pkg k).ctxs c.toNat = some y ∧ y.stopped = true
/-- The event queue of a package has room for one more record. -/
def EventRoom (s : State) (k : Nat) : Prop :=
  (s.pkg k).host.eqBase ≠ 0 ∧ ((s.pkg k).host.eqTail - (s.pkg k).host.eqHead).toNat ≠ 2 ^ ((s.pkg k).host.eqLog.toNat % 32)
/-- The first word of the record that stands where the event queue's tail was. -/
def eventWord (s t : State) (k : Nat) : Nat :=
  leNat (memGets (t.pkg k).host.hostMem ((s.pkg k).host.eqBase.toNat + 64 * ((s.pkg k).host.eqTail.toNat % 2 ^ ((s.pkg k).host.eqLog.toNat % 32))) 8)
/-- The record of a stop with its cause (R326) is in the event queue where it has room. -/
def StopRecorded (s t : State) (k : Nat) (c : W32) (cause sub : Nat) : Prop :=
  (∃ x, flook (s.pkg k).ctxs c.toNat = some x ∧ x.stopped = false) → EventRoom s k →
    (t.pkg k).host.eqTail = (s.pkg k).host.eqTail + 1 ∧ eventWord s t k = c.toNat * 2 ^ 32 + sub * 2 ^ 8 + cause
/-- A management event of a kind about a unit (R422) is in the event queue where it has room. -/
def EventWritten (s t : State) (k kind cls unit : Nat) : Prop :=
  EventRoom s k → (t.pkg k).host.eqTail = (s.pkg k).host.eqTail + 1 ∧
    eventWord s t k = 0xFFFFFFFF * 2 ^ 32 + unit % 2 ^ 16 * 2 ^ 16 + cls * 2 ^ 8 + kind
/-- The counts, token and holds of package `k` change as its next notice says: peer `q`'s record becomes `f` of what it was. -/
def PeerBecomes (s t : State) (k q : Nat) (rest : List (Nat × Notice)) (f : Peer → Peer) : Prop :=
  t = { s with pkgs := t.pkgs } ∧ (∀ j, j ≠ k → t.pkg j = s.pkg j) ∧ (t.pkg k).peer q = f ((s.pkg k).peer q) ∧
    (∀ j, j ≠ q → (t.pkg k).peer j = (s.pkg k).peer j) ∧
    t.pkg k = { s.pkg k with fab := { (s.pkg k).fab with inNotices := rest, peers := (t.pkg k).fab.peers } }

/-- A wait that may be taken up by itself: not a chained group's, and of all the lanes that stand at its PC (R20, R35). -/
def Whole (s : State) (w : Nat) (r : WaitRec) : Prop :=
  r.grouped = false ∧ ∃ pc, (∃ e, r.lanes.getLsbD e = true ∧ (∀ l, l < e → r.lanes.getLsbD l = false) ∧ pc = (s.lane w e).pc) ∧
    ∀ l, l < 32 → (r.lanes.getLsbD l = true ↔ (s.lane w l).st = .run ∧ (s.lane w l).pc = pc)
/-- An event takes up the first wait of wave `w` whose instruction `takes` names, with the issue it was made with (R35, R206). -/
def EndsWaits (i : Instr) (s : State) (w : Nat) (takes : Instr → Bool) : Prop :=
  ((∀ r ∈ (s.wave w).waits, r.grouped = true ∨ takes r.instr = false) → exec i s = .next s) ∧
  ∀ pre r post, (s.wave w).waits = pre ++ r :: post → (∀ x ∈ pre, x.grouped = true ∨ takes x.instr = false) → Whole s w r →
    takes r.instr = true → After i s (fun t => exec r.instr (s.resumeCur w r) = .next t)

/-- Bytes are no part of the tables that translate an address: whatever they hold, it leads to `key`. -/
def StaysAt (s : State) (k : Nat) (ctx : W32) (va : W64) (key a n : Nat) : Prop :=
  ∀ u : State, (∀ j, let p := { (s.pkg j).phys with poison := (u.pkg j).phys.poison, pace := (u.pkg j).phys.pace }
      u.pkg j = { s.pkg j with cores := (u.pkg j).cores, tlb2 := (u.pkg j).tlb2, wcache := (u.pkg j).wcache, phys := p }) →
    (∀ b, (b < a ∨ a + n ≤ b) → memGet u.mem b = memGet s.mem b) → u.devKey k ctx va = some key

/-- The addresses of a context from `va` on lie on package `k`, byte for byte from `base` on; no write in flight is about them,
and no table that translates them is among them. -/
def Lies (s : State) (k : Nat) (ctx : W32) (va : W64) (base n : Nat) : Prop :=
  va.toNat + n ≤ 2 ^ 64 ∧ NoneAbout s base n ∧ ∀ i, i < n → StaysAt s k ctx (va + BitVec.ofNat 64 i) (base + i) base n

/-! ### The host (R415 to R431) -/

/-- Only package `k` changes. -/
def PackageOnly (s t : State) (k : Nat) : Prop := t = { s with pkgs := t.pkgs } ∧ ∀ j, j ≠ k → t.pkg j = s.pkg j
/-- Package `k` becomes `p` and nothing else changes. -/
def PackageIs (s t : State) (k : Nat) (p : Pkg) : Prop := PackageOnly s t k ∧ t.pkg k = p
/-- The last command of package `k`'s queue is answered (R429, R430): DONE and its status in its slot, HEAD, vector 1. -/
def Answered (s t : State) (k n : Nat) : Prop :=
  let h := (s.pkg k).host
  let g := (t.pkg k).host
  h.cqBase ≠ 0 → h.cqTail = h.cqHead + 1 → g.cqHead = h.cqHead + 1 ∧ fget 0 g.msix 1 = fget 0 h.msix 1 + 1 ∧
    leNat (memGets g.hostMem (h.cqBase.toNat + 64 * (h.cqHead.toNat % 2 ^ (h.cqLog.toNat % 16)) + 8) 8) = 2 ^ 63 + n
/-- It is answered, and nothing else of the machine changes. -/
def AnsweredOnly (s t : State) (k n : Nat) : Prop :=
  Answered s t k n ∧ PackageIs s t k { s.pkg k with host := (t.pkg k).host }

end Sys2Proof
end

