-- ==== Sys2Proof/Safety.lean ====
section
/-! DEFINITION. What counts as a safe run: no step of it ends in a fault or a refusal, and what holds of a state throughout. -/

namespace Sys2Proof

open Machine

/-- A run of `n` steps that ends in a state. -/
def SafeFor (n : Nat) (s : State) : Prop := ∃ t, core.run n s = .next t
/-- A state from which no number of steps ends in a fault or a refusal. -/
def Safe (s : State) : Prop := ∀ n, SafeFor n s
/-- A property that no step breaks. -/
def Kept (P : State → Prop) : Prop := ∀ s t, P s → step s = .next t → P t
/-- A property of every state that a run from `s` reaches. -/
def Always (P : State → Prop) (s : State) : Prop := ∀ n t, core.run n s = .next t → P t

end Sys2Proof
end

