-- ==== Sys2Proof/Certificates/Slice0/Obligations.lean ====
section
/-! DEFINITION. The statements for the provers. -/

section

open Sys2Proof Sys2Proof.Machine

/-! ### Integer instructions (R121 to R140) -/

/-- R122, R123, R125: sums, differences and products are exact and then reduced to the width of the destination; with
SAT the 32-bit forms clamp the exact signed result. -/
def Claims.SumsAndProducts : Prop :=
  ∀ (s : State) (m : Mods) (d a b : Reg) (n : BitVec 7),
    let x := fun l => (s.src s.cur.wid l a).toInt
    let y := fun l => (s.srcB s.cur.wid l m b).toInt
    let z := fun l => (s.src s.cur.wid l (m.eReg.getD d)).toInt
    let fit := fun (v : Int) => if m.sat then nearestIn (-2 ^ 31) (2 ^ 31 - 1) v else v
    PutsType (.iadd m d a b) s m (inTwo s) .s32 d (fun l => fit (x l + y l)) ∧
    PutsType (.isub m d a b) s m (inTwo s) .s32 d (fun l => fit (x l - y l)) ∧
    PutsType (.iaddi m d a n) s m (inTwo s) .s32 d (fun l => fit (x l + n.toInt)) ∧
    PutsType (.imul m d a b) s m (inTwo s) .s32 d (fun l => x l * y l) ∧
    PutsType (.imad m d a b) s m (inTwo s) .s32 d (fun l => fit (x l * y l + z l)) ∧
    PutsType (.iaddB64 m d a) s m (inTwo s) .s64 d (fun l => operand s .s64 l d + operand s .s64 l a) ∧
    PutsType (.isubB64 m d a) s m (inTwo s) .s64 d (fun l => operand s .s64 l d - operand s .s64 l a) ∧
    PutsType (.imulB64 m d a) s m (inTwo s) .s64 d (fun l => operand s .s64 l d * operand s .s64 l a)

/-- R124: the digits of a wide addition or subtraction. Value and carry word together hold the exact sum, or what the
exact difference leaves with its borrow; only bit 0 of the carry word is read; the fourth word of a quad is zero. -/
def Obligations.CarryDigits : Prop :=
  ∀ (s : State) (m : Mods) (d a : Reg),
    let v32 := fun l => ((s.src64 s.cur.wid l d).setWidth 32).toNat
    let c32 := fun l => ((s.src64 s.cur.wid l d).getLsbD 32).toNat
    let a32 := fun l => (s.src s.cur.wid l a).toNat
    let v64 := fun l => ((s.src128 s.cur.wid l d).setWidth 64).toNat
    let c64 := fun l => ((s.src128 s.cur.wid l d).getLsbD 64).toNat
    let a64 := fun l => (s.src64 s.cur.wid l a).toNat
    Puts64 (.iaddcB32 m d a) s m d (fun l => BitVec.ofNat 64 (v32 l + a32 l + c32 l)) ∧
    Puts128 (.iaddcB64 m d a) s m d (fun l => BitVec.ofNat 128 (v64 l + a64 l + c64 l)) ∧
    Puts64 (.isubbB32 m d a) s m d (fun l => BitVec.ofNat 64
      (if v32 l < a32 l + c32 l then 2 ^ 32 + (2 ^ 32 + v32 l - a32 l - c32 l) else v32 l - a32 l - c32 l)) ∧
    Puts128 (.isubbB64 m d a) s m d (fun l => BitVec.ofNat 128
      (if v64 l < a64 l + c64 l then 2 ^ 64 + (2 ^ 64 + v64 l - a64 l - c64 l) else v64 l - a64 l - c64 l)) ∧
    ∀ f : Fields, f.maj = 23 → (f.b = 0x03 → nameBase m f = some (.iaddcB32 m f.d f.a, true)) ∧
      (f.b = 0x04 → nameBase m f = some (.isubbB32 m f.d f.a, true)) ∧ (f.b = 0x05 → nameBase m f = some (.iaddcB64 m f.d f.a, true)) ∧
      (f.b = 0x06 → nameBase m f = some (.isubbB64 m f.d f.a, true)) ∧ (f.b = 0x07 → nameBase m f = none)

/-- R125, R128: the high half of a product, the wide multiply-add, the byte dot product. -/
def Claims.WideProducts : Prop :=
  ∀ (s : State) (m : Mods) (t : IType) (p : DpType) (sg : Bool) (d a : Reg),
    let e := m.eReg.getD 120
    let w : Nat := match t with | .s32 | .z32 => 32 | .s64 | .z64 => 64
    let num := fun (signed : Bool) (x : W32) => if signed then x.toInt else x.toNat
    let byte := fun (signed : Bool) (x : W32) (i : Nat) =>
      if signed then (BitVec.setWidth 8 (x >>> (8 * i))).toInt else (BitVec.setWidth 8 (x >>> (8 * i))).toNat
    let dot := fun (l : Nat) =>
      num (p != .z8) (s.src s.cur.wid l d) +
        ((List.range 4).map (fun i => byte (p != .z8) (s.src s.cur.wid l a) i * byte (p == .s8) (s.src s.cur.wid l e) i)).sum
    PutsType (.imulh m t d a) s m (inTwo s) t d (fun l => (operand s t l d * operand s t l a) / 2 ^ w) ∧
    PutsType (.imadw m sg d a) s m (inTwo s) .s64 d (fun l =>
      operand s .s64 l d + num sg (s.src s.cur.wid l a) * num sg (s.src s.cur.wid l e)) ∧
    PutsType (.dp4 m p d a) s m (inTwo s) .s32 d (fun l =>
      if m.sat then (if p = .z8 then nearestIn 0 (2 ^ 32 - 1) (dot l) else nearestIn (-2 ^ 31) (2 ^ 31 - 1) (dot l)) else dot l)

/-- R126: quotient and remainder, scoreboarded. The dividend is quotient times divisor plus remainder, the remainder is
smaller in size than the divisor and takes the dividend's sign; a zero divisor gives all ones and the dividend; the most
negative dividend over -1 wraps. -/
def Obligations.QuotientAndRemainder : Prop :=
  ∀ (s : State) (m : Mods) (t : IType) (d a : Reg),
    ∃ q r : Nat → Int,
      PutsType (.idiv m t d a) s m none t d q ∧ PutsType (.irem m t d a) s m none t d r ∧
      (∀ l, let x := operand s t l d
            let y := operand s t l a
            if y = 0 then q l = -1 ∧ r l = x
            else x = q l * y + r l ∧ |r l| < |y| ∧ (r l = 0 ∨ (r l < 0 ↔ x < 0))) ∧
      ∀ f : Fields, f.maj = 23 → (f.b.toNat = 0x10 + t.code → nameBase m f = some (.idiv m t f.d f.a, true)) ∧
        (f.b.toNat = 0x14 + t.code → nameBase m f = some (.irem m t f.d f.a, true))

/-- R127: sign, minimum, maximum, clamp, by the order of the numbers that the operands stand for. -/
def Claims.OrderedChoices : Prop :=
  ∀ (s : State) (m : Mods) (t : IType) (w : Bool) (d a : Reg),
    let st : IType := if w then .s64 else .s32
    let e := m.eReg.getD 120
    PutsType (.iabs m w d a) s m (inTwo s) st d (fun l => |operand s st l a|) ∧
    PutsType (.ineg m w d a) s m (inTwo s) st d (fun l => -operand s st l a) ∧
    (∃ v, PutsType (.imin m t d a) s m (inTwo s) t d v ∧
      ∀ l, v l ≤ operand s t l d ∧ v l ≤ operand s t l a ∧ (v l = operand s t l d ∨ v l = operand s t l a)) ∧
    (∃ v, PutsType (.imax m t d a) s m (inTwo s) t d v ∧
      ∀ l, operand s t l d ≤ v l ∧ operand s t l a ≤ v l ∧ (v l = operand s t l d ∨ v l = operand s t l a)) ∧
    (∃ v, PutsType (.iclamp m t d a) s m (inTwo s) t d v ∧
      ∀ l, (operand s t l e < operand s t l a → v l = operand s t l e) ∧
        (operand s t l a ≤ operand s t l e → v l = nearestIn (operand s t l a) (operand s t l e) (operand s t l d)))

/-- R129, R130: each bit of a shifted, rotated or funnelled value, for a count of any size. -/
def Claims.ShiftedBits : Prop :=
  ∀ (s : State) (m : Mods) (o : ShOp) (n : BitVec 5) (d a b : Reg),
    let x := s.src s.cur.wid
    let c := fun l => (s.srcB s.cur.wid l m b).toNat
    let k := fun l => (s.src s.cur.wid l a).toNat
    let shifted := fun (o : ShOp) (w : Nat) (bit : Nat → Bool) (n j : Nat) =>
      match o with
      | .shl => decide (n ≤ j) && bit (j - n)
      | .shr => decide (j + n < w) && bit (j + n)
      | .sar => if j + n < w then bit (j + n) else bit (w - 1)
      | .rotl => bit ((j + (w - n % w)) % w)
    let ring := fun (l j : Nat) => if j < 32 then (x l a).getLsbD j else (s.srcB s.cur.wid l m b).getLsbD (j - 32)
    Bits32 (.shl m d a b) s m d (fun l => shifted .shl 32 (x l a).getLsbD (c l)) ∧
    Bits32 (.shr m d a b) s m d (fun l => shifted .shr 32 (x l a).getLsbD (c l)) ∧
    Bits32 (.sar m d a b) s m d (fun l => shifted .sar 32 (x l a).getLsbD (c l)) ∧
    Bits32 (.shi m o n d a) s m d (fun l => shifted o 32 (x l a).getLsbD n.toNat) ∧
    Bits64 (.shlB64 m d a) s m d (fun l => shifted .shl 64 (s.src64 s.cur.wid l d).getLsbD (k l)) ∧
    Bits64 (.shrB64 m d a) s m d (fun l => shifted .shr 64 (s.src64 s.cur.wid l d).getLsbD (k l)) ∧
    Bits64 (.sarB64 m d a) s m d (fun l => shifted .sar 64 (s.src64 s.cur.wid l d).getLsbD (k l)) ∧
    Bits32 (.rotlB32 m d a) s m d (fun l => shifted .rotl 32 (x l d).getLsbD (k l)) ∧
    Bits64 (.rotlB64 m d a) s m d (fun l => shifted .rotl 64 (s.src64 s.cur.wid l d).getLsbD (k l)) ∧
    Bits32 (.shf m d a b) s m d (fun l j => ring l (((x l (m.eReg.getD d)).toNat % 64 + j) % 64)) ∧
    ∀ f : Fields, f.maj = 16 → nameBase m f = some (.shf m f.d f.a f.b, true)

/-- R131, R132: bitwise logic and the truth table of `lop3`, bit by bit. -/
def Claims.LogicBits : Prop :=
  ∀ (s : State) (m : Mods) (d a b : Reg),
    let x := fun l => (s.src s.cur.wid l a).getLsbD
    let y := fun l => (s.srcB s.cur.wid l m b).getLsbD
    let p := fun l => (s.src64 s.cur.wid l d).getLsbD
    let q := fun l => (s.src64 s.cur.wid l a).getLsbD
    let lit := (m.lit.getD 0)
    let z := fun l => (s.src s.cur.wid l (lit.setWidth 7)).getLsbD
    Bits32 (.andB32 m d a b) s m d (fun l j => x l j && y l j) ∧
    Bits32 (.orB32 m d a b) s m d (fun l j => x l j || y l j) ∧
    Bits32 (.xorB32 m d a b) s m d (fun l j => x l j ^^ y l j) ∧
    Bits64 (.andB64 m d a) s m d (fun l j => p l j && q l j) ∧
    Bits64 (.orB64 m d a) s m d (fun l j => p l j || q l j) ∧
    Bits64 (.xorB64 m d a) s m d (fun l j => p l j ^^ q l j) ∧
    Bits32 (.lop3 m d a b) s m d (fun l j =>
      lit.getLsbD (7 + ((x l j).toNat + 2 * ((s.src s.cur.wid l b).getLsbD j).toNat + 4 * (z l j).toNat)))

/-- R133: counts and reversals. The number of one bits; the place of the highest and of the lowest one bit, the width
where there is none; each bit of the reversed value. -/
def Claims.CountedBits : Prop :=
  ∀ (s : State) (m : Mods) (w : Bool) (d a : Reg),
    let n := if w then 64 else 32
    let bit := fun l => if w then (s.src64 s.cur.wid l a).getLsbD else (s.src s.cur.wid l a).getLsbD
    Puts32 (.popc m w d a) s m d (fun l => BitVec.ofNat 32 ((Finset.range n).filter (fun j => bit l j = true)).card) ∧
    (∃ v : Nat → Nat, Puts32 (.clz m w d a) s m d (fun l => BitVec.ofNat 32 (v l)) ∧
      ∀ l, v l ≤ n ∧ (∀ j, j < v l → bit l (n - 1 - j) = false) ∧ (v l < n → bit l (n - 1 - v l) = true)) ∧
    (∃ v : Nat → Nat, Puts32 (.ctz m w d a) s m d (fun l => BitVec.ofNat 32 (v l)) ∧
      ∀ l, v l ≤ n ∧ (∀ j, j < v l → bit l j = false) ∧ (v l < n → bit l (v l) = true)) ∧
    (if w then Bits64 (.brev m w d a) s m d (fun l j => bit l (63 - j))
     else Bits32 (.brev m w d a) s m d (fun l j => bit l (31 - j)))

/-- R134, R135: a field taken out of a word or put into one, bit by bit, and the bytes that `prmt` picks. -/
def Claims.FieldsAndBytes : Prop :=
  ∀ (s : State) (m : Mods) (d a b : Reg),
    let x := fun l => (s.src s.cur.wid l a).getLsbD
    let c := fun l => s.srcB s.cur.wid l m b
    let z := fun l => (s.src s.cur.wid l (m.eReg.getD d))
    let start := fun l => (c l).toNat % 256
    let len := fun l => min ((c l).toNat / 256 % 256) 32
    let pool := fun (l i : Nat) => BitVec.setWidth 8
      (if i < 4 then s.src s.cur.wid l a >>> (8 * i) else z l >>> (8 * (i - 4)))
    Bits32 (.bfx m d a b) s m d (fun l j =>
      if j < len l then x l (start l + j)
      else (c l).getLsbD 16 && decide (0 < len l) && x l (start l + len l - 1)) ∧
    Bits32 (.bfi m d a b) s m d (fun l j =>
      if start l ≤ j ∧ j < start l + len l then x l (j - start l) else (z l).getLsbD j) ∧
    Bits32 (.prmt m d a b) s m d (fun l j =>
      let k := (c l).toNat / 2 ^ (8 * (j / 8))
      let v := pool l (k % 8)
      match k / 8 % 4 with
      | 0 => v.getLsbD (j % 8)
      | 1 => false
      | 2 => v.getLsbD 7
      | _ => true) ∧
    ∀ f : Fields, f.maj = 15 → nameBase m f = some (.prmt m f.d f.a f.b, true)

/-- R133, R136, R137: moves, selection and addresses. -/
def Claims.MovesAndAddresses : Prop :=
  ∀ (s : State) (m : Mods) (w : Bool) (d a b : Reg) (i : BitVec 14),
    let lit := m.lit.getD 0
    let x := fun l => s.src s.cur.wid l b
    (if w then Puts64 (.mov m w d a) s m d (fun l => s.src64 s.cur.wid l a)
     else Puts32 (.mov m w d a) s m d (fun l => s.src s.cur.wid l a)) ∧
    PutsType (.movi m d i) s m (inTwo s) .s32 d (fun _ => i.toInt) ∧
    PutsType (.movl m d i) s m (inTwo s) .z32 d (fun _ => lit.toNat * 2 ^ 14 + i.toNat) ∧
    PutsType (.movh m d i) s m (inTwo s) .z32 d (fun _ => i.toNat * 2 ^ 18) ∧
    Puts32 (.sel m d a b) s m d (fun l =>
      if (s.lane s.cur.wid l).pred (m.eReg.getD 0).toNat then s.src s.cur.wid l a else s.srcB s.cur.wid l m b) ∧
    PutsType (.lea m d a b) s m (inTwo s) .s64 d (fun l =>
      operand s .s64 l a + (if lit.getLsbD 3 then ((x l).toNat : Int) else (x l).toInt) * 2 ^ (lit.toNat % 8))

/-- R138, R139: comparisons write one predicate from the order of their operands, a literal B extended by its sign; the
predicate functions move, set, pack, unpack and combine predicates, p0 reading 1 and discarding what is written to it. -/
def Claims.PredicateResults : Prop :=
  ∀ (s : State) (m : Mods) (w v : Bool) (p : BitVec 6) (k : BitVec 2) (d a b : Reg),
    let st : IType := if w then .s64 else .s32
    let zt : IType := if w then .z64 else .z32
    let lit := m.lit.getD 0
    let x := fun (t : IType) l => operand s t l a
    let y := fun l => match m.lit with | some i => i.toInt | none => operand s st l b
    let yz := fun l => match m.lit with
      | some i => (if w then ((i.signExtend 64).toNat : Int) else (i.signExtend 32).toNat) | none => operand s zt l b
    let pr := fun l (q : Reg) => (s.lane s.cur.wid l).pred q.toNat
    let q := p.setWidth 7
    PutsP (.icmpEq m w p a b) s m q (fun l => decide (x st l = y l)) ∧
    PutsP (.icmpNe m w p a b) s m q (fun l => decide (x st l ≠ y l)) ∧
    PutsP (.icmpLtS m w p a b) s m q (fun l => decide (x st l < y l)) ∧
    PutsP (.icmpLtZ m w p a b) s m q (fun l => decide (x zt l < yz l)) ∧
    PutsP (.pmov m d a) s m d (fun l => pr l a) ∧
    PutsP (.pset m d v) s m d (fun _ => v) ∧
    PutsP (.plop3 m d a) s m d (fun l => lit.getLsbD (14 +
      ((pr l a).toNat + 2 * (pr l (lit.setWidth 7)).toNat + 4 * (pr l (BitVec.setWidth 7 (lit >>> 7))).toNat))) ∧
    Bits32 (.p2g m d k) s m d (fun l j => (s.lane s.cur.wid l).pred (32 * k.toNat + j)) ∧
    (∃ ds vs, Computes (.g2p m k a) s m (inTwo s) ds vs ∧
      (∀ r, r ∈ ds ↔ ∃ j, j < 32 ∧ 32 * k.toNat + j ≠ 0 ∧ r = .p (BitVec.ofNat 7 (32 * k.toNat + j))) ∧
      (∀ l r u, (r, u) ∈ vs l ↔ ∃ j, j < 32 ∧ 32 * k.toNat + j ≠ 0 ∧ r = .p (BitVec.ofNat 7 (32 * k.toNat + j)) ∧
        u = if (s.src s.cur.wid l a).getLsbD j then 1 else 0)) ∧
    -- p0 reads 1, and a result on its way to it is dropped when it lands
    ∀ x : Lane, x.pred 0 = true ∧ ∀ due : Pend → Bool, (∀ e ∈ x.pend, due e = true → e.dst = .p 0) →
      (x.land due).p = x.p ∧ (x.land due).g = x.g ∧ (∀ e ∈ (x.land due).pend, due e = false)

/-! ### Floating-point instructions (R141 to R152) -/

/-- R49, R50: one rounding. The result is a number of the format; RTZ, RDN and RUP take the nearest on their side, RNE and
RNA the nearest. NX says that it differs; OF that the number, rounded with an unbounded exponent, exceeds the largest finite
one; UF that it differs and, so rounded, lies below the smallest normal. -/
def Obligations.RoundingIsCorrect : Prop :=
  ∀ (f : Fmt), f ∈ [fmt32, fmt64, fmt16, fmtB16] →
  ∀ (md : RMode) (neg : Bool) (m : Nat) (e : Int), m ≠ 0 →
    let q : ℚ := ratOf (.fin neg m e)
    let r := roundFin f md neg m e
    let big : ℚ := ratOf (f.val f.maxBits)
    let num := fun b => ratOf (f.val b)
    -- the size of `q`, rounded to multiples of `u`, comes to `b`, the power of two above them
    let reaches := fun (b u : ℚ) => match md with
      | .rne | .rna => b - u / 2 ≤ |q|
      | .rtz => b ≤ |q|
      | .rdn => if neg then b - u < |q| else b ≤ |q|
      | .rup => if neg then b ≤ |q| else b - u < |q|
    -- the numbers of the format
    let inFormat := fun (x : ℚ) => ∃ b, b < 2 ^ f.bits ∧ (f.val b).isNan = false ∧ (f.val b).isInf = false ∧ num b = x
    r.1 < 2 ^ f.bits ∧ (f.val r.1).isNan = false ∧ (f.val r.1).neg = neg ∧
    (r.2.getLsbD 2 = false → (f.val r.1).isInf = false ∧
      (r.2.getLsbD 4 = true ↔ num r.1 ≠ q) ∧
      (∀ x, inFormat x → match md with
        | .rne => |num r.1 - q| ≤ |x - q| ∧ (|num r.1 - q| = |x - q| → x ≠ num r.1 → r.1 % 2 = 0)
        | .rna => |num r.1 - q| ≤ |x - q| ∧ (|num r.1 - q| = |x - q| → x ≠ num r.1 → |q| ≤ |num r.1|)
        | .rtz => |num r.1| ≤ |q| ∧ (|x| ≤ |q| → |x| ≤ |num r.1|)
        | .rdn => num r.1 ≤ q ∧ (x ≤ q → x ≤ num r.1)
        | .rup => q ≤ num r.1 ∧ (q ≤ x → num r.1 ≤ x))) ∧
    (r.2.getLsbD 2 = true → r.2.getLsbD 4 = true ∧ big < |q| ∧
      r.1 = f.sign neg + (if md = .rne ∨ md = .rna ∨ (md = .rdn ∧ neg) ∨ (md = .rup ∧ ¬ neg) then f.infBits else f.maxBits)) ∧
    (r.2.getLsbD 2 = true ↔ reaches ((2 : ℚ) ^ (f.bias + 1)) ((2 : ℚ) ^ (f.bias - f.fb))) ∧
    (r.2.getLsbD 3 = true ↔ num r.1 ≠ q ∧ ¬ reaches ((2 : ℚ) ^ (f.qmin + f.fb)) ((2 : ℚ) ^ (f.qmin - 1)))

/-- R143, R144: sums, differences, products, fused products and quotients, each rounded once from the exact value, with
the special values and flags that the rules give. -/
def Claims.FloatArithmetic : Prop :=
  ∀ (s : State) (m : Mods) (f : FFmt) (d a b : Reg),
    let md := s.rmode m .rne
    let w := s.cur.wid
    let b32 := fun l => fmt32.val (match m.lit with | some x => x.toNat * 8 | none => (s.src w l b).toNat)
    let b64 := fun l => fmt64.val (match m.lit with | some x => x.toNat * 2 ^ 35 | none => (s.src64 w l b).toNat)
    let c := m.eReg.getD d
    let e := m.eReg.getD 120
    let t := fmtOf f
    PutsSuch (.faddF32 m d a b) s m (vDue s .f32) .f32 d (fun l _ => SumIs fmt32 md (valOf s .f32 l a 0) (b32 l)) ∧
    PutsSuch (.fsubF32 m d a b) s m (vDue s .f32) .f32 d (fun l _ => SumIs fmt32 md (valOf s .f32 l a 0) (b32 l).negate) ∧
    PutsSuch (.fmulF32 m d a b) s m (vDue s .f32) .f32 d (fun l _ => ProductIs fmt32 md (valOf s .f32 l a 0) (b32 l)) ∧
    PutsSuch (.ffmaF32 m d a b) s m (vDue s .f32) .f32 d
      (fun l _ => FusedIs fmt32 md (valOf s .f32 l a 0) (b32 l) (valOf s .f32 l c 0)) ∧
    PutsSuch (.faddF64 m d a b) s m (vDue s .f64) .f64 d (fun l _ => SumIs fmt64 md (valOf s .f64 l a 0) (b64 l)) ∧
    PutsSuch (.fmulF64 m d a b) s m (vDue s .f64) .f64 d (fun l _ => ProductIs fmt64 md (valOf s .f64 l a 0) (b64 l)) ∧
    PutsSuch (.ffmaF64 m d a b) s m (vDue s .f64) .f64 d
      (fun l _ => FusedIs fmt64 md (valOf s .f64 l a 0) (b64 l) (valOf s .f64 l c 0)) ∧
    PutsSuch (.fadd m f d a) s m (vDue s f) f d (fun l j => SumIs t md (valOf s f l d j) (valOf s f l a j)) ∧
    PutsSuch (.fsub m f d a) s m (vDue s f) f d (fun l j => SumIs t md (valOf s f l d j) (valOf s f l a j).negate) ∧
    PutsSuch (.fmul m f d a) s m (vDue s f) f d (fun l j => ProductIs t md (valOf s f l d j) (valOf s f l a j)) ∧
    PutsSuch (.ffma m f d a) s m (vDue s f) f d
      (fun l j => FusedIs t md (valOf s f l a j) (valOf s f l e j) (valOf s f l d j)) ∧
    PutsSuch (.fdiv m f d a) s m none f d (fun l j => QuotientIs t md (valOf s f l d j) (valOf s f l a j))

/-- R52, R145, R148: minimum and maximum take a NaN as missing and set NV for a signalling one; the sign instructions move
one bit of each element and set no flag; `fclass` sets the one bit of the class of its operand. -/
def Claims.FloatChoicesAndSigns : Prop :=
  ∀ (s : State) (m : Mods) (f : FFmt) (d a : Reg),
    let t := fmtOf f
    let x := fun l j => elemOf s f l d j
    let y := fun l j => elemOf s f l a j
    let p := 2 ^ (t.bits - 1)
    let pick := fun (less : FVal → FVal → Prop) l j (r : Nat × BitVec 5) =>
      r.2 = nvIf ((t.val (x l j)).isSig || (t.val (y l j)).isSig) ∧
      ((t.val (x l j)).isNan → (t.val (y l j)).isNan → r.1 = t.nan) ∧
      ((t.val (x l j)).isNan → (t.val (y l j)).isNan = false → r.1 = y l j) ∧
      ((t.val (x l j)).isNan = false → (t.val (y l j)).isNan → r.1 = x l j) ∧
      ((t.val (x l j)).isNan = false → (t.val (y l j)).isNan = false →
        (r.1 = x l j ∨ r.1 = y l j) ∧ ¬ less (t.val (x l j)) (t.val r.1) ∧ ¬ less (t.val (y l j)) (t.val r.1))
    PutsSuch (.fmin m f d a) s m (vDue s f) f d (pick Below) ∧
    PutsSuch (.fmax m f d a) s m (vDue s f) f d (pick (fun u v => Below v u)) ∧
    PutsFloat (.fabs m f d a) s m (vDue s f) f d (fun l j => (y l j % p, 0)) ∧
    PutsFloat (.fneg m f d a) s m (vDue s f) f d (fun l j => (if y l j < p then y l j + p else y l j - p, 0)) ∧
    PutsFloat (.fcopysign m f d a) s m (vDue s f) f d (fun l j => (x l j % p + (y l j / p) * p, 0)) ∧
    (∃ k : Nat → Nat, Computes (.fclass m f d a) s m (vDue s f) (regs1 d) (fun l => to32 d (BitVec.ofNat 32 (2 ^ k l))) ∧
      ∀ l, let ex := y l 0 / 2 ^ t.fb % 2 ^ t.eb
           let fr := y l 0 % 2 ^ t.fb
           let neg := decide (p ≤ y l 0)
           k l = if ex = 2 ^ t.eb - 1 then (if fr = 0 then (if neg then 0 else 7) else if fr < 2 ^ (t.fb - 1) then 8 else 9)
             else if ex = 0 then (if fr = 0 then (if neg then 3 else 4) else (if neg then 2 else 5))
             else (if neg then 1 else 6))

/-- R146: scaling by a power of two, the exponent and the significand of a number, and rounding to an integral value. -/
def Claims.FloatExponents : Prop :=
  ∀ (s : State) (m : Mods) (f : FFmt) (d a : Reg),
    let t := fmtOf f
    let md := s.rmode m .rne
    let n := fun l j => if elemsOf f = 2 then (BitVec.setWidth 16 (s.src s.cur.wid l a >>> (16 * j))).toInt
      else (s.src s.cur.wid l a).toInt
    -- a NaN gives the canonical one, with NV where it signals; an infinity stays
    let plain := fun (v : FVal) (p : Bool → Nat → Prop) (inf : Bool → Nat × BitVec 5) (r : Nat × BitVec 5) =>
      match v with
      | .nan g => r = nanResult t g
      | .inf g => r = inf g
      | .fin g k _ => p g k
    PutsSuch (.fscale m f d a) s m (vDue s f) f d (fun l j r =>
      plain (valOf s f l d j) (fun g _ => Rounds t md (ratOf (valOf s f l d j) * (2 : ℚ) ^ n l j) g r)
        (fun g => (infBitsOf t g, 0)) r) ∧
    PutsSuch (.fgetexp m f d a) s m (vDue s f) f d (fun l j r =>
      plain (valOf s f l a j) (fun _ k => if k = 0 then r = (infBitsOf t true, 2) else
          r.2 = 0 ∧ ∃ i : Int, (2 : ℚ) ^ i ≤ |ratOf (valOf s f l a j)| ∧ |ratOf (valOf s f l a j)| < (2 : ℚ) ^ (i + 1) ∧
            ratOf (t.val r.1) = i ∧ (t.val r.1).isInf = false ∧ (t.val r.1).isNan = false)
        (fun _ => (infBitsOf t false, 0)) r) ∧
    PutsSuch (.fgetman m f d a) s m (vDue s f) f d (fun l j r =>
      plain (valOf s f l a j) (fun g k => if k = 0 then r = (t.sign g, 0) else
          r.2 = 0 ∧ ∃ i : Int, ratOf (t.val r.1) = ratOf (valOf s f l a j) * (2 : ℚ) ^ i ∧
            1 ≤ |ratOf (t.val r.1)| ∧ |ratOf (t.val r.1)| < 2 ∧ (t.val r.1).isInf = false ∧ (t.val r.1).isNan = false)
        (fun g => (infBitsOf t g, 0)) r) ∧
    PutsSuch (.frint m f d a) s m (vDue s f) f d (fun l j r =>
      plain (valOf s f l a j) (fun g _ => ∃ i : Int, RoundsToInt md (ratOf (valOf s f l a j)) i ∧
          ratOf (t.val r.1) = i ∧ (t.val r.1).isInf = false ∧ (t.val r.1).isNan = false ∧ (t.val r.1).neg = g ∧
          r.2 = if (i : ℚ) = ratOf (valOf s f l a j) then 0 else 16)
        (fun g => (infBitsOf t g, 0)) r)

/-- R147: a comparison writes one predicate from the order of its operands, false (true for `un`) with a NaN, and sets NV
for a signalling NaN, or in `lt` and `le` for any NaN. A literal B is an FP32 or an FP64 value. -/
def Claims.FloatComparisons : Prop :=
  ∀ (s : State) (m : Mods) (w : Bool) (p : BitVec 6) (a b : Reg),
    let due := some (s.clock + if w then 6 else 4)
    let x := fun l => if w then valOf s .f64 l a 0 else valOf s .f32 l a 0
    let y := fun l => match m.lit with
      | some i => if w then fmt64.val (i.toNat * 2 ^ 35) else fmt32.val (i.toNat * 8)
      | none => if w then valOf s .f64 l b 0 else valOf s .f32 l b 0
    let writes := fun (i : Instr) (v : Nat → Bool) (nv : Nat → Bool) =>
      ∃ t, exec i s = .next t ∧ Writes s t m due [.p (p.setWidth 7)] (fun l => toP (p.setWidth 7) (v l)) (fun l => nvIf (nv l))
    let quiet := fun l => (x l).isSig || (y l).isSig
    let loud := fun l => (x l).isNan || (y l).isNan
    (∃ v, writes (.fcmpEq m w p a b) v quiet ∧ ∀ l, v l = true ↔ Same (x l) (y l)) ∧
    (∃ v, writes (.fcmpLt m w p a b) v loud ∧ ∀ l, v l = true ↔ Less (x l) (y l)) ∧
    (∃ v, writes (.fcmpLe m w p a b) v loud ∧ ∀ l, v l = true ↔ (Less (x l) (y l) ∨ Same (x l) (y l))) ∧
    writes (.fcmpUn m w p a b) loud quiet

/-- R54, R149: the special functions, scoreboarded. Reciprocal, square root and reciprocal square root are the exact value
rounded once; every function has the special values that R54 lists. -/
def Obligations.SpecialFunctions : Prop :=
  ∀ (s : State) (m : Mods) (f : FFmt) (d a : Reg),
    let t := fmtOf f
    let md := s.rmode m .rne
    let x := fun l j => valOf s f l a j
    let one := (roundFin t md false 1 0).1
    let neg := t.sign true
    let half := fun (v : FVal) => ∃ i : Int, ratOf v = i + 1 / 2
    PutsSuch (.fsqrt m f d a) s m none f d (fun l j => RootIs t md (x l j)) ∧
    PutsSuch (.frcp m f d a) s m none f d (fun l j => QuotientIs t md (.fin false 1 0) (x l j)) ∧
    PutsSuch (.frsqrt m f d a) s m none f d (fun l j => ReciprocalRootIs t md (x l j)) ∧
    PutsSuch (.fexp2 m f d a) s m none f d (fun l j r => match x l j with
      | .nan g => r = nanResult t g
      | .inf g => r = (if g then 0 else infBitsOf t false, 0)
      | .fin _ _ _ => ∀ i : Int, ratOf (x l j) = i → -t.bias ≤ i → i ≤ t.bias → r = roundFin t md false 1 i) ∧
    PutsSuch (.flog2 m f d a) s m none f d (fun l j r => match x l j with
      | .nan g => r = nanResult t g
      | .inf g => r = if g then nanResult t true else (infBitsOf t false, 0)
      | .fin g k _ => if k = 0 then r = (infBitsOf t true, 2) else if g then r = nanResult t true else
        ∀ i : Int, ratOf (x l j) = (2 : ℚ) ^ i → r = roundFin t md (decide (i < 0)) i.natAbs 0) ∧
    PutsSuch (.fsinpi m f d a) s m none f d (fun l j r => match x l j with
      | .nan g => r = nanResult t g
      | .inf _ => r = nanResult t true
      | .fin g _ _ => (∀ i : Int, ratOf (x l j) = i → r = (t.sign g, 0)) ∧
        (∀ i : Int, ratOf (x l j) = i + 1 / 2 → r = if i % 2 = 0 then (one, 0) else (neg + one, 0))) ∧
    PutsSuch (.fcospi m f d a) s m none f d (fun l j r => match x l j with
      | .nan g => r = nanResult t g
      | .inf _ => r = nanResult t true
      | .fin _ _ _ => (half (x l j) → r = (0, 0)) ∧
        (∀ i : Int, ratOf (x l j) = i → r = if i % 2 = 0 then (one, 0) else (neg + one, 0))) ∧
    PutsSuch (.ftanh m f d a) s m none f d (fun l j r => match x l j with
      | .nan g => r = nanResult t g
      | .inf g => r = (t.sign g + one, 0)
      | .fin g k _ => k = 0 → r = (t.sign g, 0))

/-- R150: the packed dot product, the exact sum of three terms rounded once to FP32. -/
def Claims.PackedDotProduct : Prop :=
  ∀ (s : State) (m : Mods) (f : FFmt) (d a : Reg), elemsOf f = 2 →
    let md := s.rmode m .rne
    let e := m.eReg.getD 120
    let q := fun l => fmt32.val (s.src s.cur.wid l d).toNat
    let x := fun l j => valOf s f l a j
    let y := fun l j => valOf s f l e j
    let finite := fun (v : FVal) => v.isNan = false ∧ v.isInf = false
    PutsSuch (.fdot2 m f d a) s m (vDue s .f32) .f32 d (fun l _ r =>
      (finite (q l) → (∀ j, finite (x l j) ∧ finite (y l j)) →
        let zero := (q l).isZero && ((x l 0).isZero || (y l 0).isZero) && ((x l 1).isZero || (y l 1).isZero)
        let negs := [(q l).neg, (x l 0).neg ^^ (y l 0).neg, (x l 1).neg ^^ (y l 1).neg]
        Rounds fmt32 md (ratOf (q l) + ratOf (x l 0) * ratOf (y l 0) + ratOf (x l 1) * ratOf (y l 1))
          (if zero && negs.all id then true else if zero && negs.all (!·) then false else md == .rdn) r) ∧
      (((q l).isNan ∨ ∃ j, j < 2 ∧ ((x l j).isNan ∨ (y l j).isNan)) → r.1 = fmt32.nan) ∧
      ((∃ j, j < 2 ∧ (((x l j).isInf ∧ (y l j).isZero) ∨ ((x l j).isZero ∧ (y l j).isInf))) →
        r.1 = fmt32.nan ∧ r.2.getLsbD 0 = true) ∧
      ((q l).isNan = false → (∀ j, (x l j).isNan = false ∧ (y l j).isNan = false) →
        (∀ j, ¬ (((x l j).isInf ∧ (y l j).isZero) ∨ ((x l j).isZero ∧ (y l j).isInf))) →
        let signs := (if (q l).isInf then [(q l).neg] else []) ++
          ([0, 1].filter (fun j => (x l j).isInf || (y l j).isInf)).map (fun j => (x l j).neg ^^ (y l j).neg)
        ∀ g, g ∈ signs → r = if (!g) ∈ signs then nanResult fmt32 true else (infBitsOf fmt32 g, 0)))

/-- R151, R152: conversions. Between floating-point formats and from integers the exact value rounded once; to integers
rounded under the mode, RTZ where none is given, out of range the indefinite value with NV, or under SAT the nearest; the
packing forms convert element by element. -/
def Obligations.Conversions : Prop :=
  ∀ (s : State) (m : Mods) (x y : CvtType) (k : PackKind) (d a : Reg),
    let isF := fun (c : CvtType) => c = .f32 ∨ c = .f64 ∨ c = .f16 ∨ c = .bf16
    let wide := fun (c : CvtType) => c = .f64 ∨ c = .s64 ∨ c = .z64
    let ff := fun (c : CvtType) => match c with | .f64 => FFmt.f64 | .f16 => .f16 | .bf16 => .bf16 | _ => .f32
    let it := fun (c : CvtType) => match c with | .s32 => IType.s32 | .z32 => .z32 | .s64 => .s64 | _ => .z64
    let src := fun l => valOf s (ff y) l a 0
    let int := fun l => operand s (it y) l a
    let narrow := (fmtOf (ff x)).eb < (fmtOf (ff y)).eb ∨ (fmtOf (ff x)).fb < (fmtOf (ff y)).fb
    let t := fmtOf (ff x)
    let due := some (s.clock + 6)
    let md := s.rmode m .rne
    -- an overflow under SAT is the largest finite value
    let sat := fun (r : Nat × BitVec 5) => if m.sat && r.2.getLsbD 2 then (t.sign (decide (2 ^ (t.bits - 1) ≤ r.1)) + t.maxBits, r.2) else r
    ∃ r : Nat → Nat × BitVec 5,
      (∃ u, exec (.cvt m x y d a) s = .next u ∧ Writes s u m due (if wide x then regs2 d else regs1 d)
        (fun l => if wide x then to64 d (BitVec.ofNat 64 (r l).1) else to32 d (BitVec.ofNat 32 (r l).1)) (fun l => (r l).2)) ∧
      (isF x → isF y → ∀ l, match src l with
        | .nan g => r l = nanResult t g
        | .inf g => r l = (t.sign g + (if m.sat ∧ narrow then t.maxBits else t.infBits), 0)
        | .fin g _ _ => ∃ u, Rounds t (if narrow then md else .rne) (ratOf (src l)) g u ∧ r l = if narrow then sat u else (u.1, 0)) ∧
      (isF x → ¬ isF y → ∀ l, ∃ u, Rounds t md (int l) false u ∧ r l = sat u) ∧
      (¬ isF x → isF y → ∀ l,
        let bad := if m.sat then 0 else if x = .s32 then 2 ^ 31 else if x = .s64 then 2 ^ 63 else if x = .z32 then 2 ^ 32 - 1 else 2 ^ 64 - 1
        let wrap := fun (i : Int) => (i % 2 ^ (if wide x then 64 else 32)).toNat
        match src l with
        | .nan _ => r l = (bad, 1)
        | .inf g => r l = (if m.sat then wrap (if g then typeMin (it x) else typeMax (it x)) else bad, 1)
        | .fin _ _ _ => ∃ i : Int, RoundsToInt (s.rmode m .rtz) (ratOf (src l)) i ∧
            r l = if i < typeMin (it x) ∨ typeMax (it x) < i
              then (if m.sat then wrap (nearestIn (typeMin (it x)) (typeMax (it x)) i) else bad, 1)
              else (wrap i, if (i : ℚ) = ratOf (src l) then 0 else 16)) ∧
      (¬ isF x → ¬ isF y → ∀ l, r l =
        (((if m.sat then nearestIn (typeMin (it x)) (typeMax (it x)) (int l) else int l) % 2 ^ (if wide x then 64 else 32)).toNat, 0)) ∧
      (∃ (u : State) (v : Nat → Nat → Nat × BitVec 5), exec (.cvtPack m k d a) s = .next u ∧
        Writes s u m due (if k = .toF16x2 ∨ k = .toBf16x2 then regs1 d else regs2 d)
          (fun l => if k = .toF16x2 ∨ k = .toBf16x2 then to32 d (BitVec.ofNat 32 ((v l 0).1 + 2 ^ 16 * (v l 1).1))
            else to64 d (BitVec.ofNat 64 ((v l 0).1 + 2 ^ 32 * (v l 1).1)))
          (fun l => (v l 0).2 ||| (v l 1).2) ∧
        ∀ l j, j < 2 →
          let half : Fmt := if k = .toF16x2 ∨ k = .ofF16x2 then fmt16 else fmtB16
          if k = .toF16x2 ∨ k = .toBf16x2 then
            match fmt32.val ((s.src64 s.cur.wid l a).toNat / 2 ^ (32 * j) % 2 ^ 32) with
            | .nan g => v l j = nanResult half g
            | .inf g => v l j = (half.sign g + (if m.sat then half.maxBits else half.infBits), 0)
            | .fin g n e => ∃ u, Rounds half md (ratOf (.fin g n e)) g u ∧
                v l j = if m.sat && u.2.getLsbD 2 then (half.sign g + half.maxBits, u.2) else u
          else
            match half.val ((s.src s.cur.wid l a).toNat / 2 ^ (16 * j) % 2 ^ 16) with
            | .nan g => v l j = nanResult fmt32 g
            | .inf g => v l j = (fmt32.sign g + fmt32.infBits, 0)
            | .fin g n e => ∃ u, Rounds fmt32 .rne (ratOf (.fin g n e)) g u ∧ v l j = (u.1, 0))

/-! ### Cross-lane instructions (R153 to R157) -/

/-- R153, R154, R157: `shfl`, `vote`, `ballot` and `match` read the active lanes of the path as they stood at issue, and
no other lane. -/
def Claims.CrossLaneReads : Prop :=
  ∀ (s : State) (m : Mods) (d a : Reg) (k : ShflMode) (vk : VoteKind) (w : Bool),
    let cw := s.cur.wid
    let on := fun l => s.cur.lanes.getLsbD l ∧ m.active (s.lane cw l) = true
    let src := fun l => if w then s.src64 cw l a else (s.src cw l a).setWidth 64
    let p := fun l => (s.lane cw l).pred a.toNat
    (∃ v : Nat → W32, Computes (.shfl m k d a) s m none (regs1 d) (fun l => to32 d (v l)) ∧
      ∀ l, let n := (s.src cw l d).toNat
           let from_ : Int := match k with | .idx => n | .up => l - n | .down => l + n | .xor => ((l ^^^ n : Nat) : Int)
           if 0 ≤ from_ ∧ from_ < 32 ∧ on from_.toNat then v l = s.src cw from_.toNat a
           else v l = match m.eReg with | some e => s.src cw l e | none => 0) ∧
    (∃ v, Computes (.vote m vk d a) s m none [.p d] (fun _ => toP d v) ∧
      (v = true ↔ match vk with
        | .all => ∀ l, on l → p l = true
        | .any => ∃ l, on l ∧ p l = true
        | .same => ∀ l j, on l → on j → p l = p j)) ∧
    (∃ v, Computes (.ballot m d a) s m none (regs1 d) (fun _ => to32 d v) ∧
      ∀ l, l < 32 → (v.getLsbD l = true ↔ on l ∧ p l = true)) ∧
    (∃ v : Nat → W32 × Nat, Computes (.matchLanes m w d a) s m none (regs2 d)
        (fun l => to64 d ((v l).1 ++ BitVec.ofNat 32 (v l).2)) ∧
      ∀ l, on l → (∀ j, j < 32 → ((v l).1.getLsbD j = true ↔ on j ∧ src j = src l)) ∧
        on (v l).2 ∧ src (v l).2 = src l ∧ ∀ j, on j → src j = src l → (v l).2 ≤ j)

/-- R155, R156: reductions and scans. Integer results are those of all the active lanes (of those up to the lane, or
before it), whatever the order; the index forms name the lowest lane that holds the extreme value; floating-point sums add in the
fixed orders of the two rules, identities standing in for the other lanes. -/
def Claims.ReductionsAndScans : Prop :=
  ∀ (s : State) (m : Mods) (d a : Reg) (excl : Bool),
    let cw := s.cur.wid
    let md := s.rmode m .rne
    let act := s.activeLanes m
    let upTo := fun l => act.filter (fun j => if excl then j < l else j ≤ l)
    let sum := fun (t : IType) (ls : List Nat) => ((ls.map (fun l => operand s t l a)).sum % 2 ^ 32).toNat
    let least := fun (t : IType) (ls : List Nat) => (ls.map (fun l => operand s t l a)).foldl min (typeMax t)
    let most := fun (t : IType) (ls : List Nat) => (ls.map (fun l => operand s t l a)).foldl max (typeMin t)
    let red := fun (i : Instr) (v : W32) => Computes i s m none (regs1 d) (fun _ => to32 d v)
    let scan := fun (i : Instr) (v : Nat → W32) => Computes i s m none (regs1 d) (fun l => to32 d (v l))
    let ty := fun (t : IType) => if t = .s32 then RedType.s32 else .z32
    let bits := fun (f : FFmt) l => elemOf s f l a 0
    let val := fun (f : FFmt) l => valOf s f l a 0
    let rt := fun (f : FFmt) => if f = .f64 then RedType.f64 else .f32
    -- the operand of lane `j`, negative zero where it takes no part
    let leaf := fun (f : FFmt) j => if j ∈ act then bits f j else (fmtOf f).sign true
    let addTo := fun (f : FFmt) (x y : Nat × BitVec 5) => let r := fAdd (fmtOf f) md x.1 y.1; (r.1, x.2 ||| y.2 ||| r.2)
    let flagged := fun (i : Instr) (f : FFmt) (r : Nat → Nat × BitVec 5) => PutsFloat i s m none f d (fun l _ => r l)
    let anySig := fun (f : FFmt) (ls : List Nat) => ls.any (fun l => (val f l).isSig)
    -- the extreme of some lanes by an order on numbers, a NaN taken as missing
    let best := fun (f : FFmt) (less : FVal → FVal → Prop) (ls : List Nat) (b : Nat) =>
      (∀ l ∈ ls, (val f l).isNan = true) ∧ b = (fmtOf f).nan ∨
      (∃ l ∈ ls, (val f l).isNan = false ∧ b = bits f l) ∧ ∀ l ∈ ls, (val f l).isNan = false → ¬ less (val f l) ((fmtOf f).val b)
    (∀ t : IType, t = .s32 ∨ t = .z32 →
      red (.lred m .add (ty t) d a) (BitVec.ofNat 32 (sum t act)) ∧
      red (.lred m .min (ty t) d a) (BitVec.ofInt 32 (least t act)) ∧
      red (.lred m .max (ty t) d a) (BitVec.ofInt 32 (most t act)) ∧
      scan (.lscan m excl .add (ty t) d a) (fun l => BitVec.ofNat 32 (sum t (upTo l))) ∧
      scan (.lscan m excl .min (ty t) d a) (fun l => BitVec.ofInt 32 (least t (upTo l))) ∧
      scan (.lscan m excl .max (ty t) d a) (fun l => BitVec.ofInt 32 (most t (upTo l)))) ∧
    (∃ v : RedOp → W32, (∀ o, o = .and ∨ o = .or ∨ o = .xor → red (.lred m o .s32 d a) (v o)) ∧
      ∀ j, j < 32 → let b := fun l => (s.src cw l a).getLsbD j
        (v .and).getLsbD j = act.all b ∧ (v .or).getLsbD j = act.any b ∧
        (v .xor).getLsbD j = decide ((act.filter b).length % 2 = 1)) ∧
    (∀ (mx : Bool) (t : IType), t = .s32 ∨ t = .z32 → ∃ i,
      Computes (.lred m (if mx then .maxIdx else .minIdx) (ty t) d a) s m none (regs2 d)
        (fun _ => to64 d (BitVec.ofNat 32 i ++ (if act = [] then BitVec.ofInt 32 (if mx then typeMin t else typeMax t) else s.src cw i a))) ∧
      (act ≠ [] → i ∈ act ∧ ∀ l ∈ act, (if mx then operand s t l a ≤ operand s t i a else operand s t i a ≤ operand s t l a) ∧
        (operand s t l a = operand s t i a → i ≤ l))) ∧
    (∀ f : FFmt, f = .f32 ∨ f = .f64 →
      flagged (.lred m .add (rt f) d a) f (fun _ => treeOf (addTo f) (fun j => (leaf f j, 0)) 5 0) ∧
      flagged (.lscan m excl .add (rt f) d a) f (fun l =>
        ((List.range 32).filter (fun j => if excl then j < l else j ≤ l)).foldl (fun r j => addTo f r (leaf f j, 0)) ((fmtOf f).sign true, 0)) ∧
      (∃ r, flagged (.lred m .min (rt f) d a) f (fun _ => r) ∧ best f Below act r.1 ∧ r.2 = nvIf (anySig f act)) ∧
      (∃ r, flagged (.lred m .max (rt f) d a) f (fun _ => r) ∧ best f (fun x y => Below y x) act r.1 ∧ r.2 = nvIf (anySig f act)) ∧
      (∃ r, flagged (.lscan m excl .min (rt f) d a) f r ∧
        ∀ l, best f Below (upTo l) (r l).1 ∧ (r l).2 = nvIf (anySig f (upTo l))) ∧
      (∃ r, flagged (.lscan m excl .max (rt f) d a) f r ∧
        ∀ l, best f (fun x y => Below y x) (upTo l) (r l).1 ∧ (r l).2 = nvIf (anySig f (upTo l)))) ∧
    (∀ mx : Bool, act ≠ [] → ∃ (t : State) (b i : Nat),
      exec (.lred m (if mx then .maxIdx else .minIdx) .f32 d a) s = .next t ∧
      Writes s t m none (regs2 d) (fun _ => to64 d (BitVec.ofNat 32 i ++ BitVec.ofNat 32 b)) (fun _ => nvIf (anySig .f32 act)) ∧
      let less := fun x y => if mx then Below y x else Below x y
      i ∈ act ∧ best .f32 less act b ∧
      (if ∀ l ∈ act, (val .f32 l).isNan = true then ∀ l ∈ act, i ≤ l
       else (val .f32 i).isNan = false ∧ b = bits .f32 i ∧
        ∀ l ∈ act, (val .f32 l).isNan = false → ¬ less (val .f32 i) (val .f32 l) → i ≤ l))

/-! ### Branches, traps, waits and rejoin sets (R158 to R165) -/

/-- R82, R85, R158, R159: the lanes whose condition holds go to the target, packets of 12 bytes from this one; the others
go on; a call sends the address of the next packet to g0:1. -/
def Claims.ConditionalBranches : Prop :=
  ∀ (s : State) (m : Mods) (o : BitVec 13) (n : Bool) (p : Reg),
    let base := s.cur.pc.toNat / 12 * 12
    let target : W64 := BitVec.ofInt 64 (base + 12 * o.toInt)
    let takes := fun l => (s.lane s.cur.wid l).pred p.toNat != n
    let moves := fun (x : Lane) => if x.st = .run then { x with pc := target } else { x with nextPc := target }
    let after := fun (t : State) => ∀ l, t.cur.moved.getLsbD l = (s.cur.moved.getLsbD l || (s.cur.lanes.getLsbD l && takes l))
    (∃ t, exec (.bra m o n p) s = .next t ∧ t = { s with waves := t.waves, cur := { s.cur with moved := t.cur.moved } } ∧ after t ∧
      WaveBecomes s t id (fun l x => if takes l then moves x else goOn s l x)) ∧
    (∃ t, exec (.call m o n p) s = .next t ∧
      t = { s with waves := t.waves, nextId := s.nextId + 1, cur := { s.cur with moved := t.cur.moved } } ∧ after t ∧
      WaveBecomes s t id (fun l x => if takes l
        then moves { x with pend := x.pend ++ inFlight (inTwo s) s.nextId (to64 0 (BitVec.ofNat 64 (base + 12))) } else goOn s l x))

/-- R82, R159, R160: register branches. Each active lane goes to the target in its own pair, which is a packet start, or to
the packet that its index names past this one; `callr` sends the link to its pair. -/
def Claims.RegisterBranches : Prop :=
  ∀ (s : State) (m : Mods) (d a : Reg),
    let base := s.cur.pc.toNat / 12 * 12
    let pairs := ∀ l, On s m l → (s.src64 s.cur.wid l a).toNat % 12 = 0
    let indexes := ∀ l, On s m l → (s.src s.cur.wid l a).toNat ≤ 4094
    let goTo := fun (x : Lane) (v : W64) => if x.st = .run then { x with pc := v } else { x with nextPc := v }
    let toPair := fun l => s.src64 s.cur.wid l a
    let lands := fun (i : Instr) (link : Bool) (to_ : Nat → W64) => ∃ t, exec i s = .next t ∧
      t = { s with waves := t.waves, nextId := (if link then s.nextId + 1 else s.nextId), cur := { s.cur with moved := t.cur.moved } } ∧
      (∀ l, t.cur.moved.getLsbD l = true ↔ s.cur.moved.getLsbD l = true ∨ On s m l) ∧
      WaveBecomes s t id (fun l x => if m.active x
        then goTo (if link then { x with pend := x.pend ++ inFlight (inTwo s) s.nextId (to64 d (BitVec.ofNat 64 (base + 12))) } else x) (to_ l)
        else goOn s l x)
    (pairs → lands (.jmp m a) false toPair ∧ lands (.ret m a) false toPair ∧ lands (.callr m d a) true toPair) ∧
    (indexes → lands (.brx m a) false (fun l => BitVec.ofNat 64 (base + 12 * (1 + (s.src s.cur.wid l a).toNat))))

/-- R159, R160, R306: in user mode a lane whose target is no packet start, or whose index is above 4,094, stops with ILLEGAL
TARGET at the first instruction of its group, and the whole wave with it; the lanes with good targets record none there. -/
def Claims.BadTargetsStop : Prop :=
  ∀ (s : State) (m : Mods) (d a : Reg), Alone s →
    let badPair := fun l => (s.src64 s.cur.wid l a).toNat % 12 ≠ 0
    let badIndex := fun l => 4094 < (s.src s.cur.wid l a).toNat
    let stops := fun (i : Instr) (bad : Nat → Prop) => (∃ l, On s m l ∧ bad l) → ∃ t, exec i s = .next t ∧
      (t.wave s.cur.wid).stopped = true ∧ t.mem = s.mem ∧
      ∀ l, On s m l → (s.lane s.cur.wid l).st ≠ .exit → (t.lane s.cur.wid l).st = .trap ∧
        (t.lane s.cur.wid l).g = (s.lane s.cur.wid l).g ∧
        (bad l → (t.lane s.cur.wid l).trapCause = causeWord 0x10 0x0E 0 ∧ (t.lane s.cur.wid l).trapPc = s.cur.gpc) ∧
        (¬ bad l → (t.lane s.cur.wid l).trapCause = 0)
    stops (.jmp m a) badPair ∧ stops (.ret m a) badPair ∧ stops (.callr m d a) badPair ∧ stops (.brx m a) badIndex

/-- R162, R240, R306: `trap`, `brk` and, in user mode, `sysc` stop the active lanes with their causes once their group has
completed: the lanes record the instruction's own PC and resume after it. -/
def Obligations.TrapInstructions : Prop :=
  ∀ (s : State) (m : Mods) (n : Reg), Alone s → (∃ l, On s m l) →
    let stops := fun (i : Instr) (cause : W32) => ∃ t who, exec i s = .next t ∧ (∀ l, who l = true ↔ On s m l) ∧
      StopsAs s t who (fun _ => cause) (fun _ => 0) (fun _ => s.cur.pc) (standsAt s) (standsAt s)
    stops (.trap m n) (causeWord 0x16 0 n.toNat) ∧ stops (.brk m) (causeWord 0x15 0 0) ∧
    stops (.sysc m n) (causeWord 0x16 0 (0x100 + n.toNat))

/-- R162, R163, R86: `nop` does nothing; `yield` notes the waves of the quad that are to be selected before this one is, and
64 cycles; `pause` keeps its lanes from issuing for 64 cycles; after `wsb` no path issues with one of its lanes while anything
is owed to that lane. -/
def Claims.WaitsOfAWave : Prop :=
  ∀ (s : State) (m : Mods),
    let some_ := ∃ l, On s m l
    (∃ t, exec (.nop m) s = .next t ∧ t = { s with waves := t.waves } ∧ GoesOn s t) ∧
    (∃ t, exec (.yield m) s = .next t ∧ t = { s with waves := t.waves } ∧
      ∃ y : Option Yield, WaveBecomes s t (fun v => { v with yield := y }) (fun l x => goOn s l x) ∧
        (¬ some_ → y = (s.wave s.cur.wid).yield) ∧
        (some_ → ∃ ws, y = some ⟨s.clock + 64, 0, ws⟩ ∧
          ∀ w, w ∈ ws ↔ ∃ v, (w, v) ∈ s.waves ∧ w ≠ s.cur.wid ∧ v.ended = false ∧ v.quad = (s.wave s.cur.wid).quad ∧
            (s.troupe v.tid).pkg = s.curPkg ∧ (s.troupe v.tid).core = s.curTroupe.core ∧ (s.troupe v.tid).st = .resident ∧
            ∃ l, l < 32 ∧ (v.lane l).st = .run)) ∧
    (∃ t, exec (.pause m) s = .next t ∧ t = { s with waves := t.waves } ∧
      (¬ some_ → GoesOn s t) ∧
      (some_ → WaveBecomes s t id (fun l x => goOn s l { x with readyAt := max x.readyAt (s.clock + 65) }))) ∧
    (∃ t, exec (.wsb m) s = .next t ∧ t = { s with waves := t.waves } ∧ (¬ some_ → GoesOn s t) ∧
      (some_ → WaveBecomes s t id (fun l x => goOn s l { x with wsb := true }))) ∧
    ∀ (w : Nat) (p : Path) (g : Group) (l : Nat), p.lanes.getLsbD l = true → (s.lane w l).wsb = true → (s.lane w l).pend ≠ [] →
      s.pathReady w p g = false

/-- R24, R25, R164: the rejoin sets. Members enter and quit, a set is written while no lane is parked in it, a member parks in
its `rj.wait`; after each change every set whose members are all parked lets them go on after their waits. In a handler a set's count
reads 0 (R312). -/
def Claims.RejoinSets : Prop :=
  ∀ (s : State) (m : Mods) (n : BitVec 4) (d : Reg),
    let v := s.wave s.cur.wid
    let some_ := ∃ l, On s m l
    ∃ act : LaneMask, (∀ l, act.getLsbD l = true ↔ On s m l) ∧
    -- the masks become `msk`, the lanes `f` of what they were; full sets release; the path goes on
    let turns := fun (i : Instr) (msk : BitVec 4 → LaneMask) => ∃ t, exec i s = .next t ∧ t = { s with waves := t.waves } ∧
      (∀ w, w ≠ s.cur.wid → t.wave w = s.wave w) ∧ (∀ k, (t.wave s.cur.wid).mask k = msk k) ∧
      t.wave s.cur.wid = { v with lanes := (t.wave s.cur.wid).lanes, sets := (t.wave s.cur.wid).sets } ∧
      ∀ l, l < 32 →
        let x := s.lane s.cur.wid l
        let full := fun k => msk k ≠ 0 ∧ v.wcnt k = popCount (msk k)
        let y := match x.st with | .join k => if full k then { x with st := .run, pc := x.nextPc } else x | _ => x
        t.lane s.cur.wid l = if s.cur.lanes.getLsbD l then goOn s l y else y
    let only := fun (x : LaneMask) (k : BitVec 4) => if k = n then x else v.mask k
    turns (.rjEnter m n) (only (v.mask n ||| act)) ∧
    turns (.rjQuit m n) (only (v.mask n &&& ~~~ act)) ∧
    (some_ → Computes (.rjGet m d n) s m (inTwo s) (regs1 d) (fun _ => to32 d (v.mask n))) ∧
    let held := if v.handler then 0 else v.wcnt n
    (some_ → held = 0 → turns (.rjClr m n) (only 0)) ∧
    (held = 0 → ∀ e, Elected s m e → turns (.rjSet m d n) (only (s.src s.cur.wid e d &&& v.live))) ∧
    (some_ → held ≠ 0 → Alone s → (∃ t, exec (.rjClr m n) s = .next t ∧ StopsActive s t m 0x10 0x0B 0) ∧
      ∃ t, exec (.rjSet m d n) s = .next t ∧ StopsActive s t m 0x10 0x0B 0)

/-- R25, R26, R164: `rj.wait`. The members of the set park, the other lanes go on, and a set whose members are all parked
releases them; where every live lane is then parked and no set can release one, the wave stops with ORPHAN where it stands. -/
def Claims.RejoinWait : Prop :=
  ∀ (s : State) (m : Mods) (n : BitVec 4), Alone s → s.cur.stops = [] →
    (s.wave s.cur.wid).stopped = false → (∀ l, s.cur.lanes.getLsbD l = true → (s.lane s.cur.wid l).st = .run) → s.cur.moved = 0 →
    let v := s.wave s.cur.wid
    ∃ parks : LaneMask, (∀ l, parks.getLsbD l = true ↔ On s m l ∧ (v.mask n).getLsbD l = true) ∧
    let cnt := fun k => v.wcnt k + if k = n then popCount parks else 0
    let full := fun k => v.mask k ≠ 0 ∧ cnt k = popCount (v.mask k)
    -- where each lane stands when the wait has been taken
    let after := fun l => let x := s.lane s.cur.wid l
      if parks.getLsbD l then
        (if full n then { x with st := .run, pc := s.cur.npc, nextPc := s.cur.npc }
         else { x with st := .join n, pc := s.cur.pc, nextPc := s.cur.npc })
      else if s.cur.lanes.getLsbD l then { x with pc := s.cur.npc }
      else match x.st with | .join k => if full k then { x with st := .run, pc := x.nextPc } else x | _ => x
    let isParked := fun l => ∃ k, (after l).st = .join k
    let orphan := (∃ l, l < 32 ∧ (after l).st ≠ .exit) ∧ ∀ l, l < 32 → (after l).st ≠ .exit → isParked l
    ∃ t, exec (.rjWait m n) s = .next t ∧ (∀ w, w ≠ s.cur.wid → t.wave w = s.wave w) ∧ t.mem = s.mem ∧
      (¬ orphan → t = { s with waves := t.waves } ∧ t.wave s.cur.wid = { v with lanes := (t.wave s.cur.wid).lanes } ∧
        ∀ l, l < 32 → t.lane s.cur.wid l = after l) ∧
      (orphan → (t.wave s.cur.wid).stopped = true ∧ ∀ l, l < 32 → (after l).st ≠ .exit →
        (t.lane s.cur.wid l).st = .trap ∧ (t.lane s.cur.wid l).prior = (after l).st ∧
        (t.lane s.cur.wid l).trapCause = causeWord 0x13 0 0 ∧ (t.lane s.cur.wid l).trapPc = (after l).pc)

/-! ### Ending, handlers, results (R11, R36, R37, R87, R88, R89, R161, R167, R172, R306, R311, R312) -/

/-- R11, R36, R37, R161: `exit` in user mode, outside record logs and deterministic launches. The active lanes end, are owed
nothing and leave every rejoin set; a wave whose last lane ends is over, and a troupe with its last compute wave; no register
and no byte of memory changes. -/
def Obligations.ExitEndsLanes : Prop :=
  ∀ (s : State) (m : Mods), Alone s → s.curTroupe.hdr.rcd = false → s.curTroupe.hdr.det = false → (∃ l, On s m l) →
    let w := s.cur.wid
    let last := ∀ l, l < 32 → (s.lane w l).st ≠ .exit → On s m l
    After (.exit m) s (fun t =>
      t.mem = s.mem ∧ t.writes = s.writes ∧ t.cycle = s.cycle ∧
      (∀ v l, (t.lane v l).g = (s.lane v l).g ∧ (t.lane v l).p = (s.lane v l).p) ∧
      (∀ l, On s m l → (t.lane w l).st = .exit ∧ (t.lane w l).pend = []) ∧
      (∀ n l, l < 32 → (((t.wave w).mask n).getLsbD l = true ↔ ((s.wave w).mask n).getLsbD l = true ∧ ¬ On s m l)) ∧
      (last → (t.wave w).ended = true) ∧
      (last → (s.wave w).part = false → s.liveWaves s.curTid = [w] → (t.troupe s.curTid).st = .ended))

/-- R306, R311, R312: a stopped wave enters its handler once its local results are known. Every live lane receives what its
local accesses owe it and starts at the troupe's handler, if the header names one on a system page that may execute, or at
the context's, in system mode; with no handler the context stops. -/
def Claims.HandlerEntry : Prop :=
  ∀ (s : State) (w : Nat), (s.wave w).stopped = true → (s.wave w).ended = false → (s.wave w).forPreempt = false →
    (s.wave w).owesLocal = false →
    let v := s.wave w
    let t0 := s.troupe v.tid
    let cx := flook (s.pkg t0.pkg).ctxs t0.ctx.toNat
    let own := t0.traphnd ≠ 0 ∧ ∃ e, s.lookup t0.pkg t0.core t0.ctx t0.traphnd = some e ∧
      2 ≤ pteState e.leaf ∧ e.leaf.getLsbD 8 = true ∧ e.leaf.getLsbD 6 = true
    ∀ a : W64, (own → a = t0.traphnd) → (¬ own → a = match cx with | some c => c.sysh | none => 0) →
      (a ≠ 0 → After (.handlerEntry w) s (fun t =>
        t = { s with waves := t.waves } ∧ (∀ u, u ≠ w → t.wave u = s.wave u) ∧
        t.wave w = { v with lanes := (t.wave w).lanes, stopped := false, sys := true, handler := true } ∧
        ∀ l, l < 32 → t.lane w l = if (v.lane l).st = .exit then v.lane l
          else { ((v.lane l).land Pend.isLocal) with st := .run, pc := a, waiting := false })) ∧
      (a = 0 → ∀ c, cx = some c → After (.handlerEntry w) s (fun t => t.mem = s.mem ∧
        (∃ c', flook (t.pkg t0.pkg).ctxs t0.ctx.toNat = some c' ∧ c'.stopped = true) ∧
        ((s.wave w).tid ∈ (s.ctxTroupes t0.pkg t0.ctx).map (fun e => e.1) → (t.wave w).ended = true)))

/-- R172, R312: `tret` in a handler returns every live lane to the state it held before the stop, or to the PC that the
handler has written; a lane parked before may be released at once by the checks of R25 and R167. In user mode it takes
PRIV, in system mode outside a handler ILLEGAL with STATE, which there stops the context (R313). -/
def Claims.TrapReturn : Prop :=
  ∀ (s : State) (m : Mods), (∃ l, On s m l) →
    let w := s.cur.wid
    let v := s.wave w
    (v.sys = true → v.handler = true → v.resting = false → v.saving = false → v.late = [] → v.preempt = false →
      (∃ l, l < 32 ∧ (v.lane l).st ≠ .exit ∧ ((v.lane l).movedPc = true ∨ (v.lane l).prior = .run)) →
      After (.tret m) s (fun t => t.mem = s.mem ∧ t.writes = s.writes ∧
        (t.wave w).sys = false ∧ (t.wave w).handler = false ∧
        ∀ l, l < 32 →
          let x := v.lane l
          let y := t.lane w l
          y.g = x.g ∧ y.p = x.p ∧ y.lflags = x.lflags ∧ y.pend = x.pend ∧
          (x.st = .exit → y = x) ∧
          (x.st ≠ .exit → x.movedPc = true → y.st = .run ∧ y.pc = x.trapPc) ∧
          (x.st ≠ .exit → x.movedPc = false → x.prior = .run → y.st = .run ∧ y.pc = x.resume) ∧
          (x.st ≠ .exit → x.movedPc = false → x.prior ≠ .run →
            (y.st = x.prior ∧ y.pc = x.resume) ∨ (y.st = .run ∧ y.pc = x.heldNext)))) ∧
    (Alone s → ∃ t, exec (.tret m) s = .next t ∧ StopsActive s t m 0x11 0 0) ∧
    (v.sys = true → v.handler = false → s.cur.grouped = false → s.cur.defer = false → After (.tret m) s (fun t =>
      ContextStops s t s.curPkg s.curCtx ∧ StopRecorded s t s.curPkg s.curCtx 0x10 0x10))

/-- R87, R88, R89: results reach their registers. At its cycle each fixed-latency result is written, and a result whose
producer the scoreboard names when it is known; a result that lands takes away the older ones owed to its register, and
what the registers will hold when everything has landed stays as it was. -/
def Claims.ResultsLand : Prop :=
  ∀ (s : State) (w : Nat),
    let lands := fun (i : Instr) (only : Nat → Bool) (f : Pend → Bool) => After i s (fun t =>
      t = { s with waves := t.waves } ∧ (∀ u, u ≠ w → t.wave u = s.wave u) ∧
      t.wave w = { s.wave w with lanes := (t.wave w).lanes } ∧
      ∀ l, l < 32 →
        let x := s.lane w l
        let y := t.lane w l
        (only l = false → y = x) ∧
        (only l = true → y = { x with g := y.g, p := y.p, pend := y.pend } ∧ y.pend.Sublist x.pend ∧ (∀ e ∈ y.pend, f e = false) ∧
          (∀ r : Reg, r.toNat < 120 → y.latest (.g r) = x.latest (.g r)) ∧
          (∀ q : Reg, q ≠ 0 → (y.latest (.p q)).getLsbD 0 = (x.latest (.p q)).getLsbD 0) ∧
          (∀ r : Reg, r.toNat < 120 → (∀ e ∈ x.pend, e.dst = .g r → f e = false) → y.reg r.toNat = x.reg r.toNat) ∧
          (∀ r : Reg, r.toNat < 120 → ∀ before e after, x.pend = before ++ e :: after → e.dst = .g r → f e = true →
            (∀ e' ∈ after, e'.dst = .g r → f e' = false) → y.reg r.toNat = e.val)))
    lands (.fixedLatencyResult w) (fun _ => true) (fun e => match e.due with | some c => decide (c ≤ s.clockOf w) | none => false) ∧
    ∀ l g, l < 32 → lands (.scoreboardWrite w l g) (fun n => n == l) (fun e => e.tag == g && e.due.isNone && e.got)

/-- R86, R163: stall and pause counts that have passed let their lanes issue again; a yield ends when the waves it waits for
have been selected, after eight selections, or after its cycles. -/
def Claims.CountsExpire : Prop :=
  ∀ (s : State) (w : Nat),
    let passes := fun (i : Instr) => After i s (fun t => t = { s with waves := t.waves } ∧ (∀ u, u ≠ w → t.wave u = s.wave u) ∧
      t.wave w = { s.wave w with lanes := (t.wave w).lanes } ∧
      ∀ l, l < 32 → t.lane w l = if (s.lane w l).readyAt ≤ s.clockOf w then { s.lane w l with readyAt := 0 } else s.lane w l)
    passes (.stallWaitExpiry w) ∧ passes (.pauseExpiry w) ∧
    After (.yieldRelease w) s (fun t => t = { s with waves := t.waves } ∧ (∀ u, u ≠ w → t.wave u = s.wave u) ∧
      t.wave w = match (s.wave w).yield with
        | none => s.wave w
        | some y => if y.todo = [] ∨ 8 ≤ y.sels ∨ y.till ≤ s.clockOf w then { s.wave w with yield := none } else s.wave w)

/-! ### Memory (R175 to R186, R246 to R253) -/

/-- R175 to R181: loads. Where the checks of R177 pass in every active lane and the bytes are on this package, unpoisoned, with
no operation of the wave still before them, each lane is owed its bytes, widened as the type says. The bytes are those of
memory where no write in flight and no cached line holds others. Where the checks fail in every active lane, each stops with
its own cause and address. Where a translation misses, the path waits and a walk is asked for each page. Nothing but results,
caches and acquired releases changes. -/
def Claims.Loads : Prop :=
  ∀ (s : State) (m : Mods) (o : BitVec 7) (sp : Space) (ty : MemType) (r : Bool) (d a : Reg) (key : Nat → Nat) (c : Nat → Bool),
    let loads := fun (i : Instr) (sp : Space) (ty : MemType) (acq : Option Scope) (off : Int) =>
      let n := bytesIn ty
      let va := addrOf s sp a off
      (s.walkWait sp ((s.activeLanes m).map va) = false →
        (∀ l, On s m l → checkOf s sp .load n (va l) = .ok (.at_ (key l) (c l)) ∧ s.ownBehind l (key l) n = false ∧
          s.poisoned (key l) n = false ∧ ∀ x ∈ s.writes, x.wid = s.cur.wid → x.level = 0 → x.lane ≠ l → x.meets (key l) n = false) →
        ∃ bytes : Nat → List Byte, (∀ l, On s m l →
            bytes l = s.readHere acq (c l) l (key l) n ∧
            ((∀ x ∈ s.writes, x.meets (key l / 128 * 128) 128 = false) → key l % n = 0 →
              (c l = true → acq = none → ∀ y ∈ (s.core s.curPkg s.curTroupe.core).lines, y.tag ≠ key l / 128) →
              bytes l = memGets s.mem (key l) n)) ∧
          After i s (fun t => CachesOnly s t ∧
            t = { s with waves := t.waves, pkgs := t.pkgs, walks := t.walks, nextId := s.nextId + 1 } ∧
            ∃ hold, (acq = none → hold = (s.wave s.cur.wid).relHold) ∧ WaveBecomes s t (fun v => { v with relHold := hold })
              (fun l x => goOn s l (sends s m none (wordsIn ty d) (fun l => loadedInto ty d (leNat (bytes l))) (fun _ => 0) l x)))) ∧
      (s.walkWait sp ((s.activeLanes m).map va) = true → After i s (fun t => WaitsForWalks i s t ((s.activeLanes m).map va))) ∧
      (Alone s → s.walkWait sp ((s.activeLanes m).map va) = false → m.zero = false → (∃ l, On s m l) →
        ∀ (why : Nat → Cause) (sub : Nat → Byte), (∀ l, On s m l → checkOf s sp .load n (va l) = .bad (why l) (sub l)) →
        ∃ (t : State) (who : Nat → Bool), exec i s = .next t ∧ (∀ l, who l = true ↔ On s m l) ∧
          StopsAs s t who (fun l => causeWord (why l).code.toNat (sub l).toNat 0) va (fun _ => s.cur.gpc) (fun _ => s.cur.gpc) (standsAt s))
    let off := fun (n : Nat) => match m.lit with | some l => l.toInt | none => o.toInt * n
    loads (.ldGB32 m o d a) .g .b32 none (off 4) ∧ loads (.ldGB64 m o d a) .g .b64 none (off 8) ∧
    loads (.ldGB128 m o d a) .g .b128 none (off 16) ∧ loads (.ldSB32 m o d a) .s .b32 none (off 4) ∧
    loads (.ld m sp ty r d a) sp ty (if r then some m.memScope else none) m.memOff

/-- R185: each active lane reads a word of the constant bank, the low seven bits of its number or of register A naming it with
the form's half, or all eight bits of A. R186: a prefetch changes no result: lanes go on, and where one lane is active and its
byte is in cacheable memory of this package its line is in the core's cache. -/
def Claims.ConstantsAndPrefetch : Prop :=
  ∀ (s : State) (m : Mods) (d n a : Reg),
    let word := fun (k : Nat) => s.curTroupe.kbank.getD k 0
    let gives := fun (i : Instr) (k : Nat → Nat) => Computes i s m none (regs1 d) (fun l => to32 d (word (k l)))
    gives (.ldkLow m d n) (fun _ => n.toNat) ∧ gives (.ldkHigh m d n) (fun _ => 128 + n.toNat) ∧
    gives (.ldkReg m d a) (fun l => (s.src s.cur.wid l a).toNat % 256) ∧
    After (.prefG m a) s (fun t => CachesOnly s t ∧ t = { s with waves := t.waves, pkgs := t.pkgs } ∧ GoesOn s t ∧
      ∀ e key, (∀ l, On s m l ↔ l = e) → checkOf s .g .load 1 (addrOf s .g a m.memOff e) = .ok (.at_ key true) →
        ∃ y ∈ (t.core s.curPkg s.curTroupe.core).lines, y.tag = key / 128)

/-- R175 to R180: stores. Where the checks pass in every active lane, each lane's store is issued, in ascending lanes after all
that the wave has issued, and performs later: no byte of memory changes yet, and its own lane reads it at once. A release
issues where what it waits for has landed. Where the checks fail in every active lane, each stops with its own cause; where a
translation misses, the path waits for its walk. -/
def Obligations.Stores : Prop :=
  ∀ (s : State) (m : Mods) (o : BitVec 7) (sp : Space) (ty : MemType) (r : Bool) (d a : Reg) (key : Nat → Nat) (c : Nat → Bool),
    let stores := fun (i : Instr) (sp : Space) (ty : MemType) (rel : Option Scope) (off : Int) =>
      let n := bytesIn ty
      let va := addrOf s sp a off
      (s.walkWait sp ((s.activeLanes m).map va) = true → After i s (fun t => WaitsForWalks i s t ((s.activeLanes m).map va))) ∧
      (s.walkWait sp ((s.activeLanes m).map va) = false →
      (rel = some .pod → (s.pkg s.curPkg).copying s.cur.wid = false ∧ (s.pkg s.curPkg).outstanding = [] ∧ (s.wave s.cur.wid).discarded = []) →
      ((∀ l, On s m l → checkOf s sp .store n (va l) = .ok (.at_ (key l) (c l))) →
        After i s (fun t => CachesOnly s t ∧
          t = { s with waves := t.waves, pkgs := t.pkgs, walks := t.walks, troupes := t.troupes, nextId := s.nextId + 1,
                       writes := t.writes } ∧
          GoesOn s t ∧ t.writes = s.writes ++ ((s.activeLanes m).map (fun l => writesOf s l (key l) n (storedFrom s ty d l) rel)).flatten ∧
          (∀ u, t.troupe u = if u = s.curTid ∧ sp ≠ .s ∧ s.someActive m = true then { s.troupe u with lock := true } else s.troupe u) ∧
          ∀ l, On s m l → t.laneView (t.viewer s.cur.wid l) (key l) n = leBytes n (storedFrom s ty d l))) ∧
      (Alone s → (∃ l, On s m l) → ∀ (why : Nat → Cause) (sub : Nat → Byte),
        (∀ l, On s m l → checkOf s sp .store n (va l) = .bad (why l) (sub l)) →
        ∃ (t : State) (who : Nat → Bool), exec i s = .next t ∧ (∀ l, who l = true ↔ On s m l) ∧
          StopsAs s t who (fun l => causeWord (why l).code.toNat (sub l).toNat 0) va (fun _ => s.cur.gpc) (fun _ => s.cur.gpc) (standsAt s)))
    let off := fun (n : Nat) => match m.lit with | some l => l.toInt | none => o.toInt * n
    stores (.stGB32 m o d a) .g .b32 none (off 4) ∧ stores (.stGB64 m o d a) .g .b64 none (off 8) ∧
    stores (.stGB128 m o d a) .g .b128 none (off 16) ∧ stores (.stSB32 m o d a) .s .b32 none (off 4) ∧
    stores (.st m sp ty r d a) sp ty (if r then some m.memScope else none) m.memOff

/-- R180, R246, R248: a write performs at its core, then at its cluster, then in memory, where its bytes and no others change;
a write to scratchpad or bank store goes to memory at once. It never passes an earlier write of its lane to the same bytes. -/
def Claims.WritesPerform : Prop :=
  ∀ (s : State) (n : Nat) (w : PWrite), s.writes[n]? = some w →
    (s.mayPerform n = false → exec (.accessPerform n) s = .next s) ∧
    (s.mayPerform n = true → After (.accessPerform n) s (fun t =>
      t.waves = s.waves ∧ t.troupes = s.troupes ∧ t.corps = s.corps ∧ t.cur = s.cur ∧ t.cycle = s.cycle ∧
      ((2 ≤ w.level ∨ (w.level = 0 ∧ keyIsHbm w.addr = false)) → t.writes = s.writes.eraseIdx n ∧
        ∀ a, memGet t.mem a = if w.addr ≤ a ∧ a < w.addr + w.bytes.length then w.bytes.getD (a - w.addr) 0 else memGet s.mem a) ∧
      (w.level = 0 → keyIsHbm w.addr = true → t.mem = s.mem ∧ t.writes = s.writes.eraseIdx n ++ [{ w with level := 1 }]) ∧
      (w.level = 1 → t.mem = s.mem ∧ t.writes = s.writes.set n { w with level := 2 }))) ∧
    (s.mayPerform n = true → w.level = 0 → ∀ j x, j < n → s.writes[j]? = some x → x.level = 0 → x.id ≤ w.id → x.wid = w.wid →
      x.lane = w.lane → overlaps x.addr x.bytes.length w.addr w.bytes.length = false)

/-! ### Atomics and range operations (R187 to R192, R345) -/

/-- R187 to R189, R345: an `atom`, `cas` or `red` outside deterministic and recorded launches whose bytes are on this package.
In global memory or bank store it goes to the bank ALUs in ascending lanes, and its lanes are owed what the location held; as
an acquire it holds back the wave's accesses until it has been applied, and at a scope above `.core` it empties the core's cache;
in the scratchpad it is done at once, the lane's result known. A missing translation is waited for. -/
def Obligations.Atomics : Prop :=
  ∀ (s : State) (m : Mods) (o : AtomOp) (w : Bool) (d a : Reg) (key : Nat → Nat) (c : Nat → Bool),
    s.curTroupe.hdr.det = false → s.curTroupe.hdr.rcd = false →
    let n := if w then 8 else 4
    let ds := if w then regs2 d else regs1 d
    let va := addrOf s m.syncSpace a m.syncOff
    let arg := fun (r : Reg) (l : Nat) => if w then s.src64 s.cur.wid l r else (s.src s.cur.wid l r).setWidth 64
    let done := fun (i : Instr) (kd : AccKind) (ret : Bool) (work : Nat → BankWork) (new : Nat → Nat → Nat) =>
      let acq := m.syncOrd = .acq ∨ m.syncOrd = .ar
      let rel := m.syncOrd = .rel ∨ m.syncOrd = .ar
      (s.walkWait m.syncSpace ((s.activeLanes m).map va) = true → After i s (fun t => WaitsForWalks i s t ((s.activeLanes m).map va))) ∧
      (s.walkWait m.syncSpace ((s.activeLanes m).map va) = false →
      (∀ l, On s m l → checkOf s m.syncSpace kd n (va l) = .ok (.at_ (key l) (c l)) ∧ s.poisoned (key l) n = false) →
      (rel → m.syncScope = .pod → (s.pkg s.curPkg).copying s.cur.wid = false ∧ (s.pkg s.curPkg).outstanding = [] ∧
        (s.wave s.cur.wid).discarded = []) →
      (m.syncSpace ≠ .s → After i s (fun t => t.mem = s.mem ∧ t.writes = s.writes ∧
        (t.pkg s.curPkg).bankQ = (s.pkg s.curPkg).bankQ ++ (s.activeLanes m).map (fun l =>
          { id := s.nextId, wid := s.cur.wid, lane := l, core := s.curTroupe.core, ctx := s.curCtx, launch := s.curTroupe.launch,
            addr := key l, work := work l, ret := ret, tag := s.nextId, rel := if rel then some m.syncScope else none,
            acq := if acq then some m.syncScope else none, lseq := (s.lane s.cur.wid l).rseq, rcd := false, ent := none }) ∧
        (acq → m.syncScope ≠ .core → (t.core s.curPkg s.curTroupe.core).lines = []) ∧
        WaveBecomes s t (fun v => if acq ∧ s.someActive m = true then { v with holdMem := v.holdMem ++ [s.nextId] } else v)
          (fun l x => goOn s l (if ret then owes m false s.nextId ds x else x)))) ∧
      (m.syncSpace = .s → m.syncOrd = .rlx → ∀ e, (∀ l, On s m l ↔ l = e) → s.ownStore e (key e) n = false →
        s.ownBehind e (key e) n = false → NoneAbout s (key e) n → (∀ x ∈ (s.lane s.cur.wid e).pend, x.tag ≠ s.nextId) →
        After i s (fun t => MemoryTakes s t (key e) n (new e (numberAt s (key e) n)) ∧
          (ret = true → owedUnder (t.lane s.cur.wid e) s.nextId =
            (ds.zip [BitVec.ofNat 32 (numberAt s (key e) n), BitVec.ofNat 32 (numberAt s (key e) n / 2 ^ 32)]).map (fun r => (r.1, r.2, true))))))
    let e := m.eReg.getD 120
    let argN := fun (r : Reg) (l : Nat) => (arg r l).toNat
    done (.atom m o w d a) .atom true (fun l => .rmw o w (arg d l)) (fun l x => atomLeaves o w x (argN d l)) ∧
    done (.cas m w d a) .atom true (fun l => .cas w (arg d l) (arg e l)) (fun l x => if x = argN d l then argN e l else x) ∧
    done (.redOp m o w d a) .red false (fun l => .rmw o w (arg d l)) (fun l x => atomLeaves o w x (argN d l))

/-- R188, R191, R192, R345: a bank ALU applies an operation that may be applied: the location takes its new value and nothing
else of memory changes; what it held goes to the lane that waits for it, and an element of a `bop` counts. -/
def Obligations.BankOperations : Prop :=
  ∀ (s : State) (k n : Nat) (b : BankOp), (s.pkg k).bankQ[n]? = some b → b.rcd = false →
    (s.mayApply k n = false → exec (.bankAluApply k n) s = .next s) ∧
    (s.mayApply k n = true →
      let gives := fun (len : Nat) (new : Nat → Nat) => NoneAbout s b.addr len →
        After (.bankAluApply k n) s (fun t =>
          MemoryTakes s t b.addr len (new (numberAt s b.addr len)) ∧ (t.pkg k).bankQ = (s.pkg k).bankQ.eraseIdx n)
      let replies := fun (len : Nat) => NoneAbout s b.addr len → b.lane < 32 → ∀ ds : List Dst, ds.Nodup → ds.length ≤ 2 →
        ((s.lane b.wid b.lane).pend.filter (fun e => e.tag == b.tag)).map (fun e => e.dst) = ds →
        After (.bankAluApply k n) s (fun t => owedUnder (t.lane b.wid b.lane) b.tag =
          (ds.zip [BitVec.ofNat 32 (numberAt s b.addr len), BitVec.ofNat 32 (numberAt s b.addr len / 2 ^ 32)]).map (fun r => (r.1, r.2, true)))
      match b.work with
      | .rmw o w d => gives (if w then 8 else 4) (fun x => atomLeaves o w x (if w then d.toNat else d.toNat % 2 ^ 32)) ∧
          (b.ret = true → replies (if w then 8 else 4))
      | .cas w d e =>
        let cut := fun (x : W64) => if w then x.toNat else x.toNat % 2 ^ 32
        gives (if w then 8 else 4) (fun x => if x = cut d then cut e else x) ∧ replies (if w then 8 else 4)
      | .elem op ty q x a _ =>
        let len := if ty = 1 then 8 else 4
        (2 ≤ op → NoneAbout s x len) →
        gives len (fun y => bopLeaves op ty y (if 2 ≤ op then numberAt s x len else 0) a.toNat) ∧
        After (.bankAluApply k n) s (fun t =>
          ∀ p ∈ (t.pkg k).bops, ∃ p0 ∈ (s.pkg k).bops, p = if p0.id = q then { p0 with left := p0.left - 1 } else p0))

/-- R191, R192: `bop`. With a well-formed block whose elements all pass their checks, every element goes to its bank, in order,
and the active lanes are owed a status, which is 0 when the last element has been applied; the walks of its pages come first. An
element counts in the bank budget where it is the first of the operation or of a 16-byte step (R347). -/
def Obligations.RangeOperations : Prop :=
  (∀ (s : State) (m : Mods) (d a : Reg) (e : Nat) (b : BopBlock), Elected s m e → bopBlock (s.block e a 8) = some b →
    s.bopFault b = none →
    let len := if b.ty = 1 then 8 else 4
    let place := fun (kd : AccKind) (v : W64) => checkedKey (checkOf s b.sp kd len v)
    let at_ := fun (v : W64) (i : Nat) => match b.sp with
      | .g => v + BitVec.ofNat 64 (i * len)
      | _ => (v.setWidth 32 + BitVec.ofNat 32 (i * len)).setWidth 64
    let pair := fun (i : Nat) => (place .red (at_ b.y i), if b.op < 2 then 0 else place .load (at_ b.x i))
    (s.walkWait b.sp (bopPages b) = true → After (.bop m d a) s (fun t => WaitsForWalks (.bop m d a) s t (bopPages b))) ∧
    (s.walkWait b.sp (bopPages b) = false →
    (∀ i, i < b.n → (b.op ≠ 0 → s.poisoned (pair i).1 len = false) ∧ (2 ≤ b.op → s.poisoned (pair i).2 len = false)) →
    After (.bop m d a) s (fun t => t.mem = s.mem ∧ t.writes = s.writes ∧
      (t.pkg s.curPkg).bankQ = (s.pkg s.curPkg).bankQ ++ (List.range b.n).map (fun i =>
        { id := s.nextId, wid := s.cur.wid, lane := 32, core := s.curTroupe.core, ctx := s.curCtx, launch := s.curTroupe.launch,
          addr := (pair i).1,
          work := .elem b.op b.ty s.nextId (pair i).2 b.a (decide ((pair i).1 % 16 = 0) || decide (pair i = pair 0)), ret := false, tag := s.nextId,
          rel := none, acq := none, lseq := 0, rcd := false, ent := none }) ∧
      (t.pkg s.curPkg).bops = (s.pkg s.curPkg).bops ++ [⟨s.nextId, s.cur.wid, maskOf (s.activeLanes m), d, b.n, s.nextId + 1⟩] ∧
      WaveBecomes s t id (fun l x => goOn s l (owes m false (s.nextId + 1) (regs1 d) x))))) ∧
  (∀ (s : State) (k n : Nat) (b : BopRec), (s.pkg k).bops.find? (fun b => b.id == n) = some b →
    (b.left ≠ 0 → exec (.bopComplete k n) s = .next s) ∧
    (b.left = 0 → b.d.toNat < 120 → After (.bopComplete k n) s (fun t => t = { s with waves := t.waves, pkgs := t.pkgs } ∧
      (∀ q ∈ (t.pkg k).bops, q.id ≠ n) ∧
      ∀ l, b.lanes.getLsbD l = true → ∀ e ∈ (t.lane b.wid l).pend, e.tag = b.tag → e.dst = .g b.d → e.got = true ∧ e.val = 0)))

/-! ### Fences, owner bits, rings, byte barriers (R193 to R200) -/

/-- R193, R194: `fnc.iss` numbers a fence of a scope, gives its token and goes on, or waits while eight are outstanding;
`fnc.wt` waits for a fence outstanding, refuses a token from ahead, and otherwise acquires; a fence is not performed while an
earlier write of its wave has not performed at its scope. -/
def Obligations.Fences : Prop :=
  (∀ (s : State) (m : Mods) (d : Reg) (n : Scope), (∃ l, On s m l) →
    let v := s.wave s.cur.wid
    let num := match n with | .core => 0 | .clu => 1 | .pkg => 2 | .pod => 3
    (v.fences.length < 8 → After (.fncIss m d n) s (fun t => t = { s with waves := t.waves, nextId := s.nextId + 1 } ∧
      ∃ f : Fence, f.seq = v.fseq + 1 ∧ f.scope = n ∧ f.writeId = s.nextId ∧
        WaveBecomes s t (fun v => { v with fseq := v.fseq + 1, fences := v.fences ++ [f] })
          (fun l x => goOn s l (sends s m none (regs1 d) (fun _ => to32 d (BitVec.ofNat 32 (num * 2 ^ 30 + (v.fseq + 1).toNat))) (fun _ => 0) l x)))) ∧
    (8 ≤ v.fences.length → After (.fncIss m d n) s (Waits (.fncIss m d n) s))) ∧
  (∀ (s : State) (m : Mods) (a : Reg) (e : Nat), Elected s m e →
    let v := s.wave s.cur.wid
    let tok := (s.src s.cur.wid e a).toNat
    let q := BitVec.ofNat 24 tok
    let ahead := ((q - v.fseq).toNat ≠ 0 ∧ (q - v.fseq).toNat < 2 ^ 23)
    (tok / 2 ^ 24 % 64 = 0 → ¬ ahead → (∃ f ∈ v.fences, f.seq = q) → After (.fncWt m a) s (Waits (.fncWt m a) s)) ∧
    (tok / 2 ^ 24 % 64 = 0 → ¬ ahead → (∀ f ∈ v.fences, f.seq ≠ q) → v.discarded = [] → After (.fncWt m a) s (fun t =>
      t = { s with waves := t.waves, pkgs := t.pkgs } ∧ CachesOnly s t ∧ GoesOn s t ∧
      (2 ^ 30 ≤ tok → (t.core s.curPkg s.curTroupe.core).lines = []))) ∧
    (Alone s → (tok / 2 ^ 24 % 64 ≠ 0 ∨ ahead) → After (.fncWt m a) s (fun t => StopsActive s t m 0x10 0x12 0))) ∧
  (∀ (s : State) (w : Nat) (q : BitVec 24), After (.fencePerformed w q) s (fun t => t = { s with waves := t.waves } ∧
    (∀ u, u ≠ w → t.wave u = s.wave u) ∧ t.wave w = { s.wave w with fences := (t.wave w).fences } ∧
    (∀ f, f ∈ (t.wave w).fences ↔ f ∈ (s.wave w).fences ∧ ¬ (f.seq = q ∧ s.fenceDone w f = true)) ∧
    (∀ f ∈ (s.wave w).fences, ∀ x ∈ s.writes, x.wid = w → x.id < f.writeId →
      x.level < (match f.scope with | .core => 1 | .clu => 2 | _ => 3) → f ∈ (t.wave w).fences)))

/-- R195, R196: owner bits. Lanes give tiles of their own troupe to the engines, or take back those that no engine command
names; the tiles change hands and no others; `own.test` answers the owner and whether a command names the tile. A lane that
names no such tile stops with PROT, one whose tile has the owner already with OWN. -/
def Obligations.OwnerBits : Prop :=
  ∀ (s : State) (m : Mods) (d a : Reg) (r : Nat → TileRef),
    let at_ := fun l => s.src s.cur.wid l a
    let owner := fun (s : State) (c p : Nat) => fget false (s.core s.curPkg c).ownEng p
    let flips := fun (i : Instr) (give : Bool) (busy : TileRef → Bool) =>
      (∀ l, On s m l → s.ownTile (at_ l) = some (r l) ∧ owner s (r l).core (r l).tile = !give) →
      ((∃ l, On s m l ∧ busy (r l) = true) → After i s (Waits i s)) ∧
      ((∀ l, On s m l → busy (r l) = false) → After i s (fun t => t = { s with waves := t.waves, pkgs := t.pkgs } ∧ GoesOn s t ∧
        ∀ c p, ((∃ l, On s m l ∧ (r l).core = c ∧ (r l).tile = p) → owner t c p = give) ∧
          ((∀ l, On s m l → (r l).core = c → (r l).tile ≠ p) → owner t c p = owner s c p)))
    let refuses := fun (i : Instr) (give : Bool) => Alone s → (∃ l, On s m l) →
      ((∀ l, On s m l → s.ownTile (at_ l) = none) → ∃ (t : State) (who : Nat → Bool), exec i s = .next t ∧ (∀ l, who l = true ↔ On s m l) ∧
        StopsAs s t who (fun _ => causeWord 0x02 0 0) (fun l => (at_ l).setWidth 64) (fun _ => s.cur.gpc) (fun _ => s.cur.gpc) (standsAt s)) ∧
      ((∀ l, On s m l → s.ownTile (at_ l) = some (r l) ∧ owner s (r l).core (r l).tile = give) → ∃ (t : State) (who : Nat → Bool),
        exec i s = .next t ∧ (∀ l, who l = true ↔ On s m l) ∧
        StopsAs s t who (fun _ => causeWord 0x05 0 0) (fun l => (at_ l).setWidth 64) (fun _ => s.cur.gpc) (fun _ => s.cur.gpc) (standsAt s))
    flips (.ownGive m a) true (s.tileInFlight s.curPkg) ∧ flips (.ownTake m a) false (s.tileNamed s.curPkg) ∧
    refuses (.ownGive m a) true ∧ refuses (.ownTake m a) false ∧
    ((∀ l, On s m l → s.ownTile (at_ l) = some (r l)) → Computes (.ownTest m d a) s m none (regs1 d)
      (fun l => to32 d (BitVec.ofNat 32 ((owner s (r l).core (r l).tile).toNat + 2 * (s.tileNamed s.curPkg (r l)).toNat))))

/-- R197, R198: rings. `rng.wait` claims the slot at RD when one is filled, else waits; its tiles become the program's and its
address is the result. `rng.rel` gives the slot claimed longest ago back to the engines. `mrg.free` gives a slot of a mirror
back and clears its bit of the pending word at home; the home's slot is free when all its bits are clear. -/
def Obligations.Rings : Prop :=
  ∀ (s : State) (m : Mods) (d a : Reg) (e : Nat) (r : TileRef) (key : Nat) (h : RingHdr),
    Elected s m e → s.head (s.src s.cur.wid e a) = .at_ r key → s.ownStore e key 16 = false → NoneAbout s key 16 → s.ring key = some h →
    let owner := fun (s : State) (p : TileRef) => fget false (s.core s.curPkg p.core).ownEng p.tile
    let keeps := fun (t : State) => ∀ b, (b < key ∨ key + 16 ≤ b) → memGet t.mem b = memGet s.mem b
    let old := ((h.rd : Int) - h.held).emod h.nslot |>.toNat
    let here := fun (slot : Nat) => s.slotTiles s.curTid h slot
    (h.kind ≠ 1 → h.filled = 0 → After (.rngWait m d a) s (Waits (.rngWait m d a) s)) ∧
    (h.kind ≠ 1 → h.filled ≠ 0 → (here h.rd).length = h.tps → After (.rngWait m d a) s (fun t => keeps t ∧
      t.ring key = some { h with filled := h.filled - 1, rd := (h.rd + 1) % h.nslot, held := (h.held + 1) % 256 } ∧
      (∀ p ∈ here h.rd, owner t p = false) ∧
      LanesBecome s t (fun l x => goOn s l (sends s m none (regs1 d)
        (fun _ => to32 d (BitVec.ofNat 32 (s.curTroupe.crk * 2 ^ 20 + (h.base + h.rd * h.tps) * 2 ^ 12))) (fun _ => 0) l x)))) ∧
    (h.kind = 0 → h.held ≠ 0 → (here old).length = h.tps → s.relWait .core = false →
      (∀ p ∈ here old, s.tileInFlight s.curPkg p = false) → After (.rngRel m a) s (fun t => keeps t ∧ GoesOn s t ∧
        t.ring key = some { h with held := h.held - 1, free := (h.free + 1) % 256 } ∧ ∀ p ∈ here old, owner t p = true)) ∧
    (h.kind = 2 → h.held ≠ 0 → (here old).length = h.tps → s.relWait .clu = false →
      (∀ p ∈ here old, s.tileInFlight s.curPkg p = false) → ∀ (hr : TileRef) (pl : Place) (hh : RingHdr),
      s.checkS s.curTid h.home 16 = .ok pl → s.tileOf s.curTid h.home = some hr →
      let hk := hr.key s.curPkg h.home
      s.ring hk = some hh → hh.kind = 1 → (key + 16 ≤ hk ∨ hk + 144 ≤ key) → NoneAbout s hk 144 → h.cidx < 16 → old < 32 →
      After (.mrgFree m a) s (fun t => GoesOn s t ∧ t.ring key = some { h with held := h.held - 1 } ∧
        (∀ p ∈ here old, owner t p = true) ∧
        let pend := s.word (hk + 16 + 4 * old)
        let left := pend &&& ~~~ (1#32 <<< h.cidx)
        t.word (hk + 16 + 4 * old) = left ∧
        t.ring hk = some (if left.toNat % 2 ^ 16 = 0 then { hh with free := (hh.free + 1) % 256 } else hh)))

/-- R199, R200: byte barriers. `bb.init` clears one; `bb.exp` posts a count of bytes, `bb.arv` adds to those that have come; a
phase completes when a count is posted and has come, its excess kept, an excess marked as an overrun; `bb.wt` waits while a
count is posted, and on a barrier that traps overruns takes the trap of code 0x80. -/
def Obligations.ByteBarriers : Prop :=
  ∀ (s : State) (m : Mods) (d a : Reg) (e : Nat) (r : TileRef) (key : Nat),
    Elected s m e → s.head (s.src s.cur.wid e a) = .at_ r key → s.ownStore e key 16 = false → NoneAbout s key 16 →
    let keeps := fun (t : State) => ∀ b, (b < key ∨ key + 16 ≤ b) → memGet t.mem b = memGet s.mem b
    let v := s.src s.cur.wid e d
    -- the completion check
    let after := fun (b : ByteBar) => if b.posted = true ∧ b.exp.toNat ≤ b.arr.toNat
      then { b with ovr := b.ovr || b.arr != b.exp, arr := b.arr - b.exp, exp := 0, posted := false, phase := !b.phase } else b
    (v.toNat ≤ 1 → After (.bbInit m d a) s (fun t => keeps t ∧ GoesOn s t ∧
      t.byteBar key = some ⟨0, 0, v.getLsbD 0, false, false, false⟩)) ∧
    ∀ b, s.byteBar key = some b →
      ((b.trapen && b.ovr) = false → b.posted = false → After (.bbExp m d a) s (fun t => keeps t ∧ GoesOn s t ∧
        t.byteBar key = some (after { b with exp := v, posted := true }))) ∧
      (s.relWait .core = false → After (.bbArv m d a) s (fun t => keeps t ∧ t.byteBar key = some (after { b with arr := b.arr + v }))) ∧
      ((b.trapen && b.ovr) = false → b.posted = true → s.cur.past = false → After (.bbWt m a) s (Waits (.bbWt m a) s)) ∧
      ((b.trapen && b.ovr) = false → b.posted = false → After (.bbWt m a) s (fun t => t = { s with waves := t.waves } ∧ GoesOn s t)) ∧
      ((b.trapen && b.ovr) = true → s.cur.past = false → Alone s → ∃ (t : State) (who : Nat → Bool), exec (.bbWt m a) s = .next t ∧ (∀ l, who l = true ↔ On s m l) ∧
        StopsAs s t who (fun _ => causeWord 0x16 0 0x80) (fun _ => 0) (fun _ => s.cur.pc) (fun _ => s.cur.pc) (standsAt s))

/-! ### Heap and pages (R201 to R203, R237, R238, R277 to R282) -/

/-- R201 to R203: the heap. `hfree` gives each lane's block to the free list of its class, lowest lane first, 0 to none, and
stops a lane that names no block; `halloc` answers 0 to a size of 0 or above 65,536, and otherwise the block at the head of the
list of the smallest class that holds the size. -/
def Claims.HeapBlocks : Prop :=
  ∀ (s : State) (m : Mods) (d a : Reg),
    let k := s.curPkg
    let va := fun l => s.src64 s.cur.wid l a
    let size := fun l => (s.src s.cur.wid l a).toNat
    (s.relWait .pkg = false → (∀ l, On s m l → va l = 0 ∨ (s.heapBlock k s.curCtx (va l)).isSome = true) →
      After (.hfree m a) s (fun t => t = { s with waves := t.waves, pkgs := t.pkgs } ∧ GoesOn s t ∧
        ∀ c, t.heapList k s.curCtx c =
          (((s.activeLanes m).filter (fun l => va l != 0 && s.heapBlock k s.curCtx (va l) == some c)).map va).reverse ++ s.heapList k s.curCtx c)) ∧
    (s.relWait .pkg = false → Alone s → (∃ l, On s m l) → (∀ l, On s m l → va l ≠ 0 ∧ s.heapBlock k s.curCtx (va l) = none) →
      ∃ (t : State) (who : Nat → Bool), exec (.hfree m a) s = .next t ∧ (∀ l, who l = true ↔ On s m l) ∧
        StopsAs s t who (fun _ => causeWord 0x02 0 0) va (fun _ => s.cur.gpc) (fun _ => s.cur.gpc) (standsAt s)) ∧
    ((∀ l, On s m l → size l = 0 ∨ 65536 < size l) → Computes (.halloc m d a) s m none (regs2 d) (fun _ => to64 d 0)) ∧
    (∀ e c b rest, (∀ l, On s m l ↔ l = e) → 6 ≤ c → c ≤ 16 → size e ≤ 2 ^ c → 0 < size e → (c = 6 ∨ 2 ^ (c - 1) < size e) →
      s.heapList k s.curCtx c = b :: rest → b ≠ 0 → After (.halloc m d a) s (fun t =>
        t.heapList k s.curCtx c = rest ∧ (∀ c', c' ≠ c → t.heapList k s.curCtx c' = s.heapList k s.curCtx c') ∧
        (t.core k s.curTroupe.core).lines = [] ∧
        LanesBecome s t (fun l x => goOn s l (sends s m none (regs2 d) (fun _ => to64 d b) (fun _ => 0) l x))))

/-- R237, R238, R277 to R282: pages. `vm.commit` and `vm.free` act on sparse pages homed here and answer a status: 1 where the
page is already so, 2 where its region's quota is used up; a commit with a frame puts a usable leaf of this home into the
tables, without stale translations. A change of a mapped page begins by dropping its translations and completes when what is
in flight has drained: the frames go back, and the status reaches its lanes. `vm.prot`, `vm.dup`, `vm.split` and `tlb.inv` take
PRIV in user mode. A walk that completes puts its answer into the caches of every core that has joined it and of their cluster,
and answers each of its waves. -/
def Claims.PageChanges : Prop :=
  (∀ (s : State) (m : Mods) (d a : Reg) (e : Nat) (r : Region) (w : Walked), Elected s m e →
    let k := s.curPkg
    let va := s.src64 s.cur.wid e a
    let status := fun (i : Instr) (n : Nat) => Computes i s m none (regs1 d) (fun _ => to32 d (BitVec.ofNat 32 n))
    va.toNat % 2 ^ 16 = 0 → s.sparsePage k s.curCtx va = some (r, w) →
    (2 ≤ pteState w.pte → status (.vmCommit m d a) 1) ∧
    (pteState w.pte < 2 → r.quota ≤ r.used → status (.vmCommit m d a) 2) ∧
    (∀ f p, pteState w.pte < 2 → r.used < r.quota → (s.pkg k).takeFrame (clusterOf s.curTroupe.core) 1 = some (f, p) → s.writes = [] →
      (∀ c, flook (s.pkg k).ctxs s.curCtx.toNat = some c → overlaps (hbmKey k w.pa) 8 (hbmKey k (c.regions.toNat + 32 * r.idx + 20)) 4 = false) →
      After (.vmCommit m d a) s (fun t =>
        t.read64 (hbmKey k w.pa) = mkLeaf w.pte 2 k 0 f ∧ Untranslated t k s.curCtx va.toNat (2 ^ 16) ∧
        LanesBecome s t (fun l x => goOn s l (sends s m none (regs1 d) (fun _ => to32 d 0) (fun _ => 0) l x)))) ∧
    (s.relWait .pkg = false → s.changing s.curCtx va (2 ^ 16) = false → pteState w.pte < 2 → status (.vmFree m d a) 1) ∧
    (s.relWait .pkg = false → s.changing s.curCtx va (2 ^ 16) = false → 2 ≤ pteState w.pte → After (.vmFree m d a) s (fun t =>
      Untranslated t k s.curCtx va.toNat (2 ^ 16) ∧
      (∃ c ∈ (t.pkg k).vmch, c.ctx = s.curCtx ∧ c.va = va ∧ c.wid = some s.cur.wid ∧ c.d = some d ∧ c.status = 0 ∧
        c.frees = s.copiesOf s.curCtx va ∧ c.old = s.leavesOf s.curCtx va ∧ c.tag = s.nextId) ∧
      LanesBecome s t (fun l x => goOn s l (owes m false s.nextId (regs1 d) x))))) ∧
  (∀ (s : State) (m : Mods) (d a : Reg) (e : Nat), Elected s m e →
    let k := s.curPkg
    let asks := fun (i : Instr) (q : VmAsk) => Privileged s → match q with
      | .param => s.cur.grouped = false → s.cur.defer = false →
          After i s (fun t => ContextStops s t k s.curCtx ∧ StopRecorded s t k s.curCtx 0x10 0x11)
      | .wait => After i s (Waits i s)
      | .now n => Computes i s m none (regs1 d) (fun _ => to32 d (BitVec.ofNat 32 n))
      | .begin_ s1 c => s1.waves = s.waves → s1.cur = s.cur → s1.troupes = s.troupes → After i s (fun t => LanesBecome s t (fun l x => goOn s l (owes m false s1.nextId (regs1 d) x)) ∧
          (t.pkg k).vmch = (s1.pkg k).vmch ++
            [{ c with id := s1.nextId, wid := some s.cur.wid, lanes := maskOf (s.activeLanes m), d := some d, tag := s1.nextId }])
    let b := s.block e a
    asks (.vmProt m d a) (if (b 4)[3]!.toNat / 8 ≠ 0 then .param
      else vmProt s k s.curCtx ((b 4)[1]! ++ (b 4)[0]!) (b 4)[2]!.toNat ((b 4)[3]!.toNat % 8)) ∧
    asks (.vmDup m d a) (vmDup s k (clusterOf s.curTroupe.core) s.curCtx ((b 6)[1]! ++ (b 6)[0]!)
      (((b 6)[5]! ++ (b 6)[4]!) ++ ((b 6)[3]! ++ (b 6)[2]!))) ∧
    asks (.vmSplit m d a) (vmSplit s k s.curCtx (s.src64 s.cur.wid e a)) ∧
    (Privileged s → s.cur.past = true → (b 4)[3]!.toNat < 4 → After (.tlbInv m a) s (fun t => t = { s with waves := t.waves } ∧ GoesOn s t)) ∧
    (Privileged s → s.cur.past = false → (b 4)[3]!.toNat < 4 →
      (∀ c ∈ (s.pkg k).vmch, c.wid = some s.cur.wid → c.d = none → c.lanes &&& s.cur.lanes = 0) →
      let va := (((b 4)[1]! ++ (b 4)[0]!) : W64).toNat / 2 ^ 16 * 2 ^ 16
      After (.tlbInv m a) s (fun t => PathWaits (.tlbInv m a) s t ∧ t.mem = s.mem ∧
        ∀ x ∈ (t.core k s.curTroupe.core).tlb, 0 < x.size → 0 < (b 4)[2]!.toNat → va + (b 4)[2]!.toNat * 2 ^ 16 ≤ 2 ^ 64 →
          ¬ covers s.curCtx va ((b 4)[2]!.toNat * 2 ^ 16) x)) ∧
    (Alone s → ∀ i ∈ [Instr.vmProt m d a, .vmDup m d a, .vmSplit m d a, .tlbInv m a], After i s (fun t => StopsActive s t m 0x11 0 0))) ∧
  (∀ (s : State) (k n : Nat) (c : VmChange), (s.pkg k).vmch.find? (fun c => c.id == n) = some c →
    (s.changeDone c = false → exec (.vmChangeComplete k n) s = .next s) ∧
    (s.changeDone c = true → After (.vmChangeComplete k n) s (fun t =>
      (∀ x ∈ (t.pkg k).vmch, x.id ≠ n) ∧
      (∀ q f z g, (q, f, z) ∈ c.frees → f ≤ g → g < f + z → g ∉ (s.pkg q).phys.withdrawn → g ∈ (t.pkg q).stackPool (f * 2 ^ 16 / 2 ^ 36)) ∧
      (∀ w d, c.wid = some w → c.d = some d → d.toNat < 120 → ∀ l, c.lanes.getLsbD l = true →
        ∀ e ∈ (t.lane w l).pend, e.tag = c.tag → e.dst = .g d → e.got = true ∧ e.val = c.status)))) ∧
  (∀ (s : State) (k core : Nat) (x : W32) (v : W64),
    let is := fun (r : Walk) => r.started = true ∧ r.done = false ∧ r.pkg = k ∧ r.die = core / 256 ∧ r.ctx = x ∧ r.page = pageOf v
    ((∀ r ∈ s.walks, ¬ is r) → exec (.pageWalkComplete k core x v) s = .next s) ∧
    ∀ pre r post, s.walks = pre ++ r :: post → (∀ q ∈ pre, ¬ is q) → is r →
      let page := BitVec.ofNat 64 (pageOf v * 2 ^ 16)
      After (.pageWalkComplete k core x v) s (fun t => t = { s with pkgs := t.pkgs, walks := t.walks } ∧ (∀ j, j ≠ k → t.pkg j = s.pkg j) ∧
        t.pkg k = { s.pkg k with cores := (t.pkg k).cores, tlb2 := (t.pkg k).tlb2, wcache := (t.pkg k).wcache } ∧
        (∀ c, t.core k c = { s.core k c with tlb := (t.core k c).tlb }) ∧
        (∀ c ∈ r.cores, ∀ e, s.lookup k c x page = some e → 2 ≤ pteState e.leaf →
          (∃ y ∈ (t.core k c).tlb, y.hits x page = true) ∧ ∃ y ∈ fget [] (t.pkg k).tlb2 (c / 256), y.hits x page = true) ∧
        ∀ w ∈ r.wids, ∀ u, flook s.waves w = some u → u.ended = false →
          ∃ q ∈ t.walks, q = { r with wids := q.wids, done := true } ∧ w ∈ q.wids)) ∧
  (∀ (s : State) (k q : Nat) (n : Notice) (rest : List (Nat × Notice)), (s.pkg k).fab.inNotices = (q, n) :: rest → n.kind = .invalidate →
    let size := if n.arg.toNat % 8 = 0 then 2 ^ 16 else if n.arg.toNat % 8 = 1 then 2 ^ 21 else 2 ^ 30
    After (.invalidateNotice k) s (fun t => t = { s with pkgs := t.pkgs } ∧ (∀ j, j ≠ k → t.pkg j = s.pkg j) ∧
      (t.pkg k).fab.inNotices = rest ∧ ∀ ctx, Untranslated t k ctx (n.arg.toNat / 2 ^ 16 * 2 ^ 16) size))

/-! ### Engines (R204 to R214, R229, R338 to R348) -/

/-- R204 to R214, R229: engine commands. With a legal block whose ranges pass their checks a command is accepted by the engine
with the fewest bytes queued: it stands last among the package's commands and the path goes on; with no room at any engine, or
while a translation misses, the path waits; a length that is no multiple of 16 takes ILLEGAL with PARAM. A window is reserved with contents that nothing
constrains, and released when no work names it. -/
def Claims.EngineCommands : Prop :=
  ∀ (s : State) (m : Mods) (d a : Reg) (e eng : Nat), Elected s m e →
    let k := s.curPkg
    let die := s.curTroupe.core / 256
    let accepts := fun (i : Instr) (vas : List W64) (id : Nat) (total : Nat) (cmd : Cmd) (f : Nat → Lane → Lane) =>
      ((s.pkg k).engineFor die = some eng → s.walkWait .g vas = true → After i s (fun t => WaitsForWalks i s t vas)) ∧
      (s.walkWait .g vas = false → (s.pkg k).engineFor die = some eng → After i s (fun t => t.mem = s.mem ∧ t.writes = s.writes ∧
        (∃ srcs dsts, (t.pkg k).cmds = (s.pkg k).cmds ++ [{ CmdRec.blank with
          id := id, tid := s.curTid, wid := s.cur.wid, core := s.curTroupe.core, ctx := s.curCtx, engine := eng, cmd := cmd, total := total, srcs := srcs, dsts := dsts }]) ∧
        LanesBecome s t (fun l x => goOn s l (f l x))))
    let full := fun (i : Instr) => (s.pkg k).engineFor die = none → After i s (Waits i s)
    let none_ := fun (x : Option Bad) => x = none
    -- tc.copy
    (let b := s.block e a 6
     let dsp := bf b 4 27 26
     let ssp := bf b 4 25 24
     let len := bf b 4 23 0
     let src := bd b 0
     let dst := bd b 2
     let sp := fun (n : Nat) => if n = 0 then Space.g else .s
     (bf b 4 31 28 = 0 → dsp ≤ 1 → ssp ≤ 1 → 16 ≤ len → len % 16 = 0 → (ssp = 1 → bw b 1 = 0) → (dsp = 1 → bw b 3 = 0) →
       none_ (s.rangeX (sp ssp) .load src len 16) → none_ (s.rangeX (sp dsp) .store dst len 16) → none_ (s.barBad (bw b 5)) →
       (dsp = 0 → none_ (s.rangeDet dst len)) →
       accepts (.tcCopy m a) (vasOf (sp ssp) src len ++ vasOf (sp dsp) dst len) s.nextId len
         (.copy (sp ssp) (sp dsp) false src dst len (bw b 5)) (fun _ x => x) ∧ full (.tcCopy m a)) ∧
     (Alone s → len % 16 ≠ 0 → After (.tcCopy m a) s (fun t => StopsActive s t m 0x10 0x11 0))) ∧
    -- tc.mcast, perm.load
    (let b := s.block e a 4
     (∀ r key h, bf b 3 31 28 = 0 → s.headWait e (bw b 2) = false → s.head (bw b 2) = .at_ r key → s.ring key = some h → h.kind = 1 →
       none_ (s.rangeG .load (bd b 0) (4096 * h.tps) 16) → (∀ c ∈ consumers h (bf b 3 7 0), none_ (s.consBad h (bf b 3 27 8) c)) →
       accepts (.tcMcast m a) (vasOf .g (bd b 0) (4096 * h.tps)) s.nextId (4096 * h.tps)
         (.mcast (bd b 0) (bw b 2) (bf b 3 27 8) (bf b 3 7 0)) (fun _ x => x) ∧ full (.tcMcast m a)) ∧
     (bf b 0 31 2 = 0 → 1 ≤ (bw b 1).toNat → (bw b 1).toNat ≤ 4096 → s.curTroupe.hdr.acc ≠ 0 →
       none_ (s.rangeG .load (bd b 2) (2 * (bw b 1).toNat) 16) →
       accepts (.permLoad m d a) (vasOf .g (bd b 2) (2 * (bw b 1).toNat)) (s.nextId + 1) (2 * (bw b 1).toNat)
         (.perm (bf b 0 1 0) (bw b 1).toNat (bd b 2) (maskOf (s.activeLanes m)) d s.nextId)
         (fun _ x => owes m false s.nextId (regs1 d) x) ∧ full (.permLoad m d a))) ∧
    -- tc.ob, raw bytes
    (let b := s.block e a 4
     let n := bf b 3 19 0
     ∀ w, bf b 0 31 28 = 0 → bf b 3 31 20 = 0 → bf b 0 7 5 = 4 → bf b 0 4 4 = 0 → flook s.curTroupe.windows (bf b 0 3 0) = some w →
       w.pen = false → bf b 0 27 8 % 16 = 0 → n % 16 = 0 → 0 < n → bf b 0 27 8 + n ≤ w.size * 1024 → none_ (s.rangeG .load (bd b 1) n 16) →
       accepts (.tcOb m a) (vasOf .g (bd b 1) n) s.nextId n (.ob (bf b 0 3 0) true (bf b 0 27 8) 0 .g (bd b 1) n) (fun _ x => x) ∧
       full (.tcOb m a)) ∧
    -- windows
    (∀ n w, windowOf s.curTroupe (s.pkg k) (s.block e a 4) = some (n, w) → After (.obRsv m a) s (fun t => GoesOn s t ∧ t.pkgs = s.pkgs ∧
      t.mem = s.mem ∧ flook (t.troupe s.curTid).windows n = some { w with gen := s.fresh } ∧
      ∀ n', n' ≠ n → flook (t.troupe s.curTid).windows n' = flook s.curTroupe.windows n')) ∧
    (let n := (s.src s.cur.wid e a).toNat
     n < 16 → (flook s.curTroupe.windows n).isSome = true →
       let busy := ((s.mxCore s.curTid).items s.curTid).any (fun y => y.work.usesWin n)
       (busy = true → After (.obRel m a) s (Waits (.obRel m a) s)) ∧
       (busy = false → After (.obRel m a) s (fun t => GoesOn s t ∧ t.pkgs = s.pkgs ∧ t.mem = s.mem ∧
         flook (t.troupe s.curTid).windows n = none ∧
         ∀ n', n' ≠ n → flook (t.troupe s.curTid).windows n' = flook s.curTroupe.windows n'))) ∧
    -- rcopy, without a token of its own
    (let b := s.block e a 8
     let len := bf b 4 23 0
     let src := bd b 0
     let dst := bd b 2
     ∀ (spr : Bool) (h : Nat), bf b 4 31 24 = 0 → 64 ≤ len → len % 64 = 0 → bw b 7 = 0 → bw b 5 = 0 → none_ (s.rangeG .load src len 64) →
       s.rcopyHome dst len = .inr h → none_ (s.barBad (bw b 6)) → none_ (s.rangeDet dst len) →
       s.walkWait .g (vasOf .g src len ++ vasOf .g dst len) = false →
       (s.routeRoom (s.route spr dst h) h 66 = false →
         After (.rcopy m false false spr d a) s (Waits (.rcopy m false false spr d a) s)) ∧
       (s.routeRoom (s.route spr dst h) h 66 = true → After (.rcopy m false false spr d a) s (fun t => t.mem = s.mem ∧ GoesOn s t ∧ (t.troupe s.curTid).lock = true ∧
         ∃ c, (t.pkg k).cmds = (s.pkg k).cmds ++ [c] ∧ c.id = s.nextId ∧ c.wid = s.cur.wid ∧ c.total = len ∧ c.read = 0 ∧
           c.cmd = .rcopy .g src dst h len (bw b 6) 0 0 (s.route spr dst h))))

/-- R210, R341 to R344, R347, R348: engines at work. A unit of a plain copy is at most 1,024 bytes; where the check of a 256-byte
unit of its source fails it is read again, and where the check of the same 256 bytes fails again the command is abandoned and its
engine goes under test; it is written where the command says, and the command is over with its last unit. A filled slot of a plain ring changes the
counters in one step. A budget period gives each class its budget less what it has overdrawn. -/
def Claims.EngineWork : Prop :=
  (∀ (s : State) (k n : Nat) (c : CmdRec) (sp dp : Space) (src dst : W64) (len : Nat) (bb : W32),
    (s.pkg k).cmds.find? (fun c => c.id == n) = some c → c.cmd = .copy sp dp false src dst len bb → c.engine ≠ 255 → c.id = n →
    let size := min 1024 (c.total - c.read)
    let from_ := s.spans k c sp (src + BitVec.ofNat 64 c.read) size
    let same := fun (t : State) => t = { s with pkgs := t.pkgs } ∧ (∀ j, j ≠ k → t.pkg j = s.pkg j) ∧
      (t.pkg k).cmds.map (fun x => x.id) = (s.pkg k).cmds.map (fun x => x.id)
    (s.mayRead k c = false → s.mayPark k c = false → ∀ bad, exec (.engineUnitRead k n bad) s = .next s) ∧
    (s.mayRead k c = true → s.mayPark k c = false → (∀ e ∈ from_, s.poisoned e.1 e.2 = false) →
      -- the 256-byte units that carry a CRC, and those whose check fails
      ∀ units : List Nat, units.Nodup →
        (∀ u, u ∈ units ↔ ∃ e ∈ from_, keyIsScr e.1 = false ∧ e.1 / 256 ≤ u ∧ u < (e.1 + e.2 + 255) / 256) → ∀ bits : Nat,
      let bad := bits % 2 ^ units.length
      (bad = 0 → After (.engineUnitRead k n bits) s (fun t => same t ∧
        (t.pkg k).cmds.find? (fun x => x.id == n) = some { c with
          read := c.read + size, retried := 0, buf := c.buf ++ (from_.map (fun e => memGets s.mem e.1 e.2)).flatten })) ∧
      (bad ≠ 0 → bad &&& c.retried = 0 → After (.engineUnitRead k n bits) s (fun t => same t ∧
        (t.pkg k).cmds.find? (fun x => x.id == n) = some { c with retried := c.retried ||| bad })) ∧
      (bad &&& c.retried ≠ 0 → After (.engineUnitRead k n bits) s (fun t => (∀ x ∈ (t.pkg k).cmds, x.id ≠ n) ∧
        ∃ q ∈ (t.pkg k).phys.tests, q.cls = 3 ∧ q.unit = c.core / 256 * 6 + c.engine))) ∧
    (∀ key, c.buf ≠ [] → bb = 0 → s.spans k c dp (dst + BitVec.ofNat 64 c.written) c.buf.length = [(key, c.buf.length)] →
      NoneAbout s key c.buf.length → After (.engineUnitWrite k n) s (fun t =>
        memGets t.mem key c.buf.length = c.buf ∧ (∀ x, (x < key ∨ key + c.buf.length ≤ x) → memGet t.mem x = memGet s.mem x) ∧
        (c.read ≠ c.total → (t.pkg k).cmds.find? (fun x => x.id == n) = some { c with buf := [], written := c.written + c.buf.length }) ∧
        (c.read = c.total → ∀ x ∈ (t.pkg k).cmds, x.id ≠ n)))) ∧
  (∀ (s : State) (k n : Nat) (c : CmdRec) (sp dp : Space) (src dst : W64) (len : Nat) (bb : W32) (key : Nat) (h : RingHdr),
    (s.pkg k).cmds.find? (fun c => c.id == n) = some c → c.cmd = .copy sp dp true src dst len bb → s.cmdHdr c = some (key, h) → c.id = n →
    c.buf = [] → c.filled < c.written → c.written - c.filled = 4096 * h.tps → NoneAbout s key 16 → key % 16 = 0 →
    After (.ringSlotFill k n) s (fun t =>
      t.ring key = some { h with wr := (h.wr + 1) % h.nslot, free := h.free - 1, filled := (h.filled + 1) % 256 } ∧
      (∀ x, (x < key ∨ key + 16 ≤ x) → memGet t.mem x = memGet s.mem x) ∧
      (c.written = c.total → ∀ x ∈ (t.pkg k).cmds, x.id ≠ n) ∧
      (c.written ≠ c.total → (t.pkg k).cmds.find? (fun x => x.id == n) = some { c with filled := c.written, dsts := [] }))) ∧
  (∀ (s : State) (k : Nat), After (.budgetPeriodStart k) s (fun t => t = { s with pkgs := t.pkgs } ∧ (∀ j, j ≠ k → t.pkg j = s.pkg j) ∧
    t.pkg k = { s.pkg k with phys := { (s.pkg k).phys with pace := (t.pkg k).phys.pace } } ∧
    ∀ c, fget Pace.init (t.pkg k).phys.pace c = { fget Pace.init (s.pkg k).phys.pace c with
      budget := (fget Pace.init (s.pkg k).phys.pace c).next
      credit := ((fget Pace.init (s.pkg k).phys.pace c).next : Int) + min 0 (fget Pace.init (s.pkg k).phys.pace c).credit }))

/-! ### The matrix array (R56 to R65, R215 to R224, R331 to R337) -/

/-- R215 to R224: array instructions of a troupe that has a part of the array. While other work is at the head, each legal one is
accepted as the last of the troupe's work and its path goes on; with none before it, `mx.cfg`, `mx.swap` and `mx.zero` take
effect at once; `mx.wait` goes on when nothing is outstanding and otherwise waits. -/
def Claims.ArrayCommands : Prop :=
  ∀ (s : State) (m : Mods) (d a : Reg) (e : Nat) (c : ArrayCfg), Elected s m e → s.curTroupe.hdr.acc ≠ 0 → s.predict s.curTid = some c →
    let tid := s.curTid
    let core := s.mxCore tid
    let acc := s.curTroupe.hdr.acc
    let busy := ∃ y, core.head tid = some y ∧ quickWork s tid y.id y.work = none
    let now := core.items tid = []
    let on := fun (t : State) => (t.core s.curPkg s.curTroupe.core).mxq
    let accepts := fun (i : Instr) (n : Nat) (work : MxWork) (f : Lane → Lane) => After i s (fun t => t.mem = s.mem ∧ t.writes = s.writes ∧
      (∃ tiles, on t = on s ++ [⟨n, tid, s.cur.wid, work, tiles⟩]) ∧ LanesBecome s t (fun l x => goOn s l (f x)))
    let b := fun n => s.block e a n
    let win := fun n => flook s.curTroupe.windows n
    -- mx.cfg
    (let w := bw (b 1) 0
     let fmt := bf (b 1) 0 4 2
     let sp := bf (b 1) 0 5 5 == 1
     w.toNat < 2 ^ 6 → fmt ≤ 4 → (sp = true → fmt ≠ 2 ∧ fmt ≠ 3 ∧ (s.pkg s.curPkg).feat 4 = true) →
       (fmt = 4 → (s.pkg s.curPkg).feat 3 = true) →
       (busy → accepts (.mxCfg m a) s.nextId (.cfg (bf (b 1) 0 1 0) fmt sp) id) ∧
       (now → After (.mxCfg m a) s (fun t => GoesOn s t ∧ t.mem = s.mem ∧
         (t.mxCore tid).arr = { core.arr with fuse := bf (b 1) 0 1 0, fmt := fmt, sp := sp, active := [], shadow := [] }))) ∧
    -- mx.stat, mx.swap
    (let sub := bf (b 2) 0 5 4
     let n := bf (b 2) 0 3 0
     ∀ w, bf (b 2) 0 31 6 = 0 → win n = some w → (c.fuse ≠ 0 → sub = 0) → bf (b 2) 1 15 0 % c.shape.1 = 0 → bf (b 2) 1 15 0 < w.kext →
       bf (b 2) 1 31 16 < w.xext → fmtMatches c.fmt w.fmt = true → w.sp = c.sp → (busy ∨ now) →
       accepts (.mxStat m a) s.nextId (.stat sub n (bf (b 2) 1 15 0) (bf (b 2) 1 31 16)) id) ∧
    (c.canSwap = true → (busy → accepts (.mxSwap m) s.nextId .swap id) ∧ (now → After (.mxSwap m) s (fun t => GoesOn s t ∧ t.mem = s.mem ∧
      (t.mxCore tid).arr.shadow = [] ∧
      ∀ sub p, flook c.shadow sub = some p → c.shadow.Pairwise (fun x y => x.1 < y.1) →
        flook (t.mxCore tid).arr.active sub = if p.valid then some p else flook c.active sub))) ∧
    (c.canSwap = false → Alone s → After (.mxSwap m) s (fun t => StopsActive s t m 0x10 0x10 0)) ∧
    -- mx.strm
    (let n := bf (b 2) 0 3 0
     let sub := bf (b 2) 0 5 4
     let rows := bf (b 2) 0 13 6 + 1
     let moff := bf (b 2) 1 31 16
     let koff := bf (b 2) 1 15 0
     let p := fget Plane.init c.active sub
     ∀ w, bf (b 2) 0 31 20 = 0 → win n = some w → (c.fuse ≠ 0 → sub = 0) → moff + rows ≤ w.xext → p.valid = true →
       fmtMatches c.fmt w.fmt = true → w.blk = p.win.blk → (p.win.sp = false → w.pen = p.win.pen ∧ w.ptid = p.win.ptid) →
       (c.fmt = 4 → koff % w.blk = p.koff % w.blk) → bf (b 2) 0 19 14 + (rows * c.shape.2 - 1) * c.elem / 4096 < acc → (busy ∨ now) →
       accepts (.mxStrm m a) s.nextId (.strm (bf (b 2) 0 19 14) rows sub n moff koff) id) ∧
    -- mx.drain to registers
    (let ofmt := bf (b 3) 0 15 14
     bf (b 3) 0 31 16 = 0 → bf (b 3) 0 13 6 = 1 → ofmt ≠ 3 → (bw (b 3) 1).toNat + 31 < 4096 / c.elem → bf (b 3) 0 5 0 + 1 ≤ acc → (busy ∨ now) →
       accepts (.mxDrain m d a) (s.nextId + 1) (.drain s.cur.wid (maskOf (s.activeLanes m)) ofmt false 1 (bf (b 3) 0 5 0) (bw (b 3) 1)
         (bw (b 3) 2) d s.nextId) (owes m false s.nextId (regs1 d))) ∧
    -- mx.zero
    (let tile := bf (b 1) 0 5 0
     let count := bf (b 1) 0 12 6
     bf (b 1) 0 31 13 = 0 → 1 ≤ count → count ≤ 64 → tile + count ≤ acc →
       (busy → accepts (.mxZero m a) s.nextId (.zero tile count) id) ∧
       (now → After (.mxZero m a) s (fun t => GoesOn s t ∧ t.writes = s.writes ∧
         (∀ i, i < count → ∀ j, j < 4096 → memGet t.mem (s.accAt tid ((tile + i) * 4096 + j)) = 0) ∧
         ∀ i, tile ≤ i → i < tile + count → fget 0 (t.mxCore tid).arr.flags i = 0))) ∧
    -- mx.save, mx.rest
    (let va := bd (b 3) 0
     let tile := bf (b 3) 2 5 0
     let count := bf (b 3) 2 12 6
     let whole := bf (b 3) 2 13 13 == 1
     let pages := (if whole then stepsOf (2 ^ 16) va 16384 else []) ++ (if count ≠ 0 then stepsOf (2 ^ 16) (va + 16384) (4096 * count) else [])
     bf (b 3) 2 31 14 = 0 → count ≤ 64 → tile + count ≤ acc → busy →
       (s.walkWait .g pages = true →
         (s.imageBad .store va count whole = none → After (.mxSave m a) s (fun t => WaitsForWalks (.mxSave m a) s t pages)) ∧
         (s.imageBad .load va count whole = none → After (.mxRest m a) s (fun t => WaitsForWalks (.mxRest m a) s t pages))) ∧
       (s.walkWait .g pages = false →
       (s.imageBad .store va count whole = none → accepts (.mxSave m a) s.nextId (.save va tile count whole) id) ∧
       (s.imageBad .load va count whole = none → accepts (.mxRest m a) s.nextId (.rest va tile count whole) id))) ∧
    -- mx.wait
    ((s.cur.past = true ∨ now) → After (.mxWait m) s (fun t => t = { s with waves := t.waves } ∧ GoesOn s t)) ∧
    (s.cur.past = false → ¬ now → After (.mxWait m) s (fun t => t.mem = s.mem ∧ PathWaits (.mxWait m) s t ∧
      ∃ y ∈ on t, y.tid = tid ∧ y.work = .mark s.cur.wid s.cur.lanes))

/-- R56 to R65, R219, R221 to R223, R332 to R337: the work of the array, each piece the only one of its troupe. A plane fill puts
its window into the shadow plane. A stream of floats adds each K-group's exact sum, rounded once, to its accumulator; a stream of
codes adds each block's exact sum times its scales, rounded once. A drain closes open triples and delivers elements times its
scale, rounded once. Then the work is over, and an `mx.wait` behind it ends. -/
def Claims.ArrayWork : Prop :=
  (∀ (s : State) (tid : Nat) (y : MxItem), (s.mxCore tid).items tid = [y] →
    let arr := (s.mxCore tid).arr
    let accs := (s.troupe tid).accs
    let over_ := fun (t : State) => (t.mxCore tid).items tid = []
    match y.work with
    | .stat sub win koff noff => After (.planeFillDone tid) s (fun t => over_ t ∧ t.mem = s.mem ∧ t.waves = s.waves ∧
        flook (t.mxCore tid).arr.shadow sub = some ⟨true, koff, noff, fget Window.init (s.troupe tid).windows win⟩ ∧
        (t.mxCore tid).arr.active = arr.active)
    | .strm acc m sub win moff koff => accs.Nodup → acc * 4096 + m * arr.shape.2 * arr.elem ≤ accs.length * 4096 → (∀ p ∈ accs, p < 64) →
        let act := fget Window.init (s.troupe tid).windows win
        let p := fget Plane.init arr.active sub
        (arr.fmt < 4 → After (.streamResults tid) s (fun t => over_ t ∧ t.waves = s.waves ∧ t.writes = s.writes ∧
          ∀ i n, i < m → n < arr.shape.2 →
            let at_ := acc * 4096 + (i * arr.shape.2 + n) * arr.elem
            let g := if arr.fmt < 2 then 16 else if arr.fmt = 2 then 8 else 4
            let ef := if arr.fmt = 0 then fmtB16 else if arr.fmt = 1 then fmt16 else if arr.fmt = 2 then fmt32 else fmt64
            let af := if arr.fmt = 3 then fmt64 else fmt32
            -- the accumulator after each K-group
            ∃ r : Nat → Nat, r 0 = s.accNum tid at_ arr.elem ∧ t.accNum tid at_ arr.elem = r (arr.shape.1 / g) ∧
              ∀ k, k < arr.shape.1 / g →
                if act.kext ≤ koff + k * g ∨ p.win.kext ≤ p.koff + k * g then r (k + 1) = r k
                else
                  let x := fun j => act.elem (moff + i) (koff + k * g + j)
                  let w := fun j => p.win.elem (p.noff + n) (p.koff + k * g + j)
                  let xv := fun j => match x j, w j with | .num u, .num _ => ef.val u | _, _ => .fin false 0 0
                  let wv := fun j => match x j, w j with | .num _, .num u => ef.val u | _, _ => .fin false 0 0
                  let invalid := fun j => x j = .bad ∨ w j = .bad ∨ (xv j).isNan ∨ (wv j).isNan ∨
                    ((xv j).isInf ∧ (wv j).isZero) ∨ ((xv j).isZero ∧ (wv j).isInf)
                  let inf := fun j (neg : Bool) => ((xv j).isInf ∨ (wv j).isInf) ∧ ((xv j).neg ^^ (wv j).neg) = neg
                  ∃ (v : Nat × BitVec 5) (fl : BitVec 5), SumIs af .rne (af.val (r k)) (af.val v.1) (r (k + 1), fl) ∧
                    ((∃ j, j < g ∧ invalid j) → v.1 = af.nan) ∧
                    ((∀ j, j < g → ¬ invalid j) → (∀ neg, (∃ j, j < g ∧ inf j neg) →
                      v.1 = if ∃ j, j < g ∧ inf j (!neg) then af.nan else infBitsOf af neg) ∧
                      ((∀ j, j < g → ¬ inf j true ∧ ¬ inf j false) →
                        Rounds af .rne ((List.range g).map (fun j => ratOf (xv j) * ratOf (wv j))).sum
                          ((List.range g).all (fun j => ((xv j).isZero || (wv j).isZero) && ((xv j).neg ^^ (wv j).neg))) v)))) ∧
        -- codes: blocks that lie in the plane whole, no triple open
        (arr.fmt = 4 → 0 < act.blk → act.blk ≤ 256 → koff % act.blk = 0 → p.koff % act.blk = 0 → arr.shape.1 % act.blk = 0 →
          let b := act.blk
          (∀ i n, i < m → n < arr.shape.2 → s.accNum tid (acc * 4096 + (i * arr.shape.2 + n) * 8 + 4) 4 = 0) →
          let code := fun (e : Elem) (x : Int) => (e = .zero ∧ x = 0) ∨
            (-128 ≤ x ∧ x ≤ 127 ∧ e = .num ((x % 255).toNat + 2 ^ 8 * (x % 256).toNat + 2 ^ 16 * (x % 257).toNat))
          ∀ x w : Nat → Nat → Int, (∀ i q, i < m → q < arr.shape.1 → code (act.elem (moff + i) (koff + q)) (x i q)) →
            (∀ n q, n < arr.shape.2 → q < arr.shape.1 → code (p.win.elem (p.noff + n) (p.koff + q)) (w n q)) →
          After (.streamResults tid) s (fun t => over_ t ∧ t.waves = s.waves ∧ t.writes = s.writes ∧
            ∀ i n, i < m → n < arr.shape.2 →
              let at_ := acc * 4096 + (i * arr.shape.2 + n) * 8
              t.accNum tid (at_ + 4) 4 = 0 ∧
              -- the accumulator after each block
              ∃ r : Nat → Nat, r 0 = s.accNum tid at_ 4 ∧ t.accNum tid at_ 4 = r (arr.shape.1 / b) ∧
                ∀ k, k < arr.shape.1 / b →
                  if act.kext ≤ koff + k * b ∨ p.win.kext ≤ p.koff + k * b then r (k + 1) = r k
                  else
                    let sum := ((List.range b).map (fun j => x i (k * b + j) * w n (k * b + j))).sum
                    let sx := act.scale (moff + i) (koff / b + k)
                    let sw := p.win.scale (p.noff + n) (p.koff / b + k)
                    let legal := fun (c : Nat) => c % 2 ^ 15 = 0 ∨ (64 ≤ c / 2 ^ 7 % 2 ^ 8 ∧ c / 2 ^ 7 % 2 ^ 8 ≤ 189)
                    if legal sx ∧ legal sw then
                      ∃ (v : Nat × BitVec 5) (fl : BitVec 5), SumIs fmt32 .rne (fmt32.val (r k)) (fmt32.val v.1) (r (k + 1), fl) ∧
                        Rounds fmt32 .rne (sum * ratOf (fmtB16.val sx) * ratOf (fmtB16.val sw))
                          (decide (sum < 0) ^^ (fmtB16.val sx).neg ^^ (fmtB16.val sw).neg) v
                    else r (k + 1) = fmt32.nan))
    | .drain wid lanes ofmt false nt tile wh sc d tag => ofmt < 3 → d.toNat < 120 →
        let size := if arr.fmt = 3 then 8 else 4
        let from_ := if arr.fmt = 3 then fmt64 else fmt32
        let to_ := if ofmt = 0 then fmt32 else if ofmt = 1 then fmtB16 else fmt16
        let at_ := fun (l : Nat) => tile * 4096 + (wh.toNat + l) * arr.elem
        let gives := fun (t : State) (l v : Nat) => ∀ e ∈ (t.lane wid l).pend, e.tag = tag → e.dst = .g d → e.got = true ∧
          ∃ r, ProductIs to_ .rne (from_.val v) (fmt32.val sc.toNat) r ∧ e.val = BitVec.ofNat 32 r.1
        (arr.fmt < 4 → After (.drainWrite tid) s (fun t => over_ t ∧ t.mem = s.mem ∧
          ∀ l, lanes.getLsbD l = true → gives t l (s.accNum tid (at_ l) size))) ∧
        (arr.fmt = 4 → accs.Nodup → (∀ p ∈ accs, p < 64) → tile + nt ≤ accs.length → 1 ≤ nt → wh.toNat + 31 < 512 →
          After (.drainWrite tid) s (fun t => over_ t ∧ ∀ l, lanes.getLsbD l = true →
            let v := s.accNum tid (at_ l) 4
            let w := s.accNum tid (at_ l + 4) 4
            (w / 2 ^ 31 % 2 = 0 → gives t l v) ∧
            -- a triple left open is converted with the product kept for it
            (w / 2 ^ 31 % 2 = 1 → ∀ k, flook arr.kept (at_ l / 8) = some k → (fmt32.val k.toNat).isNan = false →
              (fmt32.val k.toNat).isInf = false → ∃ (x : Int) (u c : Nat × BitVec 5), -8388480 ≤ x ∧ x < 8388480 ∧
                (x - w % 256) % 255 = 0 ∧ (x - w / 2 ^ 8 % 256) % 256 = 0 ∧ (x - w / 2 ^ 16 % 512) % 257 = 0 ∧
                Rounds fmt32 .rne (x * ratOf (fmt32.val k.toNat)) (decide (x < 0) ^^ (fmt32.val k.toNat).neg) c ∧
                SumIs fmt32 .rne (fmt32.val v) (fmt32.val c.1) u ∧ t.accNum tid (at_ l + 4) 4 = 0 ∧ gives t l u.1)))
    | .mark wid lanes => (s.wave wid).tid = tid → ∀ r m, (s.wave wid).waits = [r] → r.instr = .mxWait m → r.grouped = false →
        r.lanes = lanes → lanes ≠ 0 → After (.mxWaitDone wid) s (fun t => over_ t ∧ t.mem = s.mem ∧ (t.wave wid).waits = [] ∧
          ∀ l, lanes.getLsbD l = true → (t.lane wid l).waiting = false ∧ (t.lane wid l).pc = r.npc)
    | _ => True) ∧
  -- the elements of a window: zeros beyond its K extent, +0 rows beyond its other extent, 2:4 groups by their two positions
  ∀ (w : Window) (x k : Nat), (w.kext ≤ k → w.elem x k = .zero) ∧ (k < w.kext → w.xext ≤ x → w.elem x k = .num 0) ∧
    (k < w.kext → x < w.xext → let size := if w.fmt < 2 then 2 else if w.fmt = 3 then 8 else 4
      (w.sp = false → w.elem x k = .num (w.num ((x * w.kext + k) * size) size)) ∧
      (w.sp = true →
        let pos := w.num (w.moff + 2 * (x * (w.kext / 16) + k / 16)) 2 / 2 ^ (4 * (k / 4 % 4))
        let kept := fun j => Elem.num (w.num ((x * (w.kext / 2) + 2 * (k / 4) + j) * size) size)
        w.elem x k = if pos / 4 % 4 ≤ pos % 4 then .bad else if k % 4 = pos % 4 then kept 0
          else if k % 4 = pos / 4 % 4 then kept 1 else .zero))

/-! ### Remote operations and tokens (R225 to R231, R359, R371) -/

/-- R225 to R228: remote operations. With a legal block whose target is mapped, an `rst`, `rld` or `ratom` becomes one packet in the
queue of its route: a store gives its token, a load is owed to the lanes under a tag, a `ratom` gives its token, is owed what
the location held, or gives nothing. Without a translation, room in the queue, a token or steer slots for its lanes the path
waits. -/
def Claims.RemoteOperations : Prop :=
  ∀ (s : State) (m : Mods) (tok dep spr : Bool) (d a : Reg) (e h : Nat), Elected s m e →
    let k := s.curPkg
    let b := s.block e a
    let dept := bw (b 4) 3
    (dep = false → dept = 0) → tokBad dept = false →
    let ready := fun (i : Instr) (kd : AccKind) (n : Nat) (va : W64) (slots : Bool) (p : Prop) => s.target kd va n = .home h →
      (s.walkWait .g [va] = true → After i s (fun t => WaitsForWalks i s t [va])) ∧
      (s.walkWait .g [va] = false → (s.routeRoom (s.route spr va h) h 1 = false ∨ slots = false) → After i s (Waits i s)) ∧
      (s.walkWait .g [va] = false → s.routeRoom (s.route spr va h) h 1 = true → slots = true → p)
    -- a token for the operation, given to the lanes, or a wait for one
    let withToken := fun (i : Instr) (va : W64) (x : Packet) (more : State → Prop) =>
      (∀ tk p, (s.pkg k).newTok .pend [] s.curCtx = some (tk, p) → After i s (fun t => t.mem = s.mem ∧ more t ∧
        Sent s t k h (s.route spr va h) { x with tok := true, ownt := tk } ∧ ((t.pkg k).tok (tokIdx tk)).st = .pend ∧
        LanesBecome s t (fun l x => goOn s l (sends s m none (regs1 d) (fun _ => to32 d tk) (fun _ => 0) l x)))) ∧
      ((s.pkg k).newTok .pend [] s.curCtx = none → After i s (Waits i s))
    -- a reply under a tag, owed to the lanes
    let withReply := fun (i : Instr) (va : W64) (x : Packet) (wide : Bool) => After i s (fun t => t.mem = s.mem ∧
      Sent s t k h (s.route spr va h) { x with
        ret := true, tag := BitVec.ofNat 32 (s.nextId % 2 ^ 32), lmask := maskOf (s.activeLanes m) } ∧
      (∃ r, flook (t.pkg k).fab.tags (s.nextId % 2 ^ 32) = some r ∧ r.wid = s.cur.wid ∧ r.lanes = maskOf (s.activeLanes m) ∧ r.d = d ∧
        r.tag = s.nextId) ∧
      LanesBecome s t (fun l x => goOn s l (owes m true s.nextId (if wide then regs2 d else regs1 d) x)))
    (let va := bd (b 4) 0
     let i := Instr.rst m dep spr d a
     ready i .store 4 va true (withToken i va (remotePacket s .store h dep va dept ((bw (b 4) 2).setWidth 128))
       (fun t => (t.troupe s.curTid).lock = true))) ∧
    (let va := bd (b 4) 0
     let w := bf (b 4) 2 0 0 == 1
     let i := Instr.rld m dep spr d a
     bf (b 4) 2 31 1 = 0 → (w = true → d.toNat < 120 → d.toNat % 2 = 0) →
       ready i .load (if w then 8 else 4) va (s.steerRoom (s.activeLanes m))
         (withReply i va { remotePacket s .load h dep va dept 0 with w := w } w)) ∧
    (let va := bd (b 8) 0
     let w := bf (b 8) 2 8 8 == 1
     let ret := bf (b 8) 2 9 9 == 1
     let n := bf (b 8) 2 4 0
     let i := Instr.ratom m tok dep spr d a
     let x := { remotePacket s .atomic h dep va dept (bd (b 8) 6 ++ bd (b 8) 4) with w := w, hnd := n }
     bf (b 8) 2 31 10 = 0 → bf (b 8) 2 7 5 = 0 → (n / 16 = 1 → (s.pkg k).feat 9 = true) → s.curTroupe.hdr.det = false → bw (b 8) 3 = dept →
       (tok = true → ret = false) → (ret = true → w = true → d.toNat < 120 → d.toNat % 2 = 0) →
       ready i .atom (if w then 8 else 4) va (!ret || s.steerRoom (s.activeLanes m))
         (if ret then withReply i va x w else if tok then withToken i va x (fun _ => True)
          else After i s (fun t => t.mem = s.mem ∧ Sent s t k h (s.route spr va h) x ∧
            LanesBecome s t (fun l x => goOn s l (sends s m none (regs1 d) (fun _ => []) (fun _ => 0) l x)))))

/-- R230, R231, R371: tokens. A token has landed when its entry has, or is of a later generation; the null token always has. A test
gives 1 then, a wait goes on then and acquires; a join of tokens of which one has landed is the other, of two that have is
the null token, and otherwise a new entry that waits for both. A value that is no token takes ILLEGAL with TOKEN. -/
def Claims.Tokens : Prop :=
  ∀ (s : State) (m : Mods) (d a : Reg) (e : Nat), Elected s m e →
    let k := s.curPkg
    let x := s.src s.cur.wid e d
    let y := s.src s.cur.wid e a
    let legal := fun (t : W32) => t = 0 ∨ 2 ^ 31 ≤ t.toNat
    let landed := fun (t : W32) =>
      let r := fget Tok.init (s.pkg k).fab.toks (t.toNat % 2 ^ 12)
      t = 0 ∨ r.gen ≠ BitVec.ofNat 19 (t.toNat / 2 ^ 12) ∨ r.st = .landed ∨ r.st = .free
    let gives := fun (i : Instr) (v : W32) => Computes i s m none (regs1 d) (fun _ => to32 d v)
    (legal y → (landed y → gives (.tokTest m d a) 1) ∧ (¬ landed y → gives (.tokTest m d a) 0)) ∧
    (legal y → landed y → After (.tokWait m a) s (fun t => CachesOnly s t ∧ t = { s with waves := t.waves, pkgs := t.pkgs } ∧ GoesOn s t ∧
      (t.core k s.curTroupe.core).lines = [])) ∧
    (legal y → ¬ landed y → After (.tokWait m a) s (Waits (.tokWait m a) s)) ∧
    (legal x → legal y → landed x → landed y → gives (.tokJoin m d a) 0) ∧
    (legal x → legal y → landed x → ¬ landed y → gives (.tokJoin m d a) y) ∧
    (legal x → legal y → ¬ landed x → landed y → gives (.tokJoin m d a) x) ∧
    (legal x → legal y → ¬ landed x → ¬ landed y →
      ((s.pkg k).newTok .join [tokIdx x, tokIdx y] s.curCtx = none → After (.tokJoin m d a) s (Waits (.tokJoin m d a) s)) ∧
      ∀ tk p, (s.pkg k).newTok .join [tokIdx x, tokIdx y] s.curCtx = some (tk, p) → After (.tokJoin m d a) s (fun t => t.mem = s.mem ∧
        ((t.pkg k).tok (tokIdx tk)).st = .join ∧ ((t.pkg k).tok (tokIdx tk)).ins = [tokIdx x, tokIdx y] ∧
        LanesBecome s t (fun l z => goOn s l (sends s m none (regs1 d) (fun _ => to32 d tk) (fun _ => 0) l z)))) ∧
    (Alone s → ¬ legal y → After (.tokTest m d a) s (fun t => StopsActive s t m 0x10 0x12 0) ∧
      After (.tokWait m a) s (fun t => StopsActive s t m 0x10 0x12 0) ∧ After (.tokJoin m d a) s (fun t => StopsActive s t m 0x10 0x12 0))

/-! ### Packets (R366 to R373) -/

/-- R366, R367, R372: stores and loads at their home. The next packet is translated with this package's tables; a store is in memory
at once, a load's value goes back to its issuer; a store that faults is discarded and counts as landed, a load that faults is
answered with its cause. -/
def Claims.StoresAndLoadsAtHome : Prop :=
  ∀ (s : State) (k : Nat) (here : Bool) (x : Packet), Ripe s k here x →
    (x.kind = .store → (∀ key, HomeAt s k x .store x.addr key → NoneAbout s key 4 →
        After (.storePacket k) s (fun t => Applied s t k here x ∧ MemoryTakes s t key 4 x.data.toNat)) ∧
      (∀ c, HomeFault s k x .store x.addr c → After (.storePacket k) s (fun t => Applied s t k here x ∧ Discarded s t x 32 x.addr))) ∧
    (x.kind = .load →
      (∀ key, HomeAt s k x .load x.addr key → s.poisoned key (if x.w then 8 else 4) = false →
        After (.loadPacket k) s (fun t => Applied s t k here x ∧
          RepliesWith s t k x x.lmask (BitVec.ofNat 128 (numberAt s key (if x.w then 8 else 4))) [])) ∧
      (∀ c, HomeFault s k x .load x.addr c → x.lmask ≠ 0 → x.src ≠ k → After (.loadPacket k) s (fun t => Applied s t k here x ∧ t.mem = s.mem ∧
        ((t.pkg k).peer x.src).vq = ((s.pkg k).peer x.src).vq ++ [{ faultTo k x ((lanesOf x.lmask).map (fun l => (l, x.addr, c))) with via := x.src }]))) ∧
    (x.kind = .vStore → ∀ e, x.ents = [e] →
      (∀ key, HomeAt s k x .store e.addr key → NoneAbout s key (2 ^ x.vw) →
        After (.vectorStorePart k) s (fun t => Applied s t k here x ∧ MemoryTakes s t key (2 ^ x.vw) e.d.toNat)) ∧
      (∀ c, HomeFault s k x .store e.addr c → After (.vectorStorePart k) s (fun t => Applied s t k here x ∧ Discarded s t x e.lane e.addr))) ∧
    (x.kind = .vLoad → x.ents ≠ [] → x.src ≠ k → ∀ key : VEntry → Nat,
      (∀ e ∈ x.ents, HomeAt s k x .load e.addr (key e) ∧ s.poisoned (key e) (2 ^ x.vw) = false) →
      After (.vectorLoadPart k) s (fun t => Applied s t k here x ∧ t.mem = s.mem ∧
        RepliesWith s t k x (maskOf (x.ents.map (fun e => e.lane))) 0
          (x.ents.map (fun e => ⟨e.lane, 0, BitVec.ofNat 128 (numberAt s (key e) (2 ^ x.vw)), 0⟩)))) ∧
    (x.kind = .copySeg → isChunk x = false → x.bytes ≠ [] → x.addr.toNat % 2 ^ 16 + x.bytes.length ≤ 2 ^ 16 →
      (∀ key, HomeAt s k x .store x.addr key → NoneAbout s key x.bytes.length →
        After (.copySegmentPacket k) s (fun t => Applied s t k here x ∧ memGets t.mem key x.bytes.length = x.bytes ∧
          ∀ a, a < key ∨ key + x.bytes.length ≤ a → memGet t.mem a = memGet s.mem a)) ∧
      (∀ c, HomeFault s k x .store x.addr c → After (.copySegmentPacket k) s (fun t => Applied s t k here x ∧ Discarded s t x 32 x.addr)))

/-- R228, R369, R370: atomic packets. The handler reads the location, leaves the new value and replies with what was there; handlers 0 to
15 have their effects of R228; a loaded handler runs its image, of which the capped add of R370 is the example; an empty one
leaves memory as it is. An atomic that faults at its home is discarded and reported later (R272, R366); one that returns a value
ends what is owed with a reply of no cause (log 114). -/
def Claims.AtomicHandlers : Prop :=
  ∀ (s : State) (k : Nat) (here : Bool) (x : Packet), Ripe s k here x →
    let n := if x.w then 8 else 4
    let cut := fun (v : Nat) => v % 2 ^ (8 * n)
    let leaves := fun (hnd m a b : Nat) =>
      if hnd < 16 then some (handlerLeaves hnd x.w m a b)
      else if flook (s.pkg k).fab.hnds hnd = none then none
      else some (min (cut (m + a)) b)
    let known := x.hnd < 16 ∨ flook (s.pkg k).fab.hnds x.hnd = none ∨
      flook (s.pkg k).fab.hnds x.hnd = some ([0x1304, 0x844C, 0x8C4C, 0xA880, 0xB000] ++ List.replicate 11 0)
    let works := fun (t : State) (key a b : Nat) => match leaves x.hnd (numberAt s key n) (cut a) (cut b) with
      | some v => MemoryTakes s t key n v
      | none => t.mem = s.mem
    (x.kind = .atomic → known → ∀ key, HomeAt s k x .atom x.addr key → NoneAbout s key n → s.poisoned key 8 = false →
      After (.atomicPacket k) s (fun t => Applied s t k here x ∧ works t key (x.data.toNat % 2 ^ 64) (x.data.toNat / 2 ^ 64) ∧
        (x.ret = true → RepliesWith s t k x x.lmask (BitVec.ofNat 128 (numberAt s key n)) []))) ∧
    (x.kind = .vAtomic → known → ∀ e, x.ents = [e] → ∀ key, HomeAt s k x (if x.ret then .atom else .red) e.addr key → NoneAbout s key n → s.poisoned key n = false →
      After (.vectorAtomicPart k) s (fun t => Applied s t k here x ∧ works t key (e.d.toNat % 2 ^ 64) e.e.toNat ∧
        (x.ret = true → x.src ≠ k → RepliesWith s t k x (maskOf [e.lane]) 0 [⟨e.lane, 0, BitVec.ofNat 128 (numberAt s key n), 0⟩]))) ∧
    (∀ c, (x.ret = false ∨ x.src ≠ k) →
      let told := fun (t : State) (es : List (Nat × W64 × Cause)) => x.ret = true →
        ((t.pkg k).peer x.src).vq = ((s.pkg k).peer x.src).vq ++ [{ faultTo k x es with via := x.src }]
      (x.kind = .atomic → x.lmask ≠ 0 → HomeFault s k x .atom x.addr c → After (.atomicPacket k) s (fun t => Applied s t k here x ∧
        Discarded s t x 32 x.addr ∧ told t ((lanesOf x.lmask).map (fun l => (l, x.addr, .none))))) ∧
      (x.kind = .vAtomic → ∀ e, x.ents = [e] → HomeFault s k x (if x.ret then .atom else .red) e.addr c →
        After (.vectorAtomicPart k) s (fun t => Applied s t k here x ∧ Discarded s t x e.lane e.addr ∧ told t [(e.lane, e.addr, .none)])))

/-- R306, R321, R366, R367: replies at the issuer. A reply goes to the registers its tag names, or to the steer slot the tag was
rewritten to, and frees the tag when every lane has its value; a fault reply stops the wave, its lane recording PAGE or PROT
with REMOTE where it has got to, and owed nothing more; one of no cause tells of a discarded atomic and stops nothing (log 114). -/
def Claims.Replies : Prop :=
  ∀ (s : State) (k : Nat) (here : Bool) (x : Packet) (r : TagRec), Ripe s k here x → flook (s.pkg k).fab.tags x.tag.toNat = some r →
    let v := fun (l : Nat) => match x.ents.find? (fun e => e.lane == l) with | some e => e.d | none => x.data
    (x.kind = .reply → After (.replyPacket k) s (fun t => Applied s t k here x ∧
      (r.lanes &&& ~~~ x.lmask = 0 → flook (t.pkg k).fab.tags x.tag.toNat = none) ∧
      ∀ l, (x.lmask &&& r.lanes).getLsbD l = true →
        (r.sext = false → LaneGets s t r.wid l r.tag (v l)) ∧
        (r.sext = true → (r.bytes = 1 ∨ r.bytes = 2) → ∀ d, (s.lane r.wid l).owedTo r.tag = [d] → (s.lane r.wid l).steer = [] →
          owedUnder (t.lane r.wid l) r.tag = [(d, BitVec.ofInt 32 (signedOf (8 * r.bytes) ((v l).toNat % 2 ^ (8 * r.bytes))), true)]) ∧
        ∀ y, (s.lane r.wid l).steer = [y] → y.tag = r.tag → y.pend = true → r.sext = false →
          (t.lane r.wid l).pend = (s.lane r.wid l).pend ∧
          (t.lane r.wid l).steer = [{ y with val := v l, valid := true, pend := false }])) ∧
    (x.kind = .reply → here = false → exec (.steerReply k) s = if s.steered k x then exec (.replyPacket k) s else .next s) ∧
    (x.kind = .faultReply → here = false → ∀ e, x.ents = [e] → (x.lmask &&& r.lanes).getLsbD e.lane = true →
      let w := s.wave r.wid
      let y := s.lane r.wid e.lane
      w.stopped = false → w.ended = false → w.saving = false → w.resting = false → w.sys = false → (s.troupe w.tid).st = .resident →
      y.st ≠ .exit →
      (e.e = 0 → After (.faultReplyPacket k) s (fun t => Applied s t k here x ∧ (t.wave r.wid).stopped = false ∧
        let z := t.lane r.wid e.lane
        z.st = y.st ∧ z.pc = y.pc ∧ z.g = y.g ∧ ∀ i ∈ z.pend, i.tag ≠ r.tag)) ∧
      (e.e = 1 ∨ e.e = 2 → After (.faultReplyPacket k) s (fun t => Applied s t k here x ∧ (t.wave r.wid).stopped = true ∧
        (∀ l, (t.wave r.wid).trapLanes.getLsbD l = true ↔ l = e.lane) ∧
        let z := t.lane r.wid e.lane
        z.st = .trap ∧ z.trapPc = y.pc ∧ z.trapVa = e.addr ∧ z.g = y.g ∧ (∀ i ∈ z.pend, i.tag ≠ r.tag) ∧
        z.trapCause = causeWord (if e.e = 2 then 2 else 1) 1 0))) ∧
    (x.kind = .faultReply → here = false → (s.wave r.wid).stopped = true → exec (.faultReplyPacket k) s = .next s)

/-- R361, R373: the hold queue. A packet on a token is held, those behind it of its direct stream wait behind it, and one whose release
came first is applied at once, lowers the count still due and gives its credit back. A source has eight entries and no more. -/
def Claims.HeldPackets : Prop :=
  ∀ (s : State) (k q : Nat) (x : Packet) (rest : List (Nat × Packet)), (s.pkg k).fab.arrivals = (q, x) :: rest → x.kind = .store →
    let fab := (s.pkg k).fab
    let kept := fun (hs : List Hold) => After (.storePacket k) s (fun t => t = { s with pkgs := t.pkgs } ∧
      t.pkg k = { s.pkg k with fab := { fab with arrivals := rest, holds := hs } })
    (∀ h y, fab.holds = [h] → h.pkt = some y → h.src = x.src →
      (y.via = k ∧ x.via = k) ∨ (x.copy ≠ 0 ∧ y.copy = x.copy) → kept [{ h with behind := h.behind ++ [x] }]) ∧
    ((∀ h ∈ fab.holds, h.blocks k x = false) → x.dep = true →
      (∀ h ∈ fab.holds, h.src = x.src → h.token = x.dept → h.pkt ≠ none) →
      ((fab.holds.filter (fun h => h.src == x.src)).length < 8 → kept (fab.holds ++ [⟨x.src, x.dept, some x, 0, (s.pkg k).calRound, []⟩])) ∧
      (8 ≤ (fab.holds.filter (fun h => h.src == x.src)).length → exec (.storePacket k) s = .next s)) ∧
    (∀ h key, fab.holds = [h] → h.src = x.src → h.token = x.dept → h.pkt = none → x.dep = true → HomeAt s k x .store x.addr key → NoneAbout s key 4 →
      After (.storePacket k) s (fun t => MemoryTakes s t key 4 x.data.toNat ∧
        ⟨.holdFree, 0, 0, 1⟩ ∈ ((t.pkg k).peer x.src).notices ∧
        (t.pkg k).fab.holds = if h.due ≤ 1 then [] else [{ h with due := h.due - 1 }]))

/-! ### Notices, holds and the calendar (R350 to R356, R360 to R364, R371 to R375) -/

/-- R361, R364, R371 to R373, R375: notices. The first of those that have arrived acts when it is of the event's kind, and waits
otherwise: a landed notice lands its token, with a release for each destination that waits on it; a release frees what its
token holds, in order, and keeps what is still due; counts and free entries give credit back; an expiry stops the contexts whose
operations have depended on the token there. -/
def Claims.NoticesAct : Prop :=
  ∀ (s : State) (k q : Nat) (n : Notice) (rest : List (Nat × Notice)), (s.pkg k).fab.inNotices = (q, n) :: rest →
    let fab := (s.pkg k).fab
    let y := (s.pkg k).tok (tokIdx n.token)
    let on := fun (kd : NKind) (i : Instr) (p : State → Prop) => (n.kind = kd → After i s p) ∧ (n.kind ≠ kd → exec i s = .next s)
    on .landed (.landedNotice k) (fun t => t = { s with pkgs := t.pkgs } ∧ (t.pkg k).fab.inNotices = rest ∧
      (y.st ≠ .join → (t.pkg k).tokLanded n.token = true) ∧
      (n.token ≠ 0 → y.st = .pend → y.gen = tokGen n.token → ∀ d ∈ y.deps,
        ⟨.release, 0, tokVal y.gen (tokIdx n.token), BitVec.ofNat 64 d.2⟩ ∈ ((t.pkg k).peer d.1).notices)) ∧
    on .applied (.appliedCountNotice k) (fun t => PeerBecomes s t k q rest (fun r =>
      { r with appliedD := n.arg.toNat, flightD := r.flightD.drop (n.arg.toNat - r.appliedD) })) ∧
    on .forwarded (.forwardedCountNotice k) (fun t => PeerBecomes s t k q rest (fun r =>
      { r with fwdS := n.arg.toNat, flightS := r.flightS.drop (n.arg.toNat - r.fwdS) })) ∧
    on .relayed (.relayedAppliedCountNotice k) (fun t => t = { s with pkgs := t.pkgs } ∧ (t.pkg k).fab.inNotices = rest ∧
      ∀ v, fget 0 ((t.pkg k).peer q).doneVia v = if v = n.via then n.arg.toNat else fget 0 ((s.pkg k).peer q).doneVia v) ∧
    on .holdFree (.holdFreeNotice k) (fun t => PeerBecomes s t k q rest (fun r =>
      { r with holdUsed := r.holdUsed - n.arg.toNat })) ∧
    on .release (.releaseNotice k) (fun t => t = { s with pkgs := t.pkgs } ∧ (t.pkg k).fab.inNotices = rest ∧
      ((∀ h ∈ fab.holds, h.src = q → h.token = n.token → h.pkt = none) → (t.pkg k).fab.arrivals = fab.arrivals ∧
        (t.pkg k).fab.holds = fab.holds ++ if n.arg = 0 then [] else [⟨q, n.token, none, n.arg.toNat, (s.pkg k).calRound, []⟩]) ∧
      ∀ h x, fab.holds = [h] → h.src = q → h.token = n.token → h.pkt = some x →
        (t.pkg k).fab.arrivals = (q, { x with dep := false }) :: (h.behind.map (fun b => (q, b)) ++ fab.arrivals) ∧
        ((t.pkg k).peer q).notices = ((s.pkg k).peer q).notices ++ [⟨.holdFree, 0, 0, 1⟩] ∧
        (t.pkg k).fab.holds = if n.arg.toNat ≤ 1 then [] else [⟨q, n.token, none, n.arg.toNat - 1, (s.pkg k).calRound, []⟩]) ∧
    on .expiry (.expiryNotice k) (fun t => (t.pkg k).fab.inNotices = rest ∧
      (∀ c, fab.depCtx = [(n.token, q, c)] → ContextStops s t k c ∧ StopRecorded s t k c 0x21 0) ∧
      ((∀ e ∈ fab.depCtx, e.1 ≠ n.token ∨ e.2.1 ≠ q) → t.mem = s.mem ∧ t.waves = s.waves ∧ t.troupes = s.troupes ∧
        (t.pkg k).ctxs = (s.pkg k).ctxs))

/-- R375: a hold entry four rounds old expires: its packet is discarded, what waited behind it comes next, and its source is told. -/
def Claims.HoldsExpire : Prop :=
  ∀ (s : State) (k n : Nat) (h : Hold), (s.pkg k).fab.holds[n]? = some h →
    ((s.pkg k).calRound < h.round + 4 → exec (.holdExpiry k n) s = .next s) ∧
    (h.round + 4 ≤ (s.pkg k).calRound → After (.holdExpiry k n) s (fun t => t = { s with pkgs := t.pkgs } ∧
      (t.pkg k).fab.holds = (s.pkg k).fab.holds.eraseIdx n ∧
      (t.pkg k).fab.arrivals = h.behind.map (fun x => (h.src, x)) ++ (s.pkg k).fab.arrivals ∧
      ⟨.expiry, 0, h.token, 0⟩ ∈ ((t.pkg k).peer h.src).notices ∧
      (h.pkt ≠ none → ⟨.holdFree, 0, 0, 1⟩ ∈ ((t.pkg k).peer h.src).notices)))

/-- R351 to R356, R360 to R362: the calendar. In a slot's data window every port with a width at both ends sends the package that it
faces one frame, its direct traffic in order and numbered on; a silent package, or one in CALSYNC, sends nothing. A frame that
arrives well gives its packets in sequence to the arrivals and passes over one accepted before; behind a gap, or where a CRC has
failed, the packet is lost and its sender has it to send again, from the first that has not been reported. -/
def Claims.TheCalendar : Prop :=
  ∀ (s : State) (k : Nat),
    let p := s.pkg k
    let turn := p.fab.caltime.toNat / 1024 % (if p.podsize ≤ 1 then 1 else (p.podsize - 1 + 15) / 16)
    let faced := fun (i : Nat) => (k + 1 + (16 * turn + i) % (p.podsize - 1)) % p.podsize
    let fixed := ∀ e ∈ p.fab.ports, e.2.newBad = e.2.bad
    let steady := p.fab.offset = 0 ∧ fixed
    let good := fun (j i : Nat) => 9 - ((List.range 9).filter (fun b => ((s.pkg j).port i).bad.getLsbD b)).length
    let wide := fun (i : Nat) => 5 ≤ good k i ∧ (flook s.pkgs (faced i) ≠ none → (s.pkg (faced i)).silent = false ∧ 5 ≤ good (faced i) i)
    (steady → (p.silent = true ∨ (p.fab.csync = true ∧ p.fab.freeRun ≠ none)) →
      After (.slotStart k) s (fun t => t.wires = s.wires ∧ t.mem = s.mem ∧ t.waves = s.waves)) ∧
    (steady → p.silent = false → p.fab.csync = false → After (.slotStart k) s (fun t => t.mem = s.mem ∧ t.waves = s.waves ∧ ∃ fs, t.wires = s.wires ++ fs ∧
      (∀ i, i ∈ fs.map (fun f => f.port) ↔ i < 16 ∧ 2 ≤ p.podsize ∧ wide i) ∧ (fs.map (fun f => f.port)).Nodup ∧
      ∀ f ∈ fs, f.src = k ∧ f.stamp = p.fab.caltime ∧ f.dst = faced f.port ∧ f.mstr = p.fab.master)) ∧
    (fixed → After (.slotStart k) s (fun t => let o := p.fab.offset
      (t.pkg k).fab.offset = if o < -2 then o + 2 else if 2 < o then o - 2 else 0)) ∧
    (∀ x q, steady → p.silent = false → p.fab.csync = false → p.podsize = 2 → (∀ i, i < 16 → (wide i ↔ i = 0)) → q = (k + 1) % 2 →
      (p.peer q).relay = [] → p.fab.spray = [] → (p.peer q).notices = [] → p.countNotices q = [] → (p.peer q).vq = [x] → x.again = false → x.dep = false →
      p.mayStart pacePort = true → (p.peer q).flightD.sum + x.flits ≤ 16384 → x.flits ≤ 774 →
      After (.slotStart k) s (fun t => ∃ f, t.wires = s.wires ++ [f] ∧ f.dst = q ∧
        f.packets = [{ x with seq := (p.peer q).txD + 1, dept := 0, again := true }] ∧ ((t.pkg k).peer q).vq = [] ∧
        ((t.pkg k).peer q).txD = (p.peer q).txD + 1)) ∧
    (∀ n f x, s.wires[n]? = some f → f.packets = [x] → x.src = f.src → x.dst = k → f.src ≠ k → f.cont = false →
      let lost := fun (t : State) => (t.pkg k).fab.arrivals = p.fab.arrivals ∧ ((t.pkg k).peer f.src).rxD = (p.peer f.src).rxD ∧
        ((t.pkg f.src).peer k).vq = ((s.pkg f.src).peer k).unackD ++ ((s.pkg f.src).peer k).vq ∧ ((t.pkg f.src).peer k).unackD = []
      (f.dst ≠ k → ∀ bad, exec (.frameReceive k n bad) s = .next s) ∧
      (f.dst = k → p.silent = false → 5 ≤ good k f.port → After (.frameReceive k n 0) s (fun t => t.wires = s.wires.eraseIdx n ∧
        (t.pkg k).fab.inNotices = p.fab.inNotices ++ f.notices.map (fun y => (f.src, y)) ∧
        (p.fab.masters = [f.src] → (t.pkg k).fab.offset = (p.fab.caltime.toNat : Int) - (f.stamp.toNat + (s.cycle - f.at_) / 2 : Nat)) ∧
        (x.seq = (p.peer f.src).rxD + 1 → (t.pkg k).fab.arrivals = p.fab.arrivals ++ [(f.src, { x with again := false })] ∧
          ((t.pkg k).peer f.src).rxD = x.seq) ∧
        (x.seq ≠ (p.peer f.src).rxD + 1 → 2 ^ 15 ≤ ((p.peer f.src).rxD - x.seq).toNat → lost t) ∧
        (x.seq ≠ (p.peer f.src).rxD + 1 → ((p.peer f.src).rxD - x.seq).toNat < 2 ^ 15 → (t.pkg k).fab.arrivals = p.fab.arrivals ∧
          ((t.pkg k).peer f.src).rxD = (p.peer f.src).rxD ∧ ((t.pkg f.src).peer k).vq = ((s.pkg f.src).peer k).vq)) ∧
        After (.frameReceive k n 2) s (fun t => t.wires = s.wires.eraseIdx n ∧ lost t ∧
          (t.pkg k).fab.inNotices = p.fab.inNotices ++ f.notices.map (fun y => (f.src, y)))) ∧
      (f.dst = k → ∀ bad, (bad % 2 = 1 ∨ p.silent = true ∨ good k f.port < 5) → After (.frameReceive k n bad) s (fun t => t.wires = s.wires.eraseIdx n ∧ lost t ∧
        (t.pkg k).fab.inNotices = p.fab.inNotices ∧ ((t.pkg f.src).peer k).notices = f.notices ++ ((s.pkg f.src).peer k).notices)))

/-- R351, R355: what the calendar suffers. A failed lane narrows its port from the next slot, a lane locked for 64 slots rejoins; a
package follows the first listed master that it has heard within 4 rounds, or itself when it has heard none before it for so
long, runs free when it hears none, and after 16 rounds so is in CALSYNC. -/
def Claims.CalendarFaults : Prop :=
  ∀ (s : State) (k n l : Nat),
    let p := s.pkg k
    let settled := p.fab.since + 4 ≤ p.calRound
    let heard := fun (q : Nat) => (p.peer q).lastHeard ≠ 0 ∧ p.calRound + 1 ≤ (p.peer q).lastHeard + 4
    let leads := fun (m : Nat) => (m = k ∧ (settled ∨ p.fab.masters.head? = some k)) ∨ (m ≠ k ∧ heard m)
    (n < 16 → l < 9 → After (.laneFailure k n l) s (fun t => FabricOnly s t k ∧
      ((t.pkg k).port n).bad = (p.port n).bad ∧ ∀ b, ((t.pkg k).port n).newBad.getLsbD b = (decide (b = l) || (p.port n).newBad.getLsbD b))) ∧
    (n < 16 → l < 9 → fget 0 (p.port n).clean l + 64 ≤ p.slotNo → After (.laneRejoin k n l) s (fun t => FabricOnly s t k ∧
      ((t.pkg k).port n).bad = (p.port n).bad ∧ ∀ b, ((t.pkg k).port n).newBad.getLsbD b = (!decide (b = l) && (p.port n).newBad.getLsbD b))) ∧
    (n < 16 → l < 9 → p.slotNo < fget 0 (p.port n).clean l + 64 → After (.laneRejoin k n l) s (fun t => t.pkg k = p)) ∧
    (2 ≤ p.podsize →
      (∀ pre m post, p.fab.masters = pre ++ m :: post → (∀ y ∈ pre, ¬ leads y) → leads m →
        After (.masterLoss k) s (fun t => (t.pkg k).fab.master = m ∧ (t.pkg k).fab.freeRun = none ∧ (m ≠ p.fab.master → EventWritten s t k 0x4C 6 m))) ∧
      ((∀ y ∈ p.fab.masters, ¬ leads y) →
        (settled → After (.masterLoss k) s (fun t => (t.pkg k).fab.freeRun = some (p.fab.freeRun.getD p.calRound) ∧ (t.pkg k).fab.master = p.fab.master)) ∧
        (¬ settled → After (.masterLoss k) s (fun t => t.pkg k = p)))) ∧
    (∀ r, p.fab.freeRun = some r → r + 16 ≤ p.calRound → p.fab.csync = false → After (.freeRunExpiry k) s (fun t =>
      (t.pkg k).fab.csync = true ∧ EventWritten s t k 0x45 6 0)) ∧
    ((∀ r, p.fab.freeRun = some r → p.calRound < r + 16) → After (.freeRunExpiry k) s (fun t => t.pkg k = p))

/-! ### Collectives and the reel (R232, R233, R379 to R393) -/

/-- R232, R379, R383: `coll.run` and `coll.wt`. A run of a loaded plan, its ranges committed here, is issued and its handle returned; with
sixteen open it waits, a bad range takes PROT, no plan takes ILLEGAL with PARAM. A wait goes on when the run is over with its
status (OVF 1, NV 2, ABORT 4), or STALE (8) for a run that is no longer known, and acquires. -/
def Claims.CollectiveCommands : Prop :=
  ∀ (s : State) (m : Mods) (d a : Reg) (e : Nat), Elected s m e →
    let k := s.curPkg
    let b := s.block e a 8
    let p := s.pkg k
    let slot := bf b 0 7 0
    let run := { CollRun.init with born := s.nextId, ctx := s.curCtx, base0 := bd b 2, base1 := bd b 4, base2 := bd b 6 }
    let gives := fun (t : State) (v : W32) => LanesBecome s t (fun l x => goOn s l (sends s m none (regs1 d) (fun _ => to32 d v) (fun _ => 0) l x))
    let legal := bf b 0 31 8 = 0 ∧ bw b 1 = 0 ∧ p.coll.loading.contains slot = false
    let h := s.src s.cur.wid e a
    let seq := h.extractLsb' 8 16
    let back := (p.coll.runSeq - seq).toNat
    let handle := h.getLsbD 31 = true ∧ nbits h.toNat 30 24 = 0 ∧ 1 ≤ back ∧ back ≤ 2 ^ 15
    let ends := fun (v : Nat) => After (.collWt m d a) s (fun t => t = { s with waves := t.waves, pkgs := t.pkgs, nextId := s.nextId + 1 } ∧
      CachesOnly s t ∧ (t.core k s.curTroupe.core).lines = [] ∧ gives t (BitVec.ofNat 32 v))
    (∀ pl, legal → flook p.coll.plans slot = some pl → (pl.stg = true → bd b 6 ≠ 0) →
      let vas := ((collRanges pl run).map (fun x => stepsOf (2 ^ 16) x.1 x.2)).flatten
      (∀ va, s.collFault k s.curTroupe.core s.curCtx s.curWave.sys pl run = some va → Alone s →
        After (.collRun m d a) s (fun t => StopsElected s t m 0x02 0 va)) ∧
      (s.collFault k s.curTroupe.core s.curCtx s.curWave.sys pl run = none →
        (s.walkWait .g vas = true → After (.collRun m d a) s (fun t => WaitsForWalks (.collRun m d a) s t vas)) ∧
        (s.walkWait .g vas = false → (p.runRoom slot = false ∨ s.relWait .pkg = true) → After (.collRun m d a) s (Waits (.collRun m d a) s)) ∧
        (p.runRoom slot = true → s.walkWait .g vas = false → s.relWait .pkg = false → After (.collRun m d a) s (fun t => t.mem = s.mem ∧
          gives t (BitVec.ofNat 32 (2 ^ 31 + p.coll.runSeq.toNat * 2 ^ 8 + slot)) ∧ (t.pkg k).coll.runSeq = p.coll.runSeq + 1 ∧
          ∃ r ∈ (t.pkg k).coll.runs, r.seq = p.coll.runSeq ∧ r.plan = slot ∧ r.ctx = s.curCtx ∧ r.done = false ∧ r.born = s.nextId ∧
            r.base0 = bd b 2 ∧ r.base1 = bd b 4 ∧ r.base2 = bd b 6)))) ∧
    (bf b 0 31 8 = 0 → bw b 1 = 0 → p.coll.loading.contains slot = true → After (.collRun m d a) s (Waits (.collRun m d a) s)) ∧
    (Alone s → legal → flook p.coll.plans slot = none → After (.collRun m d a) s (fun t => StopsActive s t m 0x10 0x11 0)) ∧
    (Alone s → ¬ handle → After (.collWt m d a) s (fun t => StopsActive s t m 0x10 0x11 0)) ∧
    (handle → (∀ r ∈ p.coll.runs, r.seq ≠ seq) → ends 8) ∧
    (handle → ∀ r, p.coll.runs = [r] → r.seq = seq →
      (r.done = false → After (.collWt m d a) s (Waits (.collWt m d a) s)) ∧
      (r.done = true → back ≤ 256 → ends (r.ovf.toNat + 2 * r.nv.toNat + 4 * r.fail.toNat)) ∧ (r.done = true → 256 < back → ends 8))

/-- R381, R384, R386 to R388: the entries of a run. An entry starts when its counter has come, its chunk is here and no lower entry
writes the same bytes first; its segments go to the reducers or to the peer; a reducer, a unit of 256 bytes at a time, folds each
value into its place with one rounding, or stores it, and a fenced one leaves its work to the other of its die; an entry that is done signals its counters, and a run whose entries are all done is over. -/
def Claims.CollectiveWork : Prop :=
  ∀ (s : State) (k n i : Nat) (r : CollRun) (e : PEntry), (s.pkg k).run? n = some r → ((s.pkg k).plan r.plan).ents[i]? = some e →
    let p := (s.pkg k).plan r.plan
    let vals := s.segVals k p r i e 0
    let bits := vals.map (fun v => v.bits)
    let begins := p.mayStart r i e = true ∧ (r.ent i).next = 0 ∧ (r.ent i).sent = 0 ∧ s.segPoisoned k p r e 0 = false ∧ 1 ≤ p.nseg e
    (p.mayStart r i e = false → (r.ent i).st ≠ .started → exec (.collEntryStart k n i) s = .next s) ∧
    (begins → e.writes = true → (s.pkg k).foldRoom (s.foldSegs k p r i e 0 bits) = true →
      After (.collEntryStart k n i) s (fun t => t.mem = s.mem ∧ t.waves = s.waves ∧
        (t.pkg k).coll.folds = (s.pkg k).coll.folds ++ s.foldSegs k p r i e 0 bits ∧
        ∃ q, (t.pkg k).run? n = some q ∧ (q.ent i).st = .started ∧ (q.ent i).next = 1)) ∧
    (begins → e.op = 1 → e.writes = false → (s.pkg k).vqRoom e.peer 66 = true → After (.collEntryStart k n i) s (fun t => t.mem = s.mem ∧
      ((t.pkg k).peer e.peer).vq = ((s.pkg k).peer e.peer).vq ++
        [{ Packet.init with src := k, dst := e.peer, via := e.peer, kind := .copySeg, last := decide (p.nseg e = 1), ctx := r.ctx,
                            addr := chunkTag r.rseq r.plan e.pidx 0, bytes := (bits.map (leBytes (accBytes p.afmt))).flatten }] ∧
      ∃ q, (t.pkg k).run? n = some q ∧ (q.ent i).st = .started ∧ (q.ent i).sent = 1)) ∧
    (∀ j f a, (s.pkg k).coll.folds[j]? = some f → f.run.toNat = n → f.ent = i →
      let one := (s.pkg k).reducer
      let len := fmtBytes (p.fmt e.dbase)
      let unit := max 1 ((256 - a % 256) / len)
      f.at_ = [(a, len * f.vals.length)] → f.fold = e.red → (e.dbase = 1 ∨ e.dbase = 2) →
      (((s.pkg k).redDown (one f.stack) = true ∨ ∃ g ∈ (s.pkg k).coll.folds.take j, one g.stack = one f.stack) → exec (.reducerFold k j) s = .next s) ∧
      ((s.pkg k).redDown (one f.stack) = false → (∀ g ∈ (s.pkg k).coll.folds.take j, one g.stack ≠ one f.stack) →
        (f.fold = true → (s.pkg k).mayStart paceReduce = true) →
        (∀ v, f.vals = [v] → NoneAbout s a len → s.poisoned a len = false →
          After (.reducerFold k j) s (fun t => (t.pkg k).coll.folds = (s.pkg k).coll.folds.eraseIdx j ∧
            MemoryTakes s t a len (if e.dbase = 1 then (narrow p.afmt p.ofmt v.toNat).bits
              else if e.red then (fAdd (if p.afmt = 0 then fmt32 else fmt64) .rne (numberAt s a (accBytes p.afmt)) v.toNat).1 else v.toNat))) ∧
        (unit < f.vals.length → NoneAbout s a (unit * len) → s.poisoned a (unit * len) = false →
          After (.reducerFold k j) s (fun t => (∀ b, (b < a ∨ a + unit * len ≤ b) → memGet t.mem b = memGet s.mem b) ∧
            ∃ g, (t.pkg k).coll.folds[j]? = some g ∧ g.vals = f.vals.drop unit ∧ g.off = f.off + unit * accBytes p.afmt ∧
              g.at_ = [(a + unit * len, len * f.vals.length - unit * len)])))) ∧
    (r.done = false → r.active = true → r.ab = false → (s.pkg k).entDone p r i e = false → exec (.collEntryComplete k n i) s = .next s) ∧
    (r.done = false → r.active = true → r.ab = false → (s.pkg k).entDone p r i e = true →
      After (.collEntryComplete k n i) s (fun t => t.mem = s.mem ∧ ∃ q, (t.pkg k).run? n = some q ∧
        ((∀ j, j < p.ents.length → j ≠ i → (r.ent j).st = .done) → q.done = true) ∧
        (∀ j, j < p.ents.length → j ≠ i → (r.ent j).st ≠ .done → q.done = false ∧ (q.ent i).st = .done) ∧
        ∀ c, fget 0 q.ctrs c = fget 0 r.ctrs c + (if e.sig0 = some c then 1 else 0) + (if e.sig1 = some c then 1 else 0)))

/-- R233, R389 to R393: the reel sequencer. `reel.go` of the owner starts it at an entry where it is idle and answers 1 where it is
not; `reel.stat` answers how far an entry has come: not reached, waiting with the first check that fails (1 input slot, 2 downstream
room, 3 stash), running, retired. It waits for the entry's counts, writes its argument words, launches its
record, and, when the launch is over and what it sent has landed, notifies its neighbours and goes on. -/
def Obligations.TheReel : Prop :=
  ∀ (s : State) (m : Mods) (d a : Reg) (e k : Nat),
    let r := (s.pkg k).reel
    let x := r.ent r.cur
    (Elected s m e → k = s.curPkg →
      let b := s.block e a 2
      let gives := fun (t : State) (v : Nat) => LanesBecome s t (fun l y => goOn s l (sends s m none (regs1 d) (fun _ => to32 d (BitVec.ofNat 32 v)) (fun _ => 0) l y))
      (bf b 0 31 21 = 0 → bw b 1 = 0 → 1 ≤ bf b 0 20 10 → bf b 0 20 10 ≤ 1024 →
        (r.owner ≠ s.curCtx → Alone s → After (.reelGo m d a) s (fun t => StopsActive s t m 0x10 0x10 0)) ∧
        (r.owner = s.curCtx → s.relWait .pkg = true → After (.reelGo m d a) s (Waits (.reelGo m d a) s)) ∧
        (r.owner = s.curCtx → s.relWait .pkg = false → After (.reelGo m d a) s (fun t => t.mem = s.mem ∧
          (r.st ≠ .idle → gives t 1 ∧ (t.pkg k).reel = r) ∧
          (r.st = .idle → gives t 0 ∧ (t.pkg k).reel.st = .wait ∧ (t.pkg k).reel.cur = bf b 0 9 0 ∧ (t.pkg k).reel.remain = bf b 0 20 10 ∧
            (t.pkg k).reel.err = false)))) ∧
      let n := bf (s.block e a 1) 0 9 0
      let j := (n + 1024 - r.first) % 1024
      let tells := fun (state cause : Nat) => After (.reelStat m d a) s (fun t => t = { s with waves := t.waves, nextId := s.nextId + 1 } ∧
        gives t (state + 4 * cause))
      (bf (s.block e a 1) 0 31 10 = 0 →
        ((r.count ≤ j ∨ r.retired < j) → tells 0 0) ∧
        (j < r.count → j < r.retired → tells 3 0) ∧
        (j < r.count → j = r.retired → r.st = .wait → r.cause < 8 → tells 1 r.cause) ∧
        (j < r.count → j = r.retired → (r.st = .gather ∨ r.st = .run ∨ r.st = .handoff) → tells 2 0)) ∧
      (Alone s → bf (s.block e a 1) 0 31 10 ≠ 0 → After (.reelStat m d a) s (fun t => StopsActive s t m 0x10 0x11 0))) ∧
    (r.st = .wait → r.entBad x = true → After (.reelWait k) s (fun t => (t.pkg k).reel.st = .idle ∧ (t.pkg k).reel.err = true)) ∧
    (r.st = .wait → r.entBad x = false → ∀ i key, x.inr = some i → s.wordKey k r.owner (r.ring i).fillw false = .inr key →
      numberAt s key 8 ≤ fget 0 r.cons i → After (.reelWait k) s (fun t => t.mem = s.mem ∧ (t.pkg k).reel = { r with cause := 1 })) ∧
    (r.st = .wait → r.entBad x = false → x.inr = none → ∀ i key, x.outr = some i → s.wordKey k r.owner (r.ring i).mirw false = .inr key →
      numberAt s key 8 ≤ fget 0 r.prod i → After (.reelWait k) s (fun t => t.mem = s.mem ∧ (t.pkg k).reel = { r with cause := 2 })) ∧
    (r.st = .wait → r.entBad x = false → x.inr = none → x.outr = none → x.stash = 1 → (∀ i, i < min r.stn 64 → flook r.stash i ≠ none) →
      After (.reelWait k) s (fun t => t.mem = s.mem ∧ (t.pkg k).reel = { r with cause := 3 })) ∧
    (r.st = .wait → r.entBad x = false → s.reelCause k x = .inr 0 → After (.reelWait k) s (fun t => t.mem = s.mem ∧
      (t.pkg k).reel = { r with st := .gather, cause := 0 })) ∧
    (r.st = .gather → r.grun = none → x.gpv = false → x.stash = 0 → ∀ key, s.wordKey k r.owner x.argw true = .inr key →
      (∃ y, s.wordKey k r.owner (x.argw + 24) true = .inr y) → x.argw.toNat % 4096 + 32 ≤ 4096 → NoneAbout s key 32 →
      After (.reelGather k) s (fun t => (t.pkg k).reel.st = .run ∧
        numberAt t key 8 = (match x.inr with | some i => (r.ring i).slot (fget 0 r.cons i) | none => 0).toNat ∧
        numberAt t (key + 8) 8 = (match x.outr with | some i => (r.ring i).slot (fget 0 r.prod i) | none => 0).toNat ∧
        numberAt t (key + 16) 16 = 0 ∧ ∀ c, c < key ∨ key + 32 ≤ c → memGet t.mem c = memGet s.mem c)) ∧
    (r.st = .run → r.launch = none → (s.pkg k).tableUsed < 2048 → ∀ bs y, s.devFetch k r.owner x.lrec 128 = some bs →
      (lrecOf x.lrec bs).args = x.argw → 8 ≤ (lrecOf x.lrec bs).argn → s.judge k r.owner x.lrec bs = .inr y →
      After (.reelRun k) s (fun t => t.mem = s.mem ∧ (t.pkg k).reel.launch = some s.nextId ∧
        ∃ z, flook (t.pkg k).sched.launches s.nextId = some z ∧ z.rcd = y.rcd ∧ z.hdr = y.hdr ∧ z.ctx = y.ctx ∧ z.prio = 0 ∧ z.reel = true)) ∧
    (∀ n, r.st = .run → r.launch = some n → flook (s.pkg k).sched.launches n = none →
      After (.reelRun k) s (fun t => t.mem = s.mem ∧ (t.pkg k).reel.st = .handoff ∧ (t.pkg k).reel.need = (s.pkg k).outstanding)) ∧
    (r.st = .handoff → (s.pkg k).landed r.need = true → x.outr = none → ∀ i, x.inr = some i → (r.ring i).peer ≠ k →
      (s.pkg k).vqRoom (r.ring i).peer 2 = true → After (.reelHandoff k) s (fun t => t.mem = s.mem ∧
        ((t.pkg k).peer (r.ring i).peer).vq = ((s.pkg k).peer (r.ring i).peer).vq ++ [{ Packet.init with
          src := k, dst := (r.ring i).peer, via := (r.ring i).peer, kind := .atomic, addr := (r.ring i).mirw, w := true, hnd := 14, ctx := r.owner }] ∧
        fget 0 (t.pkg k).reel.cons i = fget 0 r.cons i + 1 ∧ (t.pkg k).reel.retired = r.retired + 1 ∧
        (t.pkg k).reel.st = (if r.remain ≤ 1 then .idle else .wait) ∧ (2 ≤ r.remain → (t.pkg k).reel.cur = (r.cur + 1) % 1024)))

/-! ### Event words, partner queues, ends of waits (R34 to R37, R170, R195, R197, R206, R234, R343) -/

/-- R206, R344: the ends of waits. Each event takes up the first wait of its wave for an instruction of its kind, at the issue that it
was made with, and does what the instruction then does; with no such wait it does nothing. -/
def Claims.EndsOfWaits : Prop :=
  ∀ (s : State) (w : Nat),
    EndsWaits (.queuePushDone w) s w (fun i => match i with | .qpush _ _ => true | _ => false) ∧
    EndsWaits (.queuePopDone w) s w (fun i => match i with | .qpop _ _ => true | _ => false) ∧
    EndsWaits (.ownTakeDone w) s w (fun i => match i with | .ownTake _ _ => true | _ => false) ∧
    EndsWaits (.ringWaitDone w) s w (fun i => match i with | .rngWait _ _ _ => true | _ => false) ∧
    EndsWaits (.evtWaitRecheck w) s w (fun i => match i with | .evtWt _ _ => true | _ => false) ∧
    EndsWaits (.obRelDone w) s w (fun i => match i with | .obRel _ _ => true | _ => false) ∧
    EndsWaits (.commandAccept w) s w (fun i => match i with
      | .tcCopy _ _ | .tcOb _ _ | .tcMcast _ _ | .permLoad _ _ _ | .rcopy _ _ _ _ _ _ | .rst _ _ _ _ _ | .rld _ _ _ _ _ | .ratom _ _ _ _ _ _ => true
      | _ => false)

/-- R234: event words. `evt.sig` adds its count to the 8-byte word, once, after what its wave has written; `evt.wt` goes on when the
word has reached its value, and acquires, and waits before; a word that may not be used, or is not homed here, stops the wave with
its cause, which the electing lane records. -/
def Claims.EventWords : Prop :=
  ∀ (s : State) (m : Mods) (a : Reg) (e : Nat), Elected s m e →
    let va := bd (s.block e a 3) 0
    let vw := bd (s.block e a 4) 0
    let want := bd (s.block e a 4) 2
    (∀ key c, s.evtKey .red va = .ok (.at_ key c) → s.walkWait .g [va] = false → s.relWait .pkg = false → s.ownStore e key 8 = false →
      s.ownBehind e key 8 = false → NoneAbout s key 8 → After (.evtSig m a) s (fun t => GoesOn s t ∧
        MemoryTakes s t key 8 (numberAt s key 8 + (bw (s.block e a 3) 2).toNat))) ∧
    (∀ key c, s.evtKey .load vw = .ok (.at_ key c) → s.walkWait .g [vw] = false → s.writes = [] → s.ownBehind e key 8 = false →
      (want.toNat ≤ numberAt s key 8 → After (.evtWt m a) s (fun t => t = { s with waves := t.waves, pkgs := t.pkgs, walks := t.walks } ∧
        CachesOnly s t ∧ (t.core s.curPkg s.curTroupe.core).lines = [] ∧
        ∃ hold, WaveBecomes s t (fun v => { v with relHold := v.relHold ++ hold }) (fun l x => goOn s l x))) ∧
      (numberAt s key 8 < want.toNat → After (.evtWt m a) s (Waits (.evtWt m a) s))) ∧
    (∀ p, s.evtKey .red va = .ok p → s.walkWait .g [va] = true → After (.evtSig m a) s (fun t => WaitsForWalks (.evtSig m a) s t [va])) ∧
    (∀ p, s.evtKey .load vw = .ok p → s.walkWait .g [vw] = true → After (.evtWt m a) s (fun t => WaitsForWalks (.evtWt m a) s t [vw])) ∧
    (Alone s → ∀ (c : Cause) (sub : Byte),
      (s.evtKey .red va = .bad c sub → After (.evtSig m a) s (fun t => StopsElected s t m c.code.toNat sub.toNat va)) ∧
      (s.evtKey .load vw = .bad c sub → After (.evtWt m a) s (fun t => StopsElected s t m c.code.toNat sub.toNat vw)))

/-- R34 to R37, R170: partner queues. A partner's lanes push their words onto the windows of the compute wave's lanes, or wait while
one is full at eight; a compute wave's lanes pop their own, or wait while one is empty; a compute wave has no `qpush` and a
partner no `qpop`; lanes that wait for partners that have ended stop as orphans. -/
def Claims.PartnerQueues : Prop :=
  ∀ (s : State) (m : Mods) (d : Reg),
    let w := s.cur.wid
    let o := partnerOf w
    let lives := fun l => (s.lane o l).st ≠ .exit
    let line := fun (v : Nat) (s : State) (l : Nat) => fget [] (s.wave v).queue l
    ((s.wave w).part = true → (∀ l, On s m l → lives l → (line o s l).length < 8) → After (.qpush m d) s (fun t => t = { s with waves := t.waves } ∧
      (∀ u, u ≠ w → u ≠ o → t.wave u = s.wave u) ∧ t.wave w = { s.wave w with lanes := (t.wave w).lanes } ∧
      t.wave o = { s.wave o with queue := (t.wave o).queue } ∧
      (∀ l, t.lane w l = if s.cur.lanes.getLsbD l then goOn s l (s.lane w l) else s.lane w l) ∧
      ∀ l, (On s m l → lives l → line o t l = line o s l ++ [s.src w l d]) ∧ (¬ (On s m l ∧ lives l) → line o t l = line o s l))) ∧
    ((s.wave w).part = true → (∃ l, On s m l ∧ lives l ∧ 8 ≤ (line o s l).length) → After (.qpush m d) s (Waits (.qpush m d) s)) ∧
    (Alone s → (s.wave w).part = false → (∃ l, On s m l) → After (.qpush m d) s (fun t => StopsActive s t m 0x10 0x0A 0)) ∧
    (Alone s → ((s.wave w).part = true ∨ s.curTroupe.hdr.pentry = 0) → (∃ l, On s m l) → After (.qpop m d) s (fun t => StopsActive s t m 0x10 0x0A 0)) ∧
    ((s.wave w).part = false → s.curTroupe.hdr.pentry ≠ 0 →
      ((∀ l, On s m l → line w s l ≠ []) → After (.qpop m d) s (fun t => t = { s with waves := t.waves, nextId := s.nextId + 1 } ∧
        (∀ u, u ≠ w → t.wave u = s.wave u) ∧ t.wave w = { s.wave w with lanes := (t.wave w).lanes, queue := (t.wave w).queue } ∧
        (∀ l, t.lane w l = if s.cur.lanes.getLsbD l then
          goOn s l (sends s m none (regs1 d) (fun l => to32 d ((line w s l).headD 0)) (fun _ => 0) l (s.lane w l)) else s.lane w l) ∧
        ∀ l, (On s m l → line w t l = (line w s l).tail) ∧ (¬ On s m l → line w t l = line w s l))) ∧
      ((∃ l, On s m l ∧ line w s l = []) → (∃ l, l < 32 ∧ (s.lane w l).st ≠ .exit ∧ (s.lane o l).st ≠ .exit) →
        After (.qpop m d) s (Waits (.qpop m d) s)) ∧
      ((s.wave w).sys = false → (s.wave w).stopped = false → (∃ l, On s m l) → (∀ l, l < 32 → ((s.lane w l).st ≠ .exit ↔ On s m l)) →
        (∀ l, On s m l → line w s l = [] ∧ (s.lane o l).st = .exit) →
        After (.qpop m d) s (fun t => (t.wave w).stopped = true ∧ ∀ l, On s m l → (t.lane w l).st = .trap ∧ (t.lane w l).trapCause = 0x13)))

/-! ### Barriers and allotment (R30 to R33, R166 to R169, R236) -/

/-- R166, R167: the troupe barrier. A wave that arrives counts; a `tbar` parks its lanes until the phase completes; the last arrival flips the
phase, clears the counts and lets every parked lane of the troupe go on. A wait for the phase that has passed goes on at once. -/
def Claims.TroupeBarrier : Prop :=
  ∀ (s : State) (m : Mods) (d a : Reg) (e : Nat), Elected s m e → Rising s.waves →
    let w := s.cur.wid
    let tid := s.curTid
    let u := s.troupe tid
    let n := (s.liveWaves tid).length
    let ready := (s.wave w).part = false ∧ s.cur.path = (s.wave w).live ∧ (s.wave w).ended = false ∧ flook s.waves w ≠ none
    let onward := fun l => if s.cur.moved.getLsbD l then (s.lane w l).pc else s.cur.npc
    let parks := fun (t : State) => ∀ l, s.cur.lanes.getLsbD l = true →
      (t.lane w l).st = .barT ∧ (t.lane w l).pc = s.cur.pc ∧ (t.lane w l).nextPc = onward l
    let completes := fun (t : State) => t.troupe tid = { u with phase := !u.phase, arvcnt := 0, waitmask := 0 } ∧
      ∀ v ∈ s.liveWaves tid, (t.wave v).tarv = false ∧ ∀ l, l < 32 → v ≠ w → (s.lane v l).st = .barT →
        (t.lane v l).st = .run ∧ (t.lane v l).pc = (s.lane v l).nextPc
    let sent := fun (t : State) => ∀ l, s.cur.lanes.getLsbD l = true → m.active (s.lane w l) = true →
      (t.lane w l).pend = (s.lane w l).pend ++ inFlight none s.nextId (to32 d (if u.phase then 1 else 0))
    (ready → (s.wave w).tarv = false → s.relWait .core = false →
      (u.arvcnt + 1 ≠ n →
        After (.tbar m) s (fun t => t.mem = s.mem ∧ (t.wave w).tarv = true ∧ (t.troupe tid).arvcnt = u.arvcnt + 1 ∧ (t.troupe tid).phase = u.phase ∧ parks t) ∧
        After (.tbarArv m d) s (fun t => t.mem = s.mem ∧ (t.wave w).tarv = true ∧ t.troupe tid = { u with arvcnt := u.arvcnt + 1 } ∧ sent t)) ∧
      (u.arvcnt + 1 = n →
        After (.tbar m) s (fun t => t.mem = s.mem ∧ completes t ∧ ∀ l, l < 32 → s.cur.lanes.getLsbD l = true →
          (t.lane w l).st = .run ∧ (t.lane w l).pc = onward l) ∧
        After (.tbarArv m d) s (fun t => t.mem = s.mem ∧ completes t ∧ sent t))) ∧
    (ready → (s.src w e a).getLsbD 0 ≠ u.phase → After (.tbarWt m a) s (fun t => t = { s with waves := t.waves } ∧ GoesOn s t)) ∧
    (ready → (s.src w e a).getLsbD 0 = u.phase → (s.wave w).tarv = true → u.arvcnt ≠ n → After (.tbarWt m a) s (fun t => t.mem = s.mem ∧ parks t ∧
      (t.troupe tid).arvcnt = u.arvcnt)) ∧
    (Alone s →
      ((s.wave w).part = true → ∀ i, i = .tbar m ∨ i = .tbarArv m d ∨ i = .tbarWt m a → After i s (fun t => StopsActive s t m 0x10 0x0A 0)) ∧
      ((s.wave w).part = false → s.cur.path ≠ (s.wave w).live → ∀ i, i = .tbar m ∨ i = .tbarArv m d ∨ i = .tbarWt m a →
        After i s (fun t => StopsActive s t m 0x10 0x09 0)) ∧
      (ready → (s.wave w).tarv = true → After (.tbar m) s (fun t => StopsActive s t m 0x10 0x0F 0) ∧
        After (.tbarArv m d) s (fun t => StopsActive s t m 0x10 0x0F 0)) ∧
      (ready → (s.src w e a).getLsbD 0 = u.phase → (s.wave w).tarv = false → After (.tbarWt m a) s (fun t => StopsActive s t m 0x10 0x0F 0)))

/-- R166, R168, R169: the corps barrier, for a troupe with one live wave. The troupe arrives with its wave; the last troupe flips the
phase, lets every parked lane go on and has each core that takes part forget its lines. -/
def Claims.CorpsBarrier : Prop :=
  ∀ (s : State) (m : Mods) (d a : Reg) (e : Nat), Elected s m e → Rising s.waves → s.liveWaves s.curTid = [s.cur.wid] →
    let w := s.cur.wid
    let c := s.curTroupe.corps
    let r := s.corpsRec c
    let ready := (s.wave w).part = false ∧ s.cur.path = (s.wave w).live
    let onward := fun l => if s.cur.moved.getLsbD l then (s.lane w l).pc else s.cur.npc
    let parks := fun (t : State) => ∀ l, s.cur.lanes.getLsbD l = true →
      (t.lane w l).st = .barC ∧ (t.lane w l).pc = s.cur.pc ∧ (t.lane w l).nextPc = onward l
    let sent := fun (t : State) => ∀ l, s.cur.lanes.getLsbD l = true → m.active (s.lane w l) = true →
      (t.lane w l).pend = (s.lane w l).pend ++ inFlight none s.nextId (to32 d (if r.cphase then 1 else 0))
    let completes := fun (t : State) => t.corpsRec c = { r with cphase := !r.cphase, carr := 0 } ∧
      ∀ tid ∈ r.troupes, (s.liveWaves tid ≠ [] → (t.core (s.troupe tid).pkg (s.troupe tid).core).lines = []) ∧
        ∀ v ∈ s.liveWaves tid, (t.wave v).carv = false ∧ ∀ l, l < 32 → v ≠ w → (s.lane v l).st = .barC →
          (t.lane v l).st = .run ∧ (t.lane v l).pc = (s.lane v l).nextPc
    (ready → (s.wave w).carv = false → s.relWait .clu = false →
      (r.carr + 1 ≠ r.clive →
        After (.cbar m) s (fun t => t.mem = s.mem ∧ (t.wave w).carv = true ∧ t.corpsRec c = { r with carr := r.carr + 1 } ∧ parks t) ∧
        After (.cbarArv m d) s (fun t => t.mem = s.mem ∧ (t.wave w).carv = true ∧ t.corpsRec c = { r with carr := r.carr + 1 } ∧ sent t)) ∧
      (r.carr + 1 = r.clive → s.curTid ∈ r.troupes →
        After (.cbar m) s (fun t => t.mem = s.mem ∧ completes t ∧ ∀ l, l < 32 → s.cur.lanes.getLsbD l = true →
          (t.lane w l).st = .run ∧ (t.lane w l).pc = onward l) ∧
        After (.cbarArv m d) s (fun t => t.mem = s.mem ∧ completes t ∧ sent t))) ∧
    (ready → (s.src w e a).getLsbD 0 ≠ r.cphase → After (.cbarWt m a) s (fun t => t = { s with waves := t.waves, pkgs := t.pkgs } ∧ GoesOn s t ∧
      CachesOnly s t ∧ (t.core s.curPkg s.curTroupe.core).lines = [])) ∧
    (ready → (s.src w e a).getLsbD 0 = r.cphase → (s.wave w).carv = true → (r.clive = 0 ∨ r.carr ≠ r.clive) →
      After (.cbarWt m a) s (fun t => t.mem = s.mem ∧ parks t ∧ t.corpsRec c = r)) ∧
    (Alone s →
      (ready → (s.wave w).carv = true → After (.cbar m) s (fun t => StopsActive s t m 0x10 0x0F 0) ∧
        After (.cbarArv m d) s (fun t => StopsActive s t m 0x10 0x0F 0)) ∧
      (ready → (s.src w e a).getLsbD 0 = r.cphase → (s.wave w).carv = false → After (.cbarWt m a) s (fun t => StopsActive s t m 0x10 0x0F 0)))

/-- R30 to R33, R236: register allotment. `reg.shrink` gives registers up, their values lost; `reg.grow` to more than the wave has
waits in its core's queue and takes the granules as soon as they are free, in order, and held back for no corps (R300); a wave for
which none can come free takes REGDEAD. A queue grants in order: a request that does not fit holds back those behind it. A partner, a count that is no multiple of 8 from 8 to 120 and a path of some lanes are refused. -/
def Claims.RegisterAllotment : Prop :=
  ∀ (s : State) (m : Mods) (n : Reg) (e : Nat), Elected s m e → Rising s.waves → flook s.waves s.cur.wid ≠ none →
    let w := s.cur.wid
    let v := s.wave w
    let k := s.curPkg
    let c := s.curTroupe.core
    let need := n.toNat / 8 - v.allot / 8
    let legal := n.toNat % 8 = 0 ∧ 8 ≤ n.toNat ∧ n.toNat ≤ 120
    let ready := v.part = false ∧ legal ∧ s.cur.path = v.live
    let kept := ((s.pkg k).holder (c / 256)).isSome
    (ready → n.toNat ≤ v.allot → After (.regGrow m n) s (fun t => t = { s with waves := t.waves } ∧ GoesOn s t)) ∧
    (ready → v.allot ≤ n.toNat → After (.regShrink m n) s (fun t => t = { s with waves := t.waves } ∧ GoesOn s t)) ∧
    (ready → v.allot < n.toNat → s.cur.grouped = false → (s.core k c).grantQ = [] → v.waits = [] → need ≤ s.freeGranules k c → kept = false →
      After (.regGrow m n) s (fun t => t.mem = s.mem ∧ (t.core k c).grantQ = [] ∧ (t.wave w).allot = n.toNat ∧ (t.wave w).waits = [] ∧
        ∀ l, s.cur.lanes.getLsbD l = true → (t.lane w l).waiting = false ∧ (t.lane w l).pc = s.cur.npc ∧ (t.lane w l).g = (s.lane w l).g)) ∧
    (ready → v.allot < n.toNat → (s.core k c).grantQ = [] → (s.freeGranules k c < need ∨ (kept = true ∧ (s.core k c).spare < need)) → (∃ x ∈ s.holders k c, x.1 ≠ w) →
      After (.regGrow m n) s (fun t => t.mem = s.mem ∧ (t.core k c).grantQ = [(w, n.toNat)] ∧ PathWaits (.regGrow m n) s t)) ∧
    (ready → v.allot < n.toNat → s.cur.grouped = false → v.sys = false → (s.core k c).grantQ = [] → s.freeGranules k c < need →
      (∀ x ∈ s.holders k c, x.1 = w) → (s.lane w e).st ≠ .exit → After (.regGrow m n) s (fun t => (t.core k c).grantQ = [] ∧ (t.wave w).stopped = true ∧
        ∀ l, l < 32 → (s.lane w l).st ≠ .exit → (t.lane w l).st = .trap ∧ (t.lane w l).trapCause = 0x14)) ∧
    (ready → n.toNat < v.allot → (s.core k c).grantQ = [] → After (.regShrink m n) s (fun t => t.mem = s.mem ∧ (t.wave w).allot = n.toNat ∧
      ∀ l, l < 32 → ∀ r : Nat, (t.lane w l).reg r = if r < n.toNat then (s.lane w l).reg r else 0)) ∧
    (Alone s →
      (v.part = true → After (.regGrow m n) s (fun t => StopsActive s t m 0x10 0x0A 0) ∧ After (.regShrink m n) s (fun t => StopsActive s t m 0x10 0x0A 0)) ∧
      (v.part = false → ¬ legal → After (.regGrow m n) s (fun t => StopsActive s t m 0x10 0x05 0) ∧ After (.regShrink m n) s (fun t => StopsActive s t m 0x10 0x05 0)) ∧
      (v.part = false → legal → s.cur.path ≠ v.live → After (.regGrow m n) s (fun t => StopsActive s t m 0x10 0x09 0) ∧
        After (.regShrink m n) s (fun t => StopsActive s t m 0x10 0x09 0))) ∧
    (∀ j x h r, j = k * 1024 + c → c < 1024 → (s.core k c).grantQ = [(x, h)] → flook s.waves x ≠ none → h / 8 - (s.wave x).allot / 8 ≤ s.freeGranules k c → kept = false →
      (s.wave x).waits = [r] → r.instr = .regGrow m n → r.grouped = false → r.lanes ≠ 0 →
      After (.regGrant j) s (fun t => t.mem = s.mem ∧ (t.core k c).grantQ = [] ∧ (t.wave x).allot = max (s.wave x).allot h ∧
        (t.wave x).waits = [])) ∧
    (∀ j x h rest, j = k * 1024 + c → c < 1024 → (s.core k c).grantQ = (x, h) :: rest → s.freeGranules k c < h / 8 - (s.wave x).allot / 8 →
      (∃ y ∈ s.holders k c, ∀ g ∈ (s.core k c).grantQ, g.1 ≠ y.1) → exec (.regGrant j) s = .next s) ∧
    (∀ j x y h g r q, j = k * 1024 + c → c < 1024 → (s.core k c).grantQ = [(x, h), (y, g)] → x ≠ y → kept = false →
      flook s.waves x ≠ none → flook s.waves y ≠ none → (s.wave x).allot ≤ h → (s.wave y).allot ≤ g → g ≤ 120 → h ≤ 120 → h % 8 = 0 → g % 8 = 0 →
      (∀ z ∈ [x, y], (s.wave z).allot % 8 = 0 ∧ ∃ v, (z, v) ∈ s.holders k c) →
      (s.wave x).waits = [r] → (s.wave y).waits = [q] → (∃ m n, r.instr = .regGrow m n) → (∃ m n, q.instr = .regGrow m n) →
      r.grouped = false → q.grouped = false → r.lanes ≠ 0 → q.lanes ≠ 0 → (∃ z ∈ s.holders k c, z.1 ≠ x ∧ z.1 ≠ y) →
      let a := h / 8 - (s.wave x).allot / 8
      let b := g / 8 - (s.wave y).allot / 8
      a ≤ s.freeGranules k c →
      (a + b ≤ s.freeGranules k c → After (.regGrant j) s (fun t => t.mem = s.mem ∧ (t.core k c).grantQ = [] ∧ (t.wave x).allot = h ∧ (t.wave y).allot = g)) ∧
      (s.freeGranules k c < a + b → After (.regGrant j) s (fun t => t.mem = s.mem ∧ (t.core k c).grantQ = [(y, g)] ∧ (t.wave x).allot = h ∧
        t.wave y = s.wave y)))

/-! ### Control registers (R43 to R46, R235, R314) -/

/-- R43 to R46, R235: the control registers. A read gives every active lane what the register holds; a write of a lane's register sets it
in each active lane, another is written once with the elected lane's value; `csrx` reads before it writes. A number that names
no register, or a write of one that is not written, takes ILLEGAL with CSRNUM; a write of a system register from user mode
takes PRIV; a value that WCTL may not hold takes CSRVAL; WCTL and LFLAGS wait for the flags still to come. -/
def Obligations.ControlRegisters : Prop :=
  ∀ (s : State) (m : Mods) (d : Reg) (e : Nat), Elected s m e →
    let w := s.cur.wid
    let u := s.curTroupe
    let p := s.pkg s.curPkg
    let r := fun (n : Nat) => BitVec.ofNat 12 n
    let v := s.src w e d
    let wide := s.src64 w e d
    let gets := fun (two : Bool) (v : Nat → W64) (l : Nat) (x : Lane) => sends s m none (if two then regs2 d else regs1 d)
      (fun l => if two then to64 d (v l) else to32 d ((v l).setWidth 32)) (fun _ => 0) l x
    let reads := fun (n : Nat) (two : Bool) (v : Nat → W64) => (n ≤ 1 → s.flagsOwed = false) → After (.csrr m (r n) d) s (fun t =>
      t = { s with waves := t.waves, nextId := s.nextId + 1 } ∧ LanesBecome s t (fun l x => goOn s l (gets two v l x)))
    let sets := fun (i : Instr) (f : Lane → W64 → Lane) => After i s (fun t => t = { s with waves := t.waves } ∧
      LanesBecome s t (fun l x => goOn s l (if m.active x then f x ((s.src w l d).setWidth 64) else x)))
    let sets2 := fun (i : Instr) (f : Lane → W64 → Lane) => After i s (fun t => t = { s with waves := t.waves } ∧
      LanesBecome s t (fun l x => goOn s l (if m.active x then f x (s.src64 w l d) else x)))
    -- reads
    reads 0x000 false (fun _ => BitVec.ofNat 64 ((s.wave w).flags.toNat * 16 + (s.wave w).rm.toNat * 2 + (s.wave w).chk.toNat)) ∧
    reads 0x001 false (fun l => (s.lane w l).lflags.setWidth 64) ∧ reads 0x002 false (fun _ => BitVec.ofNat 64 (s.wave w).allot) ∧
    reads 0x003 false (fun _ => (s.wave w).trapLanes.setWidth 64) ∧ reads 0x008 false (fun _ => BitVec.ofNat 64 (u.tidx / 2 ^ 32 % 2 ^ 8)) ∧
    reads 0x009 false (fun _ => BitVec.ofNat 64 u.hdr.corps) ∧ reads 0x00A false (fun _ => BitVec.ofNat 64 u.hdr.waves) ∧
    reads 0x00B false (fun _ => BitVec.ofNat 64 (u.core % 1024)) ∧ reads 0x00C false (fun _ => BitVec.ofNat 64 p.pkgid) ∧
    reads 0x00D false (fun _ => BitVec.ofNat 64 p.podsize) ∧ reads 0x010 true (fun _ => BitVec.ofNat 64 p.phys.cycles) ∧
    reads 0x020 false (fun l => (s.lane w l).trapCause.setWidth 64) ∧ reads 0x021 true (fun l => (s.lane w l).trapVa) ∧
    reads 0x022 true (fun l => (s.lane w l).trapPc) ∧
    (p.feat 10 = true → reads 0x030 false (fun _ => BitVec.ofNat 64 (p.fab.fctl.toNat % 2 ^ 31 + (if p.fab.csync then 2 ^ 31 else 0)))) ∧
    reads 0x040 true (fun _ => p.fab.caltime) ∧
    reads 0x041 false (fun _ => BitVec.ofNat 64 (p.fab.caltime.toNat / 1024 % (if p.podsize ≤ 1 then 1 else (p.podsize - 1 + 15) / 16))) ∧
    reads 0x042 true (fun _ => BitVec.ofNat 64 (p.fab.caltime.toNat / 1024 / (if p.podsize ≤ 1 then 1 else (p.podsize - 1 + 15) / 16))) ∧
    reads 0x050 true (fun _ => s.scopeTab s.curPkg u.core) ∧ reads 0x070 true (fun _ => p.reel.stat) ∧ reads 0x071 true (fun _ => p.reel.idle) ∧
    reads 0x060 true (fun _ => if p.host.featDone then p.host.featAcc.setWidth 64 else 0) ∧
    reads 0x061 true (fun _ => if p.host.featDone then p.host.featAcc.extractLsb' 64 64 else 0) ∧
    reads 0x080 false (fun _ => (s.detStat s.curTid).setWidth 64) ∧ reads 0x100 true (fun _ => u.savearea) ∧
    reads 0x101 true (fun _ => u.traphnd) ∧
    -- writes
    (s.flagsOwed = false → sets (.csrw m (r 0x001) d) (fun x y => { x with lflags := y.setWidth 5 })) ∧
    (s.flagsOwed = false → v.toNat < 2 ^ 9 → (let rm := v.toNat / 2 % 8; rm ≠ 0 ∧ rm ≤ 5) → After (.csrw m (r 0x000) d) s (fun t =>
      t = { s with waves := t.waves } ∧ (t.wave w).rm = v.extractLsb' 1 3 ∧ (t.wave w).chk = v.getLsbD 0 ∧
      ∀ l, l < 32 → (t.lane w l).lflags = v.extractLsb' 4 5 ∧ (t.lane w l).g = (s.lane w l).g)) ∧
    (Privileged s →
      sets (.csrw m (r 0x020) d) (fun x y => { x with trapCause := y.setWidth 32 }) ∧ sets2 (.csrw m (r 0x021) d) (fun x y => { x with trapVa := y }) ∧
      sets2 (.csrw m (r 0x022) d) (fun x y => { x with trapPc := BitVec.ofNat 64 (y.toNat / 2 * 2), movedPc := true }) ∧
      After (.csrw m (r 0x003) d) s (fun t => t = { s with waves := t.waves } ∧ WaveBecomes s t (fun x => { x with trapLanes := v }) (fun l x => goOn s l x)) ∧
      After (.csrw m (r 0x100) d) s (fun t => t = { s with waves := t.waves, troupes := t.troupes } ∧ GoesOn s t ∧
        ∀ j, t.troupe j = if j = s.curTid then { u with savearea := wide } else s.troupe j) ∧
      After (.csrw m (r 0x101) d) s (fun t => t = { s with waves := t.waves, troupes := t.troupes } ∧ GoesOn s t ∧
        ∀ j, t.troupe j = if j = s.curTid then { u with traphnd := wide } else s.troupe j) ∧
      After (.csrw m (r 0x030) d) s (fun t => t = { s with waves := t.waves, pkgs := t.pkgs } ∧ GoesOn s t ∧
        t.pkg s.curPkg = { p with fab := { p.fab with fctl := v &&& 0x60FFFFFF#32 } })) ∧
    (s.flagsOwed = false → After (.csrx m (r 0x001) d) s (fun t => t = { s with waves := t.waves, nextId := s.nextId + 1 } ∧
      LanesBecome s t (fun l x => goOn s l (if m.active x
        then { gets false (fun l => (s.lane w l).lflags.setWidth 64) l x with lflags := (s.src w l d).setWidth 5 }
        else gets false (fun _ => 0) l x)))) ∧
    (Privileged s → After (.csrx m (r 0x100) d) s (fun t => t = { s with waves := t.waves, troupes := t.troupes, nextId := s.nextId + 1 } ∧
      (t.troupe s.curTid).savearea = wide ∧ LanesBecome s t (fun l x => goOn s l (gets true (fun _ => u.savearea) l x)))) ∧
    -- refusals and waits
    (s.flagsOwed = true → ∀ n, n = 0 ∨ n = 1 → After (.csrr m (r n) d) s (Waits (.csrr m (r n) d) s)) ∧
    (Alone s → ∀ n, n < 2 ^ 12 →
      (csrInfo n = none → ∀ i, i = .csrr m (r n) d ∨ i = .csrw m (r n) d ∨ i = .csrx m (r n) d → After i s (fun t => StopsActive s t m 0x10 0x0C 0)) ∧
      (n ∈ [0x002, 0x008, 0x009, 0x00A, 0x00B, 0x00C, 0x00D, 0x010, 0x040, 0x041, 0x042, 0x050, 0x060, 0x061, 0x070, 0x071, 0x080] →
        ∀ i, i = .csrw m (r n) d ∨ i = .csrx m (r n) d → After i s (fun t => StopsActive s t m 0x10 0x0C 0)) ∧
      (n ∈ [0x003, 0x020, 0x021, 0x022, 0x030, 0x100, 0x101] →
        ∀ i, i = .csrw m (r n) d ∨ i = .csrx m (r n) d → After i s (fun t => StopsActive s t m 0x11 0 0)) ∧
      ((2 ^ 9 ≤ v.toNat ∨ (let rm := v.toNat / 2 % 8; rm = 0 ∨ 6 ≤ rm)) → After (.csrw m (r 0x000) d) s (fun t => StopsActive s t m 0x10 0x0D 0)))

/-! ### Launches (R171, R288 to R300) -/

/-- R288, R289, R292, R293, R297: queues and the launch table. A doorbell moves TAIL forward by no more than the queue holds; the front
end takes the record at HEAD, which enters the table or is refused with its cause in EVT; a launch that waits on a word is
ready when the word has come, and refused when it is marked; a free caller takes the ready launch of best standing. -/
def Obligations.LaunchQueues : Prop :=
  ∀ (s : State) (k q n : Nat) (v : W32),
    let p := s.pkg k
    let d := p.lq q
    let dev := d.ctl.getLsbD 7
    let size := 2 ^ (d.ctl.toNat % 16)
    let forward := (v - d.head).toNat ≤ size ∧ (v - d.tail).toNat ≤ size
    let others := fun (t : State) => ∀ j, j ≠ q → (t.pkg k).lq j = p.lq j
    let runs := p.sec.booted = true ∧ p.sec.recovery = false ∧ p.phys.powered = true
    (runs → dev = false → forward → After (.launchDoorbell k q v) s (fun t => t = { s with pkgs := t.pkgs } ∧ (t.pkg k).lq q = { d with tail := v } ∧ others t)) ∧
    (runs → dev = false → ¬ forward → After (.launchDoorbell k q v) s (fun t => (t.pkg k).lq q = { d with err := true } ∧ others t ∧ EventWritten s t k 0x4D 6 q)) ∧
    ((dev = true ∨ ¬ runs) → After (.launchDoorbell k q v) s (fun t => t.pkg k = p)) ∧
    -- the front end
    (p.nextQueue ≠ some q → exec (.frontEndTake k q) s = .next s) ∧
    (p.nextQueue = some q →
      let va := d.base + BitVec.ofNat 64 (128 * (d.head.toNat % size))
      let taken := fun (t : State) => (t.pkg k).lq q = { d with head := d.head + 1, depths := d.depths.tail } ∧ others t ∧
        (t.pkg k).sched.lqTurn = (q + 1) % 64
      (s.devFetch k d.ctx va 128 = none → After (.frontEndTake k q) s (fun t => taken t ∧ EventWritten s t k 0x4F 6 (if dev then 64 else q))) ∧
      ∀ bs, s.devFetch k d.ctx va 128 = some bs →
        (∀ x, s.judge k d.ctx va bs = .inr x → x.caller = none → After (.frontEndTake k q) s (fun t => taken t ∧ t.mem = s.mem ∧
          ∃ z, flook (t.pkg k).sched.launches s.nextId = some z ∧ z.rcd = x.rcd ∧ z.hdr = x.hdr ∧ z.ctx = x.ctx ∧ z.caller = none ∧
            z.prio = d.ctl.toNat / 16 % 4 ∧ z.st = if x.rcd.wevt = 0 then .ready else .waiting)) ∧
        ∀ c, s.judge k d.ctx va bs = .inl c → After (.frontEndTake k q) s (fun t => taken t ∧ (t.pkg k).sched.launches = p.sched.launches ∧
          ((lrecOf va bs).evt = 0 → t.mem = s.mem) ∧
          ∀ key, (lrecOf va bs).evt ≠ 0 → (lrecOf va bs).evt.toNat % 8 = 0 → s.wordKey k d.ctx (lrecOf va bs).evt true = .inr key →
            NoneAbout s key 8 → MemoryTakes s t key 8 (2 ^ 63 + (numberAt s key 8 + 2 ^ 40 * c) % 2 ^ 63))) ∧
    -- the table
    (∀ x i, (i = .launchReady k n ∨ i = .launchRecheckTimer k n) → flook p.sched.launches n = some x →
      (x.st ≠ .waiting → exec i s = .next s) ∧
      ∀ key, x.st = .waiting → s.wordKey k x.ctx x.rcd.wevt false = .inr key →
        let w := numberAt s key 8
        (w < x.rcd.wval.toNat → exec i s = .next s) ∧
        (x.rcd.wval.toNat ≤ w → w < 2 ^ 63 → After i s (fun t => t.mem = s.mem ∧ flook (t.pkg k).sched.launches n =
          some { x with st := if x.caller = none then .ready else .held, readySeq := s.nextId })) ∧
        (x.rcd.wval.toNat ≤ w → 2 ^ 63 ≤ w → x.parent = none → After i s (fun t => flook (t.pkg k).sched.launches n = none ∧
          ∀ key2, x.rcd.evt ≠ 0 → x.rcd.evt.toNat % 8 = 0 → s.wordKey k x.ctx x.rcd.evt true = .inr key2 → NoneAbout s key2 8 →
            MemoryTakes s t key2 8 (2 ^ 63 + (numberAt s key2 8 + 2 ^ 40 * 4) % 2 ^ 63)))) ∧
    (∀ x, flook p.sched.launches n = some x → After (.launchAging k n) s (fun t => flook (t.pkg k).sched.launches n = some
      (if (x.st = .waiting ∨ x.st = .ready) ∧ x.prio ≠ 0 ∧ x.since + 1000000 ≤ p.fab.caltime.toNat
       then { x with prio := x.prio - 1, since := x.since + 1000000 } else x))) ∧
    (∀ c e, p.freeCaller = some c → p.nextReady = some e → e.2.rcd.graph = false → After (.callerHandover k) s (fun t => t.mem = s.mem ∧
      ∃ x, flook p.sched.launches e.1 = some x ∧ flook (t.pkg k).sched.launches e.1 = some { x with caller := some c, st := .held })) ∧
    ((p.freeCaller = none ∨ p.nextReady = none) → exec (.callerHandover k) s = .next s)

/-- R18, R38 to R41, R171, R263, R290, R295, R299: a troupe from its placement to its publication. A corps of one troupe whose gate is open
and for which there is a core starts there: its troupe has the next index, its constants and dictionary, its tiles zeroed where
another context held them; each lane of its waves stands at the entry point with nothing written. A troupe whose waves have
ended and whose work is done publishes its bit and its count. `spawn` writes a record into its queue. -/
def Obligations.TroupeLife : Prop :=
  ∀ (s : State),
    (∀ (k n i : Nat) (x : Launch) (clus core : Nat) (quads : List Nat) bank dict, flook (s.pkg k).sched.launches n = some x →
      s.outranked k n = false → x.placing = true → x.saved = [] → x.nextIdx = some i → x.hdr.corps = 1 → x.hdr.pentry = 0 →
      s.corpsGate k n x i = .open_ → s.spot k n x x.wait [x.hdr.need] = .on clus [(core, quads)] → s.bankWords k x.ctx x.rcd = some bank →
      s.dictWords k x.ctx x.hdr = some dict → After (.corpsPlacement k n) s (fun t =>
        let u := t.troupe (s.nextId + 1)
        u.pkg = k ∧ u.core = core ∧ u.ctx = x.ctx ∧ u.launch = n ∧ u.tidx = i ∧ u.crk = 0 ∧ u.st = .resident ∧ u.hdr = x.hdr ∧
        u.kbank = bank ∧ u.dict = dict ∧ u.traphnd = x.hdr.traph ∧ u.lock = false ∧ u.arvcnt = 0 ∧ u.phase = false ∧
        (∀ j, j < quads.length → let w := (s.nextId + 1) * 32 + j
          (t.wave w).tid = s.nextId + 1 ∧ (t.wave w).wix = j ∧ (t.wave w).allot = 8 * x.hdr.regs ∧ (t.wave w).quad = quads.getD j 0 ∧
          (t.wave w).ended = false ∧ ∀ l, l < 32 → (t.lane w l).st = .run ∧ (t.lane w l).pc = x.hdr.entry ∧ (t.lane w l).g = []) ∧
        (∀ p ∈ u.tiles, flook (s.core k core).tileCtx p ≠ some x.ctx → ∀ b, b < 4096 → memGet t.mem (scrKey k core p 0 + b) = 0) ∧
        (t.core k core).lines = [])) ∧
    (∀ (tid : Nat), s.mayPublish tid = false → exec (.troupePublish tid) s = .next s) ∧
    (∀ (tid : Nat) (x : Launch),
      let u := s.troupe tid
      s.mayPublish tid = true → s.unreported tid = none → flook (s.pkg u.pkg).sched.launches u.launch = some x → (s.core u.pkg u.core).grantQ = [] →
      u.tidx ∉ x.quiet →
      (∀ key, x.rcd.donemap = 0 → x.rcd.evt ≠ 0 → s.wordKey u.pkg x.ctx x.rcd.evt true = .inr key → NoneAbout s key 8 →
        After (.troupePublish tid) s (fun t => (t.troupe tid).st = .published ∧
          MemoryTakes s t key 8 (numberAt s key 8 / 2 ^ 63 * 2 ^ 63 + (numberAt s key 8 + 1) % 2 ^ 63) ∧
          (x.published + 1 = x.rcd.ntrp → flook (t.pkg u.pkg).sched.launches u.launch = none))) ∧
      (∀ key, x.rcd.evt = 0 → x.rcd.donemap ≠ 0 →
        s.wordKey u.pkg x.ctx (x.rcd.donemap + BitVec.ofNat 64 (8 * (u.tidx / 64))) true = .inr key → NoneAbout s key 8 →
        After (.troupePublish tid) s (fun t => (t.troupe tid).st = .published ∧
          MemoryTakes s t key 8 (numberAt s key 8 ||| 2 ^ (u.tidx % 64))))) ∧
    (∀ (m : Mods) (d a : Reg) (e : Nat), Elected s m e →
      let k := s.curPkg
      let b := s.block e a 4
      let va := bd b 0
      let q := bf b 2 5 0
      let lq := (s.pkg k).lq q
      let depth := (s.launch k s.curTroupe.launch).depth
      let gives := fun (t : State) (v : W32) => LanesBecome s t (fun l x => goOn s l (sends s m none (regs1 d) (fun _ => to32 d v) (fun _ => 0) l x))
      let refused := fun (v : W32) => After (.spawn m d a) s (fun t => t = { s with waves := t.waves, nextId := s.nextId + 1 } ∧ gives t v)
      let legal := va.toNat % 64 = 0 ∧ bf b 2 31 6 = 0 ∧ bw b 3 = 0 ∧ lq.dev = true ∧ (s.pkg k).lqOn lq = true ∧ lq.ctx = s.curCtx
      (¬ legal → refused 3) ∧ (legal → 7 ≤ depth → refused 2) ∧ (legal → depth < 7 → (lq.tail - lq.head).toNat = lq.size → refused 1) ∧
      let ready := legal ∧ depth < 7 ∧ (lq.tail - lq.head).toNat ≠ lq.size
      (Alone s → ready → ∀ f, s.spawnBad va = some f → After (.spawn m d a) s (fun t => StopsElected s t m f.1.code.toNat f.2.1.toNat f.2.2)) ∧
      (ready → s.spawnBad va = none → s.walkWait .g [va, va + 64] = true → After (.spawn m d a) s (fun t =>
        WaitsForWalks (.spawn m d a) s t [va, va + 64])) ∧
      ∀ bs key, ready → s.spawnBad va = none → s.walkWait .g [va, va + 64] = false →
        s.relWait .pkg = false → s.devFetch k s.curCtx va 128 = some bs → bs.length = 128 →
        let slot := lq.base + BitVec.ofNat 64 (128 * (lq.tail.toNat % lq.size))
        StaysAt s k lq.ctx slot key key 128 → StaysAt s k lq.ctx (slot + 64) (key + 64) key 128 → NoneAbout s key 128 →
        After (.spawn m d a) s (fun t => gives t 0 ∧ (t.pkg k).lq q = { lq with tail := lq.tail + 1, depths := lq.depths ++ [depth + 1] } ∧
          memGets t.mem key 128 = bs ∧ ∀ b, (b < key ∨ key + 128 ≤ b) → memGet t.mem b = memGet s.mem b))

/-- R298: graphs. A ready node starts as its kind says: a grid is taken into the table, a copy becomes an engine command, a collective
node issues its run, a signal adds to its word at once. A grid, a copy and a collective are done when what they started is over, a
wait when its word has come. A node that is done gives an arrival to each valid successor, which is ready when its last one
comes; a conditional chooses by its word; a while node goes into its body, whose counts are set anew, or past it, and tests again
when an arrival comes from its body; the graph whose nodes are all idle counts in EVT. -/
def Obligations.GraphNodes : Prop :=
  ∀ (s : State) (k n i : Nat) (x : Launch) (r : NodeRec), flook (s.pkg k).sched.launches n = some x →
    let node := fun (t : State) (j : Nat) => ((t.launch k n).gnode j)
    let isOver := r.kind = 4 ∨ r.kind = 7 ∨
      (r.kind = 3 ∧ ∃ key, s.wordKey k x.ctx (r.word 16) false = .inr key ∧ (r.word 24).toNat ≤ numberAt s key 8) ∨
      (r.kind = 0 ∧ flook (s.pkg k).sched.launches (x.gnode i).sub = none) ∨ (r.kind = 1 ∧ (s.pkg k).cmd? (x.gnode i).sub = none) ∨
      (r.kind = 2 ∧ ∀ c, (s.pkg k).run? (x.gnode i).sub = some c → c.done = true)
    (x.walking = false → exec (.graphNodeStart k n i) s = .next s ∧ exec (.graphNodeDone k n i) s = .next s) ∧
    (x.walking = true → s.node? k x i = some r → r.bad x.gcount = false →
      ((x.gnode i).st = .ready →
        (∀ y bs, r.kind = 0 → (r.word 16).toNat % 64 = 0 → s.devFetch k x.ctx (r.word 16) 128 = some bs → (lrecOf (r.word 16) bs).graph = false →
          s.judge k x.ctx (r.word 16) bs = .inr y → n ≠ s.nextId → After (.graphNodeStart k n i) s (fun t => t.mem = s.mem ∧ (node t i).st = .running ∧
            ∃ z, flook (t.pkg k).sched.launches s.nextId = some z ∧ z.rcd = y.rcd ∧ z.hdr = y.hdr ∧ z.parent = some (n, i) ∧ z.caller = x.caller)) ∧
        (∀ key, r.kind = 4 → (r.word 16).toNat % 8 = 0 → s.wordKey k x.ctx (r.word 16) true = .inr key → NoneAbout s key 8 →
          After (.graphNodeStart k n i) s (fun t => (node t i).st = .running ∧
            MemoryTakes s t key 8 ((numberAt s key 8 + (r.word 24).toNat) % 2 ^ 64))) ∧
        (∀ bs eng, r.kind = 1 → s.devFetch k x.ctx (r.word 16) 24 = some bs → (s.pkg k).engineFor 0 = some eng →
          let src := BitVec.ofNat 64 (leNat (bs.take 8))
          let dst := BitVec.ofNat 64 (leNat ((bs.drop 8).take 8))
          let len := leNat ((bs.drop 16).take 4)
          16 ≤ len → len < 2 ^ 24 → len % 16 = 0 → src.toNat % 16 = 0 → dst.toNat % 16 = 0 → leNat ((bs.drop 20).take 4) = 0 →
          (∀ v ∈ stepsOf (2 ^ 16) src len, s.copyPage k x.ctx false v ≠ none) → (∀ v ∈ stepsOf (2 ^ 16) dst len, s.copyPage k x.ctx true v ≠ none) →
          After (.graphNodeStart k n i) s (fun t => t.mem = s.mem ∧ (node t i).st = .running ∧ (node t i).sub = s.nextId ∧
            ∃ c, (t.pkg k).cmds = (s.pkg k).cmds ++ [c] ∧ c.id = s.nextId ∧ c.ctx = x.ctx ∧ c.engine = eng ∧ c.graph = some (n, i) ∧
              c.cmd = .copy .g .g false src dst len 0)) ∧
        (∀ pl, r.kind = 2 → let slot := field r.bytes 16 1
          field r.bytes 16 8 < 2 ^ 8 → flook (s.pkg k).coll.plans slot = some pl → (pl.stg = true → r.word 40 ≠ 0) →
          let run := { CollRun.init with born := s.nextId, ctx := x.ctx, base0 := r.word 24, base1 := r.word 32, base2 := r.word 40 }
          s.collFault k 1024 x.ctx true pl run = none → (s.pkg k).runRoom slot = true →
          After (.graphNodeStart k n i) s (fun t => t.mem = s.mem ∧ (node t i).st = .running ∧ (node t i).sub = (s.pkg k).coll.runSeq.toNat ∧
            (t.pkg k).coll.runSeq = (s.pkg k).coll.runSeq + 1 ∧
            ∃ z ∈ (t.pkg k).coll.runs, z.seq = (s.pkg k).coll.runSeq ∧ z.plan = slot ∧ z.ctx = x.ctx ∧ z.base0 = r.word 24 ∧ z.base1 = r.word 32 ∧
              z.base2 = r.word 40)) ∧
        (∀ key, (r.kind = 3 ∨ r.kind = 5 ∨ r.kind = 6) → (r.word 16).toNat % 8 = 0 → s.wordKey k x.ctx (r.word 16) false = .inr key →
          After (.graphNodeStart k n i) s (fun t => t.mem = s.mem ∧ (node t i).st = .running)) ∧
        (r.kind = 7 → After (.graphNodeStart k n i) s (fun t => t.mem = s.mem ∧ (node t i).st = .running))) ∧
      ((x.gnode i).st = .running →
        (∀ key, r.kind = 3 → s.wordKey k x.ctx (r.word 16) false = .inr key → numberAt s key 8 < (r.word 24).toNat →
          exec (.graphNodeDone k n i) s = .next s) ∧
        (∀ c, r.kind = 1 → (s.pkg k).cmd? (x.gnode i).sub = some c → exec (.graphNodeDone k n i) s = .next s) ∧
        (∀ c, r.kind = 2 → (s.pkg k).run? (x.gnode i).sub = some c → c.done = false → exec (.graphNodeDone k n i) s = .next s) ∧
        (∀ y, r.kind = 0 → flook (s.pkg k).sched.launches (x.gnode i).sub = some y → exec (.graphNodeDone k n i) s = .next s) ∧
        (∀ j y, isOver → r.next = [j] → j ≠ i → s.node? k x j = some y → y.kind ≠ 6 → 1 ≤ (x.gnode j).count →
          (x.gnode j).st = .idle → (∃ h, h ≠ i ∧ h ≠ j ∧ ∃ g, (h, g) ∈ x.nodes ∧ g.st ≠ .idle) → Rising x.nodes →
          After (.graphNodeDone k n i) s (fun t => t.mem = s.mem ∧ (node t i).st = .idle ∧
            (node t j).count = (x.gnode j).count - 1 ∧ (node t j).st = if (x.gnode j).count = 1 then .ready else .idle)) ∧
        (∀ key a b, r.kind = 5 → r.next = [a, b] → a ≠ i → b ≠ i → a ≠ b → s.wordKey k x.ctx (r.word 16) false = .inr key →
          let c := if numberAt s key 8 = 0 then b else a
          let o := if numberAt s key 8 = 0 then a else b
          ∀ y, s.node? k x c = some y → y.kind ≠ 6 → (x.gnode c).count = 1 → Rising x.nodes → After (.graphNodeDone k n i) s (fun t => t.mem = s.mem ∧
            (node t i).st = .idle ∧ (node t c).st = .ready ∧ node t o = x.gnode o)) ∧
        (∀ key a b, r.kind = 6 → r.next = [a, b] → a ≠ i → b ≠ i → a ≠ b → s.wordKey k x.ctx (r.word 16) false = .inr key → Rising x.nodes →
          (numberAt s key 8 ≠ 0 → ∀ y, s.node? k x a = some y → y.kind ≠ 6 → y.npred = 1 → After (.graphNodeDone k n i) s (fun t => t.mem = s.mem ∧
            (node t i).st = .idle ∧ (node t a).st = .ready ∧ ∀ j ∈ s.bodyOf k x i, j ≠ a → (node t j).count = s.npred k x j)) ∧
          (numberAt s key 8 = 0 → ∀ y, s.node? k x b = some y → y.kind ≠ 6 → (x.gnode b).count = 1 → After (.graphNodeDone k n i) s (fun t =>
            t.mem = s.mem ∧ (node t i).st = .idle ∧ (node t b).st = .ready ∧ node t a = x.gnode a))) ∧
        (∀ j y, isOver → r.next = [j] → j ≠ i → s.node? k x j = some y → y.kind = 6 → i ∈ s.bodyOf k x j → Rising x.nodes →
          After (.graphNodeDone k n i) s (fun t => t.mem = s.mem ∧ (node t i).st = .idle ∧ (node t j).st = .ready ∧
            (node t j).count = (x.gnode j).count)) ∧
        (∀ key, isOver → r.next = [] → (∀ e ∈ x.nodes, e.1 = i ∨ e.2.st = .idle) → Rising x.nodes → x.rcd.evt ≠ 0 →
          s.wordKey k x.ctx x.rcd.evt true = .inr key → NoneAbout s key 8 → After (.graphNodeDone k n i) s (fun t =>
            flook (t.pkg k).sched.launches n = none ∧
            MemoryTakes s t key 8 (numberAt s key 8 / 2 ^ 63 * 2 ^ 63 + (numberAt s key 8 + 1) % 2 ^ 63)))))

/-! ### Pre-emption (R173, R315 to R323) -/

/-- R173, R315 to R323: pre-emption. At the drain's deadline the troupes on the clusters take PREEMPT, or the context stops where one
cannot be saved; at the eviction's it stops. A wave that has stopped for it is saved and enters SAVEH in system mode with its
block's address; the save area then holds the troupe header, the wave's header, its lane records, its steer slots, g0 to g3 and its
queue windows. `ctx.park` parks the wave; a troupe whose waves have parked leaves its core. A saved troupe is rebuilt where there
is a core for it, its waves at RESTH with what their images say. -/
def Obligations.PreemptionStages : Prop :=
  ∀ (s : State),
    (∀ (k : Nat) (x : W32) (r : Preempt), flook (s.pkg k).sched.preempts x.toNat = some [r] →
      let now := (s.pkg k).fab.caltime.toNat
      let ts := s.evictees k x (r.mask &&& ~~~ r.openMask)
      let keeps := fun n => (s.troupe n).st = .resident → s.saveable (s.troupe n) = true
      ((r.stage ≠ .drain ∨ now < r.drainAt) → exec (.drainDeadline k x) s = .next s) ∧
      ((r.stage ≠ .evict ∨ now < r.evictAt) → exec (.evictionDeadline k x) s = .next s) ∧
      (r.stage = .drain → r.drainAt ≤ now → (∃ n ∈ ts, ¬ keeps n) → After (.drainDeadline k x) s (fun t => ContextStops s t k x)) ∧
      (r.stage = .evict → r.evictAt ≤ now → After (.evictionDeadline k x) s (fun t => ContextStops s t k x)) ∧
      (r.stage = .drain → r.drainAt ≤ now → (∀ n ∈ ts, keeps n) → ∀ w n, s.waves = [(w, n)] → n.tid ∈ ts → (s.troupe n.tid).st = .resident →
        n.ended = false → n.parked = false → n.saving = false → n.forPreempt = false → n.live ≠ 0 → After (.drainDeadline k x) s (fun t => t.mem = s.mem ∧
          (∃ q, flook (t.pkg k).sched.preempts x.toNat = some [q] ∧ q.stage = .evict ∧ q.troupes = ts ∧ q.evictAt = now + r.evictNs) ∧
          ((n.sys = true ∨ n.handler = true ∨ n.susp = true ∨ n.stopped = true) → t.wave w = { n with preempt := true }) ∧
          (n.sys = false → n.handler = false → n.susp = false → n.stopped = false → (t.wave w).stopped = true ∧
            ∀ l, l < 32 → (s.lane w l).st ≠ .exit → (t.lane w l).trapCause = 0x20 ∧ (t.lane w l).trapPc = (s.lane w l).pc)))) ∧
    (∀ (tid w : Nat) (v : Wave), s.waves = [(w, v)] → v.tid = tid → v.forPreempt = true → v.ended = false → v.owesLocal = false →
      (s.troupe tid).st = .resident →
      let u := s.troupe tid
      (s.saveable u = false → After (.preemptSaveImage tid) s (fun t => ContextStops s t u.pkg u.ctx)) ∧
      (∀ c, s.saveable u = true → s.areaBad u true = none → flook (s.pkg u.pkg).ctxs u.ctx.toNat = some c →
        After (.preemptSaveImage tid) s (fun t => (t.wave w).sys = true ∧ (t.wave w).handler = true ∧ (t.wave w).saving = true ∧
          (t.wave w).stopped = false ∧ ∀ l, l < 32 → (s.lane w l).st ≠ .exit →
            let block := u.savearea + BitVec.ofNat 64 (0x1000 + 0x8000 * (v.wix + if v.part then u.hdr.waves else 0))
            (t.lane w l).st = .run ∧ (t.lane w l).pc = c.saveh ∧ (t.lane w l).reg 0 = block.setWidth 32 ∧
            (t.lane w l).reg 1 = (block >>> 32).setWidth 32)) ∧
      ∀ c base, s.saveable u = true → s.areaBad u true = none → flook (s.pkg u.pkg).ctxs u.ctx.toNat = some c →
        let r := s.corpsRec u.corps
        let b := 0x1000 + 0x8000 * (v.wix + if v.part then u.hdr.waves else 0)
        Lies s u.pkg u.ctx u.savearea base (0x1000 + 0x8000 * u.hdr.blocks) → b < 0x1000 + 0x8000 * u.hdr.blocks →
        u.hdr.waves ≤ 16 → u.arvcnt ≤ 16 → r.carr < 512 → r.clive < 512 → u.tidx < 2 ^ 40 → v.wix < 16 → v.allot ≤ 120 →
        (∀ l, (fget [] v.queue l).length ≤ 8) → After (.preemptSaveImage tid) s (fun t =>
          let holds := fun (off n x : Nat) => numberAt t (base + off) n = x
          -- the troupe header
          holds 0 4 (u.hdr.waves * 2 ^ 22 + (if u.phase then 2 ^ 21 else 0) + u.arvcnt * 2 ^ 16 + u.waitmask.toNat) ∧
          holds 4 4 (r.carr * 2 ^ 10 + r.clive * 2 + if r.cphase then 1 else 0) ∧ holds 8 8 u.savearea.toNat ∧ holds 16 8 u.traphnd.toNat ∧
          holds 24 8 u.tidx ∧ (∀ i, 32 ≤ i → i < 0x1000 → holds i 1 0) ∧
          -- the wave header
          holds b 4 (2 ^ 31 + (if v.part then 2 ^ 30 else 0) + (if v.tarv then 2 ^ 29 else 0) + (if v.carv then 2 ^ 28 else 0) + v.wix * 2 ^ 24 +
            v.allot * 2 ^ 8 + v.rm.toNat * 2 + if v.chk then 1 else 0) ∧
          holds (b + 4) 4 v.fseq.toNat ∧ holds (b + 8) 4 v.live.toNat ∧
          (∀ l, l < 32 → numberAt t (base + b + 16) 16 / 2 ^ (4 * l) % 16 = (fget [] v.queue l).length) ∧
          (∀ i, 2 ^ 5 ≤ i → i < 2 ^ 8 → holds (b + i) 1 0) ∧ (∀ i, 0x2500 ≤ i → i < 0x3000 → holds (b + i) 1 0) ∧
          -- lane records, steer slots, registers, queue windows
          ∀ l, l < 32 →
            let x := s.lane w l
            let o := b + 0x100 + 32 * l
            (x.st = .exit → holds o 8 0 ∧ holds (o + 8) 8 0 ∧ holds (o + 16) 4 0 ∧ holds (o + 20) 4 (4 * 2 ^ 29)) ∧
            (x.st ≠ .exit → holds o 8 x.trapPc.toNat ∧ holds (o + 8) 8 x.trapVa.toNat ∧ holds (o + 16) 4 x.trapCause.toNat ∧
              holds (o + 20) 4 (x.memb.toNat + match x.prior with | .join n => 2 ^ 29 + n.toNat * 2 ^ 25 | .barT => 2 * 2 ^ 29 | .barC => 3 * 2 ^ 29 | _ => 0)) ∧
            holds (o + 24) 4 x.lflags.toNat ∧ holds (o + 28) 4 0 ∧
            (x.st ≠ .exit → x.pend = [] → (∀ i, i < 4 → holds (b + 0x3000 + 128 * i + 4 * l) 4 (x.reg i).toNat) ∧
              ∀ i, i < 256 → holds (b + 0x500 + 256 * l + i) 1 0) ∧
            (∀ d y g, x.st ≠ .exit → x.pend = [⟨.g d, y, none, false, true, g⟩] → d.toNat < 120 → (t.lane w l).pend = [] ∧
              holds (b + 0x500 + 256 * l) 8 (2 ^ 31 + d.toNat)) ∧
            ∀ (i : Nat) y, (fget [] v.queue l)[i]? = some y → holds (b + 0x6C00 + 128 * i + 4 * l) 4 y.toNat)) ∧
    (∀ (m : Mods) (e : Nat), Elected s m e →
      let v := s.wave s.cur.wid
      (v.sys = true → v.saving = true → s.cur.path = v.live → After (.ctxPark m) s (fun t => t = { s with waves := t.waves } ∧
        WaveBecomes s t (fun v => { v with parked := true }) (fun l x => goOn s l x))) ∧
      (v.sys = false → s.cur.grouped = false → s.cur.defer = false → After (.ctxPark m) s (fun t => StopsActive s t m 0x11 0 0))) ∧
    (∀ (tid : Nat) (x : Launch),
      let u := s.troupe tid
      (s.mayLeave tid = false → exec (.troupeLeavesCore tid) s = .next s) ∧
      (s.mayLeave tid = true → flook (s.pkg u.pkg).sched.launches u.launch = some x → (s.core u.pkg u.core).grantQ = [] →
        After (.troupeLeavesCore tid) s (fun t => (t.troupe tid).st = .saved ∧ (t.troupe tid).remote = (s.pkg u.pkg).outstanding ∧
          ∃ z, flook (t.pkg u.pkg).sched.launches u.launch = some z ∧ z.saved = x.saved ++ [tid]))) ∧
    (∀ (k n tid clus core : Nat) (x : Launch) (quads : List Nat) bank dict c, flook (s.pkg k).sched.launches n = some x →
      s.outranked k n = false → x.placing = true → s.nextSaved k x = some (c, [tid]) → (s.troupe tid).pkg = k → (s.troupe tid).launch = n →
      s.areaBad (s.troupe tid) false = none → s.spot k n x x.waitSaved [s.savedNeed tid] = .on clus [(core, quads)] →
      (s.troupe tid).hdr.pentry = 0 → s.bankWords k x.ctx x.rcd = some bank → s.dictWords k x.ctx x.hdr = some dict →
      ∀ cx, flook (s.pkg k).ctxs x.ctx.toNat = some cx → cx.resth ≠ 0 → After (.restorePlacement k n) s (fun t =>
        (t.troupe tid).st = .resident ∧ (t.troupe tid).core = core ∧ (t.troupe tid).kbank = bank ∧ (t.troupe tid).hdr = (s.troupe tid).hdr ∧
        (∀ g, s.devFetch k (s.troupe tid).ctx (s.troupe tid).savearea 64 = some g →
          (t.troupe tid).arvcnt = nbits (field g 0 4) 20 16 ∧ (t.troupe tid).waitmask = BitVec.ofNat 16 (field g 0 2) ∧
          (t.troupe tid).phase = (nbits (field g 0 4) 21 21 == 1) ∧ (t.troupe tid).savearea = BitVec.ofNat 64 (field g 8 8) ∧
          (t.troupe tid).traphnd = BitVec.ofNat 64 (field g 16 8) ∧ (t.troupe tid).tidx = nbits (field g 24 8) 39 0 ∧
          (t.corpsRec c).carr = nbits (field g 4 4) 18 10 ∧ (t.corpsRec c).clive = nbits (field g 4 4) 9 1 ∧
          (t.corpsRec c).cphase = (nbits (field g 4 4) 0 0 == 1)) ∧
        ∀ i w h, (s.savedWaves tid)[i]? = some w → i < quads.length → (s.wave w).tid = tid →
          s.devFetch k (s.troupe tid).ctx (s.blockVa w) 0x500 = some h → nbits (field h 0 4) 31 31 = 1 →
          (t.wave w).sys = true ∧ (t.wave w).handler = true ∧ (t.wave w).resting = true ∧ (t.wave w).stopped = false ∧
          (t.wave w).quad = quads.getD i 0 ∧ (t.wave w).allot = nbits (field h 0 4) 15 8 ∧ (t.wave w).rm = BitVec.ofNat 3 (nbits (field h 0 4) 3 1) ∧
          (t.wave w).chk = (nbits (field h 0 4) 0 0 == 1) ∧ (t.wave w).tarv = (nbits (field h 0 4) 29 29 == 1) ∧
          (t.wave w).carv = (nbits (field h 0 4) 28 28 == 1) ∧ (t.wave w).fseq = BitVec.ofNat 24 (field h 4 3) ∧ (t.wave w).sets = [] ∧
          (∀ qs, s.devFetch k (s.troupe tid).ctx (s.blockVa w + 0x6C00) 0x400 = some qs → ∀ l, l < 32 →
            let n := field h 16 16 / 2 ^ (4 * l) % 16
            n ≤ 8 → (fget [] (t.wave w).queue l).length = n ∧
              ∀ i, i < n → (fget [] (t.wave w).queue l)[i]? = some (BitVec.ofNat 32 (field qs (128 * i + 4 * l) 4))) ∧
          ∀ l, l < 32 →
            let o := 0x100 + 32 * l
            let x := t.lane w l
            let ps := nbits (field h (o + 20) 4) 31 29
            let blk := s.blockVa w
            x.lflags = BitVec.ofNat 5 (field h (o + 24) 1) ∧ (ps = 4 → x.st = .exit) ∧
            (ps ≠ 4 → x.st = .run ∧ x.pc = cx.resth ∧ x.trapPc = BitVec.ofNat 64 (field h o 8 / 2 * 2) ∧
              x.trapVa = BitVec.ofNat 64 (field h (o + 8) 8) ∧ x.trapCause = BitVec.ofNat 32 (field h (o + 16) 4) ∧
              x.memb = BitVec.ofNat 2 (nbits (field h (o + 20) 4) 1 0) ∧ x.reg 0 = blk.setWidth 32 ∧ x.reg 1 = (blk >>> 32).setWidth 32 ∧
              (∀ n, 2 ≤ n → n < 120 → x.reg n = 0) ∧ x.pend = [] ∧ x.p = Lane.init.p ∧ x.prior = match ps with
                | 1 => .join (BitVec.ofNat 4 (nbits (field h (o + 20) 4) 28 25))
                | 2 => .barT
                | 3 => .barC
                | _ => .run)))

/-! ### Bit-identical runs and recording (R239, R400 to R412) -/

/-- R239, R403 to R405, R409: deterministic launches. `det.rng` replaces a range of its troupe before the troupe's first write;
`red` puts an entry for each active lane into its core's buffer, with its release, and memory keeps what it held; `det.flush`, a
release at package scope, applies the entries whose order makes no difference, sends those homed elsewhere and waits for them, and
moves the others to the launch's deferred area, where there is room; those are applied in key order when every troupe has ended. -/
def Claims.Deterministic : Prop :=
  (∀ (s : State) (m : Mods) (a : Reg) (e : Nat), Elected s m e →
    let b := s.block e a 4
    let u := s.curTroupe
    let sp := nbits (b[3]!).toNat 4 3
    let legal := (b[3]!).toNat / 32 = 0 ∧ (sp = 0 ∨ sp = 2)
    (Alone s → ¬ legal → After (.detRng m a) s (fun t => StopsActive s t m 0x10 0x11 0)) ∧
    (legal → u.hdr.det = false → After (.detRng m a) s (fun t => t = { s with waves := t.waves } ∧ GoesOn s t)) ∧
    (Alone s → legal → u.hdr.det = true → u.lock = true → After (.detRng m a) s (fun t => StopsActive s t m 0x10 0x13 0)) ∧
    (legal → u.hdr.det = true → u.lock = false → After (.detRng m a) s (fun t => t = { s with waves := t.waves, troupes := t.troupes } ∧ GoesOn s t ∧
      (∀ j, j ≠ s.curTid → t.troupe j = s.troupe j) ∧ t.troupe s.curTid = { u with ranges := (t.troupe s.curTid).ranges } ∧
      ∀ i, flook (t.troupe s.curTid).ranges i = if i = (b[3]!).toNat % 8
        then some ⟨if sp = 0 then .g else .b, (b[1]!).setWidth 64 <<< 32 ||| (b[0]!).setWidth 64, (b[2]!).toNat⟩ else flook u.ranges i))) ∧
  (∀ (s : State) (m : Mods) (o : AtomOp) (w : Bool) (d a : Reg) (key : Nat → Nat) (c : Nat → Bool),
    let u := s.curTroupe
    let k := s.curPkg
    let n := if w then 8 else 4
    let va := addrOf s m.syncSpace a m.syncOff
    let arg := fun (l : Nat) => if w then s.src64 s.cur.wid l d else (s.src s.cur.wid l d).setWidth 64
    let ls := s.activeLanes m
    let buf := (s.core k u.core).detBuf
    u.hdr.det = true → m.syncSpace ≠ .s → (∃ l, On s m l) →
    (s.walkWait m.syncSpace (ls.map va) = true → After (.redOp m o w d a) s (fun t => WaitsForWalks (.redOp m o w d a) s t (ls.map va))) ∧
    (Alone s → After (.atom m o w d a) s (fun t => StopsActive s t m 0x10 0x13 0) ∧ After (.cas m w d a) s (fun t => StopsActive s t m 0x10 0x13 0)) ∧
    (s.walkWait m.syncSpace (ls.map va) = false → (∀ l, On s m l → checkOf s m.syncSpace .red n (va l) = .ok (.at_ (key l) (c l))) →
      (buf.length + ls.length ≤ 4096 → After (.redOp m o w d a) s (fun t => t.mem = s.mem ∧ t.writes = s.writes ∧
        (t.core k u.core).detBuf = buf ++ ls.map (fun l =>
          { tid := s.curTid, tidx := u.tidx, wix := (s.wave s.cur.wid).wix, lid := l, lseq := (s.lane s.cur.wid l).lseq, op := o, w := w,
            addr := key l, far := none, d := arg l, rel := if m.syncOrd = .rel ∨ m.syncOrd = .ar then some m.syncScope else none,
            id := s.nextId, sent := none, held := false }) ∧
        (ls ≠ [] → (t.troupe s.curTid).lock = true) ∧
        WaveBecomes s t id (fun l x => goOn s l (if m.active x then { x with lseq := x.lseq + 1 } else x)))) ∧
      (4096 < buf.length + ls.length → s.detStuck k u.core = false → After (.redOp m o w d a) s (Waits (.redOp m o w d a) s)) ∧
      (Alone s → 4096 < buf.length + ls.length → s.detStuck k u.core = true →
        After (.redOp m o w d a) s (fun t => StopsActive s t m 0x06 2 0)))) ∧
  (∀ (s : State) (m : Mods) (x : Launch),
    let u := s.curTroupe
    let k := s.curPkg
    let es := s.detEntries s.curTid
    let emptied := fun (t : State) => (t.core k u.core).detBuf = (s.core k u.core).detBuf.filter (fun e => e.tid != s.curTid)
    ((u.hdr.det = false ∨ s.activeLanes m = []) → After (.detFlush m) s (fun t => t = { s with waves := t.waves } ∧ GoesOn s t)) ∧
    (u.hdr.det = true → (∃ l, On s m l) → s.relWait .pkg = true → After (.detFlush m) s (Waits (.detFlush m) s)) ∧
    (u.hdr.det = true → (∃ l, On s m l) → s.relWait .pkg = false → flook (s.pkg k).sched.launches u.launch = some x →
      (∀ e, es = [e] → e.op ≠ .inc → e.op ≠ .fadd → e.far = none → e.sent = none → e.rel = none → s.bankBusy e.addr = false →
        s.poisoned e.addr (if e.w then 8 else 4) = false → NoneAbout s e.addr (if e.w then 8 else 4) →
        After (.detFlush m) s (fun t => GoesOn s t ∧ emptied t ∧ MemoryTakes s t e.addr (if e.w then 8 else 4)
          (atomLeaves e.op e.w (numberAt s e.addr (if e.w then 8 else 4)) (if e.w then e.d.toNat else e.d.toNat % 2 ^ 32)) ∧
          flook (t.pkg k).sched.launches u.launch = some x)) ∧
      ((∀ e ∈ es, e.op = .inc ∨ e.op = .fadd) → es.length + x.deferred.length ≤ x.defLen / 32 → After (.detFlush m) s (fun t =>
        GoesOn s t ∧ t.mem = s.mem ∧ emptied t ∧
          flook (t.pkg k).sched.launches u.launch = some { x with deferred := x.deferred ++ es })) ∧
      (Alone s → (∀ e ∈ es, e.op = .inc ∨ e.op = .fadd) → es ≠ [] → x.defLen / 32 < es.length + x.deferred.length →
        After (.detFlush m) s (fun t => StopsActive s t m 0x06 2 0)) ∧
      (∀ e, es = [e] → e.op ≠ .inc → e.op ≠ .fadd → e.far = none → e.sent = none → e.rel = none → s.poisoned e.addr (if e.w then 8 else 4) = false →
        s.bankBusy e.addr = true → After (.detFlush m) s (fun t => t.mem = s.mem ∧ PathWaits (.detFlush m) s t ∧ e ∈ (t.core k u.core).detBuf)) ∧
      (∀ e h va, es = [e] → e.op ≠ .inc → e.op ≠ .fadd → e.far = some (h, va) → h ≠ k → e.sent = none → e.rel = none → (s.pkg k).vqRoom h 3 = true →
        After (.detFlush m) s (fun t => t.mem = s.mem ∧ PathWaits (.detFlush m) s t ∧
          { e with sent := some (((s.pkg k).peer h).sentD + 1) } ∈ (t.core k u.core).detBuf ∧
          ∃ y, ((t.pkg k).peer h).vq = ((s.pkg k).peer h).vq ++ [y] ∧ y.kind = .vAtomic ∧ y.src = k ∧ y.dst = h ∧ y.ret = false ∧
            y.ents = [⟨e.lid, va, e.d.setWidth 128, 0⟩])))) ∧
  (∀ (s : State) (k n : Nat) (x : Launch), flook (s.pkg k).sched.launches n = some x →
    let over_ := x.rcd.ntrp ≤ x.published + s.endedOf k n
    (¬ over_ → exec (.deferredApply k n) s = .next s) ∧
    (∀ e, over_ → x.deferred = [e] → e.far = none → e.sent = none → e.rel = none → s.poisoned e.addr (if e.w then 8 else 4) = false →
      s.bankBusy e.addr = true → After (.deferredApply k n) s (fun t => t.mem = s.mem ∧
        flook (t.pkg k).sched.launches n = some { x with deferred := [e] })) ∧
    (over_ → ∀ a b : DetEntry, (x.deferred = [a, b] ∨ x.deferred = [b, a]) → a.key < b.key → a.far = none → b.far = none →
      a.addr = b.addr → a.w = b.w → a.sent = none → b.sent = none → a.rel = none → b.rel = none →
      (∀ z ∈ (s.pkg (keyPkg a.addr)).bankQ, keyDie z.addr ≠ keyDie a.addr ∨ keyBank z.addr ≠ keyBank a.addr) →
      (fget Pace.init (s.pkg (keyPkg a.addr)).phys.pace (paceBank (keyDie a.addr))).budget = 0 → s.poisoned a.addr (if a.w then 8 else 4) = false →
      let n8 := if a.w then 8 else 4
      let arg := fun (e : DetEntry) => if a.w then e.d.toNat else e.d.toNat % 2 ^ 32
      NoneAbout s a.addr n8 → After (.deferredApply k n) s (fun t =>
        MemoryTakes s t a.addr n8 (atomLeaves b.op a.w (atomLeaves a.op a.w (numberAt s a.addr n8) (arg a)) (arg b)) ∧
        flook (t.pkg k).sched.launches n = some { x with deferred := [] })))

/-- R239, R411, R412: `rec.mark`. In a launch that records it appends a marker entry with the elected lane's value and count and
advances WR; with the log full it waits, or takes RPDIV with LOGFULL under the launch's policy. In a replay it waits for its
entry, and one with another value takes RPDIV with MISMATCH. In any other launch it does nothing. -/
def Claims.Markers : Prop :=
  ∀ (s : State) (m : Mods) (a : Reg) (e : Nat), Elected s m e →
    let u := s.curTroupe
    let k := s.curPkg
    let x := s.launch k u.launch
    let v := s.src s.cur.wid e a
    let room := s.logRoom k u.launch
    let waiting := (s.pkg k).unlogged u.launch
    let wr := s.logWord k u.launch 0
    (u.hdr.rcd = false → After (.recMark m a) s (fun t => t = { s with waves := t.waves } ∧ GoesOn s t)) ∧
    (u.hdr.rcd = true → x.logMode ≠ 1 → room = 0 → u.hdr.recpol = false → After (.recMark m a) s (Waits (.recMark m a) s)) ∧
    (Alone s → u.hdr.rcd = true → x.logMode ≠ 1 → room ≤ waiting → u.hdr.recpol = true →
      After (.recMark m a) s (fun t => StopsElected s t m 0x23 2 0)) ∧
    (∀ head key, u.hdr.rcd = true → x.logMode ≠ 1 → room ≠ 0 → (u.hdr.recpol = true → waiting < room) → s.devKey k x.ctx (x.logVa wr) = some key → NoneAbout s key 16 →
      StaysAt s k x.ctx x.hdr.logbase head key 16 → NoneAbout s head 4 → (head + 4 ≤ key ∨ key + 16 ≤ head) →
      After (.recMark m a) s (fun t =>
        memGets t.mem key 16 = leBytes 8 (u.tidx * 2 ^ 24 + (s.wave s.cur.wid).wix * 2 ^ 20 + e * 2 ^ 15 + 4) ++
          leBytes 8 ((s.lane s.cur.wid e).rseq * 2 ^ 32 + v.toNat) ∧
        memGets t.mem head 4 = leBytes 4 (wr + 1) ∧
        (∀ b, (b < key ∨ key + 16 ≤ b) → (b < head ∨ head + 4 ≤ b) → memGet t.mem b = memGet s.mem b) ∧
        WaveBecomes s t id (fun l y => goOn s l (if l = e then { y with rseq := y.rseq + 1 } else y)))) ∧
    (u.hdr.rcd = true → x.logMode = 1 →
      (s.logFind k u.launch u.tidx (s.wave s.cur.wid).wix e (s.lane s.cur.wid e).rseq = none → After (.recMark m a) s (Waits (.recMark m a) s)) ∧
      ∀ i, s.logFind k u.launch u.tidx (s.wave s.cur.wid).wix e (s.lane s.cur.wid e).rseq = some i →
        let r := s.logEnt k u.launch i
        let fits := r.kind = 4 ∧ r.die = 0 ∧ r.bank = 0 ∧ r.val = v.toNat
        (Alone s → ¬ fits → After (.recMark m a) s (fun t => StopsElected s t m 0x23 1 0)) ∧
        (fits → s.writes = [] → After (.recMark m a) s (fun t =>
          WaveBecomes s t id (fun l y => goOn s l (if l = e then { y with rseq := y.rseq + 1 } else y)))))

/-! ### The module (R415 to R428) -/

/-- R418 to R421: boot, trust and features. The boot ROM, and the mailbox in recovery, runs an image whose signature is good and
whose SECVER is no lower than the rollback counter, and measures it; another leaves the module in recovery. The host extends MR2
to MR7 alone. A report is signed and queued in order. GO fixes the requested features where they are all offered with bit 0. A later
stage of the firmware is verified in the same way and is measured into MR0; where it fails, the module is in recovery (log 118). -/
def Obligations.BootTrustFeatures : Prop :=
  ∀ (s : State) (k : Nat),
    let p := s.pkg k
    let mr := fun (t : State) (n : Nat) => fget 0 (t.pkg k).sec.mr n
    (∀ im : BootImage,
      let x := p.sec
      let good := im.sigGood = true ∧ x.rollback.toNat ≤ im.secver.toNat
      let runs := fun (t : State) => PackageOnly s t k ∧ 
        (t.pkg k).pkgid = k ∧ (1 ≤ im.podsize → im.podsize ≤ 128 → (t.pkg k).podsize = im.podsize) ∧
        t.pkg k = { p with pkgid := k, podsize := (t.pkg k).podsize, sec := (t.pkg k).sec, phys := (t.pkg k).phys,
                           fab := { p.fab with since := (t.pkg k).fab.since } } ∧
        (t.pkg k).sec.booted = true ∧ (t.pkg k).sec.recovery = false ∧ (t.pkg k).sec.secver = im.secver ∧ (t.pkg k).sec.fwver = im.fwver ∧
        (t.pkg k).sec.rollback = (if im.raise then im.secver else x.rollback) ∧
        (∀ d, (∀ v, im.bankV[d]? = some v → flook (t.pkg k).phys.bankV d = some v) ∧ (∀ l, im.pool[d]? = some l → flook (t.pkg k).phys.pool d = some l)) ∧
        ∀ n, mr t n = if n = 0 then mrExtend (fget 0 x.mr 0) im.digest else if n = 1 then mrExtend (fget 0 x.mr 1) im.cfgDigest else fget 0 x.mr n
      let recovers := fun (t : State) => PackageIs s t k { p with sec := { x with recovery := true } }
      (x.recovery = true → exec (.bootRom k im) s = .next s) ∧
      (x.booted = true → x.recovery = false → (good → After (.bootRom k im) s (fun t => PackageIs s t k { p with sec := (t.pkg k).sec } ∧
          (t.pkg k).sec.booted = true ∧ (t.pkg k).sec.recovery = false ∧ (t.pkg k).sec.secver = im.secver ∧ (t.pkg k).sec.fwver = im.fwver ∧
          (t.pkg k).sec.rollback = (if im.raise then im.secver else x.rollback) ∧
          ∀ n, mr t n = if n = 0 then mrExtend (fget 0 x.mr 0) im.digest else fget 0 x.mr n)) ∧
        (¬ good → After (.bootRom k im) s recovers)) ∧
      (x.booted = false → x.recovery = false → (good → After (.bootRom k im) s runs) ∧ (¬ good → After (.bootRom k im) s recovers)) ∧
      (x.recovery = false → exec (.recoveryImage k im) s = .next s) ∧
      (x.recovery = true → (good → After (.recoveryImage k im) s runs) ∧ (¬ good → After (.recoveryImage k im) s recovers))) ∧
    (∀ (n : Nat) (v : BitVec 256),
      let heard := p.phys.powered = true ∧ (p.sec.booted = true ∨ p.sec.recovery = true)
      (heard → 2 ≤ n → n ≤ 7 → After (.mrExtend k n v) s (fun t => PackageIs s t k { p with sec := { p.sec with mr := (t.pkg k).sec.mr } } ∧
        ∀ i, mr t i = if i = n then mrExtend (fget 0 p.sec.mr n) v else fget 0 p.sec.mr i)) ∧
      (¬ (heard ∧ 2 ≤ n ∧ n ≤ 7) → exec (.mrExtend k n v) s = .next s) ∧
      ∀ u : Byte, (¬ heard → exec (.attestationRequest k v u) s = .next s) ∧
        (heard → After (.attestationRequest k v u) s (fun t =>
          let r := leBytes 4 1 ++ leBytes 4 Config.serial.toNat ++ leBytes 4 (p.sec.secver.toNat * 2 ^ 24 + p.sec.fwver.toNat % 2 ^ 24) ++
            leBytes 4 u.toNat ++ leBytes 32 v.toNat ++
            ((List.range 8).map (fun i => leBytes 32 (if u.getLsbD i then (fget 0 p.sec.mr i).toNat else 0))).flatten ++ leBytes 48 0
          PackageOnly s t k ∧ (t.pkg k).sec.mr = p.sec.mr ∧
          ∃ g : BitVec 512, (t.pkg k).host.replies = p.host.replies ++ [.report (r ++ leBytes 64 g.toNat)]))) ∧
    (let h := p.host
     let on := p.phys.powered = true ∧ p.sec.booted = true ∧ p.sec.recovery = false
     let fits := (∀ i, h.featReq.getLsbD i = true → Config.featOff.getLsbD i = true) ∧ h.featReq.getLsbD 0 = true
     (¬ on ∨ h.featDone = true → After (.featureGo k) s (fun t => PackageIs s t k p)) ∧
     (on → h.featDone = false → fits → After (.featureGo k) s (fun t => PackageIs s t k { p with host := { h with featAcc := h.featReq, featDone := true } })) ∧
     (on → h.featDone = false → ¬ fits → After (.featureGo k) s (fun t => PackageIs s t k { p with host := { h with featRej := true } })))

/-- R416, R425: the aperture. A host access reaches APVA plus its offset by the tables of APCTX, checked for R or W alone; one
that faults is not performed and is recorded; a poisoned read, or one whose data leaves damaged, completes poisoned; of a write
the 256-byte units that arrive damaged are dropped, and no other. BAR2 is of 1 to 64 GiB, and nothing beyond it answers (R414). -/
def Obligations.TheAperture : Prop :=
  ∀ (s : State) (k : Nat) (v : W64) (n : Nat),
    let p := s.pkg k
    let va := p.host.apva + v
    let on := p.phys.powered = true ∧ p.sec.booted = true ∧ p.sec.recovery = false
    let reply := fun (t : State) (r : HostReply) => (t.pkg k).host.replies = p.host.replies ++ [r]
    let open_ := fun (write : Bool) (key : Nat) => ∃ l c, s.devLeaf k p.host.apctx va = some l ∧ s.devPlace k p.host.apctx va = .at_ key c ∧
      (if write then pteW l = true ∧ pteState l ≠ 3 else pteR l = true)
    let onePage := 1 ≤ n ∧ va.toNat % 2 ^ 16 + n ≤ 2 ^ 16
    let inBar := v.toNat + n ≤ bar2Bytes
    (2 ^ 30 ≤ bar2Bytes ∧ bar2Bytes ≤ 2 ^ 36) ∧
    (¬ (on ∧ inBar) → (∀ ok, After (.apertureRead k v ⟨n, ok⟩) s (fun t => PackageOnly s t k ∧ reply t .unsupported)) ∧
      ∀ bs bad, bs.length = n → exec (.apertureWrite k v bs bad) s = .next s) ∧
    (on → inBar → onePage →
      (∀ ok, (∀ key, ¬ open_ false key) → After (.apertureRead k v ⟨n, ok⟩) s (fun t => PackageOnly s t k ∧ reply t .unsupported ∧ EventWritten s t k 0x49 6 0)) ∧
      (∀ key ok, open_ false key →
        (s.poisoned key n = true ∨ ok = false → After (.apertureRead k v ⟨n, ok⟩) s (fun t => PackageOnly s t k ∧ reply t .poisoned)) ∧
        (s.poisoned key n = false → ok = true → After (.apertureRead k v ⟨n, ok⟩) s (fun t => PackageOnly s t k ∧ reply t (.data (memGets s.mem key n))))) ∧
      ∀ (bs : List Byte) (bad : Nat), bs.length = n →
        ((∀ key, ¬ open_ true key) → After (.apertureWrite k v bs bad) s (fun t => PackageOnly s t k ∧ EventWritten s t k 0x49 6 0)) ∧
        (∀ key, open_ true key → key % 256 + n ≤ 256 → bad.testBit 0 = true → After (.apertureWrite k v bs bad) s (fun t =>
          PackageOnly s t k ∧ EventWritten s t k 0x48 6 0)) ∧
        (∀ key, open_ true key → key % 256 + n ≤ 512 → 256 < key % 256 + n → bad.testBit 0 = true → bad.testBit 1 = false →
          NoneAbout s key n → After (.apertureWrite k v bs bad) s (fun t => EventWritten s t k 0x48 6 0 ∧
            let rest := key / 256 * 256 + 256
            memGets t.mem rest (key + n - rest) = bs.drop (rest - key) ∧
            ∀ b, (b < rest ∨ key + n ≤ b) → memGet t.mem b = memGet s.mem b)) ∧
        (∀ key, open_ true key → bad = 0 → NoneAbout s key n → After (.apertureWrite k v bs bad) s (fun t => memGets t.mem key n = bs ∧
          (∀ b, (b < key ∨ key + n ≤ b) → memGet t.mem b = memGet s.mem b) ∧
          (key % 64 = 0 → n = 64 → (∀ u ∈ (s.pkg (keyPkg key)).phys.poison, u % 64 = 0) → t.poisoned key 64 = false)))) ∧
    (let set := fun (r : Nat) (q : Pkg) => After (.apertureControlWrite k r v) s (fun t => PackageIs s t k q)
     (on → set 0 { p with host := { p.host with apctx := v.setWidth 32 } } ∧ set 8 { p with host := { p.host with apva := v &&& ~~~ 0xFFFF#64 } }) ∧
     (∀ r, (¬ on ∨ (r ≠ 0 ∧ r ≠ 8)) → set r p))

/-- R324, R424 to R426, R432: errors. A corrected error is recorded and its unit tested, the entry of a cache that it is in dropped
(which cache an error is in, the model numbers); during a core's test it is ignored. An uncorrectable one is recorded: a unit of a bank store or stack is poisoned, a core's troupes are placed
again or their contexts stop. A test that ends marks the error transient, or retires the unit where it fails, where an error that could not be corrected
came, or at the third transient in 24 hours; a row's test is that of the address the error gave (log 119). -/
def Obligations.ErrorsAndTests : Prop :=
  ∀ (s : State) (k n : Nat) (u : Byte) (v : W64),
    let p := s.pkg k
    let isRow := u = 1 ∨ u = 2
    let tested := fun (t : State) => u.toNat ≤ 4 → (∃ x ∈ (t.pkg k).phys.tests, x.cls = u ∧ x.unit = n ∧ (isRow → x.row = v.toNat)) ∧
      (u = 0 → (t.core k n).testing = true)
    let maps := fun (e : TlbEntry) => e.base.toNat ≤ v.toNat ∧ v.toNat < e.base.toNat + e.size
    let idle := s.coreTroupes k n = [] ∧ (s.core k n).grantQ = []
    (∀ c, u = 0 → (s.core k n).testing = true → After (.correctedError k ⟨u, c⟩ n v) s (fun t => PackageIs s t k p)) ∧
    (∀ c, (u ≠ 0 ∨ (s.core k n).testing = false) → After (.correctedError k ⟨u, c⟩ n v) s (fun t => PackageOnly s t k ∧ EventWritten s t k 0x40 u.toNat n ∧ tested t ∧
      (if u = 0 ∧ c = 1 then ∀ y ∈ (t.core k n).lines, y ∈ (s.core k n).lines ∧ y.tag ≠ v.toNat / 128 else (t.core k n).lines = (s.core k n).lines) ∧
      (if u = 0 ∧ c = 2 then ∀ y, y ∈ (t.core k n).tlb ↔ y ∈ (s.core k n).tlb ∧ ¬ maps y else (t.core k n).tlb = (s.core k n).tlb) ∧
      (if u = 0 ∧ c = 3 then ∀ y, y ∈ fget [] (t.pkg k).tlb2 (n / 256) ↔ y ∈ fget [] p.tlb2 (n / 256) ∧ ¬ maps y else (t.pkg k).tlb2 = p.tlb2) ∧
      (if u = 0 ∧ c = 4 then ∀ y ∈ fget [] (t.pkg k).wcache (n / 256), y ∈ fget [] p.wcache (n / 256) ∧
          ¬ (y.base ≤ v.toNat ∧ v.toNat < y.base + levelSize y.level) else (t.pkg k).wcache = p.wcache))) ∧
    ((u = 1 ∨ u = 2 ∨ u = 3 ∨ u = 4 ∨ u = 5) → After (.uncorrectableError k u n v) s (fun t => PackageOnly s t k ∧ EventWritten s t k 0x41 u.toNat n ∧ tested t ∧
      (∀ x ∈ p.phys.poison, x ∈ (t.pkg k).phys.poison) ∧
      (u = 1 → bankKey k (n % 4) (v.toNat % 2 ^ 28 / 64 * 64) ∈ (t.pkg k).phys.poison) ∧
      (u = 2 → hbmKey k (v.toNat % 2 ^ 39 / 64 * 64) ∈ (t.pkg k).phys.poison))) ∧
    (idle → ∀ i, i = .eccu k n 4 ∨ i = .uncorrectableError k 0 n v → After i s (fun t => t.mem = s.mem ∧ t.waves = s.waves ∧
      EventWritten s t k 0x41 0 n ∧ (t.core k n).testing = true)) ∧
    (∀ tid w, s.coreTroupes k n = [(tid, w)] → s.troupe tid = w → w.st = .resident → (s.core k n).grantQ = [] →
      ∀ i, i = .eccu k n 4 ∨ i = .uncorrectableError k 0 n v →
        (w.hdr.idem = false → After i s (fun t => ContextStops s t k w.ctx)) ∧
        ∀ c x, w.hdr.idem = true → flook s.corps w.corps = some c → c.troupes = [tid] → flook p.sched.launches w.launch = some x →
          After i s (fun t => (∀ y, flook s.troupes tid = some y → (t.troupe tid).st = .published) ∧
            (∀ a b, flook s.waves a = some b → b.tid = tid → (t.wave a).ended = true) ∧
            ∃ z, flook (t.pkg k).sched.launches w.launch = some z ∧ z.redo = x.redo ++ [(c.idx, n)])) ∧
    (let mine := fun (t : Test) => t.cls == u && t.unit == n && (t.row == v.toNat || !(u == 1 || u == 2))
     (∀ ok, (p.phys.tests.find? mine = none ∨ (u = 0 ∧ s.coreTroupes k n ≠ [])) → exec (.selfTestEnd k ⟨u, v⟩ n ok) s = .next s) ∧
     ∀ x ok, p.phys.tests.find? mine = some x → (u = 0 → s.coreTroupes k n = []) →
      let recent := (fget [] p.phys.transients (unitKey x)).filter (fun a => p.fab.caltime.toNat ≤ a + 24 * 3600 * 10 ^ 9)
      let lasting := ok = false ∨ x.ue = true ∨ 2 ≤ recent.length
      let frame := x.row % 2 ^ 39 / 2 ^ 16
      (¬ lasting → After (.selfTestEnd k ⟨u, v⟩ n ok) s (fun t => PackageOnly s t k ∧ EventWritten s t k 0x42 u.toNat n ∧
        (t.pkg k).phys.tests = p.phys.tests.erase x ∧ fget [] (t.pkg k).phys.transients (unitKey x) = recent ++ [p.fab.caltime.toNat] ∧
        (u = 0 → (t.core k n).testing = false ∧ (t.core k n).fenced = (s.core k n).fenced))) ∧
      (lasting → p.sched.launches = [] → After (.selfTestEnd k ⟨u, v⟩ n ok) s (fun t => t.mem = s.mem ∧ t.waves = s.waves ∧
        EventWritten s t k 0x43 u.toNat n ∧ (t.pkg k).phys.tests = p.phys.tests.erase x ∧
        (u = 0 → (t.core k n).fenced = true ∧ (t.core k n).testing = false) ∧ (u = 3 → n ∈ (t.pkg k).phys.engBad) ∧
        (u = 4 → n ∈ (t.pkg k).phys.redBad) ∧
        -- a spare takes the row's place, or the frame is withdrawn from its pool
        (u = 2 → ((t.pkg k).phys.withdrawn = p.phys.withdrawn ∧ (t.pkg k).phys.pool = p.phys.pool) ∨
          (frame ∈ (t.pkg k).phys.withdrawn ∧ ∀ d, frame ∉ fget [] (t.pkg k).phys.pool d)))))

/-- R427, R428: budgets and power. A budget is taken for the next period; PCAP keeps a value outside its range; standby waits
for the last context. The clock moves in steps of 25 MHz between 800 and 2,000, and above 115 degrees every context stops. -/
def Obligations.PowerAndBudgets : Prop :=
  ∀ (s : State) (k : Nat) (v : W32),
    let p := s.pkg k
    let on := p.phys.powered = true ∧ p.sec.booted = true ∧ p.sec.recovery = false
    let becomes := fun (i : Instr) (q : Pkg) => After i s (fun t => PackageIs s t k q)
    (on → ∀ d, d < 4 → let sets := fun (off c : Nat) => After (.budgetWrite k off v) s (fun t => PackageOnly s t k ∧
          ∀ j, fget Pace.init (t.pkg k).phys.pace j = if j = c then { fget Pace.init p.phys.pace j with next := v.toNat } else fget Pace.init p.phys.pace j);
      sets (16 * d) (paceCopy d) ∧ sets (16 * d + 4) (paceBank d) ∧ sets (16 * d + 8) (paceWalk d) ∧ sets 0x100 pacePort ∧ sets 0x104 paceReduce) ∧
    (¬ on → ∀ r, becomes (.budgetWrite k r v) p ∧ becomes (.pcapWrite k v) p ∧ becomes (.pstateWrite k v) p) ∧
    (on → becomes (.pcapWrite k v) (if 1500 ≤ v.toNat ∧ v.toNat ≤ 3000 then { p with phys := { p.phys with pcap := v } } else p)) ∧
    (on → becomes (.pstateWrite k v) (if v.toNat % 4 = 3 ∨ (v.toNat % 4 = 2 ∧ p.liveCtxs ≠ []) then p
      else { p with phys := { p.phys with pstate := BitVec.ofNat 32 (v.toNat % 4) } })) ∧
    (let slower := fun (t : State) => PackageOnly s t k ∧
       ((t.pkg k).phys.fclk = if 825 ≤ p.phys.fclk.toNat then p.phys.fclk - 25 else 800);
     After (.powerCapReached k) s (fun t => slower t ∧ EventWritten s t k 0x4B 6 0) ∧
     (∀ n, 105 < n → n ≤ 115 → After (.temperatureEvent k n) s (fun t => slower t ∧ EventWritten s t k 0x4A 6 0)) ∧
     (∀ n, n ≤ 105 → becomes (.temperatureEvent k n)
       { p with phys := { p.phys with fclk := if p.phys.fclk.toNat ≤ 1975 then p.phys.fclk + 25 else 2000 } }) ∧
     (∀ n, 115 < n → (p.liveCtxs = [] → becomes (.temperatureEvent k n) { p with phys := { p.phys with powered := false } }) ∧
       ∀ c, p.liveCtxs = [c] → After (.temperatureEvent k n) s (fun t => (t.pkg k).phys.powered = false ∧ ContextStops s t k c)))

/-- R288, R415, R423, R427 to R429: the control window. A naturally aligned write of 4 or 8 bytes reaches the register at its offset; any
other, and one to an offset that has none, is ignored, and reads zero; the security mailbox (R419 to R421) is not among them.
What is reserved reads zero; in recovery only the information block answers. A refused TAIL of the command queue is recorded. -/
def Obligations.ControlWindow : Prop :=
  ∀ (s : State) (k r n : Nat) (v : W64),
    let p := s.pkg k
    let on := p.phys.powered = true ∧ p.sec.booted = true ∧ p.sec.recovery = false
    let lo := v.setWidth 32
    let sets := fun (r : Nat) (q : Pkg) => After (.registerWrite k r 4 v) s (fun t => PackageIs s t k q)
    let host := fun (h : HostIf) => { p with host := h }
    (¬ (n = 4 ∧ r % 4 = 0) → ¬ (n = 8 ∧ r % 8 = 0) → After (.registerWrite k r n v) s (fun t => PackageIs s t k p)) ∧
    (¬ on → After (.registerWrite k r n v) s (fun t => PackageIs s t k p)) ∧
    ((r < 0x1010 ∨ (0x1024 ≤ r ∧ r < 0x2000) ∨ (0x2010 ≤ r ∧ r < 0x10000) ∨ (0x10800 ≤ r ∧ r < 0x20000) ∨ (0x20200 ≤ r ∧ r < 0x30000) ∨ (0x30014 ≤ r ∧ r < 0x40000) ∨
        (0x4000C ≤ r ∧ r < 0x50000) ∨ (0x50010 ≤ r ∧ r < 0x100000) ∨ (0x110000 ≤ r ∧ r < 2 ^ 25)) →
      After (.registerWrite k r n v) s (fun t => PackageIs s t k p)) ∧
    (¬ (n = 4 ∧ r % 4 = 0) → ¬ (n = 8 ∧ r % 8 = 0) → p.windowRead r n = 0) ∧
    (p.phys.powered = true → p.sec.recovery = true → 0x1000 ≤ r → p.windowRead r n = 0) ∧
    (p.phys.powered = true → (p.windowRead 0 4).toNat % 2 ^ 16 = 9 ∧ (p.podsize < 256 → p.pkgid < 128 → p.windowRead 8 4 = BitVec.ofNat 64 (p.podsize * 256 + p.pkgid)) ∧
      (p.windowRead 32 4) = p.sec.fwver.setWidth 64 ∧ p.windowRead 36 4 = p.sec.secver.setWidth 64) ∧
    (on → let reads := fun (r : Nat) (x : W32) => p.windowRead r 4 = x.setWidth 64
      ((0x1024 ≤ r ∧ r < 0x2000) ∨ (0x2010 ≤ r ∧ r < 0x10000) ∨ (0x10800 ≤ r ∧ r < 0x20000) ∨ (0x20200 ≤ r ∧ r < 0x30000) ∨ (0x50014 ≤ r ∧ r < 0x100000) →
        p.windowRead r 4 = 0) ∧
      (∀ i, i < 4 → reads (0x1000 + 4 * i) (Config.featOff.extractLsb' (32 * i) 32) ∧ reads (0x1010 + 4 * i) (p.host.featReq.extractLsb' (32 * i) 32)) ∧
      reads 0x1020 (BitVec.ofNat 32 ((if p.host.featRej then 4 else 0) + if p.host.featDone then 2 else 0)) ∧ reads 0x2000 p.host.apctx ∧
      p.windowRead 0x2008 8 = p.host.apva ∧ p.windowRead 0x30000 8 = p.host.eqBase ∧ reads 0x30008 p.host.eqLog ∧ reads 0x3000C p.host.eqTail ∧
      reads 0x30010 p.host.eqHead ∧ reads 0x30014 p.host.eqLost ∧ reads 0x40000 p.phys.pcap ∧ reads 0x40004 p.phys.fclk ∧ reads 0x40008 p.phys.pstate ∧
      p.windowRead 0x50000 8 = p.host.cqBase ∧ reads 0x50008 p.host.cqLog ∧ reads 0x5000C p.host.cqTail ∧ reads 0x50010 p.host.cqHead ∧
      ∀ q, q < 64 → let d := p.lq q
        p.windowRead (0x10000 + 32 * q) 8 = d.base ∧ reads (0x10008 + 32 * q) (d.ctl &&& 0xFF#32) ∧ reads (0x1000C + 32 * q) d.tail ∧
        reads (0x10010 + 32 * q) d.head ∧ reads (0x10014 + 32 * q) d.ctx ∧ p.windowRead (0x10018 + 32 * q) 8 = 0) ∧
    (on →
      (∀ i, i < 4 → sets (0x1010 + 4 * i) (host { p.host with featReq := p.host.featReq &&& ~~~ (0xFFFFFFFF#128 <<< (32 * i)) ||| (lo.setWidth 128) <<< (32 * i) })) ∧
      sets 0x2000 (host { p.host with apctx := lo }) ∧ sets 0x30008 (host { p.host with eqLog := lo &&& 0x1F#32 }) ∧
      sets 0x30010 (host { p.host with eqHead := lo }) ∧
      After (.registerWrite k 0x2008 8 v) s (fun t => PackageIs s t k (host { p.host with apva := v &&& ~~~ 0xFFFF#64 })) ∧
      After (.registerWrite k 0x30000 8 v) s (fun t => PackageIs s t k (host { p.host with eqBase := v })) ∧
      sets 0x40000 (if 1500 ≤ lo.toNat ∧ lo.toNat ≤ 3000 then { p with phys := { p.phys with pcap := lo } } else p) ∧
      (∀ q, q < 64 → let d := p.lq q
        let lqIs := fun (off : Nat) (y : LQueue) => After (.registerWrite k (0x10000 + 32 * q + off) 4 v) s (fun t => PackageOnly s t k ∧
          ∀ j, (t.pkg k).lq j = if j = q then y else p.lq j)
        lqIs 0 { d with base := (d.base >>> 32) <<< 32 ||| lo.setWidth 64 } ∧ lqIs 4 { d with base := lo.setWidth 64 <<< 32 ||| (d.base.setWidth 32).setWidth 64 } ∧
        lqIs 8 { d with ctl := lo, err := false } ∧ lqIs 16 d ∧ lqIs 20 { d with ctx := lo } ∧
        (d.ctl.getLsbD 7 = false → (lo - d.head).toNat ≤ 2 ^ (d.ctl.toNat % 16) → (lo - d.tail).toNat ≤ 2 ^ (d.ctl.toNat % 16) → lqIs 12 { d with tail := lo })) ∧
      (let h := p.host
       let size := 2 ^ (h.cqLog.toNat % 16)
       let fits := (lo - h.cqHead).toNat ≤ size ∧ (lo - h.cqTail).toNat ≤ size
       (¬ fits → After (.hostCommandDoorbell k lo) s (fun t => PackageOnly s t k ∧ (t.pkg k).host.cqTail = h.cqTail ∧ EventWritten s t k 0x4D 6 64)) ∧
       (fits → (h.cqBase = 0 ∨ h.cqHead = lo ∨ p.hostChange = true ∨ { h with cqTail := lo }.cqBad = none) →
         After (.hostCommandDoorbell k lo) s (fun t => PackageIs s t k (host { h with cqTail := lo }))) ∧
       (fits → h.cqBase ≠ 0 → lo = h.cqHead + 1 → p.hostChange = false →
         ∀ e, h.cqBad = some e → After (.hostCommandDoorbell k lo) s (fun t => PackageOnly s t k ∧ (t.pkg k).host.cqHead = h.cqHead + 1 ∧
           leNat (memGets (t.pkg k).host.hostMem (h.cqBase.toNat + 64 * (h.cqHead.toNat % size) + 8) 8) = 2 ^ 63 + e.toNat))))

/-! ### Host commands (R311, R313, R315, R429 to R431) -/

/-- R429 to R431: a command acts when the one before it is done, and one that names a context the package lacks answers 3. CTXNEW,
CTXENTRY, CTXEVT set a context up, CTXSTOP stops it, CTXFREE removes it when it has stopped; PREEMPT begins a request and PREEND
reopens clusters; RESUME takes up a suspended wave. -/
def Obligations.ContextCommands : Prop :=
  ∀ (s : State) (k : Nat) (h : HArgs),
    let p := s.pkg k
    let answers := fun (i : Instr) (n : Nat) => After i s (fun t => AnsweredOnly s t k n)
    let known := h.ctx ≠ 0xFFFFFFFF ∧ flook p.ctxs h.ctx.toNat ≠ none
    (p.hostChange = true → ∀ i ∈ [Instr.ctxnew k h, .ctxentry k h, .ctxstop k h, .ctxfree k h, .ctxevt k h, .preempt k h, .preend k h, .resume k h,
      .planload k h, .reelload k h, .hndload k h, .fctlset k h, .masters k h, .vmdup k h, .vmsplit k h, .vmprot k h, .tlbinv k h],
      exec i s = .next s) ∧
    (p.hostChange = false →
      (¬ known → ∀ i ∈ [Instr.ctxentry k h, .ctxstop k h, .ctxfree k h, .ctxevt k h, .preempt k h, .preend k h, .resume k h,
        .planload k h, .reelload k h, .hndload k h, .vmdup k h, .vmsplit k h, .vmprot k h, .tlbinv k h], answers i 3) ∧
      (let legal := h.ctx ≠ 0xFFFFFFFF ∧ h.a0.toNat % 4096 = 0 ∧ h.a1.toNat % 32 = 0 ∧ h.a2.toNat % 16 = 0 ∧ h.a3.toNat % 256 = 0 ∧
         h.a0.toNat < 2 ^ 39 ∧ h.a1.toNat < 2 ^ 39 ∧ h.a2.toNat < 2 ^ 39 ∧ h.a3.toNat + h.a4.toNat ≤ 2 ^ 39 ∧ h.a5.toNat < 256
       (¬ legal → answers (.ctxnew k h) 2) ∧ (legal → known → answers (.ctxnew k h) 1) ∧
       (legal → ¬ known → After (.ctxnew k h) s (fun t => Answered s t k 0 ∧ PackageOnly s t k ∧
         (∀ c, c ≠ h.ctx.toNat → flook (t.pkg k).ctxs c = flook p.ctxs c) ∧
         ∃ y, flook (t.pkg k).ctxs h.ctx.toNat = some y ∧ y.root = h.a0 ∧ y.regions = h.a1 ∧ y.dups = h.a2 ∧ y.ptPool = h.a3 ∧ y.ptBytes = h.a4 ∧
           y.heap = h.a5.toNat ∧ y.stopped = false ∧ y.sysh = 0 ∧ y.saveh = 0 ∧ y.resth = 0 ∧ y.evBase = 0))) ∧
      ∀ c, h.ctx ≠ 0xFFFFFFFF → flook p.ctxs h.ctx.toNat = some c →
        let becomes := fun (i : Instr) (y : Ctx) => After i s (fun t => Answered s t k 0 ∧ PackageOnly s t k ∧
          (∀ d, d ≠ h.ctx.toNat → flook (t.pkg k).ctxs d = flook p.ctxs d) ∧ flook (t.pkg k).ctxs h.ctx.toNat = some y)
        let entry := fun (a : W64) => a = 0 ∨ (a.toNat % 12 = 0 ∧ ∃ l, s.devLeaf k h.ctx a = some l ∧ 2 ≤ pteState l ∧ pteSys l = true ∧ pteX l = true)
        (entry h.a0 → entry h.a1 → entry h.a2 → becomes (.ctxentry k h) { c with sysh := h.a0, saveh := h.a1, resth := h.a2 }) ∧
        (¬ (entry h.a0 ∧ entry h.a1 ∧ entry h.a2) → answers (.ctxentry k h) 2) ∧
        (c.stopped = true → answers (.ctxstop k h) 0) ∧
        (c.stopped = false → After (.ctxstop k h) s (fun t => Answered s t k 0 ∧ ContextStops s t k h.ctx)) ∧
        (c.stopped = false → answers (.ctxfree k h) 1) ∧
        (c.stopped = true → After (.ctxfree k h) s (fun t => Answered s t k 0 ∧ PackageOnly s t k ∧ flook (t.pkg k).ctxs h.ctx.toNat = none ∧
          (∀ d, d ≠ h.ctx.toNat → flook (t.pkg k).ctxs d = flook p.ctxs d) ∧ Untranslated t k h.ctx 0 (2 ^ 64))) ∧
        (¬ (h.a0.toNat % 8 = 0 ∧ h.a1.toNat % 8 = 0) → answers (.ctxevt k h) 2) ∧
        (h.a0.toNat % 8 = 0 → h.a1.toNat % 8 = 0 →
          becomes (.ctxevt k h) { c with evBase := h.a0, evBytes := if h.a0 = 0 then 0 else h.a1 }) ∧
        (let old := fget [] p.sched.preempts h.ctx.toNat
         let time := fun (v : W64) (hi : Nat) => v = 0 ∨ (1000 ≤ v.toNat ∧ v.toNat ≤ hi)
         let begun : Preempt := ⟨h.a0.setWidth 4, 0, .drain, p.fab.caltime.toNat + (if h.a1 = 0 then 50000 else h.a1.toNat),
           if h.a2 = 0 then 20000 else h.a2.toNat, 0, []⟩
         let legal := h.a0.toNat < 16 ∧ time h.a1 10000000 ∧ time h.a2 1000000
         let left := fun (r : Preempt) => r.mask &&& ~~~ r.openMask
         let busy := fun (r : Preempt) => r.stage = .drain ∧ s.onClusters k h.ctx (left r) ≠ []
         let requests := fun (t : State) (l : List Preempt) => fget [] (t.pkg k).sched.preempts h.ctx.toNat = l
         let opened := fun (r : Preempt) => { r with openMask := r.openMask ||| h.a0.setWidth 4 }
         let reported := fun (t : State) => p.host.cqTail = p.host.cqHead + 1 → EventRoom s k → (t.pkg k).host.eqTail = p.host.eqTail + 1
         (¬ legal → answers (.preempt k h) 2) ∧
         (legal → busy begun → (∀ r ∈ old, busy r) → After (.preempt k h) s (fun t => Answered s t k 0 ∧ PackageOnly s t k ∧ requests t (old ++ [begun]))) ∧
         (legal → ¬ busy begun → old = [] → After (.preempt k h) s (fun t => Answered s t k 0 ∧ (∃ r, requests t [r] ∧ r.stage = .over_) ∧ reported t)) ∧
         (16 ≤ h.a0.toNat → answers (.preend k h) 2) ∧
         (h.a0.toNat < 16 → flook p.sched.preempts h.ctx.toNat = none → answers (.preend k h) 0) ∧
         -- a drain left with no cluster ends; one left with no troupe has drained; an eviction runs on
         (∀ r, h.a0.toNat < 16 → old = [r] → let q := opened r
           After (.preend k h) s (fun t => Answered s t k 0 ∧ PackageOnly s t k ∧
             (r.stage = .drain → left q = 0 → requests t [] ∧ reported t) ∧ (r.stage = .drain → left q ≠ 0 → busy q → requests t [q]) ∧
             (r.stage = .drain → left q ≠ 0 → ¬ busy q → (∃ y, requests t [y] ∧ y.stage = .over_ ∧ y.openMask = q.openMask) ∧ reported t) ∧
             (r.stage = .evict → (∃ n ∈ r.troupes, (s.troupe n).st.onCore = true) → requests t [q]) ∧
             (r.stage = .over_ → requests t (if left q = 0 then [] else [q])))) ∧
         (∀ r1 r2, h.a0.toNat < 16 → old = [r1, r2] → busy (opened r1) → busy (opened r2) → left (opened r1) ≠ 0 → left (opened r2) ≠ 0 →
           After (.preend k h) s (fun t => Answered s t k 0 ∧ requests t [opened r1, opened r2]))) ∧
        (let wave := s.suspended k h.ctx h.a0.toNat (h.a1.toNat % 16) (h.a1.getLsbD 4)
         let legal := h.a0.toNat < 2 ^ 40 ∧ h.a1.toNat < 32
         (¬ legal → answers (.resume k h) 2) ∧ (legal → wave = none → answers (.resume k h) 1) ∧
         (∀ w, legal → wave = some w →
           (h.a2 = 0 → After (.resume k h) s (fun t => Answered s t k 0 ∧ (∀ v, v ≠ w → t.wave v = s.wave v) ∧
             t.wave w = { s.wave w with susp := false })) ∧
           (h.a2 ≠ 0 → s.devFetch k h.ctx h.a2 1024 = none → answers (.resume k h) 2) ∧
           (∀ bs, h.a2 ≠ 0 → s.devFetch k h.ctx h.a2 1024 = some bs →
             -- a reserved field or value of a record (R320)
             let bad := ∃ l, l < 32 ∧ (field bs (32 * l + 20) 4 / 4 % 2 ^ 23 ≠ 0 ∨ 4 < field bs (32 * l + 20) 4 / 2 ^ 29 ∨
               field bs (32 * l + 24) 4 / 2 ^ 5 ≠ 0 ∨ field bs (32 * l + 28) 4 ≠ 0)
             (bad → answers (.resume k h) 2) ∧
             (¬ bad → After (.resume k h) s (fun t => Answered s t k 0 ∧
             (∀ v, v ≠ w → t.wave v = s.wave v) ∧ (t.wave w).susp = false ∧
             ∀ l, l < 32 → let x := s.lane w l
               let pc := BitVec.ofNat 64 (field bs (32 * l) 8) &&& ~~~ 1#64
               let va := BitVec.ofNat 64 (field bs (32 * l + 8) 8)
               let y := { x with movedPc := x.movedPc || decide (pc ≠ x.trapPc), trapPc := pc, trapVa := va }
               t.lane w l = if x.st = .exit then x else { y with trapCause := BitVec.ofNat 32 (field bs (32 * l + 16) 4) }))))))

/-- R355, R357, R370, R379, R389, R431: the other commands. PLANLOAD waits behind its slot's outstanding runs; REELLOAD, HNDLOAD, FCTLSET and
MASTERS write what they name or answer 2; a change of the tables is begun as the matching instruction begins it. -/
def Obligations.DeviceCommands : Prop :=
  ∀ (s : State) (k : Nat) (h : HArgs),
    let p := s.pkg k
    let answers := fun (i : Instr) (n : Nat) => After i s (fun t => AnsweredOnly s t k n)
    p.hostChange = false →
      (2 ^ 32 ≤ h.a0.toNat → answers (.fctlset k h) 2) ∧
      (h.a0.toNat < 2 ^ 32 → After (.fctlset k h) s (fun t => Answered s t k 0 ∧
        PackageIs s t k { p with host := (t.pkg k).host, fab := { p.fab with fctl := h.a0.setWidth 32 &&& 0x60FFFFFF#32 } })) ∧
      (let named := (List.range 4).filterMap (fun i => let b := h.a0.toNat / 2 ^ (8 * i) % 2 ^ 8; if 128 ≤ b then some (b - 128) else none)
       let legal := h.a0.toNat < 2 ^ 32 ∧ named ≠ [] ∧ ∀ q ∈ named, q < p.podsize
       (¬ legal → answers (.masters k h) 2) ∧
       (legal → After (.masters k h) s (fun t => Answered s t k 0 ∧ PackageOnly s t k ∧ (t.pkg k).fab.masters = named))) ∧
      ∀ c, h.ctx ≠ 0xFFFFFFFF → flook p.ctxs h.ctx.toNat = some c →
        (let slot := h.a0.toNat
         (256 ≤ slot → answers (.planload k h) 2) ∧
         (slot < 256 → (∃ r ∈ p.openRuns, r.plan = slot) → After (.planload k h) s (fun t =>
           PackageIs s t k { p with coll := { p.coll with loading := (t.pkg k).coll.loading } } ∧ slot ∈ (t.pkg k).coll.loading)) ∧
         (slot < 256 → (∀ r ∈ p.openRuns, r.plan ≠ slot) → s.devFetch k h.ctx h.a1 32 = none → After (.planload k h) s (fun t =>
           Answered s t k 2 ∧ (t.pkg k).coll.plans = p.coll.plans)) ∧
         (∀ hd bs, slot < 256 → (∀ r ∈ p.openRuns, r.plan ≠ slot) → s.devFetch k h.ctx h.a1 32 = some hd →
           let n := (leNat (hd.take 8)) % 2 ^ 13
           s.devFetch k h.ctx (h.a1 + 32) (32 * max n 1) = some bs →
           (planOf p.pkgid p.podsize hd bs = none → After (.planload k h) s (fun t => Answered s t k 2 ∧ (t.pkg k).coll.plans = p.coll.plans)) ∧
           ∀ pl, planOf p.pkgid p.podsize hd bs = some pl → p.planFits slot n = true → After (.planload k h) s (fun t => Answered s t k 0 ∧
             ∀ i, flook (t.pkg k).coll.plans i = if i = slot then some pl else flook p.coll.plans i))) ∧
        (let first := h.a1.toNat % 2 ^ 10
         let count := h.a1.toNat / 2 ^ 10 % 2 ^ 11
         let legal := h.a1.toNat < 2 ^ 21 ∧ count ≤ 1024
         (p.reel.st ≠ .idle → answers (.reelload k h) 1) ∧ (p.reel.st = .idle → ¬ legal → answers (.reelload k h) 2) ∧
         (p.reel.st = .idle → legal → s.devFetch k h.ctx h.a0 (320 + 64 * count) = none → answers (.reelload k h) 2) ∧
         (∀ bs, p.reel.st = .idle → legal → s.devFetch k h.ctx h.a0 (320 + 64 * count) = some bs → After (.reelload k h) s (fun t => Answered s t k 0 ∧
           PackageOnly s t k ∧ let r := (t.pkg k).reel
           r.owner = h.ctx ∧ r.st = .idle ∧ r.stbase = BitVec.ofNat 64 (field bs 0 8) ∧ r.gbuf0 = BitVec.ofNat 64 (field bs 16 8) ∧
           r.gbuf1 = BitVec.ofNat 64 (field bs 24 8) ∧ r.stsz = field bs 8 4 ∧ r.stn = field bs 12 4 % 2 ^ 7 ∧ r.idleIn = 0 ∧ r.idleRoom = 0 ∧ r.idleStash = 0 ∧
           (∀ i x, i < 8 → flook r.rings i = some x → x.slotb = BitVec.ofNat 64 (field bs (64 + 32 * i) 8) ∧ x.fillw = BitVec.ofNat 64 (field bs (80 + 32 * i) 8) ∧
             x.nslot = field bs (76 + 32 * i) 4 % 2 ^ 7) ∧
           ∀ i x, i < count → flook r.ents ((first + i) % 1024) = some x → x.kind = field bs (320 + 64 * i) 8 % 4 ∧
             x.lrec = BitVec.ofNat 64 (field bs (328 + 64 * i) 8)))) ∧
        (let legal := 16 ≤ h.a0.toNat ∧ h.a0.toNat ≤ 31 ∧ p.feat 9 = true
         let half := fun (bs : List Byte) (i : Nat) => field bs (2 * i) 2
         let good := fun (bs : List Byte) => ∀ i, i < 16 → half bs i / 2 ^ 11 < 24 ∧
           (half bs i / 2 ^ 11 = 18 ∨ half bs i / 2 ^ 11 = 19 ∨ half bs i / 2 ^ 11 = 20 ∨ half bs i % 4 = 0)
         (¬ legal ∨ s.devFetch k h.ctx h.a1 32 = none → answers (.hndload k h) 2) ∧
         (∀ bs, legal → s.devFetch k h.ctx h.a1 32 = some bs → bs.length = 32 →
           (¬ good bs → answers (.hndload k h) 2) ∧
           (good bs → After (.hndload k h) s (fun t => Answered s t k 0 ∧
             PackageIs s t k { p with host := (t.pkg k).host, fab := { p.fab with hnds := (t.pkg k).fab.hnds } } ∧
             ∀ j, flook (t.pkg k).fab.hnds j = if j = h.a0.toNat then some ((List.range 16).map (fun i => BitVec.ofNat 16 (half bs i))) else flook p.fab.hnds j)))) ∧
        (let asks := fun (i : Instr) (q : VmAsk) => match q with
           | .param => answers i 2
           | .wait => exec i s = .next s
           | .now n => answers i n
           | .begin_ s1 v => After i s (fun t => t.mem = s1.mem ∧ (t.pkg k).host = (s1.pkg k).host ∧
               (t.pkg k).vmch = (s1.pkg k).vmch ++ [{ v with id := s1.nextId, wid := none, d := none }])
         asks (.vmdup k h) (vmDup s k 0 h.ctx h.a0 (h.a2 ++ h.a1)) ∧ asks (.vmsplit k h) (vmSplit s k h.ctx h.a0) ∧
         asks (.vmprot k h) (if 8 ≤ h.a2.toNat ∨ 2 ^ 32 ≤ h.a1.toNat then .param else vmProt s k h.ctx h.a0 h.a1.toNat h.a2.toNat) ∧
         ((4 ≤ h.a2.toNat ∨ 2 ^ 32 ≤ h.a1.toNat) → answers (.tlbinv k h) 2) ∧
         (h.a2.toNat < 3 → h.a1.toNat < 2 ^ 32 → After (.tlbinv k h) s (fun t => t.mem = s.mem ∧
           Untranslated t k h.ctx (h.a0.toNat / 2 ^ 16 * 2 ^ 16) (h.a1.toNat * 2 ^ 16))))

/-! ### The machine as a whole -/

/-- What reset leaves (R418 to R420, R423, R427 to R429): no features fixed, no queue based, no measurement taken, no budget, the clock at 2,000
MHz under a cap of 3,000 W. No wave runs and memory lists nothing, which is the model's choice (log 2). -/
def Obligations.ResetState : Prop :=
  let s := State.reset
  let p := s.pkg 0
  let h := p.host
  (h.featReq = 0 ∧ h.featDone = false ∧ h.featRej = false) ∧
  (h.eqBase = 0 ∧ h.eqLog = 0 ∧ h.eqTail = 0 ∧ h.eqHead = 0 ∧ h.eqLost = 0) ∧
  (h.cqBase = 0 ∧ h.cqLog = 0 ∧ h.cqTail = 0 ∧ h.cqHead = 0) ∧
  (p.sec.booted = false ∧ p.sec.recovery = false ∧ ∀ n, fget 0 p.sec.mr n = 0) ∧
  (∀ c, (fget Pace.init p.phys.pace c).budget = 0 ∧ (fget Pace.init p.phys.pace c).next = 0) ∧
  (p.phys.pcap = 3000 ∧ p.phys.fclk = 2000 ∧ p.phys.pstate = 0) ∧
  s.waves = [] ∧ s.troupes = [] ∧ s.agenda = [] ∧ (∀ a, memGet s.mem a = 0) ∧ Memory.wf s.mem

/-- R20, R67 to R92, R304: a step does what is placed next; with nothing placed and nothing due it issues the selected wave's group. A path alone
whose group is one instruction executes it, with its lanes' stall counts begun, and then takes the stops that it noted; a packet's words that decode to an instruction
form such a group, which goes on behind them. -/
def Obligations.StepRunsDecoded : Prop :=
  ∀ (s : State),
    (∀ i rest, s.agenda = i :: rest → step s = exec i { s with agenda := rest }) ∧
    (∀ t, s.agenda = [] → s.due = some t → step s = .next t) ∧
    (s.agenda = [] → s.due = none → s.select = none → step s = .next s.tick) ∧
    (∀ w pc lanes i npc, s.agenda = [] → s.due = none →
      let r : Path × Group := (⟨pc, lanes⟩, .run [⟨i, pc⟩] npc)
      s.select = some (w, [r]) → s.mates w r = [] → (s.wave w).chk = false → s.eligible (s.wave w) = true → lanes ≠ 0 →
      let t := s.selected w [r]
      let issued := ({ t with cur := { Cur.init with wid := w, defer := true } }).issue w lanes lanes pc npc (stallOf i)
      step s = match exec i issued with | .next u => .next (u.takeNoted w) | o => o) ∧
    -- what a group has noted is taken as one stop when it has acted; with nothing noted only the note goes
    (∀ w, s.cur.stops = [] → s.takeNoted w = { s with cur := { s.cur with defer := false } }) ∧
    -- the others that a selected wave is fused with stand at its PC, in its quad and troupe, on slices that a quad has
    (∀ w r, Rising s.waves → (∀ c ∈ s.mates w r, c.wid ≠ w ∧ (s.wave c.wid).tid = (s.wave w).tid ∧ (s.wave c.wid).quad = (s.wave w).quad ∧ c.first.1.pc = r.1.pc) ∧
      slicesOf r.1.lanes + ((s.mates w r).map (fun c => slicesOf c.first.1.lanes)).sum ≤ 8) ∧
    (∀ w (pc : W64) (x y z : W32) i n, pc.toNat % 12 = 0 → s.fetchWord w pc = .word x → s.fetchWord w (pc + 4) = .word y →
      s.fetchWord w (pc + 8) = .word z → kindOf x ≠ .pairW → decodeInsn [x, y, z] = (.ok i, n) → i.operandFault (s.wave w).allot = none →
      (∀ f, i.feature = some f → (s.pkg (s.troupe (s.wave w).tid).pkg).feat f = true) → chainsOn i = false →
      (s.troupe (s.wave w).tid).dict = none → s.group w pc = .run [⟨i, pc⟩] (pc + BitVec.ofNat 64 (4 * n)))

/-- R67 to R76, R94 to R102: words written out from the encoding tables decode to the instructions they stand for. -/
def Obligations.WordsDecode : Prop :=
  decodeTableWord 32 (0b1111111_0000001_0000010_010010_00_0_00) =
    some (.iaddi ⟨none, none, 0, false⟩ 2 1 (-1)) ∧
  decodeTableWord 64 (0b00000000000101010101010101010_1_01 + 0b01010101010101_0001001_010100_00_0_00 * 2 ^ 32) =
    some (.movl ⟨none, some 0x2AAAA, 0, false⟩ 9 0x1555) ∧
  decodeTableWord 32 (0b0001011_0001010_1_100001_011011_00_0_00) =
    some (.icmpLtS ⟨none, none, 0, false⟩ true 33 10 11) ∧
  decodeTableWord 32 (0b0001101_0000110_0000100_101010_00_0_00) =
    some (.cvt ⟨none, none, 0, false⟩ .f64 .z32 4 6) ∧
  decodeTableWord 32 (0b1111111111111_1_0001001_101111_00_0_00) =
    some (.bra ⟨none, none, 0, false⟩ 0x1FFF true 9) ∧
  decodeTableWord 32 (0b1111111_0000110_0000100_110100_00_0_00) =
    some (.ldGB64 ⟨none, none, 0, false⟩ 0x7F 4 6) ∧
  decodeTableWord 64 (0b00000000000000000010000011001_1_01 + 0b0010010_0000110_0000100_111011_00_0_00 * 2 ^ 32) =
    some (.atom ⟨none, some 0x419, 0, false⟩ .inc false 4 6) ∧
  decodeTableWord 32 (0b0110101_0000110_0000100_111100_00_0_00) =
    some (.ratom ⟨none, none, 0, false⟩ true false true 4 6) ∧
  decodeTableWord 32 (0b0010010_0001000_0000100_111101_00_0_00) =
    some (.vmProt ⟨none, none, 0, false⟩ 4 8) ∧
  decodeTableWord 32 (0b01_000100000001_0000100_111110_00_0_00) =
    some (.csrw ⟨none, none, 0, false⟩ 0x101 4) ∧
  decodeTableWord 64 (0b0000000_0_1_0001001_1_001_1_1_1000110_0_01 + 0b0000111_0000110_0000101_100000_00_0_00 * 2 ^ 32) =
    some (.ffmaF32 ⟨some ⟨false, true, 9, true, 1, true, true, 70⟩, none, 0, false⟩ 5 6 7) ∧
  decodeTableWord 32 0b0000000_0000000_0000000_101100_00_0_00 = none ∧ decodeTableWord 32 0b0000000_0000000_0000000_000000_00_0_11 = none

/-- R67 to R103: an instruction that is well formed is what its words decode to, whatever follows them; and the words that decode to an
instruction are the ones that encode it. -/
def Obligations.EncodingIsExact : Prop :=
  (∀ (i : Instr) (ws : List W32), i.mods.isSome = true → i.wf = true → decodeInsn (encode i ++ ws) = (.ok i, (encode i).length) ∧
    1 ≤ (encode i).length ∧ (encode i).length ≤ 3) ∧
  (∀ (ws : List W32) (i : Instr) (n : Nat), decodeInsn ws = (.ok i, n) → i.mods.isSome = true ∧ i.wf = true ∧ encode i = ws.take n)

/-- Every step of every state keeps the memory of the pod, and of each host, in its canonical form. -/
def Obligations.StepKeepsMemory : Prop :=
  Kept (fun s => Memory.wf s.mem ∧ ∀ k, Memory.wf (s.pkg k).host.hostMem)

/-- Every instruction and every event answers a next state, and so does every step: the spec gives each an effect on every state. -/
def Obligations.EveryStepGoesOn : Prop :=
  (∀ (i : Instr) (s : State), ∃ t, exec i s = .next t) ∧ ∀ s : State, ∃ t, step s = .next t

/-! ### Claims that stand together -/

/-- SumsAndProducts and WideProducts together. -/
def Obligations.IntegerSums : Prop := Claims.SumsAndProducts ∧ Claims.WideProducts

/-- OrderedChoices, LogicBits and CountedBits together. -/
def Obligations.ChoicesAndLogic : Prop := Claims.OrderedChoices ∧ Claims.LogicBits ∧ Claims.CountedBits

/-- ShiftedBits and FieldsAndBytes together. -/
def Obligations.ShiftsAndBytes : Prop := Claims.ShiftedBits ∧ Claims.FieldsAndBytes

/-- MovesAndAddresses and PredicateResults together. -/
def Obligations.MovesAndPredicates : Prop := Claims.MovesAndAddresses ∧ Claims.PredicateResults

/-- FloatArithmetic and PackedDotProduct together. -/
def Obligations.FloatSums : Prop := Claims.FloatArithmetic ∧ Claims.PackedDotProduct

/-- FloatChoicesAndSigns, FloatExponents and FloatComparisons together. -/
def Obligations.FloatChoices : Prop := Claims.FloatChoicesAndSigns ∧ Claims.FloatExponents ∧ Claims.FloatComparisons

/-- CrossLaneReads and ReductionsAndScans together. -/
def Obligations.CrossLane : Prop := Claims.CrossLaneReads ∧ Claims.ReductionsAndScans

/-- ConditionalBranches, RegisterBranches and BadTargetsStop together. -/
def Obligations.Branches : Prop := Claims.ConditionalBranches ∧ Claims.RegisterBranches ∧ Claims.BadTargetsStop

/-- WaitsOfAWave and CountsExpire together. -/
def Obligations.WaitsOfLanes : Prop := Claims.WaitsOfAWave ∧ Claims.CountsExpire

/-- RejoinSets and RejoinWait together. -/
def Obligations.Rejoining : Prop := Claims.RejoinSets ∧ Claims.RejoinWait

/-- HandlerEntry and TrapReturn together. -/
def Obligations.TrapHandlers : Prop := Claims.HandlerEntry ∧ Claims.TrapReturn

/-- ResultsLand and WritesPerform together. -/
def Obligations.ResultsAndWritesLand : Prop := Claims.ResultsLand ∧ Claims.WritesPerform

/-- Loads and ConstantsAndPrefetch together. -/
def Obligations.LoadsAndConstants : Prop := Claims.Loads ∧ Claims.ConstantsAndPrefetch

/-- HeapBlocks and PageChanges together. -/
def Obligations.HeapAndPages : Prop := Claims.HeapBlocks ∧ Claims.PageChanges

/-- EngineCommands and EngineWork together. -/
def Obligations.CopyEngines : Prop := Claims.EngineCommands ∧ Claims.EngineWork

/-- ArrayCommands and ArrayWork together. -/
def Obligations.MatrixArray : Prop := Claims.ArrayCommands ∧ Claims.ArrayWork

/-- RemoteOperations and Tokens together. -/
def Obligations.RemoteAndTokens : Prop := Claims.RemoteOperations ∧ Claims.Tokens

/-- StoresAndLoadsAtHome and AtomicHandlers together. -/
def Obligations.PacketsAtHome : Prop := Claims.StoresAndLoadsAtHome ∧ Claims.AtomicHandlers

/-- Replies and HeldPackets together. -/
def Obligations.RepliesAndHolds : Prop := Claims.Replies ∧ Claims.HeldPackets

/-- NoticesAct and HoldsExpire together. -/
def Obligations.NoticesAndExpiry : Prop := Claims.NoticesAct ∧ Claims.HoldsExpire

/-- TheCalendar and CalendarFaults together. -/
def Obligations.CalendarAndPorts : Prop := Claims.TheCalendar ∧ Claims.CalendarFaults

/-- CollectiveCommands and CollectiveWork together. -/
def Obligations.Collectives : Prop := Claims.CollectiveCommands ∧ Claims.CollectiveWork

/-- EndsOfWaits and EventWords together. -/
def Obligations.EventsAndWaits : Prop := Claims.EndsOfWaits ∧ Claims.EventWords

/-- PartnerQueues and RegisterAllotment together. -/
def Obligations.PartnersAndRegisters : Prop := Claims.PartnerQueues ∧ Claims.RegisterAllotment

/-- TroupeBarrier and CorpsBarrier together. -/
def Obligations.Barriers : Prop := Claims.TroupeBarrier ∧ Claims.CorpsBarrier

/-- Deterministic and Markers together. -/
def Obligations.DeterminismAndRecords : Prop := Claims.Deterministic ∧ Claims.Markers
end
end

