-- ==== Sys2Proof/Laws/Map.lean ====
section
/-! SUPPORT. Laws of the sparse maps: what a read finds after each change, and that the changes keep the canonical
form. -/

namespace Sys2Proof

variable {α : Type}

@[simp] theorem fget_nil (d : α) (k : Nat) : fget d [] k = d := rfl

@[simp] theorem fget_fput_self (d : α) (m : FMap α) (k : Nat) (v : α) : fget d (fput m k v) k = v := by
  induction m with
  | nil => simp [fput, fget]
  | cons e m ih =>
    obtain ⟨j, x⟩ := e
    simp only [fput]
    split
    · simp [fget]
    · split
      · simp [fget]
      · next h => simp [fget, Ne.symm h, ih]

theorem fget_fput_ne (d : α) (m : FMap α) {k j : Nat} (v : α) (h : j ≠ k) :
    fget d (fput m k v) j = fget d m j := by
  induction m with
  | nil => simp [fput, fget, Ne.symm h]
  | cons e m ih =>
    obtain ⟨i, x⟩ := e
    simp only [fput]
    split
    · simp [fget, Ne.symm h]
    · split
      · next hk => subst hk; simp [fget, Ne.symm h]
      · simp [fget, ih]

/-- Reading after a write. -/
theorem fget_fput (d : α) (m : FMap α) (k j : Nat) (v : α) :
    fget d (fput m k v) j = if j = k then v else fget d m j := by
  split
  · next h => subst h; simp
  · next h => exact fget_fput_ne d m v h

theorem fget_fdel_self (d : α) (m : FMap α) (k : Nat) : fget d (fdel m k) k = d := by
  induction m with
  | nil => rfl
  | cons e m ih =>
    obtain ⟨j, x⟩ := e
    by_cases h : j = k
    · simpa [fdel, List.filter_cons, h] using ih
    · simpa [fdel, List.filter_cons, h, fget] using ih

theorem fget_fdel_ne (d : α) (m : FMap α) {k j : Nat} (h : j ≠ k) : fget d (fdel m k) j = fget d m j := by
  induction m with
  | nil => rfl
  | cons e m ih =>
    obtain ⟨i, x⟩ := e
    by_cases hk : i = k
    · subst hk; simpa [fdel, List.filter_cons, fget, Ne.symm h] using ih
    · by_cases hj : i = j
      · simp [fdel, hk, fget, hj, h]
      · simpa [fdel, List.filter_cons, hk, fget, hj] using ih

theorem fget_fdel (d : α) (m : FMap α) (k j : Nat) :
    fget d (fdel m k) j = if j = k then d else fget d m j := by
  split
  · next h => subst h; exact fget_fdel_self d m j
  · next h => exact fget_fdel_ne d m h

/-- Reading after a write to a map that does not list the value of its unlisted keys. -/
theorem fget_fset [DecidableEq α] (d : α) (m : FMap α) (k j : Nat) (v : α) :
    fget d (fset d m k v) j = if j = k then v else fget d m j := by
  unfold fset
  split
  · next h => rw [fget_fdel, h]
  · exact fget_fput d m k j v

theorem fget_of_flook_some {d : α} {m : FMap α} {k : Nat} {v : α} (h : flook m k = some v) : fget d m k = v := by
  induction m with
  | nil => simp [flook] at h
  | cons e m ih =>
    obtain ⟨j, x⟩ := e
    by_cases hj : j = k <;> simp_all [flook, fget]

theorem flook_fput (m : FMap α) (k j : Nat) (v : α) : flook (fput m k v) j = if j = k then some v else flook m j := by
  induction m with
  | nil => by_cases h : k = j <;> simp [fput, flook, h, eq_comm (a := j)]
  | cons e m ih =>
    obtain ⟨i, x⟩ := e
    simp only [fput]
    split
    · by_cases h : k = j <;> simp [flook, h, eq_comm (a := j)]
    · split
      · next hk => subst hk; by_cases h : k = j <;> simp [flook, h, eq_comm (a := j)]
      · next hk =>
        by_cases h : j = k
        · subst h; simpa [flook, Ne.symm hk] using ih
        · simp only [flook, ih, if_neg h]

theorem flook_fmod (m : FMap α) (k j : Nat) (f : α → α) :
    flook (fmod m k f) j = if j = k then (flook m j).map f else flook m j := by
  induction m with
  | nil => simp [fmod, flook]
  | cons e m ih =>
    obtain ⟨i, x⟩ := e
    simp only [fmod, List.map_cons] at ih ⊢
    by_cases hi : i = k <;> by_cases hj : i = j <;> by_cases hk : j = k <;> simp_all [flook]

theorem flook_fall (m : FMap α) (j : Nat) (f : Nat → α → α) : flook (fall m f) j = (flook m j).map (f j) := by
  induction m with
  | nil => rfl
  | cons e m ih =>
    obtain ⟨i, x⟩ := e
    by_cases h : i = j
    · subst h; simp [fall, flook]
    · simpa [fall, flook, h] using ih

theorem fget_eq_flook (d : α) (m : FMap α) (k : Nat) : fget d m k = (flook m k).getD d := by
  induction m with
  | nil => rfl
  | cons e m ih =>
    obtain ⟨j, x⟩ := e
    by_cases h : j = k <;> simp [fget, flook, h, ih]

theorem fget_fmod (d : α) (m : FMap α) (k j : Nat) (f : α → α) :
    fget d (fmod m k f) j = if j = k then ((flook m j).map f).getD d else fget d m j := by
  simp only [fget_eq_flook, flook_fmod]; split <;> rfl

theorem fget_fall (d : α) (m : FMap α) (j : Nat) (f : Nat → α → α) :
    fget d (fall m f) j = ((flook m j).map (f j)).getD d := by
  rw [fget_eq_flook, flook_fall]

/-! ### The canonical form -/

theorem FWf.nil (d : α) : FWf d [] := ⟨List.Pairwise.nil, by simp⟩

theorem mem_fput {m : FMap α} {k : Nat} {v : α} {e : Nat × α} (h : e ∈ fput m k v) : e = (k, v) ∨ e ∈ m := by
  induction m with
  | nil => simpa [fput] using h
  | cons x m ih =>
    obtain ⟨j, y⟩ := x
    simp only [fput] at h
    split at h
    · simpa using h
    · split at h
      · rcases List.mem_cons.1 h with h | h
        · exact .inl h
        · exact .inr (List.mem_cons_of_mem _ h)
      · rcases List.mem_cons.1 h with h | h
        · exact .inr (h ▸ List.mem_cons_self ..)
        · exact (ih h).imp id (List.mem_cons_of_mem _)

theorem pairwise_fput {m : FMap α} (k : Nat) (v : α) (h : m.Pairwise (fun x y => x.1 < y.1)) :
    (fput m k v).Pairwise (fun x y => x.1 < y.1) := by
  induction m with
  | nil => simp [fput]
  | cons x m ih =>
    obtain ⟨j, y⟩ := x
    obtain ⟨hx, hm⟩ := List.pairwise_cons.1 h
    simp only [fput]
    split
    · next hk =>
      refine List.pairwise_cons.2 ⟨fun e he => ?_, h⟩
      rcases List.mem_cons.1 he with rfl | he
      · exact hk
      · exact Nat.lt_trans hk (hx e he)
    · split
      · next hk => subst hk; exact List.pairwise_cons.2 ⟨hx, hm⟩
      · next h1 h2 =>
        refine List.pairwise_cons.2 ⟨fun e he => ?_, ih hm⟩
        rcases mem_fput he with rfl | he
        · exact Nat.lt_of_le_of_ne (Nat.le_of_not_lt h1) (Ne.symm h2)
        · exact hx e he

theorem FWf.fdel {d : α} {m : FMap α} (h : FWf d m) (k : Nat) : FWf d (fdel m k) :=
  ⟨h.1.sublist List.filter_sublist, fun e he => h.2 e (List.mem_filter.1 he).1⟩

theorem FWf.fput {d : α} {m : FMap α} (h : FWf d m) (k : Nat) {v : α} (hv : v ≠ d) : FWf d (fput m k v) :=
  ⟨pairwise_fput k v h.1, fun e he => by
    rcases mem_fput he with rfl | he
    · exact hv
    · exact h.2 e he⟩

/-- Writing keeps the canonical form. -/
theorem FWf.fset [DecidableEq α] {d : α} {m : FMap α} (h : FWf d m) (k : Nat) (v : α) : FWf d (fset d m k v) := by
  unfold Sys2Proof.fset
  split
  · exact h.fdel k
  · next hv => exact h.fput k hv

/-- Two canonical maps that read the same are the same. -/
theorem FWf.ext {d : α} {m n : FMap α} (hm : FWf d m) (hn : FWf d n) (h : ∀ k, fget d m k = fget d n k) : m = n := by
  induction m generalizing n with
  | nil =>
    cases n with
    | nil => rfl
    | cons y n => exact absurd (h y.1).symm (by simpa [fget] using hn.2 y (List.mem_cons_self ..))
  | cons x m ih =>
    cases n with
    | nil => exact absurd (h x.1) (by simpa [fget] using hm.2 x (List.mem_cons_self ..))
    | cons y n =>
      obtain ⟨hx, hm'⟩ := List.pairwise_cons.1 hm.1
      obtain ⟨hy, hn'⟩ := List.pairwise_cons.1 hn.1
      have above : ∀ {l : FMap α} {k : Nat}, (∀ e ∈ l, k < e.1) → fget d l k = d := by
        intro l k hl
        induction l with
        | nil => rfl
        | cons e l ihl =>
          have : e.1 ≠ k := Nat.ne_of_gt (hl e (List.mem_cons_self ..))
          simp [fget, this, ihl (fun e he => hl e (List.mem_cons_of_mem _ he))]
      have key : x.1 = y.1 := by
        rcases Nat.lt_trichotomy x.1 y.1 with hlt | heq | hgt
        · have h1 := h x.1
          rw [above (l := y :: n) (k := x.1) (by
            intro e he
            rcases List.mem_cons.1 he with rfl | he
            · exact hlt
            · exact Nat.lt_trans hlt (hy e he))] at h1
          exact absurd h1 (by simpa [fget] using hm.2 x (List.mem_cons_self ..))
        · exact heq
        · have h1 := h y.1
          rw [above (l := x :: m) (k := y.1) (by
            intro e he
            rcases List.mem_cons.1 he with rfl | he
            · exact hgt
            · exact Nat.lt_trans hgt (hx e he))] at h1
          exact absurd h1.symm (by simpa [fget] using hn.2 y (List.mem_cons_self ..))
      have hv : x.2 = y.2 := by simpa [fget, key] using h x.1
      have hxy : x = y := Prod.ext key hv
      subst hxy
      congr 1
      refine ih ⟨hm', fun e he => hm.2 e (List.mem_cons_of_mem _ he)⟩ ⟨hn', fun e he => hn.2 e (List.mem_cons_of_mem _ he)⟩ ?_
      intro k
      by_cases hk : x.1 = k
      · subst hk; rw [above hx, above hy]
      · simpa [fget, hk] using h k

/-! ### Sorting -/

theorem mem_sortIns {f : α → Nat} {x y : α} {l : List α} : y ∈ sortIns f x l ↔ y = x ∨ y ∈ l := by
  induction l with
  | nil => simp [sortIns]
  | cons z l ih =>
    simp only [sortIns]
    split
    · simp
    · simp only [List.mem_cons, ih]; tauto

@[simp] theorem mem_sortBy {f : α → Nat} {y : α} {l : List α} : y ∈ sortBy f l ↔ y ∈ l := by
  induction l with
  | nil => simp [sortBy]
  | cons z l ih =>
    show y ∈ sortIns f z (sortBy f l) ↔ _
    rw [mem_sortIns, ih]; simp

end Sys2Proof
end

