-- ==== Sys2Proof/Laws/State.lean ====
section
/-! SUPPORT. Laws of the state's updates: each update changes the one field it names, and reads find what was written. -/

namespace Sys2Proof.Machine

/-! `setPkg` -/

@[simp] theorem State.setPkg_cycle (s : State) (k : Nat) (p : Pkg) : (s.setPkg k p).cycle = s.cycle := rfl
@[simp] theorem State.setPkg_agenda (s : State) (k : Nat) (p : Pkg) : (s.setPkg k p).agenda = s.agenda := rfl
@[simp] theorem State.setPkg_cur (s : State) (k : Nat) (p : Pkg) : (s.setPkg k p).cur = s.cur := rfl
@[simp] theorem State.setPkg_mem (s : State) (k : Nat) (p : Pkg) : (s.setPkg k p).mem = s.mem := rfl
@[simp] theorem State.setPkg_writes (s : State) (k : Nat) (p : Pkg) : (s.setPkg k p).writes = s.writes := rfl
@[simp] theorem State.setPkg_relAt (s : State) (k : Nat) (p : Pkg) : (s.setPkg k p).relAt = s.relAt := rfl
@[simp] theorem State.setPkg_troupes (s : State) (k : Nat) (p : Pkg) : (s.setPkg k p).troupes = s.troupes := rfl
@[simp] theorem State.setPkg_waves (s : State) (k : Nat) (p : Pkg) : (s.setPkg k p).waves = s.waves := rfl
@[simp] theorem State.setPkg_corps (s : State) (k : Nat) (p : Pkg) : (s.setPkg k p).corps = s.corps := rfl
@[simp] theorem State.setPkg_wires (s : State) (k : Nat) (p : Pkg) : (s.setPkg k p).wires = s.wires := rfl
@[simp] theorem State.setPkg_walks (s : State) (k : Nat) (p : Pkg) : (s.setPkg k p).walks = s.walks := rfl
@[simp] theorem State.setPkg_arrImages (s : State) (k : Nat) (p : Pkg) : (s.setPkg k p).arrImages = s.arrImages := rfl
@[simp] theorem State.setPkg_nextId (s : State) (k : Nat) (p : Pkg) : (s.setPkg k p).nextId = s.nextId := rfl
@[simp] theorem State.setPkg_fresh (s : State) (k : Nat) (p : Pkg) : (s.setPkg k p).fresh = s.fresh := rfl

/-! `modPkg` -/

@[simp] theorem State.modPkg_cycle (s : State) (k : Nat) (f : Pkg → Pkg) : (s.modPkg k f).cycle = s.cycle := rfl
@[simp] theorem State.modPkg_agenda (s : State) (k : Nat) (f : Pkg → Pkg) : (s.modPkg k f).agenda = s.agenda := rfl
@[simp] theorem State.modPkg_cur (s : State) (k : Nat) (f : Pkg → Pkg) : (s.modPkg k f).cur = s.cur := rfl
@[simp] theorem State.modPkg_mem (s : State) (k : Nat) (f : Pkg → Pkg) : (s.modPkg k f).mem = s.mem := rfl
@[simp] theorem State.modPkg_writes (s : State) (k : Nat) (f : Pkg → Pkg) : (s.modPkg k f).writes = s.writes := rfl
@[simp] theorem State.modPkg_relAt (s : State) (k : Nat) (f : Pkg → Pkg) : (s.modPkg k f).relAt = s.relAt := rfl
@[simp] theorem State.modPkg_troupes (s : State) (k : Nat) (f : Pkg → Pkg) : (s.modPkg k f).troupes = s.troupes := rfl
@[simp] theorem State.modPkg_waves (s : State) (k : Nat) (f : Pkg → Pkg) : (s.modPkg k f).waves = s.waves := rfl
@[simp] theorem State.modPkg_corps (s : State) (k : Nat) (f : Pkg → Pkg) : (s.modPkg k f).corps = s.corps := rfl
@[simp] theorem State.modPkg_wires (s : State) (k : Nat) (f : Pkg → Pkg) : (s.modPkg k f).wires = s.wires := rfl
@[simp] theorem State.modPkg_walks (s : State) (k : Nat) (f : Pkg → Pkg) : (s.modPkg k f).walks = s.walks := rfl
@[simp] theorem State.modPkg_arrImages (s : State) (k : Nat) (f : Pkg → Pkg) : (s.modPkg k f).arrImages = s.arrImages := rfl
@[simp] theorem State.modPkg_nextId (s : State) (k : Nat) (f : Pkg → Pkg) : (s.modPkg k f).nextId = s.nextId := rfl
@[simp] theorem State.modPkg_fresh (s : State) (k : Nat) (f : Pkg → Pkg) : (s.modPkg k f).fresh = s.fresh := rfl

/-! `setWave` -/

@[simp] theorem State.setWave_cycle (s : State) (w : Nat) (v : Wave) : (s.setWave w v).cycle = s.cycle := rfl
@[simp] theorem State.setWave_agenda (s : State) (w : Nat) (v : Wave) : (s.setWave w v).agenda = s.agenda := rfl
@[simp] theorem State.setWave_cur (s : State) (w : Nat) (v : Wave) : (s.setWave w v).cur = s.cur := rfl
@[simp] theorem State.setWave_mem (s : State) (w : Nat) (v : Wave) : (s.setWave w v).mem = s.mem := rfl
@[simp] theorem State.setWave_writes (s : State) (w : Nat) (v : Wave) : (s.setWave w v).writes = s.writes := rfl
@[simp] theorem State.setWave_relAt (s : State) (w : Nat) (v : Wave) : (s.setWave w v).relAt = s.relAt := rfl
@[simp] theorem State.setWave_pkgs (s : State) (w : Nat) (v : Wave) : (s.setWave w v).pkgs = s.pkgs := rfl
@[simp] theorem State.setWave_troupes (s : State) (w : Nat) (v : Wave) : (s.setWave w v).troupes = s.troupes := rfl
@[simp] theorem State.setWave_corps (s : State) (w : Nat) (v : Wave) : (s.setWave w v).corps = s.corps := rfl
@[simp] theorem State.setWave_wires (s : State) (w : Nat) (v : Wave) : (s.setWave w v).wires = s.wires := rfl
@[simp] theorem State.setWave_walks (s : State) (w : Nat) (v : Wave) : (s.setWave w v).walks = s.walks := rfl
@[simp] theorem State.setWave_arrImages (s : State) (w : Nat) (v : Wave) : (s.setWave w v).arrImages = s.arrImages := rfl
@[simp] theorem State.setWave_nextId (s : State) (w : Nat) (v : Wave) : (s.setWave w v).nextId = s.nextId := rfl
@[simp] theorem State.setWave_fresh (s : State) (w : Nat) (v : Wave) : (s.setWave w v).fresh = s.fresh := rfl

/-! `modWave` -/

@[simp] theorem State.modWave_cycle (s : State) (w : Nat) (f : Wave → Wave) : (s.modWave w f).cycle = s.cycle := rfl
@[simp] theorem State.modWave_agenda (s : State) (w : Nat) (f : Wave → Wave) : (s.modWave w f).agenda = s.agenda := rfl
@[simp] theorem State.modWave_cur (s : State) (w : Nat) (f : Wave → Wave) : (s.modWave w f).cur = s.cur := rfl
@[simp] theorem State.modWave_mem (s : State) (w : Nat) (f : Wave → Wave) : (s.modWave w f).mem = s.mem := rfl
@[simp] theorem State.modWave_writes (s : State) (w : Nat) (f : Wave → Wave) : (s.modWave w f).writes = s.writes := rfl
@[simp] theorem State.modWave_relAt (s : State) (w : Nat) (f : Wave → Wave) : (s.modWave w f).relAt = s.relAt := rfl
@[simp] theorem State.modWave_pkgs (s : State) (w : Nat) (f : Wave → Wave) : (s.modWave w f).pkgs = s.pkgs := rfl
@[simp] theorem State.modWave_troupes (s : State) (w : Nat) (f : Wave → Wave) : (s.modWave w f).troupes = s.troupes := rfl
@[simp] theorem State.modWave_corps (s : State) (w : Nat) (f : Wave → Wave) : (s.modWave w f).corps = s.corps := rfl
@[simp] theorem State.modWave_wires (s : State) (w : Nat) (f : Wave → Wave) : (s.modWave w f).wires = s.wires := rfl
@[simp] theorem State.modWave_walks (s : State) (w : Nat) (f : Wave → Wave) : (s.modWave w f).walks = s.walks := rfl
@[simp] theorem State.modWave_arrImages (s : State) (w : Nat) (f : Wave → Wave) : (s.modWave w f).arrImages = s.arrImages := rfl
@[simp] theorem State.modWave_nextId (s : State) (w : Nat) (f : Wave → Wave) : (s.modWave w f).nextId = s.nextId := rfl
@[simp] theorem State.modWave_fresh (s : State) (w : Nat) (f : Wave → Wave) : (s.modWave w f).fresh = s.fresh := rfl

/-! `setTroupe` -/

@[simp] theorem State.setTroupe_cycle (s : State) (t : Nat) (v : Troupe) : (s.setTroupe t v).cycle = s.cycle := rfl
@[simp] theorem State.setTroupe_agenda (s : State) (t : Nat) (v : Troupe) : (s.setTroupe t v).agenda = s.agenda := rfl
@[simp] theorem State.setTroupe_cur (s : State) (t : Nat) (v : Troupe) : (s.setTroupe t v).cur = s.cur := rfl
@[simp] theorem State.setTroupe_mem (s : State) (t : Nat) (v : Troupe) : (s.setTroupe t v).mem = s.mem := rfl
@[simp] theorem State.setTroupe_writes (s : State) (t : Nat) (v : Troupe) : (s.setTroupe t v).writes = s.writes := rfl
@[simp] theorem State.setTroupe_relAt (s : State) (t : Nat) (v : Troupe) : (s.setTroupe t v).relAt = s.relAt := rfl
@[simp] theorem State.setTroupe_pkgs (s : State) (t : Nat) (v : Troupe) : (s.setTroupe t v).pkgs = s.pkgs := rfl
@[simp] theorem State.setTroupe_waves (s : State) (t : Nat) (v : Troupe) : (s.setTroupe t v).waves = s.waves := rfl
@[simp] theorem State.setTroupe_corps (s : State) (t : Nat) (v : Troupe) : (s.setTroupe t v).corps = s.corps := rfl
@[simp] theorem State.setTroupe_wires (s : State) (t : Nat) (v : Troupe) : (s.setTroupe t v).wires = s.wires := rfl
@[simp] theorem State.setTroupe_walks (s : State) (t : Nat) (v : Troupe) : (s.setTroupe t v).walks = s.walks := rfl
@[simp] theorem State.setTroupe_arrImages (s : State) (t : Nat) (v : Troupe) : (s.setTroupe t v).arrImages = s.arrImages := rfl
@[simp] theorem State.setTroupe_nextId (s : State) (t : Nat) (v : Troupe) : (s.setTroupe t v).nextId = s.nextId := rfl
@[simp] theorem State.setTroupe_fresh (s : State) (t : Nat) (v : Troupe) : (s.setTroupe t v).fresh = s.fresh := rfl

/-! `modTroupe` -/

@[simp] theorem State.modTroupe_cycle (s : State) (t : Nat) (f : Troupe → Troupe) : (s.modTroupe t f).cycle = s.cycle := rfl
@[simp] theorem State.modTroupe_agenda (s : State) (t : Nat) (f : Troupe → Troupe) : (s.modTroupe t f).agenda = s.agenda := rfl
@[simp] theorem State.modTroupe_cur (s : State) (t : Nat) (f : Troupe → Troupe) : (s.modTroupe t f).cur = s.cur := rfl
@[simp] theorem State.modTroupe_mem (s : State) (t : Nat) (f : Troupe → Troupe) : (s.modTroupe t f).mem = s.mem := rfl
@[simp] theorem State.modTroupe_writes (s : State) (t : Nat) (f : Troupe → Troupe) : (s.modTroupe t f).writes = s.writes := rfl
@[simp] theorem State.modTroupe_relAt (s : State) (t : Nat) (f : Troupe → Troupe) : (s.modTroupe t f).relAt = s.relAt := rfl
@[simp] theorem State.modTroupe_pkgs (s : State) (t : Nat) (f : Troupe → Troupe) : (s.modTroupe t f).pkgs = s.pkgs := rfl
@[simp] theorem State.modTroupe_waves (s : State) (t : Nat) (f : Troupe → Troupe) : (s.modTroupe t f).waves = s.waves := rfl
@[simp] theorem State.modTroupe_corps (s : State) (t : Nat) (f : Troupe → Troupe) : (s.modTroupe t f).corps = s.corps := rfl
@[simp] theorem State.modTroupe_wires (s : State) (t : Nat) (f : Troupe → Troupe) : (s.modTroupe t f).wires = s.wires := rfl
@[simp] theorem State.modTroupe_walks (s : State) (t : Nat) (f : Troupe → Troupe) : (s.modTroupe t f).walks = s.walks := rfl
@[simp] theorem State.modTroupe_arrImages (s : State) (t : Nat) (f : Troupe → Troupe) : (s.modTroupe t f).arrImages = s.arrImages := rfl
@[simp] theorem State.modTroupe_nextId (s : State) (t : Nat) (f : Troupe → Troupe) : (s.modTroupe t f).nextId = s.nextId := rfl
@[simp] theorem State.modTroupe_fresh (s : State) (t : Nat) (f : Troupe → Troupe) : (s.modTroupe t f).fresh = s.fresh := rfl

/-! `modCore` -/

@[simp] theorem State.modCore_cycle (s : State) (k c : Nat) (f : Core → Core) : (s.modCore k c f).cycle = s.cycle := rfl
@[simp] theorem State.modCore_agenda (s : State) (k c : Nat) (f : Core → Core) : (s.modCore k c f).agenda = s.agenda := rfl
@[simp] theorem State.modCore_cur (s : State) (k c : Nat) (f : Core → Core) : (s.modCore k c f).cur = s.cur := rfl
@[simp] theorem State.modCore_mem (s : State) (k c : Nat) (f : Core → Core) : (s.modCore k c f).mem = s.mem := rfl
@[simp] theorem State.modCore_writes (s : State) (k c : Nat) (f : Core → Core) : (s.modCore k c f).writes = s.writes := rfl
@[simp] theorem State.modCore_relAt (s : State) (k c : Nat) (f : Core → Core) : (s.modCore k c f).relAt = s.relAt := rfl
@[simp] theorem State.modCore_troupes (s : State) (k c : Nat) (f : Core → Core) : (s.modCore k c f).troupes = s.troupes := rfl
@[simp] theorem State.modCore_waves (s : State) (k c : Nat) (f : Core → Core) : (s.modCore k c f).waves = s.waves := rfl
@[simp] theorem State.modCore_corps (s : State) (k c : Nat) (f : Core → Core) : (s.modCore k c f).corps = s.corps := rfl
@[simp] theorem State.modCore_wires (s : State) (k c : Nat) (f : Core → Core) : (s.modCore k c f).wires = s.wires := rfl
@[simp] theorem State.modCore_walks (s : State) (k c : Nat) (f : Core → Core) : (s.modCore k c f).walks = s.walks := rfl
@[simp] theorem State.modCore_arrImages (s : State) (k c : Nat) (f : Core → Core) : (s.modCore k c f).arrImages = s.arrImages := rfl
@[simp] theorem State.modCore_nextId (s : State) (k c : Nat) (f : Core → Core) : (s.modCore k c f).nextId = s.nextId := rfl
@[simp] theorem State.modCore_fresh (s : State) (k c : Nat) (f : Core → Core) : (s.modCore k c f).fresh = s.fresh := rfl

/-! `updLanes` -/

@[simp] theorem State.updLanes_cycle (s : State) (w : Nat) (ls : List Nat) (f : Nat → Lane → Lane) : (s.updLanes w ls f).cycle = s.cycle := rfl
@[simp] theorem State.updLanes_agenda (s : State) (w : Nat) (ls : List Nat) (f : Nat → Lane → Lane) : (s.updLanes w ls f).agenda = s.agenda := rfl
@[simp] theorem State.updLanes_cur (s : State) (w : Nat) (ls : List Nat) (f : Nat → Lane → Lane) : (s.updLanes w ls f).cur = s.cur := rfl
@[simp] theorem State.updLanes_mem (s : State) (w : Nat) (ls : List Nat) (f : Nat → Lane → Lane) : (s.updLanes w ls f).mem = s.mem := rfl
@[simp] theorem State.updLanes_writes (s : State) (w : Nat) (ls : List Nat) (f : Nat → Lane → Lane) : (s.updLanes w ls f).writes = s.writes := rfl
@[simp] theorem State.updLanes_relAt (s : State) (w : Nat) (ls : List Nat) (f : Nat → Lane → Lane) : (s.updLanes w ls f).relAt = s.relAt := rfl
@[simp] theorem State.updLanes_pkgs (s : State) (w : Nat) (ls : List Nat) (f : Nat → Lane → Lane) : (s.updLanes w ls f).pkgs = s.pkgs := rfl
@[simp] theorem State.updLanes_troupes (s : State) (w : Nat) (ls : List Nat) (f : Nat → Lane → Lane) : (s.updLanes w ls f).troupes = s.troupes := rfl
@[simp] theorem State.updLanes_corps (s : State) (w : Nat) (ls : List Nat) (f : Nat → Lane → Lane) : (s.updLanes w ls f).corps = s.corps := rfl
@[simp] theorem State.updLanes_wires (s : State) (w : Nat) (ls : List Nat) (f : Nat → Lane → Lane) : (s.updLanes w ls f).wires = s.wires := rfl
@[simp] theorem State.updLanes_walks (s : State) (w : Nat) (ls : List Nat) (f : Nat → Lane → Lane) : (s.updLanes w ls f).walks = s.walks := rfl
@[simp] theorem State.updLanes_arrImages (s : State) (w : Nat) (ls : List Nat) (f : Nat → Lane → Lane) : (s.updLanes w ls f).arrImages = s.arrImages := rfl
@[simp] theorem State.updLanes_nextId (s : State) (w : Nat) (ls : List Nat) (f : Nat → Lane → Lane) : (s.updLanes w ls f).nextId = s.nextId := rfl
@[simp] theorem State.updLanes_fresh (s : State) (w : Nat) (ls : List Nat) (f : Nat → Lane → Lane) : (s.updLanes w ls f).fresh = s.fresh := rfl

/-! `store` -/

@[simp] theorem State.store_cycle (s : State) (a : Nat) (bs : List Byte) : (s.store a bs).cycle = s.cycle := rfl
@[simp] theorem State.store_agenda (s : State) (a : Nat) (bs : List Byte) : (s.store a bs).agenda = s.agenda := rfl
@[simp] theorem State.store_cur (s : State) (a : Nat) (bs : List Byte) : (s.store a bs).cur = s.cur := rfl
@[simp] theorem State.store_writes (s : State) (a : Nat) (bs : List Byte) : (s.store a bs).writes = s.writes := rfl
@[simp] theorem State.store_troupes (s : State) (a : Nat) (bs : List Byte) : (s.store a bs).troupes = s.troupes := rfl
@[simp] theorem State.store_waves (s : State) (a : Nat) (bs : List Byte) : (s.store a bs).waves = s.waves := rfl
@[simp] theorem State.store_corps (s : State) (a : Nat) (bs : List Byte) : (s.store a bs).corps = s.corps := rfl
@[simp] theorem State.store_wires (s : State) (a : Nat) (bs : List Byte) : (s.store a bs).wires = s.wires := rfl
@[simp] theorem State.store_walks (s : State) (a : Nat) (bs : List Byte) : (s.store a bs).walks = s.walks := rfl
@[simp] theorem State.store_arrImages (s : State) (a : Nat) (bs : List Byte) : (s.store a bs).arrImages = s.arrImages := rfl
@[simp] theorem State.store_nextId (s : State) (a : Nat) (bs : List Byte) : (s.store a bs).nextId = s.nextId := rfl
@[simp] theorem State.store_fresh (s : State) (a : Nat) (bs : List Byte) : (s.store a bs).fresh = s.fresh := rfl

/-! `advance` -/

@[simp] theorem State.advance_cycle (s : State) (st : List StopRec) : (s.advance st).cycle = s.cycle := rfl
@[simp] theorem State.advance_agenda (s : State) (st : List StopRec) : (s.advance st).agenda = s.agenda := rfl
@[simp] theorem State.advance_cur (s : State) (st : List StopRec) : (s.advance st).cur = s.cur := rfl
@[simp] theorem State.advance_mem (s : State) (st : List StopRec) : (s.advance st).mem = s.mem := rfl
@[simp] theorem State.advance_writes (s : State) (st : List StopRec) : (s.advance st).writes = s.writes := rfl
@[simp] theorem State.advance_relAt (s : State) (st : List StopRec) : (s.advance st).relAt = s.relAt := rfl
@[simp] theorem State.advance_pkgs (s : State) (st : List StopRec) : (s.advance st).pkgs = s.pkgs := rfl
@[simp] theorem State.advance_troupes (s : State) (st : List StopRec) : (s.advance st).troupes = s.troupes := rfl
@[simp] theorem State.advance_corps (s : State) (st : List StopRec) : (s.advance st).corps = s.corps := rfl
@[simp] theorem State.advance_wires (s : State) (st : List StopRec) : (s.advance st).wires = s.wires := rfl
@[simp] theorem State.advance_walks (s : State) (st : List StopRec) : (s.advance st).walks = s.walks := rfl
@[simp] theorem State.advance_arrImages (s : State) (st : List StopRec) : (s.advance st).arrImages = s.arrImages := rfl
@[simp] theorem State.advance_nextId (s : State) (st : List StopRec) : (s.advance st).nextId = s.nextId := rfl
@[simp] theorem State.advance_fresh (s : State) (st : List StopRec) : (s.advance st).fresh = s.fresh := rfl

/-! ### Packages, waves and troupes after an update -/

theorem State.pkg_setPkg (s : State) (k q : Nat) (p : Pkg) : (s.setPkg k p).pkg q = if q = k then p else s.pkg q :=
  fget_fput _ _ _ _ _
@[simp] theorem State.pkg_setPkg_self (s : State) (k : Nat) (p : Pkg) : (s.setPkg k p).pkg k = p := fget_fput_self _ _ _ _
theorem State.pkg_modPkg (s : State) (k q : Nat) (f : Pkg → Pkg) :
    (s.modPkg k f).pkg q = if q = k then f (s.pkg k) else s.pkg q := fget_fput _ _ _ _ _
@[simp] theorem State.pkg_modPkg_self (s : State) (k : Nat) (f : Pkg → Pkg) : (s.modPkg k f).pkg k = f (s.pkg k) :=
  fget_fput_self _ _ _ _
theorem State.wave_setWave (s : State) (w x : Nat) (v : Wave) : (s.setWave w v).wave x = if x = w then v else s.wave x :=
  fget_fput _ _ _ _ _
@[simp] theorem State.wave_setWave_self (s : State) (w : Nat) (v : Wave) : (s.setWave w v).wave w = v := fget_fput_self _ _ _ _
theorem State.wave_modWave (s : State) (w x : Nat) (f : Wave → Wave) :
    (s.modWave w f).wave x = if x = w then f (s.wave w) else s.wave x := fget_fput _ _ _ _ _
@[simp] theorem State.wave_modWave_self (s : State) (w : Nat) (f : Wave → Wave) : (s.modWave w f).wave w = f (s.wave w) :=
  fget_fput_self _ _ _ _
theorem State.troupe_setTroupe (s : State) (t x : Nat) (v : Troupe) :
    (s.setTroupe t v).troupe x = if x = t then v else s.troupe x := fget_fput _ _ _ _ _
@[simp] theorem State.troupe_setTroupe_self (s : State) (t : Nat) (v : Troupe) : (s.setTroupe t v).troupe t = v :=
  fget_fput_self _ _ _ _
theorem State.troupe_modTroupe (s : State) (t x : Nat) (f : Troupe → Troupe) :
    (s.modTroupe t f).troupe x = if x = t then f (s.troupe t) else s.troupe x := fget_fput _ _ _ _ _
@[simp] theorem State.troupe_modTroupe_self (s : State) (t : Nat) (f : Troupe → Troupe) :
    (s.modTroupe t f).troupe t = f (s.troupe t) := fget_fput_self _ _ _ _

@[simp] theorem State.pkg_setWave (s : State) (w : Nat) (v : Wave) (x : Nat) : (s.setWave w v).pkg x = s.pkg x := rfl
@[simp] theorem State.pkg_modWave (s : State) (w : Nat) (f : Wave → Wave) (x : Nat) : (s.modWave w f).pkg x = s.pkg x := rfl
@[simp] theorem State.pkg_setTroupe (s : State) (t : Nat) (v : Troupe) (x : Nat) : (s.setTroupe t v).pkg x = s.pkg x := rfl
@[simp] theorem State.pkg_modTroupe (s : State) (t : Nat) (f : Troupe → Troupe) (x : Nat) : (s.modTroupe t f).pkg x = s.pkg x := rfl
@[simp] theorem State.pkg_updLanes (s : State) (w : Nat) (ls : List Nat) (f : Nat → Lane → Lane) (x : Nat) : (s.updLanes w ls f).pkg x = s.pkg x := rfl
@[simp] theorem State.pkg_advance (s : State) (st : List StopRec) (x : Nat) : (s.advance st).pkg x = s.pkg x := rfl
@[simp] theorem State.wave_setPkg (s : State) (k : Nat) (p : Pkg) (x : Nat) : (s.setPkg k p).wave x = s.wave x := rfl
@[simp] theorem State.wave_modPkg (s : State) (k : Nat) (f : Pkg → Pkg) (x : Nat) : (s.modPkg k f).wave x = s.wave x := rfl
@[simp] theorem State.wave_setTroupe (s : State) (t : Nat) (v : Troupe) (x : Nat) : (s.setTroupe t v).wave x = s.wave x := rfl
@[simp] theorem State.wave_modTroupe (s : State) (t : Nat) (f : Troupe → Troupe) (x : Nat) : (s.modTroupe t f).wave x = s.wave x := rfl
@[simp] theorem State.wave_modCore (s : State) (k c : Nat) (f : Core → Core) (x : Nat) : (s.modCore k c f).wave x = s.wave x := rfl
@[simp] theorem State.troupe_setPkg (s : State) (k : Nat) (p : Pkg) (x : Nat) : (s.setPkg k p).troupe x = s.troupe x := rfl
@[simp] theorem State.troupe_modPkg (s : State) (k : Nat) (f : Pkg → Pkg) (x : Nat) : (s.modPkg k f).troupe x = s.troupe x := rfl
@[simp] theorem State.troupe_setWave (s : State) (w : Nat) (v : Wave) (x : Nat) : (s.setWave w v).troupe x = s.troupe x := rfl
@[simp] theorem State.troupe_modWave (s : State) (w : Nat) (f : Wave → Wave) (x : Nat) : (s.modWave w f).troupe x = s.troupe x := rfl
@[simp] theorem State.troupe_modCore (s : State) (k c : Nat) (f : Core → Core) (x : Nat) : (s.modCore k c f).troupe x = s.troupe x := rfl
@[simp] theorem State.troupe_updLanes (s : State) (w : Nat) (ls : List Nat) (f : Nat → Lane → Lane) (x : Nat) : (s.updLanes w ls f).troupe x = s.troupe x := rfl
@[simp] theorem State.troupe_advance (s : State) (st : List StopRec) (x : Nat) : (s.advance st).troupe x = s.troupe x := rfl
@[simp] theorem State.lane_setPkg (s : State) (k : Nat) (p : Pkg) (w l : Nat) : (s.setPkg k p).lane w l = s.lane w l := rfl
@[simp] theorem State.lane_modPkg (s : State) (k : Nat) (f : Pkg → Pkg) (w l : Nat) : (s.modPkg k f).lane w l = s.lane w l := rfl
@[simp] theorem State.lane_setTroupe (s : State) (t : Nat) (v : Troupe) (w l : Nat) : (s.setTroupe t v).lane w l = s.lane w l := rfl
@[simp] theorem State.lane_modTroupe (s : State) (t : Nat) (f : Troupe → Troupe) (w l : Nat) : (s.modTroupe t f).lane w l = s.lane w l := rfl
@[simp] theorem State.lane_modCore (s : State) (k c : Nat) (f : Core → Core) (w l : Nat) : (s.modCore k c f).lane w l = s.lane w l := rfl

theorem Pkg.core_setCore (p : Pkg) (c x : Nat) (v : Core) : (p.setCore c v).core x = if x = c then v else p.core x :=
  fget_fput _ _ _ _ _
theorem State.pkg_modCore (s : State) (k c q : Nat) (f : Core → Core) :
    (s.modCore k c f).pkg q = if q = k then (s.pkg k).setCore c (f ((s.pkg k).core c)) else s.pkg q := fget_fput _ _ _ _ _
theorem State.core_modCore (s : State) (k c q x : Nat) (f : Core → Core) :
    (s.modCore k c f).core q x = if q = k ∧ x = c then f (s.core k c) else s.core q x := by
  unfold State.core
  rw [State.pkg_modCore]
  by_cases hq : q = k
  · subst hq; simp only [if_true, true_and]; exact Pkg.core_setCore _ _ _ _
  · simp [hq]

/-! ### Lanes after an update -/

@[simp] theorem Wave.upd_tid (w : Wave) (ls : List Nat) (f : Nat → Lane → Lane) : (w.upd ls f).tid = w.tid := rfl
@[simp] theorem Wave.upd_wix (w : Wave) (ls : List Nat) (f : Nat → Lane → Lane) : (w.upd ls f).wix = w.wix := rfl
@[simp] theorem Wave.upd_part (w : Wave) (ls : List Nat) (f : Nat → Lane → Lane) : (w.upd ls f).part = w.part := rfl
@[simp] theorem Wave.upd_allot (w : Wave) (ls : List Nat) (f : Nat → Lane → Lane) : (w.upd ls f).allot = w.allot := rfl
@[simp] theorem Wave.upd_rm (w : Wave) (ls : List Nat) (f : Nat → Lane → Lane) : (w.upd ls f).rm = w.rm := rfl
@[simp] theorem Wave.upd_chk (w : Wave) (ls : List Nat) (f : Nat → Lane → Lane) : (w.upd ls f).chk = w.chk := rfl
@[simp] theorem Wave.upd_sets (w : Wave) (ls : List Nat) (f : Nat → Lane → Lane) : (w.upd ls f).sets = w.sets := rfl
@[simp] theorem Wave.upd_tarv (w : Wave) (ls : List Nat) (f : Nat → Lane → Lane) : (w.upd ls f).tarv = w.tarv := rfl
@[simp] theorem Wave.upd_carv (w : Wave) (ls : List Nat) (f : Nat → Lane → Lane) : (w.upd ls f).carv = w.carv := rfl
@[simp] theorem Wave.upd_trapLanes (w : Wave) (ls : List Nat) (f : Nat → Lane → Lane) : (w.upd ls f).trapLanes = w.trapLanes := rfl
@[simp] theorem Wave.upd_sys (w : Wave) (ls : List Nat) (f : Nat → Lane → Lane) : (w.upd ls f).sys = w.sys := rfl
@[simp] theorem Wave.upd_handler (w : Wave) (ls : List Nat) (f : Nat → Lane → Lane) : (w.upd ls f).handler = w.handler := rfl
@[simp] theorem Wave.upd_resting (w : Wave) (ls : List Nat) (f : Nat → Lane → Lane) : (w.upd ls f).resting = w.resting := rfl
@[simp] theorem Wave.upd_saving (w : Wave) (ls : List Nat) (f : Nat → Lane → Lane) : (w.upd ls f).saving = w.saving := rfl
@[simp] theorem Wave.upd_susp (w : Wave) (ls : List Nat) (f : Nat → Lane → Lane) : (w.upd ls f).susp = w.susp := rfl
@[simp] theorem Wave.upd_parked (w : Wave) (ls : List Nat) (f : Nat → Lane → Lane) : (w.upd ls f).parked = w.parked := rfl
@[simp] theorem Wave.upd_stopped (w : Wave) (ls : List Nat) (f : Nat → Lane → Lane) : (w.upd ls f).stopped = w.stopped := rfl
@[simp] theorem Wave.upd_preempt (w : Wave) (ls : List Nat) (f : Nat → Lane → Lane) : (w.upd ls f).preempt = w.preempt := rfl
@[simp] theorem Wave.upd_ended (w : Wave) (ls : List Nat) (f : Nat → Lane → Lane) : (w.upd ls f).ended = w.ended := rfl
@[simp] theorem Wave.upd_fseq (w : Wave) (ls : List Nat) (f : Nat → Lane → Lane) : (w.upd ls f).fseq = w.fseq := rfl
@[simp] theorem Wave.upd_fences (w : Wave) (ls : List Nat) (f : Nat → Lane → Lane) : (w.upd ls f).fences = w.fences := rfl
@[simp] theorem Wave.upd_queue (w : Wave) (ls : List Nat) (f : Nat → Lane → Lane) : (w.upd ls f).queue = w.queue := rfl
@[simp] theorem Wave.upd_waits (w : Wave) (ls : List Nat) (f : Nat → Lane → Lane) : (w.upd ls f).waits = w.waits := rfl
@[simp] theorem Wave.upd_quad (w : Wave) (ls : List Nat) (f : Nat → Lane → Lane) : (w.upd ls f).quad = w.quad := rfl
@[simp] theorem Wave.upd_slot (w : Wave) (ls : List Nat) (f : Nat → Lane → Lane) : (w.upd ls f).slot = w.slot := rfl
@[simp] theorem Wave.upd_fuse (w : Wave) (ls : List Nat) (f : Nat → Lane → Lane) : (w.upd ls f).fuse = w.fuse := rfl
@[simp] theorem Wave.upd_lastSel (w : Wave) (ls : List Nat) (f : Nat → Lane → Lane) : (w.upd ls f).lastSel = w.lastSel := rfl
@[simp] theorem Wave.upd_yield (w : Wave) (ls : List Nat) (f : Nat → Lane → Lane) : (w.upd ls f).yield = w.yield := rfl
@[simp] theorem Wave.upd_holdMem (w : Wave) (ls : List Nat) (f : Nat → Lane → Lane) : (w.upd ls f).holdMem = w.holdMem := rfl
@[simp] theorem Wave.upd_discarded (w : Wave) (ls : List Nat) (f : Nat → Lane → Lane) : (w.upd ls f).discarded = w.discarded := rfl
@[simp] theorem Wave.upd_relHold (w : Wave) (ls : List Nat) (f : Nat → Lane → Lane) : (w.upd ls f).relHold = w.relHold := rfl
@[simp] theorem Wave.upd_late (w : Wave) (ls : List Nat) (f : Nat → Lane → Lane) : (w.upd ls f).late = w.late := rfl
@[simp] theorem Wave.setLane_tid (w : Wave) (l : Nat) (v : Lane) : (w.setLane l v).tid = w.tid := rfl
@[simp] theorem Wave.setLane_wix (w : Wave) (l : Nat) (v : Lane) : (w.setLane l v).wix = w.wix := rfl
@[simp] theorem Wave.setLane_part (w : Wave) (l : Nat) (v : Lane) : (w.setLane l v).part = w.part := rfl
@[simp] theorem Wave.setLane_allot (w : Wave) (l : Nat) (v : Lane) : (w.setLane l v).allot = w.allot := rfl
@[simp] theorem Wave.setLane_rm (w : Wave) (l : Nat) (v : Lane) : (w.setLane l v).rm = w.rm := rfl
@[simp] theorem Wave.setLane_chk (w : Wave) (l : Nat) (v : Lane) : (w.setLane l v).chk = w.chk := rfl
@[simp] theorem Wave.setLane_sets (w : Wave) (l : Nat) (v : Lane) : (w.setLane l v).sets = w.sets := rfl
@[simp] theorem Wave.setLane_tarv (w : Wave) (l : Nat) (v : Lane) : (w.setLane l v).tarv = w.tarv := rfl
@[simp] theorem Wave.setLane_carv (w : Wave) (l : Nat) (v : Lane) : (w.setLane l v).carv = w.carv := rfl
@[simp] theorem Wave.setLane_trapLanes (w : Wave) (l : Nat) (v : Lane) : (w.setLane l v).trapLanes = w.trapLanes := rfl
@[simp] theorem Wave.setLane_sys (w : Wave) (l : Nat) (v : Lane) : (w.setLane l v).sys = w.sys := rfl
@[simp] theorem Wave.setLane_handler (w : Wave) (l : Nat) (v : Lane) : (w.setLane l v).handler = w.handler := rfl
@[simp] theorem Wave.setLane_resting (w : Wave) (l : Nat) (v : Lane) : (w.setLane l v).resting = w.resting := rfl
@[simp] theorem Wave.setLane_saving (w : Wave) (l : Nat) (v : Lane) : (w.setLane l v).saving = w.saving := rfl
@[simp] theorem Wave.setLane_susp (w : Wave) (l : Nat) (v : Lane) : (w.setLane l v).susp = w.susp := rfl
@[simp] theorem Wave.setLane_parked (w : Wave) (l : Nat) (v : Lane) : (w.setLane l v).parked = w.parked := rfl
@[simp] theorem Wave.setLane_stopped (w : Wave) (l : Nat) (v : Lane) : (w.setLane l v).stopped = w.stopped := rfl
@[simp] theorem Wave.setLane_preempt (w : Wave) (l : Nat) (v : Lane) : (w.setLane l v).preempt = w.preempt := rfl
@[simp] theorem Wave.setLane_ended (w : Wave) (l : Nat) (v : Lane) : (w.setLane l v).ended = w.ended := rfl
@[simp] theorem Wave.setLane_fseq (w : Wave) (l : Nat) (v : Lane) : (w.setLane l v).fseq = w.fseq := rfl
@[simp] theorem Wave.setLane_fences (w : Wave) (l : Nat) (v : Lane) : (w.setLane l v).fences = w.fences := rfl
@[simp] theorem Wave.setLane_queue (w : Wave) (l : Nat) (v : Lane) : (w.setLane l v).queue = w.queue := rfl
@[simp] theorem Wave.setLane_waits (w : Wave) (l : Nat) (v : Lane) : (w.setLane l v).waits = w.waits := rfl
@[simp] theorem Wave.setLane_quad (w : Wave) (l : Nat) (v : Lane) : (w.setLane l v).quad = w.quad := rfl
@[simp] theorem Wave.setLane_slot (w : Wave) (l : Nat) (v : Lane) : (w.setLane l v).slot = w.slot := rfl
@[simp] theorem Wave.setLane_fuse (w : Wave) (l : Nat) (v : Lane) : (w.setLane l v).fuse = w.fuse := rfl
@[simp] theorem Wave.setLane_lastSel (w : Wave) (l : Nat) (v : Lane) : (w.setLane l v).lastSel = w.lastSel := rfl
@[simp] theorem Wave.setLane_yield (w : Wave) (l : Nat) (v : Lane) : (w.setLane l v).yield = w.yield := rfl
@[simp] theorem Wave.setLane_holdMem (w : Wave) (l : Nat) (v : Lane) : (w.setLane l v).holdMem = w.holdMem := rfl
@[simp] theorem Wave.setLane_discarded (w : Wave) (l : Nat) (v : Lane) : (w.setLane l v).discarded = w.discarded := rfl
@[simp] theorem Wave.setLane_relHold (w : Wave) (l : Nat) (v : Lane) : (w.setLane l v).relHold = w.relHold := rfl
@[simp] theorem Wave.setLane_late (w : Wave) (l : Nat) (v : Lane) : (w.setLane l v).late = w.late := rfl
@[simp] theorem Lane.send_pc (l : Lane) (d : Option Nat) (n : Nat) (o : List (Dst × W32)) : (l.send d n o).pc = l.pc := rfl
@[simp] theorem Lane.send_nextPc (l : Lane) (d : Option Nat) (n : Nat) (o : List (Dst × W32)) : (l.send d n o).nextPc = l.nextPc := rfl
@[simp] theorem Lane.send_heldNext (l : Lane) (d : Option Nat) (n : Nat) (o : List (Dst × W32)) : (l.send d n o).heldNext = l.heldNext := rfl
@[simp] theorem Lane.send_st (l : Lane) (d : Option Nat) (n : Nat) (o : List (Dst × W32)) : (l.send d n o).st = l.st := rfl
@[simp] theorem Lane.send_g (l : Lane) (d : Option Nat) (n : Nat) (o : List (Dst × W32)) : (l.send d n o).g = l.g := rfl
@[simp] theorem Lane.send_p (l : Lane) (d : Option Nat) (n : Nat) (o : List (Dst × W32)) : (l.send d n o).p = l.p := rfl
@[simp] theorem Lane.send_lflags (l : Lane) (d : Option Nat) (n : Nat) (o : List (Dst × W32)) : (l.send d n o).lflags = l.lflags := rfl
@[simp] theorem Lane.send_readyAt (l : Lane) (d : Option Nat) (n : Nat) (o : List (Dst × W32)) : (l.send d n o).readyAt = l.readyAt := rfl
@[simp] theorem Lane.send_waiting (l : Lane) (d : Option Nat) (n : Nat) (o : List (Dst × W32)) : (l.send d n o).waiting = l.waiting := rfl
@[simp] theorem Lane.send_wsb (l : Lane) (d : Option Nat) (n : Nat) (o : List (Dst × W32)) : (l.send d n o).wsb = l.wsb := rfl
@[simp] theorem Lane.send_skips (l : Lane) (d : Option Nat) (n : Nat) (o : List (Dst × W32)) : (l.send d n o).skips = l.skips := rfl
@[simp] theorem Lane.send_trapPc (l : Lane) (d : Option Nat) (n : Nat) (o : List (Dst × W32)) : (l.send d n o).trapPc = l.trapPc := rfl
@[simp] theorem Lane.send_trapVa (l : Lane) (d : Option Nat) (n : Nat) (o : List (Dst × W32)) : (l.send d n o).trapVa = l.trapVa := rfl
@[simp] theorem Lane.send_trapCause (l : Lane) (d : Option Nat) (n : Nat) (o : List (Dst × W32)) : (l.send d n o).trapCause = l.trapCause := rfl
@[simp] theorem Lane.send_memb (l : Lane) (d : Option Nat) (n : Nat) (o : List (Dst × W32)) : (l.send d n o).memb = l.memb := rfl
@[simp] theorem Lane.send_resume (l : Lane) (d : Option Nat) (n : Nat) (o : List (Dst × W32)) : (l.send d n o).resume = l.resume := rfl
@[simp] theorem Lane.send_prior (l : Lane) (d : Option Nat) (n : Nat) (o : List (Dst × W32)) : (l.send d n o).prior = l.prior := rfl
@[simp] theorem Lane.send_movedPc (l : Lane) (d : Option Nat) (n : Nat) (o : List (Dst × W32)) : (l.send d n o).movedPc = l.movedPc := rfl
@[simp] theorem Lane.send_steer (l : Lane) (d : Option Nat) (n : Nat) (o : List (Dst × W32)) : (l.send d n o).steer = l.steer := rfl
@[simp] theorem Lane.send_lseq (l : Lane) (d : Option Nat) (n : Nat) (o : List (Dst × W32)) : (l.send d n o).lseq = l.lseq := rfl
@[simp] theorem Lane.send_rseq (l : Lane) (d : Option Nat) (n : Nat) (o : List (Dst × W32)) : (l.send d n o).rseq = l.rseq := rfl
@[simp] theorem Lane.owe_pc (l : Lane) (b : Bool) (n : Nat) (o : List Dst) : (l.owe b n o).pc = l.pc := rfl
@[simp] theorem Lane.owe_nextPc (l : Lane) (b : Bool) (n : Nat) (o : List Dst) : (l.owe b n o).nextPc = l.nextPc := rfl
@[simp] theorem Lane.owe_heldNext (l : Lane) (b : Bool) (n : Nat) (o : List Dst) : (l.owe b n o).heldNext = l.heldNext := rfl
@[simp] theorem Lane.owe_st (l : Lane) (b : Bool) (n : Nat) (o : List Dst) : (l.owe b n o).st = l.st := rfl
@[simp] theorem Lane.owe_g (l : Lane) (b : Bool) (n : Nat) (o : List Dst) : (l.owe b n o).g = l.g := rfl
@[simp] theorem Lane.owe_p (l : Lane) (b : Bool) (n : Nat) (o : List Dst) : (l.owe b n o).p = l.p := rfl
@[simp] theorem Lane.owe_lflags (l : Lane) (b : Bool) (n : Nat) (o : List Dst) : (l.owe b n o).lflags = l.lflags := rfl
@[simp] theorem Lane.owe_readyAt (l : Lane) (b : Bool) (n : Nat) (o : List Dst) : (l.owe b n o).readyAt = l.readyAt := rfl
@[simp] theorem Lane.owe_waiting (l : Lane) (b : Bool) (n : Nat) (o : List Dst) : (l.owe b n o).waiting = l.waiting := rfl
@[simp] theorem Lane.owe_wsb (l : Lane) (b : Bool) (n : Nat) (o : List Dst) : (l.owe b n o).wsb = l.wsb := rfl
@[simp] theorem Lane.owe_skips (l : Lane) (b : Bool) (n : Nat) (o : List Dst) : (l.owe b n o).skips = l.skips := rfl
@[simp] theorem Lane.owe_trapPc (l : Lane) (b : Bool) (n : Nat) (o : List Dst) : (l.owe b n o).trapPc = l.trapPc := rfl
@[simp] theorem Lane.owe_trapVa (l : Lane) (b : Bool) (n : Nat) (o : List Dst) : (l.owe b n o).trapVa = l.trapVa := rfl
@[simp] theorem Lane.owe_trapCause (l : Lane) (b : Bool) (n : Nat) (o : List Dst) : (l.owe b n o).trapCause = l.trapCause := rfl
@[simp] theorem Lane.owe_memb (l : Lane) (b : Bool) (n : Nat) (o : List Dst) : (l.owe b n o).memb = l.memb := rfl
@[simp] theorem Lane.owe_resume (l : Lane) (b : Bool) (n : Nat) (o : List Dst) : (l.owe b n o).resume = l.resume := rfl
@[simp] theorem Lane.owe_prior (l : Lane) (b : Bool) (n : Nat) (o : List Dst) : (l.owe b n o).prior = l.prior := rfl
@[simp] theorem Lane.owe_movedPc (l : Lane) (b : Bool) (n : Nat) (o : List Dst) : (l.owe b n o).movedPc = l.movedPc := rfl
@[simp] theorem Lane.owe_steer (l : Lane) (b : Bool) (n : Nat) (o : List Dst) : (l.owe b n o).steer = l.steer := rfl
@[simp] theorem Lane.owe_lseq (l : Lane) (b : Bool) (n : Nat) (o : List Dst) : (l.owe b n o).lseq = l.lseq := rfl
@[simp] theorem Lane.owe_rseq (l : Lane) (b : Bool) (n : Nat) (o : List Dst) : (l.owe b n o).rseq = l.rseq := rfl
@[simp] theorem Lane.fill_pc (l : Lane) (n : Nat) (o : List (Dst × W32)) : (l.fill n o).pc = l.pc := rfl
@[simp] theorem Lane.fill_nextPc (l : Lane) (n : Nat) (o : List (Dst × W32)) : (l.fill n o).nextPc = l.nextPc := rfl
@[simp] theorem Lane.fill_heldNext (l : Lane) (n : Nat) (o : List (Dst × W32)) : (l.fill n o).heldNext = l.heldNext := rfl
@[simp] theorem Lane.fill_st (l : Lane) (n : Nat) (o : List (Dst × W32)) : (l.fill n o).st = l.st := rfl
@[simp] theorem Lane.fill_g (l : Lane) (n : Nat) (o : List (Dst × W32)) : (l.fill n o).g = l.g := rfl
@[simp] theorem Lane.fill_p (l : Lane) (n : Nat) (o : List (Dst × W32)) : (l.fill n o).p = l.p := rfl
@[simp] theorem Lane.fill_lflags (l : Lane) (n : Nat) (o : List (Dst × W32)) : (l.fill n o).lflags = l.lflags := rfl
@[simp] theorem Lane.fill_readyAt (l : Lane) (n : Nat) (o : List (Dst × W32)) : (l.fill n o).readyAt = l.readyAt := rfl
@[simp] theorem Lane.fill_waiting (l : Lane) (n : Nat) (o : List (Dst × W32)) : (l.fill n o).waiting = l.waiting := rfl
@[simp] theorem Lane.fill_wsb (l : Lane) (n : Nat) (o : List (Dst × W32)) : (l.fill n o).wsb = l.wsb := rfl
@[simp] theorem Lane.fill_skips (l : Lane) (n : Nat) (o : List (Dst × W32)) : (l.fill n o).skips = l.skips := rfl
@[simp] theorem Lane.fill_trapPc (l : Lane) (n : Nat) (o : List (Dst × W32)) : (l.fill n o).trapPc = l.trapPc := rfl
@[simp] theorem Lane.fill_trapVa (l : Lane) (n : Nat) (o : List (Dst × W32)) : (l.fill n o).trapVa = l.trapVa := rfl
@[simp] theorem Lane.fill_trapCause (l : Lane) (n : Nat) (o : List (Dst × W32)) : (l.fill n o).trapCause = l.trapCause := rfl
@[simp] theorem Lane.fill_memb (l : Lane) (n : Nat) (o : List (Dst × W32)) : (l.fill n o).memb = l.memb := rfl
@[simp] theorem Lane.fill_resume (l : Lane) (n : Nat) (o : List (Dst × W32)) : (l.fill n o).resume = l.resume := rfl
@[simp] theorem Lane.fill_prior (l : Lane) (n : Nat) (o : List (Dst × W32)) : (l.fill n o).prior = l.prior := rfl
@[simp] theorem Lane.fill_movedPc (l : Lane) (n : Nat) (o : List (Dst × W32)) : (l.fill n o).movedPc = l.movedPc := rfl
@[simp] theorem Lane.fill_steer (l : Lane) (n : Nat) (o : List (Dst × W32)) : (l.fill n o).steer = l.steer := rfl
@[simp] theorem Lane.fill_lseq (l : Lane) (n : Nat) (o : List (Dst × W32)) : (l.fill n o).lseq = l.lseq := rfl
@[simp] theorem Lane.fill_rseq (l : Lane) (n : Nat) (o : List (Dst × W32)) : (l.fill n o).rseq = l.rseq := rfl

/-- The lanes of a list change, each once; the others stay. -/
theorem fget_updMap (ls : List Nat) (f : Nat → Lane → Lane) (m : FMap Lane) (n : Nat) (h : ls.Nodup) :
    fget Lane.init (updMap ls f m) n = if n ∈ ls then f n (fget Lane.init m n) else fget Lane.init m n := by
  induction ls generalizing m with
  | nil => simp [updMap]
  | cons l ls ih =>
    obtain ⟨hl, hn⟩ := List.nodup_cons.1 h
    have step : updMap (l :: ls) f m = updMap ls f (fput m l (f l (fget Lane.init m l))) := rfl
    rw [step, ih _ hn, fget_fput]
    by_cases hnl : n = l
    · subst hnl; simp [hl]
    · by_cases hin : n ∈ ls <;> simp [hnl, hin]

theorem Wave.lane_upd (w : Wave) (ls : List Nat) (f : Nat → Lane → Lane) (n : Nat) (h : ls.Nodup) :
    (w.upd ls f).lane n = if n ∈ ls then f n (w.lane n) else w.lane n := fget_updMap ls f w.lanes n h

theorem lanesOf_nodup (m : LaneMask) : (lanesOf m).Nodup := List.Nodup.filter _ List.nodup_range

@[simp] theorem mem_lanesOf (m : LaneMask) (n : Nat) : n ∈ lanesOf m ↔ m.getLsbD n = true := by
  simp only [lanesOf, List.mem_filter, List.mem_range, and_iff_right_iff_imp]
  intro h
  by_contra hn
  rw [BitVec.getLsbD_of_ge _ _ (by omega)] at h
  exact absurd h (by simp)

theorem State.wave_updLanes (s : State) (w x : Nat) (ls : List Nat) (f : Nat → Lane → Lane) :
    (s.updLanes w ls f).wave x = if x = w then (s.wave w).upd ls f else s.wave x := fget_fput _ _ _ _ _
@[simp] theorem State.wave_updLanes_self (s : State) (w : Nat) (ls : List Nat) (f : Nat → Lane → Lane) :
    (s.updLanes w ls f).wave w = (s.wave w).upd ls f := fget_fput_self _ _ _ _

/-- What a change of the lanes of a mask does to each lane of the machine. -/
theorem State.lane_updLanes (s : State) (w x n : Nat) (m : LaneMask) (f : Nat → Lane → Lane) :
    (s.updLanes w (lanesOf m) f).lane x n =
      if x = w ∧ m.getLsbD n = true then f n (s.lane w n) else s.lane x n := by
  unfold State.lane
  rw [State.wave_updLanes]
  by_cases hx : x = w
  · subst hx
    simp [Wave.lane_upd _ _ _ _ (lanesOf_nodup m)]
  · simp [hx]

theorem State.lane_setWave (s : State) (w x n : Nat) (v : Wave) :
    (s.setWave w v).lane x n = if x = w then v.lane n else s.lane x n := by
  unfold State.lane; rw [State.wave_setWave]; split <;> rfl

/-- The bits of the mask of a list of lanes. -/
theorem getLsbD_maskOf (ls : List Nat) (n : Nat) : (maskOf ls).getLsbD n = (decide (n ∈ ls) && decide (n < 32)) := by
  have key : ∀ (ls : List Nat) (m : LaneMask),
      (ls.foldl (fun m l => m ||| laneBit l) m).getLsbD n = (m.getLsbD n || (decide (n ∈ ls) && decide (n < 32))) := by
    intro ls
    induction ls with
    | nil => simp
    | cons l ls ih =>
      intro m
      rw [List.foldl_cons, ih]
      have : (laneBit l).getLsbD n = (decide (n = l) && decide (n < 32)) := by
        unfold laneBit
        rw [BitVec.getLsbD_shiftLeft, BitVec.getLsbD_one]
        by_cases h : n = l
        · subst h; by_cases hn : n < 32 <;> simp [hn]
        · by_cases hn : n < 32 <;> by_cases hl : n < l <;> simp [h, hn, hl] <;> omega
      rw [BitVec.getLsbD_or, this]
      simp only [List.mem_cons, Bool.decide_or]
      cases m.getLsbD n <;> cases decide (n = l) <;> cases decide (n ∈ ls) <;> cases decide (n < 32) <;> rfl
  simpa [maskOf] using key ls 0

end Sys2Proof.Machine
end

