-- ==== Sys2Proof/Laws/Memory.lean ====
section
/-! SUPPORT. Laws of memory: what a byte reads after each write, and that every operation that writes memory, of the pod or of a
host, keeps its canonical form. -/

namespace Sys2Proof

open Machine

/-! ### Bytes (read after write, and nothing else) -/

theorem memGet_memPut (m : List Host.Cell) (a : Nat) (v : Byte) (b : Nat) : memGet (memPut m a v) b = if b = a then v else memGet m b :=
  fget_fset ..

theorem memGet_memPuts (m : List Host.Cell) (a : Nat) (bs : List Byte) (b : Nat) :
    memGet (memPuts m a bs) b = if h : a ≤ b ∧ b < a + bs.length then bs[b - a]'(by omega) else memGet m b := by
  induction bs generalizing m a with
  | nil =>
    rw [dif_neg (by simp)]
    rfl
  | cons v bs ih =>
    rw [memPuts, ih, memGet_memPut]
    by_cases h1 : b = a
    · subst h1
      rw [dif_neg (by omega), if_pos rfl, dif_pos ⟨Nat.le_refl _, by simp⟩]
      simp
    · rw [if_neg h1]
      by_cases h2 : a + 1 ≤ b ∧ b < a + 1 + bs.length
      · rw [dif_pos h2, dif_pos ⟨by omega, by simp only [List.length_cons]; omega⟩]
        obtain ⟨n, rfl⟩ : ∃ n, b = a + (n + 1) := ⟨b - a - 1, by omega⟩
        simp [show a + (n + 1) - (a + 1) = n by omega]
      · rw [dif_neg h2, dif_neg (by simp only [List.length_cons]; omega)]

/-- A byte outside what is written reads as before. -/
theorem memGet_memPuts_ne (m : List Host.Cell) (a : Nat) (bs : List Byte) (b : Nat) (h : b < a ∨ a + bs.length ≤ b) :
    memGet (memPuts m a bs) b = memGet m b := by
  rw [memGet_memPuts, dif_neg (by omega)]

theorem memGets_congr {m m' : List Host.Cell} {a n : Nat} (h : ∀ b, a ≤ b → b < a + n → memGet m' b = memGet m b) :
    memGets m' a n = memGets m a n := by
  induction n generalizing a with
  | zero => rfl
  | succ n ih => rw [memGets, memGets, h a (Nat.le_refl _) (by omega), ih fun b h1 h2 => h b (by omega) (by omega)]

/-- What has been written is read back. -/
theorem memGets_memPuts (m : List Host.Cell) (a : Nat) (bs : List Byte) : memGets (memPuts m a bs) a bs.length = bs := by
  induction bs generalizing m a with
  | nil => rfl
  | cons v bs ih =>
    rw [memPuts, List.length_cons, memGets, ih, memGet_memPuts_ne _ _ _ _ (.inl (by omega)), memGet_memPut, if_pos rfl]

@[simp] theorem memGets_length (m : List Host.Cell) (a n : Nat) : (memGets m a n).length = n := by
  induction n generalizing a with
  | zero => rfl
  | succ n ih => simp [memGets, ih]

theorem leBytes_length (n v : Nat) : (leBytes n v).length = n := by
  induction n generalizing v with
  | zero => rfl
  | succ n ih => simp [leBytes, ih]

/-! ### The canonical form -/

theorem Memory.wf_nil : Memory.wf [] := FWf.nil _
theorem Memory.wf_memPut {m : List Host.Cell} (h : Memory.wf m) (a : Nat) (b : Byte) : Memory.wf (memPut m a b) := h.fset a b
theorem Memory.wf_memPuts {m : List Host.Cell} (h : Memory.wf m) (a : Nat) (bs : List Byte) : Memory.wf (memPuts m a bs) := by
  induction bs generalizing m a with
  | nil => exact h
  | cons b bs ih => exact ih (Memory.wf_memPut h a b) (a + 1)
theorem Memory.wf_filter {m : List Host.Cell} (h : Memory.wf m) (p : Host.Cell → Bool) : Memory.wf (m.filter p) :=
  ⟨h.1.sublist List.filter_sublist, fun e he => h.2 e (List.mem_filter.1 he).1⟩

/-- The memory of the pod, and of every host, in its canonical form. -/
def Canonical (s : State) : Prop := Memory.wf s.mem ∧ ∀ k, Memory.wf (s.pkg k).host.hostMem

/-- The state after reset lists nothing. -/
theorem reset_canonical : Canonical State.reset :=
  ⟨Memory.wf_nil, fun k => by
    show Memory.wf (fget Pkg.init [(0, Pkg.init)] k).host.hostMem
    by_cases h : 0 = k <;> simp [fget, h] <;> exact Memory.wf_nil⟩

theorem Canonical.of_eq {s t : State} (h : Canonical s) (hm : t.mem = s.mem) (hp : t.pkgs = s.pkgs) : Canonical t :=
  ⟨hm ▸ h.1, fun k => by have := h.2 k; unfold State.pkg at this ⊢; rwa [hp]⟩
theorem Canonical.setPkg {s : State} (h : Canonical s) (k : Nat) {p : Pkg} (hp : Memory.wf p.host.hostMem) : Canonical (s.setPkg k p) :=
  ⟨h.1, fun j => by
    show Memory.wf (fget Pkg.init (fput s.pkgs k p) j).host.hostMem
    rw [fget_fput]
    split
    · exact hp
    · exact h.2 j⟩
/-- A change of a package that leaves its host's memory in its form. -/
theorem Canonical.modPkg {s : State} (h : Canonical s) (k : Nat) {f : Pkg → Pkg} (hf : Memory.wf (f (s.pkg k)).host.hostMem) : Canonical (s.modPkg k f) :=
  h.setPkg k hf
theorem Canonical.setMem {s : State} (h : Canonical s) {m : List Host.Cell} (hm : Memory.wf m) : Canonical { s with mem := m } := ⟨hm, h.2⟩

/-! ### Every operation that writes memory keeps it -/

theorem store_canonical {s : State} (h : Canonical s) (a : Nat) (bs : List Byte) : Canonical (s.store a bs) :=
  Canonical.modPkg (s := { s with mem := memPuts s.mem a bs, relAt := s.relAt.filter (fun e => !(a ≤ e.1 && e.1 < a + bs.length)) })
    ⟨Memory.wf_memPuts h.1 a bs, h.2⟩ _ (h.2 _)
theorem landWrite_canonical {s : State} (h : Canonical s) (w : PWrite) : Canonical (s.landWrite w) := by
  unfold State.landWrite
  dsimp only
  split
  · exact (store_canonical h w.addr w.bytes).of_eq rfl rfl
  · exact store_canonical h w.addr w.bytes
theorem foldl_canonical {α : Type} {f : State → α → State} (hf : ∀ s x, Canonical s → Canonical (f s x)) (l : List α) {s : State} (h : Canonical s) :
    Canonical (l.foldl f s) := by
  induction l generalizing s with
  | nil => exact h
  | cons x l ih => exact ih (hf s x h)
theorem settleUnit_canonical {s : State} (h : Canonical s) (u : Nat) : Canonical (s.settleUnit u) :=
  foldl_canonical (fun _ w h => landWrite_canonical h w) _ (h.of_eq rfl rfl)
theorem settleRange_canonical {s : State} (h : Canonical s) (a n : Nat) : Canonical (s.settleRange a n) := by
  unfold State.settleRange
  split
  · exact h
  · exact foldl_canonical (fun _ i h => settleUnit_canonical h _) _ h
theorem storeAt_canonical {s : State} (h : Canonical s) (a : Nat) (bs : List Byte) : Canonical (s.storeAt a bs) :=
  store_canonical (settleRange_canonical h a bs.length) a bs
theorem storeSpans_canonical {s : State} (h : Canonical s) (l : List (Nat × Nat)) (bs : List Byte) : Canonical (s.storeSpans l bs) := by
  have key : ∀ (l : List (Nat × Nat)) (acc : State × List Byte), Canonical acc.1 →
      Canonical (l.foldl (fun (acc : State × List Byte) e => (acc.1.storeAt e.1 (acc.2.take e.2), acc.2.drop e.2)) acc).1 := by
    intro l
    induction l with
    | nil => exact fun _ h => h
    | cons e l ih => exact fun acc h => ih _ (storeAt_canonical h _ _)
  exact key l (s, bs) h
theorem devStore_canonical {s : State} (h : Canonical s) (k : Nat) (ctx : W32) (va : W64) (bs : List Byte) : Canonical (s.devStore k ctx va bs) := by
  unfold State.devStore
  split
  · exact storeAt_canonical h _ _
  · exact h
theorem devWrite_canonical {s : State} (h : Canonical s) (k : Nat) (ctx : W32) (va : W64) (bs : List Byte) : Canonical (s.devWrite k ctx va bs) :=
  foldl_canonical (fun _ _ h => devStore_canonical h _ _ _ _) _ h
theorem update_canonical {s : State} (h : Canonical s) (a n : Nat) (f : W64 → W64) (rel : Option (Nat × Nat)) : Canonical (s.update a n f rel).2 := by
  unfold State.update
  dsimp only
  split
  · exact store_canonical (settleRange_canonical h a n) _ _
  · exact (store_canonical (settleRange_canonical h a n) _ _).of_eq rfl rfl
theorem zeroRange_canonical {s : State} (h : Canonical s) (a n : Nat) : Canonical (s.zeroRange a n) :=
  Canonical.modPkg (s := { s with mem := s.mem.filter (fun (e : Nat × Byte) => !(a ≤ e.1 && e.1 < a + n)),
                                  relAt := s.relAt.filter (fun (e : Nat × List (Nat × Nat)) => !(a ≤ e.1 && e.1 < a + n)) })
    ⟨Memory.wf_filter h.1 _, h.2⟩ _ (h.2 _)
theorem copyBytes_canonical {s : State} (h : Canonical s) (src dst n : Nat) : Canonical (s.copyBytes src dst n) :=
  foldl_canonical (fun _ _ h => h.setMem (Memory.wf_memPut h.1 _ _)) _ (zeroRange_canonical h dst n)
theorem placedMem_wf {m : List Host.Cell} (h : Memory.wf m) (ws : List W32) : Memory.wf (placedMem m ws) :=
  Memory.wf_memPuts (Memory.wf_memPuts (Memory.wf_memPuts (Memory.wf_memPuts h _ _) _ _) _ _) _ _

/-! ### Host memory (R422, R423, R429) -/

theorem writeEvent_wf {p : Pkg} (h : Memory.wf p.host.hostMem) (rcd : List Byte) : Memory.wf (writeEvent p rcd).host.hostMem := by
  unfold writeEvent
  dsimp only
  split
  · exact h
  · split
    · exact h
    · exact Memory.wf_memPuts h _ _
theorem mgmtEvent_wf {p : Pkg} (h : Memory.wf p.host.hostMem) (kind cls unit : Nat) (wh : W64) : Memory.wf (mgmtEvent p kind cls unit wh).host.hostMem :=
  writeEvent_wf h _
theorem cqPut_wf {h : HostIf} (hw : Memory.wf h.hostMem) (status : W32) : Memory.wf (h.cqPut status).hostMem := Memory.wf_memPuts hw _ _
theorem cqSkip_wf (n : Nat) {h : HostIf} (hw : Memory.wf h.hostMem) : Memory.wf (cqSkip n h).hostMem := by
  induction n generalizing h with
  | zero => exact hw
  | succ n ih =>
    unfold cqSkip
    split
    · exact hw
    · split
      · exact ih (cqPut_wf hw _)
      · exact hw
theorem cmdDone_wf {p : Pkg} (h : Memory.wf p.host.hostMem) (status : W32) : Memory.wf (p.cmdDone status).host.hostMem := by
  unfold Pkg.cmdDone
  split
  · exact cqSkip_wf _ (cqPut_wf h _)
  · exact h
theorem hostEvent_canonical {s : State} (h : Canonical s) (k : Nat) (c : W32) (cause : Cause) (sub : Byte) (aff : List (Nat × Troupe)) (pc va : W64) :
    Canonical (hostEvent s k c cause sub aff pc va) := by
  have then_ : ∀ (t : State) (r : List Byte), Canonical t → Canonical (t.modPkg k (fun p => writeEvent p r)) :=
    fun t r ht => ht.modPkg k (f := fun p => writeEvent p r) (writeEvent_wf (ht.2 k) r)
  unfold hostEvent
  refine then_ _ _ ?_
  dsimp only
  repeat' split
  all_goals first
    | exact h
    | exact h.setPkg k (Memory.wf_memPuts (h.2 k) _ _)

/-! ### What a store does -/

theorem store_mem (s : State) (a : Nat) (bs : List Byte) : (s.store a bs).mem = memPuts s.mem a bs := rfl
theorem store_waves (s : State) (a : Nat) (bs : List Byte) : (s.store a bs).waves = s.waves := rfl
theorem store_writes (s : State) (a : Nat) (bs : List Byte) : (s.store a bs).writes = s.writes := rfl

/-- With no write in flight about the bytes, a store at package scope leaves them as written and every other byte as it was. -/
theorem settleUnit_of_none {s : State} {u : Nat} (h : ∀ x ∈ s.writes, 1 ≤ x.level → x.addr / 8 ≠ u) : s.settleUnit u = s := by
  have hu : ∀ w ∈ s.writes, (decide (1 ≤ w.level) && w.unit == u) = false := by
    intro w hw
    by_cases hl : 1 ≤ w.level
    · simpa [hl, PWrite.unit] using h w hw hl
    · simp [hl]
  have h1 : s.writes.filter (fun w => decide (1 ≤ w.level) && w.unit == u) = [] :=
    List.filter_eq_nil_iff.2 fun w hw => by rw [hu w hw]; decide
  have h2 : s.writes.filter (fun w => !(decide (1 ≤ w.level) && w.unit == u)) = s.writes :=
    List.filter_eq_self.2 fun w hw => by rw [hu w hw]; rfl
  unfold State.settleUnit
  dsimp only
  rw [h1, h2]
  rfl
theorem settleRange_of_none {s : State} {a n : Nat} (h : NoneAbout s a n) : s.settleRange a n = s := by
  unfold State.settleRange
  split
  · rfl
  · next hn =>
    have key : ∀ m, m ≤ (a + n - 1) / 8 - a / 8 + 1 → (List.range m).foldl (fun s i => s.settleUnit (a / 8 + i)) s = s := by
      intro m
      induction m with
      | zero => intro _; rfl
      | succ m ih =>
        intro hm
        rw [List.range_succ, List.foldl_append, ih (by omega)]
        refine settleUnit_of_none fun x hx hl he => ?_
        rcases h x hx hl with h1 | h1 <;> omega
    exact key _ (Nat.le_refl _)
theorem storeAt_of_none {s : State} {a : Nat} {bs : List Byte} (h : NoneAbout s a bs.length) : s.storeAt a bs = s.store a bs := by
  rw [State.storeAt, settleRange_of_none h]
/-- The bytes of a number stored at package scope, with nothing in flight about them. -/
theorem storeAt_takes {s : State} {a n v : Nat} (h : NoneAbout s a n) : MemoryTakes s (s.storeAt a (leBytes n v)) a n v := by
  rw [storeAt_of_none (by rwa [leBytes_length])]
  refine ⟨?_, fun b hb => ?_⟩
  · have := memGets_memPuts s.mem a (leBytes n v)
    rwa [leBytes_length] at this
  · exact memGet_memPuts_ne _ _ _ _ (by rwa [leBytes_length])
/-- An indivisible update with nothing in flight about its bytes: it answers what they held and leaves what it computes. -/
theorem update_of_none {s : State} {a n : Nat} (h : NoneAbout s a n) (f : W64 → W64) (rel : Option (Nat × Nat)) :
    (s.update a n f rel).1 = BitVec.ofNat 64 (numberAt s a n) ∧
    MemoryTakes s (s.update a n f rel).2 a n (f (BitVec.ofNat 64 (numberAt s a n))).toNat := by
  unfold State.update
  dsimp only
  rw [settleRange_of_none h]
  have key : MemoryTakes s (s.store a (leBytes n (f (BitVec.ofNat 64 (numberAt s a n))).toNat)) a n (f (BitVec.ofNat 64 (numberAt s a n))).toNat := by
    rw [← storeAt_of_none (by rwa [leBytes_length])]
    exact storeAt_takes h
  refine ⟨rfl, ?_⟩
  split
  · exact key
  · exact key

end Sys2Proof
end

