-- ==== Sys2Proof/Laws/Ops.lean ====
section
/-! SUPPORT. One law per shared operation: everything it can do, for proofs to cite instead of unfolding it. -/

namespace Sys2Proof

open Machine

/-! ### The end of an instruction -/

@[simp] theorem stopMask_nil : stopMask [] = 0 := rfl

/-- No stop is nothing to take. -/
@[simp] theorem raise_nil (s : State) : s.raise [] = s := by
  unfold State.raise
  split
  · rw [List.append_nil]
  · rfl
/-- With no stop, the end of an instruction moves the lanes of its path on, as a member of a chained group or alone. -/
theorem finish_nil (s : State) : finish s [] = s.advance [] := raise_nil _

/-- The frame and the lanes of a state whose path has gone on. -/
theorem advance_lanes (s : State) (f : Nat → Lane → Lane) (ls : LaneMask) (h : ls = s.cur.lanes) :
    LanesBecome s ((s.updLanes s.cur.wid (lanesOf ls) f).advance []) (fun l x => goOn s l (f l x)) := by
  subst h
  refine ⟨fun w hw => ?_, ?_, fun l => ?_⟩
  · simp [State.advance, State.wave_updLanes, hw]
  · simp [State.advance, Wave.upd]
  · unfold State.advance
    rw [State.lane_updLanes]
    simp only [State.updLanes_cur, stopMask_nil, true_and, State.lane_updLanes, BitVec.getLsbD_and, BitVec.getLsbD_not]
    by_cases hl : s.cur.lanes.getLsbD l = true
    · have hlt : l < 32 := by
        by_contra hn; rw [BitVec.getLsbD_of_ge _ _ (by omega)] at hl; exact absurd hl (by simp)
      by_cases hm : s.cur.moved.getLsbD l = true
      · simp [hl, hm, goOn]
      · by_cases hr : (f l (s.lane s.cur.wid l)).st = .run <;>
          simp [hl, goOn, hlt, hr, -BitVec.not_zero]
    · simp [hl]

@[simp] theorem goOn_nextId (s : State) (n : Nat) (l : Nat) (x : Lane) : goOn { s with nextId := n } l x = goOn s l x := rfl

/-! ### Per-lane results (R121, R141) -/

theorem perLane_writes (m : Mods) (t : Machine.Lat) (ds : List Dst) (f : Nat → List (Dst × W32) × BitVec 5) (s : State) :
    Writes s (perLane m t ds f s) m (t.due s.clock) ds (fun l => (f l).1) (fun l => (f l).2) := by
  unfold perLane
  rw [finish_nil]
  refine ⟨by simp [State.advance, State.updLanes, State.modWave, State.setWave], ?_⟩
  have := advance_lanes { s with nextId := s.nextId + 1 } (fun n l =>
    if m.active l then { l.send (t.due s.clock) s.nextId (f n).1 with lflags := l.lflags ||| (f n).2 }
    else if m.zero then l.send (t.due s.clock) s.nextId (zeroOuts ds) else l) s.cur.lanes rfl
  refine ⟨this.waves, this.rest, fun l => (this.lanes l).trans ?_⟩
  simp only [goOn_nextId]
  split
  · rfl
  · rfl

/-! ### Active lanes -/

theorem mem_activeLanes {s : State} {m : Mods} {l : Nat} : l ∈ s.activeLanes m ↔ On s m l := by
  simp [State.activeLanes, On, List.mem_filter]

theorem live_getLsbD (v : Wave) (l : Nat) : v.live.getLsbD l = (decide (l < 32) && (v.lane l).st != .exit) := by
  simp only [Wave.live, Wave.lanesWhere, getLsbD_maskOf, List.mem_filter, List.mem_range]
  by_cases h : l < 32 <;> by_cases hx : (v.lane l).st = .exit <;> simp [h, hx]

/-- The elected lane is the lowest active one. -/
theorem elected_eq {s : State} {m : Mods} {e : Nat} (h : Elected s m e) : s.elected m = some e := by
  have hs : (s.activeLanes m).Pairwise (· < ·) := by
    unfold State.activeLanes lanesOf
    exact (List.pairwise_lt_range.filter _).filter _
  have he := mem_activeLanes.2 h.1
  unfold State.elected
  cases hl : s.activeLanes m with
  | nil => rw [hl] at he; exact absurd he (by simp)
  | cons x xs =>
    rw [hl] at he hs
    have hx := h.2 x (mem_activeLanes.1 (by rw [hl]; exact List.mem_cons_self ..))
    rcases List.mem_cons.1 he with rfl | he
    · rfl
    · exact absurd ((List.pairwise_cons.1 hs).1 e he) (by omega)

/-! ### Stops (R306, R309) -/

theorem find_stop {f : Nat → StopRec} (hf : ∀ l, (f l).lane = l) (ls : List Nat) (l : Nat) :
    (ls.map f).find? (fun r => r.lane == l) = if l ∈ ls then some (f l) else none := by
  induction ls with
  | nil => rfl
  | cons x ls ih =>
    rw [List.map_cons, List.find?_cons]
    by_cases h : x = l
    · subst h; simp [hf]
    · rw [show ((f x).lane == l) = false from beq_false_of_ne (by rwa [hf])]
      simp [ih, Ne.symm h]

theorem stopWith_some (x : Lane) {r : StopRec} (h1 : r.stays = false) (h2 : r.after = false) :
    x.stopWith (some r) = { x with
      st := .trap, prior := .run, heldNext := x.nextPc, movedPc := false, waiting := false, wsb := false, trapPc := r.pc, resume := r.pc
      trapVa := r.va, memb := r.memb, trapCause := r.code ++ r.sub ++ r.cause.code } := by
  simp [Lane.stopWith, h1, h2]

/-- A stop record of a lane whose group does not complete: it stops at the group, and one with no cause records nothing. -/
structure AtGroup (s : State) (l : Nat) (r : StopRec) : Prop where
  lane : r.lane = l
  stays : r.stays = false
  after : r.after = false
  pc : r.pc = s.cur.gpc
  none : r.cause = .none → r.code ++ r.sub ++ r.cause.code = (0 : W32) ∧ r.va = 0

/-- Stops of the active lanes, whose group does not complete: the wave stops as R306 says. -/
theorem finish_stopsAs {s : State} {m : Mods} {f : Nat → StopRec} (h : Alone s) (ha : ∃ l, On s m l) (hf : ∀ l, AtGroup s l (f l)) :
    StopsAs s (finish s ((s.activeLanes m).map f)) (fun l => decide (l ∈ s.activeLanes m ∧ (f l).cause ≠ .none))
      (fun l => (f l).code ++ (f l).sub ++ (f l).cause.code) (fun l => (f l).va) (fun _ => s.cur.gpc) (fun _ => s.cur.gpc)
      (fun l => if decide (l ∈ s.activeLanes m) then s.cur.gpc else standsAt s l) := by
  obtain ⟨e, he⟩ := ha
  have hne : s.activeLanes m ≠ [] := fun h0 => by
    have := mem_activeLanes.2 he
    rw [h0] at this
    exact absurd this (by simp)
  set st := (s.activeLanes m).map f with hst
  have hmask : ∀ l, (stopMask st).getLsbD l = (decide (l ∈ s.activeLanes m) && decide (l < 32)) := by
    intro l
    have : (st.filter (fun r => !r.after)).map (fun r => r.lane) = s.activeLanes m := by
      rw [hst, List.filter_eq_self.2 (by intro r hr; obtain ⟨x, -, rfl⟩ := List.mem_map.1 hr; simp [(hf x).after]), List.map_map]
      exact (List.map_congr_left (fun x _ => (hf x).lane)).trans (List.map_id _)
    rw [stopMask, this, getLsbD_maskOf]
  obtain ⟨r0, rs, hcons⟩ : ∃ r rs, st = r :: rs := by
    cases hs : st with
    | nil => exact absurd (List.map_eq_nil_iff.1 hs) hne
    | cons r rs => exact ⟨r, rs, rfl⟩
  have hsys : ((s.advance st).wave s.cur.wid).sys = false := by
    simp only [State.advance, State.wave_updLanes_self]
    exact h.1
  have hfin : finish s st = takeStop (s.advance st) s.cur.wid st := by
    unfold finish State.raise
    rw [if_neg (by rw [show (s.advance st).cur = s.cur from rfl, h.2.1, h.2.2]; simp)]
    rfl
  set v := (s.advance st).wave s.cur.wid with hv
  have htake : takeStop (s.advance st) s.cur.wid st =
      ((s.advance st).modCore ((s.advance st).troupe v.tid).pkg ((s.advance st).troupe v.tid).core
        (fun x => { x with grantQ := x.grantQ.filter (fun g => g.1 != s.cur.wid) })).setWave s.cur.wid
        { (v.upd (lanesOf v.live) (fun l x => x.stopWith (st.find? (fun r => r.lane == l)))) with
          stopped := true, waits := [], trapLanes := trapMask st } := by
    unfold takeStop
    rw [hcons]
    simp only [← hcons, ← hv]
    rw [if_neg (by rw [hsys]; simp)]
  have hlane : ∀ l, v.lane l = if (s.cur.lanes.getLsbD l = true ∧ s.cur.moved.getLsbD l = false) ∧ l ∉ s.activeLanes m ∧ (s.lane s.cur.wid l).st = .run
      then { s.lane s.cur.wid l with pc := s.cur.npc } else s.lane s.cur.wid l := by
    intro l
    show (s.advance st).lane s.cur.wid l = _
    unfold State.advance
    rw [State.lane_updLanes]
    simp only [true_and, BitVec.getLsbD_and, BitVec.getLsbD_not, hmask]
    by_cases hl : l < 32
    · by_cases h1 : s.cur.lanes.getLsbD l = true <;> by_cases h3 : l ∈ s.activeLanes m <;> by_cases h4 : (s.lane s.cur.wid l).st = .run <;>
        simp [hl, h1, h3, h4]
    · have : s.cur.lanes.getLsbD l = false := BitVec.getLsbD_of_ge _ _ (by omega)
      simp [this]
  have hst' : ∀ l, (v.lane l).st = (s.lane s.cur.wid l).st := by
    intro l; rw [hlane]; split <;> rfl
  have htl : ∀ l, (finish s st).lane s.cur.wid l =
      if l < 32 ∧ (s.lane s.cur.wid l).st ≠ .exit then (v.lane l).stopWith (if l ∈ s.activeLanes m then some (f l) else none)
      else v.lane l := by
    intro l
    rw [hfin, htake, State.lane_setWave, if_pos rfl]
    refine Eq.trans (show _ = (v.upd (lanesOf v.live) (fun l x => x.stopWith (st.find? (fun r => r.lane == l)))).lane l from rfl) ?_
    rw [Wave.lane_upd _ _ _ _ (lanesOf_nodup _)]
    simp only [mem_lanesOf, live_getLsbD, hst', hst]
    rw [find_stop (fun l => (hf l).lane)]
    by_cases hl : l < 32 <;> by_cases hx : (s.lane s.cur.wid l).st = .exit <;> simp [hl, hx]
  have hother : ∀ w, w ≠ s.cur.wid → (finish s st).wave w = s.wave w := by
    intro w hw
    rw [hfin, htake, State.wave_setWave, if_neg hw]
    show (s.advance st).wave w = _
    rw [State.advance, State.wave_updLanes, if_neg hw]
  refine ⟨hother, ?_, ?_, ?_, ?_⟩
  · rw [hfin, htake, State.wave_setWave, if_pos rfl]
    refine ⟨rfl, ?_, rfl, fun l hl => ?_⟩
    · show v.sys = _
      rw [hsys]; exact h.1.symm
    · show (trapMask st).getLsbD l = true ↔ _
      rw [trapMask, getLsbD_maskOf, hst]
      simp only [List.mem_map, List.mem_filter, Bool.and_eq_true, decide_eq_true_eq, hl, and_true]
      constructor
      · rintro ⟨r, ⟨⟨x, hx, rfl⟩, hc⟩, rfl⟩
        rw [(hf x).lane]
        exact ⟨hx, by simpa using hc⟩
      · rintro ⟨hx, hc⟩
        exact ⟨f l, ⟨⟨l, hx, rfl⟩, by simpa using hc⟩, (hf l).lane⟩
  · intro l hx
    rw [htl, if_neg (by simp [hx]), hlane, if_neg (by simp [hx])]
  · intro l hl hx
    dsimp only
    rw [htl, if_pos ⟨hl, hx⟩]
    by_cases hin : l ∈ s.activeLanes m
    · have hv' : v.lane l = s.lane s.cur.wid l := by rw [hlane, if_neg (by simp [hin])]
      rw [if_pos hin, hv', stopWith_some _ (hf l).stays (hf l).after]
      refine ⟨rfl, rfl, rfl, rfl, rfl, fun _ => ⟨rfl, rfl, (hf l).pc, (hf l).pc⟩, fun hn => ?_⟩
      have hcn : (f l).cause = .none := by simpa [hin] using hn
      rw [if_pos (by simp [hin])]
      exact ⟨((hf l).none hcn).1, ((hf l).none hcn).2, (hf l).pc, (hf l).pc⟩
    · have hs : (v.lane l).pc = standsAt s l := by
        rw [hlane]
        unfold standsAt
        by_cases h1 : s.cur.lanes.getLsbD l = true <;> by_cases h2 : s.cur.moved.getLsbD l = false <;>
          by_cases h4 : (s.lane s.cur.wid l).st = .run <;> simp [h1, h2, h4, hin]
      rw [if_neg hin]
      have hk : (v.lane l).g = (s.lane s.cur.wid l).g ∧ (v.lane l).p = (s.lane s.cur.wid l).p ∧ (v.lane l).lflags = (s.lane s.cur.wid l).lflags ∧
          (v.lane l).pend = (s.lane s.cur.wid l).pend := by
        rw [hlane]; split <;> exact ⟨rfl, rfl, rfl, rfl⟩
      rw [if_neg (by simp [hin])]
      exact ⟨rfl, hk.1, hk.2.1, hk.2.2.1, hk.2.2.2, fun hf => absurd hf (by simp [hin]), fun _ => ⟨rfl, rfl, hs, hs⟩⟩
  · rw [hfin, htake]
    exact ⟨rfl, rfl, rfl, rfl, rfl, rfl⟩

/-- The word that a stop record leaves in TRAPCAUSE. -/
theorem causeWord_eq (c : Cause) (sub : Byte) : (0 : W16) ++ sub ++ c.code = causeWord c.code.toNat sub.toNat 0 := by
  apply BitVec.eq_of_toNat_eq
  have h1 := sub.isLt
  have h2 := c.code.isLt
  rw [causeWord, BitVec.toNat_append, BitVec.toNat_append, BitVec.toNat_ofNat, show (0 : BitVec 16).toNat = 0 from rfl, Nat.zero_shiftLeft, Nat.zero_or,
    ← Nat.shiftLeft_add_eq_or_of_lt h2, Nat.shiftLeft_eq]
  omega

/-- Every active lane takes one stop, whose group does not complete. -/
theorem finish_stops {s : State} {m : Mods} {c : Cause} {sub : Byte} {va : W64} (h : Alone s) (ha : ∃ l, On s m l)
    (hc : (s.stopRec 0 c sub va).stays = false) (hn : c ≠ .none) : StopsActive s (refuseWith s m c sub va) m c.code.toNat sub.toNat va := by
  have := finish_stopsAs (f := fun l => s.stopRec l c sub va) h ha (fun l => ⟨rfl, hc, rfl, rfl, fun h0 => absurd h0 hn⟩)
  refine ⟨_, fun l => ?_, { this with lanes := fun l hl hx => ?_ }⟩
  · rw [decide_eq_true_eq, mem_activeLanes]
    exact and_iff_left hn
  · obtain ⟨a1, a2, a3, a4, a5, a6, a7⟩ := this.lanes l hl hx
    refine ⟨a1, a2, a3, a4, a5, fun hw => ?_, fun hw => ?_⟩
    · obtain ⟨b1, b2, b3, b4⟩ := a6 hw
      exact ⟨b1.trans (causeWord_eq c sub), b2, b3, b4⟩
    · obtain ⟨b1, b2, b3, b4⟩ := a7 hw
      have : l ∉ s.activeLanes m := by simpa [State.stopRec, hn] using hw
      rw [if_neg (by simp [this])] at b3 b4
      exact ⟨b1, b2, b3, b4⟩
/-- A fault of the electing lane, with which the other active lanes stop. -/
theorem faultElected_stops {s : State} {m : Mods} {c : Cause} {sub : Byte} {va : W64} (h : Alone s) (ha : ∃ l, On s m l)
    (hc : (s.stopRec 0 c sub va).stays = false) (hn : c ≠ .none) : StopsElected s (faultElected s m c sub va) m c.code.toNat sub.toNat va := by
  have hel : ∀ l, Elected s m l ↔ s.elected m = some l := by
    intro l
    refine ⟨elected_eq, fun he => ?_⟩
    obtain ⟨e, hee⟩ : ∃ e, Elected s m e := by
      obtain ⟨x, hx⟩ := ha
      have hlt : x < 32 := by
        by_contra hge
        exact absurd hx.1 (by rw [BitVec.getLsbD_of_ge _ _ (by omega)]; simp)
      classical
      exact ⟨Nat.find ⟨x, hx⟩, Nat.find_spec ⟨x, hx⟩, fun l hl => Nat.find_min' ⟨x, hx⟩ hl⟩
    have := elected_eq hee
    rw [he] at this
    rw [Option.some.inj this]
    exact hee
  have hmem : ∀ l, s.elected m = some l → l ∈ s.activeLanes m := fun l he => mem_activeLanes.2 ((hel l).2 he).1
  have := finish_stopsAs (f := fun l => if s.elected m = some l then s.stopRec l c sub va else s.stopRec l .none 0 0) h ha
    (fun l => by
      by_cases he : s.elected m = some l
      · simp only [he, if_true]; exact ⟨rfl, hc, rfl, rfl, fun h0 => absurd h0 hn⟩
      · simp only [he, if_false]; exact ⟨rfl, rfl, rfl, rfl, fun _ => ⟨show (0 : W16) ++ (0 : Byte) ++ Cause.none.code = (0 : W32) by decide, rfl⟩⟩)
  have hwho : ∀ l, (l ∈ s.activeLanes m ∧ (if s.elected m = some l then s.stopRec l c sub va else s.stopRec l .none 0 0).cause ≠ .none) ↔
      s.elected m = some l := by
    intro l
    by_cases he : s.elected m = some l
    · simp [he, hmem l he, State.stopRec, hn]
    · simp [he, State.stopRec]
  refine ⟨_, fun l => decide (l ∈ s.activeLanes m), fun l => ?_, fun l => by simp [mem_activeLanes], { this with lanes := fun l hl hx => ?_ }⟩
  · rw [hel, decide_eq_true_eq, hwho]
  · obtain ⟨a1, a2, a3, a4, a5, a6, a7⟩ := this.lanes l hl hx
    refine ⟨a1, a2, a3, a4, a5, fun hw => ?_, a7⟩
    have he : s.elected m = some l := (hwho l).1 (of_decide_eq_true hw)
    obtain ⟨b1, b2, b3, b4⟩ := a6 hw
    rw [if_pos he] at b1 b2
    exact ⟨b1.trans (causeWord_eq c sub), b2, b3, b4⟩
/-- A refusal of every active lane: ILLEGAL with its sub-cause. -/
theorem refuse_stops {s : State} {m : Mods} {sub : Sub} (h : Alone s) (ha : ∃ l, On s m l) :
    StopsActive s (refuse s m sub) m 0x10 sub.code.toNat 0 := finish_stops (c := .illegal) h ha rfl (by decide)

/-! ### Waits (R35, R206) -/

/-- The path waits at its instruction, and nothing else happens. -/
theorem waitAt_waits (s : State) (i : Instr) : Waits i s (waitAt s i) := by
  refine ⟨rfl, fun w hw => ?_, ?_, fun l => ?_⟩
  · simp [waitAt, waitFor, State.modWave, State.wave_setWave, hw]
  · simp [waitAt, waitFor, State.modWave, Wave.upd]
  · unfold waitAt waitFor State.modWave
    rw [State.lane_setWave, if_pos rfl]
    refine Eq.trans (show _ = ((s.wave s.cur.wid).upd (lanesOf s.cur.lanes) (fun _ l => { l with waiting := true })).lane l from rfl) ?_
    rw [Wave.lane_upd _ _ _ _ (lanesOf_nodup _)]
    simp only [mem_lanesOf]
    rfl

/-! ### Results of every active lane (R204) -/

/-- The path goes on with nothing done. -/
theorem finish_goesOn (s : State) : GoesOn s (finish s []) := by
  rw [finish_nil]
  refine ⟨fun w hw => ?_, ?_, fun l => ?_⟩
  · rw [State.advance, State.wave_updLanes, if_neg hw]
  · simp [State.advance, Wave.upd]
  · unfold State.advance
    rw [State.lane_updLanes]
    simp only [stopMask_nil, true_and, BitVec.getLsbD_and, BitVec.getLsbD_not, goOn]
    by_cases hl : s.cur.lanes.getLsbD l = true
    · have hlt : l < 32 := by
        by_contra hn
        rw [BitVec.getLsbD_of_ge _ _ (by omega)] at hl
        exact absurd hl (by simp)
      by_cases hr : (s.lane s.cur.wid l).st = .run <;> simp [hl, hlt, hr, -BitVec.not_zero]
    · simp [hl]
/-- One result for every active lane is sent, and the path goes on. -/
theorem sendAll_goesOn (s : State) (m : Mods) (t : Machine.Lat) (d : Reg) (n : Nat) (outs : List (Dst × W32)) :
    LanesBecome s (finish (sendAll s m t d n outs) []) (fun l x => goOn s l (sends s m (t.due s.clock) (dstRegs d n) (fun _ => outs) (fun _ => 0) l x)) := by
  rw [finish_nil]
  have := advance_lanes { s with nextId := s.nextId + 1 } (fun _ l =>
    if m.active l then l.send (t.due s.clock) s.nextId outs else if m.zero then l.send (t.due s.clock) s.nextId (zeroOuts (dstRegs d n)) else l) s.cur.lanes rfl
  refine ⟨this.waves, this.rest, fun l => (this.lanes l).trans ?_⟩
  simp only [goOn_nextId]
  refine Eq.trans (show _ = if s.cur.lanes.getLsbD l then goOn s l (if m.active (s.lane s.cur.wid l) then (s.lane s.cur.wid l).send (t.due s.clock) s.nextId outs
    else if m.zero then (s.lane s.cur.wid l).send (t.due s.clock) s.nextId (zeroOuts (dstRegs d n)) else s.lane s.cur.wid l)
    else s.lane s.cur.wid l from rfl) ?_
  have hz : ∀ x : Lane, { x with pend := x.pend ++ inFlight (t.due s.clock) s.nextId outs, lflags := x.lflags ||| 0 } = x.send (t.due s.clock) s.nextId outs := by
    intro x
    rw [show x.lflags ||| 0 = x.lflags from BitVec.or_zero]
    rfl
  unfold sends
  simp only [hz]
  rfl

/-! ### Shared operations keep memory in its form -/

theorem stopContext_canonical {s : State} (h : Canonical s) (k : Nat) (c : W32) (cause : Cause) (sub : Byte) (pc va : W64) :
    Canonical (stopContext s k c cause sub pc va) := by
  unfold stopContext
  dsimp only
  have h2 : ∀ (w : List (Nat × Wave)) (ts : List (Nat × Troupe)) (f : Pkg → Pkg), (f (s.pkg k)).host.hostMem = (s.pkg k).host.hostMem →
      Canonical (State.modPkg { s with waves := w, troupes := ts } k f) := fun w ts f hf =>
    Canonical.setPkg (s := { s with waves := w, troupes := ts }) ⟨h.1, h.2⟩ k
      (by have hk := h.2 k; rw [← hf] at hk; exact hk)
  split
  · split
    · exact h2 _ _ _ rfl
    · exact hostEvent_canonical (h2 _ _ _ rfl) _ _ _ _ _ _ _
  · split
    · exact h
    · exact hostEvent_canonical (h2 _ _ _ rfl) _ _ _ _ _ _ _
theorem advance_canonical {s : State} (h : Canonical s) (st : List StopRec) : Canonical (s.advance st) := h.of_eq rfl rfl
theorem updLanes_canonical {s : State} (h : Canonical s) (w : Nat) (ls : List Nat) (f : Nat → Lane → Lane) : Canonical (s.updLanes w ls f) := h.of_eq rfl rfl
theorem setWave_canonical {s : State} (h : Canonical s) (w : Nat) (v : Wave) : Canonical (s.setWave w v) := h.of_eq rfl rfl
theorem modWave_canonical {s : State} (h : Canonical s) (w : Nat) (f : Wave → Wave) : Canonical (s.modWave w f) := h.of_eq rfl rfl
theorem modTroupe_canonical {s : State} (h : Canonical s) (t : Nat) (f : Troupe → Troupe) : Canonical (s.modTroupe t f) := h.of_eq rfl rfl
theorem modCore_canonical {s : State} (h : Canonical s) (k c : Nat) (f : Core → Core) : Canonical (s.modCore k c f) := h.setPkg k (h.2 k)
theorem takeStop_canonical {s : State} (h : Canonical s) (w : Nat) (st : List StopRec) : Canonical (takeStop s w st) := by
  cases st with
  | nil => exact h
  | cons r st =>
    unfold takeStop
    dsimp only
    split
    · split
      · exact hostEvent_canonical (s := s.setWave w _) (h.of_eq rfl rfl) _ _ _ _ _ _ _
      · exact stopContext_canonical h _ _ _ _ _ _
    · exact setWave_canonical (modCore_canonical h _ _ _) _ _
theorem raise_canonical {s : State} (h : Canonical s) (st : List StopRec) : Canonical (s.raise st) := by
  unfold State.raise
  split
  · exact h.of_eq rfl rfl
  · exact takeStop_canonical h _ _
theorem finish_canonical {s : State} (h : Canonical s) (st : List StopRec) : Canonical (finish s st) := raise_canonical (advance_canonical h st) st
theorem settle_canonical {s : State} (h : Canonical s) (w : Nat) : Canonical (settle s w) := by
  unfold settle
  dsimp only
  split
  · exact takeStop_canonical h _ _
  · exact h
theorem refuse_canonical {s : State} (h : Canonical s) (m : Mods) (sub : Sub) : Canonical (refuse s m sub) := finish_canonical h _
theorem refuseWith_canonical {s : State} (h : Canonical s) (m : Mods) (c : Cause) (sub : Byte) (va : W64) : Canonical (refuseWith s m c sub va) :=
  finish_canonical h _
theorem faultElected_canonical {s : State} (h : Canonical s) (m : Mods) (c : Cause) (sub : Byte) (va : W64) : Canonical (faultElected s m c sub va) :=
  finish_canonical h _
theorem waitAt_canonical {s : State} (h : Canonical s) (i : Instr) : Canonical (waitAt s i) := h.of_eq rfl rfl
theorem sendAll_canonical {s : State} (h : Canonical s) (m : Mods) (t : Machine.Lat) (d : Reg) (n : Nat) (outs : List (Dst × W32)) :
    Canonical (sendAll s m t d n outs) := h.of_eq rfl rfl
theorem oweAll_canonical {s : State} (h : Canonical s) (m : Mods) (remote : Bool) (d : Reg) (n : Nat) : Canonical (oweAll s m remote d n).1 := h.of_eq rfl rfl
theorem perLane_canonical {s : State} (h : Canonical s) (m : Mods) (t : Machine.Lat) (ds : List Dst) (f : Nat → List (Dst × W32) × BitVec 5) :
    Canonical (perLane m t ds f s) := finish_canonical (s := State.updLanes { s with nextId := s.nextId + 1 } _ _ _) (h.of_eq rfl rfl) _

end Sys2Proof
end

