-- ==== Sys2Proof/Laws/PerInstr.lean ====
section
/-! SUPPORT. Per instruction: a row with option, literal, stall and chain fields has a major and three operand fields, and an
event has neither. -/

namespace Sys2Proof.Laws.Coded

/-- A word row has a major from 1 to 62 for its words; an event has no words (R68, R93). -/
def Statement (i : Instr) : Prop :=
  match i.fields with
  | some f => i.mods.isSome = true ∧ 1 ≤ f.1 ∧ f.1 ≤ 62
  | none => i.mods = none ∧ encode i = []

theorem iadd (m : Mods) (d : Reg) (a : Reg) (b : Reg) : Statement (.iadd m d a b) := ⟨rfl, Nat.le_of_ble_eq_true rfl, Nat.le_of_ble_eq_true rfl⟩
theorem isub (m : Mods) (d : Reg) (a : Reg) (b : Reg) : Statement (.isub m d a b) := ⟨rfl, Nat.le_of_ble_eq_true rfl, Nat.le_of_ble_eq_true rfl⟩
theorem imul (m : Mods) (d : Reg) (a : Reg) (b : Reg) : Statement (.imul m d a b) := ⟨rfl, Nat.le_of_ble_eq_true rfl, Nat.le_of_ble_eq_true rfl⟩
theorem imad (m : Mods) (d : Reg) (a : Reg) (b : Reg) : Statement (.imad m d a b) := ⟨rfl, Nat.le_of_ble_eq_true rfl, Nat.le_of_ble_eq_true rfl⟩
theorem andB32 (m : Mods) (d : Reg) (a : Reg) (b : Reg) : Statement (.andB32 m d a b) := ⟨rfl, Nat.le_of_ble_eq_true rfl, Nat.le_of_ble_eq_true rfl⟩
theorem orB32 (m : Mods) (d : Reg) (a : Reg) (b : Reg) : Statement (.orB32 m d a b) := ⟨rfl, Nat.le_of_ble_eq_true rfl, Nat.le_of_ble_eq_true rfl⟩
theorem xorB32 (m : Mods) (d : Reg) (a : Reg) (b : Reg) : Statement (.xorB32 m d a b) := ⟨rfl, Nat.le_of_ble_eq_true rfl, Nat.le_of_ble_eq_true rfl⟩
theorem shl (m : Mods) (d : Reg) (a : Reg) (b : Reg) : Statement (.shl m d a b) := ⟨rfl, Nat.le_of_ble_eq_true rfl, Nat.le_of_ble_eq_true rfl⟩
theorem shr (m : Mods) (d : Reg) (a : Reg) (b : Reg) : Statement (.shr m d a b) := ⟨rfl, Nat.le_of_ble_eq_true rfl, Nat.le_of_ble_eq_true rfl⟩
theorem sar (m : Mods) (d : Reg) (a : Reg) (b : Reg) : Statement (.sar m d a b) := ⟨rfl, Nat.le_of_ble_eq_true rfl, Nat.le_of_ble_eq_true rfl⟩
theorem lea (m : Mods) (d : Reg) (a : Reg) (b : Reg) : Statement (.lea m d a b) := ⟨rfl, Nat.le_of_ble_eq_true rfl, Nat.le_of_ble_eq_true rfl⟩
theorem sel (m : Mods) (d : Reg) (a : Reg) (b : Reg) : Statement (.sel m d a b) := ⟨rfl, Nat.le_of_ble_eq_true rfl, Nat.le_of_ble_eq_true rfl⟩
theorem bfx (m : Mods) (d : Reg) (a : Reg) (b : Reg) : Statement (.bfx m d a b) := ⟨rfl, Nat.le_of_ble_eq_true rfl, Nat.le_of_ble_eq_true rfl⟩
theorem bfi (m : Mods) (d : Reg) (a : Reg) (b : Reg) : Statement (.bfi m d a b) := ⟨rfl, Nat.le_of_ble_eq_true rfl, Nat.le_of_ble_eq_true rfl⟩
theorem prmt (m : Mods) (d : Reg) (a : Reg) (b : Reg) : Statement (.prmt m d a b) := ⟨rfl, Nat.le_of_ble_eq_true rfl, Nat.le_of_ble_eq_true rfl⟩
theorem shf (m : Mods) (d : Reg) (a : Reg) (b : Reg) : Statement (.shf m d a b) := ⟨rfl, Nat.le_of_ble_eq_true rfl, Nat.le_of_ble_eq_true rfl⟩
theorem lop3 (m : Mods) (d : Reg) (a : Reg) (b : Reg) : Statement (.lop3 m d a b) := ⟨rfl, Nat.le_of_ble_eq_true rfl, Nat.le_of_ble_eq_true rfl⟩
theorem iaddi (m : Mods) (d : Reg) (a : Reg) (i : BitVec 7) : Statement (.iaddi m d a i) := ⟨rfl, Nat.le_of_ble_eq_true rfl, Nat.le_of_ble_eq_true rfl⟩
theorem shi (m : Mods) (o : ShOp) (n : BitVec 5) (d : Reg) (a : Reg) : Statement (.shi m o n d a) := ⟨rfl, Nat.le_of_ble_eq_true rfl, Nat.le_of_ble_eq_true rfl⟩
theorem movi (m : Mods) (d : Reg) (i : BitVec 14) : Statement (.movi m d i) := ⟨rfl, Nat.le_of_ble_eq_true rfl, Nat.le_of_ble_eq_true rfl⟩
theorem movl (m : Mods) (d : Reg) (i : BitVec 14) : Statement (.movl m d i) := ⟨rfl, Nat.le_of_ble_eq_true rfl, Nat.le_of_ble_eq_true rfl⟩
theorem movh (m : Mods) (d : Reg) (i : BitVec 14) : Statement (.movh m d i) := ⟨rfl, Nat.le_of_ble_eq_true rfl, Nat.le_of_ble_eq_true rfl⟩
theorem mov (m : Mods) (w : Bool) (d : Reg) (a : Reg) : Statement (.mov m w d a) := ⟨rfl, Nat.le_of_ble_eq_true rfl, Nat.le_of_ble_eq_true rfl⟩
theorem popc (m : Mods) (w : Bool) (d : Reg) (a : Reg) : Statement (.popc m w d a) := ⟨rfl, Nat.le_of_ble_eq_true rfl, Nat.le_of_ble_eq_true rfl⟩
theorem clz (m : Mods) (w : Bool) (d : Reg) (a : Reg) : Statement (.clz m w d a) := ⟨rfl, Nat.le_of_ble_eq_true rfl, Nat.le_of_ble_eq_true rfl⟩
theorem ctz (m : Mods) (w : Bool) (d : Reg) (a : Reg) : Statement (.ctz m w d a) := ⟨rfl, Nat.le_of_ble_eq_true rfl, Nat.le_of_ble_eq_true rfl⟩
theorem brev (m : Mods) (w : Bool) (d : Reg) (a : Reg) : Statement (.brev m w d a) := ⟨rfl, Nat.le_of_ble_eq_true rfl, Nat.le_of_ble_eq_true rfl⟩
theorem iabs (m : Mods) (w : Bool) (d : Reg) (a : Reg) : Statement (.iabs m w d a) := ⟨rfl, Nat.le_of_ble_eq_true rfl, Nat.le_of_ble_eq_true rfl⟩
theorem ineg (m : Mods) (w : Bool) (d : Reg) (a : Reg) : Statement (.ineg m w d a) := ⟨rfl, Nat.le_of_ble_eq_true rfl, Nat.le_of_ble_eq_true rfl⟩
theorem iaddB64 (m : Mods) (d : Reg) (a : Reg) : Statement (.iaddB64 m d a) := ⟨rfl, Nat.le_of_ble_eq_true rfl, Nat.le_of_ble_eq_true rfl⟩
theorem isubB64 (m : Mods) (d : Reg) (a : Reg) : Statement (.isubB64 m d a) := ⟨rfl, Nat.le_of_ble_eq_true rfl, Nat.le_of_ble_eq_true rfl⟩
theorem imulB64 (m : Mods) (d : Reg) (a : Reg) : Statement (.imulB64 m d a) := ⟨rfl, Nat.le_of_ble_eq_true rfl, Nat.le_of_ble_eq_true rfl⟩
theorem iaddcB32 (m : Mods) (d : Reg) (a : Reg) : Statement (.iaddcB32 m d a) := ⟨rfl, Nat.le_of_ble_eq_true rfl, Nat.le_of_ble_eq_true rfl⟩
theorem isubbB32 (m : Mods) (d : Reg) (a : Reg) : Statement (.isubbB32 m d a) := ⟨rfl, Nat.le_of_ble_eq_true rfl, Nat.le_of_ble_eq_true rfl⟩
theorem iaddcB64 (m : Mods) (d : Reg) (a : Reg) : Statement (.iaddcB64 m d a) := ⟨rfl, Nat.le_of_ble_eq_true rfl, Nat.le_of_ble_eq_true rfl⟩
theorem isubbB64 (m : Mods) (d : Reg) (a : Reg) : Statement (.isubbB64 m d a) := ⟨rfl, Nat.le_of_ble_eq_true rfl, Nat.le_of_ble_eq_true rfl⟩
theorem imulh (m : Mods) (t : IType) (d : Reg) (a : Reg) : Statement (.imulh m t d a) := ⟨rfl, Nat.le_of_ble_eq_true rfl, Nat.le_of_ble_eq_true rfl⟩
theorem imadw (m : Mods) (sg : Bool) (d : Reg) (a : Reg) : Statement (.imadw m sg d a) := ⟨rfl, Nat.le_of_ble_eq_true rfl, Nat.le_of_ble_eq_true rfl⟩
theorem idiv (m : Mods) (t : IType) (d : Reg) (a : Reg) : Statement (.idiv m t d a) := ⟨rfl, Nat.le_of_ble_eq_true rfl, Nat.le_of_ble_eq_true rfl⟩
theorem irem (m : Mods) (t : IType) (d : Reg) (a : Reg) : Statement (.irem m t d a) := ⟨rfl, Nat.le_of_ble_eq_true rfl, Nat.le_of_ble_eq_true rfl⟩
theorem imin (m : Mods) (t : IType) (d : Reg) (a : Reg) : Statement (.imin m t d a) := ⟨rfl, Nat.le_of_ble_eq_true rfl, Nat.le_of_ble_eq_true rfl⟩
theorem imax (m : Mods) (t : IType) (d : Reg) (a : Reg) : Statement (.imax m t d a) := ⟨rfl, Nat.le_of_ble_eq_true rfl, Nat.le_of_ble_eq_true rfl⟩
theorem iclamp (m : Mods) (t : IType) (d : Reg) (a : Reg) : Statement (.iclamp m t d a) := ⟨rfl, Nat.le_of_ble_eq_true rfl, Nat.le_of_ble_eq_true rfl⟩
theorem dp4 (m : Mods) (t : DpType) (d : Reg) (a : Reg) : Statement (.dp4 m t d a) := ⟨rfl, Nat.le_of_ble_eq_true rfl, Nat.le_of_ble_eq_true rfl⟩
theorem shlB64 (m : Mods) (d : Reg) (a : Reg) : Statement (.shlB64 m d a) := ⟨rfl, Nat.le_of_ble_eq_true rfl, Nat.le_of_ble_eq_true rfl⟩
theorem shrB64 (m : Mods) (d : Reg) (a : Reg) : Statement (.shrB64 m d a) := ⟨rfl, Nat.le_of_ble_eq_true rfl, Nat.le_of_ble_eq_true rfl⟩
theorem sarB64 (m : Mods) (d : Reg) (a : Reg) : Statement (.sarB64 m d a) := ⟨rfl, Nat.le_of_ble_eq_true rfl, Nat.le_of_ble_eq_true rfl⟩
theorem rotlB32 (m : Mods) (d : Reg) (a : Reg) : Statement (.rotlB32 m d a) := ⟨rfl, Nat.le_of_ble_eq_true rfl, Nat.le_of_ble_eq_true rfl⟩
theorem rotlB64 (m : Mods) (d : Reg) (a : Reg) : Statement (.rotlB64 m d a) := ⟨rfl, Nat.le_of_ble_eq_true rfl, Nat.le_of_ble_eq_true rfl⟩
theorem andB64 (m : Mods) (d : Reg) (a : Reg) : Statement (.andB64 m d a) := ⟨rfl, Nat.le_of_ble_eq_true rfl, Nat.le_of_ble_eq_true rfl⟩
theorem orB64 (m : Mods) (d : Reg) (a : Reg) : Statement (.orB64 m d a) := ⟨rfl, Nat.le_of_ble_eq_true rfl, Nat.le_of_ble_eq_true rfl⟩
theorem xorB64 (m : Mods) (d : Reg) (a : Reg) : Statement (.xorB64 m d a) := ⟨rfl, Nat.le_of_ble_eq_true rfl, Nat.le_of_ble_eq_true rfl⟩
theorem pmov (m : Mods) (d : Reg) (a : Reg) : Statement (.pmov m d a) := ⟨rfl, Nat.le_of_ble_eq_true rfl, Nat.le_of_ble_eq_true rfl⟩
theorem pset (m : Mods) (d : Reg) (v : Bool) : Statement (.pset m d v) := ⟨rfl, Nat.le_of_ble_eq_true rfl, Nat.le_of_ble_eq_true rfl⟩
theorem p2g (m : Mods) (d : Reg) (k : BitVec 2) : Statement (.p2g m d k) := ⟨rfl, Nat.le_of_ble_eq_true rfl, Nat.le_of_ble_eq_true rfl⟩
theorem g2p (m : Mods) (k : BitVec 2) (a : Reg) : Statement (.g2p m k a) := ⟨rfl, Nat.le_of_ble_eq_true rfl, Nat.le_of_ble_eq_true rfl⟩
theorem plop3 (m : Mods) (d : Reg) (a : Reg) : Statement (.plop3 m d a) := ⟨rfl, Nat.le_of_ble_eq_true rfl, Nat.le_of_ble_eq_true rfl⟩
theorem icmpEq (m : Mods) (w : Bool) (p : BitVec 6) (a : Reg) (b : Reg) : Statement (.icmpEq m w p a b) := ⟨rfl, Nat.le_of_ble_eq_true rfl, Nat.le_of_ble_eq_true rfl⟩
theorem icmpNe (m : Mods) (w : Bool) (p : BitVec 6) (a : Reg) (b : Reg) : Statement (.icmpNe m w p a b) := ⟨rfl, Nat.le_of_ble_eq_true rfl, Nat.le_of_ble_eq_true rfl⟩
theorem icmpLtS (m : Mods) (w : Bool) (p : BitVec 6) (a : Reg) (b : Reg) : Statement (.icmpLtS m w p a b) := ⟨rfl, Nat.le_of_ble_eq_true rfl, Nat.le_of_ble_eq_true rfl⟩
theorem icmpLtZ (m : Mods) (w : Bool) (p : BitVec 6) (a : Reg) (b : Reg) : Statement (.icmpLtZ m w p a b) := ⟨rfl, Nat.le_of_ble_eq_true rfl, Nat.le_of_ble_eq_true rfl⟩
theorem faddF32 (m : Mods) (d : Reg) (a : Reg) (b : Reg) : Statement (.faddF32 m d a b) := ⟨rfl, Nat.le_of_ble_eq_true rfl, Nat.le_of_ble_eq_true rfl⟩
theorem fsubF32 (m : Mods) (d : Reg) (a : Reg) (b : Reg) : Statement (.fsubF32 m d a b) := ⟨rfl, Nat.le_of_ble_eq_true rfl, Nat.le_of_ble_eq_true rfl⟩
theorem fmulF32 (m : Mods) (d : Reg) (a : Reg) (b : Reg) : Statement (.fmulF32 m d a b) := ⟨rfl, Nat.le_of_ble_eq_true rfl, Nat.le_of_ble_eq_true rfl⟩
theorem ffmaF32 (m : Mods) (d : Reg) (a : Reg) (b : Reg) : Statement (.ffmaF32 m d a b) := ⟨rfl, Nat.le_of_ble_eq_true rfl, Nat.le_of_ble_eq_true rfl⟩
theorem faddF64 (m : Mods) (d : Reg) (a : Reg) (b : Reg) : Statement (.faddF64 m d a b) := ⟨rfl, Nat.le_of_ble_eq_true rfl, Nat.le_of_ble_eq_true rfl⟩
theorem fmulF64 (m : Mods) (d : Reg) (a : Reg) (b : Reg) : Statement (.fmulF64 m d a b) := ⟨rfl, Nat.le_of_ble_eq_true rfl, Nat.le_of_ble_eq_true rfl⟩
theorem ffmaF64 (m : Mods) (d : Reg) (a : Reg) (b : Reg) : Statement (.ffmaF64 m d a b) := ⟨rfl, Nat.le_of_ble_eq_true rfl, Nat.le_of_ble_eq_true rfl⟩
theorem fcmpEq (m : Mods) (w : Bool) (p : BitVec 6) (a : Reg) (b : Reg) : Statement (.fcmpEq m w p a b) := ⟨rfl, Nat.le_of_ble_eq_true rfl, Nat.le_of_ble_eq_true rfl⟩
theorem fcmpLt (m : Mods) (w : Bool) (p : BitVec 6) (a : Reg) (b : Reg) : Statement (.fcmpLt m w p a b) := ⟨rfl, Nat.le_of_ble_eq_true rfl, Nat.le_of_ble_eq_true rfl⟩
theorem fcmpLe (m : Mods) (w : Bool) (p : BitVec 6) (a : Reg) (b : Reg) : Statement (.fcmpLe m w p a b) := ⟨rfl, Nat.le_of_ble_eq_true rfl, Nat.le_of_ble_eq_true rfl⟩
theorem fcmpUn (m : Mods) (w : Bool) (p : BitVec 6) (a : Reg) (b : Reg) : Statement (.fcmpUn m w p a b) := ⟨rfl, Nat.le_of_ble_eq_true rfl, Nat.le_of_ble_eq_true rfl⟩
theorem fabs (m : Mods) (f : FFmt) (d : Reg) (a : Reg) : Statement (.fabs m f d a) := ⟨rfl, Nat.le_of_ble_eq_true rfl, Nat.le_of_ble_eq_true rfl⟩
theorem fneg (m : Mods) (f : FFmt) (d : Reg) (a : Reg) : Statement (.fneg m f d a) := ⟨rfl, Nat.le_of_ble_eq_true rfl, Nat.le_of_ble_eq_true rfl⟩
theorem fsqrt (m : Mods) (f : FFmt) (d : Reg) (a : Reg) : Statement (.fsqrt m f d a) := ⟨rfl, Nat.le_of_ble_eq_true rfl, Nat.le_of_ble_eq_true rfl⟩
theorem frcp (m : Mods) (f : FFmt) (d : Reg) (a : Reg) : Statement (.frcp m f d a) := ⟨rfl, Nat.le_of_ble_eq_true rfl, Nat.le_of_ble_eq_true rfl⟩
theorem frsqrt (m : Mods) (f : FFmt) (d : Reg) (a : Reg) : Statement (.frsqrt m f d a) := ⟨rfl, Nat.le_of_ble_eq_true rfl, Nat.le_of_ble_eq_true rfl⟩
theorem fexp2 (m : Mods) (f : FFmt) (d : Reg) (a : Reg) : Statement (.fexp2 m f d a) := ⟨rfl, Nat.le_of_ble_eq_true rfl, Nat.le_of_ble_eq_true rfl⟩
theorem flog2 (m : Mods) (f : FFmt) (d : Reg) (a : Reg) : Statement (.flog2 m f d a) := ⟨rfl, Nat.le_of_ble_eq_true rfl, Nat.le_of_ble_eq_true rfl⟩
theorem fsinpi (m : Mods) (f : FFmt) (d : Reg) (a : Reg) : Statement (.fsinpi m f d a) := ⟨rfl, Nat.le_of_ble_eq_true rfl, Nat.le_of_ble_eq_true rfl⟩
theorem fcospi (m : Mods) (f : FFmt) (d : Reg) (a : Reg) : Statement (.fcospi m f d a) := ⟨rfl, Nat.le_of_ble_eq_true rfl, Nat.le_of_ble_eq_true rfl⟩
theorem ftanh (m : Mods) (f : FFmt) (d : Reg) (a : Reg) : Statement (.ftanh m f d a) := ⟨rfl, Nat.le_of_ble_eq_true rfl, Nat.le_of_ble_eq_true rfl⟩
theorem fclass (m : Mods) (f : FFmt) (d : Reg) (a : Reg) : Statement (.fclass m f d a) := ⟨rfl, Nat.le_of_ble_eq_true rfl, Nat.le_of_ble_eq_true rfl⟩
theorem fgetexp (m : Mods) (f : FFmt) (d : Reg) (a : Reg) : Statement (.fgetexp m f d a) := ⟨rfl, Nat.le_of_ble_eq_true rfl, Nat.le_of_ble_eq_true rfl⟩
theorem fgetman (m : Mods) (f : FFmt) (d : Reg) (a : Reg) : Statement (.fgetman m f d a) := ⟨rfl, Nat.le_of_ble_eq_true rfl, Nat.le_of_ble_eq_true rfl⟩
theorem frint (m : Mods) (f : FFmt) (d : Reg) (a : Reg) : Statement (.frint m f d a) := ⟨rfl, Nat.le_of_ble_eq_true rfl, Nat.le_of_ble_eq_true rfl⟩
theorem fadd (m : Mods) (f : FFmt) (d : Reg) (a : Reg) : Statement (.fadd m f d a) := ⟨rfl, Nat.le_of_ble_eq_true rfl, Nat.le_of_ble_eq_true rfl⟩
theorem fsub (m : Mods) (f : FFmt) (d : Reg) (a : Reg) : Statement (.fsub m f d a) := ⟨rfl, Nat.le_of_ble_eq_true rfl, Nat.le_of_ble_eq_true rfl⟩
theorem fmul (m : Mods) (f : FFmt) (d : Reg) (a : Reg) : Statement (.fmul m f d a) := ⟨rfl, Nat.le_of_ble_eq_true rfl, Nat.le_of_ble_eq_true rfl⟩
theorem ffma (m : Mods) (f : FFmt) (d : Reg) (a : Reg) : Statement (.ffma m f d a) := ⟨rfl, Nat.le_of_ble_eq_true rfl, Nat.le_of_ble_eq_true rfl⟩
theorem fmin (m : Mods) (f : FFmt) (d : Reg) (a : Reg) : Statement (.fmin m f d a) := ⟨rfl, Nat.le_of_ble_eq_true rfl, Nat.le_of_ble_eq_true rfl⟩
theorem fmax (m : Mods) (f : FFmt) (d : Reg) (a : Reg) : Statement (.fmax m f d a) := ⟨rfl, Nat.le_of_ble_eq_true rfl, Nat.le_of_ble_eq_true rfl⟩
theorem fcopysign (m : Mods) (f : FFmt) (d : Reg) (a : Reg) : Statement (.fcopysign m f d a) := ⟨rfl, Nat.le_of_ble_eq_true rfl, Nat.le_of_ble_eq_true rfl⟩
theorem fdiv (m : Mods) (f : FFmt) (d : Reg) (a : Reg) : Statement (.fdiv m f d a) := ⟨rfl, Nat.le_of_ble_eq_true rfl, Nat.le_of_ble_eq_true rfl⟩
theorem fscale (m : Mods) (f : FFmt) (d : Reg) (a : Reg) : Statement (.fscale m f d a) := ⟨rfl, Nat.le_of_ble_eq_true rfl, Nat.le_of_ble_eq_true rfl⟩
theorem fdot2 (m : Mods) (f : FFmt) (d : Reg) (a : Reg) : Statement (.fdot2 m f d a) := ⟨rfl, Nat.le_of_ble_eq_true rfl, Nat.le_of_ble_eq_true rfl⟩
theorem cvt (m : Mods) (x : CvtType) (y : CvtType) (d : Reg) (a : Reg) : Statement (.cvt m x y d a) := ⟨rfl, Nat.le_of_ble_eq_true rfl, Nat.le_of_ble_eq_true rfl⟩
theorem cvtPack (m : Mods) (k : PackKind) (d : Reg) (a : Reg) : Statement (.cvtPack m k d a) := ⟨rfl, Nat.le_of_ble_eq_true rfl, Nat.le_of_ble_eq_true rfl⟩
theorem lred (m : Mods) (o : RedOp) (t : RedType) (d : Reg) (a : Reg) : Statement (.lred m o t d a) := ⟨rfl, Nat.le_of_ble_eq_true rfl, Nat.le_of_ble_eq_true rfl⟩
theorem lscan (m : Mods) (e : Bool) (o : ScanOp) (t : RedType) (d : Reg) (a : Reg) : Statement (.lscan m e o t d a) := ⟨rfl, Nat.le_of_ble_eq_true rfl, Nat.le_of_ble_eq_true rfl⟩
theorem vote (m : Mods) (v : VoteKind) (d : Reg) (a : Reg) : Statement (.vote m v d a) := ⟨rfl, Nat.le_of_ble_eq_true rfl, Nat.le_of_ble_eq_true rfl⟩
theorem ballot (m : Mods) (d : Reg) (a : Reg) : Statement (.ballot m d a) := ⟨rfl, Nat.le_of_ble_eq_true rfl, Nat.le_of_ble_eq_true rfl⟩
theorem matchLanes (m : Mods) (w : Bool) (d : Reg) (a : Reg) : Statement (.matchLanes m w d a) := ⟨rfl, Nat.le_of_ble_eq_true rfl, Nat.le_of_ble_eq_true rfl⟩
theorem shfl (m : Mods) (k : ShflMode) (d : Reg) (a : Reg) : Statement (.shfl m k d a) := ⟨rfl, Nat.le_of_ble_eq_true rfl, Nat.le_of_ble_eq_true rfl⟩
theorem bra (m : Mods) (o : BitVec 13) (n : Bool) (p : Reg) : Statement (.bra m o n p) := ⟨rfl, Nat.le_of_ble_eq_true rfl, Nat.le_of_ble_eq_true rfl⟩
theorem call (m : Mods) (o : BitVec 13) (n : Bool) (p : Reg) : Statement (.call m o n p) := ⟨rfl, Nat.le_of_ble_eq_true rfl, Nat.le_of_ble_eq_true rfl⟩
theorem jmp (m : Mods) (a : Reg) : Statement (.jmp m a) := ⟨rfl, Nat.le_of_ble_eq_true rfl, Nat.le_of_ble_eq_true rfl⟩
theorem callr (m : Mods) (d : Reg) (a : Reg) : Statement (.callr m d a) := ⟨rfl, Nat.le_of_ble_eq_true rfl, Nat.le_of_ble_eq_true rfl⟩
theorem ret (m : Mods) (a : Reg) : Statement (.ret m a) := ⟨rfl, Nat.le_of_ble_eq_true rfl, Nat.le_of_ble_eq_true rfl⟩
theorem brx (m : Mods) (a : Reg) : Statement (.brx m a) := ⟨rfl, Nat.le_of_ble_eq_true rfl, Nat.le_of_ble_eq_true rfl⟩
theorem exit (m : Mods) : Statement (.exit m) := ⟨rfl, Nat.le_of_ble_eq_true rfl, Nat.le_of_ble_eq_true rfl⟩
theorem trap (m : Mods) (n : Reg) : Statement (.trap m n) := ⟨rfl, Nat.le_of_ble_eq_true rfl, Nat.le_of_ble_eq_true rfl⟩
theorem brk (m : Mods) : Statement (.brk m) := ⟨rfl, Nat.le_of_ble_eq_true rfl, Nat.le_of_ble_eq_true rfl⟩
theorem nop (m : Mods) : Statement (.nop m) := ⟨rfl, Nat.le_of_ble_eq_true rfl, Nat.le_of_ble_eq_true rfl⟩
theorem yield (m : Mods) : Statement (.yield m) := ⟨rfl, Nat.le_of_ble_eq_true rfl, Nat.le_of_ble_eq_true rfl⟩
theorem pause (m : Mods) : Statement (.pause m) := ⟨rfl, Nat.le_of_ble_eq_true rfl, Nat.le_of_ble_eq_true rfl⟩
theorem wsb (m : Mods) : Statement (.wsb m) := ⟨rfl, Nat.le_of_ble_eq_true rfl, Nat.le_of_ble_eq_true rfl⟩
theorem rjEnter (m : Mods) (n : BitVec 4) : Statement (.rjEnter m n) := ⟨rfl, Nat.le_of_ble_eq_true rfl, Nat.le_of_ble_eq_true rfl⟩
theorem rjQuit (m : Mods) (n : BitVec 4) : Statement (.rjQuit m n) := ⟨rfl, Nat.le_of_ble_eq_true rfl, Nat.le_of_ble_eq_true rfl⟩
theorem rjWait (m : Mods) (n : BitVec 4) : Statement (.rjWait m n) := ⟨rfl, Nat.le_of_ble_eq_true rfl, Nat.le_of_ble_eq_true rfl⟩
theorem rjGet (m : Mods) (d : Reg) (n : BitVec 4) : Statement (.rjGet m d n) := ⟨rfl, Nat.le_of_ble_eq_true rfl, Nat.le_of_ble_eq_true rfl⟩
theorem rjSet (m : Mods) (d : Reg) (n : BitVec 4) : Statement (.rjSet m d n) := ⟨rfl, Nat.le_of_ble_eq_true rfl, Nat.le_of_ble_eq_true rfl⟩
theorem rjClr (m : Mods) (n : BitVec 4) : Statement (.rjClr m n) := ⟨rfl, Nat.le_of_ble_eq_true rfl, Nat.le_of_ble_eq_true rfl⟩
theorem ldGB32 (m : Mods) (o : BitVec 7) (d : Reg) (a : Reg) : Statement (.ldGB32 m o d a) := ⟨rfl, Nat.le_of_ble_eq_true rfl, Nat.le_of_ble_eq_true rfl⟩
theorem stGB32 (m : Mods) (o : BitVec 7) (d : Reg) (a : Reg) : Statement (.stGB32 m o d a) := ⟨rfl, Nat.le_of_ble_eq_true rfl, Nat.le_of_ble_eq_true rfl⟩
theorem ldGB64 (m : Mods) (o : BitVec 7) (d : Reg) (a : Reg) : Statement (.ldGB64 m o d a) := ⟨rfl, Nat.le_of_ble_eq_true rfl, Nat.le_of_ble_eq_true rfl⟩
theorem stGB64 (m : Mods) (o : BitVec 7) (d : Reg) (a : Reg) : Statement (.stGB64 m o d a) := ⟨rfl, Nat.le_of_ble_eq_true rfl, Nat.le_of_ble_eq_true rfl⟩
theorem ldGB128 (m : Mods) (o : BitVec 7) (d : Reg) (a : Reg) : Statement (.ldGB128 m o d a) := ⟨rfl, Nat.le_of_ble_eq_true rfl, Nat.le_of_ble_eq_true rfl⟩
theorem stGB128 (m : Mods) (o : BitVec 7) (d : Reg) (a : Reg) : Statement (.stGB128 m o d a) := ⟨rfl, Nat.le_of_ble_eq_true rfl, Nat.le_of_ble_eq_true rfl⟩
theorem ldSB32 (m : Mods) (o : BitVec 7) (d : Reg) (a : Reg) : Statement (.ldSB32 m o d a) := ⟨rfl, Nat.le_of_ble_eq_true rfl, Nat.le_of_ble_eq_true rfl⟩
theorem stSB32 (m : Mods) (o : BitVec 7) (d : Reg) (a : Reg) : Statement (.stSB32 m o d a) := ⟨rfl, Nat.le_of_ble_eq_true rfl, Nat.le_of_ble_eq_true rfl⟩
theorem ld (m : Mods) (u : Space) (t : MemType) (r : Bool) (d : Reg) (a : Reg) : Statement (.ld m u t r d a) := ⟨rfl, Nat.le_of_ble_eq_true rfl, Nat.le_of_ble_eq_true rfl⟩
theorem st (m : Mods) (u : Space) (t : MemType) (r : Bool) (d : Reg) (a : Reg) : Statement (.st m u t r d a) := ⟨rfl, Nat.le_of_ble_eq_true rfl, Nat.le_of_ble_eq_true rfl⟩
theorem ldkLow (m : Mods) (d : Reg) (n : Reg) : Statement (.ldkLow m d n) := ⟨rfl, Nat.le_of_ble_eq_true rfl, Nat.le_of_ble_eq_true rfl⟩
theorem ldkHigh (m : Mods) (d : Reg) (n : Reg) : Statement (.ldkHigh m d n) := ⟨rfl, Nat.le_of_ble_eq_true rfl, Nat.le_of_ble_eq_true rfl⟩
theorem ldkReg (m : Mods) (d : Reg) (a : Reg) : Statement (.ldkReg m d a) := ⟨rfl, Nat.le_of_ble_eq_true rfl, Nat.le_of_ble_eq_true rfl⟩
theorem prefG (m : Mods) (a : Reg) : Statement (.prefG m a) := ⟨rfl, Nat.le_of_ble_eq_true rfl, Nat.le_of_ble_eq_true rfl⟩
theorem atom (m : Mods) (o : AtomOp) (w : Bool) (d : Reg) (a : Reg) : Statement (.atom m o w d a) := ⟨rfl, Nat.le_of_ble_eq_true rfl, Nat.le_of_ble_eq_true rfl⟩
theorem cas (m : Mods) (w : Bool) (d : Reg) (a : Reg) : Statement (.cas m w d a) := ⟨rfl, Nat.le_of_ble_eq_true rfl, Nat.le_of_ble_eq_true rfl⟩
theorem redOp (m : Mods) (o : AtomOp) (w : Bool) (d : Reg) (a : Reg) : Statement (.redOp m o w d a) := ⟨rfl, Nat.le_of_ble_eq_true rfl, Nat.le_of_ble_eq_true rfl⟩
theorem fncIss (m : Mods) (d : Reg) (n : Scope) : Statement (.fncIss m d n) := ⟨rfl, Nat.le_of_ble_eq_true rfl, Nat.le_of_ble_eq_true rfl⟩
theorem fncWt (m : Mods) (a : Reg) : Statement (.fncWt m a) := ⟨rfl, Nat.le_of_ble_eq_true rfl, Nat.le_of_ble_eq_true rfl⟩
theorem ownGive (m : Mods) (a : Reg) : Statement (.ownGive m a) := ⟨rfl, Nat.le_of_ble_eq_true rfl, Nat.le_of_ble_eq_true rfl⟩
theorem ownTake (m : Mods) (a : Reg) : Statement (.ownTake m a) := ⟨rfl, Nat.le_of_ble_eq_true rfl, Nat.le_of_ble_eq_true rfl⟩
theorem ownTest (m : Mods) (d : Reg) (a : Reg) : Statement (.ownTest m d a) := ⟨rfl, Nat.le_of_ble_eq_true rfl, Nat.le_of_ble_eq_true rfl⟩
theorem rngWait (m : Mods) (d : Reg) (a : Reg) : Statement (.rngWait m d a) := ⟨rfl, Nat.le_of_ble_eq_true rfl, Nat.le_of_ble_eq_true rfl⟩
theorem rngRel (m : Mods) (a : Reg) : Statement (.rngRel m a) := ⟨rfl, Nat.le_of_ble_eq_true rfl, Nat.le_of_ble_eq_true rfl⟩
theorem mrgFree (m : Mods) (a : Reg) : Statement (.mrgFree m a) := ⟨rfl, Nat.le_of_ble_eq_true rfl, Nat.le_of_ble_eq_true rfl⟩
theorem bbInit (m : Mods) (d : Reg) (a : Reg) : Statement (.bbInit m d a) := ⟨rfl, Nat.le_of_ble_eq_true rfl, Nat.le_of_ble_eq_true rfl⟩
theorem bbExp (m : Mods) (d : Reg) (a : Reg) : Statement (.bbExp m d a) := ⟨rfl, Nat.le_of_ble_eq_true rfl, Nat.le_of_ble_eq_true rfl⟩
theorem bbArv (m : Mods) (d : Reg) (a : Reg) : Statement (.bbArv m d a) := ⟨rfl, Nat.le_of_ble_eq_true rfl, Nat.le_of_ble_eq_true rfl⟩
theorem bbWt (m : Mods) (a : Reg) : Statement (.bbWt m a) := ⟨rfl, Nat.le_of_ble_eq_true rfl, Nat.le_of_ble_eq_true rfl⟩
theorem bop (m : Mods) (d : Reg) (a : Reg) : Statement (.bop m d a) := ⟨rfl, Nat.le_of_ble_eq_true rfl, Nat.le_of_ble_eq_true rfl⟩
theorem halloc (m : Mods) (d : Reg) (a : Reg) : Statement (.halloc m d a) := ⟨rfl, Nat.le_of_ble_eq_true rfl, Nat.le_of_ble_eq_true rfl⟩
theorem hfree (m : Mods) (a : Reg) : Statement (.hfree m a) := ⟨rfl, Nat.le_of_ble_eq_true rfl, Nat.le_of_ble_eq_true rfl⟩
theorem obRsv (m : Mods) (a : Reg) : Statement (.obRsv m a) := ⟨rfl, Nat.le_of_ble_eq_true rfl, Nat.le_of_ble_eq_true rfl⟩
theorem obRel (m : Mods) (a : Reg) : Statement (.obRel m a) := ⟨rfl, Nat.le_of_ble_eq_true rfl, Nat.le_of_ble_eq_true rfl⟩
theorem tcCopy (m : Mods) (a : Reg) : Statement (.tcCopy m a) := ⟨rfl, Nat.le_of_ble_eq_true rfl, Nat.le_of_ble_eq_true rfl⟩
theorem tcOb (m : Mods) (a : Reg) : Statement (.tcOb m a) := ⟨rfl, Nat.le_of_ble_eq_true rfl, Nat.le_of_ble_eq_true rfl⟩
theorem tcMcast (m : Mods) (a : Reg) : Statement (.tcMcast m a) := ⟨rfl, Nat.le_of_ble_eq_true rfl, Nat.le_of_ble_eq_true rfl⟩
theorem permLoad (m : Mods) (d : Reg) (a : Reg) : Statement (.permLoad m d a) := ⟨rfl, Nat.le_of_ble_eq_true rfl, Nat.le_of_ble_eq_true rfl⟩
theorem mxCfg (m : Mods) (a : Reg) : Statement (.mxCfg m a) := ⟨rfl, Nat.le_of_ble_eq_true rfl, Nat.le_of_ble_eq_true rfl⟩
theorem mxStat (m : Mods) (a : Reg) : Statement (.mxStat m a) := ⟨rfl, Nat.le_of_ble_eq_true rfl, Nat.le_of_ble_eq_true rfl⟩
theorem mxSwap (m : Mods) : Statement (.mxSwap m) := ⟨rfl, Nat.le_of_ble_eq_true rfl, Nat.le_of_ble_eq_true rfl⟩
theorem mxStrm (m : Mods) (a : Reg) : Statement (.mxStrm m a) := ⟨rfl, Nat.le_of_ble_eq_true rfl, Nat.le_of_ble_eq_true rfl⟩
theorem mxDrain (m : Mods) (d : Reg) (a : Reg) : Statement (.mxDrain m d a) := ⟨rfl, Nat.le_of_ble_eq_true rfl, Nat.le_of_ble_eq_true rfl⟩
theorem mxZero (m : Mods) (a : Reg) : Statement (.mxZero m a) := ⟨rfl, Nat.le_of_ble_eq_true rfl, Nat.le_of_ble_eq_true rfl⟩
theorem mxWait (m : Mods) : Statement (.mxWait m) := ⟨rfl, Nat.le_of_ble_eq_true rfl, Nat.le_of_ble_eq_true rfl⟩
theorem mxSave (m : Mods) (a : Reg) : Statement (.mxSave m a) := ⟨rfl, Nat.le_of_ble_eq_true rfl, Nat.le_of_ble_eq_true rfl⟩
theorem mxRest (m : Mods) (a : Reg) : Statement (.mxRest m a) := ⟨rfl, Nat.le_of_ble_eq_true rfl, Nat.le_of_ble_eq_true rfl⟩
theorem rst (m : Mods) (dep : Bool) (spr : Bool) (d : Reg) (a : Reg) : Statement (.rst m dep spr d a) := ⟨rfl, Nat.le_of_ble_eq_true rfl, Nat.le_of_ble_eq_true rfl⟩
theorem rld (m : Mods) (dep : Bool) (spr : Bool) (d : Reg) (a : Reg) : Statement (.rld m dep spr d a) := ⟨rfl, Nat.le_of_ble_eq_true rfl, Nat.le_of_ble_eq_true rfl⟩
theorem ratom (m : Mods) (tok : Bool) (dep : Bool) (spr : Bool) (d : Reg) (a : Reg) : Statement (.ratom m tok dep spr d a) := ⟨rfl, Nat.le_of_ble_eq_true rfl, Nat.le_of_ble_eq_true rfl⟩
theorem rcopy (m : Mods) (tok : Bool) (dep : Bool) (spr : Bool) (d : Reg) (a : Reg) : Statement (.rcopy m tok dep spr d a) := ⟨rfl, Nat.le_of_ble_eq_true rfl, Nat.le_of_ble_eq_true rfl⟩
theorem tokJoin (m : Mods) (d : Reg) (a : Reg) : Statement (.tokJoin m d a) := ⟨rfl, Nat.le_of_ble_eq_true rfl, Nat.le_of_ble_eq_true rfl⟩
theorem tokTest (m : Mods) (d : Reg) (a : Reg) : Statement (.tokTest m d a) := ⟨rfl, Nat.le_of_ble_eq_true rfl, Nat.le_of_ble_eq_true rfl⟩
theorem tokWait (m : Mods) (a : Reg) : Statement (.tokWait m a) := ⟨rfl, Nat.le_of_ble_eq_true rfl, Nat.le_of_ble_eq_true rfl⟩
theorem collRun (m : Mods) (d : Reg) (a : Reg) : Statement (.collRun m d a) := ⟨rfl, Nat.le_of_ble_eq_true rfl, Nat.le_of_ble_eq_true rfl⟩
theorem collWt (m : Mods) (d : Reg) (a : Reg) : Statement (.collWt m d a) := ⟨rfl, Nat.le_of_ble_eq_true rfl, Nat.le_of_ble_eq_true rfl⟩
theorem reelGo (m : Mods) (d : Reg) (a : Reg) : Statement (.reelGo m d a) := ⟨rfl, Nat.le_of_ble_eq_true rfl, Nat.le_of_ble_eq_true rfl⟩
theorem reelStat (m : Mods) (d : Reg) (a : Reg) : Statement (.reelStat m d a) := ⟨rfl, Nat.le_of_ble_eq_true rfl, Nat.le_of_ble_eq_true rfl⟩
theorem evtSig (m : Mods) (a : Reg) : Statement (.evtSig m a) := ⟨rfl, Nat.le_of_ble_eq_true rfl, Nat.le_of_ble_eq_true rfl⟩
theorem evtWt (m : Mods) (a : Reg) : Statement (.evtWt m a) := ⟨rfl, Nat.le_of_ble_eq_true rfl, Nat.le_of_ble_eq_true rfl⟩
theorem regGrow (m : Mods) (n : Reg) : Statement (.regGrow m n) := ⟨rfl, Nat.le_of_ble_eq_true rfl, Nat.le_of_ble_eq_true rfl⟩
theorem regShrink (m : Mods) (n : Reg) : Statement (.regShrink m n) := ⟨rfl, Nat.le_of_ble_eq_true rfl, Nat.le_of_ble_eq_true rfl⟩
theorem qpush (m : Mods) (d : Reg) : Statement (.qpush m d) := ⟨rfl, Nat.le_of_ble_eq_true rfl, Nat.le_of_ble_eq_true rfl⟩
theorem qpop (m : Mods) (d : Reg) : Statement (.qpop m d) := ⟨rfl, Nat.le_of_ble_eq_true rfl, Nat.le_of_ble_eq_true rfl⟩
theorem spawn (m : Mods) (d : Reg) (a : Reg) : Statement (.spawn m d a) := ⟨rfl, Nat.le_of_ble_eq_true rfl, Nat.le_of_ble_eq_true rfl⟩
theorem tret (m : Mods) : Statement (.tret m) := ⟨rfl, Nat.le_of_ble_eq_true rfl, Nat.le_of_ble_eq_true rfl⟩
theorem ctxPark (m : Mods) : Statement (.ctxPark m) := ⟨rfl, Nat.le_of_ble_eq_true rfl, Nat.le_of_ble_eq_true rfl⟩
theorem sysc (m : Mods) (n : Reg) : Statement (.sysc m n) := ⟨rfl, Nat.le_of_ble_eq_true rfl, Nat.le_of_ble_eq_true rfl⟩
theorem vmCommit (m : Mods) (d : Reg) (a : Reg) : Statement (.vmCommit m d a) := ⟨rfl, Nat.le_of_ble_eq_true rfl, Nat.le_of_ble_eq_true rfl⟩
theorem vmFree (m : Mods) (d : Reg) (a : Reg) : Statement (.vmFree m d a) := ⟨rfl, Nat.le_of_ble_eq_true rfl, Nat.le_of_ble_eq_true rfl⟩
theorem vmProt (m : Mods) (d : Reg) (a : Reg) : Statement (.vmProt m d a) := ⟨rfl, Nat.le_of_ble_eq_true rfl, Nat.le_of_ble_eq_true rfl⟩
theorem vmDup (m : Mods) (d : Reg) (a : Reg) : Statement (.vmDup m d a) := ⟨rfl, Nat.le_of_ble_eq_true rfl, Nat.le_of_ble_eq_true rfl⟩
theorem vmSplit (m : Mods) (d : Reg) (a : Reg) : Statement (.vmSplit m d a) := ⟨rfl, Nat.le_of_ble_eq_true rfl, Nat.le_of_ble_eq_true rfl⟩
theorem tlbInv (m : Mods) (a : Reg) : Statement (.tlbInv m a) := ⟨rfl, Nat.le_of_ble_eq_true rfl, Nat.le_of_ble_eq_true rfl⟩
theorem detRng (m : Mods) (a : Reg) : Statement (.detRng m a) := ⟨rfl, Nat.le_of_ble_eq_true rfl, Nat.le_of_ble_eq_true rfl⟩
theorem detFlush (m : Mods) : Statement (.detFlush m) := ⟨rfl, Nat.le_of_ble_eq_true rfl, Nat.le_of_ble_eq_true rfl⟩
theorem recMark (m : Mods) (a : Reg) : Statement (.recMark m a) := ⟨rfl, Nat.le_of_ble_eq_true rfl, Nat.le_of_ble_eq_true rfl⟩
theorem tbar (m : Mods) : Statement (.tbar m) := ⟨rfl, Nat.le_of_ble_eq_true rfl, Nat.le_of_ble_eq_true rfl⟩
theorem tbarArv (m : Mods) (d : Reg) : Statement (.tbarArv m d) := ⟨rfl, Nat.le_of_ble_eq_true rfl, Nat.le_of_ble_eq_true rfl⟩
theorem tbarWt (m : Mods) (a : Reg) : Statement (.tbarWt m a) := ⟨rfl, Nat.le_of_ble_eq_true rfl, Nat.le_of_ble_eq_true rfl⟩
theorem cbar (m : Mods) : Statement (.cbar m) := ⟨rfl, Nat.le_of_ble_eq_true rfl, Nat.le_of_ble_eq_true rfl⟩
theorem cbarArv (m : Mods) (d : Reg) : Statement (.cbarArv m d) := ⟨rfl, Nat.le_of_ble_eq_true rfl, Nat.le_of_ble_eq_true rfl⟩
theorem cbarWt (m : Mods) (a : Reg) : Statement (.cbarWt m a) := ⟨rfl, Nat.le_of_ble_eq_true rfl, Nat.le_of_ble_eq_true rfl⟩
theorem csrr (m : Mods) (r : BitVec 12) (d : Reg) : Statement (.csrr m r d) := ⟨rfl, Nat.le_of_ble_eq_true rfl, Nat.le_of_ble_eq_true rfl⟩
theorem csrw (m : Mods) (r : BitVec 12) (d : Reg) : Statement (.csrw m r d) := ⟨rfl, Nat.le_of_ble_eq_true rfl, Nat.le_of_ble_eq_true rfl⟩
theorem csrx (m : Mods) (r : BitVec 12) (d : Reg) : Statement (.csrx m r d) := ⟨rfl, Nat.le_of_ble_eq_true rfl, Nat.le_of_ble_eq_true rfl⟩
theorem handlerEntry (w : Nat) : Statement (.handlerEntry w) := ⟨rfl, rfl⟩
theorem regGrant (n : Nat) : Statement (.regGrant n) := ⟨rfl, rfl⟩
theorem yieldRelease (w : Nat) : Statement (.yieldRelease w) := ⟨rfl, rfl⟩
theorem pauseExpiry (w : Nat) : Statement (.pauseExpiry w) := ⟨rfl, rfl⟩
theorem scoreboardWrite (w : Nat) (l : Nat) (g : Nat) : Statement (.scoreboardWrite w l g) := ⟨rfl, rfl⟩
theorem queuePushDone (w : Nat) : Statement (.queuePushDone w) := ⟨rfl, rfl⟩
theorem queuePopDone (w : Nat) : Statement (.queuePopDone w) := ⟨rfl, rfl⟩
theorem ownTakeDone (w : Nat) : Statement (.ownTakeDone w) := ⟨rfl, rfl⟩
theorem ringWaitDone (w : Nat) : Statement (.ringWaitDone w) := ⟨rfl, rfl⟩
theorem fencePerformed (w : Nat) (q : BitVec 24) : Statement (.fencePerformed w q) := ⟨rfl, rfl⟩
theorem accessPerform (n : Nat) : Statement (.accessPerform n) := ⟨rfl, rfl⟩
theorem pageWalkComplete (k : Nat) (e : Nat) (x : W32) (v : W64) : Statement (.pageWalkComplete k e x v) := ⟨rfl, rfl⟩
theorem bankAluApply (k : Nat) (n : Nat) : Statement (.bankAluApply k n) := ⟨rfl, rfl⟩
theorem bopComplete (k : Nat) (n : Nat) : Statement (.bopComplete k n) := ⟨rfl, rfl⟩
theorem vmChangeComplete (k : Nat) (n : Nat) : Statement (.vmChangeComplete k n) := ⟨rfl, rfl⟩
theorem evtWaitRecheck (w : Nat) : Statement (.evtWaitRecheck w) := ⟨rfl, rfl⟩
theorem commandAccept (w : Nat) : Statement (.commandAccept w) := ⟨rfl, rfl⟩
theorem engineUnitRead (k : Nat) (n : Nat) (bad : Nat) : Statement (.engineUnitRead k n bad) := ⟨rfl, rfl⟩
theorem engineUnitWrite (k : Nat) (n : Nat) : Statement (.engineUnitWrite k n) := ⟨rfl, rfl⟩
theorem ringSlotFill (k : Nat) (n : Nat) : Statement (.ringSlotFill k n) := ⟨rfl, rfl⟩
theorem planeFillDone (t : Nat) : Statement (.planeFillDone t) := ⟨rfl, rfl⟩
theorem streamResults (t : Nat) : Statement (.streamResults t) := ⟨rfl, rfl⟩
theorem drainWrite (t : Nat) : Statement (.drainWrite t) := ⟨rfl, rfl⟩
theorem mxWaitDone (w : Nat) : Statement (.mxWaitDone w) := ⟨rfl, rfl⟩
theorem obRelDone (w : Nat) : Statement (.obRelDone w) := ⟨rfl, rfl⟩
theorem budgetPeriodStart (k : Nat) : Statement (.budgetPeriodStart k) := ⟨rfl, rfl⟩
theorem launchDoorbell (k : Nat) (q : Nat) (v : W32) : Statement (.launchDoorbell k q v) := ⟨rfl, rfl⟩
theorem frontEndTake (k : Nat) (q : Nat) : Statement (.frontEndTake k q) := ⟨rfl, rfl⟩
theorem launchReady (k : Nat) (n : Nat) : Statement (.launchReady k n) := ⟨rfl, rfl⟩
theorem launchRecheckTimer (k : Nat) (n : Nat) : Statement (.launchRecheckTimer k n) := ⟨rfl, rfl⟩
theorem launchAging (k : Nat) (n : Nat) : Statement (.launchAging k n) := ⟨rfl, rfl⟩
theorem callerHandover (k : Nat) : Statement (.callerHandover k) := ⟨rfl, rfl⟩
theorem corpsPlacement (k : Nat) (n : Nat) : Statement (.corpsPlacement k n) := ⟨rfl, rfl⟩
theorem troupePublish (t : Nat) : Statement (.troupePublish t) := ⟨rfl, rfl⟩
theorem graphNodeStart (k : Nat) (n : Nat) (i : Nat) : Statement (.graphNodeStart k n i) := ⟨rfl, rfl⟩
theorem graphNodeDone (k : Nat) (n : Nat) (i : Nat) : Statement (.graphNodeDone k n i) := ⟨rfl, rfl⟩
theorem deferredApply (k : Nat) (n : Nat) : Statement (.deferredApply k n) := ⟨rfl, rfl⟩
theorem drainDeadline (k : Nat) (x : W32) : Statement (.drainDeadline k x) := ⟨rfl, rfl⟩
theorem evictionDeadline (k : Nat) (x : W32) : Statement (.evictionDeadline k x) := ⟨rfl, rfl⟩
theorem preemptSaveImage (t : Nat) : Statement (.preemptSaveImage t) := ⟨rfl, rfl⟩
theorem troupeLeavesCore (t : Nat) : Statement (.troupeLeavesCore t) := ⟨rfl, rfl⟩
theorem restorePlacement (k : Nat) (n : Nat) : Statement (.restorePlacement k n) := ⟨rfl, rfl⟩
theorem steerReply (k : Nat) : Statement (.steerReply k) := ⟨rfl, rfl⟩
theorem eccu (k : Nat) (n : Nat) (u : Byte) : Statement (.eccu k n u) := ⟨rfl, rfl⟩
theorem slotStart (k : Nat) : Statement (.slotStart k) := ⟨rfl, rfl⟩
theorem frameReceive (k : Nat) (n : Nat) (bad : Nat) : Statement (.frameReceive k n bad) := ⟨rfl, rfl⟩
theorem masterLoss (k : Nat) : Statement (.masterLoss k) := ⟨rfl, rfl⟩
theorem freeRunExpiry (k : Nat) : Statement (.freeRunExpiry k) := ⟨rfl, rfl⟩
theorem laneFailure (k : Nat) (n : Nat) (l : Nat) : Statement (.laneFailure k n l) := ⟨rfl, rfl⟩
theorem laneRejoin (k : Nat) (n : Nat) (l : Nat) : Statement (.laneRejoin k n l) := ⟨rfl, rfl⟩
theorem storePacket (k : Nat) : Statement (.storePacket k) := ⟨rfl, rfl⟩
theorem loadPacket (k : Nat) : Statement (.loadPacket k) := ⟨rfl, rfl⟩
theorem replyPacket (k : Nat) : Statement (.replyPacket k) := ⟨rfl, rfl⟩
theorem faultReplyPacket (k : Nat) : Statement (.faultReplyPacket k) := ⟨rfl, rfl⟩
theorem atomicPacket (k : Nat) : Statement (.atomicPacket k) := ⟨rfl, rfl⟩
theorem copySegmentPacket (k : Nat) : Statement (.copySegmentPacket k) := ⟨rfl, rfl⟩
theorem vectorStorePart (k : Nat) : Statement (.vectorStorePart k) := ⟨rfl, rfl⟩
theorem vectorLoadPart (k : Nat) : Statement (.vectorLoadPart k) := ⟨rfl, rfl⟩
theorem vectorAtomicPart (k : Nat) : Statement (.vectorAtomicPart k) := ⟨rfl, rfl⟩
theorem landedNotice (k : Nat) : Statement (.landedNotice k) := ⟨rfl, rfl⟩
theorem releaseNotice (k : Nat) : Statement (.releaseNotice k) := ⟨rfl, rfl⟩
theorem appliedCountNotice (k : Nat) : Statement (.appliedCountNotice k) := ⟨rfl, rfl⟩
theorem forwardedCountNotice (k : Nat) : Statement (.forwardedCountNotice k) := ⟨rfl, rfl⟩
theorem relayedAppliedCountNotice (k : Nat) : Statement (.relayedAppliedCountNotice k) := ⟨rfl, rfl⟩
theorem holdFreeNotice (k : Nat) : Statement (.holdFreeNotice k) := ⟨rfl, rfl⟩
theorem expiryNotice (k : Nat) : Statement (.expiryNotice k) := ⟨rfl, rfl⟩
theorem invalidateNotice (k : Nat) : Statement (.invalidateNotice k) := ⟨rfl, rfl⟩
theorem holdExpiry (k : Nat) (n : Nat) : Statement (.holdExpiry k n) := ⟨rfl, rfl⟩
theorem collEntryStart (k : Nat) (n : Nat) (i : Nat) : Statement (.collEntryStart k n i) := ⟨rfl, rfl⟩
theorem collEntryComplete (k : Nat) (n : Nat) (i : Nat) : Statement (.collEntryComplete k n i) := ⟨rfl, rfl⟩
theorem reducerFold (k : Nat) (n : Nat) : Statement (.reducerFold k n) := ⟨rfl, rfl⟩
theorem reelWait (k : Nat) : Statement (.reelWait k) := ⟨rfl, rfl⟩
theorem reelGather (k : Nat) : Statement (.reelGather k) := ⟨rfl, rfl⟩
theorem reelRun (k : Nat) : Statement (.reelRun k) := ⟨rfl, rfl⟩
theorem reelHandoff (k : Nat) : Statement (.reelHandoff k) := ⟨rfl, rfl⟩
theorem bootRom (k : Nat) (im : BootImage) : Statement (.bootRom k im) := ⟨rfl, rfl⟩
theorem recoveryImage (k : Nat) (im : BootImage) : Statement (.recoveryImage k im) := ⟨rfl, rfl⟩
theorem mrExtend (k : Nat) (n : Nat) (v : BitVec 256) : Statement (.mrExtend k n v) := ⟨rfl, rfl⟩
theorem attestationRequest (k : Nat) (v : BitVec 256) (u : Byte) : Statement (.attestationRequest k v u) := ⟨rfl, rfl⟩
theorem featureGo (k : Nat) : Statement (.featureGo k) := ⟨rfl, rfl⟩
theorem apertureRead (k : Nat) (v : W64) (r : HostRead) : Statement (.apertureRead k v r) := ⟨rfl, rfl⟩
theorem apertureWrite (k : Nat) (v : W64) (bs : List Byte) (bad : Nat) : Statement (.apertureWrite k v bs bad) := ⟨rfl, rfl⟩
theorem apertureControlWrite (k : Nat) (r : Nat) (v : W64) : Statement (.apertureControlWrite k r v) := ⟨rfl, rfl⟩
theorem correctedError (k : Nat) (u : ErrStore) (n : Nat) (v : W64) : Statement (.correctedError k u n v) := ⟨rfl, rfl⟩
theorem uncorrectableError (k : Nat) (u : Byte) (n : Nat) (v : W64) : Statement (.uncorrectableError k u n v) := ⟨rfl, rfl⟩
theorem selfTestEnd (k : Nat) (u : TestRow) (n : Nat) (ok : Bool) : Statement (.selfTestEnd k u n ok) := ⟨rfl, rfl⟩
theorem budgetWrite (k : Nat) (r : Nat) (v : W32) : Statement (.budgetWrite k r v) := ⟨rfl, rfl⟩
theorem pcapWrite (k : Nat) (v : W32) : Statement (.pcapWrite k v) := ⟨rfl, rfl⟩
theorem pstateWrite (k : Nat) (v : W32) : Statement (.pstateWrite k v) := ⟨rfl, rfl⟩
theorem temperatureEvent (k : Nat) (n : Nat) : Statement (.temperatureEvent k n) := ⟨rfl, rfl⟩
theorem hostCommandDoorbell (k : Nat) (v : W32) : Statement (.hostCommandDoorbell k v) := ⟨rfl, rfl⟩
theorem ctxnew (k : Nat) (h : HArgs) : Statement (.ctxnew k h) := ⟨rfl, rfl⟩
theorem ctxentry (k : Nat) (h : HArgs) : Statement (.ctxentry k h) := ⟨rfl, rfl⟩
theorem ctxstop (k : Nat) (h : HArgs) : Statement (.ctxstop k h) := ⟨rfl, rfl⟩
theorem ctxfree (k : Nat) (h : HArgs) : Statement (.ctxfree k h) := ⟨rfl, rfl⟩
theorem ctxevt (k : Nat) (h : HArgs) : Statement (.ctxevt k h) := ⟨rfl, rfl⟩
theorem preempt (k : Nat) (h : HArgs) : Statement (.preempt k h) := ⟨rfl, rfl⟩
theorem preend (k : Nat) (h : HArgs) : Statement (.preend k h) := ⟨rfl, rfl⟩
theorem resume (k : Nat) (h : HArgs) : Statement (.resume k h) := ⟨rfl, rfl⟩
theorem planload (k : Nat) (h : HArgs) : Statement (.planload k h) := ⟨rfl, rfl⟩
theorem reelload (k : Nat) (h : HArgs) : Statement (.reelload k h) := ⟨rfl, rfl⟩
theorem hndload (k : Nat) (h : HArgs) : Statement (.hndload k h) := ⟨rfl, rfl⟩
theorem fctlset (k : Nat) (h : HArgs) : Statement (.fctlset k h) := ⟨rfl, rfl⟩
theorem masters (k : Nat) (h : HArgs) : Statement (.masters k h) := ⟨rfl, rfl⟩
theorem vmdup (k : Nat) (h : HArgs) : Statement (.vmdup k h) := ⟨rfl, rfl⟩
theorem vmsplit (k : Nat) (h : HArgs) : Statement (.vmsplit k h) := ⟨rfl, rfl⟩
theorem vmprot (k : Nat) (h : HArgs) : Statement (.vmprot k h) := ⟨rfl, rfl⟩
theorem tlbinv (k : Nat) (h : HArgs) : Statement (.tlbinv k h) := ⟨rfl, rfl⟩
theorem registerWrite (k : Nat) (r : Nat) (n : Nat) (v : W64) : Statement (.registerWrite k r n v) := ⟨rfl, rfl⟩
theorem fixedLatencyResult (w : Nat) : Statement (.fixedLatencyResult w) := ⟨rfl, rfl⟩
theorem stallWaitExpiry (w : Nat) : Statement (.stallWaitExpiry w) := ⟨rfl, rfl⟩
theorem powerCapReached (k : Nat) : Statement (.powerCapReached k) := ⟨rfl, rfl⟩

end Sys2Proof.Laws.Coded
end

