-- ==== Sys2Proof/Laws/Results.lean ====
section
/-! SUPPORT. Laws of the per-lane shapes: each answers a next state, with the results of the vocabulary of the statements. -/

namespace Sys2Proof

open Machine

/-! ### Destination fields -/

theorem reg_add (r : Reg) (i : Nat) : BitVec.ofNat 7 (r.toNat + i) = r + BitVec.ofNat 7 i := by
  apply BitVec.eq_of_toNat_eq
  simp [BitVec.toNat_add]

theorem dstRegs_one (r : Reg) : dstRegs r 1 = regs1 r := by
  unfold dstRegs regs1
  split
  · simp
  · rfl
theorem dstRegs_two (r : Reg) : dstRegs r 2 = regs2 r := by
  unfold dstRegs regs2
  split
  · simp [List.range_succ, reg_add]
  · rfl
theorem dstRegs_four (r : Reg) : dstRegs r 4 = regs4 r := by
  unfold dstRegs regs4
  split
  · simp [List.range_succ, reg_add]
  · rfl

theorem outs32_eq (r : Reg) (v : W32) : outs32 r v = to32 r v := by
  unfold outs32 to32
  rw [dstRegs_one]
  unfold regs1
  split <;> rfl
theorem outs64_eq (r : Reg) (v : W64) : outs64 r v = to64 r v := by
  unfold outs64 to64
  rw [dstRegs_two]; rfl
theorem extractLsb'_eq_shift (v : BitVec 128) (i : Nat) : v.extractLsb' i 32 = (v >>> i).setWidth 32 := by
  apply BitVec.eq_of_toNat_eq
  simp [BitVec.toNat_setWidth, BitVec.toNat_ushiftRight]
theorem outs128_eq (r : Reg) (v : BitVec 128) : outs128 r v = to128 r v := by
  unfold outs128 to128
  rw [dstRegs_four]
  simp [extractLsb'_eq_shift]
theorem outP_eq (q : Reg) (b : Bool) : outP q b = toP q b := by
  cases b <;> rfl

/-! ### The shapes -/

theorem perLane_computes {i : Instr} {s : State} {m : Mods} {t : Machine.Lat} {ds : List Dst} {f : Nat → List (Dst × W32)}
    (h : exec i s = .next (perLane m t ds (fun l => (f l, flNone)) s)) : Computes i s m (t.due s.clock) ds f :=
  ⟨_, h, perLane_writes m t ds (fun l => (f l, flNone)) s⟩

theorem lane32_computes {i : Instr} {s : State} {m : Mods} {t : Machine.Lat} {d : Reg} {f : Nat → W32}
    (h : exec i s = lane32 s m t d f) : Computes i s m (t.due s.clock) (regs1 d) (fun l => to32 d (f l)) := by
  have := perLane_computes (f := fun l => outs32 d (f l)) (h.trans rfl)
  simpa only [dstRegs_one, outs32_eq] using this
theorem lane64_computes {i : Instr} {s : State} {m : Mods} {t : Machine.Lat} {d : Reg} {f : Nat → W64}
    (h : exec i s = lane64 s m t d f) : Computes i s m (t.due s.clock) (regs2 d) (fun l => to64 d (f l)) := by
  have := perLane_computes (f := fun l => outs64 d (f l)) (h.trans rfl)
  simpa only [dstRegs_two, outs64_eq] using this
theorem laneP_computes {i : Instr} {s : State} {m : Mods} {t : Machine.Lat} {q : Reg} {f : Nat → Bool}
    (h : exec i s = laneP s m t q f) : Computes i s m (t.due s.clock) [.p q] (fun l => toP q (f l)) := by
  have := perLane_computes (f := fun l => outP q (f l)) (h.trans rfl)
  simpa only [outP_eq] using this
/-- The shape of one or two words by a switch. -/
theorem laneN_one {i : Instr} {s : State} {m : Mods} {t : Machine.Lat} {d : Reg} {f : Nat → W64}
    (h : exec i s = laneN s m t 1 d f) :
    Computes i s m (t.due s.clock) (regs1 d) (fun l => to32 d ((f l).setWidth 32)) := by
  have := perLane_computes (f := fun l => outsN 1 d (f l)) (h.trans rfl)
  simpa [outsN, lo32, dstRegs_one, outs32_eq] using this
theorem laneN_two {i : Instr} {s : State} {m : Mods} {t : Machine.Lat} {d : Reg} {f : Nat → W64}
    (h : exec i s = laneN s m t 2 d f) : Computes i s m (t.due s.clock) (regs2 d) (fun l => to64 d (f l)) := by
  have := perLane_computes (f := fun l => outsN 2 d (f l)) (h.trans rfl)
  simpa [outsN, dstRegs_two, outs64_eq] using this

/-- Completion with the same values, said another way. -/
theorem Computes.congr {i : Instr} {s : State} {m : Mods} {due : Option Nat} {ds : List Dst} {f g : Nat → List (Dst × W32)}
    (h : Computes i s m due ds f) (e : ∀ l, f l = g l) : Computes i s m due ds g :=
  funext e ▸ h

end Sys2Proof
end

