-- ==== Sys2Proof/Tests/Slice0.lean ====
section
/-! SUPPORT. Tests of this model: words decode as the encoding tables say, ill-formed instructions are refused, results are
those of the spec's worked examples, and the hypotheses of every statement are met by a concrete state. -/

namespace Sys2Proof.Tests

open Machine

set_option maxRecDepth 100000

/-! ### Small states -/

/-- A lane whose registers hold these values. -/
def laneOf (g : FMap W32) : Lane := { Lane.init with g := g }
/-- A wave of troupe 1 with lane 0 alone, the others ended. -/
def waveOf (g : FMap W32) : Wave :=
  { Wave.init with tid := 1, allot := 120,
                   lanes := (0, laneOf g) :: (List.range 31).map (fun i => (i + 1, { Lane.init with st := .exit })) }
/-- A page that maps a GiB from virtual address 0 on to where it stands, with every permission. -/
def pageAll : TlbEntry := ⟨5, 0, 2 ^ 30, 0x7B⟩
def hdrOf : KHdr := { KHdr.init with addr := 0x20000, entry := 0x300000, scratch := 8, regs := 15 }
def ctxOf : Ctx := ⟨0x10000, 0x18000, 0, 0, 0, 0, 0, 0x600000, 0, 0, 0, 0, false, [], []⟩
/-- A package with every feature, a context and a core that translates. -/
def pkgOf : Pkg :=
  { Pkg.init with cores := [(0, { Core.init with tlb := [pageAll] })], ctxs := [(5, ctxOf)],
                  host := { Pkg.init.host with featAcc := 0x3FFF, featDone := true, eqBase := 0x1000, eqLog := 4 },
                  sec := { Pkg.init.sec with booted := true } }
/-- Wave 32 of troupe 1, its lane 0 issuing the instruction at 0x300000 with these registers. -/
def solo (g : FMap W32) : State :=
  { State.reset with
    cur := { Cur.init with wid := 32, lanes := 1, path := 1, pc := 0x300000, gpc := 0x300000, npc := 0x300004 }
    waves := [(32, waveOf g)]
    troupes := [(1, { Troupe.init with ctx := 5, st := .resident, hdr := hdrOf, tiles := [0, 1, 2, 3, 4, 5, 6, 7] })]
    pkgs := [(0, pkgOf)] }
/-- An instruction without extension words. -/
def plain : Mods := ⟨none, none, 0, false⟩
/-- The same with an operand field E. -/
def withE (e : Reg) : Mods := ⟨some ⟨false, true, e, false, 0, false, false, 0⟩, none, 0, false⟩
/-- The same with a literal. -/
def withLit (v : BitVec 29) : Mods := ⟨none, some v, 0, false⟩

/-- A path of lane 0 alone: it is the active lane. -/
theorem on_iff {s : State} {m : Mods} (h : s.cur.lanes = 1) (ha : m.active (s.lane s.cur.wid 0) = true) (l : Nat) :
    On s m l ↔ l = 0 := by
  constructor
  · rintro ⟨hl, -⟩
    rw [h] at hl
    by_contra hn
    cases l with
    | zero => exact hn rfl
    | succ l => simp at hl
  · rintro rfl
    exact ⟨by rw [h]; rfl, ha⟩
theorem each {s : State} {m : Mods} {p : Nat → Prop} (h : s.cur.lanes = 1) (ha : m.active (s.lane s.cur.wid 0) = true)
    (hp : p 0) (l : Nat) (hl : On s m l) : p l := (on_iff h ha l).1 hl ▸ hp
theorem elected_zero {s : State} {m : Mods} (h : s.cur.lanes = 1) (ha : m.active (s.lane s.cur.wid 0) = true) : Elected s m 0 :=
  ⟨(on_iff h ha 0).2 rfl, fun _ _ => Nat.zero_le _⟩
theorem on_zero {s : State} {m : Mods} (h : s.cur.lanes = 1) (ha : m.active (s.lane s.cur.wid 0) = true) : ∃ l, On s m l :=
  ⟨0, (on_iff h ha 0).2 rfl⟩

theorem bit_one {m : LaneMask} {p : Nat → Prop} (h : m = 1) (hp : p 0) (l : Nat) (hl : m.getLsbD l = true) : p l := by
  subst h
  cases l with
  | zero => exact hp
  | succ l => simp at hl

/-- The same state with a number in `n` bytes of memory; with words of a block; in system mode. -/
def put (s : State) (a n v : Nat) : State := { s with mem := memPuts s.mem a (leBytes n v) }
def putWords (s : State) (a : Nat) (ws : List Nat) : State := { s with mem := memPuts s.mem a (ws.map (leBytes 4)).flatten }
def sysMode (s : State) : State := s.modWave 32 (fun v => { v with sys := true })

/-- Page tables that map a GiB from 0x4000_0000 on: a sparse page with nothing in it, one with frame 5, in a region of four. -/
def mapped (s : State) : State :=
  [(0x10000, 8, 1 + 0x110 * 2 ^ 20), (0x11000, 8, 1 + 0x120 * 2 ^ 20), (0x12008, 8, 1 + 0x130 * 2 ^ 20), (0x13000, 8, 1 + 0x140 * 2 ^ 20),
   (0x14000, 8, 0x233), (0x14008, 8, 0x23B + 5 * 2 ^ 20), (0x18000, 8, 0x40000000), (0x18008, 4, 4), (0x18010, 4, 4)].foldl
    (fun s e => put s e.1 e.2.1 e.2.2) s

theorem none_about {s : State} {a n : Nat} (h : s.writes = []) : NoneAbout s a n := by
  intro x hx; rw [h] at hx; exact absurd hx (by simp)

/-! ### States that meet the hypotheses: registers and lanes -/

theorem witness_CarryDigits : ∃ f : Fields, f.maj = 23 ∧ f.b = 0x07 := ⟨⟨0, false, 0, 23, 0, 0, 0x07⟩, rfl, rfl⟩
theorem witness_QuotientAndRemainder : ∃ f : Fields, f.maj = 23 ∧ f.b.toNat = 0x14 + IType.z64.code := ⟨⟨0, false, 0, 23, 0, 0, 0x17⟩, rfl, rfl⟩
theorem witness_ShiftsAndBytes : (∃ f : Fields, f.maj = 16) ∧ ∃ f : Fields, f.maj = 15 :=
  ⟨⟨⟨0, false, 0, 16, 0, 0, 0⟩, rfl⟩, ⟨0, false, 0, 15, 0, 0, 0⟩, rfl⟩
/-- An exact result, one beyond the format, a tiny inexact one. -/
theorem witness_RoundingIsCorrect : fmt32 ∈ [fmt32, fmt64, fmt16, fmtB16] ∧ (roundFin fmt32 .rne false 1 0).2.getLsbD 2 = false ∧
    (roundFin fmt32 .rne true 1 128).2.getLsbD 2 = true ∧ (roundFin fmt32 .rne false 3 (-150)).2.getLsbD 3 = true := by
  refine ⟨List.mem_cons_self .., by decide, by decide, by decide⟩
theorem witness_FloatSums : elemsOf .f16x2 = 2 ∧ elemsOf .bf16x2 = 2 := ⟨rfl, rfl⟩
theorem witness_CrossLane : IType.s32 = .s32 ∨ IType.s32 = .z32 := .inl rfl
theorem witness_ReductionsAndScans : (solo [(6, 5)]).activeLanes plain ≠ [] := by decide
/-- Targets at the start of a packet and an index at the end of its range; a pair that is none and an index beyond it. -/
theorem witness_Branches :
    (∀ l, On (solo [(6, 0x300000)]) plain l → ((solo [(6, 0x300000)]).src64 32 l 6).toNat % 12 = 0) ∧
    (∀ l, On (solo [(6, 4094)]) plain l → ((solo [(6, 4094)]).src 32 l 6).toNat ≤ 4094) ∧
    Alone (solo [(6, 4095)]) ∧ (∃ l, On (solo [(6, 4095)]) plain l ∧ ((solo [(6, 4095)]).src64 32 l 6).toNat % 12 ≠ 0) ∧
    ∃ l, On (solo [(6, 4095)]) plain l ∧ 4094 < ((solo [(6, 4095)]).src 32 l 6).toNat :=
  ⟨each rfl rfl (by decide), each rfl rfl (by decide), ⟨rfl, rfl, rfl⟩, ⟨0, (on_iff rfl rfl 0).2 rfl, by decide⟩,
    0, (on_iff rfl rfl 0).2 rfl, by decide⟩
theorem witness_TrapInstructions : Alone (solo []) ∧ ∃ l, On (solo []) plain l := ⟨⟨rfl, rfl, rfl⟩, on_zero rfl rfl⟩
/-- A lane that is owed a result, alone and in a chained group. -/
def owing : State := (solo []).modWave 32 (fun v => v.upd [0] (fun _ x => x.send none 1 [(.g 4, 7)]))
theorem witness_WaitsOfLanes : (∃ l, On owing plain l) ∧ owing.cur.grouped = false ∧
    (∃ l, owing.cur.lanes.getLsbD l = true ∧ (owing.lane owing.cur.wid l).pend ≠ []) ∧
    { owing with cur := { owing.cur with grouped := true } }.cur.grouped = true :=
  ⟨on_zero rfl rfl, rfl, ⟨0, rfl, by decide⟩, rfl⟩
/-- Set 3 with lane 1 parked in it. -/
def parked : State := (solo []).modWave 32 (fun v => { v.upd [1] (fun _ x => { x with st := .join 3 }) with sets := [(3, 3)] })
theorem witness_Rejoining : Elected (solo []) plain 0 ∧ ((solo []).wave (solo []).cur.wid).wcnt 3 = 0 ∧ Alone parked ∧ (∃ l, On parked plain l) ∧
    (parked.wave parked.cur.wid).wcnt 3 ≠ 0 ∧ (parked.wave parked.cur.wid).stopped = false ∧
    (∀ l, parked.cur.lanes.getLsbD l = true → (parked.lane parked.cur.wid l).st = .run) ∧ parked.cur.moved = 0 :=
  ⟨elected_zero rfl rfl, by decide, ⟨rfl, rfl, rfl⟩, on_zero rfl rfl, by decide, rfl, bit_one rfl rfl, rfl⟩
theorem witness_ExitEndsLanes :
    let s := solo [(4, 1)]
    Alone s ∧ s.curTroupe.hdr.rcd = false ∧ s.curTroupe.hdr.det = false ∧ (∃ l, On s plain l) ∧
    (∀ l, l < 32 → (s.lane s.cur.wid l).st ≠ .exit → On s plain l) ∧ (s.wave s.cur.wid).part = false ∧ s.liveWaves s.curTid = [s.cur.wid] := by
  refine ⟨⟨rfl, rfl, rfl⟩, rfl, rfl, on_zero rfl rfl, fun l hl h => (on_iff rfl rfl l).2 ?_, rfl, by decide⟩
  have : ∀ l, l < 32 → ((solo [(4, 1)]).lane (solo [(4, 1)]).cur.wid l).st ≠ .exit → l = 0 := by decide
  exact this l hl h
/-- A stopped wave with nothing owed: its context has a handler; its troupe has one of its own; neither has. -/
def stoppedWave (s : State) : State := s.modWave 32 (fun v => { v with stopped := true })
def ownHandler : State :=
  ((stoppedWave (solo [])).modTroupe 1 (fun u => { u with traphnd := 0x600000 })).modPkg 0
    (fun p => { p with cores := [(0, { Core.init with tlb := [⟨5, 0, 2 ^ 30, 0x17B⟩] })] })
def noHandler : State := (stoppedWave (solo [])).modPkg 0 (fun p => { p with ctxs := [(5, { ctxOf with sysh := 0 })] })
theorem witness_TrapHandlers :
    (∀ s ∈ [stoppedWave (solo []), ownHandler, noHandler], (s.wave 32).stopped = true ∧ (s.wave 32).ended = false ∧
      (s.wave 32).forPreempt = false ∧ (s.wave 32).owesLocal = false) ∧
    (ownHandler.troupe 1).traphnd ≠ 0 ∧ (∃ e, ownHandler.lookup 0 0 5 0x600000 = some e ∧
      2 ≤ pteState e.leaf ∧ e.leaf.getLsbD 8 = true ∧ e.leaf.getLsbD 6 = true) ∧
    ((stoppedWave (solo [])).troupe 1).traphnd = 0 ∧ flook ((stoppedWave (solo [])).pkg 0).ctxs 5 = some ctxOf ∧ ctxOf.sysh ≠ 0 ∧
    (noHandler.troupe 1).traphnd = 0 ∧ ∃ c, flook (noHandler.pkg 0).ctxs 5 = some c ∧ c.sysh = 0 :=
  ⟨by decide, by decide, ⟨⟨5, 0, 2 ^ 30, 0x17B⟩, by decide⟩, rfl, by decide, by decide, rfl, _, rfl, rfl⟩
/-- A handler that has lane 0 to return to RUN, and lane 1 to a park; user mode; system mode outside a handler. -/
def inHandler : State := (sysMode (solo [])).modWave 32 (fun v => { v.upd [1] (fun _ x => { x with st := .run, prior := .join 3 }) with
  handler := true })
theorem witness_TrapReturn :
    (let v := inHandler.wave inHandler.cur.wid
     (∃ l, On inHandler plain l) ∧ v.sys = true ∧ v.handler = true ∧ v.resting = false ∧ v.saving = false ∧ v.late = [] ∧ v.preempt = false ∧
     (∃ l, l < 32 ∧ (v.lane l).st ≠ .exit ∧ ((v.lane l).movedPc = true ∨ (v.lane l).prior = .run)) ∧
     (v.lane 1).st ≠ .exit ∧ (v.lane 1).movedPc = false ∧ (v.lane 1).prior ≠ .run) ∧
    Alone (solo []) ∧ ((sysMode (solo [])).wave 32).sys = true ∧ ((sysMode (solo [])).wave 32).handler = false :=
  ⟨⟨on_zero rfl rfl, by decide, by decide, by decide, by decide, by decide, by decide, ⟨0, by decide⟩, by decide, by decide, by decide⟩,
    ⟨rfl, rfl, rfl⟩, by decide, by decide⟩
/-- Results for one register, due now and later; a write in memory; one that must wait for an earlier one of its lane. -/
def flying : State := { solo [] with
  writes := [⟨1, 32, 0, 0, 0, 0x1000, [1, 2, 3, 4], 0, none⟩, ⟨2, 32, 0, 0, 0, 0x1002, [5, 6], 0, none⟩, ⟨3, 32, 0, 0, 0, 0x2000, [7], 2, none⟩] }
theorem witness_ResultsAndWritesLand :
    (∃ e ∈ (owing.lane 32 0).pend, e.dst = .g 4 ∧ (e.tag == 1 && e.due.isNone && e.got) = true) ∧
    (∃ w, flying.writes[0]? = some w ∧ flying.mayPerform 0 = true ∧ w.level = 0 ∧ keyIsHbm w.addr = true) ∧
    (∃ w, flying.writes[1]? = some w ∧ flying.mayPerform 1 = false) ∧
    ∃ w, flying.writes[2]? = some w ∧ flying.mayPerform 2 = true ∧ 2 ≤ w.level :=
  ⟨⟨⟨.g 4, 7, none, true, false, 1⟩, by decide, rfl, rfl⟩, ⟨_, rfl, by decide, rfl, by decide⟩, ⟨_, rfl, by decide⟩, _, rfl, by decide, by decide⟩

/-! ### States that meet the hypotheses: memory -/

/-- Registers 6 and 7 hold an aligned address; one that is not. -/
def aligned : State := put (solo [(4, 9), (6, 0x1000)]) 0x1000 4 0x80
def crooked : State := solo [(4, 9), (6, 0x1001)]
theorem witness_LoadsAndConstants :
    (let va := addrOf aligned .g 6 0
     aligned.walkWait .g ((aligned.activeLanes plain).map va) = false ∧
     (∀ l, On aligned plain l → checkOf aligned .g .load 4 (va l) = .ok (.at_ 0x1000 true) ∧ aligned.ownBehind l 0x1000 4 = false ∧
       aligned.poisoned 0x1000 4 = false ∧ ∀ x ∈ aligned.writes, x.wid = aligned.cur.wid → x.level = 0 → x.lane ≠ l → x.meets 0x1000 4 = false) ∧
     (∀ x ∈ aligned.writes, x.meets (0x1000 / 128 * 128) 128 = false) ∧
     ∀ y ∈ (aligned.core aligned.curPkg aligned.curTroupe.core).lines, y.tag ≠ 0x1000 / 128) ∧
    (let va := addrOf crooked .g 6 0
     Alone crooked ∧ crooked.walkWait .g ((crooked.activeLanes plain).map va) = false ∧ plain.zero = false ∧ (∃ l, On crooked plain l) ∧
     ∀ l, On crooked plain l → checkOf crooked .g .load 4 (va l) = .bad .align 0) ∧
    (∀ l, On aligned (withLit 0) l ↔ l = 0) ∧ checkOf aligned .g .load 1 (addrOf aligned .g 6 (withLit 0).memOff 0) = .ok (.at_ 0x1000 true) :=
  ⟨⟨by decide, each rfl rfl (by decide), by decide, by decide⟩, ⟨⟨rfl, rfl, rfl⟩, by decide, rfl, on_zero rfl rfl, each rfl rfl (by decide)⟩,
    on_iff rfl rfl, by decide⟩
/-- An address that no cached translation covers: a load, a store, an atomic and a range operation wait for its walk. -/
theorem witness_missing :
    let s := mapped (solo [(6, 0x40010000), (8, 3), (9, 4), (10, 0x40010000), (12, 0x40010100)])
    s.walkWait .g ((s.activeLanes plain).map (addrOf s .g 6 0)) = true ∧ Misses s 0x40010000 ∧
    (∃ b, bopBlock (s.block 0 8 8) = some b ∧ s.bopFault b = none ∧ s.walkWait b.sp (bopPages b) = true) := by
  refine ⟨by decide +kernel, ⟨by decide, by decide, by decide, fun r hr => absurd hr (by show r ∉ []; simp)⟩, _, rfl, by decide +kernel, by decide +kernel⟩
theorem witness_Stores :
    (let va := addrOf aligned .g 6 0
     aligned.walkWait .g ((aligned.activeLanes plain).map va) = false ∧
     (∀ l, On aligned plain l → checkOf aligned .g .store 4 (va l) = .ok (.at_ 0x1000 true)) ∧
     (aligned.pkg aligned.curPkg).copying aligned.cur.wid = false ∧ (aligned.pkg aligned.curPkg).outstanding = [] ∧
     (aligned.wave aligned.cur.wid).discarded = []) ∧
    (let va := addrOf crooked .g 6 0
     Alone crooked ∧ crooked.walkWait .g ((crooked.activeLanes plain).map va) = false ∧ (∃ l, On crooked plain l) ∧
     ∀ l, On crooked plain l → checkOf crooked .g .store 4 (va l) = .bad .align 0) :=
  ⟨⟨by decide, each rfl rfl (by decide), by decide, by decide, by decide⟩, ⟨rfl, rfl, rfl⟩, by decide, on_zero rfl rfl, each rfl rfl (by decide)⟩
/-- An atomic on a word of memory; on one of tile 1, where no result is owed. -/
theorem witness_Atomics :
    (let s := aligned
     let m := withLit 0
     let va := addrOf s m.syncSpace 6 m.syncOff
     s.curTroupe.hdr.det = false ∧ s.curTroupe.hdr.rcd = false ∧ s.walkWait m.syncSpace ((s.activeLanes m).map va) = false ∧
     (∀ l, On s m l → checkOf s m.syncSpace .atom 4 (va l) = .ok (.at_ 0x1000 true) ∧ s.poisoned 0x1000 4 = false) ∧
     (∀ l, On s m l → checkOf s m.syncSpace .red 4 (va l) = .ok (.at_ 0x1000 true)) ∧ m.syncSpace ≠ .s ∧ m.syncOrd = .rlx) ∧
    (let s := aligned
     let m := withLit 0x10
     let key := scrKey 0 0 1 0
     let va := addrOf s m.syncSpace 6 m.syncOff
     s.walkWait m.syncSpace ((s.activeLanes m).map va) = false ∧
     (∀ l, On s m l → checkOf s m.syncSpace .atom 4 (va l) = .ok (.at_ key false) ∧ s.poisoned key 4 = false) ∧
     m.syncSpace = .s ∧ m.syncOrd = .rlx ∧ (∀ l, On s m l ↔ l = 0) ∧ s.ownStore 0 key 4 = false ∧ s.ownBehind 0 key 4 = false ∧
     NoneAbout s key 4 ∧ ∀ x ∈ (s.lane s.cur.wid 0).pend, x.tag ≠ s.nextId) :=
  ⟨⟨rfl, rfl, by decide, each rfl rfl (by decide), each rfl rfl (by decide), by decide, by decide⟩,
    by decide, each rfl rfl (by decide), by decide, by decide, on_iff rfl rfl, by decide, by decide, none_about rfl, by decide⟩
/-- Operations queued at the banks: one whose turn it is, one of its bank that follows it, an element. -/
def banked : State := (solo []).modPkg 0 (fun p => { p with
  bankQ := [⟨1, 32, 0, 0, 5, 0, 0x1000, .rmw .add false 3, true, 1, none, none, 0, false, none⟩,
            ⟨2, 32, 0, 0, 5, 0, 0x1004, .cas false 3 4, true, 2, none, none, 0, false, none⟩,
            ⟨3, 32, 32, 0, 5, 0, 0x2080, .elem 3 0 3 0x3000 0 true, false, 3, none, none, 0, false, none⟩]
  bops := [⟨3, 32, 1, 4, 1, 4⟩, ⟨4, 32, 1, 5, 0, 5⟩] })
theorem witness_BankOperations :
    (∃ b, (banked.pkg 0).bankQ[0]? = some b ∧ b.rcd = false ∧ banked.mayApply 0 0 = true ∧ NoneAbout banked b.addr 4 ∧ b.lane < 32 ∧ b.ret = true ∧
      ((banked.lane b.wid b.lane).pend.filter (fun e => e.tag == b.tag)).map (fun e => e.dst) = []) ∧
    (∃ b, (banked.pkg 0).bankQ[1]? = some b ∧ b.rcd = false ∧ banked.mayApply 0 1 = false) ∧
    ∃ b, (banked.pkg 0).bankQ[2]? = some b ∧ b.rcd = false ∧ banked.mayApply 0 2 = true ∧ NoneAbout banked b.addr 4 ∧ NoneAbout banked 0x3000 4 :=
  ⟨⟨_, rfl, rfl, by decide, none_about rfl, by decide, rfl, by decide⟩, ⟨_, rfl, rfl, by decide⟩, _, rfl, rfl, by decide, none_about rfl, none_about rfl⟩
/-- A block that adds four words at 0x2000 to those at 0x1000. -/
def bopRegs : FMap W32 := [(8, 3), (9, 4), (10, 0x1000), (12, 0x2000)]
theorem witness_RangeOperations :
    Elected (solo bopRegs) plain 0 ∧ (∃ b, bopBlock ((solo bopRegs).block 0 8 8) = some b ∧ b.n = 4 ∧ b.op = 3 ∧ (solo bopRegs).bopFault b = none) ∧
    (∀ i, i < 4 → (solo bopRegs).poisoned (0x1000 + 4 * i) 4 = false ∧ (solo bopRegs).poisoned (0x2000 + 4 * i) 4 = false) ∧
    (∃ b, (banked.pkg 0).bops.find? (fun b => b.id == 3) = some b ∧ b.left ≠ 0) ∧
    ∃ b, (banked.pkg 0).bops.find? (fun b => b.id == 4) = some b ∧ b.left = 0 ∧ b.d.toNat < 120 :=
  ⟨elected_zero rfl rfl, ⟨_, rfl, rfl, rfl, by decide⟩, by decide, ⟨_, rfl, by decide⟩, _, rfl, rfl, by decide⟩

/-! ### Fences, owner bits, rings, byte barriers -/

/-- A wave with one fence outstanding, behind a write; with eight. -/
def fenced (n : Nat) : State :=
  { (solo [(6, 0x00000001), (7, 0x40000009), (8, 0xC0000000)]).modWave 32 (fun v => { v with
      fseq := 1, fences := List.replicate n ⟨1, .pkg, 9, 0, [], []⟩ }) with
    writes := [⟨1, 32, 0, 0, 0, 0x1000, [1], 0, none⟩] }
theorem witness_Fences :
    (∃ l, On (fenced 1) plain l) ∧ ((fenced 1).wave 32).fences.length < 8 ∧ 8 ≤ ((fenced 8).wave 32).fences.length ∧ Elected (fenced 1) plain 0 ∧
    (let v := (fenced 1).wave 32
     let tok := fun (r : Reg) => ((fenced 1).src 32 0 r).toNat
     let q := fun (r : Reg) => BitVec.ofNat 24 (tok r)
     let ahead := fun (r : Reg) => (q r - v.fseq).toNat ≠ 0 ∧ (q r - v.fseq).toNat < 2 ^ 23
     (tok 6 / 2 ^ 24 % 64 = 0 ∧ ¬ ahead 6 ∧ ∃ f ∈ v.fences, f.seq = q 6) ∧
     (tok 8 / 2 ^ 24 % 64 = 0 ∧ ¬ ahead 8 ∧ (∀ f ∈ v.fences, f.seq ≠ q 8) ∧ v.discarded = [] ∧ 2 ^ 30 ≤ tok 8) ∧ Alone (fenced 1) ∧ ahead 7) ∧
    ∃ f ∈ ((fenced 1).wave 32).fences, ∃ x ∈ (fenced 1).writes, x.wid = 32 ∧ x.id < f.writeId ∧ x.level < 3 :=
  ⟨on_zero rfl rfl, by decide, by decide, elected_zero rfl rfl, ⟨by decide, by decide, ⟨rfl, rfl, rfl⟩, by decide⟩,
    ⟨1, .pkg, 9, 0, [], []⟩, by decide, _, List.mem_cons_self .., rfl, by decide, by decide⟩
/-- Tile 1 is the program's, tile 2 the engines', tile 99 none of the troupe's. -/
def owners (a : W32) : State := (solo [(6, a)]).modCore 0 0 (fun c => { c with ownEng := [(2, true)] })
def tile1 : TileRef := ⟨1, 0, 1⟩
def tile2 : TileRef := ⟨1, 0, 2⟩
theorem witness_OwnerBits :
    (∀ l, On (owners 0x1000) plain l → (owners 0x1000).ownTile ((owners 0x1000).src 32 l 6) = some tile1 ∧
      fget false ((owners 0x1000).core 0 tile1.core).ownEng tile1.tile = false) ∧
    (∀ l, On (owners 0x1000) plain l → (owners 0x1000).tileInFlight 0 tile1 = false) ∧
    (∀ l, On (owners 0x2000) plain l → (owners 0x2000).ownTile ((owners 0x2000).src 32 l 6) = some tile2 ∧
      fget false ((owners 0x2000).core 0 tile2.core).ownEng tile2.tile = true) ∧
    (∀ l, On (owners 0x2000) plain l → (owners 0x2000).tileNamed 0 tile2 = false) ∧
    ({ owners 0x1000 with writes := [⟨1, 32, 0, 0, 0, scrKey 0 0 1 8, [1], 0, none⟩] }).tileInFlight 0 tile1 = true ∧
    Alone (owners 0x99000) ∧ (∃ l, On (owners 0x99000) plain l) ∧
    ∀ l, On (owners 0x99000) plain l → (owners 0x99000).ownTile ((owners 0x99000).src 32 l 6) = none :=
  ⟨each rfl rfl (by decide), each rfl rfl (by decide), each rfl rfl (by decide), each rfl rfl (by decide), by decide, ⟨rfl, rfl, rfl⟩, on_zero rfl rfl,
    each rfl rfl (by decide)⟩
/-- A plain ring in tile 0 over slots of one tile from tile 2 on; a mirror whose home ring stands beside it. -/
def ringed (w1 w3 : Nat) : State := putWords (solo [(6, 0)]) (scrKey 0 0 0 0) [0x0202, w1, 0, w3]
def mirrored : State :=
  putWords (putWords (solo [(6, 0)]) (scrKey 0 0 0 0) [0x20202, 0, 0x100, 0x101]) (scrKey 0 0 0 0x100) [0x10204, 0, 3, 0, 0xFFFF, 3]
theorem witness_Rings :
    (let s := ringed 0x00000100 0
     Elected s plain 0 ∧ s.head (s.src s.cur.wid 0 6) = .at_ ⟨1, 0, 0⟩ (scrKey 0 0 0 0) ∧ s.ownStore 0 (scrKey 0 0 0 0) 16 = false ∧
     NoneAbout s (scrKey 0 0 0 0) 16 ∧ ∃ h, s.ring (scrKey 0 0 0 0) = some h ∧ h.kind ≠ 1 ∧ h.filled = 0) ∧
    (let s := ringed 0x01000101 0
     ∃ h, s.ring (scrKey 0 0 0 0) = some h ∧ h.kind ≠ 1 ∧ h.filled ≠ 0 ∧ (s.slotTiles s.curTid h h.rd).length = h.tps) ∧
    (let s := ringed 0x01010000 1
     ∃ h, s.ring (scrKey 0 0 0 0) = some h ∧ h.kind = 0 ∧ h.held ≠ 0 ∧
       (s.slotTiles s.curTid h ((((h.rd : Int) - h.held).emod h.nslot).toNat)).length = h.tps ∧ s.relWait .core = false ∧
       ∀ p ∈ s.slotTiles s.curTid h ((((h.rd : Int) - h.held).emod h.nslot).toNat), s.tileInFlight s.curPkg p = false) ∧
    (let s := mirrored
     let hk := scrKey 0 0 0 0x100
     s.head (s.src s.cur.wid 0 6) = .at_ ⟨1, 0, 0⟩ (scrKey 0 0 0 0) ∧ ∃ h hh, s.ring (scrKey 0 0 0 0) = some h ∧ h.kind = 2 ∧ h.held ≠ 0 ∧
       (s.slotTiles s.curTid h ((((h.rd : Int) - h.held).emod h.nslot).toNat)).length = h.tps ∧ s.relWait .clu = false ∧
       s.checkS s.curTid h.home 16 = .ok (.at_ hk false) ∧ s.tileOf s.curTid h.home = some ⟨1, 0, 0⟩ ∧ s.ring hk = some hh ∧ hh.kind = 1 ∧
       scrKey 0 0 0 0 + 16 ≤ hk ∧ NoneAbout s hk 144 ∧ h.cidx < 16) :=
  ⟨⟨elected_zero rfl rfl, by decide, by decide, none_about rfl, _, rfl, by decide, rfl⟩, ⟨_, rfl, by decide, by decide, by decide⟩,
    ⟨_, rfl, rfl, by decide, by decide, by decide, by decide⟩,
    by decide, _, _, rfl, rfl, by decide, by decide, by decide, by decide, by decide, rfl, rfl, by decide, none_about rfl, by decide⟩
/-- A byte barrier in tile 0 with these two words of flags and counts. -/
def barred (ws : List Nat) (v : W32) : State := putWords (solo [(4, v), (6, 0)]) (scrKey 0 0 0 0) ws
theorem witness_ByteBarriers :
    (let s := barred [0, 0, 0, 0] 1
     Elected s plain 0 ∧ s.head (s.src s.cur.wid 0 6) = .at_ ⟨1, 0, 0⟩ (scrKey 0 0 0 0) ∧ s.ownStore 0 (scrKey 0 0 0 0) 16 = false ∧
     NoneAbout s (scrKey 0 0 0 0) 16 ∧ (s.src s.cur.wid 0 4).toNat ≤ 1 ∧ s.relWait .core = false ∧
     ∃ b, s.byteBar (scrKey 0 0 0 0) = some b ∧ (b.trapen && b.ovr) = false ∧ b.posted = false) ∧
    (∃ s b, s = barred [0x100, 0, 2, 0] 1 ∧ s.byteBar (scrKey 0 0 0 0) = some b ∧ (b.trapen && b.ovr) = false ∧ b.posted = true ∧ s.cur.past = false) ∧
    ∃ s b, s = barred [0x100, 0, 13, 0] 1 ∧ s.byteBar (scrKey 0 0 0 0) = some b ∧ (b.trapen && b.ovr) = true ∧ Alone s :=
  ⟨⟨elected_zero rfl rfl, by decide, by decide, none_about rfl, by decide, by decide, _, rfl, rfl, rfl⟩, ⟨_, _, rfl, rfl, rfl, rfl, rfl⟩,
    _, _, rfl, rfl, rfl, rfl, rfl, rfl⟩

/-! ### Heap and pages -/

/-- A heap whose page at 0x4002_0000 holds blocks of 64 bytes, one of them free. -/
def heaped (a n : W32) : State :=
  (solo [(6, a), (8, n)]).modPkg 0 (fun p => { p with ctxs := [(5, { ctxOf with heapFree := [(6, [0x40020080])], heapTag := [(0x4002, 6)] })] })
/-- A sparse page at 0x4000_0000 and a mapped one behind it, named by register 6, with a free frame. -/
def paged (a : W32) : State :=
  (mapped (solo [(6, a), (8, 0x40010000), (10, 1), (11, 1)])).modPkg 0 (fun p => { p with phys := { p.phys with pool := [(0, [9])] } })
theorem witness_HeapBlocks :
    (let s := heaped 0x40020040 0
     s.relWait .pkg = false ∧ (∀ l, On s plain l → s.src64 32 l 6 = 0 ∨ (s.heapBlock s.curPkg s.curCtx (s.src64 32 l 6)).isSome = true)) ∧
    (let s := heaped 0x40020041 0
     s.relWait .pkg = false ∧ Alone s ∧ (∃ l, On s plain l) ∧
     ∀ l, On s plain l → s.src64 32 l 6 ≠ 0 ∧ s.heapBlock s.curPkg s.curCtx (s.src64 32 l 6) = none) ∧
    (∀ l, On (heaped 0 65537) plain l → ((heaped 0 65537).src 32 l 8).toNat = 0 ∨ 65536 < ((heaped 0 65537).src 32 l 8).toNat) ∧
    (let s := heaped 0 64
     (∀ l, On s plain l ↔ l = 0) ∧ (s.src 32 0 8).toNat ≤ 2 ^ 6 ∧ 0 < (s.src 32 0 8).toNat ∧ s.heapList s.curPkg s.curCtx 6 = [0x40020080]) :=
  ⟨⟨by decide, each rfl rfl (by decide)⟩, ⟨by decide, ⟨rfl, rfl, rfl⟩, on_zero rfl rfl, each rfl rfl (by decide)⟩, each rfl rfl (by decide),
    on_iff rfl rfl, by decide, by decide, by decide⟩
theorem witness_PageCommits :
    (let s := paged 0x40000000
     Elected s plain 0 ∧ (s.src64 32 0 6).toNat % 2 ^ 16 = 0 ∧ ∃ r w, s.sparsePage s.curPkg s.curCtx (s.src64 32 0 6) = some (r, w) ∧
       pteState w.pte < 2 ∧ r.used < r.quota ∧ (∃ f p, (s.pkg 0).takeFrame 0 1 = some (f, p)) ∧ s.writes = [] ∧
       (∀ c, flook (s.pkg 0).ctxs s.curCtx.toNat = some c → overlaps (hbmKey 0 w.pa) 8 (hbmKey 0 (c.regions.toNat + 32 * r.idx + 20)) 4 = false) ∧
       s.relWait .pkg = false ∧ s.changing s.curCtx (s.src64 32 0 6) (2 ^ 16) = false) ∧
    (let s := put (paged 0x40000000) 0x18014 4 4
     ∃ r w, s.sparsePage s.curPkg s.curCtx (s.src64 32 0 6) = some (r, w) ∧ pteState w.pte < 2 ∧ r.quota ≤ r.used) ∧
    (let s := paged 0x40010000
     ∃ r w, s.sparsePage s.curPkg s.curCtx (s.src64 32 0 6) = some (r, w) ∧ 2 ≤ pteState w.pte ∧ s.relWait .pkg = false ∧
       s.changing s.curCtx (s.src64 32 0 6) (2 ^ 16) = false) := by
  refine ⟨⟨elected_zero rfl rfl, by decide, ⟨0, 0x40000000, 4, 0, 4, 0⟩, ⟨0x14000, 0, 0x233⟩, by decide +kernel, by decide, by decide, ⟨9, _, rfl⟩, rfl, ?_, by decide,
    by decide⟩, ⟨⟨0, 0x40000000, 4, 0, 4, 4⟩, ⟨0x14000, 0, 0x233⟩, by decide +kernel, by decide, by decide⟩,
    ⟨0, 0x40000000, 4, 0, 4, 0⟩, ⟨0x14008, 0, 0x50023B⟩, by decide +kernel, by decide, by decide, by decide⟩
  intro c hc
  have : some ctxOf = some c := hc
  cases this
  decide
/-- Every change of a page that an instruction may ask for, in system mode and in user mode. -/
theorem witness_HeapAndPages :
    (let s := sysMode (paged 0x40010000)
     Elected s plain 0 ∧ Privileged s ∧ s.cur.past = false ∧ ((s.block 0 8 4)[3]!).toNat < 4 ∧
     (∀ c ∈ (s.pkg 0).vmch, c.wid = some s.cur.wid → c.d = none → c.lanes &&& s.cur.lanes = 0) ∧
     ∃ s1 c, vmProt s 0 s.curCtx 0x40010000 1 1 = .begin_ s1 c ∧ s1.waves = s.waves ∧ s1.cur = s.cur ∧ s1.troupes = s.troupes) ∧
    ({ (sysMode (paged 0)) with cur := { (paged 0).cur with past := true } }).cur.past = true ∧ Alone (paged 0) := by
  refine ⟨⟨elected_zero rfl rfl, rfl, rfl, by decide +kernel, by decide, ?_⟩, rfl, ⟨rfl, rfl, rfl⟩⟩
  obtain ⟨s1, c, h⟩ : ∃ s1 c, vmProt (sysMode (paged 0x40010000)) 0 5 0x40010000 1 1 = .begin_ s1 c := ⟨_, _, rfl⟩
  exact ⟨s1, c, h, by cases h; rfl, by cases h; rfl, by cases h; rfl⟩
/-- A change whose accesses are still in flight, and one with nothing left. -/
def changingPage (n : Nat) : State :=
  { (solo []).modPkg 0 (fun p => { p with vmch := [{ VmChange.blank 5 0x40000000 (2 ^ 16) with
      id := 7, wid := some 32, lanes := 1, d := some 4, tag := 3, watch := [(0x50000, 2 ^ 16)], frees := [(0, 9, 1)] }] }) with
    writes := List.replicate n ⟨1, 32, 0, 0, 0, 0x50000, [1], 0, none⟩ }
theorem witness_PageChangesEnd :
    (∃ c, ((changingPage 1).pkg 0).vmch.find? (fun c => c.id == 7) = some c ∧ (changingPage 1).changeDone c = false) ∧
    (∃ c, ((changingPage 0).pkg 0).vmch.find? (fun c => c.id == 7) = some c ∧ (changingPage 0).changeDone c = true ∧ c.wid = some 32 ∧
      c.frees = [(0, 9, 1)] ∧ 9 ∉ ((changingPage 0).pkg 0).phys.withdrawn) ∧
    (∃ e, (paged 0).lookup 0 0 5 0x40010000 = some e ∧ 2 ≤ pteState e.leaf) ∧
    ∃ n rest, (((solo []).modPkg 0 (fun p => { p with fab := { p.fab with inNotices := [(1, invNotice 0x40000000 (2 ^ 16))] } })).pkg 0).fab.inNotices =
      (1, n) :: rest ∧ n.kind = .invalidate :=
  ⟨⟨_, rfl, by decide⟩, ⟨_, rfl, by decide, rfl, rfl, by decide⟩, ⟨⟨5, 0x40010000, 2 ^ 16, 0x50023B⟩, by decide +kernel, by decide⟩, _, _, rfl, rfl⟩

/-! ### Engines -/

/-- A window of 16 by 16 FP16 values; a troupe with the array, every accumulator tile and that window. -/
def win0 : Window := { Window.init with size := 1, xext := 16, kext := 16 }
def grand (g : FMap W32) : State := (solo g).modTroupe 1 (fun u => { u with
  hdr := { u.hdr with acc := 64, obuf := 64 }, accs := List.range 64, windows := [(0, win0)] })
def noEngine (s : State) : State := s.modPkg 0 (fun p => { p with phys := { p.phys with engBad := List.range 6 } })
/-- A multicast home in tile 0 whose one consumer has its mirror at 0x100. -/
def homeRing (s : State) : State :=
  putWords (putWords s (scrKey 0 0 0 0) [0x10202, 0x200, 1, 0]) (scrKey 0 0 0 0x100) [0x20202, 0, 0, 0]
def copyRegs : FMap W32 := [(8, 0x1000), (10, 0x2000), (12, 16)]
theorem witness_EngineCommands_copy :
    let s := solo copyRegs
    let b := s.block 0 8 6
    Elected s plain 0 ∧ bf b 4 31 28 = 0 ∧ bf b 4 27 26 ≤ 1 ∧ bf b 4 25 24 ≤ 1 ∧ 16 ≤ bf b 4 23 0 ∧ bf b 4 23 0 % 16 = 0 ∧
    s.rangeX .g .load (bd b 0) 16 16 = none ∧ s.rangeX .g .store (bd b 2) 16 16 = none ∧ s.barBad (bw b 5) = none ∧ s.rangeDet (bd b 2) 16 = none ∧
    s.walkWait .g (vasOf .g (bd b 0) 16 ++ vasOf .g (bd b 2) 16) = false ∧ (s.pkg 0).engineFor 0 = some 0 ∧
    ((noEngine s).pkg 0).engineFor 0 = none ∧
    (let s := solo [(8, 0x1000), (10, 0x2000), (12, 17)]
     Alone s ∧ bf (s.block 0 8 6) 4 23 0 % 16 ≠ 0) :=
  ⟨elected_zero rfl rfl, by decide, by decide, by decide, by decide, by decide, by decide, by decide, by decide, by decide, by decide, by decide,
    by decide, ⟨rfl, rfl, rfl⟩, by decide⟩
theorem witness_EngineCommands_mcast :
    let s := homeRing (solo [(8, 0x1000), (10, 0), (11, 0x10000)])
    let b := s.block 0 8 4
    bf b 3 31 28 = 0 ∧ s.headWait 0 (bw b 2) = false ∧ s.head (bw b 2) = .at_ ⟨1, 0, 0⟩ (scrKey 0 0 0 0) ∧
    ∃ h, s.ring (scrKey 0 0 0 0) = some h ∧ h.kind = 1 ∧ s.rangeG .load (bd b 0) (4096 * h.tps) 16 = none ∧
      (∀ c ∈ consumers h (bf b 3 7 0), s.consBad h (bf b 3 27 8) c = none) ∧ s.walkWait .g (vasOf .g (bd b 0) (4096 * h.tps)) = false :=
  ⟨by decide, by decide, by decide, _, rfl, rfl, by decide, by decide, by decide⟩
theorem witness_EngineCommands_perm :
    let s := grand [(8, 0), (9, 4), (10, 0x1000)]
    let b := s.block 0 8 4
    bf b 0 31 2 = 0 ∧ 1 ≤ (bw b 1).toNat ∧ (bw b 1).toNat ≤ 4096 ∧ s.curTroupe.hdr.acc ≠ 0 ∧ s.rangeG .load (bd b 2) (2 * (bw b 1).toNat) 16 = none ∧
    s.walkWait .g (vasOf .g (bd b 2) (2 * (bw b 1).toNat)) = false ∧ (s.pkg 0).engineFor 0 = some 0 := by decide
theorem witness_EngineCommands_windows :
    (let s := grand [(8, 0x80), (9, 0x1000), (11, 16)]
     let b := s.block 0 8 4
     bf b 0 31 28 = 0 ∧ bf b 3 31 20 = 0 ∧ bf b 0 7 5 = 4 ∧ bf b 0 4 4 = 0 ∧ flook s.curTroupe.windows (bf b 0 3 0) = some win0 ∧
     win0.pen = false ∧ bf b 0 27 8 % 16 = 0 ∧ bf b 3 19 0 % 16 = 0 ∧ 0 < bf b 3 19 0 ∧ bf b 0 27 8 + bf b 3 19 0 ≤ win0.size * 1024 ∧
     s.rangeG .load (bd b 1) (bf b 3 19 0) 16 = none ∧ s.walkWait .g (vasOf .g (bd b 1) (bf b 3 19 0)) = false) ∧
    (let s := grand [(8, 0x10001), (9, 0x80008)]
     ∃ n w, windowOf s.curTroupe (s.pkg 0) (s.block 0 8 4) = some (n, w)) ∧
    (let s := grand [(8, 0)]
     (s.src 32 0 8).toNat < 16 ∧ (flook s.curTroupe.windows (s.src 32 0 8).toNat).isSome = true ∧
     ((s.mxCore s.curTid).items s.curTid).any (fun y => y.work.usesWin (s.src 32 0 8).toNat) = false) :=
  ⟨by decide, ⟨1, _, rfl⟩, by decide⟩
theorem witness_EngineCommands_rcopy :
    let s := solo [(8, 0x1000), (10, 0x2000), (12, 64)]
    let b := s.block 0 8 8
    bf b 4 31 24 = 0 ∧ 64 ≤ bf b 4 23 0 ∧ bf b 4 23 0 % 64 = 0 ∧ bw b 7 = 0 ∧ bw b 5 = 0 ∧ s.rangeG .load (bd b 0) 64 64 = none ∧
    s.rcopyHome (bd b 2) 64 = .inr 0 ∧ s.barBad (bw b 6) = none ∧ s.rangeDet (bd b 2) 64 = none ∧
    s.walkWait .g (vasOf .g (bd b 0) 64 ++ vasOf .g (bd b 2) 64) = false ∧ s.routeRoom (s.route false (bd b 2) 0) 0 66 = true := by decide
/-- A plain copy before its unit and with its unit read; a ring command whose slot has been written. -/
def copying (c : CmdRec) : State := (mapped (solo [])).modPkg 0 (fun p => { p with cmds := [c] })
def copyCmd : CmdRec := { CmdRec.blank with id := 7, tid := 1, wid := 32, ctx := 5, cmd := .copy .g .g false 0x40010000 0x40010400 16 0, total := 16 }
def copyRead : CmdRec := { copyCmd with read := 16, buf := List.replicate 16 9 }
def slotCmd : CmdRec := { copyCmd with cmd := .copy .g .s true 0x1000 0 4096 0, total := 4096, read := 4096, written := 4096 }
theorem witness_CopyEngines :
    (let s := copying copyCmd
     (s.pkg 0).cmds.find? (fun c => c.id == 7) = some copyCmd ∧ copyCmd.engine ≠ 255 ∧ s.mayRead 0 copyCmd = true ∧ s.mayPark 0 copyCmd = false ∧
     (∀ e ∈ s.spans 0 copyCmd .g 0x40010000 16, s.poisoned e.1 e.2 = false) ∧ (∃ e ∈ s.spans 0 copyCmd .g 0x40010000 16, keyIsScr e.1 = false) ∧
     copyCmd.retried = 0) ∧
    (let s := copying copyRead
     s.mayRead 0 copyRead = false ∧ s.mayPark 0 copyRead = false ∧ copyRead.buf ≠ [] ∧ s.spans 0 copyRead .g 0x40010400 16 = [(0x50400, 16)] ∧
     NoneAbout s 0x50400 16 ∧ copyRead.read = copyRead.total) ∧
    (let s := putWords (copying slotCmd) (scrKey 0 0 0 0) [0x0202, 0x100, 0, 0]
     (∃ h, s.cmdHdr slotCmd = some (scrKey 0 0 0 0, h) ∧ slotCmd.written - slotCmd.filled = 4096 * h.tps) ∧ slotCmd.buf = [] ∧
     slotCmd.filled < slotCmd.written ∧ NoneAbout s (scrKey 0 0 0 0) 16 ∧ scrKey 0 0 0 0 % 16 = 0) := by
  refine ⟨⟨rfl, by decide, by decide, by decide, by decide, ⟨(0x50000, 16), by decide, by decide⟩, rfl⟩,
    ⟨by decide, by decide, by decide, by decide, none_about rfl, rfl⟩, ⟨_, rfl, by decide⟩, rfl, by decide, none_about rfl, by decide⟩

/-! ### The matrix array -/

/-- The array with this configuration and these pieces of work. -/
def arrayed (g : FMap W32) (c : ArrayCfg) (q : List MxItem) : State :=
  (grand g).modCore 0 0 (fun x => { x with arr := c, mxq := q })
def filling : List MxItem := [⟨1, 1, 32, .fill 0 99, []⟩]
def plane0 : Plane := ⟨true, 0, 0, win0⟩
def loaded : ArrayCfg := { ArrayCfg.init with active := [(0, plane0)], shadow := [(0, plane0)] }
/-- The array with nothing before the instruction, and with a fill at its head. -/
theorem witness_ArrayCommands_ready :
    (let s := arrayed [] loaded []
     Elected s plain 0 ∧ s.curTroupe.hdr.acc ≠ 0 ∧ s.predict s.curTid = some loaded ∧ (s.mxCore s.curTid).items s.curTid = [] ∧ loaded.canSwap = true ∧
     flook loaded.shadow 0 = some plane0 ∧ loaded.shadow.Pairwise (fun x y => x.1 < y.1)) ∧
    (let s := arrayed [] ArrayCfg.init filling
     s.predict s.curTid = some ArrayCfg.init ∧ (∃ y, (s.mxCore s.curTid).head s.curTid = some y ∧ quickWork s s.curTid y.id y.work = none) ∧
     s.cur.past = false ∧ (s.mxCore s.curTid).items s.curTid ≠ [] ∧ ArrayCfg.init.canSwap = false ∧ Alone s) :=
  ⟨⟨elected_zero rfl rfl, by decide, rfl, by decide, by decide, by decide, by decide⟩, rfl, ⟨_, rfl, rfl⟩, rfl, by decide, by decide, rfl, rfl, rfl⟩
theorem witness_MatrixArray :
    (let s := arrayed [(8, 0x10)] loaded []
     let b := s.block 0 8 1
     (bw b 0).toNat < 2 ^ 6 ∧ bf b 0 4 2 ≤ 4 ∧ (s.pkg s.curPkg).feat 4 = true ∧ (s.pkg s.curPkg).feat 3 = true ∧ bf b 0 4 2 = 4) ∧
    (let s := arrayed [(8, 0x10), (9, 0)] loaded []
     let b := s.block 0 8 2
     bf b 0 31 6 = 0 ∧ flook s.curTroupe.windows (bf b 0 3 0) = some win0 ∧ loaded.fuse = 0 ∧ bf b 1 15 0 % loaded.shape.1 = 0 ∧
     bf b 1 15 0 < win0.kext ∧ bf b 1 31 16 < win0.xext ∧ fmtMatches loaded.fmt win0.fmt = true ∧ win0.sp = loaded.sp) ∧
    (let s := arrayed [(8, 0x3C0), (9, 0)] loaded []
     let b := s.block 0 8 2
     bf b 0 31 20 = 0 ∧ bf b 1 31 16 + (bf b 0 13 6 + 1) ≤ win0.xext ∧ (fget Plane.init loaded.active (bf b 0 5 4)).valid = true ∧
     win0.blk = plane0.win.blk ∧ win0.pen = plane0.win.pen ∧ win0.ptid = plane0.win.ptid ∧
     bf b 0 19 14 + ((bf b 0 13 6 + 1) * loaded.shape.2 - 1) * loaded.elem / 4096 < s.curTroupe.hdr.acc) ∧
    (let s := arrayed [(8, 0x40), (9, 992), (10, 0x3F800000)] loaded []
     let b := s.block 0 8 3
     bf b 0 31 16 = 0 ∧ bf b 0 13 6 = 1 ∧ bf b 0 15 14 ≠ 3 ∧ (bw b 1).toNat + 31 < 4096 / loaded.elem ∧ bf b 0 5 0 + 1 ≤ s.curTroupe.hdr.acc) ∧
    (let s := arrayed [(8, 0x7F)] loaded []
     let b := s.block 0 8 1
     bf b 0 31 13 = 0 ∧ 1 ≤ bf b 0 12 6 ∧ bf b 0 12 6 ≤ 64 ∧ bf b 0 5 0 + bf b 0 12 6 ≤ s.curTroupe.hdr.acc) ∧
    (let s := arrayed [(8, 0x10000), (10, 0x2040)] loaded filling
     let b := s.block 0 8 3
     bf b 2 31 14 = 0 ∧ bf b 2 12 6 ≤ 64 ∧ bf b 2 5 0 + bf b 2 12 6 ≤ s.curTroupe.hdr.acc ∧
     s.walkWait .g (stepsOf (2 ^ 16) (bd b 0) 16384 ++ stepsOf (2 ^ 16) (bd b 0 + 16384) 4096) = false ∧
     s.imageBad .store (bd b 0) 1 true = none ∧ s.imageBad .load (bd b 0) 1 true = none) := by decide
/-- Each kind of work, alone in the array. -/
theorem witness_ArrayWork :
    (∀ w ∈ [MxWork.stat 0 0 0 0, .strm 0 1 0 0 0 0, .drain 32 1 0 false 1 0 0 0x3F800000 4 3, .mark 32 1],
      let s := arrayed [] loaded [⟨9, 1, 32, w, []⟩]
      (s.mxCore 1).items 1 = [⟨9, 1, 32, w, []⟩] ∧ (s.mxCore 1).arr.fmt < 4 ∧ (s.troupe 1).accs.Nodup ∧
      0 * 4096 + 1 * (s.mxCore 1).arr.shape.2 * (s.mxCore 1).arr.elem ≤ (s.troupe 1).accs.length * 4096 ∧ ∀ p ∈ (s.troupe 1).accs, p < 64) ∧
    (let s := waitAt (arrayed [] loaded [⟨9, 1, 32, .mark 32 1, []⟩]) (.mxWait plain)
     (s.mxCore 1).items 1 = [⟨9, 1, 32, .mark 32 1, []⟩] ∧ (s.wave 32).tid = 1 ∧
     ∃ r, (s.wave 32).waits = [r] ∧ r.instr = .mxWait plain ∧ r.grouped = false ∧ r.lanes = 1) :=
  ⟨by decide, rfl, rfl, _, rfl, rfl, rfl, rfl⟩

/-! ### Remote operations, tokens, packets -/

/-- The entries of a map listed from 0 on. -/
theorem fget_range {α : Type} (d : α) (f : Nat → α) (n i : Nat) (h : i < n) :
    fget d ((List.range n).map (fun j => (j, f j))) i = f i := by
  have key : ∀ k a, a ≤ i → i < a + k → fget d ((List.range' a k).map (fun j => (j, f j))) i = f i := by
    intro k
    induction k with
    | zero => intro a h1 h2; omega
    | succ k ih =>
      intro a h1 h2
      rw [List.range'_succ, List.map_cons]
      by_cases ha : a = i
      · simp [fget, ha]
      · simpa [fget, ha] using ih (a + 1) (by omega) (by omega)
  simpa [List.range_eq_range'] using key n 0 (by omega) (by omega)
/-- A store to an own page and its token; every token in use. -/
def remote : State := solo [(8, 0x1000), (10, 7)]
def noToken : State := remote.modPkg 0 (fun p => { p with fab := { p.fab with
  toks := (List.range 4096).map (fun i => (i, { Tok.init with st := .pend })) } })
theorem noToken_none (st : TokSt) (ins : List Nat) (c : W32) : (noToken.pkg 0).newTok st ins c = none := by
  have hf : ∀ j, j < 4096 → ((noToken.pkg 0).tok j).st = .pend := fun j hj => by
    show (fget Tok.init ((List.range 4096).map (fun i => (i, { Tok.init with st := .pend }))) j).st = .pend
    rw [fget_range _ _ _ _ hj]
  unfold Pkg.newTok
  rw [List.findSome?_eq_none_iff]
  intro j hj
  obtain ⟨i, -, rfl⟩ := List.mem_map.1 hj
  have := hf (((noToken.pkg 0).fab.tokTurn + i) % 4096) (Nat.mod_lt _ (by decide))
  simp only [this]
  rfl
theorem witness_RemoteOperations :
    (let s := remote
     let b := s.block 0 8
     Elected s plain 0 ∧ bw (b 4) 3 = 0 ∧ tokBad (bw (b 4) 3) = false ∧ s.target .store (bd (b 4) 0) 4 = .home 0 ∧
     s.walkWait .g [bd (b 4) 0] = false ∧ s.routeRoom (s.route false (bd (b 4) 0) 0) 0 1 = true ∧
     (∃ tk p, (s.pkg 0).newTok .pend [] s.curCtx = some (tk, p))) ∧
    noToken.target .store 0x1000 4 = .home 0 ∧ (noToken.pkg 0).newTok .pend [] noToken.curCtx = none ∧
    (let s := solo [(8, 0x1000), (10, 0)]
     let b := s.block 0 8
     bf (b 4) 2 31 1 = 0 ∧ s.target .load (bd (b 4) 0) 4 = .home 0 ∧ s.steerRoom (s.activeLanes plain) = true ∧
     bf (b 8) 2 31 9 = 0 ∧ bf (b 8) 2 7 4 = 0 ∧ s.curTroupe.hdr.det = false ∧ bw (b 8) 3 = bw (b 4) 3 ∧ s.target .atom (bd (b 8) 0) 4 = .home 0) :=
  ⟨⟨elected_zero rfl rfl, by decide, by decide, by decide, by decide, by decide, _, _, rfl⟩, by decide +kernel, noToken_none _ _ _, by decide⟩
/-- Token 1 pending; the null token; a value that is no token. -/
def tokens (x y : W32) : State := (solo [(4, x), (6, y)]).modPkg 0 (fun p => { p with fab := { p.fab with toks := [(1, { Tok.init with st := .pend })] } })
theorem witness_RemoteAndTokens :
    (let s := tokens 0 0x80000001
     let landed := fun (t : W32) => let r := fget Tok.init (s.pkg 0).fab.toks (t.toNat % 2 ^ 12)
       t = 0 ∨ r.gen ≠ BitVec.ofNat 19 (t.toNat / 2 ^ 12) ∨ r.st = .landed ∨ r.st = .free
     Elected s plain 0 ∧ s.src 32 0 4 = 0 ∧ 2 ^ 31 ≤ (s.src 32 0 6).toNat ∧ landed 0 ∧ ¬ landed 0x80000001) ∧
    (let s := tokens 0x80000001 0x80000001
     s.src 32 0 4 = 0x80000001 ∧ s.src 32 0 6 = 0x80000001 ∧ ∃ tk p, (s.pkg 0).newTok .join [1, 1] s.curCtx = some (tk, p)) ∧
    (noToken.pkg 0).newTok .join [1, 1] noToken.curCtx = none ∧
    (let s := tokens 0 7
     Alone s ∧ ¬ (s.src 32 0 6 = 0 ∨ 2 ^ 31 ≤ (s.src 32 0 6).toNat)) :=
  ⟨⟨elected_zero rfl rfl, by decide, by decide, by decide, by decide⟩, ⟨by decide, by decide, _, _, rfl⟩, noToken_none _ _ _, ⟨rfl, rfl, rfl⟩, by decide⟩
/-- A package with a packet from package 1 first among its arrivals, or of its own stream. -/
def arriving (x : Packet) : State := (mapped (solo [])).modPkg 0 (fun p => { p with podsize := 2, fab := { p.fab with arrivals := [(1, x)] } })
def local_ (x : Packet) : State := (mapped (solo [])).modPkg 0 (fun p => { p with fab := { p.fab with locals := [⟨x.kind, x⟩] } })
/-- A packet for the mapped page, and one for the page that holds nothing. -/
def toPage (kd : PKind) (a : W64) : Packet := { Packet.init with src := 1, kind := kd, addr := a, ctx := 5, lmask := 1, wid := 32 }
theorem ripe_arriving (x : Packet) (h : x.dep = false) : Ripe (arriving x) 0 false x :=
  ⟨h, ⟨1, rfl⟩, fun h hh => absurd hh (by show h ∉ []; simp)⟩
theorem home_arriving (x : Packet) (kd : AccKind) (hc : x.ctx = 5) (hq : x.src = 1) (hs : x.sysm = false) (hk : kd = .store ∨ kd = .load ∨ kd = .atom ∨ kd = .red) :
    HomeAt (arriving x) 0 x kd 0x40010000 0x50000 ∧ HomeFault (arriving x) 0 x kd 0x40000000 .page := by
  have hw : walk (arriving x) 0 5 0x40010000 = walk (arriving Packet.init) 0 5 0x40010000 := rfl
  have hw' : walk (arriving x) 0 5 0x40000000 = walk (arriving Packet.init) 0 5 0x40000000 := rfl
  have h1 : (arriving x).devLeaf 0 5 0x40010000 = some 0x50023B := by
    unfold State.devLeaf
    rw [hw]
    decide
  have h2 : (arriving x).devPlace 0 5 0x40010000 = .at_ 0x50000 true :=
    ((by unfold State.devPlace; rw [hw]; rfl : _ = (arriving Packet.init).devPlace 0 5 0x40010000)).trans (by decide)
  have h3 : (arriving x).devPlace 0 5 0x40000000 = .absent :=
    ((by unfold State.devPlace; rw [hw']; rfl : _ = (arriving Packet.init).devPlace 0 5 0x40000000)).trans (by decide)
  constructor
  · refine ⟨true, ?_⟩
    simp only [State.homeCheck, State.homeLeaf, State.homePlace, hc, hq, h1, h2, hs]
    rcases hk with rfl | rfl | rfl | rfl <;> rfl
  · have : (arriving x).homeCheck 0 x kd 0x40000000 = .bad .page 0 := by
      simp only [State.homeCheck, State.homeLeaf, State.homePlace, hc, hq, h3]
      cases (arriving x).devLeaf 0 5 0x40000000 <;> rfl
    exact .inr ⟨fun b => by rw [this]; simp, fun key w => by rw [this]; simp, rfl⟩
theorem witness_PacketsAtHome :
    let st := toPage .store 0x40010000
    let ld := toPage .load 0x40010000
    Ripe (arriving st) 0 false st ∧ HomeAt (arriving st) 0 st .store st.addr 0x50000 ∧ NoneAbout (arriving st) 0x50000 4 ∧
    HomeFault (arriving (toPage .store 0x40000000)) 0 (toPage .store 0x40000000) .store 0x40000000 .page ∧
    Ripe (arriving ld) 0 false ld ∧ HomeAt (arriving ld) 0 ld .load ld.addr 0x50000 ∧ (arriving ld).poisoned 0x50000 4 = false ∧
    ld.lmask ≠ 0 ∧ ld.src ≠ 0 ∧ Ripe (local_ st) 0 true st ∧
    (let v := { toPage .vStore 0 with vw := 2, ents := [⟨0, 0x40010000, 7, 0⟩] }
     Ripe (arriving v) 0 false v ∧ HomeAt (arriving v) 0 v .store 0x40010000 0x50000 ∧ NoneAbout (arriving v) 0x50000 (2 ^ v.vw)) ∧
    (let v := { toPage .vLoad 0 with vw := 2, ents := [⟨0, 0x40010000, 0, 0⟩] }
     Ripe (arriving v) 0 false v ∧ v.ents ≠ [] ∧ ∀ e ∈ v.ents, HomeAt (arriving v) 0 v .load e.addr 0x50000 ∧ (arriving v).poisoned 0x50000 4 = false) ∧
    (let c := { toPage .copySeg 0x40010000 with bytes := [1, 2] }
     Ripe (arriving c) 0 false c ∧ isChunk c = false ∧ c.bytes ≠ [] ∧ c.addr.toNat % 2 ^ 16 + c.bytes.length ≤ 2 ^ 16 ∧
     HomeAt (arriving c) 0 c .store c.addr 0x50000) := by
  refine ⟨ripe_arriving _ rfl, (home_arriving _ _ rfl rfl rfl (.inl rfl)).1, none_about rfl, (home_arriving _ _ rfl rfl rfl (.inl rfl)).2, ripe_arriving _ rfl,
    (home_arriving _ _ rfl rfl rfl (.inr (.inl rfl))).1, by decide, by decide, by decide, ⟨rfl, rfl, rfl⟩,
    ⟨ripe_arriving _ rfl, (home_arriving _ _ rfl rfl rfl (.inl rfl)).1, none_about rfl⟩,
    ⟨ripe_arriving _ rfl, by decide, fun e he => ?_⟩,
    ripe_arriving _ rfl, by decide, by decide, by decide, (home_arriving _ _ rfl rfl rfl (.inl rfl)).1⟩
  obtain rfl : e = ⟨0, 0x40010000, 0, 0⟩ := by simpa using he
  exact ⟨(home_arriving _ _ rfl rfl rfl (.inr (.inl rfl))).1, by decide⟩
theorem witness_AtomicHandlers :
    let x := { toPage .atomic 0x40010000 with hnd := 15 }
    let y := { toPage .vAtomic 0 with hnd := 31, ret := true, ents := [⟨0, 0x40010000, 0, 0⟩] }
    Ripe (arriving x) 0 false x ∧ x.hnd < 16 ∧ HomeAt (arriving x) 0 x .atom x.addr 0x50000 ∧ NoneAbout (arriving x) 0x50000 4 ∧
    (arriving x).poisoned 0x50000 8 = false ∧ x.ret = false ∧
    Ripe (arriving y) 0 false y ∧ flook ((arriving y).pkg 0).fab.hnds y.hnd = none ∧ HomeAt (arriving y) 0 y .atom 0x40010000 0x50000 ∧
    (let z := { toPage .atomic 0x40000000 with hnd := 0 }; HomeFault (arriving z) 0 z .atom z.addr .page) ∧
    (let z := { toPage .vAtomic 0 with hnd := 0, ents := [⟨0, 0x40000000, 0, 0⟩] }; HomeFault (arriving z) 0 z .red 0x40000000 .page) :=
  ⟨ripe_arriving _ rfl, by decide, (home_arriving _ _ rfl rfl rfl (.inr (.inr (.inl rfl)))).1, none_about rfl, by decide, rfl, ripe_arriving _ rfl, by decide,
    (home_arriving _ _ rfl rfl rfl (.inr (.inr (.inl rfl)))).1, (home_arriving _ _ rfl rfl rfl (.inr (.inr (.inl rfl)))).2,
    (home_arriving _ _ rfl rfl rfl (.inr (.inr (.inr rfl)))).2⟩
/-- A reply for tag 3, which names lane 0 and register 4; where the tag was rewritten to a steer slot; to a load of one byte. -/
def replied (kd : PKind) (f : Lane → Lane) (n : Nat) (sx : Bool) : State :=
  ((arriving { toPage kd 0 with tag := 3, ents := [⟨0, 0x1000, 1, 1⟩] }).modPkg 0 (fun p => { p with fab := { p.fab with
    tags := [(3, ⟨32, 1, 4, n, sx, 9, false, none⟩)] } })).modWave 32 (fun v => v.upd [0] (fun _ x => f (x.owe true 9 [.g 4])))
theorem witness_Replies :
    (let x := { toPage .reply 0 with tag := 3, ents := [⟨0, 0x1000, 1, 1⟩] }
     Ripe (replied .reply id 4 false) 0 false x ∧ (∃ r, flook ((replied .reply id 4 false).pkg 0).fab.tags x.tag.toNat = some r ∧ r.sext = false ∧
       (x.lmask &&& r.lanes).getLsbD 0 = true ∧ r.lanes &&& ~~~ x.lmask = 0) ∧
     (let s := replied .reply id 1 true
      ∃ r, flook (s.pkg 0).fab.tags x.tag.toNat = some r ∧ r.sext = true ∧ r.bytes = 1 ∧ (s.lane r.wid 0).owedTo r.tag = [.g 4] ∧ (s.lane r.wid 0).steer = []) ∧
     (let s := replied .reply (fun y => { y with steer := [⟨true, false, 0, 4, 0, 9⟩] }) 4 false
      ∃ r y, flook (s.pkg 0).fab.tags x.tag.toNat = some r ∧ (s.lane r.wid 0).steer = [y] ∧ y.tag = r.tag ∧ y.pend = true)) ∧
    (let x := { toPage .faultReply 0 with tag := 3, ents := [⟨0, 0x1000, 1, 1⟩] }
     let s := replied .faultReply id 4 false
     Ripe s 0 false x ∧ ∃ r, flook (s.pkg 0).fab.tags x.tag.toNat = some r ∧ (x.lmask &&& r.lanes).getLsbD 0 = true ∧
       (s.wave r.wid).stopped = false ∧ (s.wave r.wid).ended = false ∧ (s.wave r.wid).saving = false ∧ (s.wave r.wid).resting = false ∧
       (s.wave r.wid).sys = false ∧ (s.troupe (s.wave r.wid).tid).st = .resident ∧ (s.lane r.wid 0).st ≠ .exit) ∧
    (stoppedWave (replied .faultReply id 4 false)).wave 32 = { (replied .faultReply id 4 false).wave 32 with stopped := true } :=
  ⟨⟨⟨rfl, ⟨1, rfl⟩, fun h hh => absurd hh (by show h ∉ []; simp)⟩, ⟨_, rfl, rfl, by decide, by decide⟩, ⟨_, rfl, rfl, rfl, by decide, by decide⟩,
    _, _, rfl, rfl, rfl, rfl⟩, ⟨⟨rfl, ⟨1, rfl⟩, fun h hh => absurd hh (by show h ∉ []; simp)⟩, _, rfl, by decide, rfl, rfl, rfl, rfl, rfl, by decide, by decide⟩, rfl⟩
/-- A packet on a token, alone; behind a held one; after its release. -/
def holding (x : Packet) (hs : List Hold) : State := (arriving x).modPkg 0 (fun p => { p with fab := { p.fab with holds := hs } })
def onToken : Packet := { toPage .store 0x40010000 with dep := true, dept := 0x80000001 }
theorem witness_RepliesAndHolds :
    (let x := toPage .store 0x40010000
     let h : Hold := ⟨1, 0x80000001, some onToken, 0, 0, []⟩
     ((holding x [h]).pkg 0).fab.arrivals = [(1, x)] ∧ h.pkt = some onToken ∧ h.src = x.src ∧ onToken.via = 0 ∧ x.via = 0) ∧
    ((holding onToken (List.replicate 8 ⟨1, 0x80000002, some onToken, 0, 0, []⟩)).pkg 0).fab.holds.length = 8 ∧
    ((holding onToken []).pkg 0).fab.arrivals = [(1, onToken)] ∧ onToken.dep = true ∧
    (let h : Hold := ⟨1, 0x80000001, none, 1, 0, []⟩
     ((holding onToken [h]).pkg 0).fab.holds = [h] ∧ h.src = onToken.src ∧ h.token = onToken.dept ∧ h.pkt = none ∧
     HomeAt (holding onToken [h]) 0 onToken .store onToken.addr 0x50000 ∧ NoneAbout (holding onToken [h]) 0x50000 4) := by
  exact ⟨⟨rfl, rfl, rfl, rfl, rfl⟩, rfl, rfl, rfl, rfl, rfl, rfl, rfl, ⟨true, by decide +kernel⟩, none_about rfl⟩

/-! ### Notices, holds, the calendar -/

/-- A notice that has come from package 1. -/
def noticed (kd : NKind) (tok : W32) (v : W64) (f : Fab → Fab) : State :=
  (solo []).modPkg 0 (fun p => { p with podsize := 2, fab := f { p.fab with inNotices := [(1, ⟨kd, 1, tok, v⟩)] } })
theorem witness_NoticesAndExpiry :
    (∀ kd ∈ [NKind.landed, .release, .applied, .forwarded, .holdFree, .expiry, .relayed],
      ((noticed kd 0x80000001 2 id).pkg 0).fab.inNotices = [(1, ⟨kd, 1, 0x80000001, 2⟩)]) ∧
    (let s := noticed .landed 0x80000001 0 (fun f => { f with toks := [(1, { Tok.init with st := .pend, deps := [(1, 2)] })] })
     let y := (s.pkg 0).tok (tokIdx 0x80000001)
     y.st = .pend ∧ y.gen = tokGen 0x80000001 ∧ (1, 2) ∈ y.deps) ∧
    (let h : Hold := ⟨1, 0x80000001, some onToken, 0, 0, []⟩
     let s := noticed .release 0x80000001 2 (fun f => { f with holds := [h] })
     (s.pkg 0).fab.holds = [h] ∧ h.src = 1 ∧ h.token = 0x80000001 ∧ h.pkt = some onToken ∧ (s.pkg 0).calRound < h.round + 4) ∧
    (let h : Hold := ⟨1, 0x80000001, some onToken, 0, 0, []⟩
     let s := noticed .release 0x80000001 2 (fun f => { f with holds := [h], caltime := 4096 })
     (s.pkg 0).fab.holds[0]? = some h ∧ h.round + 4 ≤ (s.pkg 0).calRound) := by
  refine ⟨fun kd _ => rfl, ⟨rfl, by decide, by decide⟩, ⟨rfl, rfl, rfl, rfl, by decide⟩, rfl, by decide⟩
/-- Package 0 of a pod of two, one port good, with a packet for package 1; a frame that has come for it. -/
def podOfTwo (f : Fab → Fab) : State := (solo []).modPkg 0 (fun p => { p with podsize := 2, fab := f { p.fab with
  ports := (List.range 15).map (fun i => (i + 1, ⟨0x1F, [], 0x1F, none⟩)) } })
theorem witness_CalendarAndPorts :
    (let s := podOfTwo (fun f => { f with peers := [(1, { Peer.init with vq := [{ toPage .store 0x1000 with src := 0, dst := 1 }] })] })
     let p := s.pkg 0
     let good := fun (i : Nat) => 9 - ((List.range 9).filter (fun b => (p.port i).bad.getLsbD b)).length
     flook s.pkgs 1 = none ∧
     p.fab.offset = 0 ∧ (∀ e ∈ p.fab.ports, e.2.newBad = e.2.bad) ∧ p.silent = false ∧ p.fab.csync = false ∧ p.podsize = 2 ∧
     (∀ i, i < 16 → (5 ≤ good i ↔ i = 0)) ∧ ({ toPage .store 0x1000 with src := 0, dst := 1 } : Packet).again = false ∧ (p.peer 1).relay = [] ∧ p.fab.spray = [] ∧ (p.peer 1).notices = [] ∧ p.countNotices 1 = [] ∧
     (p.peer 1).vq = [{ toPage .store 0x1000 with src := 0, dst := 1 }] ∧ p.mayStart pacePort = true ∧
     (p.peer 1).flightD.sum + ({ toPage .store 0x1000 with src := 0, dst := 1 } : Packet).flits ≤ 16384 ∧
     ({ toPage .store 0x1000 with src := 0, dst := 1 } : Packet).flits ≤ 774) ∧
    (let s := podOfTwo (fun f => { f with csync := true, freeRun := some 0 })
     (s.pkg 0).fab.csync = true ∧ (s.pkg 0).fab.freeRun ≠ none) ∧
    (∃ f x, f = (⟨1, 0, 0, 0, 0, 0, 0, 0, 0, 0, false, [], [x]⟩ : Frame) ∧
      x = { toPage .store 0x1000 with dst := 0, seq := 1 } ∧ x.src = f.src ∧ f.src ≠ 0 ∧ ((podOfTwo id).pkg 0).silent = false ∧
      5 ≤ 9 - ((List.range 9).filter (fun b => (((podOfTwo id).pkg 0).port f.port).bad.getLsbD b)).length ∧
      x.seq = ((((podOfTwo id).pkg 0).peer f.src).rxD + 1)) := by
  refine ⟨by decide, by decide, _, _, rfl, rfl, rfl, by decide, by decide, by decide, by decide⟩
theorem witness_CalendarFaults :
    (let p := (podOfTwo (fun f => { f with caltime := 64 * 1024 })).pkg 0
     fget 0 (p.port 15).clean 8 + 64 ≤ p.slotNo) ∧ (let p := (podOfTwo id).pkg 0; p.slotNo < fget 0 (p.port 15).clean 8 + 64) ∧
    (let p := (podOfTwo (fun f => { f with masters := [1, 0], caltime := 4096 })).pkg 0
     2 ≤ p.podsize ∧ p.fab.masters = [1] ++ 0 :: [] ∧ p.fab.since + 4 ≤ p.calRound ∧ (p.peer 1).lastHeard = 0) ∧
    (let p := (podOfTwo (fun f => { f with masters := [1], caltime := 4096 })).pkg 0
     p.fab.masters = [1] ∧ (p.peer 1).lastHeard = 0 ∧ p.fab.since + 4 ≤ p.calRound) ∧
    (let p := (podOfTwo (fun f => { f with masters := [1] })).pkg 0; p.fab.masters = [1] ∧ (p.peer 1).lastHeard = 0 ∧ ¬ p.fab.since + 4 ≤ p.calRound) ∧
    (let p := (podOfTwo (fun f => { f with freeRun := some 0, caltime := 16 * 1024 })).pkg 0
     p.fab.freeRun = some 0 ∧ 0 + 16 ≤ p.calRound ∧ p.fab.csync = false) ∧
    (let p := (podOfTwo (fun f => { f with freeRun := some 0 })).pkg 0; p.fab.freeRun = some 0 ∧ p.calRound < 0 + 16) := by decide


/-! ### Collectives and the reel -/

/-- A plan of one entry that sends 64 words of its source to peer 1; one that writes them; and what `coll.run` names. -/
def sender : PEntry := ⟨1, 0, 3, false, 1, 0, 0, 0, none, none, 0, 0, 64⟩
def writer : PEntry := ⟨2, 3, 1, false, 0, 0, 0, 0, some 7, none, 0, 0x100, 64⟩
def planOf1 (e : PEntry) : Plan := ⟨false, 1, 0, 1, [e], 0⟩
def collOf (g : FMap W32) (f : Coll → Coll) : State := (mapped (solo g)).modPkg 0 (fun p => { p with coll := f p.coll })
def runOf : CollRun := { CollRun.init with seq := 0, plan := 3, ctx := 5, base0 := 0x40010000, base1 := 0x40010000, active := true }
def sixteen : List CollRun := (List.range 16).map (fun i => { runOf with seq := BitVec.ofNat 16 i })
theorem witness_Collectives_commands :
    (let g := [(8, 3), (10, 0x1000)]
     let legal := fun (s : State) => bf (s.block 0 8 8) 0 31 8 = 0 ∧ bw (s.block 0 8 8) 1 = 0 ∧ (s.pkg 0).coll.loading.contains (bf (s.block 0 8 8) 0 7 0) = false
     let run := fun (s : State) => { CollRun.init with born := s.nextId, ctx := s.curCtx, base0 := bd (s.block 0 8 8) 2, base1 := bd (s.block 0 8 8) 4, base2 := bd (s.block 0 8 8) 6 }
     let c := fun g => collOf g (fun c => { c with plans := [(3, planOf1 sender)] })
     Elected (c g) plain 0 ∧ legal (c g) ∧ flook ((c g).pkg 0).coll.plans 3 = some (planOf1 sender) ∧ (planOf1 sender).stg = false ∧
     (c [(8, 3), (11, 1)]).collFault 0 0 5 false (planOf1 sender) (run (c [(8, 3), (11, 1)])) = some 0x100000000 ∧
     (c g).collFault 0 0 5 false (planOf1 sender) (run (c g)) = none ∧ ((c g).pkg 0).runRoom 3 = true ∧
     (c g).walkWait .g (((collRanges (planOf1 sender) (run (c g))).map (fun x => stepsOf (2 ^ 16) x.1 x.2)).flatten) = false ∧ (c g).relWait .pkg = false ∧
     (let s := collOf g (fun c => { c with plans := [(3, planOf1 sender)], runs := sixteen })
      s.collFault 0 0 5 false (planOf1 sender) (run s) = none ∧ (s.pkg 0).runRoom 3 = false ∧
      s.walkWait .g (((collRanges (planOf1 sender) (run s)).map (fun x => stepsOf (2 ^ 16) x.1 x.2)).flatten) = false) ∧
     (let s := c [(8, 3), (10, 0x40010000)]
      s.collFault 0 0 5 false (planOf1 sender) (run s) = none ∧
      s.walkWait .g (((collRanges (planOf1 sender) (run s)).map (fun x => stepsOf (2 ^ 16) x.1 x.2)).flatten) = true) ∧
     (let s := collOf g (fun c => { c with plans := [(3, planOf1 sender)], loading := [3] })
      bf (s.block 0 8 8) 0 31 8 = 0 ∧ bw (s.block 0 8 8) 1 = 0 ∧ (s.pkg 0).coll.loading.contains (bf (s.block 0 8 8) 0 7 0) = true) ∧
     legal (collOf g id) ∧ flook ((collOf g id).pkg 0).coll.plans 3 = none) ∧
    (let s := collOf [(8, 0x80000003)] (fun c => { c with runSeq := 1 })
     let back := fun (c : Coll) (h : W32) => (c.runSeq - h.extractLsb' 8 16).toNat
     let handle := fun (s : State) => let h := s.src 32 0 8
       h.getLsbD 31 = true ∧ nbits h.toNat 30 24 = 0 ∧ 1 ≤ back (s.pkg 0).coll h ∧ back (s.pkg 0).coll h ≤ 2 ^ 15
     handle s ∧ (∀ r ∈ (s.pkg 0).coll.runs, r.seq ≠ (0 : W16)) ∧ ¬ handle (collOf [] id) ∧
     (∀ r ∈ [runOf, { runOf with done := true, ovf := true }], let t := collOf [(8, 0x80000003)] (fun c => { c with runSeq := 1, runs := [r] })
       handle t ∧ (t.pkg 0).coll.runs = [r] ∧ r.seq = (t.src 32 0 8).extractLsb' 8 16 ∧ back (t.pkg 0).coll (t.src 32 0 8) ≤ 256) ∧
     (let t := collOf [(8, 0x80000003)] (fun c => { c with runSeq := 512, runs := [{ runOf with done := true }] })
      handle t ∧ 256 < back (t.pkg 0).coll (t.src 32 0 8))) :=
  ⟨⟨elected_zero rfl rfl, by decide, rfl, rfl, by decide +kernel, by decide +kernel, by decide, by decide +kernel, by decide, ⟨by decide +kernel, by decide, by decide +kernel⟩, ⟨by decide +kernel, by decide +kernel⟩, by decide, by decide, rfl⟩,
   by decide⟩
/-- A chunk of 64 zeros that has come. -/
def chunk : EntRec := { EntRec.init with got := true, segs := [(0, List.replicate 256 0)], have_ := 1 }
def working (e : PEntry) (r : CollRun) (f : Coll → Coll) : State :=
  (collOf [] (fun c => f { c with plans := [(3, planOf1 e)], runs := [r] })).modPkg 0 (fun p => { p with podsize := 2 })
def segOf (e : PEntry) (n : Nat) : FoldSeg := ⟨0, 0, 0, 0, 0, [(0x50100, 4 * n)], e.red, List.replicate n 0x3F800000⟩
theorem witness_Collectives_work :
    (let begins := fun (s : State) (e : PEntry) (r : CollRun) => (s.pkg 0).run? 0 = some r ∧ ((s.pkg 0).plan r.plan).ents[0]? = some e ∧
       (planOf1 e).mayStart r 0 e = true ∧ (r.ent 0).next = 0 ∧ (r.ent 0).sent = 0 ∧ s.segPoisoned 0 (planOf1 e) r e 0 = false ∧ 1 ≤ (planOf1 e).nseg e
     let r := { runOf with ents := [(0, chunk)] }
     let s := working writer r id
     begins s writer r ∧ writer.writes = true ∧
     (s.pkg 0).foldRoom (s.foldSegs 0 (planOf1 writer) r 0 writer 0 ((s.segVals 0 (planOf1 writer) r 0 writer 0).map (fun v => v.bits))) = true ∧
     s.foldSegs 0 (planOf1 writer) r 0 writer 0 ((s.segVals 0 (planOf1 writer) r 0 writer 0).map (fun v => v.bits)) ≠ [] ∧
     begins (working sender runOf id) sender runOf ∧ sender.op = 1 ∧ sender.writes = false ∧ ((working sender runOf id).pkg 0).vqRoom sender.peer 66 = true ∧
     ((planOf1 writer).mayStart runOf 0 writer = false ∧ (runOf.ent 0).st ≠ .started)) ∧
    (∀ e ∈ [writer, { writer with dbase := 2 }, { writer with dbase := 2, red := true }], ∀ n ∈ [1, 100],
      let r := { runOf with ents := [(0, { chunk with st := .started, next := 1, folds := 1 })] }
      let s := working e r (fun c => { c with folds := [segOf e n] })
      let one := (s.pkg 0).reducer
      (s.pkg 0).run? 0 = some r ∧ ((s.pkg 0).plan r.plan).ents[0]? = some e ∧
      (s.pkg 0).coll.folds[0]? = some (segOf e n) ∧ (segOf e n).run.toNat = 0 ∧ (segOf e n).ent = 0 ∧
      (segOf e n).at_ = [(0x50100, fmtBytes (((s.pkg 0).plan r.plan).fmt e.dbase) * (segOf e n).vals.length)] ∧
      (s.pkg 0).redDown (one 0) = false ∧ (∀ g ∈ (s.pkg 0).coll.folds.take 0, one g.stack ≠ one 0) ∧
      (s.pkg 0).mayStart paceReduce = true ∧ (segOf e n).fold = e.red ∧ (e.dbase = 1 ∨ e.dbase = 2) ∧
      s.writes = [] ∧ s.poisoned 0x50100 256 = false ∧ (n = 1 → (segOf e n).vals = [0x3F800000] ∧ s.poisoned 0x50100 4 = false) ∧
      (n = 100 → (256 - 0x50100 % 256) / 4 < (segOf e n).vals.length)) ∧
    (let s := working writer runOf (fun c => { c with folds := [segOf writer 1, segOf writer 1] })
     (s.pkg 0).coll.folds[1]? = some (segOf writer 1) ∧ (∃ g ∈ (s.pkg 0).coll.folds.take 1, (s.pkg 0).reducer g.stack = (s.pkg 0).reducer 0) ∧
     (let t := s.modPkg 0 (fun p => { p with phys := { p.phys with redBad := [0, 1] } })
      (t.pkg 0).coll.folds[0]? = some (segOf writer 1) ∧ (t.pkg 0).redDown ((t.pkg 0).reducer 0) = true)) ∧
    (let r := { runOf with ents := [(0, { chunk with st := .started, next := 1, folds := 1 })] }
     r.done = false ∧ r.active = true ∧ r.ab = false ∧ ((working writer r id).pkg 0).entDone (planOf1 writer) r 0 writer = false) ∧
    (let r := { runOf with ents := [(0, { chunk with st := .started, next := 1, folds := 0 })] }
     let p : Plan := ⟨false, 1, 0, 1, [writer, sender], 0⟩
     ((working writer r id).pkg 0).entDone (planOf1 writer) r 0 writer = true ∧ (∀ j, j < [writer].length → j ≠ 0 → (r.ent j).st = .done) ∧
     ((working writer r id).pkg 0).entDone p r 0 writer = true ∧ (∀ j, j < p.ents.length → j ≠ 0 → (r.ent j).st ≠ .done)) := by
  refine ⟨by decide +kernel, by decide +kernel, by decide, by decide, by decide, by decide, by decide, by decide⟩
/-- The reel of context 5 at entry 0, in a state, with an input ring. -/
def reelOf (g : FMap W32) (f : Reel → Reel) : State :=
  (mapped (solo g)).modPkg 0 (fun p => { p with podsize := 2, reel := f { p.reel with
    owner := 5, rings := [(2, ⟨0x40010100, 64, 1, false, 4, 0x40010008, 0x2000, false⟩)], cons := [], fresh := false } })
def bare : REnt := ⟨false, false, 0, 0, 0, none, none, 0, 0, 0, 0x40010200, 0⟩
theorem witness_TheReel :
    (let s := reelOf [(8, 0x400)] (fun r => { r with st := .idle })
     Elected s plain 0 ∧ Alone s ∧ bf (s.block 0 8 2) 0 31 21 = 0 ∧ bw (s.block 0 8 2) 1 = 0 ∧ 1 ≤ bf (s.block 0 8 2) 0 20 10 ∧ bf (s.block 0 8 2) 0 20 10 ≤ 1024 ∧
     (s.pkg 0).reel.owner = s.curCtx ∧ s.relWait .pkg = false ∧ (s.pkg 0).reel.st = .idle ∧
     { s with writes := [⟨0, 32, 0, 0, 0, 0x50100, [1], 0, none⟩] }.relWait .pkg = true ∧
     (reelOf [(8, 0x400)] (fun r => { r with owner := 6 }) |>.pkg 0).reel.owner ≠ s.curCtx ∧
     (reelOf [(8, 0x400)] (fun r => { r with st := .run }) |>.pkg 0).reel.st ≠ .idle ∧ bf ((reelOf [] id).block 0 8 1) 0 31 10 = 0 ∧ bf (s.block 0 8 1) 0 31 10 ≠ 0) ∧
    (let far := fun (r : Reel) (n : Nat) => (n + 1024 - r.first) % 1024
     let r := fun st => ((reelOf [] (fun r => { r with st := st, first := 1020, count := 9, retired := 5, cause := 2 })).pkg 0).reel
     (r .run).count ≤ far (r .run) 5 ∧ (r .run).retired < far (r .run) 4 ∧ (far (r .run) 0 < (r .run).count ∧ far (r .run) 0 < (r .run).retired) ∧
     (far (r .wait) 1 < (r .wait).count ∧ far (r .wait) 1 = (r .wait).retired ∧ (r .wait).st = .wait ∧ (r .wait).cause < 8) ∧
     (∀ st ∈ [ReelSt.gather, .run, .handoff], far (r st) 1 < (r st).count ∧ far (r st) 1 = (r st).retired ∧ (r st).st = st)) ∧
    (let r := fun f => ((reelOf [] (fun r => f { r with st := .wait, ents := [(0, { bare with inr := some 2 })] })).pkg 0).reel
     (r (fun r => { r with cfgResv := true })).entBad { bare with inr := some 2 } = true ∧ (r id).entBad ((r id).ent (r id).cur) = false ∧
     ((r id).ent (r id).cur).inr = some 2 ∧
     (let s := reelOf [] (fun r => { r with st := .wait, ents := [(0, { bare with inr := some 2 })] })
      s.wordKey 0 5 (((s.pkg 0).reel.ring 2).fillw) false = .inr 0x50008 ∧ numberAt s 0x50008 8 ≤ fget 0 (s.pkg 0).reel.cons 2 ∧
      (put s 0x50008 8 1).reelCause 0 { bare with inr := some 2 } = .inr 0)) ∧
    (let x := { bare with outr := some 3 }
     let s := reelOf [] (fun r => { r with st := .wait, ents := [(0, x)], rings := [(3, ⟨0x40010100, 64, 1, true, 4, 0, 0x40010010, false⟩)] })
     let y := { bare with stash := 1 }
     let t := reelOf [] (fun r => { r with st := .wait, ents := [(0, y)], stn := 1, stash := [(0, 4)] })
     (s.pkg 0).reel.entBad x = false ∧ (s.pkg 0).reel.ent 0 = x ∧ s.wordKey 0 5 ((s.pkg 0).reel.ring 3).mirw false = .inr 0x50010 ∧
     numberAt s 0x50010 8 ≤ fget 0 (s.pkg 0).reel.prod 3 ∧
     (t.pkg 0).reel.entBad y = false ∧ (t.pkg 0).reel.ent 0 = y ∧ ∀ i, i < min (t.pkg 0).reel.stn 64 → flook (t.pkg 0).reel.stash i ≠ none) ∧
    (let s := reelOf [] (fun r => { r with st := .gather, ents := [(0, bare)] })
     let x := (s.pkg 0).reel.ent 0
     (s.pkg 0).reel.cur = 0 ∧ (s.pkg 0).reel.grun = none ∧ x.gpv = false ∧ x.stash = 0 ∧ s.wordKey 0 5 x.argw true = .inr 0x50200 ∧
     (∃ y, s.wordKey 0 5 (x.argw + 24) true = .inr y) ∧ x.argw.toNat % 4096 + 32 ≤ 4096 ∧ s.writes = []) ∧
    (let s := reelOf [] (fun r => { r with st := .run, launch := some 9 })
     (s.pkg 0).reel.launch = some 9 ∧ flook (s.pkg 0).sched.launches 9 = none) ∧
    (let s := reelOf [] (fun r => { r with st := .handoff, ents := [(0, { bare with inr := some 2 })] })
     (s.pkg 0).landed (s.pkg 0).reel.need = true ∧ ((s.pkg 0).reel.ent 0).outr = none ∧ ((s.pkg 0).reel.ent 0).inr = some 2 ∧ ((s.pkg 0).reel.ring 2).peer ≠ 0 ∧
     (s.pkg 0).vqRoom ((s.pkg 0).reel.ring 2).peer 2 = true) := by
  refine ⟨⟨elected_zero rfl rfl, ⟨rfl, rfl, rfl⟩, by decide +kernel⟩, by decide +kernel, by decide +kernel, by decide +kernel, ⟨by decide, by decide, by decide, by decide, by decide +kernel, ⟨0x50218, by decide +kernel⟩, by decide, rfl⟩, by decide, by decide⟩

/-! ### Event words, partner queues, barriers, registers -/

/-- A wait of lane 0 alone for an instruction. -/
def waitRec (i : Instr) : WaitRec := ⟨1, i, 0x300000, 0x300004, 0, 0, false, [], false⟩
/-- The lane waits for an instruction, as its wave's first wait. -/
def waitsFor (i : Instr) (g : FMap W32) : State := (solo g).modWave 32 (fun v => { v with waits := [waitRec i] })
theorem witness_EventsAndWaits :
    ((∀ r ∈ ((solo []).wave 32).waits, r.grouped = true ∨ true = false) ∧
     ∀ i ∈ [Instr.qpush plain 4, .qpop plain 4, .ownTake plain 4, .rngWait plain 4 6, .evtWt plain 4, .obRel plain 4, .rst plain false false 4 6],
       ((waitsFor i []).wave 32).waits = [] ++ waitRec i :: [] ∧ Whole (waitsFor i []) 32 (waitRec i)) ∧
    (let s := solo [(8, 0x1000), (10, 3)]
     Elected s plain 0 ∧ s.evtKey .red (bd (s.block 0 8 3) 0) = .ok (.at_ 0x1000 true) ∧ s.walkWait .g [bd (s.block 0 8 3) 0] = false ∧ s.relWait .pkg = false ∧
     s.ownStore 0 0x1000 8 = false ∧ s.ownBehind 0 0x1000 8 = false ∧ s.writes = [] ∧ s.evtKey .load (bd (s.block 0 8 4) 0) = .ok (.at_ 0x1000 true) ∧
     numberAt s 0x1000 8 < (bd (s.block 0 8 4) 2).toNat ∧ (bd ((solo [(8, 0x1000)]).block 0 8 4) 2).toNat ≤ numberAt (solo [(8, 0x1000)]) 0x1000 8) ∧
    (let s := mapped (solo [(8, 0x40010000)])
     s.walkWait .g [bd (s.block 0 8 3) 0] = true ∧ s.walkWait .g [bd (s.block 0 8 4) 0] = true ∧ s.evtKey .red (bd (s.block 0 8 3) 0) = .ok (.at_ 0x50000 true) ∧
     s.evtKey .load (bd (s.block 0 8 4) 0) = .ok (.at_ 0x50000 true)) ∧
    (let s := solo [(9, 1)]
     Alone s ∧ s.evtKey .red (bd (s.block 0 8 3) 0) = .bad .page 0 ∧ s.evtKey .load (bd (s.block 0 8 4) 0) = .bad .page 0) :=
  ⟨⟨by decide, fun i _ => ⟨rfl, rfl, _, ⟨0, show (1 : LaneMask).getLsbD 0 = true by decide, by simp, rfl⟩, show ∀ l, l < 32 → ((1 : LaneMask).getLsbD l = true ↔ ((solo []).lane 32 l).st = .run ∧ ((solo []).lane 32 l).pc = ((solo []).lane 32 0).pc) by decide⟩⟩, ⟨elected_zero rfl rfl, by decide +kernel⟩, by decide +kernel, ⟨rfl, rfl, rfl⟩, by decide +kernel⟩
/-- A compute wave and its partner, lane 0 of each live; the partner issues, or the compute wave. -/
def pair (me : Nat) (q : List W32) (n : Nat) : State :=
  let s := solo []
  { s with
    cur := { s.cur with wid := 32 + me }
    waves := [(32, { waveOf [] with queue := [(0, q)] }), (48, { waveOf [(4, 7)] with part := true })]
    troupes := [(1, { s.troupe 1 with hdr := { hdrOf with pentry := 0x300000 + BitVec.ofNat 64 n } })] }
/-- A barrier of a wave alone; of two waves; where the wave has arrived. -/
def atBarrier (g : FMap W32) (two came : Bool) : State :=
  let s := solo g
  { s with
    waves := [(32, { waveOf g with tarv := came, carv := came })] ++ (if two then [(33, waveOf [])] else [])
    troupes := [(1, { s.troupe 1 with arvcnt := if came then 1 else 0, corps := 4 })]
    corps := [(4, ⟨0, 0, 0, 0, [1], if came then 1 else 0, 1 + (if two then 1 else 0), false⟩)] }
/-- A wave with this allotment that asks for registers, beside another of its core with so many, or alone. -/
def asks (n other : Nat) (q : List (Nat × Nat)) (l : List WaitRec) : State :=
  let s := solo []
  { s with
    waves := (32, { waveOf [] with allot := n, waits := l }) :: (List.range other).map (fun i => (i + 33, waveOf []))
    pkgs := [(0, { pkgOf with cores := [(0, { Core.init with tlb := [pageAll], grantQ := q })] })] }
/-- A corps of some launch holds back all others of cluster 0. -/
def keptBack (s : State) : State :=
  s.modPkg 0 (fun p => { p with sched := { p.sched with launches := [(9, { Launch.init with wait := some ⟨0, 0, 16⟩ })] } })
theorem lives_alone (l : Nat) (hl : l < 32) (s : State) (h : s.wave s.cur.wid = waveOf [] ∨ s.wave s.cur.wid = { waveOf [] with queue := [(0, [7])] }) :
    (s.lane s.cur.wid l).st ≠ .exit ↔ l = 0 := by
  unfold State.lane
  have a : ∀ l, l < 32 → (((waveOf []).lane l).st ≠ .exit ↔ l = 0) := by decide
  have b : ∀ l, l < 32 → ((({ waveOf [] with queue := [(0, [7])] } : Wave).lane l).st ≠ .exit ↔ l = 0) := by decide
  rcases h with h | h <;> rw [h]
  · exact a l hl
  · exact b l hl
theorem witness_PartnersAndRegisters :
    (let s := pair 16 [] 0
     (s.wave s.cur.wid).part = true ∧ (∀ l, On s plain l → (fget [] (s.wave (partnerOf s.cur.wid)).queue l).length < 8) ∧
     (let s := pair 16 (List.replicate 8 7) 0
      (s.wave s.cur.wid).part = true ∧ ∃ l, On s plain l ∧ (s.lane (partnerOf s.cur.wid) l).st ≠ .exit ∧ 8 ≤ (fget [] (s.wave (partnerOf s.cur.wid)).queue l).length) ∧
     Alone s ∧ (∃ l, On s plain l)) ∧
    (let s := pair 0 [7] 0
     Alone s ∧ (s.wave s.cur.wid).part = false ∧ s.curTroupe.hdr.pentry ≠ 0 ∧ (∀ l, On s plain l → fget [] (s.wave s.cur.wid).queue l ≠ []) ∧ ∃ l, On s plain l) ∧
    (let s := pair 0 [] 0
     (s.wave s.cur.wid).part = false ∧ s.curTroupe.hdr.pentry ≠ 0 ∧ (∃ l, On s plain l ∧ fget [] (s.wave s.cur.wid).queue l = []) ∧
     ∃ l, l < 32 ∧ (s.lane s.cur.wid l).st ≠ .exit ∧ (s.lane (partnerOf s.cur.wid) l).st ≠ .exit) ∧
    (let s := (pair 0 [] 0).modWave 48 (fun v => v.upd [0] (fun _ x => { x with st := .exit }))
     (s.wave s.cur.wid).sys = false ∧ (s.wave s.cur.wid).stopped = false ∧ (∃ l, On s plain l) ∧
     (∀ l, On s plain l → fget [] (s.wave s.cur.wid).queue l = [] ∧ (s.lane (partnerOf s.cur.wid) l).st = .exit)) ∧
    (let s := asks 64 0 [] []
     let v := s.wave s.cur.wid
     Elected s plain 0 ∧ (s.waves.Pairwise (fun x y => x.1 < y.1)) ∧ flook s.waves s.cur.wid ≠ none ∧ v.part = false ∧ s.cur.path = v.live ∧ v.allot < 120 ∧ 8 < v.allot ∧ s.cur.grouped = false ∧
     (s.core 0 0).grantQ = [] ∧ v.waits = [] ∧ 120 / 8 - v.allot / 8 ≤ s.freeGranules 0 0 ∧ ((s.pkg 0).holder 0).isSome = false ∧
     v.sys = false ∧ (∀ x ∈ s.holders 0 0, x.1 = s.cur.wid) ∧ (s.lane s.cur.wid 0).st ≠ .exit) ∧
    (let s := asks 8 34 [] []
     s.freeGranules 0 0 < 120 / 8 - 1 ∧ ∃ x ∈ s.holders 0 0, x.1 ≠ s.cur.wid) ∧
    (let s := keptBack (asks 64 1 [] [])
     ((s.pkg 0).holder 0).isSome = true ∧ (s.core 0 0).spare < 120 / 8 - (s.wave 32).allot / 8 ∧ (s.core 0 0).grantQ = [] ∧ ∃ x ∈ s.holders 0 0, x.1 ≠ s.cur.wid) ∧
    (let r := waitRec (.regGrow plain 120)
     let s := asks 64 34 [(32, 120)] [r]
     s.freeGranules 0 0 < 120 / 8 - (s.wave 32).allot / 8 ∧ ∃ y ∈ s.holders 0 0, ∀ g ∈ (s.core 0 0).grantQ, g.1 ≠ y.1) ∧
    (∀ e ∈ [(31, 120), (32, 40)],
     let r := waitRec (.regGrow plain 120)
     let s := ((asks 64 e.1 [(32, 120), (33, 120)] [r]).modWave 33 (fun v => { v with allot := 64, waits := [r] })).modWave 34 (fun v => { v with allot := e.2 })
     (s.core 0 0).grantQ = [(32, 120), (33, 120)] ∧ ((s.pkg 0).holder 0).isSome = false ∧ flook s.waves 32 ≠ none ∧ flook s.waves 33 ≠ none ∧
     (s.wave 32).waits = [r] ∧ (s.wave 33).waits = [r] ∧ (∀ z ∈ [32, 33], (s.wave z).allot % 8 = 0 ∧ (s.wave z).allot ≤ 120 ∧ (s.holders 0 0).any (fun x => x.1 == z) = true) ∧
     (∃ z ∈ s.holders 0 0, z.1 ≠ 32 ∧ z.1 ≠ 33) ∧ 120 / 8 - (s.wave 32).allot / 8 ≤ s.freeGranules 0 0 ∧
     (if e.1 = 31 then 120 / 8 - (s.wave 32).allot / 8 + (120 / 8 - (s.wave 33).allot / 8) ≤ s.freeGranules 0 0
      else s.freeGranules 0 0 < 120 / 8 - (s.wave 32).allot / 8 + (120 / 8 - (s.wave 33).allot / 8))) ∧
    (let r := waitRec (.regGrow plain 120)
     let s := asks 64 0 [(32, 120)] [r]
     (s.core 0 0).grantQ = [(32, 120)] ∧ flook s.waves 32 ≠ none ∧ 120 / 8 - (s.wave 32).allot / 8 ≤ s.freeGranules 0 0 ∧ (s.wave 32).waits = [r] ∧
     r.instr = .regGrow plain 120 ∧ r.grouped = false ∧ r.lanes ≠ 0 ∧ ((s.pkg 0).holder 0).isSome = false) := by
  refine ⟨⟨by decide, each rfl rfl (by decide), ⟨by decide, 0, (on_iff rfl rfl 0).2 rfl, by decide⟩, ⟨rfl, rfl, rfl⟩, on_zero rfl rfl⟩,
    ⟨⟨rfl, rfl, rfl⟩, rfl, by decide, each rfl rfl (by decide), on_zero rfl rfl⟩,
    ⟨rfl, by decide, ⟨0, (on_iff rfl rfl 0).2 rfl, by decide⟩, 0, by decide⟩,
    ⟨by decide, by decide, on_zero rfl rfl, each rfl rfl (by decide)⟩,
    ⟨elected_zero rfl rfl, by decide⟩, by decide, by decide, by decide, by decide +kernel, by decide⟩
theorem witness_Barriers :
    (∀ s ∈ [atBarrier [] false false, atBarrier [] true false, atBarrier [(6, 1)] false true, atBarrier [] true true],
      (s.waves.Pairwise (fun x y => x.1 < y.1)) ∧ (s.wave s.cur.wid).part = false ∧ s.cur.path = (s.wave s.cur.wid).live ∧ (s.wave s.cur.wid).ended = false ∧ flook s.waves s.cur.wid ≠ none ∧
      s.relWait .core = false ∧ s.relWait .clu = false ∧ s.cur.lanes = 1) ∧
    (let s := atBarrier [] false false
     Elected s plain 0 ∧ s.curTroupe.arvcnt + 1 = (s.liveWaves s.curTid).length ∧ s.liveWaves s.curTid = [s.cur.wid] ∧
     (s.corpsRec s.curTroupe.corps).carr + 1 = (s.corpsRec s.curTroupe.corps).clive ∧ s.curTid ∈ (s.corpsRec s.curTroupe.corps).troupes ∧
     (s.wave s.cur.wid).tarv = false ∧ (s.wave s.cur.wid).carv = false ∧ (s.src 32 0 6).getLsbD 0 = s.curTroupe.phase) ∧
    (let s := atBarrier [] true false
     (s.curTroupe.arvcnt + 1 ≠ (s.liveWaves s.curTid).length) ∧
     let s1 := { s with waves := [(32, waveOf [])] }
     s1.liveWaves s1.curTid = [s1.cur.wid] ∧ (s1.corpsRec s1.curTroupe.corps).carr + 1 ≠ (s1.corpsRec s1.curTroupe.corps).clive) ∧
    (let s := atBarrier [(6, 1)] false true
     (s.src 32 0 6).getLsbD 0 ≠ s.curTroupe.phase ∧ (s.wave s.cur.wid).tarv = true ∧ (s.wave s.cur.wid).carv = true ∧ Alone s) ∧
    (let s := atBarrier [] true true
     (s.src 32 0 6).getLsbD 0 = s.curTroupe.phase ∧ (s.wave s.cur.wid).tarv = true ∧ s.curTroupe.arvcnt ≠ (s.liveWaves s.curTid).length ∧
     (s.corpsRec s.curTroupe.corps).carr ≠ (s.corpsRec s.curTroupe.corps).clive) ∧
    (Alone (pair 16 [] 0) ∧ ((pair 16 [] 0).wave (pair 16 [] 0).cur.wid).part = true) ∧
    (let s := { solo [] with cur := { (solo []).cur with path := 3 } }
     Alone s ∧ s.cur.path ≠ (s.wave s.cur.wid).live) := by
  refine ⟨by decide, ⟨elected_zero rfl rfl, by decide⟩, by decide, ⟨by decide, by decide, by decide, rfl, rfl, rfl⟩, by decide, ⟨⟨rfl, rfl, rfl⟩, rfl⟩, ⟨rfl, rfl, rfl⟩, by decide⟩

/-! ### Control registers -/

theorem witness_ControlRegisters :
    Elected (solo [(4, 2)]) plain 0 ∧ (solo [(4, 2)]).flagsOwed = false ∧ ((solo [(4, 2)]).pkg 0).feat 10 = true ∧
    ((solo [(4, 2)]).src 32 0 4).toNat < 2 ^ 9 ∧ (let rm := ((solo [(4, 2)]).src 32 0 4).toNat / 2 % 8; rm ≠ 0 ∧ rm ≤ 5) ∧ Privileged (sysMode (solo [])) ∧
    ((solo []).modCore 0 0 (fun x => { x with mxq := [⟨1, 1, 32, .drain 32 1 0 false 1 0 0 0 4 1, []⟩] })).flagsOwed = true ∧
    Alone (solo []) ∧ csrInfo 5 = none ∧ 2 ^ 9 ≤ ((solo [(4, 512)]).src 32 0 4).toNat ∧ ((solo []).src 32 0 4).toNat / 2 % 8 = 0 :=
  ⟨elected_zero rfl rfl, by decide, by decide, by decide, by decide, rfl, by decide, ⟨rfl, rfl, rfl⟩, by decide⟩

/-! ### Launches, troupes, graphs -/

/-- A record of one troupe at 0x40010000 (its EVT at 0x4001C000 where asked) and its kernel's header at 0x40011000. -/
def withRecord (evt : Nat) (s : State) : State :=
  [(0x50000, 0x40011000), (0x50008, 1), (0x50018, evt), (0x51000, 0x300000), (0x51018, 15)].foldl (fun s e => put s e.1 8 e.2) s
/-- A queue whose next record that is. -/
def lqOf : LQueue := { LQueue.init with base := 0x40010000, ctl := 0x42, tail := 1, ctx := 5 }
def queued (q : LQueue) (s : State) : State := s.modPkg 0 (fun p => { p with sched := { p.sched with lqs := [(0, q)] } })
def taken (f : Launch → Launch) (s : State) : State :=
  s.modPkg 0 (fun p => { p with sched := { p.sched with launches := [(9, f { Launch.init with ctx := 5, hdr := { hdrOf with scratch := 1 } })] } })
def recOf : LRec := { Launch.init.rcd with addr := 0x40010000, ntrp := 1 }
def front : State := queued lqOf (withRecord 0 (mapped (solo [])))
theorem witness_LaunchQueues :
    (let s := front
     let d := (s.pkg 0).lq 0
     (s.pkg 0).sec.booted = true ∧ (s.pkg 0).sec.recovery = false ∧ (s.pkg 0).phys.powered = true ∧ d.ctl.getLsbD 7 = false ∧ (2 - d.head).toNat ≤ 4 ∧ ((2 : W32) - d.tail).toNat ≤ 4 ∧ ¬ ((9 - d.head).toNat ≤ 4) ∧ (s.pkg 0).nextQueue = some 0 ∧
     (s.pkg 0).nextQueue ≠ some 1 ∧ (∃ bs, s.devFetch 0 5 0x40010000 128 = some bs ∧ (∃ x, s.judge 0 5 0x40010000 bs = .inr x ∧ x.caller = none)) ∧ s.writes = []) ∧
    (let s := queued { lqOf with ctl := 0xC2 } (mapped (solo []))
     ((s.pkg 0).lq 0).ctl.getLsbD 7 = true) ∧
    (let s := queued { lqOf with base := 0x40000000 } (mapped (solo []))
     (s.pkg 0).nextQueue = some 0 ∧ s.devFetch 0 5 0x40000000 128 = none) ∧
    (let s := queued lqOf (put (mapped (solo [])) 0x50018 8 0x4001C000)
     (s.pkg 0).nextQueue = some 0 ∧ ∃ bs, s.devFetch 0 5 0x40010000 128 = some bs ∧ s.judge 0 5 0x40010000 bs = .inl 2 ∧ (lrecOf 0x40010000 bs).evt ≠ 0 ∧
       (lrecOf 0x40010000 bs).evt.toNat % 8 = 0 ∧ s.wordKey 0 5 (lrecOf 0x40010000 bs).evt true = .inr 0x5C000) ∧
    (∀ w ∈ [(1, 0), (0, 0), (0, 2 ^ 63)], ∃ x,
      let s := taken (fun x => { x with st := .waiting, rcd := { recOf with wevt := 0x4001C008, wval := BitVec.ofNat 64 w.1, evt := 0x4001C000 } }) (put (mapped (solo [])) 0x5C008 8 w.2)
      flook (s.pkg 0).sched.launches 9 = some x ∧ x.st = .waiting ∧ x.parent = none ∧ s.wordKey 0 5 x.rcd.wevt false = .inr 0x5C008 ∧
      numberAt s 0x5C008 8 = w.2 ∧ x.rcd.wval.toNat = w.1 ∧ s.wordKey 0 5 x.rcd.evt true = .inr 0x5C000 ∧ x.rcd.evt ≠ 0 ∧ x.rcd.evt.toNat % 8 = 0) ∧
    (let s := taken (fun x => { x with st := .ready, prio := 2 }) (solo [])
     ∃ x, flook (s.pkg 0).sched.launches 9 = some x ∧ x.st ≠ .waiting ∧ (s.pkg 0).freeCaller = some 0 ∧ (s.pkg 0).nextReady = some (9, x) ∧ x.rcd.graph = false) ∧
    ((solo []).pkg 0).nextReady = none := by
  refine ⟨⟨by decide, by decide, by decide, by decide, by decide, by decide, by decide, by decide, by decide, ⟨_, rfl, _, rfl, by decide⟩, rfl⟩, by decide, ⟨by decide, by decide +kernel⟩,
    ⟨by decide, _, rfl, by decide +kernel⟩, ?_, ⟨_, rfl, by decide, by decide, by decide, by decide⟩, by decide⟩
  intro w hw
  simp only [List.mem_cons, List.not_mem_nil, or_false] at hw
  rcases hw with rfl | rfl | rfl <;> exact ⟨_, rfl, by decide +kernel⟩
theorem walk_down {u : State} {k lv : Nat} {rest : List Nat} {tbl tbl' key : Nat} {va e : W64} (h : u.read64 key = e)
    (hk : hbmKey k ((tbl + 8 * (va.toNat / levelSize lv % (if lv = 0 then 32 else 512))) % 2 ^ 39) = key) (ht : pteAddr e * 2 ^ 8 = tbl')
    (h1 : (pteV e && !pteLeaf e && levelMay lv false && pteZeroOk e) = true) : walkFrom u k (lv :: rest) tbl va = walkFrom u k rest tbl' va := by
  simp only [walkFrom, hk, h, h1, ht, if_true]
/-- A store to bytes that hold no table leaves the mapped page where it is. -/
theorem stays (s : State) {c : Ctx} (hp : flook (s.pkg 0).ctxs 5 = some c) (hroot : c.root = 0x10000) (he : ∀ e ∈ [(0x10000, 1 + 0x110 * 2 ^ 20), (0x11000, 1 + 0x120 * 2 ^ 20),
      (0x12008, 1 + 0x130 * 2 ^ 20), (0x13000, 1 + 0x140 * 2 ^ 20), (0x14008, 0x23B + 5 * 2 ^ 20)], numberAt s e.1 8 = e.2)
    (va : W64) (i a n : Nat) (hva : va.toNat = 0x40010000 + i) (hi : i < 2 ^ 16) (ha : 0x50000 ≤ a) : StaysAt s 0 5 va (0x50000 + i) a n := by
  intro u hu hm
  have hr : ∀ k v, k + 8 ≤ 0x50000 → numberAt s k 8 = v → u.read64 k = BitVec.ofNat 64 v := by
    intro k v hk hv
    have hg : ∀ m j, j + m ≤ 0x50000 → memGets u.mem j m = memGets s.mem j m := by
      intro m
      induction m with
      | zero => intros; rfl
      | succ m ih =>
        intro j hj
        simp only [memGets]
        rw [hm j (.inl (by omega)), ih (j + 1) (by omega)]
    rw [← hv, State.read64, hg 8 k hk]
    rfl
  have hc : flook (u.pkg 0).ctxs (5 : W32).toNat = some c := by rw [hu 0]; exact hp
  have h4 := hr 0x10000 (1 + 0x110 * 2 ^ 20) (by decide) (he (0x10000, _) (by simp))
  have h3 := hr 0x11000 (1 + 0x120 * 2 ^ 20) (by decide) (he (0x11000, _) (by simp))
  have h2 := hr 0x12008 (1 + 0x130 * 2 ^ 20) (by decide) (he (0x12008, _) (by simp))
  have h1 := hr 0x13000 (1 + 0x140 * 2 ^ 20) (by decide) (he (0x13000, _) (by simp))
  have h0 := hr 0x14008 (0x23B + 5 * 2 ^ 20) (by decide) (he (0x14008, _) (by simp))
  have i4 : va.toNat / levelSize 4 % 512 = 0 := by rw [hva]; simp only [levelSize]; omega
  have i3 : va.toNat / levelSize 3 % 512 = 0 := by rw [hva]; simp only [levelSize]; omega
  have i2 : va.toNat / levelSize 2 % 512 = 1 := by rw [hva]; simp only [levelSize]; omega
  have i1 : va.toNat / levelSize 1 % 512 = 0 := by rw [hva]; simp only [levelSize]; omega
  have i0 : va.toNat / levelSize 0 % 32 = 1 := by rw [hva]; simp only [levelSize]; omega
  have hw : walk u 0 5 va = some ⟨0x14008, 0, 0x50023B⟩ := by
    unfold walk
    rw [hc]
    simp only [hroot]
    show walkFrom u 0 [4, 3, 2, 1, 0] 0x10000 va = _
    rw [walk_down h4 (tbl' := 0x11000) (by rw [if_neg (by decide), i4]; decide) (by decide) (by decide),
      walk_down h3 (tbl' := 0x12000) (by rw [if_neg (by decide), i3]; decide) (by decide) (by decide),
      walk_down h2 (tbl' := 0x13000) (by rw [if_neg (by decide), i2]; decide) (by decide) (by decide),
      walk_down h1 (tbl' := 0x14000) (by rw [if_neg (by decide), i1]; decide) (by decide) (by decide)]
    simp only [walkFrom, if_true, i0]
    rw [show hbmKey 0 _ = 0x14008 from by decide, h0]
    decide
  have hcan : canonicalVa va = true := by
    have h : nbits va.toNat 63 56 = 0 := by simp only [nbits]; omega
    simp only [canonicalVa, h]; rfl
  have hb : (0x40010000 + i) / levelSize 0 * levelSize 0 = 0x40010000 := by simp only [levelSize]; omega
  have hl : (⟨0x14008, 0, 0x50023B⟩ : Walked).leaf? = some 0x50023B := by decide
  unfold State.devKey State.devPlace
  rw [hw, hcan]
  simp only [hl, Walked.size, State.placeOf, hva, Bool.not_true, Bool.false_eq_true, if_false]
  rw [if_neg (by decide), if_neg (fun h => absurd h.1 (by decide)), if_neg (by decide)]
  simp only [hbmKey]
  rw [show pteAddr 0x50023B % 2 ^ 23 * 2 ^ 16 = 0x50000 by decide, hb, show (BitVec.ofNat 64 0x40010000).toNat = 0x40010000 by decide]
  exact congrArg some (by omega)
theorem lies (s : State) {c : Ctx} (hp : flook (s.pkg 0).ctxs 5 = some c) (hroot : c.root = 0x10000) (hw : s.writes = []) (he : ∀ e ∈ [(0x10000, 1 + 0x110 * 2 ^ 20), (0x11000, 1 + 0x120 * 2 ^ 20),
      (0x12008, 1 + 0x130 * 2 ^ 20), (0x13000, 1 + 0x140 * 2 ^ 20), (0x14008, 0x23B + 5 * 2 ^ 20)], numberAt s e.1 8 = e.2)
    (n : Nat) (hn : n ≤ 2 ^ 16) : Lies s 0 5 0x40010000 0x50000 n := by
  refine ⟨by show 0x40010000 + n ≤ _; omega, none_about hw, fun i hi => stays s hp hroot he _ i _ _ ?_ (by omega) (by decide)⟩
  rw [BitVec.toNat_add, BitVec.toNat_ofNat]
  show (0x40010000 + i % 2 ^ 64) % 2 ^ 64 = _
  omega
/-- A launch with its caller; a troupe of it whose waves are over. -/
def placing : State := taken (fun x => { x with st := .held, caller := some 0, rcd := recOf }) (solo [])
def ending (r : LRec) : State := taken (fun x => { x with rcd := r }) ((mapped (solo [])).modTroupe 1 (fun u => { u with st := .ended, launch := 9 }))
theorem witness_TroupeLife :
    (∃ x quads, flook (placing.pkg 0).sched.launches 9 = some x ∧ placing.outranked 0 9 = false ∧ x.placing = true ∧ x.saved = [] ∧ x.nextIdx = some 0 ∧
      x.hdr.corps = 1 ∧ x.hdr.pentry = 0 ∧ placing.corpsGate 0 9 x 0 = .open_ ∧ placing.spot 0 9 x x.wait [x.hdr.need] = .on 0 [(1, quads)] ∧
      placing.bankWords 0 x.ctx x.rcd = some [] ∧ placing.dictWords 0 x.ctx x.hdr = some none) ∧
    (solo []).mayPublish 1 = false ∧
    (∃ x, let s := ending { recOf with evt := 0x4001C000 }
      s.mayPublish 1 = true ∧ s.unreported 1 = none ∧ flook (s.pkg 0).sched.launches (s.troupe 1).launch = some x ∧ (s.core 0 0).grantQ = [] ∧
      x.rcd.donemap = 0 ∧ (s.troupe 1).tidx ∉ x.quiet ∧ x.rcd.evt ≠ 0 ∧ s.wordKey 0 x.ctx x.rcd.evt true = .inr 0x5C000 ∧ s.writes = [] ∧ x.published + 1 = x.rcd.ntrp) ∧
    (∃ x, let s := ending { recOf with donemap := 0x4001C000 }
      s.mayPublish 1 = true ∧ flook (s.pkg 0).sched.launches (s.troupe 1).launch = some x ∧ x.rcd.evt = 0 ∧ x.rcd.donemap ≠ 0 ∧
      s.wordKey 0 x.ctx (x.rcd.donemap + BitVec.ofNat 64 (8 * ((s.troupe 1).tidx / 64))) true = .inr 0x5C000) ∧
    (let sp := fun (q : LQueue) => queued { q with ctl := 0xC2 } (withRecord 0 (mapped (solo [(8, 0x40010000)])))
     let lq := ((sp lqOf).pkg 0).lq 0
     let s := (sp lqOf).modPkg 0 (fun p => { p with cores := [(0, { Core.init with tlb := [pageAll, ⟨5, 0x40000000, 2 ^ 17, 0x50023B⟩] })] })
     let va := bd ((sp lqOf).block 0 8 4) 0
     StaysAt s 0 lq.ctx (lq.base + BitVec.ofNat 64 (128 * (lq.tail.toNat % lq.size))) 0x50080 0x50080 128 ∧
     StaysAt s 0 lq.ctx (lq.base + BitVec.ofNat 64 (128 * (lq.tail.toNat % lq.size)) + 64) (0x50080 + 64) 0x50080 128 ∧ s.writes = [] ∧
     Elected (sp lqOf) plain 0 ∧ va.toNat % 64 = 0 ∧ bf ((sp lqOf).block 0 8 4) 2 31 6 = 0 ∧ bw ((sp lqOf).block 0 8 4) 3 = 0 ∧ lq.dev = true ∧ ((sp lqOf).pkg 0).lqOn lq = true ∧
     lq.ctx = (sp lqOf).curCtx ∧ ((sp lqOf).launch 0 (sp lqOf).curTroupe.launch).depth < 7 ∧ (lq.tail - lq.head).toNat ≠ lq.size ∧
     (sp lqOf).spawnBad va = none ∧ (sp lqOf).walkWait .g [va, va + 64] = true ∧ Alone (sp lqOf) ∧
     (let u := queued { lqOf with ctl := 0xC2 } (mapped (solo [(8, 0x40000000)])); (u.spawnBad (bd (u.block 0 8 4) 0)).isSome = true) ∧
     s.spawnBad va = none ∧ s.walkWait .g [va, va + 64] = false ∧ s.relWait .pkg = false ∧ (∃ bs, s.devFetch 0 5 va 128 = some bs ∧ bs.length = 128) ∧
     (let d := ((sp { lqOf with tail := 4 }).pkg 0).lq 0; (d.tail - d.head).toNat = d.size) ∧ (let d := ((sp { lqOf with ctx := 6 }).pkg 0).lq 0; d.ctx ≠ (sp lqOf).curCtx) ∧
     (let t := taken (fun x => { x with depth := 7 }) ((sp lqOf).modTroupe 1 (fun u => { u with launch := 9 })); 7 ≤ (t.launch 0 t.curTroupe.launch).depth)) := by
  refine ⟨⟨_, [0], rfl, by decide +kernel⟩, by decide, ⟨_, by decide, by decide, rfl, by decide +kernel⟩, ⟨_, by decide, rfl, by decide +kernel⟩,
    stays _ rfl rfl (by decide +kernel) _ 0x80 _ _ (by decide +kernel) (by decide) (by decide), stays _ rfl rfl (by decide +kernel) _ 0xC0 _ _ (by decide +kernel) (by decide) (by decide), rfl,
    elected_zero rfl rfl, by decide, by decide, by decide, by decide, by decide, by decide, by decide, by decide, by decide +kernel, by decide +kernel, ⟨rfl, rfl, rfl⟩, by decide +kernel, by decide +kernel, by decide +kernel, by decide, ⟨_, rfl, by decide +kernel⟩,
    by decide, by decide, by decide⟩
/-- The reel at the launch of that record, whose arguments are its own. -/
theorem witness_TheReel_run :
    ∃ bs y, let s := (put (put (withRecord 0 (reelOf [] (fun r => { r with st := .run, ents := [(0, { bare with lrec := 0x40010000 })] }))) 0x50008 8 (1 + 8 * 2 ^ 40)) 0x50010 8 0x40010200)
    let x := (s.pkg 0).reel.ent (s.pkg 0).reel.cur
    (s.pkg 0).reel.st = .run ∧ (s.pkg 0).reel.launch = none ∧ (s.pkg 0).tableUsed < 2048 ∧ s.devFetch 0 5 x.lrec 128 = some bs ∧
    (lrecOf x.lrec bs).args = x.argw ∧ 8 ≤ (lrecOf x.lrec bs).argn ∧ s.judge 0 5 x.lrec bs = .inr y :=
  ⟨_, _, by decide, by decide, by decide, rfl, by decide, by decide, rfl⟩
/-- A graph of three nodes at 0x40012000, node 0 of this kind, with these words and successors, and in this state; node 2 not idle. -/
def graphOf (kind w16 w24 succ : Nat) (st : NodeSt) (f : Launch → Launch) : State :=
  taken (fun x => f { x with
    st := .held, caller := some 0, rcd := { recOf with graph := true, evt := 0x4001C000 }, gdesc := 0x40012000, gcount := 3
    nodes := [(0, { GNode.init with st := st }), (1, { GNode.init with count := 1 }), (2, { GNode.init with count := 1, st := .ready })] })
  (put (put (put (put (put (put (withRecord 0 (mapped (solo []))) 0x52000 8 kind) 0x52008 8 succ) 0x52010 8 w16) 0x52018 8 w24) 0x52040 8 7) 0x52080 8 7)
theorem witness_GraphNodes :
    (∃ x, flook ((graphOf 0 0 0 0 .idle (fun x => { x with caller := none })).pkg 0).sched.launches 9 = some x ∧ x.walking = false) ∧
    (∃ x r y bs, let s := graphOf 0 0x40010000 0 0 .ready id
      flook (s.pkg 0).sched.launches 9 = some x ∧ x.walking = true ∧ s.node? 0 x 0 = some r ∧ r.bad x.gcount = false ∧ (x.gnode 0).st = .ready ∧
      r.kind = 0 ∧ (r.word 16).toNat % 64 = 0 ∧ s.devFetch 0 x.ctx (r.word 16) 128 = some bs ∧ (lrecOf (r.word 16) bs).graph = false ∧
      s.judge 0 x.ctx (r.word 16) bs = .inr y ∧ 9 ≠ s.nextId) ∧
    (∃ x r, let s := graphOf 4 0x4001C008 3 0 .ready id
      flook (s.pkg 0).sched.launches 9 = some x ∧ x.walking = true ∧ s.node? 0 x 0 = some r ∧ r.bad x.gcount = false ∧ r.kind = 4 ∧ (r.word 16).toNat % 8 = 0 ∧
      s.wordKey 0 x.ctx (r.word 16) true = .inr 0x5C008 ∧ s.writes = []) ∧
    (∃ x r, let s := graphOf 3 0x4001C008 3 0 .running id
      flook (s.pkg 0).sched.launches 9 = some x ∧ x.walking = true ∧ s.node? 0 x 0 = some r ∧ r.bad x.gcount = false ∧ (x.gnode 0).st = .running ∧ r.kind = 3 ∧
      s.wordKey 0 x.ctx (r.word 16) false = .inr 0x5C008 ∧ numberAt s 0x5C008 8 < (r.word 24).toNat) ∧
    (∃ x r y, let s := graphOf 7 0 0 0x8001 .running id
      flook (s.pkg 0).sched.launches 9 = some x ∧ x.walking = true ∧ s.node? 0 x 0 = some r ∧ r.bad x.gcount = false ∧ r.kind = 7 ∧ r.next = [1] ∧
      s.node? 0 x 1 = some y ∧ y.kind ≠ 6 ∧ 1 ≤ (x.gnode 1).count ∧ (x.gnode 1).st = .idle ∧ (∃ h, h ≠ 0 ∧ h ≠ 1 ∧ ∃ g, (h, g) ∈ x.nodes ∧ g.st ≠ .idle) ∧
      x.nodes.Pairwise (fun a b => a.1 < b.1)) ∧
    (∃ x r y, let s := graphOf 5 0x4001C008 0 0x80028001 .running id
      flook (s.pkg 0).sched.launches 9 = some x ∧ x.walking = true ∧ s.node? 0 x 0 = some r ∧ r.bad x.gcount = false ∧ r.kind = 5 ∧ r.next = [1, 2] ∧
      s.wordKey 0 x.ctx (r.word 16) false = .inr 0x5C008 ∧ numberAt s 0x5C008 8 = 0 ∧ s.node? 0 x 2 = some y ∧ y.kind ≠ 6 ∧ (x.gnode 2).count = 1) ∧
    (∃ x r, let s := graphOf 7 0 0 0 .running (fun x => { x with nodes := [(0, { GNode.init with st := .running }), (1, GNode.init)] })
      flook (s.pkg 0).sched.launches 9 = some x ∧ x.walking = true ∧ s.node? 0 x 0 = some r ∧ r.bad x.gcount = false ∧ r.kind = 7 ∧ r.next = [] ∧
      (∀ e ∈ x.nodes, e.1 = 0 ∨ e.2.st = .idle) ∧ x.nodes.Pairwise (fun a b => a.1 < b.1) ∧ x.rcd.evt ≠ 0 ∧ s.wordKey 0 x.ctx x.rcd.evt true = .inr 0x5C000) := by
  refine ⟨⟨_, rfl, by decide⟩, ⟨_, _, _, _, rfl, by decide, rfl, by decide, by decide, by decide, by decide, rfl, by decide, rfl, by decide⟩,
    ⟨_, _, rfl, by decide, rfl, by decide +kernel⟩, ⟨_, _, rfl, by decide, rfl, by decide +kernel⟩,
    ⟨_, _, _, rfl, by decide, rfl, by decide +kernel, by decide, by decide +kernel, rfl, by decide +kernel, by decide, by decide, ⟨2, by decide, by decide, { GNode.init with count := 1, st := .ready }, by decide, by decide⟩, by decide⟩,
    ⟨_, _, _, rfl, by decide, rfl, by decide +kernel, by decide +kernel, by decide +kernel, by decide +kernel, by decide +kernel, rfl, by decide +kernel, by decide⟩,
    ⟨_, _, rfl, by decide, rfl, by decide +kernel⟩⟩
/-- What the node of that graph says, and its launch. -/
def nodeAt (s : State) (i : Nat) : NodeRec := (s.node? 0 (s.launch 0 9) i).getD (nodeOf [])
def graphed (s : State) (i : Nat) (bad : Bool) : Bool :=
  let x := s.launch 0 9
  flook (s.pkg 0).sched.launches 9 == some x && x.walking && s.node? 0 x i == some (nodeAt s i) && (nodeAt s i).bad x.gcount == bad
/-- The premises that a state of that graph meets, for the nodes that start. -/
def copyStarts : Bool :=
  let s := [(0x52100, 0x40011000), (0x52108, 0x40014000), (0x52110, 64)].foldl (fun s e => put s e.1 8 e.2) (graphOf 1 0x40012100 0 0 .ready id)
  let x := s.launch 0 9
  match s.devFetch 0 x.ctx ((nodeAt s 0).word 16) 24 with
  | none => false
  | some bs => graphed s 0 false && (x.gnode 0).st == .ready && (nodeAt s 0).kind == 1 && ((s.pkg 0).engineFor 0).isSome &&
      leNat (bs.take 8) == 0x40011000 && leNat ((bs.drop 8).take 8) == 0x40014000 && leNat ((bs.drop 16).take 4) == 64 && leNat ((bs.drop 20).take 4) == 0 &&
      (stepsOf (2 ^ 16) 0x40011000 64).all (fun v => (s.copyPage 0 x.ctx false v).isSome) &&
      (stepsOf (2 ^ 16) 0x40014000 64).all (fun v => (s.copyPage 0 x.ctx true v).isSome)
def collStarts : Bool :=
  let s := (put (graphOf 2 3 0x40010000 0 .ready id) 0x52020 8 0x40010000).modPkg 0 (fun p => { p with coll := { p.coll with plans := [(3, planOf1 sender)] } })
  let x := s.launch 0 9
  let r := nodeAt s 0
  graphed s 0 false && (x.gnode 0).st == .ready && r.kind == 2 && field r.bytes 16 8 == 3 && field r.bytes 16 1 == 3 &&
    flook (s.pkg 0).coll.plans 3 == some (planOf1 sender) && !(planOf1 sender).stg && (s.pkg 0).runRoom 3 &&
    s.collFault 0 1024 x.ctx true (planOf1 sender) { CollRun.init with born := s.nextId, ctx := x.ctx, base0 := r.word 24, base1 := r.word 32, base2 := r.word 40 } == none
def wordStarts (kind succ : Nat) : Bool :=
  let s := graphOf kind 0x4001C008 3 succ .ready id
  let x := s.launch 0 9
  graphed s 0 false && (x.gnode 0).st == .ready && (nodeAt s 0).kind == kind && ((nodeAt s 0).word 16).toNat % 8 == 0 &&
    s.wordKey 0 x.ctx ((nodeAt s 0).word 16) false == .inr 0x5C008
/-- For a node of a kind that runs: what it started is at work, or is over. -/
def atWork (kind sub : Nat) : Bool :=
  let s := (graphOf kind 0x40012100 0 0 .running (fun x => { x with nodes := [(0, { GNode.init with st := .running, sub := sub })] })).modPkg 0
    (fun p => { p with cmds := [{ CmdRec.blank with id := 8 }], coll := { p.coll with runs := [{ runOf with seq := 6 }] } })
  let n := (s.launch 0 9).gnode 0
  graphed s 0 false && n.st == .running && (nodeAt s 0).kind == kind &&
    (match kind with
     | 0 => (flook (s.pkg 0).sched.launches n.sub).isSome
     | 1 => ((s.pkg 0).cmd? n.sub).isSome
     | _ => (s.pkg 0).run? n.sub == some { runOf with seq := 6 })
def isDone (kind : Nat) : Bool :=
  let s := put (graphOf kind (if kind = 3 then 0x4001C008 else 0x7F) 3 0x8001 .running
    (fun x => { x with nodes := [(0, { GNode.init with st := .running, sub := 7 }), (1, { GNode.init with count := 1 }), (2, { GNode.init with st := .ready })] })) 0x5C008 8 3
  let x := s.launch 0 9
  graphed s 0 false && (x.gnode 0).st == .running && (nodeAt s 0).kind == kind && (nodeAt s 0).next == [1] && (x.gnode 1).count == 1 &&
    s.node? 0 x 1 == some (nodeAt s 1) && (nodeAt s 1).kind != 6 &&
    (kind != 3 || (s.wordKey 0 x.ctx ((nodeAt s 0).word 16) false == .inr 0x5C008 && decide (((nodeAt s 0).word 24).toNat ≤ numberAt s 0x5C008 8))) &&
    flook (s.pkg 0).sched.launches 7 == none && (s.pkg 0).cmd? 7 == none && (s.pkg 0).run? 7 == none
/-- A while node that goes into its body, or past it; a node of its body that is done. -/
def whileTests (v : Nat) : Bool :=
  let s := put (put (graphOf 6 0x4001C008 0 0x80028001 .running id) 0x52040 8 (7 + 2 ^ 16)) 0x5C008 8 v
  let x := s.launch 0 9
  let j := if v = 0 then 2 else 1
  graphed s 0 false && (x.gnode 0).st == .running && (nodeAt s 0).kind == 6 && (nodeAt s 0).next == [1, 2] && s.wordKey 0 x.ctx ((nodeAt s 0).word 16) false == .inr 0x5C008 &&
    numberAt s 0x5C008 8 == v && s.node? 0 x j == some (nodeAt s j) && (nodeAt s j).kind != 6 && (x.gnode 2).count == 1 && (nodeAt s 1).npred == 1
def bodyEnds : Bool :=
  let s := put (graphOf 6 0x4001C008 0 0x80028001 .idle (fun x => { x with nodes := [(0, GNode.init), (1, { GNode.init with st := .running })] })) 0x52048 8 0x8000
  let x := s.launch 0 9
  graphed s 1 false && (x.gnode 1).st == .running && (nodeAt s 1).kind == 7 && (nodeAt s 1).next == [0] &&
    s.node? 0 x 0 == some (nodeAt s 0) && (nodeAt s 0).kind == 6 && (s.bodyOf 0 x 0).contains 1
theorem witness_GraphNodes_start : copyStarts = true ∧ collStarts = true ∧ ∀ e ∈ [(3, 0), (5, 0x80028001), (6, 0x80028001), (7, 0)], wordStarts e.1 e.2 = true := by
  decide +kernel
theorem witness_GraphNodes_running : (∀ e ∈ [(0, 9), (1, 8), (2, 6)], atWork e.1 e.2 = true) ∧ (∀ e ∈ [0, 1, 2, 3], isDone e = true) ∧
    (∀ v ∈ [0, 1], whileTests v = true) ∧ bodyEnds = true := by
  decide +kernel

/-! ### Pre-emption -/

/-- A request at a stage against context 5, and a troupe that can be saved, or cannot. -/
def preempting (st : PreStage) (area : W64) (f : Wave → Wave) : State :=
  (((mapped (solo [])).modPkg 0 (fun p => { p with
    ctxs := [(5, { ctxOf with saveh := 0x600000, resth := 0x600000 })]
    sched := { p.sched with preempts := [(5, [⟨15, 0, st, 0, 10, 0, [1]⟩])] } })).modTroupe 1 (fun u => { u with savearea := area, launch := 9 })).modWave 32 f
def savedWave : State := taken (fun x => { x with caller := some 0, saved := [1], rcd := recOf })
  (((put (preempting .over_ 0x40010000 id) 0x51000 4 (2 ^ 31 + 120 * 2 ^ 8)).modPkg 0 (fun p => { p with sched := { p.sched with preempts := [] } })).modTroupe 1
    (fun u => { u with st := .saved, corps := 4 }) |> fun s => { s with corps := [(4, ⟨0, 0, 9, 0, [1], 0, 1, false⟩)] })
theorem witness_PreemptionStages :
    (let s := preempting .drain 0x40010000 id
     (∃ r, flook (s.pkg 0).sched.preempts 5 = some [r] ∧ r.stage = .drain ∧ r.stage ≠ .evict ∧ r.drainAt ≤ (s.pkg 0).fab.caltime.toNat ∧
       (∀ n ∈ s.evictees 0 5 (r.mask &&& ~~~ r.openMask), (s.troupe n).st = .resident → s.saveable (s.troupe n) = true) ∧
       1 ∈ s.evictees 0 5 (r.mask &&& ~~~ r.openMask)) ∧
     (∃ v, s.waves = [(32, v)] ∧ v.tid = 1 ∧ v.ended = false ∧ v.parked = false ∧ v.live ≠ 0 ∧ v.sys = false ∧ v.handler = false ∧ v.susp = false ∧ v.stopped = false) ∧
     (s.troupe 1).st = .resident) ∧
    (∃ v, (preempting .drain 0x40010000 (fun v => { v with susp := true })).waves = [(32, v)] ∧ v.susp = true) ∧
    (let s := preempting .drain 0 id; (s.troupe 1).st = .resident ∧ s.saveable (s.troupe 1) = false ∧ 1 ∈ s.evictees 0 5 15) ∧
    (let s := preempting .evict 0x40010000 id; ∃ r, flook (s.pkg 0).sched.preempts 5 = some [r] ∧ r.stage = .evict ∧ r.stage ≠ .drain ∧ r.evictAt ≤ (s.pkg 0).fab.caltime.toNat) ∧
    (let stop := fun (v : Wave) => { v.upd [0] (fun _ x => { x with st := .trap, trapCause := 0x20 }) with stopped := true, trapLanes := 1 }
     let s := preempting .evict 0x40010000 stop
     (∃ v c, s.waves = [(32, v)] ∧ v.tid = 1 ∧ v.forPreempt = true ∧ v.ended = false ∧ v.owesLocal = false ∧ (s.troupe 1).st = .resident ∧ s.saveable (s.troupe 1) = true ∧
       s.areaBad (s.troupe 1) true = none ∧ flook (s.pkg 0).ctxs 5 = some c) ∧
     (preempting .evict 0 stop).saveable ((preempting .evict 0 stop).troupe 1) = false) ∧
    (let s := preempting .evict 0x40010000 (fun v => { v with sys := true, handler := true, saving := true })
     Elected s plain 0 ∧ (s.wave s.cur.wid).sys = true ∧ (s.wave s.cur.wid).saving = true ∧ s.cur.path = (s.wave s.cur.wid).live) ∧ Alone (solo []) ∧
    (solo []).mayLeave 1 = false ∧
    (∃ x, let s := taken id (preempting .evict 0x40010000 (fun v => { v with parked := true }))
     s.mayLeave 1 = true ∧ flook (s.pkg 0).sched.launches (s.troupe 1).launch = some x ∧ (s.core 0 0).grantQ = []) ∧
    (∃ x cx h, let s := savedWave
     flook (s.pkg 0).sched.launches 9 = some x ∧ s.outranked 0 9 = false ∧ x.placing = true ∧ s.nextSaved 0 x = some (4, [1]) ∧ (s.troupe 1).pkg = 0 ∧ (s.troupe 1).launch = 9 ∧
     s.areaBad (s.troupe 1) false = none ∧ s.spot 0 9 x x.waitSaved [s.savedNeed 1] = .on 0 [(0, [0])] ∧ (s.troupe 1).hdr.pentry = 0 ∧ s.bankWords 0 x.ctx x.rcd = some [] ∧
     s.dictWords 0 x.ctx x.hdr = some none ∧ flook (s.pkg 0).ctxs x.ctx.toNat = some cx ∧ cx.resth ≠ 0 ∧ (s.savedWaves 1)[0]? = some 32 ∧ (s.wave 32).tid = 1 ∧
     s.devFetch 0 (s.troupe 1).ctx (s.blockVa 32) 0x500 = some h ∧ nbits (field h 0 4) 31 31 = 1) := by
  refine ⟨⟨⟨_, rfl, by decide +kernel⟩, ⟨_, rfl, by decide⟩, by decide⟩, ⟨_, rfl, by decide⟩, by decide, ⟨_, rfl, by decide⟩,
    ⟨⟨_, _, rfl, by decide, by decide, by decide, by decide, by decide, by decide, by decide +kernel, rfl⟩, by decide⟩, ⟨elected_zero rfl rfl, by decide⟩, ⟨rfl, rfl, rfl⟩, by decide,
    ⟨_, by decide, rfl, by decide⟩,
    ⟨_, _, _, rfl, by decide, by decide, by decide, by decide, by decide, by decide +kernel, by decide +kernel, by decide, by decide, by decide, rfl, by decide, by decide +kernel, by decide, rfl, by decide +kernel⟩⟩
/-- Where a wave is saved, the bytes of its image lie in the area; where one is restored, they are there. -/
theorem witness_PreemptionStages_image :
    (let stop := fun (v : Wave) => { v.upd [0] (fun _ x => { x with st := .trap, trapCause := 0x20 }) with stopped := true, trapLanes := 1, queue := [(0, [7, 9])] }
     let s := preempting .evict 0x40010000 stop
     let u := s.troupe 1
     ∃ v, s.waves = [(32, v)] ∧ Lies s u.pkg u.ctx u.savearea 0x50000 (0x1000 + 0x8000 * u.hdr.blocks) ∧
       0x1000 + 0x8000 * (v.wix + if v.part then u.hdr.waves else 0) < 0x1000 + 0x8000 * u.hdr.blocks ∧ u.hdr.waves ≤ 16 ∧ u.arvcnt ≤ 16 ∧
       (s.corpsRec u.corps).carr < 512 ∧ (s.corpsRec u.corps).clive < 512 ∧ u.tidx < 2 ^ 40 ∧ v.wix < 16 ∧ v.allot ≤ 120 ∧
       (fget [] v.queue 0).length ≤ 8 ∧ (v.lane 0).st ≠ .exit ∧ (v.lane 0).pend = [] ∧ (v.lane 1).st = .exit) ∧
    (let s := preempting .evict 0x40010000 (fun v => v.upd [0] (fun _ x => { x with pend := [⟨.g 9, 1, none, false, true, 3⟩] }))
     ∃ v, s.waves = [(32, v)] ∧ (v.lane 0).pend = [⟨.g 9, 1, none, false, true, 3⟩]) ∧
    (let s := preempting .drain 0x40010000 id
     (s.wave 32).saving = false ∧ (s.wave 32).forPreempt = false) ∧
    (let s := savedWave
     (s.devFetch 0 (s.troupe 1).ctx (s.troupe 1).savearea 64).isSome = true ∧ (s.devFetch 0 (s.troupe 1).ctx (s.blockVa 32 + 0x6C00) 0x400).isSome = true ∧
     (match s.devFetch 0 (s.troupe 1).ctx (s.blockVa 32) 0x500 with
      | some h => nbits (field h 0x114 4) 31 29 == 0 && field h 16 16 == 0
      | none => false) = true) := by
  refine ⟨⟨_, rfl, lies _ rfl rfl rfl (by decide +kernel) _ (by decide), by decide, by decide, by decide, by decide, by decide, by decide, by decide, by decide,
    by decide, by decide, by decide, by decide⟩, ⟨_, rfl, by decide⟩, by decide, by decide +kernel⟩

/-! ### Deterministic launches and records -/

/-- A troupe of launch 9 that is deterministic; entries in its core's buffer; entries deferred. -/
def det (g : FMap W32) (lock : Bool) (buf late : List DetEntry) (room : Nat) : State :=
  taken (fun x => { x with deferred := late, defLen := 32 * room, rcd := recOf })
    (((solo g).modTroupe 1 (fun u => { u with hdr := { hdrOf with det := true }, ranges := [(0, ⟨.g, 0, 0x10000⟩)], lock := lock, launch := 9 })).modCore 0 0 (fun c => { c with detBuf := buf }))
def entry (o : AtomOp) (n : Nat) : DetEntry := ⟨1, 0, 0, 0, n, o, false, 0x1000, none, 3, none, 0, none, false⟩
/-- Another operation holds the entry's bank. -/
def bankHeld (s : State) : State := { s with writes := [⟨1, 64, 0, 0, 0, 0x1000, [1], 1, none⟩] }
/-- A troupe of launch 9 that records, or replays, in a log at 0x40010080. -/
def recording (g : FMap W32) (mode wr rd : Nat) (pol : Bool) (ent : Nat) : State :=
  let h := { hdrOf with rcd := true, recpol := pol, logbase := 0x40010080, loglen := 1088 }
  taken (fun x => { x with hdr := h, logMode := mode })
    ((put (put (put (mapped (solo g)) 0x50080 4 wr) 0x50084 4 rd) 0x500C0 8 ent).modTroupe 1 (fun u => { u with hdr := h, launch := 9 }))
theorem witness_DeterminismAndRecords :
    (let s := det [] false [] [] 0
     Elected s plain 0 ∧ ((s.block 0 8 4)[3]!).toNat / 32 = 0 ∧ nbits ((s.block 0 8 4)[3]!).toNat 4 3 = 0 ∧ s.curTroupe.hdr.det = true ∧ s.curTroupe.lock = false ∧
     (let s := det [] true [] [] 0; Alone s ∧ s.curTroupe.lock = true) ∧ (solo []).curTroupe.hdr.det = false ∧
     ¬ (((solo [(11, 32)]).block 0 8 4)[3]!).toNat / 32 = 0 ∧ Alone (solo [(11, 32)])) ∧
    (let s := det [(8, 0x1000)] false [] [] 0
     (s.curTroupe.hdr.det = true ∧ plain.syncSpace ≠ .s ∧ (∃ l, On s plain l) ∧ s.walkWait plain.syncSpace ((s.activeLanes plain).map (addrOf s plain.syncSpace 8 plain.syncOff)) = false ∧
      Alone s) ∧ ∀ l, On s plain l → checkOf s plain.syncSpace .red 4 (addrOf s plain.syncSpace 8 plain.syncOff l) = .ok (.at_ 0x1000 true)) ∧
    (let s := det [(8, 0x1000)] false (List.replicate 4096 (entry .add 0)) [] 0
     4096 < (s.core 0 0).detBuf.length + (s.activeLanes plain).length ∧ s.detStuck 0 0 = true ∧
     let t := { s with waves := s.waves ++ [(33, waveOf [])] }
     4096 < (t.core 0 0).detBuf.length + (t.activeLanes plain).length ∧ t.detStuck 0 0 = false) ∧
    (∃ x, let s := det [] false [entry .add 1] [] 0
     s.detEntries s.curTid = [entry .add 1] ∧ flook (s.pkg 0).sched.launches s.curTroupe.launch = some x ∧ s.bankBusy 0x1000 = false ∧ s.poisoned 0x1000 4 = false ∧ s.writes = [] ∧
      s.relWait .pkg = false ∧ (∃ l, On s plain l) ∧ { s with writes := [⟨0, 32, 0, 0, 0, 0x50100, [1], 0, none⟩] }.relWait .pkg = true) ∧
    (let s := mapped (det [(8, 0x40010000)] false [] [] 0)
     s.walkWait plain.syncSpace ((s.activeLanes plain).map (addrOf s plain.syncSpace 8 plain.syncOff)) = true) ∧
    (∃ x, let e := { entry .add 1 with far := some (1, 0x40010000) }
     let s := det [] false [e] [] 0
     s.detEntries s.curTid = [e] ∧ flook (s.pkg 0).sched.launches s.curTroupe.launch = some x ∧ (s.pkg 0).vqRoom 1 3 = true) ∧
    (∃ x, let s := det [] false [entry .inc 1] [] 4
     s.detEntries s.curTid = [entry .inc 1] ∧ flook (s.pkg 0).sched.launches s.curTroupe.launch = some x ∧ 1 + x.deferred.length ≤ x.defLen / 32) ∧
    (∃ x, let s := det [] false [entry .inc 1] [entry .inc 0] 1
     s.detEntries s.curTid = [entry .inc 1] ∧ flook (s.pkg 0).sched.launches s.curTroupe.launch = some x ∧ x.defLen / 32 < 1 + x.deferred.length) ∧
    (let s := (det [] false [entry .add 1] [] 0).modPkg 0 (fun p => { p with bankQ := [⟨7, 64, 0, 0, 5, 0, 0x1000, .rmw .add false 3, false, 0, none, none, 0, false, none⟩] })
     s.bankBusy 0x1000 = true ∧ s.poisoned 0x1000 4 = false ∧ s.detEntries s.curTid = [entry .add 1]) ∧
    (∃ x, let s := (det [] false [] [entry .inc 2, entry .inc 1] 4).modTroupe 1 (fun u => { u with st := .ended })
     flook (s.pkg 0).sched.launches 9 = some x ∧ x.rcd.ntrp ≤ x.published + s.endedOf 0 9 ∧ (s.pkg 0).bankQ = [] ∧ (fget Pace.init (s.pkg 0).phys.pace (paceBank 0)).budget = 0 ∧ s.poisoned 0x1000 4 = false ∧
     x.deferred = [entry .inc 2, entry .inc 1] ∧ (entry .inc 1).key < (entry .inc 2).key ∧ s.writes = []) ∧
    (∃ x, let s := ((det [] false [] [entry .inc 1] 4).modTroupe 1 (fun u => { u with st := .ended })).modPkg 0 (fun p => { p with
       bankQ := [⟨7, 64, 0, 0, 5, 0, 0x1000, .rmw .add false 3, false, 0, none, none, 0, false, none⟩] })
     flook (s.pkg 0).sched.launches 9 = some x ∧ x.rcd.ntrp ≤ x.published + s.endedOf 0 9 ∧ x.deferred = [entry .inc 1] ∧ s.bankBusy 0x1000 = true ∧ s.poisoned 0x1000 4 = false) ∧
    (∃ x, let s := det [] false [] [] 4
     flook (s.pkg 0).sched.launches 9 = some x ∧ ¬ x.rcd.ntrp ≤ x.published + s.endedOf 0 9) := by
  refine ⟨⟨elected_zero rfl rfl, by decide, by decide, by decide, by decide, ⟨⟨rfl, rfl, rfl⟩, rfl⟩, by decide, by decide, ⟨rfl, rfl, rfl⟩⟩,
    ⟨⟨by decide, by decide, on_zero rfl rfl, by decide, ⟨rfl, rfl, rfl⟩⟩, each rfl rfl (by decide)⟩, ⟨?_, by decide +kernel, ?_, by decide +kernel⟩,
    ⟨_, by decide, rfl, by decide, by decide, rfl, by decide, on_zero rfl rfl, by decide⟩, by decide, ⟨_, by decide, rfl, by decide⟩, ⟨_, by decide, rfl, by decide⟩, ⟨_, by decide, rfl, by decide⟩, ⟨by decide, by decide⟩,
    ⟨_, rfl, by decide⟩, ⟨_, rfl, by decide⟩, _, rfl, by decide⟩
  · show 4096 < (List.replicate 4096 (entry .add 0)).length + _
    rw [List.length_replicate]
    decide
  · show 4096 < (List.replicate 4096 (entry .add 0)).length + _
    rw [List.length_replicate]
    decide
theorem witness_Markers :
    (let s := recording [(8, 7)] 0 0 0 false 0
     let x := s.launch 0 s.curTroupe.launch
     Elected s plain 0 ∧ s.curTroupe.hdr.rcd = true ∧ x.logMode ≠ 1 ∧ s.logRoom 0 s.curTroupe.launch ≠ 0 ∧ (s.pkg 0).unlogged s.curTroupe.launch < s.logRoom 0 s.curTroupe.launch ∧
     s.devKey 0 x.ctx (x.logVa (s.logWord 0 s.curTroupe.launch 0)) = some 0x500C0 ∧ s.writes = [] ∧ StaysAt s 0 x.ctx x.hdr.logbase 0x50080 0x500C0 16) ∧
    (let s := recording [(8, 7)] 0 64 0 false 0
     s.curTroupe.hdr.rcd = true ∧ (s.launch 0 9).logMode ≠ 1 ∧ s.curTroupe.hdr.recpol = false ∧ s.logRoom 0 s.curTroupe.launch = 0) ∧
    (let s := recording [(8, 7)] 0 64 0 true 0
     Alone s ∧ s.curTroupe.hdr.rcd = true ∧ s.curTroupe.hdr.recpol = true ∧ s.logRoom 0 s.curTroupe.launch ≤ (s.pkg 0).unlogged s.curTroupe.launch) ∧
    (let s := recording [(8, 0)] 1 0 0 false 0
     (s.launch 0 s.curTroupe.launch).logMode = 1 ∧ s.logFind 0 s.curTroupe.launch s.curTroupe.tidx (s.wave 32).wix 0 (s.lane 32 0).rseq = none) ∧
    (let find := fun (s : State) => s.logFind 0 s.curTroupe.launch s.curTroupe.tidx (s.wave 32).wix 0 (s.lane 32 0).rseq
     let fits := fun (s : State) => let r := s.logEnt 0 s.curTroupe.launch 0; r.kind = 4 ∧ r.die = 0 ∧ r.bank = 0 ∧ r.val = (s.src 32 0 8).toNat
     find (recording [(8, 0)] 1 1 0 false 4) = some 0 ∧ fits (recording [(8, 0)] 1 1 0 false 4) ∧
     find (recording [(8, 7)] 1 1 0 false 4) = some 0 ∧ ¬ fits (recording [(8, 7)] 1 1 0 false 4)) ∧ (solo []).curTroupe.hdr.rcd = false := by
  refine ⟨⟨elected_zero rfl rfl, by decide, by decide, by decide, by decide, by decide, rfl, stays _ rfl rfl (by decide +kernel) _ 0x80 _ _ (by decide +kernel) (by decide) (by decide)⟩, by decide +kernel, ⟨⟨rfl, rfl, rfl⟩, by decide +kernel⟩, by decide, by decide +kernel, by decide⟩

/-! ### The module -/

def onPkg (f : Pkg → Pkg) : State := (mapped (solo [])).modPkg 0 f
def image (good : Bool) : BootImage := ⟨good, 3, 7, 8, true, 1, [64, 64, 64, 64], [], 1⟩
theorem witness_BootTrustFeatures :
    (∀ p ∈ [pkgOf, { pkgOf with sec := { pkgOf.sec with booted := false, recovery := true } }],
      p.phys.powered = true ∧ (p.sec.booted = true ∨ p.sec.recovery = true)) ∧
    (let x := { pkgOf.sec with booted := false, rollback := 3 }; x.booted = false ∧ x.recovery = false ∧ (image true).sigGood = true ∧ x.rollback.toNat ≤ (image true).secver.toNat) ∧
    (image false).sigGood = false ∧ (pkgOf.sec.recovery = false ∧ ({ pkgOf.sec with rollback := 3 } : Sec).rollback.toNat ≤ (image true).secver.toNat ∧ 1 ≤ (image true).podsize ∧ (image true).podsize ≤ 128) ∧ (pkgOf.sec.booted = true ∧ pkgOf.sec.recovery = false ∧ pkgOf.host.featDone = true) ∧
    (let h := { pkgOf.host with featDone := false, featReq := 1 }
     h.featDone = false ∧ (∀ i, h.featReq.getLsbD i = true → Config.featOff.getLsbD i = true) ∧ h.featReq.getLsbD 0 = true) ∧
    ¬ (0 : BitVec 128).getLsbD 0 = true := by
  refine ⟨by decide, by decide, rfl, by decide, by decide, ⟨rfl, fun i hi => ?_, by decide⟩, by decide⟩
  · have h0 : i = 0 := by
      by_contra hn
      have := BitVec.lt_of_getLsbD hi
      have ha : ∀ j, j < 128 → j ≠ 0 → (1 : BitVec 128).getLsbD j = false := by decide
      rw [ha i this hn] at hi
      exact absurd hi (by decide)
    subst h0
    simp [Config.featOff]
/-- The aperture stands on the mapped page, or on the one that holds nothing. -/
def apertured (va : W64) : State := onPkg (fun p => { p with host := { p.host with apctx := 5, apva := va } })
theorem inBar (n : Nat) (h : n ≤ 2 ^ 30) : n ≤ bar2Bytes := Nat.le_trans h (Nat.pow_le_pow_right (by decide) (by omega))
theorem witness_TheAperture :
    ((224 : W64).toNat + 64 ≤ bar2Bytes ∧ ¬ (2 ^ 40 : W64).toNat + 64 ≤ bar2Bytes) ∧
    (let s := apertured 0x40010000
     let va := (s.pkg 0).host.apva + 224
     (∃ l c, s.devLeaf 0 5 va = some l ∧ s.devPlace 0 5 va = .at_ 0x500E0 c ∧ pteW l = true ∧ pteState l ≠ 3) ∧ va.toNat % 2 ^ 16 + 64 ≤ 2 ^ 16 ∧
     0x500E0 % 256 + 64 ≤ 512 ∧ 256 < 0x500E0 % 256 + 64 ∧ (1 : Nat).testBit 0 = true ∧ (1 : Nat).testBit 1 = false ∧ s.writes = [] ∧ 0x50000 % 256 + 64 ≤ 256) ∧
    (let s := (apertured 0x40010000).modPkg 0 (fun p => { p with phys := { p.phys with poison := [0x50000] } }); s.poisoned 0x50000 64 = true) ∧
    (let p := (apertured 0x40010000).pkg 0; p.phys.powered = true ∧ p.sec.booted = true ∧ p.sec.recovery = false) ∧
    ¬ ({ pkgOf with phys := { pkgOf.phys with powered := false } } : Pkg).phys.powered = true ∧
    (let s := apertured 0x40010000
     let va := (s.pkg 0).host.apva + 0
     (∃ l c, s.devLeaf 0 5 va = some l ∧ s.devPlace 0 5 va = .at_ 0x50000 c ∧ pteW l = true ∧ pteState l ≠ 3 ∧ pteR l = true) ∧ va.toNat % 2 ^ 16 + 64 ≤ 2 ^ 16 ∧
     s.poisoned 0x50000 64 = false ∧ s.writes = [] ∧ 0x50000 % 64 = 0 ∧ ∀ u ∈ (s.pkg (keyPkg 0x50000)).phys.poison, u % 64 = 0) ∧
    (apertured 0x40000000).devPlace 0 5 (((apertured 0x40000000).pkg 0).host.apva + 0) = .absent := by
  refine ⟨⟨inBar _ (by decide), fun h => ?_⟩, ⟨⟨0x50023B, true, by decide +kernel⟩, by decide, by decide, by decide, by decide, by decide, rfl, by decide⟩, by decide, by decide, by decide, ⟨⟨0x50023B, true, by decide +kernel⟩, by decide, by decide, rfl, rfl, by decide⟩, by decide +kernel⟩
  have h2 : bar2Bytes ≤ 2 ^ 36 := Nat.pow_le_pow_right (by decide) (by have := Config.bar2Log.isLt; omega)
  exact absurd (Nat.le_trans h h2) (by decide)
/-- A core under test; a troupe on a core. -/
def testing (t : List Test) (tr : FMap (List Nat)) : State := onPkg (fun p => { p with phys := { p.phys with tests := t, transients := tr } })
theorem witness_ErrorsAndTests :
    (((solo []).modCore 0 3 (fun c => { c with testing := true })).core 0 3).testing = true ∧ ((solo []).core 0 3).testing = false ∧
    ((solo []).coreTroupes 0 3 = [] ∧ ((solo []).core 0 3).grantQ = []) ∧
    (∃ w, (solo []).coreTroupes 0 0 = [(1, w)] ∧ (solo []).troupe 1 = w ∧ w.st = .resident ∧ ((solo []).core 0 0).grantQ = [] ∧ w.hdr.idem = false) ∧
    (∃ w c x, let s := taken id (({ solo [] with corps := [(4, ⟨0, 0, 9, 0, [1], 0, 1, false⟩)] } : State).modTroupe 1 (fun u => { u with hdr := { hdrOf with idem := true }, corps := 4, launch := 9 }))
      s.coreTroupes 0 0 = [(1, w)] ∧ s.troupe 1 = w ∧ w.st = .resident ∧ w.hdr.idem = true ∧ flook s.corps w.corps = some c ∧ c.troupes = [1] ∧
      flook (s.pkg 0).sched.launches w.launch = some x) ∧
    ((solo []).pkg 0).phys.tests.find? (fun t => t.cls == 0 && t.unit == 3 && (t.row == 0 || !((0 : Byte) == 1 || (0 : Byte) == 2))) = none ∧ (solo []).coreTroupes 0 0 ≠ [] ∧
    (∀ x ∈ [(⟨3, 3, 0, false⟩ : Test), ⟨2, 3, 0x1000, false⟩],
     let mine := fun (t : Test) => t.cls == x.cls && t.unit == 3 && (t.row == x.row || !(x.cls == 1 || x.cls == 2))
     let s := testing [x] []
     (s.pkg 0).phys.tests.find? mine = some x ∧ x.ue = false ∧ (s.pkg 0).sched.launches = [] ∧
     ((fget [] (s.pkg 0).phys.transients (unitKey x)).filter (fun a => (s.pkg 0).fab.caltime.toNat ≤ a + 24 * 3600 * 10 ^ 9)).length < 2 ∧
     let t := testing [x] [(unitKey x, [0, 0])]
     2 ≤ ((fget [] (t.pkg 0).phys.transients (unitKey x)).filter (fun a => (t.pkg 0).fab.caltime.toNat ≤ a + 24 * 3600 * 10 ^ 9)).length) :=
  ⟨by decide, by decide, by decide, ⟨_, rfl, rfl, by decide⟩, ⟨_, _, _, rfl, rfl, by decide, by decide, rfl, by decide, rfl⟩, by decide, by decide, by decide⟩
theorem witness_PowerAndBudgets :
    (pkgOf.phys.powered = true ∧ pkgOf.sec.booted = true ∧ pkgOf.sec.recovery = false) ∧ pkgOf.liveCtxs = [5] ∧ Pkg.liveCtxs { pkgOf with ctxs := [] } = [] := by decide
theorem witness_ControlWindow :
    (pkgOf.podsize < 256 ∧ pkgOf.pkgid < 128 ∧ ({ pkgOf with sec := { pkgOf.sec with booted := false, recovery := true } } : Pkg).phys.powered = true) ∧
    (pkgOf.phys.powered = true ∧ pkgOf.sec.booted = true ∧ pkgOf.sec.recovery = false) ∧
    (let d := pkgOf.lq 63; d.ctl.getLsbD 7 = false ∧ ((0 : W32) - d.head).toNat ≤ 2 ^ (d.ctl.toNat % 16) ∧ ((0 : W32) - d.tail).toNat ≤ 2 ^ (d.ctl.toNat % 16)) ∧
    (let h := { pkgOf.host with cqBase := 0x8000, cqLog := 2 }
     let size := 2 ^ (h.cqLog.toNat % 16)
     ((1 - h.cqHead).toNat ≤ size ∧ (1 - h.cqTail).toNat ≤ size) ∧ ¬ ((9 - h.cqHead).toNat ≤ size) ∧ h.cqBase ≠ 0 ∧ (1 : W32) = h.cqHead + 1 ∧ pkgOf.hostChange = false ∧
     (∃ e, h.cqBad = some e) ∧ pkgOf.host.cqBase = 0) := by
  refine ⟨by decide, by decide, by decide, by decide, by decide, by decide, by decide, by decide, ⟨4, by decide⟩, by decide⟩

/-! ### Host commands -/

def hargs (a0 a1 a2 : W64) : HArgs := ⟨5, a0, a1, a2, 0, 0, 0⟩
def stoppedCtx : State := onPkg (fun p => { p with ctxs := [(5, { ctxOf with stopped := true })] })
/-- A page that system mode may run. -/
def sysPage : State := put (onPkg id) 0x14010 8 (0x37B + 6 * 2 ^ 20)
theorem witness_ContextCommands :
    ((onPkg (fun p => { p with vmch := [⟨1, 5, 0, 0, none, 0, none, 0, 0, [], [], [], [], false, [], [], [], none⟩] })).pkg 0).hostChange = true ∧
    ((onPkg id).pkg 0).hostChange = false ∧ flook ((onPkg id).pkg 0).ctxs 6 = none ∧ flook ((onPkg id).pkg 0).ctxs 5 = some ctxOf ∧ ctxOf.stopped = false ∧
    (∃ c, flook (stoppedCtx.pkg 0).ctxs 5 = some c ∧ c.stopped = true) ∧
    (let h : HArgs := ⟨6, 0x1000, 0x2000, 0x3000, 0x4000, 0x100, 1⟩
     h.ctx ≠ 0xFFFFFFFF ∧ h.a0.toNat % 4096 = 0 ∧ h.a1.toNat % 32 = 0 ∧ h.a2.toNat % 16 = 0 ∧ h.a3.toNat % 256 = 0 ∧
     h.a0.toNat < 2 ^ 39 ∧ h.a1.toNat < 2 ^ 39 ∧ h.a2.toNat < 2 ^ 39 ∧ h.a3.toNat + h.a4.toNat ≤ 2 ^ 39 ∧ h.a5.toNat < 256) ∧
    (∃ l, sysPage.devLeaf 0 5 0x40020000 = some l ∧ 2 ≤ pteState l ∧ pteSys l = true ∧ pteX l = true) ∧ (0x40020000 : W64).toNat % 12 = 0 ∧
    ¬ (0x40020004 : W64).toNat % 12 = 0 ∧
    (onPkg id).onClusters 0 5 1 ≠ [] ∧ (onPkg id).onClusters 0 5 2 = [] ∧
    (let r : Preempt := ⟨1, 0, .drain, 0, 20000, 0, []⟩
     let busy := fun (s : State) (r : Preempt) => r.stage = .drain ∧ s.onClusters 0 5 (r.mask &&& ~~~ r.openMask) ≠ []
     let opened := fun (r : Preempt) (m : BitVec 4) => { r with openMask := r.openMask ||| m }
     let s := onPkg (fun p => { p with sched := { p.sched with preempts := [(5, [r, ⟨3, 0, .drain, 0, 20000, 0, []⟩])] } })
     fget [] (s.pkg 0).sched.preempts 5 = [r, ⟨3, 0, .drain, 0, 20000, 0, []⟩] ∧ busy s r ∧ busy s (opened r 2) ∧ busy s (opened ⟨3, 0, .drain, 0, 20000, 0, []⟩ 2) ∧
     (opened r 2).mask &&& ~~~ (opened r 2).openMask ≠ 0 ∧ (opened r 1).mask &&& ~~~ (opened r 1).openMask = 0 ∧
     ¬ busy s (opened ⟨3, 0, .drain, 0, 20000, 0, []⟩ 1) ∧ (3 : BitVec 4) &&& ~~~ (0 ||| 1) ≠ 0 ∧
     (∃ n ∈ [1], (s.troupe n).st.onCore = true) ∧ (onPkg id |>.pkg 0).host.cqTail ≠ (onPkg id |>.pkg 0).host.cqHead + 1 ∧
     (let h := { (pkgOf.host) with cqTail := 1 }; h.cqTail = h.cqHead + 1)) ∧
    (∀ st ∈ [PreStage.drain, .evict, .over_], ∃ r, flook ((preempting st 0 id).pkg 0).sched.preempts 5 = some [r] ∧ r.stage = st) ∧
    flook ((onPkg id).pkg 0).sched.preempts 5 = none ∧ EventRoom (onPkg id) 0 ∧
    (onPkg id).suspended 0 5 0 0 false = none ∧ (let s := (onPkg id).modWave 32 (fun v => { v with susp := true })
      s.suspended 0 5 0 0 false = some 32 ∧ s.devFetch 0 5 0x40000000 1024 = none ∧
      (let bad := fun (bs : List Byte) (l : Nat) =>
        field bs (32 * l + 20) 4 / 4 % 2 ^ 23 ≠ 0 ∨ 4 < field bs (32 * l + 20) 4 / 2 ^ 29 ∨
        field bs (32 * l + 24) 4 / 2 ^ 5 ≠ 0 ∨ field bs (32 * l + 28) 4 ≠ 0;
       (∃ bs, s.devFetch 0 5 0x40010000 1024 = some bs ∧ ¬ ∃ l, l < 32 ∧ bad bs l) ∧
       ∃ bs, (put s 0x5001C 4 1).devFetch 0 5 0x40010000 1024 = some bs ∧ ∃ l, l < 32 ∧ bad bs l)) :=
  ⟨by decide, by decide, by decide, rfl, rfl, ⟨_, rfl, rfl⟩, by decide, ⟨0x60037B, by decide +kernel⟩, by decide, by decide, by decide, by decide, by decide +kernel,
    (by intro st hst; simp only [List.mem_cons, List.not_mem_nil, or_false] at hst; rcases hst with rfl | rfl | rfl <;> exact ⟨_, rfl, rfl⟩), by decide,
    ⟨by decide, by decide⟩, by decide, by decide, by decide +kernel, ⟨_, rfl, by decide +kernel⟩, _, rfl, 0, by decide +kernel⟩
/-- A plan of one local entry of 64 words, its header at 0x40010000; a reel that is idle; handler steps. -/
def planImage : State := put (put (put (onPkg id) 0x50000 8 (1 + 1 * 2 ^ 17 + 2 ^ 22 + 2 ^ 25)) 0x50020 8 (2 * 2 ^ 10)) 0x50038 8 64
theorem witness_DeviceCommands :
    ((onPkg id).pkg 0).hostChange = false ∧ (let named := (List.range 4).filterMap (fun i => let b := (0x80 : W64).toNat / 2 ^ (8 * i) % 2 ^ 8; if 128 ≤ b then some (b - 128) else none)
      named = [0] ∧ ∀ q ∈ named, q < ((onPkg id).pkg 0).podsize) ∧
    (∃ r ∈ ((onPkg (fun p => { p with coll := { p.coll with runs := [{ runOf with plan := 255 }] } })).pkg 0).openRuns, r.plan = 255) ∧
    ((onPkg id).pkg 0).openRuns = [] ∧ (onPkg id).devFetch 0 5 0x40000000 32 = none ∧
    (∃ hd bs, let s := planImage
      s.devFetch 0 5 0x40010000 32 = some hd ∧ (leNat (hd.take 8)) % 2 ^ 13 = 1 ∧ s.devFetch 0 5 (0x40010000 + 32) (32 * max 1 1) = some bs ∧
      (∃ pl, planOf (s.pkg 0).pkgid (s.pkg 0).podsize hd bs = some pl) ∧ (s.pkg 0).planFits 255 1 = true) ∧
    (∃ hd bs, (onPkg id).devFetch 0 5 0x40010000 32 = some hd ∧ (onPkg id).devFetch 0 5 (0x40010000 + 32) 32 = some bs ∧
      planOf ((onPkg id).pkg 0).pkgid ((onPkg id).pkg 0).podsize hd bs = none) ∧
    ((onPkg id).pkg 0).reel.st = .idle ∧ ((onPkg (fun p => { p with reel := { p.reel with st := .run } })).pkg 0).reel.st ≠ .idle ∧
    (onPkg id).devFetch 0 5 0x40000000 (320 + 64 * 2) = none ∧ (∃ bs, (onPkg id).devFetch 0 5 0x40010000 (320 + 64 * 2) = some bs) ∧
    ((onPkg id).pkg 0).feat 9 = true ∧
    (let half := fun (bs : List Byte) (i : Nat) => field bs (2 * i) 2
     let good := fun (bs : List Byte) => ∀ i, i < 16 → half bs i / 2 ^ 11 < 24 ∧ (half bs i / 2 ^ 11 = 18 ∨ half bs i / 2 ^ 11 = 19 ∨ half bs i / 2 ^ 11 = 20 ∨ half bs i % 4 = 0)
     (∃ bs, (onPkg id).devFetch 0 5 0x40010000 32 = some bs ∧ bs.length = 32 ∧ good bs) ∧
     (∃ bs, (put (onPkg id) 0x50000 2 1).devFetch 0 5 0x40010000 32 = some bs ∧ bs.length = 32 ∧ ¬ good bs)) := by
  refine ⟨by decide, by decide, by decide, by decide, by decide +kernel, ⟨_, _, rfl, by decide, rfl, ⟨_, rfl⟩, by decide⟩, ⟨_, _, rfl, rfl, by decide⟩, by decide, by decide,
    by decide +kernel, ⟨_, rfl⟩, by decide, ⟨_, rfl, by decide, by decide +kernel⟩, _, rfl, by decide, by decide +kernel⟩

/-! ### The machine as a whole -/

/-- Reset with `iaddi d2, a1, -1` placed, and lane 0 alone to run it. -/
def placed1 : State := (State.reset.withFetchWord 32 (0b1111111_0000001_0000010_010010_00_0_00)).modWave 32 (fun v =>
  v.upd (List.range 32) (fun l x => if l = 0 then x else { x with st := .exit }))
theorem witness_StepRunsDecoded :
    { State.reset with agenda := [.troupePublish 1] }.agenda = .troupePublish 1 :: [] ∧ (flying.agenda = [] ∧ ∃ t, flying.due = some t) ∧
    (State.reset.agenda = [] ∧ State.reset.due = none ∧ State.reset.select = none) ∧
    (let i : Instr := .iaddi ⟨none, none, 0, false⟩ 2 1 (-1)
     let s := placed1
     s.mates 32 (⟨0xC00000, 1⟩, .run [⟨i, 0xC00000⟩] 0xC00004) = [] ∧ (1 : LaneMask) ≠ 0 ∧ s.cur.stops = [] ∧
     s.agenda = [] ∧ s.due = none ∧ s.select = some (32, [(⟨0xC00000, 1⟩, .run [⟨i, 0xC00000⟩] 0xC00004)]) ∧ (s.wave 32).chk = false ∧ s.eligible (s.wave 32) = true ∧
     (0xC00000 : W64).toNat % 12 = 0 ∧ s.fetchWord 32 0xC00000 = .word 0xFE041240 ∧ s.fetchWord 32 (0xC00000 + 4) = .word 0 ∧ s.fetchWord 32 (0xC00000 + 8) = .word 0 ∧
     kindOf 0xFE041240 ≠ .pairW ∧ decodeInsn [0xFE041240, 0, 0] = (.ok i, 1) ∧ i.operandFault (s.wave 32).allot = none ∧ (∀ f, i.feature = some f → (s.pkg 0).feat f = true) ∧
     chainsOn i = false ∧ (s.troupe 1).dict = none) ∧
    (let s := { placed1 with waves := placed1.waves ++ [(33, { placed1.wave 32 with slot := 1 })] }
     Rising s.waves ∧ (s.mates 32 (⟨0xC00000, 1⟩, .run [⟨.iaddi ⟨none, none, 0, false⟩ 2 1 (-1), 0xC00000⟩] 0xC00004)).length = 1) := by
  refine ⟨rfl, ⟨rfl, Option.isSome_iff_exists.1 (by decide +kernel)⟩, ⟨rfl, by decide +kernel, by decide +kernel⟩,
    ⟨by decide +kernel, by decide, by decide +kernel, by decide +kernel, by decide +kernel, by decide +kernel, by decide +kernel, by decide +kernel, by decide, by decide +kernel, by decide +kernel, by decide +kernel,
     by decide, by decide +kernel, by decide +kernel, fun f h => absurd h (by simp [Instr.feature]), by decide, by decide +kernel⟩, by unfold Rising; decide +kernel⟩
theorem witness_EncodingIsExact : ∃ (i : Instr) (n : Nat), i.mods.isSome = true ∧ i.wf = true ∧ decodeInsn [0xFE041240] = (.ok i, n) :=
  ⟨.iaddi plain 2 1 (-1), 1, rfl, by decide, by decide⟩
theorem witness_StepKeepsMemory : ∃ s t, (Memory.wf s.mem ∧ ∀ k, Memory.wf (s.pkg k).host.hostMem) ∧ step s = .next t :=
  ⟨State.reset, _, reset_canonical, rfl⟩
/-! ### Words written out from the encoding tables of the spec (R66 to R101) -/

theorem test_decode_iadd :
    decodeTableWord 32 (0b0000111_0000110_0000101_000001_00_0_00) =
      some (.iadd ⟨none, none, 0, false⟩ 5 6 7) := by decide
theorem test_decode_iadd_chained :
    decodeTableWord 32 (0b0000111_0000110_0000101_000001_11_1_00) =
      some (.iadd ⟨none, none, 3, true⟩ 5 6 7) := by decide
theorem test_decode_iaddi :
    decodeTableWord 32 (0b1111111_0000001_0000010_010010_00_0_00) =
      some (.iaddi ⟨none, none, 0, false⟩ 2 1 (-1)) := by decide
theorem test_decode_shi :
    decodeTableWord 32 (0b1001001_0000100_0000011_010011_00_0_00) =
      some (.shi ⟨none, none, 0, false⟩ .sar 9 3 4) := by decide
theorem test_decode_movi :
    decodeTableWord 32 (0b10000000000001_0001001_010100_00_0_00) =
      some (.movi ⟨none, none, 0, false⟩ 9 0x2001) := by decide
theorem test_decode_movl :
    decodeTableWord 64 (0b00000000000101010101010101010_1_01 + 0b01010101010101_0001001_010100_00_0_00 * 2 ^ 32) =
      some (.movl ⟨none, some 0x2AAAA, 0, false⟩ 9 0x1555) := by decide
theorem test_decode_popc :
    decodeTableWord 32 (0b0000011_0001000_0000100_010110_00_0_00) =
      some (.popc ⟨none, none, 0, false⟩ true 4 8) := by decide
theorem test_decode_imulh :
    decodeTableWord 32 (0b0001010_0001000_0000100_010111_00_0_00) =
      some (.imulh ⟨none, none, 0, false⟩ .s64 4 8) := by decide
theorem test_decode_pset :
    decodeTableWord 32 (0b0000001_0000001_0010001_011000_00_0_00) =
      some (.pset ⟨none, none, 0, false⟩ 17 true) := by decide
theorem test_decode_icmp :
    decodeTableWord 32 (0b0001011_0001010_1_100001_011011_00_0_00) =
      some (.icmpLtS ⟨none, none, 0, false⟩ true 33 10 11) := by decide
theorem test_decode_fsub :
    decodeTableWord 32 (0b0000111_0000110_0000101_011110_00_0_00) =
      some (.fsubF32 ⟨none, none, 0, false⟩ 5 6 7) := by decide
theorem test_decode_fcmp :
    decodeTableWord 32 (0b0001100_0001010_0_000101_100110_00_0_00) =
      some (.fcmpLe ⟨none, none, 0, false⟩ false 5 10 12) := by decide
theorem test_decode_fexp2 :
    decodeTableWord 32 (0b0101010_0000110_0000101_101000_00_0_00) =
      some (.fexp2 ⟨none, none, 0, false⟩ .f16 5 6) := by decide
theorem test_decode_fmax :
    decodeTableWord 32 (0b0101100_0000110_0000101_101001_00_0_00) =
      some (.fmax ⟨none, none, 0, false⟩ .f16x2 5 6) := by decide
theorem test_decode_cvt :
    decodeTableWord 32 (0b0001101_0000110_0000100_101010_00_0_00) =
      some (.cvt ⟨none, none, 0, false⟩ .f64 .z32 4 6) := by decide
theorem test_decode_lred :
    decodeTableWord 32 (0b0001001_0000110_0000100_101011_00_0_00) =
      some (.lred ⟨none, none, 0, false⟩ .max .z32 4 6) := by decide
theorem test_decode_shfl :
    decodeTableWord 32 (0b1010010_0000110_0000100_101011_00_0_00) =
      some (.shfl ⟨none, none, 0, false⟩ .down 4 6) := by decide
theorem test_decode_bra :
    decodeTableWord 32 (0b1111111111111_1_0001001_101111_00_0_00) =
      some (.bra ⟨none, none, 0, false⟩ 0x1FFF true 9) := by decide
theorem test_decode_callr :
    decodeTableWord 32 (0b0000001_0000110_0000100_110001_00_0_00) =
      some (.callr ⟨none, none, 0, false⟩ 4 6) := by decide
theorem test_decode_rj_set :
    decodeTableWord 32 (0b0010100_0001111_0000100_110001_00_0_00) =
      some (.rjSet ⟨none, none, 0, false⟩ 4 15) := by decide
theorem test_decode_ld_fm :
    decodeTableWord 32 (0b1111111_0000110_0000100_110100_00_0_00) =
      some (.ldGB64 ⟨none, none, 0, false⟩ 0x7F 4 6) := by decide
theorem test_decode_st_mem :
    decodeTableWord 64 (0b00000000000000000000100000010_1_01 + 0b1101001_0000110_0000100_111010_00_0_00 * 2 ^ 32) =
      some (.st ⟨none, some 0x102, 0, false⟩ .b .b32 true 4 6) := by decide
theorem test_decode_ldk :
    decodeTableWord 32 (0b0110001_0000110_0000100_111010_00_0_00) =
      some (.ldkHigh ⟨none, none, 0, false⟩ 4 6) := by decide
theorem test_decode_atom :
    decodeTableWord 64 (0b00000000000000000010000011001_1_01 + 0b0010010_0000110_0000100_111011_00_0_00 * 2 ^ 32) =
      some (.atom ⟨none, some 0x419, 0, false⟩ .inc false 4 6) := by decide
theorem test_decode_red :
    decodeTableWord 32 (0b0110101_0000110_0000100_111011_00_0_00) =
      some (.redOp ⟨none, none, 0, false⟩ .fadd true 4 6) := by decide
theorem test_decode_fnc_iss :
    decodeTableWord 32 (0b1000000_0000011_0000100_111011_00_0_00) =
      some (.fncIss ⟨none, none, 0, false⟩ 4 .pod) := by decide
theorem test_decode_ratom :
    decodeTableWord 32 (0b0110101_0000110_0000100_111100_00_0_00) =
      some (.ratom ⟨none, none, 0, false⟩ true false true 4 6) := by decide
theorem test_decode_mx_drain :
    decodeTableWord 32 (0b0010100_0000110_0000100_111100_00_0_00) =
      some (.mxDrain ⟨none, none, 0, false⟩ 4 6) := by decide
theorem test_decode_sysc :
    decodeTableWord 32 (0b0001110_1100011_0000000_111101_00_0_00) =
      some (.sysc ⟨none, none, 0, false⟩ 99) := by decide
theorem test_decode_vm_prot :
    decodeTableWord 32 (0b0010010_0001000_0000100_111101_00_0_00) =
      some (.vmProt ⟨none, none, 0, false⟩ 4 8) := by decide
theorem test_decode_csrw :
    decodeTableWord 32 (0b01_000100000001_0000100_111110_00_0_00) =
      some (.csrw ⟨none, none, 0, false⟩ 0x101 4) := by decide
theorem test_decode_ffma_prefixed :
    decodeTableWord 64 (0b0000000_0_1_0001001_1_001_1_1_1000110_0_01 + 0b0000111_0000110_0000101_100000_00_0_00 * 2 ^ 32) =
      some (.ffmaF32 ⟨some ⟨false, true, 9, true, 1, true, true, 70⟩, none, 0, false⟩ 5 6 7) := by decide
theorem test_decode_bfi_both :
    decodeTableWord 96 (0b0000000_0_1_0001000_0_000_0_0_0000000_0_01 + 0b00000000000000000100000000100_1_01 * 2 ^ 32 + 0b0000000_0000110_0000101_001110_00_0_00 * 2 ^ 64) =
      some (.bfi ⟨some ⟨false, true, 8, false, 0, false, false, 0⟩, some 0x0804, 0, false⟩ 5 6 0) := by decide
/-! ### Ill-formed terms: one for each check of `Instr.wf` -/

/-- An option word with nothing in it. -/
def noOpt : Opt := ⟨false, false, 0, false, 0, false, false, 0⟩
def withOpt (o : Opt) : Mods := ⟨some o, none, 0, false⟩

theorem test_wf_plain : (Instr.iadd plain 4 5 6).wf = true := by decide
/-! E is required: without an option word, and with one whose EEN is 0. -/
theorem test_ill_sel_without_e : (Instr.sel plain 4 5 6).wf = false := by decide
theorem test_ill_sel_een_zero : (Instr.sel (withOpt noOpt) 4 5 6).wf = false := by decide
/-! An option word where no guard is accepted; Z, SAT and E where the row does not take them. -/
theorem test_ill_bra_guard : (Instr.bra (withOpt noOpt) 0 false 9).wf = false := by decide
theorem test_ill_store_zeroing : (Instr.stGB32 (withOpt { noOpt with z := true }) 0 4 6).wf = false := by decide
theorem test_ill_xor_sat : (Instr.xorB32 (withOpt { noOpt with sat := true }) 4 5 6).wf = false := by decide
theorem test_ill_iadd_e : (Instr.iadd (withE 7) 4 5 6).wf = false := by decide
/-! A literal where one is required; a literal where none is accepted. -/
theorem test_ill_lop3_bare : (Instr.lop3 plain 4 5 6).wf = false := by decide
theorem test_ill_plop3_bare : (Instr.plop3 plain 4 5).wf = false := by decide
theorem test_ill_movl_bare : (Instr.movl plain 4 0).wf = false := by decide
theorem test_ill_iaddi_literal : (Instr.iaddi (withLit 1) 4 5 1).wf = false := by decide
/-! Literal fields that must be zero, one for each way a row reads its literal; a reserved space, an order that `red` lacks. -/
theorem test_ill_lea_literal : (Instr.lea (withLit 16) 4 5 6).wf = false := by decide
theorem test_ill_lop3_literal : (Instr.lop3 (withLit 0x8000) 4 5 6).wf = false := by decide
theorem test_ill_plop3_literal : (Instr.plop3 (withLit 0x400000) 4 5).wf = false := by decide
theorem test_ill_movl_literal : (Instr.movl (withLit 0x40000) 4 0).wf = false := by decide
theorem test_ill_fm_literal : (Instr.ldGB32 (withLit 4) 1 4 6).wf = false := by decide
theorem test_ill_mem_literal : (Instr.ld (withLit 1) .g .b32 false 4 6).wf = false := by decide
theorem test_ill_b_literal : (Instr.iadd (withLit 1) 4 5 6).wf = false := by decide
theorem test_ill_f32_literal : (Instr.faddF32 (withLit 1) 4 5 6).wf = false := by decide
theorem test_ill_f64_literal : (Instr.faddF64 (withLit 1) 4 6 8).wf = false := by decide
theorem test_ill_sync_space : (Instr.atom (withLit 0x30) .add false 4 6).wf = false := by decide
theorem test_ill_red_acquire : (Instr.redOp (withLit 4) .add false 4 6).wf = false := by decide
/-! Fields of an option word that are reserved, and the rounding field of a row that does not round. -/
theorem test_ill_gp_without_ge : (Instr.iadd (withOpt { noOpt with gp := 3 }) 4 5 6).wf = false := by decide
theorem test_ill_gn_without_ge : (Instr.iadd (withOpt { noOpt with gn := true }) 4 5 6).wf = false := by decide
theorem test_ill_e_without_een : (Instr.iadd (withOpt { noOpt with e := 3 }) 4 5 6).wf = false := by decide
theorem test_ill_rnd_seven : (Instr.faddF32 (withOpt { noOpt with rnd := 7 }) 4 5 6).wf = false := by decide
theorem test_ill_rnd_on_iadd : (Instr.iadd (withOpt { noOpt with rnd := 1 }) 4 5 6).wf = false := by decide
/-! Combinations that are no function codes. -/
theorem test_ill_special_f64 : ∀ i ∈ [Instr.frcp plain .f64 4 6, .frsqrt plain .f64 4 6, .fexp2 plain .f64 4 6, .flog2 plain .f64 4 6,
    .fsinpi plain .f64 4 6, .fcospi plain .f64 4 6, .ftanh plain .f64 4 6], i.wf = false := by decide
theorem test_ill_packed : ∀ i ∈ [Instr.fclass plain .f16x2 4 6, .fgetexp plain .bf16x2 4 6, .fgetman plain .f16x2 4 6], i.wf = false := by decide
theorem test_ill_dot_scalar : (Instr.fdot2 (withE 7) .f32 4 6).wf = false := by decide
theorem test_ill_cvt_same : (Instr.cvt plain .s32 .s32 4 6).wf = false := by decide
theorem test_ill_lred : ∀ i ∈ [Instr.lred plain .and .z32 4 6, .lred plain .or .f32 4 6, .lred plain .xor .f64 4 6, .lred plain .minIdx .f64 4 6,
    .lred plain .maxIdx .f64 4 6], i.wf = false := by decide
theorem test_ill_signed_store : ∀ i ∈ [Instr.st plain .g .s8 false 4 6, .st plain .s .s16 false 4 6], i.wf = false := by decide
theorem test_ill_red_xch : (Instr.redOp plain .xch false 4 6).wf = false := by decide
/-! Numbers of agents that do not exist. -/
theorem test_ill_lane : (Instr.scoreboardWrite 32 32 0).wf = false := by decide
theorem test_ill_core : (Instr.pageWalkComplete 0 1024 5 0).wf = false := by decide
theorem test_ill_queue : ∀ i ∈ [Instr.launchDoorbell 0 64 0, .frontEndTake 0 64], i.wf = false := by decide
theorem test_ill_port : ∀ i ∈ [Instr.laneFailure 0 16 0, .laneFailure 0 0 9, .laneRejoin 0 16 0, .laneRejoin 0 0 9], i.wf = false := by decide
theorem test_ill_measurement : ∀ i ∈ [Instr.mrExtend 0 1 0, .mrExtend 0 8 0], i.wf = false := by decide
theorem test_ill_register_width : (Instr.registerWrite 0 0 2 0).wf = false := by decide

/-! ### Results of the spec's worked examples -/

/-- What register `r` of lane 0 holds once everything on its way has landed. -/
def after (o : Host.Outcome State Fault Refusal) (r : Nat) : W32 :=
  match o with
  | .next t => (t.lane 32 0).latest (.g (BitVec.ofNat 7 r))
  | _ => 0
/-- The low and the high word of a pair. -/
def both (o : Host.Outcome State Fault Refusal) : W32 × W32 := (after o 4, after o 5)

/-! R126: the table of quotients and remainders. -/
theorem test_idiv :
    after (exec (.idiv plain .s32 4 6) (solo [(4, 0xFFFFFFF9), (6, 2)])) 4 = 0xFFFFFFFD ∧
    after (exec (.idiv plain .s32 4 6) (solo [(4, 7), (6, 0xFFFFFFFE)])) 4 = 0xFFFFFFFD ∧
    after (exec (.idiv plain .s32 4 6) (solo [(4, 0x80000000), (6, 0xFFFFFFFF)])) 4 = 0x80000000 ∧
    after (exec (.idiv plain .s32 4 6) (solo [(4, 0xFFFFFFFB), (6, 0)])) 4 = 0xFFFFFFFF ∧
    after (exec (.idiv plain .z32 4 6) (solo [(4, 0xFFFFFFF9), (6, 2)])) 4 = 0x7FFFFFFC ∧
    both (exec (.idiv plain .z64 4 6) (solo [(4, 9), (6, 0)])) = (0xFFFFFFFF, 0xFFFFFFFF) := by decide
theorem test_irem :
    after (exec (.irem plain .s32 4 6) (solo [(4, 0xFFFFFFF9), (6, 2)])) 4 = 0xFFFFFFFF ∧
    after (exec (.irem plain .s32 4 6) (solo [(4, 0x80000000), (6, 0xFFFFFFFF)])) 4 = 0 ∧
    after (exec (.irem plain .s32 4 6) (solo [(4, 0xFFFFFFFB), (6, 0)])) 4 = 0xFFFFFFFB ∧
    both (exec (.irem plain .z64 4 6) (solo [(4, 9), (6, 0)])) = (9, 0) := by decide
/-! R128: the three types of `dp4`. -/
theorem test_dp4 :
    after (exec (.dp4 (withE 7) .s8 4 6) (solo [(4, 100), (6, 0x80FF0102), (7, 0x02030405)])) 4 = 0xFFFFFF6F ∧
    after (exec (.dp4 (withE 7) .sz 4 6) (solo [(4, 100), (6, 0x80FF0102), (7, 0x02030405)])) 4 = 0xFFFFFF6F ∧
    after (exec (.dp4 (withE 7) .z8 4 6) (solo [(4, 100), (6, 0x80FF0102), (7, 0x02030405)])) 4 = 0x46F := by decide
/-! R130: three start positions; C in E. -/
theorem test_shf :
    after (exec (.shf (withE 8) 4 6 7) (solo [(6, 0x87654321), (7, 0x0FEDCBA9), (8, 4)])) 4 = 0x98765432 ∧
    after (exec (.shf (withE 8) 4 6 7) (solo [(6, 0x87654321), (7, 0x0FEDCBA9), (8, 28)])) 4 = 0xFEDCBA98 ∧
    after (exec (.shf plain 4 6 7) (solo [(4, 36), (6, 0x87654321), (7, 0x0FEDCBA9)])) 4 = 0x10FEDCBA := by decide
/-! R132: the tables of (A AND B) OR C and of C ? A : B. -/
theorem test_lop3 :
    after (exec (.lop3 (withLit (8 + 0xF8 * 128)) 4 6 7) (solo [(6, 0xAA), (7, 0xCC), (8, 0xF0)])) 4 = 0xF8 ∧
    after (exec (.lop3 (withLit (8 + 0xAC * 128)) 4 6 7) (solo [(6, 0xAA), (7, 0xCC), (8, 0xF0)])) 4 = 0xAC := by decide
/-! R134: a field with and without sign fill. -/
theorem test_bfx :
    after (exec (.bfx plain 4 6 7) (solo [(6, 0xF50), (7, 0x804)])) 4 = 0xF5 ∧
    after (exec (.bfx plain 4 6 7) (solo [(6, 0xF50), (7, 0x10804)])) 4 = 0xFFFFFFF5 := by decide
/-! R135: the table of controls. -/
theorem test_prmt :
    after (exec (.prmt (withE 8) 4 6 7) (solo [(6, 0x44332211), (7, 0x17001604), (8, 0x88776655)])) 4 = 0xFF110055 ∧
    after (exec (.prmt (withE 8) 4 6 7) (solo [(6, 0x44332211), (7, 0x00010203), (8, 0x88776655)])) 4 = 0x11223344 ∧
    after (exec (.prmt (withE 8) 4 6 7) (solo [(6, 0x44332211), (7, 0x08180003), (8, 0x88776655)])) 4 = 0x00FF1144 := by decide
/-! R149: exact powers and logarithms, and an inexact one in two modes. -/
theorem test_fexp2 :
    after (exec (.fexp2 plain .f32 4 6) (solo [(6, 0xC0400000)])) 4 = 0x3E000000 ∧
    fExp2 fmt32 .rne 0x3F000000 = (0x3FB504F3, flNX) ∧ fExp2 fmt32 .rup 0x3F000000 = (0x3FB504F4, flNX) := by decide
theorem test_flog2 : after (exec (.flog2 plain .f32 4 6) (solo [(6, 0x3E000000)])) 4 = 0xC0400000 := by decide
theorem test_fsinpi : after (exec (.fsinpi plain .f32 4 6) (solo [(6, 0x40000000)])) 4 = 0 := by decide
/-! The table of conversions: overflow, ties, and a value out of range. -/
theorem test_cvt_to_half :
    after (exec (.cvt plain .f16 .f32 4 6) (solo [(6, 0x4788B800)])) 4 = 0x7C00 ∧
    after (exec (.cvt (withOpt { noOpt with sat := true }) .f16 .f32 4 6) (solo [(6, 0x4788B800)])) 4 = 0x7BFF := by decide
theorem test_cvt_to_int :
    after (exec (.cvt plain .s32 .f32 4 6) (solo [(6, 0x40200000)])) 4 = 2 ∧
    after (exec (.cvt plain .s32 .f32 4 6) (solo [(6, 0x4F32D05E)])) 4 = 0x80000000 ∧
    after (exec (.cvt (withOpt { noOpt with sat := true }) .s32 .f32 4 6) (solo [(6, 0x4F32D05E)])) 4 = 0x7FFFFFFF ∧
    after (exec (.cvt plain .z32 .s32 4 6) (solo [(6, 0xFFFFFFFB)])) 4 = 0xFFFFFFFB := by decide
/-! The published digest of the three bytes "abc", as SM3 gives it. -/
theorem test_sm3 : leNat (sm3 [0x61, 0x62, 0x63]).reverse =
    0x66c7f0f462eeedd9d1f2d46bdc10e4e24167c4875cf2f7a2297da02b8f4ba8e0 := by decide

end Sys2Proof.Tests
end

