-- ==== Sys2Proof/Proofs/IntegerDigits.lean ====
section
/-! SUPPORT. Proofs about wide additions and about division: the words of a digit with its carry, the shape of an instruction
over an operand type, and the codes that name them. -/

namespace Sys2Proof

open Machine

/-! ### Codes (R93, R94) -/

/-- Major 23 is the group INTB. -/
theorem nameBase_of_maj_23 (m : Mods) {f : Fields} (h : f.maj = 23) : nameBase m f = decIntb m f := by
  unfold nameBase; rw [h]; rfl

/-- The codes of the wide additions and subtractions; the code after them names nothing. -/
theorem decIntb_digits (m : Mods) (f : Fields) :
    (f.b = 0x03 → decIntb m f = some (.iaddcB32 m f.d f.a, true)) ∧ (f.b = 0x04 → decIntb m f = some (.isubbB32 m f.d f.a, true)) ∧
    (f.b = 0x05 → decIntb m f = some (.iaddcB64 m f.d f.a, true)) ∧ (f.b = 0x06 → decIntb m f = some (.isubbB64 m f.d f.a, true)) ∧
    (f.b = 0x07 → decIntb m f = none) := by
  refine ⟨?_, ?_, ?_, ?_, ?_⟩ <;> (intro h; unfold decIntb; rw [h]; rfl)
/-- The codes of the quotient and of the remainder of a type. -/
theorem decIntb_division (m : Mods) (t : IType) (f : Fields) :
    (f.b.toNat = 0x10 + t.code → decIntb m f = some (.idiv m t f.d f.a, true)) ∧
    (f.b.toNat = 0x14 + t.code → decIntb m f = some (.irem m t f.d f.a, true)) := by
  cases t <;> constructor <;> (intro h; unfold decIntb; rw [h]; rfl)

/-! ### Digits of a wide addition (R124) -/

/-- A carry word above a value is one number: the value, and two to its width where the carry is set. -/
theorem carryWord_append {w : Nat} (hw : 1 ≤ w) (c : Bool) (v : BitVec w) :
    (BitVec.ofBool c).setWidth w ++ v = BitVec.ofNat (w + w) (c.toNat * 2 ^ w + v.toNat) := by
  have h2 : 2 ≤ 2 ^ w := Nat.le_self_pow (by omega) 2
  have hv := v.isLt
  have hc : c.toNat * 2 ^ w ≤ 1 * 2 ^ w := Nat.mul_le_mul_right _ c.toNat_le
  have hsq : 2 * 2 ^ w ≤ 2 ^ (w + w) := Nat.pow_add 2 w w ▸ Nat.mul_le_mul_right _ h2
  apply BitVec.eq_of_toNat_eq
  rw [BitVec.toNat_append, ← Nat.shiftLeft_add_eq_or_of_lt hv, Nat.shiftLeft_eq, BitVec.toNat_setWidth, BitVec.toNat_ofBool,
    Nat.mod_eq_of_lt (by have := c.toNat_le; omega), BitVec.toNat_ofNat, Nat.mod_eq_of_lt (by omega)]

/-- Value and carry word of a sum hold the exact sum. -/
theorem addCarry_append {w : Nat} (hw : 1 ≤ w) (a b : BitVec w) (c : Bool) :
    (BitVec.ofBool (addCarry w a b c).2).setWidth w ++ (addCarry w a b c).1 = BitVec.ofNat (w + w) (a.toNat + b.toNat + c.toNat) := by
  rw [carryWord_append hw]
  congr 1
  have ha := a.isLt
  have hb := b.isLt
  have hc := c.toNat_le
  simp only [addCarry, BitVec.toNat_ofNat]
  by_cases h : 2 ^ w ≤ a.toNat + b.toNat + c.toNat
  · rw [decide_eq_true h, Nat.mod_eq_sub_mod h, Nat.mod_eq_of_lt (by omega), Bool.toNat_true]; omega
  · rw [decide_eq_false h, Nat.mod_eq_of_lt (by omega), Bool.toNat_false]; omega

/-- Value and borrow word of a difference: what is left, or two to the width more and the borrow above it. -/
theorem subBorrow_append {w : Nat} (hw : 1 ≤ w) (a b : BitVec w) (c : Bool) :
    (BitVec.ofBool (subBorrow w a b c).2).setWidth w ++ (subBorrow w a b c).1 = BitVec.ofNat (w + w)
      (if a.toNat < b.toNat + c.toNat then 2 ^ w + (2 ^ w + a.toNat - b.toNat - c.toNat) else a.toNat - b.toNat - c.toNat) := by
  rw [carryWord_append hw]
  congr 1
  have ha := a.isLt
  have hb := b.isLt
  have hc := c.toNat_le
  simp only [subBorrow, BitVec.toNat_ofInt]
  by_cases h : a.toNat < b.toNat + c.toNat
  · have hm : ((a.toNat : Int) - b.toNat - c.toNat) % ((2 ^ w : Nat) : Int) = (2 ^ w + a.toNat - b.toNat - c.toNat : Nat) := by
      rw [← Int.add_emod_right, Int.emod_eq_of_lt] <;> omega
    rw [decide_eq_true h, if_pos h, hm, Bool.toNat_true, Int.toNat_natCast, Nat.one_mul]
  · have hm : ((a.toNat : Int) - b.toNat - c.toNat) % ((2 ^ w : Nat) : Int) = (a.toNat - b.toNat - c.toNat : Nat) := by
      rw [Int.emod_eq_of_lt] <;> omega
    rw [decide_eq_false h, if_neg h, hm, Bool.toNat_false, Int.toNat_natCast, Nat.zero_mul, Nat.zero_add]

/-- The shapes of a digit: value and carry word, in a pair or in a quad. -/
theorem carry32_puts {i : Instr} {s : State} {m : Mods} {d a : Reg} {f : W32 → W32 → Bool → W32 × Bool} (h : exec i s = carry32 s m d a f) :
    Puts64 i s m d (fun l =>
      let r := f ((s.src64 s.cur.wid l d).setWidth 32) (s.src s.cur.wid l a) ((s.src64 s.cur.wid l d).getLsbD 32)
      (BitVec.ofBool r.2).setWidth 32 ++ r.1) :=
  lane64_computes h
theorem carry64_puts {i : Instr} {s : State} {m : Mods} {d a : Reg} {f : W64 → W64 → Bool → W64 × Bool} (h : exec i s = carry64 s m d a f) :
    Puts128 i s m d (fun l =>
      let r := f ((s.src128 s.cur.wid l d).setWidth 64) (s.src64 s.cur.wid l a) ((s.src128 s.cur.wid l d).getLsbD 64)
      (BitVec.ofBool r.2).setWidth 64 ++ r.1) := by
  have := perLane_computes h
  simp only [dstRegs_four, outs128_eq] at this
  exact this

/-- Settles O1: each digit is what `addCarry` or `subBorrow` leaves, whose two words are one number. -/
theorem carryDigits : Obligations.CarryDigits := by
  intro s m d a
  have hw : 1 ≤ 32 := by decide
  have hw' : 1 ≤ 64 := by decide
  refine ⟨(carry32_puts (i := .iaddcB32 m d a) rfl).congr fun l => congrArg (to64 d) (addCarry_append hw ..),
    (carry64_puts (i := .iaddcB64 m d a) rfl).congr fun l => congrArg (to128 d) (addCarry_append hw' ..),
    (carry32_puts (i := .isubbB32 m d a) rfl).congr fun l => congrArg (to64 d) (subBorrow_append hw ..),
    (carry64_puts (i := .isubbB64 m d a) rfl).congr fun l => congrArg (to128 d) (subBorrow_append hw' ..), fun f hf => ?_⟩
  rw [nameBase_of_maj_23 m hf]
  exact decIntb_digits m f

/-! ### Instructions over an operand type (R121, R126) -/

theorem val_srcN (s : State) (t : IType) (l : Nat) (r : Reg) : IType.val t (s.srcN s.cur.wid l t.words r) = operand s t l r := by
  have h32 : ∀ x : W32, lo32 (x.setWidth 64) = x := fun x => by
    rw [lo32, BitVec.setWidth_setWidth_of_le _ (by decide), BitVec.setWidth_eq]
  cases t
  case s32 => exact congrArg BitVec.toInt (h32 _)
  case z32 => exact congrArg (fun x : W32 => (x.toNat : Int)) (h32 _)
  case s64 => rfl
  case z64 => rfl

/-- The low word of a number reduced to 64 bits is the number reduced to 32. -/
theorem setWidth_ofInt_64_32 (z : Int) : (BitVec.ofInt 64 z).setWidth 32 = BitVec.ofInt 32 z := by
  apply BitVec.eq_of_toNat_eq
  rw [BitVec.toNat_setWidth, BitVec.toNat_ofInt, BitVec.toNat_ofInt]
  omega

/-- The shape of a two-address instruction over a type: it puts `f` of the two operands, reduced to the width of the type. -/
theorem twoT_putsType {i : Instr} {s : State} {m : Mods} {lat : Machine.Lat} {t : IType} {d a : Reg} {f : Int → Int → Int}
    (h : exec i s = twoT s m lat t d a f) : PutsType i s m (lat.due s.clock) t d (fun l => f (operand s t l d) (operand s t l a)) := by
  have h' := h.trans (show _ = laneN s m lat t.words d (fun l => BitVec.ofInt 64 (f (operand s t l d) (operand s t l a))) by
    unfold twoT; simp only [val_srcN])
  cases t
  case s32 | z32 => exact (laneN_one h').congr fun l => congrArg (to32 d) (setWidth_ofInt_64_32 _)
  case s64 | z64 => exact laneN_two h'

/-! ### Quotient and remainder (R126) -/

/-- A zero divisor gives all ones and the dividend. -/
theorem divT_remT_zero (x : Int) : divT x 0 = -1 ∧ remT x 0 = x := ⟨rfl, rfl⟩

/-- Any other divisor gives the quotient truncated towards zero: the remainder is smaller in size than the divisor and has the
dividend's sign. -/
theorem divT_remT_spec (x : Int) {y : Int} (hy : y ≠ 0) :
    x = divT x y * y + remT x y ∧ |remT x y| < |y| ∧ (remT x y = 0 ∨ (remT x y < 0 ↔ x < 0)) := by
  have hq : divT x y = x.tdiv y := if_neg hy
  have hr : remT x y = x.tmod y := if_neg hy
  rw [hq, hr]
  refine ⟨(Int.tdiv_mul_add_tmod x y).symm, ?_, ?_⟩
  · rw [Int.abs_eq_natAbs, Int.abs_eq_natAbs, Int.natAbs_tmod]
    exact_mod_cast Nat.mod_lt _ (Int.natAbs_pos.2 hy)
  · by_cases hd : y ∣ x
    · exact .inl (Int.tmod_eq_zero_of_dvd hd)
    · right
      rw [← Int.sign_eq_neg_one_iff_neg, ← Int.sign_eq_neg_one_iff_neg, Int.sign_tmod, if_neg hd]

/-- Settles O2: the two instructions put `divT` and `remT` of their operands, which R126 describes. -/
theorem quotientAndRemainder : Obligations.QuotientAndRemainder := by
  intro s m t d a
  refine ⟨_, _, twoT_putsType (i := .idiv m t d a) rfl, twoT_putsType (i := .irem m t d a) rfl, fun l => ?_, fun f hf => ?_⟩
  · dsimp only
    split
    · next h0 => rw [h0]; exact divT_remT_zero _
    · next h0 => exact divT_remT_spec _ h0
  · rw [nameBase_of_maj_23 m hf]
    exact decIntb_division m t f

end Sys2Proof
end

