-- ==== Sys2Proof/Proofs/ShiftsAndBytes.lean ====
section
/-! SUPPORT. Proofs about shifts, fields and picked bytes: each bit of what the model's functions on words answer. -/

namespace Sys2Proof

open Machine

/-! ### Codes (R93) -/

theorem nameBase_of_maj_16 (m : Mods) {f : Fields} (h : f.maj = 16) : nameBase m f = some (.shf m f.d f.a f.b, true) := by
  unfold nameBase; rw [h]; rfl
theorem nameBase_of_maj_15 (m : Mods) {f : Fields} (h : f.maj = 15) : nameBase m f = some (.prmt m f.d f.a f.b, true) := by
  unfold nameBase; rw [h]; rfl

/-! ### Results given bit by bit -/

/-- A shape of the integer pipe whose value has the given bits. -/
theorem lane32_bits {i : Instr} {s : State} {m : Mods} {d : Reg} {f : Nat → W32} {g : Nat → Nat → Bool}
    (h : exec i s = lane32 s m latI d f) (hb : ∀ l j, j < 32 → (f l).getLsbD j = g l j) : Bits32 i s m d g :=
  ⟨f, hb, lane32_computes h⟩
theorem lane64_bits {i : Instr} {s : State} {m : Mods} {d : Reg} {f : Nat → W64} {g : Nat → Nat → Bool}
    (h : exec i s = lane64 s m latI d f) (hb : ∀ l j, j < 64 → (f l).getLsbD j = g l j) : Bits64 i s m d g :=
  ⟨f, hb, lane64_computes h⟩

/-- Each bit of a pair: those of the low word, then those of the high. -/
theorem getLsbD_pair (lo hi : W32) (j : Nat) : (pair lo hi).getLsbD j = if j < 32 then lo.getLsbD j else hi.getLsbD (j - 32) :=
  BitVec.getLsbD_append

/-! ### Shifts and rotates (R129, R130) -/

/-- Bit `j` of a word of width `w` shifted by `n`. -/
def shiftedBit (o : ShOp) (w : Nat) (bit : Nat → Bool) (n j : Nat) : Bool :=
  match o with
  | .shl => decide (n ≤ j) && bit (j - n)
  | .shr => decide (j + n < w) && bit (j + n)
  | .sar => if j + n < w then bit (j + n) else bit (w - 1)
  | .rotl => bit ((j + (w - n % w)) % w)

theorem getLsbD_rotateLeft_of_lt {w : Nat} (x : BitVec w) {r j : Nat} (hr : r < w) (hj : j < w) :
    (x.rotateLeft r).getLsbD j = x.getLsbD ((j + (w - r)) % w) := by
  rw [BitVec.getLsbD_rotateLeft, Nat.mod_eq_of_lt hr]
  by_cases h : j < r
  · rw [decide_eq_true h, cond_true, Nat.mod_eq_of_lt (by omega : j + (w - r) < w), Nat.add_comm]
  · rw [decide_eq_false h, cond_false, decide_eq_true hj, Bool.true_and, Nat.mod_eq_sub_mod (by omega), Nat.mod_eq_of_lt (by omega),
      show j + (w - r) - w = j - r by omega]

theorem getLsbD_rotateRight_of_lt {w : Nat} (x : BitVec w) {p j : Nat} (hp : p < w) (hj : j < w) :
    (x.rotateRight p).getLsbD j = x.getLsbD ((p + j) % w) := by
  rw [BitVec.getLsbD_rotateRight, Nat.mod_eq_of_lt hp]
  by_cases h : j < w - p
  · rw [decide_eq_true h, cond_true, Nat.mod_eq_of_lt (by omega)]
  · rw [decide_eq_false h, cond_false, decide_eq_true hj, Bool.true_and, Nat.mod_eq_sub_mod (by omega), Nat.mod_eq_of_lt (by omega),
      show p + j - w = j - (w - p) by omega]

/-- Each bit of a shifted word, for a count of any size. -/
theorem getLsbD_shiftOp {w : Nat} (o : ShOp) (x : BitVec w) (n : Nat) {j : Nat} (hj : j < w) :
    (shiftOp o x n).getLsbD j = shiftedBit o w x.getLsbD n j := by
  cases o
  case shl =>
    rw [shiftOp, shiftedBit, BitVec.getLsbD_shiftLeft, decide_eq_true hj, Bool.true_and, ← decide_not]
    simp only [not_lt]
  case shr =>
    rw [shiftOp, shiftedBit, BitVec.getLsbD_ushiftRight, Nat.add_comm n j]
    by_cases h : j + n < w
    · rw [decide_eq_true h, Bool.true_and]
    · rw [decide_eq_false h, Bool.false_and, BitVec.getLsbD_of_ge _ _ (by omega)]
  case sar =>
    rw [shiftOp, shiftedBit, BitVec.getLsbD_sshiftRight, BitVec.msb_eq_getLsbD_last, decide_eq_false (by omega : ¬ w ≤ j), Nat.add_comm n j]
    rfl
  case rotl => exact getLsbD_rotateLeft_of_lt x (Nat.mod_lt _ (by omega)) hj

/-- Each bit of a window of the ring of two words. -/
theorem getLsbD_ringWindow (a b : W32) (p : Nat) {j : Nat} (hj : j < 32) :
    (ringWindow a b (p % 64)).getLsbD j =
      if (p % 64 + j) % 64 < 32 then a.getLsbD ((p % 64 + j) % 64) else b.getLsbD ((p % 64 + j) % 64 - 32) := by
  rw [ringWindow, BitVec.getLsbD_setWidth, decide_eq_true hj, Bool.true_and, Nat.mod_mod,
    getLsbD_rotateRight_of_lt _ (Nat.mod_lt _ (by decide)) (by omega), getLsbD_pair]

theorem shiftedBits : Claims.ShiftedBits := by
  intro s m o n d a b
  exact ⟨lane32_bits (i := .shl m d a b) rfl fun _ _ hj => getLsbD_shiftOp _ _ _ hj,
    lane32_bits (i := .shr m d a b) rfl fun _ _ hj => getLsbD_shiftOp _ _ _ hj,
    lane32_bits (i := .sar m d a b) rfl fun _ _ hj => getLsbD_shiftOp _ _ _ hj,
    lane32_bits (i := .shi m o n d a) rfl fun _ _ hj => getLsbD_shiftOp _ _ _ hj,
    lane64_bits (i := .shlB64 m d a) rfl fun _ _ hj => getLsbD_shiftOp _ _ _ hj,
    lane64_bits (i := .shrB64 m d a) rfl fun _ _ hj => getLsbD_shiftOp _ _ _ hj,
    lane64_bits (i := .sarB64 m d a) rfl fun _ _ hj => getLsbD_shiftOp _ _ _ hj,
    lane32_bits (i := .rotlB32 m d a) rfl fun _ _ hj => getLsbD_shiftOp _ _ _ hj,
    lane64_bits (i := .rotlB64 m d a) rfl fun _ _ hj => getLsbD_shiftOp _ _ _ hj,
    lane32_bits (i := .shf m d a b) rfl fun _ _ hj => getLsbD_ringWindow _ _ _ hj,
    fun f hf => nameBase_of_maj_16 m hf⟩

/-! ### Fields (R134) -/

theorem fieldStart_eq (c : W32) : fieldStart c = c.toNat % 256 := rfl
theorem fieldLen_eq (c : W32) : fieldLen c = min (c.toNat / 256 % 256) 32 := by
  rw [fieldLen, nbits, Nat.shiftRight_eq_div_pow]; rfl
theorem fieldLen_le (c : W32) : fieldLen c ≤ 32 := Nat.min_le_right _ _

/-- Each bit of an `n`-bit number below 32 bits, filled with ones above where `sign` is set. -/
theorem testBit_filled {n v : Nat} (hn : n ≤ 32) (hv : v < 2 ^ n) (sign : Bool) {j : Nat} (hj : j < 32) :
    (if sign then v + (2 ^ 32 - 2 ^ n) else v).testBit j = if j < n then v.testBit j else sign := by
  cases sign
  case false =>
    by_cases h : j < n
    · simp [h]
    · have : v < 2 ^ j := Nat.lt_of_lt_of_le hv (Nat.pow_le_pow_right (by decide) (by omega))
      simp [h, Nat.testBit_lt_two_pow this]
  case true =>
    have hp : 2 ^ 32 - 2 ^ n = 2 ^ n * (2 ^ (32 - n) - 1) := by
      rw [Nat.mul_sub, ← Nat.pow_add, Nat.mul_one, Nat.add_sub_cancel' hn]
    rw [if_pos rfl, hp, Nat.add_comm v, Nat.testBit_two_pow_mul_add _ hv, Nat.testBit_two_pow_sub_one]
    split
    · rfl
    · exact decide_eq_true (by omega)

/-- Each bit of the field that `bfx` cuts out, before its fill. -/
theorem testBit_field (x : W32) (st : Nat) {n j : Nat} (hj : j < 32) :
    (nbits (x.toNat >>> st) 31 0 % 2 ^ n).testBit j = (decide (j < n) && x.getLsbD (st + j)) := by
  rw [nbits, Nat.testBit_mod_two_pow, Nat.testBit_mod_two_pow, decide_eq_true hj, Nat.shiftRight_zero, Nat.testBit_shiftRight,
    BitVec.testBit_toNat, Bool.true_and]

/-- Each bit of a field taken out of a word. -/
theorem getLsbD_bfx (x c : W32) {j : Nat} (hj : j < 32) :
    (bfx x c).getLsbD j = if j < fieldLen c then x.getLsbD (fieldStart c + j)
      else c.getLsbD 16 && decide (0 < fieldLen c) && x.getLsbD (fieldStart c + fieldLen c - 1) := by
  have hn := fieldLen_le c
  generalize hN : fieldLen c = n at hn
  generalize hS : fieldStart c = st
  have hv : nbits (x.toNat >>> st) 31 0 % 2 ^ n < 2 ^ n := Nat.mod_lt _ (Nat.two_pow_pos n)
  have htop : (n != 0 && (nbits (x.toNat >>> st) 31 0 % 2 ^ n) >>> (n - 1) % 2 == 1) = (decide (0 < n) && x.getLsbD (st + n - 1)) := by
    by_cases h0 : n = 0
    · subst h0; rfl
    · have hbit : ∀ v : Nat, (v >>> (n - 1) % 2 == 1) = v.testBit (n - 1) := fun v => by
        rw [Nat.testBit_eq_decide_div_mod_eq, Nat.shiftRight_eq_div_pow]; rfl
      rw [hbit, testBit_field x st (by omega), decide_eq_true (by omega : n - 1 < n), decide_eq_true (by omega : 0 < n),
        bne_iff_ne.2 h0, Bool.true_and, Nat.add_sub_assoc (by omega)]
  rw [bfx, hN, hS, htop, BitVec.getLsbD_ofNat, decide_eq_true hj, Bool.true_and, testBit_filled hn hv _ hj, testBit_field x st hj, Bool.and_assoc]
  by_cases h : j < n
  · rw [if_pos h, if_pos h, decide_eq_true h, Bool.true_and]
  · rw [if_neg h, if_neg h]

/-- Each bit of a word that a field is put into. -/
theorem getLsbD_bfi (x c z : W32) {j : Nat} (hj : j < 32) :
    (bfi x c z).getLsbD j = if fieldStart c ≤ j ∧ j < fieldStart c + fieldLen c then x.getLsbD (j - fieldStart c) else z.getLsbD j := by
  have hmask : (BitVec.ofNat 32 ((2 ^ fieldLen c - 1) <<< fieldStart c)).getLsbD j =
      decide (fieldStart c ≤ j ∧ j < fieldStart c + fieldLen c) := by
    rw [BitVec.getLsbD_ofNat, decide_eq_true hj, Bool.true_and, Nat.testBit_shiftLeft, Nat.testBit_two_pow_sub_one, Bool.eq_iff_iff]
    simp only [Bool.and_eq_true, decide_eq_true_eq]
    omega
  rw [bfi, BitVec.getLsbD_or, BitVec.getLsbD_and, BitVec.getLsbD_and, BitVec.getLsbD_not, hmask, BitVec.getLsbD_shiftLeft, decide_eq_true hj]
  by_cases h : fieldStart c ≤ j ∧ j < fieldStart c + fieldLen c
  · simp [h, Nat.not_lt.2 h.1]
  · simp [h]

/-! ### Picked bytes (R135) -/

/-- A word of four bytes has bit `j` where byte `j / 8` has bit `j % 8`. -/
theorem getLsbD_fourBytes (f : Nat → Byte) {j : Nat} (hj : j < 32) : (f 3 ++ f 2 ++ f 1 ++ f 0).getLsbD j = (f (j / 8)).getLsbD (j % 8) := by
  simp only [BitVec.getLsbD_append]
  obtain h | h | h | h : j / 8 = 0 ∨ j / 8 = 1 ∨ j / 8 = 2 ∨ j / 8 = 3 := by omega
  · rw [h, if_pos (by omega), show j % 8 = j by omega]
  · rw [h, if_neg (by omega), if_pos (by omega), show j % 8 = j - 8 by omega]
  · rw [h, if_neg (by omega), if_neg (by omega), if_pos (by omega), show j % 8 = j - 8 - 8 by omega]
  · rw [h, if_neg (by omega), if_neg (by omega), if_neg (by omega), show j % 8 = j - 8 - 8 - 8 by omega]

/-- Byte `k` of the pool: one of the first word's, or of the second's. -/
theorem poolByte_eq (a c : W32) {k : Nat} (hk : k < 8) : (pair a c).extractLsb' (8 * k) 8 =
    BitVec.setWidth 8 (if k < 4 then a >>> (8 * k) else c >>> (8 * (k - 4))) := by
  ext j hj
  rw [← BitVec.getLsbD_eq_getElem, ← BitVec.getLsbD_eq_getElem, BitVec.getLsbD_extractLsb', getLsbD_pair, BitVec.getLsbD_setWidth]
  split
  · next h => rw [if_pos (by omega), BitVec.getLsbD_ushiftRight]
  · next h =>
    rw [if_neg (by omega), BitVec.getLsbD_ushiftRight]
    congr 2
    omega

/-- Bit `i` of what control `k` makes of a byte of the pool: the byte, all zeros, its sign, all ones. -/
def pickedBit (v : Byte) (k i : Nat) : Bool :=
  match k with
  | 0 => v.getLsbD i
  | 1 => false
  | 2 => v.getLsbD 7
  | _ => true

theorem getLsbD_prmtByte (pool : W64) (c : Byte) {i : Nat} (hi : i < 8) :
    (prmtByte pool c).getLsbD i = pickedBit (pool.extractLsb' (8 * (c.toNat % 8)) 8) (c.toNat / 8 % 4) i := by
  have hff : (0xFF : Byte).getLsbD i = true := by
    have : ∀ i : Fin 8, (0xFF : Byte).getLsbD i = true := by decide
    exact this ⟨i, hi⟩
  have h00 : (0x00 : Byte).getLsbD i = false := BitVec.getLsbD_zero
  unfold prmtByte pickedBit
  generalize pool.extractLsb' (8 * (c.toNat % 8)) 8 = v
  match c.toNat / 8 % 4 with
  | 0 => rfl
  | 1 => exact h00
  | 2 =>
    dsimp only
    rw [BitVec.msb_eq_getLsbD_last]
    cases h : v.getLsbD 7
    · exact h00
    · exact hff
  | _ + 3 => exact hff

/-- Each bit of a word of picked bytes. -/
theorem getLsbD_prmt (a b c : W32) {j : Nat} (hj : j < 32) :
    (prmt a b c).getLsbD j =
      let k := b.toNat / 2 ^ (8 * (j / 8))
      pickedBit (BitVec.setWidth 8 (if k % 8 < 4 then a >>> (8 * (k % 8)) else c >>> (8 * (k % 8 - 4)))) (k / 8 % 4) (j % 8) := by
  have hc : (b.extractLsb' (8 * (j / 8)) 8).toNat = b.toNat / 2 ^ (8 * (j / 8)) % 256 := by
    rw [BitVec.extractLsb'_toNat, Nat.shiftRight_eq_div_pow]
  have hcode : ∀ q, q % 256 / 8 % 4 = q / 8 % 4 := by omega
  rw [prmt, getLsbD_fourBytes (fun i => prmtByte (pair a c) (b.extractLsb' (8 * i) 8)) hj, getLsbD_prmtByte _ _ (Nat.mod_lt _ (by decide)), hc,
    poolByte_eq _ _ (Nat.mod_lt _ (by decide)), Nat.mod_mod_of_dvd _ (by decide), hcode]

theorem fieldsAndBytes : Claims.FieldsAndBytes := by
  intro s m d a b
  refine ⟨lane32_bits (i := .bfx m d a b) rfl fun l j hj => ?_, lane32_bits (i := .bfi m d a b) rfl fun l j hj => ?_,
    lane32_bits (i := .prmt m d a b) rfl fun l j hj => getLsbD_prmt _ _ _ hj, fun f hf => nameBase_of_maj_15 m hf⟩
  · rw [getLsbD_bfx _ _ hj, fieldLen_eq, fieldStart_eq]
  · rw [getLsbD_bfi _ _ _ hj, fieldLen_eq, fieldStart_eq]; rfl

/-- Settles O3: shifts by `getLsbD_shiftOp` and `getLsbD_ringWindow`, fields and bytes by the bits of `bfx`, `bfi` and `prmt`. -/
theorem shiftsAndBytes : Obligations.ShiftsAndBytes := ⟨shiftedBits, fieldsAndBytes⟩

end Sys2Proof
end

