-- ==== Sys2Proof/Proofs/ResetAndWords.lean ====
section
/-! SUPPORT. Proofs about the state after reset and about words written out from the encoding tables. -/

namespace Sys2Proof

open Machine

/-- Settles O55: every field of the state after reset is written out in `State.reset` and `Pkg.init`. -/
theorem resetState : Obligations.ResetState :=
  ⟨⟨rfl, rfl, rfl⟩, ⟨rfl, rfl, rfl, rfl, rfl⟩, ⟨rfl, rfl, rfl, rfl⟩, ⟨rfl, rfl, fun _ => rfl⟩, fun _ => ⟨rfl, rfl⟩, ⟨rfl, rfl, rfl⟩,
    rfl, rfl, rfl, fun _ => rfl, Memory.wf_nil⟩

/-- Settles O57: the decoder is run on each of the words. -/
theorem wordsDecode : Obligations.WordsDecode := by
  refine ⟨?_, ?_, ?_, ?_, ?_, ?_, ?_, ?_, ?_, ?_, ?_, ?_, ?_⟩ <;> decide

end Sys2Proof
end

