-- ==== Sys2Proof/Proofs/IntegerSums.lean ====
section
/-! SUPPORT. Proofs about sums, products and dot products: exact numbers reduced to the width of the destination, or clamped. -/

namespace Sys2Proof

open Machine

/-! ### Shapes whose value is an exact number, reduced -/

theorem lane32_putsS32 {i : Instr} {s : State} {m : Mods} {d : Reg} {f : Nat → W32} {g : Nat → Int}
    (h : exec i s = lane32 s m latI d f) (hv : ∀ l, f l = BitVec.ofInt 32 (g l)) : PutsType i s m (inTwo s) .s32 d g :=
  (lane32_computes h).congr fun l => congrArg (to32 d) (hv l)
theorem lane32_putsZ32 {i : Instr} {s : State} {m : Mods} {d : Reg} {f : Nat → W32} {g : Nat → Int}
    (h : exec i s = lane32 s m latI d f) (hv : ∀ l, f l = BitVec.ofInt 32 (g l)) : PutsType i s m (inTwo s) .z32 d g :=
  lane32_putsS32 h hv
theorem lane64_putsS64 {i : Instr} {s : State} {m : Mods} {d : Reg} {f : Nat → W64} {g : Nat → Int}
    (h : exec i s = lane64 s m latI d f) (hv : ∀ l, f l = BitVec.ofInt 64 (g l)) : PutsType i s m (inTwo s) .s64 d g :=
  (lane64_computes h).congr fun l => congrArg (to64 d) (hv l)

/-! ### Clamping (R122, R128) -/

theorem satS32_eq (x : Int) : satS32 x = BitVec.ofInt 32 (nearestIn (-2 ^ 31) (2 ^ 31 - 1) x) := by
  unfold satS32 nearestIn
  split
  · next h => rw [min_eq_left (by omega), max_eq_left (by omega)]; rfl
  · split
    · next h => rw [min_eq_right (by omega), max_eq_right (by omega)]; rfl
    · rw [min_eq_left (by omega), max_eq_right (by omega)]
theorem satZ32_eq (x : Int) : satZ32 x = BitVec.ofInt 32 (nearestIn 0 (2 ^ 32 - 1) x) := by
  unfold satZ32 nearestIn
  split
  · next h => rw [min_eq_left (by omega), max_eq_left (by omega)]; rfl
  · split
    · next h => rw [min_eq_right (by omega), max_eq_right (by omega)]; rfl
    · rw [min_eq_left (by omega), max_eq_right (by omega)]
theorem wrapOrSat_eq (m : Mods) (x : Int) :
    wrapOrSat m x = BitVec.ofInt 32 (if m.sat then nearestIn (-2 ^ 31) (2 ^ 31 - 1) x else x) := by
  unfold wrapOrSat
  split
  · exact satS32_eq x
  · rfl

/-! ### Exact results of words -/

theorem add_eq_ofInt {w : Nat} (x y : BitVec w) : x + y = BitVec.ofInt w (x.toInt + y.toInt) := by
  rw [BitVec.ofInt_add, BitVec.ofInt_toInt, BitVec.ofInt_toInt]
theorem mul_eq_ofInt {w : Nat} (x y : BitVec w) : x * y = BitVec.ofInt w (x.toInt * y.toInt) := by
  rw [BitVec.ofInt_mul, BitVec.ofInt_toInt, BitVec.ofInt_toInt]
theorem sub_eq_ofInt {w : Nat} (x y : BitVec w) : x - y = BitVec.ofInt w (x.toInt - y.toInt) := by
  rw [Int.sub_eq_add_neg, BitVec.ofInt_add, BitVec.ofInt_neg, BitVec.ofInt_toInt, BitVec.ofInt_toInt, BitVec.sub_eq_add_neg]

/-- The 64-bit product of two words extended by their sign or by zeros is their exact product. -/
theorem wideMul_eq_ofInt (sg : Bool) (x y : W32) :
    (if sg then x.signExtend 64 * y.signExtend 64 else x.setWidth 64 * y.setWidth 64) =
      BitVec.ofInt 64 ((if sg then x.toInt else x.toNat) * (if sg then y.toInt else y.toNat)) := by
  cases sg
  · have h : ∀ v : W32, BitVec.ofInt 64 (v.toNat : Int) = v.setWidth 64 := fun v => BitVec.eq_of_toNat_eq (by simp)
    simp only [Bool.false_eq_true, if_false, BitVec.ofInt_mul, h]
  · simp only [if_true, BitVec.ofInt_mul]
    rfl

/-- The dot product of four bytes is the sum that R128 writes. -/
theorem dot4_eq (p : DpType) (q a e : W32) :
    dot4 p q a e = (if p != .z8 then q.toInt else (q.toNat : Int)) +
      ((List.range 4).map (fun i =>
        (if p != .z8 then (BitVec.setWidth 8 (a >>> (8 * i))).toInt else ((BitVec.setWidth 8 (a >>> (8 * i))).toNat : Int)) *
        (if p == .s8 then (BitVec.setWidth 8 (e >>> (8 * i))).toInt else ((BitVec.setWidth 8 (e >>> (8 * i))).toNat : Int)))).sum := by
  have hb : ∀ (sg : Bool) (x : W32) (i : Nat), byteOf sg x i =
      if sg then (BitVec.setWidth 8 (x >>> (8 * i))).toInt else ((BitVec.setWidth 8 (x >>> (8 * i))).toNat : Int) := by
    intro sg x i
    have : x.extractLsb' (8 * i) 8 = BitVec.setWidth 8 (x >>> (8 * i)) := BitVec.eq_of_toNat_eq (by simp)
    rw [byteOf, this]
  simp only [dot4, hb, List.range, List.range.loop, List.map_cons, List.map_nil, List.sum_cons, List.sum_nil]
  ring

/-! ### The statements -/

theorem sumsAndProducts : Claims.SumsAndProducts := by
  intro s m d a b n
  exact ⟨lane32_putsS32 (i := .iadd m d a b) rfl fun _ => wrapOrSat_eq _ _,
    lane32_putsS32 (i := .isub m d a b) rfl fun _ => wrapOrSat_eq _ _,
    lane32_putsS32 (i := .iaddi m d a n) rfl fun _ => wrapOrSat_eq _ _,
    lane32_putsS32 (i := .imul m d a b) rfl fun _ => mul_eq_ofInt _ _,
    lane32_putsS32 (i := .imad m d a b) rfl fun _ => wrapOrSat_eq _ _,
    lane64_putsS64 (i := .iaddB64 m d a) rfl fun _ => add_eq_ofInt _ _,
    lane64_putsS64 (i := .isubB64 m d a) rfl fun _ => sub_eq_ofInt _ _,
    lane64_putsS64 (i := .imulB64 m d a) rfl fun _ => mul_eq_ofInt _ _⟩

theorem wideProducts : Claims.WideProducts := by
  intro s m t p sg d a
  refine ⟨?_, ?_, ?_⟩
  · have h := twoT_putsType (s := s) (show exec (.imulh m t d a) s = twoT s m latI t d a (fun x y => x * y / 2 ^ IType.bits t) from rfl)
    cases t <;> exact h
  · refine lane64_putsS64 (i := .imadw m sg d a) (show exec _ s = lane64 s m latI d _ from rfl) fun l => ?_
    dsimp only
    rw [wideMul_eq_ofInt, BitVec.ofInt_add, show operand s .s64 l d = (s.src64 s.cur.wid l d).toInt from rfl, BitVec.ofInt_toInt]
    rfl
  · refine lane32_putsS32 (i := .dp4 m p d a) (show exec _ s = lane32 s m latI d _ from rfl) fun l => ?_
    dsimp only
    rw [dot4_eq, satS32_eq, satZ32_eq]
    split
    · split <;> rfl
    · rfl

/-- Settles O4: each result is the exact number of `add_eq_ofInt`, `mul_eq_ofInt`, `wideMul_eq_ofInt` or `dot4_eq`, clamped by `wrapOrSat_eq`. -/
theorem integerSums : Obligations.IntegerSums := ⟨sumsAndProducts, wideProducts⟩

end Sys2Proof
end

