-- ==== Sys2Proof/Proofs/LogicAndCounts.lean ====
section
/-! SUPPORT. Proofs about sign, minimum, maximum and clamp, and about logic and counts: the bits of each word and the places of its ones. -/

namespace Sys2Proof

open Machine

/-! ### Choices by order (R127) -/

/-- The shape of an instruction over a type whose value is an exact number, reduced to the width of the type. -/
theorem laneN_putsType {i : Instr} {s : State} {m : Mods} {lat : Machine.Lat} {t : IType} {d : Reg} {g : Nat → Int}
    (h : exec i s = laneN s m lat t.words d (fun l => BitVec.ofInt 64 (g l))) : PutsType i s m (lat.due s.clock) t d g := by
  cases t
  case s32 | z32 => exact (laneN_one h).congr fun l => congrArg (to32 d) (setWidth_ofInt_64_32 _)
  case s64 | z64 => exact laneN_two h

/-- The shape of a one-operand instruction on a signed register or pair. -/
theorem one64_putsType {i : Instr} {s : State} {m : Mods} {w : Bool} {d a : Reg} {f : Int → Int}
    (h : exec i s = one64 s m w d a f) :
    PutsType i s m (inTwo s) (if w then .s64 else .s32) d (fun l => f (operand s (if w then .s64 else .s32) l a)) := by
  cases w
  case true => exact laneN_two h
  case false =>
    refine (laneN_one h).congr fun l => congrArg (to32 d) ((setWidth_ofInt_64_32 _).trans ?_)
    exact congrArg (fun x => BitVec.ofInt 32 (f x)) (val_srcN s .s32 l a)

theorem absT_eq (x : Int) : absT x = |x| := by
  unfold absT
  split
  · next h => exact (abs_of_neg h).symm
  · next h => exact (abs_of_nonneg (Int.not_lt.1 h)).symm

theorem orderedChoices : Claims.OrderedChoices := by
  intro s m t w d a
  refine ⟨?_, one64_putsType (i := .ineg m w d a) (f := fun x => -x) rfl,
    ⟨_, twoT_putsType (i := .imin m t d a) (f := fun x y => min x y) rfl, fun l => ⟨min_le_left _ _, min_le_right _ _, min_choice _ _⟩⟩,
    ⟨_, twoT_putsType (i := .imax m t d a) (f := fun x y => max x y) rfl, fun l => ⟨le_max_left _ _, le_max_right _ _, max_choice _ _⟩⟩,
    ⟨_, laneN_putsType (i := .iclamp m t d a) (t := t) (lat := latI)
      (g := fun l => min (max (operand s t l d) (operand s t l a)) (operand s t l (m.eReg.getD 120))) ?_, fun l => ⟨fun h => ?_, fun h => ?_⟩⟩⟩
  · simp only [← absT_eq]
    exact one64_putsType (i := .iabs m w d a) (f := absT) rfl
  · simp only [← val_srcN]
    rfl
  · exact min_eq_right (le_trans (le_of_lt h) (le_max_right _ _))
  · dsimp only [nearestIn]
    omega

/-! ### Words given by their bits -/

theorem ofBits_succ (n : Nat) (f : Nat → Bool) : ofBits (n + 1) f = ofBits n f + (f n).toNat * 2 ^ n := by
  rw [ofBits, ofBits, List.range_succ, List.foldl_append]
  rfl
theorem ofBits_lt (n : Nat) (f : Nat → Bool) : ofBits n f < 2 ^ n := by
  induction n with
  | zero => exact Nat.one_pos
  | succ n ih =>
    rw [ofBits_succ, Nat.pow_succ]
    have : (f n).toNat * 2 ^ n ≤ 1 * 2 ^ n := Nat.mul_le_mul_right _ (f n).toNat_le
    omega
theorem testBit_ofBits (n : Nat) (f : Nat → Bool) {j : Nat} (hj : j < n) : (ofBits n f).testBit j = f j := by
  induction n with
  | zero => exact absurd hj (Nat.not_lt_zero j)
  | succ n ih =>
    rw [ofBits_succ, Nat.add_comm, Nat.mul_comm, Nat.testBit_two_pow_mul_add _ (ofBits_lt n f)]
    split
    · next h => exact ih h
    · next h =>
      obtain rfl : j = n := by omega
      rw [Nat.sub_self]
      cases f j <;> rfl
theorem getLsbD_ofBits {w n : Nat} (f : Nat → Bool) {j : Nat} (hn : j < n) (hw : j < w) : (BitVec.ofNat w (ofBits n f)).getLsbD j = f j := by
  rw [BitVec.getLsbD_ofNat, testBit_ofBits n f hn, decide_eq_true hw, Bool.true_and]

/-! ### Logic (R131, R132) -/

/-- A bit of an eight-entry table that lies at place `k` of a literal. -/
theorem tableBit_extract (x : BitVec 29) (k : Nat) (a b c : Bool) :
    tableBit (x.extractLsb' k 8) a b c = x.getLsbD (k + (a.toNat + 2 * b.toNat + 4 * c.toNat)) := by
  have ha := a.toNat_le
  have hb := b.toNat_le
  have hc := c.toNat_le
  rw [tableBit, BitVec.getLsbD_extractLsb', decide_eq_true (by omega), Bool.true_and]

theorem logicBits : Claims.LogicBits := by
  intro s m d a b
  refine ⟨lane32_bits (i := .andB32 m d a b) rfl fun _ _ _ => BitVec.getLsbD_and, lane32_bits (i := .orB32 m d a b) rfl fun _ _ _ => BitVec.getLsbD_or,
    lane32_bits (i := .xorB32 m d a b) rfl fun _ _ _ => BitVec.getLsbD_xor, lane64_bits (i := .andB64 m d a) rfl fun _ _ _ => BitVec.getLsbD_and,
    lane64_bits (i := .orB64 m d a) rfl fun _ _ _ => BitVec.getLsbD_or, lane64_bits (i := .xorB64 m d a) rfl fun _ _ _ => BitVec.getLsbD_xor,
    lane32_bits (i := .lop3 m d a b) (show exec _ s = lane32 s m latI d _ from rfl) fun l j hj => ?_⟩
  rw [lop3, getLsbD_ofBits _ hj hj, tableBit_extract]
  rfl

/-! ### Counts (R133) -/

/-- The first place below `n` where a test holds, `n` where there is none. -/
theorem firstPlace_spec (n : Nat) (p : Nat → Bool) :
    ((List.range n).find? p).getD n ≤ n ∧ (∀ j, j < ((List.range n).find? p).getD n → p j = false) ∧
    (((List.range n).find? p).getD n < n → p (((List.range n).find? p).getD n) = true) := by
  cases h : (List.range n).find? p with
  | none =>
    rw [List.find?_range_eq_none] at h
    exact ⟨Nat.le_refl n, fun j hj => by simpa using h j hj, fun hn => absurd hn (Nat.lt_irrefl n)⟩
  | some v =>
    rw [List.find?_range_eq_some] at h
    obtain ⟨hv, hm, hb⟩ := h
    exact ⟨Nat.le_of_lt (List.mem_range.1 hm), fun j hj => by simpa using hb j hj, fun _ => hv⟩

/-- The bits of a register or pair operand. -/
def operandBit (s : State) (w : Bool) (l : Nat) (a : Reg) : Nat → Bool :=
  if w then (s.src64 s.cur.wid l a).getLsbD else (s.src s.cur.wid l a).getLsbD

theorem getLsbD_srcN (s : State) (w : Bool) (l : Nat) (a : Reg) {j : Nat} (hj : j < width w) :
    (s.srcN s.cur.wid l (words w) a).getLsbD j = operandBit s w l a j := by
  cases w
  case true => rfl
  case false =>
    show ((s.src s.cur.wid l a).setWidth 64).getLsbD j = _
    rw [BitVec.getLsbD_setWidth, decide_eq_true (Nat.lt_of_lt_of_le hj (by decide)), Bool.true_and]
    rfl

theorem popcN_eq (n : Nat) (x : W64) : popcN n x = ((Finset.range n).filter (fun j => x.getLsbD j = true)).card := by
  show _ = ((List.range n).filter (fun j => decide (x.getLsbD j = true))).length
  simp only [popcN, Bool.decide_eq_true]

theorem countedBits : Claims.CountedBits := by
  intro s m w d a
  have hpos : 0 < width w := by cases w <;> decide
  have hbit : ∀ l j, j < width w → (s.srcN s.cur.wid l (words w) a).getLsbD j = operandBit s w l a j := fun l j hj => getLsbD_srcN s w l a hj
  refine ⟨?_, ?_, ?_, ?_⟩
  · refine (lane32_computes (i := .popc m w d a) rfl).congr fun l => congrArg (fun v => to32 d (BitVec.ofNat 32 v)) ?_
    rw [popcN_eq]
    exact congrArg Finset.card (Finset.filter_congr fun j hj => by rw [hbit l j (Finset.mem_range.1 hj)]; rfl)
  · refine ⟨_, lane32_computes (i := .clz m w d a) rfl, fun l => ?_⟩
    obtain ⟨h1, h2, h3⟩ := firstPlace_spec (width w) (fun i => (s.srcN s.cur.wid l (words w) a).getLsbD (width w - 1 - i))
    refine ⟨h1, fun j hj => ?_, fun hv => ?_⟩
    · exact (hbit l (width w - 1 - j) (by omega)).symm.trans (h2 j hj)
    · exact (hbit l (width w - 1 - _) (by omega)).symm.trans (h3 hv)
  · refine ⟨_, lane32_computes (i := .ctz m w d a) rfl, fun l => ?_⟩
    obtain ⟨h1, h2, h3⟩ := firstPlace_spec (width w) (fun i => (s.srcN s.cur.wid l (words w) a).getLsbD i)
    exact ⟨h1, fun j hj => (hbit l j (Nat.lt_of_lt_of_le hj h1)).symm.trans (h2 j hj), fun hv => (hbit l _ hv).symm.trans (h3 hv)⟩
  · cases w
    case true =>
      exact ⟨_, fun l j hj => getLsbD_ofBits _ hj hj, laneN_two (i := .brev m true d a) rfl⟩
    case false =>
      refine ⟨_, fun l j hj => ?_, laneN_one (i := .brev m false d a) rfl⟩
      dsimp only
      rw [BitVec.getLsbD_setWidth, decide_eq_true hj, Bool.true_and, brevN, getLsbD_ofBits (n := width false) _ hj (by omega)]
      exact hbit l _ (by show 32 - 1 - j < 32; omega)

/-- Settles O5: choices by the order of Lean's integers, words by `testBit_ofBits`, places of ones by `firstPlace_spec`. -/
theorem choicesAndLogic : Obligations.ChoicesAndLogic := ⟨orderedChoices, logicBits, countedBits⟩

end Sys2Proof
end

