-- ==== Sys2Proof/Proofs/MovesAndPredicates.lean ====
section
/-! SUPPORT. Proofs about moves, addresses, comparisons and predicate functions. -/

namespace Sys2Proof

open Machine

/-! ### Constants and addresses (R136, R137) -/

theorem append_eq_ofInt {n w : Nat} (x : BitVec w) (i : BitVec n) : x ++ i = BitVec.ofInt (w + n) ((x.toNat : Int) * 2 ^ n + i.toNat) := by
  apply BitVec.eq_of_toNat_eq
  have h : (x.toNat : Int) * 2 ^ n + i.toNat = ((x ++ i).toNat : Int) := by
    rw [BitVec.toNat_append, ← Nat.shiftLeft_add_eq_or_of_lt i.isLt, Nat.shiftLeft_eq]
    push_cast
    rfl
  rw [h, BitVec.ofInt_natCast, BitVec.ofNat_toNat, BitVec.setWidth_eq]

/-- The literal and immediate of `movl` make a word, the literal's high bits beyond it. -/
theorem movl_eq (x : BitVec 29) (i : BitVec 14) : x.setWidth 18 ++ i = BitVec.ofInt 32 ((x.toNat : Int) * 2 ^ 14 + i.toNat) := by
  rw [append_eq_ofInt, BitVec.toNat_setWidth]
  apply BitVec.eq_of_toNat_eq
  rw [BitVec.toNat_ofInt, BitVec.toNat_ofInt]
  omega

/-- A word shifted left is its number times the power of two. -/
theorem shiftLeft_eq_ofInt (x : W64) {z : Int} (h : x = BitVec.ofInt 64 z) (k : Nat) : x <<< k = BitVec.ofInt 64 (z * 2 ^ k) := by
  rw [BitVec.shiftLeft_eq_mul_twoPow, BitVec.ofInt_mul, ← h]
  congr 1
  rw [show ((2 : Int) ^ k) = ((2 ^ k : Nat) : Int) by push_cast; rfl, BitVec.ofInt_natCast]
  exact BitVec.eq_of_toNat_eq (by rw [BitVec.toNat_twoPow, BitVec.toNat_ofNat])
theorem setWidth_eq_ofInt (x : W32) : x.setWidth 64 = BitVec.ofInt 64 (x.toNat : Int) :=
  BitVec.eq_of_toNat_eq (by simp)

theorem movesAndAddresses : Claims.MovesAndAddresses := by
  intro s m w d a b i
  refine ⟨?_, lane32_putsS32 (i := .movi m d i) (show exec _ s = lane32 s m latI d _ from rfl) fun _ => rfl,
    lane32_putsZ32 (i := .movl m d i) (show exec _ s = lane32 s m latI d _ from rfl) fun _ => movl_eq _ _,
    lane32_putsZ32 (i := .movh m d i) (show exec _ s = lane32 s m latI d _ from rfl) fun _ => (append_eq_ofInt i 0#18).trans ?_,
    lane32_computes (i := .sel m d a b) rfl,
    lane64_putsS64 (i := .lea m d a b) (show exec _ s = lane64 s m latI d _ from rfl) fun l => ?_⟩
  · cases w
    case true => exact laneN_two (i := .mov m true d a) rfl
    case false =>
      refine (laneN_one (i := .mov m false d a) rfl).congr fun l => congrArg (to32 d) ?_
      exact BitVec.setWidth_setWidth_of_le _ (by decide) |>.trans (BitVec.setWidth_eq _)
  · rw [show ((0#18).toNat : Int) = 0 from rfl, add_zero]
  · have hx : (if m.litBits.getLsbD 3 then (s.src s.cur.wid l b).setWidth 64 else (s.src s.cur.wid l b).signExtend 64) =
        BitVec.ofInt 64 (if m.litBits.getLsbD 3 then ((s.src s.cur.wid l b).toNat : Int) else (s.src s.cur.wid l b).toInt) := by
      split
      · exact setWidth_eq_ofInt _
      · rfl
    dsimp only
    rw [shiftLeft_eq_ofInt _ hx, BitVec.ofInt_add, show operand s .s64 l a = (s.src64 s.cur.wid l a).toInt from rfl, BitVec.ofInt_toInt]
    rfl

/-! ### Comparisons (R138) -/

/-- The two operands of a comparison, as it compares them. -/
def cmpA (s : State) (w : Bool) (l : Nat) (a : Reg) : W64 := if w then s.src64 s.cur.wid l a else (s.src s.cur.wid l a).signExtend 64
def cmpB (s : State) (m : Mods) (w : Bool) (l : Nat) (b : Reg) : W64 :=
  if w then s.srcB64 s.cur.wid l m b else (s.srcB s.cur.wid l m b).signExtend 64

theorem icmp_puts {i : Instr} {s : State} {m : Mods} {w : Bool} {p : BitVec 6} {a b : Reg} {f : W64 → W64 → Bool} {g : Nat → Bool}
    (h : exec i s = icmp s m w p a b f) (hv : ∀ l, f (cmpA s w l a) (cmpB s m w l b) = g l) : PutsP i s m (p.setWidth 7) g := by
  refine (laneP_computes h).congr fun l => congrArg (toP (p.setWidth 7)) (Eq.trans ?_ (hv l))
  unfold cmpA cmpB
  cases w <;> rfl

theorem toInt_signExtend_32 (x : W32) : (x.signExtend 64).toInt = x.toInt := BitVec.toInt_signExtend_of_le (by decide)
theorem cmpA_toInt (s : State) (w : Bool) (l : Nat) (a : Reg) : (cmpA s w l a).toInt = operand s (if w then .s64 else .s32) l a := by
  cases w
  case true => rfl
  case false => exact toInt_signExtend_32 _
theorem cmpB_toInt (s : State) (m : Mods) (w : Bool) (l : Nat) (b : Reg) :
    (cmpB s m w l b).toInt = match m.lit with | some i => i.toInt | none => operand s (if w then .s64 else .s32) l b := by
  unfold cmpB State.srcB64 State.srcB
  cases m.lit with
  | none => exact cmpA_toInt s w l b
  | some x =>
    cases w
    case true => exact BitVec.toInt_signExtend_of_le (by decide)
    case false => exact (toInt_signExtend_32 _).trans (BitVec.toInt_signExtend_of_le (by decide))

theorem beq_eq_decide_toInt {w : Nat} (x y : BitVec w) : (x == y) = decide (x.toInt = y.toInt) :=
  (beq_eq_decide x y).trans (decide_eq_decide.2 BitVec.toInt_inj.symm)
/-- Two words extended by their signs keep their unsigned order. -/
theorem ult_signExtend (x y : W32) : (x.signExtend 64).ult (y.signExtend 64) = decide (x.toNat < y.toNat) := by
  have hx := x.isLt
  have hy := y.isLt
  rw [BitVec.ult, BitVec.toNat_signExtend, BitVec.toNat_signExtend, BitVec.msb_eq_decide, BitVec.msb_eq_decide, BitVec.toNat_setWidth,
    BitVec.toNat_setWidth]
  apply decide_eq_decide.2
  by_cases h1 : 2 ^ (32 - 1) ≤ x.toNat <;> by_cases h2 : 2 ^ (32 - 1) ≤ y.toNat <;> simp only [h1, h2, decide_true, decide_false, if_true, Bool.false_eq_true, if_false] <;> omega
/-- The unsigned order of a comparison's operands is that of the numbers they stand for. -/
theorem cmp_ult (s : State) (m : Mods) (w : Bool) (l : Nat) (a b : Reg) :
    (cmpA s w l a).ult (cmpB s m w l b) = decide (operand s (if w then .z64 else .z32) l a < match m.lit with
      | some i => (if w then ((i.signExtend 64).toNat : Int) else (i.signExtend 32).toNat) | none => operand s (if w then .z64 else .z32) l b) := by
  have hlt : ∀ {n : Nat} (x y : BitVec n), decide (x.toNat < y.toNat) = decide ((x.toNat : Int) < y.toNat) :=
    fun x y => decide_eq_decide.2 Int.ofNat_lt.symm
  unfold cmpA cmpB State.srcB64 State.srcB
  cases w
  case true => cases m.lit <;> exact hlt _ _
  case false => cases m.lit <;> exact (ult_signExtend _ _).trans (hlt _ _)

/-! ### Predicates (R139) -/

/-- Predicate `j` of group `k` is p0 only where its number is 0. -/
theorem predOfGroup_eq_zero (k : BitVec 2) {j : Nat} (hj : j < 32) : BitVec.ofNat 7 (32 * k.toNat + j) = 0 ↔ 32 * k.toNat + j = 0 := by
  have hk := k.isLt
  refine ⟨fun h => ?_, fun h => by rw [h]; rfl⟩
  have := congrArg BitVec.toNat h
  rw [BitVec.toNat_ofNat, Nat.mod_eq_of_lt (by omega)] at this
  exact this

theorem mem_preds (k : BitVec 2) (r : Dst) :
    r ∈ (Opnd.preds k).cells ↔ ∃ j, j < 32 ∧ 32 * k.toNat + j ≠ 0 ∧ r = .p (BitVec.ofNat 7 (32 * k.toNat + j)) := by
  simp only [Opnd.cells, List.mem_filter, List.mem_map, List.mem_range, bne_iff_ne]
  constructor
  · rintro ⟨⟨j, hj, rfl⟩, h0⟩
    exact ⟨j, hj, fun h => h0 (congrArg Dst.p ((predOfGroup_eq_zero k hj).2 h)), rfl⟩
  · rintro ⟨j, hj, h0, rfl⟩
    exact ⟨⟨j, hj, rfl⟩, fun h => h0 ((predOfGroup_eq_zero k hj).1 (Dst.p.inj h))⟩

theorem mem_predOuts (k : BitVec 2) (x : W32) (r : Dst) (u : W32) : (r, u) ∈ predOuts k x ↔
    ∃ j, j < 32 ∧ 32 * k.toNat + j ≠ 0 ∧ r = .p (BitVec.ofNat 7 (32 * k.toNat + j)) ∧ u = if x.getLsbD j then 1 else 0 := by
  have hk := k.isLt
  have hval : ∀ j, j < 32 → (BitVec.ofBool (x.getLsbD ((BitVec.ofNat 7 (32 * k.toNat + j)).toNat % 32))).setWidth 32 =
      if x.getLsbD j then 1 else 0 := by
    intro j hj
    rw [BitVec.toNat_ofNat, Nat.mod_eq_of_lt (by omega : 32 * k.toNat + j < 2 ^ 7), Nat.mul_add_mod, Nat.mod_eq_of_lt hj]
    cases x.getLsbD j <;> rfl
  simp only [predOuts, List.mem_map, mem_preds]
  constructor
  · rintro ⟨_, ⟨j, hj, h0, rfl⟩, h⟩
    obtain ⟨rfl, rfl⟩ := Prod.mk.inj h
    exact ⟨j, hj, h0, rfl, hval j hj⟩
  · rintro ⟨j, hj, h0, rfl, rfl⟩
    exact ⟨_, ⟨j, hj, h0, rfl⟩, Prod.ext rfl (hval j hj)⟩

/-- Results on their way to p0 are dropped as they land. -/
theorem landGo_p0 (due : Pend → Bool) (es kept : List Pend) (x : Lane) (he : ∀ e ∈ es, due e = true → e.dst = .p 0) (hk : ∀ e ∈ kept, due e = false) :
    (landGo due es kept x).p = x.p ∧ (landGo due es kept x).g = x.g ∧ ∀ e ∈ (landGo due es kept x).pend, due e = false := by
  induction es generalizing kept x with
  | nil => exact ⟨rfl, rfl, hk⟩
  | cons e es ih =>
    have htail := fun y hy => he y (List.mem_cons_of_mem e hy)
    rw [landGo]
    split
    · next h =>
      have hw : x.write e.dst e.val = x := by rw [he e (List.mem_cons_self ..) h]; rfl
      rw [hw]
      exact ih _ _ htail fun y hy => hk y (List.mem_filter.1 hy).1
    · next h =>
      refine ih _ _ htail fun y hy => ?_
      rcases List.mem_append.1 hy with hy | hy
      · exact hk y hy
      · rw [List.mem_singleton.1 hy]
        exact Bool.eq_false_iff.2 h

theorem predicateResults : Claims.PredicateResults := by
  intro s m w v p k d a b
  refine ⟨icmp_puts (i := .icmpEq m w p a b) rfl fun l => ?_, icmp_puts (i := .icmpNe m w p a b) rfl fun l => ?_,
    icmp_puts (i := .icmpLtS m w p a b) rfl fun l => ?_, icmp_puts (i := .icmpLtZ m w p a b) rfl fun l => cmp_ult s m w l a b,
    laneP_computes (i := .pmov m d a) rfl, laneP_computes (i := .pset m d v) rfl,
    (laneP_computes (i := .plop3 m d a) rfl).congr fun l => congrArg (toP d) ?_,
    lane32_bits (i := .p2g m d k) rfl fun l j hj => getLsbD_ofBits _ hj hj,
    ⟨_, _, perLane_computes (i := .g2p m k a) rfl, fun r => mem_preds k r, fun l r u => mem_predOuts k _ r u⟩,
    fun x => ⟨rfl, fun due h => landGo_p0 due x.pend [] x h (by simp)⟩⟩
  · refine (beq_eq_decide_toInt _ _).trans (decide_eq_decide.2 ?_)
    rw [cmpA_toInt, cmpB_toInt] <;> rfl
  · refine (congrArg not (beq_eq_decide_toInt _ _)).trans ((decide_not).symm.trans (decide_eq_decide.2 ?_))
    rw [cmpA_toInt, cmpB_toInt] <;> rfl
  · refine decide_eq_decide.2 ?_
    rw [cmpA_toInt, cmpB_toInt] <;> rfl
  · have hc2 : litC2 m = BitVec.setWidth 7 (m.litBits >>> 7) := BitVec.eq_of_toNat_eq (by simp [litC2])
    dsimp only
    rw [tableBit_extract, hc2]
    rfl

/-- Settles O6: moves and addresses by exact numbers, comparisons by the numbers `cmpA` and `cmpB` stand for, predicates one by one. -/
theorem movesAndPredicates : Obligations.MovesAndPredicates := ⟨movesAndAddresses, predicateResults⟩

end Sys2Proof
end

