-- ==== Sys2Proof/Proofs/KeepsAccesses.lean ====
section
/-! SUPPORT. Every operation on lanes, waves and accesses keeps memory in its canonical form (R270 to R281). `Answers s o`: the outcome is a next state, canonical where `s` is. -/

namespace Sys2Proof
open Machine

/-- The outcome is a next state, canonical where `s` is. -/
def Answers (s : State) (o : Out) : Prop := ∃ t, o = .next t ∧ (Canonical s → Canonical t)
theorem Answers.next {s t : State} (h : Canonical s → Canonical t) : Answers s (.next t) := ⟨t, rfl, h⟩
/-- The state is canonical if there is one. -/
structure EachCanonical (o : Option State) : Prop where
  get : ∀ t, o = some t → Canonical t
theorem eachCanonical_none : EachCanonical none := ⟨nofun⟩
theorem eachCanonical_some {t : State} (h : Canonical t) : EachCanonical (some t) := ⟨fun _ e => Option.some.inj e ▸ h⟩
theorem eachCanonical_ite {c : Prop} [Decidable c] {a b : Option State} (ha : EachCanonical a) (hb : EachCanonical b) : EachCanonical (if c then a else b) := by
  split
  · exact ha
  · exact hb
theorem eachCanonical_findSome {α : Type} {f : α → Option State} (hf : ∀ x, EachCanonical (f x)) (l : List α) : EachCanonical (l.findSome? f) := by
  refine ⟨fun t h => ?_⟩
  obtain ⟨_, x, _, _, hx, _⟩ := List.findSome?_eq_some_iff.1 h
  exact (hf x).get t hx
theorem EachCanonical.bind {α : Type} {f : α → Option State} (hf : ∀ x, EachCanonical (f x)) (o : Option α) : EachCanonical (o.bind f) := by
  cases o with
  | none => exact eachCanonical_none
  | some x => exact hf x
theorem eachCanonical_firstOf_nil : EachCanonical (firstOf []) := eachCanonical_none
theorem eachCanonical_firstOf_cons {f : Unit → Option State} {l : List (Unit → Option State)} (hf : EachCanonical (f ())) (hl : EachCanonical (firstOf l)) :
    EachCanonical (firstOf (f :: l)) := by
  unfold firstOf orElseOf
  split
  next h => exact h ▸ hf
  · exact hl
theorem did_canonical {s : State} (hs : Canonical s) {o : Out} (h : Answers s o) : EachCanonical (did s o) := by
  obtain ⟨t, rfl, ht⟩ := h
  unfold did
  dsimp only
  split
  · exact eachCanonical_none
  · exact eachCanonical_some (ht hs)
theorem EachCanonical.map {α : Type} {o : Option α} {f : α → State} (hf : ∀ x, Canonical (f x)) : EachCanonical (o.map f) := by
  cases o with
  | none => exact eachCanonical_none
  | some x => exact eachCanonical_some (hf x)
theorem EachCanonical.getD {o : Option State} {s : State} (h : EachCanonical o) (hs : Canonical s) : Canonical (o.getD s) := by
  cases o with
  | none => exact hs
  | some t => exact h.get t rfl
/-- A change of anything but memory and packages. -/
theorem Canonical.rest {s : State} (h : Canonical s) {cycle agenda cur writes relAt troupes waves corps wires walks arrImages nextId fresh} :
    Canonical ⟨cycle, agenda, cur, s.mem, writes, relAt, s.pkgs, troupes, waves, corps, wires, walks, arrImages, nextId, fresh⟩ := ⟨h.1, h.2⟩
theorem Canonical.modPkg_host {s : State} (h : Canonical s) (k : Nat) {f : Pkg → Pkg} (hf : ∀ p, (f p).host = p.host) : Canonical (s.modPkg k f) :=
  h.modPkg k ((hf (s.pkg k)).symm ▸ h.2 k)
theorem canonical_ite {c : Prop} [Decidable c] {s t : State} (hs : Canonical s) (ht : Canonical t) : Canonical (if c then s else t) := by
  split
  · exact hs
  · exact ht
theorem canonical_fall {s : State} (h : Canonical s) {f : Nat → Pkg → Pkg} (hf : ∀ k p, Memory.wf p.host.hostMem → Memory.wf (f k p).host.hostMem) :
    Canonical { s with pkgs := fall s.pkgs f } :=
  ⟨h.1, fun k => by
    have hk := h.2 k
    unfold State.pkg at hk ⊢
    rw [fget_eq_flook] at hk ⊢
    rw [flook_fall]
    revert hk
    cases flook s.pkgs k with
    | none => exact id
    | some p => exact hf k p⟩
theorem foldl_wf {α : Type} {f : Pkg → α → Pkg} (hf : ∀ p x, Memory.wf p.host.hostMem → Memory.wf (f p x).host.hostMem) (l : List α) {p : Pkg}
    (h : Memory.wf p.host.hostMem) : Memory.wf (l.foldl f p).host.hostMem := by
  induction l generalizing p with
  | nil => exact h
  | cons x l ih => exact ih (hf p x h)
theorem Canonical.host {s : State} (h : Canonical s) (k : Nat) : Memory.wf (s.pkg k).host.hostMem := h.2 k

theorem setTroupe_canonical {s : State} (hs : Canonical s) (t : Nat) (v : Troupe) :
    Canonical (State.setTroupe s t v) :=
  hs.rest
theorem setCore_wf {p : Pkg} (hp : Memory.wf p.host.hostMem) (c : Nat) (v : Core) :
    Memory.wf (Pkg.setCore p c v).host.hostMem :=
  hp
theorem modPeer_wf {p : Pkg} (hp : Memory.wf p.host.hostMem) (q : Nat) (f : Peer → Peer) :
    Memory.wf (Pkg.modPeer p q f).host.hostMem :=
  hp
theorem draw_canonical {s : State} (hs : Canonical s) : Canonical s.draw.2 := hs.of_eq rfl rfl
theorem freeDraw_canonical {s : State} (hs : Canonical s) : Canonical s.freeDraw.2 := hs.of_eq rfl rfl
theorem waitFor_canonical {s : State} (hs : Canonical s) (i : Instr) (remote : List (Nat × Nat × Nat)) :
    Canonical (waitFor s i remote) :=
  modWave_canonical hs ..
theorem stall_canonical {s : State} (hs : Canonical s) (n : Nat) :
    Canonical (State.stall s n) :=
  updLanes_canonical hs ..
theorem resumeCur_canonical {s : State} (hs : Canonical s) (w : Nat) (r : WaitRec) :
    Canonical (State.resumeCur s w r) :=
  Canonical.rest (modWave_canonical hs ..)
theorem fillTag_canonical {s : State} (hs : Canonical s) (w : Nat) (ls : LaneMask) (tag : Nat) (outs : Nat → List (Dst × W32)) :
    Canonical (fillTag s w ls tag outs) :=
  updLanes_canonical hs ..
theorem raiseFlags_canonical {s : State} (hs : Canonical s) (w : Nat) (ls : List Nat) (f : BitVec 5) :
    Canonical (State.raiseFlags s w ls f) :=
  updLanes_canonical hs ..
theorem lane32_answers (s : State) (m : Mods) (t : Machine.Lat) (d : Reg) (f : Nat → W32) :
    Answers s (lane32 s m t d f) :=
  Answers.next (fun h1 => perLane_canonical h1 ..)
theorem lane64_answers (s : State) (m : Mods) (t : Machine.Lat) (d : Reg) (f : Nat → W64) :
    Answers s (lane64 s m t d f) :=
  Answers.next (fun h1 => perLane_canonical h1 ..)
theorem laneN_answers (s : State) (m : Mods) (t : Machine.Lat) (n : Nat) (d : Reg) (f : Nat → W64) :
    Answers s (laneN s m t n d f) :=
  Answers.next (fun h1 => perLane_canonical h1 ..)
theorem laneP_answers (s : State) (m : Mods) (t : Machine.Lat) (q : Reg) (f : Nat → Bool) :
    Answers s (laneP s m t q f) :=
  Answers.next (fun h1 => perLane_canonical h1 ..)
theorem two32_answers (s : State) (m : Mods) (d a : Reg) (f : W32 → W32 → W32) :
    Answers s (two32 s m d a f) :=
  lane32_answers ..
theorem two64_answers (s : State) (m : Mods) (d a : Reg) (f : W64 → W64 → W64) :
    Answers s (two64 s m d a f) :=
  lane64_answers ..
theorem three32_answers (s : State) (m : Mods) (d a b : Reg) (f : W32 → W32 → W32) :
    Answers s (three32 s m d a b f) :=
  lane32_answers ..
theorem execIadd_answers (s : State) (m : Mods) (d a b : Reg) :
    Answers s (execIadd m d a b s) :=
  three32_answers ..
theorem execIsub_answers (s : State) (m : Mods) (d a b : Reg) :
    Answers s (execIsub m d a b s) :=
  three32_answers ..
theorem execIaddi_answers (s : State) (m : Mods) (d a : Reg) (i : BitVec 7) :
    Answers s (execIaddi m d a i s) :=
  lane32_answers ..
theorem execIaddB64_answers (s : State) (m : Mods) (d a : Reg) :
    Answers s (execIaddB64 m d a s) :=
  two64_answers ..
theorem execIsubB64_answers (s : State) (m : Mods) (d a : Reg) :
    Answers s (execIsubB64 m d a s) :=
  two64_answers ..
theorem carry32_answers (s : State) (m : Mods) (d a : Reg) (f : W32 → W32 → Bool → W32 × Bool) :
    Answers s (carry32 s m d a f) :=
  lane64_answers ..
theorem carry64_answers (s : State) (m : Mods) (d a : Reg) (f : W64 → W64 → Bool → W64 × Bool) :
    Answers s (carry64 s m d a f) :=
  Answers.next (fun h1 => perLane_canonical h1 ..)
theorem execIaddcB32_answers (s : State) (m : Mods) (d a : Reg) :
    Answers s (execIaddcB32 m d a s) :=
  carry32_answers ..
theorem execIsubbB32_answers (s : State) (m : Mods) (d a : Reg) :
    Answers s (execIsubbB32 m d a s) :=
  carry32_answers ..
theorem execIaddcB64_answers (s : State) (m : Mods) (d a : Reg) :
    Answers s (execIaddcB64 m d a s) :=
  carry64_answers ..
theorem execIsubbB64_answers (s : State) (m : Mods) (d a : Reg) :
    Answers s (execIsubbB64 m d a s) :=
  carry64_answers ..
theorem execImul_answers (s : State) (m : Mods) (d a b : Reg) :
    Answers s (execImul m d a b s) :=
  three32_answers ..
theorem execImulB64_answers (s : State) (m : Mods) (d a : Reg) :
    Answers s (execImulB64 m d a s) :=
  two64_answers ..
theorem execImad_answers (s : State) (m : Mods) (d a b : Reg) :
    Answers s (execImad m d a b s) :=
  lane32_answers ..
theorem twoT_answers (s : State) (m : Mods) (lat : Machine.Lat) (t : IType) (d a : Reg) (f : Int → Int → Int) :
    Answers s (twoT s m lat t d a f) :=
  laneN_answers ..
theorem execImulh_answers (s : State) (m : Mods) (t : IType) (d a : Reg) :
    Answers s (execImulh m t d a s) :=
  twoT_answers ..
theorem execImadw_answers (s : State) (m : Mods) (sg : Bool) (d a : Reg) :
    Answers s (execImadw m sg d a s) :=
  lane64_answers ..
theorem execIdiv_answers (s : State) (m : Mods) (t : IType) (d a : Reg) :
    Answers s (execIdiv m t d a s) :=
  twoT_answers ..
theorem execIrem_answers (s : State) (m : Mods) (t : IType) (d a : Reg) :
    Answers s (execIrem m t d a s) :=
  twoT_answers ..
theorem execDp4_answers (s : State) (m : Mods) (t : DpType) (d a : Reg) :
    Answers s (execDp4 m t d a s) :=
  lane32_answers ..
theorem one64_answers (s : State) (m : Mods) (w : Bool) (d a : Reg) (f : Int → Int) :
    Answers s (one64 s m w d a f) :=
  laneN_answers ..
theorem execIabs_answers (s : State) (m : Mods) (w : Bool) (d a : Reg) :
    Answers s (execIabs m w d a s) :=
  one64_answers ..
theorem execIneg_answers (s : State) (m : Mods) (w : Bool) (d a : Reg) :
    Answers s (execIneg m w d a s) :=
  one64_answers ..
theorem execImin_answers (s : State) (m : Mods) (t : IType) (d a : Reg) :
    Answers s (execImin m t d a s) :=
  twoT_answers ..
theorem execImax_answers (s : State) (m : Mods) (t : IType) (d a : Reg) :
    Answers s (execImax m t d a s) :=
  twoT_answers ..
theorem execIclamp_answers (s : State) (m : Mods) (t : IType) (d a : Reg) :
    Answers s (execIclamp m t d a s) :=
  laneN_answers ..
theorem execShl_answers (s : State) (m : Mods) (d a b : Reg) :
    Answers s (execShl m d a b s) :=
  three32_answers ..
theorem execShr_answers (s : State) (m : Mods) (d a b : Reg) :
    Answers s (execShr m d a b s) :=
  three32_answers ..
theorem execSar_answers (s : State) (m : Mods) (d a b : Reg) :
    Answers s (execSar m d a b s) :=
  three32_answers ..
theorem execShi_answers (s : State) (m : Mods) (o : ShOp) (n : BitVec 5) (d a : Reg) :
    Answers s (execShi m o n d a s) :=
  lane32_answers ..
theorem shift64_answers (s : State) (m : Mods) (o : ShOp) (d a : Reg) :
    Answers s (shift64 s m o d a) :=
  lane64_answers ..
theorem execShlB64_answers (s : State) (m : Mods) (d a : Reg) :
    Answers s (execShlB64 m d a s) :=
  shift64_answers ..
theorem execShrB64_answers (s : State) (m : Mods) (d a : Reg) :
    Answers s (execShrB64 m d a s) :=
  shift64_answers ..
theorem execSarB64_answers (s : State) (m : Mods) (d a : Reg) :
    Answers s (execSarB64 m d a s) :=
  shift64_answers ..
theorem execRotlB32_answers (s : State) (m : Mods) (d a : Reg) :
    Answers s (execRotlB32 m d a s) :=
  two32_answers ..
theorem execRotlB64_answers (s : State) (m : Mods) (d a : Reg) :
    Answers s (execRotlB64 m d a s) :=
  shift64_answers ..
theorem execShf_answers (s : State) (m : Mods) (d a b : Reg) :
    Answers s (execShf m d a b s) :=
  lane32_answers ..
theorem execAndB32_answers (s : State) (m : Mods) (d a b : Reg) :
    Answers s (execAndB32 m d a b s) :=
  three32_answers ..
theorem execOrB32_answers (s : State) (m : Mods) (d a b : Reg) :
    Answers s (execOrB32 m d a b s) :=
  three32_answers ..
theorem execXorB32_answers (s : State) (m : Mods) (d a b : Reg) :
    Answers s (execXorB32 m d a b s) :=
  three32_answers ..
theorem execAndB64_answers (s : State) (m : Mods) (d a : Reg) :
    Answers s (execAndB64 m d a s) :=
  two64_answers ..
theorem execOrB64_answers (s : State) (m : Mods) (d a : Reg) :
    Answers s (execOrB64 m d a s) :=
  two64_answers ..
theorem execXorB64_answers (s : State) (m : Mods) (d a : Reg) :
    Answers s (execXorB64 m d a s) :=
  two64_answers ..
theorem execLop3_answers (s : State) (m : Mods) (d a b : Reg) :
    Answers s (execLop3 m d a b s) :=
  lane32_answers ..
theorem count32_answers (s : State) (m : Mods) (w : Bool) (d a : Reg) (f : W64 → Nat) :
    Answers s (count32 s m w d a f) :=
  lane32_answers ..
theorem execMov_answers (s : State) (m : Mods) (w : Bool) (d a : Reg) :
    Answers s (execMov m w d a s) :=
  laneN_answers ..
theorem execPopc_answers (s : State) (m : Mods) (w : Bool) (d a : Reg) :
    Answers s (execPopc m w d a s) :=
  count32_answers ..
theorem execClz_answers (s : State) (m : Mods) (w : Bool) (d a : Reg) :
    Answers s (execClz m w d a s) :=
  count32_answers ..
theorem execCtz_answers (s : State) (m : Mods) (w : Bool) (d a : Reg) :
    Answers s (execCtz m w d a s) :=
  count32_answers ..
theorem execBrev_answers (s : State) (m : Mods) (w : Bool) (d a : Reg) :
    Answers s (execBrev m w d a s) :=
  laneN_answers ..
theorem execBfx_answers (s : State) (m : Mods) (d a b : Reg) :
    Answers s (execBfx m d a b s) :=
  three32_answers ..
theorem execBfi_answers (s : State) (m : Mods) (d a b : Reg) :
    Answers s (execBfi m d a b s) :=
  lane32_answers ..
theorem execPrmt_answers (s : State) (m : Mods) (d a b : Reg) :
    Answers s (execPrmt m d a b s) :=
  lane32_answers ..
theorem execMovi_answers (s : State) (m : Mods) (d : Reg) (i : BitVec 14) :
    Answers s (execMovi m d i s) :=
  lane32_answers ..
theorem execMovl_answers (s : State) (m : Mods) (d : Reg) (i : BitVec 14) :
    Answers s (execMovl m d i s) :=
  lane32_answers ..
theorem execMovh_answers (s : State) (m : Mods) (d : Reg) (i : BitVec 14) :
    Answers s (execMovh m d i s) :=
  lane32_answers ..
theorem execSel_answers (s : State) (m : Mods) (d a b : Reg) :
    Answers s (execSel m d a b s) :=
  lane32_answers ..
theorem execLea_answers (s : State) (m : Mods) (d a b : Reg) :
    Answers s (execLea m d a b s) :=
  lane64_answers ..
theorem icmp_answers (s : State) (m : Mods) (w : Bool) (p : BitVec 6) (a b : Reg) (f : W64 → W64 → Bool) :
    Answers s (icmp s m w p a b f) :=
  laneP_answers ..
theorem execIcmpEq_answers (s : State) (m : Mods) (w : Bool) (p : BitVec 6) (a b : Reg) :
    Answers s (execIcmpEq m w p a b s) :=
  icmp_answers ..
theorem execIcmpNe_answers (s : State) (m : Mods) (w : Bool) (p : BitVec 6) (a b : Reg) :
    Answers s (execIcmpNe m w p a b s) :=
  icmp_answers ..
theorem execIcmpLtS_answers (s : State) (m : Mods) (w : Bool) (p : BitVec 6) (a b : Reg) :
    Answers s (execIcmpLtS m w p a b s) :=
  icmp_answers ..
theorem execIcmpLtZ_answers (s : State) (m : Mods) (w : Bool) (p : BitVec 6) (a b : Reg) :
    Answers s (execIcmpLtZ m w p a b s) :=
  icmp_answers ..
theorem execPmov_answers (s : State) (m : Mods) (d a : Reg) :
    Answers s (execPmov m d a s) :=
  laneP_answers ..
theorem execPset_answers (s : State) (m : Mods) (d : Reg) (v : Bool) :
    Answers s (execPset m d v s) :=
  laneP_answers ..
theorem execP2g_answers (s : State) (m : Mods) (d : Reg) (k : BitVec 2) :
    Answers s (execP2g m d k s) :=
  lane32_answers ..
theorem execG2p_answers (s : State) (m : Mods) (k : BitVec 2) (a : Reg) :
    Answers s (execG2p m k a s) :=
  Answers.next (fun h1 => perLane_canonical h1 ..)
theorem execPlop3_answers (s : State) (m : Mods) (d a : Reg) :
    Answers s (execPlop3 m d a s) :=
  laneP_answers ..
theorem fillWalker_canonical {s : State} (hs : Canonical s) (k die : Nat) (ctx : W32) (va : W64) :
    Canonical (State.fillWalker s k die ctx va) := by
  unfold State.fillWalker
  split
  · exact Canonical.modPkg hs _ (hs.2 _)
  · exact hs
theorem fillTlb_canonical {s : State} (hs : Canonical s) (k core : Nat) (ctx : W32) (va : W64) :
    Canonical (State.fillTlb s k core ctx va) := by
  unfold State.fillTlb
  split
  · exact hs
  · split
    · exact hs
    · refine Canonical.modPkg hs _ ?_
      dsimp only
      split
      · split <;> exact hs.2 _
      · show Memory.wf (HostIf.hostMem _)
        split <;> exact hs.2 _
theorem fillTlbs_canonical {s : State} (hs : Canonical s) (k core : Nat) (ctx : W32) (vas : List W64) :
    Canonical (State.fillTlbs s k core ctx vas) :=
  foldl_canonical (fun _ _ h1 => fillTlb_canonical h1 ..) _ hs
theorem invalidate_wf {p : Pkg} (hp : Memory.wf p.host.hostMem) (ctx : W32) (lo n : Nat) :
    Memory.wf (Pkg.invalidate p ctx lo n).host.hostMem :=
  hp
theorem setOwner_canonical {s : State} (hs : Canonical s) (k : Nat) (r : TileRef) (eng : Bool) :
    Canonical (State.setOwner s k r eng) :=
  modCore_canonical hs ..
theorem useLine_canonical {s : State} (hs : Canonical s) (k core a : Nat) :
    Canonical (State.useLine s k core a) :=
  modCore_canonical hs ..
theorem freshLine_canonical {s : State} (hs : Canonical s) (k core a n : Nat) :
    Canonical (State.freshLine s k core a n) :=
  modCore_canonical hs ..
theorem dropCoreLines_canonical {s : State} (hs : Canonical s) (k core a n : Nat) :
    Canonical (State.dropCoreLines s k core a n) :=
  modCore_canonical hs ..
theorem emptyLines_canonical {s : State} (hs : Canonical s) (k core : Nat) :
    Canonical (State.emptyLines s k core) :=
  modCore_canonical hs ..
theorem dropAllLines_wf {p : Pkg} (hp : Memory.wf p.host.hostMem) (a n : Nat) :
    Memory.wf (Pkg.dropAllLines p a n).host.hostMem :=
  hp
theorem performNext_canonical {s : State} (hs : Canonical s) (n : Nat) :
    Canonical (State.performNext s n) := by
  unfold State.performNext
  split
  · exact hs
  · split
    · exact hs
    · dsimp only
      split
      · split
        · exact landWrite_canonical hs.rest ..
        · exact Canonical.rest (modCore_canonical hs.rest ..)
      · split
        · exact hs.rest
        · exact landWrite_canonical hs.rest ..
theorem observe_canonical {s : State} (hs : Canonical s) (w : Nat) (sc : Scope) (rels : List (Nat × Nat)) :
    Canonical (State.observe s w sc rels) := by
  unfold State.observe
  split
  · exact hs
  · exact modWave_canonical hs ..
theorem clearHolds_canonical {s : State} (hs : Canonical s) (w : Nat) :
    Canonical (State.clearHolds s w) :=
  emptyLines_canonical (modWave_canonical hs ..) ..
theorem acquireLines_canonical {s : State} (hs : Canonical s) (sc : Scope) :
    Canonical (State.acquireLines s sc) := by
  unfold State.acquireLines
  split
  · exact hs
  · exact emptyLines_canonical hs ..
theorem issueStore_canonical {s : State} (hs : Canonical s) (id l a : Nat) (bs : List Byte) (rel : Option Scope) :
    Canonical (State.issueStore s id l a bs rel) :=
  hs.rest

end Sys2Proof
end

