-- ==== Sys2Proof/Proofs/KeepsMemoryAndFabric.lean ====
section
/-! SUPPORT. Accesses, atomics, pages, the heap, remote operations and the calendar keep memory in its canonical form and answer a next state. -/

namespace Sys2Proof
open Machine

theorem spend_wf {p : Pkg} (hp : Memory.wf p.host.hostMem) (c n : Nat) :
    Memory.wf (Pkg.spend p c n).host.hostMem :=
  hp
theorem modLaunch_wf {p : Pkg} (hp : Memory.wf p.host.hostMem) (n : Nat) (f : Launch → Launch) :
    Memory.wf (Pkg.modLaunch p n f).host.hostMem :=
  hp
theorem setLogWord_canonical {s : State} (hs : Canonical s) (k n off v : Nat) :
    Canonical (State.setLogWord s k n off v) :=
  devStore_canonical hs ..
theorem logPut_canonical {s : State} (hs : Canonical s) (k n : Nat) (e : LogEnt) :
    Canonical (State.logPut s k n e) :=
  setLogWord_canonical (devStore_canonical hs ..) ..
theorem logConsume_canonical {s : State} (hs : Canonical s) (k n i : Nat) :
    Canonical (State.logConsume s k n i) :=
  setLogWord_canonical (Canonical.modPkg hs _ (hs.2 _)) ..
theorem logApplied_canonical {s : State} (hs : Canonical s) (k : Nat) (b : BankOp) :
    Canonical (State.logApplied s k b) := by
  unfold State.logApplied
  split
  · exact hs
  · split
    · exact logConsume_canonical hs ..
    · exact logPut_canonical hs ..
theorem fillVal_canonical {s : State} (hs : Canonical s) (w l tag : Nat) (v : W64) :
    Canonical (State.fillVal s w l tag v) :=
  fillTag_canonical hs ..
theorem acquired_canonical {s : State} (hs : Canonical s) (k : Nat) (b : BankOp) (sc : Scope) (rels : List (Nat × Nat)) :
    Canonical (State.acquired s k b sc rels) := by
  unfold State.acquired
  dsimp only
  split
  · split
    · exact observe_canonical hs ..
    · exact modWave_canonical (observe_canonical hs ..) ..
  · split
    · exact emptyLines_canonical (observe_canonical hs ..) ..
    · exact modWave_canonical (emptyLines_canonical (observe_canonical hs ..) ..) ..
theorem applyOp_canonical {s : State} (hs : Canonical s) (k : Nat) (b : BankOp) :
    Canonical (State.applyOp s k b) := by
  unfold State.applyOp
  refine Canonical.modPkg ?_ _ ?_
  · refine logApplied_canonical ?_ ..
    split
    · refine acquired_canonical ?_ ..
      refine dropCoreLines_canonical ?_ ..
      split
      · dsimp only
        split
        · exact fillVal_canonical (update_canonical hs ..) ..
        · exact update_canonical hs ..
      · exact fillVal_canonical (update_canonical hs ..) ..
      · refine Canonical.modPkg ?_ _ ?_
        · refine update_canonical ?_ ..
          split
          · exact hs
          · exact settleRange_canonical hs ..
        · show Memory.wf (HostIf.hostMem _)
          refine Canonical.host ?_ _
          refine update_canonical ?_ ..
          split
          · exact hs
          · exact settleRange_canonical hs ..
    · refine dropCoreLines_canonical ?_ ..
      split
      · dsimp only
        split
        · exact fillVal_canonical (update_canonical hs ..) ..
        · exact update_canonical hs ..
      · exact fillVal_canonical (update_canonical hs ..) ..
      · refine Canonical.modPkg ?_ _ ?_
        · refine update_canonical ?_ ..
          split
          · exact hs
          · exact settleRange_canonical hs ..
        · show Memory.wf (HostIf.hostMem _)
          refine Canonical.host ?_ _
          refine update_canonical ?_ ..
          split
          · exact hs
          · exact settleRange_canonical hs ..
  · refine spend_wf ?_ ..
    refine Canonical.host ?_ _
    refine logApplied_canonical ?_ ..
    split
    · refine acquired_canonical ?_ ..
      refine dropCoreLines_canonical ?_ ..
      split
      · dsimp only
        split
        · exact fillVal_canonical (update_canonical hs ..) ..
        · exact update_canonical hs ..
      · exact fillVal_canonical (update_canonical hs ..) ..
      · refine Canonical.modPkg ?_ _ ?_
        · refine update_canonical ?_ ..
          split
          · exact hs
          · exact settleRange_canonical hs ..
        · show Memory.wf (HostIf.hostMem _)
          refine Canonical.host ?_ _
          refine update_canonical ?_ ..
          split
          · exact hs
          · exact settleRange_canonical hs ..
    · refine dropCoreLines_canonical ?_ ..
      split
      · dsimp only
        split
        · exact fillVal_canonical (update_canonical hs ..) ..
        · exact update_canonical hs ..
      · exact fillVal_canonical (update_canonical hs ..) ..
      · refine Canonical.modPkg ?_ _ ?_
        · refine update_canonical ?_ ..
          split
          · exact hs
          · exact settleRange_canonical hs ..
        · show Memory.wf (HostIf.hostMem _)
          refine Canonical.host ?_ _
          refine update_canonical ?_ ..
          split
          · exact hs
          · exact settleRange_canonical hs ..
theorem execBankAluApply_answers (s : State) (k n : Nat) :
    Answers s (execBankAluApply k n s) := by
  unfold execBankAluApply
  split
  · exact Answers.next (fun h1 => h1)
  · split
    · exact Answers.next (fun h1 => h1)
    · exact Answers.next (fun h1 => applyOp_canonical (Canonical.modPkg h1 _ (h1.2 _)) ..)
theorem execBopComplete_answers (s : State) (k n : Nat) :
    Answers s (execBopComplete k n s) := by
  unfold execBopComplete
  split
  · exact Answers.next (fun h1 => h1)
  · split
    · exact Answers.next (fun h1 => h1)
    · exact Answers.next (fun h1 => fillTag_canonical (Canonical.modPkg h1 _ (h1.2 _)) ..)
theorem execAccessPerform_answers (s : State) (n : Nat) :
    Answers s (execAccessPerform n s) :=
  Answers.next (fun h1 => performNext_canonical h1 ..)
theorem dropTroupes_canonical {s : State} (hs : Canonical s) (k : Nat) (tids : List Nat) :
    Canonical (State.dropTroupes s k tids) :=
  Canonical.modPkg hs.rest _ (hs.2 _)
theorem eccTroupe_canonical {s : State} (hs : Canonical s) (tid : Nat) (sub : Byte) :
    Canonical (State.eccTroupe s tid sub) := by
  unfold State.eccTroupe
  dsimp only
  split
  · exact hs
  · split
    · exact Canonical.modPkg (dropTroupes_canonical hs ..) _ (modLaunch_wf ((dropTroupes_canonical hs ..).2 _) ..)
    · exact stopContext_canonical hs ..
theorem sendDirect_wf {p : Pkg} (hp : Memory.wf p.host.hostMem) (x : Packet) :
    Memory.wf (Pkg.sendDirect p x).host.hostMem :=
  hp
theorem sendSpray_wf {p : Pkg} (hp : Memory.wf p.host.hostMem) (x : Packet) (via : Nat) :
    Memory.wf (Pkg.sendSpray p x via).host.hostMem :=
  hp
theorem landRelayed_wf {p : Pkg} (hp : Memory.wf p.host.hostMem) (x : Packet) :
    Memory.wf (Pkg.landRelayed p x).host.hostMem := by
  unfold Pkg.landRelayed
  dsimp only
  split <;> exact hp
theorem reportDiscarded_canonical {s : State} (hs : Canonical s) (m : Mods) :
    Canonical (reportDiscarded s m) :=
  finish_canonical (modWave_canonical hs ..) ..
theorem afterRelease_canonical {s : State} (hs : Canonical s) (m : Mods) (i : Instr) (sc : Scope) (wait : Bool) (go : State → State) (h_go : ∀ x0, Canonical x0 → Canonical (go x0)) :
    Canonical (afterRelease s m i sc wait go) := by
  unfold afterRelease
  split
  · exact h_go _ hs
  · split
    · exact waitAt_canonical hs ..
    · split
      · exact h_go _ hs
      · split
        · exact waitAt_canonical hs ..
        · dsimp only
          split
          · split
            · exact waitFor_canonical hs ..
            · split
              · exact reportDiscarded_canonical hs ..
              · exact h_go _ hs
          · split
            · exact waitFor_canonical hs ..
            · split
              · exact reportDiscarded_canonical hs ..
              · exact h_go _ hs
theorem sendParts_canonical {s : State} (hs : Canonical s) (kind : PKind) (ls : List (Nat × Nat × W64)) (base : Packet) (ent : Nat → BitVec 128 × W64) (tagOf : Option TagRec) :
    Canonical (State.sendParts s kind ls base ent tagOf) := by
  unfold State.sendParts
  refine foldl_canonical ?_ _ hs
  intro _ _ h1
  dsimp only
  split
  · split
    · exact modWave_canonical (Canonical.modPkg h1.rest _ (h1.2 _)) ..
    · exact Canonical.modPkg h1.rest _ (h1.2 _)
  · exact Canonical.modPkg h1.rest _ (h1.2 _)
theorem missed_canonical {s : State} (hs : Canonical s) (sp : Space) (vas : List W64) :
    Canonical (State.missed s sp vas) := by
  unfold State.missed
  split
  · exact hs.rest
  · exact hs
theorem walked_canonical {s : State} (hs : Canonical s) (sp : Space) (vas : List W64) :
    Canonical (State.walked s sp vas) := by
  unfold State.walked
  split
  · exact Canonical.rest (fillTlbs_canonical hs ..)
  · exact hs
theorem loadLines_canonical {s : State} (hs : Canonical s) (acq : Option Scope) (xs : List LaneAcc) (n : Nat) :
    Canonical (State.loadLines s acq xs n) := by
  unfold State.loadLines
  dsimp only
  split
  · exact foldl_canonical (fun _ _ h1 => useLine_canonical h1 ..) _ hs
  · exact foldl_canonical (fun _ _ h1 => freshLine_canonical h1 ..) _ hs
  · exact emptyLines_canonical hs ..
theorem loadGo_canonical {s : State} (hs : Canonical s) (i : Instr) (m : Mods) (sp : Space) (ty : MemType) (acq : Option Scope) (d a : Reg) (off : Int) :
    Canonical (loadGo i s m sp ty acq d a off) := by
  unfold loadGo
  dsimp only
  split
  · exact waitAt_canonical (missed_canonical hs ..) ..
  · split
    · exact eccTroupe_canonical hs ..
    · refine finish_canonical ?_ ..
      split
      · exact observe_canonical (sendParts_canonical (updLanes_canonical (loadLines_canonical (walked_canonical hs.rest ..) ..) ..) ..) ..
      · exact sendParts_canonical (updLanes_canonical (loadLines_canonical (walked_canonical hs.rest ..) ..) ..) ..
theorem execLdGB32_answers (s : State) (m : Mods) (o : BitVec 7) (d a : Reg) :
    Answers s (execLdGB32 m o d a s) :=
  Answers.next (fun h1 => loadGo_canonical h1 ..)
theorem execLdGB64_answers (s : State) (m : Mods) (o : BitVec 7) (d a : Reg) :
    Answers s (execLdGB64 m o d a s) :=
  Answers.next (fun h1 => loadGo_canonical h1 ..)
theorem execLdGB128_answers (s : State) (m : Mods) (o : BitVec 7) (d a : Reg) :
    Answers s (execLdGB128 m o d a s) :=
  Answers.next (fun h1 => loadGo_canonical h1 ..)
theorem execLdSB32_answers (s : State) (m : Mods) (o : BitVec 7) (d a : Reg) :
    Answers s (execLdSB32 m o d a s) :=
  Answers.next (fun h1 => loadGo_canonical h1 ..)
theorem execLd_answers (s : State) (m : Mods) (u : Space) (t : MemType) (r : Bool) (d a : Reg) :
    Answers s (execLd m u t r d a s) :=
  Answers.next (fun h1 => loadGo_canonical h1 ..)
theorem storeGo_canonical {s : State} (hs : Canonical s) (i : Instr) (m : Mods) (sp : Space) (ty : MemType) (rel : Option Scope) (d a : Reg) (off : Int) :
    Canonical (storeGo i s m sp ty rel d a off) := by
  unfold storeGo
  dsimp only
  split
  · exact waitAt_canonical (missed_canonical hs ..) ..
  · split
    · refine finish_canonical ?_ ..
      split
      · exact modTroupe_canonical (sendParts_canonical (foldl_canonical (fun _ _ h1 => issueStore_canonical h1 ..) _ (walked_canonical hs.rest ..)) ..) ..
      · exact sendParts_canonical (foldl_canonical (fun _ _ h1 => issueStore_canonical h1 ..) _ (walked_canonical hs.rest ..)) ..
    · refine afterRelease_canonical hs _ _ _ _ _ ?_
      intro _ h1
      refine finish_canonical ?_ ..
      split
      · exact modTroupe_canonical (sendParts_canonical (foldl_canonical (fun _ _ h2 => issueStore_canonical h2 ..) _ (walked_canonical h1.rest ..)) ..) ..
      · exact sendParts_canonical (foldl_canonical (fun _ _ h2 => issueStore_canonical h2 ..) _ (walked_canonical h1.rest ..)) ..
theorem execStGB32_answers (s : State) (m : Mods) (o : BitVec 7) (d a : Reg) :
    Answers s (execStGB32 m o d a s) :=
  Answers.next (fun h1 => storeGo_canonical h1 ..)
theorem execStGB64_answers (s : State) (m : Mods) (o : BitVec 7) (d a : Reg) :
    Answers s (execStGB64 m o d a s) :=
  Answers.next (fun h1 => storeGo_canonical h1 ..)
theorem execStGB128_answers (s : State) (m : Mods) (o : BitVec 7) (d a : Reg) :
    Answers s (execStGB128 m o d a s) :=
  Answers.next (fun h1 => storeGo_canonical h1 ..)
theorem execStSB32_answers (s : State) (m : Mods) (o : BitVec 7) (d a : Reg) :
    Answers s (execStSB32 m o d a s) :=
  Answers.next (fun h1 => storeGo_canonical h1 ..)
theorem execSt_answers (s : State) (m : Mods) (u : Space) (t : MemType) (r : Bool) (d a : Reg) :
    Answers s (execSt m u t r d a s) :=
  Answers.next (fun h1 => storeGo_canonical h1 ..)
theorem execLdkLow_answers (s : State) (m : Mods) (d n : Reg) :
    Answers s (execLdkLow m d n s) :=
  lane32_answers ..
theorem execLdkHigh_answers (s : State) (m : Mods) (d n : Reg) :
    Answers s (execLdkHigh m d n s) :=
  lane32_answers ..
theorem execLdkReg_answers (s : State) (m : Mods) (d a : Reg) :
    Answers s (execLdkReg m d a s) :=
  lane32_answers ..
theorem execPrefG_answers (s : State) (m : Mods) (a : Reg) :
    Answers s (execPrefG m a s) :=
  Answers.next (fun h1 => finish_canonical (loadLines_canonical h1 ..) ..)
theorem detRed_canonical {s : State} (hs : Canonical s) (i : Instr) (m : Mods) (o : AtomOp) (w : Bool) (rel : Option Scope) (xs : List LaneAcc) (d : Reg) :
    Canonical (detRed i s m o w rel xs d) := by
  unfold detRed
  dsimp only
  split
  · split
    · exact refuseWith_canonical hs ..
    · exact waitAt_canonical hs ..
  · refine finish_canonical ?_ ..
    refine walked_canonical ?_ ..
    split
    · exact updLanes_canonical (modCore_canonical (Canonical.rest (foldl_canonical (fun _ _ h1 => dropCoreLines_canonical h1 ..) _ hs)) ..) ..
    · exact modTroupe_canonical (updLanes_canonical (modCore_canonical (Canonical.rest (foldl_canonical (fun _ _ h1 => dropCoreLines_canonical h1 ..) _ hs)) ..) ..) ..
theorem atomGo_canonical {s : State} (hs : Canonical s) (i : Instr) (m : Mods) (kind : AtomKind) (o : AtomOp) (w : Bool) (d a : Reg) :
    Canonical (atomGo i s m kind o w d a) := by
  unfold atomGo
  extract_lets sp sc ord t n xs vas
  split
  · exact refuse_canonical hs ..
  split
  · exact waitAt_canonical (missed_canonical hs ..) _
  split
  · exact detRed_canonical hs ..
  rename_i _ _ _ _ _ _ _ _ act _ _ _
  split
  · exact waitAt_canonical hs _
  split
  · exact waitAt_canonical hs _
  split
  · exact eccTroupe_canonical hs ..
  have hact : ∀ s, Canonical s → Canonical (act s) := by
    intro s h
    unfold act
    extract_lets id logged ops rels s1 s2 s3 s4 s5 s6 s7 s8
    have h1 : Canonical s1 := walked_canonical h.rest ..
    have h2 : Canonical s2 := canonical_ite h1.rest h1
    have h3 : Canonical s3 := canonical_ite h2.rest h2
    have h4 : Canonical s4 := foldl_canonical (fun _ _ h => dropCoreLines_canonical h ..) _ h3
    have h5 : Canonical s5 := by
      refine canonical_ite (foldl_canonical (fun _ _ h => applyOp_canonical h ..) _ h4) (modWave_canonical (h4.modPkg_host _ ?_) ..)
      exact fun _ => rfl
    have h6 : Canonical s6 := sendParts_canonical h5 ..
    have h7 : Canonical s7 := canonical_ite (observe_canonical (acquireLines_canonical h6 _) ..) h6
    have h8 : Canonical s8 := canonical_ite h7.rest h7
    exact finish_canonical h8 _
  split
  · exact afterRelease_canonical hs _ _ _ _ _ hact
  · exact hact s hs
theorem execAtom_answers (s : State) (m : Mods) (o : AtomOp) (w : Bool) (d a : Reg) :
    Answers s (execAtom m o w d a s) :=
  Answers.next (fun h1 => atomGo_canonical h1 ..)
theorem execCas_answers (s : State) (m : Mods) (w : Bool) (d a : Reg) :
    Answers s (execCas m w d a s) :=
  Answers.next (fun h1 => atomGo_canonical h1 ..)
theorem execRedOp_answers (s : State) (m : Mods) (o : AtomOp) (w : Bool) (d a : Reg) :
    Answers s (execRedOp m o w d a s) :=
  Answers.next (fun h1 => atomGo_canonical h1 ..)
theorem bopGo_canonical {s : State} (hs : Canonical s) (m : Mods) (d : Reg) (b : BopBlock) :
    Canonical (bopGo s m d b) := by
  unfold bopGo
  dsimp only
  split
  · split
    · exact eccTroupe_canonical hs ..
    · exact finish_canonical (modTroupe_canonical (emptyLines_canonical (Canonical.modPkg (oweAll_canonical (walked_canonical hs.rest ..) ..) _ ((oweAll_canonical (walked_canonical hs.rest ..) ..).2 _)) ..) ..) ..
  · split
    · exact eccTroupe_canonical hs ..
    · exact finish_canonical (modTroupe_canonical (emptyLines_canonical (Canonical.modPkg (oweAll_canonical (walked_canonical hs.rest ..) ..) _ ((oweAll_canonical (walked_canonical hs.rest ..) ..).2 _)) ..) ..) ..
theorem execBop_answers (s : State) (m : Mods) (d a : Reg) :
    Answers s (execBop m d a s) := by
  unfold execBop
  split
  · exact Answers.next (fun h1 => finish_canonical h1 ..)
  · split
    · exact Answers.next (fun h1 => refuse_canonical h1 ..)
    · split
      · exact Answers.next (fun h1 => faultElected_canonical h1 ..)
      · refine Answers.next ?_
        intro h1
        split
        · exact waitAt_canonical (missed_canonical h1 ..) ..
        · exact bopGo_canonical h1 ..
theorem execFncIss_answers (s : State) (m : Mods) (d : Reg) (n : Scope) :
    Answers s (execFncIss m d n s) := by
  unfold execFncIss
  split
  · exact Answers.next (fun h1 => finish_canonical h1 ..)
  · split
    · exact Answers.next (fun h1 => waitAt_canonical h1 ..)
    · exact Answers.next (fun h1 => finish_canonical (sendAll_canonical (modWave_canonical h1 ..) ..) ..)
theorem execFncWt_answers (s : State) (m : Mods) (a : Reg) :
    Answers s (execFncWt m a s) := by
  unfold execFncWt
  split
  · exact Answers.next (fun h1 => finish_canonical h1 ..)
  · dsimp only
    split
    · exact Answers.next (fun h1 => refuse_canonical h1 ..)
    · split
      · exact Answers.next (fun h1 => waitAt_canonical h1 ..)
      · split
        · exact Answers.next (fun h1 => reportDiscarded_canonical h1 ..)
        · exact Answers.next (fun h1 => finish_canonical (acquireLines_canonical h1 ..) ..)
theorem execFencePerformed_answers (s : State) (w : Nat) (q : BitVec 24) :
    Answers s (execFencePerformed w q s) :=
  Answers.next (fun h1 => modWave_canonical h1 ..)
theorem flipOwner_canonical {s : State} (hs : Canonical s) (i : Instr) (m : Mods) (a : Reg) (give : Bool) :
    Canonical (flipOwner i s m a give) := by
  unfold flipOwner
  dsimp only
  split
  · split
    · exact waitAt_canonical hs ..
    · exact finish_canonical (foldl_canonical (fun _ _ h1 => setOwner_canonical h1 ..) _ hs) ..
  · split
    · exact waitAt_canonical hs ..
    · exact finish_canonical (foldl_canonical (fun _ _ h1 => setOwner_canonical h1 ..) _ hs) ..
theorem execOwnGive_answers (s : State) (m : Mods) (a : Reg) :
    Answers s (execOwnGive m a s) :=
  Answers.next (fun h1 => flipOwner_canonical h1 ..)
theorem execOwnTake_answers (s : State) (m : Mods) (a : Reg) :
    Answers s (execOwnTake m a s) :=
  Answers.next (fun h1 => flipOwner_canonical h1 ..)
theorem execOwnTest_answers (s : State) (m : Mods) (d a : Reg) :
    Answers s (execOwnTest m d a s) :=
  Answers.next (fun h1 => finish_canonical (updLanes_canonical h1.rest ..) ..)
theorem setWord_canonical {s : State} (hs : Canonical s) (key : Nat) (v : W32) :
    Canonical (State.setWord s key v) :=
  storeAt_canonical hs ..
theorem setRing_canonical {s : State} (hs : Canonical s) (key : Nat) (h : RingHdr) :
    Canonical (State.setRing s key h) :=
  setWord_canonical (setWord_canonical hs ..) ..
theorem setOwners_canonical {s : State} (hs : Canonical s) (k : Nat) (ts : List TileRef) (eng : Bool) :
    Canonical (State.setOwners s k ts eng) :=
  foldl_canonical (fun _ _ h1 => setOwner_canonical h1 ..) _ hs
theorem recheckRing_canonical {s : State} (hs : Canonical s) (k key : Nat) :
    Canonical (State.recheckRing s k key) :=
  Canonical.modPkg hs _ (hs.2 _)
theorem onRing_canonical {s : State} (hs : Canonical s) (i : Instr) (m : Mods) (a : Reg) (kinds : List Nat) (none_ : State → State) (go : TileRef → Nat → RingHdr → State) (h_none_ : ∀ x0, Canonical x0 → Canonical (none_ x0)) (h_go : ∀ x0 x1 x2, Canonical (go x0 x1 x2)) :
    Canonical (onRing i s m a kinds none_ go) := by
  unfold onRing
  split
  · exact h_none_ _ hs
  · dsimp only
    split
    · exact faultElected_canonical hs ..
    · split
      · exact waitAt_canonical hs ..
      · split
        · exact refuse_canonical hs ..
        · split
          · exact h_go _ _ _
          · exact refuse_canonical hs ..
theorem execRngWait_answers (s : State) (m : Mods) (d a : Reg) :
    Answers s (execRngWait m d a s) := by
  unfold execRngWait
  refine Answers.next ?_
  intro h1
  refine onRing_canonical h1 _ _ _ _ _ _ (fun _ h2 => finish_canonical h2 ..) ?_
  intro _ _ _
  dsimp only
  split
  · exact waitAt_canonical h1 ..
  · split
    · exact refuse_canonical h1 ..
    · exact finish_canonical (sendAll_canonical (setOwners_canonical (setRing_canonical h1 ..) ..) ..) ..
theorem execRngRel_answers (s : State) (m : Mods) (a : Reg) :
    Answers s (execRngRel m a s) := by
  unfold execRngRel
  refine Answers.next ?_
  intro h1
  refine onRing_canonical h1 _ _ _ _ _ _ (fun _ h2 => finish_canonical h2 ..) ?_
  intro _ _ _
  dsimp only
  split
  · exact refuse_canonical h1 ..
  · split
    · exact waitAt_canonical h1 ..
    · exact finish_canonical (recheckRing_canonical (setOwners_canonical (setRing_canonical h1 ..) ..) ..) ..
theorem execMrgFree_answers (s : State) (m : Mods) (a : Reg) :
    Answers s (execMrgFree m a s) := by
  unfold execMrgFree
  refine Answers.next ?_
  intro h1
  refine onRing_canonical h1 _ _ _ _ _ _ (fun _ h2 => finish_canonical h2 ..) ?_
  intro _ _ _
  dsimp only
  split
  · exact refuse_canonical h1 ..
  · split
    · exact faultElected_canonical h1 ..
    · exact faultElected_canonical h1 ..
    · split
      · exact refuse_canonical h1 ..
      · split
        · exact refuse_canonical h1 ..
        · split
          · exact waitAt_canonical h1 ..
          · refine finish_canonical ?_ ..
            refine recheckRing_canonical ?_ ..
            refine setOwners_canonical ?_ ..
            split
            · exact setRing_canonical (setWord_canonical (setRing_canonical h1 ..) ..) ..
            · exact setWord_canonical (setRing_canonical h1 ..) ..
theorem setByteBar_canonical {s : State} (hs : Canonical s) (key : Nat) (b : ByteBar) :
    Canonical (State.setByteBar s key b) :=
  setWord_canonical (setWord_canonical (setWord_canonical hs ..) ..) ..
theorem releaseWait_canonical {s : State} (hs : Canonical s) (w : Nat) (r : WaitRec) :
    Canonical (State.releaseWait s w r) := by
  unfold State.releaseWait
  split <;> exact modWave_canonical hs ..
theorem releaseBar_canonical {s : State} (hs : Canonical s) (key : Nat) :
    Canonical (State.releaseBar s key) :=
  foldl_canonical (fun _ _ h1 => releaseWait_canonical h1 ..) _ hs
theorem arrive_canonical {s : State} (hs : Canonical s) (key : Nat) (n : W32) :
    Canonical (State.arrive s key n) := by
  unfold State.arrive
  split
  · exact setWord_canonical hs ..
  · dsimp only
    split
    · exact releaseBar_canonical (setByteBar_canonical hs ..) ..
    · exact setByteBar_canonical hs ..
theorem onBar_canonical {s : State} (hs : Canonical s) (i : Instr) (m : Mods) (a : Reg) (go : Nat → Nat → State) (h_go : ∀ x0 x1, Canonical (go x0 x1)) :
    Canonical (onBar i s m a go) := by
  unfold onBar
  split
  · exact finish_canonical hs ..
  · dsimp only
    split
    · exact faultElected_canonical hs ..
    · split
      · exact waitAt_canonical hs ..
      · exact h_go _ _
theorem barTrap_canonical {s : State} (hs : Canonical s) (m : Mods) :
    Canonical (barTrap s m) :=
  finish_canonical hs ..
theorem execBbInit_answers (s : State) (m : Mods) (d a : Reg) :
    Answers s (execBbInit m d a s) := by
  unfold execBbInit
  refine Answers.next ?_
  intro h1
  refine onBar_canonical h1 _ _ _ _ ?_
  intro _ _
  dsimp only
  split
  · exact refuse_canonical h1 ..
  · exact finish_canonical (setWord_canonical (setByteBar_canonical h1 ..) ..) ..
theorem execBbExp_answers (s : State) (m : Mods) (d a : Reg) :
    Answers s (execBbExp m d a s) := by
  unfold execBbExp
  refine Answers.next ?_
  intro h1
  refine onBar_canonical h1 _ _ _ _ ?_
  intro _ _
  split
  · exact refuse_canonical h1 ..
  · split
    · exact barTrap_canonical h1 ..
    · split
      · exact refuse_canonical h1 ..
      · exact finish_canonical (setByteBar_canonical h1 ..) ..
theorem execBbArv_answers (s : State) (m : Mods) (d a : Reg) :
    Answers s (execBbArv m d a s) := by
  unfold execBbArv
  refine Answers.next ?_
  intro h1
  refine onBar_canonical h1 _ _ _ _ ?_
  intro _ _
  split
  · exact refuse_canonical h1 ..
  · split
    · exact waitAt_canonical h1 ..
    · exact finish_canonical (arrive_canonical h1 ..) ..
theorem execBbWt_answers (s : State) (m : Mods) (a : Reg) :
    Answers s (execBbWt m a s) := by
  unfold execBbWt
  refine Answers.next ?_
  intro h1
  refine onBar_canonical h1 _ _ _ _ ?_
  intro _ _
  split
  · exact refuse_canonical h1 ..
  · split
    · exact barTrap_canonical h1 ..
    · split
      · exact waitAt_canonical h1 ..
      · exact finish_canonical h1 ..
theorem setPool_wf {p : Pkg} (hp : Memory.wf p.host.hostMem) (st : Nat) (l : List Nat) :
    Memory.wf (Pkg.setPool p st l).host.hostMem :=
  hp
theorem turnPool_wf {p : Pkg} (hp : Memory.wf p.host.hostMem) (die f : Nat) :
    Memory.wf (Pkg.turnPool p die f).host.hostMem := by
  unfold Pkg.turnPool
  dsimp only
  split <;> exact hp
theorem giveFrames_wf {p : Pkg} (hp : Memory.wf p.host.hostMem) (f n : Nat) :
    Memory.wf (Pkg.giveFrames p f n).host.hostMem :=
  hp
theorem setUsed_canonical {s : State} (hs : Canonical s) (k : Nat) (ctx : W32) (i v : Nat) :
    Canonical (State.setUsed s k ctx i v) := by
  unfold State.setUsed
  split
  · exact storeAt_canonical hs ..
  · exact hs
theorem setLeaf_canonical {s : State} (hs : Canonical s) (k : Nat) (ctx : W32) (va : W64) (v : W64) :
    Canonical (State.setLeaf s k ctx va v) := by
  unfold State.setLeaf
  split
  · exact storeAt_canonical hs ..
  · exact hs
theorem invalidatePod_canonical {s : State} (hs : Canonical s) (k : Nat) (ctx : W32) (va : W64) (size : Nat) :
    Canonical (State.invalidatePod s k ctx va size) := by
  unfold State.invalidatePod
  refine Canonical.modPkg hs _ ?_
  refine foldl_wf ?_ _ ?_
  · intro _ _ hp1
    exact hp1
  · exact hs.2 _
theorem dropDset_canonical {s : State} (hs : Canonical s) (ctx : W32) (i : Nat) :
    Canonical (State.dropDset s ctx i) := by
  unfold State.dropDset
  dsimp only
  split
  · exact hs
  · refine foldl_canonical ?_ _ hs
    intro _ _ h1
    split
    · exact h1
    · exact storeAt_canonical h1 ..
theorem execVmChangeComplete_answers (s : State) (k n : Nat) : Answers s (execVmChangeComplete k n s) := by
  unfold execVmChangeComplete
  split
  · exact Answers.next fun hs => hs
  next c _ =>
  split
  · exact Answers.next fun hs => hs
  extract_lets s1 s2 s3 s4 s5 s6
  refine Answers.next fun hs => ?_
  have h1 : Canonical s1 := hs.modPkg k (hs.2 k)
  have h2 : Canonical s2 := foldl_canonical (fun _ e h => copyBytes_canonical h _ _ _) _ h1
  have h3 : Canonical s3 := foldl_canonical (fun _ e h => setLeaf_canonical h _ _ _ _) _ h2
  have h4 : Canonical s4 := by
    unfold s4
    split
    · exact h3
    · exact canonical_fall h3 fun _ _ hp => invalidate_wf hp ..
  have h5 : Canonical s5 := by
    refine foldl_canonical (fun _ e h => h.modPkg _ (giveFrames_wf (h.2 _) ..)) _ ?_
    split
    · exact h4
    · exact foldl_canonical (fun _ w h => h.modPkg _ (dropAllLines_wf (h.2 _) ..)) _ h4
  have h6 : Canonical s6 := by
    unfold s6
    split
    · exact dropDset_canonical h5 ..
    · exact h5
  split
  · exact fillTag_canonical h6 ..
  · split
    · exact releaseWait_canonical h6 ..
    · exact h6
  · exact h6.modPkg k (cmdDone_wf (h6.2 k) _)
theorem takeFrame_wf {p q : Pkg} {die n f : Nat} (hp : Memory.wf p.host.hostMem) (h : p.takeFrame die n = some (f, q)) : Memory.wf q.host.hostMem := by
  unfold Pkg.takeFrame at h
  rw [List.findSome?_eq_some_iff] at h
  obtain ⟨_, st, _, _, h, _⟩ := h
  simp only [Option.map_eq_some_iff, Prod.mk.injEq] at h
  obtain ⟨_, _, _, rfl⟩ := h
  exact hp
theorem commitPage_canonical {s : State} (hs : Canonical s) (k die : Nat) (ctx : W32) (r : Region) (w : Walked) (va : W64) :
    Canonical (s.commitPage k die ctx r w va).2 := by
  unfold State.commitPage
  split
  · exact hs
  split
  · exact hs
  split
  · exact hs
  next f p hf =>
  have h1 := storeAt_canonical (zeroRange_canonical (hs.setPkg k (turnPool_wf (takeFrame_wf (hs.2 k) hf) die f)) (frameKey k f) (2 ^ 16)) (hbmKey k w.pa)
    (leBytes 8 (mkLeaf w.pte 2 k 0 f).toNat)
  have h2 := setUsed_canonical h1 k ctx r.idx (r.used + 1)
  exact h2.modPkg k (invalidate_wf (dropAllLines_wf (h2.2 k) ..) ..)
theorem execVmCommit_answers (s : State) (m : Mods) (d a : Reg) :
    Answers s (execVmCommit m d a s) := by
  unfold execVmCommit
  split
  · exact Answers.next (fun h1 => finish_canonical h1 ..)
  · dsimp only
    split
    · exact Answers.next (fun h1 => faultElected_canonical h1 ..)
    · split
      · exact Answers.next (fun h1 => faultElected_canonical h1 ..)
      · refine Answers.next ?_
        intro h1
        refine finish_canonical ?_ ..
        refine sendAll_canonical ?_ ..
        split
        · exact acquireLines_canonical (commitPage_canonical h1 ..) ..
        · exact commitPage_canonical h1 ..
theorem beginChange_canonical {s : State} (hs : Canonical s) (m : Mods) (d : Reg) (c : VmChange) :
    Canonical (State.beginChange s m d c) :=
  Canonical.modPkg (oweAll_canonical hs ..) _ (hs.2 _)
theorem execVmFree_answers (s : State) (m : Mods) (d a : Reg) :
    Answers s (execVmFree m d a s) := by
  unfold execVmFree
  split
  · exact Answers.next (fun h1 => finish_canonical h1 ..)
  · dsimp only
    split
    · exact Answers.next (fun h1 => faultElected_canonical h1 ..)
    · split
      · exact Answers.next (fun h1 => faultElected_canonical h1 ..)
      · split
        · exact Answers.next (fun h1 => waitAt_canonical h1 ..)
        · split
          · exact Answers.next (fun h1 => finish_canonical (sendAll_canonical h1 ..) ..)
          · refine Answers.next ?_
            intro h1
            refine finish_canonical ?_ ..
            refine beginChange_canonical ?_ ..
            refine invalidatePod_canonical ?_ ..
            refine setUsed_canonical ?_ ..
            refine foldl_canonical ?_ _ (storeAt_canonical h1 ..)
            intro _ _ h2
            split
            · exact setLeaf_canonical h2 ..
            · exact h2
theorem splitOn_canonical {s : State} (hs : Canonical s) (q : Nat) (ctx : W32) (va : W64) : Canonical (s.splitOn q ctx va) := by
  unfold State.splitOn
  split
  · extract_lets tbl isFwd leaf s1 s2
    have h2 : Canonical s2 := storeAt_canonical (storeAt_canonical hs ..) ..
    exact h2.modPkg_host q fun _ => rfl
  · exact hs
theorem takeFrames_canonical {s t : State} {l : List (Nat × Nat)} (hs : Canonical s) (die n : Nat) (qs : List Nat)
    (h : s.takeFrames die n qs = some (l, t)) : Canonical t := by
  induction qs generalizing s l with
  | nil =>
    cases h
    exact hs
  | cons q qs ih =>
    unfold State.takeFrames at h
    split at h
    · cases h
    next f p hf =>
    split at h
    · cases h
    next hr =>
    cases h
    exact ih (hs.setPkg q (takeFrame_wf (hs.2 q) hf)) hr
theorem takeDset_canonical {s t : State} {i : Nat} (hs : Canonical s) (k : Nat) (ctx : W32) (mask : BitVec 128)
    (h : s.takeDset k ctx mask = some (i, t)) : Canonical t := by
  unfold State.takeDset at h
  simp only [Option.map_eq_some_iff, Prod.mk.injEq] at h
  obtain ⟨_, _, _, rfl⟩ := h
  refine foldl_canonical (fun _ q h => ?_) _ hs
  split
  · exact h
  · exact storeAt_canonical h ..
def VmAsk.Keeps (s : State) (a : VmAsk) : Prop := ∀ s1 c, a = .begin_ s1 c → Canonical s → Canonical s1
theorem VmAsk.keeps_begin {s s1 : State} {c : VmChange} (h : Canonical s → Canonical s1) : VmAsk.Keeps s (.begin_ s1 c) := by
  rintro _ _ ⟨⟩
  exact h
theorem VmAsk.keeps_param {s : State} : VmAsk.Keeps s .param := nofun
theorem VmAsk.keeps_wait {s : State} : VmAsk.Keeps s .wait := nofun
theorem VmAsk.keeps_now {s : State} {n : Nat} : VmAsk.Keeps s (.now n) := nofun
theorem vmProt_keeps (s : State) (k : Nat) (ctx : W32) (va : W64) (n perm : Nat) : VmAsk.Keeps s (vmProt s k ctx va n perm) := by
  unfold vmProt
  split
  · exact VmAsk.keeps_param
  · exact VmAsk.keeps_now
  split
  · exact VmAsk.keeps_wait
  refine VmAsk.keeps_begin fun hs => ?_
  refine foldl_canonical (fun _ p h => invalidatePod_canonical h ..) _ (foldl_canonical (fun _ p h => ?_) _ hs)
  refine foldl_canonical (fun _ q h => ?_) _ h
  split
  · exact setLeaf_canonical h ..
  · exact h
theorem vmDup_keeps (s : State) (k die : Nat) (ctx : W32) (va : W64) (mask : BitVec 128) : VmAsk.Keeps s (vmDup s k die ctx va mask) := by
  unfold vmDup
  split
  · exact VmAsk.keeps_param
  split
  · exact VmAsk.keeps_now
  split
  · exact VmAsk.keeps_param
  dsimp only
  split
  · exact VmAsk.keeps_now
  split
  · exact VmAsk.keeps_now
  split
  · exact VmAsk.keeps_wait
  split
  · split
    · exact VmAsk.keeps_now
    split
    · exact VmAsk.keeps_now
    next hf => exact VmAsk.keeps_begin fun hs => invalidatePod_canonical (takeFrames_canonical hs _ _ _ hf) ..
  · split
    · exact VmAsk.keeps_now
    next hf =>
    split
    · exact VmAsk.keeps_now
    next hd => exact VmAsk.keeps_begin fun hs => invalidatePod_canonical (takeDset_canonical (takeFrames_canonical hs _ _ _ hf) _ _ _ hd) ..
theorem vmSplit_keeps (s : State) (k : Nat) (ctx : W32) (va : W64) : VmAsk.Keeps s (vmSplit s k ctx va) := by
  unfold vmSplit
  split
  · exact VmAsk.keeps_now
  split
  · exact VmAsk.keeps_param
  split
  · exact VmAsk.keeps_now
  extract_lets va' on
  split
  · exact VmAsk.keeps_wait
  split
  · exact VmAsk.keeps_now
  refine VmAsk.keeps_begin fun hs => invalidatePod_canonical (foldl_canonical (fun _ e h => h.modPkg _ (dropAllLines_wf (h.2 _) ..)) _ ?_) ..
  exact foldl_canonical (fun _ q h => splitOn_canonical h ..) _ hs
theorem vmInstr_canonical {s : State} (hs : Canonical s) (i : Instr) (m : Mods) (d : Reg) (ask : Nat → VmAsk)
    (hask : ∀ e, VmAsk.Keeps s (ask e)) : Canonical (vmInstr i s m d ask) := by
  unfold vmInstr
  split
  · exact finish_canonical hs _
  next e _ =>
  split
  · exact refuseWith_canonical hs ..
  split
  · exact refuse_canonical hs ..
  · exact waitAt_canonical hs _
  · exact finish_canonical (sendAll_canonical hs ..) _
  next he => exact finish_canonical (beginChange_canonical (hask e _ _ he hs) ..) _
theorem execVmProt_answers (s : State) (m : Mods) (d a : Reg) : Answers s (execVmProt m d a s) :=
  Answers.next fun hs => vmInstr_canonical hs _ _ _ _ fun e => by
    dsimp only
    split
    · exact VmAsk.keeps_param
    · exact vmProt_keeps _ _ _ _ _ _
theorem execVmDup_answers (s : State) (m : Mods) (d a : Reg) : Answers s (execVmDup m d a s) :=
  Answers.next fun hs => vmInstr_canonical hs _ _ _ _ fun _ => vmDup_keeps _ _ _ _ _ _
theorem execVmSplit_answers (s : State) (m : Mods) (d a : Reg) : Answers s (execVmSplit m d a s) :=
  Answers.next fun hs => vmInstr_canonical hs _ _ _ _ fun _ => vmSplit_keeps _ _ _ _
theorem tlbDrop_canonical {s : State} (hs : Canonical s) (k core : Nat) (ctx : W32) (va : W64) (n : Nat) (sc : Scope) :
    Canonical (State.tlbDrop s k core ctx va n sc) := by
  unfold State.tlbDrop
  dsimp only
  split
  · exact modCore_canonical hs ..
  · exact Canonical.modPkg hs _ (hs.2 _)
  · exact Canonical.modPkg hs _ (hs.2 _)
  · exact foldl_canonical (fun _ _ h1 => invalidatePod_canonical h1 ..) _ hs
theorem execTlbInv_answers (s : State) (m : Mods) (a : Reg) :
    Answers s (execTlbInv m a s) := by
  unfold execTlbInv
  split
  · exact Answers.next (fun h1 => finish_canonical h1 ..)
  · dsimp only
    split
    · exact Answers.next (fun h1 => refuseWith_canonical h1 ..)
    · split
      · exact Answers.next (fun h1 => refuse_canonical h1 ..)
      · split
        · exact Answers.next (fun h1 => finish_canonical h1 ..)
        · split
          · exact Answers.next (fun h1 => waitAt_canonical h1 ..)
          · exact Answers.next (fun h1 => waitAt_canonical (Canonical.modPkg (Canonical.rest (tlbDrop_canonical h1 ..)) _ ((Canonical.rest (tlbDrop_canonical h1 ..)).2 _)) ..)
theorem execInvalidateNotice_answers (s : State) (k : Nat) :
    Answers s (execInvalidateNotice k s) := by
  unfold execInvalidateNotice
  split
  · split
    · exact Answers.next (fun h1 => h1)
    · exact Answers.next (fun h1 => Canonical.modPkg h1 _ (h1.2 _))
  · exact Answers.next (fun h1 => h1)
theorem heapGrow_canonical {s : State} (hs : Canonical s) (k die : Nat) (ctx : W32) (c : Nat) :
    Canonical (State.heapGrow s k die ctx c) := by
  unfold State.heapGrow
  split
  · exact hs
  · split
    · exact hs
    · dsimp only
      split
      · exact hs
      · split
        · exact hs
        · split
          · exact hs
          · exact Canonical.modPkg (commitPage_canonical hs ..) _ ((commitPage_canonical hs ..).2 _)
theorem setHeapList_canonical {s : State} (hs : Canonical s) (k : Nat) (ctx : W32) (c : Nat) (l : List W64) :
    Canonical (State.setHeapList s k ctx c l) :=
  Canonical.modPkg hs _ (hs.2 _)
theorem heapTake_canonical {s : State} (hs : Canonical s) (k die : Nat) (ctx : W32) (size : Nat) :
    Canonical (State.heapTake s k die ctx size).2 := by
  unfold State.heapTake
  split
  · exact hs
  · dsimp only
    split
    · split
      · exact heapGrow_canonical hs ..
      · exact hs
    · refine devStore_canonical ?_ ..
      refine Canonical.rest ?_
      refine setHeapList_canonical ?_ ..
      split
      · exact heapGrow_canonical hs ..
      · exact hs
theorem heapLanes_canonical {s : State} (hs : Canonical s) (k die : Nat) (ctx : W32) (ls : List (Nat × Nat)) :
    Canonical (heapLanes k die ctx ls s).2 := by
  induction ls generalizing s with
  | nil => exact hs
  | cons e ls ih => exact ih (heapTake_canonical hs ..)
theorem execHalloc_answers (s : State) (m : Mods) (d a : Reg) : Answers s (execHalloc m d a s) := by
  unfold execHalloc
  extract_lets r s1 id
  refine Answers.next fun hs => ?_
  have hr : Canonical r.2 := heapLanes_canonical hs ..
  have h1 : Canonical s1 := by
    unfold s1
    split
    · exact acquireLines_canonical hr _
    · exact hr
  exact finish_canonical h1.rest _
theorem execHfree_answers (s : State) (m : Mods) (a : Reg) :
    Answers s (execHfree m a s) := by
  unfold execHfree
  dsimp only
  split
  · exact Answers.next (fun h1 => waitAt_canonical h1 ..)
  · refine Answers.next ?_
    intro h1
    refine finish_canonical ?_ ..
    refine foldl_canonical ?_ _ h1
    intro _ _ h2
    split
    · exact setHeapList_canonical h2 ..
    · exact h2
theorem modTok_wf {p : Pkg} (hp : Memory.wf p.host.hostMem) (i : Nat) (f : Tok → Tok) :
    Memory.wf (Pkg.modTok p i f).host.hostMem :=
  hp
theorem freeToks_wf {p : Pkg} (hp : Memory.wf p.host.hostMem) :
    Memory.wf (Pkg.freeToks p).host.hostMem :=
  hp
theorem landOne_wf {p : Pkg} (hp : Memory.wf p.host.hostMem) (i : Nat) :
    Memory.wf (Pkg.landOne p i).host.hostMem := by
  unfold Pkg.landOne
  refine foldl_wf ?_ _ ?_
  · intro _ _ hp1
    exact hp1
  · refine modTok_wf ?_ ..
    refine foldl_wf ?_ _ hp
    intro _ _ hp1
    exact hp1
theorem landJoins_wf {p : Pkg} (hp : Memory.wf p.host.hostMem) (f : Nat) : Memory.wf (landJoins f p).host.hostMem := by
  induction f generalizing p with
  | zero => exact hp
  | succ f ih =>
    unfold landJoins
    split
    · exact hp
    · exact ih (landOne_wf hp _)
theorem landTok_wf {p : Pkg} (hp : Memory.wf p.host.hostMem) (t : W32) : Memory.wf (p.landTok t).host.hostMem := by
  unfold Pkg.landTok
  extract_lets x
  split
  · exact freeToks_wf (landJoins_wf (landOne_wf hp _) _)
  · exact hp
theorem enqueue_wf {p : Pkg} (hp : Memory.wf p.host.hostMem) (k : Nat) (via : Option Nat) (x : Packet) :
    Memory.wf (Pkg.enqueue p k via x).host.hostMem := by
  unfold Pkg.enqueue
  split
  · exact hp
  · split <;> exact hp
theorem newTok_wf {p q : Pkg} {st : TokSt} {ins : List Nat} {ctx t : W32} (hp : Memory.wf p.host.hostMem)
    (h : p.newTok st ins ctx = some (t, q)) : Memory.wf q.host.hostMem := by
  unfold Pkg.newTok at h
  obtain ⟨_, i, _, _, h, _⟩ := List.findSome?_eq_some_iff.1 h
  extract_lets x at h
  split at h
  · cases h
    exact hp
  · cases h
theorem remoteSend_canonical {s : State} (hs : Canonical s) (i : Instr) (m : Mods) (dep spr : Bool) (d : Reg) (o : RemOp) (dst : Nat) :
    Canonical (remoteSend i s m dep spr d o dst) := by
  unfold remoteSend
  extract_lets k via lanes s0 lock
  split
  · exact waitAt_canonical (missed_canonical hs ..) _
  have h0 : Canonical s0 := walked_canonical hs ..
  have hlock : ∀ s, Canonical s → Canonical (lock s) := by
    intro s h
    unfold lock
    split
    · exact h.rest
    · exact h
  split
  · have hr := oweAll_canonical h0 m true d o.words
    refine finish_canonical (hr.modPkg k (enqueue_wf ?_ ..)) _
    exact hr.2 k
  split
  · split
    · exact waitAt_canonical hs _
    next t p ht =>
    exact finish_canonical (hlock _ (sendAll_canonical (h0.setPkg k (enqueue_wf (newTok_wf (h0.2 k) ht) ..)) ..)) _
  · exact finish_canonical (hlock _ (sendAll_canonical (h0.modPkg k (enqueue_wf (h0.2 k) ..)) ..)) _
theorem remoteGo_canonical {s : State} (hs : Canonical s) (i : Instr) (m : Mods) (dep spr : Bool) (d a : Reg) (n : Nat) (rd : List W32 → Option RemOp) :
    Canonical (remoteGo i s m dep spr d a n rd) := by
  unfold remoteGo
  split
  · exact finish_canonical hs ..
  · dsimp only
    split
    · exact refuse_canonical hs ..
    · split
      · exact refuse_canonical hs ..
      · split
        · exact refuse_canonical hs ..
        · split
          · exact refuse_canonical hs ..
          · split
            · exact faultElected_canonical hs ..
            · exact remoteSend_canonical hs ..
theorem execRst_answers (s : State) (m : Mods) (dep spr : Bool) (d a : Reg) :
    Answers s (execRst m dep spr d a s) :=
  Answers.next (fun h1 => remoteGo_canonical h1 ..)
theorem execRld_answers (s : State) (m : Mods) (dep spr : Bool) (d a : Reg) :
    Answers s (execRld m dep spr d a s) :=
  Answers.next (fun h1 => remoteGo_canonical h1 ..)
theorem execRatom_answers (s : State) (m : Mods) (tok dep spr : Bool) (d a : Reg) :
    Answers s (execRatom m tok dep spr d a s) := by
  unfold execRatom
  split
  · exact Answers.next (fun h1 => refuse_canonical h1 ..)
  · exact Answers.next (fun h1 => remoteGo_canonical h1 ..)
theorem execTokJoin_answers (s : State) (m : Mods) (d a : Reg) : Answers s (execTokJoin m d a s) := by
  unfold execTokJoin
  split
  · exact Answers.next fun hs => finish_canonical hs _
  extract_lets x y k p give
  have hgive : ∀ s t, Canonical s → Canonical (give s t) := fun _ _ h => finish_canonical (sendAll_canonical h ..) _
  split
  · exact Answers.next fun hs => refuse_canonical hs ..
  split
  · exact Answers.next fun hs => hgive _ _ hs
  split
  · exact Answers.next fun hs => hgive _ _ hs
  split
  · exact Answers.next fun hs => hgive _ _ hs
  split
  · exact Answers.next fun hs => waitAt_canonical hs _
  next t p1 ht =>
  exact Answers.next fun hs => hgive _ _ (hs.setPkg k (foldl_wf (fun _ _ h => modTok_wf h ..) _ (newTok_wf (hs.2 k) ht)))
theorem execTokTest_answers (s : State) (m : Mods) (d a : Reg) :
    Answers s (execTokTest m d a s) := by
  unfold execTokTest
  split
  · exact Answers.next (fun h1 => finish_canonical h1 ..)
  · dsimp only
    split
    · exact Answers.next (fun h1 => refuse_canonical h1 ..)
    · exact Answers.next (fun h1 => finish_canonical (sendAll_canonical h1 ..) ..)
theorem execTokWait_answers (s : State) (m : Mods) (a : Reg) :
    Answers s (execTokWait m a s) := by
  unfold execTokWait
  split
  · exact Answers.next (fun h1 => finish_canonical h1 ..)
  · dsimp only
    split
    · exact Answers.next (fun h1 => refuse_canonical h1 ..)
    · split
      · exact Answers.next (fun h1 => finish_canonical (acquireLines_canonical h1 ..) ..)
      · exact Answers.next (fun h1 => waitAt_canonical h1 ..)
theorem addEvent_canonical {s : State} (hs : Canonical s) (key : Nat) (n : W64) :
    Canonical (State.addEvent s key n) :=
  update_canonical hs ..
theorem execEvtSig_answers (s : State) (m : Mods) (a : Reg) :
    Answers s (execEvtSig m a s) := by
  unfold execEvtSig
  split
  · exact Answers.next (fun h1 => finish_canonical h1 ..)
  · dsimp only
    split
    · exact Answers.next (fun h1 => faultElected_canonical h1 ..)
    · split
      · exact Answers.next (fun h1 => waitAt_canonical (missed_canonical h1 ..) ..)
      · exact Answers.next (fun h1 => finish_canonical (addEvent_canonical (walked_canonical h1 ..) ..) ..)
theorem execEvtWt_answers (s : State) (m : Mods) (a : Reg) :
    Answers s (execEvtWt m a s) := by
  unfold execEvtWt
  split
  · exact Answers.next (fun h1 => finish_canonical h1 ..)
  · dsimp only
    split
    · exact Answers.next (fun h1 => faultElected_canonical h1 ..)
    · split
      · exact Answers.next (fun h1 => waitAt_canonical (missed_canonical h1 ..) ..)
      · exact Answers.next (fun h1 => finish_canonical (observe_canonical (acquireLines_canonical (walked_canonical h1 ..) ..) ..) ..)
theorem slew_wf {p : Pkg} (hp : Memory.wf p.host.hostMem) :
    Memory.wf (Pkg.slew p).host.hostMem :=
  hp
theorem takeDep_wf {p q : Pkg} {x y : Packet} (hp : Memory.wf p.host.hostMem) (h : p.takeDep x = some (y, q)) : Memory.wf q.host.hostMem := by
  unfold Pkg.takeDep at h
  split at h
  · cases h
    exact hp
  split at h
  · cases h
    exact hp
  extract_lets i y has at h
  split at h
  · cases h
  · cases h
    exact hp
theorem sendRelay_wf (q f : Nat) {t : Tx} (h : Memory.wf t.p.host.hostMem) : Memory.wf (sendRelay q f t).p.host.hostMem := by
  induction f generalizing t with
  | zero => exact h
  | succ f ih =>
    unfold sendRelay
    split
    · exact h
    split
    · exact h
    · refine ih ?_
      dsimp only
      split <;> exact h
theorem sendOwn_wf (q f : Nat) {t : Tx} (h : Memory.wf t.p.host.hostMem) : Memory.wf (sendOwn q f t).p.host.hostMem := by
  induction f generalizing t with
  | zero => exact h
  | succ f ih =>
    unfold sendOwn
    split
    · exact h
    split
    · exact h
    split
    · exact ih h
    split
    · exact h
    split
    · exact h
    next hd =>
    have h1 := takeDep_wf h hd
    exact ih h1
theorem sendPool_wf (q f : Nat) {t : Tx} (h : Memory.wf t.p.host.hostMem) : Memory.wf (sendPool q f t).p.host.hostMem := by
  induction f generalizing t with
  | zero => exact h
  | succ f ih =>
    unfold sendPool
    split
    · exact h
    split
    · exact h
    extract_lets drop
    split
    · exact h
    split
    · exact ih h
    split
    · exact h
    split
    · exact h
    next hd =>
    have h1 := takeDep_wf h hd
    exact ih h1
theorem takeFor_wf {p : Pkg} (hp : Memory.wf p.host.hostMem) (q room : Nat) (late : Bool) : Memory.wf (p.takeFor q room late).p.host.hostMem :=
  sendPool_wf _ _ (sendOwn_wf _ _ (sendRelay_wf _ _ hp))
theorem fillFrame_wf {p q : Pkg} {x : Frame} {k port fl cycle : Nat} (hp : Memory.wf p.host.hostMem)
    (h : p.fillFrame k port fl cycle = some (x, q)) : Memory.wf q.host.hostMem := by
  unfold Pkg.fillFrame at h
  extract_lets n q p1 ns p2 t x at h
  split at h
  · cases h
  · cases h
    exact takeFor_wf (p := p2) hp ..
theorem moreFrame_wf {p q : Pkg} {x : Frame} {k port fl cycle : Nat} (hp : Memory.wf p.host.hostMem)
    (h : p.moreFrame k port fl cycle = some (x, q)) : Memory.wf q.host.hostMem := by
  unfold Pkg.moreFrame at h
  split at h
  · cases h
  extract_lets q t at h
  split at h
  · cases h
  split at h
  · cases h
  · cases h
    exact takeFor_wf hp ..
theorem eachPort_wf (s : State) (k : Nat) {p : Pkg} (hp : Memory.wf p.host.hostMem) (f : Pkg → Nat → Nat → Option (Frame × Pkg))
    (hf : ∀ p q x i fl, Memory.wf p.host.hostMem → f p i fl = some (x, q) → Memory.wf q.host.hostMem) :
    Memory.wf (s.eachPort k p f).2.host.hostMem := by
  unfold State.eachPort
  split
  · exact hp
  refine List.foldlRecOn (b := (([] : List Frame), p)) (motive := fun acc => Memory.wf acc.2.host.hostMem) _ _ hp fun (acc : List Frame × Pkg) h i _ => ?_
  split
  next he => exact hf _ _ _ _ _ h he
  · exact h
theorem newWidths_wf {p : Pkg} (hp : Memory.wf p.host.hostMem) : Memory.wf p.newWidths.host.hostMem := by
  refine foldl_wf (fun p e h => ?_) _ hp
  split
  · exact h
  · dsimp only
    split
    · exact h
    · refine mgmtEvent_wf ?_ ..
      exact h
theorem leaveSync_wf {p : Pkg} (hp : Memory.wf p.host.hostMem) : Memory.wf p.leaveSync.host.hostMem := by
  unfold Pkg.leaveSync
  split
  · refine mgmtEvent_wf ?_ ..
    exact hp
  · exact hp
theorem execSlotStart_answers (s : State) (k : Nat) : Answers s (execSlotStart k s) := by
  refine Answers.next fun hs => Canonical.rest (hs.setPkg k (freeToks_wf (eachPort_wf _ _ ?_ _ fun _ _ _ _ _ h => fillFrame_wf h)))
  refine leaveSync_wf (p := (s.pkg k).newWidths.slew) ?_
  exact newWidths_wf (hs.2 k)
theorem moreFrames_canonical {s : State} (hs : Canonical s) (k : Nat) : Canonical (s.moreFrames k) := by
  unfold State.moreFrames
  extract_lets r
  split
  · exact hs
  · exact Canonical.rest (hs.setPkg k (eachPort_wf _ _ (hs.2 k) _ fun _ _ _ _ _ h => moreFrame_wf h))
theorem takeAcks_wf {p : Pkg} (hp : Memory.wf p.host.hostMem) (f : Frame) :
    Memory.wf (Pkg.takeAcks p f).host.hostMem :=
  hp
theorem resend_wf {p : Pkg} (hp : Memory.wf p.host.hostMem) (q : Nat) (st : Stream) :
    Memory.wf (Pkg.resend p q st).host.hostMem := by
  unfold Pkg.resend
  split <;> exact hp
theorem loseStream_canonical {s : State} (hs : Canonical s) (k : Nat) (f : Frame) (st : Stream) :
    Canonical (State.loseStream s k f st) :=
  Canonical.modPkg hs _ (resend_wf (hs.2 _) ..)
theorem crcFail_wf {p : Pkg} (hp : Memory.wf p.host.hostMem) (f : Frame) (st : Stream) :
    Memory.wf (Pkg.crcFail p f st).host.hostMem := by
  unfold Pkg.crcFail
  dsimp only
  split
  · refine mgmtEvent_wf ?_ ..
    exact hp
  · exact hp
theorem addArrival_wf {p : Pkg} (hp : Memory.wf p.host.hostMem) (q : Nat) (x : Packet) :
    Memory.wf (Pkg.addArrival p q x).host.hostMem :=
  hp
theorem accept_wf {p : Pkg} (hp : Memory.wf p.host.hostMem) (f : Frame) (x : Packet) (st : Stream) :
    Memory.wf (Pkg.accept p f x st).host.hostMem := by
  unfold Pkg.accept
  dsimp only
  split <;> exact hp
theorem acceptPacket_canonical {s : State} (hs : Canonical s) (k : Nat) (f : Frame) (x : Packet) :
    Canonical (State.acceptPacket s k f x) := by
  unfold State.acceptPacket
  split
  · exact hs
  · dsimp only
    split
    · split
      · exact loseStream_canonical hs ..
      · exact Canonical.modPkg hs _ (accept_wf (hs.2 _) ..)
    · split
      · exact hs
      · exact loseStream_canonical hs ..
theorem badPacket_canonical {s : State} (hs : Canonical s) (k : Nat) (f : Frame) (x : Packet) :
    Canonical (State.badPacket s k f x) := by
  unfold State.badPacket
  split
  · exact loseStream_canonical (Canonical.modPkg hs _ (crcFail_wf (hs.2 _) ..)) ..
  · exact hs
theorem badFrame_canonical {s : State} (hs : Canonical s) (k : Nat) (f : Frame) (crc : Bool) :
    Canonical (State.badFrame s k f crc) := by
  unfold State.badFrame
  refine Canonical.modPkg ?_ _ ?_
  · refine foldl_canonical ?_ _ hs
    intro _ _ h1
    refine loseStream_canonical ?_ ..
    split
    · exact Canonical.modPkg h1 _ (crcFail_wf (h1.2 _) ..)
    · exact h1
  · refine modPeer_wf ?_ ..
    refine Canonical.host ?_ _
    refine foldl_canonical ?_ _ hs
    intro _ _ h1
    refine loseStream_canonical ?_ ..
    split
    · exact Canonical.modPkg h1 _ (crcFail_wf (h1.2 _) ..)
    · exact h1
theorem followMaster_wf {p : Pkg} (hp : Memory.wf p.host.hostMem) (k : Nat) : Memory.wf (p.followMaster k).host.hostMem := by
  unfold Pkg.followMaster
  split
  · exact hp
  split
  · split <;> exact hp
  · extract_lets p1
    split
    · exact hp
    · refine mgmtEvent_wf ?_ ..
      exact hp
theorem measure_wf {p : Pkg} (hp : Memory.wf p.host.hostMem) (o : Int) : Memory.wf (p.measure o).host.hostMem := by
  unfold Pkg.measure
  extract_lets p1
  split
  · refine mgmtEvent_wf ?_ ..
    exact hp
  · exact hp
theorem takeHeader_wf {p : Pkg} (hp : Memory.wf p.host.hostMem) (k : Nat) (f : Frame) (cycle : Nat) :
    Memory.wf (p.takeHeader k f cycle).host.hostMem := by
  unfold Pkg.takeHeader
  extract_lets p1 p2 p3
  have h2 : Memory.wf p2.host.hostMem := takeAcks_wf (followMaster_wf (p := p1) hp k) f
  show Memory.wf p3.host.hostMem
  unfold p3
  split
  · exact measure_wf h2 _
  · exact h2
theorem execFrameReceive_answers (s : State) (k n bad : Nat) :
    Answers s (execFrameReceive k n bad s) := by
  unfold execFrameReceive
  split
  · exact Answers.next (fun h1 => h1)
  · split
    · exact Answers.next (fun h1 => h1)
    · dsimp only
      split
      · exact Answers.next (fun h1 => badFrame_canonical h1.rest ..)
      · refine Answers.next ?_
        intro h1
        refine foldl_canonical ?_ _ ?_
        · intro _ _ h2
          split
          · exact badPacket_canonical h2 ..
          · exact acceptPacket_canonical h2 ..
        · split
          · exact h1.rest
          · exact Canonical.setPkg h1.rest _ (takeHeader_wf (h1.2 _) ..)
theorem execMasterLoss_answers (s : State) (k : Nat) :
    Answers s (execMasterLoss k s) :=
  Answers.next (fun h1 => Canonical.modPkg h1 _ (followMaster_wf (h1.2 _) ..))
theorem execFreeRunExpiry_answers (s : State) (k : Nat) : Answers s (execFreeRunExpiry k s) := by
  refine Answers.next fun hs => hs.modPkg k ?_
  dsimp only
  split
  · split
    · refine mgmtEvent_wf ?_ ..
      exact hs.2 k
    · exact hs.2 k
  · exact hs.2 k
theorem execLaneFailure_answers (s : State) (k n l : Nat) :
    Answers s (execLaneFailure k n l s) := by
  unfold execLaneFailure
  refine Answers.next ?_
  intro h1
  refine Canonical.modPkg h1 _ ?_
  split <;> exact h1.2 _
theorem execLaneRejoin_answers (s : State) (k n l : Nat) :
    Answers s (execLaneRejoin k n l s) := by
  unfold execLaneRejoin
  refine Answers.next ?_
  intro h1
  refine Canonical.modPkg h1 _ ?_
  dsimp only
  split <;> exact h1.2 _
theorem nextNotice_wf {p p' : Pkg} {kd : NKind} {q : Nat} {n : Notice} (hp : Memory.wf p.host.hostMem) (h : p.nextNotice kd = some (q, n, p')) :
    Memory.wf p'.host.hostMem := by
  unfold Pkg.nextNotice at h
  split at h
  · split at h
    · cases h
      exact hp
    · cases h
  · cases h
theorem onNotice_answers (s : State) (k : Nat) (kd : NKind) (go : Nat → Notice → Pkg → Pkg)
    (h_go : ∀ q n p, Memory.wf p.host.hostMem → Memory.wf (go q n p).host.hostMem) : Answers s (onNotice k kd s go) := by
  unfold onNotice
  split
  · exact Answers.next fun hs => hs
  next h => exact Answers.next fun hs => hs.setPkg k (h_go _ _ _ (nextNotice_wf (hs.2 k) h))
theorem execLandedNotice_answers (s : State) (k : Nat) : Answers s (execLandedNotice k s) :=
  onNotice_answers _ _ _ _ fun _ _ _ hp => landTok_wf hp _
theorem execAppliedCountNotice_answers (s : State) (k : Nat) :
    Answers s (execAppliedCountNotice k s) := by
  unfold execAppliedCountNotice
  refine onNotice_answers _ _ _ _ ?_
  intro _ _ _ hp1
  exact hp1
theorem execForwardedCountNotice_answers (s : State) (k : Nat) :
    Answers s (execForwardedCountNotice k s) := by
  unfold execForwardedCountNotice
  refine onNotice_answers _ _ _ _ ?_
  intro _ _ _ hp1
  exact hp1
theorem execRelayedAppliedCountNotice_answers (s : State) (k : Nat) :
    Answers s (execRelayedAppliedCountNotice k s) := by
  unfold execRelayedAppliedCountNotice
  refine onNotice_answers _ _ _ _ ?_
  intro _ _ _ hp1
  exact hp1
theorem execHoldFreeNotice_answers (s : State) (k : Nat) :
    Answers s (execHoldFreeNotice k s) := by
  unfold execHoldFreeNotice
  refine onNotice_answers _ _ _ _ ?_
  intro _ _ _ hp1
  exact hp1
theorem giveHolds_wf {p : Pkg} (hp : Memory.wf p.host.hostMem) (q n : Nat) :
    Memory.wf (Pkg.giveHolds p q n).host.hostMem := by
  unfold Pkg.giveHolds
  split <;> exact hp
theorem execReleaseNotice_answers (s : State) (k : Nat) : Answers s (execReleaseNotice k s) :=
  onNotice_answers _ _ _ _ fun _ _ _ hp => by
    refine giveHolds_wf ?_ ..
    exact hp
theorem streamFailed_wf {p : Pkg} (hp : Memory.wf p.host.hostMem) (q : Nat) (sends : Bool) :
    Memory.wf (Pkg.streamFailed p q sends).host.hostMem :=
  hp
theorem execHoldExpiry_answers (s : State) (k n : Nat) :
    Answers s (execHoldExpiry k n s) := by
  unfold execHoldExpiry
  split
  · exact Answers.next (fun h1 => h1)
  · split
    · exact Answers.next (fun h1 => h1)
    · refine Answers.next ?_
      intro h1
      refine Canonical.modPkg h1 _ ?_
      refine streamFailed_wf ?_ ..
      refine giveHolds_wf ?_ ..
      split
      · split
        · exact h1.2 _
        · refine landRelayed_wf ?_ ..
          exact h1.2 _
      · exact h1.2 _
theorem execExpiryNotice_answers (s : State) (k : Nat) : Answers s (execExpiryNotice k s) := by
  unfold execExpiryNotice
  split
  · exact Answers.next fun hs => hs
  next h =>
  exact Answers.next fun hs => foldl_canonical (fun _ _ h => stopContext_canonical h ..) _ (hs.setPkg k (streamFailed_wf (nextNotice_wf (hs.2 k) h) ..))

end Sys2Proof
end

