-- ==== Sys2Proof/Proofs/KeepsPacketsAndEngines.lean ====
section
/-! SUPPORT. Packets, waves, array, engine and collective work keep memory in its canonical form and answer a next state. -/

namespace Sys2Proof
open Machine

theorem landed_canonical {s : State} (hs : Canonical s) (k : Nat) (here : Bool) (x : Packet) :
    Canonical (State.landed s k here x) := by
  unfold State.landed
  refine Canonical.modPkg hs _ ?_
  split
  · dsimp only
    split
    · refine landTok_wf ?_ ..
      exact hs.2 _
    · exact hs.2 _
  · dsimp only
    split
    · refine modPeer_wf ?_ ..
      split
      · exact hs.2 _
      · exact landRelayed_wf (hs.2 _) ..
    · split
      · exact hs.2 _
      · exact landRelayed_wf (hs.2 _) ..
theorem onPacket_answers (s : State) (k : Nat) (kind : PKind) (go : Bool → Packet → State → State)
    (h_go : ∀ b x t, Canonical t → Canonical (go b x t)) : Answers s (onPacket k kind s go) := by
  have hl : Canonical s → EachCanonical (match (s.pkg k).fab.locals with
      | o :: rest =>
        if o.kind = kind ∧ (!o.pkt.dep || (s.pkg k).tokLanded o.pkt.dept) then
          some ((go true o.pkt (s.modPkg k (fun p => { p with fab := { p.fab with locals := rest } }))).landed k true o.pkt)
        else none
      | [] => none) := by
    intro hs
    split
    · split
      · exact eachCanonical_some (landed_canonical (h_go _ _ _ (hs.modPkg k (hs.2 k))) ..)
      · exact eachCanonical_none
    · exact eachCanonical_none
  unfold onPacket
  extract_lets +onlyGivenNames f local_
  split
  · next q x rest _ =>
    split
    · exact Answers.next fun hs => (hl hs).getD hs
    extract_lets +onlyGivenNames s1
    have h1 : Canonical s → Canonical s1 := fun hs => hs.modPkg k (hs.2 k)
    split
    · exact Answers.next fun hs => (h1 hs).modPkg k ((h1 hs).2 k)
    split
    · exact Answers.next fun hs => landed_canonical (h_go _ _ _ (h1 hs)) ..
    split
    · refine Answers.next fun hs => landed_canonical (h_go _ _ _ ((h1 hs).modPkg k (giveHolds_wf ?_ ..))) ..
      exact (h1 hs).2 k
    · extract_lets +onlyGivenNames h
      split
      · exact Answers.next fun hs => hs
      · exact Answers.next fun hs => (h1 hs).modPkg k ((h1 hs).2 k)
  · exact Answers.next fun hs => (hl hs).getD hs
theorem discard_canonical {s : State} (hs : Canonical s) (x : Packet) (lane : Nat) (va : W64) :
    Canonical (State.discard s x lane va) := by
  unfold State.discard
  dsimp only
  split
  · exact stopContext_canonical hs ..
  · split
    · exact modWave_canonical hs ..
    · exact stopContext_canonical hs ..
theorem homeStore_canonical {s : State} (hs : Canonical s) (x : Packet) (key : Nat) (bs : List Byte) :
    Canonical (State.homeStore s x key bs) := by
  unfold State.homeStore
  dsimp only
  split
  · exact storeAt_canonical hs ..
  · exact Canonical.rest (storeAt_canonical hs ..)
theorem putSteer_canonical {s : State} (hs : Canonical s) (w : Nat) (ls : List Nat) :
    Canonical (State.putSteer s w ls) :=
  foldl_canonical (fun _ _ h1 => foldl_canonical (fun _ _ h2 => devStore_canonical h2 ..) _ h1) _ hs
theorem closeTag_canonical {s : State} (hs : Canonical s) (k : Nat) (tag : Nat) (t : TagRec) (m : LaneMask) :
    Canonical (State.closeTag s k tag t m) := by
  unfold State.closeTag
  dsimp only
  split
  · exact modWave_canonical (Canonical.modPkg hs _ (hs.2 _)) ..
  · exact Canonical.modPkg hs _ (hs.2 _)
theorem applyReply_canonical {s : State} (hs : Canonical s) (k : Nat) (x : Packet) :
    Canonical (State.applyReply s k x) := by
  unfold State.applyReply
  split
  · exact hs
  · refine closeTag_canonical ?_ ..
    split
    · exact putSteer_canonical (updLanes_canonical hs ..) ..
    · exact emptyLines_canonical (observe_canonical (putSteer_canonical (updLanes_canonical hs ..) ..) ..) ..
    · exact putSteer_canonical (updLanes_canonical hs ..) ..
theorem sendReply_canonical {s : State} (hs : Canonical s) (k : Nat) (x : Packet) :
    Canonical (State.sendReply s k x) := by
  unfold State.sendReply
  split
  · exact applyReply_canonical hs ..
  · refine Canonical.modPkg hs _ ?_
    exact hs.2 _
theorem applyFault_canonical {s : State} (hs : Canonical s) (k : Nat) (x : Packet) :
    Canonical (State.applyFault s k x) := by
  unfold State.applyFault
  split
  · exact hs
  · dsimp only
    split
    · exact closeTag_canonical (putSteer_canonical (updLanes_canonical hs ..) ..) ..
    · split
      · exact modWave_canonical (closeTag_canonical (putSteer_canonical (updLanes_canonical hs ..) ..) ..) ..
      · exact takeStop_canonical (closeTag_canonical (putSteer_canonical (updLanes_canonical hs ..) ..) ..) ..
theorem sendFault_canonical {s : State} (hs : Canonical s) (k : Nat) (x : Packet) (bad : List (Nat × W64 × Cause)) :
    Canonical (State.sendFault s k x bad) := by
  unfold State.sendFault
  split
  · exact hs
  · split
    · exact applyFault_canonical hs ..
    · refine Canonical.modPkg hs _ ?_
      exact hs.2 _
theorem execReplyPacket_answers (s : State) (k : Nat) :
    Answers s (execReplyPacket k s) :=
  onPacket_answers _ _ _ _ (fun _ _ _ h1 => applyReply_canonical h1 ..)
theorem execSteerReply_answers (s : State) (k : Nat) :
    Answers s (execSteerReply k s) := by
  unfold execSteerReply
  split
  · split
    · exact onPacket_answers _ _ _ _ (fun _ _ _ h1 => applyReply_canonical h1 ..)
    · exact Answers.next (fun h1 => h1)
  · exact Answers.next (fun h1 => h1)
theorem execFaultReplyPacket_answers (s : State) (k : Nat) :
    Answers s (execFaultReplyPacket k s) := by
  unfold execFaultReplyPacket
  split
  · split
    · split
      · exact Answers.next (fun h1 => h1)
      · exact onPacket_answers _ _ _ _ (fun _ _ _ h1 => applyFault_canonical h1 ..)
    · exact onPacket_answers _ _ _ _ (fun _ _ _ h1 => applyFault_canonical h1 ..)
  · exact Answers.next (fun h1 => h1)
theorem storeOne_canonical {s : State} (hs : Canonical s) (k : Nat) (x : Packet) (lane : Nat) (va : W64) (n : Nat) (v : BitVec 128) :
    Canonical (State.storeOne s k x lane va n v) := by
  unfold State.storeOne
  split
  · exact homeStore_canonical hs ..
  · exact discard_canonical hs ..
theorem execStorePacket_answers (s : State) (k : Nat) :
    Answers s (execStorePacket k s) :=
  onPacket_answers _ _ _ _ (fun _ _ _ h1 => storeOne_canonical h1 ..)
theorem execVectorStorePart_answers (s : State) (k : Nat) :
    Answers s (execVectorStorePart k s) :=
  onPacket_answers _ _ _ _ (fun _ _ _ h1 => foldl_canonical (fun _ _ h2 => storeOne_canonical h2 ..) _ h1)
theorem execLoadPacket_answers (s : State) (k : Nat) :
    Answers s (execLoadPacket k s) := by
  unfold execLoadPacket
  refine onPacket_answers _ _ _ _ ?_
  intro _ _ _ h1
  split
  · exact sendReply_canonical h1 ..
  · exact sendFault_canonical h1 ..
  · exact eccTroupe_canonical h1 ..
theorem execVectorLoadPart_answers (s : State) (k : Nat) :
    Answers s (execVectorLoadPart k s) := by
  unfold execVectorLoadPart
  refine onPacket_answers _ _ _ _ ?_
  intro _ _ _ h1
  dsimp only
  split
  · exact eccTroupe_canonical h1 ..
  · refine sendFault_canonical ?_ ..
    split
    · exact h1
    · exact sendReply_canonical h1 ..
theorem runHandler_canonical {s : State} (hs : Canonical s) (k : Nat) (x : Packet) (key : Nat) (a b : W64) :
    Canonical (State.runHandler s k x key a b).2 := by
  unfold State.runHandler
  dsimp only
  split
  · exact settleRange_canonical hs ..
  · split
    · split
      · exact store_canonical (settleRange_canonical hs ..) ..
      · exact Canonical.rest (store_canonical (settleRange_canonical hs ..) ..)
    · split
      · exact store_canonical (settleRange_canonical hs ..) ..
      · exact Canonical.rest (store_canonical (settleRange_canonical hs ..) ..)
theorem execAtomicPacket_answers (s : State) (k : Nat) :
    Answers s (execAtomicPacket k s) := by
  unfold execAtomicPacket
  refine onPacket_answers _ _ _ _ ?_
  intro _ _ _ h1
  split
  · split
    · exact eccTroupe_canonical h1 ..
    · dsimp only
      split
      · exact sendReply_canonical (runHandler_canonical h1 ..) ..
      · exact runHandler_canonical h1 ..
  · exact sendFault_canonical (discard_canonical h1 ..) ..
theorem vAtomStep_canonical (k : Nat) (x : Packet) {acc : VDone} (h : Canonical acc.s) (e : VEntry) : Canonical (vAtomStep k x acc e).s := by
  unfold vAtomStep
  split
  · exact runHandler_canonical h ..
  · exact discard_canonical h ..
theorem execVectorAtomicPart_answers (s : State) (k : Nat) : Answers s (execVectorAtomicPart k s) := by
  refine onPacket_answers _ _ _ _ fun _ x t h => ?_
  refine canonical_ite (eccTroupe_canonical h ..) ?_
  have hr : Canonical (x.ents.foldl (vAtomStep k x) ⟨t, [], [], []⟩).s :=
    List.foldlRecOn (motive := fun acc => Canonical acc.s) _ _ h fun (acc : VDone) ha e _ => vAtomStep_canonical k x ha e
  exact canonical_ite hr (sendFault_canonical (canonical_ite hr (sendReply_canonical hr ..)) ..)
theorem branch_canonical {s : State} (hs : Canonical s) (ls : List Nat) (target : Nat → W64) :
    Canonical (State.branch s ls target) :=
  Canonical.rest (updLanes_canonical hs ..)
theorem link_canonical {s : State} (hs : Canonical s) (ls : List Nat) (d : Reg) :
    Canonical (State.link s ls d) :=
  updLanes_canonical hs.rest ..
theorem execBra_answers (s : State) (y0 : Mods) (o : BitVec 13) (n : Bool) (p : Reg) :
    Answers s (execBra y0 o n p s) :=
  Answers.next (fun h1 => finish_canonical (branch_canonical h1 ..) ..)
theorem execCall_answers (s : State) (y0 : Mods) (o : BitVec 13) (n : Bool) (p : Reg) :
    Answers s (execCall y0 o n p s) :=
  Answers.next (fun h1 => finish_canonical (branch_canonical (link_canonical h1 ..) ..) ..)
theorem branchTo_answers (s : State) (m : Mods) (link : Option Reg) (target : Nat → Option W64) :
    Answers s (branchTo s m link target) := by
  unfold branchTo
  refine Answers.next ?_
  intro h1
  refine finish_canonical ?_ ..
  refine branch_canonical ?_ ..
  split
  · exact link_canonical h1 ..
  · exact h1
theorem execJmp_answers (s : State) (m : Mods) (a : Reg) :
    Answers s (execJmp m a s) :=
  branchTo_answers ..
theorem execRet_answers (s : State) (m : Mods) (a : Reg) :
    Answers s (execRet m a s) :=
  branchTo_answers ..
theorem execCallr_answers (s : State) (m : Mods) (d a : Reg) :
    Answers s (execCallr m d a s) :=
  branchTo_answers ..
theorem execBrx_answers (s : State) (m : Mods) (a : Reg) :
    Answers s (execBrx m a s) :=
  branchTo_answers ..
theorem trapAll_canonical {s : State} (hs : Canonical s) (m : Mods) (c : Cause) (code : W16) :
    Canonical (trapAll s m c code) :=
  finish_canonical hs ..
theorem execTrap_answers (s : State) (m : Mods) (n : Reg) :
    Answers s (execTrap m n s) :=
  Answers.next (fun h1 => trapAll_canonical h1 ..)
theorem execBrk_answers (s : State) (m : Mods) :
    Answers s (execBrk m s) :=
  Answers.next (fun h1 => trapAll_canonical h1 ..)
theorem execNop_answers (s : State) (y0 : Mods) :
    Answers s (execNop y0 s) :=
  Answers.next (fun h1 => finish_canonical h1 ..)
theorem execYield_answers (s : State) (m : Mods) :
    Answers s (execYield m s) := by
  unfold execYield
  refine Answers.next ?_
  intro h1
  refine finish_canonical ?_ ..
  split
  · exact modWave_canonical h1 ..
  · exact h1
theorem execPause_answers (s : State) (m : Mods) :
    Answers s (execPause m s) := by
  unfold execPause
  refine Answers.next ?_
  intro h1
  refine finish_canonical ?_ ..
  split
  · exact stall_canonical h1 ..
  · exact h1
theorem execWsb_answers (s : State) (m : Mods) :
    Answers s (execWsb m s) := by
  unfold execWsb
  refine Answers.next ?_
  intro h1
  refine finish_canonical ?_ ..
  split
  · exact updLanes_canonical h1 ..
  · exact h1
theorem parkLanes_canonical {s : State} (hs : Canonical s) (ls : List Nat) (st : LaneSt) :
    Canonical (State.parkLanes s ls st) :=
  updLanes_canonical hs ..
theorem rejoin_canonical {s : State} (hs : Canonical s) (m : Mods) (f : Wave → LaneMask → Wave) :
    Canonical (rejoin s m f) :=
  modWave_canonical hs ..
theorem execRjEnter_answers (s : State) (m : Mods) (n : BitVec 4) :
    Answers s (execRjEnter m n s) :=
  Answers.next (fun h1 => finish_canonical (rejoin_canonical h1 ..) ..)
theorem execRjQuit_answers (s : State) (m : Mods) (n : BitVec 4) :
    Answers s (execRjQuit m n s) :=
  Answers.next (fun h1 => finish_canonical (rejoin_canonical h1 ..) ..)
theorem execRjWait_answers (s : State) (m : Mods) (n : BitVec 4) :
    Answers s (execRjWait m n s) := by
  unfold execRjWait
  refine Answers.next ?_
  intro h1
  split
  · exact modWave_canonical (finish_canonical (parkLanes_canonical h1 ..) ..) ..
  · exact settle_canonical (modWave_canonical (finish_canonical (parkLanes_canonical h1 ..) ..) ..) ..
theorem execRjGet_answers (s : State) (m : Mods) (d : Reg) (n : BitVec 4) :
    Answers s (execRjGet m d n s) := by
  unfold execRjGet
  split
  · exact lane32_answers ..
  · exact Answers.next (fun h1 => finish_canonical h1 ..)
theorem rejoinWrite_answers (s : State) (m : Mods) (n : BitVec 4) (v : LaneMask) :
    Answers s (rejoinWrite s m n v) := by
  unfold rejoinWrite
  split
  · exact Answers.next (fun h1 => finish_canonical h1 ..)
  · split
    · exact Answers.next (fun h1 => refuse_canonical h1 ..)
    · exact Answers.next (fun h1 => finish_canonical (rejoin_canonical h1 ..) ..)
theorem execRjSet_answers (s : State) (m : Mods) (d : Reg) (n : BitVec 4) :
    Answers s (execRjSet m d n s) :=
  rejoinWrite_answers ..
theorem execRjClr_answers (s : State) (m : Mods) (n : BitVec 4) :
    Answers s (execRjClr m n s) :=
  rejoinWrite_answers ..
theorem modCorps_canonical {s : State} (hs : Canonical s) (c : Nat) (f : Corps → Corps) :
    Canonical (State.modCorps s c f) :=
  hs.rest
theorem park_canonical {s : State} (hs : Canonical s) (st : LaneSt) :
    Canonical (State.park s st) :=
  parkLanes_canonical hs ..
theorem freeLanes_canonical {s : State} (hs : Canonical s) (w : Nat) (st : LaneSt) :
    Canonical (State.freeLanes s w st) :=
  updLanes_canonical hs ..
theorem checkTbar_canonical {s : State} (hs : Canonical s) (tid : Nat) :
    Canonical (State.checkTbar s tid) := by
  unfold State.checkTbar
  dsimp only
  split
  · exact hs
  · exact foldl_canonical (fun _ _ h1 => freeLanes_canonical (modWave_canonical h1 ..) ..) _ (modTroupe_canonical hs ..)
theorem arriveT_canonical {s : State} (hs : Canonical s) :
    Canonical (State.arriveT s) :=
  modTroupe_canonical (modWave_canonical hs ..) ..
theorem parkT_canonical {s : State} (hs : Canonical s) :
    Canonical (State.parkT s) :=
  modTroupe_canonical (park_canonical hs ..) ..
theorem barrierGo_answers (s : State) (m : Mods) (go : State → State) (h_go : ∀ x0, Canonical x0 → Canonical (go x0)) :
    Answers s (barrierGo s m go) := by
  unfold barrierGo
  refine Answers.next ?_
  intro h1
  split
  · exact finish_canonical h1 ..
  · split
    · exact refuse_canonical h1 ..
    · split
      · exact refuse_canonical h1 ..
      · exact h_go _ h1
theorem arrival_canonical {s : State} (hs : Canonical s) (i : Instr) (m : Mods) (done : Bool) (sc : Scope) (go : State → State) (h_go : ∀ x0, Canonical x0 → Canonical (go x0)) :
    Canonical (arrival i s m done sc go) := by
  unfold arrival
  split
  · exact refuse_canonical hs ..
  · split
    · exact waitAt_canonical hs ..
    · exact h_go _ hs
theorem execTbar_answers (s : State) (m : Mods) :
    Answers s (execTbar m s) := by
  unfold execTbar
  exact barrierGo_answers _ _ _ (fun _ h1 => arrival_canonical h1 _ _ _ _ _ (fun _ h2 => checkTbar_canonical (finish_canonical (parkT_canonical (arriveT_canonical h2)) ..) ..))
theorem execTbarArv_answers (s : State) (m : Mods) (d : Reg) :
    Answers s (execTbarArv m d s) := by
  unfold execTbarArv
  exact barrierGo_answers _ _ _ (fun _ h1 => arrival_canonical h1 _ _ _ _ _ (fun _ h2 => checkTbar_canonical (finish_canonical (sendAll_canonical (arriveT_canonical h2) ..) ..) ..))
theorem execTbarWt_answers (s : State) (m : Mods) (a : Reg) :
    Answers s (execTbarWt m a s) := by
  unfold execTbarWt
  refine barrierGo_answers _ _ _ ?_
  intro _ h1
  split
  · exact finish_canonical h1 ..
  · split
    · exact checkTbar_canonical (finish_canonical (parkT_canonical h1) ..) ..
    · exact refuse_canonical h1 ..
theorem checkCbar_canonical {s : State} (hs : Canonical s) (c : Nat) :
    Canonical (State.checkCbar s c) := by
  unfold State.checkCbar
  dsimp only
  split
  · exact hs
  · refine foldl_canonical ?_ _ (modCorps_canonical hs ..)
    intro _ _ h1
    split
    · exact foldl_canonical (fun _ _ h2 => freeLanes_canonical (modWave_canonical h2 ..) ..) _ h1
    · exact emptyLines_canonical (foldl_canonical (fun _ _ h2 => freeLanes_canonical (modWave_canonical h2 ..) ..) _ h1) ..
theorem arriveC_canonical {s : State} (hs : Canonical s) :
    Canonical (State.arriveC s) := by
  unfold State.arriveC
  dsimp only
  split
  · exact modCorps_canonical (modWave_canonical hs ..) ..
  · exact modWave_canonical hs ..
theorem execCbar_answers (s : State) (m : Mods) :
    Answers s (execCbar m s) := by
  unfold execCbar
  exact barrierGo_answers _ _ _ (fun _ h1 => arrival_canonical h1 _ _ _ _ _ (fun _ h2 => checkCbar_canonical (finish_canonical (park_canonical (arriveC_canonical h2) ..) ..) ..))
theorem execCbarArv_answers (s : State) (m : Mods) (d : Reg) :
    Answers s (execCbarArv m d s) := by
  unfold execCbarArv
  exact barrierGo_answers _ _ _ (fun _ h1 => arrival_canonical h1 _ _ _ _ _ (fun _ h2 => checkCbar_canonical (finish_canonical (sendAll_canonical (arriveC_canonical h2) ..) ..) ..))
theorem execCbarWt_answers (s : State) (m : Mods) (a : Reg) :
    Answers s (execCbarWt m a s) := by
  unfold execCbarWt
  refine barrierGo_answers _ _ _ ?_
  intro _ h1
  split
  · exact finish_canonical (acquireLines_canonical h1 ..) ..
  · split
    · exact checkCbar_canonical (finish_canonical (park_canonical h1 ..) ..) ..
    · exact refuse_canonical h1 ..
theorem checkQ_canonical {s : State} (hs : Canonical s) (w : Nat) :
    Canonical (State.checkQ s w) := by
  unfold State.checkQ
  split
  · exact takeStop_canonical hs ..
  · exact hs
theorem execQpush_answers (s : State) (m : Mods) (d : Reg) :
    Answers s (execQpush m d s) := by
  unfold execQpush
  dsimp only
  split
  · exact Answers.next (fun h1 => finish_canonical h1 ..)
  · split
    · exact Answers.next (fun h1 => refuse_canonical h1 ..)
    · split
      · exact Answers.next (fun h1 => waitAt_canonical h1 ..)
      · exact Answers.next (fun h1 => finish_canonical (modWave_canonical h1 ..) ..)
theorem execQpop_answers (s : State) (m : Mods) (d : Reg) :
    Answers s (execQpop m d s) := by
  unfold execQpop
  dsimp only
  split
  · exact Answers.next (fun h1 => refuse_canonical h1 ..)
  · split
    · exact Answers.next (fun h1 => checkQ_canonical (waitAt_canonical h1 ..) ..)
    · exact Answers.next (fun h1 => finish_canonical (modWave_canonical (updLanes_canonical h1.rest ..) ..) ..)
theorem growDone_canonical {s : State} (hs : Canonical s) (w : Nat) :
    Canonical (State.growDone s w) := by
  unfold State.growDone
  split
  · exact releaseWait_canonical hs ..
  · exact hs
theorem grantGo_canonical (k core f : Nat) {s : State} (hs : Canonical s) : Canonical (grantGo k core f s) := by
  induction f generalizing s with
  | zero => exact hs
  | succ f ih =>
    unfold grantGo
    split
    · exact hs
    extract_lets +onlyGivenNames n
    split
    · exact hs
    · exact ih (growDone_canonical (modWave_canonical (modCore_canonical hs ..) ..) _)
theorem deadGo_canonical (k core f : Nat) {s : State} (hs : Canonical s) : Canonical (deadGo k core f s) := by
  induction f generalizing s with
  | zero => exact hs
  | succ f ih =>
    unfold deadGo
    extract_lets +onlyGivenNames q
    split
    · split
      · exact hs
      · exact ih (takeStop_canonical hs ..)
    · exact hs
theorem grant_canonical {s : State} (hs : Canonical s) (k core : Nat) : Canonical (s.grant k core) :=
  deadGo_canonical _ _ _ (grantGo_canonical _ _ _ hs)
theorem execRegGrant_answers (s : State) (n : Nat) :
    Answers s (execRegGrant n s) :=
  Answers.next (fun h1 => grant_canonical h1 ..)
theorem allotGo_answers (s : State) (m : Mods) (n : Reg) (go : Nat → State) (h_go : Canonical s → ∀ x0, Canonical (go x0)) :
    Answers s (allotGo s m n go) := by
  unfold allotGo
  refine Answers.next ?_
  intro h1
  split
  · exact finish_canonical h1 ..
  · split
    · exact refuse_canonical h1 ..
    · split
      · exact refuse_canonical h1 ..
      · split
        · exact refuse_canonical h1 ..
        · exact h_go h1 _
theorem execRegGrow_answers (s : State) (m : Mods) (n : Reg) :
    Answers s (execRegGrow m n s) := by
  unfold execRegGrow
  refine allotGo_answers _ _ _ _ ?_
  intro h1 _
  split
  · exact finish_canonical h1 ..
  · dsimp only
    split
    · exact waitAt_canonical h1 ..
    · exact grant_canonical (modCore_canonical (waitAt_canonical h1 ..) ..) ..
theorem execRegShrink_answers (s : State) (m : Mods) (n : Reg) :
    Answers s (execRegShrink m n s) := by
  unfold execRegShrink
  refine allotGo_answers _ _ _ _ ?_
  intro h1 _
  split
  · exact finish_canonical h1 ..
  · exact grant_canonical (finish_canonical (modWave_canonical h1 ..) ..) ..
theorem execFixedLatencyResult_answers (s : State) (w : Nat) :
    Answers s (execFixedLatencyResult w s) :=
  Answers.next (fun h1 => updLanes_canonical h1 ..)
theorem execScoreboardWrite_answers (s : State) (w l g : Nat) :
    Answers s (execScoreboardWrite w l g s) :=
  Answers.next (fun h1 => updLanes_canonical h1 ..)
theorem execStallWaitExpiry_answers (s : State) (w : Nat) :
    Answers s (execStallWaitExpiry w s) :=
  Answers.next (fun h1 => modWave_canonical h1 ..)
theorem execPauseExpiry_answers (s : State) (w : Nat) :
    Answers s (execPauseExpiry w s) :=
  Answers.next (fun h1 => modWave_canonical h1 ..)
theorem execYieldRelease_answers (s : State) (w : Nat) :
    Answers s (execYieldRelease w s) :=
  Answers.next (fun h1 => modWave_canonical h1 ..)
theorem startWalk_canonical {s : State} (hs : Canonical s) :
    EachCanonical (State.startWalk s) := by
  unfold State.startWalk
  refine EachCanonical.map ?_
  intro _
  refine Canonical.modPkg hs.rest _ ?_
  exact hs.2 _
theorem walkDone_canonical {s : State} (hs : Canonical s) (r : Walk) :
    Canonical (State.walkDone s r) :=
  Canonical.rest (fillWalker_canonical (foldl_canonical (fun _ _ h1 => fillTlb_canonical h1 ..) _ hs) ..)
theorem execPageWalkComplete_answers (s : State) (k e : Nat) (x : W32) (v : W64) :
    Answers s (execPageWalkComplete k e x v s) := by
  unfold execPageWalkComplete
  split
  · exact Answers.next (fun h1 => walkDone_canonical h1 ..)
  · exact Answers.next (fun h1 => h1)
theorem retry_answers (s : State) (w : Nat) (f : Instr → Option (State → Out)) (hf : ∀ i go, f i = some go → ∀ t, Answers t (go t)) :
    Answers s (retry s w f) := by
  unfold retry
  split
  · exact Answers.next fun hs => hs
  next r _ =>
  split
  next go h =>
    obtain ⟨t, ht, hc⟩ := hf _ go h (s.resumeCur w r)
    exact ⟨t, ht, fun hs => hc (resumeCur_canonical hs ..)⟩
  · exact Answers.next fun hs => hs
theorem execQueuePushDone_answers (s : State) (w : Nat) : Answers s (execQueuePushDone w s) :=
  retry_answers _ _ _ fun i go h => by
    split at h <;> cases h
    exact fun _ => execQpush_answers ..
theorem execQueuePopDone_answers (s : State) (w : Nat) : Answers s (execQueuePopDone w s) :=
  retry_answers _ _ _ fun i go h => by
    split at h <;> cases h
    exact fun _ => execQpop_answers ..
theorem execOwnTakeDone_answers (s : State) (w : Nat) : Answers s (execOwnTakeDone w s) :=
  retry_answers _ _ _ fun i go h => by
    split at h <;> cases h
    exact fun _ => execOwnTake_answers ..
theorem execRingWaitDone_answers (s : State) (w : Nat) : Answers s (execRingWaitDone w s) :=
  retry_answers _ _ _ fun i go h => by
    split at h <;> cases h
    exact fun _ => execRngWait_answers ..
theorem execEvtWaitRecheck_answers (s : State) (w : Nat) : Answers s (execEvtWaitRecheck w s) :=
  retry_answers _ _ _ fun i go h => by
    split at h <;> cases h
    exact fun _ => execEvtWt_answers ..
theorem detPart_canonical {s : State} (hs : Canonical s) (k h : Nat) (ctx : W32) (va : W64) (e : DetEntry) :
    Canonical (State.detPart s k h ctx va e) := by
  unfold State.detPart
  refine Canonical.modPkg hs _ ?_
  exact hs.2 _
theorem applyDet_canonical {s : State} (hs : Canonical s) (k : Nat) (ctx : W32) (e : DetEntry) :
    Canonical (State.applyDet s k ctx e) := by
  unfold State.applyDet
  split
  · exact detPart_canonical hs ..
  · exact Canonical.modPkg (dropCoreLines_canonical (update_canonical hs ..) ..) _ (spend_wf ((dropCoreLines_canonical (update_canonical hs ..) ..).2 _) ..)
theorem applyAll_canonical {s : State} (hs : Canonical s) (k : Nat) (ctx : W32) (es : List DetEntry) : Canonical (s.applyAll k ctx es).2 := by
  induction es generalizing s with
  | nil => exact hs
  | cons e es ih =>
    unfold State.applyAll
    split
    · exact hs
    have h := ih (applyDet_canonical hs k ctx e)
    extract_lets +onlyGivenNames s1 r
    split <;> exact h
def Flush.Keeps (s : State) (f : Flush) : Prop :=
  (∀ t, f = .sent t → Canonical s → Canonical t) ∧ ∀ t, f = .done t → Canonical s → Canonical t
theorem flush_keeps (s : State) (tid : Nat) : Flush.Keeps s (s.flush tid) := by
  unfold State.flush
  extract_lets +onlyGivenNames t es now later out
  split
  · exact ⟨nofun, nofun⟩
  split
  · exact ⟨nofun, nofun⟩
  extract_lets +onlyGivenNames r left s2 s3
  have h3 : Canonical s → Canonical s3 := fun hs =>
    have h2 : Canonical s2 := modCore_canonical (applyAll_canonical hs ..) ..
    h2.modPkg_host _ fun _ => rfl
  split
  · exact ⟨nofun, fun _ e hs => by
      cases e
      exact h3 hs⟩
  · exact ⟨fun _ e hs => by
      cases e
      exact h3 hs, nofun⟩
theorem execDetFlush_answers (s : State) (m : Mods) : Answers s (execDetFlush m s) := by
  refine Answers.next fun hs => ?_
  split
  · exact finish_canonical hs _
  split
  · exact waitAt_canonical hs _
  split
  · exact refuseWith_canonical hs ..
  · exact eccTroupe_canonical hs ..
  next h => exact waitAt_canonical ((flush_keeps s _).1 _ h hs) _
  next h => exact finish_canonical ((flush_keeps s _).2 _ h hs) _
theorem execDeferredApply_answers (s : State) (k n : Nat) : Answers s (execDeferredApply k n s) := by
  unfold execDeferredApply
  extract_lets +onlyGivenNames x now out
  split
  · exact Answers.next fun hs => hs
  split
  · exact Answers.next fun hs => stopContext_canonical hs ..
  · exact Answers.next fun hs => (applyAll_canonical hs ..).modPkg_host _ fun _ => rfl
theorem execDetRng_answers (s : State) (m : Mods) (a : Reg) :
    Answers s (execDetRng m a s) := by
  unfold execDetRng
  split
  · exact Answers.next (fun h1 => finish_canonical h1 ..)
  · dsimp only
    split
    · exact Answers.next (fun h1 => refuse_canonical h1 ..)
    · split
      · exact Answers.next (fun h1 => finish_canonical h1 ..)
      · split
        · exact Answers.next (fun h1 => refuse_canonical h1 ..)
        · exact Answers.next (fun h1 => finish_canonical (modTroupe_canonical h1 ..) ..)
theorem execRecMark_answers (s : State) (m : Mods) (a : Reg) :
    Answers s (execRecMark m a s) := by
  unfold execRecMark
  split
  · exact Answers.next (fun h1 => finish_canonical h1 ..)
  · dsimp only
    split
    · exact Answers.next (fun h1 => finish_canonical h1 ..)
    · split
      · exact Answers.next (fun h1 => waitAt_canonical h1 ..)
      · exact Answers.next (fun h1 => faultElected_canonical h1 ..)
      · refine Answers.next ?_
        intro h1
        refine finish_canonical ?_ ..
        split
        · exact logConsume_canonical (updLanes_canonical h1 ..) ..
        · exact logPut_canonical (updLanes_canonical h1 ..) ..
theorem endWave_canonical {s : State} (hs : Canonical s) (w : Nat) :
    Canonical (State.endWave s w) := by
  unfold State.endWave
  dsimp only
  split
  · exact modWave_canonical hs ..
  · split
    · split
      · exact checkCbar_canonical (modCorps_canonical (modTroupe_canonical (modTroupe_canonical hs.rest ..) ..) ..) ..
      · refine checkCbar_canonical ?_ ..
        refine checkTbar_canonical ?_ ..
        split
        · exact modCorps_canonical (modTroupe_canonical hs.rest ..) ..
        · exact modTroupe_canonical hs.rest ..
    · split
      · exact checkCbar_canonical (modCorps_canonical (modTroupe_canonical hs.rest ..) ..) ..
      · refine checkCbar_canonical ?_ ..
        refine checkTbar_canonical ?_ ..
        split
        · exact modCorps_canonical hs.rest ..
        · exact hs.rest
theorem exitGo_canonical {s : State} (hs : Canonical s) (ls : List Nat) (stops : List StopRec) : Canonical (exitGo s ls stops) := by
  unfold exitGo
  extract_lets +onlyGivenNames w s1 s2 s3 s4 s5
  have h1 : Canonical s1 := modWave_canonical hs ..
  have h2 : Canonical s2 := canonical_ite (endWave_canonical h1 _) h1
  have h3 : Canonical s3 := finish_canonical h2 _
  have h4 : Canonical s4 := canonical_ite (checkQ_canonical h3 _) (checkQ_canonical h3 _)
  have h5 : Canonical s5 := canonical_ite h4 (settle_canonical h4 _)
  exact grant_canonical h5 ..
theorem execExit_answers (s : State) (m : Mods) : Answers s (execExit m s) := by
  unfold execExit
  extract_lets +onlyGivenNames ls bad go stops
  split
  · exact Answers.next fun hs => finish_canonical hs _
  split
  · split
    · exact Answers.next fun hs => refuseWith_canonical hs ..
    · exact Answers.next fun hs => eccTroupe_canonical hs ..
    next h => exact Answers.next fun hs => waitAt_canonical ((flush_keeps s _).1 _ h hs) _
    next h => exact Answers.next fun hs => exitGo_canonical ((flush_keeps s _).2 _ h hs) ..
  · exact Answers.next fun hs => exitGo_canonical hs ..
theorem modWindow_canonical {s : State} (hs : Canonical s) (tid win : Nat) (f : Window → Window) :
    Canonical (State.modWindow s tid win f) :=
  modTroupe_canonical hs ..
theorem modMx_canonical {s : State} (hs : Canonical s) (tid : Nat) (f : Core → Core) :
    Canonical (State.modMx s tid f) :=
  modCore_canonical hs ..
theorem addItem_canonical {s : State} (hs : Canonical s) (tid wid : Nat) (w : MxWork) (tiles : List Nat) :
    Canonical (State.addItem s tid wid w tiles) :=
  modMx_canonical hs.rest ..
theorem dropItem_canonical {s : State} (hs : Canonical s) (tid id : Nat) :
    Canonical (State.dropItem s tid id) :=
  modMx_canonical hs ..
theorem setAcc_canonical {s : State} (hs : Canonical s) (tid off n v : Nat) :
    Canonical (State.setAcc s tid off n v) :=
  store_canonical hs ..
theorem modArr_canonical {s : State} (hs : Canonical s) (tid : Nat) (f : ArrayCfg → ArrayCfg) :
    Canonical (State.modArr s tid f) :=
  modMx_canonical hs ..
theorem zeroTiles_canonical {s : State} (hs : Canonical s) (tid tile count : Nat) :
    Canonical (State.zeroTiles s tid tile count) :=
  modArr_canonical (foldl_canonical (fun _ _ h1 => zeroRange_canonical h1 ..) _ hs) ..
theorem putImage_canonical {s : State} (hs : Canonical s) (k : Nat) (ctx : W32) (id : Nat) (va : W64) (bs : List Byte) :
    Canonical (State.putImage s k ctx id va bs) := by
  unfold State.putImage
  refine foldl_canonical ?_ _ hs
  intro _ _ h1
  split
  · exact storeAt_canonical h1 ..
  · exact h1
theorem saveArray_canonical {s : State} (hs : Canonical s) (tid id : Nat) (va : W64) (tile count : Nat) (arr : Bool) :
    Canonical (State.saveArray s tid id va tile count arr) := by
  unfold State.saveArray
  refine putImage_canonical ?_ ..
  split
  · exact putImage_canonical hs.rest ..
  · exact hs
theorem restArray_canonical {s : State} (hs : Canonical s) (tid id : Nat) (va : W64) (tile count : Nat) (arr : Bool) :
    Canonical (State.restArray s tid id va tile count arr) := by
  unfold State.restArray
  dsimp only
  split
  · exact eccTroupe_canonical hs ..
  · refine foldl_canonical (fun _ _ h1 => store_canonical h1 ..) _ ?_
    split
    · split
      · exact modArr_canonical hs ..
      · exact modArr_canonical hs.rest ..
    · exact modArr_canonical hs ..
theorem markDone_canonical {s : State} (hs : Canonical s) (wid : Nat) (lanes : LaneMask) :
    Canonical (State.markDone s wid lanes) := by
  unfold State.markDone
  split
  · exact releaseWait_canonical hs ..
  · exact hs
theorem quickWork_canonical {s : State} (hs : Canonical s) (tid id : Nat) (w : MxWork) :
    EachCanonical (quickWork s tid id w) := by
  unfold quickWork
  split
  · exact eachCanonical_some (modArr_canonical hs ..)
  · exact eachCanonical_some (modArr_canonical hs ..)
  · exact eachCanonical_some (zeroTiles_canonical hs ..)
  · exact eachCanonical_some (saveArray_canonical hs ..)
  · exact eachCanonical_some (restArray_canonical hs ..)
  · exact eachCanonical_some (markDone_canonical hs ..)
  · exact eachCanonical_none
theorem runQuick_canonical (tid f : Nat) {s : State} (hs : Canonical s) : Canonical (runQuick tid f s) := by
  induction f generalizing s with
  | zero => exact hs
  | succ f ih =>
    unfold runQuick
    split
    · exact hs
    split
    next h => exact ih ((quickWork_canonical (dropItem_canonical hs ..) ..).get _ h)
    · exact hs
theorem settleMx_canonical {s : State} (hs : Canonical s) (tid : Nat) : Canonical (s.settleMx tid) := runQuick_canonical _ _ hs
theorem itemDone_canonical {s : State} (hs : Canonical s) (tid id : Nat) :
    Canonical (State.itemDone s tid id) :=
  settleMx_canonical (dropItem_canonical hs ..) ..
theorem acceptCmd_canonical {s : State} (hs : Canonical s) (i : Instr) (vas : List W64) (c : CmdRec) (go : State → Nat → State) (h_go : ∀ x0 x1, Canonical x0 → Canonical (go x0 x1)) :
    Canonical (acceptCmd i s vas c go) := by
  unfold acceptCmd
  dsimp only
  split
  · exact waitAt_canonical hs ..
  · split
    · exact waitAt_canonical (missed_canonical hs ..) ..
    · exact h_go _ _ (Canonical.modPkg (walked_canonical hs.rest ..) _ ((walked_canonical hs.rest ..).2 _))
theorem engGo_canonical {s : State} (hs : Canonical s) (m : Mods) (param : Bool) (bad : List (Option Bad)) (go : State) (h_go : Canonical go) :
    Canonical (engGo s m param bad go) := by
  unfold engGo
  split
  · exact refuse_canonical hs ..
  · split
    · exact faultElected_canonical hs ..
    · exact h_go
theorem execObRsv_answers (s : State) (m : Mods) (a : Reg) :
    Answers s (execObRsv m a s) := by
  unfold execObRsv
  split
  · exact Answers.next (fun h1 => finish_canonical h1 ..)
  · split
    · exact Answers.next (fun h1 => refuse_canonical h1 ..)
    · exact Answers.next (fun h1 => finish_canonical (modTroupe_canonical h1.rest ..) ..)
theorem execObRel_answers (s : State) (m : Mods) (a : Reg) :
    Answers s (execObRel m a s) := by
  unfold execObRel
  split
  · exact Answers.next (fun h1 => finish_canonical h1 ..)
  · dsimp only
    split
    · exact Answers.next (fun h1 => refuse_canonical h1 ..)
    · split
      · exact Answers.next (fun h1 => refuse_canonical h1 ..)
      · split
        · exact Answers.next (fun h1 => waitAt_canonical h1 ..)
        · exact Answers.next (fun h1 => finish_canonical (modTroupe_canonical h1 ..) ..)
theorem execTcCopy_answers (s : State) (m : Mods) (a : Reg) :
    Answers s (execTcCopy m a s) := by
  unfold execTcCopy
  split
  · exact Answers.next (fun h1 => finish_canonical h1 ..)
  · dsimp only
    split
    · exact Answers.next (fun h1 => waitAt_canonical h1 ..)
    · refine Answers.next ?_
      intro h1
      refine engGo_canonical h1 _ _ _ _ ?_
      refine acceptCmd_canonical h1 _ _ _ _ ?_
      intro _ _ h2
      refine finish_canonical ?_ ..
      split
      · exact modTroupe_canonical h2 ..
      · exact h2
theorem execTcOb_answers (s : State) (m : Mods) (a : Reg) :
    Answers s (execTcOb m a s) := by
  unfold execTcOb
  split
  · exact Answers.next (fun h1 => finish_canonical h1 ..)
  · dsimp only
    split
    · exact Answers.next (fun h1 => refuse_canonical h1 ..)
    · split
      · exact Answers.next (fun h1 => refuse_canonical h1 ..)
      · split
        · exact Answers.next (fun h1 => waitAt_canonical h1 ..)
        · split
          · split
            · exact Answers.next (fun h1 => engGo_canonical h1 _ _ _ _ (finish_canonical h1 ..))
            · exact Answers.next (fun h1 => engGo_canonical h1 _ _ _ _ (acceptCmd_canonical h1 _ _ _ _ (fun _ _ h2 => finish_canonical (addItem_canonical h2 ..) ..)))
          · split
            · exact Answers.next (fun h1 => engGo_canonical h1 _ _ _ _ (finish_canonical h1 ..))
            · exact Answers.next (fun h1 => engGo_canonical h1 _ _ _ _ (acceptCmd_canonical h1 _ _ _ _ (fun _ _ h2 => finish_canonical (addItem_canonical h2 ..) ..)))
theorem execTcMcast_answers (s : State) (m : Mods) (a : Reg) :
    Answers s (execTcMcast m a s) := by
  unfold execTcMcast
  split
  · exact Answers.next (fun h1 => finish_canonical h1 ..)
  · dsimp only
    split
    · exact Answers.next (fun h1 => refuse_canonical h1 ..)
    · split
      · exact Answers.next (fun h1 => waitAt_canonical h1 ..)
      · split
        · exact Answers.next (fun h1 => faultElected_canonical h1 ..)
        · split
          · exact Answers.next (fun h1 => refuse_canonical h1 ..)
          · split
            · exact Answers.next (fun h1 => refuse_canonical h1 ..)
            · exact Answers.next (fun h1 => engGo_canonical h1 _ _ _ _ (acceptCmd_canonical h1 _ _ _ _ (fun _ _ h2 => finish_canonical h2 ..)))
theorem execPermLoad_answers (s : State) (m : Mods) (d a : Reg) :
    Answers s (execPermLoad m d a s) := by
  unfold execPermLoad
  split
  · exact Answers.next (fun h1 => finish_canonical h1 ..)
  · dsimp only
    split
    · exact Answers.next (fun h1 => refuse_canonical h1 ..)
    · split
      · exact Answers.next (fun h1 => refuse_canonical h1 ..)
      · refine Answers.next ?_
        intro h1
        refine engGo_canonical h1 _ _ _ _ ?_
        split
        · exact waitAt_canonical h1 ..
        · split
          · exact waitAt_canonical (missed_canonical h1 ..) ..
          · exact acceptCmd_canonical (oweAll_canonical h1 ..) _ _ _ _ (fun _ _ h2 => finish_canonical h2 ..)
theorem execRcopy_answers (s : State) (m : Mods) (tok dep spr : Bool) (d a : Reg) : Answers s (execRcopy m tok dep spr d a s) := by
  unfold execRcopy
  extract_lets +onlyGivenNames i
  split
  · exact Answers.next fun hs => finish_canonical hs _
  extract_lets +onlyGivenNames b src dst sp len dept bb k
  split
  · exact Answers.next fun hs => refuse_canonical hs ..
  split
  · exact Answers.next fun hs => refuse_canonical hs ..
  split
  · exact Answers.next fun hs => faultElected_canonical hs ..
  split
  · exact Answers.next fun hs => faultElected_canonical hs ..
  split
  · exact Answers.next fun hs => faultElected_canonical hs ..
  dsimp only
  split
  · exact Answers.next fun hs => waitAt_canonical (missed_canonical hs ..) _
  split
  · exact Answers.next fun hs => waitAt_canonical hs _
  next t p ht =>
  refine Answers.next fun hs => ?_
  have hp : Memory.wf p.host.hostMem := by
    split at ht
    · exact newTok_wf (hs.2 k) ht
    · cases ht
      exact hs.2 k
  refine finish_canonical ?_ _
  split
  · refine sendAll_canonical (modTroupe_canonical (Canonical.modPkg_host (walked_canonical (Canonical.setPkg hs.rest k hp) ..) _ ?_) ..) ..
    exact fun _ => rfl
  · refine modTroupe_canonical (Canonical.modPkg_host (walked_canonical (Canonical.setPkg hs.rest k hp) ..) _ ?_) ..
    exact fun _ => rfl
theorem modCmd_wf {p : Pkg} (hp : Memory.wf p.host.hostMem) (n : Nat) (f : CmdRec → CmdRec) :
    Memory.wf (Pkg.modCmd p n f).host.hostMem :=
  hp
theorem dropCmd_wf {p : Pkg} (hp : Memory.wf p.host.hostMem) (n : Nat) :
    Memory.wf (Pkg.dropCmd p n).host.hostMem :=
  hp
theorem eccCmd_canonical {s : State} (hs : Canonical s) (k : Nat) (c : CmdRec) :
    Canonical (State.eccCmd s k c) := by
  unfold State.eccCmd
  split
  · exact stopContext_canonical hs ..
  · exact eccTroupe_canonical hs ..
theorem cmdOver_canonical {s : State} (hs : Canonical s) (k : Nat) (c : CmdRec) :
    Canonical (State.cmdOver s k c) := by
  unfold State.cmdOver
  dsimp only
  split
  · split
    · refine itemDone_canonical ?_ ..
      refine Canonical.modPkg hs _ ?_
      exact hs.2 _
    · refine Canonical.modPkg hs _ ?_
      exact hs.2 _
  · refine Canonical.modPkg hs _ ?_
    exact hs.2 _
theorem sendSegment_canonical {s : State} (hs : Canonical s) (k : Nat) (c : CmdRec) (u : UnitRead) :
    Canonical (State.sendSegment s k c u) := by
  unfold State.sendSegment
  split
  · dsimp only
    split
    · split
      · exact Canonical.modPkg hs _ (modCmd_wf (enqueue_wf (hs.2 _) ..) ..)
      · split
        · exact arrive_canonical (Canonical.modPkg hs _ (modCmd_wf (enqueue_wf (hs.2 _) ..) ..)) ..
        · exact Canonical.modPkg hs _ (modCmd_wf (enqueue_wf (hs.2 _) ..) ..)
    · refine modWave_canonical ?_ ..
      refine Canonical.modPkg ?_ _ ?_
      · split
        · exact Canonical.modPkg hs _ (modCmd_wf (enqueue_wf (hs.2 _) ..) ..)
        · split
          · exact arrive_canonical (Canonical.modPkg hs _ (modCmd_wf (enqueue_wf (hs.2 _) ..) ..)) ..
          · exact Canonical.modPkg hs _ (modCmd_wf (enqueue_wf (hs.2 _) ..) ..)
      · refine dropCmd_wf ?_ ..
        refine Canonical.host ?_ _
        split
        · exact Canonical.modPkg hs _ (modCmd_wf (enqueue_wf (hs.2 _) ..) ..)
        · split
          · exact arrive_canonical (Canonical.modPkg hs _ (modCmd_wf (enqueue_wf (hs.2 _) ..) ..)) ..
          · exact Canonical.modPkg hs _ (modCmd_wf (enqueue_wf (hs.2 _) ..) ..)
  · exact hs
theorem execEngineUnitRead_answers (s : State) (k n bad : Nat) :
    Answers s (execEngineUnitRead k n bad s) := by
  unfold execEngineUnitRead
  split
  · exact Answers.next (fun h1 => h1)
  · split
    · refine Answers.next ?_
      intro h1
      refine Canonical.modPkg h1 _ ?_
      exact h1.2 _
    · split
      · exact Answers.next (fun h1 => h1)
      · dsimp only
        split
        · refine Answers.next ?_
          intro h1
          refine eccCmd_canonical ?_ ..
          refine cmdOver_canonical ?_ ..
          split
          · exact h1
          · refine Canonical.modPkg h1 _ ?_
            exact h1.2 _
        · split
          · exact Answers.next (fun h1 => sendSegment_canonical h1 ..)
          · split
            · refine Answers.next ?_
              intro h1
              refine eccCmd_canonical ?_ ..
              refine Canonical.modPkg ?_ _ ?_
              · refine cmdOver_canonical ?_ ..
                refine Canonical.modPkg h1 _ ?_
                exact h1.2 _
              · split
                · refine Canonical.host ?_ _
                  refine cmdOver_canonical ?_ ..
                  refine Canonical.modPkg h1 _ ?_
                  exact h1.2 _
                · show Memory.wf (HostIf.hostMem _)
                  refine Canonical.host ?_ _
                  refine cmdOver_canonical ?_ ..
                  refine Canonical.modPkg h1 _ ?_
                  exact h1.2 _
            · split
              · refine Answers.next ?_
                intro h1
                refine Canonical.modPkg ?_ _ ?_
                · refine Canonical.modPkg h1 _ ?_
                  exact h1.2 _
                · refine modCmd_wf ?_ ..
                  refine Canonical.host ?_ _
                  refine Canonical.modPkg h1 _ ?_
                  exact h1.2 _
              · refine Answers.next ?_
                intro h1
                refine Canonical.modPkg ?_ _ ?_
                · refine Canonical.modPkg h1 _ ?_
                  exact h1.2 _
                · refine modCmd_wf ?_ ..
                  refine Canonical.host ?_ _
                  refine Canonical.modPkg h1 _ ?_
                  exact h1.2 _
theorem slotStore_canonical {s : State} (hs : Canonical s) (bases : List Nat) (tps off : Nat) (bs : List Byte) :
    Canonical (State.slotStore s bases tps off bs) :=
  foldl_canonical (fun _ _ h1 => storeAt_canonical h1 ..) _ hs
theorem execEngineUnitWrite_answers (s : State) (k n : Nat) :
    Answers s (execEngineUnitWrite k n s) := by
  unfold execEngineUnitWrite
  split
  · exact Answers.next (fun h1 => h1)
  · split
    · exact Answers.next (fun h1 => h1)
    · dsimp only
      split
      · split
        · refine Answers.next ?_
          intro h1
          split
          · split
            · exact cmdOver_canonical (Canonical.modPkg (slotStore_canonical h1 ..) _ (modCmd_wf ((slotStore_canonical h1 ..).2 _) ..)) ..
            · exact Canonical.modPkg (slotStore_canonical h1 ..) _ (modCmd_wf ((slotStore_canonical h1 ..).2 _) ..)
          · split
            · refine arrive_canonical ?_ ..
              split
              · exact cmdOver_canonical (Canonical.modPkg (slotStore_canonical h1 ..) _ (modCmd_wf ((slotStore_canonical h1 ..).2 _) ..)) ..
              · exact Canonical.modPkg (slotStore_canonical h1 ..) _ (modCmd_wf ((slotStore_canonical h1 ..).2 _) ..)
            · split
              · exact cmdOver_canonical (Canonical.modPkg (slotStore_canonical h1 ..) _ (modCmd_wf ((slotStore_canonical h1 ..).2 _) ..)) ..
              · exact Canonical.modPkg (slotStore_canonical h1 ..) _ (modCmd_wf ((slotStore_canonical h1 ..).2 _) ..)
        · refine Answers.next ?_
          intro h1
          split
          · split
            · exact cmdOver_canonical (Canonical.modPkg (storeSpans_canonical h1 ..) _ (modCmd_wf ((storeSpans_canonical h1 ..).2 _) ..)) ..
            · exact Canonical.modPkg (storeSpans_canonical h1 ..) _ (modCmd_wf ((storeSpans_canonical h1 ..).2 _) ..)
          · split
            · refine arrive_canonical ?_ ..
              split
              · exact cmdOver_canonical (Canonical.modPkg (storeSpans_canonical h1 ..) _ (modCmd_wf ((storeSpans_canonical h1 ..).2 _) ..)) ..
              · exact Canonical.modPkg (storeSpans_canonical h1 ..) _ (modCmd_wf ((storeSpans_canonical h1 ..).2 _) ..)
            · split
              · exact cmdOver_canonical (Canonical.modPkg (storeSpans_canonical h1 ..) _ (modCmd_wf ((storeSpans_canonical h1 ..).2 _) ..)) ..
              · exact Canonical.modPkg (storeSpans_canonical h1 ..) _ (modCmd_wf ((storeSpans_canonical h1 ..).2 _) ..)
      · split
        · refine Answers.next ?_
          intro h1
          split
          · exact cmdOver_canonical (Canonical.modPkg (slotStore_canonical h1 ..) _ (modCmd_wf ((slotStore_canonical h1 ..).2 _) ..)) ..
          · exact Canonical.modPkg (slotStore_canonical h1 ..) _ (modCmd_wf ((slotStore_canonical h1 ..).2 _) ..)
        · refine Answers.next ?_
          intro h1
          split
          · refine cmdOver_canonical ?_ ..
            refine Canonical.modPkg h1 _ ?_
            exact h1.2 _
          · refine Canonical.modPkg h1 _ ?_
            exact h1.2 _
      · refine Answers.next ?_
        intro h1
        split
        · split
          · refine cmdOver_canonical ?_ ..
            refine Canonical.modPkg (modWindow_canonical h1 ..) _ ?_
            exact h1.2 _
          · refine Canonical.modPkg (modWindow_canonical h1 ..) _ ?_
            exact h1.2 _
        · split
          · refine cmdOver_canonical ?_ ..
            refine Canonical.modPkg (modWindow_canonical h1 ..) _ ?_
            exact h1.2 _
          · refine Canonical.modPkg (modWindow_canonical h1 ..) _ ?_
            exact h1.2 _
      · refine Answers.next ?_
        intro h1
        refine fillTag_canonical ?_ ..
        split
        · split
          · refine cmdOver_canonical ?_ ..
            refine Canonical.modPkg (modTroupe_canonical h1 ..) _ ?_
            exact h1.2 _
          · refine Canonical.modPkg (modTroupe_canonical h1 ..) _ ?_
            exact h1.2 _
        · split
          · refine cmdOver_canonical ?_ ..
            refine Canonical.modPkg (modTroupe_canonical h1 ..) _ ?_
            exact h1.2 _
          · refine Canonical.modPkg (modTroupe_canonical h1 ..) _ ?_
            exact h1.2 _
      · exact Answers.next (fun h1 => h1)
theorem execRingSlotFill_answers (s : State) (k n : Nat) :
    Answers s (execRingSlotFill k n s) := by
  unfold execRingSlotFill
  split
  · exact Answers.next (fun h1 => h1)
  · split
    · refine Answers.next ?_
      intro h1
      split
      · refine cmdOver_canonical ?_ ..
        refine Canonical.modPkg ?_ _ ?_
        · split
          · refine foldl_canonical ?_ _ (setWord_canonical (setRing_canonical h1 ..) ..)
            intro _ _ h2
            split
            · exact h2
            · dsimp only
              split
              · exact setRing_canonical h2 ..
              · exact h2
          · exact setRing_canonical h1 ..
        · refine modCmd_wf ?_ ..
          refine Canonical.host ?_ _
          split
          · refine foldl_canonical ?_ _ (setWord_canonical (setRing_canonical h1 ..) ..)
            intro _ _ h2
            split
            · exact h2
            · dsimp only
              split
              · exact setRing_canonical h2 ..
              · exact h2
          · exact setRing_canonical h1 ..
      · refine Canonical.modPkg ?_ _ ?_
        · split
          · refine foldl_canonical ?_ _ (setWord_canonical (setRing_canonical h1 ..) ..)
            intro _ _ h2
            split
            · exact h2
            · dsimp only
              split
              · exact setRing_canonical h2 ..
              · exact h2
          · exact setRing_canonical h1 ..
        · refine modCmd_wf ?_ ..
          refine Canonical.host ?_ _
          split
          · refine foldl_canonical ?_ _ (setWord_canonical (setRing_canonical h1 ..) ..)
            intro _ _ h2
            split
            · exact h2
            · dsimp only
              split
              · exact setRing_canonical h2 ..
              · exact h2
          · exact setRing_canonical h1 ..
    · exact Answers.next (fun h1 => h1)
theorem execCommandAccept_answers (s : State) (w : Nat) : Answers s (execCommandAccept w s) :=
  retry_answers _ _ _ fun i go h => by
    split at h <;> cases h
    · exact fun _ => execTcCopy_answers ..
    · exact fun _ => execTcOb_answers ..
    · exact fun _ => execTcMcast_answers ..
    · exact fun _ => execPermLoad_answers ..
    · exact fun _ => execRcopy_answers ..
    · exact fun _ => execRst_answers ..
    · exact fun _ => execRld_answers ..
    · exact fun _ => execRatom_answers ..
theorem execObRelDone_answers (s : State) (w : Nat) : Answers s (execObRelDone w s) :=
  retry_answers _ _ _ fun i go h => by
    split at h <;> cases h
    exact fun _ => execObRel_answers ..
theorem execBudgetPeriodStart_answers (s : State) (k : Nat) :
    Answers s (execBudgetPeriodStart k s) :=
  Answers.next (fun h1 => Canonical.modPkg h1 _ (h1.2 _))
theorem modRun_wf {p : Pkg} (hp : Memory.wf p.host.hostMem) (n : W16) (f : CollRun → CollRun) :
    Memory.wf (Pkg.modRun p n f).host.hostMem :=
  hp
theorem activate_wf {p : Pkg} (hp : Memory.wf p.host.hostMem) (r : CollRun) :
    Memory.wf (Pkg.activate p r).host.hostMem :=
  hp
theorem activateNext_wf {p : Pkg} (hp : Memory.wf p.host.hostMem) (plan : Nat) :
    Memory.wf (Pkg.activateNext p plan).host.hostMem := by
  unfold Pkg.activateNext
  split
  · exact hp
  · split <;> exact hp
theorem issueRun_wf {p : Pkg} (hp : Memory.wf p.host.hostMem) (plan : Nat) (r : CollRun) : Memory.wf (p.issueRun plan r).2.host.hostMem := by
  refine activateNext_wf ?_ _
  exact hp
theorem execCollRun_answers (s : State) (m : Mods) (d a : Reg) : Answers s (execCollRun m d a s) := by
  unfold execCollRun
  split
  · exact Answers.next fun hs => finish_canonical hs _
  extract_lets +onlyGivenNames b slot k p r0 r
  split
  · exact Answers.next fun hs => refuse_canonical hs ..
  split
  · exact Answers.next fun hs => waitAt_canonical hs _
  split
  · exact Answers.next fun hs => refuse_canonical hs ..
  split
  · exact Answers.next fun hs => refuse_canonical hs ..
  split
  · exact Answers.next fun hs => faultElected_canonical hs ..
  extract_lets +onlyGivenNames vas
  split
  · exact Answers.next fun hs => waitAt_canonical (missed_canonical hs ..) _
  extract_lets +onlyGivenNames s1 q
  refine Answers.next fun hs => ?_
  have h1 : Canonical s1 := walked_canonical hs ..
  exact finish_canonical (sendAll_canonical (h1.setPkg k (issueRun_wf (h1.2 k) ..)) ..) _
theorem execCollWt_answers (s : State) (m : Mods) (d a : Reg) :
    Answers s (execCollWt m d a s) := by
  unfold execCollWt
  split
  · exact Answers.next (fun h1 => finish_canonical h1 ..)
  · dsimp only
    split
    · exact Answers.next (fun h1 => refuse_canonical h1 ..)
    · split
      · exact Answers.next (fun h1 => finish_canonical (acquireLines_canonical (sendAll_canonical h1 ..) ..) ..)
      · split
        · exact Answers.next (fun h1 => waitAt_canonical h1 ..)
        · split <;> exact Answers.next (fun h1 => finish_canonical (acquireLines_canonical (sendAll_canonical h1 ..) ..) ..)
theorem execCollEntryStart_answers (s : State) (k n i : Nat) :
    Answers s (execCollEntryStart k n i s) := by
  unfold execCollEntryStart
  split
  · exact Answers.next (fun h1 => h1)
  · dsimp only
    split
    · exact Answers.next (fun h1 => h1)
    · split
      · exact Answers.next (fun h1 => h1)
      · split
        · refine Answers.next ?_
          intro h1
          refine Canonical.modPkg h1 _ ?_
          exact h1.2 _
        · refine Answers.next ?_
          intro h1
          refine Canonical.modPkg h1 _ ?_
          exact h1.2 _
        · refine Answers.next ?_
          intro h1
          refine Canonical.modPkg h1 _ ?_
          exact h1.2 _
        · refine Answers.next ?_
          intro h1
          refine Canonical.modPkg h1 _ ?_
          exact h1.2 _
theorem execReducerFold_answers (s : State) (k n : Nat) :
    Answers s (execReducerFold k n s) := by
  unfold execReducerFold
  dsimp only
  split
  · exact Answers.next (fun h1 => h1)
  · split
    · exact Answers.next (fun h1 => h1)
    · split
      · exact Answers.next (fun h1 => Canonical.modPkg h1 _ (h1.2 _))
      · split
        · exact Answers.next (fun h1 => Canonical.modPkg h1 _ (h1.2 _))
        · split
          · split
            · exact Answers.next (fun h1 => Canonical.modPkg (Canonical.modPkg h1 _ (h1.2 _)) _ (modRun_wf ((Canonical.modPkg h1 _ (h1.2 _)).2 _) ..))
            · refine Answers.next ?_
              intro h1
              refine Canonical.modPkg ?_ _ ?_
              · refine storeSpans_canonical ?_ ..
                split <;> exact Canonical.modPkg h1 _ (h1.2 _)
              · refine modRun_wf ?_ ..
                split
                · refine spend_wf ?_ ..
                  refine Canonical.host ?_ _
                  refine storeSpans_canonical ?_ ..
                  split <;> exact Canonical.modPkg h1 _ (h1.2 _)
                · refine Canonical.host ?_ _
                  refine storeSpans_canonical ?_ ..
                  split <;> exact Canonical.modPkg h1 _ (h1.2 _)
          · split
            · exact Answers.next (fun h1 => Canonical.modPkg (Canonical.modPkg h1 _ (h1.2 _)) _ (modRun_wf ((Canonical.modPkg h1 _ (h1.2 _)).2 _) ..))
            · refine Answers.next ?_
              intro h1
              refine Canonical.modPkg ?_ _ ?_
              · refine storeSpans_canonical ?_ ..
                split <;> exact Canonical.modPkg h1 _ (h1.2 _)
              · refine modRun_wf ?_ ..
                split
                · refine spend_wf ?_ ..
                  refine Canonical.host ?_ _
                  refine storeSpans_canonical ?_ ..
                  split <;> exact Canonical.modPkg h1 _ (h1.2 _)
                · refine Canonical.host ?_ _
                  refine storeSpans_canonical ?_ ..
                  split <;> exact Canonical.modPkg h1 _ (h1.2 _)
theorem spoil_canonical {s : State} (hs : Canonical s) (k : Nat) (p : Plan) (r : CollRun) :
    Canonical (State.spoil s k p r) :=
  foldl_canonical (fun _ _ h1 => storeSpans_canonical h1.rest ..) _ hs
theorem retireRun_canonical {s : State} (hs : Canonical s) (k : Nat) (r : CollRun) :
    Canonical (State.retireRun s k r) := by
  unfold State.retireRun
  refine Canonical.modPkg ?_ _ ?_
  · split
    · exact spoil_canonical hs ..
    · exact hs
  · refine activateNext_wf ?_ ..
    refine modRun_wf ?_ ..
    refine Canonical.host ?_ _
    split
    · exact spoil_canonical hs ..
    · exact hs
theorem execCollEntryComplete_answers (s : State) (k n i : Nat) :
    Answers s (execCollEntryComplete k n i s) := by
  unfold execCollEntryComplete
  split
  · exact Answers.next (fun h1 => h1)
  · dsimp only
    split
    · exact Answers.next (fun h1 => h1)
    · split
      · split
        · exact Answers.next (fun h1 => h1)
        · exact Answers.next (fun h1 => retireRun_canonical h1 ..)
      · split
        · exact Answers.next (fun h1 => h1)
        · split
          · exact Answers.next (fun h1 => h1)
          · refine Answers.next ?_
            intro h1
            split
            · refine retireRun_canonical ?_ ..
              refine Canonical.modPkg h1 _ ?_
              exact h1.2 _
            · refine Canonical.modPkg h1 _ ?_
              exact h1.2 _
theorem takeChunk_wf {p : Pkg} (hp : Memory.wf p.host.hostMem) (x : Packet) :
    Memory.wf (Pkg.takeChunk p x).host.hostMem := by
  unfold Pkg.takeChunk
  split
  · exact hp
  · split <;> exact hp
theorem copyIn_canonical {s : State} (hs : Canonical s) (k : Nat) (x : Packet) :
    Canonical (State.copyIn s k x) := by
  unfold State.copyIn
  dsimp only
  split
  · exact discard_canonical hs ..
  · refine foldl_canonical ?_ _ hs
    intro _ _ h1
    split
    · exact homeStore_canonical h1 ..
    · exact h1
theorem execCopySegmentPacket_answers (s : State) (k : Nat) :
    Answers s (execCopySegmentPacket k s) := by
  unfold execCopySegmentPacket
  split
  · exact Answers.next (fun h1 => h1)
  · refine onPacket_answers _ _ _ _ ?_
    intro _ _ _ h1
    split
    · exact Canonical.modPkg h1 _ (takeChunk_wf (h1.2 _) ..)
    · exact copyIn_canonical h1 ..
theorem laneF_answers (s : State) (m : Mods) (t : Machine.Lat) (n : Nat) (d : Reg) (g : Nat → W64 × BitVec 5) :
    Answers s (laneF s m t n d g) :=
  Answers.next (fun h1 => perLane_canonical h1 ..)
theorem unary_answers (s : State) (m : Mods) (t : Machine.Lat) (f : FFmt) (d a : Reg) (g : Fmt → Nat → FRes) :
    Answers s (unary s m t f d a g) :=
  laneF_answers ..
theorem binary_answers (s : State) (m : Mods) (t : Machine.Lat) (f : FFmt) (d a : Reg) (g : Fmt → Nat → Nat → FRes) :
    Answers s (binary s m t f d a g) :=
  laneF_answers ..
theorem major32_answers (s : State) (m : Mods) (d a b : Reg) (g : Fmt → Nat → Nat → FRes) :
    Answers s (major32 s m d a b g) :=
  laneF_answers ..
theorem major64_answers (s : State) (m : Mods) (d a b : Reg) (g : Fmt → Nat → Nat → FRes) :
    Answers s (major64 s m d a b g) :=
  laneF_answers ..
theorem execFaddF32_answers (s : State) (m : Mods) (d a b : Reg) :
    Answers s (execFaddF32 m d a b s) :=
  major32_answers ..
theorem execFsubF32_answers (s : State) (m : Mods) (d a b : Reg) :
    Answers s (execFsubF32 m d a b s) :=
  major32_answers ..
theorem execFmulF32_answers (s : State) (m : Mods) (d a b : Reg) :
    Answers s (execFmulF32 m d a b s) :=
  major32_answers ..
theorem execFfmaF32_answers (s : State) (m : Mods) (d a b : Reg) :
    Answers s (execFfmaF32 m d a b s) :=
  laneF_answers ..
theorem execFaddF64_answers (s : State) (m : Mods) (d a b : Reg) :
    Answers s (execFaddF64 m d a b s) :=
  major64_answers ..
theorem execFmulF64_answers (s : State) (m : Mods) (d a b : Reg) :
    Answers s (execFmulF64 m d a b s) :=
  major64_answers ..
theorem execFfmaF64_answers (s : State) (m : Mods) (d a b : Reg) :
    Answers s (execFfmaF64 m d a b s) :=
  laneF_answers ..
theorem execFadd_answers (s : State) (m : Mods) (f : FFmt) (d a : Reg) :
    Answers s (execFadd m f d a s) :=
  binary_answers ..
theorem execFsub_answers (s : State) (m : Mods) (f : FFmt) (d a : Reg) :
    Answers s (execFsub m f d a s) :=
  binary_answers ..
theorem execFmul_answers (s : State) (m : Mods) (f : FFmt) (d a : Reg) :
    Answers s (execFmul m f d a s) :=
  binary_answers ..
theorem execFfma_answers (s : State) (m : Mods) (f : FFmt) (d a : Reg) :
    Answers s (execFfma m f d a s) :=
  laneF_answers ..
theorem execFmin_answers (s : State) (m : Mods) (f : FFmt) (d a : Reg) :
    Answers s (execFmin m f d a s) :=
  binary_answers ..
theorem execFmax_answers (s : State) (m : Mods) (f : FFmt) (d a : Reg) :
    Answers s (execFmax m f d a s) :=
  binary_answers ..
theorem execFdiv_answers (s : State) (m : Mods) (f : FFmt) (d a : Reg) :
    Answers s (execFdiv m f d a s) :=
  binary_answers ..
theorem execFabs_answers (s : State) (m : Mods) (f : FFmt) (d a : Reg) :
    Answers s (execFabs m f d a s) :=
  unary_answers ..
theorem execFneg_answers (s : State) (m : Mods) (f : FFmt) (d a : Reg) :
    Answers s (execFneg m f d a s) :=
  unary_answers ..
theorem execFcopysign_answers (s : State) (m : Mods) (f : FFmt) (d a : Reg) :
    Answers s (execFcopysign m f d a s) :=
  binary_answers ..
theorem execFscale_answers (s : State) (m : Mods) (f : FFmt) (d a : Reg) :
    Answers s (execFscale m f d a s) :=
  laneF_answers ..
theorem execFgetexp_answers (s : State) (m : Mods) (f : FFmt) (d a : Reg) :
    Answers s (execFgetexp m f d a s) :=
  unary_answers ..
theorem execFgetman_answers (s : State) (m : Mods) (f : FFmt) (d a : Reg) :
    Answers s (execFgetman m f d a s) :=
  unary_answers ..
theorem execFrint_answers (s : State) (m : Mods) (f : FFmt) (d a : Reg) :
    Answers s (execFrint m f d a s) :=
  unary_answers ..
theorem fcmp_answers (s : State) (m : Mods) (w : Bool) (p : BitVec 6) (a b : Reg) (sig : Bool) (f : FVal → FVal → Bool) :
    Answers s (fcmp s m w p a b sig f) :=
  Answers.next (fun h1 => perLane_canonical h1 ..)
theorem execFcmpEq_answers (s : State) (m : Mods) (w : Bool) (p : BitVec 6) (a b : Reg) :
    Answers s (execFcmpEq m w p a b s) :=
  fcmp_answers ..
theorem execFcmpLt_answers (s : State) (m : Mods) (w : Bool) (p : BitVec 6) (a b : Reg) :
    Answers s (execFcmpLt m w p a b s) :=
  fcmp_answers ..
theorem execFcmpLe_answers (s : State) (m : Mods) (w : Bool) (p : BitVec 6) (a b : Reg) :
    Answers s (execFcmpLe m w p a b s) :=
  fcmp_answers ..
theorem execFcmpUn_answers (s : State) (m : Mods) (w : Bool) (p : BitVec 6) (a b : Reg) :
    Answers s (execFcmpUn m w p a b s) :=
  fcmp_answers ..
theorem execFclass_answers (s : State) (m : Mods) (f : FFmt) (d a : Reg) :
    Answers s (execFclass m f d a s) :=
  laneF_answers ..
theorem execFsqrt_answers (s : State) (m : Mods) (f : FFmt) (d a : Reg) :
    Answers s (execFsqrt m f d a s) :=
  unary_answers ..
theorem execFrcp_answers (s : State) (m : Mods) (f : FFmt) (d a : Reg) :
    Answers s (execFrcp m f d a s) :=
  unary_answers ..
theorem execFrsqrt_answers (s : State) (m : Mods) (f : FFmt) (d a : Reg) :
    Answers s (execFrsqrt m f d a s) :=
  unary_answers ..
theorem execFexp2_answers (s : State) (m : Mods) (f : FFmt) (d a : Reg) :
    Answers s (execFexp2 m f d a s) :=
  unary_answers ..
theorem execFlog2_answers (s : State) (m : Mods) (f : FFmt) (d a : Reg) :
    Answers s (execFlog2 m f d a s) :=
  unary_answers ..
theorem execFsinpi_answers (s : State) (m : Mods) (f : FFmt) (d a : Reg) :
    Answers s (execFsinpi m f d a s) :=
  unary_answers ..
theorem execFcospi_answers (s : State) (m : Mods) (f : FFmt) (d a : Reg) :
    Answers s (execFcospi m f d a s) :=
  unary_answers ..
theorem execFtanh_answers (s : State) (m : Mods) (f : FFmt) (d a : Reg) :
    Answers s (execFtanh m f d a s) :=
  unary_answers ..
theorem execFdot2_answers (s : State) (m : Mods) (f : FFmt) (d a : Reg) :
    Answers s (execFdot2 m f d a s) :=
  laneF_answers ..
theorem execCvt_answers (s : State) (m : Mods) (x y : CvtType) (d a : Reg) :
    Answers s (execCvt m x y d a s) :=
  laneF_answers ..
theorem execCvtPack_answers (s : State) (m : Mods) (k : PackKind) (d a : Reg) :
    Answers s (execCvtPack m k d a s) :=
  laneF_answers ..
theorem execLred_answers (s : State) (m : Mods) (o : RedOp) (t : RedType) (d a : Reg) :
    Answers s (execLred m o t d a s) :=
  Answers.next (fun h1 => perLane_canonical h1 ..)
theorem execLscan_answers (s : State) (m : Mods) (e : Bool) (o : ScanOp) (t : RedType) (d a : Reg) :
    Answers s (execLscan m e o t d a s) :=
  Answers.next (fun h1 => perLane_canonical h1 ..)
theorem execVote_answers (s : State) (m : Mods) (v : VoteKind) (d a : Reg) :
    Answers s (execVote m v d a s) :=
  laneP_answers ..
theorem execBallot_answers (s : State) (m : Mods) (d a : Reg) :
    Answers s (execBallot m d a s) :=
  lane32_answers ..
theorem execMatchLanes_answers (s : State) (m : Mods) (w : Bool) (d a : Reg) :
    Answers s (execMatchLanes m w d a s) :=
  lane64_answers ..
theorem execShfl_answers (s : State) (m : Mods) (k : ShflMode) (d a : Reg) :
    Answers s (execShfl m k d a s) :=
  lane32_answers ..
theorem streamElem_canonical {s : State} (hs : Canonical s) (tid : Nat) (a : ArrayCfg) (kk : Nat) (act : Window) (p : Plane) (x koff n at_ : Nat) :
    Canonical (State.streamElem s tid a kk act p x koff n at_) := by
  unfold State.streamElem
  split
  · exact modArr_canonical (setAcc_canonical hs ..) ..
  · exact modArr_canonical (setAcc_canonical (setAcc_canonical hs ..) ..) ..
theorem stream_canonical {s : State} (hs : Canonical s) (tid acc m sub win moff koff : Nat) :
    Canonical (State.stream s tid acc m sub win moff koff) :=
  foldl_canonical (fun _ _ h1 => streamElem_canonical h1 ..) _ hs
theorem onHead_answers (s : State) (t : Nat) (f : MxItem → Option State) (h_f : Canonical s → ∀ y, EachCanonical (f y)) : Answers s (onHead t s f) := by
  unfold onHead
  split
  · exact Answers.next fun hs => hs
  split
  next h => exact Answers.next fun hs => itemDone_canonical ((h_f hs _).get _ h) ..
  · exact Answers.next fun hs => hs
theorem execStreamResults_answers (s : State) (t : Nat) :
    Answers s (execStreamResults t s) := by
  unfold execStreamResults
  refine onHead_answers _ _ _ ?_
  intro h1 _
  split
  · exact eachCanonical_some (stream_canonical h1 ..)
  · exact eachCanonical_none
theorem execPlaneFillDone_answers (s : State) (t : Nat) :
    Answers s (execPlaneFillDone t s) := by
  unfold execPlaneFillDone
  refine onHead_answers _ _ _ ?_
  intro h1 _
  split
  · exact eachCanonical_some (modArr_canonical h1 ..)
  · exact eachCanonical_none
theorem closeElem_canonical {s : State} (hs : Canonical s) (tid f at_ : Nat) :
    Canonical (State.closeElem s tid f at_) := by
  unfold State.closeElem
  dsimp only
  split
  · exact hs
  · exact modArr_canonical (setAcc_canonical (setAcc_canonical hs ..) ..) ..
theorem closeTiles_canonical {s : State} (hs : Canonical s) (tid tile nt : Nat) :
    Canonical (State.closeTiles s tid tile nt) := by
  unfold State.closeTiles
  split
  · exact hs
  · exact foldl_canonical (fun _ _ h1 => closeElem_canonical h1 ..) _ hs.rest
theorem scrWrite_canonical {s : State} (hs : Canonical s) (tid : Nat) (va : W32) (bs : List Byte) :
    Canonical (State.scrWrite s tid va bs) := by
  unfold State.scrWrite
  refine foldl_canonical ?_ _ hs
  intro _ _ h1
  split
  · exact storeAt_canonical h1 ..
  · exact h1
theorem drain_canonical {s : State} (hs : Canonical s) (tid wid : Nat) (lanes : LaneMask) (ofmt : Nat) (scr : Bool) (nt tile : Nat) (wh sc : W32) (d : Reg) (tag : Nat) :
    Canonical (State.drain s tid wid lanes ofmt scr nt tile wh sc d tag) := by
  unfold State.drain
  dsimp only
  split
  · exact updLanes_canonical (scrWrite_canonical (closeTiles_canonical hs ..) ..) ..
  · exact updLanes_canonical (fillTag_canonical (closeTiles_canonical hs ..) ..) ..
theorem execDrainWrite_answers (s : State) (t : Nat) :
    Answers s (execDrainWrite t s) := by
  unfold execDrainWrite
  refine onHead_answers _ _ _ ?_
  intro h1 _
  split
  · exact eachCanonical_some (drain_canonical h1 ..)
  · exact eachCanonical_none
theorem mxGo_answers (s : State) (i : Instr) (m : Mods) (n : Nat) (a : Reg) (reserved : List W32 → Bool) (go : List W32 → ArrayCfg → State) (h_go : Canonical s → ∀ x0 x1, Canonical (go x0 x1)) :
    Answers s (mxGo i s m n a reserved go) := by
  unfold mxGo
  split
  · exact Answers.next (fun h1 => finish_canonical h1 ..)
  · refine Answers.next ?_
    intro h1
    split
    · exact refuse_canonical h1 ..
    · split
      · exact refuse_canonical h1 ..
      · split
        · exact waitAt_canonical h1 ..
        · exact h_go h1 _ _
theorem mxAccept_canonical {s : State} (hs : Canonical s) (w : MxWork) (tiles : List Nat) :
    Canonical (State.mxAccept s w tiles) :=
  finish_canonical (settleMx_canonical (addItem_canonical hs ..) ..) ..
theorem execMxCfg_answers (s : State) (m : Mods) (a : Reg) :
    Answers s (execMxCfg m a s) :=
  mxGo_answers _ _ _ _ _ _ _ (fun h1 _ _ => mxAccept_canonical h1 ..)
theorem execMxStat_answers (s : State) (m : Mods) (a : Reg) :
    Answers s (execMxStat m a s) := by
  unfold execMxStat
  refine mxGo_answers _ _ _ _ _ _ _ ?_
  intro h1 _ _
  dsimp only
  split
  · exact refuse_canonical h1 ..
  · split
    · exact refuse_canonical h1 ..
    · exact mxAccept_canonical h1 ..
theorem execMxSwap_answers (s : State) (m : Mods) :
    Answers s (execMxSwap m s) := by
  unfold execMxSwap
  refine mxGo_answers _ _ _ _ _ _ _ ?_
  intro h1 _ _
  split
  · exact mxAccept_canonical h1 ..
  · exact refuse_canonical h1 ..
theorem execMxStrm_answers (s : State) (m : Mods) (a : Reg) :
    Answers s (execMxStrm m a s) := by
  unfold execMxStrm
  refine mxGo_answers _ _ _ _ _ _ _ ?_
  intro h1 _ _
  dsimp only
  split
  · exact refuse_canonical h1 ..
  · split
    · exact refuse_canonical h1 ..
    · split
      · exact refuse_canonical h1 ..
      · split
        · exact refuse_canonical h1 ..
        · split
          · exact refuse_canonical h1 ..
          · exact mxAccept_canonical h1 ..
theorem execMxDrain_answers (s : State) (m : Mods) (d a : Reg) :
    Answers s (execMxDrain m d a s) := by
  unfold execMxDrain
  refine mxGo_answers _ _ _ _ _ _ _ ?_
  intro h1 _ _
  dsimp only
  split
  · exact refuse_canonical h1 ..
  · split
    · exact refuse_canonical h1 ..
    · split
      · exact refuse_canonical h1 ..
      · split
        · split
          · exact faultElected_canonical h1 ..
          · exact mxAccept_canonical (sendAll_canonical h1 ..) ..
        · exact mxAccept_canonical (oweAll_canonical h1 ..) ..
theorem execMxZero_answers (s : State) (m : Mods) (a : Reg) :
    Answers s (execMxZero m a s) := by
  unfold execMxZero
  refine mxGo_answers _ _ _ _ _ _ _ ?_
  intro h1 _ _
  split
  · exact refuse_canonical h1 ..
  · exact mxAccept_canonical h1 ..
theorem execMxWait_answers (s : State) (m : Mods) :
    Answers s (execMxWait m s) := by
  unfold execMxWait
  split
  · exact Answers.next (fun h1 => finish_canonical h1 ..)
  · exact Answers.next (fun h1 => waitAt_canonical (addItem_canonical (modMx_canonical h1 ..) ..) ..)
theorem execMxWaitDone_answers (s : State) (w : Nat) :
    Answers s (execMxWaitDone w s) :=
  Answers.next (fun h1 => settleMx_canonical h1 ..)
theorem imageGo_answers (s : State) (i : Instr) (m : Mods) (a : Reg) (kd : AccKind) (work : W64 → Nat → Nat → Bool → MxWork) :
    Answers s (imageGo i s m a kd work) := by
  unfold imageGo
  refine mxGo_answers _ _ _ _ _ _ _ ?_
  intro h1 _ _
  dsimp only
  split
  · exact refuse_canonical h1 ..
  · split
    · exact faultElected_canonical h1 ..
    · split
      · split
        · split
          · exact waitAt_canonical (missed_canonical h1 ..) ..
          · exact mxAccept_canonical (walked_canonical h1 ..) ..
        · split
          · exact waitAt_canonical (missed_canonical h1 ..) ..
          · exact mxAccept_canonical (walked_canonical h1 ..) ..
      · split
        · split
          · exact waitAt_canonical (missed_canonical h1 ..) ..
          · exact mxAccept_canonical (walked_canonical h1 ..) ..
        · split
          · exact waitAt_canonical (missed_canonical h1 ..) ..
          · exact mxAccept_canonical (walked_canonical h1 ..) ..
theorem execMxSave_answers (s : State) (m : Mods) (a : Reg) :
    Answers s (execMxSave m a s) :=
  imageGo_answers ..
theorem execMxRest_answers (s : State) (m : Mods) (a : Reg) :
    Answers s (execMxRest m a s) :=
  imageGo_answers ..

end Sys2Proof
end

