-- ==== Sys2Proof/Proofs/KeepsLaunchesAndHost.lean ====
section
/-! SUPPORT. Launches, graphs, pre-emption, the module and host commands keep memory in its canonical form; so every instruction and event answers a next state. -/

namespace Sys2Proof
open Machine

theorem markRefusal_canonical {s : State} (hs : Canonical s) (k : Nat) (unit : Nat) (ctx : W32) (r : LRec) (cause : Nat) (taken : Bool) :
    Canonical (State.markRefusal s k unit ctx r cause taken) := by
  unfold State.markRefusal
  split
  · exact hs
  · split
    · exact update_canonical hs ..
    · split
      · exact stopContext_canonical hs ..
      · exact Canonical.modPkg hs _ (mgmtEvent_wf (hs.2 _) ..)
theorem dropLaunch_canonical {s : State} (hs : Canonical s) (k n : Nat) :
    Canonical (State.dropLaunch s k n) :=
  Canonical.modPkg hs _ (hs.2 _)
theorem reelRefused_wf {p : Pkg} (hp : Memory.wf p.host.hostMem) (n : Nat) :
    Memory.wf (Pkg.reelRefused p n).host.hostMem := by
  unfold Pkg.reelRefused
  split <;> exact hp
theorem refuseTaken_canonical {s : State} (hs : Canonical s) (k n cause : Nat) :
    Canonical (State.refuseTaken s k n cause) := by
  unfold State.refuseTaken
  dsimp only
  split
  · exact markRefusal_canonical (dropLaunch_canonical (Canonical.modPkg hs _ (reelRefused_wf (hs.2 _) ..)) ..) ..
  · split
    · exact markRefusal_canonical (dropLaunch_canonical (Canonical.modPkg hs _ (reelRefused_wf (hs.2 _) ..)) ..) ..
    · exact markRefusal_canonical (dropLaunch_canonical (Canonical.modPkg (markRefusal_canonical (dropLaunch_canonical (Canonical.modPkg hs _ (reelRefused_wf (hs.2 _) ..)) ..) ..) _ (reelRefused_wf ((markRefusal_canonical (dropLaunch_canonical (Canonical.modPkg hs _ (reelRefused_wf (hs.2 _) ..)) ..) ..).2 _) ..)) ..) ..
theorem modLq_wf {p : Pkg} (hp : Memory.wf p.host.hostMem) (i : Nat) (f : LQueue → LQueue) :
    Memory.wf (Pkg.modLq p i f).host.hostMem :=
  hp
theorem lqTail_wf {p : Pkg} (hp : Memory.wf p.host.hostMem) (q : Nat) (v : W32) :
    Memory.wf (Pkg.lqTail p q v).host.hostMem := by
  unfold Pkg.lqTail
  dsimp only
  split
  · exact hp
  · split
    · exact hp
    · refine mgmtEvent_wf ?_ ..
      exact hp
theorem execLaunchDoorbell_answers (s : State) (k q : Nat) (v : W32) :
    Answers s (execLaunchDoorbell k q v s) := by
  unfold execLaunchDoorbell
  refine Answers.next ?_
  intro h1
  refine Canonical.modPkg h1 _ ?_
  split
  · exact lqTail_wf (h1.2 _) ..
  · exact h1.2 _
theorem addLaunch_canonical {s : State} (hs : Canonical s) (k : Nat) (x : Launch) :
    Canonical (State.addLaunch s k x) := by
  unfold State.addLaunch
  refine Canonical.modPkg hs.rest _ ?_
  exact hs.2 _
theorem execFrontEndTake_answers (s : State) (k q : Nat) :
    Answers s (execFrontEndTake k q s) := by
  unfold execFrontEndTake
  split
  · exact Answers.next (fun h1 => h1)
  · dsimp only
    split
    · refine Answers.next ?_
      intro h1
      refine Canonical.modPkg ?_ _ ?_
      · refine Canonical.modPkg h1 _ ?_
        exact h1.2 _
      · refine mgmtEvent_wf ?_ ..
        refine Canonical.host ?_ _
        refine Canonical.modPkg h1 _ ?_
        exact h1.2 _
    · split
      · refine Answers.next ?_
        intro h1
        refine markRefusal_canonical ?_ ..
        refine Canonical.modPkg h1 _ ?_
        exact h1.2 _
      · refine Answers.next ?_
        intro h1
        refine addLaunch_canonical ?_ ..
        refine Canonical.modPkg h1 _ ?_
        exact h1.2 _
theorem recheck_canonical {s : State} (hs : Canonical s) (k n : Nat) :
    Canonical (State.recheck s k n) := by
  unfold State.recheck
  split
  · exact hs
  · split
    · exact hs
    · split
      · exact stopContext_canonical hs ..
      · dsimp only
        split
        · exact hs
        · split
          · exact refuseTaken_canonical hs ..
          · refine Canonical.modPkg hs.rest _ ?_
            exact hs.2 _
theorem execLaunchReady_answers (s : State) (k n : Nat) :
    Answers s (execLaunchReady k n s) :=
  Answers.next (fun h1 => recheck_canonical h1 ..)
theorem execLaunchRecheckTimer_answers (s : State) (k n : Nat) :
    Answers s (execLaunchRecheckTimer k n s) :=
  Answers.next (fun h1 => recheck_canonical h1 ..)
theorem execLaunchAging_answers (s : State) (k n : Nat) :
    Answers s (execLaunchAging k n s) := by
  unfold execLaunchAging
  refine Answers.next ?_
  intro h1
  refine Canonical.modPkg h1 _ ?_
  exact h1.2 _
theorem execSpawn_answers (s : State) (m : Mods) (d a : Reg) :
    Answers s (execSpawn m d a s) := by
  unfold execSpawn
  split
  · exact Answers.next (fun h1 => finish_canonical h1 ..)
  · dsimp only
    split
    · exact Answers.next (fun h1 => finish_canonical (sendAll_canonical h1 ..) ..)
    · split
      · exact Answers.next (fun h1 => finish_canonical (sendAll_canonical h1 ..) ..)
      · split
        · exact Answers.next (fun h1 => finish_canonical (sendAll_canonical h1 ..) ..)
        · split
          · exact Answers.next (fun h1 => faultElected_canonical h1 ..)
          · split
            · exact Answers.next (fun h1 => waitAt_canonical (missed_canonical h1 ..) ..)
            · exact Answers.next (fun h1 => finish_canonical (sendAll_canonical (Canonical.modPkg (devStore_canonical (devStore_canonical (walked_canonical h1 ..) ..) ..) _ (modLq_wf ((devStore_canonical (devStore_canonical (walked_canonical h1 ..) ..) ..).2 _) ..)) ..) ..)
theorem setRequests_wf {p : Pkg} (hp : Memory.wf p.host.hostMem) (ctx : W32) (l : List Preempt) :
    Memory.wf (Pkg.setRequests p ctx l).host.hostMem :=
  hp
theorem placed_wf {p : Pkg} (hp : Memory.wf p.host.hostMem) (n caller clus : Nat) (saved : Bool) :
    Memory.wf (Pkg.placed p n caller clus saved).host.hostMem := by
  unfold Pkg.placed
  split <;> exact hp
theorem makeWait_canonical {s : State} (hs : Canonical s) (k n clus : Nat) (saved : Bool) :
    Canonical (State.makeWait s k n clus saved) := by
  unfold State.makeWait
  refine Canonical.modPkg hs.rest _ ?_
  exact hs.2 _
theorem noteHold_canonical {s : State} (hs : Canonical s) (k clus : Nat) (held : Bool) :
    Canonical (State.noteHold s k clus held) := by
  unfold State.noteHold
  split
  · exact hs
  · exact Canonical.modPkg hs _ (hs.2 _)
theorem placedOn_canonical {s : State} (hs : Canonical s) (k n caller clus : Nat) (saved : Bool) :
    Canonical (State.placedOn s k n caller clus saved) :=
  noteHold_canonical (Canonical.modPkg hs _ (placed_wf (hs.2 _) ..)) ..
theorem scrubTile_canonical {s : State} (hs : Canonical s) (held : FMap W32) (ctx : W32) (key tile : Nat) :
    Canonical (scrubTile s held ctx key tile) := by
  unfold scrubTile
  split
  · exact hs
  · exact zeroRange_canonical hs ..
theorem claim_canonical {s : State} (hs : Canonical s) (k core tid : Nat) :
    Canonical (State.claim s k core tid) := by
  unfold State.claim
  exact modCore_canonical (foldl_canonical (fun _ _ h1 => scrubTile_canonical h1 ..) _ (foldl_canonical (fun _ _ h1 => scrubTile_canonical h1 ..) _ hs)) ..
theorem startTroupe_canonical {s : State} (hs : Canonical s) (k n cid t crk : Nat) (bank : List W32) (dict : Option (List W32)) (place : Nat × List Nat) :
    Canonical (State.startTroupe s k n cid t crk bank dict place) :=
  claim_canonical (modCorps_canonical hs.rest ..) ..
theorem tryCorps_canonical {s : State} (hs : Canonical s) (k n : Nat) :
    EachCanonical (State.tryCorps s k n) := by
  unfold State.tryCorps
  split
  · exact eachCanonical_none
  · split
    · exact eachCanonical_none
    · split
      · refine eachCanonical_some ?_
        refine Canonical.modPkg hs _ ?_
        exact hs.2 _
      · split
        · exact eachCanonical_none
        · exact eachCanonical_some (stopContext_canonical hs ..)
        · split
          · split
            · exact eachCanonical_some (refuseTaken_canonical hs ..)
            · exact eachCanonical_none
          · exact eachCanonical_some (makeWait_canonical hs ..)
          · split
            · exact eachCanonical_some (Canonical.modPkg (placedOn_canonical (foldl_canonical (fun _ _ h1 => startTroupe_canonical h1 ..) _ hs.rest) ..) _ (modLaunch_wf ((placedOn_canonical (foldl_canonical (fun _ _ h1 => startTroupe_canonical h1 ..) _ hs.rest) ..).2 _) ..))
            · exact eachCanonical_some (stopContext_canonical hs ..)
            · exact eachCanonical_some (stopContext_canonical hs ..)
theorem preemptEvent_wf {p : Pkg} (hp : Memory.wf p.host.hostMem) (ctx : W32) (forced : Bool) :
    Memory.wf (preemptEvent p ctx forced).host.hostMem :=
  mgmtEvent_wf hp ..
theorem preemptCheck_canonical {s : State} (hs : Canonical s) (k : Nat) (ctx : W32) :
    Canonical (State.preemptCheck s k ctx) := by
  unfold State.preemptCheck
  dsimp only
  split
  · exact hs
  · refine Canonical.modPkg hs _ ?_
    refine foldl_wf (fun _ _ hp1 => preemptEvent_wf hp1 ..) _ ?_
    exact hs.2 _
theorem publishWords_canonical {s t : State} (hs : Canonical s) (k : Nat) (x : Launch) (n : Nat) (h : s.publishWords k x n = .inl t) : Canonical t := by
  unfold State.publishWords at h
  have hword : ∀ s t : State, ∀ m : W64, ∀ f : W64 → W64, Canonical s →
      (match s.wordKey k x.ctx m true with
        | .inl c => (.inr (c, m) : State ⊕ (Cause × W64))
        | .inr key => .inl ((s.update key 8 f none).2)) = .inl t → Canonical t := by
    intro s t m f hs h
    split at h
    · cases h
    · cases h
      exact update_canonical hs ..
  dsimp only at h
  split at h
  · cases h
  next s1 h1 =>
  have hs1 : Canonical s1 := by
    split at h1
    · cases h1
      exact hs
    · exact hword _ _ _ _ hs h1
  split at h
  · cases h
    exact hs1
  · exact hword _ _ _ _ hs1 h
theorem execTroupePublish_answers (s : State) (t : Nat) : Answers s (execTroupePublish t s) := by
  unfold execTroupePublish
  dsimp only
  split
  · exact Answers.next fun hs => hs
  split
  · exact Answers.next fun hs => stopContext_canonical hs ..
  next s1 h1 =>
  have h5 : Canonical s → Canonical s1 := by
    intro hs
    split at h1
    · cases h1
      exact hs
    · exact publishWords_canonical hs _ _ _ h1
  have h3 := fun hs => Canonical.modPkg_host (modTroupe_canonical (h5 hs) t (fun y => { y with st := .published }))
  split
  · refine Answers.next fun hs => stopContext_canonical (grant_canonical (preemptCheck_canonical (canonical_ite (dropLaunch_canonical (h3 hs _ ?_) ..) (h3 hs _ ?_)) ..) ..) ..
    all_goals exact fun _ => rfl
  · refine Answers.next fun hs => grant_canonical (preemptCheck_canonical (canonical_ite (dropLaunch_canonical (h3 hs _ ?_) ..) (h3 hs _ ?_)) ..) ..
    all_goals exact fun _ => rfl
theorem graphOver_canonical {s : State} (hs : Canonical s) (k n : Nat) :
    Canonical (State.graphOver s k n) := by
  unfold State.graphOver
  dsimp only
  split
  · exact hs
  · split
    · exact dropLaunch_canonical hs ..
    · split
      · exact stopContext_canonical hs ..
      · exact dropLaunch_canonical (update_canonical hs ..) ..
theorem beginGraph_canonical {s : State} (hs : Canonical s) (k n : Nat) :
    Canonical (State.beginGraph s k n) := by
  unfold State.beginGraph
  dsimp only
  split
  · exact refuseTaken_canonical hs ..
  · refine graphOver_canonical ?_ ..
    refine Canonical.modPkg hs _ ?_
    exact hs.2 _
theorem execCallerHandover_answers (s : State) (k : Nat) :
    Answers s (execCallerHandover k s) := by
  unfold execCallerHandover
  split
  · refine Answers.next ?_
    intro h1
    split
    · refine beginGraph_canonical ?_ ..
      refine Canonical.modPkg h1 _ ?_
      exact h1.2 _
    · refine Canonical.modPkg h1 _ ?_
      exact h1.2 _
  · exact Answers.next (fun h1 => h1)
theorem startGrid_canonical {s : State} (hs : Canonical s) (k n i : Nat) (x : Launch) (r : NodeRec) :
    Canonical (State.startGrid s k n i x r).2 := by
  unfold State.startGrid
  dsimp only
  split
  · exact hs
  · split
    · exact hs
    · split
      · exact hs
      · split
        · exact markRefusal_canonical hs ..
        · exact hs
theorem startNode_canonical {s : State} (hs : Canonical s) (k n i : Nat) (x : Launch) (r : NodeRec) :
    Canonical (State.startNode s k n i x r).2 := by
  unfold State.startNode
  split
  · exact hs
  · split
    · exact startGrid_canonical hs ..
    · exact hs
    · exact hs
    · exact hs
    · exact hs
    · exact hs
    · exact hs
    · exact hs
def NodeGo.Keeps (s : State) (g : NodeGo) : Prop := ∀ t n, g = .go t n → Canonical s → Canonical t
theorem NodeGo.keeps_go {s t : State} {n : Nat} (h : Canonical s → Canonical t) : NodeGo.Keeps s (.go t n) := by
  rintro _ _ ⟨⟩
  exact h
theorem NodeGo.keeps_wait {s : State} : NodeGo.Keeps s .wait := nofun
theorem NodeGo.keeps_refuse {s : State} {c : Nat} : NodeGo.Keeps s (.refuse c) := nofun
theorem startGrid_keeps (s : State) (k n i : Nat) (x : Launch) (r : NodeRec) : NodeGo.Keeps s (s.startGrid k n i x r).1 := by
  unfold State.startGrid
  dsimp only
  split
  · exact NodeGo.keeps_refuse
  split
  · exact NodeGo.keeps_refuse
  split
  · exact NodeGo.keeps_refuse
  split
  · exact NodeGo.keeps_refuse
  · exact NodeGo.keeps_go fun hs => addLaunch_canonical hs ..
theorem startCopy_keeps (s : State) (k n i : Nat) (x : Launch) (r : NodeRec) : NodeGo.Keeps s (s.startCopy k n i x r) := by
  unfold State.startCopy
  split
  · exact NodeGo.keeps_refuse
  dsimp only
  split
  · exact NodeGo.keeps_refuse
  split
  · exact NodeGo.keeps_refuse
  split
  · exact NodeGo.keeps_wait
  · refine NodeGo.keeps_go fun hs => Canonical.modPkg_host (Canonical.rest hs) k ?_
    exact fun _ => rfl
theorem startColl_keeps (s : State) (k : Nat) (x : Launch) (r : NodeRec) : NodeGo.Keeps s (s.startColl k x r) := by
  unfold State.startColl
  dsimp only
  split
  · exact NodeGo.keeps_refuse
  split
  · exact NodeGo.keeps_refuse
  split
  · exact NodeGo.keeps_refuse
  split
  · exact NodeGo.keeps_refuse
  split
  · exact NodeGo.keeps_wait
  · exact NodeGo.keeps_go fun hs => hs.setPkg k (issueRun_wf (hs.2 k) ..)
theorem startSig_keeps (s : State) (k : Nat) (x : Launch) (r : NodeRec) : NodeGo.Keeps s (s.startSig k x r) := by
  unfold State.startSig
  split
  · exact NodeGo.keeps_refuse
  split
  · exact NodeGo.keeps_refuse
  · exact NodeGo.keeps_go fun hs => addEvent_canonical hs ..
theorem startWord_keeps (s : State) (k : Nat) (x : Launch) (r : NodeRec) : NodeGo.Keeps s (s.startWord k x r) := by
  unfold State.startWord
  split
  · exact NodeGo.keeps_refuse
  split
  · exact NodeGo.keeps_refuse
  · exact NodeGo.keeps_go id
theorem startNode_keeps (s : State) (k n i : Nat) (x : Launch) (r : NodeRec) : NodeGo.Keeps s (s.startNode k n i x r).1 := by
  unfold State.startNode
  split
  · exact NodeGo.keeps_refuse
  split
  · exact startGrid_keeps s k n i x r
  · exact startCopy_keeps s k n i x r
  · exact startColl_keeps s k x r
  · exact startWord_keeps s k x r
  · exact startSig_keeps s k x r
  · exact startWord_keeps s k x r
  · exact startWord_keeps s k x r
  · exact NodeGo.keeps_go id
theorem execGraphNodeStart_answers (s : State) (k n i : Nat) : Answers s (execGraphNodeStart k n i s) := by
  unfold execGraphNodeStart
  dsimp only
  split
  · exact Answers.next fun hs => hs
  split
  · exact Answers.next fun hs => refuseTaken_canonical hs ..
  next r _ =>
  have h2 := fun hs => startNode_canonical (s := s) hs k n i (s.launch k n) r
  have h1 := startNode_keeps s k n i (s.launch k n) r
  split
  next h =>
    rw [h] at h2
    exact Answers.next fun hs => refuseTaken_canonical (h2 hs) ..
  · exact Answers.next fun hs => hs
  next h =>
    rw [h] at h1
    exact Answers.next fun hs => (h1 _ _ rfl hs).modPkg_host k fun _ => rfl
theorem execGraphNodeDone_answers (s : State) (k n i : Nat) :
    Answers s (execGraphNodeDone k n i s) := by
  unfold execGraphNodeDone
  dsimp only
  split
  · exact Answers.next (fun h1 => h1)
  · split
    · exact Answers.next (fun h1 => refuseTaken_canonical h1 ..)
    · split
      · exact Answers.next (fun h1 => h1)
      · exact Answers.next (fun h1 => stopContext_canonical h1 ..)
      · refine Answers.next ?_
        intro h1
        refine graphOver_canonical ?_ ..
        refine Canonical.modPkg h1 _ ?_
        exact h1.2 _
theorem execHandlerEntry_answers (s : State) (w : Nat) :
    Answers s (execHandlerEntry w s) := by
  unfold execHandlerEntry
  dsimp only
  split
  · exact Answers.next (fun h1 => h1)
  · split
    · exact Answers.next (fun h1 => stopContext_canonical h1 ..)
    · exact Answers.next (fun h1 => setWave_canonical h1 ..)
theorem takePreempt_canonical {s : State} (hs : Canonical s) (w : Nat) :
    Canonical (State.takePreempt s w) := by
  unfold State.takePreempt
  dsimp only
  split
  · exact hs
  · split
    · exact setWave_canonical hs ..
    · exact takeStop_canonical hs ..
theorem execSysc_answers (s : State) (m : Mods) (n : Reg) :
    Answers s (execSysc m n s) := by
  unfold execSysc
  refine Answers.next ?_
  intro h1
  split
  · exact refuse_canonical h1 ..
  · exact trapAll_canonical h1 ..
theorem unsteerAll_canonical {s : State} (hs : Canonical s) (w : Nat) :
    Canonical (State.unsteerAll s w) :=
  updLanes_canonical hs ..
theorem trapReturn_canonical {s : State} (hs : Canonical s) (w : Nat) :
    Canonical (State.trapReturn s w) := by
  unfold State.trapReturn
  refine checkCbar_canonical ?_ ..
  refine checkTbar_canonical ?_ ..
  split
  · split
    · exact modWave_canonical (unsteerAll_canonical hs ..) ..
    · exact modTroupe_canonical (modWave_canonical (unsteerAll_canonical hs ..) ..) ..
  · split
    · exact modWave_canonical hs ..
    · exact modTroupe_canonical (modWave_canonical hs ..) ..
theorem afterReturn_canonical {s : State} (hs : Canonical s) (w : Nat) :
    Canonical (State.afterReturn s w) := by
  unfold State.afterReturn
  dsimp only
  split
  · exact takeStop_canonical (setWave_canonical hs ..) ..
  · split
    · exact takePreempt_canonical (modWave_canonical (setWave_canonical hs ..) ..) ..
    · exact settle_canonical (setWave_canonical hs ..) ..
theorem execTret_answers (s : State) (m : Mods) :
    Answers s (execTret m s) := by
  unfold execTret
  dsimp only
  split
  · exact Answers.next (fun h1 => finish_canonical h1 ..)
  · split
    · exact Answers.next (fun h1 => refuseWith_canonical h1 ..)
    · split
      · exact Answers.next (fun h1 => refuse_canonical h1 ..)
      · exact Answers.next (fun h1 => afterReturn_canonical (finish_canonical (Canonical.rest (trapReturn_canonical h1 ..)) ..) ..)
theorem forceStop_canonical {s : State} (hs : Canonical s) (k : Nat) (ctx : W32) :
    Canonical (State.forceStop s k ctx) :=
  Canonical.modPkg (stopContext_canonical hs ..) _ (foldl_wf (fun _ _ hp1 => preemptEvent_wf hp1 ..) _ ((stopContext_canonical hs ..).2 _))
theorem execDrainDeadline_answers (s : State) (k : Nat) (x : W32) :
    Answers s (execDrainDeadline k x s) := by
  unfold execDrainDeadline
  split
  · exact Answers.next (fun h1 => h1)
  · dsimp only
    split
    · exact Answers.next (fun h1 => forceStop_canonical h1 ..)
    · refine Answers.next ?_
      intro h1
      refine preemptCheck_canonical ?_ ..
      refine foldl_canonical (fun _ _ h2 => takePreempt_canonical h2 ..) _ ?_
      refine Canonical.modPkg h1 _ ?_
      exact h1.2 _
theorem execEvictionDeadline_answers (s : State) (k : Nat) (x : W32) :
    Answers s (execEvictionDeadline k x s) := by
  unfold execEvictionDeadline
  split
  · exact Answers.next (fun h1 => h1)
  · exact Answers.next (fun h1 => forceStop_canonical h1 ..)
theorem putRegs_canonical {s : State} (hs : Canonical s) (w : Nat) :
    Canonical (State.putRegs s w) := by
  unfold State.putRegs
  exact foldl_canonical (fun _ _ h1 => foldl_canonical (fun _ _ h2 => devWrite_canonical h2 ..) _ h1) _ (foldl_canonical (fun _ _ h1 => foldl_canonical (fun _ _ h2 => devWrite_canonical h2 ..) _ h1) _ hs)
theorem saveWave_canonical {s : State} (hs : Canonical s) (w : Nat) (saveh : W64) :
    Canonical (State.saveWave s w saveh) :=
  setWave_canonical (putRegs_canonical (devWrite_canonical (setWave_canonical hs ..) ..) ..) ..
theorem putHeader_canonical {s : State} (hs : Canonical s) (tid : Nat) :
    Canonical (State.putHeader s tid) :=
  devWrite_canonical hs ..
theorem execPreemptSaveImage_answers (s : State) (tid : Nat) :
    Answers s (execPreemptSaveImage tid s) := by
  unfold execPreemptSaveImage
  dsimp only
  split
  · exact Answers.next (fun h1 => h1)
  · split
    · exact Answers.next (fun h1 => forceStop_canonical h1 ..)
    · split
      · exact Answers.next (fun h1 => stopContext_canonical h1 ..)
      · exact Answers.next (fun h1 => foldl_canonical (fun _ _ h2 => saveWave_canonical h2 ..) _ (putHeader_canonical h1 ..))
theorem execCtxPark_answers (s : State) (m : Mods) :
    Answers s (execCtxPark m s) := by
  unfold execCtxPark
  refine Answers.next ?_
  intro h1
  split
  · exact finish_canonical h1 ..
  · split
    · exact refuseWith_canonical h1 ..
    · split
      · exact refuse_canonical h1 ..
      · split
        · exact refuse_canonical h1 ..
        · exact modWave_canonical (finish_canonical h1 ..) ..
theorem amendWave_canonical {s : State} (hs : Canonical s) (w : Nat) :
    Canonical (State.amendWave s w) := by
  unfold State.amendWave
  dsimp only
  split
  · exact devWrite_canonical hs ..
  · refine foldl_canonical ?_ _ (devWrite_canonical hs ..)
    intro _ _ h1
    split
    · exact devWrite_canonical (devWrite_canonical h1 ..) ..
    · exact h1
theorem amendCorps_canonical {s : State} (hs : Canonical s) (c : Nat) :
    Canonical (State.amendCorps s c) := by
  unfold State.amendCorps
  refine foldl_canonical ?_ _ hs
  intro _ _ h1
  split
  · exact putHeader_canonical (foldl_canonical (fun _ _ h2 => amendWave_canonical h2 ..) _ h1) ..
  · exact h1
theorem execTroupeLeavesCore_answers (s : State) (tid : Nat) :
    Answers s (execTroupeLeavesCore tid s) := by
  unfold execTroupeLeavesCore
  dsimp only
  split
  · exact Answers.next (fun h1 => h1)
  · exact Answers.next (fun h1 => grant_canonical (preemptCheck_canonical (amendCorps_canonical (Canonical.modPkg (modTroupe_canonical (modCore_canonical h1 ..) ..) _ (modLaunch_wf ((modTroupe_canonical (modCore_canonical h1 ..) ..).2 _) ..)) ..) ..) ..)
theorem restoreTroupe_canonical {s : State} (hs : Canonical s) (tid clus : Nat) (place : Nat × List Nat) (bank : List W32) (dict : Option (List W32)) (resth : W64) :
    Canonical (State.restoreTroupe s tid clus place bank dict resth) := by
  unfold State.restoreTroupe
  exact claim_canonical (modCore_canonical (Canonical.modPkg (foldl_canonical (fun _ _ h1 => setWave_canonical h1 ..) _ (modCorps_canonical (modTroupe_canonical hs.rest ..) ..)) _ (modLaunch_wf ((foldl_canonical (fun _ _ h1 => setWave_canonical h1 ..) _ (modCorps_canonical (modTroupe_canonical hs.rest ..) ..)).2 _) ..)) ..) ..
theorem tryRestore_canonical {s : State} (hs : Canonical s) (k n : Nat) :
    EachCanonical (State.tryRestore s k n) := by
  unfold State.tryRestore
  split
  · exact eachCanonical_none
  · split
    · exact eachCanonical_none
    · split
      · exact eachCanonical_none
      · split
        · exact eachCanonical_some (stopContext_canonical hs ..)
        · split
          · exact eachCanonical_none
          · exact eachCanonical_some (makeWait_canonical hs ..)
          · dsimp only
            split
            · split
              · exact eachCanonical_some (stopContext_canonical hs ..)
              · split
                · exact eachCanonical_some (Canonical.modPkg (placedOn_canonical (foldl_canonical (fun _ _ h1 => restoreTroupe_canonical h1 ..) _ hs) ..) _ (modLaunch_wf ((placedOn_canonical (foldl_canonical (fun _ _ h1 => restoreTroupe_canonical h1 ..) _ hs) ..).2 _) ..))
                · exact eachCanonical_some (stopContext_canonical hs ..)
                · exact eachCanonical_some (stopContext_canonical hs ..)
            · split
              · exact eachCanonical_some (stopContext_canonical hs ..)
              · split
                · exact eachCanonical_some (Canonical.modPkg (placedOn_canonical (foldl_canonical (fun _ _ h1 => restoreTroupe_canonical h1 ..) _ hs) ..) _ (modLaunch_wf ((placedOn_canonical (foldl_canonical (fun _ _ h1 => restoreTroupe_canonical h1 ..) _ hs) ..).2 _) ..))
                · exact eachCanonical_some (stopContext_canonical hs ..)
                · exact eachCanonical_some (stopContext_canonical hs ..)
theorem tryPlace_canonical {s : State} (hs : Canonical s) (k n : Nat) :
    EachCanonical (State.tryPlace s k n) := by
  unfold State.tryPlace
  split
  · exact tryCorps_canonical hs ..
  · exact tryRestore_canonical hs ..
theorem execCorpsPlacement_answers (s : State) (k n : Nat) : Answers s (execCorpsPlacement k n s) :=
  Answers.next fun hs => canonical_ite hs ((tryCorps_canonical hs k n).getD hs)
theorem execRestorePlacement_answers (s : State) (k n : Nat) : Answers s (execRestorePlacement k n s) :=
  Answers.next fun hs => canonical_ite hs ((tryRestore_canonical hs k n).getD hs)
theorem csrWrite_canonical {s : State} (hs : Canonical s) (ls : List Nat) (n : Nat) (val : Nat → W64) :
    Canonical (State.csrWrite s ls n val) := by
  unfold State.csrWrite
  dsimp only
  split
  · exact modWave_canonical hs ..
  · exact updLanes_canonical hs ..
  · exact modWave_canonical hs ..
  · exact updLanes_canonical hs ..
  · exact updLanes_canonical hs ..
  · exact updLanes_canonical hs ..
  · exact Canonical.modPkg hs _ (hs.2 _)
  · exact modTroupe_canonical hs ..
  · exact modTroupe_canonical hs ..
  · exact hs
theorem csrGo_answers (s : State) (i : Instr) (m : Mods) (r : BitVec 12) (d : Reg) (wr : Bool) (go : State → State) (h_go : ∀ x0, Canonical x0 → Canonical (go x0)) :
    Answers s (csrGo i s m r d wr go) := by
  unfold csrGo
  refine Answers.next ?_
  intro h1
  split
  · exact h_go _ h1
  · split
    · exact refuse_canonical h1 ..
    · split
      · exact refuse_canonical h1 ..
      · split
        · exact refuseWith_canonical h1 ..
        · split
          · exact refuse_canonical h1 ..
          · split
            · exact waitAt_canonical h1 ..
            · exact h_go _ h1
theorem sendCsr_canonical {s0 : State} (hs : Canonical s0) (s : State) (m : Mods) (r : BitVec 12) (d : Reg) (h_s : Canonical s) :
    Canonical (sendCsr s0 s m r d) :=
  updLanes_canonical h_s.rest ..
theorem execCsrr_answers (s : State) (m : Mods) (r : BitVec 12) (d : Reg) :
    Answers s (execCsrr m r d s) :=
  csrGo_answers _ _ _ _ _ _ _ (fun _ h1 => finish_canonical (sendCsr_canonical h1 _ _ _ _ h1) ..)
theorem execCsrw_answers (s : State) (m : Mods) (r : BitVec 12) (d : Reg) :
    Answers s (execCsrw m r d s) := by
  unfold execCsrw
  refine csrGo_answers _ _ _ _ _ _ _ ?_
  intro _ h1
  refine finish_canonical ?_ ..
  split
  · exact csrWrite_canonical h1 ..
  · exact h1
theorem execCsrx_answers (s : State) (m : Mods) (r : BitVec 12) (d : Reg) :
    Answers s (execCsrx m r d s) := by
  unfold execCsrx
  refine csrGo_answers _ _ _ _ _ _ _ ?_
  intro _ h1
  refine finish_canonical ?_ ..
  split
  · exact sendCsr_canonical h1 _ _ _ _ (csrWrite_canonical h1 ..)
  · exact sendCsr_canonical h1 _ _ _ _ h1
theorem modReel_wf {p : Pkg} (hp : Memory.wf p.host.hostMem) (f : Reel → Reel) :
    Memory.wf (Pkg.modReel p f).host.hostMem :=
  hp
theorem modReel_canonical {s : State} (hs : Canonical s) (k : Nat) (f : Reel → Reel) :
    Canonical (State.modReel s k f) := by
  unfold State.modReel
  refine Canonical.modPkg hs _ ?_
  exact hs.2 _
theorem execReelGo_answers (s : State) (m : Mods) (d a : Reg) :
    Answers s (execReelGo m d a s) := by
  unfold execReelGo
  split
  · exact Answers.next (fun h1 => finish_canonical h1 ..)
  · refine Answers.next ?_
    intro h1
    split
    · exact refuse_canonical h1 ..
    · split
      · exact refuse_canonical h1 ..
      · split
        · exact waitAt_canonical h1 ..
        · split
          · exact finish_canonical (sendAll_canonical h1 ..) ..
          · exact finish_canonical (sendAll_canonical (modReel_canonical h1 ..) ..) ..
theorem execReelStat_answers (s : State) (m : Mods) (d a : Reg) :
    Answers s (execReelStat m d a s) := by
  unfold execReelStat
  split
  · exact Answers.next (fun h1 => finish_canonical h1 ..)
  · refine Answers.next ?_
    intro h1
    split
    · exact refuse_canonical h1 ..
    · exact finish_canonical (sendAll_canonical h1 ..) ..
theorem execReelWait_answers (s : State) (k : Nat) :
    Answers s (execReelWait k s) := by
  unfold execReelWait
  refine Answers.next ?_
  intro h1
  split
  · exact h1
  · split
    · exact modReel_canonical h1 ..
    · split
      · exact stopContext_canonical h1 ..
      · exact modReel_canonical h1 ..
      · exact modReel_canonical h1 ..
theorem execReelGather_answers (s : State) (k : Nat) : Answers s (execReelGather k s) := by
  unfold execReelGather
  extract_lets +onlyGivenNames p r e
  split
  · exact Answers.next fun hs => hs
  split
  · refine Answers.next fun hs => ?_
    split
    · exact modReel_canonical hs ..
    · exact canonical_ite hs (canonical_ite (modReel_canonical hs ..) (modReel_canonical hs ..))
  split
  · exact Answers.next fun hs => modReel_canonical hs ..
  next slot _ =>
  split
  · exact Answers.next fun hs => stopContext_canonical hs ..
  · exact Answers.next fun hs => stopContext_canonical hs ..
  extract_lets +onlyGivenNames write
  have hw : ∀ s, Canonical s → Canonical (write s) := fun s hs => modReel_canonical (devWrite_canonical hs ..) ..
  split
  · exact Answers.next fun hs => modReel_canonical (hw _ hs) ..
  split
  · exact Answers.next fun hs => canonical_ite hs (modReel_canonical hs ..)
  extract_lets +onlyGivenNames run0 run
  split
  · exact Answers.next fun hs => modReel_canonical hs ..
  split
  · exact Answers.next fun hs => hs
  · exact Answers.next fun hs => modReel_canonical ((hw s hs).setPkg k (issueRun_wf ((hw s hs).2 k) ..)) ..
theorem execReelRun_answers (s : State) (k : Nat) :
    Answers s (execReelRun k s) := by
  unfold execReelRun
  dsimp only
  split
  · exact Answers.next (fun h1 => h1)
  · split
    · refine Answers.next ?_
      intro h1
      split
      · exact h1
      · refine Canonical.modPkg h1 _ ?_
        exact h1.2 _
    · split
      · exact Answers.next (fun h1 => h1)
      · split
        · exact Answers.next (fun h1 => Canonical.modPkg h1 _ (modReel_wf (mgmtEvent_wf (h1.2 _) ..) ..))
        · split
          · exact Answers.next (fun h1 => modReel_canonical h1 ..)
          · split
            · exact Answers.next (fun h1 => modReel_canonical (markRefusal_canonical h1 ..) ..)
            · exact Answers.next (fun h1 => modReel_canonical (addLaunch_canonical h1 ..) ..)
theorem execReelHandoff_answers (s : State) (k : Nat) :
    Answers s (execReelHandoff k s) := by
  unfold execReelHandoff
  refine Answers.next ?_
  intro h1
  split
  · exact h1
  · split
    · exact h1
    · exact Canonical.modPkg h1 _ (modReel_wf (foldl_wf (fun _ _ hp2 => enqueue_wf hp2 ..) _ (h1.2 _)) ..)
theorem runImage_wf {p : Pkg} (hp : Memory.wf p.host.hostMem) (k : Nat) (im : BootImage) :
    Memory.wf (Pkg.runImage p k im).host.hostMem :=
  hp
theorem tryImage_wf {p : Pkg} (hp : Memory.wf p.host.hostMem) (k : Nat) (im : BootImage) :
    Memory.wf (Pkg.tryImage p k im).host.hostMem := by
  unfold Pkg.tryImage
  split <;> exact hp
theorem tryStage_wf {p : Pkg} (hp : Memory.wf p.host.hostMem) (im : BootImage) :
    Memory.wf (Pkg.tryStage p im).host.hostMem :=
  hp
theorem execBootRom_answers (s : State) (k : Nat) (im : BootImage) :
    Answers s (execBootRom k im s) := by
  unfold execBootRom
  refine Answers.next ?_
  intro h1
  split
  · exact h1
  · refine Canonical.modPkg h1 _ ?_
    split
    · exact h1.2 _
    · exact tryImage_wf (h1.2 _) ..
theorem execRecoveryImage_answers (s : State) (k : Nat) (im : BootImage) :
    Answers s (execRecoveryImage k im s) := by
  unfold execRecoveryImage
  refine Answers.next ?_
  intro h1
  split
  · exact Canonical.modPkg h1 _ (tryImage_wf (h1.2 _) ..)
  · exact h1
theorem execMrExtend_answers (s : State) (k n : Nat) (v : BitVec 256) :
    Answers s (execMrExtend k n v s) := by
  unfold execMrExtend
  refine Answers.next ?_
  intro h1
  split
  · exact Canonical.modPkg h1 _ (h1.2 _)
  · exact h1
theorem execAttestationRequest_answers (s : State) (k : Nat) (v : BitVec 256) (u : Byte) :
    Answers s (execAttestationRequest k v u s) := by
  unfold execAttestationRequest
  refine Answers.next ?_
  intro h1
  split
  · exact h1
  · exact Canonical.modPkg h1 _ (h1.2 _)
theorem featureGo_wf {p : Pkg} (hp : Memory.wf p.host.hostMem) :
    Memory.wf (Pkg.featureGo p).host.hostMem := by
  unfold Pkg.featureGo
  dsimp only
  split
  · exact hp
  · split <;> exact hp
theorem execFeatureGo_answers (s : State) (k : Nat) :
    Answers s (execFeatureGo k s) :=
  Answers.next (fun h1 => Canonical.modPkg h1 _ (featureGo_wf (h1.2 _)))
theorem apFault_wf {p : Pkg} (hp : Memory.wf p.host.hostMem) (va : W64) :
    Memory.wf (apFault p va).host.hostMem :=
  mgmtEvent_wf hp ..
theorem reply_wf {p : Pkg} (hp : Memory.wf p.host.hostMem) (r : HostReply) :
    Memory.wf (Pkg.reply p r).host.hostMem :=
  hp
theorem execApertureRead_answers (s : State) (k : Nat) (v : W64) (r : HostRead) :
    Answers s (execApertureRead k v r s) := by
  unfold execApertureRead
  refine Answers.next ?_
  intro h1
  split
  · refine Canonical.modPkg h1 _ ?_
    exact h1.2 _
  · split
    · exact Canonical.modPkg h1 _ (reply_wf (apFault_wf (h1.2 _) ..) ..)
    · split
      · refine Canonical.modPkg h1 _ ?_
        exact h1.2 _
      · refine Canonical.modPkg h1 _ ?_
        exact h1.2 _
theorem putParts_canonical {s : State} (hs : Canonical s) (l : List (Nat × Nat)) (bs : List Byte) : Canonical (putParts l bs s) := by
  induction l generalizing s bs with
  | nil => exact hs
  | cons e es ih => exact ih (storeAt_canonical hs ..) _
theorem putUnits_canonical {s : State} (hs : Canonical s) (k bad i : Nat) (l : List (Nat × Nat)) (bs : List Byte) : Canonical (putUnits k bad i l bs s) := by
  induction l generalizing s i bs with
  | nil => exact hs
  | cons e es ih => exact ih (canonical_ite (hs.modPkg k (mgmtEvent_wf (hs.2 k) ..)) (storeAt_canonical hs ..)) ..
theorem execApertureWrite_answers (s : State) (k : Nat) (v : W64) (bs : List Byte) (bad : Nat) : Answers s (execApertureWrite k v bs bad s) := by
  refine Answers.next fun hs => canonical_ite hs ?_
  split
  · exact hs.modPkg k (apFault_wf (hs.2 k) _)
  · exact canonical_ite (putParts_canonical hs ..) (putUnits_canonical hs ..)
theorem apertureSet_wf {p : Pkg} (hp : Memory.wf p.host.hostMem) (r : Nat) (v : W64) :
    Memory.wf (Pkg.apertureSet p r v).host.hostMem := by
  unfold Pkg.apertureSet
  split
  · exact hp
  · split
    · exact hp
    · split <;> exact hp
theorem execApertureControlWrite_answers (s : State) (k r : Nat) (v : W64) :
    Answers s (execApertureControlWrite k r v s) :=
  Answers.next (fun h1 => Canonical.modPkg h1 _ (apertureSet_wf (h1.2 _) ..))
theorem startTest_wf {p : Pkg} (hp : Memory.wf p.host.hostMem) (cls : Byte) (unit row : Nat) (ue : Bool) :
    Memory.wf (Pkg.startTest p cls unit row ue).host.hostMem := by
  unfold Pkg.startTest
  split
  · exact hp
  · dsimp only
    split <;> split <;> exact hp
theorem dropParity_wf {p : Pkg} (hp : Memory.wf p.host.hostMem) (n : Nat) (v : W64) (c : Nat) :
    Memory.wf (Pkg.dropParity p n v c).host.hostMem := by
  unfold Pkg.dropParity
  split <;> exact hp
theorem execCorrectedError_answers (s : State) (k : Nat) (u : ErrStore) (n : Nat) (v : W64) :
    Answers s (execCorrectedError k u n v s) := by
  unfold execCorrectedError
  refine Answers.next ?_
  intro h1
  refine Canonical.modPkg h1 _ ?_
  split
  · exact h1.2 _
  · refine startTest_wf ?_ ..
    refine mgmtEvent_wf ?_ ..
    split
    · exact dropParity_wf (h1.2 _) ..
    · exact h1.2 _
theorem stopAll_canonical {s : State} (hs : Canonical s) (k : Nat) (cs : List W32) (cause : Cause) (sub : Byte) :
    Canonical (State.stopAll s k cs cause sub) :=
  foldl_canonical (fun _ _ h1 => stopContext_canonical h1 ..) _ hs
theorem coreFailed_canonical {s : State} (hs : Canonical s) (k n : Nat) (sub : Byte) :
    Canonical (State.coreFailed s k n sub) := by
  unfold State.coreFailed
  exact foldl_canonical (fun _ _ h1 => preemptCheck_canonical h1 ..) _ (grant_canonical (foldl_canonical (fun _ _ h1 => eccTroupe_canonical h1 ..) _ hs) ..)
theorem execEccu_answers (s : State) (k n : Nat) (u : Byte) :
    Answers s (execEccu k n u s) := by
  unfold execEccu
  refine Answers.next ?_
  intro h1
  refine coreFailed_canonical ?_ ..
  refine Canonical.modPkg h1.rest _ ?_
  refine startTest_wf ?_ ..
  refine mgmtEvent_wf ?_ ..
  exact h1.2 _
theorem execUncorrectableError_answers (s : State) (k : Nat) (u : Byte) (n : Nat) (v : W64) :
    Answers s (execUncorrectableError k u n v s) := by
  unfold execUncorrectableError
  refine Answers.next ?_
  intro h1
  split
  · exact coreFailed_canonical (Canonical.modPkg h1 _ (startTest_wf (mgmtEvent_wf (h1.2 _) ..) ..)) ..
  · split
    · exact Canonical.modPkg (Canonical.modPkg h1 _ (startTest_wf (mgmtEvent_wf (h1.2 _) ..) ..)) _ ((Canonical.modPkg h1 _ (startTest_wf (mgmtEvent_wf (h1.2 _) ..) ..)).2 _)
    · split
      · exact stopAll_canonical (Canonical.modPkg h1 _ (startTest_wf (mgmtEvent_wf (h1.2 _) ..) ..)) ..
      · exact Canonical.modPkg h1 _ (startTest_wf (mgmtEvent_wf (h1.2 _) ..) ..)
theorem refuseUnfit_canonical {s : State} (hs : Canonical s) (k : Nat) :
    Canonical (State.refuseUnfit s k) :=
  foldl_canonical (fun _ _ h1 => refuseTaken_canonical h1 ..) _ hs
theorem retire_canonical {s : State} (hs : Canonical s) (k : Nat) (t : Test) :
    Canonical (State.retire s k t) := by
  unfold State.retire
  split
  · exact refuseUnfit_canonical (modCore_canonical hs ..) ..
  · split
    · exact Canonical.modPkg hs _ (hs.2 _)
    · split
      · exact Canonical.modPkg hs _ (hs.2 _)
      · split
        · dsimp only
          split
          · exact hs.rest
          · refine Canonical.modPkg hs.rest _ ?_
            exact hs.2 _
        · exact hs
theorem execSelfTestEnd_answers (s : State) (k : Nat) (u : TestRow) (n : Nat) (ok : Bool) : Answers s (execSelfTestEnd k u n ok s) := by
  unfold execSelfTestEnd
  split
  · exact Answers.next fun hs => hs
  split
  · exact Answers.next fun hs => hs
  dsimp only
  refine Answers.next fun hs => canonical_ite (retire_canonical (hs.modPkg k (mgmtEvent_wf ?_ ..)) ..)
    (canonical_ite (modCore_canonical (hs.modPkg k (mgmtEvent_wf ?_ ..)) ..) (hs.modPkg k (mgmtEvent_wf ?_ ..)))
  all_goals exact hs.2 k
theorem budgetSet_wf {p : Pkg} (hp : Memory.wf p.host.hostMem) (r : Nat) (v : W32) :
    Memory.wf (Pkg.budgetSet p r v).host.hostMem := by
  unfold Pkg.budgetSet
  split
  · exact hp
  · split <;> exact hp
theorem execBudgetWrite_answers (s : State) (k r : Nat) (v : W32) :
    Answers s (execBudgetWrite k r v s) :=
  Answers.next (fun h1 => Canonical.modPkg h1 _ (budgetSet_wf (h1.2 _) ..))
theorem pcapSet_wf {p : Pkg} (hp : Memory.wf p.host.hostMem) (v : W32) :
    Memory.wf (Pkg.pcapSet p v).host.hostMem := by
  unfold Pkg.pcapSet
  split <;> exact hp
theorem execPcapWrite_answers (s : State) (k : Nat) (v : W32) :
    Answers s (execPcapWrite k v s) :=
  Answers.next (fun h1 => Canonical.modPkg h1 _ (pcapSet_wf (h1.2 _) ..))
theorem pstateSet_wf {p : Pkg} (hp : Memory.wf p.host.hostMem) (v : W32) :
    Memory.wf (Pkg.pstateSet p v).host.hostMem := by
  unfold Pkg.pstateSet
  dsimp only
  split <;> exact hp
theorem execPstateWrite_answers (s : State) (k : Nat) (v : W32) :
    Answers s (execPstateWrite k v s) :=
  Answers.next (fun h1 => Canonical.modPkg h1 _ (pstateSet_wf (h1.2 _) ..))
theorem clockDown_wf {p : Pkg} (hp : Memory.wf p.host.hostMem) :
    Memory.wf (Pkg.clockDown p).host.hostMem :=
  hp
theorem clockUp_wf {p : Pkg} (hp : Memory.wf p.host.hostMem) :
    Memory.wf (Pkg.clockUp p).host.hostMem :=
  hp
theorem execPowerCapReached_answers (s : State) (k : Nat) :
    Answers s (execPowerCapReached k s) := by
  unfold execPowerCapReached
  refine Answers.next ?_
  intro h1
  refine Canonical.modPkg h1 _ ?_
  refine mgmtEvent_wf ?_ ..
  exact h1.2 _
theorem execTemperatureEvent_answers (s : State) (k n : Nat) :
    Answers s (execTemperatureEvent k n s) := by
  unfold execTemperatureEvent
  refine Answers.next ?_
  intro h1
  split
  · exact Canonical.modPkg (stopAll_canonical h1 ..) _ ((stopAll_canonical h1 ..).2 _)
  · split
    · refine Canonical.modPkg h1 _ ?_
      refine mgmtEvent_wf ?_ ..
      exact h1.2 _
    · refine Canonical.modPkg h1 _ ?_
      exact h1.2 _
theorem cmdOk_canonical {s : State} (hs : Canonical s) (k : Nat) (status : Nat) :
    Canonical (cmdOk s k status) :=
  Canonical.modPkg hs _ (cmdDone_wf (hs.2 _) ..)
theorem onCtx_answers (s : State) (k : Nat) (h : HArgs) (go : Ctx → State) (h_go : Canonical s → ∀ x0, Canonical (go x0)) :
    Answers s (onCtx s k h go) := by
  unfold onCtx
  refine Answers.next ?_
  intro h1
  split
  · exact h1
  · split
    · exact cmdOk_canonical h1 ..
    · exact h_go h1 _
theorem modCtx_wf {p : Pkg} (hp : Memory.wf p.host.hostMem) (c : W32) (f : Ctx → Ctx) :
    Memory.wf (Pkg.modCtx p c f).host.hostMem :=
  hp
theorem execCtxnew_answers (s : State) (k : Nat) (h : HArgs) :
    Answers s (execCtxnew k h s) := by
  unfold execCtxnew
  refine Answers.next ?_
  intro h1
  split
  · exact h1
  · split
    · exact cmdOk_canonical h1 ..
    · split
      · exact cmdOk_canonical h1 ..
      · exact cmdOk_canonical (Canonical.modPkg h1 _ (h1.2 _)) ..
theorem execCtxentry_answers (s : State) (k : Nat) (h : HArgs) :
    Answers s (execCtxentry k h s) := by
  unfold execCtxentry
  refine onCtx_answers _ _ _ _ ?_
  intro h1 _
  split
  · refine cmdOk_canonical ?_ ..
    refine Canonical.modPkg h1 _ ?_
    exact h1.2 _
  · exact cmdOk_canonical h1 ..
theorem execCtxstop_answers (s : State) (k : Nat) (h : HArgs) :
    Answers s (execCtxstop k h s) := by
  unfold execCtxstop
  refine onCtx_answers _ _ _ _ ?_
  intro h1 _
  split
  · exact cmdOk_canonical h1 ..
  · exact cmdOk_canonical (stopContext_canonical h1 ..) ..
theorem execCtxfree_answers (s : State) (k : Nat) (h : HArgs) :
    Answers s (execCtxfree k h s) := by
  unfold execCtxfree
  refine onCtx_answers _ _ _ _ ?_
  intro h1 _
  split
  · exact cmdOk_canonical h1 ..
  · refine cmdOk_canonical ?_ ..
    refine Canonical.modPkg h1 _ ?_
    exact h1.2 _
theorem execCtxevt_answers (s : State) (k : Nat) (h : HArgs) :
    Answers s (execCtxevt k h s) := by
  unfold execCtxevt
  refine onCtx_answers _ _ _ _ ?_
  intro h1 _
  split
  · exact cmdOk_canonical h1 ..
  · refine cmdOk_canonical ?_ ..
    refine Canonical.modPkg h1 _ ?_
    exact h1.2 _
theorem execPreempt_answers (s : State) (k : Nat) (h : HArgs) :
    Answers s (execPreempt k h s) := by
  unfold execPreempt
  refine onCtx_answers _ _ _ _ ?_
  intro h1 _
  split
  · split
    · exact cmdOk_canonical h1 ..
    · refine cmdOk_canonical ?_ ..
      refine preemptCheck_canonical ?_ ..
      refine Canonical.modPkg h1 _ ?_
      exact h1.2 _
  · exact cmdOk_canonical h1 ..
theorem execPreend_answers (s : State) (k : Nat) (h : HArgs) :
    Answers s (execPreend k h s) := by
  unfold execPreend
  refine onCtx_answers _ _ _ _ ?_
  intro h1 _
  split
  · exact cmdOk_canonical h1 ..
  · refine cmdOk_canonical ?_ ..
    refine preemptCheck_canonical ?_ ..
    refine Canonical.modPkg h1 _ ?_
    refine foldl_wf (fun _ _ hp2 => preemptEvent_wf hp2 ..) _ ?_
    exact h1.2 _
theorem execResume_answers (s : State) (k : Nat) (h : HArgs) :
    Answers s (execResume k h s) := by
  unfold execResume
  refine onCtx_answers _ _ _ _ ?_
  intro h1 _
  split
  · exact cmdOk_canonical h1 ..
  · split
    · exact cmdOk_canonical h1 ..
    · split
      · exact cmdOk_canonical (modWave_canonical h1 ..) ..
      · split
        · exact cmdOk_canonical h1 ..
        · split
          · exact cmdOk_canonical h1 ..
          · exact cmdOk_canonical (modWave_canonical h1 ..) ..
theorem execPlanload_answers (s : State) (k : Nat) (h : HArgs) :
    Answers s (execPlanload k h s) := by
  unfold execPlanload
  refine onCtx_answers _ _ _ _ ?_
  intro h1 _
  dsimp only
  split
  · exact cmdOk_canonical h1 ..
  · split
    · exact Canonical.modPkg h1 _ (h1.2 _)
    · split
      · exact cmdOk_canonical (Canonical.modPkg h1 _ (h1.2 _)) ..
      · split
        · exact cmdOk_canonical (Canonical.modPkg h1 _ (h1.2 _)) ..
        · split
          · exact cmdOk_canonical (Canonical.modPkg h1 _ (h1.2 _)) ..
          · split
            · exact cmdOk_canonical (Canonical.modPkg h1 _ (h1.2 _)) ..
            · exact cmdOk_canonical (Canonical.modPkg (Canonical.modPkg h1 _ (h1.2 _)) _ ((Canonical.modPkg h1 _ (h1.2 _)).2 _)) ..
theorem execReelload_answers (s : State) (k : Nat) (h : HArgs) :
    Answers s (execReelload k h s) := by
  unfold execReelload
  refine onCtx_answers _ _ _ _ ?_
  intro h1 _
  dsimp only
  split
  · exact cmdOk_canonical h1 ..
  · split
    · exact cmdOk_canonical h1 ..
    · split
      · exact cmdOk_canonical h1 ..
      · exact cmdOk_canonical (modReel_canonical h1 ..) ..
theorem execHndload_answers (s : State) (k : Nat) (h : HArgs) :
    Answers s (execHndload k h s) := by
  unfold execHndload
  refine onCtx_answers _ _ _ _ ?_
  intro h1 _
  split
  · exact cmdOk_canonical h1 ..
  · split
    · exact cmdOk_canonical h1 ..
    · dsimp only
      split
      · exact cmdOk_canonical h1 ..
      · exact cmdOk_canonical (Canonical.modPkg h1 _ (h1.2 _)) ..
theorem execFctlset_answers (s : State) (k : Nat) (h : HArgs) :
    Answers s (execFctlset k h s) := by
  unfold execFctlset
  refine Answers.next ?_
  intro h1
  split
  · exact h1
  · split
    · exact cmdOk_canonical h1 ..
    · exact cmdOk_canonical (Canonical.modPkg h1 _ (h1.2 _)) ..
theorem execMasters_answers (s : State) (k : Nat) (h : HArgs) : Answers s (execMasters k h s) := by
  refine Answers.next fun hs => canonical_ite hs (canonical_ite (cmdOk_canonical hs ..) (cmdOk_canonical (hs.modPkg k (followMaster_wf ?_ _)) ..))
  exact hs.2 k
theorem hostAsk_canonical {s : State} (hs : Canonical s) (k : Nat) (a : VmAsk) (ha : VmAsk.Keeps s a) : Canonical (hostAsk s k a) := by
  unfold hostAsk
  split
  · exact cmdOk_canonical hs ..
  · exact hs
  · exact cmdOk_canonical hs ..
  next s1 c => exact Canonical.modPkg_host (Canonical.rest (ha _ _ rfl hs)) k fun _ => rfl
theorem execVmdup_answers (s : State) (k : Nat) (h : HArgs) : Answers s (execVmdup k h s) :=
  onCtx_answers _ _ _ _ fun hs _ => hostAsk_canonical hs _ _ (vmDup_keeps _ _ _ _ _ _)
theorem execVmsplit_answers (s : State) (k : Nat) (h : HArgs) : Answers s (execVmsplit k h s) :=
  onCtx_answers _ _ _ _ fun hs _ => hostAsk_canonical hs _ _ (vmSplit_keeps _ _ _ _)
theorem execVmprot_answers (s : State) (k : Nat) (h : HArgs) : Answers s (execVmprot k h s) :=
  onCtx_answers _ _ _ _ fun hs _ => hostAsk_canonical hs _ _ (by
    split
    · exact VmAsk.keeps_param
    · exact vmProt_keeps _ _ _ _ _ _)
theorem execTlbinv_answers (s : State) (k : Nat) (h : HArgs) : Answers s (execTlbinv k h s) :=
  onCtx_answers _ _ _ _ fun hs _ => hostAsk_canonical hs _ _ (by
    split
    · exact VmAsk.keeps_param
    · exact VmAsk.keeps_begin fun hs => tlbDrop_canonical hs ..)
theorem skipBad_wf {p : Pkg} (hp : Memory.wf p.host.hostMem) :
    Memory.wf (Pkg.skipBad p).host.hostMem := by
  unfold Pkg.skipBad
  split
  · exact cqSkip_wf _ hp
  · exact hp
theorem cqTail_wf {p : Pkg} (hp : Memory.wf p.host.hostMem) (v : W32) :
    Memory.wf (Pkg.cqTail p v).host.hostMem := by
  unfold Pkg.cqTail
  dsimp only
  split
  · exact hp
  · split
    · exact skipBad_wf hp
    · exact mgmtEvent_wf hp ..
theorem execHostCommandDoorbell_answers (s : State) (k : Nat) (v : W32) :
    Answers s (execHostCommandDoorbell k v s) :=
  Answers.next (fun h1 => Canonical.modPkg h1 _ (cqTail_wf (h1.2 _) ..))
theorem wf_ite {c : Prop} [Decidable c] {p q : Pkg} (hp : Memory.wf p.host.hostMem) (hq : Memory.wf q.host.hostMem) :
    Memory.wf (if c then p else q).host.hostMem := by
  split
  · exact hp
  · exact hq
theorem regWord_wf {p : Pkg} (hp : Memory.wf p.host.hostMem) (r : Nat) (v : W32) : Memory.wf (p.regWord r v).host.hostMem := by
  unfold Pkg.regWord
  refine wf_ite hp (wf_ite hp ?_)
  refine wf_ite (wf_ite (featureGo_wf hp) hp) ?_
  refine wf_ite (apertureSet_wf hp ..) (wf_ite (apertureSet_wf hp ..) (wf_ite (apertureSet_wf hp ..) ?_))
  refine wf_ite (modLq_wf hp ..) (wf_ite (budgetSet_wf hp ..) ?_)
  refine wf_ite hp (wf_ite hp (wf_ite hp (wf_ite hp ?_)))
  refine wf_ite (pcapSet_wf hp _) (wf_ite (pstateSet_wf hp _) ?_)
  refine wf_ite (skipBad_wf ?_) (wf_ite (skipBad_wf ?_) (wf_ite (skipBad_wf ?_) (wf_ite (cqTail_wf hp _) hp)))
  all_goals exact hp
theorem windowWord_wf {p : Pkg} (hp : Memory.wf p.host.hostMem) (r : Nat) (v : W32) :
    Memory.wf (Pkg.windowWord p r v).host.hostMem := by
  unfold Pkg.windowWord
  split
  · split
    · exact lqTail_wf hp ..
    · exact hp
  · exact regWord_wf hp ..
theorem windowWrite_wf {p : Pkg} (hp : Memory.wf p.host.hostMem) (r n : Nat) (v : W64) :
    Memory.wf (Pkg.windowWrite p r n v).host.hostMem := by
  unfold Pkg.windowWrite
  split
  · exact windowWord_wf hp ..
  · split
    · exact windowWord_wf (windowWord_wf hp ..) ..
    · exact hp
theorem execRegisterWrite_answers (s : State) (k r n : Nat) (v : W64) :
    Answers s (execRegisterWrite k r n v s) :=
  Answers.next (fun h1 => Canonical.modPkg h1 _ (windowWrite_wf (h1.2 _) ..))
theorem exec_answers (s : State) : ∀ i, Answers s (exec i s)
  | .iadd .. => execIadd_answers ..
  | .isub .. => execIsub_answers ..
  | .imul .. => execImul_answers ..
  | .imad .. => execImad_answers ..
  | .andB32 .. => execAndB32_answers ..
  | .orB32 .. => execOrB32_answers ..
  | .xorB32 .. => execXorB32_answers ..
  | .shl .. => execShl_answers ..
  | .shr .. => execShr_answers ..
  | .sar .. => execSar_answers ..
  | .lea .. => execLea_answers ..
  | .sel .. => execSel_answers ..
  | .bfx .. => execBfx_answers ..
  | .bfi .. => execBfi_answers ..
  | .prmt .. => execPrmt_answers ..
  | .shf .. => execShf_answers ..
  | .lop3 .. => execLop3_answers ..
  | .iaddi .. => execIaddi_answers ..
  | .shi .. => execShi_answers ..
  | .movi .. => execMovi_answers ..
  | .movl .. => execMovl_answers ..
  | .movh .. => execMovh_answers ..
  | .mov .. => execMov_answers ..
  | .popc .. => execPopc_answers ..
  | .clz .. => execClz_answers ..
  | .ctz .. => execCtz_answers ..
  | .brev .. => execBrev_answers ..
  | .iabs .. => execIabs_answers ..
  | .ineg .. => execIneg_answers ..
  | .iaddB64 .. => execIaddB64_answers ..
  | .isubB64 .. => execIsubB64_answers ..
  | .imulB64 .. => execImulB64_answers ..
  | .iaddcB32 .. => execIaddcB32_answers ..
  | .isubbB32 .. => execIsubbB32_answers ..
  | .iaddcB64 .. => execIaddcB64_answers ..
  | .isubbB64 .. => execIsubbB64_answers ..
  | .imulh .. => execImulh_answers ..
  | .imadw .. => execImadw_answers ..
  | .idiv .. => execIdiv_answers ..
  | .irem .. => execIrem_answers ..
  | .imin .. => execImin_answers ..
  | .imax .. => execImax_answers ..
  | .iclamp .. => execIclamp_answers ..
  | .dp4 .. => execDp4_answers ..
  | .shlB64 .. => execShlB64_answers ..
  | .shrB64 .. => execShrB64_answers ..
  | .sarB64 .. => execSarB64_answers ..
  | .rotlB32 .. => execRotlB32_answers ..
  | .rotlB64 .. => execRotlB64_answers ..
  | .andB64 .. => execAndB64_answers ..
  | .orB64 .. => execOrB64_answers ..
  | .xorB64 .. => execXorB64_answers ..
  | .pmov .. => execPmov_answers ..
  | .pset .. => execPset_answers ..
  | .p2g .. => execP2g_answers ..
  | .g2p .. => execG2p_answers ..
  | .plop3 .. => execPlop3_answers ..
  | .icmpEq .. => execIcmpEq_answers ..
  | .icmpNe .. => execIcmpNe_answers ..
  | .icmpLtS .. => execIcmpLtS_answers ..
  | .icmpLtZ .. => execIcmpLtZ_answers ..
  | .faddF32 .. => execFaddF32_answers ..
  | .fsubF32 .. => execFsubF32_answers ..
  | .fmulF32 .. => execFmulF32_answers ..
  | .ffmaF32 .. => execFfmaF32_answers ..
  | .faddF64 .. => execFaddF64_answers ..
  | .fmulF64 .. => execFmulF64_answers ..
  | .ffmaF64 .. => execFfmaF64_answers ..
  | .fcmpEq .. => execFcmpEq_answers ..
  | .fcmpLt .. => execFcmpLt_answers ..
  | .fcmpLe .. => execFcmpLe_answers ..
  | .fcmpUn .. => execFcmpUn_answers ..
  | .fabs .. => execFabs_answers ..
  | .fneg .. => execFneg_answers ..
  | .fsqrt .. => execFsqrt_answers ..
  | .frcp .. => execFrcp_answers ..
  | .frsqrt .. => execFrsqrt_answers ..
  | .fexp2 .. => execFexp2_answers ..
  | .flog2 .. => execFlog2_answers ..
  | .fsinpi .. => execFsinpi_answers ..
  | .fcospi .. => execFcospi_answers ..
  | .ftanh .. => execFtanh_answers ..
  | .fclass .. => execFclass_answers ..
  | .fgetexp .. => execFgetexp_answers ..
  | .fgetman .. => execFgetman_answers ..
  | .frint .. => execFrint_answers ..
  | .fadd .. => execFadd_answers ..
  | .fsub .. => execFsub_answers ..
  | .fmul .. => execFmul_answers ..
  | .ffma .. => execFfma_answers ..
  | .fmin .. => execFmin_answers ..
  | .fmax .. => execFmax_answers ..
  | .fcopysign .. => execFcopysign_answers ..
  | .fdiv .. => execFdiv_answers ..
  | .fscale .. => execFscale_answers ..
  | .fdot2 .. => execFdot2_answers ..
  | .cvt .. => execCvt_answers ..
  | .cvtPack .. => execCvtPack_answers ..
  | .lred .. => execLred_answers ..
  | .lscan .. => execLscan_answers ..
  | .vote .. => execVote_answers ..
  | .ballot .. => execBallot_answers ..
  | .matchLanes .. => execMatchLanes_answers ..
  | .shfl .. => execShfl_answers ..
  | .bra m o n p => execBra_answers s m o n p
  | .call m o n p => execCall_answers s m o n p
  | .jmp .. => execJmp_answers ..
  | .callr .. => execCallr_answers ..
  | .ret .. => execRet_answers ..
  | .brx .. => execBrx_answers ..
  | .exit .. => execExit_answers ..
  | .trap .. => execTrap_answers ..
  | .brk .. => execBrk_answers ..
  | .nop m => execNop_answers s m
  | .yield .. => execYield_answers ..
  | .pause .. => execPause_answers ..
  | .wsb .. => execWsb_answers ..
  | .rjEnter .. => execRjEnter_answers ..
  | .rjQuit .. => execRjQuit_answers ..
  | .rjWait .. => execRjWait_answers ..
  | .rjGet .. => execRjGet_answers ..
  | .rjSet .. => execRjSet_answers ..
  | .rjClr .. => execRjClr_answers ..
  | .ldGB32 .. => execLdGB32_answers ..
  | .stGB32 .. => execStGB32_answers ..
  | .ldGB64 .. => execLdGB64_answers ..
  | .stGB64 .. => execStGB64_answers ..
  | .ldGB128 .. => execLdGB128_answers ..
  | .stGB128 .. => execStGB128_answers ..
  | .ldSB32 .. => execLdSB32_answers ..
  | .stSB32 .. => execStSB32_answers ..
  | .ld .. => execLd_answers ..
  | .st .. => execSt_answers ..
  | .ldkLow .. => execLdkLow_answers ..
  | .ldkHigh .. => execLdkHigh_answers ..
  | .ldkReg .. => execLdkReg_answers ..
  | .prefG .. => execPrefG_answers ..
  | .atom .. => execAtom_answers ..
  | .cas .. => execCas_answers ..
  | .redOp .. => execRedOp_answers ..
  | .fncIss .. => execFncIss_answers ..
  | .fncWt .. => execFncWt_answers ..
  | .ownGive .. => execOwnGive_answers ..
  | .ownTake .. => execOwnTake_answers ..
  | .ownTest .. => execOwnTest_answers ..
  | .rngWait .. => execRngWait_answers ..
  | .rngRel .. => execRngRel_answers ..
  | .mrgFree .. => execMrgFree_answers ..
  | .bbInit .. => execBbInit_answers ..
  | .bbExp .. => execBbExp_answers ..
  | .bbArv .. => execBbArv_answers ..
  | .bbWt .. => execBbWt_answers ..
  | .bop .. => execBop_answers ..
  | .halloc .. => execHalloc_answers ..
  | .hfree .. => execHfree_answers ..
  | .obRsv .. => execObRsv_answers ..
  | .obRel .. => execObRel_answers ..
  | .tcCopy .. => execTcCopy_answers ..
  | .tcOb .. => execTcOb_answers ..
  | .tcMcast .. => execTcMcast_answers ..
  | .permLoad .. => execPermLoad_answers ..
  | .mxCfg .. => execMxCfg_answers ..
  | .mxStat .. => execMxStat_answers ..
  | .mxSwap .. => execMxSwap_answers ..
  | .mxStrm .. => execMxStrm_answers ..
  | .mxDrain .. => execMxDrain_answers ..
  | .mxZero .. => execMxZero_answers ..
  | .mxWait .. => execMxWait_answers ..
  | .mxSave .. => execMxSave_answers ..
  | .mxRest .. => execMxRest_answers ..
  | .rst .. => execRst_answers ..
  | .rld .. => execRld_answers ..
  | .ratom .. => execRatom_answers ..
  | .rcopy .. => execRcopy_answers ..
  | .tokJoin .. => execTokJoin_answers ..
  | .tokTest .. => execTokTest_answers ..
  | .tokWait .. => execTokWait_answers ..
  | .collRun .. => execCollRun_answers ..
  | .collWt .. => execCollWt_answers ..
  | .reelGo .. => execReelGo_answers ..
  | .reelStat .. => execReelStat_answers ..
  | .evtSig .. => execEvtSig_answers ..
  | .evtWt .. => execEvtWt_answers ..
  | .regGrow .. => execRegGrow_answers ..
  | .regShrink .. => execRegShrink_answers ..
  | .qpush .. => execQpush_answers ..
  | .qpop .. => execQpop_answers ..
  | .spawn .. => execSpawn_answers ..
  | .tret .. => execTret_answers ..
  | .ctxPark .. => execCtxPark_answers ..
  | .sysc .. => execSysc_answers ..
  | .vmCommit .. => execVmCommit_answers ..
  | .vmFree .. => execVmFree_answers ..
  | .vmProt .. => execVmProt_answers ..
  | .vmDup .. => execVmDup_answers ..
  | .vmSplit .. => execVmSplit_answers ..
  | .tlbInv .. => execTlbInv_answers ..
  | .detRng .. => execDetRng_answers ..
  | .detFlush .. => execDetFlush_answers ..
  | .recMark .. => execRecMark_answers ..
  | .tbar .. => execTbar_answers ..
  | .tbarArv .. => execTbarArv_answers ..
  | .tbarWt .. => execTbarWt_answers ..
  | .cbar .. => execCbar_answers ..
  | .cbarArv .. => execCbarArv_answers ..
  | .cbarWt .. => execCbarWt_answers ..
  | .csrr .. => execCsrr_answers ..
  | .csrw .. => execCsrw_answers ..
  | .csrx .. => execCsrx_answers ..
  | .handlerEntry .. => execHandlerEntry_answers ..
  | .regGrant .. => execRegGrant_answers ..
  | .yieldRelease .. => execYieldRelease_answers ..
  | .pauseExpiry .. => execPauseExpiry_answers ..
  | .scoreboardWrite .. => execScoreboardWrite_answers ..
  | .queuePushDone .. => execQueuePushDone_answers ..
  | .queuePopDone .. => execQueuePopDone_answers ..
  | .ownTakeDone .. => execOwnTakeDone_answers ..
  | .ringWaitDone .. => execRingWaitDone_answers ..
  | .fencePerformed .. => execFencePerformed_answers ..
  | .accessPerform .. => execAccessPerform_answers ..
  | .pageWalkComplete .. => execPageWalkComplete_answers ..
  | .bankAluApply .. => execBankAluApply_answers ..
  | .bopComplete .. => execBopComplete_answers ..
  | .vmChangeComplete .. => execVmChangeComplete_answers ..
  | .evtWaitRecheck .. => execEvtWaitRecheck_answers ..
  | .commandAccept .. => execCommandAccept_answers ..
  | .engineUnitRead .. => execEngineUnitRead_answers ..
  | .engineUnitWrite .. => execEngineUnitWrite_answers ..
  | .ringSlotFill .. => execRingSlotFill_answers ..
  | .planeFillDone .. => execPlaneFillDone_answers ..
  | .streamResults .. => execStreamResults_answers ..
  | .drainWrite .. => execDrainWrite_answers ..
  | .mxWaitDone .. => execMxWaitDone_answers ..
  | .obRelDone .. => execObRelDone_answers ..
  | .budgetPeriodStart .. => execBudgetPeriodStart_answers ..
  | .launchDoorbell .. => execLaunchDoorbell_answers ..
  | .frontEndTake .. => execFrontEndTake_answers ..
  | .launchReady .. => execLaunchReady_answers ..
  | .launchRecheckTimer .. => execLaunchRecheckTimer_answers ..
  | .launchAging .. => execLaunchAging_answers ..
  | .callerHandover .. => execCallerHandover_answers ..
  | .corpsPlacement .. => execCorpsPlacement_answers ..
  | .troupePublish .. => execTroupePublish_answers ..
  | .graphNodeStart .. => execGraphNodeStart_answers ..
  | .graphNodeDone .. => execGraphNodeDone_answers ..
  | .deferredApply .. => execDeferredApply_answers ..
  | .drainDeadline .. => execDrainDeadline_answers ..
  | .evictionDeadline .. => execEvictionDeadline_answers ..
  | .preemptSaveImage .. => execPreemptSaveImage_answers ..
  | .troupeLeavesCore .. => execTroupeLeavesCore_answers ..
  | .restorePlacement .. => execRestorePlacement_answers ..
  | .steerReply .. => execSteerReply_answers ..
  | .eccu .. => execEccu_answers ..
  | .slotStart .. => execSlotStart_answers ..
  | .frameReceive .. => execFrameReceive_answers ..
  | .masterLoss .. => execMasterLoss_answers ..
  | .freeRunExpiry .. => execFreeRunExpiry_answers ..
  | .laneFailure .. => execLaneFailure_answers ..
  | .laneRejoin .. => execLaneRejoin_answers ..
  | .storePacket .. => execStorePacket_answers ..
  | .loadPacket .. => execLoadPacket_answers ..
  | .replyPacket .. => execReplyPacket_answers ..
  | .faultReplyPacket .. => execFaultReplyPacket_answers ..
  | .atomicPacket .. => execAtomicPacket_answers ..
  | .copySegmentPacket .. => execCopySegmentPacket_answers ..
  | .vectorStorePart .. => execVectorStorePart_answers ..
  | .vectorLoadPart .. => execVectorLoadPart_answers ..
  | .vectorAtomicPart .. => execVectorAtomicPart_answers ..
  | .landedNotice .. => execLandedNotice_answers ..
  | .releaseNotice .. => execReleaseNotice_answers ..
  | .appliedCountNotice .. => execAppliedCountNotice_answers ..
  | .forwardedCountNotice .. => execForwardedCountNotice_answers ..
  | .relayedAppliedCountNotice .. => execRelayedAppliedCountNotice_answers ..
  | .holdFreeNotice .. => execHoldFreeNotice_answers ..
  | .expiryNotice .. => execExpiryNotice_answers ..
  | .invalidateNotice .. => execInvalidateNotice_answers ..
  | .holdExpiry .. => execHoldExpiry_answers ..
  | .collEntryStart .. => execCollEntryStart_answers ..
  | .collEntryComplete .. => execCollEntryComplete_answers ..
  | .reducerFold .. => execReducerFold_answers ..
  | .reelWait .. => execReelWait_answers ..
  | .reelGather .. => execReelGather_answers ..
  | .reelRun .. => execReelRun_answers ..
  | .reelHandoff .. => execReelHandoff_answers ..
  | .bootRom .. => execBootRom_answers ..
  | .recoveryImage .. => execRecoveryImage_answers ..
  | .mrExtend .. => execMrExtend_answers ..
  | .attestationRequest .. => execAttestationRequest_answers ..
  | .featureGo .. => execFeatureGo_answers ..
  | .apertureRead .. => execApertureRead_answers ..
  | .apertureWrite .. => execApertureWrite_answers ..
  | .apertureControlWrite .. => execApertureControlWrite_answers ..
  | .correctedError .. => execCorrectedError_answers ..
  | .uncorrectableError .. => execUncorrectableError_answers ..
  | .selfTestEnd .. => execSelfTestEnd_answers ..
  | .budgetWrite .. => execBudgetWrite_answers ..
  | .pcapWrite .. => execPcapWrite_answers ..
  | .pstateWrite .. => execPstateWrite_answers ..
  | .temperatureEvent .. => execTemperatureEvent_answers ..
  | .hostCommandDoorbell .. => execHostCommandDoorbell_answers ..
  | .ctxnew .. => execCtxnew_answers ..
  | .ctxentry .. => execCtxentry_answers ..
  | .ctxstop .. => execCtxstop_answers ..
  | .ctxfree .. => execCtxfree_answers ..
  | .ctxevt .. => execCtxevt_answers ..
  | .preempt .. => execPreempt_answers ..
  | .preend .. => execPreend_answers ..
  | .resume .. => execResume_answers ..
  | .planload .. => execPlanload_answers ..
  | .reelload .. => execReelload_answers ..
  | .hndload .. => execHndload_answers ..
  | .fctlset .. => execFctlset_answers ..
  | .masters .. => execMasters_answers ..
  | .vmdup .. => execVmdup_answers ..
  | .vmsplit .. => execVmsplit_answers ..
  | .vmprot .. => execVmprot_answers ..
  | .tlbinv .. => execTlbinv_answers ..
  | .registerWrite .. => execRegisterWrite_answers ..
  | .fixedLatencyResult .. => execFixedLatencyResult_answers ..
  | .stallWaitExpiry .. => execStallWaitExpiry_answers ..
  | .powerCapReached .. => execPowerCapReached_answers ..

end Sys2Proof
end

