-- ==== Sys2Proof/Proofs/KeepsSteps.lean ====
section
/-! SUPPORT. Groups, selection, what is due and the passing of a cycle keep memory in its canonical form; so every step does. -/

namespace Sys2Proof
open Machine

theorem issue_canonical {s : State} (hs : Canonical s) (w : Nat) (path lanes : LaneMask) (gpc npc : W64) (stall : Nat) :
    Canonical (State.issue s w path lanes gpc npc stall) :=
  walked_canonical (Canonical.rest (modWave_canonical hs ..)) ..
theorem Answers.eq {s t : State} {o : Out} (h : Answers s o) (ht : o = .next t) : Canonical s → Canonical t := by
  obtain ⟨_, rfl, hu⟩ := h
  cases ht
  exact hu
theorem Answers.trans {s t : State} {o : Out} (h : Canonical s → Canonical t) (ho : Answers t o) : Answers s o := by
  obtain ⟨u, hu, hc⟩ := ho
  exact ⟨u, hu, fun hs => hc (h hs)⟩
theorem member_answers (s : State) (m : Member) (n : Nat) (lanes : LaneMask) (past : Bool) : Answers s (s.member m n lanes past) :=
  Answers.trans (fun hs => hs.rest) (exec_answers _ _)
theorem setCur_canonical {s : State} (hs : Canonical s) (c : Cur) :
    Canonical (State.setCur s c) :=
  hs.rest
theorem actAll_answers (s : State) (go : LaneMask) (past : Instr → Bool) (l : List (Nat × Member)) : Answers s (s.actAll go past l) := by
  induction l generalizing s with
  | nil => exact Answers.next id
  | cons x rest ih =>
    obtain ⟨n, m⟩ := x
    obtain ⟨t, ht, hc⟩ := member_answers s m n go (past m.instr)
    unfold State.actAll
    rw [ht]
    refine Answers.trans (fun hs => ?_) (ih _)
    exact canonical_ite (hc hs) (Canonical.rest (modWave_canonical (hc hs) ..))
theorem runGroup_answers (s : State) (ms : List Member) (past : Instr → Bool) : Answers s (s.runGroup ms past) := by
  unfold State.runGroup
  extract_lets +onlyGivenNames w order
  split
  next x _ =>
    obtain ⟨t, ht, hc⟩ := member_answers s x.2 x.1 s.cur.path (past x.2.instr)
    rw [ht]
    exact Answers.next fun hs => Canonical.rest (hc hs)
  · extract_lets +onlyGivenNames byMember found
    obtain ⟨t, ht, hc⟩ := actAll_answers s (s.cur.path &&& ~~~ stopMask found) past order
    rw [ht]
    exact Answers.next fun hs => canonical_ite (settle_canonical (raise_canonical (Canonical.rest (hc hs)) _) _) (raise_canonical (Canonical.rest (hc hs)) _)
theorem act_answers (s : State) (ms : List Member) (past : Instr → Bool) : Answers s (s.act ms past) := by
  unfold State.act
  split
  · exact exec_answers ..
  · exact runGroup_answers ..
theorem issuePath_answers (s : State) (w : Nat) (p : Path) : Answers s (s.issuePath w p) := by
  unfold State.issuePath
  split
  · exact Answers.next fun hs => hs.rest
  · exact Answers.next fun hs => eccTroupe_canonical hs ..
  · exact Answers.next fun hs => raise_canonical (modWave_canonical hs ..) _
  next ms npc _ =>
  extract_lets +onlyGivenNames gpc early go s1 s2
  have h2 : Canonical s → Canonical s2 := fun hs => raise_canonical (issue_canonical hs ..) _
  split
  · exact Answers.next h2
  · exact Answers.trans h2 (act_answers ..)
theorem dueResult_canonical {s : State} (hs : Canonical s) :
    EachCanonical (State.dueResult s) := by
  unfold State.dueResult
  refine eachCanonical_findSome ?_ ..
  intro _
  split
  · exact did_canonical hs (execFixedLatencyResult_answers ..)
  · refine eachCanonical_findSome ?_ ..
    intro _
    split
    · exact did_canonical hs (execScoreboardWrite_answers ..)
    · exact eachCanonical_none
theorem dueAccess_canonical {s : State} (hs : Canonical s) :
    EachCanonical (State.dueAccess s) := by
  unfold State.dueAccess
  exact eachCanonical_firstOf_cons (EachCanonical.bind (fun _ => did_canonical hs (execAccessPerform_answers ..)) ..) (eachCanonical_firstOf_cons (eachCanonical_findSome (fun _ => EachCanonical.bind (fun _ => did_canonical hs (execBankAluApply_answers ..)) ..) ..) (eachCanonical_firstOf_cons (eachCanonical_findSome (fun _ => eachCanonical_findSome (fun _ => did_canonical hs (execBopComplete_answers ..)) ..) ..) (eachCanonical_firstOf_cons (eachCanonical_findSome (fun _ => eachCanonical_findSome (fun _ => did_canonical hs (execVmChangeComplete_answers ..)) ..) ..) eachCanonical_firstOf_nil)))
theorem dueFence_canonical {s : State} (hs : Canonical s) :
    EachCanonical (State.dueFence s) := by
  unfold State.dueFence
  refine eachCanonical_findSome ?_ ..
  intro _
  split
  · exact did_canonical hs (execFencePerformed_answers ..)
  · dsimp only
    split
    · exact eachCanonical_some (clearHolds_canonical hs ..)
    · exact eachCanonical_none
theorem fetchMiss_canonical {s : State} (hs : Canonical s) (w : Nat) (v : Wave) :
    EachCanonical (State.fetchMiss s w v) := by
  unfold State.fetchMiss
  split
  · exact eachCanonical_none
  · refine eachCanonical_findSome ?_ ..
    intro _
    dsimp only
    split
    · exact eachCanonical_some hs.rest
    · exact eachCanonical_none
theorem dueWalk_canonical {s : State} (hs : Canonical s) :
    EachCanonical (State.dueWalk s) := by
  unfold State.dueWalk
  refine eachCanonical_firstOf_cons ?_ (eachCanonical_firstOf_cons (startWalk_canonical hs) (eachCanonical_firstOf_cons (eachCanonical_findSome (fun _ => fetchMiss_canonical hs ..) ..) eachCanonical_firstOf_nil))
  refine EachCanonical.bind ?_ ..
  intro _
  split
  · exact did_canonical hs (execPageWalkComplete_answers ..)
  · exact eachCanonical_none
theorem dueEngine_canonical {s : State} (hs : Canonical s) :
    EachCanonical (State.dueEngine s) := by
  unfold State.dueEngine
  refine eachCanonical_findSome ?_ ..
  intro _
  refine eachCanonical_findSome ?_ ..
  intro _
  refine eachCanonical_firstOf_cons ?_ ?_
  · split
    · exact did_canonical hs (execEngineUnitWrite_answers ..)
    · exact eachCanonical_none
  · refine eachCanonical_firstOf_cons ?_ ?_
    · split
      · exact did_canonical hs (execRingSlotFill_answers ..)
      · exact eachCanonical_none
    · refine eachCanonical_firstOf_cons ?_ eachCanonical_firstOf_nil
      split
      · exact did_canonical hs (execEngineUnitRead_answers ..)
      · exact eachCanonical_none
theorem dueArray_canonical {s : State} (hs : Canonical s) :
    EachCanonical (State.dueArray s) := by
  unfold State.dueArray
  refine eachCanonical_findSome ?_ ..
  intro _
  split
  · exact eachCanonical_firstOf_cons (did_canonical hs (execPlaneFillDone_answers ..)) (eachCanonical_firstOf_cons (did_canonical hs (execStreamResults_answers ..)) (eachCanonical_firstOf_cons (did_canonical hs (execDrainWrite_answers ..)) eachCanonical_firstOf_nil))
  · exact eachCanonical_none
theorem dueColl_canonical {s : State} (hs : Canonical s) :
    EachCanonical (State.dueColl s) := by
  unfold State.dueColl
  exact eachCanonical_findSome (fun _ => eachCanonical_firstOf_cons (eachCanonical_findSome (fun _ => did_canonical hs (execReducerFold_answers ..)) ..) (eachCanonical_firstOf_cons (eachCanonical_findSome (fun _ => eachCanonical_findSome (fun _ => eachCanonical_firstOf_cons (did_canonical hs (execCollEntryComplete_answers ..)) (eachCanonical_firstOf_cons (did_canonical hs (execCollEntryStart_answers ..)) eachCanonical_firstOf_nil)) ..) ..) eachCanonical_firstOf_nil)) ..
theorem packetExec_answers (s : State) (kd : PKind) (k : Nat) :
    Answers s (packetExec kd k s) := by
  unfold packetExec
  split
  · exact execStorePacket_answers ..
  · exact execLoadPacket_answers ..
  · exact execReplyPacket_answers ..
  · exact execAtomicPacket_answers ..
  · exact execCopySegmentPacket_answers ..
  · exact execVectorStorePart_answers ..
  · exact execVectorLoadPart_answers ..
  · exact execFaultReplyPacket_answers ..
  · exact execVectorAtomicPart_answers ..
theorem noticeExec_answers (s : State) (kd : NKind) (k : Nat) :
    Answers s (noticeExec kd k s) := by
  unfold noticeExec
  split
  · exact execLandedNotice_answers ..
  · exact execReleaseNotice_answers ..
  · exact execAppliedCountNotice_answers ..
  · exact execForwardedCountNotice_answers ..
  · exact execHoldFreeNotice_answers ..
  · exact execExpiryNotice_answers ..
  · exact execInvalidateNotice_answers ..
  · exact execRelayedAppliedCountNotice_answers ..
theorem dueFabric_canonical {s : State} (hs : Canonical s) :
    EachCanonical (State.dueFabric s) := by
  unfold State.dueFabric
  refine eachCanonical_firstOf_cons (EachCanonical.bind (fun _ => did_canonical hs (execFrameReceive_answers ..)) ..) ?_
  refine eachCanonical_firstOf_cons ?_ eachCanonical_firstOf_nil
  refine eachCanonical_findSome ?_ ..
  intro _
  refine eachCanonical_firstOf_cons (EachCanonical.bind (fun _ => did_canonical hs (noticeExec_answers ..)) ..) ?_
  refine eachCanonical_firstOf_cons (EachCanonical.bind (fun _ => did_canonical hs (packetExec_answers ..)) ..) ?_
  refine eachCanonical_firstOf_cons (EachCanonical.bind (fun _ => did_canonical hs (packetExec_answers ..)) ..) ?_
  refine eachCanonical_firstOf_cons (eachCanonical_findSome (fun _ => did_canonical hs (execHoldExpiry_answers ..)) ..) ?_
  refine eachCanonical_firstOf_cons ?_ ?_
  · split
    · exact eachCanonical_none
    · exact did_canonical hs (execMasterLoss_answers ..)
  · refine eachCanonical_firstOf_cons ?_ eachCanonical_firstOf_nil
    split
    · exact eachCanonical_none
    · exact did_canonical hs (execFreeRunExpiry_answers ..)
theorem dueStop_canonical {s : State} (hs : Canonical s) :
    EachCanonical (State.dueStop s) := by
  unfold State.dueStop
  refine eachCanonical_firstOf_cons ?_ ?_
  · refine eachCanonical_findSome ?_ ..
    intro _
    split
    · split
      · exact did_canonical hs (execPreemptSaveImage_answers ..)
      · exact did_canonical hs (execHandlerEntry_answers ..)
    · exact eachCanonical_none
  · refine eachCanonical_firstOf_cons ?_ eachCanonical_firstOf_nil
    refine eachCanonical_findSome ?_ ..
    intro _
    split
    · exact did_canonical hs (execTroupeLeavesCore_answers ..)
    · split
      · exact did_canonical hs (execTroupePublish_answers ..)
      · exact eachCanonical_none
theorem dueGrant_canonical {s : State} (hs : Canonical s) :
    EachCanonical (State.dueGrant s) := by
  unfold State.dueGrant
  refine eachCanonical_findSome ?_ ..
  intro _
  refine eachCanonical_findSome ?_ ..
  intro _
  split
  · exact eachCanonical_none
  · exact did_canonical hs (execRegGrant_answers ..)
theorem dueYield_canonical {s : State} (hs : Canonical s) :
    EachCanonical (State.dueYield s) := by
  unfold State.dueYield
  refine eachCanonical_findSome ?_ ..
  intro _
  split
  · split
    · exact did_canonical hs (execYieldRelease_answers ..)
    · exact eachCanonical_none
  · exact eachCanonical_none
theorem dueLaunch_canonical {s : State} (hs : Canonical s) (k : Nat) (n : Nat) (x : Launch) :
    EachCanonical (State.dueLaunch s k n x) := by
  unfold State.dueLaunch
  refine eachCanonical_firstOf_cons ?_ ?_
  · split
    · exact did_canonical hs (execLaunchReady_answers ..)
    · exact eachCanonical_none
  · refine eachCanonical_firstOf_cons ?_ ?_
    · split
      · exact did_canonical hs (execLaunchAging_answers ..)
      · exact eachCanonical_none
    · refine eachCanonical_firstOf_cons ?_ ?_
      · split
        · exact eachCanonical_none
        · exact did_canonical hs (execDeferredApply_answers ..)
      · refine eachCanonical_firstOf_cons ?_ ?_
        · split
          · refine eachCanonical_findSome ?_ ..
            intro _
            split
            · exact did_canonical hs (execGraphNodeStart_answers ..)
            · split
              · exact did_canonical hs (execGraphNodeDone_answers ..)
              · exact eachCanonical_none
          · exact eachCanonical_none
        · refine eachCanonical_firstOf_cons ?_ eachCanonical_firstOf_nil
          split
          · split
            · exact did_canonical hs (execCorpsPlacement_answers ..)
            · exact did_canonical hs (execRestorePlacement_answers ..)
          · exact eachCanonical_none
theorem nextCmd_answers {p : Pkg} {k : Nat} {f : State → Out} (h : p.nextCmd k = some f) (s : State) : Answers s (f s) := by
  unfold Pkg.nextCmd at h
  split at h
  · cases h
  dsimp only at h
  split at h <;> cases h
  · exact execCtxnew_answers ..
  · exact execCtxentry_answers ..
  · exact execCtxstop_answers ..
  · exact execCtxfree_answers ..
  · exact execCtxevt_answers ..
  · exact execPreempt_answers ..
  · exact execPreend_answers ..
  · exact execResume_answers ..
  · exact execPlanload_answers ..
  · exact execReelload_answers ..
  · exact execHndload_answers ..
  · exact execFctlset_answers ..
  · exact execMasters_answers ..
  · exact execVmdup_answers ..
  · exact execVmsplit_answers ..
  · exact execVmprot_answers ..
  · exact execTlbinv_answers ..
theorem dueCmd_canonical {s : State} (hs : Canonical s) (p : Pkg) (k : Nat) : EachCanonical ((p.nextCmd k).bind (fun f => did s (f s))) := by
  cases h : p.nextCmd k with
  | none => exact eachCanonical_none
  | some f => exact did_canonical hs (nextCmd_answers h s)
theorem dueSched_canonical {s : State} (hs : Canonical s) : EachCanonical s.dueSched := by
  refine eachCanonical_findSome (fun e => ?_) _
  refine eachCanonical_firstOf_cons (eachCanonical_findSome (fun r => ?_) _) ?_
  · refine eachCanonical_firstOf_cons ?_ (eachCanonical_firstOf_cons ?_ eachCanonical_firstOf_nil)
    · exact eachCanonical_ite (did_canonical hs (execDrainDeadline_answers ..)) eachCanonical_none
    · exact eachCanonical_ite (did_canonical hs (execEvictionDeadline_answers ..)) eachCanonical_none
  refine eachCanonical_firstOf_cons (eachCanonical_findSome (fun x => dueLaunch_canonical hs ..) _) ?_
  refine eachCanonical_firstOf_cons (eachCanonical_ite (did_canonical hs (execCallerHandover_answers ..)) eachCanonical_none) ?_
  refine eachCanonical_firstOf_cons (EachCanonical.bind (fun q => did_canonical hs (execFrontEndTake_answers ..)) _) ?_
  refine eachCanonical_firstOf_cons ?_ (eachCanonical_firstOf_cons (dueCmd_canonical hs ..) eachCanonical_firstOf_nil)
  split
  · exact eachCanonical_none
  · exact did_canonical hs (execReelWait_answers ..)
  · exact did_canonical hs (execReelGather_answers ..)
  · exact did_canonical hs (execReelRun_answers ..)
  · exact did_canonical hs (execReelHandoff_answers ..)
theorem newMisses_canonical {s : State} (hs : Canonical s) (u : State) : EachCanonical (s.newMisses u) := by
  unfold State.newMisses
  split
  · exact eachCanonical_none
  · exact eachCanonical_some hs.rest
theorem takeUp_canonical {s : State} (hs : Canonical s) (w : Nat) (r : WaitRec) : EachCanonical (s.takeUp w r) := by
  unfold State.takeUp
  extract_lets +onlyGivenNames t
  have ht : Canonical t := resumeCur_canonical hs ..
  split
  · exact eachCanonical_none
  split
  · split
    next u hu =>
      split
      · exact newMisses_canonical hs u
      · exact eachCanonical_some ((exec_answers _ _).eq hu ht)
    · exact eachCanonical_none
  · split
    · extract_lets +onlyGivenNames gpc
      split
      next u hu =>
        split
        · exact newMisses_canonical hs u
        · exact eachCanonical_some ((runGroup_answers _ _ _).eq hu ht.rest)
      · exact eachCanonical_none
    · exact eachCanonical_none
theorem dueWait_canonical {s : State} (hs : Canonical s) :
    EachCanonical (State.dueWait s) := by
  unfold State.dueWait
  refine eachCanonical_findSome ?_ ..
  intro _
  split
  · exact eachCanonical_none
  · exact eachCanonical_findSome (fun _ => takeUp_canonical hs ..) ..
theorem due_canonical {s : State} (hs : Canonical s) :
    EachCanonical (State.due s) := by
  unfold State.due
  exact eachCanonical_firstOf_cons (dueResult_canonical hs) (eachCanonical_firstOf_cons (dueAccess_canonical hs) (eachCanonical_firstOf_cons (dueFence_canonical hs) (eachCanonical_firstOf_cons (dueWalk_canonical hs) (eachCanonical_firstOf_cons (dueFabric_canonical hs) (eachCanonical_firstOf_cons (dueEngine_canonical hs) (eachCanonical_firstOf_cons (dueArray_canonical hs) (eachCanonical_firstOf_cons (dueColl_canonical hs) (eachCanonical_firstOf_cons (dueStop_canonical hs) (eachCanonical_firstOf_cons (dueGrant_canonical hs) (eachCanonical_firstOf_cons (dueYield_canonical hs) (eachCanonical_firstOf_cons (dueWait_canonical hs) (eachCanonical_firstOf_cons (dueSched_canonical hs) eachCanonical_firstOf_nil))))))))))))
theorem selected_canonical {s : State} (hs : Canonical s) (w : Nat) (ready : List (Path × Group)) :
    Canonical (State.selected s w ready) :=
  modWave_canonical hs.rest ..
theorem takeNoted_canonical {s : State} (hs : Canonical s) (w : Nat) :
    Canonical (State.takeNoted s w) := by
  unfold State.takeNoted
  dsimp only
  split
  · exact hs.rest
  · exact takeStop_canonical hs.rest ..
theorem issueAll_answers (s : State) (w : Nat) (l : List (Path × Group)) : Answers s (s.issueAll w l) := by
  induction l generalizing s with
  | nil => exact Answers.next id
  | cons r rest ih =>
    unfold State.issueAll
    split
    · exact ih s
    · obtain ⟨t, ht, hc⟩ := issuePath_answers s w r.1
      rw [ht]
      exact Answers.trans hc (ih t)
theorem issueWave_answers (s : State) (w : Nat) (rs : List (Path × Group)) : Answers s (s.issueWave w rs) := by
  unfold State.issueWave
  obtain ⟨t, ht, hc⟩ := issueAll_answers { s with cur := { Cur.init with wid := w, defer := true } } w rs
  rw [ht]
  exact Answers.next fun hs => takeNoted_canonical (hc hs.rest) w
theorem markFuse_canonical {s : State} (hs : Canonical s) (w : Nat) (ws : List Nat) :
    Canonical (State.markFuse s w ws) :=
  hs.rest
theorem issueEach_answers (s : State) (l : List Chosen) : Answers s (s.issueEach l) := by
  induction l generalizing s with
  | nil => exact Answers.next id
  | cons c rest ih =>
    unfold State.issueEach
    obtain ⟨t, ht, hc⟩ := issueWave_answers s c.wid [c.first]
    rw [ht]
    exact Answers.trans hc (ih t)
theorem issueSel_answers (s : State) (w : Nat) (ready : List (Path × Group)) : Answers s (s.issueSel w ready) := by
  unfold State.issueSel
  split
  · exact Answers.next id
  split
  · exact Answers.trans (fun hs => selected_canonical hs ..) (issueWave_answers ..)
  · exact Answers.trans (fun hs => foldl_canonical (fun _ _ h => selected_canonical h ..) _ (markFuse_canonical hs ..)) (issueEach_answers ..)
theorem passEmpty_canonical {s : State} (hs : Canonical s) (w : Nat) (ready : List (Path × Group)) : EachCanonical (s.passEmpty w ready) := by
  unfold State.passEmpty
  split
  · exact eachCanonical_none
  split
  next h => exact eachCanonical_some ((issuePath_answers ..).eq h hs)
  · exact eachCanonical_none
theorem pass_wf {p : Pkg} (hp : Memory.wf p.host.hostMem) (cycle : Nat) :
    Memory.wf (Pkg.pass p cycle).host.hostMem :=
  hp
theorem atEach_canonical {s : State} (hs : Canonical s) (len off : Nat) (f : Nat → State → Out) (hf : ∀ k s, Answers s (f k s)) (old : State) (k : Nat) :
    Canonical (atEach len off f old s k) := by
  unfold atEach
  split
  · exact hs
  split
  next h => exact (hf k s).eq h hs
  · exact hs
theorem tick_canonical {s : State} (hs : Canonical s) : Canonical s.tick := by
  refine foldl_canonical (fun _ _ h => atEach_canonical h _ _ _ (fun _ _ => execBudgetPeriodStart_answers ..) _ _) _ ?_
  refine foldl_canonical (fun _ _ h => moreFrames_canonical (atEach_canonical h _ _ _ (fun _ _ => execSlotStart_answers ..) _ _) _) _ ?_
  have h := canonical_fall hs (f := fun _ p => p.pass s.cycle) fun _ _ hp => hp
  exact h.of_eq rfl rfl
theorem run_answers (s : State) :
    Answers s (State.run s) := by
  unfold State.run
  split
  · exact Answers.next (fun h1 => (due_canonical h1).get _ ‹_›)
  · split
    · split
      · exact Answers.next (fun h1 => (passEmpty_canonical h1 ..).get _ ‹_›)
      · exact issueSel_answers ..
    · exact Answers.next (fun h1 => tick_canonical h1)

/-- Every step answers a next state, which is canonical where the state was. -/
theorem step_answers (s : State) : Answers s (step s) := by
  unfold step
  split
  · exact Answers.trans (fun hs => hs.rest) (exec_answers _ _)
  · exact run_answers s

/-- Settles O59: each function that a step calls keeps memory in its canonical form, one lemma for each. -/
theorem stepKeepsMemory : Obligations.StepKeepsMemory :=
  fun s _ hs h => (step_answers s).eq h hs

/-- Settles O60: the same lemmas say that every instruction and every event answers a next state. -/
theorem everyStepGoesOn : Obligations.EveryStepGoesOn :=
  ⟨fun i s => (exec_answers s i).imp fun _ h => h.1, fun s => (step_answers s).imp fun _ h => h.1⟩

end Sys2Proof
end

