-- ==== Sys2Proof/Proofs/EncodedNames.lean ====
section
/-! SUPPORT. The operand fields of each well-formed instruction name it in the decoder's tables (R93 to R103). -/

namespace Sys2Proof

/-- The fields name the instruction, under its option, literal, stall and chain fields. -/
def NamedBy (i : Instr) (x : Nat × Reg × Reg × Reg) : Prop :=
  ∀ k c s m, i.mods = some m → nameBase m ⟨k, c, s, BitVec.ofNat 6 x.1, x.2.1, x.2.2.1, x.2.2.2⟩ = some (i, true)

theorem namedBy_shi (m : Mods) (o : ShOp) (n : BitVec 5) (d a : Reg) : NamedBy (.shi m o n d a) (19, d, a, BitVec.ofNat 2 o.code ++ n) := by
  rintro _ _ _ _ ⟨⟩
  have hn := n.isLt
  have hb : (BitVec.ofNat 2 o.code ++ n).toNat = 32 * o.code + n.toNat := by
    rw [BitVec.toNat_append, ← Nat.shiftLeft_add_eq_or_of_lt hn, Nat.shiftLeft_eq]
    cases o <;> simp [ShOp.code]
  have hs : shOpOf ((BitVec.ofNat 2 o.code ++ n).toNat / 32) = o := by
    rw [hb, show (32 * o.code + n.toNat) / 32 = o.code by omega]
    cases o <;> rfl
  have hl : BitVec.ofNat 5 (BitVec.ofNat 2 o.code ++ n).toNat = n := BitVec.eq_of_toNat_eq (by rw [hb, BitVec.toNat_ofNat]; omega)
  show some (Instr.shi m (shOpOf _) (BitVec.ofNat 5 _) d a, true) = _
  rw [hs, hl]
theorem namedBy_pset (m : Mods) (d : Reg) (v : Bool) : NamedBy (.pset m d v) (24, d, BitVec.ofNat 7 v.toNat, 0x01#7) := by
  rintro _ _ _ _ ⟨⟩
  show some (Instr.pset m d ((BitVec.ofNat 7 v.toNat).getLsbD 0), decide ((BitVec.ofNat 7 v.toNat).toNat < 2)) = _
  cases v <;> rfl
theorem namedBy_p2g (m : Mods) (d : Reg) (n : BitVec 2) : NamedBy (.p2g m d n) (24, d, n.setWidth 7, 0x02#7) := by
  rintro _ _ _ _ ⟨⟩
  have := n.isLt
  show some (Instr.p2g m d ((n.setWidth 7).setWidth 2), decide ((n.setWidth 7).toNat < 4)) = _
  simp
  omega
theorem namedBy_g2p (m : Mods) (n : BitVec 2) (a : Reg) : NamedBy (.g2p m n a) (24, n.setWidth 7, a, 0x03#7) := by
  rintro _ _ _ _ ⟨⟩
  have := n.isLt
  show some (Instr.g2p m ((n.setWidth 7).setWidth 2) a, decide ((n.setWidth 7).toNat < 4)) = _
  simp
  omega
theorem fqW_append (w : Bool) (p : BitVec 6) : (BitVec.ofBool w ++ p).getLsbD 6 = w := by
  rw [BitVec.getLsbD_append]
  cases w <;> rfl
theorem imm14_extract (i : BitVec 14) : i.extractLsb' 7 7 ++ i.extractLsb' 0 7 = i := by
  refine BitVec.eq_of_getLsbD_eq fun j hj => ?_
  simp only [BitVec.getLsbD_append, BitVec.getLsbD_extractLsb']
  interval_cases j <;> rfl
theorem namedBy_movi (m : Mods) (d : Reg) (i : BitVec 14) (hl : m.lit = none) : NamedBy (.movi m d i) (20, d, i.extractLsb' 0 7, i.extractLsb' 7 7) := by
  rintro _ _ _ _ ⟨⟩
  show (if m.lit.isSome then yes (.movl m d (i.extractLsb' 7 7 ++ i.extractLsb' 0 7)) else yes (.movi m d (i.extractLsb' 7 7 ++ i.extractLsb' 0 7))) = _
  rw [hl, imm14_extract]
  rfl
theorem namedBy_movl (m : Mods) (d : Reg) (i : BitVec 14) (hl : m.lit.isSome = true) : NamedBy (.movl m d i) (20, d, i.extractLsb' 0 7, i.extractLsb' 7 7) := by
  rintro _ _ _ _ ⟨⟩
  show (if m.lit.isSome then yes (.movl m d (i.extractLsb' 7 7 ++ i.extractLsb' 0 7)) else yes (.movi m d (i.extractLsb' 7 7 ++ i.extractLsb' 0 7))) = _
  rw [hl, imm14_extract]
  rfl
theorem namedBy_movh (m : Mods) (d : Reg) (i : BitVec 14) : NamedBy (.movh m d i) (21, d, i.extractLsb' 0 7, i.extractLsb' 7 7) := by
  rintro _ _ _ _ ⟨⟩
  show some (Instr.movh m d (i.extractLsb' 7 7 ++ i.extractLsb' 0 7), true) = _
  rw [imm14_extract]
/-- The literal form of `movi` is the row MOVL. -/
theorem lit_of_movi_wf {m : Mods} {d : Reg} {i : BitVec 14} (h : (Instr.movi m d i).wf = true) : m.lit = none := by
  have hp : pfxOk (Instr.movi m d i).acc m = true := (Bool.and_eq_true_iff.1 (Bool.and_eq_true_iff.1 h).2).1
  have hl := (Bool.and_eq_true_iff.1 hp).2
  cases hm : m.lit with
  | none => rfl
  | some l =>
    rw [hm] at hl
    cases hl
theorem lit_of_movl_wf {m : Mods} {d : Reg} {i : BitVec 14} (h : (Instr.movl m d i).wf = true) : m.lit.isSome = true := by
  have hp : pfxOk (Instr.movl m d i).acc m = true := (Bool.and_eq_true_iff.1 (Bool.and_eq_true_iff.1 h).2).1
  have hl := (Bool.and_eq_true_iff.1 hp).2
  cases hm : m.lit with
  | some l => rfl
  | none =>
    rw [hm] at hl
    cases hl
theorem namedBy_icmpEq (m : Mods) (w : Bool) (p : BitVec 6) (a b : Reg) : NamedBy (.icmpEq m w p a b) (25, BitVec.ofBool w ++ p, a, b) := by
  rintro _ _ _ _ ⟨⟩
  show some (Instr.icmpEq m ((BitVec.ofBool w ++ p).getLsbD 6) ((BitVec.ofBool w ++ p).setWidth 6) a b, true) = _
  rw [fqW_append, BitVec.setWidth_append_eq_right]
theorem namedBy_icmpNe (m : Mods) (w : Bool) (p : BitVec 6) (a b : Reg) : NamedBy (.icmpNe m w p a b) (26, BitVec.ofBool w ++ p, a, b) := by
  rintro _ _ _ _ ⟨⟩
  show some (Instr.icmpNe m ((BitVec.ofBool w ++ p).getLsbD 6) ((BitVec.ofBool w ++ p).setWidth 6) a b, true) = _
  rw [fqW_append, BitVec.setWidth_append_eq_right]
theorem namedBy_icmpLtS (m : Mods) (w : Bool) (p : BitVec 6) (a b : Reg) : NamedBy (.icmpLtS m w p a b) (27, BitVec.ofBool w ++ p, a, b) := by
  rintro _ _ _ _ ⟨⟩
  show some (Instr.icmpLtS m ((BitVec.ofBool w ++ p).getLsbD 6) ((BitVec.ofBool w ++ p).setWidth 6) a b, true) = _
  rw [fqW_append, BitVec.setWidth_append_eq_right]
theorem namedBy_icmpLtZ (m : Mods) (w : Bool) (p : BitVec 6) (a b : Reg) : NamedBy (.icmpLtZ m w p a b) (28, BitVec.ofBool w ++ p, a, b) := by
  rintro _ _ _ _ ⟨⟩
  show some (Instr.icmpLtZ m ((BitVec.ofBool w ++ p).getLsbD 6) ((BitVec.ofBool w ++ p).setWidth 6) a b, true) = _
  rw [fqW_append, BitVec.setWidth_append_eq_right]
theorem namedBy_fcmpEq (m : Mods) (w : Bool) (p : BitVec 6) (a b : Reg) : NamedBy (.fcmpEq m w p a b) (36, BitVec.ofBool w ++ p, a, b) := by
  rintro _ _ _ _ ⟨⟩
  show some (Instr.fcmpEq m ((BitVec.ofBool w ++ p).getLsbD 6) ((BitVec.ofBool w ++ p).setWidth 6) a b, true) = _
  rw [fqW_append, BitVec.setWidth_append_eq_right]
theorem namedBy_fcmpLt (m : Mods) (w : Bool) (p : BitVec 6) (a b : Reg) : NamedBy (.fcmpLt m w p a b) (37, BitVec.ofBool w ++ p, a, b) := by
  rintro _ _ _ _ ⟨⟩
  show some (Instr.fcmpLt m ((BitVec.ofBool w ++ p).getLsbD 6) ((BitVec.ofBool w ++ p).setWidth 6) a b, true) = _
  rw [fqW_append, BitVec.setWidth_append_eq_right]
theorem namedBy_fcmpLe (m : Mods) (w : Bool) (p : BitVec 6) (a b : Reg) : NamedBy (.fcmpLe m w p a b) (38, BitVec.ofBool w ++ p, a, b) := by
  rintro _ _ _ _ ⟨⟩
  show some (Instr.fcmpLe m ((BitVec.ofBool w ++ p).getLsbD 6) ((BitVec.ofBool w ++ p).setWidth 6) a b, true) = _
  rw [fqW_append, BitVec.setWidth_append_eq_right]
theorem namedBy_fcmpUn (m : Mods) (w : Bool) (p : BitVec 6) (a b : Reg) : NamedBy (.fcmpUn m w p a b) (39, BitVec.ofBool w ++ p, a, b) := by
  rintro _ _ _ _ ⟨⟩
  show some (Instr.fcmpUn m ((BitVec.ofBool w ++ p).getLsbD 6) ((BitVec.ofBool w ++ p).setWidth 6) a b, true) = _
  rw [fqW_append, BitVec.setWidth_append_eq_right]
theorem code_csr (k : BitVec 2) (r : BitVec 12) : (k ++ r.extractLsb' 7 5).toNat / 32 = k.toNat := by
  have := (r.extractLsb' 7 5).isLt
  rw [BitVec.toNat_append, ← Nat.shiftLeft_add_eq_or_of_lt this, Nat.shiftLeft_eq]
  omega
theorem csr_extract (k : BitVec 2) (r : BitVec 12) : (k ++ r.extractLsb' 7 5).setWidth 5 ++ r.extractLsb' 0 7 = r := by
  rw [BitVec.setWidth_append_eq_right]
  refine BitVec.eq_of_getLsbD_eq fun j hj => ?_
  simp only [BitVec.getLsbD_append, BitVec.getLsbD_extractLsb']
  interval_cases j <;> rfl
theorem namedBy_csrr (m : Mods) (r : BitVec 12) (d : Reg) : NamedBy (.csrr m r d) (62, d, r.extractLsb' 0 7, 0#2 ++ r.extractLsb' 7 5) := by
  rintro _ _ _ _ ⟨⟩
  show decCsr m _ = _
  simp only [decCsr, Fields.csr, code_csr, csr_extract]
  rfl
theorem namedBy_csrw (m : Mods) (r : BitVec 12) (d : Reg) : NamedBy (.csrw m r d) (62, d, r.extractLsb' 0 7, 1#2 ++ r.extractLsb' 7 5) := by
  rintro _ _ _ _ ⟨⟩
  show decCsr m _ = _
  simp only [decCsr, Fields.csr, code_csr, csr_extract]
  rfl
theorem namedBy_csrx (m : Mods) (r : BitVec 12) (d : Reg) : NamedBy (.csrx m r d) (62, d, r.extractLsb' 0 7, 2#2 ++ r.extractLsb' 7 5) := by
  rintro _ _ _ _ ⟨⟩
  show decCsr m _ = _
  simp only [decCsr, Fields.csr, code_csr, csr_extract]
  rfl
theorem off13_extract (o : BitVec 13) (n : Bool) : o.extractLsb' 6 7 ++ (o.extractLsb' 0 6 ++ BitVec.ofBool n).extractLsb' 1 6 = o := by
  refine BitVec.eq_of_getLsbD_eq fun j hj => ?_
  simp only [BitVec.getLsbD_append, BitVec.getLsbD_extractLsb']
  interval_cases j <;> rfl
theorem fnegB_append (o : BitVec 13) (n : Bool) : (o.extractLsb' 0 6 ++ BitVec.ofBool n).getLsbD 0 = n := by
  rw [BitVec.getLsbD_append, BitVec.getLsbD_ofBool]
  rfl
theorem namedBy_bra (m : Mods) (o : BitVec 13) (n : Bool) (p : Reg) : NamedBy (.bra m o n p) (47, p, o.extractLsb' 0 6 ++ BitVec.ofBool n, o.extractLsb' 6 7) := by
  rintro _ _ _ _ ⟨⟩
  show some (Instr.bra m (o.extractLsb' 6 7 ++ (o.extractLsb' 0 6 ++ BitVec.ofBool n).extractLsb' 1 6) ((o.extractLsb' 0 6 ++ BitVec.ofBool n).getLsbD 0) p, true) = _
  rw [off13_extract, fnegB_append]
theorem namedBy_call (m : Mods) (o : BitVec 13) (n : Bool) (p : Reg) : NamedBy (.call m o n p) (48, p, o.extractLsb' 0 6 ++ BitVec.ofBool n, o.extractLsb' 6 7) := by
  rintro _ _ _ _ ⟨⟩
  show some (Instr.call m (o.extractLsb' 6 7 ++ (o.extractLsb' 0 6 ++ BitVec.ofBool n).extractLsb' 1 6) ((o.extractLsb' 0 6 ++ BitVec.ofBool n).getLsbD 0) p, true) = _
  rw [off13_extract, fnegB_append]
theorem setWidth_rj (n : BitVec 4) : (n.setWidth 7).setWidth 4 = n ∧ (n.setWidth 7).toNat < 16 := by
  have := n.isLt
  refine ⟨BitVec.eq_of_toNat_eq (by simp), ?_⟩
  simp
  omega
theorem namedBy_rjEnter (m : Mods) (n : BitVec 4) : NamedBy (.rjEnter m n) (49, 0#7, n.setWidth 7, 0x10#7) := by
  rintro _ _ _ _ ⟨⟩
  show some (Instr.rjEnter m ((n.setWidth 7).setWidth 4), (0#7 == 0) && decide ((n.setWidth 7).toNat < 16)) = _
  rw [(setWidth_rj n).1, decide_eq_true (setWidth_rj n).2]
  rfl
theorem namedBy_rjQuit (m : Mods) (n : BitVec 4) : NamedBy (.rjQuit m n) (49, 0#7, n.setWidth 7, 0x11#7) := by
  rintro _ _ _ _ ⟨⟩
  show some (Instr.rjQuit m ((n.setWidth 7).setWidth 4), (0#7 == 0) && decide ((n.setWidth 7).toNat < 16)) = _
  rw [(setWidth_rj n).1, decide_eq_true (setWidth_rj n).2]
  rfl
theorem namedBy_rjWait (m : Mods) (n : BitVec 4) : NamedBy (.rjWait m n) (49, 0#7, n.setWidth 7, 0x12#7) := by
  rintro _ _ _ _ ⟨⟩
  show some (Instr.rjWait m ((n.setWidth 7).setWidth 4), (0#7 == 0) && decide ((n.setWidth 7).toNat < 16)) = _
  rw [(setWidth_rj n).1, decide_eq_true (setWidth_rj n).2]
  rfl
theorem namedBy_rjGet (m : Mods) (d : Reg) (n : BitVec 4) : NamedBy (.rjGet m d n) (49, d, n.setWidth 7, 0x13#7) := by
  rintro _ _ _ _ ⟨⟩
  show some (Instr.rjGet m d ((n.setWidth 7).setWidth 4), decide ((n.setWidth 7).toNat < 16)) = _
  rw [(setWidth_rj n).1, decide_eq_true (setWidth_rj n).2]
theorem namedBy_rjSet (m : Mods) (d : Reg) (n : BitVec 4) : NamedBy (.rjSet m d n) (49, d, n.setWidth 7, 0x14#7) := by
  rintro _ _ _ _ ⟨⟩
  show some (Instr.rjSet m d ((n.setWidth 7).setWidth 4), decide ((n.setWidth 7).toNat < 16)) = _
  rw [(setWidth_rj n).1, decide_eq_true (setWidth_rj n).2]
theorem namedBy_rjClr (m : Mods) (n : BitVec 4) : NamedBy (.rjClr m n) (49, 0#7, n.setWidth 7, 0x15#7) := by
  rintro _ _ _ _ ⟨⟩
  show some (Instr.rjClr m ((n.setWidth 7).setWidth 4), (0#7 == 0) && decide ((n.setWidth 7).toNat < 16)) = _
  rw [(setWidth_rj n).1, decide_eq_true (setWidth_rj n).2]
  rfl
theorem namedBy_iadd (m : Mods) (d : Reg) (a : Reg) (b : Reg) : NamedBy (.iadd m d a b) (1, d, a, b) := fun | _, _, _, _, rfl => rfl
theorem namedBy_isub (m : Mods) (d : Reg) (a : Reg) (b : Reg) : NamedBy (.isub m d a b) (2, d, a, b) := fun | _, _, _, _, rfl => rfl
theorem namedBy_imul (m : Mods) (d : Reg) (a : Reg) (b : Reg) : NamedBy (.imul m d a b) (3, d, a, b) := fun | _, _, _, _, rfl => rfl
theorem namedBy_imad (m : Mods) (d : Reg) (a : Reg) (b : Reg) : NamedBy (.imad m d a b) (4, d, a, b) := fun | _, _, _, _, rfl => rfl
theorem namedBy_andB32 (m : Mods) (d : Reg) (a : Reg) (b : Reg) : NamedBy (.andB32 m d a b) (5, d, a, b) := fun | _, _, _, _, rfl => rfl
theorem namedBy_orB32 (m : Mods) (d : Reg) (a : Reg) (b : Reg) : NamedBy (.orB32 m d a b) (6, d, a, b) := fun | _, _, _, _, rfl => rfl
theorem namedBy_xorB32 (m : Mods) (d : Reg) (a : Reg) (b : Reg) : NamedBy (.xorB32 m d a b) (7, d, a, b) := fun | _, _, _, _, rfl => rfl
theorem namedBy_shl (m : Mods) (d : Reg) (a : Reg) (b : Reg) : NamedBy (.shl m d a b) (8, d, a, b) := fun | _, _, _, _, rfl => rfl
theorem namedBy_shr (m : Mods) (d : Reg) (a : Reg) (b : Reg) : NamedBy (.shr m d a b) (9, d, a, b) := fun | _, _, _, _, rfl => rfl
theorem namedBy_sar (m : Mods) (d : Reg) (a : Reg) (b : Reg) : NamedBy (.sar m d a b) (10, d, a, b) := fun | _, _, _, _, rfl => rfl
theorem namedBy_lea (m : Mods) (d : Reg) (a : Reg) (b : Reg) : NamedBy (.lea m d a b) (11, d, a, b) := fun | _, _, _, _, rfl => rfl
theorem namedBy_sel (m : Mods) (d : Reg) (a : Reg) (b : Reg) : NamedBy (.sel m d a b) (12, d, a, b) := fun | _, _, _, _, rfl => rfl
theorem namedBy_bfx (m : Mods) (d : Reg) (a : Reg) (b : Reg) : NamedBy (.bfx m d a b) (13, d, a, b) := fun | _, _, _, _, rfl => rfl
theorem namedBy_bfi (m : Mods) (d : Reg) (a : Reg) (b : Reg) : NamedBy (.bfi m d a b) (14, d, a, b) := fun | _, _, _, _, rfl => rfl
theorem namedBy_prmt (m : Mods) (d : Reg) (a : Reg) (b : Reg) : NamedBy (.prmt m d a b) (15, d, a, b) := fun | _, _, _, _, rfl => rfl
theorem namedBy_shf (m : Mods) (d : Reg) (a : Reg) (b : Reg) : NamedBy (.shf m d a b) (16, d, a, b) := fun | _, _, _, _, rfl => rfl
theorem namedBy_lop3 (m : Mods) (d : Reg) (a : Reg) (b : Reg) : NamedBy (.lop3 m d a b) (17, d, a, b) := fun | _, _, _, _, rfl => rfl
theorem namedBy_iaddi (m : Mods) (d : Reg) (a : Reg) (i : BitVec 7) : NamedBy (.iaddi m d a i) (18, d, a, i) := fun | _, _, _, _, rfl => rfl
theorem namedBy_mov (m : Mods) (w : Bool) (d : Reg) (a : Reg) : NamedBy (.mov m w d a) (22, d, a, BitVec.ofNat 7 (0 + w.toNat)) := by
  rintro _ _ _ _ ⟨⟩
  show decInta m _ = _
  cases w <;> simp [decInta, yes]
theorem namedBy_popc (m : Mods) (w : Bool) (d : Reg) (a : Reg) : NamedBy (.popc m w d a) (22, d, a, BitVec.ofNat 7 (2 + w.toNat)) := by
  rintro _ _ _ _ ⟨⟩
  show decInta m _ = _
  cases w <;> simp [decInta, yes]
theorem namedBy_clz (m : Mods) (w : Bool) (d : Reg) (a : Reg) : NamedBy (.clz m w d a) (22, d, a, BitVec.ofNat 7 (4 + w.toNat)) := by
  rintro _ _ _ _ ⟨⟩
  show decInta m _ = _
  cases w <;> simp [decInta, yes]
theorem namedBy_ctz (m : Mods) (w : Bool) (d : Reg) (a : Reg) : NamedBy (.ctz m w d a) (22, d, a, BitVec.ofNat 7 (6 + w.toNat)) := by
  rintro _ _ _ _ ⟨⟩
  show decInta m _ = _
  cases w <;> simp [decInta, yes]
theorem namedBy_brev (m : Mods) (w : Bool) (d : Reg) (a : Reg) : NamedBy (.brev m w d a) (22, d, a, BitVec.ofNat 7 (8 + w.toNat)) := by
  rintro _ _ _ _ ⟨⟩
  show decInta m _ = _
  cases w <;> simp [decInta, yes]
theorem namedBy_iabs (m : Mods) (w : Bool) (d : Reg) (a : Reg) : NamedBy (.iabs m w d a) (22, d, a, BitVec.ofNat 7 (10 + w.toNat)) := by
  rintro _ _ _ _ ⟨⟩
  show decInta m _ = _
  cases w <;> simp [decInta, yes]
theorem namedBy_ineg (m : Mods) (w : Bool) (d : Reg) (a : Reg) : NamedBy (.ineg m w d a) (22, d, a, BitVec.ofNat 7 (12 + w.toNat)) := by
  rintro _ _ _ _ ⟨⟩
  show decInta m _ = _
  cases w <;> simp [decInta, yes]
theorem namedBy_iaddB64 (m : Mods) (d : Reg) (a : Reg) : NamedBy (.iaddB64 m d a) (23, d, a, 0x00#7) := fun | _, _, _, _, rfl => rfl
theorem namedBy_isubB64 (m : Mods) (d : Reg) (a : Reg) : NamedBy (.isubB64 m d a) (23, d, a, 0x01#7) := fun | _, _, _, _, rfl => rfl
theorem namedBy_imulB64 (m : Mods) (d : Reg) (a : Reg) : NamedBy (.imulB64 m d a) (23, d, a, 0x02#7) := fun | _, _, _, _, rfl => rfl
theorem namedBy_iaddcB32 (m : Mods) (d : Reg) (a : Reg) : NamedBy (.iaddcB32 m d a) (23, d, a, 0x03#7) := fun | _, _, _, _, rfl => rfl
theorem namedBy_isubbB32 (m : Mods) (d : Reg) (a : Reg) : NamedBy (.isubbB32 m d a) (23, d, a, 0x04#7) := fun | _, _, _, _, rfl => rfl
theorem namedBy_iaddcB64 (m : Mods) (d : Reg) (a : Reg) : NamedBy (.iaddcB64 m d a) (23, d, a, 0x05#7) := fun | _, _, _, _, rfl => rfl
theorem namedBy_isubbB64 (m : Mods) (d : Reg) (a : Reg) : NamedBy (.isubbB64 m d a) (23, d, a, 0x06#7) := fun | _, _, _, _, rfl => rfl
theorem namedBy_imulh (m : Mods) (t : IType) (d : Reg) (a : Reg) : NamedBy (.imulh m t d a) (23, d, a, BitVec.ofNat 7 (8 + t.code)) := by
  rintro _ _ _ _ ⟨⟩
  show decIntb m _ = _
  cases t <;> simp [decIntb, iTypeOf, IType.code, yes]
theorem namedBy_imadw (m : Mods) (sg : Bool) (d : Reg) (a : Reg) : NamedBy (.imadw m sg d a) (23, d, a, BitVec.ofNat 7 (if sg then 12 else 13)) := by
  rintro _ _ _ _ ⟨⟩
  cases sg <;> rfl
theorem namedBy_idiv (m : Mods) (t : IType) (d : Reg) (a : Reg) : NamedBy (.idiv m t d a) (23, d, a, BitVec.ofNat 7 (16 + t.code)) := by
  rintro _ _ _ _ ⟨⟩
  show decIntb m _ = _
  cases t <;> simp [decIntb, iTypeOf, IType.code, yes]
theorem namedBy_irem (m : Mods) (t : IType) (d : Reg) (a : Reg) : NamedBy (.irem m t d a) (23, d, a, BitVec.ofNat 7 (20 + t.code)) := by
  rintro _ _ _ _ ⟨⟩
  show decIntb m _ = _
  cases t <;> simp [decIntb, iTypeOf, IType.code, yes]
theorem namedBy_imin (m : Mods) (t : IType) (d : Reg) (a : Reg) : NamedBy (.imin m t d a) (23, d, a, BitVec.ofNat 7 (24 + t.code)) := by
  rintro _ _ _ _ ⟨⟩
  show decIntb m _ = _
  cases t <;> simp [decIntb, iTypeOf, IType.code, yes]
theorem namedBy_imax (m : Mods) (t : IType) (d : Reg) (a : Reg) : NamedBy (.imax m t d a) (23, d, a, BitVec.ofNat 7 (28 + t.code)) := by
  rintro _ _ _ _ ⟨⟩
  show decIntb m _ = _
  cases t <;> simp [decIntb, iTypeOf, IType.code, yes]
theorem namedBy_iclamp (m : Mods) (t : IType) (d : Reg) (a : Reg) : NamedBy (.iclamp m t d a) (23, d, a, BitVec.ofNat 7 (32 + t.code)) := by
  rintro _ _ _ _ ⟨⟩
  show decIntb m _ = _
  cases t <;> simp [decIntb, iTypeOf, IType.code, yes]
theorem namedBy_dp4 (m : Mods) (t : DpType) (d : Reg) (a : Reg) : NamedBy (.dp4 m t d a) (23, d, a, BitVec.ofNat 7 (0x24 + t.code)) := by
  rintro _ _ _ _ ⟨⟩
  cases t <;> rfl
theorem namedBy_shlB64 (m : Mods) (d : Reg) (a : Reg) : NamedBy (.shlB64 m d a) (23, d, a, 0x28#7) := fun | _, _, _, _, rfl => rfl
theorem namedBy_shrB64 (m : Mods) (d : Reg) (a : Reg) : NamedBy (.shrB64 m d a) (23, d, a, 0x29#7) := fun | _, _, _, _, rfl => rfl
theorem namedBy_sarB64 (m : Mods) (d : Reg) (a : Reg) : NamedBy (.sarB64 m d a) (23, d, a, 0x2A#7) := fun | _, _, _, _, rfl => rfl
theorem namedBy_rotlB32 (m : Mods) (d : Reg) (a : Reg) : NamedBy (.rotlB32 m d a) (23, d, a, 0x2B#7) := fun | _, _, _, _, rfl => rfl
theorem namedBy_rotlB64 (m : Mods) (d : Reg) (a : Reg) : NamedBy (.rotlB64 m d a) (23, d, a, 0x2C#7) := fun | _, _, _, _, rfl => rfl
theorem namedBy_andB64 (m : Mods) (d : Reg) (a : Reg) : NamedBy (.andB64 m d a) (23, d, a, 0x30#7) := fun | _, _, _, _, rfl => rfl
theorem namedBy_orB64 (m : Mods) (d : Reg) (a : Reg) : NamedBy (.orB64 m d a) (23, d, a, 0x31#7) := fun | _, _, _, _, rfl => rfl
theorem namedBy_xorB64 (m : Mods) (d : Reg) (a : Reg) : NamedBy (.xorB64 m d a) (23, d, a, 0x32#7) := fun | _, _, _, _, rfl => rfl
theorem namedBy_pmov (m : Mods) (d : Reg) (a : Reg) : NamedBy (.pmov m d a) (24, d, a, 0x00#7) := fun | _, _, _, _, rfl => rfl
theorem namedBy_plop3 (m : Mods) (d : Reg) (a : Reg) : NamedBy (.plop3 m d a) (24, d, a, 0x04#7) := fun | _, _, _, _, rfl => rfl
theorem namedBy_faddF32 (m : Mods) (d : Reg) (a : Reg) (b : Reg) : NamedBy (.faddF32 m d a b) (29, d, a, b) := fun | _, _, _, _, rfl => rfl
theorem namedBy_fsubF32 (m : Mods) (d : Reg) (a : Reg) (b : Reg) : NamedBy (.fsubF32 m d a b) (30, d, a, b) := fun | _, _, _, _, rfl => rfl
theorem namedBy_fmulF32 (m : Mods) (d : Reg) (a : Reg) (b : Reg) : NamedBy (.fmulF32 m d a b) (31, d, a, b) := fun | _, _, _, _, rfl => rfl
theorem namedBy_ffmaF32 (m : Mods) (d : Reg) (a : Reg) (b : Reg) : NamedBy (.ffmaF32 m d a b) (32, d, a, b) := fun | _, _, _, _, rfl => rfl
theorem namedBy_faddF64 (m : Mods) (d : Reg) (a : Reg) (b : Reg) : NamedBy (.faddF64 m d a b) (33, d, a, b) := fun | _, _, _, _, rfl => rfl
theorem namedBy_fmulF64 (m : Mods) (d : Reg) (a : Reg) (b : Reg) : NamedBy (.fmulF64 m d a b) (34, d, a, b) := fun | _, _, _, _, rfl => rfl
theorem namedBy_ffmaF64 (m : Mods) (d : Reg) (a : Reg) (b : Reg) : NamedBy (.ffmaF64 m d a b) (35, d, a, b) := fun | _, _, _, _, rfl => rfl
theorem namedBy_fabs (m : Mods) (f : FFmt) (d : Reg) (a : Reg) : NamedBy (.fabs m f d a) (40, d, a, BitVec.ofNat 7 (0 + f.code)) := by
  rintro _ _ _ _ ⟨⟩
  show decFpa m _ = _
  cases f <;> simp [decFpa, fFmtOf, FFmt.code, yes]
theorem namedBy_fneg (m : Mods) (f : FFmt) (d : Reg) (a : Reg) : NamedBy (.fneg m f d a) (40, d, a, BitVec.ofNat 7 (8 + f.code)) := by
  rintro _ _ _ _ ⟨⟩
  show decFpa m _ = _
  cases f <;> simp [decFpa, fFmtOf, FFmt.code, yes]
theorem namedBy_fsqrt (m : Mods) (f : FFmt) (d : Reg) (a : Reg) : NamedBy (.fsqrt m f d a) (40, d, a, BitVec.ofNat 7 (16 + f.code)) := by
  rintro _ _ _ _ ⟨⟩
  show decFpa m _ = _
  cases f <;> simp [decFpa, fFmtOf, FFmt.code, yes]
theorem namedBy_frcp (m : Mods) (f : FFmt) (d : Reg) (a : Reg) : NamedBy (.frcp m f d a) (40, d, a, BitVec.ofNat 7 (24 + f.code)) := by
  rintro _ _ _ _ ⟨⟩
  show decFpa m _ = _
  cases f <;> simp [decFpa, fFmtOf, FFmt.code, yes]
theorem namedBy_frsqrt (m : Mods) (f : FFmt) (d : Reg) (a : Reg) : NamedBy (.frsqrt m f d a) (40, d, a, BitVec.ofNat 7 (32 + f.code)) := by
  rintro _ _ _ _ ⟨⟩
  show decFpa m _ = _
  cases f <;> simp [decFpa, fFmtOf, FFmt.code, yes]
theorem namedBy_fexp2 (m : Mods) (f : FFmt) (d : Reg) (a : Reg) : NamedBy (.fexp2 m f d a) (40, d, a, BitVec.ofNat 7 (40 + f.code)) := by
  rintro _ _ _ _ ⟨⟩
  show decFpa m _ = _
  cases f <;> simp [decFpa, fFmtOf, FFmt.code, yes]
theorem namedBy_flog2 (m : Mods) (f : FFmt) (d : Reg) (a : Reg) : NamedBy (.flog2 m f d a) (40, d, a, BitVec.ofNat 7 (48 + f.code)) := by
  rintro _ _ _ _ ⟨⟩
  show decFpa m _ = _
  cases f <;> simp [decFpa, fFmtOf, FFmt.code, yes]
theorem namedBy_fsinpi (m : Mods) (f : FFmt) (d : Reg) (a : Reg) : NamedBy (.fsinpi m f d a) (40, d, a, BitVec.ofNat 7 (56 + f.code)) := by
  rintro _ _ _ _ ⟨⟩
  show decFpa m _ = _
  cases f <;> simp [decFpa, fFmtOf, FFmt.code, yes]
theorem namedBy_fcospi (m : Mods) (f : FFmt) (d : Reg) (a : Reg) : NamedBy (.fcospi m f d a) (40, d, a, BitVec.ofNat 7 (64 + f.code)) := by
  rintro _ _ _ _ ⟨⟩
  show decFpa m _ = _
  cases f <;> simp [decFpa, fFmtOf, FFmt.code, yes]
theorem namedBy_ftanh (m : Mods) (f : FFmt) (d : Reg) (a : Reg) : NamedBy (.ftanh m f d a) (40, d, a, BitVec.ofNat 7 (72 + f.code)) := by
  rintro _ _ _ _ ⟨⟩
  show decFpa m _ = _
  cases f <;> simp [decFpa, fFmtOf, FFmt.code, yes]
theorem namedBy_fclass (m : Mods) (f : FFmt) (d : Reg) (a : Reg) : NamedBy (.fclass m f d a) (40, d, a, BitVec.ofNat 7 (80 + f.code)) := by
  rintro _ _ _ _ ⟨⟩
  show decFpa m _ = _
  cases f <;> simp [decFpa, fFmtOf, FFmt.code, yes]
theorem namedBy_fgetexp (m : Mods) (f : FFmt) (d : Reg) (a : Reg) : NamedBy (.fgetexp m f d a) (40, d, a, BitVec.ofNat 7 (88 + f.code)) := by
  rintro _ _ _ _ ⟨⟩
  show decFpa m _ = _
  cases f <;> simp [decFpa, fFmtOf, FFmt.code, yes]
theorem namedBy_fgetman (m : Mods) (f : FFmt) (d : Reg) (a : Reg) : NamedBy (.fgetman m f d a) (40, d, a, BitVec.ofNat 7 (96 + f.code)) := by
  rintro _ _ _ _ ⟨⟩
  show decFpa m _ = _
  cases f <;> simp [decFpa, fFmtOf, FFmt.code, yes]
theorem namedBy_frint (m : Mods) (f : FFmt) (d : Reg) (a : Reg) : NamedBy (.frint m f d a) (40, d, a, BitVec.ofNat 7 (104 + f.code)) := by
  rintro _ _ _ _ ⟨⟩
  show decFpa m _ = _
  cases f <;> simp [decFpa, fFmtOf, FFmt.code, yes]
theorem namedBy_fadd (m : Mods) (f : FFmt) (d : Reg) (a : Reg) : NamedBy (.fadd m f d a) (41, d, a, BitVec.ofNat 7 (0 + f.code)) := by
  rintro _ _ _ _ ⟨⟩
  show decFpb m _ = _
  cases f <;> simp [decFpb, fFmtOf, FFmt.code, yes]
theorem namedBy_fsub (m : Mods) (f : FFmt) (d : Reg) (a : Reg) : NamedBy (.fsub m f d a) (41, d, a, BitVec.ofNat 7 (8 + f.code)) := by
  rintro _ _ _ _ ⟨⟩
  show decFpb m _ = _
  cases f <;> simp [decFpb, fFmtOf, FFmt.code, yes]
theorem namedBy_fmul (m : Mods) (f : FFmt) (d : Reg) (a : Reg) : NamedBy (.fmul m f d a) (41, d, a, BitVec.ofNat 7 (16 + f.code)) := by
  rintro _ _ _ _ ⟨⟩
  show decFpb m _ = _
  cases f <;> simp [decFpb, fFmtOf, FFmt.code, yes]
theorem namedBy_ffma (m : Mods) (f : FFmt) (d : Reg) (a : Reg) : NamedBy (.ffma m f d a) (41, d, a, BitVec.ofNat 7 (24 + f.code)) := by
  rintro _ _ _ _ ⟨⟩
  show decFpb m _ = _
  cases f <;> simp [decFpb, fFmtOf, FFmt.code, yes]
theorem namedBy_fmin (m : Mods) (f : FFmt) (d : Reg) (a : Reg) : NamedBy (.fmin m f d a) (41, d, a, BitVec.ofNat 7 (32 + f.code)) := by
  rintro _ _ _ _ ⟨⟩
  show decFpb m _ = _
  cases f <;> simp [decFpb, fFmtOf, FFmt.code, yes]
theorem namedBy_fmax (m : Mods) (f : FFmt) (d : Reg) (a : Reg) : NamedBy (.fmax m f d a) (41, d, a, BitVec.ofNat 7 (40 + f.code)) := by
  rintro _ _ _ _ ⟨⟩
  show decFpb m _ = _
  cases f <;> simp [decFpb, fFmtOf, FFmt.code, yes]
theorem namedBy_fcopysign (m : Mods) (f : FFmt) (d : Reg) (a : Reg) : NamedBy (.fcopysign m f d a) (41, d, a, BitVec.ofNat 7 (48 + f.code)) := by
  rintro _ _ _ _ ⟨⟩
  show decFpb m _ = _
  cases f <;> simp [decFpb, fFmtOf, FFmt.code, yes]
theorem namedBy_fdiv (m : Mods) (f : FFmt) (d : Reg) (a : Reg) : NamedBy (.fdiv m f d a) (41, d, a, BitVec.ofNat 7 (56 + f.code)) := by
  rintro _ _ _ _ ⟨⟩
  show decFpb m _ = _
  cases f <;> simp [decFpb, fFmtOf, FFmt.code, yes]
theorem namedBy_fscale (m : Mods) (f : FFmt) (d : Reg) (a : Reg) : NamedBy (.fscale m f d a) (41, d, a, BitVec.ofNat 7 (64 + f.code)) := by
  rintro _ _ _ _ ⟨⟩
  show decFpb m _ = _
  cases f <;> simp [decFpb, fFmtOf, FFmt.code, yes]
theorem namedBy_fdot2 (m : Mods) (f : FFmt) (d : Reg) (a : Reg) : NamedBy (.fdot2 m f d a) (41, d, a, BitVec.ofNat 7 (72 + f.code)) := by
  rintro _ _ _ _ ⟨⟩
  show decFpb m _ = _
  cases f <;> simp [decFpb, fFmtOf, FFmt.code, yes]
theorem namedBy_cvt (m : Mods) (x : CvtType) (y : CvtType) (d : Reg) (a : Reg) : NamedBy (.cvt m x y d a) (42, d, a, BitVec.ofNat 7 (8 * x.code + y.code)) := by
  rintro _ _ _ _ ⟨⟩
  show decCvt m _ = _
  cases x <;> cases y <;> simp [decCvt, cvtTypeOf, CvtType.code, yes]
theorem namedBy_cvtPack (m : Mods) (k : PackKind) (d : Reg) (a : Reg) : NamedBy (.cvtPack m k d a) (42, d, a, BitVec.ofNat 7 (64 + k.code)) := by
  rintro _ _ _ _ ⟨⟩
  show decCvt m _ = _
  cases k <;> simp [decCvt, packOf, PackKind.code, yes]
theorem namedBy_lred (m : Mods) (o : RedOp) (t : RedType) (d : Reg) (a : Reg) : NamedBy (.lred m o t d a) (43, d, a, BitVec.ofNat 7 (4 * o.code + t.code)) := by
  rintro _ _ _ _ ⟨⟩
  show decXl m _ = _
  cases o <;> cases t <;> simp [decXl, redOpOf, RedOp.code, redTypeOf, RedType.code, yes]
theorem namedBy_lscan (m : Mods) (e : Bool) (o : ScanOp) (t : RedType) (d : Reg) (a : Reg) : NamedBy (.lscan m e o t d a) (43, d, a, BitVec.ofNat 7 (32 + 16 * e.toNat + 4 * o.code + t.code)) := by
  rintro _ _ _ _ ⟨⟩
  show decXl m _ = _
  cases e <;> cases o <;> cases t <;> simp [decXl, scanOpOf, ScanOp.code, redTypeOf, RedType.code, yes]
theorem namedBy_vote (m : Mods) (v : VoteKind) (d : Reg) (a : Reg) : NamedBy (.vote m v d a) (43, d, a, BitVec.ofNat 7 (0x40 + v.code)) := by
  rintro _ _ _ _ ⟨⟩
  cases v <;> rfl
theorem namedBy_ballot (m : Mods) (d : Reg) (a : Reg) : NamedBy (.ballot m d a) (43, d, a, 0x44#7) := fun | _, _, _, _, rfl => rfl
theorem namedBy_matchLanes (m : Mods) (w : Bool) (d : Reg) (a : Reg) : NamedBy (.matchLanes m w d a) (43, d, a, BitVec.ofNat 7 (0x48 + w.toNat)) := by
  rintro _ _ _ _ ⟨⟩
  cases w <;> rfl
theorem namedBy_shfl (m : Mods) (k : ShflMode) (d : Reg) (a : Reg) : NamedBy (.shfl m k d a) (43, d, a, BitVec.ofNat 7 (0x50 + k.code)) := by
  rintro _ _ _ _ ⟨⟩
  show decXl m _ = _
  cases k <;> simp [decXl, ShflMode.code, yes]
theorem namedBy_jmp (m : Mods) (a : Reg) : NamedBy (.jmp m a) (49, 0#7, a, 0x00#7) := fun | _, _, _, _, rfl => rfl
theorem namedBy_callr (m : Mods) (d : Reg) (a : Reg) : NamedBy (.callr m d a) (49, d, a, 0x01#7) := fun | _, _, _, _, rfl => rfl
theorem namedBy_ret (m : Mods) (a : Reg) : NamedBy (.ret m a) (49, 0#7, a, 0x02#7) := fun | _, _, _, _, rfl => rfl
theorem namedBy_brx (m : Mods) (a : Reg) : NamedBy (.brx m a) (49, 0#7, a, 0x03#7) := fun | _, _, _, _, rfl => rfl
theorem namedBy_exit (m : Mods) : NamedBy (.exit m) (49, 0#7, 0#7, 0x04#7) := fun | _, _, _, _, rfl => rfl
theorem namedBy_trap (m : Mods) (n : Reg) : NamedBy (.trap m n) (49, 0#7, n, 0x05#7) := fun | _, _, _, _, rfl => rfl
theorem namedBy_brk (m : Mods) : NamedBy (.brk m) (49, 0#7, 0#7, 0x06#7) := fun | _, _, _, _, rfl => rfl
theorem namedBy_nop (m : Mods) : NamedBy (.nop m) (49, 0#7, 0#7, 0x07#7) := fun | _, _, _, _, rfl => rfl
theorem namedBy_yield (m : Mods) : NamedBy (.yield m) (49, 0#7, 0#7, 0x08#7) := fun | _, _, _, _, rfl => rfl
theorem namedBy_pause (m : Mods) : NamedBy (.pause m) (49, 0#7, 0#7, 0x09#7) := fun | _, _, _, _, rfl => rfl
theorem namedBy_wsb (m : Mods) : NamedBy (.wsb m) (49, 0#7, 0#7, 0x0A#7) := fun | _, _, _, _, rfl => rfl
theorem namedBy_ldGB32 (m : Mods) (o : BitVec 7) (d : Reg) (a : Reg) : NamedBy (.ldGB32 m o d a) (50, d, a, o) := fun | _, _, _, _, rfl => rfl
theorem namedBy_stGB32 (m : Mods) (o : BitVec 7) (d : Reg) (a : Reg) : NamedBy (.stGB32 m o d a) (51, d, a, o) := fun | _, _, _, _, rfl => rfl
theorem namedBy_ldGB64 (m : Mods) (o : BitVec 7) (d : Reg) (a : Reg) : NamedBy (.ldGB64 m o d a) (52, d, a, o) := fun | _, _, _, _, rfl => rfl
theorem namedBy_stGB64 (m : Mods) (o : BitVec 7) (d : Reg) (a : Reg) : NamedBy (.stGB64 m o d a) (53, d, a, o) := fun | _, _, _, _, rfl => rfl
theorem namedBy_ldGB128 (m : Mods) (o : BitVec 7) (d : Reg) (a : Reg) : NamedBy (.ldGB128 m o d a) (54, d, a, o) := fun | _, _, _, _, rfl => rfl
theorem namedBy_stGB128 (m : Mods) (o : BitVec 7) (d : Reg) (a : Reg) : NamedBy (.stGB128 m o d a) (55, d, a, o) := fun | _, _, _, _, rfl => rfl
theorem namedBy_ldSB32 (m : Mods) (o : BitVec 7) (d : Reg) (a : Reg) : NamedBy (.ldSB32 m o d a) (56, d, a, o) := fun | _, _, _, _, rfl => rfl
theorem namedBy_stSB32 (m : Mods) (o : BitVec 7) (d : Reg) (a : Reg) : NamedBy (.stSB32 m o d a) (57, d, a, o) := fun | _, _, _, _, rfl => rfl
theorem namedBy_ld (m : Mods) (u : Space) (t : MemType) (r : Bool) (d : Reg) (a : Reg) : NamedBy (.ld m u t r d a) (58, d, a, BitVec.ofNat 7 (16 * u.code + 2 * t.code + r.toNat)) := by
  rintro _ _ _ _ ⟨⟩
  show decMem m _ = _
  cases u <;> cases t <;> cases r <;> simp [decMem, spaceOf, Space.code, memTypeOf, MemType.code, yes]
theorem namedBy_st (m : Mods) (u : Space) (t : MemType) (r : Bool) (d : Reg) (a : Reg) : NamedBy (.st m u t r d a) (58, d, a, BitVec.ofNat 7 (64 + 16 * u.code + 2 * t.code + r.toNat)) := by
  rintro _ _ _ _ ⟨⟩
  show decMem m _ = _
  cases u <;> cases t <;> cases r <;> simp [decMem, spaceOf, Space.code, memTypeOf, MemType.code, yes]
theorem namedBy_ldkLow (m : Mods) (d : Reg) (n : Reg) : NamedBy (.ldkLow m d n) (58, d, n, 0x30#7) := fun | _, _, _, _, rfl => rfl
theorem namedBy_ldkHigh (m : Mods) (d : Reg) (n : Reg) : NamedBy (.ldkHigh m d n) (58, d, n, 0x31#7) := fun | _, _, _, _, rfl => rfl
theorem namedBy_ldkReg (m : Mods) (d : Reg) (a : Reg) : NamedBy (.ldkReg m d a) (58, d, a, 0x32#7) := fun | _, _, _, _, rfl => rfl
theorem namedBy_prefG (m : Mods) (a : Reg) : NamedBy (.prefG m a) (58, 0#7, a, 0x38#7) := fun | _, _, _, _, rfl => rfl
theorem namedBy_atom (m : Mods) (o : AtomOp) (w : Bool) (d : Reg) (a : Reg) : NamedBy (.atom m o w d a) (59, d, a, BitVec.ofNat 7 (2 * o.code + w.toNat)) := by
  rintro _ _ _ _ ⟨⟩
  show decSync m _ = _
  cases o <;> cases w <;> simp [decSync, atomOpOf, AtomOp.code, yes]
theorem namedBy_cas (m : Mods) (w : Bool) (d : Reg) (a : Reg) : NamedBy (.cas m w d a) (59, d, a, BitVec.ofNat 7 (22 + w.toNat)) := by
  rintro _ _ _ _ ⟨⟩
  cases w <;> rfl
theorem namedBy_redOp (m : Mods) (o : AtomOp) (w : Bool) (d : Reg) (a : Reg) : NamedBy (.redOp m o w d a) (59, d, a, BitVec.ofNat 7 (32 + 2 * o.code + w.toNat)) := by
  rintro _ _ _ _ ⟨⟩
  show decSync m _ = _
  cases o <;> cases w <;> simp [decSync, atomOpOf, AtomOp.code, yes]
theorem namedBy_fncIss (m : Mods) (d : Reg) (n : Scope) : NamedBy (.fncIss m d n) (59, d, BitVec.ofNat 7 n.code, 0x40#7) := by
  rintro _ _ _ _ ⟨⟩
  cases n <;> rfl
theorem namedBy_fncWt (m : Mods) (a : Reg) : NamedBy (.fncWt m a) (59, 0#7, a, 0x41#7) := fun | _, _, _, _, rfl => rfl
theorem namedBy_ownGive (m : Mods) (a : Reg) : NamedBy (.ownGive m a) (59, 0#7, a, 0x44#7) := fun | _, _, _, _, rfl => rfl
theorem namedBy_ownTake (m : Mods) (a : Reg) : NamedBy (.ownTake m a) (59, 0#7, a, 0x45#7) := fun | _, _, _, _, rfl => rfl
theorem namedBy_ownTest (m : Mods) (d : Reg) (a : Reg) : NamedBy (.ownTest m d a) (59, d, a, 0x46#7) := fun | _, _, _, _, rfl => rfl
theorem namedBy_rngWait (m : Mods) (d : Reg) (a : Reg) : NamedBy (.rngWait m d a) (59, d, a, 0x48#7) := fun | _, _, _, _, rfl => rfl
theorem namedBy_rngRel (m : Mods) (a : Reg) : NamedBy (.rngRel m a) (59, 0#7, a, 0x49#7) := fun | _, _, _, _, rfl => rfl
theorem namedBy_mrgFree (m : Mods) (a : Reg) : NamedBy (.mrgFree m a) (59, 0#7, a, 0x4A#7) := fun | _, _, _, _, rfl => rfl
theorem namedBy_bbInit (m : Mods) (d : Reg) (a : Reg) : NamedBy (.bbInit m d a) (59, d, a, 0x4C#7) := fun | _, _, _, _, rfl => rfl
theorem namedBy_bbExp (m : Mods) (d : Reg) (a : Reg) : NamedBy (.bbExp m d a) (59, d, a, 0x4D#7) := fun | _, _, _, _, rfl => rfl
theorem namedBy_bbArv (m : Mods) (d : Reg) (a : Reg) : NamedBy (.bbArv m d a) (59, d, a, 0x4E#7) := fun | _, _, _, _, rfl => rfl
theorem namedBy_bbWt (m : Mods) (a : Reg) : NamedBy (.bbWt m a) (59, 0#7, a, 0x4F#7) := fun | _, _, _, _, rfl => rfl
theorem namedBy_bop (m : Mods) (d : Reg) (a : Reg) : NamedBy (.bop m d a) (59, d, a, 0x50#7) := fun | _, _, _, _, rfl => rfl
theorem namedBy_halloc (m : Mods) (d : Reg) (a : Reg) : NamedBy (.halloc m d a) (59, d, a, 0x54#7) := fun | _, _, _, _, rfl => rfl
theorem namedBy_hfree (m : Mods) (a : Reg) : NamedBy (.hfree m a) (59, 0#7, a, 0x55#7) := fun | _, _, _, _, rfl => rfl
theorem namedBy_obRsv (m : Mods) (a : Reg) : NamedBy (.obRsv m a) (60, 0#7, a, 0x00#7) := fun | _, _, _, _, rfl => rfl
theorem namedBy_obRel (m : Mods) (a : Reg) : NamedBy (.obRel m a) (60, 0#7, a, 0x01#7) := fun | _, _, _, _, rfl => rfl
theorem namedBy_tcCopy (m : Mods) (a : Reg) : NamedBy (.tcCopy m a) (60, 0#7, a, 0x04#7) := fun | _, _, _, _, rfl => rfl
theorem namedBy_tcOb (m : Mods) (a : Reg) : NamedBy (.tcOb m a) (60, 0#7, a, 0x05#7) := fun | _, _, _, _, rfl => rfl
theorem namedBy_tcMcast (m : Mods) (a : Reg) : NamedBy (.tcMcast m a) (60, 0#7, a, 0x06#7) := fun | _, _, _, _, rfl => rfl
theorem namedBy_permLoad (m : Mods) (d : Reg) (a : Reg) : NamedBy (.permLoad m d a) (60, d, a, 0x07#7) := fun | _, _, _, _, rfl => rfl
theorem namedBy_mxCfg (m : Mods) (a : Reg) : NamedBy (.mxCfg m a) (60, 0#7, a, 0x10#7) := fun | _, _, _, _, rfl => rfl
theorem namedBy_mxStat (m : Mods) (a : Reg) : NamedBy (.mxStat m a) (60, 0#7, a, 0x11#7) := fun | _, _, _, _, rfl => rfl
theorem namedBy_mxSwap (m : Mods) : NamedBy (.mxSwap m) (60, 0#7, 0#7, 0x12#7) := fun | _, _, _, _, rfl => rfl
theorem namedBy_mxStrm (m : Mods) (a : Reg) : NamedBy (.mxStrm m a) (60, 0#7, a, 0x13#7) := fun | _, _, _, _, rfl => rfl
theorem namedBy_mxDrain (m : Mods) (d : Reg) (a : Reg) : NamedBy (.mxDrain m d a) (60, d, a, 0x14#7) := fun | _, _, _, _, rfl => rfl
theorem namedBy_mxZero (m : Mods) (a : Reg) : NamedBy (.mxZero m a) (60, 0#7, a, 0x15#7) := fun | _, _, _, _, rfl => rfl
theorem namedBy_mxWait (m : Mods) : NamedBy (.mxWait m) (60, 0#7, 0#7, 0x16#7) := fun | _, _, _, _, rfl => rfl
theorem namedBy_mxSave (m : Mods) (a : Reg) : NamedBy (.mxSave m a) (60, 0#7, a, 0x17#7) := fun | _, _, _, _, rfl => rfl
theorem namedBy_mxRest (m : Mods) (a : Reg) : NamedBy (.mxRest m a) (60, 0#7, a, 0x18#7) := fun | _, _, _, _, rfl => rfl
theorem namedBy_rst (m : Mods) (dep : Bool) (spr : Bool) (d : Reg) (a : Reg) : NamedBy (.rst m dep spr d a) (60, d, a, BitVec.ofNat 7 (0x20 + 2 * dep.toNat + spr.toNat)) := by
  rintro _ _ _ _ ⟨⟩
  show decEng m _ = _
  cases dep <;> cases spr <;> simp [decEng, yes]
theorem namedBy_rld (m : Mods) (dep : Bool) (spr : Bool) (d : Reg) (a : Reg) : NamedBy (.rld m dep spr d a) (60, d, a, BitVec.ofNat 7 (0x28 + 2 * dep.toNat + spr.toNat)) := by
  rintro _ _ _ _ ⟨⟩
  show decEng m _ = _
  cases dep <;> cases spr <;> simp [decEng, yes]
theorem namedBy_ratom (m : Mods) (tok : Bool) (dep : Bool) (spr : Bool) (d : Reg) (a : Reg) : NamedBy (.ratom m tok dep spr d a) (60, d, a, BitVec.ofNat 7 (0x30 + 4 * tok.toNat + 2 * dep.toNat + spr.toNat)) := by
  rintro _ _ _ _ ⟨⟩
  show decEng m _ = _
  cases tok <;> cases dep <;> cases spr <;> simp [decEng, yes]
theorem namedBy_rcopy (m : Mods) (tok : Bool) (dep : Bool) (spr : Bool) (d : Reg) (a : Reg) : NamedBy (.rcopy m tok dep spr d a) (60, d, a, BitVec.ofNat 7 (0x38 + 4 * tok.toNat + 2 * dep.toNat + spr.toNat)) := by
  rintro _ _ _ _ ⟨⟩
  show decEng m _ = _
  cases tok <;> cases dep <;> cases spr <;> simp [decEng, yes]
theorem namedBy_tokJoin (m : Mods) (d : Reg) (a : Reg) : NamedBy (.tokJoin m d a) (60, d, a, 0x40#7) := fun | _, _, _, _, rfl => rfl
theorem namedBy_tokTest (m : Mods) (d : Reg) (a : Reg) : NamedBy (.tokTest m d a) (60, d, a, 0x41#7) := fun | _, _, _, _, rfl => rfl
theorem namedBy_tokWait (m : Mods) (a : Reg) : NamedBy (.tokWait m a) (60, 0#7, a, 0x42#7) := fun | _, _, _, _, rfl => rfl
theorem namedBy_collRun (m : Mods) (d : Reg) (a : Reg) : NamedBy (.collRun m d a) (60, d, a, 0x44#7) := fun | _, _, _, _, rfl => rfl
theorem namedBy_collWt (m : Mods) (d : Reg) (a : Reg) : NamedBy (.collWt m d a) (60, d, a, 0x45#7) := fun | _, _, _, _, rfl => rfl
theorem namedBy_reelGo (m : Mods) (d : Reg) (a : Reg) : NamedBy (.reelGo m d a) (60, d, a, 0x48#7) := fun | _, _, _, _, rfl => rfl
theorem namedBy_reelStat (m : Mods) (d : Reg) (a : Reg) : NamedBy (.reelStat m d a) (60, d, a, 0x49#7) := fun | _, _, _, _, rfl => rfl
theorem namedBy_evtSig (m : Mods) (a : Reg) : NamedBy (.evtSig m a) (60, 0#7, a, 0x4C#7) := fun | _, _, _, _, rfl => rfl
theorem namedBy_evtWt (m : Mods) (a : Reg) : NamedBy (.evtWt m a) (60, 0#7, a, 0x4D#7) := fun | _, _, _, _, rfl => rfl
theorem namedBy_regGrow (m : Mods) (n : Reg) : NamedBy (.regGrow m n) (61, 0#7, n, 0x00#7) := fun | _, _, _, _, rfl => rfl
theorem namedBy_regShrink (m : Mods) (n : Reg) : NamedBy (.regShrink m n) (61, 0#7, n, 0x01#7) := fun | _, _, _, _, rfl => rfl
theorem namedBy_qpush (m : Mods) (d : Reg) : NamedBy (.qpush m d) (61, d, 0#7, 0x04#7) := fun | _, _, _, _, rfl => rfl
theorem namedBy_qpop (m : Mods) (d : Reg) : NamedBy (.qpop m d) (61, d, 0#7, 0x05#7) := fun | _, _, _, _, rfl => rfl
theorem namedBy_spawn (m : Mods) (d : Reg) (a : Reg) : NamedBy (.spawn m d a) (61, d, a, 0x08#7) := fun | _, _, _, _, rfl => rfl
theorem namedBy_tret (m : Mods) : NamedBy (.tret m) (61, 0#7, 0#7, 0x0C#7) := fun | _, _, _, _, rfl => rfl
theorem namedBy_ctxPark (m : Mods) : NamedBy (.ctxPark m) (61, 0#7, 0#7, 0x0D#7) := fun | _, _, _, _, rfl => rfl
theorem namedBy_sysc (m : Mods) (n : Reg) : NamedBy (.sysc m n) (61, 0#7, n, 0x0E#7) := fun | _, _, _, _, rfl => rfl
theorem namedBy_vmCommit (m : Mods) (d : Reg) (a : Reg) : NamedBy (.vmCommit m d a) (61, d, a, 0x10#7) := fun | _, _, _, _, rfl => rfl
theorem namedBy_vmFree (m : Mods) (d : Reg) (a : Reg) : NamedBy (.vmFree m d a) (61, d, a, 0x11#7) := fun | _, _, _, _, rfl => rfl
theorem namedBy_vmProt (m : Mods) (d : Reg) (a : Reg) : NamedBy (.vmProt m d a) (61, d, a, 0x12#7) := fun | _, _, _, _, rfl => rfl
theorem namedBy_vmDup (m : Mods) (d : Reg) (a : Reg) : NamedBy (.vmDup m d a) (61, d, a, 0x13#7) := fun | _, _, _, _, rfl => rfl
theorem namedBy_vmSplit (m : Mods) (d : Reg) (a : Reg) : NamedBy (.vmSplit m d a) (61, d, a, 0x14#7) := fun | _, _, _, _, rfl => rfl
theorem namedBy_tlbInv (m : Mods) (a : Reg) : NamedBy (.tlbInv m a) (61, 0#7, a, 0x15#7) := fun | _, _, _, _, rfl => rfl
theorem namedBy_detRng (m : Mods) (a : Reg) : NamedBy (.detRng m a) (61, 0#7, a, 0x18#7) := fun | _, _, _, _, rfl => rfl
theorem namedBy_detFlush (m : Mods) : NamedBy (.detFlush m) (61, 0#7, 0#7, 0x19#7) := fun | _, _, _, _, rfl => rfl
theorem namedBy_recMark (m : Mods) (a : Reg) : NamedBy (.recMark m a) (61, 0#7, a, 0x1A#7) := fun | _, _, _, _, rfl => rfl
theorem namedBy_tbar (m : Mods) : NamedBy (.tbar m) (61, 0#7, 0#7, 0x20#7) := fun | _, _, _, _, rfl => rfl
theorem namedBy_tbarArv (m : Mods) (d : Reg) : NamedBy (.tbarArv m d) (61, d, 0#7, 0x21#7) := fun | _, _, _, _, rfl => rfl
theorem namedBy_tbarWt (m : Mods) (a : Reg) : NamedBy (.tbarWt m a) (61, 0#7, a, 0x22#7) := fun | _, _, _, _, rfl => rfl
theorem namedBy_cbar (m : Mods) : NamedBy (.cbar m) (61, 0#7, 0#7, 0x24#7) := fun | _, _, _, _, rfl => rfl
theorem namedBy_cbarArv (m : Mods) (d : Reg) : NamedBy (.cbarArv m d) (61, d, 0#7, 0x25#7) := fun | _, _, _, _, rfl => rfl
theorem namedBy_cbarWt (m : Mods) (a : Reg) : NamedBy (.cbarWt m a) (61, 0#7, a, 0x26#7) := fun | _, _, _, _, rfl => rfl

/-- The fields of an instruction, where it has any, name it; without fields it has no words. -/
def FieldsName (i : Instr) : Prop :=
  match i.fields with
  | some x => NamedBy i x
  | none => i.mods = none

theorem fieldsName_of_wf : ∀ i : Instr, i.wf = true → FieldsName i
  | .iadd m d a b, _ => namedBy_iadd m d a b
  | .isub m d a b, _ => namedBy_isub m d a b
  | .imul m d a b, _ => namedBy_imul m d a b
  | .imad m d a b, _ => namedBy_imad m d a b
  | .andB32 m d a b, _ => namedBy_andB32 m d a b
  | .orB32 m d a b, _ => namedBy_orB32 m d a b
  | .xorB32 m d a b, _ => namedBy_xorB32 m d a b
  | .shl m d a b, _ => namedBy_shl m d a b
  | .shr m d a b, _ => namedBy_shr m d a b
  | .sar m d a b, _ => namedBy_sar m d a b
  | .lea m d a b, _ => namedBy_lea m d a b
  | .sel m d a b, _ => namedBy_sel m d a b
  | .bfx m d a b, _ => namedBy_bfx m d a b
  | .bfi m d a b, _ => namedBy_bfi m d a b
  | .prmt m d a b, _ => namedBy_prmt m d a b
  | .shf m d a b, _ => namedBy_shf m d a b
  | .lop3 m d a b, _ => namedBy_lop3 m d a b
  | .iaddi m d a i, _ => namedBy_iaddi m d a i
  | .shi m o n d a, _ => namedBy_shi m o n d a
  | .movi m d i, hw => namedBy_movi m d i (lit_of_movi_wf hw)
  | .movl m d i, hw => namedBy_movl m d i (lit_of_movl_wf hw)
  | .movh m d i, _ => namedBy_movh m d i
  | .mov m w d a, _ => namedBy_mov m w d a
  | .popc m w d a, _ => namedBy_popc m w d a
  | .clz m w d a, _ => namedBy_clz m w d a
  | .ctz m w d a, _ => namedBy_ctz m w d a
  | .brev m w d a, _ => namedBy_brev m w d a
  | .iabs m w d a, _ => namedBy_iabs m w d a
  | .ineg m w d a, _ => namedBy_ineg m w d a
  | .iaddB64 m d a, _ => namedBy_iaddB64 m d a
  | .isubB64 m d a, _ => namedBy_isubB64 m d a
  | .imulB64 m d a, _ => namedBy_imulB64 m d a
  | .iaddcB32 m d a, _ => namedBy_iaddcB32 m d a
  | .isubbB32 m d a, _ => namedBy_isubbB32 m d a
  | .iaddcB64 m d a, _ => namedBy_iaddcB64 m d a
  | .isubbB64 m d a, _ => namedBy_isubbB64 m d a
  | .imulh m t d a, _ => namedBy_imulh m t d a
  | .imadw m sg d a, _ => namedBy_imadw m sg d a
  | .idiv m t d a, _ => namedBy_idiv m t d a
  | .irem m t d a, _ => namedBy_irem m t d a
  | .imin m t d a, _ => namedBy_imin m t d a
  | .imax m t d a, _ => namedBy_imax m t d a
  | .iclamp m t d a, _ => namedBy_iclamp m t d a
  | .dp4 m t d a, _ => namedBy_dp4 m t d a
  | .shlB64 m d a, _ => namedBy_shlB64 m d a
  | .shrB64 m d a, _ => namedBy_shrB64 m d a
  | .sarB64 m d a, _ => namedBy_sarB64 m d a
  | .rotlB32 m d a, _ => namedBy_rotlB32 m d a
  | .rotlB64 m d a, _ => namedBy_rotlB64 m d a
  | .andB64 m d a, _ => namedBy_andB64 m d a
  | .orB64 m d a, _ => namedBy_orB64 m d a
  | .xorB64 m d a, _ => namedBy_xorB64 m d a
  | .pmov m d a, _ => namedBy_pmov m d a
  | .pset m d v, _ => namedBy_pset m d v
  | .p2g m d k, _ => namedBy_p2g m d k
  | .g2p m k a, _ => namedBy_g2p m k a
  | .plop3 m d a, _ => namedBy_plop3 m d a
  | .icmpEq m w p a b, _ => namedBy_icmpEq m w p a b
  | .icmpNe m w p a b, _ => namedBy_icmpNe m w p a b
  | .icmpLtS m w p a b, _ => namedBy_icmpLtS m w p a b
  | .icmpLtZ m w p a b, _ => namedBy_icmpLtZ m w p a b
  | .faddF32 m d a b, _ => namedBy_faddF32 m d a b
  | .fsubF32 m d a b, _ => namedBy_fsubF32 m d a b
  | .fmulF32 m d a b, _ => namedBy_fmulF32 m d a b
  | .ffmaF32 m d a b, _ => namedBy_ffmaF32 m d a b
  | .faddF64 m d a b, _ => namedBy_faddF64 m d a b
  | .fmulF64 m d a b, _ => namedBy_fmulF64 m d a b
  | .ffmaF64 m d a b, _ => namedBy_ffmaF64 m d a b
  | .fcmpEq m w p a b, _ => namedBy_fcmpEq m w p a b
  | .fcmpLt m w p a b, _ => namedBy_fcmpLt m w p a b
  | .fcmpLe m w p a b, _ => namedBy_fcmpLe m w p a b
  | .fcmpUn m w p a b, _ => namedBy_fcmpUn m w p a b
  | .fabs m f d a, _ => namedBy_fabs m f d a
  | .fneg m f d a, _ => namedBy_fneg m f d a
  | .fsqrt m f d a, _ => namedBy_fsqrt m f d a
  | .frcp m f d a, _ => namedBy_frcp m f d a
  | .frsqrt m f d a, _ => namedBy_frsqrt m f d a
  | .fexp2 m f d a, _ => namedBy_fexp2 m f d a
  | .flog2 m f d a, _ => namedBy_flog2 m f d a
  | .fsinpi m f d a, _ => namedBy_fsinpi m f d a
  | .fcospi m f d a, _ => namedBy_fcospi m f d a
  | .ftanh m f d a, _ => namedBy_ftanh m f d a
  | .fclass m f d a, _ => namedBy_fclass m f d a
  | .fgetexp m f d a, _ => namedBy_fgetexp m f d a
  | .fgetman m f d a, _ => namedBy_fgetman m f d a
  | .frint m f d a, _ => namedBy_frint m f d a
  | .fadd m f d a, _ => namedBy_fadd m f d a
  | .fsub m f d a, _ => namedBy_fsub m f d a
  | .fmul m f d a, _ => namedBy_fmul m f d a
  | .ffma m f d a, _ => namedBy_ffma m f d a
  | .fmin m f d a, _ => namedBy_fmin m f d a
  | .fmax m f d a, _ => namedBy_fmax m f d a
  | .fcopysign m f d a, _ => namedBy_fcopysign m f d a
  | .fdiv m f d a, _ => namedBy_fdiv m f d a
  | .fscale m f d a, _ => namedBy_fscale m f d a
  | .fdot2 m f d a, _ => namedBy_fdot2 m f d a
  | .cvt m x y d a, _ => namedBy_cvt m x y d a
  | .cvtPack m k d a, _ => namedBy_cvtPack m k d a
  | .lred m o t d a, _ => namedBy_lred m o t d a
  | .lscan m e o t d a, _ => namedBy_lscan m e o t d a
  | .vote m v d a, _ => namedBy_vote m v d a
  | .ballot m d a, _ => namedBy_ballot m d a
  | .matchLanes m w d a, _ => namedBy_matchLanes m w d a
  | .shfl m k d a, _ => namedBy_shfl m k d a
  | .bra m o n p, _ => namedBy_bra m o n p
  | .call m o n p, _ => namedBy_call m o n p
  | .jmp m a, _ => namedBy_jmp m a
  | .callr m d a, _ => namedBy_callr m d a
  | .ret m a, _ => namedBy_ret m a
  | .brx m a, _ => namedBy_brx m a
  | .exit m, _ => namedBy_exit m
  | .trap m n, _ => namedBy_trap m n
  | .brk m, _ => namedBy_brk m
  | .nop m, _ => namedBy_nop m
  | .yield m, _ => namedBy_yield m
  | .pause m, _ => namedBy_pause m
  | .wsb m, _ => namedBy_wsb m
  | .rjEnter m n, _ => namedBy_rjEnter m n
  | .rjQuit m n, _ => namedBy_rjQuit m n
  | .rjWait m n, _ => namedBy_rjWait m n
  | .rjGet m d n, _ => namedBy_rjGet m d n
  | .rjSet m d n, _ => namedBy_rjSet m d n
  | .rjClr m n, _ => namedBy_rjClr m n
  | .ldGB32 m o d a, _ => namedBy_ldGB32 m o d a
  | .stGB32 m o d a, _ => namedBy_stGB32 m o d a
  | .ldGB64 m o d a, _ => namedBy_ldGB64 m o d a
  | .stGB64 m o d a, _ => namedBy_stGB64 m o d a
  | .ldGB128 m o d a, _ => namedBy_ldGB128 m o d a
  | .stGB128 m o d a, _ => namedBy_stGB128 m o d a
  | .ldSB32 m o d a, _ => namedBy_ldSB32 m o d a
  | .stSB32 m o d a, _ => namedBy_stSB32 m o d a
  | .ld m u t r d a, _ => namedBy_ld m u t r d a
  | .st m u t r d a, _ => namedBy_st m u t r d a
  | .ldkLow m d n, _ => namedBy_ldkLow m d n
  | .ldkHigh m d n, _ => namedBy_ldkHigh m d n
  | .ldkReg m d a, _ => namedBy_ldkReg m d a
  | .prefG m a, _ => namedBy_prefG m a
  | .atom m o w d a, _ => namedBy_atom m o w d a
  | .cas m w d a, _ => namedBy_cas m w d a
  | .redOp m o w d a, _ => namedBy_redOp m o w d a
  | .fncIss m d n, _ => namedBy_fncIss m d n
  | .fncWt m a, _ => namedBy_fncWt m a
  | .ownGive m a, _ => namedBy_ownGive m a
  | .ownTake m a, _ => namedBy_ownTake m a
  | .ownTest m d a, _ => namedBy_ownTest m d a
  | .rngWait m d a, _ => namedBy_rngWait m d a
  | .rngRel m a, _ => namedBy_rngRel m a
  | .mrgFree m a, _ => namedBy_mrgFree m a
  | .bbInit m d a, _ => namedBy_bbInit m d a
  | .bbExp m d a, _ => namedBy_bbExp m d a
  | .bbArv m d a, _ => namedBy_bbArv m d a
  | .bbWt m a, _ => namedBy_bbWt m a
  | .bop m d a, _ => namedBy_bop m d a
  | .halloc m d a, _ => namedBy_halloc m d a
  | .hfree m a, _ => namedBy_hfree m a
  | .obRsv m a, _ => namedBy_obRsv m a
  | .obRel m a, _ => namedBy_obRel m a
  | .tcCopy m a, _ => namedBy_tcCopy m a
  | .tcOb m a, _ => namedBy_tcOb m a
  | .tcMcast m a, _ => namedBy_tcMcast m a
  | .permLoad m d a, _ => namedBy_permLoad m d a
  | .mxCfg m a, _ => namedBy_mxCfg m a
  | .mxStat m a, _ => namedBy_mxStat m a
  | .mxSwap m, _ => namedBy_mxSwap m
  | .mxStrm m a, _ => namedBy_mxStrm m a
  | .mxDrain m d a, _ => namedBy_mxDrain m d a
  | .mxZero m a, _ => namedBy_mxZero m a
  | .mxWait m, _ => namedBy_mxWait m
  | .mxSave m a, _ => namedBy_mxSave m a
  | .mxRest m a, _ => namedBy_mxRest m a
  | .rst m dep spr d a, _ => namedBy_rst m dep spr d a
  | .rld m dep spr d a, _ => namedBy_rld m dep spr d a
  | .ratom m tok dep spr d a, _ => namedBy_ratom m tok dep spr d a
  | .rcopy m tok dep spr d a, _ => namedBy_rcopy m tok dep spr d a
  | .tokJoin m d a, _ => namedBy_tokJoin m d a
  | .tokTest m d a, _ => namedBy_tokTest m d a
  | .tokWait m a, _ => namedBy_tokWait m a
  | .collRun m d a, _ => namedBy_collRun m d a
  | .collWt m d a, _ => namedBy_collWt m d a
  | .reelGo m d a, _ => namedBy_reelGo m d a
  | .reelStat m d a, _ => namedBy_reelStat m d a
  | .evtSig m a, _ => namedBy_evtSig m a
  | .evtWt m a, _ => namedBy_evtWt m a
  | .regGrow m n, _ => namedBy_regGrow m n
  | .regShrink m n, _ => namedBy_regShrink m n
  | .qpush m d, _ => namedBy_qpush m d
  | .qpop m d, _ => namedBy_qpop m d
  | .spawn m d a, _ => namedBy_spawn m d a
  | .tret m, _ => namedBy_tret m
  | .ctxPark m, _ => namedBy_ctxPark m
  | .sysc m n, _ => namedBy_sysc m n
  | .vmCommit m d a, _ => namedBy_vmCommit m d a
  | .vmFree m d a, _ => namedBy_vmFree m d a
  | .vmProt m d a, _ => namedBy_vmProt m d a
  | .vmDup m d a, _ => namedBy_vmDup m d a
  | .vmSplit m d a, _ => namedBy_vmSplit m d a
  | .tlbInv m a, _ => namedBy_tlbInv m a
  | .detRng m a, _ => namedBy_detRng m a
  | .detFlush m, _ => namedBy_detFlush m
  | .recMark m a, _ => namedBy_recMark m a
  | .tbar m, _ => namedBy_tbar m
  | .tbarArv m d, _ => namedBy_tbarArv m d
  | .tbarWt m a, _ => namedBy_tbarWt m a
  | .cbar m, _ => namedBy_cbar m
  | .cbarArv m d, _ => namedBy_cbarArv m d
  | .cbarWt m a, _ => namedBy_cbarWt m a
  | .csrr m r d, _ => namedBy_csrr m r d
  | .csrw m r d, _ => namedBy_csrw m r d
  | .csrx m r d, _ => namedBy_csrx m r d
  | .handlerEntry .., _ => rfl
  | .regGrant .., _ => rfl
  | .yieldRelease .., _ => rfl
  | .pauseExpiry .., _ => rfl
  | .scoreboardWrite .., _ => rfl
  | .queuePushDone .., _ => rfl
  | .queuePopDone .., _ => rfl
  | .ownTakeDone .., _ => rfl
  | .ringWaitDone .., _ => rfl
  | .fencePerformed .., _ => rfl
  | .accessPerform .., _ => rfl
  | .pageWalkComplete .., _ => rfl
  | .bankAluApply .., _ => rfl
  | .bopComplete .., _ => rfl
  | .vmChangeComplete .., _ => rfl
  | .evtWaitRecheck .., _ => rfl
  | .commandAccept .., _ => rfl
  | .engineUnitRead .., _ => rfl
  | .engineUnitWrite .., _ => rfl
  | .ringSlotFill .., _ => rfl
  | .planeFillDone .., _ => rfl
  | .streamResults .., _ => rfl
  | .drainWrite .., _ => rfl
  | .mxWaitDone .., _ => rfl
  | .obRelDone .., _ => rfl
  | .budgetPeriodStart .., _ => rfl
  | .launchDoorbell .., _ => rfl
  | .frontEndTake .., _ => rfl
  | .launchReady .., _ => rfl
  | .launchRecheckTimer .., _ => rfl
  | .launchAging .., _ => rfl
  | .callerHandover .., _ => rfl
  | .corpsPlacement .., _ => rfl
  | .troupePublish .., _ => rfl
  | .graphNodeStart .., _ => rfl
  | .graphNodeDone .., _ => rfl
  | .deferredApply .., _ => rfl
  | .drainDeadline .., _ => rfl
  | .evictionDeadline .., _ => rfl
  | .preemptSaveImage .., _ => rfl
  | .troupeLeavesCore .., _ => rfl
  | .restorePlacement .., _ => rfl
  | .steerReply .., _ => rfl
  | .eccu .., _ => rfl
  | .slotStart .., _ => rfl
  | .frameReceive .., _ => rfl
  | .masterLoss .., _ => rfl
  | .freeRunExpiry .., _ => rfl
  | .laneFailure .., _ => rfl
  | .laneRejoin .., _ => rfl
  | .storePacket .., _ => rfl
  | .loadPacket .., _ => rfl
  | .replyPacket .., _ => rfl
  | .faultReplyPacket .., _ => rfl
  | .atomicPacket .., _ => rfl
  | .copySegmentPacket .., _ => rfl
  | .vectorStorePart .., _ => rfl
  | .vectorLoadPart .., _ => rfl
  | .vectorAtomicPart .., _ => rfl
  | .landedNotice .., _ => rfl
  | .releaseNotice .., _ => rfl
  | .appliedCountNotice .., _ => rfl
  | .forwardedCountNotice .., _ => rfl
  | .relayedAppliedCountNotice .., _ => rfl
  | .holdFreeNotice .., _ => rfl
  | .expiryNotice .., _ => rfl
  | .invalidateNotice .., _ => rfl
  | .holdExpiry .., _ => rfl
  | .collEntryStart .., _ => rfl
  | .collEntryComplete .., _ => rfl
  | .reducerFold .., _ => rfl
  | .reelWait .., _ => rfl
  | .reelGather .., _ => rfl
  | .reelRun .., _ => rfl
  | .reelHandoff .., _ => rfl
  | .bootRom .., _ => rfl
  | .recoveryImage .., _ => rfl
  | .mrExtend .., _ => rfl
  | .attestationRequest .., _ => rfl
  | .featureGo .., _ => rfl
  | .apertureRead .., _ => rfl
  | .apertureWrite .., _ => rfl
  | .apertureControlWrite .., _ => rfl
  | .correctedError .., _ => rfl
  | .uncorrectableError .., _ => rfl
  | .selfTestEnd .., _ => rfl
  | .budgetWrite .., _ => rfl
  | .pcapWrite .., _ => rfl
  | .pstateWrite .., _ => rfl
  | .temperatureEvent .., _ => rfl
  | .hostCommandDoorbell .., _ => rfl
  | .ctxnew .., _ => rfl
  | .ctxentry .., _ => rfl
  | .ctxstop .., _ => rfl
  | .ctxfree .., _ => rfl
  | .ctxevt .., _ => rfl
  | .preempt .., _ => rfl
  | .preend .., _ => rfl
  | .resume .., _ => rfl
  | .planload .., _ => rfl
  | .reelload .., _ => rfl
  | .hndload .., _ => rfl
  | .fctlset .., _ => rfl
  | .masters .., _ => rfl
  | .vmdup .., _ => rfl
  | .vmsplit .., _ => rfl
  | .vmprot .., _ => rfl
  | .tlbinv .., _ => rfl
  | .registerWrite .., _ => rfl
  | .fixedLatencyResult .., _ => rfl
  | .stallWaitExpiry .., _ => rfl
  | .powerCapReached .., _ => rfl

end Sys2Proof
end

