-- ==== Sys2Proof/Proofs/DecodedFields.lean ====
section
/-! SUPPORT. What the decoder's tables name has the operand fields that they have read (R93 to R103). -/

namespace Sys2Proof

/-- The instruction has these mods and these operand fields. -/
def HasFields (i : Instr) (m : Mods) (x : Nat × Reg × Reg × Reg) : Prop := i.mods = some m ∧ i.fields = some x
theorem eq_ofNat_of_toNat {b : Reg} {n : Nat} (h : b.toNat = n) : b = BitVec.ofNat 7 n := BitVec.eq_of_toNat_eq (by simp [h]; omega)
theorem hasFields_of_yes {m : Mods} {f : Fields} {i j : Instr} {maj n : Nat} (h : yes i = some (j, true)) (hb : f.b.toNat = n)
    (hm : i.mods = some m) (hf : i.fields = some (maj, f.d, f.a, BitVec.ofNat 7 n)) : HasFields j m (maj, f.d, f.a, f.b) := by
  cases h
  exact ⟨hm, by rw [hf, ← eq_ofNat_of_toNat hb]⟩
theorem hasFields_of_zd {m : Mods} {f : Fields} {i j : Instr} {maj n : Nat} (h : zd f i = some (j, true)) (hb : f.b.toNat = n)
    (hm : i.mods = some m) (hf : i.fields = some (maj, 0#7, f.a, BitVec.ofNat 7 n)) : HasFields j m (maj, f.d, f.a, f.b) := by
  simp only [zd, Option.some.injEq, Prod.mk.injEq, beq_iff_eq] at h
  obtain ⟨rfl, hd⟩ := h
  exact ⟨hm, by rw [hf, ← eq_ofNat_of_toNat hb, hd]; rfl⟩
theorem hasFields_of_za {m : Mods} {f : Fields} {i j : Instr} {maj n : Nat} (h : za f i = some (j, true)) (hb : f.b.toNat = n)
    (hm : i.mods = some m) (hf : i.fields = some (maj, f.d, 0#7, BitVec.ofNat 7 n)) : HasFields j m (maj, f.d, f.a, f.b) := by
  simp only [za, Option.some.injEq, Prod.mk.injEq, beq_iff_eq] at h
  obtain ⟨rfl, ha⟩ := h
  exact ⟨hm, by rw [hf, ← eq_ofNat_of_toNat hb, ha]; rfl⟩
theorem hasFields_of_zda {m : Mods} {f : Fields} {i j : Instr} {maj n : Nat} (h : zda f i = some (j, true)) (hb : f.b.toNat = n)
    (hm : i.mods = some m) (hf : i.fields = some (maj, 0#7, 0#7, BitVec.ofNat 7 n)) : HasFields j m (maj, f.d, f.a, f.b) := by
  simp only [zda, Option.some.injEq, Prod.mk.injEq, Bool.and_eq_true, beq_iff_eq] at h
  obtain ⟨rfl, hd, ha⟩ := h
  exact ⟨hm, by rw [hf, ← eq_ofNat_of_toNat hb, hd, ha]; rfl⟩
/-! ### Codes of the enumerations -/

theorem toNat_decide_mod_two (n : Nat) : (decide (n % 2 = 1)).toNat = n % 2 := by
  rcases Nat.mod_two_eq_zero_or_one n with h | h <;> simp [h]
theorem code_iTypeOf {n : Nat} (h : n < 4) : (iTypeOf n).code = n := by interval_cases n <;> rfl
theorem code_shOpOf {n : Nat} (h : n < 4) : (shOpOf n).code = n := by interval_cases n <;> rfl
theorem code_redTypeOf {n : Nat} (h : n < 4) : (redTypeOf n).code = n := by interval_cases n <;> rfl
theorem code_redOpOf {n : Nat} (h : n < 8) : (redOpOf n).code = n := by interval_cases n <;> rfl
theorem code_cvtTypeOf {n : Nat} (h : n < 8) : (cvtTypeOf n).code = n := by interval_cases n <;> rfl
theorem code_packOf {n : Nat} (h : n < 4) : (packOf n).code = n := by interval_cases n <;> rfl
theorem code_scopeOf {n : Nat} (h : n < 4) : (scopeOf n).code = n := by interval_cases n <;> rfl
theorem code_of_fFmtOf {n : Nat} {t : FFmt} (h : fFmtOf n = some t) : t.code = n := by
  unfold fFmtOf at h
  split at h <;> cases h <;> rfl
theorem code_of_scanOpOf {n : Nat} {t : ScanOp} (h : scanOpOf n = some t) : t.code = n := by
  unfold scanOpOf at h
  split at h <;> cases h <;> rfl
theorem code_of_spaceOf {n : Nat} {t : Space} (h : spaceOf n = some t) : t.code = n := by
  unfold spaceOf at h
  split at h <;> cases h <;> rfl
theorem code_of_memTypeOf {n : Nat} {t : MemType} (h : memTypeOf n = some t) : t.code = n := by
  unfold memTypeOf at h
  split at h <;> cases h <;> rfl
theorem code_of_atomOpOf {n : Nat} {t : AtomOp} (h : atomOpOf n = some t) : t.code = n := by
  unfold atomOpOf at h
  split at h <;> cases h <;> rfl

/-! ### The decoder's tables name the fields that they read -/

/-- A 7-bit field below a power of two is its low bits. -/
theorem setWidth_setWidth_of_lt {a : Reg} {k : Nat} (h : a.toNat < 2 ^ k) : (a.setWidth k).setWidth 7 = a := by
  refine BitVec.eq_of_toNat_eq ?_
  rw [BitVec.toNat_setWidth, BitVec.toNat_setWidth, Nat.mod_eq_of_lt h, Nat.mod_eq_of_lt a.isLt]
theorem hasFields_of_rj {m : Mods} {f : Fields} {i : Instr} {j : BitVec 4 → Instr} {n : Nat}
    (h : some (j (f.a.setWidth 4), f.d == 0 && decide (f.a.toNat < 16)) = some (i, true)) (hb : f.b.toNat = n)
    (hm : (j (f.a.setWidth 4)).mods = some m) (hf : ∀ x, (j x).fields = some (49, 0#7, x.setWidth 7, BitVec.ofNat 7 n)) : HasFields i m (49, f.d, f.a, f.b) := by
  simp only [Option.some.injEq, Prod.mk.injEq, Bool.and_eq_true, beq_iff_eq, decide_eq_true_eq] at h
  obtain ⟨rfl, hd, ha⟩ := h
  exact ⟨hm, by rw [hf, ← eq_ofNat_of_toNat hb, hd, setWidth_setWidth_of_lt (k := 4) ha]; rfl⟩
theorem hasFields_of_rjD {m : Mods} {f : Fields} {i : Instr} {j : BitVec 4 → Instr} {n : Nat}
    (h : some (j (f.a.setWidth 4), decide (f.a.toNat < 16)) = some (i, true)) (hb : f.b.toNat = n)
    (hm : (j (f.a.setWidth 4)).mods = some m) (hf : ∀ x, (j x).fields = some (49, f.d, x.setWidth 7, BitVec.ofNat 7 n)) : HasFields i m (49, f.d, f.a, f.b) := by
  simp only [Option.some.injEq, Prod.mk.injEq, decide_eq_true_eq] at h
  obtain ⟨rfl, ha⟩ := h
  exact ⟨hm, by rw [hf, ← eq_ofNat_of_toNat hb, setWidth_setWidth_of_lt (k := 4) ha]⟩
theorem hasFields_of_decSys {m : Mods} {f : Fields} {i : Instr} (h : decSys m f = some (i, true)) : HasFields i m (61, f.d, f.a, f.b) := by
  unfold decSys at h
  split at h
  · exact hasFields_of_zd h ‹_› rfl rfl
  · exact hasFields_of_zd h ‹_› rfl rfl
  · exact hasFields_of_za h ‹_› rfl rfl
  · exact hasFields_of_za h ‹_› rfl rfl
  · exact hasFields_of_yes h ‹_› rfl rfl
  · exact hasFields_of_zda h ‹_› rfl rfl
  · exact hasFields_of_zda h ‹_› rfl rfl
  · exact hasFields_of_zd h ‹_› rfl rfl
  · exact hasFields_of_yes h ‹_› rfl rfl
  · exact hasFields_of_yes h ‹_› rfl rfl
  · exact hasFields_of_yes h ‹_› rfl rfl
  · exact hasFields_of_yes h ‹_› rfl rfl
  · exact hasFields_of_yes h ‹_› rfl rfl
  · exact hasFields_of_zd h ‹_› rfl rfl
  · exact hasFields_of_zd h ‹_› rfl rfl
  · exact hasFields_of_zda h ‹_› rfl rfl
  · exact hasFields_of_zd h ‹_› rfl rfl
  · exact hasFields_of_zda h ‹_› rfl rfl
  · exact hasFields_of_za h ‹_› rfl rfl
  · exact hasFields_of_zd h ‹_› rfl rfl
  · exact hasFields_of_zda h ‹_› rfl rfl
  · exact hasFields_of_za h ‹_› rfl rfl
  · exact hasFields_of_zd h ‹_› rfl rfl
  · cases h

theorem hasFields_of_decCtl {m : Mods} {f : Fields} {i : Instr} (h : decCtl m f = some (i, true)) : HasFields i m (49, f.d, f.a, f.b) := by
  unfold decCtl at h
  split at h
  · exact hasFields_of_zd h ‹_› rfl rfl
  · exact hasFields_of_yes h ‹_› rfl rfl
  · exact hasFields_of_zd h ‹_› rfl rfl
  · exact hasFields_of_zd h ‹_› rfl rfl
  · exact hasFields_of_zda h ‹_› rfl rfl
  · exact hasFields_of_zd h ‹_› rfl rfl
  · exact hasFields_of_zda h ‹_› rfl rfl
  · exact hasFields_of_zda h ‹_› rfl rfl
  · exact hasFields_of_zda h ‹_› rfl rfl
  · exact hasFields_of_zda h ‹_› rfl rfl
  · exact hasFields_of_zda h ‹_› rfl rfl
  · exact hasFields_of_rj h ‹_› rfl (fun _ => rfl)
  · exact hasFields_of_rj h ‹_› rfl (fun _ => rfl)
  · exact hasFields_of_rj h ‹_› rfl (fun _ => rfl)
  · exact hasFields_of_rjD h ‹_› rfl (fun _ => rfl)
  · exact hasFields_of_rjD h ‹_› rfl (fun _ => rfl)
  · exact hasFields_of_rj h ‹_› rfl (fun _ => rfl)
  · cases h

theorem hasFields_of_decEng {m : Mods} {f : Fields} {i : Instr} (h : decEng m f = some (i, true)) : HasFields i m (60, f.d, f.a, f.b) := by
  unfold decEng at h
  split at h
  · exact hasFields_of_zd h ‹_› rfl rfl
  · exact hasFields_of_zd h ‹_› rfl rfl
  · exact hasFields_of_zd h ‹_› rfl rfl
  · exact hasFields_of_zd h ‹_› rfl rfl
  · exact hasFields_of_zd h ‹_› rfl rfl
  · exact hasFields_of_yes h ‹_› rfl rfl
  · exact hasFields_of_zd h ‹_› rfl rfl
  · exact hasFields_of_zd h ‹_› rfl rfl
  · exact hasFields_of_zda h ‹_› rfl rfl
  · exact hasFields_of_zd h ‹_› rfl rfl
  · exact hasFields_of_yes h ‹_› rfl rfl
  · exact hasFields_of_zd h ‹_› rfl rfl
  · exact hasFields_of_zda h ‹_› rfl rfl
  · exact hasFields_of_zd h ‹_› rfl rfl
  · exact hasFields_of_zd h ‹_› rfl rfl
  · exact hasFields_of_yes h ‹_› rfl rfl
  · exact hasFields_of_yes h ‹_› rfl rfl
  · exact hasFields_of_zd h ‹_› rfl rfl
  · exact hasFields_of_yes h ‹_› rfl rfl
  · exact hasFields_of_yes h ‹_› rfl rfl
  · exact hasFields_of_yes h ‹_› rfl rfl
  · exact hasFields_of_yes h ‹_› rfl rfl
  · exact hasFields_of_zd h ‹_› rfl rfl
  · exact hasFields_of_zd h ‹_› rfl rfl
  · split at h
    · have hz := of_decide_eq_false ‹decide (f.b.toNat / 4 % 2 = 1) = false›
      exact hasFields_of_yes h (by rw [toNat_decide_mod_two, toNat_decide_mod_two]; omega) rfl rfl
    · have hz := of_decide_eq_false ‹decide (f.b.toNat / 4 % 2 = 1) = false›
      exact hasFields_of_yes h (by rw [toNat_decide_mod_two, toNat_decide_mod_two]; omega) rfl rfl
    · exact hasFields_of_yes h (by rw [toNat_decide_mod_two, toNat_decide_mod_two, toNat_decide_mod_two]; omega) rfl rfl
    · exact hasFields_of_yes h (by rw [toNat_decide_mod_two, toNat_decide_mod_two, toNat_decide_mod_two]; omega) rfl rfl
    · cases h

theorem hasFields_of_decSync {m : Mods} {f : Fields} {i : Instr} (h : decSync m f = some (i, true)) : HasFields i m (59, f.d, f.a, f.b) := by
  unfold decSync at h
  split at h
  · exact hasFields_of_yes h ‹_› rfl rfl
  · exact hasFields_of_yes h ‹_› rfl rfl
  · simp only [Option.some.injEq, Prod.mk.injEq, decide_eq_true_eq] at h
    obtain ⟨rfl, ha⟩ := h
    refine ⟨rfl, ?_⟩
    show some (59, f.d, BitVec.ofNat 7 (scopeOf f.a.toNat).code, 0x40#7) = _
    rw [code_scopeOf ha, ← eq_ofNat_of_toNat rfl, ← eq_ofNat_of_toNat ‹_›]
  · exact hasFields_of_zd h ‹_› rfl rfl
  · exact hasFields_of_zd h ‹_› rfl rfl
  · exact hasFields_of_zd h ‹_› rfl rfl
  · exact hasFields_of_yes h ‹_› rfl rfl
  · exact hasFields_of_yes h ‹_› rfl rfl
  · exact hasFields_of_zd h ‹_› rfl rfl
  · exact hasFields_of_zd h ‹_› rfl rfl
  · exact hasFields_of_yes h ‹_› rfl rfl
  · exact hasFields_of_yes h ‹_› rfl rfl
  · exact hasFields_of_yes h ‹_› rfl rfl
  · exact hasFields_of_zd h ‹_› rfl rfl
  · exact hasFields_of_yes h ‹_› rfl rfl
  · exact hasFields_of_yes h ‹_› rfl rfl
  · exact hasFields_of_zd h ‹_› rfl rfl
  · split at h
    next ho _ => exact hasFields_of_yes h (by rw [toNat_decide_mod_two, code_of_atomOpOf ho]; omega) rfl rfl
    next ho _ => exact hasFields_of_yes h (by rw [toNat_decide_mod_two, code_of_atomOpOf ho]; omega) rfl rfl
    · cases h

theorem hasFields_of_decMem {m : Mods} {f : Fields} {i : Instr} (h : decMem m f = some (i, true)) : HasFields i m (58, f.d, f.a, f.b) := by
  unfold decMem at h
  split at h
  · exact hasFields_of_yes h ‹_› rfl rfl
  · exact hasFields_of_yes h ‹_› rfl rfl
  · exact hasFields_of_yes h ‹_› rfl rfl
  · exact hasFields_of_zd h ‹_› rfl rfl
  · split at h
    next hu ht hd =>
      have hd := of_decide_eq_false hd
      exact hasFields_of_yes h (by rw [toNat_decide_mod_two, code_of_spaceOf hu, code_of_memTypeOf ht]; omega) rfl rfl
    next hu ht hd =>
      have hd := of_decide_eq_true hd
      exact hasFields_of_yes h (by rw [toNat_decide_mod_two, code_of_spaceOf hu, code_of_memTypeOf ht]; omega) rfl rfl
    · cases h

theorem hasFields_of_decIntb {m : Mods} {f : Fields} {i : Instr} (h : decIntb m f = some (i, true)) : HasFields i m (23, f.d, f.a, f.b) := by
  unfold decIntb at h
  split at h
  · exact hasFields_of_yes h ‹_› rfl rfl
  · exact hasFields_of_yes h ‹_› rfl rfl
  · exact hasFields_of_yes h ‹_› rfl rfl
  · exact hasFields_of_yes h ‹_› rfl rfl
  · exact hasFields_of_yes h ‹_› rfl rfl
  · exact hasFields_of_yes h ‹_› rfl rfl
  · exact hasFields_of_yes h ‹_› rfl rfl
  · exact hasFields_of_yes h ‹_› rfl rfl
  · exact hasFields_of_yes h ‹_› rfl rfl
  · exact hasFields_of_yes h ‹_› rfl rfl
  · exact hasFields_of_yes h ‹_› rfl rfl
  · exact hasFields_of_yes h ‹_› rfl rfl
  · exact hasFields_of_yes h ‹_› rfl rfl
  · exact hasFields_of_yes h ‹_› rfl rfl
  · exact hasFields_of_yes h ‹_› rfl rfl
  · exact hasFields_of_yes h ‹_› rfl rfl
  · exact hasFields_of_yes h ‹_› rfl rfl
  · exact hasFields_of_yes h ‹_› rfl rfl
  · exact hasFields_of_yes h ‹_› rfl rfl
  · exact hasFields_of_yes h ‹_› rfl rfl
  · split at h
    · exact hasFields_of_yes h (by rw [code_iTypeOf (by omega)]; omega) rfl rfl
    · exact hasFields_of_yes h (by rw [code_iTypeOf (by omega)]; omega) rfl rfl
    · exact hasFields_of_yes h (by rw [code_iTypeOf (by omega)]; omega) rfl rfl
    · exact hasFields_of_yes h (by rw [code_iTypeOf (by omega)]; omega) rfl rfl
    · exact hasFields_of_yes h (by rw [code_iTypeOf (by omega)]; omega) rfl rfl
    · exact hasFields_of_yes h (by rw [code_iTypeOf (by omega)]; omega) rfl rfl
    · cases h
theorem hasFields_of_decFpa {m : Mods} {f : Fields} {i : Instr} (h : decFpa m f = some (i, true)) : HasFields i m (40, f.d, f.a, f.b) := by
  unfold decFpa at h
  split at h
  next ht => exact hasFields_of_yes h (by rw [code_of_fFmtOf ht]; omega) rfl rfl
  next ht => exact hasFields_of_yes h (by rw [code_of_fFmtOf ht]; omega) rfl rfl
  next ht => exact hasFields_of_yes h (by rw [code_of_fFmtOf ht]; omega) rfl rfl
  next ht => exact hasFields_of_yes h (by rw [code_of_fFmtOf ht]; omega) rfl rfl
  next ht => exact hasFields_of_yes h (by rw [code_of_fFmtOf ht]; omega) rfl rfl
  next ht => exact hasFields_of_yes h (by rw [code_of_fFmtOf ht]; omega) rfl rfl
  next ht => exact hasFields_of_yes h (by rw [code_of_fFmtOf ht]; omega) rfl rfl
  next ht => exact hasFields_of_yes h (by rw [code_of_fFmtOf ht]; omega) rfl rfl
  next ht => exact hasFields_of_yes h (by rw [code_of_fFmtOf ht]; omega) rfl rfl
  next ht => exact hasFields_of_yes h (by rw [code_of_fFmtOf ht]; omega) rfl rfl
  next ht => exact hasFields_of_yes h (by rw [code_of_fFmtOf ht]; omega) rfl rfl
  next ht => exact hasFields_of_yes h (by rw [code_of_fFmtOf ht]; omega) rfl rfl
  next ht => exact hasFields_of_yes h (by rw [code_of_fFmtOf ht]; omega) rfl rfl
  next ht => exact hasFields_of_yes h (by rw [code_of_fFmtOf ht]; omega) rfl rfl
  · cases h
theorem hasFields_of_decFpb {m : Mods} {f : Fields} {i : Instr} (h : decFpb m f = some (i, true)) : HasFields i m (41, f.d, f.a, f.b) := by
  unfold decFpb at h
  split at h
  next ht => exact hasFields_of_yes h (by rw [code_of_fFmtOf ht]; omega) rfl rfl
  next ht => exact hasFields_of_yes h (by rw [code_of_fFmtOf ht]; omega) rfl rfl
  next ht => exact hasFields_of_yes h (by rw [code_of_fFmtOf ht]; omega) rfl rfl
  next ht => exact hasFields_of_yes h (by rw [code_of_fFmtOf ht]; omega) rfl rfl
  next ht => exact hasFields_of_yes h (by rw [code_of_fFmtOf ht]; omega) rfl rfl
  next ht => exact hasFields_of_yes h (by rw [code_of_fFmtOf ht]; omega) rfl rfl
  next ht => exact hasFields_of_yes h (by rw [code_of_fFmtOf ht]; omega) rfl rfl
  next ht => exact hasFields_of_yes h (by rw [code_of_fFmtOf ht]; omega) rfl rfl
  next ht => exact hasFields_of_yes h (by rw [code_of_fFmtOf ht]; omega) rfl rfl
  next ht => exact hasFields_of_yes h (by rw [code_of_fFmtOf ht]; omega) rfl rfl
  · cases h
theorem hasFields_of_decInta {m : Mods} {f : Fields} {i : Instr} (h : decInta m f = some (i, true)) : HasFields i m (22, f.d, f.a, f.b) := by
  unfold decInta at h
  split at h
  · exact hasFields_of_yes h (by rw [toNat_decide_mod_two]; omega) rfl rfl
  · exact hasFields_of_yes h (by rw [toNat_decide_mod_two]; omega) rfl rfl
  · exact hasFields_of_yes h (by rw [toNat_decide_mod_two]; omega) rfl rfl
  · exact hasFields_of_yes h (by rw [toNat_decide_mod_two]; omega) rfl rfl
  · exact hasFields_of_yes h (by rw [toNat_decide_mod_two]; omega) rfl rfl
  · exact hasFields_of_yes h (by rw [toNat_decide_mod_two]; omega) rfl rfl
  · exact hasFields_of_yes h (by rw [toNat_decide_mod_two]; omega) rfl rfl
  · cases h
theorem hasFields_of_decCvt {m : Mods} {f : Fields} {i : Instr} (h : decCvt m f = some (i, true)) : HasFields i m (42, f.d, f.a, f.b) := by
  unfold decCvt at h
  split at h
  · exact hasFields_of_yes h (by rw [code_cvtTypeOf (by omega), code_cvtTypeOf (by omega)]; omega) rfl rfl
  split at h
  · exact hasFields_of_yes h (by rw [code_packOf (by omega)]; omega) rfl rfl
  · cases h
theorem hasFields_of_decXl {m : Mods} {f : Fields} {i : Instr} (h : decXl m f = some (i, true)) : HasFields i m (43, f.d, f.a, f.b) := by
  unfold decXl at h
  split at h
  · exact hasFields_of_yes h (by rw [code_redOpOf (by omega), code_redTypeOf (by omega)]; omega) rfl rfl
  split at h
  · split at h
    next ho => exact hasFields_of_yes h (by rw [toNat_decide_mod_two, code_of_scanOpOf ho, code_redTypeOf (by omega)]; omega) rfl rfl
    · cases h
  split at h
  · exact hasFields_of_yes h ‹_› rfl rfl
  · exact hasFields_of_yes h ‹_› rfl rfl
  · exact hasFields_of_yes h ‹_› rfl rfl
  · exact hasFields_of_yes h ‹_› rfl rfl
  · exact hasFields_of_yes h ‹_› rfl rfl
  · exact hasFields_of_yes h ‹_› rfl rfl
  · exact hasFields_of_yes h ‹_› rfl rfl
  · exact hasFields_of_yes h ‹_› rfl rfl
  · exact hasFields_of_yes h ‹_› rfl rfl
  · exact hasFields_of_yes h ‹_› rfl rfl
  · cases h
theorem hasFields_of_decShi {m : Mods} {f : Fields} {i : Instr} (h : decShi m f = some (i, true)) : HasFields i m (19, f.d, f.a, f.b) := by
  cases h
  refine ⟨rfl, ?_⟩
  have hb : BitVec.ofNat 2 (shOpOf (f.b.toNat / 32)).code ++ BitVec.ofNat 5 f.b.toNat = f.b := by
    have hlt := (BitVec.ofNat 5 f.b.toNat).isLt
    refine BitVec.eq_of_toNat_eq ?_
    rw [BitVec.toNat_append, ← Nat.shiftLeft_add_eq_or_of_lt hlt, Nat.shiftLeft_eq, code_shOpOf (by omega), BitVec.toNat_ofNat, BitVec.toNat_ofNat]
    omega
  show some (19, f.d, f.a, BitVec.ofNat 2 (shOpOf (f.b.toNat / 32)).code ++ BitVec.ofNat 5 f.b.toNat) = _
  rw [hb]
theorem hasFields_of_decPred {m : Mods} {f : Fields} {i : Instr} (h : decPred m f = some (i, true)) : HasFields i m (24, f.d, f.a, f.b) := by
  unfold decPred at h
  split at h
  · exact hasFields_of_yes h ‹_› rfl rfl
  · simp only [Option.some.injEq, Prod.mk.injEq, decide_eq_true_eq] at h
    obtain ⟨rfl, ha⟩ := h
    refine ⟨rfl, ?_⟩
    show some (24, f.d, BitVec.ofNat 7 (f.a.getLsbD 0).toNat, 0x01#7) = _
    have h0 : (f.a.getLsbD 0).toNat = f.a.toNat := by
      rw [BitVec.getLsbD, Nat.testBit_zero, toNat_decide_mod_two]
      omega
    rw [h0, ← eq_ofNat_of_toNat rfl, ← eq_ofNat_of_toNat ‹_›]
  · simp only [Option.some.injEq, Prod.mk.injEq, decide_eq_true_eq] at h
    obtain ⟨rfl, ha⟩ := h
    refine ⟨rfl, ?_⟩
    show some (24, f.d, (f.a.setWidth 2).setWidth 7, 0x02#7) = _
    rw [setWidth_setWidth_of_lt (k := 2) ha, ← eq_ofNat_of_toNat ‹_›]
  · simp only [Option.some.injEq, Prod.mk.injEq, decide_eq_true_eq] at h
    obtain ⟨rfl, hd⟩ := h
    refine ⟨rfl, ?_⟩
    show some (24, (f.d.setWidth 2).setWidth 7, f.a, 0x03#7) = _
    rw [setWidth_setWidth_of_lt (k := 2) hd, ← eq_ofNat_of_toNat ‹_›]
  · exact hasFields_of_yes h ‹_› rfl rfl
  · cases h
/-- The low seven bits of a control register's number are A, the others the low five of B. -/
theorem fields_csr (f : Fields) : f.csr.extractLsb' 0 7 = f.a ∧ f.csr.extractLsb' 7 5 = f.b.setWidth 5 := by
  refine ⟨BitVec.extractLsb'_append_eq_right, BitVec.eq_of_getLsbD_eq fun j hj => ?_⟩
  simp only [Fields.csr, BitVec.getLsbD_append, BitVec.getLsbD_extractLsb']
  interval_cases j <;> rfl
theorem append_setWidth_of_div {b : Reg} {k : Nat} (h : b.toNat / 32 = k) : BitVec.ofNat 2 k ++ b.setWidth 5 = b := by
  have hlt := (b.setWidth 5).isLt
  refine BitVec.eq_of_toNat_eq ?_
  rw [BitVec.toNat_append, ← Nat.shiftLeft_add_eq_or_of_lt hlt, Nat.shiftLeft_eq, BitVec.toNat_ofNat, BitVec.toNat_setWidth]
  omega
theorem hasFields_of_decCsr {m : Mods} {f : Fields} {i : Instr} (h : decCsr m f = some (i, true)) : HasFields i m (62, f.d, f.a, f.b) := by
  obtain ⟨ha, hb⟩ := fields_csr f
  unfold decCsr at h
  split at h
  next hk =>
    cases h
    refine ⟨rfl, ?_⟩
    show some (62, f.d, f.csr.extractLsb' 0 7, 0#2 ++ f.csr.extractLsb' 7 5) = _
    rw [ha, hb, append_setWidth_of_div hk]
  next hk =>
    cases h
    refine ⟨rfl, ?_⟩
    show some (62, f.d, f.csr.extractLsb' 0 7, 1#2 ++ f.csr.extractLsb' 7 5) = _
    rw [ha, hb, append_setWidth_of_div hk]
  next hk =>
    cases h
    refine ⟨rfl, ?_⟩
    show some (62, f.d, f.csr.extractLsb' 0 7, 2#2 ++ f.csr.extractLsb' 7 5) = _
    rw [ha, hb, append_setWidth_of_div hk]
  · cases h
theorem hasFields_of_eq {i j : Instr} {m : Mods} {x y : Nat × Reg × Reg × Reg} (h : yes i = some (j, true)) (hm : i.mods = some m) (hf : i.fields = some x) (he : x = y) :
    HasFields j m y := by
  cases h
  exact ⟨hm, he ▸ hf⟩
theorem imm14_parts (f : Fields) : f.imm14.extractLsb' 0 7 = f.a ∧ f.imm14.extractLsb' 7 7 = f.b := by
  refine ⟨BitVec.extractLsb'_append_eq_right, BitVec.eq_of_getLsbD_eq fun j hj => ?_⟩
  simp only [Fields.imm14, BitVec.getLsbD_append, BitVec.getLsbD_extractLsb']
  interval_cases j <;> rfl
theorem fq_parts (f : Fields) : BitVec.ofBool f.fqW ++ f.fqP = f.d := by
  refine BitVec.eq_of_getLsbD_eq fun j hj => ?_
  simp only [Fields.fqW, Fields.fqP, BitVec.getLsbD_append, BitVec.getLsbD_setWidth, BitVec.getLsbD_ofBool]
  interval_cases j <;> rfl
theorem off13_parts (f : Fields) : f.off13.extractLsb' 0 6 ++ BitVec.ofBool f.fnegB = f.a ∧ f.off13.extractLsb' 6 7 = f.b := by
  refine ⟨BitVec.eq_of_getLsbD_eq fun j hj => ?_, BitVec.eq_of_getLsbD_eq fun j hj => ?_⟩ <;>
    simp only [Fields.off13, Fields.fnegB, BitVec.getLsbD_append, BitVec.getLsbD_extractLsb', BitVec.getLsbD_ofBool] <;>
    interval_cases j <;> rfl
/-- What the tables name has the fields that they read. -/
theorem hasFields_of_nameBase {m : Mods} {f : Fields} {i : Instr} (h : nameBase m f = some (i, true)) : HasFields i m (f.maj.toNat, f.d, f.a, f.b) := by
  unfold nameBase at h
  split at h
  next hm =>
    rw [hm]
    exact hasFields_of_eq h rfl rfl rfl
  next hm =>
    rw [hm]
    exact hasFields_of_eq h rfl rfl rfl
  next hm =>
    rw [hm]
    exact hasFields_of_eq h rfl rfl rfl
  next hm =>
    rw [hm]
    exact hasFields_of_eq h rfl rfl rfl
  next hm =>
    rw [hm]
    exact hasFields_of_eq h rfl rfl rfl
  next hm =>
    rw [hm]
    exact hasFields_of_eq h rfl rfl rfl
  next hm =>
    rw [hm]
    exact hasFields_of_eq h rfl rfl rfl
  next hm =>
    rw [hm]
    exact hasFields_of_eq h rfl rfl rfl
  next hm =>
    rw [hm]
    exact hasFields_of_eq h rfl rfl rfl
  next hm =>
    rw [hm]
    exact hasFields_of_eq h rfl rfl rfl
  next hm =>
    rw [hm]
    exact hasFields_of_eq h rfl rfl rfl
  next hm =>
    rw [hm]
    exact hasFields_of_eq h rfl rfl rfl
  next hm =>
    rw [hm]
    exact hasFields_of_eq h rfl rfl rfl
  next hm =>
    rw [hm]
    exact hasFields_of_eq h rfl rfl rfl
  next hm =>
    rw [hm]
    exact hasFields_of_eq h rfl rfl rfl
  next hm =>
    rw [hm]
    exact hasFields_of_eq h rfl rfl rfl
  next hm =>
    rw [hm]
    exact hasFields_of_eq h rfl rfl rfl
  next hm =>
    rw [hm]
    exact hasFields_of_eq h rfl rfl rfl
  next hm =>
    rw [hm]
    exact hasFields_of_decShi h
  next hm =>
    split at h
    · rw [hm]
      exact hasFields_of_eq h rfl rfl (by rw [(imm14_parts f).1, (imm14_parts f).2])
    · rw [hm]
      exact hasFields_of_eq h rfl rfl (by rw [(imm14_parts f).1, (imm14_parts f).2])
  next hm =>
    rw [hm]
    exact hasFields_of_eq h rfl rfl (by rw [(imm14_parts f).1, (imm14_parts f).2])
  next hm =>
    rw [hm]
    exact hasFields_of_decInta h
  next hm =>
    rw [hm]
    exact hasFields_of_decIntb h
  next hm =>
    rw [hm]
    exact hasFields_of_decPred h
  next hm =>
    rw [hm]
    exact hasFields_of_eq h rfl rfl (by rw [fq_parts])
  next hm =>
    rw [hm]
    exact hasFields_of_eq h rfl rfl (by rw [fq_parts])
  next hm =>
    rw [hm]
    exact hasFields_of_eq h rfl rfl (by rw [fq_parts])
  next hm =>
    rw [hm]
    exact hasFields_of_eq h rfl rfl (by rw [fq_parts])
  next hm =>
    rw [hm]
    exact hasFields_of_eq h rfl rfl rfl
  next hm =>
    rw [hm]
    exact hasFields_of_eq h rfl rfl rfl
  next hm =>
    rw [hm]
    exact hasFields_of_eq h rfl rfl rfl
  next hm =>
    rw [hm]
    exact hasFields_of_eq h rfl rfl rfl
  next hm =>
    rw [hm]
    exact hasFields_of_eq h rfl rfl rfl
  next hm =>
    rw [hm]
    exact hasFields_of_eq h rfl rfl rfl
  next hm =>
    rw [hm]
    exact hasFields_of_eq h rfl rfl rfl
  next hm =>
    rw [hm]
    exact hasFields_of_eq h rfl rfl (by rw [fq_parts])
  next hm =>
    rw [hm]
    exact hasFields_of_eq h rfl rfl (by rw [fq_parts])
  next hm =>
    rw [hm]
    exact hasFields_of_eq h rfl rfl (by rw [fq_parts])
  next hm =>
    rw [hm]
    exact hasFields_of_eq h rfl rfl (by rw [fq_parts])
  next hm =>
    rw [hm]
    exact hasFields_of_decFpa h
  next hm =>
    rw [hm]
    exact hasFields_of_decFpb h
  next hm =>
    rw [hm]
    exact hasFields_of_decCvt h
  next hm =>
    rw [hm]
    exact hasFields_of_decXl h
  next hm =>
    rw [hm]
    exact hasFields_of_eq h rfl rfl (by rw [(off13_parts f).1, (off13_parts f).2])
  next hm =>
    rw [hm]
    exact hasFields_of_eq h rfl rfl (by rw [(off13_parts f).1, (off13_parts f).2])
  next hm =>
    rw [hm]
    exact hasFields_of_decCtl h
  next hm =>
    rw [hm]
    exact hasFields_of_eq h rfl rfl rfl
  next hm =>
    rw [hm]
    exact hasFields_of_eq h rfl rfl rfl
  next hm =>
    rw [hm]
    exact hasFields_of_eq h rfl rfl rfl
  next hm =>
    rw [hm]
    exact hasFields_of_eq h rfl rfl rfl
  next hm =>
    rw [hm]
    exact hasFields_of_eq h rfl rfl rfl
  next hm =>
    rw [hm]
    exact hasFields_of_eq h rfl rfl rfl
  next hm =>
    rw [hm]
    exact hasFields_of_eq h rfl rfl rfl
  next hm =>
    rw [hm]
    exact hasFields_of_eq h rfl rfl rfl
  next hm =>
    rw [hm]
    exact hasFields_of_decMem h
  next hm =>
    rw [hm]
    exact hasFields_of_decSync h
  next hm =>
    rw [hm]
    exact hasFields_of_decEng h
  next hm =>
    rw [hm]
    exact hasFields_of_decSys h
  next hm =>
    rw [hm]
    exact hasFields_of_decCsr h
  · cases h

end Sys2Proof
end

