-- ==== Sys2Proof/Proofs/EncodingRoundTrip.lean ====
section
/-! SUPPORT. Decode and encode undo each other (R67 to R103). -/

namespace Sys2Proof

/-! ### Words and their fields -/

theorem Fields.ofWord_toWord (f : Fields) : Fields.ofWord f.toWord = f := by
  obtain ⟨kind, c, s, maj, d, a, b⟩ := f
  simp only [Fields.ofWord, Fields.toWord, Fields.mk.injEq]
  refine ⟨?_, ?_, ?_, ?_, ?_, ?_, ?_⟩
  case refine_2 =>
    simp only [BitVec.getLsbD_append, BitVec.getLsbD_ofBool]
    rfl
  all_goals
    refine BitVec.eq_of_getLsbD_eq fun j hj => ?_
    simp only [BitVec.getLsbD_append, BitVec.getLsbD_extractLsb', BitVec.getLsbD_ofBool]
    interval_cases j <;> rfl
theorem Fields.toWord_ofWord (w : W32) : (Fields.ofWord w).toWord = w := by
  refine BitVec.eq_of_getLsbD_eq fun j hj => ?_
  simp only [Fields.ofWord, Fields.toWord, BitVec.getLsbD_append, BitVec.getLsbD_extractLsb', BitVec.getLsbD_ofBool]
  interval_cases j <;> rfl
theorem Opt.bits_toWord (o : Opt) :
    o.toWord.getLsbD 24 = o.sat ∧ o.toWord.getLsbD 23 = o.een ∧ o.toWord.getLsbD 15 = o.z ∧ o.toWord.getLsbD 11 = o.ge ∧ o.toWord.getLsbD 10 = o.gn := by
  simp only [Opt.toWord, BitVec.getLsbD_append, BitVec.getLsbD_ofBool]
  exact ⟨rfl, rfl, rfl, rfl, rfl⟩
theorem Opt.parts_toWord (o : Opt) :
    o.toWord.extractLsb' 16 7 = o.e ∧ o.toWord.extractLsb' 12 3 = o.rnd ∧ o.toWord.extractLsb' 3 7 = o.gp ∧ o.toWord.extractLsb' 25 7 = 0#7 := by
  refine ⟨?_, ?_, ?_, ?_⟩
  all_goals
    refine BitVec.eq_of_getLsbD_eq fun j hj => ?_
    simp only [Opt.toWord, BitVec.getLsbD_append, BitVec.getLsbD_extractLsb', BitVec.getLsbD_ofBool]
    interval_cases j <;> rfl
theorem optOf_toWord (o : Opt) : optOf o.toWord = (o, true) := by
  obtain ⟨hsat, heen, hz, hge, hgn⟩ := o.bits_toWord
  obtain ⟨he, hrnd, hgp, hrz⟩ := o.parts_toWord
  unfold optOf
  rw [hsat, heen, hz, hge, hgn, he, hrnd, hgp, hrz]
  rfl
theorem litOf_litWord (l : BitVec 29) : litOf (litWord l) = l := by
  refine BitVec.eq_of_getLsbD_eq fun j hj => ?_
  simp only [litOf, litWord, BitVec.getLsbD_append, BitVec.getLsbD_extractLsb']
  interval_cases j <;> rfl

/-! ### The kind of a word -/

theorem getLsbD_two (w : W32) : w.getLsbD 2 = decide (w.toNat / 4 % 2 = 1) := by
  rw [BitVec.getLsbD, Nat.testBit_eq_decide_div_mod_eq]
theorem toNat_of_kindOf_base {w : W32} (h : kindOf w = .base) : w.toNat % 4 = 0 := by
  unfold kindOf at h
  split at h
  · assumption
  · split at h <;> cases h
  · cases h
  · cases h
theorem toNat_of_kindOf_optW {w : W32} (h : kindOf w = .optW) : w.toNat % 8 = 1 := by
  unfold kindOf at h
  split at h
  · cases h
  · split at h
    · cases h
    next hb =>
    rw [getLsbD_two, decide_eq_true_eq] at hb
    omega
  · cases h
  · cases h
theorem toNat_of_kindOf_litW {w : W32} (h : kindOf w = .litW) : w.toNat % 8 = 5 := by
  unfold kindOf at h
  split at h
  · cases h
  · split at h
    next hb =>
      rw [getLsbD_two, decide_eq_true_eq] at hb
      omega
    · cases h
  · cases h
  · cases h
theorem kindOf_base_of_toNat {w : W32} (h : w.toNat % 4 = 0) : kindOf w = .base := by
  unfold kindOf
  rw [h] <;> rfl
theorem kindOf_optW_of_toNat {w : W32} (h : w.toNat % 8 = 1) : kindOf w = .optW := by
  unfold kindOf
  rw [show w.toNat % 4 = 1 by omega, getLsbD_two, show w.toNat / 4 % 2 = 0 by omega] <;> rfl
theorem kindOf_litW_of_toNat {w : W32} (h : w.toNat % 8 = 5) : kindOf w = .litW := by
  unfold kindOf
  rw [show w.toNat % 4 = 1 by omega, getLsbD_two, show w.toNat / 4 % 2 = 1 by omega] <;> rfl
theorem toNat_append_mod {n k : Nat} (x : BitVec n) (y : BitVec k) : (x ++ y).toNat % 2 ^ k = y.toNat := by
  simpa using congrArg BitVec.toNat (BitVec.setWidth_append_eq_right (a := x) (b := y))
theorem kindOf_toWord {f : Fields} (h : f.kind = 0#2) : kindOf f.toWord = .base :=
  kindOf_base_of_toNat ((toNat_append_mod _ f.kind).trans (h ▸ rfl))
theorem kindOf_optWord (o : Opt) : kindOf o.toWord = .optW := kindOf_optW_of_toNat (toNat_append_mod _ 1#3)
theorem kindOf_litWord (l : BitVec 29) : kindOf (litWord l) = .litW := kindOf_litW_of_toNat (toNat_append_mod l 5#3)
theorem kind_ofWord {w : W32} (h : kindOf w = .base) : (Fields.ofWord w).kind = 0#2 :=
  BitVec.eq_of_toNat_eq (by simpa [Fields.ofWord] using toNat_of_kindOf_base h)
theorem toWord_optOf {w : W32} (hk : kindOf w = .optW) (hz : (optOf w).2 = true) : (optOf w).1.toWord = w := by
  have hlow : w.extractLsb' 0 3 = 1#3 := BitVec.eq_of_toNat_eq (by simpa using toNat_of_kindOf_optW hk)
  have hhigh : w.extractLsb' 25 7 = 0#7 := eq_of_beq hz
  have hparts : (optOf w).1.toWord = w.extractLsb' 25 7 ++ BitVec.ofBool (w.getLsbD 24) ++ BitVec.ofBool (w.getLsbD 23) ++ w.extractLsb' 16 7 ++
      BitVec.ofBool (w.getLsbD 15) ++ w.extractLsb' 12 3 ++ BitVec.ofBool (w.getLsbD 11) ++ BitVec.ofBool (w.getLsbD 10) ++ w.extractLsb' 3 7 ++
      w.extractLsb' 0 3 := by
    rw [hlow, hhigh]
    rfl
  rw [hparts]
  refine BitVec.eq_of_getLsbD_eq fun j hj => ?_
  simp only [BitVec.getLsbD_append, BitVec.getLsbD_extractLsb', BitVec.getLsbD_ofBool]
  interval_cases j <;> rfl
theorem litWord_litOf {w : W32} (hk : kindOf w = .litW) : litWord (litOf w) = w := by
  have hlow : w.extractLsb' 0 3 = 5#3 := BitVec.eq_of_toNat_eq (by simpa using toNat_of_kindOf_litW hk)
  rw [litWord, litOf, ← hlow]
  refine BitVec.eq_of_getLsbD_eq fun j hj => ?_
  simp only [BitVec.getLsbD_append, BitVec.getLsbD_extractLsb']
  interval_cases j <;> rfl

/-! ### Base words -/

/-- The option and literal words are ones that the instruction accepts. -/
theorem wf_iff {i : Instr} {m : Mods} (hm : i.mods = some m) :
    i.wf = true ↔ i.formOk = true ∧ pfxOk i.acc m = true ∧ modsRsvdOk i.acc m = true := by
  unfold Instr.wf
  rw [hm]
  simp only [Bool.and_eq_true]
theorem wf_of_nameBase {m : Mods} {f : Fields} {i : Instr} (h : nameBase m f = some (i, true)) :
    i.wf = true ↔ i.formOk = true ∧ pfxOk i.acc m = true ∧ modsRsvdOk i.acc m = true := wf_iff (hasFields_of_nameBase h).1
/-- A base word that decodes is named by its tables, and well formed. -/
theorem of_decodeWord_eq_ok {opt : Option Opt} {rz : Bool} {lit : Option (BitVec 29)} {w : W32} {i : Instr} (h : decodeWord opt rz lit w = .ok i) :
    nameBase ⟨opt, lit, (Fields.ofWord w).s, (Fields.ofWord w).c⟩ (Fields.ofWord w) = some (i, true) ∧ rz = true ∧ i.wf = true := by
  unfold decodeWord at h
  dsimp only at h
  split at h
  · cases h
  next j zok hn =>
  split at h
  · cases h
  next hform =>
  split at h
  · cases h
  next hpfx =>
  split at h
  · cases h
  next hrsv =>
  cases h
  simp only [Bool.not_eq_true', Bool.not_eq_false, Bool.and_eq_true] at hform hpfx hrsv
  obtain ⟨⟨rfl, rfl⟩, hmods⟩ := hrsv
  exact ⟨hn, rfl, (wf_of_nameBase hn).2 ⟨hform, hpfx, hmods⟩⟩
theorem decodeWord_eq_ok {opt : Option Opt} {lit : Option (BitVec 29)} {w : W32} {i : Instr}
    (hn : nameBase ⟨opt, lit, (Fields.ofWord w).s, (Fields.ofWord w).c⟩ (Fields.ofWord w) = some (i, true)) (hwf : i.wf = true) :
    decodeWord opt true lit w = .ok i := by
  obtain ⟨hform, hpfx, hmods⟩ := (wf_of_nameBase hn).1 hwf
  unfold decodeWord
  dsimp only
  rw [hn]
  simp only [hform, hpfx, hmods, Bool.not_true, Bool.and_self, Bool.false_eq_true, if_false]
/-- `bra` and `call` take no words before them (R75). -/
theorem isFB_eq_false {m : Mods} {w : W32} {i : Instr} (hn : nameBase m (Fields.ofWord w) = some (i, true)) (hwf : i.wf = true)
    (hm : m.opt.isSome = true ∨ m.lit.isSome = true) : isFB w = false := by
  obtain ⟨-, hpfx, -⟩ := (wf_of_nameBase hn).1 hwf
  have hnone : pfxOk accNone m = false := by
    unfold pfxOk
    rcases hm with h | h
    · obtain ⟨o, ho⟩ := Option.isSome_iff_exists.1 h
      rw [ho]
      rfl
    · obtain ⟨l, hl⟩ := Option.isSome_iff_exists.1 h
      rw [hl, Bool.and_eq_false_iff]
      exact .inr rfl
  have hmaj : ∀ n, n = 47 ∨ n = 48 → (Fields.ofWord w).maj.toNat ≠ n := by
    rintro n hor hmaj
    have hacc : i.acc = accNone := by
      unfold nameBase at hn
      rcases hor with rfl | rfl <;> rw [hmaj] at hn <;> cases hn <;> rfl
    rw [hacc, hnone] at hpfx
    cases hpfx
  unfold isFB
  rw [Bool.or_eq_false_iff]
  exact ⟨beq_eq_false_iff_ne.2 (hmaj 47 (.inl rfl)), beq_eq_false_iff_ne.2 (hmaj 48 (.inr rfl))⟩

/-! ### Words of an instruction -/

/-- The base word of an instruction, from its fields. -/
def baseWord (m : Mods) (x : Nat × Reg × Reg × Reg) : W32 := Fields.toWord ⟨0#2, m.c, m.s, BitVec.ofNat 6 x.1, x.2.1, x.2.2.1, x.2.2.2⟩
theorem encode_eq {i : Instr} {m : Mods} {x : Nat × Reg × Reg × Reg} (h : HasFields i m x) :
    encode i = (m.opt.map Opt.toWord).toList ++ (m.lit.map litWord).toList ++ [baseWord m x] := by
  obtain ⟨maj, d, a, b⟩ := x
  obtain ⟨opt, lit, s, c⟩ := m
  unfold encode
  rw [h.1, h.2]
  cases opt <;> cases lit <;> rfl
theorem fields_of_mods {i : Instr} (hwf : i.wf = true) {m : Mods} (hm : i.mods = some m) : ∃ x, HasFields i m x ∧ NamedBy i x := by
  have h := fieldsName_of_wf i hwf
  unfold FieldsName at h
  split at h
  next x hx => exact ⟨x, ⟨hm, hx⟩, h⟩
  · rw [hm] at h
    cases h
/-- The words of a well-formed instruction decode to it. -/
theorem decodeInsn_encode {i : Instr} {m : Mods} (hm : i.mods = some m) (hwf : i.wf = true) (ws : List W32) :
    decodeInsn (encode i ++ ws) = (.ok i, (encode i).length) := by
  obtain ⟨x, hx, hname⟩ := fields_of_mods hwf hm
  have hf : Fields.ofWord (baseWord m x) = ⟨0#2, m.c, m.s, BitVec.ofNat 6 x.1, x.2.1, x.2.2.1, x.2.2.2⟩ := Fields.ofWord_toWord _
  have hbase : kindOf (baseWord m x) = .base := kindOf_toWord rfl
  have hn : nameBase m (Fields.ofWord (baseWord m x)) = some (i, true) := hf ▸ hname 0#2 m.c m.s m hm
  have hd : decodeWord m.opt true m.lit (baseWord m x) = .ok i := decodeWord_eq_ok (by rw [hf]; exact hname 0#2 m.c m.s m hm) hwf
  rw [encode_eq hx]
  obtain ⟨opt, lit, s, c⟩ := m
  cases opt with
  | none => cases lit with
    | none => simp [decodeInsn, hbase, hd]
    | some l =>
      have hb : isFB (baseWord ⟨none, some l, s, c⟩ x) = false := isFB_eq_false hn hwf (.inr rfl)
      have hs : (nameBase ⟨none, some l, (Fields.ofWord (baseWord ⟨none, some l, s, c⟩ x)).s, (Fields.ofWord (baseWord ⟨none, some l, s, c⟩ x)).c⟩
          (Fields.ofWord (baseWord ⟨none, some l, s, c⟩ x))).isNone = false := by
        rw [hf] at hn ⊢
        exact hn ▸ rfl
      simp [decodeInsn, kindOf_litWord, hbase, litOf_litWord, hb, hs, hd]
  | some o =>
    have hb : isFB (baseWord ⟨some o, lit, s, c⟩ x) = false := isFB_eq_false hn hwf (.inl rfl)
    cases lit with
    | none => simp [decodeInsn, kindOf_optWord, hbase, optOf_toWord, hb, hd]
    | some l => simp [decodeInsn, kindOf_optWord, kindOf_litWord, hbase, optOf_toWord, litOf_litWord, hb, hd]
theorem length_encode {i : Instr} {m : Mods} (hm : i.mods = some m) (hwf : i.wf = true) : 1 ≤ (encode i).length ∧ (encode i).length ≤ 3 := by
  obtain ⟨x, hx, -⟩ := fields_of_mods hwf hm
  rw [encode_eq hx]
  cases m.opt <;> cases m.lit <;> simp

/-! ### From words to an instruction and back -/

/-- The words before a base word that decodes, and the base word, are those that encode the instruction. -/
theorem encode_of_decodeWord {opt : Option Opt} {rz : Bool} {lit : Option (BitVec 29)} {w : W32} {i : Instr} (hk : kindOf w = .base)
    (h : decodeWord opt rz lit w = .ok i) :
    i.mods.isSome = true ∧ i.wf = true ∧ rz = true ∧ encode i = (opt.map Opt.toWord).toList ++ (lit.map litWord).toList ++ [w] := by
  obtain ⟨hn, hz, hwf⟩ := of_decodeWord_eq_ok h
  have hx := hasFields_of_nameBase hn
  refine ⟨hx.1 ▸ rfl, hwf, hz, ?_⟩
  have hb : baseWord ⟨opt, lit, (Fields.ofWord w).s, (Fields.ofWord w).c⟩
      ((Fields.ofWord w).maj.toNat, (Fields.ofWord w).d, (Fields.ofWord w).a, (Fields.ofWord w).b) = w := by
    unfold baseWord
    rw [← kind_ofWord hk, BitVec.ofNat_toNat, BitVec.setWidth_eq]
    exact Fields.toWord_ofWord w
  rw [encode_eq hx, hb]
theorem afterTwo_ne_ok (ws : List W32) (i : Instr) (n : Nat) : afterTwo ws ≠ (.ok i, n) := by
  unfold afterTwo
  split
  · exact nofun
  · split <;> exact nofun
/-- The words that decode to an instruction are the ones that encode it. -/
theorem encode_of_decodeInsn {ws : List W32} {i : Instr} {n : Nat} (h : decodeInsn ws = (.ok i, n)) :
    i.mods.isSome = true ∧ i.wf = true ∧ encode i = ws.take n := by
  unfold decodeInsn at h
  split at h
  · cases h
  next w r =>
  split at h
  · cases h
  · cases h
  next hw =>
    obtain ⟨hd, rfl⟩ := Prod.mk.inj h
    obtain ⟨hm, hwf, -, he⟩ := encode_of_decodeWord hw hd
    exact ⟨hm, hwf, he⟩
  next hw =>
    split at h
    next b _ =>
      split at h
      next hb =>
        obtain ⟨hd, rfl⟩ := Prod.mk.inj h
        split at hd
        · cases hd
        split at hd
        · cases hd
        obtain ⟨hm, hwf, -, he⟩ := encode_of_decodeWord hb hd
        exact ⟨hm, hwf, by rw [he]; simp [litWord_litOf hw]⟩
      split at h
      · exact absurd h (afterTwo_ne_ok _ _ _)
      · cases h
    · cases h
  next hw =>
    split at h
    · cases h
    next b r' =>
    split at h
    next hb =>
      obtain ⟨hd, rfl⟩ := Prod.mk.inj h
      split at hd
      · cases hd
      obtain ⟨hm, hwf, hz, he⟩ := encode_of_decodeWord hb hd
      exact ⟨hm, hwf, by rw [he]; simp [toWord_optOf hw hz]⟩
    next hb =>
      split at h
      next c _ =>
        split at h
        next hc =>
          obtain ⟨hd, rfl⟩ := Prod.mk.inj h
          split at hd
          · cases hd
          obtain ⟨hm, hwf, hz, he⟩ := encode_of_decodeWord hc hd
          exact ⟨hm, hwf, by rw [he]; simp [toWord_optOf hw hz, litWord_litOf hb]⟩
        · cases h
      · cases h
    · exact absurd h (afterTwo_ne_ok _ _ _)
    · cases h

/-- Settles O58: the fields of a well-formed instruction name it in the tables, and what the tables name has the fields they read. -/
theorem encodingIsExact : Obligations.EncodingIsExact := by
  refine ⟨fun i ws hm hwf => ?_, fun ws i n h => encode_of_decodeInsn h⟩
  obtain ⟨m, hm⟩ := Option.isSome_iff_exists.1 hm
  exact ⟨decodeInsn_encode hm hwf ws, length_encode hm hwf⟩

end Sys2Proof
end

