-- ==== Sys2Proof/Proofs/StopsAndEvents.lean ====
section
/-! SUPPORT. The records of the event queue (R326, R422), and what a context that stops leaves (R325). -/

namespace Sys2Proof

open Machine

/-! ### Numbers in bytes -/

theorem leNat_leBytes (n x : Nat) : leNat (leBytes n x) = x % 256 ^ n := by
  induction n generalizing x with
  | zero => simp [leBytes, leNat, Nat.mod_one]
  | succ n ih =>
    have h : x % 256 ^ (n + 1) = x % 256 + 256 * (x / 256 % 256 ^ n) := by rw [pow_succ', Nat.mod_mul]
    rw [h, leBytes, leNat, ih, BitVec.toNat_ofNat]
/-- The first bytes of what has been written are read back. -/
theorem memGets_memPuts_append (m : List Host.Cell) (a : Nat) (xs ys : List Byte) :
    memGets (memPuts m a (xs ++ ys)) a xs.length = xs := by
  refine List.ext_getElem (memGets_length ..) fun i h1 h2 => ?_
  have h : ∀ (n b j : Nat) (hj : j < (memGets (memPuts m a (xs ++ ys)) b n).length),
      (memGets (memPuts m a (xs ++ ys)) b n)[j] = memGet (memPuts m a (xs ++ ys)) (b + j) := by
    intro n
    induction n with
    | zero => intro b j hj; exact absurd hj (by simp [memGets])
    | succ n ih =>
      intro b j hj
      cases j with
      | zero => rfl
      | succ j =>
        simp only [memGets, List.getElem_cons_succ]
        rw [ih, show b + 1 + j = b + (j + 1) by omega]
  rw [h, memGet_memPuts, dif_pos ⟨by omega, by simp; omega⟩]
  simp [h2]

/-! ### Event records -/

/-- A record in an event queue with room: its tail moves on and its first word stands there. -/
theorem writeEvent_records {s t : State} {k : Nat} {p : Pkg} {x : Nat} {rest : List Byte} (hr : EventRoom s k)
    (hb : p.host.eqBase = (s.pkg k).host.eqBase) (hh : p.host.eqHead = (s.pkg k).host.eqHead) (ht : p.host.eqTail = (s.pkg k).host.eqTail)
    (hl : p.host.eqLog = (s.pkg k).host.eqLog) (h : t.pkg k = writeEvent p (leBytes 8 x ++ rest)) :
    (t.pkg k).host.eqTail = (s.pkg k).host.eqTail + 1 ∧ eventWord s t k = x % 2 ^ 64 := by
  obtain ⟨h0, hn⟩ := hr
  have key : writeEvent p (leBytes 8 x ++ rest) = { p with host := { p.host with
      hostMem := memPuts p.host.hostMem (p.host.eqBase.toNat + 64 * (p.host.eqTail.toNat % 2 ^ (p.host.eqLog.toNat % 32))) (leBytes 8 x ++ rest)
      eqTail := p.host.eqTail + 1, msix := fput p.host.msix 0 (fget 0 p.host.msix 0 + 1) } } := by
    unfold writeEvent
    rw [if_neg (by rwa [hb]), if_neg (by rwa [ht, hh, hl])]
  rw [key] at h
  refine ⟨by rw [h, ← ht], ?_⟩
  have := memGets_memPuts_append p.host.hostMem (p.host.eqBase.toNat + 64 * (p.host.eqTail.toNat % 2 ^ (p.host.eqLog.toNat % 32))) (leBytes 8 x) rest
  rw [leBytes_length] at this
  unfold eventWord
  rw [h, ← hb, ← ht, ← hl, this, leNat_leBytes, show (256 : Nat) ^ 8 = 2 ^ 64 from rfl]
/-- A management event. -/
theorem mgmtEvent_written {s t : State} {k : Nat} {p : Pkg} {kind cls unit : Nat} {wh : W64} (hp : p.host = (s.pkg k).host)
    (h : t.pkg k = mgmtEvent p kind cls unit wh) (hk : kind < 256) (hc : cls < 256) : EventWritten s t k kind cls unit := by
  intro hr
  obtain ⟨h1, h2⟩ := writeEvent_records (x := 0xFFFFFFFF * 2 ^ 32 + unit % 2 ^ 16 * 2 ^ 16 + cls % 256 * 256 + kind % 256)
    (rest := leBytes 8 wh.toNat ++ leBytes 8 p.fab.caltime.toNat ++ leBytes 40 0) hr (by rw [hp]) (by rw [hp]) (by rw [hp]) (by rw [hp])
    (by rw [h, mgmtEvent]; simp only [List.append_assoc])
  exact ⟨h1, h2.trans (by omega)⟩
/-- An event record changes its package's host alone. -/
theorem writeEvent_host (p : Pkg) (b : List Byte) : ∃ h, writeEvent p b = { p with host := h } := by
  unfold writeEvent
  dsimp only
  split
  · exact ⟨p.host, rfl⟩
  · split <;> exact ⟨_, rfl⟩
theorem writeEvent_of_host {p : Pkg} {b : List Byte} {α : Type} (f : Pkg → α) (hf : ∀ q h, f { q with host := h } = f q) :
    f (writeEvent p b) = f p := by
  obtain ⟨h, e⟩ := writeEvent_host p b
  rw [e, hf]
theorem mgmtEvent_of_host {p : Pkg} {kind cls unit : Nat} {wh : W64} {α : Type} (f : Pkg → α) (hf : ∀ q h, f { q with host := h } = f q) :
    f (mgmtEvent p kind cls unit wh) = f p := writeEvent_of_host f hf

/-! ### The record of a stop -/

section
variable (s : State) (k : Nat) (c : W32) (cause : Cause) (sub : Byte) (aff : List (Nat × Troupe)) (pc va : W64)

theorem hostEvent_frame : hostEvent s k c cause sub aff pc va = { s with pkgs := (hostEvent s k c cause sub aff pc va).pkgs } := by
  unfold hostEvent
  extract_lets cx khdr tidx area n lst s1
  by_cases ha : area = 0
  · rw [show s1 = s from if_pos ha]; rfl
  · rw [show s1 = _ from if_neg ha]; rfl
theorem hostEvent_waves : (hostEvent s k c cause sub aff pc va).waves = s.waves := by rw [hostEvent_frame]
theorem hostEvent_troupes : (hostEvent s k c cause sub aff pc va).troupes = s.troupes := by rw [hostEvent_frame]
/-- It writes a record, and before it at most the list of the troupes that it is about, into its package's host memory. -/
theorem hostEvent_pkg_self : ∃ (m : List Host.Cell) (rest : List Byte), (hostEvent s k c cause sub aff pc va).pkg k =
    writeEvent { s.pkg k with host := { (s.pkg k).host with hostMem := m } } (leBytes 8 (c.toNat * 2 ^ 32 + sub.toNat * 256 + cause.code.toNat) ++ rest) := by
  unfold hostEvent
  extract_lets cx khdr tidx area n lst s1
  simp only [State.pkg_modPkg_self, List.append_assoc]
  by_cases ha : area = 0
  · rw [show s1 = s from if_pos ha]; exact ⟨_, _, rfl⟩
  · rw [show s1 = _ from if_neg ha, State.pkg_modPkg_self]; exact ⟨_, _, rfl⟩
theorem hostEvent_pkg_ne {j : Nat} (h : j ≠ k) : (hostEvent s k c cause sub aff pc va).pkg j = s.pkg j := by
  unfold hostEvent
  extract_lets cx khdr tidx area n lst s1
  rw [State.pkg_modPkg, if_neg h]
  by_cases ha : area = 0
  · rw [show s1 = s from if_pos ha]
  · rw [show s1 = _ from if_neg ha, State.pkg_modPkg, if_neg h]
/-- What a package holds besides its host is as it was. -/
theorem hostEvent_of_host {α : Type} (f : Pkg → α) (hf : ∀ q h, f { q with host := h } = f q) (j : Nat) :
    f ((hostEvent s k c cause sub aff pc va).pkg j) = f (s.pkg j) := by
  by_cases h : j = k
  · subst h
    obtain ⟨m, rest, e⟩ := hostEvent_pkg_self s j c cause sub aff pc va
    rw [e, writeEvent_of_host f hf, hf]
  · rw [hostEvent_pkg_ne _ _ _ _ _ _ _ _ h]
end

/-! ### Contexts that stop (R325) -/

theorem flook_fkeep_eq_some {α : Type} {m : FMap α} {f : Nat → α → Bool} {n : Nat} {x : α} (h : flook (fkeep m f) n = some x) : f n x = true := by
  induction m with
  | nil => exact absurd h (by simp [fkeep, flook])
  | cons e m ih =>
    obtain ⟨i, y⟩ := e
    by_cases hf : f i y = true
    · have e1 : fkeep ((i, y) :: m) f = (i, y) :: fkeep m f := List.filter_cons_of_pos hf
      rw [e1, flook] at h
      split at h
      · next hi => subst hi; exact Option.some.inj h ▸ hf
      · exact ih h
    · have e1 : fkeep ((i, y) :: m) f = fkeep m f := List.filter_cons_of_neg hf
      exact ih (e1 ▸ h)
theorem mem_of_flook {α : Type} {m : FMap α} {n : Nat} {x : α} (h : flook m n = some x) : (n, x) ∈ m := by
  induction m with
  | nil => exact absurd h (by simp [flook])
  | cons e m ih =>
    obtain ⟨i, y⟩ := e
    rw [flook] at h
    split at h
    · next hi => subst hi; exact Option.some.inj h ▸ List.mem_cons_self ..
    · exact List.mem_cons_of_mem _ (ih h)
/-- A map with rising keys finds what it lists. -/
theorem Rising.flook_of_mem {α : Type} {m : FMap α} (hm : Rising m) {n : Nat} {x : α} (h : (n, x) ∈ m) : flook m n = some x := by
  induction m with
  | nil => exact absurd h (by simp)
  | cons e m ih =>
    obtain ⟨h1, h2⟩ := List.pairwise_cons.1 hm
    rcases List.mem_cons.1 h with rfl | h'
    · simp [flook]
    · have := h1 _ h'
      obtain ⟨i, y⟩ := e
      rw [flook, if_neg (by simp only at this; omega)]
      exact ih h2 h'

theorem mem_ctxTroupes {s : State} {k : Nat} {c : W32} {e : Nat × Troupe} :
    e ∈ s.ctxTroupes k c ↔ e ∈ s.troupes ∧ e.2.pkg = k ∧ e.2.ctx = c ∧ e.2.st ≠ .published := by
  simp [State.ctxTroupes, fkeep, and_assoc]

/-- The state of a machine on which a context has stopped, before the record of it. -/
structure ContextCleared (s t : State) (k : Nat) (c : W32) : Prop where
  waves : t.waves = fall s.waves (fun _ v =>
    if ((s.ctxTroupes k c).map (fun e => e.1)).contains v.tid then { v with ended := true, waits := [] } else v)
  troupes : t.troupes = fall s.troupes (fun n x => if ((s.ctxTroupes k c).map (fun e => e.1)).contains n then { x with st := .published } else x)
  ctxs : (t.pkg k).ctxs = fmod (s.pkg k).ctxs c.toNat (fun x => { x with stopped := true })
  queues : (t.pkg k).sched.lqs = fall (s.pkg k).sched.lqs (fun _ q => if q.ctx == c then { q with err := true } else q)
  launches : (t.pkg k).sched.launches = fkeep (s.pkg k).sched.launches (fun _ x => !(x.ctx == c))

theorem flook_ne_none_fmod {α : Type} {m : FMap α} {n : Nat} {f : α → α} {x : α} (h : flook m n = some x) : flook (fmod m n f) n = some (f x) := by
  rw [flook_fmod, if_pos rfl, h]; rfl

theorem ContextCleared.waves_troupes {s t : State} {k : Nat} {c : W32} (h : ContextCleared s t k c) {w : Nat} {v : Wave} {u : Troupe}
    (hv : flook s.waves w = some v) (hu : flook s.troupes v.tid = some u) (hk : u.pkg = k) (hc : u.ctx = c) (hst : u.st = .resident ∨ u.st = .saved) :
    (t.wave w).ended = true ∧ (t.wave w).waits = [] ∧ (t.troupe v.tid).st = .published := by
  have hin : ((s.ctxTroupes k c).map (fun e => e.1)).contains v.tid = true := by
    rw [List.contains_iff_mem, List.mem_map]
    refine ⟨(v.tid, u), mem_ctxTroupes.2 ⟨mem_of_flook hu, hk, hc, ?_⟩, rfl⟩
    rcases hst with hst | hst <;> rw [show (v.tid, u).2.st = u.st from rfl, hst] <;> simp
  have hw : t.wave w = { v with ended := true, waits := [] } := by
    unfold State.wave
    rw [h.waves, fget_fall, hv, Option.map_some, if_pos hin, Option.getD_some]
  have ht : t.troupe v.tid = { u with st := .published } := by
    unfold State.troupe
    rw [h.troupes, fget_fall, hu, Option.map_some, if_pos hin, Option.getD_some]
  rw [hw, ht]
  exact ⟨rfl, rfl, rfl⟩
theorem ContextCleared.others {s t : State} {k : Nat} {c : W32} (h : ContextCleared s t k c) (hr : Rising s.troupes) {n : Nat} {u : Troupe}
    (hu : flook s.troupes n = some u) (hne : u.pkg ≠ k ∨ u.ctx ≠ c) : t.troupe n = u := by
  have hout : ((s.ctxTroupes k c).map (fun e => e.1)).contains n = false := by
    rw [Bool.eq_false_iff]
    intro hin
    obtain ⟨e, he, rfl⟩ := List.mem_map.1 (List.contains_iff_mem.1 hin)
    obtain ⟨hm, hk, hc, -⟩ := mem_ctxTroupes.1 he
    have : flook s.troupes e.1 = some e.2 := hr.flook_of_mem hm
    rw [hu] at this
    obtain rfl := Option.some.inj this
    exact hne.elim (fun h => h hk) (fun h => h hc)
  unfold State.troupe
  rw [h.troupes, fget_fall, hu]
  simp only [hout]
  rfl
theorem ContextCleared.stops {s t : State} {k : Nat} {c : W32} (h : ContextCleared s t k c) : ContextStops s t k c where
  waves _ _ _ hv hu hk hc hst := h.waves_troupes hv hu hk hc hst
  others hr _ _ hu hne := h.others hr hu hne
  queues _ q x hx hc := by
    refine ⟨{ x with err := true }, ?_, rfl⟩
    rw [h.queues, flook_fall, hx]
    simp [hc]
  launches _ n x hx := by
    rw [h.launches] at hx
    simpa using flook_fkeep_eq_some hx
  stopped x hx := ⟨{ x with stopped := true }, by rw [h.ctxs]; exact flook_ne_none_fmod hx, rfl⟩
theorem ContextCleared.of_hostEvent {s t : State} {k : Nat} {c : W32} (h : ContextCleared s t k c) (cause : Cause) (sub : Byte)
    (aff : List (Nat × Troupe)) (pc va : W64) : ContextCleared s (hostEvent t k c cause sub aff pc va) k c where
  waves := (hostEvent_waves ..).trans h.waves
  troupes := (hostEvent_troupes ..).trans h.troupes
  ctxs := (hostEvent_of_host _ _ _ _ _ _ _ _ (fun p => p.ctxs) (fun _ _ => rfl) k).trans h.ctxs
  queues := (hostEvent_of_host _ _ _ _ _ _ _ _ (fun p => p.sched.lqs) (fun _ _ => rfl) k).trans h.queues
  launches := (hostEvent_of_host _ _ _ _ _ _ _ _ (fun p => p.sched.launches) (fun _ _ => rfl) k).trans h.launches

/-- What a context's stop has cleared when its record is written. -/
def clearContext (s : State) (k : Nat) (c : W32) : State :=
  let tids := (s.ctxTroupes k c).map (fun e => e.1)
  ({ s with
    waves := fall s.waves (fun _ v => if tids.contains v.tid then { v with ended := true, waits := [] } else v),
    troupes := fall s.troupes (fun n t => if tids.contains n then { t with st := .published } else t) }).modPkg k (fun p => { p with
    ctxs := fmod p.ctxs c.toNat (fun x => { x with stopped := true }),
    sched := { p.sched with
      lqs := fall p.sched.lqs (fun _ q => if q.ctx == c then { q with err := true } else q),
      launches := fkeep p.sched.launches (fun _ x => !(x.ctx == c)),
      preempts := fdel p.sched.preempts c.toNat },
    cores := fall p.cores (fun _ x => { x with
      grantQ := x.grantQ.filter (fun g => !(tids.contains ((s.wave g.1).tid))),
      mxq := x.mxq.filter (fun y => !(tids.contains y.tid)),
      detBuf := x.detBuf.filter (fun d => !(tids.contains d.tid)) }),
    cmds := p.cmds.filter (fun x => !(tids.contains x.tid)),
    fab := p.fab.dropTags (fun w => (s.wave w).tid) tids,
    reel := if p.reel.owner == c && p.reel.st != ReelSt.idle then { p.reel with st := .idle, err := true, cause := 0 } else p.reel })

theorem clearContext_cleared (s : State) (k : Nat) (c : W32) : ContextCleared s (clearContext s k c) k c where
  waves := rfl
  troupes := rfl
  ctxs := by simp only [clearContext, State.pkg_modPkg_self]; rfl
  queues := by simp only [clearContext, State.pkg_modPkg_self]; rfl
  launches := by simp only [clearContext, State.pkg_modPkg_self]; rfl
theorem clearContext_host (s : State) (k : Nat) (c : W32) (j : Nat) : ((clearContext s k c).pkg j).host = (s.pkg j).host := by
  unfold clearContext
  simp only [State.pkg_modPkg]
  by_cases h : j = k
  · subst h; rw [if_pos rfl]; rfl
  · rw [if_neg h]; rfl

/-- Everything that the stop of a context can do. -/
theorem stopContext_eq (s : State) (k : Nat) (c : W32) (cause : Cause) (sub : Byte) (pc va : W64) :
    stopContext s k c cause sub pc va = match flook (s.pkg k).ctxs c.toNat with
      | some x => if x.stopped then clearContext s k c else hostEvent (clearContext s k c) k c cause sub (s.ctxTroupes k c) pc va
      | none => if (s.ctxTroupes k c).isEmpty then s else hostEvent (clearContext s k c) k c cause sub (s.ctxTroupes k c) pc va := by
  unfold stopContext
  rfl
theorem stopContext_stops (s : State) (k : Nat) (c : W32) (cause : Cause) (sub : Byte) (pc va : W64) :
    ContextStops s (stopContext s k c cause sub pc va) k c := by
  have hc := clearContext_cleared s k c
  rw [stopContext_eq]
  cases hx : flook (s.pkg k).ctxs c.toNat with
  | some x =>
    by_cases h : x.stopped = true
    · simp only [h, if_true]; exact hc.stops
    · simp only [h]; exact (hc.of_hostEvent ..).stops
  | none =>
    by_cases h : (s.ctxTroupes k c).isEmpty = true
    · simp only [h, if_true]
      have h0 : s.ctxTroupes k c = [] := List.isEmpty_iff.1 h
      refine ⟨fun w v u hv hu hk hcc hst => ?_, fun _ n u hu _ => fget_of_flook_some hu, fun h0 => absurd hx h0, fun h0 => absurd hx h0, fun x hx' => ?_⟩
      · have : (v.tid, u) ∈ s.ctxTroupes k c := mem_ctxTroupes.2 ⟨mem_of_flook hu, hk, hcc, by
          rcases hst with hst | hst <;> rw [show (v.tid, u).2.st = u.st from rfl, hst] <;> simp⟩
        rw [h0] at this
        exact absurd this (by simp)
      · rw [hx] at hx'; exact absurd hx' (by simp)
    · simp only [h]; exact (hc.of_hostEvent ..).stops
theorem stopContext_recorded (s : State) (k : Nat) (c : W32) (cause : Cause) (sub : Byte) (pc va : W64) :
    StopRecorded s (stopContext s k c cause sub pc va) k c cause.code.toNat sub.toNat := by
  rintro ⟨x, hx, hs⟩ hr
  rw [stopContext_eq, hx]
  simp only [hs]
  obtain ⟨m, rest, e⟩ := hostEvent_pkg_self (clearContext s k c) k c cause sub (s.ctxTroupes k c) pc va
  have hh := clearContext_host s k c k
  obtain ⟨h1, h2⟩ := writeEvent_records hr (by simp only [hh]) (by simp only [hh]) (by simp only [hh]) (by simp only [hh]) e
  refine ⟨h1, h2.trans ?_⟩
  have := c.isLt
  have := sub.isLt
  have := cause.code.isLt
  omega

end Sys2Proof
end

