-- ==== Sys2Proof/Proofs/PowerAndBudgets.lean ====
section
/-! SUPPORT. Budgets, the power cap, power states and the clock (R347, R427, R428). -/

namespace Sys2Proof

open Machine

theorem modPkg_only (s : State) (k : Nat) (f : Pkg → Pkg) : PackageOnly s (s.modPkg k f) k :=
  ⟨rfl, fun j hj => by rw [State.pkg_modPkg, if_neg hj]⟩
theorem modPkg_is {s : State} {k : Nat} {f : Pkg → Pkg} {p : Pkg} (h : f (s.pkg k) = p) : PackageIs s (s.modPkg k f) k p :=
  ⟨modPkg_only s k f, (State.pkg_modPkg_self s k f).trans h⟩
/-- An instruction that changes one package by a function. -/
theorem after_modPkg_is {i : Instr} {s : State} {k : Nat} {f : Pkg → Pkg} {p : Pkg} (h : exec i s = .next (s.modPkg k f)) (hp : f (s.pkg k) = p) :
    After i s (fun t => PackageIs s t k p) := ⟨_, h, modPkg_is hp⟩

theorem answers_eq_true {p : Pkg} : p.answers = true ↔ p.phys.powered = true ∧ p.sec.booted = true ∧ p.sec.recovery = false := by
  simp [Pkg.answers, and_assoc]
theorem answers_eq_false {p : Pkg} : p.answers = false ↔ ¬ (p.phys.powered = true ∧ p.sec.booted = true ∧ p.sec.recovery = false) := by
  rw [← answers_eq_true, Bool.not_eq_true]

/-- A budget is taken for the next period. -/
theorem budgetWrite_sets {s : State} {k off c : Nat} {v : W32} (h : (s.pkg k).answers = true) (hc : budgetClass off = some c) :
    After (.budgetWrite k off v) s (fun t => PackageOnly s t k ∧
      ∀ j, fget Pace.init (t.pkg k).phys.pace j =
        if j = c then { fget Pace.init (s.pkg k).phys.pace j with next := v.toNat } else fget Pace.init (s.pkg k).phys.pace j) := by
  refine ⟨s.modPkg k (fun p => p.budgetSet off v), rfl, modPkg_only .., fun j => ?_⟩
  rw [State.pkg_modPkg_self, Pkg.budgetSet, h, hc]
  refine (fget_fput ..).trans ?_
  split
  · next hj => rw [hj]
  · rfl
theorem budgetClass_copy {d : Nat} (h : d < 4) : budgetClass (16 * d) = some (paceCopy d) := by
  have h1 : 16 * d / 16 = d := by omega
  have h2 : 16 * d % 16 = 0 := by omega
  simp only [budgetClass, h1, h2]
  rw [if_neg (by omega), if_neg (by omega), if_pos h, if_pos trivial]
theorem budgetClass_bank {d : Nat} (h : d < 4) : budgetClass (16 * d + 4) = some (paceBank d) := by
  have h1 : (16 * d + 4) / 16 = d := by omega
  have h2 : (16 * d + 4) % 16 = 4 := by omega
  simp only [budgetClass, h1, h2]
  rw [if_neg (by omega), if_neg (by omega), if_pos h, if_neg (by omega), if_pos trivial]
theorem budgetClass_walk {d : Nat} (h : d < 4) : budgetClass (16 * d + 8) = some (paceWalk d) := by
  have h1 : (16 * d + 8) / 16 = d := by omega
  have h2 : (16 * d + 8) % 16 = 8 := by omega
  simp only [budgetClass, h1, h2]
  rw [if_neg (by omega), if_neg (by omega), if_pos h, if_neg (by omega), if_neg (by omega), if_pos trivial]

theorem pcapSet_eq {p : Pkg} (h : p.answers = true) (v : W32) :
    p.pcapSet v = if 1500 ≤ v.toNat ∧ v.toNat ≤ 3000 then { p with phys := { p.phys with pcap := v } } else p := by
  unfold Pkg.pcapSet
  simp [h]
theorem setWidth_two_eq_iff (v : W32) {n : Nat} (hn : n < 4) : v.setWidth 2 = BitVec.ofNat 2 n ↔ v.toNat % 4 = n := by
  rw [← BitVec.toNat_inj, BitVec.toNat_setWidth, BitVec.toNat_ofNat, Nat.mod_eq_of_lt (a := n) hn]
theorem pstateSet_eq {p : Pkg} (h : p.answers = true) (v : W32) :
    p.pstateSet v = if v.toNat % 4 = 3 ∨ (v.toNat % 4 = 2 ∧ p.liveCtxs ≠ []) then p
      else { p with phys := { p.phys with pstate := BitVec.ofNat 32 (v.toNat % 4) } } := by
  have h3 : v.setWidth 2 = 3 ↔ v.toNat % 4 = 3 := setWidth_two_eq_iff v (by decide)
  have h2 : v.setWidth 2 = 2 ↔ v.toNat % 4 = 2 := setWidth_two_eq_iff v (by decide)
  have hw : (v.setWidth 2).setWidth 32 = BitVec.ofNat 32 (v.toNat % 4) := by
    apply BitVec.eq_of_toNat_eq
    simp [BitVec.toNat_setWidth]
  unfold Pkg.pstateSet
  simp only [h, hw, Bool.not_true, Bool.false_or, Bool.or_eq_true, Bool.and_eq_true, decide_eq_true_eq, h3, h2,
    Bool.not_eq_true', List.isEmpty_eq_false_iff, ne_eq]

/-- The clock one step down, and the event that says why. -/
theorem clockDown_slower {i : Instr} {s : State} {k kind : Nat} (hk : kind < 256)
    (h : exec i s = .next (s.modPkg k (fun p => mgmtEvent p.clockDown kind 6 0 0))) :
    After i s (fun t => (PackageOnly s t k ∧
      (t.pkg k).phys.fclk = if 825 ≤ (s.pkg k).phys.fclk.toNat then (s.pkg k).phys.fclk - 25 else 800) ∧ EventWritten s t k kind 6 0) := by
  refine ⟨_, h, ⟨modPkg_only .., ?_⟩, mgmtEvent_written (p := (s.pkg k).clockDown) rfl (State.pkg_modPkg_self ..) hk (by decide)⟩
  rw [State.pkg_modPkg_self, mgmtEvent_of_host (fun p => p.phys.fclk) (fun _ _ => rfl)]
  rfl

theorem stops_powerOff {s t : State} {k : Nat} {c : W32} (h : ContextStops s t k c) (b : Bool) :
    ContextStops s (t.modPkg k (fun p => { p with phys := { p.phys with powered := b } })) k c where
  waves := h.waves
  others := h.others
  queues := by rw [State.pkg_modPkg_self]; exact h.queues
  launches := by rw [State.pkg_modPkg_self]; exact h.launches
  stopped := by rw [State.pkg_modPkg_self]; exact h.stopped

/-- The package as it is under each temperature. -/
theorem exec_temperatureEvent (k n : Nat) (s : State) : exec (.temperatureEvent k n) s =
    .next (if 115 < n then
      (s.stopAll k (s.pkg k).liveCtxs .none 0).modPkg k (fun p => { p with phys := { p.phys with powered := false } })
    else if 105 < n then s.modPkg k (fun p => mgmtEvent p.clockDown 0x4A 6 0 0)
    else s.modPkg k Pkg.clockUp) := rfl

/-- Settles O51, from what each register's write leaves and from the law of a context's stop. -/
theorem powerAndBudgets : Obligations.PowerAndBudgets := by
  unfold Obligations.PowerAndBudgets
  intro s k v
  refine ⟨fun on d hd => ?_, fun off r => ?_, fun on => ?_, fun on => ?_, ?_, fun n h1 h2 => ?_, fun n h => ?_, fun n h => ⟨fun h0 => ?_, fun c h0 => ?_⟩⟩
  · have ha := answers_eq_true.2 on
    exact ⟨budgetWrite_sets ha (budgetClass_copy hd), budgetWrite_sets ha (budgetClass_bank hd), budgetWrite_sets ha (budgetClass_walk hd),
      budgetWrite_sets ha rfl, budgetWrite_sets ha rfl⟩
  · have ha := answers_eq_false.2 off
    exact ⟨after_modPkg_is rfl (by simp [Pkg.budgetSet, ha]), after_modPkg_is rfl (by simp [Pkg.pcapSet, ha]),
      after_modPkg_is rfl (by simp [Pkg.pstateSet, ha])⟩
  · exact after_modPkg_is rfl (pcapSet_eq (answers_eq_true.2 on) v)
  · exact after_modPkg_is rfl (pstateSet_eq (answers_eq_true.2 on) v)
  · exact clockDown_slower (by decide) rfl
  · exact clockDown_slower (by decide) (by rw [exec_temperatureEvent, if_neg (by omega), if_pos h1])
  · exact after_modPkg_is (by rw [exec_temperatureEvent, if_neg (by omega), if_neg (by omega)]) rfl
  · exact after_modPkg_is (by rw [exec_temperatureEvent, if_pos h, h0]; rfl) rfl
  · refine ⟨_, by rw [exec_temperatureEvent, if_pos h, h0], ?_, ?_⟩
    · rw [State.pkg_modPkg_self]
    · exact stops_powerOff (stopContext_stops ..) false

end Sys2Proof
end

