-- ==== Sys2Proof/Proofs/StepRunsDecoded.lean ====
section
/-! SUPPORT. A step of a pod (R21, R29, R35, R92): what is placed, what is due, the selection of a wave, the group of a PC. -/

namespace Sys2Proof

open Machine

/-! ### The group of a PC -/

/-- What a wave fetches depends on its troupe and its mode, on memory and the packages, and on nothing else of a wave. -/
theorem fetchWord_congr {s : State} {ws : FMap Wave} {c : Cur} {w : Nat} (ht : (fget Wave.init ws w).tid = (s.wave w).tid)
    (hs : (fget Wave.init ws w).sys = (s.wave w).sys) (va : W64) :
    State.fetchWord { s with waves := ws, cur := c } w va = s.fetchWord w va := by
  have h1 : (State.wave { s with waves := ws, cur := c } w).tid = (s.wave w).tid := ht
  have h2 : (State.wave { s with waves := ws, cur := c } w).sys = (s.wave w).sys := hs
  unfold State.fetchWord
  simp only [h1, h2]
  rfl
theorem group_congr {s : State} {ws : FMap Wave} {c : Cur} {w : Nat} (ht : (fget Wave.init ws w).tid = (s.wave w).tid)
    (hs : (fget Wave.init ws w).sys = (s.wave w).sys) (ha : (fget Wave.init ws w).allot = (s.wave w).allot) (pc : W64) :
    State.group { s with waves := ws, cur := c } w pc = s.group w pc := by
  have h1 : (State.wave { s with waves := ws, cur := c } w).tid = (s.wave w).tid := ht
  have h3 : (State.wave { s with waves := ws, cur := c } w).allot = (s.wave w).allot := ha
  have hx : State.source { s with waves := ws, cur := c } w pc = s.source w pc := by
    unfold State.source
    simp only [h1, h3, fetchWord_congr ht hs]
    rfl
  unfold State.group
  rw [hx]

/-- The decode of a packet whose base word is no pair word and names an instruction that passes the last checks. -/
theorem decode_of_word {x : Source} {a b c : W32} {i : Instr} {n : Nat} (hw : x.words = [.word a, .word b, .word c]) (hk : kindOf a ≠ .pairW)
    (hd : decodeInsn [a, b, c] = (.ok i, n)) (hl : x.lacks i = false) (hf : i.operandFault x.allot = none) : x.item 0 = (.ins i, 2 * n) := by
  have hb : ∀ k, badFetch x.base 0 ([Fetched.word a, .word b, .word c].take k) = none
    | 0 | 1 | 2 => rfl
    | k + 3 => by rw [List.take_of_length_le (by simp)]; rfl
  unfold Source.item
  simp only [Nat.zero_div, List.drop_zero, hw]
  rw [hb 1]
  simp only [Fetched.get, if_neg hk, List.map_cons, List.map_nil, hd, hb n]
  simp [Source.judge, hl, hf]
theorem skip_of_no_dict {x : Source} (h : x.dict = none) {p : Nat} (f : Nat) (hp : p ≤ 6) : x.skip f p = p := by
  cases f with
  | zero => rfl
  | succ f =>
    rw [Source.skip]
    split
    · omega
    · split
      · rw [if_neg (by simp [h])]
      · rfl
theorem length_of_decodeInsn {a b c : W32} {i : Instr} {n : Nat} (h : decodeInsn [a, b, c] = (.ok i, n)) : n ≤ 3 := by
  obtain ⟨hm, hwf, he⟩ := encodingIsExact.2 _ _ _ h
  obtain ⟨h1, -, h3⟩ := encodingIsExact.1 i (([a, b, c] : List W32).drop n) hm hwf
  rw [he, List.take_append_drop, h] at h1
  rw [show n = (encode i).length from (Prod.mk.inj h1).2.trans (by rw [he])]
  exact h3
theorem source_words {s : State} {w : Nat} {pc : W64} {a b c : W32} (hp : pc.toNat % 12 = 0) (ha : s.fetchWord w pc = .word a)
    (hb : s.fetchWord w (pc + 4) = .word b) (hc : s.fetchWord w (pc + 8) = .word c) :
    (s.source w pc).base = pc ∧ (s.source w pc).words = [.word a, .word b, .word c] := by
  have hbase : BitVec.ofNat 64 (pc.toNat / 12 * 12) = pc := by
    apply BitVec.eq_of_toNat_eq
    rw [BitVec.toNat_ofNat, Nat.div_mul_cancel (Nat.dvd_of_mod_eq_zero hp), Nat.mod_eq_of_lt pc.isLt]
  refine ⟨hbase, ?_⟩
  have e : (s.source w pc).words = (List.range 3).map (fun i => s.fetchWord w (BitVec.ofNat 64 (pc.toNat / 12 * 12) + BitVec.ofNat 64 (4 * i))) := rfl
  rw [e, hbase]
  show [s.fetchWord w (pc + 0), s.fetchWord w (pc + 4), s.fetchWord w (pc + 8)] = _
  rw [show pc + 0 = pc from BitVec.add_zero pc, ha, hb, hc]
/-- The group of a PC at which a packet's words decode to an instruction that is chained to none. -/
theorem group_of_words {s : State} {w : Nat} {pc : W64} {a b c : W32} {i : Instr} {n : Nat} (hp : pc.toNat % 12 = 0) (ha : s.fetchWord w pc = .word a)
    (hb : s.fetchWord w (pc + 4) = .word b) (hc : s.fetchWord w (pc + 8) = .word c) (hk : kindOf a ≠ .pairW)
    (hd : decodeInsn [a, b, c] = (.ok i, n)) (hf : i.operandFault (s.wave w).allot = none)
    (hx : ∀ f, i.feature = some f → (s.pkg (s.troupe (s.wave w).tid).pkg).feat f = true) (hch : chainsOn i = false)
    (hdict : (s.troupe (s.wave w).tid).dict = none) : s.group w pc = .run [⟨i, pc⟩] (pc + BitVec.ofNat 64 (4 * n)) := by
  obtain ⟨hbase, hwords⟩ := source_words hp ha hb hc
  have hn := length_of_decodeInsn hd
  have hlacks : (s.source w pc).lacks i = false := by
    show (match i.feature with | some f => !(s.pkg (s.troupe (s.wave w).tid).pkg).feat f | none => false) = false
    cases hfe : i.feature with
    | none => rfl
    | some f => simp [hx f hfe]
  have hitem := decode_of_word (x := s.source w pc) hwords hk hd hlacks hf
  have hskip : ∀ p, p ≤ 6 → (s.source w pc).skip 6 p = p := fun p h => skip_of_no_dict hdict 6 h
  have hpc0 : (s.source w pc).pcAt 0 = pc := by simp [Source.pcAt, hbase]
  have hpcn : (s.source w pc).pcAt (2 * n) = pc + BitVec.ofNat 64 (4 * n) := by rw [Source.pcAt, hbase, show 2 * (2 * n) = 4 * n by omega]
  unfold State.group
  extract_lets x p
  have hp0 : p = 0 := by
    show x.skip 6 ((pc - x.base).toNat / 2) = 0
    rw [show x.base = pc from hbase]
    simpa using hskip 0 (by omega)
  rw [if_neg (by omega), hp0, if_neg (by omega), hpc0, Source.decode, hitem]
  have hskipn : x.skip 6 (2 * n) = 2 * n := hskip (2 * n) (by omega)
  have hx0 : x.pcAt 0 = pc := hpc0
  have hxn : x.pcAt (2 * n) = pc + BitVec.ofNat 64 (4 * n) := hpcn
  simp [hskipn, hch, hx0, hxn, clash]

/-! ### The selection of a wave -/

/-- A ready path is the lanes of its wave that run at its PC, and its group is that of the PC. -/
theorem of_mem_readyPaths {s : State} {w : Nat} {r : Path × Group} (h : r ∈ s.readyPaths w) :
    r.1.lanes = (s.wave w).atPc r.1.pc ∧ r.2 = s.group w r.1.pc := by
  obtain ⟨p, hp, hr⟩ := List.mem_filterMap.1 h
  have hpath : p.lanes = (s.wave w).atPc p.pc := by
    rw [Wave.paths, mem_sortBy] at hp
    obtain ⟨pc, -, rfl⟩ := List.mem_map.1 hp
    rfl
  dsimp only at hr
  split at hr
  · obtain rfl := Option.some.inj hr
    exact ⟨hpath, rfl⟩
  · exact absurd hr (by simp)
theorem select_ready {s : State} {w : Nat} {rs : List (Path × Group)} (h : s.select = some (w, rs)) : rs = s.readyPaths w := by
  obtain ⟨e, -, he⟩ := List.exists_of_findSome?_eq_some h
  dsimp only at he
  split at he
  · exact absurd he (by simp)
  · obtain ⟨rfl, rfl⟩ := Prod.mk.inj (Option.some.inj he)
    rfl
theorem getLsbD_atPc {v : Wave} {pc : W64} {l : Nat} (h : (v.atPc pc).getLsbD l = true) : (v.lane l).st = .run ∧ (v.lane l).pc = pc := by
  rw [Wave.atPc, Wave.lanesWhere, getLsbD_maskOf] at h
  simp only [Bool.and_eq_true, decide_eq_true_eq, List.mem_filter, beq_iff_eq] at h
  exact h.1.2

theorem firstPath_single (s : State) (w : Nat) (r : Path × Group) : s.firstPath w [r] = some r := by
  unfold State.firstPath State.starved
  by_cases h : 64 ≤ s.passedOver w r.1 <;> simp [h]
theorem chosen_single (s : State) (w : Nat) (r : Path × Group) : s.chosen w [r] = [r] := by
  unfold State.chosen
  rw [firstPath_single]
  simp
/-- The selection of a wave changes waves alone, and of the selected one no more than its turn and its lanes' counts of R22. -/
structure AsSelected (s t : State) (w : Nat) : Prop where
  frame : ∃ ws, t = { s with waves := ws }
  wave : ∃ ls n, t.wave w = { s.wave w with lanes := ls, lastSel := n }
  lane : ∀ l, ∃ k, t.lane w l = { s.lane w l with skips := k }
theorem upd_lastSel (v : Wave) (ls : List Nat) (f : Nat → Lane → Lane) (n : Nat) :
    ({ (v.upd ls f) with lastSel := n } : Wave) = { v with lanes := (v.upd ls f).lanes, lastSel := n } := rfl
theorem lane_upd_lastSel (v : Wave) (ls : List Nat) (f : Nat → Lane → Lane) (n l : Nat) (h : ls.Nodup) :
    Wave.lane { (v.upd ls f) with lastSel := n } l = if l ∈ ls then f l (v.lane l) else v.lane l := Wave.lane_upd v ls f l h
theorem selected_asSelected (s : State) (w : Nat) (rs : List (Path × Group)) : AsSelected s (s.selected w rs) w := by
  unfold State.selected
  extract_lets v ok s1
  have h1 : s1.wave w = s.wave w := by
    unfold State.wave
    simp only [s1]
    rw [fget_fall, fget_eq_flook]
    simp
  refine ⟨⟨_, rfl⟩, ⟨_, _, by rw [State.wave_modWave_self, h1]; exact upd_lastSel _ _ _ _⟩, fun l => ?_⟩
  unfold State.lane
  rw [State.wave_modWave_self, h1, lane_upd_lastSel _ _ _ _ _ List.nodup_range]
  split
  · exact ⟨_, rfl⟩
  · exact ⟨_, rfl⟩
theorem AsSelected.eligible {s t : State} {w : Nat} (h : AsSelected s t w) : t.eligible (t.wave w) = s.eligible (s.wave w) := by
  obtain ⟨ls, n, hw⟩ := h.wave
  obtain ⟨ws, rfl⟩ := h.frame
  rw [hw]
  rfl
/-- A selected path stands where it stood, and its group is what it was. -/
theorem AsSelected.stands {s t : State} {w : Nat} (h : AsSelected s t w) {p : Path} (he : s.eligible (s.wave w) = true)
    (hp : p.lanes = (s.wave w).atPc p.pc) (c : Cur) : State.stands { t with cur := c } w p = true := by
  unfold State.stands
  rw [Bool.and_eq_true, List.all_eq_true]
  refine ⟨h.eligible.trans he, fun l hl => ?_⟩
  rw [mem_lanesOf, hp] at hl
  obtain ⟨h1, h2⟩ := getLsbD_atPc hl
  obtain ⟨k, hk⟩ := h.lane l
  have e : State.lane { t with cur := c } w l = t.lane w l := rfl
  rw [e, hk]
  simp [State.lane, h1, h2]
theorem AsSelected.group {s t : State} {w : Nat} (h : AsSelected s t w) (c : Cur) (pc : W64) :
    State.group { t with cur := c } w pc = s.group w pc := by
  obtain ⟨ls, n, hw⟩ := h.wave
  obtain ⟨ws, rfl⟩ := h.frame
  have hw' : fget Wave.init ws w = { s.wave w with lanes := ls, lastSel := n } := hw
  exact group_congr (by rw [hw']) (by rw [hw']) (by rw [hw']) pc
theorem AsSelected.chk {s t : State} {w : Nat} (h : AsSelected s t w) : (t.wave w).chk = (s.wave w).chk := by
  obtain ⟨ls, n, hw⟩ := h.wave
  rw [hw]

/-- The issue of a path whose group is one instruction, with no early read. -/
theorem issuePath_single {s : State} {w : Nat} {p : Path} {i : Instr} {npc : W64} (hg : s.group w p.pc = .run [⟨i, p.pc⟩] npc)
    (hc : (s.wave w).chk = false) (h0 : p.lanes ≠ 0) :
    s.issuePath w p = exec i (s.issue w p.lanes p.lanes p.pc npc (stallOf i)) := by
  have hst : groupStall [⟨i, p.pc⟩] = stallOf i := by simp [groupStall]
  unfold State.issuePath
  rw [hg]
  simp only [hc, List.head?_cons, Bool.false_eq_true, if_false, stopMask_nil, raise_nil, hst]
  have hall : p.lanes &&& ~~~ (0 : LaneMask) = p.lanes := BitVec.and_allOnes
  rw [hall, if_neg h0]
  rfl

/-! ### Fused issue (R29) -/

theorem joinFuse_sublist (n : Nat) (cs : List Chosen) : (joinFuse n cs).Sublist cs := by
  induction cs generalizing n with
  | nil => exact List.Sublist.refl _
  | cons c cs ih =>
    rw [joinFuse]
    split
    · exact (ih _).cons_cons c
    · exact (ih _).cons c
theorem joinFuse_slices (n : Nat) (cs : List Chosen) : ((joinFuse n cs).map (fun c => slicesOf c.first.1.lanes)).sum ≤ n := by
  induction cs generalizing n with
  | nil => exact Nat.zero_le _
  | cons c cs ih =>
    rw [joinFuse]
    split
    · next h =>
      have := ih (n - slicesOf c.first.1.lanes)
      rw [List.map_cons, List.sum_cons]
      omega
    · exact ih n
theorem slicesOf_le (m : LaneMask) : slicesOf m ≤ 8 :=
  (List.length_filter_le _ _).trans (by simp)
theorem mates_slices (s : State) (w : Nat) (r : Path × Group) :
    slicesOf r.1.lanes + ((s.mates w r).map (fun c => slicesOf c.first.1.lanes)).sum ≤ 8 := by
  have h1 := slicesOf_le r.1.lanes
  have h2 : ((s.mates w r).map (fun c => slicesOf c.first.1.lanes)).sum ≤ 8 - slicesOf r.1.lanes := joinFuse_slices _ _
  omega
theorem of_mem_mates {s : State} (hr : Rising s.waves) {w : Nat} {r : Path × Group} {c : Chosen} (h : c ∈ s.mates w r) :
    c.wid ≠ w ∧ (s.wave c.wid).tid = (s.wave w).tid ∧ (s.wave c.wid).quad = (s.wave w).quad ∧ c.first.1.pc = r.1.pc := by
  obtain ⟨e, he, hc⟩ := List.mem_filterMap.1 ((joinFuse_sublist _ _).subset h)
  have hin : e ∈ s.waves ∧ e.1 ≠ w ∧ e.2.tid = (s.wave w).tid ∧ e.2.quad = (s.wave w).quad := by
    have he' := List.mem_append.1 he
    rw [List.mem_filter, List.mem_filter, byTurn, mem_sortBy] at he'
    have := he'.elim (fun h => h.1) (fun h => h.1)
    rw [List.mem_filter] at this
    simp only [Bool.and_eq_true, bne_iff_ne, beq_iff_eq] at this
    exact ⟨this.1, this.2.1.1.1.1, this.2.1.1.1.2, this.2.1.1.2⟩
  obtain ⟨hm, hne, ht, hq⟩ := hin
  have hw : s.wave e.1 = e.2 := fget_of_flook_some (hr.flook_of_mem hm)
  dsimp only at hc
  split at hc
  · next f hf =>
    split at hc
    · next hpc =>
      obtain rfl := Option.some.inj hc
      exact ⟨hne, by rw [hw, ht], by rw [hw, hq], hpc⟩
    · exact absurd hc (by simp)
  · exact absurd hc (by simp)

/-! ### The step -/

theorem takeNoted_nil {s : State} {w : Nat} (h : s.cur.stops = []) : s.takeNoted w = { s with cur := { s.cur with defer := false } } := by
  have e : ({ s with cur := { s.cur with defer := false, stops := [] } } : State) = { s with cur := { s.cur with defer := false } } := by
    rw [← h]
  show (if (s.wave w).ended || (s.wave w).stopped then ({ s with cur := { s.cur with defer := false, stops := [] } } : State)
    else takeStop { s with cur := { s.cur with defer := false, stops := [] } } w s.cur.stops) = _
  rw [h, e]
  split <;> rfl
/-- A path that stands and whose group is one instruction issues alone. -/
theorem issueWave_single {t : State} {w : Nat} {pc : W64} {lanes : LaneMask} {i : Instr} {npc : W64} {g : Group}
    (hst : State.stands { t with cur := { Cur.init with wid := w, defer := true } } w ⟨pc, lanes⟩ = true)
    (hg : State.group { t with cur := { Cur.init with wid := w, defer := true } } w pc = .run [⟨i, pc⟩] npc)
    (hc : (t.wave w).chk = false) (h0 : lanes ≠ 0) :
    t.issueWave w [(⟨pc, lanes⟩, g)] = match exec i (({ t with cur := { Cur.init with wid := w, defer := true } }).issue w lanes lanes pc npc (stallOf i))
      with | .next u => .next (u.takeNoted w) | o => o := by
  have hip := issuePath_single (p := ⟨pc, lanes⟩) hg hc h0
  unfold State.issueWave State.issueAll
  simp only [hst, hip, Bool.not_true, Bool.false_eq_true, if_false]
  cases exec i (({ t with cur := { Cur.init with wid := w, defer := true } }).issue w lanes lanes pc npc (stallOf i)) <;> rfl
/-- A selected path alone, whose group is one instruction, executes it. -/
theorem step_issues {s : State} {w : Nat} {pc : W64} {lanes : LaneMask} {i : Instr} {npc : W64} (ha : s.agenda = []) (hd : s.due = none)
    (hs : s.select = some (w, [(⟨pc, lanes⟩, .run [⟨i, pc⟩] npc)])) (hm : s.mates w (⟨pc, lanes⟩, .run [⟨i, pc⟩] npc) = [])
    (hc : (s.wave w).chk = false) (he : s.eligible (s.wave w) = true) (h0 : lanes ≠ 0) :
    step s = match exec i (({ s.selected w [(⟨pc, lanes⟩, .run [⟨i, pc⟩] npc)] with cur := { Cur.init with wid := w, defer := true } }).issue
        w lanes lanes pc npc (stallOf i)) with | .next u => .next (u.takeNoted w) | o => o := by
  obtain ⟨hp, hg⟩ := of_mem_readyPaths (s := s) (w := w) (select_ready hs ▸ List.mem_singleton.2 rfl)
  have hsel := selected_asSelected s w [(⟨pc, lanes⟩, .run [⟨i, pc⟩] npc)]
  have hpass : s.passEmpty w [(⟨pc, lanes⟩, .run [⟨i, pc⟩] npc)] = none := rfl
  have hstep : step s = (s.selected w [(⟨pc, lanes⟩, .run [⟨i, pc⟩] npc)]).issueWave w [(⟨pc, lanes⟩, .run [⟨i, pc⟩] npc)] := by
    unfold step
    rw [ha]
    unfold State.run
    rw [hd, hs]
    simp only [hpass]
    unfold State.issueSel
    rw [firstPath_single]
    simp only [hm, chosen_single]
  rw [hstep]
  generalize s.selected w [(⟨pc, lanes⟩, .run [⟨i, pc⟩] npc)] = t at hsel
  exact issueWave_single (hsel.stands he hp _) ((hsel.group _ pc).trans hg.symm) (hsel.chk.trans hc) h0

/-- Settles O56, case by case: what is placed, what is due, the tick; then the laws of a selection, of fused issue and of a group. -/
theorem stepRunsDecoded : Obligations.StepRunsDecoded := by
  unfold Obligations.StepRunsDecoded
  intro s
  refine ⟨fun i rest h => ?_, fun t ha hd => ?_, fun ha hd hs => ?_, fun w pc lanes i npc ha hd => ?_, fun w h => takeNoted_nil h,
    fun w r hr => ⟨fun c hc => of_mem_mates hr hc, mates_slices s w r⟩, fun w pc x y z i n hp hx hy hz hk hd hf hfe hch hdict => ?_⟩
  · unfold step; rw [h]
  · unfold step; rw [ha]; unfold State.run; rw [hd]
  · unfold step; rw [ha]; unfold State.run; rw [hd, hs]
  · exact fun hs hm hc he h0 => step_issues ha hd hs hm hc he h0
  · exact group_of_words hp hx hy hz hk hd hf hfe hch hdict

end Sys2Proof
end

