-- ==== Sys2Proof/Proofs/StopsOfWaves.lean ====
section
/-! SUPPORT. What a wave's stop leaves of it (R306, R309), where each lane's part is its stop record or none. -/

namespace Sys2Proof

open Machine

/-! ### A stop of a wave in user mode -/

section
variable {s : State} {w : Nat} {st : List StopRec}

/-- The wave as its stop leaves it. -/
def stoppedWave (v : Wave) (st : List StopRec) : Wave :=
  { (v.upd (lanesOf v.live) (fun l x => x.stopWith (st.find? (fun r => r.lane == l)))) with
    stopped := true, waits := [], trapLanes := trapMask st }
theorem takeStop_user (hne : st ≠ []) (hsys : (s.wave w).sys = false) : takeStop s w st =
    (s.modCore (s.troupe (s.wave w).tid).pkg (s.troupe (s.wave w).tid).core (fun c => { c with grantQ := c.grantQ.filter (fun g => g.1 != w) })).setWave w
      (stoppedWave (s.wave w) st) := by
  cases st with
  | nil => exact absurd rfl hne
  | cons r rs =>
    unfold takeStop
    simp only [hsys]
    rfl
theorem takeStop_wave_ne (hne : st ≠ []) (hsys : (s.wave w).sys = false) {x : Nat} (h : x ≠ w) : (takeStop s w st).wave x = s.wave x := by
  rw [takeStop_user hne hsys, State.wave_setWave, if_neg h, State.wave_modCore]
theorem takeStop_wave_self (hne : st ≠ []) (hsys : (s.wave w).sys = false) : (takeStop s w st).wave w = stoppedWave (s.wave w) st := by
  rw [takeStop_user hne hsys, State.wave_setWave_self]
theorem stoppedWave_lane (v : Wave) (st : List StopRec) (l : Nat) : (stoppedWave v st).lane l =
    if l < 32 ∧ (v.lane l).st ≠ .exit then (v.lane l).stopWith (st.find? (fun r => r.lane == l)) else v.lane l := by
  have e : (stoppedWave v st).lane l = (v.upd (lanesOf v.live) (fun l x => x.stopWith (st.find? (fun r => r.lane == l)))).lane l := rfl
  rw [e, Wave.lane_upd _ _ _ _ (lanesOf_nodup _)]
  simp [live_getLsbD]
theorem takeStop_lane (hne : st ≠ []) (hsys : (s.wave w).sys = false) (l : Nat) : (takeStop s w st).lane w l =
    if l < 32 ∧ (s.lane w l).st ≠ .exit then (s.lane w l).stopWith (st.find? (fun r => r.lane == l)) else s.lane w l := by
  unfold State.lane
  rw [takeStop_wave_self hne hsys, stoppedWave_lane]
theorem takeStop_memory (hne : st ≠ []) (hsys : (s.wave w).sys = false) : (takeStop s w st).mem = s.mem ∧ (takeStop s w st).writes = s.writes ∧
    (takeStop s w st).troupes = s.troupes ∧ (takeStop s w st).corps = s.corps ∧ (takeStop s w st).cur = s.cur ∧ (takeStop s w st).cycle = s.cycle := by
  rw [takeStop_user hne hsys]
  exact ⟨rfl, rfl, rfl, rfl, rfl, rfl⟩
end

/-- What a stop keeps of a lane. -/
theorem stopWith_keeps (x : Lane) (r : Option StopRec) : (x.stopWith r).st = .trap ∧ (x.stopWith r).g = x.g ∧ (x.stopWith r).p = x.p ∧
    (x.stopWith r).lflags = x.lflags ∧ (x.stopWith r).pend = x.pend := by
  cases r with
  | none => exact ⟨rfl, rfl, rfl, rfl, rfl⟩
  | some r =>
    unfold Lane.stopWith
    dsimp only
    split
    · exact ⟨rfl, rfl, rfl, rfl, rfl⟩
    · split <;> exact ⟨rfl, rfl, rfl, rfl, rfl⟩
/-- A lane with no part in the stop records NONE where it stands. -/
theorem stopWith_none_records (x : Lane) : (x.stopWith none).trapCause = 0 ∧ (x.stopWith none).trapVa = 0 ∧ (x.stopWith none).trapPc = x.pc ∧
    (x.stopWith none).resume = x.pc := ⟨rfl, rfl, rfl, rfl⟩
/-- A lane whose group has completed records the instruction's PC and goes on after it. -/
theorem stopWith_after_records {x : Lane} {r : StopRec} (h1 : r.stays = false) (h2 : r.after = true) (h3 : r.code ≠ 0x80) :
    (x.stopWith (some r)).trapCause = r.code ++ r.sub ++ r.cause.code ∧ (x.stopWith (some r)).trapVa = r.va ∧ (x.stopWith (some r)).trapPc = r.pc ∧
    (x.stopWith (some r)).resume = x.pc := by
  have h3' : r.code ≠ 128#16 := h3
  simp [Lane.stopWith, h1, h2, h3']
/-- A lane whose instruction is to be taken up again records the instruction's PC and stays there. -/
theorem stopWith_again_records {x : Lane} {r : StopRec} (h1 : r.stays = false) (h2 : r.after = false ∨ r.code = 0x80) :
    (x.stopWith (some r)).trapCause = r.code ++ r.sub ++ r.cause.code ∧ (x.stopWith (some r)).trapVa = r.va ∧ (x.stopWith (some r)).trapPc = r.pc ∧
    (x.stopWith (some r)).resume = r.pc := by
  rcases h2 with h2 | h2 <;> simp [Lane.stopWith, h1, h2]
/-- A lane that stands where it is stopped keeps its PC. -/
theorem stopWith_stays_records {x : Lane} {r : StopRec} (h1 : r.stays = true) :
    (x.stopWith (some r)).trapCause = r.code ++ r.sub ++ r.cause.code ∧ (x.stopWith (some r)).trapVa = r.va ∧ (x.stopWith (some r)).trapPc = x.pc ∧
    (x.stopWith (some r)).resume = x.pc := by
  simp [Lane.stopWith, h1]

theorem getLsbD_trapMask (st : List StopRec) {l : Nat} (hl : l < 32) :
    (trapMask st).getLsbD l = true ↔ ∃ r ∈ st, r.cause ≠ .none ∧ r.lane = l := by
  rw [trapMask, getLsbD_maskOf]
  simp only [List.mem_map, List.mem_filter, Bool.and_eq_true, decide_eq_true_eq, hl, and_true, bne_iff_ne, and_assoc]

/-! ### Stops whose group has completed (R309) -/

/-- What a lane stands on once its path has gone on. -/
theorem advance_lane {s : State} {st : List StopRec} {l : Nat} (h : l < 32) (hm : (stopMask st).getLsbD l = false) :
    ((s.advance st).lane s.cur.wid l).pc = standsAt s l ∧ ((s.advance st).lane s.cur.wid l).st = (s.lane s.cur.wid l).st ∧
    ((s.advance st).lane s.cur.wid l).g = (s.lane s.cur.wid l).g ∧ ((s.advance st).lane s.cur.wid l).p = (s.lane s.cur.wid l).p ∧
    ((s.advance st).lane s.cur.wid l).lflags = (s.lane s.cur.wid l).lflags ∧ ((s.advance st).lane s.cur.wid l).pend = (s.lane s.cur.wid l).pend := by
  unfold State.advance
  rw [State.lane_updLanes]
  simp only [true_and, BitVec.getLsbD_and, BitVec.getLsbD_not, hm, h, decide_true, Bool.true_and, Bool.not_false, Bool.and_true, Bool.and_eq_true,
    Bool.not_eq_true']
  unfold standsAt
  by_cases h1 : s.cur.lanes.getLsbD l = true <;> by_cases h2 : s.cur.moved.getLsbD l = false <;>
    by_cases h3 : (s.lane s.cur.wid l).st = .run <;> simp [h1, h2, h3]
theorem advance_lane_exit (s : State) (st : List StopRec) {l : Nat} (h : (s.lane s.cur.wid l).st = .exit) :
    (s.advance st).lane s.cur.wid l = s.lane s.cur.wid l := by
  unfold State.advance
  rw [State.lane_updLanes]
  split
  · rw [if_neg (by rw [h]; simp)]
  · rfl

/-- Stops of the active lanes, each recorded once its group has completed. -/
theorem finish_stopsAfter {s : State} {m : Mods} {f : Nat → StopRec} (h : Alone s) (ha : ∃ l, On s m l) (hl : ∀ l, (f l).lane = l)
    (hs : ∀ l, (f l).stays = false) (haf : ∀ l, (f l).after = true) (hn : ∀ l, (f l).cause ≠ .none) :
    StopsAs s (finish s ((s.activeLanes m).map f)) (fun l => decide (l ∈ s.activeLanes m))
      (fun l => (f l).code ++ (f l).sub ++ (f l).cause.code) (fun l => (f l).va) (fun l => (f l).pc)
      (fun l => if (f l).code = 0x80 then (f l).pc else standsAt s l) (standsAt s) := by
  obtain ⟨e, he⟩ := ha
  set st := (s.activeLanes m).map f with hst
  have hne : st ≠ [] := by
    rw [hst, ne_eq, List.map_eq_nil_iff]
    exact List.ne_nil_of_mem (mem_activeLanes.2 he)
  have hmask : stopMask st = 0 := by
    unfold stopMask
    rw [List.filter_eq_nil_iff.2 (by intro r hr; obtain ⟨x, -, rfl⟩ := List.mem_map.1 hr; simp [haf x])]
    rfl
  have hsys : ((s.advance st).wave s.cur.wid).sys = false := by
    simp only [State.advance, State.wave_updLanes_self]
    exact h.1
  have hfin : finish s st = takeStop (s.advance st) s.cur.wid st := by
    unfold finish State.raise
    rw [if_neg (by rw [State.advance_cur, h.2.1, h.2.2]; simp), State.advance_cur]
  have hfind : ∀ l, st.find? (fun r => r.lane == l) = if l ∈ s.activeLanes m then some (f l) else none := find_stop hl _
  have hadv : ∀ l, l < 32 → _ := fun l hlt => advance_lane (s := s) (st := st) hlt (by rw [hmask]; simp)
  rw [hfin]
  refine ⟨fun w hw => ?_, ?_, fun l hx => ?_, fun l hlt hx => ?_, ?_⟩
  · rw [takeStop_wave_ne hne hsys hw, State.advance, State.wave_updLanes, if_neg hw]
  · rw [takeStop_wave_self hne hsys]
    refine ⟨rfl, hsys.trans h.1.symm, rfl, fun l hlt => (getLsbD_trapMask st hlt).trans ?_⟩
    rw [hst, decide_eq_true_eq]
    constructor
    · rintro ⟨r, hr, -, rfl⟩
      obtain ⟨x, hx, rfl⟩ := List.mem_map.1 hr
      rwa [hl]
    · exact fun hx => ⟨f l, List.mem_map.2 ⟨l, hx, rfl⟩, hn l, hl l⟩
  · rw [takeStop_lane hne hsys, advance_lane_exit s st hx, if_neg (by simp [hx])]
  · obtain ⟨p1, p2, p3, p4, p5, p6⟩ := hadv l hlt
    dsimp only
    rw [takeStop_lane hne hsys, if_pos ⟨hlt, by rwa [p2]⟩, hfind]
    obtain ⟨k1, k2, k3, k4, k5⟩ := stopWith_keeps ((s.advance st).lane s.cur.wid l) (if l ∈ s.activeLanes m then some (f l) else none)
    refine ⟨k1, k2.trans p3, k3.trans p4, k4.trans p5, k5.trans p6, fun hw => ?_, fun hw => ?_⟩
    · rw [if_pos (of_decide_eq_true hw)]
      by_cases hc : (f l).code = 0x80
      · rw [if_pos hc]
        exact stopWith_again_records (hs l) (.inr hc)
      · rw [if_neg hc]
        obtain ⟨r1, r2, r3, r4⟩ := stopWith_after_records (x := (s.advance st).lane s.cur.wid l) (hs l) (haf l) hc
        exact ⟨r1, r2, r3, r4.trans p1⟩
    · rw [if_neg (of_decide_eq_false hw)]
      obtain ⟨r1, r2, r3, r4⟩ := stopWith_none_records ((s.advance st).lane s.cur.wid l)
      exact ⟨r1, r2, r3.trans p1, r4.trans p1⟩
  · obtain ⟨q1, q2, q3, q4, q5, q6⟩ := takeStop_memory hne hsys
    exact ⟨q1, q2, q3, q4, q5, q6⟩

/-- The word that a trap with a code leaves in TRAPCAUSE. -/
theorem causeWord_code (code : W16) (c : Cause) : code ++ (0 : Byte) ++ c.code = causeWord c.code.toNat 0 code.toNat := by
  apply BitVec.eq_of_toNat_eq
  have h1 := code.isLt
  have h2 := c.code.isLt
  rw [causeWord, BitVec.toNat_append, BitVec.toNat_append, BitVec.toNat_ofNat, show (0 : Byte).toNat = 0 from rfl, Nat.or_zero,
    ← Nat.shiftLeft_add_eq_or_of_lt h2, Nat.shiftLeft_eq, Nat.shiftLeft_eq]
  omega
/-- An instruction that stops every active lane with a cause and a code, after its group. -/
theorem trapAll_stops {s : State} {m : Mods} {c : Cause} {code : W16} (h : Alone s) (ha : ∃ l, On s m l)
    (hs : c ≠ .none ∧ c ≠ .orphan ∧ c ≠ .preempt ∧ c ≠ .page ∧ c ≠ .prot) (hc : code ≠ 0x80) :
    ∃ who : Nat → Bool, (∀ l, who l = true ↔ On s m l) ∧ StopsAs s (trapAll s m c code) who (fun _ => causeWord c.code.toNat 0 code.toNat) (fun _ => 0)
      (fun _ => s.cur.pc) (standsAt s) (standsAt s) := by
  obtain ⟨h1, h2, h3, h4, h5⟩ := hs
  have key := finish_stopsAfter (f := fun l => ⟨l, c, 0, code, 0, true, s.cur.memb, s.cur.pc⟩) h ha (fun _ => rfl)
    (fun _ => by simp [StopRec.stays, h2, h3, h4, h5]) (fun _ => rfl) (fun _ => h1)
  simp only [causeWord_code, if_neg hc] at key
  exact ⟨_, fun l => by rw [decide_eq_true_eq, mem_activeLanes], key⟩

/-- Settles O14, from the law of the stops that are taken after their group. -/
theorem trapInstructions : Obligations.TrapInstructions := by
  unfold Obligations.TrapInstructions
  intro s m n h ha
  have hn : n.toNat < 128 := n.isLt
  have hw : (n.setWidth 16).toNat = n.toNat := by rw [BitVec.toNat_setWidth, Nat.mod_eq_of_lt (by omega)]
  have hx : (0x100#16 + n.setWidth 16).toNat = 0x100 + n.toNat := by
    rw [BitVec.toNat_add, hw, BitVec.toNat_ofNat]
    omega
  have trap : ∀ c : W16, c.toNat ≠ 0x80 → c ≠ 0x80 := fun c hc h0 => hc (by rw [h0]; rfl)
  refine ⟨?_, ?_, ?_⟩
  · obtain ⟨who, hwho, key⟩ := trapAll_stops (c := .trap) (code := n.setWidth 16) h ha (by decide) (trap _ (by omega))
    rw [hw] at key
    exact ⟨_, who, rfl, hwho, key⟩
  · obtain ⟨who, hwho, key⟩ := trapAll_stops (c := .brk) (code := 0) h ha (by decide) (by decide)
    exact ⟨_, who, rfl, hwho, key⟩
  · obtain ⟨who, hwho, key⟩ := trapAll_stops (c := .trap) (code := 0x100#16 + n.setWidth 16) h ha (by decide) (trap _ (by omega))
    rw [hx] at key
    refine ⟨_, who, ?_, hwho, key⟩
    show execSysc m n s = _
    rw [execSysc, State.curWave, h.1]
    rfl

end Sys2Proof
end

