-- ==== Sys2Proof/Proofs/WaitsOfLanes.lean ====
section
/-! SUPPORT. Changes of the issuing wave, one after the other; the counts of lanes that end (R86, R162, R163). -/

namespace Sys2Proof

open Machine

/-! ### The issuing wave changes -/

theorem State.lane_lt_of_getLsbD {m : LaneMask} {l : Nat} (h : m.getLsbD l = true) : l < 32 := by
  by_contra hn
  rw [BitVec.getLsbD_of_ge _ _ (by omega)] at h
  exact absurd h (by simp)
theorem waveBecomes_refl (s : State) : WaveBecomes s s id (fun _ x => x) :=
  ⟨fun _ _ => rfl, rfl, fun l => by split <;> rfl⟩
/-- A change of the wave's own fields. -/
theorem modWave_waveBecomes (s : State) (g : Wave → Wave) (hg : ∀ v, (g v).lanes = v.lanes) :
    WaveBecomes s (s.modWave s.cur.wid g) g (fun _ x => x) := by
  refine ⟨fun w hw => by rw [State.wave_modWave, if_neg hw], by rw [State.wave_modWave_self], fun l => ?_⟩
  have : (s.modWave s.cur.wid g).lane s.cur.wid l = s.lane s.cur.wid l := by
    unfold State.lane Wave.lane
    rw [State.wave_modWave_self, hg]
  rw [this]
  split <;> rfl
/-- A change of the lanes of the path. -/
theorem updLanes_waveBecomes (s : State) (f : Nat → Lane → Lane) : WaveBecomes s (s.updLanes s.cur.wid (lanesOf s.cur.lanes) f) id f := by
  refine ⟨fun w hw => by rw [State.wave_updLanes, if_neg hw], by rw [State.wave_updLanes_self]; rfl, fun l => ?_⟩
  rw [State.lane_updLanes]
  simp only [true_and]
/-- The path goes on after a change. -/
theorem WaveBecomes.advance {s t : State} {g : Wave → Wave} {f : Nat → Lane → Lane} (h : WaveBecomes s t g f) (hc : t.cur = s.cur) :
    WaveBecomes s (t.advance []) g (fun l x => goOn s l (f l x)) := by
  have ha := finish_goesOn t
  rw [finish_nil] at ha
  refine ⟨fun w hw => ?_, ?_, fun l => ?_⟩
  · rw [ha.waves w (by rwa [hc]), h.waves w hw]
  · have h1 := ha.rest
    rw [hc, h.rest] at h1
    exact h1
  · have h1 := ha.lanes l
    rw [hc] at h1
    rw [h1]
    have h2 := h.lanes l
    by_cases hl : s.cur.lanes.getLsbD l = true
    · rw [if_pos hl] at h2 ⊢
      rw [if_pos hl, h2]
      simp only [goOn, hc]
    · rw [if_neg hl] at h2 ⊢
      rw [if_neg hl, h2]
/-- The end of an instruction after a change. -/
theorem WaveBecomes.finish {s t : State} {g : Wave → Wave} {f : Nat → Lane → Lane} (h : WaveBecomes s t g f) (hc : t.cur = s.cur) :
    WaveBecomes s (finish t []) g (fun l x => goOn s l (f l x)) := by
  rw [finish_nil]
  exact h.advance hc
theorem finish_frame_waves {s t : State} (h : t = { s with waves := t.waves }) : finish t [] = { s with waves := (finish t []).waves } := by
  rw [finish_nil]
  refine Eq.trans (b := { t with waves := (t.advance []).waves }) rfl ?_
  exact Eq.trans (congrArg (fun u : State => { u with waves := (t.advance []).waves }) h) rfl

theorem someActive_eq_true {s : State} {m : Mods} : s.someActive m = true ↔ ∃ l, On s m l := by
  rw [State.someActive, Bool.not_eq_true', List.isEmpty_eq_false_iff_exists_mem]
  exact exists_congr fun l => mem_activeLanes

/-! ### What waits for what -/

theorem lanesWhere_ne_zero {v : Wave} {p : Lane → Bool} : v.lanesWhere p ≠ 0 ↔ ∃ l, l < 32 ∧ p (v.lane l) = true := by
  have hb : ∀ l, (v.lanesWhere p).getLsbD l = true ↔ l < 32 ∧ p (v.lane l) = true := by
    intro l
    rw [Wave.lanesWhere, getLsbD_maskOf]
    by_cases hl : l < 32 <;> simp [hl]
  constructor
  · intro h
    by_contra hno
    refine h (BitVec.eq_of_getLsbD_eq fun i hi => ?_)
    have : (v.lanesWhere p).getLsbD i = false := by
      rw [← Bool.not_eq_true]
      exact fun hx => hno ⟨i, (hb i).1 hx⟩
    rw [this]
    simp
  · rintro ⟨l, hl⟩ h0
    have := (hb l).2 hl
    rw [h0] at this
    exact absurd this (by simp)
theorem mem_quadOthers {s : State} {w : Nat} : w ∈ s.quadOthers s.cur.wid ↔ ∃ v, (w, v) ∈ s.waves ∧ w ≠ s.cur.wid ∧ v.ended = false ∧
    v.quad = (s.wave s.cur.wid).quad ∧ (s.troupe v.tid).pkg = s.curPkg ∧ (s.troupe v.tid).core = s.curTroupe.core ∧
    (s.troupe v.tid).st = .resident ∧ ∃ l, l < 32 ∧ (v.lane l).st = .run := by
  unfold State.quadOthers
  simp only [List.mem_map, List.mem_filter, Bool.and_eq_true, bne_iff_ne, beq_iff_eq, Bool.not_eq_true', lanesWhere_ne_zero]
  constructor
  · rintro ⟨e, ⟨hm, ⟨⟨⟨⟨⟨h1, h2⟩, h3⟩, h4⟩, h5⟩, h6⟩, h7⟩, rfl⟩
    exact ⟨e.2, hm, h1, h6, h5, h2, h3, h4, h7⟩
  · rintro ⟨v, hm, h1, h6, h5, h2, h3, h4, h7⟩
    exact ⟨(w, v), ⟨hm, ⟨⟨⟨⟨⟨h1, h2⟩, h3⟩, h4⟩, h5⟩, h6⟩, h7⟩, rfl⟩

/-- A path with a lane that has waited under `wsb`, and is owed something, does not issue. -/
theorem pathReady_of_owed {s : State} {w : Nat} {p : Path} {g : Group} {l : Nat} (hl : p.lanes.getLsbD l = true)
    (hw : (s.lane w l).wsb = true) (hp : (s.lane w l).pend ≠ []) : s.pathReady w p g = false := by
  rw [← Bool.not_eq_true]
  intro h
  unfold State.pathReady at h
  simp only [Bool.and_eq_true, List.all_eq_true] at h
  obtain ⟨⟨⟨⟨-, hall⟩, -⟩, -⟩, -⟩ := h
  have hx := (hall l ((mem_lanesOf _ _).2 hl)).1.2
  have h1 : ((s.wave w).lane l).wsb = true := hw
  have h2 : ((s.wave w).lane l).pend.isEmpty = false := by
    rw [List.isEmpty_eq_false_iff]
    exact hp
  rw [h1, h2] at hx
  exact absurd hx (by decide)

theorem waitsOfAWave : Claims.WaitsOfAWave := by
  unfold Claims.WaitsOfAWave
  intro s m
  refine ⟨⟨_, rfl, finish_frame_waves rfl, finish_goesOn s⟩, ?_, ?_, ?_, fun w p g l hl hw hp => pathReady_of_owed hl hw hp⟩
  · by_cases h : s.someActive m = true
    · refine ⟨_, rfl, finish_frame_waves (by rw [if_pos h]; rfl), some ⟨s.clock + 64, 0, s.quadOthers s.cur.wid⟩, ?_, fun hn => absurd (someActive_eq_true.1 h) hn,
        fun _ => ⟨_, rfl, fun w => mem_quadOthers⟩⟩
      rw [if_pos h]
      exact (modWave_waveBecomes s (fun v => { v with yield := some ⟨s.clock + 64, 0, s.quadOthers s.cur.wid⟩ }) (fun _ => rfl)).finish rfl
    · refine ⟨_, rfl, finish_frame_waves (by rw [if_neg h]), (s.wave s.cur.wid).yield, ?_, fun _ => rfl, fun hs => absurd (someActive_eq_true.2 hs) h⟩
      rw [if_neg h]
      obtain ⟨h1, h2, h3⟩ := finish_goesOn s
      exact ⟨h1, h2, h3⟩
  · refine ⟨_, rfl, finish_frame_waves (by split <;> rfl), fun hn => ?_, fun hs => ?_⟩
    · rw [if_neg (mt someActive_eq_true.1 hn)]
      exact finish_goesOn s
    · rw [if_pos (someActive_eq_true.2 hs)]
      exact (updLanes_waveBecomes s (fun _ l => { l with readyAt := max l.readyAt (s.clock + 65) })).finish rfl
  · refine ⟨_, rfl, finish_frame_waves (by split <;> rfl), fun hn => ?_, fun hs => ?_⟩
    · rw [if_neg (mt someActive_eq_true.1 hn)]
      exact finish_goesOn s
    · rw [if_pos (someActive_eq_true.2 hs)]
      exact (updLanes_waveBecomes s (fun _ l => { l with wsb := true })).finish rfl

/-! ### Counts that end -/

theorem modWave_passes (s : State) (w : Nat) (f : Wave → Wave) : s.modWave w f = { s with waves := (s.modWave w f).waves } ∧
    (∀ u, u ≠ w → (s.modWave w f).wave u = s.wave u) ∧ (s.modWave w f).wave w = f (s.wave w) :=
  ⟨rfl, fun u hu => by rw [State.wave_modWave, if_neg hu], State.wave_modWave_self ..⟩
theorem upd_rest (v : Wave) (ls : List Nat) (f : Nat → Lane → Lane) : v.upd ls f = { v with lanes := (v.upd ls f).lanes } := rfl
theorem ready_rest (v : Wave) (n : Nat) : v.ready n = { v with lanes := (v.ready n).lanes } := by
  unfold Wave.ready
  exact upd_rest _ _ _
theorem ready_lane (v : Wave) (n : Nat) {l : Nat} (hl : l < 32) :
    (v.ready n).lane l = if (v.lane l).readyAt ≤ n then { v.lane l with readyAt := 0 } else v.lane l := by
  unfold Wave.ready
  rw [Wave.lane_upd _ _ _ _ List.nodup_range, if_pos (List.mem_range.2 hl)]

theorem countsExpire : Claims.CountsExpire := by
  unfold Claims.CountsExpire
  intro s w
  have key : ∀ i : Instr, exec i s = .next (s.modWave w (fun v => v.ready (s.clockOf w))) → After i s (fun t => t = { s with waves := t.waves } ∧
      (∀ u, u ≠ w → t.wave u = s.wave u) ∧ t.wave w = { s.wave w with lanes := (t.wave w).lanes } ∧
      ∀ l, l < 32 → t.lane w l = if (s.lane w l).readyAt ≤ s.clockOf w then { s.lane w l with readyAt := 0 } else s.lane w l) := by
    intro i hi
    obtain ⟨h1, h2, h3⟩ := modWave_passes s w (fun v => v.ready (s.clockOf w))
    refine ⟨_, hi, h1, h2, by rw [h3]; exact ready_rest .., fun l hl => ?_⟩
    unfold State.lane
    rw [h3]
    exact ready_lane _ _ hl
  refine ⟨key _ rfl, key _ rfl, ?_⟩
  obtain ⟨h1, h2, h3⟩ := modWave_passes s w (fun v => match v.yield with
    | some y => if y.isOver (s.clockOf w) then { v with yield := none } else v
    | none => v)
  refine ⟨_, rfl, h1, h2, h3.trans ?_⟩
  cases hy : (s.wave w).yield with
  | none => simp
  | some y => simp [Yield.isOver, or_assoc]

/-- Settles O15, from the laws of the issuing wave's changes and of the counts of its lanes. -/
theorem waitsOfLanes : Obligations.WaitsOfLanes := ⟨waitsOfAWave, countsExpire⟩

end Sys2Proof
end

