-- ==== Sys2Proof/Proofs/RejoinSets.lean ====
section
/-! SUPPORT. The rejoin sets (R24 to R26, R164): what a check of the sets leaves of each lane, and the instructions on them. -/

namespace Sys2Proof

open Machine

/-! ### The release of full sets (R25) -/

/-- What the release of the sets numbered below `i` makes of a lane. -/
def freedBelow (v : Wave) (i : Nat) (x : Lane) : Lane :=
  match x.st with
  | .join k => if k.toNat < i ∧ v.mask k ≠ 0 ∧ v.wcnt k = popCount (v.mask k) then { x with st := .run, pc := x.nextPc } else x
  | _ => x
/-- What the release of every full set makes of a lane. -/
def freed (v : Wave) (x : Lane) : Lane :=
  match x.st with
  | .join k => if v.mask k ≠ 0 ∧ v.wcnt k = popCount (v.mask k) then { x with st := .run, pc := x.nextPc } else x
  | _ => x

theorem freedBelow_of_not_join {v : Wave} {i : Nat} {x : Lane} (h : ∀ k, x.st ≠ .join k) : freedBelow v i x = x := by
  unfold freedBelow
  split
  · next k hk => exact absurd hk (h k)
  · rfl
theorem freedBelow_of_join {v : Wave} {i : Nat} {x : Lane} {k : BitVec 4} (h : x.st = .join k) :
    freedBelow v i x = if k.toNat < i ∧ v.mask k ≠ 0 ∧ v.wcnt k = popCount (v.mask k) then { x with st := .run, pc := x.nextPc } else x := by
  unfold freedBelow
  split
  · next j hj => rw [h] at hj; cases hj; rfl
  · next hn => exact absurd h (hn k)
theorem freed_of_not_join {v : Wave} {x : Lane} (h : ∀ k, x.st ≠ .join k) : freed v x = x := by
  unfold freed
  split
  · next k hk => exact absurd hk (h k)
  · rfl
theorem freed_of_join {v : Wave} {x : Lane} {k : BitVec 4} (h : x.st = .join k) :
    freed v x = if v.mask k ≠ 0 ∧ v.wcnt k = popCount (v.mask k) then { x with st := .run, pc := x.nextPc } else x := by
  unfold freed
  split
  · next j hj => rw [h] at hj; cases hj; rfl
  · next hn => exact absurd h (hn k)
theorem freedBelow_sixteen (v : Wave) (x : Lane) : freedBelow v 16 x = freed v x := by
  cases hx : x.st with
  | join k => rw [freedBelow_of_join hx, freed_of_join hx]; simp [show k.toNat < 16 from k.isLt]
  | _ => rw [freedBelow_of_not_join (by simp [hx]), freed_of_not_join (by simp [hx])]

theorem lanesWhere_congr {v u : Wave} {p q : Lane → Bool} (h : ∀ l, l < 32 → p (u.lane l) = q (v.lane l)) : u.lanesWhere p = v.lanesWhere q := by
  unfold Wave.lanesWhere
  congr 1
  exact List.filter_congr fun l hl => h l (List.mem_range.1 hl)
theorem getLsbD_lanesWhere {v : Wave} {p : Lane → Bool} (l : Nat) : (v.lanesWhere p).getLsbD l = true ↔ l < 32 ∧ p (v.lane l) = true := by
  rw [Wave.lanesWhere, getLsbD_maskOf]
  by_cases hl : l < 32 <;> simp [hl]

theorem releaseSet_rest (v : Wave) (n : BitVec 4) : v.releaseSet n = { v with lanes := (v.releaseSet n).lanes } := by
  unfold Wave.releaseSet
  split
  · exact upd_rest _ _ _
  · rfl
theorem releaseSet_lane (v : Wave) (n : BitVec 4) (l : Nat) : (v.releaseSet n).lane l =
    if (v.mask n ≠ 0 ∧ v.wcnt n = popCount (v.mask n)) ∧ l < 32 ∧ (v.lane l).st = .join n then { v.lane l with st := .run, pc := (v.lane l).nextPc }
    else v.lane l := by
  unfold Wave.releaseSet
  by_cases h : v.mask n ≠ 0 ∧ v.wcnt n = popCount (v.mask n)
  · rw [if_pos h, Wave.lane_upd _ _ _ _ (lanesOf_nodup _)]
    simp only [mem_lanesOf, getLsbD_lanesWhere, beq_iff_eq]
    by_cases hl : l < 32 ∧ (v.lane l).st = .join n
    · rw [if_pos hl, if_pos ⟨h, hl⟩]
    · rw [if_neg hl, if_neg (fun hc => hl hc.2)]
  · rw [if_neg h, if_neg (fun hc => h hc.1)]

/-- The sets are released one by one. -/
theorem releaseSets_upTo (v : Wave) (i : Nat) (hi : i ≤ 16) :
    let u := (List.range i).foldl (fun w n => w.releaseSet (BitVec.ofNat 4 n)) v
    u = { v with lanes := u.lanes } ∧ ∀ l, u.lane l = if l < 32 then freedBelow v i (v.lane l) else v.lane l := by
  induction i with
  | zero =>
    refine ⟨rfl, fun l => ?_⟩
    have hx : freedBelow v 0 (v.lane l) = v.lane l := by
      cases hx : (v.lane l).st with
      | join k => rw [freedBelow_of_join hx, if_neg (by simp)]
      | _ => exact freedBelow_of_not_join (by simp [hx])
    rw [hx, ite_self]
    rfl
  | succ i ih =>
    obtain ⟨hrest, hlane⟩ := ih (by omega)
    simp only [List.range_succ, List.foldl_append, List.foldl_cons, List.foldl_nil]
    generalize (List.range i).foldl (fun w n => w.releaseSet (BitVec.ofNat 4 n)) v = u at hrest hlane
    have hn : (BitVec.ofNat 4 i).toNat = i := by rw [BitVec.toNat_ofNat, Nat.mod_eq_of_lt (by omega)]
    have hmask : u.mask (BitVec.ofNat 4 i) = v.mask (BitVec.ofNat 4 i) := by rw [hrest]; rfl
    have hst : ∀ l, l < 32 → ((u.lane l).st = .join (BitVec.ofNat 4 i) ↔ (v.lane l).st = .join (BitVec.ofNat 4 i)) := by
      intro l hl
      rw [hlane, if_pos hl]
      cases hx : (v.lane l).st with
      | join k =>
        rw [freedBelow_of_join hx]
        split
        · next hk => constructor
                     · intro h0; exact absurd h0 (by simp)
                     · intro h0; cases h0; rw [hn] at hk; exact absurd hk.1 (by omega)
        · rw [hx]
      | _ => rw [freedBelow_of_not_join (by simp [hx]), hx]
    have hcnt : u.wcnt (BitVec.ofNat 4 i) = v.wcnt (BitVec.ofNat 4 i) := by
      unfold Wave.wcnt
      rw [lanesWhere_congr (u := u) (v := v) (p := fun l => l.st == .join (BitVec.ofNat 4 i)) (q := fun l => l.st == .join (BitVec.ofNat 4 i))]
      intro l hl
      rw [Bool.eq_iff_iff, beq_iff_eq, beq_iff_eq]
      exact hst l hl
    refine ⟨?_, fun l => ?_⟩
    · rw [releaseSet_rest, hrest]
    · rw [releaseSet_lane, hmask, hcnt]
      by_cases hl : l < 32
      · have hx := hst l hl
        rw [if_pos hl]
        by_cases hj : (v.lane l).st = .join (BitVec.ofNat 4 i)
        · have hu : u.lane l = v.lane l := by rw [hlane, if_pos hl, freedBelow_of_join hj, if_neg (by rw [hn]; omega)]
          rw [freedBelow_of_join hj, hn, hu]
          simp [hl, hj]
        · rw [if_neg (fun hc => hj (hx.1 hc.2.2)), hlane, if_pos hl]
          cases hs : (v.lane l).st with
          | join k =>
            have hk : k.toNat ≠ i := fun hk => hj (by rw [hs, ← hk, BitVec.ofNat_toNat, BitVec.setWidth_eq])
            rw [freedBelow_of_join hs, freedBelow_of_join hs]
            simp only [show (k.toNat < i + 1 ↔ k.toNat < i) by omega]
          | _ => rw [freedBelow_of_not_join (by simp [hs]), freedBelow_of_not_join (by simp [hs])]
      · rw [if_neg hl, if_neg (fun hc => hl hc.2.1), hlane, if_neg hl]
theorem releaseAll_rest (v : Wave) : ∃ ls, v.releaseAll = { v with lanes := ls } := ⟨_, (releaseSets_upTo v 16 (by decide)).1⟩
theorem releaseAll_lane (v : Wave) (l : Nat) : v.releaseAll.lane l = if l < 32 then freed v (v.lane l) else v.lane l := by
  have := (releaseSets_upTo v 16 (by decide)).2 l
  rw [freedBelow_sixteen] at this
  exact this
@[simp] theorem releaseAll_mask (v : Wave) (k : BitVec 4) : v.releaseAll.mask k = v.mask k := by
  obtain ⟨ls, h⟩ := releaseAll_rest v
  rw [h]
  rfl

/-! ### Masks -/

theorem mask_setMask (v : Wave) (n k : BitVec 4) (x : LaneMask) : (v.setMask n x).mask k = if k = n then x else v.mask k := by
  unfold Wave.mask Wave.setMask
  refine (fget_fset ..).trans ?_
  simp only [BitVec.toNat_inj]
theorem setMask_rest (v : Wave) (n : BitVec 4) (x : LaneMask) : v.setMask n x = { v with sets := (v.setMask n x).sets } := rfl
theorem getLsbD_maskOf_activeLanes {s : State} {m : Mods} {l : Nat} : (maskOf (s.activeLanes m)).getLsbD l = true ↔ On s m l := by
  rw [getLsbD_maskOf, Bool.and_eq_true, decide_eq_true_eq, decide_eq_true_eq, mem_activeLanes]
  exact and_iff_left_of_imp fun h => State.lane_lt_of_getLsbD h.1

/-- The state of the issuing wave once a set's mask has become `x` and every full set has released its lanes. -/
theorem rejoin_becomes {s : State} {m : Mods} {n : BitVec 4} {f : Wave → LaneMask → Wave} {x : LaneMask}
    (hf : f (s.wave s.cur.wid) (maskOf (s.activeLanes m)) = (s.wave s.cur.wid).setMask n x) :
    let t := finish (rejoin s m f) []
    let v := s.wave s.cur.wid
    t = { s with waves := t.waves } ∧ (∀ w, w ≠ s.cur.wid → t.wave w = s.wave w) ∧
    (∀ k, (t.wave s.cur.wid).mask k = if k = n then x else v.mask k) ∧
    t.wave s.cur.wid = { v with lanes := (t.wave s.cur.wid).lanes, sets := (t.wave s.cur.wid).sets } ∧
    ∀ l, l < 32 → t.lane s.cur.wid l = if s.cur.lanes.getLsbD l then goOn s l (freed (v.setMask n x) (s.lane s.cur.wid l))
      else freed (v.setMask n x) (s.lane s.cur.wid l) := by
  have hw : (rejoin s m f).wave s.cur.wid = ((s.wave s.cur.wid).setMask n x).releaseAll := by
    rw [rejoin, State.wave_modWave_self, hf]
  have hg := finish_goesOn (rejoin s m f)
  have hcur : (rejoin s m f).cur = s.cur := rfl
  obtain ⟨h1, h2, h3⟩ := hg
  rw [hcur] at h1 h2 h3
  have hwave : (finish (rejoin s m f) []).wave s.cur.wid =
      { s.wave s.cur.wid with lanes := ((finish (rejoin s m f) []).wave s.cur.wid).lanes, sets := ((s.wave s.cur.wid).setMask n x).sets } := by
    have h2' : (finish (rejoin s m f) []).wave s.cur.wid =
        { (rejoin s m f).wave s.cur.wid with lanes := ((finish (rejoin s m f) []).wave s.cur.wid).lanes } := h2
    obtain ⟨ls, hrel⟩ := releaseAll_rest ((s.wave s.cur.wid).setMask n x)
    rw [hw, hrel] at h2'
    exact h2'
  refine ⟨finish_frame_waves rfl, fun w hne => ?_, fun k => ?_, ?_, fun l hl => ?_⟩
  · rw [h1 w hne, rejoin, State.wave_modWave, if_neg hne]
  · rw [← mask_setMask, hwave]
    rfl
  · rw [hwave]
  · have hrl : (rejoin s m f).lane s.cur.wid l = freed ((s.wave s.cur.wid).setMask n x) (s.lane s.cur.wid l) := by
      unfold State.lane
      rw [hw, releaseAll_lane, if_pos hl]
      rfl
    rw [h3 l, hrl]
    rfl

theorem elected_of_some {s : State} {m : Mods} (h : ∃ l, On s m l) : ∃ e, s.elected m = some e := by
  obtain ⟨l, hl⟩ := h
  cases hs : s.elected m with
  | some e => exact ⟨e, rfl⟩
  | none =>
    have : s.activeLanes m = [] := List.head?_eq_none_iff.1 hs
    exact absurd (mem_activeLanes.2 hl) (by rw [this]; simp)
theorem rejoinWrite_free {s : State} {m : Mods} {n : BitVec 4} {x : LaneMask} (h : ∃ l, On s m l) (h0 : (s.wave s.cur.wid).heldCnt n = 0) :
    rejoinWrite s m n x = .next (finish (rejoin s m (fun w _ => w.setMask n x)) []) := by
  obtain ⟨e, he⟩ := elected_of_some h
  unfold rejoinWrite
  rw [he]
  simp only [State.curWave, h0, ne_eq, not_true, if_false]
theorem rejoinWrite_held {s : State} {m : Mods} {n : BitVec 4} {x : LaneMask} (h : ∃ l, On s m l) (h0 : (s.wave s.cur.wid).heldCnt n ≠ 0) :
    rejoinWrite s m n x = .next (refuse s m .jbusy) := by
  obtain ⟨e, he⟩ := elected_of_some h
  unfold rejoinWrite
  rw [he]
  exact if_pos h0
theorem wcnt_setMask (v : Wave) (n k : BitVec 4) (x : LaneMask) : (v.setMask n x).wcnt k = v.wcnt k := rfl
theorem freed_setMask (v : Wave) (n : BitVec 4) (x : LaneMask) (y : Lane) : freed (v.setMask n x) y =
    match y.st with
    | .join k => if (if k = n then x else v.mask k) ≠ 0 ∧ v.wcnt k = popCount (if k = n then x else v.mask k) then { y with st := .run, pc := y.nextPc } else y
    | _ => y := by
  unfold freed
  simp only [mask_setMask, wcnt_setMask]

/-- An instruction that changes a set and goes on. -/
theorem rejoin_turns {i : Instr} {s : State} {m : Mods} {n : BitVec 4} {f : Wave → LaneMask → Wave} {x : LaneMask}
    (hi : exec i s = .next (finish (rejoin s m f) [])) (hf : f (s.wave s.cur.wid) (maskOf (s.activeLanes m)) = (s.wave s.cur.wid).setMask n x) :
    ∃ t, exec i s = .next t ∧ t = { s with waves := t.waves } ∧ (∀ w, w ≠ s.cur.wid → t.wave w = s.wave w) ∧
      (∀ k, (t.wave s.cur.wid).mask k = if k = n then x else (s.wave s.cur.wid).mask k) ∧
      t.wave s.cur.wid = { s.wave s.cur.wid with lanes := (t.wave s.cur.wid).lanes, sets := (t.wave s.cur.wid).sets } ∧
      ∀ l, l < 32 → t.lane s.cur.wid l = if s.cur.lanes.getLsbD l then goOn s l (freed ((s.wave s.cur.wid).setMask n x) (s.lane s.cur.wid l))
        else freed ((s.wave s.cur.wid).setMask n x) (s.lane s.cur.wid l) :=
  ⟨_, hi, rejoin_becomes hf⟩

theorem rejoinSets : Claims.RejoinSets := by
  unfold Claims.RejoinSets
  intro s m n d
  refine ⟨maskOf (s.activeLanes m), fun l => getLsbD_maskOf_activeLanes, ?_⟩
  have turns := @rejoin_turns
  simp only [freed_setMask] at turns
  refine ⟨turns rfl rfl, turns rfl rfl, fun hs => ?_, fun hs h0 => ?_, fun h0 e he => ?_, fun hs h0 ha => ⟨⟨_, ?_, refuse_stops (sub := .jbusy) ha hs⟩, ⟨_, ?_, refuse_stops (sub := .jbusy) ha hs⟩⟩⟩
  · have hi : exec (.rjGet m d n) s = lane32 s m latI d (fun _ => s.curWave.mask n) := by
      show execRjGet m d n s = _
      rw [execRjGet, if_pos (someActive_eq_true.2 hs)]
    exact lane32_computes hi
  · exact turns (rejoinWrite_free hs h0) rfl
  · refine turns (m := m) (f := fun w _ => w.setMask n (s.src s.cur.wid e d &&& (s.wave s.cur.wid).live)) ?_ rfl
    show execRjSet m d n s = _
    rw [execRjSet, rejoinWrite_free ⟨e, he.1⟩ h0, elected_eq he]
    rfl
  · exact rejoinWrite_held hs h0
  · exact rejoinWrite_held hs h0

/-! ### The wait of a set (R25, R26) -/

theorem wcnt_eq_sum {v u : Wave} {n : BitVec 4} {parks : LaneMask} (hst : ∀ l, l < 32 → ((u.lane l).st = .join n ↔ (v.lane l).st = .join n ∨ parks.getLsbD l = true))
    (hd : ∀ l, parks.getLsbD l = true → (v.lane l).st ≠ .join n) : u.wcnt n = v.wcnt n + popCount parks := by
  have hu : ∀ l, (u.lanesWhere (fun x => x.st == .join n)).getLsbD l = true ↔
      (v.lanesWhere (fun x => x.st == .join n)).getLsbD l = true ∨ parks.getLsbD l = true := by
    intro l
    rw [getLsbD_lanesWhere, getLsbD_lanesWhere, beq_iff_eq, beq_iff_eq]
    constructor
    · rintro ⟨hl, h⟩
      exact ((hst l hl).1 h).imp (fun h => ⟨hl, h⟩) id
    · rintro (⟨hl, h⟩ | h)
      · exact ⟨hl, (hst l hl).2 (.inl h)⟩
      · have hl := State.lane_lt_of_getLsbD h
        exact ⟨hl, (hst l hl).2 (.inr h)⟩
  unfold Wave.wcnt popCount lanesOf
  rw [← List.countP_eq_length_filter, ← List.countP_eq_length_filter, ← List.countP_eq_length_filter]
  have key : ∀ ls : List Nat, ls.countP (fun l => (u.lanesWhere (fun x => x.st == .join n)).getLsbD l) =
      ls.countP (fun l => (v.lanesWhere (fun x => x.st == .join n)).getLsbD l) + ls.countP (fun l => parks.getLsbD l) := by
    intro ls
    induction ls with
    | nil => rfl
    | cons l ls ih =>
      rw [List.countP_cons, List.countP_cons, List.countP_cons, ih]
      have h1 := hu l
      have h2 : ¬ ((v.lanesWhere (fun x => x.st == .join n)).getLsbD l = true ∧ parks.getLsbD l = true) := by
        rintro ⟨ha, hb⟩
        exact hd l hb (by simpa using ((getLsbD_lanesWhere l).1 ha).2)
      by_cases ha : (v.lanesWhere (fun x => x.st == .join n)).getLsbD l = true
      · have hb : ¬ parks.getLsbD l = true := fun hb => h2 ⟨ha, hb⟩
        rw [if_pos (h1.2 (.inl ha)), if_pos ha, if_neg hb]
        omega
      · by_cases hb : parks.getLsbD l = true
        · rw [if_pos (h1.2 (.inr hb)), if_neg ha, if_pos hb]
          omega
        · rw [if_neg (fun h => (h1.1 h).elim ha hb), if_neg ha, if_neg hb]
          omega
  exact key _

/-- The lanes that a wait of set `n` parks. -/
def parksAt (s : State) (m : Mods) (n : BitVec 4) : LaneMask := maskOf (s.activeLanes m) &&& (s.wave s.cur.wid).mask n
theorem getLsbD_parksAt {s : State} {m : Mods} {n : BitVec 4} {l : Nat} :
    (parksAt s m n).getLsbD l = true ↔ On s m l ∧ ((s.wave s.cur.wid).mask n).getLsbD l = true := by
  rw [parksAt, BitVec.getLsbD_and, Bool.and_eq_true, getLsbD_maskOf_activeLanes]

section
variable {s : State} {m : Mods} {n : BitVec 4}

/-- The wave when its members have parked and the others of the path have gone on. -/
def parkedWave (s : State) (m : Mods) (n : BitVec 4) : State := finish (s.parkLanes (lanesOf (parksAt s m n)) (.join n)) []
theorem parkedWave_rest : (parkedWave s m n).wave s.cur.wid = { s.wave s.cur.wid with lanes := ((parkedWave s m n).wave s.cur.wid).lanes } := by
  obtain ⟨-, h2, -⟩ := finish_goesOn (s.parkLanes (lanesOf (parksAt s m n)) (.join n))
  have hw : (s.parkLanes (lanesOf (parksAt s m n)) (.join n)).wave s.cur.wid = (s.wave s.cur.wid).upd (lanesOf (parksAt s m n)) _ := State.wave_updLanes_self ..
  have h2' : (parkedWave s m n).wave s.cur.wid = { (s.parkLanes (lanesOf (parksAt s m n)) (.join n)).wave s.cur.wid with
    lanes := ((parkedWave s m n).wave s.cur.wid).lanes } := h2
  rw [hw] at h2'
  exact h2'
theorem parkedWave_wave_ne {w : Nat} (h : w ≠ s.cur.wid) : (parkedWave s m n).wave w = s.wave w := by
  obtain ⟨h1, -, -⟩ := finish_goesOn (s.parkLanes (lanesOf (parksAt s m n)) (.join n))
  exact (h1 w h).trans (by rw [State.parkLanes, State.wave_updLanes, if_neg h])
theorem parkedWave_lane (hrun : ∀ l, s.cur.lanes.getLsbD l = true → (s.lane s.cur.wid l).st = .run) (hmoved : s.cur.moved = 0) (l : Nat) :
    (parkedWave s m n).lane s.cur.wid l =
      if (parksAt s m n).getLsbD l then { s.lane s.cur.wid l with st := .join n, pc := s.cur.pc, nextPc := s.cur.npc }
      else if s.cur.lanes.getLsbD l then { s.lane s.cur.wid l with pc := s.cur.npc } else s.lane s.cur.wid l := by
  obtain ⟨-, -, h3⟩ := finish_goesOn (s.parkLanes (lanesOf (parksAt s m n)) (.join n))
  have h0 : s.cur.moved.getLsbD l = false := by rw [hmoved]; exact BitVec.getLsbD_zero
  have hl : (s.parkLanes (lanesOf (parksAt s m n)) (.join n)).lane s.cur.wid l =
      if (parksAt s m n).getLsbD l then { s.lane s.cur.wid l with st := .join n, pc := s.cur.pc, nextPc := s.cur.npc } else s.lane s.cur.wid l := by
    unfold State.parkLanes
    rw [State.lane_updLanes]
    simp only [true_and, h0, Bool.false_eq_true, if_false]
  have h3' := h3 l
  have hcur : (s.parkLanes (lanesOf (parksAt s m n)) (.join n)).cur = s.cur := rfl
  rw [hcur] at h3'
  refine Eq.trans h3' ?_
  rw [hl]
  by_cases hp : (parksAt s m n).getLsbD l = true
  · have hin : s.cur.lanes.getLsbD l = true := (getLsbD_parksAt.1 hp).1.1
    rw [if_pos hin, if_pos hp, if_pos hp, goOn, if_neg (by simp)]
  · rw [if_neg hp, if_neg hp]
    by_cases hin : s.cur.lanes.getLsbD l = true
    · rw [if_pos hin, if_pos hin, goOn]
      rw [hcur, if_pos ⟨h0, hrun l hin⟩]
    · rw [if_neg hin, if_neg hin]

/-- The whole wave once its sets have been checked. -/
def waitedWave (s : State) (m : Mods) (n : BitVec 4) : State := (parkedWave s m n).modWave s.cur.wid (fun v => v.releaseAll)
theorem waitedWave_rest : ∃ ls, (waitedWave s m n).wave s.cur.wid = { s.wave s.cur.wid with lanes := ls } := by
  obtain ⟨ls, h⟩ := releaseAll_rest ((parkedWave s m n).wave s.cur.wid)
  rw [waitedWave, State.wave_modWave_self, h, parkedWave_rest]
  exact ⟨_, rfl⟩
theorem parkedWave_st (hrun : ∀ l, s.cur.lanes.getLsbD l = true → (s.lane s.cur.wid l).st = .run) (hmoved : s.cur.moved = 0) (k : BitVec 4) (l : Nat) :
    ((parkedWave s m n).lane s.cur.wid l).st = .join k ↔ (s.lane s.cur.wid l).st = .join k ∨ (k = n ∧ (parksAt s m n).getLsbD l = true) := by
  rw [parkedWave_lane hrun hmoved]
  by_cases hp : (parksAt s m n).getLsbD l = true
  · have hr := hrun l (getLsbD_parksAt.1 hp).1.1
    rw [if_pos hp, hr]
    simp [hp, eq_comm]
  · rw [if_neg hp]
    split <;> simp [hp]
theorem parkedWave_wcnt (hrun : ∀ l, s.cur.lanes.getLsbD l = true → (s.lane s.cur.wid l).st = .run) (hmoved : s.cur.moved = 0) (k : BitVec 4) :
    ((parkedWave s m n).wave s.cur.wid).wcnt k = (s.wave s.cur.wid).wcnt k + if k = n then popCount (parksAt s m n) else 0 := by
  have hst := fun l (_ : l < 32) => parkedWave_st (m := m) (n := n) hrun hmoved k l
  by_cases hk : k = n
  · subst hk
    rw [if_pos rfl]
    refine wcnt_eq_sum (fun l hl => (hst l hl).trans (by simp [State.lane])) fun l hl => ?_
    have hr : ((s.wave s.cur.wid).lane l).st = .run := hrun l (getLsbD_parksAt.1 hl).1.1
    rw [hr]
    simp
  · rw [if_neg hk, Nat.add_zero]
    unfold Wave.wcnt
    congr 1
    refine lanesWhere_congr fun l hl => ?_
    rw [Bool.eq_iff_iff, beq_iff_eq, beq_iff_eq]
    exact (hst l hl).trans (by simp [hk, State.lane])

/-- Where a lane stands when the wait of set `n` has been taken. -/
def afterWait (s : State) (m : Mods) (n : BitVec 4) (l : Nat) : Lane :=
  let x := s.lane s.cur.wid l
  let v := s.wave s.cur.wid
  let full := fun k => v.mask k ≠ 0 ∧ v.wcnt k + (if k = n then popCount (parksAt s m n) else 0) = popCount (v.mask k)
  if (parksAt s m n).getLsbD l then
    (if full n then { x with st := .run, pc := s.cur.npc, nextPc := s.cur.npc }
     else { x with st := .join n, pc := s.cur.pc, nextPc := s.cur.npc })
  else if s.cur.lanes.getLsbD l then { x with pc := s.cur.npc }
  else match x.st with | .join k => if full k then { x with st := .run, pc := x.nextPc } else x | _ => x
theorem waitedWave_lane (hrun : ∀ l, s.cur.lanes.getLsbD l = true → (s.lane s.cur.wid l).st = .run) (hmoved : s.cur.moved = 0) {l : Nat} (hl : l < 32) :
    (waitedWave s m n).lane s.cur.wid l = afterWait s m n l := by
  have hmask : ∀ k, ((parkedWave s m n).wave s.cur.wid).mask k = (s.wave s.cur.wid).mask k := fun k => by rw [parkedWave_rest]; rfl
  have hcnt := fun k => parkedWave_wcnt (m := m) (n := n) hrun hmoved k
  have hw : (waitedWave s m n).lane s.cur.wid l = freed ((parkedWave s m n).wave s.cur.wid) ((parkedWave s m n).lane s.cur.wid l) := by
    unfold State.lane
    rw [waitedWave, State.wave_modWave_self, releaseAll_lane, if_pos hl]
  rw [hw, parkedWave_lane hrun hmoved]
  unfold afterWait
  by_cases hp : (parksAt s m n).getLsbD l = true
  · rw [if_pos hp, if_pos hp, freed_of_join rfl, hmask, hcnt]
  · rw [if_neg hp, if_neg hp]
    by_cases hin : s.cur.lanes.getLsbD l = true
    · rw [if_pos hin, if_pos hin, freed_of_not_join]
      intro k
      have hr := hrun l hin
      show (s.lane s.cur.wid l).st ≠ _
      rw [hr]
      simp
    · rw [if_neg hin, if_neg hin]
      unfold freed
      simp only [hmask, hcnt]
end

/-- Every live lane of a wave is parked in a set. -/
theorem isOrphan_iff (v : Wave) : v.isOrphan = true ↔ (∃ l, l < 32 ∧ (v.lane l).st ≠ .exit) ∧
    ∀ l, l < 32 → (v.lane l).st ≠ .exit → ∃ k, (v.lane l).st = .join k := by
  have hj : ∀ x : Lane, (match x.st with | .join _ => true | _ => false) = true ↔ ∃ k, x.st = .join k := by
    intro x
    cases hx : x.st <;> simp
  rw [Wave.isOrphan, Bool.and_eq_true, decide_eq_true_eq, beq_iff_eq, Wave.live, lanesWhere_ne_zero]
  refine and_congr (by simp only [bne_iff_ne, ne_eq]) ⟨fun h l hl hx => ?_, fun h => BitVec.eq_of_getLsbD_eq fun l hl => ?_⟩
  · have h1 := (getLsbD_lanesWhere (v := v) (p := fun x => x.st != .exit) l).2 ⟨hl, by simpa using hx⟩
    rw [h, getLsbD_lanesWhere] at h1
    exact (hj _).1 h1.2
  · rw [Bool.eq_iff_iff, getLsbD_lanesWhere, getLsbD_lanesWhere, bne_iff_ne]
    refine and_congr_right fun _ => Iff.trans ⟨h l hl, ?_⟩ (hj (v.lane l)).symm
    rintro ⟨k, hk⟩
    rw [hk]
    simp
/-- What a wave with no lane that can go on records (R26): ORPHAN where each lane stands. -/
theorem settle_orphan {s : State} {w : Nat} (ho : (s.wave w).isOrphan = true) (hs : (s.wave w).stopped = false) (hsys : (s.wave w).sys = false) :
    (∀ x, x ≠ w → (settle s w).wave x = s.wave x) ∧ (settle s w).mem = s.mem ∧ ((settle s w).wave w).stopped = true ∧
    ∀ l, l < 32 → (s.lane w l).st ≠ .exit → ((settle s w).lane w l).st = .trap ∧ ((settle s w).lane w l).prior = (s.lane w l).st ∧
      ((settle s w).lane w l).trapCause = causeWord 0x13 0 0 ∧ ((settle s w).lane w l).trapPc = (s.lane w l).pc := by
  have hst : settle s w = takeStop s w ((lanesOf (s.wave w).live).map (fun l => ⟨l, .orphan, 0, 0, 0, false, 0, 0⟩)) := by
    exact if_pos (by rw [ho, hs]; rfl)
  have hmem : ∀ l, l ∈ lanesOf (s.wave w).live ↔ l < 32 ∧ (s.lane w l).st ≠ .exit := by
    intro l
    rw [mem_lanesOf, live_getLsbD]
    simp [State.lane]
  obtain ⟨l0, hl0, hx0⟩ := ((isOrphan_iff _).1 ho).1
  have hne : (lanesOf (s.wave w).live).map (fun l => (⟨l, .orphan, 0, 0, 0, false, 0, 0⟩ : StopRec)) ≠ [] := by
    rw [ne_eq, List.map_eq_nil_iff]
    exact List.ne_nil_of_mem ((hmem l0).2 ⟨hl0, hx0⟩)
  rw [hst]
  refine ⟨fun x hx => takeStop_wave_ne hne hsys hx, (takeStop_memory hne hsys).1, by rw [takeStop_wave_self hne hsys]; rfl, fun l hl hx => ?_⟩
  have hf := find_stop (f := fun l => (⟨l, .orphan, 0, 0, 0, false, 0, 0⟩ : StopRec)) (fun _ => rfl) (lanesOf (s.wave w).live) l
  rw [if_pos ((hmem l).2 ⟨hl, hx⟩)] at hf
  rw [takeStop_lane hne hsys, if_pos ⟨hl, hx⟩, hf]
  refine ⟨rfl, rfl, ?_, rfl⟩
  show (0 : W16) ++ (0 : Byte) ++ Cause.orphan.code = _
  decide
theorem settle_of_not_orphan {s : State} {w : Nat} (ho : (s.wave w).isOrphan ≠ true) : settle s w = s := by
  unfold settle
  rw [if_neg (by simp [ho])]

theorem rejoinWait : Claims.RejoinWait := by
  unfold Claims.RejoinWait
  intro s m n ha hstops hns hrun hmoved
  refine ⟨parksAt s m n, fun l => getLsbD_parksAt, ?_⟩
  have hlane := fun l (hl : l < 32) => waitedWave_lane (m := m) (n := n) hrun hmoved hl
  obtain ⟨ls, hrest⟩ := waitedWave_rest (s := s) (m := m) (n := n)
  have hne : ∀ w, w ≠ s.cur.wid → (waitedWave s m n).wave w = s.wave w := fun w hw => by
    rw [waitedWave, State.wave_modWave, if_neg hw, parkedWave_wave_ne hw]
  have hexec : exec (.rjWait m n) s = .next (settle (waitedWave s m n) s.cur.wid) := by
    show execRjWait m n s = _
    have hcond : (s.cur.grouped || !(waitedWave s m n).cur.stops.isEmpty) = false := by
      have hc : (waitedWave s m n).cur.stops = [] := (show (waitedWave s m n).cur.stops = s.cur.stops by
        rw [waitedWave, State.modWave_cur, parkedWave, finish_nil]; rfl).trans hstops
      rw [ha.2.1, hc]
      rfl
    exact congrArg Host.Outcome.next (if_neg (by rw [show (finish (s.parkLanes (lanesOf (maskOf (s.activeLanes m) &&& s.curWave.mask n)) (.join n)) []).modWave s.cur.wid
      (fun v => v.releaseAll) = waitedWave s m n from rfl, hcond]; simp))
  have horph : ((waitedWave s m n).wave s.cur.wid).isOrphan = true ↔ (∃ l, l < 32 ∧ (afterWait s m n l).st ≠ .exit) ∧
      ∀ l, l < 32 → (afterWait s m n l).st ≠ .exit → ∃ k, (afterWait s m n l).st = .join k := by
    rw [isOrphan_iff]
    have hl : ∀ l, l < 32 → ((waitedWave s m n).wave s.cur.wid).lane l = afterWait s m n l := hlane
    refine and_congr (exists_congr fun l => and_congr_right fun h => by rw [hl l h]) (forall_congr' fun l => forall_congr' fun h => by rw [hl l h])
  have hmem : (waitedWave s m n).mem = s.mem := by rw [waitedWave, State.modWave_mem, parkedWave, finish_nil]; rfl
  refine ⟨_, hexec, fun w hw => ?_, ?_, fun hno => ?_, fun ho => ?_⟩
  · by_cases ho : ((waitedWave s m n).wave s.cur.wid).isOrphan = true
    · rw [(settle_orphan ho (by rw [hrest]; exact hns) (by rw [hrest]; exact ha.1)).1 w hw, hne w hw]
    · rw [settle_of_not_orphan ho, hne w hw]
  · by_cases ho : ((waitedWave s m n).wave s.cur.wid).isOrphan = true
    · rw [(settle_orphan ho (by rw [hrest]; exact hns) (by rw [hrest]; exact ha.1)).2.1, hmem]
    · rw [settle_of_not_orphan ho, hmem]
  · rw [settle_of_not_orphan (fun h => hno (horph.1 h))]
    refine ⟨?_, by rw [hrest], hlane⟩
    rw [waitedWave, parkedWave, finish_nil]
    rfl
  · obtain ⟨-, -, h3, h4⟩ := settle_orphan (horph.2 ho) (by rw [hrest]; exact hns) (by rw [hrest]; exact ha.1)
    refine ⟨h3, fun l hl hx => ?_⟩
    have hx' := hlane l hl
    obtain ⟨q1, q2, q3, q4⟩ := h4 l hl (by rw [hx']; exact hx)
    rw [hx'] at q2 q4
    exact ⟨q1, q2, q3, q4⟩

/-- Settles O16, from the law of the release of full sets. -/
theorem rejoining : Obligations.Rejoining := ⟨rejoinSets, rejoinWait⟩

end Sys2Proof
end

