-- ==== Sys2Proof/Proofs/ExitRefuted.lean ====
section
/-! SUPPORT. The end of a wave that ends a troupe (R11, R36, R37) where another wave's request then dies (R33, R313). -/

namespace Sys2Proof

open Machine

/-- Lane 0 of wave 32, alone in troupe 1, issues `exit`. On its core wave 33, of troupe 2 and of the same context, is in system mode and
waits for registers; what is freed is held for a waiting corps (R300), so that when wave 32 has ended every wave that holds registers of the
core waits for more. -/
def exitBesideSystemWave : State :=
  let s := Tests.solo []
  { s with
    troupes := s.troupes ++ [(2, { Troupe.init with ctx := 5, st := .resident, hdr := Tests.hdrOf, tidx := 1 })]
    waves := s.waves ++ [(33, { Tests.waveOf [] with tid := 2, allot := 64, sys := true })]
    pkgs := [(0, { Tests.pkgOf with
      cores := [(0, { Core.init with tlb := [Tests.pageAll], grantQ := [(33, 120)] })]
      sched := { Tests.pkgOf.sched with launches := [(7, { Launch.init with wait := some ⟨0, 1, 16⟩ })] } })] }

set_option maxRecDepth 100000 in
/-- Wave 33 takes REGDEAD, which in system mode stops its context: the troupe that has just ended is published with it. -/
theorem exitBesideSystemWave_publishes :
    (match exec (.exit Tests.plain) exitBesideSystemWave with | .next t => (t.troupe 1).st | _ => .ended) = .published := by decide

set_option maxRecDepth 100000 in
theorem exitBesideSystemWave_last : ∀ l, l < 32 → (exitBesideSystemWave.lane 32 l).st ≠ .exit → l = 0 := by decide

/-- Refutes O17: the registers that the wave frees are offered to its core's queue at once, where nothing can be granted and the youngest
request, of a wave in system mode, dies; its context stops, and the ended troupe with it, so that the troupe is published and not ended. -/
theorem not_exitEndsLanes : ¬ Obligations.ExitEndsLanes := by
  unfold Obligations.ExitEndsLanes
  intro h
  have hon := Tests.on_iff (s := exitBesideSystemWave) (m := Tests.plain) rfl rfl
  obtain ⟨t, ht, -, -, -, -, -, -, -, hend⟩ := h exitBesideSystemWave Tests.plain ⟨rfl, rfl, rfl⟩ rfl rfl ⟨0, (hon 0).2 rfl⟩
  have hst := hend (fun l hl hx => (hon l).2 (exitBesideSystemWave_last l hl hx)) rfl (by decide)
  have hpub := exitBesideSystemWave_publishes
  rw [ht] at hpub
  exact absurd (hpub.symm.trans hst) (by decide)

end Sys2Proof
end

