-- ==== Sys2Proof/Proofs/Branches.lean ====
section
/-! SUPPORT. Branches (R82, R85, R158 to R160): the lanes that go to a target, the link, and targets that stop a lane. -/

namespace Sys2Proof

open Machine

/-! ### Changes of some lanes of the path -/

theorem State.lane_updLanes_of_nodup (s : State) (w x n : Nat) {ls : List Nat} (h : ls.Nodup) (f : Nat → Lane → Lane) :
    (s.updLanes w ls f).lane x n = if x = w ∧ n ∈ ls then f n (s.lane w n) else s.lane x n := by
  unfold State.lane
  rw [State.wave_updLanes]
  by_cases hx : x = w
  · subst hx
    simp [Wave.lane_upd _ _ _ _ h]
  · simp [hx]
theorem WaveBecomes.of_waves {s t u : State} {g : Wave → Wave} {f : Nat → Lane → Lane} (h : WaveBecomes s t g f) (hw : u.waves = t.waves) :
    WaveBecomes s u g f := by
  have hwave : ∀ w, u.wave w = t.wave w := fun w => by unfold State.wave; rw [hw]
  have hlane : ∀ w l, u.lane w l = t.lane w l := fun w l => by unfold State.lane; rw [hwave]
  exact ⟨fun w hne => (hwave w).trans (h.waves w hne), by rw [hwave]; exact h.rest, fun l => (hlane ..).trans (h.lanes l)⟩
theorem WaveBecomes.congr {s t : State} {g : Wave → Wave} {f f' : Nat → Lane → Lane} (h : WaveBecomes s t g f)
    (he : ∀ l, s.cur.lanes.getLsbD l = true → f l (s.lane s.cur.wid l) = f' l (s.lane s.cur.wid l)) : WaveBecomes s t g f' := by
  refine ⟨h.waves, h.rest, fun l => (h.lanes l).trans ?_⟩
  by_cases hl : s.cur.lanes.getLsbD l = true
  · rw [if_pos hl, if_pos hl, he l hl]
  · rw [if_neg hl, if_neg hl]
/-- A further change of some lanes of the path. -/
theorem WaveBecomes.updList {s t : State} {g : Wave → Wave} {f : Nat → Lane → Lane} (h : WaveBecomes s t g f) {ls : List Nat} (hd : ls.Nodup)
    (hin : ∀ l ∈ ls, s.cur.lanes.getLsbD l = true) (f2 : Nat → Lane → Lane) :
    WaveBecomes s (t.updLanes s.cur.wid ls f2) g (fun l x => if l ∈ ls then f2 l (f l x) else f l x) := by
  refine ⟨fun w hw => ?_, ?_, fun l => ?_⟩
  · rw [State.wave_updLanes, if_neg hw, h.waves w hw]
  · rw [State.wave_updLanes_self, upd_rest, h.rest]
  · rw [State.lane_updLanes_of_nodup _ _ _ _ hd, h.lanes l]
    by_cases hl : l ∈ ls
    · rw [if_pos ⟨rfl, hl⟩, if_pos (hin l hl), if_pos (hin l hl), if_pos hl]
    · rw [if_neg (fun hc => hl hc.2), if_neg hl]
/-- The path goes on after a change that may have moved lanes. -/
theorem WaveBecomes.finish_moved {s t : State} {g : Wave → Wave} {f : Nat → Lane → Lane} (h : WaveBecomes s t g f)
    (hw : t.cur.wid = s.cur.wid) (hl : t.cur.lanes = s.cur.lanes) : WaveBecomes s (Machine.finish t []) g (fun l x => goOn t l (f l x)) := by
  have ha := finish_goesOn t
  refine ⟨fun w hne => ?_, ?_, fun l => ?_⟩
  · rw [ha.waves w (by rwa [hw]), h.waves w hne]
  · have h1 := ha.rest
    rw [hw, h.rest] at h1
    exact h1
  · have h1 := ha.lanes l
    rw [hw, hl, h.lanes l] at h1
    rw [h1]
    by_cases hin : s.cur.lanes.getLsbD l = true
    · rw [if_pos hin, if_pos hin, if_pos hin]
    · rw [if_neg hin, if_neg hin, if_neg hin]

/-! ### The lanes that branch -/

/-- A branch of a lane to a target: one that is parked goes there when it is released. -/
def branched (target : W64) (x : Lane) : Lane := if x.st = .run then { x with pc := target } else { x with nextPc := target }

section
variable {s t : State} {f : Nat → Lane → Lane} {ls : List Nat} {target : Nat → W64}

theorem branch_becomes (h : WaveBecomes s t id f) (hc : t.cur = s.cur) (hd : ls.Nodup) (hin : ∀ l ∈ ls, s.cur.lanes.getLsbD l = true) :
    WaveBecomes s (t.branch ls target) id (fun l x => if l ∈ ls then branched (target l) (f l x) else f l x) := by
  have hw : (t.branch ls target).waves = (t.updLanes s.cur.wid ls (fun n l => branched (target n) l)).waves := by
    rw [← hc]
    rfl
  exact (h.updList hd hin _).of_waves hw
theorem branch_cur (hc : t.cur = s.cur) : (t.branch ls target).cur = { s.cur with moved := s.cur.moved ||| maskOf ls } := by
  rw [← hc]
  rfl
/-- The lanes of a branch go to their targets and the others of the path go on. -/
theorem finish_branch_becomes (h : WaveBecomes s t id f) (hc : t.cur = s.cur) (hd : ls.Nodup) (hin : ∀ l ∈ ls, s.cur.lanes.getLsbD l = true) :
    WaveBecomes s (Machine.finish (t.branch ls target) []) id (fun l x => if l ∈ ls then branched (target l) (f l x) else goOn s l (f l x)) := by
  have hcur := branch_cur (ls := ls) (target := target) hc
  refine ((branch_becomes h hc hd hin).finish_moved (by rw [hcur]) (by rw [hcur])).congr fun l hl => ?_
  have hmoved : (t.branch ls target).cur.moved.getLsbD l = (s.cur.moved.getLsbD l || decide (l ∈ ls)) := by
    rw [hcur]
    simp only [BitVec.getLsbD_or, getLsbD_maskOf, State.lane_lt_of_getLsbD hl, decide_true, Bool.and_true]
  have hnpc : (t.branch ls target).cur.npc = s.cur.npc := by rw [hcur]
  by_cases hm : l ∈ ls
  · rw [if_pos hm, if_pos hm, goOn, if_neg (by rw [hmoved]; simp [hm])]
  · rw [if_neg hm, if_neg hm, goOn, goOn, hmoved, hnpc]
    simp only [hm, decide_false, Bool.or_false]
theorem finish_branch_moved (hc : t.cur = s.cur) (l : Nat) :
    (Machine.finish (t.branch ls target) []).cur.moved.getLsbD l = (s.cur.moved.getLsbD l || (decide (l ∈ ls) && decide (l < 32))) := by
  rw [finish_nil, State.advance_cur, branch_cur hc, BitVec.getLsbD_or, getLsbD_maskOf]
theorem finish_branch_frame {n : Nat} (ht : t = { s with waves := t.waves, nextId := n }) :
    Machine.finish (t.branch ls target) [] = { s with waves := (Machine.finish (t.branch ls target) []).waves, nextId := n, cur := { s.cur with moved := (Machine.finish (t.branch ls target) []).cur.moved } } := by
  have hc : t.cur = s.cur := by rw [ht]
  have hcur : (Machine.finish (t.branch ls target) []).cur = { s.cur with moved := (Machine.finish (t.branch ls target) []).cur.moved } := by
    rw [finish_nil, State.advance_cur, branch_cur hc]
  have key : Machine.finish (t.branch ls target) [] = { t with waves := (Machine.finish (t.branch ls target) []).waves, cur := (Machine.finish (t.branch ls target) []).cur } := by
    rw [finish_nil]
    rfl
  rw [key, ← hcur]
  generalize (Machine.finish (t.branch ls target) []).waves = ws
  generalize (Machine.finish (t.branch ls target) []).cur = c
  rw [ht]
end

theorem link_becomes {s : State} {ls : List Nat} (hd : ls.Nodup) (hin : ∀ l ∈ ls, s.cur.lanes.getLsbD l = true) (d : Reg) :
    WaveBecomes s (s.link ls d) id (fun l x => if l ∈ ls then
      { x with pend := x.pend ++ inFlight (inTwo s) s.nextId (to64 d (BitVec.ofNat 64 (s.cur.pc.toNat / 12 * 12 + 12))) } else x) := by
  have h := (waveBecomes_refl s).updList hd hin (fun _ l => l.send (latI.due s.clock) s.nextId (outs64 d (BitVec.ofNat 64 (s.packet + 12))))
  simp only [outs64_eq] at h
  exact h.of_waves (by rw [State.link]; simp only [outs64_eq]; rfl)
theorem link_frame (s : State) (ls : List Nat) (d : Reg) : s.link ls d = { s with waves := (s.link ls d).waves, nextId := s.nextId + 1 } := rfl

theorem mem_takers {s : State} {n : Bool} {p : Reg} {l : Nat} :
    l ∈ s.takers n p ↔ s.cur.lanes.getLsbD l = true ∧ ((s.lane s.cur.wid l).pred p.toNat != n) = true := by
  rw [State.takers, List.mem_filter, mem_lanesOf]
theorem takers_nodup (s : State) (n : Bool) (p : Reg) : (s.takers n p).Nodup := (lanesOf_nodup _).filter _
theorem decide_mem_takers {s : State} {n : Bool} {p : Reg} (l : Nat) : (decide (l ∈ s.takers n p) && decide (l < 32)) =
    (s.cur.lanes.getLsbD l && ((s.lane s.cur.wid l).pred p.toNat != n)) := by
  rw [Bool.eq_iff_iff, Bool.and_eq_true, Bool.and_eq_true, decide_eq_true_eq, decide_eq_true_eq, mem_takers]
  exact ⟨fun h => h.1, fun h => ⟨h, State.lane_lt_of_getLsbD h.1⟩⟩

theorem conditionalBranches : Claims.ConditionalBranches := by
  unfold Claims.ConditionalBranches
  intro s m o n p
  have hin : ∀ l ∈ s.takers n p, s.cur.lanes.getLsbD l = true := fun l hl => (mem_takers.1 hl).1
  have hd := takers_nodup s n p
  refine ⟨⟨_, rfl, finish_branch_frame rfl, fun l => ?_, ?_⟩, ⟨_, rfl, finish_branch_frame (link_frame ..), fun l => ?_, ?_⟩⟩
  · rw [finish_branch_moved rfl, decide_mem_takers]
  · refine (finish_branch_becomes (waveBecomes_refl s) rfl hd hin).congr fun l hl => ?_
    simp only [mem_takers, hl, true_and]
    rfl
  · rw [finish_branch_moved (s := s) (t := s.link (s.takers n p) 0) rfl, decide_mem_takers]
  · refine (finish_branch_becomes (link_becomes hd hin 0) rfl hd hin).congr fun l hl => ?_
    simp only [mem_takers, hl, true_and]
    by_cases ht : ((s.lane s.cur.wid l).pred p.toNat != n) = true
    · simp only [ht, if_true]
      rfl
    · simp only [ht, if_false, Bool.false_eq_true]

/-! ### Register branches -/

/-- The link that a register call sends to its pair, on its way in a lane. -/
def linked (s : State) (link : Option Reg) (x : Lane) : Lane :=
  match link with
  | some d => { x with pend := x.pend ++ inFlight (inTwo s) s.nextId (to64 d (BitVec.ofNat 64 (s.cur.pc.toNat / 12 * 12 + 12))) }
  | none => x
/-- The target of a `brx`: the packet that its index names past this one. -/
def indexTarget (s : State) (a : Reg) (l : Nat) : Option W64 :=
  if 4094 < (s.src s.cur.wid l a).toNat then none else some (BitVec.ofNat 64 (s.packet + 12 * (1 + (s.src s.cur.wid l a).toNat)))
theorem exec_jmp (m : Mods) (a : Reg) (s : State) : exec (.jmp m a) s = branchTo s m none (s.pairTarget a) := rfl
theorem exec_ret (m : Mods) (a : Reg) (s : State) : exec (.ret m a) s = branchTo s m none (s.pairTarget a) := rfl
theorem exec_callr (m : Mods) (d a : Reg) (s : State) : exec (.callr m d a) s = branchTo s m (some d) (s.pairTarget a) := rfl
theorem exec_brx (m : Mods) (a : Reg) (s : State) : exec (.brx m a) s = branchTo s m none (indexTarget s a) := rfl

/-- Lanes whose targets are all good go to them. -/
theorem branchTo_lands {i : Instr} {s : State} {m : Mods} {link : Option Reg} {target : Nat → Option W64} {to_ : Nat → W64}
    (hi : exec i s = branchTo s m link target) (hg : ∀ l, On s m l → target l = some (to_ l)) :
    ∃ t, exec i s = .next t ∧
      t = { s with waves := t.waves, nextId := (if link.isSome then s.nextId + 1 else s.nextId), cur := { s.cur with moved := t.cur.moved } } ∧
      (∀ l, t.cur.moved.getLsbD l = true ↔ s.cur.moved.getLsbD l = true ∨ On s m l) ∧
      WaveBecomes s t id (fun l x => if m.active x
        then branched (to_ l) (linked s link x) else goOn s l x) := by
  have hbad : (s.activeLanes m).filter (fun l => (target l).isNone) = [] :=
    List.filter_eq_nil_iff.2 fun l hl => by rw [hg l (mem_activeLanes.1 hl)]; simp
  have hgood : (s.activeLanes m).filter (fun l => (target l).isSome) = s.activeLanes m :=
    List.filter_eq_self.2 fun l hl => by rw [hg l (mem_activeLanes.1 hl)]; rfl
  have hd : (s.activeLanes m).Nodup := (lanesOf_nodup _).filter _
  have hin : ∀ l ∈ s.activeLanes m, s.cur.lanes.getLsbD l = true := fun l hl => (mem_activeLanes.1 hl).1
  have hmoved : ∀ {t : State}, t.cur = s.cur → ∀ tg l, (Machine.finish (t.branch (s.activeLanes m) tg) []).cur.moved.getLsbD l = true ↔
      s.cur.moved.getLsbD l = true ∨ On s m l := by
    intro t hc tg l
    rw [finish_branch_moved hc, Bool.or_eq_true, Bool.and_eq_true, decide_eq_true_eq, decide_eq_true_eq, mem_activeLanes]
    exact or_congr_right (and_iff_left_of_imp fun h => State.lane_lt_of_getLsbD h.1)
  have hlanes : ∀ l, s.cur.lanes.getLsbD l = true → (l ∈ s.activeLanes m ↔ m.active (s.lane s.cur.wid l) = true) := fun l hl =>
    mem_activeLanes.trans (and_iff_right hl)
  have hto : ∀ l, l ∈ s.activeLanes m → (target l).getD 0 = to_ l := fun l hl => by rw [hg l (mem_activeLanes.1 hl)]; rfl
  rw [hi]
  unfold branchTo
  simp only [hbad, hgood, List.map_nil]
  cases link with
  | none =>
    refine ⟨_, rfl, finish_branch_frame rfl, hmoved rfl _, (finish_branch_becomes (waveBecomes_refl s) rfl hd hin).congr fun l hl => ?_⟩
    by_cases h : l ∈ s.activeLanes m
    · simp only [h, (hlanes l hl).1 h, if_true, hto l h, linked]
    · simp only [h, mt (hlanes l hl).2 h, if_false, Bool.false_eq_true]
  | some d =>
    refine ⟨_, rfl, finish_branch_frame (link_frame ..), hmoved (t := s.link (s.activeLanes m) d) rfl _, (finish_branch_becomes (link_becomes hd hin d) rfl hd hin).congr fun l hl => ?_⟩
    by_cases h : l ∈ s.activeLanes m
    · simp only [h, (hlanes l hl).1 h, if_true, hto l h, linked]
    · simp only [h, mt (hlanes l hl).2 h, if_false, Bool.false_eq_true]
theorem pairTarget_of_start {s : State} {a : Reg} {l : Nat} (h : (s.src64 s.cur.wid l a).toNat % 12 = 0) :
    s.pairTarget a l = some (s.src64 s.cur.wid l a) := if_pos h

theorem registerBranches : Claims.RegisterBranches := by
  unfold Claims.RegisterBranches
  intro s m d a
  refine ⟨fun hp => ⟨branchTo_lands (exec_jmp m a s) fun l hl => pairTarget_of_start (hp l hl), branchTo_lands (exec_ret m a s) fun l hl => pairTarget_of_start (hp l hl),
    branchTo_lands (exec_callr m d a s) fun l hl => pairTarget_of_start (hp l hl)⟩, fun hx => branchTo_lands (exec_brx m a s) fun l hl => ?_⟩
  exact if_neg (Nat.not_lt.2 (hx l hl))

/-! ### Targets that stop a lane -/

/-- The lane before a stop keeps what a branch does not change. -/
theorem branched_keeps (target : W64) (x : Lane) : (branched target x).st = x.st ∧ (branched target x).g = x.g := by
  unfold branched
  split <;> exact ⟨rfl, rfl⟩
theorem advance_lane_keeps (t : State) (st : List StopRec) (w l : Nat) :
    ((t.advance st).lane w l).st = (t.lane w l).st ∧ ((t.advance st).lane w l).g = (t.lane w l).g := by
  unfold State.advance
  rw [State.lane_updLanes]
  split
  · next h => obtain ⟨rfl, -⟩ := h; split <;> exact ⟨rfl, rfl⟩
  · exact ⟨rfl, rfl⟩
theorem find_stop_none {f : Nat → StopRec} (hf : ∀ l, (f l).lane = l) {ls : List Nat} {l : Nat} (h : l ∉ ls) :
    (ls.map f).find? (fun r => r.lane == l) = none := by
  rw [find_stop hf, if_neg h]

/-- A lane with a bad target stops at its group with ILLEGAL TARGET, and its wave with it. -/
theorem branchTo_stops {i : Instr} {s : State} {m : Mods} {link : Option Reg} {target : Nat → Option W64} {bad : Nat → Prop} (ha : Alone s)
    (hi : exec i s = branchTo s m link target) (hb : ∀ l, On s m l → (bad l ↔ target l = none)) (hex : ∃ l, On s m l ∧ bad l) :
    ∃ t, exec i s = .next t ∧ (t.wave s.cur.wid).stopped = true ∧ t.mem = s.mem ∧
      ∀ l, On s m l → (s.lane s.cur.wid l).st ≠ .exit → (t.lane s.cur.wid l).st = .trap ∧ (t.lane s.cur.wid l).g = (s.lane s.cur.wid l).g ∧
        (bad l → (t.lane s.cur.wid l).trapCause = causeWord 0x10 0x0E 0 ∧ (t.lane s.cur.wid l).trapPc = s.cur.gpc) ∧
        (¬ bad l → (t.lane s.cur.wid l).trapCause = 0) := by
  have hgd : ((s.activeLanes m).filter (fun l => (target l).isSome)).Nodup := ((lanesOf_nodup _).filter _).filter _
  have hgin : ∀ l ∈ (s.activeLanes m).filter (fun l => (target l).isSome), s.cur.lanes.getLsbD l = true :=
    fun l hl => (mem_activeLanes.1 (List.mem_filter.1 hl).1).1
  have hmb : ∀ l, On s m l → (l ∈ (s.activeLanes m).filter (fun l => (target l).isNone) ↔ bad l) := fun l hl => by
    rw [List.mem_filter, hb l hl, Option.isNone_iff_eq_none]
    exact and_iff_right (mem_activeLanes.2 hl)
  rw [hi]
  unfold branchTo
  extract_lets good badLs s1
  have hs1 : s1.cur = s.cur ∧ s1.mem = s.mem ∧ ∃ f, WaveBecomes s s1 id f ∧ ∀ l x, (f l x).st = x.st ∧ (f l x).g = x.g := by
    cases link with
    | none => exact ⟨rfl, rfl, _, waveBecomes_refl s, fun _ _ => ⟨rfl, rfl⟩⟩
    | some d => exact ⟨rfl, rfl, _, link_becomes hgd hgin d, fun l x => by split <;> exact ⟨rfl, rfl⟩⟩
  obtain ⟨hc, hmem, f, hf, hk⟩ := hs1
  have hbr := branch_becomes (target := fun l => (target l).getD 0) hf hc hgd hgin
  have hcur := branch_cur (ls := good) (target := fun l => (target l).getD 0) hc
  have hmem' : (s1.branch good (fun l => (target l).getD 0)).mem = s.mem := hmem
  generalize s1.branch good (fun l => (target l).getD 0) = u at hbr hcur hmem'
  have hcw : u.cur.wid = s.cur.wid := by rw [hcur]
  have hsys : ((u.advance (badLs.map (fun l => s.ill l .target))).wave s.cur.wid).sys = false := by
    rw [State.advance, hcw, State.wave_updLanes_self, Wave.upd_sys, hbr.rest]
    exact ha.1
  have hne : badLs.map (fun l => s.ill l .target) ≠ [] := by
    obtain ⟨l, hl, hbl⟩ := hex
    rw [ne_eq, List.map_eq_nil_iff]
    exact List.ne_nil_of_mem ((hmb l hl).2 hbl)
  have hfin : Machine.finish u (badLs.map (fun l => s.ill l .target)) =
      takeStop (u.advance (badLs.map (fun l => s.ill l .target))) s.cur.wid (badLs.map (fun l => s.ill l .target)) := by
    unfold Machine.finish State.raise
    rw [if_neg (by rw [State.advance_cur, hcur, ha.2.1, ha.2.2]; simp), State.advance_cur, hcw]
  rw [hfin]
  refine ⟨_, rfl, by rw [takeStop_wave_self hne hsys]; rfl, (takeStop_memory hne hsys).1.trans hmem', fun l hl hx => ?_⟩
  have hul : (u.lane s.cur.wid l).st = (s.lane s.cur.wid l).st ∧ (u.lane s.cur.wid l).g = (s.lane s.cur.wid l).g := by
    rw [hbr.lanes l, if_pos hl.1]
    split
    · exact ⟨(branched_keeps _ _).1.trans (hk _ _).1, (branched_keeps _ _).2.trans (hk _ _).2⟩
    · exact hk _ _
  obtain ⟨a1, a2⟩ := advance_lane_keeps u (badLs.map (fun l => s.ill l .target)) s.cur.wid l
  have hlt := State.lane_lt_of_getLsbD hl.1
  rw [takeStop_lane hne hsys, if_pos ⟨hlt, by rw [a1, hul.1]; exact hx⟩]
  obtain ⟨k1, k2, -, -, -⟩ := stopWith_keeps ((u.advance (badLs.map (fun l => s.ill l .target))).lane s.cur.wid l)
    ((badLs.map (fun l => s.ill l .target)).find? (fun r => r.lane == l))
  refine ⟨k1, k2.trans (a2.trans hul.2), fun hbl => ?_, fun hbl => ?_⟩
  · rw [find_stop (f := fun l => s.ill l .target) (fun _ => rfl), if_pos ((hmb l hl).2 hbl)]
    obtain ⟨r1, -, r3, -⟩ := stopWith_again_records (x := (u.advance (badLs.map (fun l => s.ill l .target))).lane s.cur.wid l) (r := s.ill l .target) rfl (.inl rfl)
    exact ⟨r1.trans (causeWord_eq .illegal Sub.target.code), r3⟩
  · rw [find_stop_none (f := fun l => s.ill l .target) (fun _ => rfl) (mt (hmb l hl).1 hbl)]
    rfl

theorem pairTarget_eq_none {s : State} {a : Reg} {l : Nat} : (s.src64 s.cur.wid l a).toNat % 12 ≠ 0 ↔ s.pairTarget a l = none := by
  unfold State.pairTarget
  dsimp only
  split
  · next h => simp [h]
  · next h => simp [h]

theorem badTargetsStop : Claims.BadTargetsStop := by
  unfold Claims.BadTargetsStop
  intro s m d a ha
  refine ⟨branchTo_stops ha (exec_jmp m a s) fun l _ => pairTarget_eq_none, branchTo_stops ha (exec_ret m a s) fun l _ => pairTarget_eq_none,
    branchTo_stops ha (exec_callr m d a s) fun l _ => pairTarget_eq_none, branchTo_stops ha (exec_brx m a s) fun l _ => ?_⟩
  unfold indexTarget
  split
  · next h => simp [h]
  · next h => simp [h]

/-- Settles O13, from the laws of the lanes that branch and of the stops at a group. -/
theorem branches : Obligations.Branches := ⟨conditionalBranches, registerBranches, badTargetsStop⟩

end Sys2Proof
end

