-- ==== Sys2Proof/Proofs/TrapHandlers.lean ====
section
/-! SUPPORT. The way into a handler and the return from it (R172, R306, R311 to R313). -/

namespace Sys2Proof

open Machine

/-! ### Contexts that stop in system mode (R313) -/

/-- A stop is the same for a state that has the same packages and troupes and whose waves are of the same troupes. -/
theorem ContextStops.of_same {s s' t : State} {k : Nat} {c : W32} (h : ContextStops s' t k c) (hp : s'.pkgs = s.pkgs) (ht : s'.troupes = s.troupes)
    (hw : ∀ w v, flook s.waves w = some v → ∃ v', flook s'.waves w = some v' ∧ v'.tid = v.tid) : ContextStops s t k c := by
  have hpk : ∀ j, s'.pkg j = s.pkg j := fun j => by unfold State.pkg; rw [hp]
  refine ⟨fun w v u hv hu hk hc hst => ?_, by rw [← ht]; exact h.others, by rw [← hpk]; exact h.queues, by rw [← hpk]; exact h.launches,
    by rw [← hpk]; exact h.stopped⟩
  obtain ⟨v', hv', htid⟩ := hw w v hv
  have := h.waves w v' u hv' (by rw [ht, htid]; exact hu) hk hc hst
  rwa [htid] at this
theorem StopRecorded.of_same {s s' t : State} {k : Nat} {c : W32} {cause sub : Nat} (h : StopRecorded s' t k c cause sub) (hp : s'.pkgs = s.pkgs) :
    StopRecorded s t k c cause sub := by
  have hpk : s'.pkg k = s.pkg k := by unfold State.pkg; rw [hp]
  unfold StopRecorded EventRoom eventWord at h ⊢
  rw [hpk] at h
  exact h
theorem flook_updLanes {s : State} {w x : Nat} {ls : List Nat} {f : Nat → Lane → Lane} {v : Wave} (h : flook s.waves x = some v) :
    ∃ v', flook (s.updLanes w ls f).waves x = some v' ∧ v'.tid = v.tid := by
  have e : flook (s.updLanes w ls f).waves x = if x = w then some ((s.wave w).upd ls f) else flook s.waves x := flook_fput ..
  rw [e]
  by_cases hx : x = w
  · subst hx
    exact ⟨_, if_pos rfl, by rw [Wave.upd_tid]; exact congrArg Wave.tid (fget_of_flook_some h)⟩
  · exact ⟨v, by rw [if_neg hx, h], rfl⟩
/-- A stop in system mode, every record of one cause, stops the context with it. -/
theorem takeStop_sys {s : State} {w : Nat} {st : List StopRec} {c : Cause} {sub : Byte} (hsys : (s.wave w).sys = true) (hne : st ≠ [])
    (hr : ∀ r ∈ st, r.cause = c ∧ r.sub = sub) (hc : c ≠ .brk ∧ c ≠ .none) :
    ∃ pc va, takeStop s w st = stopContext s (s.troupe (s.wave w).tid).pkg (s.troupe (s.wave w).tid).ctx c sub pc va := by
  have hf : st.filter (fun r => r.cause != .brk && r.cause != .none) = st := by
    refine List.filter_eq_self.2 fun r h => ?_
    rw [(hr r h).1]
    simp [hc.1, hc.2]
  obtain ⟨r, hhead, hmem⟩ : ∃ r, (sortBy (fun (r : StopRec) => r.lane) st).head? = some r ∧ r ∈ st := by
    cases hs : sortBy (fun (r : StopRec) => r.lane) st with
    | nil =>
      obtain ⟨x, hx⟩ := List.exists_mem_of_ne_nil _ hne
      exact absurd (mem_sortBy (f := fun (r : StopRec) => r.lane) |>.2 hx) (by rw [hs]; simp)
    | cons r rs => exact ⟨r, rfl, (mem_sortBy (f := fun (r : StopRec) => r.lane)).1 (by rw [hs]; exact List.mem_cons_self ..)⟩
  cases st with
  | nil => exact absurd rfl hne
  | cons x xs =>
    unfold takeStop
    simp only [hsys, if_true, hf, hhead, (hr r hmem).1, (hr r hmem).2]
    exact ⟨_, _, rfl⟩
/-- A refusal in system mode stops the context. -/
theorem refuse_stopsContext {s : State} {m : Mods} {sub : Sub} (hsys : (s.wave s.cur.wid).sys = true) (hg : s.cur.grouped = false)
    (hd : s.cur.defer = false) (ha : ∃ l, On s m l) : ContextStops s (refuse s m sub) s.curPkg s.curCtx ∧
      StopRecorded s (refuse s m sub) s.curPkg s.curCtx 0x10 sub.code.toNat := by
  obtain ⟨l, hl⟩ := ha
  set st := (s.activeLanes m).map (fun l => s.stopRec l .illegal sub.code 0) with hst
  have hne : st ≠ [] := by
    rw [hst, ne_eq, List.map_eq_nil_iff]
    exact List.ne_nil_of_mem (mem_activeLanes.2 hl)
  have hwave : (s.advance st).wave s.cur.wid = (s.wave s.cur.wid).upd (lanesOf (s.cur.lanes &&& ~~~ s.cur.moved &&& ~~~ stopMask st))
    (fun _ l => if l.st = .run then { l with pc := s.cur.npc } else l) := State.wave_updLanes_self ..
  have hfin : refuse s m sub = takeStop (s.advance st) s.cur.wid st := by
    show finish s st = _
    unfold finish State.raise
    rw [if_neg (by rw [State.advance_cur, hg, hd]; simp), State.advance_cur]
  obtain ⟨pc, va, e⟩ := takeStop_sys (s := s.advance st) (w := s.cur.wid) (c := .illegal) (sub := sub.code) (by rw [hwave]; exact hsys) hne
    (fun r hr => by obtain ⟨x, -, rfl⟩ := List.mem_map.1 hr; exact ⟨rfl, rfl⟩) (by decide)
  have htid : ((s.advance st).wave s.cur.wid).tid = s.curTid := by rw [hwave]; rfl
  rw [hfin, e, State.troupe_advance, htid]
  exact ⟨(stopContext_stops ..).of_same rfl rfl fun w v hv => flook_updLanes hv, StopRecorded.of_same (stopContext_recorded (s.advance st) _ _ _ _ _ _) rfl⟩

theorem hostEvent_mem (s : State) (k : Nat) (c : W32) (cause : Cause) (sub : Byte) (aff : List (Nat × Troupe)) (pc va : W64) :
    (hostEvent s k c cause sub aff pc va).mem = s.mem := by rw [hostEvent_frame]
theorem stopContext_mem (s : State) (k : Nat) (c : W32) (cause : Cause) (sub : Byte) (pc va : W64) : (stopContext s k c cause sub pc va).mem = s.mem := by
  rw [stopContext_eq]
  cases flook (s.pkg k).ctxs c.toNat with
  | some x =>
    by_cases h : x.stopped = true
    · simp only [h, if_true]; rfl
    · simp only [h, if_false, Bool.false_eq_true, hostEvent_mem]; rfl
  | none =>
    by_cases h : (s.ctxTroupes k c).isEmpty = true
    · simp only [h, if_true]
    · simp only [h, if_false, Bool.false_eq_true, hostEvent_mem]; rfl
/-- The stop of a context that the package lists clears it. -/
theorem stopContext_cleared {s : State} {k : Nat} {c : W32} {x : Ctx} (h : flook (s.pkg k).ctxs c.toNat = some x) (cause : Cause) (sub : Byte) (pc va : W64) :
    ContextCleared s (stopContext s k c cause sub pc va) k c := by
  rw [stopContext_eq, h]
  by_cases hs : x.stopped = true
  · simp only [hs, if_true]; exact clearContext_cleared s k c
  · simp only [hs, if_false, Bool.false_eq_true]; exact (clearContext_cleared s k c).of_hostEvent ..
theorem ContextCleared.ended {s t : State} {k : Nat} {c : W32} (h : ContextCleared s t k c) {w : Nat} {v : Wave} (hv : flook s.waves w = some v)
    (hin : v.tid ∈ (s.ctxTroupes k c).map (fun e => e.1)) : (t.wave w).ended = true := by
  unfold State.wave
  rw [h.waves, fget_fall, hv, Option.map_some, if_pos (List.contains_iff_mem.2 hin), Option.getD_some]
/-- A wave that has stopped is one of the machine's. -/
theorem listed_of_stopped {s : State} {w : Nat} (h : (s.wave w).stopped = true) : flook s.waves w = some (s.wave w) := by
  unfold State.wave at h ⊢
  rw [fget_eq_flook] at h ⊢
  cases hw : flook s.waves w with
  | none => rw [hw] at h; exact absurd h (by decide)
  | some v => rfl

/-! ### Entry (R306, R311) -/

theorem handlerOf_eq {s : State} {w : Nat} {a : W64}
    (h1 : ((s.troupe (s.wave w).tid).traphnd ≠ 0 ∧ ∃ e, s.lookup (s.troupe (s.wave w).tid).pkg (s.troupe (s.wave w).tid).core (s.troupe (s.wave w).tid).ctx
      (s.troupe (s.wave w).tid).traphnd = some e ∧ 2 ≤ pteState e.leaf ∧ e.leaf.getLsbD 8 = true ∧ e.leaf.getLsbD 6 = true) → a = (s.troupe (s.wave w).tid).traphnd)
    (h2 : ¬ ((s.troupe (s.wave w).tid).traphnd ≠ 0 ∧ ∃ e, s.lookup (s.troupe (s.wave w).tid).pkg (s.troupe (s.wave w).tid).core (s.troupe (s.wave w).tid).ctx
      (s.troupe (s.wave w).tid).traphnd = some e ∧ 2 ≤ pteState e.leaf ∧ e.leaf.getLsbD 8 = true ∧ e.leaf.getLsbD 6 = true) →
      a = match flook (s.pkg (s.troupe (s.wave w).tid).pkg).ctxs (s.troupe (s.wave w).tid).ctx.toNat with | some c => c.sysh | none => 0) :
    s.handlerOf w = a := by
  have hsys : s.sysCode (s.troupe (s.wave w).tid).pkg (s.troupe (s.wave w).tid).core (s.troupe (s.wave w).tid).ctx (s.troupe (s.wave w).tid).traphnd = true ↔
      ∃ e, s.lookup (s.troupe (s.wave w).tid).pkg (s.troupe (s.wave w).tid).core (s.troupe (s.wave w).tid).ctx (s.troupe (s.wave w).tid).traphnd = some e ∧
        2 ≤ pteState e.leaf ∧ e.leaf.getLsbD 8 = true ∧ e.leaf.getLsbD 6 = true := by
    unfold State.sysCode
    cases s.lookup (s.troupe (s.wave w).tid).pkg (s.troupe (s.wave w).tid).core (s.troupe (s.wave w).tid).ctx (s.troupe (s.wave w).tid).traphnd with
    | none => simp
    | some e => simp [pteSys, pteX, and_assoc]
  unfold State.handlerOf
  dsimp only
  split
  · next h => exact (h1 ⟨h.1, hsys.1 h.2⟩).symm
  · next h => exact (h2 fun hc => h ⟨hc.1, hsys.2 hc.2⟩).symm
/-- The entry of a wave that has stopped, is at work and is owed no local result. -/
theorem exec_handlerEntry {s : State} {w : Nat} (h1 : (s.wave w).stopped = true) (h2 : (s.wave w).ended = false) (h3 : (s.wave w).forPreempt = false)
    (h4 : (s.wave w).owesLocal = false) : exec (.handlerEntry w) s =
      if s.handlerOf w = 0 then .next (stopContext s (s.troupe (s.wave w).tid).pkg (s.troupe (s.wave w).tid).ctx (causeOf (s.wave w).stopLane.causeCode)
        (BitVec.ofNat 8 (nbits (s.wave w).stopLane.trapCause.toNat 15 8)) (s.wave w).stopLane.trapPc (s.wave w).stopLane.trapVa)
      else .next (s.setWave w ((s.wave w).enter (s.handlerOf w))) := by
  refine Eq.trans (show _ = execHandlerEntry w s from rfl) ?_
  exact if_neg (by rw [h1, h2, h3, h4]; simp)
theorem enter_lane (v : Wave) (a : W64) {l : Nat} (hl : l < 32) : (v.enter a).lane l = if (v.lane l).st = .exit then v.lane l
    else { ((v.lane l).land Pend.isLocal) with st := .run, pc := a, waiting := false } := by
  have e : (v.enter a).lane l = (v.upd (lanesOf v.live) (fun _ l => { (l.land Pend.isLocal) with st := .run, pc := a, waiting := false })).lane l := rfl
  rw [e, Wave.lane_upd _ _ _ _ (lanesOf_nodup _)]
  simp only [mem_lanesOf, live_getLsbD, hl, decide_true, Bool.true_and, bne_iff_ne, ne_eq, ite_not]

theorem handlerEntry : Claims.HandlerEntry := by
  unfold Claims.HandlerEntry
  intro s w hst hen hfp how v t0 cx own a h1 h2
  have ha : s.handlerOf w = a := handlerOf_eq h1 h2
  have hexec := exec_handlerEntry hst hen hfp how
  rw [ha] at hexec
  refine ⟨fun h0 => ?_, fun h0 c hc => ?_⟩
  · rw [if_neg h0] at hexec
    refine ⟨_, hexec, rfl, fun u hu => by rw [State.wave_setWave, if_neg hu], by rw [State.wave_setWave_self]; rfl, fun l hl => ?_⟩
    rw [State.lane_setWave, if_pos rfl]
    exact enter_lane v a hl
  · rw [if_pos h0] at hexec
    obtain ⟨c', hc', hstop⟩ := (stopContext_stops s t0.pkg t0.ctx (causeOf v.stopLane.causeCode) (BitVec.ofNat 8 (nbits v.stopLane.trapCause.toNat 15 8)) v.stopLane.trapPc v.stopLane.trapVa).stopped c hc
    refine ⟨_, hexec, stopContext_mem .., ⟨c', hc', hstop⟩, fun hin => ?_⟩
    exact (stopContext_cleared hc ..).ended (listed_of_stopped hst) hin

/-! ### What the barriers' checks leave (R25, R167) -/

/-- The release of a lane from a barrier. -/
def BarStep (x y : Lane) : Prop := y = x.freeFrom .barT ∨ y = x.freeFrom .barC
/-- After the checks of barriers: lanes may have been released from one; of the waves nothing else but their arrivals changes, and memory stays. -/
structure BarFreed (s t : State) : Prop where
  mem : t.mem = s.mem
  writes : t.writes = s.writes
  cur : t.cur = s.cur
  wave : ∀ w, ∃ ls a b, t.wave w = { s.wave w with lanes := ls, tarv := a, carv := b }
  lane : ∀ w l, Relation.ReflTransGen BarStep (s.lane w l) (t.lane w l)

theorem BarFreed.refl (s : State) : BarFreed s s := ⟨rfl, rfl, rfl, fun w => ⟨_, _, _, rfl⟩, fun _ _ => .refl⟩
theorem BarFreed.trans {s t u : State} (h1 : BarFreed s t) (h2 : BarFreed t u) : BarFreed s u := by
  refine ⟨h2.mem.trans h1.mem, h2.writes.trans h1.writes, h2.cur.trans h1.cur, fun w => ?_, fun w l => (h1.lane w l).trans (h2.lane w l)⟩
  obtain ⟨ls, a, b, e1⟩ := h1.wave w
  obtain ⟨ls', a', b', e2⟩ := h2.wave w
  exact ⟨ls', a', b', by rw [e2, e1]⟩
/-- A change that no wave and no memory sees. -/
theorem BarFreed.of_same {s t u : State} (h : BarFreed s t) (hm : u.mem = t.mem) (hw : u.writes = t.writes) (hc : u.cur = t.cur) (hv : u.waves = t.waves) :
    BarFreed s u := by
  have hwave : ∀ w, u.wave w = t.wave w := fun w => by unfold State.wave; rw [hv]
  exact ⟨hm.trans h.mem, hw.trans h.writes, hc.trans h.cur, fun w => by rw [hwave]; exact h.wave w, fun w l => by
    have : u.lane w l = t.lane w l := by unfold State.lane; rw [hwave]
    rw [this]
    exact h.lane w l⟩
/-- A wave whose arrival is over and whose lanes are released. -/
theorem BarFreed.free (s : State) (w : Nat) {f : Wave → Wave} (hf : ∀ v, ∃ a b, f v = { v with tarv := a, carv := b }) {st : LaneSt}
    (hst : st = .barT ∨ st = .barC) : BarFreed s ((s.modWave w f).freeLanes w st) := by
  obtain ⟨a, b, hfv⟩ := hf (s.wave w)
  refine ⟨rfl, rfl, rfl, fun x => ?_, fun x l => ?_⟩
  · rw [State.freeLanes, State.wave_updLanes]
    by_cases hx : x = w
    · subst hx
      rw [if_pos rfl, State.wave_modWave_self, hfv, upd_rest]
      exact ⟨_, a, b, rfl⟩
    · rw [if_neg hx, State.wave_modWave, if_neg hx]
      exact ⟨_, _, _, rfl⟩
  · have hl : (s.modWave w f).lane x l = s.lane x l := by
      unfold State.lane
      rw [State.wave_modWave]
      by_cases hx : x = w
      · subst hx; rw [if_pos rfl, hfv]; rfl
      · rw [if_neg hx]
    have hl' : (s.modWave w f).lane w l = s.lane w l ∨ x ≠ w := by
      by_cases hx : x = w
      · subst hx; exact .inl hl
      · exact .inr hx
    rw [State.freeLanes, State.lane_updLanes_of_nodup _ _ _ _ List.nodup_range, hl]
    split
    · next h =>
      obtain ⟨rfl, -⟩ := h
      rw [hl]
      refine .single ?_
      rcases hst with rfl | rfl
      · exact .inl rfl
      · exact .inr rfl
    · exact .refl
theorem BarFreed.foldl {α : Type} {f : State → α → State} (hf : ∀ s x, BarFreed s (f s x)) (ls : List α) (s : State) : BarFreed s (ls.foldl f s) := by
  induction ls generalizing s with
  | nil => exact .refl s
  | cons x ls ih => exact (hf s x).trans (ih _)
theorem checkTbar_freed (s : State) (tid : Nat) : BarFreed s (s.checkTbar tid) := by
  unfold State.checkTbar
  extract_lets ws t s1
  split
  · exact .refl s
  · exact ((BarFreed.refl s).of_same (u := s1) rfl rfl rfl rfl).trans
      (BarFreed.foldl (fun s w => BarFreed.free s w (fun v => ⟨false, v.carv, rfl⟩) (.inl rfl)) ws s1)
theorem checkCbar_freed (s : State) (c : Nat) : BarFreed s (s.checkCbar c) := by
  unfold State.checkCbar
  extract_lets r s1
  by_cases h : r.clive = 0 ∨ r.carr ≠ r.clive
  · rw [if_pos h]
    exact .refl s
  · rw [if_neg h]
    refine ((BarFreed.refl s).of_same (u := s1) rfl rfl rfl rfl).trans (BarFreed.foldl (fun u tid => ?_) r.troupes s1)
    extract_lets ws s2
    have h2 : BarFreed u s2 := BarFreed.foldl (fun s w => BarFreed.free s w (fun v => ⟨v.tarv, false, rfl⟩) (.inr rfl)) ws u
    split
    · exact h2
    · exact h2.of_same rfl rfl rfl rfl

/-- What becomes of a lane that holds no stop: it stays, or is released from a barrier that it is parked at. -/
structure BarLane (x y : Lane) : Prop where
  keeps : y.g = x.g ∧ y.p = x.p ∧ y.lflags = x.lflags ∧ y.pend = x.pend
  same : y = x ∨ ((x.st = .barT ∨ x.st = .barC) ∧ y.st = .run ∧ y.pc = x.nextPc ∧ y.prior = .run)
theorem freeFrom_of_run {x : Lane} {st : LaneSt} (h : x.prior = .run ∨ x.st = .exit) (hst : st = .barT ∨ st = .barC) :
    x.freeFrom st = if x.st = st then { x with st := .run, pc := x.nextPc } else x := by
  unfold Lane.freeFrom
  have hc : ¬ ((decide (x.prior = st) && x.st != .exit) = true) := by
    rcases h with h | h
    · rcases hst with rfl | rfl <;> simp [h]
    · simp [h]
  have hn : ¬ (x.prior = st ∧ (x.st != .exit) = true) := by
    rw [Bool.and_eq_true, decide_eq_true_eq] at hc
    exact hc
  simp only [Bool.and_eq_true, decide_eq_true_eq]
  rw [if_neg hn]
theorem barLane_of_steps {x y : Lane} (h : Relation.ReflTransGen BarStep x y) (hx : x.prior = .run ∨ x.st = .exit) : BarLane x y := by
  induction h with
  | refl => exact ⟨⟨rfl, rfl, rfl, rfl⟩, .inl rfl⟩
  | @tail y z _ hstep ih =>
    obtain ⟨st, hst, rfl⟩ : ∃ st, (st = .barT ∨ st = .barC) ∧ z = y.freeFrom st := by
      rcases hstep with h | h
      · exact ⟨_, .inl rfl, h⟩
      · exact ⟨_, .inr rfl, h⟩
    obtain ⟨hk, hs⟩ := ih
    rcases hs with rfl | ⟨hb, hr, hpc, hp⟩
    · rw [freeFrom_of_run hx hst]
      split
      · next he =>
        have hp : y.prior = .run := hx.resolve_right (by rw [he]; rcases hst with rfl | rfl <;> simp)
        exact ⟨⟨rfl, rfl, rfl, rfl⟩, .inr ⟨by rw [he]; exact hst, rfl, rfl, hp⟩⟩
      · exact ⟨⟨rfl, rfl, rfl, rfl⟩, .inl rfl⟩
    · rw [freeFrom_of_run (.inl hp) hst, if_neg (by rw [hr]; rcases hst with rfl | rfl <;> simp)]
      exact ⟨hk, .inr ⟨hb, hr, hpc, hp⟩⟩

/-! ### The return (R172, R312) -/

theorem returned_exit {x : Lane} (h : x.st = .exit) : x.returned = x := if_pos h
/-- What the return makes of a live lane. -/
theorem returned_live {x : Lane} (h : x.st ≠ .exit) : x.returned.g = x.g ∧ x.returned.p = x.p ∧ x.returned.lflags = x.lflags ∧ x.returned.pend = x.pend ∧
    x.returned.prior = .run ∧ (x.movedPc = true → x.returned.st = .run ∧ x.returned.pc = x.trapPc) ∧
    (x.movedPc = false → x.prior = .run → x.returned.st = .run ∧ x.returned.pc = x.resume) ∧
    (x.movedPc = false → x.prior ≠ .run → x.returned.st = x.prior ∧ x.returned.pc = x.resume ∧ x.returned.nextPc = x.heldNext) := by
  unfold Lane.returned
  rw [if_neg h]
  by_cases hm : x.movedPc = true
  · rw [if_pos hm]
    exact ⟨rfl, rfl, rfl, rfl, rfl, fun _ => ⟨rfl, rfl⟩, fun h => absurd (hm.symm.trans h) (by decide), fun h => absurd (hm.symm.trans h) (by decide)⟩
  · rw [if_neg hm]
    by_cases hp : x.prior = .run
    · rw [if_pos hp]
      exact ⟨rfl, rfl, rfl, rfl, hp, fun h => absurd h hm, fun _ _ => ⟨rfl, rfl⟩, fun _ h => absurd hp h⟩
    · rw [if_neg hp]
      exact ⟨rfl, rfl, rfl, rfl, rfl, fun h => absurd h hm, fun _ h => absurd h hp, fun _ _ => ⟨rfl, rfl, rfl⟩⟩
theorem freed_keeps (v : Wave) (x : Lane) : (freed v x).g = x.g ∧ (freed v x).p = x.p ∧ (freed v x).lflags = x.lflags ∧ (freed v x).pend = x.pend ∧
    (freed v x).prior = x.prior ∧ (x.st = .run → freed v x = x) ∧ (x.st = .exit → freed v x = x) ∧
    (freed v x = x ∨ ((freed v x).st = .run ∧ (freed v x).pc = x.nextPc)) := by
  cases hx : x.st with
  | join k =>
    rw [freed_of_join hx]
    split
    · exact ⟨rfl, rfl, rfl, rfl, rfl, by simp, by simp, .inr ⟨rfl, rfl⟩⟩
    · exact ⟨rfl, rfl, rfl, rfl, rfl, by simp, by simp, .inl rfl⟩
  | _ =>
    rw [freed_of_not_join (by simp [hx])]
    exact ⟨rfl, rfl, rfl, rfl, rfl, fun _ => rfl, fun _ => rfl, .inl rfl⟩

/-- A wave whose lanes have returned, before the checks of its sets. -/
def returnedWave (v : Wave) : Wave :=
  { (v.upd (List.range 32) (fun _ l => l.returned)) with waits := [], sys := false, handler := false, resting := false, saving := false }
theorem lane_of_mode (u : Wave) (l : Nat) :
    Wave.lane { u with waits := [], sys := false, handler := false, resting := false, saving := false } l = u.lane l := rfl
theorem returnedWave_lane (v : Wave) {l : Nat} (hl : l < 32) : (returnedWave v).lane l = (v.lane l).returned := by
  unfold returnedWave
  rw [lane_of_mode, Wave.lane_upd _ _ _ _ List.nodup_range, if_pos (List.mem_range.2 hl)]
theorem returnedWave_rest (v : Wave) : ∃ ls, returnedWave v = { v with lanes := ls, waits := [], sys := false, handler := false, resting := false, saving := false } := by
  unfold returnedWave
  rw [upd_rest]
  exact ⟨_, rfl⟩
/-- The return is a change of the wave, then the checks of the barriers on a state that its troupe's mask alone tells from it. -/
theorem trapReturn_freed {s : State} {w : Nat} (h1 : (s.wave w).resting = false) (h2 : (s.wave w).saving = false) :
    BarFreed (s.modWave w (fun v => (returnedWave v).releaseAll)) (s.trapReturn w) := by
  have key : ∀ u : State, BarFreed u ((let v := u.wave w
      let s3 := if v.part || v.lanesWhere (fun l => l.st == .barT) != 0 then u
        else u.modTroupe v.tid (fun t => { t with waitmask := setBit16 t.waitmask v.wix false })
      (s3.checkTbar v.tid).checkCbar (s3.troupe v.tid).corps)) := by
    intro u
    extract_lets v s3
    have h3 : BarFreed u s3 := by
      by_cases hc : (v.part || v.lanesWhere (fun l => l.st == .barT) != 0) = true
      · rw [show s3 = u from if_pos hc]; exact .refl u
      · rw [show s3 = _ from if_neg hc]; exact (BarFreed.refl u).of_same rfl rfl rfl rfl
    exact (h3.trans (checkTbar_freed s3 v.tid)).trans (checkCbar_freed _ _)
  have hs1 : (if (s.wave w).resting || (s.wave w).saving then s.unsteerAll w else s) = s := if_neg (by rw [h1, h2]; simp)
  unfold State.trapReturn
  rw [hs1]
  exact key _
/-- The lanes and the mode of the wave once its return and the checks of sets and barriers are done. -/
theorem trapReturn_becomes {s : State} {w : Nat} (h1 : (s.wave w).resting = false) (h2 : (s.wave w).saving = false) :
    (s.trapReturn w).mem = s.mem ∧ (s.trapReturn w).writes = s.writes ∧ (s.trapReturn w).cur = s.cur ∧
    (∃ ls a b, (s.trapReturn w).wave w = { s.wave w with lanes := ls, tarv := a, carv := b, waits := [], sys := false, handler := false, resting := false, saving := false }) ∧
    ∀ l, l < 32 → Relation.ReflTransGen BarStep (freed (returnedWave (s.wave w)) (((s.wave w).lane l).returned)) ((s.trapReturn w).lane w l) := by
  have hf := trapReturn_freed h1 h2
  refine ⟨hf.mem, hf.writes, hf.cur, ?_, fun l hl => ?_⟩
  · obtain ⟨ls, a, b, e⟩ := hf.wave w
    obtain ⟨ls', e'⟩ := releaseAll_rest (returnedWave (s.wave w))
    obtain ⟨ls'', e''⟩ := returnedWave_rest (s.wave w)
    rw [State.wave_modWave_self, e', e''] at e
    exact ⟨ls, a, b, e⟩
  · have hl2 : (s.modWave w (fun v => (returnedWave v).releaseAll)).lane w l = freed (returnedWave (s.wave w)) (((s.wave w).lane l).returned) := by
      unfold State.lane
      rw [State.wave_modWave_self, releaseAll_lane, if_pos hl, returnedWave_lane _ hl]
    rw [← hl2]
    exact hf.lane w l

/-- What the whole return leaves of a lane. -/
theorem returned_lane {v : Wave} {x y : Lane} (h : Relation.ReflTransGen BarStep (freed v x.returned) y) :
    y.g = x.g ∧ y.p = x.p ∧ y.lflags = x.lflags ∧ y.pend = x.pend ∧ (x.st = .exit → y = x) ∧
    (x.st ≠ .exit → x.movedPc = true → y.st = .run ∧ y.pc = x.trapPc) ∧
    (x.st ≠ .exit → x.movedPc = false → x.prior = .run → y.st = .run ∧ y.pc = x.resume) ∧
    (x.st ≠ .exit → x.movedPc = false → x.prior ≠ .run → (y.st = x.prior ∧ y.pc = x.resume) ∨ (y.st = .run ∧ y.pc = x.heldNext)) := by
  obtain ⟨f1, f2, f3, f4, f5, frun, fexit, fsame⟩ := freed_keeps v x.returned
  by_cases hx : x.st = .exit
  · have hret : x.returned = x := returned_exit hx
    rw [hret] at h fexit
    rw [fexit hx] at h
    obtain ⟨hk, hs⟩ := barLane_of_steps h (.inr hx)
    have hy : y = x := hs.resolve_right (fun hc => by rw [hx] at hc; exact absurd hc.1 (by simp))
    subst hy
    exact ⟨rfl, rfl, rfl, rfl, fun _ => rfl, fun hc => absurd hx hc, fun hc => absurd hx hc, fun hc => absurd hx hc⟩
  · obtain ⟨r1, r2, r3, r4, rp, rmoved, rrun, rpark⟩ := returned_live hx
    obtain ⟨⟨k1, k2, k3, k4⟩, hs⟩ := barLane_of_steps h (.inl (f5.trans rp))
    have hrun : x.returned.st = .run → y = x.returned := by
      intro hr
      rw [frun hr] at hs
      exact hs.resolve_right (fun hc => by rw [hr] at hc; exact absurd hc.1 (by simp))
    refine ⟨k1.trans (f1.trans r1), k2.trans (f2.trans r2), k3.trans (f3.trans r3), k4.trans (f4.trans r4), fun hc => absurd hc hx,
      fun _ hm => ?_, fun _ hm hp => ?_, fun _ hm hp => ?_⟩
    · rw [hrun (rmoved hm).1]
      exact rmoved hm
    · rw [hrun (rrun hm hp).1]
      exact rrun hm hp
    · obtain ⟨p1, p2, p3⟩ := rpark hm hp
      rcases fsame with hf | ⟨hf1, hf2⟩
      · rw [hf] at hs
        rcases hs with rfl | ⟨-, h1, h2, -⟩
        · exact .inl ⟨p1, p2⟩
        · exact .inr ⟨h1, h2.trans p3⟩
      · have hy := hs.resolve_right (fun hc => by rw [hf1] at hc; exact absurd hc.1 (by simp))
        rw [hy]
        exact .inr ⟨hf1, hf2.trans p3⟩

/-- With the whole path marked as moved, the end of an instruction leaves every lane where it stands. -/
theorem finish_all_moved {s : State} (h : s.cur.lanes &&& ~~~ s.cur.moved = 0) :
    (∀ x, (finish s []).wave x = s.wave x) ∧ (finish s []).mem = s.mem ∧ (finish s []).writes = s.writes := by
  have e : finish s [] = s.updLanes s.cur.wid [] (fun _ l => if l.st = .run then { l with pc := s.cur.npc } else l) := by
    rw [finish_nil, State.advance, stopMask_nil, h]
    rfl
  refine ⟨fun x => ?_, by rw [e]; rfl, by rw [e]; rfl⟩
  rw [e, State.wave_updLanes]
  split
  · next hx => rw [hx]; rfl
  · rfl
theorem finish_marked {s : State} {lanes : LaneMask} (path : LaneMask) (h : s.cur.lanes = lanes) :
    (∀ x, (finish { s with cur := { s.cur with moved := path ||| lanes } } []).wave x = s.wave x) ∧
    (finish { s with cur := { s.cur with moved := path ||| lanes } } []).mem = s.mem ∧
    (finish { s with cur := { s.cur with moved := path ||| lanes } } []).writes = s.writes := by
  refine finish_all_moved (s := { s with cur := { s.cur with moved := path ||| lanes } }) (BitVec.eq_of_getLsbD_eq fun i hi => ?_)
  show (s.cur.lanes &&& ~~~ (path ||| lanes)).getLsbD i = _
  rw [h, BitVec.getLsbD_and, BitVec.getLsbD_not, BitVec.getLsbD_or]
  cases lanes.getLsbD i <;> simp [hi]
/-- With nothing else that has waited for the return, and a lane that runs, the wave goes on. -/
theorem afterReturn_runs {s : State} {w : Nat} (h1 : (s.wave w).late = []) (h2 : (s.wave w).preempt = false) {l : Nat} (hl : l < 32)
    (hr : ((s.wave w).lane l).st = .run) : s.afterReturn w = s.setWave w { s.wave w with late := [] } := by
  have hno : (State.wave (s.setWave w { s.wave w with late := [] }) w).isOrphan ≠ true := by
    rw [State.wave_setWave_self, ne_eq, isOrphan_iff]
    rintro ⟨-, hall⟩
    obtain ⟨k, hk⟩ := hall l hl (by show ((s.wave w).lane l).st ≠ _; rw [hr]; simp)
    have hk' : ((s.wave w).lane l).st = .join k := hk
    rw [hr] at hk'
    exact absurd hk' (by simp)
  have hrecs : (s.wave w).late.filter (fun r => ((s.wave w).lane r.lane).st != .exit) = [] := by rw [h1]; rfl
  have e : s.afterReturn w = if !((s.wave w).late.filter (fun r => ((s.wave w).lane r.lane).st != .exit)).isEmpty then
      takeStop (s.setWave w { s.wave w with late := [] }) w ((s.wave w).late.filter (fun r => ((s.wave w).lane r.lane).st != .exit))
    else if (s.wave w).preempt then
      ((s.setWave w { s.wave w with late := [] }).modWave w (fun v => { v with preempt := false })).takePreempt w
    else settle (s.setWave w { s.wave w with late := [] }) w := rfl
  rw [e, if_neg (by rw [hrecs]; simp), if_neg (by rw [h2]; simp)]
  exact settle_of_not_orphan hno

theorem trapReturn : Claims.TrapReturn := by
  unfold Claims.TrapReturn
  intro s m ha w v
  refine ⟨fun hsys hh hres hsav hlate hpre hex => ?_, fun hal => ?_, fun hsys hh hg hd => ?_⟩
  · obtain ⟨e1, e2, e3, ⟨ls, a, b, e4⟩, e5⟩ := trapReturn_becomes (s := s) (w := w) hres hsav
    obtain ⟨q1, q3, q4⟩ := finish_marked (s := s.trapReturn w) (lanes := s.cur.lanes) s.cur.path (by rw [e3])
    have hexec : exec (.tret m) s =
        .next ((finish { s.trapReturn w with cur := { (s.trapReturn w).cur with moved := s.cur.path ||| s.cur.lanes } } []).afterReturn w) := by
      refine Eq.trans (show _ = execTret m s from rfl) ?_
      unfold execTret
      rw [show s.curWave = v from rfl, someActive_eq_true.2 ha, hsys, hh]
      rfl
    generalize finish { s.trapReturn w with cur := { (s.trapReturn w).cur with moved := s.cur.path ||| s.cur.lanes } } [] = u at hexec q1 q3 q4
    generalize s.trapReturn w = s1 at e1 e2 e4 e5 q1 q3 q4
    have hwave : u.wave w = s1.wave w := q1 w
    have hlane := fun l (hl : l < 32) => returned_lane (e5 l hl)
    obtain ⟨l0, hl0, hx0, hr0⟩ := hex
    obtain ⟨-, -, -, -, -, m1, m2, -⟩ := hlane l0 hl0
    have hrun : (s1.lane w l0).st = .run := by
      by_cases hm : (v.lane l0).movedPc = true
      · exact (m1 hx0 hm).1
      · exact (m2 hx0 (Bool.eq_false_iff.2 hm) (hr0.resolve_left hm)).1
    have hafter := afterReturn_runs (s := u) (w := w) (by rw [hwave, e4]; exact hlate) (by rw [hwave, e4]; exact hpre) hl0 (by rw [hwave]; exact hrun)
    rw [hafter] at hexec
    refine ⟨_, hexec, q3.trans e1, q4.trans e2, ?_, ?_, fun l hl => ?_⟩
    · rw [State.wave_setWave_self, hwave, e4]
    · rw [State.wave_setWave_self, hwave, e4]
    · have hsame : (u.setWave w { u.wave w with late := [] }).lane w l = s1.lane w l := by
        rw [State.lane_setWave, if_pos rfl]
        unfold State.lane
        rw [← hwave]
        rfl
      simp only [hsame]
      exact hlane l hl
  · refine ⟨_, ?_, finish_stops (c := .priv) (sub := 0) (va := 0) hal ha rfl (by decide)⟩
    refine Eq.trans (show _ = execTret m s from rfl) ?_
    unfold execTret
    rw [State.curWave, someActive_eq_true.2 ha, hal.1]
    rfl
  · refine ⟨_, ?_, refuse_stopsContext (sub := .state) hsys hg hd ha⟩
    refine Eq.trans (show _ = execTret m s from rfl) ?_
    unfold execTret
    rw [show s.curWave = v from rfl, someActive_eq_true.2 ha, hsys, hh]
    rfl

/-- Settles O18, from the laws of a context's stop, of the entry and of the return of a lane. -/
theorem trapHandlers : Obligations.TrapHandlers := ⟨handlerEntry, trapReturn⟩

end Sys2Proof
end

