-- ==== Sys2Proof/Proofs/ResultsAndWrites.lean ====
section
/-! SUPPORT. Results that land in a lane's registers (R87 to R89) and writes that perform (R180, R246, R248). -/

namespace Sys2Proof

open Machine

/-! ### The registers of a lane -/

/-- What a register holds, as `Lane.latest` reads it. -/
def cellOf (l : Lane) (d : Dst) : W32 :=
  match d with
  | .g r => l.reg r.toNat
  | .p q => (BitVec.ofBool (l.pred q.toNat)).setWidth 32
/-- A register that keeps what is written to it: g0 to g119, p1 on. -/
def IsCell (d : Dst) : Prop := match d with | .g r => r.toNat < 120 | .p q => q ≠ 0
/-- The same value, of a predicate its one bit. -/
def SameIn (d : Dst) (a b : W32) : Prop := match d with | .g _ => a = b | .p _ => a.getLsbD 0 = b.getLsbD 0
theorem SameIn.refl (d : Dst) (a : W32) : SameIn d a a := by cases d <;> rfl
theorem SameIn.trans {d : Dst} {a b c : W32} (h1 : SameIn d a b) (h2 : SameIn d b c) : SameIn d a c := by
  cases d with
  | g r => exact Eq.trans (b := b) h1 h2
  | p q => exact Eq.trans (b := b.getLsbD 0) h1 h2
theorem SameIn.of_eq {d : Dst} {a b : W32} (h : a = b) : SameIn d a b := h ▸ SameIn.refl d a

theorem getLsbD_one_shiftLeft (i : Nat) (q : Reg) : (1#128 <<< q.toNat).getLsbD i = decide (i = q.toNat) := by
  have hq : q.toNat < 128 := q.isLt
  rw [BitVec.getLsbD_shiftLeft, BitVec.getLsbD_one]
  by_cases h : i = q.toNat
  · subst h; simp [hq]
  · by_cases h1 : i < q.toNat
    · simp [h, h1]
    · simp [h, h1]; omega
theorem cellOf_write_self {d : Dst} (h : IsCell d) (l : Lane) (v : W32) : SameIn d (cellOf (l.write d v) d) v := by
  cases d with
  | g r =>
    have hr : r.toNat < 120 := h
    show Lane.reg (l.write (.g r) v) r.toNat = v
    rw [Lane.write, if_pos hr]
    refine (fget_fset ..).trans ?_
    rw [if_pos rfl]
  | p q =>
    have hq : q ≠ 0 := h
    have hq0 : q.toNat ≠ 0 := fun h0 => hq (BitVec.eq_of_toNat_eq h0)
    show ((BitVec.ofBool ((l.write (.p q) v).pred q.toNat)).setWidth 32).getLsbD 0 = v.getLsbD 0
    have hp : (l.write (.p q) v).pred q.toNat = v.getLsbD 0 := by
      rw [Lane.write, if_neg hq, Lane.pred]
      rw [show (q.toNat == 0) = false from beq_false_of_ne hq0, Bool.false_or]
      by_cases hv : v.getLsbD 0 = true
      · simp only [hv, if_true, BitVec.getLsbD_or, getLsbD_one_shiftLeft, decide_true, Bool.or_true]
      · have hv' : v.getLsbD 0 = false := Bool.eq_false_iff.2 hv
        rw [if_neg hv, BitVec.getLsbD_and, BitVec.getLsbD_not, getLsbD_one_shiftLeft, hv']
        simp only [decide_true, Bool.and_true, Bool.not_true, Bool.and_false, Bool.true_and, Bool.false_and]
    rw [hp, BitVec.getLsbD_setWidth]
    cases v.getLsbD 0 <;> rfl
theorem cellOf_write_ne {d d' : Dst} (h : d ≠ d') (l : Lane) (v : W32) : cellOf (l.write d' v) d = cellOf l d := by
  cases d with
  | g r =>
    cases d' with
    | g r' =>
      show Lane.reg _ _ = Lane.reg _ _
      rw [Lane.write]
      split
      · refine (fget_fset ..).trans ?_
        rw [if_neg (fun he => h (by rw [BitVec.eq_of_toNat_eq he]))]
        rfl
      · rfl
    | p q' =>
      show Lane.reg _ _ = Lane.reg _ _
      rw [Lane.write]
      split <;> rfl
  | p q =>
    cases d' with
    | g r' =>
      show (BitVec.ofBool (Lane.pred _ _)).setWidth 32 = (BitVec.ofBool (Lane.pred _ _)).setWidth 32
      rw [Lane.write]
      split <;> rfl
    | p q' =>
      have hne : q.toNat ≠ q'.toNat := fun he => h (by rw [BitVec.eq_of_toNat_eq he])
      have hp : (l.write (.p q') v).pred q.toNat = l.pred q.toNat := by
        rw [Lane.write]
        split
        · rfl
        · unfold Lane.pred
          congr 1
          have hq : q.toNat < 128 := q.isLt
          split
          · rw [BitVec.getLsbD_or, getLsbD_one_shiftLeft]
            simp only [hne, decide_false, Bool.false_and, Bool.and_false, Bool.or_false]
          · rw [BitVec.getLsbD_and, BitVec.getLsbD_not, getLsbD_one_shiftLeft]
            simp only [hne, hq, decide_false, decide_true, Bool.false_and, Bool.and_false, Bool.not_false, Bool.true_and, Bool.and_true]
      show (BitVec.ofBool (Lane.pred _ _)).setWidth 32 = (BitVec.ofBool (Lane.pred _ _)).setWidth 32
      rw [hp]
theorem reg_write_ne {r : Reg} {d : Dst} (h : d ≠ .g r) (l : Lane) (v : W32) : (l.write d v).reg r.toNat = l.reg r.toNat :=
  cellOf_write_ne (d := .g r) (Ne.symm h) l v

/-! ### Results land (R88, R89) -/

/-- What a register will hold once everything has landed, of a lane with these results under way. -/
def latestOf (l : Lane) (ps : List Pend) (d : Dst) : W32 :=
  match (ps.filter (fun e => e.dst == d)).getLast? with
  | some e => e.val
  | none => cellOf l d
theorem latest_eq (l : Lane) (d : Dst) : l.latest d = latestOf l l.pend d := by
  unfold Lane.latest latestOf cellOf
  cases (l.pend.filter (fun e => e.dst == d)).getLast? <;> cases d <;> rfl

theorem write_rest (l : Lane) (d : Dst) (v : W32) : ∃ g p, l.write d v = { l with g := g, p := p } := by
  unfold Lane.write
  cases d with
  | g r =>
    dsimp only
    split
    · exact ⟨_, _, rfl⟩
    · exact ⟨l.g, l.p, rfl⟩
  | p q =>
    dsimp only
    split
    · exact ⟨l.g, l.p, rfl⟩
    · exact ⟨_, _, rfl⟩
theorem landGo_rest (f : Pend → Bool) (es kept : List Pend) (l : Lane) : ∃ g p ps, landGo f es kept l = { l with g := g, p := p, pend := ps } := by
  induction es generalizing kept l with
  | nil => exact ⟨l.g, l.p, kept, rfl⟩
  | cons e es ih =>
    rw [landGo]
    split
    · obtain ⟨g, p, hw⟩ := write_rest l e.dst e.val
      obtain ⟨g', p', ps, hl⟩ := ih (kept.filter (fun k => k.dst != e.dst)) (l.write e.dst e.val)
      rw [hl, hw]
      exact ⟨g', p', ps, rfl⟩
    · exact ih _ _
theorem landGo_pend (f : Pend → Bool) (es kept : List Pend) (l : Lane) (hk : ∀ e ∈ kept, f e = false) :
    (landGo f es kept l).pend.Sublist (kept ++ es) ∧ ∀ e ∈ (landGo f es kept l).pend, f e = false := by
  induction es generalizing kept l with
  | nil => rw [List.append_nil]; exact ⟨List.Sublist.refl _, hk⟩
  | cons e es ih =>
    rw [landGo]
    split
    · obtain ⟨h1, h2⟩ := ih (kept.filter (fun k => k.dst != e.dst)) (l.write e.dst e.val) (fun x hx => hk x (List.mem_filter.1 hx).1)
      exact ⟨h1.trans (List.Sublist.append List.filter_sublist (List.sublist_cons_self e es)), h2⟩
    · next he =>
      obtain ⟨h1, h2⟩ := ih (kept ++ [e]) l (fun x hx => by
        rcases List.mem_append.1 hx with hx | hx
        · exact hk x hx
        · rw [List.mem_singleton.1 hx]; exact Bool.eq_false_iff.2 he)
      rw [List.append_assoc] at h1
      exact ⟨h1, h2⟩
/-- The landing of one result over what is kept leaves what each register will hold. -/
theorem latestOf_land {d : Dst} (hd : IsCell d) (l : Lane) (kept es : List Pend) (e : Pend) :
    SameIn d (latestOf (l.write e.dst e.val) (kept.filter (fun k => k.dst != e.dst) ++ es) d) (latestOf l (kept ++ e :: es) d) := by
  unfold latestOf
  by_cases h : e.dst = d
  · have hk : (kept.filter (fun k => k.dst != e.dst)).filter (fun k => k.dst == d) = [] := by
      rw [List.filter_filter, List.filter_eq_nil_iff]
      intro x _
      rw [h]
      cases hx : (x.dst == d) <;> simp [bne, hx]
    have he : (e :: es).filter (fun k => k.dst == d) = e :: es.filter (fun k => k.dst == d) := List.filter_cons_of_pos (by rw [h]; simp)
    rw [List.filter_append, hk, List.nil_append, List.filter_append, he]
    cases hl : es.filter (fun k => k.dst == d) with
    | nil =>
      rw [List.getLast?_nil, List.getLast?_append]
      simp only [List.getLast?_singleton, Option.some_or]
      rw [← h]
      exact cellOf_write_self (h ▸ hd) l e.val
    | cons x xs =>
      rw [List.getLast?_append, List.getLast?_cons_cons]
      cases hx : (x :: xs).getLast? with
      | none => exact absurd (List.getLast?_eq_none_iff.1 hx) (by simp)
      | some y => exact SameIn.refl d _
  · have hk : (kept.filter (fun k => k.dst != e.dst)).filter (fun k => k.dst == d) = kept.filter (fun k => k.dst == d) := by
      rw [List.filter_filter]
      refine List.filter_congr fun x _ => ?_
      by_cases hx : x.dst = d
      · simp [hx, Ne.symm h]
      · simp [hx]
    have he : (e :: es).filter (fun k => k.dst == d) = es.filter (fun k => k.dst == d) := List.filter_cons_of_neg (by simpa using h)
    rw [List.filter_append, hk, List.filter_append, he, ← List.filter_append]
    cases ((kept ++ es).filter (fun k => k.dst == d)).getLast? with
    | none => exact SameIn.of_eq (cellOf_write_ne (Ne.symm h) l e.val)
    | some y => exact SameIn.refl d _
theorem landGo_latest {f : Pend → Bool} {d : Dst} (hd : IsCell d) (es kept : List Pend) (l : Lane) :
    SameIn d ((landGo f es kept l).latest d) (latestOf l (kept ++ es) d) := by
  induction es generalizing kept l with
  | nil =>
    rw [List.append_nil, landGo, latest_eq]
    cases d <;> exact SameIn.refl _ _
  | cons e es ih =>
    rw [landGo]
    split
    · exact (ih _ _).trans (latestOf_land hd l kept es e)
    · have := ih (kept ++ [e]) l
      rwa [List.append_assoc] at this
theorem landGo_reg {f : Pend → Bool} {r : Reg} {es : List Pend} (h : ∀ e ∈ es, e.dst = .g r → f e = false) (kept : List Pend) (l : Lane) :
    (landGo f es kept l).reg r.toNat = l.reg r.toNat := by
  induction es generalizing kept l with
  | nil => rfl
  | cons e es ih =>
    have h' : ∀ x ∈ es, x.dst = .g r → f x = false := fun x hx => h x (List.mem_cons_of_mem _ hx)
    rw [landGo]
    split
    · next he =>
      rw [ih h']
      refine reg_write_ne (fun hd => ?_) l e.val
      rw [h e (List.mem_cons_self ..) hd] at he
      exact absurd he (by simp)
    · exact ih h' _ _
theorem landGo_append (f : Pend → Bool) (before es kept : List Pend) (l : Lane) : ∃ kept' l', landGo f (before ++ es) kept l = landGo f es kept' l' := by
  induction before generalizing kept l with
  | nil => exact ⟨kept, l, rfl⟩
  | cons e before ih =>
    rw [List.cons_append, landGo]
    split <;> exact ih _ _
/-- The last result that lands for a register is what it holds. -/
theorem landGo_last {f : Pend → Bool} {r : Reg} (hr : r.toNat < 120) {before after : List Pend} {e : Pend} (he : e.dst = .g r) (hf : f e = true)
    (ha : ∀ x ∈ after, x.dst = .g r → f x = false) (kept : List Pend) (l : Lane) :
    (landGo f (before ++ e :: after) kept l).reg r.toNat = e.val := by
  obtain ⟨kept', l', h⟩ := landGo_append f before (e :: after) kept l
  rw [h, landGo, if_pos hf, landGo_reg ha, he]
  exact cellOf_write_self (d := .g r) hr l' e.val

theorem resultsLand : Claims.ResultsLand := by
  unfold Claims.ResultsLand
  intro s w
  have key : ∀ (f : Pend → Bool) (x : Lane), let y := x.land f
      y = { x with g := y.g, p := y.p, pend := y.pend } ∧ y.pend.Sublist x.pend ∧ (∀ e ∈ y.pend, f e = false) ∧
      (∀ r : Reg, r.toNat < 120 → y.latest (.g r) = x.latest (.g r)) ∧
      (∀ q : Reg, q ≠ 0 → (y.latest (.p q)).getLsbD 0 = (x.latest (.p q)).getLsbD 0) ∧
      (∀ r : Reg, r.toNat < 120 → (∀ e ∈ x.pend, e.dst = .g r → f e = false) → y.reg r.toNat = x.reg r.toNat) ∧
      (∀ r : Reg, r.toNat < 120 → ∀ before e after, x.pend = before ++ e :: after → e.dst = .g r → f e = true →
        (∀ e' ∈ after, e'.dst = .g r → f e' = false) → y.reg r.toNat = e.val) := by
    intro f x
    obtain ⟨g, p, ps, hrest⟩ := landGo_rest f x.pend [] x
    obtain ⟨h1, h2⟩ := landGo_pend f x.pend [] x (by simp)
    refine ⟨by rw [Lane.land, hrest], h1, h2, fun r hr => ?_, fun q hq => ?_, fun r _ h => landGo_reg h [] x, fun r hr before e after hx he hf ha => ?_⟩
    · rw [latest_eq x]
      exact landGo_latest (d := .g r) hr x.pend [] x
    · rw [latest_eq x]
      exact landGo_latest (d := .p q) hq x.pend [] x
    · rw [Lane.land, hx]
      exact landGo_last hr he hf ha [] x
  refine ⟨⟨_, rfl, rfl, fun u hu => ?_, ?_, fun l hl => ?_⟩, fun l g hl => ⟨_, rfl, rfl, fun u hu => ?_, ?_, fun n hn => ?_⟩⟩
  · rw [State.wave_updLanes, if_neg hu]
  · rw [State.wave_updLanes_self]; exact upd_rest ..
  · rw [State.lane_updLanes_of_nodup _ _ _ _ List.nodup_range, if_pos ⟨rfl, List.mem_range.2 hl⟩]
    exact ⟨fun h => absurd h (by simp), fun _ => key _ _⟩
  · rw [State.wave_updLanes, if_neg hu]
  · rw [State.wave_updLanes_self]; exact upd_rest ..
  · rw [State.lane_updLanes_of_nodup _ _ _ _ (List.nodup_singleton l)]
    refine ⟨fun h => if_neg (fun hc => ?_), fun h => ?_⟩
    · rw [List.mem_singleton.1 hc.2] at h
      simp at h
    · have hnl : n = l := by simpa using h
      rw [if_pos ⟨rfl, List.mem_singleton.2 hnl⟩]
      exact key _ _

/-! ### Writes perform (R180, R246, R248) -/

theorem memGet_landWrite (s : State) (w : PWrite) (a : Nat) : memGet (s.landWrite w).mem a =
    if w.addr ≤ a ∧ a < w.addr + w.bytes.length then w.bytes.getD (a - w.addr) 0 else memGet s.mem a := by
  have hm : (s.landWrite w).mem = memPuts s.mem w.addr w.bytes := by
    unfold State.landWrite
    dsimp only
    split <;> rfl
  rw [hm, memGet_memPuts]
  by_cases h : w.addr ≤ a ∧ a < w.addr + w.bytes.length
  · rw [dif_pos h, if_pos h, List.getD_eq_getElem]
  · rw [dif_neg h, if_neg h]
theorem landWrite_rest (s : State) (w : PWrite) : (s.landWrite w).waves = s.waves ∧ (s.landWrite w).troupes = s.troupes ∧
    (s.landWrite w).corps = s.corps ∧ (s.landWrite w).cur = s.cur ∧ (s.landWrite w).cycle = s.cycle ∧ (s.landWrite w).writes = s.writes := by
  unfold State.landWrite
  dsimp only
  split <;> exact ⟨rfl, rfl, rfl, rfl, rfl, rfl⟩
/-- Everything that the turn of a write that may perform can do. -/
theorem performNext_of_may {s : State} {n : Nat} {w : PWrite} (hw : s.writes[n]? = some w) (hm : s.mayPerform n = true) : s.performNext n =
    if w.level = 0 then
      if w.isDirect then { s with writes := s.writes.eraseIdx n }.landWrite w
      else { State.modCore { s with writes := s.writes.eraseIdx n } w.pkg w.core (fun c => { c with lines := writeLines c.lines w }) with
        writes := s.writes.eraseIdx n ++ [{ w with level := 1 }] }
    else if w.level = 1 then { s with writes := s.writes.set n { w with level := 2 } }
    else { s with writes := s.writes.eraseIdx n }.landWrite w := by
  unfold State.performNext
  rw [hm, hw]
  rfl

theorem writesPerform : Claims.WritesPerform := by
  unfold Claims.WritesPerform
  intro s n w hw
  refine ⟨fun hm => ?_, fun hm => ⟨_, rfl, ?_⟩, fun hm h0 j x hj hx hx0 hid hwid hlane => ?_⟩
  · show Host.Outcome.next (s.performNext n) = _
    unfold State.performNext
    rw [hm]
    rfl
  · rw [performNext_of_may hw hm]
    obtain ⟨r1, r2, r3, r4, r5, r6⟩ := landWrite_rest { s with writes := s.writes.eraseIdx n } w
    by_cases h0 : w.level = 0
    · rw [if_pos h0]
      by_cases hd : w.isDirect = true
      · have hk : keyIsHbm w.addr = false := by simpa [PWrite.isDirect] using hd
        rw [if_pos hd]
        exact ⟨r1, r2, r3, r4, r5, fun _ => ⟨r6, fun a => memGet_landWrite _ w a⟩, fun _ hc => absurd (hk.symm.trans hc) (by decide), fun h1 => absurd (h0.symm.trans h1) (by decide)⟩
      · have hk : keyIsHbm w.addr = true := by simpa [PWrite.isDirect] using hd
        rw [if_neg hd]
        refine ⟨rfl, rfl, rfl, rfl, rfl, fun hc => ?_, fun _ _ => ⟨rfl, rfl⟩, fun h1 => absurd (h0.symm.trans h1) (by decide)⟩
        rcases hc with hc | ⟨-, hc⟩
        · omega
        · exact absurd (hk.symm.trans hc) (by decide)
    · rw [if_neg h0]
      by_cases h1 : w.level = 1
      · rw [if_pos h1]
        exact ⟨rfl, rfl, rfl, rfl, rfl, fun hc => by omega, fun hc => absurd hc h0, fun _ => ⟨rfl, rfl⟩⟩
      · rw [if_neg h1]
        exact ⟨r1, r2, r3, r4, r5, fun _ => ⟨r6, fun a => memGet_landWrite _ w a⟩, fun hc => absurd hc h0, fun hc => absurd hc h1⟩
  · unfold State.mayPerform at hm
    rw [hw] at hm
    simp only [Bool.and_eq_true, Bool.not_eq_true', List.any_eq_false] at hm
    have hin : x ∈ s.writes.take n := by
      have := List.getElem?_take_of_lt (l := s.writes) hj
      rw [hx] at this
      exact List.mem_of_getElem? this
    have hno := hm.1 x hin
    have hmeet : overlaps x.addr x.bytes.length w.addr w.bytes.length = x.meets w.addr w.bytes.length := rfl
    rw [hmeet, ← Bool.not_eq_true]
    intro hov
    refine hno ?_
    unfold PWrite.after
    rw [if_pos h0]
    simp [hx0, hid, hwid, hlane, hov]

/-- Settles O19, from the laws of the results that land and of the turn of a write. -/
theorem resultsAndWritesLand : Obligations.ResultsAndWritesLand := ⟨resultsLand, writesPerform⟩

end Sys2Proof
end

-- ==== Sys2Proof/Proofs/Fences.lean ====

-- ==== Sys2Proof/Proofs/Fences.lean ====
section
/-! SUPPORT. A result for the lanes of the path after other changes, the caches of a core that an acquire empties, and the fences
(R193, R194). -/

namespace Sys2Proof

open Machine

/-! ### Changes of the path one after another -/

/-- A further change of all lanes of the path. -/
theorem WaveBecomes.updPath {s t : State} {g : Wave → Wave} {f : Nat → Lane → Lane} (h : WaveBecomes s t g f) (f2 : Nat → Lane → Lane) :
    WaveBecomes s (t.updLanes s.cur.wid (lanesOf s.cur.lanes) f2) g (fun l x => f2 l (f l x)) := by
  refine (h.updList (lanesOf_nodup _) (fun l hl => (mem_lanesOf _ _).1 hl) f2).congr fun l hl => ?_
  rw [if_pos ((mem_lanesOf _ _).2 hl)]
/-- What a lane of the path does when it is sent a result is what the vocabulary says. -/
theorem send_eq_sends (s : State) (m : Mods) (due : Option Nat) (ds : List Dst) (val : Nat → List (Dst × W32)) (l : Nat) (x : Lane) :
    (if m.active x then x.send due s.nextId (val l) else if m.zero then x.send due s.nextId (zeroOuts ds) else x) =
      sends s m due ds val (fun _ => 0) l x := by
  have hz : ∀ outs : List (Dst × W32), { x with pend := x.pend ++ inFlight due s.nextId outs, lflags := x.lflags ||| 0 } = x.send due s.nextId outs := by
    intro outs
    rw [show x.lflags ||| 0 = x.lflags from BitVec.or_zero]
    rfl
  unfold sends
  rw [hz]
  rfl
/-- One result for every active lane, sent after other changes of the wave. -/
theorem WaveBecomes.sendAll {s t : State} {g : Wave → Wave} {f : Nat → Lane → Lane} (h : WaveBecomes s t g f) (hc : t.cur = s.cur)
    (hn : t.nextId = s.nextId) (m : Mods) {lat : Machine.Lat} (hk : lat.due t.clock = lat.due s.clock) (d : Reg) (n : Nat) (outs : List (Dst × W32)) :
    WaveBecomes s (sendAll t m lat d n outs) g (fun l x => sends s m (lat.due s.clock) (dstRegs d n) (fun _ => outs) (fun _ => 0) l (f l x)) := by
  refine (WaveBecomes.of_waves (h.updPath _) (u := Machine.sendAll t m lat d n outs) (by
    unfold Machine.sendAll
    rw [hc, hn, hk]
    rfl)).congr fun l _ => send_eq_sends s m (lat.due s.clock) (dstRegs d n) (fun _ => outs) l _

/-! ### The caches that an acquire empties (R194) -/

theorem cachesOnly_of_same {s t : State} (hp : t.pkgs = s.pkgs) (hw : t.walks = s.walks) : CachesOnly s t := by
  have hk : ∀ k, t.pkg k = s.pkg k := fun k => by unfold State.pkg; rw [hp]
  refine ⟨fun k => ⟨by rw [hk], fun c => by unfold State.core; rw [hk]⟩, fun r hr => ⟨r, hw ▸ hr, rfl, fun _ => rfl⟩⟩
theorem pkg_emptyLines (s : State) (k c j : Nat) :
    (s.emptyLines k c).pkg j = { s.pkg j with cores := ((s.emptyLines k c).pkg j).cores } := by
  unfold State.emptyLines
  rw [State.pkg_modCore]
  split
  · next h => subst h; rfl
  · rfl
theorem core_emptyLines (s : State) (k c j d : Nat) :
    (s.emptyLines k c).core j d = { s.core j d with lines := ((s.emptyLines k c).core j d).lines } := by
  unfold State.emptyLines
  rw [State.core_modCore]
  split
  · next h => rw [h.1, h.2]
  · rfl
theorem lines_emptyLines (s : State) (k c : Nat) : ((s.emptyLines k c).core k c).lines = [] := by
  unfold State.emptyLines
  rw [State.core_modCore, if_pos ⟨rfl, rfl⟩]
theorem emptyLines_cachesOnly (s : State) (k c : Nat) : CachesOnly s (s.emptyLines k c) := by
  refine ⟨fun j => ⟨(pkg_emptyLines s k c j).trans ?_, fun d => (core_emptyLines s k c j d).trans ?_⟩, fun r hr => ⟨r, hr, rfl, fun _ => rfl⟩⟩
  · have := congrArg Pkg.tlb2 (pkg_emptyLines s k c j)
    rw [this]
  · have := congrArg Core.tlb (core_emptyLines s k c j d)
    rw [this]
theorem acquireLines_cachesOnly (s : State) (sc : Scope) : CachesOnly s (s.acquireLines sc) := by
  unfold State.acquireLines
  split
  · exact cachesOnly_of_same rfl rfl
  · exact emptyLines_cachesOnly ..
theorem acquireLines_frame (s : State) (sc : Scope) : s.acquireLines sc = { s with pkgs := (s.acquireLines sc).pkgs } := by
  unfold State.acquireLines
  split <;> rfl
theorem acquireLines_cur (s : State) (sc : Scope) : (s.acquireLines sc).cur = s.cur := by
  rw [acquireLines_frame]
theorem acquireLines_waves (s : State) (sc : Scope) : (s.acquireLines sc).waves = s.waves := by
  rw [acquireLines_frame]
/-- The path goes on behind an acquire. -/
theorem finish_acquire (s : State) (sc : Scope) :
    finish (s.acquireLines sc) [] = { s with waves := (finish (s.acquireLines sc) []).waves, pkgs := (finish (s.acquireLines sc) []).pkgs } ∧
      CachesOnly s (finish (s.acquireLines sc) []) ∧ GoesOn s (finish (s.acquireLines sc) []) ∧
      (sc ≠ .core → ((finish (s.acquireLines sc) []).core s.curPkg s.curTroupe.core).lines = []) := by
  have hf := acquireLines_frame s sc
  have hb := ((waveBecomes_refl s).of_waves (acquireLines_waves s sc)).finish (acquireLines_cur s sc)
  have hcache := acquireLines_cachesOnly s sc
  have hlines : sc ≠ .core → ((s.acquireLines sc).core s.curPkg s.curTroupe.core).lines = [] := by
    intro h
    rw [State.acquireLines, if_neg h]
    exact lines_emptyLines ..
  rw [finish_nil] at hb ⊢
  generalize hu : s.acquireLines sc = u at hf hb hcache hlines
  refine ⟨?_, ⟨hcache.1, hcache.2⟩, hb, hlines⟩
  exact Eq.trans (b := { u with waves := (u.advance []).waves }) rfl
    (Eq.trans (congrArg (fun x : State => { x with waves := (u.advance []).waves }) hf) rfl)

/-! ### Fences -/

theorem scopeNum_eq (n : Scope) : scopeNum n = match n with | .core => 0 | .clu => 1 | .pkg => 2 | .pod => 3 := by
  cases n <;> rfl
/-- The fence that `fnc.iss` numbers (R193). -/
def issuedFence (s : State) (n : Scope) : Fence :=
  ⟨(s.wave s.cur.wid).fseq + 1, n, s.nextId, 0, if n = .pod then (s.pkg s.curPkg).outstanding else [],
    if n = .pod then ((s.pkg s.curPkg).cmds.filter (fun (c : CmdRec) => c.wid == s.cur.wid && c.cmd.isRcopy)).map (fun (c : CmdRec) => c.id) else []⟩
/-- The state in which it has been numbered. -/
def afterFence (s : State) (n : Scope) : State :=
  s.modWave s.cur.wid (fun v => { v with fseq := (s.wave s.cur.wid).fseq + 1, fences := v.fences ++ [issuedFence s n] })
def fenceToken (s : State) (n : Scope) : W32 := BitVec.ofNat 32 (scopeNum n * 2 ^ 30 + ((s.wave s.cur.wid).fseq + 1).toNat)
theorem activeLanes_isEmpty {s : State} {m : Mods} (ha : ∃ l, On s m l) : ¬ (s.activeLanes m).isEmpty = true := by
  have := someActive_eq_true.2 ha
  rwa [State.someActive, Bool.not_eq_true', ← Bool.not_eq_true] at this
theorem fncIss_eq {s : State} {m : Mods} (d : Reg) (n : Scope) (ha : ∃ l, On s m l) (hn : (s.wave s.cur.wid).fences.length < 8) :
    exec (.fncIss m d n) s = .next (finish (sendAll (afterFence s n) m .owed d 1 (outs32 d (fenceToken s n))) []) := by
  refine Eq.trans (show _ = execFncIss m d n s from rfl) ?_
  unfold execFncIss
  rw [if_neg (activeLanes_isEmpty ha), if_neg (show ¬ 8 ≤ s.curWave.fences.length from Nat.not_le.2 hn)]
  rfl
theorem afterFence_becomes (s : State) (m : Mods) (d : Reg) (n : Scope) :
    WaveBecomes s (finish (sendAll (afterFence s n) m .owed d 1 (outs32 d (fenceToken s n))) [])
      (fun v => { v with fseq := (s.wave s.cur.wid).fseq + 1, fences := v.fences ++ [issuedFence s n] })
      (fun l x => goOn s l (sends s m none (regs1 d) (fun _ => to32 d (fenceToken s n)) (fun _ => 0) l x)) := by
  have hw : WaveBecomes s (afterFence s n) _ _ := modWave_waveBecomes s _ (fun _ => rfl)
  have hs := (hw.sendAll rfl rfl m (lat := .owed) rfl d 1 (outs32 d (fenceToken s n))).finish rfl
  rw [dstRegs_one, outs32_eq] at hs
  rw [outs32_eq]
  exact hs
theorem fncIss_goesOn (s : State) (m : Mods) (d : Reg) (n : Scope) (ha : ∃ l, On s m l) (hn : (s.wave s.cur.wid).fences.length < 8) :
    After (.fncIss m d n) s (fun t => t = { s with waves := t.waves, nextId := s.nextId + 1 } ∧
      ∃ f : Fence, f.seq = (s.wave s.cur.wid).fseq + 1 ∧ f.scope = n ∧ f.writeId = s.nextId ∧
        WaveBecomes s t (fun v => { v with fseq := v.fseq + 1, fences := v.fences ++ [f] })
          (fun l x => goOn s l (sends s m none (regs1 d) (fun _ => to32 d (fenceToken s n)) (fun _ => 0) l x))) := by
  have hb := afterFence_becomes s m d n
  refine ⟨_, fncIss_eq d n ha hn, ?_, issuedFence s n, rfl, rfl, rfl, hb.waves, hb.rest, hb.lanes⟩
  rw [finish_nil]
  rfl
theorem fncIss_waits (s : State) (m : Mods) (d : Reg) (n : Scope) (ha : ∃ l, On s m l) (hn : 8 ≤ (s.wave s.cur.wid).fences.length) :
    After (.fncIss m d n) s (Waits (.fncIss m d n) s) := by
  refine ⟨_, ?_, waitAt_waits s _⟩
  refine Eq.trans (show _ = execFncIss m d n s from rfl) ?_
  unfold execFncIss
  rw [if_neg (activeLanes_isEmpty ha), if_pos (show 8 ≤ s.curWave.fences.length from hn)]

/-- A token is refused where it is malformed or from ahead (R194). -/
def tokenRefused (s : State) (tok : W32) : Prop :=
  tok.toNat / 2 ^ 24 % 64 ≠ 0 ∨ ((BitVec.ofNat 24 tok.toNat - (s.wave s.cur.wid).fseq).toNat ≠ 0 ∧
    (BitVec.ofNat 24 tok.toNat - (s.wave s.cur.wid).fseq).toNat < 2 ^ 23)
theorem setWidth_eq_ofNat (t : W32) : t.setWidth 24 = BitVec.ofNat 24 t.toNat := by
  apply BitVec.eq_of_toNat_eq
  simp
theorem tokenRefused_iff (s : State) (tok : W32) : tokenRefused s tok ↔
    (nbits tok.toNat 29 24 ≠ 0 ∨ (1 ≤ (tok.setWidth 24 - s.curWave.fseq).toNat ∧ (tok.setWidth 24 - s.curWave.fseq).toNat < 2 ^ 23)) := by
  unfold tokenRefused nbits
  rw [setWidth_eq_ofNat, Nat.shiftRight_eq_div_pow]
  exact or_congr Iff.rfl (and_congr (by exact Nat.one_le_iff_ne_zero.symm) Iff.rfl)
theorem scopeOf_ne_core {tok : W32} (h : 2 ^ 30 ≤ tok.toNat) : scopeOf (nbits tok.toNat 31 30) ≠ .core := by
  have hlt := tok.isLt
  have h0 : nbits tok.toNat 31 30 ≠ 0 := by
    unfold nbits
    rw [Nat.shiftRight_eq_div_pow]
    omega
  unfold scopeOf
  split
  · next h1 => exact absurd h1 h0
  all_goals exact (by decide)
theorem any_seq_iff {s : State} {q : BitVec 24} : s.curWave.fences.any (fun f => f.seq == q) = true ↔ ∃ f ∈ (s.wave s.cur.wid).fences, f.seq = q := by
  rw [List.any_eq_true]
  exact exists_congr fun f => and_congr_right fun _ => beq_iff_eq
theorem fncWt_eq {s : State} {m : Mods} {a : Reg} {e : Nat} (he : Elected s m e) (tok : W32) (htok : s.src s.cur.wid e a = tok) :
    (tokenRefused s tok → exec (.fncWt m a) s = .next (refuse s m .token)) ∧
    (¬ tokenRefused s tok → (∃ f ∈ (s.wave s.cur.wid).fences, f.seq = BitVec.ofNat 24 tok.toNat) → exec (.fncWt m a) s = .next (waitAt s (.fncWt m a))) ∧
    (¬ tokenRefused s tok → (∀ f ∈ (s.wave s.cur.wid).fences, f.seq ≠ BitVec.ofNat 24 tok.toNat) → (s.wave s.cur.wid).discarded = [] →
      exec (.fncWt m a) s = .next (finish (s.acquireLines (scopeOf (nbits tok.toNat 31 30))) [])) := by
  have hexec : exec (.fncWt m a) s = execFncWt m a s := rfl
  rw [hexec, execFncWt, elected_eq he]
  dsimp only
  rw [htok, tokenRefused_iff, ← setWidth_eq_ofNat]
  refine ⟨fun h => by rw [if_pos h], fun h hf => by rw [if_neg h, if_pos (any_seq_iff.2 hf)], fun h hf hd => ?_⟩
  rw [if_neg h, if_neg (by rw [any_seq_iff]; rintro ⟨f, hm, hq⟩; exact hf f hm hq),
    if_neg (by rintro ⟨-, h1⟩; rw [show s.curWave.discarded = [] from hd] at h1; exact absurd h1 (by decide))]

/-- A fence with an earlier write of its wave that has not performed at its scope is not done. -/
theorem fenceDone_of_behind {s : State} {w : Nat} {f : Fence} {x : PWrite} (hx : x ∈ s.writes) (hw : x.wid = w) (hid : x.id < f.writeId)
    (hl : x.level < f.scope.lvl) : s.fenceDone w f = false := by
  have : s.behind w f.writeId f.scope.lvl = true := by
    unfold State.behind
    rw [Bool.or_eq_true, Bool.or_eq_true, List.any_eq_true]
    refine .inl (.inl ⟨x, hx, ?_⟩)
    simp [hid, hl, hw]
  unfold State.fenceDone
  rw [this]
  rfl
theorem mem_fences_performed {s : State} {w : Nat} {q : BitVec 24} {f : Fence} :
    f ∈ (s.wave w).fences.filter (fun f => !(f.seq == q && s.fenceDone w f)) ↔ f ∈ (s.wave w).fences ∧ ¬ (f.seq = q ∧ s.fenceDone w f = true) := by
  rw [List.mem_filter]
  simp only [Bool.not_eq_true', ← Bool.not_eq_true, Bool.and_eq_true, beq_iff_eq]

/-- Settles O25, from the laws of a result sent after a change of the wave and of what an acquire empties. -/
theorem fences : Obligations.Fences := by
  unfold Obligations.Fences
  refine ⟨fun s m d n ha => ⟨fun hn => ?_, fun hn => fncIss_waits s m d n ha hn⟩, fun s m a e he => ⟨?_, ?_, ?_⟩, fun s w q => ?_⟩
  · have := fncIss_goesOn s m d n ha hn
    unfold fenceToken at this
    rw [scopeNum_eq] at this
    exact this
  · intro h0 ha hf
    exact ⟨_, (fncWt_eq he _ rfl).2.1 (fun h => h.elim (fun h => h h0) ha) hf, waitAt_waits s _⟩
  · intro h0 ha hf hd
    obtain ⟨h1, h2, h3, h4⟩ := finish_acquire s (scopeOf (nbits (s.src s.cur.wid e a).toNat 31 30))
    exact ⟨_, (fncWt_eq he _ rfl).2.2 (fun h => h.elim (fun h => h h0) ha) hf hd, h1, h2, h3, fun h => h4 (scopeOf_ne_core h)⟩
  · intro hal h
    exact ⟨_, (fncWt_eq he _ rfl).1 h, refuse_stops hal ⟨e, he.1⟩⟩
  · obtain ⟨h1, h2, h3⟩ := modWave_passes s w (fun v => { v with fences := v.fences.filter (fun f => !(f.seq == q && s.fenceDone w f)) })
    refine ⟨_, rfl, h1, h2, by rw [h3], fun f => by rw [h3]; exact mem_fences_performed, fun f hf x hx hw hid hl => ?_⟩
    rw [h3]
    refine mem_fences_performed.2 ⟨hf, fun hd => ?_⟩
    have hl' : x.level < f.scope.lvl := by
      generalize f.scope = c at hl ⊢
      cases c <;> exact hl
    rw [fenceDone_of_behind hx hw hid hl'] at hd
    exact absurd hd.2 (by decide)

end Sys2Proof
end

-- ==== Sys2Proof/Proofs/OwnerBits.lean ====

-- ==== Sys2Proof/Proofs/OwnerBits.lean ====
section
/-! SUPPORT. Stops of every active lane, each with a cause of its own, and the owner bits (R195, R196). -/

namespace Sys2Proof

open Machine

/-! ### Stops of every active lane -/

/-- Each active lane takes a stop of its own, and the group does not complete. -/
theorem finish_stopsEach {s : State} {m : Mods} {c : Nat → Cause} {sub : Nat → Byte} {va : Nat → W64} (h : Alone s) (ha : ∃ l, On s m l)
    (hc : ∀ l, On s m l → (s.stopRec l (c l) (sub l) (va l)).stays = false ∧ c l ≠ .none) :
    ∃ who : Nat → Bool, (∀ l, who l = true ↔ On s m l) ∧
      StopsAs s (finish s ((s.activeLanes m).map (fun l => s.stopRec l (c l) (sub l) (va l)))) who
        (fun l => causeWord (c l).code.toNat (sub l).toNat 0) va (fun _ => s.cur.gpc) (fun _ => s.cur.gpc) (standsAt s) := by
  let f : Nat → StopRec := fun l => if l ∈ s.activeLanes m then s.stopRec l (c l) (sub l) (va l) else s.stopRec l .none 0 0
  have hon : ∀ l, l ∈ s.activeLanes m → f l = s.stopRec l (c l) (sub l) (va l) := fun l hl => if_pos hl
  have hat : ∀ l, AtGroup s l (f l) := by
    intro l
    by_cases hl : l ∈ s.activeLanes m
    · rw [hon l hl]
      exact ⟨rfl, (hc l (mem_activeLanes.1 hl)).1, rfl, rfl, fun h0 => absurd h0 (hc l (mem_activeLanes.1 hl)).2⟩
    · rw [show f l = s.stopRec l .none 0 0 from if_neg hl]
      exact ⟨rfl, rfl, rfl, rfl, fun _ => ⟨show (0 : W16) ++ (0 : Byte) ++ Cause.none.code = (0 : W32) by decide, rfl⟩⟩
  have hwho : ∀ l, (l ∈ s.activeLanes m ∧ (f l).cause ≠ .none) ↔ On s m l := by
    intro l
    rw [← mem_activeLanes]
    refine and_iff_left_of_imp fun hl => ?_
    rw [hon l hl]
    exact (hc l (mem_activeLanes.1 hl)).2
  have hst := finish_stopsAs h ha hat
  rw [List.map_congr_left hon] at hst
  refine ⟨_, fun l => by rw [decide_eq_true_eq, hwho], { hst with lanes := fun l hl hx => ?_ }⟩
  obtain ⟨h1, h2, h3, h4, h5, h6, h7⟩ := hst.lanes l hl hx
  refine ⟨h1, h2, h3, h4, h5, fun hw => ?_, fun hw => ?_⟩
  · obtain ⟨a1, a2, a3, a4⟩ := h6 hw
    rw [hon l (of_decide_eq_true hw).1] at a1 a2
    exact ⟨a1.trans (causeWord_eq ..), a2, a3, a4⟩
  · obtain ⟨b1, b2, b3, b4⟩ := h7 hw
    have hl' : l ∉ s.activeLanes m := fun hl' => absurd ((hwho l).2 (mem_activeLanes.1 hl')) (of_decide_eq_false hw)
    rw [if_neg (by simpa using hl')] at b3 b4
    exact ⟨b1, b2, b3, b4⟩

/-! ### Owner bits change hands -/

/-- The bits of package `k` that say whether the engines own tile `p` of core `c`. -/
def ownerBit (s : State) (k c p : Nat) : Bool := fget false (s.core k c).ownEng p

theorem ownerBit_setOwner (s : State) (k : Nat) (r : TileRef) (b : Bool) (c p : Nat) :
    ownerBit (s.setOwner k r b) k c p = if r.core = c ∧ r.tile = p then b else ownerBit s k c p := by
  unfold ownerBit State.setOwner
  rw [State.core_modCore]
  by_cases hc : c = r.core
  · rw [if_pos ⟨rfl, hc⟩]
    refine (fget_fset ..).trans ?_
    by_cases hp : p = r.tile
    · rw [if_pos hp, if_pos ⟨hc.symm, hp.symm⟩]
    · rw [if_neg hp, if_neg (fun h => hp h.2.symm), hc]
  · rw [if_neg (fun h => hc h.2), if_neg (fun h => hc h.1.symm)]
/-- The owner bits of a list of tiles are set, and of no others. -/
theorem ownerBit_setOwners (rs : List TileRef) (s : State) (k : Nat) (b : Bool) (c p : Nat) :
    ((∃ r ∈ rs, r.core = c ∧ r.tile = p) → ownerBit (rs.foldl (fun s r => s.setOwner k r b) s) k c p = b) ∧
    ((∀ r ∈ rs, r.core = c → r.tile ≠ p) → ownerBit (rs.foldl (fun s r => s.setOwner k r b) s) k c p = ownerBit s k c p) := by
  induction rs generalizing s with
  | nil => exact ⟨fun ⟨r, hr, _⟩ => absurd hr List.not_mem_nil, fun _ => rfl⟩
  | cons x xs ih =>
    obtain ⟨ih1, ih2⟩ := ih (s.setOwner k x b)
    rw [List.foldl_cons]
    refine ⟨fun ⟨r, hr, hcp⟩ => ?_, fun hno => ?_⟩
    · by_cases hin : ∃ r ∈ xs, r.core = c ∧ r.tile = p
      · exact ih1 hin
      · rw [ih2 (fun r hr hc hp => hin ⟨r, hr, hc, hp⟩), ownerBit_setOwner]
        rcases List.mem_cons.1 hr with rfl | hr
        · rw [if_pos hcp]
        · exact absurd ⟨r, hr, hcp⟩ hin
    · rw [ih2 (fun r hr => hno r (List.mem_cons_of_mem _ hr)), ownerBit_setOwner, if_neg (fun h => hno x List.mem_cons_self h.1 h.2)]
theorem setOwners_frame (rs : List TileRef) (s : State) (k : Nat) (b : Bool) :
    rs.foldl (fun s r => s.setOwner k r b) s = { s with pkgs := (rs.foldl (fun s r => s.setOwner k r b) s).pkgs } := by
  induction rs generalizing s with
  | nil => rfl
  | cons x xs ih =>
    rw [List.foldl_cons]
    exact (ih (s.setOwner k x b)).trans rfl
/-- The path goes on behind a change of packages alone. -/
theorem finish_pkgs {s t : State} (h : t = { s with pkgs := t.pkgs }) :
    finish t [] = { s with waves := (finish t []).waves, pkgs := (finish t []).pkgs } ∧ GoesOn s (finish t []) := by
  have hw : t.waves = s.waves := by rw [h]
  have hc : t.cur = s.cur := by rw [h]
  refine ⟨?_, ((waveBecomes_refl s).of_waves hw).finish hc⟩
  rw [finish_nil]
  exact Eq.trans (b := { t with waves := (t.advance []).waves }) rfl
    (Eq.trans (congrArg (fun x : State => { x with waves := (t.advance []).waves }) h) rfl)
theorem GoesOn.curPkg {s t : State} (h : GoesOn s t) (hc : t.cur = s.cur) (ht : t.troupes = s.troupes) : t.curPkg = s.curPkg := by
  have h1 : t.curTid = s.curTid := by
    unfold State.curTid State.curWave
    rw [hc, h.rest]
    rfl
  unfold State.curPkg State.curTroupe State.troupe
  rw [h1, ht]

/-! ### The tiles that a path names -/

section
variable {s : State} {m : Mods} {a : Reg} {r : Nat → TileRef} {i : Instr}

/-- The tiles that the active lanes name, where none of them stops. -/
theorem flipOwner_of_named {give : Bool}
    (h : ∀ l, On s m l → s.ownTile (s.src s.cur.wid l a) = some (r l) ∧ ownerBit s s.curPkg (r l).core (r l).tile = !give) :
    flipOwner i s m a give = if ((s.activeLanes m).map r).dedup.any (fun r => if give then s.tileInFlight s.curPkg r else s.tileNamed s.curPkg r)
      then waitAt s i else finish (((s.activeLanes m).map r).dedup.foldl (fun s' r => s'.setOwner s.curPkg r give) s) [] := by
  have hnamed : (s.activeLanes m).map (fun l => (l, s.ownTile (s.src s.cur.wid l a))) = (s.activeLanes m).map (fun l => (l, some (r l))) :=
    List.map_congr_left fun l hl => by rw [(h l (mem_activeLanes.1 hl)).1]
  have howner : ∀ l ∈ s.activeLanes m, ¬ (s.engOwned s.curPkg (r l) == give) = true := by
    intro l hl
    have : s.engOwned s.curPkg (r l) = !give := (h l (mem_activeLanes.1 hl)).2
    rw [this]
    cases give <;> decide
  unfold flipOwner
  dsimp only
  rw [hnamed, List.filterMap_map, List.filterMap_map]
  have hstops : (s.activeLanes m).filterMap ((fun e : Nat × Option TileRef => match e.2 with
      | none => some (s.stopRec e.1 .prot 0 ((s.src s.cur.wid e.1 a).setWidth 64))
      | some r => if s.engOwned s.curPkg r == give then some (s.stopRec e.1 .own 0 ((s.src s.cur.wid e.1 a).setWidth 64)) else none) ∘
        fun l => (l, some (r l))) = [] := by
    rw [List.filterMap_eq_nil_iff]
    intro l hl
    exact if_neg (howner l hl)
  have hgood : (s.activeLanes m).filterMap ((fun e : Nat × Option TileRef => match e.2 with
      | some r => if s.engOwned s.curPkg r == give then none else some r
      | none => none) ∘ fun l => (l, some (r l))) = (s.activeLanes m).map r := by
    rw [← List.filterMap_eq_map, List.filterMap_congr]
    intro l hl
    exact if_neg (howner l hl)
  exact congrArg₂ (fun (x : List TileRef) (y : List StopRec) =>
    if x.dedup.any (fun r => if give then s.tileInFlight s.curPkg r else s.tileNamed s.curPkg r) then waitAt s i
      else finish (x.dedup.foldl (fun s' r => s'.setOwner s.curPkg r give) s) y) hgood hstops
theorem any_dedup_tiles {busy : TileRef → Bool} : ((s.activeLanes m).map r).dedup.any busy = true ↔ ∃ l, On s m l ∧ busy (r l) = true := by
  rw [List.any_eq_true]
  simp only [List.mem_dedup, List.mem_map]
  constructor
  · rintro ⟨_, ⟨l, hl, rfl⟩, hb⟩
    exact ⟨l, mem_activeLanes.1 hl, hb⟩
  · rintro ⟨l, hl, hb⟩
    exact ⟨_, ⟨l, mem_activeLanes.2 hl, rfl⟩, hb⟩

/-- Where every active lane stops, each with a cause of its own, the wave stops. -/
theorem flipOwner_of_stops {give : Bool} {c : Cause}
    (hgood : ∀ l, On s m l → ∀ r, s.ownTile (s.src s.cur.wid l a) = some r → (s.engOwned s.curPkg r == give) = true)
    (hstop : ∀ l, On s m l → (match s.ownTile (s.src s.cur.wid l a) with
      | none => some (s.stopRec l .prot 0 ((s.src s.cur.wid l a).setWidth 64))
      | some r => if s.engOwned s.curPkg r == give then some (s.stopRec l .own 0 ((s.src s.cur.wid l a).setWidth 64)) else none) =
        some (s.stopRec l c 0 ((s.src s.cur.wid l a).setWidth 64))) :
    flipOwner i s m a give = finish s ((s.activeLanes m).map (fun l => s.stopRec l c 0 ((s.src s.cur.wid l a).setWidth 64))) := by
  unfold flipOwner
  dsimp only
  rw [List.filterMap_map, List.filterMap_map]
  have hnone : (s.activeLanes m).filterMap ((fun e : Nat × Option TileRef => match e.2 with
      | some r => if s.engOwned s.curPkg r == give then none else some r
      | none => none) ∘ fun l => (l, s.ownTile (s.src s.cur.wid l a))) = [] := by
    rw [List.filterMap_eq_nil_iff]
    intro l hl
    have := hgood l (mem_activeLanes.1 hl)
    rw [Function.comp_apply]
    cases ht : s.ownTile (s.src s.cur.wid l a) with
    | none => rfl
    | some r => exact if_pos (this r ht)
  have hstops : (s.activeLanes m).filterMap ((fun e : Nat × Option TileRef => match e.2 with
      | none => some (s.stopRec e.1 .prot 0 ((s.src s.cur.wid e.1 a).setWidth 64))
      | some r => if s.engOwned s.curPkg r == give then some (s.stopRec e.1 .own 0 ((s.src s.cur.wid e.1 a).setWidth 64)) else none) ∘
        fun l => (l, s.ownTile (s.src s.cur.wid l a))) =
      (s.activeLanes m).map (fun l => s.stopRec l c 0 ((s.src s.cur.wid l a).setWidth 64)) := by
    rw [← List.filterMap_eq_map, List.filterMap_congr]
    exact fun l hl => hstop l (mem_activeLanes.1 hl)
  exact congrArg₂ (fun (x : List TileRef) (y : List StopRec) =>
    if x.dedup.any (fun r => if give then s.tileInFlight s.curPkg r else s.tileNamed s.curPkg r) then waitAt s i
      else finish (x.dedup.foldl (fun s' r => s'.setOwner s.curPkg r give) s) y) hnone hstops
end

/-- The two directions in which tiles change hands. -/
theorem flips_tiles {s : State} {m : Mods} {a : Reg} {r : Nat → TileRef} {i : Instr} {give : Bool} (hi : exec i s = .next (flipOwner i s m a give))
    (h : ∀ l, On s m l → s.ownTile (s.src s.cur.wid l a) = some (r l) ∧ ownerBit s s.curPkg (r l).core (r l).tile = !give) :
    ((∃ l, On s m l ∧ (if give then s.tileInFlight s.curPkg (r l) else s.tileNamed s.curPkg (r l)) = true) → After i s (Waits i s)) ∧
    ((∀ l, On s m l → (if give then s.tileInFlight s.curPkg (r l) else s.tileNamed s.curPkg (r l)) = false) →
      After i s (fun t => t = { s with waves := t.waves, pkgs := t.pkgs } ∧ GoesOn s t ∧
        ∀ c p, ((∃ l, On s m l ∧ (r l).core = c ∧ (r l).tile = p) → ownerBit t t.curPkg c p = give) ∧
          ((∀ l, On s m l → (r l).core = c → (r l).tile ≠ p) → ownerBit t t.curPkg c p = ownerBit s s.curPkg c p))) := by
  rw [flipOwner_of_named h] at hi
  refine ⟨fun hb => ?_, fun hb => ?_⟩
  · rw [if_pos (any_dedup_tiles.2 hb)] at hi
    exact ⟨_, hi, waitAt_waits s i⟩
  · rw [if_neg (by rw [any_dedup_tiles]; rintro ⟨l, hl, h1⟩; rw [hb l hl] at h1; exact absurd h1 (by decide))] at hi
    obtain ⟨hf, hg⟩ := finish_pkgs (setOwners_frame ((s.activeLanes m).map r).dedup s s.curPkg give)
    refine ⟨_, hi, hf, hg, fun c p => ?_⟩
    rw [hg.curPkg (by rw [hf]) (by rw [hf])]
    obtain ⟨h1, h2⟩ := ownerBit_setOwners ((s.activeLanes m).map r).dedup s s.curPkg give c p
    rw [finish_nil]
    refine ⟨fun ⟨l, hl, hcp⟩ => h1 ⟨r l, ?_, hcp⟩, fun hno => h2 fun x hx hc hp => ?_⟩
    · exact List.mem_dedup.2 (List.mem_map.2 ⟨l, mem_activeLanes.2 hl, rfl⟩)
    · obtain ⟨l, hl, rfl⟩ := List.mem_map.1 (List.mem_dedup.1 hx)
      exact hno l (mem_activeLanes.1 hl) hc hp
/-- Lanes that name no tile of their troupe, or one whose owner it already is, stop. -/
theorem flips_stop {s : State} {m : Mods} {a : Reg} {r : Nat → TileRef} {i : Instr} {give : Bool} (hi : exec i s = .next (flipOwner i s m a give))
    (hal : Alone s) (ha : ∃ l, On s m l) :
    ((∀ l, On s m l → s.ownTile (s.src s.cur.wid l a) = none) → ∃ (t : State) (who : Nat → Bool), exec i s = .next t ∧ (∀ l, who l = true ↔ On s m l) ∧
      StopsAs s t who (fun _ => causeWord 0x02 0 0) (fun l => (s.src s.cur.wid l a).setWidth 64) (fun _ => s.cur.gpc) (fun _ => s.cur.gpc) (standsAt s)) ∧
    ((∀ l, On s m l → s.ownTile (s.src s.cur.wid l a) = some (r l) ∧ ownerBit s s.curPkg (r l).core (r l).tile = give) →
      ∃ (t : State) (who : Nat → Bool), exec i s = .next t ∧ (∀ l, who l = true ↔ On s m l) ∧
      StopsAs s t who (fun _ => causeWord 0x05 0 0) (fun l => (s.src s.cur.wid l a).setWidth 64) (fun _ => s.cur.gpc) (fun _ => s.cur.gpc) (standsAt s)) := by
  have key : ∀ c : Cause, c = .prot ∨ c = .own →
      flipOwner i s m a give = finish s ((s.activeLanes m).map (fun l => s.stopRec l c 0 ((s.src s.cur.wid l a).setWidth 64))) →
      ∃ (t : State) (who : Nat → Bool), exec i s = .next t ∧ (∀ l, who l = true ↔ On s m l) ∧
      StopsAs s t who (fun _ => causeWord c.code.toNat 0 0) (fun l => (s.src s.cur.wid l a).setWidth 64) (fun _ => s.cur.gpc) (fun _ => s.cur.gpc) (standsAt s) := by
    intro c hc he
    obtain ⟨who, hw, hst⟩ := finish_stopsEach (c := fun _ => c) (sub := fun _ => 0) (va := fun l => (s.src s.cur.wid l a).setWidth 64) hal ha
      (fun l _ => by rcases hc with rfl | rfl <;> exact ⟨rfl, by decide⟩)
    exact ⟨_, who, hi.trans (congrArg Host.Outcome.next he), hw, hst⟩
  refine ⟨fun h => key .prot (.inl rfl) (flipOwner_of_stops ?_ ?_), fun h => key .own (.inr rfl) (flipOwner_of_stops ?_ ?_)⟩
  · intro l hl r hr
    rw [h l hl] at hr
    exact absurd hr (by simp)
  · intro l hl
    rw [h l hl]
  · intro l hl x hx
    obtain ⟨h1, h2⟩ := h l hl
    rw [h1] at hx
    rw [← Option.some.inj hx, show s.engOwned s.curPkg (r l) = give from h2, beq_self_eq_true]
  · intro l hl
    obtain ⟨h1, h2⟩ := h l hl
    rw [h1]
    exact if_pos (by rw [show s.engOwned s.curPkg (r l) = give from h2, beq_self_eq_true])

theorem ownTest_computes {s : State} {m : Mods} {d a : Reg} {r : Nat → TileRef} (h : ∀ l, On s m l → s.ownTile (s.src s.cur.wid l a) = some (r l)) :
    Computes (.ownTest m d a) s m none (regs1 d)
      (fun l => to32 d (BitVec.ofNat 32 ((ownerBit s s.curPkg (r l).core (r l).tile).toNat + 2 * (s.tileNamed s.curPkg (r l)).toNat))) := by
  have hstops : (s.activeLanes m).filterMap (fun l => match s.ownTile (s.src s.cur.wid l a) with
      | none => some (s.stopRec l .prot 0 ((s.src s.cur.wid l a).setWidth 64))
      | some _ => none) = [] := by
    rw [List.filterMap_eq_nil_iff]
    intro l hl
    rw [h l (mem_activeLanes.1 hl)]
  have hexec : exec (.ownTest m d a) s = execOwnTest m d a s := rfl
  have hb := ((waveBecomes_refl { s with nextId := s.nextId + 1 }).updPath (fun l x =>
      if m.active x then match s.ownTile (s.src s.cur.wid l a) with
        | some r => x.send none s.nextId (outs32 d (BitVec.ofNat 32 ((s.engOwned s.curPkg r).toNat + 2 * (s.tileNamed s.curPkg r).toNat)))
        | none => x
      else if m.zero then x.send none s.nextId (zeroOuts (dstRegs d 1)) else x)).finish rfl
  refine ⟨_, hexec.trans (congrArg (fun x => Host.Outcome.next (finish _ x)) hstops), ?_, ?_⟩
  · rw [finish_nil]
    rfl
  · refine ⟨hb.waves, hb.rest, fun l => (hb.lanes l).trans ?_⟩
    refine Eq.trans (show _ = if s.cur.lanes.getLsbD l then goOn s l (if m.active (s.lane s.cur.wid l) then match s.ownTile (s.src s.cur.wid l a) with
        | some r => (s.lane s.cur.wid l).send none s.nextId (outs32 d (BitVec.ofNat 32 ((s.engOwned s.curPkg r).toNat + 2 * (s.tileNamed s.curPkg r).toNat)))
        | none => s.lane s.cur.wid l
      else if m.zero then (s.lane s.cur.wid l).send none s.nextId (zeroOuts (dstRegs d 1)) else s.lane s.cur.wid l) else s.lane s.cur.wid l from rfl) ?_
    by_cases hl : s.cur.lanes.getLsbD l = true
    · rw [if_pos hl, if_pos hl, ← send_eq_sends, dstRegs_one]
      by_cases hm : m.active (s.lane s.cur.wid l) = true
      · rw [if_pos hm, if_pos hm, h l ⟨hl, hm⟩, ← outs32_eq]
        rfl
      · rw [if_neg hm, if_neg hm]
    · rw [if_neg hl, if_neg hl]

/-- Settles O26, from the laws of the owner bits and of stops with causes of their own. -/
theorem ownerBits : Obligations.OwnerBits := by
  unfold Obligations.OwnerBits
  intro s m d a r
  exact ⟨fun h => flips_tiles (give := true) rfl h, fun h => flips_tiles (give := false) rfl h,
    fun hal ha => flips_stop (give := true) rfl hal ha, fun hal ha => flips_stop (give := false) rfl hal ha, fun h => ownTest_computes h⟩

end Sys2Proof
end

-- ==== Sys2Proof/Proofs/MemoryWords.lean ====

-- ==== Sys2Proof/Proofs/MemoryWords.lean ====
section
/-! SUPPORT. Words of memory: what a word reads after a word has been written, and that a write of a word changes memory alone. -/

namespace Sys2Proof

open Machine

/-! ### Changes of memory alone -/

/-- The states differ at most in the bytes of memory, in what a read of each observes, and in which of them are poisoned. -/
structure MemoryOnly (s t : State) : Prop where
  frame : t = { s with mem := t.mem, relAt := t.relAt, pkgs := t.pkgs }
  pkg : ∀ k, t.pkg k = { s.pkg k with phys := (t.pkg k).phys }

theorem MemoryOnly.refl (s : State) : MemoryOnly s s := ⟨rfl, fun _ => rfl⟩
theorem MemoryOnly.trans {s t u : State} (h : MemoryOnly s t) (h' : MemoryOnly t u) : MemoryOnly s u := by
  refine ⟨h'.frame.trans ?_, fun k => (h'.pkg k).trans ?_⟩
  · exact (congrArg (fun x : State => { x with mem := u.mem, relAt := u.relAt, pkgs := u.pkgs }) h.frame).trans rfl
  · exact (congrArg (fun x : Pkg => { x with phys := (u.pkg k).phys }) (h.pkg k)).trans rfl
section
variable {s t : State} (h : MemoryOnly s t)
include h
theorem MemoryOnly.writes : t.writes = s.writes := by rw [h.frame]
theorem MemoryOnly.waves : t.waves = s.waves := by rw [h.frame]
theorem MemoryOnly.troupes : t.troupes = s.troupes := by rw [h.frame]
theorem MemoryOnly.cur : t.cur = s.cur := by rw [h.frame]
theorem MemoryOnly.nextId : t.nextId = s.nextId := by rw [h.frame]
theorem MemoryOnly.core (k c : Nat) : t.core k c = s.core k c := by
  unfold State.core
  rw [h.pkg]
  rfl
theorem MemoryOnly.noneAbout {a n : Nat} (hn : NoneAbout s a n) : NoneAbout t a n := by
  unfold NoneAbout
  rw [h.writes]
  exact hn
end
theorem NoneAbout.mono {s : State} {a n b k : Nat} (h : NoneAbout s a n) (h1 : a ≤ b) (h2 : b + k ≤ a + n) (h3 : 0 < k) : NoneAbout s b k := by
  intro x hx hl
  rcases h x hx hl with h' | h'
  · exact .inl (by omega)
  · exact .inr (by omega)
theorem store_memoryOnly (s : State) (a : Nat) (bs : List Byte) : MemoryOnly s (s.store a bs) := by
  refine ⟨rfl, fun k => ?_⟩
  unfold State.store
  rw [State.pkg_modPkg]
  split
  · next h => subst h; rfl
  · rfl
theorem setWord_of_none {s : State} {a : Nat} (v : W32) (h : NoneAbout s a 4) : s.setWord a v = s.store a (leBytes 4 v.toNat) :=
  storeAt_of_none (by rwa [leBytes_length])
theorem setWord_memoryOnly {s : State} {a : Nat} (v : W32) (h : NoneAbout s a 4) : MemoryOnly s (s.setWord a v) := by
  rw [setWord_of_none v h]
  exact store_memoryOnly ..

/-! ### Words -/

theorem memGet_setWord_ne {s : State} {a b : Nat} (v : W32) (h : NoneAbout s a 4) (hb : b < a ∨ a + 4 ≤ b) :
    memGet (s.setWord a v).mem b = memGet s.mem b := by
  rw [setWord_of_none v h, store_mem]
  exact memGet_memPuts_ne _ _ _ _ (by rwa [leBytes_length])
theorem word_congr {s t : State} {a : Nat} (h : ∀ b, a ≤ b → b < a + 4 → memGet t.mem b = memGet s.mem b) : t.word a = s.word a := by
  unfold State.word State.load
  rw [memGets_congr h]
theorem word_setWord {s : State} {a : Nat} (v : W32) (h : NoneAbout s a 4) : (s.setWord a v).word a = v := by
  unfold State.word State.load
  rw [setWord_of_none v h, store_mem]
  have := memGets_memPuts s.mem a (leBytes 4 v.toNat)
  rw [leBytes_length] at this
  have hv := v.isLt
  rw [this, leNat_leBytes, Nat.mod_eq_of_lt (by omega), BitVec.ofNat_toNat, BitVec.setWidth_eq]
theorem word_setWord_ne {s : State} {a b : Nat} (v : W32) (h : NoneAbout s a 4) (hb : b + 4 ≤ a ∨ a + 4 ≤ b) : (s.setWord a v).word b = s.word b :=
  word_congr fun c h1 h2 => memGet_setWord_ne v h (by omega)

end Sys2Proof
end

-- ==== Sys2Proof/Proofs/Rings.lean ====

-- ==== Sys2Proof/Proofs/Rings.lean ====
section
/-! SUPPORT. The headers of rings as they are read and written back, and the instructions on rings (R197, R198). -/

namespace Sys2Proof

open Machine

/-! ### Headers -/

/-- What the fields of a header that is read can be. -/
theorem ring_bounds {s : State} {key : Nat} {h : RingHdr} (hr : s.ring key = some h) :
    h.kind < 3 ∧ h.wr < 256 ∧ h.rd < 256 ∧ h.free < 256 ∧ h.filled < 256 ∧ h.cidx < 16 ∧ h.held < 256 ∧ 0 < h.nslot ∧ h.nslot ≤ 32 := by
  have h8 : ∀ x i, nbits x (i + 7) i < 256 := fun x i => by
    unfold nbits
    rw [show i + 7 + 1 - i = 8 by omega]
    exact Nat.mod_lt _ (by norm_num)
  unfold State.ring at hr
  dsimp only at hr
  split at hr
  · exact absurd hr (by simp)
  · next hc =>
    simp only [not_or] at hc
    obtain ⟨-, h3, -, hn0, hn, -, -⟩ := hc
    obtain rfl := Option.some.inj hr
    refine ⟨?_, h8 _ 24, h8 _ 16, h8 _ 8, h8 _ 0, Nat.mod_lt _ (by norm_num), h8 _ 0, Nat.pos_of_ne_zero hn0, Nat.le_of_not_lt hn⟩
    have : nbits (s.word key).toNat 17 16 < 4 := Nat.mod_lt _ (by norm_num)
    exact Nat.lt_of_le_of_ne (Nat.le_of_lt_succ this) h3
/-- A header depends on its four words alone. -/
theorem ring_congr {s t : State} {key : Nat} (h0 : t.word key = s.word key) (h1 : t.word (key + 4) = s.word (key + 4))
    (h2 : t.word (key + 8) = s.word (key + 8)) (h3 : t.word (key + 12) = s.word (key + 12)) : t.ring key = s.ring key := by
  unfold State.ring
  rw [h0, h1, h2, h3]
/-- The words that hold a header's counters. -/
def counterWord (h : RingHdr) : W32 := BitVec.ofNat 32 (h.wr % 256 * 2 ^ 24 + h.rd % 256 * 2 ^ 16 + h.free % 256 * 2 ^ 8 + h.filled % 256)
def heldWord (h : RingHdr) : W32 := BitVec.ofNat 32 (h.cidx % 16 * 2 ^ 8 + h.held % 256)
theorem counterWord_fields (h : RingHdr) : nbits (counterWord h).toNat 31 24 = h.wr % 256 ∧ nbits (counterWord h).toNat 23 16 = h.rd % 256 ∧
    nbits (counterWord h).toNat 15 8 = h.free % 256 ∧ nbits (counterWord h).toNat 7 0 = h.filled % 256 := by
  unfold counterWord nbits
  rw [BitVec.toNat_ofNat, Nat.mod_eq_of_lt (by omega)]
  simp only [Nat.shiftRight_eq_div_pow]
  refine ⟨?_, ?_, ?_, ?_⟩ <;> omega
theorem heldWord_fields (h : RingHdr) : nbits (heldWord h).toNat 31 12 = 0 ∧ nbits (heldWord h).toNat 11 8 = h.cidx % 16 ∧
    nbits (heldWord h).toNat 7 0 = h.held % 256 := by
  unfold heldWord nbits
  rw [BitVec.toNat_ofNat, Nat.mod_eq_of_lt (by omega)]
  simp only [Nat.shiftRight_eq_div_pow]
  refine ⟨?_, ?_, ?_⟩ <;> omega
/-- A header whose counters have been replaced. -/
theorem ring_of_words {s t : State} {key : Nat} {h g : RingHdr} (hr : s.ring key = some h) (h0 : t.word key = s.word key)
    (h1 : t.word (key + 4) = counterWord g) (h2 : t.word (key + 8) = s.word (key + 8)) (h3 : t.word (key + 12) = heldWord g) :
    t.ring key = some { h with wr := g.wr % 256, rd := g.rd % 256, free := g.free % 256, filled := g.filled % 256, cidx := g.cidx % 16,
                               held := g.held % 256 } := by
  obtain ⟨c1, c2, c3, c4⟩ := counterWord_fields g
  obtain ⟨e1, e2, e3⟩ := heldWord_fields g
  unfold State.ring at hr ⊢
  dsimp only at hr ⊢
  rw [h0, h1, h2, h3, c1, c2, c3, c4, e1, e2, e3]
  split at hr
  · exact absurd hr (by simp)
  · next hc =>
    obtain rfl := Option.some.inj hr
    simp only [not_or] at hc
    obtain ⟨a1, a2, a3, a4, a5, -, a7⟩ := hc
    rw [if_neg (by simp only [not_or]; exact ⟨a1, a2, a3, a4, a5, fun h => h rfl, a7⟩)]

section
variable {s : State} {key : Nat} (hn : NoneAbout s key 16) (h : RingHdr)
include hn
theorem setRing_eq : NoneAbout s (key + 4) 4 ∧ NoneAbout (s.setWord (key + 4) (counterWord h)) (key + 12) 4 ∧
    s.setRing key h = (s.setWord (key + 4) (counterWord h)).setWord (key + 12) (heldWord h) := by
  have h4 : NoneAbout s (key + 4) 4 := hn.mono (by omega) (by omega) (by omega)
  exact ⟨h4, (setWord_memoryOnly _ h4).noneAbout (hn.mono (by omega) (by omega) (by omega)), rfl⟩
theorem setRing_memoryOnly : MemoryOnly s (s.setRing key h) := by
  obtain ⟨h4, h12, he⟩ := setRing_eq hn h
  rw [he]
  exact (setWord_memoryOnly _ h4).trans (setWord_memoryOnly _ h12)
theorem memGet_setRing {b : Nat} (hb : b < key ∨ key + 16 ≤ b) : memGet (s.setRing key h).mem b = memGet s.mem b := by
  obtain ⟨h4, h12, he⟩ := setRing_eq hn h
  rw [he, memGet_setWord_ne _ h12 (by omega), memGet_setWord_ne _ h4 (by omega)]
theorem word_setRing {b : Nat} (hb : b + 4 ≤ key + 4 ∨ b = key + 8 ∨ key + 16 ≤ b) : (s.setRing key h).word b = s.word b := by
  obtain ⟨h4, h12, he⟩ := setRing_eq hn h
  rw [he, word_setWord_ne _ h12 (by omega), word_setWord_ne _ h4 (by omega)]
/-- The counters that have been written back are read. -/
theorem ring_setRing {g : RingHdr} (hr : s.ring key = some g) : (s.setRing key h).ring key = some { g with
    wr := h.wr % 256, rd := h.rd % 256, free := h.free % 256, filled := h.filled % 256, cidx := h.cidx % 16, held := h.held % 256 } := by
  obtain ⟨h4, h12, he⟩ := setRing_eq hn h
  refine ring_of_words hr (word_setRing hn h (by omega)) ?_ (word_setRing hn h (by omega)) ?_
  · rw [he, word_setWord_ne _ h12 (by omega), word_setWord _ h4]
  · rw [he, word_setWord _ h12]
theorem ring_setRing_other {key' : Nat} (hd : key' + 16 ≤ key ∨ key + 16 ≤ key') : (s.setRing key h).ring key' = s.ring key' :=
  ring_congr (word_setRing hn h (by omega)) (word_setRing hn h (by omega)) (word_setRing hn h (by omega)) (word_setRing hn h (by omega))
end

/-! ### The tiles of a slot change hands -/

/-- The states differ at most in what the packages hold. -/
def PkgsOnly (s t : State) : Prop := t = { s with pkgs := t.pkgs }
theorem recheckRing_pkgs (s : State) (k key : Nat) : PkgsOnly s (s.recheckRing k key) := rfl
theorem setOwners_pkgs (s : State) (k : Nat) (ts : List TileRef) (b : Bool) : PkgsOnly s (s.setOwners k ts b) := setOwners_frame ts s k b
theorem PkgsOnly.trans {s t u : State} (h : PkgsOnly s t) (h' : PkgsOnly t u) : PkgsOnly s u :=
  Eq.trans h' ((congrArg (fun x : State => { x with pkgs := u.pkgs }) h).trans rfl)
theorem PkgsOnly.mem {s t : State} (h : PkgsOnly s t) : t.mem = s.mem := by rw [h]
theorem ring_of_mem {s t : State} (h : t.mem = s.mem) (key : Nat) : t.ring key = s.ring key := by
  have hw : ∀ b, t.word b = s.word b := fun b => word_congr fun c _ _ => by rw [h]
  exact ring_congr (hw _) (hw _) (hw _) (hw _)
theorem word_of_mem {s t : State} (h : t.mem = s.mem) (b : Nat) : t.word b = s.word b := word_congr fun c _ _ => by rw [h]
theorem core_recheckRing (s : State) (k key j c : Nat) : (s.recheckRing k key).core j c = s.core j c := by
  unfold State.core State.recheckRing
  rw [State.pkg_modPkg]
  split
  · next h => subst h; rfl
  · rfl
theorem ownerBit_of_core {s t : State} {k c : Nat} (h : t.core k c = s.core k c) (p : Nat) : ownerBit t k c p = ownerBit s k c p := by
  unfold ownerBit
  rw [h]
/-- The tiles of a slot are the engines', or the program's. -/
theorem ownerBit_slot (s : State) (k : Nat) (ts : List TileRef) (b : Bool) : ∀ p ∈ ts, ownerBit (s.setOwners k ts b) k p.core p.tile = b :=
  fun p hp => (ownerBit_setOwners ts s k b p.core p.tile).1 ⟨p, hp, rfl, rfl⟩
theorem core_advance (s : State) (k c : Nat) : (finish s []).core k c = s.core k c := by
  rw [finish_nil]
  rfl
theorem mem_finish (s : State) : (finish s []).mem = s.mem := by
  rw [finish_nil]
  rfl
/-- The path goes on, whatever changed beside its wave. -/
theorem finish_goesOn_of {s t : State} (hw : t.waves = s.waves) (hc : t.cur = s.cur) : GoesOn s (finish t []) :=
  ((waveBecomes_refl s).of_waves hw).finish hc
/-- The package of the path stays the same. -/
theorem curPkg_of_lanes {s t : State} {f : Nat → Lane → Lane} (h : LanesBecome s t f) (hc : t.cur = s.cur) (ht : t.troupes = s.troupes) :
    t.curPkg = s.curPkg := by
  have h1 : t.curTid = s.curTid := by
    unfold State.curTid State.curWave
    rw [hc, h.rest]
  unfold State.curPkg State.curTroupe State.troupe
  rw [h1, ht]

/-! ### The instructions -/

/-- What an elected ring instruction does where its header is found. -/
theorem onRing_eq {i : Instr} {s : State} {m : Mods} {a : Reg} {e : Nat} {r : TileRef} {key : Nat} {h : RingHdr} (kinds : List Nat)
    (no : State → State) (go : TileRef → Nat → RingHdr → State) (he : Elected s m e) (hh : s.head (s.src s.cur.wid e a) = .at_ r key)
    (hs : s.ownStore e key 16 = false) (hr : s.ring key = some h) (hk : kinds.contains h.kind = true) :
    onRing i s m a kinds no go = go r key h := by
  unfold onRing
  rw [elected_eq he]
  dsimp only
  rw [hh]
  dsimp only
  rw [if_neg (by rw [hs]; decide), hr]
  exact if_pos hk

section
variable {s : State} {m : Mods} {d a : Reg} {e : Nat} {r : TileRef} {key : Nat} {h : RingHdr}
  (he : Elected s m e) (hh : s.head (s.src s.cur.wid e a) = .at_ r key) (hs : s.ownStore e key 16 = false) (hr : s.ring key = some h)
include he hh hs hr

theorem rngWait_waits (hk : h.kind ≠ 1) (hf : h.filled = 0) : After (.rngWait m d a) s (Waits (.rngWait m d a) s) := by
  refine ⟨_, ?_, waitAt_waits s _⟩
  refine Eq.trans (show _ = execRngWait m d a s from rfl) ?_
  unfold execRngWait
  have hb := (ring_bounds hr).1
  rw [onRing_eq _ _ _ he hh hs hr (by simp; omega)]
  dsimp only
  rw [if_pos hf]

theorem rngWait_eq (hk : h.kind ≠ 1) (hf : h.filled ≠ 0) (ht : (s.slotTiles s.curTid h h.rd).length = h.tps) :
    exec (.rngWait m d a) s = .next (finish (sendAll ((s.setRing key { h with filled := h.filled - 1, rd := (h.rd + 1) % h.nslot, held := h.held + 1 }).setOwners
      s.curPkg (s.slotTiles s.curTid h h.rd) false) m .owed d 1 (outs32 d (slotAddr s.curTroupe.crk h h.rd))) []) := by
  refine Eq.trans (show _ = execRngWait m d a s from rfl) ?_
  unfold execRngWait
  have hb := (ring_bounds hr).1
  rw [onRing_eq _ _ _ he hh hs hr (by simp; omega)]
  dsimp only
  rw [if_neg hf, if_neg (by unfold slotFull; rw [ht]; simp)]
theorem rngRel_eq (hk : h.kind = 0) (hf : h.held ≠ 0) (ht : (s.slotTiles s.curTid h h.oldest).length = h.tps) (hw : s.relWait .core = false)
    (hb : ∀ p ∈ s.slotTiles s.curTid h h.oldest, s.tileInFlight s.curPkg p = false) :
    exec (.rngRel m a) s = .next (finish (((s.setRing key { h with held := h.held - 1, free := h.free + 1 }).setOwners s.curPkg
      (s.slotTiles s.curTid h h.oldest) true).recheckRing s.curPkg key) []) := by
  refine Eq.trans (show _ = execRngRel m a s from rfl) ?_
  unfold execRngRel
  rw [onRing_eq _ _ _ he hh hs hr (by rw [hk]; rfl)]
  dsimp only
  rw [if_neg (by unfold slotFull; rw [ht]; simpa using hf), if_neg]
  rw [hw, Bool.false_or, List.any_eq_true]
  rintro ⟨p, hp, h1⟩
  rw [hb p hp] at h1
  exact absurd h1 (by decide)
end

/-- After memory has changed the slot's tiles become the program's and its address is sent. -/
theorem claim_slot {s u : State} (hu : MemoryOnly s u) (m : Mods) (d : Reg) (ts : List TileRef) (v : W32) :
    let t := finish (sendAll (u.setOwners s.curPkg ts false) m .owed d 1 (outs32 d v)) []
    t.mem = u.mem ∧ (∀ p ∈ ts, ownerBit t t.curPkg p.core p.tile = false) ∧
      LanesBecome s t (fun l x => goOn s l (sends s m none (regs1 d) (fun _ => to32 d v) (fun _ => 0) l x)) := by
  have hown := setOwners_pkgs u s.curPkg ts false
  have hslot := ownerBit_slot u s.curPkg ts false
  generalize u.setOwners s.curPkg ts false = x at hown hslot
  have hw : x.waves = s.waves := by rw [hown]; exact hu.waves
  have hc : x.cur = s.cur := by rw [hown]; exact hu.cur
  have hn : x.nextId = s.nextId := by rw [hown]; exact hu.nextId
  have ht : x.troupes = s.troupes := by rw [hown]; exact hu.troupes
  have hb := (((waveBecomes_refl s).of_waves hw).sendAll hc hn m (lat := .owed) rfl d 1 (outs32 d v)).finish (by exact hc)
  rw [dstRegs_one, outs32_eq] at hb
  rw [outs32_eq]
  have hlb : LanesBecome s (finish (sendAll x m .owed d 1 (to32 d v)) [])
      (fun l y => goOn s l (sends s m none (regs1 d) (fun _ => to32 d v) (fun _ => 0) l y)) := ⟨hb.waves, hb.rest, hb.lanes⟩
  refine ⟨(mem_finish _).trans hown.mem, fun p hp => ?_, hlb⟩
  rw [curPkg_of_lanes hlb (by rw [finish_nil]; exact hc) (by rw [finish_nil]; exact ht)]
  exact (ownerBit_of_core (core_advance ..) _).trans (hslot p hp)
/-- After memory has changed the slot's tiles go back to the engines. -/
theorem give_slot {s u : State} (hu : MemoryOnly s u) (ts : List TileRef) (key : Nat) :
    let t := finish ((u.setOwners s.curPkg ts true).recheckRing s.curPkg key) []
    t.mem = u.mem ∧ (∀ p ∈ ts, ownerBit t t.curPkg p.core p.tile = true) ∧ GoesOn s t := by
  have hown := setOwners_pkgs u s.curPkg ts true
  have hslot := ownerBit_slot u s.curPkg ts true
  generalize u.setOwners s.curPkg ts true = x at hown hslot
  have hx : PkgsOnly u (x.recheckRing s.curPkg key) := hown.trans (recheckRing_pkgs ..)
  have hw : (x.recheckRing s.curPkg key).waves = s.waves := by rw [hx]; exact hu.waves
  have hc : (x.recheckRing s.curPkg key).cur = s.cur := by rw [hx]; exact hu.cur
  have ht : (x.recheckRing s.curPkg key).troupes = s.troupes := by rw [hx]; exact hu.troupes
  have hg := finish_goesOn_of hw hc
  refine ⟨(mem_finish _).trans hx.mem, fun p hp => ?_, hg⟩
  rw [hg.curPkg (by rw [finish_nil]; exact hc) (by rw [finish_nil]; exact ht)]
  exact (ownerBit_of_core ((core_advance ..).trans (core_recheckRing ..)) _).trans (hslot p hp)

section
variable {s : State} {m : Mods} {d a : Reg} {e : Nat} {r : TileRef} {key : Nat} {h : RingHdr}
  (he : Elected s m e) (hh : s.head (s.src s.cur.wid e a) = .at_ r key) (hs : s.ownStore e key 16 = false) (hn : NoneAbout s key 16)
  (hr : s.ring key = some h)
include he hh hs hn hr

theorem rngWait_claims (hk : h.kind ≠ 1) (hf : h.filled ≠ 0) (ht : (s.slotTiles s.curTid h h.rd).length = h.tps) :
    After (.rngWait m d a) s (fun t => (∀ b, (b < key ∨ key + 16 ≤ b) → memGet t.mem b = memGet s.mem b) ∧
      t.ring key = some { h with filled := h.filled - 1, rd := (h.rd + 1) % h.nslot, held := (h.held + 1) % 256 } ∧
      (∀ p ∈ s.slotTiles s.curTid h h.rd, ownerBit t t.curPkg p.core p.tile = false) ∧
      LanesBecome s t (fun l x => goOn s l (sends s m none (regs1 d)
        (fun _ => to32 d (BitVec.ofNat 32 (s.curTroupe.crk * 2 ^ 20 + (h.base + h.rd * h.tps) * 2 ^ 12))) (fun _ => 0) l x))) := by
  obtain ⟨-, b1, b2, b3, b4, b5, b6, b7, b8⟩ := ring_bounds hr
  obtain ⟨hm, ho, hl⟩ := claim_slot (setRing_memoryOnly hn { h with filled := h.filled - 1, rd := (h.rd + 1) % h.nslot, held := h.held + 1 }) m d
    (s.slotTiles s.curTid h h.rd) (slotAddr s.curTroupe.crk h h.rd)
  refine ⟨_, rngWait_eq he hh hs hr hk hf ht, fun b hb => ?_, ?_, ho, hl⟩
  · rw [hm]
    exact memGet_setRing hn _ hb
  · rw [ring_of_mem hm, ring_setRing hn _ hr]
    have hrd := Nat.mod_lt (h.rd + 1) b7
    dsimp only
    rw [Nat.mod_eq_of_lt b1, Nat.mod_eq_of_lt b3, Nat.mod_eq_of_lt b5, Nat.mod_eq_of_lt (show (h.rd + 1) % h.nslot < 256 by omega),
      Nat.mod_eq_of_lt (show h.filled - 1 < 256 by omega)]
theorem rngRel_gives (hk : h.kind = 0) (hf : h.held ≠ 0) (ht : (s.slotTiles s.curTid h h.oldest).length = h.tps) (hw : s.relWait .core = false)
    (hb : ∀ p ∈ s.slotTiles s.curTid h h.oldest, s.tileInFlight s.curPkg p = false) :
    After (.rngRel m a) s (fun t => (∀ b, (b < key ∨ key + 16 ≤ b) → memGet t.mem b = memGet s.mem b) ∧ GoesOn s t ∧
      t.ring key = some { h with held := h.held - 1, free := (h.free + 1) % 256 } ∧
      ∀ p ∈ s.slotTiles s.curTid h h.oldest, ownerBit t t.curPkg p.core p.tile = true) := by
  obtain ⟨-, b1, b2, b3, b4, b5, b6, b7, b8⟩ := ring_bounds hr
  obtain ⟨hm, ho, hg⟩ := give_slot (setRing_memoryOnly hn { h with held := h.held - 1, free := h.free + 1 }) (s.slotTiles s.curTid h h.oldest) key
  refine ⟨_, rngRel_eq he hh hs hr hk hf ht hw hb, fun b hb => ?_, hg, ?_, ho⟩
  · rw [hm]
    exact memGet_setRing hn _ hb
  · rw [ring_of_mem hm, ring_setRing hn _ hr]
    dsimp only
    rw [Nat.mod_eq_of_lt b1, Nat.mod_eq_of_lt b2, Nat.mod_eq_of_lt b4, Nat.mod_eq_of_lt b5, Nat.mod_eq_of_lt (show h.held - 1 < 256 by omega)]
end

/-! ### Merge rings (R198) -/

/-- The pending word of a slot with the bit of a mirror cleared. -/
def pendLeft (s : State) (hk slot cidx : Nat) : W32 := s.word (hk + 16 + 4 * slot) &&& ~~~ (1#32 <<< cidx)
/-- Memory in which the mirror's slot is given back, and the home's where it is free. -/
def mirrorFreed (s : State) (key hk : Nat) (h hh : RingHdr) : State :=
  let s1 := (s.setRing key { h with held := h.held - 1 }).setWord (hk + 16 + 4 * h.oldest) (pendLeft s hk h.oldest h.cidx)
  if (pendLeft s hk h.oldest h.cidx).setWidth 16 = 0#16 then s1.setRing hk { hh with free := hh.free + 1 } else s1

section
variable {s : State} {key hk : Nat} {h hh : RingHdr} (hn : NoneAbout s key 16) (hnk : NoneAbout s hk 144) (hd : key + 16 ≤ hk ∨ hk + 144 ≤ key)
  (ho : h.oldest < 32) (hr : s.ring key = some h) (hrk : s.ring hk = some hh)
include hn hnk ho

theorem mirror_about : NoneAbout (s.setRing key { h with held := h.held - 1 }) (hk + 16 + 4 * h.oldest) 4 ∧
    NoneAbout ((s.setRing key { h with held := h.held - 1 }).setWord (hk + 16 + 4 * h.oldest) (pendLeft s hk h.oldest h.cidx)) hk 16 := by
  have h1 := setRing_memoryOnly hn { h with held := h.held - 1 }
  have h2 := h1.noneAbout (hnk.mono (show hk ≤ hk + 16 + 4 * h.oldest by omega) (k := 4) (by omega) (by omega))
  exact ⟨h2, (h1.trans (setWord_memoryOnly _ h2)).noneAbout (hnk.mono (Nat.le_refl _) (by omega) (by omega))⟩
theorem mirrorFreed_memoryOnly : MemoryOnly s (mirrorFreed s key hk h hh) := by
  obtain ⟨h2, h3⟩ := mirror_about hn hnk ho
  have h1 := (setRing_memoryOnly hn { h with held := h.held - 1 }).trans (setWord_memoryOnly (pendLeft s hk h.oldest h.cidx) h2)
  unfold mirrorFreed
  dsimp only
  split
  · exact h1.trans (setRing_memoryOnly h3 _)
  · exact h1
/-- The words outside the header at home and its slot's pending word are those of the first write. -/
theorem word_mirrorFreed {b : Nat} (hb : b + 4 ≤ hk ∨ hk + 16 ≤ b) (hb' : b + 4 ≤ hk + 16 + 4 * h.oldest ∨ hk + 20 + 4 * h.oldest ≤ b) :
    (mirrorFreed s key hk h hh).word b = (s.setRing key { h with held := h.held - 1 }).word b := by
  obtain ⟨h2, h3⟩ := mirror_about hn hnk ho
  have h4 := word_setWord_ne (pendLeft s hk h.oldest h.cidx) h2 (b := b) (by omega)
  unfold mirrorFreed
  dsimp only
  split
  · rw [word_setRing h3 _ (by omega), h4]
  · exact h4
theorem pend_mirrorFreed : (mirrorFreed s key hk h hh).word (hk + 16 + 4 * h.oldest) = pendLeft s hk h.oldest h.cidx := by
  obtain ⟨h2, h3⟩ := mirror_about hn hnk ho
  unfold mirrorFreed
  dsimp only
  split
  · rw [word_setRing h3 _ (by omega), word_setWord _ h2]
  · exact word_setWord _ h2
include hd
include hr in
theorem ring_mirrorFreed : (mirrorFreed s key hk h hh).ring key = some { h with held := h.held - 1 } := by
  obtain ⟨-, b1, b2, b3, b4, b5, b6, b7, b8⟩ := ring_bounds hr
  have hw : ∀ b, key ≤ b → b + 4 ≤ key + 16 → (mirrorFreed s key hk h hh).word b = (s.setRing key { h with held := h.held - 1 }).word b :=
    fun b h1 h2 => word_mirrorFreed hn hnk ho (by omega) (by omega)
  rw [ring_congr (hw _ (by omega) (by omega)) (hw _ (by omega) (by omega)) (hw _ (by omega) (by omega)) (hw _ (by omega) (by omega)),
    ring_setRing hn _ hr]
  dsimp only
  rw [Nat.mod_eq_of_lt b1, Nat.mod_eq_of_lt b2, Nat.mod_eq_of_lt b3, Nat.mod_eq_of_lt b4, Nat.mod_eq_of_lt b5, Nat.mod_eq_of_lt (show h.held - 1 < 256 by omega)]
include hrk in
theorem homeRing_mirrorFreed : (mirrorFreed s key hk h hh).ring hk =
    some (if (pendLeft s hk h.oldest h.cidx).toNat % 2 ^ 16 = 0 then { hh with free := (hh.free + 1) % 256 } else hh) := by
  obtain ⟨-, b1, b2, b3, b4, b5, b6, b7, b8⟩ := ring_bounds hrk
  obtain ⟨h2, h3⟩ := mirror_about hn hnk ho
  have hbefore : ((s.setRing key { h with held := h.held - 1 }).setWord (hk + 16 + 4 * h.oldest) (pendLeft s hk h.oldest h.cidx)).ring hk = some hh := by
    have hw : ∀ b, b + 4 ≤ hk + 16 → hk ≤ b → ((s.setRing key { h with held := h.held - 1 }).setWord (hk + 16 + 4 * h.oldest)
        (pendLeft s hk h.oldest h.cidx)).word b = s.word b := fun b hb1 hb2 => by
      rw [word_setWord_ne _ h2 (by omega), word_setRing hn _ (by omega)]
    rw [ring_congr (hw _ (by omega) (by omega)) (hw _ (by omega) (by omega)) (hw _ (by omega) (by omega)) (hw _ (by omega) (by omega)), hrk]
  have hzero : (pendLeft s hk h.oldest h.cidx).setWidth 16 = 0#16 ↔ (pendLeft s hk h.oldest h.cidx).toNat % 2 ^ 16 = 0 := by
    rw [← BitVec.toNat_inj, BitVec.toNat_setWidth]
    rfl
  unfold mirrorFreed
  dsimp only
  by_cases hz : (pendLeft s hk h.oldest h.cidx).setWidth 16 = 0#16
  · rw [if_pos hz, if_pos (hzero.1 hz), ring_setRing h3 _ hbefore]
    dsimp only
    rw [Nat.mod_eq_of_lt b1, Nat.mod_eq_of_lt b2, Nat.mod_eq_of_lt b4, Nat.mod_eq_of_lt b5, Nat.mod_eq_of_lt b6]
  · rw [if_neg hz, if_neg (mt hzero.2 hz), hbefore]
end

theorem mrgFree_eq {s : State} {m : Mods} {a : Reg} {e : Nat} {r : TileRef} {key : Nat} {h : RingHdr}
    (he : Elected s m e) (hh : s.head (s.src s.cur.wid e a) = .at_ r key) (hs : s.ownStore e key 16 = false)
    (hr : s.ring key = some h) (hk : h.kind = 2) (hf : h.held ≠ 0) (ht : (s.slotTiles s.curTid h h.oldest).length = h.tps)
    (hw : s.relWait .clu = false) (hb : ∀ p ∈ s.slotTiles s.curTid h h.oldest, s.tileInFlight s.curPkg p = false) {hr' : TileRef} {pl : Place}
    {hm : RingHdr} (hp : s.checkS s.curTid h.home 16 = .ok pl) (hto : s.tileOf s.curTid h.home = some hr')
    (hrm : s.ring (hr'.key s.curPkg h.home) = some hm) (hkm : hm.kind = 1) :
    exec (.mrgFree m a) s = .next (finish (((mirrorFreed s key (hr'.key s.curPkg h.home) h hm).setOwners s.curPkg
      (s.slotTiles s.curTid h h.oldest) true).recheckRing s.curPkg (hr'.key s.curPkg h.home)) []) := by
  refine Eq.trans (show _ = execMrgFree m a s from rfl) ?_
  unfold execMrgFree
  rw [onRing_eq _ _ _ he hh hs hr (by rw [hk]; rfl)]
  dsimp only
  rw [if_neg (by unfold slotFull; rw [ht]; simpa using hf), hp, hto]
  dsimp only
  rw [hrm]
  dsimp only
  rw [if_neg (by rw [hkm]; decide), if_neg]
  · rfl
  · rw [hw, Bool.false_or, List.any_eq_true]
    rintro ⟨p, hp, h1⟩
    rw [hb p hp] at h1
    exact absurd h1 (by decide)

/-- Settles O27, from the laws of headers written back and of slots whose tiles change hands. -/
theorem rings : Obligations.Rings := by
  unfold Obligations.Rings
  intro s m d a e r key h he hh hs hn hr
  refine ⟨fun hk hf => rngWait_waits he hh hs hr hk hf, fun hk hf ht => rngWait_claims he hh hs hn hr hk hf ht,
    fun hk hf ht hw hb => rngRel_gives he hh hs hn hr hk hf ht hw hb, fun hk hf ht hw hb hr' pl hm hp hto hrm hkm hd hnk _ ho => ?_⟩
  obtain ⟨h1, h2, h3⟩ := give_slot (mirrorFreed_memoryOnly (hh := hm) hn hnk ho) (s.slotTiles s.curTid h h.oldest) (hr'.key s.curPkg h.home)
  refine ⟨_, mrgFree_eq he hh hs hr hk hf ht hw hb hp hto hrm hkm, h3, ?_, h2, ?_, ?_⟩
  · rw [ring_of_mem h1]
    exact ring_mirrorFreed hn hnk hd ho hr
  · rw [word_of_mem h1]
    exact pend_mirrorFreed hn hnk ho
  · rw [ring_of_mem h1]
    exact homeRing_mirrorFreed hn hnk hd ho hrm

end Sys2Proof
end

-- ==== Sys2Proof/Proofs/ByteBarriers.lean ====

-- ==== Sys2Proof/Proofs/ByteBarriers.lean ====
section
/-! SUPPORT. Byte barriers as they are read and written back, and the instructions on them (R199, R200). -/

namespace Sys2Proof

open Machine

/-! ### The four words of a barrier -/

theorem byteBar_congr {s t : State} {key : Nat} (h0 : t.word key = s.word key) (h1 : t.word (key + 4) = s.word (key + 4))
    (h2 : t.word (key + 8) = s.word (key + 8)) (h3 : t.word (key + 12) = s.word (key + 12)) : t.byteBar key = s.byteBar key := by
  unfold State.byteBar
  rw [h0, h1, h2, h3]
theorem byteBar_of_mem {s t : State} (h : t.mem = s.mem) (key : Nat) : t.byteBar key = s.byteBar key :=
  byteBar_congr (word_of_mem h _) (word_of_mem h _) (word_of_mem h _) (word_of_mem h _)
theorem word_of_byteBar {s : State} {key : Nat} {b : ByteBar} (h : s.byteBar key = some b) : s.word (key + 12) = 0 := by
  unfold State.byteBar at h
  dsimp only at h
  split at h
  · exact absurd h (by simp)
  · next hc => exact not_not.1 (not_or.1 hc).2
/-- The flags of a barrier as one word. -/
def flagWord (b : ByteBar) : W32 := BitVec.ofNat 32 (b.phase.toNat + 2 * b.posted.toNat + 4 * b.ovr.toNat + 8 * b.trapen.toNat)
theorem flagWord_bits (b : ByteBar) : nbits (flagWord b).toNat 31 4 = 0 ∧ (flagWord b).getLsbD 3 = b.trapen ∧ (flagWord b).getLsbD 2 = b.ovr ∧
    (flagWord b).getLsbD 1 = b.posted ∧ (flagWord b).getLsbD 0 = b.phase := by
  obtain ⟨-, -, t, o, p, f⟩ := b
  unfold flagWord
  dsimp only
  revert t o p f
  decide
/-- A barrier is read from words that hold its parts. -/
theorem byteBar_of_words {s : State} {key : Nat} (b : ByteBar) (h0 : s.word key = b.arr) (h1 : s.word (key + 4) = b.exp)
    (h2 : s.word (key + 8) = flagWord b) (h3 : s.word (key + 12) = 0) : s.byteBar key = some b := by
  obtain ⟨f1, f2, f3, f4, f5⟩ := flagWord_bits b
  unfold State.byteBar
  dsimp only
  rw [h0, h1, h2, h3, f1, f2, f3, f4, f5, if_neg (by simp)]

section
variable {s : State} {key : Nat} (hn : NoneAbout s key 16) (b : ByteBar)
include hn
theorem setByteBar_eq : NoneAbout s key 4 ∧ NoneAbout (s.setWord key b.arr) (key + 4) 4 ∧
    NoneAbout ((s.setWord key b.arr).setWord (key + 4) b.exp) (key + 8) 4 := by
  have h0 : NoneAbout s key 4 := hn.mono (by omega) (by omega) (by omega)
  have m0 := setWord_memoryOnly b.arr h0
  have h1 := m0.noneAbout (hn.mono (show key ≤ key + 4 by omega) (k := 4) (by omega) (by omega))
  exact ⟨h0, h1, (m0.trans (setWord_memoryOnly b.exp h1)).noneAbout (hn.mono (by omega) (by omega) (by omega))⟩
theorem setByteBar_memoryOnly : MemoryOnly s (s.setByteBar key b) := by
  obtain ⟨h0, h1, h2⟩ := setByteBar_eq hn b
  exact ((setWord_memoryOnly _ h0).trans (setWord_memoryOnly _ h1)).trans (setWord_memoryOnly _ h2)
theorem memGet_setByteBar {a : Nat} (ha : a < key ∨ key + 16 ≤ a) : memGet (s.setByteBar key b).mem a = memGet s.mem a := by
  obtain ⟨h0, h1, h2⟩ := setByteBar_eq hn b
  unfold State.setByteBar
  rw [memGet_setWord_ne _ h2 (by omega), memGet_setWord_ne _ h1 (by omega), memGet_setWord_ne _ h0 (by omega)]
theorem words_setByteBar : (s.setByteBar key b).word key = b.arr ∧ (s.setByteBar key b).word (key + 4) = b.exp ∧
    (s.setByteBar key b).word (key + 8) = flagWord b ∧ (s.setByteBar key b).word (key + 12) = s.word (key + 12) := by
  obtain ⟨h0, h1, h2⟩ := setByteBar_eq hn b
  unfold State.setByteBar
  refine ⟨?_, ?_, word_setWord _ h2, ?_⟩
  · rw [word_setWord_ne _ h2 (by omega), word_setWord_ne _ h1 (by omega), word_setWord _ h0]
  · rw [word_setWord_ne _ h2 (by omega), word_setWord _ h1]
  · rw [word_setWord_ne _ h2 (by omega), word_setWord_ne _ h1 (by omega), word_setWord_ne _ h0 (by omega)]
/-- A barrier that has been written back is read. -/
theorem byteBar_setByteBar (h12 : s.word (key + 12) = 0) : (s.setByteBar key b).byteBar key = some b := by
  obtain ⟨w0, w1, w2, w3⟩ := words_setByteBar hn b
  exact byteBar_of_words b w0 w1 w2 (w3.trans h12)
end

/-! ### The completion check and the release of waits -/

/-- The barrier after its completion check (R199). -/
def checkedBar (b : ByteBar) : ByteBar :=
  if b.posted = true ∧ b.exp.toNat ≤ b.arr.toNat
  then { b with ovr := b.ovr || b.arr != b.exp, arr := b.arr - b.exp, exp := 0, posted := false, phase := !b.phase } else b
theorem check_fst (b : ByteBar) : b.check.1 = checkedBar b := by
  have hx : (b.arr - b.exp != 0) = (b.arr != b.exp) := by
    rw [Bool.eq_iff_iff, bne_iff_ne, bne_iff_ne, ne_eq, ne_eq, not_iff_not]
    exact sub_eq_zero
  unfold ByteBar.check checkedBar
  by_cases h : b.posted = true ∧ b.exp.toNat ≤ b.arr.toNat
  · rw [if_pos h, if_pos (by simpa using h)]
    dsimp only
    rw [hx]
  · rw [if_neg h, if_neg (by simpa using h)]
theorem releaseWait_waves (s : State) (w : Nat) (r : WaitRec) : s.releaseWait w r = { s with waves := (s.releaseWait w r).waves } := by
  unfold State.releaseWait
  split <;> rfl
theorem releaseBar_waves (s : State) (key : Nat) : s.releaseBar key = { s with waves := (s.releaseBar key).waves } := by
  unfold State.releaseBar
  generalize s.barWaiters key = ws
  induction ws generalizing s with
  | nil => rfl
  | cons e ws ih =>
    rw [List.foldl_cons]
    refine (ih (s.releaseWait e.1 e.2.1)).trans ?_
    exact (congrArg (fun x : State => { x with waves := (ws.foldl (fun (s : State) (e : Nat × WaitRec × Mods) => s.releaseWait e.1 e.2.1) (s.releaseWait e.1 e.2.1)).waves })
      (releaseWait_waves s e.1 e.2.1)).trans rfl
/-- What arrives is added, and the barrier checked. -/
theorem arrive_mem {s : State} {key : Nat} {b : ByteBar} (h : s.byteBar key = some b) (n : W32) :
    (s.arrive key n).mem = (s.setByteBar key (checkedBar { b with arr := b.arr + n })).mem := by
  unfold State.arrive
  rw [h]
  dsimp only
  rw [check_fst]
  split
  · rw [releaseBar_waves]
  · rfl

/-! ### The instructions -/

theorem onBar_eq {i : Instr} {s : State} {m : Mods} {a : Reg} {e : Nat} {r : TileRef} {key : Nat} (go : Nat → Nat → State) (he : Elected s m e)
    (hh : s.head (s.src s.cur.wid e a) = .at_ r key) (hs : s.ownStore e key 16 = false) : onBar i s m a go = go e key := by
  unfold onBar
  rw [elected_eq he]
  dsimp only
  rw [hh]
  exact if_neg (by rw [hs]; decide)
/-- An overrun that traps is taken at the instruction, which is to be taken up again. -/
theorem barTrap_stops {s : State} {m : Mods} (h : Alone s) (ha : ∃ l, On s m l) : ∃ who : Nat → Bool, (∀ l, who l = true ↔ On s m l) ∧
    StopsAs s (barTrap s m) who (fun _ => causeWord 0x16 0 0x80) (fun _ => 0) (fun _ => s.cur.pc) (fun _ => s.cur.pc) (standsAt s) := by
  have key := finish_stopsAfter (f := fun l => ⟨l, .trap, 0, 0x80, 0, true, s.cur.memb, s.cur.pc⟩) h ha (fun _ => rfl) (fun _ => rfl) (fun _ => rfl)
    (fun _ => show Cause.trap ≠ Cause.none by decide)
  simp only [causeWord_code, if_true] at key
  exact ⟨_, fun l => by rw [decide_eq_true_eq, mem_activeLanes], key⟩

section
variable {s : State} {m : Mods} {d a : Reg} {e : Nat} {r : TileRef} {key : Nat}
  (he : Elected s m e) (hh : s.head (s.src s.cur.wid e a) = .at_ r key) (hs : s.ownStore e key 16 = false)
include he hh hs

theorem bbInit_clears (hn : NoneAbout s key 16) (hv : (s.src s.cur.wid e d).toNat ≤ 1) :
    After (.bbInit m d a) s (fun t => (∀ b, (b < key ∨ key + 16 ≤ b) → memGet t.mem b = memGet s.mem b) ∧ GoesOn s t ∧
      t.byteBar key = some ⟨0, 0, (s.src s.cur.wid e d).getLsbD 0, false, false, false⟩) := by
  have hz : ¬ s.src s.cur.wid e d >>> 1 ≠ 0 := by
    rw [not_not]
    apply BitVec.eq_of_toNat_eq
    rw [BitVec.toNat_ushiftRight, Nat.shiftRight_eq_div_pow, BitVec.ofNat_eq_ofNat, BitVec.toNat_ofNat, Nat.zero_mod]
    omega
  have hbar := setByteBar_memoryOnly hn ⟨0, 0, (s.src s.cur.wid e d).getLsbD 0, false, false, false⟩
  have h12 : NoneAbout _ (key + 12) 4 := hbar.noneAbout (hn.mono (by omega) (by omega) (by omega))
  obtain ⟨w0, w1, w2, -⟩ := words_setByteBar hn ⟨0, 0, (s.src s.cur.wid e d).getLsbD 0, false, false, false⟩
  have hmem := hbar.trans (setWord_memoryOnly 0 h12)
  refine ⟨finish ((s.setByteBar key ⟨0, 0, (s.src s.cur.wid e d).getLsbD 0, false, false, false⟩).setWord (key + 12) 0) [], ?_, fun b hb => ?_,
    finish_goesOn_of hmem.waves hmem.cur, ?_⟩
  · refine Eq.trans (show _ = execBbInit m d a s from rfl) ?_
    unfold execBbInit
    rw [onBar_eq _ he hh hs]
    exact congrArg Host.Outcome.next (if_neg hz)
  · rw [mem_finish, memGet_setWord_ne _ h12 (by omega), memGet_setByteBar hn _ hb]
  · rw [byteBar_of_mem (mem_finish _)]
    refine byteBar_of_words ⟨0, 0, (s.src s.cur.wid e d).getLsbD 0, false, false, false⟩ ?_ ?_ ?_ (word_setWord _ h12)
    · rw [word_setWord_ne _ h12 (by omega), w0]
    · rw [word_setWord_ne _ h12 (by omega), w1]
    · rw [word_setWord_ne _ h12 (by omega), w2]

section
variable {b : ByteBar} (hb : s.byteBar key = some b)
include hb

theorem bbExp_posts (hn : NoneAbout s key 16) (ho : b.overrun = false) (hp : b.posted = false) :
    After (.bbExp m d a) s (fun t => (∀ c, (c < key ∨ key + 16 ≤ c) → memGet t.mem c = memGet s.mem c) ∧ GoesOn s t ∧
      t.byteBar key = some (checkedBar { b with exp := s.src s.cur.wid e d, posted := true })) := by
  have hmem := setByteBar_memoryOnly hn (checkedBar { b with exp := s.src s.cur.wid e d, posted := true })
  refine ⟨finish (s.setByteBar key (checkedBar { b with exp := s.src s.cur.wid e d, posted := true })) [], ?_, fun c hc => ?_,
    finish_goesOn_of hmem.waves hmem.cur, ?_⟩
  · refine Eq.trans (show _ = execBbExp m d a s from rfl) ?_
    unfold execBbExp
    rw [onBar_eq _ he hh hs]
    dsimp only
    rw [hb]
    dsimp only
    rw [if_neg (by rw [ho]; decide), if_neg (by rw [hp]; decide), check_fst]
  · rw [mem_finish, memGet_setByteBar hn _ hc]
  · rw [byteBar_of_mem (mem_finish _), byteBar_setByteBar hn _ (word_of_byteBar hb)]
theorem bbArv_adds (hn : NoneAbout s key 16) (hw : s.relWait .core = false) :
    After (.bbArv m d a) s (fun t => (∀ c, (c < key ∨ key + 16 ≤ c) → memGet t.mem c = memGet s.mem c) ∧
      t.byteBar key = some (checkedBar { b with arr := b.arr + s.src s.cur.wid e d })) := by
  have hm : (finish (s.arrive key (s.src s.cur.wid e d)) []).mem = _ := (mem_finish _).trans (arrive_mem hb (s.src s.cur.wid e d))
  refine ⟨finish (s.arrive key (s.src s.cur.wid e d)) [], ?_, fun c hc => ?_, ?_⟩
  · refine Eq.trans (show _ = execBbArv m d a s from rfl) ?_
    unfold execBbArv
    rw [onBar_eq _ he hh hs, hb]
    exact congrArg Host.Outcome.next (if_neg (by rw [hw]; decide))
  · rw [hm, memGet_setByteBar hn _ hc]
  · rw [byteBar_of_mem hm, byteBar_setByteBar hn _ (word_of_byteBar hb)]
theorem bbWt_eq : exec (.bbWt m a) s = .next (if b.overrun && !s.cur.past then barTrap s m
    else if b.posted && !s.cur.past then waitAt s (.bbWt m a) else finish s []) := by
  refine Eq.trans (show _ = execBbWt m a s from rfl) ?_
  unfold execBbWt
  rw [onBar_eq _ he hh hs, hb]
end
end

/-- Settles O28, from the laws of a barrier written back and of its completion check. -/
theorem byteBarriers : Obligations.ByteBarriers := by
  unfold Obligations.ByteBarriers
  intro s m d a e r key he hh hs hn
  refine ⟨fun hv => bbInit_clears he hh hs hn hv, fun b hb => ⟨fun ho hp => bbExp_posts he hh hs hb hn ho hp, fun hw => bbArv_adds he hh hs hb hn hw, ?_, ?_, ?_⟩⟩
  · intro ho hp hpast
    refine ⟨_, ?_, waitAt_waits s _⟩
    rw [bbWt_eq he hh hs hb, ByteBar.overrun, ho, hp, hpast]
    rfl
  · intro ho hp
    refine ⟨_, ?_, finish_frame_waves rfl, finish_goesOn s⟩
    rw [bbWt_eq he hh hs hb, ByteBar.overrun, ho, hp]
    rfl
  · intro ho hpast hal
    obtain ⟨who, hwho, hst⟩ := barTrap_stops (m := m) hal ⟨e, he.1⟩
    refine ⟨_, who, ?_, hwho, hst⟩
    rw [bbWt_eq he hh hs hb, ByteBar.overrun, ho, hpast]
    rfl

end Sys2Proof
end

-- ==== Sys2Proof/Proofs/Aperture.lean ====

-- ==== Sys2Proof/Proofs/Aperture.lean ====
section
/-! SUPPORT. Accesses of the host through the aperture: where they land, and the 256-byte units of a write (R416, R425). -/

namespace Sys2Proof

open Machine

/-! ### Where an access lands -/

/-- The tables of APCTX let an access of the host through to `key`. -/
def ApertureOpen (s : State) (k : Nat) (va : W64) (write : Bool) (key : Nat) : Prop :=
  ∃ l c, s.devLeaf k (s.pkg k).host.apctx va = some l ∧ s.devPlace k (s.pkg k).host.apctx va = .at_ key c ∧
    (if write then pteW l = true ∧ pteState l ≠ 3 else pteR l = true)
theorem apertureKey_eq_some {s : State} {k : Nat} {va : W64} {write : Bool} {key : Nat} :
    s.apertureKey k va write = some key ↔ ApertureOpen s k va write key := by
  unfold State.apertureKey ApertureOpen
  cases hl : s.devLeaf k (s.pkg k).host.apctx va with
  | none => simp [hl]
  | some l =>
    cases hp : s.devPlace k (s.pkg k).host.apctx va with
    | at_ key' c =>
      cases write <;> simp [hl, hp, and_comm]
    | _ => simp [hl, hp]
theorem apertureKey_eq_none {s : State} {k : Nat} {va : W64} {write : Bool} (h : ∀ key, ¬ ApertureOpen s k va write key) :
    s.apertureKey k va write = none := by
  cases hk : s.apertureKey k va write with
  | none => rfl
  | some key => exact absurd (apertureKey_eq_some.1 hk) (h key)
/-- An access within one page has one part. -/
theorem aperture_onePage {s : State} {k : Nat} {va : W64} {n : Nat} {write : Bool} (h1 : 1 ≤ n) (h2 : va.toNat % 2 ^ 16 + n ≤ 2 ^ 16) :
    s.aperture k va n write = (s.apertureKey k va write).map (fun key => [(key, n)]) := by
  have hsteps : stepsOf (2 ^ 16) va n = [va] := by
    unfold stepsOf
    rw [show (va.toNat % 2 ^ 16 + n - 1) / 2 ^ 16 = 0 from Nat.div_eq_of_lt (by omega)]
    rfl
  have hlen : min (2 ^ 16 - va.toNat % 2 ^ 16) (va.toNat + n - va.toNat) = n := by omega
  unfold State.aperture
  rw [hsteps]
  cases hk : s.apertureKey k va write with
  | none => simp [hk]
  | some key =>
    rw [List.mapM_cons, hk, Option.map_some, hlen]
    rfl

/-! ### The units of a write (R425) -/

theorem units256_one {key n : Nat} (h1 : 1 ≤ n) (h : key % 256 + n ≤ 256) : units256 [(key, n)] = [(key, n)] := by
  have hc : (key + n + 255) / 256 - key / 256 = 1 := by omega
  simp only [units256, List.map_cons, List.map_nil, hc, List.range_one, List.flatten_cons, List.flatten_nil, List.append_nil, Nat.add_zero]
  rw [Nat.max_eq_left (by omega), Nat.min_eq_left (by omega), Nat.add_sub_cancel_left]
theorem units256_two {key n : Nat} (h1 : key % 256 + n ≤ 512) (h2 : 256 < key % 256 + n) :
    units256 [(key, n)] = [(key, key / 256 * 256 + 256 - key), (key / 256 * 256 + 256, key + n - (key / 256 * 256 + 256))] := by
  have hc : (key + n + 255) / 256 - key / 256 = 2 := by omega
  have hr : List.range 2 = [0, 1] := rfl
  simp only [units256, List.map_cons, List.map_nil, hc, hr, List.flatten_cons, List.flatten_nil, List.append_nil, Nat.add_zero]
  rw [Nat.max_eq_left (by omega), Nat.min_eq_right (by omega), Nat.max_eq_right (by omega), Nat.min_eq_left (by omega)]
  have e1 : (key / 256 + 1) * 256 = key / 256 * 256 + 256 := by omega
  rw [e1]
theorem storeAt_mem {s : State} {a : Nat} {bs : List Byte} (h : NoneAbout s a bs.length) : (s.storeAt a bs).mem = memPuts s.mem a bs := by
  rw [storeAt_of_none h]
  rfl
theorem storeAt_memoryOnly {s : State} {a : Nat} {bs : List Byte} (h : NoneAbout s a bs.length) : MemoryOnly s (s.storeAt a bs) := by
  rw [storeAt_of_none h]
  exact store_memoryOnly ..
/-- A line that has been written over is not poisoned. -/
theorem storeAt_unpoisons {s : State} {a : Nat} {bs : List Byte} (h : NoneAbout s a bs.length) (hl : bs.length = 64) (ha : a % 64 = 0)
    (hu : ∀ u ∈ (s.pkg (keyPkg a)).phys.poison, u % 64 = 0) : (s.storeAt a bs).poisoned a 64 = false := by
  have hp : ((s.storeAt a bs).pkg (keyPkg a)).phys.poison = unpoison (s.pkg (keyPkg a)).phys.poison a 64 := by
    rw [storeAt_of_none h]
    unfold State.store
    rw [State.pkg_modPkg_self, hl]
    rfl
  unfold State.poisoned isPoisoned
  rw [hp, List.any_eq_false]
  intro u hm
  obtain ⟨hm, hk⟩ := List.mem_filter.1 hm
  have h64 := hu u hm
  simp only [Bool.not_eq_true', Bool.and_eq_false_imp, decide_eq_true_eq, decide_eq_false_iff_not] at hk
  simp only [Bool.and_eq_true, decide_eq_true_eq, not_and]
  intro h1 h2
  exact hk (by omega) (by omega)

/-! ### The accesses -/

section
variable {s : State} {k : Nat} {v : W64} {n : Nat}

/-- An access that does not come to the device. -/
theorem read_outside (h : ¬ ((s.pkg k).answers = true ∧ v.toNat + n ≤ bar2Bytes)) (ok : Bool) :
    exec (.apertureRead k v ⟨n, ok⟩) s = .next (s.modPkg k (fun p => p.reply .unsupported)) := by
  refine Eq.trans (show _ = execApertureRead k v ⟨n, ok⟩ s from rfl) ?_
  unfold execApertureRead
  dsimp only
  rw [if_pos]
  rw [Bool.or_eq_true, Bool.not_eq_true', decide_eq_true_eq, ← Bool.not_eq_true]
  by_contra hc
  rw [not_or, not_not, Nat.not_lt] at hc
  exact h hc
theorem write_outside {bs : List Byte} (hl : bs.length = n) (h : ¬ ((s.pkg k).answers = true ∧ v.toNat + n ≤ bar2Bytes)) (bad : Nat) :
    exec (.apertureWrite k v bs bad) s = .next s := by
  refine Eq.trans (show _ = execApertureWrite k v bs bad s from rfl) ?_
  unfold execApertureWrite
  dsimp only
  rw [if_pos]
  rw [Bool.or_eq_true, Bool.not_eq_true', decide_eq_true_eq, ← Bool.not_eq_true, hl]
  by_contra hc
  rw [not_or, not_not, Nat.not_lt] at hc
  exact h hc
variable (ha : (s.pkg k).answers = true) (hb : v.toNat + n ≤ bar2Bytes) (h1 : 1 ≤ n) (h2 : ((s.pkg k).host.apva + v).toNat % 2 ^ 16 + n ≤ 2 ^ 16)
include ha hb h1 h2
theorem read_eq (ok : Bool) : exec (.apertureRead k v ⟨n, ok⟩) s = .next (match s.apertureKey k ((s.pkg k).host.apva + v) false with
    | none => s.modPkg k (fun p => (apFault p ((s.pkg k).host.apva + v)).reply .unsupported)
    | some key => if s.poisoned key n || !ok then s.modPkg k (fun p => p.reply .poisoned)
      else s.modPkg k (fun p => p.reply (.data (memGets s.mem key n)))) := by
  refine Eq.trans (show _ = execApertureRead k v ⟨n, ok⟩ s from rfl) ?_
  unfold execApertureRead
  dsimp only
  rw [if_neg (by rw [ha, decide_eq_false (by omega)]; decide), show apertureVa (s.pkg k) v = (s.pkg k).host.apva + v from rfl, aperture_onePage h1 h2]
  cases s.apertureKey k ((s.pkg k).host.apva + v) false with
  | none => rfl
  | some key => simp [State.load]
theorem write_eq {bs : List Byte} (hl : bs.length = n) (bad : Nat) : exec (.apertureWrite k v bs bad) s =
    .next (match s.apertureKey k ((s.pkg k).host.apva + v) true with
    | none => s.modPkg k (fun p => apFault p ((s.pkg k).host.apva + v))
    | some key => if bad = 0 then putParts [(key, n)] bs s else putUnits k bad 0 (units256 [(key, n)]) bs s) := by
  refine Eq.trans (show _ = execApertureWrite k v bs bad s from rfl) ?_
  unfold execApertureWrite
  dsimp only
  rw [hl, if_neg (by rw [ha, decide_eq_false (by omega)]; decide), show apertureVa (s.pkg k) v = (s.pkg k).host.apva + v from rfl, aperture_onePage h1 h2]
  cases s.apertureKey k ((s.pkg k).host.apva + v) true <;> rfl
end
/-- The reply that an access leaves. -/
theorem reply_left (s : State) (k : Nat) (r : HostReply) : PackageOnly s (s.modPkg k (fun p => p.reply r)) k ∧
    ((s.modPkg k (fun p => p.reply r)).pkg k).host.replies = (s.pkg k).host.replies ++ [r] :=
  ⟨modPkg_only .., by rw [State.pkg_modPkg_self]; rfl⟩
theorem replies_of_fault (p : Pkg) (va : W64) : (apFault p va).host.replies = p.host.replies := by
  unfold apFault mgmtEvent writeEvent
  dsimp only
  split
  · rfl
  · split <;> rfl
theorem fault_written (s : State) (k : Nat) (va : W64) : EventWritten s (s.modPkg k (fun p => apFault p va)) k 0x49 6 0 :=
  mgmtEvent_written (p := s.pkg k) rfl (State.pkg_modPkg_self ..) (by decide) (by decide)
theorem faultReply_left (s : State) (k : Nat) (va : W64) (r : HostReply) :
    PackageOnly s (s.modPkg k (fun p => (apFault p va).reply r)) k ∧
    ((s.modPkg k (fun p => (apFault p va).reply r)).pkg k).host.replies = (s.pkg k).host.replies ++ [r] ∧
    EventWritten s (s.modPkg k (fun p => (apFault p va).reply r)) k 0x49 6 0 := by
  refine ⟨modPkg_only .., ?_, fun hr => ?_⟩
  · rw [State.pkg_modPkg_self]
    exact congrArg (· ++ [r]) (replies_of_fault ..)
  · obtain ⟨e1, e2⟩ := fault_written s k va hr
    unfold eventWord at e2 ⊢
    rw [State.pkg_modPkg_self] at e1 e2 ⊢
    exact ⟨e1, e2⟩

section
variable {s : State} {k : Nat} {v : W64} {n : Nat} {bs : List Byte} {key : Nat}

/-- Of a write of two units whose first is damaged the second is stored, and the damage recorded. -/
theorem secondUnit_stored (h1 : 1 ≤ n) (hl : bs.length = n) (hk1 : key % 256 + n ≤ 512) (hk2 : 256 < key % 256 + n) {bad : Nat} (h0 : bad.testBit 0 = true)
    (hb : bad.testBit 1 = false) (hn : NoneAbout s key n) :
    EventWritten s (putUnits k bad 0 (units256 [(key, n)]) bs s) k 0x48 6 0 ∧
      memGets (putUnits k bad 0 (units256 [(key, n)]) bs s).mem (key / 256 * 256 + 256) (key + n - (key / 256 * 256 + 256)) =
        bs.drop (key / 256 * 256 + 256 - key) ∧
      ∀ b, (b < key / 256 * 256 + 256 ∨ key + n ≤ b) → memGet (putUnits k bad 0 (units256 [(key, n)]) bs s).mem b = memGet s.mem b := by
  obtain ⟨rest, hrest⟩ : ∃ rest, rest = key / 256 * 256 + 256 := ⟨_, rfl⟩
  have hunits := units256_two hk1 hk2
  rw [← hrest] at hunits ⊢
  have hlen : (bs.drop (rest - key)).length = key + n - rest := by rw [List.length_drop, hl]; omega
  have hput : putUnits k bad 0 (units256 [(key, n)]) bs s =
      (s.modPkg k (fun p => mgmtEvent p 0x48 6 0 (BitVec.ofNat 64 (key % 2 ^ 44 / 256 * 256)))).storeAt rest (bs.drop (rest - key)) := by
    rw [hunits, putUnits, if_pos h0, putUnits, if_neg (by rw [hb]; decide), putUnits, ← hlen, List.take_length]
  have hnone : NoneAbout (s.modPkg k (fun p => mgmtEvent p 0x48 6 0 (BitVec.ofNat 64 (key % 2 ^ 44 / 256 * 256)))) rest (bs.drop (rest - key)).length := by
    rw [hlen]
    exact hn.mono (by omega) (by omega) (by omega)
  have hev : EventWritten s (s.modPkg k (fun p => mgmtEvent p 0x48 6 0 (BitVec.ofNat 64 (key % 2 ^ 44 / 256 * 256)))) k 0x48 6 0 :=
    mgmtEvent_written (p := s.pkg k) rfl (State.pkg_modPkg_self ..) (by decide) (by decide)
  have hmem := storeAt_mem hnone
  have hpkg := (storeAt_memoryOnly hnone).pkg k
  rw [hput]
  refine ⟨fun hr => ?_, ?_, fun b hb => ?_⟩
  · obtain ⟨e1, e2⟩ := hev hr
    unfold eventWord at e2 ⊢
    rw [hpkg]
    exact ⟨e1, e2⟩
  · rw [hmem, ← hlen]
    exact memGets_memPuts ..
  · rw [hmem]
    exact memGet_memPuts_ne _ _ _ _ (by rw [hlen]; omega)
/-- A write of one unit that is damaged is dropped, and the damage recorded. -/
theorem oneUnit_dropped (h1 : 1 ≤ n) (hk : key % 256 + n ≤ 256) {bad : Nat} (h0 : bad.testBit 0 = true) :
    PackageOnly s (putUnits k bad 0 (units256 [(key, n)]) bs s) k ∧ EventWritten s (putUnits k bad 0 (units256 [(key, n)]) bs s) k 0x48 6 0 := by
  rw [units256_one h1 hk, putUnits, if_pos h0, putUnits]
  exact ⟨modPkg_only .., mgmtEvent_written (p := s.pkg k) rfl (State.pkg_modPkg_self ..) (by decide) (by decide)⟩
theorem putParts_one (hl : bs.length = n) : putParts [(key, n)] bs s = s.storeAt key bs := by
  rw [putParts, putParts, ← hl, List.take_length]
end
theorem ne_zero_of_testBit {bad : Nat} (h : bad.testBit 0 = true) : bad ≠ 0 := by
  rintro rfl
  exact absurd h (by decide)

/-- Settles O49, from the laws of where a host access lands and of the units of its write. -/
theorem theAperture : Obligations.TheAperture := by
  unfold Obligations.TheAperture
  intro s k v n p va on reply open_ onePage inBar
  have hon : on ↔ (s.pkg k).answers = true := answers_eq_true.symm
  refine ⟨⟨Nat.pow_le_pow_right (by decide) (by omega), Nat.pow_le_pow_right (by decide) (by have := Config.bar2Log.isLt; omega)⟩, fun h => ?_, fun ha hb hp => ?_, ?_⟩
  · rw [hon] at h
    exact ⟨fun ok => ⟨_, read_outside h ok, reply_left ..⟩, fun bs bad hl => write_outside hl h bad⟩
  · obtain ⟨h1, h2⟩ := hp
    rw [hon] at ha
    refine ⟨fun ok hno => ?_, fun key ok ho => ?_, fun bs bad hl => ?_⟩
    · have hr := read_eq ha hb h1 h2 ok
      rw [apertureKey_eq_none hno] at hr
      exact ⟨_, hr, faultReply_left ..⟩
    · have hr := read_eq ha hb h1 h2 ok
      rw [apertureKey_eq_some.2 ho] at hr
      dsimp only at hr
      refine ⟨fun hbad => ?_, fun hgood hok => ?_⟩
      · rw [if_pos (by rcases hbad with hbad | hbad <;> rw [hbad] <;> simp)] at hr
        exact ⟨_, hr, reply_left ..⟩
      · rw [if_neg (by rw [hgood, hok]; decide)] at hr
        exact ⟨_, hr, reply_left ..⟩
    · have hw := write_eq ha hb h1 h2 hl bad
      have hopen : ∀ key, open_ true key → _ := fun key ho => by
        rw [apertureKey_eq_some.2 ho] at hw
        exact hw
      refine ⟨fun hno => ?_, fun key ho hk h0 => ?_, fun key ho hk1 hk2 h0 hb1 hn => ?_, fun key ho h0 hn => ?_⟩
      · rw [apertureKey_eq_none hno] at hw
        exact ⟨_, hw, modPkg_only .., fault_written s k _⟩
      · exact ⟨_, (hopen key ho).trans (congrArg Host.Outcome.next (if_neg (ne_zero_of_testBit h0))), oneUnit_dropped h1 hk h0⟩
      · exact ⟨_, (hopen key ho).trans (congrArg Host.Outcome.next (if_neg (ne_zero_of_testBit h0))), secondUnit_stored h1 hl hk1 hk2 h0 hb1 hn⟩
      · have hs := (hopen key ho).trans (congrArg Host.Outcome.next ((if_pos h0).trans (putParts_one hl)))
        rw [← hl] at hn
        refine ⟨_, hs, ?_, fun b hb => ?_, fun h64 hn64 hu => storeAt_unpoisons hn (hl.trans hn64) h64 hu⟩
        · rw [storeAt_mem hn, ← hl]
          exact memGets_memPuts ..
        · rw [storeAt_mem hn]
          exact memGet_memPuts_ne _ _ _ _ (by rwa [hl])
  · refine ⟨fun ha => ?_, fun r hr => ?_⟩
    · rw [hon] at ha
      exact ⟨after_modPkg_is rfl (by simp [Pkg.apertureSet, ha, lo32, p]), after_modPkg_is rfl (by simp [Pkg.apertureSet, ha, p])⟩
    · rw [hon] at hr
      refine after_modPkg_is rfl ?_
      unfold Pkg.apertureSet
      rcases hr with hr | ⟨h0, h8⟩
      · rw [if_pos (by rw [Bool.eq_false_iff.2 hr]; rfl)]
      · rw [if_neg h0, if_neg h8, ite_self]

end Sys2Proof
end

-- ==== Sys2Proof/Proofs/ControlWindow.lean ====

-- ==== Sys2Proof/Proofs/ControlWindow.lean ====
section
/-! SUPPORT. The control window: what each of its words writes and reads, and the command queue's TAIL (R415, R423, R427 to R429). -/

namespace Sys2Proof

open Machine

/-! ### Words that are no registers -/

/-- An offset of 4 bytes at which the window has a register that is written. -/
def Written (r : Nat) : Prop :=
  (0x1010 ≤ r ∧ r < 0x1024) ∨ r = 0x2000 ∨ r = 0x2008 ∨ r = 0x200C ∨ (0x10000 ≤ r ∧ r < 0x10800) ∨ (0x20000 ≤ r ∧ r < 0x20200) ∨
    (0x30000 ≤ r ∧ r < 0x30014) ∨ r = 0x40000 ∨ r = 0x40008 ∨ (0x50000 ≤ r ∧ r < 0x50010)
section
variable {p : Pkg}
theorem regWord_silent (h : p.answers = false) (r : Nat) (v : W32) : p.regWord r v = p := if_pos (by rw [h]; rfl)
theorem regWord_none {r : Nat} (h : ¬ Written r) (v : W32) : p.regWord r v = p := by
  unfold Written at h
  cases ha : p.answers with
  | false => exact regWord_silent ha r v
  | true =>
    unfold Pkg.regWord
    dsimp only
    rw [if_neg (by rw [ha]; decide)]
    iterate 17 rw [if_neg (by omega)]
theorem windowWord_none {r : Nat} (h : ¬ Written r) (v : W32) : p.windowWord r v = p := by
  have hl : lqTailOf r = none := if_neg fun hc => h (by unfold Written; omega)
  unfold Pkg.windowWord
  rw [hl]
  exact regWord_none h v
theorem windowWord_silent (h : p.answers = false) (r : Nat) (v : W32) : p.windowWord r v = p := by
  unfold Pkg.windowWord
  cases lqTailOf r with
  | none => exact regWord_silent h r v
  | some q => exact if_neg (by rw [h]; decide)
theorem windowWrite_misaligned {r n : Nat} (h4 : ¬ (n = 4 ∧ r % 4 = 0)) (h8 : ¬ (n = 8 ∧ r % 8 = 0)) (v : W64) : p.windowWrite r n v = p := by
  rw [Pkg.windowWrite, if_neg h4, if_neg h8]
theorem windowWrite_silent (h : p.answers = false) (r n : Nat) (v : W64) : p.windowWrite r n v = p := by
  unfold Pkg.windowWrite
  rw [windowWord_silent h, windowWord_silent h, ite_self, ite_self]
theorem windowWrite_none {r n : Nat} (h : ¬ Written r) (h' : r % 8 = 0 → ¬ Written (r + 4)) (v : W64) : p.windowWrite r n v = p := by
  unfold Pkg.windowWrite
  rw [windowWord_none h]
  split
  · rfl
  · split
    · next hc => exact windowWord_none (h' hc.2) _
    · rfl
theorem windowWrite_four {r : Nat} (h : r % 4 = 0) (v : W64) : p.windowWrite r 4 v = p.windowWord r (lo32 v) := if_pos ⟨rfl, h⟩
theorem windowWrite_eight {r : Nat} (h : r % 8 = 0) (v : W64) :
    p.windowWrite r 8 v = (p.windowWord r (lo32 v)).windowWord (r + 4) (hi32 v) := by
  rw [Pkg.windowWrite, if_neg (by omega), if_pos ⟨rfl, h⟩]
theorem windowWord_plain {r : Nat} (h : r < 0x10000 ∨ 0x10800 ≤ r ∨ r % 32 ≠ 12) (v : W32) : p.windowWord r v = p.regWord r v := by
  unfold Pkg.windowWord
  rw [show lqTailOf r = none from if_neg (by omega)]

/-! ### Words that are read -/

/-- An offset of 4 bytes at which the window has a register that is read. -/
def Readable (r : Nat) : Prop :=
  r < 0x1024 ∨ r = 0x2000 ∨ r = 0x2008 ∨ r = 0x200C ∨ (0x10000 ≤ r ∧ r < 0x10800) ∨ (0x20000 ≤ r ∧ r < 0x20200) ∨ (0x30000 ≤ r ∧ r < 0x30018) ∨
    (0x40000 ≤ r ∧ r < 0x4000C) ∨ (0x50000 ≤ r ∧ r < 0x50014)
theorem windowReg_none {r : Nat} (h : ¬ Readable r) : p.windowReg r = 0 := by
  unfold Readable at h
  unfold Pkg.windowReg
  dsimp only
  rw [if_neg (show ¬ r < 0x1000 by omega)]
  by_cases hp : (!p.phys.powered) = true
  · rw [if_pos hp]
  · rw [if_neg hp]
    by_cases ha : (!p.answers) = true
    · rw [if_pos ha]
    · rw [if_neg ha]
      iterate 22 rw [if_neg (by omega)]
theorem windowRead_misaligned {r n : Nat} (h4 : ¬ (n = 4 ∧ r % 4 = 0)) (h8 : ¬ (n = 8 ∧ r % 8 = 0)) : p.windowRead r n = 0 := by
  rw [Pkg.windowRead, if_neg h4, if_neg h8]
theorem windowRead_four {r : Nat} (h : r % 4 = 0) : p.windowRead r 4 = (p.windowReg r).setWidth 64 := if_pos ⟨rfl, h⟩
theorem windowRead_eight {r : Nat} (h : r % 8 = 0) : p.windowRead r 8 = p.windowReg (r + 4) ++ p.windowReg r := by
  rw [Pkg.windowRead, if_neg (by omega), if_pos ⟨rfl, h⟩]
theorem windowRead_none {r : Nat} (h : ¬ Readable r) : p.windowRead r 4 = 0 := by
  rw [Pkg.windowRead, windowReg_none h]
  split <;> [rfl; exact if_neg (by omega)]
theorem windowReg_recovery (hr : p.sec.recovery = true) {r : Nat} (h : 0x1000 ≤ r) : p.windowReg r = 0 := by
  have ha : p.answers = false := answers_eq_false.2 fun h => by rw [hr] at h; exact absurd h.2.2 (by decide)
  unfold Pkg.windowReg
  dsimp only
  rw [if_neg (show ¬ r < 0x1000 by omega), ha]
  exact ite_self _
theorem windowRead_recovery (hr : p.sec.recovery = true) {r : Nat} (h : 0x1000 ≤ r) (n : Nat) : p.windowRead r n = 0 := by
  unfold Pkg.windowRead
  rw [windowReg_recovery hr h, windowReg_recovery hr (by omega)]
  split
  · rfl
  · split <;> rfl
theorem windowReg_info (hp : p.phys.powered = true) {r : Nat} (h : r < 0x1000) : p.windowReg r = p.infoWord r := by
  unfold Pkg.windowReg
  rw [hp, if_neg (by decide), if_pos h]
/-- The two halves of a 64-bit register make it up. -/
theorem hi32_append_lo32 (x : W64) : hi32 x ++ lo32 x = x := by
  apply BitVec.eq_of_getLsbD_eq
  intro i hi
  unfold hi32 lo32
  rw [BitVec.getLsbD_append]
  by_cases h : i < 32
  · simp [h]
  · simp [h, BitVec.getLsbD_ushiftRight, show i - 32 < 32 by omega, show 32 + (i - 32) = i by omega]

section
variable (ha : p.answers = true)
include ha
theorem answers_powered : p.phys.powered = true := (answers_eq_true.1 ha).1
/-- A register beyond the information block. -/
theorem windowReg_on {r : Nat} (h : 0x1000 ≤ r) : p.windowReg r =
    if r < 0x1010 then wordOf p.featOff (r - 0x1000)
    else if r < 0x1020 then wordOf p.host.featReq (r - 0x1010)
    else if r = 0x1020 then BitVec.ofNat 32 (p.host.featRej.toNat * 4 + p.host.featDone.toNat * 2)
    else p.windowReg r := by
  split_ifs with h1 h2 h3 <;> unfold Pkg.windowReg <;> dsimp only <;> rw [answers_powered ha, ha]
  · rw [if_neg (by decide), if_neg (by omega), if_neg (by decide), if_pos h1]
  · rw [if_neg (by decide), if_neg (by omega), if_neg (by decide), if_neg h1, if_pos h2]
  · rw [if_neg (by decide), if_neg (by omega), if_neg (by decide), if_neg h1, if_neg h2, if_pos h3]
theorem windowReg_lq {q off : Nat} (hq : q < 64) (ho : off < 32) : p.windowReg (0x10000 + 32 * q + off) = (p.lq q).word off := by
  unfold Pkg.windowReg
  dsimp only
  rw [answers_powered ha, ha, if_neg (by decide), if_neg (by omega), if_neg (by decide)]
  iterate 6 rw [if_neg (by omega)]
  rw [if_pos (by omega), show (0x10000 + 32 * q + off - 0x10000) / 32 = q by omega, show (0x10000 + 32 * q + off) % 32 = off by omega]
theorem featOff_on : p.featOff = Config.featOff := by
  unfold Pkg.featOff
  rw [(answers_eq_true.1 ha).2.2]
  rfl

/-- What the window reads at its single registers. -/
theorem windowReg_single : p.windowReg 0x2000 = p.host.apctx ∧ p.windowReg 0x2008 = lo32 p.host.apva ∧ p.windowReg 0x200C = hi32 p.host.apva ∧
    p.windowReg 0x30000 = lo32 p.host.eqBase ∧ p.windowReg 0x30004 = hi32 p.host.eqBase ∧ p.windowReg 0x30008 = p.host.eqLog ∧
    p.windowReg 0x3000C = p.host.eqTail ∧ p.windowReg 0x30010 = p.host.eqHead ∧ p.windowReg 0x30014 = p.host.eqLost ∧
    p.windowReg 0x40000 = p.phys.pcap ∧ p.windowReg 0x40004 = p.phys.fclk ∧ p.windowReg 0x40008 = p.phys.pstate ∧
    p.windowReg 0x50000 = lo32 p.host.cqBase ∧ p.windowReg 0x50004 = hi32 p.host.cqBase ∧ p.windowReg 0x50008 = p.host.cqLog ∧
    p.windowReg 0x5000C = p.host.cqTail ∧ p.windowReg 0x50010 = p.host.cqHead := by
  unfold Pkg.windowReg
  rw [answers_powered ha, ha]
  exact ⟨rfl, rfl, rfl, rfl, rfl, rfl, rfl, rfl, rfl, rfl, rfl, rfl, rfl, rfl, rfl, rfl, rfl⟩
theorem windowReads : let reads := fun (r : Nat) (x : W32) => p.windowRead r 4 = x.setWidth 64
    (∀ i, i < 4 → reads (0x1000 + 4 * i) (Config.featOff.extractLsb' (32 * i) 32) ∧ reads (0x1010 + 4 * i) (p.host.featReq.extractLsb' (32 * i) 32)) ∧
    reads 0x1020 (BitVec.ofNat 32 ((if p.host.featRej then 4 else 0) + if p.host.featDone then 2 else 0)) ∧ reads 0x2000 p.host.apctx ∧
    p.windowRead 0x2008 8 = p.host.apva ∧ p.windowRead 0x30000 8 = p.host.eqBase ∧ reads 0x30008 p.host.eqLog ∧ reads 0x3000C p.host.eqTail ∧
    reads 0x30010 p.host.eqHead ∧ reads 0x30014 p.host.eqLost ∧ reads 0x40000 p.phys.pcap ∧ reads 0x40004 p.phys.fclk ∧ reads 0x40008 p.phys.pstate ∧
    p.windowRead 0x50000 8 = p.host.cqBase ∧ reads 0x50008 p.host.cqLog ∧ reads 0x5000C p.host.cqTail ∧ reads 0x50010 p.host.cqHead := by
  obtain ⟨r1, r2, r3, r4, r5, r6, r7, r8, r9, r10, r11, r12, r13, r14, r15, r16, r17⟩ := windowReg_single ha
  have four : ∀ {r : Nat} {x : W32}, r % 4 = 0 → p.windowReg r = x → p.windowRead r 4 = x.setWidth 64 := fun h hx => by rw [windowRead_four h, hx]
  have eight : ∀ {r : Nat} {x : W64}, r % 8 = 0 → p.windowReg r = lo32 x → p.windowReg (r + 4) = hi32 x → p.windowRead r 8 = x :=
    fun h h1 h2 => by rw [windowRead_eight h, h1, h2, hi32_append_lo32]
  refine ⟨fun i hi => ⟨four (by omega) ?_, four (by omega) ?_⟩, four (by decide) ?_, four (by decide) r1, eight (by decide) r2 r3, eight (by decide) r4 r5,
    four (by decide) r6, four (by decide) r7, four (by decide) r8, four (by decide) r9, four (by decide) r10, four (by decide) r11, four (by decide) r12,
    eight (by decide) r13 r14, four (by decide) r15, four (by decide) r16, four (by decide) r17⟩
  · rw [windowReg_on ha (by omega), if_pos (by omega), featOff_on ha, wordOf, show 8 * (0x1000 + 4 * i - 0x1000) = 32 * i by omega]
  · rw [windowReg_on ha (by omega), if_neg (by omega), if_pos (by omega), wordOf, show 8 * (0x1010 + 4 * i - 0x1010) = 32 * i by omega]
  · rw [windowReg_on ha (by decide), if_neg (by decide), if_neg (by decide), if_pos rfl]
    cases p.host.featRej <;> cases p.host.featDone <;> rfl
theorem lqReads {q : Nat} (hq : q < 64) : let d := p.lq q
    let reads := fun (r : Nat) (x : W32) => p.windowRead r 4 = x.setWidth 64
    p.windowRead (0x10000 + 32 * q) 8 = d.base ∧ reads (0x10008 + 32 * q) (d.ctl &&& 0xFF#32) ∧ reads (0x1000C + 32 * q) d.tail ∧
    reads (0x10010 + 32 * q) d.head ∧ reads (0x10014 + 32 * q) d.ctx ∧ p.windowRead (0x10018 + 32 * q) 8 = 0 := by
  have word : ∀ {r off : Nat}, off < 32 → r = 0x10000 + 32 * q + off → p.windowReg r = (p.lq q).word off := fun ho hr => by rw [hr, windowReg_lq ha hq ho]
  refine ⟨?_, ?_, ?_, ?_, ?_, ?_⟩
  · rw [windowRead_eight (by omega), word (off := 4) (by decide) (by omega), word (off := 0) (by decide) (by omega)]
    exact hi32_append_lo32 _
  · show p.windowRead _ 4 = _
    rw [windowRead_four (by omega), word (off := 8) (by decide) (by omega)]
    rfl
  · show p.windowRead _ 4 = _
    rw [windowRead_four (by omega), word (off := 12) (by decide) (by omega)]
    rfl
  · show p.windowRead _ 4 = _
    rw [windowRead_four (by omega), word (off := 16) (by decide) (by omega)]
    rfl
  · show p.windowRead _ 4 = _
    rw [windowRead_four (by omega), word (off := 20) (by decide) (by omega)]
    rfl
  · rw [windowRead_eight (by omega), word (off := 28) (by decide) (by omega), word (off := 24) (by decide) (by omega)]
    exact (by decide : (0#32 ++ 0#32 : W64) = 0)

/-! ### Words that are written -/

theorem write_featReq (v : W64) {i : Nat} (hi : i < 4) : p.windowWrite (0x1010 + 4 * i) 4 v =
    { p with host := { p.host with featReq := p.host.featReq &&& ~~~ (0xFFFFFFFF#128 <<< (32 * i)) ||| ((v.setWidth 32).setWidth 128) <<< (32 * i) } } := by
  rw [windowWrite_four (by omega), windowWord_plain (by omega), Pkg.regWord, if_neg (by rw [ha]; decide), if_pos (by omega),
    show 8 * (0x1010 + 4 * i - 0x1010) = 32 * i by omega]
  rfl
theorem write_apctx (v : W64) : p.windowWrite 0x2000 4 v = { p with host := { p.host with apctx := v.setWidth 32 } } := by
  rw [windowWrite_four (by decide), windowWord_plain (by decide)]
  show (if (!p.answers) = true then p else p.apertureSet 0 ((lo32 v).setWidth 64)) = _
  have hw : ((lo32 v).setWidth 64).setWidth 32 = v.setWidth 32 := BitVec.setWidth_setWidth_of_le _ (by decide)
  rw [if_neg (by rw [ha]; decide), Pkg.apertureSet, if_neg (by rw [ha]; decide), if_pos rfl]
  exact congrArg (fun x : W32 => ({ p with host := { p.host with apctx := x } } : Pkg)) hw
theorem write_eqLog (v : W64) : p.windowWrite 0x30008 4 v = { p with host := { p.host with eqLog := v.setWidth 32 &&& 0x1F#32 } } := by
  rw [windowWrite_four (by decide), windowWord_plain (by decide)]
  exact if_neg (by rw [ha]; decide)
theorem write_eqHead (v : W64) : p.windowWrite 0x30010 4 v = { p with host := { p.host with eqHead := v.setWidth 32 } } := by
  rw [windowWrite_four (by decide), windowWord_plain (by decide)]
  exact if_neg (by rw [ha]; decide)
theorem write_pcap (v : W64) : p.windowWrite 0x40000 4 v =
    if 1500 ≤ (v.setWidth 32).toNat ∧ (v.setWidth 32).toNat ≤ 3000 then { p with phys := { p.phys with pcap := v.setWidth 32 } } else p := by
  rw [windowWrite_four (by decide), windowWord_plain (by decide)]
  exact Eq.trans (if_neg (by rw [ha]; decide)) (pcapSet_eq ha _)
theorem apvaHalf (hi : Bool) (v : W32) : p.regWord (if hi then 0x200C else 0x2008) v =
    { p with host := { p.host with apva := setHalf p.host.apva hi v &&& ~~~ 0xFFFF#64 } } := by
  have hset : ∀ x : W64, p.apertureSet 8 x = { p with host := { p.host with apva := x &&& ~~~ 0xFFFF#64 } } := fun x => by
    rw [Pkg.apertureSet, if_neg (by rw [ha]; decide), if_neg (by decide), if_pos rfl]
  rw [← hset]
  cases hi
  · exact if_neg (by rw [ha]; decide)
  · exact if_neg (by rw [ha]; decide)
omit ha in
/-- The halves of an address, each aligned as it is written. -/
theorem setHalves_aligned (x v : W64) : setHalf (setHalf x false (lo32 v) &&& ~~~ 0xFFFF#64) true (hi32 v) &&& ~~~ 0xFFFF#64 = v &&& ~~~ 0xFFFF#64 := by
  apply BitVec.eq_of_getLsbD_eq
  intro i hi
  unfold setHalf hi32 lo32
  simp only [if_true, Bool.false_eq_true, if_false, BitVec.getLsbD_and, BitVec.getLsbD_append, BitVec.getLsbD_setWidth, BitVec.getLsbD_ushiftRight]
  by_cases h : i < 32
  · simp only [h, decide_true, if_true, Bool.true_and]
    rw [Bool.and_assoc, Bool.and_self]
  · simp only [h, if_false, show i - 32 < 32 by omega, decide_true, Bool.true_and, show 32 + (i - 32) = i by omega]
omit ha in
theorem setHalves (x v : W64) : setHalf (setHalf x false (lo32 v)) true (hi32 v) = v := by
  rw [show setHalf (setHalf x false (lo32 v)) true (hi32 v) = hi32 v ++ lo32 (hi32 x ++ lo32 v) from rfl]
  have : lo32 (hi32 x ++ lo32 v) = lo32 v := by
    unfold lo32 hi32
    apply BitVec.eq_of_getLsbD_eq
    intro i hi
    simp only [BitVec.getLsbD_setWidth, BitVec.getLsbD_append, hi, decide_true, Bool.true_and, if_true]
  rw [this, hi32_append_lo32]
theorem write_apva (v : W64) : p.windowWrite 0x2008 8 v = { p with host := { p.host with apva := v &&& ~~~ 0xFFFF#64 } } := by
  have h1 := apvaHalf ha false (lo32 v)
  have h2 := apvaHalf (p := { p with host := { p.host with apva := setHalf p.host.apva false (lo32 v) &&& ~~~ 0xFFFF#64 } }) ha true (hi32 v)
  rw [windowWrite_eight (by decide), windowWord_plain (by decide), windowWord_plain (by decide)]
  refine (congrArg (fun q : Pkg => q.regWord 0x200C (hi32 v)) h1).trans (h2.trans ?_)
  dsimp only
  rw [setHalves_aligned]
theorem eqBaseHalf (hi : Bool) (v : W32) : p.regWord (if hi then 0x30004 else 0x30000) v =
    { p with host := { p.host with eqBase := setHalf p.host.eqBase hi v } } := by
  cases hi
  · exact if_neg (by rw [ha]; decide)
  · exact if_neg (by rw [ha]; decide)
theorem write_eqBase (v : W64) : p.windowWrite 0x30000 8 v = { p with host := { p.host with eqBase := v } } := by
  have h1 := eqBaseHalf ha false (lo32 v)
  have h2 := eqBaseHalf (p := { p with host := { p.host with eqBase := setHalf p.host.eqBase false (lo32 v) } }) ha true (hi32 v)
  rw [windowWrite_eight (by decide), windowWord_plain (by decide), windowWord_plain (by decide)]
  refine (congrArg (fun q : Pkg => q.regWord 0x30004 (hi32 v)) h1).trans (h2.trans ?_)
  dsimp only
  rw [setHalves]

/-! ### Launch-queue descriptors -/

/-- A word of a descriptor that is not its TAIL. -/
theorem write_lq (v : W64) {q off : Nat} (hq : q < 64) (ho : off < 32) (h4 : off % 4 = 0) (hn : off ≠ 12) :
    p.windowWrite (0x10000 + 32 * q + off) 4 v = p.modLq q (fun d => d.write off (v.setWidth 32)) := by
  rw [windowWrite_four (by omega), windowWord_plain (by omega)]
  unfold Pkg.regWord
  dsimp only
  rw [if_neg (by rw [ha]; decide)]
  iterate 5 rw [if_neg (by omega)]
  rw [if_pos (by omega), show (0x10000 + 32 * q + off - 0x10000) / 32 = q by omega, show (0x10000 + 32 * q + off) % 32 = off by omega]
  rfl
theorem write_lqTail (v : W64) {q : Nat} (hq : q < 64) (hd : (p.lq q).dev = false)
    (ht : tailOk (p.lq q).size (p.lq q).tail (p.lq q).head (v.setWidth 32) = true) :
    p.windowWrite (0x10000 + 32 * q + 12) 4 v = p.modLq q (fun d => { d with tail := v.setWidth 32 }) := by
  rw [windowWrite_four (by omega)]
  unfold Pkg.windowWord
  rw [show lqTailOf (0x10000 + 32 * q + 12) = some ((0x10000 + 32 * q + 12 - 0x10000) / 32) from if_pos (by omega),
    show (0x10000 + 32 * q + 12 - 0x10000) / 32 = q by omega]
  dsimp only
  rw [if_pos ha, Pkg.lqTail, if_neg (by rw [hd]; decide)]
  exact if_pos ht
end
theorem lq_modLq (q : Nat) (f : LQueue → LQueue) (j : Nat) : (p.modLq q f).lq j = if j = q then f (p.lq q) else p.lq j := by
  unfold Pkg.lq Pkg.modLq
  exact fget_fput ..
theorem setHalf_low (x : W64) (v : W32) : setHalf x false v = (x >>> 32) <<< 32 ||| v.setWidth 64 := by
  rw [show setHalf x false v = (x >>> 32).setWidth 32 ++ v from rfl]
  apply BitVec.eq_of_getLsbD_eq
  intro i hi
  by_cases h : i < 32
  · simp only [BitVec.getLsbD_or, BitVec.getLsbD_append, BitVec.getLsbD_shiftLeft, BitVec.getLsbD_setWidth, h, hi, if_true, decide_true, Bool.not_true,
      Bool.true_and, Bool.and_false, Bool.false_and, Bool.false_or]
  · have hv : v.getLsbD i = false := BitVec.getLsbD_of_ge _ _ (by omega)
    simp only [BitVec.getLsbD_or, BitVec.getLsbD_append, BitVec.getLsbD_shiftLeft, BitVec.getLsbD_setWidth, BitVec.getLsbD_ushiftRight, h, hi, hv, if_false,
      decide_true, decide_false, Bool.not_false, Bool.true_and, Bool.or_false, Bool.and_false, show i - 32 < 32 by omega]
theorem setHalf_high (x : W64) (v : W32) : setHalf x true v = v.setWidth 64 <<< 32 ||| (x.setWidth 32).setWidth 64 := by
  rw [show setHalf x true v = v ++ x.setWidth 32 from rfl]
  apply BitVec.eq_of_getLsbD_eq
  intro i hi
  by_cases h : i < 32
  · simp only [BitVec.getLsbD_or, BitVec.getLsbD_append, BitVec.getLsbD_shiftLeft, BitVec.getLsbD_setWidth, h, hi, if_true, decide_true, Bool.not_true,
      Bool.true_and, Bool.and_false, Bool.false_and, Bool.false_or]
  · simp only [BitVec.getLsbD_or, BitVec.getLsbD_append, BitVec.getLsbD_shiftLeft, BitVec.getLsbD_setWidth, h, hi, if_false, decide_true, decide_false,
      Bool.not_false, Bool.true_and, Bool.and_false, Bool.false_and, Bool.or_false, show i - 32 < 64 by omega]

/-! ### The command queue's TAIL (R429) -/

theorem tailOk_iff (size : Nat) (tail head v : W32) : tailOk size tail head v = true ↔ (v - head).toNat ≤ size ∧ (v - tail).toNat ≤ size := by
  simp [tailOk]
section
variable (ha : p.answers = true) {v : W32}
include ha
theorem cqTail_refused (h : ¬ ((v - p.host.cqHead).toNat ≤ 2 ^ (p.host.cqLog.toNat % 16) ∧ (v - p.host.cqTail).toNat ≤ 2 ^ (p.host.cqLog.toNat % 16))) :
    p.cqTail v = mgmtEvent p 0x4D 6 64 0 := by
  rw [Pkg.cqTail, if_neg (by rw [ha]; decide), if_neg (by rwa [tailOk_iff])]
theorem cqTail_taken (h : (v - p.host.cqHead).toNat ≤ 2 ^ (p.host.cqLog.toNat % 16) ∧ (v - p.host.cqTail).toNat ≤ 2 ^ (p.host.cqLog.toNat % 16)) :
    p.cqTail v = if p.hostChange then { p with host := { p.host with cqTail := v } }
      else { p with host := cqSkip 4096 { p.host with cqTail := v } } := by
  rw [Pkg.cqTail, if_neg (by rw [ha]; decide), if_pos (by rwa [tailOk_iff])]
  unfold Pkg.skipBad
  rw [show ({ p with host := { p.host with cqTail := v } } : Pkg).answers = true from ha,
    show ({ p with host := { p.host with cqTail := v } } : Pkg).hostChange = p.hostChange from rfl]
  cases p.hostChange <;> rfl
end
theorem cqSkip_empty {h : HostIf} (n : Nat) (hh : h.cqHas = false) : cqSkip n h = h := by
  cases n with
  | zero => rfl
  | succ n => rw [cqSkip, if_pos (by rw [hh]; rfl)]
theorem cqSkip_good {h : HostIf} (n : Nat) (hh : h.cqBad = none) : cqSkip n h = h := by
  cases n with
  | zero => rfl
  | succ n =>
    rw [cqSkip, hh]
    exact ite_self _
theorem cqSkip_bad {h : HostIf} (n : Nat) {e : W32} (h1 : h.cqHas = true) (h2 : h.cqBad = some e) : cqSkip (n + 1) h = cqSkip n (h.cqPut e) := by
  rw [cqSkip, if_neg (by rw [h1]; decide), h2]
/-- One command that is none is answered as it comes. -/
theorem cqSkip_one {h : HostIf} (n : Nat) {e : W32} (hb : h.cqBase ≠ 0) (ht : h.cqTail = h.cqHead + 1) (he : h.cqBad = some e) :
    cqSkip (n + 1) h = h.cqPut e := by
  have hhas : h.cqHas = true := by
    unfold HostIf.cqHas
    rw [Bool.and_eq_true, bne_iff_ne, bne_iff_ne, ht]
    exact ⟨hb, (ne_of_apply_ne (fun x : W32 => x - h.cqHead) (by simp))⟩
  rw [cqSkip_bad n hhas he]
  refine cqSkip_empty n ?_
  unfold HostIf.cqHas HostIf.cqPut
  rw [ht]
  simp
theorem leNat_status (m : List Host.Cell) (a : Nat) (e : W32) : leNat (memGets (memPuts m a (leBytes 8 (2 ^ 63 + e.toNat))) a 8) = 2 ^ 63 + e.toNat := by
  have := memGets_memPuts m a (leBytes 8 (2 ^ 63 + e.toNat))
  rw [leBytes_length] at this
  have he := e.isLt
  rw [this, leNat_leBytes, Nat.mod_eq_of_lt (by omega)]
end

theorem cqTail_of_event (p : Pkg) (kind cls unit : Nat) (wh : W64) : (mgmtEvent p kind cls unit wh).host.cqTail = p.host.cqTail := by
  unfold mgmtEvent writeEvent
  dsimp only
  split
  · rfl
  · split <;> rfl

/-- Settles O52, from the laws of the window's words and of the command queue's TAIL. -/
theorem controlWindow : Obligations.ControlWindow := by
  unfold Obligations.ControlWindow
  intro s k r n v p on lo sets host
  have hon : on ↔ p.answers = true := answers_eq_true.symm
  have is : ∀ {r n : Nat} {q : Pkg}, p.windowWrite r n v = q → After (.registerWrite k r n v) s (fun t => PackageIs s t k q) :=
    fun h => after_modPkg_is rfl h
  refine ⟨fun h4 h8 => is (windowWrite_misaligned h4 h8 v), fun h => is (windowWrite_silent (Bool.eq_false_iff.2 (mt hon.2 h)) r n v), fun h => ?_,
    windowRead_misaligned, fun _ hr h => windowRead_recovery hr h n, fun hp => ⟨?_, fun h1 h2 => ?_, ?_, ?_⟩, fun ha => ?_, fun ha => ?_⟩
  · exact is (windowWrite_none (by unfold Written; omega) (fun _ => by unfold Written; omega) v)
  · rw [windowRead_four (by decide), windowReg_info hp (by decide), BitVec.toNat_setWidth]
    show (BitVec.ofNat 32 (Config.rev.toNat * 2 ^ 16 + 9)).toNat % 2 ^ 64 % 2 ^ 16 = 9
    rw [BitVec.toNat_ofNat]
    omega
  · rw [windowRead_four (by decide), windowReg_info hp (by decide)]
    show (BitVec.ofNat 32 (p.podsize % 256 * 256 + p.pkgid % 128)).setWidth 64 = _
    rw [Nat.mod_eq_of_lt h1, Nat.mod_eq_of_lt h2]
    apply BitVec.eq_of_toNat_eq
    rw [BitVec.toNat_setWidth, BitVec.toNat_ofNat, BitVec.toNat_ofNat]
    omega
  · rw [windowRead_four (by decide), windowReg_info hp (by decide)]
    rfl
  · rw [windowRead_four (by decide), windowReg_info hp (by decide)]
    show (p.sec.secver.setWidth 32).setWidth 64 = _
    have := p.sec.secver.isLt
    apply BitVec.eq_of_toNat_eq
    rw [BitVec.toNat_setWidth, BitVec.toNat_setWidth, BitVec.toNat_setWidth]
    omega
  · rw [hon] at ha
    obtain ⟨h1, h2⟩ := windowReads ha
    refine ⟨fun h => windowRead_none (by unfold Readable; omega), h1, ?_⟩
    obtain ⟨g1, g2, g3, g4, g5, g6, g7, g8, g9, g10, g11, g12, g13, g14, g15⟩ := h2
    exact ⟨g1, g2, g3, g4, g5, g6, g7, g8, g9, g10, g11, g12, g13, g14, g15, fun q hq => lqReads ha hq⟩
  · rw [hon] at ha
    refine ⟨fun i hi => is (write_featReq ha v hi), is (write_apctx ha v), is (write_eqLog ha v), is (write_eqHead ha v), is (write_apva ha v),
      is (write_eqBase ha v), is (write_pcap ha v), fun q hq => ?_, ?_⟩
    · have lqIs : ∀ {off : Nat} {f : LQueue → LQueue}, p.windowWrite (0x10000 + 32 * q + off) 4 v = p.modLq q f →
          After (.registerWrite k (0x10000 + 32 * q + off) 4 v) s (fun t => PackageOnly s t k ∧ ∀ j, (t.pkg k).lq j = if j = q then f (p.lq q) else p.lq j) := by
        intro off f h
        refine ⟨_, rfl, modPkg_only .., fun j => ?_⟩
        rw [State.pkg_modPkg_self]
        exact (congrArg (fun x : Pkg => x.lq j) h).trans (lq_modLq q f j)
      have word := fun {off : Nat} (ho : off < 32) (h4 : off % 4 = 0) (hn : off ≠ 12) => lqIs (write_lq ha v hq ho h4 hn)
      refine ⟨?_, ?_, word (off := 8) (by decide) (by decide) (by decide), word (off := 16) (by decide) (by decide) (by decide),
        word (off := 20) (by decide) (by decide) (by decide), fun hd hh ht => lqIs (write_lqTail ha v hq hd ((tailOk_iff ..).2 ⟨hh, ht⟩))⟩
      · have := word (off := 0) (by decide) (by decide) (by decide)
        dsimp only [LQueue.write] at this
        rw [setHalf_low] at this
        exact this
      · have := word (off := 4) (by decide) (by decide) (by decide)
        dsimp only [LQueue.write] at this
        rw [setHalf_high] at this
        exact this
    · refine ⟨fun hf => ?_, fun hf h => ?_, fun hf hb hl hc e he => ?_⟩
      · refine ⟨_, rfl, modPkg_only .., ?_, mgmtEvent_written (p := p) rfl ((State.pkg_modPkg_self ..).trans (cqTail_refused ha hf)) (by decide) (by decide)⟩
        rw [State.pkg_modPkg_self, cqTail_refused ha hf]
        exact cqTail_of_event ..
      · refine after_modPkg_is rfl ((cqTail_taken ha hf).trans ?_)
        cases hhc : p.hostChange with
        | true => rfl
        | false =>
          rw [if_neg (by decide)]
          have : cqSkip 4096 { p.host with cqTail := lo } = { p.host with cqTail := lo } := by
            rcases h with h | h | h | h
            · exact cqSkip_empty _ (by unfold HostIf.cqHas; rw [show ({ p.host with cqTail := lo } : HostIf).cqBase = 0 from h]; rfl)
            · exact cqSkip_empty _ (by unfold HostIf.cqHas; rw [show ({ p.host with cqTail := lo } : HostIf).cqHead = lo from h]; simp)
            · exact absurd (hhc.symm.trans h) (by decide)
            · exact cqSkip_good _ h
          rw [this]
      · have hskip := cqSkip_one (h := { p.host with cqTail := lo }) 4095 hb hl he
        have hq : p.cqTail lo = { p with host := ({ p.host with cqTail := lo } : HostIf).cqPut e } := by
          rw [cqTail_taken ha hf, if_neg (by rw [hc]; decide), hskip]
        refine ⟨_, rfl, modPkg_only .., ?_, ?_⟩
        · rw [State.pkg_modPkg_self]
          exact congrArg (fun x : Pkg => x.host.cqHead) hq
        · rw [State.pkg_modPkg_self]
          refine (congrArg (fun x : Pkg => leNat (memGets x.host.hostMem _ 8)) hq).trans ?_
          exact leNat_status _ _ e

end Sys2Proof
end

-- ==== Sys2Proof/Proofs/ContextCommands.lean ====

-- ==== Sys2Proof/Proofs/ContextCommands.lean ====
section
/-! SUPPORT. How a host command is answered, and the commands on contexts (R311, R313, R315, R429 to R431). -/

namespace Sys2Proof

open Machine

/-! ### Answers (R429) -/

/-- The command queue of a host interface is that of another. -/
structure SameQueue (g h : HostIf) : Prop where
  base : g.cqBase = h.cqBase
  log : g.cqLog = h.cqLog
  tail : g.cqTail = h.cqTail
  head : g.cqHead = h.cqHead
  vector : fget 0 g.msix 1 = fget 0 h.msix 1
theorem SameQueue.refl (h : HostIf) : SameQueue h h := ⟨rfl, rfl, rfl, rfl, rfl⟩
theorem SameQueue.trans {f g h : HostIf} (h1 : SameQueue f g) (h2 : SameQueue g h) : SameQueue f h :=
  ⟨h1.base.trans h2.base, h1.log.trans h2.log, h1.tail.trans h2.tail, h1.head.trans h2.head, h1.vector.trans h2.vector⟩
theorem writeEvent_sameQueue (p : Pkg) (b : List Byte) : SameQueue (writeEvent p b).host p.host := by
  unfold writeEvent
  dsimp only
  split
  · exact SameQueue.refl _
  · split
    · exact ⟨rfl, rfl, rfl, rfl, rfl⟩
    · refine ⟨rfl, rfl, rfl, rfl, ?_⟩
      show fget 0 (fput p.host.msix 0 _) 1 = _
      rw [fget_fput, if_neg (by decide)]
theorem mgmtEvent_sameQueue (p : Pkg) (kind cls unit : Nat) (wh : W64) : SameQueue (mgmtEvent p kind cls unit wh).host p.host := writeEvent_sameQueue ..
theorem hostEvent_sameQueue (s : State) (k : Nat) (c : W32) (cause : Cause) (sub : Byte) (aff : List (Nat × Troupe)) (pc va : W64) :
    SameQueue ((hostEvent s k c cause sub aff pc va).pkg k).host (s.pkg k).host := by
  obtain ⟨m, rest, e⟩ := hostEvent_pkg_self s k c cause sub aff pc va
  rw [e]
  exact (writeEvent_sameQueue ..).trans ⟨rfl, rfl, rfl, rfl, rfl⟩
theorem cqPut_has {h : HostIf} (ht : h.cqTail = h.cqHead + 1) (v : W32) : (h.cqPut v).cqHas = false := by
  unfold HostIf.cqHas HostIf.cqPut
  rw [ht]
  simp
theorem cqHas_of_one {h : HostIf} (hb : h.cqBase ≠ 0) (ht : h.cqTail = h.cqHead + 1) : h.cqHas = true := by
  unfold HostIf.cqHas
  rw [Bool.and_eq_true, bne_iff_ne, bne_iff_ne, ht]
  exact ⟨hb, (ne_of_apply_ne (fun x : W32 => x - h.cqHead) (by simp))⟩
theorem cmdDone_host (p : Pkg) (v : W32) : p.cmdDone v = { p with host := (p.cmdDone v).host } := by
  unfold Pkg.cmdDone
  split <;> rfl
/-- What an answer leaves as it was. -/
theorem cqPut_events (h : HostIf) (v : W32) : (h.cqPut v).eqTail = h.eqTail := rfl
theorem cqSkip_events (n : Nat) (h : HostIf) : (cqSkip n h).eqTail = h.eqTail := by
  induction n generalizing h with
  | zero => rfl
  | succ n ih =>
    rw [cqSkip]
    split
    · rfl
    · split
      · rw [ih, cqPut_events]
      · rfl
theorem cmdDone_events (p : Pkg) (v : W32) : (p.cmdDone v).host.eqTail = p.host.eqTail := by
  unfold Pkg.cmdDone
  split
  · exact cqSkip_events ..
  · rfl
section
variable {s u : State} {k n : Nat}
theorem pkg_cmdOk (u : State) (k n : Nat) : (cmdOk u k n).pkg k = (u.pkg k).cmdDone (BitVec.ofNat 32 n) := State.pkg_modPkg_self ..
theorem pkg_cmdOk_ne {j : Nat} (h : j ≠ k) : (cmdOk u k n).pkg j = u.pkg j := by
  unfold cmdOk
  rw [State.pkg_modPkg, if_neg h]
/-- The command is answered, whatever else has happened meanwhile. -/
theorem cmdOk_answers (hq : SameQueue (u.pkg k).host (s.pkg k).host) (hn : n < 2 ^ 32) : Answered s (cmdOk u k n) k n := by
  intro hb ht
  have hb' : (u.pkg k).host.cqBase ≠ 0 := by rwa [hq.base]
  have ht' : (u.pkg k).host.cqTail = (u.pkg k).host.cqHead + 1 := by rw [hq.tail, hq.head, ht]
  have hput : ((cmdOk u k n).pkg k).host = (u.pkg k).host.cqPut (BitVec.ofNat 32 n) := by
    rw [pkg_cmdOk, Pkg.cmdDone, if_pos (cqHas_of_one hb' ht')]
    exact cqSkip_empty _ (cqPut_has ht' _)
  rw [hput]
  refine ⟨?_, ?_, ?_⟩
  · exact congrArg (· + 1) hq.head
  · show fget 0 (fput (u.pkg k).host.msix 1 _) 1 = _
    rw [fget_fput_self, hq.vector]
  · rw [← hq.base, ← hq.log, ← hq.head]
    refine (leNat_status (u.pkg k).host.hostMem ((u.pkg k).host.cqSlot (u.pkg k).host.cqHead + 8) (BitVec.ofNat 32 n)).trans ?_
    rw [BitVec.toNat_ofNat, Nat.mod_eq_of_lt hn]
theorem cmdOk_only (s : State) (k : Nat) (hn : n < 2 ^ 32) : AnsweredOnly s (cmdOk s k n) k n := by
  refine ⟨cmdOk_answers (SameQueue.refl _) hn, ⟨rfl, fun j hj => pkg_cmdOk_ne hj⟩, ?_⟩
  rw [pkg_cmdOk]
  exact cmdDone_host ..
/-- A package changes and the command is answered. -/
theorem cmdOk_modPkg {f : Pkg → Pkg} (hf : SameQueue (f (s.pkg k)).host (s.pkg k).host) (hn : n < 2 ^ 32) :
    Answered s (cmdOk (s.modPkg k f) k n) k n ∧ PackageOnly s (cmdOk (s.modPkg k f) k n) k ∧
    (cmdOk (s.modPkg k f) k n).pkg k = { f (s.pkg k) with host := ((cmdOk (s.modPkg k f) k n).pkg k).host } := by
  refine ⟨cmdOk_answers (by rwa [State.pkg_modPkg_self]) hn, ⟨rfl, fun j hj => ?_⟩, ?_⟩
  · rw [pkg_cmdOk_ne hj, State.pkg_modPkg, if_neg hj]
  · rw [pkg_cmdOk, State.pkg_modPkg_self]
    exact cmdDone_host ..
end

/-! ### Commands that name a context -/

section
variable {s : State} {k : Nat} {h : HArgs}
theorem onCtx_busy (hc : (s.pkg k).hostChange = true) (go : Ctx → State) : onCtx s k h go = .next s := by
  rw [onCtx, if_pos hc]
theorem ctx?_eq_none (hk : ¬ (h.ctx ≠ 0xFFFFFFFF ∧ flook (s.pkg k).ctxs h.ctx.toNat ≠ none)) : (s.pkg k).ctx? h.ctx = none := by
  unfold Pkg.ctx?
  split
  · rfl
  · next hne => exact not_not.1 fun hf => hk ⟨hne, hf⟩
theorem ctx?_eq_some {c : Ctx} (hne : h.ctx ≠ 0xFFFFFFFF) (hc : flook (s.pkg k).ctxs h.ctx.toNat = some c) : (s.pkg k).ctx? h.ctx = some c := by
  rw [Pkg.ctx?, if_neg hne, hc]
variable (hn : (s.pkg k).hostChange = false)
include hn
theorem onCtx_unknown (hk : ¬ (h.ctx ≠ 0xFFFFFFFF ∧ flook (s.pkg k).ctxs h.ctx.toNat ≠ none)) (go : Ctx → State) : onCtx s k h go = .next (cmdOk s k 3) := by
  rw [onCtx, if_neg (by rw [hn]; decide), ctx?_eq_none hk]
theorem onCtx_known {c : Ctx} (hne : h.ctx ≠ 0xFFFFFFFF) (hc : flook (s.pkg k).ctxs h.ctx.toNat = some c) (go : Ctx → State) :
    onCtx s k h go = .next (go c) := by
  rw [onCtx, if_neg (by rw [hn]; decide), ctx?_eq_some hne hc]
end

theorem busy_commands {s : State} {k : Nat} (hc : (s.pkg k).hostChange = true) (h : HArgs) :
    ∀ i ∈ [Instr.ctxnew k h, .ctxentry k h, .ctxstop k h, .ctxfree k h, .ctxevt k h, .preempt k h, .preend k h, .resume k h,
      .planload k h, .reelload k h, .hndload k h, .fctlset k h, .masters k h, .vmdup k h, .vmsplit k h, .vmprot k h, .tlbinv k h],
      exec i s = .next s := by
  have b : ∀ go : Ctx → State, onCtx s k h go = .next s := onCtx_busy hc
  simp only [List.forall_mem_cons]
  exact ⟨congrArg Host.Outcome.next (if_pos hc), b _, b _, b _, b _, b _, b _, b _, b _, b _, b _, congrArg Host.Outcome.next (if_pos hc),
    congrArg Host.Outcome.next (if_pos hc), b _, b _, b _, b _, fun i hi => absurd hi List.not_mem_nil⟩
theorem unknown_commands {s : State} {k : Nat} {h : HArgs} (hn : (s.pkg k).hostChange = false)
    (hk : ¬ (h.ctx ≠ 0xFFFFFFFF ∧ flook (s.pkg k).ctxs h.ctx.toNat ≠ none)) :
    ∀ i ∈ [Instr.ctxentry k h, .ctxstop k h, .ctxfree k h, .ctxevt k h, .preempt k h, .preend k h, .resume k h,
        .planload k h, .reelload k h, .hndload k h, .vmdup k h, .vmsplit k h, .vmprot k h, .tlbinv k h], After i s (fun t => AnsweredOnly s t k 3) := by
  have a : ∀ {i : Instr} {go : Ctx → State}, exec i s = onCtx s k h go → After i s (fun t => AnsweredOnly s t k 3) :=
    fun hi => ⟨_, hi.trans (onCtx_unknown hn hk _), cmdOk_only s k (by decide)⟩
  simp only [List.forall_mem_cons]
  exact ⟨a rfl, a rfl, a rfl, a rfl, a rfl, a rfl, a rfl, a rfl, a rfl, a rfl, a rfl, a rfl, a rfl, a rfl, fun i hi => absurd hi List.not_mem_nil⟩

/-! ### Maps and translations that lose entries -/

theorem flook_fdel {α : Type} (m : FMap α) (k j : Nat) : flook (fdel m k) j = if j = k then none else flook m j := by
  induction m with
  | nil => rw [show flook (fdel ([] : FMap α) k) j = none from rfl, show flook ([] : FMap α) j = none from rfl, ite_self]
  | cons e m ih =>
    obtain ⟨i, x⟩ := e
    by_cases hi : i = k
    · subst hi
      have : fdel ((i, x) :: m) i = fdel m i := by simp [fdel]
      rw [this, ih]
      by_cases hj : j = i
      · rw [if_pos hj, if_pos hj]
      · rw [if_neg hj, if_neg hj, flook, if_neg (Ne.symm hj)]
    · have : fdel ((i, x) :: m) k = (i, x) :: fdel m k := by simp [fdel, hi]
      rw [this, flook, flook, ih]
      by_cases hij : i = j
      · subst hij
        rw [if_pos rfl, if_pos rfl, if_neg hi]
      · rw [if_neg hij, if_neg hij]
/-- A map has nothing to lose at a key that it lacks. -/
theorem fdel_of_flook_none {α : Type} {m : FMap α} {k : Nat} (h : flook m k = none) : fdel m k = m := by
  induction m with
  | nil => rfl
  | cons e m ih =>
    obtain ⟨i, x⟩ := e
    rw [flook] at h
    split at h
    · exact absurd h (by simp)
    · next hne =>
      rw [← ih h]
      simp [fdel, hne]
theorem not_covers_of_dropTlb {ctx : W32} {lo n : Nat} {l : List TlbEntry} {e : TlbEntry} (h : e ∈ dropTlb ctx lo n l) : ¬ covers ctx lo n e := by
  intro ⟨h1, h2, h3⟩
  have := (List.mem_filter.1 h).2
  simp [h1, h2, h3] at this
/-- After an invalidation no translation of the bytes is left. -/
theorem untranslated_of_invalidate {t : State} {p : Pkg} {k : Nat} {ctx : W32} {lo n : Nat} (h1 : (t.pkg k).cores = (p.invalidate ctx lo n).cores)
    (h2 : (t.pkg k).tlb2 = (p.invalidate ctx lo n).tlb2) : Untranslated t k ctx lo n := by
  refine ⟨fun c e he => ?_, fun c e he => ?_⟩
  · unfold State.core Pkg.core at he
    rw [h1, show (p.invalidate ctx lo n).cores = fall p.cores (fun _ c => { c with tlb := dropTlb ctx lo n c.tlb }) from rfl, fget_fall] at he
    cases hc : flook p.cores c with
    | none =>
      rw [hc] at he
      exact absurd he List.not_mem_nil
    | some x =>
      rw [hc] at he
      exact not_covers_of_dropTlb he
  · rw [h2, show (p.invalidate ctx lo n).tlb2 = fall p.tlb2 (fun _ t => dropTlb ctx lo n t) from rfl, fget_fall] at he
    cases hc : flook p.tlb2 c with
    | none =>
      rw [hc] at he
      exact absurd he List.not_mem_nil
    | some x =>
      rw [hc] at he
      exact not_covers_of_dropTlb he

/-! ### CTXNEW, CTXENTRY, CTXEVT, CTXSTOP, CTXFREE -/

theorem ctxArgsOk_iff (h : HArgs) : ctxArgsOk h = true ↔ (h.ctx ≠ 0xFFFFFFFF ∧ h.a0.toNat % 4096 = 0 ∧ h.a1.toNat % 32 = 0 ∧ h.a2.toNat % 16 = 0 ∧
    h.a3.toNat % 256 = 0 ∧ h.a0.toNat < 2 ^ 39 ∧ h.a1.toNat < 2 ^ 39 ∧ h.a2.toNat < 2 ^ 39 ∧ h.a3.toNat + h.a4.toNat ≤ 2 ^ 39 ∧ h.a5.toNat < 256) := by
  unfold ctxArgsOk hbmBytes
  simp only [Bool.and_eq_true, bne_iff_ne, beq_iff_eq, decide_eq_true_eq, and_assoc]
theorem entryOk_iff (s : State) (k : Nat) (ctx : W32) (a : W64) : s.entryOk k ctx a = true ↔
    (a = 0 ∨ (a.toNat % 12 = 0 ∧ ∃ l, s.devLeaf k ctx a = some l ∧ 2 ≤ pteState l ∧ pteSys l = true ∧ pteX l = true)) := by
  unfold State.entryOk
  rw [Bool.or_eq_true, beq_iff_eq, Bool.and_eq_true, beq_iff_eq]
  cases s.devLeaf k ctx a with
  | none => simp
  | some l => simp [and_assoc]
section
variable {s : State} {k : Nat} {h : HArgs} {c : Ctx} (hn : (s.pkg k).hostChange = false)
include hn

/-- A context that a package has not is set up. -/
theorem ctxnew_new (hl : ctxArgsOk h = true) (hk : ¬ (h.ctx ≠ 0xFFFFFFFF ∧ flook (s.pkg k).ctxs h.ctx.toNat ≠ none)) :
    After (.ctxnew k h) s (fun t => Answered s t k 0 ∧ PackageOnly s t k ∧
      (∀ c, c ≠ h.ctx.toNat → flook (t.pkg k).ctxs c = flook (s.pkg k).ctxs c) ∧ flook (t.pkg k).ctxs h.ctx.toNat = some (ctxOf h)) := by
  obtain ⟨h1, h2, h3⟩ := cmdOk_modPkg (s := s) (k := k) (n := 0) (f := fun p => { p with ctxs := fput p.ctxs h.ctx.toNat (ctxOf h) }) (SameQueue.refl _) (by decide)
  refine ⟨_, ?_, h1, h2, fun c hc => ?_, ?_⟩
  · refine Eq.trans (show _ = execCtxnew k h s from rfl) ?_
    rw [execCtxnew, if_neg (by rw [hn]; decide), if_neg (by rw [hl]; decide), if_neg (by rw [ctx?_eq_none hk]; decide)]
  · rw [h3]
    exact (flook_fput ..).trans (if_neg hc)
  · rw [h3]
    exact (flook_fput ..).trans (if_pos rfl)
theorem ctxnew_refused (n : Nat) (hn32 : n < 2 ^ 32)
    (hr : (ctxArgsOk h = false ∧ n = 2) ∨ (ctxArgsOk h = true ∧ (∃ c, (s.pkg k).ctx? h.ctx = some c) ∧ n = 1)) :
    After (.ctxnew k h) s (fun t => AnsweredOnly s t k n) := by
  refine ⟨cmdOk s k n, ?_, cmdOk_only s k hn32⟩
  refine Eq.trans (show _ = execCtxnew k h s from rfl) ?_
  rw [execCtxnew, if_neg (by rw [hn]; decide)]
  rcases hr with ⟨h1, rfl⟩ | ⟨h1, ⟨c, h2⟩, rfl⟩
  · rw [if_pos (by rw [h1]; decide)]
  · rw [if_neg (by rw [h1]; decide), if_pos (by rw [h2]; rfl)]

variable (hne : h.ctx ≠ 0xFFFFFFFF) (hc : flook (s.pkg k).ctxs h.ctx.toNat = some c)
include hne hc

omit hn hne in
/-- A command that changes the context it names. -/
theorem modCtx_becomes {i : Instr} {f : Ctx → Ctx} (hi : exec i s = .next (cmdOk (s.modPkg k (fun p => p.modCtx h.ctx f)) k 0)) :
    After i s (fun t => Answered s t k 0 ∧ PackageOnly s t k ∧
      (∀ d, d ≠ h.ctx.toNat → flook (t.pkg k).ctxs d = flook (s.pkg k).ctxs d) ∧ flook (t.pkg k).ctxs h.ctx.toNat = some (f c)) := by
  obtain ⟨h1, h2, h3⟩ := cmdOk_modPkg (s := s) (k := k) (n := 0) (f := fun p => p.modCtx h.ctx f) (SameQueue.refl _) (by decide)
  refine ⟨_, hi, h1, h2, fun d hd => ?_, ?_⟩
  · rw [h3]
    exact (flook_fmod ..).trans (if_neg hd)
  · rw [h3]
    refine (flook_fmod ..).trans ((if_pos rfl).trans ?_)
    rw [hc]
    rfl
theorem ctxentry_eq : exec (.ctxentry k h) s = .next (if [h.a0, h.a1, h.a2].all (s.entryOk k h.ctx) then
    cmdOk (s.modPkg k (fun p => p.modCtx h.ctx (fun c => { c with sysh := h.a0, saveh := h.a1, resth := h.a2 }))) k 0 else cmdOk s k 2) :=
  onCtx_known hn hne hc _
theorem ctxevt_eq : exec (.ctxevt k h) s = .next (if h.a0.toNat % 8 ≠ 0 ∨ h.a1.toNat % 8 ≠ 0 then cmdOk s k 2
    else cmdOk (s.modPkg k (fun p => p.modCtx h.ctx (fun c => { c with evBase := h.a0, evBytes := if h.a0 = 0 then 0 else h.a1 }))) k 0) :=
  onCtx_known hn hne hc _
omit hn hne hc in
/-- A stop is that of the context also where the command is then answered. -/
theorem ContextStops.answered {s t : State} {k : Nat} {x : W32} (hs : ContextStops s t k x) (n : Nat) : ContextStops s (cmdOk t k n) k x := by
  have hp : (cmdOk t k n).pkg k = { t.pkg k with host := ((cmdOk t k n).pkg k).host } := by
    rw [pkg_cmdOk]
    exact cmdDone_host ..
  refine ⟨hs.waves, hs.others, ?_, ?_, ?_⟩
  · rw [hp]; exact hs.queues
  · rw [hp]; exact hs.launches
  · rw [hp]; exact hs.stopped
theorem ctxstop_stops (hst : c.stopped = false) : After (.ctxstop k h) s (fun t => Answered s t k 0 ∧ ContextStops s t k h.ctx) := by
  refine ⟨cmdOk (stopContext s k h.ctx .none 0 (s.firstLane k h.ctx).1 (s.firstLane k h.ctx).2) k 0, ?_, cmdOk_answers ?_ (by decide),
    (stopContext_stops ..).answered 0⟩
  · exact (onCtx_known hn hne hc _).trans (congrArg Host.Outcome.next (if_neg (by rw [hst]; decide)))
  · rw [stopContext_eq, hc]
    dsimp only
    rw [if_neg (by rw [hst]; decide)]
    refine (hostEvent_sameQueue ..).trans ?_
    unfold clearContext
    rw [State.pkg_modPkg_self]
    exact ⟨rfl, rfl, rfl, rfl, rfl⟩
theorem ctxfree_frees (hst : c.stopped = true) : After (.ctxfree k h) s (fun t => Answered s t k 0 ∧ PackageOnly s t k ∧
    flook (t.pkg k).ctxs h.ctx.toNat = none ∧ (∀ d, d ≠ h.ctx.toNat → flook (t.pkg k).ctxs d = flook (s.pkg k).ctxs d) ∧
    Untranslated t k h.ctx 0 (2 ^ 64)) := by
  let f : Pkg → Pkg := fun p => { p.invalidate h.ctx 0 (2 ^ 64) with
    ctxs := fdel p.ctxs h.ctx.toNat, sched := { p.sched with preempts := fdel p.sched.preempts h.ctx.toNat } }
  obtain ⟨h1, h2, h3⟩ := cmdOk_modPkg (s := s) (k := k) (n := 0) (f := f) (SameQueue.refl _) (by decide)
  refine ⟨cmdOk (s.modPkg k f) k 0, ?_, h1, h2, ?_, fun d hd => ?_, untranslated_of_invalidate (by rw [h3]) (by rw [h3])⟩
  · exact (onCtx_known hn hne hc _).trans (congrArg Host.Outcome.next (if_neg (by rw [hst]; decide)))
  · rw [h3]
    exact (flook_fdel ..).trans (if_pos rfl)
  · rw [h3]
    exact (flook_fdel ..).trans (if_neg hd)
end

/-! ### Pre-emption requests (R315) -/

theorem modPkg_congr {s : State} {k : Nat} {f g : Pkg → Pkg} (h : f (s.pkg k) = g (s.pkg k)) : s.modPkg k f = s.modPkg k g := by
  unfold State.modPkg
  rw [h]
theorem requests_setRequests (p : Pkg) (x : W32) (l : List Preempt) : fget [] (p.setRequests x l).sched.preempts x.toNat = l := by
  unfold Pkg.setRequests
  dsimp only
  split
  · next h => rw [fget_fdel_self, List.isEmpty_iff.1 h]
  · exact fget_fput_self ..
/-- What is still to be drained or evicted. -/
theorem preemptOver_modPkg (s : State) (k j : Nat) (f : Pkg → Pkg) (x : W32) (r : Preempt) : (s.modPkg k f).preemptOver j x r = s.preemptOver j x r := rfl
theorem preemptCheck_none {s : State} {k : Nat} {x : W32} (h : ∀ r ∈ (s.pkg k).requests x, s.preemptOver k x r = false) : s.preemptCheck k x = s := by
  unfold State.preemptCheck
  dsimp only
  rw [if_pos]
  rw [List.isEmpty_iff, List.filter_eq_nil_iff]
  intro r hr
  rw [h r hr]
  decide
theorem preemptCheck_one {s : State} {k : Nat} {x : W32} {r : Preempt} (h : (s.pkg k).requests x = [r]) (ho : s.preemptOver k x r = true) :
    s.preemptCheck k x = s.modPkg k (fun p => preemptEvent (p.setRequests x [{ r with stage := .over_, troupes := [] }]) x false) := by
  unfold State.preemptCheck
  dsimp only
  rw [h, List.filter_cons_of_pos ho, List.filter_nil, List.map_cons, List.map_nil, if_pos ho]
  rfl
section
variable {s : State} {k : Nat} {x : W32}

/-- Requests are written that have not come to their end. -/
theorem requests_kept {l : List Preempt} (h : ∀ r ∈ l, s.preemptOver k x r = false) :
    let t := cmdOk ((s.modPkg k (fun p => p.setRequests x l)).preemptCheck k x) k 0
    Answered s t k 0 ∧ PackageOnly s t k ∧ fget [] (t.pkg k).sched.preempts x.toNat = l := by
  have hr : ((s.modPkg k (fun p => p.setRequests x l)).pkg k).requests x = l := by
    rw [State.pkg_modPkg_self]
    exact requests_setRequests ..
  dsimp only
  rw [preemptCheck_none (by rw [hr]; exact h)]
  obtain ⟨h1, h2, h3⟩ := cmdOk_modPkg (s := s) (k := k) (n := 0) (f := fun p => p.setRequests x l) (SameQueue.refl _) (by decide)
  refine ⟨h1, h2, ?_⟩
  rw [h3]
  exact requests_setRequests ..
/-- A package that writes one event before the command is answered. -/
theorem answered_event {f : Pkg → Pkg} {q : Pkg} (hf : f (s.pkg k) = preemptEvent q x false) (hq : q.host = (s.pkg k).host) :
    let t := cmdOk (s.modPkg k f) k 0
    Answered s t k 0 ∧ PackageOnly s t k ∧ (t.pkg k).sched = q.sched ∧ (EventRoom s k → (t.pkg k).host.eqTail = (s.pkg k).host.eqTail + 1) := by
  have hsame : SameQueue (f (s.pkg k)).host (s.pkg k).host := by
    rw [hf, ← hq]
    exact mgmtEvent_sameQueue ..
  obtain ⟨h1, h2, h3⟩ := cmdOk_modPkg (s := s) (k := k) (n := 0) (f := f) hsame (by decide)
  refine ⟨h1, h2, ?_, fun hr => ?_⟩
  · rw [h3, hf]
    exact mgmtEvent_of_host (p := q) Pkg.sched (fun _ _ => rfl)
  · rw [pkg_cmdOk, cmdDone_events, State.pkg_modPkg_self]
    have := mgmtEvent_written (s := s) (t := s.modPkg k f) (p := q) (kind := 0x4E) (cls := 6) (unit := 0) hq
      ((State.pkg_modPkg_self ..).trans hf) (by decide) (by decide) hr
    rw [State.pkg_modPkg_self] at this
    exact this.1
/-- The one request is over as soon as it is written. -/
theorem request_ended {r : Preempt} (h : s.preemptOver k x r = true) :
    let t := cmdOk ((s.modPkg k (fun p => p.setRequests x [r])).preemptCheck k x) k 0
    Answered s t k 0 ∧ PackageOnly s t k ∧ fget [] (t.pkg k).sched.preempts x.toNat = [{ r with stage := .over_, troupes := [] }] ∧
      (EventRoom s k → (t.pkg k).host.eqTail = (s.pkg k).host.eqTail + 1) := by
  have hr : ((s.modPkg k (fun p => p.setRequests x [r])).pkg k).requests x = [r] := by
    rw [State.pkg_modPkg_self]
    exact requests_setRequests ..
  have hchk : (s.modPkg k (fun p => p.setRequests x [r])).preemptCheck k x =
      (s.modPkg k (fun p => p.setRequests x [r])).modPkg k (fun p => preemptEvent (p.setRequests x [{ r with stage := .over_, troupes := [] }]) x false) :=
    preemptCheck_one hr h
  dsimp only
  rw [hchk]
  obtain ⟨h1, h2, h3, h4⟩ := answered_event (s := s.modPkg k (fun p => p.setRequests x [r])) (k := k) (x := x)
    (f := fun p => preemptEvent (p.setRequests x [{ r with stage := .over_, troupes := [] }]) x false) rfl rfl
  have hhost : ((s.modPkg k (fun p => p.setRequests x [r])).pkg k).host = (s.pkg k).host := by
    rw [State.pkg_modPkg_self]
    rfl
  refine ⟨?_, ⟨h2.1.trans rfl, fun j hj => (h2.2 j hj).trans (by rw [State.pkg_modPkg, if_neg hj])⟩, ?_, ?_⟩
  · refine cmdOk_answers ?_ (by decide)
    rw [State.pkg_modPkg_self]
    exact (mgmtEvent_sameQueue ..).trans (by rw [show ∀ q : Pkg, ∀ l, (q.setRequests x l).host = q.host from fun _ _ => rfl, hhost]; exact SameQueue.refl _)
  · rw [h3]
    exact requests_setRequests ..
  · unfold EventRoom at h4
    rw [hhost] at h4
    exact h4
/-- A drain that is left with no cluster ends. -/
theorem drain_emptied :
    let t := cmdOk ((s.modPkg k (fun p => preemptEvent (p.setRequests x []) x false)).preemptCheck k x) k 0
    Answered s t k 0 ∧ PackageOnly s t k ∧ fget [] (t.pkg k).sched.preempts x.toNat = [] ∧
      (EventRoom s k → (t.pkg k).host.eqTail = (s.pkg k).host.eqTail + 1) := by
  have hr : ((s.modPkg k (fun p => preemptEvent (p.setRequests x []) x false)).pkg k).requests x = [] := by
    rw [State.pkg_modPkg_self, Pkg.requests]
    rw [show (preemptEvent ((s.pkg k).setRequests x []) x false).sched = ((s.pkg k).setRequests x []).sched from mgmtEvent_of_host Pkg.sched (fun _ _ => rfl)]
    exact requests_setRequests ..
  dsimp only
  rw [preemptCheck_none (by rw [hr]; exact fun r h => absurd h List.not_mem_nil)]
  obtain ⟨h1, h2, h3, h4⟩ := answered_event (s := s) (k := k) (x := x) (f := fun p => preemptEvent (p.setRequests x []) x false) rfl rfl
  exact ⟨h1, h2, by rw [h3]; exact requests_setRequests .., h4⟩
end

/-! ### PREEMPT and PREEND -/

theorem deadline_some {v : W64} {hi : Nat} (dflt : Nat) (h : v = 0 ∨ (1000 ≤ v.toNat ∧ v.toNat ≤ hi)) :
    deadline v dflt hi = some (if v = 0 then dflt else v.toNat) := by
  unfold deadline
  by_cases h0 : v = 0
  · rw [if_pos h0, if_pos h0]
  · rw [if_neg h0, if_neg h0, if_pos (h.resolve_left h0)]
theorem deadline_none {v : W64} {hi : Nat} (dflt : Nat) (h : ¬ (v = 0 ∨ (1000 ≤ v.toNat ∧ v.toNat ≤ hi))) : deadline v dflt hi = none := by
  unfold deadline
  rw [if_neg (fun h0 => h (.inl h0)), if_neg (fun h1 => h (.inr h1))]
/-- The request that PREEMPT begins. -/
def begunRequest (s : State) (k : Nat) (h : HArgs) : Preempt :=
  ⟨h.a0.setWidth 4, 0, .drain, (s.pkg k).fab.caltime.toNat + (if h.a1 = 0 then 50000 else h.a1.toNat), if h.a2 = 0 then 20000 else h.a2.toNat, 0, []⟩
/-- A request's clusters still hold troupes of its context. -/
def StillDraining (s : State) (k : Nat) (x : W32) (r : Preempt) : Prop := r.stage = .drain ∧ s.onClusters k x (r.mask &&& ~~~ r.openMask) ≠ []
theorem preemptOver_of_draining {s : State} {k : Nat} {x : W32} {r : Preempt} (h : StillDraining s k x r) : s.preemptOver k x r = false := by
  unfold State.preemptOver
  rw [h.1]
  dsimp only
  rw [Bool.eq_false_iff, ne_eq, List.isEmpty_iff]
  exact h.2
theorem preemptOver_of_drained {s : State} {k : Nat} {x : W32} {r : Preempt} (hs : r.stage = .drain) (h : ¬ StillDraining s k x r) : s.preemptOver k x r = true := by
  unfold State.preemptOver
  rw [hs]
  dsimp only
  rw [List.isEmpty_iff]
  by_contra hne
  exact h ⟨hs, hne⟩
section
variable {s : State} {k : Nat} {h : HArgs} {c : Ctx} (hn : (s.pkg k).hostChange = false) (hne : h.ctx ≠ 0xFFFFFFFF)
  (hc : flook (s.pkg k).ctxs h.ctx.toNat = some c)
include hn hne hc

theorem preempt_eq (h0 : h.a0.toNat < 16) (h1 : h.a1 = 0 ∨ (1000 ≤ h.a1.toNat ∧ h.a1.toNat ≤ 10000000))
    (h2 : h.a2 = 0 ∨ (1000 ≤ h.a2.toNat ∧ h.a2.toNat ≤ 1000000)) : exec (.preempt k h) s = .next (cmdOk ((s.modPkg k (fun p => p.setRequests h.ctx
      ((s.pkg k).requests h.ctx ++ [begunRequest s k h]))).preemptCheck k h.ctx) k 0) := by
  refine (onCtx_known hn hne hc _).trans ?_
  rw [deadline_some 50000 h1, deadline_some 20000 h2]
  dsimp only
  rw [if_neg (by omega)]
  rfl
theorem preempt_refused (hl : ¬ (h.a0.toNat < 16 ∧ (h.a1 = 0 ∨ (1000 ≤ h.a1.toNat ∧ h.a1.toNat ≤ 10000000)) ∧
    (h.a2 = 0 ∨ (1000 ≤ h.a2.toNat ∧ h.a2.toNat ≤ 1000000)))) : exec (.preempt k h) s = .next (cmdOk s k 2) := by
  refine (onCtx_known hn hne hc _).trans ?_
  by_cases h1 : h.a1 = 0 ∨ (1000 ≤ h.a1.toNat ∧ h.a1.toNat ≤ 10000000)
  · rw [deadline_some 50000 h1]
    by_cases h2 : h.a2 = 0 ∨ (1000 ≤ h.a2.toNat ∧ h.a2.toNat ≤ 1000000)
    · rw [deadline_some 20000 h2]
      dsimp only
      rw [if_pos (by by_contra hlt; exact hl ⟨by omega, h1, h2⟩)]
    · rw [deadline_none 20000 h2]
  · rw [deadline_none 50000 h1]

/-- A request with clusters opened. -/
def openedRequest (h : HArgs) (r : Preempt) : Preempt := { r with openMask := r.openMask ||| h.a0.setWidth 4 }
theorem preend_eq (h0 : h.a0.toNat < 16) : exec (.preend k h) s = .next (cmdOk ((s.modPkg k (fun p =>
    ((((s.pkg k).requests h.ctx).map (openedRequest h)).filter (fun r => r.left == 0 && r.stage == .drain)).foldl (fun p _ => preemptEvent p h.ctx false)
      (p.setRequests h.ctx ((((s.pkg k).requests h.ctx).map (openedRequest h)).filter (fun r => !(r.left == 0 && r.stage != .evict)))))).preemptCheck k h.ctx) k 0) := by
  refine (onCtx_known hn hne hc _).trans ?_
  rw [if_neg (by omega)]
  rfl
/-- Requests of which none is emptied are written back with their clusters opened. -/
theorem preend_kept_eq (h0 : h.a0.toNat < 16) {l kept : List Preempt} (hl : (s.pkg k).requests h.ctx = l)
    (hout : ∀ r ∈ l, ¬ ((openedRequest h r).left = 0 ∧ r.stage = .drain))
    (hkept : (l.map (openedRequest h)).filter (fun r => !(r.left == 0 && r.stage != .evict)) = kept) :
    exec (.preend k h) s = .next (cmdOk ((s.modPkg k (fun p => p.setRequests h.ctx kept)).preemptCheck k h.ctx) k 0) := by
  have hnone : (l.map (openedRequest h)).filter (fun r => r.left == 0 && r.stage == .drain) = [] := by
    rw [List.filter_eq_nil_iff]
    intro r hr
    obtain ⟨y, hy, rfl⟩ := List.mem_map.1 hr
    rw [Bool.and_eq_true, beq_iff_eq, beq_iff_eq]
    exact hout y hy
  refine (preend_eq hn hne hc h0).trans ?_
  rw [hl, hnone, hkept]
  rfl
theorem preend_nothing (h0 : h.a0.toNat < 16) (hl : flook (s.pkg k).sched.preempts h.ctx.toNat = none) :
    After (.preend k h) s (fun t => AnsweredOnly s t k 0) := by
  have hreq : (s.pkg k).requests h.ctx = [] := by rw [Pkg.requests, fget_eq_flook, hl]; rfl
  have hset : (s.pkg k).setRequests h.ctx [] = s.pkg k := by
    show ({ s.pkg k with sched := { (s.pkg k).sched with preempts := fdel (s.pkg k).sched.preempts h.ctx.toNat } } : Pkg) = s.pkg k
    rw [fdel_of_flook_none hl]
  obtain ⟨h1, h2, -⟩ := requests_kept (s := s) (k := k) (x := h.ctx) (l := []) (fun r hr => absurd hr List.not_mem_nil)
  refine ⟨cmdOk ((s.modPkg k (fun p => p.setRequests h.ctx [])).preemptCheck k h.ctx) k 0, (preend_eq hn hne hc h0).trans ?_, h1, h2, ?_⟩
  · rw [hreq]
    rfl
  · rw [preemptCheck_none (by
      rw [State.pkg_modPkg_self]
      intro r hr
      rw [Pkg.requests, requests_setRequests] at hr
      exact absurd hr List.not_mem_nil), pkg_cmdOk, State.pkg_modPkg_self, hset]
    exact cmdDone_host ..
/-- A drain is left with no cluster: its request ends and is reported. -/
theorem preend_empties (h0 : h.a0.toNat < 16) {r : Preempt} (hl : (s.pkg k).requests h.ctx = [r]) (hd : r.stage = .drain)
    (h1 : (openedRequest h r).left = 0) : After (.preend k h) s (fun t => Answered s t k 0 ∧ PackageOnly s t k ∧
      fget [] (t.pkg k).sched.preempts h.ctx.toNat = [] ∧ (EventRoom s k → (t.pkg k).host.eqTail = (s.pkg k).host.eqTail + 1)) := by
  have hstage : (openedRequest h r).stage = .drain := hd
  refine ⟨_, (preend_eq hn hne hc h0).trans ?_, drain_emptied⟩
  rw [hl]
  simp only [List.map_cons, List.map_nil, List.filter_cons, List.filter_nil, h1, hstage]
  rfl
omit hn hne hc in
theorem filter_kept {l : List Preempt} (hk : ∀ r ∈ l, r.left = 0 → r.stage = .evict) : l.filter (fun r => !(r.left == 0 && r.stage != .evict)) = l := by
  rw [List.filter_eq_self]
  intro r hr
  by_cases h0 : r.left = 0
  · rw [hk r hr h0]
    simp
  · rw [beq_false_of_ne h0]
    rfl
/-- PREEND on one drain. -/
theorem preend_drain (h0 : h.a0.toNat < 16) {r : Preempt} (hl : (s.pkg k).requests h.ctx = [r]) (hd : r.stage = .drain)
    (h1 : (openedRequest h r).left ≠ 0) : After (.preend k h) s (fun t => Answered s t k 0 ∧ PackageOnly s t k ∧
      (StillDraining s k h.ctx (openedRequest h r) → fget [] (t.pkg k).sched.preempts h.ctx.toNat = [openedRequest h r]) ∧
      (¬ StillDraining s k h.ctx (openedRequest h r) →
        fget [] (t.pkg k).sched.preempts h.ctx.toNat = [{ openedRequest h r with stage := .over_, troupes := [] }] ∧
        (EventRoom s k → (t.pkg k).host.eqTail = (s.pkg k).host.eqTail + 1))) := by
  have he := preend_kept_eq hn hne hc h0 hl (kept := [openedRequest h r]) (fun y hy => by rw [List.mem_singleton.1 hy]; exact fun hx => h1 hx.1)
    (filter_kept fun y hy h0 => absurd (by rw [List.mem_singleton.1 hy] at h0; exact h0) h1)
  by_cases hb : StillDraining s k h.ctx (openedRequest h r)
  · obtain ⟨a1, a2, a3⟩ := requests_kept (s := s) (k := k) (x := h.ctx) (l := [openedRequest h r])
      (fun y hy => by rw [List.mem_singleton.1 hy]; exact preemptOver_of_draining hb)
    exact ⟨_, he, a1, a2, fun _ => a3, fun hx => absurd hb hx⟩
  · obtain ⟨a1, a2, a3, a4⟩ := request_ended (preemptOver_of_drained (r := openedRequest h r) hd hb)
    exact ⟨_, he, a1, a2, fun hx => absurd hx hb, fun _ => ⟨a3, a4⟩⟩
/-- PREEND on one eviction, which runs on while a troupe that it named is on its core. -/
theorem preend_evict (h0 : h.a0.toNat < 16) {r : Preempt} (hl : (s.pkg k).requests h.ctx = [r]) (hd : r.stage = .evict) :
    After (.preend k h) s (fun t => Answered s t k 0 ∧ PackageOnly s t k ∧
      ((∃ n ∈ r.troupes, (s.troupe n).st.onCore = true) → fget [] (t.pkg k).sched.preempts h.ctx.toNat = [openedRequest h r])) := by
  have hstage : (openedRequest h r).stage = .evict := hd
  have he := preend_kept_eq hn hne hc h0 hl (kept := [openedRequest h r])
    (fun y hy => by rw [List.mem_singleton.1 hy, hd]; exact fun hx => absurd hx.2 (by decide))
    (filter_kept fun y hy _ => by rw [List.mem_singleton.1 hy, hstage])
  have hover : s.preemptOver k h.ctx (openedRequest h r) = r.troupes.all (fun t => !(s.troupe t).st.onCore) := by
    unfold State.preemptOver
    rw [hstage]
    rfl
  by_cases hon : ∃ n ∈ r.troupes, (s.troupe n).st.onCore = true
  · obtain ⟨a1, a2, a3⟩ := requests_kept (s := s) (k := k) (x := h.ctx) (l := [openedRequest h r]) (fun y hy => by
      rw [List.mem_singleton.1 hy, hover, List.all_eq_false]
      obtain ⟨n, hm, hx⟩ := hon
      exact ⟨n, hm, by rw [hx]; decide⟩)
    exact ⟨_, he, a1, a2, fun _ => a3⟩
  · obtain ⟨a1, a2, -⟩ := request_ended (s := s) (k := k) (x := h.ctx) (r := openedRequest h r) (by
      rw [hover, List.all_eq_true]
      intro n hm
      rw [Bool.eq_false_iff.2 fun hx => hon ⟨n, hm, hx⟩]
      rfl)
    exact ⟨_, he, a1, a2, fun hx => absurd hx hon⟩
/-- PREEND on a request that has been over. -/
theorem preend_over (h0 : h.a0.toNat < 16) {r : Preempt} (hl : (s.pkg k).requests h.ctx = [r]) (hd : r.stage = .over_) :
    After (.preend k h) s (fun t => Answered s t k 0 ∧ PackageOnly s t k ∧
      fget [] (t.pkg k).sched.preempts h.ctx.toNat = if (openedRequest h r).left = 0 then [] else [openedRequest h r]) := by
  have hstage : (openedRequest h r).stage = .over_ := hd
  have hkept : ([r].map (openedRequest h)).filter (fun r => !(r.left == 0 && r.stage != .evict)) =
      if (openedRequest h r).left = 0 then [] else [openedRequest h r] := by
    by_cases hz : (openedRequest h r).left = 0
    · rw [if_pos hz, List.filter_eq_nil_iff]
      intro y hy
      rw [List.mem_singleton.1 hy, hz, hstage]
      decide
    · rw [if_neg hz]
      exact filter_kept fun y hy h0 => absurd (by rw [List.mem_singleton.1 hy] at h0; exact h0) hz
  have he := preend_kept_eq hn hne hc h0 hl (fun y hy => by rw [List.mem_singleton.1 hy, hd]; exact fun hx => absurd hx.2 (by decide)) hkept
  refine ⟨_, he, requests_kept fun y hy => ?_⟩
  have hy' : y = openedRequest h r := by
    split at hy
    · exact absurd hy List.not_mem_nil
    · exact List.mem_singleton.1 hy
  rw [hy', State.preemptOver, hstage]
/-- PREEND on two drains that go on. -/
theorem preend_pair (h0 : h.a0.toNat < 16) {r1 r2 : Preempt} (hl : (s.pkg k).requests h.ctx = [r1, r2]) (hb1 : StillDraining s k h.ctx (openedRequest h r1))
    (hb2 : StillDraining s k h.ctx (openedRequest h r2)) (h1 : (openedRequest h r1).left ≠ 0) (h2 : (openedRequest h r2).left ≠ 0) :
    After (.preend k h) s (fun t => Answered s t k 0 ∧ fget [] (t.pkg k).sched.preempts h.ctx.toNat = [openedRequest h r1, openedRequest h r2]) := by
  have both : ∀ {P : Preempt → Prop} {a b : Preempt}, P a → P b → ∀ y ∈ [a, b], P y := fun ha hb y hy =>
    (List.mem_cons.1 hy).elim (fun e => e ▸ ha) (fun e => List.mem_singleton.1 e ▸ hb)
  have he := preend_kept_eq hn hne hc h0 hl (kept := [openedRequest h r1, openedRequest h r2])
    (both (P := fun r => ¬ ((openedRequest h r).left = 0 ∧ r.stage = .drain)) (fun hx => h1 hx.1) (fun hx => h2 hx.1))
    (filter_kept (both (P := fun r => r.left = 0 → r.stage = .evict) (fun hx => absurd hx h1) (fun hx => absurd hx h2)))
  obtain ⟨a1, -, a3⟩ := requests_kept (s := s) (k := k) (x := h.ctx) (l := [openedRequest h r1, openedRequest h r2])
    (both (P := fun r => s.preemptOver k h.ctx r = false) (preemptOver_of_draining hb1) (preemptOver_of_draining hb2))
  exact ⟨_, he, a1, a3⟩
end

/-! ### RESUME (R313, R320) -/

theorem leNat_lt (bs : List Byte) : leNat bs < 256 ^ bs.length := by
  induction bs with
  | nil => exact Nat.one_pos
  | cons b bs ih =>
    have hb := b.isLt
    rw [leNat, List.length_cons, pow_succ]
    omega
theorem field_lt (bs : List Byte) (off : Nat) : field bs off 4 < 2 ^ 32 := by
  have h := leNat_lt ((bs.drop off).take 4)
  have hl : ((bs.drop off).take 4).length ≤ 4 := List.length_take_le ..
  exact lt_of_lt_of_le h (Nat.pow_le_pow_right (by decide) hl)
/-- A field of a record in an array of records of 32 bytes. -/
theorem field_record (bs : List Byte) (l : Nat) {off n : Nat} (h : off + n ≤ 32) : field ((bs.drop (32 * l)).take 32) off n = field bs (32 * l + off) n := by
  unfold field
  rw [List.drop_take, List.take_take, List.drop_drop, Nat.min_eq_left (by omega)]
theorem laneRecBad_iff (bs : List Byte) (l : Nat) : laneRecBad ((bs.drop (32 * l)).take 32) = true ↔
    (field bs (32 * l + 20) 4 / 4 % 2 ^ 23 ≠ 0 ∨ 4 < field bs (32 * l + 20) 4 / 2 ^ 29 ∨ field bs (32 * l + 24) 4 / 2 ^ 5 ≠ 0 ∨ field bs (32 * l + 28) 4 ≠ 0) := by
  have h1 := field_lt bs (32 * l + 20)
  have h2 := field_lt bs (32 * l + 24)
  unfold laneRecBad nbits
  simp only [field_record bs l (show 20 + 4 ≤ 32 by decide), field_record bs l (show 24 + 4 ≤ 32 by decide), field_record bs l (show 28 + 4 ≤ 32 by decide),
    Nat.shiftRight_eq_div_pow, Bool.or_eq_true, bne_iff_ne, decide_eq_true_eq, or_assoc]
  rw [Nat.mod_eq_of_lt (show field bs (32 * l + 20) 4 / 2 ^ 29 < 2 ^ (31 + 1 - 29) by omega),
    Nat.mod_eq_of_lt (show field bs (32 * l + 24) 4 / 2 ^ 5 < 2 ^ (31 + 1 - 5) by omega)]
section
variable {s : State} {k : Nat} {h : HArgs} {c : Ctx} (hn : (s.pkg k).hostChange = false) (hne : h.ctx ≠ 0xFFFFFFFF)
  (hc : flook (s.pkg k).ctxs h.ctx.toNat = some c)
include hn hne hc

theorem resume_refused (hl : ¬ (h.a0.toNat < 2 ^ 40 ∧ h.a1.toNat < 32)) : exec (.resume k h) s = .next (cmdOk s k 2) := by
  refine (onCtx_known hn hne hc _).trans ?_
  rw [if_pos (by omega)]
variable (hl : h.a0.toNat < 2 ^ 40 ∧ h.a1.toNat < 32)
include hl
theorem resume_none (hw : s.suspended k h.ctx h.a0.toNat (h.a1.toNat % 16) (h.a1.getLsbD 4) = none) : exec (.resume k h) s = .next (cmdOk s k 1) := by
  refine (onCtx_known hn hne hc _).trans ?_
  rw [if_neg (by omega), hw]
variable {w : Nat} (hw : s.suspended k h.ctx h.a0.toNat (h.a1.toNat % 16) (h.a1.getLsbD 4) = some w)
include hw
theorem resume_plain (h2 : h.a2 = 0) : exec (.resume k h) s = .next (cmdOk (s.modWave w (fun v => { v with susp := false })) k 0) := by
  refine (onCtx_known hn hne hc _).trans ?_
  rw [if_neg (by omega), hw]
  dsimp only
  rw [if_pos h2]
theorem resume_unread (h2 : h.a2 ≠ 0) (hf : s.devFetch k h.ctx h.a2 1024 = none) : exec (.resume k h) s = .next (cmdOk s k 2) := by
  refine (onCtx_known hn hne hc _).trans ?_
  rw [if_neg (by omega), hw]
  dsimp only
  rw [if_neg h2, hf]
theorem resume_records (h2 : h.a2 ≠ 0) {bs : List Byte} (hf : s.devFetch k h.ctx h.a2 1024 = some bs) : exec (.resume k h) s =
    .next (if (List.range 32).any (fun l => laneRecBad ((bs.drop (32 * l)).take 32)) then cmdOk s k 2
      else cmdOk (s.modWave w (fun v => { (v.upd (lanesOf v.live) (fun l x => x.fromRecord ((bs.drop (32 * l)).take 32))) with susp := false })) k 0) := by
  refine (onCtx_known hn hne hc _).trans ?_
  rw [if_neg (by omega), hw]
  dsimp only
  rw [if_neg h2, hf]
end
/-- A change of a wave after which the command is answered. -/
theorem cmdOk_modWave (s : State) (k w : Nat) (f : Wave → Wave) : Answered s (cmdOk (s.modWave w f) k 0) k 0 ∧
    (∀ v, v ≠ w → (cmdOk (s.modWave w f) k 0).wave v = s.wave v) ∧ (cmdOk (s.modWave w f) k 0).wave w = f (s.wave w) := by
  obtain ⟨-, h2, h3⟩ := modWave_passes s w f
  exact ⟨cmdOk_answers (u := s.modWave w f) (SameQueue.refl _) (by decide), h2, h3⟩
theorem fromRecord_eq (x : Lane) (bs : List Byte) (l : Nat) : x.fromRecord ((bs.drop (32 * l)).take 32) =
    { x with movedPc := x.movedPc || decide (BitVec.ofNat 64 (field bs (32 * l) 8) &&& ~~~ 1#64 ≠ x.trapPc),
             trapPc := BitVec.ofNat 64 (field bs (32 * l) 8) &&& ~~~ 1#64, trapVa := BitVec.ofNat 64 (field bs (32 * l + 8) 8),
             trapCause := BitVec.ofNat 32 (field bs (32 * l + 16) 4) } := by
  have hb : ∀ a b : W64, (a != b) = decide (a ≠ b) := fun a b => by
    rw [Bool.eq_iff_iff, bne_iff_ne, decide_eq_true_eq]
  unfold Lane.fromRecord
  simp only [field_record bs l (show 0 + 8 ≤ 32 by decide), field_record bs l (show 8 + 8 ≤ 32 by decide), field_record bs l (show 16 + 4 ≤ 32 by decide),
    Nat.add_zero, hb]
/-- The live lanes of a resumed wave take their records. -/
theorem lane_resumed (v : Wave) (bs : List Byte) {l : Nat} (hl : l < 32) :
    (v.upd (lanesOf v.live) (fun l x => x.fromRecord ((bs.drop (32 * l)).take 32))).lane l =
      if (v.lane l).st = .exit then v.lane l else (v.lane l).fromRecord ((bs.drop (32 * l)).take 32) := by
  rw [Wave.lane_upd _ _ _ _ (lanesOf_nodup _)]
  simp only [mem_lanesOf, live_getLsbD, hl, decide_true, Bool.true_and, bne_iff_ne, ne_eq, ite_not]

/-- Settles O53, from the laws of answered commands, of requests that are kept or end, and of records taken up. -/
theorem contextCommands : Obligations.ContextCommands := by
  unfold Obligations.ContextCommands
  intro s k h p answers known
  have ans : ∀ {i : Instr} {n : Nat}, n < 2 ^ 32 → exec i s = .next (cmdOk s k n) → answers i n := fun hn hi => ⟨_, hi, cmdOk_only s k hn⟩
  refine ⟨fun hc => busy_commands hc h, fun hn => ⟨fun hk => unknown_commands hn hk, ⟨fun hl => ?_, fun hl hk => ?_, fun hl hk => ?_⟩, fun c hne hc => ?_⟩⟩
  · exact ctxnew_refused hn 2 (by decide) (.inl ⟨Bool.eq_false_iff.2 (mt (ctxArgsOk_iff h).1 hl), rfl⟩)
  · obtain ⟨c, hc⟩ := Option.ne_none_iff_exists'.1 hk.2
    exact ctxnew_refused hn 1 (by decide) (.inr ⟨(ctxArgsOk_iff h).2 hl, ⟨c, ctx?_eq_some hk.1 hc⟩, rfl⟩)
  · obtain ⟨t, ht, h1, h2, h3, h4⟩ := ctxnew_new hn ((ctxArgsOk_iff h).2 hl) hk
    exact ⟨t, ht, h1, h2, h3, _, h4, rfl, rfl, rfl, rfl, rfl, rfl, rfl, rfl, rfl, rfl, rfl⟩
  · refine ⟨fun e0 e1 e2 => ?_, fun he => ?_, fun hst => ?_, fun hst => ctxstop_stops hn hne hc hst, fun hst => ?_, fun hst => ctxfree_frees hn hne hc hst,
      fun hal => ?_, fun h0 h1 => ?_, ?_, ?_⟩
    · refine modCtx_becomes (f := fun c => { c with sysh := h.a0, saveh := h.a1, resth := h.a2 }) hc ((ctxentry_eq hn hne hc).trans ?_)
      rw [if_pos]
      simp only [List.all_cons, List.all_nil, Bool.and_true, Bool.and_eq_true, entryOk_iff]
      exact ⟨e0, e1, e2⟩
    · refine ans (by decide) ((ctxentry_eq hn hne hc).trans ?_)
      rw [if_neg]
      simp only [List.all_cons, List.all_nil, Bool.and_true, Bool.and_eq_true, entryOk_iff]
      exact he
    · exact ans (by decide) ((onCtx_known hn hne hc _).trans (congrArg Host.Outcome.next (if_pos hst)))
    · exact ans (by decide) ((onCtx_known hn hne hc _).trans (congrArg Host.Outcome.next (if_pos (by rw [hst]; rfl))))
    · refine ans (by decide) ((ctxevt_eq hn hne hc).trans ?_)
      rw [if_pos (by rwa [← not_and_or])]
    · refine modCtx_becomes (f := fun c => { c with evBase := h.a0, evBytes := if h.a0 = 0 then 0 else h.a1 }) hc ((ctxevt_eq hn hne hc).trans ?_)
      rw [if_neg (by rintro (h2 | h2); exacts [h2 h0, h2 h1])]
    · refine ⟨fun hl => ans (by decide) (preempt_refused hn hne hc hl), fun hl hb ho => ?_, fun hl hb ho => ?_, fun h0 => ?_,
        fun h0 hl => preend_nothing hn hne hc h0 hl, fun r h0 ho => ?_, fun r1 r2 h0 ho hb1 hb2 hl1 hl2 => ?_⟩
      · exact ⟨_, preempt_eq hn hne hc hl.1 hl.2.1 hl.2.2, requests_kept fun r hr => (List.mem_append.1 hr).elim
          (fun hr => preemptOver_of_draining (ho r hr)) (fun hr => List.mem_singleton.1 hr ▸ preemptOver_of_draining hb)⟩
      · have hreq : (s.pkg k).requests h.ctx = [] := ho
        have he := preempt_eq hn hne hc hl.1 hl.2.1 hl.2.2
        rw [hreq, List.nil_append] at he
        obtain ⟨h1, -, h3, h4⟩ := request_ended (s := s) (k := k) (x := h.ctx) (r := begunRequest s k h) (preemptOver_of_drained rfl hb)
        exact ⟨_, he, h1, ⟨_, h3, rfl⟩, fun _ => h4⟩
      · exact ans (by decide) ((onCtx_known hn hne hc _).trans (congrArg Host.Outcome.next (if_pos h0)))
      · cases hst : r.stage with
        | drain =>
          by_cases hleft : (openedRequest h r).left = 0
          · obtain ⟨t, ht, h1, h2, h3, h4⟩ := preend_empties hn hne hc h0 ho hst hleft
            exact ⟨t, ht, h1, h2, fun _ _ => ⟨h3, fun _ => h4⟩, fun _ hx => absurd hleft hx, fun _ hx => absurd hleft hx, fun hx => absurd hx (by decide),
              fun hx => absurd hx (by decide)⟩
          · obtain ⟨t, ht, h1, h2, h3, h4⟩ := preend_drain hn hne hc h0 ho hst hleft
            exact ⟨t, ht, h1, h2, fun _ hx => absurd hx hleft, fun _ _ hb => h3 hb, fun _ _ hb => ⟨⟨_, (h4 hb).1, rfl, rfl⟩, fun _ => (h4 hb).2⟩,
              fun hx => absurd hx (by decide), fun hx => absurd hx (by decide)⟩
        | evict =>
          obtain ⟨t, ht, h1, h2, h3⟩ := preend_evict hn hne hc h0 ho hst
          exact ⟨t, ht, h1, h2, fun hx => absurd hx (by decide), fun hx => absurd hx (by decide), fun hx => absurd hx (by decide), fun _ => h3,
            fun hx => absurd hx (by decide)⟩
        | over_ =>
          obtain ⟨t, ht, h1, h2, h3⟩ := preend_over hn hne hc h0 ho hst
          exact ⟨t, ht, h1, h2, fun hx => absurd hx (by decide), fun hx => absurd hx (by decide), fun hx => absurd hx (by decide),
            fun hx => absurd hx (by decide), fun _ => h3⟩
      · exact preend_pair hn hne hc h0 ho hb1 hb2 hl1 hl2
    · refine ⟨fun hl => ans (by decide) (resume_refused hn hne hc hl), fun hl hw => ans (by decide) (resume_none hn hne hc hl hw), fun w hl hw => ⟨fun h2 => ?_, fun h2 hf => ?_, fun bs h2 hf => ?_⟩⟩
      · exact ⟨_, resume_plain hn hne hc hl hw h2, cmdOk_modWave ..⟩
      · exact ans (by decide) (resume_unread hn hne hc hl hw h2 hf)
      · have he := resume_records hn hne hc hl hw h2 hf
        have hbad : (List.range 32).any (fun l => laneRecBad ((bs.drop (32 * l)).take 32)) = true ↔ ∃ l, l < 32 ∧
            (field bs (32 * l + 20) 4 / 4 % 2 ^ 23 ≠ 0 ∨ 4 < field bs (32 * l + 20) 4 / 2 ^ 29 ∨ field bs (32 * l + 24) 4 / 2 ^ 5 ≠ 0 ∨ field bs (32 * l + 28) 4 ≠ 0) := by
          rw [List.any_eq_true]
          simp only [List.mem_range, laneRecBad_iff]
        refine ⟨fun hb => ans (by decide) (he.trans (by rw [if_pos (hbad.2 hb)])), fun hb => ?_⟩
        rw [if_neg (mt hbad.1 hb)] at he
        obtain ⟨h1, h2', h3⟩ := cmdOk_modWave s k w (fun v => { (v.upd (lanesOf v.live) (fun l x => x.fromRecord ((bs.drop (32 * l)).take 32))) with susp := false })
        refine ⟨_, he, h1, h2', by rw [h3], fun l hl32 => ?_⟩
        unfold State.lane
        rw [h3]
        refine (lane_resumed (s.wave w) bs hl32).trans ?_
        rw [fromRecord_eq]

end Sys2Proof
end

-- ==== Sys2Proof/Proofs/DeviceCommands.lean ====

-- ==== Sys2Proof/Proofs/DeviceCommands.lean ====
section
/-! SUPPORT. The host commands on plans, the reel, handlers, the fabric and tables (R355, R357, R370, R379, R389, R431). -/

namespace Sys2Proof

open Machine

theorem nbits_low (x hi : Nat) : nbits x hi 0 = x % 2 ^ (hi + 1) := rfl
theorem nbits_div (x hi lo : Nat) : nbits x hi lo = x / 2 ^ lo % 2 ^ (hi + 1 - lo) := congrArg (· % _) (Nat.shiftRight_eq_div_pow ..)

/-! ### The fabric's commands -/

/-- A valid byte of a master list. -/
def masterByte (v : W64) (i : Nat) : Option Nat :=
  let b := v.toNat / 2 ^ (8 * i) % 2 ^ 8
  if 128 ≤ b then some (b - 128) else none
theorem mastersOf_eq (v : W64) : mastersOf v = (List.range 4).filterMap (masterByte v) := by
  refine List.filterMap_congr fun i _ => ?_
  have hdiv : v.toNat / 2 ^ (8 * i + 7) = v.toNat / 2 ^ (8 * i) / 128 := by rw [Nat.div_div_eq_div_mul, pow_add]; rfl
  have hbit : v.getLsbD (8 * i + 7) = decide (128 ≤ v.toNat / 2 ^ (8 * i) % 2 ^ 8) := by
    rw [BitVec.getLsbD, Nat.testBit_eq_decide_div_mod_eq, hdiv]
    exact decide_eq_decide.2 (by omega)
  unfold masterByte
  rw [hbit, nbits_div, show 8 * i + 6 + 1 - 8 * i = 7 by omega]
  by_cases h : 128 ≤ v.toNat / 2 ^ (8 * i) % 2 ^ 8
  · rw [if_pos (decide_eq_true h), if_pos h]
    exact congrArg some (by omega)
  · rw [if_neg (by simpa using h), if_neg h]
theorem followMaster_masters (p : Pkg) (k : Nat) : (p.followMaster k).fab.masters = p.fab.masters ∧ SameQueue (p.followMaster k).host p.host := by
  unfold Pkg.followMaster
  split
  · exact ⟨rfl, SameQueue.refl _⟩
  · split
    · split
      · exact ⟨rfl, SameQueue.refl _⟩
      · exact ⟨rfl, SameQueue.refl _⟩
    · next m _ =>
      dsimp only
      split
      · exact ⟨rfl, SameQueue.refl _⟩
      · refine ⟨?_, mgmtEvent_sameQueue ..⟩
        unfold mgmtEvent writeEvent
        dsimp only
        split
        · rfl
        · split <;> rfl
section
variable {s : State} {k : Nat} {h : HArgs} (hn : (s.pkg k).hostChange = false)
include hn

theorem fctlset_refused (ha : 2 ^ 32 ≤ h.a0.toNat) : exec (.fctlset k h) s = .next (cmdOk s k 2) := by
  refine Eq.trans (show _ = execFctlset k h s from rfl) ?_
  rw [execFctlset, if_neg (by rw [hn]; decide), if_pos ha]
theorem fctlset_writes (ha : h.a0.toNat < 2 ^ 32) : exec (.fctlset k h) s =
    .next (cmdOk (s.modPkg k (fun p => { p with fab := { p.fab with fctl := lo32 h.a0 &&& fctlMask } })) k 0) := by
  refine Eq.trans (show _ = execFctlset k h s from rfl) ?_
  rw [execFctlset, if_neg (by rw [hn]; decide), if_neg (by omega)]

/-- The master lists that the command takes. -/
def mastersLegal (s : State) (k : Nat) (h : HArgs) : Prop := h.a0.toNat < 2 ^ 32 ∧ mastersOf h.a0 ≠ [] ∧ ∀ q ∈ mastersOf h.a0, q < (s.pkg k).podsize
omit hn in
theorem mastersLegal_iff : (2 ^ 32 ≤ h.a0.toNat || (mastersOf h.a0).isEmpty || (mastersOf h.a0).any (fun q => decide ((s.pkg k).podsize ≤ q))) = true ↔
    ¬ mastersLegal s k h := by
  unfold mastersLegal
  rw [Bool.or_eq_true, Bool.or_eq_true, decide_eq_true_eq, List.isEmpty_iff, List.any_eq_true, not_and_or, not_and_or, not_lt, not_not, or_assoc]
  simp only [decide_eq_true_eq, not_forall, not_lt, exists_prop]
theorem masters_refused (hl : ¬ mastersLegal s k h) : exec (.masters k h) s = .next (cmdOk s k 2) := by
  refine Eq.trans (show _ = execMasters k h s from rfl) ?_
  rw [execMasters]
  dsimp only
  rw [if_neg (by rw [hn]; decide), if_pos (mastersLegal_iff.2 hl)]
theorem masters_taken (hl : mastersLegal s k h) : exec (.masters k h) s =
    .next (cmdOk (s.modPkg k (fun p => { p with fab := { p.fab with masters := mastersOf h.a0, since := p.calRound } }.followMaster k)) k 0) := by
  refine Eq.trans (show _ = execMasters k h s from rfl) ?_
  rw [execMasters]
  dsimp only
  rw [if_neg (by rw [hn]; decide), if_neg (fun hx => mastersLegal_iff.1 hx hl)]
end

/-! ### PLANLOAD (R379) -/

section
variable {s : State} {k : Nat} {h : HArgs} {c : Ctx} (hn : (s.pkg k).hostChange = false) (hne : h.ctx ≠ 0xFFFFFFFF)
  (hc : flook (s.pkg k).ctxs h.ctx.toNat = some c)
include hn hne hc

/-- A load that waits no longer: its slot is taken off the list of those that do. -/
def loadTaken (h : HArgs) (p : Pkg) : Pkg := { p with coll := { p.coll with loading := p.coll.loading.filter (fun n => n != h.a0.toNat) } }
/-- The loaded plan. -/
def planTaken (h : HArgs) (pl : Plan) (p : Pkg) : Pkg := { p with coll := { p.coll with plans := fput p.coll.plans h.a0.toNat pl } }
theorem planload_slot (hs : 256 ≤ h.a0.toNat) : exec (.planload k h) s = .next (cmdOk s k 2) :=
  (onCtx_known hn hne hc _).trans (congrArg Host.Outcome.next (if_pos hs))
theorem planload_waits (hs : h.a0.toNat < 256) (ho : ∃ r ∈ (s.pkg k).openRuns, r.plan = h.a0.toNat) : exec (.planload k h) s =
    .next (s.modPkg k (fun p => { p with coll := { p.coll with loading := (p.coll.loading ++ [h.a0.toNat]).dedup } })) := by
  refine (onCtx_known hn hne hc _).trans ?_
  rw [if_neg (by omega), if_pos]
  rw [List.any_eq_true]
  simpa only [beq_iff_eq] using ho
variable (hs : h.a0.toNat < 256) (ho : ∀ r ∈ (s.pkg k).openRuns, r.plan ≠ h.a0.toNat)
include hs ho
theorem planload_unread (hf : s.devFetch k h.ctx h.a1 32 = none) : exec (.planload k h) s = .next (cmdOk (s.modPkg k (loadTaken h)) k 2) := by
  refine (onCtx_known hn hne hc _).trans ?_
  rw [if_neg (by omega), if_neg (by rw [List.any_eq_true]; simpa only [beq_iff_eq, not_exists, not_and] using ho), hf]
  rfl
variable {hd bs : List Byte} (hh : s.devFetch k h.ctx h.a1 32 = some hd)
  (hb : s.devFetch k h.ctx (h.a1 + 32) (32 * max ((leNat (hd.take 8)) % 2 ^ 13) 1) = some bs)
include hh hb
theorem planload_bad (hp : planOf (s.pkg k).pkgid (s.pkg k).podsize hd bs = none) : exec (.planload k h) s = .next (cmdOk (s.modPkg k (loadTaken h)) k 2) := by
  refine (onCtx_known hn hne hc _).trans ?_
  rw [if_neg (by omega), if_neg (by rw [List.any_eq_true]; simpa only [beq_iff_eq, not_exists, not_and] using ho), hh]
  dsimp only
  rw [nbits_low, hb]
  dsimp only
  rw [hp]
  rfl
theorem planload_loads {pl : Plan} (hp : planOf (s.pkg k).pkgid (s.pkg k).podsize hd bs = some pl)
    (hfit : (s.pkg k).planFits h.a0.toNat ((leNat (hd.take 8)) % 2 ^ 13) = true) :
    exec (.planload k h) s = .next (cmdOk ((s.modPkg k (loadTaken h)).modPkg k (planTaken h pl)) k 0) := by
  refine (onCtx_known hn hne hc _).trans ?_
  rw [if_neg (by omega), if_neg (by rw [List.any_eq_true]; simpa only [beq_iff_eq, not_exists, not_and] using ho), hh]
  dsimp only
  rw [nbits_low, hb]
  dsimp only
  rw [hp]
  dsimp only
  rw [hfit]
  rfl
end

/-! ### REELLOAD (R389, R390) -/

/-- A map that lists what a function gives at the numbers below a bound. -/
theorem flook_map_range {α : Type} (f : Nat → α) {n i : Nat} (hi : i < n) : flook ((List.range n).map (fun j => (j, f j))) i = some (f i) := by
  have aux : ∀ l : List Nat, i ∈ l → flook (l.map (fun j => (j, f j))) i = some (f i) := by
    intro l
    induction l with
    | nil => exact fun h => absurd h List.not_mem_nil
    | cons a l ih =>
      intro h
      rw [List.map_cons, flook]
      split
      · next e => rw [e]
      · next e => exact ih ((List.mem_cons.1 h).resolve_left (Ne.symm e))
  exact aux _ (List.mem_range.2 hi)
/-- What is put at one key is found there, where the keys put after it are others. -/
theorem flook_foldl_fput {α : Type} (key : Nat → Nat) (f : Nat → α) (n : Nat) (m : FMap α) (hk : ∀ i j, i < j → j < n → key i ≠ key j) {i : Nat} (hi : i < n) :
    flook ((List.range n).foldl (fun m i => fput m (key i) (f i)) m) (key i) = some (f i) := by
  induction n with
  | zero => omega
  | succ n ih =>
    rw [List.range_succ, List.foldl_append]
    refine (flook_fput ..).trans ?_
    rcases Nat.lt_succ_iff_lt_or_eq.1 hi with hlt | rfl
    · rw [if_neg (hk i n hlt (Nat.lt_succ_self n))]
      exact ih (fun i j h1 h2 => hk i j h1 (by omega)) hlt
    · exact if_pos rfl
/-- A field of a structure of its own within a longer text. -/
theorem field_within (bs : List Byte) (o m : Nat) {off n : Nat} (h : off + n ≤ m) : field ((bs.drop o).take m) off n = field bs (o + off) n := by
  unfold field
  rw [List.drop_take, List.take_take, List.drop_drop, Nat.min_eq_left (by omega)]
section
variable {s : State} {k : Nat} {h : HArgs} {c : Ctx} (hn : (s.pkg k).hostChange = false) (hne : h.ctx ≠ 0xFFFFFFFF)
  (hc : flook (s.pkg k).ctxs h.ctx.toNat = some c)
include hn hne hc

theorem reelload_busy (hst : (s.pkg k).reel.st ≠ .idle) : exec (.reelload k h) s = .next (cmdOk s k 1) :=
  (onCtx_known hn hne hc _).trans (congrArg Host.Outcome.next (if_pos hst))
variable (hst : (s.pkg k).reel.st = .idle)
include hst
theorem reelload_refused (hl : ¬ (h.a1.toNat < 2 ^ 21 ∧ h.a1.toNat / 2 ^ 10 % 2 ^ 11 ≤ 1024)) : exec (.reelload k h) s = .next (cmdOk s k 2) := by
  refine (onCtx_known hn hne hc _).trans ?_
  dsimp only
  rw [if_neg (not_not.2 hst), if_pos]
  rw [nbits_div]
  omega
variable (hl : h.a1.toNat < 2 ^ 21 ∧ h.a1.toNat / 2 ^ 10 % 2 ^ 11 ≤ 1024)
include hl
theorem reelload_unread (hf : s.devFetch k h.ctx h.a0 (320 + 64 * (h.a1.toNat / 2 ^ 10 % 2 ^ 11)) = none) : exec (.reelload k h) s = .next (cmdOk s k 2) := by
  refine (onCtx_known hn hne hc _).trans ?_
  dsimp only
  rw [nbits_div, if_neg (not_not.2 hst), if_neg (by omega), hf]
theorem reelload_loads {bs : List Byte} (hf : s.devFetch k h.ctx h.a0 (320 + 64 * (h.a1.toNat / 2 ^ 10 % 2 ^ 11)) = some bs) : exec (.reelload k h) s =
    .next (cmdOk (s.modPkg k (fun p => p.modReel (fun r => r.load h.ctx (h.a1.toNat % 2 ^ 10) (h.a1.toNat / 2 ^ 10 % 2 ^ 11) bs))) k 0) := by
  refine (onCtx_known hn hne hc _).trans ?_
  dsimp only
  rw [nbits_div _ 20 10, if_neg (not_not.2 hst), if_neg (by omega), hf]
  rfl
end
theorem load_ring (r : Reel) (o : W32) (first count : Nat) (bs : List Byte) {i : Nat} (hi : i < 8) {x : RingDesc}
    (hx : flook (r.load o first count bs).rings i = some x) :
    x.slotb = BitVec.ofNat 64 (field bs (64 + 32 * i) 8) ∧ x.fillw = BitVec.ofNat 64 (field bs (80 + 32 * i) 8) ∧ x.nslot = field bs (76 + 32 * i) 4 % 2 ^ 7 := by
  have hx' := (flook_map_range (fun i => ringOf ((bs.drop (64 + 32 * i)).take 32)) hi).symm.trans hx
  obtain rfl := Option.some.inj hx'
  refine ⟨congrArg (BitVec.ofNat 64) (field_within bs _ 32 (by decide)), congrArg (BitVec.ofNat 64) ((field_within bs _ 32 (by decide)).trans ?_),
    congrArg (· % 2 ^ 7) ((field_within bs _ 32 (by decide)).trans ?_)⟩
  · rw [show 64 + 32 * i + 16 = 80 + 32 * i by omega]
  · rw [show 64 + 32 * i + 12 = 76 + 32 * i by omega]
theorem load_entry (r : Reel) (o : W32) (first : Nat) {count : Nat} (bs : List Byte) (hc : count ≤ 1024) {i : Nat} (hi : i < count) {x : REnt}
    (hx : flook (r.load o first count bs).ents ((first + i) % 1024) = some x) :
    x.kind = field bs (320 + 64 * i) 8 % 4 ∧ x.lrec = BitVec.ofNat 64 (field bs (328 + 64 * i) 8) := by
  have hx' := (flook_foldl_fput (fun i => (first + i) % 1024) (fun i => reelEnt ((bs.drop (320 + 64 * i)).take 64)) count r.ents
    (fun i j h1 h2 => by omega) hi).symm.trans hx
  obtain rfl := Option.some.inj hx'
  refine ⟨congrArg (· % 4) (field_within bs _ 64 (by decide)), congrArg (BitVec.ofNat 64) ((field_within bs _ 64 (by decide)).trans ?_)⟩
  rw [show 320 + 64 * i + 8 = 328 + 64 * i by omega]

/-! ### HNDLOAD (R370) -/

/-- The half words of a handler's image that may be micro-operations. -/
def halvesGood (bs : List Byte) : Prop := ∀ i, i < 16 → field bs (2 * i) 2 / 2 ^ 11 < 24 ∧
  (field bs (2 * i) 2 / 2 ^ 11 = 18 ∨ field bs (2 * i) 2 / 2 ^ 11 = 19 ∨ field bs (2 * i) 2 / 2 ^ 11 = 20 ∨ field bs (2 * i) 2 % 4 = 0)
/-- A handler's image in a text. -/
def imageOf (bs : List Byte) : List W16 := (List.range 16).map (fun i => BitVec.ofNat 16 (field bs (2 * i) 2))
theorem imageOf_ok (bs : List Byte) : (imageOf bs).all microOk = true ↔ halvesGood bs := by
  have hlt : ∀ i, field bs (2 * i) 2 < 2 ^ 16 := fun i =>
    lt_of_lt_of_le (leNat_lt _) (Nat.pow_le_pow_right (by decide) (List.length_take_le ..))
  unfold imageOf halvesGood
  simp only [List.all_eq_true, List.forall_mem_map, List.mem_range]
  refine forall_congr' fun i => forall_congr' fun _ => ?_
  have := hlt i
  unfold microOk
  dsimp only
  rw [BitVec.toNat_ofNat, Nat.mod_eq_of_lt (hlt i), nbits_low, nbits_div, Nat.mod_eq_of_lt (show _ / 2 ^ 11 < 2 ^ (15 + 1 - 11) by omega)]
  simp only [Bool.and_eq_true, Bool.or_eq_true, decide_eq_true_eq, beq_iff_eq, or_assoc]
  rfl
section
variable {s : State} {k : Nat} {h : HArgs} {c : Ctx} (hn : (s.pkg k).hostChange = false) (hne : h.ctx ≠ 0xFFFFFFFF)
  (hc : flook (s.pkg k).ctxs h.ctx.toNat = some c)
include hn hne hc

theorem hndload_refused (hl : ¬ (16 ≤ h.a0.toNat ∧ h.a0.toNat ≤ 31 ∧ (s.pkg k).feat 9 = true)) : exec (.hndload k h) s = .next (cmdOk s k 2) := by
  refine (onCtx_known hn hne hc _).trans (congrArg Host.Outcome.next (if_pos ?_))
  rw [Bool.not_eq_true', ← Bool.not_eq_true, ← not_le, ← not_le, ← not_and_or, ← not_and_or]
  exact hl
variable (hl : 16 ≤ h.a0.toNat ∧ h.a0.toNat ≤ 31 ∧ (s.pkg k).feat 9 = true)
include hl
omit hn hne hc in
theorem hndload_legal : ¬ (h.a0.toNat < 16 ∨ 31 < h.a0.toNat ∨ (!(s.pkg k).feat 9) = true) := by
  rw [hl.2.2]
  exact fun hx => hx.elim (by omega) (fun hx => hx.elim (by omega) (by decide))
theorem hndload_unread (hf : s.devFetch k h.ctx h.a1 32 = none) : exec (.hndload k h) s = .next (cmdOk s k 2) := by
  refine (onCtx_known hn hne hc _).trans ?_
  rw [if_neg (hndload_legal hl), hf]
variable {bs : List Byte} (hf : s.devFetch k h.ctx h.a1 32 = some bs)
include hf
theorem hndload_bad (hg : ¬ halvesGood bs) : exec (.hndload k h) s = .next (cmdOk s k 2) := by
  refine (onCtx_known hn hne hc _).trans ?_
  rw [if_neg (hndload_legal hl), hf]
  exact congrArg Host.Outcome.next (if_pos (by rw [Bool.not_eq_true', ← Bool.not_eq_true]; exact mt (imageOf_ok bs).1 hg))
theorem hndload_loads (hg : halvesGood bs) : exec (.hndload k h) s =
    .next (cmdOk (s.modPkg k (fun p => { p with fab := { p.fab with hnds := fput p.fab.hnds h.a0.toNat (imageOf bs) } })) k 0) := by
  refine (onCtx_known hn hne hc _).trans ?_
  rw [if_neg (hndload_legal hl), hf]
  exact congrArg Host.Outcome.next (if_neg (by rw [Bool.not_eq_true', Bool.not_eq_false]; exact (imageOf_ok bs).2 hg))
end

/-! ### Changes of the tables (R238, R277, R431) -/

/-- What the host's asking for a change does, by what its beginning has come to. -/
def HostAsks (s : State) (k : Nat) (i : Instr) (q : VmAsk) : Prop :=
  match q with
  | .param => After i s (fun t => AnsweredOnly s t k 2)
  | .wait => exec i s = .next s
  | .now n => After i s (fun t => AnsweredOnly s t k n)
  | .begin_ s1 v => After i s (fun t => t.mem = s1.mem ∧ (t.pkg k).host = (s1.pkg k).host ∧
      (t.pkg k).vmch = (s1.pkg k).vmch ++ [{ v with id := s1.nextId, wid := none, d := none }])
/-- The statuses that a change is refused with. -/
def SmallStatus (q : VmAsk) : Prop := ∀ n, q = .now n → n < 2 ^ 32
theorem hostAsk_asks {s : State} {k : Nat} {i : Instr} {q : VmAsk} (hi : exec i s = .next (hostAsk s k q)) (hq : SmallStatus q) : HostAsks s k i q := by
  cases q with
  | param => exact ⟨_, hi, cmdOk_only s k (by decide)⟩
  | wait => exact hi
  | now n => exact ⟨_, hi, cmdOk_only s k (hq n rfl)⟩
  | begin_ s1 v =>
    refine ⟨_, hi, rfl, ?_, ?_⟩ <;>
    · show _ = _
      unfold hostAsk
      dsimp only
      rw [State.pkg_modPkg_self]
      rfl
theorem SmallStatus.of_now {n : Nat} (h : n < 2 ^ 32) : SmallStatus (.now n) := fun _ e => VmAsk.now.inj e ▸ h
theorem SmallStatus.param : SmallStatus .param := fun _ e => nomatch e
theorem SmallStatus.wait : SmallStatus .wait := fun _ e => nomatch e
theorem SmallStatus.begin_ {s : State} {c : VmChange} : SmallStatus (.begin_ s c) := fun _ e => nomatch e
theorem vmSplit_status (s : State) (k : Nat) (ctx : W32) (va : W64) : SmallStatus (vmSplit s k ctx va) := by
  unfold vmSplit
  split
  · exact .of_now (by decide)
  · split
    · exact .param
    · split
      · exact .of_now (by decide)
      · dsimp only
        split
        · exact .wait
        · split
          · exact .of_now (by decide)
          · exact .begin_
theorem vmProt_status (s : State) (k : Nat) (ctx : W32) (va : W64) (n perm : Nat) : SmallStatus (vmProt s k ctx va n perm) := by
  unfold vmProt
  split
  · exact .param
  · exact .of_now (by decide)
  · split
    · exact .wait
    · exact .begin_
theorem vmDup_status (s : State) (k die : Nat) (ctx : W32) (va : W64) (mask : BitVec 128) : SmallStatus (vmDup s k die ctx va mask) := by
  unfold vmDup
  split
  · exact .param
  · split
    · exact .of_now (by decide)
    · split
      · exact .param
      · dsimp only
        split
        · exact .of_now (by decide)
        · split
          · exact .of_now (by decide)
          · split
            · exact .wait
            · split
              · split
                · exact .of_now (by decide)
                · split
                  · exact .of_now (by decide)
                  · exact .begin_
              · split
                · exact .of_now (by decide)
                · split
                  · exact .of_now (by decide)
                  · exact .begin_

/-- The page of an address. -/
theorem toNat_page (a : W64) : (a &&& ~~~ 0xFFFF#64).toNat = a.toNat / 2 ^ 16 * 2 ^ 16 := by
  have h : a &&& ~~~ 0xFFFF#64 = (a >>> 16) <<< 16 := by
    ext i hi
    interval_cases i <;> simp
  rw [h, BitVec.toNat_shiftLeft, BitVec.toNat_ushiftRight, Nat.shiftLeft_eq, Nat.shiftRight_eq_div_pow]
  have := a.isLt
  omega
/-- Settles O54, from the equation of each command in each case and the law of answered commands. -/
theorem deviceCommands : Obligations.DeviceCommands := by
  unfold Obligations.DeviceCommands
  intro s k h p answers hn
  have ans : ∀ {i : Instr} {n : Nat}, n < 2 ^ 32 → exec i s = .next (cmdOk s k n) → answers i n := fun hn hi => ⟨_, hi, cmdOk_only s k hn⟩
  refine ⟨fun ha => ans (by decide) (fctlset_refused hn ha), fun ha => ?_, ?_, fun c hne hc => ⟨?_, ?_, ?_, ?_⟩⟩
  · obtain ⟨h1, h2, h3⟩ := cmdOk_modPkg (s := s) (k := k) (n := 0) (f := fun p => { p with fab := { p.fab with fctl := lo32 h.a0 &&& fctlMask } }) (SameQueue.refl _) (by decide)
    exact ⟨_, fctlset_writes hn ha, h1, h2, h3⟩
  · have hm : mastersOf h.a0 = _ := mastersOf_eq h.a0
    refine ⟨fun hl => ans (by decide) (masters_refused hn ?_), fun hl => ?_⟩
    · unfold mastersLegal
      rw [hm]
      exact hl
    · have hl' : mastersLegal s k h := by
        unfold mastersLegal
        rw [hm]
        exact hl
      obtain ⟨h1, h2, h3⟩ := cmdOk_modPkg (s := s) (k := k) (n := 0)
        (f := fun p => { p with fab := { p.fab with masters := mastersOf h.a0, since := p.calRound } }.followMaster k) (followMaster_masters _ _).2 (by decide)
      refine ⟨_, masters_taken hn hl', h1, h2, ?_⟩
      rw [h3]
      exact (followMaster_masters _ _).1.trans hm
  · refine ⟨fun hs => ans (by decide) (planload_slot hn hne hc hs), fun hs ho => ?_, fun hs ho hf => ?_, fun hd bs hs ho hh => ?_⟩
    · refine ⟨_, planload_waits hn hne hc hs ho, ⟨⟨rfl, fun j hj => ?_⟩, ?_⟩, ?_⟩
      · rw [State.pkg_modPkg, if_neg hj]
      · rw [State.pkg_modPkg_self]
      · rw [State.pkg_modPkg_self]
        exact List.mem_dedup.2 (List.mem_append_right _ (List.mem_singleton_self _))
    · obtain ⟨h1, -, h3⟩ := cmdOk_modPkg (s := s) (k := k) (n := 2) (f := loadTaken h) (SameQueue.refl _) (by decide)
      exact ⟨_, planload_unread hn hne hc hs ho hf, h1, by rw [h3]; rfl⟩
    · intro n hb
      refine ⟨fun hp => ?_, fun pl hp hfit => ?_⟩
      · obtain ⟨h1, -, h3⟩ := cmdOk_modPkg (s := s) (k := k) (n := 2) (f := loadTaken h) (SameQueue.refl _) (by decide)
        exact ⟨_, planload_bad hn hne hc hs ho hh hb hp, h1, by rw [h3]; rfl⟩
      · refine ⟨_, planload_loads hn hne hc hs ho hh hb hp hfit, cmdOk_answers ?_ (by decide), fun i => ?_⟩
        · rw [State.pkg_modPkg_self, State.pkg_modPkg_self]
          exact SameQueue.refl _
        · rw [pkg_cmdOk, cmdDone_host, State.pkg_modPkg_self, State.pkg_modPkg_self]
          exact flook_fput ..
  · refine ⟨fun hst => ans (by decide) (reelload_busy hn hne hc hst), fun hst hl => ans (by decide) (reelload_refused hn hne hc hst hl),
      fun hst hl hf => ans (by decide) (reelload_unread hn hne hc hst hl hf), fun bs hst hl hf => ?_⟩
    obtain ⟨h1, h2, h3⟩ := cmdOk_modPkg (s := s) (k := k) (n := 0)
      (f := fun p => p.modReel (fun r => r.load h.ctx (h.a1.toNat % 2 ^ 10) (h.a1.toNat / 2 ^ 10 % 2 ^ 11) bs)) (SameQueue.refl _) (by decide)
    refine ⟨_, reelload_loads hn hne hc hst hl hf, h1, h2, ?_⟩
    rw [h3]
    exact ⟨rfl, hst, rfl, rfl, rfl, rfl, rfl, rfl, rfl, rfl, fun i x hi hx => load_ring _ _ _ _ bs hi hx, fun i x hi hx => load_entry _ _ _ bs hl.2 hi hx⟩
  · refine ⟨fun hl => ?_, fun bs hl hf _ => ⟨fun hg => ans (by decide) (hndload_bad hn hne hc hl hf hg), fun hg => ?_⟩⟩
    · by_cases hl' : 16 ≤ h.a0.toNat ∧ h.a0.toNat ≤ 31 ∧ (s.pkg k).feat 9 = true
      · exact ans (by decide) (hndload_unread hn hne hc hl' (hl.resolve_left (not_not.2 hl')))
      · exact ans (by decide) (hndload_refused hn hne hc hl')
    · obtain ⟨h1, h2, h3⟩ := cmdOk_modPkg (s := s) (k := k) (n := 0)
        (f := fun p => { p with fab := { p.fab with hnds := fput p.fab.hnds h.a0.toNat (imageOf bs) } }) (SameQueue.refl _) (by decide)
      refine ⟨_, hndload_loads hn hne hc hl hf hg, h1, ⟨h2, ?_⟩, fun j => ?_⟩
      · rw [h3]
      · rw [h3]
        exact flook_fput ..
  · have known := fun go => onCtx_known (h := h) hn hne hc go
    refine ⟨?_, ?_, ?_, fun hl => ?_, fun h2 h1 => ?_⟩
    · exact hostAsk_asks (known _) (vmDup_status _ _ _ _ _ _)
    · exact hostAsk_asks (known _) (vmSplit_status _ _ _ _)
    · refine hostAsk_asks (known _) ?_
      split
      · exact .param
      · exact vmProt_status _ _ _ _ _ _
    · refine ans (by decide) ((known _).trans ?_)
      dsimp only
      rw [if_pos hl]
      rfl
    · have he : exec (.tlbinv k h) s = _ := known _
      dsimp only at he
      rw [if_neg (by omega), if_neg (by omega)] at he
      refine ⟨_, he, rfl, ?_⟩
      rw [← toNat_page]
      have hp := State.pkg_modPkg_self s k (fun p => p.invalidate h.ctx (h.a0 &&& ~~~ 0xFFFF#64).toNat (h.a1.toNat * 2 ^ 16))
      have hcores := congrArg Pkg.cores hp
      have htlb := congrArg Pkg.tlb2 hp
      refine untranslated_of_invalidate (p := s.pkg k) ?_ ?_ <;> unfold hostAsk <;> dsimp only <;> rw [State.pkg_modPkg_self]
      · exact hcores
      · exact htlb

end Sys2Proof
end

-- ==== Sys2Proof/Proofs/BootAndTrust.lean ====

-- ==== Sys2Proof/Proofs/BootAndTrust.lean ====
section
/-! SUPPORT. Boot, measurements, reports and features (R418 to R421). -/

namespace Sys2Proof

open Machine

/-! ### Boot (R419, R420) -/

/-- An image that the boot ROM runs. -/
def ImageGood (x : Sec) (im : BootImage) : Prop := im.sigGood = true ∧ x.rollback.toNat ≤ im.secver.toNat
theorem verifies_iff (x : Sec) (im : BootImage) : x.verifies im = true ↔ ImageGood x im := by
  unfold Sec.verifies ImageGood
  rw [Bool.and_eq_true, Bool.not_eq_true', ← Bool.not_eq_true, BitVec.ult_iff_lt, BitVec.lt_def, not_lt]
theorem verifies_eq_false {x : Sec} {im : BootImage} (h : ¬ ImageGood x im) : x.verifies im = false :=
  Bool.eq_false_iff.2 (mt (verifies_iff x im).1 h)
/-- The rollback counter rises to the version of an image that raises it: a good image has no lower one. -/
theorem rollback_raised {x : Sec} {im : BootImage} (h : ImageGood x im) :
    (if im.raise && x.rollback.ult im.secver then im.secver else x.rollback) = if im.raise then im.secver else x.rollback := by
  cases im.raise with
  | false => rfl
  | true =>
    by_cases hlt : x.rollback.ult im.secver = true
    · rw [hlt]; rfl
    · rw [Bool.eq_false_iff.2 hlt]
      rw [BitVec.ult_iff_lt, BitVec.lt_def, not_lt] at hlt
      exact BitVec.eq_of_toNat_eq (Nat.le_antisymm h.2 hlt)
/-- An extension changes one measurement. -/
theorem mr_extend (x : Sec) (n i : Nat) (d : BitVec 256) : fget 0 (x.extend n d).mr i = if i = n then mrExtend (fget 0 x.mr n) d else fget 0 x.mr i := fget_fput ..
/-- A list that is taken as a map by place. -/
theorem flook_zipIdx {α : Type} (l : List α) (n d : Nat) {v : α} (h : l[d]? = some v) :
    flook ((l.zipIdx n).map (fun (e : α × Nat) => (e.2, e.1))) (n + d) = some v := by
  induction l generalizing n d with
  | nil => simp at h
  | cons a l ih =>
    rw [List.zipIdx_cons, List.map_cons, flook]
    cases d with
    | zero => exact (if_pos rfl).trans h
    | succ d =>
      rw [if_neg (by omega), show n + (d + 1) = n + 1 + d by omega]
      exact ih (n + 1) d h
/-- What an image that runs leaves in its package. -/
structure ImageRuns (p q : Pkg) (k : Nat) (im : BootImage) : Prop where
  pkgid : q.pkgid = k
  podsize : 1 ≤ im.podsize → im.podsize ≤ 128 → q.podsize = im.podsize
  frame : q = { p with pkgid := k, podsize := q.podsize, sec := q.sec, phys := q.phys, fab := { p.fab with since := q.fab.since } }
  booted : q.sec.booted = true
  recovery : q.sec.recovery = false
  secver : q.sec.secver = im.secver
  fwver : q.sec.fwver = im.fwver
  rollback : q.sec.rollback = (if im.raise then im.secver else p.sec.rollback)
  pools : ∀ d, (∀ v, im.bankV[d]? = some v → flook q.phys.bankV d = some v) ∧ (∀ l, im.pool[d]? = some l → flook q.phys.pool d = some l)
  measured : ∀ n, fget 0 q.sec.mr n =
    if n = 0 then mrExtend (fget 0 p.sec.mr 0) im.digest else if n = 1 then mrExtend (fget 0 p.sec.mr 1) im.cfgDigest else fget 0 p.sec.mr n
theorem runImage_runs {p : Pkg} (k : Nat) {im : BootImage} (h : ImageGood p.sec im) : ImageRuns p (p.runImage k im) k im where
  pkgid := rfl
  podsize h1 h2 := by
    show max 1 (min 128 im.podsize) = im.podsize
    omega
  frame := rfl
  booted := rfl
  recovery := rfl
  secver := rfl
  fwver := rfl
  rollback := rollback_raised h
  pools d := ⟨fun v hv => Nat.zero_add d ▸ flook_zipIdx im.bankV 0 d hv, fun l hl => Nat.zero_add d ▸ flook_zipIdx im.pool 0 d hl⟩
  measured n := by
    refine (mr_extend _ 1 n im.cfgDigest).trans ?_
    split
    · next h1 =>
      subst h1
      exact congrArg (mrExtend · im.cfgDigest) ((mr_extend _ 0 1 im.digest).trans (if_neg (by decide)))
    · exact mr_extend _ 0 n im.digest
theorem tryImage_good {p : Pkg} {k : Nat} {im : BootImage} (h : ImageGood p.sec im) : p.tryImage k im = p.runImage k im := if_pos ((verifies_iff ..).2 h)
theorem tryImage_bad {p : Pkg} {k : Nat} {im : BootImage} (h : ¬ ImageGood p.sec im) : p.tryImage k im = { p with sec := { p.sec with recovery := true } } :=
  if_neg (by rw [verifies_eq_false h]; decide)
/-- What an instruction that tries an image does. -/
theorem tries_image {s : State} {k : Nat} {im : BootImage} {i : Instr} (hi : exec i s = .next (s.modPkg k (fun p => p.tryImage k im))) :
    (ImageGood (s.pkg k).sec im → After i s (fun t => PackageOnly s t k ∧ ImageRuns (s.pkg k) (t.pkg k) k im)) ∧
    (¬ ImageGood (s.pkg k).sec im → After i s (fun t => PackageIs s t k { s.pkg k with sec := { (s.pkg k).sec with recovery := true } })) := by
  refine ⟨fun h => ⟨_, hi, modPkg_only .., ?_⟩, fun h => after_modPkg_is hi (tryImage_bad h)⟩
  rw [State.pkg_modPkg_self, tryImage_good h]
  exact runImage_runs k h
section
variable {s : State} {k : Nat} {im : BootImage}
theorem bootRom_recovery (h : (s.pkg k).sec.recovery = true) : exec (.bootRom k im) s = .next s := congrArg Host.Outcome.next (if_pos h)
theorem bootRom_first (hb : (s.pkg k).sec.booted = false) (h : (s.pkg k).sec.recovery = false) :
    exec (.bootRom k im) s = .next (s.modPkg k (fun p => p.tryImage k im)) := by
  refine Eq.trans (show _ = execBootRom k im s from rfl) ?_
  rw [execBootRom, h, hb]
  rfl
theorem bootRom_stage (hb : (s.pkg k).sec.booted = true) (h : (s.pkg k).sec.recovery = false) :
    exec (.bootRom k im) s = .next (s.modPkg k (fun p => p.tryStage im)) := by
  refine Eq.trans (show _ = execBootRom k im s from rfl) ?_
  rw [execBootRom, h, hb]
  rfl
theorem recoveryImage_idle (h : (s.pkg k).sec.recovery = false) : exec (.recoveryImage k im) s = .next s :=
  congrArg Host.Outcome.next (if_neg (by rw [h]; decide))
theorem recoveryImage_tries (h : (s.pkg k).sec.recovery = true) : exec (.recoveryImage k im) s = .next (s.modPkg k (fun p => p.tryImage k im)) :=
  congrArg Host.Outcome.next (if_pos h)
end
theorem tryStage_good {p : Pkg} {im : BootImage} (h : ImageGood p.sec im) : p.tryStage im = { p with sec := p.sec.runStage im } := by
  unfold Pkg.tryStage
  rw [(verifies_iff ..).2 h]
  rfl
theorem tryStage_bad {p : Pkg} {im : BootImage} (h : ¬ ImageGood p.sec im) : p.tryStage im = { p with sec := { p.sec with recovery := true } } := by
  unfold Pkg.tryStage
  rw [verifies_eq_false h]
  rfl

/-! ### Measurements and reports (R420, R421) -/

/-- The mailbox answers. -/
def Heard (p : Pkg) : Prop := p.phys.powered = true ∧ (p.sec.booted = true ∨ p.sec.recovery = true)
theorem mailbox_iff (p : Pkg) : p.mailbox = true ↔ Heard p := by
  unfold Pkg.mailbox Heard
  rw [Bool.and_eq_true, Bool.or_eq_true]
theorem report_eq (x : Sec) (v : BitVec 256) (u : Byte) : x.report v u =
    leBytes 4 1 ++ leBytes 4 Config.serial.toNat ++ leBytes 4 (x.secver.toNat * 2 ^ 24 + x.fwver.toNat % 2 ^ 24) ++ leBytes 4 u.toNat ++ leBytes 32 v.toNat ++
      ((List.range 8).map (fun i => leBytes 32 (if u.getLsbD i then (fget 0 x.mr i).toNat else 0))).flatten ++ leBytes 48 0 := by
  unfold Sec.report bytes256
  simp only [apply_ite (leBytes 32)]
section
variable {s : State} {k : Nat}
theorem mrExtend_eq {n : Nat} (v : BitVec 256) (h : Heard (s.pkg k)) (h2 : 2 ≤ n) (h7 : n ≤ 7) :
    exec (.mrExtend k n v) s = .next (s.modPkg k (fun p => { p with sec := p.sec.extend n v })) :=
  congrArg Host.Outcome.next (if_pos ⟨(mailbox_iff _).2 h, h2, h7⟩)
theorem mrExtend_ignored {n : Nat} (v : BitVec 256) (h : ¬ (Heard (s.pkg k) ∧ 2 ≤ n ∧ n ≤ 7)) : exec (.mrExtend k n v) s = .next s :=
  congrArg Host.Outcome.next (if_neg (by rwa [mailbox_iff]))
theorem attestation_unheard (v : BitVec 256) (u : Byte) (h : ¬ Heard (s.pkg k)) : exec (.attestationRequest k v u) s = .next s :=
  congrArg Host.Outcome.next (if_pos (by rw [Bool.not_eq_true', ← Bool.not_eq_true, mailbox_iff]; exact h))
/-- A signed report joins what the host is to be told. -/
def signedReport (v : BitVec 256) (u : Byte) (p : Pkg) : Pkg :=
  { p with
    sec := { p.sec with signs := p.sec.signs + 1 }
    host := { p.host with replies := p.host.replies ++
      [.report (p.sec.report v u ++ leBytes 64 (Config.sm2Sign (ofBytes256 (sm3 (p.sec.report v u))) p.sec.signs).toNat)] } }
theorem attestation_eq (v : BitVec 256) (u : Byte) (h : Heard (s.pkg k)) : exec (.attestationRequest k v u) s = .next (s.modPkg k (signedReport v u)) :=
  congrArg Host.Outcome.next (if_neg (by rw [Bool.not_eq_true', Bool.not_eq_false]; exact (mailbox_iff _).2 h))
end

/-! ### Features (R418) -/

/-- The requested features are all offered, bit 0 among them. -/
def FeaturesFit (h : HostIf) : Prop := (∀ i, h.featReq.getLsbD i = true → Config.featOff.getLsbD i = true) ∧ h.featReq.getLsbD 0 = true
theorem and_not_eq_zero_iff {n : Nat} (x y : BitVec n) : x &&& ~~~ y = 0 ↔ ∀ i, x.getLsbD i = true → y.getLsbD i = true := by
  constructor
  · intro h i hx
    have hi := BitVec.lt_of_getLsbD hx
    have := congrArg (·.getLsbD i) h
    simp only [BitVec.getLsbD_and, BitVec.getLsbD_not, hx, hi, decide_true, Bool.true_and, BitVec.ofNat_eq_ofNat, BitVec.getLsbD_zero, Bool.not_eq_false'] at this
    exact this
  · intro h
    refine BitVec.eq_of_getLsbD_eq fun i hi => ?_
    rw [BitVec.getLsbD_and, BitVec.getLsbD_not, BitVec.ofNat_eq_ofNat, BitVec.getLsbD_zero]
    cases hx : x.getLsbD i with
    | false => rfl
    | true => simp [h i hx]
section
variable {p : Pkg}
theorem featureGo_ignored (h : ¬ (p.phys.powered = true ∧ p.sec.booted = true ∧ p.sec.recovery = false) ∨ p.host.featDone = true) : p.featureGo = p := by
  refine if_pos ?_
  rw [Bool.or_eq_true, Bool.not_eq_true']
  exact h.imp_left answers_eq_false.2
variable (hon : p.phys.powered = true ∧ p.sec.booted = true ∧ p.sec.recovery = false) (hd : p.host.featDone = false)
include hon hd
omit hd in
theorem featuresFit_iff : (p.host.featReq &&& ~~~ p.featOff ≠ 0 || !p.host.featReq.getLsbD 0) = true ↔ ¬ FeaturesFit p.host := by
  rw [Bool.or_eq_true, decide_eq_true_eq, Pkg.featOff, hon.2.2, if_neg (by decide), ne_eq, and_not_eq_zero_iff, Bool.not_eq_true', ← Bool.not_eq_true, ← not_and_or]
  rfl
theorem featureGo_fits (h : FeaturesFit p.host) : p.featureGo = { p with host := { p.host with featAcc := p.host.featReq, featDone := true } } := by
  unfold Pkg.featureGo
  dsimp only
  rw [if_neg (by rw [answers_eq_true.2 hon, hd]; decide), if_neg (fun hx => (featuresFit_iff hon).1 hx h)]
theorem featureGo_rejected (h : ¬ FeaturesFit p.host) : p.featureGo = { p with host := { p.host with featRej := true } } := by
  unfold Pkg.featureGo
  dsimp only
  rw [if_neg (by rw [answers_eq_true.2 hon, hd]; decide), if_pos ((featuresFit_iff hon).2 h)]
end

/-- Settles O48, from what an image that is tried leaves, the law of an extension, and the cases of GO. -/
theorem bootTrustFeatures : Obligations.BootTrustFeatures := by
  unfold Obligations.BootTrustFeatures
  intro s k p mr
  refine ⟨fun im => ?_, fun n v => ⟨fun hh h2 h7 => ?_, mrExtend_ignored v, fun u => ⟨attestation_unheard v u, fun hh => ?_⟩⟩, ?_⟩
  · intro x good runs recovers
    have taken : ∀ {i : Instr}, After i s (fun t => PackageOnly s t k ∧ ImageRuns p (t.pkg k) k im) → After i s runs := fun ⟨t, ht, h, r⟩ =>
      ⟨t, ht, h, r.pkgid, r.podsize, r.frame, r.booted, r.recovery, r.secver, r.fwver, r.rollback, r.pools, r.measured⟩
    refine ⟨bootRom_recovery, fun hb hr => ⟨fun hg => ?_, fun hg => after_modPkg_is (bootRom_stage hb hr) (tryStage_bad hg)⟩, fun hb hr => ?_,
      recoveryImage_idle, fun hr => ?_⟩
    rotate_left
    · exact (tries_image (bootRom_first hb hr)).imp_left fun h hg => taken (h hg)
    · exact (tries_image (recoveryImage_tries hr)).imp_left fun h hg => taken (h hg)
    have hp : (s.modPkg k (fun p => p.tryStage im)).pkg k = _ := (State.pkg_modPkg_self ..).trans (tryStage_good hg)
    refine ⟨_, bootRom_stage hb hr, ⟨modPkg_only .., ?_⟩, ?_⟩
    · rw [hp]
    · show _ ∧ _ ∧ _ ∧ _ ∧ _ ∧ ∀ n, fget 0 (State.pkg _ k).sec.mr n = _
      rw [hp]
      exact ⟨hb, hr, rfl, rfl, rollback_raised hg, fun n => mr_extend _ 0 n im.digest⟩
  · refine ⟨_, mrExtend_eq v hh h2 h7, ⟨modPkg_only .., ?_⟩, fun i => ?_⟩
    · rw [State.pkg_modPkg_self]
      rfl
    · show fget 0 (State.pkg _ k).sec.mr i = _
      rw [State.pkg_modPkg_self]
      exact mr_extend _ n i v
  · refine ⟨_, attestation_eq v u hh, modPkg_only .., ?_, Config.sm2Sign (ofBytes256 (sm3 (p.sec.report v u))) p.sec.signs, ?_⟩
    · rw [State.pkg_modPkg_self]
      rfl
    · rw [State.pkg_modPkg_self, ← report_eq]
      rfl
  · exact ⟨fun h => after_modPkg_is rfl (featureGo_ignored h), fun hon hd hf => after_modPkg_is rfl (featureGo_fits hon hd hf),
      fun hon hd hf => after_modPkg_is rfl (featureGo_rejected hon hd hf)⟩

end Sys2Proof
end

-- ==== Sys2Proof/Proofs/ErrorsAndTests.lean ====

-- ==== Sys2Proof/Proofs/ErrorsAndTests.lean ====
section
/-! SUPPORT. Errors, the tests they start, and retirement (R324, R424 to R426, R432). -/

namespace Sys2Proof

open Machine

/-- An event that a package has written, whatever else has changed there. -/
theorem mgmtEvent_written_host {s t : State} {k : Nat} {p : Pkg} {kind cls unit : Nat} {wh : W64} (hp : p.host = (s.pkg k).host)
    (h : (t.pkg k).host = (mgmtEvent p kind cls unit wh).host) (hk : kind < 256) (hc : cls < 256) : EventWritten s t k kind cls unit := by
  have hw := mgmtEvent_written (s := s) (t := s.modPkg k (fun _ => mgmtEvent p kind cls unit wh)) hp (State.pkg_modPkg_self ..) hk hc
  unfold EventWritten eventWord at hw ⊢
  rw [State.pkg_modPkg_self] at hw
  rwa [h]

/-! ### Tests begin (R424, R426) -/

theorem same_iff (x : Test) (u : Byte) (n row : Nat) : x.same u n row = true ↔ x.cls = u ∧ x.unit = n ∧ ((u = 1 ∨ u = 2) → x.row = row) := by
  unfold Test.same
  rw [Bool.and_eq_true, Bool.and_eq_true, Bool.or_eq_true, Bool.not_eq_true', Bool.or_eq_false_iff, beq_iff_eq, beq_iff_eq, beq_iff_eq, and_assoc,
    beq_eq_false_iff_ne, beq_eq_false_iff_ne, ← not_or, or_comm, ← imp_iff_not_or]
section
variable (p : Pkg) (u : Byte) (n row : Nat) (ue : Bool)
/-- A test that begins concerns the list of tests and its core alone. -/
theorem startTest_frame : p.startTest u n row ue =
    { p with cores := (p.startTest u n row ue).cores, phys := { p.phys with tests := (p.startTest u n row ue).phys.tests } } := by
  unfold Pkg.startTest
  split
  · rfl
  · dsimp only
    by_cases hu : u = 0
    · rw [if_pos hu]
      split <;> rfl
    · rw [if_neg hu]
      split <;> rfl
theorem startTest_cores : (p.startTest u n row ue).cores = if u = 0 then (p.setCore n { p.core n with testing := true }).cores else p.cores := by
  unfold Pkg.startTest
  split
  · next h => rw [if_neg (by rintro rfl; exact absurd h (by decide))]
  · dsimp only
    by_cases hu : u = 0
    · rw [if_pos hu, if_pos hu]
      split <;> rfl
    · rw [if_neg hu, if_neg hu]
      split <;> rfl
theorem startTest_core (c : Nat) : (p.startTest u n row ue).core c = if u = 0 ∧ c = n then { p.core n with testing := true } else p.core c := by
  show fget _ (p.startTest u n row ue).cores c = _
  rw [startTest_cores]
  by_cases hu : u = 0
  · rw [if_pos hu]
    refine (Pkg.core_setCore ..).trans ?_
    by_cases hc : c = n
    · rw [if_pos hc, if_pos ⟨hu, hc⟩]
    · rw [if_neg hc, if_neg (fun hx => hc hx.2)]
  · rw [if_neg hu, if_neg (fun hx => hu hx.1)]
    rfl
/-- A unit joins those under test, if it is not among them. -/
def listTest (u : Byte) (n row : Nat) (ue : Bool) (q : Pkg) : Pkg :=
  if q.phys.tests.any (fun t => t.same u n row) then
    { q with phys := { q.phys with tests := q.phys.tests.map (fun (t : Test) => if t.same u n row then { t with ue := t.ue || ue } else t) } }
  else { q with phys := { q.phys with tests := q.phys.tests ++ [⟨u, n, row, false⟩] } }
theorem mem_listTest (q : Pkg) : ∃ x ∈ (listTest u n row ue q).phys.tests, x.cls = u ∧ x.unit = n ∧ ((u = 1 ∨ u = 2) → x.row = row) := by
  unfold listTest
  split
  · next h =>
    obtain ⟨x, hx, hs⟩ := List.any_eq_true.1 h
    refine ⟨_, List.mem_map_of_mem hx, ?_⟩
    rw [if_pos hs]
    exact (same_iff ..).1 hs
  · exact ⟨⟨u, n, row, false⟩, List.mem_append_right _ (List.mem_singleton_self _), rfl, rfl, fun _ => rfl⟩
theorem startTest_tests (hu : u.toNat ≤ 4) : ∃ x ∈ (p.startTest u n row ue).phys.tests, x.cls = u ∧ x.unit = n ∧ ((u = 1 ∨ u = 2) → x.row = row) := by
  have h : p.startTest u n row ue = listTest u n row ue (if u = 0 then p.setCore n { p.core n with testing := true } else p) := if_neg (by omega)
  rw [h]
  exact mem_listTest ..
end

/-! ### Corrected errors (R424) -/

/-- An error is recorded and its unit comes under test. -/
def errorNoted (q : Pkg) (kind : Nat) (u : Byte) (n : Nat) (wh : W64) (row : Nat) (ue : Bool) : Pkg := (mgmtEvent q kind u.toNat n wh).startTest u n row ue
theorem errorNoted_core (q : Pkg) (kind : Nat) (u : Byte) (n : Nat) (wh : W64) (row : Nat) (ue : Bool) (c : Nat) :
    (errorNoted q kind u n wh row ue).core c = if u = 0 ∧ c = n then { q.core n with testing := true } else q.core c := by
  have hq : ∀ c, (mgmtEvent q kind u.toNat n wh).core c = q.core c := fun c => mgmtEvent_of_host (fun q => q.core c) (fun _ _ => rfl)
  unfold errorNoted
  rw [startTest_core, hq, hq]
theorem errorNoted_host (q : Pkg) (kind : Nat) (u : Byte) (n : Nat) (wh : W64) (row : Nat) (ue : Bool) :
    (errorNoted q kind u n wh row ue).host = (mgmtEvent q kind u.toNat n wh).host := by
  unfold errorNoted
  rw [startTest_frame]
/-- What the record of an error leaves as it was. -/
theorem errorNoted_of_frame (q : Pkg) (kind : Nat) (u : Byte) (n : Nat) (wh : W64) (row : Nat) (ue : Bool) {α : Type} (f : Pkg → α)
    (hf : ∀ (q : Pkg) h c l, f { q with host := h, cores := c, phys := { q.phys with tests := l } } = f q) : f (errorNoted q kind u n wh row ue) = f q := by
  obtain ⟨h, e⟩ := writeEvent_host q (leBytes 8 (0xFFFFFFFF * 2 ^ 32 + n % 2 ^ 16 * 2 ^ 16 + u.toNat % 256 * 256 + kind % 256) ++ leBytes 8 wh.toNat ++
    leBytes 8 q.fab.caltime.toNat ++ leBytes 40 0)
  unfold errorNoted
  rw [startTest_frame]
  have he : mgmtEvent q kind u.toNat n wh = { q with host := h } := e
  rw [he]
  exact hf q h _ _
/-- An error is recorded in a package and its unit comes under test. -/
theorem errorNoted_after {s t : State} {k kind : Nat} {u : Byte} {n : Nat} {wh : W64} {row : Nat} {ue : Bool} {q : Pkg} (hq : q.host = (s.pkg k).host)
    (ht : t.pkg k = errorNoted q kind u n wh row ue) (hk : kind < 256) :
    EventWritten s t k kind u.toNat n ∧ (u.toNat ≤ 4 → (∃ x ∈ (t.pkg k).phys.tests, x.cls = u ∧ x.unit = n ∧ ((u = 1 ∨ u = 2) → x.row = row)) ∧
      (u = 0 → (t.core k n).testing = true)) := by
  refine ⟨mgmtEvent_written_host hq (by rw [ht, errorNoted_host]) hk u.isLt, fun hu => ⟨?_, fun h0 => ?_⟩⟩
  · rw [ht]
    exact startTest_tests _ u n row ue hu
  · unfold State.core
    rw [ht, errorNoted_core, if_pos ⟨h0, rfl⟩]
theorem mem_dropEntries (v : W64) (l : List TlbEntry) (e : TlbEntry) :
    e ∈ dropEntries v l ↔ e ∈ l ∧ ¬ (e.base.toNat ≤ v.toNat ∧ v.toNat < e.base.toNat + e.size) := by
  unfold dropEntries
  rw [List.mem_filter, Bool.not_eq_true', ← Bool.not_eq_true, Bool.and_eq_true, decide_eq_true_eq, decide_eq_true_eq]
/-- The entry that an error is in, by the store that it is in; nothing else goes. -/
structure ParityDropped (p q : Pkg) (n : Nat) (v : W64) (c : Nat) : Prop where
  host : q.host = p.host
  lines : if c = 1 then ∀ y ∈ (q.core n).lines, y ∈ (p.core n).lines ∧ y.tag ≠ v.toNat / 128 else (q.core n).lines = (p.core n).lines
  tlb : if c = 2 then ∀ y, y ∈ (q.core n).tlb ↔ y ∈ (p.core n).tlb ∧ ¬ (y.base.toNat ≤ v.toNat ∧ v.toNat < y.base.toNat + y.size)
    else (q.core n).tlb = (p.core n).tlb
  tlb2 : if c = 3 then ∀ y, y ∈ fget [] q.tlb2 (n / 256) ↔ y ∈ fget [] p.tlb2 (n / 256) ∧ ¬ (y.base.toNat ≤ v.toNat ∧ v.toNat < y.base.toNat + y.size)
    else q.tlb2 = p.tlb2
  walks : if c = 4 then ∀ y ∈ fget [] q.wcache (n / 256), y ∈ fget [] p.wcache (n / 256) ∧ ¬ (y.base ≤ v.toNat ∧ v.toNat < y.base + levelSize y.level)
    else q.wcache = p.wcache
/-- A map of lists of which one is filtered. -/
theorem fget_fmod_list {α : Type} (m : FMap (List α)) (i : Nat) (f : List α → List α) (hf : f [] = []) : fget [] (fmod m i f) i = f (fget [] m i) := by
  rw [fget_fmod, if_pos rfl, fget_eq_flook]
  cases flook m i with
  | none => exact hf.symm
  | some x => rfl
theorem dropParity_dropped (p : Pkg) (n : Nat) (v : W64) (c : Nat) : ParityDropped p (p.dropParity n v c) n v c := by
  rcases c with _ | _ | _ | _ | _ | c
  · exact ⟨rfl, rfl, rfl, rfl, rfl⟩
  · have hcore : (p.dropParity n v 1).core n = { p.core n with lines := dropLines (p.core n).lines v.toNat 1 } := (Pkg.core_setCore ..).trans (if_pos rfl)
    refine ⟨rfl, ?_, ?_, rfl, rfl⟩
    · show ∀ y ∈ ((p.dropParity n v 1).core n).lines, _
      rw [hcore]
      intro y hy
      obtain ⟨hm, hn⟩ := List.mem_filter.1 hy
      refine ⟨hm, fun ht => ?_⟩
      rw [Bool.not_eq_true', overlaps, Bool.and_eq_false_iff, decide_eq_false_iff_not, decide_eq_false_iff_not, ht] at hn
      omega
    · show ((p.dropParity n v 1).core n).tlb = _
      rw [hcore]
  · have hcore : (p.dropParity n v 2).core n = { p.core n with tlb := dropEntries v (p.core n).tlb } := (Pkg.core_setCore ..).trans (if_pos rfl)
    refine ⟨rfl, ?_, ?_, rfl, rfl⟩
    · show ((p.dropParity n v 2).core n).lines = _
      rw [hcore]
    · show ∀ y, y ∈ ((p.dropParity n v 2).core n).tlb ↔ _
      rw [hcore]
      exact mem_dropEntries v _
  · refine ⟨rfl, rfl, rfl, fun y => ?_, rfl⟩
    rw [show fget [] (p.dropParity n v 3).tlb2 (n / 256) = dropEntries v (fget [] p.tlb2 (n / 256)) from fget_fmod_list _ _ _ rfl]
    exact mem_dropEntries v _ y
  · refine ⟨rfl, rfl, rfl, rfl, fun y hy => ?_⟩
    rw [show fget [] (p.dropParity n v 4).wcache (n / 256) = (fget [] p.wcache (n / 256)).filter _ from fget_fmod_list _ _ _ rfl] at hy
    obtain ⟨hm, hn⟩ := List.mem_filter.1 hy
    rw [Bool.not_eq_true', ← Bool.not_eq_true, Bool.and_eq_true, decide_eq_true_eq, decide_eq_true_eq] at hn
    exact ⟨hm, hn⟩
  · exact ⟨rfl, rfl, rfl, rfl, rfl⟩
theorem correctedError_ignored {s : State} {k n c : Nat} {u : Byte} (v : W64) (hu : u = 0) (ht : (s.core k n).testing = true) :
    After (.correctedError k ⟨u, c⟩ n v) s (fun t => PackageIs s t k (s.pkg k)) := by
  refine after_modPkg_is (show _ = execCorrectedError k ⟨u, c⟩ n v s from rfl) ?_
  exact if_pos (by rw [Bool.and_eq_true]; exact ⟨decide_eq_true hu, ht⟩)
/-- The package after a corrected error that is taken. -/
theorem correctedError_eq {s : State} {k n c : Nat} {u : Byte} (v : W64) (h : u ≠ 0 ∨ (s.core k n).testing = false) :
    exec (.correctedError k ⟨u, c⟩ n v) s = .next (s.modPkg k (fun p => errorNoted (if u = 0 then p.dropParity n v c else p) 0x40 u n v v.toNat false)) := by
  refine Eq.trans (show _ = execCorrectedError k ⟨u, c⟩ n v s from rfl) (congrArg Host.Outcome.next (modPkg_congr ?_))
  refine if_neg ?_
  rw [Bool.and_eq_true, decide_eq_true_eq]
  rintro ⟨h1, h2⟩
  exact h.elim (fun h => h h1) (fun h => absurd (h2.symm.trans h) (by decide))

/-! ### Uncorrectable errors (R324, R424, R425) -/

section
variable {s : State} {k n : Nat} {u : Byte} {v : W64}
theorem uncorrectable_unit (hu : u = 1 ∨ u = 2) : exec (.uncorrectableError k u n v) s = .next ((s.modPkg k (fun p => errorNoted p 0x41 u n v v.toNat true)).modPkg k
    (fun p => { p with phys := { p.phys with poison := (p.phys.poison ++ [errorUnit k u n v]).dedup } })) := by
  refine Eq.trans (show _ = execUncorrectableError k u n v s from rfl) ?_
  unfold execUncorrectableError
  dsimp only
  rw [if_neg (by rcases hu with rfl | rfl <;> decide), if_pos hu]
  rfl
theorem uncorrectable_other (hu : u = 3 ∨ u = 4 ∨ u = 5) : exec (.uncorrectableError k u n v) s = .next (s.modPkg k (fun p => errorNoted p 0x41 u n v v.toNat true)) := by
  refine Eq.trans (show _ = execUncorrectableError k u n v s from rfl) ?_
  unfold execUncorrectableError
  dsimp only
  rw [if_neg (by rcases hu with rfl | rfl | rfl <;> decide), if_neg (by rcases hu with rfl | rfl | rfl <;> decide),
    if_neg (by rcases hu with rfl | rfl | rfl <;> decide)]
  rfl
/-- An error in a unit of memory poisons it. -/
theorem uncorrectable_poisons (hu : u = 1 ∨ u = 2) : After (.uncorrectableError k u n v) s (fun t => PackageOnly s t k ∧ EventWritten s t k 0x41 u.toNat n ∧
    (u.toNat ≤ 4 → (∃ x ∈ (t.pkg k).phys.tests, x.cls = u ∧ x.unit = n ∧ ((u = 1 ∨ u = 2) → x.row = v.toNat)) ∧ (u = 0 → (t.core k n).testing = true)) ∧
    (∀ x ∈ (s.pkg k).phys.poison, x ∈ (t.pkg k).phys.poison) ∧ errorUnit k u n v ∈ (t.pkg k).phys.poison) := by
  refine ⟨_, uncorrectable_unit hu, ?_⟩
  have hnoted := errorNoted_after (s := s) (t := s.modPkg k (fun p => errorNoted p 0x41 u n v v.toNat true)) rfl (State.pkg_modPkg_self ..) (by decide)
  have hpoison := errorNoted_of_frame (s.pkg k) 0x41 u n v v.toNat true (fun q => q.phys.poison) (fun _ _ _ _ => rfl)
  generalize hs1 : s.modPkg k (fun p => errorNoted p 0x41 u n v v.toNat true) = s1 at hnoted ⊢
  have hp1 : s1.pkg k = errorNoted (s.pkg k) 0x41 u n v v.toNat true := by
    rw [← hs1, State.pkg_modPkg_self]
  have hp := State.pkg_modPkg_self s1 k (fun p => { p with phys := { p.phys with poison := (p.phys.poison ++ [errorUnit k u n v]).dedup } })
  obtain ⟨he, ht⟩ := hnoted
  refine ⟨⟨by rw [← hs1]; rfl, fun j hj => ?_⟩, ?_, fun hu4 => ⟨?_, fun h0 => ?_⟩, fun x hx => ?_, ?_⟩
  · rw [State.pkg_modPkg, if_neg hj, ← hs1, State.pkg_modPkg, if_neg hj]
  · unfold EventWritten eventWord at he ⊢
    rw [hp]
    exact he
  · rw [hp]
    exact (ht hu4).1
  · rw [h0] at hu
    exact absurd hu (by decide)
  · rw [hp]
    refine List.mem_dedup.2 (List.mem_append_left _ ?_)
    rw [hp1]
    exact hpoison ▸ hx
  · rw [hp]
    exact List.mem_dedup.2 (List.mem_append_right _ (List.mem_singleton_self _))

/-! ### A core that fails (R324) -/

/-- The error of a core, however it comes, is recorded, its test begins and its troupes are taken care of. -/
theorem coreError_eq {i : Instr} (hi : i = .eccu k n 4 ∨ i = .uncorrectableError k 0 n v) : ∃ wh row fr,
    exec i s = .next (({ s with fresh := fr }.modPkg k (fun p => errorNoted p 0x41 0 n wh row true)).coreFailed k n 4) := by
  rcases hi with rfl | rfl
  · exact ⟨_, _, _, rfl⟩
  · exact ⟨v, v.toNat, s.fresh, rfl⟩
/-- A core with no request for registers grants none. -/
theorem grant_of_none (h : (s.core k n).grantQ = []) : s.grant k n = s := by
  have h1 : grantGo k n 32 s = s := by
    rw [grantGo]
    split
    · rfl
    · next hq => rw [h] at hq; exact absurd hq (by simp)
  unfold State.grant
  rw [h1, deadGo]
  dsimp only
  rw [h]
  rfl
/-- The end of a request concerns the requests and the host of its package alone. -/
theorem foldl_preemptEvent (l : List Preempt) (p : Pkg) (x : W32) (b : Bool) : ∃ h, l.foldl (fun p _ => preemptEvent p x b) p = { p with host := h } := by
  induction l generalizing p with
  | nil => exact ⟨p.host, rfl⟩
  | cons a l ih =>
    obtain ⟨h1, e1⟩ := writeEvent_host p (leBytes 8 (0xFFFFFFFF * 2 ^ 32 + 0 % 2 ^ 16 * 2 ^ 16 + 6 % 256 * 256 + 0x4E % 256) ++
      leBytes 8 (BitVec.ofNat 64 (x.toNat + b.toNat * 2 ^ 32)).toNat ++ leBytes 8 p.fab.caltime.toNat ++ leBytes 40 0)
    obtain ⟨h2, e2⟩ := ih { p with host := h1 }
    refine ⟨h2, ?_⟩
    rw [List.foldl_cons, show preemptEvent p x b = { p with host := h1 } from e1, e2]
theorem preemptCheck_only (s : State) (k : Nat) (x : W32) : PackageOnly s (s.preemptCheck k x) k ∧
    ∃ l h, (s.preemptCheck k x).pkg k = { s.pkg k with sched := { (s.pkg k).sched with preempts := l }, host := h } := by
  unfold State.preemptCheck
  dsimp only
  split
  · exact ⟨⟨rfl, fun _ _ => rfl⟩, _, _, rfl⟩
  · refine ⟨modPkg_only .., ?_⟩
    rw [State.pkg_modPkg_self]
    obtain ⟨h, e⟩ := foldl_preemptEvent (((s.pkg k).requests x).filter (fun r => s.preemptOver k x r))
      ((s.pkg k).setRequests x (((s.pkg k).requests x).map (fun r => if s.preemptOver k x r then { r with stage := .over_, troupes := [] } else r))) x false
    exact ⟨_, h, e⟩
/-- The stop of a context is told of by what becomes of its waves, troupes, queues, launches and context. -/
theorem ContextStops.congr {s s' t t' : State} {k : Nat} {c : W32} (h : ContextStops s' t' k c) (hw : s'.waves = s.waves) (hu : s'.troupes = s.troupes)
    (hc : (s'.pkg k).ctxs = (s.pkg k).ctxs) (hq : (s'.pkg k).sched.lqs = (s.pkg k).sched.lqs) (hw' : t.waves = t'.waves) (hu' : t.troupes = t'.troupes)
    (hc' : (t.pkg k).ctxs = (t'.pkg k).ctxs) (hq' : (t.pkg k).sched.lqs = (t'.pkg k).sched.lqs)
    (hl' : (t.pkg k).sched.launches = (t'.pkg k).sched.launches) : ContextStops s t k c := by
  have hwave : ∀ w, t.wave w = t'.wave w := fun w => by unfold State.wave; rw [hw']
  have htroupe : ∀ w, t.troupe w = t'.troupe w := fun w => by unfold State.troupe; rw [hu']
  refine ⟨fun w x y => ?_, ?_, ?_, ?_, ?_⟩
  · rw [hwave, htroupe, ← hw, ← hu]
    exact h.waves w x y
  · simp only [htroupe, ← hu]
    exact h.others
  · rw [← hc, ← hq, hq']
    exact h.queues
  · rw [← hc, hl']
    exact h.launches
  · rw [← hc, hc']
    exact h.stopped

end
/-- A core from which the work of troupes has been taken. -/
def coreWithout (s : State) (tids : List Nat) (x : Core) : Core :=
  { x with
    grantQ := x.grantQ.filter (fun g => !(tids.contains ((s.wave g.1).tid)))
    mxq := x.mxq.filter (fun y => !(tids.contains y.tid))
    detBuf := x.detBuf.filter (fun d => !(tids.contains d.tid)) }
/-- A core without requests for registers still has none. -/
theorem grantQ_coreWithout {s : State} {tids : List Nat} {m : FMap Core} {n : Nat} (h : (fget Core.init m n).grantQ = []) :
    (fget Core.init (fall m (fun _ => coreWithout s tids)) n).grantQ = [] := by
  rw [fget_fall]
  rw [fget_eq_flook] at h
  cases hm : flook m n with
  | none => rfl
  | some x =>
    rw [hm] at h
    show List.filter _ x.grantQ = []
    rw [show x.grantQ = [] from h]
    rfl
theorem clearContext_cores (s : State) (k : Nat) (c : W32) : ((clearContext s k c).pkg k).cores =
    fall (s.pkg k).cores (fun _ => coreWithout s ((s.ctxTroupes k c).map (fun (e : Nat × Troupe) => e.1))) := by
  unfold clearContext
  dsimp only
  rw [State.pkg_modPkg_self]
  rfl
theorem dropTroupes_cores (s : State) (k : Nat) (tids : List Nat) : ((s.dropTroupes k tids).pkg k).cores = fall (s.pkg k).cores (fun _ => coreWithout s tids) := by
  unfold State.dropTroupes
  dsimp only
  rw [State.pkg_modPkg_self]
  rfl
theorem stopContext_grantQ {s : State} {k n : Nat} (c : W32) (cause : Cause) (sub : Byte) (pc va : W64) (h : (s.core k n).grantQ = []) :
    ((stopContext s k c cause sub pc va).core k n).grantQ = [] := by
  have hc : (fget Core.init ((clearContext s k c).pkg k).cores n).grantQ = [] := by
    rw [clearContext_cores]
    exact grantQ_coreWithout h
  have he : ∀ l, ((hostEvent (clearContext s k c) k c cause sub l pc va).core k n).grantQ = [] := fun l =>
    (hostEvent_of_host (clearContext s k c) k c cause sub l pc va (fun p => (p.core n).grantQ) (fun _ _ => rfl) k).trans hc
  rw [stopContext_eq]
  split
  · split
    · exact hc
    · exact he _
  · split
    · exact h
    · exact he _
theorem coreFailed_none {s : State} {k n : Nat} (ht : s.coreTroupes k n = []) (hg : (s.core k n).grantQ = []) (sub : Byte) : s.coreFailed k n sub = s := by
  unfold State.coreFailed
  rw [ht]
  exact grant_of_none hg
theorem coreFailed_one {s : State} {k n tid : Nat} {w : Troupe} {sub : Byte} (ht : s.coreTroupes k n = [(tid, w)])
    (hg : ((s.eccTroupe tid sub).core k n).grantQ = []) : s.coreFailed k n sub = (s.eccTroupe tid sub).preemptCheck k ((s.eccTroupe tid sub).troupe tid).ctx := by
  unfold State.coreFailed
  rw [ht]
  show ((s.eccTroupe tid sub).grant k n).preemptCheck k (((s.eccTroupe tid sub).grant k n).troupe tid).ctx = _
  rw [grant_of_none hg]
theorem mem_coreTroupes {s : State} {k n : Nat} {e : Nat × Troupe} (h : e ∈ s.coreTroupes k n) : e.2.pkg = k ∧ e.2.core = n ∧ e.2.st.onCore = true := by
  have := (List.mem_filter.1 h).2
  rw [Bool.and_eq_true, Bool.and_eq_true, beq_iff_eq, beq_iff_eq] at this
  exact ⟨this.1.1, this.1.2, this.2⟩
section
variable {s : State} {k n tid : Nat} {w : Troupe} {c : Corps} {sub : Byte} (htr : s.troupe tid = w) (hst : w.st = .resident)
include htr hst
theorem eccTroupe_stops (hi : w.hdr.idem = false) : ∃ a b, s.eccTroupe tid sub = stopContext s w.pkg w.ctx .eccu sub a b := by
  unfold State.eccTroupe
  dsimp only
  rw [htr, hst, hi]
  exact ⟨_, _, rfl⟩
/-- What becomes of an idempotent launch whose troupe is to be placed again away from its core. -/
def redone (tids : List Nat) (tix : List Nat) (quiet : List Nat) (at_ : Nat × Nat) (x : Launch) : Launch :=
  { x with redo := x.redo ++ [at_], quiet := x.quiet ++ quiet.filter (fun i => !x.quiet.contains i), saved := x.saved.filter (fun n => !tids.contains n),
           deferred := x.deferred.filter (fun (d : DetEntry) => !tix.contains d.tidx) }
theorem eccTroupe_redoes (hi : w.hdr.idem = true) (hc : flook s.corps w.corps = some c) : ∃ tix quiet,
    s.eccTroupe tid sub = (s.dropTroupes w.pkg c.troupes).modPkg w.pkg (fun p => p.modLaunch w.launch (redone c.troupes tix quiet (c.idx, w.core))) := by
  unfold State.eccTroupe
  dsimp only
  rw [htr, hst, hi, fget_of_flook_some hc]
  exact ⟨_, _, rfl⟩
end
/-- The state in which a core's error has been recorded. -/
theorem coreNoted_same {s : State} {k n : Nat} {wh : W64} {row fr : Nat} {s1 : State}
    (h1 : s1 = { s with fresh := fr }.modPkg k (fun p => errorNoted p 0x41 0 n wh row true)) :
    s1.mem = s.mem ∧ s1.waves = s.waves ∧ s1.troupes = s.troupes ∧ s1.corps = s.corps ∧ s1.coreTroupes k n = s.coreTroupes k n ∧
    (s1.core k n).grantQ = (s.core k n).grantQ ∧ (s1.pkg k).sched = (s.pkg k).sched ∧ (s1.pkg k).ctxs = (s.pkg k).ctxs ∧
    EventWritten s s1 k 0x41 0 n ∧ (s1.core k n).testing = true := by
  have hp : s1.pkg k = errorNoted (s.pkg k) 0x41 0 n wh row true := by
    rw [h1, State.pkg_modPkg_self]
    rfl
  obtain ⟨he, ht⟩ := errorNoted_after rfl hp (by decide)
  refine ⟨by rw [h1]; rfl, by rw [h1]; rfl, by rw [h1]; rfl, by rw [h1]; rfl, by rw [h1]; rfl, ?_, ?_, ?_, he, (ht (by decide)).2 rfl⟩
  · unfold State.core
    rw [hp, errorNoted_core, if_pos ⟨rfl, rfl⟩]
  · rw [hp]
    exact errorNoted_of_frame _ _ _ _ _ _ _ (fun p => p.sched) (fun _ _ _ _ => rfl)
  · rw [hp]
    exact errorNoted_of_frame _ _ _ _ _ _ _ (fun p => p.ctxs) (fun _ _ _ _ => rfl)
section
variable {s : State} {k n : Nat} {v : W64} {i : Instr} (hi : i = .eccu k n 4 ∨ i = .uncorrectableError k 0 n v) (hg : (s.core k n).grantQ = [])
include hi hg
theorem coreError_idle (ht : s.coreTroupes k n = []) : After i s (fun t => t.mem = s.mem ∧ t.waves = s.waves ∧
    EventWritten s t k 0x41 0 n ∧ (t.core k n).testing = true) := by
  obtain ⟨wh, row, fr, he⟩ := coreError_eq (s := s) hi
  generalize h1 : ({ s with fresh := fr }.modPkg k (fun p => errorNoted p 0x41 0 n wh row true)) = s1 at he
  obtain ⟨hmem, hw, -, -, hct, hq, -, -, hev, htest⟩ := coreNoted_same h1.symm
  rw [coreFailed_none (hct.trans ht) (hq.trans hg)] at he
  exact ⟨_, he, hmem, hw, hev, htest⟩
variable {tid : Nat} {w : Troupe} (ht : s.coreTroupes k n = [(tid, w)]) (htr : s.troupe tid = w) (hst : w.st = .resident)
include ht htr hst
theorem coreError_stops (hid : w.hdr.idem = false) : After i s (fun t => ContextStops s t k w.ctx) := by
  obtain ⟨hk, -, -⟩ := mem_coreTroupes (ht ▸ List.mem_singleton_self (tid, w))
  obtain ⟨wh, row, fr, he⟩ := coreError_eq (s := s) hi
  generalize h1 : ({ s with fresh := fr }.modPkg k (fun p => errorNoted p 0x41 0 n wh row true)) = s1 at he
  obtain ⟨-, hw, htp, -, hct, hq, hsc, hcx, -, -⟩ := coreNoted_same h1.symm
  have htr1 : s1.troupe tid = w := by
    unfold State.troupe
    rw [htp]
    exact htr
  obtain ⟨a, b, hecc⟩ := eccTroupe_stops (sub := 4) htr1 hst hid
  rw [show w.pkg = k from hk] at hecc
  rw [coreFailed_one (hct.trans ht) (by rw [hecc]; exact stopContext_grantQ _ _ _ _ _ (hq.trans hg)), hecc] at he
  refine ⟨_, he, ?_⟩
  obtain ⟨⟨hf, -⟩, l, h, hp⟩ := preemptCheck_only (stopContext s1 k w.ctx .eccu 4 a b) k ((stopContext s1 k w.ctx .eccu 4 a b).troupe tid).ctx
  exact (stopContext_stops s1 k w.ctx .eccu 4 a b).congr hw htp hcx (by rw [hsc]) (by rw [hf]) (by rw [hf]) (by rw [hp]) (by rw [hp]) (by rw [hp])
theorem coreError_redoes {c : Corps} {x : Launch} (hid : w.hdr.idem = true) (hc : flook s.corps w.corps = some c) (hct : c.troupes = [tid])
    (hx : flook (s.pkg k).sched.launches w.launch = some x) : After i s (fun t => (∀ y, flook s.troupes tid = some y → (t.troupe tid).st = .published) ∧
      (∀ a b, flook s.waves a = some b → b.tid = tid → (t.wave a).ended = true) ∧
      ∃ z, flook (t.pkg k).sched.launches w.launch = some z ∧ z.redo = x.redo ++ [(c.idx, n)]) := by
  obtain ⟨hk, hn, -⟩ := mem_coreTroupes (ht ▸ List.mem_singleton_self (tid, w))
  obtain ⟨wh, row, fr, he⟩ := coreError_eq (s := s) hi
  generalize h1 : ({ s with fresh := fr }.modPkg k (fun p => errorNoted p 0x41 0 n wh row true)) = s1 at he
  obtain ⟨-, hw, htp, hcp, hctr, hq, hsc, -, -, -⟩ := coreNoted_same h1.symm
  have htr1 : s1.troupe tid = w := by
    unfold State.troupe
    rw [htp]
    exact htr
  obtain ⟨tix, quiet, hecc⟩ := eccTroupe_redoes (sub := 4) htr1 hst hid (by rw [hcp]; exact hc)
  rw [show w.pkg = k from hk, show w.core = n from hn, hct] at hecc
  have hgq : ((s1.eccTroupe tid 4).core k n).grantQ = [] := by
    have hd : (fget Core.init ((s1.dropTroupes k [tid]).pkg k).cores n).grantQ = [] := by
      rw [dropTroupes_cores]
      exact grantQ_coreWithout (hq.trans hg)
    unfold State.core
    rw [hecc, State.pkg_modPkg_self]
    exact hd
  rw [coreFailed_one (hctr.trans ht) hgq] at he
  generalize hu : s1.eccTroupe tid 4 = u at he hecc
  obtain ⟨⟨hf, -⟩, l, h, hp⟩ := preemptCheck_only u k (u.troupe tid).ctx
  have huw : u.waves = fall s.waves (fun _ v => if [tid].contains v.tid then { v with ended := true, waits := [] } else v) := by
    rw [hecc, ← hw]
    rfl
  have hut : u.troupes = fall s.troupes (fun n t => if [tid].contains n then { t with st := .published } else t) := by
    rw [hecc, ← htp]
    rfl
  have hul : (u.pkg k).sched.launches = fmod (s.pkg k).sched.launches w.launch (redone [tid] tix quiet (c.idx, n)) := by
    rw [hecc, State.pkg_modPkg_self, ← hsc]
    unfold State.dropTroupes
    dsimp only
    rw [State.pkg_modPkg_self]
    rfl
  refine ⟨_, he, fun y hy => ?_, fun a b ha hb => ?_, redone [tid] tix quiet (c.idx, n) x, ?_, rfl⟩
  · rw [hf]
    show (fget _ u.troupes tid).st = _
    rw [hut, fget_fall, hy]
    exact congrArg Troupe.st (if_pos (by simp))
  · rw [hf]
    show (fget _ u.waves a).ended = true
    rw [huw, fget_fall, ha]
    exact congrArg Wave.ended (if_pos (by simp [hb]))
  · rw [hp]
    show flook (u.pkg k).sched.launches w.launch = _
    rw [hul]
    exact flook_ne_none_fmod hx
end

/-! ### The end of a test (R426, R432) -/

section
variable {s : State} {k n : Nat} {u : Byte} {v : W64} {ok : Bool}
theorem selfTestEnd_none (h : (s.pkg k).phys.tests.find? (fun t => t.same u n v.toNat) = none ∨ (u = 0 ∧ s.coreTroupes k n ≠ [])) :
    exec (.selfTestEnd k ⟨u, v⟩ n ok) s = .next s := by
  refine Eq.trans (show _ = execSelfTestEnd k ⟨u, v⟩ n ok s from rfl) ?_
  unfold execSelfTestEnd
  split
  · rfl
  · next x hx =>
    rcases h with h | ⟨h0, h⟩
    · exact absurd (h.symm.trans hx) (by simp)
    · refine if_pos ?_
      rw [Bool.and_eq_true, decide_eq_true_eq, Bool.not_eq_true', List.isEmpty_eq_false_iff]
      exact ⟨h0, h⟩
/-- When the unit's errors proved transient in the last 24 hours. -/
def recentTransients (s : State) (k : Nat) (x : Test) : List Nat :=
  (fget [] (s.pkg k).phys.transients (unitKey x)).filter (fun a => (s.pkg k).fab.caltime.toNat ≤ a + 24 * 3600 * 10 ^ 9)
/-- A test that finds a fault that lasts. -/
def Lasting (s : State) (k : Nat) (x : Test) (ok : Bool) : Prop := ok = false ∨ x.ue = true ∨ 2 ≤ (recentTransients s k x).length
/-- The end of a test is recorded. -/
def testNoted (s : State) (k : Nat) (x : Test) (kind : Nat) (u : Byte) (n : Nat) (p : Pkg) : Pkg :=
  mgmtEvent { p with phys := { p.phys with
    tests := p.phys.tests.erase x
    transients := fput p.phys.transients (unitKey x) (recentTransients s k x ++ [(s.pkg k).fab.caltime.toNat]) } } kind u.toNat n (BitVec.ofNat 64 x.row)
variable {x : Test} (hx : (s.pkg k).phys.tests.find? (fun t => t.same u n v.toNat) = some x) (h0 : u = 0 → s.coreTroupes k n = [])
include hx h0
theorem selfTestEnd_eq : exec (.selfTestEnd k ⟨u, v⟩ n ok) s = .next (if !ok || x.ue || decide (2 ≤ (recentTransients s k x).length) then
      (s.modPkg k (testNoted s k x 0x43 u n)).retire k x
    else if u = 0 then (s.modPkg k (testNoted s k x 0x42 u n)).modCore k n (fun c => { c with testing := false }) else s.modPkg k (testNoted s k x 0x42 u n)) := by
  refine Eq.trans (show _ = execSelfTestEnd k ⟨u, v⟩ n ok s from rfl) ?_
  unfold execSelfTestEnd
  rw [hx]
  dsimp only
  rw [if_neg]
  · refine congrArg Host.Outcome.next ?_
    show (if (!ok || x.ue || decide (2 ≤ (recentTransients s k x).length)) = true then _ else _) = _
    split
    · next h =>
      refine congrArg (State.retire · k x) (modPkg_congr ?_)
      show mgmtEvent _ (if (!ok || x.ue || decide (2 ≤ (recentTransients s k x).length)) = true then 0x43 else 0x42) _ _ _ = _
      rw [if_pos h]
      rfl
    · next h =>
      have hm : ∀ f, f (s.pkg k) = testNoted s k x 0x42 u n (s.pkg k) → s.modPkg k f = s.modPkg k (testNoted s k x 0x42 u n) := fun f hf => modPkg_congr hf
      rw [hm]
      show mgmtEvent _ (if (!ok || x.ue || decide (2 ≤ (recentTransients s k x).length)) = true then 0x43 else 0x42) _ _ _ = _
      rw [if_neg h]
      rfl
  · rw [Bool.and_eq_true, decide_eq_true_eq, Bool.not_eq_true', List.isEmpty_eq_false_iff]
    exact fun h => h.2 (h0 h.1)
omit hx h0 in
theorem lasting_iff : (!ok || x.ue || decide (2 ≤ (recentTransients s k x).length)) = true ↔ Lasting s k x ok := by
  unfold Lasting
  rw [Bool.or_eq_true, Bool.or_eq_true, Bool.not_eq_true', decide_eq_true_eq, or_assoc]
end

/-- What the record of a test's end leaves. -/
theorem testNoted_host (s : State) (k : Nat) (x : Test) (kind : Nat) (u : Byte) (n : Nat) (p : Pkg) : ∃ h, testNoted s k x kind u n p =
    { p with host := h, phys := { p.phys with
      tests := p.phys.tests.erase x
      transients := fput p.phys.transients (unitKey x) (recentTransients s k x ++ [(s.pkg k).fab.caltime.toNat]) } } := writeEvent_host _ _
theorem testNoted_written {s t : State} {k n : Nat} {x : Test} {kind : Nat} {u : Byte} (ht : (t.pkg k).host = (testNoted s k x kind u n (s.pkg k)).host)
    (hk : kind < 256) : EventWritten s t k kind u.toNat n := by
  refine mgmtEvent_written_host ?_ ht hk u.isLt
  rfl
/-- A unit proved sound. -/
theorem selfTest_transient (s : State) (k n : Nat) (u : Byte) (x : Test) :
    let t := if u = 0 then (s.modPkg k (testNoted s k x 0x42 u n)).modCore k n (fun c => { c with testing := false }) else s.modPkg k (testNoted s k x 0x42 u n)
    PackageOnly s t k ∧ EventWritten s t k 0x42 u.toNat n ∧ (t.pkg k).phys.tests = (s.pkg k).phys.tests.erase x ∧
    fget [] (t.pkg k).phys.transients (unitKey x) = recentTransients s k x ++ [(s.pkg k).fab.caltime.toNat] ∧
    (u = 0 → (t.core k n).testing = false ∧ (t.core k n).fenced = (s.core k n).fenced) := by
  obtain ⟨h, e⟩ := testNoted_host s k x 0x42 u n (s.pkg k)
  have hp : (s.modPkg k (testNoted s k x 0x42 u n)).pkg k = testNoted s k x 0x42 u n (s.pkg k) := State.pkg_modPkg_self ..
  have hev := testNoted_written (s := s) (t := s.modPkg k (testNoted s k x 0x42 u n)) (congrArg Pkg.host hp) (by decide : 0x42 < 256)
  have hfree : (((s.modPkg k (testNoted s k x 0x42 u n)).pkg k).phys.tests = (s.pkg k).phys.tests.erase x ∧
      fget [] ((s.modPkg k (testNoted s k x 0x42 u n)).pkg k).phys.transients (unitKey x) = recentTransients s k x ++ [(s.pkg k).fab.caltime.toNat]) := by
    rw [hp, e]
    exact ⟨rfl, fget_fput_self ..⟩
  have honly := modPkg_only s k (testNoted s k x 0x42 u n)
  have hcore : (s.modPkg k (testNoted s k x 0x42 u n)).core k n = s.core k n := by
    unfold State.core
    rw [hp, e]
    rfl
  generalize s.modPkg k (testNoted s k x 0x42 u n) = s1 at hev hfree honly hcore
  by_cases hu : u = 0
  · simp only [if_pos hu]
    have hq : (s1.modCore k n (fun c => { c with testing := false })).pkg k = (s1.pkg k).setCore n { s1.core k n with testing := false } :=
      (State.pkg_modCore ..).trans (if_pos rfl)
    refine ⟨⟨?_, fun j hj => ?_⟩, ?_, ?_, ?_, fun _ => ?_⟩
    · rw [honly.1]
      rfl
    · rw [State.pkg_modCore, if_neg hj]
      exact honly.2 j hj
    · unfold EventWritten eventWord at hev ⊢
      rw [hq]
      exact hev
    · rw [hq]
      exact hfree.1
    · rw [hq]
      exact hfree.2
    · have hc : (s1.modCore k n (fun c => { c with testing := false })).core k n = { s.core k n with testing := false } := by
        unfold State.core at hcore ⊢
        rw [hq, Pkg.core_setCore, if_pos rfl]
        unfold State.core
        rw [hcore]
      rw [hc]
      exact ⟨rfl, rfl⟩
  · simp only [if_neg hu]
    exact ⟨honly, hev, hfree.1, hfree.2, fun h => absurd h hu⟩
/-- Nothing waits at a package without launches. -/
theorem refuseUnfit_none {s : State} {k : Nat} (h : (s.pkg k).sched.launches = []) : s.refuseUnfit k = s := by
  unfold State.refuseUnfit
  dsimp only
  rw [h]
  rfl
/-- A unit that is retired, on a package without launches. -/
structure Retired (s t : State) (k n : Nat) (x : Test) : Prop where
  mem : t.mem = s.mem
  waves : t.waves = s.waves
  host : (t.pkg k).host = (s.pkg k).host
  tests : (t.pkg k).phys.tests = (s.pkg k).phys.tests
  core : x.cls = 0 → (t.core k x.unit).fenced = true ∧ (t.core k x.unit).testing = false
  engine : x.cls = 3 → x.unit ∈ (t.pkg k).phys.engBad
  reducer : x.cls = 4 → x.unit ∈ (t.pkg k).phys.redBad
  row : x.cls = 2 → ((t.pkg k).phys.withdrawn = (s.pkg k).phys.withdrawn ∧ (t.pkg k).phys.pool = (s.pkg k).phys.pool) ∨
    (x.row % 2 ^ 39 / 2 ^ 16 ∈ (t.pkg k).phys.withdrawn ∧ ∀ d, x.row % 2 ^ 39 / 2 ^ 16 ∉ fget [] (t.pkg k).phys.pool d)
theorem not_mem_filtered {m : FMap (List Nat)} (f d : Nat) : f ∉ fget [] (fall m (fun _ (l : List Nat) => l.filter (fun g => g != f))) d := by
  rw [fget_fall]
  cases flook m d with
  | none => exact List.not_mem_nil
  | some l =>
    intro h
    have := (List.mem_filter.1 h).2
    simp at this
theorem retire_retired {s : State} {k : Nat} (n : Nat) (x : Test) (hl : (s.pkg k).sched.launches = []) : Retired s (s.retire k x) k n x := by
  have ne : ∀ {a b : Byte}, x.cls = a → a ≠ b → x.cls ≠ b := fun h hab hb => hab (h.symm.trans hb)
  unfold State.retire
  by_cases h0 : x.cls = 0
  · have hq : (s.modCore k x.unit (fun c => { c with fenced := true, testing := false })).pkg k =
        (s.pkg k).setCore x.unit { s.core k x.unit with fenced := true, testing := false } := (State.pkg_modCore ..).trans (if_pos rfl)
    rw [if_pos h0, refuseUnfit_none (by rw [hq]; exact hl)]
    refine ⟨rfl, rfl, by rw [hq]; rfl, by rw [hq]; rfl, fun _ => ?_, fun h => absurd h (ne h0 (by decide)), fun h => absurd h (ne h0 (by decide)), fun h => absurd h (ne h0 (by decide))⟩
    have hc : (s.modCore k x.unit (fun c => { c with fenced := true, testing := false })).core k x.unit =
        { s.core k x.unit with fenced := true, testing := false } := by
      unfold State.core
      rw [hq, Pkg.core_setCore, if_pos rfl]
      rfl
    rw [hc]
    exact ⟨rfl, rfl⟩
  · rw [if_neg h0]
    by_cases h3 : x.cls = 3
    · rw [if_pos h3]
      refine ⟨rfl, rfl, ?_, ?_, fun h => absurd h h0, fun _ => ?_, fun h => absurd h (ne h3 (by decide)), fun h => absurd h (ne h3 (by decide))⟩ <;> rw [State.pkg_modPkg_self]
      exact List.mem_dedup.2 (List.mem_append_right _ (List.mem_singleton_self _))
    · rw [if_neg h3]
      by_cases h4 : x.cls = 4
      · rw [if_pos h4]
        refine ⟨rfl, rfl, ?_, ?_, fun h => absurd h h0, fun h => absurd h h3, fun _ => ?_, fun h => absurd h (ne h4 (by decide))⟩ <;> rw [State.pkg_modPkg_self]
        exact List.mem_dedup.2 (List.mem_append_right _ (List.mem_singleton_self _))
      · rw [if_neg h4]
        by_cases h2 : x.cls = 2
        · rw [if_pos h2]
          dsimp only
          split
          · exact ⟨rfl, rfl, rfl, rfl, fun h => absurd h h0, fun h => absurd h h3, fun h => absurd h h4, fun _ => .inl ⟨rfl, rfl⟩⟩
          · refine ⟨rfl, rfl, ?_, ?_, fun h => absurd h h0, fun h => absurd h h3, fun h => absurd h h4, fun _ => .inr ?_⟩ <;> rw [State.pkg_modPkg_self]
            · rfl
            · rfl
            · exact ⟨List.mem_dedup.2 (List.mem_append_right _ (List.mem_singleton_self _)), not_mem_filtered _⟩
        · rw [if_neg h2]
          exact ⟨rfl, rfl, rfl, rfl, fun h => absurd h h0, fun h => absurd h h3, fun h => absurd h h4, fun h => absurd h h2⟩

/-- Settles O50, from the record of an error, what a failed core's troupes come to, and the end of a test. -/
theorem errorsAndTests : Obligations.ErrorsAndTests := by
  unfold Obligations.ErrorsAndTests
  intro s k n u v p isRow tested maps idle
  refine ⟨fun c hu ht => correctedError_ignored v hu ht, fun c h => ?_, fun hu => ?_, fun hidle i hi => coreError_idle hi hidle.2 hidle.1,
    fun tid w ht htr hst hg i hi => ⟨fun hid => coreError_stops hi hg ht htr hst hid, fun c x hid hc hct hx => coreError_redoes hi hg ht htr hst hid hc hct hx⟩,
    fun ok h => selfTestEnd_none h, fun x ok hx h0 => ⟨fun hl => ?_, fun hl hn => ?_⟩⟩
  · have hd : (if u = 0 then p.dropParity n v c else p).host = p.host := by
      split
      · exact (dropParity_dropped p n v c).host
      · rfl
    generalize hq : (if u = 0 then p.dropParity n v c else p) = q at hd
    have hp : (s.modPkg k (fun p => errorNoted (if u = 0 then p.dropParity n v c else p) 0x40 u n v v.toNat false)).pkg k = errorNoted q 0x40 u n v v.toNat false := by
      rw [State.pkg_modPkg_self, ← hq]
    obtain ⟨h1, h2⟩ := errorNoted_after (s := s) hd hp (by decide)
    refine ⟨_, correctedError_eq v h, modPkg_only .., h1, h2, ?_⟩
    have hcore : ∀ {α : Type} (f : Core → α), (∀ x b, f { x with testing := b } = f x) →
        f ((s.modPkg k (fun p => errorNoted (if u = 0 then p.dropParity n v c else p) 0x40 u n v v.toNat false)).core k n) = f (q.core n) := fun f hf => by
      unfold State.core
      rw [hp, errorNoted_core]
      split
      · exact hf _ _
      · rfl
    rw [hcore Core.lines (fun _ _ => rfl), hcore Core.tlb (fun _ _ => rfl), hp, errorNoted_of_frame q _ _ _ _ _ _ Pkg.tlb2 (fun _ _ _ _ => rfl),
      errorNoted_of_frame q _ _ _ _ _ _ Pkg.wcache (fun _ _ _ _ => rfl)]
    by_cases hu : u = 0
    · rw [if_pos hu] at hq
      have hpar := dropParity_dropped p n v c
      rw [hq] at hpar
      simp only [hu, true_and]
      exact ⟨hpar.lines, hpar.tlb, hpar.tlb2, hpar.walks⟩
    · rw [if_neg hu] at hq
      have hno : ∀ m, ¬ (u = 0 ∧ c = m) := fun m h => hu h.1
      rw [if_neg (hno 1), if_neg (hno 2), if_neg (hno 3), if_neg (hno 4), ← hq]
      exact ⟨rfl, rfl, rfl, rfl⟩
  · by_cases hm : u = 1 ∨ u = 2
    · obtain ⟨t, ht, h1, h2, h3, h4, h5⟩ := uncorrectable_poisons (s := s) (k := k) (n := n) (v := v) hm
      refine ⟨t, ht, h1, h2, h3, h4, ?_, ?_⟩
      · rintro rfl
        exact h5
      · rintro rfl
        exact h5
    · have hother : u = 3 ∨ u = 4 ∨ u = 5 := by
        rcases hu with h | h | h
        · exact absurd (.inl h) hm
        · exact absurd (.inr h) hm
        · exact h
      have hp := State.pkg_modPkg_self s k (fun p => errorNoted p 0x41 u n v v.toNat true)
      obtain ⟨h1, h2⟩ := errorNoted_after rfl hp (by decide)
      refine ⟨_, uncorrectable_other hother, modPkg_only .., h1, h2, fun x hx => ?_, fun h => absurd (.inl h) hm, fun h => absurd (.inr h) hm⟩
      rw [hp, errorNoted_of_frame _ _ _ _ _ _ _ (fun q => q.phys.poison) (fun _ _ _ _ => rfl)]
      exact hx
  · have he := selfTestEnd_eq (ok := ok) hx h0
    rw [if_neg (mt lasting_iff.1 hl)] at he
    exact ⟨_, he, selfTest_transient s k n u x⟩
  · have he := selfTestEnd_eq (ok := ok) hx h0
    rw [if_pos (lasting_iff.2 hl)] at he
    obtain ⟨h, e⟩ := testNoted_host s k x 0x43 u n p
    have hp : (s.modPkg k (testNoted s k x 0x43 u n)).pkg k = testNoted s k x 0x43 u n p := State.pkg_modPkg_self ..
    have r := retire_retired (s := s.modPkg k (testNoted s k x 0x43 u n)) (k := k) n x (by rw [hp, e]; exact hn)
    obtain ⟨hcls', hunit', -⟩ := (same_iff x u n v.toNat).1 (List.find?_some (p := fun (t : Test) => t.same u n v.toNat) hx)
    refine ⟨_, he, r.mem, r.waves, testNoted_written (by rw [r.host, hp]) (by decide), ?_, ?_, ?_, ?_, ?_⟩
    · rw [r.tests, hp, e]
    · have h := r.core
      rw [hcls', hunit'] at h
      exact h
    · have h := r.engine
      rw [hcls', hunit'] at h
      exact h
    · have h := r.reducer
      rw [hcls', hunit'] at h
      exact h
    · have hrow := r.row
      rw [hp, e, hcls'] at hrow
      exact hrow

end Sys2Proof
end

-- ==== Sys2Proof/Proofs/Barriers.lean ====

-- ==== Sys2Proof/Proofs/Barriers.lean ====
section
/-! SUPPORT. The troupe and corps barriers (R166 to R169). -/

namespace Sys2Proof

open Machine

/-! ### The waves of a troupe -/

theorem flook_map_values {α β : Type} (g : α → β) (m : FMap α) (k : Nat) : flook (m.map (fun e => (e.1, g e.2))) k = (flook m k).map g := by
  induction m with
  | nil => rfl
  | cons e m ih =>
    obtain ⟨i, x⟩ := e
    rw [List.map_cons, flook, flook]
    split
    · rfl
    · exact ih
/-- A value is written at a key that a map has: what is seen of the values stays where the new value shows the same. -/
theorem map_fput_of_same {α β : Type} (g : α → β) {m : FMap α} (hm : Rising m) {k : Nat} {x v : α} (hx : flook m k = some x) (hv : g v = g x) :
    (fput m k v).map (fun e => (e.1, g e.2)) = m.map (fun e => (e.1, g e.2)) := by
  induction m with
  | nil => exact absurd hx (by simp [flook])
  | cons e m ih =>
    obtain ⟨i, y⟩ := e
    obtain ⟨hlt, hr⟩ := List.pairwise_cons.1 hm
    rw [flook] at hx
    rw [fput]
    by_cases hki : k = i
    · subst hki
      rw [if_pos rfl] at hx
      rw [if_neg (Nat.lt_irrefl k), if_pos rfl, List.map_cons, List.map_cons, hv, Option.some.inj hx]
    · rw [if_neg (Ne.symm hki)] at hx
      have hik : i < k := hlt (k, x) (mem_of_flook hx)
      rw [if_neg (by omega), if_neg hki, List.map_cons, List.map_cons, ih hr hx]
/-- What tells whether a wave counts among the live compute waves of a troupe. -/
def badge (v : Wave) : Nat × Bool × Bool := (v.tid, v.part, v.ended)
/-- The waves of a state are those of another, of the same troupes and kinds, and as many of them have ended. -/
def Lineup (s t : State) : Prop := t.waves.map (fun e => (e.1, badge e.2)) = s.waves.map (fun e => (e.1, badge e.2))
theorem liveWaves_eq (s : State) (tid : Nat) : s.liveWaves tid =
    ((s.waves.map (fun e => (e.1, badge e.2))).filter (fun e => e.2.1 == tid && !e.2.2.1 && !e.2.2.2)).map (fun e => e.1) := by
  rw [List.filter_map, List.map_map]
  rfl
theorem rising_iff_map {α β : Type} (g : α → β) (m : FMap α) : Rising (m.map (fun e => (e.1, g e.2))) ↔ Rising m := List.pairwise_map
section
variable {s t u : State}
theorem Lineup.refl (s : State) : Lineup s s := rfl
theorem Lineup.trans (h1 : Lineup s t) (h2 : Lineup t u) : Lineup s u := Eq.trans h2 h1
theorem Lineup.of_waves (h : Lineup s t) (hw : u.waves = t.waves) : Lineup s u := by
  unfold Lineup
  rw [hw]
  exact h
theorem Lineup.liveWaves (h : Lineup s t) (tid : Nat) : t.liveWaves tid = s.liveWaves tid := by
  rw [liveWaves_eq, liveWaves_eq, h]
theorem Lineup.rising (h : Lineup s t) (hr : Rising s.waves) : Rising t.waves := by
  rw [← rising_iff_map badge, h]
  exact (rising_iff_map ..).2 hr
theorem Lineup.listed (h : Lineup s t) {w : Nat} (hw : flook s.waves w ≠ none) : flook t.waves w ≠ none := by
  intro hn
  have := flook_map_values badge t.waves w
  rw [h, flook_map_values, hn] at this
  cases hx : flook s.waves w with
  | none => exact hw hx
  | some x => rw [hx] at this; exact absurd this (by simp)
/-- A wave that is listed changes, and stays in its place. -/
theorem Lineup.modWave (h : Lineup s t) (hr : Rising s.waves) {w : Nat} (hw : flook s.waves w ≠ none) {f : Wave → Wave} (hf : ∀ v, badge (f v) = badge v) :
    Lineup s (t.modWave w f) := by
  refine Lineup.trans h ?_
  obtain ⟨x, hx⟩ := Option.ne_none_iff_exists'.1 (h.listed hw)
  refine map_fput_of_same badge (h.rising hr) hx ?_
  rw [hf, show t.wave w = x from fget_of_flook_some hx]
theorem badge_upd (v : Wave) (ls : List Nat) (f : Nat → Lane → Lane) : badge (v.upd ls f) = badge v := by
  rw [upd_rest]
  rfl
theorem Lineup.updLanes (h : Lineup s t) (hr : Rising s.waves) {w : Nat} (hw : flook s.waves w ≠ none) (ls : List Nat) (f : Nat → Lane → Lane) :
    Lineup s (t.updLanes w ls f) := h.modWave hr hw (fun v => badge_upd v ls f)
theorem Lineup.finish (h : Lineup s t) (hr : Rising s.waves) (hw : flook s.waves t.cur.wid ≠ none) : Lineup s (Machine.finish t []) := by
  rw [finish_nil]
  exact h.updLanes hr hw _ _
theorem mem_liveWaves {v tid : Nat} (h : v ∈ s.liveWaves tid) : flook s.waves v ≠ none := by
  obtain ⟨e, he, rfl⟩ := List.mem_map.1 h
  have he' := (List.mem_filter.1 he).1
  intro hn
  have : ∀ m : FMap Wave, e ∈ m → flook m e.1 ≠ none := by
    intro m hm
    induction m with
    | nil => exact absurd hm List.not_mem_nil
    | cons a m ih =>
      obtain ⟨i, x⟩ := a
      rw [flook]
      split
      · exact fun hx => nomatch hx
      · next hne => exact ih ((List.mem_cons.1 hm).resolve_left (fun e0 => hne (by rw [e0])))
  exact this _ he' hn
theorem liveWaves_of_listed {w : Nat} (hw : flook s.waves w ≠ none) (hp : (s.wave w).part = false) (he : (s.wave w).ended = false) :
    w ∈ s.liveWaves (s.wave w).tid := by
  obtain ⟨x, hx⟩ := Option.ne_none_iff_exists'.1 hw
  have hwx : s.wave w = x := fget_of_flook_some hx
  rw [hwx] at hp he ⊢
  refine List.mem_map.2 ⟨(w, x), List.mem_filter.2 ⟨mem_of_flook hx, ?_⟩, rfl⟩
  rw [hp, he, beq_self_eq_true]
  rfl
theorem liveWaves_nodup (hr : Rising s.waves) (tid : Nat) : (s.liveWaves tid).Nodup := by
  refine List.Pairwise.map _ (R := fun a b : Nat × Wave => a.1 < b.1) (fun a b h => Nat.ne_of_lt h) ?_
  exact hr.filter _
end

/-! ### A phase completes -/

/-- A lane whose park at a barrier a stop holds aside goes on after it. -/
def unheld (st : LaneSt) (l : Lane) : Lane :=
  if l.prior = st && l.st != .exit then
    { l with prior := .run, resume := l.heldNext, trapPc := if l.trapPc = l.resume && !l.movedPc then l.heldNext else l.trapPc }
  else l
/-- A lane parked at a barrier goes on after it. -/
def unparked (st : LaneSt) (l : Lane) : Lane := if l.st = st then { l with st := .run, pc := l.nextPc } else l
theorem freeFrom_eq (st : LaneSt) (l : Lane) : l.freeFrom st = unparked st (unheld st l) := rfl
section
variable (st : LaneSt) (x : Lane)
theorem unheld_same : (unheld st x).st = x.st ∧ (unheld st x).nextPc = x.nextPc ∧ (unheld st x).pend = x.pend := by
  unfold unheld
  split <;> exact ⟨rfl, rfl, rfl⟩
theorem unparked_same : (unparked st x).prior = x.prior ∧ (unparked st x).pend = x.pend := by
  unfold unparked
  split <;> exact ⟨rfl, rfl⟩
theorem freeFrom_pend : (x.freeFrom st).pend = x.pend := (unparked_same ..).2.trans (unheld_same ..).2.2
variable {st x}
theorem freeFrom_parked (h : x.st = st) : (x.freeFrom st).st = .run ∧ (x.freeFrom st).pc = x.nextPc := by
  obtain ⟨h1, h2, -⟩ := unheld_same st x
  rw [freeFrom_eq, unparked, if_pos (h1.trans h)]
  exact ⟨rfl, h2⟩
theorem unparked_of_ne (h : x.st ≠ st) : unparked st x = x := if_neg h
theorem unheld_of_ne (h : x.prior ≠ st ∨ x.st = .exit) : unheld st x = x := by
  refine if_neg ?_
  rw [Bool.and_eq_true, decide_eq_true_eq, bne_iff_ne]
  exact fun hx => h.elim (fun h => h hx.1) (fun h => hx.2 h)
/-- What has been released from a barrier is released from it no more. -/
theorem freeFrom_twice (hr : st ≠ .run) (he : st ≠ .exit) : (x.freeFrom st).freeFrom st = x.freeFrom st := by
  have hpark : (x.freeFrom st).st ≠ st := by
    rw [freeFrom_eq, unparked]
    split
    · exact hr.symm
    · assumption
  have hheld : (x.freeFrom st).prior ≠ st ∨ (x.freeFrom st).st = .exit := by
    rw [freeFrom_eq, (unparked_same ..).1]
    unfold unheld
    split
    · exact .inl hr.symm
    · next h =>
      rw [Bool.and_eq_true, decide_eq_true_eq, bne_iff_ne, not_and, not_not] at h
      by_cases hp : x.prior = st
      · exact .inr (by rw [unparked_of_ne (by rw [h hp]; exact he.symm), h hp])
      · exact .inl hp
  rw [freeFrom_eq st (x.freeFrom st), unheld_of_ne hheld, unparked_of_ne hpark]
end
/-- A wave whose arrival is over and whose lanes are released. -/
def barFree (st : LaneSt) (clr : Wave → Wave) (v : Wave) : Wave := (clr v).upd (List.range 32) (fun _ l => l.freeFrom st)
/-- The waves `ws` of a state are released from a barrier. -/
structure WavesFreed (s t : State) (ws : List Nat) (st : LaneSt) (clr : Wave → Wave) : Prop where
  frame : t = { s with waves := t.waves }
  lineup : Lineup s t
  wave : ∀ v, t.wave v = if v ∈ ws then barFree st clr (s.wave v) else s.wave v
theorem wave_free (s : State) (w v : Nat) (st : LaneSt) (clr : Wave → Wave) :
    ((s.modWave w clr).freeLanes w st).wave v = if v = w then barFree st clr (s.wave w) else s.wave v := by
  rw [State.freeLanes, State.wave_updLanes]
  split
  · rw [State.wave_modWave_self]
    rfl
  · next h => rw [State.wave_modWave, if_neg h]
theorem foldl_free {s : State} (hr : Rising s.waves) {ws : List Nat} (hws : ∀ w ∈ ws, flook s.waves w ≠ none) (hd : ws.Nodup) (st : LaneSt) {clr : Wave → Wave}
    (hclr : ∀ v, badge (clr v) = badge v) : WavesFreed s (ws.foldl (fun s w => (s.modWave w clr).freeLanes w st) s) ws st clr := by
  induction ws generalizing s with
  | nil => exact ⟨rfl, Lineup.refl s, fun v => (if_neg List.not_mem_nil).symm⟩
  | cons w ws ih =>
    have hline : Lineup s ((s.modWave w clr).freeLanes w st) :=
      ((Lineup.refl s).modWave hr (hws w List.mem_cons_self) hclr).updLanes hr (hws w List.mem_cons_self) _ _
    obtain ⟨hnot, hd'⟩ := List.nodup_cons.1 hd
    obtain ⟨h1, h2, h3⟩ := ih (hline.rising hr) (fun x hx => hline.listed (hws x (List.mem_cons_of_mem _ hx))) hd'
    refine ⟨h1.trans rfl, hline.trans h2, fun v => (h3 v).trans ?_⟩
    rw [wave_free]
    by_cases hvw : v = w
    · subst hvw
      rw [if_neg hnot, if_pos rfl, if_pos List.mem_cons_self]
    · rw [if_neg hvw]
      by_cases hm : v ∈ ws
      · rw [if_pos hm, if_pos (List.mem_cons_of_mem _ hm)]
      · rw [if_neg hm, if_neg (fun hx => (List.mem_cons.1 hx).elim hvw hm)]
theorem lane_barFree (st : LaneSt) {clr : Wave → Wave} (hc : ∀ v l, (clr v).lane l = v.lane l) (v : Wave) {l : Nat} (hl : l < 32) :
    (barFree st clr v).lane l = (v.lane l).freeFrom st := by
  unfold barFree
  rw [Wave.lane_upd _ _ _ _ List.nodup_range, if_pos (List.mem_range.2 hl), hc]
/-- The waves of a troupe are released from a barrier. -/
theorem free_liveWaves {s : State} (hr : Rising s.waves) (tid : Nat) (st : LaneSt) {clr : Wave → Wave} (hclr : ∀ v, badge (clr v) = badge v) :
    WavesFreed s ((s.liveWaves tid).foldl (fun s w => (s.modWave w clr).freeLanes w st) s) (s.liveWaves tid) st clr :=
  foldl_free hr (fun _ h => mem_liveWaves h) (liveWaves_nodup hr tid) st hclr

/-! ### The troupe barrier -/

/-- A phase of the troupe barrier has completed. -/
structure TroupePhase (s t : State) (tid : Nat) : Prop where
  mem : t.mem = s.mem
  troupe : t.troupe tid = { s.troupe tid with phase := !(s.troupe tid).phase, arvcnt := 0, waitmask := 0 }
  arrived : ∀ v ∈ s.liveWaves tid, (t.wave v).tarv = false
  lane : ∀ v ∈ s.liveWaves tid, ∀ l, l < 32 → t.lane v l = (s.lane v l).freeFrom .barT
theorem checkTbar_open {s : State} {tid : Nat} (h : (s.troupe tid).arvcnt ≠ (s.liveWaves tid).length) : s.checkTbar tid = s := if_pos (.inr h)
theorem checkTbar_completes {s : State} {tid : Nat} (hr : Rising s.waves) (hne : s.liveWaves tid ≠ []) (h : (s.troupe tid).arvcnt = (s.liveWaves tid).length) :
    TroupePhase s (s.checkTbar tid) tid := by
  unfold State.checkTbar
  dsimp only
  rw [if_neg (by rw [List.isEmpty_iff]; exact fun hx => hx.elim hne (fun hx => hx h))]
  generalize hs1 : s.modTroupe tid (fun t => { t with phase := !t.phase, arvcnt := 0, waitmask := 0 }) = s1
  have hwaves : s1.waves = s.waves := by rw [← hs1]; rfl
  have hw : s1.liveWaves tid = s.liveWaves tid := by rw [← hs1]; rfl
  have hwave : ∀ v, s1.wave v = s.wave v := fun v => by rw [← hs1]; rfl
  have hf := free_liveWaves (s := s1) (hwaves ▸ hr) tid .barT (clr := fun v => { v with tarv := false }) (fun _ => rfl)
  rw [hw] at hf
  refine ⟨?_, ?_, fun v hv => ?_, fun v hv l hl => ?_⟩
  · rw [hf.frame, ← hs1]
    rfl
  · rw [hf.frame]
    show s1.troupe tid = _
    rw [← hs1, State.troupe_modTroupe_self]
  · rw [hf.wave, if_pos hv, barFree, upd_rest]
  · unfold State.lane
    rw [hf.wave, if_pos hv, lane_barFree .barT (clr := fun v => { v with tarv := false }) (fun _ _ => rfl) _ hl, hwave]
section
variable {s : State} {m : Mods} {e : Nat} (he : Elected s m e)
include he
theorem barrierGo_ready {go : State → State} (hp : (s.wave s.cur.wid).part = false) (hl : s.cur.path = (s.wave s.cur.wid).live) : barrierGo s m go = .next (go s) := by
  unfold barrierGo State.wholeWave
  rw [someActive_eq_true.2 ⟨e, he.1⟩, show s.curWave = s.wave s.cur.wid from rfl, hp, hl, beq_self_eq_true]
  rfl
theorem barrierGo_partner {go : State → State} (hp : (s.wave s.cur.wid).part = true) : barrierGo s m go = .next (refuse s m .partner) := by
  unfold barrierGo
  rw [someActive_eq_true.2 ⟨e, he.1⟩, show s.curWave = s.wave s.cur.wid from rfl, hp]
  rfl
theorem barrierGo_partial {go : State → State} (hp : (s.wave s.cur.wid).part = false) (hl : s.cur.path ≠ (s.wave s.cur.wid).live) :
    barrierGo s m go = .next (refuse s m .partial_) := by
  unfold barrierGo State.wholeWave
  rw [someActive_eq_true.2 ⟨e, he.1⟩, show s.curWave = s.wave s.cur.wid from rfl, hp, beq_eq_false_iff_ne.2 hl]
  rfl
theorem phaseArg_eq (a : Reg) : s.phaseArg m a = (s.src s.cur.wid e a).getLsbD 0 := by
  unfold State.phaseArg
  rw [elected_eq he]
  rfl
omit he in
theorem arrival_second {i : Instr} {sc : Scope} {go : State → State} : arrival i s m true sc go = refuse s m .barseq := rfl
omit he in
theorem arrival_first {i : Instr} {sc : Scope} {go : State → State} (h : s.relWait sc = false) : arrival i s m false sc go = go s := by
  unfold arrival
  rw [h]
  rfl
end

/-- A lane of the path parks at a barrier. -/
def parkedLane (s : State) (st : LaneSt) (l : Nat) (x : Lane) : Lane :=
  { x with st := st, pc := s.cur.pc, nextPc := if s.cur.moved.getLsbD l then x.pc else s.cur.npc }
theorem goOn_of_ne {s : State} {l : Nat} {x : Lane} (h : x.st ≠ .run) : goOn s l x = x := if_neg (fun hx => h hx.2)
/-- A state whose path has arrived or parked, before the check that a phase completes: of its waves the current one alone has changed. -/
structure AtBarrier (s t : State) (g : Wave → Wave) (f : Nat → Lane → Lane) : Prop where
  mem : t.mem = s.mem
  lineup : Lineup s t
  becomes : WaveBecomes s t g f
section
variable {s t u : State} {g : Wave → Wave} {f : Nat → Lane → Lane} (hr : Rising s.waves) (hw : flook s.waves s.cur.wid ≠ none)
/-- What stands before any of it. -/
theorem AtBarrier.refl (s : State) : AtBarrier s s id (fun _ x => x) := ⟨rfl, Lineup.refl s, waveBecomes_refl s⟩
theorem AtBarrier.of_same (h : AtBarrier s t g f) (hm : u.mem = t.mem) (hv : u.waves = t.waves) : AtBarrier s u g f :=
  ⟨hm.trans h.mem, h.lineup.of_waves hv, h.becomes.of_waves hv⟩
include hr hw
theorem AtBarrier.park (h : AtBarrier s t g f) (hc : t.cur = s.cur) (st : LaneSt) : AtBarrier s (t.park st) g (fun l x => parkedLane s st l (f l x)) := by
  unfold State.park State.parkLanes
  rw [hc]
  exact ⟨h.mem, h.lineup.updLanes hr hw _ _, h.becomes.updPath _⟩
theorem AtBarrier.finish (h : AtBarrier s t g f) (hc : t.cur = s.cur) : AtBarrier s (Machine.finish t []) g (fun l x => goOn s l (f l x)) := by
  refine ⟨?_, h.lineup.finish hr (by rw [hc]; exact hw), h.becomes.finish hc⟩
  rw [finish_nil]
  exact h.mem
/-- The parked lanes go on nowhere. -/
theorem AtBarrier.finish_parked {st : LaneSt} (h : AtBarrier s t g (fun l x => parkedLane s st l x)) (hc : t.cur = s.cur) (hst : st ≠ .run) :
    AtBarrier s (Machine.finish t []) g (fun l x => parkedLane s st l x) := by
  obtain ⟨h1, h2, h3⟩ := h.finish hr hw hc
  exact ⟨h1, h2, h3.congr fun l _ => goOn_of_ne hst⟩
theorem AtBarrier.sendAll (h : AtBarrier s t g f) (hc : t.cur = s.cur) (hn : t.nextId = s.nextId) (m : Mods) (d : Reg) (n : Nat) (outs : List (Dst × W32)) :
    AtBarrier s (Machine.sendAll t m .owed d n outs) g (fun l x => sends s m none (dstRegs d n) (fun _ => outs) (fun _ => 0) l (f l x)) := by
  refine ⟨h.mem, ?_, h.becomes.sendAll hc hn m (lat := .owed) rfl d n outs⟩
  unfold Machine.sendAll
  rw [hc]
  exact (h.lineup.of_waves rfl).updLanes hr hw _ _
end

/-! ### The instructions of the troupe barrier -/

theorem troupe_finish (s : State) (n : Nat) : (finish s []).troupe n = s.troupe n := by
  rw [finish_nil]
  rfl
theorem curTid_arriveT (s : State) : s.arriveT.curTid = s.curTid := by
  show ((s.modWave s.cur.wid (fun v => { v with tarv := true })).wave s.cur.wid).tid = _
  rw [State.wave_modWave_self]
  rfl
theorem troupe_arriveT (s : State) : s.arriveT.troupe s.curTid = { s.troupe s.curTid with arvcnt := (s.troupe s.curTid).arvcnt + 1 } :=
  State.troupe_modTroupe_self ..
theorem troupe_parkT (s : State) : ∃ b, s.parkT.troupe s.curTid = { s.troupe s.curTid with waitmask := b } := ⟨_, State.troupe_modTroupe_self ..⟩
section
variable {s : State} {m : Mods} {e : Nat} (hr : Rising s.waves) (hw : flook s.waves s.cur.wid ≠ none)
include hr hw
theorem arriveT_atBarrier : AtBarrier s s.arriveT (fun v => { v with tarv := true }) (fun _ x => x) :=
  AtBarrier.of_same (t := s.modWave s.cur.wid (fun v => { v with tarv := true })) ⟨rfl, (Lineup.refl s).modWave hr hw (fun _ => rfl),
    modWave_waveBecomes s (fun v => { v with tarv := true }) (fun _ => rfl)⟩ rfl rfl
theorem AtBarrier.parkT {t : State} {g : Wave → Wave} (h : AtBarrier s t g (fun _ x => x)) (hc : t.cur = s.cur) :
    AtBarrier s (Machine.finish t.parkT []) g (fun l x => parkedLane s .barT l x) := by
  have hp := h.park hr hw hc .barT
  exact (hp.of_same (u := t.parkT) rfl rfl).finish_parked hr hw hc (by decide)
variable (hp : (s.wave s.cur.wid).part = false) (hen : (s.wave s.cur.wid).ended = false)
include hp hen
/-- The check at a barrier where a wave's arrival has left its phase complete. -/
theorem AtBarrier.completes {t : State} {g : Wave → Wave} {f : Nat → Lane → Lane} (h : AtBarrier s t g f)
    (hn : (t.troupe s.curTid).arvcnt = (s.liveWaves s.curTid).length) : TroupePhase t (t.checkTbar s.curTid) s.curTid := by
  have hl := h.lineup.liveWaves s.curTid
  refine checkTbar_completes (h.lineup.rising hr) ?_ (by rw [hl, hn])
  rw [hl]
  exact List.ne_nil_of_mem (liveWaves_of_listed hw hp hen)
omit hr hw hp hen in
theorem AtBarrier.opens {t : State} {g : Wave → Wave} {f : Nat → Lane → Lane} (h : AtBarrier s t g f)
    (hn : (t.troupe s.curTid).arvcnt ≠ (s.liveWaves s.curTid).length) : t.checkTbar s.curTid = t :=
  checkTbar_open (by rw [h.lineup.liveWaves]; exact hn)
end
section
variable {s t : State} {g : Wave → Wave} {f : Nat → Lane → Lane}
theorem AtBarrier.lane (h : AtBarrier s t g f) {l : Nat} (hl : s.cur.lanes.getLsbD l = true) : t.lane s.cur.wid l = f l (s.lane s.cur.wid l) := by
  rw [h.becomes.lanes, if_pos hl]
theorem AtBarrier.other (h : AtBarrier s t g f) {v : Nat} (hv : v ≠ s.cur.wid) (l : Nat) : t.lane v l = s.lane v l := by
  unfold State.lane
  rw [h.becomes.waves v hv]
end
theorem sends_pend {s : State} {m : Mods} (due : Option Nat) (ds : List Dst) (val : Nat → List (Dst × W32)) (l : Nat) {x : Lane} (h : m.active x = true) :
    (sends s m due ds val (fun _ => 0) l x).pend = x.pend ++ inFlight due s.nextId (val l) := by
  unfold sends
  rw [if_pos h]
theorem goOn_pend (s : State) (l : Nat) (x : Lane) : (goOn s l x).pend = x.pend := by
  unfold goOn
  split <;> rfl
theorem phaseOuts_eq (d : Reg) (b : Bool) : phaseOuts d b = to32 d (if b then 1 else 0) := by
  unfold phaseOuts
  rw [outs32_eq]
  cases b <;> rfl

/-- The phase has completed for the waves of the path's troupe, as the statement says it: the other waves' parked lanes go on. -/
def TroupeGoesOn (s t : State) : Prop :=
  t.troupe s.curTid = { s.troupe s.curTid with phase := !(s.troupe s.curTid).phase, arvcnt := 0, waitmask := 0 } ∧
  ∀ v ∈ s.liveWaves s.curTid, (t.wave v).tarv = false ∧ ∀ l, l < 32 → v ≠ s.cur.wid → (s.lane v l).st = .barT →
    (t.lane v l).st = .run ∧ (t.lane v l).pc = (s.lane v l).nextPc
theorem TroupePhase.goesOn {s a t : State} {g : Wave → Wave} {f : Nat → Lane → Lane} {n : Nat} {b : BitVec 16} (ha : AtBarrier s a g f)
    (h : TroupePhase a t s.curTid) (hu : a.troupe s.curTid = { s.troupe s.curTid with arvcnt := n, waitmask := b }) : TroupeGoesOn s t := by
  refine ⟨by rw [h.troupe, hu], fun v hv => ⟨h.arrived v (by rwa [ha.lineup.liveWaves]), fun l hl hne hst => ?_⟩⟩
  rw [h.lane v (by rwa [ha.lineup.liveWaves]) l hl, ha.other hne]
  exact freeFrom_parked hst
section
variable {s : State} {m : Mods} {e : Nat} (he : Elected s m e) (hr : Rising s.waves) (hw : flook s.waves s.cur.wid ≠ none)
  (hp : (s.wave s.cur.wid).part = false) (hl : s.cur.path = (s.wave s.cur.wid).live)
include he hr hw hp hl
section
variable (hta : (s.wave s.cur.wid).tarv = false) (hrel : s.relWait .core = false)
include hta hrel
omit hr hw in
theorem tbar_eq : exec (.tbar m) s = .next ((finish s.arriveT.parkT []).checkTbar s.curTid) := by
  refine Eq.trans (show _ = execTbar m s from rfl) ?_
  rw [execTbar, barrierGo_ready he hp hl, show s.curWave = s.wave s.cur.wid from rfl, hta, arrival_first hrel]
omit hr hw in
theorem tbarArv_eq (d : Reg) : exec (.tbarArv m d) s =
    .next ((finish (sendAll s.arriveT m .owed d 1 (to32 d (if (s.troupe s.curTid).phase then 1 else 0))) []).checkTbar s.curTid) := by
  refine Eq.trans (show _ = execTbarArv m d s from rfl) ?_
  rw [execTbarArv, barrierGo_ready he hp hl, show s.curWave = s.wave s.cur.wid from rfl, hta, arrival_first hrel, phaseOuts_eq]
  rfl
omit he hp hl hta hrel in
/-- A wave has arrived and its lanes are parked. -/
theorem tbar_at : AtBarrier s (finish s.arriveT.parkT []) (fun v => { v with tarv := true }) (fun l x => parkedLane s .barT l x) ∧
    ∃ b, (finish s.arriveT.parkT []).troupe s.curTid = { s.troupe s.curTid with arvcnt := (s.troupe s.curTid).arvcnt + 1, waitmask := b } := by
  refine ⟨(arriveT_atBarrier hr hw).parkT hr hw rfl, ?_⟩
  obtain ⟨b, hb⟩ := troupe_parkT s.arriveT
  rw [curTid_arriveT, troupe_arriveT] at hb
  exact ⟨b, (troupe_finish ..).trans hb⟩
omit he hp hl hta hrel in
/-- A wave has arrived and its lanes are owed the phase. -/
theorem tbarArv_at (d : Reg) (outs : List (Dst × W32)) : AtBarrier s (finish (sendAll s.arriveT m .owed d 1 outs) []) (fun v => { v with tarv := true })
      (fun l x => goOn s l (sends s m none (dstRegs d 1) (fun _ => outs) (fun _ => 0) l x)) ∧
    (finish (sendAll s.arriveT m .owed d 1 outs) []).troupe s.curTid = { s.troupe s.curTid with arvcnt := (s.troupe s.curTid).arvcnt + 1 } := by
  have ha := (arriveT_atBarrier hr hw).sendAll hr hw rfl rfl m d 1 outs
  exact ⟨ha.finish hr hw rfl, (troupe_finish ..).trans (troupe_arriveT s)⟩
end
end
theorem tarv_arrived {s t : State} {f : Nat → Lane → Lane} (h : AtBarrier s t (fun v => { v with tarv := true }) f) : (t.wave s.cur.wid).tarv = true := by
  rw [h.becomes.rest]

/-- The checks of R166 stand before every barrier instruction. -/
theorem troupeBarrier_checks {s : State} {m : Mods} {d a : Reg} {i : Instr} (hi : i = .tbar m ∨ i = .tbarArv m d ∨ i = .tbarWt m a) :
    ∃ go, exec i s = barrierGo s m go := by
  rcases hi with rfl | rfl | rfl
  · exact ⟨_, show _ = execTbar m s from rfl⟩
  · exact ⟨_, show _ = execTbarArv m d s from rfl⟩
  · exact ⟨_, show _ = execTbarWt m a s from rfl⟩

theorem troupeBarrier : Claims.TroupeBarrier := by
  unfold Claims.TroupeBarrier
  intro s m d a e he hr w tid u n ready onward parks completes sent
  have parked : ∀ {t : State} {g : Wave → Wave}, AtBarrier s t g (fun l x => parkedLane s .barT l x) → parks t := fun {t} {_} h l hl => by
    show (t.lane s.cur.wid l).st = _ ∧ (t.lane s.cur.wid l).pc = _ ∧ (t.lane s.cur.wid l).nextPc = _
    rw [h.lane hl]
    exact ⟨rfl, rfl, rfl⟩
  refine ⟨fun ⟨hp, hl, hen, hw⟩ hta hrel => ⟨fun hn => ⟨?_, ?_⟩, fun hn => ⟨?_, ?_⟩⟩, fun ⟨hp, hl, hen, hw⟩ hph => ?_, fun ⟨hp, hl, hen, hw⟩ hph hta hn => ?_,
    fun hal => ⟨fun hp i hi => ?_, fun hp hl i hi => ?_, fun ⟨hp, hl, hen, hw⟩ hta => ⟨?_, ?_⟩, fun ⟨hp, hl, hen, hw⟩ hph hta => ?_⟩⟩
  · have hx := tbar_eq he hp hl hta hrel
    obtain ⟨ha, b, hu⟩ := tbar_at hr hw
    rw [ha.opens (by rw [hu]; exact hn)] at hx
    exact ⟨_, hx, ha.mem, tarv_arrived ha, by rw [hu], by rw [hu], parked ha⟩
  · have hx := tbarArv_eq he hp hl hta hrel d
    obtain ⟨ha, hu⟩ := tbarArv_at (m := m) hr hw d (to32 d (if u.phase then 1 else 0))
    rw [ha.opens (by rw [hu]; exact hn)] at hx
    refine ⟨_, hx, ha.mem, tarv_arrived ha, hu, fun l hl hact => ?_⟩
    rw [ha.lane hl, goOn_pend, sends_pend _ _ _ _ hact]
  · have hx := tbar_eq he hp hl hta hrel
    obtain ⟨ha, b, hu⟩ := tbar_at hr hw
    have hc := ha.completes hr hw hp hen (by rw [hu]; exact hn)
    refine ⟨_, hx, hc.mem.trans ha.mem, hc.goesOn ha hu, fun l hl32 hl' => ?_⟩
    rw [hc.lane _ (by rw [ha.lineup.liveWaves]; exact liveWaves_of_listed hw hp hen) l hl32, ha.lane hl']
    exact freeFrom_parked rfl
  · have hx := tbarArv_eq he hp hl hta hrel d
    obtain ⟨ha, hu⟩ := tbarArv_at (m := m) hr hw d (to32 d (if u.phase then 1 else 0))
    have hc := ha.completes hr hw hp hen (by rw [hu]; exact hn)
    refine ⟨_, hx, hc.mem.trans ha.mem, hc.goesOn (b := u.waitmask) ha hu, fun l hl' hact => ?_⟩
    have hl32 := State.lane_lt_of_getLsbD hl'
    rw [hc.lane _ (by rw [ha.lineup.liveWaves]; exact liveWaves_of_listed hw hp hen) l hl32, freeFrom_pend, ha.lane hl', goOn_pend, sends_pend _ _ _ _ hact]
  · refine ⟨finish s [], ?_, finish_frame_waves rfl, finish_goesOn s⟩
    refine Eq.trans (show _ = execTbarWt m a s from rfl) ?_
    rw [execTbarWt, barrierGo_ready he hp hl, phaseArg_eq he, if_pos (by rw [bne_iff_ne]; exact hph)]
  · have ha := (AtBarrier.refl s).parkT hr hw rfl
    obtain ⟨b, hu⟩ := troupe_parkT s
    have hu' := (troupe_finish s.parkT s.curTid).trans hu
    have hx : exec (.tbarWt m a) s = .next ((finish s.parkT []).checkTbar s.curTid) := by
      refine Eq.trans (show _ = execTbarWt m a s from rfl) ?_
      rw [execTbarWt, barrierGo_ready he hp hl, phaseArg_eq he, if_neg (by rw [bne_iff_ne, not_not]; exact hph), show s.curWave = s.wave s.cur.wid from rfl, if_pos hta]
    rw [ha.opens (by rw [hu']; exact hn)] at hx
    exact ⟨_, hx, ha.mem, parked ha, by rw [hu']⟩
  · have hs : StopsActive s (refuse s m .partner) m 0x10 0x0A 0 := refuse_stops hal ⟨e, he.1⟩
    obtain ⟨go, hx⟩ := troupeBarrier_checks hi
    exact ⟨_, hx.trans (barrierGo_partner he hp), hs⟩
  · have hs : StopsActive s (refuse s m .partial_) m 0x10 0x09 0 := refuse_stops hal ⟨e, he.1⟩
    obtain ⟨go, hx⟩ := troupeBarrier_checks hi
    exact ⟨_, hx.trans (barrierGo_partial he hp hl), hs⟩
  · refine ⟨_, Eq.trans (show _ = execTbar m s from rfl) ?_, refuse_stops (sub := .barseq) hal ⟨e, he.1⟩⟩
    rw [execTbar, barrierGo_ready he hp hl, show s.curWave = s.wave s.cur.wid from rfl, hta, arrival_second]
  · refine ⟨_, Eq.trans (show _ = execTbarArv m d s from rfl) ?_, refuse_stops (sub := .barseq) hal ⟨e, he.1⟩⟩
    rw [execTbarArv, barrierGo_ready he hp hl, show s.curWave = s.wave s.cur.wid from rfl, hta, arrival_second]
  · refine ⟨_, Eq.trans (show _ = execTbarWt m a s from rfl) ?_, refuse_stops (sub := .barseq) hal ⟨e, he.1⟩⟩
    rw [execTbarWt, barrierGo_ready he hp hl, phaseArg_eq he, if_neg (by rw [bne_iff_ne, not_not]; exact hph), show s.curWave = s.wave s.cur.wid from rfl, hta]
    rfl

/-! ### The corps barrier -/

theorem checkCbar_open {s : State} {c : Nat} (h : (s.corpsRec c).clive = 0 ∨ (s.corpsRec c).carr ≠ (s.corpsRec c).clive) : s.checkCbar c = s := by
  unfold State.checkCbar
  exact if_pos h
/-- What the end of a phase does for one troupe of a corps: its waves go on, and its core forgets its lines. -/
def freeTroupe (s : State) (tid : Nat) : State :=
  let s2 := (s.liveWaves tid).foldl (fun s w => (s.modWave w (fun v => { v with carv := false })).freeLanes w .barC) s
  if (s.liveWaves tid).isEmpty then s2 else s2.emptyLines (s.troupe tid).pkg (s.troupe tid).core
/-- The troupes `ts` of a corps have gone on. -/
structure TroupesFreed (s t : State) (ts : List Nat) : Prop where
  frame : t = { s with waves := t.waves, pkgs := t.pkgs }
  lineup : Lineup s t
  arrived : ∀ v, (∃ tid ∈ ts, v ∈ s.liveWaves tid) → (t.wave v).carv = false
  done : ∀ v, (s.wave v).carv = false → (t.wave v).carv = false
  lane : ∀ v l, l < 32 → t.lane v l = (s.lane v l).freeFrom .barC ∨ ((∀ tid ∈ ts, v ∉ s.liveWaves tid) ∧ t.lane v l = s.lane v l)
  lines : ∀ tid ∈ ts, s.liveWaves tid ≠ [] → (t.core (s.troupe tid).pkg (s.troupe tid).core).lines = []
  empty : ∀ k c, (s.core k c).lines = [] → (t.core k c).lines = []
theorem lines_emptyLines_of (s : State) (k c : Nat) {k' c' : Nat} (h : (s.core k' c').lines = []) : ((s.emptyLines k c).core k' c').lines = [] := by
  unfold State.emptyLines
  rw [State.core_modCore]
  split
  · rfl
  · exact h
theorem freeTroupe_freed {s : State} (hr : Rising s.waves) (tid : Nat) : TroupesFreed s (freeTroupe s tid) [tid] := by
  have hf := free_liveWaves hr tid .barC (clr := fun v => { v with carv := false }) (fun _ => rfl)
  unfold freeTroupe
  dsimp only
  generalize (s.liveWaves tid).foldl (fun s w => (s.modWave w (fun v => { v with carv := false })).freeLanes w .barC) s = u at hf ⊢
  have hcore : ∀ k c, u.core k c = s.core k c := fun k c => by
    rw [hf.frame]
    rfl
  have hlane : ∀ v l, l < 32 → u.lane v l = (s.lane v l).freeFrom .barC ∨ ((∀ t ∈ [tid], v ∉ s.liveWaves t) ∧ u.lane v l = s.lane v l) := fun v l hl => by
    unfold State.lane
    rw [hf.wave]
    split
    · exact .inl (lane_barFree .barC (clr := fun v => { v with carv := false }) (fun _ _ => rfl) _ hl)
    · next hv => exact .inr ⟨fun t ht => by rwa [List.mem_singleton.1 ht], rfl⟩
  have hcarv : ∀ v, (v ∈ s.liveWaves tid ∨ (s.wave v).carv = false) → (u.wave v).carv = false := fun v hv => by
    rw [hf.wave]
    split
    · rw [barFree, upd_rest]
    · next hn => exact hv.resolve_left hn
  have hone : ∀ v, (∃ t ∈ [tid], v ∈ s.liveWaves t) → v ∈ s.liveWaves tid := fun v ⟨t, ht, hv⟩ => by rwa [List.mem_singleton.1 ht] at hv
  split
  · next hnone =>
    refine ⟨?_, hf.lineup, fun v hv => hcarv v (.inl (hone v hv)), fun v hv => hcarv v (.inr hv), hlane, fun t ht hne => ?_, fun k c h => by rw [hcore]; exact h⟩
    · rw [hf.frame]
    · rw [List.mem_singleton.1 ht] at hne
      exact absurd (List.isEmpty_iff.1 hnone) hne
  · refine ⟨?_, hf.lineup.of_waves rfl, fun v hv => hcarv v (.inl (hone v hv)), fun v hv => hcarv v (.inr hv), hlane, fun t ht _ => ?_, fun k c h => ?_⟩
    · unfold State.emptyLines State.modCore State.modPkg State.setPkg
      rw [hf.frame]
    · rw [List.mem_singleton.1 ht]
      exact lines_emptyLines ..
    · exact lines_emptyLines_of _ _ _ (by rw [hcore]; exact h)
theorem TroupesFreed.trans {s t u : State} {ts ts' : List Nat} (h1 : TroupesFreed s t ts) (h2 : TroupesFreed t u ts') : TroupesFreed s u (ts ++ ts') := by
  have htr : ∀ n, t.troupe n = s.troupe n := fun n => by rw [h1.frame]; rfl
  refine ⟨?_, h1.lineup.trans h2.lineup, fun v ⟨tid, hm, hv⟩ => ?_, fun v hv => h2.done v (h1.done v hv), fun v l hl => ?_, fun tid hm hne => ?_,
    fun k c h => h2.empty k c (h1.empty k c h)⟩
  · rw [h2.frame, h1.frame]
  · rcases List.mem_append.1 hm with hm | hm
    · exact h2.done v (h1.arrived v ⟨tid, hm, hv⟩)
    · exact h2.arrived v ⟨tid, hm, by rwa [h1.lineup.liveWaves]⟩
  · rcases h1.lane v l hl with e1 | ⟨n1, e1⟩
    · left
      rcases h2.lane v l hl with e2 | ⟨-, e2⟩
      · rw [e2, e1, freeFrom_twice (by decide) (by decide)]
      · rw [e2, e1]
    · rcases h2.lane v l hl with e2 | ⟨n2, e2⟩
      · exact .inl (by rw [e2, e1])
      · refine .inr ⟨fun tid hm => ?_, by rw [e2, e1]⟩
        rcases List.mem_append.1 hm with hm | hm
        · exact n1 tid hm
        · have := n2 tid hm
          rwa [h1.lineup.liveWaves] at this
  · rcases List.mem_append.1 hm with hm | hm
    · exact h2.empty _ _ (h1.lines tid hm hne)
    · have := h2.lines tid hm (by rwa [h1.lineup.liveWaves])
      rwa [htr] at this
theorem foldl_freeTroupe (ts : List Nat) {s : State} (hr : Rising s.waves) : TroupesFreed s (ts.foldl freeTroupe s) ts := by
  induction ts generalizing s with
  | nil => exact ⟨rfl, Lineup.refl s, fun v ⟨_, h, _⟩ => absurd h List.not_mem_nil, fun _ h => h, fun v l _ => .inr ⟨fun _ h => absurd h List.not_mem_nil, rfl⟩,
      fun _ h => absurd h List.not_mem_nil, fun _ _ h => h⟩
  | cons tid ts ih =>
    have h1 := freeTroupe_freed hr tid
    exact h1.trans (ih (h1.lineup.rising hr))
/-- A phase of the corps barrier has completed. -/
structure CorpsPhase (s t : State) (c : Nat) : Prop where
  mem : t.mem = s.mem
  corps : t.corpsRec c = { s.corpsRec c with cphase := !(s.corpsRec c).cphase, carr := 0 }
  freed : ∃ u : State, u.waves = s.waves ∧ u.pkgs = s.pkgs ∧ u.troupes = s.troupes ∧ TroupesFreed u t (s.corpsRec c).troupes
theorem corpsRec_modCorps (s : State) (c : Nat) (f : Corps → Corps) : (s.modCorps c f).corpsRec c = f (s.corpsRec c) := fget_fput_self ..
theorem checkCbar_completes {s : State} {c : Nat} (hr : Rising s.waves) (h0 : (s.corpsRec c).clive ≠ 0) (h : (s.corpsRec c).carr = (s.corpsRec c).clive) :
    CorpsPhase s (s.checkCbar c) c := by
  have hx : s.checkCbar c = (s.corpsRec c).troupes.foldl freeTroupe (s.modCorps c (fun r => { r with cphase := !r.cphase, carr := 0 })) := by
    unfold State.checkCbar
    exact if_neg (fun hx => hx.elim h0 (fun hx => hx h))
  have hf := foldl_freeTroupe (s.corpsRec c).troupes (s := s.modCorps c (fun r => { r with cphase := !r.cphase, carr := 0 })) hr
  have hc := corpsRec_modCorps s c (fun r => { r with cphase := !r.cphase, carr := 0 })
  rw [← hx] at hf
  generalize s.checkCbar c = t at hf ⊢
  exact ⟨by rw [hf.frame]; rfl, by rw [hf.frame]; exact hc, s.modCorps c _, rfl, rfl, rfl, hf⟩
theorem troupes_finish (s : State) : (finish s []).troupes = s.troupes := by
  rw [finish_nil]
  rfl
theorem corpsRec_finish (s : State) (c : Nat) : (finish s []).corpsRec c = s.corpsRec c := by
  rw [finish_nil]
  rfl
section
variable {s : State} {m : Mods} {e : Nat} (hr : Rising s.waves) (hone : s.liveWaves s.curTid = [s.cur.wid])
include hr hone
omit hr in
theorem listed_of_one : flook s.waves s.cur.wid ≠ none := mem_liveWaves (hone ▸ List.mem_singleton_self _)
/-- The one live wave of its troupe arrives, and its troupe with it. -/
theorem arriveC_atBarrier : AtBarrier s s.arriveC (fun v => { v with carv := true }) (fun _ x => x) ∧ s.arriveC.cur = s.cur ∧ s.arriveC.nextId = s.nextId ∧ s.arriveC.troupes = s.troupes ∧
    s.arriveC.corpsRec s.curTroupe.corps = { s.corpsRec s.curTroupe.corps with carr := (s.corpsRec s.curTroupe.corps).carr + 1 } := by
  have ha : AtBarrier s (s.modWave s.cur.wid (fun v => { v with carv := true })) (fun v => { v with carv := true }) (fun _ x => x) :=
    ⟨rfl, (Lineup.refl s).modWave hr (listed_of_one hone) (fun _ => rfl), modWave_waveBecomes s (fun v => { v with carv := true }) (fun _ => rfl)⟩
  have harr : (s.modWave s.cur.wid (fun v => { v with carv := true })).troupeArrived s.curTid = true := by
    unfold State.troupeArrived
    rw [ha.lineup.liveWaves, hone]
    dsimp only [List.all_cons, List.all_nil, List.isEmpty_cons]
    rw [State.wave_modWave_self]
    rfl
  unfold State.arriveC
  dsimp only
  rw [if_pos harr]
  exact ⟨ha.of_same rfl rfl, rfl, rfl, rfl, corpsRec_modCorps ..⟩
/-- The wave has arrived and its lanes are parked. -/
theorem cbar_at : AtBarrier s (finish (s.arriveC.park .barC) []) (fun v => { v with carv := true }) (fun l x => parkedLane s .barC l x) ∧
    (finish (s.arriveC.park .barC) []).troupes = s.troupes ∧ (finish (s.arriveC.park .barC) []).corpsRec s.curTroupe.corps =
      { s.corpsRec s.curTroupe.corps with carr := (s.corpsRec s.curTroupe.corps).carr + 1 } := by
  obtain ⟨ha, hcur, -, htr, hc⟩ := arriveC_atBarrier hr hone
  exact ⟨(ha.park hr (listed_of_one hone) hcur .barC).finish_parked hr (listed_of_one hone) hcur (by decide), (troupes_finish _).trans htr, (corpsRec_finish ..).trans hc⟩
/-- The wave has arrived and its lanes are owed the phase. -/
theorem cbarArv_at (d : Reg) (outs : List (Dst × W32)) : AtBarrier s (finish (sendAll s.arriveC m .owed d 1 outs) []) (fun v => { v with carv := true })
      (fun l x => goOn s l (sends s m none (dstRegs d 1) (fun _ => outs) (fun _ => 0) l x)) ∧
    (finish (sendAll s.arriveC m .owed d 1 outs) []).troupes = s.troupes ∧ (finish (sendAll s.arriveC m .owed d 1 outs) []).corpsRec s.curTroupe.corps =
      { s.corpsRec s.curTroupe.corps with carr := (s.corpsRec s.curTroupe.corps).carr + 1 } := by
  obtain ⟨ha, hcur, hid, htr, hc⟩ := arriveC_atBarrier hr hone
  exact ⟨(ha.sendAll hr (listed_of_one hone) hcur hid m d 1 outs).finish hr (listed_of_one hone) hcur, (troupes_finish _).trans htr, (corpsRec_finish ..).trans hc⟩
end
/-- The phase has completed for a corps, as the statement says it. -/
def CorpsGoesOn (s t : State) : Prop :=
  t.corpsRec s.curTroupe.corps = { s.corpsRec s.curTroupe.corps with cphase := !(s.corpsRec s.curTroupe.corps).cphase, carr := 0 } ∧
  ∀ tid ∈ (s.corpsRec s.curTroupe.corps).troupes, (s.liveWaves tid ≠ [] → (t.core (s.troupe tid).pkg (s.troupe tid).core).lines = []) ∧
    ∀ v ∈ s.liveWaves tid, (t.wave v).carv = false ∧ ∀ l, l < 32 → v ≠ s.cur.wid → (s.lane v l).st = .barC →
      (t.lane v l).st = .run ∧ (t.lane v l).pc = (s.lane v l).nextPc
section
variable {s a t : State} {g : Wave → Wave} {f : Nat → Lane → Lane} (ha : AtBarrier s a g f) (htr : a.troupes = s.troupes)
  (h : CorpsPhase a t s.curTroupe.corps) (hc : a.corpsRec s.curTroupe.corps = { s.corpsRec s.curTroupe.corps with carr := (s.corpsRec s.curTroupe.corps).carr + 1 })
include ha h hc
/-- A lane of a wave that has gone on. -/
theorem CorpsPhase.lane_freed {v tid l : Nat} (hm : tid ∈ (s.corpsRec s.curTroupe.corps).troupes) (hv : v ∈ s.liveWaves tid) (hl : l < 32) :
    t.lane v l = (a.lane v l).freeFrom .barC := by
  obtain ⟨u, hw, -, -, hf⟩ := h.freed
  rw [hc] at hf
  have hlv : u.liveWaves tid = s.liveWaves tid := (show u.liveWaves tid = a.liveWaves tid by unfold State.liveWaves; rw [hw]).trans (ha.lineup.liveWaves tid)
  have hul : u.lane v l = a.lane v l := by
    unfold State.lane State.wave
    rw [hw]
  rcases hf.lane v l hl with e | ⟨hn, -⟩
  · rw [e, hul]
  · exact absurd hv (hlv ▸ hn tid hm)
include htr in
theorem CorpsPhase.goesOn : CorpsGoesOn s t := by
  refine ⟨by rw [h.corps, hc], fun tid hm => ⟨fun hne => ?_, fun v hv => ⟨?_, fun l hl hne hst => ?_⟩⟩⟩
  · obtain ⟨u, hw, -, htu, hf⟩ := h.freed
    rw [hc] at hf
    have hlv : u.liveWaves tid = s.liveWaves tid := (show u.liveWaves tid = a.liveWaves tid by unfold State.liveWaves; rw [hw]).trans (ha.lineup.liveWaves tid)
    have := hf.lines tid hm (by rwa [hlv])
    rwa [show u.troupe tid = s.troupe tid by unfold State.troupe; rw [htu, htr]] at this
  · obtain ⟨u, hw, -, -, hf⟩ := h.freed
    rw [hc] at hf
    have hlv : u.liveWaves tid = s.liveWaves tid := (show u.liveWaves tid = a.liveWaves tid by unfold State.liveWaves; rw [hw]).trans (ha.lineup.liveWaves tid)
    exact hf.arrived v ⟨tid, hm, by rwa [hlv]⟩
  · rw [h.lane_freed ha hc hm hv hl, ha.other hne]
    exact freeFrom_parked hst
end
theorem carv_arrived {s t : State} {f : Nat → Lane → Lane} (h : AtBarrier s t (fun v => { v with carv := true }) f) : (t.wave s.cur.wid).carv = true := by
  rw [h.becomes.rest]
section
variable {s : State} {m : Mods} {e : Nat} (he : Elected s m e) (hp : (s.wave s.cur.wid).part = false) (hl : s.cur.path = (s.wave s.cur.wid).live)
include he hp hl
section
variable (hca : (s.wave s.cur.wid).carv = false) (hrel : s.relWait .clu = false)
include hca hrel
theorem cbar_eq : exec (.cbar m) s = .next ((finish (s.arriveC.park .barC) []).checkCbar s.curTroupe.corps) := by
  refine Eq.trans (show _ = execCbar m s from rfl) ?_
  rw [execCbar, barrierGo_ready he hp hl, show s.curWave = s.wave s.cur.wid from rfl, hca, arrival_first hrel]
theorem cbarArv_eq (d : Reg) : exec (.cbarArv m d) s =
    .next ((finish (sendAll s.arriveC m .owed d 1 (to32 d (if (s.corpsRec s.curTroupe.corps).cphase then 1 else 0))) []).checkCbar s.curTroupe.corps) := by
  refine Eq.trans (show _ = execCbarArv m d s from rfl) ?_
  rw [execCbarArv, barrierGo_ready he hp hl, show s.curWave = s.wave s.cur.wid from rfl, hca, arrival_first hrel, phaseOuts_eq]
end
theorem cbarWt_past {a : Reg} (hph : (s.src s.cur.wid e a).getLsbD 0 ≠ (s.corpsRec s.curTroupe.corps).cphase) :
    exec (.cbarWt m a) s = .next (finish (s.acquireLines .clu) []) := by
  refine Eq.trans (show _ = execCbarWt m a s from rfl) ?_
  rw [execCbarWt, barrierGo_ready he hp hl, phaseArg_eq he, if_pos (by rw [bne_iff_ne]; exact hph)]
variable {a : Reg} (hph : (s.src s.cur.wid e a).getLsbD 0 = (s.corpsRec s.curTroupe.corps).cphase)
include hph
theorem cbarWt_waits (hca : (s.wave s.cur.wid).carv = true) : exec (.cbarWt m a) s = .next ((finish (s.park .barC) []).checkCbar s.curTroupe.corps) := by
  refine Eq.trans (show _ = execCbarWt m a s from rfl) ?_
  rw [execCbarWt, barrierGo_ready he hp hl, phaseArg_eq he, if_neg (by rw [bne_iff_ne, not_not]; exact hph), show s.curWave = s.wave s.cur.wid from rfl, if_pos hca]
theorem cbarWt_early (hca : (s.wave s.cur.wid).carv = false) : exec (.cbarWt m a) s = .next (refuse s m .barseq) := by
  refine Eq.trans (show _ = execCbarWt m a s from rfl) ?_
  rw [execCbarWt, barrierGo_ready he hp hl, phaseArg_eq he, if_neg (by rw [bne_iff_ne, not_not]; exact hph), show s.curWave = s.wave s.cur.wid from rfl, hca]
  rfl
end

theorem corpsBarrier : Claims.CorpsBarrier := by
  unfold Claims.CorpsBarrier
  intro s m d a e he hr hone w c r ready onward parks sent completes
  have hw := listed_of_one hone
  have parked : ∀ {t : State} {g : Wave → Wave}, AtBarrier s t g (fun l x => parkedLane s .barC l x) → parks t := fun {t} {_} h l hl => by
    show (t.lane s.cur.wid l).st = _ ∧ (t.lane s.cur.wid l).pc = _ ∧ (t.lane s.cur.wid l).nextPc = _
    rw [h.lane hl]
    exact ⟨rfl, rfl, rfl⟩
  have hmem : w ∈ s.liveWaves s.curTid := hone ▸ List.mem_singleton_self w
  refine ⟨fun ⟨hp, hl⟩ hca hrel => ⟨fun hn => ⟨?_, ?_⟩, fun hn hin => ⟨?_, ?_⟩⟩, fun ⟨hp, hl⟩ hph => ?_, fun ⟨hp, hl⟩ hph hca hn => ?_,
    fun hal => ⟨fun ⟨hp, hl⟩ hca => ⟨?_, ?_⟩, fun ⟨hp, hl⟩ hph hca => ?_⟩⟩
  · have hx := cbar_eq he hp hl hca hrel
    obtain ⟨ha, htr, hc⟩ := cbar_at hr hone
    rw [checkCbar_open (by rw [hc]; exact .inr hn)] at hx
    exact ⟨_, hx, ha.mem, carv_arrived ha, hc, parked ha⟩
  · have hx := cbarArv_eq he hp hl hca hrel d
    obtain ⟨ha, htr, hc⟩ := cbarArv_at (m := m) hr hone d (to32 d (if r.cphase then 1 else 0))
    rw [checkCbar_open (by rw [hc]; exact .inr hn)] at hx
    refine ⟨_, hx, ha.mem, carv_arrived ha, hc, fun l hl hact => ?_⟩
    rw [ha.lane hl, goOn_pend, sends_pend _ _ _ _ hact]
  · have hx := cbar_eq he hp hl hca hrel
    obtain ⟨ha, htr, hc⟩ := cbar_at hr hone
    have hph := checkCbar_completes (c := c) (ha.lineup.rising hr) (by rw [hc]; show r.clive ≠ 0; omega) (by rw [hc]; exact hn)
    refine ⟨_, hx, hph.mem.trans ha.mem, hph.goesOn ha htr hc, fun l hl32 hl' => ?_⟩
    rw [hph.lane_freed ha hc hin hmem hl32, ha.lane hl']
    exact freeFrom_parked rfl
  · have hx := cbarArv_eq he hp hl hca hrel d
    obtain ⟨ha, htr, hc⟩ := cbarArv_at (m := m) hr hone d (to32 d (if r.cphase then 1 else 0))
    have hph := checkCbar_completes (c := c) (ha.lineup.rising hr) (by rw [hc]; show r.clive ≠ 0; omega) (by rw [hc]; exact hn)
    refine ⟨_, hx, hph.mem.trans ha.mem, hph.goesOn ha htr hc, fun l hl' hact => ?_⟩
    rw [hph.lane_freed ha hc hin hmem (State.lane_lt_of_getLsbD hl'), freeFrom_pend, ha.lane hl', goOn_pend, sends_pend _ _ _ _ hact]
  · obtain ⟨h1, h2, h3, h4⟩ := finish_acquire s .clu
    exact ⟨_, cbarWt_past he hp hl hph, h1, h3, h2, h4 (by decide)⟩
  · have hx := cbarWt_waits he hp hl hph hca
    have ha := ((AtBarrier.refl s).park hr hw rfl .barC).finish_parked hr hw rfl (by decide)
    have hc : (finish (s.park .barC) []).corpsRec c = r := corpsRec_finish ..
    rw [checkCbar_open (by rw [hc]; exact hn)] at hx
    exact ⟨_, hx, ha.mem, parked ha, hc⟩
  · refine ⟨_, Eq.trans (show _ = execCbar m s from rfl) ?_, refuse_stops (sub := .barseq) hal ⟨e, he.1⟩⟩
    rw [execCbar, barrierGo_ready he hp hl, show s.curWave = s.wave s.cur.wid from rfl, hca, arrival_second]
  · refine ⟨_, Eq.trans (show _ = execCbarArv m d s from rfl) ?_, refuse_stops (sub := .barseq) hal ⟨e, he.1⟩⟩
    rw [execCbarArv, barrierGo_ready he hp hl, show s.curWave = s.wave s.cur.wid from rfl, hca, arrival_second]
  · exact ⟨_, cbarWt_early he hp hl hph hca, refuse_stops (sub := .barseq) hal ⟨e, he.1⟩⟩

/-- Settles O41, from what a completed phase of either barrier leaves of waves that line up as before. -/
theorem barriers : Obligations.Barriers := ⟨troupeBarrier, corpsBarrier⟩
end Sys2Proof
end

-- ==== Sys2Proof/Proofs/ControlRegisters.lean ====

-- ==== Sys2Proof/Proofs/ControlRegisters.lean ====
section
/-! SUPPORT. The control registers (R43 to R46, R235, R314). -/

namespace Sys2Proof

open Machine

/-! ### The checks of an access -/

theorem toNat_reg12 {n : Nat} (h : n < 2 ^ 12) : (BitVec.ofNat 12 n).toNat = n := by
  rw [BitVec.toNat_ofNat, Nat.mod_eq_of_lt h]
theorem headD_activeLanes {s : State} {m : Mods} {e : Nat} (he : Elected s m e) : (s.activeLanes m).headD 0 = e := by
  have h := elected_eq he
  unfold State.elected at h
  rw [List.headD_eq_head?_getD, h]
  rfl
theorem activeLanes_nodup (s : State) (m : Mods) : (s.activeLanes m).Nodup := (lanesOf_nodup _).filter _
section
variable {s : State} {m : Mods} {e : Nat} (he : Elected s m e) {i : Instr} {r : BitVec 12} {d : Reg} {wr : Bool} {go : State → State}
include he
theorem csrGo_unknown (hc : csrInfo r.toNat = none) : csrGo i s m r d wr go = .next (refuse s m .csrnum) := by
  unfold csrGo
  dsimp only
  rw [someActive_eq_true.2 ⟨e, he.1⟩, hc]
  rfl
variable {c : CsrInfo} (hc : csrInfo r.toNat = some c)
include hc
/-- An access goes through four checks. -/
theorem csrGo_known : csrGo i s m r d wr go = .next (if wr && !c.rw && !c.sw then refuse s m .csrnum
    else if wr && c.sw && !(s.wave s.cur.wid).sys then refuseWith s m .priv 0 0
    else if wr && r.toNat == 0 && wctlBad (s.src s.cur.wid e d) then refuse s m .csrval
    else if csrFlags r.toNat && s.flagsOwed then waitAt s i else go s) := by
  unfold csrGo
  dsimp only
  rw [someActive_eq_true.2 ⟨e, he.1⟩, hc, elected_eq he]
  rfl
theorem csrGo_goes (h1 : (wr && !c.rw && !c.sw) = false) (h2 : (wr && c.sw && !(s.wave s.cur.wid).sys) = false)
    (h3 : (wr && r.toNat == 0 && wctlBad (s.src s.cur.wid e d)) = false) (h4 : (csrFlags r.toNat && s.flagsOwed) = false) :
    csrGo i s m r d wr go = .next (go s) := by
  rw [csrGo_known he hc, h1, h2, h3, h4]
  rfl
end
theorem csrFlags_clear {s : State} {n : Nat} (h : n ≤ 1 → s.flagsOwed = false) : (csrFlags n && s.flagsOwed) = false := by
  unfold csrFlags
  by_cases hn : n ≤ 1
  · rw [h hn, Bool.and_false]
  · rw [show (n == 0 || n == 1) = false by rw [Bool.or_eq_false_iff, beq_eq_false_iff_ne, beq_eq_false_iff_ne]; omega, Bool.false_and]
/-- What WCTL may hold. -/
theorem wctlBad_iff (v : W32) : wctlBad v = true ↔ (2 ^ 9 ≤ v.toNat ∨ v.toNat / 2 % 8 = 0 ∨ 6 ≤ v.toNat / 2 % 8) := by
  have hrm : (v.extractLsb' 1 3).toNat = v.toNat / 2 % 8 := by
    rw [BitVec.extractLsb'_toNat, Nat.shiftRight_eq_div_pow]
  have hhi : v >>> 9 ≠ 0 ↔ 2 ^ 9 ≤ v.toNat := by
    rw [ne_eq, ← BitVec.toNat_inj, BitVec.toNat_ushiftRight, Nat.shiftRight_eq_div_pow, BitVec.ofNat_eq_ofNat, BitVec.toNat_ofNat, Nat.zero_mod]
    omega
  unfold wctlBad
  dsimp only
  rw [hrm, Bool.or_eq_true, Bool.or_eq_true, Bool.or_eq_true, bne_iff_ne, hhi, beq_iff_eq, beq_iff_eq, beq_iff_eq, or_assoc, or_assoc]
  have : v.toNat / 2 % 8 < 8 := Nat.mod_lt _ (by decide)
  omega

/-! ### Reads -/

/-- The registers that a lane is sent what it reads in. -/
def csrDst (d : Reg) (wide : Bool) : List Dst := if wide then regs2 d else regs1 d
/-- What a lane is sent of what a register held. -/
def csrSent (d : Reg) (wide : Bool) (v : W64) : List (Dst × W32) := if wide then to64 d v else to32 d (v.setWidth 32)
theorem csrWords_eq {n : Nat} (hn : n < 2 ^ 12) {c : CsrInfo} (hc : csrInfo n = some c) : csrWords (BitVec.ofNat 12 n) = if c.wide then 2 else 1 := by
  unfold csrWords
  rw [toNat_reg12 hn, hc]
  rfl
theorem csrOuts_eq {n : Nat} (hn : n < 2 ^ 12) {c : CsrInfo} (hc : csrInfo n = some c) (d : Reg) (v : W64) :
    csrOuts (BitVec.ofNat 12 n) d v = csrSent d c.wide v ∧ dstRegs d (csrWords (BitVec.ofNat 12 n)) = csrDst d c.wide := by
  unfold csrOuts csrSent csrDst
  rw [csrWords_eq hn hc]
  cases c.wide with
  | true => exact ⟨outs64_eq d v, dstRegs_two d⟩
  | false => exact ⟨outs32_eq d _, dstRegs_one d⟩
/-- Each active lane receives what the register held, whatever else the instruction has done. -/
theorem sendCsr_becomes {s t : State} {g : Wave → Wave} {f : Nat → Lane → Lane} (h : WaveBecomes s t g f) (hcur : t.cur = s.cur) (hid : t.nextId = s.nextId)
    (m : Mods) {n : Nat} (hn : n < 2 ^ 12) {c : CsrInfo} (hc : csrInfo n = some c) (d : Reg) :
    WaveBecomes s (sendCsr s t m (BitVec.ofNat 12 n) d) g
      (fun l x => sends s m none (csrDst d c.wide) (fun l => csrSent d c.wide (s.csrRead l n)) (fun _ => 0) l (f l x)) := by
  have hs : (sendCsr s t m (BitVec.ofNat 12 n) d).waves = (t.updLanes s.cur.wid (lanesOf s.cur.lanes) (fun l x =>
      if m.active x then x.send none s.nextId (csrSent d c.wide (s.csrRead l n)) else if m.zero then x.send none s.nextId (zeroOuts (csrDst d c.wide)) else x)).waves := by
    unfold sendCsr
    dsimp only
    rw [hcur, hid, toNat_reg12 hn, (csrOuts_eq hn hc d 0).2]
    simp only [(csrOuts_eq hn hc d _).1]
    rfl
  refine ((h.updPath _).of_waves hs).congr fun l _ => ?_
  exact send_eq_sends s m none (csrDst d c.wide) (fun l => csrSent d c.wide (s.csrRead l n)) l _
theorem WaveBecomes.lanesBecome {s t : State} {f : Nat → Lane → Lane} (h : WaveBecomes s t id f) : LanesBecome s t f := ⟨h.waves, h.rest, h.lanes⟩
section
variable {s : State} {m : Mods} {e : Nat} (he : Elected s m e) {d : Reg} {n : Nat} (hn : n < 2 ^ 12) {c : CsrInfo} (hc : csrInfo n = some c)
include he hn hc
/-- A read. -/
theorem csrr_reads {v : Nat → W64} (hv : ∀ l, s.csrRead l n = v l) (hf : n ≤ 1 → s.flagsOwed = false) : After (.csrr m (BitVec.ofNat 12 n) d) s (fun t =>
    t = { s with waves := t.waves, nextId := s.nextId + 1 } ∧
    LanesBecome s t (fun l x => goOn s l (sends s m none (csrDst d c.wide) (fun l => csrSent d c.wide (v l)) (fun _ => 0) l x))) := by
  refine ⟨finish (sendCsr s s m (BitVec.ofNat 12 n) d) [], ?_, ?_, ?_⟩
  · refine Eq.trans (show _ = execCsrr m (BitVec.ofNat 12 n) d s from rfl) ?_
    rw [execCsrr, csrGo_goes he (c := c) (by rw [toNat_reg12 hn]; exact hc) rfl rfl rfl (csrFlags_clear (by rw [toNat_reg12 hn]; exact hf))]
  · rw [finish_nil]
    rfl
  · have h := ((sendCsr_becomes (waveBecomes_refl s) rfl rfl m hn hc d).finish rfl).lanesBecome
    simp only [hv] at h
    exact h

/-! ### Writes -/

/-- A write that the checks let through. -/
theorem csrw_eq (h1 : (c.rw || c.sw) = true) (h2 : c.sw = true → (s.wave s.cur.wid).sys = true) (h3 : n = 0 → wctlBad (s.src s.cur.wid e d) = false)
    (hf : n ≤ 1 → s.flagsOwed = false) : exec (.csrw m (BitVec.ofNat 12 n) d) s =
    .next (finish (s.csrWrite (s.activeLanes m) n (s.csrArg (BitVec.ofNat 12 n) d)) []) := by
  refine Eq.trans (show _ = execCsrw m (BitVec.ofNat 12 n) d s from rfl) ?_
  rw [execCsrw, csrGo_goes he (c := c) (by rw [toNat_reg12 hn]; exact hc) ?_ ?_ ?_ (csrFlags_clear (by rw [toNat_reg12 hn]; exact hf)),
    if_pos (someActive_eq_true.2 ⟨e, he.1⟩), toNat_reg12 hn]
  · cases hrw : c.rw <;> cases hsw : c.sw <;> simp_all
  · cases hsw : c.sw
    · rfl
    · rw [h2 hsw]; rfl
  · rw [toNat_reg12 hn]
    by_cases h0 : n = 0
    · rw [h3 h0, Bool.and_false]
    · rw [beq_eq_false_iff_ne.2 h0]; rfl
theorem csrx_eq (h1 : (c.rw || c.sw) = true) (h2 : c.sw = true → (s.wave s.cur.wid).sys = true) (h3 : n ≠ 0)
    (hf : n ≤ 1 → s.flagsOwed = false) : exec (.csrx m (BitVec.ofNat 12 n) d) s =
    .next (finish (sendCsr s (s.csrWrite (s.activeLanes m) n (s.csrArg (BitVec.ofNat 12 n) d)) m (BitVec.ofNat 12 n) d) []) := by
  refine Eq.trans (show _ = execCsrx m (BitVec.ofNat 12 n) d s from rfl) ?_
  rw [execCsrx, csrGo_goes he (c := c) (by rw [toNat_reg12 hn]; exact hc) ?_ ?_ ?_ (csrFlags_clear (by rw [toNat_reg12 hn]; exact hf)),
    if_pos (someActive_eq_true.2 ⟨e, he.1⟩), toNat_reg12 hn]
  · cases hrw : c.rw <;> cases hsw : c.sw <;> simp_all
  · cases hsw : c.sw
    · rfl
    · rw [h2 hsw]; rfl
  · rw [toNat_reg12 hn, beq_eq_false_iff_ne.2 h3]
    rfl
omit he in
theorem csrArg_eq (l : Nat) : s.csrArg (BitVec.ofNat 12 n) d l = if c.wide then s.src64 s.cur.wid l d else (s.src s.cur.wid l d).setWidth 64 := by
  unfold State.csrArg
  rw [csrWords_eq hn hc]
  cases c.wide <;> rfl
end
/-- The active lanes of the path change. -/
theorem updActive_becomes (s : State) (m : Mods) (f : Nat → Lane → Lane) :
    WaveBecomes s (s.updLanes s.cur.wid (s.activeLanes m) f) id (fun l x => if m.active x then f l x else x) := by
  refine ((waveBecomes_refl s).updList (activeLanes_nodup s m) (fun l hl => (mem_activeLanes.1 hl).1) f).congr fun l hl => ?_
  by_cases ha : m.active (s.lane s.cur.wid l) = true
  · rw [if_pos (mem_activeLanes.2 ⟨hl, ha⟩), if_pos ha]
  · rw [if_neg (fun hx => ha (mem_activeLanes.1 hx).2), if_neg ha]
/-- A write of a lane's register. -/
theorem csrw_lanes {s : State} {m : Mods} {i : Instr} {f : Nat → Lane → Lane} (hx : exec i s = .next (finish (s.updLanes s.cur.wid (s.activeLanes m) f) [])) :
    After i s (fun t => t = { s with waves := t.waves } ∧ LanesBecome s t (fun l x => goOn s l (if m.active x then f l x else x))) :=
  ⟨_, hx, finish_frame_waves rfl, ((updActive_becomes s m f).finish rfl).lanesBecome⟩
theorem clearBit0_eq (y : W64) : y &&& ~~~ 1#64 = BitVec.ofNat 64 (y.toNat / 2 * 2) := by
  have h : y &&& ~~~ 1#64 = (y >>> 1) <<< 1 := by
    ext i hi
    interval_cases i <;> simp
  rw [h]
  refine BitVec.eq_of_toNat_eq ?_
  rw [BitVec.toNat_shiftLeft, BitVec.toNat_ushiftRight, BitVec.toNat_ofNat, Nat.shiftLeft_eq, Nat.shiftRight_eq_div_pow]
theorem wctl_eq (v : Wave) : v.wctl.setWidth 64 = BitVec.ofNat 64 (v.flags.toNat * 16 + v.rm.toNat * 2 + v.chk.toNat) := by
  have h1 := v.flags.isLt
  have h2 := v.rm.isLt
  have h3 : v.chk.toNat < 2 := Bool.toNat_lt v.chk
  refine BitVec.eq_of_toNat_eq ?_
  unfold Wave.wctl
  rw [BitVec.toNat_setWidth, BitVec.toNat_append, BitVec.toNat_append, BitVec.toNat_append, BitVec.toNat_ofBool, BitVec.toNat_ofNat, Nat.zero_mod, Nat.zero_shiftLeft,
    Nat.zero_or, ← Nat.shiftLeft_add_eq_or_of_lt h2, ← Nat.shiftLeft_add_eq_or_of_lt (by exact h3), Nat.shiftLeft_eq, Nat.shiftLeft_eq, BitVec.toNat_ofNat]
  congr 1
  omega
/-- A lane takes its flags. -/
def withFlags (f : BitVec 5) (x : Lane) : Lane := { x with lflags := f }
theorem lane_upd_all (v : Wave) (f : Nat → Lane → Lane) {l : Nat} (hl : l < 32) : (v.upd (List.range 32) f).lane l = f l (v.lane l) := by
  rw [Wave.lane_upd _ _ _ _ List.nodup_range, if_pos (List.mem_range.2 hl)]
theorem setWctl_eq (v : Wave) (x : W32) : v.setWctl x =
    { v.upd (List.range 32) (fun _ => withFlags (x.extractLsb' 4 5)) with rm := x.extractLsb' 1 3, chk := x.getLsbD 0 } := rfl
theorem lane_of_modes (v : Wave) (rm : BitVec 3) (chk : Bool) (l : Nat) : ({ v with rm := rm, chk := chk } : Wave).lane l = v.lane l := rfl
/-- A write of WCTL. -/
theorem setWctl_written (v : Wave) (x : W32) : (v.setWctl x).rm = x.extractLsb' 1 3 ∧ (v.setWctl x).chk = x.getLsbD 0 ∧
    ∀ l, l < 32 → (v.setWctl x).lane l = withFlags (x.extractLsb' 4 5) (v.lane l) :=
  ⟨rfl, rfl, fun l hl => by rw [setWctl_eq, lane_of_modes, lane_upd_all _ _ hl]⟩
theorem goOn_rest (s : State) (l : Nat) (x : Lane) : goOn s l x = { x with pc := (goOn s l x).pc } := by
  unfold goOn
  split <;> rfl
section
variable {s : State} {m : Mods} {e : Nat} (he : Elected s m e) {d : Reg}
include he
theorem csrw_wctl (hf : s.flagsOwed = false) (h9 : (s.src s.cur.wid e d).toNat < 2 ^ 9)
    (hrm : (s.src s.cur.wid e d).toNat / 2 % 8 ≠ 0 ∧ (s.src s.cur.wid e d).toNat / 2 % 8 ≤ 5) : After (.csrw m (BitVec.ofNat 12 0) d) s (fun t =>
      t = { s with waves := t.waves } ∧ (t.wave s.cur.wid).rm = (s.src s.cur.wid e d).extractLsb' 1 3 ∧ (t.wave s.cur.wid).chk = (s.src s.cur.wid e d).getLsbD 0 ∧
      ∀ l, l < 32 → (t.lane s.cur.wid l).lflags = (s.src s.cur.wid e d).extractLsb' 4 5 ∧ (t.lane s.cur.wid l).g = (s.lane s.cur.wid l).g) := by
  have hx := csrw_eq he (d := d) (n := 0) (by decide) (c := ⟨.wave, false, true, false⟩) rfl rfl (fun h => absurd h (by decide))
    (fun _ => by rw [Bool.eq_false_iff, ne_eq, wctlBad_iff]; omega) (fun _ => hf)
  have hval : s.csrWrite (s.activeLanes m) 0 (s.csrArg (BitVec.ofNat 12 0) d) = s.modWave s.cur.wid (fun x => x.setWctl (s.src s.cur.wid e d)) := by
    show s.modWave s.cur.wid (fun x => x.setWctl (lo32 (s.csrArg (BitVec.ofNat 12 0) d ((s.activeLanes m).headD 0)))) = _
    rw [headD_activeLanes he, csrArg_eq (by decide) (c := ⟨.wave, false, true, false⟩) rfl]
    show s.modWave s.cur.wid (fun x => x.setWctl (((s.src s.cur.wid e d).setWidth 64).setWidth 32)) = _
    rw [BitVec.setWidth_setWidth_of_le _ (by decide), BitVec.setWidth_eq]
  rw [hval] at hx
  obtain ⟨h1, h2, h3⟩ := setWctl_written (s.wave s.cur.wid) (s.src s.cur.wid e d)
  have hgo := finish_goesOn (s.modWave s.cur.wid (fun x => x.setWctl (s.src s.cur.wid e d)))
  have hw : (s.modWave s.cur.wid (fun x => x.setWctl (s.src s.cur.wid e d))).wave s.cur.wid = (s.wave s.cur.wid).setWctl (s.src s.cur.wid e d) :=
    State.wave_modWave_self ..
  refine ⟨_, hx, finish_frame_waves rfl, ?_, ?_, fun l hl => ?_⟩
  · have hr := hgo.rest
    rw [show (s.modWave s.cur.wid (fun x => x.setWctl (s.src s.cur.wid e d))).cur = s.cur from rfl, hw] at hr
    rw [hr]
    exact h1
  · have hr := hgo.rest
    rw [show (s.modWave s.cur.wid (fun x => x.setWctl (s.src s.cur.wid e d))).cur = s.cur from rfl, hw] at hr
    rw [hr]
    exact h2
  · have hr := hgo.lanes l
    rw [show (s.modWave s.cur.wid (fun x => x.setWctl (s.src s.cur.wid e d))).cur = s.cur from rfl] at hr
    have hlane : (s.modWave s.cur.wid (fun x => x.setWctl (s.src s.cur.wid e d))).lane s.cur.wid l =
        withFlags ((s.src s.cur.wid e d).extractLsb' 4 5) (s.lane s.cur.wid l) := by
      unfold State.lane
      rw [hw]
      exact h3 l hl
    rw [hlane] at hr
    rw [hr]
    split
    · rw [goOn_rest]
      exact ⟨rfl, rfl⟩
    · exact ⟨rfl, rfl⟩
/-- The value that is written once for the wave. -/
theorem csrArg_head {n : Nat} (hn : n < 2 ^ 12) {c : CsrInfo} (hc : csrInfo n = some c) : s.csrArg (BitVec.ofNat 12 n) d ((s.activeLanes m).headD 0) =
    if c.wide then s.src64 s.cur.wid e d else (s.src s.cur.wid e d).setWidth 64 := by
  rw [headD_activeLanes he, csrArg_eq hn hc]
end

/-! ### What each register answers -/

section
variable {s : State} {m : Mods} {e : Nat} (he : Elected s m e) {d : Reg}
include he
theorem refused {i : Instr} {sub : Sub} (hal : Alone s) (hx : exec i s = .next (refuse s m sub)) : After i s (fun t => StopsActive s t m 0x10 sub.code.toNat 0) :=
  ⟨_, hx, refuse_stops hal ⟨e, he.1⟩⟩
theorem csr_unknown (hal : Alone s) {n : Nat} (hn : n < 2 ^ 12) (hc : csrInfo n = none) : ∀ i, i = .csrr m (BitVec.ofNat 12 n) d ∨ i = .csrw m (BitVec.ofNat 12 n) d ∨
    i = .csrx m (BitVec.ofNat 12 n) d → After i s (fun t => StopsActive s t m 0x10 0x0C 0) := by
  have hc' : csrInfo (BitVec.ofNat 12 n).toNat = none := by rw [toNat_reg12 hn]; exact hc
  intro i hi
  have key : ∃ wr go, exec i s = csrGo i s m (BitVec.ofNat 12 n) d wr go := by
    rcases hi with rfl | rfl | rfl
    · exact ⟨_, _, show _ = execCsrr m _ d s from rfl⟩
    · exact ⟨_, _, show _ = execCsrw m _ d s from rfl⟩
    · exact ⟨_, _, show _ = execCsrx m _ d s from rfl⟩
  obtain ⟨wr, go, hx⟩ := key
  rw [csrGo_unknown he hc'] at hx
  exact refused (sub := .csrnum) he hal hx
/-- A write of a register that is not written, and in user mode of one of the system's. -/
theorem csr_refused {n : Nat} (hn : n < 2 ^ 12) {c : CsrInfo} (hc : csrInfo n = some c) {i : Instr} (hi : i = .csrw m (BitVec.ofNat 12 n) d ∨ i = .csrx m (BitVec.ofNat 12 n) d) :
    (c.rw = false → c.sw = false → exec i s = .next (refuse s m .csrnum)) ∧
    (c.rw = false → c.sw = true → (s.wave s.cur.wid).sys = false → exec i s = .next (refuseWith s m .priv 0 0)) := by
  have hc' : csrInfo (BitVec.ofNat 12 n).toNat = some c := by rw [toNat_reg12 hn]; exact hc
  have key : ∃ go, exec i s = csrGo i s m (BitVec.ofNat 12 n) d true go := by
    rcases hi with rfl | rfl
    · exact ⟨_, show _ = execCsrw m _ d s from rfl⟩
    · exact ⟨_, show _ = execCsrx m _ d s from rfl⟩
  obtain ⟨go, hx⟩ := key
  rw [csrGo_known he hc'] at hx
  refine ⟨fun h1 h2 => ?_, fun h1 h2 h3 => ?_⟩
  · rw [hx, h1, h2]
    rfl
  · rw [hx, h1, h2, h3]
    rfl
end
/-- The registers that no software writes. -/
theorem csr_readOnly {n : Nat} (h : n ∈ [0x002, 0x008, 0x009, 0x00A, 0x00B, 0x00C, 0x00D, 0x010, 0x040, 0x041, 0x042, 0x050, 0x060, 0x061, 0x070, 0x071, 0x080]) :
    ∃ c, csrInfo n = some c ∧ c.rw = false ∧ c.sw = false := by
  have all : ∀ n ∈ [0x002, 0x008, 0x009, 0x00A, 0x00B, 0x00C, 0x00D, 0x010, 0x040, 0x041, 0x042, 0x050, 0x060, 0x061, 0x070, 0x071, 0x080],
      (csrInfo n).any (fun c => !c.rw && !c.sw) = true := by decide
  obtain ⟨c, hc, h⟩ := (Option.any_eq_true _ _).1 (all n h)
  rw [Bool.and_eq_true, Bool.not_eq_true', Bool.not_eq_true'] at h
  exact ⟨c, hc, h⟩
/-- The registers that only the system writes. -/
theorem csr_system {n : Nat} (h : n ∈ [0x003, 0x020, 0x021, 0x022, 0x030, 0x100, 0x101]) : ∃ c, csrInfo n = some c ∧ c.rw = false ∧ c.sw = true := by
  have all : ∀ n ∈ [0x003, 0x020, 0x021, 0x022, 0x030, 0x100, 0x101], (csrInfo n).any (fun c => !c.rw && c.sw) = true := by decide
  obtain ⟨c, hc, h⟩ := (Option.any_eq_true _ _).1 (all n h)
  rw [Bool.and_eq_true, Bool.not_eq_true'] at h
  exact ⟨c, hc, h⟩

/-- The path goes on after a change that no wave sees. -/
theorem finish_goesOn_same {s u : State} (hw : u.waves = s.waves) (hc : u.cur = s.cur) : GoesOn s (finish u []) := ((waveBecomes_refl s).of_waves hw).finish hc
theorem modTroupe_finish (s : State) (f : Troupe → Troupe) : let t := finish (s.modTroupe s.curTid f) []
    t = { s with waves := t.waves, troupes := t.troupes } ∧ GoesOn s t ∧ ∀ j, t.troupe j = if j = s.curTid then f s.curTroupe else s.troupe j := by
  refine ⟨?_, finish_goesOn_same rfl rfl, fun j => (troupe_finish ..).trans (State.troupe_modTroupe ..)⟩
  rw [finish_nil]
  rfl
/-- A lane is sent what its flags were and takes others. -/
theorem sends_withFlags (s : State) (m : Mods) (ds : List Dst) (val val' : Nat → List (Dst × W32)) (l : Nat) (x : Lane) (f : BitVec 5) :
    sends s m none ds val (fun _ => 0) l (if m.active x then { x with lflags := f } else x) =
      if m.active x then { sends s m none ds val (fun _ => 0) l x with lflags := f } else sends s m none ds val' (fun _ => 0) l x := by
  by_cases h : m.active x = true
  · rw [if_pos h, if_pos h]
    have h' : m.active { x with lflags := f } = true := h
    unfold sends
    rw [if_pos h', if_pos h]
    simp
  · rw [if_neg h, if_neg h]
    unfold sends
    rw [if_neg h, if_neg h]

/-- Settles O42, from the checks of an access and what each register's read and write do. -/
theorem controlRegisters : Obligations.ControlRegisters := by
  unfold Obligations.ControlRegisters
  intro s m d e he w u p r v wide gets reads sets sets2
  have read : ∀ {n : Nat} (c : CsrInfo) (f : Nat → W64), n < 2 ^ 12 → csrInfo n = some c → (∀ l, s.csrRead l n = f l) → reads n c.wide f := fun c f hn hc hv hf =>
    csrr_reads he (d := d) hn hc hv hf
  have argN : ∀ {n : Nat} {c : CsrInfo}, n < 2 ^ 12 → csrInfo n = some c → c.wide = false → s.csrArg (r n) d = fun l => (s.src w l d).setWidth 64 := fun hn hc hw =>
    funext fun l => by rw [csrArg_eq hn hc, hw]; rfl
  have argW : ∀ {n : Nat} {c : CsrInfo}, n < 2 ^ 12 → csrInfo n = some c → c.wide = true → s.csrArg (r n) d = fun l => s.src64 w l d := fun hn hc hw =>
    funext fun l => by rw [csrArg_eq hn hc, hw]; rfl
  have lo : lo32 (v.setWidth 64) = v := (BitVec.setWidth_setWidth_of_le _ (by decide)).trans (BitVec.setWidth_eq _)
  refine ⟨read ⟨.wave, false, true, false⟩ _ (by decide) rfl (fun l => wctl_eq _), read ⟨.lane, false, true, false⟩ _ (by decide) rfl (fun l => rfl),
    read ⟨.wave, false, false, false⟩ _ (by decide) rfl (fun l => rfl), read ⟨.wave, false, false, true⟩ _ (by decide) rfl (fun l => rfl),
    read ⟨.troupe, false, false, false⟩ _ (by decide) rfl (fun l => ?_), read ⟨.troupe, false, false, false⟩ _ (by decide) rfl (fun l => rfl),
    read ⟨.troupe, false, false, false⟩ _ (by decide) rfl (fun l => rfl), read ⟨.core, false, false, false⟩ _ (by decide) rfl (fun l => rfl),
    read ⟨.package, false, false, false⟩ _ (by decide) rfl (fun l => rfl), read ⟨.package, false, false, false⟩ _ (by decide) rfl (fun l => rfl),
    read ⟨.core, true, false, false⟩ _ (by decide) rfl (fun l => rfl), read ⟨.lane, false, false, true⟩ _ (by decide) rfl (fun l => rfl),
    read ⟨.lane, true, false, true⟩ _ (by decide) rfl (fun l => rfl), read ⟨.lane, true, false, true⟩ _ (by decide) rfl (fun l => rfl),
    fun hfeat => read ⟨.package, false, false, true⟩ _ (by decide) rfl (fun l => ?_), read ⟨.package, true, false, false⟩ _ (by decide) rfl (fun l => rfl),
    read ⟨.package, false, false, false⟩ _ (by decide) rfl (fun l => rfl), read ⟨.package, true, false, false⟩ _ (by decide) rfl (fun l => rfl),
    read ⟨.core, true, false, false⟩ _ (by decide) rfl (fun l => rfl), read ⟨.package, true, false, false⟩ _ (by decide) rfl (fun l => rfl),
    read ⟨.package, true, false, false⟩ _ (by decide) rfl (fun l => rfl), read ⟨.package, true, false, false⟩ _ (by decide) rfl (fun l => rfl),
    read ⟨.package, true, false, false⟩ _ (by decide) rfl (fun l => rfl), read ⟨.troupe, false, false, false⟩ _ (by decide) rfl (fun l => rfl),
    read ⟨.troupe, true, false, true⟩ _ (by decide) rfl (fun l => rfl), read ⟨.troupe, true, false, true⟩ _ (by decide) rfl (fun l => rfl), ?_⟩
  rotate_left 2
  · refine ⟨fun hf => ?_, fun hf h9 hrm => csrw_wctl he hf h9 hrm, fun hsys => ⟨?_, ?_, ?_, ?_, ?_, ?_, ?_⟩, fun hf => ?_, fun hsys => ?_, fun hf n hn => ?_,
      fun hal n hn => ⟨csr_unknown he hal hn, fun hm i hi => ?_, fun hm i hi => ?_, fun hv => ?_⟩⟩
    · have hx := csrw_eq he (d := d) (n := 1) (by decide) (c := ⟨.lane, false, true, false⟩) rfl rfl (fun h => absurd h (by decide)) (fun h => absurd h (by decide)) (fun _ => hf)
      rw [argN (n := 1) (by decide) rfl rfl] at hx
      exact csrw_lanes hx
    · have hx := csrw_eq he (d := d) (n := 0x020) (by decide) (c := ⟨.lane, false, false, true⟩) rfl rfl (fun _ => hsys) (fun h => absurd h (by decide)) (fun h => absurd h (by decide))
      rw [argN (n := 0x020) (by decide) rfl rfl] at hx
      exact csrw_lanes hx
    · have hx := csrw_eq he (d := d) (n := 0x021) (by decide) (c := ⟨.lane, true, false, true⟩) rfl rfl (fun _ => hsys) (fun h => absurd h (by decide)) (fun h => absurd h (by decide))
      rw [argW (n := 0x021) (by decide) rfl rfl] at hx
      exact csrw_lanes hx
    · have hx := csrw_eq he (d := d) (n := 0x022) (by decide) (c := ⟨.lane, true, false, true⟩) rfl rfl (fun _ => hsys) (fun h => absurd h (by decide)) (fun h => absurd h (by decide))
      rw [argW (n := 0x022) (by decide) rfl rfl] at hx
      have hl := csrw_lanes (f := fun l x => { x with trapPc := s.src64 w l d &&& ~~~ 1#64, movedPc := true }) hx
      simp only [clearBit0_eq] at hl
      exact hl
    · have hx := csrw_eq he (d := d) (n := 0x003) (by decide) (c := ⟨.wave, false, false, true⟩) rfl rfl (fun _ => hsys) (fun h => absurd h (by decide)) (fun h => absurd h (by decide))
      rw [show s.csrWrite (s.activeLanes m) 0x003 (s.csrArg (BitVec.ofNat 12 0x003) d) = s.modWave w (fun x => { x with trapLanes := v }) from by
        show s.modWave w (fun x => { x with trapLanes := lo32 (s.csrArg (r 0x003) d ((s.activeLanes m).headD 0)) }) = _
        rw [argN (n := 0x003) (by decide) rfl rfl, headD_activeLanes he]
        rw [lo]] at hx
      exact ⟨_, hx, finish_frame_waves rfl, (modWave_waveBecomes s (fun x => { x with trapLanes := v }) (fun _ => rfl)).finish rfl⟩
    · have hx := csrw_eq he (d := d) (n := 0x100) (by decide) (c := ⟨.troupe, true, false, true⟩) rfl rfl (fun _ => hsys) (fun h => absurd h (by decide)) (fun h => absurd h (by decide))
      rw [show s.csrWrite (s.activeLanes m) 0x100 (s.csrArg (BitVec.ofNat 12 0x100) d) = s.modTroupe s.curTid (fun t => { t with savearea := wide }) from by
        show s.modTroupe s.curTid (fun t => { t with savearea := s.csrArg (r 0x100) d ((s.activeLanes m).headD 0) }) = _
        rw [argW (n := 0x100) (by decide) rfl rfl, headD_activeLanes he]] at hx
      exact ⟨_, hx, modTroupe_finish s _⟩
    · have hx := csrw_eq he (d := d) (n := 0x101) (by decide) (c := ⟨.troupe, true, false, true⟩) rfl rfl (fun _ => hsys) (fun h => absurd h (by decide)) (fun h => absurd h (by decide))
      rw [show s.csrWrite (s.activeLanes m) 0x101 (s.csrArg (BitVec.ofNat 12 0x101) d) = s.modTroupe s.curTid (fun t => { t with traphnd := wide }) from by
        show s.modTroupe s.curTid (fun t => { t with traphnd := s.csrArg (r 0x101) d ((s.activeLanes m).headD 0) }) = _
        rw [argW (n := 0x101) (by decide) rfl rfl, headD_activeLanes he]] at hx
      exact ⟨_, hx, modTroupe_finish s _⟩
    · have hx := csrw_eq he (d := d) (n := 0x030) (by decide) (c := ⟨.package, false, false, true⟩) rfl rfl (fun _ => hsys) (fun h => absurd h (by decide)) (fun h => absurd h (by decide))
      rw [show s.csrWrite (s.activeLanes m) 0x030 (s.csrArg (BitVec.ofNat 12 0x030) d) = s.modPkg s.curPkg (fun p => { p with fab := { p.fab with fctl := v &&& fctlMask } }) from by
        show s.modPkg s.curPkg (fun p => { p with fab := { p.fab with fctl := lo32 (s.csrArg (r 0x030) d ((s.activeLanes m).headD 0)) &&& fctlMask } }) = _
        rw [argN (n := 0x030) (by decide) rfl rfl, headD_activeLanes he, lo]] at hx
      refine ⟨_, hx, ?_, finish_goesOn_same rfl rfl, ?_⟩
      · rw [finish_nil]
        rfl
      · rw [finish_nil, State.pkg_advance, State.pkg_modPkg_self]
        rfl
    · have hx := csrx_eq he (d := d) (n := 1) (by decide) (c := ⟨.lane, false, true, false⟩) rfl rfl (fun h => absurd h (by decide)) (by decide) (fun _ => hf)
      rw [argN (n := 1) (by decide) rfl rfl] at hx
      have hb := (sendCsr_becomes (updActive_becomes s m (fun l x => { x with lflags := ((s.src w l d).setWidth 64).setWidth 5 })) rfl rfl m (n := 1) (by decide)
        (c := ⟨.lane, false, true, false⟩) rfl d).finish rfl
      have hb' : WaveBecomes s _ id (fun l x => goOn s l (if m.active x
          then { gets false (fun l => (s.lane w l).lflags.setWidth 64) l x with lflags := (s.src w l d).setWidth 5 } else gets false (fun _ => 0) l x)) :=
        hb.congr fun l _ => congrArg (goOn s l) (by
          rw [BitVec.setWidth_setWidth_of_le _ (by decide)]
          exact sends_withFlags s m (regs1 d) _ _ l (s.lane w l) _)
      refine ⟨_, hx, ?_, hb'.lanesBecome⟩
      rw [finish_nil]
      rfl
    · have hx := csrx_eq he (d := d) (n := 0x100) (by decide) (c := ⟨.troupe, true, false, true⟩) rfl rfl (fun _ => hsys) (by decide) (fun h => absurd h (by decide))
      rw [show s.csrWrite (s.activeLanes m) 0x100 (s.csrArg (BitVec.ofNat 12 0x100) d) = s.modTroupe s.curTid (fun t => { t with savearea := wide }) from by
        show s.modTroupe s.curTid (fun t => { t with savearea := s.csrArg (r 0x100) d ((s.activeLanes m).headD 0) }) = _
        rw [argW (n := 0x100) (by decide) rfl rfl, headD_activeLanes he]] at hx
      have hb := (sendCsr_becomes ((waveBecomes_refl s).of_waves (u := s.modTroupe s.curTid (fun t => { t with savearea := wide })) rfl) rfl rfl m (n := 0x100) (by decide)
        (c := ⟨.troupe, true, false, true⟩) rfl d).finish rfl
      refine ⟨_, hx, ?_, ?_, hb.lanesBecome⟩
      · rw [finish_nil]
        rfl
      · rw [troupe_finish]
        show ((s.modTroupe s.curTid (fun t => { t with savearea := wide })).troupe s.curTid).savearea = wide
        rw [State.troupe_modTroupe_self]
    · have hc : ∃ c, csrInfo n = some c := by rcases hn with rfl | rfl <;> exact ⟨_, rfl⟩
      obtain ⟨c, hc⟩ := hc
      have hn12 : n < 2 ^ 12 := by omega
      refine ⟨waitAt s (.csrr m (r n) d), Eq.trans (show _ = execCsrr m (r n) d s from rfl) ?_, waitAt_waits ..⟩
      rw [execCsrr, csrGo_known he (c := c) (by rw [toNat_reg12 hn12]; exact hc), toNat_reg12 hn12, hf]
      rcases hn with rfl | rfl <;> rfl
    · obtain ⟨c, hc, h1, h2⟩ := csr_readOnly hm
      exact refused (sub := .csrnum) he hal ((csr_refused he hn hc hi).1 h1 h2)
    · obtain ⟨c, hc, h1, h2⟩ := csr_system hm
      exact ⟨_, (csr_refused he hn hc hi).2 h1 h2 hal.1, finish_stops hal ⟨e, he.1⟩ rfl (by decide)⟩
    · refine refused (sub := .csrval) he hal (Eq.trans (show _ = execCsrw m (r 0) d s from rfl) ?_)
      rw [execCsrw, csrGo_known he (c := ⟨.wave, false, true, false⟩) rfl, (wctlBad_iff _).2 hv]
      rfl
  · show BitVec.ofNat 64 (nbits u.tidx 39 32) = _
    rw [nbits_div]
  · show BitVec.ofNat 64 (p.fctlNow.toNat % 2 ^ 31 + boolBit p.fab.csync 31) = _
    rw [Pkg.fctlNow, if_pos hfeat]
    rfl
end Sys2Proof
end

-- ==== Sys2Proof/Proofs/Accesses.lean ====

-- ==== Sys2Proof/Proofs/Accesses.lean ====
section
/-! SUPPORT. What every access shares: the causes of the checks (R177), translations that are used and walks that are waited for (R274, R275). -/

namespace Sys2Proof

open Machine

/-! ### The causes of the checks (R177) -/

/-- A cause that the checks of an access give: it stops its lane where it stands. -/
def AccessFault (c : Cause) (sub : Byte) : Prop := c ≠ .none ∧ ∀ (s : State) (l : Nat) (va : W64), (s.stopRec l c sub va).stays = false
theorem accessFault_mem {c : Cause} {sub : Byte} (h : (c, sub) ∈ [(Cause.page, (0 : Byte)), (.prot, 0), (.align, 0), (.wpdup, 0), (.own, 0), (.detrange, 1)]) :
    AccessFault c sub := by
  simp only [List.mem_cons, Prod.mk.injEq, List.not_mem_nil, or_false] at h
  rcases h with ⟨rfl, rfl⟩ | ⟨rfl, rfl⟩ | ⟨rfl, rfl⟩ | ⟨rfl, rfl⟩ | ⟨rfl, rfl⟩ | ⟨rfl, rfl⟩ <;> exact ⟨by decide, fun _ _ _ => rfl⟩
/-- What the checks answer, where it is a cause, is one of those. -/
structure FaultsWell (x : Checked) : Prop where
  fault : ∀ {c sub}, x = .bad c sub → AccessFault c sub
theorem FaultsWell.bad {c : Cause} {sub : Byte} (h : AccessFault c sub) : FaultsWell (.bad c sub) := ⟨fun e => by
  obtain ⟨rfl, rfl⟩ := Checked.bad.inj e
  exact h⟩
theorem FaultsWell.ok (p : Place) : FaultsWell (.ok p) := ⟨fun e => nomatch e⟩
theorem FaultsWell.ite {p : Prop} [Decidable p] {x y : Checked} (hx : FaultsWell x) (hy : FaultsWell y) : FaultsWell (if p then x else y) := by
  split
  · exact hx
  · exact hy
section
variable (s : State)
theorem checkPage_faults (k core : Nat) (ctx : W32) (sys : Bool) (kd : AccKind) (va : W64) : FaultsWell (s.checkPage k core ctx sys kd va) := by
  have page : FaultsWell (.bad .page 0) := .bad (accessFault_mem (by decide))
  have prot : FaultsWell (.bad .prot 0) := .bad (accessFault_mem (by decide))
  unfold State.checkPage
  split
  · exact page
  · dsimp only
    split
    · exact page
    · exact .ite prot (.ite prot (.ite prot (.ite (.bad (accessFault_mem (by decide))) (.ite prot (.ok _)))))
theorem checkG_faults (k core : Nat) (ctx : W32) (sys : Bool) (kd : AccKind) (va : W64) (n : Nat) : FaultsWell (s.checkG k core ctx sys kd va n) :=
  .ite (.bad (accessFault_mem (by decide))) (.ite (.bad (accessFault_mem (by decide))) (checkPage_faults ..))
theorem checkS_faults (t : Nat) (a : W32) (n : Nat) : FaultsWell (s.checkS t a n) := by
  unfold State.checkS
  split
  · exact .bad (accessFault_mem (by decide))
  · exact .ite (.bad (accessFault_mem (by decide))) (.ite (.bad (accessFault_mem (by decide))) (.ok _))
theorem checkB_faults (t : Nat) (a : W32) (n : Nat) : FaultsWell (s.checkB t a n) :=
  .ite (.bad (accessFault_mem (by decide))) (.ite (.bad (accessFault_mem (by decide))) (.ok _))
theorem checkDet_faults (t : Nat) (sp : Space) (kd : AccKind) (a : W64) (n : Nat) {x : Checked} (h : FaultsWell x) : FaultsWell (s.checkDet t sp kd a n x) := by
  unfold State.checkDet
  split
  · exact h
  · exact .ite (.bad (accessFault_mem (by decide))) (.ok _)
theorem check_faults (t : Nat) (sys : Bool) (sp : Space) (kd : AccKind) (a : W64) (n : Nat) : FaultsWell (s.check t sys sp kd a n) := by
  cases sp
  · exact checkDet_faults s _ _ _ _ _ (checkG_faults ..)
  · exact checkDet_faults s _ _ _ _ _ (checkS_faults ..)
  · exact checkDet_faults s _ _ _ _ _ (checkB_faults ..)
theorem evtKey_faults (kd : AccKind) (va : W64) : FaultsWell (s.evtKey kd va) := by
  have prot : FaultsWell (.bad .prot 0) := .bad (accessFault_mem (by decide))
  unfold State.evtKey
  split
  · exact prot
  · split
    · exact .ite (.ok _) prot
    · exact .ok _
  · exact checkG_faults ..
end
/-- A lane that elects an access which faults stops its wave with the cause. -/
theorem faultElected_access {s : State} {m : Mods} {c : Cause} {sub : Byte} {va : W64} (h : Alone s) (ha : ∃ l, On s m l) (hf : AccessFault c sub) :
    StopsElected s (faultElected s m c sub va) m c.code.toNat sub.toNat va := faultElected_stops h ha (hf.2 s 0 va) hf.1

/-! ### Walks that are waited for (R275) -/

section
variable {s : State}
theorem mem_missing {vas : List W64} {n : Nat} : n ∈ s.missing vas ↔ ∃ va ∈ vas, Misses s va ∧ pageOf va = n := by
  have key : ∀ va, (canonicalVa va && !(s.core s.curTroupe.pkg s.curTroupe.core).tlb.any (·.hits s.curTroupe.ctx va) &&
      !(fget [] (s.pkg s.curTroupe.pkg).tlb2 (clusterOf s.curTroupe.core)).any (·.hits s.curTroupe.ctx va) && !s.answered (pageNo va)) = true ↔ Misses s va := by
    intro va
    unfold Misses State.answered Walk.is
    simp only [Bool.and_eq_true, Bool.not_eq_true', List.any_eq_false, and_assoc, List.contains_eq_mem, decide_eq_true_eq, beq_iff_eq, Bool.not_eq_true]
    refine and_congr_right fun _ => and_congr_right fun _ => and_congr_right fun _ => forall_congr' fun r => forall_congr' fun _ => ?_
    constructor
    · exact fun h h1 h2 h3 h4 h5 h6 => h ⟨h1, h2, h3, h4, h5, h6⟩
    · exact fun h ⟨h1, h2, h3, h4, h5, h6⟩ => h h1 h2 h3 h4 h5 h6
  unfold State.missing
  rw [List.mem_dedup, List.mem_map]
  simp only [List.mem_filter, key, and_assoc]
  rfl
theorem missing_of_walkWait {vas : List W64} (h : s.walkWait .g vas = false) : s.missing vas = [] := by
  unfold State.walkWait at h
  rw [beq_self_eq_true, Bool.true_and, Bool.not_eq_false', List.isEmpty_iff] at h
  exact h
/-- Nothing is asked for where nothing misses. -/
theorem missed_of_walkWait {sp : Space} {vas : List W64} (h : s.walkWait sp vas = false) : s.missed sp vas = s := by
  unfold State.missed
  split
  · next hg =>
    subst hg
    rw [missing_of_walkWait h]
    rfl
  · rfl
theorem missed_frame (sp : Space) (vas : List W64) : s.missed sp vas = { s with walks := (s.missed sp vas).walks } := by
  unfold State.missed
  split <;> rfl
/-- A walk for a page of a core and a wave. -/
def WalkIs (r : Walk) (k core w : Nat) (ctx : W32) (page : Nat) : Prop :=
  r.done = false ∧ r.pkg = k ∧ r.die = core / 256 ∧ r.ctx = ctx ∧ r.page = page ∧ core ∈ r.cores ∧ w ∈ r.wids
theorem mem_addNew {n x : Nat} {l : List Nat} : x ∈ addNew n l ↔ x = n ∨ x ∈ l := by
  unfold addNew
  split
  · next h =>
    rw [List.contains_eq_mem, decide_eq_true_eq] at h
    exact ⟨.inr, fun hx => hx.elim (fun e => e ▸ h) id⟩
  · rw [List.mem_append, List.mem_singleton, or_comm]
/-- The page of the miss that joins has its walk, and no walk is lost. -/
theorem joinWalk_walks (l : List Walk) (k core w : Nat) (ctx : W32) (page : Nat) : (∃ r ∈ joinWalk l k core w ctx page, WalkIs r k core w ctx page) ∧
    ∀ c v x n, (∃ r ∈ l, WalkIs r k c v x n) → ∃ r ∈ joinWalk l k core w ctx page, WalkIs r k c v x n := by
  unfold joinWalk
  split
  · next h =>
    obtain ⟨r, hr, hm⟩ := List.any_eq_true.1 h
    refine ⟨⟨_, List.mem_map_of_mem hr, ?_⟩, fun c v x n ⟨q, hq, hw⟩ => ⟨_, List.mem_map_of_mem hq, ?_⟩⟩
    · rw [if_pos hm]
      unfold Walk.is at hm
      simp only [Bool.and_eq_true, Bool.not_eq_true', beq_iff_eq] at hm
      obtain ⟨h1, ⟨⟨h2, h3⟩, h4⟩, h5⟩ := hm
      exact ⟨h1, h2, h3, h4, h5, mem_addNew.2 (.inl rfl), mem_addNew.2 (.inl rfl)⟩
    · split
      · obtain ⟨h1, h2, h3, h4, h5, h6, h7⟩ := hw
        exact ⟨h1, h2, h3, h4, h5, mem_addNew.2 (.inr h6), mem_addNew.2 (.inr h7)⟩
      · exact hw
  · exact ⟨⟨_, List.mem_append_right _ (List.mem_singleton_self _), rfl, rfl, rfl, rfl, rfl, List.mem_singleton_self _, List.mem_singleton_self _⟩,
      fun c v x n ⟨q, hq, hw⟩ => ⟨q, List.mem_append_left _ hq, hw⟩⟩
theorem foldl_joinWalk (k core w : Nat) (ctx : W32) (ns : List Nat) (l : List Walk) :
    (∀ n ∈ ns, ∃ r ∈ ns.foldl (fun l n => joinWalk l k core w ctx n) l, WalkIs r k core w ctx n) ∧
    ∀ c v x n, (∃ r ∈ l, WalkIs r k c v x n) → ∃ r ∈ ns.foldl (fun l n => joinWalk l k core w ctx n) l, WalkIs r k c v x n := by
  induction ns generalizing l with
  | nil => exact ⟨fun n h => absurd h List.not_mem_nil, fun _ _ _ _ h => h⟩
  | cons a ns ih =>
    obtain ⟨h1, h2⟩ := joinWalk_walks l k core w ctx a
    obtain ⟨h3, h4⟩ := ih (joinWalk l k core w ctx a)
    refine ⟨fun n hn => ?_, fun c v x n h => h4 c v x n (h2 c v x n h)⟩
    rcases List.mem_cons.1 hn with rfl | hn
    · exact h4 core w ctx n h1
    · exact h3 n hn
theorem missed_walkFor {vas : List W64} {va : W64} (hv : va ∈ vas) (hm : Misses s va) : WalkFor s (s.missed .g vas) va :=
  (foldl_joinWalk s.curPkg s.curTroupe.core s.cur.wid s.curCtx (s.missing vas) s.walks).1 _ (mem_missing.2 ⟨va, hv, hm, rfl⟩)
theorem PathWaits.of_walks {i : Instr} {t : State} {ws : List Walk} (h : PathWaits i { s with walks := ws } t) : PathWaits i s t := ⟨h.waves, h.rest, h.lanes⟩
/-- The path waits for the walks of its pages. -/
theorem waitAt_missed (i : Instr) (sp : Space) (vas : List W64) (hg : sp = .g) : WaitsForWalks i s (waitAt (s.missed sp vas) i) vas := by
  subst hg
  have hw : ∀ va ∈ vas, Misses s va → WalkFor s (waitAt (s.missed .g vas) i) va := fun va hv hm => missed_walkFor hv hm
  have hf := missed_frame (s := s) .g vas
  generalize s.missed .g vas = u at hf hw ⊢
  obtain ⟨h1, h2⟩ := waitAt_waits u i
  rw [hf] at h1 h2 hw ⊢
  exact ⟨h1, h2.of_walks, hw⟩
theorem waitAt_walks {i : Instr} {sp : Space} {vas : List W64} (h : s.walkWait sp vas = true) : WaitsForWalks i s (waitAt (s.missed sp vas) i) vas := by
  refine waitAt_missed i sp vas ?_
  unfold State.walkWait at h
  rw [Bool.and_eq_true, beq_iff_eq] at h
  exact h.1
/-- The path waits, with no walk to ask for. -/
theorem waitAt_plain {i : Instr} {sp : Space} {vas : List W64} (h : s.walkWait sp vas = false) : Waits i s (waitAt (s.missed sp vas) i) := by
  rw [missed_of_walkWait h]
  exact waitAt_waits s i

/-! ### Translations that are used (R274) -/

theorem fillTlb_frame (k core : Nat) (ctx : W32) (va : W64) : s.fillTlb k core ctx va = { s with pkgs := (s.fillTlb k core ctx va).pkgs } := by
  unfold State.fillTlb
  split
  · rfl
  · split <;> rfl
theorem fillTlb_caches (s : State) (k core : Nat) (ctx : W32) (va : W64) (j : Nat) :
    (s.fillTlb k core ctx va).pkg j = { s.pkg j with cores := ((s.fillTlb k core ctx va).pkg j).cores, tlb2 := ((s.fillTlb k core ctx va).pkg j).tlb2 } ∧
    ∀ c, (s.fillTlb k core ctx va).core j c = { s.core j c with tlb := ((s.fillTlb k core ctx va).core j c).tlb } := by
  unfold State.fillTlb
  split
  · exact ⟨rfl, fun _ => rfl⟩
  · split
    · exact ⟨rfl, fun _ => rfl⟩
    · next e _ _ =>
      unfold State.core
      rw [State.pkg_modPkg]
      split
      · next hj =>
        subst hj
        have hc : ∀ (p : Pkg) v c, (p.setCore core { p.core core with tlb := v }).core c = { p.core c with tlb := ((p.setCore core { p.core core with tlb := v }).core c).tlb } := by
          intro p v c
          rw [Pkg.core_setCore]
          split
          · next h => rw [h]
          · rfl
        dsimp only
        by_cases h1 : ((s.pkg j).core core).tlb.any (fun x => x.hits ctx va) = true
        · rw [if_pos h1]
          split <;> exact ⟨rfl, fun _ => rfl⟩
        · rw [if_neg h1]
          split <;> exact ⟨rfl, hc _ _⟩
      · exact ⟨rfl, fun _ => rfl⟩
end
/-- Translations have entered the caches, and nothing else has changed. -/
structure TlbsFilled (s t : State) : Prop where
  frame : t = { s with pkgs := t.pkgs }
  pkg : ∀ k, t.pkg k = { s.pkg k with cores := (t.pkg k).cores, tlb2 := (t.pkg k).tlb2 }
  core : ∀ k c, t.core k c = { s.core k c with tlb := (t.core k c).tlb }
theorem TlbsFilled.refl (s : State) : TlbsFilled s s := ⟨rfl, fun _ => rfl, fun _ _ => rfl⟩
theorem TlbsFilled.trans {s t u : State} (h1 : TlbsFilled s t) (h2 : TlbsFilled t u) : TlbsFilled s u :=
  ⟨by rw [h2.frame, h1.frame], fun k => by rw [h2.pkg, h1.pkg], fun k c => by rw [h2.core, h1.core]⟩
theorem fillTlbs_filled (s : State) (k core : Nat) (ctx : W32) (vas : List W64) : TlbsFilled s (s.fillTlbs k core ctx vas) := by
  unfold State.fillTlbs
  induction vas generalizing s with
  | nil => exact .refl s
  | cons v vas ih =>
    exact TlbsFilled.trans ⟨fillTlb_frame .., fun j => (fillTlb_caches s k core ctx v j).1, fun j => (fillTlb_caches s k core ctx v j).2⟩ (ih _)
/-- Answers have been used, and nothing else of the walks has changed. -/
theorem usedWalks_only (l : List Walk) (w : Nat) (ps : List Nat) : ∀ r ∈ usedWalks l w ps, ∃ q ∈ l, r = { q with wids := r.wids } ∧ (q.done = false → r = q) := by
  intro r hr
  obtain ⟨q, hq, rfl⟩ := List.mem_map.1 (List.mem_filter.1 hr).1
  refine ⟨q, hq, ?_, fun hd => ?_⟩
  · split <;> rfl
  · rw [hd]
    rfl
/-- The state in which an access has used its translations. -/
structure Translated (s t : State) : Prop where
  frame : t = { s with pkgs := t.pkgs, walks := t.walks }
  pkg : ∀ k, t.pkg k = { s.pkg k with cores := (t.pkg k).cores, tlb2 := (t.pkg k).tlb2 }
  core : ∀ k c, t.core k c = { s.core k c with tlb := (t.core k c).tlb }
  walks : ∀ r ∈ t.walks, ∃ q ∈ s.walks, r = { q with wids := r.wids } ∧ (q.done = false → r = q)
theorem walked_translated (s : State) (sp : Space) (vas : List W64) : Translated s (s.walked sp vas) := by
  unfold State.walked
  split
  · have h := fillTlbs_filled s s.curPkg s.curTroupe.core s.curCtx vas
    dsimp only
    generalize s.fillTlbs s.curPkg s.curTroupe.core s.curCtx vas = u at h
    exact ⟨by rw [h.frame], h.pkg, h.core, usedWalks_only _ _ _⟩
  · exact ⟨rfl, fun _ => rfl, fun _ _ => rfl, fun r hr => ⟨r, hr, rfl, fun _ => rfl⟩⟩
section
variable {s t : State}
theorem Translated.cachesOnly (h : Translated s t) : CachesOnly s t := by
  refine ⟨fun k => ⟨h.pkg k, fun c => ?_⟩, h.walks⟩
  have hl : (t.core k c).lines = (s.core k c).lines := by
    rw [h.core]
  rw [hl]
  exact h.core k c
theorem Translated.waves (h : Translated s t) : t.waves = s.waves := by rw [h.frame]
theorem Translated.cur (h : Translated s t) : t.cur = s.cur := by rw [h.frame]
theorem Translated.mem (h : Translated s t) : t.mem = s.mem := by rw [h.frame]
theorem Translated.writes (h : Translated s t) : t.writes = s.writes := by rw [h.frame]
theorem Translated.troupes (h : Translated s t) : t.troupes = s.troupes := by rw [h.frame]
theorem Translated.nextId (h : Translated s t) : t.nextId = s.nextId := by rw [h.frame]
end
theorem CachesOnly.trans {s t u : State} (h1 : CachesOnly s t) (h2 : CachesOnly t u) : CachesOnly s u := by
  refine ⟨fun k => ⟨?_, fun c => ?_⟩, fun r hr => ?_⟩
  · rw [(h2.1 k).1, (h1.1 k).1]
  · rw [(h2.1 k).2, (h1.1 k).2]
  · obtain ⟨q, hq, e1, e2⟩ := h2.2 r hr
    obtain ⟨p, hp, e3, e4⟩ := h1.2 q hq
    refine ⟨p, hp, by rw [e1, e3], fun hd => ?_⟩
    have hqp := e4 hd
    subst hqp
    exact e2 hd
theorem leBytes_mod (n x : Nat) : leBytes n (x % 256 ^ n) = leBytes n x := by
  induction n generalizing x with
  | zero => rfl
  | succ n ih =>
    unfold leBytes
    have h1 : BitVec.ofNat 8 (x % 256 ^ (n + 1)) = BitVec.ofNat 8 x :=
      BitVec.eq_of_toNat_eq (by rw [BitVec.toNat_ofNat, BitVec.toNat_ofNat]; exact Nat.mod_mod_of_dvd _ (Dvd.intro_left _ rfl))
    rw [h1, Nat.pow_succ', Nat.mod_mul_right_div_self, ih]
/-- One step on memory with nothing in flight about it changes memory alone. -/
theorem update_memoryOnly {s : State} {a n : Nat} (h : NoneAbout s a n) (f : W64 → W64) (rel : Option (Nat × Nat)) : MemoryOnly s (s.update a n f rel).2 := by
  unfold State.update
  dsimp only
  rw [settleRange_of_none h]
  have hm := store_memoryOnly s a (leBytes n (f (BitVec.ofNat 64 (leNat (s.load a n)))).toNat)
  split
  · exact hm
  · exact hm.trans ⟨rfl, fun _ => rfl⟩
section
variable {s t : State} (h : Translated s t)
include h
theorem Translated.noneAbout {a n : Nat} (hn : NoneAbout s a n) : NoneAbout t a n := by
  unfold NoneAbout
  rw [h.writes]
  exact hn
theorem Translated.numberAt (a n : Nat) : numberAt t a n = numberAt s a n := by
  unfold Sys2Proof.numberAt
  rw [h.mem]
theorem Translated.takes {u : State} {a n v : Nat} (ht : MemoryTakes t u a n v) : MemoryTakes s u a n v := ⟨ht.1, fun b hb => by rw [ht.2 b hb, h.mem]⟩
end
/-- What a lane sees where no write is in flight is what memory holds. -/
theorem laneView_of_none {s : State} (h : s.writes = []) (v : Viewer) (a n : Nat) : s.laneView v a n = memGets s.mem a n := by
  unfold State.laneView State.ownView State.coreView
  rw [h]
  rfl

end Sys2Proof
end

