-- ==== Sys2Proof/Proofs/EventsAndWaits.lean ====
section
/-! SUPPORT. The ends of waits (R206, R344) and event words (R234). -/

namespace Sys2Proof

open Machine

/-! ### The ends of waits -/

/-- A wait that may be taken up by itself is found to be one. -/
theorem waitWhole_of_whole {s : State} {w : Nat} {r : WaitRec} (h : Whole s w r) : (s.wave w).waitWhole r = true := by
  obtain ⟨_, pc, ⟨e, he, hlow, rfl⟩, hl⟩ := h
  have h1 : lowLane r.lanes = some e := by
    have he' : e ∈ lanesOf r.lanes := (mem_lanesOf _ _).2 he
    have hs : (lanesOf r.lanes).Pairwise (· < ·) := List.pairwise_lt_range.filter _
    unfold lowLane
    cases hx : lanesOf r.lanes with
    | nil => rw [hx] at he'; exact absurd he' List.not_mem_nil
    | cons a as =>
      rw [hx] at he' hs
      rcases List.mem_cons.1 he' with rfl | h
      · rfl
      · have ha : r.lanes.getLsbD a = true := (mem_lanesOf _ _).1 (hx ▸ List.mem_cons_self)
        have hb := hlow a (List.rel_of_pairwise_cons hs h)
        rw [ha] at hb
        exact absurd hb (by decide)
  unfold Wave.waitWhole
  rw [h1, Option.getD_some, beq_iff_eq]
  refine BitVec.eq_of_getLsbD_eq fun l hlt => ?_
  rw [Bool.eq_iff_iff, hl l hlt]
  unfold Wave.atPc
  rw [getLsbD_lanesWhere, Bool.and_eq_true, beq_iff_eq, beq_iff_eq]
  exact (and_iff_right hlt).symm
/-- An event that retries a wait ends the waits that it takes. -/
theorem retry_endsWaits {i : Instr} {s : State} {w : Nat} {takes : Instr → Bool} {f : Instr → Option (State → Out)} (he : exec i s = retry s w f)
    (hf : ∀ j, takes j = (f j).isSome) (hgo : ∀ j go u, f j = some go → go u = exec j u) : EndsWaits i s w takes := by
  have skip : ∀ r : WaitRec, r.grouped = true ∨ takes r.instr = false → (!r.grouped && (s.wave w).waitWhole r && (f r.instr).isSome) = false := by
    rintro r (h | h)
    · rw [h]
      rfl
    · rw [← hf, h, Bool.and_false]
  refine ⟨fun h => ?_, fun pre r post hw hpre hr ht => ?_⟩
  · rw [he, retry, List.find?_eq_none.2 fun r hr => by rw [skip r (h r hr)]; decide]
  · obtain ⟨t, hx⟩ := everyStepGoesOn.1 r.instr (s.resumeCur w r)
    obtain ⟨go, hg⟩ := Option.isSome_iff_exists.1 ((hf r.instr).symm.trans ht)
    have hfind : (s.wave w).waits.find? (fun r => !r.grouped && (s.wave w).waitWhole r && (f r.instr).isSome) = some r := by
      rw [hw, List.find?_append, List.find?_eq_none.2 fun x hx => by rw [skip x (hpre x hx)]; decide, Option.none_or]
      exact List.find?_cons_of_pos (by rw [waitWhole_of_whole hr, hr.1, hg]; rfl)
    refine ⟨t, ?_, hx⟩
    rw [he, retry, hfind]
    dsimp only
    rw [hg]
    dsimp only
    rw [hgo _ _ _ hg, hx]
theorem endsOfWaits : Claims.EndsOfWaits := by
  intro s w
  refine ⟨retry_endsWaits (show _ = execQueuePushDone w s from rfl) ?_ ?_, retry_endsWaits (show _ = execQueuePopDone w s from rfl) ?_ ?_,
    retry_endsWaits (show _ = execOwnTakeDone w s from rfl) ?_ ?_, retry_endsWaits (show _ = execRingWaitDone w s from rfl) ?_ ?_,
    retry_endsWaits (show _ = execEvtWaitRecheck w s from rfl) ?_ ?_, retry_endsWaits (show _ = execObRelDone w s from rfl) ?_ ?_,
    retry_endsWaits (show _ = execCommandAccept w s from rfl) ?_ ?_⟩
  case refine_1 | refine_3 | refine_5 | refine_7 | refine_9 | refine_11 | refine_13 =>
    intro j
    cases j <;> rfl
  all_goals
    intro j go u h
    split at h <;> cases h <;> rfl

/-! ### Event words -/

section
variable {s : State} {m : Mods} {a : Reg} {e : Nat} (he : Elected s m e)
include he
theorem evtSig_ok {p : Place} (hp : s.evtKey .red (bd (s.block e a 3) 0) = .ok p) : exec (.evtSig m a) s = .next
    (if (s.walkWait .g [bd (s.block e a 3) 0] || s.relWait .pkg || s.ownStore e (checkedKey (.ok p)) 8 || s.ownBehind e (checkedKey (.ok p)) 8) = true then
      waitAt (s.missed .g [bd (s.block e a 3) 0]) (.evtSig m a)
    else finish ((s.walked .g [bd (s.block e a 3) 0]).addEvent (checkedKey (.ok p)) ((bw (s.block e a 3) 2).setWidth 64)) []) := by
  refine Eq.trans (show _ = execEvtSig m a s from rfl) ?_
  unfold execEvtSig
  rw [elected_eq he]
  dsimp only
  rw [hp]
  dsimp only
  split <;> rfl
theorem evtWt_ok {p : Place} (hp : s.evtKey .load (bd (s.block e a 4) 0) = .ok p) : exec (.evtWt m a) s = .next
    (if (s.walkWait .g [bd (s.block e a 4) 0] || s.ownBehind e (checkedKey (.ok p)) 8 ||
        leNat (s.laneView (s.viewer s.cur.wid e) (checkedKey (.ok p)) 8) < (bd (s.block e a 4) 2).toNat) = true then
      waitAt (s.missed .g [bd (s.block e a 4) 0]) (.evtWt m a)
    else finish (((s.walked .g [bd (s.block e a 4) 0]).acquireLines .pkg).observe s.cur.wid .pkg
      (s.relsAt s.curPkg s.curTroupe.core (checkedKey (.ok p)) 8)) []) := by
  refine Eq.trans (show _ = execEvtWt m a s from rfl) ?_
  unfold execEvtWt
  rw [elected_eq he]
  dsimp only
  rw [hp]
  dsimp only
  split <;> rfl
theorem evtSig_faults {c : Cause} {sub : Byte} (hp : s.evtKey .red (bd (s.block e a 3) 0) = .bad c sub) :
    exec (.evtSig m a) s = .next (faultElected s m c sub (bd (s.block e a 3) 0)) := by
  refine Eq.trans (show _ = execEvtSig m a s from rfl) ?_
  unfold execEvtSig
  rw [elected_eq he]
  dsimp only
  rw [hp]
theorem evtWt_faults {c : Cause} {sub : Byte} (hp : s.evtKey .load (bd (s.block e a 4) 0) = .bad c sub) :
    exec (.evtWt m a) s = .next (faultElected s m c sub (bd (s.block e a 4) 0)) := by
  refine Eq.trans (show _ = execEvtWt m a s from rfl) ?_
  unfold execEvtWt
  rw [elected_eq he]
  dsimp only
  rw [hp]
end
/-- The count is added to the word, and the path goes on. -/
theorem addEvent_finish {s t : State} (h : Translated s t) {key : Nat} (hn : NoneAbout s key 8) (n : W32) :
    GoesOn s (finish (t.addEvent key (n.setWidth 64)) []) ∧
    MemoryTakes s (finish (t.addEvent key (n.setWidth 64)) []) key 8 (numberAt s key 8 + n.toNat) := by
  obtain ⟨_, hu⟩ := update_of_none (h.noneAbout hn) (fun x => x + n.setWidth 64) none
  have hm := update_memoryOnly (h.noneAbout hn) (fun x => x + n.setWidth 64) none
  refine ⟨finish_goesOn_of (hm.waves.trans h.waves) (hm.cur.trans h.cur), ?_⟩
  have hval : (BitVec.ofNat 64 (numberAt t key 8) + n.setWidth 64).toNat = (numberAt s key 8 + n.toNat) % 256 ^ 8 := by
    rw [h.numberAt, BitVec.toNat_add, BitVec.toNat_ofNat, BitVec.toNat_setWidth, Nat.mod_eq_of_lt (b := 2 ^ 64) (a := n.toNat) (by omega)]
    omega
  rw [hval] at hu
  obtain ⟨h1, h2⟩ := h.takes hu
  rw [leBytes_mod] at h1
  exact ⟨by rw [mem_finish]; exact h1, fun b hb => by rw [mem_finish]; exact h2 b hb⟩
/-- The path goes on with the word's releases before it and no line of its core kept (R196, R234). -/
theorem observe_finish {s t : State} (h : Translated s t) (rels : List (Nat × Nat)) :
    let u := finish ((t.acquireLines .pkg).observe s.cur.wid .pkg rels) []
    u = { s with waves := u.waves, pkgs := u.pkgs, walks := u.walks } ∧ CachesOnly s u ∧ (u.core s.curPkg s.curTroupe.core).lines = [] ∧
      ∃ hold, WaveBecomes s u (fun v => { v with relHold := v.relHold ++ hold }) (fun l x => goOn s l x) := by
  have hcur : t.curPkg = s.curPkg ∧ t.curTroupe = s.curTroupe := by
    unfold State.curPkg State.curTroupe State.curTid State.curWave State.wave State.troupe
    rw [h.waves, h.cur, h.troupes]
    exact ⟨rfl, rfl⟩
  have hlines : ((t.acquireLines .pkg).core s.curPkg s.curTroupe.core).lines = [] := by
    rw [← hcur.1, ← hcur.2]
    exact lines_emptyLines ..
  have hcache := h.cachesOnly.trans (acquireLines_cachesOnly t .pkg)
  have hframe : t.acquireLines .pkg = { s with pkgs := (t.acquireLines .pkg).pkgs, walks := t.walks } :=
    (acquireLines_frame t .pkg).trans (by rw [h.frame])
  generalize t.acquireLines .pkg = u at hlines hcache hframe
  have hwalks : u.walks = t.walks := by rw [hframe]
  rw [← hwalks] at hframe
  have hb : WaveBecomes s (u.observe s.cur.wid .pkg rels) (fun v => { v with relHold := v.relHold ++ rels.map (fun r => (r.1, r.2, Scope.pkg)) }) (fun _ x => x) := by
    have hw := modWave_waveBecomes u (fun v => { v with relHold := v.relHold ++ rels.map (fun r => (r.1, r.2, Scope.pkg)) }) (fun _ => rfl)
    rw [hframe] at hw ⊢
    exact ⟨hw.waves, hw.rest, hw.lanes⟩
  have hc : (u.observe s.cur.wid .pkg rels).cur = s.cur := Eq.trans (show _ = u.cur from rfl) (by rw [hframe])
  refine ⟨?_, ⟨fun k => ?_, ?_⟩, ?_, _, hb.finish hc⟩
  · rw [finish_nil]
    exact Eq.trans (b := { u with waves := ((u.observe s.cur.wid .pkg rels).advance []).waves }) rfl
      (Eq.trans (congrArg (fun x : State => { x with waves := ((u.observe s.cur.wid .pkg rels).advance []).waves }) hframe) rfl)
  · rw [finish_nil]
    exact hcache.1 k
  · rw [finish_nil]
    exact hcache.2
  · rw [core_advance]
    exact hlines
theorem eventWords : Claims.EventWords := by
  intro s m a e he va vw want
  refine ⟨fun key c hp hw hr ho hb hn => ?_, fun key c hp hw hs hb => ⟨fun hv => ?_, fun hv => ?_⟩, fun p hp hw => ?_, fun p hp hw => ?_, fun ha c sub => ⟨fun hp => ?_, fun hp => ?_⟩⟩
  · refine ⟨_, evtSig_ok he hp, ?_⟩
    rw [hw, hr, show s.ownStore e (checkedKey (.ok (.at_ key c))) 8 = false from ho, show s.ownBehind e (checkedKey (.ok (.at_ key c))) 8 = false from hb]
    exact addEvent_finish (walked_translated ..) hn _
  · refine ⟨_, evtWt_ok he hp, ?_⟩
    rw [laneView_of_none hs, hw, show s.ownBehind e (checkedKey (.ok (.at_ key c))) 8 = false from hb,
      show leNat (memGets s.mem (checkedKey (.ok (.at_ key c))) 8) = numberAt s key 8 from rfl, decide_eq_false (Nat.not_lt.2 hv)]
    exact observe_finish (walked_translated ..) _
  · refine ⟨_, evtWt_ok he hp, ?_⟩
    rw [laneView_of_none hs, show leNat (memGets s.mem (checkedKey (.ok (.at_ key c))) 8) = numberAt s key 8 from rfl, decide_eq_true hv, Bool.or_true, if_pos rfl]
    exact waitAt_plain hw
  · refine ⟨_, evtSig_ok he hp, ?_⟩
    rw [hw, Bool.true_or, Bool.true_or, Bool.true_or, if_pos rfl]
    exact waitAt_walks hw
  · refine ⟨_, evtWt_ok he hp, ?_⟩
    rw [hw, Bool.true_or, Bool.true_or, if_pos rfl]
    exact waitAt_walks hw
  · exact ⟨_, evtSig_faults he hp, faultElected_access ha ⟨e, he.1⟩ ((evtKey_faults s _ _).fault hp)⟩
  · exact ⟨_, evtWt_faults he hp, faultElected_access ha ⟨e, he.1⟩ ((evtKey_faults s _ _).fault hp)⟩

/-- Settles O39: one lemma on `retry` for the ends of waits; the event words by what their checks answer. -/
theorem eventsAndWaits : Obligations.EventsAndWaits := ⟨endsOfWaits, eventWords⟩

end Sys2Proof
end

