-- ==== Sys2Proof/Proofs/LaneAccesses.lean ====
section
/-! SUPPORT. The accesses of the lanes of a path as their checks leave them (R177), line caches (R252), stops beside the caches. -/

namespace Sys2Proof

open Machine

/-! ### The lanes' accesses -/

theorem effAddr_eq (s : State) (l : Nat) (sp : Space) (a : Reg) (off : Int) : s.effAddr l sp a off = addrOf s sp a off l := by
  cases sp <;> rfl
/-- The address and the check of each active lane. -/
def laneAcc (s : State) (sp : Space) (kd : AccKind) (a : Reg) (off : Int) (n l : Nat) : LaneAcc :=
  ⟨l, addrOf s sp a off l, checkOf s sp kd n (addrOf s sp a off l)⟩
theorem laneAccs_eq (s : State) (m : Mods) (sp : Space) (kd : AccKind) (a : Reg) (off : Int) (n : Nat) :
    s.laneAccs m sp kd a off n = (s.activeLanes m).map (laneAcc s sp kd a off n) := by
  unfold State.laneAccs
  simp only [effAddr_eq]
  rfl
theorem laneAccs_vas (s : State) (m : Mods) (sp : Space) (kd : AccKind) (a : Reg) (off : Int) (n : Nat) :
    (s.laneAccs m sp kd a off n).map (fun x => x.va) = (s.activeLanes m).map (addrOf s sp a off) := by
  rw [laneAccs_eq, List.map_map]
  rfl
theorem laneAccs_of {s : State} {m : Mods} {sp : Space} {kd : AccKind} {a : Reg} {off : Int} {n : Nat} {x : Nat → Checked}
    (h : ∀ l, On s m l → checkOf s sp kd n (addrOf s sp a off l) = x l) :
    s.laneAccs m sp kd a off n = (s.activeLanes m).map (fun l => ⟨l, addrOf s sp a off l, x l⟩) := by
  rw [laneAccs_eq]
  refine List.map_congr_left fun l hl => ?_
  rw [laneAcc, h l (mem_activeLanes.1 hl)]
section
variable {s : State} {m : Mods} {sp : Space} {kd : AccKind} {a : Reg} {off : Int} {n : Nat}
/-- What the lists of an access are, where every active lane's bytes are on this package. -/
theorem acc_of_here {key : Nat → Nat} {c : Nat → Bool} (h : ∀ l, On s m l → checkOf s sp kd n (addrOf s sp a off l) = .ok (.at_ (key l) (c l))) :
    let xs := s.laneAccs m sp kd a off n
    accHere xs = (s.activeLanes m).map (fun l => (l, key l)) ∧ accFar xs = [] ∧ accStops s xs = [] ∧
      accLines xs = ((s.activeLanes m).filter c).map (fun l => (l, key l)) := by
  rw [laneAccs_of h]
  unfold accHere accFar accStops accLines
  simp only [List.filterMap_map, List.filterMap_eq_nil_iff]
  refine ⟨congrFun List.filterMap_eq_map _, fun _ _ => rfl, fun _ _ => rfl, ?_⟩
  rw [← List.filterMap_eq_map, List.filterMap_filter]
  refine List.filterMap_congr fun l _ => ?_
  dsimp only [Function.comp]
  cases c l <;> rfl
/-- What they are, where every active lane's checks fail. -/
theorem acc_of_faults {why : Nat → Cause} {sub : Nat → Byte} (h : ∀ l, On s m l → checkOf s sp kd n (addrOf s sp a off l) = .bad (why l) (sub l)) :
    let xs := s.laneAccs m sp kd a off n
    accHere xs = [] ∧ accFar xs = [] ∧ accStops s xs = (s.activeLanes m).map (fun l => s.stopRec l (why l) (sub l) (addrOf s sp a off l)) ∧ accLines xs = [] := by
  rw [laneAccs_of h]
  unfold accHere accFar accStops accLines
  simp only [List.filterMap_map, List.filterMap_eq_nil_iff]
  exact ⟨fun _ _ => rfl, fun _ _ => rfl, congrFun List.filterMap_eq_map _, fun _ _ => rfl⟩
end
/-- Nothing is sent where no lane's bytes are homed elsewhere. -/
theorem sendParts_nil (s : State) (kind : PKind) (base : Packet) (ent : Nat → BitVec 128 × W64) (tag : Option TagRec) : s.sendParts kind [] base ent tag = s := rfl
/-- The lane whose access is looked up. -/
theorem find_laneKey {ls : List Nat} (key : Nat → Nat) (l : Nat) :
    (ls.map (fun l => (l, key l))).find? (fun e => e.1 == l) = if l ∈ ls then some (l, key l) else none := by
  induction ls with
  | nil => rfl
  | cons a ls ih =>
    rw [List.map_cons]
    by_cases ha : a = l
    · subst ha
      rw [List.find?_cons_of_pos (by simp), if_pos List.mem_cons_self]
    · rw [List.find?_cons_of_neg (by simpa using ha), ih]
      simp only [List.mem_cons, Ne.symm ha, false_or]

/-! ### Line caches -/

/-- Only lines in line caches change. -/
structure LinesOnly (s t : State) : Prop where
  frame : t = { s with pkgs := t.pkgs }
  pkg : ∀ k, t.pkg k = { s.pkg k with cores := (t.pkg k).cores }
  core : ∀ k c, t.core k c = { s.core k c with lines := (t.core k c).lines }
theorem LinesOnly.refl (s : State) : LinesOnly s s := ⟨rfl, fun _ => rfl, fun _ _ => rfl⟩
theorem LinesOnly.trans {s t u : State} (h1 : LinesOnly s t) (h2 : LinesOnly t u) : LinesOnly s u :=
  ⟨by rw [h2.frame, h1.frame], fun k => by rw [h2.pkg, h1.pkg], fun k c => by rw [h2.core, h1.core]⟩
theorem LinesOnly.fold {α : Type} {f : State → α → State} (h : ∀ s x, LinesOnly s (f s x)) (l : List α) (s : State) : LinesOnly s (l.foldl f s) := by
  induction l generalizing s with
  | nil => exact .refl s
  | cons x l ih => exact (h s x).trans (ih _)
theorem modLines_only (s : State) (k c : Nat) (f : List Line → List Line) : LinesOnly s (s.modCore k c (fun x => { x with lines := f x.lines })) := by
  refine ⟨rfl, fun j => ?_, fun j d => ?_⟩
  · rw [State.pkg_modCore]
    split
    · next h => subst h; rfl
    · rfl
  · rw [State.core_modCore]
    split
    · next h => rw [h.1, h.2]
    · rfl
theorem LinesOnly.cachesOnly {s t : State} (h : LinesOnly s t) : CachesOnly s t := by
  refine ⟨fun k => ⟨?_, fun c => ?_⟩, fun r hr => ⟨r, by rw [h.frame] at hr; exact hr, rfl, fun _ => rfl⟩⟩
  · have hl : (t.pkg k).tlb2 = (s.pkg k).tlb2 := by rw [h.pkg]
    rw [hl]
    exact h.pkg k
  · have hl : (t.core k c).tlb = (s.core k c).tlb := by rw [h.core]
    rw [hl]
    exact h.core k c
theorem useLine_only (s : State) (k c a : Nat) : LinesOnly s (s.useLine k c a) := by
  unfold State.useLine
  exact modLines_only s k c (fun l => touchLine l (s.lineFor k c a))
/-- The bytes that a read past the line cache has seen, in the lines that hold them (R252). -/
def freshened (w : PWrite) (a n : Nat) (l : List Line) : List Line :=
  l.map (fun y => if overlaps (y.tag * 128) 128 a n then { y with bytes := overlayFrom w (y.tag * 128) y.bytes } else y)
theorem freshLine_eq (s : State) (k c a n : Nat) :
    s.freshLine k c a n = s.modCore k c (fun x => { x with lines := freshened ⟨0, 0, 0, c, k, a, s.coreView k c a n, 1, none⟩ a n x.lines }) := rfl
theorem freshLine_only (s : State) (k c a n : Nat) : LinesOnly s (s.freshLine k c a n) := by
  rw [freshLine_eq]
  generalize (⟨0, 0, 0, c, k, a, s.coreView k c a n, 1, none⟩ : PWrite) = w
  exact modLines_only s k c (freshened w a n)
theorem emptyLines_only (s : State) (k c : Nat) : LinesOnly s (s.emptyLines k c) := modLines_only s k c (fun _ => [])
theorem loadLines_only (s : State) (acq : Option Scope) (xs : List LaneAcc) (n : Nat) : LinesOnly s (s.loadLines acq xs n) := by
  cases acq with
  | none => exact LinesOnly.fold (fun s (e : Nat × Nat) => useLine_only s _ _ e.2) (accLines xs) s
  | some sc =>
    cases sc with
    | core => exact LinesOnly.fold (fun s (e : Nat × Nat) => freshLine_only s _ _ e.2 n) (accHere xs) s
    | clu => exact emptyLines_only ..
    | pkg => exact emptyLines_only ..
    | pod => exact emptyLines_only ..

/-! ### Stops beside the caches -/

/-- A state that differs from `s` in nothing that a stop reads or keeps. -/
structure StopsLike (s u : State) : Prop where
  others : ∀ w, w ≠ s.cur.wid → u.wave w = s.wave w
  sys : (u.wave s.cur.wid).sys = (s.wave s.cur.wid).sys
  lane : ∀ l, u.lane s.cur.wid l = s.lane s.cur.wid l
  cur : u.cur = s.cur
  kept : u.mem = s.mem ∧ u.writes = s.writes ∧ u.troupes = s.troupes ∧ u.corps = s.corps ∧ u.cycle = s.cycle
theorem StopsLike.of_becomes {s u : State} {g : Wave → Wave} (h : WaveBecomes s u g (fun _ x => x)) (hg : ∀ v, (g v).sys = v.sys) (hc : u.cur = s.cur)
    (hk : u.mem = s.mem ∧ u.writes = s.writes ∧ u.troupes = s.troupes ∧ u.corps = s.corps ∧ u.cycle = s.cycle) : StopsLike s u :=
  ⟨h.waves, by rw [h.rest]; exact hg _, fun l => by rw [h.lanes, ite_self], hc, hk⟩
section
variable {s u : State} (h : StopsLike s u)
include h
theorem StopsLike.activeLanes (m : Mods) : u.activeLanes m = s.activeLanes m := by
  unfold State.activeLanes
  rw [h.cur]
  simp only [h.lane]
theorem StopsLike.on (m : Mods) (l : Nat) : On u m l ↔ On s m l := by
  rw [← mem_activeLanes, h.activeLanes, mem_activeLanes]
theorem StopsLike.alone (ha : Alone s) : Alone u := by
  unfold Alone
  rw [h.cur, h.sys]
  exact ha
theorem StopsLike.standsAt (l : Nat) : standsAt u l = standsAt s l := by
  unfold Sys2Proof.standsAt
  rw [h.cur, h.lane]
theorem StopsLike.stopsAs {t : State} {who : Nat → Bool} {cause : Nat → W32} {va : Nat → W64}
    (hs : StopsAs u t who cause va (fun _ => u.cur.gpc) (fun _ => u.cur.gpc) (Sys2Proof.standsAt u)) :
    StopsAs s t who cause va (fun _ => s.cur.gpc) (fun _ => s.cur.gpc) (Sys2Proof.standsAt s) := by
  obtain ⟨h1, h2, h3, h4, h5, h6, h7, h8, h9, h10⟩ := hs
  obtain ⟨k1, k2, k3, k4, k5⟩ := h.kept
  have hst : Sys2Proof.standsAt u = Sys2Proof.standsAt s := funext h.standsAt
  simp only [h.cur, h.sys, h.lane, hst] at h1 h2 h3 h4 h9
  exact ⟨fun w hw => (h1 w hw).trans (h.others w hw), h2, h3, h4, h5.trans k1, h6.trans k2, h7.trans k3, h8.trans k4, h9, h10.trans k5⟩
/-- Each active lane stops with what its checks answer. -/
theorem StopsLike.faultsEach {m : Mods} (ha : Alone s) (hon : ∃ l, On s m l) {why : Nat → Cause} {sub : Nat → Byte} {va : Nat → W64}
    (hw : ∀ l, On s m l → AccessFault (why l) (sub l)) :
    ∃ who : Nat → Bool, (∀ l, who l = true ↔ On s m l) ∧
      StopsAs s (finish u ((s.activeLanes m).map (fun l => s.stopRec l (why l) (sub l) (va l)))) who
        (fun l => causeWord (why l).code.toNat (sub l).toNat 0) va (fun _ => s.cur.gpc) (fun _ => s.cur.gpc) (Sys2Proof.standsAt s) := by
  obtain ⟨who, h1, h2⟩ := finish_stopsEach (s := u) (m := m) (c := why) (sub := sub) (va := va) (h.alone ha) (hon.imp fun l => (h.on m l).2)
    fun l hl => ⟨(hw l ((h.on m l).1 hl)).2 .., (hw l ((h.on m l).1 hl)).1⟩
  have hr : ∀ l, u.stopRec l (why l) (sub l) (va l) = s.stopRec l (why l) (sub l) (va l) := fun l => by
    unfold State.stopRec
    rw [h.cur]
  simp only [h.activeLanes, hr] at h2
  exact ⟨who, fun l => (h1 l).trans (h.on m l), h.stopsAs h2⟩
end

end Sys2Proof
end

