-- ==== Sys2Proof/Proofs/Loads.lean ====
section
/-! SUPPORT. Loads, constants and prefetch (R175 to R186, R252). -/

namespace Sys2Proof

open Machine

/-! ### What a lane reads -/

theorem memType_bytes (ty : MemType) : MemType.bytes ty = bytesIn ty := by cases ty <;> rfl
theorem memType_words (ty : MemType) (d : Reg) : dstRegs d (MemType.words ty) = wordsIn ty d := by
  cases ty
  case b64 => exact dstRegs_two d
  case b128 => exact dstRegs_four d
  all_goals exact dstRegs_one d
theorem overlay_nil (a : Nat) (bs : List Byte) : overlay a bs [] = bs := rfl
theorem overlayFrom_length (w : PWrite) (a : Nat) (bs : List Byte) : (overlayFrom w a bs).length = bs.length := by
  induction bs generalizing a with
  | nil => rfl
  | cons b bs ih => rw [overlayFrom, List.length_cons, ih, List.length_cons]
theorem overlay_length (a : Nat) (bs : List Byte) (ws : List PWrite) : (overlay a bs ws).length = bs.length := by
  unfold overlay
  induction ws generalizing bs with
  | nil => rfl
  | cons w ws ih => rw [List.foldl_cons, ih, overlayFrom_length]
theorem readHere_length (s : State) (acq : Option Scope) (cached : Bool) (l a n : Nat) : (s.readHere acq cached l a n).length ≤ n := by
  unfold State.readHere
  dsimp only
  split
  · unfold State.cachedView State.ownView
    rw [overlay_length, List.length_take]
    exact Nat.min_le_left _ _
  · unfold State.laneView State.ownView State.coreView State.load
    rw [overlay_length, overlay_length, memGets_length]
theorem leNat_lt_of_length {bs : List Byte} {n : Nat} (h : bs.length ≤ n) : leNat bs < 256 ^ n :=
  lt_of_lt_of_le (leNat_lt bs) (Nat.pow_le_pow_right (by decide) h)
theorem signExtend_ofNat {n x : Nat} (hn : 0 < n) (hx : x < 2 ^ n) :
    (BitVec.ofNat n x).signExtend 32 = BitVec.ofInt 32 (if x < 2 ^ (n - 1) then x else (x : Int) - 2 ^ n) := by
  obtain ⟨k, rfl⟩ := Nat.exists_eq_succ_of_ne_zero hn.ne'
  have hp : (2 : Nat) ^ (k + 1) = 2 * 2 ^ k := Nat.pow_succ'
  refine congrArg (BitVec.ofInt 32) ?_
  rw [BitVec.toInt_eq_toNat_cond, BitVec.toNat_ofNat, Nat.mod_eq_of_lt hx, hp, Nat.succ_eq_add_one, Nat.add_sub_cancel]
  have hc : 2 * x < 2 * 2 ^ k ↔ x < 2 ^ k := by omega
  simp only [hc]
  split
  · rfl
  · push_cast
    ring
/-- The words of loaded bytes are what their number stands for. -/
theorem loadOuts_eq (ty : MemType) (d : Reg) {bs : List Byte} (h : bs.length ≤ bytesIn ty) : loadOuts ty d bs = loadedInto ty d (leNat bs) := by
  have hlt := leNat_lt_of_length h
  unfold loadOuts loadedInto
  dsimp only
  generalize leNat bs = x at hlt
  cases ty
  case b64 => exact outs64_eq ..
  case b128 => exact outs128_eq ..
  all_goals
    dsimp only [bytesIn] at hlt ⊢
    rw [outs32_eq]
  case z8 => rw [Nat.mod_eq_of_lt (by simpa using hlt)]
  case z16 => rw [Nat.mod_eq_of_lt (by simpa using hlt)]
  case s8 => rw [signExtend_ofNat (n := 8) (by decide) hlt]
  case s16 => rw [signExtend_ofNat (n := 16) (by decide) hlt]
theorem memGets_add (m : List Host.Cell) (a k r : Nat) : memGets m a (k + r) = memGets m a k ++ memGets m (a + k) r := by
  induction k generalizing a with
  | zero => rw [Nat.zero_add]; rfl
  | succ k ih =>
    rw [Nat.add_right_comm, memGets, ih, memGets, Nat.add_right_comm a 1 k]
    rfl
theorem memGets_slice (m : List Host.Cell) {a n k j : Nat} (h : k + j ≤ n) : ((memGets m a n).drop k).take j = memGets m (a + k) j := by
  obtain ⟨r, rfl⟩ := Nat.exists_eq_add_of_le h
  rw [Nat.add_assoc, memGets_add, List.drop_left' (memGets_length ..), memGets_add, List.take_left' (memGets_length ..)]
theorem overlaps_mono {a n b k c j : Nat} (h : overlaps a n b k = false) (h1 : b ≤ c) (h2 : c + j ≤ b + k) : overlaps a n c j = false := by
  unfold overlaps at h ⊢
  rw [Bool.and_eq_false_iff, decide_eq_false_iff_not, decide_eq_false_iff_not] at h ⊢
  omega
theorem filter_meets_nil {ws : List PWrite} {a n : Nat} (h : ∀ x ∈ ws, x.meets a n = false) (p : PWrite → Bool) : ws.filter (fun w => w.meets a n && p w) = [] :=
  List.filter_eq_nil_iff.2 fun x hx => by rw [h x hx]; exact Bool.false_ne_true
/-- What a core sees, where no write in flight is about the bytes, is what memory holds. -/
theorem coreView_mem {s : State} {a n : Nat} (h : ∀ x ∈ s.writes, x.meets a n = false) (k c : Nat) : s.coreView k c a n = memGets s.mem a n := by
  unfold State.coreView
  rw [filter_meets_nil h]
  rfl
theorem ownView_same {s : State} {a : Nat} {bs : List Byte} (h : ∀ x ∈ s.writes, x.meets a bs.length = false) (v : Viewer) : s.ownView v a bs = bs := by
  unfold State.ownView
  rw [filter_meets_nil h]
  rfl
/-- The bytes are those of memory, where no write in flight and no cached line holds others. -/
theorem readHere_mem {s : State} {acq : Option Scope} {cached : Bool} {l a n : Nat} (hw : ∀ x ∈ s.writes, x.meets (a / 128 * 128) 128 = false)
    (hn : n ∣ 128) (ha : a % n = 0)
    (hc : cached = true → acq = none → ∀ y ∈ (s.core s.curPkg s.curTroupe.core).lines, y.tag ≠ a / 128) :
    s.readHere acq cached l a n = memGets s.mem a n := by
  have hin : a % 128 + n ≤ 128 := by
    obtain ⟨q, rfl⟩ := Nat.dvd_of_mod_eq_zero ha
    obtain ⟨r, hr⟩ := hn
    have hm : n * q % (n * r) = n * (q % r) := Nat.mul_mod_mul_left ..
    have hr0 : 0 < r := Nat.pos_of_ne_zero fun h => by rw [h, Nat.mul_zero] at hr; exact absurd hr (by decide)
    have := Nat.mul_le_mul_left n (Nat.succ_le_of_lt (Nat.mod_lt q hr0))
    rw [hr, hm]
    exact (Nat.mul_succ ..).symm.trans_le this
  have hsub : a / 128 * 128 + a % 128 = a := Nat.div_add_mod' a 128
  have hmeet : ∀ x ∈ s.writes, x.meets a n = false := fun x hx => overlaps_mono (hw x hx) (by omega) (by omega)
  unfold State.readHere
  dsimp only
  split
  · next h =>
    rw [Bool.and_eq_true, Option.isNone_iff_eq_none] at h
    have hfind : (s.core s.curPkg s.curTroupe.core).lines.find? (fun y => y.tag == lineOf a) = none :=
      List.find?_eq_none.2 fun y hy => by rw [beq_iff_eq]; exact hc h.1 h.2 y hy
    have hline : ((s.lineFor s.curPkg s.curTroupe.core a).bytes.drop (a % 128)).take n = memGets s.mem a n := by
      unfold State.lineFor
      rw [hfind]
      dsimp only [lineOf]
      rw [coreView_mem hw, memGets_slice _ hin, hsub]
    unfold State.cachedView
    refine Eq.trans (congrArg (s.ownView _ a) hline) (ownView_same ?_ _)
    rwa [memGets_length]
  · unfold State.laneView
    rw [coreView_mem hmeet]
    refine ownView_same ?_ _
    rwa [memGets_length]

/-! ### Loads -/

/-- A state before results are sent: translations and lines have been used, and a number taken. -/
structure CachesUsed (s u : State) : Prop where
  frame : u = { s with pkgs := u.pkgs, walks := u.walks, nextId := s.nextId + 1 }
  caches : CachesOnly s u
theorem loadLines_used (s : State) (sp : Space) (vas : List W64) (acq : Option Scope) (xs : List LaneAcc) (n : Nat) :
    CachesUsed s (({ s with nextId := s.nextId + 1 }.walked sp vas).loadLines acq xs n) := by
  have h1 := walked_translated { s with nextId := s.nextId + 1 } sp vas
  have h2 := loadLines_only ({ s with nextId := s.nextId + 1 }.walked sp vas) acq xs n
  generalize ({ s with nextId := s.nextId + 1 }.walked sp vas).loadLines acq xs n = u at h2
  have hw : u.walks = ({ s with nextId := s.nextId + 1 }.walked sp vas).walks := by rw [h2.frame]
  have hc : CachesOnly { s with nextId := s.nextId + 1 } u := h1.cachesOnly.trans h2.cachesOnly
  refine ⟨?_, ⟨hc.1, hc.2⟩⟩
  have hf := h2.frame
  rw [h1.frame, ← hw] at hf
  exact hf
/-- What a load does with the releases that it has seen. -/
def observing (s : State) (w : Nat) (acq : Option Scope) (rels : List (Nat × Nat)) : State :=
  match acq with
  | some sc => s.observe w sc rels
  | none => s
theorem WaveBecomes.modWave {s t : State} {g k : Wave → Wave} {f : Nat → Lane → Lane} (h : WaveBecomes s t g f) (hk : ∀ v, (k v).lanes = v.lanes)
    (hr : ∀ v ls, k { v with lanes := ls } = { k v with lanes := ls }) :
    WaveBecomes s (t.modWave s.cur.wid k) (fun v => k (g v)) f := by
  have hl : ∀ l, (t.modWave s.cur.wid k).lane s.cur.wid l = t.lane s.cur.wid l := fun l => by
    unfold State.lane Wave.lane
    rw [State.wave_modWave_self, hk]
  refine ⟨fun w hw => by rw [State.wave_modWave, if_neg hw, h.waves w hw], ?_, fun l => by rw [hl, h.lanes]⟩
  rw [State.wave_modWave_self]
  refine (congrArg k h.rest).trans ?_
  rw [hr, hk]
theorem observing_becomes {s t : State} {f : Nat → Lane → Lane} (h : WaveBecomes s t id f) (acq : Option Scope) (rels : List (Nat × Nat)) :
    ∃ hold, (acq = none → hold = (s.wave s.cur.wid).relHold) ∧ WaveBecomes s (observing t s.cur.wid acq rels) (fun v => { v with relHold := hold }) f := by
  have same : WaveBecomes s t (fun v => { v with relHold := (s.wave s.cur.wid).relHold }) f := ⟨h.waves, h.rest, h.lanes⟩
  cases acq with
  | none => exact ⟨_, fun _ => rfl, same⟩
  | some sc =>
    unfold observing State.observe
    dsimp only
    split
    · exact ⟨_, fun h => (nomatch h), same⟩
    · have hm := h.modWave (k := fun v => { v with relHold := v.relHold ++ rels.map (fun r => (r.1, r.2, sc)) }) (fun _ => rfl) (fun _ _ => rfl)
      exact ⟨_, fun h => (nomatch h), ⟨hm.waves, hm.rest, hm.lanes⟩⟩
theorem observing_frame (t : State) (w : Nat) (acq : Option Scope) (rels : List (Nat × Nat)) :
    observing t w acq rels = { t with waves := (observing t w acq rels).waves } := by
  unfold observing State.observe
  split
  · split <;> rfl
  · rfl
/-- The state of a load that goes on, before the path does. -/
def loadDone (s : State) (m : Mods) (sp : Space) (ty : MemType) (acq : Option Scope) (a : Reg) (off : Int) (send : Nat → Lane → Lane) (rels : List (Nat × Nat)) : State :=
  observing ((({ s with nextId := s.nextId + 1 }.walked sp ((s.activeLanes m).map (addrOf s sp a off))).loadLines acq
    (s.laneAccs m sp .load a off (MemType.bytes ty)) (MemType.bytes ty)).updLanes s.cur.wid (lanesOf s.cur.lanes) send) s.cur.wid acq rels
section
variable {i : Instr} {s : State} {m : Mods} {sp : Space} {ty : MemType} {acq : Option Scope} {d a : Reg} {off : Int}
theorem loadGo_waits (h : s.walkWait sp ((s.activeLanes m).map (addrOf s sp a off)) = true) :
    WaitsForWalks i s (loadGo i s m sp ty acq d a off) ((s.activeLanes m).map (addrOf s sp a off)) := by
  unfold loadGo
  dsimp only
  rw [laneAccs_vas, h, Bool.true_or, Bool.true_or, Bool.true_or, Bool.true_or, if_pos rfl]
  exact waitAt_walks h
/-- What each lane of the path is sent by a load whose bytes are at `key`. -/
def loadSends (s : State) (m : Mods) (ty : MemType) (acq : Option Scope) (d : Reg) (key : Nat → Nat) (c : Nat → Bool) (l : Nat) (x : Lane) : Lane :=
  if m.active x then x.send none s.nextId (loadOuts ty d (s.readHere acq (c l) l (key l) (MemType.bytes ty)))
  else if m.zero then x.send none s.nextId (zeroOuts (dstRegs d (MemType.words ty))) else x
theorem loadGo_here {key : Nat → Nat} {c : Nat → Bool} (hw : s.walkWait sp ((s.activeLanes m).map (addrOf s sp a off)) = false)
    (h : ∀ l, On s m l → checkOf s sp .load (bytesIn ty) (addrOf s sp a off l) = .ok (.at_ (key l) (c l)) ∧ s.ownBehind l (key l) (bytesIn ty) = false ∧
      s.poisoned (key l) (bytesIn ty) = false ∧ ∀ x ∈ s.writes, x.wid = s.cur.wid → x.level = 0 → x.lane ≠ l → x.meets (key l) (bytesIn ty) = false) :
    ∃ rels send, loadGo i s m sp ty acq d a off = finish (loadDone s m sp ty acq a off send rels) [] ∧
      ∀ l, s.cur.lanes.getLsbD l = true → send l (s.lane s.cur.wid l) = loadSends s m ty acq d key c l (s.lane s.cur.wid l) := by
  rw [← memType_bytes] at h
  obtain ⟨h1, h2, h3, h4⟩ := acc_of_here fun l hl => (h l hl).1
  have hb : ((s.activeLanes m).map (fun l => (l, key l))).any (fun e => s.ownBehind e.1 e.2 (MemType.bytes ty)) = false := by
    simp only [List.any_map, List.any_eq_false, Function.comp, mem_activeLanes, Bool.not_eq_true]
    exact fun l hl => (h l hl).2.1
  have hs : s.splitRead ((s.activeLanes m).map (fun l => (l, key l))) (MemType.bytes ty) = false := by
    unfold State.splitRead
    simp only [List.any_eq_false, Bool.and_eq_true, beq_iff_eq, List.any_eq_true, List.mem_map, mem_activeLanes, bne_iff_ne]
    rintro x hx ⟨⟨⟨hl, hwid⟩, -⟩, _, ⟨l, hl', rfl⟩, hne, hm⟩
    rw [(h l hl').2.2.2 x hx hwid hl (Ne.symm hne)] at hm
    exact Bool.false_ne_true hm
  have hp : ((s.activeLanes m).map (fun l => (l, key l))).any (fun e => s.poisoned e.2 (MemType.bytes ty)) = false := by
    simp only [List.any_map, List.any_eq_false, Function.comp, mem_activeLanes, Bool.not_eq_true]
    exact fun l hl => (h l hl).2.2.1
  have hroom : s.partsRoom [] = true := rfl
  have hsteer : s.steerRoom (([] : List (Nat × Nat × W64)).map (fun e => e.1)) = true := rfl
  unfold loadGo
  dsimp only
  rw [laneAccs_vas, h1, h2, h3, h4, hw, hb, hs, hp, hroom, hsteer, if_neg (by decide), if_neg (by decide)]
  unfold loadDone observing
  refine ⟨_, _, rfl, fun l hl => ?_⟩
  rw [find_laneKey]
  unfold loadSends
  by_cases ha : m.active (s.lane s.cur.wid l) = true
  · rw [if_pos (mem_activeLanes.2 ⟨hl, ha⟩), if_pos ha]
    have hc : (((s.activeLanes m).filter c).map (fun l => (l, key l))).any (fun e => e.1 == l) = c l := by
      rw [Bool.eq_iff_iff]
      simp only [List.any_map, List.any_eq_true, Function.comp, List.mem_filter, mem_activeLanes, beq_iff_eq]
      exact ⟨fun ⟨_, ⟨_, hx⟩, hy⟩ => hy ▸ hx, fun hx => ⟨l, ⟨⟨hl, ha⟩, hx⟩, rfl⟩⟩
    rw [hc]
  · rw [if_neg (fun hx => ha (mem_activeLanes.1 hx).2), if_neg ha, Bool.eq_false_iff.2 ha]
    rfl
theorem loadGo_faults {why : Nat → Cause} {sub : Nat → Byte} (hw : s.walkWait sp ((s.activeLanes m).map (addrOf s sp a off)) = false) (hz : m.zero = false)
    (h : ∀ l, On s m l → checkOf s sp .load (bytesIn ty) (addrOf s sp a off l) = .bad (why l) (sub l)) :
    loadGo i s m sp ty acq d a off = finish (loadDone s m sp ty acq a off (fun _ x => x) [])
      ((s.activeLanes m).map (fun l => s.stopRec l (why l) (sub l) (addrOf s sp a off l))) := by
  rw [← memType_bytes] at h
  obtain ⟨h1, h2, h3, h4⟩ := acc_of_faults h
  have hroom : s.partsRoom [] = true := rfl
  have hsteer : s.steerRoom (([] : List (Nat × Nat × W64)).map (fun e => e.1)) = true := rfl
  have hsplit : s.splitRead [] (MemType.bytes ty) = false := List.any_eq_false.2 fun x _ => by simp
  unfold loadGo
  dsimp only
  rw [laneAccs_vas, h1, h2, h3, h4, hw, hsplit, hroom, hsteer, List.any_nil, List.any_nil, if_neg (by decide), if_neg (by decide), hz]
  simp only [List.find?_nil, List.any_nil, Bool.and_false, Bool.false_eq_true, if_false]
  cases acq <;> rfl
end
theorem cachesOnly_congr {s t u : State} (h : CachesOnly s t) (hp : u.pkgs = t.pkgs) (hw : u.walks = t.walks) : CachesOnly s u :=
  h.trans (cachesOnly_of_same hp hw)
section
variable (s : State) (m : Mods) (sp : Space) (ty : MemType) (acq : Option Scope) (a : Reg) (off : Int) (send : Nat → Lane → Lane) (rels : List (Nat × Nat))
theorem loadDone_used : ∃ u, CachesUsed s u ∧ loadDone s m sp ty acq a off send rels = { u with waves := (loadDone s m sp ty acq a off send rels).waves } ∧
    ∃ hold, (acq = none → hold = (s.wave s.cur.wid).relHold) ∧
      WaveBecomes s (loadDone s m sp ty acq a off send rels) (fun v => { v with relHold := hold }) send := by
  unfold loadDone
  have hu := loadLines_used s sp ((s.activeLanes m).map (addrOf s sp a off)) acq (s.laneAccs m sp .load a off (MemType.bytes ty)) (MemType.bytes ty)
  generalize State.loadLines _ acq _ _ = u at hu
  have hb : WaveBecomes s u id (fun _ x => x) := (waveBecomes_refl s).of_waves (by rw [hu.frame])
  exact ⟨u, hu, observing_frame _ _ acq rels, observing_becomes (hb.updPath send) acq rels⟩
end
section
variable {i : Instr} {s : State} {m : Mods} {sp : Space} {ty : MemType} {acq : Option Scope} {d a : Reg} {off : Int}
/-- A load whose bytes are on this package sends them to its lanes. -/
theorem loadGo_loads {key : Nat → Nat} {c : Nat → Bool} (hw : s.walkWait sp ((s.activeLanes m).map (addrOf s sp a off)) = false)
    (h : ∀ l, On s m l → checkOf s sp .load (bytesIn ty) (addrOf s sp a off l) = .ok (.at_ (key l) (c l)) ∧ s.ownBehind l (key l) (bytesIn ty) = false ∧
      s.poisoned (key l) (bytesIn ty) = false ∧ ∀ x ∈ s.writes, x.wid = s.cur.wid → x.level = 0 → x.lane ≠ l → x.meets (key l) (bytesIn ty) = false) :
    let t := loadGo i s m sp ty acq d a off
    CachesOnly s t ∧ t = { s with waves := t.waves, pkgs := t.pkgs, walks := t.walks, nextId := s.nextId + 1 } ∧
      ∃ hold, (acq = none → hold = (s.wave s.cur.wid).relHold) ∧ WaveBecomes s t (fun v => { v with relHold := hold })
        (fun l x => goOn s l (sends s m none (wordsIn ty d) (fun l => loadedInto ty d (leNat (s.readHere acq (c l) l (key l) (bytesIn ty)))) (fun _ => 0) l x)) := by
  obtain ⟨rels, send, he, hsend⟩ := loadGo_here (i := i) (acq := acq) (d := d) hw h
  obtain ⟨u, hu, hf, hold, hh, hb⟩ := loadDone_used s m sp ty acq a off send rels
  rw [he, finish_nil]
  generalize loadDone s m sp ty acq a off send rels = t at hf hb
  have hcur : t.cur = s.cur := by rw [hf, hu.frame]
  refine ⟨?_, ?_, hold, hh, (hb.advance hcur).congr fun l hl => congrArg (goOn s l) ?_⟩
  · exact cachesOnly_congr hu.caches (show t.pkgs = _ by rw [hf]) (show t.walks = _ by rw [hf])
  · have hp : t.pkgs = u.pkgs := by rw [hf]
    have hwk : t.walks = u.walks := by rw [hf]
    have ht : t = { s with waves := t.waves, pkgs := t.pkgs, walks := t.walks, nextId := s.nextId + 1 } := by
      rw [hp, hwk]
      exact hf.trans (by rw [hu.frame])
    exact Eq.trans (b := { t with waves := (t.advance []).waves }) rfl
      (Eq.trans (congrArg (fun x : State => { x with waves := (t.advance []).waves }) ht) rfl)
  · rw [hsend l hl, ← memType_bytes, ← memType_words, ← send_eq_sends]
    unfold loadSends
    rw [loadOuts_eq ty d ((readHere_length ..).trans_eq (memType_bytes ty))]
theorem loadGo_stops {why : Nat → Cause} {sub : Nat → Byte} (hal : Alone s) (hon : ∃ l, On s m l)
    (hw : s.walkWait sp ((s.activeLanes m).map (addrOf s sp a off)) = false) (hz : m.zero = false)
    (h : ∀ l, On s m l → checkOf s sp .load (bytesIn ty) (addrOf s sp a off l) = .bad (why l) (sub l)) :
    ∃ who : Nat → Bool, (∀ l, who l = true ↔ On s m l) ∧ StopsAs s (loadGo i s m sp ty acq d a off) who
      (fun l => causeWord (why l).code.toNat (sub l).toNat 0) (addrOf s sp a off) (fun _ => s.cur.gpc) (fun _ => s.cur.gpc) (standsAt s) := by
  rw [loadGo_faults hw hz h]
  obtain ⟨u, hu, hf, hold, -, hb⟩ := loadDone_used s m sp ty acq a off (fun _ x => x) []
  generalize loadDone s m sp ty acq a off (fun _ x => x) [] = t at hf hb
  have hk : t.mem = s.mem ∧ t.writes = s.writes ∧ t.troupes = s.troupes ∧ t.corps = s.corps ∧ t.cycle = s.cycle := by
    rw [hf, hu.frame]
    exact ⟨rfl, rfl, rfl, rfl, rfl⟩
  have hcur : t.cur = s.cur := by rw [hf, hu.frame]
  exact (StopsLike.of_becomes hb (fun _ => rfl) hcur hk).faultsEach hal hon fun l hl => (check_faults ..).fault (h l hl)
end
theorem loads : Claims.Loads := by
  intro s m o sp ty r d a key c claim off
  have all : ∀ i sp ty acq off, exec i s = .next (loadGo i s m sp ty acq d a off) → claim i sp ty acq off := by
    intro i sp ty acq off hx
    refine ⟨fun hw h => ⟨fun l => s.readHere acq (c l) l (key l) (bytesIn ty), fun l _ => ⟨rfl, fun h1 h2 h3 => ?_⟩, _, hx, loadGo_loads hw h⟩,
      fun hw => ⟨_, hx, loadGo_waits hw⟩, fun hal hw hz hon why sub h => ?_⟩
    · exact readHere_mem h1 (by cases ty <;> decide) h2 h3
    · obtain ⟨who, h1, h2⟩ := loadGo_stops (i := i) (acq := acq) (d := d) hal hon hw hz h
      exact ⟨_, who, hx, h1, h2⟩
  exact ⟨all _ .g .b32 none (off 4) rfl, all _ .g .b64 none (off 8) rfl, all _ .g .b128 none (off 16) rfl, all _ .s .b32 none (off 4) rfl,
    all _ sp ty _ m.memOff rfl⟩

/-! ### Constants and prefetch -/

/-- The one active lane of a path. -/
theorem activeLanes_single {s : State} {m : Mods} {e : Nat} (h : ∀ l, On s m l ↔ l = e) : s.activeLanes m = [e] :=
  List.perm_singleton.1 ((List.perm_ext_iff_of_nodup (activeLanes_nodup s m) (List.nodup_singleton e)).2 fun l => by
    rw [mem_activeLanes, h, List.mem_singleton])
/-- The line of an access is in the cache behind it. -/
theorem useLine_holds (s : State) (k c a : Nat) : ∃ y ∈ ((s.useLine k c a).core k c).lines, y.tag = a / 128 := by
  have htag : (s.lineFor k c a).tag = a / 128 := by
    unfold State.lineFor
    split
    · next y h =>
      have hy : (y.tag == lineOf a) = true := List.find?_some (p := fun (y : Line) => y.tag == lineOf a) h
      exact beq_iff_eq.1 hy
    · rfl
  refine ⟨s.lineFor k c a, ?_, htag⟩
  unfold State.useLine
  rw [State.core_modCore, if_pos ⟨rfl, rfl⟩]
  exact List.mem_append_right _ (List.mem_singleton_self _)
theorem prefG_eq (s : State) (m : Mods) (a : Reg) : exec (.prefG m a) s = .next (finish (s.loadLines none (s.laneAccs m .g .load a m.memOff 1) 1) []) := rfl
theorem prefetch (s : State) (m : Mods) (a : Reg) : After (.prefG m a) s (fun t => CachesOnly s t ∧ t = { s with waves := t.waves, pkgs := t.pkgs } ∧ GoesOn s t ∧
    ∀ e key, (∀ l, On s m l ↔ l = e) → checkOf s .g .load 1 (addrOf s .g a m.memOff e) = .ok (.at_ key true) →
      ∃ y ∈ (t.core s.curPkg s.curTroupe.core).lines, y.tag = key / 128) := by
  refine ⟨_, prefG_eq s m a, ?_⟩
  have hl := loadLines_only s none (s.laneAccs m .g .load a m.memOff 1) 1
  have hline : ∀ e key, (∀ l, On s m l ↔ l = e) → checkOf s .g .load 1 (addrOf s .g a m.memOff e) = .ok (.at_ key true) →
      ∃ y ∈ ((s.loadLines none (s.laneAccs m .g .load a m.memOff 1) 1).core s.curPkg s.curTroupe.core).lines, y.tag = key / 128 := by
    intro e key he hc
    rw [laneAccs_eq, activeLanes_single he, List.map_singleton, laneAcc, hc]
    exact useLine_holds s _ _ key
  generalize s.loadLines none (s.laneAccs m .g .load a m.memOff 1) 1 = u at hl hline
  refine ⟨?_, ?_, finish_goesOn_of (by rw [hl.frame]) (by rw [hl.frame]), fun e key he hc => ?_⟩
  · rw [finish_nil]
    exact cachesOnly_congr hl.cachesOnly rfl rfl
  · rw [finish_nil]
    exact Eq.trans (b := { u with waves := (u.advance []).waves }) rfl
      (Eq.trans (congrArg (fun x : State => { x with waves := (u.advance []).waves }) hl.frame) rfl)
  · rw [core_advance]
    exact hline e key he hc
theorem constantsAndPrefetch : Claims.ConstantsAndPrefetch := by
  intro s m d n a word gives
  have all : ∀ i k, exec i s = lane32 s m .owed d (fun l => s.konst (k l)) → gives i k := fun i k hx => lane32_computes hx
  exact ⟨all _ _ rfl, all _ _ rfl, all _ _ rfl, prefetch s m a⟩

/-- Settles O20: what the lists of an access hold, by what its checks answer; then what the load's state keeps of the one before. -/
theorem loadsAndConstants : Obligations.LoadsAndConstants := ⟨loads, constantsAndPrefetch⟩

end Sys2Proof
end

