-- ==== Sys2Proof/Proofs/Stores.lean ====
section
/-! SUPPORT. Stores: the writes they become and what their lanes see of them (R175 to R180). -/

namespace Sys2Proof

open Machine

/-! ### What a lane sees of its own store -/

theorem storeBytes_eq (s : State) (ty : MemType) (l : Nat) (d : Reg) : s.storeBytes ty l d = leBytes (bytesIn ty) (storedFrom s ty d l) := by
  cases ty <;> rfl
theorem leBytes_append (j k x : Nat) : leBytes (j + k) x = leBytes j x ++ leBytes k (x / 256 ^ j) := by
  induction j generalizing x with
  | zero => rw [Nat.zero_add, Nat.pow_zero, Nat.div_one]; rfl
  | succ j ih => rw [Nat.add_right_comm, leBytes, ih, leBytes, Nat.div_div_eq_div_mul, ← Nat.pow_succ']; rfl
/-- The writes that bytes become (R176). -/
theorem issued_eq (s : State) (l key n x : Nat) (rel : Option Scope) (hn : n ≤ 16) :
    (splitBytes key (leBytes n x)).map (fun e => (⟨s.nextId, s.cur.wid, l, s.curTroupe.core, s.curPkg, e.1, e.2, 0, rel⟩ : PWrite)) = writesOf s l key n x rel := by
  unfold splitBytes writesOf
  rw [leBytes_length]
  by_cases h : n = 16
  · subst h
    have h16 : leBytes 16 x = leBytes 8 x ++ leBytes 8 (x / 2 ^ 64) := leBytes_append 8 8 x
    rw [if_pos rfl, if_pos rfl, h16, List.take_left' (leBytes_length 8 x), List.drop_left' (leBytes_length 8 x)]
    rfl
  · rw [if_neg h, if_neg h]
    rfl
theorem overlayFrom_append (w : PWrite) (a : Nat) (xs ys : List Byte) : overlayFrom w a (xs ++ ys) = overlayFrom w a xs ++ overlayFrom w (a + xs.length) ys := by
  induction xs generalizing a with
  | nil => rfl
  | cons x xs ih => rw [List.cons_append, overlayFrom, ih, overlayFrom, List.length_cons, Nat.add_right_comm, Nat.add_assoc a]; rfl
/-- Bytes behind or before a write stay. -/
theorem overlayFrom_away (w : PWrite) (a : Nat) (bs : List Byte) (h : a + bs.length ≤ w.addr ∨ w.addr + w.bytes.length ≤ a) : overlayFrom w a bs = bs := by
  induction bs generalizing a with
  | nil => rfl
  | cons b bs ih =>
    rw [List.length_cons] at h
    rw [overlayFrom, ih (a + 1) (by omega), if_neg (by simp only [Bool.and_eq_true, decide_eq_true_eq]; omega)]
/-- Bytes that a write covers become its own. -/
theorem overlayFrom_drop (w : PWrite) (i : Nat) (bs : List Byte) (h : i + bs.length ≤ w.bytes.length) :
    overlayFrom w (w.addr + i) bs = (w.bytes.drop i).take bs.length := by
  induction bs generalizing i with
  | nil => rfl
  | cons b bs ih =>
    rw [List.length_cons] at h ⊢
    have hi : i < w.bytes.length := by omega
    rw [overlayFrom, Nat.add_assoc, ih (i + 1) (by omega), if_pos (by simp only [Bool.and_eq_true, decide_eq_true_eq]; omega),
      Nat.add_sub_cancel_left, List.drop_eq_getElem_cons hi, List.take_succ_cons, List.getD_eq_getElem _ _ hi]
theorem overlayFrom_covers (w : PWrite) (bs : List Byte) (h : bs.length = w.bytes.length) : overlayFrom w w.addr bs = w.bytes := by
  have := overlayFrom_drop w 0 bs (by omega)
  rwa [Nat.add_zero, List.drop_zero, h, List.take_length] at this
/-- One of the writes that a lane's store becomes. -/
def storePart (s : State) (l : Nat) (rel : Option Scope) (a : Nat) (bs : List Byte) : PWrite :=
  ⟨s.nextId, s.cur.wid, l, s.curTroupe.core, s.curPkg, a, bs, 0, rel⟩
theorem writesOf_two (s : State) (l key x : Nat) (rel : Option Scope) :
    writesOf s l key 16 x rel = [storePart s l rel key (leBytes 8 x), storePart s l rel (key + 8) (leBytes 8 (x / 2 ^ 64))] := rfl
theorem writesOf_one {s : State} {l key n x : Nat} {rel : Option Scope} (h : n ≠ 16) : writesOf s l key n x rel = [storePart s l rel key (leBytes n x)] := if_neg h
/-- A store's writes laid over its bytes are what it stores. -/
theorem overlay_writesOf (s : State) (l key n x : Nat) (rel : Option Scope) {bs : List Byte} (h : bs.length = n) :
    overlay key bs (writesOf s l key n x rel) = leBytes n x := by
  by_cases hn : n = 16
  · subst hn
    have hsplit : bs = bs.take 8 ++ bs.drop 8 := (List.take_append_drop 8 bs).symm
    have h1 : (bs.take 8).length = 8 := by rw [List.length_take, h]; rfl
    have h2 : (bs.drop 8).length = 8 := by rw [List.length_drop, h]
    have h16 : leBytes 16 x = leBytes 8 x ++ leBytes 8 (x / 2 ^ 64) := leBytes_append 8 8 x
    generalize bs.take 8 = xs at hsplit h1
    generalize bs.drop 8 = ys at hsplit h2
    have hlow : ∀ ws, overlayFrom (storePart s l rel key (leBytes 8 x)) key (xs ++ ws) = leBytes 8 x ++ ws := by
      intro ws
      rw [overlayFrom_append, overlayFrom_away _ _ ws (.inr (by rw [h1]; exact le_of_eq (congrArg (key + ·) (leBytes_length 8 x))))]
      exact congrArg (· ++ ws) (overlayFrom_covers (storePart s l rel key (leBytes 8 x)) xs (h1.trans (leBytes_length 8 x).symm))
    have hhigh : overlayFrom (storePart s l rel (key + 8) (leBytes 8 (x / 2 ^ 64))) key (leBytes 8 x ++ ys) = leBytes 8 x ++ leBytes 8 (x / 2 ^ 64) := by
      rw [overlayFrom_append, overlayFrom_away _ _ (leBytes 8 x) (.inl (by rw [leBytes_length]; rfl)), leBytes_length]
      exact congrArg (leBytes 8 x ++ ·) (overlayFrom_covers (storePart s l rel (key + 8) (leBytes 8 (x / 2 ^ 64))) ys (h2.trans (leBytes_length 8 _).symm))
    rw [writesOf_two, hsplit, overlay, List.foldl_cons, List.foldl_cons, List.foldl_nil, hlow, hhigh, h16]
  · rw [writesOf_one hn]
    exact overlayFrom_covers (storePart s l rel key (leBytes n x)) bs (h.trans (leBytes_length n x).symm)
theorem overlay_append (a : Nat) (bs : List Byte) (xs ys : List PWrite) : overlay a bs (xs ++ ys) = overlay a (overlay a bs xs) ys := List.foldl_append ..
theorem meets_within {a n : Nat} (w : PWrite) (h1 : a ≤ w.addr) (h2 : w.addr + w.bytes.length ≤ a + n) (h3 : 0 < w.bytes.length) : w.meets a n = true := by
  unfold PWrite.meets overlaps
  simp only [Bool.and_eq_true, decide_eq_true_eq]
  omega
theorem writesOf_mem {s : State} {l key n x : Nat} {rel : Option Scope} {w : PWrite} (h : w ∈ writesOf s l key n x rel) (hn : 0 < n) :
    w.level = 0 ∧ w.wid = s.cur.wid ∧ w.lane = l ∧ w.meets key n = true := by
  by_cases h16 : n = 16
  · subst h16
    rw [writesOf_two] at h
    rcases List.mem_pair.1 h with rfl | rfl
    · exact ⟨rfl, rfl, rfl, meets_within _ (Nat.le_refl _) (show key + (leBytes 8 x).length ≤ key + 16 by rw [leBytes_length]; omega) (by rw [storePart, leBytes_length]; omega)⟩
    · exact ⟨rfl, rfl, rfl, meets_within _ (Nat.le_add_right _ _) (by rw [storePart, leBytes_length]) (by rw [storePart, leBytes_length]; omega)⟩
  · rw [writesOf_one h16, List.mem_singleton] at h
    subst h
    exact ⟨rfl, rfl, rfl, meets_within _ (Nat.le_refl _) (by rw [storePart, leBytes_length]) (by rw [storePart, leBytes_length]; exact hn)⟩
/-- Of the writes that lanes issue, a lane's own are those of its store. -/
theorem filter_writesOf {s : State} {ls : List Nat} (hd : ls.Nodup) {l : Nat} (hl : l ∈ ls) (key : Nat → Nat) (n : Nat) (hn : 0 < n) (x : Nat → Nat)
    (rel : Option Scope) (v : Viewer) (hv : v.wid = s.cur.wid ∧ v.lane = l) :
    ((ls.map (fun l => writesOf s l (key l) n (x l) rel)).flatten).filter (fun w => w.meets (key l) n && w.ownedBy v) = writesOf s l (key l) n (x l) rel := by
  induction ls with
  | nil => exact absurd hl List.not_mem_nil
  | cons a ls ih =>
    obtain ⟨hna, hd⟩ := List.nodup_cons.1 hd
    have hother : ∀ b, b ≠ l → (writesOf s b (key b) n (x b) rel).filter (fun w => w.meets (key l) n && w.ownedBy v) = [] := by
      intro b hb
      refine List.filter_eq_nil_iff.2 fun w hw => ?_
      obtain ⟨_, _, h3, _⟩ := writesOf_mem hw hn
      unfold PWrite.ownedBy
      rw [h3, hv.2, beq_eq_false_iff_ne.2 hb, Bool.and_false, Bool.and_false]
      exact Bool.false_ne_true
    rw [List.map_cons, List.flatten_cons, List.filter_append]
    by_cases ha : a = l
    · subst ha
      have hrest : ((ls.map (fun l => writesOf s l (key l) n (x l) rel)).flatten).filter (fun w => w.meets (key a) n && w.ownedBy v) = [] := by
        refine List.filter_eq_nil_iff.2 fun w hw => ?_
        obtain ⟨_, hm, hw⟩ := List.mem_flatten.1 hw
        obtain ⟨b, hb, rfl⟩ := List.mem_map.1 hm
        exact List.filter_eq_nil_iff.1 (hother b fun e => hna (e ▸ hb)) w hw
      rw [hrest, List.append_nil]
      refine List.filter_eq_self.2 fun w hw => ?_
      obtain ⟨h1, h2, h3, h4⟩ := writesOf_mem hw hn
      unfold PWrite.ownedBy
      rw [h4, h1, h2, h3, hv.1, hv.2, beq_self_eq_true, beq_self_eq_true, beq_self_eq_true]
      rfl
    · rw [hother a ha, List.nil_append, ih hd ((List.mem_cons.1 hl).resolve_left (Ne.symm ha))]
/-- A lane reads at once what it has stored. -/
theorem laneView_own {s t : State} {ls : List Nat} (hd : ls.Nodup) {l : Nat} (hl : l ∈ ls) (key : Nat → Nat) {n : Nat} (hn : 0 < n) (x : Nat → Nat)
    (rel : Option Scope) {v : Viewer} (hv : v.wid = s.cur.wid ∧ v.lane = l)
    (hw : t.writes = s.writes ++ (ls.map (fun l => writesOf s l (key l) n (x l) rel)).flatten) :
    t.laneView v (key l) n = leBytes n (x l) := by
  have hlen : (t.coreView v.pkg v.core (key l) n).length = n := by
    unfold State.coreView State.load
    rw [overlay_length, memGets_length]
  unfold State.laneView State.ownView
  rw [hlen, hw, List.filter_append, filter_writesOf hd hl key n hn x rel v hv, overlay_append]
  exact overlay_writesOf s l (key l) n (x l) rel ((overlay_length ..).trans hlen)

/-! ### Stores -/

theorem walked_used (s : State) (sp : Space) (vas : List W64) : CachesUsed s ({ s with nextId := s.nextId + 1 }.walked sp vas) := by
  have h := walked_translated { s with nextId := s.nextId + 1 } sp vas
  have hc := h.cachesOnly
  exact ⟨h.frame, ⟨hc.1, hc.2⟩⟩
theorem issueStores (u : State) (id : Nat) (rel : Option Scope) (here : List (Nat × Nat)) (f : Nat → List Byte) :
    here.foldl (fun u e => u.issueStore id e.1 e.2 (f e.1) rel) u = { u with writes := u.writes ++ (here.map (fun e => (splitBytes e.2 (f e.1)).map (fun p =>
      (⟨id, u.cur.wid, e.1, u.curTroupe.core, u.curTroupe.pkg, p.1, p.2, 0, rel⟩ : PWrite)))).flatten } := by
  induction here generalizing u with
  | nil => rw [List.map_nil, List.flatten_nil, List.append_nil]; rfl
  | cons e here ih =>
    rw [List.foldl_cons, ih, List.map_cons, List.flatten_cons]
    unfold State.issueStore
    dsimp only
    rw [List.append_assoc]
    rfl
/-- A release that has nothing to wait for. -/
theorem afterRelease_goes {s : State} {m : Mods} {i : Instr} {sc : Scope} {go : State → State}
    (h : sc = .pod → (s.pkg s.curPkg).copying s.cur.wid = false ∧ (s.pkg s.curPkg).outstanding = [] ∧ (s.wave s.cur.wid).discarded = []) :
    afterRelease s m i sc false go = go s := by
  unfold afterRelease
  split
  · rfl
  · rw [Bool.false_and, if_neg Bool.false_ne_true]
    split
    · rfl
    · next hp =>
      obtain ⟨h1, h2, h3⟩ := h (by simpa using hp)
      have hneed : (if s.cur.past then [] else (s.pkg s.curPkg).outstanding) = [] := by rw [h2, ite_self]
      rw [h1, if_neg Bool.false_ne_true, hneed]
      dsimp only
      rw [if_neg (by decide), if_neg]
      rw [State.curWave, h3]
      decide
/-- The state of a store that goes on, before the path does. -/
def storeDone (s : State) (m : Mods) (sp : Space) (a : Reg) (off : Int) (ws : List PWrite) (lock : Bool) : State :=
  let u := { s with nextId := s.nextId + 1 }.walked sp ((s.activeLanes m).map (addrOf s sp a off))
  if lock then { u with writes := s.writes ++ ws }.modTroupe s.curTid (fun t => { t with lock := true }) else { u with writes := s.writes ++ ws }
theorem isEmpty_activeLanes (s : State) (m : Mods) (f : Nat → Nat × Nat) : (!((s.activeLanes m).map f).isEmpty) = s.someActive m := by
  unfold State.someActive
  rw [List.isEmpty_map]
theorem storeIssued {s u : State} (hu : CachesUsed s u) {ty : MemType} (rel : Option Scope) (d : Reg) (ls : List Nat) (key : Nat → Nat) :
    (ls.map (fun l => (l, key l))).foldl (fun u e => u.issueStore s.nextId e.1 e.2 (s.storeBytes ty e.1 d) rel) u =
      { u with writes := s.writes ++ (ls.map (fun l => writesOf s l (key l) (bytesIn ty) (storedFrom s ty d l) rel)).flatten } := by
  have hcur : u.writes = s.writes ∧ u.cur.wid = s.cur.wid ∧ u.curTroupe = s.curTroupe := by
    rw [hu.frame]
    exact ⟨rfl, rfl, rfl⟩
  obtain ⟨h1, h2, h3⟩ := hcur
  rw [issueStores (f := fun l => s.storeBytes ty l d), h1, h2, h3, List.map_map]
  refine congrArg (fun ws => { u with writes := s.writes ++ List.flatten ws }) (List.map_congr_left fun l _ => ?_)
  rw [← issued_eq s l (key l) (bytesIn ty) _ rel (by cases ty <;> decide), ← storeBytes_eq]
  rfl
section
variable {i : Instr} {s : State} {m : Mods} {sp : Space} {ty : MemType} {rel : Option Scope} {d a : Reg} {off : Int}
theorem storeGo_waits (h : s.walkWait sp ((s.activeLanes m).map (addrOf s sp a off)) = true) :
    WaitsForWalks i s (storeGo i s m sp ty rel d a off) ((s.activeLanes m).map (addrOf s sp a off)) := by
  unfold storeGo
  dsimp only
  rw [laneAccs_vas, h, Bool.true_or, if_pos rfl]
  exact waitAt_walks h
variable (hrel : rel = some .pod → (s.pkg s.curPkg).copying s.cur.wid = false ∧ (s.pkg s.curPkg).outstanding = [] ∧ (s.wave s.cur.wid).discarded = [])
  (hw : s.walkWait sp ((s.activeLanes m).map (addrOf s sp a off)) = false)
include hrel hw
theorem storeGo_here {key : Nat → Nat} {c : Nat → Bool}
    (h : ∀ l, On s m l → checkOf s sp .store (bytesIn ty) (addrOf s sp a off l) = .ok (.at_ (key l) (c l))) :
    storeGo i s m sp ty rel d a off = finish (storeDone s m sp a off
      ((s.activeLanes m).map (fun l => writesOf s l (key l) (bytesIn ty) (storedFrom s ty d l) rel)).flatten (sp != .s && s.someActive m)) [] := by
  rw [← memType_bytes] at h
  obtain ⟨h1, h2, h3, -⟩ := acc_of_here h
  have hroom : s.partsRoom [] = true := rfl
  unfold storeGo
  dsimp only
  rw [laneAccs_vas, h1, h2, hw, hroom, if_neg (by decide)]
  have hu := walked_used s sp ((s.activeLanes m).map (addrOf s sp a off))
  unfold storeDone
  dsimp only
  cases rel
  case' some sc =>
    dsimp only
    refine (afterRelease_goes fun h => hrel (h ▸ rfl)).trans ?_
  case' none => dsimp only
  all_goals
    generalize State.walked { s with nextId := s.nextId + 1 } sp ((s.activeLanes m).map (addrOf s sp a off)) = u at hu
    rw [h3, sendParts_nil, storeIssued hu _ d (s.activeLanes m) key, List.isEmpty_nil, Bool.and_true, isEmpty_activeLanes]
theorem storeGo_faults {why : Nat → Cause} {sub : Nat → Byte}
    (h : ∀ l, On s m l → checkOf s sp .store (bytesIn ty) (addrOf s sp a off l) = .bad (why l) (sub l)) :
    storeGo i s m sp ty rel d a off = finish (storeDone s m sp a off [] false)
      ((s.activeLanes m).map (fun l => s.stopRec l (why l) (sub l) (addrOf s sp a off l))) := by
  rw [← memType_bytes] at h
  obtain ⟨h1, h2, h3, -⟩ := acc_of_faults h
  have hroom : s.partsRoom [] = true := rfl
  unfold storeGo
  dsimp only
  rw [laneAccs_vas, h1, h2, hw, hroom, if_neg (by decide)]
  have hu := walked_used s sp ((s.activeLanes m).map (addrOf s sp a off))
  have hws : ({ s with nextId := s.nextId + 1 }.walked sp ((s.activeLanes m).map (addrOf s sp a off))).writes = s.writes := by rw [hu.frame]
  unfold storeDone
  dsimp only
  rw [List.append_nil]
  cases rel
  case' some sc =>
    dsimp only
    refine (afterRelease_goes fun h => hrel (h ▸ rfl)).trans ?_
  case' none => dsimp only
  all_goals
    generalize State.walked { s with nextId := s.nextId + 1 } sp ((s.activeLanes m).map (addrOf s sp a off)) = u at hws
    rw [h3, List.isEmpty_nil, List.isEmpty_nil, Bool.and_self, Bool.not_true, Bool.and_false, ← hws]
    rfl
end
section
variable (s : State) (m : Mods) (sp : Space) (a : Reg) (off : Int) (ws : List PWrite) (lock : Bool)
/-- What the state of a store keeps of the one before. -/
theorem storeDone_frame : let u := storeDone s m sp a off ws lock
    CachesOnly s u ∧ u = { s with pkgs := u.pkgs, walks := u.walks, troupes := u.troupes, nextId := s.nextId + 1, writes := s.writes ++ ws } ∧
      (lock = false → u.troupes = s.troupes) ∧ ∀ j, u.troupe j = if j = s.curTid ∧ lock = true then { s.troupe j with lock := true } else s.troupe j := by
  have hu := walked_used s sp ((s.activeLanes m).map (addrOf s sp a off))
  unfold storeDone
  dsimp only
  generalize State.walked { s with nextId := s.nextId + 1 } sp ((s.activeLanes m).map (addrOf s sp a off)) = u at hu
  obtain ⟨hf, hc⟩ := hu
  have ht : u.troupe = s.troupe := by
    unfold State.troupe
    rw [hf]
  have hfw : { u with writes := s.writes ++ ws } = { s with pkgs := u.pkgs, walks := u.walks, nextId := s.nextId + 1, writes := s.writes ++ ws } :=
    congrArg (fun x : State => { x with writes := s.writes ++ ws }) hf
  have hts : u.troupes = s.troupes := by rw [hf]
  cases lock
  · rw [if_neg Bool.false_ne_true]
    refine ⟨cachesOnly_congr hc rfl rfl, hfw.trans (by dsimp only; rw [hts]), fun _ => hts, fun j => ?_⟩
    rw [if_neg fun h => Bool.false_ne_true h.2]
    exact congrFun ht j
  · rw [if_pos rfl]
    generalize hv : ({ u with writes := s.writes ++ ws } : State) = v at hfw
    have hvt : v.troupe = s.troupe := by rw [← ht, ← hv]; rfl
    have hp : v.pkgs = u.pkgs ∧ v.walks = u.walks := by rw [← hv]; exact ⟨rfl, rfl⟩
    have hm : v.modTroupe s.curTid (fun t => { t with lock := true }) = { v with troupes := (v.modTroupe s.curTid (fun t => { t with lock := true })).troupes } := rfl
    refine ⟨cachesOnly_congr hc hp.1 hp.2, ?_, fun h => (nomatch h), fun j => ?_⟩
    · generalize v.modTroupe s.curTid (fun t => { t with lock := true }) = x at hm
      rw [hm, hfw]
    · rw [State.troupe_modTroupe, hvt]
      split
      · next h => rw [if_pos ⟨h, rfl⟩, h]
      · next h => rw [if_neg fun hx => h hx.1]
end
/-- Settles O21: what the lists of an access hold, by what its checks answer; then which writes the store's state holds, and what its lane sees of them. -/
theorem stores : Obligations.Stores := by
  intro s m o sp ty r d a key c claim off
  have all : ∀ i sp ty rel off, exec i s = .next (storeGo i s m sp ty rel d a off) → claim i sp ty rel off := by
    intro i sp ty rel off hx
    have hn : 0 < bytesIn ty := by cases ty <;> decide
    refine ⟨fun hw => ⟨_, hx, storeGo_waits hw⟩, fun hw hrel => ⟨fun h => ⟨_, hx, ?_⟩, fun hal hon why sub h => ?_⟩⟩
    · rw [storeGo_here hrel hw h]
      obtain ⟨hc, hf, -, ht⟩ := storeDone_frame s m sp a off
        ((s.activeLanes m).map (fun l => writesOf s l (key l) (bytesIn ty) (storedFrom s ty d l) rel)).flatten (sp != .s && s.someActive m)
      generalize storeDone s m sp a off _ _ = u at hc hf ht
      have hws : (finish u []).writes = s.writes ++ ((s.activeLanes m).map (fun l => writesOf s l (key l) (bytesIn ty) (storedFrom s ty d l) rel)).flatten := by
        rw [finish_nil, State.advance, hf]
        rfl
      refine ⟨?_, ?_, finish_goesOn_of (by rw [hf]) (by rw [hf]), hws, fun j => ?_, fun l hl => ?_⟩
      · rw [finish_nil]
        exact cachesOnly_congr hc rfl rfl
      · have hwr : u.writes = s.writes ++ ((s.activeLanes m).map (fun l => writesOf s l (key l) (bytesIn ty) (storedFrom s ty d l) rel)).flatten := by rw [hf]
        rw [← hwr] at hf
        rw [finish_nil]
        exact Eq.trans (b := { u with waves := (u.advance []).waves }) rfl
          (Eq.trans (congrArg (fun x : State => { x with waves := (u.advance []).waves }) hf) rfl)
      · rw [troupe_finish, ht]
        simp only [Bool.and_eq_true, bne_iff_ne]
      · exact laneView_own (activeLanes_nodup s m) (mem_activeLanes.2 hl) key hn (fun l => storedFrom s ty d l) rel ⟨rfl, rfl⟩ hws
    · rw [storeGo_faults hrel hw h] at hx
      obtain ⟨hc, hf, ht, -⟩ := storeDone_frame s m sp a off [] false
      generalize storeDone s m sp a off [] false = u at hc hf ht hx
      have hk : u.mem = s.mem ∧ u.writes = s.writes ∧ u.troupes = s.troupes ∧ u.corps = s.corps ∧ u.cycle = s.cycle := by
        refine ⟨by rw [hf], by rw [hf]; exact List.append_nil _, ht rfl, by rw [hf], by rw [hf]⟩
      obtain ⟨who, h1, h2⟩ := (StopsLike.of_becomes ((waveBecomes_refl s).of_waves (show u.waves = s.waves by rw [hf])) (fun _ => rfl) (by rw [hf]) hk).faultsEach
        hal hon fun l hl => (check_faults ..).fault (h l hl)
      exact ⟨_, who, hx, h1, h2⟩
  exact ⟨all _ .g .b32 none (off 4) rfl, all _ .g .b64 none (off 8) rfl, all _ .g .b128 none (off 16) rfl, all _ .s .b32 none (off 4) rfl,
    all _ sp ty _ m.memOff rfl⟩

end Sys2Proof
end

