-- ==== Sys2Proof/Proofs/Banks.lean ====
section
/-! SUPPORT. The operations of the bank ALUs: new values, replies, what an application leaves unchanged (R188, R191, R345). -/

namespace Sys2Proof

open Machine

/-! ### The values that operations leave -/

theorem signedOf_toNat {n : Nat} (hn : 0 < n) (x : BitVec n) : signedOf n x.toNat = x.toInt := by
  have hp : 2 ^ n = 2 * 2 ^ (n - 1) := by rw [← Nat.pow_succ', Nat.succ_eq_add_one, Nat.sub_add_cancel hn]
  have hc : 2 * x.toNat < 2 ^ n ↔ x.toNat < 2 ^ (n - 1) := by omega
  unfold signedOf
  rw [BitVec.toInt_eq_toNat_cond]
  simp only [hc]
  push_cast
  rfl
section
variable {n : Nat} (x y : BitVec n)
theorem pickMin_signed : (pickMin true x y).toNat = if x.toInt ≤ y.toInt then x.toNat else y.toNat := by
  unfold pickMin
  rw [if_pos rfl, BitVec.sle_eq_decide]
  simp only [decide_eq_true_eq]
  split <;> rfl
theorem pickMax_signed : (pickMax true x y).toNat = if x.toInt ≤ y.toInt then y.toNat else x.toNat := by
  unfold pickMax
  rw [if_pos rfl, BitVec.sle_eq_decide]
  simp only [decide_eq_true_eq]
  split <;> rfl
theorem pickMin_unsigned : (pickMin false x y).toNat = min x.toNat y.toNat := by
  unfold pickMin
  rw [if_neg Bool.false_ne_true, BitVec.ule_eq_decide, Nat.min_def]
  simp only [decide_eq_true_eq]
  split <;> rfl
theorem pickMax_unsigned : (pickMax false x y).toNat = max x.toNat y.toNat := by
  unfold pickMax
  rw [if_neg Bool.false_ne_true, BitVec.ule_eq_decide, Nat.max_def]
  simp only [decide_eq_true_eq]
  split <;> rfl
end
/-- The width of an atomic's words. -/
def atomWidth (w : Bool) : Nat := if w then 64 else 32
theorem atomWidth_pos (w : Bool) : 0 < atomWidth w := by cases w <;> decide
theorem atomVal_leaves (o : AtomOp) (w : Bool) (m d : BitVec (atomWidth w)) :
    (atomVal o m d).toNat = atomLeaves o w m.toNat d.toNat % 2 ^ atomWidth w := by
  have hm := m.isLt
  have hd := d.isLt
  have sm := signedOf_toNat (atomWidth_pos w) m
  have sd := signedOf_toNat (atomWidth_pos w) d
  unfold atomLeaves
  dsimp only
  rw [show (if w = true then 64 else 32) = atomWidth w from rfl]
  cases o
  case add => rw [atomVal, BitVec.toNat_add, Nat.mod_mod]
  case minS =>
    dsimp only [atomVal]
    rw [sm, sd, pickMin_signed]
    by_cases h : m.toInt ≤ d.toInt
    · rw [if_pos h, if_neg (Int.not_lt.2 h), Nat.mod_eq_of_lt hm]
    · rw [if_neg h, if_pos (Int.not_le.1 h), Nat.mod_eq_of_lt hd]
  case minZ => rw [atomVal, pickMin_unsigned, Nat.mod_eq_of_lt (lt_of_le_of_lt (Nat.min_le_left ..) hm)]
  case maxS =>
    dsimp only [atomVal]
    rw [sm, sd, pickMax_signed]
    by_cases h : m.toInt < d.toInt
    · rw [if_pos h.le, if_pos h, Nat.mod_eq_of_lt hd]
    · rw [if_neg h, Nat.mod_eq_of_lt hm]
      by_cases he : m.toInt ≤ d.toInt
      · rw [if_pos he, BitVec.toInt_inj.1 (le_antisymm he (Int.not_lt.1 h))]
      · rw [if_neg he]
  case maxZ => rw [atomVal, pickMax_unsigned, Nat.mod_eq_of_lt (Nat.max_lt.2 ⟨hm, hd⟩)]
  case and => exact (Nat.mod_eq_of_lt (m &&& d).isLt).symm
  case or => exact (Nat.mod_eq_of_lt (m ||| d).isLt).symm
  case xor => exact (Nat.mod_eq_of_lt (m ^^^ d).isLt).symm
  case xch => exact (Nat.mod_eq_of_lt hd).symm
  case inc =>
    dsimp only [atomVal]
    by_cases h : d.toNat ≤ m.toNat
    · rw [if_pos h, if_pos h, Nat.zero_mod]
      rfl
    · have h1 : (1 : BitVec (atomWidth w)).toNat = 1 := by cases w <;> rfl
      rw [if_neg h, if_neg h, BitVec.toNat_add, h1]
  case fadd => cases w <;> exact BitVec.toNat_ofNat ..
theorem toNat_word {x n : Nat} (hx : x < 256 ^ n) (hn : n ≤ 8) : (BitVec.ofNat 64 x).toNat = x := by
  rw [BitVec.toNat_ofNat]
  exact Nat.mod_eq_of_lt (lt_of_lt_of_le hx (Nat.pow_le_pow_right (by decide) hn))
theorem toNat_lo32 (x : W64) : (lo32 x).toNat = x.toNat % 2 ^ 32 := BitVec.toNat_setWidth ..
theorem toNat_low {x : Nat} (hx : x < 256 ^ 4) : (lo32 (BitVec.ofNat 64 x)).toNat = x := by
  rw [toNat_lo32, toNat_word hx (by decide)]
  exact Nat.mod_eq_of_lt hx
theorem toNat_widened (x : W32) : (x.setWidth 64).toNat = x.toNat := by
  rw [BitVec.toNat_setWidth]
  exact Nat.mod_eq_of_lt (x.isLt.trans (by decide))
/-- What an atomic's bank leaves, as a number of its width (R188). -/
theorem atomNew_leaves (o : AtomOp) (w : Bool) {x : Nat} (hx : x < 256 ^ atomBytes w) (d : W64) :
    leBytes (atomBytes w) (atomNew o w (BitVec.ofNat 64 x) d).toNat = leBytes (atomBytes w) (atomLeaves o w x (if w then d.toNat else d.toNat % 2 ^ 32)) := by
  rw [← leBytes_mod _ (atomLeaves ..)]
  cases w
  · have hv : (atomVal o (lo32 (BitVec.ofNat 64 x)) (lo32 d)).toNat = atomLeaves o false (lo32 (BitVec.ofNat 64 x)).toNat (lo32 d).toNat % 2 ^ 32 :=
      atomVal_leaves o false _ _
    rw [toNat_low hx, toNat_lo32] at hv
    exact congrArg (leBytes 4) ((toNat_widened _).trans hv)
  · have hv : (atomVal o (BitVec.ofNat 64 x) d).toNat = atomLeaves o true (BitVec.ofNat 64 x).toNat d.toNat % 2 ^ 64 := atomVal_leaves o true _ _
    rw [toNat_word hx (by decide)] at hv
    exact congrArg (leBytes 8) hv
theorem casNew_leaves (w : Bool) {x : Nat} (hx : x < 256 ^ atomBytes w) (d e : W64) :
    let cut := fun (x : W64) => if w then x.toNat else x.toNat % 2 ^ 32
    (casNew (BitVec.ofNat 64 x) (atomTrim w d) (atomTrim w e)).toNat = if x = cut d then cut e else x := by
  have hcut : ∀ y : W64, (atomTrim w y).toNat = if w then y.toNat else y.toNat % 2 ^ 32 := fun y => by
    cases w
    · exact (toNat_widened _).trans (toNat_lo32 y)
    · rfl
  have hx' := toNat_word hx (by cases w <;> decide)
  have heq : BitVec.ofNat 64 x = atomTrim w d ↔ x = (atomTrim w d).toNat := by rw [← BitVec.toNat_inj, hx']
  refine Eq.trans (b := if x = (atomTrim w d).toNat then (atomTrim w e).toNat else x) ?_ (if_congr (by rw [hcut d]) (hcut e) rfl)
  unfold casNew
  simp only [heq]
  split
  · rfl
  · exact hx'
/-- What an element of a `bop` becomes, as a number of its type (R191). -/
theorem bopVal_leaves (op ty : Nat) {y x : Nat} (hy : y < 256 ^ bopBytes ty) (hx : x < 256 ^ bopBytes ty) (a : W64) :
    leBytes (bopBytes ty) (bopVal op ty (BitVec.ofNat 64 y) (BitVec.ofNat 64 x) a).toNat = leBytes (bopBytes ty) (bopLeaves op ty y x a.toNat) := by
  have h8 : bopBytes ty ≤ 8 := by unfold bopBytes; split <;> decide
  have hdvd : ∀ v : Nat, leBytes (bopBytes ty) (BitVec.ofNat 64 v).toNat = leBytes (bopBytes ty) v := fun v => by
    rw [← leBytes_mod, BitVec.toNat_ofNat, Nat.mod_mod_of_dvd, leBytes_mod]
    exact Nat.pow_dvd_pow 256 h8
  unfold bopVal bopLeaves
  dsimp only
  by_cases h0 : ty = 0
  · subst h0
    rw [if_pos rfl, if_neg (by decide), hdvd, toNat_word hy h8, toNat_word hx h8]
    rfl
  · rw [if_neg h0]
    by_cases h1 : ty = 1
    · subst h1
      rw [if_pos rfl, if_neg (by decide), hdvd, toNat_word hy h8, toNat_word hx h8]
      rfl
    · have hb : bopBytes ty = 4 := if_neg h1
      rw [hb] at hy hx ⊢
      rw [if_neg h1, if_pos ⟨h0, h1⟩, toNat_widened, ← leBytes_mod]
      refine congrArg (leBytes 4) ?_
      have h32 : (256 : Nat) ^ 4 = 2 ^ 32 := by decide
      rw [h32]
      rcases op with _ | _ | _ | op <;>
        simp only [BitVec.toNat_mul, BitVec.toNat_add, toNat_low hy, toNat_low hx, toNat_lo32, Nat.mod_mod, Nat.mod_mul_mod, Nat.mod_add_mod]
theorem numberAt_lt (s : State) (a n : Nat) : numberAt s a n < 256 ^ n := leNat_lt_of_length (memGets_length ..).le

/-! ### What an application leaves unchanged -/

/-- Memory, the banks and their range operations are as before. -/
structure BanksSame (s t : State) : Prop where
  bankQ : ∀ k, (t.pkg k).bankQ = (s.pkg k).bankQ
  bops : ∀ k, (t.pkg k).bops = (s.pkg k).bops
theorem BanksSame.refl (s : State) : BanksSame s s := ⟨fun _ => rfl, fun _ => rfl⟩
theorem BanksSame.trans {s t u : State} (h1 : BanksSame s t) (h2 : BanksSame t u) : BanksSame s u :=
  ⟨fun k => (h2.bankQ k).trans (h1.bankQ k), fun k => (h2.bops k).trans (h1.bops k)⟩
theorem BanksSame.of_pkgs {s t : State} (h : t.pkgs = s.pkgs) : BanksSame s t := by
  have hp : ∀ k, t.pkg k = s.pkg k := fun k => by unfold State.pkg; rw [h]
  exact ⟨fun k => by rw [hp], fun k => by rw [hp]⟩
theorem modPkg_banks (s : State) (k : Nat) (f : Pkg → Pkg) (h1 : ∀ p, (f p).bankQ = p.bankQ) (h2 : ∀ p, (f p).bops = p.bops) : BanksSame s (s.modPkg k f) := by
  refine ⟨fun j => ?_, fun j => ?_⟩ <;> rw [State.pkg_modPkg] <;> split
  · next h => subst h; exact h1 _
  · rfl
  · next h => subst h; exact h2 _
  · rfl
/-- What an application does behind its update: lanes and memory are as before, too. -/
structure AfterUpdate (s t : State) : Prop extends BanksSame s t where
  mem : t.mem = s.mem
  lane : ∀ w l, t.lane w l = s.lane w l
theorem AfterUpdate.refl (s : State) : AfterUpdate s s := ⟨.refl s, rfl, fun _ _ => rfl⟩
theorem AfterUpdate.trans {s t u : State} (h1 : AfterUpdate s t) (h2 : AfterUpdate t u) : AfterUpdate s u :=
  ⟨h1.toBanksSame.trans h2.toBanksSame, h2.mem.trans h1.mem, fun w l => (h2.lane w l).trans (h1.lane w l)⟩
theorem modPkg_after (s : State) (k : Nat) (f : Pkg → Pkg) (h1 : ∀ p, (f p).bankQ = p.bankQ) (h2 : ∀ p, (f p).bops = p.bops) : AfterUpdate s (s.modPkg k f) :=
  ⟨modPkg_banks s k f h1 h2, rfl, fun _ _ => rfl⟩
theorem modCore_after (s : State) (k c : Nat) (f : Core → Core) : AfterUpdate s (s.modCore k c f) :=
  modPkg_after s k (fun p => p.setCore c (f (p.core c))) (fun _ => rfl) (fun _ => rfl)
theorem modWave_after (s : State) (w : Nat) (f : Wave → Wave) (h : ∀ v, (f v).lanes = v.lanes) : AfterUpdate s (s.modWave w f) := by
  refine ⟨.of_pkgs rfl, rfl, fun v l => ?_⟩
  unfold State.lane Wave.lane
  rw [State.wave_modWave]
  split
  · next hv => rw [h, hv]
  · rfl
theorem observe_after (s : State) (w : Nat) (sc : Scope) (rels : List (Nat × Nat)) : AfterUpdate s (s.observe w sc rels) := by
  unfold State.observe
  split
  · exact .refl s
  · exact modWave_after s w _ fun _ => rfl
theorem acquired_after (s : State) (k : Nat) (b : BankOp) (sc : Scope) (rels : List (Nat × Nat)) : AfterUpdate s (s.acquired k b sc rels) := by
  have h1 := observe_after s b.wid sc rels
  unfold State.acquired
  dsimp only
  generalize s.observe b.wid sc rels = u at h1
  have h2 : AfterUpdate s (if sc = .core then u else u.emptyLines k b.core) := by
    split
    · exact h1
    · exact h1.trans (modCore_after u k b.core _)
  generalize (if sc = .core then u else u.emptyLines k b.core) = v at h2
  split
  · exact h2
  · exact h2.trans (modWave_after v b.wid _ fun _ => rfl)
theorem store_banks (s : State) (a : Nat) (bs : List Byte) : BanksSame s (s.store a bs) := by
  unfold State.store
  dsimp only
  refine BanksSame.trans (t := { s with mem := memPuts s.mem a bs, relAt := s.relAt.filter (fun e => !(a ≤ e.1 && e.1 < a + bs.length)) }) (.of_pkgs rfl) ?_
  exact modPkg_banks _ _ (fun p => { p with phys := { p.phys with poison := unpoison p.phys.poison a bs.length } }) (fun _ => rfl) (fun _ => rfl)
theorem landWrite_banks (s : State) (w : PWrite) : BanksSame s (s.landWrite w) := by
  unfold State.landWrite
  dsimp only
  have h := store_banks s w.addr w.bytes
  split
  · exact h.trans (.of_pkgs rfl)
  · exact h
theorem BanksSame.fold {α : Type} {f : State → α → State} (h : ∀ s x, BanksSame s (f s x)) (l : List α) (s : State) : BanksSame s (l.foldl f s) := by
  induction l generalizing s with
  | nil => exact .refl s
  | cons x l ih => exact (h s x).trans (ih _)
theorem settleUnit_banks (s : State) (u : Nat) : BanksSame s (s.settleUnit u) := by
  unfold State.settleUnit
  dsimp only
  have h := BanksSame.fold landWrite_banks (s.writes.filter (fun w => decide (1 ≤ w.level) && w.unit == u))
    { s with writes := s.writes.filter (fun w => !(decide (1 ≤ w.level) && w.unit == u)) }
  exact ⟨h.bankQ, h.bops⟩
theorem settleRange_banks (s : State) (a n : Nat) : BanksSame s (s.settleRange a n) := by
  unfold State.settleRange
  split
  · exact .refl s
  · exact .fold (fun s i => settleUnit_banks s _) _ s
theorem update_banks (s : State) (a n : Nat) (f : W64 → W64) (rel : Option (Nat × Nat)) : BanksSame s (s.update a n f rel).2 := by
  unfold State.update
  dsimp only
  have h := (settleRange_banks s a n).trans (store_banks (s.settleRange a n) a (leBytes n (f (BitVec.ofNat 64 (leNat ((s.settleRange a n).load a n)))).toNat))
  split
  · exact h
  · exact h.trans (.of_pkgs rfl)

/-! ### Applications -/

/-- What an application does to its location and to the lane that waits for it (R345). -/
def bankUpdated (s : State) (k : Nat) (b : BankOp) : State :=
  let rel := if b.rel = some .core then some (podCore k b.core, b.id) else none
  match b.work with
  | .rmw o w d =>
    let r := s.update b.addr (atomBytes w) (fun m => atomNew o w m d) rel
    if b.ret then r.2.fillVal b.wid b.lane b.tag r.1 else r.2
  | .cas w d e =>
    let r := s.update b.addr (atomBytes w) (fun m => casNew m (atomTrim w d) (atomTrim w e)) rel
    r.2.fillVal b.wid b.lane b.tag r.1
  | .elem op ty bop x a _ =>
    let n := bopBytes ty
    let s0 := if op < 2 then s else s.settleRange x n
    let xv := if op < 2 then 0 else BitVec.ofNat 64 (leNat (s0.load x n))
    let r := s0.update b.addr n (fun y => bopVal op ty y xv a) none
    r.2.modPkg k (fun p => { p with bops := p.bops.map (fun (q : BopRec) => if q.id = bop then { q with left := q.left - 1 } else q) })
theorem applyOp_after {s : State} {k : Nat} {b : BankOp} (hr : b.rcd = false) : AfterUpdate (bankUpdated s k b) (s.applyOp k b) := by
  have h1 := modCore_after (bankUpdated s k b) k b.core (fun c => { c with lines := dropLines c.lines b.addr b.bytes })
  have hlog : ∀ u : State, u.logApplied k b = u := fun u => by
    unfold State.logApplied
    rw [hr]
    rfl
  unfold State.applyOp
  dsimp only
  rw [hlog]
  refine AfterUpdate.trans ?_ (modPkg_after _ k (fun p => p.spend (paceBank (keyDie b.addr)) b.cost) (fun _ => rfl) (fun _ => rfl))
  split
  · next sc _ => exact h1.trans (acquired_after _ k b sc _)
  · exact h1
/-- What a result that is owed becomes when values for a tag are known. -/
def filled (tag : Nat) (outs : List (Dst × W32)) (e : Pend) : Pend :=
  if e.tag = tag then
    match outs.find? (fun o => o.1 == e.dst) with
    | some o => { e with val := o.2, got := true }
    | none => e
  else e
theorem fill_eq (x : Lane) (tag : Nat) (outs : List (Dst × W32)) : (x.fill tag outs).pend = x.pend.map (filled tag outs) := rfl
theorem filled_tag (tag : Nat) (outs : List (Dst × W32)) (e : Pend) : (filled tag outs e).tag = e.tag := by
  unfold filled
  split
  · split <;> rfl
  · rfl
theorem filled_dst (tag : Nat) (outs : List (Dst × W32)) (e : Pend) : (filled tag outs e).dst = e.dst := by
  unfold filled
  split
  · split <;> rfl
  · rfl
theorem filled_of {tag : Nat} {outs : List (Dst × W32)} {e : Pend} {o : Dst × W32} (h : e.tag = tag) (ho : outs.find? (fun o => o.1 == e.dst) = some o) :
    filled tag outs e = { e with val := o.2, got := true } := by
  unfold filled
  rw [if_pos h, ho]
section
variable {s : State} {k : Nat} {b : BankOp}
/-- A value that becomes known leaves everything but its lane as it is. -/
theorem fillVal_frame (s : State) (w l tag : Nat) (v : W64) : s.fillVal w l tag v = { s with waves := (s.fillVal w l tag v).waves } := rfl
theorem zip_find {ds : List Dst} {vs : List W32} (hd : ds.Nodup) (hl : ds.length ≤ vs.length) :
    ds.map (fun d => (ds.zip vs).find? (fun o => o.1 == d)) = (ds.zip vs).map some := by
  induction ds generalizing vs with
  | nil => rfl
  | cons d ds ih =>
    cases vs with
    | nil => exact absurd hl (by rw [List.length_cons, List.length_nil]; omega)
    | cons v vs =>
      obtain ⟨hnd, hd⟩ := List.nodup_cons.1 hd
      rw [List.zip_cons_cons, List.map_cons, List.map_cons, List.find?_cons_of_pos (by simp), ← ih hd (Nat.le_of_succ_le_succ hl)]
      refine congrArg (some (d, v) :: ·) (List.map_congr_left fun x hx => ?_)
      rw [List.find?_cons_of_neg (by rw [beq_iff_eq]; exact fun (e : d = x) => hnd (e ▸ hx))]
/-- The registers that a lane is owed under a tag hold the values that have become known, in order. -/
theorem fill_owed (x : Lane) (tag : Nat) {vs : List W32} (hd : (x.owedTo tag).Nodup) (hl : (x.owedTo tag).length ≤ vs.length) :
    owedUnder (x.fill tag ((x.owedTo tag).zip vs)) tag = ((x.owedTo tag).zip vs).map (fun r => (r.1, r.2, true)) := by
  have hz := zip_find hd hl
  have hlen : ((x.owedTo tag).zip vs).length = (x.owedTo tag).length := by rw [List.length_zip, Nat.min_eq_left hl]
  have hown : x.owedTo tag = (x.pend.filter (fun e => e.tag == tag)).map (fun e => e.dst) := rfl
  generalize x.owedTo tag = ds at hz hlen hown
  have hkeep : x.pend.filter ((fun (e : Pend) => e.tag == tag) ∘ filled tag (ds.zip vs)) = x.pend.filter (fun e => e.tag == tag) :=
    List.filter_congr fun e _ => by rw [Function.comp, filled_tag]
  rw [owedUnder, fill_eq, List.filter_map, hkeep, List.map_map]
  refine List.ext_getElem (by rw [List.length_map, List.length_map, hlen, hown, List.length_map]) fun i h1 h2 => ?_
  rw [List.length_map] at h1 h2
  rw [List.getElem_map, List.getElem_map]
  have hi : i < ds.length := hlen ▸ h2
  have hz' : (ds.zip vs).find? (fun o => o.1 == ds[i]) = some (ds.zip vs)[i] := by
    have := List.getElem_of_eq hz (i := i) (by rw [List.length_map]; exact hi)
    rwa [List.getElem_map, List.getElem_map] at this
  have hdst : ds[i] = ((x.pend.filter (fun e => e.tag == tag))[i]).dst := by
    have := List.getElem_of_eq hown hi
    rwa [List.getElem_map] at this
  have htag : ((x.pend.filter (fun e => e.tag == tag))[i]).tag = tag := by
    have := List.of_mem_filter (p := fun (e : Pend) => e.tag == tag) (List.getElem_mem h1)
    exact beq_iff_eq.1 this
  rw [hdst] at hz'
  dsimp only [Function.comp]
  rw [filled_of htag hz', ← hdst, List.getElem_zip]
theorem fillVal_owed {w l tag : Nat} {v : W64} (hl : l < 32) {ds : List Dst} (hd : ds.Nodup) (h2 : ds.length ≤ 2)
    (h : ((s.lane w l).pend.filter (fun e => e.tag == tag)).map (fun e => e.dst) = ds) :
    owedUnder ((s.fillVal w l tag v).lane w l) tag = (ds.zip [lo32 v, hi32 v]).map (fun r => (r.1, r.2, true)) := by
  subst h
  have hlane : (s.fillVal w l tag v).lane w l = (s.lane w l).fill tag (((s.lane w l).owedTo tag).zip [lo32 v, hi32 v]) := by
    unfold State.fillVal fillTag
    rw [State.lane_updLanes, if_pos ⟨rfl, by simp [laneBit, hl]⟩]
  rw [hlane]
  exact fill_owed _ tag hd h2
end
theorem MemoryTakes.congr {s t : State} {a n v v' : Nat} (h : MemoryTakes s t a n v) (hv : leBytes n v = leBytes n v') : MemoryTakes s t a n v' :=
  ⟨h.1.trans hv, h.2⟩
/-- The state in which an operation has left its bank's queue. -/
def bankTaken (s : State) (k n : Nat) : State := s.modPkg k (fun p => { p with bankQ := p.bankQ.eraseIdx n })
/-- The words of a number that a location held. -/
theorem words_ofNat (x : Nat) : lo32 (BitVec.ofNat 64 x) = BitVec.ofNat 32 x ∧ hi32 (BitVec.ofNat 64 x) = BitVec.ofNat 32 (x / 2 ^ 32) := by
  constructor
  · exact BitVec.eq_of_toNat_eq (by rw [toNat_lo32, BitVec.toNat_ofNat, BitVec.toNat_ofNat]; exact Nat.mod_mod_of_dvd _ (by decide))
  · refine BitVec.eq_of_toNat_eq ?_
    unfold hi32
    rw [BitVec.toNat_setWidth, BitVec.toNat_ushiftRight, BitVec.toNat_ofNat, BitVec.toNat_ofNat, Nat.shiftRight_eq_div_pow]
    omega
section
variable {s : State} {k n : Nat} {b : BankOp} (hb : (s.pkg k).bankQ[n]? = some b) (hr : b.rcd = false) (hm : s.mayApply k n = true)
include hb hr hm
theorem bankAlu_after : ∃ t, exec (.bankAluApply k n) s = .next t ∧ AfterUpdate (bankUpdated (bankTaken s k n) k b) t := by
  refine ⟨_, ?_, applyOp_after hr⟩
  refine Eq.trans (show _ = execBankAluApply k n s from rfl) ?_
  unfold execBankAluApply
  rw [hm, hb]
  rfl
/-- An application of which the update is known. -/
theorem bankAlu_gives {len v : Nat} (h1 : MemoryTakes s (bankUpdated (bankTaken s k n) k b) b.addr len v)
    (h2 : ((bankUpdated (bankTaken s k n) k b).pkg k).bankQ = ((bankTaken s k n).pkg k).bankQ) :
    After (.bankAluApply k n) s (fun t => MemoryTakes s t b.addr len v ∧ (t.pkg k).bankQ = (s.pkg k).bankQ.eraseIdx n) := by
  obtain ⟨t, hx, ht⟩ := bankAlu_after hb hr hm
  refine ⟨t, hx, ⟨by rw [ht.mem]; exact h1.1, fun c hc => by rw [ht.mem]; exact h1.2 c hc⟩, ?_⟩
  rw [ht.bankQ, h2, bankTaken, State.pkg_modPkg_self]
/-- An application that answers the lane that waits for it. -/
theorem bankAlu_replies {v : W64} {u : State} {x : Nat} (hu : bankUpdated (bankTaken s k n) k b = u.fillVal b.wid b.lane b.tag v) (hv : v = BitVec.ofNat 64 x) (hl : ∀ w l, u.lane w l = s.lane w l)
    (hlane : b.lane < 32) {ds : List Dst} (hd : ds.Nodup) (h2 : ds.length ≤ 2)
    (h : ((s.lane b.wid b.lane).pend.filter (fun e => e.tag == b.tag)).map (fun e => e.dst) = ds) :
    After (.bankAluApply k n) s (fun t => owedUnder (t.lane b.wid b.lane) b.tag =
      (ds.zip [BitVec.ofNat 32 x, BitVec.ofNat 32 (x / 2 ^ 32)]).map (fun r => (r.1, r.2, true))) := by
  obtain ⟨t, hx, ht⟩ := bankAlu_after hb hr hm
  refine ⟨t, hx, ?_⟩
  dsimp only
  rw [ht.lane, hu, ← (words_ofNat x).1, ← (words_ofNat x).2, ← hv]
  exact fillVal_owed hlane hd h2 (by rw [hl]; exact h)
end
theorem bankTaken_noneAbout {s : State} {k n a len : Nat} (h : NoneAbout s a len) : NoneAbout (bankTaken s k n) a len := h
section
variable {s : State} {k : Nat} {b : BankOp}
/-- The release that an operation leaves with its location (R253). -/
def bankRel (k : Nat) (b : BankOp) : Option (Nat × Nat) := if b.rel = some .core then some (podCore k b.core, b.id) else none
theorem bankUpdated_rmw {o : AtomOp} {w : Bool} {d : W64} (hw : b.work = .rmw o w d) :
    let r := s.update b.addr (atomBytes w) (fun m => atomNew o w m d) (bankRel k b)
    bankUpdated s k b = if b.ret then r.2.fillVal b.wid b.lane b.tag r.1 else r.2 := by
  unfold bankUpdated bankRel
  rw [hw]
theorem bankUpdated_cas {w : Bool} {d e : W64} (hw : b.work = .cas w d e) :
    let r := s.update b.addr (atomBytes w) (fun m => casNew m (atomTrim w d) (atomTrim w e)) (bankRel k b)
    bankUpdated s k b = r.2.fillVal b.wid b.lane b.tag r.1 := by
  unfold bankUpdated bankRel
  rw [hw]
/-- The number that an element reads beside its own place. -/
def bopOther (s : State) (op x n : Nat) : W64 := if op < 2 then 0 else BitVec.ofNat 64 (numberAt s x n)
theorem bankUpdated_elem {op ty q x : Nat} {a : W64} {st : Bool} (hw : b.work = .elem op ty q x a st) (hx : 2 ≤ op → NoneAbout s x (bopBytes ty)) :
    bankUpdated s k b = (s.update b.addr (bopBytes ty) (fun y => bopVal op ty y (bopOther s op x (bopBytes ty)) a) none).2.modPkg k
      (fun p => { p with bops := p.bops.map (fun (p : BopRec) => if p.id = q then { p with left := p.left - 1 } else p) }) := by
  unfold bankUpdated bopOther
  rw [hw]
  dsimp only
  by_cases h : op < 2
  · rw [if_pos h, if_pos h, if_pos h]
  · rw [if_neg h, if_neg h, if_neg h, settleRange_of_none (hx (Nat.not_lt.1 h))]
    rfl
end
/-- Settles O23: the update of its location by what the operation is; then what an application leaves unchanged behind it. -/
theorem bankOperations : Obligations.BankOperations := by
  intro s k n b hb hr
  refine ⟨fun hm => ?_, ?_⟩
  · refine Eq.trans (show _ = execBankAluApply k n s from rfl) ?_
    unfold execBankAluApply
    rw [hm]
    rfl
  · intro hm gives replies
    have hupd : ∀ {len : Nat} (f : W64 → W64) (rel : Option (Nat × Nat)), NoneAbout s b.addr len →
        (((bankTaken s k n).update b.addr len f rel).1 = BitVec.ofNat 64 (numberAt s b.addr len) ∧
        MemoryTakes s ((bankTaken s k n).update b.addr len f rel).2 b.addr len (f (BitVec.ofNat 64 (numberAt s b.addr len))).toNat) ∧
        (∀ w l, ((bankTaken s k n).update b.addr len f rel).2.lane w l = s.lane w l) := by
      intro len f rel hn
      have hn' : NoneAbout (bankTaken s k n) b.addr len := hn
      refine ⟨update_of_none hn' f rel, fun w l => ?_⟩
      unfold State.lane State.wave
      rw [(update_memoryOnly hn' f rel).waves]
      rfl
    have hbanks : ∀ {len : Nat} (f : W64 → W64) (rel : Option (Nat × Nat)), BanksSame (bankTaken s k n) ((bankTaken s k n).update b.addr len f rel).2 :=
      fun f rel => update_banks _ _ _ f rel
    cases hw : b.work with
    | rmw o w d =>
      refine ⟨fun hn => bankAlu_gives hb hr hm ?_ ?_, fun hret hn hlane ds hd h2 h => ?_⟩
      · rw [bankUpdated_rmw hw]
        have ht := (hupd (fun m => atomNew o w m d) (bankRel k b) hn).1.2.congr (atomNew_leaves o w (numberAt_lt ..) d)
        split <;> exact ht
      · rw [bankUpdated_rmw hw]
        have hs := hbanks (len := atomBytes w) (fun m => atomNew o w m d) (bankRel k b)
        split <;> exact hs.bankQ k
      · obtain ⟨⟨hv, -⟩, hl⟩ := hupd (fun m => atomNew o w m d) (bankRel k b) hn
        exact bankAlu_replies hb hr hm ((bankUpdated_rmw hw).trans (if_pos hret)) hv hl hlane hd h2 h
    | cas w d e =>
      refine ⟨fun hn => bankAlu_gives hb hr hm ?_ ?_, fun hn hlane ds hd h2 h => ?_⟩
      · rw [bankUpdated_cas hw]
        exact (hupd (fun m => casNew m (atomTrim w d) (atomTrim w e)) (bankRel k b) hn).1.2.congr (congrArg _ (casNew_leaves w (numberAt_lt ..) d e))
      · rw [bankUpdated_cas hw]
        have hs := hbanks (len := atomBytes w) (fun m => casNew m (atomTrim w d) (atomTrim w e)) (bankRel k b)
        exact hs.bankQ k
      · obtain ⟨⟨hv, -⟩, hl⟩ := hupd (fun m => casNew m (atomTrim w d) (atomTrim w e)) (bankRel k b) hn
        exact bankAlu_replies hb hr hm (bankUpdated_cas hw) hv hl hlane hd h2 h
    | elem op ty q x a st =>
      dsimp only
      intro hx
      have hbu := bankUpdated_elem (s := bankTaken s k n) (k := k) hw hx
      have hother : bopOther (bankTaken s k n) op x (bopBytes ty) = BitVec.ofNat 64 (if 2 ≤ op then numberAt s x (bopBytes ty) else 0) := by
        unfold bopOther
        by_cases h : op < 2
        · rw [if_pos h, if_neg (Nat.not_le.2 h)]
          rfl
        · rw [if_neg h, if_pos (Nat.not_lt.1 h)]
          rfl
      rw [hother] at hbu
      refine ⟨fun hn => bankAlu_gives hb hr hm ?_ ?_, ?_⟩
      · rw [hbu]
        have ht := (hupd (fun y => bopVal op ty y (BitVec.ofNat 64 (if 2 ≤ op then numberAt s x (bopBytes ty) else 0)) a) none hn).1.2
        refine ht.congr (bopVal_leaves op ty (numberAt_lt ..) ?_ a)
        split
        · exact numberAt_lt ..
        · exact Nat.pow_pos (by decide)
      · rw [hbu, State.pkg_modPkg_self]
        exact (hbanks _ none).bankQ k
      · obtain ⟨t, hxx, ht⟩ := bankAlu_after hb hr hm
        refine ⟨t, hxx, fun p hp => ?_⟩
        rw [ht.bops, hbu, State.pkg_modPkg_self] at hp
        obtain ⟨p0, hp0, rfl⟩ := List.mem_map.1 hp
        rw [(hbanks _ none).bops, bankTaken, State.pkg_modPkg_self] at hp0
        exact ⟨p0, hp0, rfl⟩

end Sys2Proof
end

