-- ==== Sys2Proof/Proofs/Atomics.lean ====
section
/-! SUPPORT. Atomics outside deterministic and recorded launches (R187 to R189, R345). -/

namespace Sys2Proof

open Machine

/-! ### The operations of an atomic -/

theorem memOrd_acq (o : MemOrd) : Machine.MemOrd.acq o = true ↔ o = .acq ∨ o = .ar := by cases o <;> decide
theorem memOrd_rel (o : MemOrd) : Machine.MemOrd.rel o = true ↔ o = .rel ∨ o = .ar := by cases o <;> decide
/-- The operand of an atomic in a lane. -/
def atomOperand (s : State) (w : Bool) (r : Reg) (l : Nat) : W64 := if w then s.src64 s.cur.wid l r else (s.src s.cur.wid l r).setWidth 64
theorem atomArg_eq (s : State) (w : Bool) (l : Nat) (r : Reg) : s.atomArg w l r = atomOperand s w r l := by cases w <;> rfl
/-- What an atomic's bank is to do for a lane. -/
def atomTask (s : State) (m : Mods) (kind : AtomKind) (o : AtomOp) (w : Bool) (d : Reg) (l : Nat) : BankWork :=
  atomWork kind o w (atomOperand s w d l) (atomOperand s w (m.eReg.getD 120) l)
/-- A lane's operation, as the bank takes it (R345). -/
def atomBankOp (s : State) (m : Mods) (kind : AtomKind) (o : AtomOp) (w : Bool) (d : Reg) (key : Nat → Nat) (l : Nat) : BankOp :=
  { id := s.nextId, wid := s.cur.wid, lane := l, core := s.curTroupe.core, ctx := s.curCtx, launch := s.curTroupe.launch, addr := key l,
    work := atomTask s m kind o w d l, ret := kind != .red, tag := s.nextId, rel := if Machine.MemOrd.rel m.syncOrd then some m.syncScope else none,
    acq := if Machine.MemOrd.acq m.syncOrd && !(m.syncSpace == .s) then some m.syncScope else none, lseq := (s.lane s.cur.wid l).rseq, rcd := false, ent := none }
/-- What each lane of the path is owed. -/
def atomOwes (s : State) (m : Mods) (w : Bool) (d : Reg) (go : List (Nat × Nat)) (l : Nat) (x : Lane) : Lane :=
  if go.any (fun e => e.1 == l) then x.owe false s.nextId (dstRegs d (if w then 2 else 1))
  else if !m.active x && m.zero then x.send none s.nextId (zeroOuts (dstRegs d (if w then 2 else 1))) else x
section
variable (s : State) (m : Mods) (kind : AtomKind) (w : Bool) (d : Reg) (vas : List W64) (go : List (Nat × Nat)) (ops : List BankOp) (rels : List (Nat × Nat))
/-- The states of an atomic that is done: what its lanes are owed, the lines it drops, its operations, what an acquire does. -/
def atomOwed : State :=
  let s1 := { s with nextId := s.nextId + 1 }.walked m.syncSpace vas
  let s2 := if kind != .red then s1.updLanes s.cur.wid (lanesOf s.cur.lanes) (atomOwes s m w d go) else s1
  go.foldl (fun u e => u.dropCoreLines s.curTroupe.pkg s.curTroupe.core e.2 (atomBytes w)) s2
def atomQueued (u : State) : State :=
  (u.modPkg s.curPkg (fun p => { p with bankQ := p.bankQ ++ ops })).modWave s.cur.wid (fun v =>
    if Machine.MemOrd.acq m.syncOrd && !ops.isEmpty then { v with holdMem := v.holdMem ++ [s.nextId] } else v)
def atomAcquired (u : State) : State := if Machine.MemOrd.acq m.syncOrd then (u.acquireLines m.syncScope).observe s.cur.wid m.syncScope rels else u
def atomLocked (u : State) : State :=
  if kind == .red && m.syncSpace != .s && !go.isEmpty then u.modTroupe s.curTid (fun t => { t with lock := true }) else u
def atomDone : State :=
  atomLocked s m kind go (atomAcquired s m rels
    (if m.syncSpace == .s then ops.foldl (fun u b => u.applyOp s.curPkg b) (atomOwed s m kind w d vas go) else atomQueued s m ops (atomOwed s m kind w d vas go)))
end
theorem logUse_plain {s : State} (h : s.curTroupe.hdr.rcd = false) : s.logUse = .plain := by
  unfold State.logUse
  rw [h]
  rfl
theorem logAsk_plain {s : State} (h : s.curTroupe.hdr.rcd = false) (l die bank kind val before : Nat) : s.logAsk l die bank kind val before = .go none := by
  unfold State.logAsk
  rw [logUse_plain h]
/-- Answers of the log of a launch that records nothing. -/
def plainAsks (here : List (Nat × Nat)) : List (Nat × LogAns) := here.zipIdx.map (fun e => (e.1.1, LogAns.go none))
theorem plainAsks_go (here : List (Nat × Nat)) : ∀ x ∈ plainAsks here, x.2 = .go none := fun x hx => by
  obtain ⟨e, -, rfl⟩ := List.mem_map.1 hx
  rfl
theorem plainAsks_wait (here : List (Nat × Nat)) : (plainAsks here).any (fun e => e.2 == .wait) = false :=
  List.any_eq_false.2 fun x hx => by rw [plainAsks_go here x hx]; decide
theorem plainAsks_ent (here : List (Nat × Nat)) (p : Nat × LogAns → Bool) : ((plainAsks here).find? p).bind (fun x => LogAns.ent x.2) = none := by
  cases h : (plainAsks here).find? p with
  | none => rfl
  | some x => rw [Option.bind_some, plainAsks_go here x (List.mem_of_find?_eq_some h)]; rfl
theorem plainAsks_filterMap {here : List (Nat × Nat)} {f : Nat × LogAns → Option StopRec} (hf : ∀ l, f (l, .go none) = none) :
    (plainAsks here).filterMap f = [] := by
  refine List.filterMap_eq_nil_iff.2 fun x hx => ?_
  obtain ⟨e, -, rfl⟩ := List.mem_map.1 hx
  exact hf e.1.1
theorem filter_noStops (l : List (Nat × Nat)) : l.filter (fun e => !(([] : List StopRec).any (fun r => r.lane == e.1))) = l :=
  List.filter_eq_self.2 fun _ _ => rfl
section
variable {i : Instr} {s : State} {m : Mods} {kind : AtomKind} {o : AtomOp} {w : Bool} {d a : Reg} (hdet : s.curTroupe.hdr.det = false)
include hdet
theorem atomGo_waits (h : s.walkWait m.syncSpace ((s.activeLanes m).map (addrOf s m.syncSpace a m.syncOff)) = true) :
    WaitsForWalks i s (atomGo i s m kind o w d a) ((s.activeLanes m).map (addrOf s m.syncSpace a m.syncOff)) := by
  unfold atomGo
  dsimp only
  rw [laneAccs_vas, hdet, h, Bool.false_and, Bool.false_and, if_neg Bool.false_ne_true, if_pos rfl]
  exact waitAt_walks h
variable (hrcd : s.curTroupe.hdr.rcd = false) (hw : s.walkWait m.syncSpace ((s.activeLanes m).map (addrOf s m.syncSpace a m.syncOff)) = false)
include hrcd hw
theorem atomGo_here {key : Nat → Nat} {c : Nat → Bool}
    (h : ∀ l, On s m l → checkOf s m.syncSpace kind.acc (atomBytes w) (addrOf s m.syncSpace a m.syncOff l) = .ok (.at_ (key l) (c l)) ∧
      s.poisoned (key l) (atomBytes w) = false)
    (hrel : Machine.MemOrd.rel m.syncOrd = true → m.syncScope = .pod → (s.pkg s.curPkg).copying s.cur.wid = false ∧ (s.pkg s.curPkg).outstanding = [] ∧
      (s.wave s.cur.wid).discarded = [])
    (hs : m.syncSpace = .s → Machine.MemOrd.rel m.syncOrd = false ∧ ∀ l, On s m l → s.ownStore l (key l) (atomBytes w) = false ∧ s.ownBehind l (key l) (atomBytes w) = false) :
    ∃ rels, (m.syncSpace ≠ .s → rels = []) ∧ atomGo i s m kind o w d a = finish (atomDone s m kind w d ((s.activeLanes m).map (addrOf s m.syncSpace a m.syncOff))
      ((s.activeLanes m).map (fun l => (l, key l))) ((s.activeLanes m).map (atomBankOp s m kind o w d key)) rels) [] := by
  obtain ⟨h1, h2, h3, -⟩ := acc_of_here fun l hl => (h l hl).1
  unfold atomGo
  dsimp only
  rw [laneAccs_vas, hdet, hw, Bool.false_and, Bool.false_and, if_neg Bool.false_ne_true, if_neg Bool.false_ne_true, if_neg Bool.false_ne_true, h1, h2]
  simp only [logAsk_plain hrcd, ite_self]
  rw [show ∀ l : List (Nat × Nat), l.zipIdx.map (fun e => (e.1.1, LogAns.go none)) = plainAsks l from fun _ => rfl]
  rw [plainAsks_filterMap, filter_noStops, plainAsks_wait]
  have hroom : s.partsRoom [] = true := rfl
  have hsteer : s.steerRoom (([] : List (Nat × Nat × W64)).map (fun e => e.1)) = true := rfl
  have honce : (m.syncSpace == .s && ((s.activeLanes m).map (fun l => (l, key l))).any (fun e => s.ownStore e.1 e.2 (atomBytes w) || s.ownBehind e.1 e.2 (atomBytes w))) = false := by
    by_cases hsp : m.syncSpace = .s
    · rw [hsp, beq_self_eq_true, Bool.true_and, List.any_map, List.any_eq_false]
      intro l hl
      obtain ⟨h4, h5⟩ := (hs hsp).2 l (mem_activeLanes.1 hl)
      rw [Function.comp, h4, h5]
      decide
    · rw [beq_eq_false_iff_ne.2 hsp, Bool.false_and]
  have hpois : ((s.activeLanes m).map (fun l => (l, key l))).any (fun e => s.poisoned e.2 (atomBytes w)) = false := by
    simp only [List.any_map, List.any_eq_false, Function.comp, mem_activeLanes, Bool.not_eq_true]
    exact fun l hl => (h l hl).2
  rw [hroom, hsteer, if_neg (by decide), honce, if_neg Bool.false_ne_true, hpois, if_neg Bool.false_ne_true]
  have hact : ∀ act : State → State, (if Machine.MemOrd.rel m.syncOrd = true then
      afterRelease s m i m.syncScope (m.syncSpace == .s || !([] : List (Nat × Nat × W64)).isEmpty) act else act s) = act s := by
    intro act
    split
    · next hr =>
      have hsp : (m.syncSpace == .s) = false := beq_eq_false_iff_ne.2 fun e => by
        rw [(hs e).1] at hr
        exact Bool.false_ne_true hr
      rw [hsp]
      exact afterRelease_goes (hrel hr)
    · rfl
  refine ⟨if (Machine.MemOrd.acq m.syncOrd && m.syncSpace == .s) = true then
    (((s.activeLanes m).map (fun l => (l, key l))).map (fun e => s.relsAt s.curTroupe.pkg s.curTroupe.core e.2 (atomBytes w))).flatten else [], fun hsp => ?_, (hact _).trans ?_⟩
  · rw [beq_eq_false_iff_ne.2 hsp, Bool.and_false, if_neg Bool.false_ne_true]
  · rw [h3, logUse_plain hrcd]
    simp only [plainAsks_ent, sendParts_nil, atomArg_eq, List.any_nil, Bool.false_eq_true, if_false, bne_self_eq_false, Bool.and_false, List.map_map, List.isEmpty_nil,
      Bool.and_true, List.append_nil]
    unfold atomDone atomLocked atomAcquired atomQueued atomOwed
    rfl
  exact fun _ => rfl
end

/-! ### What an atomic leaves unchanged -/

theorem WaveBecomes.own {s t : State} {g g' : Wave → Wave} {f : Nat → Lane → Lane} (h : WaveBecomes s t g f) (hg : g (s.wave s.cur.wid) = g' (s.wave s.cur.wid)) :
    WaveBecomes s t g' f := ⟨h.waves, by rw [← hg]; exact h.rest, h.lanes⟩
theorem any_laneKey (ls : List Nat) (key : Nat → Nat) (l : Nat) : (ls.map (fun l => (l, key l))).any (fun e => e.1 == l) = true ↔ l ∈ ls := by
  simp only [List.any_map, List.any_eq_true, Function.comp, beq_iff_eq, exists_eq_right]
/-- A change of caches and lanes that takes a number. -/
structure LanesAndCaches (s u : State) (g : Wave → Wave) (f : Nat → Lane → Lane) : Prop where
  frame : u = { s with waves := u.waves, pkgs := u.pkgs, walks := u.walks, nextId := s.nextId + 1 }
  caches : CachesOnly s u
  becomes : WaveBecomes s u g f
section
variable {s u : State} {g : Wave → Wave} {f : Nat → Lane → Lane}
theorem walked_lanes (s : State) (sp : Space) (vas : List W64) : LanesAndCaches s ({ s with nextId := s.nextId + 1 }.walked sp vas) id (fun _ x => x) := by
  have h := walked_used s sp vas
  have hw : State.waves ({ s with nextId := s.nextId + 1 }.walked sp vas) = s.waves := by rw [h.frame]
  refine ⟨?_, h.caches, (waveBecomes_refl s).of_waves hw⟩
  rw [hw]
  exact h.frame
theorem LanesAndCaches.updPath (h : LanesAndCaches s u g f) (f2 : Nat → Lane → Lane) :
    LanesAndCaches s (u.updLanes s.cur.wid (lanesOf s.cur.lanes) f2) g (fun l x => f2 l (f l x)) := by
  refine ⟨?_, cachesOnly_congr h.caches rfl rfl, h.becomes.updPath f2⟩
  exact Eq.trans (b := { u with waves := (u.updLanes s.cur.wid (lanesOf s.cur.lanes) f2).waves }) rfl
    (Eq.trans (congrArg (fun x : State => { x with waves := (u.updLanes s.cur.wid (lanesOf s.cur.lanes) f2).waves }) h.frame) rfl)
theorem LanesAndCaches.lines {v : State} (h : LanesAndCaches s u g f) (hl : LinesOnly u v) : LanesAndCaches s v g f := by
  have hw : v.waves = u.waves ∧ v.walks = u.walks := by
    rw [hl.frame]
    exact ⟨rfl, rfl⟩
  refine ⟨?_, h.caches.trans hl.cachesOnly, h.becomes.of_waves hw.1⟩
  have hf := hl.frame
  rw [h.frame, ← hw.1, ← hw.2] at hf
  exact hf
theorem LanesAndCaches.curTroupe (h : LanesAndCaches s u g f) (hg : (g (s.wave s.cur.wid)).tid = (s.wave s.cur.wid).tid) :
    u.curTroupe = s.curTroupe ∧ u.curPkg = s.curPkg := by
  have ht : u.curTid = s.curTid := by
    have hc : u.cur = s.cur := by rw [h.frame]
    unfold State.curTid State.curWave
    rw [hc, h.becomes.rest]
    exact hg
  have htr : u.troupes = s.troupes := by rw [h.frame]
  unfold State.curPkg State.curTroupe State.troupe
  rw [ht, htr]
  exact ⟨rfl, rfl⟩
end
theorem atomOwed_lanes (s : State) (m : Mods) (kind : AtomKind) (w : Bool) (d : Reg) (vas : List W64) (go : List (Nat × Nat)) :
    LanesAndCaches s (atomOwed s m kind w d vas go) id (fun l x => if kind != .red then atomOwes s m w d go l x else x) := by
  unfold atomOwed
  have h := walked_lanes s m.syncSpace vas
  dsimp only
  generalize State.walked { s with nextId := s.nextId + 1 } m.syncSpace vas = u at h
  refine LanesAndCaches.lines ?_ (LinesOnly.fold (fun u (e : Nat × Nat) => modLines_only u _ _ (fun l => dropLines l e.2 (atomBytes w))) go _)
  cases kind != .red
  · exact h
  · exact h.updPath _
/-- How an acquire holds back the wave's accesses. -/
def holding (s : State) (m : Mods) (ops : List BankOp) (v : Wave) : Wave :=
  if Machine.MemOrd.acq m.syncOrd && !ops.isEmpty then { v with holdMem := v.holdMem ++ [s.nextId] } else v
theorem holding_own (s : State) (m : Mods) (ops : List BankOp) : (∀ v, (holding s m ops v).lanes = v.lanes ∧ (holding s m ops v).tid = v.tid) ∧
    ∀ v ls, holding s m ops { v with lanes := ls } = { holding s m ops v with lanes := ls } := by
  unfold holding
  split
  · exact ⟨fun _ => ⟨rfl, rfl⟩, fun _ _ => rfl⟩
  · exact ⟨fun _ => ⟨rfl, rfl⟩, fun _ _ => rfl⟩
section
variable {s u : State} {m : Mods} {f : Nat → Lane → Lane} (h : LanesAndCaches s u id f) (ops : List BankOp)
include h
theorem atomQueued_becomes : WaveBecomes s (atomQueued s m ops u) (holding s m ops) f := by
  have hb : WaveBecomes s (u.modPkg s.curPkg (fun p => { p with bankQ := p.bankQ ++ ops })) id f := h.becomes.of_waves rfl
  exact hb.modWave (fun v => ((holding_own s m ops).1 v).1) (holding_own s m ops).2
theorem atomQueued_bankQ : ((atomQueued s m ops u).pkg s.curPkg).bankQ = (s.pkg s.curPkg).bankQ ++ ops := by
  have hq : (u.pkg s.curPkg).bankQ = (s.pkg s.curPkg).bankQ := by
    rw [(h.caches.1 s.curPkg).1]
  refine Eq.trans (show _ = ((u.modPkg s.curPkg (fun p => { p with bankQ := p.bankQ ++ ops })).pkg s.curPkg).bankQ from rfl) ?_
  rw [State.pkg_modPkg_self, hq]
theorem atomQueued_core : (atomQueued s m ops u).curTroupe = s.curTroupe ∧ (atomQueued s m ops u).curPkg = s.curPkg := by
  have ht : (atomQueued s m ops u).curTid = s.curTid := by
    have hc : (atomQueued s m ops u).cur = s.cur := Eq.trans (show _ = u.cur from rfl) (by rw [h.frame])
    unfold State.curTid State.curWave
    rw [hc, (atomQueued_becomes h ops).rest]
    exact ((holding_own s m ops).1 _).2
  have htr : (atomQueued s m ops u).troupes = s.troupes := Eq.trans (show _ = u.troupes from rfl) (by rw [h.frame])
  unfold State.curPkg State.curTroupe State.troupe
  rw [ht, htr]
  exact ⟨rfl, rfl⟩
/-- What an acquire does behind the operations: the cache of its core is empty, and nothing else changes. -/
theorem atomAcquired_facts : let v := atomQueued s m ops u
    let t := atomAcquired s m [] v
    t = { v with waves := t.waves, pkgs := t.pkgs } ∧ (t.pkg s.curPkg).bankQ = (v.pkg s.curPkg).bankQ ∧
      (Machine.MemOrd.acq m.syncOrd = true → m.syncScope ≠ .core → (t.core s.curPkg s.curTroupe.core).lines = []) ∧ WaveBecomes s t (holding s m ops) f := by
  obtain ⟨hct, hcp⟩ := atomQueued_core h (m := m) ops
  have hb := atomQueued_becomes h (m := m) ops
  dsimp only
  generalize atomQueued s m ops u = v at hct hcp hb
  unfold atomAcquired
  by_cases ha : Machine.MemOrd.acq m.syncOrd = true
  · rw [if_pos ha]
    unfold State.acquireLines State.observe
    by_cases hc : m.syncScope = .core
    · rw [if_pos hc, if_pos hc]
      exact ⟨rfl, rfl, fun _ h => absurd hc h, hb⟩
    · rw [if_neg hc, if_neg hc, hct, hcp]
      refine ⟨rfl, ?_, fun _ _ => lines_emptyLines v s.curPkg s.curTroupe.core, ?_⟩
      · exact Eq.trans (show _ = ((v.emptyLines s.curPkg s.curTroupe.core).pkg s.curPkg).bankQ from rfl) (by rw [pkg_emptyLines])
      · have hw : WaveBecomes s (v.emptyLines s.curPkg s.curTroupe.core) (holding s m ops) f := hb.of_waves rfl
        refine (hw.modWave (k := fun v => { v with relHold := v.relHold ++ ([] : List (Nat × Nat)).map (fun r => (r.1, r.2, m.syncScope)) })
          (fun _ => rfl) (fun _ _ => rfl)).own ?_
        rw [List.map_nil, List.append_nil]
  · rw [if_neg ha]
    exact ⟨rfl, rfl, fun h => absurd h ha, hb⟩
/-- What an atomic that goes to the banks leaves, when its path has gone on. -/
theorem atomDone_queued (kind : AtomKind) (go : List (Nat × Nat)) : let t := finish (atomLocked s m kind go (atomAcquired s m [] (atomQueued s m ops u))) []
    t.mem = s.mem ∧ t.writes = s.writes ∧ (t.pkg s.curPkg).bankQ = (s.pkg s.curPkg).bankQ ++ ops ∧
      (Machine.MemOrd.acq m.syncOrd = true → m.syncScope ≠ .core → (t.core s.curPkg s.curTroupe.core).lines = []) ∧
      WaveBecomes s t (holding s m ops) (fun l x => goOn s l (f l x)) := by
  obtain ⟨hf, hq, hl, hb⟩ := atomAcquired_facts h (m := m) ops
  have hq' := hq.trans (atomQueued_bankQ h ops)
  have hv : (atomQueued s m ops u).mem = s.mem ∧ (atomQueued s m ops u).writes = s.writes ∧ (atomQueued s m ops u).cur = s.cur := by
    refine ⟨Eq.trans (show _ = u.mem from rfl) ?_, Eq.trans (show _ = u.writes from rfl) ?_, Eq.trans (show _ = u.cur from rfl) ?_⟩ <;> rw [h.frame]
  generalize atomAcquired s m [] (atomQueued s m ops u) = v at hf hq' hl hb
  have hk : v.mem = s.mem ∧ v.writes = s.writes ∧ v.cur = s.cur := by
    rw [hf]
    exact hv
  have hlock : ∀ x : State, x.mem = v.mem → x.writes = v.writes → x.cur = v.cur → x.pkgs = v.pkgs → x.waves = v.waves →
      let t := finish x []
      t.mem = s.mem ∧ t.writes = s.writes ∧ (t.pkg s.curPkg).bankQ = (s.pkg s.curPkg).bankQ ++ ops ∧
      (Machine.MemOrd.acq m.syncOrd = true → m.syncScope ≠ .core → (t.core s.curPkg s.curTroupe.core).lines = []) ∧
      WaveBecomes s t (holding s m ops) (fun l x => goOn s l (f l x)) := by
    intro x h1 h2 h3 h4 h5
    have hp : ∀ k, x.pkg k = v.pkg k := fun k => by unfold State.pkg; rw [h4]
    refine ⟨(mem_finish x).trans (h1.trans hk.1), ?_, ?_, fun ha hc => ?_, (hb.of_waves h5).finish (h3.trans hk.2.2)⟩
    · rw [finish_nil]
      exact h2.trans hk.2.1
    · rw [finish_nil]
      exact (congrArg Pkg.bankQ (hp _)).trans hq'
    · rw [core_advance]
      exact (congrArg (fun (p : Pkg) => (p.core s.curTroupe.core).lines) (hp _)).trans (hl ha hc)
  unfold atomLocked
  split
  · exact hlock _ rfl rfl rfl rfl rfl
  · exact hlock _ rfl rfl rfl rfl rfl
end

/-! ### Atomics at the banks -/

theorem atomOwes_owes {s : State} {m : Mods} {w : Bool} {d : Reg} (key : Nat → Nat) {l : Nat} (hl : s.cur.lanes.getLsbD l = true) :
    atomOwes s m w d ((s.activeLanes m).map (fun l => (l, key l))) l (s.lane s.cur.wid l) =
      owes m false s.nextId (if w then regs2 d else regs1 d) (s.lane s.cur.wid l) := by
  have hds : dstRegs d (if w then 2 else 1) = if w then regs2 d else regs1 d := by
    cases w
    · exact dstRegs_one d
    · exact dstRegs_two d
  unfold atomOwes owes
  rw [hds]
  by_cases ha : m.active (s.lane s.cur.wid l) = true
  · rw [if_pos ((any_laneKey ..).2 (mem_activeLanes.2 ⟨hl, ha⟩)), if_pos ha]
    rfl
  · rw [if_neg (fun h => ha (mem_activeLanes.1 ((any_laneKey ..).1 h)).2), if_neg ha, Bool.eq_false_iff.2 ha, Bool.not_false, Bool.true_and]
    rfl
theorem holding_iff (s : State) (m : Mods) (f : Nat → BankOp) (v : Wave) : holding s m ((s.activeLanes m).map f) v =
    if (m.syncOrd = .acq ∨ m.syncOrd = .ar) ∧ s.someActive m = true then { v with holdMem := v.holdMem ++ [s.nextId] } else v := by
  unfold holding
  rw [List.isEmpty_map]
  refine if_congr ?_ rfl rfl
  rw [Bool.and_eq_true, memOrd_acq]
  rfl
section
variable {i : Instr} {s : State} {m : Mods} {kind : AtomKind} {o : AtomOp} {w : Bool} {d a : Reg} {key : Nat → Nat} {c : Nat → Bool}
  (hx : exec i s = .next (atomGo i s m kind o w d a)) (hdet : s.curTroupe.hdr.det = false) (hrcd : s.curTroupe.hdr.rcd = false)
  (hw : s.walkWait m.syncSpace ((s.activeLanes m).map (addrOf s m.syncSpace a m.syncOff)) = false)
  (h : ∀ l, On s m l → checkOf s m.syncSpace kind.acc (atomBytes w) (addrOf s m.syncSpace a m.syncOff l) = .ok (.at_ (key l) (c l)) ∧
    s.poisoned (key l) (atomBytes w) = false)
include hx hdet hrcd hw h
theorem atom_queued (hrel : (m.syncOrd = .rel ∨ m.syncOrd = .ar) → m.syncScope = .pod → (s.pkg s.curPkg).copying s.cur.wid = false ∧
      (s.pkg s.curPkg).outstanding = [] ∧ (s.wave s.cur.wid).discarded = []) (hsp : m.syncSpace ≠ .s) :
    After i s (fun t => t.mem = s.mem ∧ t.writes = s.writes ∧
      (t.pkg s.curPkg).bankQ = (s.pkg s.curPkg).bankQ ++ (s.activeLanes m).map (atomBankOp s m kind o w d key) ∧
      ((m.syncOrd = .acq ∨ m.syncOrd = .ar) → m.syncScope ≠ .core → (t.core s.curPkg s.curTroupe.core).lines = []) ∧
      WaveBecomes s t (fun v => if (m.syncOrd = .acq ∨ m.syncOrd = .ar) ∧ s.someActive m = true then { v with holdMem := v.holdMem ++ [s.nextId] } else v)
        (fun l x => goOn s l (if kind != .red then owes m false s.nextId (if w then regs2 d else regs1 d) x else x))) := by
  obtain ⟨rels, hr, he⟩ := atomGo_here hdet hrcd hw h (i := i) (d := d) (o := o) (fun hr => hrel ((memOrd_rel _).1 hr)) (fun h => absurd h hsp)
  rw [hr hsp] at he
  refine ⟨_, hx, ?_⟩
  dsimp only
  rw [he]
  unfold atomDone
  rw [beq_eq_false_iff_ne.2 hsp, if_neg Bool.false_ne_true]
  obtain ⟨h1, h2, h3, h4, h5⟩ := atomDone_queued (m := m) (atomOwed_lanes s m kind w d ((s.activeLanes m).map (addrOf s m.syncSpace a m.syncOff))
    ((s.activeLanes m).map (fun l => (l, key l)))) ((s.activeLanes m).map (atomBankOp s m kind o w d key)) kind ((s.activeLanes m).map (fun l => (l, key l)))
  refine ⟨h1, h2, h3, fun ha => h4 ((memOrd_acq _).2 ha), WaveBecomes.own (WaveBecomes.congr h5 fun l hl => ?_) (holding_iff ..)⟩
  rw [atomOwes_owes key hl]
theorem atom_single (hsp : m.syncSpace = .s) (hord : m.syncOrd = .rlx) {e : Nat} (he : ∀ l, On s m l ↔ l = e)
    (hos : s.ownStore e (key e) (atomBytes w) = false) (hob : s.ownBehind e (key e) (atomBytes w) = false) :
    exec i s = .next (finish ((atomOwed s m kind w d ((s.activeLanes m).map (addrOf s m.syncSpace a m.syncOff)) ((s.activeLanes m).map (fun l => (l, key l)))).applyOp
      s.curPkg (atomBankOp s m kind o w d key e)) []) := by
  have hrlx : Machine.MemOrd.rel m.syncOrd = false ∧ Machine.MemOrd.acq m.syncOrd = false := by
    rw [hord]
    exact ⟨rfl, rfl⟩
  obtain ⟨rels, -, hgo⟩ := atomGo_here hdet hrcd hw h (i := i) (d := d) (o := o) (fun hr => absurd hr (by rw [hrlx.1]; decide))
    (fun _ => ⟨hrlx.1, fun l hl => by rw [(he l).1 hl]; exact ⟨hos, hob⟩⟩)
  rw [hx, hgo]
  unfold atomDone atomLocked atomAcquired
  rw [hrlx.2, hsp, beq_self_eq_true, if_pos rfl, if_neg Bool.false_ne_true, if_neg (by rw [bne_self_eq_false, Bool.and_false, Bool.false_and]; decide)]
  rw [activeLanes_single he]
  rfl
end
/-- The value that an atomic leaves where `x` stood. -/
def atomResult (s : State) (m : Mods) (kind : AtomKind) (o : AtomOp) (w : Bool) (d : Reg) (l x : Nat) : Nat :=
  match kind with
  | .cas => if x = (atomOperand s w d l).toNat then (atomOperand s w (m.eReg.getD 120) l).toNat else x
  | _ => atomLeaves o w x (atomOperand s w d l).toNat
theorem atomOperand_trim (s : State) (w : Bool) (r : Reg) (l : Nat) :
    (if w then (atomOperand s w r l).toNat else (atomOperand s w r l).toNat % 2 ^ 32) = (atomOperand s w r l).toNat := by
  cases w
  · have h := (s.src s.cur.wid l r).isLt
    exact Nat.mod_eq_of_lt (by unfold atomOperand; rw [if_neg Bool.false_ne_true, toNat_widened]; exact h)
  · rfl
/-- A bank's update for an atomic: the location takes its value, and what it held is the value for the lane that waits (R345). -/
structure AtomUpdated (s u t : State) (kind : AtomKind) (key n l v : Nat) : Prop where
  takes : MemoryTakes u t key n v
  replies : kind ≠ .red → ∃ y : State, t = y.fillVal s.cur.wid l s.nextId (BitVec.ofNat 64 (numberAt u key n)) ∧ ∀ w l, y.lane w l = u.lane w l
theorem bankUpdated_atomic {s u : State} {m : Mods} {kind : AtomKind} {o : AtomOp} {w : Bool} {d : Reg} {key : Nat → Nat} {l : Nat} (k : Nat)
    (hn : NoneAbout u (key l) (atomBytes w)) : AtomUpdated s u (bankUpdated u k (atomBankOp s m kind o w d key l)) kind (key l) (atomBytes w) l
      (atomResult s m kind o w d l (numberAt u (key l) (atomBytes w))) := by
  have hlane : ∀ (f : W64 → W64) (rel : Option (Nat × Nat)), (∀ w' l', (u.update (key l) (atomBytes w) f rel).2.lane w' l' = u.lane w' l') := by
    intro f rel w' l'
    unfold State.lane State.wave
    rw [(update_memoryOnly hn f rel).waves]
  have htrim := atomOperand_trim s w
  have hrmw := fun (f : W64 → W64) rel => update_of_none hn f rel
  cases kind
  case cas =>
    have hb := bankUpdated_cas (s := u) (k := k) (b := atomBankOp s m .cas o w d key l) (d := atomOperand s w d l) (e := atomOperand s w (m.eReg.getD 120) l) rfl
    obtain ⟨hv, ht⟩ := hrmw (fun x => casNew x (atomTrim w (atomOperand s w d l)) (atomTrim w (atomOperand s w (m.eReg.getD 120) l))) (bankRel k (atomBankOp s m .cas o w d key l))
    have hc := casNew_leaves w (numberAt_lt u (key l) (atomBytes w)) (atomOperand s w d l) (atomOperand s w (m.eReg.getD 120) l)
    dsimp only at hc
    simp only [htrim] at hc
    rw [hc] at ht
    rw [hb]
    exact ⟨ht, fun _ => ⟨_, congrArg (State.fillVal _ _ _ _) hv, hlane _ _⟩⟩
  case atom =>
    have hb := bankUpdated_rmw (s := u) (k := k) (b := atomBankOp s m .atom o w d key l) (o := o) (w := w) (d := atomOperand s w d l) rfl
    obtain ⟨hv, ht⟩ := hrmw (fun x => atomNew o w x (atomOperand s w d l)) (bankRel k (atomBankOp s m .atom o w d key l))
    have hc := atomNew_leaves o w (numberAt_lt u (key l) (atomBytes w)) (atomOperand s w d l)
    rw [htrim] at hc
    rw [hb]
    exact ⟨ht.congr hc, fun _ => ⟨_, congrArg (State.fillVal _ _ _ _) hv, hlane _ _⟩⟩
  case red =>
    have hb := bankUpdated_rmw (s := u) (k := k) (b := atomBankOp s m .red o w d key l) (o := o) (w := w) (d := atomOperand s w d l) rfl
    obtain ⟨-, ht⟩ := hrmw (fun x => atomNew o w x (atomOperand s w d l)) (bankRel k (atomBankOp s m .red o w d key l))
    have hc := atomNew_leaves o w (numberAt_lt u (key l) (atomBytes w)) (atomOperand s w d l)
    rw [htrim] at hc
    rw [hb]
    exact ⟨ht.congr hc, fun h => absurd rfl h⟩
/-- A lane's path goes on with what it is owed. -/
theorem pend_finish (u : State) (w l : Nat) : ((finish u []).lane w l).pend = (u.lane w l).pend := by
  have h := finish_goesOn u
  by_cases hw : w = u.cur.wid
  · subst hw
    rw [h.lanes]
    split
    · exact goOn_pend ..
    · rfl
  · unfold State.lane
    rw [h.waves w hw]
theorem owedUnder_finish (u : State) (w l tag : Nat) : owedUnder ((finish u []).lane w l) tag = owedUnder (u.lane w l) tag := by
  unfold owedUnder
  rw [pend_finish]
theorem owed_regs_nodup (w : Bool) (d : Reg) : (if w then regs2 d else regs1 d).Nodup ∧ (if w then regs2 d else regs1 d).length ≤ 2 := by
  have hne : Dst.g d ≠ Dst.g (d + 1) := fun h => by
    have hd := congrArg BitVec.toNat (Dst.g.inj h)
    rw [BitVec.toNat_add, show (1 : Reg).toNat = 1 from rfl] at hd
    omega
  unfold regs1 regs2
  cases w <;> by_cases hd : d.toNat < 120 <;> simp [hd, hne]
/-- A lane that is owed nothing under a tag and then registers is owed these. -/
theorem owedTo_owe {x : Lane} {tag : Nat} (h : ∀ e ∈ x.pend, e.tag ≠ tag) (remote : Bool) (ds : List Dst) : (x.owe remote tag ds).owedTo tag = ds := by
  have h1 : x.pend.filter (fun (e : Pend) => e.tag == tag) = [] := List.filter_eq_nil_iff.2 fun e he => by rw [beq_iff_eq]; exact h e he
  unfold Lane.owedTo Lane.owe
  rw [List.filter_append, h1, List.nil_append, List.filter_map, List.map_map]
  simp [Function.comp_def]
section
variable {i : Instr} {s : State} {m : Mods} {kind : AtomKind} {o : AtomOp} {w : Bool} {d a : Reg} {key : Nat → Nat} {c : Nat → Bool}
  (hx : exec i s = .next (atomGo i s m kind o w d a)) (hdet : s.curTroupe.hdr.det = false) (hrcd : s.curTroupe.hdr.rcd = false)
  (hw : s.walkWait m.syncSpace ((s.activeLanes m).map (addrOf s m.syncSpace a m.syncOff)) = false)
  (h : ∀ l, On s m l → checkOf s m.syncSpace kind.acc (atomBytes w) (addrOf s m.syncSpace a m.syncOff l) = .ok (.at_ (key l) (c l)) ∧
    s.poisoned (key l) (atomBytes w) = false)
include hx hdet hrcd hw h
theorem atom_scratch (hsp : m.syncSpace = .s) (hord : m.syncOrd = .rlx) {e : Nat} (he : ∀ l, On s m l ↔ l = e)
    (hos : s.ownStore e (key e) (atomBytes w) = false) (hob : s.ownBehind e (key e) (atomBytes w) = false) (hn : NoneAbout s (key e) (atomBytes w))
    (hp : ∀ x ∈ (s.lane s.cur.wid e).pend, x.tag ≠ s.nextId) :
    After i s (fun t => MemoryTakes s t (key e) (atomBytes w) (atomResult s m kind o w d e (numberAt s (key e) (atomBytes w))) ∧
      (kind ≠ .red → owedUnder (t.lane s.cur.wid e) s.nextId = ((if w then regs2 d else regs1 d).zip [BitVec.ofNat 32 (numberAt s (key e) (atomBytes w)),
        BitVec.ofNat 32 (numberAt s (key e) (atomBytes w) / 2 ^ 32)]).map (fun r => (r.1, r.2, true)))) := by
  refine ⟨_, atom_single hx hdet hrcd hw h hsp hord he hos hob, ?_⟩
  have hu := atomOwed_lanes s m kind w d ((s.activeLanes m).map (addrOf s m.syncSpace a m.syncOff)) ((s.activeLanes m).map (fun l => (l, key l)))
  dsimp only
  generalize atomOwed s m kind w d ((s.activeLanes m).map (addrOf s m.syncSpace a m.syncOff)) ((s.activeLanes m).map (fun l => (l, key l))) = u at hu ⊢
  have hmem : u.mem = s.mem ∧ u.writes = s.writes := by
    rw [hu.frame]
    exact ⟨rfl, rfl⟩
  have hnu : NoneAbout u (key e) (atomBytes w) := by
    unfold NoneAbout
    rw [hmem.2]
    exact hn
  have hnum : numberAt u (key e) (atomBytes w) = numberAt s (key e) (atomBytes w) := by
    unfold numberAt
    rw [hmem.1]
  have hon := (he e).2 rfl
  have hb := bankUpdated_atomic (s := s) (m := m) (kind := kind) (o := o) (d := d) s.curPkg hnu
  have hafter := applyOp_after (s := u) (k := s.curPkg) (b := atomBankOp s m kind o w d key e) rfl
  generalize u.applyOp s.curPkg (atomBankOp s m kind o w d key e) = t at hafter ⊢
  refine ⟨⟨?_, fun b hbb => ?_⟩, fun hk => ?_⟩
  · rw [mem_finish, hafter.mem, ← hnum]
    exact hb.takes.1
  · rw [mem_finish, hafter.mem, ← hmem.1]
    exact hb.takes.2 b hbb
  · obtain ⟨y, hy, hyl⟩ := hb.replies hk
    rw [owedUnder_finish, hafter.lane, hy, hnum]
    have hpend : (u.lane s.cur.wid e).owedTo s.nextId = if w then regs2 d else regs1 d := by
      have howe : owes m false s.nextId (if w then regs2 d else regs1 d) (s.lane s.cur.wid e) =
          (s.lane s.cur.wid e).owe false s.nextId (if w then regs2 d else regs1 d) := if_pos hon.2
      rw [hu.becomes.lanes, if_pos hon.1, if_pos (bne_iff_ne.2 hk), atomOwes_owes key hon.1, howe]
      exact owedTo_owe hp false _
    have := fillVal_owed (s := y) (w := s.cur.wid) (tag := s.nextId) (v := BitVec.ofNat 64 (numberAt s (key e) (atomBytes w)))
      (State.lane_lt_of_getLsbD hon.1) (owed_regs_nodup w d).1 (owed_regs_nodup w d).2 (by rw [hyl]; exact hpend)
    rwa [(words_ofNat _).1, (words_ofNat _).2] at this
end
/-- Settles O22: an atomic's state in four stages, with what each leaves unchanged; in the scratchpad, the bank's own update. -/
theorem atomics : Obligations.Atomics := by
  intro s m o w d a key c hdet hrcd n ds va arg claim
  have all : ∀ i kind o, exec i s = .next (atomGo i s m kind o w d a) → claim i kind.acc (kind != .red) (atomTask s m kind o w d) (atomResult s m kind o w d) := by
    intro i kind o hx
    refine ⟨fun hw => ⟨_, hx, atomGo_waits hdet hw⟩, fun hw h hrel => ⟨fun hsp => ?_, fun hsp hord e he hos hob hn hp => ?_⟩⟩
    · obtain ⟨t, ht, h1, h2, h3, h4, h5⟩ := atom_queued hx hdet hrcd hw h hrel hsp
      refine ⟨t, ht, h1, h2, h3.trans (congrArg (_ ++ ·) (List.map_congr_left fun l _ => ?_)), h4, h5⟩
      unfold atomBankOp
      rw [beq_eq_false_iff_ne.2 hsp, Bool.not_false, Bool.and_true, if_congr (memOrd_rel m.syncOrd) (Eq.refl (some m.syncScope)) rfl,
        if_congr (memOrd_acq m.syncOrd) (Eq.refl (some m.syncScope)) rfl]
    · obtain ⟨t, ht, h1, h2⟩ := atom_scratch hx hdet hrcd hw h hsp hord he hos hob hn hp
      exact ⟨t, ht, h1, fun hr => h2 (bne_iff_ne.1 hr)⟩
  exact ⟨all _ .atom o rfl, all _ .cas .xch rfl, all _ .red o rfl⟩

end Sys2Proof
end

