-- ==== Sys2Proof/Proofs/RangeOperations.lean ====
section
/-! SUPPORT. Range operations at the banks and their status (R191, R192, R347). -/

namespace Sys2Proof

open Machine

/-! ### Results that lanes are owed -/

theorem owe_eq_owes (m : Mods) (remote : Bool) (tag : Nat) (ds : List Dst) (x : Lane) :
    (if m.active x then x.owe remote tag ds else if m.zero then x.send none tag (zeroOuts ds) else x) = owes m remote tag ds x := rfl
theorem WaveBecomes.oweAll {s u : State} {g : Wave → Wave} {f : Nat → Lane → Lane} (h : WaveBecomes s u g f) (hc : u.cur = s.cur) (m : Mods) (remote : Bool) (d : Reg) (n : Nat) :
    WaveBecomes s (Machine.oweAll u m remote d n).1 g (fun l x => owes m remote u.nextId (dstRegs d n) (f l x)) := by
  have hu : WaveBecomes s { u with nextId := u.nextId + 1 } g f := h.of_waves rfl
  have hp := hu.updPath (fun _ x => owes m remote u.nextId (dstRegs d n) x)
  rw [← hc] at hp
  exact hp

/-! ### The elements of a range operation -/

theorem bopKey_eq (s : State) (sp : Space) (kd : AccKind) (va : W64) (n : Nat) : s.bopKey sp kd va n = checkedKey (checkOf s sp kd n va) := by
  unfold State.bopKey State.bopCheck checkOf
  rw [show s.curWave = s.wave s.cur.wid from rfl]
  cases s.check s.curTid (s.wave s.cur.wid).sys sp kd va n with
  | bad c sub => rfl
  | ok p => cases p <;> rfl
/-- The places of an element (R191). -/
def bopPair (s : State) (b : BopBlock) (i : Nat) : Nat × Nat :=
  (checkedKey (checkOf s b.sp .red (bopBytes b.ty) (elemVa b.sp b.y i (bopBytes b.ty))),
    if b.op < 2 then 0 else checkedKey (checkOf s b.sp .load (bopBytes b.ty) (elemVa b.sp b.x i (bopBytes b.ty))))
/-- An element as its bank takes it. -/
def bopElem (s : State) (b : BopBlock) (i : Nat) : BankOp :=
  { id := s.nextId, wid := s.cur.wid, lane := 32, core := s.curTroupe.core, ctx := s.curCtx, launch := s.curTroupe.launch, addr := (bopPair s b i).1,
    work := .elem b.op b.ty s.nextId (bopPair s b i).2 b.a (decide ((bopPair s b i).1 % 16 = 0) || decide (bopPair s b i = bopPair s b 0)),
    ret := false, tag := s.nextId, rel := none, acq := none, lseq := 0, rcd := false, ent := none }
/-- The state in which the lanes are owed the status of a range operation. -/
def bopOwed (s : State) (m : Mods) (d : Reg) (b : BopBlock) : State :=
  (oweAll ({ s with nextId := s.nextId + 1 }.walked b.sp (bopPages b)) m false d 1).1
theorem bopGo_eq {s : State} {m : Mods} {d : Reg} {b : BopBlock}
    (h : ∀ i, i < b.n → (b.op ≠ 0 → s.poisoned (bopPair s b i).1 (bopBytes b.ty) = false) ∧ (2 ≤ b.op → s.poisoned (bopPair s b i).2 (bopBytes b.ty) = false)) :
    bopGo s m d b = finish ((((bopOwed s m d b).modPkg s.curPkg (fun p => { p with
      bankQ := p.bankQ ++ (List.range b.n).map (bopElem s b), bops := p.bops ++ [⟨s.nextId, s.cur.wid, maskOf (s.activeLanes m), d, b.n, s.nextId + 1⟩] })).emptyLines
        s.curPkg s.curTroupe.core).modTroupe s.curTid (fun t => { t with lock := true })) [] := by
  have hid : (oweAll ({ s with nextId := s.nextId + 1 }.walked b.sp (bopPages b)) m false d 1).2 = s.nextId + 1 := by
    refine Eq.trans (show _ = (State.walked { s with nextId := s.nextId + 1 } b.sp (bopPages b)).nextId from rfl) ?_
    rw [(walked_used s b.sp (bopPages b)).frame]
  have hkeys : ∀ i, (s.bopKey b.sp .red (elemVa b.sp b.y i (bopBytes b.ty)) (bopBytes b.ty),
      if b.op < 2 then 0 else s.bopKey b.sp .load (elemVa b.sp b.x i (bopBytes b.ty)) (bopBytes b.ty)) = bopPair s b i := fun i => by
    rw [bopKey_eq, bopKey_eq]
    rfl
  have hpois : ((List.range b.n).map (bopPair s b)).any (fun e => (b.op != 0 && s.poisoned e.1 (bopBytes b.ty)) || (decide (2 ≤ b.op) && s.poisoned e.2 (bopBytes b.ty))) = false := by
    rw [List.any_map, List.any_eq_false]
    intro i hi
    obtain ⟨h1, h2⟩ := h i (List.mem_range.1 hi)
    simp only [Function.comp, Bool.or_eq_true, Bool.and_eq_true, bne_iff_ne, decide_eq_true_eq]
    rintro (⟨h0, hp⟩ | ⟨h0, hp⟩)
    · rw [h1 h0] at hp
      exact Bool.false_ne_true hp
    · rw [h2 h0] at hp
      exact Bool.false_ne_true hp
  have hops : ((List.range b.n).map (bopPair s b)).map (fun e => (⟨s.nextId, s.cur.wid, 32, s.curTroupe.core, s.curTroupe.ctx, s.curTroupe.launch, e.1,
      .elem b.op b.ty s.nextId e.2 b.a (e.1 % 16 == 0 || ((List.range b.n).map (bopPair s b)).head? == some e), false, s.nextId, none, none, 0, false, none⟩ : BankOp)) =
      (List.range b.n).map (bopElem s b) := by
    rw [List.map_map]
    refine List.map_congr_left fun i hi => ?_
    have hhead : ((List.range b.n).map (bopPair s b)).head? = some (bopPair s b 0) := by
      obtain ⟨k, hk⟩ := Nat.exists_eq_succ_of_ne_zero (Nat.ne_of_gt (Nat.zero_lt_of_lt (List.mem_range.1 hi)))
      rw [hk, List.range_succ_eq_map]
      rfl
    have hstep : ((bopPair s b i).1 % 16 == 0 || ((List.range b.n).map (bopPair s b)).head? == some (bopPair s b i)) =
        (decide ((bopPair s b i).1 % 16 = 0) || decide (bopPair s b i = bopPair s b 0)) := by
      rw [hhead, Bool.eq_iff_iff]
      simp only [Bool.or_eq_true, beq_iff_eq, decide_eq_true_eq, Option.some.injEq]
      rw [eq_comm (a := bopPair s b 0)]
    unfold bopElem
    rw [← hstep]
    rfl
  unfold bopGo
  dsimp only
  simp only [hkeys]
  rw [hpois, if_neg Bool.false_ne_true, hid, hops]
  rfl
theorem bop_eq {s : State} {m : Mods} {d a : Reg} {e : Nat} {b : BopBlock} (he : Elected s m e) (hb : bopBlock (s.block e a 8) = some b) (hf : s.bopFault b = none) :
    exec (.bop m d a) s = .next (if s.walkWait b.sp (bopPages b) then waitAt (s.missed b.sp (bopPages b)) (.bop m d a) else bopGo s m d b) := by
  refine Eq.trans (show _ = execBop m d a s from rfl) ?_
  unfold execBop
  rw [elected_eq he]
  dsimp only
  rw [hb]
  dsimp only
  rw [hf]
theorem bop_queues {s : State} {m : Mods} {d : Reg} {b : BopBlock}
    (h : ∀ i, i < b.n → (b.op ≠ 0 → s.poisoned (bopPair s b i).1 (bopBytes b.ty) = false) ∧ (2 ≤ b.op → s.poisoned (bopPair s b i).2 (bopBytes b.ty) = false)) :
    let t := bopGo s m d b
    t.mem = s.mem ∧ t.writes = s.writes ∧ (t.pkg s.curPkg).bankQ = (s.pkg s.curPkg).bankQ ++ (List.range b.n).map (bopElem s b) ∧
      (t.pkg s.curPkg).bops = (s.pkg s.curPkg).bops ++ [⟨s.nextId, s.cur.wid, maskOf (s.activeLanes m), d, b.n, s.nextId + 1⟩] ∧
      WaveBecomes s t id (fun l x => goOn s l (owes m false (s.nextId + 1) (regs1 d) x)) := by
  rw [bopGo_eq h]
  have hu := walked_used s b.sp (bopPages b)
  have hb : WaveBecomes s (bopOwed s m d b) id (fun _ x => owes m false (s.nextId + 1) (regs1 d) x) := by
    have := (walked_lanes s b.sp (bopPages b)).becomes.oweAll (by rw [hu.frame]) m false d 1
    rwa [dstRegs_one, show (State.walked { s with nextId := s.nextId + 1 } b.sp (bopPages b)).nextId = s.nextId + 1 by rw [hu.frame]] at this
  have hmem : (bopOwed s m d b).mem = s.mem ∧ (bopOwed s m d b).writes = s.writes ∧ (bopOwed s m d b).cur = s.cur ∧
      ((bopOwed s m d b).pkg s.curPkg).bankQ = (s.pkg s.curPkg).bankQ ∧ ((bopOwed s m d b).pkg s.curPkg).bops = (s.pkg s.curPkg).bops := by
    refine ⟨Eq.trans (show _ = (State.walked { s with nextId := s.nextId + 1 } b.sp (bopPages b)).mem from rfl) (by rw [hu.frame]),
      Eq.trans (show _ = (State.walked { s with nextId := s.nextId + 1 } b.sp (bopPages b)).writes from rfl) (by rw [hu.frame]),
      Eq.trans (show _ = (State.walked { s with nextId := s.nextId + 1 } b.sp (bopPages b)).cur from rfl) (by rw [hu.frame]),
      Eq.trans (show _ = ((State.walked { s with nextId := s.nextId + 1 } b.sp (bopPages b)).pkg s.curPkg).bankQ from rfl) (by rw [(hu.caches.1 _).1]),
      Eq.trans (show _ = ((State.walked { s with nextId := s.nextId + 1 } b.sp (bopPages b)).pkg s.curPkg).bops from rfl) (by rw [(hu.caches.1 _).1])⟩
  obtain ⟨h1, h2, h3, h4, h5⟩ := hmem
  generalize bopOwed s m d b = u at hb h1 h2 h3 h4 h5
  refine ⟨(mem_finish _).trans h1, ?_, ?_, ?_, ?_⟩
  · rw [finish_nil]
    exact h2
  · rw [finish_nil]
    refine Eq.trans (show _ = ((u.modPkg s.curPkg _).emptyLines s.curPkg s.curTroupe.core |>.pkg s.curPkg).bankQ from rfl) ?_
    rw [pkg_emptyLines, State.pkg_modPkg_self, h4]
  · rw [finish_nil]
    refine Eq.trans (show _ = ((u.modPkg s.curPkg _).emptyLines s.curPkg s.curTroupe.core |>.pkg s.curPkg).bops from rfl) ?_
    rw [pkg_emptyLines, State.pkg_modPkg_self, h5]
  · exact WaveBecomes.finish (hb.of_waves rfl) h3
theorem bopComplete_eq {s : State} {k n : Nat} {b : BopRec} (hb : (s.pkg k).bops.find? (fun b => b.id == n) = some b) : exec (.bopComplete k n) s =
    .next (if b.left ≠ 0 then s else fillTag (s.modPkg k (fun p => { p with bops := p.bops.filter (fun (x : BopRec) => x.id != n) })) b.wid b.lanes b.tag (fun _ => outs32 b.d 0)) := by
  refine Eq.trans (show _ = execBopComplete k n s from rfl) ?_
  unfold execBopComplete
  rw [hb]
  dsimp only
  split <;> rfl
/-- The status of a range operation reaches the lanes that are owed it. -/
theorem bopComplete_lands {s : State} {k n : Nat} {b : BopRec} (hb : (s.pkg k).bops.find? (fun b => b.id == n) = some b) (hl : b.left = 0) (hd : b.d.toNat < 120) :
    After (.bopComplete k n) s (fun t => t = { s with waves := t.waves, pkgs := t.pkgs } ∧ (∀ q ∈ (t.pkg k).bops, q.id ≠ n) ∧
      ∀ l, b.lanes.getLsbD l = true → ∀ e ∈ (t.lane b.wid l).pend, e.tag = b.tag → e.dst = .g b.d → e.got = true ∧ e.val = 0) := by
  refine ⟨_, bopComplete_eq hb, ?_⟩
  rw [if_neg (fun h => h hl)]
  refine ⟨rfl, fun q hq => ?_, fun l hbit e he ht hdst => ?_⟩
  · have hq' : q ∈ ((s.modPkg k (fun p => { p with bops := p.bops.filter (fun (x : BopRec) => x.id != n) })).pkg k).bops := hq
    rw [State.pkg_modPkg_self] at hq'
    exact bne_iff_ne.1 (List.of_mem_filter (p := fun (x : BopRec) => x.id != n) hq')
  · unfold fillTag at he
    rw [State.lane_updLanes, if_pos ⟨rfl, hbit⟩, fill_eq] at he
    obtain ⟨e0, -, rfl⟩ := List.mem_map.1 he
    have ht0 : e0.tag = b.tag := (filled_tag ..).symm.trans ht
    have hd0 : e0.dst = .g b.d := (filled_dst ..).symm.trans hdst
    have hout : (outs32 b.d 0).find? (fun o => o.1 == e0.dst) = some (.g b.d, 0) := by
      rw [outs32_eq, to32, regs1, if_pos hd, hd0]
      exact List.find?_cons_of_pos (by simp)
    rw [filled_of ht0 hout]
    exact ⟨rfl, rfl⟩
/-- Settles O24: the elements as their banks take them, with what the lanes are owed; and what the last element's status becomes. -/
theorem rangeOperations : Obligations.RangeOperations := by
  refine ⟨fun s m d a e b he hb hf => ?_, fun s k n b hb => ⟨fun hl => ?_, fun hl hd => bopComplete_lands hb hl hd⟩⟩
  · intro len place at_ pair
    have hat : ∀ v i, at_ v i = elemVa b.sp v i (bopBytes b.ty) := fun v i => by
      unfold elemVa
      cases hsp : b.sp <;> simp only [at_, hsp] <;> rfl
    have hp : pair = bopPair s b := funext fun i => by
      unfold bopPair
      rw [← hat, ← hat]
      rfl
    refine ⟨fun hw => ⟨_, bop_eq he hb hf, ?_⟩, fun hw h => ⟨_, bop_eq he hb hf, ?_⟩⟩
    · rw [hw]
      exact waitAt_walks hw
    · rw [hp] at h ⊢
      rw [hw]
      exact bop_queues h
  · rw [bopComplete_eq hb, if_pos hl]

end Sys2Proof
end

