-- ==== Sys2Proof/Proofs/Notices.lean ====
section
/-! SUPPORT. Notices and the expiry of holds (R361, R364, R371 to R375): what each notice does to the peers, the tokens and the hold queue. -/

namespace Sys2Proof
open Machine

/-! ### Peers -/

theorem peer_modPeer (p : Pkg) (q j : Nat) (f : Peer → Peer) : (p.modPeer q f).peer j = if j = q then f (p.peer q) else p.peer j :=
  fget_fput ..
@[simp] theorem peer_modPeer_self (p : Pkg) (q : Nat) (f : Peer → Peer) : (p.modPeer q f).peer q = f (p.peer q) := fget_fput_self ..
theorem peer_modPeer_ne (p : Pkg) {q j : Nat} (f : Peer → Peer) (h : j ≠ q) : (p.modPeer q f).peer j = p.peer j := fget_fput_ne _ _ _ h

/-! ### Tokens that land -/

theorem tok_modTok (p : Pkg) (i j : Nat) (f : Tok → Tok) : (p.modTok i f).tok j = if j = i then f (p.tok i) else p.tok j :=
  fget_fput ..

/-- Nothing is taken from the notices: those that have arrived stay, and those that are to be sent are still to be sent. -/
def NoticesKept (p p' : Pkg) : Prop :=
  p'.fab.inNotices = p.fab.inNotices ∧ ∀ j m, m ∈ (p.peer j).notices → m ∈ (p'.peer j).notices
theorem NoticesKept.refl (p : Pkg) : NoticesKept p p := ⟨rfl, fun _ _ h => h⟩
theorem NoticesKept.trans {p p' p'' : Pkg} (h : NoticesKept p p') (h' : NoticesKept p' p'') : NoticesKept p p'' :=
  ⟨h'.1.trans h.1, fun j m hm => h'.2 j m (h.2 j m hm)⟩

/-- The release notices of a token to the destinations of its dependants (R371). -/
def tellDeps (v : W32) (deps : List (Nat × Nat)) (p : Pkg) : Pkg :=
  deps.foldl (fun p d => p.modPeer d.1 (fun q => { q with notices := q.notices ++ [⟨.release, 0, v, BitVec.ofNat 64 d.2⟩] })) p
theorem addNotice_kept (p : Pkg) (q : Nat) (m : Notice) : NoticesKept p (p.modPeer q (fun r => { r with notices := r.notices ++ [m] })) := by
  refine ⟨rfl, fun j x hx => ?_⟩
  rw [peer_modPeer]
  split
  next h => subst h; exact List.mem_append_left _ hx
  next => exact hx
theorem tellDeps_kept (v : W32) (deps : List (Nat × Nat)) (p : Pkg) : NoticesKept p (tellDeps v deps p) := by
  induction deps generalizing p with
  | nil => exact .refl p
  | cons d ds ih => exact (addNotice_kept p d.1 _).trans (ih _)
theorem tellDeps_toks (v : W32) (deps : List (Nat × Nat)) (p : Pkg) : (tellDeps v deps p).fab.toks = p.fab.toks := by
  induction deps generalizing p with
  | nil => rfl
  | cons d ds ih => exact (ih _).trans rfl
/-- Each destination is told. -/
theorem tellDeps_mem (v : W32) {deps : List (Nat × Nat)} {d : Nat × Nat} (h : d ∈ deps) (p : Pkg) :
    ⟨.release, 0, v, BitVec.ofNat 64 d.2⟩ ∈ ((tellDeps v deps p).peer d.1).notices := by
  induction deps generalizing p with
  | nil => exact absurd h List.not_mem_nil
  | cons e es ih =>
    rcases List.mem_cons.1 h with rfl | h
    · refine (tellDeps_kept v es _).2 _ _ ?_
      rw [peer_modPeer_self]
      exact List.mem_append_right _ (List.mem_singleton.2 rfl)
    · exact ih h _

/-- The inputs of a join count it no more. -/
def dropJoins (ins : List Nat) (p : Pkg) : Pkg := ins.foldl (fun p j => p.modTok j (fun y => { y with joins := y.joins - 1 })) p
theorem dropJoins_peers (ins : List Nat) (p : Pkg) : (dropJoins ins p).fab.peers = p.fab.peers ∧ (dropJoins ins p).fab.inNotices = p.fab.inNotices := by
  induction ins generalizing p with
  | nil => exact ⟨rfl, rfl⟩
  | cons j js ih => exact ih _
theorem dropJoins_tok (ins : List Nat) (p : Pkg) (i : Nat) :
    ((dropJoins ins p).tok i).st = (p.tok i).st ∧ ((dropJoins ins p).tok i).gen = (p.tok i).gen := by
  induction ins generalizing p with
  | nil => exact ⟨rfl, rfl⟩
  | cons j js ih =>
    have h := ih (p.modTok j (fun y => { y with joins := y.joins - 1 }))
    rw [tok_modTok] at h
    split at h
    next hj => subst hj; exact h
    next => exact h

theorem landOne_eq (p : Pkg) (i : Nat) :
    p.landOne i = dropJoins (p.tok i).ins ((tellDeps (tokVal (p.tok i).gen i) (p.tok i).deps p).modTok i (fun x => { x with st := .landed, deps := [] })) := rfl
theorem tellDeps_tok (v : W32) (deps : List (Nat × Nat)) (p : Pkg) (i : Nat) : (tellDeps v deps p).tok i = p.tok i := by
  unfold Pkg.tok
  rw [tellDeps_toks]
theorem landOne_tok (p : Pkg) (i j : Nat) :
    ((p.landOne i).tok j).st = (if j = i then .landed else (p.tok j).st) ∧ ((p.landOne i).tok j).gen = (p.tok j).gen := by
  rw [landOne_eq]
  obtain ⟨h, h'⟩ := dropJoins_tok (p.tok i).ins ((tellDeps (tokVal (p.tok i).gen i) (p.tok i).deps p).modTok i (fun x => { x with st := .landed, deps := [] })) j
  rw [h, h', tok_modTok]
  split
  next hj => subst hj; rw [tellDeps_tok]; exact ⟨rfl, rfl⟩
  next => rw [tellDeps_tok]; exact ⟨rfl, rfl⟩
theorem NoticesKept.of_peers {p p' p'' : Pkg} (h : NoticesKept p p') (hp : p''.fab.peers = p'.fab.peers) (hn : p''.fab.inNotices = p'.fab.inNotices) :
    NoticesKept p p'' := by
  refine ⟨hn.trans h.1, fun j m hm => ?_⟩
  unfold Pkg.peer
  rw [hp]
  exact h.2 j m hm
theorem told_landOne (p : Pkg) (i : Nat) : NoticesKept (tellDeps (tokVal (p.tok i).gen i) (p.tok i).deps p) (p.landOne i) := by
  rw [landOne_eq]
  obtain ⟨h, h'⟩ := dropJoins_peers (p.tok i).ins ((tellDeps (tokVal (p.tok i).gen i) (p.tok i).deps p).modTok i (fun x => { x with st := .landed, deps := [] }))
  exact (NoticesKept.refl _).of_peers (h.trans rfl) (h'.trans rfl)
theorem landOne_kept (p : Pkg) (i : Nat) : NoticesKept p (p.landOne i) := (tellDeps_kept ..).trans (told_landOne p i)
theorem landJoins_kept (f : Nat) (p : Pkg) : NoticesKept p (landJoins f p) := by
  induction f generalizing p with
  | zero => exact .refl p
  | succ f ih =>
    unfold landJoins
    split
    · exact .refl p
    · exact (landOne_kept ..).trans (ih _)
/-- A token that has landed stays so while joins land. -/
theorem landJoins_landed (f : Nat) {p : Pkg} {i : Nat} (h : (p.tok i).st = .landed) :
    ((landJoins f p).tok i).st = .landed ∧ ((landJoins f p).tok i).gen = (p.tok i).gen := by
  induction f generalizing p with
  | zero => exact ⟨h, rfl⟩
  | succ f ih =>
    unfold landJoins
    split
    · exact ⟨h, rfl⟩
    next j _ _ =>
      obtain ⟨h1, h2⟩ := landOne_tok p j i
      have h1 : ((p.landOne j).tok i).st = .landed := by rw [h1, h, ite_self]
      obtain ⟨h3, h4⟩ := ih h1
      exact ⟨h3, h4.trans h2⟩

theorem landed_or_free {p : Pkg} {t : W32} (h : (p.tok (tokIdx t)).st = .landed) : p.freeToks.tokLanded t = true := by
  have hx : (p.freeToks.tok (tokIdx t)).st = .landed ∨ (p.freeToks.tok (tokIdx t)).st = .free := by
    unfold Pkg.freeToks Pkg.tok at *
    rw [fget_eq_flook] at h
    rw [fget_fall]
    cases hl : flook p.fab.toks (tokIdx t) with
    | none => rw [hl] at h; exact absurd h (by decide)
    | some x =>
      rw [hl, Option.getD_some] at h
      rw [Option.map_some, Option.getD_some]
      split
      · exact .inr rfl
      · exact .inl h
  unfold Pkg.tokLanded
  rcases hx with hx | hx <;> rw [hx] <;> simp
theorem freeToks_kept (p : Pkg) : NoticesKept p p.freeToks := (NoticesKept.refl p).of_peers rfl rfl

theorem landTok_kept (p : Pkg) (t : W32) : NoticesKept p (p.landTok t) := by
  unfold Pkg.landTok
  dsimp only
  split
  · exact ((landOne_kept ..).trans (landJoins_kept ..)).trans (freeToks_kept _)
  · exact .refl p
theorem landTok_lands {p : Pkg} {t : W32} (h : (p.tok (tokIdx t)).st ≠ .join) : (p.landTok t).tokLanded t = true := by
  unfold Pkg.landTok
  dsimp only
  split
  · exact landed_or_free (landJoins_landed 4096 (by rw [(landOne_tok ..).1, if_pos rfl])).1
  next hn =>
    unfold Pkg.tokLanded
    by_cases h0 : t = 0
    · simp [h0]
    · by_cases hg : (p.tok (tokIdx t)).gen = tokGen t
      · have hp : (p.tok (tokIdx t)).st ≠ .pend := fun hp => hn ⟨h0, hg, hp⟩
        cases hs : (p.tok (tokIdx t)).st
        case pend => exact absurd hs hp
        case join => exact absurd hs h
        case free => simp
        case landed => simp
      · simp [hg]
/-- Every destination that waits on a token is told of its landing. -/
theorem landTok_tells {p : Pkg} {t : W32} (h0 : t ≠ 0) (hs : (p.tok (tokIdx t)).st = .pend) (hg : (p.tok (tokIdx t)).gen = tokGen t)
    {d : Nat × Nat} (hd : d ∈ (p.tok (tokIdx t)).deps) :
    ⟨.release, 0, tokVal (p.tok (tokIdx t)).gen (tokIdx t), BitVec.ofNat 64 d.2⟩ ∈ ((p.landTok t).peer d.1).notices := by
  unfold Pkg.landTok
  rw [if_pos ⟨h0, hg, hs⟩]
  exact (((told_landOne p (tokIdx t)).trans (landJoins_kept 4096 _)).trans (freeToks_kept _)).2 _ _ (tellDeps_mem _ hd p)

/-! ### The head of the notices -/

section
variable {s : State} {k q : Nat} {n : Notice} {rest : List (Nat × Notice)}

/-- The package that has taken up its next notice. -/
def noticeTaken (p : Pkg) (rest : List (Nat × Notice)) : Pkg := { p with fab := { p.fab with inNotices := rest } }

theorem nextNotice_of_kind {p : Pkg} (h : p.fab.inNotices = (q, n) :: rest) {kd : NKind} (hk : n.kind = kd) :
    p.nextNotice kd = some (q, n, noticeTaken p rest) := by
  unfold Pkg.nextNotice
  rw [h]
  exact if_pos hk
theorem nextNotice_of_other {p : Pkg} (h : p.fab.inNotices = (q, n) :: rest) {kd : NKind} (hk : n.kind ≠ kd) :
    p.nextNotice kd = none := by
  unfold Pkg.nextNotice
  rw [h]
  exact if_neg hk
theorem onNotice_of_kind (h : (s.pkg k).fab.inNotices = (q, n) :: rest) {kd : NKind} (hk : n.kind = kd) (go : Nat → Notice → Pkg → Pkg) :
    onNotice k kd s go = .next (s.setPkg k (go q n (noticeTaken (s.pkg k) rest))) := by
  unfold onNotice
  rw [nextNotice_of_kind h hk]
theorem onNotice_of_other (h : (s.pkg k).fab.inNotices = (q, n) :: rest) {kd : NKind} (hk : n.kind ≠ kd) (go : Nat → Notice → Pkg → Pkg) :
    onNotice k kd s go = .next s := by
  unfold onNotice
  rw [nextNotice_of_other h hk]

/-- A notice that changes one peer. -/
theorem peerBecomes_of_modPeer (f : Peer → Peer) : PeerBecomes s (s.setPkg k ((noticeTaken (s.pkg k) rest).modPeer q f)) k q rest f := by
  refine ⟨rfl, fun j hj => by rw [State.pkg_setPkg, if_neg hj], ?_, fun j hj => ?_, ?_⟩
  · rw [State.pkg_setPkg_self]
    exact peer_modPeer_self ..
  · rw [State.pkg_setPkg_self]
    exact peer_modPeer_ne _ _ hj
  · rw [State.pkg_setPkg_self]
    rfl
end

/-! ### Releases -/

section
variable {s : State} {k q : Nat} {n : Notice} {rest : List (Nat × Notice)}

/-- A held packet that the notice of its token frees. -/
def freedBy (q : Nat) (v : W32) (h : Hold) : Bool := h.src == q && h.token == v && h.pkt.isSome
/-- What leaves a hold entry that is freed: its packet, which depends on nothing now, and those that waited behind it. -/
def freedPackets (q : Nat) (h : Hold) : List (Nat × Packet) :=
  (match h.pkt with | some x => [(q, { x with dep := false })] | none => []) ++ h.behind.map (fun x => (q, x))
/-- The memo of releases that are still due. -/
def memoOf (q : Nat) (v : W32) (due round : Nat) : List Hold := if due = 0 then [] else [⟨q, v, none, due, round, []⟩]

theorem releaseNotice_of_kind (h : (s.pkg k).fab.inNotices = (q, n) :: rest) (hk : n.kind = .release) :
    exec (.releaseNotice k) s = .next (s.setPkg k (Pkg.giveHolds { noticeTaken (s.pkg k) rest with fab := { (noticeTaken (s.pkg k) rest).fab with
      holds := (s.pkg k).fab.holds.filter (fun h => !(freedBy q n.token h)) ++
        memoOf q n.token (n.arg.toNat - ((s.pkg k).fab.holds.filter (freedBy q n.token)).length) (s.pkg k).calRound
      arrivals := (((s.pkg k).fab.holds.filter (freedBy q n.token)).map (freedPackets q)).flatten ++ (s.pkg k).fab.arrivals } }
      q ((s.pkg k).fab.holds.filter (freedBy q n.token)).length)) :=
  (onNotice_of_kind h hk _).trans rfl

theorem giveHolds_rest (p : Pkg) (q n : Nat) :
    (p.giveHolds q n).fab.holds = p.fab.holds ∧ (p.giveHolds q n).fab.arrivals = p.fab.arrivals ∧ (p.giveHolds q n).fab.inNotices = p.fab.inNotices := by
  unfold Pkg.giveHolds
  split <;> exact ⟨rfl, rfl, rfl⟩

theorem landed_acts (h : (s.pkg k).fab.inNotices = (q, n) :: rest) (hk : n.kind = .landed) :
    exec (.landedNotice k) s = .next (s.setPkg k ((noticeTaken (s.pkg k) rest).landTok n.token)) := onNotice_of_kind h hk _

theorem release_of_memo (h : (s.pkg k).fab.inNotices = (q, n) :: rest) (hk : n.kind = .release) :
    After (.releaseNotice k) s (fun t => t = { s with pkgs := t.pkgs } ∧ (t.pkg k).fab.inNotices = rest ∧
      ((∀ h ∈ (s.pkg k).fab.holds, h.src = q → h.token = n.token → h.pkt = none) → (t.pkg k).fab.arrivals = (s.pkg k).fab.arrivals ∧
        (t.pkg k).fab.holds = (s.pkg k).fab.holds ++ if n.arg = 0 then [] else [⟨q, n.token, none, n.arg.toNat, (s.pkg k).calRound, []⟩]) ∧
      ∀ h x, (s.pkg k).fab.holds = [h] → h.src = q → h.token = n.token → h.pkt = some x →
        (t.pkg k).fab.arrivals = (q, { x with dep := false }) :: (h.behind.map (fun b => (q, b)) ++ (s.pkg k).fab.arrivals) ∧
        ((t.pkg k).peer q).notices = ((s.pkg k).peer q).notices ++ [⟨.holdFree, 0, 0, 1⟩] ∧
        (t.pkg k).fab.holds = if n.arg.toNat ≤ 1 then [] else [⟨q, n.token, none, n.arg.toNat - 1, (s.pkg k).calRound, []⟩]) := by
  refine ⟨_, releaseNotice_of_kind h hk, rfl, ?_, fun hno => ?_, fun e x he hq hv hx => ?_⟩
  · rw [State.pkg_setPkg_self]
    exact (giveHolds_rest ..).2.2
  · have hf : ∀ e ∈ (s.pkg k).fab.holds, freedBy q n.token e = false := by
      intro e he
      unfold freedBy
      by_cases hq : e.src = q
      · by_cases hv : e.token = n.token
        · rw [hno e he hq hv]; exact Bool.and_false _
        · rw [beq_eq_false_iff_ne.2 hv, Bool.and_false, Bool.false_and]
      · rw [beq_eq_false_iff_ne.2 hq, Bool.false_and, Bool.false_and]
    have h0 : (s.pkg k).fab.holds.filter (freedBy q n.token) = [] := by
      rw [List.filter_eq_nil_iff]
      intro e he
      rw [hf e he]
      exact Bool.false_ne_true
    have h1 : (s.pkg k).fab.holds.filter (fun h => !(freedBy q n.token h)) = (s.pkg k).fab.holds := by
      rw [List.filter_eq_self]
      intro e he
      rw [hf e he]
      rfl
    rw [State.pkg_setPkg_self, (giveHolds_rest ..).1, (giveHolds_rest ..).2.1, h0, h1]
    refine ⟨rfl, ?_⟩
    unfold memoOf
    dsimp only [List.length_nil, Nat.sub_zero]
    congr 1
    exact if_congr ⟨fun hz => BitVec.eq_of_toNat_eq hz, fun hz => by rw [hz]; rfl⟩ rfl rfl
  · have hf : freedBy q n.token e = true := by
      unfold freedBy
      rw [hq, hv, hx, beq_self_eq_true, beq_self_eq_true]
      rfl
    have h0 : (s.pkg k).fab.holds.filter (freedBy q n.token) = [e] := by rw [he, List.filter_cons_of_pos hf, List.filter_nil]
    have h1 : (s.pkg k).fab.holds.filter (fun h => !(freedBy q n.token h)) = [] := by
      rw [he, List.filter_cons_of_neg (by rw [hf]; decide), List.filter_nil]
    rw [State.pkg_setPkg_self, (giveHolds_rest ..).1, (giveHolds_rest ..).2.1, h0, h1]
    refine ⟨?_, ?_, ?_⟩
    · have hp : freedPackets q e = (q, { x with dep := false }) :: e.behind.map (fun b => (q, b)) := by
        unfold freedPackets
        rw [hx]
        rfl
      rw [List.map_cons, List.map_nil, List.flatten_cons, List.flatten_nil, List.append_nil, hp]
      rfl
    · unfold Pkg.giveHolds
      rw [if_neg (show ¬[e].length = 0 from Nat.one_ne_zero), peer_modPeer_self]
      rfl
    · unfold memoOf
      exact if_congr (by dsimp only [List.length_cons, List.length_nil]; omega) rfl rfl

/-! ### An expiry stops the contexts that have depended on the token -/

/-- The contexts whose operations have depended on a token at a package. -/
def depCtxs (deps : List (W32 × Nat × W32)) (v : W32) (q : Nat) : List W32 := ((deps.filter (fun e => e.1 == v && e.2.1 == q)).map (fun e => e.2.2)).dedup
def tokenExpires (k : Nat) (s : State) (c : W32) : State := stopContext s k c .tokexpire 0 (s.firstLane k c).1 (s.firstLane k c).2

theorem expiryNotice_of_kind (h : (s.pkg k).fab.inNotices = (q, n) :: rest) (hk : n.kind = .expiry) :
    exec (.expiryNotice k) s = .next ((depCtxs (s.pkg k).fab.depCtx n.token q).foldl (tokenExpires k)
      (s.setPkg k ((noticeTaken (s.pkg k) rest).streamFailed q true))) := by
  refine Eq.trans (show _ = execExpiryNotice k s from rfl) ?_
  unfold execExpiryNotice
  rw [nextNotice_of_kind h hk]
  rfl
theorem stopContext_inNotices (s : State) (k : Nat) (c : W32) (cause : Cause) (sub : Byte) (pc va : W64) (j : Nat) :
    ((stopContext s k c cause sub pc va).pkg j).fab.inNotices = (s.pkg j).fab.inNotices := by
  have hc : ((clearContext s k c).pkg j).fab.inNotices = (s.pkg j).fab.inNotices := by
    unfold clearContext
    by_cases hj : j = k
    · subst hj; simp only [State.pkg_modPkg_self]; rfl
    · simp only [State.pkg_modPkg, if_neg hj]; rfl
  have he : ∀ l, ((hostEvent (clearContext s k c) k c cause sub l pc va).pkg j).fab.inNotices = (s.pkg j).fab.inNotices := fun l =>
    (hostEvent_of_host (clearContext s k c) k c cause sub l pc va (fun p => p.fab.inNotices) (fun _ _ => rfl) j).trans hc
  rw [stopContext_eq]
  split
  · split
    · exact hc
    · exact he _
  · split
    · rfl
    · exact he _
theorem expires_inNotices (cs : List W32) (s : State) (k j : Nat) : ((cs.foldl (tokenExpires k) s).pkg j).fab.inNotices = (s.pkg j).fab.inNotices := by
  induction cs generalizing s with
  | nil => rfl
  | cons c cs ih => exact (ih _).trans (stopContext_inNotices ..)
theorem expiry_acts (h : (s.pkg k).fab.inNotices = (q, n) :: rest) (hk : n.kind = .expiry) :
    After (.expiryNotice k) s (fun t => (t.pkg k).fab.inNotices = rest ∧
      (∀ c, (s.pkg k).fab.depCtx = [(n.token, q, c)] → ContextStops s t k c ∧ StopRecorded s t k c 0x21 0) ∧
      ((∀ e ∈ (s.pkg k).fab.depCtx, e.1 ≠ n.token ∨ e.2.1 ≠ q) → t.mem = s.mem ∧ t.waves = s.waves ∧ t.troupes = s.troupes ∧
        (t.pkg k).ctxs = (s.pkg k).ctxs)) := by
  have hp := State.pkg_setPkg_self s k ((noticeTaken (s.pkg k) rest).streamFailed q true)
  refine ⟨_, expiryNotice_of_kind h hk, ?_, fun c hc => ?_, fun hno => ?_⟩
  · rw [expires_inNotices, hp]
    rfl
  · have h1 : depCtxs (s.pkg k).fab.depCtx n.token q = [c] := by
      rw [hc]
      unfold depCtxs
      rw [List.filter_cons_of_pos (by rw [beq_self_eq_true, beq_self_eq_true]; rfl)]
      rfl
    rw [h1]
    generalize hs' : s.setPkg k ((noticeTaken (s.pkg k) rest).streamFailed q true) = s' at hp ⊢
    refine ⟨(stopContext_stops s' k c .tokexpire 0 _ _).congr (by rw [← hs']; rfl) (by rw [← hs']; rfl) (by rw [hp]; rfl) (by rw [hp]; rfl) rfl rfl rfl rfl rfl, ?_⟩
    have hr := stopContext_recorded s' k c .tokexpire 0 (s'.firstLane k c).1 (s'.firstLane k c).2
    unfold StopRecorded EventRoom eventWord at hr ⊢
    rw [hp] at hr
    exact hr
  · have h1 : depCtxs (s.pkg k).fab.depCtx n.token q = [] := by
      unfold depCtxs
      rw [List.filter_eq_nil_iff.2]
      · rfl
      · intro e he hb
        obtain ⟨h1, h2⟩ := Bool.and_eq_true_iff.1 hb
        rcases hno e he with hn | hn
        · exact hn (eq_of_beq h1)
        · exact hn (eq_of_beq h2)
    rw [h1]
    refine ⟨rfl, rfl, rfl, ?_⟩
    rw [List.foldl_nil, hp]
    rfl
end

/-! ### The notices of the obligation -/

theorem noticesAct : Claims.NoticesAct := by
  intro s k q n rest hn
  refine ⟨⟨fun hk => ?_, fun hk => onNotice_of_other hn hk _⟩, ⟨fun hk => ⟨_, onNotice_of_kind hn hk _, peerBecomes_of_modPeer _⟩, fun hk => onNotice_of_other hn hk _⟩,
    ⟨fun hk => ⟨_, onNotice_of_kind hn hk _, peerBecomes_of_modPeer _⟩, fun hk => onNotice_of_other hn hk _⟩,
    ⟨fun hk => ⟨_, onNotice_of_kind hn hk _, rfl, ?_, fun v => ?_⟩, fun hk => onNotice_of_other hn hk _⟩,
    ⟨fun hk => ⟨_, onNotice_of_kind hn hk _, peerBecomes_of_modPeer _⟩, fun hk => onNotice_of_other hn hk _⟩,
    ⟨fun hk => release_of_memo hn hk, fun hk => onNotice_of_other hn hk _⟩, ⟨fun hk => expiry_acts hn hk, fun hk => ?_⟩⟩
  · have hp := State.pkg_setPkg_self s k ((noticeTaken (s.pkg k) rest).landTok n.token)
    refine ⟨_, landed_acts hn hk, rfl, ?_, fun hj => ?_, fun h0 hs hg d hd => ?_⟩
    · rw [hp]; exact (landTok_kept ..).1
    · rw [hp]; exact landTok_lands hj
    · rw [hp]; exact landTok_tells (p := noticeTaken (s.pkg k) rest) h0 hs hg hd
  · rw [State.pkg_setPkg_self]; rfl
  · rw [State.pkg_setPkg_self, peer_modPeer_self]
    exact fget_fput ..
  · refine Eq.trans (show _ = execExpiryNotice k s from rfl) ?_
    unfold execExpiryNotice
    rw [nextNotice_of_other hn hk]

/-! ### Holds that expire -/

/-- A package that keeps its holds and arrivals, and every notice that it has to send. -/
def HoldsKept (p p' : Pkg) : Prop :=
  p'.fab.holds = p.fab.holds ∧ p'.fab.arrivals = p.fab.arrivals ∧ ∀ j m, m ∈ (p.peer j).notices → m ∈ (p'.peer j).notices
theorem HoldsKept.refl (p : Pkg) : HoldsKept p p := ⟨rfl, rfl, fun _ _ h => h⟩
theorem HoldsKept.trans {p p' p'' : Pkg} (h : HoldsKept p p') (h' : HoldsKept p' p'') : HoldsKept p p'' :=
  ⟨h'.1.trans h.1, h'.2.1.trans h.2.1, fun j m hm => h'.2.2 j m (h.2.2 j m hm)⟩
theorem modPeer_holdsKept (p : Pkg) (q : Nat) {f : Peer → Peer} (hf : ∀ r m, m ∈ r.notices → m ∈ (f r).notices) : HoldsKept p (p.modPeer q f) := by
  refine ⟨rfl, rfl, fun j m hm => ?_⟩
  rw [peer_modPeer]
  split
  next h => subst h; exact hf _ _ hm
  next => exact hm
theorem landRelayed_holdsKept (p : Pkg) (x : Packet) : HoldsKept p (p.landRelayed x) := by
  have h := modPeer_holdsKept p x.src (f := fun r => { r with recvRelayed := fput r.recvRelayed x.via (fget 0 r.recvRelayed x.via + 1) }) (fun _ _ h => h)
  unfold Pkg.landRelayed
  dsimp only
  split
  · exact h.trans (modPeer_holdsKept _ _ (fun _ _ h => h))
  · exact h
theorem giveHolds_holdsKept (p : Pkg) (q n : Nat) : HoldsKept p (p.giveHolds q n) := by
  unfold Pkg.giveHolds
  split
  · exact .refl p
  · exact modPeer_holdsKept _ _ (fun _ _ h => List.mem_append_left _ h)

/-- The package without an expired entry. -/
def holdTaken (p : Pkg) (n : Nat) (h : Hold) : Pkg :=
  { p with fab := { p.fab with holds := p.fab.holds.eraseIdx n, arrivals := h.behind.map (fun x => (h.src, x)) ++ p.fab.arrivals } }
def expiryTold (p : Pkg) (h : Hold) : Pkg := p.modPeer h.src (fun r => { r with notices := r.notices ++ [⟨.expiry, 0, h.token, 0⟩] })
/-- A discarded packet counts as applied in its stream (R375). -/
def packetDropped (p : Pkg) (k : Nat) (h : Hold) : Pkg :=
  match h.pkt with
  | some x => if x.via = k then p.modPeer h.src (fun r => { r with recvApplied := r.recvApplied + 1, dirtyA := true }) else p.landRelayed x
  | none => p
theorem packetDropped_kept (p : Pkg) (k : Nat) (h : Hold) : HoldsKept p (packetDropped p k h) := by
  unfold packetDropped
  split
  · split
    · exact modPeer_holdsKept _ _ (fun _ _ h => h)
    · exact landRelayed_holdsKept ..
  · exact .refl p

theorem holdExpiry_due {s : State} {k n : Nat} {h : Hold} (hh : (s.pkg k).fab.holds[n]? = some h) (hd : h.round + 4 ≤ (s.pkg k).calRound) :
    exec (.holdExpiry k n) s = .next (s.modPkg k (fun p =>
      ((packetDropped (expiryTold (holdTaken p n h) h) k h).giveHolds h.src h.pkt.isSome.toNat).streamFailed h.src false)) := by
  refine Eq.trans (show _ = execHoldExpiry k n s from rfl) ?_
  unfold execHoldExpiry
  rw [hh]
  exact if_neg (by omega)
theorem holdsExpire : Claims.HoldsExpire := by
  intro s k n h hh
  refine ⟨fun hd => ?_, fun hd => ⟨_, holdExpiry_due hh hd, rfl, ?_⟩⟩
  · refine Eq.trans (show _ = execHoldExpiry k n s from rfl) ?_
    unfold execHoldExpiry
    rw [hh]
    exact if_pos hd
  rw [State.pkg_modPkg_self]
  have hdrop := packetDropped_kept (expiryTold (holdTaken (s.pkg k) n h) h) k h
  obtain ⟨h1, h2, h3⟩ := hdrop.trans (giveHolds_holdsKept _ h.src h.pkt.isSome.toNat)
  refine ⟨h1, h2, h3 _ _ ?_, fun hx => ?_⟩
  · unfold expiryTold
    rw [peer_modPeer_self]
    exact List.mem_append_right _ (List.mem_singleton.2 rfl)
  · show _ ∈ ((Pkg.giveHolds _ _ _).peer h.src).notices
    rw [Option.isSome_iff_ne_none.2 hx]
    unfold Pkg.giveHolds
    rw [if_neg (by decide), peer_modPeer_self]
    exact List.mem_append_right _ (List.mem_singleton.2 rfl)

/-- Settles O35: the notice at the head is taken up by the event of its kind, which changes the peer, the tokens or the holds that it
names, and a hold entry four rounds old leaves its place to those behind it. -/
theorem noticesAndExpiry : Obligations.NoticesAndExpiry := ⟨noticesAct, holdsExpire⟩
end Sys2Proof
end

