-- ==== Sys2Proof/Proofs/DeviceAccesses.lean ====
section
/-! SUPPORT. The device's own accesses: updates behind the writes in flight, and reads by a context's tables (R292). -/

namespace Sys2Proof
open Machine

/-! ### Updates of memory behind the writes in flight -/

/-- The states differ at most in the bytes of memory, in what a read of each observes, in which of them are poisoned, and in which
writes are still in flight. -/
structure MemorySettles (s t : State) : Prop where
  frame : t = { s with mem := t.mem, relAt := t.relAt, writes := t.writes, pkgs := t.pkgs }
  pkg : ∀ k, t.pkg k = { s.pkg k with phys := (t.pkg k).phys }

theorem MemorySettles.refl (s : State) : MemorySettles s s := ⟨rfl, fun _ => rfl⟩
theorem MemorySettles.trans {s t u : State} (h : MemorySettles s t) (h' : MemorySettles t u) : MemorySettles s u := by
  refine ⟨h'.frame.trans ?_, fun k => (h'.pkg k).trans ?_⟩
  · exact (congrArg (fun x : State => { x with mem := u.mem, relAt := u.relAt, writes := u.writes, pkgs := u.pkgs }) h.frame).trans rfl
  · exact (congrArg (fun x : Pkg => { x with phys := (u.pkg k).phys }) (h.pkg k)).trans rfl
theorem MemoryOnly.settles {s t : State} (h : MemoryOnly s t) : MemorySettles s t := by
  refine ⟨h.frame.trans ?_, h.pkg⟩
  have hw := h.writes
  rw [← hw]
theorem landWrite_settles (s : State) (w : PWrite) : MemorySettles s (s.landWrite w) := by
  unfold State.landWrite
  dsimp only
  have h := (store_memoryOnly s w.addr w.bytes).settles
  split
  · exact h.trans ⟨rfl, fun _ => rfl⟩
  · exact h
theorem MemorySettles.fold {α : Type} {f : State → α → State} (h : ∀ s x, MemorySettles s (f s x)) (l : List α) (s : State) : MemorySettles s (l.foldl f s) := by
  induction l generalizing s with
  | nil => exact .refl s
  | cons x l ih => exact (h s x).trans (ih _)
theorem settleUnit_settles (s : State) (u : Nat) : MemorySettles s (s.settleUnit u) := by
  unfold State.settleUnit
  dsimp only
  refine MemorySettles.trans (t := { s with writes := s.writes.filter (fun w => !(decide (1 ≤ w.level) && w.unit == u)) }) ⟨rfl, fun _ => rfl⟩ ?_
  exact MemorySettles.fold landWrite_settles _ _
theorem settleRange_settles (s : State) (a n : Nat) : MemorySettles s (s.settleRange a n) := by
  unfold State.settleRange
  split
  · exact .refl s
  · exact .fold (fun s i => settleUnit_settles s _) _ s
/-- One step on memory. -/
theorem update_settles (s : State) (a n : Nat) (f : W64 → W64) (rel : Option (Nat × Nat)) : MemorySettles s (s.update a n f rel).2 := by
  unfold State.update
  dsimp only
  have h := (settleRange_settles s a n).trans (store_memoryOnly (s.settleRange a n) a (leBytes n (f (BitVec.ofNat 64 (leNat ((s.settleRange a n).load a n)))).toNat)).settles
  split
  · exact h
  · exact h.trans ⟨rfl, fun _ => rfl⟩
theorem storeAt_settles (s : State) (a : Nat) (bs : List Byte) : MemorySettles s (s.storeAt a bs) :=
  (settleRange_settles s a bs.length).trans (store_memoryOnly _ a bs).settles

/-! ### What the tables of a context map -/

/-- Two states in which every context's tables map the same. -/
structure SameTables (s t : State) : Prop where
  mem : t.mem = s.mem
  ctxs : ∀ k, (t.pkg k).ctxs = (s.pkg k).ctxs
  bankV : ∀ k, (t.pkg k).phys.bankV = (s.pkg k).phys.bankV
section
variable {s t : State} (h : SameTables s t)
include h
theorem SameTables.walkFrom (k : Nat) (lvs : List Nat) (tbl : Nat) (va : W64) : Machine.walkFrom t k lvs tbl va = Machine.walkFrom s k lvs tbl va := by
  induction lvs generalizing tbl with
  | nil => rfl
  | cons lv lvs ih =>
    unfold Machine.walkFrom State.read64
    rw [h.mem]
    simp only [ih]
theorem SameTables.walk (k : Nat) (ctx : W32) (va : W64) : Machine.walk t k ctx va = Machine.walk s k ctx va := by
  unfold Machine.walk
  rw [h.ctxs]
  simp only [h.walkFrom]
theorem SameTables.placeOf (k : Nat) (e : TlbEntry) (va : W64) : t.placeOf k e va = s.placeOf k e va := by
  unfold State.placeOf State.dsetMask Pkg.bankBytes
  rw [h.mem, h.ctxs, h.bankV]
theorem SameTables.devLeaf (k : Nat) (ctx : W32) (va : W64) : t.devLeaf k ctx va = s.devLeaf k ctx va := by
  unfold State.devLeaf
  rw [h.walk]
theorem SameTables.devPlace (k : Nat) (ctx : W32) (va : W64) : t.devPlace k ctx va = s.devPlace k ctx va := by
  unfold State.devPlace
  rw [h.walk]
  simp only [h.placeOf]
theorem SameTables.devKey (k : Nat) (ctx : W32) (va : W64) : t.devKey k ctx va = s.devKey k ctx va := by
  unfold State.devKey
  rw [h.devPlace]
theorem SameTables.wordKey (k : Nat) (ctx : W32) (va : W64) (w : Bool) : t.wordKey k ctx va w = s.wordKey k ctx va w := by
  unfold State.wordKey
  rw [h.devLeaf, h.devKey]
theorem SameTables.fetchAt (k : Nat) (ctx : W32) (va : W64) : t.fetchAt k ctx va = s.fetchAt k ctx va := by
  unfold State.fetchAt
  rw [h.devLeaf, h.devPlace]
  simp only [h.devKey]
theorem SameTables.devFetch (k : Nat) (ctx : W32) (va : W64) (n : Nat) : t.devFetch k ctx va n = s.devFetch k ctx va n := by
  unfold State.devFetch State.load
  simp only [h.fetchAt, h.mem]
end
theorem SameTables.refl (s : State) : SameTables s s := ⟨rfl, fun _ => rfl, fun _ => rfl⟩
theorem SameTables.trans {s t u : State} (h : SameTables s t) (h' : SameTables t u) : SameTables s u :=
  ⟨h'.mem.trans h.mem, fun k => (h'.ctxs k).trans (h.ctxs k), fun k => (h'.bankV k).trans (h.bankV k)⟩
/-- A change of a package that leaves its contexts and the sizes of its banks. -/
theorem modPkg_sameTables (s : State) (k : Nat) (f : Pkg → Pkg) (h1 : (f (s.pkg k)).ctxs = (s.pkg k).ctxs) (h2 : (f (s.pkg k)).phys.bankV = (s.pkg k).phys.bankV) :
    SameTables s (s.modPkg k f) := by
  refine ⟨rfl, fun j => ?_, fun j => ?_⟩ <;> rw [State.pkg_modPkg] <;> split
  next hj => rw [hj]; exact h1
  next => rfl
  next hj => rw [hj]; exact h2
  next => rfl
end Sys2Proof
end

