-- ==== Sys2Proof/Proofs/LaunchQueues.lean ====
section
/-! SUPPORT. Launch queues, the front end and the launch table (R288, R289, R292, R293, R297). -/

namespace Sys2Proof
open Machine

/-! ### Queues -/

theorem lq_mgmtEvent (p : Pkg) (kind cls unit : Nat) (wh : W64) (j : Nat) : (mgmtEvent p kind cls unit wh).lq j = p.lq j :=
  mgmtEvent_of_host (fun p => p.lq j) fun _ _ => rfl
theorem size_eq (d : LQueue) : d.size = 2 ^ (d.ctl.toNat % 16) := by
  unfold LQueue.size LQueue.log2n nbits
  rw [Nat.shiftRight_zero]
  rfl
theorem slotVa_eq (d : LQueue) (n : W32) : d.slotVa n = d.base + BitVec.ofNat 64 (128 * (n.toNat % 2 ^ (d.ctl.toNat % 16))) := by
  unfold LQueue.slotVa
  rw [size_eq]
theorem prio_eq (d : LQueue) : d.prio = d.ctl.toNat / 16 % 4 := by
  unfold LQueue.prio nbits
  rw [Nat.shiftRight_eq_div_pow]
  rfl

section
variable {s : State} {k q : Nat} {v : W32}

theorem doorbell_of_running (h : (s.pkg k).sec.booted = true ∧ (s.pkg k).sec.recovery = false ∧ (s.pkg k).phys.powered = true) :
    ∃ t, exec (.launchDoorbell k q v) s = .next t ∧ t = { s with pkgs := t.pkgs } ∧ t.pkg k = (s.pkg k).lqTail q v := by
  obtain ⟨h1, h2, h3⟩ := h
  refine ⟨_, rfl, rfl, ?_⟩
  rw [State.pkg_modPkg_self]
  exact if_pos (by rw [h1, h2, h3]; rfl)
theorem doorbell_of_silent (h : ((s.pkg k).lq q).ctl.getLsbD 7 = true ∨
    ¬((s.pkg k).sec.booted = true ∧ (s.pkg k).sec.recovery = false ∧ (s.pkg k).phys.powered = true)) :
    After (.launchDoorbell k q v) s (fun t => t.pkg k = s.pkg k) := by
  refine ⟨_, rfl, ?_⟩
  dsimp only
  rw [State.pkg_modPkg_self]
  split
  next hr =>
    rw [Bool.and_eq_true, Bool.and_eq_true, Bool.not_eq_true'] at hr
    rcases h with h | h
    · unfold Pkg.lqTail
      exact if_pos h
    · exact absurd ⟨hr.1.1, hr.1.2, hr.2⟩ h
  next => rfl
section
variable (hdev : ((s.pkg k).lq q).ctl.getLsbD 7 = false)
include hdev
theorem lqTail_moves (h : tailOk ((s.pkg k).lq q).size ((s.pkg k).lq q).tail ((s.pkg k).lq q).head v = true) :
    (s.pkg k).lqTail q v = (s.pkg k).modLq q (fun d => { d with tail := v }) := by
  unfold Pkg.lqTail LQueue.dev
  dsimp only
  rw [if_neg (by rw [hdev]; decide), if_pos h]
theorem lqTail_refuses (h : tailOk ((s.pkg k).lq q).size ((s.pkg k).lq q).tail ((s.pkg k).lq q).head v ≠ true) :
    (s.pkg k).lqTail q v = mgmtEvent ((s.pkg k).modLq q (fun d => { d with err := true })) 0x4D 6 q 0 := by
  unfold Pkg.lqTail LQueue.dev
  dsimp only
  rw [if_neg (by rw [hdev]; decide), if_neg h]
end

/-! ### The front end -/

/-- The package whose front end has taken the record at the head of a queue. -/
def recordTaken (q : Nat) (p : Pkg) : Pkg :=
  { p.modLq q (fun d => { d with head := d.head + 1, depths := d.depths.tail }) with
    sched := { (p.modLq q (fun d => { d with head := d.head + 1, depths := d.depths.tail })).sched with lqTurn := (q + 1) % 64 } }
/-- Its state. -/
def takenAt (s : State) (k q : Nat) : State := s.modPkg k (recordTaken q)
theorem takenAt_tables (s : State) (k q : Nat) : SameTables s (takenAt s k q) := modPkg_sameTables s k _ rfl rfl
theorem takenAt_pkg (s : State) (k q : Nat) : (takenAt s k q).pkg k = recordTaken q (s.pkg k) := State.pkg_modPkg_self ..
/-- The queue that a record has been taken from, the others, and the turn. -/
theorem recordTaken_queues {p r : Pkg} (h1 : r.sched.lqs = (recordTaken q p).sched.lqs) (h2 : r.sched.lqTurn = (recordTaken q p).sched.lqTurn) :
    r.lq q = { p.lq q with head := (p.lq q).head + 1, depths := (p.lq q).depths.tail } ∧ (∀ j, j ≠ q → r.lq j = p.lq j) ∧
      r.sched.lqTurn = (q + 1) % 64 := by
  have hl : ∀ j, r.lq j = (p.modLq q (fun d => { d with head := d.head + 1, depths := d.depths.tail })).lq j := fun j => by
    unfold Pkg.lq
    rw [h1]
    rfl
  refine ⟨?_, fun j hj => ?_, h2.trans rfl⟩
  · rw [hl, lq_modLq, if_pos rfl]
  · rw [hl, lq_modLq, if_neg hj]

/-- Where the launch that a record asks for comes from. -/
def unitOf (d : LQueue) (q : Nat) : Nat := if d.dev then 64 else q
def launchFrom (d : LQueue) (q : Nat) (x : Launch) : Launch :=
  { x with queue := unitOf d q, prio := d.prio, depth := if d.dev then d.depths.headD 0 else 0 }

theorem frontEnd_idle (h : (s.pkg k).nextQueue ≠ some q) : exec (.frontEndTake k q) s = .next s := if_pos h
section
variable (h : (s.pkg k).nextQueue = some q)
include h
theorem frontEnd_unread (hf : s.devFetch k ((s.pkg k).lq q).ctx (((s.pkg k).lq q).slotVa ((s.pkg k).lq q).head) 128 = none) :
    exec (.frontEndTake k q) s = .next ((takenAt s k q).modPkg k (fun p =>
      mgmtEvent p 0x4F 6 (unitOf ((s.pkg k).lq q) q) (((s.pkg k).lq q).slotVa ((s.pkg k).lq q).head))) := by
  refine Eq.trans (show _ = execFrontEndTake k q s from rfl) ?_
  unfold execFrontEndTake
  rw [if_neg (fun hn => hn h)]
  dsimp only
  rw [hf]
  rfl
theorem frontEnd_read {bs : List Byte} (hf : s.devFetch k ((s.pkg k).lq q).ctx (((s.pkg k).lq q).slotVa ((s.pkg k).lq q).head) 128 = some bs) :
    (∀ c, s.judge k ((s.pkg k).lq q).ctx (((s.pkg k).lq q).slotVa ((s.pkg k).lq q).head) bs = .inl c → exec (.frontEndTake k q) s =
      .next ((takenAt s k q).markRefusal k (unitOf ((s.pkg k).lq q) q) ((s.pkg k).lq q).ctx
        (lrecOf (((s.pkg k).lq q).slotVa ((s.pkg k).lq q).head) bs) c false)) ∧
    ∀ x, s.judge k ((s.pkg k).lq q).ctx (((s.pkg k).lq q).slotVa ((s.pkg k).lq q).head) bs = .inr x → exec (.frontEndTake k q) s =
      .next ((takenAt s k q).addLaunch k (launchFrom ((s.pkg k).lq q) q x)) := by
  refine ⟨fun c hj => ?_, fun x hj => ?_⟩ <;> refine Eq.trans (show _ = execFrontEndTake k q s from rfl) ?_ <;> unfold execFrontEndTake <;>
    rw [if_neg (fun hn => hn h)] <;> dsimp only <;> rw [hf] <;> dsimp only <;> rw [hj] <;> rfl
end

/-! ### Refusals -/

theorem refusalMark_toNat (c : Nat) (m : W64) : (refusalMark c m).toNat = 2 ^ 63 + (m.toNat + 2 ^ 40 * c) % 2 ^ 63 := by
  unfold refusalMark
  rw [BitVec.toNat_ofNat, Nat.mod_eq_of_lt]
  have := Nat.mod_lt (m.toNat + 2 ^ 40 * c) (by decide : 0 < 2 ^ 63)
  omega
theorem markRefusal_silent {unit c : Nat} {ctx : W32} {r : LRec} {tk : Bool} (h : r.evt = 0) : s.markRefusal k unit ctx r c tk = s := if_pos h
/-- A refusal is marked in the word of its record. -/
theorem markRefusal_marks {unit c key : Nat} {ctx : W32} {r : LRec} {tk : Bool} (h0 : r.evt ≠ 0) (h8 : r.evt.toNat % 8 = 0)
    (hk : s.wordKey k ctx r.evt true = .inr key) : s.markRefusal k unit ctx r c tk = (s.update key 8 (refusalMark c) none).2 := by
  unfold State.markRefusal
  rw [if_neg h0, if_pos h8, hk]
theorem update_refused {key c : Nat} (hn : NoneAbout s key 8) :
    MemoryTakes s (s.update key 8 (refusalMark c) none).2 key 8 (2 ^ 63 + (numberAt s key 8 + 2 ^ 40 * c) % 2 ^ 63) := by
  have h := (update_of_none hn (refusalMark c) none).2
  have hlt : numberAt s key 8 < 2 ^ 64 := numberAt_lt s key 8
  rwa [refusalMark_toNat, BitVec.toNat_ofNat, Nat.mod_eq_of_lt hlt] at h
/-- The refusal of a record that has not entered the table leaves the queues and the table. -/
theorem markRefusal_sched (unit c : Nat) (ctx : W32) (r : LRec) (j : Nat) : ((s.markRefusal k unit ctx r c false).pkg j).sched = (s.pkg j).sched := by
  unfold State.markRefusal
  split
  · rfl
  · split
    · rw [(update_settles s _ 8 _ none).pkg]
    · rw [if_neg (by decide), State.pkg_modPkg]
      split
      next h => subst h; exact mgmtEvent_of_host (fun p => p.sched) fun _ _ => rfl
      next => rfl


theorem launch_reelRefused (p : Pkg) (n : Nat) : (p.reelRefused n).sched = p.sched ∧ (p.reelRefused n).ctxs = p.ctxs ∧ (p.reelRefused n).phys = p.phys := by
  unfold Pkg.reelRefused
  split <;> exact ⟨rfl, rfl, rfl⟩
/-- The state in which a launch has left the table, and the reel knows that it was refused (R392). -/
def launchDropped (s : State) (k n : Nat) : State := (s.modPkg k (fun p => p.reelRefused n)).dropLaunch k n
theorem launchDropped_tables (s : State) (k n : Nat) : SameTables s (launchDropped s k n) := by
  unfold launchDropped State.dropLaunch
  refine SameTables.trans (t := s.modPkg k (fun p => p.reelRefused n)) (modPkg_sameTables s k (fun p => p.reelRefused n) (launch_reelRefused _ n).2.1
    (congrArg Phys.bankV (launch_reelRefused _ n).2.2)) ?_
  exact modPkg_sameTables _ k (fun p => { p with sched := { p.sched with launches := fdel p.sched.launches n } }) rfl rfl
theorem launchDropped_gone (s : State) (k n : Nat) : flook ((launchDropped s k n).pkg k).sched.launches n = none := by
  unfold launchDropped State.dropLaunch
  rw [State.pkg_modPkg_self]
  exact (flook_fdel ..).trans (if_pos rfl)
theorem flook_fkeep_none {α : Type} {m : FMap α} {n : Nat} (h : flook m n = none) (f : Nat → α → Bool) : flook (fkeep m f) n = none := by
  induction m with
  | nil => rfl
  | cons e m ih =>
    obtain ⟨j, x⟩ := e
    unfold flook at h
    split at h
    · exact nomatch h
    next hj =>
      unfold fkeep
      rw [List.filter_cons]
      split
      · unfold flook
        rw [if_neg hj]
        exact ih h
      · exact ih h
/-- The stop of a context brings no launch into the table. -/
theorem stopContext_gone {n : Nat} (h : flook (s.pkg k).sched.launches n = none) (c : W32) (cause : Cause) (sub : Byte) (pc va : W64) :
    flook ((stopContext s k c cause sub pc va).pkg k).sched.launches n = none := by
  have hc : flook ((clearContext s k c).pkg k).sched.launches n = none := by
    rw [(clearContext_cleared s k c).launches]
    exact flook_fkeep_none h _
  have he : ∀ l, flook ((hostEvent (clearContext s k c) k c cause sub l pc va).pkg k).sched.launches n = none := fun l =>
    (hostEvent_of_host (clearContext s k c) k c cause sub l pc va (fun p => flook p.sched.launches n) (fun _ _ => rfl) k).trans hc
  rw [stopContext_eq]
  split
  · split
    · exact hc
    · exact he _
  · split
    · exact h
    · exact he _
theorem markRefusal_gone {n unit c : Nat} {ctx : W32} {r : LRec} (h : flook (s.pkg k).sched.launches n = none) :
    flook ((s.markRefusal k unit ctx r c true).pkg k).sched.launches n = none := by
  unfold State.markRefusal
  split
  · exact h
  · split
    · rw [(update_settles s _ 8 _ none).pkg]
      exact h
    · rw [if_pos rfl]
      exact stopContext_gone h ..

/-! ### The launch table -/

section
variable {n : Nat} {x : Launch} (hx : flook (s.pkg k).sched.launches n = some x)
include hx
theorem recheck_settled (h : x.st ≠ .waiting) : s.recheck k n = s := by
  unfold State.recheck
  rw [hx]
  exact if_pos h
section
variable (hst : x.st = .waiting) {key : Nat} (hk : s.wordKey k x.ctx x.rcd.wevt false = .inr key)
include hst hk
theorem recheck_early (h : numberAt s key 8 < x.rcd.wval.toNat) : s.recheck k n = s := by
  unfold State.recheck
  rw [hx]
  dsimp only
  rw [if_neg (fun hn => hn hst), hk]
  exact if_pos h
theorem recheck_comes (h : x.rcd.wval.toNat ≤ numberAt s key 8) (h2 : numberAt s key 8 < 2 ^ 63) :
    s.recheck k n = { s with nextId := s.nextId + 1 }.modPkg k (fun p => p.modLaunch n (fun x => { x with
      st := if x.caller.isSome then .held else .ready, readySeq := s.nextId })) := by
  unfold State.recheck
  rw [hx]
  dsimp only
  rw [if_neg (fun hn => hn hst), hk]
  exact (if_neg (Nat.not_lt.2 h)).trans (if_neg (Nat.not_le.2 h2))
theorem recheck_refuses (h : x.rcd.wval.toNat ≤ numberAt s key 8) (h2 : 2 ^ 63 ≤ numberAt s key 8) (hp : x.parent = none) :
    s.recheck k n = (launchDropped s k n).markRefusal k x.queue x.ctx x.rcd 4 true := by
  unfold State.recheck
  rw [hx]
  dsimp only
  rw [if_neg (fun hn => hn hst), hk]
  refine (if_neg (Nat.not_lt.2 h)).trans ((if_pos h2).trans ?_)
  have hl : s.launch k n = x := fget_of_flook_some hx
  unfold State.refuseTaken
  dsimp only
  rw [hl, hp]
  rfl
end
theorem flook_modLaunch (f : Launch → Launch) : flook ((s.pkg k).modLaunch n f).sched.launches n = some (f x) := by
  refine (flook_fmod ..).trans ?_
  rw [if_pos rfl, hx]
  rfl
end

theorem rechecks (n : Nat) : exec (.launchReady k n) s = .next (s.recheck k n) ∧ exec (.launchRecheckTimer k n) s = .next (s.recheck k n) := ⟨rfl, rfl⟩

theorem flook_isSome_of_mem {α : Type} {m : FMap α} {e : Nat × α} (h : e ∈ m) : ∃ x, flook m e.1 = some x := by
  induction m with
  | nil => exact absurd h List.not_mem_nil
  | cons a m ih =>
    unfold flook
    split
    · exact ⟨_, rfl⟩
    next hne => exact ih ((List.mem_cons.1 h).resolve_left fun he => hne (by rw [he]))
/-- The launch that is to be handed over is one of the table's. -/
theorem nextReady_listed {p : Pkg} {e : Nat × Launch} (h : p.nextReady = some e) : ∃ x, flook p.sched.launches e.1 = some x :=
  flook_isSome_of_mem (List.mem_filter.1 (mem_sortBy.1 (List.mem_of_head? h))).1
theorem handover_gives {c : Nat} {e : Nat × Launch} (hc : (s.pkg k).freeCaller = some c) (he : (s.pkg k).nextReady = some e) (hg : e.2.rcd.graph = false) :
    exec (.callerHandover k) s = .next (s.modPkg k (fun p => p.modLaunch e.1 (fun x => { x with caller := some c, st := .held }))) := by
  refine Eq.trans (show _ = execCallerHandover k s from rfl) ?_
  unfold execCallerHandover
  rw [hc, he]
  dsimp only
  rw [if_neg (by rw [hg]; decide)]
theorem handover_idle (h : (s.pkg k).freeCaller = none ∨ (s.pkg k).nextReady = none) : exec (.callerHandover k) s = .next s := by
  refine Eq.trans (show _ = execCallerHandover k s from rfl) ?_
  unfold execCallerHandover
  rcases h with h | h
  · rw [h]
  · rw [h]
    cases (s.pkg k).freeCaller <;> rfl

/-! ### The parts of the obligation -/

theorem frontEnd_takes (h : (s.pkg k).nextQueue = some q) {bs : List Byte}
    (hf : s.devFetch k ((s.pkg k).lq q).ctx (((s.pkg k).lq q).slotVa ((s.pkg k).lq q).head) 128 = some bs) {x : Launch}
    (hj : s.judge k ((s.pkg k).lq q).ctx (((s.pkg k).lq q).slotVa ((s.pkg k).lq q).head) bs = .inr x) (hc : x.caller = none) :
    ∃ t, exec (.frontEndTake k q) s = .next t ∧ (t.pkg k).sched.lqs = (recordTaken q (s.pkg k)).sched.lqs ∧
      (t.pkg k).sched.lqTurn = (recordTaken q (s.pkg k)).sched.lqTurn ∧ t.mem = s.mem ∧
      flook (t.pkg k).sched.launches s.nextId = some { launchFrom ((s.pkg k).lq q) q x with
        st := if x.rcd.wevt ≠ 0 then .waiting else .ready, readySeq := s.nextId } := by
  refine ⟨_, (frontEnd_read h hf).2 x hj, ?_, ?_, rfl, ?_⟩ <;> unfold State.addLaunch <;> rw [State.pkg_modPkg_self]
  · show ((takenAt s k q).pkg k).sched.lqs = _
    rw [takenAt_pkg]
  · show ((takenAt s k q).pkg k).sched.lqTurn = _
    rw [takenAt_pkg]
  · refine (flook_fput ..).trans ((if_pos rfl).trans ?_)
    rw [show (launchFrom ((s.pkg k).lq q) q x).caller.isSome = false from Option.isSome_eq_false_iff.2 (Option.isNone_iff_eq_none.2 hc)]
    rfl

/-- The record at the head of a queue whose turn it is: whatever becomes of it, it has left the queue. -/
theorem frontEnd_refuses (h : (s.pkg k).nextQueue = some q) {bs : List Byte}
    (hf : s.devFetch k ((s.pkg k).lq q).ctx (((s.pkg k).lq q).slotVa ((s.pkg k).lq q).head) 128 = some bs) {c : Nat}
    (hj : s.judge k ((s.pkg k).lq q).ctx (((s.pkg k).lq q).slotVa ((s.pkg k).lq q).head) bs = .inl c)
    {r : LRec} (hr : lrecOf (((s.pkg k).lq q).slotVa ((s.pkg k).lq q).head) bs = r) :
    ∃ t, exec (.frontEndTake k q) s = .next t ∧ (t.pkg k).sched = (recordTaken q (s.pkg k)).sched ∧ (r.evt = 0 → t.mem = s.mem) ∧
      ∀ key, r.evt ≠ 0 → r.evt.toNat % 8 = 0 → s.wordKey k ((s.pkg k).lq q).ctx r.evt true = .inr key →
        NoneAbout s key 8 → MemoryTakes s t key 8 (2 ^ 63 + (numberAt s key 8 + 2 ^ 40 * c) % 2 ^ 63) := by
  refine ⟨_, (frontEnd_read h hf).1 c hj, ?_, fun h0 => ?_, fun key h0 h8 hk hn => ?_⟩ <;> rw [hr]
  · rw [markRefusal_sched, takenAt_pkg]
  · rw [markRefusal_silent h0]
    rfl
  · rw [markRefusal_marks h0 h8 (((takenAt_tables s k q).wordKey ..).trans hk)]
    exact update_refused (s := takenAt s k q) hn

theorem recheck_cases {n : Nat} {x : Launch} (hx : flook (s.pkg k).sched.launches n = some x) {i : Instr} (hi : exec i s = .next (s.recheck k n)) :
    (x.st ≠ .waiting → exec i s = .next s) ∧
      ∀ key, x.st = .waiting → s.wordKey k x.ctx x.rcd.wevt false = .inr key →
        let w := numberAt s key 8
        (w < x.rcd.wval.toNat → exec i s = .next s) ∧
        (x.rcd.wval.toNat ≤ w → w < 2 ^ 63 → After i s (fun t => t.mem = s.mem ∧ flook (t.pkg k).sched.launches n =
          some { x with st := if x.caller = none then .ready else .held, readySeq := s.nextId })) ∧
        (x.rcd.wval.toNat ≤ w → 2 ^ 63 ≤ w → x.parent = none → After i s (fun t => flook (t.pkg k).sched.launches n = none ∧
          ∀ key2, x.rcd.evt ≠ 0 → x.rcd.evt.toNat % 8 = 0 → s.wordKey k x.ctx x.rcd.evt true = .inr key2 → NoneAbout s key2 8 →
            MemoryTakes s t key2 8 (2 ^ 63 + (numberAt s key2 8 + 2 ^ 40 * 4) % 2 ^ 63))) := by
  refine ⟨fun hst => by rw [hi, recheck_settled hx hst], fun key hst hk => ⟨fun hw => by rw [hi, recheck_early hx hst hk hw],
    fun hw h2 => ⟨_, hi.trans (congrArg _ (recheck_comes hx hst hk hw h2)), rfl, ?_⟩,
    fun hw h2 hp => ⟨_, hi.trans (congrArg _ (recheck_refuses hx hst hk hw h2 hp)), markRefusal_gone (launchDropped_gone s k n), fun key2 h0 h8 hk2 hn => ?_⟩⟩⟩
  · rw [State.pkg_modPkg_self]
    refine (flook_modLaunch hx _).trans ?_
    cases x.caller <;> rfl
  · rw [markRefusal_marks h0 h8 (((launchDropped_tables s k n).wordKey ..).trans hk2)]
    exact update_refused (s := launchDropped s k n) hn

end

/-- Settles O43: a doorbell moves TAIL or leaves its event, the front end takes the record at HEAD into the table or marks its refusal, a
launch that waits is checked against its word, ages, and is handed to a free caller. -/
theorem launchQueues : Obligations.LaunchQueues := by
  intro s k q n v
  refine ⟨fun hr hdev hf => ?_, fun hr hdev hf => ?_, fun h => doorbell_of_silent h, fun h => frontEnd_idle h, fun h => ?_,
    fun x i hi hx => ?_, fun x hx => ⟨_, rfl, ?_⟩, fun c e hc he hg => ?_, fun h => handover_idle h⟩
  · obtain ⟨t, ht, hfr, hp⟩ := doorbell_of_running (q := q) (v := v) hr
    rw [lqTail_moves hdev (by rw [tailOk_iff, size_eq]; exact hf)] at hp
    refine ⟨t, ht, hfr, ?_, fun j hj => ?_⟩
    · rw [hp, lq_modLq, if_pos rfl]
    · rw [hp, lq_modLq, if_neg hj]
  · obtain ⟨t, ht, -, hp⟩ := doorbell_of_running (q := q) (v := v) hr
    rw [lqTail_refuses hdev (by rw [ne_eq, tailOk_iff, size_eq]; exact hf)] at hp
    refine ⟨t, ht, ?_, fun j hj => ?_, mgmtEvent_written (p := (s.pkg k).modLq q (fun d => { d with err := true })) rfl hp (by decide) (by decide)⟩
    · rw [hp, lq_mgmtEvent, lq_modLq, if_pos rfl]
    · rw [hp, lq_mgmtEvent, lq_modLq, if_neg hj]
  · rw [← slotVa_eq]
    refine ⟨fun hf => ⟨_, frontEnd_unread h hf, ?_, ?_⟩, fun bs hf => ⟨fun x hj hc => ?_, fun c hj => ?_⟩⟩
    · refine recordTaken_queues ?_ ?_ <;> rw [State.pkg_modPkg_self, takenAt_pkg]
      · exact mgmtEvent_of_host (fun p => p.sched.lqs) fun _ _ => rfl
      · exact mgmtEvent_of_host (fun p => p.sched.lqTurn) fun _ _ => rfl
    · exact mgmtEvent_written (p := recordTaken q (s.pkg k)) rfl (by rw [State.pkg_modPkg_self, takenAt_pkg]; rfl) (by decide) (by decide)
    · obtain ⟨t, ht, h1, h2, hm, hl⟩ := frontEnd_takes h hf hj hc
      refine ⟨t, ht, recordTaken_queues h1 h2, hm, _, hl, rfl, rfl, rfl, hc, prio_eq _, ?_⟩
      exact ite_not ..
    · obtain ⟨t, ht, h1, hm, hw⟩ := frontEnd_refuses h hf hj rfl
      exact ⟨t, ht, recordTaken_queues (by rw [h1]) (by rw [h1]), by rw [h1]; rfl, hm, hw⟩
  · refine recheck_cases hx ?_
    rcases hi with rfl | rfl
    · exact (rechecks n).1
    · exact (rechecks n).2
  · dsimp only
    rw [State.pkg_modPkg_self]
    refine (flook_modLaunch hx _).trans (congrArg some ?_)
    have ha : x.ages (s.pkg k).now = true ↔ (x.st = .waiting ∨ x.st = .ready) ∧ x.prio ≠ 0 ∧ x.since + 1000000 ≤ (s.pkg k).fab.caltime.toNat := by
      unfold Launch.ages Pkg.now
      simp [and_assoc]
    exact if_congr ha rfl rfl
  · obtain ⟨x, hx⟩ := nextReady_listed he
    refine ⟨_, handover_gives hc he hg, rfl, x, hx, ?_⟩
    rw [State.pkg_modPkg_self]
    exact flook_modLaunch hx _

end Sys2Proof
end

