-- ==== Sys2Proof/Proofs/PartnersAndRegisters.lean ====
section
/-! SUPPORT. Partner queues (R34 to R37, R170) and register allotment (R30 to R33, R236). -/

namespace Sys2Proof
open Machine

/-! ### Queue windows -/

theorem partnerOf_ne (w : Nat) : partnerOf w ≠ w := by
  unfold partnerOf
  split <;> omega

/-- The windows of some lanes change. -/
def changeQueues (ls : List Nat) (f : Nat → List W32 → List W32) (v : Wave) : Wave := ls.foldl (fun v l => v.setQ l (f l (v.q l))) v
theorem changeQueues_rest (ls : List Nat) (f : Nat → List W32 → List W32) (v : Wave) :
    changeQueues ls f v = { v with queue := (changeQueues ls f v).queue } := by
  induction ls generalizing v with
  | nil => rfl
  | cons l ls ih => exact (ih (v.setQ l (f l (v.q l)))).trans rfl
theorem changeQueues_lanes (ls : List Nat) (f : Nat → List W32 → List W32) (v : Wave) (ln : FMap Lane) :
    changeQueues ls f { v with lanes := ln } = { changeQueues ls f v with lanes := ln } := by
  induction ls generalizing v with
  | nil => rfl
  | cons l ls ih => exact ih (v.setQ l (f l (v.q l)))
theorem q_setQ (v : Wave) (l j : Nat) (q : List W32) : (v.setQ l q).q j = if j = l then q else v.q j := fget_fset ..
theorem q_changeQueues {ls : List Nat} (hd : ls.Nodup) (f : Nat → List W32 → List W32) (v : Wave) (j : Nat) :
    (changeQueues ls f v).q j = if j ∈ ls then f j (v.q j) else v.q j := by
  induction ls generalizing v with
  | nil => rfl
  | cons l ls ih =>
    obtain ⟨hl, hd⟩ := List.nodup_cons.1 hd
    have h := ih hd (v.setQ l (f l (v.q l)))
    rw [q_setQ] at h
    refine h.trans ?_
    by_cases hj : j = l
    · subst hj
      rw [if_neg hl, if_pos rfl, if_pos (List.mem_cons_self ..)]
    · rw [if_neg hj]
      exact if_congr ⟨List.mem_cons_of_mem _, fun hm => (List.mem_cons.1 hm).resolve_left hj⟩ rfl rfl

section
variable {s : State} {m : Mods} {d : Reg}

/-- The active lanes whose partner lane lives. -/
def pushing (s : State) (m : Mods) : List Nat := (s.activeLanes m).filter (fun l => ((s.wave (partnerOf s.cur.wid)).lane l).st != .exit)
theorem mem_pushing {l : Nat} : l ∈ pushing s m ↔ On s m l ∧ (s.lane (partnerOf s.cur.wid) l).st ≠ .exit := by
  unfold pushing
  rw [List.mem_filter, mem_activeLanes, bne_iff_ne]
  rfl
theorem not_isEmpty_active (ha : ∃ l, On s m l) : ¬(s.activeLanes m).isEmpty = true := by
  obtain ⟨l, hl⟩ := ha
  rw [List.isEmpty_iff]
  exact List.ne_nil_of_mem (mem_activeLanes.2 hl)
section
variable (hp : (s.wave s.cur.wid).part = true)
include hp
theorem qpush_goes (h : ∀ l ∈ pushing s m, ((s.wave (partnerOf s.cur.wid)).q l).length < 8) : exec (.qpush m d) s =
    .next (finish (if (s.activeLanes m).isEmpty then s else
      s.modWave (partnerOf s.cur.wid) (changeQueues (pushing s m) (fun l q => q ++ [s.src s.cur.wid l d]))) []) := by
  refine Eq.trans (show _ = execQpush m d s from rfl) ?_
  unfold execQpush
  dsimp only
  split
  next he => rfl
  next he =>
    rw [if_neg (by rw [show s.curWave = s.wave s.cur.wid from rfl, hp]; decide), if_neg]
    · rfl
    · intro hn
      obtain ⟨l, hl, h8⟩ := List.any_eq_true.1 hn
      exact absurd (h l hl) (Nat.not_lt.2 (of_decide_eq_true h8))
theorem qpush_waits {l : Nat} (ha : l ∈ pushing s m) (h : 8 ≤ ((s.wave (partnerOf s.cur.wid)).q l).length) :
    exec (.qpush m d) s = .next (waitAt s (.qpush m d)) := by
  refine Eq.trans (show _ = execQpush m d s from rfl) ?_
  unfold execQpush
  dsimp only
  rw [if_neg (not_isEmpty_active ⟨l, (mem_pushing.1 ha).1⟩), if_neg (by rw [show s.curWave = s.wave s.cur.wid from rfl, hp]; decide)]
  exact if_pos (List.any_eq_true.2 ⟨l, ha, decide_eq_true h⟩)
end
/-- The words of a push stand in its partner's windows, and nothing else has changed. -/
theorem pushed_words (s : State) (m : Mods) (d : Reg) :
    let u := if (s.activeLanes m).isEmpty then s else
      s.modWave (partnerOf s.cur.wid) (changeQueues (pushing s m) (fun l q => q ++ [s.src s.cur.wid l d]))
    u = { s with waves := u.waves } ∧
      u.wave (partnerOf s.cur.wid) = changeQueues (pushing s m) (fun l q => q ++ [s.src s.cur.wid l d]) (s.wave (partnerOf s.cur.wid)) ∧
      ∀ v, v ≠ partnerOf s.cur.wid → u.wave v = s.wave v := by
  dsimp only
  split
  next h =>
    refine ⟨rfl, ?_, fun _ _ => rfl⟩
    unfold pushing
    rw [List.isEmpty_iff.1 h]
    rfl
  next => exact ⟨rfl, State.wave_modWave_self .., fun v hv => by rw [State.wave_modWave, if_neg hv]⟩
theorem qpush_refused (hp : (s.wave s.cur.wid).part = false) (ha : ∃ l, On s m l) : exec (.qpush m d) s = .next (refuse s m .partner) := by
  refine Eq.trans (show _ = execQpush m d s from rfl) ?_
  unfold execQpush
  dsimp only
  rw [if_neg (not_isEmpty_active ha)]
  exact if_pos (by rw [show s.curWave = s.wave s.cur.wid from rfl, hp]; rfl)
theorem qpop_refused (hp : (s.wave s.cur.wid).part = true ∨ s.curTroupe.hdr.pentry = 0) (ha : ∃ l, On s m l) :
    exec (.qpop m d) s = .next (refuse s m .partner) := by
  refine Eq.trans (show _ = execQpop m d s from rfl) ?_
  unfold execQpop
  dsimp only
  refine if_pos ?_
  rw [Bool.and_eq_true, Bool.or_eq_true, Bool.not_eq_true', beq_iff_eq]
  exact ⟨Bool.eq_false_iff.2 (not_isEmpty_active ha), hp⟩

/-- The state in which the lanes of a path have taken a word each. -/
def popped (s : State) (m : Mods) (d : Reg) : State :=
  (({ s with nextId := s.nextId + 1 }).updLanes s.cur.wid (lanesOf s.cur.lanes) (fun l x =>
      if m.active x then x.send none s.nextId (outs32 d (((s.wave s.cur.wid).q l).headD 0))
      else if m.zero then x.send none s.nextId (zeroOuts (dstRegs d 1)) else x)).modWave s.cur.wid
    (changeQueues (s.activeLanes m) (fun _ q => q.tail))
section
variable (hp : (s.wave s.cur.wid).part = false) (he : s.curTroupe.hdr.pentry ≠ 0)
include hp he
theorem qpop_served : ¬(!(s.activeLanes m).isEmpty && (s.curWave.part || s.curTroupe.hdr.pentry == 0)) = true := by
  rw [show s.curWave = s.wave s.cur.wid from rfl, hp, beq_eq_false_iff_ne.2 he, Bool.or_false, Bool.and_false]
  decide
theorem qpop_goes (h : ∀ l, On s m l → (s.wave s.cur.wid).q l ≠ []) : exec (.qpop m d) s = .next (finish (popped s m d) []) := by
  refine Eq.trans (show _ = execQpop m d s from rfl) ?_
  unfold execQpop
  dsimp only
  rw [if_neg (qpop_served hp he)]
  refine if_neg fun hn => ?_
  obtain ⟨l, hl, h0⟩ := List.any_eq_true.1 hn
  exact h l (mem_activeLanes.1 hl) (List.isEmpty_iff.1 h0)
theorem qpop_waits {l : Nat} (ha : On s m l) (h : (s.wave s.cur.wid).q l = []) :
    exec (.qpop m d) s = .next ((waitAt s (.qpop m d)).checkQ s.cur.wid) := by
  refine Eq.trans (show _ = execQpop m d s from rfl) ?_
  unfold execQpop
  dsimp only
  rw [if_neg (qpop_served hp he)]
  exact if_pos (List.any_eq_true.2 ⟨l, mem_activeLanes.2 ha, List.isEmpty_iff.2 h⟩)
end

/-- What a pop does to its wave. -/
theorem popped_becomes (s : State) (m : Mods) (d : Reg) : WaveBecomes s (popped s m d) (changeQueues (s.activeLanes m) (fun _ q => q.tail))
    (fun l x => sends s m none (regs1 d) (fun l => to32 d (((s.wave s.cur.wid).q l).headD 0)) (fun _ => 0) l x) := by
  have h0 : WaveBecomes s { s with nextId := s.nextId + 1 } id (fun _ x => x) := (waveBecomes_refl s).of_waves rfl
  have h1 := (h0.updPath (fun l x => if m.active x then x.send none s.nextId (outs32 d (((s.wave s.cur.wid).q l).headD 0))
      else if m.zero then x.send none s.nextId (zeroOuts (dstRegs d 1)) else x)).modWave
    (k := changeQueues (s.activeLanes m) (fun _ q => q.tail)) (fun v => by rw [changeQueues_rest]) (fun v ls => changeQueues_lanes ..)
  refine h1.congr fun l _ => (send_eq_sends s m none (dstRegs d 1) (fun l => outs32 d (((s.wave s.cur.wid).q l).headD 0)) l _).trans ?_
  simp only [dstRegs_one, outs32_eq]

/-! ### Lanes that no partner can serve -/

theorem qOrphan_of_partner {w l : Nat} (hl : l < 32) (h1 : (s.lane w l).st ≠ .exit) (h2 : (s.lane (partnerOf w) l).st ≠ .exit) : s.qOrphan w = false := by
  unfold State.qOrphan
  refine Bool.eq_false_iff.2 fun hn => ?_
  obtain ⟨-, ha⟩ := Bool.and_eq_true_iff.1 hn
  have hm : l ∈ lanesOf (s.wave w).live := (mem_lanesOf _ _).2 (by rw [live_getLsbD, decide_eq_true hl, Bool.true_and]; exact bne_iff_ne.2 h1)
  have hb := List.all_eq_true.1 ha l hm
  rw [Bool.and_eq_true, Bool.and_eq_true, beq_iff_eq] at hb
  exact h2 hb.1.2
theorem stopWith_cause (x : Lane) (r : StopRec) : (x.stopWith (some r)).trapCause = r.code ++ r.sub ++ r.cause.code := by
  unfold Lane.stopWith
  dsimp only
  split
  · rfl
  · split <;> rfl
/-- What the stop of a wave's every live lane records, one cause in each. -/
theorem takeStop_all {w : Nat} {c : Cause} {memb : BitVec 2} {pc : Nat → W64} (hsys : (s.wave w).sys = false) (hl : ∃ l, l < 32 ∧ (s.lane w l).st ≠ .exit) :
    let t := takeStop s w ((lanesOf (s.wave w).live).map (fun l => ⟨l, c, 0, 0, 0, false, memb, pc l⟩))
    (t.wave w).stopped = true ∧ ∀ l, l < 32 → (s.lane w l).st ≠ .exit → (t.lane w l).st = .trap ∧ (t.lane w l).trapCause = c.code.setWidth 32 := by
  have hmem : ∀ l, l ∈ lanesOf (s.wave w).live ↔ l < 32 ∧ (s.lane w l).st ≠ .exit := by
    intro l
    rw [mem_lanesOf, live_getLsbD]
    simp [State.lane]
  obtain ⟨l0, hl0⟩ := hl
  have hne : (lanesOf (s.wave w).live).map (fun l => (⟨l, c, 0, 0, 0, false, memb, pc l⟩ : StopRec)) ≠ [] := by
    rw [ne_eq, List.map_eq_nil_iff]
    exact List.ne_nil_of_mem ((hmem l0).2 hl0)
  refine ⟨by rw [takeStop_wave_self hne hsys]; rfl, fun l hl hx => ?_⟩
  have hf := find_stop (f := fun l => (⟨l, c, 0, 0, 0, false, memb, pc l⟩ : StopRec)) (fun _ => rfl) (lanesOf (s.wave w).live) l
  rw [if_pos ((hmem l).2 ⟨hl, hx⟩)] at hf
  rw [takeStop_lane hne hsys, if_pos ⟨hl, hx⟩, hf]
  refine ⟨(stopWith_keeps ..).1, (stopWith_cause ..).trans ?_⟩
  show (0#16 ++ 0#8 : BitVec 24) ++ c.code = _
  refine BitVec.eq_of_toNat_eq ?_
  rw [BitVec.toNat_append, BitVec.toNat_setWidth_of_le (by decide)]
  simp

theorem lane_q (v : Nat) (l : Nat) : (s.wave v).q l = fget [] (s.wave v).queue l := rfl
theorem checkQ_served {w : Nat} (h : s.qOrphan w = false) : s.checkQ w = s := if_neg (by rw [h]; decide)

/-- A wave all of whose lanes wait for partners that have ended. -/
theorem waits_orphaned (hsys : (s.wave s.cur.wid).sys = false) (hst : (s.wave s.cur.wid).stopped = false) (ha : ∃ l, On s m l)
    (hall : ∀ l, l < 32 → ((s.lane s.cur.wid l).st ≠ .exit ↔ On s m l))
    (hq : ∀ l, On s m l → (s.wave s.cur.wid).q l = [] ∧ (s.lane (partnerOf s.cur.wid) l).st = .exit) :
    let t := (waitAt s (.qpop m d)).checkQ s.cur.wid
    (t.wave s.cur.wid).stopped = true ∧ ∀ l, On s m l → (t.lane s.cur.wid l).st = .trap ∧ (t.lane s.cur.wid l).trapCause = 0x13 := by
  obtain ⟨-, hw⟩ := waitAt_waits s (.qpop m d)
  generalize hu : waitAt s (.qpop m d) = u at hw
  have hlt : ∀ l, On s m l → l < 32 := fun l hl => BitVec.lt_of_getLsbD hl.1
  have hlane : ∀ l, (u.lane s.cur.wid l).st = (s.lane s.cur.wid l).st ∧ (u.lane s.cur.wid l).p = (s.lane s.cur.wid l).p := fun l => by
    rw [hw.lanes]
    split <;> exact ⟨rfl, rfl⟩
  have hlive : ∀ l, l ∈ lanesOf (u.wave s.cur.wid).live ↔ On s m l := fun l => by
    rw [mem_lanesOf, live_getLsbD, Bool.and_eq_true, decide_eq_true_eq, bne_iff_ne, show ((u.wave s.cur.wid).lane l).st = _ from (hlane l).1]
    exact ⟨fun h => (hall l h.1).1 h.2, fun h => ⟨hlt l h, (hall l (hlt l h)).2 h⟩⟩
  have ho : u.qOrphan s.cur.wid = true := by
    unfold State.qOrphan
    dsimp only
    rw [Bool.and_eq_true, Bool.and_eq_true]
    refine ⟨⟨?_, ?_⟩, List.all_eq_true.2 fun l hl => ?_⟩
    · obtain ⟨l, hl⟩ := ha
      have := (mem_lanesOf _ _).1 ((hlive l).2 hl)
      rw [bne_iff_ne]
      intro h0
      rw [h0] at this
      exact absurd this (by simp)
    · rw [hw.rest, Bool.not_eq_true']
      exact hst
    · have hon := (hlive l).1 hl
      obtain ⟨h1, h2⟩ := hq l hon
      rw [Bool.and_eq_true, Bool.and_eq_true, List.isEmpty_iff, beq_iff_eq]
      refine ⟨⟨?_, ?_⟩, List.any_eq_true.2 ⟨⟨s.cur.lanes, .qpop m d, s.cur.pc, s.cur.npc, s.cur.memb, s.cur.stall, s.cur.grouped, [], false⟩, ?_, ?_⟩⟩
      · rw [hw.rest]; exact h1
      · rw [hw.waves _ (partnerOf_ne _)]; exact h2
      · rw [hw.rest]; exact List.mem_append_right _ (List.mem_singleton.2 rfl)
      · rw [Bool.and_eq_true]
        refine ⟨hon.1, ?_⟩
        show m.active (u.lane s.cur.wid l) = true
        rw [hw.lanes, if_pos hon.1]
        exact hon.2
  have hc : u.checkQ s.cur.wid = takeStop u s.cur.wid ((lanesOf (u.wave s.cur.wid).live).map (fun l => ⟨l, .orphan, 0, 0, 0, false, 0, 0⟩)) := if_pos ho
  obtain ⟨l0, hl0⟩ := ha
  have hs := takeStop_all (s := u) (w := s.cur.wid) (c := .orphan) (memb := 0) (pc := fun _ => 0) (by rw [hw.rest]; exact hsys)
    ⟨l0, hlt l0 hl0, by rw [(hlane l0).1]; exact (hall l0 (hlt l0 hl0)).2 hl0⟩
  rw [hc]
  exact ⟨hs.1, fun l hl => hs.2 l (hlt l hl) (by rw [(hlane l).1]; exact (hall l (hlt l hl)).2 hl)⟩


theorem partnerQueues : Claims.PartnerQueues := by
  intro s m d w o lives line
  have hwo : w ≠ o := (partnerOf_ne w).symm
  refine ⟨fun hp h => ?_, fun hp ⟨l, hl, hx, h8⟩ => ⟨_, qpush_waits hp (mem_pushing.2 ⟨hl, hx⟩) h8, waitAt_waits ..⟩,
    fun ha hp hl => ⟨_, qpush_refused hp hl, refuse_stops (sub := .partner) ha hl⟩, fun ha hp hl => ⟨_, qpop_refused hp hl, refuse_stops (sub := .partner) ha hl⟩,
    fun hp he => ⟨fun h => ?_, fun ⟨l, hl, h0⟩ ⟨j, hj, h1, h2⟩ => ?_, fun hsys hst ha hall hq => ?_⟩⟩
  · have hx := qpush_goes (d := d) hp (m := m) fun l hl => h l (mem_pushing.1 hl).1 (mem_pushing.1 hl).2
    have hu := pushed_words s m d
    generalize (if (s.activeLanes m).isEmpty then s else
      s.modWave (partnerOf s.cur.wid) (changeQueues (pushing s m) (fun l q => q ++ [s.src s.cur.wid l d]))) = u at hx hu
    obtain ⟨hfr, ho, hne⟩ := hu
    have hg := finish_goesOn u
    have hcur : u.cur = s.cur := by rw [hfr]
    have hgo : ∀ l x, goOn u l x = goOn s l x := fun l x => by unfold goOn; rw [hcur]
    unfold GoesOn at hg
    obtain ⟨h1, h2, h3⟩ := hg
    rw [hcur] at h1 h2 h3
    have hq : ∀ l, line o (finish u []) l = if l ∈ pushing s m then line o s l ++ [s.src w l d] else line o s l := fun l => by
      show ((finish u []).wave o).q l = _
      rw [h1 o hwo.symm, ho]
      exact q_changeQueues ((activeLanes_nodup s m).filter _) _ _ l
    refine ⟨_, hx, ?_, fun v hv hvo => by rw [h1 v hv, hne v hvo], by rw [h2, hne w hwo]; rfl, ?_, fun l => ?_, fun l => ⟨fun hl hx => ?_, fun hl => ?_⟩⟩
    · rw [finish_nil]
      exact Eq.trans (b := { u with waves := (u.advance []).waves }) rfl (Eq.trans (congrArg (fun x : State => { x with waves := (u.advance []).waves }) hfr) rfl)
    · rw [h1 o hwo.symm, ho, changeQueues_rest]
    · have hl : u.lane w l = s.lane w l := by unfold State.lane; rw [hne w hwo]
      rw [h3, hl, hgo]
    · rw [hq, if_pos (mem_pushing.2 ⟨hl, hx⟩)]
    · rw [hq, if_neg (fun hm => hl (mem_pushing.1 hm))]
  · have hb := ((popped_becomes s m d).finish rfl)
    have hq : ∀ l, line w (finish (popped s m d) []) l = if l ∈ s.activeLanes m then (line w s l).tail else line w s l := fun l => by
      show ((finish (popped s m d) []).wave w).q l = _
      rw [hb.rest]
      exact q_changeQueues (activeLanes_nodup s m) _ _ l
    refine ⟨_, qpop_goes hp he h, ?_, hb.waves, ?_, hb.lanes, fun l => ⟨fun hl => ?_, fun hl => ?_⟩⟩
    · rw [finish_nil]
      rfl
    · rw [hb.rest, changeQueues_rest]
    · rw [hq, if_pos (mem_activeLanes.2 hl)]
    · rw [hq, if_neg (fun hm => hl (mem_activeLanes.1 hm))]
  · have hw := waitAt_waits s (.qpop m d)
    have hlane : ∀ l, ((waitAt s (.qpop m d)).lane w l).st = (s.lane w l).st := fun l => by
      rw [hw.2.lanes]
      split <;> rfl
    refine ⟨_, (qpop_waits hp he hl h0).trans (congrArg _ (checkQ_served (qOrphan_of_partner hj ?_ ?_))), hw⟩
    · rw [hlane]; exact h1
    · unfold State.lane
      rw [hw.2.waves _ (partnerOf_ne _)]
      exact h2
  · obtain ⟨l, hl⟩ := ha
    exact ⟨_, qpop_waits hp he hl (hq l hl).1, waits_orphaned hsys hst ⟨l, hl⟩ hall hq⟩

end

/-! ### The granules of a core -/

/-- What of a wave counts for the granules of its core. -/
def share (v : Wave) : Nat × Bool × Bool × Nat := (v.tid, v.part, v.ended, v.allot)
def holds (s : State) (k c : Nat) (x : Nat × Bool × Bool × Nat) : Bool :=
  !x.2.2.1 && (s.troupe x.1).pkg == k && (s.troupe x.1).core == c && (s.troupe x.1).st == .resident
def sharedGranules (s : State) (x : Nat × Bool × Bool × Nat) : Nat :=
  x.2.2.2 / 8 + 1 + (if !x.2.1 && (s.troupe x.1).hdr.pentry != 0 then 1 else 0)
theorem holders_eq (s : State) (k c : Nat) : s.holders k c = s.waves.filter (fun e => holds s k c (share e.2)) := rfl
theorem holders_keys (s : State) (k c : Nat) : (s.holders k c).map (fun e => e.1) =
    ((s.waves.map (fun e => (e.1, share e.2))).filter (fun e => holds s k c e.2)).map (fun e => e.1) := by
  rw [List.filter_map, List.map_map]
  rfl
theorem freeGranules_eq (s : State) (k c : Nat) : s.freeGranules k c =
    512 - (((s.waves.map (fun e => (e.1, share e.2))).filter (fun e => holds s k c e.2)).map (fun e => sharedGranules s e.2)).sum := by
  rw [List.filter_map, List.map_map]
  rfl
/-- The waves of a state share the granules of the cores as those of another do. -/
structure SameShares (s t : State) : Prop where
  waves : t.waves.map (fun e => (e.1, share e.2)) = s.waves.map (fun e => (e.1, share e.2))
  troupes : t.troupes = s.troupes
theorem SameShares.troupe {s t : State} (h : SameShares s t) (w : Nat) : t.troupe w = s.troupe w := by
  unfold State.troupe
  rw [h.troupes]
theorem SameShares.free {s t : State} (h : SameShares s t) (k c : Nat) : t.freeGranules k c = s.freeGranules k c := by
  rw [freeGranules_eq, freeGranules_eq, h.waves]
  unfold holds sharedGranules
  simp only [h.troupe]
theorem SameShares.keys {s t : State} (h : SameShares s t) (k c : Nat) : (t.holders k c).map (fun e => e.1) = (s.holders k c).map (fun e => e.1) := by
  rw [holders_keys, holders_keys, h.waves]
  unfold holds
  simp only [h.troupe]
/-- A wave changes, its share does not. -/
theorem sameShares_of_wave {s t : State} (hr : Rising s.waves) {w : Nat} (hw : flook s.waves w ≠ none) {v : Wave} (ht : t.waves = fput s.waves w v)
    (hu : t.troupes = s.troupes) (hs : share v = share (s.wave w)) : SameShares s t := by
  obtain ⟨x, hx⟩ := Option.ne_none_iff_exists'.1 hw
  refine ⟨?_, hu⟩
  rw [ht]
  refine map_fput_of_same share hr hx ?_
  rw [hs, show s.wave w = x from fget_of_flook_some hx]
/-- A value that counts is replaced by one that counts for more. -/
theorem sum_fput_add {α : Type} (P : Nat × α → Bool) (G : Nat × α → Nat) {m : FMap α} (hm : Rising m) {k : Nat} {x v : α} {a : Nat} (hx : flook m k = some x)
    (hp : P (k, x) = true) (hv : P (k, v) = true) (hg : G (k, v) = G (k, x) + a) :
    (((fput m k v).filter P).map G).sum = ((m.filter P).map G).sum + a := by
  induction m with
  | nil => exact absurd hx (by simp [flook])
  | cons e m ih =>
    obtain ⟨i, y⟩ := e
    obtain ⟨hlt, hr⟩ := List.pairwise_cons.1 hm
    rw [flook] at hx
    rw [fput]
    by_cases hki : k = i
    · subst hki
      rw [if_pos rfl] at hx
      obtain rfl := Option.some.inj hx
      rw [if_neg (Nat.lt_irrefl k), if_pos rfl, List.filter_cons_of_pos hv, List.filter_cons_of_pos hp, List.map_cons, List.map_cons, List.sum_cons, List.sum_cons, hg]
      omega
    · rw [if_neg (Ne.symm hki)] at hx
      have hik : i < k := hlt (k, x) (mem_of_flook hx)
      rw [if_neg (by omega), if_neg hki, List.filter_cons, List.filter_cons]
      split
      · rw [List.map_cons, List.map_cons, List.sum_cons, List.sum_cons, ih hr hx]
        omega
      · exact ih hr hx
/-- A wave that holds granules of a core is allotted more of them. -/
theorem free_of_allotted {s t : State} (hr : Rising s.waves) {w : Nat} {x v : Wave} (hx : flook s.waves w = some x) (ht : t.waves = fput s.waves w v)
    (hu : t.troupes = s.troupes) {h : Nat} (hs : share v = (x.tid, x.part, x.ended, h)) {k c : Nat} (hh : (w, x) ∈ s.holders k c) (hle : x.allot ≤ h) :
    t.freeGranules k c = s.freeGranules k c - (h / 8 - x.allot / 8) := by
  have htr : ∀ w, t.troupe w = s.troupe w := fun w => by unfold State.troupe; rw [hu]
  have hp : holds s k c (share x) = true := (List.mem_filter.1 hh).2
  have hsum := sum_fput_add (fun e : Nat × Wave => holds s k c (share e.2)) (fun e => sharedGranules s (share e.2)) hr (v := v) (a := h / 8 - x.allot / 8) hx hp
    (by dsimp only; rw [hs]; exact hp) (by
      dsimp only
      rw [hs]
      unfold sharedGranules share
      dsimp only
      have := Nat.div_le_div_right (c := 8) hle
      omega)
  have hf : t.freeGranules k c = 512 - (((fput s.waves w v).filter (fun e => holds s k c (share e.2))).map (fun e => sharedGranules s (share e.2))).sum := by
    rw [← ht, freeGranules_eq, List.filter_map, List.map_map]
    unfold holds sharedGranules
    simp only [htr]
    rfl
  rw [hf, hsum]
  exact Nat.sub_add_eq ..

/-! ### Grants -/

section
variable {s : State} {k c : Nat}

/-- The granules that a request adds to what its wave has. -/
def asked (s : State) (w t : Nat) : Nat := t / 8 - (s.wave w).allot / 8
/-- The state in which a request has been granted (R236). -/
def granted (s : State) (k c w t : Nat) (rest : List (Nat × Nat)) : State :=
  ((s.modCore k c (fun x => { x with grantQ := rest, spare := x.spare - asked s w t })).modWave w (fun v => { v with allot := max v.allot t })).growDone w
theorem grantGo_nil (h : (s.core k c).grantQ = []) (f : Nat) : grantGo k c f s = s := by
  cases f with
  | zero => rfl
  | succ f => unfold grantGo; rw [h]
section
variable {w t : Nat} {rest : List (Nat × Nat)} (h : (s.core k c).grantQ = (w, t) :: rest)
include h
theorem grantGo_held (hg : s.grantable k c < asked s w t) (f : Nat) : grantGo k c f s = s := by
  cases f with
  | zero => rfl
  | succ f =>
    unfold grantGo
    rw [h]
    exact if_pos hg
theorem grantGo_grants (hg : asked s w t ≤ s.grantable k c) (f : Nat) : grantGo k c (f + 1) s = grantGo k c f (granted s k c w t rest) := by
  rw [grantGo, h]
  exact if_neg (Nat.not_lt.2 hg)
end
theorem deadGo_nil (h : (s.core k c).grantQ = []) (f : Nat) : deadGo k c f s = s := by
  cases f with
  | zero => rfl
  | succ f => unfold deadGo; rw [h]; rfl
theorem deadGo_alive {y : Nat} (hy : y ∈ (s.holders k c).map (fun e => e.1)) (hn : ∀ g ∈ (s.core k c).grantQ, g.1 ≠ y) (f : Nat) : deadGo k c f s = s := by
  cases f with
  | zero => rfl
  | succ f =>
    unfold deadGo
    dsimp only
    refine if_neg fun ha => ?_
    obtain ⟨e, he, rfl⟩ := List.mem_map.1 hy
    obtain ⟨g, hg, hge⟩ := List.any_eq_true.1 (List.all_eq_true.1 (Bool.and_eq_true_iff.1 ha).2 e he)
    exact hn g hg (eq_of_beq hge)
/-- A request that waits alone, where its wave alone holds granules, is withdrawn. -/
theorem deadGo_dead {w t : Nat} (h : (s.core k c).grantQ = [(w, t)]) (ha : ∀ y ∈ (s.holders k c).map (fun e => e.1), y = w) (f : Nat) :
    ∃ memb, deadGo k c (f + 1) s = deadGo k c f (takeStop s w ((lanesOf (s.wave w).live).map (fun l => ⟨l, .regdead, 0, 0, 0, false, memb, (s.lane w l).pc⟩))) := by
  refine ⟨((s.wave w).waits.findSome? (fun r => match r.instr with | .regGrow _ _ => some r.memb | _ => none)).getD 0, ?_⟩
  rw [deadGo]
  dsimp only
  rw [h]
  refine if_pos (Bool.and_eq_true_iff.2 ⟨rfl, List.all_eq_true.2 fun e he => ?_⟩)
  rw [List.any_cons, beq_iff_eq.2 (ha e.1 (List.mem_map_of_mem he)).symm]
  rfl
theorem takeStop_withdraws {w t : Nat} {st : List StopRec} (hne : st ≠ []) (hsys : (s.wave w).sys = false) (hk : (s.troupe (s.wave w).tid).pkg = k)
    (hc : (s.troupe (s.wave w).tid).core = c) (h : (s.core k c).grantQ = [(w, t)]) : ((takeStop s w st).core k c).grantQ = [] := by
  rw [takeStop_user hne hsys, hk, hc]
  show ((s.modCore k c (fun x => { x with grantQ := x.grantQ.filter (fun g => g.1 != w) })).core k c).grantQ = []
  rw [State.core_modCore, if_pos ⟨rfl, rfl⟩]
  dsimp only
  rw [h, List.filter_cons_of_neg (by rw [bne_self_eq_false]; decide), List.filter_nil]
theorem grantable_of_none (h : ((s.pkg k).holder (c / 256)).isSome = false) : s.grantable k c = s.freeGranules k c := by
  unfold State.grantable clusterOf
  rw [if_neg (by rw [h]; decide)]
theorem grantable_le : s.grantable k c ≤ s.freeGranules k c := by
  unfold State.grantable
  split
  · exact Nat.min_le_left ..
  · exact Nat.le_refl _
theorem grantable_lt {n : Nat} (h : s.freeGranules k c < n ∨ (((s.pkg k).holder (c / 256)).isSome = true ∧ (s.core k c).spare < n)) : s.grantable k c < n := by
  rcases h with h | ⟨h1, h2⟩
  · exact Nat.lt_of_le_of_lt grantable_le h
  · unfold State.grantable clusterOf
    rw [if_pos h1]
    exact Nat.lt_of_le_of_lt (Nat.min_le_right ..) h2

theorem fput_fput {α : Type} (m : FMap α) (k : Nat) (v v' : α) : fput (fput m k v) k v' = fput m k v' := by
  induction m with
  | nil => simp [fput]
  | cons e m ih =>
    obtain ⟨i, x⟩ := e
    unfold fput
    by_cases h1 : k < i
    · simp [fput, h1]
    · by_cases h2 : k = i
      · simp [fput, h2]
      · simp [fput, h1, h2, ih]
/-- A wave whose wait has come goes on behind it. -/
def releasedWave (s : State) (w : Nat) (r : WaitRec) (v : Wave) : Wave :=
  (v.unwait r.lanes).upd (lanesOf r.lanes) (fun _ l => { l with pc := r.npc, readyAt := s.clockOf w + 1 + r.stall })
theorem releasedWave_rest (s : State) (w : Nat) (r : WaitRec) (v : Wave) :
    releasedWave s w r v = { v with waits := v.waits.filter (fun x => x.lanes &&& r.lanes == 0), lanes := (releasedWave s w r v).lanes } := by
  unfold releasedWave
  rw [upd_rest]
  unfold Wave.unwait
  rw [upd_rest]
theorem releasedWave_lane (s : State) (w : Nat) (r : WaitRec) (v : Wave) {l : Nat} (h : r.lanes.getLsbD l = true) :
    (releasedWave s w r v).lane l = { v.lane l with waiting := false, pc := r.npc, readyAt := s.clockOf w + 1 + r.stall } := by
  have hm := (mem_lanesOf r.lanes l).2 h
  unfold releasedWave
  rw [Wave.lane_upd _ _ _ _ (lanesOf_nodup _), if_pos hm]
  have : (v.unwait r.lanes).lane l = (v.upd (lanesOf r.lanes) (fun _ l => { l with waiting := false })).lane l := rfl
  rw [this, Wave.lane_upd _ _ _ _ (lanesOf_nodup _), if_pos hm]

/-- What a grant to a wave that waits alone changes. -/
structure Granted (s t : State) (k c w h : Nat) (r : WaitRec) (rest : List (Nat × Nat)) : Prop where
  frame : t = { s with waves := t.waves, pkgs := t.pkgs }
  waves : t.waves = fput s.waves w (t.wave w)
  others : ∀ x, x ≠ w → t.wave x = s.wave x
  self : t.wave w = { s.wave w with allot := max (s.wave w).allot h, waits := [], lanes := (t.wave w).lanes }
  lanes : ∀ l, r.lanes.getLsbD l = true → (t.lane w l).waiting = false ∧ (t.lane w l).pc = r.npc ∧ (t.lane w l).g = (s.lane w l).g
  grantQ : (t.core k c).grantQ = rest
  sched : (t.pkg k).sched = (s.pkg k).sched
theorem granted_eq {w h : Nat} {r : WaitRec} {rest : List (Nat × Nat)} (hw : (s.wave w).waits = [r]) (hi : ∃ m n, r.instr = .regGrow m n) (hg : r.grouped = false) :
    ∃ f : Core → Core, (∀ x, (f x).grantQ = rest) ∧ granted s k c w h rest =
      ((s.modCore k c f).modWave w (fun v => { v with allot := max v.allot h })).modWave w (releasedWave ((s.modCore k c f).modWave w (fun v => { v with allot := max v.allot h })) w r) := by
  refine ⟨fun x => { x with grantQ := rest, spare := x.spare - asked s w h }, fun _ => rfl, ?_⟩
  unfold granted State.growDone
  rw [State.wave_modWave_self, State.wave_modCore]
  dsimp only
  obtain ⟨m, n, hi⟩ := hi
  rw [hw, List.find?_cons_of_pos (by rw [hi])]
  dsimp only
  unfold State.releaseWait
  rw [if_neg (by rw [hg]; decide)]
  rfl
theorem granted_does {w h : Nat} {r : WaitRec} {rest : List (Nat × Nat)} (hw : (s.wave w).waits = [r]) (hi : ∃ m n, r.instr = .regGrow m n) (hg : r.grouped = false)
    (h0 : r.lanes ≠ 0) : Granted s (granted s k c w h rest) k c w h r rest := by
  obtain ⟨f, hf, he⟩ := granted_eq (k := k) (c := c) (h := h) (rest := rest) hw hi hg
  rw [he]
  generalize hu : (s.modCore k c f).modWave w (fun v => { v with allot := max v.allot h }) = u
  have huw : u.wave w = { s.wave w with allot := max (s.wave w).allot h } := by rw [← hu, State.wave_modWave_self, State.wave_modCore]
  have hself : (u.modWave w (releasedWave u w r)).wave w = releasedWave u w r { s.wave w with allot := max (s.wave w).allot h } := by
    rw [State.wave_modWave_self, huw]
  refine ⟨by rw [← hu]; rfl, ?_, fun x hx => ?_, ?_, fun l hl => ?_, ?_, ?_⟩
  · rw [hself]
    show fput u.waves w (releasedWave u w r (u.wave w)) = _
    rw [huw, ← hu]
    exact fput_fput ..
  · rw [State.wave_modWave, if_neg hx, ← hu, State.wave_modWave, if_neg hx, State.wave_modCore]
  · rw [hself, releasedWave_rest]
    dsimp only
    rw [hw, List.filter_cons_of_neg (by rw [BitVec.and_self]; exact fun hn => h0 (eq_of_beq hn)), List.filter_nil]
  · unfold State.lane
    rw [hself, releasedWave_lane _ _ _ _ hl]
    exact ⟨rfl, rfl, rfl⟩
  · show (u.core k c).grantQ = _
    rw [← hu]
    show ((s.modCore k c f).core k c).grantQ = _
    rw [State.core_modCore, if_pos ⟨rfl, rfl⟩]
    exact hf _
  · show (u.pkg k).sched = _
    rw [← hu]
    show ((s.modCore k c f).pkg k).sched = _
    rw [State.pkg_modCore, if_pos rfl]
    rfl
end

/-! ### Requests -/

section
variable {s : State} {m : Mods} {n : Reg} {e : Nat} (he : Elected s m e) {go : Nat → State}
include he
theorem allotGo_partner (hp : (s.wave s.cur.wid).part = true) : allotGo s m n go = .next (refuse s m .partner) := by
  unfold allotGo
  rw [someActive_eq_true.2 ⟨e, he.1⟩, show s.curWave = s.wave s.cur.wid from rfl, hp]
  rfl
variable (hp : (s.wave s.cur.wid).part = false)
include hp
theorem allotGo_range (hl : ¬(n.toNat % 8 = 0 ∧ 8 ≤ n.toNat ∧ n.toNat ≤ 120)) : allotGo s m n go = .next (refuse s m .range) := by
  unfold allotGo
  rw [someActive_eq_true.2 ⟨e, he.1⟩, show s.curWave = s.wave s.cur.wid from rfl, hp, if_neg (by decide), if_neg (by decide), if_pos (by omega)]
variable (hl : n.toNat % 8 = 0 ∧ 8 ≤ n.toNat ∧ n.toNat ≤ 120)
include hl
theorem allotGo_partial (hw : s.cur.path ≠ (s.wave s.cur.wid).live) : allotGo s m n go = .next (refuse s m .partial_) := by
  unfold allotGo State.wholeWave
  rw [someActive_eq_true.2 ⟨e, he.1⟩, show s.curWave = s.wave s.cur.wid from rfl, hp, if_neg (by decide), if_neg (by decide), if_neg (by omega),
    if_pos (by rw [beq_eq_false_iff_ne.2 hw]; rfl)]
theorem allotGo_ready (hw : s.cur.path = (s.wave s.cur.wid).live) : allotGo s m n go = .next (go n.toNat) := by
  unfold allotGo State.wholeWave
  rw [someActive_eq_true.2 ⟨e, he.1⟩, show s.curWave = s.wave s.cur.wid from rfl, hp, if_neg (by decide), if_neg (by decide), if_neg (by omega),
    if_neg (by rw [hw, beq_self_eq_true]; decide)]
end

section
variable {s : State} {m : Mods} {n : Reg}

theorem waves_modWave (s : State) (w : Nat) (f : Wave → Wave) : (s.modWave w f).waves = fput s.waves w ((s.modWave w f).wave w) := by
  rw [State.wave_modWave_self]
  rfl
/-- The state in which a path waits for the registers that it has asked for. -/
def requested (s : State) (m : Mods) (n : Reg) : State :=
  (waitAt s (.regGrow m n)).modCore s.curPkg s.curTroupe.core (fun c => { c with grantQ := c.grantQ ++ [(s.cur.wid, n.toNat)] })
theorem requested_waits (s : State) (m : Mods) (n : Reg) : PathWaits (.regGrow m n) s (requested s m n) :=
  WaveBecomes.of_waves (waitAt_waits s (.regGrow m n)).2 rfl
theorem requested_queue (h : (s.core s.curPkg s.curTroupe.core).grantQ = []) :
    ((requested s m n).core s.curPkg s.curTroupe.core).grantQ = [(s.cur.wid, n.toNat)] := by
  unfold requested
  rw [State.core_modCore, if_pos ⟨rfl, rfl⟩]
  show (s.core s.curPkg s.curTroupe.core).grantQ ++ _ = _
  rw [h]
  rfl
theorem requested_spare : ((requested s m n).core s.curPkg s.curTroupe.core).spare = (s.core s.curPkg s.curTroupe.core).spare := by
  unfold requested
  rw [State.core_modCore, if_pos ⟨rfl, rfl⟩]
  rfl
theorem requested_holder : ((requested s m n).pkg s.curPkg).holder = (s.pkg s.curPkg).holder := by
  have : ((requested s m n).pkg s.curPkg).sched = (s.pkg s.curPkg).sched := by
    unfold requested
    rw [State.pkg_modCore, if_pos rfl]
    rfl
  unfold Pkg.holder
  rw [this]
theorem requested_wave : (requested s m n).wave s.cur.wid = { s.wave s.cur.wid with
    waits := (s.wave s.cur.wid).waits.filter (fun r => r.lanes &&& s.cur.lanes == 0) ++
      [⟨s.cur.lanes, .regGrow m n, s.cur.pc, s.cur.npc, s.cur.memb, s.cur.stall, s.cur.grouped, [], false⟩],
    lanes := ((requested s m n).wave s.cur.wid).lanes } := (requested_waits s m n).rest
theorem requested_asked (t : Nat) : asked (requested s m n) s.cur.wid t = asked s s.cur.wid t := by
  unfold asked
  rw [requested_wave]
theorem requested_shares (hr : Rising s.waves) (hw : flook s.waves s.cur.wid ≠ none) : SameShares s (requested s m n) := by
  refine sameShares_of_wave hr hw (v := (requested s m n).wave s.cur.wid) ?_ rfl ?_
  · obtain ⟨f, hf⟩ : ∃ f, waitAt s (.regGrow m n) = s.modWave s.cur.wid f := by
      unfold waitAt waitFor
      exact ⟨_, rfl⟩
    unfold requested
    rw [hf]
    exact waves_modWave s s.cur.wid f
  · rw [requested_wave]
    rfl
theorem requested_lane (l : Nat) (h : s.cur.lanes.getLsbD l = true) : (requested s m n).lane s.cur.wid l = { s.lane s.cur.wid l with waiting := true } := by
  rw [(requested_waits s m n).lanes, if_pos h]

theorem regGrow_asks {e : Nat} (he : Elected s m e) (hp : (s.wave s.cur.wid).part = false) (hl : n.toNat % 8 = 0 ∧ 8 ≤ n.toNat ∧ n.toNat ≤ 120)
    (hw : s.cur.path = (s.wave s.cur.wid).live) (hlt : (s.wave s.cur.wid).allot < n.toNat) (hq : (s.core s.curPkg s.curTroupe.core).grantQ = []) :
    exec (.regGrow m n) s = .next ((requested s m n).grant s.curPkg s.curTroupe.core) := by
  refine Eq.trans (show _ = execRegGrow m n s from rfl) ?_
  unfold execRegGrow
  rw [allotGo_ready he hp hl hw]
  dsimp only
  rw [show s.curWave = s.wave s.cur.wid from rfl, if_neg (Nat.not_le.2 hlt), hq]
  rfl
theorem regGrow_goes {e : Nat} (he : Elected s m e) (hp : (s.wave s.cur.wid).part = false) (hl : n.toNat % 8 = 0 ∧ 8 ≤ n.toNat ∧ n.toNat ≤ 120)
    (hw : s.cur.path = (s.wave s.cur.wid).live) (hle : n.toNat ≤ (s.wave s.cur.wid).allot) : exec (.regGrow m n) s = .next (finish s []) := by
  refine Eq.trans (show _ = execRegGrow m n s from rfl) ?_
  unfold execRegGrow
  rw [allotGo_ready he hp hl hw]
  exact congrArg _ (if_pos hle)
theorem regShrink_goes {e : Nat} (he : Elected s m e) (hp : (s.wave s.cur.wid).part = false) (hl : n.toNat % 8 = 0 ∧ 8 ≤ n.toNat ∧ n.toNat ≤ 120)
    (hw : s.cur.path = (s.wave s.cur.wid).live) (hle : (s.wave s.cur.wid).allot ≤ n.toNat) : exec (.regShrink m n) s = .next (finish s []) := by
  refine Eq.trans (show _ = execRegShrink m n s from rfl) ?_
  unfold execRegShrink
  rw [allotGo_ready he hp hl hw]
  exact congrArg _ (if_pos hle)
/-- The wave without the registers above a target. -/
def shrunk (s : State) (t : Nat) : State :=
  s.modWave s.cur.wid (fun v => { (v.upd (List.range 32) (fun _ l => l.cut t)) with allot := t })
theorem regShrink_cuts {e : Nat} (he : Elected s m e) (hp : (s.wave s.cur.wid).part = false) (hl : n.toNat % 8 = 0 ∧ 8 ≤ n.toNat ∧ n.toNat ≤ 120)
    (hw : s.cur.path = (s.wave s.cur.wid).live) (hlt : n.toNat < (s.wave s.cur.wid).allot) :
    exec (.regShrink m n) s = .next ((finish (shrunk s n.toNat) []).grant s.curPkg s.curTroupe.core) := by
  refine Eq.trans (show _ = execRegShrink m n s from rfl) ?_
  unfold execRegShrink
  rw [allotGo_ready he hp hl hw]
  exact congrArg _ (if_neg (Nat.not_le.2 hlt))
theorem grant_nothing {k c : Nat} (h : (s.core k c).grantQ = []) : s.grant k c = s := by
  unfold State.grant
  rw [grantGo_nil h, deadGo_nil h]
theorem fget_filter_lt (g : FMap W32) (t r : Nat) : fget 0 (g.filter (fun (e : Nat × W32) => e.1 < t)) r = if r < t then fget 0 g r else 0 := by
  induction g with
  | nil => exact (ite_self _).symm
  | cons e g ih =>
    obtain ⟨i, x⟩ := e
    rw [List.filter_cons]
    by_cases hi : i = r
    · subst hi
      by_cases hr : i < t
      · rw [if_pos (decide_eq_true hr), if_pos hr]
        simp [fget]
      · rw [if_neg (by simpa using hr), ih, if_neg hr, if_neg hr]
    · have hx : fget 0 ((i, x) :: g) r = fget 0 g r := if_neg hi
      rw [hx, ← ih]
      split
      · exact if_neg hi
      · rfl
theorem lane_allot (v : Wave) (t l : Nat) : ({ v with allot := t } : Wave).lane l = v.lane l := rfl
theorem shrunk_lane (s : State) (t : Nat) {l : Nat} (hl : l < 32) : (shrunk s t).lane s.cur.wid l = (s.lane s.cur.wid l).cut t := by
  unfold State.lane shrunk
  rw [State.wave_modWave_self]
  refine Eq.trans ?_ ((Wave.lane_upd (s.wave s.cur.wid) (List.range 32) (fun _ l => l.cut t) l List.nodup_range).trans (if_pos (List.mem_range.2 hl)))
  exact lane_allot ((s.wave s.cur.wid).upd (List.range 32) (fun _ l => l.cut t)) t l
theorem shrunk_finish (t : Nat) : let u := finish (shrunk s t) []
    u.mem = s.mem ∧ (u.wave s.cur.wid).allot = t ∧ ∀ l, l < 32 → ∀ r : Nat, (u.lane s.cur.wid l).reg r = if r < t then (s.lane s.cur.wid l).reg r else 0 := by
  have hg := finish_goesOn (shrunk s t)
  refine ⟨by rw [finish_nil]; rfl, ?_, fun l hl r => ?_⟩
  · refine (congrArg Wave.allot hg.rest).trans ?_
    show ((shrunk s t).wave s.cur.wid).allot = t
    unfold shrunk
    rw [State.wave_modWave_self]
  · have hx : ((finish (shrunk s t) []).lane s.cur.wid l).g = ((shrunk s t).lane s.cur.wid l).g := by
      refine (congrArg Lane.g (hg.lanes l)).trans ?_
      split
      · unfold goOn
        split <;> rfl
      · rfl
    unfold Lane.reg
    rw [hx, shrunk_lane s t hl]
    exact fget_filter_lt ..

/-! ### What becomes of a request -/

section
variable {e : Nat} (he : Elected s m e) (hr : Rising s.waves) (hw : flook s.waves s.cur.wid ≠ none)
  (hp : (s.wave s.cur.wid).part = false) (hl : n.toNat % 8 = 0 ∧ 8 ≤ n.toNat ∧ n.toNat ≤ 120)
  (hpath : s.cur.path = (s.wave s.cur.wid).live) (hlt : (s.wave s.cur.wid).allot < n.toNat) (hq : (s.core s.curPkg s.curTroupe.core).grantQ = [])
include he hr hw hp hl hpath hlt hq
theorem regGrow_granted (hgr : s.cur.grouped = false) (hwt : (s.wave s.cur.wid).waits = []) (hfit : asked s s.cur.wid n.toNat ≤ s.freeGranules s.curPkg s.curTroupe.core)
    (hk : ((s.pkg s.curPkg).holder (s.curTroupe.core / 256)).isSome = false) :
    After (.regGrow m n) s (fun t => t.mem = s.mem ∧ (t.core s.curPkg s.curTroupe.core).grantQ = [] ∧ (t.wave s.cur.wid).allot = n.toNat ∧ (t.wave s.cur.wid).waits = [] ∧
      ∀ l, s.cur.lanes.getLsbD l = true → (t.lane s.cur.wid l).waiting = false ∧ (t.lane s.cur.wid l).pc = s.cur.npc ∧ (t.lane s.cur.wid l).g = (s.lane s.cur.wid l).g) := by
  have hfit' : asked (requested s m n) s.cur.wid n.toNat ≤ (requested s m n).grantable s.curPkg s.curTroupe.core := by
    rw [grantable_of_none (by rw [requested_holder]; exact hk), (requested_shares hr hw).free, requested_asked]
    exact hfit
  have hwaits : ((requested s m n).wave s.cur.wid).waits = [⟨s.cur.lanes, .regGrow m n, s.cur.pc, s.cur.npc, s.cur.memb, s.cur.stall, s.cur.grouped, [], false⟩] := by
    rw [requested_wave]
    dsimp only
    rw [hwt]
    rfl
  have h0 : s.cur.lanes ≠ 0 := fun h0 => absurd (h0 ▸ he.1.1 : (0 : LaneMask).getLsbD e = true) (by simp)
  have hg := granted_does (k := s.curPkg) (c := s.curTroupe.core) (h := n.toNat) (rest := []) hwaits ⟨m, n, rfl⟩ hgr h0
  have ht : (requested s m n).grant s.curPkg s.curTroupe.core = granted (requested s m n) s.curPkg s.curTroupe.core s.cur.wid n.toNat [] := by
    unfold State.grant
    rw [grantGo_grants (requested_queue hq) hfit', grantGo_nil hg.grantQ, deadGo_nil hg.grantQ]
  refine ⟨_, (regGrow_asks he hp hl hpath hlt hq).trans (congrArg _ ht), by rw [hg.frame]; rfl, hg.grantQ, ?_, by rw [hg.self], fun l hin => ?_⟩
  · rw [hg.self, requested_wave]
    exact Nat.max_eq_right (Nat.le_of_lt hlt)
  · obtain ⟨h1, h2, h3⟩ := hg.lanes l hin
    exact ⟨h1, h2, by rw [h3, requested_lane l hin]⟩
theorem regGrow_waits (hfit : s.freeGranules s.curPkg s.curTroupe.core < asked s s.cur.wid n.toNat ∨
      (((s.pkg s.curPkg).holder (s.curTroupe.core / 256)).isSome = true ∧ (s.core s.curPkg s.curTroupe.core).spare < asked s s.cur.wid n.toNat))
    (hx : ∃ x ∈ s.holders s.curPkg s.curTroupe.core, x.1 ≠ s.cur.wid) :
    After (.regGrow m n) s (fun t => t.mem = s.mem ∧ (t.core s.curPkg s.curTroupe.core).grantQ = [(s.cur.wid, n.toNat)] ∧ PathWaits (.regGrow m n) s t) := by
  have hsh := requested_shares (m := m) (n := n) hr hw
  have hheld : (requested s m n).grantable s.curPkg s.curTroupe.core < asked (requested s m n) s.cur.wid n.toNat := by
    refine grantable_lt ?_
    rw [hsh.free, requested_asked, requested_holder, requested_spare]
    exact hfit
  obtain ⟨x, hx, hne⟩ := hx
  have hal : x.1 ∈ ((requested s m n).holders s.curPkg s.curTroupe.core).map (fun e => e.1) := by
    rw [hsh.keys]
    exact List.mem_map_of_mem hx
  have hno : ∀ g ∈ ((requested s m n).core s.curPkg s.curTroupe.core).grantQ, g.1 ≠ x.1 := by
    intro g hg
    rw [requested_queue hq, List.mem_singleton] at hg
    rw [hg]
    exact hne.symm
  have ht : (requested s m n).grant s.curPkg s.curTroupe.core = requested s m n := by
    unfold State.grant
    rw [grantGo_held (requested_queue hq) hheld, deadGo_alive hal hno]
  exact ⟨_, (regGrow_asks he hp hl hpath hlt hq).trans (congrArg _ ht), rfl, requested_queue hq, requested_waits s m n⟩
theorem regGrow_dead (hsys : (s.wave s.cur.wid).sys = false) (hfit : s.freeGranules s.curPkg s.curTroupe.core < asked s s.cur.wid n.toNat)
    (hx : ∀ x ∈ s.holders s.curPkg s.curTroupe.core, x.1 = s.cur.wid) (hlv : (s.lane s.cur.wid e).st ≠ .exit) :
    After (.regGrow m n) s (fun t => (t.core s.curPkg s.curTroupe.core).grantQ = [] ∧ (t.wave s.cur.wid).stopped = true ∧
      ∀ l, l < 32 → (s.lane s.cur.wid l).st ≠ .exit → (t.lane s.cur.wid l).st = .trap ∧ (t.lane s.cur.wid l).trapCause = 0x14) := by
  have hsh := requested_shares (m := m) (n := n) hr hw
  have hreq := requested_waits s m n
  have hqr := requested_queue (m := m) (n := n) hq
  have htr : (requested s m n).troupe ((requested s m n).wave s.cur.wid).tid = s.curTroupe := by
    rw [requested_wave, hsh.troupe]
    rfl
  have hheld : (requested s m n).grantable s.curPkg s.curTroupe.core < asked (requested s m n) s.cur.wid n.toNat := by
    refine grantable_lt (.inl ?_)
    rw [hsh.free, requested_asked]
    exact hfit
  have hsys' : ((requested s m n).wave s.cur.wid).sys = false := by rw [requested_wave]; exact hsys
  have hst : ∀ l, ((requested s m n).lane s.cur.wid l).st = (s.lane s.cur.wid l).st := fun l => by
    rw [hreq.lanes]
    split <;> rfl
  have hkeys := hsh.keys s.curPkg s.curTroupe.core
  have he32 : e < 32 := BitVec.lt_of_getLsbD he.1.1
  obtain ⟨memb, hd⟩ := deadGo_dead hqr (fun y hy => by
    rw [hkeys] at hy
    obtain ⟨x, hxm, rfl⟩ := List.mem_map.1 hy
    exact hx x hxm) 31
  have hstop := takeStop_all (c := .regdead) (memb := memb) (pc := fun l => ((requested s m n).lane s.cur.wid l).pc) hsys' ⟨e, he32, by rw [hst]; exact hlv⟩
  have hne : (lanesOf ((requested s m n).wave s.cur.wid).live).map (fun l => (⟨l, .regdead, 0, 0, 0, false, memb, ((requested s m n).lane s.cur.wid l).pc⟩ : StopRec)) ≠ [] := by
    rw [ne_eq, List.map_eq_nil_iff]
    refine List.ne_nil_of_mem ((mem_lanesOf _ e).2 ?_)
    rw [live_getLsbD, decide_eq_true he32, Bool.true_and, bne_iff_ne]
    exact (hst e).symm ▸ hlv
  have hwd := takeStop_withdraws (k := s.curPkg) hne hsys' (congrArg Troupe.pkg htr) (congrArg Troupe.core htr) hqr
  have ht : (requested s m n).grant s.curPkg s.curTroupe.core = takeStop (requested s m n) s.cur.wid
      ((lanesOf ((requested s m n).wave s.cur.wid).live).map (fun l => ⟨l, .regdead, 0, 0, 0, false, memb, ((requested s m n).lane s.cur.wid l).pc⟩)) := by
    unfold State.grant
    rw [grantGo_held hqr hheld, hd, deadGo_nil hwd]
  refine ⟨_, (regGrow_asks he hp hl hpath hlt hq).trans (congrArg _ ht), hwd, hstop.1, fun l hl32 hlx => ?_⟩
  exact hstop.2 l hl32 (by rw [hst]; exact hlx)
end
end

/-! ### Grants to a queue -/

section
variable {s : State} {k c : Nat}
theorem regGrant_eq {j : Nat} (hj : j = k * 1024 + c) (hc : c < 1024) : exec (.regGrant j) s = .next (s.grant k c) := by
  refine Eq.trans (show _ = execRegGrant j s from rfl) ?_
  unfold execRegGrant
  rw [show j / 1024 = k by omega, show j % 1024 = c by omega]
theorem Granted.holder {t : State} {w h : Nat} {r : WaitRec} {rest : List (Nat × Nat)} (hg : Granted s t k c w h r rest) : (t.pkg k).holder = (s.pkg k).holder := by
  unfold Pkg.holder
  rw [hg.sched]
theorem Granted.rising {t : State} {w h : Nat} {r : WaitRec} {rest : List (Nat × Nat)} (hg : Granted s t k c w h r rest) (hr : Rising s.waves) : Rising t.waves := by
  rw [hg.waves]
  exact pairwise_fput _ _ hr
theorem Granted.listed {t : State} {w h : Nat} {r : WaitRec} {rest : List (Nat × Nat)} (hg : Granted s t k c w h r rest) {x : Nat} (hx : flook s.waves x ≠ none) :
    flook t.waves x ≠ none := by
  rw [hg.waves, flook_fput]
  split
  · exact fun hn => nomatch hn
  · exact hx
/-- The granules that are left when a request has been granted. -/
theorem Granted.free {t : State} {w h : Nat} {r : WaitRec} {rest : List (Nat × Nat)} (hg : Granted s t k c w h r rest) (hr : Rising s.waves) {v : Wave}
    (hv : (w, v) ∈ s.holders k c) (hle : (s.wave w).allot ≤ h) : t.freeGranules k c = s.freeGranules k c - asked s w h := by
  have hx : flook s.waves w = some v := hr.flook_of_mem (List.mem_filter.1 hv).1
  have hwv : s.wave w = v := fget_of_flook_some hx
  unfold asked
  rw [hwv] at hle ⊢
  refine free_of_allotted hr hx hg.waves (by rw [hg.frame]) ?_ hv hle
  rw [hg.self, hwv]
  unfold share
  dsimp only
  rw [Nat.max_eq_right hle]
/-- The waves that hold granules do so when a request has been granted. -/
theorem Granted.holds {t : State} {w h : Nat} {r : WaitRec} {rest : List (Nat × Nat)} (hg : Granted s t k c w h r rest) (hr : Rising s.waves) {x : Nat × Wave}
    (hx : x ∈ s.holders k c) (hne : x.1 ≠ w) : x.1 ∈ (t.holders k c).map (fun e => e.1) := by
  obtain ⟨hm, hx⟩ := List.mem_filter.1 hx
  have ht : ∀ j, t.troupe j = s.troupe j := fun j => by rw [hg.frame]; rfl
  have hin : x ∈ t.waves := by
    refine mem_of_flook ?_
    rw [hg.waves, flook_fput, if_neg hne]
    exact hr.flook_of_mem hm
  refine List.mem_map_of_mem (List.mem_filter.2 ⟨hin, ?_⟩)
  simpa only [ht] using hx
section
variable {w h : Nat} {r : WaitRec} (hw : (s.wave w).waits = [r]) (hi : ∃ m n, r.instr = .regGrow m n) (hg : r.grouped = false) (h0 : r.lanes ≠ 0)
  (hfit : asked s w h ≤ s.freeGranules k c) (hk : ((s.pkg k).holder (c / 256)).isSome = false)
include hw hi hg h0 hfit hk
/-- The one request of a queue, granted. -/
theorem grant_one (hq : (s.core k c).grantQ = [(w, h)]) : ∃ t, s.grant k c = t ∧ Granted s t k c w h r [] := by
  have hd := granted_does (k := k) (c := c) (h := h) (rest := []) hw hi hg h0
  refine ⟨_, ?_, hd⟩
  unfold State.grant
  rw [grantGo_grants hq (by rw [grantable_of_none hk]; exact hfit), grantGo_nil hd.grantQ, deadGo_nil hd.grantQ]
end
theorem grant_blocked {w h : Nat} {rest : List (Nat × Nat)} (hq : (s.core k c).grantQ = (w, h) :: rest) (hfit : s.freeGranules k c < asked s w h)
    (hx : ∃ y ∈ s.holders k c, ∀ g ∈ (s.core k c).grantQ, g.1 ≠ y.1) : s.grant k c = s := by
  obtain ⟨y, hy, hn⟩ := hx
  unfold State.grant
  rw [grantGo_held hq (Nat.lt_of_le_of_lt grantable_le hfit), deadGo_alive (List.mem_map_of_mem hy) hn]

section
variable {x y h g : Nat} {r q : WaitRec} (hr : Rising s.waves) (hq : (s.core k c).grantQ = [(x, h), (y, g)]) (hxy : x ≠ y)
  (hk : ((s.pkg k).holder (c / 256)).isSome = false) (hxw : (s.wave x).waits = [r]) (hyw : (s.wave y).waits = [q]) (hri : ∃ m n, r.instr = .regGrow m n)
  (hqi : ∃ m n, q.instr = .regGrow m n) (hrg : r.grouped = false) (hqg : q.grouped = false) (hr0 : r.lanes ≠ 0) (hq0 : q.lanes ≠ 0)
  (hxh : (s.wave x).allot ≤ h) (hx : ∃ v, (x, v) ∈ s.holders k c) (ha : asked s x h ≤ s.freeGranules k c)
include hr hq hxy hk hxw hri hrg hr0 hxh hx ha
/-- The first request is granted, and leaves fewer granules for the second. -/
theorem grant_first : ∃ t, Granted s t k c x h r [(y, g)] ∧ t.grantable k c = s.freeGranules k c - asked s x h ∧ asked t y g = asked s y g ∧
    s.grant k c = deadGo k c 32 (grantGo k c 31 t) := by
  have hd := granted_does (k := k) (c := c) (h := h) (rest := [(y, g)]) hxw hri hrg hr0
  obtain ⟨v, hv⟩ := hx
  refine ⟨_, hd, ?_, ?_, ?_⟩
  · rw [grantable_of_none (by rw [hd.holder]; exact hk), hd.free hr hv hxh]
  · unfold asked
    rw [hd.others y hxy.symm]
  · unfold State.grant
    rw [grantGo_grants hq (by rw [grantable_of_none hk]; exact ha)]
theorem grant_both (hyh : (s.wave y).allot ≤ g) (hyw : (s.wave y).waits = [q]) (hqi : ∃ m n, q.instr = .regGrow m n) (hqg : q.grouped = false) (hq0 : q.lanes ≠ 0)
    (hab : asked s x h + asked s y g ≤ s.freeGranules k c) :
    (s.grant k c).mem = s.mem ∧ ((s.grant k c).core k c).grantQ = [] ∧ ((s.grant k c).wave x).allot = h ∧ ((s.grant k c).wave y).allot = g := by
  obtain ⟨t, hd, hf, hb, ht⟩ := grant_first hr hq hxy hk hxw hri hrg hr0 hxh hx ha
  have hd2 := granted_does (s := t) (k := k) (c := c) (w := y) (h := g) (rest := []) (by rw [hd.others y hxy.symm]; exact hyw) hqi hqg hq0
  rw [ht, grantGo_grants hd.grantQ (by rw [hf, hb]; omega), grantGo_nil hd2.grantQ, deadGo_nil hd2.grantQ]
  refine ⟨?_, hd2.grantQ, ?_, ?_⟩
  · rw [hd2.frame]
    show t.mem = s.mem
    rw [hd.frame]
  · rw [hd2.others x hxy, hd.self]
    exact Nat.max_eq_right hxh
  · rw [hd2.self, hd.others y hxy.symm]
    exact Nat.max_eq_right hyh
theorem grant_first_only (hab : s.freeGranules k c < asked s x h + asked s y g) (hz : ∃ z ∈ s.holders k c, z.1 ≠ x ∧ z.1 ≠ y) :
    (s.grant k c).mem = s.mem ∧ ((s.grant k c).core k c).grantQ = [(y, g)] ∧ ((s.grant k c).wave x).allot = h ∧ (s.grant k c).wave y = s.wave y := by
  obtain ⟨t, hd, hf, hb, ht⟩ := grant_first hr hq hxy hk hxw hri hrg hr0 hxh hx ha
  obtain ⟨z, hz, hzx, hzy⟩ := hz
  have hno : ∀ p ∈ (t.core k c).grantQ, p.1 ≠ z.1 := by
    intro p hp
    rw [hd.grantQ, List.mem_singleton] at hp
    rw [hp]
    exact hzy.symm
  rw [ht, grantGo_held hd.grantQ (by rw [hf, hb]; omega), deadGo_alive (hd.holds hr hz hzx) hno]
  refine ⟨by rw [hd.frame], hd.grantQ, ?_, hd.others y hxy.symm⟩
  rw [hd.self]
  exact Nat.max_eq_right hxh
end
end

/-- A refusal of both instructions. -/
theorem allotGo_refused {s : State} {m : Mods} {n : Reg} {e : Nat} (he : Elected s m e) (ha : Alone s) {sub : Sub} (h : ∀ go, allotGo s m n go = .next (refuse s m sub)) :
    After (.regGrow m n) s (fun t => StopsActive s t m 0x10 sub.code.toNat 0) ∧ After (.regShrink m n) s (fun t => StopsActive s t m 0x10 sub.code.toNat 0) :=
  ⟨refused he ha (Eq.trans (show _ = execRegGrow m n s from rfl) (h _)), refused he ha (Eq.trans (show _ = execRegShrink m n s from rfl) (h _))⟩
theorem registerAllotment : Claims.RegisterAllotment := by
  intro s m n e he hr hw w v k c need legal ready kept
  refine ⟨fun ⟨hp, hl, hpath⟩ hle => ⟨_, regGrow_goes he hp hl hpath hle, finish_frame_waves rfl, finish_goesOn s⟩,
    fun ⟨hp, hl, hpath⟩ hle => ⟨_, regShrink_goes he hp hl hpath hle, finish_frame_waves rfl, finish_goesOn s⟩,
    fun ⟨hp, hl, hpath⟩ hlt hgr hq hwt hfit hk => regGrow_granted he hr hw hp hl hpath hlt hq hgr hwt hfit hk,
    fun ⟨hp, hl, hpath⟩ hlt hq hfit hx => regGrow_waits he hr hw hp hl hpath hlt hq hfit hx,
    fun ⟨hp, hl, hpath⟩ hlt _ hsys hq hfit hx hlv => regGrow_dead he hr hw hp hl hpath hlt hq hsys hfit hx hlv,
    fun ⟨hp, hl, hpath⟩ hlt hq => ⟨_, (regShrink_cuts he hp hl hpath hlt).trans (congrArg _ (grant_nothing ?_)), shrunk_finish n.toNat⟩,
    fun ha => ⟨fun hp => ?_, fun hp hl => ?_, fun hp hl hpath => ?_⟩,
    fun j x h r hj hc hq hx hfit hk hwt hi hg h0 => ?_, fun j x h rest hj hc hq hfit hx => ?_, fun j x y h g r q hj hc hq hxy hk hx hy hxh hyg _ _ _ _ hz hxw hyw hri hqi hrg hqg hr0 hq0 hz2 => ?_⟩
  · show (((finish (shrunk s n.toNat) []).pkg k).core c).grantQ = []
    rw [finish_nil]
    exact hq
  · exact allotGo_refused (sub := .partner) he ha fun _ => allotGo_partner he hp
  · exact allotGo_refused (sub := .range) he ha fun _ => allotGo_range he hp hl
  · exact allotGo_refused (sub := .partial_) he ha fun _ => allotGo_partial he hp hl hpath
  · obtain ⟨t, ht, hd⟩ := grant_one hwt ⟨m, n, hi⟩ hg h0 hfit hk hq
    exact ⟨_, (regGrant_eq hj hc).trans (congrArg _ ht), by rw [hd.frame], hd.grantQ, by rw [hd.self], by rw [hd.self]⟩
  · exact (regGrant_eq hj hc).trans (congrArg _ (grant_blocked hq hfit hx))
  · refine fun ha => ⟨fun hab => ⟨_, regGrant_eq hj hc, ?_⟩, fun hab => ⟨_, regGrant_eq hj hc, ?_⟩⟩
    · exact grant_both hr hq hxy hk hxw hri hrg hr0 hxh (hz x (List.mem_cons_self ..)).2 ha hyg hyw hqi hqg hq0 hab
    · exact grant_first_only hr hq hxy hk hxw hri hrg hr0 hxh (hz x (List.mem_cons_self ..)).2 ha hab hz2

/-- Settles O40: a push and a pop move words between a lane and its partner's window or wait, and a core's queue grants registers in
order, holds back what does not fit, and withdraws what no wave can free. -/
theorem partnersAndRegisters : Obligations.PartnersAndRegisters := ⟨partnerQueues, registerAllotment⟩

end Sys2Proof
end

