-- ==== Sys2Proof/Proofs/Remote.lean ====
section
/-! SUPPORT. Remote operations and tokens (R225 to R231, R359, R371). -/

namespace Sys2Proof
open Machine

/-! ### Queues of the fabric -/

theorem Pkg.enqueue_fab (p : Pkg) (k : Nat) (via : Option Nat) (x : Packet) :
    (p.enqueue k via x).fab.toks = p.fab.toks ∧ (p.enqueue k via x).fab.tags = p.fab.tags := by
  unfold Pkg.enqueue
  split
  · exact ⟨rfl, rfl⟩
  · split <;> exact ⟨rfl, rfl⟩
/-- A packet that enters the queue of its route. -/
theorem sent_of_enqueue {s t : State} {k h : Nat} {via : Option Nat} {p : Pkg} {x : Packet} (ht : t.pkg k = p.enqueue k via x)
    (hs : p.fab.spray = (s.pkg k).fab.spray) (hl : p.fab.locals = (s.pkg k).fab.locals) (hp : p.fab.peers = (s.pkg k).fab.peers) (hx : x.dst = h) :
    Sent s t k h via x := by
  unfold Sent
  rw [ht]
  unfold Pkg.enqueue
  cases via with
  | some v =>
    dsimp only
    rw [← hs]
    rfl
  | none =>
    dsimp only
    rw [hx]
    by_cases hk : h = k
    · rw [if_pos hk, if_pos hk, ← hl]
      rfl
    · rw [if_neg hk, if_neg hk]
      unfold Pkg.sendDirect
      rw [hx, peer_modPeer_self]
      unfold Pkg.peer
      rw [hp]

/-! ### Tokens -/

/-- The entry that is allocated next. -/
def freeTok (p : Pkg) : Option Nat :=
  ((List.range 4096).map (fun i => (p.fab.tokTurn + i) % 4096)).find? (fun i => (p.tok i).st = .free)
/-- The package with an entry taken. -/
def tokTaken (p : Pkg) (i : Nat) (st : TokSt) (ins : List Nat) (ctx : W32) : Pkg :=
  { p.modTok i (fun x => { x with st := st, ins := ins, deps := [], joins := 0, ctx := ctx, sent := false }) with
    fab := { (p.modTok i (fun x => { x with st := st, ins := ins, deps := [], joins := 0, ctx := ctx, sent := false })).fab with tokTurn := (i + 1) % 4096 } }
theorem findSome_of_find {α β : Type} (l : List α) (P : α → Prop) [DecidablePred P] (f : α → β) :
    l.findSome? (fun i => if P i then some (f i) else none) = (l.find? (fun i => P i)).map f := by
  induction l with
  | nil => rfl
  | cons a l ih =>
    rw [List.findSome?_cons, List.find?_cons]
    by_cases h : P a
    · simp [h]
    · simp [h, ih]
theorem newTok_eq (p : Pkg) (st : TokSt) (ins : List Nat) (ctx : W32) :
    p.newTok st ins ctx = (freeTok p).map (fun i => (tokVal (p.tok i).gen i, tokTaken p i st ins ctx)) :=
  findSome_of_find _ (fun i => (p.tok i).st = .free) _
theorem freeTok_lt {p : Pkg} {i : Nat} (h : freeTok p = some i) : i < 4096 := by
  obtain ⟨j, -, rfl⟩ := List.mem_map.1 (List.mem_of_find?_eq_some h)
  exact Nat.mod_lt _ (by decide)
theorem tokIdx_tokVal (g : BitVec 19) {i : Nat} (h : i < 4096) : tokIdx (tokVal g i) = i := by
  unfold tokIdx tokVal nbits
  rw [BitVec.toNat_append, BitVec.toNat_ofNat, Nat.shiftRight_zero]
  show _ % 2 ^ 12 = i
  rw [Nat.or_mod_two_pow, Nat.shiftLeft_eq, Nat.mul_mod_left, Nat.zero_or, Nat.mod_mod, Nat.mod_eq_of_lt h]
theorem tokTaken_tok (p : Pkg) (i : Nat) (st : TokSt) (ins : List Nat) (ctx : W32) :
    ((tokTaken p i st ins ctx).tok i).st = st ∧ ((tokTaken p i st ins ctx).tok i).ins = ins := by
  have h : (tokTaken p i st ins ctx).tok i = { p.tok i with st := st, ins := ins, deps := [], joins := 0, ctx := ctx, sent := false } :=
    (tok_modTok p i i (fun x => { x with st := st, ins := ins, deps := [], joins := 0, ctx := ctx, sent := false })).trans (if_pos rfl)
  rw [h]
  exact ⟨rfl, rfl⟩
/-- What a package does with its tokens is a matter of its side of the fabric alone. -/
theorem newTok_of_fab {p p' : Pkg} (h : p'.fab = p.fab) (st : TokSt) (ins : List Nat) (ctx : W32) :
    (p.newTok st ins ctx = none → p'.newTok st ins ctx = none) ∧
    ∀ tk r, p.newTok st ins ctx = some (tk, r) → ∃ r', p'.newTok st ins ctx = some (tk, r') ∧ r'.fab = r.fab := by
  have hf : freeTok p' = freeTok p := by unfold freeTok Pkg.tok; rw [h]
  have ht : ∀ i, p'.tok i = p.tok i := fun i => by unfold Pkg.tok; rw [h]
  rw [newTok_eq, newTok_eq, hf]
  refine ⟨fun h0 => ?_, fun tk r h0 => ?_⟩
  · rw [Option.map_eq_none_iff] at h0 ⊢
    exact h0
  · obtain ⟨i, hi, he⟩ := Option.map_eq_some_iff.1 h0
    obtain ⟨rfl, rfl⟩ := Prod.mk.inj he
    refine ⟨tokTaken p' i st ins ctx, by rw [hi, Option.map_some, ht], ?_⟩
    unfold tokTaken Pkg.modTok
    dsimp only
    rw [ht, h]
/-- The entry that a new token names. -/
theorem newTok_entry {p r : Pkg} {st : TokSt} {ins : List Nat} {ctx : W32} {tk : W32} (h : p.newTok st ins ctx = some (tk, r)) :
    (r.tok (tokIdx tk)).st = st ∧ (r.tok (tokIdx tk)).ins = ins ∧ r.fab.spray = p.fab.spray ∧ r.fab.locals = p.fab.locals ∧ r.fab.peers = p.fab.peers := by
  rw [newTok_eq] at h
  obtain ⟨i, hi, he⟩ := Option.map_eq_some_iff.1 h
  obtain ⟨rfl, rfl⟩ := Prod.mk.inj he
  rw [tokIdx_tokVal _ (freeTok_lt hi)]
  obtain ⟨h1, h2⟩ := tokTaken_tok p i st ins ctx
  exact ⟨h1, h2, rfl, rfl, rfl⟩

/-! ### Remote operations -/

theorem pkg_finish (s : State) (k : Nat) : (finish s []).pkg k = s.pkg k := by
  rw [finish_nil]
  rfl
theorem WaveBecomes.ends {s u v : State} {f : Nat → Lane → Lane} (h : WaveBecomes s v id f) (hw : u.waves = v.waves) (hc : u.cur = s.cur) :
    LanesBecome s (Machine.finish u []) (fun l x => goOn s l (f l x)) := ((h.of_waves hw).finish hc).lanesBecome
theorem WaveBecomes.curTid {s v : State} {f : Nat → Lane → Lane} (h : WaveBecomes s v id f) (hc : v.cur = s.cur) : v.curTid = s.curTid := by
  unfold State.curTid State.curWave
  rw [hc, h.rest]
  rfl
/-- A store locks its troupe (R405). -/
def lockFor (kind : PKind) (tid : Nat) (v : State) : State := if kind = .store then v.modTroupe tid (fun t => { t with lock := true }) else v
theorem lockFor_rest (kind : PKind) (tid : Nat) (v : State) : (lockFor kind tid v).waves = v.waves ∧ (lockFor kind tid v).cur = v.cur ∧
    (lockFor kind tid v).mem = v.mem ∧ (lockFor kind tid v).pkgs = v.pkgs := by
  unfold lockFor
  split <;> exact ⟨rfl, rfl, rfl, rfl⟩
theorem lockFor_locks {kind : PKind} (h : kind = .store) (tid : Nat) (v : State) : ((lockFor kind tid v).troupe tid).lock = true := by
  unfold lockFor
  rw [if_pos h, State.troupe_modTroupe, if_pos rfl]

section
variable {s : State} {m : Mods} {i : Instr} {dep spr : Bool} {d a : Reg} {n h : Nat} {o : RemOp}

theorem remoteGo_sends {e : Nat} (he : Elected s m e) {rd : List W32 → Option RemOp} (hrd : rd (s.block e a n) = some o) (h1 : dep = false → o.dept = 0)
    (h2 : tokBad o.dept = false) (h3 : o.ret = true → o.words = 2 → d.toNat < 120 → d.toNat % 2 = 0) (ht : s.target o.acc o.va o.n = .home h) :
    remoteGo i s m dep spr d a n rd = remoteSend i s m dep spr d o h := by
  unfold remoteGo
  rw [elected_eq he]
  dsimp only
  rw [hrd]
  dsimp only
  have hd : (!dep && o.dept != 0) = false := by
    cases dep with
    | true => rfl
    | false => rw [h1 rfl]; rfl
  have hpair : ¬(o.ret && decide (o.words = 2) && decide (d.toNat < 120) && decide (d.toNat % 2 = 1)) = true := by
    simp only [Bool.and_eq_true, decide_eq_true_eq]
    rintro ⟨⟨⟨ha, hb⟩, hc⟩, hn⟩
    have := h3 ha hb hc
    omega
  rw [hd, h2, if_neg (by decide), if_neg (by decide), if_neg hpair, ht]

/-- Where a remote operation waits. -/
theorem remoteSend_waits (hw : (s.walkWait .g [o.va] || !s.routeRoom (s.route spr o.va h) h 1 || (o.ret && !s.steerRoom (s.activeLanes m))) = true) :
    remoteSend i s m dep spr d o h = waitAt (s.missed .g [o.va]) i := by
  unfold remoteSend
  exact if_pos hw
section
variable (hw : s.walkWait .g [o.va] = false) (hr : s.routeRoom (s.route spr o.va h) h 1 = true) (hs : o.ret = true → s.steerRoom (s.activeLanes m) = true)
include hw hr hs
theorem remote_ready : ¬(s.walkWait .g [o.va] || !s.routeRoom (s.route spr o.va h) h 1 || (o.ret && !s.steerRoom (s.activeLanes m))) = true := by
  rw [hw, hr]
  cases hret : o.ret with
  | false => rw [Bool.false_and]; decide
  | true => rw [hs hret]; decide

/-- The tag under which a reply is owed. -/
def replyTag (s : State) (m : Mods) (d : Reg) (words : Nat) : TagRec := ⟨s.cur.wid, maskOf (s.activeLanes m), d, 4 * words, false, s.nextId, false, none⟩
theorem remoteSend_replies (hret : o.ret = true) : let t := remoteSend i s m dep spr d o h
    t.mem = s.mem ∧ Sent s t s.curPkg h (s.route spr o.va h) { s.basePacket o h dep with
      tag := BitVec.ofNat 32 (s.nextId % 2 ^ 32), lmask := maskOf (s.activeLanes m) } ∧
    flook (t.pkg s.curPkg).fab.tags (s.nextId % 2 ^ 32) = some (replyTag s m d o.words) ∧
    LanesBecome s t (fun l x => goOn s l (owes m true s.nextId (dstRegs d o.words) x)) := by
  have ht := walked_translated s .g [o.va]
  unfold remoteSend
  rw [if_neg (remote_ready hw hr hs)]
  dsimp only
  rw [if_pos hret]
  generalize s.walked .g [o.va] = u at ht
  have hb := ((WaveBecomes.of_waves (waveBecomes_refl s) ht.waves).oweAll ht.cur m true d o.words)
  have hid : (oweAll u m true d o.words).2 = s.nextId := ht.nextId
  have hp : (oweAll u m true d o.words).1.pkg s.curPkg = u.pkg s.curPkg := rfl
  have hc : (oweAll u m true d o.words).1.cur = s.cur := ht.cur
  have hm : (oweAll u m true d o.words).1.mem = s.mem := ht.mem
  have hfab : (u.pkg s.curPkg).fab = (s.pkg s.curPkg).fab := by rw [ht.pkg]
  rw [ht.nextId] at hb
  rw [hid]
  generalize (oweAll u m true d o.words).1 = v at hb hp hc hm
  refine ⟨by rw [mem_finish]; exact hm, ?_, ?_, hb.ends rfl hc⟩
  · refine sent_of_enqueue ((pkg_finish ..).trans (State.pkg_modPkg_self ..)) ?_ ?_ ?_ rfl <;> dsimp only <;> rw [hp, hfab]
  · rw [pkg_finish, State.pkg_modPkg_self, (Pkg.enqueue_fab ..).2]
    exact (flook_fput ..).trans (if_pos rfl)

/-- The operation's packet, queued for its home with whatever its package had become. -/
theorem remoteSend_tokens (hret : o.ret = false) (htok : o.tok = true) :
    ((s.pkg s.curPkg).newTok .pend [] s.curCtx = none → remoteSend i s m dep spr d o h = waitAt s i) ∧
    ∀ tk p, (s.pkg s.curPkg).newTok .pend [] s.curCtx = some (tk, p) → let t := remoteSend i s m dep spr d o h
      t.mem = s.mem ∧ (o.kind = .store → (t.troupe s.curTid).lock = true) ∧
      Sent s t s.curPkg h (s.route spr o.va h) { s.basePacket o h dep with ownt := tk } ∧ ((t.pkg s.curPkg).tok (tokIdx tk)).st = .pend ∧
      LanesBecome s t (fun l x => goOn s l (sends s m none (regs1 d) (fun _ => to32 d tk) (fun _ => 0) l x)) := by
  have ht := walked_translated s .g [o.va]
  unfold remoteSend
  rw [if_neg (remote_ready hw hr hs)]
  dsimp only
  rw [if_neg (by rw [hret]; decide), if_pos htok]
  generalize s.walked .g [o.va] = u at ht
  have hfab : (u.pkg s.curPkg).fab = (s.pkg s.curPkg).fab := by rw [ht.pkg]
  obtain ⟨hn, hsome⟩ := newTok_of_fab hfab .pend [] s.curCtx
  refine ⟨fun h0 => by rw [hn h0], fun tk p h0 => ?_⟩
  obtain ⟨p', h1, hp'⟩ := hsome tk p h0
  obtain ⟨e1, -, e2, e3, e4⟩ := newTok_entry h1
  rw [h1]
  dsimp only
  generalize hv : u.setPkg s.curPkg (p'.enqueue s.curPkg (s.route spr o.va h) { s.basePacket o h dep with ownt := tk }) = v
  have hvp : v.pkg s.curPkg = p'.enqueue s.curPkg (s.route spr o.va h) { s.basePacket o h dep with ownt := tk } := by
    rw [← hv]
    exact State.pkg_setPkg_self ..
  have hvw : v.waves = s.waves := by rw [← hv]; exact ht.waves
  have hvc : v.cur = s.cur := by rw [← hv]; exact ht.cur
  have hvm : v.mem = s.mem := by rw [← hv]; exact ht.mem
  have hvn : v.nextId = s.nextId := by rw [← hv]; exact ht.nextId
  have hb := (WaveBecomes.of_waves (waveBecomes_refl s) hvw).sendAll hvc hvn m (lat := .owed) rfl d 1 (outs32 d tk)
  have htid := hb.curTid (show (sendAll v m .owed d 1 (outs32 d tk)).cur = s.cur from hvc)
  obtain ⟨l1, l2, l3, l4⟩ := lockFor_rest o.kind s.curTid (sendAll v m .owed d 1 (outs32 d tk))
  have hpk : (lockFor o.kind s.curTid (sendAll v m .owed d 1 (outs32 d tk))).pkg s.curPkg = v.pkg s.curPkg := by
    unfold State.pkg
    rw [l4]
    rfl
  rw [dstRegs_one, outs32_eq] at hb
  rw [htid]
  refine ⟨(mem_finish ..).trans (l3.trans hvm), fun hk => ?_, ?_, ?_, ?_⟩
  · rw [troupe_finish]
    exact lockFor_locks hk ..
  · refine sent_of_enqueue ((pkg_finish ..).trans (hpk.trans hvp)) ?_ ?_ ?_ rfl
    · rw [e2, hfab]
    · rw [e3, hfab]
    · rw [e4, hfab]
  · refine (congrArg (fun p : Pkg => (p.tok (tokIdx tk)).st) ((pkg_finish ..).trans (hpk.trans hvp))).trans ?_
    unfold Pkg.tok at e1 ⊢
    rw [(Pkg.enqueue_fab ..).1]
    exact e1
  · rw [outs32_eq] at l1 l2 ⊢
    exact hb.ends l1 (l2.trans hvc)
theorem remoteSend_plain (hret : o.ret = false) (htok : o.tok = false) : let t := remoteSend i s m dep spr d o h
    t.mem = s.mem ∧ Sent s t s.curPkg h (s.route spr o.va h) (s.basePacket o h dep) ∧
    LanesBecome s t (fun l x => goOn s l (sends s m none (regs1 d) (fun _ => []) (fun _ => 0) l x)) := by
  have ht := walked_translated s .g [o.va]
  unfold remoteSend
  rw [if_neg (remote_ready hw hr hs)]
  dsimp only
  rw [if_neg (by rw [hret]; decide), if_neg (by rw [htok]; decide)]
  generalize s.walked .g [o.va] = u at ht
  have hfab : (u.pkg s.curPkg).fab = (s.pkg s.curPkg).fab := by rw [ht.pkg]
  generalize hv : u.modPkg s.curPkg (fun p => p.enqueue s.curPkg (s.route spr o.va h) (s.basePacket o h dep)) = v
  have hvp : v.pkg s.curPkg = (u.pkg s.curPkg).enqueue s.curPkg (s.route spr o.va h) (s.basePacket o h dep) := by
    rw [← hv]
    exact State.pkg_modPkg_self ..
  have hvw : v.waves = s.waves := by rw [← hv]; exact ht.waves
  have hvc : v.cur = s.cur := by rw [← hv]; exact ht.cur
  have hvm : v.mem = s.mem := by rw [← hv]; exact ht.mem
  have hvn : v.nextId = s.nextId := by rw [← hv]; exact ht.nextId
  have hb := (WaveBecomes.of_waves (waveBecomes_refl s) hvw).sendAll hvc hvn m (lat := .owed) rfl d 1 []
  have htid := hb.curTid (show (sendAll v m .owed d 1 []).cur = s.cur from hvc)
  obtain ⟨l1, l2, l3, l4⟩ := lockFor_rest o.kind s.curTid (sendAll v m .owed d 1 [])
  have hpk : (lockFor o.kind s.curTid (sendAll v m .owed d 1 [])).pkg s.curPkg = v.pkg s.curPkg := by
    unfold State.pkg
    rw [l4]
    rfl
  rw [dstRegs_one] at hb
  rw [htid]
  refine ⟨(mem_finish ..).trans (l3.trans hvm), ?_, hb.ends l1 (l2.trans hvc)⟩
  refine sent_of_enqueue ((pkg_finish ..).trans (hpk.trans hvp)) ?_ ?_ ?_ rfl <;> rw [hfab]
end

/-- An operation waits for its walk, for its queue or for its lanes' steer slots. -/
theorem remote_waits (hx : exec i s = .next (remoteSend i s m dep spr d o h)) {slots : Bool} (hs : (o.ret && !s.steerRoom (s.activeLanes m)) = !slots) :
    (s.walkWait .g [o.va] = true → After i s (fun t => WaitsForWalks i s t [o.va])) ∧
    (s.walkWait .g [o.va] = false → (s.routeRoom (s.route spr o.va h) h 1 = false ∨ slots = false) → After i s (Waits i s)) := by
  refine ⟨fun hw => ⟨_, hx.trans (congrArg _ (remoteSend_waits ?_)), waitAt_walks hw⟩, fun hw hr => ⟨_, hx.trans (congrArg _ (remoteSend_waits ?_)), waitAt_plain hw⟩⟩
  · rw [hw]; rfl
  · rw [hw, hs]
    rcases hr with hr | hr <;> rw [hr]
    · rfl
    · exact Bool.or_true _

/-- An operation that gives a token. -/
theorem remote_token (hx : exec i s = .next (remoteSend i s m dep spr d o h)) (hret : o.ret = false) (htok : o.tok = true) :
    (s.walkWait .g [o.va] = true → After i s (fun t => WaitsForWalks i s t [o.va])) ∧
    (s.walkWait .g [o.va] = false → (s.routeRoom (s.route spr o.va h) h 1 = false ∨ true = false) → After i s (Waits i s)) ∧
    (s.walkWait .g [o.va] = false → s.routeRoom (s.route spr o.va h) h 1 = true → true = true →
      (∀ tk p, (s.pkg s.curPkg).newTok .pend [] s.curCtx = some (tk, p) → After i s (fun t => t.mem = s.mem ∧ (o.kind = .store → (t.troupe s.curTid).lock = true) ∧
        Sent s t s.curPkg h (s.route spr o.va h) { s.basePacket o h dep with ownt := tk } ∧ ((t.pkg s.curPkg).tok (tokIdx tk)).st = .pend ∧
        LanesBecome s t (fun l x => goOn s l (sends s m none (regs1 d) (fun _ => to32 d tk) (fun _ => 0) l x)))) ∧
      ((s.pkg s.curPkg).newTok .pend [] s.curCtx = none → After i s (Waits i s))) := by
  obtain ⟨h1, h2⟩ := remote_waits hx (slots := true) (by rw [hret]; rfl)
  refine ⟨h1, h2, fun hw hr _ => ?_⟩
  obtain ⟨hn, hsome⟩ := remoteSend_tokens (i := i) (dep := dep) (d := d) hw hr (fun h => absurd h (by rw [hret]; decide)) hret htok
  exact ⟨fun tk p h0 => ⟨_, hx, hsome tk p h0⟩, fun h0 => ⟨_, hx.trans (congrArg _ (hn h0)), waitAt_waits s i⟩⟩
end

theorem dstRegs_of_width (d : Reg) (w : Bool) : dstRegs d (if w then 2 else 1) = if w then regs2 d else regs1 d := by
  cases w
  · exact dstRegs_one d
  · exact dstRegs_two d

/-- The packet of an operation. -/
theorem basePacket_eq (s : State) (o : RemOp) (h : Nat) (dep : Bool) : s.basePacket o h dep =
    { remotePacket s o.kind h dep o.va o.dept o.data with tok := o.tok, ret := o.ret, w := o.w, hnd := o.hnd } := rfl
/-- What the blocks of the three instructions ask for (R225 to R228). -/
def rstOp (b : List W32) : RemOp := ⟨.store, .store, bd b 0, 4, bw b 3, (bw b 2).setWidth 128, false, 0, false, true, 1⟩
def rldOp (b : List W32) : RemOp :=
  ⟨.load, .load, bd b 0, if bf b 2 0 0 == 1 then 8 else 4, bw b 3, 0, bf b 2 0 0 == 1, 0, true, false, if bf b 2 0 0 == 1 then 2 else 1⟩
def ratomOp (b : List W32) (tok : Bool) : RemOp :=
  ⟨.atomic, .atom, bd b 0, if bf b 2 8 8 == 1 then 8 else 4, bw b 3, bd b 6 ++ bd b 4, bf b 2 8 8 == 1, bf b 2 4 0, bf b 2 9 9 == 1, tok,
    if bf b 2 8 8 == 1 && bf b 2 9 9 == 1 then 2 else 1⟩
section
variable {s : State} {m : Mods} {dep spr : Bool} {d a : Reg} {e h : Nat} (he : Elected s m e)
include he
theorem rst_sends (h1 : dep = false → bw (s.block e a 4) 3 = 0) (h2 : tokBad (bw (s.block e a 4) 3) = false)
    (ht : s.target .store (bd (s.block e a 4) 0) 4 = .home h) :
    exec (.rst m dep spr d a) s = .next (remoteSend (.rst m dep spr d a) s m dep spr d (rstOp (s.block e a 4)) h) :=
  Eq.trans (show _ = execRst m dep spr d a s from rfl)
    (congrArg Host.Outcome.next (remoteGo_sends (o := rstOp (s.block e a 4)) he rfl h1 h2 (fun hr => nomatch hr) ht))
theorem rld_sends (h0 : bf (s.block e a 4) 2 31 1 = 0) (h1 : dep = false → bw (s.block e a 4) 3 = 0) (h2 : tokBad (bw (s.block e a 4) 3) = false)
    (hev : (bf (s.block e a 4) 2 0 0 == 1) = true → d.toNat < 120 → d.toNat % 2 = 0)
    (ht : s.target .load (bd (s.block e a 4) 0) (if bf (s.block e a 4) 2 0 0 == 1 then 8 else 4) = .home h) :
    exec (.rld m dep spr d a) s = .next (remoteSend (.rld m dep spr d a) s m dep spr d (rldOp (s.block e a 4)) h) := by
  refine Eq.trans (show _ = execRld m dep spr d a s from rfl)
    (congrArg Host.Outcome.next (remoteGo_sends (o := rldOp (s.block e a 4)) he ?_ h1 h2 (fun _ hw2 => hev ?_) ht))
  · exact if_neg (fun hn => hn h0)
  · by_contra hn
    exact absurd ((if_neg hn).symm.trans hw2) (by decide)
theorem ratom_sends {tok : Bool} (h0 : bf (s.block e a 8) 2 31 10 = 0) (h5 : bf (s.block e a 8) 2 7 5 = 0) (hf : bf (s.block e a 8) 2 4 4 = 1 → (s.pkg s.curPkg).feat 9 = true)
    (hdet : s.curTroupe.hdr.det = false) (h1 : dep = false → bw (s.block e a 8) 3 = 0) (h2 : tokBad (bw (s.block e a 8) 3) = false)
    (htr : tok = true → (bf (s.block e a 8) 2 9 9 == 1) = false)
    (hev : (bf (s.block e a 8) 2 9 9 == 1) = true → (bf (s.block e a 8) 2 8 8 == 1) = true → d.toNat < 120 → d.toNat % 2 = 0)
    (ht : s.target .atom (bd (s.block e a 8) 0) (if bf (s.block e a 8) 2 8 8 == 1 then 8 else 4) = .home h) :
    exec (.ratom m tok dep spr d a) s = .next (remoteSend (.ratom m tok dep spr d a) s m dep spr d (ratomOp (s.block e a 8) tok) h) := by
  refine Eq.trans (show _ = execRatom m tok dep spr d a s from rfl) ?_
  unfold execRatom
  rw [if_neg (by rw [hdet, Bool.and_false]; decide)]
  refine congrArg Host.Outcome.next (remoteGo_sends (o := ratomOp (s.block e a 8) tok) he ?_ h1 h2 (fun hr hw2 => hev hr ?_) ht)
  · refine if_neg ?_
    rintro (hn | hn | hn | ⟨hn, hn'⟩)
    · exact hn h0
    · exact hn h5
    · obtain ⟨ha, hb⟩ := Bool.and_eq_true_iff.1 hn
      rw [htr ha] at hb
      exact nomatch hb
    · rw [hf hn] at hn'
      exact nomatch hn'
  · by_contra hn
    have hz : (bf (s.block e a 8) 2 8 8 == 1 && bf (s.block e a 8) 2 9 9 == 1) = false := by rw [Bool.eq_false_iff.2 hn, Bool.false_and]
    exact absurd ((if_neg (by rw [hz]; decide)).symm.trans hw2) (by decide)
end
theorem top_of_five {b : List W32} {i : Nat} (h : bf b i 4 4 = 1) : bf b i 4 0 / 16 = 1 := by
  unfold bf nbits at *
  rw [Nat.shiftRight_eq_div_pow] at *
  omega
theorem remoteOperations : Claims.RemoteOperations := by
  intro s m tok dep spr d a e h he k b dept h1 h2 ready withToken withReply
  refine ⟨fun ht => ?_, fun h0 hev ht => ?_, fun h0 h5 hf hdet hdept htr hev ht => ?_⟩
  · obtain ⟨w1, w2, w3⟩ := remote_token (rst_sends (spr := spr) he h1 h2 ht) rfl rfl
    refine ⟨w1, w2, fun hw hr hs => ?_⟩
    obtain ⟨t1, t2⟩ := w3 hw hr hs
    refine ⟨fun tk p hn => ?_, t2⟩
    obtain ⟨t, ht, hm, hl, hrest⟩ := t1 tk p hn
    exact ⟨t, ht, hm, hl rfl, hrest⟩
  · have hx := rld_sends (spr := spr) he h0 h1 h2 hev ht
    obtain ⟨w1, w2⟩ := remote_waits hx (slots := s.steerRoom (s.activeLanes m)) (Bool.true_and _)
    refine ⟨w1, w2, fun hw hr hs => ?_⟩
    obtain ⟨t1, t2, t3, t4⟩ := remoteSend_replies (i := .rld m dep spr d a) (o := rldOp (s.block e a 4)) (dep := dep) (d := d) hw hr (fun _ => hs) rfl
    rw [show (rldOp (s.block e a 4)).words = if bf (s.block e a 4) 2 0 0 == 1 then 2 else 1 from rfl, dstRegs_of_width] at t4
    exact ⟨_, hx, t1, t2, ⟨_, t3, rfl, rfl, rfl, rfl⟩, t4⟩
  · have hx := ratom_sends (m := m) (spr := spr) (d := d) (tok := tok) he h0 h5 (fun hb => hf (top_of_five hb)) hdet (fun hd => hdept.trans (h1 hd)) (by rw [hdept]; exact h2)
      (fun hk => Bool.eq_false_iff.2 fun hr => absurd (htr hk) (by rw [hr]; decide)) hev ht
    have hbp := basePacket_eq s (ratomOp (s.block e a 8) tok) h dep
    rw [show (ratomOp (s.block e a 8) tok).dept = dept from hdept] at hbp
    obtain ⟨w1, w2⟩ := remote_waits hx (slots := !(bf (s.block e a 8) 2 9 9 == 1) || s.steerRoom (s.activeLanes m)) (by
      show ((bf (s.block e a 8) 2 9 9 == 1) && _) = _
      cases (bf (s.block e a 8) 2 9 9 == 1) <;> simp)
    refine ⟨w1, w2, fun hw hr hs => ?_⟩
    by_cases hret : (bf (s.block e a 8) 2 9 9 == 1) = true
    · have htok : tok = false := by
        cases tok with
        | false => rfl
        | true => exact absurd (htr rfl) (by rw [hret]; decide)
      subst htok
      obtain ⟨t1, t2, t3, t4⟩ := remoteSend_replies (i := .ratom m false dep spr d a) (o := ratomOp (s.block e a 8) false) (dep := dep) (d := d) hw hr
        (fun _ => by rw [hret] at hs; exact hs) hret
      rw [show (ratomOp (s.block e a 8) false).words = if bf (s.block e a 8) 2 8 8 == 1 then 2 else 1 from by
        unfold ratomOp
        dsimp only
        rw [hret, Bool.and_true], dstRegs_of_width] at t4
      rw [hbp] at t2
      have hr' : (ratomOp (s.block e a 8) false).ret = true := hret
      rw [hr'] at t2
      show if (bf (s.block e a 8) 2 9 9 == 1) = true then _ else _
      rw [if_pos hret]
      exact ⟨_, hx, t1, t2, ⟨_, t3, rfl, rfl, rfl, rfl⟩, t4⟩
    · have hret' : (ratomOp (s.block e a 8) tok).ret = false := Bool.eq_false_iff.2 hret
      show if (bf (s.block e a 8) 2 9 9 == 1) = true then _ else _
      rw [if_neg hret]
      rw [hret'] at hbp
      cases tok with
      | true =>
        rw [if_pos rfl]
        obtain ⟨-, -, w3⟩ := remote_token hx hret' rfl
        obtain ⟨t1, t2⟩ := w3 hw hr rfl
        rw [hbp] at t1
        refine ⟨fun tk p hn => ?_, t2⟩
        obtain ⟨t, ht, hm, -, hrest⟩ := t1 tk p hn
        exact ⟨t, ht, hm, trivial, hrest⟩
      | false =>
        rw [if_neg (by decide)]
        obtain ⟨t1, t2, t3⟩ := remoteSend_plain (i := .ratom m false dep spr d a) (o := ratomOp (s.block e a 8) false) (dep := dep) (d := d) hw hr
          (fun hn => absurd hn (by rw [hret']; decide)) hret' rfl
        rw [hbp] at t2
        exact ⟨_, hx, t1, t2, t3⟩

/-! ### The instructions on tokens (R231) -/

theorem tokIdx_eq (t : W32) : tokIdx t = t.toNat % 2 ^ 12 := by
  unfold tokIdx nbits
  rw [Nat.shiftRight_zero]
theorem tokGen_eq (t : W32) : tokGen t = BitVec.ofNat 19 (t.toNat / 2 ^ 12) := by
  unfold tokGen
  refine BitVec.eq_of_toNat_eq ?_
  rw [BitVec.extractLsb'_toNat, BitVec.toNat_ofNat, Nat.shiftRight_eq_div_pow]
theorem tokLanded_iff (p : Pkg) (t : W32) : p.tokLanded t = true ↔ t = 0 ∨ (fget Tok.init p.fab.toks (t.toNat % 2 ^ 12)).gen ≠ BitVec.ofNat 19 (t.toNat / 2 ^ 12) ∨
    (fget Tok.init p.fab.toks (t.toNat % 2 ^ 12)).st = .landed ∨ (fget Tok.init p.fab.toks (t.toNat % 2 ^ 12)).st = .free := by
  unfold Pkg.tokLanded Pkg.tok
  rw [tokIdx_eq, tokGen_eq, Bool.or_eq_true, Bool.or_eq_true, Bool.or_eq_true, beq_iff_eq, bne_iff_ne, beq_iff_eq, beq_iff_eq, or_assoc, or_assoc]
theorem tokBad_iff (t : W32) : tokBad t = true ↔ ¬(t = 0 ∨ 2 ^ 31 ≤ t.toNat) := by
  unfold tokBad
  have := t.isLt
  have hb : t.getLsbD 31 = decide (2 ^ 31 ≤ t.toNat) := by
    rw [show t.getLsbD 31 = t.msb from rfl, BitVec.msb_eq_decide]
  rw [hb, Bool.and_eq_true, Bool.not_eq_true', decide_eq_false_iff_not, bne_iff_ne, not_or, and_comm]

/-- A value given to the lanes of a path. -/
def given (s : State) (m : Mods) (d : Reg) (v : W32) : State := finish (sendAll s m .owed d 1 (outs32 d v)) []
theorem given_lanes {s u : State} (hu : WaveBecomes s u id (fun _ x => x)) (hc : u.cur = s.cur) (hn : u.nextId = s.nextId) (m : Mods) (d : Reg) (v : W32) :
    LanesBecome s (given u m d v) (fun l x => goOn s l (sends s m none (regs1 d) (fun _ => to32 d v) (fun _ => 0) l x)) := by
  have hb := hu.sendAll hc hn m (lat := .owed) rfl d 1 (outs32 d v)
  unfold given
  rw [dstRegs_one] at hb
  rw [outs32_eq] at hb ⊢
  exact hb.ends rfl hc
theorem given_writes (s : State) (m : Mods) (d : Reg) (v : W32) : Writes s (given s m d v) m none (regs1 d) (fun _ => to32 d v) (fun _ => 0) := by
  refine ⟨?_, given_lanes (waveBecomes_refl s) rfl rfl m d v⟩
  unfold given
  rw [finish_nil]
  rfl

section
variable {s : State} {m : Mods} {d a : Reg} {e : Nat} (he : Elected s m e)
include he
theorem tokTest_gives (hy : tokBad (s.src s.cur.wid e a) = false) :
    exec (.tokTest m d a) s = .next (given s m d (if (s.pkg s.curPkg).tokLanded (s.src s.cur.wid e a) then 1 else 0)) := by
  refine Eq.trans (show _ = execTokTest m d a s from rfl) ?_
  unfold execTokTest
  rw [elected_eq he]
  dsimp only
  rw [hy, if_neg (by decide)]
  rfl
theorem tokWait_waits (hy : tokBad (s.src s.cur.wid e a) = false) : exec (.tokWait m a) s =
    .next (if (s.pkg s.curPkg).tokLanded (s.src s.cur.wid e a) then finish (s.acquireLines .pod) [] else waitAt s (.tokWait m a)) := by
  refine Eq.trans (show _ = execTokWait m a s from rfl) ?_
  unfold execTokWait
  rw [elected_eq he]
  dsimp only
  rw [hy, if_neg (by decide)]
  split <;> rfl
section
variable (hx : tokBad (s.src s.cur.wid e d) = false) (hy : tokBad (s.src s.cur.wid e a) = false)
include hx hy
theorem tokJoin_landed (h : (s.pkg s.curPkg).tokLanded (s.src s.cur.wid e d) = true ∨ (s.pkg s.curPkg).tokLanded (s.src s.cur.wid e a) = true) :
    exec (.tokJoin m d a) s = .next (given s m d (if (s.pkg s.curPkg).tokLanded (s.src s.cur.wid e d) then
      (if (s.pkg s.curPkg).tokLanded (s.src s.cur.wid e a) then 0 else s.src s.cur.wid e a) else s.src s.cur.wid e d)) := by
  refine Eq.trans (show _ = execTokJoin m d a s from rfl) ?_
  unfold execTokJoin
  rw [elected_eq he]
  dsimp only
  rw [hx, hy, if_neg (by decide)]
  cases h1 : (s.pkg s.curPkg).tokLanded (s.src s.cur.wid e d) <;> cases h2 : (s.pkg s.curPkg).tokLanded (s.src s.cur.wid e a)
  · rw [h1, h2] at h
    exact absurd h (by decide)
  · rfl
  · rfl
  · rfl
variable (h1 : (s.pkg s.curPkg).tokLanded (s.src s.cur.wid e d) = false) (h2 : (s.pkg s.curPkg).tokLanded (s.src s.cur.wid e a) = false)
include h1 h2
theorem tokJoin_full (hn : (s.pkg s.curPkg).newTok .join [tokIdx (s.src s.cur.wid e d), tokIdx (s.src s.cur.wid e a)] s.curCtx = none) :
    exec (.tokJoin m d a) s = .next (waitAt s (.tokJoin m d a)) := by
  refine Eq.trans (show _ = execTokJoin m d a s from rfl) ?_
  unfold execTokJoin
  rw [elected_eq he]
  dsimp only
  rw [hx, hy, h1, h2, hn]
  rfl
theorem tokJoin_joins {tk : W32} {p : Pkg} (hn : (s.pkg s.curPkg).newTok .join [tokIdx (s.src s.cur.wid e d), tokIdx (s.src s.cur.wid e a)] s.curCtx = some (tk, p)) :
    exec (.tokJoin m d a) s = .next (given (s.setPkg s.curPkg ([tokIdx (s.src s.cur.wid e d), tokIdx (s.src s.cur.wid e a)].foldl
      (fun p j => p.modTok j (fun z => { z with joins := z.joins + 1 })) p)) m d tk) := by
  refine Eq.trans (show _ = execTokJoin m d a s from rfl) ?_
  unfold execTokJoin
  rw [elected_eq he]
  dsimp only
  rw [hx, hy, h1, h2, hn]
  rfl
end
theorem tok_refused (hy : tokBad (s.src s.cur.wid e a) = true) : exec (.tokTest m d a) s = .next (refuse s m .token) ∧
    exec (.tokWait m a) s = .next (refuse s m .token) ∧ exec (.tokJoin m d a) s = .next (refuse s m .token) := by
  refine ⟨Eq.trans (show _ = execTokTest m d a s from rfl) ?_, Eq.trans (show _ = execTokWait m a s from rfl) ?_, Eq.trans (show _ = execTokJoin m d a s from rfl) ?_⟩
  · unfold execTokTest
    rw [elected_eq he]
    exact if_pos hy
  · unfold execTokWait
    rw [elected_eq he]
    exact if_pos hy
  · unfold execTokJoin
    rw [elected_eq he]
    exact if_pos (by rw [hy, Bool.or_true])
end
/-- The inputs of a join count it; no entry changes its state. -/
theorem addJoins_tok (js : List Nat) (p : Pkg) (i : Nat) : let p' := js.foldl (fun p j => p.modTok j (fun z => { z with joins := z.joins + 1 })) p
    (p'.tok i).st = (p.tok i).st ∧ (p'.tok i).ins = (p.tok i).ins := by
  induction js generalizing p with
  | nil => exact ⟨rfl, rfl⟩
  | cons j js ih =>
    have h := ih (p.modTok j (fun z => { z with joins := z.joins + 1 }))
    rw [tok_modTok] at h
    split at h
    next hj => subst hj; exact h
    next => exact h

theorem given_setPkg (s : State) (k : Nat) (p : Pkg) (m : Mods) (d : Reg) (v : W32) :
    (given (s.setPkg k p) m d v).mem = s.mem ∧ (given (s.setPkg k p) m d v).pkg k = p ∧
      LanesBecome s (given (s.setPkg k p) m d v) (fun l x => goOn s l (sends s m none (regs1 d) (fun _ => to32 d v) (fun _ => 0) l x)) := by
  refine ⟨?_, ?_, given_lanes ((waveBecomes_refl s).of_waves (u := s.setPkg k p) rfl) rfl rfl m d v⟩
  · unfold given
    rw [mem_finish]
    rfl
  · unfold given
    rw [pkg_finish]
    exact State.pkg_setPkg_self s k p
theorem tokens : Claims.Tokens := by
  intro s m d a e he k x y legal landed gives
  have hbad : ∀ t : W32, legal t → tokBad t = false := fun t h => Bool.eq_false_iff.2 fun hb => (tokBad_iff t).1 hb h
  have hl : ∀ t : W32, landed t → (s.pkg k).tokLanded t = true := fun t h => (tokLanded_iff _ t).2 h
  have hnl : ∀ t : W32, ¬landed t → (s.pkg k).tokLanded t = false := fun t h => Bool.eq_false_iff.2 fun hb => h ((tokLanded_iff _ t).1 hb)
  refine ⟨fun hy => ⟨fun h => ?_, fun h => ?_⟩, fun hy h => ?_, fun hy h => ?_, fun hx hy h1 h2 => ?_, fun hx hy h1 h2 => ?_, fun hx hy h1 h2 => ?_,
    fun hx hy h1 h2 => ⟨fun hn => ?_, fun tk p hn => ?_⟩, fun ha hy => ?_⟩
  · exact ⟨_, (tokTest_gives he (hbad y hy)).trans (by rw [hl y h]; rfl), given_writes ..⟩
  · exact ⟨_, (tokTest_gives he (hbad y hy)).trans (by rw [hnl y h]; rfl), given_writes ..⟩
  · obtain ⟨f1, f2, f3, f4⟩ := finish_acquire s .pod
    exact ⟨_, (tokWait_waits he (hbad y hy)).trans (by rw [hl y h]; rfl), f2, f1, f3, f4 (by decide)⟩
  · exact ⟨_, (tokWait_waits he (hbad y hy)).trans (by rw [hnl y h]; rfl), waitAt_waits ..⟩
  · exact ⟨_, (tokJoin_landed he (hbad x hx) (hbad y hy) (.inl (hl x h1))).trans (by rw [hl x h1, hl y h2]; rfl), given_writes ..⟩
  · exact ⟨_, (tokJoin_landed he (hbad x hx) (hbad y hy) (.inl (hl x h1))).trans (by rw [hl x h1, hnl y h2]; rfl), given_writes ..⟩
  · exact ⟨_, (tokJoin_landed he (hbad x hx) (hbad y hy) (.inr (hl y h2))).trans (by rw [hnl x h1]; rfl), given_writes ..⟩
  · exact ⟨_, tokJoin_full he (hbad x hx) (hbad y hy) (hnl x h1) (hnl y h2) hn, waitAt_waits ..⟩
  · obtain ⟨e1, e2, -⟩ := newTok_entry hn
    obtain ⟨j1, j2⟩ := addJoins_tok [tokIdx x, tokIdx y] p (tokIdx tk)
    have hx := tokJoin_joins he (hbad x hx) (hbad y hy) (hnl x h1) (hnl y h2) hn
    obtain ⟨g1, g2, g3⟩ := given_setPkg s k ([tokIdx x, tokIdx y].foldl (fun p j => p.modTok j (fun z => { z with joins := z.joins + 1 })) p) m d tk
    exact ⟨_, hx, g1, by rw [g2, j1, e1], by rw [g2, j2, e2], g3⟩
  · obtain ⟨r1, r2, r3⟩ := tok_refused (d := d) he ((tokBad_iff y).2 hy)
    exact ⟨⟨_, r1, refuse_stops (sub := .token) ha ⟨e, he.1⟩⟩, ⟨_, r2, refuse_stops (sub := .token) ha ⟨e, he.1⟩⟩, ⟨_, r3, refuse_stops (sub := .token) ha ⟨e, he.1⟩⟩⟩

/-- Settles O32: a remote operation becomes one packet in the queue of its route, with its token or its reply owed, or waits; a token is
tested, waited for and joined by whether it has landed. -/
theorem remoteAndTokens : Obligations.RemoteAndTokens := ⟨remoteOperations, tokens⟩

end Sys2Proof
end

