-- ==== Sys2Proof/Proofs/PacketsRefuted.lean ====
section
/-! SUPPORT. The tables under which a package applies the packets of its own stream (R206, R225), where the list of packages is out of order. -/

namespace Sys2Proof

open Machine

/-- A change of the page at 0 before which its bytes lay in a frame of package 0. -/
def changeFrom (frame : Nat) : VmChange :=
  { id := 1, ctx := 0, va := 0, size := 2 ^ 16, wid := none, lanes := 0, d := none, status := 0, tag := 0, watch := [], parts := [], pod := [],
    old := [(0, 0, 2 ^ 16, BitVec.ofNat 64 (frame * 2 ^ 20 + 2 ^ 5 + 2 ^ 4 + 2 * 2 ^ 2 + 3))], wp := false, leaves := [], copies := [], frees := [], dset := none }
/-- Package 0, listed behind package 1, has a store of its own at the head of its arrivals. The changes that both packages list name different frames
for the page that it was issued to; the store is looked up in the first of the list. -/
def disorderedPackages (x : Packet) (holds : List Hold) : State :=
  { Tests.solo [] with
    pkgs := [(1, { Tests.pkgOf with vmch := [changeFrom 1] }),
      (0, { Tests.pkgOf with vmch := [changeFrom 2], fab := { Tests.pkgOf.fab with arrivals := [(0, x)], holds := holds } })] }
def ownStore : Packet := { Packet.init with data := 1 }
/-- A store on a token whose release came first. -/
def ownHeldStore : Packet := { ownStore with dep := true }
def ownMemo : Hold := ⟨0, 0, none, 1, 0, []⟩

set_option maxRecDepth 100000 in
/-- When the packet has been taken from the arrivals, package 0 stands first, and the store goes to the other frame. -/
theorem disordered_applies : (match exec (.storePacket 0) (disorderedPackages ownStore []) with | .next t => memGets t.mem (2 ^ 16) 4 | _ => []) = [0, 0, 0, 0] := by decide

set_option maxRecDepth 100000 in
theorem disordered_releases :
    (match exec (.storePacket 0) (disorderedPackages ownHeldStore [ownMemo]) with | .next t => memGets t.mem (2 ^ 16) 4 | _ => []) = [0, 0, 0, 0] := by decide

set_option maxRecDepth 100000 in
theorem disordered_home : (disorderedPackages ownStore []).homeCheck 0 ownStore .store 0 = .ok (.at_ (2 ^ 16) true) := by decide
set_option maxRecDepth 100000 in
theorem disordered_home_held : (disorderedPackages ownHeldStore [ownMemo]).homeCheck 0 ownHeldStore .store 0 = .ok (.at_ (2 ^ 16) true) := by decide

/-- Refutes O33: the tables that a package's own packets were issued under are looked up in the list of all packages, which the application of a
packet puts in order. -/
theorem not_packetsAtHome : ¬ Obligations.PacketsAtHome := by
  rintro ⟨h, -⟩
  obtain ⟨hs, -⟩ := h (disorderedPackages ownStore []) 0 false ownStore ⟨rfl, ⟨0, rfl⟩, fun _ h => nomatch h⟩
  obtain ⟨t, ht, -, hm, -⟩ := (hs rfl).1 (2 ^ 16) ⟨true, disordered_home⟩ (fun _ h => nomatch h)
  have hx := disordered_applies
  rw [ht] at hx
  exact absurd (hx.symm.trans hm) (by decide)
/-- Refutes O34: the same, for a packet of the package's own that a release lets through. -/
theorem not_repliesAndHolds : ¬ Obligations.RepliesAndHolds := by
  rintro ⟨-, h⟩
  obtain ⟨-, -, hs⟩ := h (disorderedPackages ownHeldStore [ownMemo]) 0 0 ownHeldStore [] rfl rfl
  obtain ⟨t, ht, ⟨hm, -⟩, -⟩ := hs ownMemo (2 ^ 16) rfl rfl rfl rfl rfl ⟨true, disordered_home_held⟩ (fun _ h => nomatch h)
  have hx := disordered_releases
  rw [ht] at hx
  exact absurd (hx.symm.trans hm) (by decide)

end Sys2Proof
end

