-- ==== Sys2Proof/Proofs/HeapBlocks.lean ====
section
/-! SUPPORT. The heap's free lists (R201 to R203). -/

namespace Sys2Proof
open Machine

/-! ### The free lists -/

theorem flook_ctxs_setHeapList (s : State) (k : Nat) (ctx : W32) (c : Nat) (l : List W64) : flook ((s.setHeapList k ctx c l).pkg k).ctxs ctx.toNat =
    (flook (s.pkg k).ctxs ctx.toNat).map (fun y => { y with heapFree := fput y.heapFree c l }) := by
  unfold State.setHeapList
  rw [State.pkg_modPkg_self]
  dsimp only
  rw [flook_fmod, if_pos rfl]
theorem heapList_setHeapList {s : State} {k : Nat} {ctx : W32} (h : (flook (s.pkg k).ctxs ctx.toNat).isSome = true) (c : Nat) (l : List W64) (j : Nat) :
    (s.setHeapList k ctx c l).heapList k ctx j = if j = c then l else s.heapList k ctx j := by
  obtain ⟨x, hx⟩ := Option.isSome_iff_exists.1 h
  unfold State.heapList
  rw [flook_ctxs_setHeapList, hx]
  exact fget_fput ..
/-- A state with the same contexts on a package has the same free lists there. -/
theorem heapList_of_ctxs {s t : State} {k : Nat} (h : (t.pkg k).ctxs = (s.pkg k).ctxs) (ctx : W32) (c : Nat) : t.heapList k ctx c = s.heapList k ctx c := by
  unfold State.heapList
  rw [h]

/-! ### Blocks given back -/

/-- The class of the block that a lane gives back, if it gives one. -/
def givenClass (s : State) (va : W64) : Option Nat := if va = 0 then none else s.heapBlock s.curPkg s.curCtx va
/-- One lane's block goes to the head of the list of its class. -/
def giveBlock (k : Nat) (ctx : W32) (cls : W64 → Option Nat) (t : State) (va : W64) : State :=
  match cls va with
  | some c => t.setHeapList k ctx c (va :: t.heapList k ctx c)
  | none => t
theorem giveBlock_frame (k : Nat) (ctx : W32) (cls : W64 → Option Nat) (t : State) (va : W64) :
    giveBlock k ctx cls t va = { t with pkgs := (giveBlock k ctx cls t va).pkgs } := by
  unfold giveBlock
  split <;> rfl
theorem giveBlocks_frame (k : Nat) (ctx : W32) (cls : W64 → Option Nat) (vas : List W64) (t : State) :
    vas.foldl (giveBlock k ctx cls) t = { t with pkgs := (vas.foldl (giveBlock k ctx cls) t).pkgs } := by
  induction vas generalizing t with
  | nil => rfl
  | cons va vas ih =>
    rw [List.foldl_cons]
    refine (ih _).trans ?_
    exact (congrArg (fun u : State => { u with pkgs := (vas.foldl (giveBlock k ctx cls) (giveBlock k ctx cls t va)).pkgs }) (giveBlock_frame k ctx cls t va)).trans rfl
theorem giveBlocks_none {k : Nat} {ctx : W32} {cls : W64 → Option Nat} {vas : List W64} {t : State} (h : ∀ va ∈ vas, cls va = none) :
    vas.foldl (giveBlock k ctx cls) t = t := by
  induction vas with
  | nil => rfl
  | cons va vas ih =>
    have ht : giveBlock k ctx cls t va = t := by unfold giveBlock; rw [h va List.mem_cons_self]
    rw [List.foldl_cons, ht]
    exact ih fun v hv => h v (List.mem_cons_of_mem _ hv)
/-- The lists after several blocks have been given back, the last one first. -/
theorem giveBlocks_lists {k : Nat} {ctx : W32} {cls : W64 → Option Nat} {vas : List W64} {t : State}
    (h : ∀ va ∈ vas, ∀ c, cls va = some c → (flook (t.pkg k).ctxs ctx.toNat).isSome = true) (c : Nat) :
    (vas.foldl (giveBlock k ctx cls) t).heapList k ctx c = (vas.filter (fun va => cls va == some c)).reverse ++ t.heapList k ctx c := by
  induction vas generalizing t with
  | nil => rfl
  | cons va vas ih =>
    rw [List.foldl_cons]
    cases hc : cls va with
    | none =>
      have ht : giveBlock k ctx cls t va = t := by unfold giveBlock; rw [hc]
      rw [ht, ih fun v hv => h v (List.mem_cons_of_mem _ hv), List.filter_cons_of_neg (by rw [hc]; simp)]
    | some c' =>
      have ht : giveBlock k ctx cls t va = t.setHeapList k ctx c' (va :: t.heapList k ctx c') := by unfold giveBlock; rw [hc]
      have hs := h va List.mem_cons_self c' hc
      rw [ht, ih fun v hv x hx => by rw [flook_ctxs_setHeapList, Option.isSome_map]; exact hs, heapList_setHeapList hs]
      by_cases hcc : c = c'
      · subst hcc
        rw [if_pos rfl, List.filter_cons_of_pos (by rw [hc]; simp), List.reverse_cons, List.append_assoc]
        rfl
      · rw [if_neg hcc, List.filter_cons_of_neg (by rw [hc]; simpa using fun h => hcc h.symm)]

section
variable {s : State} {m : Mods} {d a : Reg}

/-- What `hfree` does when nothing is waited for (R202). -/
theorem hfree_eq (hr : s.relWait .pkg = false) : exec (.hfree m a) s = .next (finish
    (((s.activeLanes m).map (fun l => s.src64 s.cur.wid l a)).foldl (giveBlock s.curPkg s.curCtx (givenClass s)) s)
    (((s.activeLanes m).filter (fun l => s.src64 s.cur.wid l a != 0 && (s.heapBlock s.curPkg s.curCtx (s.src64 s.cur.wid l a)).isNone)).map
      (fun l => s.stopRec l .prot 0 (s.src64 s.cur.wid l a)))) := by
  refine Eq.trans (show _ = execHfree m a s from rfl) ?_
  unfold execHfree
  dsimp only
  rw [hr, Bool.and_false, if_neg Bool.false_ne_true, List.filter_map, List.map_map, List.foldl_map, List.foldl_map]
  rfl
theorem givenClass_of_some {va : W64} {c : Nat} (h : givenClass s va = some c) : (flook (s.pkg s.curPkg).ctxs s.curCtx.toNat).isSome = true := by
  unfold givenClass at h
  split at h
  · exact absurd h (by simp)
  · unfold State.heapBlock at h
    cases hx : flook (s.pkg s.curPkg).ctxs s.curCtx.toNat with
    | none => rw [hx] at h; exact absurd h (by simp)
    | some x => rfl
theorem givenClass_eq_some {va : W64} {c : Nat} : (givenClass s va == some c) = (va != 0 && s.heapBlock s.curPkg s.curCtx va == some c) := by
  unfold givenClass
  by_cases h : va = 0
  · simp [h]
  · rw [if_neg h, bne_iff_ne.2 h, Bool.true_and]

theorem hfree_frees (hr : s.relWait .pkg = false)
    (h : ∀ l, On s m l → s.src64 s.cur.wid l a = 0 ∨ (s.heapBlock s.curPkg s.curCtx (s.src64 s.cur.wid l a)).isSome = true) :
    After (.hfree m a) s (fun t => t = { s with waves := t.waves, pkgs := t.pkgs } ∧ GoesOn s t ∧
      ∀ c, t.heapList s.curPkg s.curCtx c = (((s.activeLanes m).filter (fun l => s.src64 s.cur.wid l a != 0 &&
        s.heapBlock s.curPkg s.curCtx (s.src64 s.cur.wid l a) == some c)).map (fun l => s.src64 s.cur.wid l a)).reverse ++ s.heapList s.curPkg s.curCtx c) := by
  have hgood : (s.activeLanes m).filter (fun l => s.src64 s.cur.wid l a != 0 && (s.heapBlock s.curPkg s.curCtx (s.src64 s.cur.wid l a)).isNone) = [] := by
    rw [List.filter_eq_nil_iff]
    intro l hl
    rcases h l (mem_activeLanes.1 hl) with h0 | h1
    · simp [h0]
    · simp [Option.isSome_iff_ne_none.1 h1]
  have hx := hfree_eq (m := m) (a := a) hr
  rw [hgood, List.map_nil] at hx
  obtain ⟨hf, hg⟩ := finish_pkgs (giveBlocks_frame s.curPkg s.curCtx (givenClass s) ((s.activeLanes m).map (fun l => s.src64 s.cur.wid l a)) s)
  refine ⟨_, hx, hf, hg, fun c => ?_⟩
  refine (heapList_of_ctxs (congrArg Pkg.ctxs (pkg_finish _ _)) _ _).trans ?_
  rw [giveBlocks_lists (fun va _ c hc => givenClass_of_some hc), List.filter_map]
  simp only [givenClass_eq_some]
  rfl
theorem hfree_stops (hr : s.relWait .pkg = false) (ha : Alone s) (hon : ∃ l, On s m l)
    (h : ∀ l, On s m l → s.src64 s.cur.wid l a ≠ 0 ∧ s.heapBlock s.curPkg s.curCtx (s.src64 s.cur.wid l a) = none) :
    ∃ (t : State) (who : Nat → Bool), exec (.hfree m a) s = .next t ∧ (∀ l, who l = true ↔ On s m l) ∧
      StopsAs s t who (fun _ => causeWord 0x02 0 0) (fun l => s.src64 s.cur.wid l a) (fun _ => s.cur.gpc) (fun _ => s.cur.gpc) (standsAt s) := by
  have hall : (s.activeLanes m).filter (fun l => s.src64 s.cur.wid l a != 0 && (s.heapBlock s.curPkg s.curCtx (s.src64 s.cur.wid l a)).isNone) = s.activeLanes m := by
    rw [List.filter_eq_self]
    intro l hl
    obtain ⟨h0, h1⟩ := h l (mem_activeLanes.1 hl)
    rw [h1, bne_iff_ne.2 h0]
    rfl
  have hnone : ((s.activeLanes m).map (fun l => s.src64 s.cur.wid l a)).foldl (giveBlock s.curPkg s.curCtx (givenClass s)) s = s := by
    refine (giveBlocks_none fun va hva => ?_)
    obtain ⟨l, hl, rfl⟩ := List.mem_map.1 hva
    obtain ⟨h0, h1⟩ := h l (mem_activeLanes.1 hl)
    exact (if_neg h0).trans h1
  obtain ⟨who, hw, hs⟩ := finish_stopsEach (c := fun _ => .prot) (sub := fun _ => 0) (va := fun l => s.src64 s.cur.wid l a) ha hon (fun l _ => ⟨rfl, by decide⟩)
  exact ⟨_, who, hfree_eq hr, hw, by rw [hall, hnone]; exact hs⟩
end

/-! ### Blocks taken -/

theorem devStore_settles (s : State) (k : Nat) (ctx : W32) (va : W64) (bs : List Byte) : MemorySettles s (s.devStore k ctx va bs) := by
  unfold State.devStore
  split
  · exact storeAt_settles ..
  · exact .refl s
theorem MemorySettles.ctxs {s t : State} (h : MemorySettles s t) (k : Nat) : (t.pkg k).ctxs = (s.pkg k).ctxs := by rw [h.pkg]
theorem MemorySettles.rest {s t : State} (h : MemorySettles s t) : t.waves = s.waves ∧ t.cur = s.cur ∧ t.nextId = s.nextId ∧ t.troupes = s.troupes := by
  refine ⟨?_, ?_, ?_, ?_⟩ <;> rw [h.frame]
/-- The class of a size is the smallest whose blocks hold it (R201). -/
theorem heapClass_eq {n c : Nat} (h6 : 6 ≤ c) (h16 : c ≤ 16) (hn : n ≤ 2 ^ c) (h0 : 0 < n) (hc : c = 6 ∨ 2 ^ (c - 1) < n) : heapClass n = some c := by
  unfold heapClass
  rw [if_neg (by omega), List.find?_range_eq_some]
  refine ⟨by simp [h6, hn], List.mem_range.2 (by omega), fun j hj => ?_⟩
  rcases hc with rfl | hc
  · simp only [Bool.not_eq_true', Bool.and_eq_false_iff, decide_eq_false_iff_not]; omega
  · have := Nat.pow_le_pow_right (n := 2) (by omega) (show j ≤ c - 1 by omega)
    simp only [Bool.not_eq_true', Bool.and_eq_false_iff, decide_eq_false_iff_not]; omega
theorem heapClass_none {n : Nat} (h : n = 0 ∨ 65536 < n) : heapClass n = none := by
  unfold heapClass
  by_cases h0 : n = 0
  · rw [if_pos h0]
  · rw [if_neg h0, List.find?_eq_none]
    intro c hc
    have hc' := List.mem_range.1 hc
    have := Nat.pow_le_pow_right (n := 2) (by omega) (show c ≤ 16 by omega)
    simp only [Bool.and_eq_true, decide_eq_true_eq, not_and]; omega

/-- The state after the block at the head of a list has been taken: its contents are unspecified. -/
def blockTaken (s : State) (k : Nat) (ctx : W32) (c : Nat) (b : W64) (rest : List W64) : State :=
  let s2 := s.setHeapList k ctx c rest
  ({ s2 with fresh := s2.fresh + 1 }).devStore k ctx b ((List.range (2 ^ c)).map (fun i => Config.freeByte s2.fresh i))
theorem heapTake_eq {s : State} {k die : Nat} {ctx : W32} {n c : Nat} {b : W64} {rest : List W64} (hc : heapClass n = some c) (h : s.heapList k ctx c = b :: rest) :
    s.heapTake k die ctx n = (b, blockTaken s k ctx c b rest) := by
  unfold State.heapTake
  dsimp only
  rw [hc]
  dsimp only
  rw [h, List.isEmpty_cons, if_neg Bool.false_ne_true, h]
  rfl
section
variable {s : State} {k : Nat} {ctx : W32} {c : Nat} {b : W64} {rest : List W64}
theorem blockTaken_settles : MemorySettles { s.setHeapList k ctx c rest with fresh := s.fresh + 1 } (blockTaken s k ctx c b rest) := devStore_settles ..
theorem blockTaken_rest : (blockTaken s k ctx c b rest).waves = s.waves ∧ (blockTaken s k ctx c b rest).cur = s.cur ∧
    (blockTaken s k ctx c b rest).nextId = s.nextId ∧ (blockTaken s k ctx c b rest).troupes = s.troupes := by
  obtain ⟨h1, h2, h3, h4⟩ := (blockTaken_settles (s := s) (k := k) (ctx := ctx) (c := c) (b := b) (rest := rest)).rest
  exact ⟨h1, h2, h3, h4⟩
theorem blockTaken_lists (h : s.heapList k ctx c = b :: rest) (j : Nat) : (blockTaken s k ctx c b rest).heapList k ctx j = if j = c then rest else s.heapList k ctx j := by
  refine (heapList_of_ctxs (blockTaken_settles.ctxs k) ctx j).trans (heapList_setHeapList ?_ c rest j)
  unfold State.heapList at h
  cases hx : flook (s.pkg k).ctxs ctx.toNat with
  | none => rw [hx] at h; exact absurd h (by simp)
  | some x => rfl
end

theorem heapLanes_none {k die : Nat} {ctx : W32} {ls : List (Nat × Nat)} {s : State} (h : ∀ e ∈ ls, heapClass e.2 = none) :
    heapLanes k die ctx ls s = (ls.map (fun e => (e.1, 0)), s) := by
  induction ls with
  | nil => rfl
  | cons e ls ih =>
    have ht : s.heapTake k die ctx e.2 = (0, s) := by
      unfold State.heapTake
      rw [h e List.mem_cons_self]
    obtain ⟨l, n⟩ := e
    unfold heapLanes
    rw [ht]
    dsimp only
    rw [ih fun e he => h e (List.mem_cons_of_mem _ he)]
    rfl
/-- What each lane of the path is sent when `halloc` has taken its blocks. -/
def heapGiven (s : State) (m : Mods) (d : Reg) (r : List (Nat × W64)) (u : State) : State :=
  finish (({ u with nextId := u.nextId + 1 }).updLanes s.cur.wid (lanesOf s.cur.lanes) (fun l x =>
    match r.find? (fun (e : Nat × W64) => e.1 == l) with
    | some e => x.send none u.nextId (outs64 d e.2)
    | none => if m.zero then x.send none u.nextId (zeroOuts (dstRegs d 2)) else x)) []
theorem halloc_eq (s : State) (m : Mods) (d a : Reg) : exec (.halloc m d a) s = .next (
    let r := heapLanes s.curPkg (clusterOf s.curTroupe.core) s.curCtx ((s.activeLanes m).map (fun l => (l, (s.src s.cur.wid l a).toNat))) s
    heapGiven s m d r.1 (if r.1.any (fun (e : Nat × W64) => e.2 != 0) then r.2.acquireLines .pkg else r.2)) := rfl

theorem find_map_lane {α : Type} {ls : List Nat} {l : Nat} (h : l ∈ ls) (v : Nat → α) : (ls.map (fun l => (l, v l))).find? (fun e => e.1 == l) = some (l, v l) := by
  induction ls with
  | nil => exact absurd h List.not_mem_nil
  | cons x ls ih =>
    rw [List.map_cons, List.find?_cons]
    by_cases hx : x = l
    · subst hx; simp
    · rw [show (x == l) = false from beq_false_of_ne hx]
      exact ih ((List.mem_cons.1 h).resolve_left fun e => hx e.symm)
theorem curPkg_of_same {s u : State} (hw : u.waves = s.waves) (hc : u.cur = s.cur) (ht : u.troupes = s.troupes) : u.curPkg = s.curPkg ∧ u.curTroupe = s.curTroupe := by
  have h : u.curTroupe = s.curTroupe := by
    unfold State.curTroupe State.curTid State.curWave State.troupe State.wave
    rw [hw, hc, ht]
  exact ⟨by unfold State.curPkg; rw [h], h⟩
theorem heapGiven_lanes {s u : State} {m : Mods} {d : Reg} {r : List (Nat × W64)} {v : Nat → W64} (hu : WaveBecomes s u id (fun _ x => x)) (hc : u.cur = s.cur)
    (hn : u.nextId = s.nextId) (hr : r = (s.activeLanes m).map (fun l => (l, v l))) :
    LanesBecome s (heapGiven s m d r u) (fun l x => goOn s l (sends s m none (regs2 d) (fun l => to64 d (v l)) (fun _ => 0) l x)) := by
  have hp := WaveBecomes.updPath (s := s) (t := { u with nextId := u.nextId + 1 }) (g := id) (f := fun _ x => x) (hu.of_waves rfl) (fun l x =>
    match r.find? (fun (e : Nat × W64) => e.1 == l) with
    | some e => x.send none u.nextId (outs64 d e.2)
    | none => if m.zero then x.send none u.nextId (zeroOuts (dstRegs d 2)) else x)
  refine WaveBecomes.ends (hp.congr (f' := fun l x => sends s m none (regs2 d) (fun l => to64 d (v l)) (fun _ => 0) l x) fun l hl => ?_) rfl hc
  have hfind : r.find? (fun e => e.1 == l) = if m.active (s.lane s.cur.wid l) then some (l, v l) else none := by
    subst hr
    split
    next ha => exact find_map_lane (mem_activeLanes.2 ⟨hl, ha⟩) v
    next ha =>
      rw [List.find?_eq_none]
      intro e he
      obtain ⟨l', hl', rfl⟩ := List.mem_map.1 he
      exact fun h => ha (eq_of_beq h ▸ (mem_activeLanes.1 hl').2)
  have hs := send_eq_sends s m none (regs2 d) (fun l => to64 d (v l)) l (s.lane s.cur.wid l)
  rw [hfind, hn, ← hs, dstRegs_two]
  by_cases ha : m.active (s.lane s.cur.wid l) = true
  · simp only [ha, if_true, outs64_eq]
  · simp only [ha, if_false, Bool.false_eq_true]
theorem heapGiven_frame (s : State) (m : Mods) (d : Reg) (r : List (Nat × W64)) (u : State) :
    heapGiven s m d r u = { u with waves := (heapGiven s m d r u).waves, nextId := u.nextId + 1 } := by
  unfold heapGiven
  rw [finish_nil]
  rfl
theorem halloc_nothing {s : State} {m : Mods} {d a : Reg} (h : ∀ l, On s m l → (s.src s.cur.wid l a).toNat = 0 ∨ 65536 < (s.src s.cur.wid l a).toNat) :
    Computes (.halloc m d a) s m none (regs2 d) (fun _ => to64 d 0) := by
  have hl := heapLanes_none (k := s.curPkg) (die := clusterOf s.curTroupe.core) (ctx := s.curCtx) (s := s)
    (ls := (s.activeLanes m).map (fun l => (l, (s.src s.cur.wid l a).toNat))) (fun e he => by
      obtain ⟨l, hl, rfl⟩ := List.mem_map.1 he
      exact heapClass_none (h l (mem_activeLanes.1 hl)))
  rw [List.map_map] at hl
  have hx := halloc_eq s m d a
  dsimp only at hx
  rw [hl] at hx
  dsimp only at hx
  rw [if_neg (by simp)] at hx
  exact ⟨_, hx, ⟨heapGiven_frame s m d _ s, heapGiven_lanes (waveBecomes_refl s) rfl rfl rfl⟩⟩
theorem halloc_takes {s : State} {m : Mods} {d a : Reg} {e c : Nat} {b : W64} {rest : List W64} (he : ∀ l, On s m l ↔ l = e) (h6 : 6 ≤ c) (h16 : c ≤ 16)
    (hn : (s.src s.cur.wid e a).toNat ≤ 2 ^ c) (h0 : 0 < (s.src s.cur.wid e a).toNat) (hc : c = 6 ∨ 2 ^ (c - 1) < (s.src s.cur.wid e a).toNat)
    (hl : s.heapList s.curPkg s.curCtx c = b :: rest) (hb : b ≠ 0) : After (.halloc m d a) s (fun t =>
      t.heapList s.curPkg s.curCtx c = rest ∧ (∀ c', c' ≠ c → t.heapList s.curPkg s.curCtx c' = s.heapList s.curPkg s.curCtx c') ∧
      (t.core s.curPkg s.curTroupe.core).lines = [] ∧
      LanesBecome s t (fun l x => goOn s l (sends s m none (regs2 d) (fun _ => to64 d b) (fun _ => 0) l x))) := by
  have hact : s.activeLanes m = [e] := activeLanes_single he
  have hx := halloc_eq s m d a
  have hls : heapLanes s.curPkg (clusterOf s.curTroupe.core) s.curCtx [(e, (s.src s.cur.wid e a).toNat)] s = ([(e, b)], blockTaken s s.curPkg s.curCtx c b rest) := by
    simp only [heapLanes, heapTake_eq (heapClass_eq h6 h16 hn h0 hc) hl]
  rw [hact, List.map_cons, List.map_nil, hls] at hx
  dsimp only at hx
  rw [if_pos (by rw [List.any_cons, bne_iff_ne.2 hb, Bool.true_or])] at hx
  obtain ⟨hw, hcur, hid, htr⟩ := blockTaken_rest (s := s) (k := s.curPkg) (ctx := s.curCtx) (c := c) (b := b) (rest := rest)
  have hlists := blockTaken_lists hl
  generalize blockTaken s s.curPkg s.curCtx c b rest = u at hx hw hcur hid htr hlists
  have hk : u.curPkg = s.curPkg ∧ u.curTroupe = s.curTroupe := curPkg_of_same hw hcur htr
  have hacq := acquireLines_frame u .pkg
  have hlines : ((u.acquireLines .pkg).core s.curPkg s.curTroupe.core).lines = [] := by
    rw [State.acquireLines, if_neg (by decide), hk.1, hk.2]
    exact lines_emptyLines ..
  have hctx : ∀ c', (u.acquireLines .pkg).heapList s.curPkg s.curCtx c' = u.heapList s.curPkg s.curCtx c' := by
    intro c'
    refine heapList_of_ctxs ?_ _ _
    rw [State.acquireLines, if_neg (by decide), pkg_emptyLines]
  have hpk : ∀ k, (heapGiven s m d [(e, b)] (u.acquireLines .pkg)).pkg k = (u.acquireLines .pkg).pkg k := fun k => (pkg_finish _ k).trans rfl
  have hlist : ∀ c', (heapGiven s m d [(e, b)] (u.acquireLines .pkg)).heapList s.curPkg s.curCtx c' = if c' = c then rest else s.heapList s.curPkg s.curCtx c' := fun c' =>
    (heapList_of_ctxs (congrArg Pkg.ctxs (hpk _)) _ _).trans ((hctx c').trans (hlists c'))
  refine ⟨_, hx, (hlist c).trans (if_pos rfl), fun c' hc' => (hlist c').trans (if_neg hc'), ?_, ?_⟩
  · unfold State.core at hlines ⊢
    rw [hpk]
    exact hlines
  · refine heapGiven_lanes ((waveBecomes_refl s).of_waves ?_) ?_ ?_ (v := fun _ => b) (by rw [hact]; rfl)
    · rw [acquireLines_waves, hw]
    · rw [acquireLines_cur, hcur]
    · rw [hacq, hid]

theorem heapBlocks : Claims.HeapBlocks := fun _ _ _ _ =>
  ⟨hfree_frees, hfree_stops, halloc_nothing, fun _ _ _ _ he h6 h16 hn h0 hc hl hb => halloc_takes he h6 h16 hn h0 hc hl hb⟩

end Sys2Proof
end

