-- ==== Sys2Proof/Proofs/PageChanges.lean ====
section
/-! SUPPORT. Pages committed and freed, and what asks for their change (R237, R238, R277 to R282). -/

namespace Sys2Proof
open Machine

/-! ### Translations dropped -/

/-- A package holds no cached translation of a range of a context. -/
def PkgLacks (p : Pkg) (ctx : W32) (va n : Nat) : Prop :=
  (∀ c, ∀ e ∈ (p.core c).tlb, ¬ covers ctx va n e) ∧ ∀ c, ∀ e ∈ fget [] p.tlb2 c, ¬ covers ctx va n e
theorem untranslated_iff {t : State} {k : Nat} {ctx : W32} {va n : Nat} : Untranslated t k ctx va n ↔ PkgLacks (t.pkg k) ctx va n := Iff.rfl
theorem not_covers_of_mem_dropTlb {ctx : W32} {lo n : Nat} {l : List TlbEntry} {e : TlbEntry} (h : e ∈ dropTlb ctx lo n l) : ¬ covers ctx lo n e := by
  have h2 := (List.mem_filter.1 h).2
  intro ⟨h3, h4, h5⟩
  simp [h3, h4, h5] at h2
theorem invalidate_lacks (p : Pkg) (ctx : W32) (lo n : Nat) : PkgLacks (p.invalidate ctx lo n) ctx lo n := by
  refine ⟨fun c e he => ?_, fun c e he => ?_⟩
  · unfold Pkg.invalidate Pkg.core at he
    dsimp only at he
    rw [fget_fall] at he
    cases hc : flook p.cores c with
    | none => rw [hc] at he; exact absurd he List.not_mem_nil
    | some x => rw [hc] at he; exact not_covers_of_mem_dropTlb he
  · unfold Pkg.invalidate at he
    dsimp only at he
    rw [fget_fall] at he
    cases hc : flook p.tlb2 c with
    | none => rw [hc] at he; exact absurd he List.not_mem_nil
    | some x => rw [hc] at he; exact not_covers_of_mem_dropTlb he
theorem PkgLacks.of_same {p q : Pkg} {ctx : W32} {va n : Nat} (h : PkgLacks p ctx va n) (hc : ∀ c, (q.core c).tlb = (p.core c).tlb) (ht : q.tlb2 = p.tlb2) : PkgLacks q ctx va n :=
  ⟨fun c => by rw [hc]; exact h.1 c, fun c => by rw [ht]; exact h.2 c⟩

/-! ### Changes that leave the waves as they are -/

/-- The states have the same waves, troupes and selected path, and number on from the same place. -/
structure WavesKept (s t : State) : Prop where
  waves : t.waves = s.waves
  cur : t.cur = s.cur
  troupes : t.troupes = s.troupes
  nextId : t.nextId = s.nextId
theorem WavesKept.refl (s : State) : WavesKept s s := ⟨rfl, rfl, rfl, rfl⟩
theorem WavesKept.trans {s t u : State} (h : WavesKept s t) (h' : WavesKept t u) : WavesKept s u :=
  ⟨h'.waves.trans h.waves, h'.cur.trans h.cur, h'.troupes.trans h.troupes, h'.nextId.trans h.nextId⟩
theorem WavesKept.fold {α : Type} {f : State → α → State} (h : ∀ s x, WavesKept s (f s x)) (l : List α) (s : State) : WavesKept s (l.foldl f s) := by
  induction l generalizing s with
  | nil => exact .refl s
  | cons x l ih => exact (h s x).trans (ih _)
theorem MemorySettles.wavesKept {s t : State} (h : MemorySettles s t) : WavesKept s t := ⟨h.rest.1, h.rest.2.1, h.rest.2.2.2, h.rest.2.2.1⟩
theorem modPkg_wavesKept (s : State) (k : Nat) (f : Pkg → Pkg) : WavesKept s (s.modPkg k f) := ⟨rfl, rfl, rfl, rfl⟩
theorem mem_modPkg (s : State) (k : Nat) (f : Pkg → Pkg) : (s.modPkg k f).mem = s.mem := rfl

/-! ### Commits -/

theorem given_pkg (s : State) (m : Mods) (d : Reg) (v : W32) (k : Nat) : (given s m d v).pkg k = s.pkg k := (pkg_finish ..).trans rfl
theorem given_mem (s : State) (m : Mods) (d : Reg) (v : W32) : (given s m d v).mem = s.mem := (mem_finish ..).trans rfl


theorem zeroRange_memoryOnly (s : State) (a n : Nat) : MemoryOnly s (s.zeroRange a n) := by
  refine ⟨rfl, fun k => ?_⟩
  unfold State.zeroRange
  rw [State.pkg_modPkg]
  split
  · next h => subst h; rfl
  · rfl
theorem setPkg_memoryOnly {s : State} {k : Nat} {p : Pkg} (h : p = { s.pkg k with phys := p.phys }) : MemoryOnly s (s.setPkg k p) := by
  refine ⟨rfl, fun j => ?_⟩
  rw [State.pkg_setPkg]
  split
  · next hj => subst hj; exact h
  · rfl
theorem takeFrame_rest {p q : Pkg} {die n f : Nat} (h : p.takeFrame die n = some (f, q)) : q = { p with phys := q.phys } := by
  unfold Pkg.takeFrame at h
  obtain ⟨st, -, hst⟩ := List.exists_of_findSome?_eq_some h
  dsimp only at hst
  obtain ⟨g, -, hg⟩ := Option.map_eq_some_iff.1 hst
  rw [← (Prod.mk.inj hg).2]
  rfl
theorem turnPool_rest (p : Pkg) (die f : Nat) : p.turnPool die f = { p with phys := (p.turnPool die f).phys } := by
  unfold Pkg.turnPool
  dsimp only
  split <;> rfl
theorem noneAbout_of_nil {s : State} (h : s.writes = []) (a n : Nat) : NoneAbout s a n := by
  intro x hx
  rw [h] at hx
  exact absurd hx List.not_mem_nil

/-- The count of a region's pages stands in its table (R278). -/
theorem setUsed_eq (s : State) (k : Nat) (ctx : W32) (i v : Nat) : s.setUsed k ctx i v = s ∧ flook (s.pkg k).ctxs ctx.toNat = none ∨
    ∃ c, flook (s.pkg k).ctxs ctx.toNat = some c ∧ s.setUsed k ctx i v = s.storeAt (hbmKey k (c.regions.toNat + 32 * i + 20)) (leBytes 4 v) := by
  unfold State.setUsed
  split
  next c hc => exact .inr ⟨c, hc, rfl⟩
  next hc => exact .inl ⟨rfl, hc⟩
/-- A write of 4 bytes apart from 8 others leaves these. -/
theorem read64_storeAt_ne {s : State} {a b v : Nat} (hw : s.writes = []) (h : overlaps a 8 b 4 = false) : (s.storeAt b (leBytes 4 v)).read64 a = s.read64 a := by
  have hk := (storeAt_takes (s := s) (a := b) (n := 4) (v := v) (noneAbout_of_nil hw _ _)).2
  unfold overlaps at h
  simp only [Bool.and_eq_false_iff, decide_eq_false_iff_not] at h
  unfold State.read64
  rw [memGets_congr fun i _ _ => hk i (by omega)]
theorem read64_storeAt {s : State} {a : Nat} {v : W64} (hw : s.writes = []) : (s.storeAt a (leBytes 8 v.toNat)).read64 a = v := by
  have hlt := v.isLt
  unfold State.read64
  rw [(storeAt_takes (noneAbout_of_nil hw _ _)).1, leNat_leBytes, Nat.mod_eq_of_lt (by omega), BitVec.ofNat_toNat, BitVec.setWidth_eq]

section
variable {s : State} {k : Nat} {ctx : W32} {r : Region} {w : Walked} {va : W64}

/-- The tables after a commit has put frame `f` into a leaf and counted it. -/
def leafCommitted (s : State) (k die : Nat) (ctx : W32) (r : Region) (w : Walked) (f : Nat) (p : Pkg) : State :=
  (((s.setPkg k (p.turnPool die f)).zeroRange (frameKey k f) (2 ^ 16)).storeAt (hbmKey k w.pa) (leBytes 8 (mkLeaf w.pte 2 k 0 f).toNat)).setUsed k ctx r.idx (r.used + 1)
theorem commitPage_eq {die f : Nat} {p : Pkg} (h1 : pteState w.pte < 2) (h2 : r.used < r.quota) (hf : (s.pkg k).takeFrame die 1 = some (f, p)) :
    s.commitPage k die ctx r w va = (0, (leafCommitted s k die ctx r w f p).modPkg k (fun p => (p.dropAllLines (frameKey k f) (2 ^ 16)).invalidate ctx va.toNat (2 ^ 16))) := by
  unfold State.commitPage
  rw [if_neg (by omega), if_neg (by omega), hf]
  rfl
theorem leafCommitted_memory {die f : Nat} {p : Pkg} (hf : (s.pkg k).takeFrame die 1 = some (f, p)) (hw : s.writes = [])
    (hov : ∀ c, flook (s.pkg k).ctxs ctx.toNat = some c → overlaps (hbmKey k w.pa) 8 (hbmKey k (c.regions.toNat + 32 * r.idx + 20)) 4 = false) :
    MemoryOnly s (leafCommitted s k die ctx r w f p) ∧ (leafCommitted s k die ctx r w f p).read64 (hbmKey k w.pa) = mkLeaf w.pte 2 k 0 f := by
  have h1 : MemoryOnly s ((s.setPkg k (p.turnPool die f)).zeroRange (frameKey k f) (2 ^ 16)) := by
    refine (setPkg_memoryOnly ?_).trans (zeroRange_memoryOnly ..)
    rw [turnPool_rest, takeFrame_rest hf]
  unfold leafCommitted
  generalize (s.setPkg k (p.turnPool die f)).zeroRange (frameKey k f) (2 ^ 16) = u at h1
  have hu : u.writes = [] := h1.writes.trans hw
  have h2 := h1.trans (storeAt_memoryOnly (s := u) (a := hbmKey k w.pa) (bs := leBytes 8 (mkLeaf w.pte 2 k 0 f).toNat) (noneAbout_of_nil hu _ _))
  have hread := read64_storeAt (a := hbmKey k w.pa) (v := mkLeaf w.pte 2 k 0 f) hu
  generalize u.storeAt (hbmKey k w.pa) (leBytes 8 (mkLeaf w.pte 2 k 0 f).toNat) = v at h2 hread
  have hv : v.writes = [] := h2.writes.trans hw
  have hctx : (v.pkg k).ctxs = (s.pkg k).ctxs := by rw [h2.pkg]
  rcases setUsed_eq v k ctx r.idx (r.used + 1) with ⟨h, -⟩ | ⟨c, hc, h⟩
  · rw [h]
    exact ⟨h2, hread⟩
  · rw [h]
    exact ⟨h2.trans (storeAt_memoryOnly (noneAbout_of_nil hv _ _)), (read64_storeAt_ne hv (hov c (hctx ▸ hc))).trans hread⟩
end

section
variable {s : State} {m : Mods} {d a : Reg} {e : Nat} (he : Elected s m e) {r : Region} {w : Walked}
  (hal : (s.src64 s.cur.wid e a).toNat % 2 ^ 16 = 0) (hsp : s.sparsePage s.curPkg s.curCtx (s.src64 s.cur.wid e a) = some (r, w))
include he hal hsp
theorem vmCommit_eq : exec (.vmCommit m d a) s = .next (
    let c := s.commitPage s.curPkg (clusterOf s.curTroupe.core) s.curCtx r w (s.src64 s.cur.wid e a)
    given (if c.1 = 0 then c.2.acquireLines .pkg else c.2) m d (BitVec.ofNat 32 c.1)) := by
  refine Eq.trans (show _ = execVmCommit m d a s from rfl) ?_
  unfold execVmCommit
  rw [elected_eq he]
  dsimp only
  rw [if_neg (not_not.2 hal), hsp]
  rfl
theorem vmCommit_already (h : 2 ≤ pteState w.pte) : Computes (.vmCommit m d a) s m none (regs1 d) (fun _ => to32 d (BitVec.ofNat 32 1)) := by
  have hc : s.commitPage s.curPkg (clusterOf s.curTroupe.core) s.curCtx r w (s.src64 s.cur.wid e a) = (1, s) := by
    unfold State.commitPage
    rw [if_pos h]
  have hx := vmCommit_eq (d := d) he hal hsp
  rw [hc] at hx
  exact ⟨_, hx, given_writes s m d _⟩
theorem vmCommit_quota (h : pteState w.pte < 2) (hq : r.quota ≤ r.used) : Computes (.vmCommit m d a) s m none (regs1 d) (fun _ => to32 d (BitVec.ofNat 32 2)) := by
  have hc : s.commitPage s.curPkg (clusterOf s.curTroupe.core) s.curCtx r w (s.src64 s.cur.wid e a) = (2, s) := by
    unfold State.commitPage
    rw [if_neg (by omega), if_pos hq]
  have hx := vmCommit_eq (d := d) he hal hsp
  rw [hc] at hx
  exact ⟨_, hx, given_writes s m d _⟩
theorem vmCommit_commits {f : Nat} {p : Pkg} (h1 : pteState w.pte < 2) (h2 : r.used < r.quota)
    (hf : (s.pkg s.curPkg).takeFrame (clusterOf s.curTroupe.core) 1 = some (f, p)) (hw : s.writes = [])
    (hov : ∀ c, flook (s.pkg s.curPkg).ctxs s.curCtx.toNat = some c →
      overlaps (hbmKey s.curPkg w.pa) 8 (hbmKey s.curPkg (c.regions.toNat + 32 * r.idx + 20)) 4 = false) :
    After (.vmCommit m d a) s (fun t => t.read64 (hbmKey s.curPkg w.pa) = mkLeaf w.pte 2 s.curPkg 0 f ∧
      Untranslated t s.curPkg s.curCtx (s.src64 s.cur.wid e a).toNat (2 ^ 16) ∧
      LanesBecome s t (fun l x => goOn s l (sends s m none (regs1 d) (fun _ => to32 d 0) (fun _ => 0) l x))) := by
  have hx := vmCommit_eq (d := d) he hal hsp
  rw [commitPage_eq h1 h2 hf] at hx
  obtain ⟨hm, hread⟩ := leafCommitted_memory hf hw hov
  generalize leafCommitted s s.curPkg (clusterOf s.curTroupe.core) s.curCtx r w f p = u at hx hm hread
  dsimp only at hx
  rw [if_pos rfl] at hx
  have hdrop := fun p : Pkg => invalidate_lacks (p.dropAllLines (frameKey s.curPkg f) (2 ^ 16)) s.curCtx (s.src64 s.cur.wid e a).toNat (2 ^ 16)
  obtain ⟨v, hv⟩ : ∃ v, u.modPkg s.curPkg (fun p => (p.dropAllLines (frameKey s.curPkg f) (2 ^ 16)).invalidate s.curCtx (s.src64 s.cur.wid e a).toNat (2 ^ 16)) = v := ⟨_, rfl⟩
  rw [hv] at hx
  have hlack : PkgLacks (v.pkg s.curPkg) s.curCtx (s.src64 s.cur.wid e a).toNat (2 ^ 16) := by
    rw [← hv, State.pkg_modPkg_self]
    exact hdrop _
  have hvm : v.mem = u.mem := hv ▸ mem_modPkg ..
  obtain ⟨hvw, hvc, -, hvn⟩ := hm.settles.wavesKept.trans (hv ▸ modPkg_wavesKept ..)
  have hacq := acquireLines_frame v .pkg
  refine ⟨_, hx, ?_, ?_, given_lanes ((waveBecomes_refl s).of_waves ((acquireLines_waves ..).trans hvw)) ((acquireLines_cur ..).trans hvc) ?_ m d _⟩
  · unfold State.read64 at hread ⊢
    rw [given_mem, hacq, hvm]
    exact hread
  · refine PkgLacks.of_same hlack (fun c => ?_) ?_
    · have := congrArg Core.tlb (core_emptyLines v v.curPkg v.curTroupe.core s.curPkg c)
      exact (congrArg (fun p : Pkg => (p.core c).tlb) (given_pkg ..)).trans this
    · have := congrArg Pkg.tlb2 (pkg_emptyLines v v.curPkg v.curTroupe.core s.curPkg)
      exact (congrArg Pkg.tlb2 (given_pkg ..)).trans this
  · rw [hacq, hvn]
end

/-! ### Changes begun -/

theorem setLeaf_settles (s : State) (k : Nat) (ctx : W32) (va v : W64) : MemorySettles s (s.setLeaf k ctx va v) := by
  unfold State.setLeaf
  split
  · exact storeAt_settles ..
  · exact .refl s
theorem setUsed_settles (s : State) (k : Nat) (ctx : W32) (i v : Nat) : MemorySettles s (s.setUsed k ctx i v) := by
  unfold State.setUsed
  split
  · exact storeAt_settles ..
  · exact .refl s

/-- What a change whose status the active lanes are owed does as it begins. -/
theorem beginChange_does {s u : State} (hw : u.waves = s.waves) (hc : u.cur = s.cur) (ht : u.troupes = s.troupes) (m : Mods) (d : Reg) (c : VmChange) :
    LanesBecome s (finish (u.beginChange m d c) []) (fun l x => goOn s l (owes m false u.nextId (regs1 d) x)) ∧
    (finish (u.beginChange m d c) []).pkg s.curPkg = { u.pkg s.curPkg with vmch := (u.pkg s.curPkg).vmch ++
      [{ c with id := u.nextId, wid := some s.cur.wid, lanes := maskOf (s.activeLanes m), d := some d, tag := u.nextId }] } := by
  have hk := (curPkg_of_same hw hc ht).1
  have hact : u.activeLanes m = s.activeLanes m := by
    unfold State.activeLanes State.lane State.wave
    rw [hc, hw]
  have hb := ((waveBecomes_refl s).of_waves hw).oweAll hc m false d 1
  rw [dstRegs_one] at hb
  refine ⟨hb.ends rfl hc, ?_⟩
  rw [pkg_finish]
  unfold State.beginChange
  dsimp only
  rw [hk, State.pkg_modPkg_self, hact, ← hc]
  rfl

end Sys2Proof
end

