-- ==== Sys2Proof/Proofs/PageAsks.lean ====
section
/-! SUPPORT. What `vm.free`, the privileged changes of pages and `tlb.inv` do as they issue (R237, R238, R277). -/

namespace Sys2Proof
open Machine

/-! ### Invalidation over the pod -/

theorem mem_tlb_invalidate {p : Pkg} {ctx : W32} {lo n c : Nat} {x : TlbEntry} (h : x ∈ ((p.invalidate ctx lo n).core c).tlb) :
    x ∈ (p.core c).tlb ∧ ¬ covers ctx lo n x := by
  unfold Pkg.core at h ⊢
  unfold Pkg.invalidate at h
  dsimp only at h
  rw [fget_fall] at h
  rw [fget_eq_flook]
  cases hc : flook p.cores c with
  | none => rw [hc] at h; exact absurd h List.not_mem_nil
  | some y => rw [hc] at h; exact ⟨(List.mem_filter.1 h).1, not_covers_of_mem_dropTlb h⟩
theorem foldl_modPeer_rest (l : List Nat) (f : Peer → Peer) (p : Pkg) :
    l.foldl (fun p q => p.modPeer q f) p = { p with fab := (l.foldl (fun p q => p.modPeer q f) p).fab } := by
  induction l generalizing p with
  | nil => rfl
  | cons q l ih => rw [List.foldl_cons]; exact (ih _).trans rfl
/-- Within its package, an invalidation of the pod drops what the package's own would. -/
theorem pkg_invalidatePod (s : State) (k : Nat) (ctx : W32) (va : W64) (n : Nat) :
    (s.invalidatePod k ctx va n).pkg k = { (s.pkg k).invalidate ctx va.toNat n with fab := ((s.invalidatePod k ctx va n).pkg k).fab } := by
  unfold State.invalidatePod
  rw [State.pkg_modPkg_self]
  exact foldl_modPeer_rest ..
theorem invalidatePod_lacks (s : State) (k : Nat) (ctx : W32) (va : W64) (n : Nat) : PkgLacks ((s.invalidatePod k ctx va n).pkg k) ctx va.toNat n := by
  rw [pkg_invalidatePod]
  exact (invalidate_lacks ..).of_same (fun _ => rfl) rfl
theorem mem_tlb_invalidatePod {s : State} {k : Nat} {ctx : W32} {va : W64} {n c : Nat} {x : TlbEntry} (h : x ∈ ((s.invalidatePod k ctx va n).core k c).tlb) :
    x ∈ (s.core k c).tlb ∧ ¬ covers ctx va.toNat n x := by
  unfold State.core at h
  rw [pkg_invalidatePod] at h
  exact mem_tlb_invalidate h
theorem invalidatePod_wavesKept (s : State) (k : Nat) (ctx : W32) (va : W64) (n : Nat) : WavesKept s (s.invalidatePod k ctx va n) := modPkg_wavesKept ..

/-! ### Freeing a page -/



/-! ### What a privileged change of a page answers -/

/-- The state after a privileged change of a page has asked for something. -/
def askAnswer (i : Instr) (s : State) (m : Mods) (d : Reg) : VmAsk → State
  | .param => refuse s m .param
  | .wait => waitAt s i
  | .now v => given s m d (BitVec.ofNat 32 v)
  | .begin_ u c => finish (u.beginChange m d c) []
/-- What R238 says of each thing that can be asked. -/
def Asks (i : Instr) (s : State) (m : Mods) (d : Reg) : VmAsk → Prop
  | .param => s.cur.grouped = false → s.cur.defer = false →
      After i s (fun t => ContextStops s t s.curPkg s.curCtx ∧ StopRecorded s t s.curPkg s.curCtx 0x10 0x11)
  | .wait => After i s (Waits i s)
  | .now n => Computes i s m none (regs1 d) (fun _ => to32 d (BitVec.ofNat 32 n))
  | .begin_ u c => u.waves = s.waves → u.cur = s.cur → u.troupes = s.troupes → After i s (fun t =>
      LanesBecome s t (fun l x => goOn s l (owes m false u.nextId (regs1 d) x)) ∧ (t.pkg s.curPkg).vmch = (u.pkg s.curPkg).vmch ++
        [{ c with id := u.nextId, wid := some s.cur.wid, lanes := maskOf (s.activeLanes m), d := some d, tag := u.nextId }])

/-! ### The instructions -/

/-- What `vm.free` leaves of a page: its own leaf uncommitted, leaves that forward to it elsewhere, one page less in its region. -/
def leavesFreed (s : State) (k : Nat) (ctx : W32) (r : Region) (w : Walked) (va : W64) : State :=
  (((s.ctxPkgs ctx).filter (fun q => q != k)).foldl (fun s q =>
    match s.rawLeaf q ctx va with
    | some x => s.setLeaf q ctx va (fwdLeaf x.pte k)
    | none => s) (s.storeAt (hbmKey k w.pa) (leBytes 8 (mkLeaf w.pte 1 k 0 0).toNat))).setUsed k ctx r.idx (r.used - 1)
theorem leavesFreed_wavesKept (s : State) (k : Nat) (ctx : W32) (r : Region) (w : Walked) (va : W64) : WavesKept s (leavesFreed s k ctx r w va) := by
  unfold leavesFreed
  refine WavesKept.trans (storeAt_settles s (hbmKey k w.pa) (leBytes 8 (mkLeaf w.pte 1 k 0 0).toNat)).wavesKept (WavesKept.trans ?_ (setUsed_settles ..).wavesKept)
  refine WavesKept.fold (fun s q => ?_) _ _
  split
  · exact (setLeaf_settles ..).wavesKept
  · exact .refl s
/-- The change that `vm.free` begins. -/
def freeChange (s : State) (ctx : W32) (w : Walked) (va : W64) : VmChange :=
  { VmChange.blank ctx va (2 ^ 16) with
    watch := watchOf (s.copiesOf ctx va), pod := [(va, 2 ^ 16)], old := s.leavesOf ctx va, frees := s.copiesOf ctx va,
    dset := if pteState w.pte = 3 then some (pteDset w.pte) else none }

/-- The state in which a path waits for what it has asked `tlb.inv` to drain. -/
def invBegun (s : State) (m : Mods) (a : Reg) (va : W64) (n : Nat) (sc : Scope) : State :=
  let s1 := s.tlbDrop s.curPkg s.curTroupe.core s.curCtx va n sc
  let c := { tlbChange s s.curPkg s.curCtx va n sc with id := s1.nextId, wid := some s.cur.wid, lanes := s.cur.lanes }
  waitAt ({ s1 with nextId := s1.nextId + 1 }.modPkg s.curPkg (fun p => { p with vmch := p.vmch ++ [c] })) (.tlbInv m a)

section
variable {s : State} {m : Mods} {d a : Reg} {e : Nat} (he : Elected s m e)
include he
section
variable {r : Region} {w : Walked} (hal : (s.src64 s.cur.wid e a).toNat % 2 ^ 16 = 0)
  (hsp : s.sparsePage s.curPkg s.curCtx (s.src64 s.cur.wid e a) = some (r, w)) (hr : s.relWait .pkg = false)
  (hch : s.changing s.curCtx (s.src64 s.cur.wid e a) (2 ^ 16) = false)
include hal hsp hr hch
theorem vmFree_eq : exec (.vmFree m d a) s = .next (if pteState w.pte < 2 then given s m d 1 else
    finish (((leavesFreed s s.curPkg s.curCtx r w (s.src64 s.cur.wid e a)).invalidatePod s.curPkg s.curCtx (s.src64 s.cur.wid e a) (2 ^ 16)).beginChange m d
      (freeChange s s.curCtx w (s.src64 s.cur.wid e a))) []) := by
  refine Eq.trans (show _ = execVmFree m d a s from rfl) ?_
  unfold execVmFree
  rw [elected_eq he]
  dsimp only
  rw [if_neg (not_not.2 hal), hsp]
  dsimp only
  rw [hr, hch, if_neg (by decide)]
  split <;> rfl
theorem vmFree_already (h : pteState w.pte < 2) : Computes (.vmFree m d a) s m none (regs1 d) (fun _ => to32 d (BitVec.ofNat 32 1)) :=
  ⟨_, (vmFree_eq he hal hsp hr hch).trans (by rw [if_pos h]; rfl), given_writes s m d _⟩
theorem vmFree_frees (h : 2 ≤ pteState w.pte) : After (.vmFree m d a) s (fun t =>
    Untranslated t s.curPkg s.curCtx (s.src64 s.cur.wid e a).toNat (2 ^ 16) ∧
    (∃ c ∈ (t.pkg s.curPkg).vmch, c.ctx = s.curCtx ∧ c.va = s.src64 s.cur.wid e a ∧ c.wid = some s.cur.wid ∧ c.d = some d ∧ c.status = 0 ∧
      c.frees = s.copiesOf s.curCtx (s.src64 s.cur.wid e a) ∧ c.old = s.leavesOf s.curCtx (s.src64 s.cur.wid e a) ∧ c.tag = s.nextId) ∧
    LanesBecome s t (fun l x => goOn s l (owes m false s.nextId (regs1 d) x))) := by
  have hx := vmFree_eq (d := d) he hal hsp hr hch
  rw [if_neg (by omega)] at hx
  have hlack := invalidatePod_lacks (leavesFreed s s.curPkg s.curCtx r w (s.src64 s.cur.wid e a)) s.curPkg s.curCtx (s.src64 s.cur.wid e a) (2 ^ 16)
  obtain ⟨hw, hc, ht, hn⟩ := (leavesFreed_wavesKept s s.curPkg s.curCtx r w (s.src64 s.cur.wid e a)).trans
    (invalidatePod_wavesKept _ s.curPkg s.curCtx (s.src64 s.cur.wid e a) (2 ^ 16))
  generalize (leavesFreed s s.curPkg s.curCtx r w (s.src64 s.cur.wid e a)).invalidatePod s.curPkg s.curCtx (s.src64 s.cur.wid e a) (2 ^ 16) = u at hx hlack hw hc ht hn
  obtain ⟨hlanes, hpkg⟩ := beginChange_does hw hc ht m d (freeChange s s.curCtx w (s.src64 s.cur.wid e a))
  rw [hn] at hlanes hpkg
  refine ⟨_, hx, hlack.of_same (fun c => by rw [hpkg]; rfl) (by rw [hpkg]), ⟨{ freeChange s s.curCtx w (s.src64 s.cur.wid e a) with
    id := s.nextId, wid := some s.cur.wid, lanes := maskOf (s.activeLanes m), d := some d, tag := s.nextId }, ?_, rfl, rfl, rfl, rfl, rfl, rfl, rfl, rfl⟩, hlanes⟩
  rw [hpkg]
  exact List.mem_append_right _ (List.mem_singleton.2 rfl)
end


section
variable {i : Instr} {ask : Nat → VmAsk} (hx : exec i s = .next (vmInstr i s m d ask))
include hx
theorem vmInstr_user (ha : Alone s) : After i s (fun t => StopsActive s t m 0x11 0 0) := by
  refine ⟨_, hx.trans ?_, finish_stops (c := .priv) (sub := 0) (va := 0) ha ⟨e, he.1⟩ rfl (by decide)⟩
  unfold vmInstr
  rw [elected_eq he]
  dsimp only
  rw [show s.curWave.sys = false from ha.1]
  rfl
variable (hp : Privileged s)
include hp
theorem vmInstr_asks : Asks i s m d (ask e) := by
  have hn : exec i s = .next (askAnswer i s m d (ask e)) := by
    refine hx.trans (congrArg _ ?_)
    unfold vmInstr
    rw [elected_eq he]
    dsimp only
    rw [show s.curWave.sys = true from hp]
    cases ask e <;> rfl
  cases hq : ask e <;> rw [hq] at hn
  case param => exact fun hg hd => ⟨_, hn, refuse_stopsContext hp hg hd ⟨e, he.1⟩⟩
  case wait => exact ⟨_, hn, waitAt_waits s i⟩
  case now n => exact ⟨_, hn, given_writes s m d _⟩
  case begin_ u c =>
    intro hw hc ht
    obtain ⟨hlanes, hpkg⟩ := beginChange_does hw hc ht m d c
    exact ⟨_, hn, hlanes, congrArg Pkg.vmch hpkg⟩
end

/-! ### `tlb.inv` -/

theorem tlbInv_eq : exec (.tlbInv m a) s = .next (
    if s.curWave.sys = false then refuseWith s m .priv 0 0
    else if bf (s.block e a 4) 3 31 2 ≠ 0 then refuse s m .param
    else if s.cur.past then finish s []
    else if (s.pkg s.curPkg).vmch.any (fun c => c.wid == some s.cur.wid && c.d.isNone && c.lanes &&& s.cur.lanes != 0) then waitAt s (.tlbInv m a)
    else invBegun s m a (bd (s.block e a 4) 0 &&& ~~~ 0xFFFF#64) (bw (s.block e a 4) 2).toNat (scopeOf (bf (s.block e a 4) 3 1 0))) := by
  refine Eq.trans (show _ = execTlbInv m a s from rfl) ?_
  unfold execTlbInv
  rw [elected_eq he]
  dsimp only
  cases s.curWave.sys
  · rfl
  · rw [if_neg (show ¬(!true) = true by decide), if_neg (show ¬true = false by decide)]
    split_ifs <;> rfl
theorem tlbInv_user (ha : Alone s) : After (.tlbInv m a) s (fun t => StopsActive s t m 0x11 0 0) := by
  refine ⟨_, (tlbInv_eq he).trans ?_, finish_stops (c := .priv) (sub := 0) (va := 0) ha ⟨e, he.1⟩ rfl (by decide)⟩
  rw [show s.curWave.sys = false from ha.1]
  rfl
section
variable (hp : Privileged s) (hb : bf (s.block e a 4) 3 31 2 = 0)
include hp hb
theorem tlbInv_done (hpast : s.cur.past = true) : After (.tlbInv m a) s (fun t => t = { s with waves := t.waves } ∧ GoesOn s t) := by
  refine ⟨_, (tlbInv_eq he).trans ?_, finish_frame_waves rfl, finish_goesOn s⟩
  rw [show s.curWave.sys = true from hp, hb, hpast]
  rfl
theorem tlbInv_begins (hpast : s.cur.past = false) (hno : ∀ c ∈ (s.pkg s.curPkg).vmch, c.wid = some s.cur.wid → c.d = none → c.lanes &&& s.cur.lanes = 0) :
    exec (.tlbInv m a) s = .next (invBegun s m a (bd (s.block e a 4) 0 &&& ~~~ 0xFFFF#64) (bw (s.block e a 4) 2).toNat (scopeOf (bf (s.block e a 4) 3 1 0))) := by
  have hany : (s.pkg s.curPkg).vmch.any (fun c => c.wid == some s.cur.wid && c.d.isNone && c.lanes &&& s.cur.lanes != 0) = false := by
    rw [List.any_eq_false]
    intro c hc h
    simp only [Bool.and_eq_true, beq_iff_eq, Option.isNone_iff_eq_none, bne_iff_ne] at h
    exact h.2 (hno c hc h.1.1 h.1.2)
  rw [tlbInv_eq he, show s.curWave.sys = true from hp, hb, hpast, hany]
  rfl
end
end

/-! #### The translations that it drops -/

theorem mem_tlb_foldPod {k : Nat} {ctx : W32} {vas : List W64} {s : State} {c : Nat} {x : TlbEntry}
    (h : x ∈ ((vas.foldl (fun s va => s.invalidatePod k ctx va (2 ^ 16)) s).core k c).tlb) :
    x ∈ (s.core k c).tlb ∧ ∀ va ∈ vas, ¬ covers ctx va.toNat (2 ^ 16) x := by
  induction vas generalizing s with
  | nil => exact ⟨h, fun _ hv => absurd hv List.not_mem_nil⟩
  | cons va vas ih =>
    obtain ⟨h1, h2⟩ := ih h
    obtain ⟨h3, h4⟩ := mem_tlb_invalidatePod h1
    refine ⟨h3, fun v hv => ?_⟩
    rcases List.mem_cons.1 hv with rfl | hv
    · exact h4
    · exact h2 v hv
/-- A translation that meets a range of whole pages meets one of its pages. -/
theorem covers_page {ctx : W32} {va n : Nat} {x : TlbEntry} (hx : 0 < x.size) (hn : 0 < n) (h : covers ctx va (n * 2 ^ 16) x) :
    ∃ i, i < n ∧ covers ctx (va + i * 2 ^ 16) (2 ^ 16) x := by
  obtain ⟨hc, h1, h2⟩ := h
  by_cases hb : x.base.toNat ≤ va
  · exact ⟨0, hn, hc, by omega, by omega⟩
  · exact ⟨(x.base.toNat - va) / 2 ^ 16, by omega, hc, by omega, by omega⟩
theorem tlbDrop_drops {s : State} {k core : Nat} {ctx : W32} {va : W64} {n : Nat} {sc : Scope} {x : TlbEntry} (h : x ∈ ((s.tlbDrop k core ctx va n sc).core k core).tlb)
    (hx : 0 < x.size) (hn : 0 < n) (hva : va.toNat + n * 2 ^ 16 ≤ 2 ^ 64) : ¬ covers ctx va.toNat (n * 2 ^ 16) x := by
  cases sc <;> unfold State.tlbDrop at h <;> dsimp only at h
  case core =>
    rw [State.core_modCore, if_pos ⟨rfl, rfl⟩] at h
    exact not_covers_of_mem_dropTlb h
  case clu =>
    unfold State.core Pkg.core at h
    rw [State.pkg_modPkg_self] at h
    dsimp only at h
    rw [fget_fall] at h
    cases hc : flook (s.pkg k).cores core with
    | none => rw [hc] at h; exact absurd h List.not_mem_nil
    | some y =>
      rw [hc, Option.map_some, if_pos rfl] at h
      exact not_covers_of_mem_dropTlb h
  case pkg =>
    unfold State.core at h
    rw [State.pkg_modPkg_self] at h
    exact (mem_tlb_invalidate h).2
  case pod =>
    have h' : x ∈ ((((List.range n).map (fun i => va + BitVec.ofNat 64 (i * 2 ^ 16))).foldl (fun (s : State) va => s.invalidatePod k ctx va (2 ^ 16)) s).core k core).tlb := by
      rw [List.foldl_map]
      exact h
    intro hcov
    obtain ⟨i, hi, hci⟩ := covers_page hx hn hcov
    have hv : (va + BitVec.ofNat 64 (i * 2 ^ 16)).toNat = va.toNat + i * 2 ^ 16 := by
      rw [BitVec.toNat_add, BitVec.toNat_ofNat]
      omega
    refine (mem_tlb_foldPod h').2 _ (List.mem_map.2 ⟨i, List.mem_range.2 hi, rfl⟩) ?_
    rw [hv]
    exact hci
theorem tlbDrop_rest (s : State) (k core : Nat) (ctx : W32) (va : W64) (n : Nat) (sc : Scope) :
    WavesKept s (s.tlbDrop k core ctx va n sc) ∧ (s.tlbDrop k core ctx va n sc).mem = s.mem := by
  cases sc <;> unfold State.tlbDrop <;> dsimp only
  case core => exact ⟨modPkg_wavesKept .., mem_modPkg ..⟩
  case clu => exact ⟨modPkg_wavesKept .., mem_modPkg ..⟩
  case pkg => exact ⟨modPkg_wavesKept .., mem_modPkg ..⟩
  case pod =>
    refine ⟨WavesKept.fold (fun s i => invalidatePod_wavesKept ..) _ _, ?_⟩
    induction List.range n generalizing s with
    | nil => rfl
    | cons i l ih => rw [List.foldl_cons, ih]; exact mem_modPkg ..
theorem PathWaits.of_waves {i : Instr} {s u t : State} (h : PathWaits i u t) (hw : u.waves = s.waves) (hc : u.cur = s.cur) : PathWaits i s t := by
  have hwave : ∀ w, u.wave w = s.wave w := fun w => by unfold State.wave; rw [hw]
  have hlane : ∀ w l, u.lane w l = s.lane w l := fun w l => by unfold State.lane; rw [hwave]
  unfold PathWaits at h ⊢
  obtain ⟨h1, h2, h3⟩ := h
  rw [hc] at h1 h2 h3
  simp only [hwave, hlane] at h1 h2 h3
  exact ⟨h1, h2, h3⟩
/-- The path waits, its core's translations of the range dropped. -/
theorem invBegun_does (s : State) (m : Mods) (a : Reg) (va : W64) (n : Nat) (sc : Scope) : PathWaits (.tlbInv m a) s (invBegun s m a va n sc) ∧
    (invBegun s m a va n sc).mem = s.mem ∧
    (invBegun s m a va n sc).core s.curPkg s.curTroupe.core = (s.tlbDrop s.curPkg s.curTroupe.core s.curCtx va n sc).core s.curPkg s.curTroupe.core := by
  obtain ⟨hk, hm⟩ := tlbDrop_rest s s.curPkg s.curTroupe.core s.curCtx va n sc
  unfold invBegun
  generalize s.tlbDrop s.curPkg s.curTroupe.core s.curCtx va n sc = u at hk hm
  refine ⟨(waitAt_waits _ (.tlbInv m a)).2.of_waves hk.waves hk.cur, hm, ?_⟩
  have hp := State.pkg_modPkg_self { u with nextId := u.nextId + 1 } s.curPkg (fun p => { p with vmch := p.vmch ++
    [{ tlbChange s s.curPkg s.curCtx va n sc with id := u.nextId, wid := some s.cur.wid, lanes := s.cur.lanes }] })
  exact (congrArg (fun p : Pkg => p.core s.curTroupe.core) hp).trans rfl

/-! ### The privileged instructions -/

theorem toNat_pageOf (x : W64) : (x &&& ~~~ 0xFFFF#64).toNat = x.toNat / 2 ^ 16 * 2 ^ 16 := by
  have h : x &&& ~~~ 0xFFFF#64 = (x >>> 16) <<< 16 := by
    ext i hi
    have hm : (0xFFFF#64).getLsbD i = decide (i < 16) := by
      rw [show (0xFFFF#64 : W64) = BitVec.ofNat 64 (2 ^ 16 - 1) from rfl, BitVec.getLsbD_ofNat, Nat.testBit_two_pow_sub_one]
      simp [hi]
    rw [← BitVec.getLsbD_eq_getElem, ← BitVec.getLsbD_eq_getElem, BitVec.getLsbD_and, BitVec.getLsbD_not, hm, BitVec.getLsbD_shiftLeft, BitVec.getLsbD_ushiftRight]
    by_cases h16 : i < 16
    · simp [h16]
    · rw [show 16 + (i - 16) = i by omega]
      simp [h16, hi]
  have := x.isLt
  rw [h, BitVec.toNat_shiftLeft, BitVec.toNat_ushiftRight, Nat.shiftRight_eq_div_pow, Nat.shiftLeft_eq]
  omega
theorem getElem!_eq_bw (b : List W32) (i : Nat) : b[i]! = bw b i := by
  unfold bw
  rw [List.getElem!_eq_getElem?_getD]
  rfl
theorem bf_top (b : List W32) (i lo : Nat) (h : lo < 32) : bf b i 31 lo = (bw b i).toNat / 2 ^ lo := by
  have := (bw b i).isLt
  unfold bf
  rw [nbits_div]
  refine Nat.mod_eq_of_lt ((Nat.div_lt_iff_lt_mul (by positivity)).2 ?_)
  rw [← pow_add, show 31 + 1 - lo + lo = 32 by omega]
  exact this
theorem vmInstr_each {s : State} {m : Mods} {d a : Reg} {e : Nat} (he : Elected s m e) (hp : Privileged s) :
    let k := s.curPkg
    let b := s.block e a
    Asks (.vmProt m d a) s m d (if (b 4)[3]!.toNat / 8 ≠ 0 then .param
      else vmProt s k s.curCtx ((b 4)[1]! ++ (b 4)[0]!) (b 4)[2]!.toNat ((b 4)[3]!.toNat % 8)) ∧
    Asks (.vmDup m d a) s m d (vmDup s k (clusterOf s.curTroupe.core) s.curCtx ((b 6)[1]! ++ (b 6)[0]!)
      (((b 6)[5]! ++ (b 6)[4]!) ++ ((b 6)[3]! ++ (b 6)[2]!))) ∧
    Asks (.vmSplit m d a) s m d (vmSplit s k s.curCtx (s.src64 s.cur.wid e a)) := by
  dsimp only
  simp only [getElem!_eq_bw]
  refine ⟨?_, ?_, ?_⟩
  · have h := vmInstr_asks he (i := .vmProt m d a) rfl hp
    dsimp only at h
    rw [bf_top _ 3 3 (by omega)] at h
    exact h
  · exact vmInstr_asks he (i := .vmDup m d a) rfl hp
  · exact vmInstr_asks he (i := .vmSplit m d a) rfl hp
theorem tlbInv_each {s : State} {m : Mods} {a : Reg} {e : Nat} (he : Elected s m e) (hp : Privileged s) :
    let b := s.block e a
    (b 4)[3]!.toNat < 4 →
    (s.cur.past = true → After (.tlbInv m a) s (fun t => t = { s with waves := t.waves } ∧ GoesOn s t)) ∧
    (s.cur.past = false → (∀ c ∈ (s.pkg s.curPkg).vmch, c.wid = some s.cur.wid → c.d = none → c.lanes &&& s.cur.lanes = 0) →
      let va := (((b 4)[1]! ++ (b 4)[0]!) : W64).toNat / 2 ^ 16 * 2 ^ 16
      After (.tlbInv m a) s (fun t => PathWaits (.tlbInv m a) s t ∧ t.mem = s.mem ∧
        ∀ x ∈ (t.core s.curPkg s.curTroupe.core).tlb, 0 < x.size → 0 < (b 4)[2]!.toNat → va + (b 4)[2]!.toNat * 2 ^ 16 ≤ 2 ^ 64 →
          ¬ covers s.curCtx va ((b 4)[2]!.toNat * 2 ^ 16) x)) := by
  dsimp only
  simp only [getElem!_eq_bw]
  intro h4
  have hb : bf (s.block e a 4) 3 31 2 = 0 := by
    rw [bf_top _ 3 2 (by omega)]
    omega
  refine ⟨tlbInv_done he hp hb, fun hpast hno => ?_⟩
  obtain ⟨hwait, hmem, hcore⟩ := invBegun_does s m a (bd (s.block e a 4) 0 &&& ~~~ 0xFFFF#64) (bw (s.block e a 4) 2).toNat (scopeOf (bf (s.block e a 4) 3 1 0))
  refine ⟨_, tlbInv_begins he hp hb hpast hno, hwait, hmem, fun x hx hs hn hva => ?_⟩
  rw [hcore] at hx
  have hd := tlbDrop_drops hx hs hn
  rw [toNat_pageOf] at hd
  exact hd hva

end Sys2Proof
end

