-- ==== Sys2Proof/Proofs/ChangesAndWalks.lean ====
section
/-! SUPPORT. The last step of a change of a page, the end of a walk, and the notice of another package's change (R238, R274, R275,
R277). -/

namespace Sys2Proof
open Machine

/-! ### What the last step of a change keeps -/

/-- Every package has the same changes begun, and physical parts that differ at most in what is poisoned. -/
structure PoolsKept (s t : State) : Prop where
  vmch : ∀ k, (t.pkg k).vmch = (s.pkg k).vmch
  phys : ∀ k, (t.pkg k).phys = { (s.pkg k).phys with poison := (t.pkg k).phys.poison }
theorem PoolsKept.refl (s : State) : PoolsKept s s := ⟨fun _ => rfl, fun _ => rfl⟩
theorem PoolsKept.trans {s t u : State} (h : PoolsKept s t) (h' : PoolsKept t u) : PoolsKept s u := by
  refine ⟨fun k => (h'.vmch k).trans (h.vmch k), fun k => (h'.phys k).trans ?_⟩
  exact (congrArg (fun x : Phys => { x with poison := (u.pkg k).phys.poison }) (h.phys k)).trans rfl
theorem PoolsKept.fold {α : Type} {f : State → α → State} (h : ∀ s x, PoolsKept s (f s x)) (l : List α) (s : State) : PoolsKept s (l.foldl f s) := by
  induction l generalizing s with
  | nil => exact .refl s
  | cons x l ih => exact (h s x).trans (ih _)
theorem PoolsKept.of_pkgs {s t : State} (h : t.pkgs = s.pkgs) : PoolsKept s t := by
  have hk : ∀ k, t.pkg k = s.pkg k := fun k => by unfold State.pkg; rw [h]
  exact ⟨fun k => by rw [hk], fun k => by rw [hk]⟩
theorem modPkg_poolsKept {s : State} {k : Nat} {f : Pkg → Pkg} (h1 : ∀ p, (f p).vmch = p.vmch) (h2 : ∀ p, (f p).phys = { p.phys with poison := (f p).phys.poison }) :
    PoolsKept s (s.modPkg k f) := by
  refine ⟨fun j => ?_, fun j => ?_⟩ <;> rw [State.pkg_modPkg] <;> split
  next hj => rw [hj]; exact h1 _
  next => rfl
  next hj => rw [hj]; exact h2 _
  next => rfl
theorem store_poolsKept (s : State) (a : Nat) (bs : List Byte) : PoolsKept s (s.store a bs) := by
  unfold State.store
  dsimp only
  refine PoolsKept.trans (PoolsKept.of_pkgs ?_) (modPkg_poolsKept (fun _ => rfl) fun _ => rfl)
  rfl
theorem zeroRange_poolsKept (s : State) (a n : Nat) : PoolsKept s (s.zeroRange a n) := by
  unfold State.zeroRange
  dsimp only
  refine PoolsKept.trans (PoolsKept.of_pkgs ?_) (modPkg_poolsKept (fun _ => rfl) fun _ => rfl)
  rfl
theorem settleRange_poolsKept (s : State) (a n : Nat) : PoolsKept s (s.settleRange a n) := by
  unfold State.settleRange
  split
  · exact .refl s
  · refine .fold (fun s i => ?_) _ s
    unfold State.settleUnit
    dsimp only
    refine PoolsKept.trans (t := { s with writes := s.writes.filter (fun w => !(decide (1 ≤ w.level) && w.unit == a / 8 + i)) }) (.of_pkgs rfl) (.fold (fun s w => ?_) _ _)
    unfold State.landWrite
    dsimp only
    split
    · exact (store_poolsKept ..).trans (.of_pkgs rfl)
    · exact store_poolsKept ..
theorem storeAt_poolsKept (s : State) (a : Nat) (bs : List Byte) : PoolsKept s (s.storeAt a bs) := (settleRange_poolsKept ..).trans (store_poolsKept ..)
theorem setLeaf_poolsKept (s : State) (k : Nat) (ctx : W32) (va v : W64) : PoolsKept s (s.setLeaf k ctx va v) := by
  unfold State.setLeaf
  split
  · exact storeAt_poolsKept ..
  · exact .refl s
theorem copyBytes_poolsKept (s : State) (src dst n : Nat) : PoolsKept s (s.copyBytes src dst n) :=
  (zeroRange_poolsKept ..).trans (.fold (f := fun s (e : Nat × Byte) => { s with mem := memPut s.mem (dst + (e.1 - src)) e.2 }) (fun _ _ => .of_pkgs rfl) _ _)
theorem dropDset_poolsKept (s : State) (ctx : W32) (i : Nat) : PoolsKept s (s.dropDset ctx i) := by
  unfold State.dropDset
  dsimp only
  split
  · exact .refl s
  · refine .fold (fun s k => ?_) _ s
    split
    · exact .refl s
    · exact storeAt_poolsKept ..
theorem fallInvalidate_poolsKept (s : State) (ctx : W32) (lo n : Nat) : PoolsKept s { s with pkgs := fall s.pkgs (fun _ p => p.invalidate ctx lo n) } := by
  have hk : ∀ k, (State.pkg { s with pkgs := fall s.pkgs (fun _ p => p.invalidate ctx lo n) } k).vmch = (s.pkg k).vmch ∧
      (State.pkg { s with pkgs := fall s.pkgs (fun _ p => p.invalidate ctx lo n) } k).phys = (s.pkg k).phys := by
    intro k
    unfold State.pkg
    dsimp only
    rw [fget_fall, fget_eq_flook]
    cases flook s.pkgs k <;> exact ⟨rfl, rfl⟩
  exact ⟨fun k => (hk k).1, fun k => by rw [(hk k).2]⟩

/-! ### Frames given back -/

theorem giveFrames_rest (p : Pkg) (f n : Nat) : p.giveFrames f n = { p with phys := { p.phys with pool := (p.giveFrames f n).phys.pool } } := rfl
theorem mem_giveFrames {p : Pkg} {f n g st : Nat} (h : g ∈ p.stackPool st) : g ∈ (p.giveFrames f n).stackPool st := by
  unfold Pkg.giveFrames Pkg.stackPool Pkg.setPool at *
  dsimp only
  rw [fget_fput]
  split
  next hst => subst hst; exact List.mem_append_left _ h
  next => exact h
theorem giveFrames_gives {p : Pkg} {f n g : Nat} (h1 : f ≤ g) (h2 : g < f + n) (h3 : g ∉ p.phys.withdrawn) : g ∈ (p.giveFrames f n).stackPool (f * 2 ^ 16 / 2 ^ 36) := by
  unfold Pkg.giveFrames Pkg.stackPool Pkg.setPool
  dsimp only
  rw [fget_fput_self]
  refine List.mem_append_right _ (List.mem_filter.2 ⟨List.mem_map.2 ⟨g - f, List.mem_range.2 (by omega), by omega⟩, ?_⟩)
  simpa using h3
/-- One item of a list of frames is given back. -/
def giveItem (s : State) (e : Nat × Nat × Nat) : State := s.modPkg e.1 (fun p => p.giveFrames e.2.1 e.2.2)
theorem giveItem_rest (s : State) (e : Nat × Nat × Nat) (k : Nat) : ((giveItem s e).pkg k).vmch = (s.pkg k).vmch ∧
    ((giveItem s e).pkg k).phys.withdrawn = (s.pkg k).phys.withdrawn ∧ ∀ g st, g ∈ (s.pkg k).stackPool st → g ∈ ((giveItem s e).pkg k).stackPool st := by
  unfold giveItem
  rw [State.pkg_modPkg]
  split
  next h => subst h; exact ⟨rfl, rfl, fun g st => mem_giveFrames⟩
  next => exact ⟨rfl, rfl, fun _ _ h => h⟩
theorem giveItems_rest (l : List (Nat × Nat × Nat)) (s : State) (k : Nat) : ((l.foldl giveItem s).pkg k).vmch = (s.pkg k).vmch ∧
    ∀ g st, g ∈ (s.pkg k).stackPool st → g ∈ ((l.foldl giveItem s).pkg k).stackPool st := by
  induction l generalizing s with
  | nil => exact ⟨rfl, fun _ _ h => h⟩
  | cons e l ih =>
    obtain ⟨h1, -, h3⟩ := giveItem_rest s e k
    obtain ⟨i1, i2⟩ := ih (giveItem s e)
    exact ⟨i1.trans h1, fun g st h => i2 g st (h3 g st h)⟩
theorem giveItems_gives {l : List (Nat × Nat × Nat)} {s : State} {q f n g : Nat} (h : (q, f, n) ∈ l) (h1 : f ≤ g) (h2 : g < f + n)
    (h3 : g ∉ (s.pkg q).phys.withdrawn) : g ∈ ((l.foldl giveItem s).pkg q).stackPool (f * 2 ^ 16 / 2 ^ 36) := by
  induction l generalizing s with
  | nil => exact absurd h List.not_mem_nil
  | cons e l ih =>
    rcases List.mem_cons.1 h with rfl | h
    · refine (giveItems_rest l _ q).2 _ _ ?_
      unfold giveItem
      rw [State.pkg_modPkg_self]
      exact giveFrames_gives h1 h2 h3
    · exact ih h (by rw [(giveItem_rest s e q).2.1]; exact h3)

/-! ### The last step of a change -/

section
variable {s : State} {k n : Nat} {c : VmChange}

/-- The state before the frames of a change are given back. -/
def changeDrained (s : State) (k n : Nat) (c : VmChange) : State :=
  let s1 := s.modPkg k (fun p => { p with vmch := p.vmch.filter (fun x => x.id != n) })
  let s2 := c.copies.foldl (fun s e => s.copyBytes e.1 e.2.1 e.2.2) s1
  let s3 := c.leaves.foldl (fun s e => s.setLeaf e.1 c.ctx c.va e.2) s2
  let s4 := if c.leaves.isEmpty && c.frees.isEmpty then s3
    else { s3 with pkgs := fall s3.pkgs (fun _ p => p.invalidate c.ctx c.va.toNat c.size) }
  if c.leaves.isEmpty && c.frees.isEmpty then s4
    else c.watch.foldl (fun s w => s.modPkg (keyPkg w.1) (fun p => p.dropAllLines w.1 w.2)) s4
theorem changeDrained_kept : PoolsKept (s.modPkg k (fun p => { p with vmch := p.vmch.filter (fun x => x.id != n) })) (changeDrained s k n c) := by
  unfold changeDrained
  dsimp only
  generalize s.modPkg k (fun p => { p with vmch := p.vmch.filter (fun x => x.id != n) }) = s1
  have h3 : PoolsKept s1 (c.leaves.foldl (fun s e => s.setLeaf e.1 c.ctx c.va e.2) (c.copies.foldl (fun s e => s.copyBytes e.1 e.2.1 e.2.2) s1)) :=
    (PoolsKept.fold (f := fun s (e : Nat × Nat × Nat) => s.copyBytes e.1 e.2.1 e.2.2) (fun s e => copyBytes_poolsKept ..) _ _).trans
      (PoolsKept.fold (f := fun s (e : Nat × W64) => s.setLeaf e.1 c.ctx c.va e.2) (fun s e => setLeaf_poolsKept ..) _ _)
  generalize c.leaves.foldl (fun s e => s.setLeaf e.1 c.ctx c.va e.2) (c.copies.foldl (fun s e => s.copyBytes e.1 e.2.1 e.2.2) s1) = s3 at h3
  split
  · exact h3
  · exact (h3.trans (fallInvalidate_poolsKept ..)).trans
      (.fold (f := fun s (w : Nat × Nat) => s.modPkg (keyPkg w.1) (fun p => p.dropAllLines w.1 w.2)) (fun s w => modPkg_poolsKept (fun _ => rfl) fun _ => rfl) _ _)
/-- The state before a change tells whoever waits for it. -/
def changeMade (s : State) (k n : Nat) (c : VmChange) : State :=
  let s5 := c.frees.foldl giveItem (changeDrained s k n c)
  match c.dset with | some i => s5.dropDset c.ctx i | none => s5
theorem changeMade_does : (∀ x ∈ ((changeMade s k n c).pkg k).vmch, x.id ≠ n) ∧
    (∀ q f z g, (q, f, z) ∈ c.frees → f ≤ g → g < f + z → g ∉ (s.pkg q).phys.withdrawn → g ∈ ((changeMade s k n c).pkg q).stackPool (f * 2 ^ 16 / 2 ^ 36)) := by
  have hd := changeDrained_kept (s := s) (k := k) (n := n) (c := c)
  have hk : PoolsKept (c.frees.foldl giveItem (changeDrained s k n c)) (changeMade s k n c) := by
    unfold changeMade
    dsimp only
    split
    · exact dropDset_poolsKept ..
    · exact .refl _
  refine ⟨fun x hx => ?_, fun q f z g h h1 h2 h3 => ?_⟩
  · rw [hk.vmch, (giveItems_rest ..).1, hd.vmch, State.pkg_modPkg_self] at hx
    simpa using (List.mem_filter.1 hx).2
  · have hw : (((changeDrained s k n c).pkg q).phys.withdrawn) = (s.pkg q).phys.withdrawn := by
      rw [hd.phys, State.pkg_modPkg]
      dsimp only
      split
      next hq => rw [hq]
      next => rfl
    have := giveItems_gives (s := changeDrained s k n c) h h1 h2 (by rw [hw]; exact h3)
    unfold Pkg.stackPool at this ⊢
    rw [hk.phys]
    exact this
/-- The status of a change reaches whoever waits for it. -/
def changeTold (s : State) (k : Nat) (c : VmChange) : State :=
  match c.wid, c.d with
  | some w, some d => fillTag s w c.lanes c.tag (fun _ => outs32 d c.status)
  | some w, none =>
    match (s.wave w).waits.find? (fun r => r.lanes &&& c.lanes != 0) with
    | some r => s.releaseWait w r
    | none => s
  | none, _ => s.modPkg k (fun p => p.cmdDone c.status)
theorem changeTold_kept : PoolsKept s (changeTold s k c) := by
  unfold changeTold
  split
  · exact .of_pkgs rfl
  · split
    · unfold State.releaseWait
      split <;> exact .of_pkgs rfl
    · exact .refl s
  · refine modPkg_poolsKept (fun p => ?_) fun p => ?_ <;> unfold Pkg.cmdDone <;> split <;> rfl
theorem changeTold_fills {w : Nat} {d : Reg} (hw : c.wid = some w) (hd : c.d = some d) (h120 : d.toNat < 120) {l : Nat} (hl : c.lanes.getLsbD l = true)
    {e : Pend} (he : e ∈ ((changeTold s k c).lane w l).pend) (ht : e.tag = c.tag) (hg : e.dst = .g d) : e.got = true ∧ e.val = c.status := by
  have hlane : (changeTold s k c).lane w l = (s.lane w l).fill c.tag (outs32 d c.status) := by
    unfold changeTold
    rw [hw, hd]
    dsimp only
    unfold fillTag
    rw [State.lane_updLanes, if_pos ⟨rfl, hl⟩]
  rw [hlane] at he
  unfold Lane.fill at he
  obtain ⟨x, -, rfl⟩ := List.mem_map.1 he
  by_cases hx : x.tag = c.tag
  · have hf : (outs32 d c.status).find? (fun o => o.1 == x.dst) = if x.dst = .g d then some (.g d, c.status) else none := by
      rw [outs32_eq]
      unfold to32 regs1
      rw [if_pos h120]
      by_cases hxd : x.dst = .g d
      · rw [if_pos hxd, hxd]; simp
      · rw [if_neg hxd]
        simpa using fun h => hxd h.symm
    rw [if_pos hx, hf] at hg ⊢
    by_cases hxd : x.dst = .g d
    · rw [if_pos hxd]
      exact ⟨rfl, rfl⟩
    · rw [if_neg hxd] at hg
      exact absurd hg hxd
  · rw [if_neg hx] at ht
    exact absurd ht hx
theorem vmChangeComplete_eq (h : (s.pkg k).vmch.find? (fun c => c.id == n) = some c) :
    exec (.vmChangeComplete k n) s = .next (if s.changeDone c = true then changeTold (changeMade s k n c) k c else s) := by
  refine Eq.trans (show _ = execVmChangeComplete k n s from rfl) ?_
  unfold execVmChangeComplete
  rw [h]
  dsimp only
  cases s.changeDone c <;> rfl
end
theorem vmChangeComplete_does {s : State} {k n : Nat} {c : VmChange} (h : (s.pkg k).vmch.find? (fun c => c.id == n) = some c) :
    (s.changeDone c = false → exec (.vmChangeComplete k n) s = .next s) ∧
    (s.changeDone c = true → After (.vmChangeComplete k n) s (fun t =>
      (∀ x ∈ (t.pkg k).vmch, x.id ≠ n) ∧
      (∀ q f z g, (q, f, z) ∈ c.frees → f ≤ g → g < f + z → g ∉ (s.pkg q).phys.withdrawn → g ∈ (t.pkg q).stackPool (f * 2 ^ 16 / 2 ^ 36)) ∧
      (∀ w d, c.wid = some w → c.d = some d → d.toNat < 120 → ∀ l, c.lanes.getLsbD l = true →
        ∀ e ∈ (t.lane w l).pend, e.tag = c.tag → e.dst = .g d → e.got = true ∧ e.val = c.status))) := by
  have hx := vmChangeComplete_eq h
  obtain ⟨h1, h2⟩ := changeMade_does (s := s) (k := k) (n := n) (c := c)
  have hk := changeTold_kept (s := changeMade s k n c) (k := k) (c := c)
  refine ⟨fun hd => hx.trans (by rw [hd]; rfl), fun hd => ⟨_, hx.trans (by rw [if_pos hd]), ?_, ?_, ?_⟩⟩
  · rw [hk.vmch]
    exact h1
  · intro q f z g hq hf hz hw
    unfold Pkg.stackPool at h2 ⊢
    rw [hk.phys]
    exact h2 q f z g hq hf hz hw
  · exact fun w d hw hd' h120 l hl e he => changeTold_fills hw hd' h120 hl he

/-! ### Translations found and kept -/

theorem find?_append_last {α : Type} {p : α → Bool} {l : List α} {e : α} (h : ∀ x ∈ l, p x = false) (he : p e = true) : (l ++ [e]).find? p = some e := by
  rw [List.find?_append, List.find?_eq_none.2 fun x hx => by rw [h x hx]; exact Bool.false_ne_true, Option.none_or, List.find?_singleton, if_pos he]
theorem keepLast_append {α : Type} {n : Nat} (h : 0 < n) (l : List α) (e : α) : ∃ l', (∀ x ∈ l', x ∈ l) ∧ keepLast n (l ++ [e]) = l' ++ [e] := by
  refine ⟨l.drop (l.length + 1 - n), fun x hx => List.mem_of_mem_drop hx, ?_⟩
  unfold keepLast
  rw [List.length_append, List.length_singleton, List.drop_append_of_le_length (by omega)]
theorem tlb2Put_append (l : List TlbEntry) (e : TlbEntry) : ∃ l', (∀ x ∈ l', x ∈ l) ∧ tlb2Put l e = l' ++ [e] := by
  unfold tlb2Put
  split
  · exact ⟨l, fun _ h => h, rfl⟩
  · split
    · exact ⟨l, fun _ h => h, rfl⟩
    · split
      · exact ⟨_, fun _ h => List.mem_of_mem_erase h, rfl⟩
      · exact ⟨l, fun _ h => h, rfl⟩
theorem levelSize_pos (lv : Nat) : 0 < levelSize lv := by
  unfold levelSize
  split <;> decide

section
variable {s : State} {k : Nat} {ctx : W32} {v : W64}

/-- A lookup that finds a translation finds one of the address asked. -/
theorem lookup_hits {c : Nat} {e : TlbEntry} (h : s.lookup k c ctx v = some e) : e.hits ctx v = true := by
  unfold State.lookup at h
  split at h
  next y hy => rw [← Option.some.inj h]; exact List.find?_some (p := fun e : TlbEntry => e.hits ctx v) hy
  next =>
    split at h
    next y hy => rw [← Option.some.inj h]; exact List.find?_some (p := fun e : TlbEntry => e.hits ctx v) hy
    next =>
      split at h
      next w hw =>
        obtain ⟨l, -, rfl⟩ := Option.map_eq_some_iff.1 h
        have hp := levelSize_pos w.level
        have h1 := Nat.div_mul_le_self v.toNat (levelSize w.level)
        have h2 := Nat.lt_div_mul_add (a := v.toNat) hp
        have h3 := v.isLt
        unfold TlbEntry.hits Walked.size
        dsimp only
        rw [BitVec.toNat_ofNat, Nat.mod_eq_of_lt (by omega)]
        simp only [beq_self_eq_true, Bool.true_and, Bool.and_eq_true, decide_eq_true_eq]
        exact ⟨h1, h2⟩
      next => exact absurd h (by simp)
/-- The caches of a package may change, and nothing else. -/
structure WalkFilled (s t : State) (k : Nat) : Prop where
  frame : t = { s with pkgs := t.pkgs }
  others : ∀ j, j ≠ k → t.pkg j = s.pkg j
  pkg : t.pkg k = { s.pkg k with cores := (t.pkg k).cores, tlb2 := (t.pkg k).tlb2, wcache := (t.pkg k).wcache }
  core : ∀ c, t.core k c = { s.core k c with tlb := (t.core k c).tlb }
theorem WalkFilled.refl (s : State) (k : Nat) : WalkFilled s s k := ⟨rfl, fun _ _ => rfl, rfl, fun _ => rfl⟩
theorem WalkFilled.trans {s t u : State} {k : Nat} (h : WalkFilled s t k) (h' : WalkFilled t u k) : WalkFilled s u k := by
  refine ⟨h'.frame.trans ?_, fun j hj => (h'.others j hj).trans (h.others j hj), h'.pkg.trans ?_, fun c => (h'.core c).trans ?_⟩
  · exact (congrArg (fun x : State => { x with pkgs := u.pkgs }) h.frame).trans rfl
  · exact (congrArg (fun x : Pkg => { x with cores := (u.pkg k).cores, tlb2 := (u.pkg k).tlb2, wcache := (u.pkg k).wcache }) h.pkg).trans rfl
  · exact (congrArg (fun x : Core => { x with tlb := (u.core k c).tlb }) (h.core c)).trans rfl
/-- What a core fills its caches with, where they lack it. -/
def cacheFilled (p : Pkg) (c : Nat) (ctx : W32) (v : W64) (e : TlbEntry) : Pkg :=
  let x := p.core c
  let t2 := fget [] p.tlb2 (clusterOf c)
  let p1 := if x.tlb.any (·.hits ctx v) then p else p.setCore c { x with tlb := keepLast 128 (x.tlb ++ [e]) }
  if t2.any (·.hits ctx v) then p1 else { p1 with tlb2 := fput p1.tlb2 (clusterOf c) (tlb2Put t2 e) }
theorem fillTlb_eq {c : Nat} {e : TlbEntry} (h : s.lookup k c ctx v = some e) (he : 2 ≤ pteState e.leaf) : s.fillTlb k c ctx v = s.modPkg k (fun p => cacheFilled p c ctx v e) := by
  unfold State.fillTlb
  rw [h]
  dsimp only
  rw [if_neg (by omega)]
  rfl
theorem fillTlb_cases (s : State) (k c : Nat) (ctx : W32) (v : W64) : s.fillTlb k c ctx v = s ∨
    ∃ e, s.lookup k c ctx v = some e ∧ 2 ≤ pteState e.leaf ∧ s.fillTlb k c ctx v = s.modPkg k (fun p => cacheFilled p c ctx v e) := by
  cases h : s.lookup k c ctx v with
  | none => left; unfold State.fillTlb; rw [h]
  | some e =>
    by_cases he : pteState e.leaf < 2
    · left; unfold State.fillTlb; rw [h]; exact if_pos he
    · exact .inr ⟨e, rfl, by omega, fillTlb_eq h (by omega)⟩
section
variable (p : Pkg) (c : Nat) (e : TlbEntry)
theorem cacheFilled_tlb2 (j : Nat) : fget [] (cacheFilled p c ctx v e).tlb2 j =
    if j = clusterOf c ∧ (fget [] p.tlb2 (clusterOf c)).any (·.hits ctx v) = false then tlb2Put (fget [] p.tlb2 (clusterOf c)) e else fget [] p.tlb2 j := by
  unfold cacheFilled
  dsimp only
  have h1 : (if (p.core c).tlb.any (·.hits ctx v) then p else p.setCore c { p.core c with tlb := keepLast 128 ((p.core c).tlb ++ [e]) }).tlb2 = p.tlb2 := by
    split <;> rfl
  cases (fget [] p.tlb2 (clusterOf c)).any (·.hits ctx v) with
  | true => rw [if_pos rfl, h1, if_neg (by simp)]
  | false =>
    rw [if_neg Bool.false_ne_true]
    dsimp only
    rw [h1, fget_fput]
    by_cases hj : j = clusterOf c
    · rw [if_pos hj, if_pos ⟨hj, rfl⟩]
    · rw [if_neg hj, if_neg fun h => hj h.1]
theorem cacheFilled_core (j : Nat) : (cacheFilled p c ctx v e).core j =
    if j = c ∧ (p.core c).tlb.any (·.hits ctx v) = false then { p.core c with tlb := keepLast 128 ((p.core c).tlb ++ [e]) } else p.core j := by
  have h1 : (cacheFilled p c ctx v e).core j = (if (p.core c).tlb.any (·.hits ctx v) then p else p.setCore c { p.core c with tlb := keepLast 128 ((p.core c).tlb ++ [e]) }).core j := by
    unfold cacheFilled
    dsimp only
    split <;> rfl
  rw [h1]
  cases (p.core c).tlb.any (·.hits ctx v) with
  | true => rw [if_pos rfl, if_neg (by simp)]
  | false =>
    rw [if_neg Bool.false_ne_true, Pkg.core_setCore]
    by_cases hj : j = c
    · rw [if_pos hj, if_pos ⟨hj, rfl⟩]
    · rw [if_neg hj, if_neg fun h => hj h.1]
theorem cacheFilled_rest : cacheFilled p c ctx v e = { p with cores := (cacheFilled p c ctx v e).cores, tlb2 := (cacheFilled p c ctx v e).tlb2 } := by
  unfold cacheFilled
  dsimp only
  split <;> split <;> rfl
end
theorem fillTlb_fills (s : State) (k c : Nat) (ctx : W32) (v : W64) : WalkFilled s (s.fillTlb k c ctx v) k := by
  rcases fillTlb_cases s k c ctx v with h | ⟨e, -, -, h⟩ <;> rw [h]
  · exact .refl ..
  · refine ⟨rfl, fun j hj => by rw [State.pkg_modPkg, if_neg hj], ?_, fun j => ?_⟩
    · rw [State.pkg_modPkg_self]
      exact (cacheFilled_rest ..).trans (by rw [cacheFilled_rest])
    · unfold State.core
      rw [State.pkg_modPkg_self, cacheFilled_core]
      split
      next hj => rw [hj.1]
      next => rfl

/-- Both caches of a core hold a translation of an address. -/
def Held (s : State) (k : Nat) (ctx : W32) (v : W64) (c : Nat) : Prop :=
  (∃ y ∈ (s.core k c).tlb, y.hits ctx v = true) ∧ ∃ y ∈ fget [] (s.pkg k).tlb2 (clusterOf c), y.hits ctx v = true
/-- A core finds a usable translation of an address. -/
def Found (s : State) (k : Nat) (ctx : W32) (v : W64) (c : Nat) : Prop := ∃ e, s.lookup k c ctx v = some e ∧ 2 ≤ pteState e.leaf
/-- A translation with which a cache has been cacheFilled stays there as others are cacheFilled. -/
theorem fillTlb_keeps {c' c : Nat} (h : Held s k ctx v c) : Held (s.fillTlb k c' ctx v) k ctx v c := by
  rcases fillTlb_cases s k c' ctx v with he | ⟨e, -, -, he⟩ <;> rw [he]
  · exact h
  · obtain ⟨h1, h2⟩ := h
    unfold Held State.core at *
    rw [State.pkg_modPkg_self, cacheFilled_core, cacheFilled_tlb2, if_neg, if_neg]
    · exact ⟨h1, h2⟩
    · intro ⟨hj, hn⟩
      rw [hj] at h2
      rw [List.any_eq_true.2 h2] at hn
      exact absurd hn (by decide)
    · intro ⟨hj, hn⟩
      rw [hj] at h1
      rw [List.any_eq_true.2 h1] at hn
      exact absurd hn (by decide)
theorem fillTlb_holds {c : Nat} (h : Found s k ctx v c) : Held (s.fillTlb k c ctx v) k ctx v c := by
  obtain ⟨e, h, he⟩ := h
  have hh := lookup_hits h
  rw [fillTlb_eq h he]
  unfold Held State.core
  rw [State.pkg_modPkg_self, cacheFilled_core, cacheFilled_tlb2]
  constructor
  · by_cases ha : ((s.pkg k).core c).tlb.any (·.hits ctx v) = false
    · rw [if_pos ⟨rfl, ha⟩]
      obtain ⟨l', -, hl⟩ := keepLast_append (n := 128) (by omega) ((s.pkg k).core c).tlb e
      exact ⟨e, by rw [hl]; exact List.mem_append_right _ List.mem_cons_self, hh⟩
    · rw [if_neg fun h => ha h.2]
      exact List.any_eq_true.1 (Bool.eq_true_of_not_eq_false ha)
  · by_cases ha : (fget [] (s.pkg k).tlb2 (clusterOf c)).any (·.hits ctx v) = false
    · rw [if_pos ⟨rfl, ha⟩]
      obtain ⟨l', -, hl⟩ := tlb2Put_append (fget [] (s.pkg k).tlb2 (clusterOf c)) e
      exact ⟨e, by rw [hl]; exact List.mem_append_right _ List.mem_cons_self, hh⟩
    · rw [if_neg fun h => ha h.2]
      exact List.any_eq_true.1 (Bool.eq_true_of_not_eq_false ha)
theorem lookup_eq (s : State) (k c : Nat) (ctx : W32) (v : W64) : s.lookup k c ctx v = ((s.core k c).tlb.find? (·.hits ctx v)).or
    (((fget [] (s.pkg k).tlb2 (clusterOf c)).find? (·.hits ctx v)).or ((s.walkVia k (clusterOf c) ctx v).bind fun w =>
      w.leaf?.map (fun l => ⟨ctx, BitVec.ofNat 64 (v.toNat / w.size * w.size), w.size, l⟩))) := by
  unfold State.lookup
  cases (s.core k c).tlb.find? (·.hits ctx v) with
  | some y => rfl
  | none =>
    cases (fget [] (s.pkg k).tlb2 (clusterOf c)).find? (·.hits ctx v) with
    | some y => rfl
    | none => cases s.walkVia k (clusterOf c) ctx v <;> rfl
theorem find?_filled {l l' : List TlbEntry} {e : TlbEntry} (hl : ∀ x ∈ l', x ∈ l) (ha : l.any (·.hits ctx v) = false) (he : e.hits ctx v = true) :
    (l' ++ [e]).find? (·.hits ctx v) = some e ∧ l.find? (·.hits ctx v) = none := by
  rw [List.any_eq_false] at ha
  exact ⟨find?_append_last (fun x hx => by simpa using ha x (hl x hx)) he, List.find?_eq_none.2 ha⟩
theorem walkFromVia_congr {s t : State} (h : t.mem = s.mem) (k : Nat) (ctx : W32) (ca : List WalkEnt) (lvs : List Nat) (tbl : Nat) (va : W64) :
    walkFromVia t k ctx ca lvs tbl va = walkFromVia s k ctx ca lvs tbl va := by
  induction lvs generalizing tbl with
  | nil => rfl
  | cons lv lvs ih =>
    unfold walkFromVia State.read64
    rw [h]
    simp only [ih]
theorem walkVia_congr {s t : State} {k die : Nat} {ctx : W32} {va : W64} (hm : t.mem = s.mem) (hc : (t.pkg k).ctxs = (s.pkg k).ctxs)
    (hw : (t.pkg k).wcache = (s.pkg k).wcache) : t.walkVia k die ctx va = s.walkVia k die ctx va := by
  unfold State.walkVia
  rw [hc, hw]
  simp only [walkFromVia_congr hm]
/-- A core that finds a translation goes on finding one as others fill their caches. -/
theorem fillTlb_found {c' c : Nat} (h : Found s k ctx v c) : Found (s.fillTlb k c' ctx v) k ctx v c := by
  rcases fillTlb_cases s k c' ctx v with he | ⟨e, hl, h2, he⟩
  · rw [he]
    exact h
  have hh := lookup_hits hl
  obtain ⟨y, hy, hy2⟩ := h
  have hwalk : (s.fillTlb k c' ctx v).walkVia k (clusterOf c) ctx v = s.walkVia k (clusterOf c) ctx v := by
    have hf := fillTlb_fills s k c' ctx v
    refine walkVia_congr ?_ ?_ ?_
    · rw [hf.frame]
    · rw [(fillTlb_caches s k c' ctx v k).1]
    · rw [(fillTlb_caches s k c' ctx v k).1]
  have hcore : ((s.fillTlb k c' ctx v).core k c).tlb.find? (·.hits ctx v) = (s.core k c).tlb.find? (·.hits ctx v) ∨
      ((s.fillTlb k c' ctx v).core k c).tlb.find? (·.hits ctx v) = some e := by
    rw [he]
    unfold State.core
    rw [State.pkg_modPkg_self, cacheFilled_core]
    split
    next hj =>
      obtain ⟨l', hl', hk⟩ := keepLast_append (n := 128) (by omega) ((s.pkg k).core c').tlb e
      refine .inr ?_
      dsimp only
      rw [hk]
      exact (find?_filled hl' hj.2 hh).1
    next => exact .inl rfl
  have htlb2 : (fget [] ((s.fillTlb k c' ctx v).pkg k).tlb2 (clusterOf c)).find? (·.hits ctx v) = (fget [] (s.pkg k).tlb2 (clusterOf c)).find? (·.hits ctx v) ∨
      (fget [] ((s.fillTlb k c' ctx v).pkg k).tlb2 (clusterOf c)).find? (·.hits ctx v) = some e := by
    rw [he, State.pkg_modPkg_self, cacheFilled_tlb2]
    split
    next hj =>
      obtain ⟨l', hl', hk⟩ := tlb2Put_append (fget [] (s.pkg k).tlb2 (clusterOf c')) e
      rw [hk]
      exact .inr (find?_filled hl' hj.2 hh).1
    next => exact .inl rfl
  unfold Found
  rw [lookup_eq] at hy ⊢
  rw [hwalk]
  rcases hcore with hc | hc <;> rw [hc]
  · cases hs : (s.core k c).tlb.find? (·.hits ctx v) with
    | some z => rw [hs] at hy; exact ⟨y, hy, hy2⟩
    | none =>
      rw [hs] at hy
      rcases htlb2 with ht | ht <;> rw [ht]
      · exact ⟨y, hy, hy2⟩
      · exact ⟨e, rfl, h2⟩
  · exact ⟨e, rfl, h2⟩
theorem fillTlbs_hold {cs : List Nat} {c : Nat} (h : c ∈ cs ∧ Found s k ctx v c ∨ Held s k ctx v c) :
    Held (cs.foldl (fun s c => s.fillTlb k c ctx v) s) k ctx v c := by
  induction cs generalizing s with
  | nil => exact h.resolve_left fun h => absurd h.1 List.not_mem_nil
  | cons d cs ih =>
    refine ih ?_
    rcases h with ⟨hc, hf⟩ | hh
    · rcases List.mem_cons.1 hc with rfl | hc
      · exact .inr (fillTlb_holds hf)
      · exact .inl ⟨hc, fillTlb_found hf⟩
    · exact .inr (fillTlb_keeps hh)
theorem fillTlbs_walkFilled (cs : List Nat) : WalkFilled s (cs.foldl (fun s c => s.fillTlb k c ctx v) s) k := by
  induction cs generalizing s with
  | nil => exact .refl ..
  | cons d cs ih => exact (fillTlb_fills ..).trans ih
theorem fillWalker_walkFilled (s : State) (k die : Nat) (ctx : W32) (v : W64) : WalkFilled s (s.fillWalker k die ctx v) k ∧
    ((s.fillWalker k die ctx v).pkg k).cores = (s.pkg k).cores ∧ ((s.fillWalker k die ctx v).pkg k).tlb2 = (s.pkg k).tlb2 := by
  unfold State.fillWalker
  split
  · refine ⟨⟨rfl, fun j hj => by rw [State.pkg_modPkg, if_neg hj], by rw [State.pkg_modPkg_self], fun c => ?_⟩, by rw [State.pkg_modPkg_self], by rw [State.pkg_modPkg_self]⟩
    unfold State.core
    rw [State.pkg_modPkg_self]
    rfl
  · exact ⟨.refl .., rfl, rfl⟩
end

/-! ### The end of a walk -/

/-- A wave is still there to take a walk's answer. -/
def waitsStill (s : State) (w : Nat) : Bool := match flook s.waves w with | some x => !x.ended | none => false
theorem walks_walkDone {s : State} {r : Walk} (h : r.wids.filter (waitsStill s) ≠ []) :
    (s.walkDone r).walks = s.walks.map (fun x => if x = r then { x with wids := r.wids.filter (waitsStill s), done := true } else x) :=
  if_neg (fun he => h (List.isEmpty_iff.1 he))
theorem pageWalkComplete_does (s : State) (k core : Nat) (x : W32) (v : W64) :
    let is := fun (r : Walk) => r.started = true ∧ r.done = false ∧ r.pkg = k ∧ r.die = core / 256 ∧ r.ctx = x ∧ r.page = pageOf v
    ((∀ r ∈ s.walks, ¬ is r) → exec (.pageWalkComplete k core x v) s = .next s) ∧
    ∀ pre r post, s.walks = pre ++ r :: post → (∀ q ∈ pre, ¬ is q) → is r →
      let page := BitVec.ofNat 64 (pageOf v * 2 ^ 16)
      After (.pageWalkComplete k core x v) s (fun t => t = { s with pkgs := t.pkgs, walks := t.walks } ∧ (∀ j, j ≠ k → t.pkg j = s.pkg j) ∧
        t.pkg k = { s.pkg k with cores := (t.pkg k).cores, tlb2 := (t.pkg k).tlb2, wcache := (t.pkg k).wcache } ∧
        (∀ c, t.core k c = { s.core k c with tlb := (t.core k c).tlb }) ∧
        (∀ c ∈ r.cores, ∀ e, s.lookup k c x page = some e → 2 ≤ pteState e.leaf →
          (∃ y ∈ (t.core k c).tlb, y.hits x page = true) ∧ ∃ y ∈ fget [] (t.pkg k).tlb2 (c / 256), y.hits x page = true) ∧
        ∀ w ∈ r.wids, ∀ u, flook s.waves w = some u → u.ended = false →
          ∃ q ∈ t.walks, q = { r with wids := q.wids, done := true } ∧ w ∈ q.wids) := by
  intro is
  have his : ∀ r : Walk, (r.started && !r.done && r.is k (clusterOf core) x (pageNo v)) = true ↔ is r := by
    intro r
    unfold Walk.is
    simp only [Bool.and_eq_true, Bool.not_eq_true', beq_iff_eq, and_assoc]
    exact Iff.rfl
  refine ⟨fun hno => ?_, fun pre r post hw hpre hr => ?_⟩
  · refine Eq.trans (show _ = execPageWalkComplete k core x v s from rfl) ?_
    unfold execPageWalkComplete
    rw [List.find?_eq_none.2 fun r hr h => hno r hr ((his r).1 h)]
  · have hfind : s.walks.find? (fun r => r.started && !r.done && r.is k (clusterOf core) x (pageNo v)) = some r := by
      rw [List.find?_eq_some_iff_append]
      exact ⟨(his r).2 hr, pre, post, hw, fun q hq => by rw [Bool.not_eq_true', ← Bool.not_eq_true]; exact fun h => hpre q hq ((his q).1 h)⟩
    have hx : exec (.pageWalkComplete k core x v) s = .next (s.walkDone r) := by
      refine Eq.trans (show _ = execPageWalkComplete k core x v s from rfl) ?_
      unfold execPageWalkComplete
      rw [hfind]
    obtain ⟨-, -, rfl, -, rfl, hp⟩ := hr
    have h1 := fillTlbs_walkFilled (s := s) (k := r.pkg) (ctx := r.ctx) (v := BitVec.ofNat 64 (r.page * 2 ^ 16)) r.cores
    have h2 := fun c (h : c ∈ r.cores ∧ Found s r.pkg r.ctx (BitVec.ofNat 64 (r.page * 2 ^ 16)) c ∨ _) => fillTlbs_hold (cs := r.cores) h
    have hd : s.walkDone r = { ((r.cores.foldl (fun s c => s.fillTlb r.pkg c r.ctx (BitVec.ofNat 64 (r.page * 2 ^ 16))) s).fillWalker r.pkg r.die r.ctx
      (BitVec.ofNat 64 (r.page * 2 ^ 16))) with walks := (s.walkDone r).walks } := rfl
    rw [hp] at h1 h2 hd
    generalize r.cores.foldl (fun s c => s.fillTlb r.pkg c r.ctx (BitVec.ofNat 64 (pageOf v * 2 ^ 16))) s = u at h1 h2 hd
    obtain ⟨h3, h4, h5⟩ := fillWalker_walkFilled u r.pkg r.die r.ctx (BitVec.ofNat 64 (pageOf v * 2 ^ 16))
    have h13 := h1.trans h3
    generalize u.fillWalker r.pkg r.die r.ctx (BitVec.ofNat 64 (pageOf v * 2 ^ 16)) = z at hd h3 h4 h5 h13
    have hpk : ∀ j, (s.walkDone r).pkg j = z.pkg j := fun j => by rw [hd]; rfl
    have hco : ∀ j c, (s.walkDone r).core j c = z.core j c := fun j c => by rw [hd]; rfl
    refine ⟨_, hx, ?_, fun j hj => (hpk j).trans (h13.others j hj), ?_, fun c => ?_, fun c hc e he h2e => ?_, fun w hwr y hy hye => ?_⟩
    · refine hd.trans ?_
      rw [hd]
      exact (congrArg (fun q : State => { q with walks := (s.walkDone r).walks }) h13.frame).trans rfl
    · rw [hpk]
      exact h13.pkg
    · rw [hco]
      exact h13.core c
    · have hh := h2 c (.inl ⟨hc, e, he, h2e⟩)
      rw [hco, hpk]
      unfold Held State.core Pkg.core at hh
      unfold State.core Pkg.core
      rw [h4, h5]
      exact hh
    · have hlive : w ∈ r.wids.filter (waitsStill s) := List.mem_filter.2 ⟨hwr, by unfold waitsStill; rw [hy]; dsimp only; rw [hye]; rfl⟩
      refine ⟨{ r with wids := r.wids.filter (waitsStill s), done := true }, ?_, rfl, hlive⟩
      rw [walks_walkDone (List.ne_nil_of_mem hlive), List.mem_map]
      exact ⟨r, by rw [hw]; exact List.mem_append_right _ List.mem_cons_self, if_pos rfl⟩

/-! ### Another package's change -/

/-- A package drops, for an invalidate notice, what its caches hold of the page. -/
def noticed (n : Notice) (rest : List (Nat × Notice)) (p : Pkg) : Pkg :=
  let lo := n.arg.toNat / 2 ^ 16 * 2 ^ 16
  let drop := fun (l : List TlbEntry) => l.filter (fun e => !overlaps e.base.toNat e.size lo (invSize n))
  { p with cores := fall p.cores (fun _ c => { c with tlb := drop c.tlb }), tlb2 := fall p.tlb2 (fun _ t => drop t),
           wcache := fall p.wcache (fun _ t => t.filter (fun e => !overlaps e.base (levelSize e.level) lo (invSize n))),
           fab := { p.fab with inNotices := rest } }
theorem invalidateNotice_eq {s : State} {k q : Nat} {n : Notice} {rest : List (Nat × Notice)} (hn : (s.pkg k).fab.inNotices = (q, n) :: rest)
    (hk : n.kind = .invalidate) : exec (.invalidateNotice k) s = .next (s.modPkg k (noticed n rest)) := by
  refine Eq.trans (show _ = execInvalidateNotice k s from rfl) ?_
  unfold execInvalidateNotice
  rw [hn]
  dsimp only
  rw [hk, if_neg (by decide)]
  rfl
theorem invalidateNotice_does (s : State) (k q : Nat) (n : Notice) (rest : List (Nat × Notice)) (hn : (s.pkg k).fab.inNotices = (q, n) :: rest)
    (hk : n.kind = .invalidate) :
    let size := if n.arg.toNat % 8 = 0 then 2 ^ 16 else if n.arg.toNat % 8 = 1 then 2 ^ 21 else 2 ^ 30
    After (.invalidateNotice k) s (fun t => t = { s with pkgs := t.pkgs } ∧ (∀ j, j ≠ k → t.pkg j = s.pkg j) ∧
      (t.pkg k).fab.inNotices = rest ∧ ∀ ctx, Untranslated t k ctx (n.arg.toNat / 2 ^ 16 * 2 ^ 16) size) := by
  intro size
  have hsize : invSize n = size := rfl
  have hcov : ∀ {ctx : W32} {l : List TlbEntry} {e : TlbEntry}, e ∈ l.filter (fun e => !overlaps e.base.toNat e.size (n.arg.toNat / 2 ^ 16 * 2 ^ 16) (invSize n)) →
      ¬ covers ctx (n.arg.toNat / 2 ^ 16 * 2 ^ 16) size e := by
    intro ctx l e he hc
    obtain ⟨-, h1, h2⟩ := hc
    have h := (List.mem_filter.1 he).2
    unfold overlaps at h
    rw [hsize, decide_eq_true h1, decide_eq_true h2] at h
    exact absurd h (by decide)
  refine ⟨_, invalidateNotice_eq hn hk, rfl, fun j hj => by rw [State.pkg_modPkg, if_neg hj], by rw [State.pkg_modPkg_self]; rfl,
    fun ctx => ⟨fun c e he => ?_, fun c e he => ?_⟩⟩
  · unfold State.core Pkg.core at he
    rw [State.pkg_modPkg_self] at he
    unfold noticed at he
    dsimp only at he
    rw [fget_fall] at he
    cases hc : flook (s.pkg k).cores c with
    | none => rw [hc] at he; exact absurd he List.not_mem_nil
    | some x => rw [hc] at he; exact hcov he
  · rw [State.pkg_modPkg_self] at he
    unfold noticed at he
    dsimp only at he
    rw [fget_fall] at he
    cases hc : flook (s.pkg k).tlb2 c with
    | none => rw [hc] at he; exact absurd he List.not_mem_nil
    | some x => rw [hc] at he; exact hcov he

theorem pageChanges : Claims.PageChanges := by
  refine ⟨?_, ?_, fun s k n c hc => vmChangeComplete_does hc, pageWalkComplete_does, invalidateNotice_does⟩
  · intro s m d a e r w he k va status hal hsp
    exact ⟨vmCommit_already he hal hsp, vmCommit_quota he hal hsp, fun f p h1 h2 hf hw hov => vmCommit_commits he hal hsp h1 h2 hf hw hov,
      vmFree_already he hal hsp, vmFree_frees he hal hsp⟩
  · intro s m d a e he k asks b
    refine ⟨fun hp => (vmInstr_each he hp).1, fun hp => (vmInstr_each he hp).2.1, fun hp => (vmInstr_each he hp).2.2,
      fun hp hpast h4 => (tlbInv_each he hp h4).1 hpast, fun hp hpast h4 => (tlbInv_each he hp h4).2 hpast, fun ha i hi => ?_⟩
    simp only [List.mem_cons, List.not_mem_nil, or_false] at hi
    rcases hi with rfl | rfl | rfl | rfl
    · exact vmInstr_user he rfl ha
    · exact vmInstr_user he rfl ha
    · exact vmInstr_user he rfl ha
    · exact tlbInv_user he ha

/-- Settles O29: the heap's lists through `heapList` after an update of one class; a commit as stores into memory alone; a change
as what it adds to its package and to the lanes; the last step of a change, and the end of a walk, by what each stage keeps. -/
theorem heapAndPages : Obligations.HeapAndPages := ⟨heapBlocks, pageChanges⟩

end Sys2Proof
end

