-- ==== Sys2Proof/Proofs/EngineCommands.lean ====
section
/-! SUPPORT. Engine commands as they are accepted, windows, and the start of a remote copy (R204 to R214, R229). -/

namespace Sys2Proof
open Machine

/-! ### Acceptance -/

/-- What an accepted command leaves: it stands last among its package's, and the lanes go on. -/
def Accepted (s : State) (eng id total : Nat) (cmd : Cmd) (f : Nat → Lane → Lane) (t : State) : Prop :=
  t.mem = s.mem ∧ t.writes = s.writes ∧
  (∃ srcs dsts, (t.pkg s.curPkg).cmds = (s.pkg s.curPkg).cmds ++ [{ CmdRec.blank with
    id := id, tid := s.curTid, wid := s.cur.wid, core := s.curTroupe.core, ctx := s.curCtx, engine := eng, cmd := cmd, total := total, srcs := srcs, dsts := dsts }]) ∧
  LanesBecome s t (fun l x => goOn s l (f l x))
/-- What R204 says of a checked command: it waits for its pages, it waits for room, or it is accepted. -/
def Accepts (i : Instr) (s : State) (eng : Nat) (vas : List W64) (id total : Nat) (cmd : Cmd) (f : Nat → Lane → Lane) : Prop :=
  (((s.pkg s.curPkg).engineFor (s.curTroupe.core / 256) = some eng → s.walkWait .g vas = true → After i s (fun t => WaitsForWalks i s t vas)) ∧
    (s.walkWait .g vas = false → (s.pkg s.curPkg).engineFor (s.curTroupe.core / 256) = some eng → After i s (Accepted s eng id total cmd f))) ∧
  ((s.pkg s.curPkg).engineFor (s.curTroupe.core / 256) = none → After i s (Waits i s))
/-- The state with a command accepted. -/
def cmdAccepted (s : State) (vas : List W64) (c : CmdRec) (eng : Nat) : State :=
  ({ s with nextId := s.nextId + 1 }.walked .g vas).modPkg s.curPkg (fun p => { p with cmds := p.cmds ++
    [{ c with id := s.nextId, tid := s.curTid, wid := s.cur.wid, core := s.curTroupe.core, ctx := s.curCtx, engine := eng }] })

section
variable {s : State} {i : Instr} {vas : List W64} {c : CmdRec} {go : State → Nat → State} {eng : Nat}
theorem acceptCmd_full (h : (s.pkg s.curPkg).engineFor (s.curTroupe.core / 256) = none) : acceptCmd i s vas c go = waitAt s i := by
  unfold acceptCmd
  dsimp only
  rw [show (s.pkg s.curTroupe.pkg).engineFor (clusterOf s.curTroupe.core) = none from h]
section
variable (h : (s.pkg s.curPkg).engineFor (s.curTroupe.core / 256) = some eng)
include h
theorem acceptCmd_walks (hw : s.walkWait .g vas = true) : acceptCmd i s vas c go = waitAt (s.missed .g vas) i := by
  unfold acceptCmd
  dsimp only
  rw [show (s.pkg s.curTroupe.pkg).engineFor (clusterOf s.curTroupe.core) = some eng from h]
  exact if_pos hw
theorem acceptCmd_accepts (hw : s.walkWait .g vas = false) : acceptCmd i s vas c go = go (cmdAccepted s vas c eng) s.nextId := by
  unfold acceptCmd
  dsimp only
  rw [show (s.pkg s.curTroupe.pkg).engineFor (clusterOf s.curTroupe.core) = some eng from h]
  exact if_neg (by rw [hw]; decide)
end
theorem cmdAccepted_rest : (cmdAccepted s vas c eng).mem = s.mem ∧ (cmdAccepted s vas c eng).writes = s.writes ∧ (cmdAccepted s vas c eng).waves = s.waves ∧
    (cmdAccepted s vas c eng).cur = s.cur ∧ (cmdAccepted s vas c eng).troupes = s.troupes := by
  have h := walked_translated { s with nextId := s.nextId + 1 } .g vas
  exact ⟨h.mem, h.writes, h.waves, h.cur, h.troupes⟩
theorem cmdAccepted_cmds : ((cmdAccepted s vas c eng).pkg s.curPkg).cmds = (s.pkg s.curPkg).cmds ++
    [{ c with id := s.nextId, tid := s.curTid, wid := s.cur.wid, core := s.curTroupe.core, ctx := s.curCtx, engine := eng }] := by
  have h := congrArg Pkg.cmds ((walked_translated { s with nextId := s.nextId + 1 } .g vas).pkg s.curPkg)
  unfold cmdAccepted
  rw [State.pkg_modPkg_self]
  dsimp only
  rw [h]
  rfl
/-- A command that changes nothing but its package and the troupes' own records as it is accepted. -/
theorem accepts_of {total : Nat} {cmd : Cmd} (hx : exec i s = .next (acceptCmd i s vas { CmdRec.blank with cmd := cmd, total := total, srcs := c.srcs, dsts := c.dsts } go))
    (hgo : ∀ u n, u.waves = s.waves → u.cur = s.cur → u.troupes = s.troupes →
      ∃ v, go u n = finish v [] ∧ v.waves = s.waves ∧ v.cur = s.cur ∧ v.mem = u.mem ∧ v.writes = u.writes ∧ (v.pkg s.curPkg).cmds = (u.pkg s.curPkg).cmds) :
    Accepts i s eng vas s.nextId total cmd (fun _ x => x) := by
  refine ⟨⟨fun he hw => ⟨_, hx.trans (by rw [acceptCmd_walks he hw]), waitAt_missed i .g vas rfl⟩, fun hw he => ?_⟩,
    fun he => ⟨_, hx.trans (by rw [acceptCmd_full he]), waitAt_waits s i⟩⟩
  obtain ⟨h1, h2, h3, h4, h5⟩ := cmdAccepted_rest (s := s) (vas := vas) (c := { CmdRec.blank with cmd := cmd, total := total, srcs := c.srcs, dsts := c.dsts }) (eng := eng)
  have h6 := cmdAccepted_cmds (s := s) (vas := vas) (c := { CmdRec.blank with cmd := cmd, total := total, srcs := c.srcs, dsts := c.dsts }) (eng := eng)
  rw [acceptCmd_accepts he hw] at hx
  obtain ⟨v, hv, hvw, hvc, hvm, hvs, hvk⟩ := hgo _ s.nextId h3 h4 h5
  rw [hv] at hx
  refine ⟨_, hx, (mem_finish ..).trans (hvm.trans h1), ?_, ⟨c.srcs, c.dsts, ?_⟩, ((waveBecomes_refl s).of_waves hvw).ends rfl hvc⟩
  · rw [finish_nil]
    exact hvs.trans h2
  · rw [pkg_finish, hvk, h6]
end

theorem walkWait_of_same {s u : State} (hp : u.pkgs = s.pkgs) (hwk : u.walks = s.walks) (ht : u.curTroupe = s.curTroupe) (hc : u.cur = s.cur) (sp : Space) (vas : List W64) :
    u.walkWait sp vas = s.walkWait sp vas := by
  unfold State.walkWait State.missing State.answered State.core State.pkg
  rw [hp, hwk, ht, hc]
/-- What the lanes of `perm.load` are owed before its command is accepted. -/
theorem oweAll_same (s : State) (m : Mods) (d : Reg) (n : Nat) : (oweAll s m false d n).1.curTid = s.curTid ∧ (oweAll s m false d n).1.curTroupe = s.curTroupe := by
  have hb := (waveBecomes_refl s).oweAll (u := s) rfl m false d n
  have h : (oweAll s m false d n).1.curTid = s.curTid := WaveBecomes.curTid (f := fun _ x => owes m false s.nextId (dstRegs d n) x) hb rfl
  refine ⟨h, ?_⟩
  unfold State.curTroupe
  rw [h]
  rfl

theorem finish_troupeMod (s : State) (n : Nat) (f : Troupe → Troupe) : let t := finish (s.modTroupe n f) []
    GoesOn s t ∧ t.pkgs = s.pkgs ∧ t.mem = s.mem ∧ t.troupe n = f (s.troupe n) := by
  refine ⟨((waveBecomes_refl s).of_waves (u := s.modTroupe n f) rfl).finish rfl, ?_, mem_finish .., ?_⟩
  · rw [finish_nil]
    rfl
  · rw [troupe_finish, State.troupe_modTroupe_self]
/-- The state with a remote copy accepted, and its troupe locked (R405). -/
def rcopyAccepted (s : State) (vas : List W64) (c : CmdRec) : State :=
  (({ s with nextId := s.nextId + 1 }.setPkg s.curPkg (s.pkg s.curPkg)).walked .g vas).modPkg s.curPkg (fun p => { p with cmds := p.cmds ++ [c] })
    |>.modTroupe s.curTid (fun t => { t with lock := true })
theorem rcopyAccepted_does (s : State) (vas : List W64) (c : CmdRec) : (rcopyAccepted s vas c).mem = s.mem ∧ (rcopyAccepted s vas c).waves = s.waves ∧
    (rcopyAccepted s vas c).cur = s.cur ∧ ((rcopyAccepted s vas c).troupe s.curTid).lock = true ∧
    ((rcopyAccepted s vas c).pkg s.curPkg).cmds = (s.pkg s.curPkg).cmds ++ [c] := by
  have h := walked_translated ({ s with nextId := s.nextId + 1 }.setPkg s.curPkg (s.pkg s.curPkg)) .g vas
  have hp := congrArg Pkg.cmds (h.pkg s.curPkg)
  unfold rcopyAccepted
  generalize ({ s with nextId := s.nextId + 1 }.setPkg s.curPkg (s.pkg s.curPkg)).walked .g vas = u at h hp
  refine ⟨h.mem, h.waves, h.cur, by rw [State.troupe_modTroupe_self], ?_⟩
  rw [State.pkg_modTroupe, State.pkg_modPkg_self]
  dsimp only
  rw [hp, State.pkg_setPkg_self]

section
variable {s : State} {m : Mods} {d a : Reg} {e eng : Nat} (he : Elected s m e)
include he

/-! ### `tc.copy` -/

section
variable (h1 : bf (s.block e a 6) 4 31 28 = 0) (h2 : bf (s.block e a 6) 4 27 26 ≤ 1) (h3 : bf (s.block e a 6) 4 25 24 ≤ 1)
  (h4 : 16 ≤ bf (s.block e a 6) 4 23 0) (h5 : bf (s.block e a 6) 4 23 0 % 16 = 0)
  (h6 : bf (s.block e a 6) 4 25 24 = 1 → bw (s.block e a 6) 1 = 0) (h7 : bf (s.block e a 6) 4 27 26 = 1 → bw (s.block e a 6) 3 = 0)
include h1 h2 h3 h4 h5 h6 h7
theorem tcCopy_accepts
    (hs : s.rangeX (Machine.spaceOf (bf (s.block e a 6) 4 25 24)) .load (bd (s.block e a 6) 0) (bf (s.block e a 6) 4 23 0) 16 = none)
    (hd : s.rangeX (Machine.spaceOf (bf (s.block e a 6) 4 27 26)) .store (bd (s.block e a 6) 2) (bf (s.block e a 6) 4 23 0) 16 = none)
    (hb : s.barBad (bw (s.block e a 6) 5) = none)
    (hdet : bf (s.block e a 6) 4 27 26 = 0 → s.rangeDet (bd (s.block e a 6) 2) (bf (s.block e a 6) 4 23 0) = none) :
    Accepts (.tcCopy m a) s eng (vasOf (Machine.spaceOf (bf (s.block e a 6) 4 25 24)) (bd (s.block e a 6) 0) (bf (s.block e a 6) 4 23 0) ++
      vasOf (Machine.spaceOf (bf (s.block e a 6) 4 27 26)) (bd (s.block e a 6) 2) (bf (s.block e a 6) 4 23 0)) s.nextId (bf (s.block e a 6) 4 23 0)
      (.copy (Machine.spaceOf (bf (s.block e a 6) 4 25 24)) (Machine.spaceOf (bf (s.block e a 6) 4 27 26)) false (bd (s.block e a 6) 0) (bd (s.block e a 6) 2)
        (bf (s.block e a 6) 4 23 0) (bw (s.block e a 6) 5)) (fun _ x => x) := by
  have hparam : (bf (s.block e a 6) 4 31 28 != 0 || bf (s.block e a 6) 4 27 26 == 3 || decide (2 ≤ bf (s.block e a 6) 4 25 24) || decide (bf (s.block e a 6) 4 23 0 < 16) ||
      bf (s.block e a 6) 4 23 0 % 16 != 0 || (bf (s.block e a 6) 4 25 24 == 1 && bw (s.block e a 6) 1 != 0) ||
      (bf (s.block e a 6) 4 27 26 != 0 && bw (s.block e a 6) 3 != 0)) = false := by
    have h7' : bf (s.block e a 6) 4 27 26 ≠ 0 → bw (s.block e a 6) 3 = 0 := fun h => h7 (by omega)
    simp only [Bool.or_eq_false_iff, Bool.and_eq_false_iff, bne_eq_false_iff_eq, beq_eq_false_iff_ne, decide_eq_false_iff_not]
    refine ⟨⟨⟨⟨⟨⟨h1, by omega⟩, by omega⟩, by omega⟩, h5⟩, ?_⟩, ?_⟩
    · exact (em _).elim (fun h => .inr (h6 h)) .inl
    · exact (em _).elim .inl (fun h => .inr (h7' h))
  have h2' : ¬bf (s.block e a 6) 4 27 26 = 2 := by omega
  have h2b : (bf (s.block e a 6) 4 27 26 == 2) = false := beq_false_of_ne h2'
  have hdet' : (if bf (s.block e a 6) 4 27 26 = 0 then s.rangeDet (bd (s.block e a 6) 2) (bf (s.block e a 6) 4 23 0) else none) = none := by
    split
    next h => exact hdet h
    next => rfl
  refine accepts_of (c := { CmdRec.blank with
      srcs := s.unitsOf (Machine.spaceOf (bf (s.block e a 6) 4 25 24)) .load (bd (s.block e a 6) 0) (bf (s.block e a 6) 4 23 0)
      dsts := s.unitsOf (Machine.spaceOf (bf (s.block e a 6) 4 27 26)) .store (bd (s.block e a 6) 2) (bf (s.block e a 6) 4 23 0) })
    (go := fun u _ => finish (if bf (s.block e a 6) 4 27 26 = 0 then u.modTroupe u.curTid (fun t => { t with lock := true }) else u) []) ?_ fun u n hw hc ht => ?_
  · refine Eq.trans (show _ = execTcCopy m a s from rfl) ?_
    unfold execTcCopy
    rw [elected_eq he]
    dsimp only
    rw [hparam, h2b, if_neg h2', if_neg h2', hs, hd, hb, hdet']
    rfl
  · refine ⟨_, rfl, ?_⟩
    split <;> exact ⟨hw, hc, rfl, rfl, rfl⟩
end
theorem tcCopy_refuses (ha : Alone s) (h : bf (s.block e a 6) 4 23 0 % 16 ≠ 0) : After (.tcCopy m a) s (fun t => StopsActive s t m 0x10 0x11 0) := by
  refine refused he ha (sub := .param) ?_
  refine Eq.trans (show _ = execTcCopy m a s from rfl) ?_
  unfold execTcCopy
  rw [elected_eq he]
  dsimp only
  have hp : (bf (s.block e a 6) 4 23 0 % 16 != 0) = true := bne_iff_ne.2 h
  simp only [hp, Bool.or_true, Bool.true_or, Bool.not_true, Bool.false_and, Bool.false_eq_true, if_false]
  rfl

/-! ### `tc.mcast` and `perm.load` -/

theorem tcMcast_accepts {r : TileRef} {key : Nat} {h : RingHdr} (h1 : bf (s.block e a 4) 3 31 28 = 0) (h2 : s.headWait e (bw (s.block e a 4) 2) = false)
    (h3 : s.head (bw (s.block e a 4) 2) = .at_ r key) (h4 : s.ring key = some h) (h5 : h.kind = 1)
    (h6 : s.rangeG .load (bd (s.block e a 4) 0) (4096 * h.tps) 16 = none)
    (h7 : ∀ c ∈ consumers h (bf (s.block e a 4) 3 7 0), s.consBad h (bf (s.block e a 4) 3 27 8) c = none) :
    Accepts (.tcMcast m a) s eng (vasOf .g (bd (s.block e a 4) 0) (4096 * h.tps)) s.nextId (4096 * h.tps)
      (.mcast (bd (s.block e a 4) 0) (bw (s.block e a 4) 2) (bf (s.block e a 4) 3 27 8) (bf (s.block e a 4) 3 7 0)) (fun _ x => x) := by
  refine accepts_of (c := { CmdRec.blank with srcs := s.unitsOf .g .load (bd (s.block e a 4) 0) (4096 * h.tps), dsts := [] })
    (go := fun u _ => finish u []) ?_ fun u n hw hc ht => ⟨u, rfl, hw, hc, rfl, rfl, rfl⟩
  have hno : (none :: (consumers h (bf (s.block e a 4) 3 7 0)).map (s.consBad h (bf (s.block e a 4) 3 27 8))).findSome? (fun x => x) = none := by
    rw [List.findSome?_eq_none_iff]
    intro x hx
    rcases List.mem_cons.1 hx with rfl | hx
    · rfl
    · obtain ⟨c, hc, rfl⟩ := List.mem_map.1 hx
      exact h7 c hc
  refine Eq.trans (show _ = execTcMcast m a s from rfl) ?_
  unfold execTcMcast
  rw [elected_eq he]
  dsimp only
  rw [if_neg (not_not.2 h1), h2, if_neg (by decide), h3]
  dsimp only
  rw [h4]
  dsimp only
  rw [if_neg (not_not.2 h5), h6]
  unfold engGo
  rw [if_neg Bool.false_ne_true, hno]
  rfl
section
variable (h1 : bf (s.block e a 4) 0 31 2 = 0) (h2 : 1 ≤ (bw (s.block e a 4) 1).toNat) (h3 : (bw (s.block e a 4) 1).toNat ≤ 4096) (h4 : s.curTroupe.hdr.acc ≠ 0)
  (h5 : s.rangeG .load (bd (s.block e a 4) 2) (2 * (bw (s.block e a 4) 1).toNat) 16 = none)
include h1 h2 h3 h4 h5
theorem permLoad_eq : exec (.permLoad m d a) s = .next (match (s.pkg s.curPkg).engineFor (clusterOf s.curTroupe.core) with
    | none => waitAt s (.permLoad m d a)
    | some _ => if s.walkWait .g (vasOf .g (bd (s.block e a 4) 2) (2 * (bw (s.block e a 4) 1).toNat)) then
        waitAt (s.missed .g (vasOf .g (bd (s.block e a 4) 2) (2 * (bw (s.block e a 4) 1).toNat))) (.permLoad m d a)
      else acceptCmd (.permLoad m d a) (oweAll s m false d 1).1 (vasOf .g (bd (s.block e a 4) 2) (2 * (bw (s.block e a 4) 1).toNat))
        { CmdRec.blank with
          cmd := .perm (bf (s.block e a 4) 0 1 0) (bw (s.block e a 4) 1).toNat (bd (s.block e a 4) 2) (maskOf (s.activeLanes m)) d (oweAll s m false d 1).2
          total := 2 * (bw (s.block e a 4) 1).toNat, srcs := s.unitsOf .g .load (bd (s.block e a 4) 2) (2 * (bw (s.block e a 4) 1).toNat) }
        (fun u _ => finish u [])) := by
  refine Eq.trans (show _ = execPermLoad m d a s from rfl) ?_
  unfold execPermLoad
  rw [elected_eq he]
  dsimp only
  rw [if_neg (by omega), if_neg h4, h5]
  rfl
theorem permLoad_accepts : Accepts (.permLoad m d a) s eng (vasOf .g (bd (s.block e a 4) 2) (2 * (bw (s.block e a 4) 1).toNat)) (s.nextId + 1)
    (2 * (bw (s.block e a 4) 1).toNat) (.perm (bf (s.block e a 4) 0 1 0) (bw (s.block e a 4) 1).toNat (bd (s.block e a 4) 2) (maskOf (s.activeLanes m)) d s.nextId)
    (fun _ x => owes m false s.nextId (regs1 d) x) := by
  have hx := permLoad_eq (d := d) he h1 h2 h3 h4 h5
  generalize vasOf .g (bd (s.block e a 4) 2) (2 * (bw (s.block e a 4) 1).toNat) = vas at hx ⊢
  refine ⟨⟨fun hf hw => ?_, fun hw hf => ?_⟩, fun hf => ?_⟩
  · rw [show (s.pkg s.curPkg).engineFor (clusterOf s.curTroupe.core) = some eng from hf] at hx
    dsimp only at hx
    rw [if_pos hw] at hx
    exact ⟨_, hx, waitAt_missed _ .g vas rfl⟩
  · rw [show (s.pkg s.curPkg).engineFor (clusterOf s.curTroupe.core) = some eng from hf] at hx
    dsimp only at hx
    obtain ⟨htid, htr⟩ := oweAll_same s m d 1
    have hb := (waveBecomes_refl s).oweAll (u := s) rfl m false d 1
    rw [dstRegs_one] at hb
    have hsame : (oweAll s m false d 1).1.pkgs = s.pkgs ∧ (oweAll s m false d 1).1.walks = s.walks ∧ (oweAll s m false d 1).1.cur = s.cur ∧
      (oweAll s m false d 1).1.mem = s.mem ∧ (oweAll s m false d 1).1.writes = s.writes ∧ (oweAll s m false d 1).1.nextId = s.nextId + 1 ∧
      (oweAll s m false d 1).2 = s.nextId := ⟨rfl, rfl, rfl, rfl, rfl, rfl, rfl⟩
    obtain ⟨hp, hwk, hc, hm, hws, hn, hid⟩ := hsame
    rw [hid] at hx
    generalize (oweAll s m false d 1).1 = u at hx htid htr hb hp hwk hc hm hws hn
    have hk : u.curPkg = s.curPkg := by unfold State.curPkg; rw [htr]
    have hpk : ∀ j, u.pkg j = s.pkg j := fun j => by unfold State.pkg; rw [hp]
    have hf' : (u.pkg u.curPkg).engineFor (u.curTroupe.core / 256) = some eng := by rw [hk, hpk, htr]; exact hf
    rw [hw, if_neg (by decide), acceptCmd_accepts hf' ((walkWait_of_same hp hwk htr hc .g vas).trans hw)] at hx
    obtain ⟨g1, g2, g3, g4, g5⟩ := cmdAccepted_rest (s := u) (vas := vas) (eng := eng) (c := { CmdRec.blank with
          cmd := .perm (bf (s.block e a 4) 0 1 0) (bw (s.block e a 4) 1).toNat (bd (s.block e a 4) 2) (maskOf (s.activeLanes m)) d s.nextId
          total := 2 * (bw (s.block e a 4) 1).toNat, srcs := s.unitsOf .g .load (bd (s.block e a 4) 2) (2 * (bw (s.block e a 4) 1).toNat) })
    have g6 := cmdAccepted_cmds (s := u) (vas := vas) (eng := eng) (c := { CmdRec.blank with
          cmd := .perm (bf (s.block e a 4) 0 1 0) (bw (s.block e a 4) 1).toNat (bd (s.block e a 4) 2) (maskOf (s.activeLanes m)) d s.nextId
          total := 2 * (bw (s.block e a 4) 1).toNat, srcs := s.unitsOf .g .load (bd (s.block e a 4) 2) (2 * (bw (s.block e a 4) 1).toNat) })
    refine ⟨_, hx, (mem_finish ..).trans (g1.trans hm), ?_, ⟨s.unitsOf .g .load (bd (s.block e a 4) 2) (2 * (bw (s.block e a 4) 1).toNat), [], ?_⟩,
      hb.ends g3 (g4.trans hc)⟩
    · rw [finish_nil]
      exact g2.trans hws
    · have hctx : u.curCtx = s.curCtx := by unfold State.curCtx; rw [htr]
      rw [hk, hpk, htr, htid, hn, hctx, hc] at g6
      rw [pkg_finish]
      exact g6
  · rw [show (s.pkg s.curPkg).engineFor (clusterOf s.curTroupe.core) = none from hf] at hx
    exact ⟨_, hx, waitAt_waits s _⟩
end

/-! ### `tc.ob` of raw bytes -/

theorem tcOb_accepts {w : Window} (h1 : bf (s.block e a 4) 0 31 28 = 0) (h2 : bf (s.block e a 4) 3 31 20 = 0) (h3 : bf (s.block e a 4) 0 7 5 = 4)
    (h4 : bf (s.block e a 4) 0 4 4 = 0) (h5 : flook s.curTroupe.windows (bf (s.block e a 4) 0 3 0) = some w) (h6 : w.pen = false)
    (h7 : bf (s.block e a 4) 0 27 8 % 16 = 0) (h8 : bf (s.block e a 4) 3 19 0 % 16 = 0) (h9 : 0 < bf (s.block e a 4) 3 19 0)
    (h10 : bf (s.block e a 4) 0 27 8 + bf (s.block e a 4) 3 19 0 ≤ w.size * 1024)
    (h11 : s.rangeG .load (bd (s.block e a 4) 1) (bf (s.block e a 4) 3 19 0) 16 = none) :
    Accepts (.tcOb m a) s eng (vasOf .g (bd (s.block e a 4) 1) (bf (s.block e a 4) 3 19 0)) s.nextId (bf (s.block e a 4) 3 19 0)
      (.ob (bf (s.block e a 4) 0 3 0) true (bf (s.block e a 4) 0 27 8) 0 .g (bd (s.block e a 4) 1) (bf (s.block e a 4) 3 19 0)) (fun _ x => x) := by
  have htop : bf (s.block e a 4) 0 7 7 = 1 ∧ bf (s.block e a 4) 0 6 5 = 0 := by
    unfold bf at h3 ⊢
    rw [nbits_div] at h3 ⊢
    rw [nbits_div]
    omega
  refine accepts_of (c := { CmdRec.blank with
      srcs := (([(bd (s.block e a 4) 1, bf (s.block e a 4) 3 19 0)].map (fun r => s.unitsOf .g .load r.1 r.2)).flatten).dedup, dsts := [] })
    (go := fun u id => finish (u.addItem u.curTid u.cur.wid (.fill (bf (s.block e a 4) 0 3 0) id) []) []) ?_ fun u n hw hc ht => ?_
  · refine Eq.trans (show _ = execTcOb m a s from rfl) ?_
    unfold execTcOb
    rw [elected_eq he]
    dsimp only
    have hwin : s.window? s.curTid (bf (s.block e a 4) 0 3 0) = some w := h5
    rw [h1, h2, h4, htop.1, htop.2, hwin]
    have hoff : (bf (s.block e a 4) 0 27 8 % 16 != 0) = false := bne_eq_false_iff_eq.2 h7
    have hlen : (bf (s.block e a 4) 3 19 0 % 16 != 0) = false := bne_eq_false_iff_eq.2 h8
    have hfit : decide (w.bytes < bf (s.block e a 4) 0 27 8 + bf (s.block e a 4) 3 19 0) = false := decide_eq_false (by unfold Window.bytes; omega)
    have hrange : [(bd (s.block e a 4) 1, bf (s.block e a 4) 3 19 0)].findSome? (fun r => if r.2 = 0 then none else
        s.rangeX (Machine.spaceOf 0) .load r.1 r.2 (if r.1 = bd (s.block e a 4) 1 then 16 else 1)) = none := by
      rw [List.findSome?_eq_none_iff]
      intro x hx
      rw [List.mem_singleton.1 hx, if_neg (by dsimp only; omega), if_pos rfl]
      exact h11
    have hv : ([(bd (s.block e a 4) 1, bf (s.block e a 4) 3 19 0)].map (fun r => vasOf (Machine.spaceOf 0) r.1 r.2)).flatten =
      vasOf .g (bd (s.block e a 4) 1) (bf (s.block e a 4) 3 19 0) := List.append_nil _
    rw [if_neg (by simp)]
    dsimp only
    rw [h6]
    simp only [beq_self_eq_true, if_true, hoff, hlen, hfit, hrange, hv, Bool.false_and, Bool.false_or, if_false, Bool.false_eq_true, bne_self_eq_false]
    rw [if_neg (by omega)]
    rfl
  · refine ⟨_, rfl, hw, hc, rfl, rfl, ?_⟩
    unfold State.addItem State.modMx
    rw [State.pkg_modCore]
    split
    next hk => rw [hk]; rfl
    next => rfl

/-! ### Windows -/

theorem obRsv_reserves {n : Nat} {w : Window} (h : windowOf s.curTroupe (s.pkg s.curPkg) (s.block e a 4) = some (n, w)) : After (.obRsv m a) s (fun t =>
    GoesOn s t ∧ t.pkgs = s.pkgs ∧ t.mem = s.mem ∧ flook (t.troupe s.curTid).windows n = some { w with gen := s.fresh } ∧
    ∀ n', n' ≠ n → flook (t.troupe s.curTid).windows n' = flook s.curTroupe.windows n') := by
  have hx : exec (.obRsv m a) s = .next (finish (({ s with fresh := s.fresh + 1 }).modTroupe s.curTid (fun t =>
      { t with windows := fput t.windows n { w with gen := s.fresh } })) []) := by
    refine Eq.trans (show _ = execObRsv m a s from rfl) ?_
    unfold execObRsv
    rw [elected_eq he]
    dsimp only
    rw [h]
  obtain ⟨g1, g2, g3, g4⟩ := finish_troupeMod { s with fresh := s.fresh + 1 } s.curTid (fun t => { t with windows := fput t.windows n { w with gen := s.fresh } })
  refine ⟨_, hx, ⟨g1.waves, g1.rest, g1.lanes⟩, g2, g3, ?_, fun n' hn => ?_⟩ <;> rw [g4]
  · exact (flook_fput ..).trans (if_pos rfl)
  · exact (flook_fput ..).trans (if_neg hn)
theorem obRel_releases (h1 : (s.src s.cur.wid e a).toNat < 16) (h2 : (flook s.curTroupe.windows (s.src s.cur.wid e a).toNat).isSome = true) :
    let n := (s.src s.cur.wid e a).toNat
    let busy := ((s.mxCore s.curTid).items s.curTid).any (fun y => y.work.usesWin n)
    (busy = true → After (.obRel m a) s (Waits (.obRel m a) s)) ∧
    (busy = false → After (.obRel m a) s (fun t => GoesOn s t ∧ t.pkgs = s.pkgs ∧ t.mem = s.mem ∧
      flook (t.troupe s.curTid).windows n = none ∧ ∀ n', n' ≠ n → flook (t.troupe s.curTid).windows n' = flook s.curTroupe.windows n')) := by
  intro n busy
  have hx : exec (.obRel m a) s = .next (if busy = true then waitAt s (.obRel m a) else
      finish (s.modTroupe s.curTid (fun t => { t with windows := fdel t.windows n })) []) := by
    refine Eq.trans (show _ = execObRel m a s from rfl) ?_
    unfold execObRel
    rw [elected_eq he]
    dsimp only
    have hwin : (s.window? s.curTid (s.src s.cur.wid e a).toNat).isNone = false := by
      rw [show s.window? s.curTid (s.src s.cur.wid e a).toNat = flook s.curTroupe.windows (s.src s.cur.wid e a).toNat from rfl, ← Option.not_isSome, h2]
      rfl
    rw [if_neg (by omega), hwin, if_neg (by decide)]
    change _ = Host.Outcome.next (if (((s.mxCore s.curTid).items s.curTid).any (fun y => y.work.usesWin (s.src s.cur.wid e a).toNat)) = true then _ else _)
    split <;> rfl
  obtain ⟨g1, g2, g3, g4⟩ := finish_troupeMod s s.curTid (fun t => { t with windows := fdel t.windows n })
  refine ⟨fun hb => ⟨_, hx.trans (by rw [if_pos hb]), waitAt_waits s _⟩, fun hb => ⟨_, hx.trans (by rw [if_neg (by rw [hb]; decide)]), g1, g2, g3, ?_, fun n' hn => ?_⟩⟩ <;> rw [g4]
  · exact (flook_fdel ..).trans (if_pos rfl)
  · exact (flook_fdel ..).trans (if_neg hn)

/-! ### `rcopy` -/

section
variable {spr : Bool} {h : Nat} (h1 : bf (s.block e a 8) 4 31 24 = 0) (h2 : 64 ≤ bf (s.block e a 8) 4 23 0) (h3 : bf (s.block e a 8) 4 23 0 % 64 = 0)
  (h4 : bw (s.block e a 8) 7 = 0) (h5 : bw (s.block e a 8) 5 = 0) (h6 : s.rangeG .load (bd (s.block e a 8) 0) (bf (s.block e a 8) 4 23 0) 64 = none)
  (h7 : s.rcopyHome (bd (s.block e a 8) 2) (bf (s.block e a 8) 4 23 0) = .inr h) (h8 : s.barBad (bw (s.block e a 8) 6) = none)
  (h9 : s.rangeDet (bd (s.block e a 8) 2) (bf (s.block e a 8) 4 23 0) = none)
  (h10 : s.walkWait .g (vasOf .g (bd (s.block e a 8) 0) (bf (s.block e a 8) 4 23 0) ++ vasOf .g (bd (s.block e a 8) 2) (bf (s.block e a 8) 4 23 0)) = false)
include h1 h2 h3 h4 h5 h6 h7 h8 h9 h10
theorem rcopy_eq : exec (.rcopy m false false spr d a) s = .next (
    let b := s.block e a 8
    let len := bf b 4 23 0
    if s.routeRoom (s.route spr (bd b 2) h) h 66 = true then
      finish (rcopyAccepted s (vasOf .g (bd b 0) len ++ vasOf .g (bd b 2) len) { CmdRec.blank with
        id := s.nextId, tid := s.curTid, wid := s.cur.wid, core := s.curTroupe.core, ctx := s.curCtx, engine := 255
        cmd := .rcopy .g (bd b 0) (bd b 2) h len (bw b 6) 0 0 (s.route spr (bd b 2) h), total := len
        srcs := s.unitsOf .g .load (bd b 0) len }) []
    else waitAt (s.missed .g (vasOf .g (bd b 0) len ++ vasOf .g (bd b 2) len)) (.rcopy m false false spr d a)) := by
  have htop : bf (s.block e a 8) 4 31 25 = 0 ∧ bf (s.block e a 8) 4 24 24 = 0 := by
    unfold bf at h1 ⊢
    rw [nbits_div] at h1 ⊢
    rw [nbits_div]
    omega
  refine Eq.trans (show _ = execRcopy m false false spr d a s from rfl) ?_
  unfold execRcopy
  rw [elected_eq he]
  dsimp only
  rw [htop.1, htop.2, h4, h5, if_neg (by simp [Machine.spaceOf]; omega), if_neg (by decide)]
  rw [show s.rangeX (Machine.spaceOf 0) .load (bd (s.block e a 8) 0) (bf (s.block e a 8) 4 23 0) 64 = none from h6]
  dsimp only
  rw [h7]
  dsimp only
  rw [h8, h9]
  dsimp only [List.findSome?]
  rw [show Machine.spaceOf 0 = Space.g from rfl, h10, Bool.false_or]
  cases s.routeRoom (s.route spr (bd (s.block e a 8) 2) h) h 66 <;> rfl
theorem rcopy_waits (hr : s.routeRoom (s.route spr (bd (s.block e a 8) 2) h) h 66 = false) :
    After (.rcopy m false false spr d a) s (Waits (.rcopy m false false spr d a) s) := by
  refine ⟨_, (rcopy_eq (d := d) (spr := spr) he h1 h2 h3 h4 h5 h6 h7 h8 h9 h10).trans ?_, waitAt_plain h10⟩
  dsimp only
  rw [if_neg (by rw [hr]; decide)]
theorem rcopy_starts (hr : s.routeRoom (s.route spr (bd (s.block e a 8) 2) h) h 66 = true) :
    After (.rcopy m false false spr d a) s (fun t => t.mem = s.mem ∧ GoesOn s t ∧ (t.troupe s.curTid).lock = true ∧
      ∃ c, (t.pkg s.curPkg).cmds = (s.pkg s.curPkg).cmds ++ [c] ∧ c.id = s.nextId ∧ c.wid = s.cur.wid ∧ c.total = bf (s.block e a 8) 4 23 0 ∧ c.read = 0 ∧
        c.cmd = .rcopy .g (bd (s.block e a 8) 0) (bd (s.block e a 8) 2) h (bf (s.block e a 8) 4 23 0) (bw (s.block e a 8) 6) 0 0
          (s.route spr (bd (s.block e a 8) 2) h)) := by
  have hx := rcopy_eq (d := d) (spr := spr) he h1 h2 h3 h4 h5 h6 h7 h8 h9 h10
  dsimp only at hx
  rw [if_pos hr] at hx
  obtain ⟨g1, g2, g3, g4, g5⟩ := rcopyAccepted_does s (vasOf .g (bd (s.block e a 8) 0) (bf (s.block e a 8) 4 23 0) ++
    vasOf .g (bd (s.block e a 8) 2) (bf (s.block e a 8) 4 23 0)) { CmdRec.blank with
        id := s.nextId, tid := s.curTid, wid := s.cur.wid, core := s.curTroupe.core, ctx := s.curCtx, engine := 255
        cmd := .rcopy .g (bd (s.block e a 8) 0) (bd (s.block e a 8) 2) h (bf (s.block e a 8) 4 23 0) (bw (s.block e a 8) 6) 0 0 (s.route spr (bd (s.block e a 8) 2) h)
        total := bf (s.block e a 8) 4 23 0
        srcs := s.unitsOf .g .load (bd (s.block e a 8) 0) (bf (s.block e a 8) 4 23 0) }
  exact ⟨_, hx, (mem_finish ..).trans g1, ((waveBecomes_refl s).of_waves g2).finish g3, by rw [troupe_finish]; exact g4,
    _, by rw [pkg_finish]; exact g5, rfl, rfl, rfl, rfl, rfl⟩
end
end

theorem engineCommands : Claims.EngineCommands := by
  intro s m d a e eng he k die accepts full none_
  have hsplit : ∀ {i : Instr} {vas : List W64} {id total : Nat} {cmd : Cmd} {f : Nat → Lane → Lane}, Accepts i s eng vas id total cmd f →
      accepts i vas id total cmd f ∧ full i := fun h => h
  refine ⟨⟨fun h1 h2 h3 h4 h5 h6 h7 hs hd hb hdet => hsplit (tcCopy_accepts he h1 h2 h3 h4 h5 h6 h7 hs hd hb hdet), tcCopy_refuses he⟩,
    ⟨fun r key h h1 h2 h3 h4 h5 h6 h7 => hsplit (tcMcast_accepts he h1 h2 h3 h4 h5 h6 h7), fun h1 h2 h3 h4 h5 => hsplit (permLoad_accepts he h1 h2 h3 h4 h5)⟩,
    fun w h1 h2 h3 h4 h5 h6 h7 h8 h9 h10 h11 => hsplit (tcOb_accepts he h1 h2 h3 h4 h5 h6 h7 h8 h9 h10 h11), fun n w => obRsv_reserves he, obRel_releases he,
    fun spr h h1 h2 h3 h4 h5 h6 h7 h8 h9 h10 => ⟨rcopy_waits he h1 h2 h3 h4 h5 h6 h7 h8 h9 h10, rcopy_starts he h1 h2 h3 h4 h5 h6 h7 h8 h9 h10⟩⟩

end Sys2Proof
end

