-- ==== Sys2Proof/Proofs/EngineWork.lean ====
section
/-! SUPPORT. Engines at work: units read and written, slots filled, budget periods (R210, R341 to R344, R347, R348). -/

namespace Sys2Proof
open Machine

/-! ### A command among the others -/

theorem find?_modCmd {p : Pkg} {n : Nat} {f : CmdRec → CmdRec} (hf : ∀ c, (f c).id = c.id) {c : CmdRec} (h : p.cmd? n = some c) (hid : c.id = n) :
    (p.modCmd n f).cmds.find? (fun x => x.id == n) = some (f c) := by
  unfold Pkg.modCmd Pkg.cmd? at *
  dsimp only
  have hp : ((fun x : CmdRec => x.id == n) ∘ fun c => if c.id = n then f c else c) = fun x => x.id == n := by
    funext x
    dsimp only [Function.comp]
    split
    · rw [hf]
    · rfl
  rw [List.find?_map, hp, h, Option.map_some, if_pos hid]
theorem ids_modCmd (p : Pkg) (n : Nat) {f : CmdRec → CmdRec} (hf : ∀ c, (f c).id = c.id) : (p.modCmd n f).cmds.map (fun x => x.id) = p.cmds.map (fun x => x.id) := by
  unfold Pkg.modCmd
  rw [List.map_map]
  refine List.map_congr_left fun c _ => ?_
  dsimp only [Function.comp]
  split
  · exact hf c
  · rfl
theorem id_of_mem_dropCmd {p : Pkg} {n : Nat} {x : CmdRec} (h : x ∈ (p.dropCmd n).cmds) : x.id ≠ n := by simpa using (List.mem_filter.1 h).2
theorem cmdOver_copy {s : State} {k : Nat} {c : CmdRec} {sp dp : Space} {ring : Bool} {src dst : W64} {len : Nat} {bb : W32}
    (hc : c.cmd = .copy sp dp ring src dst len bb) : s.cmdOver k c = s.modPkg k (fun p => p.dropCmd c.id) := by
  unfold State.cmdOver
  dsimp only
  rw [hc]

/-! ### Commands and tests as a stop leaves them -/

/-- No package has a new command, and the tests of each are as they were. -/
structure CmdsShrink (s t : State) : Prop where
  cmds : ∀ j, ∀ x ∈ (t.pkg j).cmds, x ∈ (s.pkg j).cmds
  tests : ∀ j, (t.pkg j).phys.tests = (s.pkg j).phys.tests
theorem CmdsShrink.refl (s : State) : CmdsShrink s s := ⟨fun _ _ h => h, fun _ => rfl⟩
theorem CmdsShrink.trans {s t u : State} (h : CmdsShrink s t) (h' : CmdsShrink t u) : CmdsShrink s u :=
  ⟨fun j x hx => h.cmds j x (h'.cmds j x hx), fun j => (h'.tests j).trans (h.tests j)⟩
theorem modPkg_cmdsShrink {s : State} {k : Nat} {f : Pkg → Pkg} (h1 : ∀ x ∈ (f (s.pkg k)).cmds, x ∈ (s.pkg k).cmds)
    (h2 : (f (s.pkg k)).phys.tests = (s.pkg k).phys.tests) : CmdsShrink s (s.modPkg k f) := by
  refine ⟨fun j x hx => ?_, fun j => ?_⟩
  · rw [State.pkg_modPkg] at hx
    split at hx
    next h => rw [h]; exact h1 x hx
    next => exact hx
  · rw [State.pkg_modPkg]
    split
    next h => rw [h]; exact h2
    next => rfl
theorem clearContext_cmdsShrink (s : State) (k : Nat) (c : W32) : CmdsShrink s (clearContext s k c) := by
  unfold clearContext
  dsimp only
  exact CmdsShrink.trans (t := { s with
    waves := fall s.waves (fun _ v => if ((s.ctxTroupes k c).map (fun e => e.1)).contains v.tid then { v with ended := true, waits := [] } else v),
    troupes := fall s.troupes (fun n t => if ((s.ctxTroupes k c).map (fun e => e.1)).contains n then { t with st := .published } else t) })
    ⟨fun _ _ h => h, fun _ => rfl⟩ (modPkg_cmdsShrink (fun x hx => (List.mem_filter.1 hx).1) rfl)
theorem stopContext_cmdsShrink (s : State) (k : Nat) (c : W32) (cause : Cause) (sub : Byte) (pc va : W64) : CmdsShrink s (stopContext s k c cause sub pc va) := by
  have hc := clearContext_cmdsShrink s k c
  have he : ∀ l, CmdsShrink s (hostEvent (clearContext s k c) k c cause sub l pc va) := by
    intro l
    have h1 := hostEvent_of_host (clearContext s k c) k c cause sub l pc va (fun p => p.cmds) (fun _ _ => rfl)
    have h2 := hostEvent_of_host (clearContext s k c) k c cause sub l pc va (fun p => p.phys.tests) (fun _ _ => rfl)
    exact hc.trans ⟨fun j x hx => (h1 j).subst (motive := fun l => x ∈ l) hx, h2⟩
  rw [stopContext_eq]
  split
  · split
    · exact hc
    · exact he _
  · split
    · exact .refl s
    · exact he _
theorem dropTroupes_cmdsShrink (s : State) (k : Nat) (tids : List Nat) : CmdsShrink s (s.dropTroupes k tids) := by
  unfold State.dropTroupes
  dsimp only
  exact CmdsShrink.trans (t := { s with
    waves := fall s.waves (fun _ v => if tids.contains v.tid then { v with ended := true, waits := [] } else v),
    troupes := fall s.troupes (fun n t => if tids.contains n then { t with st := .published } else t) }) ⟨fun _ _ h => h, fun _ => rfl⟩
    (modPkg_cmdsShrink (fun x hx => (List.mem_filter.1 hx).1) rfl)
theorem eccTroupe_cmdsShrink (s : State) (tid : Nat) (sub : Byte) : CmdsShrink s (s.eccTroupe tid sub) := by
  unfold State.eccTroupe
  dsimp only
  split
  · exact .refl s
  · split
    · exact (dropTroupes_cmdsShrink ..).trans (modPkg_cmdsShrink (fun _ h => h) rfl)
    · exact stopContext_cmdsShrink ..
theorem eccCmd_cmdsShrink (s : State) (k : Nat) (c : CmdRec) : CmdsShrink s (s.eccCmd k c) := by
  unfold State.eccCmd
  split
  · exact stopContext_cmdsShrink ..
  · exact eccTroupe_cmdsShrink ..

/-! ### Units read -/

section
variable {s : State} {k n : Nat} {c : CmdRec} {sp dp : Space} {src dst : W64} {len : Nat} {bb : W32}
  (hc : (s.pkg k).cmd? n = some c) (hcmd : c.cmd = .copy sp dp false src dst len bb)
include hc hcmd
omit hc in
theorem cmdRing_plain (t : State) : t.cmdRing c = none := by
  unfold State.cmdRing
  rw [hcmd]
omit hc in
/-- The unit that a plain copy reads next (R342). -/
theorem unitOf_plain : s.unitOf k c = ⟨min 1024 (c.total - c.read), s.loadSpans (s.spans k c sp (src + BitVec.ofNat 64 c.read) (min 1024 (c.total - c.read))),
    s.spans k c sp (src + BitVec.ofNat 64 c.read) (min 1024 (c.total - c.read)), min 1024 (c.total - c.read)⟩ := by
  unfold State.unitOf
  rw [hcmd]
section
variable (heng : c.engine ≠ 255)
include heng
/-- What the reading of a unit does where nothing of it is poisoned, by the checks that fail (R343). -/
theorem unitRead_eq (hr : s.mayRead k c = true) (hp : s.mayPark k c = false) (hpo : s.spansPoisoned (s.unitOf k c).spans = false) (bits : Nat) :
    exec (.engineUnitRead k n bits) s = .next (
      let u := s.unitOf k c
      let s1 := s.modPkg k (fun p => p.spend (paceCopy c.die) u.cost)
      let bad := bits % 2 ^ u.crcs.length
      if bad &&& c.retried ≠ 0 then ((s1.cmdOver k c).modPkg k (fun p =>
          if p.phys.tests.any (fun t => t.cls == 3 && t.unit == c.die * 6 + c.engine) then p
          else { p with phys := { p.phys with tests := p.phys.tests ++ [⟨3, c.die * 6 + c.engine, 0, false⟩] } })).eccCmd k c
      else if bad ≠ 0 then s1.modPkg k (fun p => p.modCmd n (fun y => { y with retried := y.retried ||| bad }))
      else s1.modPkg k (fun p => p.modCmd n (fun y => { y with read := y.read + u.dst, buf := y.buf ++ u.bytes, retried := 0, dsts := y.dsts }))) := by
  refine Eq.trans (show _ = execEngineUnitRead k n bits s from rfl) ?_
  unfold execEngineUnitRead
  rw [hc]
  dsimp only
  rw [hp, hr, if_neg (by decide), if_neg (by decide), if_neg heng, if_neg heng, hpo, if_neg (by decide), cmdRing_plain hcmd]
  simp only [apply_ite Host.Outcome.next]
  rfl
theorem unitRead_idle (hr : s.mayRead k c = false) (hp : s.mayPark k c = false) (bad : Nat) : exec (.engineUnitRead k n bad) s = .next s := by
  refine Eq.trans (show _ = execEngineUnitRead k n bad s from rfl) ?_
  unfold execEngineUnitRead
  rw [hc]
  dsimp only
  rw [hp, hr]
  rfl
end
end
/-- A change of one command, after a charge to its class. -/
theorem charged_modCmd {s : State} {k n : Nat} {c : CmdRec} (hc : (s.pkg k).cmd? n = some c) (hid : c.id = n) (q x : Nat) {f : CmdRec → CmdRec}
    (hf : ∀ c, (f c).id = c.id) : let t := (s.modPkg k (fun p => p.spend q x)).modPkg k (fun p => p.modCmd n f)
    (t = { s with pkgs := t.pkgs } ∧ (∀ j, j ≠ k → t.pkg j = s.pkg j) ∧ (t.pkg k).cmds.map (fun x => x.id) = (s.pkg k).cmds.map (fun x => x.id)) ∧
    (t.pkg k).cmds.find? (fun x => x.id == n) = some (f c) := by
  refine ⟨⟨rfl, fun j hj => ?_, ?_⟩, ?_⟩
  · rw [State.pkg_modPkg, if_neg hj, State.pkg_modPkg, if_neg hj]
  · rw [State.pkg_modPkg_self, State.pkg_modPkg_self]
    exact ids_modCmd _ n hf
  · rw [State.pkg_modPkg_self, State.pkg_modPkg_self]
    exact find?_modCmd hf (p := (s.pkg k).spend q x) hc hid
/-- The units of a source that carry a check are as many as the statement's list of them. -/
theorem crcs_length {u : UnitRead} {units : List Nat} (hn : units.Nodup)
    (h : ∀ x, x ∈ units ↔ ∃ e ∈ u.spans, keyIsScr e.1 = false ∧ e.1 / 256 ≤ x ∧ x < (e.1 + e.2 + 255) / 256) : u.crcs.length = units.length := by
  refine ((List.perm_ext_iff_of_nodup (List.nodup_dedup _) hn).2 fun x => ?_).length_eq
  rw [h, List.mem_dedup]
  simp only [List.mem_flatten, List.mem_map, List.mem_filter, Bool.not_eq_true']
  constructor
  · rintro ⟨l, ⟨e, ⟨he, hk⟩, rfl⟩, hx⟩
    obtain ⟨i, hi, rfl⟩ := List.mem_map.1 hx
    have := List.mem_range.1 hi
    exact ⟨e, he, hk, by omega, by omega⟩
  · rintro ⟨e, he, hk, h1, h2⟩
    exact ⟨_, ⟨e, ⟨he, hk⟩, rfl⟩, List.mem_map.2 ⟨x - e.1 / 256, List.mem_range.2 (by omega), by omega⟩⟩
section
variable {s : State} {k n : Nat} {c : CmdRec} {sp dp : Space} {src dst : W64} {len : Nat} {bb : W32}
  (hc : (s.pkg k).cmd? n = some c) (hcmd : c.cmd = .copy sp dp false src dst len bb) (heng : c.engine ≠ 255) (hid : c.id = n)
include hc hcmd heng hid
theorem unitRead_does (hr : s.mayRead k c = true) (hp : s.mayPark k c = false) :
    let size := min 1024 (c.total - c.read)
    let from_ := s.spans k c sp (src + BitVec.ofNat 64 c.read) size
    let same := fun (t : State) => t = { s with pkgs := t.pkgs } ∧ (∀ j, j ≠ k → t.pkg j = s.pkg j) ∧
      (t.pkg k).cmds.map (fun x => x.id) = (s.pkg k).cmds.map (fun x => x.id)
    (∀ e ∈ from_, s.poisoned e.1 e.2 = false) → ∀ units : List Nat, units.Nodup →
        (∀ u, u ∈ units ↔ ∃ e ∈ from_, keyIsScr e.1 = false ∧ e.1 / 256 ≤ u ∧ u < (e.1 + e.2 + 255) / 256) → ∀ bits : Nat,
      let bad := bits % 2 ^ units.length
      (bad = 0 → After (.engineUnitRead k n bits) s (fun t => same t ∧
        (t.pkg k).cmds.find? (fun x => x.id == n) = some { c with
          read := c.read + size, retried := 0, buf := c.buf ++ (from_.map (fun e => memGets s.mem e.1 e.2)).flatten })) ∧
      (bad ≠ 0 → bad &&& c.retried = 0 → After (.engineUnitRead k n bits) s (fun t => same t ∧
        (t.pkg k).cmds.find? (fun x => x.id == n) = some { c with retried := c.retried ||| bad })) ∧
      (bad &&& c.retried ≠ 0 → After (.engineUnitRead k n bits) s (fun t => (∀ x ∈ (t.pkg k).cmds, x.id ≠ n) ∧
        ∃ q ∈ (t.pkg k).phys.tests, q.cls = 3 ∧ q.unit = c.core / 256 * 6 + c.engine)) := by
  intro size from_ same hpo units hn hu bits bad
  have hunit := unitOf_plain (s := s) (k := k) hcmd
  have hx := unitRead_eq hc hcmd heng hr hp (by
    rw [hunit]
    unfold State.spansPoisoned
    rw [List.any_eq_false]
    exact fun e he => by rw [hpo e he]; exact Bool.false_ne_true) bits
  have hlen : (s.unitOf k c).crcs.length = units.length := crcs_length hn (by rw [hunit]; exact hu)
  dsimp only at hx
  rw [hlen] at hx
  refine ⟨fun h0 => ?_, fun h0 hand => ?_, fun hand => ?_⟩
  · rw [if_neg (by rw [show bits % 2 ^ units.length = 0 from h0]; simp), if_neg (not_not.2 h0), hunit] at hx
    obtain ⟨h1, h2⟩ := charged_modCmd hc hid (paceCopy c.die) size (f := fun y => { y with
      read := y.read + size, buf := y.buf ++ s.loadSpans from_, retried := 0, dsts := y.dsts }) (fun _ => rfl)
    exact ⟨_, hx, h1, h2⟩
  · rw [if_neg (not_not.2 hand), if_pos h0] at hx
    obtain ⟨h1, h2⟩ := charged_modCmd hc hid (paceCopy c.die) (s.unitOf k c).cost (f := fun y => { y with retried := y.retried ||| bad }) (fun _ => rfl)
    exact ⟨_, hx, h1, h2⟩
  · rw [if_pos hand, cmdOver_copy hcmd, hid] at hx
    refine ⟨_, hx, fun x hxm => ?_, ?_⟩
    · have h := (eccCmd_cmdsShrink _ k c).cmds k x hxm
      rw [State.pkg_modPkg_self, State.pkg_modPkg_self] at h
      refine id_of_mem_dropCmd (p := (s.modPkg k (fun p => p.spend (paceCopy c.die) (s.unitOf k c).cost)).pkg k) ?_
      split at h <;> exact h
    · rw [(eccCmd_cmdsShrink _ k c).tests k, State.pkg_modPkg_self]
      split
      next h =>
        obtain ⟨q, hq, hqq⟩ := List.any_eq_true.1 h
        rw [Bool.and_eq_true, beq_iff_eq, beq_iff_eq] at hqq
        exact ⟨q, hq, hqq.1, hqq.2⟩
      next => exact ⟨_, List.mem_append_right _ (List.mem_singleton_self _), rfl, rfl⟩
end

/-! ### Units written -/

section
variable {s : State} {k n : Nat} {c : CmdRec} {sp dp : Space} {src dst : W64} {len : Nat} {bb : W32}
  (hc : (s.pkg k).cmd? n = some c) (hid : c.id = n)
include hc
theorem unitWrite_eq (hcmd : c.cmd = .copy sp dp false src dst len 0) (hb : c.buf ≠ []) {key : Nat}
    (hsp : s.spans k c dp (dst + BitVec.ofNat 64 c.written) c.buf.length = [(key, c.buf.length)]) :
    exec (.engineUnitWrite k n) s = .next (
      let s1 := (s.storeAt key c.buf).modPkg k (fun p => p.modCmd n (fun y => { y with buf := [], written := y.written + c.buf.length }))
      if c.read = c.total then s1.modPkg k (fun p => p.dropCmd c.id) else s1) := by
  have hring := fun t : State => cmdRing_plain hcmd t
  refine Eq.trans (show _ = execEngineUnitWrite k n s from rfl) ?_
  unfold execEngineUnitWrite
  rw [hc]
  dsimp only
  have hmay : s.mayWrite c = true := by
    unfold State.mayWrite
    rw [hcmd]
    simpa using hb
  have hstore : s.storeSpans [(key, c.buf.length)] c.buf = s.storeAt key c.buf := by
    show s.storeAt key (c.buf.take c.buf.length) = _
    rw [List.take_length]
  rw [hmay, if_neg (by decide), hcmd]
  dsimp only
  rw [hsp, hstore, if_pos rfl, hring]
  by_cases h : c.read = c.total
  · rw [if_pos h, if_pos ⟨h, rfl⟩, cmdOver_copy hcmd]
  · rw [if_neg h, if_neg fun h' => h h'.1]
include hid
theorem unitWrite_does (hcmd : c.cmd = .copy sp dp false src dst len 0) (hb : c.buf ≠ []) {key : Nat}
    (hsp : s.spans k c dp (dst + BitVec.ofNat 64 c.written) c.buf.length = [(key, c.buf.length)]) (hno : NoneAbout s key c.buf.length) :
    After (.engineUnitWrite k n) s (fun t =>
      memGets t.mem key c.buf.length = c.buf ∧ (∀ x, (x < key ∨ key + c.buf.length ≤ x) → memGet t.mem x = memGet s.mem x) ∧
      (c.read ≠ c.total → (t.pkg k).cmds.find? (fun x => x.id == n) = some { c with buf := [], written := c.written + c.buf.length }) ∧
      (c.read = c.total → ∀ x ∈ (t.pkg k).cmds, x.id ≠ n)) := by
  have hx := unitWrite_eq hc hcmd hb hsp
  have hm := storeAt_mem hno
  have hp := (storeAt_memoryOnly hno).pkg k
  have hc' : ((s.storeAt key c.buf).pkg k).cmd? n = some c := by
    unfold Pkg.cmd? at hc ⊢
    rw [hp]
    exact hc
  generalize s.storeAt key c.buf = u at hx hm hc'
  have hmem : memGets u.mem key c.buf.length = c.buf ∧ ∀ x, (x < key ∨ key + c.buf.length ≤ x) → memGet u.mem x = memGet s.mem x := by
    rw [hm]
    exact ⟨memGets_memPuts .., fun x hx => memGet_memPuts_ne _ _ _ _ hx⟩
  dsimp only at hx
  by_cases h : c.read = c.total
  · rw [if_pos h, hid] at hx
    refine ⟨_, hx, hmem.1, hmem.2, fun h' => absurd h h', fun _ x hxm => ?_⟩
    rw [State.pkg_modPkg_self] at hxm
    exact id_of_mem_dropCmd hxm
  · rw [if_neg h] at hx
    refine ⟨_, hx, hmem.1, hmem.2, fun _ => ?_, fun h' => absurd h' h⟩
    rw [State.pkg_modPkg_self]
    exact find?_modCmd (f := fun y => { y with buf := [], written := y.written + c.buf.length }) (fun _ => rfl) hc' hid

/-! ### Slots filled -/

omit hc hid in
theorem ring_of_cmdHdr {key : Nat} {h : RingHdr} (hh : s.cmdHdr c = some (key, h)) : s.ring key = some h := by
  unfold State.cmdHdr at hh
  split at hh
  next => exact absurd hh (by simp)
  next key' _ =>
    obtain ⟨g, hg, he⟩ := Option.map_eq_some_iff.1 hh
    obtain ⟨rfl, rfl⟩ := Prod.mk.inj he
    exact hg
/-- The state in which a slot's counters have been moved on and its command notes it. -/
def slotFilled (s : State) (k n key : Nat) (h : RingHdr) : State :=
  (s.setRing key { h with wr := (h.wr + 1) % h.nslot, free := h.free - 1, filled := h.filled + 1 }).modPkg k
    (fun p => p.modCmd n (fun y => { y with filled := y.written, dsts := [] }))
omit hid in
theorem ringSlotFill_eq {r : Nat × RingHdr} (hcmd : c.cmd = .copy sp dp true src dst len bb) (hh : s.cmdHdr c = some r) (hready : s.slotReady c = true) :
    exec (.ringSlotFill k n) s = .next (if c.written = c.total then (slotFilled s k n r.1 r.2).modPkg k (fun p => p.dropCmd c.id) else slotFilled s k n r.1 r.2) := by
  refine Eq.trans (show _ = execRingSlotFill k n s from rfl) ?_
  unfold execRingSlotFill
  simp only [hc, hready, hh, hcmd, cmdOver_copy hcmd]
  rfl
omit hid hc in
theorem slotFilled_ring {key : Nat} {h : RingHdr} (hring : s.ring key = some h) (hno : NoneAbout s key 16) :
    (slotFilled s k n key h).ring key = some { h with wr := (h.wr + 1) % h.nslot, free := h.free - 1, filled := (h.filled + 1) % 256 } := by
  obtain ⟨b1, b2, b3, b4, b5, b6, b7, b8, b9⟩ := ring_bounds hring
  have hr := ring_setRing hno { h with wr := (h.wr + 1) % h.nslot, free := h.free - 1, filled := h.filled + 1 } hring
  have hlt := Nat.mod_lt (h.wr + 1) b8
  dsimp only at hr
  rw [Nat.mod_eq_of_lt (a := (h.wr + 1) % h.nslot) (by omega), Nat.mod_eq_of_lt (a := h.rd) b3, Nat.mod_eq_of_lt (a := h.free - 1) (by omega),
    Nat.mod_eq_of_lt (a := h.cidx) b6, Nat.mod_eq_of_lt (a := h.held) b7] at hr
  exact (ring_of_mem (mem_modPkg ..) key).trans hr
theorem slotFilled_cmd {key : Nat} {h : RingHdr} (hno : NoneAbout s key 16) :
    ((slotFilled s k n key h).pkg k).cmds.find? (fun x => x.id == n) = some { c with filled := c.written, dsts := [] } := by
  have hp := (setRing_memoryOnly hno { h with wr := (h.wr + 1) % h.nslot, free := h.free - 1, filled := h.filled + 1 }).pkg k
  have hc' : ((s.setRing key { h with wr := (h.wr + 1) % h.nslot, free := h.free - 1, filled := h.filled + 1 }).pkg k).cmd? n = some c := by
    unfold Pkg.cmd? at hc ⊢
    rw [hp]
    exact hc
  unfold slotFilled
  rw [State.pkg_modPkg_self]
  exact find?_modCmd (f := fun y => { y with filled := y.written, dsts := [] }) (fun _ => rfl) hc' hid
theorem ringSlotFill_does {key : Nat} {h : RingHdr} (hcmd : c.cmd = .copy sp dp true src dst len bb) (hh : s.cmdHdr c = some (key, h)) (hb : c.buf = [])
    (h1 : c.filled < c.written) (h2 : c.written - c.filled = 4096 * h.tps) (hno : NoneAbout s key 16) :
    After (.ringSlotFill k n) s (fun t =>
      t.ring key = some { h with wr := (h.wr + 1) % h.nslot, free := h.free - 1, filled := (h.filled + 1) % 256 } ∧
      (∀ x, (x < key ∨ key + 16 ≤ x) → memGet t.mem x = memGet s.mem x) ∧
      (c.written = c.total → ∀ x ∈ (t.pkg k).cmds, x.id ≠ n) ∧
      (c.written ≠ c.total → (t.pkg k).cmds.find? (fun x => x.id == n) = some { c with filled := c.written, dsts := [] })) := by
  have hready : s.slotReady c = true := by
    unfold State.slotReady
    rw [hh, hb]
    simp [h1, h2]
  have hx := ringSlotFill_eq hc hcmd hh hready
  have hr := slotFilled_ring (k := k) (n := n) (ring_of_cmdHdr hh) hno
  have hcm := slotFilled_cmd (h := h) hc hid hno
  have hg : ∀ x, (x < key ∨ key + 16 ≤ x) → memGet (slotFilled s k n key h).mem x = memGet s.mem x := fun x hx => memGet_setRing hno _ hx
  generalize slotFilled s k n key h = u at hx hr hcm hg
  by_cases hw : c.written = c.total
  · rw [if_pos hw, hid] at hx
    refine ⟨_, hx, (ring_of_mem (mem_modPkg ..) key).trans hr, hg, fun _ x hxm => ?_, fun h' => absurd hw h'⟩
    rw [State.pkg_modPkg_self] at hxm
    exact id_of_mem_dropCmd hxm
  · rw [if_neg hw] at hx
    exact ⟨_, hx, hr, hg, fun h' => absurd h' hw, fun _ => hcm⟩
end

/-! ### Budget periods -/

theorem budgetPeriodStart_does (s : State) (k : Nat) : After (.budgetPeriodStart k) s (fun t => t = { s with pkgs := t.pkgs } ∧ (∀ j, j ≠ k → t.pkg j = s.pkg j) ∧
    t.pkg k = { s.pkg k with phys := { (s.pkg k).phys with pace := (t.pkg k).phys.pace } } ∧
    ∀ c, fget Pace.init (t.pkg k).phys.pace c = { fget Pace.init (s.pkg k).phys.pace c with
      budget := (fget Pace.init (s.pkg k).phys.pace c).next
      credit := ((fget Pace.init (s.pkg k).phys.pace c).next : Int) + min 0 (fget Pace.init (s.pkg k).phys.pace c).credit }) := by
  refine ⟨_, rfl, rfl, fun j hj => by rw [State.pkg_modPkg, if_neg hj], by rw [State.pkg_modPkg_self], fun c => ?_⟩
  rw [State.pkg_modPkg_self]
  dsimp only
  rw [fget_fall, fget_eq_flook]
  cases flook (s.pkg k).phys.pace c <;> rfl

theorem engineWork : Claims.EngineWork := by
  refine ⟨fun s k n c sp dp src dst len bb hc hcmd heng hid => ⟨unitRead_idle hc hcmd heng, fun hr hp => unitRead_does hc hcmd heng hid hr hp, ?_⟩,
    fun s k n c sp dp src dst len bb key h hc hcmd hh hid hb h1 h2 hno _ => ringSlotFill_does hc hid hcmd hh hb h1 h2 hno, budgetPeriodStart_does⟩
  intro key hb hbb hsp hno
  subst hbb
  exact unitWrite_does hc hid hcmd hb hsp hno

/-- Settles O30: a checked command as what `acceptCmd` leaves of it, once for all of them; the engines' steps as changes of one
command among the others, by its id. -/
theorem copyEngines : Obligations.CopyEngines := ⟨engineCommands, engineWork⟩

end Sys2Proof
end

