-- ==== Sys2Proof/Proofs/ReelSequencer.lean ====
section
/-! SUPPORT. The reel sequencer (R233, R389 to R393): its start, what `reel.stat` tells, and one lemma per stage. -/

namespace Sys2Proof
open Machine

/-! ### `reel.go` and `reel.stat` -/

section
variable {s : State} {m : Mods} {d a : Reg} {e : Nat} (he : Elected s m e)
include he
section
variable (h1 : bf (s.block e a 2) 0 31 21 = 0) (h2 : bw (s.block e a 2) 1 = 0) (h3 : 1 ≤ bf (s.block e a 2) 0 20 10) (h4 : bf (s.block e a 2) 0 20 10 ≤ 1024)
include h1 h2 h3 h4
theorem reelGo_eq : exec (.reelGo m d a) s = .next (if (s.pkg s.curPkg).reel.owner ≠ s.curCtx then refuse s m .state
    else if s.relWait .pkg then waitAt s (.reelGo m d a)
    else if (s.pkg s.curPkg).reel.st ≠ .idle then given s m d 1
    else given (s.modReel s.curPkg (fun r => r.start (bf (s.block e a 2) 0 9 0) (bf (s.block e a 2) 0 20 10))) m d 0) := by
  refine Eq.trans (show _ = execReelGo m d a s from rfl) ?_
  unfold execReelGo
  rw [elected_eq he]
  refine congrArg Host.Outcome.next (if_neg ?_)
  rintro (h | h | h | h)
  · exact h h1
  · exact h h2
  · exact absurd (h ▸ h3) (by decide)
  · exact absurd h4 (by omega)
theorem reelGo_refused (ha : Alone s) (h : (s.pkg s.curPkg).reel.owner ≠ s.curCtx) : After (.reelGo m d a) s (fun t => StopsActive s t m 0x10 0x10 0) :=
  refused he ha (sub := .state) ((reelGo_eq he h1 h2 h3 h4).trans (by rw [if_pos h]))
theorem reelGo_waits (ho : (s.pkg s.curPkg).reel.owner = s.curCtx) (h : s.relWait .pkg = true) : After (.reelGo m d a) s (Waits (.reelGo m d a) s) :=
  ⟨_, (reelGo_eq he h1 h2 h3 h4).trans (by rw [if_neg (not_not_intro ho), if_pos h]), waitAt_waits ..⟩
theorem reelGo_busy (ho : (s.pkg s.curPkg).reel.owner = s.curCtx) (h : s.relWait .pkg = false) (hs : (s.pkg s.curPkg).reel.st ≠ .idle) :
    exec (.reelGo m d a) s = .next (given s m d 1) :=
  (reelGo_eq he h1 h2 h3 h4).trans (by rw [if_neg (not_not_intro ho), if_neg (by rw [h]; decide), if_pos hs])
theorem reelGo_starts (ho : (s.pkg s.curPkg).reel.owner = s.curCtx) (h : s.relWait .pkg = false) (hs : (s.pkg s.curPkg).reel.st = .idle) :
    exec (.reelGo m d a) s = .next (given (s.modReel s.curPkg (fun r => r.start (bf (s.block e a 2) 0 9 0) (bf (s.block e a 2) 0 20 10))) m d 0) :=
  (reelGo_eq he h1 h2 h3 h4).trans (by rw [if_neg (not_not_intro ho), if_neg (by rw [h]; decide), if_neg (not_not_intro hs)])
end
theorem reelStat_gives (h : bf (s.block e a 1) 0 31 10 = 0) :
    exec (.reelStat m d a) s = .next (given s m d (BitVec.ofNat 32 ((s.pkg s.curPkg).reel.entStat (bf (s.block e a 1) 0 9 0)))) := by
  refine Eq.trans (show _ = execReelStat m d a s from rfl) ?_
  unfold execReelStat
  rw [elected_eq he]
  exact congrArg Host.Outcome.next (if_neg (not_not_intro h))
theorem reelStat_refused (ha : Alone s) (h : bf (s.block e a 1) 0 31 10 ≠ 0) : After (.reelStat m d a) s (fun t => StopsActive s t m 0x10 0x11 0) := by
  refine refused he ha (sub := .param) (Eq.trans (show _ = execReelStat m d a s from rfl) ?_)
  unfold execReelStat
  rw [elected_eq he]
  exact congrArg Host.Outcome.next (if_pos h)
theorem reelStat_tells (h : bf (s.block e a 1) 0 31 10 = 0) {v : Nat} (hv : (s.pkg s.curPkg).reel.entStat (bf (s.block e a 1) 0 9 0) = v) :
    After (.reelStat m d a) s (fun t => t = { s with waves := t.waves, nextId := s.nextId + 1 } ∧
      LanesBecome s t (fun l y => goOn s l (sends s m none (regs1 d) (fun _ => to32 d (BitVec.ofNat 32 v)) (fun _ => 0) l y))) := by
  have hw := given_writes s m d (BitVec.ofNat 32 v)
  exact ⟨_, (reelStat_gives he h).trans (by rw [hv]), hw.frame, hw.lanes⟩
end

section
variable {r : Reel} {i j : Nat} (hj : (i + 1024 - r.first) % 1024 = j)
include hj
theorem entStat_unreached (h : r.count ≤ j ∨ r.retired < j) : r.entStat i = 0 := by
  unfold Reel.entStat
  rw [hj]
  rcases h with h | h
  · exact if_pos h
  · by_cases hc : r.count ≤ j
    · exact if_pos hc
    · rw [if_neg hc, if_neg (by omega), if_neg fun h' => absurd h'.1 (by omega)]
theorem entStat_retired (h : j < r.count) (h' : j < r.retired) : r.entStat i = 3 := by
  unfold Reel.entStat
  rw [hj]
  exact (if_neg (by omega)).trans (if_pos h')
theorem entStat_current (h : j < r.count) (h' : j = r.retired) (hs : r.st ≠ .idle) : r.entStat i = if r.st = .wait then 1 + 4 * (r.cause % 8) else 2 := by
  unfold Reel.entStat
  rw [hj]
  exact ((if_neg (by omega)).trans (if_neg (by omega))).trans (if_pos ⟨h', .inl hs⟩)
end

/-! ### WAIT -/

section
variable {s : State} {k : Nat}
theorem reel_modReel (f : Reel → Reel) : ((s.modReel k f).pkg k).reel = f (s.pkg k).reel :=
  congrArg Pkg.reel (State.pkg_modPkg_self ..)
theorem reelCount_early {va : W64} {used key : Nat} (hw : s.wordKey k (s.pkg k).reel.owner va false = .inr key) (h : numberAt s key 8 ≤ used) :
    s.reelCount k va used = .inr false := by
  unfold State.reelCount
  rw [hw]
  exact congrArg Sum.inr (decide_eq_false (Nat.not_lt.2 h))
section
variable {x : REnt}
theorem reelCause_input {i : Nat} (hx : x.inr = some i) (h : s.reelCount k ((s.pkg k).reel.ring i).fillw (fget 0 (s.pkg k).reel.cons i) = .inr false) :
    s.reelCause k x = .inr 1 := by
  unfold State.reelCause
  simp only [hx, h]
theorem reelCause_room {i : Nat} (hx : x.inr = none) (ho : x.outr = some i)
    (h : s.reelCount k ((s.pkg k).reel.ring i).mirw (fget 0 (s.pkg k).reel.prod i) = .inr false) : s.reelCause k x = .inr 2 := by
  unfold State.reelCause
  simp only [hx, ho, h]
theorem reelCause_stash (hx : x.inr = none) (ho : x.outr = none) (hs : x.stash = 1) (h : (s.pkg k).reel.freeStash = none) : s.reelCause k x = .inr 3 := by
  unfold State.reelCause
  simp only [hx, ho, hs, h]
  rfl
end
variable (hw : (s.pkg k).reel.st = .wait)
include hw
theorem reelWait_bad (hb : (s.pkg k).reel.entBad ((s.pkg k).reel.ent (s.pkg k).reel.cur) = true) : exec (.reelWait k) s = .next (s.modReel k Reel.fail) := by
  refine Eq.trans (show _ = execReelWait k s from rfl) ?_
  unfold execReelWait
  dsimp only
  rw [if_neg (not_not_intro hw), if_pos hb]
variable (hb : (s.pkg k).reel.entBad ((s.pkg k).reel.ent (s.pkg k).reel.cur) = false)
include hb
theorem reelWait_waits {c : Nat} (hc : s.reelCause k ((s.pkg k).reel.ent (s.pkg k).reel.cur) = .inr (c + 1)) :
    After (.reelWait k) s (fun t => t.mem = s.mem ∧ (t.pkg k).reel = { (s.pkg k).reel with cause := c + 1 }) := by
  refine ⟨s.modReel k (fun r => { r with cause := c + 1 }), Eq.trans (show _ = execReelWait k s from rfl) ?_, mem_modPkg .., reel_modReel _⟩
  unfold execReelWait
  dsimp only
  rw [if_neg (not_not_intro hw), if_neg (by rw [hb]; decide), hc]
  rfl
theorem reelWait_gathers (hc : s.reelCause k ((s.pkg k).reel.ent (s.pkg k).reel.cur) = .inr 0) :
    After (.reelWait k) s (fun t => t.mem = s.mem ∧ (t.pkg k).reel = { (s.pkg k).reel with st := .gather, cause := 0 }) := by
  refine ⟨s.modReel k (fun r => { r with st := .gather, cause := 0 }), Eq.trans (show _ = execReelWait k s from rfl) ?_, mem_modPkg .., reel_modReel _⟩
  unfold execReelWait
  dsimp only
  rw [if_neg (not_not_intro hw), if_neg (by rw [hb]; decide), hc]
  rfl
end

/-! ### GATHER -/

/-- A write of the device that stays in one page is one store. -/
theorem devWrite_onePage {s : State} {k key : Nat} {ctx : W32} {va : W64} {bs : List Byte} (hk : s.devKey k ctx va = some key)
    (h : va.toNat % 4096 + bs.length ≤ 4096) : s.devWrite k ctx va bs = s.storeAt key bs := by
  unfold State.devWrite stepsOf
  rw [show (va.toNat % 4096 + bs.length - 1) / 4096 = 0 by omega, List.range_zero, List.map_nil, List.foldl_cons, List.foldl_nil,
    Nat.sub_self, List.drop_zero, List.take_of_length_le (by omega)]
  unfold State.devStore
  rw [hk]
theorem devKey_of_wordKey {s : State} {k key : Nat} {ctx : W32} {va : W64} {w : Bool} (h : s.wordKey k ctx va w = .inr key) : s.devKey k ctx va = some key := by
  unfold State.wordKey at h
  cases hd : s.devKey k ctx va with
  | none =>
    rw [hd] at h
    grind
  | some y =>
    rw [hd] at h
    grind

/-- The argument words of an entry without stash or collective are its two slots and two zeros. -/
theorem argBytes_plain (r : Reel) (x : REnt) (hg : x.gpv = false) : r.argBytes x none =
    leBytes 8 (match x.inr with | some i => (r.ring i).slot (fget 0 r.cons i) | none => 0).toNat ++
      leBytes 8 (match x.outr with | some i => (r.ring i).slot (fget 0 r.prod i) | none => 0).toNat ++ leBytes 16 0 := by
  unfold Reel.argBytes
  rw [hg, List.append_assoc]
  rfl
theorem argWords_read (m : List Host.Cell) (key : Nat) (r : Reel) (x : REnt) (hg : x.gpv = false) :
    leNat (memGets (memPuts m key (r.argBytes x none)) key 8) = (match x.inr with | some i => (r.ring i).slot (fget 0 r.cons i) | none => 0).toNat ∧
    leNat (memGets (memPuts m key (r.argBytes x none)) (key + 8) 8) = (match x.outr with | some i => (r.ring i).slot (fget 0 r.prod i) | none => 0).toNat ∧
    leNat (memGets (memPuts m key (r.argBytes x none)) (key + 16) 16) = 0 := by
  rw [argBytes_plain r x hg]
  generalize (match x.inr with | some i => (r.ring i).slot (fget 0 r.cons i) | none => 0) = a
  generalize (match x.outr with | some i => (r.ring i).slot (fget 0 r.prod i) | none => 0) = b
  have hb : memGets (memPuts m key (leBytes 8 a.toNat ++ leBytes 8 b.toNat ++ leBytes 16 0)) key 32 = leBytes 8 a.toNat ++ leBytes 8 b.toNat ++ leBytes 16 0 := by
    have h := memGets_memPuts m key (leBytes 8 a.toNat ++ leBytes 8 b.toNat ++ leBytes 16 0)
    rwa [show (leBytes 8 a.toNat ++ leBytes 8 b.toNat ++ leBytes 16 0).length = 32 by simp only [List.length_append, leBytes_length]] at h
  generalize memPuts m key (leBytes 8 a.toNat ++ leBytes 8 b.toNat ++ leBytes 16 0) = m' at hb ⊢
  have ha := a.isLt
  have hbl := b.isLt
  refine ⟨?_, ?_, ?_⟩
  · rw [← Nat.add_zero key, ← memGets_slice m' (show 0 + 8 ≤ 32 by decide), hb, List.drop_zero, List.append_assoc, List.take_left' (leBytes_length ..), leNat_leBytes,
      Nat.mod_eq_of_lt (by omega)]
  · rw [← memGets_slice m' (show 8 + 8 ≤ 32 by decide), hb, List.append_assoc, List.drop_left' (leBytes_length ..), List.take_left' (leBytes_length ..), leNat_leBytes,
      Nat.mod_eq_of_lt (by omega)]
  · rw [← memGets_slice m' (show 16 + 16 ≤ 32 by decide), hb, List.drop_left' (by simp only [List.length_append, leBytes_length]),
      List.take_of_length_le (leBytes_length ..).le, leNat_leBytes, Nat.zero_mod]
theorem reelGather_writes {s : State} {k key y : Nat} (hst : (s.pkg k).reel.st = .gather) (hr : (s.pkg k).reel.grun = none)
    (hg : ((s.pkg k).reel.ent (s.pkg k).reel.cur).gpv = false) (hs : ((s.pkg k).reel.ent (s.pkg k).reel.cur).stash = 0)
    (h1 : s.wordKey k (s.pkg k).reel.owner ((s.pkg k).reel.ent (s.pkg k).reel.cur).argw true = .inr key)
    (h2 : s.wordKey k (s.pkg k).reel.owner (((s.pkg k).reel.ent (s.pkg k).reel.cur).argw + 24) true = .inr y) :
    ∃ f g : Reel → Reel, (∀ r, (g r).st = .run) ∧ exec (.reelGather k) s = .next (((s.devWrite k (s.pkg k).reel.owner ((s.pkg k).reel.ent (s.pkg k).reel.cur).argw
      ((s.pkg k).reel.argBytes ((s.pkg k).reel.ent (s.pkg k).reel.cur) none)).modReel k f).modReel k g) := by
  refine ⟨fun r => { r with stash := r.stash }, fun r => { r with st := .run }, fun _ => rfl, Eq.trans (show _ = execReelGather k s from rfl) ?_⟩
  unfold execReelGather
  simp only [hst, hr, Reel.stashFor, hs, if_true, h1, h2, hg]
  rfl

/-! ### RUN -/

section
variable {s : State} {k : Nat} (hst : (s.pkg k).reel.st = .run)
include hst
theorem reelRun_over {n : Nat} (hl : (s.pkg k).reel.launch = some n) (h : flook (s.pkg k).sched.launches n = none) :
    After (.reelRun k) s (fun t => t.mem = s.mem ∧ (t.pkg k).reel.st = .handoff ∧ (t.pkg k).reel.need = (s.pkg k).outstanding) := by
  refine ⟨s.modPkg k (fun p => p.modReel (fun r => { r with st := .handoff, launch := none, need := p.outstanding })),
    Eq.trans (show _ = execReelRun k s from rfl) ?_, mem_modPkg .., ?_⟩
  · unfold execReelRun
    simp only [hst, hl, h]
    rfl
  · rw [State.pkg_modPkg_self]
    exact ⟨rfl, rfl⟩
theorem reelRun_launches (hl : (s.pkg k).reel.launch = none) (hu : (s.pkg k).tableUsed < 2048) {x : REnt} (hx : (s.pkg k).reel.ent (s.pkg k).reel.cur = x)
    {bs : List Byte} {y : Launch} (hf : s.devFetch k (s.pkg k).reel.owner x.lrec 128 = some bs) (ha : (lrecOf x.lrec bs).args = x.argw)
    (hn : 8 ≤ (lrecOf x.lrec bs).argn) (hj : s.judge k (s.pkg k).reel.owner x.lrec bs = .inr y) :
    exec (.reelRun k) s = .next ((s.addLaunch k { y with queue := 64, prio := 0, reel := true }).modReel k (fun r => { r with launch := some s.nextId })) := by
  refine Eq.trans (show _ = execReelRun k s from rfl) ?_
  unfold execReelRun
  simp only [hst, hl, hx, hf, hj, ha]
  rw [if_neg (by decide), if_neg (by omega), if_neg fun h => absurd (h.resolve_left fun h => h rfl) (by omega)]
end
/-- The launch as the table takes it. -/
def launchListed (s : State) (x : Launch) : Launch :=
  { x with st := if x.rcd.wevt ≠ 0 then .waiting else if x.caller.isSome then .held else .ready, readySeq := s.nextId }
theorem flook_addLaunch (s : State) (k : Nat) (x : Launch) : flook ((s.addLaunch k x).pkg k).sched.launches s.nextId = some (launchListed s x) := by
  unfold State.addLaunch
  dsimp only
  rw [State.pkg_modPkg_self]
  exact (flook_fput ..).trans (if_pos rfl)
theorem reelLaunch_listed (s : State) (k : Nat) (x : Launch) :
    ((s.addLaunch k x).modReel k (fun r => { r with launch := some s.nextId })).mem = s.mem ∧
    (((s.addLaunch k x).modReel k (fun r => { r with launch := some s.nextId })).pkg k).reel.launch = some s.nextId ∧
    flook (((s.addLaunch k x).modReel k (fun r => { r with launch := some s.nextId })).pkg k).sched.launches s.nextId = some (launchListed s x) := by
  refine ⟨(mem_modPkg ..).trans (mem_modPkg ..), by rw [reel_modReel], ?_⟩
  rw [← flook_addLaunch s k x]
  unfold State.modReel
  rw [State.pkg_modPkg_self]
  rfl

/-! ### HANDOFF -/

theorem reelNote_flits (k : Nat) (owner : W32) (d : Nat) (va : W64) : (reelNote k owner d va).flits = 1 := by
  simp [Packet.flits, Packet.payload, reelNote, Packet.init]
theorem reelHandoff_frees {s : State} {k i : Nat} (hst : (s.pkg k).reel.st = .handoff) (hl : (s.pkg k).landed (s.pkg k).reel.need = true)
    (ho : ((s.pkg k).reel.ent (s.pkg k).reel.cur).outr = none) (hi : ((s.pkg k).reel.ent (s.pkg k).reel.cur).inr = some i)
    (hk : ((s.pkg k).reel.ring i).peer ≠ k) (hv : (s.pkg k).vqRoom ((s.pkg k).reel.ring i).peer 2 = true) :
    exec (.reelHandoff k) s = .next (s.modPkg k (fun p => (p.sendDirect (reelNote k (s.pkg k).reel.owner ((s.pkg k).reel.ring i).peer
      ((s.pkg k).reel.ring i).mirw)).modReel (fun r => r.advance ((s.pkg k).reel.ent (s.pkg k).reel.cur)))) := by
  refine Eq.trans (show _ = execReelHandoff k s from rfl) ?_
  unfold execReelHandoff
  have hns : (s.pkg k).reel.notes k ((s.pkg k).reel.ent (s.pkg k).reel.cur) = [reelNote k (s.pkg k).reel.owner ((s.pkg k).reel.ring i).peer
      ((s.pkg k).reel.ring i).mirw] := by
    unfold Reel.notes
    rw [ho, hi]
    rfl
  dsimp only
  rw [hns, if_neg (by rw [hst, hl]; decide), List.any_cons, List.any_nil, Bool.or_false, if_neg ?_]
  · refine congrArg Host.Outcome.next (congrArg (s.modPkg k) (funext fun p => congrArg (fun q : Pkg => q.modReel _) ?_))
    exact if_neg hk
  · rw [Bool.and_eq_true, not_and, Bool.not_eq_true']
    rw [reelNote_flits]
    exact fun _ h => Bool.noConfusion (hv.symm.trans h)
/-- What the neighbour's room and the counts are when an entry without a downstream ring is handed off. -/
theorem handedOff {p : Pkg} {x : REnt} {i : Nat} (hi : x.inr = some i) (k : Nat) (owner : W32) (d : Nat) (va : W64) :
    (((p.sendDirect (reelNote k owner d va)).modReel (fun r => r.advance x)).peer d).vq = (p.peer d).vq ++ [{ reelNote k owner d va with via := d }] ∧
    fget 0 ((p.sendDirect (reelNote k owner d va)).modReel (fun r => r.advance x)).reel.cons i = fget 0 p.reel.cons i + 1 ∧
    ((p.sendDirect (reelNote k owner d va)).modReel (fun r => r.advance x)).reel.retired = p.reel.retired + 1 ∧
    ((p.sendDirect (reelNote k owner d va)).modReel (fun r => r.advance x)).reel.st = (if p.reel.remain ≤ 1 then .idle else .wait) ∧
    (2 ≤ p.reel.remain → ((p.sendDirect (reelNote k owner d va)).modReel (fun r => r.advance x)).reel.cur = (p.reel.cur + 1) % 1024) := by
  refine ⟨?_, ?_, rfl, rfl, fun h => if_neg (Nat.not_le.2 h)⟩
  · exact congrArg Peer.vq (peer_modPeer_self p d (fun q => { q with vq := q.vq ++ [{ reelNote k owner d va with via := d }], sentD := q.sentD + 1 }))
  · refine (congrArg (fun j => fget 0 (bump p.reel.cons j) i) hi).trans ?_
    exact (fget_fput ..).trans (if_pos rfl)

/-- Settles O38: the reel starts, tells how far it has come, and goes through its stages. -/
theorem theReel : Obligations.TheReel := by
  intro s m d a e k r x
  refine ⟨fun he hk => ?_, fun hw hb => ?_, fun hw hb i key hx hk hc => ?_, fun hw hb hx i key ho hk hc => ?_, fun hw hb hx ho hs hn => ?_,
    fun hw hb hc => reelWait_gathers hw hb hc, fun hst hr hg hs key h1 h2 hp hn => ?_, fun hst hl hu bs y hf ha hn hj => ?_,
    fun n hst hl h => reelRun_over hst hl h, fun hst hl ho i hi hk hv => ?_⟩
  · subst hk
    refine ⟨fun h1 h2 h3 h4 => ⟨fun ho ha => reelGo_refused he h1 h2 h3 h4 ha ho, fun ho hr => reelGo_waits he h1 h2 h3 h4 ho hr, fun ho hr => ?_⟩,
      fun h => ⟨fun hj => reelStat_tells he h (entStat_unreached rfl hj), fun hc hj => reelStat_tells he h (entStat_retired rfl hc hj),
        fun hc hj hs h8 => reelStat_tells he h ?_, fun hc hj hs => reelStat_tells he h ?_⟩, fun ha h => reelStat_refused he ha h⟩
    · by_cases hs : r.st = .idle
      · obtain ⟨g1, g2, g3⟩ := given_setPkg s s.curPkg ((s.pkg s.curPkg).modReel (fun r => r.start (bf (s.block e a 2) 0 9 0) (bf (s.block e a 2) 0 20 10))) m d 0
        exact ⟨_, reelGo_starts he h1 h2 h3 h4 ho hr hs, g1, fun h => absurd hs h, fun _ => ⟨g3, congrArg (fun p => p.reel.st) g2, congrArg (fun p => p.reel.cur) g2, congrArg (fun p => p.reel.remain) g2, congrArg (fun p => p.reel.err) g2⟩⟩
      · have hw := given_writes s m d 1
        refine ⟨_, reelGo_busy he h1 h2 h3 h4 ho hr hs, by rw [hw.frame], fun _ => ⟨hw.lanes, by rw [hw.frame]; rfl⟩, fun h => absurd h hs⟩
    · rw [entStat_current rfl hc hj (by rw [hs]; decide), if_pos hs, Nat.mod_eq_of_lt h8]
    · rw [entStat_current rfl hc hj (by rcases hs with h | h | h <;> rw [h] <;> decide), if_neg (by rcases hs with h | h | h <;> rw [h] <;> decide)]
  · exact ⟨_, reelWait_bad hw hb, by dsimp only; rw [reel_modReel]; exact ⟨rfl, rfl⟩⟩
  · exact reelWait_waits hw hb (reelCause_input hx (reelCount_early hk hc))
  · exact reelWait_waits hw hb (reelCause_room hx ho (reelCount_early hk hc))
  · exact reelWait_waits hw hb (reelCause_stash hx ho hs (List.find?_eq_none.2 fun i hi hn' => hn i (List.mem_range.1 hi) (Option.isNone_iff_eq_none.1 hn')))
  · obtain ⟨y, h2⟩ := h2
    obtain ⟨f, g, hg', hx⟩ := reelGather_writes hst hr hg hs h1 h2
    have hl : (r.argBytes x none).length = 32 := by
      rw [argBytes_plain r x hg]
      simp only [List.length_append, leBytes_length]
    rw [devWrite_onePage (devKey_of_wordKey h1) (by rw [hl]; exact hp)] at hx
    have hm := ((mem_modPkg ((s.storeAt key (r.argBytes x none)).modReel k f) k (fun p => p.modReel g)).trans (mem_modPkg (s.storeAt key (r.argBytes x none)) k (fun p => p.modReel f))).trans (storeAt_mem (by rw [hl]; exact hn))
    obtain ⟨w1, w2, w3⟩ := argWords_read s.mem key r x hg
    refine ⟨_, hx, by rw [reel_modReel]; exact hg' _, ?_, ?_, ?_, fun c hc => ?_⟩
    · exact (congrArg (fun m => leNat (memGets m key 8)) hm).trans w1
    · exact (congrArg (fun m => leNat (memGets m (key + 8) 8)) hm).trans w2
    · exact (congrArg (fun m => leNat (memGets m (key + 16) 16)) hm).trans w3
    · exact (congrArg (fun m => memGet m c) hm).trans (memGet_memPuts_ne _ _ _ _ (by rw [hl]; exact hc))
  · obtain ⟨l1, l2, l3⟩ := reelLaunch_listed s k { y with queue := 64, prio := 0, reel := true }
    exact ⟨_, reelRun_launches hst hl hu rfl hf ha hn hj, l1, l2, _, l3, rfl, rfl, rfl, rfl, rfl⟩
  · refine ⟨_, reelHandoff_frees hst hl ho hi hk hv, mem_modPkg .., ?_⟩
    dsimp only
    rw [State.pkg_modPkg_self]
    exact handedOff hi _ _ _ _
end Sys2Proof
end

