-- ==== Sys2Proof/Proofs/CalendarRefuted.lean ====
section
/-! SUPPORT. The offset from the master (R354, R355) in a pod of one package. -/

namespace Sys2Proof

open Machine

/-- An empty frame from package 1 for package 0, stamped 0. -/
def frameOfOne : Frame :=
  { src := 1, dst := 0, port := 0, stamp := 0, slotn := 0, ackd := 0, acks := 0, ackf := 0, mstr := 1, at_ := 0, cont := false,
    notices := [], packets := [{ Packet.init with src := 1, dst := 0, seq := 1 }] }
/-- Package 0 is the only one of its pod; its list of masters names package 1, it follows itself, and a frame of package 1 is on its way to it. -/
def podOfOne : State :=
  { Tests.solo [] with
    wires := [frameOfOne]
    pkgs := [(0, { Tests.pkgOf with fab := { Tests.pkgOf.fab with masters := [1], master := 0, caltime := 5 } })] }

set_option maxRecDepth 100000 in
theorem podOfOne_receives : (match exec (.frameReceive 0 0 0) podOfOne with | .next t => (t.pkg 0).fab.offset | _ => 0) = 0 := by decide

/-- Refutes O36: a package alone in its pod takes up no master (R355), so the frame of a package that its list names leaves its offset at 0, where the
statement has the difference of the clocks. -/
theorem not_calendarAndPorts : ¬ Obligations.CalendarAndPorts := by
  rintro ⟨h, -⟩
  obtain ⟨-, -, -, -, hf⟩ := h podOfOne 0
  obtain ⟨-, hg, -⟩ := hf 0 frameOfOne { Packet.init with src := 1, dst := 0, seq := 1 } rfl rfl rfl rfl (by decide) rfl
  obtain ⟨⟨t, ht, -, -, ho, -⟩, -⟩ := hg rfl (by decide) (by decide)
  have hx := podOfOne_receives
  rw [ht] at hx
  exact absurd (hx.symm.trans (ho rfl)) (by decide)

end Sys2Proof
end

