-- ==== Sys2Proof/Proofs/CollectiveRuns.lean ====
section
/-! SUPPORT. Collective runs (R232, R379, R383): how one is issued, and the wait for it. -/

namespace Sys2Proof
open Machine

/-! ### Runs in the list of a package -/

/-- What the arrival of a chunk leaves as it is in a run. -/
structure SameRun (r q : CollRun) : Prop where
  seq : q.seq = r.seq
  plan : q.plan = r.plan
  ctx : q.ctx = r.ctx
  done : q.done = r.done
  born : q.born = r.born
  base0 : q.base0 = r.base0
  base1 : q.base1 = r.base1
  base2 : q.base2 = r.base2
theorem SameRun.refl (r : CollRun) : SameRun r r := ⟨rfl, rfl, rfl, rfl, rfl, rfl, rfl, rfl⟩
theorem SameRun.trans {r q x : CollRun} (h : SameRun r q) (h' : SameRun q x) : SameRun r x :=
  ⟨h'.seq.trans h.seq, h'.plan.trans h.plan, h'.ctx.trans h.ctx, h'.done.trans h.done, h'.born.trans h.born, h'.base0.trans h.base0,
    h'.base1.trans h.base1, h'.base2.trans h.base2⟩
theorem deliver_sameRun (p : Plan) (x : Packet) (r : CollRun) : SameRun r (r.deliver p x) := by
  unfold CollRun.deliver
  dsimp only
  split
  · exact .refl r
  · split
    · exact ⟨rfl, rfl, rfl, rfl, rfl, rfl, rfl, rfl⟩
    · split
      · exact ⟨rfl, rfl, rfl, rfl, rfl, rfl, rfl, rfl⟩
      · split <;> exact ⟨rfl, rfl, rfl, rfl, rfl, rfl, rfl, rfl⟩
theorem delivers_sameRun (p : CollRun → Plan) (l : List (Nat × Packet)) (r : CollRun) : SameRun r (l.foldl (fun (r : CollRun) e => r.deliver (p r) e.2) r) := by
  induction l generalizing r with
  | nil => exact .refl r
  | cons e l ih => exact (deliver_sameRun (p r) e.2 r).trans (ih _)
theorem mem_modRun {p : Pkg} {n : W16} {f : CollRun → CollRun} {r : CollRun} (h : r ∈ p.coll.runs) : (if r.seq = n then f r else r) ∈ (p.modRun n f).coll.runs :=
  List.mem_map.2 ⟨r, h, rfl⟩
/-- A run that the queue of its plan takes up keeps what it was issued with. -/
theorem activateNext_run {p : Pkg} (plan : Nat) {r : CollRun} (h : r ∈ p.coll.runs) : ∃ q ∈ (p.activateNext plan).coll.runs, SameRun r q := by
  unfold Pkg.activateNext
  split
  · exact ⟨r, h, .refl r⟩
  · split
    · unfold Pkg.activate
      refine ⟨_, mem_modRun (by exact h), ?_⟩
      split
      · exact SameRun.trans (q := { r with active := true }) ⟨rfl, rfl, rfl, rfl, rfl, rfl, rfl, rfl⟩ (delivers_sameRun (fun r => p.plan r.plan) _ _)
      · exact .refl r
    · exact ⟨r, h, .refl r⟩
theorem activateNext_runSeq (p : Pkg) (plan : Nat) : (p.activateNext plan).coll.runSeq = p.coll.runSeq := by
  unfold Pkg.activateNext
  split
  · rfl
  · split <;> rfl
/-- A run that is issued is the last of the package's. -/
theorem issueRun_does (p : Pkg) (plan : Nat) (r : CollRun) : (p.issueRun plan r).1 = p.coll.runSeq ∧
    (p.issueRun plan r).2.coll.runSeq = p.coll.runSeq + 1 ∧
    ∃ q ∈ (p.issueRun plan r).2.coll.runs, SameRun { r with seq := p.coll.runSeq, plan := plan } q := by
  refine ⟨rfl, activateNext_runSeq .., ?_⟩
  obtain ⟨q, hq, h⟩ := activateNext_run plan (p := { p with coll := { p.coll with
    runs := p.coll.runs.filter (fun x => !x.done || (p.coll.runSeq + 1 - x.seq).toNat ≤ 256) ++
      [{ r with seq := p.coll.runSeq, rseq := (p.plan plan).runs % 2 ^ 16, plan := plan }],
    runSeq := p.coll.runSeq + 1, plans := fput p.coll.plans plan { p.plan plan with runs := ((p.plan plan).runs + 1) % 2 ^ 16 } } })
    (List.mem_append_right _ (List.mem_singleton_self _))
  exact ⟨q, hq, SameRun.trans (q := { r with seq := p.coll.runSeq, rseq := (p.plan plan).runs % 2 ^ 16, plan := plan })
    ⟨rfl, rfl, rfl, rfl, rfl, rfl, rfl, rfl⟩ h⟩

/-! ### `coll.run` -/

/-- The run that a block asks for. -/
def askedRun (s : State) (b : List W32) : CollRun :=
  { CollRun.init with born := s.nextId, ctx := s.curCtx, base0 := bd b 2, base1 := bd b 4, base2 := bd b 6 }
/-- The pages that its ranges touch. -/
def runPages (pl : Plan) (r : CollRun) : List W64 := ((collRanges pl r).map (fun x => stepsOf (2 ^ 16) x.1 x.2)).flatten
/-- The state in which a run has been issued. -/
def runIssued (s : State) (slot : Nat) (vas : List W64) (r : CollRun) : State :=
  (s.walked .g vas).setPkg s.curPkg (((s.walked .g vas).pkg s.curPkg).issueRun slot r).2
section
variable {s : State} {m : Mods} {d a : Reg} {e : Nat} (he : Elected s m e)
include he
theorem collRun_loading (h8 : bf (s.block e a 8) 0 31 8 = 0) (h1 : bw (s.block e a 8) 1 = 0)
    (hl : (s.pkg s.curPkg).coll.loading.contains (bf (s.block e a 8) 0 7 0) = true) : exec (.collRun m d a) s = .next (waitAt s (.collRun m d a)) := by
  refine Eq.trans (show _ = execCollRun m d a s from rfl) ?_
  unfold execCollRun
  rw [elected_eq he]
  exact (if_neg fun h => h.elim (fun h => h h8) (fun h => h h1)).trans (if_pos hl)
section
variable (h8 : bf (s.block e a 8) 0 31 8 = 0) (h1 : bw (s.block e a 8) 1 = 0) (hl : (s.pkg s.curPkg).coll.loading.contains (bf (s.block e a 8) 0 7 0) = false)
include h8 h1 hl
theorem collRun_unloaded (hp : flook (s.pkg s.curPkg).coll.plans (bf (s.block e a 8) 0 7 0) = none) : exec (.collRun m d a) s = .next (refuse s m .param) := by
  refine Eq.trans (show _ = execCollRun m d a s from rfl) ?_
  unfold execCollRun
  rw [elected_eq he]
  refine ((if_neg fun h => h.elim (fun h => h h8) (fun h => h h1)).trans (if_neg (by rw [hl]; decide))).trans ?_
  rw [hp]
section
variable {pl : Plan} (hp : flook (s.pkg s.curPkg).coll.plans (bf (s.block e a 8) 0 7 0) = some pl) (hst : pl.stg = true → bd (s.block e a 8) 6 ≠ 0)
include hp hst
theorem collRun_faults {va : W64} (hf : s.collFault s.curPkg s.curTroupe.core s.curCtx s.curWave.sys pl (askedRun s (s.block e a 8)) = some va) :
    exec (.collRun m d a) s = .next (faultElected s m .prot 0 va) := by
  unfold askedRun at hf
  refine Eq.trans (show _ = execCollRun m d a s from rfl) ?_
  unfold execCollRun
  rw [elected_eq he]
  refine ((if_neg fun h => h.elim (fun h => h h8) (fun h => h h1)).trans (if_neg (by rw [hl]; decide))).trans ?_
  rw [hp]
  refine (if_neg fun h => hst h.1 h.2).trans ?_
  rw [hf]
variable (hf : s.collFault s.curPkg s.curTroupe.core s.curCtx s.curWave.sys pl (askedRun s (s.block e a 8)) = none)
include hf
theorem collRun_waits (hw : (!(s.pkg s.curPkg).runRoom (bf (s.block e a 8) 0 7 0) || s.walkWait .g (runPages pl (askedRun s (s.block e a 8))) || s.relWait .pkg) = true) :
    exec (.collRun m d a) s = .next (waitAt (s.missed .g (runPages pl (askedRun s (s.block e a 8)))) (.collRun m d a)) := by
  unfold askedRun at hf hw
  refine Eq.trans (show _ = execCollRun m d a s from rfl) ?_
  unfold execCollRun
  rw [elected_eq he]
  refine ((if_neg fun h => h.elim (fun h => h h8) (fun h => h h1)).trans (if_neg (by rw [hl]; decide))).trans ?_
  rw [hp]
  refine (if_neg fun h => hst h.1 h.2).trans ?_
  rw [hf]
  exact if_pos hw
theorem collRun_issues (hr : (s.pkg s.curPkg).runRoom (bf (s.block e a 8) 0 7 0) = true) (hw : s.walkWait .g (runPages pl (askedRun s (s.block e a 8))) = false)
    (hrel : s.relWait .pkg = false) : exec (.collRun m d a) s = .next (given (runIssued s (bf (s.block e a 8) 0 7 0) (runPages pl (askedRun s (s.block e a 8)))
      { askedRun s (s.block e a 8) with pages := s.collPages s.curPkg s.curCtx pl (askedRun s (s.block e a 8)) }) m d
      (BitVec.ofNat 32 (2 ^ 31 + ((s.walked .g (runPages pl (askedRun s (s.block e a 8)))).pkg s.curPkg).coll.runSeq.toNat * 2 ^ 8 + bf (s.block e a 8) 0 7 0))) := by
  have hc : ¬(!(s.pkg s.curPkg).runRoom (bf (s.block e a 8) 0 7 0) || s.walkWait .g (runPages pl (askedRun s (s.block e a 8))) || s.relWait .pkg) = true := by
    rw [hr, hw, hrel]
    decide
  unfold askedRun at hf hc
  refine Eq.trans (show _ = execCollRun m d a s from rfl) ?_
  unfold execCollRun
  rw [elected_eq he]
  refine ((if_neg fun h => h.elim (fun h => h h8) (fun h => h h1)).trans (if_neg (by rw [hl]; decide))).trans ?_
  rw [hp]
  refine (if_neg fun h => hst h.1 h.2).trans ?_
  rw [hf]
  exact if_neg hc
end
end
end
theorem runIssued_does (s : State) (m : Mods) (d : Reg) (slot : Nat) (vas : List W64) (r : CollRun) (v : W32) : let t := given (runIssued s slot vas r) m d v
    t.mem = s.mem ∧ LanesBecome s t (fun l x => goOn s l (sends s m none (regs1 d) (fun _ => to32 d v) (fun _ => 0) l x)) ∧
    (t.pkg s.curPkg).coll.runSeq = (s.pkg s.curPkg).coll.runSeq + 1 ∧
    ∃ q ∈ (t.pkg s.curPkg).coll.runs, SameRun { r with seq := (s.pkg s.curPkg).coll.runSeq, plan := slot } q := by
  have ht := walked_translated s .g vas
  have hc := congrArg Pkg.coll (ht.pkg s.curPkg)
  unfold runIssued
  generalize s.walked .g vas = u at ht hc
  obtain ⟨g1, g2, -⟩ := given_setPkg u s.curPkg ((u.pkg s.curPkg).issueRun slot r).2 m d v
  obtain ⟨-, i2, i3⟩ := issueRun_does (u.pkg s.curPkg) slot r
  rw [show (u.pkg s.curPkg).coll.runSeq = (s.pkg s.curPkg).coll.runSeq from congrArg Coll.runSeq hc] at i2 i3
  exact ⟨g1.trans ht.mem, given_lanes ((waveBecomes_refl s).of_waves (u := u.setPkg s.curPkg _) ht.waves) ht.cur ht.nextId m d v,
    (congrArg (fun p => p.coll.runSeq) g2).trans i2, by rw [g2]; exact i3⟩

/-! ### `coll.wt` -/

/-- A value given to the lanes behind an acquire. -/
def givenAcquired (s : State) (m : Mods) (d : Reg) (v : W32) : State := finish ((sendAll s m .owed d 1 (outs32 d v)).acquireLines .pkg) []
theorem givenAcquired_does (s : State) (m : Mods) (d : Reg) (v : W32) : let t := givenAcquired s m d v
    t = { s with waves := t.waves, pkgs := t.pkgs, nextId := s.nextId + 1 } ∧ CachesOnly s t ∧ (t.core s.curPkg s.curTroupe.core).lines = [] ∧
    LanesBecome s t (fun l x => goOn s l (sends s m none (regs1 d) (fun _ => to32 d v) (fun _ => 0) l x)) := by
  have hb := (waveBecomes_refl s).sendAll rfl rfl m (lat := .owed) rfl d 1 (outs32 d v)
  rw [dstRegs_one, outs32_eq] at hb
  have hframe : sendAll s m .owed d 1 (to32 d v) = { s with waves := (sendAll s m .owed d 1 (to32 d v)).waves, nextId := s.nextId + 1 } := rfl
  unfold givenAcquired
  rw [outs32_eq]
  generalize sendAll s m .owed d 1 (to32 d v) = u at hb hframe
  have huc : u.cur = s.cur := by rw [hframe]
  have hut : u.curTid = s.curTid := WaveBecomes.curTid hb huc
  have htr : u.curTroupe = s.curTroupe := by
    unfold State.curTroupe
    rw [hut, hframe]
    rfl
  have hpk : u.curPkg = s.curPkg := by
    unfold State.curPkg
    rw [htr]
  obtain ⟨f1, f2, -, f4⟩ := finish_acquire u .pkg
  rw [hpk, htr] at f4
  have hl := hb.ends (u := u.acquireLines .pkg) (acquireLines_waves u .pkg) ((acquireLines_cur u .pkg).trans huc)
  have hframe' : { u with waves := (finish (u.acquireLines Scope.pkg) []).waves, pkgs := (finish (u.acquireLines Scope.pkg) []).pkgs } =
      { s with waves := (finish (u.acquireLines Scope.pkg) []).waves, pkgs := (finish (u.acquireLines Scope.pkg) []).pkgs, nextId := s.nextId + 1 } := by
    generalize (finish (u.acquireLines Scope.pkg) []).waves = ws
    generalize (finish (u.acquireLines Scope.pkg) []).pkgs = ps
    rw [hframe]
  refine ⟨f1.trans hframe', (cachesOnly_of_same (by rw [hframe]) (by rw [hframe])).trans f2, f4 (by decide), hl⟩

section
variable {s : State} {m : Mods} {d a : Reg} {e : Nat} (he : Elected s m e)
include he
/-- What a handle may not be. -/
def BadHandle (s : State) (h : W32) : Prop := (!h.getLsbD 31) = true ∨ nbits h.toNat 30 24 ≠ 0 ∨ ((s.pkg s.curPkg).coll.runSeq - h.extractLsb' 8 16).toNat = 0 ∨
  2 ^ 15 < ((s.pkg s.curPkg).coll.runSeq - h.extractLsb' 8 16).toNat
omit he in
theorem not_badHandle {h : W32} : ¬BadHandle s h ↔ h.getLsbD 31 = true ∧ nbits h.toNat 30 24 = 0 ∧ 1 ≤ ((s.pkg s.curPkg).coll.runSeq - h.extractLsb' 8 16).toNat ∧
    ((s.pkg s.curPkg).coll.runSeq - h.extractLsb' 8 16).toNat ≤ 2 ^ 15 := by
  unfold BadHandle
  rw [not_or, not_or, not_or, Bool.not_eq_true', Bool.not_eq_false, not_not, Nat.not_lt, Nat.one_le_iff_ne_zero]
theorem collWt_refused (hh : BadHandle s (s.src s.cur.wid e a)) : exec (.collWt m d a) s = .next (refuse s m .param) := by
  refine Eq.trans (show _ = execCollWt m d a s from rfl) ?_
  unfold execCollWt
  rw [elected_eq he]
  exact if_pos hh
variable (hh : ¬BadHandle s (s.src s.cur.wid e a))
include hh
theorem collWt_unknown (hr : (s.pkg s.curPkg).coll.runs.find? (fun r => r.seq == (s.src s.cur.wid e a).extractLsb' 8 16) = none) :
    exec (.collWt m d a) s = .next (givenAcquired s m d 8) := by
  refine Eq.trans (show _ = execCollWt m d a s from rfl) ?_
  unfold execCollWt
  rw [elected_eq he]
  refine (if_neg hh).trans ?_
  rw [hr]
  rfl
variable {r : CollRun} (hr : (s.pkg s.curPkg).coll.runs.find? (fun r => r.seq == (s.src s.cur.wid e a).extractLsb' 8 16) = some r)
include hr
theorem collWt_waits (hd : r.done = false) : exec (.collWt m d a) s = .next (waitAt s (.collWt m d a)) := by
  refine Eq.trans (show _ = execCollWt m d a s from rfl) ?_
  unfold execCollWt
  rw [elected_eq he]
  refine (if_neg hh).trans ?_
  rw [hr]
  exact if_pos (by rw [hd]; rfl)
theorem collWt_over (hd : r.done = true) : exec (.collWt m d a) s = .next (givenAcquired s m d
    (if 256 < ((s.pkg s.curPkg).coll.runSeq - (s.src s.cur.wid e a).extractLsb' 8 16).toNat then 8 else r.status)) := by
  refine Eq.trans (show _ = execCollWt m d a s from rfl) ?_
  unfold execCollWt
  rw [elected_eq he]
  refine (if_neg hh).trans ?_
  rw [hr]
  refine (if_neg (by rw [hd]; decide)).trans ?_
  split <;> rfl
end
theorem collectiveCommands : Claims.CollectiveCommands := by
  intro s m d a e he k b p slot run gives legal h seq back handle ends
  have hends : ∀ v, exec (.collWt m d a) s = .next (givenAcquired s m d (BitVec.ofNat 32 v)) → ends v := fun v hv => ⟨_, hv, givenAcquired_does ..⟩
  refine ⟨fun pl hlg hp hst => ?_, fun h8 h1 hl => ⟨_, collRun_loading he h8 h1 hl, waitAt_waits ..⟩, fun ha hlg hp => ?_, fun ha hh => ?_, fun hh hr => ?_,
    fun hh r hr hseq => ?_⟩
  · obtain ⟨h8, h1, hl⟩ := hlg
    refine ⟨fun va hf ha => ⟨_, collRun_faults he h8 h1 hl hp hst hf, faultElected_access ha ⟨e, he.1⟩ (accessFault_mem (by decide))⟩,
      fun hf => ⟨fun hw => ⟨_, collRun_waits he h8 h1 hl hp hst hf ?_, waitAt_walks hw⟩, fun hw hr => ⟨_, collRun_waits he h8 h1 hl hp hst hf ?_, waitAt_plain hw⟩,
        fun hr hw hrel => ?_⟩⟩
    · rw [show s.walkWait .g (runPages pl (askedRun s (s.block e a 8))) = true from hw, Bool.or_true, Bool.true_or]
    · rcases hr with hr | hr
      · rw [show (s.pkg s.curPkg).runRoom (bf (s.block e a 8) 0 7 0) = false from hr]
        rfl
      · rw [hr, Bool.or_true]
    · have hx := collRun_issues (d := d) he h8 h1 hl hp hst hf hr hw hrel
      rw [show ((s.walked .g (runPages pl (askedRun s (s.block e a 8)))).pkg s.curPkg).coll.runSeq = (s.pkg s.curPkg).coll.runSeq from
        congrArg (fun p => p.coll.runSeq) ((walked_translated s .g _).pkg s.curPkg)] at hx
      obtain ⟨r1, r2, r3, q, hq, h'⟩ := runIssued_does s m d slot (runPages pl (askedRun s b))
        { askedRun s b with pages := s.collPages s.curPkg s.curCtx pl (askedRun s b) } (BitVec.ofNat 32 (2 ^ 31 + p.coll.runSeq.toNat * 2 ^ 8 + slot))
      exact ⟨_, hx, r1, r2, r3, q, hq, h'.seq, h'.plan, h'.ctx, h'.done, h'.born, h'.base0, h'.base1, h'.base2⟩
  · obtain ⟨h8, h1, hl⟩ := hlg
    exact ⟨_, collRun_unloaded he h8 h1 hl hp, refuse_stops (sub := .param) ha ⟨e, he.1⟩⟩
  · exact ⟨_, collWt_refused he (not_not.1 fun hb => hh (not_badHandle.1 hb)), refuse_stops (sub := .param) ha ⟨e, he.1⟩⟩
  · exact hends 8 (collWt_unknown he (not_badHandle.2 hh) (List.find?_eq_none.2 fun r hr' hs => hr r hr' (beq_iff_eq.1 hs)))
  · have hfind : (s.pkg s.curPkg).coll.runs.find? (fun r => r.seq == (s.src s.cur.wid e a).extractLsb' 8 16) = some r := by
      rw [show (s.pkg s.curPkg).coll.runs = [r] from hr]
      exact List.find?_cons_of_pos (beq_iff_eq.2 hseq)
    refine ⟨fun hd => ⟨_, collWt_waits he (not_badHandle.2 hh) hfind hd, waitAt_waits ..⟩, fun hd hb => hends _ ?_, fun hd hb => hends 8 ?_⟩
    · exact (collWt_over he (not_badHandle.2 hh) hfind hd).trans (by rw [if_neg (Nat.not_lt.2 hb)]; rfl)
    · exact (collWt_over he (not_badHandle.2 hh) hfind hd).trans (by rw [if_pos hb]; rfl)
end Sys2Proof
end

