-- ==== Sys2Proof/Proofs/CollectiveEntries.lean ====
section
/-! SUPPORT. The entries of a run (R381, R384, R386 to R388): their start, what they send, the folds, their end. -/

namespace Sys2Proof
open Machine

/-! ### A change of one run -/

/-- A change of the runs of a number that keeps their numbers is a change of what their number finds. -/
theorem run?_modRun (p : Pkg) (n : W16) (m : Nat) {f : CollRun → CollRun} (hf : ∀ r, r.seq = n → (f r).seq = r.seq) :
    (p.modRun n f).run? m = (p.run? m).map (fun r => if r.seq = n then f r else r) := by
  have hs : ∀ r : CollRun, (if r.seq = n then f r else r).seq = r.seq := fun r => by
    split
    next h => exact hf r h
    next => rfl
  unfold Pkg.run? Pkg.modRun
  dsimp only
  rw [List.find?_map]
  refine congrArg (Option.map _) (congrArg (fun g => List.find? g p.coll.runs) (funext fun r => ?_))
  rw [Function.comp_apply, hs]
theorem run?_seq {p : Pkg} {n : Nat} {r : CollRun} (h : p.run? n = some r) : r.seq = BitVec.ofNat 16 n := by
  simpa using List.find?_some h
theorem run?_modRun_self {p : Pkg} {n : Nat} {r : CollRun} (h : p.run? n = some r) {f : CollRun → CollRun} (hf : ∀ x, x.seq = r.seq → (f x).seq = x.seq) :
    (p.modRun r.seq f).run? n = some (f r) := by
  rw [run?_modRun p r.seq n hf, h]
  exact congrArg some (if_pos rfl)
theorem ent_modEnt (r : CollRun) (i j : Nat) (f : EntRec → EntRec) : (r.modEnt i f).ent j = if j = i then f (r.ent i) else r.ent j := fget_fput ..
theorem ent_modEnt_self (r : CollRun) (i : Nat) (f : EntRec → EntRec) : (r.modEnt i f).ent i = f (r.ent i) := (ent_modEnt ..).trans (if_pos rfl)

/-! ### An entry starts (R381, R384) -/

/-- The entry has started. -/
def runBegun (r : CollRun) (i : Nat) : CollRun := r.modEnt i (fun c => { c with st := .started })
/-- An entry whose next segment goes to the reducers, or to the peer. -/
def runFolding (r : CollRun) (i : Nat) (v : List CVal) (n : Nat) : CollRun :=
  ((runBegun r i).note v).modEnt i (fun c => { c with next := c.next + 1, folds := c.folds + n })
def runSending (r : CollRun) (i : Nat) (v : List CVal) : CollRun := ((runBegun r i).note v).modEnt i (fun c => { c with sent := c.sent + 1 })
theorem runBegun_ent (r : CollRun) (i : Nat) (v : List CVal) : ((runBegun r i).note v).ent i = { (r.ent i) with st := .started } :=
  ent_modEnt_self r i (fun c => { c with st := .started })
theorem runFolding_ent (r : CollRun) (i : Nat) (v : List CVal) (n : Nat) : (runFolding r i v n).ent i =
    { (r.ent i) with st := .started, next := (r.ent i).next + 1, folds := (r.ent i).folds + n } := by
  unfold runFolding
  rw [ent_modEnt_self, runBegun_ent]
theorem runSending_ent (r : CollRun) (i : Nat) (v : List CVal) : (runSending r i v).ent i = { (r.ent i) with st := .started, sent := (r.ent i).sent + 1 } := by
  unfold runSending
  rw [ent_modEnt_self, runBegun_ent]
/-- The package when a segment has been queued for its reducers, or for the peer. -/
def segmentQueued (n : W16) (i : Nat) (v : List CVal) (l : List FoldSeg) (q : Pkg) : Pkg :=
  { q.modRun n (fun r => runFolding r i v l.length) with coll := { (q.modRun n (fun r => runFolding r i v l.length)).coll with folds := q.coll.folds ++ l } }
def segmentSent (n : W16) (i : Nat) (v : List CVal) (x : Packet) (q : Pkg) : Pkg := (q.sendDirect x).modRun n (fun r => runSending r i v)

section
variable {s : State} {k n i : Nat} {r : CollRun} {e : PEntry} (hr : (s.pkg k).run? n = some r) (he : ((s.pkg k).plan r.plan).ents[i]? = some e)
include hr he
theorem entryStart_idle (hm : ((s.pkg k).plan r.plan).mayStart r i e = false) (hs : (r.ent i).st ≠ .started) : exec (.collEntryStart k n i) s = .next s := by
  refine Eq.trans (show _ = execCollEntryStart k n i s from rfl) ?_
  unfold execCollEntryStart
  simp only [hr, he]
  refine if_pos ?_
  rw [hm, beq_eq_false_iff_ne.2 hs]
  rfl
variable (hm : ((s.pkg k).plan r.plan).mayStart r i e = true)
include hm
theorem entryStart_folds {v : List CVal} {l : List FoldSeg} (hst : s.entStep k ((s.pkg k).plan r.plan) r i e = .fold v l) :
    exec (.collEntryStart k n i) s = .next (s.modPkg k (segmentQueued r.seq i v l)) := by
  refine Eq.trans (show _ = execCollEntryStart k n i s from rfl) ?_
  unfold execCollEntryStart
  simp only [hr, he]
  refine (if_neg (by rw [hm]; exact Bool.false_ne_true)).trans ?_
  rw [hst]
  rfl
theorem entryStart_sends {v : List CVal} {bs : List Byte} (hst : s.entStep k ((s.pkg k).plan r.plan) r i e = .send v bs) :
    exec (.collEntryStart k n i) s = .next (s.modPkg k (segmentSent r.seq i v (chunkPacket k r ((s.pkg k).plan r.plan) e (r.ent i).sent bs))) := by
  refine Eq.trans (show _ = execCollEntryStart k n i s from rfl) ?_
  unfold execCollEntryStart
  simp only [hr, he]
  refine (if_neg (by rw [hm]; exact Bool.false_ne_true)).trans ?_
  rw [hst]
  rfl
end
section
variable {s : State} {k i : Nat} {p : Plan} {r : CollRun} {e : PEntry} (h0 : (r.ent i).next = 0) (hp : s.segPoisoned k p r e 0 = false) (hn : 1 ≤ p.nseg e)
include h0 hp hn
theorem entStep_folds (hw : e.writes = true) (hroom : (s.pkg k).foldRoom (s.foldSegs k p r i e 0 ((s.segVals k p r i e 0).map (fun v => v.bits))) = true) :
    s.entStep k p r i e = .fold (s.segVals k p r i e 0) (s.foldSegs k p r i e 0 ((s.segVals k p r i e 0).map (fun v => v.bits))) := by
  unfold State.entStep
  dsimp only
  rw [h0, if_pos ⟨hw, hn⟩, if_neg (by rw [hp]; decide), if_pos hroom]
theorem entStep_sends (h1 : (r.ent i).sent = 0) (hop : e.op = 1) (hw : e.writes = false) (hv : (s.pkg k).vqRoom e.peer 66 = true) :
    s.entStep k p r i e = .send (s.segVals k p r i e 0) (valBytes p.afmt ((s.segVals k p r i e 0).map (fun v => v.bits))) := by
  have hs : e.sends = true := by
    unfold PEntry.sends
    rw [hop]
    rfl
  unfold State.entStep
  dsimp only
  rw [h0, h1, if_neg fun h => absurd (hw.symm.trans h.1) (by decide), if_pos ⟨hs, hn, .inl (by rw [hw]; rfl), hv⟩, if_neg (by rw [hp]; decide),
    if_neg fun h => absurd (hw.symm.trans h.2) (by decide)]
end

/-! ### An entry ends (R381, R382) -/

theorem fget_signal (r : CollRun) (x : Option Nat) (c : Nat) : fget 0 (r.signal x).ctrs c = fget 0 r.ctrs c + (if x = some c then 1 else 0) := by
  unfold CollRun.signal
  cases x with
  | none => exact (Nat.add_zero _).symm
  | some y =>
    refine (fget_fput ..).trans ?_
    by_cases h : c = y
    · rw [if_pos h, if_pos (by rw [h]), h]
    · rw [if_neg h, if_neg fun h' => h (Option.some.inj h').symm]
      rfl
theorem signal_ents (r : CollRun) (x : Option Nat) : (r.signal x).ents = r.ents ∧ (r.signal x).seq = r.seq ∧ (r.signal x).done = r.done ∧ (r.signal x).ab = r.ab ∧
    (r.signal x).plan = r.plan := by
  unfold CollRun.signal
  cases x <;> exact ⟨rfl, rfl, rfl, rfl, rfl⟩
/-- The run when an entry has ended. -/
def entryEnded (r : CollRun) (i : Nat) (e : PEntry) : CollRun := ((r.modEnt i (fun c => { c with st := .done, segs := [] })).signal e.sig0).signal e.sig1
theorem entryEnded_ent (r : CollRun) (i : Nat) (e : PEntry) (j : Nat) : ((entryEnded r i e).ent j).st = if j = i then .done else (r.ent j).st := by
  have h : (entryEnded r i e).ent j = (r.modEnt i (fun c => { c with st := .done, segs := [] })).ent j := by
    unfold CollRun.ent entryEnded
    rw [(signal_ents _ _).1, (signal_ents _ _).1]
  rw [h, ent_modEnt]
  split <;> rfl
theorem entryEnded_rest (r : CollRun) (i : Nat) (e : PEntry) : (entryEnded r i e).seq = r.seq ∧ (entryEnded r i e).done = r.done ∧ (entryEnded r i e).ab = r.ab ∧
    (entryEnded r i e).plan = r.plan := by
  obtain ⟨-, a1, a2, a3, a4⟩ := signal_ents (r.modEnt i (fun c => { c with st := .done, segs := [] })) e.sig0
  obtain ⟨-, b1, b2, b3, b4⟩ := signal_ents ((r.modEnt i (fun c => { c with st := .done, segs := [] })).signal e.sig0) e.sig1
  exact ⟨b1.trans a1, b2.trans a2, b3.trans a3, b4.trans a4⟩
theorem entryEnded_ctrs (r : CollRun) (i : Nat) (e : PEntry) (c : Nat) : fget 0 (entryEnded r i e).ctrs c =
    fget 0 r.ctrs c + (if e.sig0 = some c then 1 else 0) + (if e.sig1 = some c then 1 else 0) := by
  unfold entryEnded
  rw [fget_signal, fget_signal]
  rfl
/-- The next run of a plan is none of those that are over. -/
theorem run?_activateNext {p : Pkg} (plan : Nat) {n : Nat} {r : CollRun} (h : p.run? n = some r) (hd : ∀ x ∈ p.coll.runs, x.seq = r.seq → x.done = true) :
    (p.activateNext plan).run? n = some r := by
  unfold Pkg.activateNext
  split
  · exact h
  · split
    next x hx =>
      have hmem := List.mem_filter.1 (List.mem_of_find?_eq_some hx)
      have hne : x.seq ≠ r.seq := fun he => by
        have := hd x hmem.1 he
        rw [this] at hmem
        exact absurd hmem.2 (by decide)
      unfold Pkg.activate
      dsimp only
      rw [run?_modRun _ _ _ fun y _ => SameRun.seq (SameRun.trans (q := { y with active := true }) ⟨rfl, rfl, rfl, rfl, rfl, rfl, rfl, rfl⟩
        (delivers_sameRun (fun r => p.plan r.plan) _ _))]
      refine (congrArg (Option.map _) (show _ = some r from h)).trans ?_
      exact congrArg some (if_neg hne.symm)
    next => exact h
/-- A run that is over as all its entries are. -/
def runOver (r : CollRun) : CollRun := { r with done := true, pages := [], ents := [] }
theorem retireRun_run {s : State} {k n : Nat} {r : CollRun} (hr : (s.pkg k).run? n = some r) (hab : r.ab = false) :
    (s.retireRun k r).mem = s.mem ∧ ((s.retireRun k r).pkg k).run? n = some (runOver r) := by
  unfold State.retireRun
  dsimp only
  rw [if_neg (by rw [hab]; decide)]
  refine ⟨mem_modPkg .., ?_⟩
  rw [State.pkg_modPkg_self]
  refine run?_activateNext _ (run?_modRun_self hr (f := runOver) fun _ _ => rfl) fun x hx hs => ?_
  obtain ⟨y, -, rfl⟩ := List.mem_map.1 hx
  by_cases hy : y.seq = r.seq
  · rw [if_pos hy]
  · rw [if_neg hy] at hs
    exact absurd hs hy
section
variable {s : State} {k n i : Nat} {r : CollRun} {e : PEntry} (hr : (s.pkg k).run? n = some r) (he : ((s.pkg k).plan r.plan).ents[i]? = some e)
  (hd : r.done = false) (hac : r.active = true) (hab : r.ab = false)
include hr he hd hac hab
theorem entryComplete_early (h : (s.pkg k).entDone ((s.pkg k).plan r.plan) r i e = false) : exec (.collEntryComplete k n i) s = .next s := by
  refine Eq.trans (show _ = execCollEntryComplete k n i s from rfl) ?_
  unfold execCollEntryComplete
  simp only [hr, he, hd, hac, hab, h]
  rfl
theorem entryComplete_ends (h : (s.pkg k).entDone ((s.pkg k).plan r.plan) r i e = true) : exec (.collEntryComplete k n i) s = .next
    (if (List.range ((s.pkg k).plan r.plan).ents.length).all (fun j => ((entryEnded r i e).ent j).st == .done) then
      (s.modPkg k (fun q => q.modRun r.seq (fun _ => entryEnded r i e))).retireRun k (entryEnded r i e)
    else s.modPkg k (fun q => q.modRun r.seq (fun _ => entryEnded r i e))) := by
  refine Eq.trans (show _ = execCollEntryComplete k n i s from rfl) ?_
  unfold execCollEntryComplete
  simp only [hr, he, hd, hac, hab, h]
  rfl
theorem entryComplete_does (h : (s.pkg k).entDone ((s.pkg k).plan r.plan) r i e = true) : After (.collEntryComplete k n i) s (fun t => t.mem = s.mem ∧
    ∃ q, (t.pkg k).run? n = some q ∧
      ((∀ j, j < ((s.pkg k).plan r.plan).ents.length → j ≠ i → (r.ent j).st = .done) → q.done = true) ∧
      (∀ j, j < ((s.pkg k).plan r.plan).ents.length → j ≠ i → (r.ent j).st ≠ .done → q.done = false ∧ (q.ent i).st = .done) ∧
      ∀ c, fget 0 q.ctrs c = fget 0 r.ctrs c + (if e.sig0 = some c then 1 else 0) + (if e.sig1 = some c then 1 else 0)) := by
  obtain ⟨r1, r2, r3, -⟩ := entryEnded_rest r i e
  have hx := entryComplete_ends hr he hd hac hab h
  have hrun : ((s.modPkg k (fun q => q.modRun r.seq (fun _ => entryEnded r i e))).pkg k).run? n = some (entryEnded r i e) := by
    rw [State.pkg_modPkg_self]
    exact run?_modRun_self hr fun x hx => r1.trans hx.symm
  split at hx
  next hall =>
    obtain ⟨t1, t2⟩ := retireRun_run hrun (r3.trans hab)
    refine ⟨_, hx, t1.trans (mem_modPkg ..), _, t2, fun _ => rfl, fun j hj hji hst => ?_, entryEnded_ctrs r i e⟩
    have h' := List.all_eq_true.1 hall j (List.mem_range.2 hj)
    rw [entryEnded_ent, if_neg hji, beq_iff_eq] at h'
    exact absurd h' hst
  next hall =>
    refine ⟨_, hx, mem_modPkg .., _, hrun, fun hj => absurd (List.all_eq_true.2 fun j hj' => ?_) hall, fun j _ _ _ => ⟨r2.trans hd, ?_⟩, entryEnded_ctrs r i e⟩
    · rw [entryEnded_ent, beq_iff_eq]
      split
      next => rfl
      next hji => exact hj j (List.mem_range.1 hj') hji
    · rw [entryEnded_ent, if_pos rfl]
end

/-! ### Folds (R386 to R388) -/

theorem accBytes_eq (p : Plan) : fmtBytes (p.fmt 2) = accBytes p.afmt := by
  unfold Plan.fmt accBytes
  by_cases h : p.afmt = 0
  · rw [if_pos h, if_neg (by decide), if_neg (by decide), if_pos h]
    rfl
  · rw [if_neg h, if_neg (by decide), if_neg (by decide), if_neg h]
    rfl
theorem fmtBytes_pos (c : Nat) : 1 ≤ fmtBytes c := by
  unfold fmtBytes
  split <;> [decide; split <;> decide]
theorem length_flatten_leBytes {α : Type} (n : Nat) (g : α → Nat) (l : List α) : (l.map (fun v => leBytes n (g v))).flatten.length = l.length * n := by
  induction l with
  | nil => exact (Nat.zero_mul n).symm
  | cons x l ih => rw [List.map_cons, List.flatten_cons, List.length_append, ih, leBytes_length, List.length_cons, Nat.succ_mul, Nat.add_comm]
theorem splitVals_length {n m : Nat} {bs : List Byte} (h : bs.length = m * n) (hn : 1 ≤ n) : (splitVals n bs).length = m := by
  unfold splitVals
  rw [List.length_map, List.length_range, h, Nat.mul_div_cancel _ hn]
theorem splitVals_one {n : Nat} {bs : List Byte} (h : bs.length = n) (hn : 1 ≤ n) : splitVals n bs = [leNat bs] := by
  unfold splitVals
  rw [h, Nat.div_self hn, List.range_one, List.map_singleton, Nat.zero_mul, List.drop_zero, List.take_of_length_le h.le]
section
variable {p : Plan} {e : PEntry} (hd : e.dbase = 1 ∨ e.dbase = 2)
include hd
/-- A fold leaves as many bytes as its values have. -/
theorem foldOut_length {old : List Byte} {vals : List Nat} (ho : old.length = vals.length * fmtBytes (p.fmt e.dbase)) :
    (foldOut p e old vals).2.length = vals.length * fmtBytes (p.fmt e.dbase) := by
  unfold foldOut
  by_cases h1 : e.dbase = 1
  · rw [if_pos h1, h1]
    refine (length_flatten_leBytes (fmtBytes p.ofmt) CVal.bits _).trans ?_
    rw [List.length_map]
    rfl
  · have h2 := hd.resolve_left h1
    rw [if_neg h1]
    rw [h2, accBytes_eq] at ho ⊢
    by_cases hr : e.red = true
    · rw [if_pos hr]
      refine (length_flatten_leBytes (accBytes p.afmt) (fun v => v) _).trans ?_
      rw [List.length_map, List.length_map, List.length_zip, splitVals_length ho (accBytes_eq p ▸ fmtBytes_pos _), Nat.min_self]
    · rw [if_neg hr]
      exact length_flatten_leBytes (accBytes p.afmt) (fun v => v) _
/-- What one value leaves at its place. -/
theorem foldOut_one {old : List Byte} (v : Nat) (ho : old.length = fmtBytes (p.fmt e.dbase)) : (foldOut p e old [v]).2 = leBytes (fmtBytes (p.fmt e.dbase))
    (if e.dbase = 1 then (narrow p.afmt p.ofmt v).bits
      else if e.red then (fAdd (if p.afmt = 0 then fmt32 else fmt64) .rne (leNat old) v).1 else v) := by
  unfold foldOut
  by_cases h1 : e.dbase = 1
  · rw [if_pos h1, if_pos h1, h1]
    exact List.append_nil _
  · have h2 := hd.resolve_left h1
    rw [if_neg h1, if_neg h1]
    rw [h2, accBytes_eq] at ho ⊢
    by_cases hr : e.red = true
    · rw [if_pos hr, if_pos hr, splitVals_one ho (accBytes_eq p ▸ fmtBytes_pos _)]
      exact List.append_nil _
    · rw [if_neg hr, if_neg hr]
      exact List.append_nil _
end
theorem storeSpans_one {s : State} {a n : Nat} {bs : List Byte} (h : bs.length = n) : s.storeSpans [(a, n)] bs = s.storeAt a bs := by
  unfold State.storeSpans
  rw [List.foldl_cons, List.foldl_nil, List.take_of_length_le h.le]
theorem loadSpans_one (s : State) (a n : Nat) : s.loadSpans [(a, n)] = memGets s.mem a n := by
  unfold State.loadSpans
  rw [List.map_singleton, List.flatten_singleton]
  rfl
/-- The queue of the reducers with other commands. -/
def foldsNow (l : List FoldSeg) (q : Pkg) : Pkg := { q with coll := { q.coll with folds := l } }
/-- What a unit of a command adds to its run and to its entry. -/
def unitNoted (f : FoldSeg) (seq : W16) (e : PEntry) (num acc : Nat) (o : List CVal × List Byte) (q : Pkg) : Pkg :=
  (if f.fold then q.spend paceReduce (num * acc) else q).modRun seq (fun r => (r.note o.1).modEnt f.ent (fun c =>
    if e.op = 3 ∧ e.dbase = 2 then (if f.vals.length ≤ num then { c with folds := c.folds - 1 } else c).putBack f.seg f.off o.2
    else if f.vals.length ≤ num then { c with folds := c.folds - 1 } else c))
theorem unitNoted_folds (f : FoldSeg) (seq : W16) (e : PEntry) (num acc : Nat) (o : List CVal × List Byte) (q : Pkg) :
    (unitNoted f seq e num acc o q).coll.folds = q.coll.folds := by
  unfold unitNoted
  split <;> rfl
section
variable {s : State} {k j : Nat} {f : FoldSeg} (hf : (s.pkg k).coll.folds[j]? = some f)
include hf
theorem reducerFold_idle (h : (s.pkg k).redDown ((s.pkg k).reducer f.stack) = true ∨ ∃ g ∈ (s.pkg k).coll.folds.take j, (s.pkg k).reducer g.stack = (s.pkg k).reducer f.stack) :
    exec (.reducerFold k j) s = .next s := by
  refine Eq.trans (show _ = execReducerFold k j s from rfl) ?_
  unfold execReducerFold
  simp only [hf]
  refine if_pos ?_
  rcases h with h | ⟨g, hg, h⟩
  · rw [h]
    rfl
  · have ha : ((s.pkg k).coll.folds.take j).any (fun g => (s.pkg k).reducer g.stack == (s.pkg k).reducer f.stack) = true := List.any_eq_true.2 ⟨g, hg, beq_iff_eq.2 h⟩
    rw [ha, Bool.or_true, Bool.true_or]
variable {r : CollRun} {e : PEntry} {a : Nat} (hr : (s.pkg k).run? f.run.toNat = some r) (he : ((s.pkg k).plan r.plan).ents[f.ent]? = some e)
  (hdown : (s.pkg k).redDown ((s.pkg k).reducer f.stack) = false)
  (hfirst : ∀ g ∈ (s.pkg k).coll.folds.take j, (s.pkg k).reducer g.stack ≠ (s.pkg k).reducer f.stack)
  (hcred : f.fold = true → (s.pkg k).mayStart paceReduce = true)
  (hat : f.at_ = [(a, fmtBytes (((s.pkg k).plan r.plan).fmt e.dbase) * f.vals.length)])
include hr he hdown hfirst hcred hat
theorem reducerFold_eq {num : Nat} (hnum : min f.vals.length (max 1 ((256 - a % 256) / fmtBytes (((s.pkg k).plan r.plan).fmt e.dbase))) = num)
    (hp : s.poisoned a (num * fmtBytes (((s.pkg k).plan r.plan).fmt e.dbase)) = false) :
    exec (.reducerFold k j) s = .next (((s.modPkg k (foldsNow
      (if f.vals.length ≤ num then (s.pkg k).coll.folds.eraseIdx j
        else (s.pkg k).coll.folds.set j (f.rest num (fmtBytes (((s.pkg k).plan r.plan).fmt e.dbase)) (accBytes ((s.pkg k).plan r.plan).afmt))))).storeSpans
      [(a, num * fmtBytes (((s.pkg k).plan r.plan).fmt e.dbase))]
      (foldOut ((s.pkg k).plan r.plan) e (s.loadSpans [(a, num * fmtBytes (((s.pkg k).plan r.plan).fmt e.dbase))]) ((f.vals.take num).map (fun v => v.toNat))).2).modPkg k
        (unitNoted f r.seq e num (accBytes ((s.pkg k).plan r.plan).afmt)
          (foldOut ((s.pkg k).plan r.plan) e (s.loadSpans [(a, num * fmtBytes (((s.pkg k).plan r.plan).fmt e.dbase))]) ((f.vals.take num).map (fun v => v.toNat))))) := by
  have hbusy : ((s.pkg k).redDown ((s.pkg k).reducer f.stack) || ((s.pkg k).coll.folds.take j).any (fun g => (s.pkg k).reducer g.stack == (s.pkg k).reducer f.stack) ||
      (f.fold && !(s.pkg k).mayStart paceReduce)) = false := by
    rw [hdown, Bool.false_or, Bool.or_eq_false_iff]
    refine ⟨List.any_eq_false.2 fun g hg hb => hfirst g hg (beq_iff_eq.1 hb), ?_⟩
    cases hfo : f.fold with
    | false => rfl
    | true =>
      rw [hcred hfo]
      rfl
  have hunit : f.unit (fmtBytes (((s.pkg k).plan r.plan).fmt e.dbase)) = num := by
    unfold FoldSeg.unit
    rw [hat]
    exact hnum
  have hpo : s.spansPoisoned [(a, num * fmtBytes (((s.pkg k).plan r.plan).fmt e.dbase))] = false := by
    unfold State.spansPoisoned
    rw [List.any_cons, List.any_nil, hp]
    rfl
  refine Eq.trans (show _ = execReducerFold k j s from rfl) ?_
  unfold execReducerFold
  simp only [hf]
  refine (if_neg (by rw [hbusy]; exact Bool.false_ne_true)).trans ?_
  simp only [hr, he, hunit, hat]
  refine (if_neg (by rw [hpo]; exact fun h => Bool.false_ne_true h.2)).trans ?_
  refine congrArg Host.Outcome.next ?_
  by_cases hl : f.vals.length ≤ num
  · rw [if_pos hl, if_pos hl]
    rfl
  · rw [if_neg hl, if_neg hl]
    rfl
theorem reducerFold_does {num : Nat} (hnum : min f.vals.length (max 1 ((256 - a % 256) / fmtBytes (((s.pkg k).plan r.plan).fmt e.dbase))) = num)
    (hd : e.dbase = 1 ∨ e.dbase = 2) (hno : NoneAbout s a (num * fmtBytes (((s.pkg k).plan r.plan).fmt e.dbase)))
    (hp : s.poisoned a (num * fmtBytes (((s.pkg k).plan r.plan).fmt e.dbase)) = false) : After (.reducerFold k j) s (fun t =>
      t.mem = memPuts s.mem a (foldOut ((s.pkg k).plan r.plan) e (memGets s.mem a (num * fmtBytes (((s.pkg k).plan r.plan).fmt e.dbase))) ((f.vals.take num).map (fun v => v.toNat))).2 ∧
      (t.pkg k).coll.folds = if f.vals.length ≤ num then (s.pkg k).coll.folds.eraseIdx j
        else (s.pkg k).coll.folds.set j (f.rest num (fmtBytes (((s.pkg k).plan r.plan).fmt e.dbase)) (accBytes ((s.pkg k).plan r.plan).afmt))) := by
  have hx := reducerFold_eq hf hr he hdown hfirst hcred hat hnum hp
  have hv : ((f.vals.take num).map (fun v => v.toNat)).length = num := by
    rw [List.length_map, List.length_take, ← hnum]
    omega
  have hl := foldOut_length (p := (s.pkg k).plan r.plan) hd (vals := (f.vals.take num).map (fun v => v.toNat)) (old := memGets s.mem a (num * fmtBytes (((s.pkg k).plan r.plan).fmt e.dbase)))
    (by rw [hv, memGets_length])
  rw [hv] at hl
  rw [loadSpans_one, storeSpans_one hl] at hx
  generalize foldOut ((s.pkg k).plan r.plan) e (memGets s.mem a (num * fmtBytes (((s.pkg k).plan r.plan).fmt e.dbase))) ((f.vals.take num).map (fun v => v.toNat)) = o at hx hl
  generalize (if f.vals.length ≤ num then (s.pkg k).coll.folds.eraseIdx j
    else (s.pkg k).coll.folds.set j (f.rest num (fmtBytes (((s.pkg k).plan r.plan).fmt e.dbase)) (accBytes ((s.pkg k).plan r.plan).afmt))) = l at hx
  have hno' : NoneAbout (s.modPkg k (foldsNow l)) a o.2.length := by
    rw [hl]
    exact hno
  refine ⟨_, hx, (mem_modPkg ..).trans ((storeAt_mem hno').trans (congrArg (fun m => memPuts m a o.2) (mem_modPkg ..))), ?_⟩
  rw [State.pkg_modPkg_self]
  refine (unitNoted_folds ..).trans ?_
  rw [(storeAt_memoryOnly hno').pkg k, State.pkg_modPkg_self]
  rfl
end
theorem segmentSent_vq (n : W16) (i : Nat) (v : List CVal) (x : Packet) (q : Pkg) :
    ((segmentSent n i v x q).peer x.dst).vq = (q.peer x.dst).vq ++ [{ x with via := x.dst }] :=
  congrArg Peer.vq (peer_modPeer_self q x.dst (fun r => { r with vq := r.vq ++ [{ x with via := x.dst }], sentD := r.sentD + 1 }))
theorem chunkPacket_zero (k : Nat) (r : CollRun) (p : Plan) (e : PEntry) (bs : List Byte) : { chunkPacket k r p e 0 bs with via := e.peer } =
    { Packet.init with src := k, dst := e.peer, via := e.peer, kind := .copySeg, last := decide (p.nseg e = 1), ctx := r.ctx,
                       addr := chunkTag r.rseq r.plan e.pidx 0, bytes := bs } := by
  have h : (0 + 1 == p.nseg e) = decide (p.nseg e = 1) := by
    rw [Bool.beq_comm]
    rfl
  unfold chunkPacket
  rw [h]
theorem collectiveWork : Claims.CollectiveWork := by
  intro s k n i r e hr he p vals bits begins
  refine ⟨fun hm hs => entryStart_idle hr he hm hs, fun hb hw hroom => ?_, fun hb hop hw hv => ?_, ?_, fun hd hac hab h => entryComplete_early hr he hd hac hab h,
    fun hd hac hab h => entryComplete_does hr he hd hac hab h⟩
  · obtain ⟨hm, h0, -, hp, hn⟩ := hb
    have hx := entryStart_folds hr he hm (entStep_folds h0 hp hn hw hroom)
    refine ⟨_, hx, mem_modPkg .., rfl, ?_, runFolding r i vals (s.foldSegs k p r i e 0 bits).length, ?_, ?_, ?_⟩
    · rw [State.pkg_modPkg_self]
      rfl
    · rw [State.pkg_modPkg_self]
      exact run?_modRun_self hr fun _ _ => rfl
    · rw [runFolding_ent]
    · rw [runFolding_ent]
      exact congrArg (· + 1) h0
  · obtain ⟨hm, h0, h1, hp, hn⟩ := hb
    have hx := entryStart_sends hr he hm (entStep_sends h0 hp hn h1 hop hw hv)
    refine ⟨_, hx, mem_modPkg .., ?_, runSending r i vals, ?_, ?_, ?_⟩
    · rw [State.pkg_modPkg_self]
      refine (segmentSent_vq ..).trans ?_
      rw [h1]
      exact congrArg (fun x => ((s.pkg k).peer e.peer).vq ++ [x]) (chunkPacket_zero ..)
    · rw [State.pkg_modPkg_self]
      exact run?_modRun_self (p := (s.pkg k).sendDirect _) hr fun _ _ => rfl
    · rw [runSending_ent]
    · rw [runSending_ent]
      exact congrArg (· + 1) h1
  · intro j f a hf hrun hent one len unit hat _ hd
    subst hent
    rw [← hrun] at hr
    refine ⟨fun h => reducerFold_idle hf h, fun hdown hfirst hcred => ⟨fun v hv hno hpo => ?_, fun hu hno hpo => ?_⟩⟩
    · have hl : f.vals.length = 1 := by rw [hv]; rfl
      have hnum : min f.vals.length (max 1 ((256 - a % 256) / fmtBytes (p.fmt e.dbase))) = 1 := by
        rw [hl]
        omega
      obtain ⟨t, ht, t1, t2⟩ := reducerFold_does hf hr he hdown hfirst hcred hat hnum hd (by rw [Nat.one_mul]; exact hno) (by rw [Nat.one_mul]; exact hpo)
      rw [hv, Nat.one_mul, List.take_of_length_le (by exact le_rfl), List.map_singleton, foldOut_one hd v.toNat (memGets_length ..)] at t1
      refine ⟨t, ht, t2.trans (if_pos hl.le), ?_⟩
      have hold : (if e.dbase = 1 then (narrow p.afmt p.ofmt v.toNat).bits
          else if e.red then (fAdd (if p.afmt = 0 then fmt32 else fmt64) .rne (leNat (memGets s.mem a len)) v.toNat).1 else v.toNat) =
          (if e.dbase = 1 then (narrow p.afmt p.ofmt v.toNat).bits
            else if e.red then (fAdd (if p.afmt = 0 then fmt32 else fmt64) .rne (numberAt s a (accBytes p.afmt)) v.toNat).1 else v.toNat) := by
        by_cases h1 : e.dbase = 1
        · rw [if_pos h1, if_pos h1]
        · rw [show len = accBytes p.afmt from (congrArg (fun x => fmtBytes (p.fmt x)) (hd.resolve_left h1)).trans (accBytes_eq p)]
          rfl
      rw [← hold]
      refine ⟨?_, fun b hb => ?_⟩
      · rw [t1]
        have h := memGets_memPuts s.mem a (leBytes len (if e.dbase = 1 then (narrow p.afmt p.ofmt v.toNat).bits
          else if e.red then (fAdd (if p.afmt = 0 then fmt32 else fmt64) .rne (leNat (memGets s.mem a len)) v.toNat).1 else v.toNat))
        rwa [leBytes_length] at h
      · rw [t1]
        exact memGet_memPuts_ne _ _ _ _ (by rw [leBytes_length]; exact hb)
    · have hnum : min f.vals.length (max 1 ((256 - a % 256) / fmtBytes (p.fmt e.dbase))) = unit := Nat.min_eq_right hu.le
      obtain ⟨t, ht, t1, t2⟩ := reducerFold_does hf hr he hdown hfirst hcred hat hnum hd hno hpo
      rw [if_neg (Nat.not_le.2 hu)] at t2
      refine ⟨t, ht, fun b hb => ?_, f.rest unit len (accBytes p.afmt), ?_, rfl, rfl, ?_⟩
      · rw [t1]
        refine memGet_memPuts_ne _ _ _ _ ?_
        have hv : ((f.vals.take unit).map (fun v => v.toNat)).length = unit := by
          rw [List.length_map, List.length_take, Nat.min_eq_left hu.le]
        rw [foldOut_length hd (by rw [hv, memGets_length]), hv]
        exact hb
      · rw [t2]
        exact List.getElem?_set_self (List.getElem?_eq_some_iff.1 hf).1
      · unfold FoldSeg.rest
        rw [hat]
        rfl
/-- Settles O37: a run is issued and waited for, its entries start, send and fold, and a run whose entries are all done is over. -/
theorem collectives : Obligations.Collectives := ⟨collectiveCommands, collectiveWork⟩

end Sys2Proof
end

