-- ==== Sys2Proof/Proofs/Spawning.lean ====
section
/-! SUPPORT. `spawn` (R171): what it answers, and the record that it writes. -/

namespace Sys2Proof
open Machine

/-- A store of bytes changes of the packages what is poisoned alone. -/
theorem store_phys (s : State) (a : Nat) (bs : List Byte) (j : Nat) :
    (s.store a bs).pkg j = { s.pkg j with phys := { (s.pkg j).phys with poison := ((s.store a bs).pkg j).phys.poison } } := by
  unfold State.store
  rw [State.pkg_modPkg]
  split
  next h => subst h; rfl
  next => rfl
theorem memPuts_append (m : List Host.Cell) (a : Nat) (xs ys : List Byte) : memPuts m a (xs ++ ys) = memPuts (memPuts m a xs) (a + xs.length) ys := by
  induction xs generalizing m a with
  | nil => rfl
  | cons x xs ih =>
    refine (ih (memPut m a x) (a + 1)).trans ?_
    rw [List.length_cons, Nat.add_right_comm, Nat.add_assoc]
    rfl
/-- A value given to the lanes leaves memory and the packages as they are. -/
theorem given_rest (s : State) (m : Mods) (d : Reg) (v : W32) : (given s m d v).mem = s.mem ∧ ∀ k, (given s m d v).pkg k = s.pkg k := by
  unfold given
  exact ⟨mem_finish .., fun k => pkg_finish ..⟩
theorem spawnBad_faults {s : State} {va : W64} {f : Bad} (h : s.spawnBad va = some f) : AccessFault f.1 f.2.1 := by
  unfold State.spawnBad at h
  obtain ⟨a, -, ha⟩ := List.exists_of_findSome?_eq_some h
  split at ha
  next c sub hc =>
    cases ha
    have := checkG_faults (s := s) s.curPkg s.curTroupe.core s.curCtx s.curWave.sys .load a 8
    rw [hc] at this
    exact this.1 rfl
  next =>
    split at ha
    · cases ha
      exact accessFault_mem (c := .page) (sub := 0) (by decide)
    · cases ha

/-- What a spawn's queue and block have to be. -/
def SpawnLegal (s : State) (b : List W32) : Prop := (bd b 0).toNat % 64 = 0 ∧ bf b 2 31 6 = 0 ∧ bw b 3 = 0 ∧ ((s.pkg s.curPkg).lq (bf b 2 5 0)).dev = true ∧
  (s.pkg s.curPkg).lqOn ((s.pkg s.curPkg).lq (bf b 2 5 0)) = true ∧ ((s.pkg s.curPkg).lq (bf b 2 5 0)).ctx = s.curCtx
/-- The depth of the launch that spawns. -/
def spawnDepth (s : State) : Nat := (s.launch s.curPkg s.curTroupe.launch).depth
/-- The queue that a block names, and the two lines of its record. -/
def spawnQueue (s : State) (b : List W32) : LQueue := (s.pkg s.curPkg).lq (bf b 2 5 0)
def spawnLines (b : List W32) : List W64 := [bd b 0, bd b 0 + 64]
/-- A record of two lines is written at a slot. -/
def recordStored (s : State) (k : Nat) (ctx : W32) (slot : W64) (bs : List Byte) : State :=
  (s.devStore k ctx slot (bs.take 64)).devStore k ctx (slot + 64) (bs.drop 64)
/-- The queue has one more record, of a depth. -/
def recordQueued (q n : Nat) (p : Pkg) : Pkg := p.modLq q (fun x => { x with tail := x.tail + 1, depths := x.depths ++ [n] })
/-- The record is in its queue. -/
def spawned (s : State) (b : List W32) : State :=
  (recordStored (s.walked .g (spawnLines b)) s.curPkg (spawnQueue s b).ctx ((spawnQueue s b).slotVa (spawnQueue s b).tail)
    (((s.walked .g (spawnLines b)).devFetch s.curPkg s.curCtx (bd b 0) 128).getD [])).modPkg s.curPkg
    (recordQueued (bf b 2 5 0) (spawnDepth s + 1))
section
variable {s : State} {m : Mods} {d a : Reg} {e : Nat} (he : Elected s m e)
include he
theorem spawn_illegal (h : ¬SpawnLegal s (s.block e a 4)) : exec (.spawn m d a) s = .next (given s m d 3) := by
  refine Eq.trans (show _ = execSpawn m d a s from rfl) ?_
  unfold execSpawn
  rw [elected_eq he]
  refine if_pos ?_
  unfold SpawnLegal at h
  simp only [Bool.not_eq_true', ne_eq]
  grind
section
variable (hl : SpawnLegal s (s.block e a 4))
include hl
theorem spawn_legal : exec (.spawn m d a) s = .next (if 7 ≤ spawnDepth s then given s m d 2
    else if ((spawnQueue s (s.block e a 4)).tail - (spawnQueue s (s.block e a 4)).head).toNat = (spawnQueue s (s.block e a 4)).size then given s m d 1
    else (s.spawnBad (bd (s.block e a 4) 0)).elim
      (if s.walkWait .g (spawnLines (s.block e a 4)) || s.relWait .pkg then waitAt (s.missed .g (spawnLines (s.block e a 4))) (.spawn m d a)
        else given (spawned s (s.block e a 4)) m d 0)
      (fun f => faultElected s m f.1 f.2.1 f.2.2)) := by
  obtain ⟨l1, l2, l3, l4, l5, l6⟩ := hl
  refine Eq.trans (show _ = execSpawn m d a s from rfl) ?_
  unfold execSpawn
  rw [elected_eq he]
  refine (if_neg ?_).trans ?_
  · rintro (h | h | h | h | h | h)
    · exact h l1
    · exact h l2
    · exact h l3
    · exact absurd (l4.symm.trans (by simpa using h)) (by decide)
    · exact absurd (l5.symm.trans (by simpa using h)) (by decide)
    · exact h l6
  · by_cases h7 : 7 ≤ spawnDepth s
    · exact (if_pos h7).trans (congrArg Host.Outcome.next (if_pos h7).symm)
    · refine (if_neg h7).trans (Eq.trans ?_ (congrArg Host.Outcome.next (if_neg h7).symm))
      by_cases hf : ((spawnQueue s (s.block e a 4)).tail - (spawnQueue s (s.block e a 4)).head).toNat = (spawnQueue s (s.block e a 4)).size
      · exact (if_pos hf).trans (congrArg Host.Outcome.next (if_pos hf).symm)
      · refine (if_neg hf).trans (Eq.trans ?_ (congrArg Host.Outcome.next (if_neg hf).symm))
        cases s.spawnBad (bd (s.block e a 4) 0) with
        | some f => rfl
        | none =>
          by_cases hw : (s.walkWait .g (spawnLines (s.block e a 4)) || s.relWait .pkg) = true
          · exact (if_pos hw).trans (congrArg Host.Outcome.next (if_pos hw).symm)
          · exact (if_neg hw).trans (congrArg Host.Outcome.next (if_neg hw).symm)
section
variable (hd : spawnDepth s < 7)
  (hr : ((spawnQueue s (s.block e a 4)).tail - (spawnQueue s (s.block e a 4)).head).toNat ≠ (spawnQueue s (s.block e a 4)).size)
include hd hr
theorem spawn_faults {f : Bad} (hf : s.spawnBad (bd (s.block e a 4) 0) = some f) : exec (.spawn m d a) s = .next (faultElected s m f.1 f.2.1 f.2.2) :=
  (spawn_legal he hl).trans (by rw [if_neg (Nat.not_le.2 hd), if_neg hr, hf]; rfl)
variable (hf : s.spawnBad (bd (s.block e a 4) 0) = none)
include hf
theorem spawn_walks (hw : s.walkWait .g (spawnLines (s.block e a 4)) = true) :
    exec (.spawn m d a) s = .next (waitAt (s.missed .g (spawnLines (s.block e a 4))) (.spawn m d a)) :=
  (spawn_legal he hl).trans (by rw [if_neg (Nat.not_le.2 hd), if_neg hr, hf, hw]; rfl)
theorem spawn_writes (hw : s.walkWait .g (spawnLines (s.block e a 4)) = false) (hrel : s.relWait .pkg = false) :
    exec (.spawn m d a) s = .next (given (spawned s (s.block e a 4)) m d 0) :=
  (spawn_legal he hl).trans (by rw [if_neg (Nat.not_le.2 hd), if_neg hr, hf, hw, hrel]; rfl)
end
end
end
theorem Translated.sameTables {s t : State} (h : Translated s t) : SameTables s t := ⟨h.mem, fun k => by rw [h.pkg], fun k => by rw [h.pkg]⟩
/-- A record that is stored at a slot which stays where it is, with nothing in flight about it. -/
theorem recordStored_does {s u : State} {k key : Nat} {ctx : W32} {slot : W64} {bs : List Byte} (ht : Translated s u) (hl : bs.length = 128)
    (h1 : StaysAt s k ctx slot key key 128) (h2 : StaysAt s k ctx (slot + 64) (key + 64) key 128) (hn : NoneAbout s key 128) :
    MemoryOnly u (recordStored u k ctx slot bs) ∧ (recordStored u k ctx slot bs).mem = memPuts s.mem key bs := by
  have hl1 : (bs.take 64).length = 64 := by rw [List.length_take, hl]; rfl
  have hl2 : (bs.drop 64).length = 64 := by rw [List.length_drop, hl]
  have hpk : ∀ j, let p := { (s.pkg j).phys with poison := (u.pkg j).phys.poison, pace := (u.pkg j).phys.pace }
      u.pkg j = { s.pkg j with cores := (u.pkg j).cores, tlb2 := (u.pkg j).tlb2, wcache := (u.pkg j).wcache, phys := p } := fun j => by
    have h := ht.pkg j
    rw [h]
  have hk1 : u.devKey k ctx slot = some key := h1 u hpk fun b _ => by rw [ht.mem]
  have hn1 : NoneAbout u key (bs.take 64).length := by
    rw [hl1]
    exact ht.noneAbout (hn.mono (Nat.le_refl _) (by omega) (by decide))
  have e1 : u.devStore k ctx slot (bs.take 64) = u.store key (bs.take 64) := by
    unfold State.devStore
    rw [hk1]
    exact storeAt_of_none hn1
  have hk2 : (u.store key (bs.take 64)).devKey k ctx (slot + 64) = some (key + 64) := by
    refine h2 _ (fun j => ?_) fun b hb => ?_
    · have h := store_phys u key (bs.take 64) j
      have h' := ht.pkg j
      rw [h, h']
    · rw [store_mem, memGet_memPuts_ne _ _ _ _ (by rw [hl1]; omega), ht.mem]
  have hn2 : NoneAbout (u.store key (bs.take 64)) (key + 64) (bs.drop 64).length := by
    rw [hl2]
    exact (store_memoryOnly ..).noneAbout (ht.noneAbout (hn.mono (by omega) (by omega) (by decide)))
  have e2 : recordStored u k ctx slot bs = (u.store key (bs.take 64)).store (key + 64) (bs.drop 64) := by
    unfold recordStored
    rw [e1]
    unfold State.devStore
    rw [hk2]
    exact storeAt_of_none hn2
  rw [e2]
  refine ⟨(store_memoryOnly ..).trans (store_memoryOnly ..), ?_⟩
  rw [store_mem, store_mem, ht.mem]
  conv_rhs => rw [← List.take_append_drop 64 bs]
  rw [memPuts_append, hl1]
theorem spawned_does (s : State) (m : Mods) (d : Reg) {b : List W32} {key : Nat} {bs : List Byte} (hf : s.devFetch s.curPkg s.curCtx (bd b 0) 128 = some bs) (hl : bs.length = 128)
    (h1 : StaysAt s s.curPkg (spawnQueue s b).ctx ((spawnQueue s b).slotVa (spawnQueue s b).tail) key key 128)
    (h2 : StaysAt s s.curPkg (spawnQueue s b).ctx ((spawnQueue s b).slotVa (spawnQueue s b).tail + 64) (key + 64) key 128) (hn : NoneAbout s key 128) :
    let t := given (spawned s b) m d 0
    LanesBecome s t (fun l x => goOn s l (sends s m none (regs1 d) (fun _ => to32 d 0) (fun _ => 0) l x)) ∧
    (t.pkg s.curPkg).lq (bf b 2 5 0) = { spawnQueue s b with tail := (spawnQueue s b).tail + 1, depths := (spawnQueue s b).depths ++ [spawnDepth s + 1] } ∧
    memGets t.mem key 128 = bs ∧ ∀ c, (c < key ∨ key + 128 ≤ c) → memGet t.mem c = memGet s.mem c := by
  have ht := walked_translated s .g (spawnLines b)
  unfold spawned
  rw [ht.sameTables.devFetch, hf]
  dsimp only [Option.getD_some]
  generalize s.walked .g (spawnLines b) = u at ht
  obtain ⟨r1, r2⟩ := recordStored_does ht hl h1 h2 hn
  generalize recordStored u s.curPkg (spawnQueue s b).ctx ((spawnQueue s b).slotVa (spawnQueue s b).tail) bs = v at r1 r2
  obtain ⟨g1, g2⟩ := given_rest (v.modPkg s.curPkg (recordQueued (bf b 2 5 0) (spawnDepth s + 1))) m d 0
  have hmem := g1.trans ((mem_modPkg v s.curPkg (recordQueued (bf b 2 5 0) (spawnDepth s + 1))).trans r2)
  refine ⟨given_lanes ((waveBecomes_refl s).of_waves (u := v.modPkg s.curPkg _) (r1.waves.trans ht.waves)) (r1.cur.trans ht.cur) (r1.nextId.trans ht.nextId) m d 0, ?_, ?_, fun c hc => ?_⟩
  · rw [g2, State.pkg_modPkg_self]
    unfold recordQueued
    have hq : (v.pkg s.curPkg).lq (bf b 2 5 0) = spawnQueue s b := by
      unfold spawnQueue
      rw [r1.pkg, ht.pkg]
      rfl
    rw [lq_modLq, if_pos rfl, hq]
  · rw [hmem]
    have h := memGets_memPuts s.mem key bs
    rwa [hl] at h
  · rw [hmem]
    exact memGet_memPuts_ne _ _ _ _ (by rw [hl]; exact hc)

end Sys2Proof
end

