-- ==== Sys2Proof/Proofs/Publication.lean ====
section
/-! SUPPORT. The publication of a troupe (R295): the words that tell of it, and what becomes of its launch. -/

namespace Sys2Proof
open Machine

theorem launch_of_flook {s : State} {k n : Nat} {x : Launch} (h : flook (s.pkg k).sched.launches n = some x) : s.launch k n = x := fget_of_flook_some h

/-- A launch with one more troupe published. -/
def troupeCounted (tidx : Nat) (y : Launch) : Launch :=
  { y with published := y.published + 1, pubMap := if y.hdr.det then y.pubMap ++ [tidx] else y.pubMap }
/-- The state in which the words have been written, the troupe is published and its launch counts it. -/
def troupePublished (s1 : State) (tid k n : Nat) (last : Bool) (tidx : Nat) : State :=
  let s3 := (s1.modTroupe tid (fun y => { y with st := .published })).modPkg k (fun p => p.modLaunch n (troupeCounted tidx))
  if last then s3.dropLaunch k n else s3
theorem troupePublished_does (s : State) (tid k n : Nat) (last : Bool) (tidx : Nat) : (troupePublished s tid k n last tidx).mem = s.mem ∧
    ((troupePublished s tid k n last tidx).troupe tid).st = .published ∧ ((troupePublished s tid k n last tidx).pkg k).cores = (s.pkg k).cores ∧
    (last = true → flook ((troupePublished s tid k n last tidx).pkg k).sched.launches n = none) := by
  have h1 : ((s.modTroupe tid (fun y => { y with st := .published })).modPkg k (fun p => p.modLaunch n (troupeCounted tidx))).mem = s.mem := mem_modPkg ..
  have h2 : (((s.modTroupe tid (fun y => { y with st := .published })).modPkg k (fun p => p.modLaunch n (troupeCounted tidx))).troupe tid).st = .published :=
    congrArg Troupe.st (State.troupe_modTroupe_self s tid (fun y => { y with st := .published }))
  have h3 : (((s.modTroupe tid (fun y => { y with st := .published })).modPkg k (fun p => p.modLaunch n (troupeCounted tidx))).pkg k).cores = (s.pkg k).cores := by
    rw [State.pkg_modPkg_self]
    rfl
  unfold troupePublished
  dsimp only
  generalize (s.modTroupe tid (fun y => { y with st := .published })).modPkg k (fun p => p.modLaunch n (troupeCounted tidx)) = u at h1 h2 h3
  cases last with
  | false => exact ⟨h1, h2, h3, nofun⟩
  | true =>
    rw [if_pos rfl]
    unfold State.dropLaunch
    refine ⟨(mem_modPkg ..).trans h1, h2, ?_, fun _ => ?_⟩
    · rw [State.pkg_modPkg_self]
      exact h3
    · rw [State.pkg_modPkg_self]
      exact (flook_fdel ..).trans (if_pos rfl)
section
variable {s : State} {k tidx key : Nat} {x : Launch}
theorem publishWords_evt (h0 : x.rcd.donemap = 0) (h1 : x.rcd.evt ≠ 0) (hk : s.wordKey k x.ctx x.rcd.evt true = .inr key) :
    s.publishWords k x tidx = .inl (s.update key 8 completionMark none).2 := by
  unfold State.publishWords
  dsimp only
  rw [if_pos h0]
  dsimp only
  rw [if_neg h1, hk]
theorem publishWords_map (h0 : x.rcd.evt = 0) (h1 : x.rcd.donemap ≠ 0) (hk : s.wordKey k x.ctx (x.rcd.donemap + BitVec.ofNat 64 (8 * (tidx / 64))) true = .inr key) :
    s.publishWords k x tidx = .inl (s.update key 8 (fun m => m ||| (1#64 <<< (tidx % 64))) none).2 := by
  unfold State.publishWords
  dsimp only
  rw [if_neg h1, hk]
  dsimp only
  rw [if_pos h0]
theorem completionMark_toNat (m : W64) : (completionMark m).toNat = m.toNat / 2 ^ 63 * 2 ^ 63 + (m.toNat + 1) % 2 ^ 63 := by
  unfold completionMark
  rw [BitVec.toNat_ofNat, Nat.mod_eq_of_lt]
  have := m.isLt
  omega
theorem orBit_toNat (m : W64) {j : Nat} (hj : j < 64) : (m ||| (1#64 <<< j)).toNat = m.toNat ||| 2 ^ j := by
  rw [BitVec.toNat_or, BitVec.toNat_shiftLeft, BitVec.toNat_ofNat, Nat.one_mod, Nat.one_shiftLeft, Nat.mod_eq_of_lt (Nat.pow_lt_pow_right (by decide) hj)]
theorem toNat_numberAt8 (s : State) (a : Nat) : (BitVec.ofNat 64 (numberAt s a 8)).toNat = numberAt s a 8 :=
  (BitVec.toNat_ofNat ..).trans (Nat.mod_eq_of_lt (numberAt_lt s a 8))
end
section
variable {s : State} {tid : Nat}
theorem publish_early (h : s.mayPublish tid = false) : exec (.troupePublish tid) s = .next s := if_pos (by rw [h]; rfl)
variable {x : Launch} (h : s.mayPublish tid = true) (hu : s.unreported tid = none) (hx : flook (s.pkg (s.troupe tid).pkg).sched.launches (s.troupe tid).launch = some x)
  (hq : (s.troupe tid).tidx ∉ x.quiet)
include h hu hx hq
theorem publish_eq {s1 : State} (hp : s.publishWords (s.troupe tid).pkg x (s.troupe tid).tidx = .inl s1) : exec (.troupePublish tid) s = .next
    (((troupePublished s1 tid (s.troupe tid).pkg (s.troupe tid).launch (decide (x.published + 1 = x.rcd.ntrp)) (s.troupe tid).tidx).preemptCheck (s.troupe tid).pkg
      (s.troupe tid).ctx).grant (s.troupe tid).pkg (s.troupe tid).core) := by
  have hc : x.quiet.contains (s.troupe tid).tidx = false := by
    rw [List.contains_eq_mem]
    exact decide_eq_false hq
  refine Eq.trans (show _ = execTroupePublish tid s from rfl) ?_
  unfold execTroupePublish troupePublished
  dsimp only
  rw [launch_of_flook hx, hc, if_neg (by rw [h]; decide), if_neg Bool.false_ne_true, hp, hu]
  simp only [Bool.false_eq_true, if_false, Bool.not_false, Bool.true_and]
  rfl
theorem publish_does {s1 : State} (hp : s.publishWords (s.troupe tid).pkg x (s.troupe tid).tidx = .inl s1) (hm : MemoryOnly s s1)
    (hg : (s.core (s.troupe tid).pkg (s.troupe tid).core).grantQ = []) : After (.troupePublish tid) s (fun t => t.mem = s1.mem ∧ (t.troupe tid).st = .published ∧
      (x.published + 1 = x.rcd.ntrp → flook (t.pkg (s.troupe tid).pkg).sched.launches (s.troupe tid).launch = none)) := by
  have hx' := publish_eq h hu hx hq hp
  generalize (s.troupe tid).pkg = k at hx hx' hp hg ⊢
  generalize (s.troupe tid).launch = n at hx hx' ⊢
  obtain ⟨p1, p2, p3, p4⟩ := troupePublished_does s1 tid k n (decide (x.published + 1 = x.rcd.ntrp)) (s.troupe tid).tidx
  generalize troupePublished s1 tid k n (decide (x.published + 1 = x.rcd.ntrp)) (s.troupe tid).tidx = u at hx' p1 p2 p3 p4
  obtain ⟨⟨hf, -⟩, l, ho, hpk⟩ := preemptCheck_only u k (s.troupe tid).ctx
  have hgr : ((u.preemptCheck k (s.troupe tid).ctx).core k (s.troupe tid).core).grantQ = [] := by
    unfold State.core
    rw [hpk]
    unfold Pkg.core
    dsimp only
    rw [p3, show (s1.pkg k).cores = (s.pkg k).cores by rw [hm.pkg]]
    exact hg
  rw [grant_of_none hgr] at hx'
  refine ⟨_, hx', ?_, ?_, fun hn => ?_⟩
  · rw [hf]
    exact p1
  · rw [hf]
    exact p2
  · rw [hpk]
    exact p4 (decide_eq_true hn)
end

end Sys2Proof
end

