-- ==== Sys2Proof/Proofs/Placement.lean ====
section
/-! SUPPORT. The placement of a corps of one troupe (R18, R38 to R41, R263, R290, R299): what its core and its waves are then. -/

namespace Sys2Proof
open Machine

/-! ### Zeroed tiles (R263) -/

theorem fget_filter {α : Type} (d : α) (m : FMap α) (f : Nat → Bool) (a : Nat) : fget d (m.filter (fun e => f e.1)) a = if f a then fget d m a else d := by
  induction m with
  | nil => exact (ite_self d).symm
  | cons e m ih =>
    obtain ⟨j, x⟩ := e
    by_cases hj : j = a
    · subst hj
      cases hf : f j with
      | true => simp [List.filter_cons, hf, fget]
      | false => simp [List.filter_cons, hf, ih]
    · cases hf : f j with
      | true => simp [List.filter_cons, hf, fget, hj, ih]
      | false => simp [List.filter_cons, hf, fget, hj, ih]
/-- A range that is zeroed reads zero, and nothing else changes. -/
theorem memGet_zeroRange (s : State) (a n b : Nat) : memGet (s.zeroRange a n).mem b = if a ≤ b ∧ b < a + n then 0 else memGet s.mem b := by
  have h : (s.zeroRange a n).mem = s.mem.filter (fun e => !(decide (a ≤ e.1) && decide (e.1 < a + n))) := mem_modPkg ..
  rw [h]
  refine (fget_filter Config.memDefault s.mem (fun x => !(decide (a ≤ x) && decide (x < a + n))) b).trans ?_
  by_cases hb : a ≤ b ∧ b < a + n
  · rw [if_pos hb, decide_eq_true hb.1, decide_eq_true hb.2]
    rfl
  · rw [if_neg hb, if_pos]
    · rfl
    · rw [Bool.not_eq_true', Bool.and_eq_false_iff, decide_eq_false_iff_not, decide_eq_false_iff_not]
      exact Classical.not_and_iff_not_or_not.1 hb
theorem scrubTile_memoryOnly (s : State) (held : FMap W32) (ctx : W32) (key tile : Nat) : MemoryOnly s (scrubTile s held ctx key tile) := by
  unfold scrubTile
  split
  · exact .refl s
  · exact zeroRange_memoryOnly ..
theorem scrubTile_zero {s : State} (held : FMap W32) (ctx : W32) (key tile : Nat) {a : Nat} (h : memGet s.mem a = 0) :
    memGet (scrubTile s held ctx key tile).mem a = 0 := by
  unfold scrubTile
  split
  · exact h
  · rw [memGet_zeroRange]
    split
    · rfl
    · exact h
/-- The tiles that a troupe takes, each scrubbed where another context held it. -/
def scrubbed (held : FMap W32) (ctx : W32) (key : Nat → Nat) (tiles : List Nat) (s : State) : State := tiles.foldl (fun s i => scrubTile s held ctx (key i) i) s
theorem scrubbed_memoryOnly (held : FMap W32) (ctx : W32) (key : Nat → Nat) (tiles : List Nat) (s : State) : MemoryOnly s (scrubbed held ctx key tiles s) := by
  unfold scrubbed
  induction tiles generalizing s with
  | nil => exact .refl s
  | cons i tiles ih => exact (scrubTile_memoryOnly ..).trans (ih _)
theorem scrubbed_zero {held : FMap W32} {ctx : W32} {key : Nat → Nat} {tiles : List Nat} {s : State} {a : Nat} (h : memGet s.mem a = 0) :
    memGet (scrubbed held ctx key tiles s).mem a = 0 := by
  unfold scrubbed
  induction tiles generalizing s with
  | nil => exact h
  | cons i tiles ih => exact ih (scrubTile_zero _ _ _ _ h)
/-- A tile of the list that another context held reads zero. -/
theorem scrubbed_zeroes {held : FMap W32} {ctx : W32} {key : Nat → Nat} {tiles : List Nat} {s : State} {p b : Nat} (hp : p ∈ tiles) (hh : flook held p ≠ some ctx) (hb : b < 4096) :
    memGet (scrubbed held ctx key tiles s).mem (key p + b) = 0 := by
  induction tiles generalizing s with
  | nil => cases hp
  | cons i tiles ih =>
    rcases List.mem_cons.1 hp with rfl | hp
    · refine scrubbed_zero (s := scrubTile s held ctx (key p) p) ?_
      unfold scrubTile
      rw [if_neg hh, memGet_zeroRange, if_pos (by omega)]
    · exact ih hp

/-- The core of a troupe that has taken its tiles. -/
def coreClaimed (t : Troupe) (c : Core) : Core :=
  { c with
    lines := []
    ownEng := c.ownEng.filter (fun (e : Nat × Bool) => !t.tiles.contains e.1)
    tileCtx := t.tiles.foldl (fun m i => fput m i t.ctx) c.tileCtx
    accCtx := t.accs.foldl (fun m i => fput m i t.ctx) c.accCtx
    arr := if t.accs.isEmpty then c.arr else ArrayCfg.init }
theorem claim_eq (s : State) (k core tid : Nat) : s.claim k core tid =
    (scrubbed (s.core k core).accCtx (s.troupe tid).ctx (fun i => accKey k core i 0) (s.troupe tid).accs
      (scrubbed (s.core k core).tileCtx (s.troupe tid).ctx (fun i => scrKey k core i 0) (s.troupe tid).tiles s)).modCore k core (coreClaimed (s.troupe tid)) := rfl
/-- What a claim leaves, and what it zeroes. -/
theorem claim_does (s : State) (k core tid : Nat) : (s.claim k core tid).waves = s.waves ∧ (s.claim k core tid).troupes = s.troupes ∧
    ((s.claim k core tid).core k core).lines = [] ∧
    (∀ p ∈ (s.troupe tid).tiles, flook (s.core k core).tileCtx p ≠ some (s.troupe tid).ctx → ∀ b, b < 4096 → memGet (s.claim k core tid).mem (scrKey k core p 0 + b) = 0) := by
  have h1 := scrubbed_memoryOnly (s.core k core).tileCtx (s.troupe tid).ctx (fun i => scrKey k core i 0) (s.troupe tid).tiles s
  have h2 := scrubbed_memoryOnly (s.core k core).accCtx (s.troupe tid).ctx (fun i => accKey k core i 0) (s.troupe tid).accs
    (scrubbed (s.core k core).tileCtx (s.troupe tid).ctx (fun i => scrKey k core i 0) (s.troupe tid).tiles s)
  rw [claim_eq]
  refine ⟨h2.waves.trans h1.waves, h2.troupes.trans h1.troupes, ?_, fun p hp hh b hb => ?_⟩
  · rw [State.core_modCore, if_pos ⟨rfl, rfl⟩]
    rfl
  · refine (congrArg (fun m => memGet m _) (mem_modPkg _ k _)).trans (scrubbed_zero ?_)
    exact scrubbed_zeroes hp hh hb

/-! ### New waves (R11, R18, R302) -/

theorem seat_keys (used : List (Nat × Nat)) (ws : List (Nat × Wave)) : (seat used ws).map (fun e => e.1) = ws.map (fun e => e.1) := by
  induction ws generalizing used with
  | nil => rfl
  | cons e ws ih =>
    unfold seat
    dsimp only
    rw [List.map_cons, List.map_cons, ih]
/-- A wave that is seated is what it was in a slot of its own. -/
theorem mem_seat {used : List (Nat × Nat)} {ws : List (Nat × Wave)} {e : Nat × Wave} (h : e ∈ ws) : ∃ n, (e.1, { e.2 with slot := n }) ∈ seat used ws := by
  induction ws generalizing used with
  | nil => cases h
  | cons a ws ih =>
    unfold seat
    dsimp only
    rcases List.mem_cons.1 h with rfl | h
    · exact ⟨_, List.mem_cons_self⟩
    · obtain ⟨n, hn⟩ := ih h
      exact ⟨n, List.mem_cons_of_mem _ hn⟩
/-- Entries with keys of their own are found where they have been put. -/
theorem flook_foldl_fput_mem {α : Type} {l : List (Nat × α)} {m : FMap α} {e : Nat × α} (h : e ∈ l) (hn : (l.map (fun e => e.1)).Nodup) :
    flook (l.foldl (fun m e => fput m e.1 e.2) m) e.1 = some e.2 := by
  have hkeep : ∀ (l : List (Nat × α)) (m : FMap α) (k : Nat), k ∉ l.map (fun e => e.1) → flook (l.foldl (fun m e => fput m e.1 e.2) m) k = flook m k := by
    intro l
    induction l with
    | nil => exact fun _ _ _ => rfl
    | cons a l ih =>
      intro m k hk
      rw [List.map_cons, List.mem_cons, not_or] at hk
      exact (ih _ k hk.2).trans ((flook_fput ..).trans (if_neg hk.1))
  induction l generalizing m with
  | nil => cases h
  | cons a l ih =>
    rw [List.map_cons, List.nodup_cons] at hn
    rcases List.mem_cons.1 h with rfl | h
    · exact (hkeep l _ _ hn.1).trans ((flook_fput ..).trans (if_pos rfl))
    · exact ih h hn.2
/-- The waves of a troupe without partners. -/
def freshWaves (tid : Nat) (h : KHdr) (quads : List Nat) : List (Nat × Wave) :=
  quads.zipIdx.map (fun e => (widOf tid e.2 false, Wave.start tid e.2 false h.entry (8 * h.regs) e.1))
theorem freshWaves_keys (tid : Nat) (h : KHdr) (quads : List Nat) : ((freshWaves tid h quads).map (fun e => e.1)).Nodup := by
  unfold freshWaves
  rw [List.map_map, List.nodup_iff_pairwise_ne, List.pairwise_map]
  have hz : List.Pairwise (fun a b : Nat × Nat => a.2 ≠ b.2) quads.zipIdx := by
    have hs : (quads.zipIdx.map Prod.snd).Nodup := by
      rw [List.zipIdx_map_snd]
      exact List.nodup_range'
    rwa [List.nodup_iff_pairwise_ne, List.pairwise_map] at hs
  refine hz.imp fun hab he => hab ?_
  unfold widOf at he
  dsimp only [Function.comp_apply] at he
  omega
theorem mem_freshWaves (tid : Nat) (h : KHdr) {quads : List Nat} {j : Nat} (hj : j < quads.length) :
    (tid * 32 + j, Wave.start tid j false h.entry (8 * h.regs) (quads.getD j 0)) ∈ freshWaves tid h quads := by
  refine List.mem_map.2 ⟨(quads.getD j 0, j), ?_, ?_⟩
  · rw [List.mem_zipIdx_iff_getElem?, List.getElem?_eq_getElem hj, List.getD_eq_getElem?_getD, List.getElem?_eq_getElem hj]
    rfl
  · unfold widOf
    rfl


/-! ### The start of a troupe -/

/-- The troupe that starts. -/
def startedTroupe (s : State) (k n cid t crk : Nat) (bank : List W32) (dict : Option (List W32)) (core : Nat) : Troupe :=
  { Troupe.init with
    pkg := k, core := core, ctx := (s.launch k n).ctx, launch := n, tidx := t, corps := cid, crk := crk, st := .resident, hdr := (s.launch k n).hdr
    kbank := bank, dict := dict, savearea := (s.launch k n).saveArea t, traphnd := (s.launch k n).hdr.traph
    tiles := s.freeTiles k core (s.launch k n).hdr.scratch, accs := List.range (s.launch k n).hdr.acc
    salt := Config.entropy s.fresh, ranges := (s.launch k n).ranges }
/-- The state in which it stands on its core and has not taken its tiles. -/
def troupeStood (s : State) (k n cid t crk : Nat) (bank : List W32) (dict : Option (List W32)) (core : Nat) (quads : List Nat) : State :=
  { s with
    nextId := s.nextId + 1
    fresh := s.fresh + 1
    troupes := fput s.troupes s.nextId (startedTroupe s k n cid t crk bank dict core)
    waves := (seat (s.seats k core) (freshWaves s.nextId (s.launch k n).hdr quads)).foldl (fun (m : FMap Wave) (e : Nat × Wave) => fput m e.1 e.2) s.waves
  }.modCorps cid (fun c => { c with troupes := c.troupes ++ [s.nextId] })
theorem startTroupe_eq {s : State} {k n cid t crk : Nat} {bank : List W32} {dict : Option (List W32)} {core : Nat} {quads : List Nat}
    (hp : (s.launch k n).hdr.pentry = 0) : s.startTroupe k n cid t crk bank dict (core, quads) =
    (troupeStood s k n cid t crk bank dict core quads).claim k core s.nextId := by
  have hws : (quads.zipIdx.map (fun e => (widOf s.nextId e.2 false, Wave.start s.nextId e.2 false (s.launch k n).hdr.entry (8 * (s.launch k n).hdr.regs) e.1) ::
      (if (s.launch k n).hdr.pentry = 0 then [] else
        [(widOf s.nextId e.2 true, Wave.start s.nextId e.2 true (s.launch k n).hdr.pentry (8 * (s.launch k n).hdr.pregs) e.1)]))).flatten =
      freshWaves s.nextId (s.launch k n).hdr quads := by
    unfold freshWaves
    simp only [if_pos hp]
    rw [← List.flatMap_def]
    exact List.map_eq_flatMap.symm
  unfold State.startTroupe troupeStood
  dsimp only
  rw [hws]
  rfl
section
variable {s : State} {k n cid t crk : Nat} {bank : List W32} {dict : Option (List W32)} {core : Nat} {quads : List Nat}
theorem troupeStood_troupe : (troupeStood s k n cid t crk bank dict core quads).troupe s.nextId = startedTroupe s k n cid t crk bank dict core := by
  unfold State.troupe troupeStood State.modCorps
  exact (fget_fput ..).trans (if_pos rfl)
theorem troupeStood_wave {j : Nat} (hj : j < quads.length) : ∃ slot, (troupeStood s k n cid t crk bank dict core quads).wave (s.nextId * 32 + j) =
    { Wave.start s.nextId j false (s.launch k n).hdr.entry (8 * (s.launch k n).hdr.regs) (quads.getD j 0) with slot := slot } := by
  obtain ⟨slot, hs⟩ := mem_seat (used := s.seats k core) (mem_freshWaves s.nextId (s.launch k n).hdr hj)
  refine ⟨slot, fget_of_flook_some (flook_foldl_fput_mem (m := s.waves) hs ?_)⟩
  rw [seat_keys]
  exact freshWaves_keys ..
end
theorem start_lane (tid wix : Nat) (part : Bool) (pc : W64) (allot quad slot : Nat) {l : Nat} (hl : l < 32) :
    ({ Wave.start tid wix part pc allot quad with slot := slot } : Wave).lane l = { Lane.init with pc := pc } :=
  fget_of_flook_some (flook_map_range (fun _ => ({ Lane.init with pc := pc } : Lane)) hl)

/-! ### The placement of a corps -/

/-- The state in which a corps of one troupe has started. -/
def corpsStarted (s : State) (k n i clus core : Nat) (quads : List Nat) (bank : List W32) (dict : Option (List W32)) : State :=
  { s with nextId := s.nextId + 1, corps := fput s.corps s.nextId ⟨k, clus, n, i, [], 0, 1, false⟩ }.startTroupe k n s.nextId i 0 bank dict (core, quads)
/-- The launch when a corps of it has been placed. -/
def corpsCounted (y : Launch) : Launch := Launch.release (if y.redo.isEmpty then { y with nextCorps := y.nextCorps + 1 } else { y with redo := y.redo.tail })
section
variable {s : State} {k n i clus core : Nat} {x : Launch} {quads : List Nat} {bank : List W32} {dict : Option (List W32)}
theorem corpsPlacement_eq (hx : flook (s.pkg k).sched.launches n = some x) (ho : s.outranked k n = false) (hp : x.placing = true) (hs : x.saved = []) (hi : x.nextIdx = some i)
    (hc : x.hdr.corps = 1) (hg : s.corpsGate k n x i = .open_) (hspot : s.spot k n x x.wait [x.hdr.need] = .on clus [(core, quads)])
    (hb : s.bankWords k x.ctx x.rcd = some bank) (hd : s.dictWords k x.ctx x.hdr = some dict) :
    exec (.corpsPlacement k n) s = .next (((corpsStarted s k n i clus core quads bank dict).placedOn k n (x.caller.getD 0) clus false).modPkg k
      (fun p => p.modLaunch n corpsCounted)) := by
  have hof : x.corpsOf i = [i] := by
    unfold Launch.corpsOf
    rw [hc, List.range_one, List.map_singleton, Nat.mul_one, Nat.add_zero]
  refine Eq.trans (show _ = execCorpsPlacement k n s from rfl) ?_
  unfold execCorpsPlacement State.tryCorps
  rw [ho, if_neg Bool.false_ne_true, hx]
  dsimp only
  rw [hp, hs, if_neg (by decide), hi]
  dsimp only
  rw [hg]
  dsimp only
  rw [hc, List.replicate_one, hspot]
  dsimp only
  rw [hb, hd, hof]
  rfl
/-- A core of a cluster that begins to hold. -/
def heldCore (u : State) (k clus n : Nat) (c : Core) : Core := if clusterOf n = clus then { c with spare := u.freeGranules k n } else c
theorem heldCore_lines (u : State) (k clus n : Nat) (c : Core) : (heldCore u k clus n c).lines = c.lines := by
  unfold heldCore
  split <;> rfl
theorem placedOn_does (s : State) (k n caller clus : Nat) (saved : Bool) : (s.placedOn k n caller clus saved).mem = s.mem ∧
    (s.placedOn k n caller clus saved).waves = s.waves ∧ (s.placedOn k n caller clus saved).troupes = s.troupes ∧
    ∀ c, (s.core k c).lines = [] → ((s.placedOn k n caller clus saved).core k c).lines = [] := by
  have h1 : ∀ c, ((s.modPkg k (fun p => p.placed n caller clus saved)).core k c) = s.core k c := fun c => by
    unfold State.core
    rw [State.pkg_modPkg_self]
    unfold Pkg.placed
    split <;> rfl
  unfold State.placedOn State.noteHold
  split
  · exact ⟨mem_modPkg .., rfl, rfl, fun c hc => by rw [h1]; exact hc⟩
  · refine ⟨(mem_modPkg ..).trans (mem_modPkg ..), rfl, rfl, fun c hc => ?_⟩
    rw [← h1] at hc
    generalize s.modPkg k (fun p => p.placed n caller clus saved) = u at hc ⊢
    have hc' : (fget Core.init (u.pkg k).cores c).lines = [] := hc
    have hp := congrArg (fun p : Pkg => (p.core c).lines) (State.pkg_modPkg_self u k (fun p => { p with cores := fall p.cores (heldCore u k clus) }))
    refine hp.trans ?_
    refine (congrArg Core.lines (fget_fall Core.init (u.pkg k).cores c (heldCore u k clus))).trans ?_
    rw [fget_eq_flook] at hc'
    generalize flook (u.pkg k).cores c = o at hc'
    cases o with
    | none => rfl
    | some y => exact (heldCore_lines ..).trans hc'
theorem corpsStarted_does (hl : s.launch k n = x) (hp : x.hdr.pentry = 0) : let t := corpsStarted s k n i clus core quads bank dict
    (∃ u, t.troupe (s.nextId + 1) = u ∧ u.pkg = k ∧ u.core = core ∧ u.ctx = x.ctx ∧ u.launch = n ∧ u.tidx = i ∧ u.crk = 0 ∧ u.st = .resident ∧ u.hdr = x.hdr ∧
      u.kbank = bank ∧ u.dict = dict ∧ u.traphnd = x.hdr.traph ∧ u.lock = false ∧ u.arvcnt = 0 ∧ u.phase = false ∧
      (∀ p ∈ u.tiles, flook (s.core k core).tileCtx p ≠ some x.ctx → ∀ b, b < 4096 → memGet t.mem (scrKey k core p 0 + b) = 0)) ∧
    (∀ j, j < quads.length → ∃ slot, t.wave ((s.nextId + 1) * 32 + j) =
      { Wave.start (s.nextId + 1) j false x.hdr.entry (8 * x.hdr.regs) (quads.getD j 0) with slot := slot }) ∧
    (t.core k core).lines = [] := by
  have hl' : State.launch { s with nextId := s.nextId + 1, corps := fput s.corps s.nextId ⟨k, clus, n, i, [], 0, 1, false⟩ } k n = x := hl
  unfold corpsStarted
  rw [startTroupe_eq (by rw [hl']; exact hp)]
  have ht := troupeStood_troupe (s := { s with nextId := s.nextId + 1, corps := fput s.corps s.nextId ⟨k, clus, n, i, [], 0, 1, false⟩ }) (k := k) (n := n)
    (cid := s.nextId) (t := i) (crk := 0) (bank := bank) (dict := dict) (core := core) (quads := quads)
  have hw := fun j hj => troupeStood_wave (s := { s with nextId := s.nextId + 1, corps := fput s.corps s.nextId ⟨k, clus, n, i, [], 0, 1, false⟩ }) (k := k) (n := n)
    (cid := s.nextId) (t := i) (crk := 0) (bank := bank) (dict := dict) (core := core) (quads := quads) (j := j) hj
  have hcore : (troupeStood { s with nextId := s.nextId + 1, corps := fput s.corps s.nextId ⟨k, clus, n, i, [], 0, 1, false⟩ } k n s.nextId i 0 bank dict core quads).core k core =
    s.core k core := rfl
  unfold startedTroupe at ht
  rw [hl'] at ht hw
  generalize troupeStood { s with nextId := s.nextId + 1, corps := fput s.corps s.nextId ⟨k, clus, n, i, [], 0, 1, false⟩ } k n s.nextId i 0 bank dict core quads = v at ht hw hcore
  obtain ⟨c1, c2, c3, c4⟩ := claim_does v k core (s.nextId + 1)
  have hu : (v.claim k core (s.nextId + 1)).troupe (s.nextId + 1) = v.troupe (s.nextId + 1) := by
    unfold State.troupe
    rw [c2]
  rw [hcore] at c4
  refine ⟨⟨_, hu.trans ht, rfl, rfl, rfl, rfl, rfl, rfl, rfl, rfl, rfl, rfl, rfl, rfl, rfl, rfl, ?_⟩, fun j hj => ?_, c3⟩
  · rw [show v.troupe (s.nextId + 1) = _ from ht] at c4
    exact c4
  · obtain ⟨slot, hs⟩ := hw j hj
    refine ⟨slot, Eq.trans ?_ hs⟩
    unfold State.wave
    rw [c1]
end
/-- A corps of one troupe starts on its core. -/
theorem corpsPlaced {s : State} {k n i clus core : Nat} {x : Launch} {quads : List Nat} {bank : List W32} {dict : Option (List W32)}
    (hx : flook (s.pkg k).sched.launches n = some x) (hpe : x.hdr.pentry = 0)
    (he : exec (.corpsPlacement k n) s = .next (((corpsStarted s k n i clus core quads bank dict).placedOn k n (x.caller.getD 0) clus false).modPkg k
      (fun p => p.modLaunch n corpsCounted))) : After (.corpsPlacement k n) s (fun t =>
        let u := t.troupe (s.nextId + 1)
        u.pkg = k ∧ u.core = core ∧ u.ctx = x.ctx ∧ u.launch = n ∧ u.tidx = i ∧ u.crk = 0 ∧ u.st = .resident ∧ u.hdr = x.hdr ∧
        u.kbank = bank ∧ u.dict = dict ∧ u.traphnd = x.hdr.traph ∧ u.lock = false ∧ u.arvcnt = 0 ∧ u.phase = false ∧
        (∀ j, j < quads.length → let w := (s.nextId + 1) * 32 + j
          (t.wave w).tid = s.nextId + 1 ∧ (t.wave w).wix = j ∧ (t.wave w).allot = 8 * x.hdr.regs ∧ (t.wave w).quad = quads.getD j 0 ∧
          (t.wave w).ended = false ∧ ∀ l, l < 32 → (t.lane w l).st = .run ∧ (t.lane w l).pc = x.hdr.entry ∧ (t.lane w l).g = []) ∧
        (∀ p ∈ u.tiles, flook (s.core k core).tileCtx p ≠ some x.ctx → ∀ b, b < 4096 → memGet t.mem (scrKey k core p 0 + b) = 0) ∧
        (t.core k core).lines = []) := by
  obtain ⟨⟨u, hu, u1, u2, u3, u4, u5, u6, u7, u8, u9, u10, u11, u12, u13, u14, htile⟩, hwave, hlines⟩ :=
    corpsStarted_does (s := s) (k := k) (n := n) (i := i) (clus := clus) (core := core) (quads := quads) (bank := bank) (dict := dict) (launch_of_flook hx) hpe
  obtain ⟨p1, p2, p3, p4⟩ := placedOn_does (corpsStarted s k n i clus core quads bank dict) k n (x.caller.getD 0) clus false
  generalize (corpsStarted s k n i clus core quads bank dict).placedOn k n (x.caller.getD 0) clus false = v at he p1 p2 p3 p4
  refine ⟨_, he, ?_⟩
  have htr : (v.modPkg k (fun p => p.modLaunch n corpsCounted)).troupe (s.nextId + 1) = u := by
    rw [← hu]
    unfold State.troupe
    rw [← p3]
    rfl
  dsimp only
  rw [htr]
  refine ⟨u1, u2, u3, u4, u5, u6, u7, u8, u9, u10, u11, u12, u13, u14, fun j hj => ?_, fun p hp' hh b hb' => ?_, ?_⟩
  · obtain ⟨slot, hsl⟩ := hwave j hj
    have hwv : (v.modPkg k (fun p => p.modLaunch n corpsCounted)).wave ((s.nextId + 1) * 32 + j) =
        { Wave.start (s.nextId + 1) j false x.hdr.entry (8 * x.hdr.regs) (quads.getD j 0) with slot := slot } := by
      rw [← hsl]
      unfold State.wave
      rw [← p2]
      rfl
    have hlane : ∀ l, l < 32 → (v.modPkg k (fun p => p.modLaunch n corpsCounted)).lane ((s.nextId + 1) * 32 + j) l = { Lane.init with pc := x.hdr.entry } := fun l hl => by
      unfold State.lane
      rw [hwv]
      exact start_lane _ _ _ _ _ _ _ hl
    rw [hwv]
    exact ⟨rfl, rfl, rfl, rfl, rfl, fun l hl => by rw [hlane l hl]; exact ⟨rfl, rfl, rfl⟩⟩
  · exact (congrArg (fun m => memGet m _) ((mem_modPkg ..).trans p1)).trans (htile p hp' hh b hb')
  · exact (congrArg (fun p : Pkg => (p.core core).lines) (State.pkg_modPkg_self v k (fun p => p.modLaunch n corpsCounted))).trans (p4 core hlines)
/-- Settles O44: a corps of one troupe starts, a troupe publishes, a spawn writes its record. -/
theorem troupeLife : Obligations.TroupeLife := by
  intro s
  refine ⟨fun k n i x clus core quads bank dict hx ho hp hs hi hc hpe hg hspot hb hd => corpsPlaced hx hpe (corpsPlacement_eq hx ho hp hs hi hc hg hspot hb hd),
    fun tid h => publish_early h, ?_, ?_⟩
  · intro tid x u h hu hx hgr hq
    refine ⟨fun key h0 h1 hk hn => ?_, fun key h0 h1 hk hn => ?_⟩
    · obtain ⟨t, ht, t1, t2, t3⟩ := publish_does h hu hx hq (publishWords_evt h0 h1 hk) (update_memoryOnly hn _ _) hgr
      obtain ⟨-, m1, m2⟩ := update_of_none hn completionMark none
      rw [completionMark_toNat, toNat_numberAt8] at m1
      exact ⟨t, ht, t2, ⟨by rw [t1]; exact m1, fun b hb => by rw [t1]; exact m2 b hb⟩, t3⟩
    · obtain ⟨t, ht, t1, t2, -⟩ := publish_does h hu hx hq (publishWords_map h0 h1 hk) (update_memoryOnly hn _ _) hgr
      obtain ⟨-, m1, m2⟩ := update_of_none hn (fun m => m ||| (1#64 <<< (u.tidx % 64))) none
      rw [orBit_toNat _ (Nat.mod_lt _ (by decide)), toNat_numberAt8] at m1
      exact ⟨t, ht, t2, ⟨by rw [t1]; exact m1, fun b hb => by rw [t1]; exact m2 b hb⟩⟩
  · intro m d a e he k b va q lq depth gives refused legal
    refine ⟨fun hl => ?_, fun hl h7 => ?_, fun hl h7 hf => ?_, ?_⟩
    · have hw := given_writes s m d 3
      exact ⟨_, spawn_illegal he hl, hw.frame, hw.lanes⟩
    · have hw := given_writes s m d 2
      exact ⟨_, (spawn_legal he hl).trans (by rw [show spawnDepth s = depth from rfl, if_pos h7]), hw.frame, hw.lanes⟩
    · have hw := given_writes s m d 1
      exact ⟨_, (spawn_legal he hl).trans (by rw [show spawnDepth s = depth from rfl, if_neg (Nat.not_le.2 h7), show spawnQueue s (s.block e a 4) = lq from rfl, if_pos hf]), hw.frame, hw.lanes⟩
    · intro ready
      refine ⟨fun ha hr f hf => ?_, fun hr hf hw => ?_, ?_⟩
      · obtain ⟨hl, h7, hne⟩ := hr
        exact ⟨_, spawn_faults he hl h7 hne hf, faultElected_access ha ⟨e, he.1⟩ (spawnBad_faults hf)⟩
      · obtain ⟨hl, h7, hne⟩ := hr
        exact ⟨_, spawn_walks he hl h7 hne hf hw, waitAt_walks hw⟩
      · intro bs key hr hf hw hrel hfe hlen slot h1 h2 hn
        obtain ⟨hl, h7, hne⟩ := hr
        have hslot : lq.slotVa lq.tail = slot := (slotVa_eq ..).trans (by rw [← size_eq])
        rw [← hslot] at h1 h2
        exact ⟨_, spawn_writes he hl h7 hne hf hw hrel, spawned_does s m d hfe hlen h1 h2 hn⟩

end Sys2Proof
end

