-- ==== Sys2Proof/Proofs/GraphStarts.lean ====
section
/-! SUPPORT. The start of a graph's nodes (R298): one lemma per kind of node. -/

namespace Sys2Proof
open Machine

/-! ### Nodes of a launch -/

theorem gnode_modNode (x : Launch) (i j : Nat) (f : GNode → GNode) : (x.modNode i f).gnode j = if j = i then f (x.gnode i) else x.gnode j := fget_fput ..
/-- The state in which a node runs. -/
def nodeStarted (s : State) (k n i sub : Nat) : State :=
  s.modPkg k (fun p => p.modLaunch n (fun x => x.modNode i (fun g => { g with st := .running, sub := sub })))
section
variable {s : State} {k n i sub : Nat} {x : Launch}
theorem flook_modLaunch_pkg (f : Launch → Launch) (j : Nat) : flook ((s.modPkg k (fun p => p.modLaunch n f)).pkg k).sched.launches j =
    if j = n then (flook (s.pkg k).sched.launches j).map f else flook (s.pkg k).sched.launches j := by
  rw [State.pkg_modPkg_self]
  exact flook_fmod ..
/-- A node that has started runs what it was given; nothing else of its package changes. -/
theorem nodeStarted_does (hx : flook (s.pkg k).sched.launches n = some x) : (nodeStarted s k n i sub).mem = s.mem ∧
    (((nodeStarted s k n i sub).launch k n).gnode i).st = .running ∧ (((nodeStarted s k n i sub).launch k n).gnode i).sub = sub ∧
    ((nodeStarted s k n i sub).pkg k).cmds = (s.pkg k).cmds ∧ ((nodeStarted s k n i sub).pkg k).coll = (s.pkg k).coll ∧
    ∀ j, j ≠ n → flook ((nodeStarted s k n i sub).pkg k).sched.launches j = flook (s.pkg k).sched.launches j := by
  have hl := flook_modLaunch_pkg (s := s) (k := k) (n := n) (fun x => x.modNode i (fun g => { g with st := .running, sub := sub }))
  have hn : (nodeStarted s k n i sub).launch k n = x.modNode i (fun g => { g with st := .running, sub := sub }) :=
    fget_of_flook_some ((hl n).trans (by rw [if_pos rfl, hx]; rfl))
  have hp := State.pkg_modPkg_self s k (fun p => p.modLaunch n (fun x => x.modNode i (fun g => { g with st := .running, sub := sub })))
  rw [hn, gnode_modNode, if_pos rfl]
  exact ⟨mem_modPkg .., rfl, rfl, by unfold nodeStarted; rw [hp]; rfl, by unfold nodeStarted; rw [hp]; rfl, fun j hj => (hl j).trans (if_neg hj)⟩
end

theorem issueRun_sched (p : Pkg) (slot : Nat) (r : CollRun) : (p.issueRun slot r).2.sched = p.sched := by
  unfold Pkg.issueRun Pkg.activateNext
  dsimp only
  split
  · rfl
  · split <;> rfl
section
variable {s : State} {k n i : Nat} {x : Launch} (hx : flook (s.pkg k).sched.launches n = some x)
include hx
/-- A launch that no caller walks keeps its nodes as they are. -/
theorem graphNode_unwalked (hw : x.walking = false) : exec (.graphNodeStart k n i) s = .next s ∧ exec (.graphNodeDone k n i) s = .next s := by
  refine ⟨Eq.trans (show _ = execGraphNodeStart k n i s from rfl) ?_, Eq.trans (show _ = execGraphNodeDone k n i s from rfl) ?_⟩
  · unfold execGraphNodeStart
    rw [launch_of_flook hx]
    exact if_pos (by rw [hw]; rfl)
  · unfold execGraphNodeDone
    rw [launch_of_flook hx]
    exact if_pos (by rw [hw]; rfl)
variable {r : NodeRec} (hw : x.walking = true) (hr : s.node? k x i = some r)
include hw hr
section
variable (hb : r.bad x.gcount = false) (hst : (x.gnode i).st = .ready)
include hb hst
omit hb in
theorem graphNodeStart_go {s1 s2 : State} {sub : Nat} (h : s.startNode k n i x r = (.go s1 sub, s2)) : exec (.graphNodeStart k n i) s = .next (nodeStarted s1 k n i sub) := by
  refine Eq.trans (show _ = execGraphNodeStart k n i s from rfl) ?_
  unfold execGraphNodeStart
  rw [launch_of_flook hx]
  refine (if_neg (by rw [hw, hst]; decide)).trans ?_
  simp only [hr, h]
  rfl
theorem gridNode_starts {y : Launch} {bs : List Byte} (hk : r.kind = 0) (h64 : (r.word 16).toNat % 64 = 0) (hf : s.devFetch k x.ctx (r.word 16) 128 = some bs)
    (hg : (lrecOf (r.word 16) bs).graph = false) (hj : s.judge k x.ctx (r.word 16) bs = .inr y) (hn : n ≠ s.nextId) : After (.graphNodeStart k n i) s (fun t =>
      t.mem = s.mem ∧ ((t.launch k n).gnode i).st = .running ∧
      ∃ z, flook (t.pkg k).sched.launches s.nextId = some z ∧ z.rcd = y.rcd ∧ z.hdr = y.hdr ∧ z.parent = some (n, i) ∧ z.caller = x.caller) := by
  have hgo : s.startNode k n i x r = (.go (s.addLaunch k { y with queue := 64, prio := x.prio, depth := x.depth, parent := some (n, i), caller := x.caller }) s.nextId, s) := by
    unfold State.startNode State.startGrid
    rw [hb, if_neg Bool.false_ne_true, hk]
    dsimp only
    rw [if_neg (not_not_intro h64), hf]
    dsimp only
    rw [hg, if_neg Bool.false_ne_true, hj]
    rfl
  have hl : flook ((s.addLaunch k { y with queue := 64, prio := x.prio, depth := x.depth, parent := some (n, i), caller := x.caller }).pkg k).sched.launches n = some x := by
    unfold State.addLaunch
    dsimp only
    rw [State.pkg_modPkg_self]
    exact (flook_fput ..).trans ((if_neg hn).trans hx)
  have ha := flook_addLaunch s k { y with queue := 64, prio := x.prio, depth := x.depth, parent := some (n, i), caller := x.caller }
  have hmem : (s.addLaunch k { y with queue := 64, prio := x.prio, depth := x.depth, parent := some (n, i), caller := x.caller }).mem = s.mem := mem_modPkg ..
  have hx' := graphNodeStart_go hx hw hr hst hgo
  generalize s.addLaunch k { y with queue := 64, prio := x.prio, depth := x.depth, parent := some (n, i), caller := x.caller } = u at hl ha hmem hx'
  obtain ⟨n1, n2, -, -, -, n6⟩ := nodeStarted_does (i := i) (sub := s.nextId) hl
  exact ⟨_, hx', n1.trans hmem, n2, _, (n6 s.nextId hn.symm).trans ha, rfl, rfl, rfl, rfl⟩
theorem signalNode_starts {key : Nat} (hk : r.kind = 4) (h8 : (r.word 16).toNat % 8 = 0) (hkey : s.wordKey k x.ctx (r.word 16) true = .inr key) (hno : NoneAbout s key 8) :
    After (.graphNodeStart k n i) s (fun t => ((t.launch k n).gnode i).st = .running ∧ MemoryTakes s t key 8 ((numberAt s key 8 + (r.word 24).toNat) % 2 ^ 64)) := by
  have hgo : s.startNode k n i x r = (.go (s.addEvent key (r.word 24)) 0, s) := by
    unfold State.startNode State.startSig
    rw [hb, if_neg Bool.false_ne_true, hk, if_neg (not_not_intro h8), hkey]
    rfl
  obtain ⟨-, m1, m2⟩ := update_of_none hno (fun v => v + r.word 24) none
  have hm := update_memoryOnly hno (fun v => v + r.word 24) none
  have hl : flook ((s.addEvent key (r.word 24)).pkg k).sched.launches n = some x := by
    unfold State.addEvent
    rw [hm.pkg]
    exact hx
  obtain ⟨n1, n2, -⟩ := nodeStarted_does (i := i) (sub := 0) hl
  rw [BitVec.toNat_add, toNat_numberAt8] at m1
  exact ⟨_, graphNodeStart_go hx hw hr hst hgo, n2, by rw [n1]; exact m1, fun b hb => by rw [n1]; exact m2 b hb⟩
theorem wordNode_starts {key : Nat} (hk : r.kind = 3 ∨ r.kind = 5 ∨ r.kind = 6) (h8 : (r.word 16).toNat % 8 = 0) (hkey : s.wordKey k x.ctx (r.word 16) false = .inr key) :
    After (.graphNodeStart k n i) s (fun t => t.mem = s.mem ∧ ((t.launch k n).gnode i).st = .running) := by
  have hword : s.startWord k x r = .go s 0 := by
    unfold State.startWord
    rw [if_neg (not_not_intro h8), hkey]
  have hgo : s.startNode k n i x r = (.go s 0, s) := by
    unfold State.startNode
    rw [hb, if_neg Bool.false_ne_true]
    rcases hk with hk | hk | hk <;> rw [hk] <;> exact congrArg (fun g => (g, s)) hword
  obtain ⟨n1, n2, -⟩ := nodeStarted_does (i := i) (sub := 0) hx
  exact ⟨_, graphNodeStart_go hx hw hr hst hgo, n1, n2⟩
theorem emptyNode_starts (hk : r.kind = 7) : After (.graphNodeStart k n i) s (fun t => t.mem = s.mem ∧ ((t.launch k n).gnode i).st = .running) := by
  have hgo : s.startNode k n i x r = (.go s 0, s) := by
    unfold State.startNode
    rw [hb, if_neg Bool.false_ne_true, hk]
    rfl
  obtain ⟨n1, n2, -⟩ := nodeStarted_does (i := i) (sub := 0) hx
  exact ⟨_, graphNodeStart_go hx hw hr hst hgo, n1, n2⟩
/-- The command that a copy node becomes. -/
def copyCommand (s : State) (k n i : Nat) (ctx : W32) (eng : Nat) (src dst : W64) (len : Nat) : CmdRec :=
  { CmdRec.blank with
    id := s.nextId, core := 0, ctx := ctx, engine := eng, cmd := .copy .g .g false src dst len 0, total := len
    srcs := (stepsOf (2 ^ 16) src len).filterMap (fun v => (s.copyPage k ctx false v).map (fun key => key / 2 ^ 16 * 2 ^ 16))
    dsts := (stepsOf (2 ^ 16) dst len).filterMap (fun v => (s.copyPage k ctx true v).map (fun key => key / 2 ^ 16 * 2 ^ 16)), graph := some (n, i) }
omit hx hw hr hb hst in
theorem startCopy_go {bs : List Byte} {eng len : Nat} {src dst : W64} (hf : s.devFetch k x.ctx (r.word 16) 24 = some bs) (he : (s.pkg k).engineFor 0 = some eng)
    (hsrc : BitVec.ofNat 64 (field bs 0 8) = src) (hdst : BitVec.ofNat 64 (field bs 8 8) = dst) (hlen : field bs 16 4 = len)
    (h1 : 16 ≤ len) (h2 : len < 2 ^ 24) (h3 : len % 16 = 0) (h4 : src.toNat % 16 = 0) (h5 : dst.toNat % 16 = 0) (h6 : field bs 20 4 = 0)
    (h7 : ∀ v ∈ stepsOf (2 ^ 16) src len, s.copyPage k x.ctx false v ≠ none) (h8 : ∀ v ∈ stepsOf (2 ^ 16) dst len, s.copyPage k x.ctx true v ≠ none) :
    s.startCopy k n i x r = .go ({ s with nextId := s.nextId + 1 }.modPkg k (fun p => { p with cmds := p.cmds ++ [copyCommand s k n i x.ctx eng src dst len] })) s.nextId := by
  have e1 : nbits len 31 24 = 0 := by
    unfold nbits
    rw [Nat.shiftRight_eq_div_pow, Nat.div_eq_of_lt h2]
    rfl
  have e2 : nbits len 23 0 = len := by
    unfold nbits
    exact Nat.mod_eq_of_lt h2
  have e3 : (stepsOf (2 ^ 16) src len).any (fun v => (s.copyPage k x.ctx false v).isNone) = false :=
    List.any_eq_false.2 fun v hv hn => h7 v hv (Option.isNone_iff_eq_none.1 hn)
  have e4 : (stepsOf (2 ^ 16) dst len).any (fun v => (s.copyPage k x.ctx true v).isNone) = false :=
    List.any_eq_false.2 fun v hv hn => h8 v hv (Option.isNone_iff_eq_none.1 hn)
  have e5 : (List.range 4).findSome? (fun die => ((s.pkg k).engineFor die).map (fun e => (die, e))) = some (0, eng) := by
    rw [show List.range 4 = [0, 1, 2, 3] from rfl, List.findSome?_cons, he]
    rfl
  unfold State.startCopy
  simp only [hf, hsrc, hdst, hlen, e1, e2, e3, e4, e5, h6]
  rw [if_neg (by simp only [ne_eq, not_true, false_or, or_false, not_or, not_not, Nat.not_lt]; exact ⟨h1, h3, h4, h5⟩), if_neg (by decide)]
  rfl
theorem copyNode_starts {bs : List Byte} {eng len : Nat} {src dst : W64} (hk : r.kind = 1) (hf : s.devFetch k x.ctx (r.word 16) 24 = some bs) (he : (s.pkg k).engineFor 0 = some eng)
    (hsrc : BitVec.ofNat 64 (field bs 0 8) = src) (hdst : BitVec.ofNat 64 (field bs 8 8) = dst) (hlen : field bs 16 4 = len)
    (h1 : 16 ≤ len) (h2 : len < 2 ^ 24) (h3 : len % 16 = 0) (h4 : src.toNat % 16 = 0) (h5 : dst.toNat % 16 = 0) (h6 : field bs 20 4 = 0)
    (h7 : ∀ v ∈ stepsOf (2 ^ 16) src len, s.copyPage k x.ctx false v ≠ none) (h8 : ∀ v ∈ stepsOf (2 ^ 16) dst len, s.copyPage k x.ctx true v ≠ none) :
    After (.graphNodeStart k n i) s (fun t => t.mem = s.mem ∧ ((t.launch k n).gnode i).st = .running ∧ ((t.launch k n).gnode i).sub = s.nextId ∧
      ∃ c, (t.pkg k).cmds = (s.pkg k).cmds ++ [c] ∧ c.id = s.nextId ∧ c.ctx = x.ctx ∧ c.engine = eng ∧ c.graph = some (n, i) ∧ c.cmd = .copy .g .g false src dst len 0) := by
  have hgo : s.startNode k n i x r = (.go ({ s with nextId := s.nextId + 1 }.modPkg k (fun p => { p with cmds := p.cmds ++ [copyCommand s k n i x.ctx eng src dst len] })) s.nextId, s) := by
    unfold State.startNode
    rw [hb, if_neg Bool.false_ne_true, hk]
    exact congrArg (fun g => (g, s)) (startCopy_go hf he hsrc hdst hlen h1 h2 h3 h4 h5 h6 h7 h8)
  have hp := State.pkg_modPkg_self { s with nextId := s.nextId + 1 } k (fun p => { p with cmds := p.cmds ++ [copyCommand s k n i x.ctx eng src dst len] })
  obtain ⟨n1, n2, n3, n4, -⟩ := nodeStarted_does (s := { s with nextId := s.nextId + 1 }.modPkg k (fun p => { p with cmds := p.cmds ++ [copyCommand s k n i x.ctx eng src dst len] }))
    (k := k) (n := n) (i := i) (sub := s.nextId) (x := x) ((congrArg (fun p => flook p.sched.launches n) hp).trans hx)
  exact ⟨_, graphNodeStart_go hx hw hr hst hgo, n1.trans (mem_modPkg ..), n2, n3, _, n4.trans (congrArg Pkg.cmds hp), rfl, rfl, rfl, rfl, rfl⟩
/-- The run that a collective node issues. -/
def nodeRun (s : State) (x : Launch) (r : NodeRec) : CollRun :=
  { CollRun.init with born := s.nextId, ctx := x.ctx, base0 := r.word 24, base1 := r.word 32, base2 := r.word 40 }
theorem collNode_starts {pl : Plan} {slot : Nat} (hk : r.kind = 2) (hslot : nbits (field r.bytes 16 4) 7 0 = slot) (hz : nbits (field r.bytes 16 4) 31 8 = 0) (hz' : field r.bytes 20 4 = 0)
    (hp : flook (s.pkg k).coll.plans slot = some pl) (hstg : pl.stg = true → r.word 40 ≠ 0)
    (hf : s.collFault k 1024 x.ctx true pl (nodeRun s x r) = none)
    (hroom : (s.pkg k).runRoom slot = true) : After (.graphNodeStart k n i) s (fun t => t.mem = s.mem ∧ ((t.launch k n).gnode i).st = .running ∧
      ((t.launch k n).gnode i).sub = (s.pkg k).coll.runSeq.toNat ∧ (t.pkg k).coll.runSeq = (s.pkg k).coll.runSeq + 1 ∧
      ∃ z ∈ (t.pkg k).coll.runs, z.seq = (s.pkg k).coll.runSeq ∧ z.plan = slot ∧ z.ctx = x.ctx ∧ z.base0 = r.word 24 ∧ z.base1 = r.word 32 ∧ z.base2 = r.word 40) := by
  have hcoll : s.startColl k x r = .go (s.setPkg k ((s.pkg k).issueRun slot { nodeRun s x r with pages := s.collPages k x.ctx pl (nodeRun s x r) }).2)
      (s.pkg k).coll.runSeq.toNat := by
    unfold nodeRun at hf ⊢
    unfold State.startColl
    simp only [hz, hz', hslot, hp, hf, hroom]
    rw [if_neg (by simp), if_neg fun h => hstg h.1 h.2]
    rfl
  obtain ⟨-, i2, z, hz1, hz2⟩ := issueRun_does (s.pkg k) slot { nodeRun s x r with pages := s.collPages k x.ctx pl (nodeRun s x r) }
  have hsched := issueRun_sched (s.pkg k) slot { nodeRun s x r with pages := s.collPages k x.ctx pl (nodeRun s x r) }
  generalize ((s.pkg k).issueRun slot { nodeRun s x r with pages := s.collPages k x.ctx pl (nodeRun s x r) }).2 = q at hcoll i2 hz1 hsched
  have hgo' : s.startNode k n i x r = (.go (s.setPkg k q) (s.pkg k).coll.runSeq.toNat, s) := by
    unfold State.startNode
    rw [hb, if_neg Bool.false_ne_true, hk]
    exact congrArg (fun g => (g, s)) hcoll
  obtain ⟨n1, n2, n3, -, n5, -⟩ := nodeStarted_does (s := s.setPkg k q) (k := k) (n := n) (i := i) (sub := (s.pkg k).coll.runSeq.toNat) (x := x)
    (by rw [State.pkg_setPkg_self, hsched]; exact hx)
  rw [State.pkg_setPkg_self] at n5
  exact ⟨_, graphNodeStart_go hx hw hr hst hgo', n1, n2, n3, by rw [n5]; exact i2, z, by rw [n5]; exact hz1, hz2.seq, hz2.plan, hz2.ctx, hz2.base0, hz2.base1, hz2.base2⟩
end
end
end Sys2Proof
end

