-- ==== Sys2Proof/Proofs/GraphEnds.lean ====
section
/-! SUPPORT. The end of a graph's nodes (R298): when a node is done, whom it gives arrivals, and when the graph is over. -/

namespace Sys2Proof
open Machine

theorem leNat_take (bs : List Byte) (m n : Nat) : leNat (bs.take (m + n)) = leNat (bs.take m) + 256 ^ m * leNat ((bs.drop m).take n) := by
  induction bs generalizing m with
  | nil => simp [leNat]
  | cons b bs ih =>
    cases m with
    | zero => simp [leNat]
    | succ m =>
      rw [show m + 1 + n = m + n + 1 by omega]
      simp only [List.take_succ_cons, List.drop_succ_cons, leNat]
      rw [ih m, pow_succ]
      ring
theorem field_add (bs : List Byte) (off m n : Nat) : field bs off (m + n) = field bs off m + 256 ^ m * field bs (off + m) n := by
  unfold field
  rw [leNat_take, List.drop_drop]
/-- The first words of a collective node name a plan and nothing more. -/
theorem slotWord {bs : List Byte} (h : field bs 16 8 < 2 ^ 8) : nbits (field bs 16 4) 7 0 = field bs 16 1 ∧ nbits (field bs 16 4) 31 8 = 0 ∧ field bs 20 4 = 0 := by
  have h1 : field bs 16 8 = field bs 16 4 + 256 ^ 4 * field bs 20 4 := field_add bs 16 4 4
  have h2 : field bs 16 4 = field bs 16 1 + 256 ^ 1 * field bs 17 3 := field_add bs 16 1 3
  have h3 : field bs 16 1 < 256 ^ 1 := leNat_lt_of_length (List.length_take_le ..)
  rw [nbits_low, nbits_div]
  omega

/-! ### Arrivals -/

theorem gnode_arrive (x : Launch) (j m : Nat) (b : Bool) : (x.arrive j b).gnode m = if m = j then
    (if b then { x.gnode j with st := .ready, body := true } else { x.gnode j with count := (x.gnode j).count - 1, st := if (x.gnode j).count = 1 then .ready else (x.gnode j).st, body := false })
    else x.gnode m := gnode_modNode ..
theorem gnode_arrive_other (x : Launch) {j m : Nat} (h : m ≠ j) (b : Bool) : (x.arrive j b).gnode m = x.gnode m := (gnode_arrive ..).trans (if_neg h)
theorem gnode_arrive_last (x : Launch) {j : Nat} (h : (x.gnode j).count = 1) : ((x.arrive j false).gnode j).st = .ready := by
  rw [gnode_arrive, if_pos rfl, if_neg Bool.false_ne_true, if_pos h]
/-- The nodes of a launch in which a node has ended. -/
def nodeIdled (x : Launch) (i : Nat) : Launch := x.modNode i (fun g => { g with st := .idle })
theorem nodeIdled_self (x : Launch) (i : Nat) : ((nodeIdled x i).gnode i).st = .idle := by
  unfold nodeIdled
  rw [gnode_modNode, if_pos rfl]
theorem nodeIdled_other (x : Launch) {i j : Nat} (h : j ≠ i) : (nodeIdled x i).gnode j = x.gnode j := (gnode_modNode ..).trans (if_neg h)
/-- The launch with the counts of some nodes set anew, as the launch itself gives them. -/
def countsAnew (c : Launch → Nat → Nat) (body : List Nat) (x : Launch) : Launch := body.foldl (fun (x : Launch) j => x.modNode j (fun g => { g with count := c x j })) x
theorem countsAnew_gnode {c : Launch → Nat → Nat} (hc : ∀ y i f, c (y.modNode i f) = c y) (body : List Nat) (x : Launch) (m : Nat) :
    (countsAnew c body x).gnode m = if m ∈ body then { x.gnode m with count := c x m } else x.gnode m := by
  induction body generalizing x with
  | nil => exact (if_neg List.not_mem_nil).symm
  | cons j body ih =>
    refine (ih _).trans ?_
    rw [gnode_modNode, hc]
    by_cases hm : m = j
    · subst hm
      rw [if_pos rfl, if_pos (List.mem_cons_self ..)]
      exact ite_self _
    · rw [if_neg hm]
      exact if_congr ⟨List.mem_cons_of_mem _, fun h => (List.mem_cons.1 h).resolve_left hm⟩ rfl rfl
theorem mem_bodyGo {next : Nat → List Nat} {w f m : Nat} {edge seen : List Nat} (h : m ∈ seen) : m ∈ bodyGo next w f edge seen := by
  induction f generalizing edge seen with
  | zero => exact h
  | succ f ih =>
    unfold bodyGo
    dsimp only
    split
    · exact h
    · exact ih (List.mem_append_left _ h)
theorem ne_of_mem_bodyGo {next : Nat → List Nat} {w f m : Nat} {edge seen : List Nat} (hs : w ∉ seen) (h : m ∈ bodyGo next w f edge seen) : m ≠ w := by
  induction f generalizing edge seen with
  | zero => exact ne_of_mem_of_not_mem h hs
  | succ f ih =>
    unfold bodyGo at h
    dsimp only at h
    split at h
    · exact ne_of_mem_of_not_mem h hs
    · refine ih (fun hw => ?_) h
      rcases List.mem_append.1 hw with hw | hw
      · exact hs hw
      · obtain ⟨-, hw⟩ := List.mem_filter.1 (List.mem_dedup.1 hw)
        rw [bne_self_eq_false] at hw
        exact Bool.false_ne_true hw
/-- The body of a while node holds its first successor, and not the node itself. -/
theorem bodyOf_first {s : State} {k i a : Nat} {x : Launch} {l : List Nat} (h : s.nodeNext k x i = a :: l) (ha : a ≠ i) : a ∈ s.bodyOf k x i ∧ i ∉ s.bodyOf k x i := by
  unfold State.bodyOf
  rw [h]
  dsimp only
  rw [if_neg ha]
  exact ⟨mem_bodyGo (List.mem_singleton_self a), fun hi => ne_of_mem_bodyGo (fun hw => ha (List.mem_singleton.1 hw).symm) hi rfl⟩

/-! ### The end of a node and of its graph -/

section
variable {s : State} {k n i : Nat} {x : Launch} (hx : flook (s.pkg k).sched.launches n = some x)
/-- The state in which a launch has become another. -/
def launchBecomes (s : State) (k n : Nat) (y : Launch) : State := s.modPkg k (fun p => p.modLaunch n (fun _ => y))
include hx
theorem launchBecomes_launch (y : Launch) : (launchBecomes s k n y).launch k n = y := by
  refine fget_of_flook_some ((flook_modLaunch_pkg (fun _ => y) n).trans ?_)
  rw [if_pos rfl, hx]
  rfl
/-- A graph with a node that is not idle goes on. -/
theorem graphOver_busy {y : Launch} {h : Nat} (hb : (y.gnode h).st ≠ .idle) : (launchBecomes s k n y).graphOver k n = launchBecomes s k n y := by
  have hm : ∃ g, flook y.nodes h = some g ∧ g.st ≠ .idle := by
    unfold Launch.gnode at hb
    rw [fget_eq_flook] at hb
    cases hf : flook y.nodes h with
    | none => exact absurd (by rw [hf]; rfl) hb
    | some g => exact ⟨g, rfl, by rw [hf] at hb; exact hb⟩
  obtain ⟨g, hg, hne⟩ := hm
  unfold State.graphOver
  rw [launchBecomes_launch hx]
  exact if_pos (List.any_eq_true.2 ⟨(h, g), mem_of_flook hg, show (g.st != .idle) = true from bne_iff_ne.2 hne⟩)
theorem launchBecomes_does (y : Launch) {h : Nat} (hb : (y.gnode h).st ≠ .idle) : ((launchBecomes s k n y).graphOver k n).mem = s.mem ∧
    ∀ j, (((launchBecomes s k n y).graphOver k n).launch k n).gnode j = y.gnode j := by
  rw [graphOver_busy hx hb, launchBecomes_launch hx]
  exact ⟨mem_modPkg .., fun _ => rfl⟩
/-- A graph whose nodes are all idle counts in its event word, and leaves the table. -/
theorem graphOver_ends {y : Launch} {key : Nat} (hi : ∀ e ∈ y.nodes, e.2.st = .idle) (he : y.rcd.evt ≠ 0) (hkey : s.wordKey k y.ctx y.rcd.evt true = .inr key)
    (hno : NoneAbout s key 8) : flook (((launchBecomes s k n y).graphOver k n).pkg k).sched.launches n = none ∧
    MemoryTakes s ((launchBecomes s k n y).graphOver k n) key 8 (numberAt s key 8 / 2 ^ 63 * 2 ^ 63 + (numberAt s key 8 + 1) % 2 ^ 63) := by
  have hl := launchBecomes_launch hx y
  have ht : SameTables s (launchBecomes s k n y) := modPkg_sameTables s k (fun p => p.modLaunch n (fun _ => y)) rfl rfl
  have hno' : NoneAbout (launchBecomes s k n y) key 8 := hno
  have hmem : (launchBecomes s k n y).mem = s.mem := ht.mem
  rw [← ht.wordKey] at hkey
  generalize launchBecomes s k n y = u at hl hkey hno' hmem
  have hover : u.graphOver k n = ((u.update key 8 completionMark none).2).dropLaunch k n := by
    unfold State.graphOver
    rw [hl]
    refine (if_neg (fun h => ?_)).trans ((if_neg he).trans ?_)
    · obtain ⟨e, hm, hne⟩ := List.any_eq_true.1 h
      exact bne_iff_ne.1 hne (hi e hm)
    · rw [hkey]
  obtain ⟨-, m1, m2⟩ := update_of_none hno' completionMark none
  rw [completionMark_toNat, toNat_numberAt8] at m1
  have hn : numberAt u key 8 = numberAt s key 8 := by
    unfold numberAt
    rw [hmem]
  rw [hover, ← hn]
  unfold State.dropLaunch
  refine ⟨?_, ?_, fun b hb => ?_⟩
  · rw [State.pkg_modPkg_self]
    exact (flook_fdel ..).trans (if_pos rfl)
  · unfold numberAt at m1 ⊢
    rw [mem_modPkg]
    exact m1
  · rw [mem_modPkg, m2 b hb, hmem]
end

/-! ### A node that is done -/

/-- Whether an arrival comes to a while node from its body, the launch having become another meanwhile. -/
def fromBody (s : State) (k : Nat) (x z : Launch) (i j : Nat) : Bool :=
  (match s.node? k x j with | some y => y.kind == 6 | none => false) && (s.bodyOf k z j).contains i
theorem fromBody_plain {s : State} {k i j : Nat} {x z : Launch} {y : NodeRec} (h : s.node? k x j = some y) (hy : y.kind ≠ 6) : fromBody s k x z i j = false := by
  unfold fromBody
  rw [h]
  dsimp only
  rw [beq_false_of_ne hy]
  rfl
theorem fromBody_body {s : State} {k i j : Nat} {x z : Launch} {y : NodeRec} (h : s.node? k x j = some y) (hy : y.kind = 6) (hi : i ∈ s.bodyOf k z j) : fromBody s k x z i j = true := by
  unfold fromBody
  rw [h]
  dsimp only
  rw [hy, List.contains_iff_mem.2 hi]
  rfl
/-- What a node of one kind that is over waits for no more. -/
def NodeOver (s : State) (k : Nat) (x : Launch) (i : Nat) (r : NodeRec) : Prop :=
  r.kind = 4 ∨ r.kind = 7 ∨ (r.kind = 3 ∧ ∃ key, s.wordKey k x.ctx (r.word 16) false = .inr key ∧ (r.word 24).toNat ≤ numberAt s key 8) ∨
    (r.kind = 0 ∧ flook (s.pkg k).sched.launches (x.gnode i).sub = none) ∨ (r.kind = 1 ∧ (s.pkg k).cmd? (x.gnode i).sub = none) ∨
    (r.kind = 2 ∧ ∀ c, (s.pkg k).run? (x.gnode i).sub = some c → c.done = true)
section
variable {s : State} {k n i : Nat} {x : Launch} {r : NodeRec}
theorem NodeOver.nodeEnd (h : NodeOver s k x i r) : s.nodeEnd k x i r = .yes 0 := by
  unfold State.nodeEnd
  rcases h with h | h | ⟨h, key, hk, hv⟩ | ⟨h, hf⟩ | ⟨h, hf⟩ | ⟨h, hf⟩
  · rw [h]
    rfl
  · rw [h]
    rfl
  · rw [h]
    dsimp only
    rw [hk]
    exact if_pos hv
  · rw [h]
    dsimp only
    rw [hf]
    rfl
  · rw [h]
    dsimp only
    rw [hf]
    rfl
  · rw [h]
    dsimp only
    cases hc : (s.pkg k).run? (x.gnode i).sub with
    | none => rfl
    | some c => exact if_pos (hf c hc)
theorem NodeOver.kind (h : NodeOver s k x i r) : ¬ (r.kind = 5 ∨ r.kind = 6) := by
  rcases h with h | h | ⟨h, -⟩ | ⟨h, -⟩ | ⟨h, -⟩ | ⟨h, -⟩ <;> omega
theorem nodeEnd_chooses {key : Nat} (h : r.kind = 5 ∨ r.kind = 6) (hk : s.wordKey k x.ctx (r.word 16) false = .inr key) :
    s.nodeEnd k x i r = .yes (if numberAt s key 8 = 0 then 1 else 0) := by
  unfold State.nodeEnd
  rcases h with h | h <;> rw [h] <;> dsimp only <;> rw [hk] <;> rfl
variable (hx : flook (s.pkg k).sched.launches n = some x) (hw : x.walking = true) (hr : s.node? k x i = some r) (hst : (x.gnode i).st = .running)
include hx hw hr hst
theorem graphNodeDone_yes {side : Nat} (h : s.nodeEnd k x i r = .yes side) : exec (.graphNodeDone k n i) s =
    .next ((launchBecomes s k n ((if r.kind = 5 ∨ r.kind = 6 then (r.next.drop side).take 1 else r.next).foldl
      (fun (y : Launch) j => y.arrive j (fromBody s k x y i j))
      (if r.kind = 6 ∧ side = 0 then countsAnew (s.npred k) (s.bodyOf k x i) (nodeIdled x i) else nodeIdled x i))).graphOver k n) := by
  refine Eq.trans (show _ = execGraphNodeDone k n i s from rfl) ?_
  unfold execGraphNodeDone
  rw [launch_of_flook hx]
  refine (if_neg (by rw [hw, hst]; decide)).trans ?_
  rw [hr]
  dsimp only
  rw [h]
  rfl
theorem graphNodeDone_waits (h : s.nodeEnd k x i r = .no) : exec (.graphNodeDone k n i) s = .next s := by
  refine Eq.trans (show _ = execGraphNodeDone k n i s from rfl) ?_
  unfold execGraphNodeDone
  rw [launch_of_flook hx]
  refine (if_neg (by rw [hw, hst]; decide)).trans ?_
  rw [hr]
  dsimp only
  rw [h]
theorem graphNodeDone_over (h : NodeOver s k x i r) : exec (.graphNodeDone k n i) s =
    .next ((launchBecomes s k n (r.next.foldl (fun (y : Launch) j => y.arrive j (fromBody s k x y i j)) (nodeIdled x i))).graphOver k n) := by
  rw [graphNodeDone_yes hx hw hr hst h.nodeEnd, if_neg h.kind, if_neg (fun h6 => h.kind (.inr h6.1))]
/-- A node with one successor gives it its arrival. -/
theorem singleNode_gives {j h : Nat} (ho : NodeOver s k x i r) (hn : r.next = [j]) (hj : j ≠ i) (hb : (((nodeIdled x i).arrive j (fromBody s k x (nodeIdled x i) i j)).gnode h).st ≠ .idle) :
    After (.graphNodeDone k n i) s (fun t => t.mem = s.mem ∧ ((t.launch k n).gnode i).st = .idle ∧
      (t.launch k n).gnode j = ((nodeIdled x i).arrive j (fromBody s k x (nodeIdled x i) i j)).gnode j) := by
  have he := graphNodeDone_over hx hw hr hst ho
  rw [hn] at he
  obtain ⟨d1, d2⟩ := launchBecomes_does hx _ hb
  refine ⟨_, he, d1, ?_, d2 j⟩
  refine (congrArg GNode.st (d2 i)).trans ?_
  rw [gnode_arrive_other _ hj.symm]
  exact nodeIdled_self x i
theorem singleNode_plain {j : Nat} {y : NodeRec} (ho : NodeOver s k x i r) (hn : r.next = [j]) (hj : j ≠ i) (hy : s.node? k x j = some y) (h6 : y.kind ≠ 6)
    (hidle : (x.gnode j).st = .idle) (hb : ∃ h, h ≠ i ∧ h ≠ j ∧ ∃ g, (h, g) ∈ x.nodes ∧ g.st ≠ .idle) (hris : Rising x.nodes) :
    After (.graphNodeDone k n i) s (fun t => t.mem = s.mem ∧ ((t.launch k n).gnode i).st = .idle ∧
      ((t.launch k n).gnode j).count = (x.gnode j).count - 1 ∧ ((t.launch k n).gnode j).st = if (x.gnode j).count = 1 then .ready else .idle) := by
  obtain ⟨h, hhi, hhj, g, hg, hne⟩ := hb
  have hgh : x.gnode h = g := fget_of_flook_some (hris.flook_of_mem hg)
  obtain ⟨t, ht, t1, t2, t3⟩ := singleNode_gives hx hw hr hst ho hn hj (h := h) (by
    rw [gnode_arrive_other _ hhj, nodeIdled_other x hhi, hgh]
    exact hne)
  rw [fromBody_plain hy h6, gnode_arrive, if_pos rfl, if_neg Bool.false_ne_true, nodeIdled_other x hj] at t3
  refine ⟨t, ht, t1, t2, by rw [t3], ?_⟩
  rw [t3]
  dsimp only
  rw [hidle]
theorem singleNode_loops {j : Nat} {y : NodeRec} (ho : NodeOver s k x i r) (hn : r.next = [j]) (hj : j ≠ i) (hy : s.node? k x j = some y) (h6 : y.kind = 6)
    (hb : i ∈ s.bodyOf k x j) : After (.graphNodeDone k n i) s (fun t => t.mem = s.mem ∧ ((t.launch k n).gnode i).st = .idle ∧
      ((t.launch k n).gnode j).st = .ready ∧ ((t.launch k n).gnode j).count = (x.gnode j).count) := by
  have hg : ((nodeIdled x i).arrive j (fromBody s k x (nodeIdled x i) i j)).gnode j = { x.gnode j with st := .ready, body := true } := by
    rw [fromBody_body hy h6 (z := nodeIdled x i) hb, gnode_arrive, if_pos rfl, if_pos rfl, nodeIdled_other x hj]
  obtain ⟨t, ht, t1, t2, t3⟩ := singleNode_gives hx hw hr hst ho hn hj (h := j) (by rw [hg]; exact nofun)
  rw [hg] at t3
  exact ⟨t, ht, t1, t2, by rw [t3], by rw [t3]⟩
/-- The last node of a graph ends it. -/
theorem lastNode_ends {key : Nat} (ho : NodeOver s k x i r) (hn : r.next = []) (hidle : ∀ e ∈ x.nodes, e.1 = i ∨ e.2.st = .idle) (hris : Rising x.nodes)
    (he : x.rcd.evt ≠ 0) (hkey : s.wordKey k x.ctx x.rcd.evt true = .inr key) (hno : NoneAbout s key 8) :
    After (.graphNodeDone k n i) s (fun t => flook (t.pkg k).sched.launches n = none ∧
      MemoryTakes s t key 8 (numberAt s key 8 / 2 ^ 63 * 2 ^ 63 + (numberAt s key 8 + 1) % 2 ^ 63)) := by
  have hx' := graphNodeDone_over hx hw hr hst ho
  rw [hn] at hx'
  refine ⟨_, hx', graphOver_ends hx (y := nodeIdled x i) (fun e hm => ?_) he hkey hno⟩
  have hf : (nodeIdled x i).gnode e.1 = e.2 := fget_of_flook_some (Rising.flook_of_mem (pairwise_fput _ _ hris) hm)
  rcases mem_fput hm with rfl | hm
  · rfl
  · rcases hidle e hm with h | h
    · rw [← hf, h]
      exact nodeIdled_self x i
    · exact h
theorem graphNodeDone_chooses {key c side : Nat} (h56 : r.kind = 5 ∨ r.kind = 6) (hkey : s.wordKey k x.ctx (r.word 16) false = .inr key)
    (hside : (if numberAt s key 8 = 0 then 1 else 0) = side) (hc : (r.next.drop side).take 1 = [c]) {y : NodeRec} (hy : s.node? k x c = some y) (h6 : y.kind ≠ 6) :
    exec (.graphNodeDone k n i) s = .next ((launchBecomes s k n ((if r.kind = 6 ∧ side = 0 then countsAnew (s.npred k) (s.bodyOf k x i) (nodeIdled x i)
      else nodeIdled x i).arrive c false)).graphOver k n) := by
  rw [graphNodeDone_yes hx hw hr hst ((nodeEnd_chooses h56 hkey).trans (congrArg NodeEnd.yes hside)), if_pos h56, hc]
  dsimp only [List.foldl_cons, List.foldl_nil]
  rw [fromBody_plain hy h6]
/-- A node that chooses gives its arrival to the successor that it has chosen, and none to the other. -/
theorem choice_gives {key c o side : Nat} (h56 : r.kind = 5 ∨ r.kind = 6) (hkey : s.wordKey k x.ctx (r.word 16) false = .inr key)
    (hside : (if numberAt s key 8 = 0 then 1 else 0) = side) (hc : (r.next.drop side).take 1 = [c]) {y : NodeRec} (hy : s.node? k x c = some y) (h6 : y.kind ≠ 6)
    (hno : ¬ (r.kind = 6 ∧ side = 0)) (hci : c ≠ i) (hoi : o ≠ i) (hoc : o ≠ c) (h1 : (x.gnode c).count = 1) :
    After (.graphNodeDone k n i) s (fun t => t.mem = s.mem ∧ ((t.launch k n).gnode i).st = .idle ∧ ((t.launch k n).gnode c).st = .ready ∧
      (t.launch k n).gnode o = x.gnode o) := by
  have he := graphNodeDone_chooses hx hw hr hst h56 hkey hside hc hy h6
  rw [if_neg hno] at he
  have hready : (((nodeIdled x i).arrive c false).gnode c).st = .ready := gnode_arrive_last _ (by rw [nodeIdled_other x hci]; exact h1)
  obtain ⟨d1, d2⟩ := launchBecomes_does hx ((nodeIdled x i).arrive c false) (h := c) (by rw [hready]; decide)
  refine ⟨_, he, d1, ?_, (congrArg GNode.st (d2 c)).trans hready, ?_⟩
  · refine (congrArg GNode.st (d2 i)).trans ?_
    rw [gnode_arrive_other _ hci.symm]
    exact nodeIdled_self x i
  · rw [d2, gnode_arrive_other _ hoc, nodeIdled_other x hoi]
/-- A while node goes into its body, whose counts are set anew. -/
theorem while_enters {key a : Nat} {l : List Nat} (hk : r.kind = 6) (hn : r.next = a :: l) (hai : a ≠ i) (hkey : s.wordKey k x.ctx (r.word 16) false = .inr key)
    (h0 : numberAt s key 8 ≠ 0) {y : NodeRec} (hy : s.node? k x a = some y) (h6 : y.kind ≠ 6) (h1 : y.npred = 1) :
    After (.graphNodeDone k n i) s (fun t => t.mem = s.mem ∧ ((t.launch k n).gnode i).st = .idle ∧ ((t.launch k n).gnode a).st = .ready ∧
      ∀ j ∈ s.bodyOf k x i, j ≠ a → ((t.launch k n).gnode j).count = s.npred k x j) := by
  have he := graphNodeDone_chooses (c := a) hx hw hr hst (.inr hk) hkey (if_neg h0) (by rw [hn]; rfl) hy h6
  rw [if_pos ⟨hk, rfl⟩] at he
  obtain ⟨ha, hi⟩ := bodyOf_first (s := s) (k := k) (x := x) (i := i) (a := a) (l := l) (by unfold State.nodeNext; rw [hr]; exact hn) hai
  have hc := countsAnew_gnode (c := s.npred k) (fun _ _ _ => rfl) (s.bodyOf k x i) (nodeIdled x i)
  have hpa : s.npred k x a = 1 := by
    unfold State.npred
    rw [hy]
    exact h1
  generalize countsAnew (s.npred k) (s.bodyOf k x i) (nodeIdled x i) = z at he hc
  have hready : ((z.arrive a false).gnode a).st = .ready := gnode_arrive_last _ (by rw [hc, if_pos ha]; exact hpa)
  obtain ⟨d1, d2⟩ := launchBecomes_does hx (z.arrive a false) (h := a) (by rw [hready]; decide)
  refine ⟨_, he, d1, ?_, (congrArg GNode.st (d2 a)).trans hready, fun j hj hja => ?_⟩
  · refine (congrArg GNode.st (d2 i)).trans ?_
    rw [gnode_arrive_other _ hai.symm, hc, if_neg hi]
    exact nodeIdled_self x i
  · rw [d2, gnode_arrive_other _ hja, hc, if_pos hj]
    rfl
end

/-! ### The obligation -/

/-- Settles O45: one lemma per kind of node for its start, and per kind of end for what it gives its successors. -/
theorem graphNodes : Obligations.GraphNodes := by
  unfold Obligations.GraphNodes
  intro s k n i x r hx node isOver
  refine ⟨fun hw => graphNode_unwalked hx hw, fun hw hr hb => ⟨fun hst => ⟨?_, ?_, ?_, ?_, ?_, ?_⟩, fun hst => ⟨?_, ?_, ?_, ?_, ?_, ?_, ?_, ?_, ?_⟩⟩⟩
  · intro y bs hk h64 hf hg hj hn
    exact gridNode_starts hx hw hr hb hst hk h64 hf hg hj hn
  · intro key hk h8 hkey hno
    exact signalNode_starts hx hw hr hb hst hk h8 hkey hno
  · intro bs eng hk hf he src dst len h1 h2 h3 h4 h5 h6 h7 h8
    exact copyNode_starts hx hw hr hb hst hk hf he rfl rfl rfl h1 h2 h3 h4 h5 h6 h7 h8
  · intro pl hk slot hlt hp hstg run hf hroom
    obtain ⟨w1, w2, w3⟩ := slotWord hlt
    exact collNode_starts hx hw hr hb hst hk w1 w2 w3 hp hstg hf hroom
  · intro key hk h8 hkey
    exact wordNode_starts hx hw hr hb hst hk h8 hkey
  · intro hk
    exact emptyNode_starts hx hw hr hb hst hk
  · intro key hk hkey hv
    refine graphNodeDone_waits hx hw hr hst ?_
    unfold State.nodeEnd
    rw [hk]
    dsimp only
    rw [hkey]
    exact if_neg (Nat.not_le.2 hv)
  · intro c hk hc
    refine graphNodeDone_waits hx hw hr hst ?_
    unfold State.nodeEnd
    rw [hk]
    dsimp only
    rw [hc]
    rfl
  · intro c hk hc hd
    refine graphNodeDone_waits hx hw hr hst ?_
    unfold State.nodeEnd
    rw [hk]
    dsimp only
    rw [hc]
    exact if_neg (by rw [hd]; exact Bool.false_ne_true)
  · intro y hk hy
    refine graphNodeDone_waits hx hw hr hst ?_
    unfold State.nodeEnd
    rw [hk]
    dsimp only
    rw [hy]
    rfl
  · intro j y ho hn hj hy h6 _ hidle hbusy hris
    exact singleNode_plain hx hw hr hst ho hn hj hy h6 hidle hbusy hris
  · intro key a b hk hn hai hbi hab hkey c o y hy h6 h1 _
    by_cases h0 : numberAt s key 8 = 0
    · have hc : c = b := if_pos h0
      have ho : o = a := if_pos h0
      rw [hc] at hy h1 ⊢
      rw [ho]
      exact choice_gives hx hw hr hst (.inl hk) hkey (if_pos h0) (by rw [hn]; rfl) hy h6 (by omega) hbi hai hab h1
    · have hc : c = a := if_neg h0
      have ho : o = b := if_neg h0
      rw [hc] at hy h1 ⊢
      rw [ho]
      exact choice_gives hx hw hr hst (.inl hk) hkey (if_neg h0) (by rw [hn]; rfl) hy h6 (by omega) hai hbi hab.symm h1
  · intro key a b hk hn hai hbi hab hkey _
    refine ⟨fun h0 y hy h6 h1 => while_enters hx hw hr hst hk hn hai hkey h0 hy h6 h1, fun h0 y hy h6 h1 => ?_⟩
    exact choice_gives hx hw hr hst (.inr hk) hkey (if_pos h0) (by rw [hn]; rfl) hy h6 (by omega) hbi hai hab h1
  · intro j y ho hn hj hy h6 hbody _
    exact singleNode_loops hx hw hr hst ho hn hj hy h6 hbody
  · intro key ho hn hidle hris he hkey hno
    exact lastNode_ends hx hw hr hst ho hn hidle hris he hkey hno

end Sys2Proof
end

-- ==== Sys2Proof/Proofs/PreemptionRefuted.lean ====

section
/-! SUPPORT. The restore of a saved troupe (R316, R323) whose corps is not the one that its launch's list of saved troupes begins with. -/

namespace Sys2Proof

open Machine

/-- Troupe 1, of corps 4, is saved; its launch lists it behind a troupe of corps 0, and both corps records name it. The arrivals of corps 0 are 9, its
image has none. -/
def misplacedCorps : State :=
  let s := Tests.savedWave.modPkg 0 (fun p => p.modLaunch 9 (fun x => { x with saved := [0, 1] }))
  { s with corps := [(0, ⟨0, 0, 9, 0, [1], 9, 1, false⟩), (4, ⟨0, 0, 9, 0, [1], 0, 1, false⟩)] }

set_option maxRecDepth 100000 in
theorem misplaced_restores : (match exec (.restorePlacement 0 9) misplacedCorps with | .next t => (t.corpsRec 0).carr | _ => 0) = 9 := by decide +kernel
set_option maxRecDepth 100000 in
theorem misplaced_image : ∃ g, misplacedCorps.devFetch 0 (misplacedCorps.troupe 1).ctx (misplacedCorps.troupe 1).savearea 64 = some g ∧ nbits (field g 4 4) 18 10 = 0 :=
  ⟨_, rfl, by decide +kernel⟩
set_option maxRecDepth 100000 in
theorem misplaced_places : ∃ x cx, flook (misplacedCorps.pkg 0).sched.launches 9 = some x ∧ misplacedCorps.outranked 0 9 = false ∧ x.placing = true ∧
    misplacedCorps.nextSaved 0 x = some (0, [1]) ∧ (misplacedCorps.troupe 1).pkg = 0 ∧ (misplacedCorps.troupe 1).launch = 9 ∧
    misplacedCorps.areaBad (misplacedCorps.troupe 1) false = none ∧ misplacedCorps.spot 0 9 x x.waitSaved [misplacedCorps.savedNeed 1] = .on 0 [(0, [0])] ∧
    (misplacedCorps.troupe 1).hdr.pentry = 0 ∧ misplacedCorps.bankWords 0 x.ctx x.rcd = some [] ∧ misplacedCorps.dictWords 0 x.ctx x.hdr = some none ∧
    flook (misplacedCorps.pkg 0).ctxs x.ctx.toNat = some cx ∧ cx.resth ≠ 0 :=
  ⟨_, _, rfl, by decide +kernel, by decide +kernel, by decide +kernel, by decide +kernel, by decide +kernel, by decide +kernel, by decide +kernel,
    by decide +kernel, by decide +kernel, by decide +kernel, rfl, by decide +kernel⟩

/-- Refutes O46: the restore chooses its troupes by the corps of the first saved troupe, and writes the image's arrivals into the record of the corps that
the restored troupe names. -/
theorem not_preemptionStages : ¬ Obligations.PreemptionStages := by
  intro h
  obtain ⟨-, -, -, -, hr⟩ := h misplacedCorps
  obtain ⟨x, cx, h1, h2, h3, h4, h5, h6, h7, h8, h9, h10, h11, h12, h13⟩ := misplaced_places
  obtain ⟨g, hg, hg0⟩ := misplaced_image
  obtain ⟨t, ht, -, -, -, -, hi, -⟩ := hr 0 9 1 0 0 x [0] [] none 0 h1 h2 h3 h4 h5 h6 h7 h8 h9 h10 h11 cx h12 h13
  obtain ⟨-, -, -, -, -, -, hc, -⟩ := hi g hg
  have hx := misplaced_restores
  rw [ht] at hx
  exact absurd ((hc.trans hg0).symm.trans hx) (by decide)

end Sys2Proof
end

-- ==== Sys2Proof/Proofs/DeterminismRefuted.lean ====

section
/-! SUPPORT. A flush (R404) of a buffered entry that is deferred and is marked as sent. -/

namespace Sys2Proof

open Machine

/-- An `inc` in the buffer that is marked as sent although it is homed here: it counts as deferred and as on its way. -/
def sentIncrement : DetEntry := { Tests.entry .inc 1 with sent := some 0 }
def sentBuffered : State := Tests.det [] false [sentIncrement] [] 4

set_option maxRecDepth 100000 in
theorem sentBuffered_flushes : (match exec (.detFlush Tests.plain) sentBuffered with | .next t => (t.core 0 0).detBuf | _ => []) = [sentIncrement] := by decide +kernel
set_option maxRecDepth 100000 in
theorem sentBuffered_deferred : sentBuffered.curTroupe.hdr.det = true ∧ (∃ l, On sentBuffered Tests.plain l) ∧ sentBuffered.relWait .pkg = false ∧
    sentBuffered.detEntries sentBuffered.curTid = [sentIncrement] ∧ sentBuffered.curPkg = 0 ∧ sentBuffered.curTroupe.core = 0 ∧
    (sentBuffered.core 0 0).detBuf.filter (fun e => e.tid != sentBuffered.curTid) = [] :=
  ⟨by decide, Tests.on_zero rfl rfl, by decide, by decide, by decide, by decide, by decide⟩
set_option maxRecDepth 100000 in
theorem sentBuffered_room : ∃ x, flook (sentBuffered.pkg 0).sched.launches sentBuffered.curTroupe.launch = some x ∧
    (sentBuffered.detEntries sentBuffered.curTid).length + x.deferred.length ≤ x.defLen / 32 := ⟨_, rfl, by decide⟩

/-- Refutes O47: an entry that is deferred and is marked as sent stays in the buffer, and the flush waits for it. -/
theorem not_determinismAndRecords : ¬ Obligations.DeterminismAndRecords := by
  rintro ⟨⟨-, -, hf, -⟩, -⟩
  obtain ⟨h1, h2, h3, h4, h5, h6, h7⟩ := sentBuffered_deferred
  obtain ⟨x, hx, hroom⟩ := sentBuffered_room
  obtain ⟨-, -, h⟩ := hf sentBuffered Tests.plain x
  rw [h5, h6] at h
  obtain ⟨-, hd, -⟩ := h h1 h2 h3 hx
  obtain ⟨t, ht, -, -, he, -⟩ := hd (fun e he => by
    rw [h4] at he
    exact .inl (congrArg DetEntry.op (List.mem_singleton.1 he))) hroom
  have hx := sentBuffered_flushes
  rw [ht] at hx
  exact absurd (hx.symm.trans (he.trans h7)) (by decide)

end Sys2Proof
end

