-- ==== Sys2Proof/Proofs/Rounding.lean ====
section
/-! SUPPORT. One rounding (R49, R50): what a mode makes of a size, the numbers of a format, and which of them a rounding gives. -/

namespace Sys2Proof
open Machine

/-! ### Rounding a size to whole units -/

/-- What a mode makes of a size `x` in whole units, for a number of a sign. -/
def RoundsSize (md : RMode) (neg : Bool) (x : ℚ) (k : Nat) : Prop :=
  match md with
  | .rne => |x - k| < 1 / 2 ∨ (|x - k| = 1 / 2 ∧ k % 2 = 0)
  | .rna => |x - k| < 1 / 2 ∨ (|x - k| = 1 / 2 ∧ x < k)
  | .rtz => (k : ℚ) ≤ x ∧ x < k + 1
  | .rdn => if neg then x ≤ k ∧ (k : ℚ) < x + 1 else (k : ℚ) ≤ x ∧ x < k + 1
  | .rup => if neg then (k : ℚ) ≤ x ∧ x < k + 1 else x ≤ k ∧ (k : ℚ) < x + 1
/-- A size that lies in `[k, k + 1)`, with what a remainder `r` of a unit `u` tells of its place there. -/
structure CutAt (x : ℚ) (k r u : Nat) : Prop where
  low : (k : ℚ) ≤ x
  high : x < k + 1
  exact : r = 0 ↔ x = k
  half : 2 * r = u ↔ x = k + 1 / 2
  below : 2 * r < u ↔ x < k + 1 / 2
section
variable {md : RMode} {neg : Bool} {x : ℚ} {k r u : Nat}
theorem CutAt.above (h : CutAt x k r u) : u < 2 * r ↔ (k : ℚ) + 1 / 2 < x := by
  have h1 := h.half
  have h2 := h.below
  constructor
  · intro hu
    rcases lt_trichotomy x (k + 1 / 2) with hx | hx | hx
    · exact absurd (h2.2 hx) (by omega)
    · exact absurd (h1.2 hx) (by omega)
    · exact hx
  · intro hx
    have : ¬ 2 * r < u := fun hu => absurd (h2.1 hu) (not_lt.2 hx.le)
    have : ¬ 2 * r = u := fun hu => absurd (h1.1 hu) hx.ne'
    omega
theorem CutAt.strict (h : CutAt x k r u) (hr : r ≠ 0) : (k : ℚ) < x := lt_of_le_of_ne h.low fun he => hr (h.exact.2 he.symm)
theorem abs_sub_low (h1 : (k : ℚ) ≤ x) : |x - k| = x - k := abs_of_nonneg (sub_nonneg.2 h1)
theorem abs_sub_high (h : x < k + 1) : |x - ((k + 1 : Nat) : ℚ)| = k + 1 - x := by
  rw [abs_sub_comm]
  push_cast
  exact abs_of_nonneg (sub_nonneg.2 h.le)
/-- The choice between the two whole numbers about a size is the one of the mode. -/
theorem CutAt.rounds (h : CutAt x k r u) : RoundsSize md neg x (if roundsUp md neg k r u then k + 1 else k) := by
  have h0 := h.low
  have h1 := h.high
  have ha := h.above
  have hl := abs_sub_low h0
  have hh := abs_sub_high h1
  have h2 : x = k → ¬ (x < k) := fun he => he ▸ lt_irrefl _
  have hup : r ≠ 0 → x ≤ ((k + 1 : Nat) : ℚ) ∧ ((k + 1 : Nat) : ℚ) < x + 1 := fun hr => by
    have := h.strict hr
    push_cast
    constructor <;> linarith
  have hdown : r = 0 → x ≤ k ∧ (k : ℚ) < x + 1 := fun hr => by
    have := h.exact.1 hr
    constructor <;> linarith
  cases md with
  | rtz => exact ⟨h0, h1⟩
  | rdn =>
    cases neg with
    | false => exact ⟨h0, h1⟩
    | true =>
      by_cases hr : r = 0
      · simpa [roundsUp, RoundsSize, hr] using hdown hr
      · simpa [roundsUp, RoundsSize, hr] using hup hr
  | rup =>
    cases neg with
    | true => exact ⟨h0, h1⟩
    | false =>
      by_cases hr : r = 0
      · simpa [roundsUp, RoundsSize, hr] using hdown hr
      · simpa [roundsUp, RoundsSize, hr] using hup hr
  | rne =>
    unfold RoundsSize roundsUp
    dsimp only
    rcases lt_trichotomy (2 * r) u with hr | hr | hr
    · rw [if_neg (by simp; omega), hl]
      exact .inl (by have := h.below.1 hr; linarith)
    · have hx := h.half.1 hr
      by_cases hk : k % 2 = 1
      · rw [if_pos (by simp [hr, hk]), hh]
        exact .inr ⟨by rw [hx]; ring, by omega⟩
      · rw [if_neg (by simp [hr]; omega), hl]
        exact .inr ⟨by rw [hx]; ring, by omega⟩
    · rw [if_pos (by simp; omega), hh]
      exact .inl (by have := ha.1 hr; linarith)
  | rna =>
    unfold RoundsSize roundsUp
    dsimp only
    rcases lt_trichotomy (2 * r) u with hr | hr | hr
    · rw [if_neg (by simp; omega), hl]
      exact .inl (by have := h.below.1 hr; linarith)
    · have hx := h.half.1 hr
      rw [if_pos (by simp; omega), hh]
      exact .inr ⟨by rw [hx]; ring, by rw [hx]; push_cast; linarith⟩
    · rw [if_pos (by simp; omega), hh]
      exact .inl (by have := ha.1 hr; linarith)
theorem CutAt.exact_iff (h : CutAt x k r u) (hu : 0 < u) : (r ≠ 0) ↔ (((if roundsUp md neg k r u then k + 1 else k : Nat) : ℚ) ≠ x) := by
  constructor
  · intro hr
    have h1 := h.strict hr
    have h2 := h.high
    split
    · push_cast
      exact h2.ne'
    · exact h1.ne
  · intro hx hr
    refine hx ?_
    have : roundsUp md neg k r u = false := by
      subst hr
      cases md <;> simp [roundsUp] <;> omega
    rw [this, if_neg Bool.false_ne_true]
    exact (h.exact.1 hr).symm
end
theorem cutAt_div (m : Nat) {u : Nat} (hu : 0 < u) : CutAt ((m : ℚ) / u) (m / u) (m % u) u := by
  have hu' : (0 : ℚ) < u := Nat.cast_pos.2 hu
  have hm : (m : ℚ) = u * (m / u : Nat) + (m % u : Nat) := by exact_mod_cast (Nat.div_add_mod m u).symm
  have hx : (m : ℚ) / u = (m / u : Nat) + (m % u : Nat) / u := by
    rw [hm]
    field_simp
  have hr : ((m % u : Nat) : ℚ) < u := by exact_mod_cast Nat.mod_lt m hu
  generalize m / u = k at hx
  generalize m % u = r at hx hr
  rw [hx]
  refine ⟨le_add_of_nonneg_right (by positivity), add_lt_add_right ((div_lt_one hu').2 hr) _, ?_, ?_, ?_⟩
  · rw [add_eq_left, div_eq_zero_iff]
    constructor
    · intro h
      exact .inl (by rw [h]; rfl)
    · rintro (h | h)
      · exact_mod_cast h
      · exact absurd h hu'.ne'
  · rw [add_right_inj, div_eq_div_iff hu'.ne' two_ne_zero]
    constructor
    · intro h
      rw [← h]
      push_cast
      ring
    · intro h
      have : ((2 * r : Nat) : ℚ) = u := by
        push_cast
        linarith
      exact_mod_cast this
  · rw [add_lt_add_iff_left, div_lt_div_iff₀ hu' two_pos]
    constructor
    · intro h
      have : ((2 * r : Nat) : ℚ) < u := by exact_mod_cast h
      push_cast at this
      linarith
    · intro h
      have : ((2 * r : Nat) : ℚ) < u := by
        push_cast
        linarith
      exact_mod_cast this
/-- A size far below half a unit. -/
theorem cutAt_small {m : Nat} {x : ℚ} (hm : m = 0 ↔ x = 0) (h0 : 0 ≤ x) (h : x < 1 / 4) : CutAt x 0 (min m 1) 4 := by
  have h1 : min m 1 = 0 ↔ m = 0 := by omega
  refine ⟨h0, by push_cast; linarith, ?_, ?_, ?_⟩
  · rw [h1, hm, Nat.cast_zero]
  · exact ⟨fun hh => absurd hh (by omega), fun hh => absurd hh (by push_cast; linarith)⟩
  · exact ⟨fun _ => by push_cast; linarith, fun _ => by omega⟩

theorem bitLen_le {m : Nat} (hm : m ≠ 0) : 2 ^ (bitLen m - 1) ≤ m := by
  unfold bitLen
  rw [if_neg hm, Nat.add_sub_cancel]
  exact Nat.log2_self_le hm
theorem lt_bitLen (m : Nat) : m < 2 ^ bitLen m := by
  unfold bitLen
  split
  · next h => rw [h]; exact Nat.one_pos
  · exact Nat.lt_log2_self
theorem bitLen_pos {m : Nat} (hm : m ≠ 0) : 0 < bitLen m := by
  unfold bitLen
  rw [if_neg hm]
  exact Nat.succ_pos _
/-- The two powers of two about a size. -/
theorem size_bounds {m : Nat} (hm : m ≠ 0) (e : Int) : (2 : ℚ) ^ (e + bitLen m - 1) ≤ m * (2 : ℚ) ^ e ∧ (m : ℚ) * (2 : ℚ) ^ e < (2 : ℚ) ^ (e + bitLen m) := by
  have h1 : ((2 ^ (bitLen m - 1) : Nat) : ℚ) ≤ m := by exact_mod_cast bitLen_le hm
  have h2 : (m : ℚ) < ((2 ^ bitLen m : Nat) : ℚ) := by exact_mod_cast lt_bitLen m
  have hp := bitLen_pos hm
  have e1 : (2 : ℚ) ^ (e + bitLen m - 1) = ((2 ^ (bitLen m - 1) : Nat) : ℚ) * (2 : ℚ) ^ e := by
    rw [show e + bitLen m - 1 = ((bitLen m - 1 : Nat) : Int) + e by omega, zpow_add₀ two_ne_zero, zpow_natCast]
    push_cast
    rfl
  have e2 : (2 : ℚ) ^ (e + bitLen m) = ((2 ^ bitLen m : Nat) : ℚ) * (2 : ℚ) ^ e := by
    rw [add_comm, zpow_add₀ two_ne_zero, zpow_natCast]
    push_cast
    rfl
  have he : (0 : ℚ) < (2 : ℚ) ^ e := by positivity
  rw [e1, e2]
  exact ⟨mul_le_mul_of_nonneg_right h1 he.le, mul_lt_mul_of_pos_right h2 he⟩
/-- `roundAt` rounds to whole units, and tells whether anything was cut off. -/
theorem roundAt_rounds (md : RMode) (neg : Bool) (m : Nat) (e q : Int) : RoundsSize md neg (m * (2 : ℚ) ^ (e - q)) (roundAt md neg m e q).1 ∧
    ((roundAt md neg m e q).2 = true ↔ ((roundAt md neg m e q).1 : ℚ) ≠ m * (2 : ℚ) ^ (e - q)) := by
  unfold roundAt
  split
  · next h =>
    have hx : (m : ℚ) * (2 : ℚ) ^ (e - q) = ((m * 2 ^ (e - q).toNat : Nat) : ℚ) := by
      rw [show e - q = ((e - q).toNat : Int) by omega, zpow_natCast]
      push_cast
      rfl
    rw [hx]
    refine ⟨?_, by simp⟩
    have hc : CutAt ((m * 2 ^ (e - q).toNat : Nat) : ℚ) (m * 2 ^ (e - q).toNat) 0 1 := by
      have hd := cutAt_div (m * 2 ^ (e - q).toNat) Nat.one_pos
      rwa [Nat.mod_one, Nat.div_one, Nat.cast_one, div_one] at hd
    have hr := hc.rounds (md := md) (neg := neg)
    have : roundsUp md neg (m * 2 ^ (e - q).toNat) 0 1 = false := by cases md <;> simp [roundsUp]
    rw [this, if_neg Bool.false_ne_true] at hr
    exact hr
  · next h =>
    split
    · next hb =>
      have hm : m = 0 ↔ (m : ℚ) * (2 : ℚ) ^ (e - q) = 0 := by
        rw [mul_eq_zero, Nat.cast_eq_zero]
        exact ⟨.inl, fun h => h.resolve_right (by positivity)⟩
      have hsmall : (m : ℚ) * (2 : ℚ) ^ (e - q) < 1 / 4 := by
        have h1 : (m : ℚ) < ((2 ^ bitLen m : Nat) : ℚ) := by exact_mod_cast lt_bitLen m
        have h2 : (0 : ℚ) < (2 : ℚ) ^ (e - q) := by positivity
        calc (m : ℚ) * (2 : ℚ) ^ (e - q) < ((2 ^ bitLen m : Nat) : ℚ) * (2 : ℚ) ^ (e - q) := mul_lt_mul_of_pos_right h1 h2
          _ = (2 : ℚ) ^ ((bitLen m : Int) + (e - q)) := by
            rw [zpow_add₀ two_ne_zero, zpow_natCast]
            push_cast
            rfl
          _ ≤ (2 : ℚ) ^ (-2 : Int) := zpow_le_zpow_right₀ one_le_two (by omega)
          _ = 1 / 4 := by norm_num
      have hc := cutAt_small hm (by positivity) hsmall
      refine ⟨by simpa using hc.rounds (md := md) (neg := neg), ?_⟩
      have he := hc.exact_iff (md := md) (neg := neg) (by decide)
      have hz : (m != 0) = true ↔ min m 1 ≠ 0 := by
        rw [bne_iff_ne]
        omega
      rw [hz]
      simpa using he
    · have hu : 0 < 2 ^ (q - e).toNat := Nat.two_pow_pos _
      have hx : (m : ℚ) * (2 : ℚ) ^ (e - q) = (m : ℚ) / ((2 ^ (q - e).toNat : Nat) : ℚ) := by
        rw [show e - q = -((q - e).toNat : Int) by omega, zpow_neg, zpow_natCast, div_eq_mul_inv]
        push_cast
        rfl
      have hc := cutAt_div m hu
      rw [← hx] at hc
      refine ⟨hc.rounds, ?_⟩
      have he := hc.exact_iff (md := md) (neg := neg) hu
      rw [← he, bne_iff_ne]

/-! ### Bounds of what a size is rounded to -/

section
variable {md : RMode} {neg : Bool} {x : ℚ} {k : Nat} (h : RoundsSize md neg x k)
include h
theorem RoundsSize.near : (k : ℚ) < x + 1 ∧ x < k + 1 := by
  cases md with
  | rne =>
    have : |x - k| < 1 := by
      rcases h with h | ⟨h, -⟩ <;> linarith
    rw [abs_lt] at this
    constructor <;> linarith
  | rna =>
    have : |x - k| < 1 := by
      rcases h with h | ⟨h, -⟩ <;> linarith
    rw [abs_lt] at this
    constructor <;> linarith
  | rtz => exact ⟨by linarith [h.1], h.2⟩
  | rdn =>
    cases neg with
    | true => exact ⟨h.2, by linarith [h.1]⟩
    | false => exact ⟨by linarith [h.1], h.2⟩
  | rup =>
    cases neg with
    | true => exact ⟨by linarith [h.1], h.2⟩
    | false => exact ⟨h.2, by linarith [h.1]⟩
theorem RoundsSize.le_of_le {n : Nat} (hn : (n : ℚ) ≤ x) : n ≤ k := by
  have : (n : ℚ) < ((k + 1 : Nat) : ℚ) := by
    push_cast
    exact lt_of_le_of_lt hn h.near.2
  exact Nat.lt_succ_iff.1 (by exact_mod_cast this)
theorem RoundsSize.ge_of_ge {n : Nat} (hn : x ≤ n) : k ≤ n := by
  have : (k : ℚ) < ((n + 1 : Nat) : ℚ) := by
    push_cast
    linarith [h.near.1]
  exact Nat.lt_succ_iff.1 (by exact_mod_cast this)
end
/-- Whether a size, rounded to multiples of `u`, comes to `b`. -/
def Reaches (md : RMode) (neg : Bool) (x b u : ℚ) : Prop :=
  match md with
  | .rne | .rna => b - u / 2 ≤ x
  | .rtz => b ≤ x
  | .rdn => if neg then b - u < x else b ≤ x
  | .rup => if neg then b ≤ x else b - u < x
theorem Reaches.scale {md : RMode} {neg : Bool} {x b u c : ℚ} (hc : 0 < c) : Reaches md neg (x * c) (b * c) (u * c) ↔ Reaches md neg x b u := by
  have h1 : b * c - u * c / 2 ≤ x * c ↔ b - u / 2 ≤ x := by
    rw [show b * c - u * c / 2 = (b - u / 2) * c by ring]
    exact mul_le_mul_iff_left₀ hc
  have h2 : b * c - u * c < x * c ↔ b - u < x := by
    rw [← sub_mul]
    exact mul_lt_mul_iff_left₀ hc
  have h3 : b * c ≤ x * c ↔ b ≤ x := mul_le_mul_iff_left₀ hc
  cases md with
  | rne => exact h1
  | rna => exact h1
  | rtz => exact h3
  | rdn =>
    cases neg with
    | true => exact h2
    | false => exact h3
  | rup =>
    cases neg with
    | true => exact h3
    | false => exact h2
theorem reaches_of_le {md : RMode} {neg : Bool} {x b u : ℚ} (hu : 0 < u) (h : b ≤ x) : Reaches md neg x b u := by
  cases md with
  | rne => exact show b - u / 2 ≤ x by linarith
  | rna => exact show b - u / 2 ≤ x by linarith
  | rtz => exact h
  | rdn =>
    cases neg with
    | true => exact show b - u < x by linarith
    | false => exact h
  | rup =>
    cases neg with
    | true => exact h
    | false => exact show b - u < x by linarith
theorem Reaches.within {md : RMode} {neg : Bool} {x b u : ℚ} (hu : 0 < u) (h : Reaches md neg x b u) : b - u < x := by
  cases md with
  | rne => exact lt_of_lt_of_le (by linarith) (show b - u / 2 ≤ x from h)
  | rna => exact lt_of_lt_of_le (by linarith) (show b - u / 2 ≤ x from h)
  | rtz => exact lt_of_lt_of_le (by linarith) (show b ≤ x from h)
  | rdn =>
    cases neg with
    | true => exact h
    | false => exact lt_of_lt_of_le (by linarith) (show b ≤ x from h)
  | rup =>
    cases neg with
    | true => exact lt_of_lt_of_le (by linarith) (show b ≤ x from h)
    | false => exact h
/-- What a size is rounded to comes to an even number of units where the size does. -/
theorem RoundsSize.reaches {md : RMode} {neg : Bool} {x : ℚ} {k n : Nat} (h : RoundsSize md neg x k) (hn : n % 2 = 0) : n ≤ k ↔ Reaches md neg x n 1 := by
  have hcast : n ≤ k ↔ (n : ℚ) ≤ k := Nat.cast_le.symm
  have hlt : n ≤ k ↔ (n : ℚ) < k + 1 := by
    rw [← Nat.lt_succ_iff, ← Nat.cast_lt (α := ℚ)]
    push_cast
    rfl
  have hnot : ¬ n ≤ k → (k : ℚ) + 1 ≤ n := fun hk => by
    have : k + 1 ≤ n := by omega
    exact_mod_cast this
  cases md with
  | rne =>
    constructor
    · intro hk
      rw [hcast] at hk
      show (n : ℚ) - 1 / 2 ≤ x
      rcases h with h | ⟨h, -⟩
      · have := (abs_lt.1 h).1
        linarith
      · have := (abs_le.1 h.le).1
        linarith
    · intro hx
      have hx : (n : ℚ) - 1 / 2 ≤ x := hx
      by_contra hk
      have h1 := hnot hk
      rcases h with h | ⟨h, he⟩
      · have := (abs_lt.1 h).2
        linarith
      · have h2 := (abs_le.1 h.le).2
        have : (n : ℚ) = ((k + 1 : Nat) : ℚ) := by
          push_cast
          linarith
        have : n = k + 1 := by exact_mod_cast this
        omega
  | rna =>
    constructor
    · intro hk
      rw [hcast] at hk
      show (n : ℚ) - 1 / 2 ≤ x
      rcases h with h | ⟨h, -⟩
      · have := (abs_lt.1 h).1
        linarith
      · have := (abs_le.1 h.le).1
        linarith
    · intro hx
      have hx : (n : ℚ) - 1 / 2 ≤ x := hx
      by_contra hk
      have h1 := hnot hk
      rcases h with h | ⟨h, he⟩
      · have := (abs_lt.1 h).2
        linarith
      · linarith
  | rtz => exact ⟨fun hk => (hcast.1 hk).trans h.1, fun hx => h.le_of_le (md := .rtz) (neg := neg) hx⟩
  | rdn =>
    cases neg with
    | true =>
      obtain ⟨h1, h2⟩ : x ≤ k ∧ (k : ℚ) < x + 1 := h
      exact ⟨fun hk => show (n : ℚ) - 1 < x by linarith [hcast.1 hk], fun hx => hlt.2 (by linarith [show (n : ℚ) - 1 < x from hx])⟩
    | false =>
      obtain ⟨h1, h2⟩ : (k : ℚ) ≤ x ∧ x < k + 1 := h
      exact ⟨fun hk => (hcast.1 hk).trans h1, fun hx => hlt.2 (lt_of_le_of_lt hx h2)⟩
  | rup =>
    cases neg with
    | false =>
      obtain ⟨h1, h2⟩ : x ≤ k ∧ (k : ℚ) < x + 1 := h
      exact ⟨fun hk => show (n : ℚ) - 1 < x by linarith [hcast.1 hk], fun hx => hlt.2 (by linarith [show (n : ℚ) - 1 < x from hx])⟩
    | true =>
      obtain ⟨h1, h2⟩ : (k : ℚ) ≤ x ∧ x < k + 1 := h
      exact ⟨fun hk => (hcast.1 hk).trans h1, fun hx => hlt.2 (lt_of_le_of_lt hx h2)⟩

/-! ### The best of the numbers about a size -/

/-- `k` is the number that a mode prefers to `z`, both of the sign of the size `x`. -/
def Prefers (md : RMode) (neg : Bool) (x : ℚ) (k : ℚ) (even : Prop) (z : ℚ) : Prop :=
  match md with
  | .rne => |k - x| ≤ |z - x| ∧ (|k - x| = |z - x| → z ≠ k → even)
  | .rna => |k - x| ≤ |z - x| ∧ (|k - x| = |z - x| → z ≠ k → x ≤ k)
  | .rtz => k ≤ x ∧ (|z| ≤ x → |z| ≤ k)
  | .rdn => if neg then x ≤ k ∧ (x ≤ z → k ≤ z) else k ≤ x ∧ (z ≤ x → z ≤ k)
  | .rup => if neg then k ≤ x ∧ (z ≤ x → z ≤ k) else x ≤ k ∧ (x ≤ z → k ≤ z)
theorem one_le_abs_sub {j k : Int} (h : j ≠ k) : (1 : ℚ) ≤ |(j : ℚ) - k| := by
  have : (1 : Int) ≤ |j - k| := Int.one_le_abs (sub_ne_zero.2 h)
  exact_mod_cast this
/-- Of the whole numbers, the rounded size is the one that the mode prefers. -/
theorem RoundsSize.prefers_whole {md : RMode} {neg : Bool} {x : ℚ} {k : Nat} (h : RoundsSize md neg x k) (hx : 0 ≤ x) (j : Int) :
    Prefers md neg x k (k % 2 = 0) j := by
  have hn := h.near
  have hj : j ≠ (k : Int) → (1 : ℚ) ≤ |(j : ℚ) - k| := fun hne => by
    have := one_le_abs_sub hne
    exact_mod_cast this
  have htri : |(j : ℚ) - k| ≤ |(j : ℚ) - x| + |x - k| := abs_sub_le ..
  have hle : ∀ {i : Int}, (i : ℚ) ≤ x → (k : ℚ) ≤ x → (i : ℚ) ≤ k := fun {i} hi _ => by
    have : (i : ℚ) < ((k + 1 : Int) : ℚ) := by
      push_cast
      linarith [hn.2]
    have : i ≤ (k : Int) := Int.lt_add_one_iff.1 (by exact_mod_cast this)
    exact_mod_cast this
  have hge : ∀ {i : Int}, x ≤ (i : ℚ) → (k : ℚ) ≤ i := fun {i} hi => by
    have : ((k : Int) : ℚ) < ((i + 1 : Int) : ℚ) := by
      push_cast
      linarith [hn.1]
    have : (k : Int) ≤ i := Int.lt_add_one_iff.1 (by exact_mod_cast this)
    exact_mod_cast this
  cases md with
  | rne =>
    have hhalf : |x - k| ≤ 1 / 2 := by
      rcases h with h | ⟨h, -⟩
      · exact h.le
      · exact h.le
    rw [abs_sub_comm x] at hhalf htri
    refine ⟨?_, fun heq hz => ?_⟩
    · by_cases hk : j = (k : Int)
      · rw [hk, Int.cast_natCast]
      · linarith [hj hk]
    · have hk : j ≠ (k : Int) := fun hk => hz (by rw [hk, Int.cast_natCast])
      rcases h with h | ⟨-, h⟩
      · rw [abs_sub_comm] at h
        linarith [hj hk]
      · exact h
  | rna =>
    have hhalf : |x - k| ≤ 1 / 2 := by
      rcases h with h | ⟨h, -⟩
      · exact h.le
      · exact h.le
    rw [abs_sub_comm x] at hhalf htri
    refine ⟨?_, fun heq hz => ?_⟩
    · by_cases hk : j = (k : Int)
      · rw [hk, Int.cast_natCast]
      · linarith [hj hk]
    · have hk : j ≠ (k : Int) := fun hk => hz (by rw [hk, Int.cast_natCast])
      rcases h with h | ⟨-, h⟩
      · rw [abs_sub_comm] at h
        linarith [hj hk]
      · exact h.le
  | rtz =>
    refine ⟨h.1, fun hz => ?_⟩
    have : ((|j| : Int) : ℚ) ≤ x := by
      rw [Int.cast_abs]
      exact hz
    have := hle this h.1
    rwa [Int.cast_abs] at this
  | rdn =>
    cases neg with
    | true => exact ⟨h.1, hge⟩
    | false => exact ⟨h.1, fun hz => hle hz h.1⟩
  | rup =>
    cases neg with
    | true => exact ⟨h.1, fun hz => hle hz h.1⟩
    | false => exact ⟨h.1, hge⟩
/-- A number below a whole number that the size is not below is never preferred. -/
theorem RoundsSize.prefers_low {md : RMode} {neg : Bool} {x z : ℚ} {k n : Nat} (h : RoundsSize md neg x k) (hn : (n : ℚ) ≤ x) (hz : |z| < n) :
    Prefers md neg x k (k % 2 = 0) z := by
  have hx : 0 ≤ x := (Nat.cast_nonneg n).trans hn
  have hzn : z < n := (abs_lt.1 hz).2
  have hw := h.prefers_whole hx (n : Int)
  have hk : (n : ℚ) ≤ k := Nat.cast_le.2 (h.le_of_le hn)
  have hfar : |((n : Int) : ℚ) - x| < |z - x| := by
    rw [Int.cast_natCast, abs_of_nonpos (by linarith), abs_of_nonpos (by linarith)]
    linarith
  cases md with
  | rne => exact ⟨hw.1.trans hfar.le, fun he => absurd (he ▸ hw.1) (not_le.2 hfar)⟩
  | rna => exact ⟨hw.1.trans hfar.le, fun he => absurd (he ▸ hw.1) (not_le.2 hfar)⟩
  | rtz => exact ⟨h.1, fun _ => hz.le.trans hk⟩
  | rdn =>
    cases neg with
    | true => exact ⟨h.1, fun he => by linarith⟩
    | false => exact ⟨h.1, fun _ => (hzn.le).trans hk⟩
  | rup =>
    cases neg with
    | true => exact ⟨h.1, fun _ => (hzn.le).trans hk⟩
    | false => exact ⟨h.1, fun he => by linarith⟩
end Sys2Proof
end

