-- ==== Sys2Proof/Proofs/FormatNumbers.lean ====
section
/-! SUPPORT. The numbers of a format (R47) and what one rounding gives (R49, R50). -/

namespace Sys2Proof
open Machine

/-! ### Numbers of a format -/

/-- A format with a fraction and at least two bits of exponent. -/
structure FineFmt (f : Fmt) : Prop where
  fb : 1 ≤ f.fb
  eb : 2 ≤ f.eb
theorem fine_fmt32 : FineFmt fmt32 := ⟨by decide, by decide⟩
theorem fine_fmt64 : FineFmt fmt64 := ⟨by decide, by decide⟩
theorem fine_fmt16 : FineFmt fmt16 := ⟨by decide, by decide⟩
theorem fine_fmtB16 : FineFmt fmtB16 := ⟨by decide, by decide⟩
/-- The sign of a number. -/
def signOf (neg : Bool) : ℚ := if neg then -1 else 1
theorem ratOf_fin (neg : Bool) (m : Nat) (e : Int) : ratOf (.fin neg m e) = signOf neg * (m * (2 : ℚ) ^ e) := mul_assoc ..
theorem abs_signOf (neg : Bool) : |signOf neg| = 1 := by cases neg <;> simp [signOf]
theorem signOf_mul_self (neg : Bool) : signOf neg * signOf neg = 1 := by cases neg <;> simp [signOf]
theorem signOf_ne_zero (neg : Bool) : signOf neg ≠ 0 := by cases neg <;> simp [signOf]
theorem abs_ratOf_fin (neg : Bool) (m : Nat) (e : Int) : |ratOf (.fin neg m e)| = m * (2 : ℚ) ^ e := by
  rw [ratOf_fin, abs_mul, abs_signOf, one_mul]
  exact abs_of_nonneg (by positivity)
section
variable {f : Fmt} (hf : FineFmt f)
include hf
omit hf in
theorem infBits_eq : f.infBits + 2 ^ f.fb = 2 ^ (f.eb + f.fb) := by
  unfold Fmt.infBits Fmt.expMax
  rw [Nat.sub_mul, one_mul, ← pow_add, Nat.sub_add_cancel]
  exact Nat.pow_le_pow_right Nat.two_pos (Nat.le_add_left ..)
/-- The fields of a number's bits. -/
theorem val_fields (neg : Bool) {ex fr : Nat} (hex : ex < 2 ^ f.eb) (hfr : fr < 2 ^ f.fb) : f.val (f.sign neg + (ex * 2 ^ f.fb + fr)) =
    if ex = f.expMax then (if fr = 0 then .inf neg else .nan (fr / 2 ^ (f.fb - 1) == 0))
    else if ex = 0 then .fin neg fr f.qmin else .fin neg (2 ^ f.fb + fr) (f.qmin + (ex : Int) - 1) := by
  have hb : ex * 2 ^ f.fb + fr < 2 ^ (f.eb + f.fb) := by
    rw [pow_add]
    calc ex * 2 ^ f.fb + fr < ex * 2 ^ f.fb + 2 ^ f.fb := by omega
      _ = (ex + 1) * 2 ^ f.fb := by ring
      _ ≤ 2 ^ f.eb * 2 ^ f.fb := Nat.mul_le_mul_right _ hex
  have hsign : f.sign neg = neg.toNat * 2 ^ (f.eb + f.fb) := by
    unfold Fmt.sign
    cases neg
    · exact (zero_mul _).symm
    · exact (one_mul _).symm
  have h1 : (f.sign neg + (ex * 2 ^ f.fb + fr)) / 2 ^ (f.eb + f.fb) = neg.toNat := by
    rw [hsign, Nat.mul_comm, Nat.mul_add_div (Nat.two_pow_pos _), Nat.div_eq_of_lt hb, Nat.add_zero]
  have hsplit : f.sign neg + (ex * 2 ^ f.fb + fr) = 2 ^ f.fb * (neg.toNat * 2 ^ f.eb + ex) + fr := by
    rw [hsign, pow_add]
    ring
  have h2 : (f.sign neg + (ex * 2 ^ f.fb + fr)) / 2 ^ f.fb = neg.toNat * 2 ^ f.eb + ex := by
    rw [hsplit, Nat.mul_add_div (Nat.two_pow_pos _), Nat.div_eq_of_lt hfr, Nat.add_zero]
  have h3 : (f.sign neg + (ex * 2 ^ f.fb + fr)) % 2 ^ f.fb = fr := by
    rw [hsplit, Nat.mul_add_mod, Nat.mod_eq_of_lt hfr]
  unfold Fmt.val
  rw [h1, h2, h3, Nat.mul_add_mod_self_right, Nat.mod_eq_of_lt hex]
  have hn : (neg.toNat % 2 == 1) = neg := by cases neg <;> rfl
  rw [hn]
theorem expMax_pos : 1 < f.expMax := by
  have : 2 ^ 2 ≤ 2 ^ f.eb := Nat.pow_le_pow_right Nat.two_pos hf.eb
  unfold Fmt.expMax
  omega
omit hf in
theorem expMax_lt : f.expMax < 2 ^ f.eb := Nat.sub_lt (Nat.two_pow_pos _) Nat.one_pos
/-- A number of `k` units of the place `n` above the last is what its bits mean. -/
theorem val_size (neg : Bool) {n k : Nat} (hk : k ≤ 2 ^ (f.fb + 1)) (hn : n = 0 ∨ 2 ^ f.fb ≤ k) (hb : n * 2 ^ f.fb + k < f.infBits) :
    ∃ (m : Nat) (e : Int), f.val (f.sign neg + (n * 2 ^ f.fb + k)) = .fin neg m e ∧ (m : ℚ) * (2 : ℚ) ^ e = k * (2 : ℚ) ^ (f.qmin + n) := by
  have hmax := expMax_lt (f := f)
  have hB : 0 < 2 ^ f.fb := Nat.two_pow_pos _
  have hinf : f.infBits = f.expMax * 2 ^ f.fb := rfl
  rw [pow_succ] at hk
  rcases Nat.lt_or_ge k (2 ^ f.fb) with h1 | h1
  · obtain rfl : n = 0 := hn.resolve_right (Nat.not_le.2 h1)
    have h0 : ¬ 0 = f.expMax := by
      have := expMax_pos hf
      omega
    refine ⟨k, f.qmin, ?_, by simp⟩
    rw [val_fields hf neg (Nat.two_pow_pos _) h1, if_neg h0, if_pos rfl]
  · rcases Nat.lt_or_ge k (2 * 2 ^ f.fb) with h2 | h2
    · have hex : n + 1 < f.expMax := by
        by_contra hge
        have : f.expMax * 2 ^ f.fb ≤ (n + 1) * 2 ^ f.fb := Nat.mul_le_mul_right _ (by omega)
        rw [Nat.add_mul, one_mul] at this
        omega
      have hbits : n * 2 ^ f.fb + k = (n + 1) * 2 ^ f.fb + (k - 2 ^ f.fb) := by
        rw [Nat.add_mul]
        omega
      refine ⟨2 ^ f.fb + (k - 2 ^ f.fb), f.qmin + ((n + 1 : Nat) : Int) - 1, ?_, ?_⟩
      · rw [hbits, val_fields hf neg (by omega) (by omega), if_neg hex.ne, if_neg (Nat.succ_ne_zero n)]
      · rw [Nat.add_sub_cancel' h1]
        push_cast
        congr 2
        omega
    · obtain rfl : k = 2 * 2 ^ f.fb := by omega
      have hex : n + 2 < f.expMax := by
        by_contra hge
        have : f.expMax * 2 ^ f.fb ≤ (n + 2) * 2 ^ f.fb := Nat.mul_le_mul_right _ (by omega)
        rw [Nat.add_mul] at this
        omega
      refine ⟨2 ^ f.fb + 0, f.qmin + ((n + 2 : Nat) : Int) - 1, ?_, ?_⟩
      · rw [show n * 2 ^ f.fb + 2 * 2 ^ f.fb = (n + 2) * 2 ^ f.fb + 0 by ring, val_fields hf neg (by omega) hB, if_neg hex.ne, if_neg (Nat.succ_ne_zero _)]
      · rw [show f.qmin + ((n + 2 : Nat) : Int) - 1 = (f.qmin + n) + 1 by push_cast; ring, zpow_add_one₀ two_ne_zero]
        push_cast
        ring
omit hf in
/-- Every number of a format is so many units of a place. -/
theorem val_units {b : Nat} (hn : (f.val b).isNan = false) (hi : (f.val b).isInf = false) :
    ∃ (neg : Bool) (n k : Nat), ratOf (f.val b) = signOf neg * (k * (2 : ℚ) ^ (f.qmin + n)) ∧ k < 2 ^ (f.fb + 1) := by
  have hfr : b % 2 ^ f.fb < 2 ^ f.fb := Nat.mod_lt _ (Nat.two_pow_pos _)
  unfold Fmt.val at hn hi ⊢
  dsimp only at hn hi ⊢
  generalize (b / 2 ^ (f.eb + f.fb) % 2 == 1) = neg at hn hi ⊢
  generalize b / 2 ^ f.fb % 2 ^ f.eb = ex at hn hi ⊢
  generalize b % 2 ^ f.fb = fr at hn hi hfr ⊢
  by_cases h1 : ex = f.expMax
  · rw [if_pos h1] at hn hi
    split at hn
    · next h => rw [if_pos h] at hi; exact absurd hi (by simp [FVal.isInf])
    · exact absurd hn (by simp [FVal.isNan])
  · rw [if_neg h1]
    by_cases h2 : ex = 0
    · rw [if_pos h2]
      exact ⟨neg, 0, fr, by rw [ratOf_fin]; simp, by rw [pow_succ]; omega⟩
    · rw [if_neg h2]
      refine ⟨neg, ex - 1, 2 ^ f.fb + fr, ?_, by rw [pow_succ]; omega⟩
      rw [ratOf_fin, show f.qmin + (ex : Int) - 1 = f.qmin + ((ex - 1 : Nat) : Int) by omega]
omit hf in
/-- Of a place, a number is so many whole units, or it lies below the numbers that have this place as their last. -/
theorem val_whole {b : Nat} (hn : (f.val b).isNan = false) (hi : (f.val b).isInf = false) (p : Nat) :
    (∃ j : Int, ratOf (f.val b) = j * (2 : ℚ) ^ (f.qmin + p)) ∨ (0 < p ∧ |ratOf (f.val b)| < (2 ^ f.fb : Nat) * (2 : ℚ) ^ (f.qmin + p)) := by
  obtain ⟨neg, n, k, he, hk⟩ := val_units hn hi
  rcases Nat.lt_or_ge n p with h | h
  · refine .inr ⟨by omega, ?_⟩
    have hk' : (k : ℚ) < ((2 ^ (f.fb + 1) : Nat) : ℚ) := by exact_mod_cast hk
    have hz : (0 : ℚ) < (2 : ℚ) ^ (f.qmin + n) := by positivity
    rw [he, abs_mul, abs_signOf, one_mul, abs_of_nonneg (by positivity)]
    calc (k : ℚ) * (2 : ℚ) ^ (f.qmin + n) < ((2 ^ (f.fb + 1) : Nat) : ℚ) * (2 : ℚ) ^ (f.qmin + n) := mul_lt_mul_of_pos_right hk' hz
      _ = ((2 ^ f.fb : Nat) : ℚ) * (2 : ℚ) ^ (f.qmin + n + 1) := by
        rw [zpow_add_one₀ two_ne_zero]
        push_cast
        ring
      _ ≤ ((2 ^ f.fb : Nat) : ℚ) * (2 : ℚ) ^ (f.qmin + p) :=
        mul_le_mul_of_nonneg_left (zpow_le_zpow_right₀ one_le_two (by omega)) (by positivity)
  · refine .inl ⟨(if neg then -1 else 1) * ((k * 2 ^ (n - p) : Nat) : Int), ?_⟩
    rw [he, show f.qmin + (n : Int) = ((n - p : Nat) : Int) + (f.qmin + p) by omega, zpow_add₀ two_ne_zero, zpow_natCast]
    unfold signOf
    split <;> push_cast <;> ring
end
end Sys2Proof
end

