-- ==== Sys2Proof/Proofs/RoundedNumbers.lean ====
section
/-! SUPPORT. One rounding gives the number of the format that the mode prefers, and its flags (R49, R50). -/

namespace Sys2Proof
open Machine

/-! ### The parts of a rounding -/

/-- A size `y` is `x` units of the place `n` above the last, and rounds to `k` of them. -/
structure RoundedTo (f : Fmt) (md : RMode) (neg : Bool) (y : ℚ) (n k : Nat) (x : ℚ) (cut tiny : Bool) : Prop where
  size : y = x * (2 : ℚ) ^ (f.qmin + n)
  rounds : RoundsSize md neg x k
  cut : cut = true ↔ (k : ℚ) ≠ x
  nonneg : 0 ≤ x
  high : x < ((2 ^ (f.fb + 1) : Nat) : ℚ)
  low : n = 0 ∨ ((2 ^ f.fb : Nat) : ℚ) ≤ x
  tiny : tiny = true ↔ ¬ Reaches md neg y ((2 : ℚ) ^ (f.qmin + f.fb)) ((2 : ℚ) ^ (f.qmin - 1))
/-- The result of a rounding with these parts. -/
def resultOf (f : Fmt) (md : RMode) (neg : Bool) (n k : Nat) (cut tiny : Bool) : Nat × BitVec 5 :=
  if f.infBits ≤ n * 2 ^ f.fb + k then (overflowBits f md neg, flOF ||| flNX)
  else (f.sign neg + (n * 2 ^ f.fb + k), if cut then (if tiny then flUF ||| flNX else flNX) else flNone)
theorem zpow_nat_mul (n : Nat) (e : Int) : (2 : ℚ) ^ ((n : Int) + e) = ((2 ^ n : Nat) : ℚ) * (2 : ℚ) ^ e := by
  rw [zpow_add₀ two_ne_zero, zpow_natCast]
  push_cast
  rfl
theorem even_two_pow_succ (n : Nat) : 2 ^ (n + 1) % 2 = 0 := by rw [pow_succ, Nat.mul_mod_left]
/-- Whether a rounding with an unbounded exponent stays below the smallest normal. -/
theorem tiny_iff (f : Fmt) (md : RMode) (neg : Bool) {m : Nat} (hm : m ≠ 0) (e : Int) :
    ((decide (e + bitLen m - 1 - f.fb < f.qmin) && !(e + bitLen m - 1 - f.fb + 1 == f.qmin && (roundAt md neg m e (e + bitLen m - 1 - f.fb)).1 == 2 ^ (f.fb + 1))) = true) ↔
      ¬ Reaches md neg (m * (2 : ℚ) ^ e) ((2 : ℚ) ^ (f.qmin + f.fb)) ((2 : ℚ) ^ (f.qmin - 1)) := by
  obtain ⟨h1, h2⟩ := size_bounds hm e
  obtain ⟨hr, -⟩ := roundAt_rounds md neg m e (e + bitLen m - 1 - f.fb)
  have hu : (0 : ℚ) < (2 : ℚ) ^ (f.qmin - 1) := by positivity
  rcases lt_trichotomy (e + bitLen m - 1 - f.fb + 1) f.qmin with hq | hq | hq
  · have hnot : ¬ Reaches md neg (m * (2 : ℚ) ^ e) ((2 : ℚ) ^ (f.qmin + f.fb)) ((2 : ℚ) ^ (f.qmin - 1)) := fun h => by
      have h3 := h.within hu
      have h4 : (2 : ℚ) ^ (e + bitLen m) ≤ (2 : ℚ) ^ (((f.fb : Nat) : Int) + (f.qmin - 1)) := zpow_le_zpow_right₀ one_le_two (by omega)
      rw [show f.qmin + (f.fb : Int) = ((f.fb + 1 : Nat) : Int) + (f.qmin - 1) by push_cast; ring, zpow_nat_mul] at h3
      rw [zpow_nat_mul] at h4
      have h5 : ((2 ^ f.fb : Nat) : ℚ) + 1 ≤ ((2 ^ (f.fb + 1) : Nat) : ℚ) := by
        have : 2 ^ f.fb + 1 ≤ 2 ^ (f.fb + 1) := by
          rw [pow_succ]
          have := Nat.two_pow_pos f.fb
          omega
        exact_mod_cast this
      have := mul_le_mul_of_nonneg_right h5 hu.le
      linarith
    rw [show (decide (e + bitLen m - 1 - f.fb < f.qmin)) = true from decide_eq_true (by omega), beq_false_of_ne hq.ne]
    simp [hnot]
  · have h0 : e + bitLen m - 1 - f.fb = f.qmin - 1 := by omega
    rw [h0] at hr ⊢
    have hx : (m : ℚ) * (2 : ℚ) ^ (e - (f.qmin - 1)) < ((2 ^ (f.fb + 1) : Nat) : ℚ) := by
      rw [show e + (bitLen m : Int) = ((f.fb + 1 : Nat) : Int) + (f.qmin - 1) by push_cast; omega, zpow_nat_mul,
        show e = (e - (f.qmin - 1)) + (f.qmin - 1) by ring, zpow_add₀ two_ne_zero, ← mul_assoc] at h2
      exact (mul_lt_mul_iff_left₀ hu).1 h2
    have hk := hr.ge_of_ge hx.le
    have hreach : Reaches md neg (m * (2 : ℚ) ^ e) ((2 : ℚ) ^ (f.qmin + f.fb)) ((2 : ℚ) ^ (f.qmin - 1)) ↔ 2 ^ (f.fb + 1) ≤ (roundAt md neg m e (f.qmin - 1)).1 := by
      have hs := Reaches.scale (md := md) (neg := neg) (x := m * (2 : ℚ) ^ (e - (f.qmin - 1))) (b := ((2 ^ (f.fb + 1) : Nat) : ℚ)) (u := 1) hu
      rw [one_mul, mul_assoc, ← zpow_add₀ two_ne_zero, sub_add_cancel, ← zpow_nat_mul,
        show ((f.fb + 1 : Nat) : Int) + (f.qmin - 1) = f.qmin + f.fb by push_cast; ring] at hs
      exact hs.trans (hr.reaches (even_two_pow_succ f.fb)).symm
    rw [show (decide (f.qmin - 1 < f.qmin)) = true from decide_eq_true (by omega), sub_add_cancel, beq_self_eq_true, Bool.true_and, Bool.true_and, hreach,
      Bool.not_eq_true', beq_eq_false_iff_ne]
    omega
  · rw [show (decide (e + bitLen m - 1 - f.fb < f.qmin)) = false from decide_eq_false (by omega), Bool.false_and]
    have : Reaches md neg (m * (2 : ℚ) ^ e) ((2 : ℚ) ^ (f.qmin + f.fb)) ((2 : ℚ) ^ (f.qmin - 1)) :=
      reaches_of_le hu ((zpow_le_zpow_right₀ one_le_two (by omega)).trans h1)
    simp [this]
/-- The parts of the rounding of a number that is not zero. -/
theorem roundFin_rounded (f : Fmt) (md : RMode) (neg : Bool) {m : Nat} (hm : m ≠ 0) (e : Int) : ∃ (n k : Nat) (x : ℚ) (cut tiny : Bool),
    RoundedTo f md neg (m * (2 : ℚ) ^ e) n k x cut tiny ∧ roundFin f md neg m e = resultOf f md neg n k cut tiny := by
  obtain ⟨h1, h2⟩ := size_bounds hm e
  have hplace : f.qmin + ((max (e + bitLen m - 1 - f.fb) f.qmin - f.qmin).toNat : Int) = max (e + bitLen m - 1 - f.fb) f.qmin := by omega
  have heq : roundFin f md neg m e = resultOf f md neg (max (e + bitLen m - 1 - f.fb) f.qmin - f.qmin).toNat (roundAt md neg m e (max (e + bitLen m - 1 - f.fb) f.qmin)).1
      (roundAt md neg m e (max (e + bitLen m - 1 - f.fb) f.qmin)).2
      (decide (e + bitLen m - 1 - f.fb < f.qmin) && !(e + bitLen m - 1 - f.fb + 1 == f.qmin && (roundAt md neg m e (e + bitLen m - 1 - f.fb)).1 == 2 ^ (f.fb + 1))) := by
    unfold roundFin
    rw [if_neg hm]
    rfl
  obtain ⟨hr, hc⟩ := roundAt_rounds md neg m e (max (e + bitLen m - 1 - f.fb) f.qmin)
  refine ⟨_, _, (m : ℚ) * (2 : ℚ) ^ (e - max (e + bitLen m - 1 - f.fb) f.qmin), _, _, ⟨?_, hr, hc, by positivity, ?_, ?_, tiny_iff f md neg hm e⟩, heq⟩
  · rw [hplace, mul_assoc, ← zpow_add₀ two_ne_zero, sub_add_cancel]
  · have hu : (0 : ℚ) < (2 : ℚ) ^ max (e + bitLen m - 1 - f.fb) f.qmin := by positivity
    refine (mul_lt_mul_iff_left₀ hu).1 ?_
    rw [mul_assoc, ← zpow_add₀ two_ne_zero, sub_add_cancel, ← zpow_nat_mul]
    refine h2.trans_le (zpow_le_zpow_right₀ one_le_two ?_)
    push_cast
    omega
  · rcases le_or_gt (e + bitLen m - 1 - f.fb) f.qmin with hq | hq
    · left
      omega
    · right
      have hu : (0 : ℚ) < (2 : ℚ) ^ max (e + bitLen m - 1 - f.fb) f.qmin := by positivity
      refine (mul_le_mul_iff_left₀ hu).1 ?_
      rw [mul_assoc, ← zpow_add₀ two_ne_zero, sub_add_cancel, ← zpow_nat_mul]
      refine le_trans (zpow_le_zpow_right₀ one_le_two ?_) h1
      omega

/-! ### Overflow -/

theorem expMax_eq {f : Fmt} (hf : FineFmt f) : (f.expMax : Int) = 2 * f.bias + 1 := by
  have : 2 ^ f.eb = 2 * 2 ^ (f.eb - 1) := by
    rw [← pow_succ', Nat.sub_add_cancel (by have := hf.eb; omega)]
  have hp := Nat.two_pow_pos (f.eb - 1)
  unfold Fmt.expMax Fmt.bias
  rw [this]
  push_cast [Nat.cast_sub (show 1 ≤ 2 * 2 ^ (f.eb - 1) by omega)]
  ring
theorem three_le_expMax {f : Fmt} (hf : FineFmt f) : 3 ≤ f.expMax := by
  have : 2 ^ 2 ≤ 2 ^ f.eb := Nat.pow_le_pow_right Nat.two_pos hf.eb
  unfold Fmt.expMax
  omega
section
variable {f : Fmt} {md : RMode} {neg : Bool} {y : ℚ} {n k : Nat} {x : ℚ} {cut tiny : Bool} (hf : FineFmt f) (h : RoundedTo f md neg y n k x cut tiny)
include h
theorem RoundedTo.k_le : k ≤ 2 ^ (f.fb + 1) := h.rounds.ge_of_ge h.high.le
theorem RoundedTo.k_low : n = 0 ∨ 2 ^ f.fb ≤ k := h.low.imp id fun hl => h.rounds.le_of_le hl
include hf
/-- An overflow is a size that, rounded with an unbounded exponent, exceeds the largest finite number. -/
theorem RoundedTo.overflow_iff : f.infBits ≤ n * 2 ^ f.fb + k ↔ Reaches md neg y ((2 : ℚ) ^ (f.bias + 1)) ((2 : ℚ) ^ (f.bias - f.fb)) := by
  have hE := expMax_eq hf
  have hE3 := three_le_expMax hf
  have hB := Nat.two_pow_pos f.fb
  have hk := h.k_le
  have hinf : f.infBits = f.expMax * 2 ^ f.fb := rfl
  obtain ⟨N, hN⟩ : ∃ N, f.expMax = N + 2 := ⟨f.expMax - 2, by omega⟩
  rw [hN] at hE hinf
  have hplace : f.bias - f.fb = f.qmin + N := by
    unfold Fmt.qmin
    omega
  have hbig : f.bias + 1 = ((f.fb + 1 : Nat) : Int) + (f.qmin + N) := by
    push_cast
    omega
  rw [hplace, hbig, zpow_nat_mul]
  have hu : (0 : ℚ) < (2 : ℚ) ^ (f.qmin + N) := by positivity
  have hpow : 2 ^ (f.fb + 1) = 2 * 2 ^ f.fb := pow_succ' ..
  rcases lt_trichotomy n N with hn | rfl | hn
  · have hbits : ¬ f.infBits ≤ n * 2 ^ f.fb + k := by
      have : (n + 1) * 2 ^ f.fb ≤ N * 2 ^ f.fb := Nat.mul_le_mul_right _ hn
      rw [Nat.add_mul, one_mul] at this
      rw [hinf, Nat.add_mul]
      omega
    refine ⟨fun h' => absurd h' hbits, fun hr => ?_⟩
    have h1 := hr.within hu
    have h2 : y < ((2 ^ f.fb : Nat) : ℚ) * (2 : ℚ) ^ (f.qmin + N) := by
      have h3 : (2 : ℚ) ^ (f.qmin + n + 1) ≤ (2 : ℚ) ^ (f.qmin + N) := zpow_le_zpow_right₀ one_le_two (by omega)
      rw [zpow_add_one₀ two_ne_zero] at h3
      calc y < ((2 ^ (f.fb + 1) : Nat) : ℚ) * (2 : ℚ) ^ (f.qmin + n) := by
            rw [h.size]
            exact mul_lt_mul_of_pos_right h.high (by positivity)
        _ = ((2 ^ f.fb : Nat) : ℚ) * ((2 : ℚ) ^ (f.qmin + n) * 2) := by
            push_cast
            ring
        _ ≤ _ := mul_le_mul_of_nonneg_left h3 (by positivity)
    have h5 : ((2 ^ f.fb : Nat) : ℚ) + 1 ≤ ((2 ^ (f.fb + 1) : Nat) : ℚ) := by
      have : 2 ^ f.fb + 1 ≤ 2 ^ (f.fb + 1) := by omega
      exact_mod_cast this
    have := mul_le_mul_of_nonneg_right h5 hu.le
    linarith
  · have hs := Reaches.scale (md := md) (neg := neg) (x := x) (b := ((2 ^ (f.fb + 1) : Nat) : ℚ)) (u := 1) hu
    rw [one_mul, ← h.size] at hs
    rw [hs, ← h.rounds.reaches (even_two_pow_succ f.fb), hinf, Nat.add_mul, Nat.add_le_add_iff_left, hpow]
  · have hlow : 2 ^ f.fb ≤ k := h.k_low.resolve_left (by omega)
    have hbits : f.infBits ≤ n * 2 ^ f.fb + k := by
      have : (N + 1) * 2 ^ f.fb ≤ n * 2 ^ f.fb := Nat.mul_le_mul_right _ hn
      rw [Nat.add_mul, one_mul] at this
      rw [hinf, Nat.add_mul]
      omega
    refine ⟨fun _ => reaches_of_le hu ?_, fun _ => hbits⟩
    have h3 : (2 : ℚ) ^ (f.qmin + N + 1) ≤ (2 : ℚ) ^ (f.qmin + n) := zpow_le_zpow_right₀ one_le_two (by omega)
    rw [zpow_add_one₀ two_ne_zero] at h3
    calc ((2 ^ (f.fb + 1) : Nat) : ℚ) * (2 : ℚ) ^ (f.qmin + N) = ((2 ^ f.fb : Nat) : ℚ) * ((2 : ℚ) ^ (f.qmin + N) * 2) := by
          push_cast
          ring
      _ ≤ ((2 ^ f.fb : Nat) : ℚ) * (2 : ℚ) ^ (f.qmin + n) := mul_le_mul_of_nonneg_left h3 (by positivity)
      _ ≤ x * (2 : ℚ) ^ (f.qmin + n) := mul_le_mul_of_nonneg_right (h.low.resolve_left (by omega)) (by positivity)
      _ = y := h.size.symm
/-- A result that does not overflow is so many units of its place. -/
theorem RoundedTo.value (hb : ¬ f.infBits ≤ n * 2 ^ f.fb + k) : ∃ (m : Nat) (e : Int), f.val (f.sign neg + (n * 2 ^ f.fb + k)) = .fin neg m e ∧
    (m : ℚ) * (2 : ℚ) ^ e = k * (2 : ℚ) ^ (f.qmin + n) := val_size hf neg h.k_le h.k_low (Nat.not_le.1 hb)
end
end Sys2Proof
end

