-- ==== Sys2Proof/Proofs/RoundingCorrect.lean ====
section
/-! SUPPORT. The rounding of a number against the numbers of its format (R49, R50). -/

namespace Sys2Proof
open Machine

/-! ### The number that a mode takes -/

/-- `num` is the number that a mode takes for `q` rather than `x`. -/
def Takes (md : RMode) (q num : ℚ) (even : Prop) (x : ℚ) : Prop :=
  match md with
  | .rne => |num - q| ≤ |x - q| ∧ (|num - q| = |x - q| → x ≠ num → even)
  | .rna => |num - q| ≤ |x - q| ∧ (|num - q| = |x - q| → x ≠ num → |q| ≤ |num|)
  | .rtz => |num| ≤ |q| ∧ (|x| ≤ |q| → |x| ≤ |num|)
  | .rdn => num ≤ q ∧ (x ≤ q → x ≤ num)
  | .rup => q ≤ num ∧ (q ≤ x → num ≤ x)
theorem signed_le {neg : Bool} {a b u : ℚ} (hu : 0 < u) : signOf neg * (a * u) ≤ signOf neg * (b * u) ↔ if neg then b ≤ a else a ≤ b := by
  cases neg with
  | false =>
    simp only [signOf, Bool.false_eq_true, if_false, one_mul]
    exact mul_le_mul_iff_left₀ hu
  | true =>
    simp only [signOf, if_true, neg_mul, one_mul, neg_le_neg_iff]
    exact mul_le_mul_iff_left₀ hu
theorem abs_signed {neg : Bool} {a u : ℚ} (hu : 0 < u) : |signOf neg * (a * u)| = |a| * u := by
  rw [abs_mul, abs_signOf, one_mul, abs_mul, abs_of_pos hu]
theorem abs_signed_sub {neg : Bool} {a b u : ℚ} (hu : 0 < u) : |signOf neg * (a * u) - signOf neg * (b * u)| = |a - b| * u := by
  rw [← mul_sub, ← sub_mul, abs_signed hu]
/-- What is preferred among sizes in units is taken among the signed numbers. -/
theorem Prefers.takes {md : RMode} {neg : Bool} {x k z u : ℚ} {even : Prop} (hu : 0 < u) (hx : 0 ≤ x) (hk : 0 ≤ k) (h : Prefers md neg x k even z) :
    Takes md (signOf neg * (x * u)) (signOf neg * (k * u)) even (signOf neg * (z * u)) := by
  have hle : ∀ {a b : ℚ}, a * u ≤ b * u ↔ a ≤ b := mul_le_mul_iff_left₀ hu
  have hne : signOf neg * (z * u) ≠ signOf neg * (k * u) → z ≠ k := fun h he => h (by rw [he])
  have heq : ∀ {a b : ℚ}, a * u = b * u → a = b := fun {a b} h => mul_right_cancel₀ hu.ne' h
  cases md with
  | rne =>
    show _ ∧ _
    rw [abs_signed_sub hu, abs_signed_sub hu]
    exact ⟨hle.2 h.1, fun h1 h2 => h.2 (heq h1) (hne h2)⟩
  | rna =>
    show _ ∧ _
    rw [abs_signed_sub hu, abs_signed_sub hu, abs_signed hu, abs_signed hu, abs_of_nonneg hx, abs_of_nonneg hk]
    exact ⟨hle.2 h.1, fun h1 h2 => hle.2 (h.2 (heq h1) (hne h2))⟩
  | rtz =>
    show _ ∧ _
    rw [abs_signed hu, abs_signed hu, abs_signed hu, abs_of_nonneg hx, abs_of_nonneg hk, hle, hle, hle]
    exact h
  | rdn =>
    show _ ∧ _
    rw [signed_le hu, signed_le hu, signed_le hu]
    cases neg with
    | true => exact h
    | false => exact h
  | rup =>
    show _ ∧ _
    rw [signed_le hu, signed_le hu, signed_le hu]
    cases neg with
    | true => exact h
    | false => exact h

/-! ### The largest finite number and the infinities -/

section
variable {f : Fmt} (hf : FineFmt f)
include hf
theorem val_infBits (neg : Bool) : f.val (f.sign neg + f.infBits) = .inf neg := by
  have h := val_fields hf neg (ex := f.expMax) (fr := 0) expMax_lt (Nat.two_pow_pos _)
  rw [if_pos rfl, if_pos rfl] at h
  exact h
/-- The largest finite number is one unit below the power of two above it. -/
theorem val_maxBits (neg : Bool) : ∃ (m : Nat) (e : Int), f.val (f.sign neg + f.maxBits) = .fin neg m e ∧
    (m : ℚ) * (2 : ℚ) ^ e = (2 : ℚ) ^ (f.bias + 1) - (2 : ℚ) ^ (f.bias - f.fb) := by
  have hE := expMax_eq hf
  have hE3 := three_le_expMax hf
  have hB := Nat.two_pow_pos f.fb
  have hinf : f.infBits = f.expMax * 2 ^ f.fb := rfl
  have hpow : 2 ^ (f.fb + 1) = 2 * 2 ^ f.fb := pow_succ' ..
  obtain ⟨N, hN⟩ : ∃ N, f.expMax = N + 2 := ⟨f.expMax - 2, by omega⟩
  rw [hN, Nat.add_mul] at hinf
  rw [hN] at hE
  have hmax : f.maxBits = N * 2 ^ f.fb + (2 ^ (f.fb + 1) - 1) := by
    unfold Fmt.maxBits
    omega
  obtain ⟨m, e, h1, h2⟩ := val_size hf neg (n := N) (k := 2 ^ (f.fb + 1) - 1) (Nat.sub_le ..) (.inr (by omega)) (by omega)
  refine ⟨m, e, by rw [hmax]; exact h1, ?_⟩
  rw [h2, show f.bias - f.fb = f.qmin + N by unfold Fmt.qmin; omega, show f.bias + 1 = ((f.fb + 1 : Nat) : Int) + (f.qmin + N) by unfold Fmt.qmin; push_cast; omega,
    zpow_nat_mul, Nat.cast_sub (Nat.one_le_two_pow), sub_mul, Nat.cast_one, one_mul]
theorem ratOf_maxBits : ratOf (f.val f.maxBits) = (2 : ℚ) ^ (f.bias + 1) - (2 : ℚ) ^ (f.bias - f.fb) := by
  obtain ⟨m, e, h1, h2⟩ := val_maxBits hf false
  rw [show f.sign false + f.maxBits = f.maxBits from Nat.zero_add _] at h1
  rw [h1, ratOf_fin, h2]
  exact one_mul _
end
theorem sign_le (f : Fmt) (neg : Bool) : f.sign neg ≤ 2 ^ (f.eb + f.fb) := by
  unfold Fmt.sign
  split
  · exact le_rfl
  · exact Nat.zero_le _
theorem overflowBits_eq (f : Fmt) (md : RMode) (neg : Bool) : overflowBits f md neg =
    f.sign neg + (if md = .rne ∨ md = .rna ∨ (md = .rdn ∧ neg) ∨ (md = .rup ∧ ¬ neg) then f.infBits else f.maxBits) := by
  cases md <;> cases neg <;> rfl
/-- What an overflow gives is a number of its sign, and no NaN. -/
theorem overflowBits_val {f : Fmt} (hf : FineFmt f) (md : RMode) (neg : Bool) : overflowBits f md neg < 2 ^ f.bits ∧ (f.val (overflowBits f md neg)).isNan = false ∧
    (f.val (overflowBits f md neg)).neg = neg := by
  have hinf := infBits_eq (f := f)
  have hB := Nat.two_pow_pos f.fb
  have hsign := sign_le f neg
  have hbits : 2 ^ f.bits = 2 * 2 ^ (f.eb + f.fb) := pow_succ' ..
  have hmax : f.maxBits ≤ f.infBits := Nat.sub_le ..
  rw [overflowBits_eq]
  split
  · rw [val_infBits hf]
    exact ⟨by omega, rfl, rfl⟩
  · obtain ⟨m, e, h1, -⟩ := val_maxBits hf neg
    rw [h1]
    exact ⟨by omega, rfl, rfl⟩

/-! ### The obligation -/

section
variable {f : Fmt} {md : RMode} {neg : Bool} {y : ℚ} {n k : Nat} {x : ℚ} {cut tiny : Bool} (hf : FineFmt f) (h : RoundedTo f md neg y n k x cut tiny)
include hf h
theorem RoundedTo.bits_lt (hb : ¬ f.infBits ≤ n * 2 ^ f.fb + k) : f.sign neg + (n * 2 ^ f.fb + k) < 2 ^ f.bits := by
  have hinf := infBits_eq (f := f)
  have hsign : f.sign neg ≤ 2 ^ (f.eb + f.fb) := sign_le f neg
  have hbits : 2 ^ f.bits = 2 * 2 ^ (f.eb + f.fb) := pow_succ' ..
  generalize 2 ^ (f.eb + f.fb) = S at hinf hsign hbits
  generalize n * 2 ^ f.fb = a at hb ⊢
  generalize 2 ^ f.fb = B at hinf
  omega
omit h in
theorem sign_bits_even (n k : Nat) : (f.sign neg + (n * 2 ^ f.fb + k)) % 2 = k % 2 := by
  obtain ⟨b, hb⟩ : ∃ b, f.fb = b + 1 := ⟨f.fb - 1, by have := hf.fb; omega⟩
  have h1 : 2 ^ (f.eb + f.fb) = 2 * 2 ^ (f.eb + b) := by rw [hb, ← Nat.add_assoc, pow_succ']
  have h2 : n * 2 ^ f.fb = 2 * (n * 2 ^ b) := by
    rw [hb, pow_succ]
    ring
  unfold Fmt.sign
  rw [h1, h2]
  split <;> omega
omit hf in
/-- Among the numbers of the format the result is the one that the mode takes. -/
theorem RoundedTo.takes {b : Nat} (hn : (f.val b).isNan = false) (hi : (f.val b).isInf = false) :
    Takes md (signOf neg * y) (signOf neg * (k * (2 : ℚ) ^ (f.qmin + n))) (k % 2 = 0) (ratOf (f.val b)) := by
  have hu : (0 : ℚ) < (2 : ℚ) ^ (f.qmin + n) := by positivity
  obtain ⟨z, hz, hp⟩ : ∃ z, ratOf (f.val b) = signOf neg * (z * (2 : ℚ) ^ (f.qmin + n)) ∧ Prefers md neg x k (k % 2 = 0) z := by
    have hback : ∀ v w : ℚ, v = w * (2 : ℚ) ^ (f.qmin + n) → v = signOf neg * (signOf neg * w * (2 : ℚ) ^ (f.qmin + n)) := fun v w hv => by
      rw [← mul_assoc, ← mul_assoc, signOf_mul_self, one_mul, hv]
    rcases val_whole hn hi n with ⟨j, hj⟩ | ⟨h0, hlt⟩
    · refine ⟨signOf neg * j, hback _ _ hj, ?_⟩
      have := h.rounds.prefers_whole h.nonneg ((if neg then -1 else 1) * j)
      rw [show signOf neg * (j : ℚ) = (((if neg then -1 else 1) * j : Int) : ℚ) by unfold signOf; split <;> push_cast <;> ring]
      exact this
    · refine ⟨signOf neg * (ratOf (f.val b) / (2 : ℚ) ^ (f.qmin + n)), hback _ _ (div_mul_cancel₀ _ hu.ne').symm, ?_⟩
      refine h.rounds.prefers_low (h.low.resolve_left h0.ne') ?_
      rw [abs_mul, abs_signOf, one_mul, abs_div, abs_of_pos hu]
      exact (div_lt_iff₀ hu).2 hlt
  rw [h.size, hz]
  exact hp.takes hu h.nonneg (Nat.cast_nonneg k)
/-- A result that overflows is past the largest finite number. -/
theorem RoundedTo.past (hb : f.infBits ≤ n * 2 ^ f.fb + k) : ratOf (f.val f.maxBits) < y := by
  rw [ratOf_maxBits hf]
  exact ((h.overflow_iff hf).1 hb).within (by positivity)
/-- A result that overflows is not tiny. -/
theorem RoundedTo.overflow_reaches (hb : f.infBits ≤ n * 2 ^ f.fb + k) : Reaches md neg y ((2 : ℚ) ^ (f.qmin + f.fb)) ((2 : ℚ) ^ (f.qmin - 1)) := by
  refine reaches_of_le (by positivity) ?_
  have hE := expMax_eq hf
  have hE3 := three_le_expMax hf
  have hp := h.past hf hb
  rw [ratOf_maxBits hf] at hp
  have h1 : (2 : ℚ) ^ (f.bias - f.fb) ≤ (2 : ℚ) ^ f.bias := zpow_le_zpow_right₀ one_le_two (by omega)
  have h2 : (2 : ℚ) ^ (f.qmin + f.fb) ≤ (2 : ℚ) ^ f.bias := zpow_le_zpow_right₀ one_le_two (by unfold Fmt.qmin; omega)
  rw [zpow_add_one₀ two_ne_zero] at hp
  linarith
end
section
variable {f : Fmt} (hf : FineFmt f) (md : RMode) (neg : Bool) {m : Nat} (hm : m ≠ 0) (e : Int)
include hf hm
/-- The result of one rounding (R49, R50). -/
theorem roundFin_spec : (roundFin f md neg m e).1 < 2 ^ f.bits ∧ (f.val (roundFin f md neg m e).1).isNan = false ∧ (f.val (roundFin f md neg m e).1).neg = neg ∧
    ((roundFin f md neg m e).2.getLsbD 2 = false → (f.val (roundFin f md neg m e).1).isInf = false ∧
      ((roundFin f md neg m e).2.getLsbD 4 = true ↔ ratOf (f.val (roundFin f md neg m e).1) ≠ ratOf (.fin neg m e)) ∧
      ∀ b, (f.val b).isNan = false → (f.val b).isInf = false →
        Takes md (ratOf (.fin neg m e)) (ratOf (f.val (roundFin f md neg m e).1)) ((roundFin f md neg m e).1 % 2 = 0) (ratOf (f.val b))) ∧
    ((roundFin f md neg m e).2.getLsbD 2 = true → (roundFin f md neg m e).2.getLsbD 4 = true ∧ ratOf (f.val f.maxBits) < |ratOf (.fin neg m e)| ∧
      (roundFin f md neg m e).1 = f.sign neg + (if md = .rne ∨ md = .rna ∨ (md = .rdn ∧ neg) ∨ (md = .rup ∧ ¬ neg) then f.infBits else f.maxBits)) ∧
    ((roundFin f md neg m e).2.getLsbD 2 = true ↔ Reaches md neg |ratOf (.fin neg m e)| ((2 : ℚ) ^ (f.bias + 1)) ((2 : ℚ) ^ (f.bias - f.fb))) ∧
    ((roundFin f md neg m e).2.getLsbD 3 = true ↔ ratOf (f.val (roundFin f md neg m e).1) ≠ ratOf (.fin neg m e) ∧
      ¬ Reaches md neg |ratOf (.fin neg m e)| ((2 : ℚ) ^ (f.qmin + f.fb)) ((2 : ℚ) ^ (f.qmin - 1))) := by
  obtain ⟨n, k, x, cut, tiny, h, hres⟩ := roundFin_rounded f md neg hm e
  rw [hres, abs_ratOf_fin]
  rw [ratOf_fin]
  generalize (m : ℚ) * (2 : ℚ) ^ e = y at h
  unfold resultOf
  by_cases hb : f.infBits ≤ n * 2 ^ f.fb + k
  · rw [if_pos hb]
    obtain ⟨h1, h2, h3⟩ := overflowBits_val hf md neg
    refine ⟨h1, h2, h3, fun h0 => absurd h0 (show ¬ (flOF ||| flNX).getLsbD 2 = false by decide), fun _ => ⟨show (flOF ||| flNX).getLsbD 4 = true by decide, h.past hf hb, overflowBits_eq f md neg⟩, ?_, ?_⟩
    · exact iff_of_true (show (flOF ||| flNX).getLsbD 2 = true by decide) ((h.overflow_iff hf).1 hb)
    · exact iff_of_false (show ¬ (flOF ||| flNX).getLsbD 3 = true by decide) (fun h' => h'.2 (h.overflow_reaches hf hb))
  · rw [if_neg hb]
    obtain ⟨m', e', hv, hme⟩ := h.value hf hb
    have hnum : ratOf (f.val (f.sign neg + (n * 2 ^ f.fb + k))) = signOf neg * (k * (2 : ℚ) ^ (f.qmin + n)) := by rw [hv, ratOf_fin, hme]
    have hu : (0 : ℚ) < (2 : ℚ) ^ (f.qmin + n) := by positivity
    have hcut : cut = true ↔ signOf neg * (k * (2 : ℚ) ^ (f.qmin + n)) ≠ signOf neg * y := by
      rw [h.cut, h.size]
      exact not_congr ⟨fun he => by rw [he], fun he => mul_right_cancel₀ hu.ne' (mul_left_cancel₀ (signOf_ne_zero neg) he)⟩
    have hnof : ¬ (if cut then (if tiny then flUF ||| flNX else flNX) else flNone).getLsbD 2 = true := by
      cases cut <;> cases tiny <;> decide
    have hnx : (if cut then (if tiny then flUF ||| flNX else flNX) else flNone).getLsbD 4 = true ↔ cut = true := by
      cases cut <;> cases tiny <;> decide
    have huf : (if cut then (if tiny then flUF ||| flNX else flNX) else flNone).getLsbD 3 = true ↔ cut = true ∧ tiny = true := by
      cases cut <;> cases tiny <;> decide
    refine ⟨h.bits_lt hf hb, by rw [hv]; rfl, by rw [hv]; rfl, fun _ => ⟨by rw [hv]; rfl, ?_, fun b hn hi => ?_⟩, fun h' => absurd h' hnof, ?_, ?_⟩
    · rw [hnx, hnum]
      exact hcut
    · rw [hnum, sign_bits_even hf]
      exact h.takes hn hi
    · exact iff_of_false hnof (fun h' => hb ((h.overflow_iff hf).2 h'))
    · rw [huf, hnum, hcut, h.tiny]
end
/-- Settles O7: a rounding keeps whole units of its place, and the numbers of the format are whole units of it or lie below them. -/
theorem roundingIsCorrect : Obligations.RoundingIsCorrect := by
  unfold Obligations.RoundingIsCorrect
  intro f hf md neg m e hm q r big num reaches inFormat
  have hfine : FineFmt f := by
    simp only [List.mem_cons, List.not_mem_nil, or_false] at hf
    rcases hf with rfl | rfl | rfl | rfl
    · exact fine_fmt32
    · exact fine_fmt64
    · exact fine_fmt16
    · exact fine_fmtB16
  obtain ⟨h1, h2, h3, h4, h5, h6, h7⟩ := roundFin_spec hfine md neg hm e
  refine ⟨h1, h2, h3, fun h0 => ?_, h5, h6, h7⟩
  obtain ⟨i1, i2, i3⟩ := h4 h0
  refine ⟨i1, i2, ?_⟩
  rintro x ⟨b, -, hn, hi, rfl⟩
  exact i3 b hn hi
end Sys2Proof
end

