-- ==== Sys2Proof/Proofs/FloatPipe.lean ====
section
/-! SUPPORT. The shapes of the floating-point pipe (R48, R141, R142): elements of operands, results joined from elements. -/

namespace Sys2Proof
open Machine

/-! ### Elements -/

theorem fmt_eq (f : FFmt) : FFmt.fmt f = fmtOf f := by cases f <;> rfl
theorem latV_due (s : State) (f : FFmt) : (latV f).due s.clock = vDue s f := by
  unfold latV vDue
  split <;> rfl
theorem elemOf_f32 (s : State) (l : Nat) (r : Reg) : elemOf s .f32 l r 0 = (s.src s.cur.wid l r).toNat := by
  unfold elemOf
  rw [if_neg nofun, Nat.mul_zero, pow_zero, Nat.div_one]
  exact Nat.mod_eq_of_lt (s.src s.cur.wid l r).isLt
theorem elemOf_f64 (s : State) (l : Nat) (r : Reg) (j : Nat) : elemOf s .f64 l r j = (s.src64 s.cur.wid l r).toNat := if_pos rfl
theorem elemOf_lt (s : State) (f : FFmt) (l : Nat) (r : Reg) (j : Nat) : elemOf s f l r j < 2 ^ (fmtOf f).bits := by
  unfold elemOf
  split
  · next h =>
    subst h
    exact (s.src64 s.cur.wid l r).isLt
  · exact Nat.mod_lt _ (Nat.two_pow_pos _)
theorem toNat_wide (x : W32) : (x.setWidth 64).toNat = x.toNat := by
  rw [BitVec.toNat_setWidth]
  exact Nat.mod_eq_of_lt (x.isLt.trans (by decide))
/-- The elements of a register operand. -/
theorem elems_srcN (s : State) (f : FFmt) (l : Nat) (r : Reg) : elems f (s.srcN s.cur.wid l f.words r) = (List.range (elemsOf f)).map (elemOf s f l r) := by
  have hn : ∀ x, nbits x 15 0 = x / 2 ^ (16 * 0) % 2 ^ 16 := fun x => by rw [nbits_low, Nat.mul_zero, pow_zero, Nat.div_one]
  have hn' : ∀ x, nbits x 31 16 = x / 2 ^ (16 * 1) % 2 ^ 16 := fun x => nbits_div ..
  have h0 : ∀ n, (s.src s.cur.wid l r).toNat % 2 ^ n = (s.src s.cur.wid l r).toNat / 2 ^ (16 * 0) % 2 ^ n := fun n => by rw [Nat.mul_zero, pow_zero, Nat.div_one]
  have hw : s.srcN s.cur.wid l 1 r = (s.src s.cur.wid l r).setWidth 64 := rfl
  cases f with
  | f64 => exact congrArg (fun x => [x]) (Nat.mod_eq_of_lt (s.src64 s.cur.wid l r).isLt)
  | f32 => exact congrArg (fun x => [x]) ((congrArg (· % 2 ^ 32) (toNat_wide _)).trans (h0 32))
  | f16 => exact congrArg (fun x => [x]) ((congrArg (· % 2 ^ 16) (toNat_wide _)).trans (h0 16))
  | bf16 => exact congrArg (fun x => [x]) ((congrArg (· % 2 ^ 16) (toNat_wide _)).trans (h0 16))
  | f16x2 => exact congrArg₂ (fun x y => [x, y]) ((hn _).trans (congrArg (· / 2 ^ (16 * 0) % 2 ^ 16) (toNat_wide _))) ((hn' _).trans (congrArg (· / 2 ^ (16 * 1) % 2 ^ 16) (toNat_wide _)))
  | bf16x2 => exact congrArg₂ (fun x y => [x, y]) ((hn _).trans (congrArg (· / 2 ^ (16 * 0) % 2 ^ 16) (toNat_wide _))) ((hn' _).trans (congrArg (· / 2 ^ (16 * 1) % 2 ^ 16) (toNat_wide _)))

/-! ### Results -/

section
variable {i : Instr} {s : State} {m : Mods} {t : Machine.Lat} {f : FFmt} {d a : Reg}
theorem laneF_puts {g : Nat → W64 × BitVec 5} {r : Nat → Nat → FRes} (h : exec i s = laneF s m t f.words d g)
    (hg : ∀ l, g l = joinElems ((List.range (elemsOf f)).map (r l))) : PutsFloat i s m (t.due s.clock) f d r := by
  refine ⟨_, h, ?_⟩
  have hw := perLane_writes m t (dstRegs d f.words) (fun l => (outsN f.words d (g l).1, (g l).2)) s
  have hlo : ∀ v, lo32 (BitVec.ofNat 64 v) = BitVec.ofNat 32 v := fun v => BitVec.setWidth_ofNat_of_le (by decide) v
  have hone : ∀ x : FRes, joinElems [x] = (BitVec.ofNat 64 x.1, x.2) := fun x => congrArg (Prod.mk _) (BitVec.zero_or)
  have htwo : ∀ x y : FRes, joinElems [x, y] = (BitVec.ofNat 64 (x.1 + y.1 * 2 ^ 16), x.2 ||| y.2) := fun x y => congrArg (Prod.mk _) (congrArg (· ||| y.2) BitVec.zero_or)
  have hg : g = fun l => joinElems ((List.range (elemsOf f)).map (r l)) := funext hg
  subst hg
  cases f with
  | f64 =>
    simpa [elemsOf, hone, outsN, FFmt.words, outs64_eq, dstRegs_two] using hw
  | f32 =>
    simpa [elemsOf, hone, outsN, FFmt.words, outs32_eq, dstRegs_one, hlo] using hw
  | f16 =>
    simpa [elemsOf, hone, outsN, FFmt.words, outs32_eq, dstRegs_one, hlo] using hw
  | bf16 =>
    simpa [elemsOf, hone, outsN, FFmt.words, outs32_eq, dstRegs_one, hlo] using hw
  | f16x2 =>
    simpa [elemsOf, htwo, outsN, FFmt.words, outs32_eq, dstRegs_one, hlo, List.range_succ] using hw
  | bf16x2 =>
    simpa [elemsOf, htwo, outsN, FFmt.words, outs32_eq, dstRegs_one, hlo, List.range_succ] using hw
/-- D ← f(A), element by element. -/
theorem unary_puts {g : Fmt → Nat → FRes} (h : exec i s = unary s m t f d a g) :
    PutsFloat i s m (t.due s.clock) f d (fun l j => g (fmtOf f) (elemOf s f l a j)) := by
  refine laneF_puts h fun l => ?_
  unfold op1
  rw [elems_srcN, fmt_eq, List.map_map]
  rfl
theorem zipWith_range {α β γ : Type} (n : Nat) (g : α → β → γ) (x : Nat → α) (y : Nat → β) :
    List.zipWith g ((List.range n).map x) ((List.range n).map y) = (List.range n).map (fun j => g (x j) (y j)) := by
  rw [List.zipWith_map, List.zipWith_self]
/-- D ← D op A, element by element. -/
theorem binary_puts {g : Fmt → Nat → Nat → FRes} (h : exec i s = binary s m t f d a g) :
    PutsFloat i s m (t.due s.clock) f d (fun l j => g (fmtOf f) (elemOf s f l d j) (elemOf s f l a j)) := by
  refine laneF_puts h fun l => ?_
  unfold op2
  rw [elems_srcN, elems_srcN, fmt_eq, zipWith_range]
theorem PutsFloat.such {due : Option Nat} {r : Nat → Nat → FRes} {p : Nat → Nat → FRes → Prop} (h : PutsFloat i s m due f d r) (hp : ∀ l j, p l j (r l j)) :
    PutsSuch i s m due f d p := ⟨r, h, fun l j _ => hp l j⟩
end
end Sys2Proof
end

