-- ==== Sys2Proof/Proofs/ExactValues.lean ====
section
/-! SUPPORT. Exact sums, products and quotients of values, rounded once (R50, R54, R144). -/

namespace Sys2Proof
open Machine

/-! ### Roundings of exact numbers -/

theorem ratOf_scaledTo {q e : Int} (h : q ≤ e) (n : Bool) (m : Nat) : ratOf (.fin n m e) = (scaledTo q (.fin n m e) : ℚ) * (2 : ℚ) ^ q := by
  have he : (2 : ℚ) ^ e = ((2 ^ (e - q).toNat : Nat) : ℚ) * (2 : ℚ) ^ q := by
    rw [← zpow_nat_mul]
    congr 1
    omega
  have hs : ((if n then -1 else 1 : Int) : ℚ) = signOf n := by cases n <;> simp [signOf]
  unfold scaledTo
  dsimp only
  rw [ratOf_fin, he, Int.cast_mul, hs]
  push_cast
  ring
/-- A number of a sign is rounded with that sign. -/
theorem rounds_fin (f : Fmt) (md : RMode) (n : Bool) (m : Nat) (e : Int) : Rounds f md (signOf n * (m * (2 : ℚ) ^ e)) n (roundFin f md n m e) := by
  refine ⟨m, e, ?_, ?_⟩
  · rw [abs_mul, abs_signOf, one_mul]
    exact abs_of_nonneg (by positivity)
  · congr 1
    have hz : (0 : ℚ) < (2 : ℚ) ^ e := by positivity
    rcases Nat.eq_zero_or_pos m with rfl | hm
    · simp
    · have hp : (0 : ℚ) < m * (2 : ℚ) ^ e := mul_pos (Nat.cast_pos.2 hm) hz
      rw [if_neg (mul_ne_zero (signOf_ne_zero n) hp.ne')]
      cases n with
      | false => exact (decide_eq_false (not_lt.2 (le_of_lt (by rw [show signOf false = 1 from rfl, one_mul]; exact hp)))).symm
      | true => exact (decide_eq_true (by rw [show signOf true = -1 from rfl, neg_one_mul]; exact neg_neg_of_pos hp)).symm
/-- An integer multiple of a power of two is rounded with its sign, zero with the sign that the operation gives. -/
theorem rounds_int (f : Fmt) (md : RMode) (z : Bool) (t q : Int) :
    Rounds f md (t * (2 : ℚ) ^ q) z (roundFin f md (if t = 0 then z else decide (t < 0)) t.natAbs q) := by
  have hz : (0 : ℚ) < (2 : ℚ) ^ q := by positivity
  have habs : ((t.natAbs : Nat) : ℚ) = |(t : ℚ)| := by
    rw [← Int.cast_abs, Int.abs_eq_natAbs]
    rfl
  refine ⟨t.natAbs, q, ?_, ?_⟩
  · rw [abs_mul, abs_of_pos hz, habs]
  · congr 1
    have h0 : (t : ℚ) * (2 : ℚ) ^ q = 0 ↔ t = 0 := by
      rw [mul_eq_zero, Int.cast_eq_zero]
      exact ⟨fun h => h.resolve_right hz.ne', .inl⟩
    have h1 : (t : ℚ) * (2 : ℚ) ^ q < 0 ↔ t < 0 := by
      rw [mul_neg_iff]
      constructor
      · rintro (⟨-, h⟩ | ⟨h, -⟩)
        · exact absurd h (not_lt.2 hz.le)
        · exact_mod_cast h
      · intro h
        exact .inr ⟨by exact_mod_cast h, hz⟩
    exact if_congr h0.symm rfl (decide_eq_decide.2 h1.symm)

/-! ### What rounding does to a value and its flags -/

section
variable (f : Fmt) (md : RMode)
theorem finishF_fin (n : Bool) (m : Nat) (e : Int) : finishF f md (.fin n m e, flNone) = roundFin f md n m e :=
  Prod.ext rfl BitVec.zero_or
theorem finishF_inf (n : Bool) (fl : BitVec 5) : finishF f md (.inf n, fl) = (infBitsOf f n, fl) := Prod.ext rfl BitVec.or_zero
theorem finishF_nan (g : Bool) (fl : BitVec 5) : finishF f md (.nan g, fl) = (f.nan, fl) := Prod.ext rfl BitVec.or_zero
theorem sigFlag_one (x : FVal) : sigFlag [x] = nvIf x.isSig := by
  unfold sigFlag nvIf
  rw [List.any_cons, List.any_nil, Bool.or_false]
  rfl
theorem sigFlag_two (x y : FVal) : sigFlag [x, y] = nvIf (x.isSig || y.isSig) := by
  unfold sigFlag nvIf
  rw [List.any_cons, List.any_cons, List.any_nil, Bool.or_false]
  rfl
theorem nvIf_or (a b : Bool) : nvIf a ||| nvIf b = nvIf (a || b) := by cases a <;> cases b <;> rfl
theorem roundFin_zero (n : Bool) (e : Int) : roundFin f md n 0 e = (f.sign n, 0) := if_pos rfl
end

/-! ### Sums, products, fused products -/

section
variable (f : Fmt) (md : RMode)
/-- The exact sum of two finite values. -/
theorem addVal_fin (a b : Bool) (m n : Nat) (e g : Int) : ∃ (z : Bool) (k : Nat) (q : Int), addVal md (.fin a m e) (.fin b n g) = (.fin z k q, flNone) ∧
    Rounds f md (ratOf (.fin a m e) + ratOf (.fin b n g)) (if m = 0 ∧ n = 0 ∧ a = b then a else md == .rdn) (roundFin f md z k q) := by
  have hsum : ratOf (.fin a m e) + ratOf (.fin b n g) =
      ((scaledTo (min e g) (.fin a m e) + scaledTo (min e g) (.fin b n g) : Int) : ℚ) * (2 : ℚ) ^ min e g := by
    rw [ratOf_scaledTo (min_le_left e g), ratOf_scaledTo (min_le_right e g)]
    push_cast
    ring
  have hr := rounds_int f md (if m = 0 ∧ n = 0 ∧ a = b then a else md == .rdn) (scaledTo (min e g) (.fin a m e) + scaledTo (min e g) (.fin b n g)) (min e g)
  rw [← hsum] at hr
  unfold addVal
  dsimp only
  generalize scaledTo (min e g) (.fin a m e) + scaledTo (min e g) (.fin b n g) = t at hr
  by_cases h : t = 0
  · rw [if_pos h, h] at hr
    exact ⟨_, _, _, if_pos h, hr⟩
  · rw [if_neg h] at hr
    exact ⟨_, _, _, if_neg h, hr⟩
theorem addVal_sumIs (x y : FVal) : SumIs f md x y (finishF f md (addVal md x y)) := by
  have hnan : ∀ fl, finishF f md (.nan false, fl) = (f.nan, fl) := finishF_nan f md false
  cases x with
  | nan s =>
    refine Eq.trans (hnan (sigFlag [.nan s, y])) ?_
    rw [sigFlag_two]
    rfl
  | inf a =>
    cases y with
    | nan s => exact (hnan (sigFlag [.inf a, .nan s])).trans (congrArg (Prod.mk f.nan) (sigFlag_two ..))
    | inf b =>
      show finishF f md (if a = b then _ else _) = if a = b then _ else _
      by_cases h : a = b
      · rw [if_pos h, if_pos h]
        exact finishF_inf f md a flNone
      · rw [if_neg h, if_neg h]
        exact hnan flNV
    | fin b n g => exact finishF_inf f md a flNone
  | fin a m e =>
    cases y with
    | nan s => exact (hnan (sigFlag [.fin a m e, .nan s])).trans (congrArg (Prod.mk f.nan) (sigFlag_two ..))
    | inf b => exact finishF_inf f md b flNone
    | fin b n g =>
      obtain ⟨z, k, q, h1, h2⟩ := addVal_fin f md a b m n e g
      rw [h1, finishF_fin]
      exact h2
theorem ratOf_mul (a b : Bool) (m n : Nat) (e g : Int) : ratOf (.fin a m e) * ratOf (.fin b n g) = ratOf (.fin (a ^^ b) (m * n) (e + g)) := by
  rw [ratOf_fin, ratOf_fin, ratOf_fin, zpow_add₀ two_ne_zero]
  have : signOf (a ^^ b) = signOf a * signOf b := by cases a <;> cases b <;> simp [signOf]
  rw [this]
  push_cast
  ring
theorem mulVal_productIs (x y : FVal) : ProductIs f md x y (finishF f md (mulVal x y)) := by
  have hnan : ∀ fl, finishF f md (.nan false, fl) = (f.nan, fl) := finishF_nan f md false
  have hzero : ∀ n : Nat, (n == 0) = decide (n = 0) := fun n => rfl
  cases x with
  | nan s =>
    refine Eq.trans (hnan (sigFlag [.nan s, y])) ?_
    rw [sigFlag_two]
    rfl
  | inf a =>
    cases y with
    | nan s => exact (hnan (sigFlag [.inf a, .nan s])).trans (congrArg (Prod.mk f.nan) (sigFlag_two ..))
    | inf b => exact finishF_inf f md (a ^^ b) flNone
    | fin b n g =>
      show finishF f md (if (n == 0) = true then _ else _) = if n = 0 then _ else _
      by_cases h : n = 0
      · rw [if_pos h, if_pos (beq_iff_eq.2 h)]
        exact hnan flNV
      · rw [if_neg h, if_neg (fun h' => h (beq_iff_eq.1 h'))]
        exact finishF_inf f md (a ^^ b) flNone
  | fin a m e =>
    cases y with
    | nan s => exact (hnan (sigFlag [.fin a m e, .nan s])).trans (congrArg (Prod.mk f.nan) (sigFlag_two ..))
    | inf b =>
      show finishF f md (if (m == 0) = true then _ else _) = if m = 0 then _ else _
      by_cases h : m = 0
      · rw [if_pos h, if_pos (beq_iff_eq.2 h)]
        exact hnan flNV
      · rw [if_neg h, if_neg (fun h' => h (beq_iff_eq.1 h'))]
        exact finishF_inf f md (a ^^ b) flNone
    | fin b n g =>
      show Rounds f md (ratOf (.fin a m e) * ratOf (.fin b n g)) (a ^^ b) (finishF f md (.fin (a ^^ b) (m * n) (e + g), flNone))
      rw [ratOf_mul, finishF_fin, ratOf_fin]
      exact rounds_fin ..
end

/-! ### Fused products -/

section
variable {x y : FVal}
theorem mulVal_nan (h : (x.isNan || y.isNan) = true) : mulVal x y = (.nan false, nvIf (x.isSig || y.isSig)) := by
  rw [← sigFlag_two]
  cases x with
  | nan s => rfl
  | inf a =>
    cases y with
    | nan s => rfl
    | inf b => exact absurd h (by simp [FVal.isNan])
    | fin b n g => exact absurd h (by simp [FVal.isNan])
  | fin a m e =>
    cases y with
    | nan s => rfl
    | inf b => exact absurd h (by simp [FVal.isNan])
    | fin b n g => exact absurd h (by simp [FVal.isNan])
/-- Zero times an infinity is invalid. -/
theorem mulVal_invalid (h : ((x.isInf && y.isZero) || (x.isZero && y.isInf)) = true) : mulVal x y = (.nan false, flNV) := by
  cases x with
  | nan s => exact absurd h (by simp [FVal.isInf, FVal.isZero])
  | inf a =>
    cases y with
    | nan s => exact absurd h (by simp [FVal.isInf, FVal.isZero])
    | inf b => exact absurd h (by simp [FVal.isInf, FVal.isZero])
    | fin b n g => exact if_pos ((Bool.or_false _).symm.trans h)
  | fin a m e =>
    cases y with
    | nan s => exact absurd h (by simp [FVal.isInf, FVal.isZero])
    | inf b => exact if_pos ((Bool.and_true _).symm.trans h)
    | fin b n g => exact absurd h (by simp [FVal.isInf, FVal.isZero])
theorem mulVal_inf (hn : (x.isNan || y.isNan) = false) (hv : ((x.isInf && y.isZero) || (x.isZero && y.isInf)) = false) (h : (x.isInf || y.isInf) = true) :
    mulVal x y = (.inf (x.neg ^^ y.neg), flNone) := by
  cases x with
  | nan s => exact absurd hn (by simp [FVal.isNan])
  | inf a =>
    cases y with
    | nan s => exact absurd hn (by simp [FVal.isNan])
    | inf b => rfl
    | fin b n g => exact if_neg (fun hz => absurd ((Bool.or_false _).symm.trans hv) (by rw [show (FVal.inf a).isInf = true from rfl, hz]; decide))
  | fin a m e =>
    cases y with
    | nan s => exact absurd hn (by simp [FVal.isNan])
    | inf b => exact if_neg (fun hz => absurd ((Bool.and_true _).symm.trans hv) (by rw [hz]; decide))
    | fin b n g => exact absurd h (by simp [FVal.isInf])
theorem mulVal_fin (a b : Bool) (m n : Nat) (e g : Int) : mulVal (.fin a m e) (.fin b n g) = (.fin (a ^^ b) (m * n) (e + g), flNone) := rfl
/-- A value that is neither a NaN nor an infinity. -/
theorem exists_fin (hn : x.isNan = false) (hi : x.isInf = false) : ∃ a m e, x = .fin a m e := by
  cases x with
  | nan s => exact absurd hn (by simp [FVal.isNan])
  | inf a => exact absurd hi (by simp [FVal.isInf])
  | fin a m e => exact ⟨a, m, e, rfl⟩
end
/-- The product, then the sum with the third operand, rounded once. -/
def fusedVal (md : RMode) (x y z : FVal) : FVal × BitVec 5 :=
  ((addVal md (mulVal x y).1 z).1, (mulVal x y).2 ||| (addVal md (mulVal x y).1 z).2 ||| sigFlag [z])
theorem fusedVal_fusedIs (f : Fmt) (md : RMode) (x y z : FVal) : FusedIs f md x y z (finishF f md (fusedVal md x y z)) := by
  have hnan : ∀ fl, finishF f md (.nan false, fl) = (f.nan, fl) := finishF_nan f md false
  have hsum : ∀ g z, addVal md (.nan g) z = (.nan false, nvIf (g || z.isSig)) := fun g z => congrArg (Prod.mk (FVal.nan false)) (sigFlag_two (.nan g) z)
  have hnone : ∀ fl : BitVec 5, flNone ||| fl = fl := fun fl => BitVec.zero_or
  unfold FusedIs fusedVal
  by_cases h1 : (x.isNan || y.isNan) = true
  · rw [if_pos h1, mulVal_nan h1, hsum, hnan, sigFlag_one, Bool.false_or, nvIf_or, nvIf_or, Bool.or_assoc, Bool.or_self]
    rfl
  have h1' := Bool.eq_false_iff.2 h1
  rw [if_neg h1]
  by_cases h2 : ((x.isInf && y.isZero) || (x.isZero && y.isInf)) = true
  · rw [if_pos h2, mulVal_invalid h2, hsum, hnan, sigFlag_one, show flNV = nvIf true from rfl, nvIf_or, nvIf_or, Bool.true_or, Bool.true_or]
    rfl
  have h2' := Bool.eq_false_iff.2 h2
  rw [if_neg h2]
  have hfix : ∀ A : FVal × BitVec 5, (A.1, A.2 ||| (0 : BitVec 5)) = A := fun A => Prod.ext rfl BitVec.or_zero
  have hself : ∀ g : Bool, nvIf (false || g) ||| nvIf g = nvIf g := fun g => by rw [nvIf_or, Bool.false_or, Bool.or_self]
  by_cases h3 : (x.isInf || y.isInf) = true
  · rw [mulVal_inf h1' h2' h3, sigFlag_one, hnone]
    cases z with
    | nan g => exact (hnan _).trans (congrArg (Prod.mk f.nan) ((congrArg (· ||| nvIf g) (sigFlag_two ..)).trans (hself g)))
    | inf c =>
      refine (congrArg (finishF f md) (hfix _)).trans ?_
      show finishF f md (if (x.neg ^^ y.neg) = c then _ else _) = if ((x.isInf || y.isInf) && (x.neg ^^ y.neg) != c) = true then _ else _
      rw [h3, Bool.true_and]
      by_cases hc : (x.neg ^^ y.neg) = c
      · rw [if_pos hc, if_neg (by rw [hc, bne_self_eq_false]; exact Bool.false_ne_true), hc]
        exact finishF_inf f md c _
      · rw [if_neg hc, if_pos (bne_iff_ne.2 hc)]
        exact hnan _
    | fin c n g =>
      show if (x.isInf || y.isInf) = true then _ else _
      rw [if_pos h3]
      exact (congrArg (finishF f md) (hfix (addVal md (.inf (x.neg ^^ y.neg)) (.fin c n g)))).trans (finishF_inf f md _ _)
  · rw [Bool.not_eq_true, Bool.or_eq_false_iff] at h3
    rw [Bool.or_eq_false_iff] at h1'
    obtain ⟨a, m, e, rfl⟩ := exists_fin h1'.1 h3.1
    obtain ⟨b, n, g, rfl⟩ := exists_fin h1'.2 h3.2
    rw [mulVal_fin, sigFlag_one, hnone]
    cases z with
    | nan s => exact (hnan _).trans (congrArg (Prod.mk f.nan) ((congrArg (· ||| nvIf s) (sigFlag_two ..)).trans (hself s)))
    | inf c =>
      refine (congrArg (finishF f md) (hfix _)).trans ?_
      exact finishF_inf f md c _
    | fin c k u =>
      obtain ⟨w, j, q, e1, e2⟩ := addVal_fin f md (a ^^ b) c (m * n) k (e + g) u
      have hz : (((FVal.fin a m e).isZero || (FVal.fin b n g).isZero) && k = 0 && ((FVal.fin a m e).neg ^^ (FVal.fin b n g).neg) = c) = true ↔ m * n = 0 ∧ k = 0 ∧ (a ^^ b) = c := by
        rw [Bool.and_eq_true, Bool.and_eq_true, decide_eq_true_iff, decide_eq_true_iff, and_assoc, Nat.mul_eq_zero]
        exact and_congr_left fun _ => (Bool.or_eq_true _ _).to_iff.trans (or_congr beq_iff_eq beq_iff_eq)
      show Rounds f md (ratOf (.fin a m e) * ratOf (.fin b n g) + ratOf (.fin c k u))
        (if (((FVal.fin a m e).isZero || (FVal.fin b n g).isZero) && k = 0 && ((FVal.fin a m e).neg ^^ (FVal.fin b n g).neg) = c) = true then c else md == .rdn)
        (finishF f md ((addVal md (.fin (a ^^ b) (m * n) (e + g)) (.fin c k u)).1, (addVal md (.fin (a ^^ b) (m * n) (e + g)) (.fin c k u)).2 ||| (0 : BitVec 5)))
      rw [hfix, e1, ratOf_mul, finishF_fin, if_congr hz rfl rfl]
      have hc : (if m * n = 0 ∧ k = 0 ∧ (a ^^ b) = c then c else md == .rdn) = if m * n = 0 ∧ k = 0 ∧ (a ^^ b) = c then (a ^^ b) else md == .rdn := by
        split
        · next h => exact h.2.2.symm
        · rfl
      rw [hc]
      exact e2

/-! ### Quotients -/

/-- A whole quotient with a last place that tells of a remainder is a real number kept to more places than a format has. -/
theorem roundsReal_jam (f : Fmt) (md : RMode) (neg : Bool) {q : ℝ} {k : Nat} {e : Int} {exact_ : Prop} [Decidable exact_] (hk : 2 ^ (f.fb + 2) ≤ k)
    (h1 : (k : ℝ) * 2 ^ e ≤ q) (h2 : q < ((k : ℝ) + 1) * 2 ^ e) (hx : exact_ ↔ q = (k : ℝ) * 2 ^ e) :
    RoundsReal f md neg q (roundFin f md neg (2 * k + if exact_ then 0 else 1) (e - 1)) := by
  refine ⟨k, e, hk, h1, h2, fun h => ?_, fun h => ?_⟩
  · rw [if_pos (hx.2 h), Nat.add_zero]
  · rw [if_neg (fun h' => h (hx.1 h'))]
theorem divVal_quotientIs (f : Fmt) (md : RMode) (x y : FVal) : QuotientIs f md x y (finishF f md (divVal f x y)) := by
  have hnan : ∀ fl, finishF f md (.nan false, fl) = (f.nan, fl) := finishF_nan f md false
  cases x with
  | nan s =>
    refine Eq.trans (hnan (sigFlag [.nan s, y])) ?_
    rw [sigFlag_two]
    rfl
  | inf a =>
    cases y with
    | nan s => exact (hnan (sigFlag [.inf a, .nan s])).trans (congrArg (Prod.mk f.nan) (sigFlag_two ..))
    | inf b => exact hnan flNV
    | fin b n g => exact finishF_inf f md (a ^^ b) flNone
  | fin a m e =>
    cases y with
    | nan s => exact (hnan (sigFlag [.fin a m e, .nan s])).trans (congrArg (Prod.mk f.nan) (sigFlag_two ..))
    | inf b => exact (finishF_fin f md (a ^^ b) 0 0).trans (roundFin_zero f md _ _)
    | fin b n g =>
      unfold QuotientIs divVal
      dsimp only
      by_cases hn : n = 0
      · rw [if_pos hn, if_pos hn]
        by_cases hm : m = 0
        · rw [if_pos hm, if_pos hm]
          exact hnan flNV
        · rw [if_neg hm, if_neg hm]
          exact finishF_inf f md (a ^^ b) flDZ
      · rw [if_neg hn, if_neg hn]
        by_cases hm : m = 0
        · rw [if_pos hm, if_pos hm]
          exact (finishF_fin f md (a ^^ b) 0 0).trans (roundFin_zero f md _ _)
        · rw [if_neg hm, if_neg hm, finishF_fin]
          unfold quotJam
          dsimp only
          have hK := lt_bitLen n
          generalize hKd : f.fb + 4 + bitLen n = K
          have hn' : (0 : ℝ) < n := Nat.cast_pos.2 (Nat.pos_of_ne_zero hn)
          have hq : |((ratOf (.fin a m e) : ℚ) : ℝ) / ((ratOf (.fin b n g) : ℚ) : ℝ)| = ((m * 2 ^ K : Nat) : ℝ) / n * 2 ^ (e - g - K) := by
            rw [abs_div, ← Rat.cast_abs, ← Rat.cast_abs, abs_ratOf_fin, abs_ratOf_fin]
            push_cast
            rw [zpow_sub₀ two_ne_zero, zpow_sub₀ two_ne_zero, zpow_natCast]
            field_simp
          have hdm : ((m * 2 ^ K : Nat) : ℝ) = n * ((m * 2 ^ K / n : Nat) : ℝ) + ((m * 2 ^ K % n : Nat) : ℝ) := by exact_mod_cast (Nat.div_add_mod (m * 2 ^ K) n).symm
          have hmod : ((m * 2 ^ K % n : Nat) : ℝ) < n := by exact_mod_cast Nat.mod_lt (m * 2 ^ K) (Nat.pos_of_ne_zero hn)
          have hz : (0 : ℝ) < 2 ^ (e - g - K) := by positivity
          have hdiv : ((m * 2 ^ K : Nat) : ℝ) / n = ((m * 2 ^ K / n : Nat) : ℝ) + ((m * 2 ^ K % n : Nat) : ℝ) / n := by
            rw [eq_comm, ← sub_eq_zero, hdm]
            field_simp
            ring
          rw [hq, hdiv, show e - g + (-(K : Int) - 1) = e - g - K - 1 by ring]
          refine roundsReal_jam f md (a ^^ b) ?_ ?_ ?_ ?_
          · rw [Nat.le_div_iff_mul_le (Nat.pos_of_ne_zero hn)]
            calc 2 ^ (f.fb + 2) * n ≤ 2 ^ (f.fb + 4) * 2 ^ bitLen n := Nat.mul_le_mul (Nat.pow_le_pow_right Nat.two_pos (by omega)) hK.le
              _ = 1 * 2 ^ K := by rw [← pow_add, hKd, one_mul]
              _ ≤ m * 2 ^ K := Nat.mul_le_mul_right _ (Nat.pos_of_ne_zero hm)
          · exact mul_le_mul_of_nonneg_right (le_add_of_nonneg_right (by positivity)) hz.le
          · exact mul_lt_mul_of_pos_right (add_lt_add_right ((div_lt_one hn').2 hmod) _) hz
          · rw [mul_left_inj' hz.ne', add_eq_left, div_eq_zero_iff]
            constructor
            · intro h
              exact .inl (by rw [h]; exact Nat.cast_zero)
            · rintro (h | h)
              · exact_mod_cast h
              · exact absurd h hn'.ne'
end Sys2Proof
end

