-- ==== Sys2Proof/Proofs/FloatSums.lean ====
section
/-! SUPPORT. Sums of several terms (R63, R150), and the arithmetic of the floating-point pipe (R143, R144). -/

namespace Sys2Proof
open Machine

/-! ### Sums of several terms -/

/-- The sign of a sum of several terms where it is zero. -/
def zeroSign (md : RMode) (xs : List FVal) : Bool :=
  if xs.all (·.isZero) && xs.all (·.neg) then true else if xs.all (·.isZero) && xs.all (fun x => !x.neg) then false else md == .rdn
theorem foldl_min_le (xs : List FVal) (q : Int) : (xs.foldl (fun q x => match x with | .fin _ _ e => min q e | _ => q) q ≤ q) ∧
    ∀ n m e, FVal.fin n m e ∈ xs → xs.foldl (fun q x => match x with | .fin _ _ e => min q e | _ => q) q ≤ e := by
  induction xs generalizing q with
  | nil => exact ⟨le_rfl, nofun⟩
  | cons x xs ih =>
    rw [List.foldl_cons]
    have hle : (match x with | .fin _ _ e => min q e | _ => q : Int) ≤ q := by
      cases x with
      | nan s => exact le_rfl
      | inf n => exact le_rfl
      | fin n m e => exact min_le_left ..
    refine ⟨(ih _).1.trans hle, fun n m e h => ?_⟩
    rcases List.mem_cons.1 h with rfl | h
    · exact (ih _).1.trans (min_le_right q e)
    · exact (ih _).2 n m e h
theorem foldl_add_scaled (xs : List FVal) (q t : Int) : xs.foldl (fun t x => t + scaledTo q x) t = t + (xs.map (scaledTo q)).sum := by
  induction xs generalizing t with
  | nil => simp
  | cons x xs ih =>
    rw [List.foldl_cons, ih, List.map_cons, List.sum_cons]
    ring
theorem sum_ratOf {xs : List FVal} {q : Int} (h : ∀ v ∈ xs, ∃ n m e, v = .fin n m e ∧ q ≤ e) :
    (xs.map ratOf).sum = (((xs.map (scaledTo q)).sum : Int) : ℚ) * (2 : ℚ) ^ q := by
  induction xs with
  | nil => simp
  | cons x xs ih =>
    obtain ⟨n, m, e, rfl, hq⟩ := h _ (List.mem_cons_self ..)
    rw [List.map_cons, List.sum_cons, List.map_cons, List.sum_cons, ih fun v hv => h v (List.mem_cons_of_mem _ hv), ratOf_scaledTo hq]
    push_cast
    ring
/-- The exact sum of finite terms. -/
theorem sumVals_fin (f : Fmt) (md : RMode) {xs : List FVal} (h : ∀ v ∈ xs, v.isNan = false ∧ v.isInf = false) :
    ∃ (z : Bool) (k : Nat) (q : Int), sumVals md xs = (.fin z k q, flNone) ∧ Rounds f md (xs.map ratOf).sum (zeroSign md xs) (roundFin f md z k q) := by
  have hnan : xs.any (·.isNan) = false := List.any_eq_false.2 fun v hv => by rw [(h v hv).1]; decide
  have hinf : xs.any (fun x => x.isInf && x.neg) = false := List.any_eq_false.2 fun v hv => by rw [(h v hv).2]; exact Bool.false_ne_true
  have hfind : xs.find? (·.isInf) = none := List.find?_eq_none.2 fun v hv => by rw [(h v hv).2]; decide
  unfold sumVals
  rw [hnan, hinf, if_neg Bool.false_ne_true, Bool.false_and, if_neg Bool.false_ne_true, hfind]
  dsimp only
  obtain ⟨-, hmin⟩ := foldl_min_le xs 0
  generalize xs.foldl (fun q x => match x with | .fin _ _ e => min q e | _ => q) 0 = q at hmin
  have hsum := sum_ratOf (q := q) fun v hv => by
    obtain ⟨n, m, e, rfl⟩ := exists_fin (h v hv).1 (h v hv).2
    exact ⟨n, m, e, rfl, hmin n m e hv⟩
  rw [foldl_add_scaled, zero_add, hsum]
  have hr := rounds_int f md (zeroSign md xs) (xs.map (scaledTo q)).sum q
  generalize (xs.map (scaledTo q)).sum = t at hr
  by_cases ht : t = 0
  · rw [if_pos ht, ht, show Int.natAbs 0 = 0 from rfl, roundFin_zero] at hr
    rw [if_pos ht, ht]
    exact ⟨_, 0, 0, rfl, by rw [roundFin_zero]; exact hr⟩
  · rw [if_neg ht] at hr
    rw [if_neg ht]
    exact ⟨_, _, _, rfl, hr⟩
theorem sumVals_nan (md : RMode) {xs : List FVal} (h : ∃ v ∈ xs, v.isNan = true) : sumVals md xs = (.nan false, flNone) := if_pos (List.any_eq_true.2 h)
theorem isInf_neg_iff (v : FVal) (g : Bool) : (v.isInf = true ∧ v.neg = g) ↔ v = .inf g := by
  cases v with
  | nan s => exact ⟨fun h => absurd h.1 Bool.false_ne_true, fun h => nomatch h⟩
  | inf n => exact ⟨fun h => congrArg FVal.inf h.2, fun h => ⟨rfl, FVal.inf.inj h⟩⟩
  | fin n m e => exact ⟨fun h => absurd h.1 Bool.false_ne_true, fun h => nomatch h⟩
/-- Infinities of one sign win; those of both are invalid. -/
theorem sumVals_inf (md : RMode) {xs : List FVal} (hn : ∀ v ∈ xs, v.isNan = false) {g : Bool} (hg : FVal.inf g ∈ xs) :
    sumVals md xs = if FVal.inf (!g) ∈ xs then (.nan false, flNV) else (.inf g, flNone) := by
  have hnan : xs.any (·.isNan) = false := List.any_eq_false.2 fun v hv => by rw [hn v hv]; decide
  have hany : (xs.any (fun x => x.isInf && x.neg) = true) ↔ FVal.inf true ∈ xs := by
    rw [List.any_eq_true]
    constructor
    · rintro ⟨v, hv, h⟩
      rwa [← (isInf_neg_iff v true).1 ((Bool.and_eq_true _ _).to_iff.1 h)]
    · exact fun h => ⟨_, h, rfl⟩
  have hany' : (xs.any (fun x => x.isInf && !x.neg) = true) ↔ FVal.inf false ∈ xs := by
    rw [List.any_eq_true]
    constructor
    · rintro ⟨v, hv, h⟩
      rw [Bool.and_eq_true, Bool.not_eq_true'] at h
      rwa [← (isInf_neg_iff v false).1 h]
    · exact fun h => ⟨_, h, rfl⟩
  have hboth : (xs.any (fun x => x.isInf && x.neg) && xs.any (fun x => x.isInf && !x.neg)) = true ↔ FVal.inf (!g) ∈ xs := by
    rw [Bool.and_eq_true, hany, hany']
    cases g with
    | true => exact ⟨fun h => h.2, fun h => ⟨hg, h⟩⟩
    | false => exact ⟨fun h => h.1, fun h => ⟨h, hg⟩⟩
  unfold sumVals
  rw [hnan, if_neg Bool.false_ne_true]
  by_cases hb : FVal.inf (!g) ∈ xs
  · rw [if_pos hb, if_pos (hboth.2 hb)]
  · rw [if_neg hb, if_neg (fun h => hb (hboth.1 h))]
    cases hf : xs.find? (·.isInf) with
    | none => exact absurd rfl (List.find?_eq_none.1 hf _ hg)
    | some v =>
      dsimp only
      have hv : v.isInf = true := List.find?_some hf
      have hmem := List.mem_of_find?_eq_some hf
      have hvn := (isInf_neg_iff v v.neg).1 ⟨hv, rfl⟩
      have : v.neg = g := by
        by_contra hne
        refine hb ?_
        rw [← Bool.eq_not.2 hne]
        rwa [← hvn]
      rw [hvn, this]
/-- Flags that a list of terms adds to others. -/
theorem foldl_or_none {qs : List (FVal × BitVec 5)} (h : ∀ q ∈ qs, q.2 = flNone) (a : BitVec 5) : qs.foldl (fun a q => a ||| q.2) a = a := by
  induction qs generalizing a with
  | nil => rfl
  | cons q qs ih =>
    rw [List.foldl_cons, ih fun r hr => h r (List.mem_cons_of_mem _ hr), h q (List.mem_cons_self ..)]
    exact BitVec.or_zero
theorem foldl_or_bit {qs : List (FVal × BitVec 5)} {i : Nat} (a : BitVec 5) (h : a.getLsbD i = true ∨ ∃ q ∈ qs, q.2.getLsbD i = true) :
    (qs.foldl (fun a q => a ||| q.2) a).getLsbD i = true := by
  induction qs generalizing a with
  | nil => exact h.resolve_right (fun ⟨_, hm, _⟩ => nomatch hm)
  | cons q qs ih =>
    refine ih _ ?_
    rw [BitVec.getLsbD_or, Bool.or_eq_true]
    rcases h with h | ⟨r, hr, h⟩
    · exact .inl (.inl h)
    · rcases List.mem_cons.1 hr with rfl | hr
      · exact .inl (.inr h)
      · exact .inr ⟨r, hr, h⟩
end Sys2Proof
end

