-- ==== Sys2Proof/Proofs/FloatArithmetic.lean ====
section
/-! SUPPORT. The arithmetic of the floating-point pipe (R143, R144, R150). -/

namespace Sys2Proof
open Machine

theorem elems_wide (x : W32) : elems .f32 (x.setWidth 64) = [x.toNat] :=
  congrArg (fun n => [n]) ((congrArg (· % 2 ^ 32) (toNat_wide x)).trans (Nat.mod_eq_of_lt x.isLt))
theorem elems_f64 (x : W64) : elems .f64 x = [x.toNat] := congrArg (fun n => [n]) (Nat.mod_eq_of_lt x.isLt)
theorem valOf_f32 (s : State) (l : Nat) (r : Reg) : valOf s .f32 l r 0 = fmt32.val (s.src s.cur.wid l r).toNat := congrArg fmt32.val (elemOf_f32 ..)
theorem valOf_f64 (s : State) (l : Nat) (r : Reg) : valOf s .f64 l r 0 = fmt64.val (s.src64 s.cur.wid l r).toNat := congrArg fmt64.val (elemOf_f64 ..)
theorem srcBF32_toNat (s : State) (l : Nat) (m : Mods) (b : Reg) : (s.srcBF32 s.cur.wid l m b).toNat =
    match m.lit with | some x => x.toNat * 8 | none => (s.src s.cur.wid l b).toNat := by
  unfold State.srcBF32
  cases m.lit with
  | none => rfl
  | some x =>
    dsimp only
    rw [BitVec.toNat_shiftLeft, BitVec.toNat_setWidth, Nat.shiftLeft_eq, Nat.mod_eq_of_lt (x.isLt.trans (by decide))]
    have := x.isLt
    omega
theorem srcBF64_toNat (s : State) (l : Nat) (m : Mods) (b : Reg) : (s.srcBF64 s.cur.wid l m b).toNat =
    match m.lit with | some x => x.toNat * 2 ^ 35 | none => (s.src64 s.cur.wid l b).toNat := by
  unfold State.srcBF64
  cases m.lit with
  | none => rfl
  | some x =>
    dsimp only
    rw [BitVec.toNat_shiftLeft, BitVec.toNat_setWidth, Nat.shiftLeft_eq, Nat.mod_eq_of_lt (x.isLt.trans (by decide))]
    have := x.isLt
    omega
section
variable {i : Instr} {s : State} {m : Mods} {d a b : Reg}
/-- One FP32 result per lane. -/
theorem lane32_such {g : Nat → W64 × BitVec 5} {r : Nat → FRes} {p : Nat → FRes → Prop} {t : Machine.Lat} (h : exec i s = laneF s m t 1 d g)
    (hg : ∀ l, g l = joinElems [r l]) (hp : ∀ l, p l (r l)) : PutsSuch i s m (t.due s.clock) .f32 d (fun l _ => p l) :=
  ⟨fun l _ => r l, laneF_puts (f := .f32) h hg, fun l _ _ => hp l⟩
theorem lane64_such {g : Nat → W64 × BitVec 5} {r : Nat → FRes} {p : Nat → FRes → Prop} {t : Machine.Lat} (h : exec i s = laneF s m t 2 d g)
    (hg : ∀ l, g l = joinElems [r l]) (hp : ∀ l, p l (r l)) : PutsSuch i s m (t.due s.clock) .f64 d (fun l _ => p l) :=
  ⟨fun l _ => r l, laneF_puts (f := .f64) h hg, fun l _ _ => hp l⟩
/-- D ← A op B in FP32. -/
theorem major32_such {g : Fmt → Nat → Nat → FRes} {p : FVal → FVal → FRes → Prop} (h : exec i s = major32 s m d a b g)
    (hp : ∀ x y, p (fmt32.val x) (fmt32.val y) (g fmt32 x y)) :
    PutsSuch i s m (vDue s .f32) .f32 d (fun l _ => p (valOf s .f32 l a 0) (fmt32.val (match m.lit with | some x => x.toNat * 8 | none => (s.src s.cur.wid l b).toNat))) := by
  refine lane32_such (r := fun l => g fmt32 (s.src s.cur.wid l a).toNat (s.srcBF32 s.cur.wid l m b).toNat) h (fun l => ?_) fun l => ?_
  · unfold op2
    rw [elems_wide, elems_wide]
    rfl
  · rw [valOf_f32]
    exact srcBF32_toNat s l m b ▸ hp _ _
theorem major64_such {g : Fmt → Nat → Nat → FRes} {p : FVal → FVal → FRes → Prop} (h : exec i s = major64 s m d a b g)
    (hp : ∀ x y, p (fmt64.val x) (fmt64.val y) (g fmt64 x y)) :
    PutsSuch i s m (vDue s .f64) .f64 d (fun l _ => p (valOf s .f64 l a 0) (fmt64.val (match m.lit with | some x => x.toNat * 2 ^ 35 | none => (s.src64 s.cur.wid l b).toNat))) := by
  refine lane64_such (r := fun l => g fmt64 (s.src64 s.cur.wid l a).toNat (s.srcBF64 s.cur.wid l m b).toNat) h (fun l => ?_) fun l => ?_
  · unfold op2
    rw [elems_f64, elems_f64]
    rfl
  · rw [valOf_f64]
    exact srcBF64_toNat s l m b ▸ hp _ _
/-- D ← D op A, the element of a result a function of the values of those of the operands. -/
theorem binary_such {f : FFmt} {t : Machine.Lat} {g : Fmt → Nat → Nat → FRes} {p : FVal → FVal → FRes → Prop} (h : exec i s = binary s m t f d a g)
    (hp : ∀ x y, p ((fmtOf f).val x) ((fmtOf f).val y) (g (fmtOf f) x y)) :
    PutsSuch i s m (t.due s.clock) f d (fun l j => p (valOf s f l d j) (valOf s f l a j)) :=
  (binary_puts h).such fun _ _ => hp _ _
theorem unary_such {f : FFmt} {t : Machine.Lat} {g : Fmt → Nat → FRes} {p : FVal → FRes → Prop} (h : exec i s = unary s m t f d a g)
    (hp : ∀ x, p ((fmtOf f).val x) (g (fmtOf f) x)) : PutsSuch i s m (t.due s.clock) f d (fun l j => p (valOf s f l a j)) :=
  (unary_puts h).such fun _ _ => hp _
theorem srcEN_eq (l : Nat) (f : FFmt) : s.srcEN s.cur.wid l m f.words = s.srcN s.cur.wid l f.words (m.eReg.getD 120) := by
  unfold State.srcEN State.srcN State.srcE64 State.srcE
  rfl
theorem fFma_eq (f : Fmt) (md : RMode) (x y z : Nat) : fFma f md x y z = finishF f md (fusedVal md (f.val x) (f.val y) (f.val z)) := rfl
theorem ffma_such (f : FFmt) : PutsSuch (.ffma m f d a) s m (vDue s f) f d
    (fun l j => FusedIs (fmtOf f) (s.rmode m .rne) (valOf s f l a j) (valOf s f l (m.eReg.getD 120) j) (valOf s f l d j)) := by
  rw [← latV_due]
  refine (laneF_puts (i := .ffma m f d a) (r := fun l j => fFma (fmtOf f) (s.rmode m .rne) (elemOf s f l a j) (elemOf s f l (m.eReg.getD 120) j) (elemOf s f l d j))
    (show exec (.ffma m f d a) s = execFfma m f d a s from rfl) fun l => ?_).such fun l j => ?_
  · unfold op3
    rw [srcEN_eq, elems_srcN, elems_srcN, elems_srcN, fmt_eq, zipWith_range, zipWith_range]
  · rw [fFma_eq]
    exact fusedVal_fusedIs ..
theorem ffmaF32_such : PutsSuch (.ffmaF32 m d a b) s m (vDue s .f32) .f32 d (fun l _ => FusedIs fmt32 (s.rmode m .rne) (valOf s .f32 l a 0)
    (fmt32.val (match m.lit with | some x => x.toNat * 8 | none => (s.src s.cur.wid l b).toNat)) (valOf s .f32 l (m.eReg.getD d) 0)) := by
  refine lane32_such (i := .ffmaF32 m d a b) (r := fun l => fFma fmt32 (s.rmode m .rne) (s.src s.cur.wid l a).toNat (s.srcBF32 s.cur.wid l m b).toNat (s.srcC s.cur.wid l m d).toNat)
    (show exec (.ffmaF32 m d a b) s = execFfmaF32 m d a b s from rfl) (fun l => ?_) fun l => ?_
  · unfold op3
    rw [elems_wide, elems_wide, elems_wide]
    rfl
  · rw [valOf_f32, valOf_f32, ← srcBF32_toNat, fFma_eq]
    exact fusedVal_fusedIs ..
theorem ffmaF64_such : PutsSuch (.ffmaF64 m d a b) s m (vDue s .f64) .f64 d (fun l _ => FusedIs fmt64 (s.rmode m .rne) (valOf s .f64 l a 0)
    (fmt64.val (match m.lit with | some x => x.toNat * 2 ^ 35 | none => (s.src64 s.cur.wid l b).toNat)) (valOf s .f64 l (m.eReg.getD d) 0)) := by
  refine lane64_such (i := .ffmaF64 m d a b) (r := fun l => fFma fmt64 (s.rmode m .rne) (s.src64 s.cur.wid l a).toNat (s.srcBF64 s.cur.wid l m b).toNat (s.srcC64 s.cur.wid l m d).toNat)
    (show exec (.ffmaF64 m d a b) s = execFfmaF64 m d a b s from rfl) (fun l => ?_) fun l => ?_
  · unfold op3
    rw [elems_f64, elems_f64, elems_f64]
    rfl
  · rw [valOf_f64, valOf_f64, ← srcBF64_toNat, fFma_eq]
    exact fusedVal_fusedIs ..
end
theorem floatArithmetic : Claims.FloatArithmetic := by
  unfold Claims.FloatArithmetic
  intro s m f d a b md w b32 b64 c e t
  have hdue := latV_due s f
  refine ⟨?_, ?_, ?_, ffmaF32_such, ?_, ?_, ffmaF64_such, ?_, ?_, ?_, ffma_such f, ?_⟩
  · exact major32_such (i := .faddF32 m d a b) (p := SumIs fmt32 md) rfl fun x y => addVal_sumIs ..
  · exact major32_such (i := .fsubF32 m d a b) (p := fun x y => SumIs fmt32 md x y.negate) rfl fun x y => addVal_sumIs ..
  · exact major32_such (i := .fmulF32 m d a b) (p := ProductIs fmt32 md) rfl fun x y => mulVal_productIs ..
  · exact major64_such (i := .faddF64 m d a b) (p := SumIs fmt64 md) rfl fun x y => addVal_sumIs ..
  · exact major64_such (i := .fmulF64 m d a b) (p := ProductIs fmt64 md) rfl fun x y => mulVal_productIs ..
  · exact hdue ▸ binary_such (i := .fadd m f d a) (p := SumIs t md) rfl fun x y => addVal_sumIs ..
  · exact hdue ▸ binary_such (i := .fsub m f d a) (p := fun x y => SumIs t md x y.negate) rfl fun x y => addVal_sumIs ..
  · exact hdue ▸ binary_such (i := .fmul m f d a) (p := ProductIs t md) rfl fun x y => mulVal_productIs ..
  · exact binary_such (i := .fdiv m f d a) (t := .owed) (p := QuotientIs t md) rfl fun x y => divVal_quotientIs ..
end Sys2Proof
end

