-- ==== Sys2Proof/Proofs/PackedDot.lean ====
section
/-! SUPPORT. The packed dot product (R150), and what settles O8. -/

namespace Sys2Proof
open Machine

/-- The sum of a value and two products, rounded once to FP32. -/
def dotOf (md : RMode) (q x0 y0 x1 y1 : FVal) : FRes := finishF fmt32 md (sumProducts md [q] [(x0, y0), (x1, y1)])
/-- An infinity times a zero. -/
def Invalid (x y : FVal) : Prop := (x.isInf = true ∧ y.isZero = true) ∨ (x.isZero = true ∧ y.isInf = true)
theorem invalid_iff (x y : FVal) : ((x.isInf && y.isZero) || (x.isZero && y.isInf)) = true ↔ Invalid x y := by
  rw [Bool.or_eq_true, Bool.and_eq_true, Bool.and_eq_true]
  rfl
theorem no_flags : flNone ||| nvIf false ||| flNone ||| flNone = flNone := by decide
theorem joinElems_one (r : FRes) : joinElems [r] = (BitVec.ofNat 64 r.1, r.2) := congrArg (Prod.mk _) BitVec.zero_or
theorem isSig_of_not_nan {v : FVal} (h : v.isNan = false) : v.isSig = false := by
  cases v with
  | nan g => exact absurd h (by simp [FVal.isNan])
  | inf g => rfl
  | fin g n e => rfl
section
variable (md : RMode) (q x0 y0 x1 y1 : FVal)
theorem dotOf_eq : dotOf md q x0 y0 x1 y1 = finishF fmt32 md ((sumVals md [q, (mulVal x0 y0).1, (mulVal x1 y1).1]).1,
    (sumVals md [q, (mulVal x0 y0).1, (mulVal x1 y1).1]).2 ||| sigFlag [q] ||| (mulVal x0 y0).2 ||| (mulVal x1 y1).2) := rfl
theorem dotOf_of_nan (h : ∃ v ∈ [q, (mulVal x0 y0).1, (mulVal x1 y1).1], v.isNan = true) :
    dotOf md q x0 y0 x1 y1 = (fmt32.nan, flNone ||| sigFlag [q] ||| (mulVal x0 y0).2 ||| (mulVal x1 y1).2) := by
  rw [dotOf_eq, sumVals_nan md h]
  exact finishF_nan fmt32 md false _
theorem dotOf_fin (hq : q.isNan = false ∧ q.isInf = false) (h0 : (x0.isNan = false ∧ x0.isInf = false) ∧ y0.isNan = false ∧ y0.isInf = false)
    (h1 : (x1.isNan = false ∧ x1.isInf = false) ∧ y1.isNan = false ∧ y1.isInf = false) :
    Rounds fmt32 md (ratOf q + ratOf x0 * ratOf y0 + ratOf x1 * ratOf y1)
      (if (q.isZero && (x0.isZero || y0.isZero) && (x1.isZero || y1.isZero)) && [q.neg, x0.neg ^^ y0.neg, x1.neg ^^ y1.neg].all id then true
       else if (q.isZero && (x0.isZero || y0.isZero) && (x1.isZero || y1.isZero)) && [q.neg, x0.neg ^^ y0.neg, x1.neg ^^ y1.neg].all (!·) then false else md == .rdn)
      (dotOf md q x0 y0 x1 y1) := by
  obtain ⟨a, m, e, rfl⟩ := exists_fin hq.1 hq.2
  obtain ⟨a0, m0, e0, rfl⟩ := exists_fin h0.1.1 h0.1.2
  obtain ⟨b0, n0, g0, rfl⟩ := exists_fin h0.2.1 h0.2.2
  obtain ⟨a1, m1, e1, rfl⟩ := exists_fin h1.1.1 h1.1.2
  obtain ⟨b1, n1, g1, rfl⟩ := exists_fin h1.2.1 h1.2.2
  rw [dotOf_eq, mulVal_fin, mulVal_fin, ratOf_mul, ratOf_mul]
  obtain ⟨z, k, c, hs, hr⟩ := sumVals_fin fmt32 md (xs := [.fin a m e, .fin (a0 ^^ b0) (m0 * n0) (e0 + g0), .fin (a1 ^^ b1) (m1 * n1) (e1 + g1)])
    (by simp [FVal.isNan, FVal.isInf])
  rw [hs]
  dsimp only
  rw [sigFlag_one, isSig_of_not_nan hq.1, no_flags, finishF_fin]
  have hsum : ([FVal.fin a m e, .fin (a0 ^^ b0) (m0 * n0) (e0 + g0), .fin (a1 ^^ b1) (m1 * n1) (e1 + g1)].map ratOf).sum =
      ratOf (.fin a m e) + ratOf (.fin (a0 ^^ b0) (m0 * n0) (e0 + g0)) + ratOf (.fin (a1 ^^ b1) (m1 * n1) (e1 + g1)) := by
    simp [add_assoc]
  have hmul : ∀ x y : Nat, (x * y == 0) = ((x == 0) || (y == 0)) := fun x y => Bool.eq_iff_iff.2 (by simp)
  have hz : zeroSign md [FVal.fin a m e, .fin (a0 ^^ b0) (m0 * n0) (e0 + g0), .fin (a1 ^^ b1) (m1 * n1) (e1 + g1)] =
      (if (((m == 0) && ((m0 == 0) || (n0 == 0)) && ((m1 == 0) || (n1 == 0))) && [a, a0 ^^ b0, a1 ^^ b1].all id) = true then true
       else if (((m == 0) && ((m0 == 0) || (n0 == 0)) && ((m1 == 0) || (n1 == 0))) && [a, a0 ^^ b0, a1 ^^ b1].all (!·)) = true then false else md == .rdn) := by
    have hall : [FVal.fin a m e, .fin (a0 ^^ b0) (m0 * n0) (e0 + g0), .fin (a1 ^^ b1) (m1 * n1) (e1 + g1)].all (·.isZero) =
        ((m == 0) && ((m0 == 0) || (n0 == 0)) && ((m1 == 0) || (n1 == 0))) := by
      rw [← hmul, ← hmul]
      exact (congrArg ((m == 0) && ·) (congrArg (((m0 * n0) == 0) && ·) (Bool.and_true _))).trans (Bool.and_assoc ..).symm
    unfold zeroSign
    rw [hall]
    rfl
  rw [← hsum]
  exact hz ▸ hr
theorem dotOf_nan (h : q.isNan = true ∨ (x0.isNan = true ∨ y0.isNan = true) ∨ (x1.isNan = true ∨ y1.isNan = true)) : (dotOf md q x0 y0 x1 y1).1 = fmt32.nan := by
  have hm : ∀ {x y : FVal}, x.isNan = true ∨ y.isNan = true → (mulVal x y).1.isNan = true := fun h => by
    rw [mulVal_nan ((Bool.or_eq_true _ _).to_iff.2 h)]
    rfl
  refine congrArg Prod.fst (dotOf_of_nan md q x0 y0 x1 y1 ?_)
  rcases h with h | h | h
  · exact ⟨_, .head _, h⟩
  · exact ⟨_, .tail _ (.head _), hm h⟩
  · exact ⟨_, .tail _ (.tail _ (.head _)), hm h⟩
theorem dotOf_invalid (h : Invalid x0 y0 ∨ Invalid x1 y1) : (dotOf md q x0 y0 x1 y1).1 = fmt32.nan ∧ (dotOf md q x0 y0 x1 y1).2.getLsbD 0 = true := by
  have hm : ∀ {x y : FVal}, Invalid x y → mulVal x y = (.nan false, flNV) := fun h => mulVal_invalid ((invalid_iff _ _).2 h)
  rw [dotOf_of_nan]
  · refine ⟨rfl, ?_⟩
    rw [BitVec.getLsbD_or, BitVec.getLsbD_or, Bool.or_eq_true, Bool.or_eq_true]
    rcases h with h | h
    · exact .inl (.inr (congrArg (fun r => r.2.getLsbD 0) (hm h)))
    · exact .inr (congrArg (fun r => r.2.getLsbD 0) (hm h))
  · rcases h with h | h
    · exact ⟨_, .tail _ (.head _), congrArg (fun r => r.1.isNan) (hm h)⟩
    · exact ⟨_, .tail _ (.tail _ (.head _)), congrArg (fun r => r.1.isNan) (hm h)⟩
/-- A product that is valid: an infinity where an operand is one, else a number. -/
theorem mulVal_valid {x y : FVal} (hn : x.isNan = false ∧ y.isNan = false) (hv : ¬ Invalid x y) :
    (mulVal x y).2 = flNone ∧ (mulVal x y).1.isNan = false ∧ ∀ g, FVal.inf g = (mulVal x y).1 ↔ (x.isInf || y.isInf) = true ∧ g = (x.neg ^^ y.neg) := by
  by_cases hi : (x.isInf || y.isInf) = true
  · rw [mulVal_inf (Bool.or_eq_false_iff.2 hn) (Bool.eq_false_iff.2 (fun h => hv ((invalid_iff _ _).1 h))) hi]
    exact ⟨rfl, rfl, fun g => ⟨fun h => ⟨hi, FVal.inf.inj h⟩, fun h => congrArg FVal.inf h.2⟩⟩
  · have h := Bool.or_eq_false_iff.1 (Bool.eq_false_iff.2 hi)
    obtain ⟨a, m, e, rfl⟩ := exists_fin hn.1 h.1
    obtain ⟨b, n, g, rfl⟩ := exists_fin hn.2 h.2
    rw [mulVal_fin]
    exact ⟨rfl, rfl, fun g => ⟨nofun, fun h => absurd h.1 Bool.false_ne_true⟩⟩
/-- Infinities of one sign win; those of both are invalid. -/
theorem dotOf_inf {signs : List Bool} (hq : q.isNan = false) (h0 : x0.isNan = false ∧ y0.isNan = false) (h1 : x1.isNan = false ∧ y1.isNan = false)
    (hv0 : ¬ Invalid x0 y0) (hv1 : ¬ Invalid x1 y1)
    (hs : ∀ g, g ∈ signs ↔ (q.isInf = true ∧ g = q.neg) ∨ ((x0.isInf || y0.isInf) = true ∧ g = (x0.neg ^^ y0.neg)) ∨ ((x1.isInf || y1.isInf) = true ∧ g = (x1.neg ^^ y1.neg)))
    {g : Bool} (hg : g ∈ signs) : dotOf md q x0 y0 x1 y1 = if (!g) ∈ signs then nanResult fmt32 true else (infBitsOf fmt32 g, 0) := by
  obtain ⟨f0, n0, i0⟩ := mulVal_valid h0 hv0
  obtain ⟨f1, n1, i1⟩ := mulVal_valid h1 hv1
  have hmem : ∀ g, FVal.inf g ∈ [q, (mulVal x0 y0).1, (mulVal x1 y1).1] ↔ g ∈ signs := fun g => by
    rw [List.mem_cons, List.mem_cons, List.mem_singleton, i0, i1, hs, eq_comm (a := FVal.inf g), ← isInf_neg_iff, eq_comm (a := q.neg)]
  have hnan : ∀ v ∈ [q, (mulVal x0 y0).1, (mulVal x1 y1).1], v.isNan = false := by
    intro v hv
    rw [List.mem_cons, List.mem_cons, List.mem_singleton] at hv
    rcases hv with rfl | rfl | rfl
    · exact hq
    · exact n0
    · exact n1
  rw [dotOf_eq, sumVals_inf md hnan ((hmem g).2 hg), if_congr (hmem (!g)) rfl rfl, f0, f1, sigFlag_one, isSig_of_not_nan hq]
  by_cases h : (!g) ∈ signs
  · rw [if_pos h, if_pos h]
    exact finishF_nan fmt32 md false _
  · rw [if_neg h, if_neg h]
    exact (congrArg (fun fl => finishF fmt32 md (.inf g, fl)) no_flags).trans (finishF_inf fmt32 md g 0)
end
theorem packedDotProduct : Claims.PackedDotProduct := by
  unfold Claims.PackedDotProduct
  intro s m f d a hf md e q x y finite
  have hw : f.words = 1 := by
    cases f with
    | f64 => exact absurd hf (by decide)
    | f32 => rfl
    | f16 => rfl
    | bf16 => rfl
    | f16x2 => rfl
    | bf16x2 => rfl
  have hel : ∀ l r, elems f ((s.src s.cur.wid l r).setWidth 64) = [elemOf s f l r 0, elemOf s f l r 1] := fun l r => by
    have h := elems_srcN s f l r
    rw [hw, hf] at h
    exact h
  refine lane32_such (i := .fdot2 m f d a) (r := fun l => dotOf md (q l) (x l 0) (y l 0) (x l 1) (y l 1)) (t := .fixed 4)
    (show exec (.fdot2 m f d a) s = execFdot2 m f d a s from rfl) (fun l => ?_) fun l => ?_
  · rw [hel, show s.srcE s.cur.wid l m = s.src s.cur.wid l e from rfl, hel, fmt_eq]
    exact (joinElems_one _).symm
  · refine ⟨fun hq h => dotOf_fin _ _ _ _ _ _ hq (h 0) (h 1), fun h => dotOf_nan _ _ _ _ _ _ ?_, fun h => dotOf_invalid _ _ _ _ _ _ ?_, fun hq hn hv g hg =>
      dotOf_inf md (q l) (x l 0) (y l 0) (x l 1) (y l 1) hq (hn 0) (hn 1) (hv 0) (hv 1) (fun g => ?_) hg⟩
    · refine h.imp_right fun ⟨j, hj, h⟩ => ?_
      obtain rfl | rfl : j = 0 ∨ j = 1 := by omega
      · exact .inl h
      · exact .inr h
    · obtain ⟨j, hj, h⟩ := h
      obtain rfl | rfl : j = 0 ∨ j = 1 := by omega
      · exact .inl h
      · exact .inr h
    · have hone : g ∈ (if (q l).isInf = true then [(q l).neg] else []) ↔ (q l).isInf = true ∧ g = (q l).neg := by
        split
        · next h => exact List.mem_singleton.trans ⟨fun hg => ⟨h, hg⟩, fun hg => hg.2⟩
        · next h => exact ⟨nofun, fun hg => absurd hg.1 h⟩
      rw [List.mem_append, hone, List.mem_map]
      refine or_congr_right ⟨?_, ?_⟩
      · rintro ⟨j, hj, rfl⟩
        obtain ⟨hj, hi⟩ := List.mem_filter.1 hj
        rw [List.mem_cons, List.mem_singleton] at hj
        rcases hj with rfl | rfl
        · exact .inl ⟨hi, rfl⟩
        · exact .inr ⟨hi, rfl⟩
      · rintro (⟨hi, rfl⟩ | ⟨hi, rfl⟩)
        · exact ⟨0, List.mem_filter.2 ⟨.head _, hi⟩, rfl⟩
        · exact ⟨1, List.mem_filter.2 ⟨.tail _ (.head _), hi⟩, rfl⟩
/-- Settles O8: each sum of the arithmetic is the exact sum, product or quotient of `ExactValues` rounded once, and the packed
dot product is the exact sum of its three terms. -/
theorem floatSums : Obligations.FloatSums := ⟨floatArithmetic, packedDotProduct⟩
end Sys2Proof
end

