-- ==== Sys2Proof/Proofs/ExactNumbers.lean ====
section
/-! SUPPORT. A number that a format has is rounded to itself (R49). -/

namespace Sys2Proof
open Machine

/-! ### The sizes that a format has -/

/-- A size of a number of the format: fewer than `2^(fb+1)` units of a place that it has. -/
def IsSize (f : Fmt) (y : ℚ) : Prop :=
  ∃ (j : Nat) (q : Int), j < 2 ^ (f.fb + 1) ∧ f.qmin ≤ q ∧ q ≤ f.bias - f.fb ∧ y = j * (2 : ℚ) ^ q
section
variable {f : Fmt}
theorem IsSize.nonneg {y : ℚ} (h : IsSize f y) : 0 ≤ y := by
  obtain ⟨j, q, -, -, -, rfl⟩ := h
  positivity
theorem IsSize.lt {y : ℚ} (h : IsSize f y) : y < (2 : ℚ) ^ (f.bias + 1) := by
  obtain ⟨j, q, hj, -, hq, rfl⟩ := h
  have hj' : (j : ℚ) < ((2 ^ (f.fb + 1) : Nat) : ℚ) := by exact_mod_cast hj
  calc (j : ℚ) * (2 : ℚ) ^ q < ((2 ^ (f.fb + 1) : Nat) : ℚ) * (2 : ℚ) ^ q := mul_lt_mul_of_pos_right hj' (by positivity)
    _ = (2 : ℚ) ^ (((f.fb + 1 : Nat) : Int) + q) := (zpow_nat_mul ..).symm
    _ ≤ (2 : ℚ) ^ (f.bias + 1) := zpow_le_zpow_right₀ one_le_two (by push_cast; omega)
/-- A size is a whole number of units of the place of its rounding. -/
theorem IsSize.whole {y : ℚ} (h : IsSize f y) {n : Nat} (hn : n = 0 ∨ ((2 ^ f.fb : Nat) : ℚ) * (2 : ℚ) ^ (f.qmin + n) ≤ y) :
    ∃ i : Nat, y = i * (2 : ℚ) ^ (f.qmin + n) := by
  obtain ⟨j, q, hj, hq, -, rfl⟩ := h
  have hj' : (j : ℚ) < ((2 ^ (f.fb + 1) : Nat) : ℚ) := by exact_mod_cast hj
  have hle : f.qmin + n ≤ q := by
    rcases hn with rfl | hn
    · simpa using hq
    · have hlt : ((2 ^ f.fb : Nat) : ℚ) * (2 : ℚ) ^ (f.qmin + n) < ((2 ^ (f.fb + 1) : Nat) : ℚ) * (2 : ℚ) ^ q :=
        lt_of_le_of_lt hn (mul_lt_mul_of_pos_right hj' (by positivity))
      rw [← zpow_nat_mul, ← zpow_nat_mul, zpow_lt_zpow_iff_right₀ one_lt_two] at hlt
      push_cast at hlt
      omega
  refine ⟨j * 2 ^ (q - (f.qmin + n)).toNat, ?_⟩
  rw [show q = ((q - (f.qmin + n)).toNat : Int) + (f.qmin + n) by omega, zpow_nat_mul]
  push_cast
  rw [mul_assoc]
  congr 3
  omega
/-- A whole number is rounded to itself. -/
theorem RoundsSize.whole {md : RMode} {neg : Bool} {i k : Nat} (h : RoundsSize md neg (i : ℚ) k) : k = i := by
  have h1 := h.le_of_le le_rfl
  have h2 := h.ge_of_ge le_rfl
  omega
theorem val_isSize (hf : FineFmt f) {b : Nat} {neg : Bool} {m : Nat} {e : Int} (h : f.val b = .fin neg m e) : IsSize f (m * (2 : ℚ) ^ e) := by
  have hE := expMax_eq hf
  have hE3 := three_le_expMax hf
  have hfr : b % 2 ^ f.fb < 2 ^ f.fb := Nat.mod_lt _ (Nat.two_pow_pos _)
  have hex : b / 2 ^ f.fb % 2 ^ f.eb < f.expMax + 1 := by
    have := Nat.mod_lt (b / 2 ^ f.fb) (Nat.two_pow_pos f.eb)
    unfold Fmt.expMax
    omega
  have hpow : 2 ^ (f.fb + 1) = 2 * 2 ^ f.fb := pow_succ' ..
  have hq : f.qmin = 1 - f.bias - f.fb := rfl
  unfold Fmt.val at h
  dsimp only at h
  generalize b / 2 ^ f.fb % 2 ^ f.eb = ex at h hex
  split at h
  · split at h <;> exact nomatch h
  · next hne =>
    split at h
    · cases h
      exact ⟨_, _, by omega, le_rfl, by omega, rfl⟩
    · cases h
      exact ⟨_, _, by omega, by omega, by omega, rfl⟩
section
variable {md : RMode} {neg : Bool} {y : ℚ} {n k : Nat} {x : ℚ} {cut tiny : Bool} (hf : FineFmt f) (h : RoundedTo f md neg y n k x cut tiny)
include hf h
theorem RoundedTo.exact_of_isSize (hy : IsSize f y) : (k : ℚ) = x ∧ ¬ f.infBits ≤ n * 2 ^ f.fb + k := by
  have hu : (0 : ℚ) < (2 : ℚ) ^ (f.qmin + n) := by positivity
  obtain ⟨i, hi⟩ := hy.whole (n := n) (h.low.imp_right fun hl => by
    rw [h.size]
    exact mul_le_mul_of_nonneg_right hl hu.le)
  have hx : x = i := mul_right_cancel₀ hu.ne' (h.size.symm.trans hi)
  have hk : k = i := RoundsSize.whole (hx ▸ h.rounds)
  refine ⟨by rw [hk, hx], fun hb => ?_⟩
  have hlt := hy.lt
  rw [hi, ← hk] at hlt
  have hE := expMax_eq hf
  have hE3 := three_le_expMax hf
  have hkl : k < 2 ^ (f.fb + 1) := by
    have := h.high
    rw [hx, ← hk] at this
    exact_mod_cast this
  have hinf : f.infBits = f.expMax * 2 ^ f.fb := rfl
  obtain ⟨N, hN⟩ : ∃ N, f.expMax = N + 2 := ⟨f.expMax - 2, by omega⟩
  rw [hN, Nat.add_mul] at hinf
  have hB := Nat.two_pow_pos f.fb
  have hpow : 2 ^ (f.fb + 1) = 2 * 2 ^ f.fb := pow_succ' ..
  have hn : N < n := by
    by_contra hle
    have := Nat.mul_le_mul_right (2 ^ f.fb) (Nat.not_lt.1 hle)
    omega
  have hkb : ((2 ^ f.fb : Nat) : ℚ) ≤ k := by
    rw [hk, ← hx]
    exact h.low.resolve_left (by omega)
  refine absurd hlt (not_lt.2 ?_)
  calc (2 : ℚ) ^ (f.bias + 1) ≤ (2 : ℚ) ^ ((f.fb : Int) + (f.qmin + n)) := zpow_le_zpow_right₀ one_le_two (by unfold Fmt.qmin; omega)
    _ = ((2 ^ f.fb : Nat) : ℚ) * (2 : ℚ) ^ (f.qmin + n) := zpow_nat_mul ..
    _ ≤ k * (2 : ℚ) ^ (f.qmin + n) := mul_le_mul_of_nonneg_right hkb hu.le
end
theorem sign_val_zero (hf : FineFmt f) (neg : Bool) : f.val (f.sign neg) = .fin neg 0 f.qmin := by
  have h := val_fields hf neg (ex := 0) (fr := 0) (Nat.two_pow_pos _) (Nat.two_pow_pos _)
  have := three_le_expMax hf
  rw [if_neg (by omega), if_pos rfl, zero_mul] at h
  exact h
/-- A number of the format is rounded to itself, with no flag. -/
theorem roundFin_exact (hf : FineFmt f) (md : RMode) (neg : Bool) {m : Nat} {e : Int} (hy : IsSize f (m * (2 : ℚ) ^ e)) :
    ∃ (m' : Nat) (e' : Int), f.val (roundFin f md neg m e).1 = .fin neg m' e' ∧ (m' : ℚ) * (2 : ℚ) ^ e' = m * (2 : ℚ) ^ e ∧ (roundFin f md neg m e).2 = 0 := by
  by_cases hm : m = 0
  · subst hm
    rw [roundFin_zero]
    exact ⟨0, _, sign_val_zero hf neg, by simp, rfl⟩
  · obtain ⟨n, k, x, cut, tiny, h, hres⟩ := roundFin_rounded f md neg hm e
    obtain ⟨hx, hb⟩ := h.exact_of_isSize hf hy
    have hcut : ¬ cut = true := fun hc => h.cut.1 hc hx
    obtain ⟨m', e', hv, hme⟩ := h.value hf hb
    rw [hres]
    unfold resultOf
    rw [if_neg hb, if_neg hcut]
    exact ⟨m', e', hv, by rw [hme, hx, h.size], rfl⟩
end

/-! ### Formats with room for their own exponents -/

/-- A format whose integers of `fb + 1` bits, and whose significands, are numbers of it, its exponents among them. -/
structure RoomyFmt (f : Fmt) : Prop extends FineFmt f where
  wide : (f.fb : Int) ≤ f.bias
  exps : f.bias + f.fb < ((2 ^ (f.fb + 1) : Nat) : Int)
theorem roomy_fmtOf (f : FFmt) : RoomyFmt (fmtOf f) := by
  cases f with
  | f32 => exact ⟨fine_fmt32, by decide, by decide⟩
  | f64 => exact ⟨fine_fmt64, by decide, by decide⟩
  | f16 => exact ⟨fine_fmt16, by decide, by decide⟩
  | bf16 => exact ⟨fine_fmtB16, by decide, by decide⟩
  | f16x2 => exact ⟨fine_fmt16, by decide, by decide⟩
  | bf16x2 => exact ⟨fine_fmtB16, by decide, by decide⟩
section
variable {f : Fmt} (hf : RoomyFmt f)
include hf
theorem one_le_bias : 1 ≤ f.bias := by
  have h1 := hf.wide
  have h2 := hf.fb
  omega
theorem isSize_nat {k : Nat} (hk : k < 2 ^ (f.fb + 1)) : IsSize f k := by
  have := one_le_bias hf
  have := hf.wide
  exact ⟨k, 0, hk, by unfold Fmt.qmin; omega, by omega, by simp⟩
end
end Sys2Proof
end

