-- ==== Sys2Proof/Proofs/FloatChoices.lean ====
section
/-! SUPPORT. Orders of numbers, minimum and maximum, signs and classes, comparisons (R52, R145, R147, R148). -/

namespace Sys2Proof
open Machine

/-! ### Orders of numbers -/

theorem scaledTo_lt (a b : Bool) (m n : Nat) (e g : Int) :
    scaledTo (min e g) (.fin a m e) < scaledTo (min e g) (.fin b n g) ↔ ratOf (.fin a m e) < ratOf (.fin b n g) := by
  rw [ratOf_scaledTo (min_le_left e g), ratOf_scaledTo (min_le_right e g), mul_lt_mul_iff_left₀ (by positivity), Int.cast_lt]
theorem ltVal_less (x y : FVal) : ltVal false x y = true ↔ Less x y := by
  cases x with
  | nan s => exact iff_of_false Bool.false_ne_true (fun h => h)
  | inf a =>
    cases y with
    | nan s => exact iff_of_false Bool.false_ne_true (fun h => h)
    | inf b => exact (Bool.and_eq_true _ _).to_iff.trans (and_congr_right fun _ => (Bool.not_eq_true' b).to_iff)
    | fin b n g => exact Iff.rfl
  | fin a m e =>
    cases y with
    | nan s => exact iff_of_false Bool.false_ne_true (fun h => h)
    | inf b => exact (Bool.not_eq_true' b).to_iff
    | fin b n g =>
      show (decide _ || _) = true ↔ ratOf _ < ratOf _
      rw [Bool.false_and, Bool.false_and, Bool.false_and, Bool.false_and, Bool.or_false, decide_eq_true_iff]
      exact scaledTo_lt ..
theorem ltVal_below (x y : FVal) : ltVal true x y = true ↔ Below x y := by
  cases x with
  | nan s => exact iff_of_false Bool.false_ne_true (fun h => h)
  | inf a =>
    cases y with
    | nan s => exact iff_of_false Bool.false_ne_true (fun h => h)
    | inf b => exact (Bool.and_eq_true _ _).to_iff.trans (and_congr_right fun _ => (Bool.not_eq_true' b).to_iff)
    | fin b n g => exact Iff.rfl
  | fin a m e =>
    cases y with
    | nan s => exact iff_of_false Bool.false_ne_true (fun h => h)
    | inf b => exact (Bool.not_eq_true' b).to_iff
    | fin b n g =>
      show (decide (scaledTo (min e g) (.fin a m e) < scaledTo (min e g) (.fin b n g)) || (true && m == 0 && n == 0 && a && !b)) = true ↔
        ratOf (.fin a m e) < ratOf (.fin b n g) ∨ (m = 0 ∧ n = 0 ∧ a = true ∧ b = false)
      rw [Bool.or_eq_true, decide_eq_true_iff, scaledTo_lt]
      simp [and_assoc]
theorem eqVal_same (x y : FVal) : eqVal x y = true ↔ Same x y := by
  unfold eqVal Same
  rw [Bool.and_eq_true, Bool.and_eq_true, Bool.and_eq_true, Bool.not_eq_true', Bool.not_eq_true', Bool.not_eq_true', Bool.not_eq_true',
    ← Bool.not_eq_true (ltVal false x y), ← Bool.not_eq_true (ltVal false y x), ltVal_less, ltVal_less, and_assoc, and_assoc]
theorem ratOf_zero (a : Bool) (e : Int) : ratOf (.fin a 0 e) = 0 := by
  rw [ratOf_fin, Nat.cast_zero, zero_mul, mul_zero]
theorem Below.asymm {x y : FVal} (h : Below x y) : ¬ Below y x := by
  cases x with
  | nan s => exact h.elim
  | inf a =>
    cases y with
    | nan s => exact h.elim
    | inf b => exact fun h' => absurd h.2 (by rw [h'.1]; decide)
    | fin b n g => exact fun h' : a = false => Bool.false_ne_true (h'.symm.trans h)
  | fin a m e =>
    cases y with
    | nan s => exact h.elim
    | inf b => exact fun h' : b = true => Bool.false_ne_true ((h : b = false).symm.trans h')
    | fin b n g =>
      rintro (h' | ⟨rfl, rfl, hb, ha⟩)
      · rcases h with h | ⟨rfl, rfl, -, -⟩
        · exact lt_asymm h h'
        · rw [ratOf_zero, ratOf_zero] at h'
          exact lt_irrefl _ h'
      · rcases h with h | ⟨-, -, -, hb'⟩
        · rw [ratOf_zero, ratOf_zero] at h
          exact lt_irrefl _ h
        · exact absurd (hb'.symm.trans hb) Bool.false_ne_true
theorem below_irrefl (x : FVal) : ¬ Below x x := fun h => h.asymm h

/-! ### Minimum and maximum -/

/-- What a choice between two numbers gives: a NaN is taken as missing. -/
def Picks (t : Fmt) (less : FVal → FVal → Prop) (x y : Nat) (r : FRes) : Prop :=
  r.2 = nvIf ((t.val x).isSig || (t.val y).isSig) ∧
  ((t.val x).isNan → (t.val y).isNan → r.1 = t.nan) ∧
  ((t.val x).isNan → (t.val y).isNan = false → r.1 = y) ∧
  ((t.val x).isNan = false → (t.val y).isNan → r.1 = x) ∧
  ((t.val x).isNan = false → (t.val y).isNan = false → (r.1 = x ∨ r.1 = y) ∧ ¬ less (t.val x) (t.val r.1) ∧ ¬ less (t.val y) (t.val r.1))
/-- The value that `fMinMax` picks from two. -/
def pickOf (t : Fmt) (x y : Nat) (second : Bool) : Nat :=
  if (t.val x).isNan then (if (t.val y).isNan then t.nan else y) else if (t.val y).isNan then x else if second then y else x
theorem pickOf_picks {t : Fmt} {less : FVal → FVal → Prop} {x y : Nat} {second : Bool} (hasymm : ∀ {u v}, less u v → ¬ less v u)
    (h : second = true ↔ less (t.val y) (t.val x)) : Picks t less x y (pickOf t x y second, sigFlag [t.val x, t.val y]) := by
  have hirr : ∀ u, ¬ less u u := fun u hu => hasymm hu hu
  unfold pickOf
  refine ⟨sigFlag_two .., fun h1 h2 => ?_, fun h1 h2 => ?_, fun h1 h2 => ?_, fun h1 h2 => ?_⟩
  · exact (if_pos h1).trans (if_pos h2)
  · exact (if_pos h1).trans (if_neg (by rw [h2]; exact Bool.false_ne_true))
  · exact (if_neg (by rw [h1]; exact Bool.false_ne_true)).trans (if_pos h2)
  · dsimp only
    rw [if_neg (by rw [h1]; exact Bool.false_ne_true), if_neg (by rw [h2]; exact Bool.false_ne_true)]
    split
    · next hs => exact ⟨.inr rfl, hasymm (h.1 hs), hirr _⟩
    · next hs => exact ⟨.inl rfl, hirr _, fun hl => hs (h.2 hl)⟩
theorem fMinMax_min (t : Fmt) (x y : Nat) : Picks t Below x y (fMinMax t false x y) := pickOf_picks Below.asymm (ltVal_below ..)
theorem fMinMax_max (t : Fmt) (x y : Nat) : Picks t (fun u v => Below v u) x y (fMinMax t true x y) :=
  pickOf_picks (fun h => Below.asymm h) (ltVal_below ..)

/-! ### Signs -/

section
variable {t : Fmt} {x y : Nat}
theorem withSign_zero (t : Fmt) (x : Nat) : withSign t x 0 = x % 2 ^ (t.bits - 1) := by
  show x % 2 ^ (t.eb + t.fb) + 0 % 2 * 2 ^ (t.eb + t.fb) = _
  rw [Nat.zero_mod, zero_mul]
  rfl
theorem signBit_lt (h : y < 2 ^ t.bits) : y / 2 ^ (t.eb + t.fb) < 2 := Nat.div_lt_of_lt_mul (by rw [← pow_succ]; exact h)
theorem withSign_negated (h : y < 2 ^ t.bits) : withSign t y (1 - signBit t y) = if y < 2 ^ (t.bits - 1) then y + 2 ^ (t.bits - 1) else y - 2 ^ (t.bits - 1) := by
  show y % 2 ^ (t.eb + t.fb) + (1 - y / 2 ^ (t.eb + t.fb) % 2) % 2 * 2 ^ (t.eb + t.fb) = if y < 2 ^ (t.eb + t.fb) then y + 2 ^ (t.eb + t.fb) else y - 2 ^ (t.eb + t.fb)
  have hs := signBit_lt h
  have hdm := Nat.div_add_mod y (2 ^ (t.eb + t.fb))
  have hp := Nat.two_pow_pos (t.eb + t.fb)
  split
  · next hl => rw [Nat.mod_eq_of_lt hl, Nat.div_eq_of_lt hl, Nat.zero_mod, Nat.sub_zero, show 1 % 2 = 1 from rfl, one_mul]
  · next hl =>
    have h1 : y / 2 ^ (t.eb + t.fb) = 1 := by
      have := Nat.div_pos (Nat.not_lt.1 hl) hp
      omega
    rw [h1] at hdm ⊢
    rw [mul_one] at hdm
    rw [show (1 - 1 % 2) % 2 = 0 from rfl, zero_mul]
    omega
theorem withSign_copied (h : y < 2 ^ t.bits) : withSign t x (signBit t y) = x % 2 ^ (t.bits - 1) + y / 2 ^ (t.bits - 1) * 2 ^ (t.bits - 1) := by
  show x % 2 ^ (t.eb + t.fb) + y / 2 ^ (t.eb + t.fb) % 2 % 2 * 2 ^ (t.eb + t.fb) = _
  rw [Nat.mod_mod, Nat.mod_eq_of_lt (signBit_lt h)]
  rfl

/-! ### Classes -/

/-- The class of a value, from the fields of its bits (R148). -/
def classOf (t : Fmt) (y : Nat) : Nat :=
  let ex := y / 2 ^ t.fb % 2 ^ t.eb
  let fr := y % 2 ^ t.fb
  let neg := decide (2 ^ (t.bits - 1) ≤ y)
  if ex = 2 ^ t.eb - 1 then (if fr = 0 then (if neg then 0 else 7) else if fr < 2 ^ (t.fb - 1) then 8 else 9)
  else if ex = 0 then (if fr = 0 then (if neg then 3 else 4) else (if neg then 2 else 5))
  else (if neg then 1 else 6)
theorem fClass_eq (h : y < 2 ^ t.bits) : fClass t y = classOf t y := by
  have hfr : y % 2 ^ t.fb < 2 ^ t.fb := Nat.mod_lt _ (Nat.two_pow_pos _)
  have hneg : (y / 2 ^ (t.eb + t.fb) % 2 == 1) = decide (2 ^ (t.bits - 1) ≤ y) := by
    rw [Nat.mod_eq_of_lt (signBit_lt h)]
    refine Bool.eq_iff_iff.2 ?_
    rw [beq_iff_eq, decide_eq_true_iff]
    have hs := signBit_lt h
    show y / 2 ^ (t.eb + t.fb) = 1 ↔ 2 ^ (t.eb + t.fb) ≤ y
    rw [← Nat.one_le_div_iff (Nat.two_pow_pos _)]
    omega
  have hsig : (y % 2 ^ t.fb / 2 ^ (t.fb - 1) == 0) = decide (y % 2 ^ t.fb < 2 ^ (t.fb - 1)) := by
    refine Bool.eq_iff_iff.2 ?_
    rw [beq_iff_eq, decide_eq_true_iff]
    exact Nat.div_eq_zero_iff_lt (Nat.two_pow_pos _)
  unfold fClass classOf Fmt.val
  dsimp only
  rw [hneg, hsig]
  generalize decide (2 ^ (t.bits - 1) ≤ y) = neg
  generalize y / 2 ^ t.fb % 2 ^ t.eb = ex
  generalize y % 2 ^ t.fb = fr at hfr ⊢
  by_cases h1 : ex = 2 ^ t.eb - 1
  · rw [if_pos (show ex = t.expMax from h1), if_pos h1]
    by_cases h2 : fr = 0
    · rw [if_pos h2, if_pos h2]
    · rw [if_neg h2, if_neg h2]
      by_cases h3 : fr < 2 ^ (t.fb - 1)
      · rw [if_pos h3, decide_eq_true h3]
        rfl
      · rw [if_neg h3, decide_eq_false h3]
        rfl
  · rw [if_neg (show ¬ ex = t.expMax from h1), if_neg h1]
    by_cases h2 : ex = 0
    · rw [if_pos h2, if_pos h2]
      by_cases h3 : fr = 0
      · rw [if_pos h3]
        exact if_pos h3
      · rw [if_neg h3]
        exact (if_neg h3).trans (if_pos hfr)
    · rw [if_neg h2, if_neg h2]
      exact (if_neg (by have := Nat.two_pow_pos t.fb; omega)).trans (if_neg (by omega))
end
theorem floatChoicesAndSigns : Claims.FloatChoicesAndSigns := by
  unfold Claims.FloatChoicesAndSigns
  intro s m f d a t x y p pick
  have hlt := elemOf_lt s f
  have hdue := latV_due s f
  refine ⟨?_, ?_, ?_, ?_, ?_, fun l => fClass t (y l 0), ?_, fun l => fClass_eq (hlt ..)⟩
  · exact hdue ▸ (binary_puts (i := .fmin m f d a) (g := fun t => fMinMax t false) rfl).such fun l j => fMinMax_min t (x l j) (y l j)
  · exact hdue ▸ (binary_puts (i := .fmax m f d a) (g := fun t => fMinMax t true) rfl).such fun l j => fMinMax_max t (x l j) (y l j)
  · have h := unary_puts (i := .fabs m f d a) (s := s) (t := latV f) (g := fun t x => (withSign t x 0, flNone)) rfl
    simp only [withSign_zero] at h
    exact hdue ▸ h
  · have h := unary_puts (i := .fneg m f d a) (s := s) (t := latV f) (g := fun t x => (withSign t x (1 - signBit t x), flNone)) rfl
    simp only [withSign_negated (hlt _ _ _)] at h
    exact hdue ▸ h
  · have h := binary_puts (i := .fcopysign m f d a) (s := s) (t := latV f) (g := fun t x y => (withSign t x (signBit t y), flNone)) rfl
    simp only [withSign_copied (hlt _ _ _)] at h
    exact hdue ▸ h
  · have h := (laneF_puts (i := .fclass m f d a) (m := m) (f := .f32) (d := d) (r := fun l _ => (2 ^ fClass t (y l 0), 0)) (t := latV f)
      (show exec (.fclass m f d a) s = execFclass m f d a s from rfl) fun l => ?_)
    · exact hdue ▸ h
    · rw [elems_srcN, fmt_eq]
      refine Eq.trans ?_ (joinElems_one _).symm
      cases f <;> rfl
end Sys2Proof
end

