-- ==== Sys2Proof/Proofs/FloatComparisons.lean ====
section
/-! SUPPORT. Comparisons of floating-point operands (R147). -/

namespace Sys2Proof
open Machine

section
variable (s : State) (w : Bool) (m : Mods) (a b : Reg) (l : Nat)
/-- The operands of a comparison. -/
def fcmpA : FVal := if w then valOf s .f64 l a 0 else valOf s .f32 l a 0
def fcmpB : FVal :=
  match m.lit with
  | some i => if w then fmt64.val (i.toNat * 2 ^ 35) else fmt32.val (i.toNat * 8)
  | none => if w then valOf s .f64 l b 0 else valOf s .f32 l b 0
theorem fcmpA_eq : fcmpA s w a l = if w then fmt64.val (s.src64 s.cur.wid l a).toNat else fmt32.val (s.src s.cur.wid l a).toNat := by
  unfold fcmpA
  rw [valOf_f64, valOf_f32]
theorem fcmpB_eq : fcmpB s w m b l = if w then fmt64.val (s.srcBF64 s.cur.wid l m b).toNat else fmt32.val (s.srcBF32 s.cur.wid l m b).toNat := by
  unfold fcmpB
  rw [srcBF32_toNat, srcBF64_toNat, valOf_f64, valOf_f32]
  cases m.lit <;> rfl
end
/-- A comparison writes its predicate and raises NV for a signalling NaN, or for any where it is of the kind that does. -/
theorem fcmp_writes {i : Instr} {s : State} {m : Mods} {w sig : Bool} {p : BitVec 6} {a b : Reg} {f : FVal → FVal → Bool} {v nv : Nat → Bool}
    (h : exec i s = fcmp s m w p a b sig f) (hv : ∀ l, v l = f (fcmpA s w a l) (fcmpB s w m b l))
    (hnv : ∀ l, nv l = if sig then (fcmpA s w a l).isNan || (fcmpB s w m b l).isNan else (fcmpA s w a l).isSig || (fcmpB s w m b l).isSig) :
    ∃ t, exec i s = .next t ∧ Writes s t m (some (s.clock + if w then 6 else 4)) [.p (p.setWidth 7)] (fun l => toP (p.setWidth 7) (v l)) (fun l => nvIf (nv l)) := by
  refine ⟨_, h, ?_⟩
  have hw := perLane_writes m (if w then .fixed 6 else .fixed 4) [.p (p.setWidth 7)] (fun l =>
    (toP (p.setWidth 7) (f (fcmpA s w a l) (fcmpB s w m b l)), if sig && ((fcmpA s w a l).isNan || (fcmpB s w m b l).isNan) then flNV else sigFlag [fcmpA s w a l, fcmpB s w m b l])) s
  have hsig : ∀ x y : FVal, (if sig && (x.isNan || y.isNan) then flNV else sigFlag [x, y]) = nvIf (if sig then x.isNan || y.isNan else x.isSig || y.isSig) := by
    intro x y
    cases sig with
    | false => exact sigFlag_two x y
    | true =>
      rw [Bool.true_and, if_pos rfl]
      by_cases hn : (x.isNan || y.isNan) = true
      · rw [if_pos hn, hn]
        rfl
      · rw [if_neg hn, Bool.eq_false_iff.2 hn, sigFlag_two]
        rw [Bool.not_eq_true, Bool.or_eq_false_iff] at hn
        rw [isSig_of_not_nan hn.1, isSig_of_not_nan hn.2]
        rfl
  have hd : (if w then Lat.fixed 6 else .fixed 4 : Machine.Lat).due s.clock = some (s.clock + if w then 6 else 4) := by cases w <;> rfl
  obtain rfl : v = fun l => f (fcmpA s w a l) (fcmpB s w m b l) := funext hv
  obtain rfl : nv = _ := funext hnv
  rw [hd] at hw
  simp only [hsig] at hw
  simp only [fcmpA_eq, fcmpB_eq] at hw ⊢
  simp only [outP_eq, hsig]
  exact hw
theorem floatComparisons : Claims.FloatComparisons := by
  unfold Claims.FloatComparisons
  intro s m w p a b due x y writes quiet loud
  have he : ∀ l, x l = fcmpA s w a l := fun l => rfl
  have hy : ∀ l, y l = fcmpB s w m b l := fun l => rfl
  refine ⟨⟨fun l => eqVal (x l) (y l), ?_, fun l => eqVal_same ..⟩, ⟨fun l => ltVal false (x l) (y l), ?_, fun l => ltVal_less ..⟩,
    ⟨fun l => ltVal false (x l) (y l) || eqVal (x l) (y l), ?_, fun l => ?_⟩, ?_⟩
  · exact fcmp_writes (sig := false) (f := eqVal) rfl (fun l => rfl) (fun l => rfl)
  · exact fcmp_writes (sig := true) (f := ltVal false) rfl (fun l => rfl) (fun l => rfl)
  · exact fcmp_writes (sig := true) (f := fun x y => ltVal false x y || eqVal x y) rfl (fun l => rfl) (fun l => rfl)
  · rw [Bool.or_eq_true, ltVal_less, eqVal_same]
  · exact fcmp_writes (sig := false) (f := fun x y => x.isNan || y.isNan) rfl (fun l => rfl) (fun l => rfl)
end Sys2Proof
end

