-- ==== Sys2Proof/Proofs/FloatExponents.lean ====
section
/-! SUPPORT. Scaling, exponents and significands, rounding to an integral value (R146), and what settles O9. -/

namespace Sys2Proof
open Machine

/-- A result by the kind of its operand: a NaN gives the canonical one, an infinity and a number what is said of them. -/
def ByKind (t : Fmt) (v : FVal) (p : Bool → Nat → FRes → Prop) (inf : Bool → FRes) (r : FRes) : Prop :=
  match v with
  | .nan g => r = nanResult t g
  | .inf g => r = inf g
  | .fin g k _ => p g k r
theorem nan_flags (t : Fmt) (g : Bool) : (t.nan, sigFlag [FVal.nan g]) = nanResult t g := congrArg (Prod.mk t.nan) (sigFlag_one _)

/-! ### Scaling -/

theorem fScale_rounds (t : Fmt) (md : RMode) (x : Nat) (n : Int) :
    ByKind t (t.val x) (fun g _ => Rounds t md (ratOf (t.val x) * (2 : ℚ) ^ n) g) (fun g => (infBitsOf t g, 0)) (fScale t md x n) := by
  have h : fScale t md x n = finishF t md (match t.val x with | .fin s m e => .fin s m (e + n) | v => v, sigFlag [t.val x]) := rfl
  rw [h, sigFlag_one]
  cases t.val x with
  | nan g => exact finishF_nan t md g _
  | inf g => exact finishF_inf t md g _
  | fin g m e =>
    show Rounds t md (ratOf (.fin g m e) * (2 : ℚ) ^ n) g (finishF t md (.fin g m (e + n), flNone))
    rw [finishF_fin, ratOf_fin, mul_assoc, mul_assoc, ← zpow_add₀ two_ne_zero]
    exact rounds_fin ..
theorem scaleCounts_eq (f : FFmt) (x : W32) : scaleCounts f x =
    (List.range (elemsOf f)).map (fun j => if elemsOf f = 2 then (BitVec.setWidth 16 (x >>> (16 * j))).toInt else x.toInt) := by
  have h0 : x >>> (16 * 0) = x := BitVec.ushiftRight_zero _
  have h1 : x.extractLsb' 16 16 = BitVec.setWidth 16 (x >>> (16 * 1)) := by
    refine BitVec.eq_of_toNat_eq ?_
    rw [BitVec.extractLsb'_toNat, BitVec.toNat_setWidth, BitVec.toNat_ushiftRight]
  have hp : [(x.setWidth 16).toInt, (x.extractLsb' 16 16).toInt] = [(BitVec.setWidth 16 (x >>> (16 * 0))).toInt, (BitVec.setWidth 16 (x >>> (16 * 1))).toInt] := by
    rw [h0, h1]
  cases f with
  | f16x2 => exact hp
  | bf16x2 => exact hp
  | f32 => rfl
  | f64 => rfl
  | f16 => rfl
  | bf16 => rfl

/-! ### Exponents and significands -/

theorem intVal_rat (i : Int) : ratOf (intVal i) = i := by
  unfold intVal
  rw [ratOf_fin, zpow_zero, mul_one]
  rcases lt_or_ge i 0 with h | h
  · rw [decide_eq_true h, show signOf true = -1 from rfl, show ((i.natAbs : Nat) : ℚ) = ((i.natAbs : Int) : ℚ) from rfl, Int.ofNat_natAbs_of_nonpos h.le]
    push_cast
    ring
  · rw [decide_eq_false (not_lt.2 h), show signOf false = 1 from rfl, show ((i.natAbs : Nat) : ℚ) = ((i.natAbs : Int) : ℚ) from rfl, Int.natAbs_of_nonneg h, one_mul]
/-- A number over its power of two is a number of the format. -/
theorem significand_isSize {t : Fmt} (hf : RoomyFmt t) {m : Nat} {e : Int} (hm : m ≠ 0) (hy : IsSize t (m * (2 : ℚ) ^ e)) :
    IsSize t (m * (2 : ℚ) ^ (1 - (bitLen m : Int))) := by
  obtain ⟨h1, h2⟩ := size_bounds hm e
  have hb := one_le_bias hf
  have hw := hf.wide
  obtain ⟨j, q, hj, -, -, hjq⟩ := hy
  have hj1 : 1 ≤ j := by
    rcases Nat.eq_zero_or_pos j with rfl | h
    · rw [Nat.cast_zero, zero_mul] at hjq
      exact absurd hjq (mul_pos (Nat.cast_pos.2 (Nat.pos_of_ne_zero hm)) (by positivity)).ne'
    · exact h
  have hj1' : (1 : ℚ) ≤ j := by exact_mod_cast hj1
  have hj' : (j : ℚ) < ((2 ^ (t.fb + 1) : Nat) : ℚ) := by exact_mod_cast hj
  rw [hjq] at h1 h2
  have hq : (2 : ℚ) ^ q < (2 : ℚ) ^ (e + bitLen m) := by
    calc (2 : ℚ) ^ q = 1 * (2 : ℚ) ^ q := (one_mul _).symm
      _ ≤ j * (2 : ℚ) ^ q := mul_le_mul_of_nonneg_right hj1' (by positivity)
      _ < _ := h2
  have hl : (2 : ℚ) ^ (e + bitLen m - 1) < (2 : ℚ) ^ (((t.fb + 1 : Nat) : Int) + q) := by
    rw [zpow_nat_mul]
    exact h1.trans_lt (mul_lt_mul_of_pos_right hj' (by positivity))
  rw [zpow_lt_zpow_iff_right₀ one_lt_two] at hq hl
  push_cast at hl
  refine ⟨j, q - e + 1 - bitLen m, hj, by unfold Fmt.qmin; omega, by omega, ?_⟩
  rw [show (1 : Int) - bitLen m = e + (1 - bitLen m - e) by ring, zpow_add₀ two_ne_zero, ← mul_assoc, hjq, mul_assoc, ← zpow_add₀ two_ne_zero]
  congr 2
  ring
/-- A rounded size, with its sign, is the integer that the mode rounds the number to. -/
theorem RoundsSize.toInt {md : RMode} {neg : Bool} {x : ℚ} {k : Nat} (h : RoundsSize md neg x k) (hx : 0 ≤ x) :
    RoundsToInt md (signOf neg * x) ((if neg then -1 else 1) * k) := by
  have hs : (((if neg then -1 else 1) * k : Int) : ℚ) = signOf neg * k := by
    unfold signOf
    split <;> push_cast <;> ring
  have hd : |signOf neg * x - signOf neg * k| = |x - k| := by rw [← mul_sub, abs_mul, abs_signOf, one_mul]
  have ha : ∀ y : ℚ, 0 ≤ y → |signOf neg * y| = y := fun y hy => by rw [abs_mul, abs_signOf, one_mul, abs_of_nonneg hy]
  have hk : (0 : ℚ) ≤ k := Nat.cast_nonneg k
  cases md with
  | rne =>
    show _ ∨ _
    rw [hs, hd]
    refine h.imp id fun ⟨h1, h2⟩ => ⟨h1, ?_⟩
    split <;> omega
  | rna =>
    show _ ∨ _
    rw [hs, hd, ha x hx, ha k hk]
    exact h
  | rtz =>
    show _ ∧ _
    rw [hs, hd, ha x hx, ha k hk, abs_of_nonneg (sub_nonneg.2 h.1)]
    exact ⟨by linarith [h.2], h.1⟩
  | rdn =>
    show _ ∧ _
    rw [hs]
    cases neg with
    | false =>
      rw [show signOf false = 1 from rfl, one_mul, one_mul]
      exact h
    | true =>
      have h : x ≤ k ∧ (k : ℚ) < x + 1 := h
      rw [show signOf true = -1 from rfl]
      constructor <;> linarith [h.1, h.2]
  | rup =>
    show _ ∧ _
    rw [hs]
    cases neg with
    | false =>
      rw [show signOf false = 1 from rfl, one_mul, one_mul]
      exact h
    | true =>
      have h : (k : ℚ) ≤ x ∧ x < k + 1 := h
      rw [show signOf true = -1 from rfl]
      constructor <;> linarith [h.1, h.2]

section
variable {t : Fmt} (hf : RoomyFmt t)
include hf
/-- The exponents of a number's bits are few. -/
theorem exponent_small {x m : Nat} {g : Bool} {e : Int} (hx : t.val x = .fin g m e) (hm : m ≠ 0) : (e + bitLen m - 1).natAbs < 2 ^ (t.fb + 1) := by
  obtain ⟨h1, h2⟩ := size_bounds hm e
  have hy := val_isSize hf.toFineFmt hx
  have hexp := hf.exps
  have hb := one_le_bias hf
  have hi : e + bitLen m - 1 < t.bias + 1 := (zpow_lt_zpow_iff_right₀ one_lt_two).1 (h1.trans_lt hy.lt)
  have hlow : t.qmin < e + bitLen m := by
    obtain ⟨j, q, -, hq, -, hj⟩ := hy
    have hj1 : 1 ≤ j := by
      rcases Nat.eq_zero_or_pos j with rfl | h
      · exact absurd hj (by have : (0 : ℚ) < m * (2 : ℚ) ^ e := mul_pos (Nat.cast_pos.2 (Nat.pos_of_ne_zero hm)) (by positivity)
                            rw [Nat.cast_zero, zero_mul]
                            exact this.ne')
      · exact h
    have : (2 : ℚ) ^ t.qmin < (2 : ℚ) ^ (e + bitLen m) := by
      calc (2 : ℚ) ^ t.qmin ≤ (2 : ℚ) ^ q := zpow_le_zpow_right₀ one_le_two hq
        _ = 1 * (2 : ℚ) ^ q := (one_mul _).symm
        _ ≤ j * (2 : ℚ) ^ q := mul_le_mul_of_nonneg_right (by exact_mod_cast hj1) (by positivity)
        _ = m * (2 : ℚ) ^ e := hj.symm
        _ < _ := h2
    exact (zpow_lt_zpow_iff_right₀ one_lt_two).1 this
  unfold Fmt.qmin at hlow
  generalize 2 ^ (t.fb + 1) = B at hexp ⊢
  omega
theorem fGetExp_is (x : Nat) : ByKind t (t.val x) (fun _ k r => if k = 0 then r = (infBitsOf t true, 2) else
      r.2 = 0 ∧ ∃ i : Int, (2 : ℚ) ^ i ≤ |ratOf (t.val x)| ∧ |ratOf (t.val x)| < (2 : ℚ) ^ (i + 1) ∧
        ratOf (t.val r.1) = i ∧ (t.val r.1).isInf = false ∧ (t.val r.1).isNan = false) (fun _ => (infBitsOf t false, 0)) (fGetExp t x) := by
  unfold fGetExp
  cases hv : t.val x with
  | nan g => exact nan_flags t g
  | inf g => exact congrArg (·, flNone) (Nat.zero_add _).symm
  | fin g m e =>
    dsimp only [ByKind]
    by_cases hm : m = 0
    · rw [if_pos hm, if_pos hm]
      rfl
    · rw [if_neg hm, if_neg hm]
      obtain ⟨h1, h2⟩ := size_bounds hm e
      have hs : IsSize t (((e + bitLen m - 1).natAbs : Nat) * (2 : ℚ) ^ (0 : Int)) := by
        rw [zpow_zero, mul_one]
        exact isSize_nat hf (exponent_small hf hv hm)
      obtain ⟨m', e', hval, heq, -⟩ := roundFin_exact hf.toFineFmt .rne (decide (e + bitLen m - 1 < 0)) hs
      refine ⟨rfl, e + bitLen m - 1, ?_, ?_, ?_, ?_, ?_⟩
      · rw [abs_ratOf_fin]
        exact h1
      · rw [abs_ratOf_fin, sub_add_cancel]
        exact h2
      · refine Eq.trans ?_ (intVal_rat (e + bitLen m - 1))
        show ratOf (t.val (roundFin t .rne _ _ 0).1) = _
        rw [hval, ratOf_fin, heq]
        exact (ratOf_fin ..).symm
      · exact congrArg FVal.isInf hval
      · exact congrArg FVal.isNan hval
theorem fGetMan_is (x : Nat) : ByKind t (t.val x) (fun g k r => if k = 0 then r = (t.sign g, 0) else
      r.2 = 0 ∧ ∃ i : Int, ratOf (t.val r.1) = ratOf (t.val x) * (2 : ℚ) ^ i ∧
        1 ≤ |ratOf (t.val r.1)| ∧ |ratOf (t.val r.1)| < 2 ∧ (t.val r.1).isInf = false ∧ (t.val r.1).isNan = false) (fun g => (infBitsOf t g, 0)) (fGetMan t x) := by
  unfold fGetMan
  cases hv : t.val x with
  | nan g => exact nan_flags t g
  | inf g => rfl
  | fin g m e =>
    dsimp only [ByKind]
    by_cases hm : m = 0
    · rw [if_pos hm, hm, roundFin_zero]
      rfl
    · rw [if_neg hm]
      obtain ⟨h1, h2⟩ := size_bounds hm (1 - bitLen m)
      obtain ⟨m', e', hval, heq, -⟩ := roundFin_exact hf.toFineFmt .rne g (significand_isSize hf hm (val_isSize hf.toFineFmt hv))
      refine ⟨rfl, 1 - bitLen m - e, ?_, ?_, ?_, congrArg FVal.isInf hval, congrArg FVal.isNan hval⟩
      · rw [hval, ratOf_fin, heq, ratOf_fin, mul_assoc, mul_assoc, ← zpow_add₀ two_ne_zero, add_sub_cancel]
      · rw [hval, abs_ratOf_fin, heq]
        refine le_trans (le_of_eq ?_) h1
        rw [sub_add_cancel, sub_self, zpow_zero]
      · rw [hval, abs_ratOf_fin, heq]
        refine lt_of_lt_of_eq h2 ?_
        rw [sub_add_cancel, zpow_one]

/-! ### Integral values -/

/-- A number of the format rounds to an integer of the format. -/
theorem integral_isSize (md : RMode) (g : Bool) {m : Nat} {e : Int} (hy : IsSize t (m * (2 : ℚ) ^ e)) : IsSize t ((roundAt md g m e 0).1 * (2 : ℚ) ^ (0 : Int)) := by
  obtain ⟨hr, -⟩ := roundAt_rounds md g m e 0
  rw [sub_zero] at hr
  have hb := one_le_bias hf
  have hw := hf.wide
  obtain ⟨j, q, hj, hq, hq', hjq⟩ := hy
  rw [hjq] at hr
  rcases le_or_gt 0 q with h0 | h0
  · have hx : (j : ℚ) * (2 : ℚ) ^ q = ((j * 2 ^ q.toNat : Nat) : ℚ) := by
      obtain ⟨n, rfl⟩ := Int.eq_ofNat_of_zero_le h0
      push_cast
      rfl
    rw [hx] at hr
    rw [hr.whole, zpow_zero, mul_one, ← hx]
    exact ⟨j, q, hj, hq, hq', rfl⟩
  · have hx : (j : ℚ) * (2 : ℚ) ^ q ≤ ((2 ^ t.fb : Nat) : ℚ) := by
      have hj' : (j : ℚ) ≤ ((2 ^ (t.fb + 1) : Nat) : ℚ) := by exact_mod_cast hj.le
      calc (j : ℚ) * (2 : ℚ) ^ q ≤ ((2 ^ (t.fb + 1) : Nat) : ℚ) * (2 : ℚ) ^ (-1 : Int) :=
            mul_le_mul hj' (zpow_le_zpow_right₀ one_le_two (by omega)) (by positivity) (by positivity)
        _ = ((2 ^ t.fb : Nat) : ℚ) := by
          push_cast
          rw [pow_succ, zpow_neg_one]
          ring
    have hle := hr.ge_of_ge hx
    rw [zpow_zero, mul_one]
    refine isSize_nat hf (lt_of_le_of_lt hle ?_)
    exact Nat.pow_lt_pow_right (by decide) (Nat.lt_succ_self _)
theorem fRint_is (md : RMode) (x : Nat) : ByKind t (t.val x) (fun g _ r => ∃ i : Int, RoundsToInt md (ratOf (t.val x)) i ∧
      ratOf (t.val r.1) = i ∧ (t.val r.1).isInf = false ∧ (t.val r.1).isNan = false ∧ (t.val r.1).neg = g ∧
      r.2 = if (i : ℚ) = ratOf (t.val x) then 0 else 16) (fun g => (infBitsOf t g, 0)) (fRint t md x) := by
  unfold fRint
  cases hv : t.val x with
  | nan g => exact nan_flags t g
  | inf g => rfl
  | fin g m e =>
    obtain ⟨hr, hcut⟩ := roundAt_rounds md g m e 0
    obtain ⟨m', e', hval, heq, -⟩ := roundFin_exact hf.toFineFmt .rne g (integral_isSize hf md g (val_isSize hf.toFineFmt hv))
    rw [sub_zero] at hr hcut
    have hs : ((((if g then -1 else 1) * ((roundAt md g m e 0).1 : Int) : Int)) : ℚ) = signOf g * (roundAt md g m e 0).1 := by
      unfold signOf
      split <;> push_cast <;> ring
    refine ⟨(if g then -1 else 1) * (roundAt md g m e 0).1, ?_, ?_, congrArg FVal.isInf hval, congrArg FVal.isNan hval, congrArg FVal.neg hval, ?_⟩
    · rw [ratOf_fin]
      exact hr.toInt (by positivity)
    · show ratOf (t.val (roundFin t .rne g (roundAt md g m e 0).1 0).1) = _
      rw [hval, ratOf_fin, heq, zpow_zero, mul_one, hs]
    · rw [hs, ratOf_fin]
      show (if (roundAt md g m e 0).2 = true then flNX else flNone) = _
      by_cases hc : (roundAt md g m e 0).2 = true
      · rw [if_pos hc, if_neg (fun h => hcut.1 hc (mul_left_cancel₀ (signOf_ne_zero g) h))]
        rfl
      · rw [if_neg hc, if_pos (congrArg (signOf g * ·) (not_not.1 (fun h => hc (hcut.2 h))))]
        rfl
end
theorem floatExponents : Claims.FloatExponents := by
  unfold Claims.FloatExponents
  intro s m f d a t md n plain
  have hdue := latV_due s f
  have hf := roomy_fmtOf f
  have hplain : ∀ v (p : Bool → Nat → FRes → Prop) inf r, plain v (fun g k => p g k r) inf r ↔ ByKind t v p inf r := fun v p inf r => by
    cases v <;> exact Iff.rfl
  refine ⟨?_, ?_, ?_, ?_⟩
  · refine hdue ▸ (laneF_puts (i := .fscale m f d a) (t := latV f) (r := fun l j => fScale t md (elemOf s f l d j) (n l j))
      (show exec (.fscale m f d a) s = execFscale m f d a s from rfl) fun l => ?_).such fun l j => (hplain _ (fun g _ => Rounds t md (ratOf (valOf s f l d j) * (2 : ℚ) ^ n l j) g) _ _).2 (fScale_rounds ..)
    rw [elems_srcN, scaleCounts_eq, fmt_eq, zipWith_range]
  · exact hdue ▸ (unary_puts (i := .fgetexp m f d a) (g := fGetExp) rfl).such fun l j => (hplain _ _ _ _).2 (fGetExp_is hf _)
  · exact hdue ▸ (unary_puts (i := .fgetman m f d a) (g := fGetMan) rfl).such fun l j => (hplain ..).2 (fGetMan_is hf _)
  · exact hdue ▸ (unary_puts (i := .frint m f d a) (g := fun t => fRint t md) rfl).such fun l j => (hplain ..).2 (fRint_is hf md _)
/-- Settles O9: choices and comparisons follow the orders `Below` and `Less`; exponents, significands and integral values are
numbers that their format has, so that rounding them to it changes nothing. -/
theorem floatChoices : Obligations.FloatChoices := ⟨floatChoicesAndSigns, floatExponents, floatComparisons⟩
end Sys2Proof
end

