-- ==== Sys2Proof/Proofs/CrossLaneReads.lean ====
section
/-! SUPPORT. Reads of other lanes and votes (R153, R154, R157). -/

namespace Sys2Proof
open Machine

section
variable (s : State) (m : Mods)
/-- Whether a lane is on, as a test. -/
def onB (l : Nat) : Bool := s.cur.lanes.getLsbD l && m.active (s.lane s.cur.wid l)
theorem onB_iff (l : Nat) : onB s m l = true ↔ On s m l := Bool.and_eq_true _ _ |>.to_iff
theorem activeLanes_eq : s.activeLanes m = (List.range 32).filter (onB s m) := by
  unfold State.activeLanes lanesOf
  rw [List.filter_filter]
  exact List.filter_congr fun l _ => Bool.and_comm ..
theorem activeLanes_sorted : (s.activeLanes m).Pairwise (· < ·) := by
  rw [activeLanes_eq]
  exact List.pairwise_lt_range.filter _
end
/-- The first of an ascending list that passes a test is the least that does. -/
theorem headD_filter_least {ls : List Nat} (hs : ls.Pairwise (· < ·)) {p : Nat → Bool} {l : Nat} (hl : l ∈ ls) (hp : p l = true) (z : Nat) :
    (ls.filter p).headD z ∈ ls ∧ p ((ls.filter p).headD z) = true ∧ ∀ j ∈ ls, p j = true → (ls.filter p).headD z ≤ j := by
  have hf := hs.filter p
  have hmem : ∀ j, j ∈ ls.filter p ↔ j ∈ ls ∧ p j = true := fun j => List.mem_filter
  cases h : ls.filter p with
  | nil => exact absurd ((hmem l).2 ⟨hl, hp⟩) (by rw [h]; exact List.not_mem_nil)
  | cons x xs =>
    rw [h] at hf
    have hx := (hmem x).1 (by rw [h]; exact List.mem_cons_self ..)
    refine ⟨hx.1, hx.2, fun j hj hpj => ?_⟩
    have hj := (hmem j).2 ⟨hj, hpj⟩
    rw [h] at hj
    rcases List.mem_cons.1 hj with rfl | hj
    · exact le_rfl
    · exact ((List.pairwise_cons.1 hf).1 j hj).le
section
variable (s : State) (m : Mods) (d a : Reg)
/-- The source lane of `shfl` by its number, which need be none of 0 to 31 (R154). -/
def shflFrom (k : ShflMode) (l n : Nat) : Int :=
  match k with
  | .idx => n
  | .up => l - n
  | .down => l + n
  | .xor => ((l ^^^ n : Nat) : Int)
theorem shflSource_eq (k : ShflMode) (l : Nat) (x : W32) : shflSource k l x = if 0 ≤ shflFrom k l x.toNat ∧ shflFrom k l x.toNat < 32 then some (shflFrom k l x.toNat).toNat else none := by
  cases k <;> rfl
/-- What `shfl` gives a lane. -/
def shflValue (k : ShflMode) (l : Nat) : W32 :=
  let fill := match m.eReg with | some e => s.src s.cur.wid l e | none => 0
  match shflSource k l (s.src s.cur.wid l d) with
  | some n => if (s.activeLanes m).contains n then s.src s.cur.wid n a else fill
  | none => fill
theorem shflValue_eq (k : ShflMode) (l : Nat) : let from_ := shflFrom k l (s.src s.cur.wid l d).toNat
    if 0 ≤ from_ ∧ from_ < 32 ∧ s.cur.lanes.getLsbD from_.toNat = true ∧ m.active (s.lane s.cur.wid from_.toNat) = true then shflValue s m d a k l = s.src s.cur.wid from_.toNat a
    else shflValue s m d a k l = match m.eReg with | some e => s.src s.cur.wid l e | none => 0 := by
  intro from_
  have hc : ∀ n, (s.activeLanes m).contains n = true ↔ On s m n := fun n => List.contains_iff_mem.trans mem_activeLanes
  unfold shflValue
  rw [shflSource_eq]
  by_cases h : 0 ≤ from_ ∧ from_ < 32
  · dsimp only
    rw [if_pos h]
    dsimp only
    by_cases ho : On s m from_.toNat
    · rw [if_pos ⟨h.1, h.2, ho⟩, if_pos ((hc _).2 ho)]
    · rw [if_neg (fun h' => ho h'.2.2), if_neg (fun h' => ho ((hc _).1 h'))]
  · rw [if_neg (fun h' => h ⟨h'.1, h'.2.1⟩)]
    dsimp only
    rw [if_neg h]
/-- What a vote comes to. -/
def voteValue (v : VoteKind) : Bool :=
  let ps := (s.activeLanes m).map (fun l => (s.lane s.cur.wid l).pred a.toNat)
  match v with
  | .all => ps.all id
  | .any => ps.any id
  | .same => ps.all id || ps.all (!·)
theorem voteValue_iff (v : VoteKind) : voteValue s m a v = true ↔ match v with
    | .all => ∀ l, On s m l → (s.lane s.cur.wid l).pred a.toNat = true
    | .any => ∃ l, On s m l ∧ (s.lane s.cur.wid l).pred a.toNat = true
    | .same => ∀ l j, On s m l → On s m j → (s.lane s.cur.wid l).pred a.toNat = (s.lane s.cur.wid j).pred a.toNat := by
  have hall : ∀ q : Bool → Bool, ((s.activeLanes m).map (fun l => (s.lane s.cur.wid l).pred a.toNat)).all q = true ↔ ∀ l, On s m l → q ((s.lane s.cur.wid l).pred a.toNat) = true := by
    intro q
    rw [List.all_map, List.all_eq_true]
    exact forall_congr' fun l => imp_congr_left mem_activeLanes
  cases v with
  | all => exact hall id
  | any =>
    show ((s.activeLanes m).map _).any id = true ↔ _
    rw [List.any_map, List.any_eq_true]
    exact exists_congr fun l => and_congr_left fun _ => mem_activeLanes
  | same =>
    show (((s.activeLanes m).map _).all id || ((s.activeLanes m).map _).all (!·)) = true ↔ _
    rw [Bool.or_eq_true, hall, hall]
    dsimp only [id]
    constructor
    · rintro (h | h) l j hl hj
      · rw [h l hl, h j hj]
      · have hl := h l hl
        have hj := h j hj
        rw [Bool.not_eq_true'] at hl hj
        rw [hl, hj]
    · intro h
      by_cases hex : ∃ l, On s m l ∧ (s.lane s.cur.wid l).pred a.toNat = true
      · obtain ⟨l, hl, hp⟩ := hex
        exact .inl fun j hj => (h j l hj hl).trans hp
      · exact .inr fun j hj => (Bool.not_eq_true' _).to_iff.2 (Bool.eq_false_iff.2 fun hp => hex ⟨j, hj, hp⟩)
theorem getLsbD_maskOf_filter (p : Nat → Bool) (l : Nat) : (maskOf ((s.activeLanes m).filter p)).getLsbD l = true ↔ On s m l ∧ p l = true := by
  rw [getLsbD_maskOf, Bool.and_eq_true, decide_eq_true_iff, decide_eq_true_iff, List.mem_filter, mem_activeLanes]
  exact and_iff_left_of_imp fun h => State.lane_lt_of_getLsbD h.1.1
end
/-- What `match` gives each lane, where `v` reads its operand. -/
theorem matchLanes_lane64 {s : State} {m : Mods} {w : Bool} {d a : Reg} {v : Nat → W64} (h : ∀ l, s.srcN s.cur.wid l (words w) a = v l) :
    exec (.matchLanes m w d a) s = lane64 s m .owed d (fun l => maskOf ((s.activeLanes m).filter (fun k => v k == v l)) ++
      BitVec.ofNat 32 (((s.activeLanes m).filter (fun k => v k == v l)).headD 0)) := by
  obtain rfl : v = _ := (funext h).symm
  rfl
theorem crossLaneReads : Claims.CrossLaneReads := by
  unfold Claims.CrossLaneReads
  intro s m d a k vk w cw on src p
  have hsrc : ∀ l, s.srcN s.cur.wid l (words w) a = src l := fun l => by cases w <;> rfl
  refine ⟨⟨shflValue s m d a k, lane32_computes (i := .shfl m k d a) (t := .owed) rfl, fun l => ?_⟩,
    ⟨voteValue s m a vk, laneP_computes (i := .vote m vk d a) (t := .owed) rfl, voteValue_iff s m a vk⟩,
    ⟨maskOf ((s.activeLanes m).filter p), lane32_computes (i := .ballot m d a) (t := .owed) rfl, fun l _ => getLsbD_maskOf_filter s m p l⟩,
    fun l => (maskOf ((s.activeLanes m).filter (fun k => src k == src l)), ((s.activeLanes m).filter (fun k => src k == src l)).headD 0), ?_, fun l hl => ⟨fun j _ => ?_, ?_⟩⟩
  · exact shflValue_eq s m d a k l
  · exact lane64_computes (i := .matchLanes m w d a) (t := .owed) (matchLanes_lane64 hsrc)
  · rw [getLsbD_maskOf_filter, beq_iff_eq]
    rfl
  · obtain ⟨h1, h2, h3⟩ := headD_filter_least (activeLanes_sorted s m) (p := fun k => src k == src l) (mem_activeLanes.2 hl) (beq_self_eq_true _) 0
    exact ⟨mem_activeLanes.1 h1, beq_iff_eq.1 h2, fun j hj he => h3 j (mem_activeLanes.2 hj) (beq_iff_eq.2 he)⟩
end Sys2Proof
end

