-- ==== Sys2Proof/Proofs/ReductionTrees.lean ====
section
/-! SUPPORT. The tree of a reduction and the fold of a scan as joins of parts of the lanes (R155, R156). -/

namespace Sys2Proof
open Machine

/-! ### Joins, neighbours first -/

/-- Neighbours of a list joined pairwise. -/
def joinPairs {α : Type} (op : α → α → α) : List α → List α
  | a :: b :: r => op a b :: joinPairs op r
  | r => r
/-- `n` levels of it. -/
def joinLevels {α : Type} (op : α → α → α) : Nat → List α → List α
  | 0, xs => xs
  | n + 1, xs => joinLevels op n (joinPairs op xs)
section
variable {α : Type} (op : α → α → α)
theorem joinPairs_range' (h : Nat → α) (i n : Nat) : joinPairs op ((List.range' i (2 * n)).map h) = (List.range' 0 n).map (fun p => op (h (i + 2 * p)) (h (i + 2 * p + 1))) := by
  induction n generalizing i with
  | zero => rfl
  | succ n ih =>
    rw [Nat.mul_succ, List.range'_succ, List.range'_succ, List.map_cons, List.map_cons, joinPairs, ih, List.range'_succ, List.map_cons, Nat.mul_zero, Nat.add_zero,
      List.range'_eq_map_range, List.range'_eq_map_range, List.map_map, List.map_map]
    refine congrArg _ (List.map_congr_left fun p _ => ?_)
    show op (h (i + 1 + 1 + 2 * (0 + p))) (h (i + 1 + 1 + 2 * (0 + p) + 1)) = op (h (i + 2 * (0 + 1 + p))) (h (i + 2 * (0 + 1 + p) + 1))
    congr 2 <;> omega
theorem joinPairs_range (h : Nat → α) (n : Nat) : joinPairs op ((List.range (2 * n)).map h) = (List.range n).map (fun p => op (h (2 * p)) (h (2 * p + 1))) := by
  rw [List.range_eq_range', joinPairs_range', List.range_eq_range']
  refine List.map_congr_left fun p _ => ?_
  rw [Nat.zero_add]
/-- Levels over consecutive leaves leave the roots of the fixed trees over them. -/
theorem joinLevels_trees (g : Nat → α) (n k w : Nat) : joinLevels op n ((List.range (2 ^ n * w)).map (fun p => treeOf op g k (p * 2 ^ k))) =
    (List.range w).map (fun p => treeOf op g (k + n) (p * 2 ^ (k + n))) := by
  induction n generalizing k with
  | zero => simp [joinLevels]
  | succ n ih =>
    rw [joinLevels, show 2 ^ (n + 1) * w = 2 * (2 ^ n * w) by rw [pow_succ']; ring, joinPairs_range]
    have hstep : (fun p => op (treeOf op g k (2 * p * 2 ^ k)) (treeOf op g k ((2 * p + 1) * 2 ^ k))) = fun p => treeOf op g (k + 1) (p * 2 ^ (k + 1)) := by
      funext p
      have h1 : 2 * p * 2 ^ k = p * 2 ^ (k + 1) := by
        rw [pow_succ]
        ring
      have h2 : (2 * p + 1) * 2 ^ k = p * 2 ^ (k + 1) + 2 ^ k := by
        rw [pow_succ]
        ring
      rw [h1, h2]
      rfl
    rw [hstep, ih]
    simp only [Nat.add_assoc, Nat.add_comm 1 n]
theorem joinLevels_root (g : Nat → α) (n : Nat) : joinLevels op n ((List.range (2 ^ n)).map g) = [treeOf op g n 0] := by
  have h := joinLevels_trees op g n 0 1
  simpa [treeOf] using h
end
/-- A map that goes with the joins goes with the tree. -/
theorem treeOf_map {α β : Type} {op : α → α → α} {op' : β → β → β} (φ : α → β) (h : ∀ x y, φ (op x y) = op' (φ x) (φ y)) (g : Nat → α) (k i : Nat) :
    φ (treeOf op g k i) = treeOf op' (fun j => φ (g j)) k i := by
  induction k generalizing i with
  | zero => rfl
  | succ k ih => exact (h _ _).trans (congrArg₂ op' (ih i) (ih _))
/-- What holds of each leaf, and of a join of two parts, holds of a tree. -/
theorem treeOf_parts {α : Type} {op : α → α → α} {g : Nat → α} {P : List Nat → α → Prop} (hleaf : ∀ i, P [i] (g i)) (hjoin : ∀ l r x y, P l x → P r y → P (l ++ r) (op x y))
    (k i : Nat) : P (List.range' i (2 ^ k)) (treeOf op g k i) := by
  induction k generalizing i with
  | zero => exact hleaf i
  | succ k ih =>
    rw [pow_succ', Nat.two_mul, ← List.range'_append_1]
    exact hjoin _ _ _ _ (ih i) (ih _)

/-! ### The reductions of the model -/

section
variable (o : RedOp) (t : RedType) (md : RMode)
/-- One step of a reduction, its flags with those of the parts. -/
def redJoin (x y : RedVal × BitVec 5) : RedVal × BitVec 5 := ((redStep o t md x.1 y.1).1, x.2 ||| y.2 ||| (redStep o t md x.1 y.1).2)
/-- The flags of a list. -/
def orFlags (xs : List (RedVal × BitVec 5)) : BitVec 5 := xs.foldr (fun x f => x.2 ||| f) 0
theorem treeLevel_joinPairs (xs : List (RedVal × BitVec 5)) : (treeLevel o t md (xs.map Prod.fst)).1 = (joinPairs (redJoin o t md) xs).map Prod.fst ∧
    orFlags xs ||| (treeLevel o t md (xs.map Prod.fst)).2 = orFlags (joinPairs (redJoin o t md) xs) := by
  induction xs using joinPairs.induct with
  | case1 a b r ih =>
    obtain ⟨h1, h2⟩ := ih
    refine ⟨congrArg (List.cons _) h1, ?_⟩
    show a.2 ||| (b.2 ||| orFlags r) ||| ((redStep o t md a.1 b.1).2 ||| (treeLevel o t md (r.map Prod.fst)).2) = a.2 ||| b.2 ||| (redStep o t md a.1 b.1).2 ||| orFlags (joinPairs (redJoin o t md) r)
    rw [← h2]
    ac_rfl
  | case2 r h =>
    match r, h with
    | [], _ => exact ⟨rfl, BitVec.or_zero⟩
    | [x], _ => exact ⟨rfl, BitVec.or_zero⟩
    | a :: b :: r, h => exact (h a b r rfl).elim
theorem tree_joinLevels (n : Nat) (xs : List (RedVal × BitVec 5)) :
    tree o t md n (xs.map Prod.fst) (orFlags xs) = ((joinLevels (redJoin o t md) n xs).map Prod.fst, orFlags (joinLevels (redJoin o t md) n xs)) := by
  induction n generalizing xs with
  | zero => rfl
  | succ n ih =>
    obtain ⟨h1, h2⟩ := treeLevel_joinPairs o t md xs
    rw [tree, joinLevels, h1, h2, ih]
theorem orFlags_none (g : Nat → RedVal) (n : Nat) : orFlags ((List.range n).map (fun l => (g l, (0 : BitVec 5)))) = 0 := by
  induction n with
  | zero => rfl
  | succ n ih =>
    have hlast : ((0 : BitVec 5) ||| 0) = 0 := BitVec.or_zero
    unfold orFlags at ih ⊢
    rw [List.range_succ, List.map_append, List.foldr_append, List.map_singleton, List.foldr_cons, List.foldr_nil, hlast]
    exact ih
/-- The leaf of a lane. -/
def redLeaf (s : State) (m : Mods) (a : Reg) (l : Nat) : RedVal × BitVec 5 :=
  (if (s.activeLanes m).contains l then ⟨(s.srcN s.cur.wid l t.words a).toNat, l⟩ else redIdentity o t, 0)
/-- The reduction is the root of the fixed tree. -/
theorem tree_root (s : State) (m : Mods) (a : Reg) : tree o t md 5 (redVals s m o t a) flNone =
    ([(treeOf (redJoin o t md) (redLeaf o t s m a) 5 0).1], (treeOf (redJoin o t md) (redLeaf o t s m a) 5 0).2) := by
  have hvals : redVals s m o t a = ((List.range 32).map (redLeaf o t s m a)).map Prod.fst := by
    rw [List.map_map]
    rfl
  have hfl : flNone = orFlags ((List.range 32).map (redLeaf o t s m a)) := (orFlags_none _ 32).symm
  rw [hvals, hfl, tree_joinLevels, show (32 : Nat) = 2 ^ 5 from rfl, joinLevels_root]
  exact Prod.ext rfl BitVec.or_zero
/-- A scan is the fold of the leaves of the lanes below one. -/
theorem scanFold_leaves (s : State) (m : Mods) (a : Reg) (n : Nat) : scanFold o t md ((redVals s m o t a).take n) =
    ((List.range 32).filter (· < n)).foldl (fun r j => redJoin o t md r (redLeaf o t s m a j)) (redIdentity o t, 0) := by
  have htake : (redVals s m o t a).take n = ((List.range 32).filter (· < n)).map (fun j => (redLeaf o t s m a j).1) := by
    have hf : (List.range 32).filter (· < n) = List.range (min n 32) := by
      refine List.Perm.eq_of_pairwise (le := (· < ·)) (fun _ _ _ _ h1 h2 => absurd (h1.trans h2) (lt_irrefl _)) (List.pairwise_lt_range.filter _) List.pairwise_lt_range ?_
      refine (List.perm_ext_iff_of_nodup (List.nodup_range.filter _) List.nodup_range).2 fun j => ?_
      simp only [List.mem_filter, List.mem_range, decide_eq_true_eq, lt_min_iff]
      exact and_comm
    rw [hf]
    unfold redVals
    rw [← List.map_take, List.take_range]
    rfl
  unfold scanFold
  rw [htake, List.foldl_map]
  refine congrArg (fun g => List.foldl g _ _) (funext fun r => funext fun j => ?_)
  exact Prod.ext rfl (congrArg (· ||| _) BitVec.or_zero.symm)
end
/-- What holds of no lane, and of a join with one more, holds of a fold. -/
theorem foldl_parts {α : Type} {op : α → α → α} {g : Nat → α} {P : List Nat → α → Prop} {z : α} (hz : P [] z) (hjoin : ∀ l i x, P l x → P (l ++ [i]) (op x (g i))) (ls : List Nat) :
    P ls (ls.foldl (fun r j => op r (g j)) z) := by
  suffices h : ∀ (ls pre : List Nat) x, P pre x → P (pre ++ ls) (ls.foldl (fun r j => op r (g j)) x) by
    exact h ls [] z hz
  intro ls
  induction ls with
  | nil => exact fun pre x hx => by rwa [List.append_nil]
  | cons j ls ih =>
    intro pre x hx
    have := ih (pre ++ [j]) _ (hjoin pre j x hx)
    rwa [List.append_assoc] at this
end Sys2Proof
end

