-- ==== Sys2Proof/Proofs/IntegerReductions.lean ====
section
/-! SUPPORT. Reductions and scans of integers (R155, R156). -/

namespace Sys2Proof
open Machine

/-! ### Parts of the active lanes -/

section
variable (s : State) (m : Mods) (o : RedOp) (t : RedType) (md : RMode) (a : Reg)
theorem part_below (n : Nat) : ((List.range 32).filter (· < n)).filter (onB s m) = (s.activeLanes m).filter (· < n) := by
  rw [activeLanes_eq, List.filter_filter, List.filter_filter]
  exact List.filter_congr fun l _ => Bool.and_comm ..
theorem redLeaf_on {l : Nat} (h : onB s m l = true) : redLeaf o t s m a l = (⟨(s.srcN s.cur.wid l t.words a).toNat, l⟩, 0) := by
  unfold redLeaf
  rw [if_pos (List.contains_iff_mem.2 (mem_activeLanes.2 ((onB_iff s m l).1 h)))]
theorem redLeaf_off {l : Nat} (h : ¬ onB s m l = true) : redLeaf o t s m a l = (redIdentity o t, 0) := by
  unfold redLeaf
  rw [if_neg (fun h' => h ((onB_iff s m l).2 (mem_activeLanes.1 (List.contains_iff_mem.1 h'))))]
/-- The root of the tree over all the lanes. -/
def redRoot : RedVal × BitVec 5 := treeOf (redJoin o t md) (redLeaf o t s m a) 5 0
section
variable {P Q : List Nat → RedVal × BitVec 5 → Prop}
variable (hoff : P [] (redIdentity o t, 0)) (hon : ∀ i, On s m i → P [i] (⟨(s.srcN s.cur.wid i t.words a).toNat, i⟩, 0)) (hQ : ∀ l x, Q l x → P l x)
  (hjoin : ∀ l r x y, P l x → P r y → Q (l ++ r) (redJoin o t md x y))
include hoff hon
theorem redLeaf_part (i : Nat) : P ([i].filter (onB s m)) (redLeaf o t s m a i) := by
  by_cases h : onB s m i = true
  · rw [redLeaf_on s m o t a h, List.filter_cons_of_pos h]
    exact hon i ((onB_iff s m i).1 h)
  · rw [redLeaf_off s m o t a h, List.filter_cons_of_neg h]
    exact hoff
include hQ hjoin
/-- What a join of two parts of the active lanes has, the reduction has of all of them. -/
theorem redRoot_parts : Q (s.activeLanes m) (redRoot s m o t md a) := by
  have hparts := treeOf_parts (op := redJoin o t md) (g := redLeaf o t s m a) (P := fun ls x => P (ls.filter (onB s m)) x) (redLeaf_part s m o t a hoff hon)
    (fun l r x y hl hr => by
      rw [List.filter_append]
      exact hQ _ _ (hjoin _ _ _ _ hl hr)) 4
  have h := hjoin _ _ _ _ (hparts 0) (hparts 16)
  rw [← List.filter_append, show List.range' 0 (2 ^ 4) ++ List.range' 16 (2 ^ 4) = List.range 32 from rfl, ← activeLanes_eq] at h
  exact h
/-- A scan has it of the active lanes below one. -/
theorem scanFold_parts (hz : Q [] (redIdentity o t, 0)) (n : Nat) : Q ((s.activeLanes m).filter (· < n)) (scanFold o t md ((redVals s m o t a).take n)) := by
  have h := foldl_parts (op := redJoin o t md) (g := redLeaf o t s m a) (P := fun ls x => Q (ls.filter (onB s m)) x) (z := (redIdentity o t, 0)) hz
    (fun l i x hl => by
      rw [List.filter_append]
      exact hjoin _ _ _ _ (hQ _ _ hl) (redLeaf_part s m o t a hoff hon i)) ((List.range 32).filter (· < n))
  rw [part_below, ← scanFold_leaves] at h
  exact h
end

/-! ### Results -/

section
variable {s m o t md a} {f : FFmt} {d : Reg}
theorem laneF_root {o : RedOp} (ho : o ≠ .minIdx ∧ o ≠ .maxIdx) : exec (.lred m o t d a) s =
    laneF s m .owed t.words d (fun _ => (BitVec.ofNat 64 (redRoot s m o t (s.rmode m .rne) a).1.v, (redRoot s m o t (s.rmode m .rne) a).2)) := by
  show execLred m o t d a s = _
  unfold execLred
  rw [tree_root]
  cases o with
  | minIdx => exact absurd rfl ho.1
  | maxIdx => exact absurd rfl ho.2
  | add => rfl
  | min => rfl
  | max => rfl
  | and => rfl
  | or => rfl
  | xor => rfl
theorem lred_puts (ho : o ≠ .minIdx ∧ o ≠ .maxIdx) (hw : t.words = f.words) (he : elemsOf f = 1) :
    PutsFloat (.lred m o t d a) s m none f d (fun _ _ => ((redRoot s m o t (s.rmode m .rne) a).1.v, (redRoot s m o t (s.rmode m .rne) a).2)) := by
  refine laneF_puts (t := .owed) ((laneF_root ho).trans (by rw [hw])) fun l => ?_
  rw [he]
  exact (joinElems_one ((redRoot s m o t (s.rmode m .rne) a).1.v, (redRoot s m o t (s.rmode m .rne) a).2)).symm
theorem lscan_puts {o : ScanOp} {e : Bool} (hw : t.words = f.words) (he : elemsOf f = 1) : PutsFloat (.lscan m e o t d a) s m none f d (fun l _ =>
    ((scanFold (ScanOp.red o) t (s.rmode m .rne) ((redVals s m (ScanOp.red o) t a).take (if e then l else l + 1))).1.v,
      (scanFold (ScanOp.red o) t (s.rmode m .rne) ((redVals s m (ScanOp.red o) t a).take (if e then l else l + 1))).2)) := by
  refine laneF_puts (t := .owed) (g := fun l => (BitVec.ofNat 64 (scanFold (ScanOp.red o) t (s.rmode m .rne) ((redVals s m (ScanOp.red o) t a).take (if e then l else l + 1))).1.v,
      (scanFold (ScanOp.red o) t (s.rmode m .rne) ((redVals s m (ScanOp.red o) t a).take (if e then l else l + 1))).2))
    ((show exec (.lscan m e o t d a) s = execLscan m e o t d a s from rfl).trans ?_) fun l => ?_
  · rw [← hw]
    rfl
  · rw [he]
    exact (joinElems_one ((scanFold (ScanOp.red o) t (s.rmode m .rne) ((redVals s m (ScanOp.red o) t a).take (if e then l else l + 1))).1.v,
      (scanFold (ScanOp.red o) t (s.rmode m .rne) ((redVals s m (ScanOp.red o) t a).take (if e then l else l + 1))).2)).symm
theorem PutsFloat.computes32 {i : Instr} {due : Option Nat} {r : Nat → FRes} {v : Nat → W32} (h : PutsFloat i s m due .f32 d (fun l _ => r l)) (hfl : ∀ l, (r l).2 = 0)
    (hv : ∀ l, BitVec.ofNat 32 (r l).1 = v l) : Computes i s m due (regs1 d) (fun l => to32 d (v l)) := by
  obtain ⟨u, hx, hw⟩ := h
  refine ⟨u, hx, ?_⟩
  obtain rfl : v = _ := (funext hv).symm
  have h0 : (fun l => (r l).2) = fun _ => (0 : BitVec 5) := funext hfl
  exact h0 ▸ hw
end

/-! ### Sums, minimum, maximum -/

/-- The integer type of a reduction. -/
def redType (t : IType) : RedType := if t = .s32 then .s32 else .z32
section
variable {t : IType} (ht : t = .s32 ∨ t = .z32)
include ht
omit ht in
theorem redType_words : (redType t).words = 1 := by
  unfold redType
  split <;> rfl
theorem isFloat_redType : isFloat (redType t) = false := by rcases ht with rfl | rfl <;> rfl
omit ht in
theorem leaf_value (l : Nat) : (s.srcN s.cur.wid l (redType t).words a).toNat = (s.src s.cur.wid l a).toNat := by
  rw [redType_words]
  exact toNat_wide _
theorem redInt_operand (l : Nat) : redInt (redType t) (s.src s.cur.wid l a).toNat = operand s t l a := by
  rcases ht with rfl | rfl
  · show (BitVec.ofNat 32 _).toInt = _
    rw [BitVec.ofNat_toNat, BitVec.setWidth_eq]
    rfl
  · rfl
theorem redInt_ofInt {v : Nat} : BitVec.ofNat 32 v = BitVec.ofInt 32 (redInt (redType t) v) := by
  rcases ht with rfl | rfl
  · exact (BitVec.ofInt_toInt).symm
  · exact (BitVec.ofInt_natCast ..).symm
theorem operand_emod (l : Nat) : operand s t l a % 2 ^ 32 = ((s.src s.cur.wid l a).toNat : Int) := by
  have hlt := (s.src s.cur.wid l a).isLt
  rcases ht with rfl | rfl
  · show (s.src s.cur.wid l a).toInt % 2 ^ 32 = _
    rw [BitVec.toInt_eq_toNat_cond]
    split <;> omega
  · show ((s.src s.cur.wid l a).toNat : Int) % 2 ^ 32 = _
    omega
theorem operand_bounds (l : Nat) : typeMin t ≤ operand s t l a ∧ operand s t l a ≤ typeMax t := by
  have hlt := (s.src s.cur.wid l a).isLt
  rcases ht with rfl | rfl
  · show -2 ^ 31 ≤ (s.src s.cur.wid l a).toInt ∧ (s.src s.cur.wid l a).toInt ≤ 2 ^ 31 - 1
    rw [BitVec.toInt_eq_toNat_cond]
    split <;> omega
  · show 0 ≤ ((s.src s.cur.wid l a).toNat : Int) ∧ ((s.src s.cur.wid l a).toNat : Int) ≤ 2 ^ 32 - 1
    omega
omit ht in
theorem no_flags_join : (0 : BitVec 5) ||| 0 ||| flNone = 0 := by decide
/-- A sum of some lanes, without flags. -/
def SumOf (s : State) (t : IType) (a : Reg) (ls : List Nat) (x : RedVal × BitVec 5) : Prop :=
  x.2 = 0 ∧ (x.1.v : Int) = (ls.map (fun l => operand s t l a)).sum % 2 ^ 32
theorem sumOf_join (l r : List Nat) (x y : RedVal × BitVec 5) (hx : SumOf s t a l x) (hy : SumOf s t a r y) : SumOf s t a (l ++ r) (redJoin .add (redType t) md x y) := by
  have hstep : redStep .add (redType t) md x.1 y.1 = (⟨(x.1.v + y.1.v) % 2 ^ 32, x.1.i⟩, flNone) := if_neg (by rw [isFloat_redType ht]; exact Bool.false_ne_true)
  unfold SumOf redJoin
  rw [hstep, hx.1, hy.1]
  refine ⟨no_flags_join, ?_⟩
  rw [List.map_append, List.sum_append, Int.add_emod, ← hx.2, ← hy.2]
  push_cast
  rfl
theorem sumOf_leaf (l : Nat) : SumOf s t a [l] (⟨(s.srcN s.cur.wid l (redType t).words a).toNat, l⟩, 0) := by
  refine ⟨rfl, ?_⟩
  rw [leaf_value s a, List.map_singleton, List.sum_singleton, operand_emod s a ht]
theorem sumOf_none : SumOf s t a [] (redIdentity .add (redType t), 0) := by
  refine ⟨rfl, ?_⟩
  rcases ht with rfl | rfl <;> rfl
omit ht in
/-- A sum of lanes as the word that holds it. -/
theorem SumOf.word {ls : List Nat} {x : RedVal × BitVec 5} (h : SumOf s t a ls x) : BitVec.ofNat 32 x.1.v = BitVec.ofNat 32 ((ls.map (fun l => operand s t l a)).sum % 2 ^ 32).toNat := by
  rw [← h.2]
  rfl
omit ht in
/-- A fold of a semilattice over a list and another. -/
theorem foldl_append_idem {f : Int → Int → Int} [Std.Associative f] [Std.Commutative f] [Std.IdempotentOp f] (z : Int) (l r : List Int) :
    (l ++ r).foldl f z = f (l.foldl f z) (r.foldl f z) := by
  have hz : l.foldl f z = f (l.foldl f z) z := by
    rw [Std.Commutative.comm (op := f), ← List.foldl_assoc (op := f), Std.IdempotentOp.idempotent (op := f)]
  rw [List.foldl_append]
  conv_lhs => rw [hz]
  exact List.foldl_assoc
/-- The least, or the greatest, of some lanes and of the type's bound, without flags. -/
def ExtremeOf (s : State) (t : IType) (a : Reg) (f : Int → Int → Int) (z : Int) (ls : List Nat) (x : RedVal × BitVec 5) : Prop :=
  x.2 = 0 ∧ x.1.v < 2 ^ 32 ∧ redInt (redType t) x.1.v = (ls.map (fun l => operand s t l a)).foldl f z
theorem extremeOf_leaf {f : Int → Int → Int} {z : Int} (hf : ∀ l, f z (operand s t l a) = operand s t l a) (l : Nat) :
    ExtremeOf s t a f z [l] (⟨(s.srcN s.cur.wid l (redType t).words a).toNat, l⟩, 0) := by
  unfold ExtremeOf
  rw [leaf_value s a]
  refine ⟨rfl, (s.src s.cur.wid l a).isLt, (redInt_operand s a ht l).trans (hf l).symm⟩
omit ht in
theorem ExtremeOf.join {f : Int → Int → Int} [Std.Associative f] [Std.Commutative f] [Std.IdempotentOp f] {z : Int} {l r : List Nat} {x y : RedVal × BitVec 5}
    (hx : ExtremeOf s t a f z l x) (hy : ExtremeOf s t a f z r y) {i : Nat} {u : RedVal} (hu : u = x.1 ∨ u = y.1)
    (hf : redInt (redType t) u.v = f (redInt (redType t) x.1.v) (redInt (redType t) y.1.v)) :
    ExtremeOf s t a f z (l ++ r) (⟨u.v % 2 ^ 32, i⟩, x.2 ||| y.2 ||| flNone) := by
  have hlt : u.v < 2 ^ 32 := by
    rcases hu with rfl | rfl
    · exact hx.2.1
    · exact hy.2.1
  refine ⟨?_, Nat.mod_lt _ (by decide), ?_⟩
  · show x.2 ||| y.2 ||| flNone = 0
    rw [hx.1, hy.1]
    exact no_flags_join
  · show redInt (redType t) (u.v % 2 ^ 32) = _
    rw [Nat.mod_eq_of_lt hlt, hf, List.map_append, foldl_append_idem, ← hx.2.2, ← hy.2.2]
theorem minOf_join (l r : List Nat) (x y : RedVal × BitVec 5) (hx : ExtremeOf s t a min (typeMax t) l x) (hy : ExtremeOf s t a min (typeMax t) r y) :
    ExtremeOf s t a min (typeMax t) (l ++ r) (redJoin .min (redType t) md x y) := by
  have hstep : redStep .min (redType t) md x.1 y.1 = if redInt (redType t) y.1.v < redInt (redType t) x.1.v then (⟨y.1.v % 2 ^ 32, x.1.i⟩, flNone) else (⟨x.1.v % 2 ^ 32, x.1.i⟩, flNone) :=
    if_neg (by rw [isFloat_redType ht]; exact Bool.false_ne_true)
  unfold redJoin
  rw [hstep]
  split
  · next h => exact hx.join s a hy (.inr rfl) (min_eq_right h.le).symm
  · next h => exact hx.join s a hy (.inl rfl) (min_eq_left (not_lt.1 h)).symm
theorem maxOf_join (l r : List Nat) (x y : RedVal × BitVec 5) (hx : ExtremeOf s t a max (typeMin t) l x) (hy : ExtremeOf s t a max (typeMin t) r y) :
    ExtremeOf s t a max (typeMin t) (l ++ r) (redJoin .max (redType t) md x y) := by
  have hstep : redStep .max (redType t) md x.1 y.1 = if redInt (redType t) x.1.v < redInt (redType t) y.1.v then (⟨y.1.v % 2 ^ 32, x.1.i⟩, flNone) else (⟨x.1.v % 2 ^ 32, x.1.i⟩, flNone) :=
    if_neg (by rw [isFloat_redType ht]; exact Bool.false_ne_true)
  unfold redJoin
  rw [hstep]
  split
  · next h => exact hx.join s a hy (.inr rfl) (max_eq_right h.le).symm
  · next h => exact hx.join s a hy (.inl rfl) (max_eq_left (not_lt.1 h)).symm
theorem minOf_none : ExtremeOf s t a min (typeMax t) [] (redIdentity .min (redType t), 0) := by
  refine ⟨rfl, ?_⟩
  rcases ht with rfl | rfl
  · exact (show _ ∧ redInt .s32 0x7FFFFFFF = typeMax .s32 by decide)
  · exact (show _ ∧ redInt .z32 0xFFFFFFFF = typeMax .z32 by decide)
theorem maxOf_none : ExtremeOf s t a max (typeMin t) [] (redIdentity .max (redType t), 0) := by
  refine ⟨rfl, ?_⟩
  rcases ht with rfl | rfl
  · exact (show _ ∧ redInt .s32 0x80000000 = typeMin .s32 by decide)
  · exact (show _ ∧ redInt .z32 0 = typeMin .z32 by decide)
theorem ExtremeOf.word {f : Int → Int → Int} {z : Int} {ls : List Nat} {x : RedVal × BitVec 5} (h : ExtremeOf s t a f z ls x) :
    BitVec.ofNat 32 x.1.v = BitVec.ofInt 32 ((ls.map (fun l => operand s t l a)).foldl f z) := by
  rw [← h.2.2]
  exact redInt_ofInt ht
end
end
end Sys2Proof
end

