-- ==== Sys2Proof/Proofs/IndexReductions.lean ====
section
/-! SUPPORT. Reductions bit by bit, and the lane that holds an extreme value (R155). -/

namespace Sys2Proof
open Machine

/-! ### Bitwise reductions -/

/-- What a bitwise reduction makes of one bit of each lane. -/
def bitsOf (o : RedOp) (bs : List Bool) : Bool :=
  match o with
  | .and => bs.all id
  | .or => bs.any id
  | _ => decide ((bs.filter id).length % 2 = 1)
section
variable (s : State) (m : Mods) (md : RMode) (a : Reg)
/-- Bit `j` of an operand. -/
def bitOf (j l : Nat) : Bool := (s.src s.cur.wid l a).getLsbD j
/-- The value holds what the reduction makes of each bit, without flags. -/
def BitsOf (o : RedOp) (ls : List Nat) (x : RedVal × BitVec 5) : Prop :=
  x.2 = 0 ∧ x.1.v < 2 ^ 32 ∧ ∀ j, j < 32 → x.1.v.testBit j = bitsOf o (ls.map (bitOf s a j))
theorem bitsOf_leaf (o : RedOp) (l : Nat) : BitsOf s a o [l] (⟨(s.srcN s.cur.wid l RedType.s32.words a).toNat, l⟩, 0) := by
  have hv : (s.srcN s.cur.wid l RedType.s32.words a).toNat = (s.src s.cur.wid l a).toNat := toNat_wide _
  refine ⟨rfl, by rw [hv]; exact (s.src s.cur.wid l a).isLt, fun j _ => ?_⟩
  show (s.srcN s.cur.wid l RedType.s32.words a).toNat.testBit j = bitsOf o [bitOf s a j l]
  rw [hv, BitVec.testBit_toNat]
  show bitOf s a j l = _
  cases o <;> cases bitOf s a j l <;> rfl
variable {s a} in
theorem BitsOf.join {o : RedOp} {l r : List Nat} {x y : RedVal × BitVec 5} (hx : BitsOf s a o l x) (hy : BitsOf s a o r y) {v i : Nat} (hv : v < 2 ^ 32)
    (h : ∀ j, v.testBit j = match o with | .and => x.1.v.testBit j && y.1.v.testBit j | .or => x.1.v.testBit j || y.1.v.testBit j | _ => x.1.v.testBit j ^^ y.1.v.testBit j) :
    BitsOf s a o (l ++ r) (⟨v % 2 ^ 32, i⟩, x.2 ||| y.2 ||| flNone) := by
  refine ⟨?_, Nat.mod_lt _ (by decide), fun j hj => ?_⟩
  · show x.2 ||| y.2 ||| flNone = 0
    rw [hx.1, hy.1]
    exact no_flags_join
  · show (v % 2 ^ 32).testBit j = _
    have hxor : ∀ u w : List Bool, (decide ((u.filter id).length % 2 = 1) ^^ decide ((w.filter id).length % 2 = 1)) = decide (((u ++ w).filter id).length % 2 = 1) := by
      intro u w
      rw [List.filter_append, List.length_append]
      generalize (u.filter id).length = p
      generalize (w.filter id).length = q
      rcases Nat.mod_two_eq_zero_or_one p with hp | hp <;> rcases Nat.mod_two_eq_zero_or_one q with hq | hq <;> simp [Nat.add_mod, hp, hq]
    rw [Nat.mod_eq_of_lt hv, h, hx.2.2 j hj, hy.2.2 j hj, List.map_append]
    cases o with
    | and => exact List.all_append.symm
    | or => exact List.any_append.symm
    | xor => exact hxor ..
    | add => exact hxor ..
    | min => exact hxor ..
    | max => exact hxor ..
    | minIdx => exact hxor ..
    | maxIdx => exact hxor ..
/-- The reductions that go bit by bit. -/
def IsBitwise (o : RedOp) : Prop := o = .and ∨ o = .or ∨ o = .xor
theorem bitsOf_join {o : RedOp} (ho : IsBitwise o) (l r : List Nat) (x y : RedVal × BitVec 5) (hx : BitsOf s a o l x) (hy : BitsOf s a o r y) :
    BitsOf s a o (l ++ r) (redJoin o .s32 md x y) := by
  rcases ho with rfl | rfl | rfl
  · exact hx.join hy (Nat.and_lt_two_pow _ hy.2.1) fun j => Nat.testBit_and ..
  · exact hx.join hy (Nat.or_lt_two_pow hx.2.1 hy.2.1) fun j => Nat.testBit_or ..
  · exact hx.join hy (Nat.xor_lt_two_pow hx.2.1 hy.2.1) fun j => Nat.testBit_xor ..
theorem bitsOf_none {o : RedOp} (ho : IsBitwise o) : BitsOf s a o [] (redIdentity o .s32, 0) := by
  rcases ho with rfl | rfl | rfl
  · exact ⟨rfl, by decide, fun j hj => show Nat.testBit (2 ^ 32 - 1) j = true by rw [Nat.testBit_two_pow_sub_one, decide_eq_true hj]⟩
  · exact ⟨rfl, by decide, fun j _ => Nat.zero_testBit j⟩
  · exact ⟨rfl, by decide, fun j _ => Nat.zero_testBit j⟩
theorem redRoot_bits {o : RedOp} (ho : IsBitwise o) : BitsOf s a o (s.activeLanes m) (redRoot s m o .s32 md a) :=
  redRoot_parts s m o .s32 md a (bitsOf_none s a ho) (fun i _ => bitsOf_leaf s a o i) (fun _ _ h => h) (bitsOf_join s md a ho)
end

/-! ### The lane that holds an extreme value -/

/-- An order in which values are better or worse, without cycles, that no third value stands outside of. -/
structure Ranks (lt : Nat → Nat → Prop) : Prop where
  asymm : ∀ {u v}, lt u v → ¬ lt v u
  between : ∀ {u v} (w), lt u v → lt u w ∨ lt w v
/-- `x` holds a value as good as that of its lane, the lowest of the lanes `ls` that no other is better than. -/
def HoldsBest (lt : Nat → Nat → Prop) (bits : Nat → Nat) (R : Nat → Nat → Prop) (none_ : Nat → Prop) (ls : List Nat) (x : RedVal) : Prop :=
  (ls = [] ∧ x.i = 0xFFFFFFFF ∧ none_ x.v) ∨
  (x.i ∈ ls ∧ R x.v x.i ∧ x.i < 0xFFFFFFFF ∧ ∀ l ∈ ls, ¬ lt (bits l) x.v ∧ (¬ lt x.v (bits l) → x.i ≤ l))
section
variable {lt : Nat → Nat → Prop} {bits : Nat → Nat} {R : Nat → Nat → Prop} {none_ : Nat → Prop} {l r : List Nat} {x y : RedVal}
theorem HoldsBest.le (h : HoldsBest lt bits R none_ l x) : x.i ≤ 0xFFFFFFFF := by
  rcases h with ⟨-, h, -⟩ | ⟨-, -, h, -⟩ <;> omega
/-- A strictly better value wins. -/
theorem HoldsBest.better (hr : Ranks lt) (hl : HoldsBest lt bits R none_ l x) (hy : HoldsBest lt bits R none_ r y) (hn : none_ y.v → ¬ lt y.v x.v) (h : lt y.v x.v) :
    HoldsBest lt bits R none_ (l ++ r) y ∧ HoldsBest lt bits R none_ (r ++ l) y := by
  rcases hy with ⟨-, -, hno⟩ | ⟨hmem, hR, hi, hy⟩
  · exact absurd h (hn hno)
  · have hx : ∀ j ∈ l, ¬ lt (bits j) y.v ∧ (¬ lt y.v (bits j) → y.i ≤ j) := by
      intro j hj
      rcases hl with ⟨rfl, -, -⟩ | ⟨-, -, -, hl⟩
      · exact absurd hj List.not_mem_nil
      · have hb := (hl j hj).1
        have hlt : lt y.v (bits j) := (hr.between (bits j) h).resolve_right hb
        exact ⟨hr.asymm hlt, fun h' => absurd hlt h'⟩
    refine ⟨.inr ⟨List.mem_append_right _ hmem, hR, hi, fun j hj => ?_⟩, .inr ⟨List.mem_append_left _ hmem, hR, hi, fun j hj => ?_⟩⟩
    · exact (List.mem_append.1 hj).elim (hx j) (hy j)
    · exact (List.mem_append.1 hj).elim (hy j) (hx j)
/-- Of values that are as good as one another, that of the lower lane. -/
theorem HoldsBest.lower (hr : Ranks lt) (hl : HoldsBest lt bits R none_ l x) (hy : HoldsBest lt bits R none_ r y) {z : RedVal}
    (hxy : ¬ lt x.v y.v) (hyx : ¬ lt y.v x.v) (hle : x.i ≤ y.i) (hi : z.i = x.i) (hR : R x.v x.i → R z.v x.i) (hno : none_ x.v → none_ z.v)
    (hz : ∀ u, (lt z.v u ↔ lt x.v u) ∧ (lt u z.v ↔ lt u x.v)) :
    HoldsBest lt bits R none_ (l ++ r) z ∧ HoldsBest lt bits R none_ (r ++ l) z := by
  have hylow := hy.le
  rcases hl with ⟨rfl, hxi, hn⟩ | ⟨hmem, hRx, hxi, hx⟩
  · rcases hy with ⟨rfl, -, -⟩ | ⟨-, -, h, -⟩
    · exact ⟨.inl ⟨rfl, hi.trans hxi, hno hn⟩, .inl ⟨rfl, hi.trans hxi, hno hn⟩⟩
    · omega
  · have hz1 : ∀ j ∈ l, ¬ lt (bits j) z.v ∧ (¬ lt z.v (bits j) → z.i ≤ j) := by
      intro j hj
      rw [(hz _).1, (hz _).2, hi]
      exact hx j hj
    have hz2 : ∀ j ∈ r, ¬ lt (bits j) z.v ∧ (¬ lt z.v (bits j) → z.i ≤ j) := by
      intro j hj
      rw [(hz _).1, (hz _).2, hi]
      rcases hy with ⟨rfl, -, -⟩ | ⟨-, -, -, hy⟩
      · exact absurd hj List.not_mem_nil
      · refine ⟨fun h => (hr.between y.v h).elim (hy j hj).1 hyx, fun h => hle.trans ((hy j hj).2 fun h' => ?_)⟩
        exact (hr.between x.v h').elim hyx h
    have hR' : R z.v z.i := by
      rw [hi]
      exact hR hRx
    refine ⟨.inr ⟨List.mem_append_left _ (hi ▸ hmem), hR', by omega, fun j hj => ?_⟩, .inr ⟨List.mem_append_right _ (hi ▸ hmem), hR', by omega, fun j hj => ?_⟩⟩
    · exact (List.mem_append.1 hj).elim (hz1 j) (hz2 j)
    · exact (List.mem_append.1 hj).elim (hz2 j) (hz1 j)
end

/-! ### Integers -/

section
variable (s : State) (m : Mods) (md : RMode) (a : Reg) {t : IType} (ht : t = .s32 ∨ t = .z32) (mx : Bool)
/-- A better value of a type: a smaller one, or for a maximum a greater. -/
def betterInt (t : RedType) (mx : Bool) (u v : Nat) : Prop := if mx then redInt t v < redInt t u else redInt t u < redInt t v
theorem betterInt_ranks (t : RedType) (mx : Bool) : Ranks (betterInt t mx) := by
  unfold betterInt
  cases mx with
  | true => exact ⟨fun h h' => lt_asymm (show redInt t _ < redInt t _ from h) h', fun {u v} w (h : redInt t v < redInt t u) => (lt_or_ge (redInt t w) (redInt t u)).imp id fun hw => h.trans_le hw⟩
  | false => exact ⟨fun h h' => lt_asymm (show redInt t _ < redInt t _ from h) h', fun {u v} w (h : redInt t u < redInt t v) => (lt_or_ge (redInt t u) (redInt t w)).imp id fun hw => hw.trans_lt h⟩
/-- The operation of an index form. -/
def idxOp (mx : Bool) : RedOp := if mx then .maxIdx else .minIdx
/-- The value that stands in for a lane. -/
def idxNone (t : IType) (mx : Bool) : Int := if mx then typeMin t else typeMax t
/-- The best of some lanes, with the lowest lane that has it, without flags. -/
def BestInt (s : State) (t : IType) (a : Reg) (mx : Bool) (ls : List Nat) (x : RedVal × BitVec 5) : Prop :=
  x.2 = 0 ∧ x.1.v < 2 ^ 32 ∧ HoldsBest (betterInt (redType t) mx) (fun l => (s.src s.cur.wid l a).toNat) (fun v i => v = (s.src s.cur.wid i a).toNat)
    (fun v => redInt (redType t) v = idxNone t mx) ls x.1
include ht
theorem redInt_bounds {v : Nat} (h : v < 2 ^ 32) : typeMin t ≤ redInt (redType t) v ∧ redInt (redType t) v ≤ typeMax t := by
  rcases ht with rfl | rfl
  · have h1 := BitVec.le_toInt (BitVec.ofNat 32 v)
    have h2 := BitVec.toInt_lt (x := BitVec.ofNat 32 v)
    exact ⟨h1, Int.le_sub_one_of_lt h2⟩
  · show (0 : Int) ≤ (v : Int) ∧ (v : Int) ≤ 2 ^ 32 - 1
    omega
theorem idxNone_not_better {u v : Nat} (hu : redInt (redType t) u = idxNone t mx) (hv : v < 2 ^ 32) : ¬ betterInt (redType t) mx u v := by
  obtain ⟨h1, h2⟩ := redInt_bounds ht hv
  unfold betterInt
  rw [hu]
  cases mx with
  | true => exact not_lt.2 h1
  | false => exact not_lt.2 h2
/-- The choice of an index form between integers. -/
theorem idxStep_int (x y : RedVal) : ∃ u, idxStep mx (redType t) x y = (u, flNone) ∧ (betterInt (redType t) mx y.v x.v → u = y) ∧
    (¬ betterInt (redType t) mx y.v x.v → betterInt (redType t) mx x.v y.v → u = x) ∧
    (¬ betterInt (redType t) mx y.v x.v → ¬ betterInt (redType t) mx x.v y.v → u = if x.i ≤ y.i then x else y) := by
  unfold idxStep betterInt
  rw [if_neg (by rw [isFloat_redType ht]; exact Bool.false_ne_true)]
  exact ⟨_, rfl, fun h => if_pos h, fun h h' => (if_neg h).trans (if_pos h'), fun h h' => (if_neg h).trans (if_neg h')⟩
theorem bestInt_join (l r : List Nat) (x y : RedVal × BitVec 5) (hx : BestInt s t a mx l x) (hy : BestInt s t a mx r y) :
    BestInt s t a mx (l ++ r) (redJoin (idxOp mx) (redType t) md x y) := by
  have hstep : redStep (idxOp mx) (redType t) md x.1 y.1 = idxStep mx (redType t) x.1 y.1 := by cases mx <;> rfl
  obtain ⟨hx0, hxl, hx⟩ := hx
  obtain ⟨hy0, hyl, hy⟩ := hy
  have hr := betterInt_ranks (redType t) mx
  unfold redJoin
  obtain ⟨u, hu, hu1, hu2, hu3⟩ := idxStep_int ht mx x.1 y.1
  rw [hstep, hu, hx0, hy0]
  refine ⟨no_flags_join, ?_⟩
  dsimp only
  by_cases h1 : betterInt (redType t) mx y.1.v x.1.v
  · rw [hu1 h1]
    exact ⟨hyl, (hx.better hr hy (fun hn => idxNone_not_better ht mx hn hxl) h1).1⟩
  · by_cases h2 : betterInt (redType t) mx x.1.v y.1.v
    · rw [hu2 h1 h2]
      exact ⟨hxl, (hy.better hr hx (fun hn => idxNone_not_better ht mx hn hyl) h2).2⟩
    · rw [hu3 h1 h2]
      split
      · next h => exact ⟨hxl, (hx.lower hr hy h2 h1 h rfl id id fun u => ⟨Iff.rfl, Iff.rfl⟩).1⟩
      · next h => exact ⟨hyl, (hy.lower hr hx h1 h2 (Nat.le_of_not_le h) rfl id id fun u => ⟨Iff.rfl, Iff.rfl⟩).2⟩
omit ht in
theorem bestInt_leaf {l : Nat} (hl : l < 32) : BestInt s t a mx [l] (⟨(s.srcN s.cur.wid l (redType t).words a).toNat, l⟩, 0) := by
  unfold BestInt
  rw [leaf_value s a]
  refine ⟨rfl, (s.src s.cur.wid l a).isLt, .inr ⟨List.mem_singleton.2 rfl, rfl, by dsimp only; omega, fun j hj => ?_⟩⟩
  rw [List.mem_singleton.1 hj]
  exact ⟨fun h => (betterInt_ranks _ mx).asymm h h, fun _ => le_rfl⟩
theorem bestInt_none : BestInt s t a mx [] (redIdentity (idxOp mx) (redType t), 0) := by
  rcases ht with rfl | rfl <;> cases mx
  · exact ⟨rfl, by decide, .inl ⟨rfl, rfl, by decide⟩⟩
  · exact ⟨rfl, by decide, .inl ⟨rfl, rfl, by decide⟩⟩
  · exact ⟨rfl, by decide, .inl ⟨rfl, rfl, by decide⟩⟩
  · exact ⟨rfl, by decide, .inl ⟨rfl, rfl, by decide⟩⟩
theorem redRoot_bestInt : BestInt s t a mx (s.activeLanes m) (redRoot s m (idxOp mx) (redType t) md a) :=
  redRoot_parts s m (idxOp mx) (redType t) md a (bestInt_none s a ht mx) (fun _ hi => bestInt_leaf s a mx (State.lane_lt_of_getLsbD hi.1)) (fun _ _ h => h) (bestInt_join s md a ht mx)
end
/-- The words of an index form: the value below the lane. -/
theorem lred_idx_writes {s : State} {m : Mods} {t : RedType} {d a : Reg} (mx : Bool) : ∃ u, exec (.lred m (idxOp mx) t d a) s = .next u ∧
    Writes s u m none (regs2 d) (fun _ => to64 d (BitVec.ofNat 32 (redRoot s m (idxOp mx) t (s.rmode m .rne) a).1.i ++ BitVec.ofNat 32 (redRoot s m (idxOp mx) t (s.rmode m .rne) a).1.v))
      (fun _ => (redRoot s m (idxOp mx) t (s.rmode m .rne) a).2) := by
  have hw := perLane_writes m .owed (dstRegs d 2) (fun _ => (outs64 d (BitVec.ofNat 32 (redRoot s m (idxOp mx) t (s.rmode m .rne) a).1.i ++
    BitVec.ofNat 32 (redRoot s m (idxOp mx) t (s.rmode m .rne) a).1.v), (redRoot s m (idxOp mx) t (s.rmode m .rne) a).2)) s
  simp only [dstRegs_two, outs64_eq] at hw
  refine ⟨_, ?_, hw⟩
  show execLred m (idxOp mx) t d a s = _
  unfold execLred
  rw [tree_root]
  cases mx
  · simp only [← dstRegs_two, ← outs64_eq]
    rfl
  · simp only [← dstRegs_two, ← outs64_eq]
    rfl
end Sys2Proof
end

