-- ==== Sys2Proof/Proofs/FloatReductions.lean ====
section
/-! SUPPORT. Reductions and scans of floating-point values (R155, R156), and what settles O12. -/

namespace Sys2Proof
open Machine

/-! ### The order by which an extreme is chosen -/

theorem not_below_nan {x y : FVal} (h : x.isNan = true ∨ y.isNan = true) : ¬ Below x y := by
  cases x with
  | nan s => exact fun h' => h'
  | inf a =>
    cases y with
    | nan s => exact fun h' => h'
    | inf b => exact absurd h (by simp [FVal.isNan])
    | fin b n g => exact absurd h (by simp [FVal.isNan])
  | fin a m e =>
    cases y with
    | nan s => exact fun h' => h'
    | inf b => exact absurd h (by simp [FVal.isNan])
    | fin b n g => exact absurd h (by simp [FVal.isNan])
/-- A number stands on one side of any other that is below a third. -/
theorem Below.between {x z : FVal} (h : Below x z) {y : FVal} (hy : y.isNan = false) : Below x y ∨ Below y z := by
  have hsum : ∀ {a b c : ℚ}, a < c → a < b ∨ b < c := fun {a b c} h => (lt_or_ge a b).imp_right fun hb => hb.trans_lt h
  cases y with
  | nan s => exact absurd hy (by simp [FVal.isNan])
  | inf b =>
    cases x with
    | nan s => exact h.elim
    | inf a =>
      cases z with
      | nan s => exact h.elim
      | inf c => cases b with
        | true => exact .inr ⟨rfl, h.2⟩
        | false => exact .inl ⟨h.1, rfl⟩
      | fin c k u => cases b with
        | true => exact .inr rfl
        | false => exact .inl ⟨h, rfl⟩
    | fin a m e =>
      cases z with
      | nan s => exact h.elim
      | inf c => cases b with
        | true => exact .inr ⟨rfl, h⟩
        | false => exact .inl rfl
      | fin c k u => cases b with
        | true => exact .inr rfl
        | false => exact .inl rfl
  | fin b n g =>
    cases x with
    | nan s => exact h.elim
    | inf a =>
      cases z with
      | nan s => exact h.elim
      | inf c => exact .inl h.1
      | fin c k u => exact .inl h
    | fin a m e =>
      cases z with
      | nan s => exact h.elim
      | inf c => exact .inr h
      | fin c k u =>
        rcases h with h | ⟨rfl, rfl, ha, hc⟩
        · exact (hsum h).imp .inl .inl
        · subst ha hc
          rcases lt_trichotomy (ratOf (.fin b n g)) 0 with hb | hb | hb
          · exact .inr (.inl (by rw [ratOf_zero]; exact hb))
          · have hn : n = 0 := by
              rw [ratOf_fin] at hb
              have := (mul_eq_zero.1 ((mul_eq_zero.1 hb).resolve_left (signOf_ne_zero b))).resolve_right (by positivity)
              exact_mod_cast this
            subst hn
            cases b with
            | true => exact .inr (.inr ⟨rfl, rfl, rfl, rfl⟩)
            | false => exact .inl (.inr ⟨rfl, rfl, rfl, rfl⟩)
          · exact .inl (.inl (by rw [ratOf_zero]; exact hb))
/-- The order of a minimum, or of a maximum. -/
def extremeLess (mx : Bool) (x y : FVal) : Prop := if mx then Below y x else Below x y
/-- Better values come first, a NaN after every number. -/
def betterF (t : Fmt) (mx : Bool) (u v : Nat) : Prop := ((t.val v).isNan = true ∧ (t.val u).isNan = false) ∨ extremeLess mx (t.val u) (t.val v)
section
variable {mx : Bool} {x y z : FVal}
theorem extremeLess.asymm (h : extremeLess mx x y) : ¬ extremeLess mx y x := by
  cases mx with
  | true => exact Below.asymm (x := y) (y := x) h
  | false => exact Below.asymm (x := x) (y := y) h
theorem extremeLess_irrefl (x : FVal) : ¬ extremeLess mx x x := fun h => h.asymm h
theorem not_extremeLess_nan (h : x.isNan = true ∨ y.isNan = true) : ¬ extremeLess mx x y := by
  cases mx with
  | true => exact not_below_nan h.symm
  | false => exact not_below_nan h
theorem extremeLess.not_nan (h : extremeLess mx x y) : x.isNan = false ∧ y.isNan = false :=
  ⟨Bool.eq_false_iff.2 fun h' => not_extremeLess_nan (.inl h') h, Bool.eq_false_iff.2 fun h' => not_extremeLess_nan (.inr h') h⟩
theorem extremeLess.between (h : extremeLess mx x z) (hy : y.isNan = false) : extremeLess mx x y ∨ extremeLess mx y z := by
  cases mx with
  | true => exact (Below.between (x := z) (z := x) h hy).symm
  | false => exact Below.between (x := x) (z := z) h hy
theorem betterF_ranks (t : Fmt) (mx : Bool) : Ranks (betterF t mx) := by
  refine ⟨fun {u v} h h' => ?_, fun {u v} w h => ?_⟩
  · rcases h with ⟨hv, hu⟩ | h
    · rcases h' with ⟨hu', -⟩ | h'
      · exact Bool.false_ne_true (hu.symm.trans hu')
      · exact not_extremeLess_nan (.inl hv) h'
    · rcases h' with ⟨hu, -⟩ | h'
      · exact not_extremeLess_nan (.inl hu) h
      · exact h.asymm h'
  · by_cases hw : (t.val w).isNan = true
    · rcases h with ⟨-, hu⟩ | h
      · exact .inl (.inl ⟨hw, hu⟩)
      · exact .inl (.inl ⟨hw, h.not_nan.1⟩)
    · rcases h with ⟨hv, -⟩ | h
      · exact .inr (.inl ⟨hv, Bool.eq_false_iff.2 hw⟩)
      · exact (h.between (Bool.eq_false_iff.2 hw)).imp .inr .inr
end
theorem val_nan {t : Fmt} (hf : FineFmt t) : t.val t.nan = .nan false := by
  have hfb := hf.fb
  have h := val_fields hf false (ex := t.expMax) (fr := 2 ^ (t.fb - 1)) expMax_lt (Nat.pow_lt_pow_right (by decide) (by omega))
  have hp := Nat.two_pow_pos (t.fb - 1)
  rw [if_pos rfl, if_neg (by omega), Nat.div_self hp, show t.sign false = 0 from rfl, Nat.zero_add] at h
  exact h
theorem fMinMax_picks (t : Fmt) (mx : Bool) (x y : Nat) : Picks t (extremeLess mx) x y (fMinMax t mx x y) := by
  cases mx with
  | true => exact fMinMax_max t x y
  | false => exact fMinMax_min t x y

/-! ### Operands -/

section
/-- The type of a reduction of a format. -/
def floatRed (f : FFmt) : RedType := if f = .f64 then .f64 else .f32
variable (s : State) (m : Mods) (md : RMode) (a : Reg) {f : FFmt} (hf : f = .f32 ∨ f = .f64) (mx : Bool)
include hf
theorem redFmt_floatRed : redFmt (floatRed f) = fmtOf f := by rcases hf with rfl | rfl <;> rfl
theorem isFloat_floatRed : isFloat (floatRed f) = true := by rcases hf with rfl | rfl <;> rfl
theorem floatRed_words : (floatRed f).words = f.words := by rcases hf with rfl | rfl <;> rfl
theorem elemsOf_one : elemsOf f = 1 := by rcases hf with rfl | rfl <;> rfl
theorem float_leaf (l : Nat) : (s.srcN s.cur.wid l (floatRed f).words a).toNat = elemOf s f l a 0 := by
  rcases hf with rfl | rfl
  · exact (toNat_wide _).trans (elemOf_f32 ..).symm
  · exact (elemOf_f64 ..).symm

/-! ### Sums -/

omit hf in
/-- A sum with the flags of its parts. -/
def addFlagged (t : Fmt) (md : RMode) (x y : FRes) : FRes := ((fAdd t md x.1 y.1).1, x.2 ||| y.2 ||| (fAdd t md x.1 y.1).2)
omit hf in
/-- The operand of a lane, negative zero where it takes no part. -/
def sumLeaf (s : State) (m : Mods) (a : Reg) (f : FFmt) (j : Nat) : Nat := if j ∈ s.activeLanes m then elemOf s f j a 0 else (fmtOf f).sign true
omit hf in
/-- A value on its way without its lane. -/
def plainVal (x : RedVal × BitVec 5) : FRes := (x.1.v, x.2)
theorem plainVal_join (x y : RedVal × BitVec 5) : plainVal (redJoin .add (floatRed f) md x y) = addFlagged (fmtOf f) md (plainVal x) (plainVal y) := by
  have hstep : redStep .add (floatRed f) md x.1 y.1 = (⟨(fAdd (fmtOf f) md x.1.v y.1.v).1, x.1.i⟩, (fAdd (fmtOf f) md x.1.v y.1.v).2) := by
    rw [← redFmt_floatRed hf]
    exact if_pos (isFloat_floatRed hf)
  unfold redJoin
  rw [hstep]
  rfl
theorem plainVal_leaf (j : Nat) : plainVal (redLeaf .add (floatRed f) s m a j) = (sumLeaf s m a f j, 0) := by
  unfold sumLeaf
  by_cases h : onB s m j = true
  · rw [redLeaf_on s m .add _ a h, if_pos (mem_activeLanes.2 ((onB_iff s m j).1 h)), float_leaf s a hf]
    rfl
  · rw [redLeaf_off s m .add _ a h, if_neg (fun h' => h ((onB_iff s m j).2 (mem_activeLanes.1 h'))), ← redFmt_floatRed hf]
    exact Prod.ext (if_pos (isFloat_floatRed hf)) rfl
theorem redRoot_sum : plainVal (redRoot s m .add (floatRed f) md a) = treeOf (addFlagged (fmtOf f) md) (fun j => (sumLeaf s m a f j, 0)) 5 0 := by
  unfold redRoot
  rw [treeOf_map plainVal (plainVal_join md hf)]
  exact congrArg (fun g => treeOf _ g 5 0) (funext fun j => plainVal_leaf s m a hf j)
theorem scanFold_sum (n : Nat) : plainVal (scanFold .add (floatRed f) md ((redVals s m .add (floatRed f) a).take n)) =
    ((List.range 32).filter (· < n)).foldl (fun r j => addFlagged (fmtOf f) md r (sumLeaf s m a f j, 0)) ((fmtOf f).sign true, 0) := by
  have hz : plainVal (redIdentity .add (floatRed f), 0) = ((fmtOf f).sign true, 0) := by
    rw [← redFmt_floatRed hf]
    exact Prod.ext (if_pos (isFloat_floatRed hf)) rfl
  rw [scanFold_leaves, ← hz]
  refine (List.foldl_hom plainVal fun x j => ?_).symm
  rw [plainVal_join md hf, plainVal_leaf s m a hf]

/-! ### Minimum and maximum -/

omit hf in
/-- A signalling NaN among some lanes. -/
def anySigOf (s : State) (a : Reg) (f : FFmt) (ls : List Nat) : Bool := ls.any (fun l => (valOf s f l a 0).isSig)
omit hf in
theorem anySigOf_append (l r : List Nat) : anySigOf s a f (l ++ r) = (anySigOf s a f l || anySigOf s a f r) := List.any_append
omit hf in
/-- The extreme of some lanes that are not all NaN. -/
def ExtremeAt (s : State) (a : Reg) (f : FFmt) (mx : Bool) (ls : List Nat) (b : Nat) : Prop :=
  (∃ l ∈ ls, (valOf s f l a 0).isNan = false ∧ b = elemOf s f l a 0) ∧ ∀ l ∈ ls, (valOf s f l a 0).isNan = false → ¬ extremeLess mx (valOf s f l a 0) ((fmtOf f).val b)
omit hf in
/-- The extreme of some lanes, with the flags to come. -/
def ExtremeF (s : State) (a : Reg) (f : FFmt) (mx : Bool) (ls : List Nat) (x : RedVal × BitVec 5) : Prop :=
  x.2 ||| nvIf ((fmtOf f).val x.1.v).isSig = nvIf (anySigOf s a f ls) ∧
  ((∀ l ∈ ls, (valOf s f l a 0).isNan = true) ∧ ((fmtOf f).val x.1.v).isNan = true ∨ ExtremeAt s a f mx ls x.1.v)
omit hf in
/-- The extreme of some lanes, the canonical NaN where all are NaN, with its flags. -/
def ExtremeDone (s : State) (a : Reg) (f : FFmt) (mx : Bool) (ls : List Nat) (x : RedVal × BitVec 5) : Prop :=
  x.2 = nvIf (anySigOf s a f ls) ∧ ((∀ l ∈ ls, (valOf s f l a 0).isNan = true) ∧ x.1.v = (fmtOf f).nan ∨ ExtremeAt s a f mx ls x.1.v)
variable {s a mx}
omit hf in
theorem ExtremeAt.not_nan {ls : List Nat} {b : Nat} (h : ExtremeAt s a f mx ls b) : ((fmtOf f).val b).isNan = false := by
  obtain ⟨⟨l, -, hn, rfl⟩, -⟩ := h
  exact hn
omit hf in
theorem ExtremeDone.pending {ls : List Nat} {x : RedVal × BitVec 5} (h : ExtremeDone s a f mx ls x) : ExtremeF s a f mx ls x := by
  have hq : ((fmtOf f).val x.1.v).isSig = false := by
    rcases h.2 with ⟨-, h⟩ | h
    · rw [h, val_nan (roomy_fmtOf f).toFineFmt]
      rfl
    · exact isSig_of_not_nan h.not_nan
  refine ⟨?_, h.2.imp_left fun h' => ⟨h'.1, ?_⟩⟩
  · rw [hq, h.1]
    exact BitVec.or_zero
  · rw [h'.2, val_nan (roomy_fmtOf f).toFineFmt]
    rfl
omit hf in
/-- An extreme of two parts, one of which holds only NaNs, or the better of two. -/
theorem ExtremeAt.join {l r : List Nat} {b c : Nat} (hb : ExtremeAt s a f mx l b)
    (hr : (∀ j ∈ r, (valOf s f j a 0).isNan = true) ∨ ExtremeAt s a f mx r c ∧ ¬ extremeLess mx ((fmtOf f).val c) ((fmtOf f).val b)) :
    ExtremeAt s a f mx (l ++ r) b ∧ ExtremeAt s a f mx (r ++ l) b := by
  have hj : ∀ j ∈ r, (valOf s f j a 0).isNan = false → ¬ extremeLess mx (valOf s f j a 0) ((fmtOf f).val b) := by
    intro j hj hn h
    rcases hr with hr | ⟨hc, hcb⟩
    · exact Bool.false_ne_true (hn.symm.trans (hr j hj))
    · exact (h.between hc.not_nan).elim (hc.2 j hj hn) hcb
  have hbn := hb.not_nan
  obtain ⟨⟨i, hi, hin, hv⟩, hall⟩ := hb
  exact ⟨⟨⟨i, List.mem_append_left _ hi, hin, hv⟩, fun j h => (List.mem_append.1 h).elim (hall j) (hj j)⟩,
    ⟨⟨i, List.mem_append_right _ hi, hin, hv⟩, fun j h => (List.mem_append.1 h).elim (hj j) (hall j)⟩⟩
omit hf in
/-- What a choice between two parts gives. -/
theorem ExtremeF.join {l r : List Nat} {x y : RedVal × BitVec 5} (hx : ExtremeF s a f mx l x) (hy : ExtremeF s a f mx r y) {u : FRes} {i : Nat}
    (hu : Picks (fmtOf f) (extremeLess mx) x.1.v y.1.v u) : ExtremeDone s a f mx (l ++ r) (⟨u.1, i⟩, x.2 ||| y.2 ||| u.2) := by
  obtain ⟨hfl, hnn, hnf, hfn, hff⟩ := hu
  refine ⟨?_, ?_⟩
  · show x.2 ||| y.2 ||| u.2 = _
    rw [hfl, anySigOf_append, ← nvIf_or, ← nvIf_or, ← hx.1, ← hy.1]
    ac_rfl
  · show _ ∧ u.1 = _ ∨ ExtremeAt s a f mx (l ++ r) u.1
    rcases hx.2 with ⟨hl, hxn⟩ | hl
    · rcases hy.2 with ⟨hr, hyn⟩ | hr
      · exact .inl ⟨fun j hj => (List.mem_append.1 hj).elim (hl j) (hr j), hnn hxn hyn⟩
      · rw [hnf hxn hr.not_nan]
        exact .inr (hr.join (c := 0) (.inl hl)).2
    · rcases hy.2 with ⟨hr, hyn⟩ | hr
      · rw [hfn hl.not_nan hyn]
        exact .inr (hl.join (c := 0) (.inl hr)).1
      · obtain ⟨hor, h1, h2⟩ := hff hl.not_nan hr.not_nan
        rcases hor with h | h
        · rw [h] at h2 ⊢
          exact .inr (hl.join (.inr ⟨hr, h2⟩)).1
        · rw [h] at h1 ⊢
          exact .inr (hr.join (.inr ⟨hl, h1⟩)).2
/-- The reduction of an extreme. -/
def extremeOp (mx : Bool) : RedOp := if mx then .max else .min
theorem extremeF_join (l r : List Nat) (x y : RedVal × BitVec 5) (hx : ExtremeF s a f mx l x) (hy : ExtremeF s a f mx r y) :
    ExtremeDone s a f mx (l ++ r) (redJoin (extremeOp mx) (floatRed f) md x y) := by
  have hstep : redStep (extremeOp mx) (floatRed f) md x.1 y.1 = (⟨(fMinMax (fmtOf f) mx x.1.v y.1.v).1, x.1.i⟩, (fMinMax (fmtOf f) mx x.1.v y.1.v).2) := by
    rw [← redFmt_floatRed hf]
    cases mx with
    | true => exact if_pos (isFloat_floatRed hf)
    | false => exact if_pos (isFloat_floatRed hf)
  unfold redJoin
  rw [hstep]
  exact hx.join hy (fMinMax_picks ..)
theorem extremeF_leaf (l : Nat) : ExtremeF s a f mx [l] (⟨(s.srcN s.cur.wid l (floatRed f).words a).toNat, l⟩, 0) := by
  unfold ExtremeF
  rw [float_leaf s a hf]
  have hany : anySigOf s a f [l] = (valOf s f l a 0).isSig := Bool.or_false _
  refine ⟨?_, ?_⟩
  · rw [hany]
    exact BitVec.zero_or
  · by_cases h : (valOf s f l a 0).isNan = true
    · exact .inl ⟨fun j hj => by rw [List.mem_singleton.1 hj]; exact h, h⟩
    · refine .inr ⟨⟨l, List.mem_singleton.2 rfl, Bool.eq_false_iff.2 h, rfl⟩, fun j hj _ => ?_⟩
      rw [List.mem_singleton.1 hj]
      exact extremeLess_irrefl _
theorem extremeDone_none : ExtremeDone s a f mx [] (redIdentity (extremeOp mx) (floatRed f), 0) := by
  refine ⟨rfl, .inl ⟨nofun, ?_⟩⟩
  rw [← redFmt_floatRed hf]
  cases mx with
  | true => exact if_pos (isFloat_floatRed hf)
  | false => exact if_pos (isFloat_floatRed hf)
theorem redRoot_extreme : ExtremeDone s a f mx (s.activeLanes m) (redRoot s m (extremeOp mx) (floatRed f) md a) :=
  redRoot_parts s m _ _ md a (extremeDone_none hf).pending (fun i _ => extremeF_leaf hf i) (fun _ _ h => h.pending) (extremeF_join md hf)
theorem scanFold_extreme (n : Nat) : ExtremeDone s a f mx ((s.activeLanes m).filter (· < n)) (scanFold (extremeOp mx) (floatRed f) md ((redVals s m (extremeOp mx) (floatRed f) a).take n)) :=
  scanFold_parts s m _ _ md a (extremeDone_none hf).pending (fun i _ => extremeF_leaf hf i) (fun _ _ h => h.pending) (extremeF_join md hf) (extremeDone_none hf) n
end
end Sys2Proof
end

