-- ==== Sys2Proof/Proofs/CrossLane.lean ====
section
/-! SUPPORT. The lane that holds a floating-point extreme, and what settles O12 (R155, R156). -/

namespace Sys2Proof
open Machine

/-! ### The index forms of FP32 -/

section
variable (s : State) (m : Mods) (md : RMode) (a : Reg) (mx : Bool)
/-- A value as good as that of a lane: its own, or a NaN for a NaN. -/
def AsGood (s : State) (a : Reg) (v i : Nat) : Prop := v = elemOf s .f32 i a 0 ∨ ((fmt32.val v).isNan = true ∧ (valOf s .f32 i a 0).isNan = true)
/-- The best of some lanes, with the lowest lane that has it and the flags to come. -/
def BestF (s : State) (a : Reg) (mx : Bool) (ls : List Nat) (x : RedVal × BitVec 5) : Prop :=
  x.2 ||| nvIf (fmt32.val x.1.v).isSig = nvIf (anySigOf s a .f32 ls) ∧
  HoldsBest (betterF fmt32 mx) (fun l => elemOf s .f32 l a 0) (AsGood s a) (fun v => (fmt32.val v).isNan = true) ls x.1
/-- The same with its flags, a NaN the canonical one. -/
def BestDone (s : State) (a : Reg) (mx : Bool) (ls : List Nat) (x : RedVal × BitVec 5) : Prop :=
  x.2 = nvIf (anySigOf s a .f32 ls) ∧ ((fmt32.val x.1.v).isNan = true → x.1.v = fmt32.nan) ∧
  HoldsBest (betterF fmt32 mx) (fun l => elemOf s .f32 l a 0) (AsGood s a) (fun v => (fmt32.val v).isNan = true) ls x.1
variable {s a mx}
theorem BestDone.pending {ls : List Nat} {x : RedVal × BitVec 5} (h : BestDone s a mx ls x) : BestF s a mx ls x := by
  obtain ⟨h1, h2, h3⟩ := h
  refine ⟨?_, h3⟩
  have hq : (fmt32.val x.1.v).isSig = false := by
    by_cases hn : (fmt32.val x.1.v).isNan = true
    · rw [h2 hn, val_nan fine_fmt32]
      rfl
    · exact isSig_of_not_nan (Bool.eq_false_iff.2 hn)
  rw [hq, h1]
  exact BitVec.or_zero
/-- NaNs are as good as one another. -/
theorem betterF_nan {v w : Nat} (hv : (fmt32.val v).isNan = true) (hw : (fmt32.val w).isNan = true) (u : Nat) :
    (betterF fmt32 mx v u ↔ betterF fmt32 mx w u) ∧ (betterF fmt32 mx u v ↔ betterF fmt32 mx u w) := by
  unfold betterF
  rw [hv, hw]
  exact ⟨or_congr_right (iff_of_false (not_extremeLess_nan (.inl hv)) (not_extremeLess_nan (.inl hw))),
    or_congr_right (iff_of_false (not_extremeLess_nan (.inr hv)) (not_extremeLess_nan (.inr hw)))⟩
theorem betterF_not_nan {u v : Nat} (h : betterF fmt32 mx u v) : (fmt32.val u).isNan = false := by
  rcases h with ⟨-, h⟩ | h
  · exact h
  · exact h.not_nan.1
/-- The choice of an index form between two values. -/
theorem idxStep_float (x y : RedVal) : ∃ u, idxStep mx .f32 x y = (u, nvIf ((fmt32.val x.v).isSig || (fmt32.val y.v).isSig)) ∧
    (betterF fmt32 mx y.v x.v → u = y) ∧ (betterF fmt32 mx x.v y.v → u = x) ∧
    (¬ betterF fmt32 mx y.v x.v → ¬ betterF fmt32 mx x.v y.v →
      ((fmt32.val x.v).isNan = true ∧ (fmt32.val y.v).isNan = true ∧ u = ⟨fmt32.nan, (if x.i ≤ y.i then x else y).i⟩) ∨
      ((fmt32.val x.v).isNan = false ∧ (fmt32.val y.v).isNan = false ∧ u = if x.i ≤ y.i then x else y)) := by
  have hcond1 : (if mx then ltVal true (fmt32.val x.v) (fmt32.val y.v) else ltVal true (fmt32.val y.v) (fmt32.val x.v)) = true ↔ extremeLess mx (fmt32.val y.v) (fmt32.val x.v) := by
    cases mx with
    | true => exact ltVal_below ..
    | false => exact ltVal_below ..
  have hcond2 : (if mx then ltVal true (fmt32.val y.v) (fmt32.val x.v) else ltVal true (fmt32.val x.v) (fmt32.val y.v)) = true ↔ extremeLess mx (fmt32.val x.v) (fmt32.val y.v) := by
    cases mx with
    | true => exact ltVal_below ..
    | false => exact ltVal_below ..
  unfold idxStep
  rw [if_pos (show isFloat .f32 = true from rfl), show redFmt .f32 = fmt32 from rfl]
  refine ⟨_, Prod.ext rfl (sigFlag_two ..), ?_, ?_, ?_⟩
  · rintro (⟨hx, hy⟩ | h)
    · exact (if_pos hx).trans (if_neg (by rw [hy]; exact Bool.false_ne_true))
    · obtain ⟨hy, hx⟩ := h.not_nan
      exact (if_neg (by rw [hx]; exact Bool.false_ne_true)).trans ((if_neg (by rw [hy]; exact Bool.false_ne_true)).trans (if_pos (hcond1.2 h)))
  · rintro (⟨hy, hx⟩ | h)
    · exact (if_neg (by rw [hx]; exact Bool.false_ne_true)).trans (if_pos hy)
    · obtain ⟨hx, hy⟩ := h.not_nan
      refine (if_neg (by rw [hx]; exact Bool.false_ne_true)).trans ((if_neg (by rw [hy]; exact Bool.false_ne_true)).trans ?_)
      exact (if_neg (fun h' => h.asymm (hcond1.1 h'))).trans (if_pos (hcond2.2 h))
  · intro h1 h2
    by_cases hx : (fmt32.val x.v).isNan = true
    · by_cases hy : (fmt32.val y.v).isNan = true
      · exact .inl ⟨hx, hy, (if_pos hx).trans (if_pos hy)⟩
      · exact absurd (.inl ⟨hx, Bool.eq_false_iff.2 hy⟩) h1
    · by_cases hy : (fmt32.val y.v).isNan = true
      · exact absurd (.inl ⟨hy, Bool.eq_false_iff.2 hx⟩) h2
      · refine .inr ⟨Bool.eq_false_iff.2 hx, Bool.eq_false_iff.2 hy, (if_neg hx).trans ((if_neg hy).trans ?_)⟩
        exact (if_neg (fun h => h1 (.inr (hcond1.1 h)))).trans (if_neg (fun h => h2 (.inr (hcond2.1 h))))
theorem bestF_join (l r : List Nat) (x y : RedVal × BitVec 5) (hx : BestF s a mx l x) (hy : BestF s a mx r y) :
    BestDone s a mx (l ++ r) (redJoin (idxOp mx) .f32 md x y) := by
  have hstep : redStep (idxOp mx) .f32 md x.1 y.1 = idxStep mx .f32 x.1 y.1 := by cases mx <;> rfl
  obtain ⟨hx0, hx⟩ := hx
  obtain ⟨hy0, hy⟩ := hy
  have hr := betterF_ranks fmt32 mx
  obtain ⟨u, hu, hu1, hu2, hu3⟩ := idxStep_float (mx := mx) x.1 y.1
  have hfl : x.2 ||| y.2 ||| nvIf ((fmt32.val x.1.v).isSig || (fmt32.val y.1.v).isSig) = nvIf (anySigOf s a .f32 (l ++ r)) := by
    rw [anySigOf_append, ← nvIf_or, ← nvIf_or, ← hx0, ← hy0]
    ac_rfl
  have hno : ∀ {v w : Nat}, (fmt32.val v).isNan = true → ¬ betterF fmt32 mx v w := fun hn hb => Bool.false_ne_true ((betterF_not_nan hb).symm.trans hn)
  have hdone : ∀ {v : Nat}, (fmt32.val v).isNan = false → (fmt32.val v).isNan = true → v = fmt32.nan := fun h h' => absurd (h.symm.trans h') Bool.false_ne_true
  unfold redJoin
  rw [hstep, hu]
  refine ⟨hfl, ?_⟩
  dsimp only
  by_cases h1 : betterF fmt32 mx y.1.v x.1.v
  · rw [hu1 h1]
    exact ⟨hdone (betterF_not_nan h1), (hx.better hr hy hno h1).1⟩
  by_cases h2 : betterF fmt32 mx x.1.v y.1.v
  · rw [hu2 h2]
    exact ⟨hdone (betterF_not_nan h2), (hy.better hr hx hno h2).2⟩
  rcases hu3 h1 h2 with ⟨hnx, hny, he⟩ | ⟨hnx, hny, he⟩
  · have hnn : (fmt32.val fmt32.nan).isNan = true := by rw [val_nan fine_fmt32]; rfl
    have hgood : ∀ {v i : Nat}, (fmt32.val v).isNan = true → AsGood s a v i → AsGood s a fmt32.nan i := by
      intro v i hv hg
      rcases hg with rfl | ⟨-, hi⟩
      · exact .inr ⟨hnn, hv⟩
      · exact .inr ⟨hnn, hi⟩
    rw [he]
    refine ⟨fun _ => rfl, ?_⟩
    split
    · next h => exact (hx.lower hr hy h2 h1 h (z := ⟨fmt32.nan, x.1.i⟩) rfl (hgood hnx) (fun _ => hnn) (betterF_nan hnn hnx)).1
    · next h => exact (hy.lower hr hx h1 h2 (Nat.le_of_not_le h) (z := ⟨fmt32.nan, y.1.i⟩) rfl (hgood hny) (fun _ => hnn) (betterF_nan hnn hny)).2
  · rw [he]
    split
    · next h => exact ⟨hdone hnx, (hx.lower hr hy h2 h1 h rfl id id fun u => ⟨Iff.rfl, Iff.rfl⟩).1⟩
    · next h => exact ⟨hdone hny, (hy.lower hr hx h1 h2 (Nat.le_of_not_le h) rfl id id fun u => ⟨Iff.rfl, Iff.rfl⟩).2⟩
theorem bestF_leaf {l : Nat} (hl : l < 32) : BestF s a mx [l] (⟨(s.srcN s.cur.wid l RedType.f32.words a).toNat, l⟩, 0) := by
  unfold BestF
  rw [show (s.srcN s.cur.wid l RedType.f32.words a).toNat = elemOf s .f32 l a 0 from (toNat_wide _).trans (elemOf_f32 ..).symm]
  have hany : anySigOf s a .f32 [l] = (valOf s .f32 l a 0).isSig := Bool.or_false _
  refine ⟨?_, .inr ⟨List.mem_singleton.2 rfl, .inl rfl, by dsimp only; omega, fun j hj => ?_⟩⟩
  · rw [hany]
    exact BitVec.zero_or
  · rw [List.mem_singleton.1 hj]
    exact ⟨fun h => (betterF_ranks fmt32 mx).asymm h h, fun _ => le_rfl⟩
theorem bestF_none : BestF s a mx [] (redIdentity (idxOp mx) .f32, 0) := by
  have hv : (redIdentity (idxOp mx) .f32) = ⟨fmt32.nan, 0xFFFFFFFF⟩ := by cases mx <;> rfl
  unfold BestF
  rw [hv, val_nan fine_fmt32]
  exact ⟨BitVec.or_zero, .inl ⟨rfl, rfl, congrArg FVal.isNan (val_nan fine_fmt32)⟩⟩
theorem redRoot_best : BestDone s a mx (s.activeLanes m) (redRoot s m (idxOp mx) .f32 md a) :=
  redRoot_parts s m (idxOp mx) .f32 md a bestF_none (fun _ hi => bestF_leaf (State.lane_lt_of_getLsbD hi.1)) (fun _ _ h => h.pending) (bestF_join md)
end

/-! ### The obligation -/

theorem reductionsAndScans : Claims.ReductionsAndScans := by
  unfold Claims.ReductionsAndScans
  intro s m d a excl cw md act upTo sum least most red scan ty bits val rt leaf addTo flagged anySig best
  have hup : ∀ l, (s.activeLanes m).filter (· < if excl then l else l + 1) = upTo l := fun l => List.filter_congr fun j _ => by
    cases excl with
    | true => rfl
    | false => exact decide_eq_decide.2 Nat.lt_succ_iff
  refine ⟨fun t ht => ?_, ?_, fun mx t ht => ?_, fun f hf => ?_, fun mx hact => ?_⟩
  · have hred : ∀ (o : RedOp) (v : W32), o ≠ .minIdx ∧ o ≠ .maxIdx → (redRoot s m o (redType t) md a).2 = 0 → BitVec.ofNat 32 (redRoot s m o (redType t) md a).1.v = v → red (.lred m o (redType t) d a) v :=
      fun o v ho h0 hv => (lred_puts (f := .f32) ho redType_words rfl).computes32 (fun _ => h0) fun _ => hv
    have hscan : ∀ (o : ScanOp) (v : Nat → W32),
        (∀ l, (scanFold (ScanOp.red o) (redType t) md ((redVals s m (ScanOp.red o) (redType t) a).take (if excl then l else l + 1))).2 = 0 ∧
          BitVec.ofNat 32 (scanFold (ScanOp.red o) (redType t) md ((redVals s m (ScanOp.red o) (redType t) a).take (if excl then l else l + 1))).1.v = v l) →
        scan (.lscan m excl o (redType t) d a) v :=
      fun o v h => (lscan_puts (f := .f32) redType_words rfl).computes32 (fun l => (h l).1) fun l => (h l).2
    have hsum := sumOf_join s md a ht
    have hmin := minOf_join s md a ht
    have hmax := maxOf_join s md a ht
    have hminl := fun i => extremeOf_leaf s a ht (f := min) (z := typeMax t) (fun l => min_eq_right (operand_bounds s a ht l).2) i
    have hmaxl := fun i => extremeOf_leaf s a ht (f := max) (z := typeMin t) (fun l => max_eq_right (operand_bounds s a ht l).1) i
    refine ⟨?_, ?_, ?_, ?_, ?_, ?_⟩
    · have h := redRoot_parts s m .add _ md a (sumOf_none s a ht) (fun i _ => sumOf_leaf s a ht i) (fun _ _ h => h) hsum
      exact hred .add _ (by decide) h.1 h.word
    · have h := redRoot_parts s m .min _ md a (minOf_none s a ht) (fun i _ => hminl i) (fun _ _ h => h) hmin
      exact hred .min _ (by decide) h.1 (h.word s a ht)
    · have h := redRoot_parts s m .max _ md a (maxOf_none s a ht) (fun i _ => hmaxl i) (fun _ _ h => h) hmax
      exact hred .max _ (by decide) h.1 (h.word s a ht)
    · refine hscan .add _ fun l => ?_
      have h := scanFold_parts s m .add _ md a (sumOf_none s a ht) (fun i _ => sumOf_leaf s a ht i) (fun _ _ h => h) hsum (sumOf_none s a ht) (if excl then l else l + 1)
      rw [hup] at h
      exact ⟨h.1, h.word⟩
    · refine hscan .min _ fun l => ?_
      have h := scanFold_parts s m .min _ md a (minOf_none s a ht) (fun i _ => hminl i) (fun _ _ h => h) hmin (minOf_none s a ht) (if excl then l else l + 1)
      rw [hup] at h
      exact ⟨h.1, h.word s a ht⟩
    · refine hscan .max _ fun l => ?_
      have h := scanFold_parts s m .max _ md a (maxOf_none s a ht) (fun i _ => hmaxl i) (fun _ _ h => h) hmax (maxOf_none s a ht) (if excl then l else l + 1)
      rw [hup] at h
      exact ⟨h.1, h.word s a ht⟩
  · refine ⟨fun o => BitVec.ofNat 32 (redRoot s m o .s32 md a).1.v, fun o ho => ?_, fun j hj => ?_⟩
    · have hne : o ≠ .minIdx ∧ o ≠ .maxIdx := by rcases ho with rfl | rfl | rfl <;> decide
      exact (lred_puts (f := .f32) hne rfl rfl).computes32 (fun _ => (redRoot_bits s m md a ho).1) fun _ => rfl
    · have hb : ∀ {o : RedOp}, IsBitwise o → (BitVec.ofNat 32 (redRoot s m o .s32 md a).1.v).getLsbD j = bitsOf o (act.map (bitOf s a j)) := fun {o} ho => by
        rw [BitVec.getLsbD_ofNat, decide_eq_true hj, Bool.true_and]
        exact (redRoot_bits s m md a ho).2.2 j hj
      have hf : ∀ ls : List Nat, ((ls.map (bitOf s a j)).filter id).length = (ls.filter (bitOf s a j)).length := fun ls => by
        rw [List.filter_map, List.length_map]
        rfl
      refine ⟨(hb (.inl rfl)).trans List.all_map, (hb (.inr (.inl rfl))).trans List.any_map, (hb (.inr (.inr rfl))).trans ?_⟩
      show decide (((act.map (bitOf s a j)).filter id).length % 2 = 1) = _
      rw [hf]
      rfl
  · obtain ⟨hfl, hlt, hbest⟩ := redRoot_bestInt s m md a ht mx
    obtain ⟨u, hx, hw⟩ := lred_idx_writes (s := s) (m := m) (t := redType t) (d := d) (a := a) mx
    refine ⟨(redRoot s m (idxOp mx) (redType t) md a).1.i, ⟨u, hx, ?_⟩, fun hact => ?_⟩
    · have hval : BitVec.ofNat 32 (redRoot s m (idxOp mx) (redType t) md a).1.v =
          if act = [] then BitVec.ofInt 32 (if mx then typeMin t else typeMax t) else s.src cw (redRoot s m (idxOp mx) (redType t) md a).1.i a := by
        rcases hbest with ⟨hnil, -, hv⟩ | ⟨hmem, hv, -⟩
        · rw [if_pos hnil, redInt_ofInt ht, hv]
          rfl
        · rw [if_neg (List.ne_nil_of_mem hmem), hv, BitVec.ofNat_toNat, BitVec.setWidth_eq]
      have h0 : (fun _ : Nat => (redRoot s m (idxOp mx) (redType t) md a).2) = fun _ => (0 : BitVec 5) := funext fun _ => hfl
      rw [← hval]
      exact h0 ▸ hw
    · rcases hbest with ⟨hnil, -⟩ | ⟨hmem, hv, -, hall⟩
      · exact absurd hnil hact
      · refine ⟨hmem, fun l hl => ?_⟩
        obtain ⟨h1, h2⟩ := hall l hl
        rw [hv] at h1 h2
        unfold betterInt at h1 h2
        rw [redInt_operand s a ht, redInt_operand s a ht] at h1 h2
        cases mx with
        | true => exact ⟨not_lt.1 h1, fun he => h2 (not_lt.2 he.ge)⟩
        | false => exact ⟨not_lt.1 h1, fun he => h2 (not_lt.2 he.le)⟩
  · have hw := floatRed_words hf
    have he := elemsOf_one hf
    have hbest : ∀ {mx : Bool} {ls : List Nat} {x : RedVal × BitVec 5}, ExtremeDone s a f mx ls x → best f (extremeLess mx) ls x.1.v ∧ x.2 = nvIf (anySig f ls) := fun h => ⟨h.2, h.1⟩
    refine ⟨?_, ?_, ⟨_, lred_puts (by decide) hw he, hbest (redRoot_extreme m md hf (mx := false))⟩, ⟨_, lred_puts (by decide) hw he, hbest (redRoot_extreme m md hf (mx := true))⟩,
      ⟨_, lscan_puts hw he, fun l => ?_⟩, ⟨_, lscan_puts hw he, fun l => ?_⟩⟩
    · have h := lred_puts (s := s) (m := m) (a := a) (d := d) (o := .add) (by decide) hw he
      have hr := redRoot_sum s m md a hf
      exact hr ▸ h
    · have h := lscan_puts (s := s) (m := m) (a := a) (d := d) (o := .add) (e := excl) hw he
      have hr : ∀ l, plainVal (scanFold .add (floatRed f) md ((redVals s m .add (floatRed f) a).take (if excl then l else l + 1))) =
          ((List.range 32).filter (fun j => if excl then j < l else j ≤ l)).foldl (fun r j => addTo f r (leaf f j, 0)) ((fmtOf f).sign true, 0) := fun l => by
        rw [scanFold_sum s m md a hf]
        refine congrArg (fun ls => List.foldl _ _ ls) (List.filter_congr fun j _ => ?_)
        cases excl with
        | true => rfl
        | false => exact decide_eq_decide.2 Nat.lt_succ_iff
      have hr := funext hr
      exact (congrArg (fun r : Nat → FRes => PutsFloat (.lscan m excl .add (floatRed f) d a) s m none f d (fun l _ => r l)) hr).mp h
    · have h := scanFold_extreme (s := s) (a := a) m md hf (mx := false) (if excl then l else l + 1)
      rw [hup] at h
      exact hbest h
    · have h := scanFold_extreme (s := s) (a := a) m md hf (mx := true) (if excl then l else l + 1)
      rw [hup] at h
      exact hbest h
  · obtain ⟨hfl, hcanon, hbest⟩ := redRoot_best m md (s := s) (a := a) (mx := mx)
    obtain ⟨u, hx, hw⟩ := lred_idx_writes (s := s) (m := m) (t := .f32) (d := d) (a := a) mx
    rw [hfl] at hw
    refine ⟨u, _, _, hx, hw, ?_⟩
    rcases hbest with ⟨hnil, -⟩ | ⟨hmem, hgood, -, hall⟩
    · exact absurd hnil hact
    · refine ⟨hmem, ?_⟩
      generalize (redRoot s m (idxOp mx) .f32 md a).1.v = v at hcanon hgood hall
      generalize (redRoot s m (idxOp mx) .f32 md a).1.i = i at hmem hgood hall
      by_cases hnan : ∀ l ∈ act, (val .f32 l).isNan = true
      · have hv : (fmt32.val v).isNan = true := by
          rcases hgood with h | h
          · rw [h]
            exact hnan i hmem
          · exact h.1
        rw [if_pos hnan]
        exact ⟨.inl ⟨hnan, hcanon hv⟩, fun l hl => (hall l hl).2 fun h => Bool.false_ne_true ((betterF_not_nan h).symm.trans hv)⟩
      · have hv : (fmt32.val v).isNan = false := by
          refine Bool.eq_false_iff.2 fun hv => hnan fun l hl => ?_
          by_contra hl'
          exact (hall l hl).1 (.inl ⟨hv, Bool.eq_false_iff.2 hl'⟩)
        have hvi : v = elemOf s .f32 i a 0 := hgood.resolve_right fun h => Bool.false_ne_true (hv.symm.trans h.1)
        subst hvi
        rw [if_neg hnan]
        refine ⟨.inr ⟨⟨i, hmem, hv, rfl⟩, fun l hl _ h => (hall l hl).1 (.inr h)⟩, hv, rfl, fun l hl hn hless => (hall l hl).2 fun h => ?_⟩
        rcases h with ⟨hl', -⟩ | h
        · exact Bool.false_ne_true (hn.symm.trans hl')
        · exact hless h
/-- Settles O12: a tree and a scan are joins of parts of the active lanes, and each join keeps what is said of its part. -/
theorem crossLane : Obligations.CrossLane := ⟨crossLaneReads, reductionsAndScans⟩
end Sys2Proof
end

