-- ==== Sys2Proof/Proofs/Conversions.lean ====
section
/-! SUPPORT. Conversions (R151, R152), and what settles O11. -/

namespace Sys2Proof
open Machine

/-! ### To floating-point formats -/

/-- A rounding whose overflow is, where it saturates, the largest finite number. -/
def saturated (f : Fmt) (sat : Bool) (neg : Bool) (u : FRes) : FRes := if sat && u.2.getLsbD 2 then (f.sign neg + f.maxBits, u.2) else u
theorem and_flOF (x : BitVec 5) : (x &&& flOF != 0) = x.getLsbD 2 := by
  revert x
  decide
section
variable (f : Fmt) (md : RMode) (sat : Bool)
theorem toFloat_fin (n : Bool) (m : Nat) (e : Int) : toFloat f md sat (.fin n m e) = saturated f sat n (roundFin f md n m e) := by
  have h : toFloat f md sat (.fin n m e) = if sat && ((roundFin f md n m e).2 &&& flOF != 0) then (f.sign n + f.maxBits, (roundFin f md n m e).2)
    else ((roundFin f md n m e).1, (roundFin f md n m e).2 ||| sigFlag [.fin n m e]) := rfl
  rw [h, and_flOF, sigFlag_one, show nvIf (FVal.fin n m e).isSig = 0 from rfl]
  unfold saturated
  split
  · rfl
  · exact Prod.ext rfl BitVec.or_zero
theorem toFloat_inf (n : Bool) : toFloat f md sat (.inf n) = (f.sign n + (if sat then f.maxBits else f.infBits), 0) := by
  cases sat <;> rfl
theorem toFloat_nan (g : Bool) : toFloat f md sat (.nan g) = nanResult f g := by
  have h : toFloat f md sat (.nan g) = if sat && ((0 : BitVec 5) &&& flOF != 0) then (f.sign false + f.maxBits, 0) else (f.nan, (0 : BitVec 5) ||| sigFlag [.nan g]) := rfl
  rw [h, and_flOF, sigFlag_one, show (0 : BitVec 5).getLsbD 2 = false from rfl, Bool.and_false, if_neg Bool.false_ne_true]
  exact Prod.ext rfl BitVec.zero_or
end
/-- Where a rounding has overflowed, its sign is that of its bits. -/
theorem overflow_sign {f : Fmt} (hf : FineFmt f) (md : RMode) (n : Bool) (m : Nat) (e : Int) (h : (roundFin f md n m e).2.getLsbD 2 = true) :
    decide (2 ^ (f.bits - 1) ≤ (roundFin f md n m e).1) = n := by
  have hm : m ≠ 0 := by
    rintro rfl
    rw [roundFin_zero] at h
    exact absurd h (show ¬ (0 : BitVec 5).getLsbD 2 = true by decide)
  obtain ⟨-, -, -, -, h5, -⟩ := roundFin_spec hf md n hm e
  have h1 := (h5 h).2.2
  have hinf := infBits_eq (f := f)
  have hB := Nat.two_pow_pos f.fb
  have hmax : f.maxBits ≤ f.infBits := Nat.sub_le ..
  rw [h1]
  show decide (2 ^ (f.eb + f.fb) ≤ _) = n
  have hx : (if md = .rne ∨ md = .rna ∨ (md = .rdn ∧ n = true) ∨ (md = .rup ∧ ¬ n = true) then f.infBits else f.maxBits) < 2 ^ (f.eb + f.fb) := by
    split <;> omega
  cases n with
  | true => exact decide_eq_true (Nat.le_add_right ..)
  | false => exact decide_eq_false (not_le.2 (by rw [show f.sign false = 0 from rfl, Nat.zero_add]; exact hx))
theorem saturated_eq {f : Fmt} (hf : FineFmt f) (md : RMode) (sat n : Bool) (m : Nat) (e : Int) : saturated f sat n (roundFin f md n m e) =
    if sat && (roundFin f md n m e).2.getLsbD 2 then (f.sign (decide (2 ^ (f.bits - 1) ≤ (roundFin f md n m e).1)) + f.maxBits, (roundFin f md n m e).2) else roundFin f md n m e := by
  unfold saturated
  split
  · next h => rw [overflow_sign hf md n m e ((Bool.and_eq_true _ _).to_iff.1 h).2]
  · rfl
/-- One rounding of a value, without the flags of a rounding: the widening conversions, which are exact. -/
def widened (f : Fmt) (v : FVal) : FRes := ((roundVal f .rne v).1, sigFlag [v])
theorem widened_nan (f : Fmt) (g : Bool) : widened f (.nan g) = nanResult f g := nan_flags f g
theorem widened_inf (f : Fmt) (n : Bool) : widened f (.inf n) = (f.sign n + f.infBits, 0) := rfl
theorem widened_fin (f : Fmt) (n : Bool) (m : Nat) (e : Int) : widened f (.fin n m e) = ((roundFin f .rne n m e).1, 0) := rfl

/-! ### To integer types -/

section
variable (t : CvtType) (md : RMode) (sat : Bool)
/-- The indefinite value of an integer type, or zero where it saturates. -/
def badBits (t : CvtType) (sat : Bool) : Nat := if sat then 0 else if CvtType.isSigned t then 2 ^ (CvtType.width t - 1) else 2 ^ CvtType.width t - 1
theorem floatToInt_fin (n : Bool) (m : Nat) (e : Int) : ∃ i : Int, RoundsToInt md (ratOf (.fin n m e)) i ∧ floatToInt t md sat (.fin n m e) =
    if i < CvtType.lo t ∨ CvtType.hi t < i then (if sat then intBits t (clampTo t i) else badBits t sat, 1) else (intBits t i, if (i : ℚ) = ratOf (.fin n m e) then 0 else 16) := by
  obtain ⟨hr, hcut⟩ := roundAt_rounds md n m e 0
  rw [sub_zero] at hr hcut
  have hneg : (if n then -((roundAt md n m e 0).1 : Int) else (roundAt md n m e 0).1) = (if n then -1 else 1) * ((roundAt md n m e 0).1 : Int) := by cases n <;> simp
  have hs : ((((if n then -1 else 1) * ((roundAt md n m e 0).1 : Int) : Int)) : ℚ) = signOf n * (roundAt md n m e 0).1 := by
    unfold signOf
    split <;> push_cast <;> ring
  refine ⟨(if n then -1 else 1) * ((roundAt md n m e 0).1 : Int), ?_, ?_⟩
  · rw [ratOf_fin]
    exact hr.toInt (by positivity)
  · have hfl : (if (roundAt md n m e 0).2 then flNX else flNone) = if ((((if n then -1 else 1) * ((roundAt md n m e 0).1 : Int) : Int)) : ℚ) = ratOf (.fin n m e) then (0 : BitVec 5) else 16 := by
      rw [hs, ratOf_fin]
      by_cases hc : (roundAt md n m e 0).2 = true
      · rw [if_pos hc, if_neg (fun h => hcut.1 hc (mul_left_cancel₀ (signOf_ne_zero n) h))]
        rfl
      · rw [if_neg hc, if_pos (congrArg (signOf n * ·) (not_not.1 (fun h => hc (hcut.2 h))))]
        rfl
    rw [← hfl, ← hneg]
    unfold floatToInt badBits
    cases sat <;> rfl
theorem floatToInt_nan (g : Bool) : floatToInt t md sat (.nan g) = (badBits t sat, 1) := rfl
theorem floatToInt_inf (n : Bool) : floatToInt t md sat (.inf n) = (if sat then intBits t (if n then CvtType.lo t else CvtType.hi t) else badBits t sat, 1) := by
  cases sat <;> rfl
end

/-! ### Types of a conversion -/

/-- A floating-point type, a type of 64 bits, and the format or the integer type of a conversion. -/
def IsFloat (c : CvtType) : Prop := c = .f32 ∨ c = .f64 ∨ c = .f16 ∨ c = .bf16
def IsWide (c : CvtType) : Prop := c = .f64 ∨ c = .s64 ∨ c = .z64
def formatOf (c : CvtType) : FFmt := match c with | .f64 => FFmt.f64 | .f16 => .f16 | .bf16 => .bf16 | _ => .f32
def intTypeOf (c : CvtType) : IType := match c with | .s32 => IType.s32 | .z32 => .z32 | .s64 => .s64 | _ => .z64
theorem fmt_of_float {c : CvtType} (h : IsFloat c) : CvtType.fmt? c = some (fmtOf (formatOf c)) := by rcases h with rfl | rfl | rfl | rfl <;> rfl
theorem fmt_of_int {c : CvtType} (h : ¬ IsFloat c) : CvtType.fmt? c = none := by
  cases c with
  | f32 => exact absurd (.inl rfl) h
  | f64 => exact absurd (.inr (.inl rfl)) h
  | f16 => exact absurd (.inr (.inr (.inl rfl))) h
  | bf16 => exact absurd (.inr (.inr (.inr rfl))) h
  | s32 => rfl
  | z32 => rfl
  | s64 => rfl
  | z64 => rfl
section
variable (s : State) (l : Nat) (a : Reg) {y : CvtType}
theorem float_source (h : IsFloat y) : (fmtOf (formatOf y)).val ((s.srcN s.cur.wid l y.words a).toNat % 2 ^ (fmtOf (formatOf y)).bits) = valOf s (formatOf y) l a 0 := by
  have h0 : ∀ x n : Nat, x % n = x / 2 ^ (16 * 0) % n := fun x n => by rw [Nat.mul_zero, pow_zero, Nat.div_one]
  unfold valOf
  rcases h with rfl | rfl | rfl | rfl
  · exact congrArg _ ((congrArg (· % _) (toNat_wide _)).trans (h0 ..))
  · exact congrArg _ (Nat.mod_eq_of_lt (s.src64 s.cur.wid l a).isLt)
  · exact congrArg _ ((congrArg (· % _) (toNat_wide _)).trans (h0 ..))
  · exact congrArg _ ((congrArg (· % _) (toNat_wide _)).trans (h0 ..))
theorem int_source (h : ¬ IsFloat y) : intOf y (s.srcN s.cur.wid l y.words a).toNat = operand s (intTypeOf y) l a := by
  have hsigned : ∀ {n : Nat} (x : BitVec n) (b : Nat), b = 2 ^ (n - 1) → 0 < n → (if true && decide (b ≤ x.toNat) then (x.toNat : Int) - 2 ^ n else x.toNat) = x.toInt := by
    intro n x b hb hn
    rw [BitVec.toInt_eq_toNat_cond, Bool.true_and, hb]
    have hp : 2 ^ n = 2 * 2 ^ (n - 1) := by rw [← pow_succ', Nat.sub_add_cancel hn]
    by_cases hx : 2 * x.toNat < 2 ^ n
    · rw [if_pos hx, if_neg (by rw [decide_eq_true_iff]; omega)]
    · rw [if_neg hx, if_pos (by rw [decide_eq_true_iff]; omega)]
      push_cast
      rfl
  have h32 : (s.srcN s.cur.wid l 1 a).toNat % 2 ^ 32 = (s.src s.cur.wid l a).toNat := by
    rw [show s.srcN s.cur.wid l 1 a = (s.src s.cur.wid l a).setWidth 64 from rfl, toNat_wide]
    exact Nat.mod_eq_of_lt (s.src s.cur.wid l a).isLt
  have h64 : (s.srcN s.cur.wid l 2 a).toNat % 2 ^ 64 = (s.src64 s.cur.wid l a).toNat := Nat.mod_eq_of_lt (s.src64 s.cur.wid l a).isLt
  cases y with
  | f32 => exact absurd (.inl rfl) h
  | f64 => exact absurd (.inr (.inl rfl)) h
  | f16 => exact absurd (.inr (.inr (.inl rfl))) h
  | bf16 => exact absurd (.inr (.inr (.inr rfl))) h
  | s32 => exact (congrArg (fun v : Nat => if true && decide (2 ^ 31 ≤ v) then (v : Int) - 2 ^ 32 else (v : Int)) h32).trans (hsigned (s.src s.cur.wid l a) _ rfl (by decide))
  | z32 => exact congrArg Nat.cast h32
  | s64 => exact (congrArg (fun v : Nat => if true && decide (2 ^ 63 ≤ v) then (v : Int) - 2 ^ 64 else (v : Int)) h64).trans (hsigned (s.src64 s.cur.wid l a) _ rfl (by decide))
  | z64 => exact congrArg Nat.cast h64
end
/-- The range, the bits and the indefinite value of an integer type. -/
theorem int_type {x : CvtType} (h : ¬ IsFloat x) (sat : Bool) : CvtType.lo x = typeMin (intTypeOf x) ∧ CvtType.hi x = typeMax (intTypeOf x) ∧
    (∀ i, intBits x i = (i % 2 ^ (if x = CvtType.f64 ∨ x = CvtType.s64 ∨ x = CvtType.z64 then 64 else 32)).toNat) ∧
    badBits x sat = if sat then 0 else if x = .s32 then 2 ^ 31 else if x = .s64 then 2 ^ 63 else if x = .z32 then 2 ^ 32 - 1 else 2 ^ 64 - 1 := by
  cases x with
  | f32 => exact absurd (.inl rfl) h
  | f64 => exact absurd (.inr (.inl rfl)) h
  | f16 => exact absurd (.inr (.inr (.inl rfl))) h
  | bf16 => exact absurd (.inr (.inr (.inr rfl))) h
  | s32 => exact ⟨rfl, rfl, fun _ => rfl, rfl⟩
  | z32 => exact ⟨rfl, rfl, fun _ => rfl, rfl⟩
  | s64 => exact ⟨rfl, rfl, fun _ => rfl, rfl⟩
  | z64 => exact ⟨rfl, rfl, fun _ => rfl, rfl⟩

/-! ### The obligation -/

theorem cvt_ff {x y : CvtType} (hx : IsFloat x) (hy : IsFloat y) (sat : Bool) (md : RMode → RMode) (n : Nat) : cvt x y sat md n =
    if narrower (fmtOf (formatOf x)) (fmtOf (formatOf y)) then toFloat (fmtOf (formatOf x)) (md .rne) sat ((fmtOf (formatOf y)).val (n % 2 ^ (fmtOf (formatOf y)).bits))
    else widened (fmtOf (formatOf x)) ((fmtOf (formatOf y)).val (n % 2 ^ (fmtOf (formatOf y)).bits)) := by
  unfold cvt
  rw [fmt_of_float hx, fmt_of_float hy]
  rfl
theorem cvt_fi {x y : CvtType} (hx : IsFloat x) (hy : ¬ IsFloat y) (sat : Bool) (md : RMode → RMode) (n : Nat) :
    cvt x y sat md n = toFloat (fmtOf (formatOf x)) (md .rne) sat (intVal (intOf y n)) := by
  unfold cvt
  rw [fmt_of_float hx, fmt_of_int hy]
theorem cvt_if {x y : CvtType} (hx : ¬ IsFloat x) (hy : IsFloat y) (sat : Bool) (md : RMode → RMode) (n : Nat) :
    cvt x y sat md n = floatToInt x (md .rtz) sat ((fmtOf (formatOf y)).val (n % 2 ^ (fmtOf (formatOf y)).bits)) := by
  unfold cvt
  rw [fmt_of_int hx, fmt_of_float hy]
theorem cvt_ii {x y : CvtType} (hx : ¬ IsFloat x) (hy : ¬ IsFloat y) (sat : Bool) (md : RMode → RMode) (n : Nat) :
    cvt x y sat md n = (intBits x (if sat then clampTo x (intOf y n) else intOf y n), 0) := by
  unfold cvt
  rw [fmt_of_int hx, fmt_of_int hy]
  rfl
/-- A result of one or two words, as the type says. -/
theorem laneF_writes {i : Instr} {s : State} {m : Mods} {t : Machine.Lat} {d : Reg} {n : Nat} {p : Prop} [Decidable p] {r : Nat → FRes} (hn : n = if p then 2 else 1)
    (h : exec i s = laneF s m t n d (fun l => (BitVec.ofNat 64 (r l).1, (r l).2))) : ∃ u, exec i s = .next u ∧ Writes s u m (t.due s.clock) (if p then regs2 d else regs1 d)
      (fun l => if p then to64 d (BitVec.ofNat 64 (r l).1) else to32 d (BitVec.ofNat 32 (r l).1)) (fun l => (r l).2) := by
  by_cases hp : p
  · rw [if_pos hp] at hn
    subst hn
    simp only [hp, if_true]
    exact laneF_puts (f := .f64) (r := fun l _ => r l) h fun l => (joinElems_one _).symm
  · rw [if_neg hp] at hn
    subst hn
    simp only [hp, if_false]
    exact laneF_puts (f := .f32) (r := fun l _ => r l) h fun l => (joinElems_one _).symm
theorem cvtWords (x : CvtType) : x.words = if x = .f64 ∨ x = .s64 ∨ x = .z64 then 2 else 1 := by cases x <;> rfl
/-- Halves packed into a word, or unpacked from one. -/
def PacksHalves (k : PackKind) : Prop := k = .toF16x2 ∨ k = .toBf16x2
/-- The 16-bit type of a packing form. -/
def halfType (k : PackKind) : CvtType := if k = .toF16x2 ∨ k = .ofF16x2 then .f16 else .bf16
/-- Element `j` of a packing form. -/
def packElem (s : State) (m : Mods) (k : PackKind) (a : Reg) (l j : Nat) : FRes :=
  if k = .toF16x2 ∨ k = .toBf16x2 then cvt (halfType k) .f32 m.sat (s.rmode m) ((s.src64 s.cur.wid l a).toNat / 2 ^ (32 * j) % 2 ^ 32)
  else cvt .f32 (halfType k) m.sat (s.rmode m) ((s.src s.cur.wid l a).toNat / 2 ^ (16 * j) % 2 ^ 16)
/-- The two elements of a packing form, joined. -/
def packJoin (n : Nat) (a b : FRes) : W64 × BitVec 5 := (BitVec.ofNat 64 (a.1 + b.1 * 2 ^ n), a.2 ||| b.2)
section
variable (s : State) (m : Mods) {k : PackKind} (a : Reg) (l : Nat)
theorem packElem_to (h : k = .toF16x2 ∨ k = .toBf16x2) (j : Nat) : packElem s m k a l j = cvt (halfType k) .f32 m.sat (s.rmode m) ((s.src64 s.cur.wid l a).toNat / 2 ^ (32 * j) % 2 ^ 32) := if_pos h
theorem packElem_of (h : ¬ (k = .toF16x2 ∨ k = .toBf16x2)) (j : Nat) : packElem s m k a l j = cvt .f32 (halfType k) m.sat (s.rmode m) ((s.src s.cur.wid l a).toNat / 2 ^ (16 * j) % 2 ^ 16) := if_neg h
theorem cvtPack_to (h : k = .toF16x2 ∨ k = .toBf16x2) (x : W64) : cvtPack k m.sat (s.rmode m) x =
    packJoin 16 (cvt (halfType k) .f32 m.sat (s.rmode m) (lo32 x).toNat) (cvt (halfType k) .f32 m.sat (s.rmode m) (hi32 x).toNat) := by
  rcases h with rfl | rfl <;> rfl
theorem cvtPack_of (h : ¬ (k = .toF16x2 ∨ k = .toBf16x2)) (x : W64) : cvtPack k m.sat (s.rmode m) x =
    packJoin 32 (cvt .f32 (halfType k) m.sat (s.rmode m) (nbits (lo32 x).toNat 15 0)) (cvt .f32 (halfType k) m.sat (s.rmode m) (nbits (lo32 x).toNat 31 16)) := by
  cases k with
  | toF16x2 => exact absurd (.inl rfl) h
  | toBf16x2 => exact absurd (.inr rfl) h
  | ofF16x2 => rfl
  | ofBf16x2 => rfl
theorem cvtPack_elems_to (h : k = .toF16x2 ∨ k = .toBf16x2) : cvtPack k m.sat (s.rmode m) (s.src64 s.cur.wid l a) = packJoin 16 (packElem s m k a l 0) (packElem s m k a l 1) := by
  have hlo : ∀ x : W64, (lo32 x).toNat = x.toNat / 2 ^ (32 * 0) % 2 ^ 32 := fun x => by
    rw [Nat.mul_zero, pow_zero, Nat.div_one]
    exact BitVec.toNat_setWidth ..
  have hhi : ∀ x : W64, (hi32 x).toNat = x.toNat / 2 ^ (32 * 1) % 2 ^ 32 := fun x => by
    unfold hi32
    rw [BitVec.toNat_setWidth, BitVec.toNat_ushiftRight, Nat.shiftRight_eq_div_pow]
  rw [cvtPack_to s m h, packElem_to s m a l h, packElem_to s m a l h, hlo, hhi]
theorem cvtPack_elems_of (h : ¬ (k = .toF16x2 ∨ k = .toBf16x2)) : cvtPack k m.sat (s.rmode m) ((s.src s.cur.wid l a).setWidth 64) = packJoin 32 (packElem s m k a l 0) (packElem s m k a l 1) := by
  have hword : lo32 ((s.src s.cur.wid l a).setWidth 64) = s.src s.cur.wid l a := by
    unfold lo32
    rw [BitVec.setWidth_setWidth_of_le _ (by decide), BitVec.setWidth_eq]
  have h0 : ∀ x, nbits x 15 0 = x / 2 ^ (16 * 0) % 2 ^ 16 := fun x => by rw [nbits_low, Nat.mul_zero, pow_zero, Nat.div_one]
  have h1 : ∀ x, nbits x 31 16 = x / 2 ^ (16 * 1) % 2 ^ 16 := fun x => nbits_div ..
  rw [cvtPack_of s m h, packElem_of s m a l h, packElem_of s m a l h, hword, h0, h1]
end
/-- A packing form writes its elements, joined. -/
theorem cvtPack_writes {s : State} {m : Mods} {k : PackKind} {d a : Reg} : ∃ u, exec (.cvtPack m k d a) s = .next u ∧
    Writes s u m (some (s.clock + 6)) (if k = .toF16x2 ∨ k = .toBf16x2 then regs1 d else regs2 d)
      (fun l => if k = .toF16x2 ∨ k = .toBf16x2 then to32 d (BitVec.ofNat 32 ((packElem s m k a l 0).1 + 2 ^ 16 * (packElem s m k a l 1).1))
        else to64 d (BitVec.ofNat 64 ((packElem s m k a l 0).1 + 2 ^ 32 * (packElem s m k a l 1).1)))
      (fun l => (packElem s m k a l 0).2 ||| (packElem s m k a l 1).2) := by
  have hx : exec (.cvtPack m k d a) s = laneF s m (.fixed 6) k.dstWords d (fun l => cvtPack k m.sat (s.rmode m) (s.srcN s.cur.wid l k.srcWords a)) := rfl
  have hjoin : ∀ (n : Nat) (p q : FRes), packJoin n p q = joinElems [(p.1 + 2 ^ n * q.1, p.2 ||| q.2)] := fun n p q => by
    rw [joinElems_one, Nat.mul_comm]
    rfl
  by_cases hk : k = .toF16x2 ∨ k = .toBf16x2
  · have hwords : k.dstWords = 1 ∧ k.srcWords = 2 := by rcases hk with rfl | rfl <;> exact ⟨rfl, rfl⟩
    rw [hwords.1, hwords.2] at hx
    simp only [if_pos hk]
    refine laneF_puts (f := .f32) (r := fun l _ => ((packElem s m k a l 0).1 + 2 ^ 16 * (packElem s m k a l 1).1, (packElem s m k a l 0).2 ||| (packElem s m k a l 1).2)) hx fun l => ?_
    exact (cvtPack_elems_to s m a l hk).trans (hjoin ..)
  · have hwords : k.dstWords = 2 ∧ k.srcWords = 1 := by
      cases k with
      | toF16x2 => exact absurd (.inl rfl) hk
      | toBf16x2 => exact absurd (.inr rfl) hk
      | ofF16x2 => exact ⟨rfl, rfl⟩
      | ofBf16x2 => exact ⟨rfl, rfl⟩
    rw [hwords.1, hwords.2] at hx
    simp only [if_neg hk]
    refine laneF_puts (f := .f64) (r := fun l _ => ((packElem s m k a l 0).1 + 2 ^ 32 * (packElem s m k a l 1).1, (packElem s m k a l 0).2 ||| (packElem s m k a l 1).2)) hx fun l => ?_
    exact (cvtPack_elems_of s m a l hk).trans (hjoin ..)
/-- Settles O11: every conversion rounds the exact value once, by the lemmas on `toFloat`, `widened` and `floatToInt`. -/
theorem conversions : Obligations.Conversions := by
  unfold Obligations.Conversions
  intro s m x y k d a isF wide ff it src int narrow t due md sat
  have hfine := (roomy_fmtOf (ff x)).toFineFmt
  have hnarrow : narrower (fmtOf (formatOf x)) (fmtOf (formatOf y)) = true ↔ narrow := by
    unfold narrower
    rw [Bool.or_eq_true, decide_eq_true_iff, decide_eq_true_iff]
    rfl
  have hw := laneF_writes (i := .cvt m x y d a) (s := s) (m := m) (t := .fixed 6) (d := d) (r := fun l => cvt x y m.sat (s.rmode m) (s.srcN s.cur.wid l y.words a).toNat) (cvtWords x)
    (show exec (.cvt m x y d a) s = execCvt m x y d a s from rfl)
  refine ⟨fun l => cvt x y m.sat (s.rmode m) (s.srcN s.cur.wid l y.words a).toNat, hw, fun hx hy l => ?_, fun hx hy l => ?_, fun hx hy l => ?_, fun hx hy l => ?_, ?_⟩
  · dsimp only
    rw [cvt_ff hx hy, float_source s l a hy, show valOf s (formatOf y) l a 0 = src l from rfl]
    generalize src l = v
    by_cases hn : narrow
    · simp only [if_pos (hnarrow.2 hn), if_pos hn, and_iff_left hn]
      cases v with
      | nan g => exact toFloat_nan ..
      | inf g => exact toFloat_inf ..
      | fin g k e =>
        refine ⟨_, ?_, (toFloat_fin ..).trans (saturated_eq hfine ..)⟩
        rw [ratOf_fin]
        exact rounds_fin ..
    · simp only [if_neg (fun h => hn (hnarrow.1 h)), if_neg hn, if_neg (fun h : m.sat = true ∧ narrow => hn h.2)]
      cases v with
      | nan g => exact widened_nan ..
      | inf g => exact widened_inf ..
      | fin g k e =>
        refine ⟨_, ?_, widened_fin ..⟩
        rw [ratOf_fin]
        exact rounds_fin ..
  · dsimp only
    rw [cvt_fi hx hy, int_source s l a hy, show operand s (intTypeOf y) l a = int l from rfl]
    generalize int l = i
    have hr := rounds_int (fmtOf (ff x)) md false i 0
    rw [zpow_zero, mul_one] at hr
    refine ⟨_, hr, ?_⟩
    have hneg : (if i = 0 then false else decide (i < 0)) = decide (i < 0) := by
      split
      · next h => rw [h]; rfl
      · rfl
    rw [hneg]
    exact (toFloat_fin ..).trans (saturated_eq hfine ..)
  · dsimp only
    obtain ⟨hlo, hhi, hbits, hbad⟩ := int_type hx m.sat
    rw [cvt_if hx hy, float_source s l a hy, show valOf s (formatOf y) l a 0 = src l from rfl]
    generalize src l = v
    have hbad' : badBits x m.sat = if m.sat then 0 else if x = .s32 then 2 ^ 31 else if x = .s64 then 2 ^ 63 else if x = .z32 then 2 ^ 32 - 1 else 2 ^ 64 - 1 := hbad
    cases v with
    | nan g =>
      rw [floatToInt_nan, hbad']
    | inf g =>
      rw [floatToInt_inf, hbad', hbits, hlo, hhi]
      rfl
    | fin g k e =>
      obtain ⟨i, hi, he⟩ := floatToInt_fin x (s.rmode m .rtz) m.sat g k e
      refine ⟨i, hi, ?_⟩
      rw [he, hbad', hbits, hbits]
      unfold clampTo
      rw [hlo, hhi]
      rfl
  · dsimp only
    obtain ⟨hlo, hhi, hbits, -⟩ := int_type hx m.sat
    rw [cvt_ii hx hy, int_source s l a hy, hbits]
    unfold clampTo
    rw [hlo, hhi]
    rfl
  · obtain ⟨u, hu, hw⟩ := cvtPack_writes (s := s) (m := m) (k := k) (d := d) (a := a)
    refine ⟨u, packElem s m k a, hu, hw, fun l j _ => ?_⟩
    have hfmt : (if k = .toF16x2 ∨ k = .ofF16x2 then fmt16 else fmtB16) = fmtOf (formatOf (halfType k)) := by cases k <;> rfl
    have hhalf : IsFloat (halfType k) := by cases k <;> simp [IsFloat, halfType]
    dsimp only
    rw [hfmt]
    by_cases hk : k = .toF16x2 ∨ k = .toBf16x2
    · have hn : narrower (fmtOf (formatOf (halfType k))) (fmtOf (formatOf .f32)) = true := by cases k <;> decide
      rw [if_pos hk, packElem_to s m a l hk, cvt_ff hhalf (.inl rfl), if_pos hn]
      rw [show fmtOf (formatOf .f32) = fmt32 from rfl, show fmt32.bits = 32 from rfl, Nat.mod_mod]
      generalize fmt32.val _ = v
      cases v with
      | nan g => exact toFloat_nan ..
      | inf g => exact toFloat_inf ..
      | fin g n e =>
        refine ⟨_, ?_, toFloat_fin ..⟩
        rw [ratOf_fin]
        exact rounds_fin ..
    · have hn : ¬ narrower (fmtOf (formatOf .f32)) (fmtOf (formatOf (halfType k))) = true := by cases k <;> decide
      have hb : (fmtOf (formatOf (halfType k))).bits = 16 := by cases k <;> rfl
      rw [if_neg hk, packElem_of s m a l hk, cvt_ff (.inl rfl) hhalf, if_neg hn, hb, Nat.mod_mod]
      generalize (fmtOf (formatOf (halfType k))).val _ = v
      cases v with
      | nan g => exact widened_nan ..
      | inf g => exact widened_inf ..
      | fin g n e =>
        refine ⟨_, ?_, widened_fin ..⟩
        rw [ratOf_fin]
        exact rounds_fin ..
end Sys2Proof
end

