-- ==== Sys2Proof/Proofs/SpecialFunctions.lean ====
section
/-! SUPPORT. Roots and their reciprocals, and the values of the special functions that R54 lists; what settles O10. -/

namespace Sys2Proof
open Machine

/-! ### Integer square roots -/

theorem isqrtGo_spec {n : Nat} (k r : Nat) (h1 : r * r ≤ n) (h2 : n < (r + 2 ^ k) * (r + 2 ^ k)) : isqrtGo n k r * isqrtGo n k r ≤ n ∧ n < (isqrtGo n k r + 1) * (isqrtGo n k r + 1) := by
  induction k generalizing r with
  | zero => exact ⟨h1, h2⟩
  | succ k ih =>
    rw [isqrtGo]
    have hp : r + 2 ^ (k + 1) = r + 2 ^ k + 2 ^ k := by
      rw [pow_succ]
      omega
    rw [hp] at h2
    split
    · next h => exact ih _ h h2
    · next h => exact ih _ h1 (Nat.not_le.1 h)
theorem isqrt_spec (n : Nat) : isqrt n * isqrt n ≤ n ∧ n < (isqrt n + 1) * (isqrt n + 1) := by
  refine isqrtGo_spec _ 0 (Nat.zero_le _) ?_
  rw [Nat.zero_add, ← pow_add]
  exact (lt_bitLen n).trans_le (Nat.pow_le_pow_right Nat.two_pos (by omega))
theorem le_isqrt {n b : Nat} (h : b * b ≤ n) : b ≤ isqrt n := by
  have := (isqrt_spec n).2
  by_contra hlt
  exact absurd (h.trans_lt this) (not_lt.2 (Nat.mul_le_mul (Nat.not_le.1 hlt) (Nat.not_le.1 hlt)))

/-! ### Square roots -/

theorem ratOf_pos (m : Nat) (e : Int) : ((ratOf (.fin false m e) : ℚ) : ℝ) = (m : ℝ) * 2 ^ e := by
  rw [ratOf_fin, show signOf false = 1 from rfl, one_mul]
  push_cast
  rfl
/-- The root of a whole number of units is one more than `r` of them at the most. -/
theorem sqrt_between {q u : ℝ} {r a : Nat} (hu : 0 < u) (hq : q = a * (u * u)) (h1 : r * r ≤ a) (h2 : a < (r + 1) * (r + 1)) :
    (r : ℝ) * u ≤ Real.sqrt q ∧ Real.sqrt q < ((r : ℝ) + 1) * u ∧ (r * r = a ↔ Real.sqrt q = (r : ℝ) * u) := by
  have h1' : (r : ℝ) * r ≤ a := by exact_mod_cast h1
  have h2' : (a : ℝ) < ((r : ℝ) + 1) * (r + 1) := by exact_mod_cast h2
  have hr : (0 : ℝ) ≤ r * u := by positivity
  have huu : 0 < u * u := mul_pos hu hu
  have e1 : (r : ℝ) * u * (r * u) = r * r * (u * u) := by ring
  have e2 : ((r : ℝ) + 1) * u * ((r + 1) * u) = (r + 1) * (r + 1) * (u * u) := by ring
  refine ⟨?_, ?_, ?_⟩
  · rw [hq]
    refine Real.le_sqrt_of_sq_le ?_
    rw [sq, e1]
    exact mul_le_mul_of_nonneg_right h1' huu.le
  · rw [hq, Real.sqrt_lt' (by positivity), sq, e2]
    exact mul_lt_mul_of_pos_right h2' huu
  · rw [hq, Real.sqrt_eq_iff_mul_self_eq (by positivity) hr, e1, mul_left_inj' huu.ne']
    exact ⟨fun h => by exact_mod_cast h.symm, fun h => by exact_mod_cast h.symm⟩
section
variable (f : Fmt) (md : RMode)
theorem sqrtVal_rootIs (x : FVal) : RootIs f md x (finishF f md (sqrtVal f x)) := by
  cases x with
  | nan s => exact (finishF_nan f md false _).trans (nan_flags f s)
  | inf n => cases n with
    | true => exact finishF_nan f md false flNV
    | false => exact finishF_inf f md false flNone
  | fin n m e =>
    unfold RootIs sqrtVal
    dsimp only
    by_cases hm : m = 0
    · rw [if_pos hm, if_pos hm]
      exact (finishF_fin f md n 0 0).trans (roundFin_zero f md _ _)
    rw [if_neg hm, if_neg hm]
    cases n with
    | true => exact finishF_nan f md false flNV
    | false =>
      rw [if_neg Bool.false_ne_true, if_neg Bool.false_ne_true, finishF_fin]
      generalize hk : 2 * (f.fb + 4) + (e % 2).toNat = k
      obtain ⟨h1, h2⟩ := isqrt_spec (m * 2 ^ k)
      have hE : (e - k) / 2 + (e - k) / 2 = e - k := by omega
      have hq : ((ratOf (.fin false m e) : ℚ) : ℝ) = ((m * 2 ^ k : Nat) : ℝ) * ((2 : ℝ) ^ ((e - k) / 2) * (2 : ℝ) ^ ((e - k) / 2)) := by
        rw [ratOf_pos, ← zpow_add₀ two_ne_zero, hE, zpow_sub₀ two_ne_zero, zpow_natCast]
        push_cast
        field_simp
      obtain ⟨i1, i2, i3⟩ := sqrt_between (by positivity) hq h1 h2
      refine roundsReal_jam f md false ?_ i1 i2 i3
      refine le_isqrt ?_
      rw [← pow_add]
      calc 2 ^ (f.fb + 2 + (f.fb + 2)) ≤ 2 ^ k := Nat.pow_le_pow_right Nat.two_pos (by omega)
        _ = 1 * 2 ^ k := (one_mul _).symm
        _ ≤ m * 2 ^ k := Nat.mul_le_mul_right _ (Nat.pos_of_ne_zero hm)
/-- A significand over an even power of two. -/
def evenSig (m : Nat) (e : Int) : Nat := if e % 2 = 0 then m else 2 * m
def evenExp (e : Int) : Int := if e % 2 = 0 then e else e - 1
theorem even_split (m : Nat) (e : Int) : (m : ℝ) * 2 ^ e = (evenSig m e : ℝ) * (2 ^ (evenExp e / 2) * 2 ^ (evenExp e / 2)) := by
  rw [← zpow_add₀ two_ne_zero]
  unfold evenSig evenExp
  by_cases h : e % 2 = 0
  · rw [if_pos h, if_pos h, show e / 2 + e / 2 = e by omega]
  · rw [if_neg h, if_neg h, show (e - 1) / 2 + (e - 1) / 2 = e - 1 by omega, zpow_sub_one₀ two_ne_zero]
    push_cast
    field_simp
theorem rsqrtVal_fin {m : Nat} (hm : m ≠ 0) (e : Int) : rsqrtVal f (.fin false m e) =
    (.fin false (2 * isqrt (2 ^ (2 * (f.fb + 4 + bitLen (evenSig m e))) / evenSig m e) +
        (if isqrt (2 ^ (2 * (f.fb + 4 + bitLen (evenSig m e))) / evenSig m e) * isqrt (2 ^ (2 * (f.fb + 4 + bitLen (evenSig m e))) / evenSig m e) * evenSig m e =
          2 ^ (2 * (f.fb + 4 + bitLen (evenSig m e))) then 0 else 1))
      (-((f.fb + 4 + bitLen (evenSig m e) : Nat) : Int) - evenExp e / 2 - 1), flNone) := if_neg hm
theorem rsqrtVal_is (x : FVal) : ReciprocalRootIs f md x (finishF f md (rsqrtVal f x)) := by
  cases x with
  | nan s => exact (finishF_nan f md false _).trans (nan_flags f s)
  | inf n => cases n with
    | true => exact finishF_nan f md false flNV
    | false => exact (finishF_fin f md false 0 0).trans (roundFin_zero f md _ _)
  | fin n m e =>
    by_cases hm : m = 0
    · have h : rsqrtVal f (.fin n m e) = (.inf n, flDZ) := if_pos hm
      rw [h]
      unfold ReciprocalRootIs
      dsimp only
      rw [if_pos hm]
      exact finishF_inf f md n flDZ
    cases n with
    | true =>
      have h : rsqrtVal f (.fin true m e) = (.nan false, flNV) := if_neg hm
      rw [h]
      unfold ReciprocalRootIs
      dsimp only
      rw [if_neg hm, if_pos rfl]
      exact finishF_nan f md false flNV
    | false =>
      rw [rsqrtVal_fin f hm]
      unfold ReciprocalRootIs
      dsimp only
      rw [if_neg hm, if_neg Bool.false_ne_true, finishF_fin, ratOf_pos, even_split]
      have hpos : 0 < evenSig m e := by
        unfold evenSig
        split <;> omega
      generalize evenSig m e = n at hpos
      generalize evenExp e / 2 = E
      have hL := lt_bitLen n
      generalize hk : f.fb + 4 + bitLen n = k
      have hn : (0 : ℝ) < n := Nat.cast_pos.2 hpos
      obtain ⟨h1, h2⟩ := isqrt_spec (2 ^ (2 * k) / n)
      have hle : 2 ^ (f.fb + 2) ≤ isqrt (2 ^ (2 * k) / n) := by
        refine le_isqrt ?_
        rw [Nat.le_div_iff_mul_le hpos, ← pow_add]
        calc 2 ^ (f.fb + 2 + (f.fb + 2)) * n ≤ 2 ^ (f.fb + 2 + (f.fb + 2)) * 2 ^ bitLen n := Nat.mul_le_mul_left _ hL.le
          _ = 2 ^ (f.fb + 2 + (f.fb + 2) + bitLen n) := (pow_add ..).symm
          _ ≤ 2 ^ (2 * k) := Nat.pow_le_pow_right Nat.two_pos (by omega)
      generalize isqrt (2 ^ (2 * k) / n) = r at h1 h2 hle
      rw [Nat.le_div_iff_mul_le hpos] at h1
      rw [Nat.div_lt_iff_lt_mul hpos] at h2
      have h1' : (r : ℝ) * r * n ≤ 2 ^ (2 * k) := by exact_mod_cast h1
      have h2' : (2 : ℝ) ^ (2 * k) < ((r : ℝ) + 1) * (r + 1) * n := by exact_mod_cast h2
      have hu : (0 : ℝ) < 2 ^ (-(k : Int) - E) := by positivity
      have hval : 1 / Real.sqrt ((n : ℝ) * (2 ^ E * 2 ^ E)) = Real.sqrt ((2 : ℝ) ^ (2 * k) / n) * 2 ^ (-(k : Int) - E) := by
        rw [Real.sqrt_mul hn.le, Real.sqrt_mul_self (by positivity), Real.sqrt_div (by positivity), mul_comm 2 k, pow_mul, Real.sqrt_sq (by positivity),
          zpow_sub₀ two_ne_zero, zpow_neg, zpow_natCast]
        have : Real.sqrt n ≠ 0 := (Real.sqrt_pos.2 hn).ne'
        field_simp
      rw [hval]
      refine roundsReal_jam f md false hle ?_ ?_ ?_
      · refine mul_le_mul_of_nonneg_right (Real.le_sqrt_of_sq_le ?_) hu.le
        rw [le_div_iff₀ hn, sq]
        exact h1'
      · refine mul_lt_mul_of_pos_right ?_ hu
        rw [Real.sqrt_lt' (by positivity), div_lt_iff₀ hn, sq]
        exact h2'
      · rw [mul_left_inj' hu.ne', Real.sqrt_eq_iff_mul_self_eq (by positivity) (by positivity), div_eq_iff hn.ne']
        exact ⟨fun h => by exact_mod_cast h.symm, fun h => by exact_mod_cast h.symm⟩
end

/-! ### Whole numbers and halves -/

/-- The bits of one. -/
def oneBits (f : Fmt) : Nat := (f.bias - 1).toNat * 2 ^ f.fb + 2 ^ f.fb
/-- One is exact in every mode. -/
theorem roundFin_one {f : Fmt} (hf : RoomyFmt f) (md : RMode) (neg : Bool) : roundFin f md neg 1 0 = (f.sign neg + oneBits f, 0) := by
  have hb := one_le_bias hf
  have hE := expMax_eq hf.toFineFmt
  have hinf : f.infBits = f.expMax * 2 ^ f.fb := rfl
  have hlen : bitLen 1 = 1 := by decide
  have hq : max ((0 : Int) + (1 : Nat) - 1 - f.fb) f.qmin = -(f.fb : Int) := by unfold Fmt.qmin; omega
  have hr : roundAt md neg 1 0 (-(f.fb : Int)) = (2 ^ f.fb, false) := by
    unfold roundAt
    rw [if_pos (by omega), show ((0 : Int) - -(f.fb : Int)).toNat = f.fb by omega, one_mul]
  have hn : (-(f.fb : Int) - f.qmin).toNat = (f.bias - 1).toNat := by unfold Fmt.qmin; omega
  unfold roundFin
  rw [if_neg one_ne_zero, hlen]
  dsimp only
  rw [hq, hr, hn, if_neg]
  · rfl
  · rw [hinf, ← Nat.succ_mul]
    exact not_le.2 (Nat.mul_lt_mul_of_pos_right (by omega) (Nat.two_pow_pos _))
theorem signOf_cast (n : Bool) (k : Nat) : signOf n * (k : ℚ) = (((if n then -1 else 1) * (k : Int) : Int) : ℚ) := by
  unfold signOf
  split <;> push_cast <;> ring
/-- A number that is whole, of a significand over a power of two. -/
theorem size_eq_int {m : Nat} {e : Int} {k : Nat} (h : (m : ℚ) * (2 : ℚ) ^ e = k) : (0 ≤ e → m * 2 ^ e.toNat = k) ∧ (e ≤ 0 → m = k * 2 ^ (-e).toNat) := by
  constructor
  · intro he
    obtain ⟨n, rfl⟩ := Int.eq_ofNat_of_zero_le he
    rw [zpow_natCast] at h
    exact_mod_cast h
  · intro he
    obtain ⟨n, hn⟩ := Int.eq_ofNat_of_zero_le (show 0 ≤ -e by omega)
    rw [show e = -(n : Int) by omega, zpow_neg, zpow_natCast, mul_inv_eq_iff_eq_mul₀ (by positivity)] at h
    rw [hn, Int.toNat_natCast]
    exact_mod_cast h
/-- The size of a number, a whole number with its sign. -/
theorem size_of_rat {n : Bool} {m : Nat} {e : Int} {q : ℚ} {k : Nat} (h : ratOf (.fin n m e) = q) (hq : |q| = k) : (m : ℚ) * (2 : ℚ) ^ e = k := by
  rw [← hq, ← h, abs_ratOf_fin]
theorem int_cast_abs (i : Int) : |(i : ℚ)| = (i.natAbs : ℚ) := by
  rw [← Int.cast_abs, Int.abs_eq_natAbs]
  rfl
/-- Half turns of a number of them: none remains. -/
theorem halfTurns_whole {m : Nat} {e : Int} {k : Nat} (h : (m : ℚ) * (2 : ℚ) ^ (e + 1) = k) : halfTurns m e = (k % 4, 0, e) := by
  obtain ⟨h1, h2⟩ := size_eq_int h
  unfold halfTurns
  split
  · next he =>
    have h1 := h1 (by omega)
    obtain ⟨n, hn⟩ : ∃ n, (e + 1).toNat = n + 2 := ⟨(e + 1).toNat - 2, by omega⟩
    rw [hn, pow_add] at h1
    rw [← h1, show m * (2 ^ n * 2 ^ 2) = m * 2 ^ n * 4 by ring, Nat.mul_mod_left]
  · split
    · next he => rw [h1 he]
    · next he =>
      have h2 := h2 (by omega)
      dsimp only
      rw [h2, Nat.mul_div_cancel _ (Nat.two_pow_pos _), Nat.mul_mod_left]
/-- Twice a size, in whole numbers. -/
theorem twice_size {m : Nat} {e : Int} {q : ℚ} {n : Bool} {k : Nat} (h : ratOf (.fin n m e) = q) (hq : |2 * q| = k) : (m : ℚ) * (2 : ℚ) ^ (e + 1) = k := by
  rw [zpow_add_one₀ two_ne_zero, ← hq, abs_mul, ← h, abs_ratOf_fin, abs_of_pos two_pos]
  ring
section
variable {f : Fmt} (hf : RoomyFmt f) (md : RMode)
theorem ratOf_neg_iff {n : Bool} {m : Nat} {e : Int} (hm : ratOf (.fin n m e) ≠ 0) : n = true ↔ ratOf (.fin n m e) < 0 := by
  have hp : (0 : ℚ) ≤ m * (2 : ℚ) ^ e := by positivity
  rw [ratOf_fin] at hm ⊢
  cases n with
  | true =>
    rw [show signOf true = -1 from rfl] at hm ⊢
    exact ⟨fun _ => lt_of_le_of_ne (by linarith) hm, fun _ => rfl⟩
  | false =>
    rw [show signOf false = 1 from rfl, one_mul]
    exact ⟨nofun, fun h => absurd h (not_lt.2 hp)⟩
include hf

/-! ### Exponentials and logarithms -/

theorem fExp2_int {x m : Nat} {n : Bool} {e : Int} (hx : f.val x = .fin n m e) (hb : f.bias < 2 ^ 11) {i : Int} (hi : ratOf (f.val x) = i) (h1 : -f.bias ≤ i) (h2 : i ≤ f.bias) :
    fExp2 f md x = roundFin f md false 1 i := by
  rw [hx] at hi
  have hk := size_of_rat hi (int_cast_abs i)
  obtain ⟨g1, g2⟩ := size_eq_int hk
  have hfin : fExp2 f md x = if m = 0 then roundFin f md false 1 0
      else if (12 : Int) ≤ e + bitLen m then (if n then justAbove f md false 1 (f.qmin - 80) else roundFin f md false 1 (2 * f.bias + 2))
      else if (splitVal n m e).2.1 = 0 then roundFin f md false 1 (splitVal n m e).1
      else ziv f md (fun w => (false, encExp2 (splitVal n m e).1 (splitVal n m e).2.1 (splitVal n m e).2.2 w)) := by
    unfold fExp2
    rw [hx]
  rw [hfin]
  by_cases hm : m = 0
  · subst hm
    rw [ratOf_zero] at hi
    have : i = 0 := by exact_mod_cast hi.symm
    rw [if_pos rfl, this]
  rw [if_neg hm, if_neg]
  · have hsplit : (splitVal n m e).2.1 = 0 ∧ (splitVal n m e).1 = i := by
      have hs : ((if n then -1 else 1) * (i.natAbs : Int) : Int) = i := by
        have := hi
        rw [ratOf_fin, hk, signOf_cast] at this
        exact_mod_cast this
      unfold splitVal
      split
      · next he =>
        refine ⟨rfl, ?_⟩
        show (if n then -1 else 1) * ((m * 2 ^ (e - 0).toNat : Nat) : Int) = i
        rw [sub_zero, g1 he, hs]
      · next he =>
        have hme := g2 (by omega)
        have hp : ((2 ^ (-e).toNat : Nat) : Int) ≠ 0 := by exact_mod_cast (Nat.two_pow_pos _).ne'
        have hxm : (if n then -(m : Int) else m) = i * ((2 ^ (-e).toNat : Nat) : Int) := by
          rw [← hs, hme]
          push_cast
          cases n <;> simp
        dsimp only
        rw [hxm, Int.mul_emod_left, Int.mul_ediv_cancel _ hp]
        exact ⟨rfl, rfl⟩
    rw [if_pos hsplit.1, hsplit.2]
  · intro h12
    have hlo := (size_bounds hm e).1
    rw [hk] at hlo
    have h11 : (2 : ℚ) ^ (11 : Int) ≤ (2 : ℚ) ^ (e + bitLen m - 1) := zpow_le_zpow_right₀ one_le_two (by omega)
    have h3 := h11.trans hlo
    have h4 : 2 ^ 11 ≤ i.natAbs := by exact_mod_cast h3
    omega
omit hf in
theorem fLog2_pow {x m : Nat} {e : Int} (hx : f.val x = .fin false m e) (hm : m ≠ 0) {i : Int} (hi : ratOf (f.val x) = (2 : ℚ) ^ i) :
    fLog2 f md x = roundFin f md (decide (i < 0)) i.natAbs 0 := by
  rw [hx, ratOf_fin, show signOf false = 1 from rfl, one_mul] at hi
  obtain ⟨h1, h2⟩ := size_bounds hm e
  rw [hi, zpow_le_zpow_iff_right₀ one_lt_two] at h1
  rw [hi, zpow_lt_zpow_iff_right₀ one_lt_two] at h2
  have hp := bitLen_pos hm
  have hie : i = e + bitLen m - 1 := by omega
  have hpow : m = 2 ^ (bitLen m - 1) := by
    rw [hie, show e + bitLen m - 1 = ((bitLen m - 1 : Nat) : Int) + e by omega, zpow_nat_mul] at hi
    exact_mod_cast mul_right_cancel₀ (show ((2 : ℚ) ^ e) ≠ 0 by positivity) hi
  have hfin : fLog2 f md x = if m = 0 then (f.sign true + f.infBits, flDZ) else if false then (f.nan, flNV)
      else if m = 2 ^ (bitLen m - 1) then roundVal f md (intVal (e + bitLen m - 1)) else ziv f md (fun w => encLog2 m e w) := by
    unfold fLog2
    rw [hx]
  rw [hfin, if_neg hm, if_neg Bool.false_ne_true, if_pos hpow, hie]
  rfl

/-! ### Sine and cosine -/

omit hf in
theorem fSinPi_fin {x m : Nat} {n : Bool} {e : Int} (hx : f.val x = .fin n m e) {k : Nat} (hk : (m : ℚ) * (2 : ℚ) ^ (e + 1) = k) : fSinPi f md x =
    if k % 4 % 2 = 0 then roundFin f md n 0 0 else roundFin f md (n ^^ decide (2 ≤ k % 4)) 1 0 := by
  unfold fSinPi
  rw [hx]
  dsimp only
  rw [halfTurns_whole hk]
  rfl
omit hf in
theorem fCosPi_fin {x m : Nat} {n : Bool} {e : Int} (hx : f.val x = .fin n m e) {k : Nat} (hk : (m : ℚ) * (2 : ℚ) ^ (e + 1) = k) : fCosPi f md x =
    if k % 4 % 2 = 0 then roundFin f md (k % 4 == 1 || k % 4 == 2) 1 0 else roundFin f md false 0 0 := by
  unfold fCosPi
  rw [hx]
  dsimp only
  rw [halfTurns_whole hk]
  rfl
omit hf in
/-- Twice a whole number, and twice a whole number and a half. -/
theorem twice_int (i : Int) : |2 * (i : ℚ)| = ((2 * i.natAbs : Nat) : ℚ) := by
  rw [abs_mul, int_cast_abs, abs_of_pos two_pos]
  push_cast
  rfl
omit hf in
theorem twice_half (i : Int) : |2 * ((i : ℚ) + 1 / 2)| = (((2 * i + 1).natAbs : Nat) : ℚ) := by
  rw [← int_cast_abs]
  congr 1
  push_cast
  ring
omit hf in
theorem fSinPi_int {x m : Nat} {n : Bool} {e : Int} (hx : f.val x = .fin n m e) {i : Int} (hi : ratOf (f.val x) = i) : fSinPi f md x = (f.sign n, 0) := by
  rw [hx] at hi
  rw [fSinPi_fin md hx (twice_size hi (twice_int i)), if_pos (by omega)]
  exact roundFin_zero ..
theorem fSinPi_half {x m : Nat} {n : Bool} {e : Int} (hx : f.val x = .fin n m e) {i : Int} (hi : ratOf (f.val x) = i + 1 / 2) :
    fSinPi f md x = if i % 2 = 0 then (oneBits f, 0) else (f.sign true + oneBits f, 0) := by
  rw [hx] at hi
  have hne : ((i : ℚ) + 1 / 2) ≠ 0 := by
    intro h
    have : (2 * (i : ℚ) + 1) = 0 := by linarith
    have : (2 * i + 1 : Int) = 0 := by exact_mod_cast this
    omega
  have hn : n = true ↔ i < 0 := by
    rw [ratOf_neg_iff (by rw [hi]; exact hne), hi]
    constructor
    · intro h
      have : (2 * (i : ℚ) + 1) < 0 := by linarith
      have : (2 * i + 1 : Int) < 0 := by exact_mod_cast this
      omega
    · intro h
      have : (i : ℚ) ≤ -1 := by exact_mod_cast (show i ≤ -1 by omega)
      linarith
  have hsign : (n ^^ decide (2 ≤ (2 * i + 1).natAbs % 4)) = decide (i % 2 ≠ 0) := by
    rcases lt_or_ge i 0 with h | h
    · rw [hn.2 h, Bool.true_xor, ← decide_not]
      exact decide_eq_decide.2 (by omega)
    · rw [Bool.eq_false_iff.2 (fun h' => absurd (hn.1 h') (not_lt.2 h)), Bool.false_xor]
      exact decide_eq_decide.2 (by omega)
  rw [fSinPi_fin md hx (twice_size hi (twice_half i)), if_neg (by omega), hsign, roundFin_one hf]
  by_cases h : i % 2 = 0
  · rw [if_pos h, decide_eq_false (not_not.2 h), show f.sign false = 0 from rfl, Nat.zero_add]
  · rw [if_neg h, decide_eq_true h]
omit hf in
theorem fCosPi_half {x m : Nat} {n : Bool} {e : Int} (hx : f.val x = .fin n m e) {i : Int} (hi : ratOf (f.val x) = i + 1 / 2) : fCosPi f md x = (0, 0) := by
  rw [hx] at hi
  rw [fCosPi_fin md hx (twice_size hi (twice_half i)), if_neg (by omega)]
  exact roundFin_zero ..
theorem fCosPi_int {x m : Nat} {n : Bool} {e : Int} (hx : f.val x = .fin n m e) {i : Int} (hi : ratOf (f.val x) = i) :
    fCosPi f md x = if i % 2 = 0 then (oneBits f, 0) else (f.sign true + oneBits f, 0) := by
  rw [hx] at hi
  have hsign : (2 * i.natAbs % 4 == 1 || 2 * i.natAbs % 4 == 2) = decide (i % 2 ≠ 0) := by
    refine Bool.eq_iff_iff.2 ?_
    rw [Bool.or_eq_true, beq_iff_eq, beq_iff_eq, decide_eq_true_iff]
    omega
  rw [fCosPi_fin md hx (twice_size hi (twice_int i)), if_pos (by omega), hsign, roundFin_one hf]
  by_cases h : i % 2 = 0
  · rw [if_pos h, decide_eq_false (not_not.2 h), show f.sign false = 0 from rfl, Nat.zero_add]
  · rw [if_neg h, decide_eq_true h]
end
theorem bias_small (f : FFmt) : (fmtOf f).bias < 2 ^ 11 := by cases f <;> decide
/-- Settles O10: the integer roots lie between the real ones, and the special values are those of whole numbers and halves. -/
theorem specialFunctions : Obligations.SpecialFunctions := by
  unfold Obligations.SpecialFunctions
  intro s m f d a t md x one neg half
  have hf := roomy_fmtOf f
  have hone : one = oneBits t := by
    show (roundFin t md false 1 0).1 = _
    rw [roundFin_one hf]
    exact Nat.zero_add _
  rw [hone]
  refine ⟨?_, ?_, ?_, ?_, ?_, ?_, ?_, ?_⟩
  · exact unary_such (i := .fsqrt m f d a) (t := .owed) (p := RootIs t md) rfl fun y => sqrtVal_rootIs ..
  · exact unary_such (i := .frcp m f d a) (t := .owed) (p := QuotientIs t md (.fin false 1 0)) rfl fun y => divVal_quotientIs ..
  · exact unary_such (i := .frsqrt m f d a) (t := .owed) (p := ReciprocalRootIs t md) rfl fun y => rsqrtVal_is ..
  · refine (unary_puts (i := .fexp2 m f d a) (t := .owed) (g := fun t => fExp2 t md) rfl).such fun l j => ?_
    rw [show x l j = t.val (elemOf s f l a j) from rfl]
    generalize elemOf s f l a j = b
    cases hv : t.val b with
    | nan g =>
      have h : fExp2 t md b = (t.nan, sigFlag [.nan g]) := by unfold fExp2; rw [hv]
      exact h.trans (nan_flags t g)
    | inf g =>
      have h : fExp2 t md b = if g then (0, flNone) else (t.infBits, flNone) := by unfold fExp2; rw [hv]
      refine h.trans ?_
      cases g with
      | true => rfl
      | false => exact congrArg (·, flNone) (Nat.zero_add _).symm
    | fin g k e => exact fun i hi h1 h2 => fExp2_int hf md hv (bias_small f) (hv ▸ hi) h1 h2
  · refine (unary_puts (i := .flog2 m f d a) (t := .owed) (g := fun t => fLog2 t md) rfl).such fun l j => ?_
    rw [show x l j = t.val (elemOf s f l a j) from rfl]
    generalize elemOf s f l a j = b
    cases hv : t.val b with
    | nan g =>
      have h : fLog2 t md b = (t.nan, sigFlag [.nan g]) := by unfold fLog2; rw [hv]
      exact h.trans (nan_flags t g)
    | inf g =>
      have h : fLog2 t md b = if g then (t.nan, flNV) else (t.infBits, flNone) := by unfold fLog2; rw [hv]
      refine h.trans ?_
      cases g with
      | true => rfl
      | false => exact congrArg (·, flNone) (Nat.zero_add _).symm
    | fin g k e =>
      dsimp only
      by_cases hk : k = 0
      · rw [if_pos hk]
        unfold fLog2
        rw [hv]
        exact if_pos hk
      · rw [if_neg hk]
        cases g with
        | true =>
          unfold fLog2
          rw [hv]
          exact if_neg hk
        | false => exact fun i hi => fLog2_pow md hv hk (hv ▸ hi)
  · refine (unary_puts (i := .fsinpi m f d a) (t := .owed) (g := fun t => fSinPi t md) rfl).such fun l j => ?_
    rw [show x l j = t.val (elemOf s f l a j) from rfl]
    generalize elemOf s f l a j = b
    cases hv : t.val b with
    | nan g =>
      have h : fSinPi t md b = (t.nan, sigFlag [.nan g]) := by unfold fSinPi; rw [hv]
      exact h.trans (nan_flags t g)
    | inf g =>
      show fSinPi t md b = _
      unfold fSinPi
      rw [hv]
      rfl
    | fin g k e => exact ⟨fun i hi => fSinPi_int md hv (hv ▸ hi), fun i hi => fSinPi_half hf md hv (hv ▸ hi)⟩
  · refine (unary_puts (i := .fcospi m f d a) (t := .owed) (g := fun t => fCosPi t md) rfl).such fun l j => ?_
    rw [show x l j = t.val (elemOf s f l a j) from rfl]
    generalize elemOf s f l a j = b
    cases hv : t.val b with
    | nan g =>
      have h : fCosPi t md b = (t.nan, sigFlag [.nan g]) := by unfold fCosPi; rw [hv]
      exact h.trans (nan_flags t g)
    | inf g =>
      show fCosPi t md b = _
      unfold fCosPi
      rw [hv]
      rfl
    | fin g k e => exact ⟨fun ⟨i, hi⟩ => fCosPi_half md hv (hv ▸ hi), fun i hi => fCosPi_int hf md hv (hv ▸ hi)⟩
  · refine (unary_puts (i := .ftanh m f d a) (t := .owed) (g := fun t => fTanh t md) rfl).such fun l j => ?_
    rw [show x l j = t.val (elemOf s f l a j) from rfl]
    generalize elemOf s f l a j = b
    cases hv : t.val b with
    | nan g =>
      have h : fTanh t md b = (t.nan, sigFlag [.nan g]) := by unfold fTanh; rw [hv]
      exact h.trans (nan_flags t g)
    | inf g =>
      have h : fTanh t md b = roundFin t md g 1 0 := by unfold fTanh; rw [hv]
      exact h.trans (roundFin_one hf md g)
    | fin g k e =>
      intro hk
      have h : fTanh t md b = roundFin t md g 0 0 := by
        unfold fTanh
        rw [hv]
        exact if_pos hk
      exact h.trans (roundFin_zero ..)
end Sys2Proof
end

