-- ==== Sys2Proof/Proofs/ArrayState.lean ====
section
/-! SUPPORT. The work that a core's matrix array has accepted: a piece is added, is dropped, takes effect when its turn comes
(R215, R339); accumulator tiles that are zeroed (R218). -/

namespace Sys2Proof

open Machine

/-! ### The troupe's core -/

section
variable {s : State} {tid : Nat}
theorem mxCore_modMx (s : State) (tid : Nat) (f : Core → Core) : (s.modMx tid f).mxCore tid = f (s.mxCore tid) :=
  (State.core_modCore ..).trans (if_pos ⟨rfl, rfl⟩)
theorem mxCore_modArr (s : State) (tid : Nat) (f : ArrayCfg → ArrayCfg) : (s.modArr tid f).mxCore tid = { s.mxCore tid with arr := f (s.mxCore tid).arr } :=
  mxCore_modMx ..
theorem items_modArr (s : State) (tid : Nat) (f : ArrayCfg → ArrayCfg) : ((s.modArr tid f).mxCore tid).items tid = (s.mxCore tid).items tid := by
  rw [mxCore_modArr]
  rfl
theorem mxCore_dropItem (s : State) (tid id : Nat) :
    (s.dropItem tid id).mxCore tid = { s.mxCore tid with mxq := (s.mxCore tid).mxq.filter (fun y => y.id != id) } := mxCore_modMx ..
theorem mxCore_addItem (s : State) (tid wid : Nat) (w : MxWork) (tiles : List Nat) :
    (s.addItem tid wid w tiles).mxCore tid = { s.mxCore tid with mxq := (s.mxCore tid).mxq ++ [⟨s.nextId, tid, wid, w, tiles⟩] } := mxCore_modMx ..
theorem items_addItem (s : State) (tid wid : Nat) (w : MxWork) (tiles : List Nat) :
    ((s.addItem tid wid w tiles).mxCore tid).items tid = (s.mxCore tid).items tid ++ [⟨s.nextId, tid, wid, w, tiles⟩] := by
  rw [mxCore_addItem]
  unfold Core.items
  rw [List.filter_append]
  simp
/-- The only piece of a troupe's work is dropped. -/
theorem items_dropItem {y : MxItem} (h : (s.mxCore tid).items tid = [y]) : ((s.dropItem tid y.id).mxCore tid).items tid = [] := by
  rw [mxCore_dropItem]
  unfold Core.items at h ⊢
  dsimp only
  rw [List.filter_filter, List.filter_eq_nil_iff]
  intro x hx hxy
  rw [Bool.and_eq_true, beq_iff_eq] at hxy
  have : x ∈ (s.mxCore tid).mxq.filter (fun y => y.tid == tid) := List.mem_filter.2 ⟨hx, by rw [beq_iff_eq]; exact hxy.1⟩
  rw [h, List.mem_singleton] at this
  rw [this, bne_self_eq_false] at hxy
  exact absurd hxy.2 (by decide)
/-- A troupe's core is that of its package and number, as an instruction of the troupe reads it. -/
theorem mxCore_cur (s : State) : s.mxCore s.curTid = s.core s.curPkg s.curTroupe.core := rfl
theorem mxCore_of_same {t : State} (hp : t.pkgs = s.pkgs) (ht : t.troupes = s.troupes) : t.mxCore tid = s.mxCore tid := by
  unfold State.mxCore State.core State.pkg State.troupe
  rw [hp, ht]
theorem mxCore_finish (s : State) (tid : Nat) : (finish s []).mxCore tid = s.mxCore tid := by
  rw [finish_nil]
  rfl

/-! ### Turns -/

/-- Whether work waits for the array is a matter of its kind alone. -/
theorem quickWork_none_of (s : State) {t : State} {tid' id id' : Nat} {w : MxWork} (h : quickWork t tid' id' w = none) : quickWork s tid id w = none := by
  cases w with
  | fill | stat | strm | drain => rfl
  | cfg | swap | zero | save | rest | mark => exact absurd h (Option.some_ne_none _)
/-- While the work at the head waits for the array, nothing takes effect. -/
theorem settleMx_waits {y : MxItem} (hy : (s.mxCore tid).head tid = some y) (hq : quickWork s tid y.id y.work = none) : s.settleMx tid = s := by
  unfold State.settleMx runQuick
  rw [hy]
  dsimp only
  rw [quickWork_none_of (s.dropItem tid y.id) hq]
/-- Without work nothing takes effect. -/
theorem runQuick_none (h : (s.mxCore tid).items tid = []) (f : Nat) : runQuick tid f s = s := by
  cases f with
  | zero => rfl
  | succ f =>
    unfold runQuick Core.head
    rw [h]
    rfl
theorem settleMx_none (h : (s.mxCore tid).items tid = []) : s.settleMx tid = s := runQuick_none h _
/-- The only work takes effect, and nothing else. -/
theorem settleMx_quick {y : MxItem} {t : State} (h : (s.mxCore tid).items tid = [y]) (hq : quickWork (s.dropItem tid y.id) tid y.id y.work = some t)
    (ht : (t.mxCore tid).items tid = []) : s.settleMx tid = t := by
  unfold State.settleMx runQuick Core.head
  rw [h, List.head?_cons]
  dsimp only
  rw [hq]
  exact runQuick_none ht _
/-- The only work is over. -/
theorem itemDone_only {y : MxItem} (h : (s.mxCore tid).items tid = [y]) : s.itemDone tid y.id = s.dropItem tid y.id := settleMx_none (items_dropItem h)
end

/-! ### Work is accepted (R215) -/

/-- The work at the head waits for the array. -/
def Busy (s : State) : Prop := ∃ y, (s.mxCore s.curTid).head s.curTid = some y ∧ quickWork s s.curTid y.id y.work = none
/-- Work that waits for the array when its turn has come. -/
def Slow (w : MxWork) : Prop := quickWork State.reset 0 0 w = none
/-- A path goes on with its work accepted, as the last of its core's. -/
def AcceptsWork (i : Instr) (s : State) (n : Nat) (work : MxWork) (f : Lane → Lane) : Prop :=
  After i s (fun t => t.mem = s.mem ∧ t.writes = s.writes ∧
    (∃ tiles, (t.core s.curPkg s.curTroupe.core).mxq = (s.core s.curPkg s.curTroupe.core).mxq ++ [⟨n, s.curTid, s.cur.wid, work, tiles⟩]) ∧
    LanesBecome s t (fun l x => goOn s l (f x)))
/-- A state that differs from the one an instruction began in by what its lanes are owed, and by its caches. -/
structure Ready (s u : State) (f : Lane → Lane) : Prop where
  mem : u.mem = s.mem
  writes : u.writes = s.writes
  cur : u.cur = s.cur
  troupes : u.troupes = s.troupes
  queue : (u.core s.curPkg s.curTroupe.core).mxq = (s.core s.curPkg s.curTroupe.core).mxq
  lanes : WaveBecomes s u id (fun _ x => f x)
theorem ready_refl (s : State) : Ready s s id := ⟨rfl, rfl, rfl, rfl, rfl, waveBecomes_refl s⟩
section
variable {s u : State} {f : Lane → Lane} (h : Ready s u f)
include h
theorem Ready.curTid : u.curTid = s.curTid := h.lanes.curTid h.cur
theorem Ready.curTroupe : u.curTroupe = s.curTroupe := by
  unfold State.curTroupe State.troupe
  rw [h.curTid, h.troupes]
theorem Ready.mxq : (u.mxCore u.curTid).mxq = (s.mxCore s.curTid).mxq := by
  rw [mxCore_cur, mxCore_cur, State.curPkg, h.curTroupe]
  exact h.queue
theorem Ready.items : (u.mxCore u.curTid).items u.curTid = (s.mxCore s.curTid).items s.curTid := by
  unfold Core.items
  rw [h.mxq, h.curTid]
/-- The work that now stands at the head waits for the array. -/
theorem Ready.settles {w : MxWork} (hb : Busy s ∨ ((s.mxCore s.curTid).items s.curTid = [] ∧ Slow w)) (tiles : List Nat) :
    (u.addItem u.curTid u.cur.wid w tiles).settleMx u.curTid = u.addItem u.curTid u.cur.wid w tiles := by
  rcases hb with ⟨y, hy, hq⟩ | ⟨hn, hw⟩
  · refine settleMx_waits (y := y) ?_ (quickWork_none_of _ hq)
    unfold Core.head at hy ⊢
    rw [items_addItem, h.items]
    exact List.head?_append_of_ne_nil _ (by intro hc; rw [hc] at hy; exact absurd hy (by simp)) |>.trans hy
  · refine settleMx_waits (y := ⟨u.nextId, u.curTid, u.cur.wid, w, tiles⟩) ?_ (quickWork_none_of _ hw)
    unfold Core.head
    rw [items_addItem, h.items, hn]
    rfl
theorem Ready.accepts {i : Instr} {w : MxWork} {tiles : List Nat} (hb : Busy s ∨ ((s.mxCore s.curTid).items s.curTid = [] ∧ Slow w))
    (hx : exec i s = .next (u.mxAccept w tiles)) : AcceptsWork i s u.nextId w f := by
  unfold State.mxAccept at hx
  rw [h.settles hb] at hx
  have hq := congrArg Core.mxq (mxCore_addItem u u.curTid u.cur.wid w tiles)
  dsimp only at hq
  rw [h.mxq, h.curTid, h.cur] at hq
  rw [h.curTid, h.cur] at hx
  refine ⟨_, hx, (mem_finish ..).trans h.mem, ?_, ⟨tiles, ?_⟩, ?_⟩
  · rw [finish_nil]
    exact h.writes
  · rw [finish_nil]
    refine Eq.trans ?_ hq
    show ((u.addItem s.curTid s.cur.wid w tiles).core _ _).mxq = _
    unfold State.mxCore State.troupe
    rw [show (u.addItem s.curTid s.cur.wid w tiles).troupes = s.troupes from h.troupes]
    rfl
  · exact ((h.lanes.of_waves (u := u.addItem s.curTid s.cur.wid w tiles) rfl).finish h.cur).lanesBecome
end

/-- Work that needs nothing but its turn, with none before it, takes effect at once. -/
theorem accept_quick {i : Instr} {s t : State} {w : MxWork} {tiles : List Nat} (hn : (s.mxCore s.curTid).items s.curTid = [])
    (hx : exec i s = .next (s.mxAccept w tiles))
    (hq : quickWork ((s.addItem s.curTid s.cur.wid w tiles).dropItem s.curTid s.nextId) s.curTid s.nextId w = some t)
    (ht : (t.mxCore s.curTid).items s.curTid = []) : exec i s = .next (finish t []) := by
  have hi := items_addItem s s.curTid s.cur.wid w tiles
  rw [hn] at hi
  rw [hx, State.mxAccept, settleMx_quick hi hq ht]
/-- The state in which work has had its turn: nothing but the queue has changed. -/
theorem turn_core (s : State) (tid wid : Nat) (w : MxWork) (tiles : List Nat) :
    (((s.addItem tid wid w tiles).dropItem tid s.nextId).mxCore tid).arr = (s.mxCore tid).arr := by
  rw [mxCore_dropItem, mxCore_addItem]
theorem turn_items {s : State} {tid : Nat} (hn : (s.mxCore tid).items tid = []) (wid : Nat) (w : MxWork) (tiles : List Nat) :
    (((s.addItem tid wid w tiles).dropItem tid s.nextId).mxCore tid).items tid = [] :=
  items_dropItem (y := ⟨s.nextId, tid, wid, w, tiles⟩) ((items_addItem ..).trans (by rw [hn]; rfl))

end Sys2Proof
end

