-- ==== Sys2Proof/Proofs/ArrayCommands.lean ====
section
/-! SUPPORT. The instructions of the matrix array (R215 to R224): what is accepted, what takes effect at once, what waits. -/

namespace Sys2Proof

open Machine

/-! ### What takes effect at once -/

/-- The planes after a swap. -/
theorem flook_swap {m : FMap Plane} (hm : m.Pairwise (fun x y => x.1 < y.1)) (act : FMap Plane) {sub : Nat} {p : Plane} (h : flook m sub = some p) :
    flook (m.foldl (fun a (e : Nat × Plane) => if e.2.valid then fput a e.1 e.2 else a) act) sub = if p.valid then some p else flook act sub := by
  have keep : ∀ (m : FMap Plane) (act : FMap Plane), (∀ e ∈ m, e.1 ≠ sub) →
      flook (m.foldl (fun a (e : Nat × Plane) => if e.2.valid then fput a e.1 e.2 else a) act) sub = flook act sub := by
    intro m
    induction m with
    | nil => exact fun _ _ => rfl
    | cons x m ih =>
      intro act hx
      refine (ih _ (fun e he => hx e (List.mem_cons_of_mem _ he))).trans ?_
      dsimp only
      split
      · exact (flook_fput ..).trans (if_neg (fun hs => hx x List.mem_cons_self hs.symm))
      · rfl
  induction m generalizing act with
  | nil => exact absurd h (by simp [flook])
  | cons x m ih =>
    obtain ⟨j, q⟩ := x
    rw [List.pairwise_cons] at hm
    by_cases hj : j = sub
    · subst hj
      have hq : q = p := by simpa [flook] using h
      subst hq
      refine (keep m _ (fun e he => Nat.ne_of_gt (hm.1 e he))).trans ?_
      dsimp only
      split
      · exact (flook_fput ..).trans (if_pos rfl)
      · rfl
    · refine (ih hm.2 _ (by simpa [flook, hj] using h)).trans ?_
      have hk : flook (if q.valid = true then fput act j q else act) sub = flook act sub := by
        split
        · exact (flook_fput ..).trans (if_neg (fun hs => hj hs.symm))
        · rfl
      dsimp only
      rw [hk]

/-- The byte of a tile stands behind its first one. -/
theorem accAt_tile (s : State) (tid i j : Nat) (hj : j < 4096) : s.accAt tid (i * 4096 + j) = s.accAt tid (i * 4096) + j := by
  unfold State.accAt accKey
  dsimp only
  rw [show (i * 4096 + j) / 4096 = i by omega, show (i * 4096 + j) % 4096 = j by omega, show i * 4096 / 4096 = i by omega, show i * 4096 % 4096 = 0 by omega, Nat.add_zero]
theorem accAt_of_troupes {s t : State} (h : t.troupes = s.troupes) (tid off : Nat) : t.accAt tid off = s.accAt tid off := by
  unfold State.accAt State.troupe
  rw [h]
/-- Tiles that are zeroed, one after the other. -/
def zeroedTiles (s : State) (tid tile : Nat) (l : List Nat) : State := l.foldl (fun s i => s.zeroRange (s.accAt tid ((tile + i) * 4096)) 4096) s
theorem zeroedTiles_memoryOnly (tid tile : Nat) (l : List Nat) (s : State) : MemoryOnly s (zeroedTiles s tid tile l) := by
  unfold zeroedTiles
  induction l generalizing s with
  | nil => exact .refl s
  | cons i l ih => exact (zeroRange_memoryOnly ..).trans (ih _)
theorem zeroedTiles_keeps {tid tile : Nat} (l : List Nat) {s : State} {a : Nat} (h : memGet s.mem a = 0) : memGet (zeroedTiles s tid tile l).mem a = 0 := by
  unfold zeroedTiles
  induction l generalizing s with
  | nil => exact h
  | cons i l ih =>
    refine ih ?_
    rw [memGet_zeroRange]
    split
    · rfl
    · exact h
theorem zeroedTiles_zero {tid tile : Nat} (l : List Nat) (s : State) {i j : Nat} (hi : i ∈ l) (hj : j < 4096) :
    memGet (zeroedTiles s tid tile l).mem (s.accAt tid ((tile + i) * 4096 + j)) = 0 := by
  induction l generalizing s with
  | nil => cases hi
  | cons x l ih =>
    have hm := zeroRange_memoryOnly s (s.accAt tid ((tile + x) * 4096)) 4096
    rcases List.mem_cons.1 hi with rfl | hi
    · refine zeroedTiles_keeps l ?_
      rw [memGet_zeroRange, accAt_tile _ _ _ _ hj, if_pos ⟨by omega, by omega⟩]
    · have h := ih (s.zeroRange (s.accAt tid ((tile + x) * 4096)) 4096) hi
      rw [accAt_of_troupes hm.troupes] at h
      exact h

/-- The pages of an image (R224). -/
def imagePages (b : List W32) : List W64 :=
  (if (bf b 2 13 13 == 1) = true then stepsOf (2 ^ 16) (bd b 0) 16384 else []) ++
    (if bf b 2 12 6 ≠ 0 then stepsOf (2 ^ 16) (tileVa (bd b 0)) (4096 * bf b 2 12 6) else [])

/-! ### The checks of an array instruction -/

section
variable {s : State} {m : Mods} {d a : Reg} {e : Nat} {c : ArrayCfg} (he : Elected s m e) (hacc : s.curTroupe.hdr.acc ≠ 0) (hp : s.predict s.curTid = some c)
include he hacc hp
theorem mxGo_goes {i : Instr} {n : Nat} {reserved : List W32 → Bool} {go : List W32 → ArrayCfg → State} (hr : reserved (s.block e a n) = false) :
    mxGo i s m n a reserved go = .next (go (s.block e a n) c) := by
  unfold mxGo
  rw [elected_eq he]
  dsimp only
  rw [hr, if_neg (by decide), if_neg hacc, hp]
/-- `mx.cfg` (R216). -/
theorem mxCfg_goes (hw : (bw (s.block e a 1) 0).toNat < 2 ^ 6) (hf : bf (s.block e a 1) 0 4 2 ≤ 4)
    (hs : (bf (s.block e a 1) 0 5 5 == 1) = true → bf (s.block e a 1) 0 4 2 ≠ 2 ∧ bf (s.block e a 1) 0 4 2 ≠ 3 ∧ (s.pkg s.curPkg).feat 4 = true)
    (h3 : bf (s.block e a 1) 0 4 2 = 4 → (s.pkg s.curPkg).feat 3 = true) :
    exec (.mxCfg m a) s = .next (s.mxAccept (.cfg (bf (s.block e a 1) 0 1 0) (bf (s.block e a 1) 0 4 2) (bf (s.block e a 1) 0 5 5 == 1)) []) := by
  refine (mxGo_goes he hacc hp ?_ : execMxCfg m a s = _)
  have h6 : bf (s.block e a 1) 0 31 6 = 0 := by rw [bf_top _ _ _ (by decide)]; omega
  dsimp only
  rw [h6, decide_eq_false (by omega : ¬ 4 < bf (s.block e a 1) 0 4 2)]
  generalize (bf (s.block e a 1) 0 5 5 == 1) = sp at hs
  cases sp with
  | false =>
    by_cases hf4 : bf (s.block e a 1) 0 4 2 = 4
    · rw [h3 hf4]
      simp
    · simp [hf4]
  | true =>
    obtain ⟨h2, h3', h4⟩ := hs rfl
    rw [h4]
    by_cases hf4 : bf (s.block e a 1) 0 4 2 = 4
    · rw [h3 hf4, hf4]
      simp
    · simp [hf4, h2, h3']
/-- `mx.stat` (R219). -/
theorem mxStat_goes {w : Window} (h0 : bf (s.block e a 2) 0 31 6 = 0) (hw : flook s.curTroupe.windows (bf (s.block e a 2) 0 3 0) = some w)
    (hf : c.fuse ≠ 0 → bf (s.block e a 2) 0 5 4 = 0) (hk : bf (s.block e a 2) 1 15 0 % c.shape.1 = 0) (hke : bf (s.block e a 2) 1 15 0 < w.kext)
    (hx : bf (s.block e a 2) 1 31 16 < w.xext) (hm : fmtMatches c.fmt w.fmt = true) (hs : w.sp = c.sp) :
    exec (.mxStat m a) s = .next (s.mxAccept (.stat (bf (s.block e a 2) 0 5 4) (bf (s.block e a 2) 0 3 0) (bf (s.block e a 2) 1 15 0)
      (bf (s.block e a 2) 1 31 16)) []) := by
  refine (mxGo_goes he hacc hp ?_ : execMxStat m a s = _).trans ?_
  · rw [h0]
    rfl
  · dsimp only
    rw [show s.window? s.curTid (bf (s.block e a 2) 0 3 0) = some w from hw]
    dsimp only
    rw [if_neg]
    rintro (⟨h1, h2⟩ | h | h | h | h | h)
    · exact h2 (hf h1)
    · exact h hk
    · omega
    · omega
    · rw [hm] at h
      exact absurd h (by decide)
    · exact h hs
/-- `mx.swap` (R220). -/
theorem mxSwap_goes (h : c.canSwap = true) : exec (.mxSwap m) s = .next (s.mxAccept .swap []) := by
  refine (mxGo_goes he hacc hp rfl : execMxSwap m s = _).trans ?_
  rw [if_pos h]
theorem mxSwap_refuses (h : c.canSwap = false) : exec (.mxSwap m) s = .next (refuse s m .state) := by
  refine (mxGo_goes he hacc hp rfl : execMxSwap m s = _).trans ?_
  rw [if_neg (by rw [h]; decide)]
/-- `mx.strm` (R221). -/
theorem mxStrm_goes {w : Window} (h0 : bf (s.block e a 2) 0 31 20 = 0) (hw : flook s.curTroupe.windows (bf (s.block e a 2) 0 3 0) = some w)
    (hf : c.fuse ≠ 0 → bf (s.block e a 2) 0 5 4 = 0) (hx : bf (s.block e a 2) 1 31 16 + (bf (s.block e a 2) 0 13 6 + 1) ≤ w.xext)
    (hv : (fget Plane.init c.active (bf (s.block e a 2) 0 5 4)).valid = true) (hm : fmtMatches c.fmt w.fmt = true)
    (hb : w.blk = (fget Plane.init c.active (bf (s.block e a 2) 0 5 4)).win.blk)
    (hs : (fget Plane.init c.active (bf (s.block e a 2) 0 5 4)).win.sp = false → w.pen = (fget Plane.init c.active (bf (s.block e a 2) 0 5 4)).win.pen ∧
      w.ptid = (fget Plane.init c.active (bf (s.block e a 2) 0 5 4)).win.ptid)
    (hk : c.fmt = 4 → bf (s.block e a 2) 1 15 0 % w.blk = (fget Plane.init c.active (bf (s.block e a 2) 0 5 4)).koff % w.blk)
    (ht : bf (s.block e a 2) 0 19 14 + ((bf (s.block e a 2) 0 13 6 + 1) * c.shape.2 - 1) * c.elem / 4096 < s.curTroupe.hdr.acc) :
    exec (.mxStrm m a) s = .next (s.mxAccept (.strm (bf (s.block e a 2) 0 19 14) (bf (s.block e a 2) 0 13 6 + 1) (bf (s.block e a 2) 0 5 4)
      (bf (s.block e a 2) 0 3 0) (bf (s.block e a 2) 1 31 16) (bf (s.block e a 2) 1 15 0)) []) := by
  refine (mxGo_goes he hacc hp ?_ : execMxStrm m a s = _).trans ?_
  · rw [h0]
    rfl
  · dsimp only
    rw [show s.window? s.curTid (bf (s.block e a 2) 0 3 0) = some w from hw]
    dsimp only
    rw [if_neg, hv, if_neg (by decide), if_neg, if_neg (by omega)]
    · rintro (h | h | ⟨h1, h2⟩ | ⟨h1, h2⟩)
      · rw [hm] at h
        exact absurd h (by decide)
      · exact h hb
      · rw [Bool.not_eq_true'] at h1
        exact h2.elim (fun h => h (hs h1).1) (fun h => h (hs h1).2)
      · exact h2 (hk h1)
    · rintro (⟨h1, h2⟩ | h)
      · exact h2 (hf h1)
      · omega
/-- `mx.drain` to registers (R222). -/
theorem mxDrain_goes (h0 : bf (s.block e a 3) 0 31 16 = 0) (h1 : bf (s.block e a 3) 0 13 6 = 1) (ho : bf (s.block e a 3) 0 15 14 ≠ 3)
    (hw : (bw (s.block e a 3) 1).toNat + 31 < 4096 / c.elem) (ht : bf (s.block e a 3) 0 5 0 + 1 ≤ s.curTroupe.hdr.acc) :
    exec (.mxDrain m d a) s = .next ((oweAll s m false d 1).1.mxAccept (.drain s.cur.wid (maskOf (s.activeLanes m)) (bf (s.block e a 3) 0 15 14) false 1
      (bf (s.block e a 3) 0 5 0) (bw (s.block e a 3) 1) (bw (s.block e a 3) 2) d s.nextId) []) := by
  have hn : bf (s.block e a 3) 0 12 6 = 1 ∧ bf (s.block e a 3) 0 13 13 = 0 := by
    unfold bf nbits at h1 ⊢
    generalize (bw (s.block e a 3) 0).toNat = w at h1 ⊢
    rw [Nat.shiftRight_eq_div_pow] at h1 ⊢
    rw [Nat.shiftRight_eq_div_pow]
    omega
  refine (mxGo_goes he hacc hp ?_ : execMxDrain m d a s = _).trans ?_
  · rw [h0, hn.1, hn.2]
    rfl
  · rw [hn.1, hn.2, if_neg, if_neg (by omega), if_neg, if_neg (by decide), if_neg ho]
    · rfl
    · rintro ⟨-, h, -⟩
      exact ho h
    · rintro (⟨h, -⟩ | ⟨-, h⟩)
      · exact ho h
      · omega
/-- `mx.zero` (R218). -/
theorem mxZero_goes (h0 : bf (s.block e a 1) 0 31 13 = 0) (h1 : 1 ≤ bf (s.block e a 1) 0 12 6) (h2 : bf (s.block e a 1) 0 12 6 ≤ 64)
    (ht : bf (s.block e a 1) 0 5 0 + bf (s.block e a 1) 0 12 6 ≤ s.curTroupe.hdr.acc) :
    exec (.mxZero m a) s = .next (s.mxAccept (.zero (bf (s.block e a 1) 0 5 0) (bf (s.block e a 1) 0 12 6)) []) := by
  refine (mxGo_goes he hacc hp ?_ : execMxZero m a s = _).trans ?_
  · rw [h0, decide_eq_false (by omega : ¬ 64 < bf (s.block e a 1) 0 12 6), Bool.or_false, beq_eq_false_iff_ne.2 (by omega : bf (s.block e a 1) 0 12 6 ≠ 0)]
    rfl
  · rw [if_neg (by omega)]
/-- `mx.save` and `mx.rest` (R224). -/
theorem image_goes {i : Instr} {kd : AccKind} {work : W64 → Nat → Nat → Bool → MxWork} (hi : exec i s = imageGo i s m a kd work)
    (h0 : bf (s.block e a 3) 2 31 14 = 0) (h1 : bf (s.block e a 3) 2 12 6 ≤ 64)
    (ht : bf (s.block e a 3) 2 5 0 + bf (s.block e a 3) 2 12 6 ≤ s.curTroupe.hdr.acc)
    (hb : s.imageBad kd (bd (s.block e a 3) 0) (bf (s.block e a 3) 2 12 6) (bf (s.block e a 3) 2 13 13 == 1) = none) :
    (s.walkWait .g (imagePages (s.block e a 3)) = true → exec i s = .next (waitAt (s.missed .g (imagePages (s.block e a 3))) i)) ∧
    (s.walkWait .g (imagePages (s.block e a 3)) = false → ∃ tiles, exec i s = .next ((s.walked .g (imagePages (s.block e a 3))).mxAccept
      (work (bd (s.block e a 3) 0) (bf (s.block e a 3) 2 5 0) (bf (s.block e a 3) 2 12 6) (bf (s.block e a 3) 2 13 13 == 1)) tiles)) := by
  have hx : exec i s = .next (if s.walkWait .g (imagePages (s.block e a 3)) then waitAt (s.missed .g (imagePages (s.block e a 3))) i
      else (s.walked .g (imagePages (s.block e a 3))).mxAccept (work (bd (s.block e a 3) 0) (bf (s.block e a 3) 2 5 0) (bf (s.block e a 3) 2 12 6)
        (bf (s.block e a 3) 2 13 13 == 1)) ((if (bf (s.block e a 3) 2 13 13 == 1) = true then s.unitsOf .g kd (bd (s.block e a 3) 0) 16384 else []) ++
          (if bf (s.block e a 3) 2 12 6 ≠ 0 then s.unitsOf .g kd (tileVa (bd (s.block e a 3) 0)) (4096 * bf (s.block e a 3) 2 12 6) else []))) := by
    rw [hi]
    refine (mxGo_goes he hacc hp ?_).trans ?_
    · rw [h0, decide_eq_false (by omega : ¬ 64 < bf (s.block e a 3) 2 12 6)]
      rfl
    · dsimp only
      rw [if_neg (fun h => absurd h.2 (by omega)), hb]
      rfl
  refine ⟨fun hw => ?_, fun hw => ?_⟩
  · rw [hx, if_pos hw]
  · rw [if_neg (by rw [hw]; decide)] at hx
    exact ⟨_, hx⟩
end

/-! ### The work that takes effect at once -/

section
variable {s : State} {m : Mods} {a : Reg} {i : Instr} (hn : (s.mxCore s.curTid).items s.curTid = [])
include hn
/-- A change of the array's state alone. -/
theorem accept_modArr {w : MxWork} {f : ArrayCfg → ArrayCfg} (hx : exec i s = .next (s.mxAccept w [])) (hw : ∀ u tid id, quickWork u tid id w = some (u.modArr tid f)) :
    After i s (fun t => GoesOn s t ∧ t.mem = s.mem ∧ (t.mxCore s.curTid).arr = f (s.mxCore s.curTid).arr) := by
  have ht : (((s.addItem s.curTid s.cur.wid w []).dropItem s.curTid s.nextId).modArr s.curTid f |>.mxCore s.curTid).items s.curTid = [] := by
    rw [items_modArr]
    exact turn_items hn ..
  refine ⟨_, accept_quick hn hx (hw ..) ht, finish_goesOn_same rfl rfl, mem_finish .., ?_⟩
  rw [mxCore_finish, mxCore_modArr]
  exact congrArg f (turn_core ..)
theorem mxZero_now {tile count : Nat} (hx : exec i s = .next (s.mxAccept (.zero tile count) [])) :
    After i s (fun t => GoesOn s t ∧ t.writes = s.writes ∧
      (∀ i, i < count → ∀ j, j < 4096 → memGet t.mem (s.accAt s.curTid ((tile + i) * 4096 + j)) = 0) ∧
      ∀ i, tile ≤ i → i < tile + count → fget 0 (t.mxCore s.curTid).arr.flags i = 0) := by
  have hm := zeroedTiles_memoryOnly s.curTid tile (List.range count) ((s.addItem s.curTid s.cur.wid (.zero tile count) []).dropItem s.curTid s.nextId)
  have hz := fun i j (hi : i < count) (hj : j < 4096) => zeroedTiles_zero (List.range count)
    ((s.addItem s.curTid s.cur.wid (.zero tile count) []).dropItem s.curTid s.nextId) (tid := s.curTid) (tile := tile) (List.mem_range.2 hi) hj
  have hc : (zeroedTiles ((s.addItem s.curTid s.cur.wid (.zero tile count) []).dropItem s.curTid s.nextId) s.curTid tile (List.range count)).mxCore s.curTid =
      ((s.addItem s.curTid s.cur.wid (.zero tile count) []).dropItem s.curTid s.nextId).mxCore s.curTid := by
    unfold State.mxCore State.troupe
    rw [hm.troupes, hm.core]
  refine ⟨_, accept_quick hn hx rfl ?_, finish_goesOn_same hm.waves hm.cur, ?_, fun i hi j hj => ?_, fun i h1 h2 => ?_⟩
  · refine (items_modArr ..).trans ?_
    refine Eq.trans (congrArg (fun c : Core => c.items s.curTid) hc) (turn_items hn ..)
  · rw [finish_nil]
    exact hm.writes
  · rw [mem_finish]
    exact hz i j hi hj
  · rw [mxCore_finish]
    unfold State.zeroTiles
    rw [mxCore_modArr]
    dsimp only
    rw [fget_filter 0 _ (fun x => !(decide (tile ≤ x) && decide (x < tile + count))), decide_eq_true h1, decide_eq_true h2]
    rfl
end

/-! ### `mx.wait` (R217, R223) -/

/-- The lanes of the path have taken their place behind the work of their troupe. -/
def marked (s : State) : State :=
  (s.modMx s.curTid (fun c => { c with mxq := c.mxq.filter (fun y => match y.work with
    | .mark w ls => !(w == s.cur.wid && ls &&& s.cur.lanes != 0)
    | _ => true) })).addItem s.curTid s.cur.wid (.mark s.cur.wid s.cur.lanes) []
theorem marked_queue (s : State) :
    ⟨s.nextId, s.curTid, s.cur.wid, .mark s.cur.wid s.cur.lanes, []⟩ ∈ ((marked s).core s.curPkg s.curTroupe.core).mxq := by
  have h : ((marked s).mxCore s.curTid).mxq = _ := congrArg Core.mxq (mxCore_addItem ..)
  show _ ∈ ((marked s).mxCore s.curTid).mxq
  rw [h]
  exact List.mem_append_right _ (List.mem_singleton_self _)

section
variable {s : State} {m : Mods} {e : Nat}
theorem mxWait_goes (h : s.cur.past = true ∨ (s.mxCore s.curTid).items s.curTid = []) : exec (.mxWait m) s = .next (finish s []) := by
  show execMxWait m s = _
  unfold execMxWait
  rw [if_pos]
  rcases h with h | h
  · rw [h, Bool.or_true, Bool.true_or]
  · rw [h]
    exact Bool.or_true _
theorem mxWait_waits (he : Elected s m e) (hp : s.cur.past = false) (h : (s.mxCore s.curTid).items s.curTid ≠ []) :
    After (.mxWait m) s (fun t => t.mem = s.mem ∧ PathWaits (.mxWait m) s t ∧
      ∃ y ∈ (t.core s.curPkg s.curTroupe.core).mxq, y.tid = s.curTid ∧ y.work = .mark s.cur.wid s.cur.lanes) := by
  have hx : exec (.mxWait m) s = .next (waitAt (marked s) (.mxWait m)) := by
    show execMxWait m s = _
    unfold execMxWait
    rw [if_neg]
    · rfl
    · rw [hp, someActive_eq_true.2 ⟨e, he.1⟩, List.isEmpty_eq_false_iff.2 h]
      decide
  obtain ⟨hf, hw⟩ := waitAt_waits (marked s) (.mxWait m)
  refine ⟨_, hx, ?_, ⟨hw.waves, hw.rest, hw.lanes⟩, ?_⟩
  · rw [hf]
    rfl
  · rw [hf]
    exact ⟨_, marked_queue s, rfl, rfl⟩
end

/-! ### The instructions as R215 to R224 give them -/

theorem walked_nextId (s : State) (vas : List W64) : (s.walked .g vas).nextId = s.nextId := by rw [(walked_translated s .g vas).frame]
theorem ready_walked (s : State) (vas : List W64) : Ready s (s.walked .g vas) id := by
  have h := walked_translated s .g vas
  exact ⟨h.mem, by rw [h.frame], h.cur, by rw [h.frame], by rw [h.core], (waveBecomes_refl s).of_waves h.waves⟩

section
variable {s : State} {m : Mods} {d a : Reg} {e : Nat} {c : ArrayCfg}
theorem predict_now (hp : s.predict s.curTid = some c) (hn : (s.mxCore s.curTid).items s.curTid = []) : c = (s.mxCore s.curTid).arr := by
  unfold State.predict at hp
  rw [hn] at hp
  exact (Option.some.inj hp).symm
theorem ready_oweAll (s : State) (m : Mods) (d : Reg) : Ready s (oweAll s m false d 1).1 (owes m false s.nextId (regs1 d)) := by
  rw [← dstRegs_one]
  exact ⟨rfl, rfl, rfl, rfl, rfl, (waveBecomes_refl s).oweAll rfl m false d 1⟩
theorem mxSwap_now (he : Elected s m e) (hacc : s.curTroupe.hdr.acc ≠ 0) (hp : s.predict s.curTid = some c) (hn : (s.mxCore s.curTid).items s.curTid = []) (hs : c.canSwap = true) :
    After (.mxSwap m) s (fun t => GoesOn s t ∧ t.mem = s.mem ∧ (t.mxCore s.curTid).arr.shadow = [] ∧
      ∀ sub p, flook c.shadow sub = some p → c.shadow.Pairwise (fun x y => x.1 < y.1) →
        flook (t.mxCore s.curTid).arr.active sub = if p.valid then some p else flook c.active sub) := by
  obtain ⟨t, hx, hg, hmem, harr⟩ := accept_modArr (f := ArrayCfg.swap) hn (mxSwap_goes he hacc hp hs) (fun _ _ _ => rfl)
  rw [← predict_now hp hn] at harr
  refine ⟨t, hx, hg, hmem, by rw [harr]; rfl, fun sub p h1 h2 => ?_⟩
  rw [harr]
  exact flook_swap h2 c.active h1
end

end Sys2Proof
end

