-- ==== Sys2Proof/Proofs/MatrixCommands.lean ====
section
/-! SUPPORT. The instructions of the matrix array, as one statement (R215 to R224). -/

namespace Sys2Proof

open Machine

theorem arrayCommands : Claims.ArrayCommands := by
  intro s m d a e c he hacc hp
  dsimp only
  refine ⟨fun hw hf hs h3 => ⟨fun hb => ?_, fun hn => ?_⟩, fun w h0 hw hf hk hke hx hm hs hb => ?_, fun hs => ⟨fun hb => ?_, fun hn => ?_⟩, fun hs ha => ?_,
    fun w h0 hw hf hx hv hm hb hs hk ht hbn => ?_, fun h0 h1 ho hw ht hb => ?_, fun h0 h1 h2 ht => ⟨fun hb => ?_, fun hn => ?_⟩,
    fun h0 h1 ht hb => ⟨fun hw => ⟨fun hi => ?_, fun hi => ?_⟩, fun hw => ⟨fun hi => ?_, fun hi => ?_⟩⟩, fun h => ?_, fun h1 h2 => ?_⟩
  · exact (ready_refl s).accepts (.inl hb) (mxCfg_goes he hacc hp hw hf hs h3)
  · exact accept_modArr hn (mxCfg_goes he hacc hp hw hf hs h3) (fun _ _ _ => rfl)
  · exact (ready_refl s).accepts (hb.imp id (fun hn => ⟨hn, rfl⟩)) (mxStat_goes he hacc hp h0 hw hf hk hke hx hm hs)
  · exact (ready_refl s).accepts (.inl hb) (mxSwap_goes he hacc hp hs)
  · exact mxSwap_now he hacc hp hn hs
  · exact refused (sub := .state) he ha (mxSwap_refuses he hacc hp hs)
  · exact (ready_refl s).accepts (hbn.imp id (fun hn => ⟨hn, rfl⟩)) (mxStrm_goes he hacc hp h0 hw hf hx hv hm hb hs hk ht)
  · exact (ready_oweAll s m d).accepts (hb.imp id (fun hn => ⟨hn, rfl⟩)) (mxDrain_goes he hacc hp h0 h1 ho hw ht)
  · exact (ready_refl s).accepts (.inl hb) (mxZero_goes he hacc hp h0 h1 h2 ht)
  · exact mxZero_now hn (mxZero_goes he hacc hp h0 h1 h2 ht)
  · exact ⟨_, (image_goes (i := .mxSave m a) (work := .save) he hacc hp rfl h0 h1 ht hi).1 hw, waitAt_walks hw⟩
  · exact ⟨_, (image_goes (i := .mxRest m a) (work := .rest) he hacc hp rfl h0 h1 ht hi).1 hw, waitAt_walks hw⟩
  · obtain ⟨_, hx⟩ := (image_goes (i := .mxSave m a) (work := .save) he hacc hp rfl h0 h1 ht hi).2 hw
    have h := (ready_walked s _).accepts (.inl hb) hx
    rwa [walked_nextId] at h
  · obtain ⟨_, hx⟩ := (image_goes (i := .mxRest m a) (work := .rest) he hacc hp rfl h0 h1 ht hi).2 hw
    have h := (ready_walked s _).accepts (.inl hb) hx
    rwa [walked_nextId] at h
  · refine ⟨_, mxWait_goes h, ?_, finish_goesOn_same rfl rfl⟩
    rw [finish_nil]
    rfl
  · exact mxWait_waits he h1 h2

end Sys2Proof
end

