-- ==== Sys2Proof/Proofs/AccumulatorTiles.lean ====
section
/-! SUPPORT. The elements of a troupe's accumulator tiles (R39, R218): what is written into one is read from it, and from no
other; a pass over them works on each as it was before the pass. -/

namespace Sys2Proof

open Machine

/-! ### Where the bytes of the tiles stand -/

/-- Tiles of a core, each held once. -/
def TilesOf (accs : List Nat) : Prop := accs.Nodup ∧ ∀ p ∈ accs, p < 64
/-- Bytes of the logical tiles, in one of them. -/
def InTile (accs : List Nat) (off n : Nat) : Prop := off % 4096 + n ≤ 4096 ∧ off + n ≤ accs.length * 4096
/-- Two ranges that share no byte. -/
def Apart (a n b k : Nat) : Prop := a + n ≤ b ∨ b + k ≤ a
theorem Apart.symm {a n b k : Nat} (h : Apart a n b k) : Apart b k a n := Or.symm h
theorem Apart.part {a n b k c j : Nat} (h : Apart a n b k) (h1 : a ≤ c) (h2 : c + j ≤ a + n) : Apart c j b k := by
  unfold Apart at h ⊢
  omega
theorem InTile.part {accs : List Nat} {a n c j : Nat} (h : InTile accs a n) (h1 : a ≤ c) (h2 : c + j ≤ a + n) : InTile accs c j := by
  unfold InTile at h ⊢
  by_cases hj : j = 0
  · subst hj
    omega
  · omega
/-- An element of 4 or 8 bytes lies in one tile. -/
theorem inTile_of_dvd {accs : List Nat} {off n : Nat} (hn : n = 4 ∨ n = 8) (h : off % n = 0) (hl : off + n ≤ accs.length * 4096) : InTile accs off n := by
  unfold InTile
  rcases hn with rfl | rfl <;> omega

section
variable {s : State} {tid : Nat}
theorem accAt_add {off j : Nat} (h : off % 4096 + j < 4096) : s.accAt tid (off + j) = s.accAt tid off + j := by
  unfold State.accAt accKey
  dsimp only
  rw [show (off + j) / 4096 = off / 4096 by omega, show (off + j) % 4096 = off % 4096 + j by omega]
  omega
theorem accAt_inj (hT : TilesOf (s.troupe tid).accs) {a b : Nat} (ha : a < (s.troupe tid).accs.length * 4096) (hb : b < (s.troupe tid).accs.length * 4096)
    (h : s.accAt tid a = s.accAt tid b) : a = b := by
  obtain ⟨hnd, hlt⟩ := hT
  unfold State.accAt accKey at h
  dsimp only at h
  generalize (s.troupe tid).accs = accs at *
  have hia : a / 4096 < accs.length := by omega
  have hib : b / 4096 < accs.length := by omega
  rw [List.getD_eq_getElem _ _ hia, List.getD_eq_getElem _ _ hib] at h
  have hpa := hlt _ (List.getElem_mem hia)
  have hpb := hlt _ (List.getElem_mem hib)
  have he : accs[a / 4096] = accs[b / 4096] := by omega
  have := (List.Nodup.getElem_inj_iff hnd).1 he
  rw [he] at h
  omega
/-- A write into an element leaves the other elements as they are. -/
theorem accNum_setAcc_other (hT : TilesOf (s.troupe tid).accs) {a n off k v : Nat} (ha : InTile (s.troupe tid).accs a n) (ho : InTile (s.troupe tid).accs off k)
    (hd : Apart a n off k) : (s.setAcc tid a n v).accNum tid off k = s.accNum tid off k := by
  refine congrArg leNat (memGets_congr fun b h1 h2 => memGet_memPuts_ne _ _ _ _ ?_)
  rw [leBytes_length]
  by_contra hb
  have hb' : s.accAt tid a ≤ b ∧ b < s.accAt tid a + n := by omega
  have h2' : b < s.accAt tid off + k := h2
  have h1' : s.accAt tid off ≤ b := h1
  obtain ⟨hb1, hb2⟩ := hb'
  unfold InTile at ha ho
  unfold Apart at hd
  have e1 : s.accAt tid (a + (b - s.accAt tid a)) = b := by rw [accAt_add (by omega)]; omega
  have e2 : s.accAt tid (off + (b - s.accAt tid off)) = b := by rw [accAt_add (by omega)]; omega
  have := accAt_inj hT (by omega) (by omega) (e1.trans e2.symm)
  omega
theorem accNum_setAcc_self (a n v : Nat) : (s.setAcc tid a n v).accNum tid a n = v % 256 ^ n := by
  refine Eq.trans (congrArg leNat ?_) (leNat_leBytes n v)
  have h := memGets_memPuts s.mem (s.accAt tid a) (leBytes n v)
  rw [leBytes_length] at h
  exact h
theorem accNum_lt (s : State) (tid off n : Nat) : s.accNum tid off n < 256 ^ n := leNat_lt_of_length (memGets_length ..).le
theorem accNum_of_mem {t : State} (hm : t.mem = s.mem) (ht : t.troupes = s.troupes) (off n : Nat) : t.accNum tid off n = s.accNum tid off n := by
  unfold State.accNum State.load
  rw [hm, accAt_of_troupes ht]
theorem setAcc_memoryOnly (s : State) (tid a n v : Nat) : MemoryOnly s (s.setAcc tid a n v) := store_memoryOnly ..
end

/-! ### A pass over the tiles -/

/-- Nothing of a troupe's array has changed but its accumulators, their flags and the products kept for open triples. -/
structure Reworked (tid : Nat) (s t : State) : Prop where
  troupes : t.troupes = s.troupes
  waves : t.waves = s.waves
  writes : t.writes = s.writes
  items : (t.mxCore tid).items tid = (s.mxCore tid).items tid
  arr : (t.mxCore tid).arr = { (s.mxCore tid).arr with flags := (t.mxCore tid).arr.flags, kept := (t.mxCore tid).arr.kept }
/-- What an element of `w` bytes holds, and the product kept for it, are as they were. -/
structure SameElem (tid off w : Nat) (s t : State) : Prop where
  num : ∀ a n, off ≤ a → a + n ≤ off + w → t.accNum tid a n = s.accNum tid a n
  kept : flook (t.mxCore tid).arr.kept (off / 8) = flook (s.mxCore tid).arr.kept (off / 8)
theorem Reworked.refl (tid : Nat) (s : State) : Reworked tid s s := ⟨rfl, rfl, rfl, rfl, rfl⟩
theorem Reworked.trans {tid : Nat} {s t u : State} (h : Reworked tid s t) (h' : Reworked tid t u) : Reworked tid s u :=
  ⟨h'.troupes.trans h.troupes, h'.waves.trans h.waves, h'.writes.trans h.writes, h'.items.trans h.items, by rw [h'.arr, h.arr]⟩
theorem Reworked.fmt {tid : Nat} {s t : State} (h : Reworked tid s t) : (t.mxCore tid).arr.fmt = (s.mxCore tid).arr.fmt := by rw [h.arr]
theorem Reworked.elem {tid : Nat} {s t : State} (h : Reworked tid s t) : (t.mxCore tid).arr.elem = (s.mxCore tid).arr.elem := by
  unfold ArrayCfg.elem
  rw [h.fmt]
theorem Reworked.troupe {tid : Nat} {s t : State} (h : Reworked tid s t) (j : Nat) : t.troupe j = s.troupe j := by
  unfold State.troupe
  rw [h.troupes]
theorem SameElem.refl (tid off w : Nat) (s : State) : SameElem tid off w s s := ⟨fun _ _ _ _ => rfl, rfl⟩
theorem SameElem.trans {tid off w : Nat} {s t u : State} (h : SameElem tid off w s t) (h' : SameElem tid off w t u) : SameElem tid off w s u :=
  ⟨fun a n h1 h2 => (h'.num a n h1 h2).trans (h.num a n h1 h2), h'.kept.trans h.kept⟩
theorem mxCore_setAcc (s : State) (tid a n v : Nat) : (s.setAcc tid a n v).mxCore tid = s.mxCore tid := by
  unfold State.mxCore State.troupe
  rw [(setAcc_memoryOnly s tid a n v).troupes, (setAcc_memoryOnly s tid a n v).core]
theorem setAcc_reworked (s : State) (tid a n v : Nat) : Reworked tid s (s.setAcc tid a n v) := by
  have h := setAcc_memoryOnly s tid a n v
  refine ⟨h.troupes, h.waves, h.writes, ?_, ?_⟩
  · rw [mxCore_setAcc]
  · rw [mxCore_setAcc]
theorem modArr_reworked (s : State) (tid : Nat) {f : ArrayCfg → ArrayCfg} (hf : ∀ a, f a = { a with flags := (f a).flags, kept := (f a).kept }) :
    Reworked tid s (s.modArr tid f) := by
  refine ⟨rfl, rfl, rfl, items_modArr .., ?_⟩
  rw [mxCore_modArr]
  exact hf _
theorem setAcc_sameElem {s : State} {tid a n off w v : Nat} (hT : TilesOf (s.troupe tid).accs) (ha : InTile (s.troupe tid).accs a n)
    (ho : InTile (s.troupe tid).accs off w) (hd : Apart a n off w) : SameElem tid off w s (s.setAcc tid a n v) :=
  ⟨fun _ _ h1 h2 => accNum_setAcc_other hT ha (ho.part h1 h2) (hd.symm.part h1 h2).symm, by rw [mxCore_setAcc]⟩
theorem accNum_modArr (s : State) (tid : Nat) (f : ArrayCfg → ArrayCfg) (off n : Nat) : (s.modArr tid f).accNum tid off n = s.accNum tid off n :=
  accNum_of_mem rfl rfl off n
theorem modArr_sameElem {s : State} {tid off w : Nat} {f : ArrayCfg → ArrayCfg} (hf : ∀ a : ArrayCfg, flook (f a).kept (off / 8) = flook a.kept (off / 8)) :
    SameElem tid off w s (s.modArr tid f) :=
  ⟨fun a n _ _ => accNum_modArr s tid f a n, by rw [mxCore_modArr]; exact hf _⟩
/-- A pass works on each of its elements as it was before the pass, and what it makes of it stays. -/
theorem fold_elements {β : Type} {tid w : Nat} (pos : β → Nat) (step : State → β → State) (l : List β) (s : State)
    (hl : l.Pairwise (fun b c => Apart (pos b) w (pos c) w))
    (hstep : ∀ u, Reworked tid s u → ∀ b ∈ l, Reworked tid u (step u b) ∧ ∀ c ∈ l, Apart (pos b) w (pos c) w → SameElem tid (pos c) w u (step u b)) :
    Reworked tid s (l.foldl step s) ∧
    ∀ b ∈ l, ∃ u, Reworked tid s u ∧ SameElem tid (pos b) w s u ∧ SameElem tid (pos b) w (step u b) (l.foldl step s) := by
  have keep : ∀ (l : List β) (s : State) (off : Nat), (∀ u, Reworked tid s u → ∀ b ∈ l, Reworked tid u (step u b) ∧ SameElem tid off w u (step u b)) →
      SameElem tid off w s (l.foldl step s) := by
    intro l
    induction l with
    | nil => exact fun s off _ => .refl ..
    | cons b l ih =>
      intro s off h
      obtain ⟨h1, h2⟩ := h s (.refl ..) b List.mem_cons_self
      exact h2.trans (ih _ off (fun u hu c hc => h u (h1.trans hu) c (List.mem_cons_of_mem _ hc)))
  induction l generalizing s with
  | nil => exact ⟨.refl .., fun _ hb => absurd hb List.not_mem_nil⟩
  | cons x l ih =>
    rw [List.pairwise_cons] at hl
    obtain ⟨hx, hsame⟩ := hstep s (.refl ..) x List.mem_cons_self
    have hrest : ∀ u, Reworked tid (step s x) u → ∀ b ∈ l, Reworked tid u (step u b) ∧
        ∀ c ∈ x :: l, Apart (pos b) w (pos c) w → SameElem tid (pos c) w u (step u b) :=
      fun u hu b hb => hstep u (hx.trans hu) b (List.mem_cons_of_mem _ hb)
    obtain ⟨hr, he⟩ := ih (step s x) hl.2 (fun u hu b hb => ⟨(hrest u hu b hb).1, fun c hc => (hrest u hu b hb).2 c (List.mem_cons_of_mem _ hc)⟩)
    refine ⟨hx.trans hr, fun b hb => ?_⟩
    rcases List.mem_cons.1 hb with rfl | hb
    · exact ⟨s, .refl .., .refl .., keep l _ _ (fun u hu c hc => ⟨(hrest u hu c hc).1, (hrest u hu c hc).2 b List.mem_cons_self (hl.1 c hc).symm⟩)⟩
    · obtain ⟨u, h1, h2, h3⟩ := he b hb
      exact ⟨u, hx.trans h1, (hsame b (List.mem_cons_of_mem _ hb) (hl.1 b hb)).trans h2, h3⟩

/-! ### The elements of a stream's tiles -/

theorem elem_cases (a : ArrayCfg) : a.elem = 4 ∨ a.elem = 8 := by
  unfold ArrayCfg.elem
  split
  · exact .inl rfl
  · exact .inr rfl
theorem elem_codes {a : ArrayCfg} (h : a.fmt = 4) : a.elem = 8 := by
  unfold ArrayCfg.elem
  rw [h]
  rfl

/-- The rows and columns of a stream. -/
def streamCells (m n : Nat) : List (Nat × Nat) := (List.range m).flatMap (fun i => (List.range n).map (fun j => (i, j)))
/-- Where an element of a stream's tiles stands. -/
def cellAt (acc cols w : Nat) (e : Nat × Nat) : Nat := acc * 4096 + (e.1 * cols + e.2) * w
theorem mem_streamCells {m n : Nat} {e : Nat × Nat} : e ∈ streamCells m n ↔ e.1 < m ∧ e.2 < n := by
  unfold streamCells
  rw [List.mem_flatMap]
  constructor
  · rintro ⟨i, hi, h⟩
    obtain ⟨j, hj, rfl⟩ := List.mem_map.1 h
    exact ⟨List.mem_range.1 hi, List.mem_range.1 hj⟩
  · rintro ⟨h1, h2⟩
    exact ⟨e.1, List.mem_range.2 h1, List.mem_map.2 ⟨e.2, List.mem_range.2 h2, rfl⟩⟩
theorem nodup_streamCells (m n : Nat) : (streamCells m n).Nodup := List.Nodup.product List.nodup_range List.nodup_range
/-- Two cells have places of their own. -/
theorem cell_apart {acc cols w : Nat} {e f : Nat × Nat} (he : e.2 < cols) (hf : f.2 < cols) (h : e ≠ f) :
    Apart (cellAt acc cols w e) w (cellAt acc cols w f) w := by
  have hne : e.1 * cols + e.2 ≠ f.1 * cols + f.2 := by
    intro hc
    have hd := congrArg (· / cols) hc
    have hm := congrArg (· % cols) hc
    rw [Nat.mul_comm e.1, Nat.mul_comm f.1, Nat.mul_add_div (by omega), Nat.mul_add_div (by omega), Nat.div_eq_of_lt he, Nat.div_eq_of_lt hf] at hd
    rw [Nat.mul_comm e.1, Nat.mul_comm f.1, Nat.mul_add_mod, Nat.mul_add_mod, Nat.mod_eq_of_lt he, Nat.mod_eq_of_lt hf] at hm
    exact h (Prod.ext hd hm)
  unfold Apart cellAt
  generalize e.1 * cols + e.2 = x at hne ⊢
  generalize f.1 * cols + f.2 = y at hne ⊢
  rcases Nat.lt_or_gt_of_ne hne with h | h
  · have := Nat.mul_le_mul_right w h
    rw [Nat.succ_mul] at this
    omega
  · have := Nat.mul_le_mul_right w h
    rw [Nat.succ_mul] at this
    omega
theorem cells_apart {acc cols w m : Nat} : (streamCells m cols).Pairwise (fun b c => Apart (cellAt acc cols w b) w (cellAt acc cols w c) w) :=
  (nodup_streamCells m cols).imp_of_mem (fun hb hc h => cell_apart (mem_streamCells.1 hb).2 (mem_streamCells.1 hc).2 h)
theorem cell_inTile {accs : List Nat} {acc cols w m : Nat} (hw : w = 4 ∨ w = 8) (hl : acc * 4096 + m * cols * w ≤ accs.length * 4096) {e : Nat × Nat}
    (h : e ∈ streamCells m cols) : InTile accs (cellAt acc cols w e) w := by
  obtain ⟨h1, h2⟩ := mem_streamCells.1 h
  refine inTile_of_dvd hw ?_ ?_
  · unfold cellAt
    generalize e.1 * cols + e.2 = x
    rcases hw with rfl | rfl <;> omega
  · have hx : e.1 * cols + e.2 + 1 ≤ m * cols := by
      have := Nat.mul_le_mul_right cols h1
      rw [Nat.succ_mul] at this
      omega
    have := Nat.mul_le_mul_right w hx
    rw [Nat.succ_mul] at this
    show acc * 4096 + (e.1 * cols + e.2) * w + w ≤ _
    refine Nat.le_trans ?_ hl
    rw [Nat.add_assoc]
    exact Nat.add_le_add_left this _

end Sys2Proof
end

