-- ==== Sys2Proof/Proofs/FloatStreams.lean ====
section
/-! SUPPORT. Streams of floats (R63, R221, R334): each K-group's exact sum is rounded once and added to its accumulator. -/

namespace Sys2Proof

open Machine

/-! ### The sum of a K-group -/

/-- The values of two elements as they are multiplied: numbers where both are, else zeros. -/
def elemX (f : Fmt) (x w : Elem) : FVal := match x, w with | .num u, .num _ => f.val u | _, _ => .fin false 0 0
def elemW (f : Fmt) (x w : Elem) : FVal := match x, w with | .num _, .num u => f.val u | _, _ => .fin false 0 0
/-- A product that has no value. -/
def BadTerm (f : Fmt) (x w : Elem) : Prop :=
  x = .bad ∨ w = .bad ∨ (elemX f x w).isNan ∨ (elemW f x w).isNan ∨ ((elemX f x w).isInf ∧ (elemW f x w).isZero) ∨ ((elemX f x w).isZero ∧ (elemW f x w).isInf)
/-- An infinite product of a sign. -/
def InfTerm (f : Fmt) (x w : Elem) (neg : Bool) : Prop := ((elemX f x w).isInf ∨ (elemW f x w).isInf) ∧ ((elemX f x w).neg ^^ (elemW f x w).neg) = neg
theorem elemPair_bad (f : Fmt) {x w : Elem} (h : x = .bad ∨ w = .bad) : elemPair f (x, w) = (.nan false, .nan false) := by
  rcases h with rfl | rfl
  · cases w <;> rfl
  · cases x <;> rfl
theorem elemPair_good (f : Fmt) {x w : Elem} (hx : x ≠ .bad) (hw : w ≠ .bad) : elemPair f (x, w) = (elemX f x w, elemW f x w) := by
  cases x with
  | bad => exact absurd rfl hx
  | zero =>
    cases w with
    | bad => exact absurd rfl hw
    | zero => rfl
    | num v => rfl
  | num u =>
    cases w with
    | bad => exact absurd rfl hw
    | zero => rfl
    | num v => rfl
/-- The product of two elements. -/
def elemProduct (f : Fmt) (x w : Elem) : FVal := (mulVal (elemPair f (x, w)).1 (elemPair f (x, w)).2).1
section
variable {f : Fmt} {x w : Elem}
theorem elemProduct_bad (h : BadTerm f x w) : (elemProduct f x w).isNan = true := by
  unfold elemProduct
  by_cases hb : x = .bad ∨ w = .bad
  · rw [elemPair_bad f hb]
    rfl
  · rw [not_or] at hb
    rw [elemPair_good f hb.1 hb.2]
    rcases h with h | h | h | h | h | h
    · exact absurd h hb.1
    · exact absurd h hb.2
    · rw [mulVal_nan ((Bool.or_eq_true _ _).to_iff.2 (.inl h))]
      rfl
    · rw [mulVal_nan ((Bool.or_eq_true _ _).to_iff.2 (.inr h))]
      rfl
    · rw [mulVal_invalid ((invalid_iff _ _).2 (.inl h))]
      rfl
    · rw [mulVal_invalid ((invalid_iff _ _).2 (.inr h))]
      rfl
theorem elemProduct_good (h : ¬ BadTerm f x w) : ((elemX f x w).isNan = false ∧ (elemW f x w).isNan = false) ∧ ¬ Invalid (elemX f x w) (elemW f x w) ∧
    elemProduct f x w = (mulVal (elemX f x w) (elemW f x w)).1 := by
  unfold BadTerm at h
  rw [not_or, not_or, not_or, not_or] at h
  obtain ⟨hx, hw, nx, nw, hv⟩ := h
  refine ⟨⟨Bool.eq_false_iff.2 nx, Bool.eq_false_iff.2 nw⟩, hv, ?_⟩
  unfold elemProduct
  rw [elemPair_good f hx hw]
theorem elemProduct_inf (h : ¬ BadTerm f x w) (g : Bool) : FVal.inf g = elemProduct f x w ↔ InfTerm f x w g := by
  obtain ⟨hn, hv, he⟩ := elemProduct_good h
  rw [he, (mulVal_valid hn hv).2.2, Bool.or_eq_true]
  exact and_congr_right fun _ => eq_comm
theorem elemProduct_fin (h : ¬ BadTerm f x w) (hi : ¬ InfTerm f x w true ∧ ¬ InfTerm f x w false) :
    ∃ m e, elemProduct f x w = .fin ((elemX f x w).neg ^^ (elemW f x w).neg) m e ∧ ratOf (elemProduct f x w) = ratOf (elemX f x w) * ratOf (elemW f x w) ∧
      (m == 0) = ((elemX f x w).isZero || (elemW f x w).isZero) := by
  obtain ⟨hn, hv, he⟩ := elemProduct_good h
  have hno : ¬ ((elemX f x w).isInf = true ∨ (elemW f x w).isInf = true) := fun hc => by
    cases hg : (elemX f x w).neg ^^ (elemW f x w).neg with
    | true => exact hi.1 ⟨hc, hg⟩
    | false => exact hi.2 ⟨hc, hg⟩
  rw [not_or] at hno
  rw [he]
  obtain ⟨a, m, e, ha⟩ := exists_fin hn.1 (Bool.eq_false_iff.2 hno.1)
  obtain ⟨b, n, g, hb⟩ := exists_fin hn.2 (Bool.eq_false_iff.2 hno.2)
  rw [ha, hb]
  refine ⟨m * n, e + g, rfl, (ratOf_mul ..).symm, Bool.eq_iff_iff.2 ?_⟩
  show (m * n == 0) = true ↔ ((m == 0) || (n == 0)) = true
  simp
end
/-- The sum of a K-group, rounded once. -/
def groupOf (f acc : Fmt) (g : Nat) (x w : Nat → Elem) : FRes := roundVal acc .rne (sumVals .rne ((List.range g).map (fun j => elemProduct f (x j) (w j)))).1
/-- What R334 says of it. -/
structure GroupIs (f acc : Fmt) (g : Nat) (x w : Nat → Elem) (v : FRes) : Prop where
  bad : (∃ j, j < g ∧ BadTerm f (x j) (w j)) → v.1 = acc.nan
  inf : (∀ j, j < g → ¬ BadTerm f (x j) (w j)) → ∀ neg, (∃ j, j < g ∧ InfTerm f (x j) (w j) neg) →
    ((∃ j, j < g ∧ InfTerm f (x j) (w j) (!neg)) → v.1 = acc.nan) ∧ (¬ (∃ j, j < g ∧ InfTerm f (x j) (w j) (!neg)) → v.1 = infBitsOf acc neg)
  fin : (∀ j, j < g → ¬ BadTerm f (x j) (w j)) → (∀ j, j < g → ¬ InfTerm f (x j) (w j) true ∧ ¬ InfTerm f (x j) (w j) false) →
    Rounds acc .rne ((List.range g).map (fun j => ratOf (elemX f (x j) (w j)) * ratOf (elemW f (x j) (w j)))).sum
      ((List.range g).all (fun j => ((elemX f (x j) (w j)).isZero || (elemW f (x j) (w j)).isZero) && ((elemX f (x j) (w j)).neg ^^ (elemW f (x j) (w j)).neg))) v
theorem mem_products {f : Fmt} {g : Nat} {x w : Nat → Elem} {v : FVal} :
    v ∈ (List.range g).map (fun j => elemProduct f (x j) (w j)) ↔ ∃ j, j < g ∧ elemProduct f (x j) (w j) = v := by
  rw [List.mem_map]
  exact exists_congr fun j => and_congr_left fun _ => List.mem_range
/-- Zeros of one sign give it to their sum; other sums of zero are positive. -/
theorem zeroSign_rne (xs : List FVal) : zeroSign .rne xs = xs.all (fun v => v.isZero && v.neg) := by
  have h : xs.all (fun v => v.isZero && v.neg) = (xs.all (·.isZero) && xs.all (·.neg)) := by
    induction xs with
    | nil => rfl
    | cons x xs ih =>
      rw [List.all_cons, List.all_cons, List.all_cons, ih, Bool.and_assoc, Bool.and_assoc, Bool.and_left_comm x.neg]
  unfold zeroSign
  rw [h]
  split
  · next h => exact h.symm
  · next h => rw [Bool.eq_false_iff.2 h]; exact ite_self false
theorem groupOf_is (f acc : Fmt) (g : Nat) (x w : Nat → Elem) : GroupIs f acc g x w (groupOf f acc g x w) := by
  have hnan : (∀ j, j < g → ¬ BadTerm f (x j) (w j)) → ∀ v ∈ (List.range g).map (fun j => elemProduct f (x j) (w j)), v.isNan = false := by
    intro h v hv
    obtain ⟨j, hj, rfl⟩ := mem_products.1 hv
    obtain ⟨hn, hi, he⟩ := elemProduct_good (h j hj)
    rw [he]
    exact (mulVal_valid hn hi).2.1
  have hinf : (∀ j, j < g → ¬ BadTerm f (x j) (w j)) → ∀ neg, FVal.inf neg ∈ (List.range g).map (fun j => elemProduct f (x j) (w j)) ↔
      ∃ j, j < g ∧ InfTerm f (x j) (w j) neg := fun h neg => by
    rw [mem_products]
    exact exists_congr fun j => and_congr_right fun hj => eq_comm.trans (elemProduct_inf (h j hj) neg)
  refine ⟨fun ⟨j, hj, h⟩ => ?_, fun h neg hi => ?_, fun h hi => ?_⟩
  · unfold groupOf
    rw [sumVals_nan .rne ⟨_, mem_products.2 ⟨j, hj, rfl⟩, elemProduct_bad h⟩]
    rfl
  · unfold groupOf
    rw [sumVals_inf .rne (hnan h) ((hinf h neg).2 hi), ← hinf h (!neg)]
    refine ⟨fun hb => ?_, fun hb => ?_⟩
    · rw [if_pos hb]
      rfl
    · rw [if_neg hb]
      rfl
  · obtain ⟨z, k, q, hs, hr⟩ := sumVals_fin acc .rne (xs := (List.range g).map (fun j => elemProduct f (x j) (w j))) (fun v hv => by
      obtain ⟨j, hj, rfl⟩ := mem_products.1 hv
      obtain ⟨m, e, he, -⟩ := elemProduct_fin (h j hj) (hi j hj)
      rw [he]
      exact ⟨rfl, rfl⟩)
    unfold groupOf
    rw [hs]
    have hsum : ((List.range g).map (fun j => elemProduct f (x j) (w j))).map ratOf =
        (List.range g).map (fun j => ratOf (elemX f (x j) (w j)) * ratOf (elemW f (x j) (w j))) := by
      rw [List.map_map]
      refine List.map_congr_left fun j hj => ?_
      obtain ⟨m, e, -, hr, -⟩ := elemProduct_fin (h j (List.mem_range.1 hj)) (hi j (List.mem_range.1 hj))
      exact hr
    have hz : zeroSign .rne ((List.range g).map (fun j => elemProduct f (x j) (w j))) = (List.range g).all
        (fun j => ((elemX f (x j) (w j)).isZero || (elemW f (x j) (w j)).isZero) && ((elemX f (x j) (w j)).neg ^^ (elemW f (x j) (w j)).neg)) := by
      rw [zeroSign_rne, List.all_map]
      refine Bool.eq_iff_iff.2 ?_
      rw [List.all_eq_true, List.all_eq_true]
      refine forall₂_congr fun j hj => ?_
      obtain ⟨m, e, he, -, hm⟩ := elemProduct_fin (h j (List.mem_range.1 hj)) (hi j (List.mem_range.1 hj))
      show ((elemProduct f (x j) (w j)).isZero && (elemProduct f (x j) (w j)).neg) = true ↔ _
      rw [he, ← hm]
      rfl
    rw [hsum, hz] at hr
    exact hr

/-! ### The accumulator as a stream passes -/

/-- The elements that a K-group of a stream reads. -/
def streamX (act : Window) (x koff g k j : Nat) : Elem := act.elem x (koff + k * g + j)
def streamW (p : Plane) (n g k j : Nat) : Elem := p.win.elem (p.noff + n) (p.koff + k * g + j)
def arrFmt (fmt : Nat) : Fmt := if fmt = 3 then fmt64 else fmt32
/-- An accumulator after `k` K-groups. -/
def floatAcc (fmt : Nat) (act : Window) (x koff : Nat) (p : Plane) (n v : Nat) : Nat → FRes
  | 0 => (v, flNone)
  | k + 1 =>
    let r := floatAcc fmt act x koff p n v k
    if act.kext ≤ koff + k * kGroup fmt ∨ p.win.kext ≤ p.koff + k * kGroup fmt then r
    else
      let t := groupSum (Machine.fmtOf fmt) (arrFmt fmt) ((List.range (kGroup fmt)).map (fun j => (streamX act x koff (kGroup fmt) k j, streamW p n (kGroup fmt) k j)))
      let u := fAdd (arrFmt fmt) .rne r.1 t.1
      (u.1, r.2 ||| t.2 ||| u.2)
theorem floatElem_eq (fmt kk : Nat) (act : Window) (x koff : Nat) (p : Plane) (n v : Nat) :
    floatElem fmt kk act x koff p n v = floatAcc fmt act x koff p n v (kk / kGroup fmt) := by
  unfold floatElem
  dsimp only
  generalize kk / kGroup fmt = c
  induction c with
  | zero => rfl
  | succ c ih =>
    rw [List.range_succ, List.foldl_append, ih]
    rfl
theorem groupSum_fst (f acc : Fmt) (g : Nat) (x w : Nat → Elem) : (groupSum f acc ((List.range g).map (fun j => (x j, w j)))).1 = (groupOf f acc g x w).1 := by
  unfold groupSum sumProducts groupOf
  dsimp only
  rw [List.nil_append, List.map_map, List.map_map, List.map_map]
  rfl
section
variable {fmt : Nat} (act : Window) (x koff : Nat) (p : Plane) (n v : Nat) (k : Nat)
theorem floatAcc_skips (h : act.kext ≤ koff + k * kGroup fmt ∨ p.win.kext ≤ p.koff + k * kGroup fmt) :
    (floatAcc fmt act x koff p n v (k + 1)).1 = (floatAcc fmt act x koff p n v k).1 := congrArg Prod.fst (if_pos h)
theorem floatAcc_next (h : ¬ (act.kext ≤ koff + k * kGroup fmt ∨ p.win.kext ≤ p.koff + k * kGroup fmt)) :
    (floatAcc fmt act x koff p n v (k + 1)).1 = (fAdd (arrFmt fmt) .rne (floatAcc fmt act x koff p n v k).1
      (groupOf (Machine.fmtOf fmt) (arrFmt fmt) (kGroup fmt) (streamX act x koff (kGroup fmt) k) (streamW p n (kGroup fmt) k)).1).1 := by
  rw [← groupSum_fst]
  exact (congrArg Prod.fst (if_neg h)).trans rfl
theorem floatAcc_adds (h : ¬ (act.kext ≤ koff + k * kGroup fmt ∨ p.win.kext ≤ p.koff + k * kGroup fmt)) :
    ∃ (t : FRes) (fl : BitVec 5), SumIs (arrFmt fmt) .rne ((arrFmt fmt).val (floatAcc fmt act x koff p n v k).1) ((arrFmt fmt).val t.1)
      ((floatAcc fmt act x koff p n v (k + 1)).1, fl) ∧
      GroupIs (Machine.fmtOf fmt) (arrFmt fmt) (kGroup fmt) (streamX act x koff (kGroup fmt) k) (streamW p n (kGroup fmt) k) t := by
  have hs := addVal_sumIs (arrFmt fmt) .rne ((arrFmt fmt).val (floatAcc fmt act x koff p n v k).1) ((arrFmt fmt).val (groupOf (Machine.fmtOf fmt) (arrFmt fmt) (kGroup fmt)
    (streamX act x koff (kGroup fmt) k) (streamW p n (kGroup fmt) k)).1)
  exact ⟨_, _, by rw [floatAcc_next _ _ _ _ _ _ _ h]; exact hs, groupOf_is ..⟩
end
/-- A rounded result has the bits of its format. -/
theorem finishF_lt {f : Fmt} (hf : f = fmt32 ∨ f = fmt64) (md : RMode) (r : FVal × BitVec 5) : (finishF f md r).1 < 2 ^ f.bits := by
  have hfine : FineFmt f := by
    rcases hf with rfl | rfl
    · exact fine_fmt32
    · exact fine_fmt64
  have hs : f.nan < 2 ^ f.bits ∧ ∀ n, f.sign n < 2 ^ f.bits ∧ f.sign n + f.infBits < 2 ^ f.bits := by
    rcases hf with rfl | rfl <;> decide
  obtain ⟨v, fl⟩ := r
  cases v with
  | nan g => exact hs.1
  | inf g => exact (hs.2 g).2
  | fin g m e =>
    show (roundFin f md g m e).1 < _
    by_cases hm : m = 0
    · subst hm
      rw [roundFin_zero]
      exact (hs.2 g).1
    · exact (roundFin_spec hfine md g hm e).1
theorem arrFmt_cases (fmt : Nat) : arrFmt fmt = fmt32 ∨ arrFmt fmt = fmt64 := by
  unfold arrFmt
  split
  · exact .inr rfl
  · exact .inl rfl
theorem arrFmt_bits {a : ArrayCfg} (h : a.fmt < 4) : 2 ^ (arrFmt a.fmt).bits = 256 ^ a.elem := by
  unfold arrFmt ArrayCfg.elem
  by_cases h3 : a.fmt = 3
  · rw [if_pos h3, if_neg (by omega)]
    rfl
  · rw [if_neg h3, if_pos (by omega)]
    rfl
theorem floatAcc_lt {fmt : Nat} (act : Window) (x koff : Nat) (p : Plane) (n : Nat) {v : Nat} (hv : v < 2 ^ (arrFmt fmt).bits) (k : Nat) :
    (floatAcc fmt act x koff p n v k).1 < 2 ^ (arrFmt fmt).bits := by
  induction k with
  | zero => exact hv
  | succ k ih =>
    by_cases h : act.kext ≤ koff + k * kGroup fmt ∨ p.win.kext ≤ p.koff + k * kGroup fmt
    · rw [floatAcc_skips _ _ _ _ _ _ _ h]
      exact ih
    · rw [floatAcc_next _ _ _ _ _ _ _ h]
      exact finishF_lt (arrFmt_cases fmt) ..

/-! ### The stream -/

section
variable {s : State} {tid : Nat} {acc m win sub moff koff : Nat}
theorem accFlags_reworked (s : State) (tid tile : Nat) (fl : BitVec 5) : Reworked tid s (s.modArr tid (fun c => c.addFlags tile fl)) :=
  modArr_reworked s tid (fun _ => rfl)
/-- An element of a stream of floats. -/
theorem streamElem_float {u : State} (hf : (u.mxCore tid).arr.fmt < 4) (kk : Nat) (act : Window) (p : Plane) (x koff n at_ : Nat) :
    u.streamElem tid (u.mxCore tid).arr kk act p x koff n at_ = (u.setAcc tid at_ (u.mxCore tid).arr.elem
      (floatElem (u.mxCore tid).arr.fmt kk act x koff p n (u.accNum tid at_ (u.mxCore tid).arr.elem)).1).modArr tid
      (fun c => c.addFlags (at_ / 4096) (floatElem (u.mxCore tid).arr.fmt kk act x koff p n (u.accNum tid at_ (u.mxCore tid).arr.elem)).2) := if_pos hf
/-- A stream of floats adds to each element of its tiles, and changes nothing else. -/
theorem stream_float (hT : TilesOf (s.troupe tid).accs) (hf : (s.mxCore tid).arr.fmt < 4)
    (hl : acc * 4096 + m * (s.mxCore tid).arr.shape.2 * (s.mxCore tid).arr.elem ≤ (s.troupe tid).accs.length * 4096) :
    Reworked tid s (s.stream tid acc m sub win moff koff) ∧ ∀ i n, i < m → n < (s.mxCore tid).arr.shape.2 →
      (s.stream tid acc m sub win moff koff).accNum tid (acc * 4096 + (i * (s.mxCore tid).arr.shape.2 + n) * (s.mxCore tid).arr.elem) (s.mxCore tid).arr.elem =
        (floatAcc (s.mxCore tid).arr.fmt (fget Window.init (s.troupe tid).windows win) (moff + i) koff (fget Plane.init (s.mxCore tid).arr.active sub) n
          (s.accNum tid (acc * 4096 + (i * (s.mxCore tid).arr.shape.2 + n) * (s.mxCore tid).arr.elem) (s.mxCore tid).arr.elem)
          ((s.mxCore tid).arr.shape.1 / kGroup (s.mxCore tid).arr.fmt)).1 := by
  have hw := elem_cases (s.mxCore tid).arr
  have hfold := fold_elements (tid := tid) (w := (s.mxCore tid).arr.elem) (cellAt acc (s.mxCore tid).arr.shape.2 (s.mxCore tid).arr.elem)
    (fun u e => u.streamElem tid (u.mxCore tid).arr (s.mxCore tid).arr.shape.1 (fget Window.init (s.troupe tid).windows win)
      (fget Plane.init (s.mxCore tid).arr.active sub) (moff + e.1) koff e.2 (cellAt acc (s.mxCore tid).arr.shape.2 (s.mxCore tid).arr.elem e))
    (streamCells m (s.mxCore tid).arr.shape.2) s cells_apart (fun u hu e he => by
      have hfu : (u.mxCore tid).arr.fmt < 4 := by rw [hu.fmt]; exact hf
      have hTu : TilesOf (u.troupe tid).accs := by rw [hu.troupe]; exact hT
      rw [streamElem_float hfu]
      refine ⟨(setAcc_reworked ..).trans (accFlags_reworked ..), fun c hc hd => ?_⟩
      refine SameElem.trans (setAcc_sameElem hTu ?_ ?_ ?_) (modArr_sameElem (fun _ => rfl))
      · rw [hu.troupe, hu.elem]
        exact cell_inTile hw hl he
      · rw [hu.troupe]
        exact cell_inTile hw hl hc
      · rw [hu.elem]
        exact hd)
  refine ⟨hfold.1, fun i n hi hn => ?_⟩
  obtain ⟨u, hu, h1, h2⟩ := hfold.2 (i, n) (mem_streamCells.2 ⟨hi, hn⟩)
  have hfu : (u.mxCore tid).arr.fmt < 4 := by rw [hu.fmt]; exact hf
  refine (h2.num _ _ le_rfl le_rfl).trans ?_
  rw [streamElem_float hfu, accNum_modArr, hu.elem, hu.fmt, accNum_setAcc_self, floatElem_eq, h1.num _ _ le_rfl le_rfl]
  refine Nat.mod_eq_of_lt ?_
  rw [← arrFmt_bits hf]
  refine floatAcc_lt _ _ _ _ _ ?_ _
  rw [arrFmt_bits hf]
  exact accNum_lt ..
end

end Sys2Proof
end

