-- ==== Sys2Proof/Proofs/ResidueSums.lean ====
section
/-! SUPPORT. Residue sums (R57, R58, R61, R62): the integer that a triple stands for, the product of two scales, what a block contributes. -/

namespace Sys2Proof

open Machine

/-! ### The integer of a triple (R61) -/

/-- The only integer of its range with the three residues. -/
theorem crt_eq {a b c : Nat} {x : Int} (h1 : -8388480 ≤ x) (h2 : x < 8388480) (ha : (x - a) % 255 = 0) (hb : (x - b) % 256 = 0) (hc : (x - c) % 257 = 0) :
    crt a b c = x := by
  obtain ⟨i, hi⟩ := Int.dvd_of_emod_eq_zero ha
  obtain ⟨j, hj⟩ := Int.dvd_of_emod_eq_zero hb
  obtain ⟨k, hk⟩ := Int.dvd_of_emod_eq_zero hc
  unfold crt
  dsimp only
  have hX : ((a * 8421376 + b * 16711425 + c * 8421120 : Nat) : Int) = x + 16776960 * (2 * x - 128 * i - 255 * j - 129 * k) := by omega
  generalize (2 * x - 128 * i - 255 * j - 129 * k) = t at hX
  generalize a * 8421376 + b * 16711425 + c * 8421120 = X at hX ⊢
  split <;> omega
/-- The integer of a triple lies in its range and has its residues. -/
theorem crt_spec (a b c : Nat) : -8388480 ≤ crt a b c ∧ crt a b c < 8388480 ∧ (crt a b c - a) % 255 = 0 ∧ (crt a b c - b) % 256 = 0 ∧ (crt a b c - c) % 257 = 0 := by
  unfold crt
  dsimp only
  split <;> omega

/-! ### Sums of products, modulo a number -/

theorem part_lt (e : Elem) (lo : Nat) {m : Nat} (hm : 0 < m) : e.part lo m < m := by
  cases e with
  | zero => exact hm
  | bad => exact hm
  | num v => exact Nat.mod_lt _ hm
/-- A code as the residues of an integer of a byte (R57). -/
def CodeOf (e : Elem) (x : Int) : Prop :=
  (e = .zero ∧ x = 0) ∨ (-128 ≤ x ∧ x ≤ 127 ∧ e = .num ((x % 255).toNat + 2 ^ 8 * (x % 256).toNat + 2 ^ 16 * (x % 257).toNat))
section
variable {e : Elem} {x : Int} (h : CodeOf e x)
include h
theorem CodeOf.good : e.isBad = false := by
  rcases h with ⟨rfl, -⟩ | ⟨-, -, rfl⟩ <;> rfl
theorem CodeOf.bounds : -128 ≤ x ∧ x ≤ 127 := by
  rcases h with ⟨-, rfl⟩ | ⟨h1, h2, -⟩
  · decide
  · exact ⟨h1, h2⟩
theorem CodeOf.parts : (e.part 0 256 : Int) = x % 255 ∧ (e.part 8 256 : Int) = x % 256 ∧ (e.part 16 512 : Int) = x % 257 := by
  rcases h with ⟨rfl, rfl⟩ | ⟨-, -, rfl⟩
  · decide
  · unfold Elem.part
    dsimp only
    have h1 : ((x % 255).toNat : Int) = x % 255 := Int.toNat_of_nonneg (by omega)
    have h2 : ((x % 256).toNat : Int) = x % 256 := Int.toNat_of_nonneg (by omega)
    have h3 : ((x % 257).toNat : Int) = x % 257 := Int.toNat_of_nonneg (by omega)
    have l1 : (x % 255).toNat < 255 := by omega
    have l2 : (x % 256).toNat < 256 := by omega
    have l3 : (x % 257).toNat < 257 := by omega
    rw [← h1, ← h2, ← h3]
    generalize (x % 255).toNat = a at l1
    generalize (x % 256).toNat = b at l2
    generalize (x % 257).toNat = c at l3
    omega
end
/-- A sum of products of residues has the residue of the sum of the products. -/
theorem sum_residues {md : Int} {b : Nat} {x w : Nat → Int} {u v : Nat → Nat} (h : ∀ j, j < b → (u j : Int) = x j % md ∧ (v j : Int) = w j % md) :
    (((List.range b).map (fun j => x j * w j)).sum - ((((List.range b).map (fun j => u j * v j)).sum : Nat) : Int)) % md = 0 := by
  induction b with
  | zero => exact Int.zero_emod md
  | succ b ih =>
    obtain ⟨hu, hv⟩ := h b (Nat.lt_succ_self b)
    rw [List.range_succ, List.map_append, List.map_append, List.sum_append, List.sum_append, List.map_singleton, List.map_singleton, List.sum_singleton, List.sum_singleton]
    push_cast
    rw [hu, hv]
    have h1 := Int.dvd_of_emod_eq_zero (ih (fun j hj => h j (Nat.lt_succ_of_lt hj)))
    have h2 : md ∣ x b * w b - x b % md * (w b % md) := Int.dvd_of_emod_eq_zero (Int.emod_eq_emod_iff_emod_sub_eq_zero.1 (Int.mul_emod ..))
    refine Int.emod_eq_zero_of_dvd ?_
    have := dvd_add h1 h2
    push_cast at this
    rwa [show ∀ p q r t : Int, p + q - (r + t) = (p - r) + (q - t) from fun p q r t => by ring]
theorem sum_bounds {b : Nat} {x w : Nat → Int} (h : ∀ j, j < b → (-128 ≤ x j ∧ x j ≤ 127) ∧ (-128 ≤ w j ∧ w j ≤ 127)) :
    -(16384 * b : Int) ≤ ((List.range b).map (fun j => x j * w j)).sum ∧ ((List.range b).map (fun j => x j * w j)).sum ≤ 16384 * b := by
  induction b with
  | zero => exact ⟨le_rfl, le_rfl⟩
  | succ b ih =>
    obtain ⟨h1, h2⟩ := ih (fun j hj => h j (Nat.lt_succ_of_lt hj))
    obtain ⟨⟨hx1, hx2⟩, hw1, hw2⟩ := h b (Nat.lt_succ_self b)
    rw [List.range_succ, List.map_append, List.sum_append, List.map_singleton, List.sum_singleton]
    have hp : -16384 ≤ x b * w b ∧ x b * w b ≤ 16384 := by constructor <;> nlinarith
    push_cast
    omega

/-! ### The product of two scales (R58) -/

/-- A scale that R58 allows: zero, or one of a moderate exponent. -/
def Legal (c : Nat) : Prop := c % 2 ^ 15 = 0 ∨ (64 ≤ c / 2 ^ 7 % 2 ^ 8 ∧ c / 2 ^ 7 % 2 ^ 8 ≤ 189)
theorem scaleLegal_iff (c : Nat) : scaleLegal c = true ↔ Legal c := by
  unfold scaleLegal Legal
  dsimp only
  rw [Bool.or_eq_true, Bool.and_eq_true, Bool.and_eq_true, beq_iff_eq, beq_iff_eq, decide_eq_true_iff, decide_eq_true_iff]
  omega
/-- The value of a legal scale. -/
theorem legal_val {c : Nat} (h : Legal c) : ∃ n m e, fmtB16.val c = .fin n m e ∧ m < 2 ^ 8 ∧ (m = 0 ∨ (-70 ≤ e ∧ e ≤ 55)) := by
  unfold Fmt.val
  dsimp only
  rw [show fmtB16.fb = 7 from rfl, show fmtB16.eb = 8 from rfl, show fmtB16.expMax = 255 from rfl, show fmtB16.qmin = -133 by decide]
  rcases h with h | ⟨h1, h2⟩
  · rw [if_neg (by omega), if_pos (by omega)]
    exact ⟨_, _, _, rfl, by omega, .inl (by omega)⟩
  · rw [if_neg (by omega), if_neg (by omega)]
    exact ⟨_, _, _, rfl, by omega, .inr (by omega)⟩
/-- The product of two legal scales is a number of FP32. -/
theorem scaleProduct_legal {sx sw : Nat} (hx : Legal sx) (hw : Legal sw) : ∃ m e, fmt32.val (scaleProduct sx sw).toNat = .fin ((fmtB16.val sx).neg ^^ (fmtB16.val sw).neg) m e ∧
    ratOf (fmt32.val (scaleProduct sx sw).toNat) = ratOf (fmtB16.val sx) * ratOf (fmtB16.val sw) := by
  obtain ⟨a, m, e, hvx, hm, he⟩ := legal_val hx
  obtain ⟨b, n, g, hvw, hn, hg⟩ := legal_val hw
  unfold scaleProduct
  rw [(scaleLegal_iff sx).2 hx, (scaleLegal_iff sw).2 hw, Bool.and_self, if_pos rfl, hvx, hvw, mulVal_fin]
  have hlt : (roundFin fmt32 .rne (a ^^ b) (m * n) (e + g)).1 < 2 ^ 32 := finishF_fin fmt32 .rne (a ^^ b) (m * n) (e + g) ▸ finishF_lt (.inl rfl) _ _
  have hsize : IsSize fmt32 (((m * n : Nat) : ℚ) * (2 : ℚ) ^ (e + g)) := by
    rcases he with rfl | he
    · exact ⟨0, 0, by decide, by decide, by decide, by simp⟩
    · rcases hg with rfl | hg
      · exact ⟨0, 0, by decide, by decide, by decide, by simp⟩
      · have hmn : m * n < 2 ^ 16 := by nlinarith
        refine ⟨m * n * 2 ^ 6, e + g - 6, ?_, ?_, ?_, ?_⟩
        · show m * n * 2 ^ 6 < 2 ^ 24
          omega
        · show (-149 : Int) ≤ _
          omega
        · show e + g - 6 ≤ (127 : Int) - 23
          omega
        · rw [show e + g = ((6 : Nat) : Int) + (e + g - 6) by omega, zpow_nat_mul]
          push_cast
          rw [show ((6 : Int) + (e + g - 6) - 6) = e + g - 6 by omega]
          ring
  obtain ⟨m', e', hv, hval, -⟩ := roundFin_exact fine_fmt32 .rne (a ^^ b) hsize
  rw [BitVec.toNat_ofNat, show roundVal fmt32 .rne (FVal.fin (a ^^ b) (m * n) (e + g)) = roundFin fmt32 .rne (a ^^ b) (m * n) (e + g) from rfl, Nat.mod_eq_of_lt hlt, hv]
  refine ⟨m', e', rfl, ?_⟩
  rw [ratOf_mul, ratOf_fin, ratOf_fin, hval]
theorem scaleProduct_illegal {sx sw : Nat} (h : ¬ (Legal sx ∧ Legal sw)) : scaleProduct sx sw = BitVec.ofNat 32 fmt32.nan := by
  refine if_neg (fun hc => h ?_)
  rw [Bool.and_eq_true, scaleLegal_iff, scaleLegal_iff] at hc
  exact hc

/-! ### What a block contributes (R62) -/

/-- An integer times a finite scale product, rounded once. -/
theorem blockValue_rounds (x : Int) {sp : W32} {n : Bool} {m : Nat} {e : Int} (h : fmt32.val sp.toNat = .fin n m e) :
    Rounds fmt32 .rne (x * ratOf (fmt32.val sp.toNat)) (decide (x < 0) ^^ n) (blockValue x sp) := by
  unfold blockValue
  rw [h]
  dsimp only
  rw [if_neg (by simp [FVal.isNan])]
  show Rounds fmt32 .rne _ _ (finishF fmt32 .rne (mulVal (.fin (decide (x < 0)) x.natAbs 0) (.fin n m e)))
  rw [mulVal_fin, finishF_fin, ← intVal_rat x, show intVal x = .fin (decide (x < 0)) x.natAbs 0 from rfl, ratOf_mul, ratOf_fin]
  exact rounds_fin ..
theorem blockValue_nan (x : Int) : blockValue x (BitVec.ofNat 32 fmt32.nan) = (fmt32.nan, flNV) := by
  unfold blockValue
  rw [if_pos (by decide)]
theorem fAdd_nan (v : Nat) : (fAdd fmt32 .rne v fmt32.nan).1 = fmt32.nan := by
  unfold fAdd
  rw [show fmt32.val fmt32.nan = .nan false by decide]
  cases fmt32.val v <;> rfl

end Sys2Proof
end

