-- ==== Sys2Proof/Proofs/CodeStreams.lean ====
section
/-! SUPPORT. Streams of codes (R57 to R62, R336): each block's exact sum times its scales is rounded once and added to its accumulator. -/

namespace Sys2Proof

open Machine

/-! ### Blocks -/

/-- A block's positions begin where the one before ends. -/
theorem filter_multiples (b c : Nat) (hb : 0 < b) : (List.range (c * b)).filter (fun p => p % b == 0) = (List.range c).map (· * b) := by
  obtain ⟨d, rfl⟩ : ∃ d, b = d + 1 := ⟨b - 1, by omega⟩
  induction c with
  | zero => rw [Nat.zero_mul]; rfl
  | succ c ih =>
    have hlast : ((List.range (d + 1)).map (c * (d + 1) + ·)).filter (fun p => p % (d + 1) == 0) = [c * (d + 1)] := by
      rw [List.range_succ_eq_map, List.map_cons, List.filter_cons_of_pos (by rw [beq_iff_eq, Nat.add_zero, Nat.mul_mod_left]), Nat.add_zero]
      congr 1
      rw [List.filter_eq_nil_iff]
      intro p hp
      obtain ⟨j, hj, rfl⟩ := List.mem_map.1 hp
      obtain ⟨i, hi, rfl⟩ := List.mem_map.1 hj
      rw [beq_iff_eq, Nat.mul_comm c, Nat.mul_add_mod, Nat.mod_eq_of_lt (by have := List.mem_range.1 hi; omega)]
      exact Nat.succ_ne_zero i
    rw [Nat.succ_mul, List.range_add, List.filter_append, ih, hlast, List.range_succ, List.map_append]
    rfl
theorem blockStarts_eq {kk koff b : Nat} (hb : 0 < b) (h1 : koff % b = 0) (h2 : kk % b = 0) : blockStarts kk koff b = (List.range (kk / b)).map (· * b) := by
  rw [← filter_multiples b (kk / b) hb, Nat.div_mul_cancel (Nat.dvd_of_mod_eq_zero h2)]
  unfold blockStarts
  refine List.filter_congr fun p _ => ?_
  have hmod : (koff + p) % b = p % b := by
    rw [Nat.add_mod, h1, Nat.zero_add, Nat.mod_mod]
  rw [hmod]
  by_cases hp : p = 0
  · subst hp
    rw [Nat.zero_mod]
    rfl
  · rw [beq_eq_false_iff_ne.2 hp, Bool.false_or]

/-! ### An accumulator as a stream passes -/

/-- A block of a stream of codes, or the part of one that lies in the plane, as R336 treats it. -/
def residueStep (kk : Nat) (act : Window) (x koff : Nat) (p : Plane) (n : Nat) (r : ResElem) (q : Nat) : ResElem :=
  let b := act.blk
  let j := (koff + q) / b
  let jw := (p.koff + q) / b
  if act.kext ≤ j * b ∨ p.win.kext ≤ jw * b then r
  else
    let stop := min kk ((j + 1) * b - koff)
    let ps := (List.range (stop - q)).map (fun i => (act.elem x (koff + q + i), p.win.elem (p.noff + n) (p.koff + q + i)))
    let sum := fun (lo m md : Nat) => (ps.map (fun (e : Elem × Elem) => e.1.part lo m * e.2.part lo m)).sum % md
    let a := (r.a + sum 0 256 255) % 255
    let bb := (r.b + sum 8 256 256) % 256
    let c := (r.c + sum 16 512 257) % 257
    let bad := ps.any (fun (e : Elem × Elem) => e.1.isBad || e.2.isBad)
    let r1 := if bad then { r with v := (fAdd fmt32 .rne r.v fmt32.nan).1, fl := r.fl ||| flNV } else r
    let sp := scaleProduct (act.scale x j) (p.win.scale (p.noff + n) jw)
    if koff + stop = (j + 1) * b then
      let t := blockValue (crt a bb c) sp
      let u := fAdd fmt32 .rne r1.v t.1
      { v := u.1, a := 0, b := 0, c := 0, isOpen := false, kept := none, fl := r1.fl ||| t.2 ||| u.2 }
    else { r1 with a := a, b := bb, c := c, isOpen := true, kept := some sp }
theorem residueElem_eq (kk : Nat) (act : Window) (x koff : Nat) (p : Plane) (n : Nat) (r0 : ResElem) :
    residueElem kk act x koff p n r0 = (blockStarts kk koff act.blk).foldl (residueStep kk act x koff p n) r0 := rfl
/-- No triple is open. -/
structure ShutAt (r : ResElem) (v : Nat) : Prop where
  v : r.v = v
  a : r.a = 0
  b : r.b = 0
  c : r.c = 0
  isOpen : r.isOpen = false
theorem ShutAt.word {r : ResElem} {v : Nat} (h : ShutAt r v) : tripleWord r = 0 := by
  unfold tripleWord
  rw [h.a, h.b, h.c, h.isOpen]
  rfl
theorem of_shut (v : Nat) (k : Option W32) : ShutAt (ResElem.of v 0 k) v := ⟨rfl, rfl, rfl, rfl, rfl⟩
/-- The integers that two rows of codes stand for. -/
structure CodesOf (act : Window) (x koff : Nat) (p : Plane) (n kk : Nat) (xs ws : Nat → Int) : Prop where
  act : ∀ q, q < kk → CodeOf (act.elem x (koff + q)) (xs q)
  plane : ∀ q, q < kk → CodeOf (p.win.elem (p.noff + n) (p.koff + q)) (ws q)
/-- The sum of a block. -/
def blockSum (xs ws : Nat → Int) (b k : Nat) : Int := ((List.range b).map (fun j => xs (k * b + j) * ws (k * b + j))).sum
/-- An accumulator after `k` blocks. -/
def codeAcc (act : Window) (x koff : Nat) (p : Plane) (n : Nat) (xs ws : Nat → Int) (v : Nat) : Nat → Nat
  | 0 => v
  | k + 1 =>
    let r := codeAcc act x koff p n xs ws v k
    if act.kext ≤ koff + k * act.blk ∨ p.win.kext ≤ p.koff + k * act.blk then r
    else (fAdd fmt32 .rne r (blockValue (blockSum xs ws act.blk k)
      (scaleProduct (act.scale x (koff / act.blk + k)) (p.win.scale (p.noff + n) (p.koff / act.blk + k)))).1).1
section
variable {kk : Nat} {act : Window} {x koff : Nat} {p : Plane} {n : Nat} {xs ws : Nat → Int} (hc : CodesOf act x koff p n kk xs ws)
  (hb : 0 < act.blk) (hk : koff % act.blk = 0) (hp : p.koff % act.blk = 0)
/-- The elements of block `k`. -/
def blockPairs (act : Window) (x koff : Nat) (p : Plane) (n k : Nat) : List (Elem × Elem) :=
  (List.range act.blk).map (fun i => (act.elem x (koff + k * act.blk + i), p.win.elem (p.noff + n) (p.koff + k * act.blk + i)))
/-- The sum of a block's residues. -/
def partSum (ps : List (Elem × Elem)) (lo m md : Nat) : Nat := (ps.map (fun (e : Elem × Elem) => e.1.part lo m * e.2.part lo m)).sum % md
include hc in
theorem pair_codes {k i : Nat} (h : (k + 1) * act.blk ≤ kk) (hi : i < act.blk) :
    CodeOf (act.elem x (koff + k * act.blk + i)) (xs (k * act.blk + i)) ∧ CodeOf (p.win.elem (p.noff + n) (p.koff + k * act.blk + i)) (ws (k * act.blk + i)) := by
  rw [Nat.succ_mul] at h
  rw [Nat.add_assoc, Nat.add_assoc]
  exact ⟨hc.act _ (by omega), hc.plane _ (by omega)⟩
include hc in
theorem block_good {k : Nat} (h : (k + 1) * act.blk ≤ kk) : (blockPairs act x koff p n k).any (fun e => e.1.isBad || e.2.isBad) = false := by
  rw [List.any_eq_false]
  intro e he
  obtain ⟨i, hi, rfl⟩ := List.mem_map.1 he
  obtain ⟨h1, h2⟩ := pair_codes hc h (List.mem_range.1 hi)
  dsimp only
  rw [h1.good, h2.good]
  decide
include hc in
/-- The triple of a block's sum stands for it. -/
theorem block_crt {k : Nat} (h : (k + 1) * act.blk ≤ kk) (h256 : act.blk ≤ 256) :
    crt ((0 + partSum (blockPairs act x koff p n k) 0 256 255) % 255) ((0 + partSum (blockPairs act x koff p n k) 8 256 256) % 256)
      ((0 + partSum (blockPairs act x koff p n k) 16 512 257) % 257) = blockSum xs ws act.blk k := by
  have hparts := fun i hi => (pair_codes hc h (i := i) hi).1.parts
  have hparts' := fun i hi => (pair_codes hc h (i := i) hi).2.parts
  obtain ⟨b1, b2⟩ := sum_bounds (b := act.blk) (x := fun i => xs (k * act.blk + i)) (w := fun i => ws (k * act.blk + i))
    (fun i hi => ⟨(pair_codes hc h hi).1.bounds, (pair_codes hc h hi).2.bounds⟩)
  have r1 := sum_residues (md := 255) (b := act.blk) (x := fun i => xs (k * act.blk + i)) (w := fun i => ws (k * act.blk + i))
    (fun i hi => ⟨(hparts i hi).1, (hparts' i hi).1⟩)
  have r2 := sum_residues (md := 256) (b := act.blk) (x := fun i => xs (k * act.blk + i)) (w := fun i => ws (k * act.blk + i))
    (fun i hi => ⟨(hparts i hi).2.1, (hparts' i hi).2.1⟩)
  have r3 := sum_residues (md := 257) (b := act.blk) (x := fun i => xs (k * act.blk + i)) (w := fun i => ws (k * act.blk + i))
    (fun i hi => ⟨(hparts i hi).2.2, (hparts' i hi).2.2⟩)
  have hs : ∀ lo m md, partSum (blockPairs act x koff p n k) lo m md = ((List.range act.blk).map (fun i =>
      (act.elem x (koff + k * act.blk + i)).part lo m * (p.win.elem (p.noff + n) (p.koff + k * act.blk + i)).part lo m)).sum % md := fun lo m md => by
    unfold partSum blockPairs
    rw [List.map_map]
    rfl
  rw [hs, hs, hs]
  unfold blockSum
  refine crt_eq ?_ ?_ ?_ ?_ ?_ <;> omega
include hc hb hk hp in
/-- A block that lies in the plane whole is added, and leaves no triple open. -/
theorem residueStep_block {r : ResElem} {v k : Nat} (h : (k + 1) * act.blk ≤ kk) (h256 : act.blk ≤ 256) (hr : ShutAt r v) :
    ShutAt (residueStep kk act x koff p n r (k * act.blk)) (if act.kext ≤ koff + k * act.blk ∨ p.win.kext ≤ p.koff + k * act.blk then v
      else (fAdd fmt32 .rne v (blockValue (blockSum xs ws act.blk k)
        (scaleProduct (act.scale x (koff / act.blk + k)) (p.win.scale (p.noff + n) (p.koff / act.blk + k)))).1).1) := by
  have hj : (koff + k * act.blk) / act.blk = koff / act.blk + k := Nat.add_mul_div_right _ _ hb
  have hjw : (p.koff + k * act.blk) / act.blk = p.koff / act.blk + k := Nat.add_mul_div_right _ _ hb
  have e1 : koff / act.blk * act.blk = koff := Nat.div_mul_cancel (Nat.dvd_of_mod_eq_zero hk)
  have e2 : p.koff / act.blk * act.blk = p.koff := Nat.div_mul_cancel (Nat.dvd_of_mod_eq_zero hp)
  have d1 : (koff / act.blk + k) * act.blk = koff + k * act.blk := by rw [Nat.add_mul, e1]
  have d2 : (p.koff / act.blk + k) * act.blk = p.koff + k * act.blk := by rw [Nat.add_mul, e2]
  have d3 : (koff / act.blk + k + 1) * act.blk = koff + (k + 1) * act.blk := by rw [Nat.succ_mul, d1, Nat.succ_mul, Nat.add_assoc]
  have hstop : min kk ((koff / act.blk + k + 1) * act.blk - koff) = (k + 1) * act.blk := by rw [d3]; omega
  have hlen : (k + 1) * act.blk - k * act.blk = act.blk := by rw [Nat.succ_mul]; omega
  unfold residueStep
  dsimp only
  rw [hj, hjw, d1, d2, hstop, hlen, if_pos d3.symm]
  by_cases hs : act.kext ≤ koff + k * act.blk ∨ p.win.kext ≤ p.koff + k * act.blk
  · rw [if_pos hs, if_pos hs]
    exact hr
  · rw [if_neg hs, if_neg hs]
    refine ⟨?_, rfl, rfl, rfl, rfl⟩
    have hgood := block_good hc h
    have hcrt := block_crt hc h h256
    unfold blockPairs at hgood
    unfold partSum blockPairs at hcrt
    rw [hgood, if_neg Bool.false_ne_true, hr.a, hr.b, hr.c, hr.v]
    dsimp only
    rw [hcrt]
include hc hb hk hp in
theorem residueElem_codes {v : Nat} {k0 : Option W32} (h256 : act.blk ≤ 256) (hkk : kk % act.blk = 0) :
    ShutAt (residueElem kk act x koff p n (ResElem.of v 0 k0)) (codeAcc act x koff p n xs ws v (kk / act.blk)) := by
  rw [residueElem_eq, blockStarts_eq hb hk hkk, List.foldl_map]
  have hle : kk / act.blk * act.blk ≤ kk := Nat.div_mul_le_self ..
  generalize kk / act.blk = c at hle
  induction c with
  | zero => exact of_shut v k0
  | succ c ih =>
    rw [List.range_succ, List.foldl_append]
    exact residueStep_block hc hb hk hp hle h256 (ih (le_trans (by rw [Nat.succ_mul]; omega) hle))
end
section
variable {act : Window} {x koff : Nat} {p : Plane} {n : Nat} {xs ws : Nat → Int} {v : Nat}
theorem codeAcc_skips {k : Nat} (h : act.kext ≤ koff + k * act.blk ∨ p.win.kext ≤ p.koff + k * act.blk) :
    codeAcc act x koff p n xs ws v (k + 1) = codeAcc act x koff p n xs ws v k := if_pos h
theorem codeAcc_next {k : Nat} (h : ¬ (act.kext ≤ koff + k * act.blk ∨ p.win.kext ≤ p.koff + k * act.blk)) :
    codeAcc act x koff p n xs ws v (k + 1) = (fAdd fmt32 .rne (codeAcc act x koff p n xs ws v k) (blockValue (blockSum xs ws act.blk k)
      (scaleProduct (act.scale x (koff / act.blk + k)) (p.win.scale (p.noff + n) (p.koff / act.blk + k)))).1).1 := if_neg h
/-- The sum of a block with legal scales is rounded once before it is added. -/
theorem codeAcc_adds {k : Nat} (h : ¬ (act.kext ≤ koff + k * act.blk ∨ p.win.kext ≤ p.koff + k * act.blk))
    (hx : Legal (act.scale x (koff / act.blk + k))) (hw : Legal (p.win.scale (p.noff + n) (p.koff / act.blk + k))) :
    ∃ (t : FRes) (fl : BitVec 5), SumIs fmt32 .rne (fmt32.val (codeAcc act x koff p n xs ws v k)) (fmt32.val t.1) (codeAcc act x koff p n xs ws v (k + 1), fl) ∧
      Rounds fmt32 .rne (blockSum xs ws act.blk k * ratOf (fmtB16.val (act.scale x (koff / act.blk + k))) * ratOf (fmtB16.val (p.win.scale (p.noff + n) (p.koff / act.blk + k))))
        (decide (blockSum xs ws act.blk k < 0) ^^ (fmtB16.val (act.scale x (koff / act.blk + k))).neg ^^ (fmtB16.val (p.win.scale (p.noff + n) (p.koff / act.blk + k))).neg) t := by
  obtain ⟨m, e, hv, hr⟩ := scaleProduct_legal hx hw
  have hb := blockValue_rounds (blockSum xs ws act.blk k) hv
  rw [hr, ← mul_assoc, ← Bool.xor_assoc] at hb
  have hs := addVal_sumIs fmt32 .rne (fmt32.val (codeAcc act x koff p n xs ws v k)) (fmt32.val (blockValue (blockSum xs ws act.blk k)
    (scaleProduct (act.scale x (koff / act.blk + k)) (p.win.scale (p.noff + n) (p.koff / act.blk + k)))).1)
  exact ⟨_, _, by rw [codeAcc_next h]; exact hs, hb⟩
theorem codeAcc_nan {k : Nat} (h : ¬ (act.kext ≤ koff + k * act.blk ∨ p.win.kext ≤ p.koff + k * act.blk))
    (hl : ¬ (Legal (act.scale x (koff / act.blk + k)) ∧ Legal (p.win.scale (p.noff + n) (p.koff / act.blk + k)))) :
    codeAcc act x koff p n xs ws v (k + 1) = fmt32.nan := by
  rw [codeAcc_next h, scaleProduct_illegal hl, blockValue_nan]
  exact fAdd_nan _
theorem codeAcc_lt (hv : v < 2 ^ 32) (k : Nat) : codeAcc act x koff p n xs ws v k < 2 ^ 32 := by
  induction k with
  | zero => exact hv
  | succ k ih =>
    by_cases h : act.kext ≤ koff + k * act.blk ∨ p.win.kext ≤ p.koff + k * act.blk
    · rw [codeAcc_skips h]
      exact ih
    · rw [codeAcc_next h]
      exact finishF_lt (.inl rfl) ..
end

/-! ### The stream -/

/-- An element of a stream of codes, with what it holds before. -/
def codeElem (u : State) (tid kk : Nat) (act : Window) (p : Plane) (x koff n at_ : Nat) : ResElem :=
  residueElem kk act x koff p n (ResElem.of (u.accNum tid at_ 4) (u.accNum tid (at_ + 4) 4) (flook (u.mxCore tid).arr.kept (at_ / 8)))
/-- The product kept for an element, or none. -/
def keptSet (m : FMap W32) (i : Nat) (k : Option W32) : FMap W32 := match k with | some k => fput m i k | none => fdel m i
theorem flook_keptSet_ne (m : FMap W32) {i j : Nat} (k : Option W32) (h : j ≠ i) : flook (keptSet m i k) j = flook m j := by
  cases k with
  | none => exact (flook_fdel m i j).trans (if_neg h)
  | some k => exact (flook_fput ..).trans (if_neg h)
section
variable {s u : State} {tid : Nat}
/-- The state in which the word of an element, then its triple, have been written. -/
def putElem (u : State) (tid at_ v w : Nat) : State := (u.setAcc tid at_ 4 v).setAcc tid (at_ + 4) 4 w
theorem putElem_reworked (u : State) (tid at_ v w : Nat) : Reworked tid u (putElem u tid at_ v w) := (setAcc_reworked ..).trans (setAcc_reworked ..)
theorem putElem_same {at_ v w off : Nat} (hT : TilesOf (u.troupe tid).accs) (ha : InTile (u.troupe tid).accs at_ 8) (ho : InTile (u.troupe tid).accs off 8)
    (hd : Apart at_ 8 off 8) : SameElem tid off 8 u (putElem u tid at_ v w) := by
  have h1 := setAcc_sameElem (s := u) (tid := tid) (v := v) hT (ha.part (c := at_) (j := 4) (by omega) (by omega)) ho (hd.part (by omega) (by omega))
  have hr := (setAcc_reworked u tid at_ 4 v).troupe tid
  refine h1.trans (setAcc_sameElem ?_ ?_ ?_ (hd.part (by omega) (by omega)))
  · rw [hr]
    exact hT
  · rw [hr]
    exact ha.part (by omega) (by omega)
  · rw [hr]
    exact ho
theorem putElem_nums {at_ v w : Nat} (hT : TilesOf (u.troupe tid).accs) (ha : InTile (u.troupe tid).accs at_ 8) :
    (putElem u tid at_ v w).accNum tid at_ 4 = v % 256 ^ 4 ∧ (putElem u tid at_ v w).accNum tid (at_ + 4) 4 = w % 256 ^ 4 := by
  have hr := (setAcc_reworked u tid at_ 4 v).troupe tid
  refine ⟨?_, accNum_setAcc_self ..⟩
  refine (accNum_setAcc_other ?_ ?_ ?_ (.inr le_rfl)).trans (accNum_setAcc_self ..)
  · rw [hr]
    exact hT
  · rw [hr]
    exact ha.part (by omega) (by omega)
  · rw [hr]
    exact ha.part (by omega) (by omega)
theorem streamElem_codes (hf : ¬ (u.mxCore tid).arr.fmt < 4) (kk : Nat) (act : Window) (p : Plane) (x koff n at_ : Nat) :
    u.streamElem tid (u.mxCore tid).arr kk act p x koff n at_ =
      (putElem u tid at_ (codeElem u tid kk act p x koff n at_).v (tripleWord (codeElem u tid kk act p x koff n at_))).modArr tid (fun c =>
        { c.addFlags (at_ / 4096) (codeElem u tid kk act p x koff n at_).fl with kept := keptSet c.kept (at_ / 8) (codeElem u tid kk act p x koff n at_).kept }) :=
  (if_neg hf).trans rfl
/-- A stream of codes adds to each element of its tiles, and changes nothing else. -/
theorem stream_codes {acc m win sub moff koff : Nat} (hT : TilesOf (s.troupe tid).accs) (hf : (s.mxCore tid).arr.fmt = 4)
    (hl : acc * 4096 + m * (s.mxCore tid).arr.shape.2 * 8 ≤ (s.troupe tid).accs.length * 4096) :
    Reworked tid s (s.stream tid acc m sub win moff koff) ∧ ∀ e ∈ streamCells m (s.mxCore tid).arr.shape.2,
      (s.stream tid acc m sub win moff koff).accNum tid (cellAt acc (s.mxCore tid).arr.shape.2 8 e) 4 =
        (codeElem s tid (s.mxCore tid).arr.shape.1 (fget Window.init (s.troupe tid).windows win) (fget Plane.init (s.mxCore tid).arr.active sub) (moff + e.1) koff e.2
          (cellAt acc (s.mxCore tid).arr.shape.2 8 e)).v % 256 ^ 4 ∧
      (s.stream tid acc m sub win moff koff).accNum tid (cellAt acc (s.mxCore tid).arr.shape.2 8 e + 4) 4 =
        tripleWord (codeElem s tid (s.mxCore tid).arr.shape.1 (fget Window.init (s.troupe tid).windows win) (fget Plane.init (s.mxCore tid).arr.active sub) (moff + e.1) koff e.2
          (cellAt acc (s.mxCore tid).arr.shape.2 8 e)) % 256 ^ 4 := by
  have hel := elem_codes hf
  have hin : ∀ e ∈ streamCells m (s.mxCore tid).arr.shape.2, InTile (s.troupe tid).accs (cellAt acc (s.mxCore tid).arr.shape.2 8 e) 8 :=
    fun e he => cell_inTile (.inr rfl) hl he
  have h8 : ∀ e, cellAt acc (s.mxCore tid).arr.shape.2 8 e / 8 = acc * 512 + (e.1 * (s.mxCore tid).arr.shape.2 + e.2) := by
    intro e
    unfold cellAt
    generalize e.1 * (s.mxCore tid).arr.shape.2 + e.2 = y
    omega
  have hfold := fold_elements (tid := tid) (w := 8) (cellAt acc (s.mxCore tid).arr.shape.2 8)
    (fun u e => u.streamElem tid (u.mxCore tid).arr (s.mxCore tid).arr.shape.1 (fget Window.init (s.troupe tid).windows win)
      (fget Plane.init (s.mxCore tid).arr.active sub) (moff + e.1) koff e.2 (cellAt acc (s.mxCore tid).arr.shape.2 8 e))
    (streamCells m (s.mxCore tid).arr.shape.2) s cells_apart (fun u hu e he => by
      have hfu : ¬ (u.mxCore tid).arr.fmt < 4 := by rw [hu.fmt, hf]; decide
      have hTu : TilesOf (u.troupe tid).accs := by rw [hu.troupe]; exact hT
      have hinu := hu.troupe tid ▸ hin
      rw [streamElem_codes hfu]
      refine ⟨(putElem_reworked ..).trans (modArr_reworked _ _ (fun _ => rfl)), fun c hc hd => ?_⟩
      refine (putElem_same hTu (hinu e he) (hinu c hc) hd).trans (modArr_sameElem (fun a => flook_keptSet_ne _ _ ?_))
      unfold Apart at hd
      rw [h8, h8]
      unfold cellAt at hd
      generalize e.1 * (s.mxCore tid).arr.shape.2 + e.2 = y at hd ⊢
      generalize c.1 * (s.mxCore tid).arr.shape.2 + c.2 = z at hd ⊢
      omega)
  have hst : s.stream tid acc m sub win moff koff = (streamCells m (s.mxCore tid).arr.shape.2).foldl (fun u e => u.streamElem tid (u.mxCore tid).arr
      (s.mxCore tid).arr.shape.1 (fget Window.init (s.troupe tid).windows win) (fget Plane.init (s.mxCore tid).arr.active sub) (moff + e.1) koff e.2
      (cellAt acc (s.mxCore tid).arr.shape.2 8 e)) s := by
    unfold State.stream
    dsimp only
    rw [hel]
    rfl
  rw [hst]
  refine ⟨hfold.1, fun e he => ?_⟩
  obtain ⟨u, hu, h1, h2⟩ := hfold.2 e he
  have hfu : ¬ (u.mxCore tid).arr.fmt < 4 := by rw [hu.fmt, hf]; decide
  have hTu : TilesOf (u.troupe tid).accs := by rw [hu.troupe]; exact hT
  have hinu := hu.troupe tid ▸ hin
  have hce : codeElem u tid (s.mxCore tid).arr.shape.1 (fget Window.init (s.troupe tid).windows win) (fget Plane.init (s.mxCore tid).arr.active sub) (moff + e.1) koff e.2
      (cellAt acc (s.mxCore tid).arr.shape.2 8 e) = codeElem s tid (s.mxCore tid).arr.shape.1 (fget Window.init (s.troupe tid).windows win)
      (fget Plane.init (s.mxCore tid).arr.active sub) (moff + e.1) koff e.2 (cellAt acc (s.mxCore tid).arr.shape.2 8 e) := by
    unfold codeElem
    rw [h1.num _ _ le_rfl (by omega), h1.num _ _ (by omega) (by omega), h1.kept]
  obtain ⟨n1, n2⟩ := putElem_nums (u := u) (tid := tid) (v := (codeElem u tid (s.mxCore tid).arr.shape.1 (fget Window.init (s.troupe tid).windows win)
    (fget Plane.init (s.mxCore tid).arr.active sub) (moff + e.1) koff e.2 (cellAt acc (s.mxCore tid).arr.shape.2 8 e)).v)
    (w := tripleWord (codeElem u tid (s.mxCore tid).arr.shape.1 (fget Window.init (s.troupe tid).windows win)
      (fget Plane.init (s.mxCore tid).arr.active sub) (moff + e.1) koff e.2 (cellAt acc (s.mxCore tid).arr.shape.2 8 e))) hTu (hinu e he)
  rw [h2.num _ _ le_rfl (by omega), h2.num _ _ (by omega) (by omega), streamElem_codes hfu, accNum_modArr, accNum_modArr, n1, n2, hce]
  exact ⟨rfl, rfl⟩
end

end Sys2Proof
end

