-- ==== Sys2Proof/Proofs/ArrayDrains.lean ====
section
/-! SUPPORT. Drains to registers (R222, R337): open triples are closed, and each element times the scale is rounded once. -/

namespace Sys2Proof

open Machine

/-! ### What a lane is given -/

/-- What is owed to a register under a tag comes with the value that is filled in. -/
theorem fill_gives {x : Lane} {tag : Nat} {d : Reg} (hd : d.toNat < 120) {v : W32} {e : Pend} (he : e ∈ (x.fill tag (outs32 d v)).pend) (ht : e.tag = tag)
    (hg : e.dst = .g d) : e.got = true ∧ e.val = v := by
  rw [fill_eq] at he
  obtain ⟨e0, -, rfl⟩ := List.mem_map.1 he
  have ht0 : e0.tag = tag := (filled_tag ..).symm.trans ht
  have hd0 : e0.dst = .g d := (filled_dst ..).symm.trans hg
  have hout : (outs32 d v).find? (fun o => o.1 == e0.dst) = some (.g d, v) := by
    rw [outs32_eq, to32, regs1, if_pos hd, hd0]
    exact List.find?_cons_of_pos (by simp)
  rw [filled_of ht0 hout]
  exact ⟨rfl, rfl⟩
/-- Flags that are noted leave what is owed as it is. -/
theorem pend_noted (s : State) (w l : Nat) {ls : List Nat} (h : ls.Nodup) (f : Nat → Lane → BitVec 5) :
    ((s.updLanes w ls (fun n x => { x with lflags := f n x })).lane w l).pend = (s.lane w l).pend := by
  rw [State.lane_updLanes_of_nodup _ _ _ _ h]
  split <;> rfl
/-- A lane receives an element's value times the scale, rounded once (R222). -/
def Gives (t : State) (wid tag : Nat) (d : Reg) (to_ from_ : Fmt) (sc : W32) (l v : Nat) : Prop :=
  ∀ e ∈ (t.lane wid l).pend, e.tag = tag → e.dst = .g d → e.got = true ∧
    ∃ r, ProductIs to_ .rne (from_.val v) (fmt32.val sc.toNat) r ∧ e.val = BitVec.ofNat 32 r.1

/-! ### Triples that are closed -/

/-- What an element's open triple adds where no product is missing. -/
def closing (u : State) (tid at_ : Nat) (k : W32) : FRes :=
  blockValue (crt (u.accNum tid (at_ + 4) 4 % 256) (u.accNum tid (at_ + 4) 4 / 2 ^ 8 % 256) (u.accNum tid (at_ + 4) 4 / 2 ^ 16 % 512)) k
section
variable {u : State} {tid : Nat}
theorem closeElem_shut (f : Nat) {at_ : Nat} (h : u.accNum tid (at_ + 4) 4 / 2 ^ 31 % 2 = 0) : u.closeElem tid f at_ = u := by
  refine if_pos ?_
  show (!(u.accNum tid (at_ + 4) 4 / 2 ^ 31 % 2 == 1)) = true
  rw [h]
  rfl
theorem closeElem_open (f : Nat) {at_ : Nat} (h : u.accNum tid (at_ + 4) 4 / 2 ^ 31 % 2 = 1) : ∃ (v : Nat) (fl : BitVec 5),
    u.closeElem tid f at_ = (putElem u tid at_ v 0).modArr tid (fun c => { c.addFlags (at_ / 4096) fl with kept := keptSet c.kept (at_ / 8) none }) ∧
    ∀ k, flook (u.mxCore tid).arr.kept (at_ / 8) = some k → v = (fAdd fmt32 .rne (u.accNum tid at_ 4) (closing u tid at_ k).1).1 := by
  refine ⟨_, _, (if_neg ?_).trans rfl, fun k hk => ?_⟩
  · show ¬ (!(u.accNum tid (at_ + 4) 4 / 2 ^ 31 % 2 == 1)) = true
    rw [h]
    decide
  · rw [hk]
    rfl
theorem closeElem_step {f at_ : Nat} (hT : TilesOf (u.troupe tid).accs) (ha : InTile (u.troupe tid).accs at_ 8) : Reworked tid u (u.closeElem tid f at_) ∧
    ∀ off, InTile (u.troupe tid).accs off 8 → Apart at_ 8 off 8 → off / 8 ≠ at_ / 8 → SameElem tid off 8 u (u.closeElem tid f at_) := by
  rcases Nat.mod_two_eq_zero_or_one (u.accNum tid (at_ + 4) 4 / 2 ^ 31) with h | h
  · rw [closeElem_shut f h]
    exact ⟨.refl .., fun _ _ _ _ => .refl ..⟩
  · obtain ⟨v, fl, he, -⟩ := closeElem_open f h
    rw [he]
    exact ⟨(putElem_reworked ..).trans (modArr_reworked _ _ (fun _ => rfl)), fun off ho hd hne =>
      (putElem_same hT ha ho hd).trans (modArr_sameElem (fun a => (flook_keptSet_ne a.kept none hne :)))⟩
end
section
variable {s : State} {tid tile nt : Nat}
theorem closeTiles_float (h : (s.mxCore tid).arr.fmt < 4) : s.closeTiles tid tile nt = s := if_pos h
/-- Each element of the tiles is closed as it was, and nothing else changes. -/
theorem closeTiles_codes (hT : TilesOf (s.troupe tid).accs) (hf : (s.mxCore tid).arr.fmt = 4) (hl : tile + nt ≤ (s.troupe tid).accs.length) :
    Reworked tid s (s.closeTiles tid tile nt) ∧ ∀ i, i < nt * 512 → ∃ u, Reworked tid s u ∧ SameElem tid (tile * 4096 + 8 * i) 8 s u ∧
      SameElem tid (tile * 4096 + 8 * i) 8 (u.closeElem tid u.fresh (tile * 4096 + 8 * i)) (s.closeTiles tid tile nt) := by
  have hin : ∀ i ∈ List.range (nt * 512), InTile (s.troupe tid).accs (tile * 4096 + 8 * i) 8 := fun i hi => by
    have := List.mem_range.1 hi
    exact inTile_of_dvd (.inr rfl) (by omega) (by omega)
  have hne : ∀ i j : Nat, Apart (tile * 4096 + 8 * i) 8 (tile * 4096 + 8 * j) 8 ↔ i ≠ j := fun i j => by
    unfold Apart
    omega
  have hfold := fold_elements (tid := tid) (w := 8) (fun i => tile * 4096 + 8 * i) (fun u i => u.closeElem tid u.fresh (tile * 4096 + 8 * i))
    (List.range (nt * 512)) { s with fresh := s.fresh + 1 } (List.nodup_range.imp (fun h => (hne _ _).2 h)) (fun u hu i hi => by
      have htr : u.troupe tid = s.troupe tid := hu.troupe tid
      have hTu : TilesOf (u.troupe tid).accs := by rw [htr]; exact hT
      have hinu := htr ▸ hin
      obtain ⟨h1, h2⟩ := closeElem_step (f := u.fresh) hTu (hinu i hi)
      refine ⟨h1, fun j hj hd => h2 _ (hinu j hj) hd ?_⟩
      have := (hne i j).1 hd
      omega)
  have hs : s.closeTiles tid tile nt = (List.range (nt * 512)).foldl (fun u i => u.closeElem tid u.fresh (tile * 4096 + 8 * i)) { s with fresh := s.fresh + 1 } := by
    unfold State.closeTiles
    rw [if_neg (by rw [hf]; decide)]
  rw [hs]
  have hr : Reworked tid s { s with fresh := s.fresh + 1 } := ⟨rfl, rfl, rfl, rfl, rfl⟩
  have hsame : ∀ off, SameElem tid off 8 s { s with fresh := s.fresh + 1 } := fun off => ⟨fun _ _ _ _ => rfl, rfl⟩
  refine ⟨hr.trans hfold.1, fun i hi => ?_⟩
  obtain ⟨u, h1, h2, h3⟩ := hfold.2 i (List.mem_range.2 hi)
  exact ⟨u, hr.trans h1, (hsame _).trans h2, h3⟩
theorem closeTiles_elem (hT : TilesOf (s.troupe tid).accs) (hf : (s.mxCore tid).arr.fmt = 4) (hl : tile + nt ≤ (s.troupe tid).accs.length) {i : Nat} (hi : i < nt * 512) :
    let at_ := tile * 4096 + 8 * i
    let t := s.closeTiles tid tile nt
    (s.accNum tid (at_ + 4) 4 / 2 ^ 31 % 2 = 0 → t.accNum tid at_ 4 = s.accNum tid at_ 4) ∧
    (s.accNum tid (at_ + 4) 4 / 2 ^ 31 % 2 = 1 → ∀ k, flook (s.mxCore tid).arr.kept (at_ / 8) = some k →
      t.accNum tid at_ 4 = (fAdd fmt32 .rne (s.accNum tid at_ 4) (closing s tid at_ k).1).1 ∧ t.accNum tid (at_ + 4) 4 = 0) := by
  intro at_ t
  obtain ⟨u, hu, h1, h2⟩ := (closeTiles_codes hT hf hl).2 i hi
  have hTu : TilesOf (u.troupe tid).accs := by rw [hu.troupe]; exact hT
  have hin : InTile (u.troupe tid).accs at_ 8 := by
    rw [hu.troupe]
    exact inTile_of_dvd (.inr rfl) (by omega) (by omega)
  have n1 : u.accNum tid at_ 4 = s.accNum tid at_ 4 := h1.num _ _ le_rfl (by omega)
  have n2 : u.accNum tid (at_ + 4) 4 = s.accNum tid (at_ + 4) 4 := h1.num _ _ (by omega) (by omega)
  have n3 : t.accNum tid at_ 4 = (u.closeElem tid u.fresh at_).accNum tid at_ 4 := h2.num _ _ le_rfl (by omega)
  have n4 : t.accNum tid (at_ + 4) 4 = (u.closeElem tid u.fresh at_).accNum tid (at_ + 4) 4 := h2.num _ _ (by omega) (by omega)
  refine ⟨fun h => ?_, fun h k hk => ?_⟩
  · rw [← n2] at h
    rw [n3, closeElem_shut _ h, n1]
  · rw [← n2] at h
    obtain ⟨v, fl, he, hv⟩ := closeElem_open u.fresh h
    obtain ⟨p1, p2⟩ := putElem_nums (v := v) (w := 0) hTu hin
    have hv := hv k (h1.kept.trans hk)
    rw [n3, n4, he, accNum_modArr, accNum_modArr, p1, p2, hv]
    unfold closing
    rw [n1, n2]
    exact ⟨Nat.mod_eq_of_lt (finishF_lt (.inl rfl) ..), rfl⟩
/-- What is added to an element whose triple was left open (R337). -/
theorem closing_spec (s : State) (tid at_ : Nat) {k : W32} (hn : (fmt32.val k.toNat).isNan = false) (hi : (fmt32.val k.toNat).isInf = false) :
    let w := s.accNum tid (at_ + 4) 4
    ∃ x : Int, -8388480 ≤ x ∧ x < 8388480 ∧ (x - w % 256) % 255 = 0 ∧ (x - w / 2 ^ 8 % 256) % 256 = 0 ∧ (x - w / 2 ^ 16 % 512) % 257 = 0 ∧
      Rounds fmt32 .rne (x * ratOf (fmt32.val k.toNat)) (decide (x < 0) ^^ (fmt32.val k.toNat).neg) (closing s tid at_ k) := by
  intro w
  obtain ⟨n, m, e, hv⟩ := exists_fin hn hi
  obtain ⟨h1, h2, h3, h4, h5⟩ := crt_spec (w % 256) (w / 2 ^ 8 % 256) (w / 2 ^ 16 % 512)
  have hr := blockValue_rounds (crt (w % 256) (w / 2 ^ 8 % 256) (w / 2 ^ 16 % 512)) hv
  refine ⟨_, h1, h2, ?_, ?_, ?_, ?_⟩
  · push_cast at h3
    exact h3
  · push_cast at h4
    exact h4
  · push_cast at h5
    exact h5
  · rw [show (fmt32.val k.toNat).neg = n by rw [hv]; rfl]
    exact hr
end

/-! ### The drain -/

section
variable {s : State} {tid wid ofmt nt tile tag : Nat} {lanes : LaneMask} {wh sc : W32} {d : Reg}
/-- A drain closes its tiles and changes the lanes of its wave, and nothing else. -/
theorem drain_regs_frame : s.drain tid wid lanes ofmt false nt tile wh sc d tag =
    { s.closeTiles tid tile nt with waves := (s.drain tid wid lanes ofmt false nt tile wh sc d tag).waves } := rfl
theorem drainVal_productIs (s : State) (tid tile i : Nat) {ofmt : Nat} (ho : ofmt < 3) (sc : W32) :
    ProductIs (if ofmt = 0 then fmt32 else if ofmt = 1 then fmtB16 else fmt16) .rne
      ((if (s.mxCore tid).arr.fmt = 3 then fmt64 else fmt32).val (s.accNum tid (tile * 4096 + i * (s.mxCore tid).arr.elem) (if (s.mxCore tid).arr.fmt = 3 then 8 else 4)))
      (fmt32.val sc.toNat) (s.drainVal tid tile i ofmt sc) := by
  have hout : outFmt ofmt = if ofmt = 0 then fmt32 else if ofmt = 1 then fmtB16 else fmt16 := by
    unfold outFmt
    by_cases h0 : ofmt = 0
    · rw [if_pos h0, if_pos h0]
    by_cases h1 : ofmt = 1
    · rw [if_neg h0, if_pos h1, if_neg h0, if_pos h1]
    · rw [if_neg h0, if_neg h1, if_pos (by omega), if_neg h0, if_neg h1]
  rw [← hout]
  exact mulVal_productIs ..
theorem drain_gives (ho : ofmt < 3) (hd : d.toNat < 120) {l : Nat} (hl : lanes.getLsbD l = true) :
    let u := s.closeTiles tid tile nt
    Gives (s.drain tid wid lanes ofmt false nt tile wh sc d tag) wid tag d (if ofmt = 0 then fmt32 else if ofmt = 1 then fmtB16 else fmt16)
      (if (u.mxCore tid).arr.fmt = 3 then fmt64 else fmt32) sc l
      (u.accNum tid (tile * 4096 + (wh.toNat + l) * (u.mxCore tid).arr.elem) (if (u.mxCore tid).arr.fmt = 3 then 8 else 4)) := by
  intro u e he ht hg
  have hpend : ((s.drain tid wid lanes ofmt false nt tile wh sc d tag).lane wid l).pend =
      ((u.lane wid l).fill tag (outs32 d (BitVec.ofNat 32 (u.drainVal tid tile (wh.toNat + l) ofmt sc).1))).pend := by
    unfold State.drain
    dsimp only
    rw [if_neg Bool.false_ne_true, pend_noted _ _ _ ((lanesOf_nodup lanes).sublist (List.take_sublist ..))]
    unfold fillTag
    rw [State.lane_updLanes, if_pos ⟨rfl, hl⟩]
    dsimp only
    rw [if_neg (by omega : ofmt ≠ 3)]
  rw [hpend] at he
  obtain ⟨h1, h2⟩ := fill_gives hd he ht hg
  exact ⟨h1, _, drainVal_productIs u tid tile (wh.toNat + l) ho sc, h2⟩
end

end Sys2Proof
end

