-- ==== Sys2Proof/Proofs/MatrixArray.lean ====
section
/-! SUPPORT. The work of the matrix array (R56 to R65, R219 to R223), and what settles O31. -/

namespace Sys2Proof

open Machine

/-! ### Work that is over -/

section
variable {s t : State} {tid : Nat} {y : MxItem}
theorem accNum_dropItem (t : State) (tid id off n : Nat) : (t.dropItem tid id).accNum tid off n = t.accNum tid off n := accNum_of_mem rfl rfl off n
/-- The only work of a troupe has been done. -/
theorem onHead_done {f : MxItem → Option State} (h : (s.mxCore tid).items tid = [y]) (hf : f y = some t) (ht : (t.mxCore tid).items tid = [y]) :
    onHead tid s f = .next (t.dropItem tid y.id) := by
  unfold onHead Core.head
  rw [h, List.head?_cons]
  dsimp only
  rw [hf]
  exact congrArg _ (itemDone_only ht)
theorem planeFill_done {sub win koff noff : Nat} (h : (s.mxCore tid).items tid = [y]) (hw : y.work = .stat sub win koff noff) :
    After (.planeFillDone tid) s (fun t => (t.mxCore tid).items tid = [] ∧ t.mem = s.mem ∧ t.waves = s.waves ∧
      flook (t.mxCore tid).arr.shadow sub = some ⟨true, koff, noff, fget Window.init (s.troupe tid).windows win⟩ ∧
      (t.mxCore tid).arr.active = (s.mxCore tid).arr.active) := by
  have hi := (items_modArr s tid (fun a => a.load sub ⟨true, koff, noff, fget Window.init (s.troupe tid).windows win⟩)).trans h
  have hx : exec (.planeFillDone tid) s = .next ((s.modArr tid (fun a => a.load sub ⟨true, koff, noff, fget Window.init (s.troupe tid).windows win⟩)).dropItem tid y.id) := by
    refine (show _ = execPlaneFillDone tid s from rfl).trans (onHead_done h ?_ hi)
    rw [hw]
  refine ⟨_, hx, items_dropItem hi, rfl, rfl, ?_⟩
  rw [mxCore_dropItem, mxCore_modArr]
  exact ⟨(flook_fput ..).trans (if_pos rfl), rfl⟩
theorem stream_done {acc m sub win moff koff : Nat} (h : (s.mxCore tid).items tid = [y]) (hw : y.work = .strm acc m sub win moff koff)
    (hr : Reworked tid s (s.stream tid acc m sub win moff koff)) :
    exec (.streamResults tid) s = .next ((s.stream tid acc m sub win moff koff).dropItem tid y.id) := by
  refine (show _ = execStreamResults tid s from rfl).trans (onHead_done h ?_ (hr.items.trans h))
  rw [hw]
theorem drain_items (s : State) (tid wid ofmt nt tile : Nat) (lanes : LaneMask) (wh sc : W32) (d : Reg) (tag : Nat)
    (hr : Reworked tid s (s.closeTiles tid tile nt)) (h : (s.mxCore tid).items tid = [y]) :
    ((s.drain tid wid lanes ofmt false nt tile wh sc d tag).mxCore tid).items tid = [y] := by
  rw [drain_regs_frame]
  exact hr.items.trans h
theorem drain_done {wid ofmt nt tile tag : Nat} {lanes : LaneMask} {wh sc : W32} {d : Reg} (h : (s.mxCore tid).items tid = [y])
    (hw : y.work = .drain wid lanes ofmt false nt tile wh sc d tag) (hr : Reworked tid s (s.closeTiles tid tile nt)) :
    exec (.drainWrite tid) s = .next ((s.drain tid wid lanes ofmt false nt tile wh sc d tag).dropItem tid y.id) := by
  refine (show _ = execDrainWrite tid s from rfl).trans (onHead_done h ?_ (drain_items _ _ _ _ _ _ _ _ _ _ _ hr h))
  rw [hw]
/-- An `mx.wait` with nothing before it ends (R223). -/
theorem mark_done {wid : Nat} {lanes : LaneMask} (h : (s.mxCore tid).items tid = [y]) (hw : y.work = .mark wid lanes) (ht : (s.wave wid).tid = tid)
    {r : WaitRec} {m : Mods} (hr : (s.wave wid).waits = [r]) (hi : r.instr = .mxWait m) (hg : r.grouped = false) (hl : r.lanes = lanes) (h0 : lanes ≠ 0) :
    After (.mxWaitDone wid) s (fun t => (t.mxCore tid).items tid = [] ∧ t.mem = s.mem ∧ (t.wave wid).waits = [] ∧
      ∀ l, lanes.getLsbD l = true → (t.lane wid l).waiting = false ∧ (t.lane wid l).pc = r.npc) := by
  subst hl
  have hne : (r.lanes &&& r.lanes != 0) = true := by
    rw [BitVec.and_self]
    exact bne_iff_ne.2 h0
  have hmark : (s.dropItem tid y.id).markDone wid r.lanes = (s.dropItem tid y.id).releaseWait wid r := by
    unfold State.markDone
    rw [show ((s.dropItem tid y.id).wave wid).waits = [r] from hr, List.find?_cons_of_pos (by rw [hne, hi]; rfl)]
  have hd := items_dropItem h
  have hrel : (s.dropItem tid y.id).releaseWait wid r = (s.dropItem tid y.id).modWave wid (fun v =>
      (v.unwait r.lanes).upd (lanesOf r.lanes) (fun _ l => { l with pc := r.npc, readyAt := (s.dropItem tid y.id).clockOf wid + 1 + r.stall })) := by
    unfold State.releaseWait
    rw [if_neg (by rw [hg]; decide)]
  have hx : exec (.mxWaitDone wid) s = .next ((s.dropItem tid y.id).releaseWait wid r) := by
    refine (show _ = execMxWaitDone wid s from rfl).trans ?_
    unfold execMxWaitDone
    rw [ht, settleMx_quick h (by rw [hw]; rfl) (by rw [hmark, hrel]; exact hd), hmark]
  rw [hrel] at hx
  refine ⟨_, hx, hd, rfl, ?_, fun l hl => ?_⟩
  · rw [State.wave_modWave_self]
    show ((s.wave wid).waits).filter _ = []
    rw [hr, List.filter_cons_of_neg, List.filter_nil]
    rw [BitVec.and_self, beq_iff_eq]
    exact h0
  · unfold State.lane
    rw [State.wave_modWave_self, Wave.lane_upd _ _ _ _ (lanesOf_nodup _), if_pos ((mem_lanesOf _ _).2 hl)]
    refine ⟨?_, rfl⟩
    show (((s.wave wid).upd (lanesOf r.lanes) (fun _ x => { x with waiting := false })).lane l).waiting = false
    rw [Wave.lane_upd _ _ _ _ (lanesOf_nodup _), if_pos ((mem_lanesOf _ _).2 hl)]
end

/-! ### The elements of a window (R59, R65, R208) -/

theorem elem_dense {w : Window} {x k : Nat} (hk : k < w.kext) (hx : x < w.xext) (hs : w.sp = false) :
    w.elem x k = .num (w.num ((x * w.kext + k) * elemBytes w.fmt) (elemBytes w.fmt)) := by
  unfold Window.elem Window.kst
  dsimp only
  rw [if_neg (by omega), if_neg (by omega), hs]
  rfl
theorem elem_sparse {w : Window} {x k : Nat} (hk : k < w.kext) (hx : x < w.xext) (hs : w.sp = true) :
    let pos := w.num (w.moff + 2 * (x * (w.kext / 16) + k / 16)) 2 / 2 ^ (4 * (k / 4 % 4))
    let kept := fun j => Elem.num (w.num ((x * (w.kext / 2) + 2 * (k / 4) + j) * elemBytes w.fmt) (elemBytes w.fmt))
    w.elem x k = if pos / 4 % 4 ≤ pos % 4 then .bad else if k % 4 = pos % 4 then kept 0 else if k % 4 = pos / 4 % 4 then kept 1 else .zero := by
  intro pos kept
  unfold Window.elem Window.kst
  dsimp only
  rw [if_neg (by omega), if_neg (by omega), hs, if_neg (by decide), if_pos rfl, show (16 : Nat) = 2 ^ 4 from rfl, ← pow_mul]
  rw [show w.num (w.moff + 2 * (x * (w.kext / 2 ^ 4) + k / 2 ^ 4)) 2 / 2 ^ (4 * (k / 4 % 4)) = pos from rfl]
  rw [show pos % 2 ^ 4 / 4 = pos / 4 % 4 by omega, show pos % 2 ^ 4 % 4 = pos % 4 by omega]

/-! ### The work of the array -/

theorem arrayWork : Claims.ArrayWork := by
  refine ⟨fun s tid y h => ?_, fun w x k => ⟨fun hk => if_pos hk, fun hk hx => ?_, fun hk hx => ⟨elem_dense hk hx, elem_sparse hk hx⟩⟩⟩
  · intro arr accs over_
    cases hw : y.work with
    | stat sub win koff noff => exact planeFill_done h hw
    | strm acc m sub win moff koff =>
      intro hN hl h64 act p
      refine ⟨fun hf => ?_, fun hf hb h256 hk hp hkk hshut x w hx hw' => ?_⟩
      · obtain ⟨hr, he⟩ := stream_float (sub := sub) (win := win) (moff := moff) (koff := koff) ⟨hN, h64⟩ hf hl
        refine ⟨_, stream_done h hw hr, items_dropItem (hr.items.trans h), hr.waves, hr.writes, fun i n hi hn => ?_⟩
        intro at_ g ef af
        refine ⟨fun k => (floatAcc arr.fmt act (moff + i) koff p n (s.accNum tid at_ arr.elem) k).1, rfl, (accNum_dropItem ..).trans (he i n hi hn), fun k hk => ?_⟩
        by_cases hskip : act.kext ≤ koff + k * g ∨ p.win.kext ≤ p.koff + k * g
        · rw [if_pos hskip]
          exact floatAcc_skips _ _ _ _ _ _ _ hskip
        · rw [if_neg hskip]
          obtain ⟨t, fl, hs, hg⟩ := floatAcc_adds act (moff + i) koff p n (s.accNum tid at_ arr.elem) k hskip
          refine ⟨t, fl, hs, hg.bad, fun hgood => ⟨fun neg hinf => ?_, hg.fin hgood⟩⟩
          obtain ⟨h1, h2⟩ := hg.inf hgood neg hinf
          by_cases hc : ∃ j, j < g ∧ InfTerm ef (streamX act (moff + i) koff g k j) (streamW p n g k j) (!neg)
          · exact (h1 hc).trans (if_pos hc).symm
          · exact (h2 hc).trans (if_neg hc).symm
      · have hel : arr.elem = 8 := elem_codes hf
        rw [hel] at hl
        obtain ⟨hr, he⟩ := stream_codes (sub := sub) (win := win) (moff := moff) (koff := koff) ⟨hN, h64⟩ hf hl
        refine ⟨_, stream_done h hw hr, items_dropItem (hr.items.trans h), hr.waves, hr.writes, fun i n hi hn => ?_⟩
        intro at_
        have hc : CodesOf act (moff + i) koff p n arr.shape.1 (x i) (w n) := ⟨fun q hq => hx i q hi hq, fun q hq => hw' n q hn hq⟩
        have hres := residueElem_codes hc hb hk hp (v := s.accNum tid at_ 4) (k0 := flook arr.kept (at_ / 8)) h256 hkk
        rw [← hshut i n hi hn] at hres
        obtain ⟨e1, e2⟩ := he (i, n) (mem_streamCells.2 ⟨hi, hn⟩)
        refine ⟨(accNum_dropItem ..).trans (e2.trans (congrArg (· % 256 ^ 4) hres.word)),
          fun k => codeAcc act (moff + i) koff p n (x i) (w n) (s.accNum tid at_ 4) k, rfl,
          (accNum_dropItem ..).trans (e1.trans ((congrArg (· % 256 ^ 4) hres.v).trans (Nat.mod_eq_of_lt (codeAcc_lt (accNum_lt s tid at_ 4) _)))), fun k _ => ?_⟩
        by_cases hskip : act.kext ≤ koff + k * act.blk ∨ p.win.kext ≤ p.koff + k * act.blk
        · rw [if_pos hskip]
          exact codeAcc_skips hskip
        · rw [if_neg hskip]
          intro sum sx sw legal
          by_cases hleg : Legal sx ∧ Legal sw
          · exact Eq.mpr (if_pos hleg) (codeAcc_adds hskip hleg.1 hleg.2)
          · exact Eq.mpr (if_neg hleg) (codeAcc_nan hskip hleg)
    | drain wid lanes ofmt scr nt tile wh sc d tag =>
      cases scr with
      | true => trivial
      | false =>
        intro ho hd size from_ to_ at_ gives
        refine ⟨fun hf => ?_, fun hf hN h64 hl hnt hwh => ?_⟩
        · have hct := closeTiles_float (tile := tile) (nt := nt) hf
          have hr : Reworked tid s (s.closeTiles tid tile nt) := hct.symm ▸ .refl tid s
          refine ⟨_, drain_done h hw hr, items_dropItem (drain_items _ _ _ _ _ _ _ _ _ _ _ hr h), ?_, fun l hl => ?_⟩
          · exact (show _ = (s.closeTiles tid tile nt).mem from rfl).trans (congrArg State.mem hct)
          · have hg := drain_gives (s := s) (tid := tid) (wid := wid) (nt := nt) (tile := tile) (tag := tag) (wh := wh) (sc := sc) ho hd hl
            rw [hct] at hg
            exact hg
        · obtain ⟨hr, -⟩ := closeTiles_codes ⟨hN, h64⟩ hf hl
          refine ⟨_, drain_done h hw hr, items_dropItem (drain_items _ _ _ _ _ _ _ _ _ _ _ hr h), fun l hbit => ?_⟩
          have hel : arr.elem = 8 := elem_codes hf
          have hat : at_ l = tile * 4096 + 8 * (wh.toNat + l) := by
            show tile * 4096 + (wh.toNat + l) * arr.elem = _
            rw [hel, Nat.mul_comm (wh.toNat + l)]
          have hlt := State.lane_lt_of_getLsbD hbit
          obtain ⟨hshut, hopen⟩ := closeTiles_elem (i := wh.toNat + l) ⟨hN, h64⟩ hf hl (by omega)
          have hg := drain_gives (s := s) (tid := tid) (wid := wid) (nt := nt) (tile := tile) (tag := tag) (wh := wh) (sc := sc) ho hd hbit
          dsimp only at hg
          rw [hr.fmt, hr.elem] at hg
          have hg4 : gives (s.drain tid wid lanes ofmt false nt tile wh sc d tag) l ((s.closeTiles tid tile nt).accNum tid (at_ l) size) := hg
          rw [show size = 4 from if_neg (by rw [hf]; decide)] at hg4
          rw [← hat] at hshut hopen
          refine ⟨fun h0 => ?_, fun h1 k hk hnan hinf => ?_⟩
          · rw [hshut h0] at hg4
            exact hg4
          · obtain ⟨e1, e2⟩ := hopen h1 k hk
            obtain ⟨x, b1, b2, c1, c2, c3, hx⟩ := closing_spec s tid (at_ l) hnan hinf
            rw [e1] at hg4
            exact ⟨x, _, _, b1, b2, c1, c2, c3, hx, addVal_sumIs .., (accNum_dropItem ..).trans e2, hg4⟩
    | mark wid lanes => exact fun ht r m hr hi hg hl h0 => mark_done h hw ht hr hi hg hl h0
    | fill | cfg | swap | zero | save | rest => trivial
  · unfold Window.elem
    dsimp only
    rw [if_neg (by omega), if_pos hx]

/-- Settles O31: the instructions of the array by what is accepted behind the work at the head, its work element by element: a
stream changes each accumulator as it was before the stream, and a drain closes and delivers each. -/
theorem matrixArray : Obligations.MatrixArray := ⟨arrayCommands, arrayWork⟩

end Sys2Proof
end
